-- ==== Sys2Proof/Word.lean ====
section
/-! DEFINITION. The words, formats, registers and tokens of the Byxa, and the messages that reach it from outside. -/

namespace Sys2Proof

abbrev Byte := BitVec 8
abbrev W16 := BitVec 16
abbrev W32 := BitVec 32
abbrev W64 := BitVec 64

/-- Bits hi to lo of v, as an unsigned integer (the helper Bits of R14). -/
def bits (v hi lo : Nat) : Nat := v / 2 ^ lo % 2 ^ (hi + 1 - lo)

/-- One bit of v. -/
def bit (v i : Nat) : Bool := v / 2 ^ i % 2 == 1

/-- The n-bit field v read as two's complement (the helper SignExt of R14). -/
def signExt (n v : Nat) : Int := if v % 2 ^ n < 2 ^ (n - 1) then (v % 2 ^ n : Nat) else (v % 2 ^ n : Nat) - (2 ^ n : Nat)

/-- An integer cut to n bits of two's complement. -/
def cut (n : Nat) (v : Int) : Nat := (v % (2 ^ n : Nat)).toNat

def Bool.nat (b : Bool) : Nat := if b then 1 else 0

/-- The sixteen format codes of R37, in code order. -/
inductive Fmt where
  | none | fp32 | bf16 | fp16 | e4m3 | e5m2 | e3m2 | e2m3 | e2m1 | mxint8 | s32 | n32 | s16 | s8 | rcd | vcb
  deriving DecidableEq, Repr, Inhabited

/-- A cell register, and the payload part of a token (R22): 16 lanes, valid bits, format tag, poison, origin, block scale. -/
structure Reg where
  data   : List W32
  valid  : W16
  fmt    : Fmt
  p      : Bool
  origin : Nat
  xs     : Nat
  deriving DecidableEq, Repr, Inhabited

/-- The token kinds of R27 and R31. -/
inductive TKind where
  | data | eos | mark | notice
  deriving DecidableEq, Repr, Inhabited

/-- A token: a payload with its element state, and the header fields of R27 that a register does not hold. -/
structure Token where
  reg   : Reg
  route : Nat
  b     : Bool
  kind  : TKind
  iter  : W16
  frame : Nat
  cfg   : Nat
  cls   : Nat
  deriving DecidableEq, Repr, Inhabited

/-- The key of an agent in the race checker (R103): route tag, core, agent handle. -/
structure AgentKey where
  route  : Nat
  core   : Nat
  handle : Nat
  deriving DecidableEq, Repr, Inhabited

/-- A clearance set (R95, R103): for each agent, the count up to which its holder is ordered after it. -/
abbrev Clr := List (AgentKey × Nat)

/-- The kinds of a remote scratchpad access (R102). -/
inductive RKind where
  | load | store | atom
  deriving DecidableEq, Repr, Inhabited

/-- A remote access in flight (R102, R113): who issued it, where it goes, what it does. `op`, `cmp`, `order` and `scope` serve atomics; `bytes` holds the
stored bytes or the operand; `mask` the bits that are written. `reply` says that it has performed and its completion or reply travels back; `bytes` then
holds the value read, `clr` what it releases to the reader. `rel` is the set that an atomic releases; `fail` the cause and address with which the access
faulted at its target. -/
structure RemoteReq where
  src    : AgentKey
  oc     : Nat
  clr    : Clr
  dst    : Nat
  addr   : Nat
  kind   : RKind
  size   : Nat
  bytes  : List Byte
  mask   : List Byte
  op     : Nat
  cmp    : Nat
  order  : Nat
  scope  : Nat
  qd     : Nat
  reply  : Bool
  rel    : Option Clr
  fail   : Option (Nat × Nat) := none
  deriving DecidableEq, Repr, Inhabited

/-- A host ingress message (R373): kind, channel, buffer handle, byte offset, declared count, payload, and whether a zero field is nonzero. -/
structure HostMsg where
  kind     : Nat
  channel  : Nat
  handle   : Nat
  offset   : Nat
  declared : Nat
  payload  : List Byte
  dirty    : Bool
  deriving DecidableEq, Repr, Inhabited

/-- A message of the collective engines of two packages about a communicator (R270, R283, R284): kind 0 COMM, 1 done notice, 2 commit, 3 a membership has
ended, 4 the communicator is broken, 5 a member is lost; the collective port that it goes to; the communicator's key, rank count, generation and rank table;
the sender's rank; the collective's place in issue order; and what it releases. -/
structure CollMsg where
  kind  : Nat
  dest  : Nat
  key   : Nat
  n     : Nat
  gen   : Nat
  rank  : Nat
  table : List Nat := []
  index : Nat := 0
  clr   : Clr := []
  deriving DecidableEq, Repr, Inhabited

/-- A flit of a chunk (R296, R366): the collective port that it goes to, the communicator's key and generation, the sender's rank, the collective's place in
issue order, and a token with its status; a flit of status entries, or of an empty chunk, has none. -/
structure ChunkFlit where
  dest  : Nat
  key   : Nat
  gen   : Nat
  rank  : Nat
  index : Nat
  tok   : Option Reg
  deriving DecidableEq, Repr, Inhabited

/-- What a strait flit carries for the machine behind it: a remote access, a stream token, a message of the collective engines, a part of a chunk, or another
load. -/
inductive FlitBody where
  | access (r : RemoteReq)
  | token (dest port : Nat) (t : Token)
  | coll (m : CollMsg)
  | chunk (c : ChunkFlit)
  | other
  deriving DecidableEq, Repr, Inhabited

/-- A strait flit (R366): virtual channel, sequence number, reservation bit S, whether its CRC holds, source tag, the tag of the package that it goes
to, the partition whose traffic it is, and its load. -/
structure Flit where
  vc    : Nat
  seq   : Nat
  s     : Bool
  crcOk : Bool
  tag   : Nat
  dest  : Nat
  part  : Nat
  body  : FlitBody
  deriving DecidableEq, Repr, Inhabited

/-- A packet at a Ultra Ethernet port (R371): whether its delivery mode is supported and whether its security check holds, and its message. -/
structure UePacket where
  modeOk : Bool
  wellFormed : Bool
  secOk  : Bool
  part   : Nat
  msg    : HostMsg
  deriving DecidableEq, Repr, Inhabited

end Sys2Proof
end

