-- ==== Sys2Proof/Syntax.lean ====
section
/-! DEFINITION. The instructions and events of the Byxa: one constructor for each row of spec/opcode_table.json. -/

namespace Sys2Proof

/-- One constructor for each row of the opcode table, in this order: cell instructions (fields of R135 as numbers),
compact cell instructions (R137), matrix-engine instructions (R145), region-controller instructions (R147; the long ones
with their extension word), and the events, which have no encoding: State.place holds where one happens and what it brings from outside.
The constructors that have no field stand last, because the compiled form of a type numbers at most 244 constructors with fields.
Field names: d a b operand codes, r rounding mode, s saturation, x variant bit, i immediate, f format code, o ordering id or offset,
h hold bit or history, e edge, c class or condition, t tagop or barrier index, p predicate, packing, operand number or operation. -/
inductive Instr where
  /-- ADD (R162): Cell lane add; float rounded, integer wrapped, with a trapping variant. -/
  | add (d a b r s x : Nat)
  /-- SUB (R162): Cell lane subtract; float rounded, integer wrapped, with a trapping variant. -/
  | sub (d a b r s x : Nat)
  /-- MUL (R162): Cell lane multiply; float rounded, integer wrapped, with a trapping variant. -/
  | mul (d a b r s x : Nat)
  /-- FMA (R162): Fused a·b + d with one rounding, written to d. -/
  | fma (d a b r s : Nat)
  /-- FMS (R162): Fused a·b − d with one rounding, written to d. -/
  | fms (d a b r s : Nat)
  /-- FNMA (R162): Fused −(a·b) + d with one rounding, written to d. -/
  | fnma (d a b r s : Nat)
  /-- MIN (R162): Per-lane lesser of two operands, −0 below +0. -/
  | min (d a b : Nat)
  /-- MAX (R162): Per-lane greater of two operands, −0 below +0. -/
  | max (d a b : Nat)
  /-- ABS (R162): Per-lane absolute value. -/
  | abs (d a : Nat)
  /-- NEG (R162): Per-lane negation. -/
  | negOp (d a : Nat)
  /-- DIV (R162): Per-lane division; float rounded, integer truncated toward zero. -/
  | div (d a b r s : Nat)
  /-- ADDS (R163): Integer add clamped to the tag's range. -/
  | adds (d a b : Nat)
  /-- SUBS (R163): Integer subtract clamped to the tag's range. -/
  | subs (d a b : Nat)
  /-- MULH (R163): Upper half of the exact integer product. -/
  | mulh (d a b : Nat)
  /-- ADDI (R164): Add a sign-extended 11-bit immediate to each lane. -/
  | addi (d a i : Nat)
  /-- MULI (R164): Multiply each lane by a sign-extended 11-bit immediate. -/
  | muli (d a i : Nat)
  /-- AND (R165): Bitwise AND on integer elements. -/
  | andOp (d a b : Nat)
  /-- OR (R165): Bitwise OR on integer elements. -/
  | orOp (d a b : Nat)
  /-- XOR (R165): Bitwise XOR on integer elements. -/
  | xor (d a b : Nat)
  /-- NOT (R165): Bitwise complement on integer elements. -/
  | notOp (d a : Nat)
  /-- SHL (R165): Per-lane left shift by b. -/
  | shl (d a b : Nat)
  /-- SHR (R165): Per-lane logical right shift by b. -/
  | shr (d a b : Nat)
  /-- SHA (R165): Per-lane arithmetic right shift by b. -/
  | sha (d a b : Nat)
  /-- ROT (R165): Per-lane rotate left by b mod w. -/
  | rot (d a b : Nat)
  /-- CLZ (R165): Per-lane count of leading zeros. -/
  | clz (d a : Nat)
  /-- POPC (R165): Per-lane count of one bits. -/
  | popc (d a : Nat)
  /-- ANDI (R165): Bitwise AND with an immediate. -/
  | andi (d a i : Nat)
  /-- ORI (R165): Bitwise OR with an immediate. -/
  | ori (d a i : Nat)
  /-- SHLI (R165): Left shift by an immediate 0–31. -/
  | shli (d a i : Nat)
  /-- SHRI (R165): Logical right shift by an immediate 0–31. -/
  | shri (d a i : Nat)
  /-- SHAI (R165): Arithmetic right shift by an immediate 0–31. -/
  | shai (d a i : Nat)
  /-- BFX (R165): Bit-field extract with optional sign extension. -/
  | bfx (d a x w l : Nat)
  /-- RCP (R166): Correctly rounded reciprocal. -/
  | rcp (d a r s : Nat)
  /-- RSQ (R166): Correctly rounded reciprocal square root. -/
  | rsq (d a r s : Nat)
  /-- SQRT (R166): Correctly rounded square root. -/
  | sqrt (d a r s : Nat)
  /-- EXP2 (R166): Correctly rounded 2^x. -/
  | exp2 (d a r s : Nat)
  /-- LOG2 (R166): Correctly rounded log2 x. -/
  | log2 (d a r s : Nat)
  /-- TANH (R166): Correctly rounded tanh x. -/
  | tanh (d a r s : Nat)
  /-- SINP (R166): Correctly rounded sin(πx). -/
  | sinp (d a r s : Nat)
  /-- COSP (R166): Correctly rounded cos(πx). -/
  | cosp (d a r s : Nat)
  /-- CMP (R167): Per-lane compare giving an all-ones or zero N32 mask. -/
  | cmp (d a b c : Nat)
  /-- SETV (R168): Clears valid bits of a where b is invalid or zero. -/
  | setv (d a b : Nat)
  /-- SEL (R168): Per-lane select of a or b by the predicate in l0. -/
  | sel (d a b : Nat)
  /-- CNTV (R168): Counts the valid lanes of a into every lane. -/
  | cntv (d a : Nat)
  /-- FIRSTV (R168): Gives the lowest valid lane number of a, or 16. -/
  | firstv (d a : Nat)
  /-- CLASS (R168): Gives a one-hot float class mask per lane. -/
  | classOp (d a : Nat)
  /-- CPSGN (R168): Magnitude of a with the sign of b. -/
  | cpsgn (d a b : Nat)
  /-- RNDI (R168): Rounds each lane to an integral value of its format. -/
  | rndi (d a r : Nat)
  /-- CVT (R169): Converts each lane to the target format by the conversion table. -/
  | cvt (d a f r s : Nat)
  /-- QNT (R169): Quantizes the token as one MX block with a computed scale. -/
  | qnt (d a f r : Nat)
  /-- DQN (R169): Dequantizes an MX token into a float format. -/
  | dqn (d a f r s : Nat)
  /-- XSC (R170): Quantizes a to the MX format and scale of b. -/
  | xsc (d a b r : Nat)
  /-- SHUF (R172): Per-lane permutation of a by indices in b. -/
  | shuf (d a b : Nat)
  /-- BCAST (R172): Broadcasts lane n of a to every lane. -/
  | bcast (d a i : Nat)
  /-- ROTL (R172): Rotates lanes of a by n. -/
  | rotl (d a i : Nat)
  /-- REDL (R173): Reduces the lanes of a by a fixed pairwise tree into lane 0. -/
  | redl (d a b r s : Nat)
  /-- SCANL (R173): Left-fold scan over the lanes of a. -/
  | scanl (d a b r s : Nat)
  /-- IOTA (R174): Writes start + i into lane i as S32. -/
  | iota (d i : Nat)
  /-- MOV (R174): Copies a register with all its parts. -/
  | mov (d a : Nat)
  /-- MOVI (R174): Writes a sign-extended 17-bit immediate to every lane as S32. -/
  | movi (d i : Nat)
  /-- MOVH (R174): Replaces the upper 16 bits of each lane of d. -/
  | movh (d i : Nat)
  /-- LDC (R174): Loads a constant-pool word into every lane. -/
  | ldc (d n : Nat)
  /-- TAGRD (R175): Reads a tag or header field of the task or an operand. -/
  | tagrd (d k f : Nat)
  /-- FMTS (R171): Changes a register's format tag without converting its bits. -/
  | fmts (d a f : Nat)
  /-- EMIT (R179): Stages one token from a source on an edge with a tag operation. -/
  | emit (e s c t g : Nat)
  /-- EMITV (R179): Stages one token with lanes cleared where the predicate is zero or invalid. -/
  | emitv (e s c t p : Nat)
  /-- STEER (R180): Sends the token on one of two edges, or splits it by lanes across both. -/
  | steer (e s c t x p : Nat)
  /-- MERGE (R181): Combines two tokens lane by lane by validity. -/
  | merge (d a b x : Nat)
  /-- EMEOS (R182): Stages one EOS on an edge. -/
  | emeos (e : Nat)
  /-- FWDM (R182): Emits the marker held in the context's marker slot and empties the slot. -/
  | fwdm (e : Nat)
  /-- CALL (R185): Stages a frame record and sends the argument under the reserved new frame. -/
  | call (e s c r k : Nat)
  /-- RET (R186): Returns the result to the caller's recorded edge and releases or keeps the frame. -/
  | ret (s x : Nat)
  /-- FILT (R184): Clears lanes by predicate and ends the task when none is left. -/
  | filt (d a b x : Nat)
  /-- COAL (R187): Appends valid elements to the coalescing buffer, emitting full tokens. -/
  | coal (d a : Nat)
  /-- FLUSHC (R187): Emits and empties a non-empty coalescing buffer. -/
  | flushc (d : Nat)
  /-- PCHK (R188): Gives an all-ones predicate when the operand is poisoned. -/
  | pchk (d a : Nat)
  /-- TRAPC (R188): Raises a cell software trap when any valid predicate lane is nonzero. -/
  | trapc (a i : Nat)
  /-- LDS (R190): Loads one token from scratchpad, unpacked or packed. -/
  | lds (d a f p : Nat)
  /-- STS (R190): Stores one token to scratchpad, locally or remotely. -/
  | sts (d a o h q p : Nat)
  /-- LDX (R191): Loads one element per lane from per-lane addresses. -/
  | ldx (d a f : Nat)
  /-- STX (R191): Stores one element per lane to per-lane addresses. -/
  | stx (d a o h : Nat)
  /-- ATOM (R192): Performs a scoped, ordered atomic on a scratchpad word. -/
  | atom (d a s r p z : Nat)
  /-- LDE (R194): Gathers from a node buffer, replying on an input port of the cell. -/
  | lde (a o f h p n : Nat)
  /-- STE (R194): Scatters valid elements into the node's shadow of a buffer. -/
  | ste (d a o h p : Nat)
  /-- ORDT (R193): Sends an ordering token to a memory cell of the same core. -/
  | ordt (a o : Nat)
  /-- FENCEM (R193): Memory-cell fence with an order and a scope. -/
  | fencem (s r : Nat)
  /-- CMPR (R195): Compresses a BF16 token into a value-coordinate token. -/
  | cmpr (d a : Nat)
  /-- EXPD (R195): Writes each valid VCB lane into a tile at its coordinate. -/
  | expd (d a o h : Nat)
  /-- RPUT (R197): Writes a token into the task's reserved ring slot. -/
  | rput (d a o h j : Nat)
  /-- RGET (R197): Reads a token from the task's taken ring slot. -/
  | rget (d a f j : Nat)
  /-- RFREE (R197): Frees the taken ring slot, sending a NOTICE to a feeding ring copy. -/
  | rfree (a : Nat)
  /-- TBARV (R198): Makes one arrival at a transaction barrier. -/
  | tbarv (a o h : Nat)
  /-- TBTST (R198): Reads a transaction barrier atomically. -/
  | tbtst (d a : Nat)
  /-- RMK (R217): Builds a record token from key, time, diff and value lanes. -/
  | rmk (d a b : Nat)
  /-- TJOIN (R218): Replaces a record's time by its join with b's time. -/
  | tjoin (d a b : Nat)
  /-- TMEET (R218): Replaces a record's time by its meet with b's time. -/
  | tmeet (d a b : Nat)
  /-- TLE (R219): Compares two times in the product order. -/
  | tle (d a b : Nat)
  /-- TADV (R218): Advances a record's time by a compaction frontier. -/
  | tadv (d a b : Nat)
  /-- HINS (R230): Inserts a change into a plain history. -/
  | hins (a h : Nat)
  /-- HSEEK (R231): Emits every entry of a history with the given key. -/
  | hseek (a h e : Nat)
  /-- HJOIN (R232): Applies a change to one join side and emits the corrections. -/
  | hjoin (a h e : Nat)
  /-- HRED (R233): Records a change in a reduce input and updates interesting times. -/
  | hred (d a h v : Nat)
  /-- HCONS (R235): Consolidates a history. -/
  | hcons (h : Nat)
  /-- HCOMP (R235): Compacts a history by a frontier after the COMPACT_AHEAD check. -/
  | hcomp (a h : Nat)
  /-- FNRD (R223): Reads a frontier register as an antichain token. -/
  | fnrd (d i : Nat)
  /-- FNPUT (R224): Stages a FRONTIER marker on an edge. -/
  | fnput (e s : Nat)
  /-- SCOPE (R220): Enters, feeds or leaves a loop by changing a record's round. -/
  | scope (d a b : Nat)
  /-- RHASH (R222): Hashes a record key, optionally to bucket bits. -/
  | rhash (d a i : Nat)
  /-- RNEG (R221): Negates the diff of a change. -/
  | rneg (d a : Nat)
  /-- ADD_COMPACT (R137): Compact add in RNE. -/
  | cAdd (d a b : Nat)
  /-- SUB_COMPACT (R137): Compact subtract in RNE. -/
  | cSub (d a b : Nat)
  /-- MUL_COMPACT (R137): Compact multiply in RNE. -/
  | cMul (d a b : Nat)
  /-- FMA_COMPACT (R137): Compact fused multiply-add with d as addend. -/
  | cFma (d a b : Nat)
  /-- MIN_COMPACT (R137): Compact minimum. -/
  | cMin (d a b : Nat)
  /-- MAX_COMPACT (R137): Compact maximum. -/
  | cMax (d a b : Nat)
  /-- AND_COMPACT (R137): Compact bitwise AND. -/
  | cAnd (d a b : Nat)
  /-- OR_COMPACT (R137): Compact bitwise OR. -/
  | cOr (d a b : Nat)
  /-- XOR_COMPACT (R137): Compact bitwise XOR. -/
  | cXor (d a b : Nat)
  /-- MOV_COMPACT (R137): Compact register move. -/
  | cMov (d a : Nat)
  /-- NEG_COMPACT (R137): Compact negation. -/
  | cNeg (d a : Nat)
  /-- ABS_COMPACT (R137): Compact absolute value. -/
  | cAbs (d a : Nat)
  /-- EXP2_COMPACT (R137): Compact 2^x in RNE. -/
  | cExp2 (d a : Nat)
  /-- RCP_COMPACT (R137): Compact reciprocal in RNE. -/
  | cRcp (d a : Nat)
  /-- RSQ_COMPACT (R137): Compact reciprocal square root in RNE. -/
  | cRsq (d a : Nat)
  /-- REDL_COMPACT (R137): Compact lane sum reduction in RNE. -/
  | cRedl (d a : Nat)
  /-- SEL_COMPACT (R137): Compact select by the predicate in l0. -/
  | cSel (d a b : Nat)
  /-- BCAST_COMPACT (R137): Compact broadcast of one lane. -/
  | cBcast (d a n : Nat)
  /-- SHL_COMPACT (R137): Compact left shift. -/
  | cShl (d a b : Nat)
  /-- SHR_COMPACT (R137): Compact logical right shift. -/
  | cShr (d a b : Nat)
  /-- EMIT_COMPACT (R137): Compact emit with tagop 0. -/
  | cEmit (e s c : Nat)
  /-- SETV_COMPACT (R137): Compact set-valid. -/
  | cSetv (d a b : Nat)
  /-- MMA (R207): Matrix instance adding A·B into accumulator tiles. -/
  | mma (mt nt kt acc afmt bfmt trig : Nat)
  /-- MMAZ (R207): Matrix instance zeroing the tiles, then adding A·B. -/
  | mmaz (mt nt kt acc afmt bfmt trig : Nat)
  /-- MMAT (R207): Matrix instance with B laid out K by N. -/
  | mmat (mt nt kt acc afmt bfmt trig : Nat)
  /-- MMAG (R208): Matrix instance over mask-selected rows of A. -/
  | mmag (mt nt kt acc afmt bfmt trig : Nat)
  /-- ACCZ (R209): Zeroes accumulator tiles. -/
  | accz (mt nt acc trig : Nat)
  /-- ACCRD (R210): Drains accumulator tiles as converted or quantized tokens. -/
  | accrd (mt nt acc rm trig sat q ofmt : Nat)
  /-- ACCWR (R209): Writes accumulator tiles from FP32 tokens. -/
  | accwr (mt nt acc afmt trig : Nat)
  /-- ACCAX (R209): Scales accumulator tiles and adds a bias. -/
  | accax (mt nt acc afmt bfmt rm trig : Nat)
  /-- RC_ADD (R241): RC 64-bit add. -/
  | rcAdd (d a b : Nat)
  /-- RC_SUB (R241): RC 64-bit subtract. -/
  | rcSub (d a b : Nat)
  /-- RC_MUL (R241): RC low 64 bits of a product. -/
  | rcMul (d a b : Nat)
  /-- RC_MULH (R241): RC upper 64 bits of a signed product. -/
  | rcMulh (d a b : Nat)
  /-- RC_AND (R241): RC bitwise AND. -/
  | rcAnd (d a b : Nat)
  /-- RC_OR (R241): RC bitwise OR. -/
  | rcOr (d a b : Nat)
  /-- RC_XOR (R241): RC bitwise XOR. -/
  | rcXor (d a b : Nat)
  /-- RC_SHL (R241): RC left shift by a register. -/
  | rcShl (d a b : Nat)
  /-- RC_SHR (R241): RC logical right shift by a register. -/
  | rcShr (d a b : Nat)
  /-- RC_SHA (R241): RC arithmetic right shift by a register. -/
  | rcSha (d a b : Nat)
  /-- SLT (R241): RC signed set-less-than. -/
  | rcSlt (d a b : Nat)
  /-- SLTN (R241): RC unsigned set-less-than. -/
  | rcSltn (d a b : Nat)
  /-- RC_MIN (R241): RC signed minimum. -/
  | rcMin (d a b : Nat)
  /-- RC_MAX (R241): RC signed maximum. -/
  | rcMax (d a b : Nat)
  /-- RC_ADDI (R241): RC add of a sign-extended immediate. -/
  | rcAddi (d a i : Nat)
  /-- RC_ANDI (R241): RC AND with a sign-extended immediate. -/
  | rcAndi (d a i : Nat)
  /-- LD (R242): RC scratchpad load, zero-extended. -/
  | rcLd (d a z o : Nat)
  /-- ST (R242): RC scratchpad store of the low bytes of a register. -/
  | rcSt (d a z o : Nat)
  /-- AMO (R243): RC scoped, ordered atomic on a scratchpad word. -/
  | rcAmo (d a b z r s p : Nat)
  /-- CAS (R243): RC compare-and-swap. -/
  | rcCas (d a b z r s : Nat)
  /-- FENCE (R244): RC fence with an order and a scope. -/
  | rcFence (r s : Nat)
  /-- MOVK (R241): Shifts a register left 15 and ORs in an immediate. -/
  | rcMovk (d a i : Nat)
  /-- RDS (R245): Reads a special register. -/
  | rcRds (d i : Nat)
  /-- WRS (R245): Writes a special register. -/
  | rcWrs (a i : Nat)
  /-- RDFN (R245): Reads an element or the count of a frontier register. -/
  | rcRdfn (d c e f : Nat)
  /-- RC_ORI (R241): RC OR with a zero-extended immediate. -/
  | rcOri (d a i : Nat)
  /-- RC_SHLI (R241): RC left shift by an immediate 0–63. -/
  | rcShli (d a i : Nat)
  /-- RC_SHRI (R241): RC logical right shift by an immediate 0–63. -/
  | rcShri (d a i : Nat)
  /-- BEQ (R246): Branch when equal. -/
  | rcBeq (a b o : Nat)
  /-- BNE (R246): Branch when not equal. -/
  | rcBne (a b o : Nat)
  /-- BLT (R246): Branch when signed less. -/
  | rcBlt (a b o : Nat)
  /-- BGE (R246): Branch when signed greater or equal. -/
  | rcBge (a b o : Nat)
  /-- BLTN (R246): Branch when unsigned less. -/
  | rcBltn (a b o : Nat)
  /-- BGEN (R246): Branch when unsigned greater or equal. -/
  | rcBgen (a b o : Nat)
  /-- JMP (R246): Relative jump. -/
  | rcJmp (o : Nat)
  /-- JAL (R246): Relative jump with link. -/
  | rcJal (d o : Nat)
  /-- JR (R246): Jump to a register target with link. -/
  | rcJr (d a : Nat)
  /-- LOOP (R247): Opens a counted hardware loop or skips its body. -/
  | rcLoop (c o : Nat)
  /-- BST (R248): Samples the status of copies, a communicator or a barrier atomically. -/
  | rcBst (d a s i : Nat)
  /-- WAITE (R249): Waits for masked event bits and clears those it returns. -/
  | rcWaite (d i : Nat)
  /-- TRAP (R250): Raises an RC software trap. -/
  | rcTrap (i : Nat)
  /-- SYS (R250): Calls the partition's supervisor and waits for RETS. -/
  | rcSys (d a i : Nat)
  /-- CFG (R251): Validates and queues a configuration image load. -/
  | rcCfg (ext : Nat)
  /-- ITER (R252): Sets the iteration space for later phases. -/
  | rcIter (a n : Nat)
  /-- SPEC (R253): Checks and installs a memory cell's stream specification. -/
  | rcSpec (d ext : Nat)
  /-- WAITR (R255): Waits for the running phase to complete and returns its completion word. -/
  | rcWaitr (d : Nat)
  /-- PSTAT (R255): Reads the completion word without waiting. -/
  | rcPstat (d : Nat)
  /-- BARC (R256): Places a barrier point into the streams of selected memory cells. -/
  | rcBarc (a : Nat)
  /-- INJ (R257): Injects one token at an input port fed by the RC port. -/
  | rcInj (d a b : Nat)
  /-- XTR (R258): Takes the head token of the RC extract FIFO into scratchpad. -/
  | rcXtr (d a : Nat)
  /-- CPY (R260): Issues a linear copy between scratchpad and a node buffer. -/
  | rcCpy (r a b t p : Nat)
  /-- CPYR (R260): Issues a ring copy into or out of a ring. -/
  | rcCpyr (r a b t p : Nat)
  /-- CPYG (R261): Issues a copy of mask-selected buffer rows into scratchpad. -/
  | rcCpyg (a b t p : Nat)
  /-- CPYX (R261): Issues an indexed gather copy of buffer rows. -/
  | rcCpyx (a b t p : Nat)
  /-- CPYS (R261): Issues an indexed scatter copy into buffer rows. -/
  | rcCpys (a b t p : Nat)
  /-- TBI (R263): Initialises a transaction barrier. -/
  | rcTbi (a t : Nat)
  /-- TBW (R263): Waits until a barrier's phase differs from the reference. -/
  | rcTbw (t : Nat)
  /-- TBEX (R263): Adds expected sectors to a barrier and evaluates completion. -/
  | rcTbex (a t : Nat)
  /-- SHD (R264): Rebases the node's snapshot and base version on the current version. -/
  | rcShd (d p : Nat)
  /-- PUB (R264): Waits for the node's copies to the buffer and publishes its shadow. -/
  | rcPub (d p : Nat)
  /-- DISC (R264): Discards the node's shadow of a buffer. -/
  | rcDisc (p : Nat)
  /-- CPST (R262): Stops the node's copies counting on a barrier or all its copies. -/
  | rcCpst (d t : Nat)
  /-- NDSUB (R265): Submits a node record to the scheduler. -/
  | rcNdsub (d a : Nat)
  /-- NDDEP (R265): Links an unsubmitted record as a successor of a node. -/
  | rcNddep (d a b : Nat)
  /-- NDWAIT (R265): Waits until a node has completed, terminated or been cancelled. -/
  | rcNdwait (d a : Nat)
  /-- NDSTAT (R265): Reads a node's state. -/
  | rcNdstat (d a : Nat)
  /-- COMM (R270): Forms or joins a communicator without waiting. -/
  | rcComm (d a : Nat)
  /-- COLL (R266): Issues a collective on a communicator. -/
  | rcColl (d a b p o : Nat)
  /-- CWAIT (R266): Waits for a collective and returns its status. -/
  | rcCwait (d a : Nat)
  /-- CSTAT (R266): Reads a collective's status now. -/
  | rcCstat (d a : Nat)
  /-- CSEL (R266): Overrides the selection table for later collectives on a communicator. -/
  | rcCsel (a b : Nat)
  /-- LI (R241): Loads a sign-extended 32-bit immediate. -/
  | rcLi (d ext : Nat)
  /-- LIH (R241): Loads the upper 32 bits of a register. -/
  | rcLih (d ext : Nat)
  /-- JL (R246): Jumps to an absolute address with link. -/
  | rcJl (d ext : Nat)
  /-- MTP (R314): Writes a privileged register on another core. -/
  | rcMtp (a b f : Nat)
  /-- MFP (R314): Reads a privileged register on another core. -/
  | rcMfp (d a f : Nat)
  /-- TLBI (R334): Invalidates cached translations of one VA. -/
  | rcTlbi (a : Nat)
  /-- TLBI_RANGE (R334): Invalidates cached translations of a VA range. -/
  | rcTlbiRange (a b : Nat)
  /-- CTXS (R324): Saves a frozen region's image and frees its cores. -/
  | rcCtxs (d a b : Nat)
  /-- CTXR (R325): Resumes a pre-empted region in place or from a saved image. -/
  | rcCtxr (d a b : Nat)
  /-- KILL (R327): Kills one region. -/
  | rcKill (a : Nat)
  /-- PRMT (R321): Starts pre-emption of one region. -/
  | rcPrmt (a : Nat)
  /-- SEALK (R359): Loads a key slot from a wrapped-key record. -/
  | rcSealk (d a b : Nat)
  /-- SEALK_RET (R359): Retires a key slot once idle. -/
  | rcSealkRet (a : Nat)
  /-- SEALK_CUR (R359): Makes a live key slot its tenant's current slot. -/
  | rcSealkCur (a : Nat)
  /-- SCRUB (R340): Reseals quarantined tiles with zero plaintext. -/
  | rcScrub (d a b : Nat)
  /-- MIGR (R339): Moves a page to a new physical address while programs run. -/
  | rcMigr (d a b : Nat)
  /-- CKPT (R377): Writes a checkpoint of tensors and captured regions. -/
  | rcCkpt (d a : Nat)
  /-- RSTR (R380): Restores tensors from a checkpoint manifest. -/
  | rcRstr (d a : Nat)
  /-- ATTEST (R363): Opens an attestation session and writes a signed report. -/
  | rcAttest (d a b : Nat)
  /-- ATTEST_ACC (R363): Completes a session and derives its session key. -/
  | rcAttestAcc (a b : Nat)
  /-- ATTEST_CLOSE (R363): Erases a session and its keys. -/
  | rcAttestClose (a : Nat)
  /-- RETS (R314): Resumes an RC waiting in SYS with a value. -/
  | rcRets (a b : Nat)
  /-- PART_CREATE (R315): Creates or replaces an empty partition and starts its supervisor. -/
  | rcPartCreate (d a b : Nat)
  /-- PART_DESTROY (R315): Destroys a partition, clearing its isles. -/
  | rcPartDestroy (d a b : Nat)
  /-- PART_READ (R315): Reads a partition's current descriptor. -/
  | rcPartRead (d a b : Nat)
  /-- EVTQ (R317): Sets the executing level's event queue. -/
  | rcEvtq (a b : Nat)
  /-- EVTQ_WAIT (R317): Waits until the event queue holds a record. -/
  | rcEvtqWait (d : Nat)
  /-- DROP (R183): Ends the task and discards its staged tokens. -/
  | dropOp
  /-- END (R183): Ends the task, letting its staged tokens enter their edges. -/
  | endOp
  /-- FREEF (R186): Releases the task's frame. -/
  | freef
  /-- END_COMPACT (R137): Compact end of a routine. -/
  | cEnd
  /-- DROP_COMPACT (R137): Compact drop. -/
  | cDrop
  /-- ENDL (R247): Ends a trip of the innermost loop, branching back or closing it. -/
  | rcEndl
  /-- HALT (R250): Waits for a running phase and ends the RC program. -/
  | rcHalt
  /-- CFGW (R251): Waits until every issued CFG has been applied. -/
  | rcCfgw
  /-- GO (R255): Waits for outstanding CFGs and starts a phase. -/
  | rcGo
  /-- ABORTR (R255): Ends a running phase, discarding left tokens. -/
  | rcAbortr
  /-- PIN (R259): Opens a standing node's ingress ports and readies its successors. -/
  | rcPin
  /-- TLBI_ALL (R334): Invalidates every cached translation of the partition. -/
  | rcTlbiAll
  /-- KILL_PART (R327): Kills every region of the partition. -/
  | rcKillPart
  /-- PRMT_PART (R321): Starts pre-emption of every region of the partition in stage order. -/
  | rcPrmtPart
  /-- POWER_ON_RESET (R381): Module power or the reset pin resets the package and runs the start stages. -/
  | evPowerOnReset
  /-- DATA_TOKEN_ARRIVAL (R60): A DATA token reaches a cell input port and waits for matching. -/
  | evDataTokenArrival
  /-- EOS_ARRIVAL (R66): An EOS reaches a cell port and is handled by the port's eos setting. -/
  | evEosArrival
  /-- MARK_ARRIVAL (R31): A MARK reaches a cell port and is handled by its marker behaviour. -/
  | evMarkArrival
  /-- NOTICE_ARRIVAL (R196): A NOTICE reaches a copy-engine notice port and starts one ring reservation. -/
  | evNoticeArrival
  /-- TASK_ADMIT (R62): An eligible task is admitted into the ready set with its reservations. -/
  | evTaskAdmit
  /-- TASK_DISPATCH (R63): The cell picks a ready task by the arbitration and starts its routine. -/
  | evTaskDispatch
  /-- STAGED_TOKEN_RELEASE (R177): A completed task's staged tokens enter their edges once its accesses perform. -/
  | evStagedTokenRelease
  /-- EOS_FORWARD (R66): The cell emits EOS on its edges once every fwd port has its EOS and earlier tokens are consumed. -/
  | evEosForward
  /-- SINK_EOS_COUNT (R66): A sink port counts its EOS once earlier tokens are consumed. -/
  | evSinkEosCount
  /-- MARKER_SLOT_FILL (R182): An accepted STEP, FRONTIER or CAPTURE enters the marker slot after earlier tokens are consumed. -/
  | evMarkerSlotFill
  /-- FRONTIER_ADVANCE (R124): A frontier register takes a marker's frontier once earlier tokens are consumed. -/
  | evFrontierAdvance
  /-- ARBITER_WEIGHT_RECOMPUTE (R63): Every 256 cycles context weights are recomputed and cur values reset. -/
  | evArbiterWeightRecompute
  /-- FRAME_WAIT_TIMEOUT (R69): A task waiting 1 ms for a frame posts call and frame EXHAUST and keeps waiting. -/
  | evFrameWaitTimeout
  /-- RETURN_ARRIVAL (R69): A RET result reaches the caller's cell and is emitted on the reserved credit. -/
  | evReturnArrival
  /-- CFG_LOAD_APPLY (R25): A queued configuration load takes effect once earlier tasks of the context complete. -/
  | evCfgLoadApply
  /-- GENERATOR_POINT (R254): An address generator issues the tokens of its next iteration point. -/
  | evGeneratorPoint
  /-- BARC_POINT (R256): Selected cells pass a barrier point once all reach it and earlier requests perform. -/
  | evBarcPoint
  /-- ORDERING_TOKEN_ARRIVAL (R92): An ordering token arrives and may release a held request. -/
  | evOrderingTokenArrival
  /-- VOID_SLOT_FREE (R196): A void slot at the ring head is freed before any taker. -/
  | evVoidSlotFree
  /-- COPY_OUT_SLOT_TAKE (R260): A ring copy out takes a ready slot and writes it to the buffer. -/
  | evCopyOutSlotTake
  /-- SECTOR_LANDING (R111): A copied 64-byte sector lands, decrementing its barrier. -/
  | evSectorLanding
  /-- REMOTE_ACCESS_ARRIVAL (R102): A remote load, store or atomic reaches its target core. -/
  | evRemoteAccessArrival
  /-- REMOTE_STORE_COMPLETION (R113): A remote store's completion returns to its issuer. -/
  | evRemoteStoreCompletion
  /-- HISTORY_COMMAND_ACCEPT (R227): The history unit accepts a command into its history's order. -/
  | evHistoryCommandAccept
  /-- HISTORY_COMMAND_APPLY (R130): The history unit applies the next command of a history whole. -/
  | evHistoryCommandApply
  /-- HISTORY_FRONTIER_ADVANCE (R234): A register advance reaches the history unit, emitting corrections, markers or an autocompact. -/
  | evHistoryFrontierAdvance
  /-- HISTORY_EOS_PASS (R291): The history unit passes an EOS to the history's output port. -/
  | evHistoryEosPass
  /-- BUCKET_SPILL (R129): A full history area spills its least recently used bucket. -/
  | evBucketSpill
  /-- BUCKET_FILL (R129): A spilled bucket is filled back for a waiting command. -/
  | evBucketFill
  /-- MATRIX_INSTANCE_START (R204): The instance at the head of port A starts once its first k-step is present. -/
  | evMatrixInstanceStart
  /-- MATRIX_EOS (R205): An EOS at a matrix port is taken and may be forwarded on the result route. -/
  | evMatrixEos
  /-- MATRIX_PREEMPT_SAVE (R214): At a pass boundary after PREEMPT or CAPTURE the engine saves its state and forwards the marker. -/
  | evMatrixPreemptSave
  /-- MATRIX_IDLE (R382): An engine with no step for 10 µs becomes idle. -/
  | evMatrixIdle
  /-- ISLE_RAMP_ADMIT (R382): The power manager admits one waiting isle's ramp every 500 ns. -/
  | evIsleRampAdmit
  /-- RAMP_STEP (R382): Every 250 ns the next core row's engines of a ramping isle are admitted. -/
  | evRampStep
  /-- PHASE_COMPLETE (R79): A phase completes when sinks are satisfied and tasks done, storing the completion word. -/
  | evPhaseComplete
  /-- COMMUNICATOR_FORMED (R270): A communicator forms once every member has issued a matching COMM. -/
  | evCommunicatorFormed
  /-- COMMUNICATOR_BROKEN (R270): A mismatched record or unreachable entry breaks the communicator on every member. -/
  | evCommunicatorBroken
  /-- CHUNK_START (R282): At a chunk boundary a port starts the highest-priority ready chunk. -/
  | evChunkStart
  /-- CHUNK_COMBINE (R272): A ready chunk opens a context-3 slot for its combination. -/
  | evChunkCombine
  /-- SLOT_CLOSE_TIMEOUT (R272): A context-3 slot closes after 2 µs. -/
  | evSlotCloseTimeout
  /-- ROUTER_STEP (R273): A STEP marker at a router advances its current set. -/
  | evRouterStep
  /-- DONE_NOTICE (R283): The coordinator receives a done notice and multicasts the commit when all arrive. -/
  | evDoneNotice
  /-- COMMIT (R283): On the commit a rank's engine copies staging to the destination and sets C. -/
  | evCommit
  /-- MEMBER_LOST (R284): Loss of a member before commit fails the collective and breaks the communicator. -/
  | evMemberLost
  /-- NODE_PLACE (R76): The scheduler places a ready node in a free rectangle and writes its launch block. -/
  | evNodePlace
  /-- NODE_AGING (R75): A node waiting 10 ms gains a priority level. -/
  | evNodeAging
  /-- NODE_COMPLETE (R80): A halted node completes once its engine operations finish, releasing successors. -/
  | evNodeComplete
  /-- HOST_WRITE (R373): A host write message lands in the channel's shadow. -/
  | evHostWrite
  /-- HOST_RAISING_WRITE (R373): A raising write message arrives with its declared count. -/
  | evHostRaisingWrite
  /-- HOST_CHANNEL_PUBLISH (R116): Once counted writes perform, the channel publishes and appends its token. -/
  | evHostChannelPublish
  /-- HOST_TOKEN_DELIVER (R373): The channel FIFO delivers its head token to the target port. -/
  | evHostTokenDeliver
  /-- HOST_SINK_ACK (R374): Transport acknowledgement completes a host sink node. -/
  | evHostSinkAck
  /-- UE_PACKET_RECEIVE (R371): A UE port receives a packet and checks mode and security. -/
  | evUePacketReceive
  /-- UE_PORT_DOWN (R371): A UE port goes down and its connections move to other ports. -/
  | evUePortDown
  /-- STRAIT_FLIT_RECEIVE (R367): A strait flit arrives and is checked, accepted or refused. -/
  | evStraitFlitReceive
  /-- NAK_RECEIVE (R368): A NAK makes the sender replay from its buffer, retraining after 8 replays. -/
  | evNakReceive
  /-- CREDIT_RETURN (R367): A receiver returns a credit to the reserve or pool that S names. -/
  | evCreditReturn
  /-- ESCAPE_VC_DIVERT (R369): A flit blocked 16 cycles moves to its escape VC. -/
  | evEscapeVcDivert
  /-- WATCHDOG_FIRST (R370): A head flit stalled past the first threshold posts an info record. -/
  | evWatchdogFirst
  /-- WATCHDOG_SECOND (R370): A head flit stalled past the second threshold raises a held-recoverable record. -/
  | evWatchdogSecond
  /-- EVENT_POST (R317): A source writes a record into an event queue, or waits for room. -/
  | evEventPost
  /-- TIMER_EXPIRY (R238): sr.timer reaches zero and sets event bit 5. -/
  | evTimerExpiry
  /-- PREEMPT_MARKER_FORWARD (R322): A cell forwards PREEMPT once it holds on every port and its tasks and returns drain. -/
  | evPreemptMarkerForward
  /-- REGION_FROZEN (R322): The region freezes when every sink has the marker. -/
  | evRegionFrozen
  /-- PREEMPT_TIMEOUT (R323): A region not frozen by the deadline is killed or runs on. -/
  | evPreemptTimeout
  /-- KILL_DONE (R327): When every engine of a killed region is quiescent, KILL_DONE is posted and the node terminates. -/
  | evKillDone
  /-- POWER_WINDOW (R383): Each 1 ms window the power manager throttles to stay under the limit. -/
  | evPowerWindow
  /-- THERMAL_WARNING (R384): Junction temperature crossing 95 °C upward posts an info record. -/
  | evThermalWarning
  /-- THERMAL_THROTTLE (R384): At 105 °C the die throttles until below 100 °C. -/
  | evThermalThrottle
  /-- THERMAL_SHUTDOWN (R384): At 115 °C package power is removed and the package resets. -/
  | evThermalShutdown
  /-- UNCORRECTABLE_ERROR (R343): An uncorrectable error in a unit's storage or transfer raises its DAMAGE cause. -/
  | evUncorrectableError
  /-- RC_ILLEGAL_ENCODING (R148): The RC executes a reserved opcode, or a word with a nonzero field that R147 marks 0, and traps with 0x0C0, changing nothing. -/
  | rcIllegalEncoding
  /-- REMOTE_REPLY (R239): The reply to a remote LD, AMO or CAS made through sr.far returns to the issuing RC, writing q[d] and ending its wait. -/
  | evRemoteReply
  /-- STRAIT_LINK_RETURN (R368): A strait link that could not be retrained returns, and the traffic that held for want of another path continues. -/
  | evStraitLinkReturn
  /-- THERMAL_THROTTLE_RELEASE (R384): A throttled die's junction temperature falls below 100 °C and its thermal throttling ends. -/
  | evThermalThrottleRelease
  /-- EXTRACT_FIFO_ARRIVAL (R258): A token on an edge whose destination is the RC port enters the RC extract FIFO and sets WAITE event bit 0. -/
  | evExtractFifoArrival
  deriving DecidableEq, Repr

end Sys2Proof
end

