-- ==== Sys2Proof/Decode.lean ====
section
/-! DEFINITION. The decoder: total on any bytes; what is no instruction is rejected by name. After it, the encoder, from the same
encoding tables (R135 to R142, R145, R147), and words written out from the encodings that the decoder reads as they stand. -/

namespace Sys2Proof

/-- Why bytes are no instruction. `truncated`: a word runs past the store (R144). `reserved`: an opcode that has no instruction (R142, R147).
`fixedField`: a field that the encoding fixes holds another value. -/
inductive DecodeError where
  | truncated | reserved (op : Nat) | fixedField (w : Nat)
  deriving DecidableEq, Repr

/-- A row: the instruction when the fixed fields hold, else the rejection. -/
def row (w : Nat) (ok : Prop) [Decidable ok] (i : Instr) : Except DecodeError Instr := if ok then .ok i else .error (.fixedField w)

/-- A compact halfword (R137): op5 in [15:11]. -/
def decodeCompact (w : Nat) : Except DecodeError Instr :=
  match bits w 15 11 with
  | 1 => row w (True) (.cAdd (bits w 10 8) (bits w 7 4) (bits w 3 0))
  | 2 => row w (True) (.cSub (bits w 10 8) (bits w 7 4) (bits w 3 0))
  | 3 => row w (True) (.cMul (bits w 10 8) (bits w 7 4) (bits w 3 0))
  | 4 => row w (True) (.cFma (bits w 10 8) (bits w 7 4) (bits w 3 0))
  | 5 => row w (True) (.cMin (bits w 10 8) (bits w 7 4) (bits w 3 0))
  | 6 => row w (True) (.cMax (bits w 10 8) (bits w 7 4) (bits w 3 0))
  | 7 => row w (True) (.cAnd (bits w 10 8) (bits w 7 4) (bits w 3 0))
  | 8 => row w (True) (.cOr (bits w 10 8) (bits w 7 4) (bits w 3 0))
  | 9 => row w (True) (.cXor (bits w 10 8) (bits w 7 4) (bits w 3 0))
  | 10 => row w (bits w 3 0 = 0) (.cMov (bits w 10 8) (bits w 7 4))
  | 11 => row w (bits w 3 0 = 0) (.cNeg (bits w 10 8) (bits w 7 4))
  | 12 => row w (bits w 3 0 = 0) (.cAbs (bits w 10 8) (bits w 7 4))
  | 13 => row w (bits w 3 0 = 0) (.cExp2 (bits w 10 8) (bits w 7 4))
  | 14 => row w (bits w 3 0 = 0) (.cRcp (bits w 10 8) (bits w 7 4))
  | 15 => row w (bits w 3 0 = 0) (.cRsq (bits w 10 8) (bits w 7 4))
  | 16 => row w (bits w 3 0 = 0) (.cRedl (bits w 10 8) (bits w 7 4))
  | 17 => row w (True) (.cSel (bits w 10 8) (bits w 7 4) (bits w 3 0))
  | 18 => row w (True) (.cBcast (bits w 10 8) (bits w 7 4) (bits w 3 0))
  | 19 => row w (True) (.cShl (bits w 10 8) (bits w 7 4) (bits w 3 0))
  | 20 => row w (True) (.cShr (bits w 10 8) (bits w 7 4) (bits w 3 0))
  | 21 => row w (True) (.cEmit (bits w 10 8) (bits w 7 4) (bits w 3 0))
  | 23 => row w (True) (.cSetv (bits w 10 8) (bits w 7 4) (bits w 3 0))
  | 0 => row w (bits w 10 0 = 0) (.cEnd)
  | 22 => row w (bits w 10 0 = 0) (.cDrop)
  | op => .error (.reserved op)

/-- A 32-bit cell instruction (R135, R142): bits [31:30] are 0b11 and the opcode stands in [29:23]. -/
def decodeCell32 (w : Nat) : Except DecodeError Instr :=
  if bits w 31 30 ≠ 3 then .error (.fixedField w) else
  match bits w 29 23 with
  | 0 => row w (True) (.add (bits w 22 17) (bits w 16 11) (bits w 10 5) (bits w 4 2) (bits w 1 1) (bits w 0 0))
  | 1 => row w (True) (.sub (bits w 22 17) (bits w 16 11) (bits w 10 5) (bits w 4 2) (bits w 1 1) (bits w 0 0))
  | 2 => row w (True) (.mul (bits w 22 17) (bits w 16 11) (bits w 10 5) (bits w 4 2) (bits w 1 1) (bits w 0 0))
  | 3 => row w (bits w 0 0 = 0) (.fma (bits w 22 17) (bits w 16 11) (bits w 10 5) (bits w 4 2) (bits w 1 1))
  | 4 => row w (bits w 0 0 = 0) (.fms (bits w 22 17) (bits w 16 11) (bits w 10 5) (bits w 4 2) (bits w 1 1))
  | 5 => row w (bits w 0 0 = 0) (.fnma (bits w 22 17) (bits w 16 11) (bits w 10 5) (bits w 4 2) (bits w 1 1))
  | 6 => row w (bits w 4 0 = 0) (.min (bits w 22 17) (bits w 16 11) (bits w 10 5))
  | 7 => row w (bits w 4 0 = 0) (.max (bits w 22 17) (bits w 16 11) (bits w 10 5))
  | 8 => row w (bits w 10 0 = 0) (.abs (bits w 22 17) (bits w 16 11))
  | 9 => row w (bits w 10 0 = 0) (.negOp (bits w 22 17) (bits w 16 11))
  | 10 => row w (bits w 0 0 = 0) (.div (bits w 22 17) (bits w 16 11) (bits w 10 5) (bits w 4 2) (bits w 1 1))
  | 11 => row w (bits w 4 0 = 0) (.adds (bits w 22 17) (bits w 16 11) (bits w 10 5))
  | 12 => row w (bits w 4 0 = 0) (.subs (bits w 22 17) (bits w 16 11) (bits w 10 5))
  | 13 => row w (bits w 4 0 = 0) (.mulh (bits w 22 17) (bits w 16 11) (bits w 10 5))
  | 14 => row w (True) (.addi (bits w 22 17) (bits w 16 11) (bits w 10 0))
  | 15 => row w (True) (.muli (bits w 22 17) (bits w 16 11) (bits w 10 0))
  | 16 => row w (bits w 4 0 = 0) (.andOp (bits w 22 17) (bits w 16 11) (bits w 10 5))
  | 17 => row w (bits w 4 0 = 0) (.orOp (bits w 22 17) (bits w 16 11) (bits w 10 5))
  | 18 => row w (bits w 4 0 = 0) (.xor (bits w 22 17) (bits w 16 11) (bits w 10 5))
  | 19 => row w (bits w 10 0 = 0) (.notOp (bits w 22 17) (bits w 16 11))
  | 20 => row w (bits w 4 0 = 0) (.shl (bits w 22 17) (bits w 16 11) (bits w 10 5))
  | 21 => row w (bits w 4 0 = 0) (.shr (bits w 22 17) (bits w 16 11) (bits w 10 5))
  | 22 => row w (bits w 4 0 = 0) (.sha (bits w 22 17) (bits w 16 11) (bits w 10 5))
  | 23 => row w (bits w 4 0 = 0) (.rot (bits w 22 17) (bits w 16 11) (bits w 10 5))
  | 24 => row w (bits w 10 0 = 0) (.clz (bits w 22 17) (bits w 16 11))
  | 25 => row w (bits w 10 0 = 0) (.popc (bits w 22 17) (bits w 16 11))
  | 26 => row w (True) (.andi (bits w 22 17) (bits w 16 11) (bits w 10 0))
  | 27 => row w (True) (.ori (bits w 22 17) (bits w 16 11) (bits w 10 0))
  | 28 => row w (True) (.shli (bits w 22 17) (bits w 16 11) (bits w 10 0))
  | 29 => row w (True) (.shri (bits w 22 17) (bits w 16 11) (bits w 10 0))
  | 30 => row w (True) (.shai (bits w 22 17) (bits w 16 11) (bits w 10 0))
  | 31 => row w (True) (.bfx (bits w 22 17) (bits w 16 11) (bits w 10 10) (bits w 9 5) (bits w 4 0))
  | 32 => row w (bits w 10 5 = 0 ∧ bits w 0 0 = 0) (.rcp (bits w 22 17) (bits w 16 11) (bits w 4 2) (bits w 1 1))
  | 33 => row w (bits w 10 5 = 0 ∧ bits w 0 0 = 0) (.rsq (bits w 22 17) (bits w 16 11) (bits w 4 2) (bits w 1 1))
  | 34 => row w (bits w 10 5 = 0 ∧ bits w 0 0 = 0) (.sqrt (bits w 22 17) (bits w 16 11) (bits w 4 2) (bits w 1 1))
  | 35 => row w (bits w 10 5 = 0 ∧ bits w 0 0 = 0) (.exp2 (bits w 22 17) (bits w 16 11) (bits w 4 2) (bits w 1 1))
  | 36 => row w (bits w 10 5 = 0 ∧ bits w 0 0 = 0) (.log2 (bits w 22 17) (bits w 16 11) (bits w 4 2) (bits w 1 1))
  | 37 => row w (bits w 10 5 = 0 ∧ bits w 0 0 = 0) (.tanh (bits w 22 17) (bits w 16 11) (bits w 4 2) (bits w 1 1))
  | 38 => row w (bits w 10 5 = 0 ∧ bits w 0 0 = 0) (.sinp (bits w 22 17) (bits w 16 11) (bits w 4 2) (bits w 1 1))
  | 39 => row w (bits w 10 5 = 0 ∧ bits w 0 0 = 0) (.cosp (bits w 22 17) (bits w 16 11) (bits w 4 2) (bits w 1 1))
  | 40 => row w (bits w 1 0 = 0) (.cmp (bits w 22 17) (bits w 16 11) (bits w 10 5) (bits w 4 2))
  | 41 => row w (bits w 4 0 = 0) (.setv (bits w 22 17) (bits w 16 11) (bits w 10 5))
  | 42 => row w (bits w 4 0 = 0) (.sel (bits w 22 17) (bits w 16 11) (bits w 10 5))
  | 43 => row w (bits w 10 0 = 0) (.cntv (bits w 22 17) (bits w 16 11))
  | 44 => row w (bits w 10 0 = 0) (.firstv (bits w 22 17) (bits w 16 11))
  | 45 => row w (bits w 10 0 = 0) (.classOp (bits w 22 17) (bits w 16 11))
  | 46 => row w (bits w 4 0 = 0) (.cpsgn (bits w 22 17) (bits w 16 11) (bits w 10 5))
  | 47 => row w (bits w 10 5 = 0 ∧ bits w 1 0 = 0) (.rndi (bits w 22 17) (bits w 16 11) (bits w 4 2))
  | 48 => row w (bits w 10 8 = 0) (.cvt (bits w 22 17) (bits w 16 11) (bits w 7 4) (bits w 3 1) (bits w 0 0))
  | 49 => row w (bits w 10 8 = 0 ∧ bits w 0 0 = 0) (.qnt (bits w 22 17) (bits w 16 11) (bits w 7 4) (bits w 3 1))
  | 50 => row w (bits w 10 8 = 0) (.dqn (bits w 22 17) (bits w 16 11) (bits w 7 4) (bits w 3 1) (bits w 0 0))
  | 51 => row w (bits w 1 0 = 0) (.xsc (bits w 22 17) (bits w 16 11) (bits w 10 5) (bits w 4 2))
  | 52 => row w (bits w 4 0 = 0) (.shuf (bits w 22 17) (bits w 16 11) (bits w 10 5))
  | 53 => row w (True) (.bcast (bits w 22 17) (bits w 16 11) (bits w 10 0))
  | 54 => row w (True) (.rotl (bits w 22 17) (bits w 16 11) (bits w 10 0))
  | 55 => row w (bits w 0 0 = 0) (.redl (bits w 22 17) (bits w 16 11) (bits w 10 5) (bits w 4 2) (bits w 1 1))
  | 56 => row w (bits w 0 0 = 0) (.scanl (bits w 22 17) (bits w 16 11) (bits w 10 5) (bits w 4 2) (bits w 1 1))
  | 57 => row w (bits w 16 11 = 0) (.iota (bits w 22 17) (bits w 10 0))
  | 58 => row w (bits w 10 0 = 0) (.mov (bits w 22 17) (bits w 16 11))
  | 59 => row w (True) (.movi (bits w 22 17) (bits w 16 0))
  | 60 => row w (bits w 16 16 = 0) (.movh (bits w 22 17) (bits w 15 0))
  | 61 => row w (True) (.ldc (bits w 22 17) (bits w 16 0))
  | 62 => row w (bits w 16 6 = 0) (.tagrd (bits w 22 17) (bits w 5 4) (bits w 3 0))
  | 63 => row w (bits w 10 8 = 0 ∧ bits w 3 0 = 0) (.fmts (bits w 22 17) (bits w 16 11) (bits w 7 4))
  | 64 => row w (True) (.emit (bits w 22 20) (bits w 19 14) (bits w 13 10) (bits w 9 7) (bits w 6 0))
  | 65 => row w (bits w 6 6 = 0) (.emitv (bits w 22 20) (bits w 19 14) (bits w 13 10) (bits w 9 7) (bits w 5 0))
  | 66 => row w (True) (.steer (bits w 22 20) (bits w 19 14) (bits w 13 10) (bits w 9 7) (bits w 6 6) (bits w 5 0))
  | 67 => row w (bits w 4 1 = 0) (.merge (bits w 22 17) (bits w 16 11) (bits w 10 5) (bits w 0 0))
  | 70 => row w (bits w 19 0 = 0) (.emeos (bits w 22 20))
  | 71 => row w (bits w 19 0 = 0) (.fwdm (bits w 22 20))
  | 72 => row w (bits w 9 7 = 4) (.call (bits w 22 20) (bits w 19 14) (bits w 13 10) (bits w 6 4) (bits w 3 0))
  | 73 => row w (bits w 22 20 = 0 ∧ bits w 13 1 = 320) (.ret (bits w 19 14) (bits w 0 0))
  | 75 => row w (bits w 4 1 = 0) (.filt (bits w 22 17) (bits w 16 11) (bits w 10 5) (bits w 0 0))
  | 76 => row w (bits w 10 0 = 0) (.coal (bits w 22 17) (bits w 16 11))
  | 77 => row w (bits w 16 0 = 0) (.flushc (bits w 22 17))
  | 78 => row w (bits w 10 0 = 0) (.pchk (bits w 22 17) (bits w 16 11))
  | 79 => row w (bits w 22 17 = 0) (.trapc (bits w 16 11) (bits w 10 0))
  | 80 => row w (bits w 10 8 = 0 ∧ bits w 3 1 = 0) (.lds (bits w 22 17) (bits w 16 11) (bits w 7 4) (bits w 0 0))
  | 81 => row w (bits w 7 4 = 0 ∧ bits w 2 2 = 0) (.sts (bits w 22 17) (bits w 16 11) (bits w 10 8) (bits w 3 3) (bits w 1 1) (bits w 0 0))
  | 82 => row w (bits w 10 8 = 0 ∧ bits w 3 0 = 0) (.ldx (bits w 22 17) (bits w 16 11) (bits w 7 4))
  | 83 => row w (bits w 7 4 = 0 ∧ bits w 2 0 = 0) (.stx (bits w 22 17) (bits w 16 11) (bits w 10 8) (bits w 3 3))
  | 84 => row w (bits w 1 0 = 0) (.atom (bits w 22 17) (bits w 16 11) (bits w 10 9) (bits w 8 7) (bits w 6 3) (bits w 2 2))
  | 85 => row w (bits w 22 17 = 0) (.lde (bits w 16 11) (bits w 10 8) (bits w 7 4) (bits w 3 3) (bits w 2 2) (bits w 1 0))
  | 86 => row w (bits w 7 4 = 0 ∧ bits w 1 0 = 0) (.ste (bits w 22 17) (bits w 16 11) (bits w 10 8) (bits w 3 3) (bits w 2 2))
  | 87 => row w (bits w 22 17 = 0 ∧ bits w 7 0 = 0) (.ordt (bits w 16 11) (bits w 10 8))
  | 88 => row w (bits w 22 10 = 0 ∧ bits w 7 2 = 0) (.fencem (bits w 9 8) (bits w 1 0))
  | 89 => row w (bits w 10 0 = 0) (.cmpr (bits w 22 17) (bits w 16 11))
  | 90 => row w (bits w 7 4 = 0 ∧ bits w 2 0 = 0) (.expd (bits w 22 17) (bits w 16 11) (bits w 10 8) (bits w 3 3))
  | 91 => row w (bits w 7 4 = 0) (.rput (bits w 22 17) (bits w 16 11) (bits w 10 8) (bits w 3 3) (bits w 2 0))
  | 92 => row w (bits w 10 8 = 0 ∧ bits w 3 3 = 0) (.rget (bits w 22 17) (bits w 16 11) (bits w 7 4) (bits w 2 0))
  | 93 => row w (bits w 22 17 = 0 ∧ bits w 10 0 = 0) (.rfree (bits w 16 11))
  | 94 => row w (bits w 22 17 = 0 ∧ bits w 7 4 = 0 ∧ bits w 2 0 = 0) (.tbarv (bits w 16 11) (bits w 10 8) (bits w 3 3))
  | 95 => row w (bits w 10 0 = 0) (.tbtst (bits w 22 17) (bits w 16 11))
  | 96 => row w (bits w 4 0 = 0) (.rmk (bits w 22 17) (bits w 16 11) (bits w 10 5))
  | 97 => row w (bits w 4 0 = 0) (.tjoin (bits w 22 17) (bits w 16 11) (bits w 10 5))
  | 98 => row w (bits w 4 0 = 0) (.tmeet (bits w 22 17) (bits w 16 11) (bits w 10 5))
  | 99 => row w (bits w 4 0 = 0) (.tle (bits w 22 17) (bits w 16 11) (bits w 10 5))
  | 100 => row w (bits w 4 0 = 0) (.tadv (bits w 22 17) (bits w 16 11) (bits w 10 5))
  | 101 => row w (bits w 22 17 = 0 ∧ bits w 6 0 = 0) (.hins (bits w 16 11) (bits w 10 7))
  | 102 => row w (bits w 22 17 = 0 ∧ bits w 3 0 = 0) (.hseek (bits w 16 11) (bits w 10 7) (bits w 6 4))
  | 103 => row w (bits w 22 17 = 0 ∧ bits w 3 0 = 0) (.hjoin (bits w 16 11) (bits w 10 7) (bits w 6 4))
  | 104 => row w (bits w 6 4 = 0) (.hred (bits w 22 17) (bits w 16 11) (bits w 10 7) (bits w 3 0))
  | 105 => row w (bits w 22 11 = 0 ∧ bits w 6 0 = 0) (.hcons (bits w 10 7))
  | 106 => row w (bits w 22 17 = 0 ∧ bits w 6 0 = 0) (.hcomp (bits w 16 11) (bits w 10 7))
  | 107 => row w (bits w 16 11 = 0) (.fnrd (bits w 22 17) (bits w 10 0))
  | 108 => row w (bits w 13 0 = 2048) (.fnput (bits w 22 20) (bits w 19 14))
  | 109 => row w (bits w 4 0 = 0) (.scope (bits w 22 17) (bits w 16 11) (bits w 10 5))
  | 110 => row w (True) (.rhash (bits w 22 17) (bits w 16 11) (bits w 10 0))
  | 111 => row w (bits w 10 0 = 0) (.rneg (bits w 22 17) (bits w 16 11))
  | 68 => row w (bits w 22 0 = 0) (.dropOp)
  | 69 => row w (bits w 22 0 = 0) (.endOp)
  | 74 => row w (bits w 22 0 = 0) (.freef)
  | op => .error (.reserved op)

/-- A matrix-engine word (R145, R206): a used slot has v = 1; the fields its operation does not use are 0. -/
def decodeMatrix (w : Nat) : Except DecodeError Instr :=
  if ¬ (bits w 15 0 = 0 ∧ bits w 16 16 = 1) then .error (.fixedField w) else
  match bits w 63 58 with
  | 0 => row w (bits w 29 27 = 0 ∧ bits w 22 22 = 0 ∧ bits w 21 21 = 0 ∧ bits w 20 17 = 0) (.mma (bits w 57 55) (bits w 54 52) (bits w 51 44) (bits w 43 38) (bits w 37 34) (bits w 33 30) (bits w 26 23))
  | 1 => row w (bits w 29 27 = 0 ∧ bits w 22 22 = 0 ∧ bits w 21 21 = 0 ∧ bits w 20 17 = 0) (.mmaz (bits w 57 55) (bits w 54 52) (bits w 51 44) (bits w 43 38) (bits w 37 34) (bits w 33 30) (bits w 26 23))
  | 2 => row w (bits w 29 27 = 0 ∧ bits w 22 22 = 0 ∧ bits w 21 21 = 0 ∧ bits w 20 17 = 0) (.mmat (bits w 57 55) (bits w 54 52) (bits w 51 44) (bits w 43 38) (bits w 37 34) (bits w 33 30) (bits w 26 23))
  | 3 => row w (bits w 29 27 = 0 ∧ bits w 22 22 = 0 ∧ bits w 21 21 = 0 ∧ bits w 20 17 = 0) (.mmag (bits w 57 55) (bits w 54 52) (bits w 51 44) (bits w 43 38) (bits w 37 34) (bits w 33 30) (bits w 26 23))
  | 4 => row w (bits w 51 44 = 0 ∧ bits w 37 34 = 0 ∧ bits w 33 30 = 0 ∧ bits w 29 27 = 0 ∧ bits w 22 22 = 0 ∧ bits w 21 21 = 0 ∧ bits w 20 17 = 0) (.accz (bits w 57 55) (bits w 54 52) (bits w 43 38) (bits w 26 23))
  | 5 => row w (bits w 51 44 = 0 ∧ bits w 37 34 = 0 ∧ bits w 33 30 = 0) (.accrd (bits w 57 55) (bits w 54 52) (bits w 43 38) (bits w 29 27) (bits w 26 23) (bits w 22 22) (bits w 21 21) (bits w 20 17))
  | 6 => row w (bits w 51 44 = 0 ∧ bits w 33 30 = 0 ∧ bits w 29 27 = 0 ∧ bits w 22 22 = 0 ∧ bits w 21 21 = 0 ∧ bits w 20 17 = 0) (.accwr (bits w 57 55) (bits w 54 52) (bits w 43 38) (bits w 37 34) (bits w 26 23))
  | 7 => row w (bits w 51 44 = 0 ∧ bits w 22 22 = 0 ∧ bits w 21 21 = 0 ∧ bits w 20 17 = 0) (.accax (bits w 57 55) (bits w 54 52) (bits w 43 38) (bits w 37 34) (bits w 33 30) (bits w 29 27) (bits w 26 23))
  | op => .error (.reserved op)

/-- A region-controller word with its extension word (R147, R148): the opcode stands in [31:25]. Only the long forms use the extension. -/
def decodeRcWord (w ext : Nat) : Except DecodeError Instr :=
  match bits w 31 25 with
  | 0 => row w (bits w 9 0 = 0) (.rcAdd (bits w 24 20) (bits w 19 15) (bits w 14 10))
  | 1 => row w (bits w 9 0 = 0) (.rcSub (bits w 24 20) (bits w 19 15) (bits w 14 10))
  | 2 => row w (bits w 9 0 = 0) (.rcMul (bits w 24 20) (bits w 19 15) (bits w 14 10))
  | 3 => row w (bits w 9 0 = 0) (.rcMulh (bits w 24 20) (bits w 19 15) (bits w 14 10))
  | 4 => row w (bits w 9 0 = 0) (.rcAnd (bits w 24 20) (bits w 19 15) (bits w 14 10))
  | 5 => row w (bits w 9 0 = 0) (.rcOr (bits w 24 20) (bits w 19 15) (bits w 14 10))
  | 6 => row w (bits w 9 0 = 0) (.rcXor (bits w 24 20) (bits w 19 15) (bits w 14 10))
  | 7 => row w (bits w 9 0 = 0) (.rcShl (bits w 24 20) (bits w 19 15) (bits w 14 10))
  | 8 => row w (bits w 9 0 = 0) (.rcShr (bits w 24 20) (bits w 19 15) (bits w 14 10))
  | 9 => row w (bits w 9 0 = 0) (.rcSha (bits w 24 20) (bits w 19 15) (bits w 14 10))
  | 10 => row w (bits w 9 0 = 0) (.rcSlt (bits w 24 20) (bits w 19 15) (bits w 14 10))
  | 11 => row w (bits w 9 0 = 0) (.rcSltn (bits w 24 20) (bits w 19 15) (bits w 14 10))
  | 12 => row w (bits w 9 0 = 0) (.rcMin (bits w 24 20) (bits w 19 15) (bits w 14 10))
  | 13 => row w (bits w 9 0 = 0) (.rcMax (bits w 24 20) (bits w 19 15) (bits w 14 10))
  | 14 => row w (True) (.rcAddi (bits w 24 20) (bits w 19 15) (bits w 14 0))
  | 15 => row w (True) (.rcAndi (bits w 24 20) (bits w 19 15) (bits w 14 0))
  | 16 => row w (True) (.rcLd (bits w 24 20) (bits w 19 15) (bits w 14 13) (bits w 12 0))
  | 17 => row w (True) (.rcSt (bits w 24 20) (bits w 19 15) (bits w 14 13) (bits w 12 0))
  | 18 => row w (bits w 9 9 = 0) (.rcAmo (bits w 24 20) (bits w 19 15) (bits w 14 10) (bits w 8 8) (bits w 7 6) (bits w 5 4) (bits w 3 0))
  | 19 => row w (bits w 9 9 = 0 ∧ bits w 3 0 = 0) (.rcCas (bits w 24 20) (bits w 19 15) (bits w 14 10) (bits w 8 8) (bits w 7 6) (bits w 5 4))
  | 20 => row w (bits w 24 8 = 0 ∧ bits w 3 0 = 0) (.rcFence (bits w 7 6) (bits w 5 4))
  | 21 => row w (True) (.rcMovk (bits w 24 20) (bits w 19 15) (bits w 14 0))
  | 22 => row w (bits w 19 15 = 0) (.rcRds (bits w 24 20) (bits w 14 0))
  | 23 => row w (bits w 24 20 = 0) (.rcWrs (bits w 19 15) (bits w 14 0))
  | 24 => row w (bits w 19 6 = 0) (.rcRdfn (bits w 24 20) (bits w 5 5) (bits w 4 3) (bits w 2 0))
  | 25 => row w (True) (.rcOri (bits w 24 20) (bits w 19 15) (bits w 14 0))
  | 26 => row w (True) (.rcShli (bits w 24 20) (bits w 19 15) (bits w 14 0))
  | 27 => row w (True) (.rcShri (bits w 24 20) (bits w 19 15) (bits w 14 0))
  | 32 => row w (True) (.rcBeq (bits w 24 20) (bits w 19 15) (bits w 14 0))
  | 33 => row w (True) (.rcBne (bits w 24 20) (bits w 19 15) (bits w 14 0))
  | 34 => row w (True) (.rcBlt (bits w 24 20) (bits w 19 15) (bits w 14 0))
  | 35 => row w (True) (.rcBge (bits w 24 20) (bits w 19 15) (bits w 14 0))
  | 36 => row w (True) (.rcBltn (bits w 24 20) (bits w 19 15) (bits w 14 0))
  | 37 => row w (True) (.rcBgen (bits w 24 20) (bits w 19 15) (bits w 14 0))
  | 38 => row w (bits w 24 20 = 0) (.rcJmp (bits w 19 0))
  | 39 => row w (True) (.rcJal (bits w 24 20) (bits w 19 0))
  | 40 => row w (bits w 14 0 = 0) (.rcJr (bits w 24 20) (bits w 19 15))
  | 41 => row w (bits w 19 15 = 0) (.rcLoop (bits w 24 20) (bits w 14 0))
  | 42 => row w (bits w 24 0 = 0) (.rcEndl)
  | 43 => row w (bits w 14 10 = 0 ∧ bits w 7 5 = 0) (.rcBst (bits w 24 20) (bits w 19 15) (bits w 9 8) (bits w 4 0))
  | 44 => row w (bits w 19 15 = 0) (.rcWaite (bits w 24 20) (bits w 14 0))
  | 45 => row w (bits w 24 15 = 0) (.rcTrap (bits w 14 0))
  | 46 => row w (True) (.rcSys (bits w 24 20) (bits w 19 15) (bits w 14 0))
  | 47 => row w (bits w 24 0 = 0) (.rcHalt)
  | 48 => row w (bits w 24 0 = 0) (.rcCfg ext)
  | 49 => row w (bits w 24 0 = 0) (.rcCfgw)
  | 50 => row w (bits w 24 20 = 0 ∧ bits w 14 2 = 0) (.rcIter (bits w 19 15) (bits w 1 0))
  | 51 => row w (bits w 19 0 = 0) (.rcSpec (bits w 24 20) ext)
  | 52 => row w (bits w 24 0 = 0) (.rcGo)
  | 53 => row w (bits w 19 0 = 0) (.rcWaitr (bits w 24 20))
  | 54 => row w (bits w 24 0 = 0) (.rcAbortr)
  | 55 => row w (bits w 19 0 = 0) (.rcPstat (bits w 24 20))
  | 56 => row w (bits w 24 20 = 0 ∧ bits w 14 0 = 0) (.rcBarc (bits w 19 15))
  | 57 => row w (bits w 9 0 = 0) (.rcInj (bits w 24 20) (bits w 19 15) (bits w 14 10))
  | 58 => row w (bits w 14 0 = 0) (.rcXtr (bits w 24 20) (bits w 19 15))
  | 59 => row w (bits w 24 0 = 0) (.rcPin)
  | 64 => row w (bits w 24 21 = 0 ∧ bits w 4 3 = 0) (.rcCpy (bits w 20 20) (bits w 19 15) (bits w 14 10) (bits w 9 5) (bits w 2 0))
  | 65 => row w (bits w 24 21 = 0 ∧ bits w 4 3 = 0) (.rcCpyr (bits w 20 20) (bits w 19 15) (bits w 14 10) (bits w 9 5) (bits w 2 0))
  | 66 => row w (bits w 24 20 = 0 ∧ bits w 4 3 = 0) (.rcCpyg (bits w 19 15) (bits w 14 10) (bits w 9 5) (bits w 2 0))
  | 67 => row w (bits w 24 20 = 0 ∧ bits w 4 3 = 0) (.rcCpyx (bits w 19 15) (bits w 14 10) (bits w 9 5) (bits w 2 0))
  | 68 => row w (bits w 24 20 = 1 ∧ bits w 4 3 = 0) (.rcCpys (bits w 19 15) (bits w 14 10) (bits w 9 5) (bits w 2 0))
  | 69 => row w (bits w 24 20 = 0 ∧ bits w 14 10 = 0 ∧ bits w 4 0 = 0) (.rcTbi (bits w 19 15) (bits w 9 5))
  | 70 => row w (bits w 24 10 = 0 ∧ bits w 4 0 = 0) (.rcTbw (bits w 9 5))
  | 71 => row w (bits w 24 20 = 0 ∧ bits w 14 10 = 0 ∧ bits w 4 0 = 0) (.rcTbex (bits w 19 15) (bits w 9 5))
  | 72 => row w (bits w 19 3 = 124) (.rcShd (bits w 24 20) (bits w 2 0))
  | 73 => row w (bits w 19 3 = 124) (.rcPub (bits w 24 20) (bits w 2 0))
  | 74 => row w (bits w 24 3 = 124) (.rcDisc (bits w 2 0))
  | 75 => row w (bits w 19 10 = 0 ∧ bits w 4 0 = 0) (.rcCpst (bits w 24 20) (bits w 9 5))
  | 80 => row w (bits w 14 0 = 0) (.rcNdsub (bits w 24 20) (bits w 19 15))
  | 81 => row w (bits w 9 0 = 0) (.rcNddep (bits w 24 20) (bits w 19 15) (bits w 14 10))
  | 82 => row w (bits w 14 0 = 0) (.rcNdwait (bits w 24 20) (bits w 19 15))
  | 83 => row w (bits w 14 0 = 0) (.rcNdstat (bits w 24 20) (bits w 19 15))
  | 84 => row w (bits w 14 0 = 0) (.rcComm (bits w 24 20) (bits w 19 15))
  | 85 => row w (bits w 1 0 = 0) (.rcColl (bits w 24 20) (bits w 19 15) (bits w 14 10) (bits w 9 6) (bits w 5 2))
  | 86 => row w (bits w 14 0 = 0) (.rcCwait (bits w 24 20) (bits w 19 15))
  | 87 => row w (bits w 14 0 = 0) (.rcCstat (bits w 24 20) (bits w 19 15))
  | 88 => row w (bits w 24 20 = 0 ∧ bits w 9 0 = 0) (.rcCsel (bits w 19 15) (bits w 14 10))
  | 96 => row w (bits w 24 20 = 0) (.rcMtp (bits w 19 15) (bits w 14 10) (bits w 9 0))
  | 97 => row w (bits w 14 10 = 0) (.rcMfp (bits w 24 20) (bits w 19 15) (bits w 9 0))
  | 98 =>
    if bits w 24 20 = 0 ∧ bits w 14 0 = 0 then .ok (.rcTlbi (bits w 19 15)) else
    if bits w 24 20 = 0 ∧ bits w 9 0 = 1 then .ok (.rcTlbiRange (bits w 19 15) (bits w 14 10)) else
    if bits w 24 0 = 2 then .ok (.rcTlbiAll) else
    .error (.fixedField w)
  | 99 => row w (bits w 9 0 = 0) (.rcCtxs (bits w 24 20) (bits w 19 15) (bits w 14 10))
  | 100 => row w (bits w 9 0 = 0) (.rcCtxr (bits w 24 20) (bits w 19 15) (bits w 14 10))
  | 101 =>
    if bits w 24 20 = 0 ∧ bits w 14 0 = 0 then .ok (.rcKill (bits w 19 15)) else
    if bits w 24 0 = 1 then .ok (.rcKillPart) else
    .error (.fixedField w)
  | 102 =>
    if bits w 24 20 = 0 ∧ bits w 14 0 = 0 then .ok (.rcPrmt (bits w 19 15)) else
    if bits w 24 0 = 1 then .ok (.rcPrmtPart) else
    .error (.fixedField w)
  | 103 =>
    if bits w 9 0 = 0 then .ok (.rcSealk (bits w 24 20) (bits w 19 15) (bits w 14 10)) else
    if bits w 24 20 = 0 ∧ bits w 14 0 = 1 then .ok (.rcSealkRet (bits w 19 15)) else
    if bits w 24 20 = 0 ∧ bits w 14 0 = 2 then .ok (.rcSealkCur (bits w 19 15)) else
    .error (.fixedField w)
  | 104 => row w (bits w 9 0 = 0) (.rcScrub (bits w 24 20) (bits w 19 15) (bits w 14 10))
  | 105 => row w (bits w 9 0 = 0) (.rcMigr (bits w 24 20) (bits w 19 15) (bits w 14 10))
  | 106 => row w (bits w 14 0 = 0) (.rcCkpt (bits w 24 20) (bits w 19 15))
  | 107 => row w (bits w 14 0 = 0) (.rcRstr (bits w 24 20) (bits w 19 15))
  | 108 =>
    if bits w 9 0 = 0 then .ok (.rcAttest (bits w 24 20) (bits w 19 15) (bits w 14 10)) else
    if bits w 24 20 = 0 ∧ bits w 9 0 = 1 then .ok (.rcAttestAcc (bits w 19 15) (bits w 14 10)) else
    if bits w 24 20 = 0 ∧ bits w 14 0 = 2 then .ok (.rcAttestClose (bits w 19 15)) else
    .error (.fixedField w)
  | 109 => row w (bits w 24 20 = 0 ∧ bits w 9 0 = 0) (.rcRets (bits w 19 15) (bits w 14 10))
  | 110 =>
    if bits w 9 0 = 0 then .ok (.rcPartCreate (bits w 24 20) (bits w 19 15) (bits w 14 10)) else
    if bits w 9 0 = 1 then .ok (.rcPartDestroy (bits w 24 20) (bits w 19 15) (bits w 14 10)) else
    if bits w 9 0 = 2 then .ok (.rcPartRead (bits w 24 20) (bits w 19 15) (bits w 14 10)) else
    .error (.fixedField w)
  | 111 =>
    if bits w 24 20 = 0 ∧ bits w 9 0 = 0 then .ok (.rcEvtq (bits w 19 15) (bits w 14 10)) else
    if bits w 19 0 = 1 then .ok (.rcEvtqWait (bits w 24 20)) else
    .error (.fixedField w)
  | 112 => row w (bits w 19 0 = 0) (.rcLi (bits w 24 20) ext)
  | 113 => row w (bits w 19 0 = 0) (.rcLih (bits w 24 20) ext)
  | 114 => row w (bits w 19 0 = 0) (.rcJl (bits w 24 20) ext)
  | op => .error (.reserved op)

/-- True for a region-controller word of a long form (R147). -/
def rcIsLong (w : Nat) : Bool := bits w 31 25 ∈ [0x30, 0x33, 0x70, 0x71, 0x72]

/-- What the RC runs for a word and its extension: an encoding that is no instruction is RC_ILLEGAL_ENCODING (R148). -/
def decodeRc (w ext : Nat) : Instr := (decodeRcWord w ext).toOption.getD .rcIllegalEncoding

/-- Two bytes, little-endian (R135). -/
def le16 (a b : Byte) : Nat := a.toNat + 256 * b.toNat

/-- A cell instruction from the bytes of a routine store, with its length in halfwords (R135): the first halfword of a 32-bit
instruction holds bits [31:16]. -/
def decodeCell : List Byte → Except DecodeError (Instr × Nat)
  | a :: b :: rest =>
    if bits (le16 a b) 15 14 ≠ 3 then (decodeCompact (le16 a b)).map (·, 1)
    else match rest with
      | c :: d :: _ => (decodeCell32 (le16 a b * 65536 + le16 c d)).map (·, 2)
      | _ => .error .truncated
  | _ => .error .truncated

/-- n bytes of v, little-endian. -/
def leBytes : Nat → Nat → List Byte
  | 0, _ => []
  | n + 1, v => BitVec.ofNat 8 v :: leBytes n (v / 256)

/-- The number that bytes hold, little-endian. -/
def leNat : List Byte → Nat
  | [] => 0
  | b :: bs => b.toNat + 256 * leNat bs

/-- The stores an instruction word can stand in (ch. 08): routine store, matrix slots, RC program. -/
inductive Form where
  | compact | cell | matrix | rc | long | event
  deriving DecidableEq, Repr

/-- The form of an instruction and the number its words hold, each field at its place (R135, R137, R145, R147). -/
def encodeWord : Instr → Form × Nat
  | .add d a b r s x => (.cell, 0xC0000000 + d * 0x20000 + a * 0x800 + b * 0x20 + r * 0x4 + s * 0x2 + x)
  | .sub d a b r s x => (.cell, 0xC0800000 + d * 0x20000 + a * 0x800 + b * 0x20 + r * 0x4 + s * 0x2 + x)
  | .mul d a b r s x => (.cell, 0xC1000000 + d * 0x20000 + a * 0x800 + b * 0x20 + r * 0x4 + s * 0x2 + x)
  | .fma d a b r s => (.cell, 0xC1800000 + d * 0x20000 + a * 0x800 + b * 0x20 + r * 0x4 + s * 0x2)
  | .fms d a b r s => (.cell, 0xC2000000 + d * 0x20000 + a * 0x800 + b * 0x20 + r * 0x4 + s * 0x2)
  | .fnma d a b r s => (.cell, 0xC2800000 + d * 0x20000 + a * 0x800 + b * 0x20 + r * 0x4 + s * 0x2)
  | .min d a b => (.cell, 0xC3000000 + d * 0x20000 + a * 0x800 + b * 0x20)
  | .max d a b => (.cell, 0xC3800000 + d * 0x20000 + a * 0x800 + b * 0x20)
  | .abs d a => (.cell, 0xC4000000 + d * 0x20000 + a * 0x800)
  | .negOp d a => (.cell, 0xC4800000 + d * 0x20000 + a * 0x800)
  | .div d a b r s => (.cell, 0xC5000000 + d * 0x20000 + a * 0x800 + b * 0x20 + r * 0x4 + s * 0x2)
  | .adds d a b => (.cell, 0xC5800000 + d * 0x20000 + a * 0x800 + b * 0x20)
  | .subs d a b => (.cell, 0xC6000000 + d * 0x20000 + a * 0x800 + b * 0x20)
  | .mulh d a b => (.cell, 0xC6800000 + d * 0x20000 + a * 0x800 + b * 0x20)
  | .addi d a i => (.cell, 0xC7000000 + d * 0x20000 + a * 0x800 + i)
  | .muli d a i => (.cell, 0xC7800000 + d * 0x20000 + a * 0x800 + i)
  | .andOp d a b => (.cell, 0xC8000000 + d * 0x20000 + a * 0x800 + b * 0x20)
  | .orOp d a b => (.cell, 0xC8800000 + d * 0x20000 + a * 0x800 + b * 0x20)
  | .xor d a b => (.cell, 0xC9000000 + d * 0x20000 + a * 0x800 + b * 0x20)
  | .notOp d a => (.cell, 0xC9800000 + d * 0x20000 + a * 0x800)
  | .shl d a b => (.cell, 0xCA000000 + d * 0x20000 + a * 0x800 + b * 0x20)
  | .shr d a b => (.cell, 0xCA800000 + d * 0x20000 + a * 0x800 + b * 0x20)
  | .sha d a b => (.cell, 0xCB000000 + d * 0x20000 + a * 0x800 + b * 0x20)
  | .rot d a b => (.cell, 0xCB800000 + d * 0x20000 + a * 0x800 + b * 0x20)
  | .clz d a => (.cell, 0xCC000000 + d * 0x20000 + a * 0x800)
  | .popc d a => (.cell, 0xCC800000 + d * 0x20000 + a * 0x800)
  | .andi d a i => (.cell, 0xCD000000 + d * 0x20000 + a * 0x800 + i)
  | .ori d a i => (.cell, 0xCD800000 + d * 0x20000 + a * 0x800 + i)
  | .shli d a i => (.cell, 0xCE000000 + d * 0x20000 + a * 0x800 + i)
  | .shri d a i => (.cell, 0xCE800000 + d * 0x20000 + a * 0x800 + i)
  | .shai d a i => (.cell, 0xCF000000 + d * 0x20000 + a * 0x800 + i)
  | .bfx d a x w l => (.cell, 0xCF800000 + d * 0x20000 + a * 0x800 + x * 0x400 + w * 0x20 + l)
  | .rcp d a r s => (.cell, 0xD0000000 + d * 0x20000 + a * 0x800 + r * 0x4 + s * 0x2)
  | .rsq d a r s => (.cell, 0xD0800000 + d * 0x20000 + a * 0x800 + r * 0x4 + s * 0x2)
  | .sqrt d a r s => (.cell, 0xD1000000 + d * 0x20000 + a * 0x800 + r * 0x4 + s * 0x2)
  | .exp2 d a r s => (.cell, 0xD1800000 + d * 0x20000 + a * 0x800 + r * 0x4 + s * 0x2)
  | .log2 d a r s => (.cell, 0xD2000000 + d * 0x20000 + a * 0x800 + r * 0x4 + s * 0x2)
  | .tanh d a r s => (.cell, 0xD2800000 + d * 0x20000 + a * 0x800 + r * 0x4 + s * 0x2)
  | .sinp d a r s => (.cell, 0xD3000000 + d * 0x20000 + a * 0x800 + r * 0x4 + s * 0x2)
  | .cosp d a r s => (.cell, 0xD3800000 + d * 0x20000 + a * 0x800 + r * 0x4 + s * 0x2)
  | .cmp d a b c => (.cell, 0xD4000000 + d * 0x20000 + a * 0x800 + b * 0x20 + c * 0x4)
  | .setv d a b => (.cell, 0xD4800000 + d * 0x20000 + a * 0x800 + b * 0x20)
  | .sel d a b => (.cell, 0xD5000000 + d * 0x20000 + a * 0x800 + b * 0x20)
  | .cntv d a => (.cell, 0xD5800000 + d * 0x20000 + a * 0x800)
  | .firstv d a => (.cell, 0xD6000000 + d * 0x20000 + a * 0x800)
  | .classOp d a => (.cell, 0xD6800000 + d * 0x20000 + a * 0x800)
  | .cpsgn d a b => (.cell, 0xD7000000 + d * 0x20000 + a * 0x800 + b * 0x20)
  | .rndi d a r => (.cell, 0xD7800000 + d * 0x20000 + a * 0x800 + r * 0x4)
  | .cvt d a f r s => (.cell, 0xD8000000 + d * 0x20000 + a * 0x800 + f * 0x10 + r * 0x2 + s)
  | .qnt d a f r => (.cell, 0xD8800000 + d * 0x20000 + a * 0x800 + f * 0x10 + r * 0x2)
  | .dqn d a f r s => (.cell, 0xD9000000 + d * 0x20000 + a * 0x800 + f * 0x10 + r * 0x2 + s)
  | .xsc d a b r => (.cell, 0xD9800000 + d * 0x20000 + a * 0x800 + b * 0x20 + r * 0x4)
  | .shuf d a b => (.cell, 0xDA000000 + d * 0x20000 + a * 0x800 + b * 0x20)
  | .bcast d a i => (.cell, 0xDA800000 + d * 0x20000 + a * 0x800 + i)
  | .rotl d a i => (.cell, 0xDB000000 + d * 0x20000 + a * 0x800 + i)
  | .redl d a b r s => (.cell, 0xDB800000 + d * 0x20000 + a * 0x800 + b * 0x20 + r * 0x4 + s * 0x2)
  | .scanl d a b r s => (.cell, 0xDC000000 + d * 0x20000 + a * 0x800 + b * 0x20 + r * 0x4 + s * 0x2)
  | .iota d i => (.cell, 0xDC800000 + d * 0x20000 + i)
  | .mov d a => (.cell, 0xDD000000 + d * 0x20000 + a * 0x800)
  | .movi d i => (.cell, 0xDD800000 + d * 0x20000 + i)
  | .movh d i => (.cell, 0xDE000000 + d * 0x20000 + i)
  | .ldc d n => (.cell, 0xDE800000 + d * 0x20000 + n)
  | .tagrd d k f => (.cell, 0xDF000000 + d * 0x20000 + k * 0x10 + f)
  | .fmts d a f => (.cell, 0xDF800000 + d * 0x20000 + a * 0x800 + f * 0x10)
  | .emit e s c t g => (.cell, 0xE0000000 + e * 0x100000 + s * 0x4000 + c * 0x400 + t * 0x80 + g)
  | .emitv e s c t p => (.cell, 0xE0800000 + e * 0x100000 + s * 0x4000 + c * 0x400 + t * 0x80 + p)
  | .steer e s c t x p => (.cell, 0xE1000000 + e * 0x100000 + s * 0x4000 + c * 0x400 + t * 0x80 + x * 0x40 + p)
  | .merge d a b x => (.cell, 0xE1800000 + d * 0x20000 + a * 0x800 + b * 0x20 + x)
  | .emeos e => (.cell, 0xE3000000 + e * 0x100000)
  | .fwdm e => (.cell, 0xE3800000 + e * 0x100000)
  | .call e s c r k => (.cell, 0xE4000200 + e * 0x100000 + s * 0x4000 + c * 0x400 + r * 0x10 + k)
  | .ret s x => (.cell, 0xE4800280 + s * 0x4000 + x)
  | .filt d a b x => (.cell, 0xE5800000 + d * 0x20000 + a * 0x800 + b * 0x20 + x)
  | .coal d a => (.cell, 0xE6000000 + d * 0x20000 + a * 0x800)
  | .flushc d => (.cell, 0xE6800000 + d * 0x20000)
  | .pchk d a => (.cell, 0xE7000000 + d * 0x20000 + a * 0x800)
  | .trapc a i => (.cell, 0xE7800000 + a * 0x800 + i)
  | .lds d a f p => (.cell, 0xE8000000 + d * 0x20000 + a * 0x800 + f * 0x10 + p)
  | .sts d a o h q p => (.cell, 0xE8800000 + d * 0x20000 + a * 0x800 + o * 0x100 + h * 0x8 + q * 0x2 + p)
  | .ldx d a f => (.cell, 0xE9000000 + d * 0x20000 + a * 0x800 + f * 0x10)
  | .stx d a o h => (.cell, 0xE9800000 + d * 0x20000 + a * 0x800 + o * 0x100 + h * 0x8)
  | .atom d a s r p z => (.cell, 0xEA000000 + d * 0x20000 + a * 0x800 + s * 0x200 + r * 0x80 + p * 0x8 + z * 0x4)
  | .lde a o f h p n => (.cell, 0xEA800000 + a * 0x800 + o * 0x100 + f * 0x10 + h * 0x8 + p * 0x4 + n)
  | .ste d a o h p => (.cell, 0xEB000000 + d * 0x20000 + a * 0x800 + o * 0x100 + h * 0x8 + p * 0x4)
  | .ordt a o => (.cell, 0xEB800000 + a * 0x800 + o * 0x100)
  | .fencem s r => (.cell, 0xEC000000 + s * 0x100 + r)
  | .cmpr d a => (.cell, 0xEC800000 + d * 0x20000 + a * 0x800)
  | .expd d a o h => (.cell, 0xED000000 + d * 0x20000 + a * 0x800 + o * 0x100 + h * 0x8)
  | .rput d a o h j => (.cell, 0xED800000 + d * 0x20000 + a * 0x800 + o * 0x100 + h * 0x8 + j)
  | .rget d a f j => (.cell, 0xEE000000 + d * 0x20000 + a * 0x800 + f * 0x10 + j)
  | .rfree a => (.cell, 0xEE800000 + a * 0x800)
  | .tbarv a o h => (.cell, 0xEF000000 + a * 0x800 + o * 0x100 + h * 0x8)
  | .tbtst d a => (.cell, 0xEF800000 + d * 0x20000 + a * 0x800)
  | .rmk d a b => (.cell, 0xF0000000 + d * 0x20000 + a * 0x800 + b * 0x20)
  | .tjoin d a b => (.cell, 0xF0800000 + d * 0x20000 + a * 0x800 + b * 0x20)
  | .tmeet d a b => (.cell, 0xF1000000 + d * 0x20000 + a * 0x800 + b * 0x20)
  | .tle d a b => (.cell, 0xF1800000 + d * 0x20000 + a * 0x800 + b * 0x20)
  | .tadv d a b => (.cell, 0xF2000000 + d * 0x20000 + a * 0x800 + b * 0x20)
  | .hins a h => (.cell, 0xF2800000 + a * 0x800 + h * 0x80)
  | .hseek a h e => (.cell, 0xF3000000 + a * 0x800 + h * 0x80 + e * 0x10)
  | .hjoin a h e => (.cell, 0xF3800000 + a * 0x800 + h * 0x80 + e * 0x10)
  | .hred d a h v => (.cell, 0xF4000000 + d * 0x20000 + a * 0x800 + h * 0x80 + v)
  | .hcons h => (.cell, 0xF4800000 + h * 0x80)
  | .hcomp a h => (.cell, 0xF5000000 + a * 0x800 + h * 0x80)
  | .fnrd d i => (.cell, 0xF5800000 + d * 0x20000 + i)
  | .fnput e s => (.cell, 0xF6000800 + e * 0x100000 + s * 0x4000)
  | .scope d a b => (.cell, 0xF6800000 + d * 0x20000 + a * 0x800 + b * 0x20)
  | .rhash d a i => (.cell, 0xF7000000 + d * 0x20000 + a * 0x800 + i)
  | .rneg d a => (.cell, 0xF7800000 + d * 0x20000 + a * 0x800)
  | .cAdd d a b => (.compact, 0x800 + d * 0x100 + a * 0x10 + b)
  | .cSub d a b => (.compact, 0x1000 + d * 0x100 + a * 0x10 + b)
  | .cMul d a b => (.compact, 0x1800 + d * 0x100 + a * 0x10 + b)
  | .cFma d a b => (.compact, 0x2000 + d * 0x100 + a * 0x10 + b)
  | .cMin d a b => (.compact, 0x2800 + d * 0x100 + a * 0x10 + b)
  | .cMax d a b => (.compact, 0x3000 + d * 0x100 + a * 0x10 + b)
  | .cAnd d a b => (.compact, 0x3800 + d * 0x100 + a * 0x10 + b)
  | .cOr d a b => (.compact, 0x4000 + d * 0x100 + a * 0x10 + b)
  | .cXor d a b => (.compact, 0x4800 + d * 0x100 + a * 0x10 + b)
  | .cMov d a => (.compact, 0x5000 + d * 0x100 + a * 0x10)
  | .cNeg d a => (.compact, 0x5800 + d * 0x100 + a * 0x10)
  | .cAbs d a => (.compact, 0x6000 + d * 0x100 + a * 0x10)
  | .cExp2 d a => (.compact, 0x6800 + d * 0x100 + a * 0x10)
  | .cRcp d a => (.compact, 0x7000 + d * 0x100 + a * 0x10)
  | .cRsq d a => (.compact, 0x7800 + d * 0x100 + a * 0x10)
  | .cRedl d a => (.compact, 0x8000 + d * 0x100 + a * 0x10)
  | .cSel d a b => (.compact, 0x8800 + d * 0x100 + a * 0x10 + b)
  | .cBcast d a n => (.compact, 0x9000 + d * 0x100 + a * 0x10 + n)
  | .cShl d a b => (.compact, 0x9800 + d * 0x100 + a * 0x10 + b)
  | .cShr d a b => (.compact, 0xA000 + d * 0x100 + a * 0x10 + b)
  | .cEmit e s c => (.compact, 0xA800 + e * 0x100 + s * 0x10 + c)
  | .cSetv d a b => (.compact, 0xB800 + d * 0x100 + a * 0x10 + b)
  | .mma mt nt kt acc afmt bfmt trig => (.matrix, 0x10000 + mt * 0x80000000000000 + nt * 0x10000000000000 + kt * 0x100000000000 + acc * 0x4000000000 + afmt * 0x400000000 + bfmt * 0x40000000 + trig * 0x800000)
  | .mmaz mt nt kt acc afmt bfmt trig => (.matrix, 0x400000000010000 + mt * 0x80000000000000 + nt * 0x10000000000000 + kt * 0x100000000000 + acc * 0x4000000000 + afmt * 0x400000000 + bfmt * 0x40000000 + trig * 0x800000)
  | .mmat mt nt kt acc afmt bfmt trig => (.matrix, 0x800000000010000 + mt * 0x80000000000000 + nt * 0x10000000000000 + kt * 0x100000000000 + acc * 0x4000000000 + afmt * 0x400000000 + bfmt * 0x40000000 + trig * 0x800000)
  | .mmag mt nt kt acc afmt bfmt trig => (.matrix, 0xC00000000010000 + mt * 0x80000000000000 + nt * 0x10000000000000 + kt * 0x100000000000 + acc * 0x4000000000 + afmt * 0x400000000 + bfmt * 0x40000000 + trig * 0x800000)
  | .accz mt nt acc trig => (.matrix, 0x1000000000010000 + mt * 0x80000000000000 + nt * 0x10000000000000 + acc * 0x4000000000 + trig * 0x800000)
  | .accrd mt nt acc rm trig sat q ofmt => (.matrix, 0x1400000000010000 + mt * 0x80000000000000 + nt * 0x10000000000000 + acc * 0x4000000000 + rm * 0x8000000 + trig * 0x800000 + sat * 0x400000 + q * 0x200000 + ofmt * 0x20000)
  | .accwr mt nt acc afmt trig => (.matrix, 0x1800000000010000 + mt * 0x80000000000000 + nt * 0x10000000000000 + acc * 0x4000000000 + afmt * 0x400000000 + trig * 0x800000)
  | .accax mt nt acc afmt bfmt rm trig => (.matrix, 0x1C00000000010000 + mt * 0x80000000000000 + nt * 0x10000000000000 + acc * 0x4000000000 + afmt * 0x400000000 + bfmt * 0x40000000 + rm * 0x8000000 + trig * 0x800000)
  | .rcAdd d a b => (.rc, 0x0 + d * 0x100000 + a * 0x8000 + b * 0x400)
  | .rcSub d a b => (.rc, 0x2000000 + d * 0x100000 + a * 0x8000 + b * 0x400)
  | .rcMul d a b => (.rc, 0x4000000 + d * 0x100000 + a * 0x8000 + b * 0x400)
  | .rcMulh d a b => (.rc, 0x6000000 + d * 0x100000 + a * 0x8000 + b * 0x400)
  | .rcAnd d a b => (.rc, 0x8000000 + d * 0x100000 + a * 0x8000 + b * 0x400)
  | .rcOr d a b => (.rc, 0xA000000 + d * 0x100000 + a * 0x8000 + b * 0x400)
  | .rcXor d a b => (.rc, 0xC000000 + d * 0x100000 + a * 0x8000 + b * 0x400)
  | .rcShl d a b => (.rc, 0xE000000 + d * 0x100000 + a * 0x8000 + b * 0x400)
  | .rcShr d a b => (.rc, 0x10000000 + d * 0x100000 + a * 0x8000 + b * 0x400)
  | .rcSha d a b => (.rc, 0x12000000 + d * 0x100000 + a * 0x8000 + b * 0x400)
  | .rcSlt d a b => (.rc, 0x14000000 + d * 0x100000 + a * 0x8000 + b * 0x400)
  | .rcSltn d a b => (.rc, 0x16000000 + d * 0x100000 + a * 0x8000 + b * 0x400)
  | .rcMin d a b => (.rc, 0x18000000 + d * 0x100000 + a * 0x8000 + b * 0x400)
  | .rcMax d a b => (.rc, 0x1A000000 + d * 0x100000 + a * 0x8000 + b * 0x400)
  | .rcAddi d a i => (.rc, 0x1C000000 + d * 0x100000 + a * 0x8000 + i)
  | .rcAndi d a i => (.rc, 0x1E000000 + d * 0x100000 + a * 0x8000 + i)
  | .rcLd d a z o => (.rc, 0x20000000 + d * 0x100000 + a * 0x8000 + z * 0x2000 + o)
  | .rcSt d a z o => (.rc, 0x22000000 + d * 0x100000 + a * 0x8000 + z * 0x2000 + o)
  | .rcAmo d a b z r s p => (.rc, 0x24000000 + d * 0x100000 + a * 0x8000 + b * 0x400 + z * 0x100 + r * 0x40 + s * 0x10 + p)
  | .rcCas d a b z r s => (.rc, 0x26000000 + d * 0x100000 + a * 0x8000 + b * 0x400 + z * 0x100 + r * 0x40 + s * 0x10)
  | .rcFence r s => (.rc, 0x28000000 + r * 0x40 + s * 0x10)
  | .rcMovk d a i => (.rc, 0x2A000000 + d * 0x100000 + a * 0x8000 + i)
  | .rcRds d i => (.rc, 0x2C000000 + d * 0x100000 + i)
  | .rcWrs a i => (.rc, 0x2E000000 + a * 0x8000 + i)
  | .rcRdfn d c e f => (.rc, 0x30000000 + d * 0x100000 + c * 0x20 + e * 0x8 + f)
  | .rcOri d a i => (.rc, 0x32000000 + d * 0x100000 + a * 0x8000 + i)
  | .rcShli d a i => (.rc, 0x34000000 + d * 0x100000 + a * 0x8000 + i)
  | .rcShri d a i => (.rc, 0x36000000 + d * 0x100000 + a * 0x8000 + i)
  | .rcBeq a b o => (.rc, 0x40000000 + a * 0x100000 + b * 0x8000 + o)
  | .rcBne a b o => (.rc, 0x42000000 + a * 0x100000 + b * 0x8000 + o)
  | .rcBlt a b o => (.rc, 0x44000000 + a * 0x100000 + b * 0x8000 + o)
  | .rcBge a b o => (.rc, 0x46000000 + a * 0x100000 + b * 0x8000 + o)
  | .rcBltn a b o => (.rc, 0x48000000 + a * 0x100000 + b * 0x8000 + o)
  | .rcBgen a b o => (.rc, 0x4A000000 + a * 0x100000 + b * 0x8000 + o)
  | .rcJmp o => (.rc, 0x4C000000 + o)
  | .rcJal d o => (.rc, 0x4E000000 + d * 0x100000 + o)
  | .rcJr d a => (.rc, 0x50000000 + d * 0x100000 + a * 0x8000)
  | .rcLoop c o => (.rc, 0x52000000 + c * 0x100000 + o)
  | .rcBst d a s i => (.rc, 0x56000000 + d * 0x100000 + a * 0x8000 + s * 0x100 + i)
  | .rcWaite d i => (.rc, 0x58000000 + d * 0x100000 + i)
  | .rcTrap i => (.rc, 0x5A000000 + i)
  | .rcSys d a i => (.rc, 0x5C000000 + d * 0x100000 + a * 0x8000 + i)
  | .rcCfg ext => (.long, 0x60000000 + ext * 0x100000000)
  | .rcIter a n => (.rc, 0x64000000 + a * 0x8000 + n)
  | .rcSpec d ext => (.long, 0x66000000 + d * 0x100000 + ext * 0x100000000)
  | .rcWaitr d => (.rc, 0x6A000000 + d * 0x100000)
  | .rcPstat d => (.rc, 0x6E000000 + d * 0x100000)
  | .rcBarc a => (.rc, 0x70000000 + a * 0x8000)
  | .rcInj d a b => (.rc, 0x72000000 + d * 0x100000 + a * 0x8000 + b * 0x400)
  | .rcXtr d a => (.rc, 0x74000000 + d * 0x100000 + a * 0x8000)
  | .rcCpy r a b t p => (.rc, 0x80000000 + r * 0x100000 + a * 0x8000 + b * 0x400 + t * 0x20 + p)
  | .rcCpyr r a b t p => (.rc, 0x82000000 + r * 0x100000 + a * 0x8000 + b * 0x400 + t * 0x20 + p)
  | .rcCpyg a b t p => (.rc, 0x84000000 + a * 0x8000 + b * 0x400 + t * 0x20 + p)
  | .rcCpyx a b t p => (.rc, 0x86000000 + a * 0x8000 + b * 0x400 + t * 0x20 + p)
  | .rcCpys a b t p => (.rc, 0x88100000 + a * 0x8000 + b * 0x400 + t * 0x20 + p)
  | .rcTbi a t => (.rc, 0x8A000000 + a * 0x8000 + t * 0x20)
  | .rcTbw t => (.rc, 0x8C000000 + t * 0x20)
  | .rcTbex a t => (.rc, 0x8E000000 + a * 0x8000 + t * 0x20)
  | .rcShd d p => (.rc, 0x900003E0 + d * 0x100000 + p)
  | .rcPub d p => (.rc, 0x920003E0 + d * 0x100000 + p)
  | .rcDisc p => (.rc, 0x940003E0 + p)
  | .rcCpst d t => (.rc, 0x96000000 + d * 0x100000 + t * 0x20)
  | .rcNdsub d a => (.rc, 0xA0000000 + d * 0x100000 + a * 0x8000)
  | .rcNddep d a b => (.rc, 0xA2000000 + d * 0x100000 + a * 0x8000 + b * 0x400)
  | .rcNdwait d a => (.rc, 0xA4000000 + d * 0x100000 + a * 0x8000)
  | .rcNdstat d a => (.rc, 0xA6000000 + d * 0x100000 + a * 0x8000)
  | .rcComm d a => (.rc, 0xA8000000 + d * 0x100000 + a * 0x8000)
  | .rcColl d a b p o => (.rc, 0xAA000000 + d * 0x100000 + a * 0x8000 + b * 0x400 + p * 0x40 + o * 0x4)
  | .rcCwait d a => (.rc, 0xAC000000 + d * 0x100000 + a * 0x8000)
  | .rcCstat d a => (.rc, 0xAE000000 + d * 0x100000 + a * 0x8000)
  | .rcCsel a b => (.rc, 0xB0000000 + a * 0x8000 + b * 0x400)
  | .rcLi d ext => (.long, 0xE0000000 + d * 0x100000 + ext * 0x100000000)
  | .rcLih d ext => (.long, 0xE2000000 + d * 0x100000 + ext * 0x100000000)
  | .rcJl d ext => (.long, 0xE4000000 + d * 0x100000 + ext * 0x100000000)
  | .rcMtp a b f => (.rc, 0xC0000000 + a * 0x8000 + b * 0x400 + f)
  | .rcMfp d a f => (.rc, 0xC2000000 + d * 0x100000 + a * 0x8000 + f)
  | .rcTlbi a => (.rc, 0xC4000000 + a * 0x8000)
  | .rcTlbiRange a b => (.rc, 0xC4000001 + a * 0x8000 + b * 0x400)
  | .rcCtxs d a b => (.rc, 0xC6000000 + d * 0x100000 + a * 0x8000 + b * 0x400)
  | .rcCtxr d a b => (.rc, 0xC8000000 + d * 0x100000 + a * 0x8000 + b * 0x400)
  | .rcKill a => (.rc, 0xCA000000 + a * 0x8000)
  | .rcPrmt a => (.rc, 0xCC000000 + a * 0x8000)
  | .rcSealk d a b => (.rc, 0xCE000000 + d * 0x100000 + a * 0x8000 + b * 0x400)
  | .rcSealkRet a => (.rc, 0xCE000001 + a * 0x8000)
  | .rcSealkCur a => (.rc, 0xCE000002 + a * 0x8000)
  | .rcScrub d a b => (.rc, 0xD0000000 + d * 0x100000 + a * 0x8000 + b * 0x400)
  | .rcMigr d a b => (.rc, 0xD2000000 + d * 0x100000 + a * 0x8000 + b * 0x400)
  | .rcCkpt d a => (.rc, 0xD4000000 + d * 0x100000 + a * 0x8000)
  | .rcRstr d a => (.rc, 0xD6000000 + d * 0x100000 + a * 0x8000)
  | .rcAttest d a b => (.rc, 0xD8000000 + d * 0x100000 + a * 0x8000 + b * 0x400)
  | .rcAttestAcc a b => (.rc, 0xD8000001 + a * 0x8000 + b * 0x400)
  | .rcAttestClose a => (.rc, 0xD8000002 + a * 0x8000)
  | .rcRets a b => (.rc, 0xDA000000 + a * 0x8000 + b * 0x400)
  | .rcPartCreate d a b => (.rc, 0xDC000000 + d * 0x100000 + a * 0x8000 + b * 0x400)
  | .rcPartDestroy d a b => (.rc, 0xDC000001 + d * 0x100000 + a * 0x8000 + b * 0x400)
  | .rcPartRead d a b => (.rc, 0xDC000002 + d * 0x100000 + a * 0x8000 + b * 0x400)
  | .rcEvtq a b => (.rc, 0xDE000000 + a * 0x8000 + b * 0x400)
  | .rcEvtqWait d => (.rc, 0xDE000001 + d * 0x100000)
  | .dropOp => (.cell, 0xE2000000)
  | .endOp => (.cell, 0xE2800000)
  | .freef => (.cell, 0xE5000000)
  | .cEnd => (.compact, 0x0)
  | .cDrop => (.compact, 0xB000)
  | .rcEndl => (.rc, 0x54000000)
  | .rcHalt => (.rc, 0x5E000000)
  | .rcCfgw => (.rc, 0x62000000)
  | .rcGo => (.rc, 0x68000000)
  | .rcAbortr => (.rc, 0x6C000000)
  | .rcPin => (.rc, 0x76000000)
  | .rcTlbiAll => (.rc, 0xC4000002)
  | .rcKillPart => (.rc, 0xCA000001)
  | .rcPrmtPart => (.rc, 0xCC000001)
  | .evPowerOnReset => (.event, 0)
  | .evDataTokenArrival => (.event, 0)
  | .evEosArrival => (.event, 0)
  | .evMarkArrival => (.event, 0)
  | .evNoticeArrival => (.event, 0)
  | .evTaskAdmit => (.event, 0)
  | .evTaskDispatch => (.event, 0)
  | .evStagedTokenRelease => (.event, 0)
  | .evEosForward => (.event, 0)
  | .evSinkEosCount => (.event, 0)
  | .evMarkerSlotFill => (.event, 0)
  | .evFrontierAdvance => (.event, 0)
  | .evArbiterWeightRecompute => (.event, 0)
  | .evFrameWaitTimeout => (.event, 0)
  | .evReturnArrival => (.event, 0)
  | .evCfgLoadApply => (.event, 0)
  | .evGeneratorPoint => (.event, 0)
  | .evBarcPoint => (.event, 0)
  | .evOrderingTokenArrival => (.event, 0)
  | .evVoidSlotFree => (.event, 0)
  | .evCopyOutSlotTake => (.event, 0)
  | .evSectorLanding => (.event, 0)
  | .evRemoteAccessArrival => (.event, 0)
  | .evRemoteStoreCompletion => (.event, 0)
  | .evHistoryCommandAccept => (.event, 0)
  | .evHistoryCommandApply => (.event, 0)
  | .evHistoryFrontierAdvance => (.event, 0)
  | .evHistoryEosPass => (.event, 0)
  | .evBucketSpill => (.event, 0)
  | .evBucketFill => (.event, 0)
  | .evMatrixInstanceStart => (.event, 0)
  | .evMatrixEos => (.event, 0)
  | .evMatrixPreemptSave => (.event, 0)
  | .evMatrixIdle => (.event, 0)
  | .evIsleRampAdmit => (.event, 0)
  | .evRampStep => (.event, 0)
  | .evPhaseComplete => (.event, 0)
  | .evCommunicatorFormed => (.event, 0)
  | .evCommunicatorBroken => (.event, 0)
  | .evChunkStart => (.event, 0)
  | .evChunkCombine => (.event, 0)
  | .evSlotCloseTimeout => (.event, 0)
  | .evRouterStep => (.event, 0)
  | .evDoneNotice => (.event, 0)
  | .evCommit => (.event, 0)
  | .evMemberLost => (.event, 0)
  | .evNodePlace => (.event, 0)
  | .evNodeAging => (.event, 0)
  | .evNodeComplete => (.event, 0)
  | .evHostWrite => (.event, 0)
  | .evHostRaisingWrite => (.event, 0)
  | .evHostChannelPublish => (.event, 0)
  | .evHostTokenDeliver => (.event, 0)
  | .evHostSinkAck => (.event, 0)
  | .evUePacketReceive => (.event, 0)
  | .evUePortDown => (.event, 0)
  | .evStraitFlitReceive => (.event, 0)
  | .evNakReceive => (.event, 0)
  | .evCreditReturn => (.event, 0)
  | .evEscapeVcDivert => (.event, 0)
  | .evWatchdogFirst => (.event, 0)
  | .evWatchdogSecond => (.event, 0)
  | .evEventPost => (.event, 0)
  | .evTimerExpiry => (.event, 0)
  | .evPreemptMarkerForward => (.event, 0)
  | .evRegionFrozen => (.event, 0)
  | .evPreemptTimeout => (.event, 0)
  | .evKillDone => (.event, 0)
  | .evPowerWindow => (.event, 0)
  | .evThermalWarning => (.event, 0)
  | .evThermalThrottle => (.event, 0)
  | .evThermalShutdown => (.event, 0)
  | .evUncorrectableError => (.event, 0)
  | .rcIllegalEncoding => (.event, 0)
  | .evRemoteReply => (.event, 0)
  | .evStraitLinkReturn => (.event, 0)
  | .evThermalThrottleRelease => (.event, 0)
  | .evExtractFifoArrival => (.event, 0)

/-- The bytes of an instruction as its store holds them: a 32-bit cell instruction's upper halfword comes first (R135). -/
def encode (i : Instr) : List Byte :=
  match encodeWord i with
  | (.compact, w) => leBytes 2 w
  | (.cell, w) => leBytes 2 (w / 65536) ++ leBytes 2 w
  | (.matrix, w) => leBytes 8 w
  | (.rc, w) => leBytes 4 w
  | (.long, w) => leBytes 8 w
  | (.event, _) => []

/-- The decoder gave this instruction. -/
def reads (e : Except DecodeError Instr) (i : Instr) : Bool :=
  match e with
  | .ok j => decide (j = i)
  | .error _ => false

/-- Words written out from the compact form of R137. -/
theorem decodeCompact_word_1 : [(0xD4C, .cAdd 5 4 12), (0x1023, .cSub 0 2 3), (0x1D16, .cMul 5 1 6), (0x202D, .cFma 0 2 13), (0x2E27, .cMin 6 2 7), (0x31D1, .cMax 1 13 1), (0x3971, .cAnd 1 7 1), (0x4617, .cOr 6 1 7), (0x4849, .cXor 0 4 9), (0x5640, .cMov 6 4), (0x5990, .cNeg 1 9), (0x6230, .cAbs 2 3), (0x6BB0, .cExp2 3 11), (0x7120, .cRcp 1 2), (0x7860, .cRsq 0 6), (0x87D0, .cRedl 7 13), (0x8DEE, .cSel 5 14 14), (0x9597, .cBcast 5 9 7), (0x9A72, .cShl 2 7 2)].all (fun p => reads (decodeCompact p.1) p.2) = true := by decide

/-- Words written out from the compact form of R137. -/
theorem decodeCompact_word_2 : [(0xA4FA, .cShr 4 15 10), (0xAF92, .cEmit 7 9 2), (0xB9D5, .cSetv 1 13 5), (0x0, .cEnd), (0xB000, .cDrop)].all (fun p => reads (decodeCompact p.1) p.2) = true := by decide

/-- Words written out from the formats of R135, R139, R140, R141 and the opcode map of R142. -/
theorem decodeCell32_word_1 : [(0xC0569FD8, .add 43 19 62 6 0 0), (0xC0D15D9E, .sub 40 43 44 7 1 0), (0xC1171785, .mul 11 34 60 1 0 1), (0xC1F32634, .fma 57 36 49 5 0), (0xC2776AA6, .fms 59 45 21 1 1), (0xC28EDC88, .fnma 7 27 36 2 0), (0xC36597E0, .min 50 50 63), (0xC394AF20, .max 10 21 57), (0xC4671800, .abs 51 35), (0xC4A3B800, .negOp 17 55), (0xC547ADB8, .div 35 53 45 6 0), (0xC5A652C0, .adds 19 10 22), (0xC626EBA0, .subs 19 29 29), (0xC683F2E0, .mulh 1 62 23), (0xC7432010, .addi 33 36 16), (0xC7A5ADE8, .muli 18 53 1512), (0xC85080C0, .andOp 40 16 6), (0xC8F59640, .orOp 58 50 50), (0xC96791A0, .xor 51 50 13)].all (fun p => reads (decodeCell32 p.1) p.2) = true := by decide

/-- Words written out from the formats of R135, R139, R140, R141 and the opcode map of R142. -/
theorem decodeCell32_word_2 : [(0xC9FB9800, .notOp 61 51), (0xCA0EC100, .shl 7 24 8), (0xCAB5C280, .shr 26 56 20), (0xCB1D58C0, .sha 14 43 6), (0xCB9A0260, .rot 13 0 19), (0xCC197000, .clz 12 46), (0xCC864800, .popc 3 9), (0xCD358260, .andi 26 48 608), (0xCDC165D3, .ori 32 44 1491), (0xCE7879D8, .shli 60 15 472), (0xCEFDDFAF, .shri 62 59 1967), (0xCF7B395F, .shai 61 39 351), (0xCFA46E1E, .bfx 18 13 1 16 30), (0xD028100E, .rcp 20 2 3 1), (0xD0A41810, .rsq 18 3 4 0), (0xD143700A, .sqrt 33 46 2 1), (0xD1B9500C, .exp2 28 42 3 0), (0xD23D980C, .log2 30 51 3 0), (0xD2FF6800, .tanh 63 45 0 0)].all (fun p => reads (decodeCell32 p.1) p.2) = true := by decide

/-- Words written out from the formats of R135, R139, R140, R141 and the opcode map of R142. -/
theorem decodeCell32_word_3 : [(0xD347E010, .sinp 35 60 4 0), (0xD3D9C816, .cosp 44 57 5 1), (0xD414E1AC, .cmp 10 28 13 3), (0xD4F8CD60, .setv 60 25 43), (0xD535E800, .sel 26 61 0), (0xD5FB6000, .cntv 61 44), (0xD6147800, .firstv 10 15), (0xD6E2C800, .classOp 49 25), (0xD77AB6E0, .cpsgn 61 22 55), (0xD7D45818, .rndi 42 11 6), (0xD8779824, .cvt 59 51 2 2 0), (0xD8A0184E, .qnt 16 3 4 7), (0xD925E0B4, .dqn 18 60 11 2 0), (0xD98409A8, .xsc 2 1 13 2), (0xDA6EC360, .shuf 55 24 27), (0xDA870367, .bcast 3 32 871), (0xDB4AF537, .rotl 37 30 1335), (0xDBC3AA02, .redl 33 53 16 0 1), (0xDC75AA08, .scanl 58 53 16 2 0)].all (fun p => reads (decodeCell32 p.1) p.2) = true := by decide

/-- Words written out from the formats of R135, R139, R140, R141 and the opcode map of R142. -/
theorem decodeCell32_word_4 : [(0xDCF002EE, .iota 56 750), (0xDD009800, .mov 0 19), (0xDDAC90F4, .movi 22 37108), (0xDE783D9C, .movh 60 15772), (0xDE8F4DCE, .ldc 7 85454), (0xDF7A0001, .tagrd 61 0 1), (0xDFBEC080, .fmts 31 24 8), (0xE0033810, .emit 0 12 14 0 16), (0xE0FA5A39, .emitv 7 41 6 4 57), (0xE177E1D1, .steer 7 31 8 3 1 17), (0xE1EA7E41, .merge 53 15 50 1), (0xE3500000, .emeos 5), (0xE3900000, .fwdm 1), (0xE43D8A39, .call 3 54 2 3 9), (0xE483C280, .ret 15 0), (0xE5DC9400, .filt 46 18 32 0), (0xE676E000, .coal 59 28), (0xE6980000, .flushc 12), (0xE765F000, .pchk 50 62)].all (fun p => reads (decodeCell32 p.1) p.2) = true := by decide

/-- Words written out from the formats of R135, R139, R140, R141 and the opcode map of R142. -/
theorem decodeCell32_word_5 : [(0xE780A394, .trapc 20 916), (0xE829B8C1, .lds 20 55 12 1), (0xE8EACD09, .sts 53 25 5 1 0 1), (0xE90558E0, .ldx 2 43 14), (0xE9F01608, .stx 56 2 6 1), (0xEA4A4098, .atom 37 8 0 1 3 0), (0xEA810C15, .lde 33 4 1 0 1 1), (0xEB6D0E04, .ste 54 33 6 0 1), (0xEB814900, .ordt 41 1), (0xEC000200, .fencem 2 0), (0xECAFB000, .cmpr 23 54), (0xED131000, .expd 9 34 0 0), (0xEDC25304, .rput 33 10 3 0 4), (0xEE1FD005, .rget 15 58 0 5), (0xEE81A800, .rfree 53), (0xEF011200, .tbarv 34 2 0), (0xEFBC7000, .tbtst 30 14), (0xF02908C0, .rmk 20 33 6), (0xF0AECCE0, .tjoin 23 25 39)].all (fun p => reads (decodeCell32 p.1) p.2) = true := by decide

/-- Words written out from the formats of R135, R139, R140, R141 and the opcode map of R142. -/
theorem decodeCell32_word_6 : [(0xF14ED4A0, .tmeet 39 26 37), (0xF1F2B440, .tle 57 22 34), (0xF2581400, .tadv 44 2 32), (0xF2802000, .hins 4 0), (0xF3001370, .hseek 2 6 7), (0xF380FF10, .hjoin 31 14 1), (0xF46FFE09, .hred 55 63 12 9), (0xF4800300, .hcons 6), (0xF500ED00, .hcomp 29 10), (0xF5B2023C, .fnrd 25 572), (0xF66B0800, .fnput 6 44), (0xF68C8020, .scope 6 16 1), (0xF71306E4, .rhash 9 32 1764), (0xF7A83800, .rneg 20 7), (0xE2000000, .dropOp), (0xE2800000, .endOp), (0xE5000000, .freef)].all (fun p => reads (decodeCell32 p.1) p.2) = true := by decide

/-- Words written out from R145 and R206. -/
theorem decodeMatrix_word_1 : [(0xE907E447010000, .mma 1 6 144 31 9 1 14), (0x5289E4205810000, .mmaz 2 2 137 57 0 8 11), (0xAD7D12585810000, .mmat 5 5 125 4 9 6 11), (0xD0ABC0BC4010000, .mmag 2 0 171 48 2 15 8), (0x11B0000001010000, .accz 3 3 0 2), (0x1610048030D30000, .accrd 4 1 18 6 1 1 0 9), (0x1A30029006010000, .accwr 4 3 10 4 12), (0x1EF004E506810000, .accax 5 7 19 9 4 0 13)].all (fun p => reads (decodeMatrix p.1) p.2) = true := by decide

/-- Words written out from R147 and the forms of chapters 13 and 20 to 23. -/
theorem decodeRc_word_1 : [(0x80B800, .rcAdd 8 1 14), (0x2508800, .rcSub 5 1 2), (0x48B9800, .rcMul 8 23 6), (0x78E0C00, .rcMulh 24 28 3), (0x817FC00, .rcAnd 1 15 31), (0xB007400, .rcOr 16 0 29), (0xC429000, .rcXor 4 5 4), (0xFE81000, .rcShl 30 16 4), (0x1107B400, .rcShr 16 15 13), (0x12EEFC00, .rcSha 14 29 31), (0x15827800, .rcSlt 24 4 30), (0x17213000, .rcSltn 18 2 12), (0x1844D400, .rcMin 4 9 21), (0x1B09A000, .rcMax 16 19 8), (0x1C0F0F87, .rcAddi 0 30 3975), (0x1FF8997A, .rcAndi 31 17 6522), (0x20DFD246, .rcLd 13 31 2 4678), (0x23DEE795, .rcSt 29 29 3 1941), (0x24C9952E, .rcAmo 12 19 5 1 0 2 14)].all (fun p => reads (decodeRcWord p.1 0) p.2) = true := by decide

/-- Words written out from R147 and the forms of chapters 13 and 20 to 23. -/
theorem decodeRc_word_2 : [(0x264E4550, .rcCas 4 28 17 1 1 1), (0x28000000, .rcFence 0 0), (0x2A985C0B, .rcMovk 9 16 23563), (0x2C804791, .rcRds 8 18321), (0x2E03DD7C, .rcWrs 7 23932), (0x30E0003E, .rcRdfn 14 1 3 6), (0x321500EB, .rcOri 1 10 235), (0x35FE67C9, .rcShli 31 28 26569), (0x3734EA8A, .rcShri 19 9 27274), (0x416C50EA, .rcBeq 22 24 20714), (0x427A8072, .rcBne 7 21 114), (0x454AE5F4, .rcBlt 20 21 26100), (0x46760300, .rcBge 7 12 768), (0x49285F49, .rcBltn 18 16 24393), (0x4A4CE3E1, .rcBgen 4 25 25569), (0x4C0271DF, .rcJmp 160223), (0x4F7DB29B, .rcJal 23 897691), (0x51118000, .rcJr 17 3), (0x53101A09, .rcLoop 17 6665)].all (fun p => reads (decodeRcWord p.1 0) p.2) = true := by decide

/-- Words written out from R147 and the forms of chapters 13 and 20 to 23. -/
theorem decodeRc_word_3 : [(0x5639010F, .rcBst 3 18 1 15), (0x59106FAD, .rcWaite 17 28589), (0x5A0050CB, .rcTrap 20683), (0x5CCBED80, .rcSys 12 23 28032), (0x64008003, .rcIter 1 3), (0x6AD00000, .rcWaitr 13), (0x6E500000, .rcPstat 5), (0x70018000, .rcBarc 3), (0x73AE2000, .rcInj 26 28 8), (0x752F8000, .rcXtr 18 31), (0x80042BC6, .rcCpy 0 8 10 30 6), (0x82194E04, .rcCpyr 1 18 19 16 4), (0x840CBE67, .rcCpyg 25 15 19 7), (0x860C9D42, .rcCpyx 25 7 10 2), (0x881237E3, .rcCpys 4 13 31 3), (0x8A0E02A0, .rcTbi 28 21), (0x8C000380, .rcTbw 28), (0x8E0D8100, .rcTbex 27 8), (0x90C003E3, .rcShd 12 3)].all (fun p => reads (decodeRcWord p.1 0) p.2) = true := by decide

/-- Words written out from R147 and the forms of chapters 13 and 20 to 23. -/
theorem decodeRc_word_4 : [(0x925003E2, .rcPub 5 2), (0x940003E5, .rcDisc 5), (0x96500280, .rcCpst 5 20), (0xA0FB8000, .rcNdsub 15 23), (0xA3060400, .rcNddep 16 12 1), (0xA5AC0000, .rcNdwait 26 24), (0xA7A68000, .rcNdstat 26 13), (0xA9888000, .rcComm 24 17), (0xAB51FE2C, .rcColl 21 3 31 8 11), (0xAC868000, .rcCwait 8 13), (0xAE588000, .rcCstat 5 17), (0xB007E000, .rcCsel 15 24), (0xC00CF374, .rcMtp 25 28 884), (0xC3308104, .rcMfp 19 1 260), (0xC4010000, .rcTlbi 2), (0xC40DF801, .rcTlbiRange 27 30), (0xC7F01000, .rcCtxs 31 0 4), (0xC99EF000, .rcCtxr 25 29 28), (0xCA078000, .rcKill 15)].all (fun p => reads (decodeRcWord p.1 0) p.2) = true := by decide

/-- Words written out from R147 and the forms of chapters 13 and 20 to 23. -/
theorem decodeRc_word_5 : [(0xCC030000, .rcPrmt 6), (0xCEE4A400, .rcSealk 14 9 9), (0xCE030001, .rcSealkRet 6), (0xCE0E8002, .rcSealkCur 29), (0xD0510000, .rcScrub 5 2 0), (0xD2870800, .rcMigr 8 14 2), (0xD5340000, .rcCkpt 19 8), (0xD70D8000, .rcRstr 16 27), (0xD8731000, .rcAttest 7 6 4), (0xD809B001, .rcAttestAcc 19 12), (0xD80C0002, .rcAttestClose 24), (0xDA083800, .rcRets 16 14), (0xDC004C00, .rcPartCreate 0 0 19), (0xDDD8D001, .rcPartDestroy 29 17 20), (0xDCFF3C02, .rcPartRead 15 30 15), (0xDE078400, .rcEvtq 15 1), (0xDFA00001, .rcEvtqWait 26), (0x54000000, .rcEndl), (0x5E000000, .rcHalt)].all (fun p => reads (decodeRcWord p.1 0) p.2) = true := by decide

/-- Words written out from R147 and the forms of chapters 13 and 20 to 23. -/
theorem decodeRc_word_6 : [(0x62000000, .rcCfgw), (0x68000000, .rcGo), (0x6C000000, .rcAbortr), (0x76000000, .rcPin), (0xC4000002, .rcTlbiAll), (0xCA000001, .rcKillPart), (0xCC000001, .rcPrmtPart)].all (fun p => reads (decodeRcWord p.1 0) p.2) = true := by decide

/-- Words written out from the long form of R147. -/
theorem decodeRcLong_word_1 : [(0x60000000, .rcCfg 0x89ABCDEF), (0x67300000, .rcSpec 19 0x89ABCDEF), (0xE0300000, .rcLi 3 0x89ABCDEF), (0xE2100000, .rcLih 1 0x89ABCDEF), (0xE4C00000, .rcJl 12 0x89ABCDEF)].all (fun p => reads (decodeRcWord p.1 0x89ABCDEF) p.2) = true := by decide

/-- The words the spec itself writes out (R10, R139, R171, R176, R180, R190, R197, R220 to R225, N14, N26, N36). -/
theorem decodes_spec_cell_words : [(0xC1102124, Instr.mul 8 4 9 1 0 0), (0xE1010049, .steer 0 4 0 0 1 9), (0xD4122408, .cmp 9 4 32 2),
    (0xD8922040, .qnt 9 4 4 0), (0xD9144810, .dqn 10 9 1 0 0), (0xC1A620A6, .fma 19 4 5 1 1), (0xE4010210, .call 0 4 0 1 0), (0xE8884800, .sts 4 9 0 0 0 0),
    (0xEE100010, .rget 8 0 1 0), (0xF6942020, .scope 10 4 1), (0xF7122004, .rhash 9 4 4), (0xF5900001, .fnrd 8 1), (0xF6120800, .fnput 1 8),
    (0xF3802100, .hjoin 4 2 0), (0xF4022181, .hred 1 4 3 1)].all (fun p => reads (decodeCell32 p.1) p.2) = true := by decide

/-- The words of the listing's RC program and of chapters 20 to 23 as the spec writes them out. -/
theorem decodes_spec_rc_words : [(0x60000000, Instr.rcCfg 0), (0x62000000, .rcCfgw), (0x2C100000, .rcRds 1 0), (0x20208000, .rcLd 2 1 0 0), (0x64010000, .rcIter 2 0),
    (0x82000BE0, .rcCpyr 0 0 2 31 0), (0x66000000, .rcSpec 0 0), (0x68000000, .rcGo), (0x6A000000, .rcWaitr 0), (0x8E010000, .rcTbex 2 0), (0xE0300000, .rcLi 3 0),
    (0x80118801, .rcCpy 1 3 2 0 1), (0x8C000000, .rcTbw 0), (0x920003E1, .rcPub 0 1), (0x5E000000, .rcHalt), (0xAA408A1C, .rcColl 4 1 2 8 7),
    (0xC0010D02, .rcMtp 2 3 0x102), (0xDA021400, .rcRets 4 5), (0xCC010000, .rcPrmt 2), (0xC4010000, .rcTlbi 2), (0xC4010C01, .rcTlbiRange 2 3), (0xC4000002, .rcTlbiAll),
    (0xD2410C00, .rcMigr 4 2 3), (0xD0510C00, .rcScrub 5 2 3), (0xCE410C00, .rcSealk 4 2 3), (0xCE010001, .rcSealkRet 2), (0xCE010002, .rcSealkCur 2), (0xD8410C00, .rcAttest 4 2 3),
    (0xD4410000, .rcCkpt 4 2), (0xD6410000, .rcRstr 4 2)].all (fun p => reads (decodeRcWord p.1 0) p.2) = true := by decide

/-- The compact words the spec writes out (R10, R176, N14, N28, R183) and the matrix word of R206. -/
theorem decodes_spec_short_words : [(0x1849, Instr.cMul 0 4 9), (0x0A49, .cAdd 2 4 9), (0xA880, .cEmit 0 8 0), (0x6840, .cExp2 0 4), (0x0000, .cEnd), (0xB000, .cDrop)].all
    (fun p => reads (decodeCompact p.1) p.2) = true ∧ reads (decodeMatrix 0x07F0701100810000) (.mmaz 7 7 7 0 4 4 1) = true := by decide
/-- The instruction that stands in an instruction word of nbits, numbered as the opcode table numbers them: which store it is of
(R135, R145, R147), and the instruction. 16 bits are a compact cell instruction. 64 bits are a matrix word when its slot is in use, else
a long RC form. A 32-bit number whose bits [31:30] are 0b11 can stand in a routine store or in an RC program of row 0x60 and the long
rows: the cell reading comes first, and the RC reading where there is no cell instruction. -/
def tableInstr (nbits w : Nat) : Option (Form × Instr) :=
  if nbits ≤ 16 then (decodeCompact w).toOption.map (.compact, ·)
  else if nbits ≤ 32 then
    match decodeCell32 w with
    | .ok i => some (.cell, i)
    | .error _ => (decodeRcWord w 0).toOption.map (.rc, ·)
  else match decodeMatrix w with
    | .ok i => some (.matrix, i)
    | .error _ => (decodeRcWord (w % 2 ^ 32) (w / 2 ^ 32)).toOption.map (.long, ·)

/-- The bytes of that instruction as its store holds them. -/
def tableBytes (nbits w : Nat) : List Byte :=
  match tableInstr nbits w with
  | some (.compact, _) => leBytes 2 w
  | some (.cell, _) => leBytes 2 (w / 65536) ++ leBytes 2 w
  | some (.matrix, _) => leBytes 8 w
  | some _ => leBytes 8 w
  | none => []

/-- The instruction the decoder reads from the bytes of a table word, laid out as the hardware stores them. -/
def decodeTableWord (nbits w : Nat) : Option Instr :=
  match tableInstr nbits w with
  | some (.compact, _) | some (.cell, _) => ((decodeCell (tableBytes nbits w)).toOption).map (·.1)
  | some (.matrix, _) => (decodeMatrix (leNat (tableBytes nbits w))).toOption
  | some _ => (decodeRcWord (leNat ((tableBytes nbits w).take 4)) (leNat ((tableBytes nbits w).drop 4))).toOption
  | none => none

end Sys2Proof
end

