-- ==== Sys2Proof/Machine/Num.lean ====
section
/-! DEFINITION. Number formats and exact arithmetic (03_number_formats.md): layouts, exact values, RoundTo and RoundSat, the conversion
table, the stochastic generator, and the special functions of R166. Values are exact; rounding happens once, in roundEx. -/

namespace Sys2Proof.Machine

/-- The format of a code (R37). -/
def fmtOf (c : Nat) : Fmt :=
  [.none, .fp32, .bf16, .fp16, .e4m3, .e5m2, .e3m2, .e2m3, .e2m1, .mxint8, .s32, .n32, .s16, .s8, .rcd, .vcb].getD c .none

/-- The code of a format (R37). -/
def fmtCode : Fmt → Nat
  | .none => 0 | .fp32 => 1 | .bf16 => 2 | .fp16 => 3 | .e4m3 => 4 | .e5m2 => 5 | .e3m2 => 6 | .e2m3 => 7
  | .e2m1 => 8 | .mxint8 => 9 | .s32 => 10 | .n32 => 11 | .s16 => 12 | .s8 => 13 | .rcd => 14 | .vcb => 15

/-- Element width in bits (R37); a VCB and a REC lane hold 32 bits. -/
def fmtWidth : Fmt → Nat
  | .none => 0 | .fp32 | .s32 | .n32 | .rcd | .vcb => 32 | .bf16 | .fp16 | .s16 => 16
  | .e4m3 | .e5m2 | .mxint8 | .s8 => 8 | .e3m2 | .e2m3 => 6 | .e2m1 => 4

/-- A lane as an element of a format: the bits above a narrow element are zero (R28). -/
def narrow (f : Fmt) (v : Nat) : Nat := v % 2 ^ (if f = .none then 32 else fmtWidth f)

/-- Class F of R158. -/
def isF : Fmt → Bool | .fp32 | .bf16 | .fp16 => true | _ => false
/-- Class I of R158. -/
def isI : Fmt → Bool | .s32 | .n32 | .s16 | .s8 => true | _ => false
/-- Class MX of R158. -/
def isMX : Fmt → Bool | .e4m3 | .e5m2 | .e3m2 | .e2m3 | .e2m1 | .mxint8 => true | _ => false
/-- The S tags of R160, read as two's complement. -/
def isSigned : Fmt → Bool | .s32 | .s16 | .s8 => true | _ => false

/-- How a float format spends its highest exponent (R38): infinity and NaNs, one NaN only, or numbers only. -/
inductive Top where | ieee | oneNan | numbers
  deriving DecidableEq, Repr

/-- A float layout (R38). -/
structure FSpec where
  eb   : Nat
  mb   : Nat
  bias : Nat
  top  : Top
  deriving DecidableEq, Repr

/-- The layouts of R38. -/
def fspec : Fmt → Option FSpec
  | .fp32 => some ⟨8, 23, 127, .ieee⟩ | .bf16 => some ⟨8, 7, 127, .ieee⟩ | .fp16 => some ⟨5, 10, 15, .ieee⟩
  | .e4m3 => some ⟨4, 3, 7, .oneNan⟩ | .e5m2 => some ⟨5, 2, 15, .ieee⟩ | .e3m2 => some ⟨3, 2, 3, .numbers⟩
  | .e2m3 => some ⟨2, 3, 1, .numbers⟩ | .e2m1 => some ⟨2, 1, 1, .numbers⟩ | _ => none

/-- An element's value: NaN, an infinity, or ±m·2^e (m = 0 is a signed zero). -/
inductive Val where
  | nan | inf (neg : Bool) | fin (neg : Bool) (m : Nat) (e : Int)
  deriving DecidableEq, Repr

/-- Exponent of the least place of a format: that of its subnormals (R38). -/
def qmin (f : FSpec) : Int := 1 - (f.bias : Int) - f.mb

/-- Bits of the largest finite magnitude (R38). -/
def maxBits (f : FSpec) : Nat :=
  match f.top with
  | .ieee => (2 ^ f.eb - 1) * 2 ^ f.mb - 1
  | .oneNan => 2 ^ (f.eb + f.mb) - 2
  | .numbers => 2 ^ (f.eb + f.mb) - 1

/-- Canonical NaN (R38); a format with no NaN is never asked for one (R14). -/
def canonNaN : Fmt → Nat
  | .fp32 => 0x7FC00000 | .bf16 => 0x7FC0 | .fp16 => 0x7E00 | .e4m3 => 0x7F | .e5m2 => 0x7E | _ => 0

def infBits (f : FSpec) : Nat := (2 ^ f.eb - 1) * 2 ^ f.mb
def withSign (f : FSpec) (neg : Bool) (b : Nat) : Nat := if neg then b + 2 ^ (f.eb + f.mb) else b

/-- The value of a float element (R38, R39: every NaN reads as quiet). -/
def decodeF (f : FSpec) (w : Nat) : Val :=
  let neg := bit w (f.eb + f.mb)
  let e := bits w (f.eb + f.mb - 1) f.mb
  let m := w % 2 ^ f.mb
  let top : Bool := e == 2 ^ f.eb - 1
  match f.top, top with
  | .ieee, true => if m = 0 then .inf neg else .nan
  | .oneNan, true => if m = 2 ^ f.mb - 1 then .nan else .fin neg (m + 2 ^ f.mb) (e - f.bias - f.mb)
  | _, _ => if e = 0 then .fin neg m (qmin f) else .fin neg (m + 2 ^ f.mb) (e - f.bias - f.mb)

/-- An exact positive real x: exp is ⌊log2 x⌋; floorAt k is ⌊x·2^k⌋ and whether that is exact. -/
structure Mag where
  exp     : Int
  floorAt : Int → Nat × Bool

/-- m·2^e, m > 0. -/
def Mag.dyadic (m : Nat) (e : Int) : Mag where
  exp := (Nat.log2 m : Int) + e
  floorAt k := if 0 ≤ e + k then (m * 2 ^ (e + k).toNat, true)
    else (m / 2 ^ (-(e + k)).toNat, m % 2 ^ (-(e + k)).toNat == 0)

/-- (a/b)·2^e, a, b > 0. -/
def Mag.ratio (a b : Nat) (e : Int) : Mag where
  exp := let l : Int := (Nat.log2 a : Int) - Nat.log2 b
    (if a * 2 ^ (-l).toNat ≥ b * 2 ^ l.toNat then l else l - 1) + e
  floorAt k := if 0 ≤ e + k then (a * 2 ^ (e + k).toNat / b, a * 2 ^ (e + k).toNat % b == 0)
    else (a / (b * 2 ^ (-(e + k)).toNat), a % (b * 2 ^ (-(e + k)).toNat) == 0)

/-- ⌊√n⌋, one bit at a time from bit i down. -/
def isqrtFrom (n : Nat) : Nat → Nat → Nat
  | 0, r => if (r + 1) * (r + 1) ≤ n then r + 1 else r
  | i + 1, r => isqrtFrom n i (if (r + 2 ^ (i + 1)) * (r + 2 ^ (i + 1)) ≤ n then r + 2 ^ (i + 1) else r)

def isqrt (n : Nat) : Nat := isqrtFrom n (Nat.log2 n / 2 + 1) 0

/-- √(m·2^e), m > 0. -/
def Mag.sqrt (m : Nat) (e : Int) : Mag where
  exp := ((Nat.log2 m : Int) + e) / 2
  floorAt k := if 0 ≤ e + 2 * k then
      let n := m * 2 ^ (e + 2 * k).toNat; let r := isqrt n; (r, r * r == n)
    else let d := 2 ^ (-(e + 2 * k)).toNat; let r := isqrt (m / d); (r, r * r * d == m)

def rsqrtFloor (m : Nat) (e k : Int) : Nat × Bool :=
  if 0 ≤ 2 * k - e then let n := 2 ^ (2 * k - e).toNat; let r := isqrt (n / m); (r, r * r * m == n) else (0, false)

/-- 1/√(m·2^e), m > 0. -/
def Mag.rsqrt (m : Nat) (e : Int) : Mag where
  exp := (Nat.log2 (rsqrtFloor m e 300).1 : Int) - 300
  floorAt := rsqrtFloor m e

/-- The places of the fixed-point numbers that the special functions are computed in. -/
def fixP : Nat := 1024

/-- An irrational number known as v·2^(−1024) with all error far below any place that rounding reads (log 12). -/
def Mag.ofFixed (v : Nat) : Mag where
  exp := (Nat.log2 v : Int) - fixP
  floorAt k := if (fixP : Int) ≤ k then (v * 2 ^ (k - fixP).toNat, false) else (v / 2 ^ ((fixP : Int) - k).toNat, false)

/-- An exact result before rounding: exc marks a poison trigger of R47 other than overflow. -/
inductive Ex where
  | nan (exc : Bool) | inf (neg exc : Bool) | zero (neg : Bool) | num (neg : Bool) (x : Mag)

def Ex.ofVal : Val → Ex
  | .nan => .nan false | .inf n => .inf n false
  | .fin n m e => if m = 0 then .zero n else .num n (.dyadic m e)

/-- Rounding up of a magnitude whose lower places are frac/2^24 and more when not exact (R41, R45). -/
def roundsUp (rm draw : Nat) (neg : Bool) (n frac : Nat) (exact : Bool) : Bool :=
  match rm with
  | 1 => false
  | 2 => neg && (frac != 0 || !exact)
  | 3 => !neg && (frac != 0 || !exact)
  | 4 => 2 ^ 23 ≤ frac
  | 5 => 2 ^ 24 ≤ frac + draw / 256
  | _ => 2 ^ 23 < frac || (frac == 2 ^ 23 && (!exact || n % 2 == 1))

/-- x rounded to a multiple of 2^q, in units of 2^q. -/
def roundAt (rm draw : Nat) (neg : Bool) (x : Mag) (q : Int) : Nat :=
  let (f24, exact) := x.floorAt (24 - q)
  if roundsUp rm draw neg (f24 / 2 ^ 24) (f24 % 2 ^ 24) exact then f24 / 2 ^ 24 + 1 else f24 / 2 ^ 24

/-- RoundTo and RoundSat (R14, R42, R43) into a float layout: the bits, and whether a poison trigger arose.
`sat` is the s bit; `mx` says that the format saturates always (R42). -/
def roundEx (fmt : Fmt) (rm draw : Nat) (sat mx : Bool) (x : Ex) : Nat × Bool :=
  match fspec fmt with
  | none => (0, false)
  | some f =>
    match x with
    | .nan exc => (canonNaN fmt, exc)
    | .inf neg exc => (withSign f neg (infBits f), exc)
    | .zero neg => (withSign f neg 0, false)
    | .num neg x =>
      let q := max (x.exp - f.mb) (qmin f)
      let b := (q - qmin f).toNat * 2 ^ f.mb + roundAt rm draw neg x q
      if b ≤ maxBits f then (withSign f neg b, false)
      else
        let clamps := sat || mx || f.top != .ieee || rm == 1 || (rm == 2 && !neg) || (rm == 3 && neg)
        if clamps then (withSign f neg (maxBits f), false) else (withSign f neg (infBits f), true)

/-- An integer nearest to an exact value in mode rm. -/
def roundInt (rm draw : Nat) (neg : Bool) (x : Mag) : Int :=
  let n := roundAt rm draw neg x 0
  if neg then -(n : Int) else n

/-! Integers (R160). -/

/-- The value of a w-bit integer element under its tag. -/
def intVal (fmt : Fmt) (w : Nat) : Int := if isSigned fmt then signExt (fmtWidth fmt) w else (w % 2 ^ fmtWidth fmt : Nat)
def intMin (fmt : Fmt) : Int := if isSigned fmt then -(2 ^ (fmtWidth fmt - 1) : Nat) else 0
def intMax (fmt : Fmt) : Int := if isSigned fmt then (2 ^ (fmtWidth fmt - 1) : Nat) - 1 else (2 ^ fmtWidth fmt : Nat) - 1
/-- Exact result wrapped to the tag's width. -/
def wrap (fmt : Fmt) (v : Int) : Nat := cut (fmtWidth fmt) v
def clampInt (fmt : Fmt) (v : Int) : Int := max (intMin fmt) (min (intMax fmt) v)
def inRange (fmt : Fmt) (v : Int) : Bool := decide (intMin fmt ≤ v) && decide (v ≤ intMax fmt)

def valOfInt (v : Int) : Val := .fin (decide (v < 0)) v.natAbs 0

/-- Exact value of an element under its tag and block scale; none where the scale is the NaN scale 0xFF (R48). -/
def elemVal (fmt : Fmt) (xs w : Nat) : Option Val :=
  let scale (v : Val) : Option Val :=
    if !isMX fmt then some v else if xs = 255 then none
    else match v with
      | .fin n m e => some (.fin n m (e + xs - 127))
      | v => some v
  match fspec fmt with
  | some f => scale (decodeF f w)
  | none =>
    if fmt = .mxint8 then
      let v := signExt 8 w
      scale (.fin (decide (v < 0)) v.natAbs (-6))
    else some (valOfInt (intVal fmt w))

/-! Float arithmetic (R39, R162). -/

def negVal : Val → Val | .nan => .nan | .inf n => .inf !n | .fin n m e => .fin (!n) m e
def signOf : Val → Bool | .nan => false | .inf n => n | .fin n _ _ => n
def isNan : Val → Bool | .nan => true | _ => false
def isZero : Val → Bool | .fin _ 0 _ => true | _ => false

/-- Exact sum of two signed dyadics; an exact zero sum takes the sign rule of R39. -/
def addFin (rm : Nat) (n1 : Bool) (m1 : Nat) (e1 : Int) (n2 : Bool) (m2 : Nat) (e2 : Int) : Ex :=
  let e := min e1 e2
  let a : Int := (m1 * 2 ^ (e1 - e).toNat : Nat)
  let b : Int := (m2 * 2 ^ (e2 - e).toNat : Nat)
  let s := (if n1 then -a else a) + (if n2 then -b else b)
  if s = 0 then .zero (if n1 == n2 then n1 else rm == 2) else .num (decide (s < 0)) (.dyadic s.natAbs e)

/-- a·b as an exact value: NaN, infinity or a dyadic; the flag marks 0·∞. -/
def mulVal : Val → Val → Val × Bool
  | .nan, _ => (.nan, false)
  | _, .nan => (.nan, false)
  | .inf n, b => if isZero b then (.nan, true) else (.inf (n != signOf b), false)
  | a, .inf n => if isZero a then (.nan, true) else (.inf (signOf a != n), false)
  | .fin n m e, .fin n' m' e' => (.fin (n != n') (m * m') (e + e'), false)

/-- a + b exactly, for mode rm's zero sign; ∞ − ∞ is invalid (R47). -/
def addEx (rm : Nat) : Val → Val → Ex
  | .nan, _ => .nan false
  | _, .nan => .nan false
  | .inf n, .inf n' => if n = n' then .inf n false else .nan true
  | .inf n, _ => .inf n false
  | _, .inf n => .inf n false
  | .fin n m e, .fin n' m' e' => addFin rm n m e n' m' e'

def mulEx (a b : Val) : Ex :=
  match mulVal a b with
  | (.nan, inv) => .nan inv
  | (v, _) => Ex.ofVal v

/-- ±(a·b) + c exactly, the one rounding left to the caller (R56). -/
def fmaEx (rm : Nat) (negProd : Bool) (a b c : Val) : Ex :=
  match mulVal a b with
  | (.nan, inv) => .nan (inv && !isNan c)
  | (v, _) => addEx rm (if negProd then negVal v else v) c

/-- a / b exactly (R162). -/
def divEx : Val → Val → Ex
  | .nan, _ => .nan false
  | _, .nan => .nan false
  | .inf _, .inf _ => .nan true
  | .inf n, b => .inf (n != signOf b) false
  | .fin n _ _, .inf n' => .zero (n != n')
  | .fin n m e, .fin n' m' e' =>
    if m' = 0 then (if m = 0 then .nan true else .inf (n != n') true)
    else if m = 0 then .zero (n != n') else .num (n != n') (.ratio m m' (e - e'))

/-- a < b for values that are no NaN; −0 is below +0 when `zeros` is set (R39). -/
def ltVal (zeros : Bool) (a b : Val) : Bool :=
  match a, b with
  | .nan, _ => false
  | _, .nan => false
  | .inf n, .inf n' => n && !n'
  | .inf n, _ => n
  | _, .inf n => !n
  | .fin n m e, .fin n' m' e' =>
    if m = 0 ∧ m' = 0 then zeros && n && !n'
    else match addFin 0 n m e (!n') m' e' with
      | .num neg _ => neg
      | _ => false

/-! Special functions (R166), in 1024-place fixed point. -/

/-- Σ over k < fuel of x^(−(2k+1))/(2k+1) in fixed point: atanh(1/x) when `alt` is clear, atan(1/x) when set. -/
def atanSum (alt : Bool) (x2 : Nat) : Nat → Nat → Nat → Int
  | 0, _, _ => 0
  | f + 1, k, t => (if alt && k % 2 == 1 then -((t / (2 * k + 1) : Nat) : Int) else (t / (2 * k + 1) : Nat)) + atanSum alt x2 f (k + 1) (t / x2)

/-- ln 2 = 2·atanh(1/3). -/
def ln2Fix : Nat := (2 * atanSum false 9 340 0 (2 ^ fixP / 3)).toNat

/-- π = 16·atan(1/5) − 4·atan(1/239). -/
def piFix : Nat := (16 * atanSum true 25 230 0 (2 ^ fixP / 5) - 4 * atanSum true 57121 70 0 (2 ^ fixP / 239)).toNat

/-- Σ over terms t·y^j/((k+1)…) of the exponential series. -/
def expSum (y : Nat) : Nat → Nat → Nat → Nat
  | 0, _, _ => 0
  | f + 1, k, t => t + expSum y f (k + 1) (t * y / 2 ^ fixP / (k + 1))

/-- 2^f for 0 ≤ f < 1 in fixed point. -/
def exp2Frac (f : Nat) : Nat := expSum (f * ln2Fix / 2 ^ fixP) 180 0 (2 ^ fixP)

def sinSum (y2 : Nat) : Nat → Nat → Nat → Int
  | 0, _, _ => 0
  | f + 1, k, t => (t : Int) - sinSum y2 f (k + 1) (t * y2 / 2 ^ fixP / ((2 * k + 2) * (2 * k + 3)))

/-- sin(π·r) for 0 ≤ r ≤ 1/2 in fixed point. -/
def sinPiFix (r : Nat) : Nat :=
  let z := piFix * r / 2 ^ fixP
  (sinSum (z * z / 2 ^ fixP) 90 0 z).toNat

def exp2Int (n : Int) : Mag := .dyadic 1 (max (-2000) (min 2000 n))

/-- 2^x for x = ±m·2^e (R166); outside ±2000 every format over- or underflows alike. -/
def exp2Fin (neg : Bool) (m : Nat) (e : Int) : Ex :=
  if m = 0 then .num false (.dyadic 1 0)
  else if 0 ≤ e then .num false (exp2Int (if neg then -(m * 2 ^ min e.toNat 12 : Nat) else (m * 2 ^ min e.toNat 12 : Nat)))
  else
    let s := (-e).toNat
    let x : Int := if neg then -(m : Int) else m
    let n := x / (2 ^ s : Nat)
    let r := (x % (2 ^ s : Nat)).toNat
    if r = 0 then .num false (exp2Int n)
    else if n < -2000 then .num false (.dyadic 1 (-2000))
    else if 2000 < n then .num false (.dyadic 1 2000)
    else
      let y := Mag.ofFixed (exp2Frac (r * 2 ^ fixP / 2 ^ s))
      .num false ⟨y.exp + n, fun k => y.floorAt (k + n)⟩

def ofFixedInt (v : Int) : Ex := .num (decide (v < 0)) (.ofFixed v.natAbs)

/-- log2 x for x = m·2^e > 0. -/
def log2Fin (m : Nat) (e : Int) : Ex :=
  let l := Nat.log2 m
  if m = 2 ^ l then Ex.ofVal (valOfInt (l + e))
  else
    let u := (m - 2 ^ l) * 2 ^ fixP / (m + 2 ^ l)
    let rec go : Nat → Nat → Nat → Nat
      | 0, _, _ => 0
      | f + 1, k, t => t / (2 * k + 1) + go f (k + 1) (t * u / 2 ^ fixP * u / 2 ^ fixP)
    let ln := 2 * go 340 0 u
    ofFixedInt ((l + e) * (2 ^ fixP : Nat) + (ln * 2 ^ fixP / ln2Fix : Nat))

/-- tanh of m·2^e > 0: always below 1, from 512 on by less than the guard. -/
def tanhFin (m : Nat) (e : Int) : Mag :=
  if 9 ≤ (Nat.log2 m : Int) + e then .ofFixed (2 ^ fixP - 1)
  else
    let x := ((Mag.dyadic m e).floorAt fixP).1
    let t := 2 * x * 2 ^ fixP / ln2Fix
    let ex := 2 ^ (2 * fixP) / exp2Frac (t % 2 ^ fixP) / 2 ^ (t / 2 ^ fixP)
    .ofFixed (min ((2 ^ fixP - ex) * 2 ^ fixP / (2 ^ fixP + ex)) (2 ^ fixP - 1))

/-- sin(π·r/2^s) for r mod 2^(s+1): exact at multiples of 1/2. -/
def sinPiFrac (neg : Bool) (zeroNeg : Bool) (r s : Nat) : Ex :=
  let r := r % 2 ^ (s + 1)
  let neg := if 2 ^ s ≤ r then !neg else neg
  let r := r % 2 ^ s
  if r = 0 then .zero zeroNeg
  else
    let r := if 2 ^ s < 2 * r then 2 ^ s - r else r
    if 2 * r = 2 ^ s then .num neg (.dyadic 1 0) else .num neg (.ofFixed (sinPiFix (r * 2 ^ fixP / 2 ^ s)))

/-- The special functions of R166, numbered as their opcodes from 0x20: RCP RSQ SQRT EXP2 LOG2 TANH SINP COSP. -/
def specialEx (k : Nat) (v : Val) : Ex :=
  match k, v with
  | _, .nan => .nan false
  | 0, .inf n => .zero n
  | 0, .fin n m e => if m = 0 then .inf n true else .num n (.ratio 1 m (-e))
  | 1, .inf n => if n then .nan true else .zero false
  | 1, .fin n m e => if m = 0 then .inf n true else if n then .nan true else .num false (.rsqrt m e)
  | 2, .inf n => if n then .nan true else .inf false false
  | 2, .fin n m e => if m = 0 then .zero n else if n then .nan true else .num false (.sqrt m e)
  | 3, .inf n => if n then .zero false else .inf false false
  | 3, .fin n m e => exp2Fin n m e
  | 4, .inf n => if n then .nan true else .inf false false
  | 4, .fin n m e => if m = 0 then .inf true true else if n then .nan true else log2Fin m e
  | 5, .inf n => .num n (.dyadic 1 0)
  | 5, .fin n m e => if m = 0 then .zero n else .num n (tanhFin m e)
  | 6, .inf _ => .nan true
  | 6, .fin n m e => if m = 0 || decide (0 ≤ e) then .zero n else sinPiFrac n n m (-e).toNat
  | _, .inf _ => .nan true
  | _, .fin _ m e =>
    if 0 ≤ e then .num (decide (0 = e) && m % 2 == 1) (.dyadic 1 0)
    else sinPiFrac false false (m + 2 ^ ((-e).toNat - 1)) (-e).toNat

/-! Conversions (R52). -/

/-- A value into an integer format (R52, last column of the float row). -/
def toInt (fmt : Fmt) (rm draw : Nat) (sat : Bool) (lo hi : Int) : Val → Nat × Bool
  | .nan => (0, true)
  | .inf n => (cut (fmtWidth fmt) (if n then lo else hi), !sat)
  | .fin n m e =>
    let v := if m = 0 then 0 else roundInt rm draw n (.dyadic m e)
    (cut (fmtWidth fmt) (max lo (min hi v)), (decide (v < lo) || decide (hi < v)) && !sat)

/-- The float row of R52: an exact value into the target format, an MX target under block scale txs. -/
def convVal (tf : Fmt) (txs rm draw : Nat) (sat : Bool) (v : Val) : Nat × Bool :=
  let scaled : Val := match v with | .fin n m e => .fin n m (e + 127 - txs) | v => v
  if isF tf then roundEx tf rm draw sat false (Ex.ofVal v)
  else if tf = .mxint8 then
    toInt .mxint8 rm draw sat (-128) 127 (match scaled with | .fin n m e => .fin n m (e + 6) | v => v)
  else if isMX tf then
    match fspec tf, scaled with
    | some f, .inf n => if tf = .e5m2 then (withSign f n (infBits f), false) else (withSign f n (maxBits f), true)
    | _, .nan => if tf = .e4m3 ∨ tf = .e5m2 then (canonNaN tf, false) else (0, true)
    | _, w => roundEx tf rm draw true true (Ex.ofVal w)
  else toInt tf rm draw sat (intMin tf) (intMax tf) v

/-- One element through the conversion table of R52: source tag, scale and bits; target tag and scale. -/
def convert (sf : Fmt) (sxs w : Nat) (tf : Fmt) (txs rm draw : Nat) (sat : Bool) : Nat × Bool :=
  match elemVal sf sxs w with
  | none => if isF tf ∨ tf = .e4m3 ∨ tf = .e5m2 then (canonNaN tf, true) else (0, true)
  | some v =>
    if isI sf && isI tf then
      let x := intVal sf w
      if sat then (wrap tf (clampInt tf x), false) else (wrap tf x, !inRange tf x)
    else convVal tf txs rm draw sat v

/-- emax of R50. -/
def emaxOf : Fmt → Int | .e4m3 => 8 | .e5m2 => 15 | .e3m2 => 4 | .mxint8 => 0 | _ => 2

/-- Block scale of R50 from the exact values of a block's valid elements: none when one is NaN or infinite. -/
def blockScale (tf : Fmt) (vs : List (Option Val)) : Option Nat :=
  let rec amax : List (Option Val) → Option Int → Option (Option Int)
    | [], a => some a
    | some (.fin _ m e) :: r, a =>
      if m = 0 then amax r a else
        let l : Int := (Nat.log2 m : Int) + e
        amax r (some (match a with | none => l | some b => max b l))
    | _ :: _, _ => none
  match amax vs none with
  | none => none
  | some none => some 0
  | some (some l) => some (max (-127) (min 127 (l - emaxOf tf)) + 127).toNat

/-! The stochastic generator (R44). -/

def nextSR (x : W32) : W32 :=
  let x := x ^^^ (x <<< 13)
  let x := x ^^^ (x >>> 17)
  x ^^^ (x <<< 5)

/-- n steps: the states returned, and the state left. -/
def draws : Nat → W32 → List W32 × W32
  | 0, x => ([], x)
  | n + 1, x => let y := nextSR x; let r := draws n y; (y :: r.1, r.2)

end Sys2Proof.Machine
end

