-- ==== Sys2Proof/Machine/Encoding.lean ====
section
/-! DEFINITION. What the fields of a cell instruction stand for, and which encodings the validator refuses whatever cell they stand in (R136 to
R144, R161, R199, R225): the causes 0x0D8 and 0x0DB. -/

namespace Sys2Proof.Machine

/-- Compact instructions as the 32-bit instruction of the same name with rm = RNE and s = 0 (R137, R176); others as they are. -/
def expand : Instr → Instr
  | .cAdd d a b => .add (8 + d) a b 0 0 0
  | .cSub d a b => .sub (8 + d) a b 0 0 0
  | .cMul d a b => .mul (8 + d) a b 0 0 0
  | .cFma d a b => .fma (8 + d) a b 0 0
  | .cMin d a b => .min (8 + d) a b
  | .cMax d a b => .max (8 + d) a b
  | .cAnd d a b => .andOp (8 + d) a b
  | .cOr d a b => .orOp (8 + d) a b
  | .cXor d a b => .xor (8 + d) a b
  | .cMov d a => .mov (8 + d) a
  | .cNeg d a => .negOp (8 + d) a
  | .cAbs d a => .abs (8 + d) a
  | .cExp2 d a => .exp2 (8 + d) a 0 0
  | .cRcp d a => .rcp (8 + d) a 0 0
  | .cRsq d a => .rsq (8 + d) a 0 0
  | .cRedl d a => .redl (8 + d) a 0 0 0
  | .cSel d a b => .sel (8 + d) a b
  | .cBcast d a n => .bcast (8 + d) a n
  | .cShl d a b => .shl (8 + d) a b
  | .cShr d a b => .shr (8 + d) a b
  | .cEmit e s c => .emit e s c 0 0
  | .cSetv d a b => .setv (8 + d) a b
  | .cEnd => .endOp
  | .cDrop => .dropOp
  | i => i

/-- The cell opcode [29:23] of an instruction (R142). -/
def cellOp (i : Instr) : Nat := bits (encodeWord (expand i)).2 29 23

/-- How an instruction uses its fields: operand codes read, codes written, edges named (one token each, R178), rounding modes, whether a field marked
0 or reserved is set (`resv`, 0x0D8), and whether its literals lie in their ranges (`ok`, else 0x0DB). -/
structure Use where
  srcs  : List Nat := []
  dsts  : List Nat := []
  edges : List Nat := []
  rms   : List Nat := []
  resv  : Bool := false
  ok    : Bool := true

/-- An F3 row of two sources. -/
def use3 (d a b : Nat) : Use := { srcs := [a, b], dsts := [d] }
/-- A row of one source. -/
def use2 (d a : Nat) : Use := { srcs := [a], dsts := [d] }
/-- A special function of R166. -/
def useR (d a r : Nat) : Use := { srcs := [a], dsts := [d], rms := [r] }

/-- tagop of the emitting instructions (R139): `six` says that 6 is allowed. -/
def tagopOk (six : Bool) (t : Nat) : Bool := decide (t ≤ 3) || (six && t == 6)

def isOM (c : Nat) : Bool := decide (8 ≤ c) && decide (c ≤ 31)

/-- A load format: a tag, and not 32 bits wide when packed (R190). -/
def loadFmtOk (f p : Nat) : Bool := f != 0 && !(p == 1 && fmtWidth (fmtOf f) == 32)

/-- The use of the fields of a 32-bit cell instruction (R138 to R141, R162 to R198, R217 to R225). -/
def useWide : Instr → Use
  | .add d a b r _ _ => { use3 d a b with rms := [r] }
  | .sub d a b r _ _ => { use3 d a b with rms := [r] }
  | .mul d a b r _ _ => { use3 d a b with rms := [r] }
  | .fma d a b r _ => { srcs := [a, b, d], dsts := [d], rms := [r] }
  | .fms d a b r _ => { srcs := [a, b, d], dsts := [d], rms := [r] }
  | .fnma d a b r _ => { srcs := [a, b, d], dsts := [d], rms := [r] }
  | .min d a b => use3 d a b
  | .max d a b => use3 d a b
  | .abs d a => use2 d a
  | .negOp d a => use2 d a
  | .div d a b r _ => { use3 d a b with rms := [r] }
  | .adds d a b => use3 d a b
  | .subs d a b => use3 d a b
  | .mulh d a b => use3 d a b
  | .addi d a _ => use2 d a
  | .muli d a _ => use2 d a
  | .andOp d a b => use3 d a b
  | .orOp d a b => use3 d a b
  | .xor d a b => use3 d a b
  | .notOp d a => use2 d a
  | .shl d a b => use3 d a b
  | .shr d a b => use3 d a b
  | .sha d a b => use3 d a b
  | .rot d a b => use3 d a b
  | .clz d a => use2 d a
  | .popc d a => use2 d a
  | .andi d a _ => use2 d a
  | .ori d a _ => use2 d a
  | .shli d a i => { use2 d a with ok := decide (i ≤ 31) }
  | .shri d a i => { use2 d a with ok := decide (i ≤ 31) }
  | .shai d a i => { use2 d a with ok := decide (i ≤ 31) }
  | .bfx d a _ w l => { use2 d a with ok := decide (l + w + 1 ≤ 32) }
  | .rcp d a r _ => useR d a r
  | .rsq d a r _ => useR d a r
  | .sqrt d a r _ => useR d a r
  | .exp2 d a r _ => useR d a r
  | .log2 d a r _ => useR d a r
  | .tanh d a r _ => useR d a r
  | .sinp d a r _ => useR d a r
  | .cosp d a r _ => useR d a r
  | .cmp d a b c => { use3 d a b with rms := [c] }
  | .setv d a b => use3 d a b
  | .sel d a b => { srcs := [a, b, 0], dsts := [d] }
  | .cntv d a => use2 d a
  | .firstv d a => use2 d a
  | .classOp d a => use2 d a
  | .cpsgn d a b => use3 d a b
  | .rndi d a r => useR d a r
  | .cvt d a f r _ => { useR d a r with ok := f != 0 && f != 14 && f != 15 }
  | .qnt d a f r => { useR d a r with ok := isMX (fmtOf f) }
  | .dqn d a f r _ => { useR d a r with ok := isF (fmtOf f) }
  | .xsc d a b r => { use3 d a b with rms := [r] }
  | .shuf d a b => use3 d a b
  | .bcast d a i => { use2 d a with ok := decide (i ≤ 15) }
  | .rotl d a i => { use2 d a with ok := decide (i ≤ 15) }
  | .redl d a b r s => { use2 d a with rms := [r], resv := s == 1 && b != 0 && decide (b ≤ 5), ok := decide (b ≤ 5) }
  | .scanl d a b r s => { use2 d a with rms := [r], resv := s == 1 && b != 0 && decide (b ≤ 5), ok := decide (b ≤ 5) }
  | .iota d _ => { dsts := [d] }
  | .mov d a => use2 d a
  | .movi d _ => { dsts := [d] }
  | .movh d _ => { srcs := [d], dsts := [d] }
  | .ldc d n => { dsts := [d], ok := decide (n ≤ 15) }
  | .tagrd d k f => { dsts := [d], srcs := if 4 ≤ f then [4 + k] else [], ok := decide (f ≤ 11) && k != 3 && (decide (4 ≤ f) || k == 0) }
  | .fmts d a f => { use2 d a with ok := f != 0 && f != 14 }
  | .emit e s _ t g => { srcs := if t = 6 then [s, g % 64] else [s], edges := [e], resv := t == 7 || (if t = 6 then decide (64 ≤ g) else g != 0), ok := tagopOk true t }
  | .emitv e s _ t p => { srcs := [s, p], edges := [e], resv := t == 7, ok := tagopOk false t }
  | .steer e s _ t _ p => { srcs := [s, p], edges := [e, e + 1], resv := t == 7, ok := tagopOk false t && decide (e ≤ 6) }
  | .merge d a b _ => use3 d a b
  | .emeos e => { edges := [e] }
  | .fwdm e => { edges := [e] }
  | .call e s _ _ _ => { srcs := [s], edges := [e] }
  | .ret s _ => { srcs := [s] }
  | .filt d a b _ => use3 d a b
  | .coal d a => { srcs := [a], edges := [d - 48], resv := decide (56 ≤ d), ok := decide (48 ≤ d) }
  | .flushc d => { edges := [d - 48], resv := decide (56 ≤ d), ok := decide (48 ≤ d) }
  | .pchk d a => use2 d a
  | .trapc a i => { srcs := [a], ok := decide (i ≤ 7) }
  | .lds d a f p => { use2 d a with ok := loadFmtOk f p }
  | .sts d a o h _ _ => { srcs := [d, a], resv := h == 0 && o != 0 }
  | .ldx d a f => { use2 d a with ok := loadFmtOk f 0 && decide (8 ≤ fmtWidth (fmtOf f)) }
  | .stx d a o h => { srcs := [d, a], resv := h == 0 && o != 0 }
  | .atom d a _ _ p _ => { srcs := [d, a], dsts := [d], resv := decide (10 ≤ p) }
  | .lde a o f h p _ => { srcs := [a], resv := h == 0 && o != 0, ok := loadFmtOk f p }
  | .ste d a o h _ => { srcs := [d, a], resv := h == 0 && o != 0 }
  | .ordt a _ => { ok := decide (a < 32) && (a % 8 == 0 || a % 8 == 7) }
  | .fencem _ r => { ok := r != 0 }
  | .cmpr d a => use2 d a
  | .expd d a o h => { srcs := [d, a], resv := h == 0 && o != 0, ok := isOM d }
  | .rput d a o h _ => { srcs := [d], resv := h == 0 && o != 0, ok := decide (a ≤ 14) }
  | .rget d a f _ => { dsts := [d], ok := f != 0 && decide (a ≤ 14) }
  | .rfree a => { ok := decide (a ≤ 14) }
  | .tbarv a o h => { srcs := [a], resv := h == 0 && o != 0 }
  | .tbtst d a => use2 d a
  | .rmk d a b => use3 d a b
  | .tjoin d a b => use3 d a b
  | .tmeet d a b => use3 d a b
  | .tle d a b => use3 d a b
  | .tadv d a b => use3 d a b
  | .hins a _ => { srcs := [a] }
  | .hseek a _ e => { srcs := [a], ok := decide (e ≤ 4) }
  | .hjoin a _ e => { srcs := [a], ok := decide (e ≤ 4) }
  | .hred d a _ v => { srcs := [a], resv := v == 0 && d != 0, ok := decide (v ≤ 3) }
  | .hcomp a _ => { srcs := [a] }
  | .fnrd d i => { dsts := [d], ok := decide (i ≤ 7) }
  | .fnput e s => { srcs := [s], edges := [e] }
  | .scope d a b => { use2 d a with ok := decide (b ≤ 2) }
  | .rhash d a i => { use2 d a with ok := decide (i ≤ 16) }
  | .rneg d a => use2 d a
  | _ => {}

def useOf (i : Instr) : Use := useWide (expand i)

/-- The static refusal of a cell instruction (R136, R144, R161): 0x0D8 for a reserved code or field, else 0x0DB for a use out of range. -/
def encodingCause (i : Instr) : Option Nat :=
  let u := useOf i
  if u.resv || (u.srcs ++ u.dsts).any (fun c => decide (56 ≤ c)) || u.rms.any (fun r => decide (6 ≤ r)) then some 0x0D8
  else if !u.ok || u.srcs.any (fun c => decide (48 ≤ c)) || u.dsts.any (fun c => !isOM c) then some 0x0DB
  else none

/-- The cause for a 32-bit cell word that decodes to no instruction (R139, R142, R144, R161, R175, R189, R224, R226).
DEDUCED (log 105): an FNPUT with tagop 7 is refused as R139 and R144 say of tagop 7, every other bad FNPUT field as R224 says of FNPUT. -/
def badWordCause (w : Nat) : Nat :=
  let op := bits w 29 23
  let t := bits w 9 7
  if op ∈ [0x46, 0x47, 0x48, 0x49] then
    (if t = 7 then 0x0D8 else if t ≠ (if op = 0x48 then 4 else if op = 0x49 then 5 else 0) then 0x0DB else 0x0D8)
  else if op = 0x6C then (if t = 7 then 0x0D8 else 0x0DB)
  else if op = 0x3E then (if bits w 16 11 = 0 then 0x0DB else 0x0D8)
  else if op ∈ [0x50, 0x52, 0x59, 0x5C, 0x5D, 0x5F] then (if bit w 3 then 0x0DB else 0x0D8)
  else if op ∈ [0x65, 0x66, 0x67, 0x68, 0x69, 0x6A] then
    (if 5 ≤ bits w 6 4 ∨ (op = 0x68 ∧ bits w 6 4 ≠ 0) then 0x0DB else 0x0D8)
  else if op = 0x31 then (if bit w 0 && bits w 10 8 == 0 then 0x0DB else 0x0D8)
  else if op = 0x33 then (if bit w 1 && !bit w 0 then 0x0DB else 0x0D8)
  else 0x0D8

/-- Operand formats of a multiplying instruction (R202, R206): MMAT takes BF16 and FP16 only. -/
def pairOk (t : Bool) (a b : Fmt) : Bool :=
  let fp8 (f : Fmt) : Bool := f == .e4m3 || f == .e5m2 || f == .e3m2 || f == .e2m3
  (!t && ((fp8 a && fp8 b) || (a == .e2m1 && b == .e2m1) || (a == .mxint8 && b == .mxint8)))
    || (a == .bf16 && b == .bf16) || (a == .fp16 && b == .fp16)

/-- The tiles of an instruction lie within 0 to 63 (R146). -/
def tilesOk (mt nt acc : Nat) : Bool := decide (acc + (mt + 1) * (nt + 1) ≤ 64)

def mmaCause (t : Bool) (mt nt kt acc a b : Nat) : Option Nat :=
  if tilesOk mt nt acc && pairOk t (fmtOf a) (fmtOf b) && (fmtOf a != .e2m1 || kt % 2 == 1) then none else some 0x0DB

/-- The static refusal of a matrix slot (R146, R202, R206). -/
def matrixCause : Instr → Option Nat
  | .mma mt nt kt acc a b _ => mmaCause false mt nt kt acc a b
  | .mmaz mt nt kt acc a b _ => mmaCause false mt nt kt acc a b
  | .mmat mt nt kt acc a b _ => mmaCause true mt nt kt acc a b
  | .mmag mt nt kt acc a b _ => mmaCause false mt nt kt acc a b
  | .accz mt nt acc _ => if tilesOk mt nt acc then none else some 0x0DB
  | .accrd mt nt acc rm _ sat q o =>
    if 6 ≤ rm then some 0x0D8
    else if tilesOk mt nt acc && o != 0 && o != 14 && o != 15 && (q == 0 || (sat == 0 && isMX (fmtOf o) && nt % 2 == 1)) then none else some 0x0DB
  | .accwr mt nt acc a _ => if tilesOk mt nt acc && a == 1 then none else some 0x0DB
  | .accax mt nt acc a b rm _ => if 6 ≤ rm then some 0x0D8 else if tilesOk mt nt acc && a == 1 && b == 1 then none else some 0x0DB
  | _ => none

end Sys2Proof.Machine
end

