-- ==== Sys2Proof/Config.lean ====
section
/-! DEFINITION. What the spec leaves to the device or to the outside: constants with no body, which no proof can see into. -/

namespace Sys2Proof

/-- Where an event happens, and what it brings from outside: core, cell (or local id), context, port (or edge), two further numbers, a flag,
and the messages of R102, R373, R371, R366, tokens of R276 by rank, and plain bytes. -/
structure Place where
  core  : Nat := 0
  cell  : Nat := 0
  ctx   : Nat := 0
  port  : Nat := 0
  x     : Nat := 0
  y     : Nat := 0
  flag  : Bool := false
  reqs  : List RemoteReq := []
  msg   : HostMsg := default
  pkt   : UePacket := default
  flit  : Flit := default
  lanes : List (Nat × List Reg) := []
  bytes : List Byte := []
  deriving DecidableEq, Repr, Inhabited

/-- Which agent moves next: a cell issues the next instruction of its running task, an RC its next instruction, a matrix engine
works on its running slot, an event happens at a place, or one core cycle passes. -/
inductive Turn where
  | cell (core cell : Nat)
  | rc (core : Nat)
  | matrix (core : Nat)
  | event (i : Instr) (p : Place)
  | pass
  deriving DecidableEq, Repr, Inhabited

namespace Config

/-- The order in which the agents of the part move: free (R36, R96, R101; log 2). -/
opaque schedule : Nat → Turn
/-- Free values, by a counter of State (log 3). -/
opaque freeNat : Nat → Nat
/-- Free bytes: entropy, key pairs and signatures drawn by the security processor (R360, R363; log 11). -/
opaque freeBytes : Nat → List Byte
/-- Tokens beyond the largest emit count that a port holds to which LDE replies come, by port (R61, R194; log 34). -/
opaque replyDepth : Nat → Nat
/-- Where in its area a history's entries stand, by core and history, and by how much room is left (R128; log 86). -/
opaque areaPlace : Nat → Nat → Nat
/-- Bits of the constant k.one in a format that gives no number one a meaning, REC and VCB, by format code (R8; log 17). -/
opaque oneOf : Nat → BitVec 32
/-- Whether routes follow the stream network's acyclic channel order, for the words of all enabled routes (R70 rule 1; log 13). -/
opaque channelOrder : List Nat → Bool
/-- Plaintext that AES-256-GCM opens from (key, nonce, AAD, ciphertext, tag), none where the tag fails (R359; log 11). -/
opaque gcmOpen : List Byte → List Byte → List Byte → List Byte → List Byte → Option (List Byte)
/-- Both signatures of a manifest or an image verify under the fused or certified keys (R362, R380; log 11). -/
opaque signatureOk : List Byte → List Byte → Bool
/-- The signatures made with the identity keys: Ed25519, then ML-DSA-65 (R363, R378; log 11). -/
opaque sign : List Byte → List Byte
/-- Session key agreed from a session's secret seed, the report's digest and the verifier's bytes (R363; log 11). -/
opaque sessionKey : Nat → List Byte → List Byte → List Byte
/-- Public keys of a session, of the device's identity (R362, R363; log 11). -/
opaque sessionKeys : Nat → List Byte
/-- Identity digest and firmware measurement (R362, R363; log 11). -/
opaque identityDigest : List Byte
opaque firmwareMeasurement : List Byte
/-- Bytes of a region's saved image, by image and place: its layout is not given (R324; log 22). -/
opaque imageByte : Nat → Nat → BitVec 8
/-- Virtual stream on which an edge to a collective port carries its tokens (R273; log 16). -/
opaque streamOf : Nat → Nat
/-- Byte i of the keystream of a seal, of a load's key under a tile index and version (R351; log 9). -/
opaque keystream : Nat → Nat → Nat → Nat → BitVec 8
/-- The tag of a seal (R351): of a load's key, tile index, version, tenant, generation (log 9). -/
opaque sealTag : Nat → Nat → Nat → Nat → Nat → List Byte
/-- Router entry that COMM writes for a virtual stream of an algorithm, its ports as places in the list of those that the communicator uses (R273, R385;
log 16). -/
opaque routerEntry : Nat → Nat → Nat

end Config
end Sys2Proof
end

