-- ==== Sys2Proof/Machine/State.lean ====
section
/-! DEFINITION. The state of one BX7 package, as plain data, the reasons a step can stop, and the state after reset. -/

namespace Sys2Proof.Machine

/-- A finite map with a default elsewhere: (key, value) pairs with rising keys. -/
abbrev Assoc (α : Type) := List (Nat × α)

/-- Memory: one canonical list of (address, byte), addresses strictly rising, no byte 0 listed (R316, R352: unwritten bytes read as 0).
Addresses number the stores of the part one after another; Ops.lean gives each store its base. -/
abbrev Memory := List Host.Cell

/-! ## Cells -/

/-- A publication that a host token carries (R116): buffer, version, tile map. -/
structure HostPub where
  handle  : Nat
  version : Nat
  map     : Assoc Nat
  deriving DecidableEq, Repr, Inhabited

/-- A token at an input port: with its position in its burst (R136), the clearance set a notify token carries (R103), when it arrived, the edge that
it came on (for its credit, R35), and the buffers a host ingress token advances (R116). -/
structure PortTok where
  tok  : Token
  pos  : Nat := 0
  acq  : Clr := []
  arr  : Nat := 0
  srcE : Nat := 0
  host : List HostPub := []
  deriving DecidableEq, Repr, Inhabited

/-- An input port (R21, R49, R66): its FIFO, the running burst's length so far and scale, EOS tokens counted, its EOS complete,
when the last of them arrived, and the credits that tasks hold for replies of LDE (R61, R194). -/
structure Port where
  fifo  : List PortTok := []
  got   : Nat := 0
  xs    : Nat := 0
  eosN  : Nat := 0
  eos   : Bool := false
  eosArr : Nat := 0
  rsv   : Nat := 0
  deriving DecidableEq, Repr, Inhabited

/-- An output edge (R35, R61, R178): tokens in flight, tokens sent since CFG, tag of the running burst's first token, credits reserved, tokens that wait in
another package, and what waits in the cell for a credit: a flushed token with the EOS behind it (R187). -/
structure Edge where
  flight : List Token := []
  sent   : Nat := 0
  first  : Option (Nat × W16 × Nat) := none
  rsv    : Nat := 0
  away   : Nat := 0
  waiting : List Token := []
  deriving DecidableEq, Repr, Inhabited

/-- The coalescing buffer (R187). -/
structure Coal where
  elems  : List W32 := []
  fmt    : Fmt := .none
  xs     : Nat := 0
  p      : Bool := false
  origin : Nat := 0
  edge   : Nat := 0
  cls    : Nat := 0
  frame  : Nat := 0
  iter   : W16 := 0
  deriving DecidableEq, Repr, Inhabited

/-- A cell register that holds no value (R22). -/
def Reg.empty : Reg := ⟨List.replicate 16 0, 0, .none, false, 0, 0⟩

/-- Per-context state of a cell (R21, R26, R44, R66, R182). -/
structure Ctx where
  loaded : Bool := false
  o      : List Reg := List.replicate 8 Reg.empty
  gen    : W32 := 1
  ports  : List Port := List.replicate 4 {}
  edges  : List Edge := List.replicate 8 {}
  slot   : Option Token := none
  coal   : Coal := {}
  sink   : Nat := 0
  posted : Bool := false
  fwd    : Bool := false
  deriving DecidableEq, Repr, Inhabited

/-- The hold of a task on a ring slot (R196). -/
structure RingHold where
  ring     : Nat
  slot     : Nat
  producer : Bool
  freed    : Bool := false
  deriving DecidableEq, Repr, Inhabited

/-- The frame record that a CALL writes (R69, R185): the caller's cell, its frame and iter, return edge and class. -/
structure CallRec where
  core  : Nat
  cell  : Nat
  ctx   : Nat
  frame : Nat
  iter  : W16
  edge  : Nat
  cls   : Nat
  deriving DecidableEq, Repr, Inhabited

/-- What a task has staged (R177): a token on an edge, a call, a return with its keep bit, a frame to free. -/
inductive Staged where
  | tok (edge : Nat) (t : Token)
  | call (frame : Nat) (r : CallRec)
  | ret (frame : Nat) (keep : Bool) (v : Reg)
  | free (frame : Nat)
  deriving DecidableEq, Repr, Inhabited

/-- A task (R60, R61): its tag, operands, next halfword, reservations (`replies` the ports of its LDEs, with the credits it has not used), and what it has
staged. -/
structure Task where
  ctx      : Nat
  cls      : Nat
  frame    : Nat
  iter     : W16
  ops      : List PortTok
  pc       : Nat
  serial   : Nat
  since    : Nat
  newFrame : Option Nat := none
  ring     : Option RingHold := none
  staged   : List Staged := []
  room     : Assoc Nat := []
  retRoom  : Option Nat := none
  replies  : Assoc Nat := []
  dropped  : Bool := false
  deriving DecidableEq, Repr, Inhabited

/-- A matching-store entry (R60): tag, class, and the tokens that wait, by port. -/
structure Match where
  ctx   : Nat
  cls   : Nat
  frame : Nat
  iter  : W16
  toks  : Assoc PortTok
  deriving DecidableEq, Repr, Inhabited

/-- A history command (R225): operation 0 HINS 1 HSEEK 2 HJOIN 3 HRED 4 HCONS 5 HCOMP, with the issuing cell and tag. -/
structure HCmd where
  op      : Nat
  hist    : Nat
  a       : Reg
  edge    : Nat
  variant : Nat
  j       : Nat
  agent   : Nat
  ctx     : Nat
  frame   : Nat
  iter    : W16
  cls     : Nat
  deriving DecidableEq, Repr, Inhabited

/-- A request of a memory-cell port with the registers it captured (R89, R92, R189); `half` is the half of a straddling store that has not performed yet
(R85). -/
inductive MemReq where
  | sts (p rem : Bool) (d a : Reg)
  | stx (d a : Reg)
  | expd (d a : Reg)
  | rput (d : Reg) (ring slot j : Nat)
  | tbarv (a : Reg)
  | ste (p : Bool) (d a : Reg)
  | lde (f : Fmt) (p : Bool) (a : Reg) (port : Nat)
  | ordt (target id : Nat)
  | rfree (ring slot : Nat)
  | hist (c : HCmd)
  | half (core off : Nat) (bytes mask : List Byte) (d : Reg)
  deriving DecidableEq, Repr, Inhabited

/-- A request that waits at the port: for an ordering id, or for the requests before it (R89, R92, R93); `hold` is a cause that holds an external
access, and its VA (R335); `time` is when it reached the port. -/
structure Held where
  req    : MemReq
  need   : Option Nat
  serial : Nat
  ctx    : Nat
  cls    : Nat
  frame  : Nat
  iter   : W16
  hold   : Option (Nat × Nat) := none
  time   : Nat := 0
  deriving DecidableEq, Repr, Inhabited

/-- A memory cell's address generator (R59, R254): running, next point, EOS issued, held by a fault, BARC points ahead. -/
structure Gen where
  on    : Bool := false
  point : Nat := 0
  eos   : Bool := false
  held  : Option (Nat × Nat) := none
  barc  : List Nat := []
  deriving DecidableEq, Repr, Inhabited

/-- A cell (R21). `waitFrom` says since when each candidate for admission has been eligible (R62), `frameFrom` since when one waits for a frame, and
whether that was posted (R69); `passed` says that it has forwarded the marker of a pre-emption (R322). -/
structure Cell where
  ctxs     : List Ctx := List.replicate 4 {}
  l        : List Reg := List.replicate 4 Reg.empty
  mains    : List Reg := List.replicate 32 Reg.empty
  matching : List Match := []
  ready    : List Task := []
  running  : Option Task := none
  done     : List Task := []
  cur      : List Int := [0, 0, 0, 0]
  w        : List Nat := [0, 0, 0, 0]
  wTime    : Nat := 0
  ordIn    : List (Nat × Clr) := []
  ordClr   : Assoc (List Clr) := []
  held     : List Held := []
  gen      : Gen := {}
  serial   : Nat := 0
  arr      : Nat := 0
  waitFrom : Assoc Nat := []
  frameFrom : Assoc (Nat × Bool) := []
  passed   : Bool := false
  deriving DecidableEq, Repr, Inhabited

/-! ## The units of a core -/

/-- An access record of the race checker (R95): agent, ordering count, kind (0 read, 1 write, 2 atomic), size and scope of an atomic, whether it came
through the multicast window, as handle 13 also at the issuer's own core (R86). -/
structure AccRec where
  key   : AgentKey
  count : Nat
  kind  : Nat
  size  : Nat := 0
  scope : Nat := 0
  multi : Bool := false
  deriving DecidableEq, Repr, Inhabited

/-- The records of a word (R95): the phase they were made in, the last write before the atomics that it does not stand for, the reads since. -/
structure WordRec where
  phase : Nat := 0
  writes : List AccRec := []
  reads : List AccRec := []
  deriving DecidableEq, Repr, Inhabited

/-- Ordering count and clearance set of an agent (R95, R103); the set of its last .rel fence, and the sets that its atomics have read since its last
.acq fence (R100). -/
structure Ord where
  oc   : Nat := 0
  clr  : Clr := []
  frel : Option Clr := none
  seen : Clr := []
  deriving DecidableEq, Repr, Inhabited

/-- A copy (R260, R261): kind 0 CPY 1 CPYR 2 CPYG 3 CPYX 4 CPYS; `out` writes the buffer. `pos` counts landed sectors of the running tile or
of the whole copy; `started`, `slots` serve ring copies; `stopped` says that CPST stopped it, `held` is a translation cause, `frozen` a pre-emption, `failed`
the number of a fault's record that is on its way to the queue (R115). -/
structure Copy where
  kind    : Nat
  out     : Bool
  node    : Nat
  op      : Nat
  tb      : Nat
  spad    : Nat
  off     : Nat
  n       : Nat
  ring    : Nat
  desc    : Nat
  rows    : Nat := 0
  rowB    : Nat := 0
  pitch   : Nat := 0
  aux     : Nat := 0
  list    : Nat := 0
  picked  : Nat := 0
  tile    : Nat := 0
  pos     : Nat := 0
  started : Nat := 0
  stopped : Bool := false
  slots   : List Nat := []
  held    : Option (Nat × Nat) := none
  frozen  : Bool := false
  failed  : Option Nat := none
  deriving DecidableEq, Repr, Inhabited

/-- An accumulator tile (R20, R211). -/
structure Tile where
  data   : List W32 := List.replicate 256 0
  p      : Bool := false
  origin : Nat := 0
  deriving DecidableEq, Repr, Inhabited

/-- A running instance of the matrix engine (R203, R214): slot, tag, next k-step, the rows that an MMAG selects, result tokens sent. -/
structure MInst where
  ctx    : Nat
  slot   : Nat
  frame  : Nat
  iter   : W16
  cls    : Nat
  kstep  : Nat := 0
  mask   : List Nat := []
  sent   : Nat := 0
  deriving DecidableEq, Repr, Inhabited

/-- The matrix engine of a dense core (R200 to R215, R382). `ports` are A, B, mask; `arr` counts arrivals; `admitted` says that the ramp has reached it,
`waiting` that an instance waits for that, `passed` that it has forwarded the marker of a pre-emption (R214). -/
structure Matrix where
  tiles    : Assoc Tile := []
  ports    : List Port := [{}, {}, {}]
  arr      : Nat := 0
  run      : Option MInst := none
  edge     : Edge := {}
  fwd      : Bool := false
  admitted : Bool := false
  waiting  : Bool := false
  lastStep : Nat := 0
  passed   : Bool := false
  deriving DecidableEq, Repr, Inhabited

/-- An entry of a history (R128). -/
structure HEntry where
  key    : Nat
  vals   : List W32
  epoch  : Nat
  round  : Nat
  diff   : W32
  p      : Bool := false
  origin : Nat := 0
  t      : Bool := false
  deriving DecidableEq, Repr, Inhabited

/-- An item in the command order of a history (R227, R234): a command, an advance of a frontier register to a new frontier with the marker's iter and the time
at which the register changed, the marker that a join owes for an advance of a register, an autocompaction, an EOS (R291). -/
inductive HItem where
  | cmd (c : HCmd)
  | advance (fn : Nat) (f : List (Nat × Nat)) (iter : W16) (time : Nat)
  | join (fn : Nat) (iter : W16) (time : Nat)
  | compact
  | eos
  deriving DecidableEq, Repr, Inhabited

/-- A history (R126 to R130): entries in stored order, spilled buckets with the VAs of their blocks (R336), last use of a bucket, command order, output tokens that wait for credit with their
port (R228). `fns` are the frontier registers as the unit has taken them; `eos` an EOS that it has passed, `posted` POISONED in this phase,
`held` a translation cause that holds its spilling or filling, and its VA (R335). -/
structure Hist where
  entries : List HEntry := []
  spilled : Assoc (List Nat) := []
  used    : Assoc Nat := []
  clock   : Nat := 0
  queue   : List HItem := []
  out     : List (Nat × Token) := []
  fns     : List (List (Nat × Nat)) := List.replicate 8 [(0, 0)]
  eos     : Bool := false
  posted  : Bool := false
  held    : Option (Nat × Nat) := none
  deriving DecidableEq, Repr, Inhabited

/-- A loop of the RC (R247): first body address, address of its ENDL, LC, pending value. -/
structure LoopRec where
  start : Nat
  last  : Nat
  lc    : Nat
  pend  : Option Nat := none
  deriving DecidableEq, Repr, Inhabited

/-- A stream specification (R253), its 64 bytes as they stand in the image. -/
structure SpecRec where
  core   : Nat
  handle : Nat
  raw    : List Byte
  deriving DecidableEq, Repr, Inhabited

/-- What an RC is doing (R237, R240, R250): no program, running, waiting for a remote reply, waiting in SYS with its qd and, when a RETS has been
recorded, its value, stopped. -/
inductive RcMode where
  | idle | running | remote (qd : Nat) | sys (qd : Nat) (value : Option W64) | halting | stopped
  deriving DecidableEq, Repr, Inhabited

/-- The region controller of a core (R237 to R259, R263). `loads` are the CFGs that wait; `aborting` says that ABORTR or a fault ends the phase, `dying` that
a fault does and that the node terminates with it (R240), `residue` that a pre-emption has discarded tokens of it (R322); `waits` says that an instruction
waits for the RC's own accesses, so that a pre-emption lets it run to its end (R322);
`held` is a translation cause that holds what it reads in external memory, and its VA (R335); `loadHeld` one that holds
the load of an image. -/
structure Rc where
  mode    : RcMode := .idle
  level   : Nat := 0
  q       : List W64 := List.replicate 32 0
  pc      : Nat := 0
  progOff : Nat := 0
  progLen : Nat := 0
  image   : Nat := 0
  node    : Nat := 0
  part    : Nat := 0
  loops   : List LoopRec := []
  phase   : Nat := 0
  timer   : Nat := 0
  ev      : Nat := 0
  far     : Nat := 0
  poison  : Nat := 0
  fns     : List (List (Nat × Nat)) := List.replicate 8 [(0, 0)]
  space   : List Nat := [1]
  specs   : List SpecRec := []
  loads   : List Nat := []
  refused : Option Nat := none
  applied : Bool := false
  inPhase : Bool := false
  residue : Bool := false
  ended   : Nat := 0
  word    : Nat := 0
  poisonP : Nat := 0
  refs    : List Nat := List.replicate 31 0
  voids   : List Nat := List.replicate 15 0
  fedBy   : List Bool := List.replicate 15 false
  barc    : List Nat := []
  pinned  : Bool := false
  aborting : Bool := false
  dying   : Bool := false
  waits   : Bool := false
  extract : List (Nat × Token) := []
  held    : Option (Nat × Nat) := none
  loadHeld : Option (Nat × Nat) := none
  deriving DecidableEq, Repr, Inhabited

/-- A synchronisation slot (R103): the set that release atomics left at the word, with the scope, route and core of the last of them (R100). -/
structure Sync where
  clr   : Clr
  scope : Nat
  route : Nat
  core  : Nat
  deriving DecidableEq, Repr, Inhabited

/-- A core (R20). `rphase` is the race checker's phase; `words` its records; `discard` the lines that read as discarded (R325);
`notices` the NOTICE tokens on their way to the copy engine, by ring; `remote` the remote accesses outstanding that a release waits for, by agent handle,
`atoms` the atomics among them, each with its size, scope and whether it acquires (R101, R192);
`tbClr`, `ringClr`, `copyClr` the merged sets that barriers, ring slots and completed copies hold (R103, R115); `slotOpen` the context-3 slot (R272). -/
structure Core where
  cells   : Assoc Cell := []
  rc      : Rc := {}
  ords    : Assoc Ord := []
  rphase  : Nat := 0
  words   : Assoc WordRec := []
  sync    : Assoc Sync := []
  tbClr   : Assoc Clr := []
  ringClr : Assoc Clr := []
  copies  : Assoc Copy := []
  copyF   : Bool := false
  copyClr : Clr := []
  notices : List Nat := []
  remote  : Assoc Nat := []
  atoms   : Assoc (List (Nat × Nat × Bool)) := []
  discard : List Nat := []
  tcache  : Assoc (Nat × Nat) := []
  matrix  : Matrix := {}
  hists   : Assoc Hist := []
  hpEdges : List Edge := List.replicate 4 {}
  slotOpen : Option Nat := none
  rank    : Nat := 0
  deriving DecidableEq, Repr, Inhabited

/-! ## Regions, nodes, partitions -/

/-- Where a region stands (R321 to R327). -/
inductive RegionSt where
  | running | draining | frozen | killed
  deriving DecidableEq, Repr, Inhabited

/-- A region (R57, R17): lead core, size, stage, node, partition, whether CAPTURE rather than PREEMPT drains it, when the
pre-emption was asked for, whether it waits for a lower stage (R321), and whether its markers are injected. -/
structure Region where
  lead    : Nat
  w       : Nat
  h       : Nat
  stage   : Nat
  node    : Nat
  part    : Nat
  tenant  : Nat
  st      : RegionSt := .running
  capture : Bool := false
  since   : Nat := 0
  standing : Bool := false
  pending : Bool := false
  marked  : Bool := false
  deriving DecidableEq, Repr, Inhabited

/-- A shape record (R338): tile rows, tile row bytes, row pitch, format, scale array. -/
structure Shape where
  rows  : Nat
  rowB  : Nat
  pitch : Nat
  fmt   : Nat
  scale : Nat
  deriving DecidableEq, Repr, Inhabited

/-- A node's operand (R72, R106, R107, R311, R350): handle, mode, the buffer's start, size and shape record's address at launch, the version read and the base
version, the snapshot's tile map, the shadow tiles, and the shape record as each engine read it at its first use (R338). -/
structure Operand where
  handle : Nat := 0xFFFF
  mode   : Nat := 0
  start  : Nat := 0
  size   : Nat := 0
  shape  : Nat := 0
  snap   : Nat := 0
  base   : Nat := 0
  map    : Assoc Nat := []
  shadow : Assoc Nat := []
  shapes : Assoc Shape := []
  deriving DecidableEq, Repr, Inhabited

/-- A node (R72, R75, R265): st is 0 waiting, 1 ready, 2 running, 3 complete, 4 terminated, 5 cancelled; `owner` the node that submitted it.
`since` is when it became ready, `aged` the levels that it has gained, `links` the VAs that NDDEP linked, each with its die; `sent` says that its successors have been
released or cancelled; `held` holds what the scheduler does for it (R335); `acq` is what it acquires at launch, `clr` what its completion releases. -/
structure Node where
  va       : Nat
  owner    : Nat
  handle   : Nat
  part     : Nat
  tenant   : Nat
  kind     : Nat
  corekind : Nat
  w        : Nat
  h        : Nat
  prio     : Nat
  stage    : Nat
  standing : Bool
  pinned   : Bool
  pisle    : Nat
  pcore    : Nat
  arglen   : Nat
  entry    : Nat
  image    : Nat
  args     : Nat
  succ     : Nat
  disc     : List (Nat × Nat)
  st       : Nat
  since    : Nat
  die      : Nat
  ops      : List Operand := []
  links    : List (Nat × Nat) := []
  sent     : Bool := false
  held     : Option (Nat × Nat) := none
  aged     : Nat := 0
  acq      : Clr := []
  clr      : Clr := []
  deriving DecidableEq, Repr, Inhabited

/-- A record for an event queue (R319, R341): queue (partition, or 16 for the manager), kind, source, die, sequence number, time, 16 bytes, and whether
it may be lost. -/
structure EvRec where
  queue  : Nat
  kind   : Nat
  source : Nat
  die    : Nat
  seq    : Nat
  time   : Nat
  body   : List Byte
  mayLose : Bool
  deriving DecidableEq, Repr, Inhabited

/-- An event queue (R317, R318): set by EVTQ, base address, entries, the holding area, records lost while unset. -/
structure Queue where
  isSet   : Bool := false
  core    : Nat := 0
  base    : Nat := 0
  entries : Nat := 16
  kept    : List EvRec := []
  lost    : Nat := 0
  deriving DecidableEq, Repr, Inhabited

/-- A buffer of a partition as registered (R105, R311, R350): start, size and shape record's address, published version and tile map (absent: the
tile's own VA), and what its publications release (R108). -/
structure Buf where
  start   : Nat := 0
  size    : Nat := 0
  shape   : Nat := 0
  version : Nat := 0
  map     : Assoc Nat := []
  clr     : Clr := []
  deriving DecidableEq, Repr, Inhabited

/-- A host ingress channel (R116, R373): shadow tiles by buffer, buffers written in order and the versions that they had, writes performed since it was
opened, the raising write that waits with its declared count, raising writes so far, the FIFO, whether it has closed, a cause that holds it. -/
structure Channel where
  shadow  : Assoc (Assoc Nat) := []
  order   : List Nat := []
  bases   : Assoc Nat := []
  writes  : Nat := 0
  waiting : Option HostMsg := none
  raised  : Nat := 0
  fifo    : List (Token × List HostPub) := []
  closed  : Bool := false
  held    : Option (Nat × Nat) := none
  deriving DecidableEq, Repr, Inhabited

/-- A checkpoint under way (R377): the RC core or node that runs it, the request's VA, snapshots (handle, version, map) in entry order, regions whose
images are written (handle, stage, bytes), those being captured, when their capture began. -/
structure Ckpt where
  core   : Option Nat
  node   : Nat := 0
  req    : Nat
  snaps  : List (Nat × Nat × Assoc Nat)
  images : List (Nat × Nat × List Byte) := []
  now    : List Nat := []
  since  : Nat := 0
  deriving DecidableEq, Repr, Inhabited

/-- A migration under way (R339): the page's VA and size, the address of its leaf and its value with MW set, the target. -/
structure Migr where
  va     : Nat
  size   : Nat
  leafAt : Nat
  leaf   : Nat
  target : Nat
  deriving DecidableEq, Repr, Inhabited

/-- A partition (R315) and its registers (R307 to R312, R330, R336, R364, R365, R372). `measure` is the supervisor measurement (R362),
`rstr` holds the shadows that a RSTR writes, by buffer (R380). -/
structure Part where
  live    : Bool := false
  isles   : Nat := 0
  tenant  : Nat := 0
  hbm     : Nat × Nat := (0, 0)
  lp6     : Nat × Nat := (0, 0)
  image   : Nat := 0
  entry   : Nat := 0
  pctl    : Nat := 100 * 65536
  buftab  : Nat := 0
  csel    : List Nat := []
  troot   : Nat := 0
  shpool  : Nat := 0
  spill   : Nat := 0
  dtag    : Nat := 0
  rtab    : Nat := 0
  hchan   : Nat := 0
  queue   : Queue := {}
  bufs    : Assoc Buf := []
  chans   : Assoc Channel := []
  measure : List Byte := []
  ckpt    : Option Ckpt := none
  rstr    : Assoc (Assoc Nat) := []
  migr    : Option Migr := none
  deriving DecidableEq, Repr, Inhabited

/-- A frame of an isle's allocator (R69, R186): 1 ACTIVE, 2 RETURNED, 3 reserved and not yet called, 4 released by a RET whose return is on its way. -/
structure Frame where
  st   : Nat
  lead : Nat
  rcd  : CallRec := default
  deriving DecidableEq, Repr, Inhabited

/-- A return on its way to the caller's cell (R69). -/
structure Return where
  frame   : Nat
  keep    : Bool
  rcd     : CallRec
  v       : Reg
  deriving DecidableEq, Repr, Inhabited

/-- An isle: multicast groups (R313), frames, returns in flight, the ramp (R382): waiting, row admitted next, time of its last step; its second-level
translation cache (R333). -/
structure Isle where
  mcg     : List W64 := List.replicate 16 0
  frames  : Assoc Frame := []
  returns : List Return := []
  ramping : Bool := false
  row     : Nat := 0
  rowTime : Nat := 0
  tcache  : Assoc (Nat × Nat) := []
  deriving DecidableEq, Repr, Inhabited

/-- A collective at one rank (R266, R277 to R284): its place in issue order, the selection, whether the source has been read and what it held,
contributions of other packages by rank under an open schedule, the numbers of the chunks started, how many ranks a fold has taken in, result staged, done
notices and commit (at the coordinator), what its engines have released, a status that shows once the record of that number is visible (R115), status
bits [3:0]. -/
structure Coll where
  handle : Nat
  op     : Nat
  oper   : Nat
  src    : Nat
  dst    : Nat
  size   : Nat
  fmt    : Fmt
  root   : Nat
  prio   : Nat
  sel    : Nat
  index  : Nat := 0
  read   : Bool := false
  own    : List Reg := []
  gotR   : Assoc (List Reg) := []
  sent   : List Nat := []
  folded : Nat := 0
  staged : Bool := false
  dones  : List Nat := []
  commit : Bool := false
  clr    : Clr := []
  pend   : Option (Nat × Nat) := none
  status : Nat := 0
  deriving DecidableEq, Repr, Inhabited

/-- A communicator slot (R268 to R270, R282, R299): st is 1 forming, 2 formed, 3 broken; `via` is the port by which each rank is reached, `vcs` the VC pair
on each port; `inbox` holds the chunks that have come from other packages; `ended` says that its membership has ended, `lost` that a member has been
lost (R284). -/
structure Comm where
  core    : Nat
  node    : Nat
  key     : Nat
  n       : Nat
  rank    : Nat
  gen     : Nat
  trace   : Bool
  table   : List Nat
  area    : Nat
  size    : Nat
  st      : Nat := 1
  issued  : Nat := 0
  setSel  : Option Nat := none
  via     : List Nat := []
  vcs     : List (Nat × Nat) := []
  inbox   : List ChunkFlit := []
  colls   : List Coll := []
  ended   : Bool := false
  lost    : Bool := false
  deriving DecidableEq, Repr, Inhabited

/-- A walk of a die's walkers (R333): when, for which partition and 4 KiB page, whether to write, and its result: a cause, or 0 and a translation. -/
structure Walk where
  time  : Nat
  part  : Nat
  page  : Nat
  write : Bool
  cause : Nat
  val   : Nat × Nat
  deriving DecidableEq, Repr, Inhabited

/-- A tile of verified plaintext (R355): its key, the load of the key slot that it was sealed under, its bytes. -/
structure Plain where
  key  : Nat
  load : Nat
  data : Memory
  deriving DecidableEq, Repr, Inhabited

/-- A compute die: its collective engine (R268, R273), ready pool and overflow list (R75), verified-plaintext cache (R355), the walks
of this cycle (R333), thermal state (R384). -/
structure Die where
  comms    : Assoc Comm := []
  router   : Assoc Nat := []
  lastSlot : Assoc Nat := []
  pool     : List Nat := []
  overflow : List Nat := []
  cache    : List Plain := []
  walks    : List Walk := []
  hot95    : Bool := false
  hot105   : Bool := false
  links    : Nat := 0
  deriving DecidableEq, Repr, Inhabited

/-! ## The package -/

/-- How a storage tile was sealed last (R351): the load of the key slot, the IV's tile index, tenant, generation and version, and the tag that it made. -/
structure Sealed where
  load    : Nat
  index   : Nat
  tenant  : Nat
  gen     : Nat
  version : Nat
  tag     : List Byte
  deriving DecidableEq, Repr, Inhabited

/-- Storage-tile metadata (R352): the record's tag, version, generation and state; how the tile was sealed last; and whether its ciphertext has been altered
since. Memory holds the plaintext of a tile that is sealed and not altered, and the bytes themselves of any other (log 9). -/
structure TileMeta where
  tag     : List Byte := List.replicate 16 0
  version : Nat := 0
  gen     : Nat := 0
  st      : Nat := 0
  made    : Option Sealed := none
  altered : Bool := false
  deriving DecidableEq, Repr, Inhabited

/-- A key slot (R357 to R360): live, tenant, generation, the unwrapped key, the load that derived its sealing key, current now, current before. -/
structure KeySlot where
  live    : Bool := false
  tenant  : Nat := 0
  gen     : Nat := 0
  key     : List Byte := []
  load    : Nat := 0
  current : Bool := false
  was     : Bool := false
  deriving DecidableEq, Repr, Inhabited

/-- An attestation session (R363): open, completed, the seed of its key pairs, the report's digest, the session key. -/
structure Session where
  isOpen : Bool := false
  done   : Bool := false
  seed   : Nat := 0
  digest : List Byte := []
  key    : List Byte := []
  deriving DecidableEq, Repr, Inhabited

/-- A strait port (R366 to R370). As a sender: flits that wait by VC, the replay buffer, replays of its oldest flit, credits of the reserves and of the
shared pool, next sequence number, whether the link is down, since when the head of each VC waits, and the watchdog events posted for it. As a
receiver: the next sequence number, room of its shared pool. -/
structure Strait where
  queue   : Assoc (List Flit) := []
  replay  : List Flit := []
  replays : Nat := 0
  reserve : Assoc Nat := []
  pool    : Nat := 1024
  txSeq   : Nat := 0
  down    : Bool := false
  since   : Assoc Nat := []
  warned  : Assoc Nat := []
  rxPool  : Nat := 1024
  rxSeq   : Nat := 0
  deriving DecidableEq, Repr, Inhabited

/-- The fuses that sr.cap reports (R309). -/
structure Fuses where
  module : Bool
  fifteen : Bool
  absent : Nat
  deriving DecidableEq, Repr, Inhabited

/-- The power manager (R382, R383): throttling in this window, end of the window, time of the last isle's ramp. -/
structure Power where
  throttle : Bool := false
  window   : Nat := 0
  lastIsle : Option Nat := none
  deriving DecidableEq, Repr, Inhabited

/-- A region's saved image (R324): the handle and place that it had, its node and its scheduler state, the cores and the frames, the bytes of its stores
by their distance from where each core's store began, and the image's bytes (log 22). `live` says that its node is not resident. -/
structure Saved where
  part   : Nat
  live   : Bool
  region : Region
  node   : Nat
  rcd    : Node
  cores  : List Core
  stores : List Memory
  frames : Assoc Frame
  bytes  : List Byte
  deriving DecidableEq, Repr, Inhabited

/-- The state of the package. -/
structure State where
  /-- model's own: turns set from outside, the count of the schedule, of free values; the focus and the event's place -/
  agenda   : List Turn := []
  turnNo   : Nat := 0
  freeNo   : Nat := 0
  fcore    : Nat := 0
  fcell    : Nat := 0
  word     : Nat := 0
  place    : Place := {}
  mem      : Memory := []
  time     : Nat := 0
  stage    : Nat := 5
  bootFail : Option Nat := none
  fuses    : Fuses
  cores    : Assoc Core := []
  isles    : Assoc Isle := []
  dies     : Assoc Die := []
  parts    : Assoc Part := []
  regions  : List Region := []
  nodes    : Assoc Node := []
  nodeNext : Nat := 1
  doomed   : List (Nat × Nat) := []
  early    : List (Nat × Nat × Clr) := []
  saved    : List Saved := []
  hostOut  : List (Nat × Nat × List Byte) := []
  tiles    : Assoc TileMeta := []
  mcage    : Nat := 2048
  wdog1    : Nat := 10000
  wdog2    : Nat := 2000
  mgrQueue : Queue := {}
  posts    : List EvRec := []
  seqs     : Assoc Nat := []
  reqs     : List RemoteReq := []
  straits  : Assoc Strait := []
  ctl      : List CollMsg := []
  ueDown   : List Nat := []
  keys     : Assoc KeySlot := []
  loads    : Nat := 0
  nonce    : Nat := 0
  sessions : Assoc Session := []
  power    : Power := {}
  deriving DecidableEq, Repr, Inhabited

/-! ## Why a step stops -/

/-- Reasons a run stops with a fault. Every cause code of the spec is a next state instead: its record is posted and its effect taken. -/
inductive Fault where
  /-- Raised by a cell whose running routine holds bytes that are no instruction: the validator lets no such routine in (R144), so the spec gives no
  effect. Safe. -/
  | routineWord (core cell pc : Nat)
  /-- Raised by a matrix engine whose running slot holds bytes that are no instruction: the validator lets no such slot in (R146). Safe. -/
  | matrixWord (core ctx slot : Nat)
  deriving DecidableEq, Repr

/-- Reasons a step is refused. -/
inductive Refusal where
  /-- Raised by exec for an instruction that has no meaning yet. Safe. -/
  | notModelled (mnemonic : String)
  deriving DecidableEq, Repr

/-- The default selection table (R281), size class by size class. -/
def defaultCsel : List Nat :=
  let e (alg v cav : Nat) : Nat := alg + 4 * v + 32 * cav
  let large : List Nat := [e 0 5 0, e 0 5 0, e 0 5 1, e 0 5 1, e 0 5 1]
  [e 3 0 0, e 1 0 0, e 1 0 1, e 1 0 1, e 1 0 1] ++ [e 3 1 0, e 2 1 0, e 2 2 1, e 2 2 1, e 1 3 1] ++ [e 3 3 0, e 2 3 0, e 2 4 1, e 0 4 1, e 0 4 1]
    ++ large ++ large ++ large ++ [0, 0]

/-- The package right after reset and start (R316, R381): every store reads as zero, every cell register holds no value, no partition exists and no
program runs; stage 5 has been reached. The manager controller's RC, of core 1024, is at manager level (R305, R308); the registers of partition scope
that it reaches stand under number 16, with the default selection table (R312). The fuses are those of a full grade on a module (log 7). -/
def State.reset : State where
  fuses := { module := true, fifteen := false, absent := 0 }
  cores := [(1024, { rc := { level := 2 } })]
  parts := [(16, { csel := defaultCsel })]

end Sys2Proof.Machine
end

