-- ==== Sys2Proof/Machine/Store.lean ====
section
/-! DEFINITION. The stores of the part and the named operations on them: finite maps, memory, where each store stands in memory, cores, cells and
contexts, the fields of the configuration records (R149 to R157), regions and partitions, and the posting of records (R319, R341). -/

namespace Sys2Proof.Machine

/-! ## Finite maps -/

variable {α : Type}

def aget : Assoc α → Nat → Option α
  | [], _ => none
  | (k', v) :: r, k => if k = k' then some v else aget r k

def aset : Assoc α → Nat → α → Assoc α
  | [], k, v => [(k, v)]
  | (k', v') :: r, k, v => if k < k' then (k, v) :: (k', v') :: r else if k = k' then (k, v) :: r else (k', v') :: aset r k v

def adel : Assoc α → Nat → Assoc α
  | [], _ => []
  | (k', v') :: r, k => if k = k' then r else (k', v') :: adel r k

/-- Keys strictly rise, the first of them at or above lo. -/
def rising : Nat → Assoc α → Bool
  | _, [] => true
  | lo, (k, _) :: r => decide (lo ≤ k) && rising (k + 1) r

/-- A list without repeats, each element where it first stands. -/
def dedup : List Nat → List Nat
  | [] => []
  | x :: r => x :: (dedup r).filter (· != x)

/-! ## Memory -/

/-- The canonical form of memory: addresses strictly rising, no byte 0 listed. -/
def Memory.wf (m : Memory) : Bool := rising 0 m && m.all (fun c => c.2 != 0)

/-- One byte; an address that is not listed reads as 0 (R316, R352). -/
def Memory.read (m : Memory) (a : Nat) : Byte := (aget m a).getD 0

def Memory.write (m : Memory) (a : Nat) (b : Byte) : Memory := if b = 0 then adel m a else aset m a b

/-- n bytes from a upward. -/
def Memory.readN (m : Memory) (a n : Nat) : List Byte := (List.range n).map (fun i => Memory.read m (a + i))

/-- n bytes from a upward as a number, little-endian. -/
def Memory.readNat (m : Memory) (a n : Nat) : Nat := leNat (Memory.readN m a n)

def Memory.writeN : Memory → Nat → List Byte → Memory
  | m, _, [] => m
  | m, a, b :: bs => Memory.writeN (Memory.write m a b) (a + 1) bs

/-- Bytes written under a mask of bits; a byte whose mask is 0 is not touched (R189 item 2). -/
def Memory.writeMasked : Memory → Nat → List Byte → List Byte → Memory
  | m, a, b :: bs, k :: ks =>
    Memory.writeMasked (if k = 0 then m else Memory.write m a ((Memory.read m a &&& ~~~k) ||| (b &&& k))) (a + 1) bs ks
  | m, _, _, _ => m

/-- Bytes of memory from a base, by their distance from it. -/
def Memory.slice (m : Memory) (a n : Nat) : Memory := (m.filter (fun c => decide (a ≤ c.1) && decide (c.1 < a + n))).map (fun c => (c.1 - a, c.2))

/-- Zero a range: what is listed there is no longer listed. -/
def Memory.clear (m : Memory) (a n : Nat) : Memory := m.filter (fun c => !(decide (a ≤ c.1) && decide (c.1 < a + n)))

/-! ## Where the stores stand -/

/-- Scratchpad of a core (R82, R83). External physical memory stands at its own addresses, below 2^48 (R331). -/
def spadBase (core : Nat) : Nat := 2 ^ 48 + core * 2 ^ 22
/-- Configuration record of a cell's context (R149). -/
def cfgBase (core cell ctx : Nat) : Nat := 2 ^ 49 + ((core * 32 + cell) * 4 + ctx) * 512
/-- RC program store of a core (R237). -/
def progBase (core : Nat) : Nat := 2 ^ 50 + core * 2 ^ 16
/-- Matrix section of a core: 4 x 16 slots, three input-port words, the result route word (R155). -/
def matBase (core : Nat) : Nat := 2 ^ 51 + core * 1024
/-- History descriptors of a core, 16 of 32 bytes, then four route words (R155). -/
def histBase (core : Nat) : Nat := 2 ^ 52 + core * 1024
/-- Ring and barrier section of a lead core: 16 bytes of counts, 15 ring entries, 31 barrier entries of 16 bytes (R155, R157). -/
def ringBase (core : Nat) : Nat := 2 ^ 53 + core * 1024

/-! ## Cores, cells, contexts -/

/-- The manager controller's number; it is no core of an isle (R305, log 8). -/
def managerCore : Nat := 1024

def isleOf (core : Nat) : Nat := core / 64
def dieOf (core : Nat) : Nat := core / 256
def xOf (core : Nat) : Nat := core % 8
def yOf (core : Nat) : Nat := core % 64 / 8
/-- Keyed cores have x = 0 or 7 (R16). -/
def isKeyed (core : Nat) : Bool := xOf core == 0 || xOf core == 7
/-- Bytes of scratchpad (R83); the manager controller's own is presumed that of a keyed core (log 8). -/
def spadSize (core : Nat) : Nat := if isKeyed core then 0x400000 else 0x180000
/-- Columns 0 and 7 are memory cells (R16). -/
def isMemCell (cell : Nat) : Bool := cell % 8 == 0 || cell % 8 == 7
/-- Agent handle of a memory cell (R88). -/
def handleOf (cell : Nat) : Nat := if cell % 8 = 0 then cell / 8 else 4 + cell / 8
/-- The memory cell of an agent handle (R88). -/
def cellOfHandle (h : Nat) : Nat := if h < 4 then h * 8 else (h - 4) * 8 + 7
/-- Local id that the records name for an agent handle (R19, R88): the engines by the copy-engine notice port, the matrix result port, a history port, the
collective port. -/
def handleLoc (h : Nat) : Nat := if h < 8 then cellOfHandle h else match h with | 9 => 49 | 10 => 34 | 11 => 36 | 12 => 50 | _ => 48
/-- Global agent id (R18). -/
def agentId (core loc : Nat) : Nat := core * 64 + loc

def State.core (s : State) (k : Nat) : Core := (aget s.cores k).getD {}
def State.setCore (s : State) (k : Nat) (c : Core) : State := { s with cores := aset s.cores k c }
def State.modCore (s : State) (k : Nat) (f : Core → Core) : State := s.setCore k (f (s.core k))
def State.cell (s : State) (k l : Nat) : Cell := (aget (s.core k).cells l).getD {}
def State.setCell (s : State) (k l : Nat) (c : Cell) : State := s.modCore k (fun co => { co with cells := aset co.cells l c })
def State.modCell (s : State) (k l : Nat) (f : Cell → Cell) : State := s.setCell k l (f (s.cell k l))
def Cell.ctx (c : Cell) (x : Nat) : Ctx := c.ctxs.getD x {}
def Cell.modCtx (c : Cell) (x : Nat) (f : Ctx → Ctx) : Cell := { c with ctxs := c.ctxs.modify x f }
def State.ctx (s : State) (k l x : Nat) : Ctx := (s.cell k l).ctx x
def State.modCtx (s : State) (k l x : Nat) (f : Ctx → Ctx) : State := s.modCell k l (fun c => c.modCtx x f)
def State.rc (s : State) (k : Nat) : Rc := (s.core k).rc
def State.modRc (s : State) (k : Nat) (f : Rc → Rc) : State := s.modCore k (fun c => { c with rc := f c.rc })
def State.part (s : State) (p : Nat) : Part := (aget s.parts p).getD {}
def State.modPart (s : State) (p : Nat) (f : Part → Part) : State := { s with parts := aset s.parts p (f (s.part p)) }
def State.isle (s : State) (i : Nat) : Isle := (aget s.isles i).getD {}
def State.modIsle (s : State) (i : Nat) (f : Isle → Isle) : State := { s with isles := aset s.isles i (f (s.isle i)) }
def State.die (s : State) (d : Nat) : Die := (aget s.dies d).getD {}
def State.modDie (s : State) (d : Nat) (f : Die → Die) : State := { s with dies := aset s.dies d (f (s.die d)) }
def State.strait (s : State) (p : Nat) : Strait := (aget s.straits p).getD {}
def State.modStrait (s : State) (p : Nat) (f : Strait → Strait) : State := { s with straits := aset s.straits p (f (s.strait p)) }
def State.modNode (s : State) (n : Nat) (f : Node → Node) : State :=
  match aget s.nodes n with
  | some v => { s with nodes := aset s.nodes n (f v) }
  | none => s

/-- A free value of the model, and the next count (log 3). -/
def State.free (s : State) : Nat × State := (Config.freeNat s.freeNo, { s with freeNo := s.freeNo + 1 })

/-! ## Configuration fields -/

def State.recd (s : State) (k l x off n : Nat) : Nat := Memory.readNat s.mem (cfgBase k l x + off) n

/-- Class-table entry (R150). -/
def State.classEntry (s : State) (k l x n : Nat) : Nat := s.recd k l x (0x100 + 2 * n) 2
def ceEmits (w : Nat) : Nat := bits w 15 12
def ceFrame (w : Nat) : Bool := bit w 11
def ceArity (w : Nat) : Nat := bits w 10 9
def cePrio (w : Nat) : Nat := bits w 8 7
def ceEntry (w : Nat) : Nat := bits w 6 0

/-- Input-port word (R151). -/
def State.portWord (s : State) (k l x p : Nat) : Nat :=
  if l < 32 then s.recd k l x (0x120 + 8 * p) 8 else Memory.readNat s.mem (matBase k + 512 + 8 * p) 8
def pwSrc (w : Nat) : Nat := bits w 15 0
def pwFmt (w : Nat) : Fmt := fmtOf (bits w 19 16)
def pwBurst (w : Nat) : Nat := 2 ^ bits w 21 20
def pwEn (w : Nat) : Bool := bit w 22
def pwWin (w : Nat) : Nat := bits w 27 23
def pwRec (w : Nat) : Bool := bit w 28
def pwFn (w : Nat) : Nat := bits w 31 29
def pwVw (w : Nat) : Nat := bits w 35 32
def pwEos (w : Nat) : Nat := bits w 37 36
def pwMark (w sub : Nat) : Bool := decide (sub < 4) && bit w (38 + sub)
/-- Port words of no image read as zero, eosn and mark too: DESIGN CHOICE, R151's Reset column gives 1 to each, R316 says that configuration records read as zero
(log 107). -/
def pwEosn (w : Nat) : Nat := bits w 55 48

/-- Route word of an edge (R152): a cell's edge, the matrix result port (local id 34), a history port (36 to 39). -/
def State.edgeWord (s : State) (k l x e : Nat) : Nat :=
  if l < 32 then s.recd k l x (0x140 + 8 * e) 8
  else if l = 34 then Memory.readNat s.mem (matBase k + 536) 8
  else if 36 ≤ l ∧ l < 40 then Memory.readNat s.mem (histBase k + 512 + 8 * (l - 36)) 8
  else 0
def ewDest (w : Nat) : Nat := bits w 15 0
def ewAbs (w : Nat) : Bool := bit w 16
def ewDcfg (w : Nat) : Nat := bits w 19 18
def ewDport (w : Nat) : Nat := bits w 21 20
def ewVc (w : Nat) : Nat := bits w 24 22
def ewBurst (w : Nat) : Nat := 2 ^ bits w 26 25
def ewEn (w : Nat) : Bool := bit w 28
def ewRoute (w : Nat) : Nat := bits w 47 32
def ewCap (w : Nat) : Nat := bits w 55 48

/-- Context settings (R153). -/
def State.constWord (s : State) (k l x i : Nat) : Nat := s.recd k l x (0x180 + 4 * i) 4
def State.constFmt (s : State) (k l x i : Nat) : Fmt := fmtOf (bits (s.recd k l x 0x1E4 8) (4 * i + 3) (4 * i))
def State.mapEntry (s : State) (k l x j : Nat) : Nat := bits (s.recd k l x 0x1C0 10) (5 * j + 4) (5 * j)
def State.clearBits (s : State) (k l x : Nat) : Nat := s.recd k l x 0x1CA 2
def State.weight (s : State) (k l x : Nat) : Nat := s.recd k l x 0x1CC 1
def State.sinkCount (s : State) (k l x : Nat) : Nat := s.recd k l x 0x1CD 1
def State.pall (s : State) (k l x : Nat) : Bool := bit (s.recd k l x 0x1CE 1) 0
def State.seed (s : State) (k l x : Nat) : Nat := s.recd k l x 0x1D0 4
def State.ringOfClass (s : State) (k l x n : Nat) : Nat := bits (s.recd k l x 0x1D4 8) (4 * n + 3) (4 * n)
def State.cwin (s : State) (k l x n : Nat) : Nat := bits (s.recd k l x 0x1DC 8) (4 * n + 3) (4 * n)

/-- Ring entry (R157) of a lead core: address, slots, slot bytes. -/
def State.ringEntry (s : State) (lead r : Nat) : Nat × Nat × Nat :=
  let a := ringBase lead + 16 + 16 * r
  (Memory.readNat s.mem a 4, Memory.readNat s.mem (a + 4) 1, 64 * Memory.readNat s.mem (a + 5) 1)
def State.ringCount (s : State) (lead : Nat) : Nat := Memory.readNat s.mem (ringBase lead) 2
def State.barrierCount (s : State) (lead : Nat) : Nat := Memory.readNat s.mem (ringBase lead + 2) 2
/-- Barrier entry (R157): address, arrreset, notify agent, class/cfg/port byte. -/
def State.barrierEntry (s : State) (lead t : Nat) : Nat × Nat × Nat × Nat :=
  let a := ringBase lead + 16 + 240 + 16 * t
  (Memory.readNat s.mem a 4, Memory.readNat s.mem (a + 4) 4, Memory.readNat s.mem (a + 8) 2, Memory.readNat s.mem (a + 10) 1)

/-- History descriptor (R156): area base and size, and the word of settings. -/
def State.histArea (s : State) (k h : Nat) : Nat × Nat := (Memory.readNat s.mem (histBase k + 32 * h) 4, Memory.readNat s.mem (histBase k + 32 * h + 4) 4)
def State.histWord (s : State) (k h : Nat) : Nat := Memory.readNat s.mem (histBase k + 32 * h + 8) 4
def hdEn (w : Nat) : Bool := bit w 28
def hdAc (w : Nat) : Bool := bit w 27
def hdHp (w : Nat) : Nat := bits w 26 25
def hdPj (w : Nat) : Bool := bit w 24
def hdPartner (w : Nat) : Nat := bits w 23 20
def hdReaders (w : Nat) : Nat := bits w 19 12
def hdInfn (w : Nat) : Nat := bits w 11 9
def hdB (w : Nat) : Nat := bits w 8 4
def hdW (w : Nat) : Nat := bits w 3 0

/-- The 256 bytes of a routine store (R149), and the instruction at a halfword of it with its length. -/
def State.routine (s : State) (k l x : Nat) : List Byte := Memory.readN s.mem (cfgBase k l x) 256
def State.fetchCell (s : State) (k l x h : Nat) : Except DecodeError (Instr × Nat) :=
  decodeCell (Memory.readN s.mem (cfgBase k l x + 2 * h) (if h < 127 then 4 else 2))

/-- The instructions of a routine from a halfword offset to its END (R11: at most 48), as the validator reads them. -/
def State.routineFrom (s : State) (k l x : Nat) : Nat → Nat → List Instr
  | 0, _ => []
  | f + 1, h =>
    if 128 ≤ h then [] else
    match s.fetchCell k l x h with
    | .ok (i, n) => i :: (if cellOp i = 0x45 then [] else s.routineFrom k l x f (h + n))
    | .error _ => []

/-! ## Regions, partitions, nodes -/

def Region.has (r : Region) (core : Nat) : Bool :=
  isleOf core == isleOf r.lead && decide (xOf r.lead ≤ xOf core) && decide (xOf core < xOf r.lead + r.w)
    && decide (yOf r.lead ≤ yOf core) && decide (yOf core < yOf r.lead + r.h) && decide (core < managerCore)

def State.regionAt (s : State) (core : Nat) : Option Region := s.regions.find? (fun r => r.has core)
/-- The lead core of the region that holds a core; a core of no region leads itself. -/
def State.leadOf (s : State) (core : Nat) : Nat := ((s.regionAt core).map (·.lead)).getD core
def State.modRegion (s : State) (lead : Nat) (f : Region → Region) : State :=
  { s with regions := s.regions.map (fun r => if r.lead = lead then f r else r) }
/-- The cores of a region in core-number order. -/
def Region.coreList (r : Region) : List Nat := (List.range 64).filterMap (fun c =>
  let k := isleOf r.lead * 64 + c
  if r.has k then some k else none)
/-- Region handle: the agent id of the lead core's RC port (R319). -/
def regionHandle (lead : Nat) : Nat := agentId lead 48

/-- The partition that holds an isle; 16 where there is none (the manager's queue). -/
def State.partAt (s : State) (core : Nat) : Nat :=
  ((s.parts.find? (fun p => p.2.live && bit p.2.isles (isleOf core))).map (·.1)).getD 16
/-- The supervisor core of a partition: core 63 of its lowest isle (R305). -/
def Part.supervisor (p : Part) : Nat := (((List.range 16).find? (fun i => bit p.isles i)).getD 0) * 64 + 63
def State.stageAt (s : State) (core : Nat) : Nat := ((s.regionAt core).map (·.stage)).getD 0
/-- Handle of a node (R265, R266). -/
def State.nodeHandle (s : State) (n : Nat) : Nat := ((aget s.nodes n).map (·.handle)).getD 0
/-- The node whose region holds a core. -/
def State.nodeAt (s : State) (core : Nat) : Option (Nat × Node) :=
  (s.regionAt core).bind (fun r => (aget s.nodes r.node).map (fun n => (r.node, n)))

/-! ## Records (R317 to R319, R341, R342) -/

/-- Severities that the grid gives (R344 to R349): 0 info, 1 held-recoverable, 2 terminating, 3 fatal. -/
def gridSev (cause : Nat) : Nat :=
  if cause ∈ [0x01E, 0x02E, 0x058, 0x0E6, 0x0F6, 0x0BE, 0x11C, 0x11E, 0x125, 0x12B, 0x12C, 0x161, 0x166, 0x176, 0x17D] then 0
  else if cause ∈ [0x05E, 0x060, 0x061, 0x062, 0x063, 0x064, 0x0A7, 0x11F, 0x12F] then 1
  else if cause ∈ [0x15F, 0x167, 0x16F, 0x177] then 3
  else 2

/-- The source of a record: an agent id, or a unit of a die (kinds 4 to 6 of R341). -/
def unitKey (kind die inst : Nat) : Nat := 65536 + kind * 1024 + inst * 4 + die

/-- An event queue: a partition's, or 16 the manager's. -/
def State.queue (s : State) (q : Nat) : Queue := if q = 16 then s.mgrQueue else (s.part q).queue

/-- The queue's counters, at its base: tail, head, lost. -/
def State.queueWord (s : State) (q : Queue) (i : Nat) : Nat := Memory.readNat s.mem (spadBase q.core + q.base + 4 * i) 4

/-- The number that the next record of a source takes. -/
def State.nextSeq (s : State) (source : Nat) : Nat := (aget s.seqs source).getD 0

/-- A queue has no room for another record: the holding area of an unset one is full, or tail - head equals the entries of a set one (R317, R318). -/
def State.noRoom (s : State) (n : Nat) : Bool :=
  let q := s.queue n
  if q.isSet then decide (q.entries ≤ (s.queueWord q 0 + 2 ^ 32 - s.queueWord q 1) % 2 ^ 32) else decide (16 ≤ q.kept.length)

/-- The queue of a record that no one can read any more: its partition has ended. -/
def State.queueGone (s : State) (n : Nat) : Bool := n != 16 && !(s.part n).live

/-- A source is held: its oldest record waits for room (R317, R318). -/
def State.sourceHeld (s : State) (source : Nat) : Bool :=
  match s.posts.find? (fun e => e.source == source) with
  | some e => !e.mayLose && !s.queueGone e.queue && s.noRoom e.queue
  | none => false

/-- Post a record: it takes its source's next sequence number and waits for EVENT_POST to bring it to its queue (R317, R319). -/
def State.post (s : State) (queue kind source die : Nat) (body : List Byte) (mayLose : Bool) : State :=
  let n := s.nextSeq source
  { s with seqs := aset s.seqs source (n + 1),
           posts := s.posts ++ [⟨queue, kind, source, die, n, s.time, (body ++ List.replicate 16 0).take 16, mayLose⟩] }

/-- Bytes 0x10 to 0x1F of a fault record (R341). -/
def faultBody (cause sev kind stage detail agent addr tag : Nat) : List Byte :=
  leBytes 4 (cause + sev * 2 ^ 9 + kind * 2 ^ 11 + stage * 2 ^ 14 + detail * 2 ^ 18) ++ leBytes 2 agent ++ leBytes 2 (addr / 2 ^ 32) ++ leBytes 4 addr ++ leBytes 4 tag

/-- A fault of an agent of a core: severity, source kind, agent's local id, cause, address, detail, tag or counters (R341, R342). -/
def State.postFault (s : State) (sev kind core loc cause addr detail tag : Nat) : State :=
  let q := if sev = 3 then 16 else s.partAt core
  s.post q 0 (agentId core loc) (dieOf core) (faultBody cause sev kind (s.stageAt core) detail (agentId core loc) addr tag) (sev == 0)

/-- A fault of a unit of a die: walker, controller, seal unit, link port or system unit (kinds 4 to 6). -/
def State.postUnit (s : State) (queue sev kind die inst cause addr detail tag : Nat) : State :=
  s.post (if sev = 3 then 16 else queue) 0 (unitKey kind die inst) die (faultBody cause sev kind 0 detail (die + inst * 4) addr tag) (sev == 0)

/-- Tag field of a fault record (R341). -/
def tagWord (iter : W16) (frame cfg cls : Nat) : Nat := iter.toNat * 2 ^ 16 + frame * 2 ^ 6 + cfg * 2 ^ 4 + cls

end Sys2Proof.Machine
end

