-- ==== Sys2Proof/Machine/Flags.lean ====
section
/-! DEFINITION. The marks that a result carries: valid bits, poison and origin (R15, R47, R159), and the tag classes that sources must meet (R158). -/

namespace Sys2Proof.Machine

/-- Origin of R14: that of the first poisoned operand in operand order, 0 if none is. -/
def originOf (ops : List Reg) : Nat := ((ops.find? (fun r => r.p)).map (·.origin)).getD 0

/-- Poison of a result (R15). -/
def poisonOf (ops : List Reg) (exc : Bool) : Bool := ops.any (fun r => r.p) || exc

/-- Origin of a result (R15): an operand's, else the agent where the exceptional result arose. -/
def resultOrigin (agent : Nat) (ops : List Reg) (exc : Bool) : Nat := if ops.any (fun r => r.p) then originOf ops else if exc then agent else 0

/-- Lane i of a register, its valid bit. -/
def laneOf (r : Reg) (i : Nat) : Nat := (r.data.getD i 0).toNat
def okAt (r : Reg) (i : Nat) : Bool := r.valid.getLsbD i
/-- Element i: the low w bits of its lane (R160). -/
def elemOf (r : Reg) (i : Nat) : Nat := laneOf r i % 2 ^ fmtWidth r.fmt

/-- Sixteen valid bits. -/
def maskOf (f : Nat → Bool) : W16 := BitVec.ofNat 16 ((List.range 16).foldl (fun a i => a + Bool.nat (f i) * 2 ^ i) 0)

/-- A register from lanes given by number; an invalid lane holds zero. -/
def mkReg (fmt : Fmt) (xs : Nat) (p : Bool) (origin : Nat) (lane : Nat → Option Nat) : Reg where
  data := (List.range 16).map (fun i => BitVec.ofNat 32 ((lane i).getD 0))
  valid := maskOf (fun i => (lane i).isSome)
  fmt := fmt
  p := p
  origin := if p then origin else 0
  xs := xs

/-- Every lane valid. -/
def fullReg (fmt : Fmt) (f : Nat → Nat) : Reg := mkReg fmt 0 false 0 (fun i => some (f i))

/-- The lane frame of R15: Op where every operand is valid, its exceptional lanes poisoning the result. -/
def laneFrame (agent : Nat) (ops : List Reg) (fmt : Fmt) (xs : Nat) (op : Nat → Nat × Bool) : Reg :=
  let res := (List.range 16).map (fun i => if ops.all (fun r => okAt r i) then some (op i) else none)
  let exc := res.any (fun r => match r with | some q => q.2 | none => false)
  mkReg fmt xs (poisonOf ops exc) (resultOrigin agent ops exc) (fun i => (res.getD i none).map (·.1))

/-- A source's tag is of an accepted class, else operand format mismatch (R158). -/
def need (p : Fmt → Bool) (r : Reg) : Except Nat Unit := if p r.fmt then .ok () else .error 0x00B

/-- Two value sources carry the same tag (R158). -/
def sameTag (a b : Reg) : Except Nat Unit := if a.fmt = b.fmt then .ok () else .error 0x00B

def isFI (f : Fmt) : Bool := isF f || isI f
def isFMX (f : Fmt) : Bool := isF f || isMX f
def isFIMX (f : Fmt) : Bool := isF f || isI f || isMX f
def isAny (f : Fmt) : Bool := f != .none

end Sys2Proof.Machine
end

