-- ==== Sys2Proof/Machine/Spad.lean ====
section
/-! DEFINITION. Scratchpad accesses: windows, bounds and alignment (R82 to R86), agents, clearance sets and the race checker (R88, R94 to R98, R103),
loads, stores and atomics (R90, R98 to R101, R189). -/

namespace Sys2Proof.Machine

/-- Why an access does not perform: the cause, the faulting address, and the detail field (R341); `posted` says that its records are posted (R86). -/
structure Fail where
  cause  : Nat
  addr   : Nat := 0
  detail : Nat := 0
  posted : Bool := false
  deriving DecidableEq, Repr, Inhabited

/-- The outcome of an access: the state, which a straddle may have changed before it failed (R85), and the result or the failure. -/
abbrev Did (β : Type) := State × Except Fail β

/-! ## Agents and clearance (R95, R103) -/

/-- An agent that makes an access: its key, its ordering count and its clearance set; `multi` says that the access is a member's copy of a multicast
store (R86). -/
structure Agent where
  key   : AgentKey
  oc    : Nat
  clr   : Clr
  multi : Bool := false

def Clr.get (c : Clr) (k : AgentKey) : Nat := ((c.find? (fun e => e.1 = k)).map (·.2)).getD 0

/-- The larger count of one entry. -/
def Clr.raise (c : Clr) (k : AgentKey) (n : Nat) : Clr :=
  if c.any (fun e => e.1 = k) then c.map (fun e => if e.1 = k then (k, max e.2 n) else e) else c ++ [(k, n)]

/-- Merge, entry by entry, taking the larger count (R103). -/
def Clr.merge (a b : Clr) : Clr := b.foldl (fun c e => Clr.raise c e.1 e.2) a

def State.ord (s : State) (k h : Nat) : Ord := (aget (s.core k).ords h).getD {}
def State.setOrd (s : State) (k h : Nat) (o : Ord) : State := s.modCore k (fun c => { c with ords := aset c.ords h o })

/-- The agent of a handle of a core (R88). -/
def State.agent (s : State) (k h : Nat) : Agent := let o := s.ord k h; { key := ⟨0, k, h⟩, oc := o.oc, clr := o.clr }

/-- A release: the count rises, and the set that it carries holds the agent itself at the new count (R95, R103). -/
def State.release (s : State) (k h : Nat) : State × Clr :=
  let o := s.ord k h
  (s.setOrd k h { o with oc := o.oc + 1 }, Clr.raise o.clr ⟨0, k, h⟩ (o.oc + 1))

/-- An acquire: the agent merges a set; a seventeenth entry beside the memory cells of its core is EXHAUST (R103). -/
def State.acquire (s : State) (k h : Nat) (c : Clr) : Did Unit :=
  let o := s.ord k h
  let m := Clr.merge o.clr (c.filter (fun e => e.1 ≠ (⟨0, k, h⟩ : AgentKey)))
  if 16 < (m.filter (fun e => !(e.1.route == 0 && e.1.core == k && decide (e.1.handle < 8)))).length then (s, .error ⟨0x056, 0, 0, false⟩)
  else (s.setOrd k h { o with clr := m }, .ok ())

/-- The entries of a set that count toward the 16 that an agent of a core has (R103). -/
def Clr.wide (c : Clr) (k : Nat) : Nat := (c.filter (fun e => !(e.1.route == 0 && e.1.core == k && decide (e.1.handle < 8)))).length

/-- The records that a set covers count as ordered before every later access. -/
def State.settleSet (s : State) (c : Clr) : State :=
  let old (r : AccRec) : Bool := decide (Clr.get c r.key ≤ r.count)
  { s with cores := s.cores.map (fun e => (e.1, { e.2 with words := e.2.words.map (fun w => (w.1, { w.2 with writes := w.2.writes.filter old, reads := w.2.reads.filter old })) })) }

/-- How an RC takes the set that the end of a collective or of nodes has released, which may hold more agents than it has entries (log 111): whole, where the
merge needs no new entry or leaves one free; otherwise the agents of its own core enter its set, and the records that the rest covers settle. -/
def State.takeSet (s : State) (k : Nat) (c : Clr) : State × Clr :=
  let had := (s.ord k 8).clr
  let n := Clr.wide (Clr.merge had (c.filter (fun e => e.1 ≠ (⟨0, k, 8⟩ : AgentKey)))) k
  if n < 16 ∨ n = Clr.wide had k then (s, c) else (s.settleSet c, c.filter (fun e => e.1.route == 0 && e.1.core == k))

/-! ## The race checker (R94 to R98) -/

/-- An earlier record is ordered before the agent's access (R95, R103). -/
def Agent.after (a : Agent) (r : AccRec) : Bool := a.key = r.key || decide (r.count < Clr.get a.clr r.key)

/-- Two atomics of the same size and scope never race (R94, R98). -/
def sameAtomic (kind size scope : Nat) (r : AccRec) : Bool := kind == 2 && r.kind == 2 && r.size == size && r.scope == scope

/-- Accesses of one class: of one agent, kind, size and scope. -/
def AccRec.sameClass (r q : AccRec) : Bool := r.key == q.key && r.kind == q.kind && r.size == q.size && r.scope == q.scope

/-- The first record that an access to a word races with; `writes` says that the access writes. -/
def raceWith (a : Agent) (writes : Bool) (kind size scope : Nat) (w : WordRec) : Option AccRec :=
  (w.writes ++ (if writes then w.reads else [])).find? (fun r => !(a.after r) && !(sameAtomic kind size scope r))

/-- The word's records in the current phase: those of an earlier phase are ordered before every access (R95). -/
def Core.wordRec (c : Core) (w : Nat) : WordRec :=
  match aget c.words w with
  | some r => if r.phase = c.rphase then r else { phase := c.rphase }
  | none => { phase := c.rphase }

/-- The records after an access that races with none of them (R95: the checker detects every race). A plain write is ordered after every record, and stands
for all of them. An atomic that writes is exempt from atomics of its size and scope, so that it stands only for those of them that it is ordered after: a
later atomic of that size and scope may still race with any other record. A read replaces its agent's read of the same class. -/
def noteAccess (a : Agent) (writes : Bool) (kind size scope : Nat) (w : WordRec) : WordRec :=
  let r : AccRec := { key := a.key, count := a.oc, kind := kind, size := size, scope := scope, multi := a.multi }
  let open' (q : AccRec) : Bool := kind == 2 && !(sameAtomic kind size scope q && a.after q)
  if writes then { w with writes := r :: w.writes.filter open', reads := w.reads.filter open' }
  else { w with reads := w.reads.filter (fun q => !(r.sameClass q)) ++ [r] }

/-- Check and record an access to words of a core: the first racing word with its earlier record, or the core with its records (R96: nothing is
performed when any word races). -/
def Core.check (c : Core) (a : Agent) (writes : Bool) (kind size scope : Nat) (ws : List Nat) : Except (Nat × AccRec) Core :=
  match ws.findSome? (fun w => (raceWith a writes kind size scope (c.wordRec w)).map (fun r => (w, r))) with
  | some r => .error r
  | none => .ok { c with words := ws.foldl (fun m w => aset m w (noteAccess a writes kind size scope (c.wordRec w))) c.words }

/-- A word lies in the area of a history that a region's configuration enables (R126). -/
def State.inArea (s : State) (k w : Nat) : Bool :=
  isKeyed k && (s.regionAt k).isSome && (List.range 16).any (fun h => hdEn (s.histWord k h) && (let a := s.histArea k h; decide (a.1 ≤ 4 * w) && decide (4 * w < a.1 + a.2)))

/-- The check of an access to words of a core: an access to a history's area races with the history unit, handle 11 (R88, R126). -/
def State.check (s : State) (k : Nat) (a : Agent) (writes : Bool) (kind size scope : Nat) (ws : List Nat) : Except (Nat × AccRec) Core :=
  match ws.find? (s.inArea k) with
  | some w => .error (w, { key := ⟨0, k, 11⟩, count := 0, kind := 1 })
  | none => (s.core k).check a writes kind size scope ws

/-- Detail field of MEMORY_RACE (R341): handle, access type, count; an agent of another core and a multicast copy have handle 13 (R86, R88). -/
def raceDetail (core : Nat) (r : AccRec) : Nat :=
  (if r.key.route = 0 ∧ r.key.core = core ∧ !r.multi then r.key.handle else 13) * 2 ^ 10 + r.kind * 2 ^ 8 + r.count % 256

def raceFail (core : Nat) (r : Nat × AccRec) : Fail := ⟨0x055, r.1 * 4, raceDetail core r.2, false⟩

/-- The words that n bytes from an offset touch. -/
def wordsOf (off n : Nat) : List Nat := (List.range ((off + n + 3) / 4 - off / 4)).map (fun i => off / 4 + i)

/-- The words in which a mask writes. -/
def wordsMasked (off : Nat) (mask : List Byte) : List Nat :=
  (wordsOf off mask.length).filter (fun w => (List.range 4).any (fun i => decide (off ≤ 4 * w + i) && (mask.getD (4 * w + i - off) 0 != 0)))

/-! ## Windows (R82 to R86) -/

/-- One half of an access: its core, offset, length. -/
structure Half where
  core : Nat
  off  : Nat
  n    : Nat
  deriving DecidableEq, Repr

/-- Where an access of n bytes goes, or its fault (R82, R83, R85); `token` allows the straddle. The manager controller is of no isle: its isle window names
no core (log 8). An access that is both out of bounds and misaligned is reported as out of bounds: DESIGN CHOICE, R83 gives no order (log 90). -/
def halves (k addr n align : Nat) (token : Bool) : Except Fail (List Half) :=
  match addr / 2 ^ 28 with
  | 0 =>
    if spadSize k < addr + n then .error ⟨0x041, addr, 0, false⟩
    else if addr % align ≠ 0 then .error ⟨0x042, addr, 0, false⟩ else .ok [⟨k, addr, n⟩]
  | 1 =>
    let t := isleOf k * 64 + bits addr 27 22
    let off := addr % 2 ^ 22
    if managerCore ≤ k then .error ⟨0x04C, addr, 0, false⟩
    else if token && isKeyed t && decide (0x400000 < off + n) && decide (off < 0x400000) then
      if t % 64 = 63 then .error ⟨0x049, addr, 0, false⟩
      else if addr % align ≠ 0 then .error ⟨0x04A, addr, 0, false⟩
      else .ok [⟨t, off, 0x400000 - off⟩, ⟨t + 1, 0, off + n - 0x400000⟩]
    else if spadSize t < off + n then .error ⟨0x049, addr, 0, false⟩
    else if addr % align ≠ 0 then .error ⟨0x04A, addr, 0, false⟩ else .ok [⟨t, off, n⟩]
  | 2 => .error ⟨0x04C, addr, 0, false⟩
  | _ => .error ⟨0x044, addr, 0, false⟩

/-! ## Loads and stores -/

/-- Bytes read from a core's scratchpad by an agent: the race checker first (R96). The second part says, byte by byte, that the line is marked
discarded (R325). -/
def State.loadAt (s : State) (a : Agent) (h : Half) : Did (List Byte × List Bool) :=
  match s.check h.core a false 0 0 0 (wordsOf h.off h.n) with
  | .error r => (s, .error (raceFail h.core r))
  | .ok c => (s.setCore h.core c, .ok (Memory.readN s.mem (spadBase h.core + h.off) h.n,
      (List.range h.n).map (fun i => c.discard.contains ((h.off + i) / 64))))

/-- The marks left after a store: the lines that it touches are no longer discarded (R325). -/
def Core.touchLines (c : Core) (ws : List Nat) : Core :=
  { c with discard := c.discard.filter (fun l => !(ws.any (fun w => w / 16 == l))), sync := c.sync.filter (fun e => !(ws.contains e.1)) }

/-- Masked bytes written to a core's scratchpad by an agent (R189 item 2). -/
def State.storeAt (s : State) (a : Agent) (core off : Nat) (bytes mask : List Byte) : Did Unit :=
  let ws := wordsMasked off mask
  match s.check core a true 1 0 0 ws with
  | .error r => (s, .error (raceFail core r))
  | .ok c => ({ s.setCore core (c.touchLines ws) with mem := Memory.writeMasked s.mem (spadBase core + off) bytes mask }, .ok ())

/-- A 128-bit atomic update or read of isle scope by the barrier or ring logic for an agent, as the race checker sees it (R110, R196). -/
def State.touch16 (s : State) (a : Agent) (core off : Nat) (writes : Bool) : Did Unit :=
  match s.check core a writes 2 16 1 (wordsOf off 16) with
  | .error r => (s, .error (raceFail core r))
  | .ok c => (s.setCore core c, .ok ())

/-- A load of n bytes at a scratchpad address. The halves of a straddle perform one after the other (R85). -/
def State.load (s : State) (a : Agent) (k addr n align : Nat) (token : Bool) : Did (List Byte × List Bool) :=
  match halves k addr n align token with
  | .error f => (s, .error f)
  | .ok hs => hs.foldl (fun acc h =>
      match acc with
      | (s, .error f) => (s, .error f)
      | (s, .ok (b, d)) =>
        match s.loadAt a h with
        | (s, .error f) => (s, .error { f with detail := if f.cause = 0x055 then f.detail else hs.idxOf h })
        | (s, .ok (b', d')) => (s, .ok (b ++ b', d ++ d'))) (s, .ok ([], []))

/-- The cores of a multicast group of an isle (R86, R313). -/
def State.groupCores (s : State) (k g : Nat) : List Nat :=
  ((List.range 64).filter (fun c => ((s.isle (isleOf k)).mcg.getD g 0).getLsbD c)).map (fun c => isleOf k * 64 + c)

/-- Source kind of an agent handle in a fault record (R341): a memory cell's port, the RC, an engine. -/
def handleKind (h : Nat) : Nat := if h < 8 then 3 else if h = 8 then 1 else 2

/-- A store through the multicast window (R86): each member's copy is one access of handle 13; the racing members each raise a record, and the others
perform. A misaligned one faults with the isle window's cause, after the bounds: DESIGN CHOICE, R83 names causes for the local and isle windows only
(log 90). -/
def State.storeGroup (s : State) (a : Agent) (k addr : Nat) (bytes mask : List Byte) (align : Nat) : Did Unit :=
  let ms := s.groupCores k (bits addr 27 24)
  let off := addr % 2 ^ 24
  if ms = [] then (s, .ok ())
  else if (if ms.any (fun m => !isKeyed m) then 0x180000 else 0x400000) < off + bytes.length then (s, .error ⟨0x049, addr, 0, false⟩)
  else if off % align ≠ 0 then (s, .error ⟨0x04A, addr, 0, false⟩)
  else ms.foldl (fun acc m =>
    match acc.1.storeAt { a with multi := true } m off bytes mask with
    | (s, .ok _) => (s, acc.2)
    | (s, .error f) => (s.postFault 2 (handleKind a.key.handle) m (handleLoc a.key.handle) 0x055 f.addr f.detail 0, match acc.2 with | .error e => .error e | .ok _ => .error { f with posted := true })) (s, .ok ())

/-- A store of masked bytes at a scratchpad address. -/
def State.store (s : State) (a : Agent) (k addr : Nat) (bytes mask : List Byte) (align : Nat) (token : Bool) : Did Unit :=
  if addr / 2 ^ 28 = 2 then s.storeGroup a k addr bytes mask align
  else match halves k addr bytes.length align token with
  | .error f => (s, .error f)
  | .ok hs => (hs.foldl (fun (acc : Did Nat) h =>
      match acc with
      | (s, .error f) => (s, .error f)
      | (s, .ok p) =>
        match s.storeAt a h.core h.off ((bytes.drop p).take h.n) ((mask.drop p).take h.n) with
        | (s, .error f) => (s, .error { f with detail := if f.cause = 0x055 then f.detail else hs.idxOf h })
        | (s, .ok _) => (s, .ok (p + h.n))) ((s, .ok 0) : Did Nat)).map id (fun r => r.map (fun _ => ()))

/-! ## Atomics (R98 to R101, R192, R243) -/

/-- The new value of an atomic operation on n bytes (R140, R192): 0 load … 9 compare-and-swap. -/
def atomicNew (op n old x cmp : Nat) : Option Nat :=
  let w := 8 * n
  let sg (v : Nat) : Int := signExt w v
  match op with
  | 0 => none
  | 1 => some x
  | 2 => some x
  | 3 => some ((old + x) % 2 ^ w)
  | 4 => some (if sg x < sg old then x else old)
  | 5 => some (if sg old < sg x then x else old)
  | 6 => some (old &&& x)
  | 7 => some (old ||| x)
  | 8 => some (old ^^^ x)
  | _ => if old = cmp then some x else none

/-- A scope (0 core, 1 isle, 2 device, 3 domain) covers two agents or cores, given by route tag and core (R99). -/
def covers (scope r1 c1 r2 c2 : Nat) : Bool :=
  match scope with
  | 0 => r1 == r2 && c1 == c2
  | 1 => r1 == r2 && isleOf c1 == isleOf c2
  | 2 => r1 == r2
  | _ => true

/-- An atomic on a word of a core by an agent (R100, R101): the old value, and the sets that its reading gives the agent when it acquires. A compare-and-swap
that fails writes nothing (R192) and counts as a read.
`rel` is the set that it releases, if it does. A release that finds no free slot is EXHAUST (R103). -/
def State.atomicAt (s : State) (a : Agent) (core off n op x cmp scope : Nat) (rel : Option Clr) : Did (Nat × Clr) :=
  let ws := wordsOf off n
  let old := Memory.readNat s.mem (spadBase core + off) n
  match s.check core a (atomicNew op n old x cmp).isSome 2 n scope ws with
  | .error r => (s, .error (raceFail core r))
  | .ok c =>
    let got : Clr := match aget c.sync (off / 4) with
      | some y => if covers y.scope y.route y.core a.key.route a.key.core && covers scope y.route y.core a.key.route a.key.core then y.clr else []
      | none => []
    match atomicNew op n old x cmp with
    | none => (s.setCore core c, .ok (old, got))
    | some v =>
      let had := aget c.sync (off / 4)
      let c := c.touchLines ws
      let fin (c : Core) : State := { s.setCore core c with mem := Memory.writeN s.mem (spadBase core + off) (leBytes n v) }
      match rel with
      | none => (fin c, .ok (old, got))
      | some r =>
        if had.isNone && decide (64 ≤ c.sync.length) then (s, .error ⟨0x056, off, 0, false⟩)
        else (fin { c with sync := aset c.sync (off / 4) ⟨Clr.merge ((had.map (·.clr)).getD []) r, scope, a.key.route, a.key.core⟩ }, .ok (old, got))

/-- The order part of an atomic by a local agent (R100): what it releases, and what it acquires afterwards. order: [0] acq, [1] rel. -/
def State.atomicBy (s : State) (k h core off n op x cmp order scope : Nat) : Did Nat :=
  let (s1, rel) : State × Option Clr :=
    if order / 2 % 2 = 1 then (let r := s.release k h; (r.1, some r.2)) else (s, (s.ord k h).frel)
  match s1.atomicAt (s.agent k h) core off n op x cmp scope rel with
  | (_, .error f) => (s, .error f)
  | (s2, .ok (old, got)) =>
    if order % 2 = 1 then
      match s2.acquire k h got with
      | (s3, .ok _) => (s3, .ok old)
      | (_, .error f) => (s, .error f)
    else (s2.setOrd k h { s2.ord k h with seen := Clr.merge (s2.ord k h).seen got }, .ok old)

/-- A fence (R100, R193, R244). order: [0] acq, [1] rel. -/
def State.fence (s : State) (k h order : Nat) : Did Unit :=
  let s1 := if order / 2 % 2 = 1 then (let r := s.release k h; r.1.setOrd k h { r.1.ord k h with frel := some r.2 }) else s
  if order % 2 = 1 then
    match s1.acquire k h (s1.ord k h).seen with
    | (s2, .ok _) => (s2.setOrd k h { s2.ord k h with seen := [] }, .ok ())
    | (_, .error f) => (s, .error f)
  else (s1, .ok ())

end Sys2Proof.Machine
end

