-- ==== Sys2Proof/Machine/Tokens.lean ====
section
/-! DEFINITION. Tokens on edges and at ports (R27 to R35, R49, R177, R178), the marks that poison leaves at sinks (R79, R189), transaction barriers
(R110 to R112), ring state words (R196), and calls' frames (R69, R186). -/

namespace Sys2Proof.Machine

/-! ## Edges -/

/-- The key of an edge: agent and edge number; 0 is no edge. -/
def edgeKey (k l x e : Nat) : Nat := ((k * 64 + l) * 4 + x) * 8 + e + 1

/-- The source key of a reply of LDE at a port: local id 63 names no agent. -/
def replyKey (k x p : Nat) : Nat := ((k * 64 + 63) * 4 + x) * 8 + p + 1

/-- An edge of a cell (local id below 32), of the matrix result port (34), of a history port (36 to 39). -/
def State.edge (s : State) (k l x e : Nat) : Edge :=
  if l < 32 then (s.ctx k l x).edges.getD e {}
  else if l = 34 then (s.core k).matrix.edge
  else (s.core k).hpEdges.getD (l - 36) {}

def State.modEdge (s : State) (k l x e : Nat) (f : Edge → Edge) : State :=
  if l < 32 then s.modCtx k l x (fun c => { c with edges := c.edges.modify e f })
  else if l = 34 then s.modCore k (fun c => { c with matrix := { c.matrix with edge := f c.matrix.edge } })
  else s.modCore k (fun c => { c with hpEdges := c.hpEdges.modify (l - 36) f })

/-- An input port: of a cell's context, or A, B and mask of the matrix engine (local ids 32, 33, 35). -/
def matPortIx (l : Nat) : Nat := if l = 35 then 2 else l - 32
def State.port (s : State) (k l x p : Nat) : Port :=
  if l < 32 then (s.ctx k l x).ports.getD p {} else (s.core k).matrix.ports.getD (matPortIx l) {}
def State.modPort (s : State) (k l x p : Nat) (f : Port → Port) : State :=
  if l < 32 then s.modCtx k l x (fun c => { c with ports := c.ports.modify p f })
  else s.modCore k (fun c => { c with matrix := { c.matrix with ports := c.matrix.ports.modify (matPortIx l) f } })

/-- The word of the port that an agent's input has: a cell's port, or the engine's. -/
def State.inWord (s : State) (k l x p : Nat) : Nat := if l < 32 then s.portWord k l x p else s.portWord k l x (matPortIx l)

/-- Where an edge's route word leads: core, local id, context, port (R152). -/
structure Dest where
  core : Nat
  loc  : Nat
  ctx  : Nat
  port : Nat
  deriving DecidableEq, Repr

def destOf (w : Nat) : Dest := ⟨ewDest w / 64, ewDest w % 64, ewDcfg w, ewDport w⟩

/-- Tokens that the matrix engine stages at its ports A, B and mask, which hold no credit: the largest k-step (R204, R214). -/
def stagedAt (loc : Nat) : Nat := if loc < 32 then 0 else if loc = 35 then 1 else 512

/-- Tokens of an edge that wait at its destination and still hold its credit. -/
def State.heldAt (s : State) (w key : Nat) : Nat :=
  let d := destOf w
  if ewRoute w ≠ 0 then 0
  else if d.loc < 36 then (((s.port d.core d.loc d.ctx d.port).fifo.drop (stagedAt d.loc)).filter (fun t => t.srcE = key)).length
  else if d.loc = 48 then ((s.rc d.core).extract.filter (fun t => t.1 = key)).length
  else 0

/-- Credits that DATA tokens may still reserve: one of the edge's is kept for an EOS (R61, R66). -/
def State.room (s : State) (k l x e : Nat) : Nat :=
  let w := s.edgeWord k l x e
  let g := s.edge k l x e
  ewCap w - 1 - (g.flight.length + s.heldAt w (edgeKey k l x e) + g.rsv + g.away)

def isMark (k : TKind) : Bool := k == .mark

/-- A token with the header fields that its edge gives it as it enters: cfg and route, B and xs by its place in the burst (R49, R178). -/
def Edge.stamp (g : Edge) (w : Nat) (t : Token) : Token :=
  let start := g.sent % ewBurst w == 0
  let xs := if t.kind = .data ∧ start ∧ isMX t.reg.fmt then t.reg.xs else 0
  { t with cfg := ewDcfg w, route := ewRoute w, b := t.kind == .data && start, reg := { t.reg with xs := xs } }

/-- A token enters an edge: an EOS or MARK restarts the burst count (R178). -/
def State.enter (s : State) (k l x e : Nat) (t : Token) : State :=
  let w := s.edgeWord k l x e
  s.modEdge k l x e (fun g => { g with
    flight := g.flight ++ [g.stamp w t],
    sent := if t.kind = .data then g.sent + 1 else 0,
    first := if t.kind = .data then (if g.sent % ewBurst w = 0 then some (t.frame, t.iter, t.cls) else g.first) else none })

/-- An EOS token (R31). -/
def eosToken (frame : Nat) (iter : W16) : Token := ⟨Reg.empty, 0, false, .eos, iter, frame, 0, 0⟩

/-- An EOS that a cell, a matrix engine or a history port sends of itself (R66, R205, R291): no rule gives its frame and iter, which are free (log 38). -/
def State.freeEos (s : State) : Token × State :=
  let f := s.free
  let g := f.2.free
  (eosToken (f.1 % 1024) (BitVec.ofNat 16 g.1), g.2)

/-- A MARK token of a subkind (R31). -/
def markToken (r : Reg) (sub frame : Nat) (iter : W16) : Token := ⟨r, 0, false, .mark, iter, frame, 0, sub⟩

/-- A DATA token from a register (R178). -/
def dataToken (r : Reg) (cls frame : Nat) (iter : W16) : Token := ⟨r, 0, false, .data, iter, frame, 0, cls⟩

/-! ## Ports -/

/-- A token at a port: its position in its burst, and the burst's scale as its xs (R49); an EOS or MARK cuts the burst short (R178). -/
def Port.push (p : Port) (burst arr srcE : Nat) (t : Token) (acq : Clr) (host : List HostPub) : Port :=
  if t.kind = .data then
    let pos := if t.b then 0 else p.got
    let xs := if t.b then t.reg.xs else p.xs
    let t' : Token := { t with reg := { t.reg with xs := if isMX t.reg.fmt then xs else 0 } }
    { p with fifo := p.fifo ++ [⟨t', pos % 8, acq, arr, srcE, host⟩], got := (pos + 1) % burst, xs := xs }
  else { p with fifo := p.fifo ++ [⟨t, 0, acq, arr, srcE, host⟩], got := 0 }

/-- A token arrives at a port of a cell or engine, stamped with the order of its arrival. -/
def State.pushPort (s : State) (d : Dest) (srcE : Nat) (t : Token) (acq : Clr) (host : List HostPub) : State :=
  let burst := pwBurst (s.inWord d.core d.loc d.ctx d.port)
  if d.loc < 32 then
    let n := (s.cell d.core d.loc).arr
    (s.modCell d.core d.loc (fun c => { c with arr := n + 1 })).modPort d.core d.loc d.ctx d.port (fun p => p.push burst n srcE t acq host)
  else
    let n := (s.core d.core).matrix.arr
    (s.modCore d.core (fun c => { c with matrix := { c.matrix with arr := n + 1 } })).modPort d.core d.loc d.ctx d.port (fun p => p.push burst n srcE t acq host)

/-! ## Poison at sinks (R79, R119, R189) -/

/-- The region's poison register keeps the first origin since it was cleared, the phase its own (R79, R238). -/
def State.notePoison (s : State) (lead origin : Nat) : State :=
  s.modRc lead (fun r => { r with
    poison := if bit r.poison 16 then r.poison else 2 ^ 16 + origin,
    poisonP := if bit r.poisonP 16 then r.poisonP else 2 ^ 16 + origin })

/-- POISONED (R319): region handle, origin, sink. -/
def State.postPoisoned (s : State) (core sink origin : Nat) : State :=
  s.post (s.partAt core) 4 sink (dieOf core) (leBytes 2 (regionHandle (s.leadOf core)) ++ leBytes 2 origin ++ leBytes 2 sink) true

/-- A cell sink takes a poisoned token: the register, and POISONED as the pall bit selects (R153, R189 item 3). -/
def State.cellPoison (s : State) (k l x origin : Nat) : State :=
  let s1 := s.notePoison (s.leadOf k) origin
  if s.pall k l x || !(s.ctx k l x).posted then (s1.postPoisoned k (agentId k l) origin).modCtx k l x (fun c => { c with posted := true })
  else s1

/-! ## Events of the RC (R249) -/

/-- Latch an event bit of a region's RC. -/
def State.latch (s : State) (lead b : Nat) : State := s.modRc lead (fun r => { r with ev := r.ev ||| 2 ^ b })

/-! ## Transaction barriers (R110 to R112) -/

/-- A barrier's fields (R110). -/
structure Bar where
  phase    : Nat
  arrivals : Nat
  w        : Bool
  f        : Bool
  d        : Bool
  sectors  : Int
  arrreset : Nat
  owner    : Nat
  deriving DecidableEq, Repr

def Bar.read (m : Memory) (a : Nat) : Bar :=
  let v := Memory.readNat m a 16
  ⟨bits v 3 0, bits v 23 4, bit v 24, bit v 25, bit v 26, signExt 32 (bits v 63 32), bits v 83 64, bits v 111 96⟩

def Bar.word (b : Bar) : Nat :=
  b.phase + b.arrivals * 2 ^ 4 + Bool.nat b.w * 2 ^ 24 + Bool.nat b.f * 2 ^ 25 + Bool.nat b.d * 2 ^ 26 + cut 32 b.sectors * 2 ^ 32
    + b.arrreset * 2 ^ 64 + b.owner * 2 ^ 96

def Bar.write (m : Memory) (a : Nat) (b : Bar) : Memory := Memory.writeN m a (leBytes 16 b.word)

/-- The table index of the barrier at an offset of a lead core's scratchpad. -/
def State.barrierAt (s : State) (core off : Nat) : Option Nat :=
  (List.range (s.barrierCount core)).find? (fun t => (s.barrierEntry core t).1 = off)

/-- The barrier's set takes a release (R103, R112). -/
def State.tbMerge (s : State) (core off : Nat) (c : Clr) : State :=
  s.modCore core (fun co => { co with tbClr := aset co.tbClr off (Clr.merge ((aget co.tbClr off).getD []) c) })

/-- Completion is evaluated at an event (R111): at zero arrivals and sectors, with F and D clear, the phase rises, the arrivals reload, W clears, the
RC's event bit 2 latches, and the notify token goes to its port with the barrier's merged set. -/
def State.tbEval (s : State) (core off : Nat) (b : Bar) : State :=
  if b.arrivals = 0 ∧ b.sectors = 0 ∧ !b.f ∧ !b.d then
    let ph := (b.phase + 1) % 16
    let s1 := { s with mem := Bar.write s.mem (spadBase core + off) { b with phase := ph, arrivals := b.arrreset, w := false } }
    match s.barrierAt core off with
    | none => s1
    | some t =>
      let s2 := s1.latch core 2
      let e := s.barrierEntry core t
      if e.2.2.1 = 0xFFFF then s2
      else
        let z := e.2.2.2
        let r : Reg := ⟨BitVec.ofNat 32 ph :: BitVec.ofNat 32 off :: List.replicate 14 0, 3, .n32, false, 0, 0⟩
        s2.pushPort ⟨e.2.2.1 / 64, e.2.2.1 % 64, bits z 5 4, bits z 7 6⟩ (edgeKey core 48 0 0)
          { dataToken r (bits z 3 0) 0 (BitVec.ofNat 16 ph) with b := true, cfg := bits z 5 4 } ((aget (s.core core).tbClr off).getD []) []
  else { s with mem := Bar.write s.mem (spadBase core + off) b }

/-- One arrival (R111, R198): 0x075 when arrivals is zero; consumed without effect when F or D is set. -/
def State.tbArrive (s : State) (core off : Nat) (c : Clr) : Did Unit :=
  let b := Bar.read s.mem (spadBase core + off)
  if b.f || b.d then (s, .ok ())
  else if b.arrivals = 0 then (s, .error ⟨0x075, off, 0, false⟩)
  else ((s.tbMerge core off c).tbEval core off { b with arrivals := b.arrivals - 1 }, .ok ())

/-- n sectors landed, or expected where n is negative: the event, or 0x071 outside the range (R111). -/
def State.tbSectors (s : State) (core off : Nat) (n : Int) (c : Clr) : Did Unit :=
  let b := Bar.read s.mem (spadBase core + off)
  let v := b.sectors - n
  if v < -(2 ^ 31) ∨ 2 ^ 31 ≤ v then (s, .error ⟨0x071, off, 0, false⟩)
  else ((s.tbMerge core off c).tbEval core off { b with sectors := v }, .ok ())

/-! ## Rings (R196, R197) -/

/-- A ring's state word (R196). -/
structure RingSt where
  ready   : Nat
  taken   : Nat
  pending : Nat
  free    : Nat
  tail    : Nat
  head    : Nat
  deriving DecidableEq, Repr

/-- Offset of a ring's state word: directly after its last slot. -/
def State.ringWordAt (s : State) (lead r : Nat) : Nat := let e := s.ringEntry lead r; e.1 + e.2.1 * e.2.2

def State.ringSt (s : State) (lead r : Nat) : RingSt :=
  let v := Memory.readNat s.mem (spadBase lead + s.ringWordAt lead r) 16
  ⟨bits v 127 64, bits v 55 48, bits v 39 32, bits v 31 24, bits v 13 8, bits v 5 0⟩

def RingSt.word (t : RingSt) : Nat := t.head + t.tail * 2 ^ 8 + t.free * 2 ^ 24 + t.pending * 2 ^ 32 + t.taken * 2 ^ 48 + t.ready * 2 ^ 64

def State.setRing (s : State) (lead r : Nat) (t : RingSt) : State :=
  { s with mem := Memory.writeN s.mem (spadBase lead + s.ringWordAt lead r) (leBytes 16 t.word) }

/-- Set or clear one bit of a mask. -/
def setBit (v i : Nat) (b : Bool) : Nat := v - Bool.nat (bit v i) * 2 ^ i + Bool.nat b * 2 ^ i

def State.voidMask (s : State) (lead r : Nat) : Nat := (s.rc lead).voids.getD r 0

/-- A void slot at the head is freed before any taker: void clears, free rises, head advances (R196). No agent does
this, so the race checker records no access of the state word: DESIGN CHOICE, R196 names the update, not whose access it is (log 100). -/
def State.voidFree (s : State) (lead r : Nat) : State :=
  let t := s.ringSt lead r
  let n := (s.ringEntry lead r).2.1
  if bit (s.voidMask lead r) t.head then
    (s.setRing lead r { t with free := t.free + 1, head := (t.head + 1) % n }).modRc lead
      (fun c => { c with voids := c.voids.set r (setBit (s.voidMask lead r) t.head false) })
  else s

/-- Key of a ring slot's merged set. -/
def slotKey (r slot : Nat) : Nat := r * 64 + slot

def State.slotClr (s : State) (lead r slot : Nat) : Clr := (aget (s.core lead).ringClr (slotKey r slot)).getD []
def State.slotMerge (s : State) (lead r slot : Nat) (c : Clr) : State :=
  s.modCore lead (fun co => { co with ringClr := aset co.ringClr (slotKey r slot) (Clr.merge ((aget co.ringClr (slotKey r slot)).getD []) c) })

/-- The ring logic changes the ring's state word for an agent of a core: the race checker first (R110, R196). -/
def State.ringTouch (s : State) (k h lead r : Nat) : Did Unit := s.touch16 (s.agent k h) lead (s.ringWordAt lead r) true

/-- A consumer takes slot head once it is ready and not void (R196). -/
def State.ringTake (s : State) (lead r : Nat) : Option (Nat × State) :=
  let t := s.ringSt lead r
  let n := (s.ringEntry lead r).2.1
  if bit t.ready t.head && !bit (s.voidMask lead r) t.head then
    some (t.head, s.setRing lead r { t with ready := setBit t.ready t.head false, taken := t.taken + 1, head := (t.head + 1) % n })
  else none

/-- A producer reserves slot tail when one is free (R196). -/
def State.ringReserve (s : State) (lead r : Nat) : Option (Nat × State) :=
  let t := s.ringSt lead r
  let n := (s.ringEntry lead r).2.1
  if 0 < t.free then some (t.tail, s.setRing lead r { t with free := t.free - 1, pending := t.pending + 1, tail := (t.tail + 1) % n }) else none

/-- Publication (R196): pending falls, the slot is ready; the slot's set takes the producer's release. -/
def State.ringPublish (s : State) (lead r slot : Nat) (c : Clr) : State :=
  let t := s.ringSt lead r
  (s.setRing lead r { t with pending := t.pending - 1, ready := setBit t.ready slot true }).slotMerge lead r slot c

/-- A producer's slot becomes void (R183, R196). -/
def State.ringVoid (s : State) (lead r slot : Nat) : State :=
  let t := s.ringSt lead r
  (s.setRing lead r { t with pending := t.pending - 1 }).modRc lead (fun c => { c with voids := c.voids.set r (setBit (s.voidMask lead r) slot true) })

/-- A taken slot is freed (R197): taken falls, free rises, the slot's set takes the consumer's release; a NOTICE goes to the copy engine when a ring copy
feeds the ring. -/
def State.ringFree (s : State) (lead r slot : Nat) (c : Clr) : State :=
  let t := s.ringSt lead r
  let s1 := (s.setRing lead r { t with taken := t.taken - 1, free := t.free + 1 }).slotMerge lead r slot c
  if (s.rc lead).fedBy.getD r false then s1.modCore lead (fun co => { co with notices := co.notices ++ [r] }) else s1

/-! ## Frames (R69, R186) -/

/-- The frame tag that an isle's allocator hands out, of 1 to 1,023 (R30): the lowest free one. DESIGN CHOICE: R30 gives the range alone (log 15). -/
def Isle.freeFrame (i : Isle) : Option Nat := (List.range 1023).findSome? (fun n => if (aget i.frames (n + 1)).isNone then some (n + 1) else none)

def State.frame (s : State) (core f : Nat) : Option Frame := aget (s.isle (isleOf core)).frames f
def State.setFrame (s : State) (core f : Nat) (v : Frame) : State := s.modIsle (isleOf core) (fun i => { i with frames := aset i.frames f v })
def State.dropFrame (s : State) (core f : Nat) : State := s.modIsle (isleOf core) (fun i => { i with frames := adel i.frames f })

/-- The return credit of a call goes back to its edge (R61, R186). -/
def State.giveReturn (s : State) (r : CallRec) : State := s.modEdge r.core r.cell r.ctx r.edge (fun g => { g with rsv := g.rsv - 1 })

end Sys2Proof.Machine
end

