-- ==== Sys2Proof/Machine/Links.lean ====
section
/-! DEFINITION. Route tags (R364, R365), strait ports as senders (R365 to R368), and what the collective engines of a communicator's members know of one
another (R269, R270, R273, R283, R285, R299). -/

namespace Sys2Proof.Machine

/-- A route tag as it counts: 0 for this package, also where it is the partition's own tag (R364). -/
def State.routeTag (s : State) (pt route : Nat) : Nat := if route = (s.part pt).dtag then 0 else route

/-- The valid entry of the route table for a tag (R365). -/
def State.routeEntry (s : State) (pt route : Nat) : Option Nat :=
  let p := s.part pt
  let at' (i : Nat) : Nat := Memory.readNat s.mem (spadBase p.supervisor + bits p.rtab 31 12 * 4096 + 8 * i) 8
  ((List.range 64).find? (fun i => bit (at' i) 63 && bits (at' i) 15 0 == route)).map at'

/-! ## Strait ports as senders -/

/-- Credits of a VC's own reserve; flits of a VC that wait. -/
def Strait.own (p : Strait) (vc : Nat) : Nat := (aget p.reserve vc).getD 4
def Strait.waiting (p : Strait) (vc : Nat) : List Flit := (aget p.queue vc).getD []

/-- A flit is sent: it spends a credit of its reserve, or of the pool with S set, and enters the replay buffer of 512. -/
def Strait.send (p : Strait) (f : Flit) : Strait :=
  let g := { f with seq := p.txSeq, s := p.own f.vc == 0 }
  let r := p.replay ++ [g]
  let q := { p with replay := r.drop (r.length - 512), txSeq := p.txSeq + 1 }
  if g.s then { q with pool := q.pool - 1 } else { q with reserve := aset q.reserve f.vc (p.own f.vc - 1) }

/-- The flits of a VC advance while there is credit. -/
def Strait.advance (time vc : Nat) : Nat → Strait → Strait
  | 0, p => p
  | n + 1, p =>
    match p.waiting vc with
    | [] => p
    | f :: r =>
      if p.down || (p.own vc == 0 && p.pool == 0) then p
      else Strait.advance time vc n { p.send f with queue := aset p.queue vc r, since := aset p.since vc time, warned := adel p.warned vc }

/-- A flit comes to a port. -/
def Strait.put (p : Strait) (time : Nat) (f : Flit) : Strait :=
  let q := p.waiting f.vc
  Strait.advance time f.vc 1 { p with queue := aset p.queue f.vc (q ++ [f]), since := if q = [] then aset p.since f.vc time else p.since }

/-- The port of a mask that a flit takes: the one with the most free credit of those that are up, the lowest among equals; a flit for ports that are all
down holds at the lowest. -/
def State.pickPort (s : State) (mask vc : Nat) : Option Nat :=
  let ps := (List.range 18).filter (bit mask)
  let free (p : Nat) : Nat := (s.strait p).own vc + (s.strait p).pool
  ((ps.filter (fun p => !(s.strait p).down)).foldl (fun (best : Option Nat) p =>
    match best with
    | none => some p
    | some b => if free b < free p then some p else best) none).orElse (fun _ => ps.head?)

/-- A flit of a partition leaves for the package of a tag, by the route table as it stands (R365); it waits for ever where its entry names no port. -/
def State.leave (s : State) (pt dest vc : Nat) (body : FlitBody) : State :=
  match (s.routeEntry pt dest).bind (fun e => s.pickPort (bits e 33 16) vc) with
  | none => s
  | some p => s.modStrait p (fun x => x.put s.time { vc := vc, seq := 0, s := false, crcOk := true, tag := (s.part pt).dtag, dest := dest, part := pt, body := body })

/-! ## Members of a communicator (R269, R270, R285) -/

/-- Core and route tag of a rank-table entry. -/
def entryCore (e : Nat) : Nat := bits e 15 6
def entryRoute (e : Nat) : Nat := bits e 31 16

/-- The entry names the own package (R285). -/
def State.entryOwn (s : State) (pt e : Nat) : Bool := s.routeTag pt (entryRoute e) == 0

/-- The partition of a communicator's core. -/
def State.commPart (s : State) (c : Comm) : Nat := s.partAt c.core

/-- A rank of another package. -/
def State.foreign (s : State) (c : Comm) (r : Nat) : Bool := !s.entryOwn (s.commPart c) (c.table.getD r 0)
/-- The ranks of other packages. -/
def State.foreigners (s : State) (c : Comm) : List Nat := (List.range c.n).filter (s.foreign c)

/-- A communicator's rank table names a core of this package. -/
def State.names (s : State) (c : Comm) (core : Nat) : Bool := c.table.any (fun e => s.entryOwn (s.commPart c) e && entryCore e == core)

/-- Every membership in the package: die, slot, communicator. -/
def State.allComms (s : State) : List (Nat × Nat × Comm) := s.dies.flatMap (fun (d : Nat × Die) => d.2.comms.map (fun (c : Nat × Comm) => (d.1, c.1, c.2)))

/-- A communicator re-forms a broken one (R270). -/
def reforms (c o : Comm) : Bool := o.st == 3 && c.gen == (o.gen + 1) % 256

/-- Records of one communicator: equal keys, one table names the other's core, and neither re-forms the other. -/
def State.mates (s : State) (c o : Comm) : Bool :=
  c.key == o.key && (s.names c o.core || s.names o c.core) && !reforms c o && !reforms o c

/-- Records that agree in all but the rank. -/
def agrees (c o : Comm) : Bool := c.key == o.key && c.n == o.n && c.gen == o.gen && c.table == o.table

/-- The member of a rank, where this package has it. -/
def State.member (s : State) (c : Comm) (r : Nat) : Option Comm := (s.allComms.find? (fun m => agrees c m.2.2 && m.2.2.rank == r)).map (·.2.2)

/-- A message is about a communicator: its key, generation, rank count and table. -/
def isAbout (m : CollMsg) (c : Comm) : Bool := m.key == c.key && m.gen == c.gen && m.n == c.n && m.table == c.table

/-- A message of a kind has come from a rank of another package. -/
def State.heard (s : State) (c : Comm) (kind r index : Nat) : Option CollMsg :=
  s.ctl.find? (fun m => m.kind == kind && isAbout m c && m.rank == r && m.index == index)

/-! ## Ports and VC pairs of a communicator (R282, R299, R300) -/

/-- The pair of a port. -/
def Comm.pair (c : Comm) (port : Nat) : Option Nat := (c.vcs.find? (fun v => v.1 == port)).map (·.2)

/-- The data VC of a chunk. -/
def Comm.dataVc (c : Comm) (port : Nat) : Nat := match c.pair port with | some p => 2 * p | none => 0xFF

/-- The port by which a rank is reached now: the one chosen at COMM, and where that strait port is down, another of its entry's that is up (R368). -/
def State.portNow (s : State) (c : Comm) (r : Nat) : Nat :=
  let p := c.via.getD r 18
  if 18 ≤ p ∨ !(s.strait p).down then p
  else
    let m := ((s.routeEntry (s.commPart c) (entryRoute (c.table.getD r 0))).map (fun e => bits e 33 16)).getD 0
    ((List.range 18).find? (fun q => bit m q && !(s.strait q).down && (c.pair q).isSome)).getD p

/-- Flits of a communicator for a rank of another package, on the data VC or the control VC of its pair. -/
def State.sendColl (s : State) (c : Comm) (r : Nat) (control : Bool) (l : List FlitBody) : State :=
  let p := s.portNow c r
  match c.pair p with
  | none => s
  | some v =>
    let pt := s.commPart c
    let f (b : FlitBody) : Flit := { vc := 2 * v + Bool.nat control, seq := 0, s := false, crcOk := true, tag := (s.part pt).dtag, dest := entryRoute (c.table.getD r 0), part := pt, body := b }
    s.modStrait p (fun x => l.foldl (fun x b => x.put s.time (f b)) x)

/-- A message for a rank of another package. -/
def State.tell (s : State) (c : Comm) (kind index : Nat) (clr : Clr) (r : Nat) : State :=
  s.sendColl c r true [.coll { kind := kind, dest := bits (c.table.getD r 0) 15 0, key := c.key, n := c.n, gen := c.gen, rank := c.rank, table := c.table, index := index, clr := clr }]
/-- A message for every rank of another package. -/
def State.tellAll (s : State) (c : Comm) (kind index : Nat) (clr : Clr) : State := (s.foreigners c).foldl (fun t r => t.tell c kind index clr r) s

/-! ## The end of a membership (R270) -/

/-- Slots free once every membership has ended: of the members in this package, and of those in others that have joined (log 16). -/
def State.freeSlots (s : State) : State :=
  let gone (c : Comm) : Bool :=
    c.ended && s.allComms.all (fun o => !s.mates c o.2.2 || o.2.2.ended)
      && (s.foreigners c).all (fun r => (s.heard c 0 r 0).isNone || (s.heard c 3 r 0).isSome)
  let old := (s.allComms.filter (fun m => gone m.2.2)).map (·.2.2)
  { s with
    dies := s.dies.map (fun (d : Nat × Die) => (d.1, { d.2 with comms := d.2.comms.filter (fun (c : Nat × Comm) => !gone c.2) }))
    ctl := s.ctl.filter (fun m => !old.any (isAbout m)) }

/-- The memberships of a node end: its cores are rank cores no longer, and the members elsewhere hear of it. -/
def State.endMembers (s : State) (n : Nat) : State :=
  let mine := s.allComms.filter (fun m => m.2.2.node == n && !m.2.2.ended)
  let s1 := mine.foldl (fun t m => (t.modCore m.2.2.core (fun c => { c with rank := c.rank - 1 })).tellAll m.2.2 3 0 []) s
  ({ s1 with dies := s1.dies.map (fun (d : Nat × Die) => (d.1, { d.2 with comms := d.2.comms.map (fun (c : Nat × Comm) =>
    (c.1, { c.2 with ended := c.2.ended || c.2.node == n })) })) } : State).freeSlots

/-! ## A lost member (R284) -/

/-- The collectives of a membership fail and its communicator is broken, as its own member is lost. -/
def Comm.dead (c : Comm) : Comm := { c with st := 3, lost := true, colls := c.colls.map (fun q => if q.status % 4 = 0 then { q with status := 14, pend := none } else q) }

/-- A node's memberships are lost: every other member of its communicators has lost a member. -/
def State.loseNode (s : State) (n : Nat) : State :=
  let mine := s.allComms.filter (fun m => m.2.2.node == n && !m.2.2.ended)
  let hit (o : Comm) : Bool := o.node != n && mine.any (fun m => s.mates m.2.2 o)
  let s1 := mine.foldl (fun t m => t.tellAll m.2.2 5 0 []) s
  { s1 with dies := s1.dies.map (fun (d : Nat × Die) => (d.1, { d.2 with comms := d.2.comms.map (fun (c : Nat × Comm) =>
      (c.1, if c.2.node = n ∧ !c.2.ended then c.2.dead else if hit c.2 then { c.2 with lost := true } else c.2)) })) }

end Sys2Proof.Machine
end

