-- ==== Sys2Proof/Machine/Tiles.lean ====
section
/-! DEFINITION. Translation (R329 to R334), storage tiles, their seals and the caches of verified plaintext (R350 to R357), and physical memory as the
manager's firmware sees it (R331, R352). -/

namespace Sys2Proof.Machine

/-! ## Translation -/

def pageSize (level : Nat) (c : Bool) : Nat := 2 ^ (39 - 9 * level) * (if c then 16 else 1)

/-- A physical page lies within the shares of a partition (R315, R331): LP6 begins at 2^40. -/
def Part.owns (p : Part) (pa n : Nat) : Bool :=
  let inside (sh : Nat × Nat) (base : Nat) : Bool := decide (base + sh.1 * 2 ^ 30 ≤ pa) && decide (pa + n ≤ base + (sh.1 + sh.2) * 2 ^ 30)
  inside p.hbm 0 || inside p.lp6 (2 ^ 40)

/-- The walk of R332 from a table, with the levels that are left: the physical address and whether the page may be written, or the cause. -/
def walkFrom (m : Memory) (p : Part) (va : Nat) (write : Bool) : Nat → Nat → Except Nat (Nat × Bool)
  | 0, _ => .error 0x063
  | f + 1, t =>
    let level := 3 - f
    let idx := va / 2 ^ (39 - 9 * level) % 512
    let entry (i : Nat) : Nat := Memory.readNat m (spadBase p.supervisor + t + 8 * i) 8
    let e := entry idx
    if !bit e 0 then .error 0x060
    else if bits e 63 48 ≠ 0 ∨ bits e 11 5 ≠ 0 ∨ (level = 3 ∧ !bit e 1) then .error 0x063
    else if !bit e 1 then
      if bits e 47 32 ≠ 0 ∨ 0x400000 < bits e 31 12 * 4096 + 4096 then .error 0x061
      else walkFrom m p va write f (bits e 31 12 * 4096)
    else
      let c := bit e 2
      let e := if c then entry (idx / 16 * 16) else e
      let pa := bits e 47 12 * 4096
      let n := pageSize level c
      if pa % n ≠ 0 then .error 0x062
      else if !p.owns pa n then .error 0x064
      else if write && (!bit e 3 || bit e 4) then .error (if bit e 4 then 0x17D else 0x064)
      else .ok (pa + va % n, bit e 3 && !bit e 4)

/-- A walk from sr.troot (R329, R330). -/
def State.walk (s : State) (pt va : Nat) (write : Bool) : Except Nat (Nat × Bool) :=
  let p := s.part pt
  if 2 ^ 48 ≤ va ∨ !bit p.troot 32 ∨ 0x400000 < bits p.troot 31 12 * 4096 + 4096 then .error 0x061 else walkFrom s.mem p va write 4 (bits p.troot 31 12 * 4096)

/-- The leaf that maps a VA: its address (the first of a run), its value, the page's size; none where no valid leaf does. -/
def leafFrom (m : Memory) (p : Part) (va : Nat) : Nat → Nat → Option (Nat × Nat × Nat)
  | 0, _ => none
  | f + 1, t =>
    let level := 3 - f
    let idx := va / 2 ^ (39 - 9 * level) % 512
    let at' (i : Nat) : Nat := spadBase p.supervisor + t + 8 * i
    let e := Memory.readNat m (at' idx) 8
    if !bit e 0 then none
    else if !bit e 1 then leafFrom m p va f (bits e 31 12 * 4096)
    else
      let i := if bit e 2 then idx / 16 * 16 else idx
      some (at' i, Memory.readNat m (at' i) 8, pageSize level (bit e 2))
/-- The size of the page that maps a VA (R329). -/
def State.pageOf (s : State) (pt va : Nat) : Nat :=
  match leafFrom s.mem (s.part pt) va 4 (bits (s.part pt).troot 31 12 * 4096) with
  | some (_, _, n) => n
  | none => 4096

/-- Entries of a core's translation cache, of an isle's, and outstanding walks of a die (R333). -/
def coreXlats : Nat := 256
def isleXlats : Nat := 8192
def dieWalks : Nat := 64

/-- A full cache loses one entry, whichever (log 66). -/
def evict (m : Assoc (Nat × Nat)) (cap x : Nat) : Assoc (Nat × Nat) := if m.length ≤ cap then m else m.eraseIdx (x % m.length)

/-- A translation enters the caches of a core and its isle: its number and whether it may be written, and the size of its page. -/
def State.cacheXlat (s : State) (k va : Nat) (v : Nat × Nat) : State :=
  let a := s.free
  let b := a.2.free
  let s1 := if (s.core k).tcache.length < coreXlats ∧ (s.isle (isleOf k)).tcache.length < isleXlats then s else b.2
  (s1.modCore k (fun c => { c with tcache := evict (aset c.tcache (va / 4096) v) coreXlats a.1 })).modIsle (isleOf k)
    (fun i => { i with tcache := evict (aset i.tcache (va / 4096) v) isleXlats b.1 })

/-- A walk and its result, for the misses of its die that share it while it is under way: in this cycle (log 66). -/
def State.noteWalk (s : State) (k : Nat) (w : Walk) : State :=
  s.modDie (dieOf k) (fun d => { d with walks := (w :: d.walks.filter (fun x => x.time == s.time)).take dieWalks })

/-- What may serve an access beside a walk of its own: a cached translation that allows it, with cause 0, or the result of a walk under way (R333). -/
def State.hits (s : State) (k pt va : Nat) (write : Bool) : List (Nat × Nat × Nat) :=
  let page := va / 4096
  let cached (m : Assoc (Nat × Nat)) : List (Nat × Nat × Nat) := match aget m page with | some v => if write && v.1 % 2 == 0 then [] else [(0, v)] | none => []
  cached (s.core k).tcache ++ cached (s.isle (isleOf k)).tcache
    ++ ((s.die (dieOf k)).walks.filter (fun w => w.time == s.time && w.part == pt && w.page == page && w.write == write)).map (fun w => (w.cause, w.val))

/-- Translation by a walk of its own. -/
def State.walked (s : State) (k pt va : Nat) (write : Bool) : State × Except Nat Nat :=
  match s.walk pt va write with
  | .error c => (s.noteWalk k ⟨s.time, pt, va / 4096, write, c, (0, 0)⟩, .error c)
  | .ok (pa, w) =>
    let v := (pa / 4096 * 2 + Bool.nat w, s.pageOf pt va)
    ((s.noteWalk k ⟨s.time, pt, va / 4096, write, 0, v⟩).cacheXlat k va v, .ok pa)

/-- Translation by what may serve the access: one of them, whichever, where there are several (R333; log 3). -/
def State.translate (s : State) (k pt va : Nat) (write : Bool) : State × Except Nat Nat :=
  match s.hits k pt va write with
  | [] => s.walked k pt va write
  | h :: r =>
    let f := s.free
    match (h :: r)[f.1 % (r.length + 2)]? with
    | none => f.2.walked k pt va write
    | some (0, v) => (f.2.cacheXlat k va v, .ok (v.1 / 2 * 4096 + va % 4096))
    | some (c, _) => (f.2, .error c)

/-- A page of n bytes, with the 4 KiB page of number x in it, meets a range of VAs. -/
def pageMeets (x n lo len : Nat) : Bool :=
  let base := x * 4096 / n * n
  decide (base < lo + len) && decide (lo < base + n)

/-- Cached translations of pages that a VA range meets are removed, and walks under way serve none that comes after (R334). -/
def State.dropTranslations (s : State) (pt lo n : Nat) : State :=
  let mine (i : Nat) : Bool := bit (s.part pt).isles i
  let keep (m : Assoc (Nat × Nat)) : Assoc (Nat × Nat) := m.filter (fun q => !pageMeets q.1 q.2.2 lo n)
  { s with
    cores := s.cores.map (fun e => if mine (isleOf e.1) then (e.1, { e.2 with tcache := keep e.2.tcache }) else e)
    isles := s.isles.map (fun e => if mine e.1 then (e.1, { e.2 with tcache := keep e.2.tcache }) else e)
    dies := s.dies.map (fun e => (e.1, { e.2 with walks := e.2.walks.filter (fun w => w.part != pt) })) }

/-! ## Storage tiles and their seals -/

/-- Key of a tile in a die's cache: partition and storage tile number (R355). -/
def cacheKey (pt tile : Nat) : Nat := pt * 2 ^ 37 + tile

def State.tileMeta (s : State) (pa : Nat) : TileMeta := (aget s.tiles (pa / 2048)).getD {}
def State.setMeta (s : State) (pa : Nat) (m : TileMeta) : State := { s with tiles := aset s.tiles (pa / 2048) m }

/-- A tile leaves every cache of verified plaintext (R355). -/
def State.uncache (s : State) (pt tile : Nat) : State :=
  { s with dies := s.dies.map (fun e => (e.1, { e.2 with cache := e.2.cache.filter (fun c => c.key != cacheKey pt tile) })) }

/-- The verified plaintext of a tile in a die's cache. -/
def State.plainAt (s : State) (die pt tile : Nat) : Option Memory := ((s.die die).cache.find? (fun c => c.key == cacheKey pt tile)).map (·.data)

/-- A tile's state changes: no fill sees the old one after (R355). -/
def State.setTileSt (s : State) (pt tile pa st : Nat) : State := (s.setMeta pa { s.tileMeta pa with st := st }).uncache pt tile

/-- The live slot that holds a tenant's generation, and the tenant's current slot (R357). -/
def State.slotFor (s : State) (tenant gen : Nat) : Option KeySlot :=
  (s.keys.find? (fun e => e.2.live && e.2.tenant == tenant && e.2.gen == gen)).map (·.2)
def State.currentSlot (s : State) (tenant : Nat) : Option (Nat × KeySlot) := s.keys.find? (fun e => e.2.live && e.2.tenant == tenant && e.2.current)

/-- Tile index of R351. -/
def tileIndex (pt tile : Nat) : Nat := pt * 2 ^ 44 + tile

/-- A tile's tag verifies under a slot's key: what was sealed with that key, tile index, version and AAD is there unaltered (R351; log 9). -/
def TileMeta.verifies (m : TileMeta) (load index tenant : Nat) : Bool :=
  match m.made with
  | some z => z.load == load && z.index == index && z.tenant == tenant && z.gen == m.gen && z.version == m.version && z.tag == m.tag && !m.altered
  | none => false

/-- Tiles of verified plaintext that a die keeps: 32 MiB (R355). -/
def cacheTiles : Nat := 16384

/-- A fill of a storage tile (R354, R355): its plaintext, by offset, or the cause. -/
def State.fill (s : State) (k pt tile : Nat) : State × Except Nat Memory :=
  match s.translate k pt (tile * 2048) false with
  | (s, .error c) => (s, .error c)
  | (s, .ok pa) =>
    match s.plainAt (dieOf k) pt tile with
    | some d => (s, .ok d)
    | none =>
      let m := s.tileMeta pa
      match m.st with
      | 0 => (s, .ok [])
      | 1 =>
        match s.slotFor (s.part pt).tenant m.gen with
        | none => (s, .error 0x0A8)
        | some q =>
          if m.verifies q.load (tileIndex pt tile) (s.part pt).tenant then
            let d := Memory.slice s.mem pa 2048
            (s.modDie (dieOf k) (fun x => { x with cache := (⟨cacheKey pt tile, q.load, d⟩ :: x.cache).take cacheTiles }), .ok d)
          else (s.setTileSt pt tile pa 2, .error 0x0AF)
      | 2 => (s, .error 0x0AC)
      | _ => (s, .error 0x0AB)

/-- An uncorrectable memory error quarantines the tile that it meets (R354). -/
def State.quarantine (s : State) (k pt tile : Nat) : State :=
  match s.translate k pt (tile * 2048) false with
  | (s, .error _) => s
  | (s, .ok pa) => s.setTileSt pt tile pa 2

/-- A state that goes on from before an attempt keeps the quarantines that the attempt made (R354), and the free values that it drew. -/
def State.keep (s t : State) : State :=
  { s with
    freeNo := t.freeNo
    tiles := t.tiles.foldl (fun m e => if e.2.st = 2 then aset m e.1 { ((aget s.tiles e.1).getD {}) with st := 2 } else m) s.tiles }

/-- 2 KiB of plaintext, by offset, put at a place: what stood there is gone. -/
def Memory.putTile (m : Memory) (d : Memory) (dst : Nat) : Memory := d.foldl (fun n c => Memory.write n (c.1 + dst) c.2) (Memory.clear m dst 2048)

/-- A seal of a storage tile (R351, R353, R357): its plaintext is `src` with bytes written over it under a mask. SEAL_VERSION is posted once per
generation. -/
def State.seal (s : State) (k pt tile : Nat) (src : Memory) (off : Nat) (bytes mask : List Byte) : State × Except Nat Unit :=
  match s.translate k pt (tile * 2048) true with
  | (s, .error c) => (s, .error c)
  | (s, .ok pa) =>
    let m := s.tileMeta pa
    let tenant := (s.part pt).tenant
    match s.currentSlot tenant with
    | none => (s, .error 0x0A8)
    | some (_, q) =>
      let v := if m.gen = q.gen then m.version + 1 else 0
      if v = 2 ^ 48 then (s, .error 0x0AE)
      else
        let i := tileIndex pt tile
        let tag := (Config.sealTag q.load i v tenant q.gen ++ List.replicate 16 0).take 16
        let s1 := { (s.setMeta pa { tag := tag, version := v, gen := q.gen, st := 1, made := some ⟨q.load, i, tenant, q.gen, v, tag⟩ }).uncache pt tile with
          mem := Memory.writeMasked (Memory.putTile s.mem src pa) (pa + off) bytes mask }
        (if v = 2 ^ 48 - 2 ^ 20 then s1.post pt 7 (unitKey 4 (dieOf k) 63) (dieOf k) (leBytes 8 (tile * 2048) ++ leBytes 8 v) false else s1, .ok ())

/-- The storage tiles that a range of addresses touches: number, offset in it, length. -/
def tileSegs (va n : Nat) : List (Nat × Nat × Nat) :=
  (List.range ((va % 2048 + n + 2047) / 2048)).map (fun i =>
    let lo := if i = 0 then va % 2048 else 0
    (va / 2048 + i, lo, min 2048 (va % 2048 + n - 2048 * i) - lo))

/-- Bytes of the tiles that `place` stores a range in. A failure names the cause and the VA that it met. -/
def State.readTiles (s : State) (k pt va n : Nat) (place : Nat → Nat) : State × Except (Nat × Nat) (List Byte) :=
  (tileSegs va n).foldl (fun acc g =>
    match acc with
    | (s, .error c) => (s, .error c)
    | (s, .ok b) =>
      match s.fill k pt (place g.1) with
      | (s, .error c) => (s, .error (c, place g.1 * 2048 + g.2.1))
      | (s, .ok d) => (s, .ok (b ++ Memory.readN d g.2.1 g.2.2))) (s, .ok [])

/-- Bytes of external memory at a VA that no buffer maps elsewhere: node records, images, arguments, tables, save areas (R350). -/
def State.readVA (s : State) (k pt va n : Nat) : State × Except (Nat × Nat) (List Byte) := s.readTiles k pt va n id

/-- Bytes written at a VA: each tile is read, modified and sealed whole (R356). -/
def State.writeVA (s : State) (k pt va : Nat) (bytes : List Byte) : State × Except (Nat × Nat) Unit :=
  ((tileSegs va bytes.length).foldl (fun (acc : State × Except (Nat × Nat) (List Byte)) g =>
    match acc with
    | (s, .error c) => (s, .error c)
    | (s, .ok b) =>
      let part := b.take g.2.2
      match (if g.2.2 = 2048 then (s, .ok []) else s.fill k pt g.1) with
      | (s, .error c) => (s, .error (c, g.1 * 2048 + g.2.1))
      | (s, .ok src) =>
        match s.seal k pt g.1 src g.2.1 part (List.replicate part.length 255) with
        | (s, .error c) => (s, .error (c, g.1 * 2048 + g.2.1))
        | (s, .ok _) => (s, .ok (b.drop g.2.2))) (s, .ok bytes)).map id (fun r => r.map (fun _ => ()))

/-! ## Physical memory, as the manager's firmware sees it (log 9) -/

/-- GiB of the two tiers (R1, R331). -/
def hbmGiB : Nat := 1024
def lp6GiB : Nat := 1536

/-- The tier that a physical address lies in, as base, size and size of its metadata region: HBM5, or LP6 where the part has a module; none beyond them
(R1, R3, R331, R352). -/
def State.tierOf (s : State) (a : Nat) : Option (Nat × Nat × Nat) :=
  if a < hbmGiB * 2 ^ 30 then some (0, hbmGiB * 2 ^ 30, 12 * 2 ^ 30)
  else if s.fuses.module && decide (2 ^ 40 ≤ a) && decide (a < 2 ^ 40 + lp6GiB * 2 ^ 30) then some (2 ^ 40, lp6GiB * 2 ^ 30, 18 * 2 ^ 30)
  else none

/-- A record of seal metadata, and what it holds as a firmware write leaves it (R352). -/
def TileMeta.bytes (m : TileMeta) : List Byte := (m.tag ++ List.replicate 16 0).take 16 ++ leBytes 6 m.version ++ leBytes 1 m.gen ++ leBytes 1 m.st
def TileMeta.withByte (m : TileMeta) (o : Nat) (b : Byte) : TileMeta :=
  let l := m.bytes.set o b
  { m with tag := l.take 16, version := leNat ((l.drop 16).take 6), gen := leNat ((l.drop 22).take 1), st := leNat ((l.drop 23).take 1) }

/-- The tile whose record a metadata region of a tier holds at an address, and the offset in the record. -/
def recordAt (base size region a : Nat) : Nat × Nat := let x := a - (base + size - region); (base / 2048 + x / 24, x % 24)

/-- Ciphertext of a sealed tile: its plaintext under the keystream of its seal. -/
def State.cipherByte (s : State) (z : Sealed) (tile i : Nat) : Byte := Memory.read s.mem (tile * 2048 + i) ^^^ Config.keystream z.load z.index z.version i

/-- Bytes of one physical tile as the firmware reads them; an address of no tier reads as zero (log 9). -/
def State.physSeg (s : State) (tile lo len : Nat) : List Byte :=
  let a := tile * 2048 + lo
  match s.tierOf a with
  | none => List.replicate len 0
  | some (base, size, region) =>
    if base + size - region ≤ a then
      (List.range len).map (fun i => let r := recordAt base size region (a + i); (s.tileMeta (r.1 * 2048)).bytes.getD r.2 0)
    else
      let m := s.tileMeta a
      match m.made with
      | some z => if m.altered then Memory.readN s.mem a len else (List.range len).map (fun i => s.cipherByte z tile (lo + i))
      | none => Memory.readN s.mem a len

def State.physRead (s : State) (a n : Nat) : List Byte := (tileSegs a n).flatMap (fun g => s.physSeg g.1 g.2.1 g.2.2)

/-- The firmware writes bytes into one physical tile: a metadata record takes them, and a sealed tile is ciphertext from then on, altered where they differ. -/
def State.physPut (s : State) (tile lo : Nat) (b : List Byte) : State :=
  let a := tile * 2048 + lo
  match s.tierOf a with
  | none => s
  | some (base, size, region) =>
    if base + size - region ≤ a then
      b.zipIdx.foldl (fun t e => let r := recordAt base size region (a + e.2); t.setMeta (r.1 * 2048) ((t.tileMeta (r.1 * 2048)).withByte r.2 e.1)) s
    else
      let m := s.tileMeta a
      if m.made.isSome && !m.altered then
        if s.physSeg tile lo b.length = b then s
        else { (s.setMeta a { m with altered := true }) with mem := Memory.writeN (Memory.writeN s.mem (tile * 2048) (s.physSeg tile 0 2048)) a b }
      else { s with mem := Memory.writeN s.mem a b }

def State.physWrite (s : State) (a : Nat) (b : List Byte) : State :=
  ((tileSegs a b.length).foldl (fun (acc : State × List Byte) g => (acc.1.physPut g.1 g.2.1 (acc.2.take g.2.2), acc.2.drop g.2.2)) (s, b)).1

end Sys2Proof.Machine
end

