-- ==== Sys2Proof/Machine/Extern.lean ====
section
/-! DEFINITION. Buffers, snapshots and shadows (R105 to R108, R311, R338), the pool of shadow tiles (R336, R350), and the accesses that a cause of external
memory holds (R335). -/

namespace Sys2Proof.Machine

/-! ## Operands -/

/-- Storage tile of a buffer's tile for a node: its own shadow, else its snapshot's (R106, R107). -/
def Operand.place (o : Operand) (t : Nat) : Nat := (aget o.shadow t).getD ((aget o.map t).getD t)

def State.operand (s : State) (n j : Nat) : Operand := ((aget s.nodes n).bind (fun v => v.ops[j]?)).getD {}
def State.modOperand (s : State) (n j : Nat) (f : Operand → Operand) : State := s.modNode n (fun v => { v with ops := v.ops.modify j f })

/-- The partition of a node. -/
def State.partOfNode (s : State) (n : Nat) : Nat := ((aget s.nodes n).map (·.part)).getD 16

/-- The first operand of a node that names the same buffer: the snapshot and the shadow of a buffer are the node's (R106, R107). -/
def State.sameBuf (s : State) (n j : Nat) : Nat :=
  let h := (s.operand n j).handle
  ((List.range j).find? (fun i => (s.operand n i).handle == h && (s.operand n i).mode != 0)).getD j

/-- Whether a node may read or write an operand (R72, R105): mode 1 read, 2 write, 3 both. -/
def Operand.allows (o : Operand) (write : Bool) : Bool := if write then o.mode == 2 || o.mode == 3 else o.mode == 1 || o.mode == 3

/-- The checks of an access to an operand (R105, R194, R260). -/
def Operand.check (o : Operand) (write : Bool) (off n align : Nat) : Except Nat Unit :=
  if !o.allows write then .error 0x05C else if o.size < off + n then .error 0x059 else if off % align ≠ 0 then .error 0x05A else .ok ()

/-! ## Held accesses (R335) -/

/-- Causes that hold the access and freeze what depends on it. -/
def holdsAccess (c : Nat) : Bool := (decide (0x060 ≤ c) && decide (c ≤ 0x064)) || c == 0x05E || c == 0x17D

/-- Severity of a cause that an engine or port meets in external memory. -/
def externSev (c : Nat) : Nat := if c = 0x17D then 0 else if holdsAccess c then 1 else 2

/-- What is held, but for a cause and VA that `p` names: that retries. -/
def released (p : Nat × Nat → Bool) (o : Option (Nat × Nat)) : Option (Nat × Nat) := match o with | some c => if p c then none else some c | none => none

/-- The held accesses of a core that `p` names retry. -/
def Core.unhold (c : Core) (p : Nat × Nat → Bool) : Core :=
  { c with
    rc := { c.rc with held := released p c.rc.held, loadHeld := released p c.rc.loadHeld }
    copies := c.copies.map (fun (e : Nat × Copy) => (e.1, { e.2 with held := released p e.2.held }))
    hists := c.hists.map (fun (e : Nat × Hist) => (e.1, { e.2 with held := released p e.2.held }))
    cells := c.cells.map (fun (e : Nat × Cell) => (e.1, { e.2 with
      gen := { e.2.gen with held := released p e.2.gen.held }
      held := e.2.held.map (fun h => { h with hold := released p h.hold }) })) }

/-- The held accesses of a partition that `p` names retry, as their agents next move. -/
def State.unhold (s : State) (pt : Nat) (p : Nat × Nat → Bool) : State :=
  let s1 := { s with
    cores := s.cores.map (fun (e : Nat × Core) => if bit (s.part pt).isles (isleOf e.1) then (e.1, e.2.unhold p) else e)
    nodes := s.nodes.map (fun (n : Nat × Node) => if n.2.part = pt then (n.1, { n.2 with held := released p n.2.held }) else n) }
  s1.modPart pt (fun q => { q with chans := q.chans.map (fun (c : Nat × Channel) => (c.1, { c.2 with held := released p c.2.held })) })

/-! ## Snapshots and the pool of shadow tiles (R336, R350) -/

/-- A version of a buffer: where the buffer begins, its size, the tile map. -/
structure Snap where
  start : Nat
  size  : Nat
  map   : Assoc Nat

/-- A version names a storage tile: by its map, or as a tile of the buffer that the map leaves at its own VA. -/
def Snap.names (p : Snap) (x : Nat) : Bool :=
  p.map.any (fun e => e.2 == x) || (decide (p.start / 2048 ≤ x) && decide (x * 2048 < p.start + p.size) && (aget p.map x).isNone)

/-- Publications that host tokens at a cell's ports carry (R116). -/
def Cell.pubs (c : Cell) : List HostPub :=
  let pubs (l : List PortTok) : List HostPub := l.flatMap (·.host)
  c.ctxs.flatMap (fun x => x.ports.flatMap (fun p => pubs p.fifo)) ++ c.matching.flatMap (fun m => pubs (m.toks.map (·.2))) ++ c.ready.flatMap (fun t => pubs t.ops)

/-- Publications on their way to a node of a partition: in channels, and in tokens at ports. -/
def State.pubs (s : State) (pt : Nat) : List HostPub :=
  (s.part pt).chans.flatMap (fun c => c.2.fifo.flatMap (·.2))
    ++ s.cores.flatMap (fun (e : Nat × Core) => if s.partAt e.1 = pt then e.2.cells.flatMap (fun (c : Nat × Cell) => c.2.pubs) else [])

/-- A node that reads and writes its operands still: not one that has ended. -/
def Node.lives (v : Node) : Bool := decide (v.st < 3)

/-- The versions that are published, snapshots of nodes and of a checkpoint, or on their way to a node. -/
def State.snaps (s : State) (pt : Nat) : List Snap :=
  let p := s.part pt
  let of (h : Nat) (map : Assoc Nat) : Snap := let b := (aget p.bufs h).getD {}; ⟨b.start, b.size, map⟩
  p.bufs.map (fun b => ⟨b.2.start, b.2.size, b.2.map⟩)
    ++ s.nodes.flatMap (fun n => if n.2.part = pt ∧ n.2.lives then (n.2.ops.filter (fun o => o.mode != 0)).map (fun o => ⟨o.start, o.size, o.map⟩) else [])
    ++ (s.pubs pt).map (fun h => of h.handle h.map)
    ++ (match p.ckpt with | some c => c.snaps.map (fun b => of b.1 b.2.2) | none => [])

/-- Shadow tiles: of nodes, of channels, of a restore. -/
def State.shadowTiles (s : State) (pt : Nat) : List Nat :=
  let p := s.part pt
  s.nodes.flatMap (fun n => if n.2.part = pt ∧ n.2.lives then n.2.ops.flatMap (fun o => o.shadow.map (·.2)) else [])
    ++ p.chans.flatMap (fun c => c.2.shadow.flatMap (fun b => b.2.map (·.2))) ++ p.rstr.flatMap (fun b => b.2.map (·.2))

/-- A storage tile is named by a version or is a shadow tile. -/
def State.named (s : State) (pt x : Nat) : Bool := (s.shadowTiles pt).contains x || (s.snaps pt).any (·.names x)

/-- Tiles at their own VAs that a publication of their buffer has replaced. -/
def State.leftTiles (s : State) (pt : Nat) : List Nat := (s.part pt).bufs.flatMap (fun b => b.2.map.map (·.1))

/-- Storage tiles that are named and may come to the pool: those of maps and shadows, and tiles at own VAs that only an earlier version names. -/
def State.busyTiles (s : State) (pt : Nat) : List Nat :=
  dedup (s.shadowTiles pt ++ (s.snaps pt).flatMap (fun p => p.map.map (·.2)) ++ (s.leftTiles pt).filter (s.named pt))

/-- A storage tile that nothing names any longer returns to the pool in state zero-fill, its version kept (R350). -/
def State.releaseTile (s : State) (pt x : Nat) : State :=
  match s.translate (s.part pt).supervisor pt (x * 2048) false with
  | (t, .error _) => t
  | (t, .ok pa) => t.setTileSt pt x pa 0

/-- Tiles that were named, and are no longer, return to the pool, and what waits for a free shadow tile retries (R335, R350). -/
def State.reclaim (s : State) (pt : Nat) (was : List Nat) : State :=
  match was.filter (fun x => !s.named pt x) with
  | [] => s
  | gone => (gone.foldl (fun t x => t.releaseTile pt x) s).unhold pt (fun c => c.1 == 0x05E)

def firstFree (used : List Nat) : Nat → Nat → Option Nat
  | 0, _ => none
  | f + 1, t => if used.contains t then firstFree used f (t + 1) else some t

/-- A free tile of the pool: the lowest of the range, else one that a publication has left (R336, R350; log 15). -/
def State.freeTile (s : State) (pt : Nat) : Option Nat :=
  let r := (s.part pt).shpool
  let used := s.shadowTiles pt ++ (s.snaps pt).flatMap (fun p => p.map.map (·.2))
  (firstFree used (min (bits r 63 48 * 1024) (used.length + 1)) (bits r 47 21 * 1024)).orElse (fun _ => (s.leftTiles pt).find? (fun x => !s.named pt x))

/-- A shadow tile is taken for a VA: in state zero-fill with its version kept (R350); 0x05E when none is free. A failure names its VA. -/
def State.takeTile (s : State) (k pt va : Nat) : State × Except (Nat × Nat) Nat :=
  match s.freeTile pt with
  | none => (s, .error (0x05E, va))
  | some t =>
    match s.translate k pt (t * 2048) false with
    | (s, .error c) => (s, .error (c, t * 2048))
    | (s, .ok pa) => (s.setTileSt pt t pa 0, .ok t)

/-! ## Reading and writing buffers -/

/-- A node reads its operand (R106, R107). -/
def State.readOp (s : State) (k n j off len : Nat) : State × Except (Nat × Nat) (List Byte) :=
  let o := s.operand n (s.sameBuf n j)
  s.readTiles k (s.partOfNode n) (o.start + off) len o.place

/-- Masked bytes written into the shadow of a buffer tile (R107, R356): the tile is filled from the shadow or the snapshot, or is zero where `whole` says
that the writer covers it and that fill fails; it is sealed into the shadow tile. A failure names the VA that it met: of the storage tile, or of the buffer
where the pool is empty. -/
def State.writeShadow (s : State) (k pt : Nat) (shadow map : Assoc Nat) (t off : Nat) (bytes mask : List Byte) (whole : Bool) :
    State × Except (Nat × Nat) (Assoc Nat) :=
  let sealed (s : State) (h : Nat) (src : Memory) (m : Assoc Nat) : State × Except (Nat × Nat) (Assoc Nat) :=
    match s.seal k pt h src off bytes mask with
    | (s, .error c) => (s, .error (c, h * 2048 + off))
    | (s, .ok _) => (s, .ok m)
  match aget shadow t with
  | some h =>
    match s.fill k pt h with
    | (s, .error c) => (s, .error (c, h * 2048 + off))
    | (s, .ok src) => sealed s h src shadow
  | none =>
    let old := (aget map t).getD t
    let base : State × Except Nat Memory :=
      match s.fill k pt old with
      | (s, .error c) => if whole && !holdsAccess c then (s, .ok []) else (s, .error c)
      | r => r
    match base with
    | (s, .error c) => (s, .error (c, old * 2048 + off))
    | (s, .ok src) =>
      match s.takeTile k pt (t * 2048 + off) with
      | (s, .error c) => (s, .error c)
      | (s, .ok h) => sealed s h src (aset shadow t h)

/-- A node writes masked bytes to its operand's shadow, tile by tile. -/
def State.writeOp (s : State) (k n j off : Nat) (bytes mask : List Byte) (whole : Bool) : State × Except (Nat × Nat) Unit :=
  let j := s.sameBuf n j
  let o := s.operand n j
  ((tileSegs (o.start + off) bytes.length).foldl (fun (acc : State × Except (Nat × Nat) Nat) g =>
    match acc with
    | (s, .error c) => (s, .error c)
    | (s, .ok p) =>
      let q := s.operand n j
      match s.writeShadow k (s.partOfNode n) q.shadow q.map g.1 g.2.1 ((bytes.drop p).take g.2.2) ((mask.drop p).take g.2.2) whole with
      | (s, .error c) => (s, .error c)
      | (s, .ok sh) => (s.modOperand n j (fun o => { o with shadow := sh }), .ok (p + g.2.2))) (s, .ok 0)).map id (fun r => r.map (fun _ => ()))

/-- A shape record as it is read at a VA (R338), or 0x06B, or a fill's cause. -/
def State.readShape (s : State) (k pt va : Nat) : State × Except (Nat × Nat) Shape :=
  match s.readVA k pt va 32 with
  | (s, .error c) => (s, .error c)
  | (s, .ok b) =>
    let f (o n : Nat) : Nat := leNat ((b.drop o).take n)
    let sh : Shape := ⟨f 0 2, f 4 4, f 8 4, f 12 1, f 16 8⟩
    if sh.rows = 0 ∨ f 2 2 ≠ 0 ∨ sh.rowB = 0 ∨ sh.rowB % 64 ≠ 0 ∨ sh.pitch % 64 ≠ 0 ∨ sh.pitch < sh.rowB ∨ 16 ≤ sh.fmt ∨ f 13 3 ≠ 0 ∨ f 24 8 ≠ 0
        ∨ va % 32 ≠ 0 ∨ (isMX (fmtOf sh.fmt) ∧ sh.scale = 0) ∨ (!isMX (fmtOf sh.fmt) ∧ sh.scale ≠ 0) then (s, .error (0x06B, va))
    else (s, .ok sh)

/-- The shape record of a node's operand for an engine, by its agent id: read when the engine first uses the buffer in the node, and kept (R338). VA 0: none. -/
def State.shapeOf (s : State) (k eng n j : Nat) : State × Except (Nat × Nat) (Option Shape) :=
  let j := s.sameBuf n j
  let o := s.operand n j
  if o.shape = 0 then (s, .ok none)
  else match aget o.shapes eng with
  | some sh => (s, .ok (some sh))
  | none =>
    match s.readShape k (s.partOfNode n) o.shape with
    | (t, .error c) => (t, .error c)
    | (t, .ok sh) => (t.modOperand n j (fun o => { o with shapes := aset o.shapes eng sh }), .ok (some sh))

/-- A buffer's version rises and its tile map takes the shadow tiles, in one step (R108); the version is written to the buffer table (R311). -/
def State.publish (s : State) (k pt h : Nat) (shadow : Assoc Nat) : State × Except (Nat × Nat) Nat :=
  let b := (aget (s.part pt).bufs h).getD {}
  let v := (b.version + 1) % 2 ^ 48
  match s.writeVA k pt (bits (s.part pt).buftab 47 5 * 32 + 32 * h + 0x10) (leBytes 8 v) with
  | (t, .error c) => (t, .error c)
  | (t, .ok _) => (t.modPart pt (fun p => { p with bufs := aset p.bufs h { b with version := v, map := shadow.foldl (fun m e => aset m e.1 e.2) b.map } }), .ok v)

/-- Tiles of a buffer that a publication of a shadow replaces: where they are stored now. -/
def State.replaced (s : State) (pt h : Nat) (shadow : Assoc Nat) : List Nat :=
  let b := (aget (s.part pt).bufs h).getD {}
  shadow.map (fun e => (aget b.map e.1).getD e.1)

end Sys2Proof.Machine
end

