-- ==== Sys2Proof/Machine/Ops.lean ====
section
/-! DEFINITION. Tasks and how they end (R61, R65, R177, R183), how phases and nodes end (R79, R80, R104, R255), and taking an exception: the one
operation by which a cell instruction (R177, R302), an RC instruction (R240, R305) or an engine (R342) faults, and the return from SYS (R250, R314). -/

namespace Sys2Proof.Machine

/-! ## Staging (R177, R178) -/

/-- The DATA and other tokens that a task has staged on an edge, in order. -/
def Task.tokensOn (t : Task) (e : Nat) : List Token := t.staged.filterMap (fun g => match g with | .tok e' k => if e' = e then some k else none | _ => none)

/-- The place in its burst of the next token on an edge: count and first tag after every token that has entered or is staged (R178). -/
def State.burstState (s : State) (k l x e : Nat) : Nat × Option (Nat × W16 × Nat) :=
  let c := s.cell k l
  let n := ewBurst (s.edgeWord k l x e)
  let g := s.edge k l x e
  ((c.done ++ c.running.toList).filter (fun t => t.ctx = x)).foldl (fun acc t => (t.tokensOn e).foldl (fun acc tk =>
    if tk.kind = .data then (acc.1 + 1, if acc.1 % n = 0 then some (tk.frame, tk.iter, tk.cls) else acc.2) else (0, none)) acc) (g.sent, g.first)

/-- The destination's expected format accepts a token's (R178); a token that leaves the package is not checked. -/
def State.fmtFits (s : State) (w : Nat) (f : Fmt) : Bool :=
  let d := destOf w
  if ewRoute w ≠ 0 ∨ 36 ≤ d.loc then true
  else let g := pwFmt (s.inWord d.core d.loc d.ctx d.port); g == .none || g == f

/-- The fault of emitting a DATA token on an edge, if any: FORMAT (0x01B) or ORDER (0x01D) (R178). -/
def State.emitFault (s : State) (k l x e : Nat) (t : Token) : Option Nat :=
  let w := s.edgeWord k l x e
  let b := s.burstState k l x e
  if !s.fmtFits w t.reg.fmt then some 0x01B
  else if b.1 % ewBurst w ≠ 0 ∧ b.2 ≠ some (t.frame, t.iter, t.cls) then some 0x01D
  else none

/-- The fault of a DATA token that enters an edge outside a task, a flush before an EOS or a return, by what has entered the edge; an EOS has none (R178). -/
def State.enterFault (s : State) (k l x e : Nat) (t : Token) : Option Nat :=
  let w := s.edgeWord k l x e
  let g := s.edge k l x e
  if t.kind ≠ .data then none
  else if !s.fmtFits w t.reg.fmt then some 0x01B
  else if g.sent % ewBurst w ≠ 0 ∧ g.first ≠ some (t.frame, t.iter, t.cls) then some 0x01D
  else none

/-- A token enters an edge outside a task, or its fault is posted as information and it is discarded: no task is there to end (log 102). -/
def State.enterChecked (s : State) (k l x e : Nat) (t : Token) : State :=
  match s.enterFault k l x e t with
  | some c => s.postFault 0 0 k l c 0 0 (tagWord t.iter t.frame x t.cls)
  | none => s.enter k l x e t

/-! ## How a task ends (R61, R65, R177, R183) -/

/-- Credits of a reply port go back (R61, R194). -/
def State.giveReply (s : State) (k l x p n : Nat) : State := s.modPort k l x p (fun q => { q with rsv := q.rsv - n })

/-- Credits that the task reserved and does not use go back to their edges and reply ports. -/
def State.giveRoom (s : State) (k l : Nat) (t : Task) : State :=
  t.replies.foldl (fun s p => s.giveReply k l t.ctx p.1 p.2)
    (t.room.foldl (fun s e => s.modEdge k l t.ctx e.1 (fun g => { g with rsv := g.rsv - (e.2 - (t.tokensOn e.1).length) })) s)

/-- The room left reserved for the tokens it has staged. -/
def Task.usedRoom (t : Task) : Assoc Nat := t.room.map (fun e => (e.1, min e.2 (t.tokensOn e.1).length))

/-- The release that a ring operation of a memory cell makes. -/
def State.cellRelease (s : State) (k l : Nat) : State × Clr := s.release k (handleOf l)

/-- A request of a task enters its cell's port. -/
def State.enqueue (s : State) (k l : Nat) (t : Task) (need : Option Nat) (r : MemReq) : State :=
  s.modCell k l (fun c => { c with held := c.held ++ [{ req := r, need := need, serial := t.serial, ctx := t.ctx, cls := t.cls, frame := t.frame, iter := t.iter, time := s.time }] })

/-- The ring slot that a task still holds at its end: a producer's becomes void where the task drops, and a consumer's is freed as RFREE would free it, by a
request that leaves after every earlier access of the cell (R183, R197). -/
def State.endRing (s : State) (k l : Nat) (t : Task) (drop : Bool) : State :=
  match t.ring with
  | none => s
  | some h =>
    if h.freed then s
    else if h.producer then (if drop then (s.ringTouch k (handleOf l) (s.leadOf k) h.ring).1.ringVoid (s.leadOf k) h.ring h.slot else s)
    else s.enqueue k l t none (.rfree h.ring h.slot)

/-- The task's ring slot once its end has been seen to: only a producer's is still to be published. -/
def Task.endedRing (t : Task) : Task := { t with ring := t.ring.map (fun h => { h with freed := h.freed || !h.producer }) }

/-- A dropped task: staged tokens discarded, the reserved frame and return credit given back (R183). -/
def State.dropTask (s : State) (k l : Nat) (t : Task) : State × Task :=
  let s1 := s.endRing k l t true
  let s2 := match t.newFrame with | some f => s1.dropFrame k f | none => s1
  let s3 := match t.retRoom with | some e => s2.modEdge k l t.ctx e (fun g => { g with rsv := g.rsv - 1 }) | none => s2
  let t1 := { t with staged := [], dropped := true, newFrame := none, retRoom := none, ring := none }
  (s3.giveRoom k l t1, { t1 with room := t1.usedRoom, replies := [] })

/-- The running task ends: at END its staged tokens wait to enter their edges, at DROP they are discarded. It then counts as completed. -/
def State.endTask (s : State) (k l : Nat) (drop : Bool) : State :=
  match (s.cell k l).running with
  | none => s
  | some t =>
    let (s1, t1) := if drop then s.dropTask k l t else ((s.endRing k l t false).giveRoom k l t, { t.endedRing with room := t.usedRoom, replies := [] })
    s1.modCell k l (fun c => { c with running := none, done := c.done ++ [t1] })

/-! ## How a phase ends (R79, R104, R255) -/

/-- Whether a cell holds tokens, and the cell without them. -/
def Ctx.clearTokens (c : Ctx) : Ctx :=
  { c with
    ports := List.replicate 4 {}
    edges := c.edges.map (fun g => { g with flight := [], rsv := 0, waiting := [] })
    sink := 0
    posted := false
    fwd := false }

def Ctx.hasTokens (c : Ctx) : Bool := c.ports.any (fun p => !p.fifo.isEmpty) || c.edges.any (fun g => !g.flight.isEmpty || !g.waiting.isEmpty)

def Cell.hasTokens (c : Cell) : Bool :=
  c.ctxs.any Ctx.hasTokens || !c.matching.isEmpty || !c.ready.isEmpty || c.done.any (fun t => !t.staged.isEmpty)

def Cell.clearTokens (c : Cell) : Cell :=
  { c with ctxs := c.ctxs.map Ctx.clearTokens, matching := [], ready := [], running := none, done := [], held := [], gen := {}, waitFrom := [], frameFrom := [] }

/-- What a history still had to put out at the end of a phase is discarded, and an EOS of the phase is not passed in a later one (R79, R288). -/
def Hist.clearTokens (h : Hist) : Hist := { h with out := [], queue := h.queue.filter (fun i => match i with | .eos => false | _ => true) }

def Core.hasTokens (c : Core) : Bool :=
  c.cells.any (fun e => e.2.hasTokens) || c.matrix.ports.any (fun p => !p.fifo.isEmpty) || !c.matrix.edge.flight.isEmpty || c.matrix.run.isSome
    || c.hpEdges.any (fun g => !g.flight.isEmpty)

def Core.clearTokens (c : Core) : Core :=
  { c with
    cells := c.cells.map (fun e => (e.1, e.2.clearTokens))
    matrix := { c.matrix with ports := [{}, {}, {}], run := none, edge := { c.matrix.edge with flight := [], rsv := 0 }, fwd := false }
    hists := c.hists.map (fun h => (h.1, h.2.clearTokens))
    hpEdges := c.hpEdges.map (fun g => { g with flight := [], rsv := 0 }) }

/-- The frames of a region go back to the isle's allocator (R69). -/
def State.reclaimFrames (s : State) (lead : Nat) : State :=
  s.modIsle (isleOf lead) (fun i => { i with frames := i.frames.filter (fun f => f.2.lead != lead), returns := i.returns.filter (fun r => s.leadOf r.rcd.core != lead) })

/-- Offset of the completion word in the lead core's scratchpad (R73). -/
def completionAt : Nat := 0xF8

/-- The completion of a region's phase reaches the race checkers of its isle (R104): its cores begin a new phase, and the others drop the records of its
agents. The synchronisation slots of its cores are emptied, but for the one that the release store of the completion word has just left (R79): DESIGN CHOICE,
R103 does not say what becomes of them (log 92). -/
def State.settle (s : State) (cores : List Nat) (isle : Nat) : State :=
  { s with cores := s.cores.map (fun e =>
      if cores.contains e.1 then (e.1, { e.2 with rphase := e.2.rphase + 1, words := [], sync := e.2.sync.filter (fun y => y.1 == completionAt / 4) })
      else if isleOf e.1 = isle then
        (e.1, { e.2 with words := e.2.words.map (fun w => (w.1, { w.2 with
          writes := w.2.writes.filter (fun r => !(r.key.route == 0 && cores.contains r.key.core)),
          reads := w.2.reads.filter (fun r => !(r.key.route == 0 && cores.contains r.key.core)) })) })
      else e) }

/-- The cores of the region that a core leads. -/
def State.regionCores (s : State) (lead : Nat) : List Nat := match s.regionAt lead with | some r => r.coreList | none => [lead]

/-- Completion word (R79). -/
def completionWord (rc : Rc) (st : Nat) (residue : Bool) : Nat :=
  (if bit rc.poisonP 16 then rc.poisonP % 2 ^ 16 else 0) * 2 ^ 48 + rc.phase % 2 ^ 16 * 2 ^ 32 + Bool.nat residue * 2 ^ 3 + Bool.nat (bit rc.poisonP 16) * 2 ^ 2 + st

/-- The completion word of a phase that ends now; `residue` forces the residue bit (R79, R255). -/
def State.phaseWord (s : State) (lead st : Nat) (residue : Bool) : Nat :=
  completionWord (s.rc lead) st (residue || (s.rc lead).residue || (s.regionCores lead).any (fun k => (s.core k).hasTokens))

/-- A phase ends with a completion state: what is left of its tokens is discarded, frames are reclaimed, the completion word is stored, and the race
checkers settle. `residue` forces the residue bit (R255). -/
def State.endPhase (s : State) (lead st : Nat) (residue : Bool) : State :=
  let cores := s.regionCores lead
  let w := s.phaseWord lead st residue
  let s1 := cores.foldl (fun s k => s.modCore k Core.clearTokens) s
  let s2 := (s1.reclaimFrames lead).settle cores (isleOf lead)
  let s3 := { s2 with mem := Memory.writeN s2.mem (spadBase lead + completionAt) (leBytes 8 w) }
  s3.modRc lead (fun r => { r with inPhase := false, aborting := false, dying := false, residue := false, ended := st, word := w, barc := [] })

/-! ## How a node ends (R80, R284, R240) -/

/-- Source of the records of a die's node scheduler, context sequencer, collective engine. -/
def schedKey (die : Nat) : Nat := unitKey 4 die 60
def sequencerKey (die : Nat) : Nat := unitKey 4 die 61
def collKey (die : Nat) : Nat := unitKey 4 die 62

/-- A node terminates: its copies stop, its shadows are discarded (R108), its communicators lose a member. Its successors are cancelled as the scheduler comes
to it (R80). -/
def State.stopNode (s : State) (n : Nat) : State :=
  let pt := s.partOfNode n
  let s1 := (s.modNode n (fun v => { v with st := 4, ops := v.ops.map (fun o => { o with shadow := [] }) })).reclaim pt (s.busyTiles pt)
  let s2 := { s1 with cores := s1.cores.map (fun (e : Nat × Core) => (e.1, { e.2 with copies := e.2.copies.filter (fun c => c.2.node != n) })) }
  (s2.loseNode n).endMembers n

/-- The cores of a region go back to the scheduler. -/
def State.freeRegion (s : State) (lead : Nat) : State := { s with regions := s.regions.filter (fun r => r.lead != lead) }

/-- A region fails at once (R80, R96): its phase ends with state 10, its RC stops, its node terminates. -/
def State.failRegion (s : State) (lead : Nat) : State :=
  match s.regionAt lead with
  | none => s.modRc lead (fun r => { r with mode := .stopped })
  | some g =>
    let s1 := if (s.rc lead).inPhase then s.endPhase lead 2 false else s.reclaimFrames lead
    ((s1.modRc lead (fun r => { r with mode := .stopped })).stopNode g.node).freeRegion lead

/-- A region fails (R80, R240): its RC stops, and a running phase ends as for ABORTR, so that what is dispatched completes and what a history has accepted is
applied; then its node terminates. -/
def State.endRegion (s : State) (lead : Nat) : State :=
  if (s.regionAt lead).isSome && (s.rc lead).inPhase then s.modRc lead (fun r => { r with mode := .stopped, aborting := true, dying := true })
  else s.failRegion lead

/-- A terminating cause ends a region: a race, and what the race checker cannot hold, at once (R92, R96: its agents stop where they stand), any other as R240
says. -/
def State.terminate (s : State) (lead cause : Nat) : State := if cause = 0x055 ∨ cause = 0x056 then s.failRegion lead else s.endRegion lead

/-- The synchronisation slots of cores are emptied. -/
def State.emptySlots (s : State) (cores : List Nat) : State := { s with cores := s.cores.map (fun e => if cores.contains e.1 then (e.1, { e.2 with sync := [] }) else e) }

/-- The RC stores the completion word with release, and the phase ends (R79); a race on the word fails the region (R96). The slots of the phase are emptied
first, so that the word finds one (log 92). -/
def State.finishPhase (s : State) (lead st : Nat) (residue : Bool) : State :=
  let r := (s.emptySlots (s.regionCores lead)).release lead 8
  match r.1.atomicAt (r.1.agent lead 8) lead completionAt 8 1 (s.phaseWord lead st residue) 0 3 (some r.2) with
  | (_, .error f) => (if f.posted then s else s.postFault 2 1 lead 48 f.cause f.addr f.detail 0).failRegion lead
  | (t, .ok _) => t.endPhase lead st residue

/-! ## Taking an exception -/

/-- Causes that a cell instruction raises with the phase terminating (R302), and an absent route (R365). -/
def endsPhase (cause : Nat) : Bool := cause == 0x139 || cause == 0x055 || cause == 0x056 || (decide (0x038 ≤ cause) && decide (cause ≤ 0x03F))

/-- The tag of the task that a cell runs (R341). -/
def Task.tag (t : Task) : Nat := tagWord t.iter t.frame t.ctx t.cls

/-- A cell instruction faults (R13, R177, R302): its record is posted, its task ends as dropped and counts as completed; a terminating cause ends
the phase and the node. kind: 0 the cell, 3 its memory port (R341). -/
def State.taskFault (s : State) (k l kind : Nat) (f : Fail) : State :=
  let tag := match (s.cell k l).running with | some t => t.tag | none => 0
  let s1 := (if f.posted then s else s.postFault (if endsPhase f.cause then 2 else 0) kind k l f.cause f.addr f.detail tag).endTask k l true
  if endsPhase f.cause then s1.terminate (s.leadOf k) f.cause else s1

/-- An engine or port of a core faults with the phase terminating (R227, R342): the record, then the region fails. -/
def State.engineFault (s : State) (k loc kind : Nat) (f : Fail) (tag : Nat) : State :=
  (if f.posted then s else s.postFault 2 kind k loc f.cause f.addr f.detail tag).terminate (s.leadOf k) f.cause

/-- A record about an RC: of its partition at kernel level, else in the manager's queue (R305, R342). -/
def State.postRc (s : State) (k sev : Nat) (f : Fail) : State :=
  if (s.rc k).level = 0 then s.postFault sev 1 k 48 f.cause f.addr f.detail 0
  else s.post 16 0 (agentId k 48) (dieOf k % 4) (faultBody f.cause sev 1 0 f.detail (agentId k 48) f.addr 0) false

/-- An RC instruction faults (R240, R305): nothing that it would have written is written, the RC stops. At kernel level the phase ends and the node
terminates; at supervisor and manager level the record goes to the manager's queue and the nodes run on. -/
def State.rcFault (s : State) (k : Nat) (f : Fail) : State :=
  if (s.rc k).level = 0 then (if f.posted then s else s.postRc k 2 f).terminate k f.cause
  else (s.postRc k 2 f).modRc k (fun r => { r with mode := .stopped })

/-- A cause posted with severity info; what raised it goes on (R342). -/
def State.infoFault (s : State) (k loc kind cause addr tag : Nat) : State := s.postFault 0 kind k loc cause addr 0 tag

/-! ## Tokens at a port (R31, R32, R66, R386) -/

/-- A token's marker behaviour refuses it: a reserved subkind, or one whose bit is clear (R32, R151). -/
def refusesMark (w : Nat) (t : Token) : Bool := t.kind == .mark && !pwMark w t.cls

/-- A token reaches a cell's or a matrix engine's port. What the port refuses is consumed with severity info (R386); an EOS at a drop port has no effect. -/
def State.reach (s : State) (d : Dest) (srcE : Nat) (t : Token) (host : List HostPub) : State :=
  let w := s.inWord d.core d.loc d.ctx d.port
  let tag := tagWord t.iter t.frame d.ctx t.cls
  let cut (s : State) : State := if t.kind = .data then s else s.modPort d.core d.loc d.ctx d.port (fun p => { p with got := 0 })
  let refuse (c : Nat) : State := (cut s).infoFault d.core d.loc (if d.loc < 32 then 0 else 2) c 0 tag
  let lead := s.leadOf d.core
  if refusesMark w t ∨ t.kind = .notice then refuse 0x020
  else if 32 ≤ d.loc then s.pushPort d srcE t [] host
  else if pwEos w = 3 ∧ (t.kind = .data ∨ t.kind = .eos) ∧ !(s.rc lead).inPhase ∧ (s.rc lead).phase ≠ 0 then refuse 0x0E5
  else if t.kind = .eos ∧ pwEos w = 2 then refuse 0x0E5
  else if t.kind = .eos ∧ pwEos w = 1 ∧ !pwRec w then cut s
  else s.pushPort d srcE t [] host

/-! ## The return from SYS (R250, R314, R326) -/

/-- An RC that waits in SYS resumes at its next instruction with the value of the RETS in qd. -/
def Rc.resume (r : Rc) (qd : Nat) (v : W64) : Rc := { r with mode := .running, q := if qd = 0 then r.q else r.q.set qd v, pc := r.pc + 4 }

end Sys2Proof.Machine
end

