-- ==== Sys2Proof/Machine/Operands.lean ====
section
/-! DEFINITION. The operand codes of a cell (R8, R136), the register files (R22, R23), and the one operation by which a value-producing instruction
reads its sources, writes d and pushes its result (R14, R158, R159). -/

namespace Sys2Proof.Machine

/-- What a running instruction sees of its cell. -/
structure Env where
  core  : Nat
  cell  : Nat
  task  : Task
  draw  : List W32
  deriving Repr

def Env.agent (e : Env) : Nat := agentId e.core e.cell
/-- Draw of a lane (R44). -/
def Env.rnd (e : Env) (i : Nat) : Nat := (e.draw.getD i 0).toNat

/-- The number one in a format (R8). -/
def oneBits (f : Fmt) : Nat :=
  if isI f then 1 else if isFMX f then (convVal f 127 0 0 false (.fin false 1 0)).1 else (Config.oneOf (fmtCode f)).toNat

/-- Block scale of a constant: 1 for an MX tag (R174). -/
def constXs (f : Fmt) : Nat := if isMX f then 127 else 0

/-- A constant-pool word as a source (R8, R174). -/
def State.poolReg (s : State) (k l x i : Nat) : Reg :=
  let f := s.constFmt k l x i
  mkReg f (constXs f) false 0 (fun _ => some (s.constWord k l x i % 2 ^ fmtWidth f))

/-- Operand i of a task. -/
def Task.operand (t : Task) (i : Nat) : Reg := ((t.ops[i]?).map (·.tok.reg)).getD Reg.empty

/-- The register that a source code names (R136). `other` is the tag that k.zero and k.one take. -/
def State.source (s : State) (e : Env) (other : Fmt) (c : Nat) : Reg :=
  let ce := s.cell e.core e.cell
  let cx := ce.ctx e.task.ctx
  let n32 (f : Nat → Nat) : Reg := fullReg .n32 f
  if c < 4 then ce.l.getD c Reg.empty
  else if c < 8 then e.task.operand (c - 4)
  else if c < 16 then cx.o.getD (c - 8) Reg.empty
  else if c < 32 then ce.mains.getD (s.mapEntry e.core e.cell e.task.ctx (c - 16)) Reg.empty
  else match c with
  | 32 => mkReg other (constXs other) false 0 (fun _ => some 0)
  | 33 => mkReg other (constXs other) false 0 (fun _ => some (oneBits other))
  | 34 => n32 id
  | 35 => n32 (fun _ => e.task.iter.toNat)
  | 36 => n32 (fun _ => e.task.frame)
  | 37 => n32 (fun _ => e.task.cls)
  | 38 => n32 (fun _ => ((e.task.ops[0]?).map (·.pos)).getD 0)
  | 39 => n32 (fun _ => (e.task.operand 0).xs)
  | 40 => n32 e.rnd
  | _ => if c < 48 then s.poolReg e.core e.cell e.task.ctx (c - 41) else Reg.empty

/-- The tag of the other source that k.zero and k.one take: FP32 when there is none (R8). -/
def State.otherTag (s : State) (e : Env) (cs : List Nat) : Fmt :=
  ((cs.find? (fun c => c != 32 && c != 33)).map (fun c => (s.source e .fp32 c).fmt)).getD .fp32

/-- The sources of an instruction. -/
def State.sources (s : State) (e : Env) (cs : List Nat) : List Reg := cs.map (s.source e (s.otherTag e cs))

/-- A write to a register of the cell (R22, R23, R136); other codes are no destination. -/
def State.writeReg (s : State) (e : Env) (d : Nat) (r : Reg) : State :=
  if 8 ≤ d ∧ d < 16 then s.modCtx e.core e.cell e.task.ctx (fun c => { c with o := c.o.set (d - 8) r })
  else if 16 ≤ d ∧ d < 32 then s.modCell e.core e.cell (fun c => { c with mains := c.mains.set (s.mapEntry e.core e.cell e.task.ctx (d - 16)) r })
  else s

/-- Push (R14): l3 ← l2, l2 ← l1, l1 ← l0, l0 ← r. -/
def State.pushL (s : State) (k l : Nat) (r : Reg) : State := s.modCell k l (fun c => { c with l := (r :: c.l).take 4 })

/-- The running task's next halfword. -/
def State.advance (s : State) (k l len : Nat) : State :=
  s.modCell k l (fun c => { c with running := c.running.map (fun t => { t with pc := t.pc + len }) })

/-- The instruction draws: the context's generator has stepped 16 times (R44). -/
def State.drawn (s : State) (e : Env) (yes : Bool) : State :=
  if yes then s.modCtx e.core e.cell e.task.ctx (fun c => { c with gen := (draws 16 c.gen).2 }) else s

/-- The cell in focus and its running task; an instruction with no running task has nothing to do. -/
def State.withTask (s : State) (f : Env → State) : State :=
  match (s.cell s.fcore s.fcell).running with
  | none => s
  | some t => f ⟨s.fcore, s.fcell, t, (draws 16 (s.ctx s.fcore s.fcell t.ctx).gen).1⟩

/-- A drawing instruction has rm = SR or reads k.seed (R44). -/
def isDrawing (rm : Nat) (cs : List Nat) : Bool := rm == 5 || cs.contains 40

/-- A source of tag NONE is a mismatch (R22); other checks are the instruction's. -/
def State.readAll (s : State) (e : Env) (cs : List Nat) : Except Nat (List Reg) :=
  let rs := s.sources e cs
  if rs.any (fun r => r.fmt == .none) then .error 0x00B else .ok rs

/-- The result of a value-producing instruction: d written, pushed, the draws taken, the next instruction. -/
def State.writeResult (s : State) (e : Env) (len d : Nat) (draw : Bool) (r : Reg) : State :=
  (((s.drawn e draw).writeReg e d r).pushL e.core e.cell r).advance e.core e.cell len

/-- A value-producing instruction of len halfwords: its sources read, its result from them written and pushed, or its fault (R13, R158, R159). -/
def State.produce (s : State) (len d rm : Nat) (cs : List Nat) (f : Env → List Reg → Except Nat Reg) : State :=
  s.withTask (fun e =>
    match (s.readAll e cs).bind (f e) with
    | .error c => s.taskFault e.core e.cell 0 ⟨c, 0, 0, false⟩
    | .ok r => s.writeResult e len d (isDrawing rm cs) r)

/-- The outcome of a cell's instruction. -/
abbrev Out := Host.Outcome State Fault Refusal

def State.compute (s : State) (len d rm : Nat) (cs : List Nat) (f : Env → List Reg → Except Nat Reg) : Out := .next (s.produce len d rm cs f)

end Sys2Proof.Machine
end

