-- ==== Sys2Proof/Machine/CellArith.lean ====
section
/-! DEFINITION. Arithmetic and special functions of the cells: opcodes 0x00 to 0x0F and 0x20 to 0x27 (R162 to R164, R166). -/

namespace Sys2Proof.Machine

/-- The exact value of a float element. -/
def fval (f : Fmt) (w : Nat) : Val := match fspec f with | some g => decodeF g w | none => .nan

/-- ⟦x⟧ of chapter 09: RoundSat when s = 1, RoundTo otherwise, in mode rm with the lane's draw. -/
def roundLane (e : Env) (f : Fmt) (rm s i : Nat) (x : Ex) : Nat × Bool := roundEx f rm (e.rnd i) (s == 1) false x

/-- An exact integer result wrapped; x selects the trapping variant (R160). -/
def wrapLane (f : Fmt) (x : Nat) (v : Int) : Nat × Bool := (wrap f v, x == 1 && !inRange f v)

/-- Binary arithmetic on class F or class I sources of one tag (R162). -/
def arith2 (fop : Val → Val → Ex) (iop : Int → Int → Int) (rm s x : Nat) (e : Env) : List Reg → Except Nat Reg
  | [a, b] => do
    need isFI a; need isFI b; sameTag a b
    return laneFrame e.agent [a, b] a.fmt 0 (fun i =>
      if isF a.fmt then roundLane e a.fmt rm s i (fop (fval a.fmt (elemOf a i)) (fval a.fmt (elemOf b i)))
      else wrapLane a.fmt x (iop (intVal a.fmt (elemOf a i)) (intVal a.fmt (elemOf b i))))
  | _ => .error 0x00B

def addSem (rm s x : Nat) := arith2 (addEx rm) (· + ·) rm s x
def subSem (rm s x : Nat) := arith2 (fun a b => addEx rm a (negVal b)) (· - ·) rm s x
def mulSem (rm s x : Nat) := arith2 mulEx (· * ·) rm s x

/-- Fused forms (R56, R162): the product exact, one rounding; c is the old d. -/
def fusedSem (negProd negC : Bool) (rm s : Nat) (e : Env) : List Reg → Except Nat Reg
  | [a, b, c] => do
    need isFI a; need isFI b; need isFI c; sameTag a b; sameTag a c
    return laneFrame e.agent [a, b, c] a.fmt 0 (fun i =>
      if isF a.fmt then
        let v := fval a.fmt (elemOf c i)
        roundLane e a.fmt rm s i (fmaEx rm negProd (fval a.fmt (elemOf a i)) (fval a.fmt (elemOf b i)) (if negC then negVal v else v))
      else
        let p := intVal a.fmt (elemOf a i) * intVal a.fmt (elemOf b i)
        let v := intVal a.fmt (elemOf c i)
        wrapLane a.fmt 0 ((if negProd then -p else p) + (if negC then -v else v)))
  | _ => .error 0x00B

/-- The lesser (or greater) of two elements of a tag (R162): NaN propagates, −0 lies below +0. -/
def pickLane (greater : Bool) (f : Fmt) (a b : Nat) : Nat :=
  if isF f then
    let x := fval f a; let y := fval f b
    if isNan x || isNan y then canonNaN f else if (if greater then ltVal true x y else ltVal true y x) then b else a
  else if (if greater then decide (intVal f a < intVal f b) else decide (intVal f b < intVal f a)) then b else a

def minMaxSem (greater : Bool) (e : Env) : List Reg → Except Nat Reg
  | [a, b] => do
    need isFI a; need isFI b; sameTag a b
    return laneFrame e.agent [a, b] a.fmt 0 (fun i => (pickLane greater a.fmt (elemOf a i) (elemOf b i), false))
  | _ => .error 0x00B

/-- A float with its sign replaced; a NaN gives the canonical NaN (R162). -/
def signLane (f : Fmt) (w : Nat) (neg : Bool) : Nat :=
  if isNan (fval f w) then canonNaN f else w % 2 ^ (fmtWidth f - 1) + Bool.nat neg * 2 ^ (fmtWidth f - 1)

def absSem (e : Env) : List Reg → Except Nat Reg
  | [a] => do
    need isFI a
    return laneFrame e.agent [a] a.fmt 0 (fun i =>
      if isF a.fmt then (signLane a.fmt (elemOf a i) false, false) else wrapLane a.fmt 0 (intVal a.fmt (elemOf a i)).natAbs)
  | _ => .error 0x00B

def negSem (e : Env) : List Reg → Except Nat Reg
  | [a] => do
    need isFI a
    return laneFrame e.agent [a] a.fmt 0 (fun i =>
      if isF a.fmt then (signLane a.fmt (elemOf a i) (!bit (elemOf a i) (fmtWidth a.fmt - 1)), false) else wrapLane a.fmt 0 (-(intVal a.fmt (elemOf a i))))
  | _ => .error 0x00B

/-- DIV (R162): an integer divided by zero gives 0 with poison; the quotient is truncated toward zero. -/
def divSem (rm s : Nat) (e : Env) : List Reg → Except Nat Reg
  | [a, b] => do
    need isFI a; need isFI b; sameTag a b
    return laneFrame e.agent [a, b] a.fmt 0 (fun i =>
      if isF a.fmt then roundLane e a.fmt rm s i (divEx (fval a.fmt (elemOf a i)) (fval a.fmt (elemOf b i)))
      else if intVal a.fmt (elemOf b i) = 0 then (0, true) else wrapLane a.fmt 0 ((intVal a.fmt (elemOf a i)).tdiv (intVal a.fmt (elemOf b i))))
  | _ => .error 0x00B

/-- Integer-only binary operations (R163). -/
def intSem2 (op : Fmt → Int → Int → Nat) (e : Env) : List Reg → Except Nat Reg
  | [a, b] => do
    need isI a; need isI b; sameTag a b
    return laneFrame e.agent [a, b] a.fmt 0 (fun i => (op a.fmt (intVal a.fmt (elemOf a i)) (intVal a.fmt (elemOf b i)), false))
  | _ => .error 0x00B

def addsSem := intSem2 (fun f x y => wrap f (clampInt f (x + y)))
def subsSem := intSem2 (fun f x y => wrap f (clampInt f (x - y)))
def mulhSem := intSem2 (fun f x y => cut (fmtWidth f) (x * y / (2 ^ fmtWidth f : Nat)))

/-- ADDI and MULI (R164): k is the immediate, rounded RNE on float tags. -/
def immSem (fop : Val → Val → Ex) (iop : Int → Int → Int) (i : Nat) (e : Env) : List Reg → Except Nat Reg
  | [a] => do
    need isFI a
    let k := signExt 11 i
    return laneFrame e.agent [a] a.fmt 0 (fun j =>
      if isF a.fmt then roundEx a.fmt 0 0 false false (fop (fval a.fmt (elemOf a j)) (fval a.fmt (roundEx a.fmt 0 0 false false (Ex.ofVal (valOfInt k))).1))
      else wrapLane a.fmt 0 (iop (intVal a.fmt (elemOf a j)) (intVal a.fmt (wrap a.fmt k))))
  | _ => .error 0x00B

/-- The special functions (R166), numbered from 0x20. -/
def specialSem (n rm s : Nat) (e : Env) : List Reg → Except Nat Reg
  | [a] => do
    need isF a
    return laneFrame e.agent [a] a.fmt 0 (fun i => roundLane e a.fmt rm s i (specialEx n (fval a.fmt (elemOf a i))))
  | _ => .error 0x00B

/-! ## The instructions -/

/-- ADD (R162). -/
def execAdd (d a b r s x : Nat) (st : State) : Out := st.compute 2 d r [a, b] (addSem r s x)
/-- SUB (R162). -/
def execSub (d a b r s x : Nat) (st : State) : Out := st.compute 2 d r [a, b] (subSem r s x)
/-- MUL (R162). -/
def execMul (d a b r s x : Nat) (st : State) : Out := st.compute 2 d r [a, b] (mulSem r s x)
/-- FMA (R162): a·b + d. -/
def execFma (d a b r s : Nat) (st : State) : Out := st.compute 2 d r [a, b, d] (fusedSem false false r s)
/-- FMS (R162): a·b − d. -/
def execFms (d a b r s : Nat) (st : State) : Out := st.compute 2 d r [a, b, d] (fusedSem false true r s)
/-- FNMA (R162): −(a·b) + d. -/
def execFnma (d a b r s : Nat) (st : State) : Out := st.compute 2 d r [a, b, d] (fusedSem true false r s)
/-- MIN (R162). -/
def execMin (d a b : Nat) (st : State) : Out := st.compute 2 d 0 [a, b] (minMaxSem false)
/-- MAX (R162). -/
def execMax (d a b : Nat) (st : State) : Out := st.compute 2 d 0 [a, b] (minMaxSem true)
/-- ABS (R162). -/
def execAbs (d a : Nat) (st : State) : Out := st.compute 2 d 0 [a] absSem
/-- NEG (R162). -/
def execNegOp (d a : Nat) (st : State) : Out := st.compute 2 d 0 [a] negSem
/-- DIV (R162). -/
def execDiv (d a b r s : Nat) (st : State) : Out := st.compute 2 d r [a, b] (divSem r s)
/-- ADDS (R163). -/
def execAdds (d a b : Nat) (st : State) : Out := st.compute 2 d 0 [a, b] addsSem
/-- SUBS (R163). -/
def execSubs (d a b : Nat) (st : State) : Out := st.compute 2 d 0 [a, b] subsSem
/-- MULH (R163). -/
def execMulh (d a b : Nat) (st : State) : Out := st.compute 2 d 0 [a, b] mulhSem
/-- ADDI (R164). -/
def execAddi (d a i : Nat) (st : State) : Out := st.compute 2 d 0 [a] (immSem (addEx 0) (· + ·) i)
/-- MULI (R164). -/
def execMuli (d a i : Nat) (st : State) : Out := st.compute 2 d 0 [a] (immSem mulEx (· * ·) i)
/-- RCP (R166). -/
def execRcp (d a r s : Nat) (st : State) : Out := st.compute 2 d r [a] (specialSem 0 r s)
/-- RSQ (R166). -/
def execRsq (d a r s : Nat) (st : State) : Out := st.compute 2 d r [a] (specialSem 1 r s)
/-- SQRT (R166). -/
def execSqrt (d a r s : Nat) (st : State) : Out := st.compute 2 d r [a] (specialSem 2 r s)
/-- EXP2 (R166). -/
def execExp2 (d a r s : Nat) (st : State) : Out := st.compute 2 d r [a] (specialSem 3 r s)
/-- LOG2 (R166). -/
def execLog2 (d a r s : Nat) (st : State) : Out := st.compute 2 d r [a] (specialSem 4 r s)
/-- TANH (R166). -/
def execTanh (d a r s : Nat) (st : State) : Out := st.compute 2 d r [a] (specialSem 5 r s)
/-- SINP (R166). -/
def execSinp (d a r s : Nat) (st : State) : Out := st.compute 2 d r [a] (specialSem 6 r s)
/-- COSP (R166). -/
def execCosp (d a r s : Nat) (st : State) : Out := st.compute 2 d r [a] (specialSem 7 r s)

end Sys2Proof.Machine
end

