-- ==== Sys2Proof/Machine/CellBits.lean ====
section
/-! DEFINITION. Bitwise operations, shifts, bit fields, compare, select, valid bits and classification: opcodes 0x10 to 0x1F and 0x28 to 0x2F (R165,
R167, R168). -/

namespace Sys2Proof.Machine

/-- Bitwise operations on class I sources of one tag (R165). -/
def bitSem (op : Nat → Nat → Nat) (e : Env) : List Reg → Except Nat Reg
  | [a, b] => do
    need isI a; need isI b; sameTag a b
    return laneFrame e.agent [a, b] a.fmt 0 (fun i => (op (elemOf a i) (elemOf b i), false))
  | _ => .error 0x00B

/-- Operations of one class I source and a number n (R165): the element, its width. -/
def bitSem1 (op : Nat → Nat → Nat) (e : Env) : List Reg → Except Nat Reg
  | [a] => do
    need isI a
    return laneFrame e.agent [a] a.fmt 0 (fun i => (op (fmtWidth a.fmt) (elemOf a i), false))
  | _ => .error 0x00B

/-- Shifts (R165): n is b's element read as unsigned; b may carry any class I tag. -/
def shiftSem (op : Nat → Nat → Nat → Nat) (e : Env) : List Reg → Except Nat Reg
  | [a, b] => do
    need isI a; need isI b
    return laneFrame e.agent [a, b] a.fmt 0 (fun i => (op (fmtWidth a.fmt) (elemOf a i) (elemOf b i), false))
  | _ => .error 0x00B

def shlBits (w a n : Nat) : Nat := if w ≤ n then 0 else a * 2 ^ n % 2 ^ w
def shrBits (w a n : Nat) : Nat := if w ≤ n then 0 else a / 2 ^ n
def shaBits (w a n : Nat) : Nat := cut w (signExt w a / (2 ^ min n w : Nat))
def rotBits (w a n : Nat) : Nat := a * 2 ^ (n % w) % 2 ^ w + a / 2 ^ (w - n % w)
def clzBits (w a : Nat) : Nat := if a = 0 then w else w - 1 - Nat.log2 a
def popBits (w a : Nat) : Nat := ((List.range w).filter (fun i => bit a i)).length

/-- BFX (R165): bits l … l + k of a, zero- or sign-extended. -/
def bfxBits (x k l w a : Nat) : Nat :=
  let f := bits (a % 2 ^ w) (l + k) l
  if x = 1 then cut w (signExt (k + 1) f) else f % 2 ^ w

/-- CMP (R167): 0 eq, 1 ne, 2 lt, 3 le, 4 gt, 5 ge; a NaN makes ne alone true; −0 equals +0. -/
def cmpLane (f : Fmt) (c a b : Nat) : Bool :=
  let nan := isF f && (isNan (fval f a) || isNan (fval f b))
  let lt := if isF f then ltVal false (fval f a) (fval f b) else decide (intVal f a < intVal f b)
  let gt := if isF f then ltVal false (fval f b) (fval f a) else decide (intVal f b < intVal f a)
  match c with
  | 0 => !nan && !lt && !gt
  | 1 => nan || lt || gt
  | 2 => !nan && lt
  | 3 => !nan && !gt
  | 4 => !nan && gt
  | _ => !nan && !lt

def allOnes (b : Bool) : Nat := if b then 0xFFFFFFFF else 0

def cmpSem (c : Nat) (e : Env) : List Reg → Except Nat Reg
  | [a, b] => do
    need isFI a; need isFI b; sameTag a b
    return laneFrame e.agent [a, b] .n32 0 (fun i => (allOnes (cmpLane a.fmt c (elemOf a i) (elemOf b i)), false))
  | _ => .error 0x00B

/-- A register of a kept where `keep` holds; cleared lanes hold zero (R168, R184). -/
def keepLanes (a : Reg) (p : Bool) (origin : Nat) (keep : Nat → Bool) : Reg :=
  mkReg a.fmt a.xs p origin (fun i => if okAt a i && keep i then some (laneOf a i) else none)

def setvSem (_ : Env) : List Reg → Except Nat Reg
  | [a, b] => do
    need isAny a; need isI b
    return keepLanes a (poisonOf [a, b] false) (originOf [a, b]) (fun i => okAt b i && elemOf b i != 0)
  | _ => .error 0x00B

/-- SEL (R168): sources a, b and the predicate l0. -/
def selSem (e : Env) : List Reg → Except Nat Reg
  | [a, b, p] => do
    need isAny a; sameTag a b; need isI p
    return laneFrame e.agent [a, b, p] a.fmt a.xs (fun i => (if elemOf p i ≠ 0 then laneOf a i else laneOf b i, false))
  | _ => .error 0x00B

/-- A number in every lane, with the poison and origin of a (R168). -/
def splat (v : Nat) (a : Reg) : Reg := mkReg .n32 0 a.p a.origin (fun _ => some v)

def validLanes (a : Reg) : List Nat := (List.range 16).filter (okAt a)

def cntvSem (_ : Env) : List Reg → Except Nat Reg
  | [a] => .ok (splat (validLanes a).length a)
  | _ => .error 0x00B

def firstvSem (_ : Env) : List Reg → Except Nat Reg
  | [a] => .ok (splat ((validLanes a).head?.getD 16) a)
  | _ => .error 0x00B

/-- The class of a float element as the number of its bit (R168). -/
def classBit (f : Fmt) (w : Nat) : Nat :=
  match fspec f with
  | none => 8
  | some g =>
    match decodeF g w with
    | .nan => 8
    | .inf n => if n then 0 else 7
    | .fin n m _ =>
      if m = 0 then (if n then 3 else 4)
      else if bits w (g.eb + g.mb - 1) g.mb = 0 then (if n then 2 else 5)
      else if n then 1 else 6

def classSem (e : Env) : List Reg → Except Nat Reg
  | [a] => do
    need isF a
    return laneFrame e.agent [a] .n32 0 (fun i => (2 ^ classBit a.fmt (elemOf a i), false))
  | _ => .error 0x00B

def cpsgnSem (e : Env) : List Reg → Except Nat Reg
  | [a, b] => do
    need isF a; need isF b; sameTag a b
    return laneFrame e.agent [a, b] a.fmt 0 (fun i => (signLane a.fmt (elemOf a i) (bit (elemOf b i) (fmtWidth b.fmt - 1)), false))
  | _ => .error 0x00B

/-- RNDI (R168): rounded to an integral value of its own format, never poisoned. -/
def rndiSem (rm : Nat) (e : Env) : List Reg → Except Nat Reg
  | [a] => do
    need isF a
    return laneFrame e.agent [a] a.fmt 0 (fun i =>
      let w := elemOf a i
      match fval a.fmt w with
      | .nan => (canonNaN a.fmt, false)
      | .inf _ => (w, false)
      | .fin n m x =>
        if m = 0 then (w, false)
        else
          let v := (roundInt rm (e.rnd i) n (.dyadic m x)).natAbs
          ((roundEx a.fmt 0 0 false false (if v = 0 then .zero n else .num n (.dyadic v 0))).1, false))
  | _ => .error 0x00B

/-! ## The instructions -/

/-- AND (R165). -/
def execAndOp (d a b : Nat) (st : State) : Out := st.compute 2 d 0 [a, b] (bitSem (· &&& ·))
/-- OR (R165). -/
def execOrOp (d a b : Nat) (st : State) : Out := st.compute 2 d 0 [a, b] (bitSem (· ||| ·))
/-- XOR (R165). -/
def execXor (d a b : Nat) (st : State) : Out := st.compute 2 d 0 [a, b] (bitSem (· ^^^ ·))
/-- NOT (R165). -/
def execNotOp (d a : Nat) (st : State) : Out := st.compute 2 d 0 [a] (bitSem1 (fun w x => 2 ^ w - 1 - x))
/-- SHL (R165). -/
def execShl (d a b : Nat) (st : State) : Out := st.compute 2 d 0 [a, b] (shiftSem shlBits)
/-- SHR (R165). -/
def execShr (d a b : Nat) (st : State) : Out := st.compute 2 d 0 [a, b] (shiftSem shrBits)
/-- SHA (R165). -/
def execSha (d a b : Nat) (st : State) : Out := st.compute 2 d 0 [a, b] (shiftSem shaBits)
/-- ROT (R165). -/
def execRot (d a b : Nat) (st : State) : Out := st.compute 2 d 0 [a, b] (shiftSem rotBits)
/-- CLZ (R165). -/
def execClz (d a : Nat) (st : State) : Out := st.compute 2 d 0 [a] (bitSem1 clzBits)
/-- POPC (R165). -/
def execPopc (d a : Nat) (st : State) : Out := st.compute 2 d 0 [a] (bitSem1 popBits)
/-- ANDI (R165): the immediate sign-extended, then cut to the element's width. -/
def execAndi (d a i : Nat) (st : State) : Out := st.compute 2 d 0 [a] (bitSem1 (fun w x => x &&& cut w (signExt 11 i)))
/-- ORI (R165). -/
def execOri (d a i : Nat) (st : State) : Out := st.compute 2 d 0 [a] (bitSem1 (fun w x => x ||| cut w (signExt 11 i)))
/-- SHLI (R165). -/
def execShli (d a i : Nat) (st : State) : Out := st.compute 2 d 0 [a] (bitSem1 (fun w x => shlBits w x i))
/-- SHRI (R165). -/
def execShri (d a i : Nat) (st : State) : Out := st.compute 2 d 0 [a] (bitSem1 (fun w x => shrBits w x i))
/-- SHAI (R165). -/
def execShai (d a i : Nat) (st : State) : Out := st.compute 2 d 0 [a] (bitSem1 (fun w x => shaBits w x i))
/-- BFX (R165): w is the field's width less one, l its low bit. -/
def execBfx (d a x w l : Nat) (st : State) : Out := st.compute 2 d 0 [a] (bitSem1 (bfxBits x w l))
/-- CMP (R167). -/
def execCmp (d a b c : Nat) (st : State) : Out := st.compute 2 d 0 [a, b] (cmpSem c)
/-- SETV (R168). -/
def execSetv (d a b : Nat) (st : State) : Out := st.compute 2 d 0 [a, b] setvSem
/-- SEL (R168): the predicate is l0. -/
def execSel (d a b : Nat) (st : State) : Out := st.compute 2 d 0 [a, b, 0] selSem
/-- CNTV (R168). -/
def execCntv (d a : Nat) (st : State) : Out := st.compute 2 d 0 [a] cntvSem
/-- FIRSTV (R168). -/
def execFirstv (d a : Nat) (st : State) : Out := st.compute 2 d 0 [a] firstvSem
/-- CLASS (R168). -/
def execClassOp (d a : Nat) (st : State) : Out := st.compute 2 d 0 [a] classSem
/-- CPSGN (R168). -/
def execCpsgn (d a b : Nat) (st : State) : Out := st.compute 2 d 0 [a, b] cpsgnSem
/-- RNDI (R168). -/
def execRndi (d a r : Nat) (st : State) : Out := st.compute 2 d r [a] (rndiSem r)

end Sys2Proof.Machine
end

