-- ==== Sys2Proof/Machine/CellLanes.lean ====
section
/-! DEFINITION. Conversion, quantization, lane movement, reduction and scan, moves and tag reads: opcodes 0x30 to 0x3F (R50, R52 to R54, R169 to R175). -/

namespace Sys2Proof.Machine

/-- Block scale of a conversion's result (R169): 1 for an MX target. -/
def cvtSem (f rm s : Nat) (e : Env) : List Reg → Except Nat Reg
  | [a] => do
    need isFIMX a
    let tf := fmtOf f
    return laneFrame e.agent [a] tf (constXs tf) (fun i => convert a.fmt a.xs (elemOf a i) tf (constXs tf) rm (e.rnd i) (s == 1))
  | _ => .error 0x00B

/-- QNT (R50, R169): the block is a's valid lanes; a NaN or an infinity in it gives scale 0xFF, zero elements and poison. -/
def qntSem (f rm : Nat) (e : Env) : List Reg → Except Nat Reg
  | [a] => do
    need isFMX a
    let tf := fmtOf f
    match blockScale tf ((List.range 16).filterMap (fun i => if okAt a i then some (elemVal a.fmt a.xs (elemOf a i)) else none)) with
    | some xs => return laneFrame e.agent [a] tf xs (fun i => convert a.fmt a.xs (elemOf a i) tf xs rm (e.rnd i) true)
    | none => return mkReg tf 255 true (resultOrigin e.agent [a] true) (fun i => if okAt a i then some 0 else none)
  | _ => .error 0x00B

/-- DQN (R169). -/
def dqnSem (f rm s : Nat) (e : Env) : List Reg → Except Nat Reg
  | [a] => do
    need isMX a
    return laneFrame e.agent [a] (fmtOf f) 0 (fun i => convert a.fmt a.xs (elemOf a i) (fmtOf f) 0 rm (e.rnd i) (s == 1))
  | _ => .error 0x00B

/-- XSC (R170): b gives tag, scale and marks; its lanes are not read. -/
def xscSem (rm : Nat) (e : Env) : List Reg → Except Nat Reg
  | [a, b] => do
    need isFMX a; need isMX b
    if b.xs = 255 then
      return mkReg b.fmt 255 true (resultOrigin e.agent [a, b] true) (fun i => if okAt a i then some 0 else none)
    else
      let r := laneFrame e.agent [a] b.fmt b.xs (fun i => convert a.fmt a.xs (elemOf a i) b.fmt b.xs rm (e.rnd i) true)
      return { r with p := r.p || b.p, origin := if a.p || (r.p && !b.p) then r.origin else if b.p then b.origin else 0 }
  | _ => .error 0x00B

/-- FMTS (R171): the bits stay; a NaN of the new tag becomes its canonical NaN. -/
def fmtsSem (f : Nat) (_ : Env) : List Reg → Except Nat Reg
  | [a] => do
    let tf := fmtOf f
    need (fun t => t != .none && t != .rcd && fmtWidth t == fmtWidth tf) a
    return mkReg tf (if isMX tf then (if isMX a.fmt then a.xs else 127) else 0) a.p a.origin (fun i =>
      if okAt a i then
        some (match fspec tf with
          | some g => if isNan (decodeF g (elemOf a i)) then canonNaN tf else elemOf a i
          | none => elemOf a i)
      else none)
  | _ => .error 0x00B

/-- A lane of a copied with its valid bit (R172). -/
def lane? (a : Reg) (j : Nat) : Option Nat := if okAt a j then some (laneOf a j) else none

def shufSem (_ : Env) : List Reg → Except Nat Reg
  | [a, b] => do
    need isAny a; need isI b
    return mkReg a.fmt a.xs (poisonOf [a, b] false) (originOf [a, b]) (fun i => if okAt b i then lane? a (elemOf b i % 16) else none)
  | _ => .error 0x00B

/-- BCAST and ROTL (R172): lane i takes lane `src i`. -/
def moveSem (src : Nat → Nat) (_ : Env) : List Reg → Except Nat Reg
  | [a] => return mkReg a.fmt a.xs a.p a.origin (fun i => lane? a (src i))
  | _ => .error 0x00B

/-- The combination of a variant of R173: 0 sum, 1 min, 2 max, 3 and, 4 or, 5 xor; `j` is the lane whose draw it uses. -/
def combine (e : Env) (f : Fmt) (var rm s j : Nat) (x y : Nat) : Nat × Bool :=
  match var with
  | 0 => if isF f then roundLane e f rm s j (addEx rm (fval f x) (fval f y)) else wrapLane f 0 (intVal f x + intVal f y)
  | 1 => (pickLane false f x y, false)
  | 2 => (pickLane true f x y, false)
  | 3 => (x &&& y, false)
  | 4 => (x ||| y, false)
  | _ => (x ^^^ y, false)

/-- One level of the tree of R53: position j takes position j + w, and one that stands alone passes as it is: a lone NaN keeps its sign and payload. DESIGN
CHOICE: R53 says that it is not rounded, R39 that NaN results are canonical (log 96). The flag says whether any combination so far was exceptional. -/
def treeLevel (op : Nat → Nat → Nat → Nat × Bool) (w : Nat) (acc : List (Option Nat) × Bool) : List (Option Nat) × Bool :=
  (List.range 16).foldl (fun acc j =>
    if j % (2 * w) ≠ 0 then acc else
    match acc.1.getD j none, acc.1.getD (j + w) none with
    | some x, some y => let r := op j x y; (acc.1.set j (some r.1), acc.2 || r.2)
    | none, some y => (acc.1.set j (some y), acc.2)
    | _, none => acc) acc

/-- The tree of R53 over sixteen positions: the result, absent when every lane was. -/
def treeOf (op : Nat → Nat → Nat → Nat × Bool) (vs : List (Option Nat)) : Option Nat × Bool :=
  let r := [1, 2, 4, 8].foldl (fun acc w => treeLevel op w acc) (vs, false)
  (r.1.getD 0 none, r.2)

/-- The left fold of R54: the value at each valid lane; the first passes as it is, a NaN with its sign and payload (DESIGN CHOICE, log 96). -/
def scanFrom (op : Nat → Nat → Nat → Nat × Bool) : Nat → Option Nat → Bool → List (Option Nat) → List (Option Nat) × Bool
  | _, _, exc, [] => ([], exc)
  | i, acc, exc, none :: r => let q := scanFrom op (i + 1) acc exc r; (none :: q.1, q.2)
  | i, none, exc, some x :: r => let q := scanFrom op (i + 1) (some x) exc r; (some x :: q.1, q.2)
  | i, some y, exc, some x :: r =>
    let v := op i y x
    let q := scanFrom op (i + 1) (some v.1) (exc || v.2) r
    (some v.1 :: q.1, q.2)

def elems (a : Reg) : List (Option Nat) := (List.range 16).map (fun i => if okAt a i then some (elemOf a i) else none)

/-- The classes that a variant accepts (R173). -/
def needVar (var : Nat) (a : Reg) : Except Nat Unit := need (if var ≤ 2 then isFI else isI) a

def redlSem (var rm s : Nat) (e : Env) : List Reg → Except Nat Reg
  | [a] => do
    needVar var a
    let r := treeOf (combine e a.fmt var rm s) (elems a)
    return mkReg a.fmt 0 (poisonOf [a] r.2) (resultOrigin e.agent [a] r.2) (fun i => if i = 0 then r.1 else none)
  | _ => .error 0x00B

def scanlSem (var rm s : Nat) (e : Env) : List Reg → Except Nat Reg
  | [a] => do
    needVar var a
    let r := scanFrom (combine e a.fmt var rm s) 0 none false (elems a)
    return mkReg a.fmt 0 (poisonOf [a] r.2) (resultOrigin e.agent [a] r.2) (fun i => r.1.getD i none)
  | _ => .error 0x00B

/-- MOV (R174): everything unchanged. -/
def movSem (_ : Env) : List Reg → Except Nat Reg
  | [a] => return a
  | _ => .error 0x00B

/-- MOVH (R174). -/
def movhSem (i : Nat) (e : Env) : List Reg → Except Nat Reg
  | [a] => do
    need (fun f => f == .s32 || f == .n32) a
    return laneFrame e.agent [a] a.fmt 0 (fun j => (i % 2 ^ 16 * 2 ^ 16 + elemOf a j % 2 ^ 16, false))
  | _ => .error 0x00B

/-- TAGRD (R175): the value of field f, from the tag or from operand k. -/
def tagField (t : Task) (k f : Nat) : Nat :=
  let o := (t.ops[k]?).getD default
  match f with
  | 0 => t.iter.toNat
  | 1 => t.frame
  | 2 => t.ctx
  | 3 => t.cls
  | 4 => fmtCode o.tok.reg.fmt
  | 5 => Bool.nat o.tok.reg.p
  | 6 => o.tok.reg.origin
  | 7 => o.tok.reg.valid.toNat
  | 8 => o.tok.reg.xs
  | 9 => Bool.nat o.tok.b
  | 10 => o.tok.route
  | _ => o.pos

def tagrdSem (k f : Nat) (e : Env) (_ : List Reg) : Except Nat Reg :=
  let o := e.task.operand k
  return mkReg .n32 0 (decide (4 ≤ f) && o.p) o.origin (fun _ => some (tagField e.task k f))

/-! ## The instructions -/

/-- CVT (R169). -/
def execCvt (d a f r s : Nat) (st : State) : Out := st.compute 2 d r [a] (cvtSem f r s)
/-- QNT (R169). -/
def execQnt (d a f r : Nat) (st : State) : Out := st.compute 2 d r [a] (qntSem f r)
/-- DQN (R169). -/
def execDqn (d a f r s : Nat) (st : State) : Out := st.compute 2 d r [a] (dqnSem f r s)
/-- XSC (R170). -/
def execXsc (d a b r : Nat) (st : State) : Out := st.compute 2 d r [a, b] (xscSem r)
/-- FMTS (R171). -/
def execFmts (d a f : Nat) (st : State) : Out := st.compute 2 d 0 [a] (fmtsSem f)
/-- SHUF (R172). -/
def execShuf (d a b : Nat) (st : State) : Out := st.compute 2 d 0 [a, b] shufSem
/-- BCAST (R172). -/
def execBcast (d a i : Nat) (st : State) : Out := st.compute 2 d 0 [a] (moveSem (fun _ => i))
/-- ROTL (R172). -/
def execRotl (d a i : Nat) (st : State) : Out := st.compute 2 d 0 [a] (moveSem (fun j => (j + i) % 16))
/-- REDL (R173). -/
def execRedl (d a b r s : Nat) (st : State) : Out := st.compute 2 d r [a] (redlSem b r s)
/-- SCANL (R173). -/
def execScanl (d a b r s : Nat) (st : State) : Out := st.compute 2 d r [a] (scanlSem b r s)
/-- IOTA (R174). -/
def execIota (d i : Nat) (st : State) : Out := st.compute 2 d 0 [] (fun _ _ => return fullReg .s32 (fun j => cut 32 (signExt 11 i + j)))
/-- MOV (R174). -/
def execMov (d a : Nat) (st : State) : Out := st.compute 2 d 0 [a] movSem
/-- MOVI (R174). -/
def execMovi (d i : Nat) (st : State) : Out := st.compute 2 d 0 [] (fun _ _ => return fullReg .s32 (fun _ => cut 32 (signExt 17 i)))
/-- MOVH (R174): d is a source too. -/
def execMovh (d i : Nat) (st : State) : Out := st.compute 2 d 0 [d] (movhSem i)
/-- LDC (R174): a word of the constant pool. -/
def execLdc (d n : Nat) (st : State) : Out := st.compute 2 d 0 [] (fun e _ => return st.poolReg e.core e.cell e.task.ctx n)
/-- TAGRD (R175). -/
def execTagrd (d k f : Nat) (st : State) : Out := st.compute 2 d 0 [] (tagrdSem k f)

end Sys2Proof.Machine
end

