-- ==== Sys2Proof/Machine/CellFlow.lean ====
section
/-! DEFINITION. Tokens that a task emits, its end, calls, coalescing and traps: opcodes 0x40 to 0x4F and their compact forms (R177 to R188). -/

namespace Sys2Proof.Machine

/-- The running task stages an effect (R177). -/
def State.putStaged (s : State) (e : Env) (g : Staged) : State :=
  s.modCell e.core e.cell (fun c => { c with running := c.running.map (fun t => { t with staged := t.staged ++ [g] }) })

/-- A DATA token is staged on an edge, or the emit's fault (R178). -/
def State.emit (s : State) (e : Env) (edge : Nat) (t : Token) : Except Nat State :=
  match s.emitFault e.core e.cell e.task.ctx edge t with
  | some c => .error c
  | none => .ok (s.putStaged e (.tok edge t))

/-- An instruction with sources that produces no result: its effect and the next instruction, or its fault. -/
def State.flow (s : State) (len : Nat) (cs : List Nat) (f : Env → List Reg → Except Nat State) : State :=
  s.withTask (fun e =>
    match (s.readAll e cs).bind (f e) with
    | .error c => s.taskFault e.core e.cell 0 ⟨c, 0, 0, false⟩
    | .ok t => (t.drawn e (isDrawing 0 cs)).advance e.core e.cell len)

/-- iter after a tagop (R139, R179): 0 kept, 1 .inc, 2 .dec, 3 .zero, 6 .set from lane 0. -/
def tagIter (t : Nat) (iter : W16) (src : Option Reg) : Except Nat W16 :=
  match t, src with
  | 1, _ => .ok (iter + 1)
  | 2, _ => .ok (iter - 1)
  | 3, _ => .ok 0
  | 6, some r => if okAt r 0 then .ok (BitVec.ofNat 16 (laneOf r 0)) else .error 0x018
  | _, _ => .ok iter

/-- A predicate lane holds: valid and not all zero bits (R179, R180). -/
def holds (p : Reg) (i : Nat) : Bool := okAt p i && laneOf p i != 0

def emitOne (s : State) (edge c t : Nat) (e : Env) : List Reg → Except Nat State
  | [r] => do
    let k ← tagIter t e.task.iter none
    s.emit e edge (dataToken r c e.task.frame k)
  | [r, q] => do
    let k ← tagIter t e.task.iter (some q)
    s.emit e edge (dataToken r c e.task.frame k)
  | _ => .error 0x00B

def emitPred (s : State) (edge c t : Nat) (e : Env) : List Reg → Except Nat State
  | [r, p] => do
    let k ← tagIter t e.task.iter none
    s.emit e edge (dataToken (keepLanes r (poisonOf [r, p] false) (originOf [r, p]) (holds p)) c e.task.frame k)
  | _ => .error 0x00B

/-- STEER (R180): the whole token by lane 0 of the predicate, or the lanes split over both edges, e first. -/
def steerTo (s : State) (edge c t x : Nat) (e : Env) : List Reg → Except Nat State
  | [r, p] => do
    let k ← tagIter t e.task.iter none
    let tok (keep : Nat → Bool) : Token := dataToken (keepLanes r (poisonOf [r, p] false) (originOf [r, p]) keep) c e.task.frame k
    if x = 1 then
      let s1 ← s.emit e edge (tok (fun i => !holds p i))
      s1.emit e (edge + 1) (tok (holds p))
    else s.emit e (if holds p 0 then edge + 1 else edge) (tok (fun _ => true))
  | _ => .error 0x00B

/-- MERGE (R181): x = 1 lets b win where both are valid. -/
def mergeSem (x : Nat) (_ : Env) : List Reg → Except Nat Reg
  | [a, b] => do
    sameTag a b
    return mkReg a.fmt a.xs (poisonOf [a, b] false) (originOf [a, b]) (fun i =>
      if okAt a i && (!okAt b i || x == 0) then some (laneOf a i) else if okAt b i then some (laneOf b i) else none)
  | _ => .error 0x00B

/-- FWDM (R182): the marker in the slot, which empties. -/
def fwdmTo (s : State) (edge : Nat) (e : Env) : State :=
  match (s.ctx e.core e.cell e.task.ctx).slot with
  | none => s
  | some t => (s.putStaged e (.tok edge t)).modCtx e.core e.cell e.task.ctx (fun c => { c with slot := none })

/-- CALL (R185): the frame record, and the argument token under the reserved frame. -/
def callTo (s : State) (edge c er rc : Nat) (e : Env) : List Reg → Except Nat State
  | [r] =>
    match e.task.newFrame with
    | none => .error 0x028
    | some f => (s.putStaged e (.call f ⟨e.core, e.cell, e.task.ctx, e.task.frame, e.task.iter, er, rc⟩)).emit e edge (dataToken r c f e.task.iter)
  | _ => .error 0x00B

/-- The state of the task's frame as the task sees it (R186): 1 ACTIVE, 2 RETURNED, 0 released; its own staged effects count. -/
def State.frameSt (s : State) (e : Env) : Nat :=
  e.task.staged.foldl (fun st g => match g with
    | .ret _ keep _ => if keep then 2 else 0
    | .free _ => 0
    | _ => st) (match s.frame e.core e.task.frame with | some v => if v.st = 1 ∨ v.st = 2 then v.st else 0 | none => 0)

def retTo (s : State) (x : Nat) (e : Env) : List Reg → Except Nat State
  | [r] =>
    if e.task.frame = 0 then .error 0x028
    else if s.frameSt e ≠ 1 then .error 0x02D
    else .ok (s.putStaged e (.ret e.task.frame (x == 1) r))
  | _ => .error 0x00B

def freeTo (s : State) (e : Env) : Except Nat State :=
  if e.task.frame = 0 then .error 0x028 else if s.frameSt e = 0 then .error 0x02D else .ok (s.putStaged e (.free e.task.frame))

/-- A token of k elements in lanes 0 … k − 1 (R187). -/
def packed (es : List W32) (fmt : Fmt) (xs : Nat) (p : Bool) (origin : Nat) : Reg :=
  mkReg fmt xs p origin (fun i => (es[i]?).map (·.toNat))

def Coal.reg (b : Coal) : Reg := packed (b.elems.take 16) b.fmt b.xs b.p b.origin

/-- COAL (R187). The buffer is as it was when the emit faults. -/
def coalTo (s : State) (edge : Nat) (e : Env) : List Reg → Except Nat State
  | [a] =>
    let b := (s.ctx e.core e.cell e.task.ctx).coal
    let es := (List.range 16).filterMap (fun i => (lane? a i).map (BitVec.ofNat 32))
    let some' := !b.elems.isEmpty
    if a.fmt = .rcd then .error 0x00B
    else if some' ∧ (a.fmt ≠ b.fmt ∨ a.xs ≠ b.xs) then .error 0x033
    else if some' ∧ b.edge ≠ edge then .error 0x035
    else if es = [] then .ok s
    else
      let bp := some' && b.p
      let b1 : Coal := { elems := b.elems ++ es, fmt := a.fmt, xs := a.xs, p := bp || a.p,
                         origin := if bp then b.origin else if a.p then a.origin else 0, edge := edge,
                         cls := e.task.cls, frame := e.task.frame, iter := e.task.iter }
      let put (s : State) (v : Coal) : State := s.modCtx e.core e.cell e.task.ctx (fun c => { c with coal := v })
      if b1.elems.length < 16 then .ok (put s b1)
      else do
        let s1 ← s.emit e edge (dataToken b1.reg e.task.cls e.task.frame e.task.iter)
        return put s1 { b1 with elems := b1.elems.drop 16, p := a.p, origin := if a.p then a.origin else 0 }
  | _ => .error 0x00B

/-- FLUSHC (R187). -/
def flushTo (s : State) (edge : Nat) (e : Env) : Except Nat State :=
  let b := (s.ctx e.core e.cell e.task.ctx).coal
  if b.elems.isEmpty then .ok s
  else if b.edge ≠ edge then .error 0x035
  else do
    let s1 ← s.emit e edge (dataToken b.reg e.task.cls e.task.frame e.task.iter)
    return s1.modCtx e.core e.cell e.task.ctx (fun c => { c with coal := { c.coal with elems := [] } })

def pchkSem (_ : Env) : List Reg → Except Nat Reg
  | [a] => return mkReg .n32 0 a.p a.origin (fun _ => some (allOnes a.p))
  | _ => .error 0x00B

def trapIf (s : State) (n : Nat) (_ : Env) : List Reg → Except Nat State
  | [a] => if (List.range 16).any (holds a) then .error (0x038 + n) else .ok s
  | _ => .error 0x00B

/-- The running task ends (R183). -/
def State.finish (s : State) (drop : Bool) : State := s.withTask (fun e => s.endTask e.core e.cell drop)

/-- FILT (R184): the result, and the end of the task when no lane of it is valid. -/
def State.filter (s : State) (d a b x : Nat) : State :=
  s.withTask (fun e =>
    match s.readAll e [a, b] with
    | .ok [u, v] =>
      let r := keepLanes u (poisonOf [u, v] false) (originOf [u, v]) (holds v)
      let t := s.writeResult e 2 d (isDrawing 0 [a, b]) r
      if r.valid = 0 then t.endTask e.core e.cell (x == 1) else t
    | _ => s.taskFault e.core e.cell 0 ⟨0x00B, 0, 0, false⟩)

/-! ## The instructions -/

/-- EMIT (R179). -/
def execEmit (e r c t g : Nat) (st : State) : Out := .next (st.flow 2 (if t = 6 then [r, g % 64] else [r]) (emitOne st e c t))
/-- EMIT_COMPACT (R179): tagop 0. -/
def execCEmit (e r c : Nat) (st : State) : Out := .next (st.flow 1 [r] (emitOne st e c 0))
/-- EMITV (R179). -/
def execEmitv (e r c t p : Nat) (st : State) : Out := .next (st.flow 2 [r, p] (emitPred st e c t))
/-- STEER (R180). -/
def execSteer (e r c t x p : Nat) (st : State) : Out := .next (st.flow 2 [r, p] (steerTo st e c t x))
/-- MERGE (R181). -/
def execMerge (d a b x : Nat) (st : State) : Out := st.compute 2 d 0 [a, b] (mergeSem x)
/-- EMEOS (R182). -/
def execEmeos (e : Nat) (st : State) : Out := .next (st.flow 2 [] (fun v _ => .ok (st.putStaged v (.tok e (eosToken v.task.frame v.task.iter)))))
/-- FWDM (R182). -/
def execFwdm (e : Nat) (st : State) : Out := .next (st.flow 2 [] (fun v _ => .ok (fwdmTo st e v)))
/-- CALL (R185). -/
def execCall (e r c er rc : Nat) (st : State) : Out := .next (st.flow 2 [r] (callTo st e c er rc))
/-- RET (R186). -/
def execRet (r x : Nat) (st : State) : Out := .next (st.flow 2 [r] (retTo st x))
/-- FREEF (R186). -/
def execFreef (st : State) : Out := .next (st.flow 2 [] (fun e _ => freeTo st e))
/-- FILT (R184). -/
def execFilt (d a b x : Nat) (st : State) : Out := .next (st.filter d a b x)
/-- COAL (R187): d is the edge's code. -/
def execCoal (d a : Nat) (st : State) : Out := .next (st.flow 2 [a] (coalTo st (d - 48)))
/-- FLUSHC (R187). -/
def execFlushc (d : Nat) (st : State) : Out := .next (st.flow 2 [] (fun e _ => flushTo st (d - 48) e))
/-- PCHK (R188). -/
def execPchk (d a : Nat) (st : State) : Out := st.compute 2 d 0 [a] pchkSem
/-- TRAPC (R188). -/
def execTrapc (a i : Nat) (st : State) : Out := .next (st.flow 2 [a] (trapIf st i))
/-- END (R183). -/
def execEndOp (st : State) : Out := .next (st.finish false)
/-- DROP (R183). -/
def execDropOp (st : State) : Out := .next (st.finish true)
/-- END_COMPACT (R183). -/
def execCEnd (st : State) : Out := .next (st.finish false)
/-- DROP_COMPACT (R183). -/
def execCDrop (st : State) : Out := .next (st.finish true)

end Sys2Proof.Machine
end

