-- ==== Sys2Proof/Machine/Frontier.lean ====
section
/-! DEFINITION. Logical times and frontiers (R120 to R125, R134), record tokens (R118, R216), and the hash of a key (R14). -/

namespace Sys2Proof.Machine

/-- A time: (epoch, round) (R120). -/
abbrev Time := Nat × Nat

def leTime (s t : Time) : Bool := decide (s.1 ≤ t.1) && decide (s.2 ≤ t.2)
def joinTime (s t : Time) : Time := (max s.1 t.1, max s.2 t.2)
def meetTime (s t : Time) : Time := (min s.1 t.1, min s.2 t.2)
/-- The lexicographic order that extends the product order (R120). -/
def lexTime (s t : Time) : Bool := decide (s.1 < t.1) || (s.1 == t.1 && decide (s.2 < t.2))

/-- A list in which t stands before the first element after it, once. -/
def insertTime (t : Time) : List Time → List Time
  | [] => [t]
  | x :: r => if t = x then x :: r else if lexTime t x then t :: x :: r else x :: insertTime t r

/-- Times in lexicographic order, each once: for an antichain, increasing epoch order (R123). -/
def sortTimes (ts : List Time) : List Time := ts.foldr insertTime []

/-- The minimal elements. -/
def minimal (ts : List Time) : List Time :=
  let u := sortTimes ts
  u.filter (fun t => !(u.any (fun x => x ≠ t && leTime x t)))

/-- F passes a time (R122). -/
def passes (f : List Time) (t : Time) : Bool := !(f.any (fun x => leTime x t))

/-- F is not ahead of G (R122). -/
def notAhead (f g : List Time) : Bool := g.all (fun t => f.any (fun x => leTime x t))

/-- Reduction to at most four elements (R125). -/
def reduceFrom : Nat → List Time → List Time
  | 0, ts => ts
  | n + 1, ts => if ts.length ≤ 4 then ts else match ts with | a :: b :: r => reduceFrom n (minimal (meetTime a b :: r)) | _ => ts

/-- The reduced meet of several frontiers (R125). -/
def meetFronts (fs : List (List Time)) : List Time := let u := minimal fs.flatten; reduceFrom u.length u

/-- adv_F(t), the meet over F of t ∨ f; none for an empty F (R134). -/
def advTime (f : List Time) (t : Time) : Option Time :=
  match f.map (joinTime t) with
  | [] => none
  | x :: r => some (r.foldl meetTime x)

/-- The antichain in lanes 0 to 7 (R124, R216), in register order; none where a pair is split or one element is ≤ another. -/
def frontOf (r : Reg) : Option (List Time) :=
  if (List.range 4).any (fun j => okAt r (2 * j) != okAt r (2 * j + 1)) then none
  else
    let ts := (List.range 4).filterMap (fun j => if okAt r (2 * j) then some ((laneOf r (2 * j), laneOf r (2 * j + 1)) : Time) else none)
    let u := sortTimes ts
    if u.length = ts.length ∧ (minimal ts).length = ts.length then some u else none

/-- A frontier in the lane layout of R124. -/
def frontReg (f : List Time) : Reg := mkReg .n32 0 false 0 (fun i => (f[i / 2]?).map (fun t => if i % 2 = 0 then t.1 else t.2))

/-- Hash(k) (R14). -/
def hashKey (k : Nat) : Nat := bits (k * 0x9E3779B97F4A7C15 % 2 ^ 64) 63 32

/-- The b top bits of the hash: the bucket (R127). -/
def bucketOf (b k : Nat) : Nat := hashKey k / 2 ^ (32 - b)

/-! ## Record tokens (R118, R216) -/

/-- Value words of a record token: the valid lanes from 5 on. -/
def recValues (r : Reg) : Nat := ((List.range 11).filter (fun i => okAt r (5 + i))).length

/-- A record operand: false for a null record, true for a change; 0x00B where the tag or the layout fails. `w` is the declared width, where there is one. -/
def recCheck (w : Option Nat) (r : Reg) : Except Nat Bool :=
  let n := ((List.range 5).filter (okAt r)).length
  let v := recValues r
  if r.fmt ≠ .rcd then .error 0x00B
  else if n = 0 then .ok false
  else if n ≠ 5 ∨ (List.range v).any (fun i => !okAt r (5 + i)) then .error 0x00B
  else if (match w with | some x => x != v | none => false) then .error 0x00B
  else .ok true

def recKey (r : Reg) : Nat := laneOf r 0 + laneOf r 1 * 2 ^ 32
def recTime (r : Reg) : Time := (laneOf r 2, laneOf r 3)

/-- A null record with marks. -/
def nullRec (p : Bool) (origin : Nat) : Reg := mkReg .rcd 0 p origin (fun _ => none)

/-- A record with some lanes replaced; the valid bits are those of a. -/
def recWith (a : Reg) (p : Bool) (origin : Nat) (f : Nat → Option Nat) : Reg :=
  mkReg .rcd 0 p origin (fun i => if okAt a i then some ((f i).getD (laneOf a i)) else none)

end Sys2Proof.Machine
end

