-- ==== Sys2Proof/Machine/Remote.lean ====
section
/-! DEFINITION. Remote scratchpad accesses (R99, R102, R113, R365). -/

namespace Sys2Proof.Machine

/-- The request class of an access (R117, R366): by the hash of its line's address, which in another package is that of its place among the cores
(log 27). -/
def requestClass (r : RemoteReq) : Nat := bits (hashKey ((spadBase r.dst + r.addr) / 64)) 2 0

/-- Scratchpad bytes of a core that an agent id names: none where the id names nothing (R2, R18). An access to such a core is out of
bounds, 0x049: DEDUCED, R102 names no cause of its own for it (log 101). -/
def State.spadOf (s : State) (core : Nat) : Nat := if s.fuses.fifteen && isleOf core == s.fuses.absent then 0 else spadSize core

/-! ## Remote accesses -/

/-- A remote access sets out (R102): within the package it travels to its core, else it leaves by the route table, or faults with 0x139 (R365). -/
def State.sendRemote (s : State) (core route : Nat) (r : RemoteReq) : Except Nat State :=
  let pt := s.partAt core
  let tag := s.routeTag pt route
  if tag = 0 then .ok { s with reqs := s.reqs ++ [r] }
  else if (s.routeEntry pt tag).isNone then .error 0x139
  else .ok (s.leave pt tag (64 + requestClass r) (.access { r with src := { r.src with route := (s.part pt).dtag } }))

/-- Scratchpad bytes of a far access's target (R102): every package has the same cores. -/
def State.farSize (s : State) (route core : Nat) : Nat := if route = 0 then s.spadOf core else spadSize core

/-- Remote accesses that an agent waits for before a release (R100, R113). -/
def State.remoteOut (s : State) (k h : Nat) : Nat := (aget (s.core k).remote h).getD 0
def State.countRemote (s : State) (k h : Nat) (n : Int) : State :=
  s.modCore k (fun c => { c with remote := aset c.remote h (((aget c.remote h).getD 0 : Nat) + n).toNat })

/-- The remote atomics of an agent that have not performed (R101, R192): size, scope, whether it acquires. -/
def State.atomsOut (s : State) (k h : Nat) : List (Nat × Nat × Bool) := (aget (s.core k).atoms h).getD []
def State.noteAtom (s : State) (k h : Nat) (a : Nat × Nat × Bool) : State :=
  s.modCore k (fun c => { c with atoms := aset c.atoms h ((aget c.atoms h).getD [] ++ [a]) })
def State.dropAtom (s : State) (k h : Nat) (a : Nat × Nat × Bool) : State :=
  s.modCore k (fun c => { c with atoms := aset c.atoms h (((aget c.atoms h).getD []).erase a) })

/-- An atomic as its issuer counts it. -/
def reqAtom (r : RemoteReq) : Nat × Nat × Bool := (r.size, r.scope, r.order % 2 == 1)

/-- The number of bytes of a scratchpad that a remote access touches, and whether it touches any of a range. -/
def reqLen (r : RemoteReq) : Nat := match r.kind with | .store => r.bytes.length | _ => r.size
def reqOverlaps (r : RemoteReq) (core off n : Nat) : Bool := r.dst == core && decide (r.addr < off + n) && decide (off < r.addr + reqLen r)

/-- Two remote accesses of one source that perform in the order in which they set out: those to one address (R90, R117), and atomics of one size and scope
(R101). -/
def reqInOrder (a b : RemoteReq) : Bool :=
  a.src == b.src && (requestClass a == requestClass b || reqOverlaps a b.dst b.addr (reqLen b) || (a.kind == .atom && b.kind == .atom && a.size == b.size && a.scope == b.scope))

/-- An access of an agent to bytes of this package waits behind its own access to any of them that is still in flight (R90). -/
def State.behindOwn (s : State) (key : AgentKey) (core off n : Nat) : Bool :=
  s.reqs.any (fun r => !r.reply && r.src == key && reqOverlaps r core off n)

/-- No remote access of a region's cores is outstanding (R80, R322, R327; log 87). -/
def State.remoteClear (s : State) (cores : List Nat) : Bool := cores.all (fun k => (s.core k).remote.all (fun e => e.2 == 0))

/-- What an atomic of an agent releases: its own release, or that of its last fence (R100). -/
def State.relFor (s : State) (k h order : Nat) : State × Option Clr :=
  if order / 2 % 2 = 1 then (let r := s.release k h; (r.1, some r.2)) else (s, (s.ord k h).frel)

/-- A remote atomic of an agent. -/
def State.atomReq (s : State) (k h dst addr size op x cmp order scope : Nat) (rel : Option Clr) : RemoteReq :=
  let a := s.agent k h
  { (default : RemoteReq) with
    src := a.key
    oc := a.oc
    clr := a.clr
    dst := dst
    addr := addr
    kind := .atom
    size := size
    bytes := leBytes size x
    op := op
    cmp := cmp
    order := order
    scope := scope
    rel := rel }

/-- A remote store of masked bytes by an agent; a release waits for its completion. -/
def State.sendStore (s : State) (k h core route off : Nat) (bytes mask : List Byte) : Except Nat State :=
  let a := s.agent k h
  (s.sendRemote k route { (default : RemoteReq) with src := a.key, oc := a.oc, clr := a.clr, dst := core, addr := off, kind := .store, bytes := bytes, mask := mask }).map
    (fun t => t.countRemote k h 1)

end Sys2Proof.Machine
end

