-- ==== Sys2Proof/Machine/Port.lean ====
section
/-! DEFINITION. The port of a memory cell: the layouts of a transfer (R28, R51, R190), what each request does when it performs (R189 to R198), and the order in
which requests are held and released (R89, R92, R93). -/

namespace Sys2Proof.Machine

/-! ## Layouts (R28, R190) -/

/-- Bytes of a transfer, and its alignment: 64 unpacked, 2w packed. -/
def transferBytes (p : Bool) (f : Fmt) : Nat := if p then 2 * fmtWidth f else 64
def packAlign (p : Bool) (f : Fmt) : Nat :=
  if !p then 4 else match fmtWidth f with | 16 => 32 | 8 => 16 | 6 => 4 | _ => 8

/-- The bytes of a token and the bits of them that its valid elements write (R189 item 2). -/
def tokenImage (p : Bool) (r : Reg) : List Byte × List Byte :=
  let w := if p then fmtWidth r.fmt else 32
  let sum (g : Nat → Nat) : Nat := (List.range 16).foldl (fun a i => a + (if okAt r i then g i else 0) * 2 ^ (w * i)) 0
  (leBytes (2 * w) (sum (fun i => laneOf r i % 2 ^ w)), leBytes (2 * w) (sum (fun _ => 2 ^ w - 1)))

/-- Lane i of the token that bytes hold: the element's low bits; none where a byte of it lies in a discarded line (R189 item 4). -/
def imageLane (p : Bool) (f : Fmt) (bytes : List Byte) (gone : List Bool) (i : Nat) : Option Nat :=
  let w := if p then fmtWidth f else 32
  if (List.range ((w * i + w + 7) / 8 - w * i / 8)).any (fun j => gone.getD (w * i / 8 + j) false) then none
  else some (leNat bytes / 2 ^ (w * i) % 2 ^ fmtWidth f)

/-- A loaded token (R189 item 4, R190). -/
def loaded (p : Bool) (f : Fmt) (a : Reg) (bytes : List Byte) (gone : List Bool) : Reg :=
  mkReg f (constXs f) a.p a.origin (imageLane p f bytes gone)

/-- The result of a load whose address lane is invalid (R189 item 1). -/
def noLanes (f : Fmt) (xs : Nat) (a : Reg) : Reg := mkReg f xs a.p a.origin (fun _ => none)

/-- An address operand carries N32 or S32 (R189 item 1). -/
def isAddr (f : Fmt) : Bool := f == .n32 || f == .s32

/-! ## External requests (R194) -/

/-- Buffer offset and operand number that an address operand names. -/
def externOf (a : Reg) : Nat × Nat :=
  let g (i : Nat) : Nat := if okAt a i then laneOf a i else 0
  (g 0 + g 1 * 2 ^ 32, g 2 % 8)

/-- The external lines of a request: node operand's VA range, none for a request that touches no external memory. -/
def State.externLines (s : State) (k : Nat) (r : MemReq) : Option (Nat × Nat) :=
  let range (p : Bool) (f : Fmt) (a : Reg) : Option (Nat × Nat) :=
    let e := externOf a
    let va := (s.operand ((s.nodeAt k).map (·.1) |>.getD 0) e.2).start + e.1
    some (va / 64, (va + transferBytes p f - 1) / 64)
  match r with
  | .ste p d a => range p d.fmt a
  | .lde f p a _ => range p f a
  | _ => none

def isExtern : MemReq → Bool
  | .ste .. => true
  | .lde .. => true
  | _ => false

def disjoint (a b : Option (Nat × Nat)) : Bool :=
  match a, b with
  | some x, some y => decide (x.2 < y.1) || decide (y.2 < x.1)
  | _, _ => true

/-! ## Barriers (R110) -/

/-- Where a barrier's address leads: the local or isle window, 16-byte aligned (R198). -/
def barrierPlace (k addr : Nat) : Except Fail (Nat × Nat) :=
  match halves k addr 16 1 false with
  | .error f => .error f
  | .ok (h :: _) => if addr % 16 ≠ 0 then .error ⟨0x072, addr, 0, false⟩ else .ok (h.core, h.off)
  | .ok [] => .error ⟨0x044, addr, 0, false⟩

/-! ## What a request does when it performs -/

/-- A failure of external memory as a failure of the access. -/
def externFail (c : Nat × Nat) : Fail := ⟨c.1, c.2, 0, false⟩

/-- The origin and POISONED of a sink that stores a poisoned token (R189 item 3). -/
def State.sinkPoison (s : State) (k l x : Nat) (d : Reg) : State := if d.p then s.cellPoison k l x d.origin else s

/-- A store through .rem (R102, R190): its target's offset is checked at once, and it sets out. -/
def State.doStsRem (s : State) (k l x : Nat) (p : Bool) (d a : Reg) : Did Unit :=
  let img := tokenImage p d
  let core := laneOf a 1 % 2 ^ 16 / 64
  let route := s.routeTag (s.partAt k) (if okAt a 2 then laneOf a 2 % 2 ^ 16 else 0)
  if !okAt a 0 || !okAt a 1 then (s, .ok ())
  else if s.farSize route core < laneOf a 0 + transferBytes p d.fmt then (s, .error ⟨0x049, laneOf a 0, 0, false⟩)
  else if laneOf a 0 % packAlign p d.fmt ≠ 0 then (s, .error ⟨0x04A, laneOf a 0, 0, false⟩)
  else match s.sendStore k (handleOf l) core route (laneOf a 0) img.1 img.2 with
  | .error c => (s, .error ⟨c, laneOf a 0, 0, false⟩)
  | .ok t => (t.sinkPoison k l x d, .ok ())

/-- A half of a straddling store performs (R85): its bytes from p on. -/
def State.storeHalf (s : State) (k l : Nat) (h : Half) (bytes mask : List Byte) : Did Unit := s.storeAt (s.agent k (handleOf l)) h.core h.off bytes mask

/-- The two halves of a straddle with their bytes and masks; which of them performs first is free (R85). -/
def halfStores (hs : List Half) (img : List Byte × List Byte) : List (Half × List Byte × List Byte) :=
  match hs with
  | [a, b] => [(a, img.1.take a.n, img.2.take a.n), (b, img.1.drop a.n, img.2.drop a.n)]
  | _ => []

/-- STS (R190). A straddle performs one half; what is left is the other, which performs at a later turn (R85). -/
def State.doSts (s : State) (k l x : Nat) (p rem : Bool) (d a : Reg) : Did (Option MemReq) :=
  let img := tokenImage p d
  if rem then (s.doStsRem k l x p d a).map id (·.map (fun _ => none))
  else if !okAt a 0 then (s, .ok none)
  else
    let straddle := match halves k (laneOf a 0) (transferBytes p d.fmt) (packAlign p d.fmt) true with
      | .ok hs => if laneOf a 0 / 2 ^ 28 = 2 then [] else halfStores hs img
      | .error _ => []
    match straddle with
    | [u, v] =>
      let f := s.free
      let (g, h) := if f.1 % 2 = 0 then (u, v) else (v, u)
      (match f.2.storeHalf k l g.1 g.2.1 g.2.2 with
       | (t, .error e) => (t, .error e)
       | (t, .ok _) => (t, .ok (some (.half h.1.core h.1.off h.2.1 h.2.2 d))))
    | _ =>
      match s.store (s.agent k (handleOf l)) k (laneOf a 0) img.1 img.2 (packAlign p d.fmt) true with
      | (t, .error f) => (t, .error f)
      | (t, .ok _) => (t.sinkPoison k l x d, .ok none)

/-- The other half of a straddling store performs (R85). -/
def State.doHalf (s : State) (k l x core off : Nat) (bytes mask : List Byte) (d : Reg) : Did Unit :=
  match s.storeHalf k l ⟨core, off, bytes.length⟩ bytes mask with
  | (t, .error e) => (t, .error e)
  | (t, .ok _) => (t.sinkPoison k l x d, .ok ())

/-- Stores of one element per lane, in lane order, to the first that fails; the failing lane stands in the detail. `past` goes on behind a lane whose
multicast copies have raced. -/
def State.storeLanes (s : State) (k l n : Nat) (past : Bool) (lanes : List (Nat × Nat × Nat)) : Did Unit :=
  lanes.foldl (fun (acc : Did Unit) q =>
    match acc with
    | (t, .error f) => (t, .error f)
    | (t, .ok _) =>
      match t.store (t.agent k (handleOf l)) k q.2.1 (leBytes n q.2.2) (List.replicate n 255) n false with
      | (t, .error f) => if past && f.posted then (t, .ok ()) else (t, .error { f with detail := if f.cause = 0x055 then f.detail else q.1 })
      | r => r) (s, .ok ())

/-- Stores of one element per lane: every lane is checked before any performs (R191, R195). A lane through the multicast window whose copy races at a member
has its other copies performed and its records raised, as R86 and R96 state for a multicast store, and no later lane performs (log 99). -/
def State.scatter (s : State) (k l n : Nat) (lanes : List (Nat × Nat × Nat)) : Did Unit :=
  match s.storeLanes k l n true lanes with
  | (_, .error f) => (s, .error f)
  | (_, .ok _) => s.storeLanes k l n false lanes

/-- STX (R191). -/
def State.doStx (s : State) (k l x : Nat) (d a : Reg) : Did Unit :=
  match s.scatter k l (fmtWidth d.fmt / 8) ((List.range 16).filterMap (fun i => if okAt a i && okAt d i then some (i, laneOf a i, laneOf d i) else none)) with
  | (t, .ok _) => (t.sinkPoison k l x d, .ok ())
  | r => r

/-- EXPD (R87, R195): a holds value and coordinate, d the tile base. -/
def State.doExpd (s : State) (k l x : Nat) (d a : Reg) : Did Unit :=
  if !okAt d 0 then (s, .ok ())
  else match s.scatter k l 2 ((List.range 16).filterMap (fun i =>
      if okAt a i then some (i, (laneOf d 0 + 2 * (laneOf a i % 2 ^ 16)) % 2 ^ 32, laneOf a i / 2 ^ 16) else none)) with
  | (t, .ok _) => (t.sinkPoison k l x a, .ok ())
  | r => r

/-- RPUT (R197). -/
def State.doRput (s : State) (k l x : Nat) (d : Reg) (ring slot j : Nat) : Did Unit :=
  let lead := s.leadOf k
  let e := s.ringEntry lead ring
  let img := tokenImage false d
  match s.storeAt (s.agent k (handleOf l)) lead (e.1 + slot * e.2.2 + 64 * j) img.1 img.2 with
  | (t, .ok _) => (t.sinkPoison k l x d, .ok ())
  | r => r

/-- TBARV (R198): a release, and one arrival. -/
def State.doTbarv (s : State) (k l : Nat) (a : Reg) : Did Unit :=
  if !okAt a 0 then (s, .ok ())
  else match barrierPlace k (laneOf a 0) with
  | .error f => (s, .error f)
  | .ok (core, off) =>
    let r := s.cellRelease k l
    match r.1.touch16 (s.agent k (handleOf l)) core off true with
    | (_, .error f) => (s, .error f)
    | (t, .ok _) =>
      match t.tbArrive core off r.2 with
      | (_, .error f) => (s, .error f)
      | q => q

/-- The node whose region holds a core; 0, which is no handle, where there is none. -/
def State.nodeId (s : State) (k : Nat) : Nat := ((s.nodeAt k).map (·.1)).getD 0

/-- STE (R194): the valid elements go into the node's shadow. The scale of an MX token is not written into the buffer's scale array: DESIGN CHOICE, R51 and
R194 name the elements alone (log 97). -/
def State.doSte (s : State) (k l x : Nat) (p : Bool) (d a : Reg) : Did Unit :=
  let e := externOf a
  let n := s.nodeId k
  if !okAt a 0 then (s, .ok ())
  else match (s.operand n e.2).check true e.1 (transferBytes p d.fmt) (packAlign p d.fmt) with
  | .error c => (s, .error ⟨c, e.1, 0, false⟩)
  | .ok _ =>
    let img := tokenImage p d
    match s.shapeOf k (agentId k l) n e.2 with
    | (t, .error c) => (t, .error (externFail c))
    | (s, .ok _) =>
      match s.writeOp k n e.2 e.1 img.1 img.2 false with
      | (t, .error c) => (t, .error (externFail c))
      | (t, .ok _) => (t.sinkPoison k l x d, .ok ())

/-- LDE (R194): the reply enters the cell's own port with the task's tag and the next class, on the credit that the task holds for it (R61). -/
def State.doLde (s : State) (k l x cls frame : Nat) (iter : W16) (f : Fmt) (p : Bool) (a : Reg) (port : Nat) : Did Unit :=
  let e := externOf a
  let n := s.nodeId k
  let reply (t : State) (r : Reg) : State :=
    (t.giveReply k l x port 1).pushPort ⟨k, l, x, port⟩ (replyKey k x port) { dataToken r ((cls + 1) % 16) frame iter with b := true, cfg := x } [] []
  if !okAt a 0 then (reply s (noLanes f (constXs f) a), .ok ())
  else match (s.operand n e.2).check false e.1 (transferBytes p f) (packAlign p f) with
  | .error c => (s, .error ⟨c, e.1, 0, false⟩)
  | .ok _ =>
    match s.shapeOf k (agentId k l) n e.2 with
    | (t, .error c) => (t, .error (externFail c))
    | (s, .ok _) =>
      match s.readOp k n e.2 e.1 (transferBytes p f) with
      | (t, .error c) => (t, .error (externFail c))
      | (t, .ok b) => (reply t (loaded p f a b []), .ok ())

/-- ORDT (R92, R95): a release whose token travels to its cell. -/
def State.doOrdt (s : State) (k l target id : Nat) : Did Unit :=
  let r := s.cellRelease k l
  (r.1.modCell k target (fun c => { c with ordIn := c.ordIn ++ [(id, r.2)] }), .ok ())

/-- RFREE (R197). -/
def State.doRfree (s : State) (k l ring slot : Nat) : Did Unit :=
  let r := s.cellRelease k l
  match r.1.ringTouch k (handleOf l) (s.leadOf k) ring with
  | (_, .error f) => (s, .error f)
  | (t, .ok _) => (t.ringFree (s.leadOf k) ring slot r.2, .ok ())

/-- A history command enters the command order of its history: the history unit accepts it (R227, R130). -/
def State.doHist (s : State) (k : Nat) (c : HCmd) : Did Unit :=
  (s.modCore k (fun o => { o with hists := aset o.hists c.hist (let x := (aget o.hists c.hist).getD {}; { x with queue := x.queue ++ [.cmd c] }) }), .ok ())

/-- A request performs (R189); what is left of it where it is a straddle (R85). -/
def State.perform (s : State) (k l : Nat) (h : Held) : Did (Option MemReq) :=
  let whole (r : Did Unit) : Did (Option MemReq) := r.map id (·.map (fun _ => none))
  match h.req with
  | .sts p rem d a => s.doSts k l h.ctx p rem d a
  | r => whole (match r with
  | .sts .. => (s, .ok ())
  | .half core off bytes mask d => s.doHalf k l h.ctx core off bytes mask d
  | .stx d a => s.doStx k l h.ctx d a
  | .expd d a => s.doExpd k l h.ctx d a
  | .rput d ring slot j => s.doRput k l h.ctx d ring slot j
  | .tbarv a => s.doTbarv k l a
  | .ste p d a => s.doSte k l h.ctx p d a
  | .lde f p a port => s.doLde k l h.ctx h.cls h.frame h.iter f p a port
  | .ordt target id => s.doOrdt k l target id
  | .rfree ring slot => s.doRfree k l ring slot
  | .hist c => s.doHist k c)

/-! ## Holding and releasing (R89, R92, R93) -/

/-- Tokens of an ordering id that have arrived and are not consumed. -/
def Cell.ordCount (c : Cell) (id : Nat) : Nat := ((aget c.ordClr id).getD []).length

def Cell.ready? (c : Cell) (h : Held) : Bool := h.hold.isNone && (match h.need with | none => true | some id => decide (0 < c.ordCount id))

/-- Requests that release: each leaves only once every earlier access of its cell has performed, the remote ones among them (R95, R100). -/
def isRelease : MemReq → Bool
  | .ordt .. => true
  | .tbarv .. => true
  | .rfree .. => true
  | _ => false

/-- Scratchpad bytes that an access of an address touches: none where it faults. -/
def State.touches (s : State) (k addr n : Nat) (token : Bool) : List Half :=
  if addr / 2 ^ 28 = 2 then (s.groupCores k (bits addr 27 24)).map (fun m => ⟨m, addr % 2 ^ 24, n⟩)
  else match halves k addr n 1 token with
  | .ok hs => hs
  | .error _ => []

/-- Scratchpad bytes that a request touches as it performs. -/
def State.reqTouches (s : State) (k : Nat) : MemReq → List Half
  | .sts p rem d a => if rem || !okAt a 0 then [] else s.touches k (laneOf a 0) (transferBytes p d.fmt) true
  | .stx d a => (List.range 16).flatMap (fun i => if okAt a i && okAt d i then s.touches k (laneOf a i) (fmtWidth d.fmt / 8) false else [])
  | .expd d a => (List.range 16).flatMap (fun i => if okAt d 0 && okAt a i then s.touches k ((laneOf d 0 + 2 * (laneOf a i % 2 ^ 16)) % 2 ^ 32) 2 false else [])
  | .rput _ ring slot j => let e := s.ringEntry (s.leadOf k) ring; [⟨s.leadOf k, e.1 + slot * e.2.2 + 64 * j, 64⟩]
  | .half core off bytes _ _ => [⟨core, off, bytes.length⟩]
  | _ => []

/-- An access of a cell's agent to these bytes must wait: an atomic of it that acquires has not performed (R192), or its own remote access to one of them
is still in flight (R90). -/
def State.mustWait (s : State) (k l : Nat) (hs : List Half) : Bool :=
  (s.atomsOut k (handleOf l)).any (·.2.2) || hs.any (fun h => s.behindOwn ⟨0, k, handleOf l⟩ h.core h.off h.n)

/-- A request may leave the port. -/
def State.leaves (s : State) (k l : Nat) (h : Held) : Bool :=
  (s.cell k l).ready? h && !(isRelease h.req && decide (0 < s.remoteOut k (handleOf l))) && !s.mustWait k l (s.reqTouches k h.req)

/-- The request that consumes a token acquires it (R92). -/
def State.takeOrd (s : State) (k l : Nat) (need : Option Nat) : Did Unit :=
  match need with
  | none => (s, .ok ())
  | some id =>
    match (aget (s.cell k l).ordClr id).getD [] with
    | [] => (s, .ok ())
    | c :: r => (s.modCell k l (fun e => { e with ordClr := aset e.ordClr id r })).acquire k (handleOf l) c

def isHist : MemReq → Bool
  | .hist .. => true
  | _ => false

/-- The place in the queue of the request that leaves next: the head when it is ready, else an external request whose lines no earlier held one shares. A
history command leaves when the history unit accepts it, and those behind it wait (R227). -/
def State.nextHeld (s : State) (k l : Nat) : Option Nat :=
  let c := s.cell k l
  match c.held with
  | [] => none
  | h :: _ =>
    if isHist h.req then none
    else if s.leaves k l h then some 0
    else if h.hold.isSome || c.ready? h then none
    else (List.range c.held.length).find? (fun i =>
      match c.held[i]? with
      | some r => isExtern r.req && s.leaves k l r && (c.held.take i).all (fun q => !isHist q.req && q.hold.isNone && disjoint (s.externLines k q.req) (s.externLines k r.req))
      | none => false)

/-- The fault of a request: it ends its task as dropped, whether it runs or waits to release its tokens (R177). -/
def State.reqFault (s : State) (k l : Nat) (h : Held) (f : Fail) : State :=
  let c := s.cell k l
  if (match c.running with | some t => t.serial == h.serial | none => false) then s.taskFault k l 3 f
  else
    let s1 := if f.posted then s else s.postFault (if endsPhase f.cause then 2 else 0) 3 k l f.cause f.addr f.detail (tagWord h.iter h.frame h.ctx h.cls)
    let s2 := match c.done.find? (fun t => t.serial = h.serial) with
      | none => s1
      | some t => let r := s1.dropTask k l t; r.1.modCell k l (fun c => { c with done := c.done.map (fun u => if u.serial = h.serial then r.2 else u) })
    if endsPhase f.cause then s2.terminate (s.leadOf k) f.cause else s2

/-- Causes that stop the node when a port meets them in external memory (R114, R354). -/
def stopsNode (c : Nat) : Bool := c ∈ [0x0A8, 0x0AB, 0x0AC, 0x0AE, 0x0AF, 0x06F]

/-- The credit of a reply that does not come goes back. -/
def State.noReply (s : State) (k l : Nat) (h : Held) : State :=
  match h.req with
  | .lde _ _ _ port => s.giveReply k l h.ctx port 1
  | _ => s

/-- Requests leave the port as far as they can. -/
def State.drainPort (s : State) (k l : Nat) : Nat → State
  | 0 => s
  | fuel + 1 =>
    match s.nextHeld k l with
    | none => s
    | some i =>
      match (s.cell k l).held[i]? with
      | none => s
      | some h =>
        let pop (t : State) : State := t.modCell k l (fun c => { c with held := c.held.eraseIdx i })
        let rest (t : State) (r : MemReq) : State := t.modCell k l (fun c => { c with held := c.held.modify i (fun q => { q with req := r, need := none }) })
        match s.takeOrd k l h.need with
        | (t, .error f) => ((pop t).reqFault k l h f)
        | (t, .ok _) =>
          match t.perform k l h with
          | (u, .ok none) => State.drainPort (pop u) k l fuel
          | (u, .ok (some r)) => rest u r
          | (u, .error f) =>
            if isExtern h.req && holdsAccess f.cause then
              (u.modCell k l (fun c => { c with held := c.held.modify i (fun q => { q with need := none, hold := some (f.cause, f.addr) }) })).postFault (externSev f.cause) 3 k l f.cause f.addr 0
                (tagWord h.iter h.frame h.ctx h.cls)
            else if isExtern h.req && stopsNode f.cause then
              ((pop u).postFault 2 3 k l f.cause f.addr f.detail (tagWord h.iter h.frame h.ctx h.cls)).endRegion (s.leadOf k)
            else State.drainPort (((pop u).noReply k l h).reqFault k l h f) k l fuel

/-- Every request that can leave leaves. -/
def State.drain (s : State) (k l : Nat) : State := s.drainPort k l ((s.cell k l).held.length + 1)

/-- Held accesses of a partition that a cause and VA name retry at once, where their ports are free to (R335). -/
def State.retryHeld (s : State) (pt : Nat) (p : Nat × Nat → Bool) : State :=
  let t := s.unhold pt p
  t.cores.foldl (fun t (e : Nat × Core) => if bit (s.part pt).isles (isleOf e.1) then
    e.2.cells.foldl (fun t (c : Nat × Cell) => if c.2.held.any (fun h => h.hold.isNone) && isMemCell c.1 then t.drain e.1 c.1 else t) t else t) t

/-- Held accesses retry as a shadow tile of the partition is freed (R335). -/
def State.retryPool (s : State) (pt : Nat) : State := s.retryHeld pt (fun c => c.1 == 0x05E)

end Sys2Proof.Machine
end

