-- ==== Sys2Proof/Machine/CellMem.lean ====
section
/-! DEFINITION. The instructions of the memory cells: opcodes 0x50 to 0x5F (R87, R189 to R198). -/

namespace Sys2Proof.Machine

/-- Ordering id that a request waits for. -/
def needOf (o h : Nat) : Option Nat := if h = 1 then some o else none

/-- The credit of a reply goes from the task to its request (R61, R194). -/
def Task.askReply (t : Task) (r : MemReq) : Task :=
  match r with
  | .lde _ _ _ port => { t with replies := t.replies.map (fun p => if p.1 = port then (p.1, p.2 - 1) else p) }
  | _ => t

/-- A request enters the port and leaves as far as it can; the instruction waits while the address-compare queue is full (R93). -/
def State.request (s : State) (cs : List Nat) (need : Option Nat) (f : Env → List Reg → Except Nat MemReq) : State :=
  s.withTask (fun e =>
    match (s.readAll e cs).bind (f e) with
    | .error c => s.taskFault e.core e.cell 0 ⟨c, 0, 0, false⟩
    | .ok r =>
      if isExtern r ∧ 16 ≤ ((s.cell e.core e.cell).held.filter (fun h => isExtern h.req)).length then s
      else
        let u := (s.drawn e (isDrawing 0 cs)).enqueue e.core e.cell e.task need r
        let t := (u.modCell e.core e.cell (fun c => { c with running := c.running.map (·.askReply r) })).advance e.core e.cell 2
        t.drain e.core e.cell)

/-- An access that completes in its task: it waits, while the port works on, for the requests before it (R89) and as its bytes ask (R90, R192); a value
written to d and pushed, or the fault of the access. `touch` gives the bytes that it touches. -/
def State.access (s : State) (d : Nat) (cs : List Nat) (touch : Env → List Reg → List Half) (f : Env → List Reg → Except Nat (Did Reg)) : State :=
  s.withTask (fun e =>
    if !(s.cell e.core e.cell).held.isEmpty then s.drain e.core e.cell
    else if s.mustWait e.core e.cell (touch e (s.sources e cs)) then s
    else match (s.readAll e cs).bind (f e) with
    | .error c => s.taskFault e.core e.cell 0 ⟨c, 0, 0, false⟩
    | .ok (t, .error g) => t.taskFault e.core e.cell 0 g
    | .ok (t, .ok r) => t.writeResult e 2 d (isDrawing 0 cs) r)

/-- LDS (R190). -/
def ldsAt (s : State) (f p : Nat) (e : Env) : List Reg → Except Nat (Did Reg)
  | [a] => do
    need isAddr a
    let tf := fmtOf f
    if !okAt a 0 then return (s, .ok (noLanes tf (constXs tf) a))
    else match s.load (s.agent e.core (handleOf e.cell)) e.core (laneOf a 0) (transferBytes (p == 1) tf) (packAlign (p == 1) tf) true with
    | (t, .error g) => return (t, .error g)
    | (t, .ok (b, gone)) => return (t, .ok (loaded (p == 1) tf a b gone))
  | _ => .error 0x00B

/-- LDX (R191): every lane is checked before any performs. -/
def ldxAt (s : State) (f : Nat) (e : Env) : List Reg → Except Nat (Did Reg)
  | [a] => do
    need isAddr a
    let tf := fmtOf f
    let n := fmtWidth tf / 8
    let step (acc : Did (List (Option Nat))) (i : Nat) : Did (List (Option Nat)) :=
      match acc with
      | (t, .error g) => (t, .error g)
      | (t, .ok vs) =>
        if !okAt a i then (t, .ok (vs ++ [none]))
        else match t.load (t.agent e.core (handleOf e.cell)) e.core (laneOf a i) n n false with
        | (t, .error g) => (t, .error { g with detail := if g.cause = 0x055 then g.detail else i })
        | (t, .ok (b, gone)) => (t, .ok (vs ++ [if gone.any id then none else some (leNat b)]))
    match (List.range 16).foldl step (s, .ok []) with
    | (_, .error g) => return (s, .error g)
    | (t, .ok vs) => return (t, .ok (mkReg tf (constXs tf) a.p a.origin (fun i => vs.getD i none)))
  | _ => .error 0x00B

/-- The 32-bit lanes i and, for 8 bytes, i + 1 of a register as one number. -/
def laneWord (r : Reg) (size i : Nat) : Nat := if size = 8 then laneOf r i + laneOf r (i + 1) * 2 ^ 32 else laneOf r i

/-- The core and offset that an ATOM addresses, or none for another package (R102, R192). -/
def State.atomTarget (s : State) (k scope size : Nat) (a : Reg) (route : Nat) : Except Fail (Option (Nat × Nat)) :=
  let addr := laneOf a 0
  let remote := decide (2 ≤ scope) && okAt a 1
  if remote then
    let core := laneOf a 1 % 2 ^ 16 / 64
    if s.farSize route core < addr + size then .error ⟨0x049, addr, 0, false⟩
    else if addr % size ≠ 0 then .error ⟨0x07A, addr, 0, false⟩ else .ok (if route = 0 then some (core, addr) else none)
  else match halves k addr size 1 false with
  | .error g => .error g
  | .ok (h :: _) => if addr % size ≠ 0 then .error ⟨0x07A, addr, 0, false⟩ else .ok (some (h.core, h.off))
  | .ok [] => .error ⟨0x044, addr, 0, false⟩

/-- ATOM (R192): d holds operand and compare value; sc the scope, order acquire and release bits, op the operation, z says 8 bytes. -/
def atomAt (s : State) (sc order op z : Nat) (e : Env) : List Reg → Except Nat (Did Reg)
  | [d, a] => do
    need isAddr a; need isAddr d
    let size := if z = 1 then 8 else 4
    let n := size / 4
    let reads := (List.range 4).filter (fun i => if op = 0 then false else if op = 9 then decide (i < 2 * n) else decide (i < n))
    let nothing := noLanes d.fmt 0 a
    let h := handleOf e.cell
    if !okAt a 0 || reads.any (fun i => !okAt d i) then return (s, .ok nothing)
    else
      let route := s.routeTag (s.partAt e.core) (if okAt a 2 then laneOf a 2 % 2 ^ 16 else 0)
      match s.atomTarget e.core sc size a route with
      | .error g => return (s, .error g)
      | .ok none =>
        if sc ≠ 3 then return (s, .error ⟨0x07C, laneOf a 0, 0, false⟩)
        else if op = 0 ∨ op = 2 ∨ op = 9 then return (s, .error ⟨0x078, laneOf a 0, 0, false⟩)
        else
          let r := s.relFor e.core h order
          match r.1.sendRemote e.core route (r.1.atomReq e.core h (laneOf a 1 % 2 ^ 16 / 64) (laneOf a 0) size op (laneWord d size 0) 0 order sc r.2) with
          | .error c => return (s, .error ⟨c, laneOf a 0, 0, false⟩)
          | .ok t => return ((t.countRemote e.core h 1).noteAtom e.core h (size, sc, order % 2 == 1), .ok nothing)
      | .ok (some (core, off)) =>
        if !covers sc 0 e.core 0 core then return (s, .error ⟨0x07C, laneOf a 0, 0, false⟩)
        else match s.atomicBy e.core h core off size op (laneWord d size 0) (laneWord d size n) order sc with
        | (t, .error g) => return (t, .error g)
        | (t, .ok old) => return (t, .ok (mkReg d.fmt 0 a.p a.origin (fun i => if i < n then some (old / 2 ^ (32 * i) % 2 ^ 32) else none)))
  | _ => .error 0x00B

/-- The bytes that an ATOM touches in this package. -/
def atomTouch (s : State) (sc z : Nat) (e : Env) : List Reg → List Half
  | [_, a] =>
    let size := if z = 1 then 8 else 4
    match s.atomTarget e.core sc size a (s.routeTag (s.partAt e.core) (if okAt a 2 then laneOf a 2 % 2 ^ 16 else 0)) with
    | .ok (some (core, off)) => [⟨core, off, size⟩]
    | _ => []
  | _ => []

/-- An atomic waits while one of its agent, size and scope has set out and not performed (R101). -/
def State.atomWaits (s : State) (sc z : Nat) : Bool :=
  (s.atomsOut s.fcore (handleOf s.fcell)).any (fun a => a.1 == (if z = 1 then 8 else 4) && a.2.1 == sc)

/-- A .rel or .ar order waits for the completions of the cell's remote stores (R100). -/
def State.relWaits (s : State) (order : Nat) : Bool := order / 2 % 2 == 1 && decide (0 < s.remoteOut s.fcore (handleOf s.fcell))

/-- FENCEM (R193). -/
def State.fencem (s : State) (order : Nat) : State :=
  s.withTask (fun e =>
    if !(s.cell e.core e.cell).held.isEmpty then s.drain e.core e.cell
    else if order % 2 = 1 ∧ s.atomsOut e.core (handleOf e.cell) ≠ [] then s
    else match s.fence e.core (handleOf e.cell) order with
    | (t, .error g) => t.taskFault e.core e.cell 0 g
    | (t, .ok _) => t.advance e.core e.cell 2)

/-- CMPR (R87): nonzero BF16 elements with their coordinates. -/
def cmprSem (e : Env) : List Reg → Except Nat Reg
  | [a] => do
    need (· == .bf16) a
    return mkReg .vcb 0 a.p a.origin (fun i =>
      let w := elemOf a i
      if okAt a i && w % 2 ^ 15 != 0 then some ((if isNan (fval .bf16 w) then canonNaN .bf16 else w) * 2 ^ 16 + (16 * e.task.iter.toNat + i) % 2 ^ 16) else none)
  | _ => .error 0x00B

/-- RGET (R197): the task's slot; none once it is freed. -/
def rgetAt (s : State) (f j : Nat) (e : Env) (_ : List Reg) : Except Nat (Did Reg) :=
  match e.task.ring with
  | none => .error 0x075
  | some h =>
    if h.freed then .error 0x075
    else
      let lead := s.leadOf e.core
      let g := s.ringEntry lead h.ring
      match s.loadAt (s.agent e.core (handleOf e.cell)) ⟨lead, g.1 + h.slot * g.2.2 + 64 * j, 64⟩ with
      | (t, .error g) => .ok (t, .error g)
      | (t, .ok (b, gone)) => .ok (t, .ok (loaded false (fmtOf f) { Reg.empty with origin := 0 } b gone))

/-- RPUT as a request (R197). -/
def rputReq (j : Nat) (e : Env) : List Reg → Except Nat MemReq
  | [d] =>
    match e.task.ring with
    | none => .error 0x075
    | some h => if h.freed then .error 0x075 else .ok (.rput d h.ring h.slot j)
  | _ => .error 0x00B

/-- RFREE (R197): the slot that the task holds as a consumer, once. -/
def State.rfree (s : State) : State :=
  s.withTask (fun e =>
    match e.task.ring with
    | none => s.taskFault e.core e.cell 0 ⟨0x075, 0, 0, false⟩
    | some h =>
      if h.freed || h.producer then s.taskFault e.core e.cell 0 ⟨0x075, 0, 0, false⟩
      else
        (s.modCell e.core e.cell (fun c => { c with running := c.running.map (fun t => { t with ring := some { h with freed := true } }) })).request [] none
          (fun _ _ => .ok (.rfree h.ring h.slot)))

/-- TBTST (R198): the barrier's fields, and what its completions released. -/
def tbtstAt (s : State) (e : Env) : List Reg → Except Nat (Did Reg)
  | [a] => do
    need isAddr a
    if !okAt a 0 then return (s, .ok (noLanes .n32 0 a))
    else match barrierPlace e.core (laneOf a 0) with
    | .error g => return (s, .error g)
    | .ok (core, off) =>
      let h := handleOf e.cell
      match s.touch16 (s.agent e.core h) core off false with
      | (t, .error g) => return (t, .error g)
      | (t, .ok _) =>
        match t.acquire e.core h ((aget (t.core core).tbClr off).getD []) with
        | (t, .error g) => return (t, .error g)
        | (t, .ok _) =>
          let b := Bar.read t.mem (spadBase core + off)
          return (t, .ok (mkReg .n32 0 a.p a.origin (fun i => [some b.phase, some b.arrivals, some (cut 32 b.sectors),
            some (Bool.nat b.w + 2 * Bool.nat b.f + 4 * Bool.nat b.d)].getD i none)))
  | _ => .error 0x00B

/-- The bytes that LDS, LDX and RGET touch. -/
def ldsTouch (s : State) (f p : Nat) (e : Env) : List Reg → List Half
  | [a] => if okAt a 0 then s.touches e.core (laneOf a 0) (transferBytes (p == 1) (fmtOf f)) true else []
  | _ => []
def ldxTouch (s : State) (f : Nat) (e : Env) : List Reg → List Half
  | [a] => (List.range 16).flatMap (fun i => if okAt a i then s.touches e.core (laneOf a i) (fmtWidth (fmtOf f) / 8) false else [])
  | _ => []
def rgetTouch (s : State) (j : Nat) (e : Env) (_ : List Reg) : List Half :=
  match e.task.ring with
  | some h => s.reqTouches e.core (.rput Reg.empty h.ring h.slot j)
  | none => []

/-! ## The instructions -/

/-- LDS (R190). -/
def execLds (d a f p : Nat) (st : State) : Out := .next (st.access d [a] (ldsTouch st f p) (ldsAt st f p))
/-- STS (R190): q says .rem, p packed. -/
def execSts (d a o h q p : Nat) (st : State) : Out := .next (st.request [d, a] (needOf o h) (fun _ rs =>
  match rs with
  | [v, u] => do
    need isAddr u; need (fun f => !(p == 1 && fmtWidth f == 32)) v
    return .sts (p == 1) (q == 1) v u
  | _ => .error 0x00B))
/-- LDX (R191). -/
def execLdx (d a f : Nat) (st : State) : Out := .next (st.access d [a] (ldxTouch st f) (ldxAt st f))
/-- STX (R191). -/
def execStx (d a o h : Nat) (st : State) : Out := .next (st.request [d, a] (needOf o h) (fun _ rs =>
  match rs with
  | [v, u] => do
    need isAddr u; need (fun f => decide (8 ≤ fmtWidth f)) v
    return .stx v u
  | _ => .error 0x00B))
/-- ATOM (R192). -/
def execAtom (d a sc r p z : Nat) (st : State) : Out := .next (if st.relWaits r || st.atomWaits sc z then st else st.access d [d, a] (atomTouch st sc z) (atomAt st sc r p z))
/-- LDE (R194). -/
def execLde (a o f h p n : Nat) (st : State) : Out := .next (st.request [a] (needOf o h) (fun _ rs =>
  match rs with
  | [u] => do
    need isAddr u
    return .lde (fmtOf f) (p == 1) u n
  | _ => .error 0x00B))
/-- STE (R194). -/
def execSte (d a o h p : Nat) (st : State) : Out := .next (st.request [d, a] (needOf o h) (fun _ rs =>
  match rs with
  | [v, u] => do
    need isAddr u; need (fun f => !(p == 1 && fmtWidth f == 32)) v
    return .ste (p == 1) v u
  | _ => .error 0x00B))
/-- ORDT (R92, R193): cell a of the same core, id o. -/
def execOrdt (a o : Nat) (st : State) : Out := .next (st.request [] none (fun _ _ => .ok (.ordt a o)))
/-- FENCEM (R193): sc the scope, r the order. -/
def execFencem (_sc r : Nat) (st : State) : Out := .next (if st.relWaits r then st else st.fencem r)
/-- CMPR (R195). -/
def execCmpr (d a : Nat) (st : State) : Out := st.compute 2 d 0 [a] cmprSem
/-- EXPD (R195). -/
def execExpd (d a o h : Nat) (st : State) : Out := .next (st.request [d, a] (needOf o h) (fun _ rs =>
  match rs with
  | [v, u] => do
    need (· == .vcb) u; need isAddr v
    return .expd v u
  | _ => .error 0x00B))
/-- RPUT (R197): ring a is the task's. -/
def execRput (d _a o h j : Nat) (st : State) : Out := .next (st.request [d] (needOf o h) (rputReq j))
/-- RGET (R197). -/
def execRget (d _a f j : Nat) (st : State) : Out := .next (st.access d [] (rgetTouch st j) (rgetAt st f j))
/-- RFREE (R197). -/
def execRfree (_a : Nat) (st : State) : Out := .next st.rfree
/-- TBARV (R198). -/
def execTbarv (a o h : Nat) (st : State) : Out := .next (st.request [a] (needOf o h) (fun _ rs =>
  match rs with
  | [u] => do
    need isAddr u
    return .tbarv u
  | _ => .error 0x00B))
/-- TBTST (R198). -/
def execTbtst (d a : Nat) (st : State) : Out := .next (st.access d [a] (fun _ _ => []) (tbtstAt st))

end Sys2Proof.Machine
end

