-- ==== Sys2Proof/Machine/CellRec.lean ====
section
/-! DEFINITION. The record instructions of a cell and its history commands: opcodes 0x60 to 0x6F (R216 to R225). -/

namespace Sys2Proof.Machine

/-- The value width that a source declares: an input port's, where its word has rec set (R118, R151). -/
def State.recWidth (s : State) (e : Env) (c : Nat) : Option Nat :=
  let w := s.portWord e.core e.cell e.task.ctx (c - 4)
  if 4 ≤ c ∧ c < 8 ∧ pwRec w then some (pwVw w) else none

def is32 (f : Fmt) : Bool := f == .fp32 || f == .s32 || f == .n32 || f == .vcb || f == .rcd

/-- RMK (R217). -/
def rmkSem (_ : Env) : List Reg → Except Nat Reg
  | [a, b] => do
    need (fun f => f == .n32 || f == .s32 || f == .rcd) a
    need is32 b
    let p := poisonOf [a, b] false
    let o := originOf [a, b]
    let n := ((List.range 5).filter (okAt a)).length
    let w := (validLanes b).length
    if n = 0 then return nullRec p o
    else if n ≠ 5 ∨ (List.range w).any (fun i => !okAt b i) ∨ 11 < w then .error 0x00B
    else return mkReg .rcd 0 p o (fun i => if i < 5 then some (laneOf a i) else if i < 5 + w then some (laneOf b (i - 5)) else none)
  | _ => .error 0x00B

/-- The time of an operand that is REC or N32 (R218, R219): none where it has none. -/
def timeOperand (w : Option Nat) (r : Reg) : Except Nat (Option Time) := do
  need (fun f => f == .rcd || f == .n32) r
  if r.fmt = .rcd then
    let c ← recCheck w r
    return if c then some (recTime r) else none
  else return if okAt r 2 && okAt r 3 then some (recTime r) else none

/-- TJOIN and TMEET (R218). -/
def timeSem (op : Time → Time → Time) (wa wb : Option Nat) (_ : Env) : List Reg → Except Nat Reg
  | [a, b] => do
    let c ← recCheck wa a
    let t ← timeOperand wb b
    let p := poisonOf [a, b] false
    let o := originOf [a, b]
    match c, t with
    | true, some t =>
      let n := op (recTime a) t
      return recWith a p o (fun i => if i = 2 then some n.1 else if i = 3 then some n.2 else none)
    | _, _ => return nullRec p o
  | _ => .error 0x00B

/-- An antichain operand (R216). -/
def antichain (r : Reg) : Except Nat (List Time) :=
  if r.fmt ≠ .n32 then .error 0x00B else match frontOf r with | some f => .ok f | none => .error 0x00B

/-- TADV (R218). -/
def tadvSem (wa : Option Nat) (_ : Env) : List Reg → Except Nat Reg
  | [a, b] => do
    let c ← recCheck wa a
    let f ← antichain b
    let p := poisonOf [a, b] false
    let o := originOf [a, b]
    match c, advTime f (recTime a) with
    | true, some n => return recWith a p o (fun i => if i = 2 then some n.1 else if i = 3 then some n.2 else none)
    | _, _ => return nullRec p o
  | _ => .error 0x00B

/-- TLE (R219). -/
def tleSem (wa wb : Option Nat) (_ : Env) : List Reg → Except Nat Reg
  | [a, b] => do
    let t ← timeOperand wa a
    let u ← timeOperand wb b
    return mkReg .n32 0 (poisonOf [a, b] false) (originOf [a, b]) (fun _ =>
      match t, u with
      | some t, some u => some (allOnes (leTime t u))
      | _, _ => none)
  | _ => .error 0x00B

/-- SCOPE (R121, R220): v is 0 ENTER, 1 FEED, 2 LEAVE. -/
def scopeSem (v : Nat) (wa : Option Nat) (_ : Env) : List Reg → Except Nat Reg
  | [a] => do
    let c ← recCheck wa a
    if !c then return nullRec a.p a.origin
    else if v = 1 ∧ laneOf a 3 = 0xFFFFFFFF then .error 0x011
    else return recWith a a.p a.origin (fun i => if i = 3 then some (if v = 1 then laneOf a 3 + 1 else 0) else none)
  | _ => .error 0x00B

/-- RNEG (R119, R221). -/
def rnegSem (wa : Option Nat) (e : Env) : List Reg → Except Nat Reg
  | [a] => do
    let c ← recCheck wa a
    if !c then return nullRec a.p a.origin
    else
      let wraps := laneOf a 4 == 2 ^ 31
      return recWith a (poisonOf [a] wraps) (resultOrigin e.agent [a] wraps) (fun i => if i = 4 then some ((2 ^ 32 - laneOf a 4) % 2 ^ 32) else none)
  | _ => .error 0x00B

/-- RHASH (R222). -/
def rhashSem (n : Nat) (wa : Option Nat) (_ : Env) : List Reg → Except Nat Reg
  | [a] => do
    need (fun f => f == .rcd || f == .n32) a
    let c ← if a.fmt = .rcd then recCheck wa a else pure (okAt a 0 && okAt a 1)
    return mkReg .n32 0 a.p a.origin (fun _ => if c then some (if n = 0 then hashKey (recKey a) else bucketOf n (recKey a)) else none)
  | _ => .error 0x00B

/-- The frontier register fn of the region of a core (R123). -/
def State.frontier (s : State) (k n : Nat) : List Time := (s.rc (s.leadOf k)).fns.getD n []

/-- FNPUT (R224): a MARK token of subkind FRONTIER. -/
def fnputTo (s : State) (edge : Nat) (e : Env) : List Reg → Except Nat State
  | [a] => do
    let _ ← antichain a
    let r := mkReg .n32 0 a.p a.origin (fun i => if i < 8 then lane? a i else none)
    return s.putStaged e (.tok edge (markToken r 2 e.task.frame e.task.iter))
  | _ => .error 0x00B

/-! ## History commands (R225 to R229) -/

/-- A command of the running task. -/
def histCmd (op h : Nat) (a : Reg) (edge variant j : Nat) (e : Env) : MemReq :=
  .hist { op := op, hist := h, a := a, edge := edge, variant := variant, j := j, agent := e.agent,
          ctx := e.task.ctx, frame := e.task.frame, iter := e.task.iter, cls := e.task.cls }

/-- A command that applies a change: its width is the history's (R229). -/
def State.changeCmd (s : State) (op h a edge variant j : Nat) : State :=
  s.request [a] none (fun e rs =>
    match rs with
    | [r] => do
      let c ← recCheck (s.recWidth e a) r
      if c ∧ recValues r ≠ hdW (s.histWord e.core h) then .error 0x00B
      else return histCmd op h r edge variant j e
    | _ => .error 0x00B)

/-- HSEEK's key: REC, or N32 in lanes 0 and 1 (R225). -/
def State.seekCmd (s : State) (h a edge : Nat) : State :=
  s.request [a] none (fun e rs =>
    match rs with
    | [r] => do
      need (fun f => f == .rcd || f == .n32) r
      if r.fmt = .rcd then let _ ← recCheck (s.recWidth e a) r
      return histCmd 1 h r edge 0 0 e
    | _ => .error 0x00B)

/-! ## The instructions -/

/-- An instruction whose meaning needs the declared widths of its sources. -/
def State.recCompute (s : State) (d : Nat) (cs : List Nat) (f : (Nat → Option Nat) → Env → List Reg → Except Nat Reg) : Out :=
  s.compute 2 d 0 cs (fun e rs => f (s.recWidth e) e rs)

/-- RMK (R217). -/
def execRmk (d a b : Nat) (st : State) : Out := st.compute 2 d 0 [a, b] rmkSem
/-- TJOIN (R218). -/
def execTjoin (d a b : Nat) (st : State) : Out := st.recCompute d [a, b] (fun w => timeSem joinTime (w a) (w b))
/-- TMEET (R218). -/
def execTmeet (d a b : Nat) (st : State) : Out := st.recCompute d [a, b] (fun w => timeSem meetTime (w a) (w b))
/-- TLE (R219). -/
def execTle (d a b : Nat) (st : State) : Out := st.recCompute d [a, b] (fun w => tleSem (w a) (w b))
/-- TADV (R218). -/
def execTadv (d a b : Nat) (st : State) : Out := st.recCompute d [a, b] (fun w => tadvSem (w a))
/-- SCOPE (R220). -/
def execScope (d a b : Nat) (st : State) : Out := st.recCompute d [a] (fun w => scopeSem b (w a))
/-- RHASH (R222). -/
def execRhash (d a i : Nat) (st : State) : Out := st.recCompute d [a] (fun w => rhashSem i (w a))
/-- RNEG (R221). -/
def execRneg (d a : Nat) (st : State) : Out := st.recCompute d [a] (fun w => rnegSem (w a))
/-- FNRD (R223). -/
def execFnrd (d i : Nat) (st : State) : Out := st.compute 2 d 0 [] (fun e _ => return frontReg (st.frontier e.core i))
/-- FNPUT (R224). -/
def execFnput (e s : Nat) (st : State) : Out := .next (st.flow 2 [s] (fnputTo st e))
/-- HINS (R230). -/
def execHins (a h : Nat) (st : State) : Out := .next (st.changeCmd 0 h a 0 0 0)
/-- HSEEK (R231). -/
def execHseek (a h e : Nat) (st : State) : Out := .next (st.seekCmd h a e)
/-- HJOIN (R232). -/
def execHjoin (a h e : Nat) (st : State) : Out := .next (st.changeCmd 2 h a e 0 0)
/-- HRED (R233). -/
def execHred (d a h v : Nat) (st : State) : Out := .next (st.changeCmd 3 h a 0 v d)
/-- HCONS (R235). -/
def execHcons (h : Nat) (st : State) : Out := .next (st.request [] none (fun e _ => return histCmd 4 h Reg.empty 0 0 0 e))
/-- HCOMP (R235). -/
def execHcomp (a h : Nat) (st : State) : Out := .next (st.request [a] none (fun e rs =>
  match rs with
  | [r] => do
    let _ ← antichain r
    return histCmd 5 h r 0 0 0 e
  | _ => .error 0x00B))

end Sys2Proof.Machine
end

