-- ==== Sys2Proof/Machine/Compact.lean ====
section
/-! DEFINITION. The compact forms (R137, R176): one halfword, destination o0 to o7, RNE, no saturation; but for EMIT, END and DROP (CellFlow). -/

namespace Sys2Proof.Machine

/-- ADD_COMPACT (R176). -/
def execCAdd (d a b : Nat) (st : State) : Out := st.compute 1 (8 + d) 0 [a, b] (addSem 0 0 0)
/-- SUB_COMPACT (R176). -/
def execCSub (d a b : Nat) (st : State) : Out := st.compute 1 (8 + d) 0 [a, b] (subSem 0 0 0)
/-- MUL_COMPACT (R176). -/
def execCMul (d a b : Nat) (st : State) : Out := st.compute 1 (8 + d) 0 [a, b] (mulSem 0 0 0)
/-- FMA_COMPACT (R176): the addend is d. -/
def execCFma (d a b : Nat) (st : State) : Out := st.compute 1 (8 + d) 0 [a, b, 8 + d] (fusedSem false false 0 0)
/-- MIN_COMPACT (R176). -/
def execCMin (d a b : Nat) (st : State) : Out := st.compute 1 (8 + d) 0 [a, b] (minMaxSem false)
/-- MAX_COMPACT (R176). -/
def execCMax (d a b : Nat) (st : State) : Out := st.compute 1 (8 + d) 0 [a, b] (minMaxSem true)
/-- AND_COMPACT (R176). -/
def execCAnd (d a b : Nat) (st : State) : Out := st.compute 1 (8 + d) 0 [a, b] (bitSem (· &&& ·))
/-- OR_COMPACT (R176). -/
def execCOr (d a b : Nat) (st : State) : Out := st.compute 1 (8 + d) 0 [a, b] (bitSem (· ||| ·))
/-- XOR_COMPACT (R176). -/
def execCXor (d a b : Nat) (st : State) : Out := st.compute 1 (8 + d) 0 [a, b] (bitSem (· ^^^ ·))
/-- MOV_COMPACT (R176). -/
def execCMov (d a : Nat) (st : State) : Out := st.compute 1 (8 + d) 0 [a] movSem
/-- NEG_COMPACT (R176). -/
def execCNeg (d a : Nat) (st : State) : Out := st.compute 1 (8 + d) 0 [a] negSem
/-- ABS_COMPACT (R176). -/
def execCAbs (d a : Nat) (st : State) : Out := st.compute 1 (8 + d) 0 [a] absSem
/-- EXP2_COMPACT (R176). -/
def execCExp2 (d a : Nat) (st : State) : Out := st.compute 1 (8 + d) 0 [a] (specialSem 3 0 0)
/-- RCP_COMPACT (R176). -/
def execCRcp (d a : Nat) (st : State) : Out := st.compute 1 (8 + d) 0 [a] (specialSem 0 0 0)
/-- RSQ_COMPACT (R176). -/
def execCRsq (d a : Nat) (st : State) : Out := st.compute 1 (8 + d) 0 [a] (specialSem 1 0 0)
/-- REDL_COMPACT (R173, R176): the sum in RNE. -/
def execCRedl (d a : Nat) (st : State) : Out := st.compute 1 (8 + d) 0 [a] (redlSem 0 0 0)
/-- SEL_COMPACT (R176): the predicate is l0. -/
def execCSel (d a b : Nat) (st : State) : Out := st.compute 1 (8 + d) 0 [a, b, 0] selSem
/-- BCAST_COMPACT (R172, R176): lane n. -/
def execCBcast (d a n : Nat) (st : State) : Out := st.compute 1 (8 + d) 0 [a] (moveSem (fun _ => n))
/-- SHL_COMPACT (R176). -/
def execCShl (d a b : Nat) (st : State) : Out := st.compute 1 (8 + d) 0 [a, b] (shiftSem shlBits)
/-- SHR_COMPACT (R176). -/
def execCShr (d a b : Nat) (st : State) : Out := st.compute 1 (8 + d) 0 [a, b] (shiftSem shrBits)
/-- SETV_COMPACT (R176). -/
def execCSetv (d a b : Nat) (st : State) : Out := st.compute 1 (8 + d) 0 [a, b] setvSem

end Sys2Proof.Machine
end

