-- ==== Sys2Proof/Machine/Admit.lean ====
section
/-! DEFINITION. How a cell's tasks come about: matching, the conditions of admission and what it reserves, the order of admission, the arbitration (R60 to R63,
R67, R69). -/

namespace Sys2Proof.Machine

/-! ## What a class needs (R61) -/

/-- The conditions that a class puts on admission: the edges that it names and the tokens on each, the reply ports of its LDEs (R194), a CALL's return edge,
its ring and whether it produces into it, whether it takes a frame. -/
structure Needs where
  edges : List Nat
  reply : List Nat
  m     : Nat
  ret   : Option Nat
  ring  : Option (Nat × Bool)
  frame : Bool
  deriving DecidableEq, Repr

def State.needs (s : State) (k l x cls : Nat) : Needs :=
  let ce := s.classEntry k l x cls
  let is := s.routineFrom k l x 48 (ceEntry ce)
  let r := s.ringOfClass k l x cls
  { edges := (is.flatMap (fun i => (useOf i).edges)).eraseDups
    reply := (is.filterMap (fun i => match i with | .lde _ _ _ _ _ n => some n | _ => none)).eraseDups
    m := ceEmits ce
    ret := is.findSome? (fun i => match i with | .call _ _ _ er _ => some er | _ => none)
    ring := if r = 15 then none else some (r, is.any (fun i => match i with | .rput .. => true | _ => false))
    frame := ceFrame ce }

/-- The credits that tasks may still reserve at a reply port: no rule gives its depth, which is free but holds what one task may ask for (log 34). -/
def State.replyRoom (s : State) (k l x p : Nat) : Nat :=
  15 + Config.replyDepth (((k * 64 + l) * 4 + x) * 4 + p) - (((s.port k l x p).fifo.filter (fun t => t.srcE = replyKey k x p)).length + (s.port k l x p).rsv)

/-- Room on the edges: m on each named one and on each reply port, and one more for a return. -/
def State.edgesFree (s : State) (k l x : Nat) (n : Needs) : Bool :=
  let ret (e : Nat) : Nat := if n.ret = some e then 1 else 0
  n.edges.all (fun e => decide (n.m + ret e ≤ s.room k l x e))
    && n.reply.all (fun p => decide (n.m ≤ s.replyRoom k l x p))
    && (match n.ret with | some e => n.edges.contains e || decide (1 ≤ s.room k l x e) | none => true)

/-- A ring credit (R196). -/
def State.ringFreeFor (s : State) (k : Nat) (n : Needs) : Bool :=
  match n.ring with
  | none => true
  | some (r, true) => decide (0 < (s.ringSt (s.leadOf k) r).free)
  | some (r, false) => (s.ringTake (s.leadOf k) r).isSome

def State.frameFree (s : State) (k : Nat) (n : Needs) : Bool := !n.frame || (s.isle (isleOf k)).freeFrame.isSome

/-! ## Matching (R60) -/

/-- Matching-store entries of a cell (R21). -/
def storeSize : Nat := 16

/-- Tokens of a port that admitted, unfinished tasks hold, or that wait in the matching store. -/
def Cell.unfinished (c : Cell) (x p : Nat) : List PortTok :=
  c.matching.filterMap (fun m => if m.ctx = x then aget m.toks p else none)
    ++ (c.ready ++ c.running.toList).filterMap (fun t => if t.ctx = x then t.ops[p]? else none)

/-- The oldest of some tokens by arrival. -/
def oldest : List PortTok → Option PortTok
  | [] => none
  | t :: r => match oldest r with | some u => if t.arr ≤ u.arr then some t else some u | none => some t

/-- A loop-head port's window admits a token (R67). -/
def inWindow (w : Nat) (us : List PortTok) (iter : W16) : Bool :=
  w == 0 || (match oldest us with | some u => decide ((iter - u.tok.iter).toNat < w) | none => true)

/-- The entry of a tag takes a token of a port; none where a token of the port already waits under the tag or no entry is left. -/
def Cell.store (c : Cell) (x p w : Nat) (t : PortTok) : Option Cell :=
  let mine (m : Match) : Bool := m.ctx == x && m.frame == t.tok.frame && m.iter == t.tok.iter
  match c.matching.find? mine with
  | some e =>
    if (aget e.toks p).isSome then none
    else some { c with matching := c.matching.map (fun m => if mine m then { m with toks := aset m.toks p t, cls := if p = 0 then t.tok.cls else m.cls } else m) }
  | none =>
    if storeSize ≤ c.matching.length ∨ w ≤ (c.matching.filter (fun m => m.ctx == x && m.cls == t.tok.cls)).length then none
    else some { c with matching := c.matching ++ [⟨x, t.tok.cls, t.tok.frame, t.tok.iter, [(p, t)]⟩] }

/-- The head of a port's FIFO is a DATA token that the port takes: a class that does not take it raises 0x020 and it is consumed, one of an arity above 1
waits in the matching store. -/
def State.gatherPort (s : State) (k l x p : Nat) : Nat → State
  | 0 => s
  | f + 1 =>
    match (s.port k l x p).fifo with
    | [] => s
    | t :: r =>
      if t.tok.kind ≠ .data then s
      else
        let ar := ceArity (s.classEntry k l x t.tok.cls)
        let pop (s : State) : State := s.modPort k l x p (fun q => { q with fifo := r })
        if ar ≤ p then State.gatherPort ((pop s).infoFault k l 0 0x020 0 (tagWord t.tok.iter t.tok.frame x t.tok.cls)) k l x p f
        else if ar = 1 then s
        else if !inWindow (pwWin (s.portWord k l x p)) ((s.cell k l).unfinished x p) t.tok.iter then s
        else match (s.cell k l).store x p (s.cwin k l x t.tok.cls + 1) t with
        | none => s
        | some c => State.gatherPort (pop (s.setCell k l c)) k l x p f

/-- Every port of a cell's loaded contexts. -/
def State.gather (s : State) (k l : Nat) : State :=
  (List.range 16).foldl (fun s n => if (s.ctx k l (n / 4)).loaded then s.gatherPort k l (n / 4) (n % 4) (s.port k l (n / 4) (n % 4)).fifo.length else s) s

/-! ## Candidates (R61, R62) -/

/-- A task whose operands are matched: its context and tag, operands in port order, whether they wait in the matching store. -/
structure Cand where
  ctx    : Nat
  cls    : Nat
  frame  : Nat
  iter   : W16
  ops    : List PortTok
  stored : Bool
  deriving DecidableEq, Repr

def Cand.key (c : Cand) : Nat := if c.stored then 4 + (c.ctx * 1024 + c.frame) * 65536 + c.iter.toNat else c.ctx

/-- A task's place in the arrival order of port 0, whose token selects its class (R62; log 30). -/
def arrivalOf (ops : List PortTok) : Nat := ((ops.head?).map (·.arr)).getD 0

/-- No candidate of the context has an earlier token at port 0 (R62; log 30). -/
def Cand.inOrder (all : List Cand) (d : Cand) : Bool := all.all (fun e => e.ctx != d.ctx || decide (arrivalOf d.ops ≤ arrivalOf e.ops))

def State.candidates (s : State) (k l : Nat) : List Cand :=
  let c := s.cell k l
  let heads := (List.range 4).filterMap (fun x =>
    if !(c.ctx x).loaded then none
    else match (s.port k l x 0).fifo with
    | t :: _ =>
      if t.tok.kind = .data ∧ ceArity (s.classEntry k l x t.tok.cls) = 1 ∧ inWindow (pwWin (s.portWord k l x 0)) (c.unfinished x 0) t.tok.iter then
        some ⟨x, t.tok.cls, t.tok.frame, t.tok.iter, [t], false⟩
      else none
    | [] => none)
  let sets := c.matching.filterMap (fun m =>
    if (aget m.toks 0).isSome ∧ m.toks.length = ceArity (s.classEntry k l m.ctx m.cls) then some ⟨m.ctx, m.cls, m.frame, m.iter, m.toks.map (·.2), true⟩ else none)
  (heads ++ sets).filter (Cand.inOrder (heads ++ sets))

/-- A cell of row 3 of a rank core, whose context 3 holds the collective configuration; the spec does not give what that holds (R272, log 108). -/
def State.rankRow (s : State) (k l : Nat) : Bool := decide (0 < (s.core k).rank) && l / 8 == 3

/-- The other conditions hold; context 3 of a row-3 cell of a rank core is admitted only in a slot (R272). -/
def State.eligible (s : State) (k l : Nat) (d : Cand) : Bool :=
  let n := s.needs k l d.ctx d.cls
  (d.ctx != 3 || !s.rankRow k l || (s.core k).slotOpen.isSome) && s.edgesFree k l d.ctx n && s.ringFreeFor k n && s.frameFree k n

/-- Since when a candidate has been eligible: as of the last cycle, else since now. -/
def State.since (s : State) (k l : Nat) (d : Cand) : Nat := (aget (s.cell k l).waitFrom d.key).getD s.time

/-- The candidate that became eligible earliest; ties to the lower context. -/
def State.firstEligible (s : State) (k l : Nat) : Option Cand :=
  ((s.candidates k l).filter (s.eligible k l)).foldl (fun best d => match best with
    | none => some d
    | some b => if s.since k l d < s.since k l b ∨ (s.since k l d = s.since k l b ∧ d.ctx < b.ctx) then some d else some b) none

/-- A cycle passes: which candidates have become eligible, and which wait for a frame (R62, R69). -/
def State.stampCell (s : State) (k l : Nat) : State :=
  let g := s.gather k l
  let ds := g.candidates k l
  let el := (ds.filter (g.eligible k l)).foldl (fun (m : Assoc Nat) d => aset m d.key (s.since k l d)) []
  let fw := (ds.filter (fun d => !g.frameFree k (g.needs k l d.ctx d.cls))).foldl (fun (m : Assoc (Nat × Bool)) d =>
    aset m d.key ((aget (s.cell k l).frameFrom d.key).getD (s.time, false))) []
  s.modCell k l (fun c => { c with waitFrom := el, frameFrom := fw })

/-- Cells in which a token waits to be matched. -/
def Cell.waits (c : Cell) : Bool := !c.matching.isEmpty || !c.waitFrom.isEmpty || !c.frameFrom.isEmpty || c.ctxs.any (fun x => x.loaded && x.ports.any (fun p => !p.fifo.isEmpty))

def State.stampAll (s : State) : State :=
  s.cores.foldl (fun s (e : Nat × Core) => e.2.cells.foldl (fun s (c : Nat × Cell) => if c.2.waits then s.stampCell e.1 c.1 else s) s) s

/-! ## Admission (R61) -/

/-- What a task reserves: credits, a frame, a ring slot. -/
def State.reserve (s : State) (k l : Nat) (n : Needs) (t : Task) : State × Task :=
  let s1 := n.edges.foldl (fun s e => s.modEdge k l t.ctx e (fun g => { g with rsv := g.rsv + n.m })) s
  let s1 := n.reply.foldl (fun s p => s.modPort k l t.ctx p (fun q => { q with rsv := q.rsv + n.m })) s1
  let s2 := match n.ret with | some e => s1.modEdge k l t.ctx e (fun g => { g with rsv := g.rsv + 1 }) | none => s1
  let lead := s.leadOf k
  let (s3, f) : State × Option Nat :=
    if !n.frame then (s2, none)
    else match (s.isle (isleOf k)).freeFrame with
    | some f => (s2.setFrame k f { st := 3, lead := lead }, some f)
    | none => (s2, none)
  let (s4, r) : State × Option RingHold :=
    match n.ring with
    | none => (s3, none)
    | some (i, true) => match s3.ringReserve lead i with | some (slot, u) => (u, some ⟨i, slot, true, false⟩) | none => (s3, none)
    | some (i, false) => match s3.ringTake lead i with | some (slot, u) => (u, some ⟨i, slot, false, false⟩) | none => (s3, none)
  (s4, { t with room := n.edges.map (fun e => (e, n.m)), replies := n.reply.map (fun p => (p, n.m)), retRoom := n.ret, newFrame := f, ring := r })

/-- The operands leave their FIFO and the matching store. -/
def State.takeOps (s : State) (k l : Nat) (d : Cand) : State :=
  if d.stored then s.modCell k l (fun c => { c with matching := c.matching.filter (fun m => !(m.ctx == d.ctx && m.frame == d.frame && m.iter == d.iter)) })
  else s.modPort k l d.ctx 0 (fun q => { q with fifo := q.fifo.drop 1 })

/-- A consumed host token moves the node's snapshots to the versions that it carries (R116). -/
def State.consumeHost (s : State) (k : Nat) (ts : List PortTok) : State :=
  match s.nodeAt k with
  | none => s
  | some (n, v) =>
    match ts.flatMap (·.host) with
    | [] => s
    | hs => (hs.foldl (fun s h => s.modNode n (fun v => { v with ops := v.ops.map (fun o =>
        if o.handle = h.handle ∧ o.mode ≠ 0 then { o with snap := h.version, map := h.map } else o) })) s).reclaim v.part (s.busyTiles v.part)

/-- The ring slot that a task holds is acquired (R197). -/
def State.acquireSlot (s : State) (k l : Nat) (t : Task) : Did Unit :=
  match t.ring with
  | some h => s.acquire k (handleOf l) (s.slotClr (s.leadOf k) h.ring h.slot)
  | none => (s, .ok ())

/-- The ring logic takes or reserves a slot for the cell: the race checker sees the update of the ring's state word (R196). -/
def State.ringSeen (s : State) (k l : Nat) (n : Needs) : Did Unit :=
  match n.ring with
  | some (r, _) => s.ringTouch k (handleOf l) (s.leadOf k) r
  | none => (s, .ok ())

/-- A candidate enters the ready set (R62). -/
def State.admitCand (s : State) (k l : Nat) (d : Cand) : State :=
  let c := s.cell k l
  let t : Task := { ctx := d.ctx, cls := d.cls, frame := d.frame, iter := d.iter, ops := d.ops, pc := ceEntry (s.classEntry k l d.ctx d.cls),
                    serial := c.serial, since := s.time }
  match s.ringSeen k l (s.needs k l d.ctx d.cls) with
  | (_, .error f) => s.engineFault k l 3 f t.tag
  | (s, .ok _) =>
  let r := ((s.takeOps k l d).consumeHost k d.ops).reserve k l (s.needs k l d.ctx d.cls) t
  let s1 := r.1.modCell k l (fun c => { c with serial := c.serial + 1, ready := c.ready ++ [r.2], waitFrom := adel c.waitFrom d.key, frameFrom := adel c.frameFrom d.key })
  match s1.acquireSlot k l r.2 with
  | (s2, .ok _) => s2
  | (_, .error f) => s1.engineFault k l 0 f r.2.tag

/-- The ready set's size (R62). -/
def readySize : Nat := 16

/-- Whether a region's tasks are admitted and dispatched: not while ABORTR or a fault ends its phase (R240, R255). Tokens that come between phases run tasks
too, and tasks run on while another context is loaded (R25, R71; log 103). -/
def State.phaseRuns (s : State) (k : Nat) : Bool :=
  (s.regionAt k).isSome && !(s.rc (s.leadOf k)).aborting

/-! ## Dispatch (R63) -/

/-- Ready tasks of whose port 0 no earlier token waits to be dispatched (R62; log 30). -/
def Cell.dispatchable (c : Cell) : List Task :=
  c.ready.filter (fun t => c.ready.all (fun u => u.ctx != t.ctx || decide (arrivalOf t.ops ≤ arrivalOf u.ops)))

/-- The oldest of some tasks. -/
def oldestTask (ts : List Task) : Option Task :=
  ts.foldl (fun best t => match best with | none => some t | some b => if t.serial < b.serial then some t else some b) none

/-- The task dispatched next, and the round robin's values after it. `prio` is the priority of a task's class. -/
def Cell.pick (c : Cell) (prio : Task → Nat) (time : Nat) : Option (Task × List Int) :=
  let pool := c.dispatchable
  match oldestTask (pool.filter (fun t => decide (t.since + 256 ≤ time))) with
  | some t => some (t, c.cur)
  | none =>
    let es := (List.range 4).filter (fun x => pool.any (fun t => t.ctx == x))
    let cur := (List.range 4).map (fun x => c.cur.getD x 0 + (if es.contains x then (c.w.getD x 0 : Int) else 0))
    let best := es.foldl (fun (b : Option Nat) x => match b with
      | none => some x
      | some y => if cur.getD y 0 < cur.getD x 0 then some x else some y) none
    match best with
    | none => none
    | some x =>
      let total := es.foldl (fun a e => a + c.w.getD e 0) 0
      let mine := pool.filter (fun t => t.ctx == x)
      let top := mine.foldl (fun a t => max a (prio t)) 0
      (oldestTask (mine.filter (fun t => prio t == top))).map (fun t => (t, cur.modify x (· - (total : Int))))

/-- The notify tokens among a task's operands are acquired as it is dispatched (R103, R112). -/
def State.acquireOps (s : State) (k l : Nat) (t : Task) : Did Unit :=
  if !isMemCell l then (s, .ok ())
  else t.ops.foldl (fun (acc : Did Unit) o => match acc with
    | (u, .ok _) => u.acquire k (handleOf l) o.acq
    | e => e) (s, .ok ())

/-- A cell as the arbitration sees it: in a slot, context 3 of a row-3 cell of a rank core has weight 16 (R272). -/
def State.weighed (s : State) (k l : Nat) : Cell :=
  let c := s.cell k l
  if s.rankRow k l && (s.core k).slotOpen.isSome then { c with w := (List.range 4).map (fun x => if x = 3 then 16 else c.w.getD x 0) } else c

def State.dispatch (s : State) (k l : Nat) : State :=
  if (s.cell k l).running.isSome then s
  else match (s.weighed k l).pick (fun t => cePrio (s.classEntry k l t.ctx t.cls)) s.time with
  | none => s
  | some (t, cur) =>
    let s1 := s.modCell k l (fun c => { c with
      ready := c.ready.filter (fun u => u.serial != t.serial)
      running := some t
      cur := cur
      l := List.replicate 4 Reg.empty })
    match s1.acquireOps k l t with
    | (s2, .ok _) => s2
    | (_, .error f) => s1.engineFault k l 0 f t.tag

/-- Weights from the occupancy of the input FIFOs (R63). -/
def State.newWeights (s : State) (k l : Nat) : State :=
  s.modCell k l (fun c => { c with
    w := (List.range 4).map (fun x => 1 + min 15 (((c.ctx x).ports.foldl (fun n p => n + p.fifo.length) 0) / 2))
    cur := [0, 0, 0, 0]
    wTime := s.time })

/-- Cycles of a millisecond at 1.8 GHz (R69). -/
def cyclesPerMs : Nat := 1800000

/-- A task that has waited 1 ms for a frame posts 0x02E once, and waits on (R69). -/
def State.frameTimeouts (s : State) (k l : Nat) : State :=
  (s.cell k l).frameFrom.foldl (fun s w =>
    if !w.2.2 && decide (w.2.1 + cyclesPerMs ≤ s.time) then
      (s.infoFault k l 0 0x02E 0 0).modCell k l (fun c => { c with frameFrom := aset c.frameFrom w.1 (w.2.1, true) })
    else s) s

end Sys2Proof.Machine
end

