-- ==== Sys2Proof/Machine/Fetch.lean ====
section
/-! DEFINITION. Which agent moves next (log 2), fetching its instruction from its store (R135, R145, R147, R237), the passing of a core cycle (R238), and
where a word stands so that the next step runs it (log 5). -/

namespace Sys2Proof.Machine

/-- What a turn comes to: an instruction or event to run from a state, a state that the turn leaves by itself, or a stop. -/
inductive Fetched where
  | run (i : Instr) (s : State)
  | still (s : State)
  | bad (f : Fault)

/-- The next turn: the first that was set from outside, else the schedule's. -/
def State.takeTurn (s : State) : Turn × State :=
  match s.agenda with
  | t :: r => (t, { s with agenda := r })
  | [] => (Config.schedule s.turnNo, { s with turnNo := s.turnNo + 1 })

/-- Whether the region of a core lets its cells and engines work: not when it is frozen or killed (R322, R327). -/
def State.works (s : State) (k : Nat) : Bool :=
  match s.regionAt k with
  | some r => r.st == .running || r.st == .draining
  | none => true

/-- Whether an RC may execute: its program runs, and its region is not being pre-empted or killed; an instruction that waits for the RC's own accesses runs to
its end (R322, R327). -/
def State.rcRuns (s : State) (k : Nat) : Bool :=
  (s.rc k).mode == .running && (s.rc k).held.isNone && (match s.regionAt k with | some r => r.st == .running || (s.rc k).level != 0 || (r.st == .draining && (s.rc k).waits) | none => true)

/-- A cell's turn: the next instruction of its running task; with no task running, its port goes on with its requests. -/
def State.fetchTask (s : State) (k l : Nat) : Fetched :=
  match (s.cell k l).running with
  | none => .still (if s.works k then s.drain k l else s)
  | some t =>
    if !s.works k then .still s
    else match s.fetchCell k l t.ctx t.pc with
    | .ok (i, _) => .run i { s with fcore := k, fcell := l }
    | .error _ => .bad (.routineWord k l t.pc)

/-- The word at an address of the RC's program section, 0 beyond its end. -/
def State.rcWordAt (s : State) (k a : Nat) : Nat :=
  let r := s.rc k
  if r.progOff ≤ a ∧ a + 4 ≤ r.progOff + r.progLen then Memory.readNat s.mem (progBase k + (a - r.progOff)) 4 else 0

/-- Whether an address lies in the program section (R237). -/
def State.inProgram (s : State) (k a : Nat) : Bool := decide ((s.rc k).progOff ≤ a) && decide (a + 4 ≤ (s.rc k).progOff + (s.rc k).progLen)

/-- An RC's turn. A fetch outside the program section faults (R237); so does a long instruction whose extension lies outside it. -/
def State.fetchRc (s : State) (k : Nat) : Fetched :=
  let pc := (s.rc k).pc
  if !s.rcRuns k then .still s
  else if !s.inProgram k pc then .still (s.rcFault k ⟨0x0C9, pc, 0, false⟩)
  else
    let w := s.rcWordAt k pc
    if rcIsLong w && !s.inProgram k (pc + 4) then .still (s.rcFault k ⟨0x0C9, pc + 4, 0, false⟩)
    else .run (decodeRc w (s.rcWordAt k (pc + 4))) { s with fcore := k, word := w }

/-- A matrix engine's turn: the slot of its running instance, until the marker of a pre-emption has gone by (R214). -/
def State.fetchSlot (s : State) (k : Nat) : Fetched :=
  match (s.core k).matrix.run with
  | none => .still s
  | some m =>
    if !s.works k || (s.core k).matrix.passed then .still s
    else match decodeMatrix (Memory.readNat s.mem (matBase k + (m.ctx * 16 + m.slot) * 8) 8) with
    | .ok i => .run i { s with fcore := k }
    | .error _ => .bad (.matrixWord k m.ctx m.slot)

/-- sr.timer reaches zero: event bit 5 (R238, R249). -/
def Rc.expire (r : Rc) : Rc := { r with timer := 0, ev := r.ev ||| 2 ^ 5 }

/-- One cycle of a timer (R238). -/
def Rc.tick (r : Rc) : Rc := if r.timer = 0 then r else if r.timer = 1 then r.expire else { r with timer := r.timer - 1 }

/-- Time advances and the timers run. -/
def State.tick (s : State) : State :=
  { s with time := (s.time + 1) % 2 ^ 64, cores := s.cores.map (fun e => (e.1, { e.2 with rc := e.2.rc.tick })) }

/-- One core cycle passes (R238, log 4): what waits for admission is noted first (R62, R69). -/
def State.passCycle (s : State) : State := s.stampAll.tick

/-- The source of records whose work a turn is, where there is one: a cell, an RC, a matrix engine, and for an event the unit that it belongs to. -/
def State.turnSource (s : State) : Turn → Option Nat
  | .cell k l => some (agentId k l)
  | .rc k => some (agentId k 48)
  | .matrix k => some (agentId k 34)
  | .event i p =>
    match i with
    | .evTaskAdmit | .evTaskDispatch | .evStagedTokenRelease | .evEosForward | .evGeneratorPoint => some (agentId p.core p.cell)
    | .evMatrixInstanceStart | .evMatrixEos => some (agentId p.core 34)
    | .evCfgLoadApply | .evPhaseComplete => some (agentId p.core 48)
    | .evNoticeArrival | .evCopyOutSlotTake | .evSectorLanding => some (agentId p.core 49)
    | .evChunkCombine | .evCommit | .evMemberLost => some (agentId p.core 50)
    | .evHistoryCommandApply | .evHistoryFrontierAdvance | .evHistoryEosPass | .evBucketSpill | .evBucketFill => some (agentId p.core (36 + hdHp (s.histWord p.core p.x)))
    | .evNodeComplete => (aget s.nodes p.x).map (fun v => schedKey v.die)
    | .evRegionFrozen | .evPreemptTimeout | .evKillDone => some (sequencerKey (dieOf p.core))
    | _ => none
  | .pass => none

/-- A turn is one of a source that is held till a record of its own has room (R317). -/
def State.turnHeld (s : State) (u : Turn) : Bool := match s.turnSource u with | some n => s.sourceHeld n | none => false

/-- What a turn runs. -/
def State.fetchTurn (s : State) (u : Turn) : Fetched :=
  if s.turnHeld u then .still s
  else match u with
  | .cell k l => s.fetchTask k l
  | .rc k => s.fetchRc k
  | .matrix k => s.fetchSlot k
  | .event i p => if (encodeWord i).1 = .event then .run i { s with place := p, fcore := p.core, fcell := p.cell } else .still s
  | .pass => .still s.passCycle

def State.fetch (s : State) : Fetched := let t := s.takeTurn; t.2.fetchTurn t.1

/-! ## Placing a word (log 5) -/

/-- A cell's routine: the word at halfword 0 of core 0, cell (0,0), context 0, whose task runs. -/
def State.placeCell (s : State) (bytes : List Byte) : State :=
  let t : Task := { ctx := 0, cls := 0, frame := 0, iter := 0, ops := [], pc := 0, serial := 0, since := 0 }
  { (s.modCell 0 0 (fun c => { c with running := some t })) with
    mem := Memory.writeN s.mem (cfgBase 0 0 0) bytes
    agenda := [.cell 0 0] }

/-- A matrix slot: slot 0 of context 0 of core 1, whose instance runs in an engine that the ramp has admitted. -/
def State.placeSlot (s : State) (bytes : List Byte) : State :=
  { (s.modCore 1 (fun c => { c with matrix := { c.matrix with run := some { ctx := 0, slot := 0, frame := 0, iter := 0, cls := 0 }, admitted := true } })) with
    mem := Memory.writeN s.mem (matBase 1) bytes
    agenda := [.matrix 1] }

/-- A program of two words at offset 0: at the manager controller for a privileged opcode (row 0x60), at core 1 at kernel level for any other. -/
def State.placeRc (s : State) (privileged : Bool) (bytes : List Byte) : State :=
  let k := if privileged then managerCore else 1
  { (s.modRc k (fun r => { r with mode := .running, level := if privileged then 2 else 0, pc := 0, progOff := 0, progLen := 8 })) with
    mem := Memory.writeN s.mem (progBase k) bytes
    agenda := [.rc k] }

def State.placeWord (s : State) (nbits w : Nat) : State :=
  match tableInstr nbits w with
  | some (.compact, _) => s.placeCell (leBytes 2 w ++ [0, 0])
  | some (.cell, _) => s.placeCell (tableBytes nbits w)
  | some (.matrix, _) => s.placeSlot (tableBytes nbits w)
  | some _ => s.placeRc (decide (0x60 ≤ bits w 31 25) && decide (bits w 31 25 < 0x70)) (tableBytes nbits w)
  | none => s

end Sys2Proof.Machine
end

