-- ==== Sys2Proof/Machine/History.lean ====
section
/-! DEFINITION. The history unit of a keyed core: stored order, commands, frontier advances, spilling (R126 to R134, R225 to R235, R291, R292). -/

namespace Sys2Proof.Machine

/-! ## Histories and their roles -/

def State.hist (s : State) (k h : Nat) : Hist := (aget (s.core k).hists h).getD {}
def State.modHist (s : State) (k h : Nat) (f : Hist → Hist) : State := s.modCore k (fun c => { c with hists := aset c.hists h (f ((aget c.hists h).getD {})) })

/-- The instructions of the memory cells' routines of a core. -/
def State.routines (s : State) (k : Nat) : List Instr :=
  (List.range 8).flatMap (fun m => (List.range 4).flatMap (fun x =>
    let l := cellOfHandle m
    if (s.ctx k l x).loaded then (List.range 16).flatMap (fun n =>
      let w := s.classEntry k l x n
      if ceArity w = 0 then [] else s.routineFrom k l x 48 (ceEntry w)) else []))

/-- A history takes changes when HINS, HJOIN or HRED names it (R291). -/
def State.takesChanges (s : State) (k h : Nat) : Bool :=
  (s.routines k).any (fun i => match i with | .hins _ n => n == h | .hjoin _ n _ => n == h | .hred _ _ n _ => n == h | _ => false)

/-- HJOIN names the history (R226). -/
def State.joinSide (s : State) (k h : Nat) : Bool := (s.routines k).any (fun i => match i with | .hjoin _ n _ => n == h | _ => false)

/-- Variant and value word of the HRED that names a reduce input (R226). -/
def State.reduceOf (s : State) (k h : Nat) : Option (Nat × Nat) :=
  (s.routines k).findSome? (fun i => match i with | .hred d _ n v => if n = h then some (v, d) else none | _ => none)

def State.partnerOf (s : State) (k h : Nat) : Option Nat := let w := s.histWord k h; if hdPj w then some (hdPartner w) else none

/-- The histories that a command or pass of h rewrites: with a reduce input its output (R235). -/
def State.pairOf (s : State) (k h : Nat) : List Nat :=
  match s.reduceOf k h, s.partnerOf k h with
  | some _, some p => [h, p]
  | _, _ => [h]

/-- Local id of a history's output port. -/
def State.hpLoc (s : State) (k h : Nat) : Nat := 36 + hdHp (s.histWord k h)

/-! ## Entries in stored order (R127, R128) -/

def HEntry.time (e : HEntry) : Time := (e.epoch, e.round)
def HEntry.moved (e : HEntry) (t : Time) : HEntry := { e with epoch := t.1, round := t.2 }
def HEntry.d (e : HEntry) : Int := signExt 32 e.diff.toNat

/-- A value word as the number that its bytes give, least significant first. -/
def byteOrder (w : W32) : Nat := (leBytes 4 w.toNat).foldl (fun a b => a * 256 + b.toNat) 0

def lexList : List Nat → List Nat → Bool
  | a :: x, b :: y => decide (a < b) || (a == b && lexList x y)
  | [], _ :: _ => true
  | _, _ => false

/-- Stored order as a list of numbers: bucket, key, pending-time entries first, value bytes, epoch, round. -/
def HEntry.order (b : Nat) (e : HEntry) : List Nat := [bucketOf b e.key, e.key, Bool.nat (!e.t)] ++ e.vals.map byteOrder ++ [e.epoch, e.round]

/-- An entry takes its place, after the entries equal to it. -/
def putEntry (b : Nat) (e : HEntry) : List HEntry → List HEntry
  | [] => [e]
  | x :: r => if lexList (e.order b) (x.order b) then e :: x :: r else x :: putEntry b e r

def HEntry.bytes (e : HEntry) : Nat := 32 + 4 * e.vals.length

/-- The bytes of an entry, with the offset of the next entry of its bucket (R128). -/
def HEntry.image (e : HEntry) (link : Nat) : List Byte :=
  leBytes 8 e.key ++ leBytes 4 e.epoch ++ leBytes 4 e.round ++ leBytes 4 e.diff.toNat ++ leBytes 4 (4 * e.vals.length) ++ leBytes 4 link
    ++ leBytes 4 (e.origin * 2 ^ 16 + Bool.nat e.t * 2 + Bool.nat e.p) ++ e.vals.flatMap (fun v => leBytes 4 v.toNat)

/-- Entries one after another from an offset, each linked to the next of its bucket. -/
def entriesImage (b : Nat) : Nat → List HEntry → List Byte
  | _, [] => []
  | off, e :: r =>
    let link := match r with
      | x :: _ => if bucketOf b x.key = bucketOf b e.key then off + e.bytes else 0xFFFFFFFF
      | [] => 0xFFFFFFFF
    e.image link ++ entriesImage b (off + e.bytes) r

/-- The low 32 bits of a diff, and whether it wrapped (R119). -/
def wrapDiff (v : Int) : W32 × Bool := (BitVec.ofNat 32 (cut 32 v), decide (v < -(2 ^ 31 : Nat)) || decide ((2 ^ 31 : Nat) ≤ v))

/-- P and origin of a result: the first poisoned operand, else the agent where a diff wrapped (R119). -/
def marksOf (ms : List (Bool × Nat)) (wraps : Bool) (agent : Nat) : Bool × Nat :=
  match ms.find? (·.1) with
  | some m => m
  | none => if wraps then (true, agent) else (false, 0)
def HEntry.marks (e : HEntry) : Bool × Nat := (e.p, e.origin)

/-- The change that a record token carries. -/
def entryOf (r : Reg) : HEntry :=
  { key := recKey r, vals := (List.range (recValues r)).map (fun i => r.data.getD (5 + i) 0), epoch := laneOf r 2, round := laneOf r 3,
    diff := r.data.getD 4 0, p := r.p, origin := r.origin }

/-- The record token of a change (R118, R228). -/
def changeToken (key : Nat) (vals : List W32) (t : Time) (d : W32) (m : Bool × Nat) (frame : Nat) (iter : W16) : Token :=
  let ls : List Nat := [key % 2 ^ 32, key / 2 ^ 32, t.1, t.2, d.toNat] ++ vals.map (·.toNat)
  dataToken (mkReg .rcd 0 m.1 m.2 (fun i => ls[i]?)) 0 frame iter
def nullToken (frame : Nat) (iter : W16) : Token := dataToken (nullRec false 0) 0 frame iter
def frontToken (f : List Time) (iter : W16) : Token := markToken (frontReg f) 2 0 iter

/-- What an item leaves: tokens with their output port. -/
abbrev Outs := List (Nat × Token)

/-! ## Consolidation and compaction (R133, R134) -/

/-- Runs of equal key, value and time become one entry with the sum of the run's diffs; a pending time stands once. -/
def mergeRuns : List HEntry → List (HEntry × Int)
  | [] => []
  | e :: r =>
    match mergeRuns r with
    | [] => [(e, e.d)]
    | (x, d) :: q =>
      if e.key = x.key ∧ e.vals = x.vals ∧ e.time = x.time ∧ e.t = x.t then
        (let m := marksOf [e.marks, x.marks] false 0
         ({ e with p := m.1, origin := m.2 }, if e.t then e.d else e.d + d) :: q)
      else (e, e.d) :: (x, d) :: q

/-- A run whose sum is zero goes; a sum outside S32 wraps and poisons (R119, R133). -/
def consolidate (agent : Nat) (es : List HEntry) : List HEntry :=
  ((mergeRuns es).filter (fun e => e.1.t || e.2 != 0)).map (fun e =>
    let d := wrapDiff e.2
    let m := marksOf [e.1.marks] d.2 agent
    { e.1 with diff := d.1, p := m.1, origin := m.2 })

/-- Every time moved by adv_F; an empty F removes every entry. -/
def compactBy (b agent : Nat) (f : List Time) (es : List HEntry) : List HEntry :=
  consolidate agent ((es.filterMap (fun e => (advTime f e.time).map e.moved)).foldl (fun acc e => putEntry b e acc) [])

/-- HCONS and HCOMP rewrite a history, and a reduce input's output with it (R235). -/
def State.rewriteHist (s : State) (k h : Nat) (f : Option (List Time)) : State :=
  (s.pairOf k h).foldl (fun s n =>
    let agent := agentId k (s.hpLoc k n)
    s.modHist k n (fun x => { x with entries := match f with
      | none => consolidate agent x.entries
      | some f => compactBy (hdB (s.histWord k n)) agent f x.entries })) s

/-- Reduced meet of a history's reader registers as the unit has taken them. -/
def State.readerMeet (s : State) (k h : Nat) : List Time :=
  meetFronts ((List.range 8).filterMap (fun n => if bit (hdReaders (s.histWord k h)) n then some ((s.hist k h).fns.getD n []) else none))

/-- HCOMP: COMPACT_AHEAD, or the rewriting (R134). -/
def State.compactCmd (s : State) (k h : Nat) (f : List Time) : Except Nat (State × Outs) :=
  if notAhead f (s.readerMeet k h) then .ok (s.rewriteHist k h (some f), []) else .error 0x099

/-! ## Commands (R130 to R132, R230 to R233) -/

/-- The unit stores a poisoned change: it is a sink (R119). -/
def State.histSink (s : State) (k h : Nat) (c : HEntry) : State :=
  if !c.p then s
  else
    let s1 := s.notePoison (s.leadOf k) c.origin
    if (s.core k).hists.any (fun e => e.2.posted) then s1
    else (s1.postPoisoned k (agentId k (s.hpLoc k h)) c.origin).modHist k h (fun x => { x with posted := true })

/-- A change is inserted. -/
def State.insertEntry (s : State) (k h : Nat) (c : HEntry) : State :=
  (s.modHist k h (fun x => { x with entries := putEntry (hdB (s.histWord k h)) c x.entries })).histSink k h c

/-- HSEEK (R231). -/
def State.seekHist (s : State) (k h port : Nat) (c : HCmd) : State × Outs :=
  let has := okAt c.a 0 && okAt c.a 1
  let es := if has then (s.hist k h).entries.filter (fun e => e.key == recKey c.a) else []
  (s, es.map (fun e => (port, changeToken e.key e.vals e.time e.diff e.marks c.frame c.iter)) ++ [(port, nullToken c.frame c.iter)])

/-- HJOIN (R131, R232): A is the lower-numbered side. -/
def State.joinHist (s : State) (k h port : Nat) (c : HCmd) (v : HEntry) : State × Outs :=
  let p := hdPartner (s.histWord k h)
  let es := (s.hist k p).entries.filter (fun e => e.key == v.key && !e.t)
  let outs := es.map (fun e =>
    let d := wrapDiff (v.d * e.d)
    (port, changeToken v.key (if h < p then v.vals ++ e.vals else e.vals ++ v.vals) (joinTime v.time e.time) d.1
      (marksOf [v.marks, e.marks] d.2 (agentId k (36 + port))) c.frame c.iter))
  (s.insertEntry k h v, outs ++ [(port, nullToken c.frame c.iter)])

/-- The closure of a time under ∨ with the times held (R132). -/
def closeTimes (t : Time) (held : List Time) : List Time := held.foldl (fun acc u => sortTimes (acc ++ acc.map (joinTime u))) [t]

/-- HRED at command time (R132, R233). -/
def State.reduceHist (s : State) (k h : Nat) (v : HEntry) : Except Nat State :=
  let o := hdPartner (s.histWord k h)
  let s1 := s.insertEntry k h v
  let pend := ((s1.hist k o).entries.filter (fun e => e.key == v.key && e.t)).map HEntry.time
  let held := sortTimes (pend ++ ((s1.hist k h).entries.filter (fun e => e.key == v.key)).map HEntry.time)
  let new := (closeTimes v.time held).filter (fun t => !(pend.contains t))
  if 64 < pend.length + new.length then .error 0x09E
  else .ok (s1.modHist k o (fun x => { x with entries := new.foldl (fun acc t =>
    putEntry (hdB (s.histWord k o)) { key := v.key, vals := [], epoch := t.1, round := t.2, diff := 0, t := true } acc) x.entries }))

/-- A command applied whole: the state with its output, or its cause. -/
def State.histCommand (s : State) (k h : Nat) (c : HCmd) : Except Nat (State × Outs) :=
  let port := if c.edge = 0 then hdHp (s.histWord k h) else c.edge - 1
  match c.op with
  | 1 => .ok (s.seekHist k h port c)
  | 4 => .ok (s.rewriteHist k h none, [])
  | 5 => s.compactCmd k h ((frontOf c.a).getD [])
  | op =>
    let v := entryOf c.a
    if !okAt c.a 0 || v.diff == 0 then .ok (s, if op = 2 then [(port, nullToken c.frame c.iter)] else [])
    else if passes ((s.hist k h).fns.getD (hdInfn (s.histWord k h)) []) v.time then .error 0x09D
    else if op = 0 then .ok (s.insertEntry k h v, [])
    else if op = 2 then .ok (s.joinHist k h port c v)
    else (s.reduceHist k h v).map (fun t => (t, []))

/-! ## Advances (R131, R132, R234) -/

/-- Sums of diffs by value, in stored order, those of zero left out. -/
def sumsOf (es : List HEntry) : List (List W32 × Int) :=
  (es.foldl (fun (acc : List (List W32 × Int)) e =>
    if acc.any (fun q => q.1 == e.vals) then acc.map (fun q => if q.1 = e.vals then (q.1, q.2 + e.d) else q) else acc ++ [(e.vals, e.d)]) []).filter (fun q => q.2 != 0)

/-- f(In) of R132: v is 0 COUNT, 1 SUM, 2 MIN, 3 MAX; the value, and whether its S32 sum wrapped. -/
def reduceValue (v j : Nat) (es : List HEntry) : Option (W32 × Bool) :=
  let m := sumsOf es
  let word (q : List W32 × Int) : Int := signExt 32 (q.1.getD j 0).toNat
  if m.isEmpty then none
  else if v = 0 then some (wrapDiff (m.foldl (fun a q => a + q.2) 0))
  else if v = 1 then some (wrapDiff (m.foldl (fun a q => a + q.2 * word q) 0))
  else match (m.filter (fun q => decide (0 < q.2))).map word with
  | [] => none
  | x :: r => some ((wrapDiff (r.foldl (fun a b => if v = 2 then min a b else max a b) x)).1, false)

/-- An emitted change is written into the output history, consolidated (R233): an entry whose sum is zero goes, one whose sum wraps stays, poisoned (R119). -/
def writeEntry (b agent : Nat) (e : HEntry) (es : List HEntry) : List HEntry :=
  let same (x : HEntry) : Bool := !x.t && x.key == e.key && x.vals == e.vals && x.time = e.time
  if es.any same then
    (es.filter (fun x => !(same x && x.d + e.d == 0))).map (fun x =>
      if same x then
        (let d := wrapDiff (x.d + e.d)
         let m := marksOf [x.marks, e.marks] d.2 agent
         { x with diff := d.1, p := m.1, origin := m.2 })
      else x)
  else putEntry b e es

/-- The corrections of one key at one passed time (R132, R233). Each is formed from the input entries at or before the time and the emitted outputs there: its
origin is that of the first poisoned of them, the inputs first: DESIGN CHOICE, R119 does not list them (log 94). The mark of a sum that wrapped is on the
record that carries it alone (R119). -/
def reduceAt (b agent v j : Nat) (ins outs : List HEntry) (key : Nat) (t : Time) : List HEntry × List HEntry :=
  let at' (es : List HEntry) : List HEntry := es.filter (fun e => e.key == key && !e.t && leTime e.time t)
  let i := at' ins
  let o := at' outs
  let old := sumsOf o
  let new := reduceValue v j i
  let wraps := match new with | some n => n.2 | none => false
  let ms := (i ++ o).map HEntry.marks
  let entry (vals : List W32) (d : Int) (wrapped : Bool) : HEntry :=
    let w := wrapDiff d
    let q := marksOf ms (w.2 || wrapped) agent
    { key := key, vals := vals, epoch := t.1, round := t.2, diff := w.1, p := q.1, origin := q.2 }
  let cs : List HEntry :=
    if (match new with | some n => old == [([n.1], 1)] | none => false) then []
    else old.map (fun u => entry u.1 (-u.2) false) ++ (match new with
      | some n => [entry [n.1] 1 wraps]
      | none => [])
  ((cs.foldl (fun acc e => writeEntry b agent e acc) outs).filter (fun e => !(e.t && e.key == key && e.time = t)), cs)

/-- A reduce input's advance: keys in stored order, passed times in lexicographic order (R132). -/
def State.reduceAdvance (s : State) (k h : Nat) (f : List Time) (iter : W16) : State × Outs :=
  let o := hdPartner (s.histWord k h)
  let port := hdHp (s.histWord k h)
  let q := (s.reduceOf k h).getD (0, 0)
  let pend := (s.hist k o).entries.filter (fun e => e.t && passes f e.time)
  let r := pend.foldl (fun (acc : List HEntry × List HEntry) e =>
    let c := reduceAt (hdB (s.histWord k o)) (agentId k (36 + port)) q.1 q.2 (s.hist k h).entries acc.1 e.key e.time
    (c.1, acc.2 ++ c.2)) ((s.hist k o).entries, [])
  (s.modHist k o (fun x => { x with entries := r.1 }),
    r.2.map (fun e => (port, changeToken e.key e.vals e.time e.diff e.marks 0 iter)) ++ [(port, nullToken 0 iter), (port, frontToken f iter)])

/-- A frontier register's advance as the history unit takes it: the register, and a reduce input's corrections. -/
def State.takeAdvance (s : State) (k h fn : Nat) (f : List Time) (iter : W16) : State × Outs :=
  let s1 := s.modHist k h (fun x => { x with fns := x.fns.set fn f })
  if hdInfn (s.histWord k h) = fn ∧ (s.reduceOf k h).isSome then s1.reduceAdvance k h f iter else (s1, [])

/-- An item of a register's change that a change of a lower register in the same cycle goes before (R234). -/
def HItem.yields (fn time : Nat) : HItem → Bool
  | .advance g _ _ t => decide (fn < g) && t == time
  | .join g _ t => decide (fn < g) && t == time
  | _ => false

/-- Where the items of a register's change stand in a command order: at its end, or before those of higher registers that changed in the same cycle. -/
def placeItem (fn time : Nat) (i : HItem) (q : List HItem) : List HItem :=
  let n := (q.reverse.takeWhile (HItem.yields fn time)).length
  q.take (q.length - n) ++ i :: q.drop (q.length - n)

/-- What an advance of a register of a region places in the command orders of a core (R131, R134, R234). -/
def State.queueAdvance (s : State) (k fn : Nat) (f : List Time) (iter : W16) : State :=
  let paired (h : Nat) : Bool := match s.partnerOf k h with | some p => s.joinSide k h || s.joinSide k p | none => false
  let add (s' : State) (h : Nat) (i : HItem) : State := s'.modHist k h (fun x => { x with queue := if paired h then placeItem fn s.time i x.queue else x.queue ++ [i] })
  let hs := (List.range 16).filter (fun h => hdEn (s.histWord k h))
  let takes (h : Nat) : Bool := hdInfn (s.histWord k h) == fn
  let reads (h : Nat) : Bool := bit (hdReaders (s.histWord k h)) fn
  let s1 := hs.foldl (fun s h => if takes h || reads h then add s h (.advance fn f iter s.time) else s) s
  let joined (h p : Nat) : Bool := (s.joinSide k h || s.joinSide k p) && (takes h || takes p)
  let s2 := hs.foldl (fun t h =>
    match s.partnerOf k h with
    | some p => if h < p ∧ joined h p then add (add t h (.join fn iter s.time)) p (.join fn iter s.time) else t
    | none => t) s1
  hs.foldl (fun t h => if hdAc (s.histWord k h) && reads h then add t h .compact else t) s2

/-- An EOS at the input register of histories that take changes (R291). -/
def State.queueEos (s : State) (k fn : Nat) : State :=
  (List.range 16).foldl (fun t h =>
    if hdEn (s.histWord k h) && hdInfn (s.histWord k h) == fn && s.takesChanges k h then t.modHist k h (fun x => { x with queue := x.queue ++ [.eos] }) else t) s

/-! ## Areas and spilling (R129, R336) -/

def bucketBytes (b n : Nat) (es : List HEntry) : Nat := (es.filter (fun e => bucketOf b e.key == n)).foldl (fun a e => a + e.bytes) 0
def bucketsOf (b : Nat) (es : List HEntry) : List Nat := (es.map (fun e => bucketOf b e.key)).eraseDups

/-- The entries that lie in the area. -/
def State.residents (s : State) (k h : Nat) (x : Hist) : List HEntry :=
  x.entries.filter (fun e => (aget x.spilled (bucketOf (hdB (s.histWord k h)) e.key)).isNone)

/-- Bytes that a history holds in its area. -/
def State.areaUse (s : State) (k h : Nat) : Nat :=
  let x := s.hist k h
  (s.residents k h x).foldl (fun a e => a + e.bytes) 0

/-- The entries of a history in its area, as R128 lays each out, one after another in stored order from a free offset (log 86). -/
def State.writeArea (s : State) (k h : Nat) : State :=
  let a := s.histArea k h
  let es := s.residents k h (s.hist k h)
  let off := Config.areaPlace (k * 16 + h) (a.2 - s.areaUse k h) % ((a.2 - s.areaUse k h) / 4 + 1) * 4
  { s with mem := Memory.writeN s.mem (spadBase k + a.1 + off) (entriesImage (hdB (s.histWord k h)) off es) }

/-- Blocks of 64 KiB that a bucket takes. -/
def blocksFor (b n : Nat) (es : List HEntry) : Nat := (bucketBytes b n es + 65535) / 65536

/-- The VAs of the spill blocks that a partition's histories hold, those of saved regions among them (R336). -/
def Core.spillHeld (c : Core) : List Nat := c.hists.flatMap (fun (x : Nat × Hist) => x.2.spilled.flatMap (·.2))
def State.spillHeld (s : State) (pt : Nat) : List Nat :=
  (s.cores.filter (fun (e : Nat × Core) => (s.part pt).isles.testBit (isleOf e.1))).flatMap (fun e => e.2.spillHeld)
    ++ (s.saved.filter (fun x => x.part == pt)).flatMap (fun x => x.cores.flatMap (fun c => c.spillHeld))
def State.spillBlocks (s : State) (pt : Nat) : Nat := bits (s.part pt).spill 63 48 * 32

/-- Free blocks of the spill range, the lowest first (R336; log 15). -/
def State.freeBlocks (s : State) (pt n : Nat) : List Nat :=
  let used := s.spillHeld pt
  (((List.range (min (s.spillBlocks pt) (used.length + n))).map (fun i => bits (s.part pt).spill 47 21 * 2 ^ 21 + 65536 * i)).filter (fun v => !used.contains v)).take n

/-- The bucket that spills next: the least recently used that lies in the area, those of `keep` left out. -/
def State.spillNext (s : State) (k h : Nat) (keep : List Nat) : Option Nat :=
  let x := s.hist k h
  let age (n : Nat) : Nat := (aget x.used n).getD 0
  ((bucketsOf (hdB (s.histWord k h)) x.entries).filter (fun n => (aget x.spilled n).isNone && !(keep.contains n))).foldl
    (fun (acc : Option Nat) n => match acc with | none => some n | some m => if age n < age m then some n else some m) none

/-- Whether a bucket of the history may still be spilled. -/
def State.canSpill (s : State) (k h : Nat) (keep : List Nat) : Bool :=
  match s.spillNext k h keep with
  | none => false
  | some n =>
    let m := blocksFor (hdB (s.histWord k h)) n (s.hist k h).entries
    (s.freeBlocks (s.partAt k) m).length == m

/-- Blocks that a history's spilled buckets lack, after an item that wrote into them (R129, R132). -/
def State.lacking (s : State) (k h : Nat) : Nat :=
  let x := s.hist k h
  x.spilled.foldl (fun a q => a + (blocksFor (hdB (s.histWord k h)) q.1 x.entries - q.2.length)) 0

/-- How an item's outcome `t` meets the areas of the histories that it touches: it fits, it waits for a spill of one of them, or it never can. -/
inductive Room where
  | fits | waits (h : Nat) | never
  deriving DecidableEq, Repr

def State.roomOf (s t : State) (k : Nat) (keep : Nat → List Nat) : List Nat → Room
  | [] => .fits
  | h :: r =>
    let size := (s.histArea k h).2
    let b := hdB (s.histWord k h)
    let es := (t.hist k h).entries
    if (bucketsOf b es).any (fun n => decide (size < bucketBytes b n es)) then .never
    else if (t.freeBlocks (t.partAt k) (t.lacking k h)).length < t.lacking k h then .never
    else if t.areaUse k h ≤ size then s.roomOf t k keep r
    else if s.canSpill k h (keep h) then .waits h else .never

/-- The buckets that a command touches, by history: of its key for HINS, HSEEK, HJOIN and HRED (R129); other items go through their histories bucket by
bucket where each lies. -/
def State.touched (s : State) (k h : Nat) (i : HItem) : List (Nat × Nat) :=
  match i with
  | .cmd c =>
    if c.op ≤ 3 ∧ okAt c.a 0 then
      let n (g : Nat) : Nat × Nat := (g, bucketOf (hdB (s.histWord k g)) (recKey c.a))
      match s.partnerOf k h with
      | some p => if c.op = 1 then [n h] else [n h, n p]
      | none => [n h]
    else []
  | _ => []

/-- The histories that an item may change. -/
def State.changed (s : State) (k h : Nat) (i : HItem) : List Nat :=
  match i with
  | .cmd c => if c.op = 3 then s.pairOf k h else if c.op = 1 then [] else if c.op < 4 then [h] else s.pairOf k h
  | .advance .. => s.pairOf k h
  | .compact => s.pairOf k h
  | _ => []

/-- An item applied whole. -/
def State.histItem (s : State) (k h : Nat) (i : HItem) : Except Nat (State × Outs) :=
  match i with
  | .cmd c => s.histCommand k h c
  | .advance fn f iter _ => .ok (s.takeAdvance k h fn f iter)
  | .compact => s.compactCmd k h (s.readerMeet k h)
  | .join _ iter _ =>
    let p := hdPartner (s.histWord k h)
    let f (n : Nat) : List Time := (s.hist k n).fns.getD (hdInfn (s.histWord k n)) []
    .ok (s, [(hdHp (s.histWord k h), frontToken (meetFronts [f h, f p]) iter)])
  | .eos => .ok (s, [])

/-- What stands between an item and its application. -/
def State.itemRoom (s : State) (k h : Nat) (i : HItem) (t : State) : Room :=
  let ts := s.touched k h i
  let keep (g : Nat) : List Nat := (ts.filter (fun q => q.1 = g)).map (·.2)
  match ts.find? (fun q => (aget (s.hist k q.1).spilled q.2).isSome) with
  | some q =>
    let b := hdB (s.histWord k q.1)
    if s.areaUse k q.1 + bucketBytes b q.2 (s.hist k q.1).entries ≤ (s.histArea k q.1).2 then .fits
    else if s.canSpill k q.1 (keep q.1) then .waits q.1 else .never
  | none => s.roomOf t k keep (s.changed k h i)

/-- A spilled bucket that the item touches. -/
def State.wantsFill (s : State) (k h : Nat) (i : HItem) : Option (Nat × Nat) := (s.touched k h i).find? (fun q => (aget (s.hist k q.1).spilled q.2).isSome)

/-! ## Output (R228) -/

/-- Output tokens leave while their edges have credit; they are discarded where the phase is being ended (R255). -/
def State.flushHist (s : State) (k h : Nat) : Nat → State
  | 0 => s
  | n + 1 =>
    match (s.hist k h).out with
    | [] => s
    | (p, t) :: r =>
      if (s.rc (s.leadOf k)).aborting then s.modHist k h (fun x => { x with out := [] })
      else if s.room k (36 + p) 0 0 = 0 then s
      else ((s.modHist k h (fun x => { x with out := r })).enter k (36 + p) 0 0 t).flushHist k h n

/-- Another history's output waits on a port. -/
def State.portBusy (s : State) (k h p : Nat) : Bool := (s.core k).hists.any (fun e => e.1 != h && e.2.out.any (fun o => o.1 == p))

/-- A history's item fails: it is taken from the command order and changes nothing else, the phase and the node end (R227). -/
def State.histFault (s : State) (k h : Nat) (i : HItem) (cause : Nat) : State :=
  let s := s.modHist k h (fun x => { x with queue := x.queue.drop 1 })
  match i with
  | .cmd c => s.engineFault k (c.agent % 64) 2 ⟨cause, 0, 0, false⟩ (tagWord c.iter c.frame c.ctx c.cls)
  | _ => s.engineFault k (s.hpLoc k h) 2 ⟨cause, 0, 0, false⟩ 0

/-- The history unit meets a cause in external memory: a translation cause holds it, any other ends the phase and the node (R335, R342). -/
def State.histExtern (s : State) (k h : Nat) (c : Nat × Nat) : State :=
  if holdsAccess c.1 then (s.postFault (externSev c.1) 2 k (s.hpLoc k h) c.1 c.2 0 0).modHist k h (fun x => { x with held := some c })
  else s.engineFault k (s.hpLoc k h) 2 ⟨c.1, c.2, 0, false⟩ 0

/-- A bucket's bytes as its blocks hold them: the first 64 KiB in the first, and so on; sealed as every storage tile is (R129, R350). -/
def State.writeBucket (s : State) (k h n : Nat) (blocks : List Nat) : State × Except (Nat × Nat) Unit :=
  let b := hdB (s.histWord k h)
  let bytes := entriesImage b 0 ((s.hist k h).entries.filter (fun e => bucketOf b e.key == n))
  (List.range blocks.length).foldl (fun (acc : State × Except (Nat × Nat) Unit) i =>
    match acc with
    | (t, .ok _) => t.writeVA k (t.partAt k) (blocks.getD i 0) ((bytes.drop (65536 * i)).take 65536)
    | e => e) (s, .ok ())

/-- Spilled buckets that an item wrote into are written back, with the further blocks that they need. -/
def State.respill (s : State) (k h : Nat) : State × Except (Nat × Nat) Unit :=
  (s.hist k h).spilled.foldl (fun (acc : State × Except (Nat × Nat) Unit) q =>
    match acc with
    | (t, .ok _) =>
      let more := t.freeBlocks (t.partAt k) (blocksFor (hdB (t.histWord k h)) q.1 (t.hist k h).entries - q.2.length)
      (t.modHist k h (fun x => { x with spilled := aset x.spilled q.1 (q.2 ++ more) })).writeBucket k h q.1 (q.2 ++ more)
    | e => e) (s, .ok ())

/-- The histories that an item has changed are written to their areas and spill blocks. -/
def State.writeBack (s : State) (k : Nat) (hs : List Nat) : State × Except (Nat × Nat) Unit :=
  hs.foldl (fun (acc : State × Except (Nat × Nat) Unit) h =>
    match acc with
    | (t, .ok _) => (t.writeArea k h).respill k h
    | e => e) (s, .ok ())

/-- The first item of a history is applied: its output waits for credit, the use of its buckets is noted. A port on which another history's output waits is
left to it. -/
def State.applyItem (s : State) (k h : Nat) (i : HItem) : State :=
  match s.histItem k h i with
  | .error c => s.histFault k h i c
  | .ok (t, outs) =>
    match s.itemRoom k h i t with
    | .never => s.histFault k h i 0x09E
    | .waits _ => s
    | .fits =>
      if (s.wantsFill k h i).isSome || outs.any (fun o => s.portBusy k h o.1) then s
      else
        match t.writeBack k (s.changed k h i) with
        | (u, .error c) => (s.keep u).histExtern k h c
        | (u, .ok _) =>
          let t1 := u.modHist k h (fun x => { x with queue := x.queue.drop 1, out := outs })
          let t2 := (s.touched k h i).foldl (fun t q => t.modHist k q.1 (fun x => { x with clock := x.clock + 1, used := aset x.used q.2 (x.clock + 1) })) t1
          t2.flushHist k h outs.length

/-- Whether a core's history unit works: it belongs to a region that does. -/
def State.histWorks (s : State) (k : Nat) : Bool := isKeyed k && (s.regionAt k).isSome && s.works k

/-- A turn of a history: output that still waits goes on, else the first item is applied where `p` names it. -/
def State.histTurn (s : State) (k h : Nat) (p : HItem → Bool) : State :=
  if !s.histWorks k then s
  else
    let x := s.hist k h
    if x.held.isSome then s
    else if !x.out.isEmpty then s.flushHist k h x.out.length
    else match x.queue with
    | [] => s
    | i :: _ => if p i then s.applyItem k h i else s

/-- The marker of a join needs both sides to have come to it (R131), and the cycle in which the register changed to be over, since a lower register that
changes in it goes first (R234). -/
def State.joinTurn (s : State) (k h : Nat) : State :=
  let p := hdPartner (s.histWord k h)
  match (s.hist k h).queue, (s.hist k p).queue with
  | .join fn i at' :: _, .join .. :: _ =>
    if !(s.hist k p).out.isEmpty ∨ at' = s.time then s
    else
      let a := min h p
      let t := s.applyItem k a (.join fn i at')
      if (t.hist k a).queue.length < (s.hist k a).queue.length then t.modHist k (max h p) (fun x => { x with queue := x.queue.drop 1 }) else s
  | _, _ => s

/-- An advance of a join side is taken once the cycle in which the register changed is over (R234). -/
def State.advanceDue (s : State) (k h : Nat) : HItem → Bool
  | .advance _ _ _ at' => at' != s.time || (match s.partnerOf k h with | some p => !(s.joinSide k h || s.joinSide k p) | none => true)
  | .compact => true
  | _ => false

/-! ## The events -/

/-- A memory cell of a lower handle holds a command for the same history that came in the same cycle: that one is taken first (R130). -/
def State.yieldsTo (s : State) (k l : Nat) (h : Held) : Bool :=
  (List.range (handleOf l)).any (fun m => match (s.cell k (cellOfHandle m)).held with
    | o :: _ => o.time == h.time && (match o.req, h.req with | .hist c, .hist d => c.hist == d.hist | _, _ => false)
    | [] => false)

/-- HISTORY_COMMAND_ACCEPT (R227, R130): the command at the head of a memory cell's port, at core and cell. -/
def State.acceptCommand (s : State) (k l : Nat) : State :=
  let c := s.cell k l
  match c.held with
  | [] => s
  | h :: _ =>
    if !isHist h.req || !c.ready? h || !s.works k || s.yieldsTo k l h then s
    else
      let pop (t : State) : State := t.modCell k l (fun c => { c with held := c.held.drop 1 })
      match s.takeOrd k l h.need with
      | (t, .error f) => (pop t).reqFault k l h f
      | (t, .ok _) => (pop (t.perform k l h).1).drain k l

/-- HISTORY_EOS_PASS (R291): history x of a core; the port emits one EOS once each of its histories that take changes has passed its own. -/
def State.passEos (s : State) (k h : Nat) : State :=
  let x := s.hist k h
  match x.queue with
  | .eos :: r =>
    if !s.histWorks k || !x.out.isEmpty then s
    else
      let hp := hdHp (s.histWord k h)
      let s1 := s.modHist k h (fun x => { x with queue := r, eos := true })
      let group := (List.range 16).filter (fun n => hdEn (s.histWord k n) && hdHp (s.histWord k n) == hp && s.takesChanges k n)
      if group.all (fun n => (s1.hist k n).eos) then
        if s.portBusy k h hp then s
        else
          let f := (group.foldl (fun t n => t.modHist k n (fun x => { x with eos := false })) s1).freeEos
          f.2.enter k (36 + hp) 0 0 f.1
      else s1
  | _ => s

/-- BUCKET_SPILL (R129, R336): the first item of history x waits for room. -/
def State.spillBucket (s : State) (k h : Nat) : State :=
  match (s.hist k h).queue with
  | [] => s
  | i :: _ =>
    if (s.hist k h).held.isSome then s else
    match s.histItem k h i with
    | .error _ => s
    | .ok (t, _) =>
      match s.itemRoom k h i t with
      | .waits g =>
        match s.spillNext k g (((s.touched k h i).filter (fun q => q.1 = g)).map (·.2)) with
        | some n =>
          let blocks := s.freeBlocks (s.partAt k) (blocksFor (hdB (s.histWord k g)) n (s.hist k g).entries)
          (match s.writeBucket k g n blocks with
           | (u, .error c) => (s.keep u).histExtern k h c
           | (t, .ok _) => (t.modHist k g (fun x => { x with spilled := aset x.spilled n blocks })).writeArea k g)
        | none => s
      | _ => s

/-- A bucket's blocks are read back, their seals verified (R354). -/
def State.readBucket (s : State) (k h n : Nat) : State × Except (Nat × Nat) Unit :=
  let len := bucketBytes (hdB (s.histWord k h)) n (s.hist k h).entries
  ((aget (s.hist k h).spilled n).getD []).zipIdx.foldl (fun (acc : State × Except (Nat × Nat) Unit) b =>
    match acc with
    | (t, .ok _) => let r := t.readVA k (t.partAt k) b.1 (min 65536 (len - 65536 * b.2)); (r.1, r.2.map (fun _ => ()))
    | e => e) (s, .ok ())

/-- BUCKET_FILL (R129): a bucket that the first item of history x touches comes back once it fits. -/
def State.fillBucket (s : State) (k h : Nat) : State :=
  match (s.hist k h).queue with
  | [] => s
  | i :: _ =>
    if (s.hist k h).held.isSome then s else
    match s.wantsFill k h i with
    | none => s
    | some q =>
      if s.areaUse k q.1 + bucketBytes (hdB (s.histWord k q.1)) q.2 (s.hist k q.1).entries ≤ (s.histArea k q.1).2 then
        match s.readBucket k q.1 q.2 with
        | (t, .error c) => t.histExtern k h c
        | (t, .ok _) => (t.modHist k q.1 (fun x => { x with spilled := adel x.spilled q.2 })).writeArea k q.1
      else s

/-- HISTORY_COMMAND_ACCEPT. -/
def execEvHistoryCommandAccept (st : State) : Out := .next (st.acceptCommand st.place.core st.place.cell)
/-- HISTORY_COMMAND_APPLY (R227): the next command of history x. -/
def execEvHistoryCommandApply (st : State) : Out :=
  .next (st.histTurn st.place.core st.place.x (fun i => match i with | .cmd _ => true | _ => false))
/-- HISTORY_FRONTIER_ADVANCE (R234): the next advance, join marker or autocompaction of history x. -/
def execEvHistoryFrontierAdvance (st : State) : Out := .next (
  match (st.hist st.place.core st.place.x).queue, (st.hist st.place.core st.place.x).out with
  | .join .. :: _, [] => if st.histWorks st.place.core then st.joinTurn st.place.core st.place.x else st
  | _, _ => st.histTurn st.place.core st.place.x (st.advanceDue st.place.core st.place.x))
/-- HISTORY_EOS_PASS. -/
def execEvHistoryEosPass (st : State) : Out := .next (st.passEos st.place.core st.place.x)
/-- BUCKET_SPILL. -/
def execEvBucketSpill (st : State) : Out := .next (st.spillBucket st.place.core st.place.x)
/-- BUCKET_FILL. -/
def execEvBucketFill (st : State) : Out := .next (st.fillBucket st.place.core st.place.x)

end Sys2Proof.Machine
end

