-- ==== Sys2Proof/Machine/Digest.lean ====
section
/-! DEFINITION. The digests that the spec names by their outside standards (log 10): SHA-384 (R155, R362, R363) and SHA3-256. -/

namespace Sys2Proof.Machine

/-! SHA-384 (FIPS 180-4). -/

/-- Round constants: the first 64 fraction bits of the cube roots of the first 80 primes. -/
def sha512K : List W64 :=
  [0x428a2f98d728ae22, 0x7137449123ef65cd, 0xb5c0fbcfec4d3b2f, 0xe9b5dba58189dbbc, 0x3956c25bf348b538, 0x59f111f1b605d019, 0x923f82a4af194f9b, 0xab1c5ed5da6d8118] ++
  [0xd807aa98a3030242, 0x12835b0145706fbe, 0x243185be4ee4b28c, 0x550c7dc3d5ffb4e2, 0x72be5d74f27b896f, 0x80deb1fe3b1696b1, 0x9bdc06a725c71235, 0xc19bf174cf692694] ++
  [0xe49b69c19ef14ad2, 0xefbe4786384f25e3, 0xfc19dc68b8cd5b5, 0x240ca1cc77ac9c65, 0x2de92c6f592b0275, 0x4a7484aa6ea6e483, 0x5cb0a9dcbd41fbd4, 0x76f988da831153b5] ++
  [0x983e5152ee66dfab, 0xa831c66d2db43210, 0xb00327c898fb213f, 0xbf597fc7beef0ee4, 0xc6e00bf33da88fc2, 0xd5a79147930aa725, 0x6ca6351e003826f, 0x142929670a0e6e70] ++
  [0x27b70a8546d22ffc, 0x2e1b21385c26c926, 0x4d2c6dfc5ac42aed, 0x53380d139d95b3df, 0x650a73548baf63de, 0x766a0abb3c77b2a8, 0x81c2c92e47edaee6, 0x92722c851482353b] ++
  [0xa2bfe8a14cf10364, 0xa81a664bbc423001, 0xc24b8b70d0f89791, 0xc76c51a30654be30, 0xd192e819d6ef5218, 0xd69906245565a910, 0xf40e35855771202a, 0x106aa07032bbd1b8] ++
  [0x19a4c116b8d2d0c8, 0x1e376c085141ab53, 0x2748774cdf8eeb99, 0x34b0bcb5e19b48a8, 0x391c0cb3c5c95a63, 0x4ed8aa4ae3418acb, 0x5b9cca4f7763e373, 0x682e6ff3d6b2b8a3] ++
  [0x748f82ee5defb2fc, 0x78a5636f43172f60, 0x84c87814a1f0ab72, 0x8cc702081a6439ec, 0x90befffa23631e28, 0xa4506cebde82bde9, 0xbef9a3f7b2c67915, 0xc67178f2e372532b] ++
  [0xca273eceea26619c, 0xd186b8c721c0c207, 0xeada7dd6cde0eb1e, 0xf57d4f7fee6ed178, 0x6f067aa72176fba, 0xa637dc5a2c898a6, 0x113f9804bef90dae, 0x1b710b35131c471b] ++
  [0x28db77f523047d84, 0x32caab7b40c72493, 0x3c9ebe0a15c9bebc, 0x431d67c49c100d4c, 0x4cc5d4becb3e42b6, 0x597f299cfc657e2a, 0x5fcb6fab3ad6faec, 0x6c44198c4a475817]

/-- Starting value of SHA-384: those of the square roots of the 9th to 16th primes. -/
def sha384Init : List W64 :=
  [0xcbbb9d5dc1059ed8, 0x629a292a367cd507, 0x9159015a3070dd17, 0x152fecd8f70e5939, 0x67332667ffc00b31, 0x8eb44a8768581511, 0xdb0c2e0d64f98fa7, 0x47b5481dbefa4fa4]

def ror64 (x : W64) (n : Nat) : W64 := x.rotateRight n

/-- n bytes of v, most significant first. -/
def beBytes (n v : Nat) : List Byte := (leBE n v).reverse
where leBE : Nat → Nat → List Byte
  | 0, _ => []
  | n + 1, v => BitVec.ofNat 8 v :: leBE n (v / 256)

/-- The number that bytes hold, most significant first. -/
def beNat (bs : List Byte) : Nat := bs.foldl (fun a b => a * 256 + b.toNat) 0

/-- Consecutive runs of n elements, at most fuel of them. -/
def chunksOf {α : Type} (n : Nat) : Nat → List α → List (List α)
  | 0, _ => []
  | _, [] => []
  | fuel + 1, xs => xs.take n :: chunksOf n fuel (xs.drop n)

/-- A message padded to whole blocks: one bit, zeros, the length in bits. -/
def shaPad (m : List Byte) : List Byte :=
  m ++ [0x80] ++ List.replicate ((239 - m.length % 128) % 128) 0 ++ beBytes 16 (8 * m.length)

/-- One word of the message schedule from the 16 before it (oldest first). -/
def shaNext (w : List W64) : W64 :=
  let s0 := w.getD 1 0; let s1 := w.getD 14 0
  w.getD 0 0 + (ror64 s0 1 ^^^ ror64 s0 8 ^^^ (s0 >>> 7)) + w.getD 9 0 + (ror64 s1 19 ^^^ ror64 s1 61 ^^^ (s1 >>> 6))

/-- One round on the eight working words. -/
def shaRound (k w : W64) : List W64 → List W64
  | [a, b, c, d, e, f, g, h] =>
    let t1 := h + (ror64 e 14 ^^^ ror64 e 18 ^^^ ror64 e 41) + ((e &&& f) ^^^ (~~~e &&& g)) + k + w
    let t2 := (ror64 a 28 ^^^ ror64 a 34 ^^^ ror64 a 39) + ((a &&& b) ^^^ (a &&& c) ^^^ (b &&& c))
    [t1 + t2, a, b, c, d + t1, e, f, g]
  | v => v

/-- The rounds that are left, on the running 16 words of the schedule. -/
def shaRounds : List W64 → List W64 → List W64 → List W64
  | [], _, v => v
  | k :: ks, w, v => shaRounds ks (w.drop 1 ++ [shaNext w]) (shaRound k (w.getD 0 0) v)

def shaBlock (h : List W64) (b : List Byte) : List W64 :=
  List.zipWith (· + ·) h (shaRounds sha512K ((chunksOf 8 16 b).map (fun c => BitVec.ofNat 64 (beNat c))) h)

/-- SHA-384 of a message, 48 bytes. -/
def sha384 (m : List Byte) : List Byte :=
  (((chunksOf 128 (m.length / 128 + 2) (shaPad m)).foldl shaBlock sha384Init).take 6).flatMap (fun w => beBytes 8 w.toNat)

/-! SHA3-256 (FIPS 202). -/

/-- Rotation offsets of lane x + 5·y. -/
def keccakRot : List Nat :=
  [0, 1, 62, 28, 27, 36, 44, 6, 55, 20, 3, 10, 43, 25, 39, 41, 45, 15, 21, 8, 18, 2, 61, 56, 14]

/-- Round constants. -/
def keccakRC : List W64 :=
  [0x1, 0x8082, 0x800000000000808a, 0x8000000080008000, 0x808b, 0x80000001, 0x8000000080008081, 0x8000000000008009] ++
  [0x8a, 0x88, 0x80008009, 0x8000000a, 0x8000808b, 0x800000000000008b, 0x8000000000008089, 0x8000000000008003] ++
  [0x8000000000008002, 0x8000000000000080, 0x800a, 0x800000008000000a, 0x8000000080008081, 0x8000000000008080, 0x80000001, 0x8000000080008008]

/-- One round of the permutation on 25 lanes, lane x + 5·y. -/
def keccakRound (s : List W64) (rc : W64) : List W64 :=
  let at' (l : List W64) (x y : Nat) := l.getD (x % 5 + 5 * (y % 5)) 0
  let c := (List.range 5).map (fun x => at' s x 0 ^^^ at' s x 1 ^^^ at' s x 2 ^^^ at' s x 3 ^^^ at' s x 4)
  let d := (List.range 5).map (fun x => c.getD ((x + 4) % 5) 0 ^^^ (c.getD ((x + 1) % 5) 0).rotateLeft 1)
  let t := (List.range 25).map (fun i => s.getD i 0 ^^^ d.getD (i % 5) 0)
  let r := (List.range 25).map (fun i => (t.getD i 0).rotateLeft (keccakRot.getD i 0))
  -- lane (x, y) of the moved state comes from lane (x + 3·y, x)
  let b := (List.range 25).map (fun i => at' r (i % 5 + 3 * (i / 5)) (i % 5))
  let e := (List.range 25).map (fun i => at' b (i % 5) (i / 5) ^^^ (~~~(at' b (i % 5 + 1) (i / 5)) &&& at' b (i % 5 + 2) (i / 5)))
  match e with
  | l :: ls => (l ^^^ rc) :: ls
  | [] => []

def keccak (s : List W64) : List W64 := keccakRC.foldl keccakRound s

/-- A message padded for SHA3-256: blocks of 136 bytes. -/
def sha3Pad (m : List Byte) : List Byte :=
  let q := 136 - m.length % 136
  if q = 1 then m ++ [0x86] else m ++ [0x06] ++ List.replicate (q - 2) 0 ++ [0x80]

def absorb (s : List W64) (b : List Byte) : List W64 :=
  let ws := (chunksOf 8 17 b).map (fun c => BitVec.ofNat 64 (beNat c.reverse))
  keccak ((List.range 25).map (fun i => s.getD i 0 ^^^ ws.getD i 0))

/-- SHA3-256 of a message, 32 bytes. -/
def sha3 (m : List Byte) : List Byte :=
  (((chunksOf 136 (m.length / 136 + 2) (sha3Pad m)).foldl absorb (List.replicate 25 0)).take 4).flatMap (fun w => (beBytes 8 w.toNat).reverse)

end Sys2Proof.Machine
end

