-- ==== Sys2Proof/Machine/Matrix.lean ====
section
/-! DEFINITION. The matrix engine: instances and their order, passes of the multiplying and accumulator instructions, draining, EOS (R55, R200 to R215). -/

namespace Sys2Proof.Machine

/-! ## Slots and what they read -/

/-- What an instruction takes in one pass at ports A and B, its passes, and the formats that it expects (R201, R202, R207, R209). -/
structure MUse where
  a      : Nat
  b      : Nat
  passes : Nat
  af     : Option Fmt := none
  bf     : Option Fmt := none

/-- Tokens of a row or column in one block: two for an MX format, one for BF16 and FP16. -/
def blockToks (f : Fmt) : Nat := if isMX f then 2 else 1
/-- Blocks in a k-step: two for E2M1. -/
def stepBlocks (f : Fmt) : Nat := if f = .e2m1 then 2 else 1
/-- KS of R207. -/
def kSteps (kt : Nat) (f : Fmt) : Nat := if f = .e2m1 then (kt + 1) / 2 else if isMX f then kt + 1 else 2 * (kt + 1)

/-- A multiplying instruction over p rows of A. -/
def mulUse (t : Bool) (p nt kt a b : Nat) : MUse :=
  let f := fmtOf a
  ⟨stepBlocks f * p * blockToks f, if t then 16 * (nt + 1) else stepBlocks f * (16 * (nt + 1)) * blockToks f, kSteps kt f, some f, some (fmtOf b)⟩

/-- `p` is the number of rows that an MMAG selects. -/
def matUse (p : Nat) : Instr → MUse
  | .mma mt nt kt _ a b _ => mulUse false (16 * (mt + 1)) nt kt a b
  | .mmaz mt nt kt _ a b _ => mulUse false (16 * (mt + 1)) nt kt a b
  | .mmat mt nt kt _ a b _ => mulUse true (16 * (mt + 1)) nt kt a b
  | .mmag _ nt kt _ a b _ => mulUse false p nt kt a b
  | .accwr mt nt _ _ _ => ⟨1, 0, 16 * (mt + 1) * (nt + 1), some .fp32, none⟩
  | .accax _ nt _ _ _ _ _ => ⟨1, nt + 1, 1, some .fp32, some .fp32⟩
  | _ => ⟨1, 0, 1, none, none⟩

def matTrig : Instr → Option Nat
  | .mma _ _ _ _ _ _ t => some t
  | .mmaz _ _ _ _ _ _ t => some t
  | .mmat _ _ _ _ _ _ t => some t
  | .mmag _ _ _ _ _ _ t => some t
  | .accz _ _ _ t => some t
  | .accrd _ _ _ _ t _ _ _ => some t
  | .accwr _ _ _ _ t => some t
  | .accax _ _ _ _ _ _ t => some t
  | _ => none

def isMmag : Instr → Bool
  | .mmag .. => true
  | _ => false

/-- M of an instruction with tiles. -/
def matRows : Instr → Nat
  | .mmag mt _ _ _ _ _ _ => 16 * (mt + 1)
  | _ => 0

def State.slotWord (s : State) (k x i : Nat) : Nat := Memory.readNat s.mem (matBase k + (x * 16 + i) * 8) 8
def State.slotInstr (s : State) (k x i : Nat) : Option Instr :=
  match decodeMatrix (s.slotWord k x i) with
  | .ok j => some j
  | .error _ => none

/-- The slot of a context whose trig is a class (R203). -/
def State.slotAt (s : State) (k x cls : Nat) : Option (Nat × Instr) :=
  (List.range 16).findSome? (fun i => match s.slotInstr k x i with
    | some j => if matTrig j = some cls then some (i, j) else none
    | none => none)

def State.matrix (s : State) (k : Nat) : Matrix := (s.core k).matrix
def State.modMatrix (s : State) (k : Nat) (f : Matrix → Matrix) : State := s.modCore k (fun c => { c with matrix := f c.matrix })

/-! ## Operands at the ports -/

/-- The tag and class that the tokens of an instance carry: cfg, frame, iter, class. -/
abbrev MTag := Nat × Nat × W16 × Nat
def tokTag (t : Token) : MTag := (t.cfg, t.frame, t.iter, t.cls)
def MInst.tag (m : MInst) : MTag := (m.ctx, m.frame, m.iter, m.cls)
def MTag.word (t : MTag) : Nat := tagWord t.2.2.1 t.2.1 t.1 t.2.2.2

/-- Whether the first n tokens of a port are there with a tag and a format; or the cause: another tag (R204), another format (R202), an EOS while the
instance runs (R205). -/
def operandsAt (running : Bool) (tag : MTag) (f : Option Fmt) : Nat → List PortTok → Except Nat Bool
  | 0, _ => .ok true
  | _ + 1, [] => .ok false
  | n + 1, t :: r =>
    match t.tok.kind with
    | .data =>
      if tokTag t.tok ≠ tag then .error 0x08D
      else if (match f with | some g => g != t.tok.reg.fmt | none => false) then .error 0x08B
      else operandsAt running tag f n r
    | .eos => if running then .error 0x08D else .ok false
    | _ => .ok false

def Matrix.fifo (m : Matrix) (p : Nat) : List PortTok := (m.ports.getD p {}).fifo
def Matrix.drop (m : Matrix) (p n : Nat) : Matrix := { m with ports := m.ports.modify p (fun q => { q with fifo := q.fifo.drop n }) }

/-- Local id of an input port. -/
def matLoc (p : Nat) : Nat := if p = 2 then 35 else 32 + p

/-- A cause of the engine ends its instance, and the phase terminates (R204, R215). -/
def State.matFault (s : State) (k cause loc : Nat) (tag : MTag) : State :=
  (s.modMatrix k (fun m => { m with run := none })).engineFault k loc 2 ⟨cause, 0, 0, false⟩ tag.word

/-! ## Starting an instance (R203, R204, R208) -/

/-- The rows that a mask token selects. -/
def maskRows (r : Reg) (m : Nat) : List Nat := (List.range m).filter (fun i => okAt r (i / 32) && bit (laneOf r (i / 32)) (i % 32))
def maskBeyond (r : Reg) (m : Nat) : Bool := (List.range 512).any (fun i => decide (m ≤ i) && okAt r (i / 32) && bit (laneOf r (i / 32)) (i % 32))

/-- A tile is poisoned: its origin is set only while P is clear (R211). -/
def Tile.poison (t : Tile) (origin : Nat) : Tile := if t.p then t else { t with p := true, origin := origin }

def Matrix.tile (m : Matrix) (t : Nat) : Tile := (aget m.tiles t).getD {}
def Matrix.modTile (m : Matrix) (t : Nat) (f : Tile → Tile) : Matrix := { m with tiles := aset m.tiles t (f (m.tile t)) }

/-- The tiles of an instruction in order (R206). -/
def tileList (mt nt acc : Nat) : List Nat := (List.range ((mt + 1) * (nt + 1))).map (acc + ·)

/-- The instance that comes next: that of the token at the head of port A, or that of a mask token which selects no row and came first. -/
def State.nextInstance (s : State) (k : Nat) : Option (Token × Bool) :=
  let m := s.matrix k
  let byMask : Option PortTok := match m.fifo 2 with
    | t :: _ =>
      match s.slotAt k t.tok.cfg t.tok.cls with
      | some (_, i) => if t.tok.kind = .data ∧ isMmag i ∧ t.tok.reg.fmt = .n32 ∧ maskRows t.tok.reg (matRows i) = [] then some t else none
      | none => none
    | [] => none
  match m.fifo 0, byMask with
  | a :: _, some t => if t.arr < a.arr then some (t.tok, true) else if a.tok.kind = .data then some (a.tok, false) else none
  | a :: _, none => if a.tok.kind = .data then some (a.tok, false) else none
  | [], some t => some (t.tok, true)
  | [], none => none

/-- The engine takes up instances: its region works and its phase is not being ended (R214, R255), and no marker of a pre-emption has gone by (R214). -/
def State.engineOpen (s : State) (k : Nat) : Bool :=
  s.works k && (s.regionAt k).isSome && !(s.rc (s.leadOf k)).aborting && !(s.matrix k).passed

/-- An instance starts once its first operands are there (R204), or one of the causes of R203, R204, R208. A head at port B with another tag raises its cause
whatever the mask port holds. -/
def State.startInstance (s : State) (k : Nat) : State :=
  let m := s.matrix k
  if m.run.isSome || !s.engineOpen k then s
  else match s.nextInstance k with
  | none => s
  | some (t, byMask) =>
    let tag := tokTag t
    match s.slotAt k t.cfg t.cls with
    | none => (s.modMatrix k (fun m => m.drop 0 1)).matFault k 0x088 32 tag
    | some (i, ins) =>
      let start (u : MUse) (mask : List Nat) (s : State) : State :=
        let m := s.matrix k
        if !m.admitted then s.modMatrix k (fun m => { m with waiting := true })
        else match (if byMask then .ok true else operandsAt false tag u.af u.a (m.fifo 0)), (if u.b = 0 then .ok true else operandsAt false tag u.bf u.b (m.fifo 1)) with
        | .error c, _ => s.matFault k c 32 tag
        | _, .error c => s.matFault k c 33 tag
        | .ok true, .ok true => s.modMatrix k (fun m => { m with run := some { ctx := t.cfg, slot := i, frame := t.frame, iter := t.iter, cls := t.cls, mask := mask } })
        | _, _ => s
      if !isMmag ins then start (matUse 0 ins) [] s
      else match operandsAt false tag (matUse 0 ins).bf (matUse 0 ins).b (m.fifo 1), m.fifo 2 with
      | .error c, _ => s.matFault k c 33 tag
      | _, [] => s
      | _, q :: _ =>
        if q.tok.kind ≠ .data then s
        else if tokTag q.tok ≠ tag then s.matFault k 0x08D 35 tag
        else if q.tok.reg.fmt ≠ .n32 then s.matFault k 0x08B 35 tag
        else if maskBeyond q.tok.reg (matRows ins) then s.matFault k 0x089 35 tag
        else
          let rows := maskRows q.tok.reg (matRows ins)
          let t := start (matUse rows.length ins) rows s
          if (t.matrix k).run.isSome then
            t.modMatrix k (fun m =>
              let m1 := m.drop 2 1
              match ins with
              | .mmag mt nt _ acc _ _ _ => if q.tok.reg.p then (tileList mt nt acc).foldl (fun m n => m.modTile n (·.poison q.tok.reg.origin)) m1 else m1
              | _ => m1)
          else t

/-! ## Arithmetic of a step (R55, R207) -/

/-- An exact sum as it grows: an integer times a power of two, with what special values it has met. -/
structure Dot where
  any  : Bool := false
  nan  : Bool := false
  inv  : Bool := false
  pinf : Bool := false
  ninf : Bool := false
  m    : Int := 0
  e    : Int := 0

def Dot.add (d : Dot) (x y : Val) : Dot :=
  match mulVal x y with
  | (.nan, inv) => { d with any := true, nan := true, inv := d.inv || inv }
  | (.inf n, _) => if n then { d with any := true, ninf := true } else { d with any := true, pinf := true }
  | (.fin n m e, _) =>
    let v : Int := if n then -(m : Int) else m
    if m = 0 then { d with any := true }
    else if d.m = 0 then { d with any := true, m := v, e := e }
    else
      let q := min d.e e
      { d with any := true, m := d.m * (2 ^ (d.e - q).toNat : Nat) + v * (2 ^ (e - q).toNat : Nat), e := q }

/-- The block's sum under the scales; none is NaN. The flag marks a poison trigger. An exact sum of zero is +0: DESIGN CHOICE, R55 gives the real-valued sum no
sign (log 95). -/
def Dot.value (d : Dot) (xa xb : Nat) (mx : Bool) : Val × Bool :=
  if mx ∧ (xa = 255 ∨ xb = 255) then (.nan, true)
  else if d.nan then (.nan, d.inv)
  else if d.pinf && d.ninf then (.nan, true)
  else if d.pinf then (.inf false, false)
  else if d.ninf then (.inf true, false)
  else (.fin (decide (d.m < 0)) d.m.natAbs (d.e + (if mx then (xa : Int) + xb - 254 else 0)), false)

/-- An element of a token: none when absent; without its scale. -/
def elemOfTok (t : Option Token) (i : Nat) : Option Val :=
  match t with
  | none => none
  | some t => if okAt t.reg i then elemVal t.reg.fmt 127 (elemOf t.reg i) else none

def tokScale (t : Option Token) : Nat := match t with | some t => t.reg.xs | none => 127

/-- c + s rounded into FP32 (R55): the bits, and whether a poison trigger arose. -/
def accumulate (c : W32) (s : Val × Bool) : W32 × Bool :=
  let r := roundEx .fp32 0 0 false false (addEx 0 (decodeF ⟨8, 23, 127, .ieee⟩ c.toNat) s.1)
  (BitVec.ofNat 32 r.1, s.2 || r.2)

/-- The tokens of one k-step as its operands: `a i β t` is token t of block β of row i, `b j β t` that of column j; `bk` says that B's tokens hold rows of
B (MMAT): then `b u 0 k` is the token of columns 16u to 16u + 15 at k. -/
structure MOps where
  a      : Nat → Nat → Nat → Option Token
  b      : Nat → Nat → Nat → Option Token
  bk     : Bool
  blocks : Nat
  toks   : Nat
  mx     : Bool

/-- One element's block sum. -/
def MOps.dot (o : MOps) (i j β : Nat) : Dot :=
  (List.range (16 * o.toks)).foldl (fun d k =>
    match elemOfTok (o.a i β (k / 16)) (k % 16), (if o.bk then elemOfTok (o.b (j / 16) 0 k) (j % 16) else elemOfTok (o.b j β (k / 16)) (k % 16)) with
    | some x, some y => d.add x y
    | _, _ => d) {}

/-- One element of a tile over the blocks of a k-step. -/
def MOps.element (o : MOps) (i j : Nat) (c : W32) : W32 × Bool :=
  (List.range o.blocks).foldl (fun acc β =>
    let d := o.dot i j β
    if !d.any then acc
    else
      let r := accumulate acc.1 (d.value (tokScale (o.a i β 0)) (tokScale (o.b j β 0)) o.mx)
      (r.1, acc.2 || r.2)) (c, false)

/-- The tokens that a step uses, A before B (R211). -/
def MOps.used (o : MOps) (ti tj : Nat) : List Token :=
  let toks (l : List (Option Token)) : List Token := l.filterMap id
  (List.range o.blocks).flatMap (fun β => toks ((List.range 16).flatMap (fun r => (List.range o.toks).map (fun t => o.a (16 * ti + r) β t))))
    ++ (if o.bk then toks ((List.range 16).map (fun k => o.b tj 0 k))
        else (List.range o.blocks).flatMap (fun β => toks ((List.range 16).flatMap (fun c => (List.range o.toks).map (fun t => o.b (16 * tj + c) β t)))))

/-- A step on one tile (R207, R211). -/
def MOps.step (o : MOps) (agent ti tj : Nat) (t : Tile) : Tile :=
  let res := (List.range 256).map (fun n => o.element (16 * ti + n / 16) (16 * tj + n % 16) (t.data.getD n 0))
  let t1 := { t with data := res.map (·.1) }
  match (o.used ti tj).find? (fun q => q.reg.p) with
  | some q => t1.poison q.reg.origin
  | none => if res.any (·.2) then t1.poison agent else t1

/-- The operands of a k-step from the tokens taken. `rows` are the rows that A carries. -/
def mopsOf (f : Fmt) (t : Bool) (nt : Nat) (rows : List Nat) (as bs : List Token) : MOps where
  a i β n := if rows.contains i then as[β * rows.length * blockToks f + rows.idxOf i * blockToks f + n]? else none
  b j β n := if t then bs[n * (nt + 1) + j]? else bs[β * (16 * (nt + 1)) * blockToks f + j * blockToks f + n]?
  bk := t
  blocks := stepBlocks f
  toks := blockToks f
  mx := isMX f

/-! ## Passes -/

/-- A pass takes the operands of an instance's next k-step when they are there, and works on the tiles; the last pass ends the instance. An idle engine waits
for the ramp (R382). -/
def State.pass (s : State) (k : Nat) (ins : Instr) (f : MInst → List Token → List Token → Matrix → Matrix) : State :=
  let m := s.matrix k
  match m.run with
  | none => s
  | some r =>
    if !m.admitted then s.modMatrix k (fun m => { m with waiting := true })
    else
    let u := matUse r.mask.length ins
    match operandsAt true r.tag u.af u.a (m.fifo 0), (if u.b = 0 then .ok true else operandsAt true r.tag u.bf u.b (m.fifo 1)) with
    | .error c, _ => s.matFault k c 32 r.tag
    | _, .error c => s.matFault k c 33 r.tag
    | .ok true, .ok true =>
      let toks (p n : Nat) : List Token := ((m.fifo p).take n).map (·.tok)
      let m1 := f r (toks 0 u.a) (toks 1 u.b) ((m.drop 0 u.a).drop 1 u.b)
      s.modMatrix k (fun _ => { m1 with run := if r.kstep + 1 < u.passes then some { r with kstep := r.kstep + 1 } else none, lastStep := s.time })
    | _, _ => s

/-- One pass of a multiplying instruction (R207). -/
def mulPass (agent : Nat) (z t : Bool) (mt nt acc a : Nat) (rows : MInst → List Nat) (r : MInst) (as bs : List Token) (m : Matrix) : Matrix :=
  let o := mopsOf (fmtOf a) t nt (rows r) as bs
  (List.range ((mt + 1) * (nt + 1))).foldl (fun m n =>
    m.modTile (acc + n) (fun c => o.step agent (n / (nt + 1)) (n % (nt + 1)) (if z && r.kstep == 0 then {} else c))) m

def allRows (mt : Nat) (_ : MInst) : List Nat := List.range (16 * (mt + 1))

def State.multiply (s : State) (k : Nat) (ins : Instr) (z t : Bool) (mt nt acc a : Nat) (rows : MInst → List Nat) : State :=
  s.pass k ins (mulPass (agentId k 32) z t mt nt acc a rows)

/-- ACCZ (R209). -/
def zeroPass (mt nt acc : Nat) (_ : MInst) (as _ : List Token) (m : Matrix) : Matrix :=
  let t : Tile := match as with
    | q :: _ => { p := q.reg.p, origin := if q.reg.p then q.reg.origin else 0 }
    | [] => {}
  (tileList mt nt acc).foldl (fun m n => m.modTile n (fun _ => t)) m

/-- An FP32 lane as ACCWR takes it: canonical NaN, +0 for an invalid lane. -/
def fp32Lane (r : Reg) (i : Nat) : W32 :=
  if !okAt r i then 0 else if isNan (decodeF ⟨8, 23, 127, .ieee⟩ (laneOf r i)) then BitVec.ofNat 32 (canonNaN .fp32) else BitVec.ofNat 32 (laneOf r i)

/-- ACCWR (R209): one token in drain order; P is the OR over the tile's tokens, whatever it was before. R211 names MMAZ and ACCZ alone as writing P: the row of
R209 is followed (log 104). -/
def writePass (nt acc : Nat) (r : MInst) (as _ : List Token) (m : Matrix) : Matrix :=
  let i := r.kstep / (nt + 1)
  let n := acc + i / 16 * (nt + 1) + r.kstep % (nt + 1)
  match as with
  | [] => m
  | q :: _ => m.modTile n (fun t =>
    let t0 := if i % 16 = 0 then { t with p := false, origin := 0 } else t
    let t1 := { t0 with data := (List.range 256).map (fun c => if c / 16 = i % 16 then fp32Lane q.reg (c % 16) else t0.data.getD c 0) }
    if q.reg.p then t1.poison q.reg.origin else t1)

/-- One tile of ACCAX: α of the token q times the element plus the bias of its column, with one rounding. -/
def axTile (agent rm : Nat) (draw : Nat → Nat) (q : Token) (bias : Option Token) (n : Nat) (t : Tile) : Tile :=
  let v (w : Nat) : Val := decodeF ⟨8, 23, 127, .ieee⟩ w
  let res := (List.range 256).map (fun c =>
    let x := v (t.data.getD c 0).toNat
    let e : Ex := match bias with
      | some b => if okAt b.reg (c % 16) then fmaEx rm false (v (laneOf q.reg 0)) x (v (laneOf b.reg (c % 16))) else mulEx (v (laneOf q.reg 0)) x
      | none => mulEx (v (laneOf q.reg 0)) x
    roundEx .fp32 rm (draw (n * 256 + c)) false false e)
  let t1 := { t with data := res.map (fun r => BitVec.ofNat 32 r.1) }
  match (q :: bias.toList).find? (fun w => w.reg.p) with
  | some w => t1.poison w.reg.origin
  | none => if res.any (·.2) then t1.poison agent else t1

/-- ACCAX (R209): α·C + bias with one rounding; `draw` serves SR. -/
def axPass (agent mt nt acc rm : Nat) (draw : Nat → Nat) (_ : MInst) (as bs : List Token) (m : Matrix) : Matrix :=
  match as with
  | [] => m
  | q :: _ =>
    if !okAt q.reg 0 then m
    else (List.range ((mt + 1) * (nt + 1))).foldl (fun m n => m.modTile (acc + n) (axTile agent rm draw q bs[n % (nt + 1)]? n)) m

/-- n free draws (the engine has no generator of its own: log 18). -/
def State.freeDraws (s : State) (n : Nat) : (Nat → Nat) × State := (fun i => Config.freeNat (s.freeNo + i) % 2 ^ 32, { s with freeNo := s.freeNo + n })

/-! ## Draining (R210) -/

/-- Result token n of a drain: row i, column block tj. -/
def drainToken (agent nt acc rm sat q o : Nat) (draw : Nat → Nat) (m : Matrix) (trig : Token) (n : Nat) : Token :=
  let i := n / (nt + 1)
  let tj := n % (nt + 1)
  let f := fmtOf o
  let tile (c : Nat) : Tile := m.tile (acc + i / 16 * (nt + 1) + c)
  let word (c l : Nat) : Nat := ((tile c).data.getD (16 * (i % 16) + l) 0).toNat
  let ts : List Tile := if q = 1 then [tile (tj / 2 * 2), tile (tj / 2 * 2 + 1)] else [tile tj]
  let ps : List (Bool × Nat) := ts.map (fun t => (t.p, t.origin)) ++ [(trig.reg.p, trig.reg.origin)]
  let fin (xs : Nat) (res : List (Nat × Bool)) (exc : Bool) : Token :=
    let mk := match ps.find? (·.1) with
      | some w => w
      | none => if exc then (true, agent) else (false, 0)
    dataToken (mkReg f xs mk.1 mk.2 (fun l => (res[l]?).map (·.1))) trig.cls trig.frame trig.iter
  if q = 1 then
    let block (c : Nat) : List (Nat × Nat) := (List.range 16).map (fun l => (c, l))
    let all := block (tj / 2 * 2) ++ block (tj / 2 * 2 + 1)
    match blockScale f (all.map (fun w => elemVal .fp32 0 (word w.1 w.2))) with
    | none => fin 255 (List.replicate 16 (0, false)) true
    | some xs =>
      let conv (c l : Nat) : Nat × Bool := convert .fp32 0 (word c l) f xs rm (draw (i * 16 * (nt + 1) + 16 * c + l)) true
      fin xs ((List.range 16).map (conv tj)) (all.any (fun w => (conv w.1 w.2).2))
  else
    let res := (List.range 16).map (fun l => convert .fp32 0 (word tj l) f (constXsM f) rm (draw (i * 16 * (nt + 1) + 16 * tj + l)) (sat == 1))
    fin (constXsM f) res (res.any (·.2))
where
  constXsM (f : Fmt) : Nat := if isMX f then 127 else 0

/-- A drain sends the tokens that its edge has credit for; after the last it takes its trigger and ends. -/
def State.drainTiles (s : State) (k : Nat) (sr : Bool) (token : (Nat → Nat) → Matrix → Token → Nat → Token) (total : Nat) : State :=
  let m := s.matrix k
  match m.run, m.fifo 0 with
  | some r, q :: _ =>
    if !m.admitted then s.modMatrix k (fun m => { m with waiting := true })
    else if q.tok.kind ≠ .data ∨ tokTag q.tok ≠ r.tag then s.matFault k 0x08D 32 r.tag
    else
      let n := min (s.room k 34 0 0) (total - r.sent)
      let d := s.freeDraws (if sr then 16384 else 0)
      let s1 := (List.range n).foldl (fun t i => t.enter k 34 0 0 (token d.1 m q.tok (r.sent + i))) d.2
      s1.modMatrix k (fun m =>
        if r.sent + n < total then { m with run := some { r with sent := r.sent + n } }
        else { m.drop 0 1 with run := none, lastStep := s.time })
  | _, _ => s

/-- The running instance's next k-step is not there in full: the engine stands at the end of a pass (R214). -/
def State.passEnded (s : State) (k : Nat) : Bool :=
  let m := s.matrix k
  match m.run with
  | none => true
  | some r =>
    match s.slotInstr k r.ctx r.slot with
    | none => true
    | some i =>
      let u := matUse r.mask.length i
      match operandsAt true r.tag u.af u.a (m.fifo 0), (if u.b = 0 then .ok true else operandsAt true r.tag u.bf u.b (m.fifo 1)) with
      | .ok true, .ok true => false
      | _, _ => true

/-- The running instance is a drain that has no credit to go on. -/
def State.drainStuck (s : State) (k : Nat) : Bool :=
  match (s.matrix k).run with
  | some r => (match s.slotInstr k r.ctx r.slot with | some (.accrd ..) => s.room k 34 0 0 == 0 | _ => false)
  | none => false

/-! ## EOS (R205) -/

/-- Whether the running instance still expects tokens at a port. -/
def State.expectsAt (s : State) (k p : Nat) : Bool :=
  match (s.matrix k).run with
  | none => false
  | some r =>
    match s.slotInstr k r.ctx r.slot with
    | some i => let u := matUse r.mask.length i; if p = 0 then u.a != 0 else if p = 1 then u.b != 0 else false
    | none => false

/-- The EOS at the head of a port is taken; once every enabled fwd port has its EOS and no instance runs, one EOS leaves on the result
route, where it is enabled. -/
def State.matrixEos (s : State) (k p : Nat) : State :=
  let m := s.matrix k
  let word (p : Nat) : Nat := s.portWord k 32 0 p
  let taken : State :=
    match m.fifo p with
    | t :: _ =>
      if t.tok.kind ≠ .eos then s
      else if s.expectsAt k p then s.matFault k 0x08D (matLoc p) (tokTag t.tok)
      else s.modMatrix k (fun m =>
        let m1 := m.drop p 1
        if pwEos (word p) = 0 then
          { m1 with ports := m1.ports.modify p (fun q => { q with eosN := q.eosN + 1, eos := decide (pwEosn (word p) ≤ q.eosN + 1) }) }
        else m1)
    | [] => s
  let m' := taken.matrix k
  let fwds := (List.range 3).filter (fun p => pwEn (word p) && pwEos (word p) == 0)
  if !fwds.isEmpty && !m'.fwd && m'.run.isNone && fwds.all (fun p => (m'.ports.getD p {}).eos) then
    let f := taken.freeEos
    let u := f.2.modMatrix k (fun m => { m with fwd := true })
    if ewEn (s.edgeWord k 34 0 0) then u.enter k 34 0 0 f.1 else u
  else taken

/-! ## The instructions and events -/

/-- MMA (R207): one pass. -/
def execMma (mt nt kt acc a b t : Nat) (st : State) : Out := .next (st.multiply st.fcore (.mma mt nt kt acc a b t) false false mt nt acc a (allRows mt))
/-- MMAZ (R207). -/
def execMmaz (mt nt kt acc a b t : Nat) (st : State) : Out := .next (st.multiply st.fcore (.mmaz mt nt kt acc a b t) true false mt nt acc a (allRows mt))
/-- MMAT (R201, R207). -/
def execMmat (mt nt kt acc a b t : Nat) (st : State) : Out := .next (st.multiply st.fcore (.mmat mt nt kt acc a b t) false true mt nt acc a (allRows mt))
/-- MMAG (R208). -/
def execMmag (mt nt kt acc a b t : Nat) (st : State) : Out := .next (st.multiply st.fcore (.mmag mt nt kt acc a b t) false false mt nt acc a MInst.mask)
/-- ACCZ (R209). -/
def execAccz (mt nt acc t : Nat) (st : State) : Out := .next (st.pass st.fcore (.accz mt nt acc t) (zeroPass mt nt acc))
/-- ACCRD (R210). -/
def execAccrd (mt nt acc rm _t sat q o : Nat) (st : State) : Out :=
  .next (st.drainTiles st.fcore (rm == 5) (drainToken (agentId st.fcore 32) nt acc rm sat q o) (16 * (mt + 1) * (nt + 1)))
/-- ACCWR (R209): one token of it. -/
def execAccwr (mt nt acc a t : Nat) (st : State) : Out := .next (st.pass st.fcore (.accwr mt nt acc a t) (writePass nt acc))
/-- ACCAX (R209). -/
def execAccax (mt nt acc a b rm t : Nat) (st : State) : Out :=
  let d := st.freeDraws (if rm = 5 then 16384 else 0)
  .next (d.2.pass st.fcore (.accax mt nt acc a b rm t) (axPass (agentId st.fcore 32) mt nt acc rm d.1))

/-- MATRIX_INSTANCE_START (R203, R204). -/
def execEvMatrixInstanceStart (st : State) : Out := .next (st.startInstance st.place.core)
/-- MATRIX_EOS (R205): at port 0 A, 1 B, 2 mask. -/
def execEvMatrixEos (st : State) : Out := .next (if st.works st.place.core then st.matrixEos st.place.core st.place.port else st)

end Sys2Proof.Machine
end

