-- ==== Sys2Proof/Machine/RcOps.lean ====
section
/-! DEFINITION. What the region controller's instructions share: registers, the next instruction, faults, loops left by a jump, event bits, and the special
registers with their access (R237 to R240, R247, R249, R307 to R313). -/

namespace Sys2Proof.Machine

/-- Register q[i]; q0 reads as zero (R237). -/
def State.q (s : State) (k i : Nat) : Nat := if i = 0 then 0 else ((s.rc k).q.getD i 0).toNat

/-- A write to q[i]; one to q0 is discarded (R237). -/
def State.setQ (s : State) (k i v : Nat) : State := if i = 0 then s else s.modRc k (fun r => { r with q := r.q.set i (BitVec.ofNat 64 v) })

/-- The next instruction, n bytes on. -/
def State.rcNext (s : State) (k n : Nat) : State := s.modRc k (fun r => { r with pc := r.pc + n })

/-- An RC instruction that writes q[d] and goes on. -/
def State.rcPut (s : State) (d v : Nat) : State := (s.setQ s.fcore d v).rcNext s.fcore 4

/-- An RC instruction that faults with a cause alone. -/
def State.rcTrap (s : State) (cause : Nat) : State := s.rcFault s.fcore ⟨cause, 0, 0, false⟩

/-- The level of the executing RC (R305). -/
def State.level (s : State) : Nat := (s.rc s.fcore).level

/-- An instruction that needs a level: 0x144 below it (R148, R306). -/
def State.needLevel (s : State) (l : Nat) (f : State) : State := if s.level < l then s.rcTrap 0x144 else f

/-! ## Jumps and loops (R246, R247) -/

/-- The loops that a jump to a target leaves open. -/
def leaveLoops (target : Nat) : List LoopRec → List LoopRec
  | [] => []
  | l :: r => if l.start ≤ target ∧ target ≤ l.last then l :: r else leaveLoops target r

/-- A target counted in words from the instruction. -/
def relTarget (pc n off : Nat) : Nat := cut 32 ((pc : Int) + 4 * signExt n off)

/-- A taken branch or jump. -/
def State.jump (s : State) (k target : Nat) : State := s.modRc k (fun r => { r with pc := target, loops := leaveLoops target r.loops })

/-! ## Event bits (R249) -/

/-- Copies of a node that are in flight on its core's copy engine. -/
def State.copiesOf (s : State) (k n : Nat) : List (Nat × Copy) := (s.core k).copies.filter (fun c => c.2.node = n)

/-- sr.ev: the latched bits, and the level bits of the extract FIFO and the copies. -/
def State.evBits (s : State) (k : Nat) : Nat :=
  let r := s.rc k
  r.ev ||| Bool.nat (!r.extract.isEmpty) ||| (Bool.nat (s.copiesOf k r.node).isEmpty * 2)

/-! ## Special registers (R238, R307) -/

/-- Access of a special register at a level: none for a reserved number, else whether it may be written. -/
def srWritable (level n : Nat) : Option Bool :=
  if n ≤ 0x00A then some (n = 1 ∨ n = 6 ∨ n = 8 ∨ n = 9)
  else if n = 0x100 ∨ n = 0x101 ∨ n = 0x180 ∨ n = 0x181 then some false
  else if (0x102 ≤ n ∧ n ≤ 0x107) ∨ (0x110 ≤ n ∧ n ≤ 0x11F) ∨ (0x140 ≤ n ∧ n ≤ 0x142) ∨ n = 0x1C0 ∨ n = 0x1C1 ∨ n = 0x1C3 then some true
  else if n = 0x143 ∨ n = 0x1C2 then some (level = 2)
  else none

/-- log2 of 1, 2, 4, 8. -/
def log2of (w : Nat) : Nat := if w = 8 then 3 else if w = 4 then 2 else if w = 2 then 1 else 0

/-- sr.self (R238). -/
def State.srSelf (s : State) (k : Nat) : Nat :=
  let pt := s.partAt k
  let g := s.regionAt k
  agentId k 48 + s.stageAt k * 2 ^ 16 + pt % 16 * 2 ^ 20 + (s.part pt).tenant * 2 ^ 24
    + log2of ((g.map (·.w)).getD 1) * 2 ^ 30 + log2of ((g.map (·.h)).getD 1) * 2 ^ 32

/-- Present isles (R309). -/
def Fuses.isles (f : Fuses) : Nat := 0xFFFF - (if f.fifteen then 2 ^ f.absent else 0)

/-- sr.cap (R309). -/
def Fuses.cap (f : Fuses) : Nat :=
  f.isles + 18 * 2 ^ 31 + Bool.nat f.fifteen * 2 ^ 36 + (if f.fifteen then f.absent else 0) * 2 ^ 40 + Bool.nat f.module * 2 ^ 44

/-- sr.kslive (R361). -/
def State.srKslive (s : State) : Nat := s.keys.foldl (fun a e => if e.2.live then a ||| 2 ^ e.1 else a) 0

/-- sr.tkey (R361). -/
def State.srTkey (s : State) (pt : Nat) : Nat :=
  let t := (s.part pt).tenant
  let n := (s.keys.filter (fun e => e.2.live && e.2.tenant == t)).length
  match s.currentSlot t with
  | some (i, q) => q.gen * 2 ^ 16 + i * 2 ^ 8 + 2 ^ 7 + n
  | none => n

/-- A special register's value at a core. -/
def State.srGet (s : State) (k n : Nat) : Nat :=
  let r := s.rc k
  let pt := s.partAt k
  let p := s.part pt
  match n with
  | 0x000 => 0
  | 0x001 => (r.loops.head?.map (·.lc)).getD 0
  | 0x002 => r.loops.length
  | 0x003 => r.phase
  | 0x004 => s.srSelf k
  | 0x005 => s.time
  | 0x006 => r.timer
  | 0x007 => s.evBits k
  | 0x008 => r.far
  | 0x009 => r.poison
  | 0x00A => s.nodeHandle r.node
  | 0x100 => r.level + pt % 16 * 4 + p.tenant * 2 ^ 6
  | 0x101 => s.fuses.cap
  | 0x102 => p.pctl
  | 0x103 => p.buftab
  | 0x140 => p.troot
  | 0x141 => p.shpool
  | 0x142 => p.spill
  | 0x143 => s.mcage
  | 0x180 => s.srKslive
  | 0x181 => s.srTkey pt
  | 0x1C0 => p.dtag
  | 0x1C1 => p.rtab
  | 0x1C2 => s.wdog1 + s.wdog2 * 2 ^ 32
  | 0x1C3 => p.hchan
  | n =>
    if 0x104 ≤ n ∧ n ≤ 0x107 then leNat (((p.csel.drop (8 * (n - 0x104))).take 8).map (BitVec.ofNat 8))
    else if 0x110 ≤ n ∧ n ≤ 0x11F then ((s.isle (isleOf k)).mcg.getD (n - 0x110) 0).toNat
    else 0

/-- The fields of a register that a write keeps: bits hi to lo. -/
def field (v hi lo : Nat) : Nat := bits v hi lo * 2 ^ lo

/-- The selection table with eight bytes replaced; bytes 30 and 31 stay zero (R312). -/
def setCsel (t : List Nat) (i v : Nat) : List Nat :=
  (List.range 32).map (fun j => if j < 30 ∧ j / 8 = i then bits v (8 * (j % 8) + 7) (8 * (j % 8)) else t.getD j 0)

/-- A write to a writable special register at a core, by an RC of a level; or its cause (R238, R245, R310, R312, R313, R330, R335, R337, R364, R365, R370, R372). -/
def State.srSet (s : State) (k n v : Nat) : Except Nat State :=
  let pt := s.partAt k
  match n with
  | 0x001 =>
    match (s.rc k).loops with
    | [] => .error 0x0D5
    | l :: r => if 2 ^ 32 ≤ v then .error 0x0D1 else .ok (s.modRc k (fun c => { c with loops := { l with pend := some v } :: r }))
  | 0x006 => .ok (s.modRc k (fun r => { r with timer := v }))
  | 0x008 => .ok (s.modRc k (fun r => { r with far := v % 2 ^ 33 }))
  | 0x009 => .ok (if bit v 16 then s.modRc k (fun r => { r with poison := 0 }) else s)
  | 0x102 => if bits v 31 16 = 0 then .error 0x0C4 else .ok (s.modPart pt (fun p => { p with pctl := field v 31 16 + v % 2 }))
  | 0x103 => .ok (s.modPart pt (fun p => { p with buftab := field v 59 5 }))
  | 0x140 => .ok (s.modPart pt (fun p => { p with troot := field v 32 12 }))
  | 0x141 => .ok ((s.modPart pt (fun p => { p with shpool := field v 63 21 })).retryPool pt)
  | 0x142 => .ok (s.modPart pt (fun p => { p with spill := field v 63 21 }))
  | 0x143 => if v % 2 ^ 16 < 256 then .error 0x0C4 else .ok { s with mcage := v % 2 ^ 16 }
  | 0x1C0 => if v % 2 ^ 16 = 0 then .error 0x0C4 else .ok (s.modPart pt (fun p => { p with dtag := v % 2 ^ 16 }))
  | 0x1C1 => .ok (s.modPart pt (fun p => { p with rtab := field v 31 12 }))
  | 0x1C2 => if bits v 63 32 * 1000 ≤ v % 2 ^ 32 then .error 0x0C4 else .ok { s with wdog1 := v % 2 ^ 32, wdog2 := bits v 63 32 }
  | 0x1C3 => .ok (s.modPart pt (fun p => { p with hchan := field v 31 11 }))
  | n =>
    if 0x104 ≤ n ∧ n ≤ 0x107 then .ok (s.modPart pt (fun p => { p with csel := setCsel p.csel (n - 0x104) v }))
    else if 0x110 ≤ n ∧ n ≤ 0x11F then .ok (s.modIsle (isleOf k) (fun i => { i with mcg := i.mcg.set (n - 0x110) (BitVec.ofNat 64 v) }))
    else .ok s

/-- The check of a register number at a level (R238, R307): the cause, if any. `write` asks for a writable one. -/
def srCause (level n : Nat) (write : Bool) : Option Nat :=
  if 0x100 ≤ n ∧ n < 0x200 ∧ level = 0 then some 0x144
  else match srWritable level n with
  | none => some 0x0C0
  | some w => if write && !w then some 0x0C4 else none

end Sys2Proof.Machine
end

