-- ==== Sys2Proof/Machine/Image.lean ====
section
/-! DEFINITION. Configuration images: their layout (R155), the writing of their records with relocation (R25, R154, R157), and the validator (R70, R143,
R144, R146, R150 to R157, R161, R196, R200, R206, R225, R226). A candidate is written into a state of its own, validated there, and kept only if it passes. -/

namespace Sys2Proof.Machine

/-! ## Layout (R155) -/

/-- An n-byte field of some bytes, little-endian. -/
def fld (b : List Byte) (o n : Nat) : Nat := leNat ((b.drop o).take n)

def imgCount (b : List Byte) : Nat := fld b 0x08 2
def imgW (b : List Byte) : Nat := 2 ^ bits (fld b 0x0A 1) 1 0
def imgH (b : List Byte) : Nat := 2 ^ bits (fld b 0x0A 1) 3 2
def imgLen (b : List Byte) : Nat := fld b 0x0C 4
def imgMatrix (b : List Byte) : Nat := fld b 0x10 4
def imgHist (b : List Byte) : Nat := fld b 0x14 4
def imgRings (b : List Byte) : Nat := fld b 0x18 4
def imgProg (b : List Byte) : Nat := fld b 0x1C 4
def imgProgLen (b : List Byte) : Nat := fld b 0x20 4
/-- Rings and barriers of the image. -/
def imgRingN (b : List Byte) : Nat := if imgRings b = 0 then 0 else fld b (imgRings b) 2
def imgBarN (b : List Byte) : Nat := if imgRings b = 0 then 0 else fld b (imgRings b + 2) 2

/-- A section ends where the next begins, or with the image. -/
def imgEnd (b : List Byte) (o : Nat) : Nat := ([imgMatrix b, imgHist b, imgRings b, imgProg b].filter (fun x => decide (o < x))).foldl min (imgLen b)

/-- Offsets of the cell entries, and of the entries of a matrix or history section (552 bytes each). -/
def imgCells (b : List Byte) : List Nat := (List.range (imgCount b)).map (fun i => 0x80 + 520 * i)
def imgEntries (b : List Byte) (o : Nat) : List Nat := if o = 0 then [] else (List.range ((imgEnd b o - o) / 552)).map (fun i => o + 552 * i)

/-- Core, cell and context of a locator. -/
def locCore (b : List Byte) (o : Nat) : Nat := bits (fld b o 8) 5 0
def locCell (b : List Byte) (o : Nat) : Nat := bits (fld b o 8) 10 6
def locCtx (b : List Byte) (o : Nat) : Nat := bits (fld b o 8) 12 11

/-- A relative core lies in a rectangle. -/
def relIn (w h c : Nat) : Bool := decide (c % 8 < w) && decide (c / 8 < h)

/-- The first cause whose condition holds. -/
def firstBad (l : List (Bool × Nat)) : Option Nat := (l.find? (·.1)).map (·.2)

/-- The digest of an image, taken with its own field as zero. -/
def imgDigest (b : List Byte) : List Byte := sha384 (b.take 0x40 ++ List.replicate 48 0 ++ b.drop 0x70)

/-- A list holds an element twice. -/
def twice : List Nat → Bool
  | [] => false
  | x :: r => r.contains x || twice r

/-- Checks of the header and of what it locates (R155, R70 rule 6). -/
def imgCause (g : Region) (b : List Byte) : Option Nat :=
  let n := imgLen b
  let offs := [imgMatrix b, imgHist b, imgRings b, imgProg b]
  let inside (o : Nat) : Bool := relIn g.w g.h (locCore b o) && relIn (imgW b) (imgH b) (locCore b o)
  let secs := imgEntries b (imgMatrix b) ++ imgEntries b (imgHist b)
  firstBad [
    (fld b 0 4 != 0xB7C51A6E || fld b 4 2 != 1, 0x0D8),
    (decide (n < 0x80 + 520 * imgCount b) || decide (b.length < n) || offs.any (fun o => o != 0 && (o % 64 != 0 || decide (o < 0x80) || decide (n ≤ o)))
      || decide (n < imgProg b + imgProgLen b) || decide (g.w < imgW b) || decide (g.h < imgH b)
      || (imgRings b != 0 && decide (n < imgRings b + 16 + 16 * (imgRingN b + imgBarN b))), 0x0D9),
    (!((imgCells b ++ secs).all inside), 0x0D9),
    (b.drop 0x40 |>.take 48 |> (· != imgDigest (b.take n)), 0x0DF),
    (twice ((imgCells b).map (fun o => fld b o 8 % 8192)), 0x0DB),
    (fld b 6 2 != 0 || decide (16 ≤ fld b 0x0A 1) || fld b 0x0B 1 != 0 || fld b 0x24 28 != 0 || fld b 0x70 16 != 0
      || (imgCells b).any (fun o => decide (8192 ≤ fld b o 8)) || secs.any (fun o => decide (64 ≤ fld b o 8))
      || (imgRings b != 0 && fld b (imgRings b + 4) 12 != 0), 0x0D8),
    (decide (15 < imgRingN b) || decide (31 < imgBarN b), 0x0DB)]

/-! ## Reading a routine (R23, R144, R161) -/

/-- A routine from a halfword to its END: instructions with their offset and length, and the cause that stops the reading. -/
def State.walkFrom (s : State) (k l x : Nat) : Nat → Nat → List (Nat × Instr × Nat) × Option Nat
  | 0, _ => ([], some 0x0DB)
  | f + 1, h =>
    if 128 ≤ h then ([], some 0x0DB)
    else match s.fetchCell k l x h with
    | .ok (i, n) =>
      if cellOp i = 0x45 then ([(h, i, n)], none)
      else let r := s.walkFrom k l x f (h + n); ((h, i, n) :: r.1, r.2)
    | .error .truncated => ([], some 0x0DB)
    | .error _ =>
      let hw := s.recd k l x (2 * h) 2
      ([], some (if bits hw 15 14 = 3 then badWordCause (hw * 65536 + s.recd k l x (2 * h + 2) 2) else 0x0D8))

/-- The m registers that routines name (R23). -/
def State.namedMains (s : State) (k l x : Nat) : List Nat :=
  ((List.range 16).flatMap (fun n =>
    let ce := s.classEntry k l x n
    if ceArity ce = 0 then [] else (s.walkFrom k l x 128 (ceEntry ce)).1.flatMap (fun i =>
      ((useOf i.2.1).srcs ++ (useOf i.2.1).dsts).filter (fun c => decide (16 ≤ c) && decide (c < 32))))).eraseDups

/-! ## Writing (R25, R154, R157, R251) -/

/-- A region-relative agent id at its placement (R154). -/
def reloc (lead id : Nat) : Nat := (id + lead * 64) % 2 ^ 16

def relocPort (lead w : Nat) : Nat := if pwEn w && pwSrc w != 0xFFFF then w - pwSrc w + reloc lead (pwSrc w) else w

/-- A route word as it is written: the partition's own tag counts as 0 (R364). -/
def relocEdge (lead tag w : Nat) : Nat :=
  let w := if ewRoute w = tag then w - tag * 2 ^ 32 else w
  if ewEn w && !ewAbs w && ewRoute w == 0 then w - ewDest w + reloc lead (ewDest w) else w

/-- Words of 8 bytes, rewritten in place. -/
def rewriteWords (m : Memory) (a n : Nat) (f : Nat → Nat) : Memory :=
  (List.range n).foldl (fun m i => Memory.writeN m (a + 8 * i) (leBytes 8 (f (Memory.readNat m (a + 8 * i) 8)))) m

/-- A cell entry: its record, and what a CFG of the context clears (R25, R44, R63, R182, R187). The mapping field of an m register that no routine names
has no effect (R23). -/
def State.loadCell (s : State) (lead tag : Nat) (b : List Byte) (o : Nat) : State :=
  let k := lead + locCore b o
  let l := locCell b o
  let x := locCtx b o
  let a := cfgBase k l x
  let m1 := Memory.writeN s.mem a ((b.drop (o + 8)).take 512)
  let m2 := rewriteWords (rewriteWords m1 (a + 0x120) 4 (relocPort lead)) (a + 0x140) 8 (relocEdge lead tag)
  let s1 := { s with mem := m2 }
  let named := s1.namedMains k l x
  s1.modCell k l (fun c => { c with
    mains := (List.range 16).foldl (fun (ms : List Reg) j => if named.contains (16 + j) && bit (s1.clearBits k l x) j then ms.set (s1.mapEntry k l x j) Reg.empty else ms) c.mains
    w := c.w.set x (s1.weight k l x)
    ctxs := c.ctxs.modify x (fun v => {
      loaded := true
      gen := if s1.seed k l x = 0 then 1 else BitVec.ofNat 32 (s1.seed k l x)
      ports := v.ports
      edges := v.edges.map (fun g => { g with sent := 0, first := none }) }) })

/-- A matrix entry: slots, port words, result route. -/
def State.loadMatrix (s : State) (lead tag : Nat) (b : List Byte) (o : Nat) : State :=
  let k := lead + locCore b o
  let m1 := Memory.writeN s.mem (matBase k) ((b.drop (o + 8)).take 544)
  let s1 := { s with mem := rewriteWords (rewriteWords m1 (matBase k + 512) 3 (relocPort lead)) (matBase k + 536) 1 (relocEdge lead tag) }
  s1.modMatrix k (fun m => { m with edge := { m.edge with sent := 0, first := none } })

/-- A history entry: descriptors and output routes; its histories begin empty (R291). -/
def State.loadHist (s : State) (lead tag : Nat) (b : List Byte) (o : Nat) : State :=
  let k := lead + locCore b o
  let m1 := Memory.writeN s.mem (histBase k) ((b.drop (o + 8)).take 544)
  let s1 := { s with mem := rewriteWords m1 (histBase k + 512) 4 (relocEdge lead tag) }
  s1.modCore k (fun c => { c with
    hists := []
    hpEdges := c.hpEdges.map (fun g => { g with sent := 0, first := none }) })

/-- A barrier as TBI writes it (R110, R263), with its reference phase. -/
def State.initBarrier (s : State) (lead t arr : Nat) : State :=
  let off := (s.barrierEntry lead t).1
  let b : Bar := ⟨0, arr, false, false, false, 0, arr, regionHandle lead⟩
  ({ s with mem := Bar.write s.mem (spadBase lead + off) b }.modCore lead (fun c => { c with
    tbClr := adel c.tbClr off
    discard := c.discard.filter (fun l => l != off / 64) })).modRc lead (fun r => { r with refs := r.refs.set t 0 })

/-- The rings and barriers (R196, R157): the section, its relocated notify ids, every state word and barrier at its reset value. -/
def State.loadRings (s : State) (lead : Nat) (b : List Byte) : State :=
  let o := imgRings b
  let nr := imgRingN b
  let nb := imgBarN b
  let m0 := Memory.clear s.mem (ringBase lead) 1024
  let m1 := Memory.writeN m0 (ringBase lead) (leBytes 2 nr ++ leBytes 2 nb)
  let m2 := Memory.writeN m1 (ringBase lead + 16) ((b.drop (o + 16)).take (16 * nr))
  let m3 := Memory.writeN m2 (ringBase lead + 256) ((b.drop (o + 16 + 16 * nr)).take (16 * nb))
  let m4 := (List.range nb).foldl (fun m t =>
    let a := ringBase lead + 256 + 16 * t + 8
    let id := Memory.readNat m a 2
    if id = 0xFFFF then m else Memory.writeN m a (leBytes 2 (reloc lead id))) m3
  let s1 := ({ s with mem := m4 }.modCore lead (fun c => { c with ringClr := [], tbClr := [] })).modRc lead (fun r => { r with
    refs := List.replicate 31 0
    voids := List.replicate 15 0
    fedBy := List.replicate 15 false })
  let s2 := (List.range nr).foldl (fun s r => s.setRing lead r ⟨0, 0, 0, (s.ringEntry lead r).2.1, 0, 0⟩) s1
  (List.range nb).foldl (fun s t => s.initBarrier lead t ((s.barrierEntry lead t).2.1 % 2 ^ 20)) s2

/-- An image's sections written over a region. -/
def State.loadImage (s : State) (lead : Nat) (b : List Byte) : State :=
  let tag := (s.part (s.partAt lead)).dtag
  let s1 := (imgCells b).foldl (fun s o => s.loadCell lead tag b o) s
  let s2 := (imgEntries b (imgMatrix b)).foldl (fun s o => s.loadMatrix lead tag b o) s1
  let s3 := (imgEntries b (imgHist b)).foldl (fun s o => s.loadHist lead tag b o) s2
  s3.loadRings lead b

/-! ## Ids and bound edges (R18, R78, R154) -/

/-- A local id names an agent of a kind of core (R19). -/
def localOk (core loc : Nat) : Bool :=
  decide (loc < 32) || (decide (40 ≤ loc) && decide (loc ≤ 50)) || (if isKeyed core then decide (36 ≤ loc) && decide (loc < 40) else decide (32 ≤ loc) && decide (loc < 36))

/-- A region-relative id can be placed. -/
def idOk (g : Region) (id : Nat) : Bool := relIn g.w g.h (id / 64) && localOk (g.lead + id / 64) (id % 64)

/-- A relocated id lies in the region. -/
def placedOk (g : Region) (id : Nat) : Bool := g.has (id / 64) && localOk (id / 64) (id % 64)

/-- Words of the bound edges of regions that stand: of loaded contexts, results and history ports. -/
def State.boundEdges (s : State) : List Nat :=
  (s.cores.flatMap (fun (e : Nat × Core) => if (s.regionAt e.1).isNone then [] else
    (s.edgeWord e.1 34 0 0 :: (List.range 4).map (fun j => s.edgeWord e.1 (36 + j) 0 0)) ++
      e.2.cells.flatMap (fun (c : Nat × Cell) => (List.range 4).flatMap (fun x =>
        if (c.2.ctx x).loaded then (List.range 8).map (fun j => s.edgeWord e.1 c.1 x j) else [])))).filter (fun w => ewEn w && ewAbs w)

/-- The place that a bound edge leads to. -/
def boundTo (w : Nat) : Nat × Nat × Nat := (ewDest w, ewDcfg w, ewDport w)

/-- A bound edge may stand (R78); the state holds it already. -/
def State.boundOk (s : State) (pt w : Nat) : Bool :=
  let d := destOf w
  ewRoute w == 0 && decide (d.loc < 32) && (match s.regionAt d.core with
    | some g => g.standing && g.part == pt && (s.rc g.lead).pinned
    | none => false) && (s.ctx d.core d.loc d.ctx).loaded && pwEn (s.portWord d.core d.loc d.ctx d.port) && pwSrc (s.portWord d.core d.loc d.ctx d.port) == 0xFFFF
    && (s.boundEdges.filter (fun v => boundTo v == boundTo w)).length == 1

/-- The dest of a route word in use can be placed. -/
def State.destOk (s : State) (g : Region) (w : Nat) : Bool :=
  !ewEn w || (if ewAbs w then s.boundOk g.part w else ewRoute w != 0 || placedOk g (ewDest w))

/-! ## Routines (R144, R161) -/

/-- Ring that a ring instruction names, and its token index. -/
def ringUse : Instr → Option (Nat × Nat)
  | .rput _ a _ _ j => some (a, j)
  | .rget _ a _ j => some (a, j)
  | .rfree a => some (a, 0)
  | _ => none

/-- The history that a command names (R225). -/
def histUse : Instr → Option Nat
  | .hins _ h => some h
  | .hseek _ h _ => some h
  | .hjoin _ h _ => some h
  | .hred _ _ h _ => some h
  | .hcons h => some h
  | .hcomp _ h => some h
  | _ => none

def isRput : Instr → Bool | .rput .. => true | _ => false
def isRget : Instr → Bool | .rget .. => true | _ => false
def isCall : Instr → Bool | .call .. => true | _ => false
def isMerge : Instr → Bool | .merge .. => true | _ => false
def isSte : Instr → Bool | .ste .. => true | _ => false

/-- A pool word that an instruction names has no format (R174). -/
def State.poolBad (s : State) (k l x : Nat) (i : Instr) : Bool :=
  (match i with | .ldc _ n => s.constFmt k l x n == .none | _ => false) || (useOf i).srcs.any (fun c => decide (41 ≤ c) && decide (c < 48) && s.constFmt k l x (c - 41) == .none)

/-- Checks of one instruction in its cell and class (R143, R161, R189, R194, R196, R197, R226). -/
def State.instrCause (s : State) (k l x n arity : Nat) (i : Instr) : Option Nat :=
  let op := cellOp i
  let ring := s.ringOfClass k l x n
  let hists := decide (0x65 ≤ op) && decide (op ≤ 0x6A)
  match encodingCause i with
  | some c => some c
  | none =>
    if (useOf i).srcs.any (fun c => decide (4 ≤ c) && decide (c < 8) && decide (arity ≤ c - 4)) || s.poolBad k l x i
      || (decide (0x50 ≤ op) && decide (op < 0x60) && !isMemCell l)
      || (decide (0x60 ≤ op) && !isKeyed k) || (hists && !isMemCell l)
      || (match ringUse i with
          | some (a, j) => a != ring || decide ((s.ringEntry (s.leadOf k) ring).2.2 ≤ 64 * j)
          | none => false)
      || (match i with | .lde _ _ _ _ _ p => let w := s.portWord k l x p; !pwEn w || pwSrc w != agentId k l || pwBurst w != 1 | _ => false)
      || (match histUse i with | some h => !hdEn (s.histWord k h) | none => false)
    then some 0x0DB else none

/-! ## Roles of histories (R226) -/

def isHins : Instr → Bool | .hins .. => true | _ => false
def isHjoin : Instr → Bool | .hjoin .. => true | _ => false
def isHred : Instr → Bool | .hred .. => true | _ => false
def isHseek : Instr → Bool | .hseek .. => true | _ => false

/-- The history port on which a command's tokens leave, and their width (R225, R229). -/
def State.outWidth (s : State) (k : Nat) (i : Instr) : Option (Nat × Nat) :=
  let at' (h e n : Nat) : Option (Nat × Nat) := some (if e = 0 then hdHp (s.histWord k h) else e - 1, n)
  match i with
  | .hseek _ h e => at' h e (hdW (s.histWord k h))
  | .hjoin _ h e => at' h e (hdW (s.histWord k h) + hdW (s.histWord k (hdPartner (s.histWord k h))))
  | .hred _ _ h _ => at' h 0 1
  | _ => none

/-! ## The operator graph (R68, R70 rules 2 and 4)

Its operators are the routines, and each matrix engine as a whole; a history command joins its routine to the routine that takes its output (log 13). -/

/-- The edges and classes of the DATA tokens of an instruction in a class; a CALL also brings its return. -/
def flowsOf (n : Nat) : Instr → List (Nat × Nat)
  | .emit e _ c _ _ => [(e, c)]
  | .emitv e _ c _ _ => [(e, c)]
  | .steer e _ c _ _ _ => [(e, c), (e + 1, c)]
  | .call e _ c r rc => [(e, c), (r, rc)]
  | .coal d _ => [(d - 48, n)]
  | .flushc d => [(d - 48, n)]
  | _ => []

/-- A routine in the operator graph. -/
def opKey (k l x n : Nat) : Nat := ((k * 32 + l) * 4 + x) * 16 + n

/-- A matrix engine in the operator graph. -/
def engineKey (k : Nat) : Nat := 2 ^ 40 + k * 64

/-- A flow of the operator graph: the operators it joins, and the edge's word. -/
structure Flow where
  src  : Nat
  dst  : Nat
  word : Nat
  win  : Nat

/-- The flow of tokens of a class along a route word, where an operator takes them. -/
def State.flowTo (s : State) (src w cls : Nat) : Option Flow :=
  let d := destOf w
  if !ewEn w || ewRoute w != 0 || ewAbs w then none
  else if d.loc < 32 then
    (if ceArity (s.classEntry d.core d.loc d.ctx cls) != 0 then some ⟨src, opKey d.core d.loc d.ctx cls, w, pwWin (s.portWord d.core d.loc d.ctx d.port)⟩ else none)
  else if d.loc < 36 ∧ d.loc ≠ 34 then some ⟨src, engineKey d.core, w, 0⟩
  else none

/-- The flows that leave a context. -/
def State.flowsFrom (s : State) (k l x : Nat) : List Flow :=
  (List.range 16).flatMap (fun n =>
    let ce := s.classEntry k l x n
    if ceArity ce = 0 then []
    else (s.walkFrom k l x 128 (ceEntry ce)).1.flatMap (fun i =>
      (flowsOf n (expand i.2.1)).filterMap (fun f => s.flowTo (opKey k l x n) (s.edgeWord k l x f.1) f.2)
        ++ (match s.outWidth k i.2.1 with
            | some p => (s.flowTo (opKey k l x n) (s.edgeWord k (36 + p.1) 0 0) 0).toList
            | none => [])))

/-- The flows that leave a matrix engine: the result tokens of each ACCRD have its trigger's class (R210). -/
def State.engineFlows (s : State) (k : Nat) : List Flow :=
  if isKeyed k then []
  else ((List.range 64).filterMap (fun i => (s.slotInstr k (i / 16) (i % 16)).bind (fun j => match j with | .accrd _ _ _ _ t _ _ _ => some t | _ => none))).filterMap
    (s.flowTo (engineKey k) (s.edgeWord k 34 0 0))

def stepReach (fs : List Flow) (v : List Nat) : List Nat := (v ++ (fs.filter (fun f => v.contains f.src)).map (·.dst)).eraseDups
def reachFrom (fs : List Flow) : Nat → List Nat → List Nat
  | 0, v => v
  | n + 1, v => let w := stepReach fs v; if w.length = v.length then v else reachFrom fs n w

/-- A routine reaches itself over some flows. -/
def onCycle (fs : List Flow) (v : Nat) : Bool :=
  (reachFrom fs (fs.length + 1) (((fs.filter (fun f => f.src == v)).map (·.dst)).eraseDups)).contains v

/-! ## A cell (R70, R150 to R153) -/

/-- A violation: the rule of R70, and the cause. -/
abbrev Vio := List (Nat × Nat)
def vio (rule cause : Nat) (b : Bool) : Vio := if b then [(rule, cause)] else []
def ruleOf (cause : Nat) : Nat := if cause = 0x0D8 then 6 else 5
def vioOf (o : Option Nat) : Vio := match o with | some c => [(ruleOf c, c)] | none => []

/-- Reply ports of LDEs. -/
def replyPorts (is : List Instr) : List Nat := is.filterMap (fun i => match i with | .lde _ _ _ _ _ p => some p | _ => none)

/-- Times that instructions name an edge. -/
def edgeCount (is : List Instr) (e : Nat) : Nat := (is.flatMap (fun i => (useOf i).edges)).count e

/-- The checks of a class (R60, R150, R153, R185, R196). -/
def State.classVio (s : State) (k l x n : Nat) : Vio :=
  let ce := s.classEntry k l x n
  let ar := ceArity ce
  if ar = 0 then vio 6 0x0D8 (ce != 0)
  else
    let r := s.walkFrom k l x 128 (ceEntry ce)
    let is := r.1.map (·.2.1)
    let ring := s.ringOfClass k l x n
    let calls := (is.filter isCall).length
    let named := (is.flatMap (fun i => (useOf i).edges ++ (match i with | .call _ _ _ er _ => [er] | _ => []))).eraseDups
    vio 5 0x0DB (ar == 1 && s.cwin k l x n != 0) ++ vio 5 0x0DB (ring != 15 && decide (s.ringCount (s.leadOf k) ≤ ring))
      ++ is.flatMap (fun i => vioOf (s.instrCause k l x n ar i)) ++ vioOf r.2
      ++ vio 5 0x0DB (decide (1 < calls) || (calls == 1) != ceFrame ce)
      ++ vio 5 0x0DB (is.any isRput && is.any isRget)
      ++ vio 5 0x0DB (ring != 15 && !is.any (fun i => (ringUse i).isSome))
      ++ vio 5 0x0DB (named.any (fun e => decide (ceEmits ce < edgeCount is e) || !ewEn (s.edgeWord k l x e)))
      ++ vio 5 0x0DB ((replyPorts is).any (fun p => decide (ceEmits ce < (replyPorts is).count p)))

/-- Halfwords of the context's routines, with 2 for the second halfword of a 32-bit word. -/
def State.covered (s : State) (k l x : Nat) : List (Nat × Nat) :=
  (List.range 16).flatMap (fun n =>
    let ce := s.classEntry k l x n
    if ceArity ce = 0 then [] else (s.walkFrom k l x 128 (ceEntry ce)).1.flatMap (fun i => if i.2.2 = 2 then [(i.1, 1), (i.1 + 1, 2)] else [(i.1, 1)]))

/-- Routines of a context that satisfy a predicate, with their arity. -/
def State.arities (s : State) (k l x : Nat) (p : Instr → Bool) : List Nat :=
  (List.range 16).filterMap (fun n =>
    let ce := s.classEntry k l x n
    if ceArity ce ≠ 0 ∧ (s.walkFrom k l x 128 (ceEntry ce)).1.any (fun i => p i.2.1) then some (ceArity ce) else none)

/-- An input-port word (R51, R151, R154). -/
def State.portVio (s : State) (g : Region) (k l x p : Nat) : Vio :=
  let w := s.portWord k l x p
  vio 6 0x0D8 (bits w 63 56 != 0 || bits w 47 42 != 0) ++
    (if !pwEn w then [] else
      vio 5 0x0DB (!bit w 38 || decide (16 < pwWin w) || pwEosn w == 0 || decide (11 < pwVw w))
        ++ vio 5 0x0DB (pwWin w != 0 && !(s.arities k l x isMerge).any (fun a => decide (p < a)))
        ++ vio 5 0x0DB (isMX (pwFmt w) && pwBurst w != 2 && (s.arities k l x isSte).any (fun a => decide (p < a)))
        ++ vio 5 0x0DC (pwSrc w != 0xFFFF && !placedOk g (pwSrc w)))

/-- A route word (R152, R154, R78). -/
def State.edgeVio (s : State) (g : Region) (w : Nat) : Vio :=
  vio 6 0x0D8 (bits w 63 56 != 0 || bits w 31 29 != 0 || bit w 17)
    ++ vio 5 0x0DB (ewEn w && (decide (ewCap w < 2) || decide (64 < ewCap w))) ++ vio 5 0x0DC (!s.destOk g w)

/-- The checks of a context that an image loads. -/
def State.ctxVio (s : State) (g : Region) (k l x : Nat) : Vio :=
  let cov := s.covered k l x
  let ms := (s.namedMains k l x).map (fun c => s.mapEntry k l x (c - 16))
  (List.range 16).flatMap (s.classVio k l x)
    ++ vio 5 0x0DB ((List.range 16).any (fun n => let ce := s.classEntry k l x n; ceArity ce != 0 && cov.contains (ceEntry ce, 2)))
    ++ vio 6 0x0D8 ((List.range 128).any (fun h => !cov.contains (h, 1) && !cov.contains (h, 2) && s.recd k l x (2 * h) 2 != 0))
    ++ (List.range 4).flatMap (s.portVio g k l x) ++ (List.range 8).flatMap (fun e => s.edgeVio g (s.edgeWord k l x e))
    ++ vio 6 0x0D8 (bits (s.recd k l x 0x1CE 1) 7 1 != 0 || s.recd k l x 0x1CF 1 != 0 || s.recd k l x 0x1EC 20 != 0)
    ++ vio 5 0x0DB (s.weight k l x == 0 || decide (16 < s.weight k l x))
    ++ vio 6 0x0D8 (twice ms)
    ++ vio 5 0x0DB (x == 3 && decide (24 ≤ l) && decide (0 < (s.core k).rank))

/-- Matching-store entries that a cell's loaded contexts declare (R70 rule 3). -/
def State.windows (s : State) (k l : Nat) : Nat :=
  ((List.range 4).flatMap (fun x => if (s.ctx k l x).loaded then (List.range 16).map (fun n =>
    if 1 < ceArity (s.classEntry k l x n) then s.cwin k l x n + 1 else 0) else [])).foldl (· + ·) 0

/-- The first violation of a cell, in the order of the rules of R70. -/
def State.cellCause (s : State) (g : Region) (fs : List Flow) (k l : Nat) (xs : List Nat) : Option Nat :=
  let mine := fs.filter (fun f => f.src / 64 == k * 32 + l)
  let words := xs.flatMap (fun x => ((List.range 8).map (s.edgeWord k l x)).filter ewEn)
  let v := vio 1 0x0DD (!Config.channelOrder (agentId k l :: words))
    ++ vio 2 0x0DD (mine.any (fun f => onCycle (fs.filter (fun f => f.win == 0)) f.src))
    ++ vio 3 0x0DE (decide (16 < s.windows k l))
    ++ vio 4 0x0DE (xs.any (fun x => (List.range 16).any (fun n => let ce := s.classEntry k l x n
        ceArity ce != 0 && (s.walkFrom k l x 128 (ceEntry ce)).1.any (fun i => (useOf i.2.1).edges.any (fun e => let w := s.edgeWord k l x e
          ewEn w && ewRoute w == 0 && ewDest w == agentId k l && ewDcfg w == x && decide (ewCap w < ceEmits ce))))))
    ++ vio 4 0x0DD (mine.any (fun f => decide (ewCap f.word < f.win) && (reachFrom fs (fs.length + 1) [f.dst]).contains f.src))
    ++ xs.flatMap (s.ctxVio g k l)
  (List.range 7).findSome? (fun r => (v.find? (fun q => q.1 == r)).map (·.2))

/-! ## Sections (R146, R156, R157, R200, R206, R226) -/

/-- The instructions in use in the slots of a core. -/
def State.slotInstrs (s : State) (k : Nat) : List Instr := (List.range 64).filterMap (fun i => s.slotInstr k (i / 16) (i % 16))

/-- Output format of an ACCRD. -/
def accrdFmt : Instr → Option Fmt
  | .accrd _ _ _ _ _ _ _ o => some (fmtOf o)
  | _ => none

/-- Port A or B: its word, and the formats that slots expect there (R200). -/
def matPortBad (w : Nat) (fs : List Fmt) : Bool :=
  pwEn w && ((pwEos w != 0 && pwEos w != 1) || !bit w 38 || bit w 39 || bit w 40 || (pwFmt w != .none && fs.any (fun f => f != pwFmt w))
    || (fs.any isMX && pwBurst w != 2) || (fs.any (fun f => f == .bf16 || f == .fp16) && pwBurst w != 1))

/-- A core's matrix section, with the flows of the operator graph. -/
def State.matrixBad (s : State) (g : Region) (fs : List Flow) (k : Nat) : Option Nat :=
  let ws := (List.range 64).map (fun i => s.slotWord k (i / 16) (i % 16))
  let is := s.slotInstrs k
  let fa := is.filterMap (fun i => (matUse 0 i).af)
  let fb := is.filterMap (fun i => (matUse 0 i).bf)
  let p (i : Nat) : Nat := s.portWord k 32 0 i
  let r := s.edgeWord k 34 0 0
  if isKeyed k then some 0x0DB
  else match ws.findSome? (fun w => if !bit w 16 then (if w = 0 then none else some 0x0D8) else
      match decodeMatrix w with | .error _ => some 0x0D8 | .ok i => matrixCause i) with
  | some c => some c
  | none => firstBad [
      (ewEn r && !Config.channelOrder [agentId k 34, r], 0x0DD),
      (onCycle (fs.filter (fun f => f.win == 0)) (engineKey k), 0x0DD),
      ((List.range 4).any (fun x => twice ((List.range 16).filterMap (fun i => (s.slotInstr k x i).bind matTrig))), 0x0DB),
      ((List.range 3).any (fun i => bits (p i) 63 56 != 0 || bits (p i) 47 42 != 0) || bits r 63 56 != 0 || bits r 31 29 != 0 || bit r 17, 0x0D8),
      ((List.range 3).any (fun i => pwEn (p i) && pwSrc (p i) != 0xFFFF && !placedOk g (pwSrc (p i))) || !s.destOk g r, 0x0DC),
      (matPortBad (p 0) fa || matPortBad (p 1) fb || matPortBad (p 2) [] || (pwEn (p 2) && (pwFmt (p 2) != .n32 || pwBurst (p 2) != 1))
        || is.any isMmag != pwEn (p 2) || (List.range 3).any (fun i => pwEn (p i) && pwEosn (p i) == 0), 0x0DB),
      (ewEn r && (decide (ewCap r < 2) || decide (64 < ewCap r) || (is.filterMap accrdFmt).any (fun f => ewBurst r != (if isMX f then 2 else 1))), 0x0DB)]

/-- The commands of a core that name a history. -/
def State.histUsers (s : State) (k h : Nat) : List Instr := (s.routines k).filter (fun i => histUse i == some h)

/-- Variant and value word of an HRED. -/
def hredKey : Instr → Option (Nat × Nat)
  | .hred d _ _ v => some (v, d)
  | _ => none

/-- A history in use breaks the table of R226, or R126: with pj set it is a join side, a reduce input, or a reduce output. -/
def State.roleBad (s : State) (k h : Nat) : Bool :=
  let w := s.histWord k h
  let us := s.histUsers k h
  let ins := us.any isHins
  let join := us.any isHjoin
  let red := us.any isHred
  let p := hdPartner w
  let wp := s.histWord k p
  let them := s.histUsers k p
  let side := join || red || (us.all isHseek && them.any isHred)
  (hdPj w && (!hdEn wp || !hdPj wp || hdPartner wp != h))
    || decide (1 < Bool.nat ins + Bool.nat join + Bool.nat red)
    || (ins && hdPj w) || ((join || red) && !hdPj w) || (hdPj w && (!side || p == h))
    || (join && (!them.any isHjoin || them.any isHins || them.any isHred || decide (11 < hdW w + hdW wp)))
    || (red && (decide (1 < ((us.filterMap hredKey).map (fun q => q.1 * 64 + q.2)).eraseDups.length)
      || (us.filterMap hredKey).any (fun q => q.1 != 0 && decide (hdW w ≤ q.2)) || !them.all isHseek || hdW wp != 1))

/-- A history port's tokens do not have the width of the record input of the image that takes them (R226). -/
def State.widthBad (s : State) (k : Nat) (i : Instr) : Bool :=
  match s.outWidth k i with
  | none => false
  | some (p, n) =>
    let w := s.edgeWord k (36 + p) 0 0
    let d := destOf w
    let q := s.portWord d.core d.loc d.ctx d.port
    ewEn w && ewRoute w == 0 && !ewAbs w && decide (d.loc < 32) && (s.ctx d.core d.loc d.ctx).loaded && pwEn q && pwRec q && pwVw q != n

/-- A core's history section. -/
def State.histBad (s : State) (g : Region) (k : Nat) : Option Nat :=
  let hs := (List.range 16).filter (fun h => hdEn (s.histWord k h))
  let e (j : Nat) : Nat := s.edgeWord k (36 + j) 0 0
  firstBad [
    (!isKeyed k, 0x0DB),
    ((List.range 4).any (fun j => ewEn (e j) && !Config.channelOrder [agentId k (36 + j), e j]), 0x0DD),
    ((List.range 16).any (fun h => bits (s.histWord k h) 31 29 != 0 || Memory.readNat s.mem (histBase k + 32 * h + 12) 20 != 0)
      || (List.range 4).any (fun j => bits (e j) 63 56 != 0 || bits (e j) 31 29 != 0 || bit (e j) 17), 0x0D8),
    (hs.any (fun h => let w := s.histWord k h
      let a := s.histArea k h
      a.1 % 64 != 0 || a.2 % 64 != 0 || decide (spadSize k < a.1 + a.2) || decide (hdB w < 4) || decide (16 < hdB w) || decide (11 < hdW w)), 0x0DB),
    ((List.range 16).any (fun h => if hdEn (s.histWord k h) then s.roleBad k h else !(s.histUsers k h).isEmpty) || (s.routines k).any (s.widthBad k), 0x0DB),
    ((List.range 4).any (fun j => ewEn (e j) && (decide (ewCap (e j) < 2) || decide (64 < ewCap (e j)))), 0x0DB),
    ((List.range 4).any (fun j => !s.destOk g (e j)), 0x0DC)]

/-- The areas of rings, barriers and histories: core, first byte, end. -/
def State.areas (s : State) (lead : Nat) (cores : List Nat) : List (Nat × Nat × Nat) :=
  (List.range (s.ringCount lead)).map (fun r => let e := s.ringEntry lead r; (lead, e.1, e.1 + e.2.1 * e.2.2 + 16))
    ++ (List.range (s.barrierCount lead)).map (fun t => (lead, (s.barrierEntry lead t).1, (s.barrierEntry lead t).1 + 16))
    ++ cores.flatMap (fun k => (List.range 16).filterMap (fun h => if hdEn (s.histWord k h) then some (k, (s.histArea k h).1, (s.histArea k h).1 + (s.histArea k h).2) else none))

/-- Two of the areas overlap. -/
def overlapping : List (Nat × Nat × Nat) → Bool
  | [] => false
  | a :: r => r.any (fun b => a.1 == b.1 && decide (a.2.1 < b.2.2) && decide (b.2.1 < a.2.2)) || overlapping r

/-- A barrier's notify destination (R157). -/
def State.notifyBad (s : State) (lead : Nat) (e : Nat × Nat × Nat × Nat) : Bool :=
  let z := e.2.2.2
  let w := s.portWord (e.2.2.1 / 64) (e.2.2.1 % 64) (bits z 5 4) (bits z 7 6)
  e.2.2.1 != 0xFFFF && (decide (32 ≤ e.2.2.1 % 64) || !pwEn w || pwSrc w != agentId lead 48 || pwBurst w != 1 || (pwFmt w != .n32 && pwFmt w != .none))

/-- The ring and barrier section. -/
def State.ringBad (s : State) (g : Region) (b : List Byte) : Option Nat :=
  let lead := g.lead
  let rs := List.range (s.ringCount lead)
  let ts := List.range (s.barrierCount lead)
  let ra (r : Nat) : Nat := imgRings b + 16 + 16 * r
  let ta (t : Nat) : Nat := imgRings b + 16 + 16 * imgRingN b + 16 * t
  let as := s.areas lead g.coreList
  firstBad [
    (rs.any (fun r => fld b (ra r + 6) 10 != 0) || ts.any (fun t => decide (2 ^ 20 ≤ fld b (ta t + 4) 4) || fld b (ta t + 11) 5 != 0), 0x0D8),
    (rs.any (fun r => let e := s.ringEntry lead r
      e.2.1 == 0 || decide (64 < e.2.1) || e.2.2 == 0 || e.1 % 16 != 0 || decide (spadSize lead < e.1 + e.2.1 * e.2.2 + 16)), 0x0DB),
    (ts.any (fun t => let a := (s.barrierEntry lead t).1; a % 16 != 0 || decide (spadSize lead < a + 16)), 0x0DB),
    (ts.any (fun t => fld b (ta t + 8) 2 != 0xFFFF && !idOk g (fld b (ta t + 8) 2)), 0x0DC),
    (ts.any (fun t => s.notifyBad lead (s.barrierEntry lead t)), 0x0DB),
    (as.any (fun a => a.1 == lead && decide (a.2.1 < 0x100)) || overlapping as, 0x0DB)]

/-! ## The whole image -/

/-- The validator's answer for an image that a state holds already: none, or the first cause. -/
def State.validate (s : State) (g : Region) (b : List Byte) : Option Nat :=
  let cells := (imgCells b).map (fun o => (g.lead + locCore b o, locCell b o, locCtx b o))
  let fs := cells.flatMap (fun c => s.flowsFrom c.1 c.2.1 c.2.2) ++ g.coreList.flatMap s.engineFlows
  let order := (List.range 64).flatMap (fun c => (List.range 32).map (fun l => (g.lead + c, l)))
  match order.findSome? (fun c =>
    let xs := (cells.filter (fun d => d.1 == c.1 && d.2.1 == c.2)).map (·.2.2)
    if xs = [] then none else s.cellCause g fs c.1 c.2 xs) with
  | some c => some c
  | none =>
    match (imgEntries b (imgMatrix b)).findSome? (fun o => s.matrixBad g fs (g.lead + locCore b o)) with
    | some c => some c
    | none =>
      match (imgEntries b (imgHist b)).findSome? (fun o => s.histBad g (g.lead + locCore b o)) with
      | some c => some c
      | none => s.ringBad g b

/-- A CFG of an image over a region (R70, R251): the state with it loaded, or the cause. The frontier registers begin anew (R123), also as the history units
have taken them. -/
def State.configure (s : State) (g : Region) (b : List Byte) : Except Nat State :=
  match imgCause g b with
  | some c => .error c
  | none =>
    let b := b.take (imgLen b)
    let t := s.loadImage g.lead b
    match t.validate g b with
    | some c => .error c
    | none => .ok (g.coreList.foldl (fun t k => t.modCore k (fun c => { c with
        hists := c.hists.map (fun (h : Nat × Hist) => (h.1, { h.2 with fns := List.replicate 8 [(0, 0)] })) })) (t.modRc g.lead (fun r => { r with
        specs := []
        fns := List.replicate 8 [(0, 0)]
        applied := true })))

end Sys2Proof.Machine
end

