-- ==== Sys2Proof/Machine/RcScalar.lean ====
section
/-! DEFINITION. Scalar instructions and immediates of the RC, and its reads and writes of special and frontier registers (R241, R245). -/

namespace Sys2Proof.Machine

/-- A value cut to 64 bits. -/
def w64 (v : Nat) : Nat := v % 2 ^ 64
/-- A 64-bit value read as signed. -/
def s64 (v : Nat) : Int := signExt 64 v

/-- A scalar instruction of two registers. -/
def State.rcOp (s : State) (d a b : Nat) (f : Nat → Nat → Nat) : Out := .next (s.rcPut d (f (s.q s.fcore a) (s.q s.fcore b)))
/-- A scalar instruction of one register and a literal. -/
def State.rcImm (s : State) (d a : Nat) (f : Nat → Nat) : Out := .next (s.rcPut d (f (s.q s.fcore a)))

def shl64 (a n : Nat) : Nat := if 64 ≤ n then 0 else w64 (a * 2 ^ n)
def shr64 (a n : Nat) : Nat := if 64 ≤ n then 0 else a / 2 ^ n

/-- ADD. -/
def execRcAdd (d a b : Nat) (st : State) : Out := st.rcOp d a b (fun x y => w64 (x + y))
/-- SUB. -/
def execRcSub (d a b : Nat) (st : State) : Out := st.rcOp d a b (fun x y => w64 (x + (2 ^ 64 - y)))
/-- MUL. -/
def execRcMul (d a b : Nat) (st : State) : Out := st.rcOp d a b (fun x y => w64 (x * y))
/-- MULH. -/
def execRcMulh (d a b : Nat) (st : State) : Out := st.rcOp d a b (fun x y => cut 64 (s64 x * s64 y / (2 ^ 64 : Nat)))
/-- AND. -/
def execRcAnd (d a b : Nat) (st : State) : Out := st.rcOp d a b (· &&& ·)
/-- OR. -/
def execRcOr (d a b : Nat) (st : State) : Out := st.rcOp d a b (· ||| ·)
/-- XOR. -/
def execRcXor (d a b : Nat) (st : State) : Out := st.rcOp d a b (· ^^^ ·)
/-- SHL. -/
def execRcShl (d a b : Nat) (st : State) : Out := st.rcOp d a b shl64
/-- SHR. -/
def execRcShr (d a b : Nat) (st : State) : Out := st.rcOp d a b shr64
/-- SHA. -/
def execRcSha (d a b : Nat) (st : State) : Out := st.rcOp d a b (fun x n => cut 64 (s64 x / (2 ^ min n 64 : Nat)))
/-- SLT. -/
def execRcSlt (d a b : Nat) (st : State) : Out := st.rcOp d a b (fun x y => Bool.nat (decide (s64 x < s64 y)))
/-- SLTN. -/
def execRcSltn (d a b : Nat) (st : State) : Out := st.rcOp d a b (fun x y => Bool.nat (decide (x < y)))
/-- MIN. -/
def execRcMin (d a b : Nat) (st : State) : Out := st.rcOp d a b (fun x y => if s64 y < s64 x then y else x)
/-- MAX. -/
def execRcMax (d a b : Nat) (st : State) : Out := st.rcOp d a b (fun x y => if s64 x < s64 y then y else x)
/-- ADDI. -/
def execRcAddi (d a i : Nat) (st : State) : Out := st.rcImm d a (fun x => cut 64 (x + signExt 15 i))
/-- ANDI. -/
def execRcAndi (d a i : Nat) (st : State) : Out := st.rcImm d a (fun x => x &&& cut 64 (signExt 15 i))
/-- MOVK. -/
def execRcMovk (d a i : Nat) (st : State) : Out := st.rcImm d a (fun x => w64 (x * 2 ^ 15) ||| i)
/-- ORI. -/
def execRcOri (d a i : Nat) (st : State) : Out := st.rcImm d a (fun x => x ||| i)
/-- SHLI; an amount above 63 traps. -/
def execRcShli (d a i : Nat) (st : State) : Out := if 63 < i then .next (st.rcTrap 0x0C0) else st.rcImm d a (fun x => shl64 x i)
/-- SHRI; an amount above 63 traps. -/
def execRcShri (d a i : Nat) (st : State) : Out := if 63 < i then .next (st.rcTrap 0x0C0) else st.rcImm d a (fun x => shr64 x i)
/-- LI: 8 bytes. -/
def execRcLi (d ext : Nat) (st : State) : Out := .next ((st.setQ st.fcore d (cut 64 (signExt 32 ext))).rcNext st.fcore 8)
/-- LIH: 8 bytes. -/
def execRcLih (d ext : Nat) (st : State) : Out := .next ((st.setQ st.fcore d (ext % 2 ^ 32 * 2 ^ 32 + st.q st.fcore d % 2 ^ 32)).rcNext st.fcore 8)

/-- RDS (R238, R245). -/
def execRcRds (d i : Nat) (st : State) : Out :=
  .next (match srCause st.level i false with
    | some c => st.rcTrap c
    | none => st.rcPut d (st.srGet st.fcore i))

/-- WRS (R238, R245). -/
def execRcWrs (a i : Nat) (st : State) : Out :=
  .next (match srCause st.level i true with
    | some c => st.rcTrap c
    | none =>
      match st.srSet st.fcore i (st.q st.fcore a) with
      | .error c => st.rcTrap c
      | .ok t => t.rcNext st.fcore 4)

/-- RDFN (R245): c reads the count of register f, else its element e. -/
def execRcRdfn (d c e f : Nat) (st : State) : Out :=
  let ts := (st.rc st.fcore).fns.getD f []
  .next (st.rcPut d (if c = 1 then ts.length else match ts[e]? with | some t => t.1 + t.2 * 2 ^ 32 | none => 0))

end Sys2Proof.Machine
end

