-- ==== Sys2Proof/Machine/RcFlow.lean ====
section
/-! DEFINITION. Control flow of the RC, status reads, waits, traps, services and the end of a program (R148, R246 to R250). -/

namespace Sys2Proof.Machine

/-- A conditional branch. -/
def State.branch (s : State) (a b off : Nat) (p : Nat → Nat → Bool) : State :=
  let k := s.fcore
  if p (s.q k a) (s.q k b) then s.jump k (relTarget (s.rc k).pc 15 off) else s.rcNext k 4

/-- A jump to an address with a link of n bytes on; an unaligned target faults (R237). -/
def State.jumpTo (s : State) (d target n : Nat) : State :=
  let k := s.fcore
  if target % 4 ≠ 0 then s.rcFault k ⟨0x0CA, target, 0, false⟩ else (s.setQ k d ((s.rc k).pc + n)).jump k target

/-- BEQ. -/
def execRcBeq (a b o : Nat) (st : State) : Out := .next (st.branch a b o (fun x y => x == y))
/-- BNE. -/
def execRcBne (a b o : Nat) (st : State) : Out := .next (st.branch a b o (fun x y => x != y))
/-- BLT. -/
def execRcBlt (a b o : Nat) (st : State) : Out := .next (st.branch a b o (fun x y => decide (s64 x < s64 y)))
/-- BGE. -/
def execRcBge (a b o : Nat) (st : State) : Out := .next (st.branch a b o (fun x y => decide (s64 y ≤ s64 x)))
/-- BLTN. -/
def execRcBltn (a b o : Nat) (st : State) : Out := .next (st.branch a b o (fun x y => decide (x < y)))
/-- BGEN. -/
def execRcBgen (a b o : Nat) (st : State) : Out := .next (st.branch a b o (fun x y => decide (y ≤ x)))
/-- JMP. -/
def execRcJmp (o : Nat) (st : State) : Out := .next (st.jumpTo 0 (relTarget (st.rc st.fcore).pc 20 o) 4)
/-- JAL. -/
def execRcJal (d o : Nat) (st : State) : Out := .next (st.jumpTo d (relTarget (st.rc st.fcore).pc 20 o) 4)
/-- JR. -/
def execRcJr (d a : Nat) (st : State) : Out := .next (st.jumpTo d (st.q st.fcore a % 2 ^ 32) 4)
/-- JL: 8 bytes. -/
def execRcJl (d ext : Nat) (st : State) : Out := .next (st.jumpTo d ext 8)

/-- LOOP (R247). -/
def State.rcLoop (s : State) (c off : Nat) : State :=
  let k := s.fcore
  let r := s.rc k
  let target := relTarget r.pc 15 off
  if 2 ^ 32 ≤ s.q k c then s.rcTrap 0x0D1
  else if !s.inProgram k target then s.rcFault k ⟨0x0C9, target, 0, false⟩
  else if decodeRc (s.rcWordAt k target) 0 ≠ .rcEndl then s.rcTrap 0x0D0
  else if 4 ≤ r.loops.length then s.rcTrap 0x0D6
  else if s.q k c = 0 then s.modRc k (fun r => { r with pc := target + 4 })
  else s.modRc k (fun r => { r with pc := r.pc + 4, loops := { start := r.pc + 4, last := target, lc := s.q k c } :: r.loops })

/-- ENDL (R247). -/
def State.rcEndl (s : State) : State :=
  let k := s.fcore
  let r := s.rc k
  match r.loops with
  | [] => s.rcTrap 0x0D5
  | l :: rest =>
    let n := match l.pend with | some w => w - 1 | none => l.lc - 1
    if l.last ≠ r.pc then s.rcTrap 0x0D5
    else if n = 0 then s.modRc k (fun r => { r with pc := r.pc + 4, loops := rest })
    else s.modRc k (fun r => { r with pc := l.start, loops := { l with lc := n, pend := none } :: rest })

/-- LOOP: c the count register. -/
def execRcLoop (c o : Nat) (st : State) : Out := .next (st.rcLoop c o)
/-- ENDL. -/
def execRcEndl (st : State) : Out := .next st.rcEndl

/-! ## Status and waits (R248, R249) -/

/-- The communicator that a handle names at a core, where its node holds it. -/
def State.commAt (s : State) (k c : Nat) : Option Comm :=
  (aget (s.die (dieOf k % 4)).comms c).bind (fun v => if v.core = k ∧ v.node = (s.rc k).node ∧ !v.ended then some v else none)

/-- An acquire of the RC that a status gives; EXHAUST (0x056) faults. -/
def State.rcAcquire (s : State) (c : Clr) (f : State → State) : State :=
  match s.acquire s.fcore 8 c with
  | (t, .ok _) => f t
  | (_, .error e) => s.rcFault s.fcore e

/-- An RC acquires what the end of a collective or of a node has released, as `State.takeSet` says. -/
def State.rcTake (s : State) (c : Clr) (f : State → State) : State :=
  let r := s.takeSet s.fcore c
  match r.1.acquire s.fcore 8 r.2 with
  | (t, .ok _) => f t
  | (_, .error e) => s.rcFault s.fcore e

/-- BST (R248): s 0 copy engine, 1 communicator, 2 barrier i. A complete sample of an engine acquires; one of a barrier does not (R95, R115). -/
def State.rcBst (s : State) (d a sel i : Nat) : State :=
  let k := s.fcore
  match sel with
  | 0 =>
    if i ≠ 0 then s.rcTrap 0x0C0
    else
      let n := (s.copiesOf k (s.rc k).node).length
      let f := (s.core k).copyF
      let done := n == 0 && !f
      s.rcAcquire (if done then (s.core k).copyClr else []) (·.rcPut d (Bool.nat f * 2 ^ 17 + Bool.nat done * 2 ^ 16 + n))
  | 1 =>
    if i ≠ 0 then s.rcTrap 0x0C0
    else match s.commAt k (s.q k a) with
    | none => s.rcTrap 0x0A0
    | some c =>
      let n := (c.colls.filter (fun q => q.status % 4 == 0)).length
      let f := c.colls.any (fun q => bit q.status 1)
      let done := !f && (match c.colls.getLast? with | some q => bit q.status 0 | none => false)
      s.rcTake (if done then c.colls.foldl (fun l q => Clr.merge l q.clr) [] else []) (·.rcPut d (Bool.nat f * 2 ^ 17 + Bool.nat done * 2 ^ 16 + n))
  | 2 =>
    if s.barrierCount k ≤ i then s.rcTrap 0x071
    else
      let off := (s.barrierEntry k i).1
      match s.touch16 (s.agent k 8) k off false with
      | (_, .error f) => s.rcFault k f
      | (t, .ok _) => t.rcPut d (Memory.readNat t.mem (spadBase k + off) 8)
  | _ => s.rcTrap 0x0C0

/-- WAITE (R249). -/
def State.rcWaite (s : State) (d mask : Nat) : State :=
  let k := s.fcore
  let got := s.evBits k &&& mask
  if mask = 0 ∨ 64 ≤ mask then s.rcTrap 0x0C0
  else if got = 0 then s
  else (s.modRc k (fun r => { r with ev := r.ev - (r.ev &&& got) })).rcPut d got

/-- BST. -/
def execRcBst (d a s i : Nat) (st : State) : Out := .next (st.rcBst d a s i)
/-- WAITE. -/
def execRcWaite (d i : Nat) (st : State) : Out := .next (st.rcWaite d i)

/-! ## Traps, services, the end of a program (R148, R250) -/

/-- SYS (R250, R319): the service is posted, and the RC waits for its RETS. -/
def State.rcSys (s : State) (d a n : Nat) : State :=
  let k := s.fcore
  (s.post (s.partAt k) 2 (agentId k 48) (dieOf k) (leBytes 2 (agentId k 48) ++ leBytes 2 (s.nodeHandle (s.rc k).node) ++ leBytes 4 n ++ leBytes 8 (s.q k a)) false).modRc k
    (fun r => { r with mode := .sys d none })

/-- HALT (R250): waits for a running phase. -/
def State.rcHalt (s : State) : State :=
  let k := s.fcore
  if (s.rc k).inPhase then s else s.modRc k (fun r => { r with mode := if r.level = 0 then .halting else .stopped })

/-- Opcodes of row 0x60 that need manager level: SEALK, ATTEST, PART (R306). -/
def managerOps : List Nat := [0x67, 0x6C, 0x6E]

/-- An encoding that is no instruction (R148): an opcode of row 0x60 below its level is a privilege fault first (R306), and an index of row 0x40 that names no barrier is out of bounds (R260). -/
def State.rcIllegal (s : State) : State :=
  let op := bits s.word 31 25
  let idx := bits s.word 9 5
  if 0x48 ≤ op ∧ op ≤ 0x4A ∧ bits s.word 4 3 = 0 ∧ idx ≠ 31 ∧ s.barrierCount s.fcore ≤ idx then s.rcTrap 0x071
  else s.rcTrap (if (s.level = 0 ∧ 0x60 ≤ op ∧ op < 0x70) ∨ (s.level = 1 ∧ op ∈ managerOps) then 0x144 else 0x0C0)

/-- TRAP; a number above 7 is no encoding. -/
def execRcTrap (i : Nat) (st : State) : Out := .next (st.rcTrap (if i ≤ 7 then 0x0F8 + i else 0x0C0))
/-- SYS. -/
def execRcSys (d a i : Nat) (st : State) : Out := .next (st.rcSys d a i)
/-- HALT. -/
def execRcHalt (st : State) : Out := .next st.rcHalt
/-- RC_ILLEGAL_ENCODING. -/
def execRcIllegalEncoding (st : State) : Out := .next st.rcIllegal

end Sys2Proof.Machine
end

