-- ==== Sys2Proof/Machine/RcMem.lean ====
section
/-! DEFINITION. Scratchpad accesses, atomics and fences of the RC (R239, R242 to R244). -/

namespace Sys2Proof.Machine

/-- sr.far as a target: route tag and core, when it is enabled (R239). -/
def Rc.farTo (r : Rc) : Option (Nat × Nat) := if bit r.far 32 then some (bits r.far 31 16, bits r.far 15 6) else none

/-- The checks of a far access of n bytes: window 0x0, the target's bounds, alignment under a cause of its own (R102, R239, R243). -/
def State.farFail (s : State) (route core addr n align : Nat) : Option Fail :=
  if addr / 2 ^ 28 ≠ 0 then some ⟨0x044, addr, 0, false⟩
  else if s.farSize route core < addr + n then some ⟨0x049, addr, 0, false⟩
  else if addr % n ≠ 0 then some ⟨align, addr, 0, false⟩ else none

/-- A far access sets out; a load or atomic waits for its reply. It is outstanding until its completion or reply is back. -/
def State.farSend (s : State) (route : Nat) (wait : Bool) (qd : Nat) (r : RemoteReq) : State :=
  match s.sendRemote s.fcore route r with
  | .error c => s.rcFault s.fcore ⟨c, r.addr, 0, false⟩
  | .ok t =>
    let u := t.countRemote s.fcore 8 1
    if wait then u.modRc s.fcore (fun c => { c with mode := .remote qd }) else u.rcNext s.fcore 4

/-- Effective address of LD and ST (R242). -/
def rcAddr (q off : Nat) : Nat := cut 32 ((q : Int) + signExt 13 off)

/-- An instruction waits for the RC's own accesses; and such a wait is over (R322). -/
def State.rcWaits (s : State) (w : Bool) : State := s.modRc s.fcore (fun r => { r with waits := w })

/-- The RC's access to an address waits behind its own far access to the same bytes (R90). -/
def State.rcBehind (s : State) (addr n : Nat) : Bool := (s.touches s.fcore addr n false).any (fun h => s.behindOwn ⟨0, s.fcore, 8⟩ h.core h.off h.n)

/-- What the RC does with bytes of scratchpad once its own far accesses to any of them have performed (R90). -/
def State.rcOrdered (s : State) (addr n : Nat) (f : State → State) : State := if s.rcBehind addr n then s.rcWaits true else f (s.rcWaits false)

/-- LD (R242). -/
def State.rcLoad (s : State) (d a n off : Nat) : State :=
  let k := s.fcore
  let addr := rcAddr (s.q k a) off
  match (s.rc k).farTo with
  | some (route, core) =>
    let route := s.routeTag (s.partAt k) route
    match s.farFail route core addr n 0x04A with
    | some f => s.rcFault k f
    | none =>
      let g := s.agent k 8
      s.farSend route true d { (default : RemoteReq) with
        src := g.key
        oc := g.oc
        clr := g.clr
        dst := core
        addr := addr
        kind := .load
        size := n }
  | none =>
    s.rcOrdered addr n (fun s =>
      match s.load (s.agent k 8) k addr n n false with
      | (_, .error f) => s.rcFault k f
      | (t, .ok (b, _)) => (t.setQ k d (leNat b)).rcNext k 4)

/-- ST (R242). -/
def State.rcStore (s : State) (d a n off : Nat) : State :=
  let k := s.fcore
  let addr := rcAddr (s.q k a) off
  let bytes := leBytes n (s.q k d)
  let mask := List.replicate n (255 : Byte)
  match (s.rc k).farTo with
  | some (route, core) =>
    let route := s.routeTag (s.partAt k) route
    match s.farFail route core addr n 0x04A with
    | some f => s.rcFault k f
    | none =>
      let g := s.agent k 8
      s.farSend route false 0 { (default : RemoteReq) with
        src := g.key
        oc := g.oc
        clr := g.clr
        dst := core
        addr := addr
        kind := .store
        size := n
        bytes := bytes
        mask := mask }
  | none =>
    s.rcOrdered addr n (fun s =>
      match s.store (s.agent k 8) k addr bytes mask n false with
      | (t, .error f) => t.rcFault k f
      | (t, .ok _) => t.rcNext k 4)

/-- AMO and CAS (R243): z says 8 bytes; a release waits for the RC's remote stores (R100). -/
def State.rcAtomic (s : State) (d a b z order scope op : Nat) : State :=
  let k := s.fcore
  let n := if z = 1 then 8 else 4
  let addr := s.q k a % 2 ^ 32
  let x := s.q k b % 2 ^ (8 * n)
  let cmp := s.q k d % 2 ^ (8 * n)
  if 10 ≤ op then s.rcTrap 0x0C0
  else if order / 2 % 2 = 1 ∧ 0 < s.remoteOut k 8 then s.rcWaits true
  else let s := s.rcWaits false
  match (s.rc k).farTo with
  | some (route, core) =>
    let route := s.routeTag (s.partAt k) route
    match s.farFail route core addr n 0x07A with
    | some f => s.rcFault k f
    | none =>
      if !covers scope 0 k route core then s.rcFault k ⟨0x07C, addr, 0, false⟩
      else
        let r := s.relFor k 8 order
        r.1.farSend route true d { r.1.atomReq k 8 core addr n op x cmp order scope r.2 with qd := d }
  | none =>
    match halves k addr n 1 false with
    | .error f => s.rcFault k f
    | .ok [] => s.rcFault k ⟨0x044, addr, 0, false⟩
    | .ok (h :: _) =>
      if addr % n ≠ 0 then s.rcFault k ⟨0x07A, addr, 0, false⟩
      else if !covers scope 0 k 0 h.core then s.rcFault k ⟨0x07C, addr, 0, false⟩
      else if s.behindOwn ⟨0, k, 8⟩ h.core h.off n then s.rcWaits true
      else match s.atomicBy k 8 h.core h.off n op x cmp order scope with
      | (_, .error f) => s.rcFault k f
      | (t, .ok old) => (t.setQ k d old).rcNext k 4

/-- FENCE (R244). -/
def State.rcFence (s : State) (order : Nat) : State :=
  let k := s.fcore
  if order = 0 then s.rcTrap 0x0C0
  else if order / 2 % 2 = 1 ∧ 0 < s.remoteOut k 8 then s.rcWaits true
  else match (s.rcWaits false).fence k 8 order with
  | (_, .error f) => s.rcFault k f
  | (t, .ok _) => t.rcNext k 4

/-- LD: z codes the size. -/
def execRcLd (d a z o : Nat) (st : State) : Out := .next (st.rcLoad d a (2 ^ (3 - z)) o)
/-- ST: reads d as data. -/
def execRcSt (d a z o : Nat) (st : State) : Out := .next (st.rcStore d a (2 ^ (3 - z)) o)
/-- AMO: r order, s scope, p operation. -/
def execRcAmo (d a b z r s p : Nat) (st : State) : Out := .next (if p = 9 then st.rcTrap 0x0C0 else st.rcAtomic d a b z r s p)
/-- CAS. -/
def execRcCas (d a b z r s : Nat) (st : State) : Out := .next (st.rcAtomic d a b z r s 9)
/-- FENCE. -/
def execRcFence (r _s : Nat) (st : State) : Out := .next (st.rcFence r)

end Sys2Proof.Machine
end

