-- ==== Sys2Proof/Machine/RcPhase.lean ====
section
/-! DEFINITION. Phases as the RC runs them: configuration, iteration spaces, stream specifications, GO and what ends it, stream barriers, injection and
extraction, standing nodes (R57 to R59, R251 to R259). -/

namespace Sys2Proof.Machine

/-! ## What the RC reads in external memory (R335) -/

/-- An RC instruction meets a cause of external memory: a translation cause holds it, to be executed again from its start (DEDUCED, log 89); any other is its
fault. -/
def State.rcExtern (s : State) (c : Nat × Nat) : State :=
  let k := s.fcore
  if holdsAccess c.1 then (s.postRc k (externSev c.1) ⟨c.1, c.2, 0, false⟩).modRc k (fun r => { r with held := some c })
  else s.rcFault k ⟨c.1, c.2, 0, false⟩

/-! ## Configuration (R251) -/

/-- CFG queues a load. -/
def State.rcCfg (s : State) (ext : Nat) : State :=
  let k := s.fcore
  if (s.rc k).inPhase then s.rcTrap 0x0E5 else (s.modRc k (fun r => { r with loads := r.loads ++ [ext] })).rcNext k 8

/-- CFGW waits for the loads, and faults with the cause of a refused one. -/
def State.rcCfgw (s : State) (f : State → State) : State :=
  let r := s.rc s.fcore
  if r.loads ≠ [] then s
  else match r.refused with
  | some c => s.rcTrap c
  | none => f s

/-! ## Iteration spaces (R59, R252) -/

/-- Extents are within their bounds. -/
def spaceOk (es : List Nat) : Bool := es.all (fun e => decide (1 ≤ e) && decide (e ≤ 2 ^ 20)) && decide (es.foldl (· * ·) 1 ≤ 2 ^ 40)

def State.rcIter (s : State) (a n : Nat) : State :=
  let k := s.fcore
  let es := (List.range (n + 1)).map (fun j => s.q k (a + j))
  if 31 < a + n then s.rcTrap 0x0C0
  else if !spaceOk es then s.rcTrap 0x0E1
  else (s.modRc k (fun r => { r with space := es })).rcNext k 4

/-- Points of a space, and the coordinates of a point (R59). -/
def spaceSize (es : List Nat) : Nat := es.foldl (· * ·) 1
def coords : List Nat → Nat → List Nat
  | [], _ => []
  | e :: r, p => p % e :: coords r (p / e)

/-! ## Stream specifications (R253) -/

def SpecRec.f (x : SpecRec) (o n : Nat) : Nat := fld x.raw o n
def SpecRec.kind (x : SpecRec) : Nat := x.f 0 1
def SpecRec.port (x : SpecRec) : Nat := bits (x.f 1 1) 1 0
def SpecRec.cfg (x : SpecRec) : Nat := bits (x.f 1 1) 3 2
def SpecRec.cls (x : SpecRec) : Nat := bits (x.f 1 1) 7 4
def SpecRec.toks (x : SpecRec) : Nat := x.f 2 1
def SpecRec.num (x : SpecRec) : Nat := bits (x.f 3 1) 3 0
def SpecRec.packed (x : SpecRec) : Bool := bit (x.f 4 4) 0
def SpecRec.stride (x : SpecRec) (j : Nat) : Int := signExt 32 (x.f (16 + 4 * j) 4)
def SpecRec.cell (x : SpecRec) : Nat := cellOfHandle x.handle

/-- A routine of the region RGETs a ring. -/
def State.ringGot (s : State) (cores : List Nat) (r : Nat) : Bool :=
  cores.any (fun k => (s.routines k).any (fun i => match i with | .rget _ a _ _ => a == r | _ => false))

/-- The check of a specification: 0x0E3, or 0x0DB for MX data of external memory in bursts other than 2 (R51). -/
def State.specCause (s : State) (lead : Nat) (cores : List Nat) (x : SpecRec) : Option Nat :=
  let l := x.cell
  let w := s.portWord x.core l x.cfg x.port
  let f := pwFmt w
  let ring := s.ringEntry lead x.num
  if !cores.contains x.core || !(s.ctx x.core l x.cfg).loaded || !pwEn w || pwSrc w != agentId x.core l || decide (4 < x.kind) || decide (16 ≤ x.f 3 1)
    || decide (2 ≤ x.f 4 4) || x.f 0x29 23 != 0 || x.toks == 0 || decide (64 < x.toks) || x.toks % pwBurst w != 0
    || ((x.kind == 0 || x.kind == 4) && x.toks != 1)
    || (x.packed && ((x.kind != 1 && x.kind != 2) || f == .none || fmtWidth f == 32))
    || ((x.kind == 1 || x.kind == 4) && x.num != 15)
    || (x.kind == 2 && decide (7 < x.num))
    || (x.kind == 0 && x.num != 15 && decide (s.ringCount lead ≤ x.num))
    || (x.kind == 3 && (decide (s.ringCount lead ≤ x.num) || x.toks * 64 != ring.2.2 || s.ringGot cores x.num))
    || (if x.kind = 4 then x.f 0x24 4 == 0 || x.f 0x24 4 % 64 != 0 else x.f 0x24 4 != 0)
  then some 0x0E3
  else if x.kind = 2 ∧ isMX f ∧ pwBurst w ≠ 2 then some 0x0DB
  else none

/-- SPEC: d is the memory cell's handle. DEDUCED (log 106): a nonzero d[4:3] faults with the 0x0E3 that R253 names for it, not with R148's 0x0C0. -/
def State.rcSpec (s : State) (d ext : Nat) : State :=
  let k := s.fcore
  if 8 ≤ d then s.rcTrap 0x0E3
  else match s.readVA k (s.partAt k) ((s.rc k).image + ext) 64 with
  | (t, .error c) => t.rcExtern c
  | (t, .ok b) =>
    let x : SpecRec := ⟨k + fld b 0x28 1, d, b⟩
    let cores := t.regionCores k
    if 64 ≤ fld b 0x28 1 then t.rcTrap 0x0E3
    else match t.specCause k cores x with
    | some c => t.rcTrap c
    | none => (t.modRc k (fun r => { r with specs := r.specs.filter (fun y => !(y.core == x.core && y.handle == x.handle)) ++ [x] })).rcNext k 8

/-! ## GO and the ends of a phase (R58, R94, R95, R255, R288) -/

/-- A clearance set without the counts of a region's memory cells. -/
def dropClr (cores : List Nat) (c : Clr) : Clr := c.filter (fun e => !(e.1.route == 0 && cores.contains e.1.core && decide (e.1.handle < 8)))

def Ord.without (o : Ord) (cores : List Nat) : Ord := { o with clr := dropClr cores o.clr, frel := o.frel.map (dropClr cores), seen := dropClr cores o.seen }

/-- At GO the counts of a region's memory cells begin at 0, and what was held of them is void. -/
def Core.restartOrds (c : Core) (cores : List Nat) (mine : Bool) : Core :=
  let set (m : Assoc Clr) : Assoc Clr := m.map (fun (e : Nat × Clr) => (e.1, dropClr cores e.2))
  { c with
    ords := c.ords.map (fun (e : Nat × Ord) => (e.1, let o := e.2.without cores; if mine && decide (e.1 < 8) then { o with oc := 0 } else o))
    sync := c.sync.map (fun (e : Nat × Sync) => (e.1, { e.2 with clr := dropClr cores e.2.clr }))
    tbClr := set c.tbClr
    ringClr := set c.ringClr
    copyClr := dropClr cores c.copyClr
    rphase := if mine then c.rphase + 1 else c.rphase }

/-- The EOS counts, fwd states and sink counts of a port, context, cell (R288). -/
def Port.restart (p : Port) : Port := { p with eosN := 0, eos := false, eosArr := 0 }
def Ctx.restart (c : Ctx) : Ctx := { c with ports := c.ports.map Port.restart, sink := 0, posted := false, fwd := false }
def Cell.restart (c : Cell) : Cell := { c with ctxs := c.ctxs.map Ctx.restart, gen := {} }
def Core.restart (c : Core) : Core :=
  { c with
    cells := c.cells.map (fun (e : Nat × Cell) => (e.1, e.2.restart))
    matrix := { c.matrix with ports := c.matrix.ports.map Port.restart, fwd := false }
    hists := c.hists.map (fun (e : Nat × Hist) => (e.1, { e.2 with eos := false, posted := false })) }

/-- The memory cells of a region acquire a set (R94, R103). -/
def State.cellsAcquire (s : State) (cores : List Nat) (c : Clr) : Did Unit :=
  cores.foldl (fun (acc : Did Unit) k => (List.range 8).foldl (fun (acc : Did Unit) h =>
    match acc with
    | (t, .ok _) => t.acquire k h c
    | e => e) acc) (s, .ok ())

/-- A phase begins: GO is a release toward the region's streams. -/
def State.startPhase (s : State) (k : Nat) : Did Unit :=
  let cores := s.regionCores k
  let r := s.release k 8
  let s1 := r.1
  let s2 := { s1 with cores := s1.cores.map (fun (e : Nat × Core) => (e.1, (if cores.contains e.1 then e.2.restart else e.2).restartOrds cores (cores.contains e.1))) }
  let s3 := (s2.rc k).specs.foldl (fun s x => s.modCell x.core x.cell (fun c => { c with gen := { on := true } })) s2
  let s4 := s3.modRc k (fun r => { r with
    phase := r.phase + 1
    inPhase := true
    aborting := false
    residue := false
    ended := 0
    word := (r.phase + 1) % 2 ^ 16 * 2 ^ 32
    poisonP := 0
    barc := [] })
  s4.cellsAcquire cores (dropClr cores r.2)

/-- GO. -/
def State.rcGo (s : State) : State :=
  let k := s.fcore
  s.rcCfgw (fun s =>
    if (s.rc k).inPhase || !(s.rc k).applied then s.rcTrap 0x0E5
    else match s.startPhase k with
    | (t, .ok _) => t.rcNext k 4
    | (_, .error f) => s.rcFault k f)

/-- WAITR. -/
def State.rcWaitr (s : State) (d : Nat) : State := if (s.rc s.fcore).inPhase then s else s.rcPut d (s.rc s.fcore).word

/-- ABORTR: the generators stop and no further task is dispatched; the phase ends once what was dispatched has completed. -/
def State.rcAbortr (s : State) : State :=
  let k := s.fcore
  (if (s.rc k).inPhase then s.modRc k (fun r => { r with aborting := true }) else s).rcNext k 4

/-! ## Stream barriers (R256) -/

/-- The memory cells of the lead core that a mask selects. -/
def barcCells (mask : Nat) : List Nat := (List.range 8).filter (bit mask)

/-- The point is reached by all: each cell releases, and merges the sets of all. -/
def State.barcMerge (s : State) (k mask : Nat) : Did Unit :=
  let r := (barcCells mask).foldl (fun (acc : State × Clr) h => let q := acc.1.release k h; (q.1, Clr.merge acc.2 q.2)) (s, [])
  (barcCells mask).foldl (fun (acc : Did Unit) h => match acc with
    | (t, .ok _) => t.acquire k h r.2
    | e => e) (r.1, .ok ())

/-- A generator still has requests to make. -/
def Gen.live (g : Gen) : Bool := g.on && !g.eos

/-- BARC. -/
def State.rcBarc (s : State) (a : Nat) : State :=
  let k := s.fcore
  let m := s.q k a
  if 256 ≤ m then s.rcTrap 0x0E3
  else if (barcCells m).any (fun h => (s.cell k (cellOfHandle h)).gen.live) then
    ((barcCells m).foldl (fun s h => s.modCell k (cellOfHandle h) (fun c => { c with gen := { c.gen with barc := c.gen.barc ++ [m] } })) s
      |>.modRc k (fun r => { r with barc := r.barc ++ [m] })).rcNext k 4
  else match s.barcMerge k m with
    | (t, .ok _) => t.rcNext k 4
    | (_, .error f) => s.rcFault k f

/-! ## Injection and extraction (R257, R258) -/

/-- The header of a token (R27). -/
def tokenHeader (t : Token) : Nat :=
  let kind := match t.kind with | .data => 0 | .eos => 1 | .mark => 2 | .notice => 3
  t.reg.valid.toNat + t.cls * 2 ^ 16 + t.cfg * 2 ^ 20 + t.frame * 2 ^ 22 + t.iter.toNat * 2 ^ 32 + fmtCode t.reg.fmt * 2 ^ 48 + Bool.nat t.reg.p * 2 ^ 52
    + kind * 2 ^ 53 + Bool.nat t.b * 2 ^ 55 + t.reg.xs * 2 ^ 56 + t.reg.origin * 2 ^ 64 + t.route * 2 ^ 80

/-- The 64-byte payload of a token, and the lanes that 64 bytes hold in a format (R28). -/
def payload (r : Reg) : List Byte := (List.range 16).flatMap (fun i => leBytes 4 (laneOf r i))
def lanesOf (f : Fmt) (b : List Byte) : List W32 := (List.range 16).map (fun i => BitVec.ofNat 32 (narrow f (fld b (4 * i) 4)))

/-- Where an INJ header leads, when it may (R257). -/
def State.injDest (s : State) (k h : Nat) : Option Dest :=
  let id := bits h 15 0
  let ab := reloc k id
  let d : Dest := ⟨ab / 64, ab % 64, bits h 19 18, bits h 17 16⟩
  let w := s.portWord d.core d.loc d.ctx d.port
  let inRegion : Bool := match s.regionAt k with | some g => idOk g id | none => decide (id < 64)
  if bits h 63 62 = 0 ∧ bits h 41 40 ≠ 3 ∧ !(bits h 41 40 == 2 && bits h 23 20 == 0) ∧ inRegion ∧ d.loc < 32 ∧ (s.ctx d.core d.loc d.ctx).loaded ∧ pwEn w
      ∧ pwSrc w = agentId k 48 then some d
  else none

/-- The token of an INJ header and payload; `xs` is the scale of an MX token, which the header does not give (log 20). -/
def injToken (h : Nat) (b : List Byte) (first : Bool) (xs : Nat) : Token :=
  let f := fmtOf (bits h 45 42)
  let kind : TKind := match bits h 41 40 with | 0 => .data | 1 => .eos | _ => .mark
  ⟨⟨lanesOf f b, BitVec.ofNat 16 (bits h 61 46), f, false, 0, if isMX f && first then xs % 256 else 0⟩, 0, kind == .data && first, kind,
    BitVec.ofNat 16 (bits h 39 24), 0, bits h 19 18, bits h 23 20⟩

/-- INJ. The FIFO of a port that holds tokens may or may not have room (log 20). -/
def State.rcInj (s : State) (d a b : Nat) : State :=
  let k := s.fcore
  let h := s.q k a
  match s.injDest k h with
  | none => s.rcTrap 0x0C4
  | some p => s.rcOrdered (s.q k b % 2 ^ 32) 64 (fun s =>
      match s.load (s.agent k 8) k (s.q k b % 2 ^ 32) 64 64 false with
      | (_, .error f) => s.rcFault k f
      | (t, .ok (bs, _)) =>
        let q := t.port p.core p.loc p.ctx p.port
        let x := t.free
        let y := x.2.free
        if q.fifo.isEmpty || x.1 % 2 == 0 then (y.2.reach p (edgeKey k 48 0 0) (injToken h bs (q.got == 0) y.1) []).rcPut d 1
        else y.2.rcPut d 0)

/-- XTR. -/
def State.rcXtr (s : State) (d a : Nat) : State :=
  let k := s.fcore
  match (s.rc k).extract with
  | [] => s.rcPut d (2 ^ 64 - 1)
  | (_, t) :: rest => s.rcOrdered (s.q k a % 2 ^ 32) 80 (fun s =>
      match s.store (s.agent k 8) k (s.q k a % 2 ^ 32) (payload t.reg ++ leBytes 16 (tokenHeader t)) (List.replicate 80 255) 64 false with
      | (u, .error f) => u.rcFault k f
      | (u, .ok _) => (u.modRc k (fun r => { r with extract := rest })).rcPut d (tokenHeader t % 2 ^ 64))

/-! ## Instructions -/

/-- CFG: 8 bytes. -/
def execRcCfg (ext : Nat) (st : State) : Out := .next (st.rcCfg ext)
/-- CFGW. -/
def execRcCfgw (st : State) : Out := .next (st.rcCfgw (fun s => s.rcNext s.fcore 4))
/-- ITER: n is dims − 1. -/
def execRcIter (a n : Nat) (st : State) : Out := .next (st.rcIter a n)
/-- SPEC: 8 bytes. -/
def execRcSpec (d ext : Nat) (st : State) : Out := .next (st.rcSpec d ext)
/-- GO. -/
def execRcGo (st : State) : Out := .next st.rcGo
/-- WAITR. -/
def execRcWaitr (d : Nat) (st : State) : Out := .next (st.rcWaitr d)
/-- PSTAT. -/
def execRcPstat (d : Nat) (st : State) : Out := .next (st.rcPut d (st.rc st.fcore).word)
/-- ABORTR. -/
def execRcAbortr (st : State) : Out := .next st.rcAbortr
/-- BARC. -/
def execRcBarc (a : Nat) (st : State) : Out := .next (st.rcBarc a)
/-- INJ. -/
def execRcInj (d a b : Nat) (st : State) : Out := .next (st.rcInj d a b)
/-- XTR. -/
def execRcXtr (d a : Nat) (st : State) : Out := .next (st.rcXtr d a)

end Sys2Proof.Machine
end

