-- ==== Sys2Proof/Machine/RcCopy.lean ====
section
/-! DEFINITION. Copies (R260 to R262), transaction barriers as the RC uses them (R111, R112, R263), and publication (R105 to R108, R264); a sector of a copy as
it lands (R113, R114). -/

namespace Sys2Proof.Machine

/-! ## Issue (R260) -/

/-- The lowest number at which a core holds no copy. -/
def Core.copyId (c : Core) : Nat := ((List.range 65).find? (fun i => (aget c.copies i).isNone)).getD 64

/-- A copy enters the copy engine: the issue is a release by the RC (R113). -/
def State.startCopy (s : State) (k : Nat) (c : Copy) : State :=
  let r := s.release k 8
  match r.1.acquire k 9 r.2 with
  | (_, .error f) => s.rcFault k f
  | (t, .ok _) => (t.modCore k (fun o => { o with copies := aset o.copies o.copyId c })).rcNext k 4

/-- The checks that every copy makes at issue: its barrier index, its entry, its operand (R105, R260); `n` bytes from `off` are known to be touched. -/
def State.copyCause (s : State) (t p : Nat) (out : Bool) (off n : Nat) : Option Fail :=
  let k := s.fcore
  let o := s.operand (s.rc k).node p
  if t ≠ 31 ∧ s.barrierCount k ≤ t then some ⟨0x071, 0, 0, false⟩
  else if 64 ≤ (s.core k).copies.length then some ⟨0x086, 0, 0, false⟩
  else match o.check out off n 64 with
  | .error c => some ⟨c, o.start + off, 0, false⟩
  | .ok _ => none

/-- A window that a copy may use, for n bytes (R82, R83, R260). -/
def spadCause (k addr n : Nat) : Option Fail := match halves k addr n 4 false with | .error f => some f | .ok _ => none

/-- CPY. -/
def State.rcCpy (s : State) (r a b t p : Nat) : State :=
  let k := s.fcore
  let n := s.q k b % 2 ^ 32
  let off := s.q k b / 2 ^ 32 * 64
  let addr := s.q k a % 2 ^ 32
  if t ≠ 31 ∧ s.barrierCount k ≤ t then s.rcTrap 0x071
  else if n = 0 then s.rcNext k 4
  else match s.copyCause t p (r == 1) off (64 * n) with
  | some f => s.rcFault k f
  | none =>
    match spadCause k addr (64 * n) with
    | some f => s.rcFault k f
    | none => s.startCopy k { kind := 0, out := r == 1, node := (s.rc k).node, op := p, tb := t, spad := addr, off := off, n := n, ring := 0, desc := 0 }

/-- The copy of a core's engine with a number. -/
def State.modCopy (s : State) (k i : Nat) (f : Copy → Copy) : State :=
  s.modCore k (fun o => { o with copies := match aget o.copies i with | some c => aset o.copies i (f c) | none => o.copies })

/-- Tile and sector of a copy's record (R341). -/
def Copy.tag (c : Copy) : Nat := c.tile % 2 ^ 20 * 2 ^ 12 + c.pos % 2 ^ 12

/-- A copy fails (R114), and its node terminates. It is in flight until its record is visible: then F sets in its status and in its barrier (R115). -/
def State.failCopy (s : State) (k i : Nat) (f : Fail) : State :=
  match aget (s.core k).copies i with
  | none => s
  | some c => (s.modCopy k i (fun c => { c with failed := some (s.nextSeq (agentId k 49) - Bool.nat f.posted) })).engineFault k 49 2 f c.tag

/-- A slot that the copy engine has reserved or taken joins a ring copy: it acquires what the slot's set holds (R103, R113, R196). -/
def State.joinSlot (s : State) (k i slot : Nat) : State :=
  match aget (s.core k).copies i with
  | none => s
  | some c =>
    match (match s.ringTouch k 9 k c.ring with | (t, .ok _) => t.acquire k 9 (s.slotClr k c.ring slot) | r => r) with
    | (_, .error f) => s.failCopy k i f
    | (t, .ok _) => t.modCopy k i (fun c => { c with slots := c.slots ++ [slot], started := c.started + 1 })

/-- A ring copy that may start another tile. -/
def Copy.wants (c : Copy) (out : Bool) : Bool := c.kind == 1 && c.out == out && !c.stopped && !c.frozen && c.failed.isNone && decide (c.started < c.n)

/-- Copy i reserves slots of its ring, up to n of them. -/
def State.reserveSlots (s : State) (k i : Nat) : Nat → State
  | 0 => s
  | n + 1 =>
    match aget (s.core k).copies i with
    | none => s
    | some c =>
      if !c.wants false then s
      else match s.ringReserve k c.ring with
      | none => s
      | some (slot, t) => (t.joinSlot k i slot).reserveSlots k i n

/-- CPYR: a is the ring. A ring of no tiles moves nothing. A copy into a ring reserves at once what it can. -/
def State.rcCpyr (s : State) (r a b t p : Nat) : State :=
  let k := s.fcore
  let n := s.q k b % 2 ^ 32
  let off := s.q k b / 2 ^ 32 * 64
  let size := (s.ringEntry k a).2.2
  if t ≠ 31 ∧ s.barrierCount k ≤ t then s.rcTrap 0x071
  else if s.ringCount k ≤ a then s.rcTrap 0x0C0
  else match s.copyCause t p (r == 1) off (n * size) with
  | some f => s.rcFault k f
  | none =>
    if n = 0 then s.rcNext k 4
    else
      let c : Copy := { kind := 1, out := r == 1, node := (s.rc k).node, op := p, tb := t, spad := 0, off := off, n := n, ring := a, desc := 0 }
      if r = 1 then s.startCopy k c
      else ((s.modRc k (fun x => { x with fedBy := x.fedBy.set a true })).startCopy k c).reserveSlots k (s.core k).copyId n

/-- CPYG, CPYX, CPYS: the descriptor's address is checked at issue, and what it holds is read by the engine (R261). -/
def State.rcCpyRows (s : State) (kind a b t p : Nat) : State :=
  let k := s.fcore
  let addr := s.q k a % 2 ^ 32
  let desc := s.q k b % 2 ^ 32
  match s.copyCause t p (kind == 4) 0 0 with
  | some f => s.rcFault k f
  | none =>
    match spadCause k addr 0 with
    | some f => s.rcFault k f
    | none =>
      match halves k desc 32 32 false with
      | .error f => s.rcFault k f
      | .ok _ => s.startCopy k { kind := kind, out := kind == 4, node := (s.rc k).node, op := p, tb := t, spad := addr, off := 0, n := 0, ring := 0, desc := desc }

/-! ## A sector (R107, R112 to R114, R261) -/

/-- A copy completes: what it did is released to those that see the engine's status (R103, R115). -/
def State.endCopy (s : State) (k i : Nat) : State :=
  let r := s.release k 9
  r.1.modCore k (fun o => { o with copies := adel o.copies i, copyClr := Clr.merge o.copyClr r.2 })

/-- What one move of a copy comes to: done, its failure, or a cause of external memory with its VA. -/
inductive Moved where
  | ok (s : State)
  | fail (s : State) (f : Fail)
  | ext (s : State) (c : Nat × Nat)

/-- 64 bytes between the buffer and scratchpad. -/
def State.moveSector (s : State) (k : Nat) (c : Copy) (off addr : Nat) : Moved :=
  let o := s.operand c.node c.op
  match o.check c.out off 64 64 with
  | .error e => .fail s ⟨e, o.start + off, 0, false⟩
  | .ok _ =>
    if c.out then
      match s.load (s.agent k 9) k addr 64 4 false with
      | (t, .error f) => .fail t f
      | (t, .ok (b, _)) =>
        match t.writeOp k c.node c.op off b (List.replicate 64 255) false with
        | (u, .error e) => .ext u e
        | (u, .ok _) => .ok u
    else
      match s.readOp k c.node c.op off 64 with
      | (t, .error e) => .ext t e
      | (t, .ok b) =>
        match t.store (t.agent k 9) k addr b (List.replicate 64 255) 4 false with
        | (u, .error f) => .fail u f
        | (u, .ok _) => .ok u

/-- The landed sector counts on the copy's barrier (R111, R113). -/
def State.landed (s : State) (k : Nat) (c : Copy) : Did Unit :=
  if c.tb = 31 then (s, .ok ())
  else
    let off := (s.barrierEntry k c.tb).1
    let r := s.release k 9
    match r.1.touch16 (s.agent k 9) k off true with
    | (_, .error f) => (s, .error f)
    | (t, .ok _) => t.tbSectors k off 1 r.2

/-- A sector moves and lands. -/
def State.sector (s : State) (k : Nat) (c : Copy) (off addr : Nat) : Moved :=
  match s.moveSector k c off addr with
  | .ok t => match t.landed k c with
    | (u, .ok _) => .ok u
    | (u, .error f) => .fail u f
  | m => m

/-- A 4-byte access of the copy engine to scratchpad. -/
def State.engineWord (s : State) (k addr : Nat) : Did Nat :=
  match s.load (s.agent k 9) k addr 4 4 false with
  | (t, .error f) => (t, .error f)
  | (t, .ok (b, _)) => (t, .ok (leNat b))
def State.enginePut (s : State) (k addr v : Nat) : Did Unit := s.store (s.agent k 9) k addr (leBytes 4 v) (List.replicate 4 255) 4 false

/-- Rows that a mask of n bits selects. -/
def State.maskCount (s : State) (k addr : Nat) : Nat → Did Nat
  | 0 => (s, .ok 0)
  | n + 1 =>
    match s.maskCount k addr n with
    | (t, .error f) => (t, .error f)
    | (t, .ok m) =>
      match t.engineWord k (addr + 4 * (n / 32)) with
      | (u, .error f) => (u, .error f)
      | (u, .ok w) => (u, .ok (m + Bool.nat (bit w (n % 32))))

/-- What a row copy's descriptor names lies in scratchpad before any row moves (R260, R261): its mask and list, or its indices, and the rows' places there;
and its offset and pitch are aligned. The result is the copy's failure, if any. -/
def State.rowCause (s : State) (k : Nat) (c : Copy) : State × Option Fail :=
  let o := s.operand c.node c.op
  let worst (l : List (Option Fail)) : Option Fail := l.findSome? id
  if c.rowB = 0 ∨ c.rowB % 64 ≠ 0 ∨ c.off % 64 ≠ 0 ∨ c.pitch % 64 ≠ 0 then (s, some ⟨0x05A, o.start + c.off, 0, false⟩)
  else if c.kind ≠ 2 then (s, worst [spadCause k c.aux (4 * c.n), spadCause k c.spad (c.n * c.rowB)])
  else match spadCause k c.aux (4 * ((c.n + 31) / 32)) with
  | some f => (s, some f)
  | none =>
    match s.maskCount k c.aux c.n with
    | (t, .error f) => (t, some f)
    | (t, .ok m) => (t, worst [spadCause k c.list (4 * m), spadCause k c.spad (m * c.rowB)])

/-- The engine reads a row copy's descriptor, and checks all that it names (R260, R261). A pitch of 0 without a shape record leaves the pitch open (log 21). -/
def State.readDesc (s : State) (k i : Nat) (c : Copy) : Moved :=
  match s.load (s.agent k 9) k c.desc 32 4 false with
  | (t, .error f) => .fail t f
  | (t, .ok (b, _)) =>
    let rowB := fld b 4 4
    let off := fld b 8 8
    match t.shapeOf k (agentId k 49) c.node c.op with
    | (u, .error e) => .ext u e
    | (u, .ok sh) =>
      let p : Nat × State := if fld b 0x18 4 ≠ 0 then (fld b 0x18 4, u) else match sh with | some x => (x.pitch, u) | none => u.free
      let d : Copy := { c with n := fld b 0 4, rowB := rowB, off := off, aux := fld b 0x10 4, list := fld b 0x14 4, pitch := p.1, started := 1 }
      match p.2.rowCause k d with
      | (v, some f) => .fail v f
      | (v, none) => .ok (v.modCopy k i (fun _ => d))

/-- The failure of a row that does not lie within the buffer (R261). -/
def State.rowFail (s : State) (c : Copy) (row : Nat) : Option Fail :=
  let o := s.operand c.node c.op
  match o.check c.out (c.off + row * c.pitch) c.rowB 64 with
  | .error e => some ⟨e, o.start + c.off + row * c.pitch, 0, false⟩
  | .ok _ => none

/-- A sector of row `row` as it goes to, or comes from, place `place` of the scratchpad; the row is looked at before any of it is touched. -/
def State.rowSector (s : State) (k i : Nat) (c : Copy) (row place : Nat) : Moved :=
  match s.rowFail c row with
  | some f => .fail s f
  | none =>
  match s.sector k c (c.off + row * c.pitch + 64 * c.pos) (c.spad + place * c.rowB + 64 * c.pos) with
  | .ok t => .ok (t.modCopy k i (fun c =>
      if 64 * (c.pos + 1) = c.rowB then { c with pos := 0, tile := c.tile + 1, picked := c.picked + 1 } else { c with pos := c.pos + 1 }))
  | m => m

/-- One move of CPYG, CPYX or CPYS. -/
def State.moveRow (s : State) (k i : Nat) (c : Copy) : Moved :=
  if c.started = 0 then s.readDesc k i c
  else if c.n ≤ c.tile then
    if c.kind = 2 then
      match s.enginePut k (c.desc + 0x1C) c.picked with
      | (t, .ok _) => .ok (t.endCopy k i)
      | (t, .error f) => .fail t f
    else .ok (s.endCopy k i)
  else if c.kind = 2 then
    match s.engineWord k (c.aux + 4 * (c.tile / 32)) with
    | (t, .error f) => .fail t f
    | (t, .ok w) =>
      if !bit w (c.tile % 32) then .ok (t.modCopy k i (fun c => { c with tile := c.tile + 1 }))
      else
        let u : Did Unit := match t.rowFail c c.tile with
          | some f => (t, .error f)
          | none => if c.pos = 0 then t.enginePut k (c.list + 4 * c.picked) c.tile else (t, .ok ())
        match u with
        | (v, .error f) => .fail v f
        | (v, .ok _) => v.rowSector k i c c.tile c.picked
  else
    match s.engineWord k (c.aux + 4 * c.tile) with
    | (t, .error f) => .fail t f
    | (t, .ok idx) => t.rowSector k i c idx c.tile

/-- One move of a ring copy on the slot at its head: publication into the ring, or the free of a slot out of it, once the tile has landed. -/
def State.moveRing (s : State) (k i : Nat) (c : Copy) : Moved :=
  let e := s.ringEntry k c.ring
  match c.slots with
  | [] => .ok s
  | slot :: rest =>
    match s.sector k c (c.off + c.tile * e.2.2 + 64 * c.pos) (e.1 + slot * e.2.2 + 64 * c.pos) with
    | .ok t =>
      if 64 * (c.pos + 1) < e.2.2 then .ok (t.modCopy k i (fun c => { c with pos := c.pos + 1 }))
      else
        let r := t.release k 9
        let u := if c.out then r.1.ringFree k c.ring slot r.2 else r.1.ringPublish k c.ring slot r.2
        let v := u.modCopy k i (fun c => { c with pos := 0, tile := c.tile + 1, slots := rest })
        .ok (if c.tile + 1 = c.n then v.endCopy k i else v)
    | m => m

/-- One move of CPY. The engine reads the buffer's shape record before the first (R338). -/
def State.moveLine (s : State) (k i : Nat) (c : Copy) : Moved :=
  match s.sector k c (c.off + 64 * c.pos) (c.spad + 64 * c.pos) with
  | .ok t => .ok (if c.pos + 1 = c.n then t.endCopy k i else t.modCopy k i (fun c => { c with pos := c.pos + 1 }))
  | m => m

/-- The copy engine has the shape record of the buffer, which it reads when it first uses it (R338). -/
def State.withShape (s : State) (k : Nat) (c : Copy) (f : State → Moved) : Moved :=
  match s.shapeOf k (agentId k 49) c.node c.op with
  | (t, .error e) => .ext t e
  | (t, .ok _) => f t

/-- Offset in the buffer of the sector that a copy moves next; none where its engine has still to read the descriptor. -/
def State.copyOff (s : State) (k : Nat) (c : Copy) : Option Nat :=
  match c.kind with
  | 0 => some (c.off + 64 * c.pos)
  | 1 => some (c.off + c.tile * (s.ringEntry k c.ring).2.2 + 64 * c.pos)
  | _ =>
    if c.started = 0 then none
    else some (c.off + (if c.kind = 2 then c.tile else Memory.readNat s.mem (spadBase k + c.aux + 4 * c.tile) 4) * c.pitch + 64 * c.pos)

/-- A copy's transfer meets an uncorrectable error: the storage tile that it fills from is quarantined (R354). -/
def State.damageCopy (s : State) (k : Nat) (c : Copy) : State :=
  match s.copyOff k c with
  | some off => let o := s.operand c.node (s.sameBuf c.node c.op); s.quarantine k (s.partOfNode c.node) (o.place ((o.start + off) / 2048))
  | none => s

/-- A copy moves on: SECTOR_LANDING (R111, R113, R114). `damaged` says that its transfer meets an uncorrectable error. -/
def State.copyTurn (s : State) (k i : Nat) (damaged : Bool) : State :=
  match aget (s.core k).copies i with
  | none => s
  | some c =>
    if c.frozen || c.failed.isSome || c.held.isSome then s
    else if damaged then (s.damageCopy k c).failCopy k i ⟨0x087, 0, 0, false⟩
    else
      let m := s.withShape k c (fun s => match c.kind with | 0 => s.moveLine k i c | 1 => s.moveRing k i c | _ => s.moveRow k i c)
      match m with
      | .ok t => t
      | .fail t f => t.failCopy k i f
      | .ext t e =>
        if holdsAccess e.1 then (t.postFault (externSev e.1) 2 k 49 e.1 e.2 0 c.tag).modCopy k i (fun c => { c with held := some e })
        else t.failCopy k i ⟨e.1, e.2, 0, false⟩

/-! ## CPST (R262) -/

/-- A stopped copy: a ring copy finishes the tiles that it has started, any other has finished its sector. -/
def State.stopCopy (s : State) (k i : Nat) (c : Copy) : State :=
  if c.kind = 1 ∧ c.slots ≠ [] then s.modCopy k i (fun c => { c with stopped := true, n := c.tile + c.slots.length }) else s.endCopy k i

def State.rcCpst (s : State) (d t : Nat) : State :=
  let k := s.fcore
  let cs := (s.copiesOf k (s.rc k).node).filter (fun c => !c.2.stopped && (t == 31 || c.2.tb == t))
  if t ≠ 31 ∧ s.barrierCount k ≤ t then s.rcTrap 0x071
  else (cs.foldl (fun s c => s.stopCopy k c.1 c.2) s).rcPut d cs.length

/-! ## Barriers (R263) -/

/-- The barrier that an index names: 0x071 where it names none, 0x0C0 where it is 31. -/
def State.onBarrier (s : State) (t : Nat) (f : Nat → State) : State :=
  if t = 31 then s.rcTrap 0x0C0 else if s.barrierCount s.fcore ≤ t then s.rcTrap 0x071 else f (s.barrierEntry s.fcore t).1

/-- TBI. -/
def State.rcTbi (s : State) (a t : Nat) : State :=
  let k := s.fcore
  s.onBarrier t (fun off =>
    if 2 ^ 20 ≤ s.q k a then s.rcTrap 0x071
    else if (s.copiesOf k (s.rc k).node).any (fun c => c.2.tb == t) then s.rcTrap 0x075
    else match s.touch16 (s.agent k 8) k off true with
    | (_, .error f) => s.rcFault k f
    | (u, .ok _) => (u.initBarrier k t (s.q k a)).rcNext k 4)

/-- TBEX: q[a], as signed, is added to sectors. -/
def State.rcTbex (s : State) (a t : Nat) : State :=
  let k := s.fcore
  s.onBarrier t (fun off =>
    let r := s.release k 8
    match r.1.touch16 (s.agent k 8) k off true with
    | (_, .error f) => s.rcFault k f
    | (u, .ok _) =>
      match u.tbSectors k off (-(signExt 64 (s.q k a))) r.2 with
      | (_, .error f) => s.rcFault k f
      | (v, .ok _) => v.rcNext k 4)

/-- TBW waits for a phase other than the reference; the wait sets W. -/
def State.rcTbw (s : State) (t : Nat) : State :=
  let k := s.fcore
  s.onBarrier t (fun off =>
    let b := Bar.read s.mem (spadBase k + off)
    if b.f || b.d then s.rcTrap 0x075
    else if b.phase = (s.rc k).refs.getD t 0 then
      if b.w then s
      else match s.touch16 (s.agent k 8) k off true with
      | (_, .error f) => s.rcFault k f
      | (u, .ok _) => { u with mem := Bar.write u.mem (spadBase k + off) { b with w := true } }
    else
      match s.touch16 (s.agent k 8) k off false with
      | (_, .error f) => s.rcFault k f
      | (u, .ok _) => u.rcAcquire ((aget (s.core k).tbClr off).getD []) (fun v => (v.modRc k (fun r => { r with refs := r.refs.set t b.phase })).rcNext k 4))

/-! ## Publication (R105 to R108, R264) -/

/-- Tiles of a shadow go back to the pool. -/
def State.dropShadow (s : State) (n j : Nat) : State :=
  (s.modOperand n (s.sameBuf n j) (fun o => { o with shadow := [] })).reclaim (s.partOfNode n) (s.busyTiles (s.partOfNode n))

/-- Every operand of a node that names a buffer takes a version and its map; tiles that only the old one named, and of `was`, go back to the pool. -/
def State.rebase (s : State) (n h v : Nat) (map : Assoc Nat) (was : List Nat) : State :=
  let pt := s.partOfNode n
  (s.modNode n (fun x => { x with ops := x.ops.map (fun o => if o.handle = h ∧ o.mode ≠ 0 then { o with snap := v, base := v, map := map, shadow := [] } else o) })).reclaim pt
    (dedup (was ++ s.busyTiles pt))

/-- SHD. -/
def State.rcShd (s : State) (d p : Nat) : State :=
  let k := s.fcore
  let n := (s.rc k).node
  let o := s.operand n p
  let b := (aget (s.part (s.partOfNode n)).bufs o.handle).getD {}
  if o.mode = 0 ∨ (s.operand n (s.sameBuf n p)).shadow ≠ [] then s.rcTrap 0x05C
  else (s.rebase n o.handle b.version b.map []).rcPut d b.version

/-- PUB. -/
def State.rcPub (s : State) (d p : Nat) : State :=
  let k := s.fcore
  let n := (s.rc k).node
  let pt := s.partOfNode n
  let o := s.operand n p
  let q := s.operand n (s.sameBuf n p)
  let b := (aget (s.part pt).bufs o.handle).getD {}
  if !o.allows true then s.rcTrap 0x05C
  else if (s.rc k).inPhase then s.rcTrap 0x0E5
  else if (s.copiesOf k n).any (fun c => c.2.out && (s.operand n c.2.op).handle == o.handle) then s
  else if b.version ≠ q.base then (s.dropShadow n p).rcTrap 0x05D
  else match s.publish k pt o.handle q.shadow with
  | (t, .error c) => t.rcExtern c
  | (t, .ok v) =>
    let r := t.release k 8
    let u := r.1.modPart pt (fun p => { p with bufs := (let b := (aget p.bufs o.handle).getD {}; aset p.bufs o.handle { b with clr := Clr.merge b.clr r.2 }) })
    (u.rebase n o.handle v ((aget (u.part pt).bufs o.handle).getD {}).map (s.replaced pt o.handle q.shadow)).rcPut d v

/-- DISC. -/
def State.rcDisc (s : State) (p : Nat) : State :=
  let k := s.fcore
  let n := (s.rc k).node
  if (s.operand n p).mode = 0 then s.rcTrap 0x05C
  else if (s.rc k).inPhase then s.rcTrap 0x0E5
  else (s.dropShadow n p).rcNext k 4

/-! ## Instructions -/

/-- CPY: r is the direction, a the scratchpad address, b the count and offset, t the barrier, p the operand. -/
def execRcCpy (r a b t p : Nat) (st : State) : Out := .next (st.rcCpy r a b t p)
/-- CPYR: a is the ring. -/
def execRcCpyr (r a b t p : Nat) (st : State) : Out := .next (st.rcCpyr r a b t p)
/-- CPYG. -/
def execRcCpyg (a b t p : Nat) (st : State) : Out := .next (st.rcCpyRows 2 a b t p)
/-- CPYX. -/
def execRcCpyx (a b t p : Nat) (st : State) : Out := .next (st.rcCpyRows 3 a b t p)
/-- CPYS. -/
def execRcCpys (a b t p : Nat) (st : State) : Out := .next (st.rcCpyRows 4 a b t p)
/-- TBI. -/
def execRcTbi (a t : Nat) (st : State) : Out := .next (st.rcTbi a t)
/-- TBW. -/
def execRcTbw (t : Nat) (st : State) : Out := .next (st.rcTbw t)
/-- TBEX. -/
def execRcTbex (a t : Nat) (st : State) : Out := .next (st.rcTbex a t)
/-- SHD. -/
def execRcShd (d p : Nat) (st : State) : Out := .next (st.rcShd d p)
/-- PUB. -/
def execRcPub (d p : Nat) (st : State) : Out := .next (st.rcPub d p)
/-- DISC. -/
def execRcDisc (p : Nat) (st : State) : Out := .next (st.rcDisc p)
/-- CPST. -/
def execRcCpst (d t : Nat) (st : State) : Out := .next (st.rcCpst d t)

end Sys2Proof.Machine
end

