-- ==== Sys2Proof/Machine/RcNode.lean ====
section
/-! DEFINITION. Nodes as the RC and the scheduler treat them: submission (R72, R75, R76, R265), dependences (R74, R80, R265), PIN (R77, R259). -/

namespace Sys2Proof.Machine

/-! ## Rectangles (R76) -/

/-- Columns of a core kind: 0 any, 1 dense, 2 keyed. -/
def kindOk (kind x : Nat) : Bool := kind == 0 || ((x == 0 || x == 7) == (kind == 2))

/-- The cores of a rectangle of an isle at a lead core; none where it runs past the isle's edge. -/
def rectAt (w h isle lead : Nat) : List Nat :=
  if lead % 8 + w ≤ 8 ∧ lead / 8 + h ≤ 8 then
    (List.range h).flatMap (fun y => (List.range w).map (fun x => isle * 64 + lead + 8 * y + x))
  else []

/-- Every placement of a node, in the order of R76: lowest isle, then lowest lead core. -/
def State.placements (s : State) (v : Node) : List (List Nat) :=
  let p := s.part v.part
  let ok (r : List Nat) : Bool := r != [] && r.all (fun k => kindOk v.corekind (xOf k) && k != p.supervisor)
  let isles := (List.range 16).filter (fun i => bit p.isles i && bit s.fuses.isles i && (!v.pinned || i == v.pisle))
  isles.flatMap (fun i => ((if v.pinned then [v.pcore] else List.range 64).map (rectAt v.w v.h i)).filter ok)

/-! ## Records (R72) -/

/-- Twelve-bit base and length of a discardable range, in KiB, as bytes. -/
def discOf (v : Nat) : Nat × Nat := (bits v 23 12 * 1024, bits v 11 0 * 1024)

/-- The node that a record's 64 bytes describe. A node of a kind other than compute takes shape 1 x 1. -/
def nodeOf (b : List Byte) (va pt owner : Nat) : Node :=
  let w0 := fld b 0 4
  let w1 := fld b 4 4
  let kind := bits w0 2 0
  { va := va, owner := owner, handle := 0, part := pt, tenant := bits w1 25 20, kind := kind, corekind := bits w0 4 3,
    w := if kind = 0 then 2 ^ bits w0 6 5 else 1,
    h := if kind = 0 then 2 ^ bits w0 8 7 else 1,
    prio := bits w0 11 9, stage := bits w0 15 12, standing := bit w0 16, pinned := bit w0 17,
    pisle := bits (fld b 12 4) 3 0, pcore := bits (fld b 12 4) 9 4, arglen := bits w0 28 24, entry := fld b 8 4,
    image := fld b 0x10 8, args := fld b 0x18 8, succ := fld b 0x20 8,
    disc := [discOf (fld b 0x3A 3), discOf (fld b 0x3D 3)].filter (fun d => d.2 != 0),
    st := 0, since := 0, die := 0,
    ops := (List.range 8).map (fun j => { handle := fld b (0x28 + 2 * j) 2, mode := bits (fld b 0x38 2) (2 * j + 1) (2 * j) }) }

/-- Whether a record breaks its format (R72, R77): a nonzero reserved field, an unused kind or core kind, too many arguments, an unaligned image, a
STANDING node that is not pinned. -/
def badRecord (b : List Byte) : Bool :=
  let w0 := fld b 0 4
  bits w0 31 29 != 0 || bits w0 23 18 != 0 || bits (fld b 4 4) 31 26 != 0 || bits (fld b 12 4) 31 10 != 0 || decide (4 < bits w0 2 0)
    || bits w0 4 3 == 3 || decide (16 < bits w0 28 24) || fld b 0x10 8 % 64 != 0 || (bit w0 16 && !bit w0 17)

/-- Who submits: the node of a kernel RC, or a controller of a higher level. -/
def State.submitter (s : State) (k : Nat) : Nat := if (s.rc k).level = 0 then (s.rc k).node else 2 ^ 20 + k

/-- Nodes that an owner submitted and whose handles it holds. -/
def State.handlesOf (s : State) (owner : Nat) : Assoc Node := s.nodes.filter (fun n => n.2.owner == owner)

/-- A handle that no live node has: the first from a free value on (R265). -/
def State.newHandle (s : State) : Option Nat × State :=
  let f := s.free
  let used := (s.nodes.filter (fun n => n.2.owner != 0 || n.2.st < 3)).map (·.2.handle)
  (((List.range 65536).map (fun i => (f.1 + i) % 65536)).find? (fun h => !used.contains h), f.2)

/-! ## The ready pool (R75) -/

/-- A node becomes ready and enters the pool of a die, or its overflow list. -/
def State.enterPool (s : State) (n die : Nat) : State :=
  match aget s.nodes n with
  | none => s
  | some v =>
    let d := if v.pinned then v.pisle / 4 else die
    (s.modNode n (fun v => { v with st := 1, since := s.time, aged := 0, die := d })).modDie d (fun x =>
      if x.pool.length < 256 then { x with pool := x.pool ++ [n] } else { x with overflow := x.overflow ++ [n] })

/-- A node leaves its pool or overflow list; the first of the overflow list takes a freed entry. -/
def Die.leave (d : Die) (n : Nat) : Die :=
  let p := d.pool.filter (· != n)
  let o := d.overflow.filter (· != n)
  match o with
  | x :: r => if p.length < 256 then { d with pool := p ++ [x], overflow := r } else { d with pool := p, overflow := o }
  | [] => { d with pool := p, overflow := [] }
def State.leavePool (s : State) (n : Nat) : State :=
  match aget s.nodes n with
  | some v => if v.st = 1 then s.modDie v.die (·.leave n) else s
  | none => s

/-- A node is cancelled: never dispatched, and its event is posted (R80, R319). -/
def State.cancelNode (s : State) (n : Nat) : State :=
  match aget s.nodes n with
  | none => s
  | some v =>
    ((s.leavePool n).modNode n (fun v => { v with st := 5 })).post v.part 3 (schedKey v.die) v.die (leBytes 8 v.va) false

/-! ## NDSUB (R265) -/

/-- The causes that refuse a record: 0x0EB by its format, 0x0EC by its partition or tenant, 0x0EE by the submitter's handles, 0x0EB by what it names.
The supervisor's own handles are not a node's and have no such limit. -/
def State.recordCause (s : State) (k : Nat) (b : List Byte) (v : Node) : Option Nat :=
  let p := s.part v.part
  firstBad [
    (badRecord b, 0x0EB),
    (bits (fld b 4 4) 19 16 != v.part || v.tenant != p.tenant, 0x0EC),
    ((s.rc k).level == 0 && decide (1024 ≤ (s.handlesOf v.owner).length), 0x0EE),
    (s.placements v == [], 0x0EB),
    (v.ops.any (fun o => o.handle != 0xFFFF && decide (bits p.buftab 59 48 ≤ o.handle)), 0x0EB)]

/-- A node enters the scheduler: cancelled where its record was marked, ready where it has no predecessors. -/
def State.admitNode (s : State) (v : Node) (preds die : Nat) : State :=
  let n := s.nodeNext
  let mine (e : Nat × Nat × Clr) : Bool := e.1 == v.part && e.2.1 == v.va
  let s1 := { s with
    nodes := aset s.nodes n { v with die := die, acq := (s.early.filter mine).foldl (fun c e => Clr.merge c e.2.2) [] }
    nodeNext := n + 1
    early := s.early.filter (fun e => !mine e)
    doomed := s.doomed.filter (· != (v.part, v.va)) }
  if s.doomed.contains (v.part, v.va) then s1.cancelNode n else if preds = 0 then s1.enterPool n die else s1

/-- The length of the RC program of a compute node's image; 0 for another kind. -/
def State.progLenOf (s : State) (k : Nat) (v : Node) : State × Except (Nat × Nat) Nat :=
  if v.kind ≠ 0 then (s, .ok 0)
  else match s.readVA k v.part (v.image + 0x20) 4 with
  | (t, .ok b) => (t, .ok (fld b 0 4))
  | (t, .error c) => (t, .error c)

def State.rcNdsub (s : State) (d a : Nat) : State :=
  let k := s.fcore
  let va := s.q k a
  let pt := s.partAt k
  if va % 64 ≠ 0 then s.rcFault k ⟨0x0EB, va, 0, false⟩
  else match s.readVA k pt va 64 with
  | (t, .error c) => t.rcExtern c
  | (t, .ok b) =>
    let v := nodeOf b va pt (t.submitter k)
    match t.recordCause k b v with
    | some c => t.rcFault k ⟨c, va, 0, false⟩
    | none =>
      match t.progLenOf k v with
      | (u, .error c) => u.rcExtern c
      | (u, .ok n) =>
        if 65536 < n then u.rcFault k ⟨0x0EB, va, 0, false⟩
        else match u.newHandle with
        | (none, w) => w.rcFault k ⟨0x0EE, va, 0, false⟩
        | (some h, w) => (w.admitNode { v with handle := h } (bits (fld b 4 4) 15 0) (dieOf k % 4)).rcPut d h

/-! ## Dependences (R74, R80, R265) -/

/-- The node of a handle that an RC's node issued. -/
def State.issuedNode (s : State) (k h : Nat) : Option (Nat × Node) := (s.handlesOf (s.submitter k)).find? (fun n => n.2.handle == h)

/-- The predecessor count in a record: read, changed, and written back. A count of 0 that falls is open (log 23). -/
def State.stepPreds (s : State) (k pt va : Nat) (up : Bool) : State × Except (Nat × Nat) Nat :=
  match s.readVA k pt (va + 4) 2 with
  | (t, .error c) => (t, .error c)
  | (t, .ok b) =>
    let n := fld b 0 2
    let r : Nat × State := if up then ((n + 1) % 65536, t) else if n = 0 then (let f := t.free; (f.1 % 65536, f.2)) else (n - 1, t)
    match r.2.writeVA k pt (va + 4) (leBytes 2 r.1) with
    | (u, .error c) => (u, .error c)
    | (u, .ok _) => (u, .ok r.1)

def State.rcNddep (s : State) (d a b : Nat) : State :=
  let k := s.fcore
  let va := s.q k b
  let pt := s.partAt k
  match s.issuedNode k (s.q k a) with
  | none => s.rcTrap 0x0EC
  | some (n, v) =>
    if s.nodes.any (fun m => m.2.part == pt && m.2.va == va) then s.rcFault k ⟨0x0ED, va, 0, false⟩
    else if v.st = 3 then ({ s with early := s.early ++ [(pt, va, v.clr)] }).rcPut d 0
    else if 3 < v.st then ({ s with doomed := if s.doomed.contains (pt, va) then s.doomed else s.doomed ++ [(pt, va)] }).rcPut d 2
    else if 1024 ≤ (s.die (dieOf k % 4)).links then s.rcFault k ⟨0x0EE, va, 0, false⟩
    else match s.stepPreds k pt va true with
    | (t, .error c) => t.rcExtern c
    | (t, .ok _) =>
      ((t.modNode n (fun v => { v with links := v.links ++ [(va, dieOf k % 4)] })).modDie (dieOf k % 4) (fun x => { x with links := x.links + 1 })).rcPut d 1

/-- NDWAIT and NDSTAT: the state of an issued node; state 3 acquires its completion. -/
def State.rcNodeState (s : State) (d a : Nat) (wait : Bool) : State :=
  let k := s.fcore
  match s.issuedNode k (s.q k a) with
  | none => s.rcTrap 0x0EC
  | some (_, v) =>
    if wait && decide (v.st < 3) then s
    else s.rcTake (if wait && v.st == 3 then v.clr else []) (·.rcPut d v.st)

/-- The addresses of a successor list from a place on, up to n of them; and whether a further one follows. -/
def State.succFrom (s : State) (k pt a : Nat) : Nat → State × Except (Nat × Nat) (List Nat × Bool)
  | 0 =>
    match s.readVA k pt a 8 with
    | (t, .error c) => (t, .error c)
    | (t, .ok b) => (t, .ok ([], fld b 0 8 != 0))
  | n + 1 =>
    match s.readVA k pt a 8 with
    | (t, .error c) => (t, .error c)
    | (t, .ok b) =>
      if fld b 0 8 = 0 then (t, .ok ([], false))
      else match t.succFrom k pt (a + 8) n with
      | (u, .ok r) => (u, .ok (fld b 0 8 :: r.1, r.2))
      | r => r

/-- The successors of a node: its list, of which a 257th entry is posted, and its links. -/
def State.successors (s : State) (k : Nat) (v : Node) : State × Except (Nat × Nat) (List Nat) :=
  if v.succ = 0 then (s, .ok (v.links.map (·.1)))
  else match s.succFrom k v.part v.succ 256 with
  | (t, .error c) => (t, .error c)
  | (t, .ok (l, more)) => (if more then t.postUnit v.part 0 4 v.die 60 0x0E9 v.succ 0 0 else t, .ok (l ++ v.links.map (·.1)))

/-- The nodes of a record's address that still wait. -/
def State.waitingAt (s : State) (pt va : Nat) : List Nat := (s.nodes.filter (fun m => m.2.part == pt && m.2.va == va && m.2.st == 0)).map (·.1)

/-- One successor is released: its count falls, it acquires what the release carries, and at zero it is ready. -/
def State.releaseOne (s : State) (k pt die : Nat) (c : Clr) (va : Nat) : State × Except (Nat × Nat) Unit :=
  match s.stepPreds k pt va false with
  | (t, .error e) => (t, .error e)
  | (t, .ok left) =>
    let ns := t.waitingAt pt va
    let u := if ns = [] then { t with early := t.early ++ [(pt, va, c)] } else ns.foldl (fun t n => t.modNode n (fun v => { v with acq := Clr.merge v.acq c })) t
    (if left = 0 then ns.foldl (fun t n => t.enterPool n die) u else u, .ok ())

/-- The links of a node go back to their dies (R265). -/
def State.dropLinks (s : State) (n : Nat) : State :=
  match aget s.nodes n with
  | none => s
  | some v => (v.links.foldl (fun s e => s.modDie e.2 (fun x => { x with links := x.links - 1 })) s).modNode n (fun v => { v with links := [] })

/-- Every successor of a node is released, or the cause that an access of the scheduler meets; links are given back. -/
def State.releaseSuccessors (s : State) (k n : Nat) (c : Clr) : State × Except (Nat × Nat) Unit :=
  match aget s.nodes n with
  | none => (s, .ok ())
  | some v =>
    match s.successors k v with
    | (t, .error e) => (t, .error e)
    | (t, .ok l) =>
      match l.foldl (fun (acc : State × Except (Nat × Nat) Unit) va =>
          match acc with
          | (u, .ok _) => u.releaseOne k v.part (dieOf k % 4) c va
          | e => e) (t, .ok ()) with
      | (u, .error e) => (u, .error e)
      | (u, .ok _) => (u.dropLinks n, .ok ())

/-- PIN (R259): a release by the RC. -/
def State.rcPin (s : State) : State :=
  let k := s.fcore
  let n := (s.rc k).node
  match aget s.nodes n with
  | none => s.rcTrap 0x0ED
  | some v =>
    if !v.standing then s.rcTrap 0x0ED
    else if (s.rc k).pinned then s.rcNext k 4
    else
      let r := s.release k 8
      match r.1.releaseSuccessors k n r.2 with
      | (t, .error e) => (s.keep t).rcExtern e
      | (t, .ok _) => ((t.modNode n (fun v => { v with sent := true })).modRc k (fun c => { c with pinned := true })).rcNext k 4

/-! ## Instructions -/

/-- NDSUB. -/
def execRcNdsub (d a : Nat) (st : State) : Out := .next (st.rcNdsub d a)
/-- NDDEP. -/
def execRcNddep (d a b : Nat) (st : State) : Out := .next (st.rcNddep d a b)
/-- NDWAIT. -/
def execRcNdwait (d a : Nat) (st : State) : Out := .next (st.rcNodeState d a true)
/-- NDSTAT. -/
def execRcNdstat (d a : Nat) (st : State) : Out := .next (st.rcNodeState d a false)
/-- PIN. -/
def execRcPin (st : State) : Out := .next st.rcPin

end Sys2Proof.Machine
end

