-- ==== Sys2Proof/Machine/Preempt.lean ====
section
/-! DEFINITION. What pre-emption, capture and KILL do to a region (R321 to R323, R326, R327): markers, freezing, resuming, the end. -/

namespace Sys2Proof.Machine

/-- The contexts of a cell that a configuration has loaded. -/
def State.loadedCtxs (s : State) (k l : Nat) : List Nat := (List.range 4).filter (fun x => (s.ctx k l x).loaded)

/-- Ports of a cell that are in use: context and port. -/
def State.cellPorts (s : State) (k l : Nat) : List (Nat × Nat) :=
  (s.loadedCtxs k l).flatMap (fun x => ((List.range 4).filter (fun p => pwEn (s.portWord k l x p))).map (fun p => (x, p)))

/-- Output edges of a cell that are configured: context and edge. -/
def State.cellEdges (s : State) (k l : Nat) : List (Nat × Nat) :=
  (s.loadedCtxs k l).flatMap (fun x => ((List.range 8).filter (fun e => ewEn (s.edgeWord k l x e))).map (fun e => (x, e)))

/-- A source that forwards markers inside a region: another cell, or a matrix engine's result port (log 24). -/
def forwardsMarks (cores : List Nat) (k l src : Nat) : Bool :=
  cores.contains (src / 64) && src != agentId k l && (decide (src % 64 < 32) || src % 64 == 34)

/-- The subkind of a drain's markers: PREEMPT 0, CAPTURE 3 (R31, R377). -/
def Region.sub (g : Region) : Nat := if g.capture then 3 else 0

/-- The RC injects a marker at every in-use port whose source forwards none: from outside the region, a generator, the RC, a history (R322). -/
def State.injectMarkers (s : State) (lead : Nat) : State :=
  match s.regionAt lead with
  | none => s
  | some g =>
    let cores := g.coreList
    let mark := markToken Reg.empty g.sub 0 0
    let cells := cores.flatMap (fun k => (List.range 32).flatMap (fun l => (s.cellPorts k l).filterMap (fun x =>
      if forwardsMarks cores k l (pwSrc (s.portWord k l x.1 x.2)) then none else some (⟨k, l, x.1, x.2⟩ : Dest))))
    let mats := cores.flatMap (fun k => if isKeyed k then [] else [32, 33, 35].filterMap (fun l =>
      let w := s.inWord k l 0 0
      if pwEn w && !forwardsMarks cores k l (pwSrc w) then some (⟨k, l, 0, 0⟩ : Dest) else none))
    ((cells ++ mats).foldl (fun s d => s.pushPort d (edgeKey lead 48 0 0) mark [] []) s).modRegion lead (fun r => { r with marked := true })

/-- A region begins to drain: its RC, generators and ingress stop, and its markers are injected once no CFG is in progress. -/
def State.beginDrain (s : State) (lead : Nat) : State :=
  let s1 := s.modRegion lead (fun r => { r with st := .draining, pending := false, marked := false })
  let s2 := (s.regionCores lead).foldl (fun s k => s.modCore k (fun c => { c with
    cells := c.cells.map (fun (e : Nat × Cell) => (e.1, { e.2 with passed := false }))
    matrix := { c.matrix with passed := false } })) s1
  if (s.rc lead).loads = [] then s2.injectMarkers lead else s2

/-- A region is asked to drain, at once or in its stage's turn. -/
def State.askDrain (s : State) (lead : Nat) (capture later : Bool) : State :=
  let s1 := s.modRegion lead (fun r => { r with capture := capture, since := s.time, pending := later })
  if later then s1 else s1.beginDrain lead

/-- A pending region may begin: no region of its partition with a lower stage is still to drain. -/
def State.turnHasCome (s : State) (g : Region) : Bool :=
  g.pending && !s.regions.any (fun r => r.part == g.part && decide (r.stage < g.stage) && (r.pending || r.st == .draining))

/-! ## Drained (R322, R335) -/

/-- A cell's port is held by a cause of external memory: what comes behind the held access waits for it (R335). -/
def Cell.stalled (c : Cell) : Bool := match c.held with | h :: _ => h.hold.isSome | [] => false

/-- The unit that an edge of a core feeds: a cell, or the matrix engine by its result port's id. -/
def unitFed (w : Nat) : Nat × Nat := let d := destOf w; (d.core, if 32 ≤ d.loc ∧ d.loc < 36 then 34 else d.loc)

/-- What back-pressure from some units of a region reaches: those with an edge to one of them, in turn. -/
def State.pressed (s : State) (all : List ((Nat × Nat) × List Nat)) : Nat → List (Nat × Nat) → List (Nat × Nat)
  | 0, us => us
  | f + 1, us =>
    match (all.filter (fun u => !us.contains u.1 && u.2.any (fun w => us.contains (unitFed w)))).map (·.1) with
    | [] => us
    | more => s.pressed all f (us ++ more)

/-- The units of a region that a held access freezes: the cells that are stalled, and what feeds them (R335). -/
def State.frozenUnits (s : State) (g : Region) : List (Nat × Nat) :=
  match g.coreList.flatMap (fun k => (s.core k).cells.filterMap (fun (e : Nat × Cell) => if e.2.stalled then some (k, e.1) else none)) with
  | [] => []
  | us =>
    let all := g.coreList.flatMap (fun k =>
      (List.range 32).map (fun l => ((k, l), (s.cellEdges k l).map (fun e => s.edgeWord k l e.1 e.2)))
        ++ [34, 36, 37, 38, 39].map (fun l => ((k, l), let w := s.edgeWord k l 0 0; if ewEn w then [w] else [])))
    s.pressed all all.length us

/-- Every unit of a region has forwarded the marker or has no in-use port, and holds nothing (R322). -/
def State.cellDrained (s : State) (k l : Nat) : Bool :=
  let c := s.cell k l
  (c.passed || s.cellPorts k l == []) && !c.hasTokens && c.running.isNone && c.ready.isEmpty && c.done.isEmpty
def State.matrixDrained (s : State) (k : Nat) : Bool :=
  let m := (s.core k).matrix
  (m.passed || [32, 33, 35].all (fun l => !pwEn (s.inWord k l 0 0)) || isKeyed k) && m.edge.flight.isEmpty
def State.histDrained (s : State) (k : Nat) : Bool :=
  (s.core k).hists.all (fun h => h.2.held.isSome || h.2.queue.isEmpty && h.2.out.isEmpty) && (s.core k).hpEdges.all (fun g => g.flight.isEmpty)

/-- Collectives in flight on a node's communicators. -/
def State.collsInFlight (s : State) (n : Nat) : Bool :=
  s.dies.any (fun d => d.2.comms.any (fun c => c.2.node == n && !c.2.ended && c.2.colls.any (fun q => q.status % 4 == 0)))

/-- The RC has come to an instruction boundary: no reply is outstanding, and no instruction waits for its own accesses (R322). -/
def State.rcAtBoundary (s : State) (lead : Nat) : Bool :=
  (match (s.rc lead).mode with | .remote _ => false | _ => true) && !(s.rc lead).waits

/-- A region is drained. What a held access freezes is not waited for, and stands in the frozen region as it is (R335; log 109). -/
def State.drained (s : State) (g : Region) : Bool :=
  let held := s.frozenUnits g
  g.st == .draining && g.marked && s.rcAtBoundary g.lead && s.remoteClear g.coreList && !s.collsInFlight g.node
    && g.coreList.all (fun k => (List.range 32).all (fun l => s.cellDrained k l || held.contains (k, l)) && (s.matrixDrained k || held.contains (k, 34))
      && (s.histDrained k || [36, 37, 38, 39].any (fun l => held.contains (k, l))))

/-- Bytes of a region's image (R324): 4 KiB and the cores, less the discardable ranges. -/
def discBytes (ds : List (Nat × Nat)) : Nat :=
  match ds with
  | [a, b] => a.2 + b.2 - (min (a.1 + a.2) (b.1 + b.2) - max a.1 b.1)
  | _ => ds.foldl (fun n d => n + d.2) 0
def State.imageBytes (s : State) (g : Region) : Nat :=
  let d := discBytes (((aget s.nodes g.node).map (·.disc)).getD [])
  4096 + g.coreList.foldl (fun n k => n + (if isKeyed k then 0x400000 + 0x40000 else 0x180000 + 0x50000) - d) 0

/-- The region is frozen: its copies stand at a sector boundary, and PREEMPT_DONE is posted unless it is captured. -/
def State.freeze (s : State) (g : Region) : State :=
  let s1 := s.modRegion g.lead (fun r => { r with st := .frozen })
  let s2 := s1.modCore g.lead (fun c => { c with copies := c.copies.map (fun (e : Nat × Copy) => (e.1, if e.2.node = g.node then { e.2 with frozen := true } else e.2)) })
  if g.capture then s2
  else s2.post g.part 5 (sequencerKey (dieOf g.lead)) (dieOf g.lead) (leBytes 2 (regionHandle g.lead) ++ leBytes 1 g.stage ++ List.replicate 5 0 ++ leBytes 8 (s.imageBytes g)) false

/-- A region runs on, resumed in place or as if PRMT had not been issued (R323, R325): a recorded RETS reaches its RC (R326). -/
def State.runOn (s : State) (lead : Nat) : State :=
  let s1 := s.modRegion lead (fun r => { r with st := .running, pending := false, marked := false, capture := false })
  let s2 := (s.regionCores lead).foldl (fun s k => s.modCore k (fun c => { c with
    copies := c.copies.map (fun (e : Nat × Copy) => (e.1, { e.2 with frozen := false }))
    cells := c.cells.map (fun (e : Nat × Cell) => (e.1, { e.2 with passed := false }))
    matrix := { c.matrix with passed := false } })) s1
  match (s2.rc lead).mode with
  | .sys qd (some v) => s2.modRc lead (fun r => r.resume qd v)
  | _ => s2

/-- D is set in every barrier that a region owns (R112, R327). -/
def State.deadBarriers (s : State) (lead : Nat) : State :=
  (List.range (s.barrierCount lead)).foldl (fun s t =>
    let a := spadBase lead + (s.barrierEntry lead t).1
    { s with mem := Bar.write s.mem a { Bar.read s.mem a with d := true } }) s

/-- A region's held accesses retry (R325, R335). -/
def State.retryRegion (s : State) (lead : Nat) : State :=
  (s.regionCores lead).foldl (fun s k => s.modCore k (·.unhold (fun c => holdsAccess c.1))) s

/-- KILL of a region (R327): everything of it stops and is discarded; its node ends at KILL_DONE. -/
def State.killRegion (s : State) (g : Region) : State :=
  if g.st = .killed then s
  else
    let s1 := s.modRegion g.lead (fun r => { r with st := .killed, pending := false })
    let s2 := g.coreList.foldl (fun s k => s.modCore k (fun c =>
      let c := c.clearTokens
      { c with
        hists := c.hists.map (fun (h : Nat × Hist) => (h.1, { h.2 with queue := [], out := [], held := none }))
        copies := c.copies.filter (fun e => e.2.node != g.node) })) s1
    let s3 := ((s2.deadBarriers g.lead).reclaimFrames g.lead).modRc g.lead (fun r => { r with mode := .stopped, inPhase := false, aborting := false, dying := false, waits := false, loads := [], loadHeld := none, barc := [], held := none, extract := [] })
    let s4 := s3.modNode g.node (fun v => { v with ops := v.ops.map (fun o => { o with shadow := [] }) })
    ((s4.loseNode g.node).endMembers g.node).reclaim g.part (s.busyTiles g.part)

/-- KILL_DONE (R319). -/
def State.postKillDone (s : State) (g : Region) : State :=
  s.post g.part 6 (sequencerKey (dieOf g.lead)) (dieOf g.lead) (leBytes 2 (regionHandle g.lead)) false

/-- KILL_DONE is posted: the node terminates, and the region's cores are the scheduler's. -/
def State.finishKill (s : State) (g : Region) : State := ((s.postKillDone g).stopNode g.node).freeRegion g.lead

/-- The region of a partition that a handle names. -/
def State.regionOf (s : State) (pt h : Nat) : Option Region := s.regions.find? (fun r => r.part == pt && regionHandle r.lead == h)

end Sys2Proof.Machine
end

