-- ==== Sys2Proof/Machine/EvTokens.lean ====
section
/-! DEFINITION. Events of tokens at ports: arrivals, EOS, marker slots, frontier registers (R31, R32, R66, R79, R124, R182, R258, R386). -/

namespace Sys2Proof.Machine

/-! ## Arrivals -/

/-- The token at the head of an edge's flight, and the state without it. -/
def State.landing (s : State) (k l x e : Nat) : Option (Token × State) :=
  match (s.edge k l x e).flight with
  | [] => none
  | t :: r => some (t, s.modEdge k l x e (fun g => { g with flight := r }))

/-- Whether a port takes tokens from a core: its region runs, or drains and holds that core (R322); an ingress port only once PIN has opened it (R78). -/
def State.takesFrom (s : State) (k : Nat) (d : Dest) : Bool :=
  match s.regionAt d.core with
  | some g => (g.st == .running || (g.st == .draining && g.has k)) && (pwSrc (s.inWord d.core d.loc d.ctx d.port) != 0xFFFF || (s.rc g.lead).pinned)
  | none => false

/-- The absence of a route ends the issuer's region (R365). -/
def State.noRoute (s : State) (k l : Nat) (t : Token) : State := s.engineFault k l 0 ⟨0x139, 0, 0, false⟩ (tagWord t.iter t.frame t.cfg t.cls)

/-- The token at the head of an edge arrives, if it is of a kind: at a port of the package, or it leaves for its route's package (R35). It carries no clearance
set: DESIGN CHOICE, R94 lists the edge's FIFO order and R95 gives no release to an emission, so that only the tokens R95 names order accesses (log 91). -/
def State.arrive (s : State) (k l x e : Nat) (kind : TKind) : State :=
  match s.landing k l x e with
  | none => s
  | some (t, s1) =>
    let w := s.edgeWord k l x e
    let d := destOf w
    if t.kind ≠ kind then s
    else if t.route ≠ 0 then
      if (s.routeEntry (s.partAt k) t.route).isNone then s1.noRoute k l t
      else (s1.modEdge k l x e (fun g => { g with away := g.away + 1 })).leave (s.partAt k) t.route (80 + ewVc w) (.token (ewDest w) (ewDport w) t)
    else if 36 ≤ d.loc ∨ !s.takesFrom k d then s
    else s1.reach d (edgeKey k l x e) t []

/-- Room of the RC extract FIFO (R258). -/
def extractSize : Nat := 16

/-- A token enters the extract FIFO of an RC, with the edge whose credit it holds until XTR takes it (log 31). -/
def State.extractArrive (s : State) (k l x e : Nat) : State :=
  match s.landing k l x e with
  | none => s
  | some (t, s1) =>
    let d := destOf (s.edgeWord k l x e)
    if t.route ≠ 0 ∨ d.loc ≠ 48 ∨ t.kind = .notice ∨ extractSize ≤ (s.rc d.core).extract.length then s
    else s1.modRc d.core (fun r => { r with extract := r.extract ++ [(edgeKey k l x e, t)] })

/-! ## EOS and markers at the head of a port -/

/-- Every token that came to a port before its head has been consumed by a completed task (R66). -/
def State.portClear (s : State) (k l x p : Nat) : Bool := ((s.cell k l).unfinished x p).isEmpty

/-- The head of a cell's port when it is no DATA token and all before it is consumed. -/
def State.portHead (s : State) (k l x p : Nat) : Option PortTok :=
  match (s.port k l x p).fifo with
  | t :: _ => if t.tok.kind ≠ .data ∧ s.portClear k l x p then some t else none
  | [] => none

def State.popPort (s : State) (k l x p : Nat) : State := s.modPort k l x p (fun q => { q with fifo := q.fifo.drop 1 })

/-- A frontier register of a region takes a new frontier, in one step for all its readers; an equal one is no advance (R123, R124, R292). -/
def State.setFrontier (s : State) (lead fn : Nat) (f : List (Nat × Nat)) (iter : W16) : State :=
  if (s.rc lead).fns.getD fn [] = f then s
  else
    let s1 := (s.modRc lead (fun r => { r with fns := r.fns.set fn f })).latch lead 4
    (s.regionCores lead).foldl (fun s k => if isKeyed k then s.queueAdvance k fn f iter else s) s1

/-- History commands of the tasks of a cell's port have reached their histories. -/
def State.histsClear (s : State) (k l : Nat) : Bool := !(s.cell k l).held.any (fun h => isHist h.req)

/-- An EOS at the head of a port is taken: it counts, and the last of the port's makes its EOS; a record input's register becomes empty (R66, R124, R151,
R291). -/
def State.takeEos (s : State) (k l x p : Nat) (t : PortTok) : State :=
  let w := s.portWord k l x p
  let n := (s.port k l x p).eosN + 1
  let last := n % max 1 (pwEosn w) == 0
  let s1 := (s.popPort k l x p).modPort k l x p (fun q => { q with eosN := n, eos := q.eos || last, eosArr := if last then max q.eosArr t.arr else q.eosArr })
  if last && pwRec w then
    let lead := s.leadOf k
    let s2 := s1.setFrontier lead (pwFn w) [] t.tok.iter
    (s.regionCores lead).foldl (fun s c => if isKeyed c then s.queueEos c (pwFn w) else s) s2
  else s1

/-- The marker slot takes a marker; a STEP or CAPTURE that it replaces was never forwarded (R182). -/
def State.fillSlot (s : State) (k l x : Nat) (t : Token) : State :=
  let s1 := match (s.ctx k l x).slot with
    | some o => if o.cls = 1 ∨ o.cls = 3 then s.infoFault k l 0 0x01E 0 (tagWord o.iter o.frame x o.cls) else s
    | none => s
  s1.modCtx k l x (fun c => { c with slot := some t })

/-- Whether a marker at a port belongs to the drain of its region: PREEMPT, or CAPTURE (R322, R377). -/
def State.drains (s : State) (k : Nat) (t : Token) : Bool :=
  match s.regionAt k with
  | some g => g.st == .draining && t.cls == g.sub
  | none => false

/-- A marker at the head of a port is taken: it has no effect where its drain waits for it no longer (R323), it stays where
the drain does, and the others enter the slot; a PREEMPT marker never does (R182). -/
def State.takeMark (s : State) (k l x p : Nat) : State :=
  match s.portHead k l x p with
  | none => s
  | some t =>
    let w := s.portWord k l x p
    if t.tok.kind ≠ .mark then s
    else if s.drains k t.tok then (if (s.cell k l).passed then (let u := s.popPort k l x p; if t.tok.cls = 3 then u.fillSlot k l x t.tok else u) else s)
    else if t.tok.cls = 0 then s.popPort k l x p
    else if t.tok.cls = 2 ∧ pwRec w then s
    else (s.popPort k l x p).fillSlot k l x t.tok

/-- A FRONTIER marker, or an EOS that a port drops, at the head of a record input (R124). -/
def State.takeFrontier (s : State) (k l x p : Nat) : State :=
  match s.portHead k l x p with
  | none => s
  | some t =>
    let w := s.portWord k l x p
    let tag := tagWord t.tok.iter t.tok.frame x t.tok.cls
    let lead := s.leadOf k
    if !pwRec w || !s.histsClear k l then s
    else if t.tok.kind = TKind.eos then (if pwEos w = 1 then s.takeEos k l x p t else s)
    else if t.tok.kind ≠ .mark ∨ t.tok.cls ≠ 2 then s
    else
      let s1 := s.popPort k l x p
      match frontOf t.tok.reg with
      | none => s1.infoFault k l 0 0x023 0 tag
      | some f =>
        if !notAhead ((s.rc lead).fns.getD (pwFn w) []) f then s1.infoFault k l 0 0x025 0 tag
        else (s1.setFrontier lead (pwFn w) f t.tok.iter).fillSlot k l x t.tok

/-! ## EOS out (R66, R177, R187) -/

/-- Ports of a context in use whose EOS setting is fwd. -/
def State.fwdPorts (s : State) (k l x : Nat) : List Nat := (List.range 4).filter (fun p => let w := s.portWord k l x p; pwEn w && pwEos w == 0)

/-- Tokens of a context that came before a point of the arrival order and are not yet consumed by a completed task, or whose task's tokens still wait. -/
def Cell.before (c : Cell) (x n : Nat) : Bool :=
  let some' (l : List PortTok) : Bool := l.any (fun t => t.tok.kind == .data && decide (t.arr < n))
  (c.ctx x).ports.any (fun p => some' p.fifo)
    || c.matching.any (fun m => m.ctx == x && some' (m.toks.map (·.2)))
    || (c.ready ++ c.running.toList ++ c.done).any (fun t => t.ctx == x && some' t.ops)

/-- Whether the coalescing buffer of a context must leave on an edge before an EOS does. -/
def Ctx.flushes (c : Ctx) (e : Nat) : Bool := !c.coal.elems.isEmpty && c.coal.edge == e

/-- What FLUSHC would emit (R187). -/
def Coal.token (b : Coal) : Token :=
  dataToken (mkReg b.fmt b.xs b.p b.origin (fun i => (b.elems[i]?).map (·.toNat))) b.cls b.frame b.iter

/-- What waits in the cell for an edge enters it as far as it may: a flushed token takes an ordinary credit, an EOS the one kept for it (R66, R187). -/
def State.enterWaiting (s : State) (k l x e : Nat) : Nat → State
  | 0 => s
  | n + 1 =>
    match (s.edge k l x e).waiting with
    | [] => s
    | t :: r =>
      if t.kind = .data ∧ s.room k l x e = 0 then s
      else State.enterWaiting ((s.modEdge k l x e (fun g => { g with waiting := r })).enterChecked k l x e t) k l x e n

/-- An EOS enters an edge, behind what the coalescing buffer holds for it, which leaves the buffer at once; both wait in the cell where the flushed token finds
no ordinary credit (R187). -/
def State.enterEos (s : State) (k l x e : Nat) (t : Token) : State :=
  let c := s.ctx k l x
  let s1 := if c.flushes e then s.modCtx k l x (fun c => { c with coal := { c.coal with elems := [] } }) else s
  let s2 := s1.modEdge k l x e (fun g => { g with waiting := g.waiting ++ (if c.flushes e then [c.coal.token] else []) ++ [t] })
  s2.enterWaiting k l x e (s2.edge k l x e).waiting.length

/-- What waits at the edges of a cell's contexts enters them as far as it may. -/
def State.enterAll (s : State) (k l : Nat) : State :=
  (List.range 32).foldl (fun s n => s.enterWaiting k l (n / 8) (n % 8) (s.edge k l (n / 8) (n % 8)).waiting.length) s

/-- The EOS of a context leaves on every configured edge once all its fwd ports have theirs and what came before is consumed and has left. -/
def State.forwardEos (s : State) (k l x : Nat) : State :=
  let c := s.ctx k l x
  let ps := s.fwdPorts k l x
  let ends := ps.map (fun p => (c.ports.getD p {}).eosArr)
  let es := (List.range 8).filter (fun e => ewEn (s.edgeWord k l x e))
  if ps = [] ∨ c.fwd ∨ !ps.all (fun p => (c.ports.getD p {}).eos) ∨ (s.cell k l).before x (ends.foldl max 0) then s
  else
    let f := s.freeEos
    es.foldl (fun s e => s.enterEos k l x e f.1) (f.2.modCtx k l x (fun c => { c with fwd := true }))

/-- An EOS at the head of a fwd port is taken; then the context's EOS leaves when it may. -/
def State.eosForward (s : State) (k l x p : Nat) : State :=
  let s1 := match s.portHead k l x p with
    | some t => if t.tok.kind = TKind.eos ∧ pwEos (s.portWord k l x p) = 0 ∧ (!pwRec (s.portWord k l x p) || s.histsClear k l) then
        s.takeEos k l x p t else s
    | none => s
  (s1.enterAll k l).forwardEos k l x

/-- A sink port counts its EOS (R66). -/
def State.sinkEos (s : State) (k l x p : Nat) : State :=
  match s.portHead k l x p with
  | some t =>
    let w := s.portWord k l x p
    if t.tok.kind = TKind.eos ∧ pwEos w = 3 ∧ (!pwRec w || s.histsClear k l) then
      let last := ((s.port k l x p).eosN + 1) % max 1 (pwEosn w) == 0
      (s.takeEos k l x p t).modCtx k l x (fun c => if last then { c with sink := c.sink + 1 } else c)
    else s
  | none => s

/-! ## Events -/

/-- An event of a cell or engine happens where its region works (R322, R327). -/
def State.atPlace (s : State) (f : State → Nat → Nat → Nat → Nat → State) : Out :=
  .next (let p := s.place; if s.works p.core then f s p.core p.cell p.ctx p.port else s)

/-- DATA_TOKEN_ARRIVAL (R35, R60, R79): at the end of the place's edge. -/
def execEvDataTokenArrival (st : State) : Out := st.atPlace (fun s k l x e => s.arrive k l x e .data)
/-- EOS_ARRIVAL (R66). -/
def execEvEosArrival (st : State) : Out := st.atPlace (fun s k l x e => s.arrive k l x e .eos)
/-- MARK_ARRIVAL (R31, R32, R151). -/
def execEvMarkArrival (st : State) : Out := st.atPlace (fun s k l x e => s.arrive k l x e .mark)
/-- EXTRACT_FIFO_ARRIVAL (R258). -/
def execEvExtractFifoArrival (st : State) : Out := st.atPlace (fun s k l x e => s.extractArrive k l x e)
/-- EOS_FORWARD (R66): at the place's port. -/
def execEvEosForward (st : State) : Out := st.atPlace (fun s k l x p => s.eosForward k l x p)
/-- SINK_EOS_COUNT (R66). -/
def execEvSinkEosCount (st : State) : Out := st.atPlace (fun s k l x p => s.sinkEos k l x p)
/-- MARKER_SLOT_FILL (R182). -/
def execEvMarkerSlotFill (st : State) : Out := st.atPlace (fun s k l x p => s.takeMark k l x p)
/-- FRONTIER_ADVANCE (R124). -/
def execEvFrontierAdvance (st : State) : Out := st.atPlace (fun s k l x p => s.takeFrontier k l x p)

end Sys2Proof.Machine
end

