-- ==== Sys2Proof/Machine/Reduce.lean ====
section
/-! DEFINITION. What collectives compute: operators and identities (R275, R276), associations (R278, R279), results (R277), token areas (R271). -/

namespace Sys2Proof.Machine

/-! ## Operators (R275): 0 SUM 1 PROD 2 MIN 3 MAX 4 AND 5 OR 6 XOR 7 MATMUL2 8 LSE2 -/

/-- An operator accepts a format. -/
def operAccepts (oper : Nat) (f : Fmt) : Bool :=
  if oper ≤ 3 then isFI f else if oper ≤ 6 then f == .s32 || f == .n32 else f == .fp32

/-- Lanes of a group. -/
def groupSize (oper : Nat) : Nat := if oper = 7 then 4 else if oper = 8 then 2 else 1

/-- Lane i of the identity. -/
def identityLane (oper : Nat) (f : Fmt) (i : Nat) : Nat :=
  match oper with
  | 0 => 0
  | 1 => if isF f then (roundEx f 0 0 false false (.num false (.dyadic 1 0))).1 else 1
  | 2 => if isF f then (roundEx f 0 0 false false (.inf false false)).1 else wrap f (intMax f)
  | 3 => if isF f then (roundEx f 0 0 false false (.inf true false)).1 else wrap f (intMin f)
  | 4 => 0xFFFFFFFF
  | 7 => if i % 4 = 0 ∨ i % 4 = 3 then 0x3F800000 else 0
  | 8 => if i % 2 = 0 then 0xFF800000 else 0
  | _ => 0

def rne32 (x : Ex) : Nat × Bool := roundEx .fp32 0 0 false false x
def v32 (w : Nat) : Val := fval .fp32 w

/-- One element of x · y over a group of four. -/
def mat2Elem (x y : List Nat) (r c : Nat) : Nat × Bool :=
  let g (l : List Nat) (i : Nat) : Val := v32 (l.getD i 0)
  let vs := [g x (2 * r), g y c, g x (2 * r + 1), g y (2 + c)]
  if vs.any isNan then (canonNaN .fp32, false)
  else
    let p := mulVal (g x (2 * r)) (g y c)
    let q := mulVal (g x (2 * r + 1)) (g y (2 + c))
    if p.2 || q.2 then (canonNaN .fp32, true) else rne32 (addEx 0 p.1 q.1)

/-- The term of one side in LSE2. -/
def lseTerm (m big s : Nat) : Nat × Bool :=
  if !ltVal false (v32 m) (v32 big) then (s, false)
  else
    let d := rne32 (addEx 0 (v32 m) (negVal (v32 big)))
    let p := rne32 (specialEx 3 (v32 d.1))
    let t := rne32 (mulEx (v32 s) (v32 p.1))
    (t.1, d.2 || p.2 || t.2)

def lse2 (x y : List Nat) : List Nat × Bool :=
  let m1 := x.getD 0 0
  let m2 := y.getD 0 0
  if isNan (v32 m1) || isNan (v32 m2) then ([canonNaN .fp32, canonNaN .fp32], false)
  else
    let big := pickLane true .fp32 m1 m2
    let a := lseTerm m1 big (x.getD 1 0)
    let b := lseTerm m2 big (y.getD 1 0)
    let t := rne32 (addEx 0 (v32 a.1) (v32 b.1))
    ([big, t.1], a.2 || b.2 || t.2)

/-- x ⊕ y on one group: its lanes, and whether it is exceptional (R47). -/
def operGroup (oper : Nat) (f : Fmt) (x y : List Nat) : List Nat × Bool :=
  let a := x.getD 0 0
  let b := y.getD 0 0
  let one (r : Nat × Bool) : List Nat × Bool := ([r.1], r.2)
  match oper with
  | 0 => one (if isF f then roundEx f 0 0 false false (addEx 0 (fval f a) (fval f b)) else (wrap f (intVal f a + intVal f b), false))
  | 1 => one (if isF f then roundEx f 0 0 false false (mulEx (fval f a) (fval f b)) else (wrap f (intVal f a * intVal f b), false))
  | 2 => one (pickLane false f a b, false)
  | 3 => one (pickLane true f a b, false)
  | 4 => one (a &&& b, false)
  | 5 => one (a ||| b, false)
  | 6 => one (a ^^^ b, false)
  | 7 =>
    let e := [mat2Elem x y 0 0, mat2Elem x y 0 1, mat2Elem x y 1 0, mat2Elem x y 1 1]
    (e.map (·.1), e.any (·.2))
  | _ => lse2 x y

/-- Combination of two tokens (R276); `port` is the collective port of the rank that forms it. -/
def combineTok (oper : Nat) (f : Fmt) (port : Nat) (x y : Reg) : Reg :=
  let n := groupSize oper
  let whole (r : Reg) (g : Nat) : Bool := (List.range n).all (fun i => okAt r (n * g + i))
  let lanes (r : Reg) (g : Nat) : List Nat := (List.range n).map (fun i => laneOf r (n * g + i) % 2 ^ fmtWidth f)
  let group (g : Nat) : List (Option Nat) × Bool :=
    if whole x g && whole y g then (let r := operGroup oper f (lanes x g) (lanes y g); (r.1.map some, r.2))
    else if whole x g then ((List.range n).map (fun i => some (laneOf x (n * g + i))), false)
    else if whole y g then ((List.range n).map (fun i => some (laneOf y (n * g + i))), false)
    else (List.replicate n none, false)
  let gs := (List.range (16 / n)).map group
  let vs := gs.flatMap (·.1)
  let exc := gs.any (·.2)
  { data := (List.range 16).map (fun i => BitVec.ofNat 32 ((vs.getD i none).getD (identityLane oper f i)))
    valid := maskOf (fun i => (vs.getD i none).isSome)
    fmt := f
    p := x.p || y.p || exc
    origin := if x.p then x.origin else if y.p then y.origin else if exc then port else 0
    xs := 0 }

/-- A contribution: its tokens in order. -/
abbrev Contrib := List Reg

def combineAll (oper : Nat) (f : Fmt) (port : Nat) (x y : Contrib) : Contrib := List.zipWith (combineTok oper f port) x y

/-- E: the identity with every valid bit clear, for t tokens. -/
def identityTok (oper : Nat) (f : Fmt) : Reg :=
  { data := (List.range 16).map (fun i => BitVec.ofNat 32 (identityLane oper f i)), valid := 0, fmt := f, p := false, origin := 0, xs := 0 }
def identityOf (oper : Nat) (f : Fmt) (t : Nat) : Contrib := List.replicate t (identityTok oper f)

/-! ## Associations (R278, R279) -/

/-- What an association needs: the combination at a rank, the contributions by rank, E. -/
structure Ranks where
  op : Nat → Contrib → Contrib → Contrib
  x  : Nat → Contrib
  e  : Contrib

/-- Left fold of parts, each with the rank at which it is added. -/
def Ranks.fold (r : Ranks) : List (Nat × Contrib) → Contrib
  | [] => r.e
  | (_, v) :: rest => rest.foldl (fun acc p => r.op p.1 acc p.2) v

/-- Left fold of ranks lo … hi − 1; `at'` names the rank of every combination, or each is formed at the rank that it adds. -/
def Ranks.line (r : Ranks) (at' : Option Nat) (lo hi : Nat) : Contrib :=
  r.fold ((List.range (hi - lo)).map (fun i => (at'.getD (lo + i), r.x (lo + i))))

/-- One level of Tree(lo, hi): position j takes position j + w. -/
def Ranks.level (r : Ranks) (lo n w : Nat) (vs : List Contrib) : List Contrib :=
  (List.range n).map (fun j => if j % (2 * w) = 0 ∧ j + w < n then r.op (lo + j) (vs.getD j []) (vs.getD (j + w) []) else vs.getD j [])

/-- Tree(lo, lo + n). -/
def Ranks.tree (r : Ranks) (lo n : Nat) : Contrib :=
  match n with
  | 0 => r.e
  | _ => (([1, 2, 4, 8, 16, 32].foldl (fun vs w => r.level lo n w vs) ((List.range n).map (fun i => r.x (lo + i)))).head?).getD r.e

/-- The blocks of the binary decomposition of i, largest first: start and size. -/
def blocks (i : Nat) : List (Nat × Nat) :=
  ([64, 32, 16, 8, 4, 2, 1].foldl (fun (acc : Nat × List (Nat × Nat)) b => if i / b % 2 = 1 then (acc.1 + b, acc.2 ++ [(acc.1, b)]) else acc) (0, [])).2

/-- The largest power of two, at most p, that divides s and fits below n. -/
def blockFrom (s n : Nat) : Nat := (([64, 32, 16, 8, 4, 2, 1].find? (fun p => s % p == 0 && decide (s + p ≤ n))).getD 1)

/-- The aligned blocks that cover s … n − 1. -/
def blocksFrom (n : Nat) : Nat → Nat → List (Nat × Nat)
  | 0, _ => []
  | f + 1, s => if n ≤ s then [] else (s, blockFrom s n) :: blocksFrom n f (s + blockFrom s n)

/-- Trees of blocks, combined by a left fold: each is added at its lowest rank. -/
def Ranks.treesOf (r : Ranks) (bs : List (Nat × Nat)) : Contrib := r.fold (bs.map (fun b => (b.1, r.tree b.1 b.2)))

/-- R under an algorithm (0 RING 1 TREE 2 RHD 3 DIRECT), as rank i receives it. -/
def Ranks.all (r : Ranks) (alg n i : Nat) : Contrib :=
  if alg = 0 then r.line none 0 n else if alg = 3 then r.line (some i) 0 n else r.tree 0 n

/-- Pre(i) under an algorithm, as rank `me` receives it. -/
def Ranks.pre (r : Ranks) (alg i me : Nat) : Contrib :=
  if alg = 0 then r.line none 0 i else if alg = 3 then r.line (some me) 0 i else r.treesOf (blocks i)

/-- P_i of CHAIN: P_(j+1) = P_j ⊕ x_j, formed at rank j, from P_0 = E. -/
def Ranks.forward (r : Ranks) (i : Nat) : Contrib := (List.range i).foldl (fun acc j => r.op j acc (r.x j)) r.e

/-- S_i of CHAIN: S_(j−1) = x_j ⊕ S_j, formed at rank j, from S_(n−1) = E. -/
def Ranks.backward (r : Ranks) (n i : Nat) : Contrib := (List.range (n - 1 - i)).foldr (fun d acc => r.op (i + 1 + d) (r.x (i + 1 + d)) acc) r.e

/-- P_i and S_i of CAVITY; `tree` is the cavity algorithm. -/
def Ranks.cavity (r : Ranks) (tree : Bool) (n i : Nat) : Contrib × Contrib :=
  if tree then (r.treesOf (blocks i), r.treesOf (blocksFrom n 64 (i + 1))) else (r.forward i, r.backward n i)

/-- P_i ⊕ S_i at rank i; at the ends the one side that there is, and E for a lone contributor. -/
def Ranks.meet (r : Ranks) (n i : Nat) (p : Contrib × Contrib) : Contrib :=
  if i = 0 then p.2 else if i + 1 = n then p.1 else r.op i p.1 p.2

/-! ## Results (R277): operations 0 ALLRED 1 REDSCAT 2 ALLGATH 3 BCAST 4 REDUCE 5 BARRIER 6 SCAN inclusive 7 SCAN exclusive 8 CAVITY -/

/-- Ranks whose contributions the result of rank i needs. -/
def neededRanks (op n root i : Nat) : List Nat :=
  match op with
  | 3 => [root]
  | 4 => if i = root then List.range n else []
  | 5 => []
  | 6 => List.range (i + 1)
  | 7 => List.range i
  | 8 => if n = 1 then [] else (List.range n).filter (· != i)
  | _ => List.range n

/-- A rank reads its source (R271, R277, R294). -/
def readsSource (op n root i : Nat) : Bool := !(op == 5 || (op == 3 && i != root) || (op == 8 && n == 1))

/-- The token areas that rank i's reserved area receives in order: the segments that go to its destination; for CAVITY both sides, then the one that does. -/
def Ranks.results (r : Ranks) (op alg : Nat) (tree : Bool) (n root i t : Nat) : List Contrib :=
  match op with
  | 0 => [r.all alg n i]
  | 1 => [((r.all alg n i).drop (i * (t / n))).take (t / n)]
  | 2 => (List.range n).map r.x
  | 3 => [r.x root]
  | 4 => if i = root then [r.all alg n i] else []
  | 6 => [r.pre alg (i + 1) i]
  | 7 => [r.pre alg i i]
  | 8 => let p := r.cavity tree n i; [p.1, p.2, r.meet n i p]
  | _ => []

/-- Bytes of the token area of a contribution of b bytes (R271). -/
def areaBytes (b : Nat) : Nat := b + 64 * ((b + 511) / 512)

/-- A token area: payloads, then the status entries, padded with zeros. -/
def areaOf (c : Contrib) : List Byte :=
  let p := c.flatMap (fun r => r.data.flatMap (fun d => leBytes 4 d.toNat))
  let st := c.flatMap (fun r => leBytes 8 (r.valid.toNat + Bool.nat r.p * 2 ^ 16 + r.origin * 2 ^ 32))
  p ++ st ++ List.replicate (areaBytes (64 * c.length) - 72 * c.length) 0

/-- The tokens that an area of t tokens holds, none where a status entry has a reserved bit. -/
def tokensIn (f : Fmt) (t : Nat) (b : List Byte) : Option Contrib :=
  let st (i : Nat) : Nat := leNat ((b.drop (64 * t + 8 * i)).take 8)
  if (List.range t).any (fun i => bits (st i) 31 17 != 0 || bits (st i) 63 48 != 0) then none
  else some ((List.range t).map (fun i =>
    { data := (List.range 16).map (fun j => BitVec.ofNat 32 (leNat ((b.drop (64 * i + 4 * j)).take 4)))
      valid := BitVec.ofNat 16 (st i)
      fmt := f
      p := bit (st i) 16
      origin := bits (st i) 47 32
      xs := 0 }))

end Sys2Proof.Machine
end

