-- ==== Sys2Proof/Machine/RcColl.lean ====
section
/-! DEFINITION. Collectives as the RC issues them (R266, R268 to R273, R277, R281, R282, R286, R299, R312). -/

namespace Sys2Proof.Machine

/-! ## Communicator records (R269) -/

/-- Port of a die's engine that leads to a die of the package: 18 for its own, 19 to 21 for the others (R273). -/
def diePort (d e : Nat) : Nat := if d = e then 18 else 19 + (if e < d then e else e - 1)

/-- The ports by which a member may be reached (R273, R365). -/
def State.portsTo (s : State) (k pt e : Nat) : List Nat :=
  if s.entryOwn pt e then [diePort (dieOf k % 4) (dieOf (entryCore e))]
  else (List.range 18).filter (bit (((s.routeEntry pt (entryRoute e)).map (fun r => bits r 33 16)).getD 0))

/-- The port by which a member is reached; of a route's strait ports the lowest that is up, or the lowest (log 16). -/
def State.portTo (s : State) (k pt e : Nat) : Nat :=
  let ps := s.portsTo k pt e
  ((ps.find? (fun p => decide (18 ≤ p) || !(s.strait p).down)).orElse (fun _ => ps.head?)).getD 0

/-- The causes that refuse a rank-table entry: its form, then what it names. -/
def entryForm (e : Nat) : Bool := bits e 5 0 == 50 && bits e 63 32 == 0
def State.entryReach (s : State) (pt e : Nat) : Bool :=
  if s.entryOwn pt e then bit s.fuses.isles (isleOf (entryCore e)) && bit (s.part pt).isles (isleOf (entryCore e))
  else (s.routeEntry pt (entryRoute e)).isSome

/-- The region's current image loads context 3 of a row-3 cell (R272). -/
def State.loadsRank (s : State) (k : Nat) : Bool :=
  (s.regionCores k).any (fun c => (List.range 8).any (fun i => (s.ctx c (24 + i) 3).loaded))

/-- Format of a communicator record's fixed fields. -/
def commForm (b : List Byte) : Bool :=
  fld b 0 4 != 0 && decide (1 ≤ fld b 4 1) && decide (fld b 4 1 ≤ 64) && decide (fld b 5 1 < fld b 4 1) && decide (fld b 7 1 < 2)
    && fld b 8 4 % 8 == 0 && fld b 12 4 % 64 == 0 && fld b 16 4 % 64 == 0 && (b.drop 20).all (· == 0)

/-- VC pairs taken on a port: a strait port serves the package, a die link its die (R282, R299). -/
def State.pairsTaken (s : State) (die port : Nat) : List Nat :=
  (s.dies.flatMap (fun d => if port < 18 ∨ d.1 = die then d.2.comms.flatMap (fun c => c.2.vcs) else [])).filterMap (fun v => if v.1 = port then some v.2 else none)

/-- The lowest free pair on each port; none where a port has none. -/
def State.takePairs (s : State) (die : Nat) : List Nat → Option (List (Nat × Nat))
  | [] => some []
  | p :: r =>
    match (List.range 32).find? (fun v => !(s.pairsTaken die p).contains v), s.takePairs die r with
    | some v, some l => some ((p, v) :: l)
    | _, _ => none

/-- A router entry over the ports that a communicator uses: what the algorithm chooses is open, its ports are among these (R273, R282; log 16). Its current
set is 0 and its reserved bits are zero. -/
def routerWord (ports : List Nat) (e : Nat) : Nat :=
  (List.range 16).foldl (fun w i => w + ports.getD (bits e (5 * i + 4) (5 * i) % ports.length) 18 * 2 ^ (5 * i)) (bits e 124 122 * 2 ^ 122)

/-- Router entries of a communicator, four virtual streams to a slot (R273; log 16). -/
def routerEntries (slot key : Nat) (ports : List Nat) (m : Assoc Nat) : Assoc Nat :=
  (List.range 4).foldl (fun m i => aset m (4 * slot + i) (routerWord ports (Config.routerEntry key (4 * slot + i)))) m

/-- The lowest free slot of a die's engine (R268, R286). -/
def Die.freeSlot (d : Die) : Option Nat := (List.range 16).find? (fun c => (aget d.comms c).isNone)

/-- COMM: the slot, its VC pairs and router entries; the members in other packages hear of it (R270). -/
def State.rcComm (s : State) (d a : Nat) : State :=
  let k := s.fcore
  let pt := s.partAt k
  let die := dieOf k % 4
  s.rcOrdered (s.q k a % 2 ^ 32) 64 (fun s =>
  match s.load (s.agent k 8) k (s.q k a % 2 ^ 32) 64 64 false with
  | (_, .error f) => s.rcFault k f
  | (t, .ok (b, _)) =>
    let n := fld b 4 1
    if !commForm b then t.rcTrap 0x0A3
    else t.rcOrdered (fld b 8 4) (8 * n) (fun t =>
      match t.load (t.agent k 8) k (fld b 8 4) (8 * n) 8 false with
      | (_, .error f) => s.rcFault k f
      | (u, .ok (tb, _)) =>
        let table := (List.range n).map (fun i => fld tb (8 * i) 8)
        let own := table.getD (fld b 5 1) 0
        if !table.all entryForm then u.rcTrap 0x0A3
        else if !(u.entryOwn pt own && entryCore own == k) || !table.all (u.entryReach pt) || u.loadsRank k then u.rcTrap 0x0A4
        else match (u.die die).freeSlot with
        | none => u.rcTrap 0x0A6
        | some slot =>
          let ports := dedup (table.flatMap (u.portsTo k pt))
          match u.takePairs die (ports.filter (· != 18)) with
          | none => u.rcTrap 0x126
          | some vcs =>
            let c : Comm := { core := k, node := (u.rc k).node, key := fld b 0 4, n := n, rank := fld b 5 1, gen := fld b 6 1, trace := bit (fld b 7 1) 0,
                              table := table, area := fld b 12 4, size := fld b 16 4, via := table.map (u.portTo k pt), vcs := vcs }
            (((u.modDie die (fun x => { x with comms := aset x.comms slot c, router := routerEntries slot c.key (18 :: ports) x.router })).modCore k
              (fun x => { x with rank := x.rank + 1 })).tellAll c 0 0 []).rcPut d slot))

/-! ## COLL (R266, R271, R277, R281, R286) -/

/-- Size class of B and group class of n (R281). -/
def sizeClass (b : Nat) : Nat := if b ≤ 256 then 0 else if b ≤ 4096 then 1 else if b ≤ 65536 then 2 else if b ≤ 2 ^ 20 then 3 else if b ≤ 2 ^ 24 then 4 else 5
def groupClass (n : Nat) : Nat := if n ≤ 2 then 0 else if n ≤ 4 then 1 else if n ≤ 8 then 2 else if n ≤ 16 then 3 else 4

/-- The reserved area that an operation needs (R271). -/
def areaNeeded (op n b : Nat) : Nat := if op = 8 then 3 * areaBytes b else if op = 2 then n * areaBytes b else areaBytes b

/-- The causes that refuse a descriptor. -/
def collCause (c : Comm) (op oper : Nat) (b : List Byte) : Option Nat :=
  let n := fld b 8 4
  firstBad [
    (decide (16 ≤ fld b 12 1) || decide (8 ≤ fld b 14 1) || (b.drop 15).any (· != 0) || !operAccepts oper (fmtOf (fld b 12 1)) || n % 64 != 0
      || (op == 5 && n != 0) || ((op == 3 || op == 4) && decide (c.n ≤ fld b 13 1)), 0x0A3),
    (op == 1 && n % (64 * c.n) != 0, 0x0A2),
    (c.st == 3, 0x0A5),
    (decide (16 ≤ (c.colls.filter (fun q => q.status % 4 == 0)).length), 0x0A6),
    (decide (c.size < areaNeeded op c.n n), 0x0A1)]

def State.modComm (s : State) (die c : Nat) (f : Comm → Comm) : State :=
  s.modDie die (fun d => { d with comms := match aget d.comms c with | some v => aset d.comms c (f v) | none => d.comms })

/-- The selection of a collective at its issue: the override, else the table's entry; none for a lone rank. -/
def State.selection (s : State) (pt : Nat) (c : Comm) (b : Nat) : Nat :=
  if c.n = 1 then 0 else c.setSel.getD ((s.part pt).csel.getD (sizeClass b * 5 + groupClass c.n) 0)

def State.rcColl (s : State) (d a b op oper : Nat) : State :=
  let k := s.fcore
  let ch := s.q k a
  match s.commAt k ch with
  | none => s.rcTrap 0x0A0
  | some c =>
    if 9 ≤ op ∨ 9 ≤ oper then s.rcTrap 0x0A0
    else s.rcOrdered (s.q k b % 2 ^ 32) 32 (fun s =>
      match s.load (s.agent k 8) k (s.q k b % 2 ^ 32) 32 32 false with
      | (_, .error f) => s.rcFault k f
      | (t, .ok (bs, _)) =>
        match collCause c op oper bs with
        | some e => t.rcTrap e
        | none =>
          let r := t.release k 8
          match r.1.acquire k 12 r.2 with
          | (_, .error f) => s.rcFault k f
          | (u, .ok _) =>
            let h := 4096 * ch + c.issued % 4096
            let q : Coll := { handle := h, op := op, oper := oper, src := fld bs 0 4, dst := fld bs 4 4, size := fld bs 8 4, fmt := fmtOf (fld bs 12 1),
                              root := fld bs 13 1, prio := fld bs 14 1, sel := u.selection (u.partAt k) c (fld bs 8 4), index := c.issued }
            (u.modComm (dieOf k % 4) ch (fun c => { c with issued := c.issued + 1, colls := c.colls ++ [q] })).rcPut d h)

/-! ## CWAIT, CSTAT, CSEL (R266) -/

/-- A collective that this node issued: the last with the handle. -/
def State.collAt (s : State) (k h : Nat) : Option (Comm × Coll) :=
  if 65536 ≤ h then none
  else (s.commAt k (h / 4096)).bind (fun c => (c.colls.filter (fun q => q.handle = h)).getLast?.map (fun q => (c, q)))

/-- The status, of which C acquires (R113, R266). -/
def State.rcCollStatus (s : State) (d a : Nat) (wait : Bool) : State :=
  let k := s.fcore
  match s.collAt k (s.q k a) with
  | none => s.rcTrap 0x0A0
  | some (_, q) => if wait && q.status % 4 == 0 then s else s.rcTake (if bit q.status 0 then q.clr else []) (·.rcPut d q.status)

def State.rcCsel (s : State) (a b : Nat) : State :=
  let k := s.fcore
  let v := s.q k b
  match s.commAt k (s.q k a) with
  | none => s.rcTrap 0x0A0
  | some _ =>
    if 128 ≤ v ∨ 5 < bits v 4 2 then s.rcTrap 0x0A3
    else (s.modComm (dieOf k % 4) (s.q k a) (fun c => { c with setSel := if bit v 6 then none else some (v % 64) })).rcNext k 4

/-! ## Instructions -/

/-- COMM. -/
def execRcComm (d a : Nat) (st : State) : Out := .next (st.rcComm d a)
/-- COLL: p is the operation, o the operator. -/
def execRcColl (d a b p o : Nat) (st : State) : Out := .next (st.rcColl d a b p o)
/-- CWAIT. -/
def execRcCwait (d a : Nat) (st : State) : Out := .next (st.rcCollStatus d a true)
/-- CSTAT. -/
def execRcCstat (d a : Nat) (st : State) : Out := .next (st.rcCollStatus d a false)
/-- CSEL. -/
def execRcCsel (a b : Nat) (st : State) : Out := .next (st.rcCsel a b)

end Sys2Proof.Machine
end

