-- ==== Sys2Proof/Machine/EvColl.lean ====
section
/-! DEFINITION. Events of collectives (R270 to R274, R277, R280 to R284, R287, R294 to R300): how communicators form and break, chunks, combination, done
notices and commits, lost members, router entries. -/

namespace Sys2Proof.Machine

/-! ## Forming and breaking (R270) -/

def State.modColl (s : State) (k slot h : Nat) (f : Coll → Coll) : State :=
  s.modComm (dieOf k % 4) slot (fun c => { c with colls := c.colls.map (fun q => if q.handle = h ∧ q.status = 0 then f q else q) })

/-- The communicator in a slot of a core's engine, and one of its collectives that has not completed. -/
def State.commIn (s : State) (k slot : Nat) : Option Comm := (aget (s.die (dieOf k % 4)).comms slot).filter (fun c => c.core == k)
def Comm.live (c : Comm) (h : Nat) : Option Coll := c.colls.find? (fun q => q.handle == h && q.status == 0 && q.pend.isNone)

/-- A collective completes with a status; sr.ev bit 3 is latched (R249, R266). -/
def State.endColl (s : State) (k slot h status : Nat) : State := (s.modColl k slot h (fun q => { q with status := status })).latch (s.leadOf k) 3

/-- Collectives fail with a record of the rank's engine: their status shows once the record is visible (R115). -/
def State.failColls (s : State) (k slot sev cause status : Nat) (hs : List Nat) : State :=
  let n := s.nextSeq (agentId k 50)
  hs.foldl (fun t h => t.modColl k slot h (fun q => { q with pend := some (status, n) })) (s.postFault sev 2 k 50 cause 0 0 0)

/-- COMMUNICATOR_FORMED: every member has issued COMM. -/
def State.formComm (s : State) (k slot : Nat) : State :=
  match s.commIn k slot with
  | none => s
  | some c =>
    let joined (r : Nat) : Bool := if s.foreign c r then (s.heard c 0 r 0).isSome else match s.member c r with | some o => o.st != 3 | none => false
    if c.st = 1 ∧ (List.range c.n).all joined then s.modComm (dieOf k % 4) slot (fun c => { c with st := 2 }) else s

/-- A member's record differs: in this package, or as a message from another tells it; two members may not hold one rank. -/
def State.mismatch (s : State) (c : Comm) : Bool :=
  s.allComms.any (fun m => m.2.2.core != c.core && s.mates c m.2.2 && m.2.2.st != 2 && !(m.2.2.st == 3 && m.2.2.lost) && (m.2.2.st == 3 || !agrees c m.2.2 || m.2.2.rank == c.rank))
    || s.ctl.any (fun m => m.kind == 0 && m.key == c.key && bits m.dest 15 6 == c.core && m.gen != (c.gen + 1) % 256 && (!isAbout m c || m.rank == c.rank))

/-- COMMUNICATOR_BROKEN: a record that differs, a rank taken twice, or what another package finds, breaks every member's that is forming. -/
def State.breakComm (s : State) (k slot : Nat) : State :=
  match s.commIn k slot with
  | none => s
  | some c =>
    let others := s.allComms.filter (fun m => m.2.2.core != k && m.2.2.st == 1 && s.mates c m.2.2)
    if c.st ≠ 1 ∨ !(s.mismatch c || s.ctl.any (fun m => m.kind == 4 && isAbout m c)) then s
    else
      ((dieOf k % 4, slot, c) :: others).foldl (fun t m =>
        let o := m.2.2
        let t1 := (o.colls.filter (fun q => q.status == 0)).foldl (fun t q => t.endColl o.core m.2.1 q.handle 10) t
        (t1.modComm m.1 m.2.1 (fun c => { c with st := 3 })).tellAll o 4 0 []) s

/-! ## Chunks (R281, R282, R296, R298 to R300) -/

def Coll.alg (q : Coll) : Nat := bits q.sel 1 0
def Coll.cavTree (q : Coll) : Bool := bit q.sel 5
/-- Payload bytes of a full chunk. -/
def Coll.chunk (q : Coll) : Nat := 512 * 2 ^ bits q.sel 4 2

/-- A chunk of DIRECT: the rank that it goes to, its first token in the source, its payload in bytes. -/
structure Chunk where
  rank : Nat
  tok  : Nat
  size : Nat
  deriving DecidableEq, Repr

/-- Bytes from a token of the source, cut into chunks for a rank. -/
def cuts (chunk rank tok n : Nat) : List Chunk :=
  (List.range ((n + chunk - 1) / chunk)).map (fun i => ⟨rank, tok + i * (chunk / 64), min chunk (n - i * chunk)⟩)

/-- The chunks that a rank sends under DIRECT, in order; none where the spec does not give them (log 16). -/
def directChunks (c : Comm) (q : Coll) : Option (List Chunk) :=
  if c.n = 1 then some []
  else if q.alg ≠ 3 then none
  else match q.op with
  | 1 => some ((List.range (c.n - 1)).flatMap (fun d => let j := (c.rank + d + 1) % c.n; cuts q.chunk j (j * (q.size / 64 / c.n)) (q.size / c.n)))
  | 3 => some (if c.rank = q.root then ((List.range c.n).filter (· != c.rank)).flatMap (fun r => cuts q.chunk r 0 q.size) else [])
  | 5 => some (if c.rank = 0 then [] else [⟨0, 0, 0⟩])
  | _ => none

/-- The ports of a communicator. -/
def Comm.ports (c : Comm) : List Nat := dedup (18 :: c.via ++ c.vcs.map (·.1))

/-- The ranks whose contributions, or whose arrivals at a barrier under DIRECT, a rank waits for (R277, R296). -/
def awaits (c : Comm) (q : Coll) : List Nat :=
  if q.op = 5 then (if q.alg = 3 ∧ c.rank = 0 then (List.range c.n).filter (· != 0) else []) else neededRanks q.op c.n q.root c.rank

/-- Another rank waits for this one. -/
def feeds (c : Comm) (q : Coll) : Bool := (List.range c.n).any (fun j => j != c.rank && (awaits { c with rank := j } q).contains c.rank)

/-- The number of the next chunk that leaves by a port: the first that has not started; under an open schedule a new one, while the result is not staged or
another rank waits for the first (log 16). -/
def State.nextOn (s : State) (c : Comm) (q : Coll) (port : Nat) : Option Nat :=
  match directChunks c q with
  | some l => (List.range l.length).find? (fun i => !q.sent.contains i && (match l[i]? with | some x => s.portNow c x.rank == port | none => false))
  | none => if (!q.staged || (q.sent == [] && feeds c q)) && c.ports.contains port && (port == 18 || (c.pair port).isSome) then some q.sent.length else none

/-- A rank has nothing more to send. -/
def sentOut (c : Comm) (q : Coll) : Bool := match directChunks c q with | some l => decide (l.length ≤ q.sent.length) | none => true

/-- The engine reads a rank's source (R271): an area with a reserved bit faults with 0x0A3. -/
def State.readSource (s : State) (k : Nat) (q : Coll) : Did Contrib :=
  match s.load (s.agent k 12) k q.src (areaBytes q.size) 4 false with
  | (t, .error f) => (t, .error f)
  | (t, .ok (b, _)) =>
    match tokensIn q.fmt (q.size / 64) b with
    | some x => (t, .ok x)
    | none => (t, .error ⟨0x0A3, q.src, 0, false⟩)

/-- A rank's source is read, if it has one and it has not been. -/
def State.withSource (s : State) (k slot : Nat) (c : Comm) (q : Coll) : Did Unit :=
  if q.read then (s, .ok ())
  else if !readsSource q.op c.n q.root c.rank then (s.modColl k slot q.handle (fun q => { q with read := true }), .ok ())
  else match s.readSource k q with
  | (t, .error f) => (t, .error f)
  | (t, .ok x) => (t.modColl k slot q.handle (fun q => { q with read := true, own := x }), .ok ())

/-- A fault of the collective engine for a rank. -/
def State.collFault (s : State) (k : Nat) (f : Fail) : State := s.engineFault k 50 2 f 0

/-- The flits of a chunk: one for each token, and those of the status entries; an empty chunk is one flit. -/
def chunkFlits (c : Comm) (q : Coll) (x : Chunk) (known : Bool) : List FlitBody :=
  let f (t : Option Reg) : FlitBody := .chunk { dest := bits (c.table.getD x.rank 0) 15 0, key := c.key, gen := c.gen, rank := c.rank, index := q.index, tok := t }
  let n := x.size / 64
  (List.range (max 1 (n + (n + 7) / 8))).map (fun i => f (if known && decide (i < n) then q.own[x.tok + i]? else none))

/-- A chunk starts: its CHUNK event, whose index counts the chunks that the rank has started (R300, R385), its flits, and the port's round robin. Under an open
schedule its payload is free, at most a chunk, and it goes to a rank that the port leads to. -/
def State.startChunk (s : State) (die slot port : Nat) (c : Comm) (q : Coll) (i : Nat) : State :=
  let known := (directChunks c q).bind (fun l => l[i]?)
  let f := s.free
  let x : Chunk := known.getD ⟨((List.range c.n).find? (fun r => s.portNow c r == port)).getD 0, 0, f.1 % (q.chunk + 1)⟩
  let t := if known.isSome then s else f.2
  let body := leBytes 1 slot ++ leBytes 1 q.prio ++ leBytes 2 q.handle ++ leBytes 4 q.sent.length ++ leBytes 1 port ++ leBytes 1 (c.dataVc port) ++ leBytes 2 x.size
  let t1 := if c.trace then t.post (s.commPart c) 1 (collKey die) die body true else t
  let t2 := if port < 18 then t1.sendColl c x.rank false (chunkFlits c q x known.isSome) else t1
  (t2.modColl c.core slot q.handle (fun q => { q with sent := q.sent ++ [i] })).modDie die (fun d => { d with lastSlot := aset d.lastSlot port slot })

/-- The VC of a communicator has buffer space at the receiver: a credit, and nothing that waits for one (R298, R367). -/
def State.hasSpace (s : State) (c : Comm) (port : Nat) : Bool :=
  decide (18 ≤ port) || (let p := s.strait port; let v := c.dataVc port; !p.down && (p.waiting v).isEmpty && decide (0 < p.own v + p.pool))

/-- The chunk that a communicator would start next on a port, if it is ready: of the earliest collective that has one there, which its rank has issued, whose
source the engine has read, with space at the receiver (R298). -/
def State.nextChunk (s : State) (c : Comm) (port : Nat) : Option (Coll × Nat) :=
  if c.st ≠ 2 ∨ !s.hasSpace c port then none
  else match c.colls.findSome? (fun q => if q.status = 0 ∧ q.pend.isNone then (s.nextOn c q port).map (fun i => (q, i)) else none) with
  | some (q, i) => if q.read then some (q, i) else none
  | none => none

/-- The slot that a port takes: of the ready ones the highest priority, and the first after the last slot among equals (R282). -/
def State.pickSlot (s : State) (die port : Nat) : Option (Nat × Comm × Coll × Nat) :=
  let d := s.die die
  let last := (aget d.lastSlot port).getD 15
  let order := (List.range 16).map (fun i => (last + 1 + i) % 16)
  let cands := order.filterMap (fun i => (aget d.comms i).bind (fun c => (s.nextChunk c port).map (fun q => (i, c, q.1, q.2))))
  cands.foldl (fun (best : Option (Nat × Comm × Coll × Nat)) m =>
    match best with
    | none => some m
    | some b => if b.2.2.1.prio < m.2.2.1.prio then some m else best) none

/-- CHUNK_START at a port of a die. -/
def State.chunkStarts (s : State) (die port : Nat) : State :=
  match s.pickSlot die port with
  | none => s
  | some (slot, c, q, i) => s.startChunk die slot port c q i

/-! ## Combination (R272, R276 to R280) -/

/-- Two members' collectives at the same place differ (R277). -/
def differs (p q : Coll) : Bool :=
  !(p.op == q.op && p.oper == q.oper && p.size == q.size && p.fmt == q.fmt && p.root == q.root && p.sel == q.sel)

/-- A member of this package has issued a differing collective at a place. -/
def State.clashes (s : State) (c : Comm) (q : Coll) : Bool :=
  s.allComms.any (fun m => agrees c m.2.2 && m.2.2.colls.any (fun p => p.index == q.index && differs p q))

/-- The chunks of a rank for another have started; under an open schedule, chunks of it have (log 16). -/
def sentTo (o : Comm) (p : Coll) (j : Nat) : Bool :=
  match directChunks o p with
  | some l => (List.range l.length).all (fun i => p.sent.contains i || (match l[i]? with | some x => x.rank != j | none => true))
  | none => p.sent != []

/-- What has come from a rank of another package under DIRECT: its tokens, once all of them are there. -/
def Comm.arrived (c : Comm) (q : Coll) (r : Nat) : Option Contrib :=
  let l := c.inbox.filter (fun f => f.rank == r && f.index == q.index)
  let ts := l.filterMap (·.tok)
  let want := if q.op = 1 then q.size / 64 / c.n else if q.op = 5 then 0 else q.size / 64
  if l = [] ∨ ts.length < want then none
  else
    let e := identityOf q.oper q.fmt (q.size / 64)
    let at' := if q.op = 1 then c.rank * want else 0
    some (e.take at' ++ ts.map (fun t => { t with fmt := q.fmt }) ++ e.drop (at' + want))

/-- A rank's contribution, where it has come: the own once it is read, another's once its chunks have been sent. -/
def State.contribOf (s : State) (c : Comm) (q : Coll) (r : Nat) : Option Contrib :=
  if r = c.rank then (if q.read then some q.own else none)
  else if s.foreign c r then (if (directChunks c q).isSome then c.arrived q r else aget q.gotR r)
  else (s.member c r).bind (fun o => (o.colls.find? (fun p => p.index == q.index && p.read && sentTo o p c.rank)).map (·.own))

/-- Contributions that come from other packages under an open schedule, as the event brings them. -/
def State.takeLanes (s : State) (k slot : Nat) (c : Comm) (q : Coll) (l : List (Nat × List Reg)) : State :=
  let good := l.filter (fun e => decide (e.1 < c.n) && s.foreign c e.1 && e.2.length * 64 == q.size)
  s.modColl k slot q.handle (fun q => { q with gotR := good.foldl (fun m e => aset m e.1 (e.2.map (fun r => { r with fmt := q.fmt }))) q.gotR })

/-- The token areas of a rank's result. -/
def State.resultOf (s : State) (c : Comm) (q : Coll) : List Contrib :=
  let r : Ranks := {
    op := fun i => combineAll q.oper q.fmt (bits (c.table.getD i 0) 15 0)
    x := fun i => (s.contribOf c q i).getD []
    e := identityOf q.oper q.fmt (q.size / 64) }
  r.results q.op q.alg q.cavTree c.n q.root c.rank (q.size / 64)

/-- Bytes that the engine writes as agent 12. -/
def State.engineStore (s : State) (k addr : Nat) (b : List Byte) : Did Unit :=
  if b = [] then (s, .ok ()) else s.store (s.agent k 12) k addr b (List.replicate b.length 255) 4 false

/-- The reserved area still stages the result of an earlier collective (R283, R287). -/
def Comm.areaBusy (c : Comm) (q : Coll) : Bool := c.colls.any (fun p => p.status == 0 && p.pend.isNone && decide (p.index < q.index))

/-- How many combinations the cells form: under DIRECT one for each received segment (R296), else all in one; none where nothing is combined. -/
def combines (c : Comm) (q : Coll) : Nat :=
  if c.n = 1 ∨ q.op = 2 ∨ q.op = 3 ∨ q.op = 5 ∨ (q.op = 4 ∧ c.rank ≠ q.root) then 0 else if (directChunks c q).isSome then c.n - 1 else 1

/-- The result is staged: what the engine has read and written it releases to every rank (R113), and the coordinator has a done notice (R283). -/
def State.stageResult (s : State) (k slot : Nat) (c : Comm) (q : Coll) : State :=
  match s.engineStore k c.area ((s.resultOf c q).flatMap areaOf) with
  | (_, .error f) => s.collFault k f
  | (t, .ok _) =>
    let r := t.release k 12
    let u := (r.1.modColl k slot q.handle (fun q => { q with staged := true, clr := Clr.merge q.clr r.2 })).modCore k (fun o => { o with slotOpen := none })
    if u.foreign c 0 then u.tell c 1 q.index r.2 0 else u

/-- A collective that differs fails at every member of this package. -/
def State.clash (s : State) (c : Comm) (q : Coll) : State :=
  (s.allComms.filter (fun m => agrees c m.2.2)).foldl (fun t m =>
    match m.2.2.colls.find? (fun p => p.index == q.index && p.status == 0 && p.pend.isNone) with
    | some p => t.failColls m.2.2.core m.2.1 0 0x0A3 2 [p.handle]
    | none => t) s

/-- CHUNK_COMBINE: a differing collective completes with F; else the event reads the source, opens the slot of context 3 for a combination whose operands have
come, or combines and closes it, and after the last combination the result is staged. -/
def State.chunkCombines (s : State) (k slot h : Nat) (differ : Bool) (l : List (Nat × List Reg)) : State :=
  match s.commIn k slot with
  | none => s
  | some c =>
    match c.live h with
    | none => s
    | some q0 =>
      if c.st ≠ 2 then s
      else if s.clashes c q0 ∨ (differ ∧ s.foreigners c ≠ []) then s.clash c q0
      else if q0.staged then s
      else if !q0.read then
        match s.withSource k slot c q0 with
        | (_, .error f) => s.collFault k f
        | (t, .ok _) => t
      else
        let s1 := s.takeLanes k slot c q0 l
        let q := (((s1.commIn k slot).bind (·.live h))).getD q0
        let ranks := awaits c q
        let here := if (directChunks c q).isSome && decide (0 < combines c q) then ranks.take (q.folded + 2) else ranks
        if !here.all (fun r => (s1.contribOf c q r).isSome) || c.areaBusy q then s1
        else if q.folded < combines c q then
          if (s1.core k).slotOpen.isNone then s1.modCore k (fun o => { o with slotOpen := some s1.time })
          else (s1.modColl k slot h (fun q => { q with folded := q.folded + 1 })).modCore k (fun o => { o with slotOpen := none })
        else if !sentOut c q then s1
        else s1.stageResult k slot c q

/-- SLOT_CLOSE_TIMEOUT: 2 µs after it opened. -/
def State.slotTimeout (s : State) (k : Nat) : State :=
  match (s.core k).slotOpen with
  | some t => if t + 3600 ≤ s.time then s.modCore k (fun o => { o with slotOpen := none }) else s
  | none => s

/-! ## Done notices and commits (R283, R298) -/

/-- What the rank's engine has released as its result was staged, once its done notice has come to the coordinator. -/
def State.noticeOf (s : State) (c : Comm) (q : Coll) (r : Nat) : Option Clr :=
  if s.foreign c r then (s.heard c 1 r q.index).map (·.clr)
  else (s.member c r).bind (fun o => if o.st = 2 then (o.colls.find? (fun p => p.index == q.index && p.staged && p.status == 0)).map (·.clr) else none)

/-- DONE_NOTICE of a rank at the coordinator; the last of them sends the commit, which carries what every rank's engine has released (R113). -/
def State.doneNotice (s : State) (k slot h r : Nat) : State :=
  match s.commIn k slot with
  | none => s
  | some c =>
    match c.live h with
    | none => s
    | some q =>
      match s.noticeOf c q r with
      | none => s
      | some clr =>
        if c.st ≠ 2 ∨ c.rank ≠ 0 ∨ c.n ≤ r ∨ q.dones.contains r then s
        else
          let all := Clr.merge q.clr clr
          let t := s.modColl k slot h (fun q => { q with dones := q.dones ++ [r], commit := decide (c.n ≤ q.dones.length + 1), clr := all })
          if c.n ≤ q.dones.length + 1 then t.tellAll c 2 q.index all else t

/-- The commit of a collective has left the coordinator: what it carries. -/
def State.committed (s : State) (c : Comm) (q : Coll) : Option Clr :=
  if s.foreign c 0 then (s.heard c 2 0 q.index).map (·.clr)
  else (s.member c 0).bind (fun o => (o.colls.find? (fun p => p.index == q.index && p.commit)).map (·.clr))

/-- Where the result lies in the reserved area, and its bytes; tokens of each area. -/
def destSpan (c : Comm) (q : Coll) : Nat × Nat × Nat :=
  let a := areaBytes q.size
  match q.op with
  | 1 => (0, areaBytes (q.size / c.n), q.size / c.n / 64)
  | 2 => (0, c.n * a, q.size / 64)
  | 4 => if c.rank = q.root then (0, a, q.size / 64) else (0, 0, 0)
  | 5 => (0, 0, 0)
  | 8 => (2 * a, a, q.size / 64)
  | _ => (0, a, q.size / 64)

/-- The origin of the first poisoned token of a result of areas of t tokens. -/
def firstOrigin (f : Fmt) (t : Nat) (b : List Byte) : Option Nat :=
  let a := areaBytes (64 * t)
  ((List.range (if a = 0 then 0 else b.length / a)).flatMap (fun i => (tokensIn f t ((b.drop (a * i)).take a)).getD [])).findSome? (fun r => if r.p then some r.origin else none)

/-- The destination is a sink (R271). -/
def State.destPoison (s : State) (k : Nat) (o : Option Nat) : State :=
  match o with
  | some origin => (s.notePoison (s.leadOf k) origin).postPoisoned k (agentId k 50) origin
  | none => s

/-- The collective at a place, at every member of this package, releases a set too (R113). -/
def State.shareClr (s : State) (c : Comm) (index : Nat) (clr : Clr) : State :=
  (s.allComms.filter (fun m => agrees c m.2.2)).foldl (fun t m => t.modComm m.1 m.2.1 (fun o => { o with colls := o.colls.map (fun q =>
    if q.index = index then { q with clr := Clr.merge q.clr clr } else q) })) s

/-- The engine copies staging to the destination; C releases what every rank's engine has read and staged, and what it wrote (R113, R283). -/
def State.copyResult (s : State) (k slot h : Nat) (c : Comm) (q : Coll) (clr : Clr) : State :=
  let d := destSpan c q
  let copied : Did (List Byte) :=
    if d.2.1 = 0 then (s, .ok [])
    else match s.load (s.agent k 12) k (c.area + d.1) d.2.1 4 false with
    | (t, .error f) => (t, .error f)
    | (t, .ok (b, _)) =>
      match t.engineStore k q.dst b with
      | (u, .error f) => (u, .error f)
      | (u, .ok _) => (u, .ok b)
  match copied with
  | (_, .error f) => s.collFault k f
  | (t, .ok b) =>
    let r := (t.destPoison k (firstOrigin q.fmt d.2.2 b)).release k 12
    (r.1.shareClr c q.index (Clr.merge clr r.2)).endColl k slot h 1

/-- COMMIT at a rank, in issue order. -/
def State.commits (s : State) (k slot h : Nat) : State :=
  match s.commIn k slot with
  | none => s
  | some c =>
    match c.live h with
    | none => s
    | some q =>
      match s.committed c q with
      | none => s
      | some clr => if c.st = 1 ∨ !q.staged ∨ c.areaBusy q then s else s.copyResult k slot h c q clr

/-! ## A lost member (R284) -/

/-- MEMBER_LOST at a survivor: `found` says that a rank core, its engine or every path to it fails. The collectives whose commit has left complete first; the
others fail, and the reserved area is zero-filled. -/
def State.memberLost (s : State) (k slot : Nat) (found : Bool) : State :=
  match s.commIn k slot with
  | none => s
  | some c =>
    let live := c.colls.filter (fun q => q.status == 0 && q.pend.isNone)
    let told := (s.foreigners c).any (fun r => (s.heard c 5 r 0).isSome)
    if c.st = 3 ∨ !(c.lost || told || (found && decide (1 < c.n))) ∨ live.any (fun q => (s.committed c q).isSome) then s
    else
      let s1 := s.modComm (dieOf k % 4) slot (fun c => { c with st := 3, lost := true })
      if live = [] then s1
      else match (s1.failColls k slot 1 0x0A7 14 (live.map (·.handle))).engineStore k c.area (List.replicate c.size 0) with
      | (_, .error f) => s1.collFault k f
      | (t, .ok _) => t

/-! ## Router entries (R273, R274) -/

/-- A STEP advances the current set of a router entry. -/
def stepEntry (e : Nat) : Nat := e % 2 ^ 125 + ((bits e 127 125 + 1) % (bits e 124 122 + 1)) * 2 ^ 125
/-- The output port of a router entry's current set. -/
def outPort (e : Nat) : Nat := let c := bits e 127 125; bits e (10 * c + 4) (10 * c)

/-- A token on virtual stream v of a die's router goes on by the current set: to the engine at port 18, to another die's router, or by a strait port with the
data VC of the stream's communicator; a STEP then advances the set. None where the entry is empty (R273). The number bounds the dies that it may pass. -/
def State.routed (s : State) (t : Token) (v : Nat) : Nat → Nat → Option State
  | 0, _ => some s
  | f + 1, die =>
    match aget (s.die die).router v with
    | none => none
    | some w =>
      if w = 0 then none
      else
        let s1 := if t.kind = .mark ∧ t.cls = 1 then s.modDie die (fun d => { d with router := aset d.router v (stepEntry w) }) else s
        let p := outPort w
        if 19 ≤ p ∧ p < 22 then s1.routed t v f (if p - 19 < die then p - 19 else p - 18)
        else if p < 18 then
          match aget (s1.die die).comms (v / 4) with
          | some c =>
            match (List.range c.n).find? (fun r => s1.foreign c r && s1.portNow c r == p) with
            | some r => some (s1.sendColl c r false [.token (bits (c.table.getD r 0) 15 0) 0 t])
            | none => some s1
          | none => some s1
        else some s1

/-- A STEP of the engine follows the last token of a step of the algorithm in force: a collective of the stream's communicator has sent chunks (R274, R385). -/
def State.stepDue (s : State) (die v : Nat) : Bool :=
  match aget (s.die die).comms (v / 4) with
  | some c => c.st == 2 && c.colls.any (fun q => q.status == 0 && q.sent != [])
  | none => false

/-- A STEP marker. -/
def stepToken (iter : W16) : Token := { reg := Reg.empty, route := 0, b := false, kind := .mark, iter := iter, frame := 0, cfg := 0, cls := 1 }

/-- ROUTER_STEP at entry v of a die: the engine's own STEP, or the token at the head of an edge that leads to a collective port. -/
def State.routerStep (s : State) (die v : Nat) (own : Bool) (k l x e : Nat) : State :=
  if own then
    if !s.stepDue die v then s
    else match s.routed (stepToken 0) v 4 die with
    | some t => t
    | none => s.postUnit 16 2 4 die 62 0x138 0 0 0
  else match s.landing k l x e with
  | some (t, s1) =>
    let d := destOf (s.edgeWord k l x e)
    if t.route = 0 ∧ d.loc = 50 ∧ dieOf d.core % 4 = die then
      match s1.routed t (Config.streamOf (edgeKey k l x e) % 64) 4 die with
      | some u => u
      | none => s1.engineFault k l 0 ⟨0x138, 0, 0, false⟩ (tagWord t.iter t.frame t.cfg t.cls)
    else s
  | none => s

/-! ## Events -/

/-- COMMUNICATOR_FORMED (R270): slot x of the core's engine. -/
def execEvCommunicatorFormed (st : State) : Out := .next (st.formComm st.place.core st.place.x)
/-- COMMUNICATOR_BROKEN (R270). -/
def execEvCommunicatorBroken (st : State) : Out := .next (st.breakComm st.place.core st.place.x)
/-- CHUNK_START (R282): the place's core is the die. -/
def execEvChunkStart (st : State) : Out := .next (st.chunkStarts (st.place.core % 4) st.place.port)
/-- CHUNK_COMBINE (R272): slot x, collective y; the flag says that a member of another package has issued a differing one. -/
def execEvChunkCombine (st : State) : Out := .next (st.chunkCombines st.place.core st.place.x st.place.y st.place.flag st.place.lanes)
/-- SLOT_CLOSE_TIMEOUT (R272). -/
def execEvSlotCloseTimeout (st : State) : Out := .next (st.slotTimeout st.place.core)
/-- ROUTER_STEP (R273): x is 64 times the die plus the entry; the flag says that the engine places the STEP. -/
def execEvRouterStep (st : State) : Out :=
  .next (st.routerStep (st.place.x / 64 % 4) (st.place.x % 64) st.place.flag st.place.core st.place.cell st.place.ctx st.place.port)
/-- DONE_NOTICE (R283): of rank `port`. -/
def execEvDoneNotice (st : State) : Out := .next (st.doneNotice st.place.core st.place.x st.place.y st.place.port)
/-- COMMIT (R283). -/
def execEvCommit (st : State) : Out := .next (st.commits st.place.core st.place.x st.place.y)
/-- MEMBER_LOST (R284): slot x. -/
def execEvMemberLost (st : State) : Out := .next (st.memberLost st.place.core st.place.x st.place.flag)

end Sys2Proof.Machine
end

