-- ==== Sys2Proof/Machine/EvCopy.lean ====
section
/-! DEFINITION. Events of the copy engine and of remote accesses (R102, R103, R111, R113, R196, R239, R260). -/

namespace Sys2Proof.Machine

/-! ## Ring copies (R196, R260) -/

/-- NOTICE_ARRIVAL: the head notice of a core starts one more reservation of its ring's copy. -/
def State.noticeArrives (s : State) (k : Nat) : State :=
  match (s.core k).notices with
  | [] => s
  | r :: rest =>
    let s1 := s.modCore k (fun o => { o with notices := rest })
    match (s.core k).copies.find? (fun c => c.2.wants false && c.2.ring == r) with
    | none => s1
    | some (i, _) =>
      match s1.ringReserve k r with
      | some (slot, t) => t.joinSlot k i slot
      | none => s1

/-- COPY_OUT_SLOT_TAKE: copy i of a core takes the ready slot at its ring's head. -/
def State.takeOut (s : State) (k i : Nat) : State :=
  match aget (s.core k).copies i with
  | none => s
  | some c =>
    if !c.wants true then s
    else match s.ringTake k c.ring with
    | some (slot, t) => t.joinSlot k i slot
    | none => s

/-! ## Remote accesses (R102, R103, R113) -/

/-- Who made a remote access, as the race checker at its target knows it. -/
def reqAgent (r : RemoteReq) : Agent := { key := r.src, oc := r.oc, clr := r.clr }

/-- A remote access performs at its target: what it answers, and what it releases to its issuer. -/
def State.performRemote (s : State) (r : RemoteReq) : Did (List Byte × Clr) :=
  if s.spadOf r.dst < r.addr + reqLen r then (s, .error ⟨0x049, r.addr, 0, false⟩)
  else match r.kind with
  | .load =>
    match s.loadAt (reqAgent r) ⟨r.dst, r.addr, r.size⟩ with
    | (t, .ok (b, _)) => (t, .ok (b, []))
    | (t, .error f) => (t, .error f)
  | .store =>
    match s.storeAt (reqAgent r) r.dst r.addr r.bytes r.mask with
    | (t, .ok _) => (t, .ok ([], []))
    | (t, .error f) => (t, .error f)
  | .atom =>
    match s.atomicAt (reqAgent r) r.dst r.addr r.size r.op (leNat r.bytes) r.cmp r.scope r.rel with
    | (t, .ok (old, got)) => (t, .ok (leBytes r.size old, got))
    | (t, .error f) => (t, .error f)

/-- The fault of a remote access is its issuer's (R96, R302, R305): of a cell's it is information where R302 does not end the phase. -/
def State.remoteFault (s : State) (r : RemoteReq) (f : Fail) : State :=
  if r.src.handle < 8 then
    (if endsPhase f.cause then s.engineFault r.src.core (cellOfHandle r.src.handle) 3 f 0
     else s.infoFault r.src.core (cellOfHandle r.src.handle) 3 f.cause f.addr 0)
  else s.rcFault r.src.core f

/-- An access whose issuer waits for no value. -/
def isSilent (r : RemoteReq) : Bool := r.kind == .store || r.src.handle != 8

/-- An access of an agent of this package is outstanding no more. -/
def State.settled (s : State) (r : RemoteReq) : State :=
  let t := s.countRemote r.src.core r.src.handle (-1)
  if r.kind = .atom then t.dropAtom r.src.core r.src.handle (reqAtom r) else t

/-- The access performs only behind those that set out before it and perform in order with it (R90, R101, R117). -/
def State.inTurn (s : State) (n : Nat) (r : RemoteReq) : Bool := (s.reqs.take n).all (fun q => q.reply || !(reqInOrder q r))

/-- What an access has done travels back to another package. -/
def State.answer (s : State) (r : RemoteReq) : State := s.leave (s.partAt r.dst) r.src.route (72 + requestClass r) (.access { r with reply := true })

/-- REMOTE_ACCESS_ARRIVAL: the n-th access in flight performs; its completion or reply travels back, or its fault: to an issuer of this package at once. -/
def State.remoteArrives (s : State) (n : Nat) : State :=
  match s.reqs[n]? with
  | none => s
  | some r =>
    if r.reply || !s.inTurn n r then s
    else
      let off (t : State) : State := { t with reqs := s.reqs.eraseIdx n }
      match s.performRemote r with
      | (_, .error f) => if r.src.route = 0 then ((off s).settled r).remoteFault r f else (off s).answer { r with fail := some (f.cause, f.addr) }
      | (t, .ok (b, c)) =>
        let a := { r with reply := true, bytes := b, clr := c }
        if r.src.route = 0 then { t with reqs := s.reqs.set n a } else (off t).answer a

/-- What an atomic's reply does to its issuer's order (R100). -/
def State.orderReply (s : State) (k h : Nat) (r : RemoteReq) : Did Unit :=
  if r.kind ≠ .atom then (s, .ok ())
  else if r.order % 2 = 1 then s.acquire k h r.clr
  else (s.setOrd k h { s.ord k h with seen := Clr.merge (s.ord k h).seen r.clr }, .ok ())

/-- REMOTE_STORE_COMPLETION: a release of the issuer waits for one access less, and its port goes on (R100, R113); one that has faulted in another package
faults here. -/
def State.storeCompletes (s : State) (n : Nat) : State :=
  match s.reqs[n]? with
  | none => s
  | some r =>
    if !r.reply || !isSilent r || r.src.route != 0 then s
    else
      let t := ({ s with reqs := s.reqs.eraseIdx n } : State).settled r
      let go (t : State) : State := if r.src.handle < 8 then t.drain r.src.core (cellOfHandle r.src.handle) else t
      match r.fail with
      | some c => go (t.remoteFault r ⟨c.1, c.2, 0, false⟩)
      | none =>
        match t.orderReply r.src.core r.src.handle r with
        | (_, .error f) => t.engineFault r.src.core (cellOfHandle r.src.handle) 3 f 0
        | (u, .ok _) => go u

/-- REMOTE_REPLY: the waiting RC takes the value, and goes on (R239). -/
def State.replyArrives (s : State) (n : Nat) : State :=
  match s.reqs[n]? with
  | none => s
  | some r =>
    if !r.reply || isSilent r || r.src.route != 0 then s
    else
      let k := r.src.core
      let s1 := ({ s with reqs := s.reqs.eraseIdx n } : State).settled r
      match (s.rc k).mode, r.fail with
      | .remote _, some c => s1.rcFault k ⟨c.1, c.2, 0, false⟩
      | .remote qd, none =>
        (match s1.orderReply k 8 r with
         | (_, .error f) => s1.rcFault k f
         | (t, .ok _) => t.modRc k (fun c => c.resume qd (BitVec.ofNat 64 (leNat r.bytes))))
      | _, _ => s1

/-! ## Events -/

/-- NOTICE_ARRIVAL (R196). -/
def execEvNoticeArrival (st : State) : Out := st.atPlace (fun s k _ _ _ => s.noticeArrives k)
/-- COPY_OUT_SLOT_TAKE (R260): copy x of the place's core. -/
def execEvCopyOutSlotTake (st : State) : Out := st.atPlace (fun s k _ _ _ => s.takeOut k s.place.x)
/-- SECTOR_LANDING (R111): copy x of the place's core moves on; y other than 0 says that the transfer meets an uncorrectable error (R114). -/
def execEvSectorLanding (st : State) : Out := st.atPlace (fun s k _ _ _ => s.copyTurn k s.place.x (s.place.y != 0))
/-- REMOTE_ACCESS_ARRIVAL (R102): the x-th in flight. -/
def execEvRemoteAccessArrival (st : State) : Out := .next (st.remoteArrives st.place.x)
/-- REMOTE_STORE_COMPLETION (R113): the x-th in flight. -/
def execEvRemoteStoreCompletion (st : State) : Out := .next (st.storeCompletes st.place.x)
/-- REMOTE_REPLY (R239): the x-th in flight. -/
def execEvRemoteReply (st : State) : Out := .next (st.replyArrives st.place.x)

end Sys2Proof.Machine
end

