-- ==== Sys2Proof/Machine/EvTasks.lean ====
section
/-! DEFINITION. Events of tasks, loads and phases: admission, dispatch, what completed tasks let go, returns, ordering tokens, void slots, configuration loads,
completion of a phase (R25, R61 to R69, R79, R92, R177, R196, R255). -/

namespace Sys2Proof.Machine

/-- TASK_ADMIT: tokens are matched, then the candidate that comes first is admitted (R60 to R62). -/
def State.taskAdmit (s : State) (k l : Nat) : State :=
  if !s.phaseRuns k then s
  else
    let t := s.gather k l
    if readySize ≤ (t.cell k l).ready.length then t
    else match t.firstEligible k l with
    | some d => t.admitCand k l d
    | none => t

def State.taskDispatch (s : State) (k l : Nat) : State := if s.phaseRuns k then s.dispatch k l else s

/-! ## What a completed task lets go (R177, R186, R187, R196) -/

/-- A memory cell's stores to cores of the package have performed. -/
def State.storesDone (s : State) (k l : Nat) : Bool :=
  !(isMemCell l && s.reqs.any (fun r => r.src.route == 0 && r.src.core == k && r.src.handle == handleOf l && r.kind == RKind.store && !r.reply))

/-- One staged effect takes place. -/
def State.release1 (s : State) (k l x : Nat) : Staged → State
  | .tok e t =>
    let s1 := s.modEdge k l x e (fun g => { g with rsv := g.rsv - 1 })
    if t.kind = .eos then s1.enterEos k l x e t else s1.enter k l x e t
  | .call f r => s.setFrame k f { st := 1, lead := s.leadOf k, rcd := r }
  | .ret f keep v =>
    match s.frame k f with
    | none => s
    | some g =>
      (s.setFrame k f { g with st := if keep then 2 else 4 }).modIsle (isleOf k) (fun i => { i with returns := i.returns ++ [⟨f, keep, g.rcd, v⟩] })
  | .free f =>
    match s.frame k f with
    | none => s
    | some g => if g.st = 1 then (s.giveReturn g.rcd).dropFrame k f else s.dropFrame k f

/-- Staged effects in order; a token of an edge in `blocked`, or behind a flushed token that waits at its edge (R187), waits, with all behind it on its edge. -/
def State.releaseAll (s : State) (k l x : Nat) : List Staged → List (Nat × Nat) → State × List Staged × List (Nat × Nat)
  | [], b => (s, [], b)
  | g :: r, b =>
    let waits : Option Nat := match g with
      | .tok e _ => if b.contains (x, e) || !(s.edge k l x e).waiting.isEmpty then some e else none
      | _ => none
    match waits with
    | some e => let q := State.releaseAll s k l x r ((x, e) :: b); (q.1, g :: q.2.1, q.2.2)
    | none => State.releaseAll (s.release1 k l x g) k l x r b

/-- The slot that a completed task has still to publish. -/
def Task.toPublish (t : Task) : Option RingHold := t.ring.filter (fun h => h.producer && !h.freed)

/-- A task whose tokens have left: its producer slot is published, and a frame that no CALL used goes back. -/
def State.leaveTask (s : State) (k l : Nat) (t : Task) : State :=
  let s1 := match t.toPublish with
    | some h =>
      let r := s.cellRelease k l
      (match r.1.ringTouch k (handleOf l) (s.leadOf k) h.ring with
       | (_, .error f) => s.engineFault k l 3 f t.tag
       | (u, .ok _) => u.ringPublish (s.leadOf k) h.ring h.slot r.2)
    | none => s
  match t.newFrame with
  | some f =>
    (match s1.frame k f with
     | some g => if g.st = 3 then
         let s2 := s1.dropFrame k f
         match t.retRoom with | some e => s2.modEdge k l t.ctx e (fun g => { g with rsv := g.rsv - 1 }) | none => s2
       else s1
     | none => s1)
  | none => s1

/-- A request that a task's staged tokens wait for: a scratchpad access or an external shadow write (R177). -/
def holdsTokens : MemReq → Bool
  | .sts .. => true
  | .stx .. => true
  | .expd .. => true
  | .rput .. => true
  | .ste .. => true
  | .half .. => true
  | _ => false

/-- What a completed task's staged effects wait for: its scratchpad accesses and external writes (R177), and, where it publishes a slot, which is a release,
every earlier access of the cell (R95, R100). -/
def State.tokensWait (s : State) (k l : Nat) (t : Task) : Bool :=
  (s.cell k l).held.any (fun h => h.serial == t.serial && holdsTokens h.req) || !s.storesDone k l
    || (t.toPublish.isSome && ((s.cell k l).held.any (fun h => decide (h.serial ≤ t.serial)) || decide (0 < s.remoteOut k (handleOf l))))

/-- Completed tasks in order; what one holds back on an edge holds back the tokens of those after it there. -/
def State.releaseTasks (s : State) (k l : Nat) : List Task → List (Nat × Nat) → State × List Task
  | [], _ => (s, [])
  | t :: r, b =>
    if s.tokensWait k l t then
      let u := State.releaseTasks s k l r (t.staged.filterMap (fun g => match g with | .tok e _ => some (t.ctx, e) | _ => none) ++ b)
      (u.1, t :: u.2)
    else
      let q := s.releaseAll k l t.ctx t.staged b
      if q.2.1 = [] then State.releaseTasks (q.1.leaveTask k l t) k l r q.2.2
      else
        let u := State.releaseTasks q.1 k l r q.2.2
        (u.1, { t with staged := q.2.1 } :: u.2)

def State.releaseStaged (s : State) (k l : Nat) : State :=
  let s := s.enterAll k l
  let r := s.releaseTasks k l (s.cell k l).done []
  r.1.modCell k l (fun c => { c with done := r.2 })

/-! ## Returns (R69, R186) -/

/-- The n-th return of an isle reaches its caller: its token takes the credit that the CALL reserved, and a frame that RET released is free. A token that the
edge does not take (R178) raises its cause and gives the credit back. -/
def State.returnArrives (s : State) (isle n : Nat) : State :=
  match (s.isle isle).returns[n]? with
  | none => s
  | some r =>
    let c := r.rcd
    if !s.works c.core then s
    else
      let s1 := s.modIsle isle (fun i => { i with
        returns := i.returns.eraseIdx n
        frames := match aget i.frames r.frame with | some g => if g.st = 4 then adel i.frames r.frame else i.frames | none => i.frames })
      (s1.giveReturn c).enterChecked c.core c.cell c.ctx c.edge (dataToken r.v c.cls c.frame c.iter)

/-! ## Ordering tokens and void slots (R92, R196) -/

/-- The n-th ordering token on its way to a cell arrives; a count of 256 ends the phase. What it releases leaves the port. -/
def State.ordArrives (s : State) (k l n : Nat) : State :=
  match (s.cell k l).ordIn[n]? with
  | none => s
  | some (id, c) =>
    let q := (aget (s.cell k l).ordClr id).getD [] ++ [c]
    let s1 := s.modCell k l (fun e => { e with ordIn := e.ordIn.eraseIdx n, ordClr := aset e.ordClr id q })
    if 256 ≤ q.length then s1.engineFault k l 3 ⟨0x056, id, 0, false⟩ 0 else s1.drain k l

def State.voidFreeAt (s : State) (k r : Nat) : State :=
  if s.leadOf k = k ∧ r < s.ringCount k then s.voidFree k r else s

/-! ## Configuration loads (R25, R70, R251) -/

/-- Cells and contexts for which an image has an entry. -/
def imgPlaces (lead : Nat) (b : List Byte) : List (Nat × Nat × Nat) := (imgCells b).map (fun o => (lead + locCore b o, locCell b o, locCtx b o))

/-- No task dispatched under the old configuration of a context is unfinished, and no instance of the matrix engine runs or is staged (R25, R214). -/
def State.loadMayApply (s : State) (lead : Nat) (b : List Byte) : Bool :=
  (imgPlaces lead b).all (fun p =>
    let c := s.cell p.1 p.2.1
    (c.running.toList ++ c.ready ++ c.done).all (fun t => t.ctx != p.2.2) && c.held.all (fun h => h.ctx != p.2.2))
    && (imgEntries b (imgMatrix b)).all (fun o => let m := s.matrix (lead + locCore b o); m.run.isNone && m.ports.all (fun p => !p.fifo.any (fun t => t.tok.kind == .data)))

/-- The bytes of the image at a VA: the header, then as many as it says. -/
def State.readImage (s : State) (k pt va : Nat) : State × Except (Nat × Nat) (List Byte) :=
  match s.readVA k pt va 128 with
  | (t, .error c) => (t, .error c)
  | (t, .ok h) =>
    if fld h 0 4 != 0xB7C51A6E || fld h 4 2 != 1 || decide (fld h 0x0C 4 ≤ 128) then (t, .ok h) else t.readVA k pt va (fld h 0x0C 4)

/-- The oldest load of a region is applied, or refused with its cause, or held. -/
def State.applyLoad (s : State) (k : Nat) : State :=
  match (s.rc k).loads, s.regionAt k with
  | ext :: rest, some g =>
    if (s.rc k).loadHeld.isSome ∨ g.lead ≠ k then s
    else match s.readImage k g.part ((s.rc k).image + ext) with
    | (t, .error c) =>
      if holdsAccess c.1 then (t.postFault (externSev c.1) 1 k 48 c.1 c.2 0 0).modRc k (fun r => { r with loadHeld := some c })
      else t.rcFault k ⟨c.1, c.2, 0, false⟩
    | (t, .ok b) =>
      let pop (u : State) : State :=
        let v := u.modRc k (fun r => { r with loads := rest })
        if g.st = .draining ∧ !g.marked ∧ rest = [] then v.injectMarkers k else v
      if imgCause g b = none ∧ !t.loadMayApply k b then s
      else match t.configure g b with
      | .ok u => pop u
      | .error c => pop (t.modRc k (fun r => { r with refused := some (r.refused.getD c) }))
  | _, _ => s

/-! ## Completion of a phase (R79, R255) -/

/-- Cells of a region that a phase uses: each core and local id. -/
def State.regionCells (s : State) (lead : Nat) : List (Nat × Nat) :=
  (s.regionCores lead).flatMap (fun k => (s.core k).cells.map (fun (c : Nat × Cell) => (k, c.1)))

/-- Every sink has counted its EOS tokens. -/
def State.sinksDone (s : State) (lead : Nat) : Bool :=
  (s.regionCells lead).all (fun p => (s.loadedCtxs p.1 p.2).all (fun x => decide (s.sinkCount p.1 p.2 x ≤ (s.ctx p.1 p.2 x).sink)))

/-- Every dispatched task has completed, and its requests have performed. -/
def State.tasksDone (s : State) (lead : Nat) : Bool :=
  (s.regionCells lead).all (fun p => let c := s.cell p.1 p.2; c.running.isNone && c.held.isEmpty)

/-- What ABORTR waits for: running tasks, requests that can still perform, accepted history commands, and a matrix engine's coming to the end of a pass after
which its next k-step is not there (R214, R255), or to a drain's want of credit, which no task to come gives it. -/
def State.abortDone (s : State) (lead : Nat) : Bool :=
  (s.regionCells lead).all (fun p =>
    let c := s.cell p.1 p.2
    c.running.isNone && c.ordIn.isEmpty && c.held.all (fun h => h.need.isSome && !c.ready? h && h.hold.isNone))
    && (s.regionCores lead).all (fun k => (s.core k).hists.all (fun h => h.2.queue.all (fun i => match i with | .cmd _ => false | _ => true)) && (s.passEnded k || s.drainStuck k))

/-- Requests for ordering tokens that can no longer come perform nothing. -/
def State.dropHeld (s : State) (lead : Nat) : State :=
  (s.regionCells lead).foldl (fun s p => s.modCell p.1 p.2 (fun c => { c with held := [] })) s

/-- PHASE_COMPLETE: the phase of a region ends once it may. The release store of its completion word waits for the RC's remote stores (R100). A phase that
ABORTR ends completes; one that a fault ends takes its node with it (R240). -/
def State.completePhase (s : State) (k : Nat) : State :=
  match s.regionAt k with
  | none => s
  | some g =>
    let dying := (s.rc k).dying
    if g.lead ≠ k ∨ !(g.st = .running ∨ (dying ∧ g.st ≠ .killed)) ∨ !(s.rc k).inPhase ∨ 0 < s.remoteOut k 8 then s
    else
      let flush (s : State) : State := (s.regionCells k).foldl (fun s p => s.releaseStaged p.1 p.2) s
      if (s.rc k).aborting then
        if !s.abortDone k then s
        else if dying then (((flush (s.dropHeld k)).finishPhase k 2 true).stopNode g.node).freeRegion k
        else (flush (s.dropHeld k)).finishPhase k 1 true
      else
        let t := flush s
        if !t.sinksDone k || !t.tasksDone k then s
        else
          let u := if (t.regionCores k).any (fun c => (t.core c).hasTokens) then t.infoFault k 48 1 0x0E6 0 0 else t
          u.finishPhase k 1 false

/-! ## Events -/

/-- TASK_ADMIT (R62). -/
def execEvTaskAdmit (st : State) : Out := st.atPlace (fun s k l _ _ => s.taskAdmit k l)
/-- TASK_DISPATCH (R63). -/
def execEvTaskDispatch (st : State) : Out := st.atPlace (fun s k l _ _ => s.taskDispatch k l)
/-- STAGED_TOKEN_RELEASE (R177). -/
def execEvStagedTokenRelease (st : State) : Out := st.atPlace (fun s k l _ _ => s.releaseStaged k l)
/-- ARBITER_WEIGHT_RECOMPUTE (R63): every 256 cycles. -/
def execEvArbiterWeightRecompute (st : State) : Out :=
  st.atPlace (fun s k l _ _ => if (s.cell k l).wTime + 256 ≤ s.time then s.newWeights k l else s)
/-- FRAME_WAIT_TIMEOUT (R69). -/
def execEvFrameWaitTimeout (st : State) : Out := st.atPlace (fun s k l _ _ => s.frameTimeouts k l)
/-- RETURN_ARRIVAL (R69): the x-th return on its way in the place's isle. -/
def execEvReturnArrival (st : State) : Out := .next (st.returnArrives (isleOf st.place.core) st.place.x)
/-- ORDERING_TOKEN_ARRIVAL (R92): the x-th on its way to the place's cell. -/
def execEvOrderingTokenArrival (st : State) : Out := st.atPlace (fun s k l _ _ => s.ordArrives k l s.place.x)
/-- VOID_SLOT_FREE (R196): of ring x of the place's lead core. -/
def execEvVoidSlotFree (st : State) : Out := st.atPlace (fun s k _ _ _ => s.voidFreeAt k s.place.x)
/-- CFG_LOAD_APPLY (R25): of the region that the place's core leads. -/
def execEvCfgLoadApply (st : State) : Out := st.atPlace (fun s k _ _ _ => s.applyLoad k)
/-- PHASE_COMPLETE (R79). -/
def execEvPhaseComplete (st : State) : Out := .next (st.completePhase st.place.core)

end Sys2Proof.Machine
end

