-- ==== Sys2Proof/Machine/EvGen.lean ====
section
/-! DEFINITION. Address generators and stream barriers as events (R51, R59, R89, R254, R256). -/

namespace Sys2Proof.Machine

/-! ## Generators -/

/-- The specification in force for a memory cell. -/
def State.specOf (s : State) (k l : Nat) : Option SpecRec := (s.rc (s.leadOf k)).specs.find? (fun x => x.core == k && x.cell == l)

/-- The address of a point: base plus the strides. -/
def SpecRec.address (x : SpecRec) (cs : List Nat) : Int :=
  (x.f 8 8 : Int) + ((List.range cs.length).foldl (fun a j => a + (cs.getD j 0 : Int) * x.stride j) 0)

/-- What one token of a point carries, or why the stream holds. -/
abbrev Points := Did (List Reg)

/-- LOAD: token t at A + t·tstride (R190). -/
def State.genLoad (s : State) (k l : Nat) (f : Fmt) (x : SpecRec) (a : Int) : Points :=
  (List.range x.toks).foldl (fun (acc : Points) t => match acc with
    | (u, .ok rs) =>
      let addr := cut 32 (a + (t * x.f 0x20 4 : Nat))
      match u.load (u.agent k (handleOf l)) k addr (transferBytes x.packed f) (packAlign x.packed f) true with
      | (v, .ok (b, gone)) => (v, .ok (rs ++ [loaded x.packed f Reg.empty b gone]))
      | (v, .error e) => (v, .error e)
    | e => e) (s, .ok [])

/-- The scale of the block that a token of external MX data begins: one byte per 32 elements (R51). The byte is read at its own VA, not through the tile
map of a buffer that may hold it: DESIGN CHOICE, R51 does not say which version of the scale array a read sees (log 97). -/
def State.blockScaleAt (s : State) (k pt : Nat) (sh : Option Shape) (block : Nat) : State × Except (Nat × Nat) Nat :=
  match sh with
  | none => (s, .ok 0x7F)
  | some h =>
    match s.readVA k pt (h.scale + block) 1 with
    | (t, .ok b) => (t, .ok (fld b 0 1))
    | (t, .error c) => (t, .error c)

/-- GATHER: tokens of the operand's snapshot; an MX token takes its block's scale. -/
def State.genGather (s : State) (k l : Nat) (f : Fmt) (x : SpecRec) (a : Int) : Points :=
  let n := s.nodeId k
  let pt := s.partOfNode n
  let bytes := transferBytes x.packed f
  match s.shapeOf k (agentId k l) n x.num with
  | (t, .error c) => (t, .error (externFail c))
  | (t, .ok sh) =>
    if isMX f && sh.isNone then (t, .error ⟨0x06B, 0, 0, false⟩)
    else (List.range x.toks).foldl (fun (acc : Points) i => match acc with
      | (u, .ok rs) =>
        let off := cut 64 (a + (i * x.f 0x20 4 : Nat))
        (match (u.operand n x.num).check false off bytes (packAlign x.packed f) with
         | .error c => (u, .error ⟨c, off, 0, false⟩)
         | .ok _ =>
           match u.readOp k n x.num off bytes with
           | (v, .error c) => (v, .error (externFail c))
           | (v, .ok b) =>
             let r := loaded x.packed f Reg.empty b []
             if !isMX f then (v, .ok (rs ++ [r]))
             else match v.blockScaleAt k pt sh (off / (2 * bytes)) with
             | (w, .ok xs) => (w, .ok (rs ++ [{ r with xs := xs }]))
             | (w, .error c) => (w, .error (externFail c)))
      | e => e) (t, .ok [])

/-- RING: slot head is taken, its tokens are read, and it is freed as RFREE frees it. None while no slot is ready. -/
def State.genRing (s : State) (k l : Nat) (f : Fmt) (x : SpecRec) : Option Points :=
  let lead := s.leadOf k
  match s.ringTake lead x.num with
  | none => none
  | some (slot, s1) =>
    let g := s.ringEntry lead x.num
    some (match (match s1.ringTouch k (handleOf l) lead x.num with | (t, .ok _) => t.acquire k (handleOf l) (s1.slotClr lead x.num slot) | r => r) with
      | (_, .error e) => (s, .error e)
      | (t, .ok _) =>
        match (List.range x.toks).foldl (fun (acc : Points) i => match acc with
            | (u, .ok rs) =>
              (match u.loadAt (u.agent k (handleOf l)) ⟨lead, g.1 + slot * g.2.2 + 64 * i, 64⟩ with
               | (v, .ok (b, gone)) => (v, .ok (rs ++ [loaded false f Reg.empty b gone]))
               | (v, .error e) => (v, .error e))
            | e => e) (t, .ok []) with
        | (u, .error e) => (u, .error e)
        | (u, .ok rs) => let r := u.cellRelease k l; (r.1.ringFree lead x.num slot r.2, .ok rs))

/-- ZERO: +0 over the tile's bytes (R87, R195). A line of it that straddles two cores' scratchpads performs in one step: DESIGN CHOICE, R85 lets the halves of
a straddling store perform at different times (log 100). -/
def State.genZero (s : State) (k l : Nat) (x : SpecRec) (a : Int) : Did Unit :=
  (List.range (x.f 0x24 4 / 64)).foldl (fun (acc : Did Unit) i => match acc with
    | (u, .ok _) => u.store (u.agent k (handleOf l)) k (cut 32 (a + (64 * i : Nat))) (List.replicate 64 0) (List.replicate 64 255) 4 true
    | e => e) (s, .ok ())

/-- The COUNT token of a point; `six` stands in lane 6, and a narrow format keeps the low bits (R28). -/
def countReg (f : Fmt) (p : Nat) (cs : List Nat) (six : Nat) : Reg :=
  let ls := [p % 2 ^ 32, p / 2 ^ 32 % 2 ^ 32] ++ (List.range 4).map (fun j => cs.getD j 0) ++ [six]
  mkReg f (constXs f) false 0 (fun i => some (narrow f (ls.getD i 0)))

/-- What the next point of a stream issues; none while it must wait for a slot. -/
def State.genPoint (s : State) (k l p : Nat) (x : SpecRec) : Option Points :=
  let lead := s.leadOf k
  let f := pwFmt (s.portWord k l x.cfg x.port)
  let cs := coords (s.rc lead).space p
  let a := x.address cs
  match x.kind with
  | 0 =>
    let g := s.ringEntry lead x.num
    some (s, .ok [countReg f p cs (if x.num = 15 then 0 else g.1 + p % g.2.1 * g.2.2)])
  | 1 => some (s.genLoad k l f x a)
  | 2 => some (s.genGather k l f x a)
  | 3 => s.genRing k l f x
  | _ => match s.genZero k l x a with
    | (t, .ok _) => some (t, .ok [countReg f p cs (cut 32 a)])
    | (t, .error e) => some (t, .error e)

/-- The tokens of a point reach the port, each burst's first with B and, for an MX format, the block's scale. -/
def State.issue (s : State) (k l p : Nat) (x : SpecRec) (rs : List Reg) : State :=
  let burst := pwBurst (s.portWord k l x.cfg x.port)
  (List.range rs.length).foldl (fun s i =>
    let r := rs.getD i Reg.empty
    let first := i % burst == 0
    s.pushPort ⟨k, l, x.cfg, x.port⟩ 0
      { dataToken { r with xs := if first && isMX r.fmt then r.xs else 0 } x.cls 0 (BitVec.ofNat 16 p) with b := first, cfg := x.cfg } [] []) s

/-- A request of a stream fails: a race ends the phase, an integrity failure the node; any other cause holds the stream (R114, R254, R335). -/
def State.genFail (s : State) (k l : Nat) (e : Fail) : State :=
  if e.cause = 0x055 ∨ e.cause = 0x056 ∨ stopsNode e.cause then s.engineFault k l 3 e 0
  else (s.postFault (if holdsAccess e.cause then externSev e.cause else 1) 3 k l e.cause e.addr e.detail 0).modCell k l (fun c =>
    { c with gen := { c.gen with held := some (e.cause, e.addr) } })

/-- A generator issues its next point, or its EOS after the last. Its requests come after every access of the tasks dispatched before (R89). -/
def State.generate (s : State) (k l : Nat) : State :=
  let g := (s.cell k l).gen
  let lead := s.leadOf k
  match s.specOf k l, s.regionAt k with
  | some x, some r =>
    if !g.live || g.held.isSome || g.barc != [] || r.st != .running || !(s.rc lead).inPhase || (s.rc lead).aborting then s
    else
      let total := spaceSize (s.rc lead).space
      if total ≤ g.point then
        (s.modCell k l (fun c => { c with gen := { c.gen with eos := true } })).reach ⟨k, l, x.cfg, x.port⟩ 0
          { eosToken 0 (BitVec.ofNat 16 total) with cfg := x.cfg } []
      else if x.kind ≠ 0 ∧ ((s.cell k l).running.isSome ∨ !(s.cell k l).held.isEmpty) then s
      else match s.genPoint k l g.point x with
      | none => s
      | some (t, .ok rs) => (t.issue k l g.point x rs).modCell k l (fun c => { c with gen := { c.gen with point := g.point + 1 } })
      | some (t, .error e) => t.genFail k l e
  | _, _ => s

/-! ## Stream barriers (R256) -/

/-- The n-th barrier point of a region: each of its cells has reached it, no request before it is held, and no earlier point stands before it. -/
def State.barcReached (s : State) (k n : Nat) : Option Nat :=
  match (s.rc k).barc[n]? with
  | none => none
  | some m =>
    let earlier := (s.rc k).barc.take n
    if (barcCells m).all (fun h => let g := (s.cell k (cellOfHandle h)).gen; g.held.isNone && (s.cell k (cellOfHandle h)).held.isEmpty)
      && earlier.all (fun e => (barcCells m).all (fun h => !bit e h)) then some m else none

def State.barcPoint (s : State) (k n : Nat) : State :=
  match s.barcReached k n with
  | none => s
  | some m =>
    match s.barcMerge k m with
    | (_, .error f) => s.engineFault k 48 1 f 0
    | (t, .ok _) =>
      ((barcCells m).foldl (fun s h => s.modCell k (cellOfHandle h) (fun c => { c with gen := { c.gen with barc := c.gen.barc.erase m } })) t).modRc k
        (fun r => { r with barc := r.barc.eraseIdx n })

/-- GENERATOR_POINT (R254): one point, or the EOS, of the place's memory cell. -/
def execEvGeneratorPoint (st : State) : Out := st.atPlace (fun s k l _ _ => s.generate k l)
/-- BARC_POINT (R256): the x-th point of the region that the place's core leads. -/
def execEvBarcPoint (st : State) : Out := st.atPlace (fun s k _ _ _ => s.barcPoint k s.place.x)

end Sys2Proof.Machine
end

