-- ==== Sys2Proof/Machine/RcPriv.lean ====
section
/-! DEFINITION. Privileged instructions on registers, services, translations, regions and event queues (R305 to R307, R314, R317, R318, R321, R326, R327, R334). -/

namespace Sys2Proof.Machine

/-! ## MTP, MFP, RETS (R314) -/

/-- A target core that an instruction may not reach: outside the partition at supervisor level, or in an absent isle. -/
def State.badTarget (s : State) (target : Nat) : Bool :=
  !bit s.fuses.isles (isleOf target) || (s.level == 1 && s.partAt target != s.partAt s.fcore)

/-- A register number that MTP and MFP take. -/
def privNumber (level n : Nat) : Bool := decide (0x100 ≤ n) && decide (n < 0x200) && (srWritable level n).isSome

def State.rcMtp (s : State) (a b n : Nat) : State :=
  let k := s.fcore
  let target := bits (s.q k a) 15 6
  if !privNumber s.level n then s.rcTrap 0x0C0
  else if s.badTarget target then s.rcTrap 0x14C
  else if srWritable s.level n ≠ some true then s.rcTrap 0x0C4
  else match s.srSet target n (s.q k b) with
  | .error c => s.rcTrap c
  | .ok t => t.rcNext k 4

def State.rcMfp (s : State) (d a n : Nat) : State :=
  let target := bits (s.q s.fcore a) 15 6
  if !privNumber s.level n then s.rcTrap 0x0C0
  else if s.badTarget target then s.rcTrap 0x14C
  else s.rcPut d (s.srGet target n)

/-- RETS: a frozen or draining region's RC records the value (R326). -/
def State.rcRets (s : State) (a b : Nat) : State :=
  let k := s.fcore
  let id := s.q k a % 2 ^ 16
  let target := id / 64
  let v : W64 := BitVec.ofNat 64 (s.q k b)
  if !bit s.fuses.isles (isleOf target) then s.rcTrap 0x14C
  else if s.level = 1 ∧ s.partAt target ≠ s.partAt k then s.rcTrap (if (s.part (s.partAt target)).live then 0x145 else 0x14C)
  else if id % 64 ≠ 48 then s.rcTrap 0x145
  else match (s.rc target).mode with
  | .sys qd none =>
    let stands : Bool := match s.regionAt target with | some g => g.st == .running | none => true
    (s.modRc target (fun r => if stands then r.resume qd v else { r with mode := .sys qd (some v) })).rcNext k 4
  | _ => s.rcTrap 0x145

/-! ## TLBI (R334) -/

/-- Cached translations of a range go, and the accesses held on it retry; the RC's earlier stores have performed. -/
def State.rcTlbi (s : State) (lo n : Nat) : State :=
  let k := s.fcore
  let pt := s.partAt k
  if 0 < s.remoteOut k 8 then s
  else ((s.dropTranslations pt lo n).retryHeld pt (fun c => decide (0x060 ≤ c.1) && decide (c.1 ≤ 0x064) && decide (lo ≤ c.2) && decide (c.2 < lo + n))).rcNext k 4

def State.rcTlbiRange (s : State) (a b : Nat) : State :=
  let lo := s.q s.fcore a
  let n := s.q s.fcore b
  if lo % 4096 ≠ 0 ∨ n % 4096 ≠ 0 ∨ n = 0 then s.rcTrap 0x0C4 else s.rcTlbi lo n

/-! ## KILL and PRMT (R321, R327) -/

/-- A region of the partition that is saved and not resident, by the handle that it had. -/
def State.savedOf (s : State) (pt h : Nat) : Option Saved := s.saved.find? (fun v => v.live && v.part == pt && regionHandle v.region.lead == h)

/-- A node that is not resident ends at once. -/
def State.killSaved (s : State) (v : Saved) : State :=
  { ((s.postKillDone v.region).stopNode v.node) with saved := s.saved.map (fun w => if w.node = v.node then { w with live := false } else w) }

def State.rcKill (s : State) (a : Nat) : State :=
  let k := s.fcore
  let h := s.q k a
  let pt := s.partAt k
  match s.regionOf pt h, s.savedOf pt h with
  | some g, _ => (s.killRegion g).rcNext k 4
  | none, some v => (s.killSaved v).rcNext k 4
  | none, none => s.rcTrap 0x0F4

/-- Every region of a partition, saved ones among them, is killed. -/
def State.killPart (s : State) (pt : Nat) : State :=
  (s.saved.filter (fun v => v.live && v.part == pt)).foldl (fun s v => s.killSaved v) ((s.regions.filter (fun g => g.part == pt)).foldl (fun s g => s.killRegion g) s)

def State.rcKillPart (s : State) : State := (s.killPart (s.partAt s.fcore)).rcNext s.fcore 4

def State.rcPrmt (s : State) (a : Nat) : State :=
  let k := s.fcore
  match s.regionOf (s.partAt k) (s.q k a) with
  | none => s.rcTrap 0x0F4
  | some g => if g.st ≠ .running ∨ g.pending then s.rcTrap 0x0F5 else (s.askDrain g.lead false false).rcNext k 4

/-- PRMT of the partition: each running region drains in its stage's turn. -/
def State.rcPrmtPart (s : State) : State :=
  let k := s.fcore
  ((s.regions.filter (fun g => g.part == s.partAt k && g.st == .running && !g.pending)).foldl (fun s g => s.askDrain g.lead false true) s).rcNext k 4

/-! ## Event queues (R317, R318) -/

/-- The queue of an RC's level: its partition's, or the manager's (16). -/
def State.queueNo (s : State) (k : Nat) : Nat := if (s.rc k).level = 2 then 16 else s.partAt k
def State.modQueue (s : State) (q : Nat) (f : Queue → Queue) : State :=
  if q = 16 then { s with mgrQueue := f s.mgrQueue } else s.modPart q (fun p => { p with queue := f p.queue })

/-- A record's 32 bytes (R319). -/
def EvRec.bytes (e : EvRec) : List Byte := leBytes 2 e.kind ++ leBytes 2 (e.die % 4) ++ leBytes 4 e.seq ++ leBytes 8 e.time ++ e.body

/-- Bytes that logic of a core writes to scratchpad as one of its agents, past the race checker: the access is recorded, and never reported (R317). -/
def State.poke (s : State) (k h off : Nat) (bytes : List Byte) : State :=
  let a := s.agent k h
  let ws := wordsOf off bytes.length
  { (s.modCore k (fun c =>
      let c := c.touchLines ws
      { c with words := ws.foldl (fun m w => aset m w (noteAccess a true 1 0 0 (c.wordRec w))) c.words })) with
    mem := Memory.writeN s.mem (spadBase k + off) bytes }

def State.setQueueWord (s : State) (q : Queue) (i v : Nat) : State := s.poke q.core 8 (q.base + 4 * i) (leBytes 4 v)

/-- A copy of a core's engine has failed with a record that is now visible: F sets in its barrier and in the engine's status word, and it is in flight no
longer (R114, R115). -/
def State.copyShown (s : State) (k seq : Nat) : State :=
  let mine := (s.core k).copies.filter (fun c => c.2.failed == some seq)
  let s1 := mine.foldl (fun s c => if c.2.tb = 31 then s else
    let a := spadBase k + (s.barrierEntry k c.2.tb).1
    { s with mem := Bar.write s.mem a { Bar.read s.mem a with f := true } }) s
  if mine = [] then s1 else s1.modCore k (fun c => { c with copyF := true, copies := c.copies.filter (fun p => p.2.failed != some seq) })

/-- Collectives of a core's engine have failed with a record that is now visible: their status sets (R115, R266). -/
def State.collShown (s : State) (k seq : Nat) : State :=
  let hit (c : Comm) (q : Coll) : Bool := c.core == k && (q.pend.map (·.2)) == some seq
  let d := dieOf k % 4
  if (s.die d).comms.any (fun c => c.2.colls.any (hit c.2)) then
    (s.modDie d (fun x => { x with comms := x.comms.map (fun (c : Nat × Comm) => (c.1, { c.2 with colls := c.2.colls.map (fun q =>
      if hit c.2 q then { q with status := (q.pend.map (·.1)).getD 0, pend := none } else q) })) })).latch (s.leadOf k) 3
  else s

/-- A fault record of an engine is visible, or lost: the engine's fault indication follows (R115). -/
def State.shown (s : State) (e : EvRec) : State :=
  if 65536 ≤ e.source ∨ e.kind ≠ 0 then s
  else if e.source % 64 = 49 then s.copyShown (e.source / 64) e.seq
  else if e.source % 64 = 50 then s.collShown (e.source / 64) e.seq
  else s

/-- A record is written before the tail passes it (R317). -/
def State.putRecord (s : State) (q : Queue) (e : EvRec) : State :=
  let tail := s.queueWord q 0
  ((s.poke q.core 8 (q.base + 0x40 + 32 * (tail % q.entries)) e.bytes).setQueueWord q 0 ((tail + 1) % 2 ^ 32)).shown e

/-- EVTQ sets the queue: its state block is zeroed, and it takes the kept records. -/
def State.rcEvtq (s : State) (a b : Nat) : State :=
  let k := s.fcore
  let base := s.q k a
  let n := s.q k b
  let qn := s.queueNo k
  let old := s.queue qn
  if !(([4, 5, 6, 7, 8, 9, 10, 11, 12].map (2 ^ ·)).contains n) then s.rcTrap 0x0C4
  else if spadSize k < base + 0x40 + 32 * n then s.rcFault k ⟨0x041, base, 0, false⟩
  else if base % 64 ≠ 0 then s.rcFault k ⟨0x042, base, 0, false⟩
  else
    let q : Queue := { isSet := true, core := k, base := base, entries := n }
    let s1 := s.poke k 8 base (List.replicate 64 0)
    ((old.kept.foldl (fun s e => s.putRecord q e) ((s1.setQueueWord q 2 (old.lost % 2 ^ 32)).modQueue qn (fun _ => q)))).rcNext k 4

/-- EVTQ.wait; an unset queue holds no record. -/
def State.rcEvtqWait (s : State) (d : Nat) : State :=
  let q := s.queue (s.queueNo s.fcore)
  if !q.isSet || s.queueWord q 0 == s.queueWord q 1 then s else s.rcPut d (s.queueWord q 0)

/-! ## Instructions -/

/-- MTP. -/
def execRcMtp (a b f : Nat) (st : State) : Out := .next (st.needLevel 1 (st.rcMtp a b f))
/-- MFP. -/
def execRcMfp (d a f : Nat) (st : State) : Out := .next (st.needLevel 1 (st.rcMfp d a f))
/-- RETS. -/
def execRcRets (a b : Nat) (st : State) : Out := .next (st.needLevel 1 (st.rcRets a b))
/-- TLBI. -/
def execRcTlbi (a : Nat) (st : State) : Out := .next (st.needLevel 1 (st.rcTlbi (st.q st.fcore a / 4096 * 4096) 4096))
/-- TLBI_RANGE. -/
def execRcTlbiRange (a b : Nat) (st : State) : Out := .next (st.needLevel 1 (st.rcTlbiRange a b))
/-- TLBI_ALL. -/
def execRcTlbiAll (st : State) : Out := .next (st.needLevel 1 (st.rcTlbi 0 (2 ^ 64)))
/-- KILL. -/
def execRcKill (a : Nat) (st : State) : Out := .next (st.needLevel 1 (st.rcKill a))
/-- KILL_PART. -/
def execRcKillPart (st : State) : Out := .next (st.needLevel 1 st.rcKillPart)
/-- PRMT. -/
def execRcPrmt (a : Nat) (st : State) : Out := .next (st.needLevel 1 (st.rcPrmt a))
/-- PRMT_PART. -/
def execRcPrmtPart (st : State) : Out := .next (st.needLevel 1 st.rcPrmtPart)
/-- EVTQ. -/
def execRcEvtq (a b : Nat) (st : State) : Out := .next (st.needLevel 1 (st.rcEvtq a b))
/-- EVTQ_WAIT. -/
def execRcEvtqWait (d : Nat) (st : State) : Out := .next (st.needLevel 1 (st.rcEvtqWait d))

end Sys2Proof.Machine
end

