-- ==== Sys2Proof/Machine/RcContext.lean ====
section
/-! DEFINITION. Context save and restore (R324 to R326): CTXS, CTXR, and the image of a region (log 22). -/

namespace Sys2Proof.Machine

/-! ## The stores of a core in an image -/

/-- The stores of a core, each at its base and with its size: scratchpad, configuration, program, matrix, histories, rings. -/
def coreStores (k : Nat) : List (Nat × Nat) :=
  [(spadBase k, 2 ^ 22), (cfgBase k 0 0, 65536), (progBase k, 65536), (matBase k, 1024), (histBase k, 1024), (ringBase k, 1024)]

/-- The stores of a core as an image keeps them: one after another at multiples of 2^23, without the discardable ranges of its scratchpad. -/
def State.saveStores (s : State) (k : Nat) (disc : List (Nat × Nat)) : Memory :=
  let m := disc.foldl (fun m d => Memory.clear m (spadBase k + d.1) d.2) s.mem
  ((coreStores k).zipIdx).flatMap (fun e => (Memory.slice m e.1.1 e.1.2).map (fun c => (c.1 + e.2 * 2 ^ 23, c.2)))

/-- The stores of a core put back. -/
def restoreStores (m : Memory) (k : Nat) (saved : Memory) : Memory :=
  ((coreStores k).zipIdx).foldl (fun m e =>
    (Memory.slice saved (e.2 * 2 ^ 23) (2 ^ 23)).foldl (fun m c => Memory.write m (e.1.1 + c.1) c.2) (Memory.clear m e.1.1 e.1.2)) m

/-! ## CTXS (R324) -/

/-- A node holds a communicator membership. -/
def State.hasMembership (s : State) (n : Nat) : Bool := s.dies.any (fun d => d.2.comms.any (fun c => c.2.node == n && !c.2.ended))

/-- The image of a frozen region, with its number for the bytes that the spec does not lay out. -/
def State.imageOf (s : State) (g : Region) : Saved × State :=
  let f := { s with freeNo := s.freeNo + 1 }
  let v := (aget s.nodes g.node).getD default
  ({ part := g.part, live := true, region := g, node := g.node, rcd := v,
     cores := g.coreList.map s.core,
     stores := g.coreList.map (fun k => s.saveStores k v.disc),
     frames := (s.isle (isleOf g.lead)).frames.filter (fun e => e.2.lead == g.lead),
     bytes := (List.range (s.imageBytes g)).map (Config.imageByte s.freeNo) }, f)

/-- The cores of a saved region are the scheduler's: nothing of the region stays in them. -/
def State.vacate (s : State) (g : Region) : State :=
  (g.coreList.foldl (fun s k => s.modCore k (fun c => { c.clearTokens with copies := [], hists := [], rc := {} })) (s.reclaimFrames g.lead)).freeRegion g.lead

def State.rcCtxs (s : State) (d a b : Nat) : State :=
  let k := s.fcore
  match s.regionOf (s.partAt k) (s.q k a) with
  | none => s.rcTrap 0x0F4
  | some g =>
    if g.st ≠ .frozen then s.rcTrap 0x0F5
    else if s.hasMembership g.node then s.rcTrap 0x0F4
    else
      let r := s.imageOf g
      match r.2.writeVA k g.part (s.q k b) r.1.bytes with
      | (t, .error c) => (s.keep t).rcExtern c
      | (t, .ok _) => (({ t with saved := t.saved ++ [r.1] }).vacate g).rcPut d r.1.bytes.length

/-! ## CTXR (R325) -/

/-- Ids of a core's configuration, moved from one lead core to another (R154). -/
def moveIds (m : Memory) (from' dest' k : Nat) : Memory :=
  let by' := (dest' + 1024 - from') % 1024
  let m1 := (List.range 128).foldl (fun m x =>
    let a := cfgBase k 0 0 + 512 * x
    rewriteWords (rewriteWords m (a + 0x120) 4 (relocPort by')) (a + 0x140) 8 (relocEdge by' 0)) m
  let m2 := rewriteWords (rewriteWords m1 (matBase k + 512) 3 (relocPort by')) (matBase k + 536) 1 (relocEdge by' 0)
  let m3 := rewriteWords m2 (histBase k + 512) 4 (relocEdge by' 0)
  if k ≠ dest' then m3
  else (List.range 31).foldl (fun m t =>
    let a := ringBase k + 256 + 16 * t + 8
    let id := Memory.readNat m a 2
    if id = 0xFFFF then m else Memory.writeN m a (leBytes 2 (reloc by' id))) m3

/-- A core of a region, moved: the numbers of cores that it holds, and a race checker that starts anew; its held accesses retry (R325, R335). -/
def Core.moved (c : Core) (mv : Nat → Nat) (rphase : Nat) (disc : List (Nat × Nat)) : Core :=
  let stalled (l : Nat) : Bool := ((aget c.cells l).map (·.stalled)).getD false
  let c := c.unhold (fun x => holdsAccess x.1)
  { c with
    cells := c.cells.map (fun (e : Nat × Cell) => (e.1, { e.2 with matching := if stalled e.1 then e.2.matching else [], l := List.replicate 4 Reg.empty, passed := false }))
    rc := { c.rc with specs := c.rc.specs.map (fun x => { x with core := mv x.core }) }
    ords := []
    words := []
    sync := []
    tbClr := []
    ringClr := []
    copyClr := []
    tcache := []
    rphase := rphase
    discard := disc.flatMap (fun d => (List.range (d.2 / 64)).map (fun i => d.1 / 64 + i))
    copies := c.copies.map (fun (e : Nat × Copy) => (e.1, { e.2 with frozen := false })) }

/-- The image that stands at an address: the one of some whose bytes are there (log 22). A cause met in reading as many bytes as one of them has counts only
where none is there. -/
def State.imageAmong (s : State) (k pt va : Nat) (bad : Option (State × (Nat × Nat))) : List Saved → State × Except (Nat × Nat) (Option Saved)
  | [] => match bad with | some (t, e) => (t, .error e) | none => (s, .ok none)
  | v :: r =>
    match s.readVA k pt va v.bytes.length with
    | (t, .error e) => s.imageAmong k pt va (bad.orElse (fun _ => some (t, e))) r
    | (t, .ok b) => if b = v.bytes then (t, .ok (some v)) else t.imageAmong k pt va bad r
def State.findImage (s : State) (k pt va : Nat) : State × Except (Nat × Nat) (Option Saved) := s.imageAmong k pt va none (s.saved.filter (fun v => v.part == pt))

/-- The rectangle of a saved region at a lead core. -/
def Saved.placed (v : Saved) (lead : Nat) : Region := { v.region with lead := lead, st := .running, pending := false, marked := false, capture := false }

/-- The causes that refuse a rectangle (R325). -/
def State.rectCause (s : State) (v : Saved) (pt id : Nat) : Option Nat :=
  let lead := id / 64
  let rect := rectAt v.region.w v.region.h (isleOf lead) (lead % 64)
  let isle := s.isle (isleOf lead)
  if !bit s.fuses.isles (isleOf lead) || s.partAt lead != pt then some 0x0F4
  else if id % 64 ≠ 48 ∨ rect = [] ∨ rect.map isKeyed ≠ v.region.coreList.map isKeyed then some 0x0F3
  else if rect.any (fun k => (s.regionAt k).isSome || k == (s.part pt).supervisor) then some 0x0F5
  else if v.frames.any (fun f => (aget isle.frames f.1).isSome) then some 0x0F5
  else none

/-- A saved region put into a rectangle: its node runs there, and a node that is not the saved one any longer gets an entry of its own. -/
def State.restore (s : State) (v : Saved) (lead : Nat) : State :=
  let old := v.region.lead
  let mv (k : Nat) : Nat := k + lead - old
  let n := if v.live then v.node else s.nodeNext
  let g := { v.placed lead with node := n }
  let disc := v.rcd.disc
  let put (s : State) (e : Core × Memory × Nat) : State :=
    let c := s.core e.2.2
    let t := s.setCore e.2.2 { e.1.moved mv (c.rphase + 1) disc with
      remote := c.remote
      matrix := { e.1.matrix with admitted := c.matrix.admitted, waiting := c.matrix.waiting, lastStep := c.matrix.lastStep } }
    { t with mem := moveIds (restoreStores t.mem e.2.2 e.2.1) old lead e.2.2 }
  let s1 := (v.cores.zip (v.stores.zip g.coreList)).foldl put s
  let s2 := s1.modRc lead (fun r => { r with node := n })
  let s3 := g.coreList.foldl (fun t k => t.modCore k (fun c => { c with copies := c.copies.map (fun (e : Nat × Copy) => (e.1, { e.2 with node := n })) })) s2
  let s4 := s3.modIsle (isleOf lead) (fun i => { i with frames := v.frames.foldl (fun m f =>
    aset m f.1 { f.2 with lead := lead, rcd := { f.2.rcd with core := mv f.2.rcd.core } }) i.frames })
  let s5 := { s4 with
    regions := s4.regions ++ [g]
    nodes := if v.live then s4.nodes else aset s4.nodes n { v.rcd with st := 2 }
    nodeNext := if v.live then s4.nodeNext else n + 1
    saved := s4.saved.map (fun (w : Saved) => if w.node = v.node then { w with live := false } else w) }
  match (s5.rc lead).mode with
  | .sys qd (some x) => s5.modRc lead (fun r => r.resume qd x)
  | _ => s5

def State.rcCtxr (s : State) (d a b : Nat) : State :=
  let k := s.fcore
  let pt := s.partAt k
  if s.q k b = 0 then
    match s.regionOf pt (s.q k a) with
    | none => s.rcTrap 0x0F4
    | some g => if g.st ≠ .frozen then s.rcTrap 0x0F5 else ((s.runOn g.lead).retryRegion g.lead).rcPut d (s.q k a)
  else match s.findImage k pt (s.q k b) with
  | (t, .error c) => t.rcExtern c
  | (t, .ok none) => t.rcTrap 0x0F3
  | (t, .ok (some v)) =>
    match t.rectCause v pt (t.q k a % 2 ^ 16) with
    | some c => t.rcTrap c
    | none => let lead := t.q k a % 2 ^ 16 / 64; (t.restore v lead).rcPut d (regionHandle lead)

/-! ## Instructions -/

/-- CTXS. -/
def execRcCtxs (d a b : Nat) (st : State) : Out := .next (st.needLevel 1 (st.rcCtxs d a b))
/-- CTXR. -/
def execRcCtxr (d a b : Nat) (st : State) : Out := .next (st.needLevel 1 (st.rcCtxr d a b))

end Sys2Proof.Machine
end

