-- ==== Sys2Proof/Machine/RcPart.lean ====
section
/-! DEFINITION. Partitions (R315, R316, R362): PART; pages that move and tiles that are scrubbed (R339, R340): MIGR, SCRUB. -/

namespace Sys2Proof.Machine

/-! ## PART (R315) -/

/-- A share: base and size in GiB. -/
def shareOf (v : Nat) : Nat × Nat := (bits v 15 0, bits v 31 16)
def sharesMeet (a b : Nat × Nat) : Bool := decide (0 < a.2) && decide (0 < b.2) && decide (a.1 < b.1 + b.2) && decide (b.1 < a.1 + a.2)

/-- GiB of the tiers that a share may name: all but the metadata regions (R1, R352). -/
def hbmShare : Nat := hbmGiB - 12
def lp6Share : Nat := lp6GiB - 18

/-- The partition that a descriptor describes. The translation root is taken from it, and walks are enabled (R330). -/
def partOf (b : List Byte) : Part :=
  { live := true, isles := fld b 0 2, tenant := fld b 2 1, hbm := shareOf (fld b 4 4), lp6 := shareOf (fld b 8 4), image := fld b 0x10 8,
    entry := fld b 0x18 4, csel := defaultCsel, troot := field (fld b 0x20 8) 31 12 + 2 ^ 32 }

/-- The descriptor of a partition. -/
def Part.descriptor (p : Part) : List Byte :=
  leBytes 2 p.isles ++ leBytes 1 p.tenant ++ leBytes 1 0 ++ leBytes 4 (p.hbm.1 + p.hbm.2 * 2 ^ 16) ++ leBytes 4 (p.lp6.1 + p.lp6.2 * 2 ^ 16) ++ leBytes 4 0
    ++ leBytes 8 p.image ++ leBytes 4 p.entry ++ leBytes 4 0 ++ leBytes 8 (field p.troot 31 12) ++ List.replicate 24 0

/-- A node of the partition runs, is frozen or is not yet KILL_DONE. -/
def State.partBusy (s : State) (n : Nat) : Bool := s.regions.any (fun g => g.part == n) || s.nodes.any (fun v => v.2.part == n && v.2.st == 2)

/-- The causes that refuse a partition number, and a create. -/
def State.badPartNo (s : State) (n : Nat) : Bool := decide (16 ≤ n) || (s.fuses.fifteen && n == 15)
def State.createCause (s : State) (n : Nat) (b : List Byte) : Option Nat :=
  let p := partOf b
  let others := s.parts.filter (fun q => q.2.live && q.1 != n)
  firstBad [
    (s.badPartNo n || decide (hbmShare < p.hbm.1 + p.hbm.2) || (if s.fuses.module then decide (lp6Share < p.lp6.1 + p.lp6.2) else p.lp6.2 != 0), 0x149),
    (p.isles == 0 || fld b 3 1 != 0 || fld b 12 4 != 0 || fld b 28 4 != 0 || (b.drop 0x28).any (· != 0) || decide (64 ≤ p.tenant) || p.image % 64 != 0, 0x14B),
    ((List.range 16).any (fun i => bit p.isles i && (!bit s.fuses.isles i || others.any (fun q => bit q.2.isles i)))
      || others.any (fun q => sharesMeet p.hbm q.2.hbm || sharesMeet p.lp6 q.2.lp6), 0x14C),
    (s.partBusy n || decide (s.stage < 5), 0x14D)]

/-- The core whose store holds an address, for addresses beyond external memory. -/
def coreOfAddr (a : Nat) : Option Nat :=
  if a < 2 ^ 48 then none
  else if a < 2 ^ 49 then some ((a - 2 ^ 48) / 2 ^ 22)
  else if a < 2 ^ 50 then some ((a - 2 ^ 49) / 65536)
  else if a < 2 ^ 51 then some ((a - 2 ^ 50) / 65536)
  else if a < 2 ^ 52 then some ((a - 2 ^ 51) / 1024)
  else if a < 2 ^ 53 then some ((a - 2 ^ 52) / 1024)
  else some ((a - 2 ^ 53) / 1024)

/-- The isles of a mask are cleared as a device reset leaves them, and a partition's tiles leave the caches of verified plaintext. What is on its way from or to
their cores, and records that wait for the partition's queue, are gone: nothing of one partition shows under another (R316). -/
def State.clearIsles (s : State) (mask pt : Nat) : State :=
  let gone (k : Nat) : Bool := decide (k < managerCore) && bit mask (isleOf k)
  { s with
    mem := s.mem.filter (fun c => match coreOfAddr c.1 with | some k => !gone k | none => true)
    cores := s.cores.filter (fun e => !gone e.1)
    isles := s.isles.filter (fun e => !bit mask e.1)
    dies := s.dies.map (fun (e : Nat × Die) => (e.1, { e.2 with
      comms := e.2.comms.filter (fun c => !gone c.2.core)
      cache := e.2.cache.filter (fun c => c.key / 2 ^ 37 != pt)
      walks := e.2.walks.filter (fun w => w.part != pt) }))
    reqs := s.reqs.filter (fun r => !(gone r.dst || (r.src.route == 0 && gone r.src.core)))
    ctl := s.ctl.filter (fun m => !gone (m.dest / 64))
    posts := s.posts.filter (fun e => e.queue != pt) }

/-- What a partition's nodes were is gone with it. -/
def State.dropNodes (s : State) (pt : Nat) : State :=
  { (s.nodes.foldl (fun (s : State) (n : Nat × Node) => if n.2.part = pt then s.leavePool n.1 else s) s) with
    nodes := s.nodes.filter (fun n => n.2.part != pt)
    doomed := s.doomed.filter (fun d => d.1 != pt)
    early := s.early.filter (fun e => e.1 != pt)
    saved := s.saved.filter (fun v => v.part != pt) }

/-- Create: the isles are cleared, the shares' tiles become zero-fill with their versions kept, and the supervisor's program is loaded and started. -/
def State.createPart (s : State) (n : Nat) (p : Part) : Except Nat State :=
  let img := s.physRead p.image (imgLen (s.physRead p.image 128))
  let sup := p.supervisor
  let s1 := ((s.clearIsles (p.isles ||| (s.part n).isles) n).dropNodes n)
  let s2 := { s1 with
    parts := aset s1.parts n { p with measure := sha384 img }
    tiles := s1.tiles.map (fun (e : Nat × TileMeta) => if p.owns (e.1 * 2048) 2048 then (e.1, { e.2 with st := 0 }) else e) }
  let g : Region := { lead := sup, w := 1, h := 1, stage := 0, node := 0, part := n, tenant := p.tenant }
  match s2.configure g img with
  | .error c => .error c
  | .ok t =>
    .ok { (t.modRc sup (fun r => { r with
        mode := .running
        level := 1
        pc := p.entry
        progOff := imgProg img
        progLen := imgProgLen img
        image := p.image
        part := n })) with
      mem := Memory.writeN t.mem (progBase sup) ((img.drop (imgProg img)).take (min (imgProgLen img) 65536)) }

def State.rcPartCreate (s : State) (d a b : Nat) : State :=
  let k := s.fcore
  let n := s.q k a
  let desc := s.physRead (s.q k b) 64
  match s.createCause n desc with
  | some c => s.rcFault k ⟨c, s.q k b, 0, false⟩
  | none =>
    match s.createPart n (partOf desc) with
    | .error c => s.rcFault k ⟨c, s.q k b, 0, false⟩
    | .ok t => t.rcPut d 0

def State.rcPartDestroy (s : State) (d a : Nat) : State :=
  let n := s.q s.fcore a
  if s.badPartNo n then s.rcTrap 0x149
  else if s.partBusy n ∨ s.stage < 5 then s.rcTrap 0x14D
  else
    let t := (s.clearIsles (s.part n).isles n).dropNodes n
    ({ t with parts := adel t.parts n }).rcPut d 0

def State.rcPartRead (s : State) (d a b : Nat) : State :=
  let k := s.fcore
  let n := s.q k a
  if s.badPartNo n then s.rcTrap 0x149
  else if s.stage < 5 then s.rcTrap 0x14D
  else if (s.part n).live then (s.physWrite (s.q k b) (s.part n).descriptor).rcPut d 1
  else s.rcPut d 0

/-! ## MIGR (R339) -/

/-- The leaf that maps a VA where a walk finds one. -/
def State.leafOf (s : State) (pt va : Nat) : Option (Nat × Nat × Nat) :=
  match s.walk pt va false with
  | .error _ => none
  | .ok _ => leafFrom s.mem (s.part pt) va 4 (bits (s.part pt).troot 31 12 * 4096)

/-- A table of a partition maps a page that meets n bytes at a physical address. Entries of a run map by its first (R332). -/
def mapsInto (m : Memory) (p : Part) (pa n : Nat) : Nat → Nat → Bool
  | 0, _ => false
  | f + 1, t => (List.range 512).any (fun i =>
      let e := Memory.readNat m (spadBase p.supervisor + t + 8 * i) 8
      if !bit e 0 then false
      else if bit e 1 then
        let size := pageSize (3 - f) (bit e 2)
        let a := bits (if bit e 2 then Memory.readNat m (spadBase p.supervisor + t + 8 * (i / 16 * 16)) 8 else e) 47 12 * 4096
        decide (a < pa + n) && decide (pa < a + size)
      else mapsInto m p pa n f (bits e 31 12 * 4096))

/-- Ciphertext and metadata of n bytes, copied unchanged. -/
def State.copyPage (s : State) (src dst n : Nat) : State :=
  { s with
    mem := (Memory.slice s.mem src n).foldl (fun m c => Memory.write m (dst + c.1) c.2) (Memory.clear s.mem dst n)
    tiles := (s.tiles.filter (fun e => decide (src ≤ e.1 * 2048) && decide (e.1 * 2048 < src + n))).foldl
      (fun m e => aset m (e.1 - src / 2048 + dst / 2048) e.2) (s.tiles.filter (fun e => !(decide (dst ≤ e.1 * 2048) && decide (e.1 * 2048 < dst + n)))) }

/-- A migration ends: its page's cached translations go, and the parked writes retry. -/
def State.endMigr (s : State) (pt : Nat) (g : Migr) : State :=
  ((s.modPart pt (fun p => { p with migr := none })).dropTranslations pt g.va g.size).retryHeld pt (fun c => c.1 == 0x17D && decide (g.va ≤ c.2) && decide (c.2 < g.va + g.size))

/-- The causes of MIGR. -/
def State.migrCause (s : State) (pt va target : Nat) : Except Nat (Nat × Nat × Nat) :=
  let p := s.part pt
  match s.leafOf pt va with
  | none => .error 0x17B
  | some (at', e, size) =>
    if 2 ^ 25 < size ∨ !p.owns target size ∨ mapsInto s.mem p target size 4 (bits p.troot 31 12 * 4096) then .error 0x179
    else if va % size ≠ 0 ∨ target % size ≠ 0 then .error 0x17A
    else .ok (at', e, size)

/-- MIGR: first MW is set, so that writes park; then the page is copied, and the leaf takes the target unless it has changed. -/
def State.rcMigr (s : State) (d a b : Nat) : State :=
  let k := s.fcore
  let pt := s.partAt k
  let sup := (s.part pt).supervisor
  match (s.part pt).migr with
  | none =>
    match s.migrCause pt (s.q k a) (s.q k b) with
    | .error c => s.rcFault k ⟨c, s.q k a, 0, false⟩
    | .ok (at', e, size) =>
      let v := if bit e 4 then e else e + 16
      let t := s.poke sup 8 (at' - spadBase sup) (leBytes 8 v)
      (t.modPart pt (fun p => { p with migr := some ⟨s.q k a, size, at', v, s.q k b⟩ })).dropTranslations pt (s.q k a) size
  | some g =>
    let old := bits g.leaf 47 12 * 4096
    let t := s.copyPage old g.target g.size
    if Memory.readNat t.mem g.leafAt 8 ≠ g.leaf then (t.endMigr pt g).rcFault k ⟨0x17C, g.va, 0, false⟩
    else
      let leaf := g.leaf - 16 - old + g.target
      ((t.poke sup 8 (g.leafAt - spadBase sup) (leBytes 8 leaf)).endMigr pt g).rcPut d old

/-! ## SCRUB (R340) -/

/-- Tiles scrubbed from a tile on, at most n: it stops at the first that is not quarantined, whose version would wrap, or that no page maps. -/
def State.scrubFrom (s : State) (k pt tile : Nat) : Nat → State × Except Nat Nat
  | 0 => (s, .ok 0)
  | n + 1 =>
    let info (s : State) (c : Nat) : State := s.postRc k 0 ⟨c, tile * 2048, 0, false⟩
    match s.translate k pt (tile * 2048) true with
    | (t, .error c) => (info t c, .ok 0)
    | (t, .ok pa) =>
      if (t.tileMeta pa).st ≠ 2 then (t, .ok 0)
      else match t.seal k pt tile [] 0 [] [] with
      | (u, .error c) => if c = 0x0A8 then (u, .error c) else (info u c, .ok 0)
      | (u, .ok _) =>
        match u.scrubFrom k pt (tile + 1) n with
        | (v, .ok m) => (v, .ok (m + 1))
        | r => r

def State.rcScrub (s : State) (d a b : Nat) : State :=
  let k := s.fcore
  if s.q k a % 2048 ≠ 0 then s.rcFault k ⟨0x0AA, s.q k a, 0, false⟩
  else match s.scrubFrom k (s.partAt k) (s.q k a / 2048) (s.q k b) with
  | (t, .error c) => t.rcFault k ⟨c, s.q k a, 0, false⟩
  | (t, .ok n) => t.rcPut d n

/-! ## Instructions -/

/-- PART_CREATE. -/
def execRcPartCreate (d a b : Nat) (st : State) : Out := .next (st.needLevel 2 (st.rcPartCreate d a b))
/-- PART_DESTROY: b is not read. -/
def execRcPartDestroy (d a _b : Nat) (st : State) : Out := .next (st.needLevel 2 (st.rcPartDestroy d a))
/-- PART_READ. -/
def execRcPartRead (d a b : Nat) (st : State) : Out := .next (st.needLevel 2 (st.rcPartRead d a b))
/-- MIGR. -/
def execRcMigr (d a b : Nat) (st : State) : Out := .next (st.needLevel 1 (st.rcMigr d a b))
/-- SCRUB. -/
def execRcScrub (d a b : Nat) (st : State) : Out := .next (st.needLevel 1 (st.rcScrub d a b))

end Sys2Proof.Machine
end

