-- ==== Sys2Proof/Machine/RcKeys.lean ====
section
/-! DEFINITION. Keys and attestation (R357 to R363): SEALK, ATTEST. What the security processor computes with secrets is opaque (log 11). -/

namespace Sys2Proof.Machine

/-! ## SEALK (R359, R360) -/

def State.slot (s : State) (i : Nat) : KeySlot := (aget s.keys i).getD {}
def State.session (s : State) (i : Nat) : Session := (aget s.sessions i).getD {}
def State.liveSlots (s : State) (tenant : Nat) : List KeySlot := (s.keys.filter (fun e => e.2.live && e.2.tenant == tenant)).map (·.2)

/-- The key that a wrapped-key record holds, where its session opens it. -/
def State.unwrap (s : State) (b : List Byte) : Option (List Byte) :=
  let q := s.session (fld b 6 1)
  if 16 ≤ fld b 6 1 ∨ !q.isOpen ∨ !q.done then none
  else Config.gcmOpen q.key ((b.drop 8).take 12) (b.take 8) ((b.drop 0x20).take 32) ((b.drop 0x40).take 16)

/-- The load of a slot: it derives a sealing key of its own, which the count of loads names. -/
def State.loadKey (s : State) (i : Nat) (b : List Byte) : Except Nat State :=
  if fld b 0 4 ≠ 0x5EA14B01 ∨ 64 ≤ fld b 4 1 ∨ fld b 7 1 ≠ 0 ∨ ((b.drop 0x14).take 12).any (· != 0) ∨ (b.drop 0x50).any (· != 0) then .error 0x153
  else match s.unwrap b with
  | none => .error 0x154
  | some key =>
    let l := s.liveSlots (fld b 4 1)
    if (s.slot i).live || l.any (fun q => q.gen == fld b 5 1) then .error 0x155
    else if 2 ≤ l.length then .error 0x156
    else .ok { s with
      keys := aset s.keys i { live := true, tenant := fld b 4 1, gen := fld b 5 1, key := key, load := s.loads + 1 }
      loads := s.loads + 1 }

def State.rcSealk (s : State) (d a b : Nat) : State :=
  let k := s.fcore
  if 64 ≤ s.q k a then s.rcTrap 0x151
  else match s.loadKey (s.q k a) (s.physRead (s.q k b) 128) with
  | .error c => s.rcTrap c
  | .ok t => t.rcPut d 0

/-- The tiles that were sealed under a load leave the caches of verified plaintext (R355). -/
def State.uncacheLoad (s : State) (load : Nat) : State :=
  { s with dies := s.dies.map (fun (e : Nat × Die) => (e.1, { e.2 with cache := e.2.cache.filter (fun c => c.load != load) })) }

/-- Retire. -/
def State.rcSealkRet (s : State) (a : Nat) : State :=
  let k := s.fcore
  let i := s.q k a
  if 64 ≤ i then s.rcTrap 0x151
  else if !(s.slot i).live ∨ (s.slot i).current then s.rcTrap 0x155
  else ({ (s.uncacheLoad (s.slot i).load) with keys := adel s.keys i }).rcNext k 4

/-- Make current: the tenant's slot that was current can be so no longer. -/
def State.rcSealkCur (s : State) (a : Nat) : State :=
  let k := s.fcore
  let i := s.q k a
  let q := s.slot i
  if 64 ≤ i then s.rcTrap 0x151
  else if !q.live ∨ q.was then s.rcTrap 0x155
  else
    let keys := s.keys.map (fun (e : Nat × KeySlot) =>
      if e.1 = i then (e.1, { e.2 with current := true })
      else if e.2.tenant = q.tenant ∧ e.2.current then (e.1, { e.2 with current := false, was := true }) else e)
    ({ s with keys := keys }).rcNext k 4

/-! ## ATTEST (R362, R363) -/

/-- Bytes cut or padded with zeros to a length. -/
def fit (n : Nat) (b : List Byte) : List Byte := b.take n ++ List.replicate (n - b.length) 0

/-- The body of a report: bytes 0x000 to 0x58F. -/
def State.reportBody (s : State) (id pt seed : Nat) (nonce : List Byte) : List Byte :=
  leBytes 4 0xA77E5701 ++ leBytes 2 1 ++ leBytes 1 id ++ leBytes 1 pt ++ leBytes 8 s.fuses.cap ++ fit 32 nonce ++ fit 48 Config.firmwareMeasurement
    ++ (if pt = 16 then List.replicate 48 0 else fit 48 (s.part pt).measure) ++ fit 48 Config.identityDigest ++ fit 1216 (Config.sessionKeys seed) ++ List.replicate 16 0

/-- Open. -/
def State.rcAttest (s : State) (d a b : Nat) : State :=
  let k := s.fcore
  let pt := s.q k a
  match (List.range 16).find? (fun i => !(s.session i).isOpen) with
  | none => s.rcTrap 0x156
  | some id =>
    if 17 ≤ pt ∨ (pt < 16 ∧ !(s.part pt).live) then s.rcTrap 0x149
    else
      let f := s.free
      let body := f.2.reportBody id pt f.1 (s.physRead (s.q k b + 0x10) 32)
      let t := f.2.physWrite (s.q k b) (body ++ fit 3373 (Config.sign body) ++ List.replicate 67 0)
      ({ t with sessions := aset t.sessions id { isOpen := true, seed := f.1, digest := sha384 body } }).rcPut d id

/-- Complete. -/
def State.rcAttestAcc (s : State) (a b : Nat) : State :=
  let k := s.fcore
  let i := s.q k a
  let q := s.session i
  if 16 ≤ i ∨ !q.isOpen ∨ q.done then s.rcTrap 0x155
  else ({ s with sessions := aset s.sessions i { q with done := true, key := Config.sessionKey q.seed q.digest (s.physRead (s.q k b) 1120) } }).rcNext k 4

/-- Close. -/
def State.rcAttestClose (s : State) (a : Nat) : State :=
  let k := s.fcore
  let i := s.q k a
  if 16 ≤ i ∨ !(s.session i).isOpen then s.rcTrap 0x155 else ({ s with sessions := adel s.sessions i }).rcNext k 4

/-! ## Instructions -/

/-- SEALK. -/
def execRcSealk (d a b : Nat) (st : State) : Out := .next (st.needLevel 2 (st.rcSealk d a b))
/-- SEALK_RET. -/
def execRcSealkRet (a : Nat) (st : State) : Out := .next (st.needLevel 2 (st.rcSealkRet a))
/-- SEALK_CUR. -/
def execRcSealkCur (a : Nat) (st : State) : Out := .next (st.needLevel 2 (st.rcSealkCur a))
/-- ATTEST. -/
def execRcAttest (d a b : Nat) (st : State) : Out := .next (st.needLevel 2 (st.rcAttest d a b))
/-- ATTEST_ACC. -/
def execRcAttestAcc (a b : Nat) (st : State) : Out := .next (st.needLevel 2 (st.rcAttestAcc a b))
/-- ATTEST_CLOSE. -/
def execRcAttestClose (a : Nat) (st : State) : Out := .next (st.needLevel 2 (st.rcAttestClose a))

end Sys2Proof.Machine
end

