-- ==== Sys2Proof/Machine/RcCkpt.lean ====
section
/-! DEFINITION. Checkpoint and restore (R375 to R380): CKPT, as an RC or a checkpoint node runs it, and RSTR. -/

namespace Sys2Proof.Machine

/-! ## Buffers as the table registers them (R105, R311) -/

/-- A buffer's entry is read; an entry that the supervisor has written anew registers the buffer. -/
def State.registerBuf (s : State) (k pt h : Nat) : State × Except (Nat × Nat) Buf :=
  match s.readVA k pt (bits (s.part pt).buftab 47 5 * 32 + 32 * h) 32 with
  | (t, .error c) => (t, .error c)
  | (t, .ok b) =>
    let old := (aget (t.part pt).bufs h).getD {}
    let new : Buf := { start := fld b 0 8, size := fld b 8 8, version := fld b 16 6, shape := fld b 24 8 }
    let v := if (aget (t.part pt).bufs h).isSome ∧ old.start = new.start ∧ old.size = new.size ∧ old.version = new.version ∧ old.shape = new.shape then old else new
    (t.modPart pt (fun p => { p with bufs := aset p.bufs h v }), .ok v)

/-- Bytes of a buffer in a version that a map names. -/
def State.readMap (s : State) (k pt start n : Nat) (map : Assoc Nat) : State × Except (Nat × Nat) (List Byte) := s.readTiles k pt start n (fun t => (aget map t).getD t)

/-! ## Requests (R375, R376) -/

/-- Bytes of an element of a format that a checkpoint takes, none for another. -/
def ckptSize (code : Nat) : Option Nat :=
  if 16 ≤ code then none
  else match fmtOf code with
  | .fp32 | .s32 | .n32 | .vcb | .rcd => some 4
  | .bf16 | .fp16 | .s16 => some 2
  | .e4m3 | .e5m2 | .mxint8 | .s8 => some 1
  | _ => none

/-- Four 32-bit numbers. -/
def quad (b : List Byte) (o : Nat) : List Nat := (List.range 4).map (fun j => fld b (o + 4 * j) 4)
def product (l : List Nat) : Nat := l.foldl (· * ·) 1

/-- Entry k of a request; bytes of its slice. -/
def ckptEntry (b : List Byte) (i : Nat) : List Byte := (b.drop (0x40 + 64 * i)).take 64
def sliceBytes (e : List Byte) : Nat := product (quad e 0x30) * (ckptSize (fld e 3 1)).getD 0

/-- A slice lies in its shape. -/
def sliceIn (shape origin extent : List Nat) : Bool := (List.range 4).all (fun j => decide (origin.getD j 0 + extent.getD j 0 ≤ shape.getD j 0))

def ckptT (b : List Byte) : Nat := fld b 4 2
def ckptR (b : List Byte) : Nat := fld b 6 1
def ckptHandles (b : List Byte) : List Nat := (List.range (ckptR b)).map (fun i => fld b (0x20 + 2 * i) 2)

/-- Bytes whose number stands in their first 64: a request with its entries, a manifest. -/
def State.readCounted (s : State) (k pt va : Nat) (len : List Byte → Nat) : State × Except (Nat × Nat) (List Byte) :=
  match s.readVA k pt va 64 with
  | (t, .error x) => (t, .error x)
  | (t, .ok b) => t.readVA k pt va (len b)

/-- Bytes of a CKPT request, of a RSTR request, and of a manifest, as their first 64 say, within the most that they may have. -/
def ckptBytes (b : List Byte) : Nat := 0x40 + 64 * min 64 (ckptT b)
def rstrBytes (b : List Byte) : Nat := 0x40 + 64 * min 64 (fld b 4 4)
def manifestBytes (b : List Byte) : Nat := max 64 (min (fld b 12 4) (64 + 128 * 80 + 3373))

/-- A request breaks its format. -/
def badCkpt (b : List Byte) : Bool :=
  fld b 0 4 != 0xC4EC4B01 || decide (64 < ckptT b) || decide (16 < ckptR b) || decide (2 ≤ fld b 7 1) || fld b 8 8 % 2048 != 0 || fld b 0x18 8 != 0
    || ((b.drop (0x20 + 2 * ckptR b)).take (32 - 2 * ckptR b)).any (· != 0)
    || (List.range (ckptT b)).any (fun i =>
      let e := ckptEntry b i
      (ckptSize (fld e 3 1)).isNone || fld e 2 1 == 0 || decide (4 < fld e 2 1) || fld e 4 4 != 0
        || (List.range 4).any (fun j => decide (fld e 2 1 ≤ j) && (quad e 0x10).getD j 0 != 1)
        || !sliceIn (quad e 0x10) (quad e 0x20) (quad e 0x30))

/-! ## Layout (R378) -/

/-- Round up to a storage tile. -/
def tiled (n : Nat) : Nat := (n + 2047) / 2048 * 2048
def manifestLen (b : List Byte) : Nat := 64 + 128 * (ckptT b + ckptR b) + (if bit (fld b 7 1) 0 then 3373 else 0)

/-- Places of shards of given lengths from an address on. -/
def shardPlaces (at' : Nat) : List Nat → List Nat
  | [] => []
  | n :: r => at' :: shardPlaces (at' + tiled n) r

/-- Lengths of the shards of a request: tensors, then regions. -/
def State.shardLens (s : State) (pt : Nat) (b : List Byte) : List Nat :=
  (List.range (ckptT b)).map (fun i => sliceBytes (ckptEntry b i)) ++ (ckptHandles b).map (fun h => ((s.regionOf pt h).map s.imageBytes).getD 0)

/-- Bytes that a checkpoint uses: to the end of its last shard. -/
def ckptTotal (b : List Byte) (lens : List Nat) : Nat :=
  match lens.reverse with
  | [] => manifestLen b
  | l :: r => tiled (manifestLen b) + r.foldl (fun n x => n + tiled x) 0 + l

/-! ## CKPT (R377) -/

/-- A region can be captured: every in-use port accepts CAPTURE, and its node holds no membership. -/
def State.capturable (s : State) (g : Region) : Bool :=
  !s.hasMembership g.node && g.coreList.all (fun k =>
    (List.range 32).all (fun l => (s.cellPorts k l).all (fun x => pwMark (s.portWord k l x.1 x.2) 3))
      && (isKeyed k || [32, 33, 35].all (fun l => !pwEn (s.inWord k l 0 0) || pwMark (s.inWord k l 0 0) 3)))

/-- The causes that refuse a request, in the order of R377. `sizes` are the buffers' sizes by entry. -/
def State.ckptCause (s : State) (pt : Nat) (b : List Byte) (sizes : List Nat) : Option Nat :=
  let gs := (ckptHandles b).map (s.regionOf pt)
  firstBad [
    (badCkpt b || (List.range (ckptT b)).any (fun i => decide (sizes.getD i 0 < sliceBytes (ckptEntry b i))), 0x0B3),
    (decide (fld b 0x10 8 < ckptTotal b (s.shardLens pt b)), 0x0B6),
    (gs.any (·.isNone) || gs.any (fun g => match g with | some g => !s.capturable g | none => false), 0x0F4),
    (gs.any (fun g => match g with | some g => g.st != .running || g.pending | none => false), 0x0F5)]

/-- What one step of a checkpoint comes to: it goes on, it is done with a number of bytes, or it meets a cause at an address. -/
inductive CkptStep where
  | wait (s : State)
  | done (s : State) (n : Nat)
  | fail (s : State) (c : Nat × Nat)

/-- The snapshots of the listed buffers, in entry order: handle, version, map; with the sizes. -/
def State.snapshots (s : State) (k pt : Nat) (hs : List Nat) : State × Except (Nat × Nat) (List (Nat × Nat × Assoc Nat) × List Nat) :=
  hs.foldl (fun acc h =>
    match acc with
    | (t, .error c) => (t, .error c)
    | (t, .ok (l, z)) =>
      if bits (t.part pt).buftab 59 48 ≤ h then (t, .ok (l ++ [(h, 0, [])], z ++ [0]))
      else match t.registerBuf k pt h with
      | (u, .error c) => (u, .error c)
      | (u, .ok v) => (u, .ok (l ++ [(h, v.version, v.map)], z ++ [v.size]))) (s, .ok ([], []))

/-- The next stage to capture after some regions: the handles of the lowest stage that is not captured. -/
def State.nextStage (s : State) (pt : Nat) (handles done : List Nat) : List Nat :=
  let left := handles.filter (fun h => !done.contains h)
  let stage (h : Nat) : Nat := ((s.regionOf pt h).map (·.stage)).getD 0
  match left with
  | [] => []
  | h :: r => left.filter (fun x => stage x == r.foldl (fun m y => min m (stage y)) (stage h))

/-- Capture begins for some regions. -/
def State.capture (s : State) (pt : Nat) (hs : List Nat) : State :=
  hs.foldl (fun s h => match s.regionOf pt h with | some g => s.askDrain g.lead true false | none => s) s

/-- A captured region's image is taken, and it resumes in place. -/
def State.takeImage (s : State) (pt h : Nat) : State × List (Nat × Nat × List Byte) :=
  match s.regionOf pt h with
  | none => (s, [])
  | some g =>
    let r := s.imageOf g
    ((({ r.2 with saved := r.2.saved ++ [{ r.1 with live := false }] }).runOn g.lead).retryRegion g.lead, [(h, g.stage, r.1.bytes)])

/-- An entry of the manifest. -/
def manifestEntry (head mid : List Byte) (va : Nat) (bytes : List Byte) : List Byte :=
  head ++ mid ++ leBytes 8 bytes.length ++ leBytes 8 va ++ fit 32 (sha3 bytes) ++ List.replicate 16 0

/-- The shards are written, then the manifest. -/
def State.writeCkpt (s : State) (k pt : Nat) (b : List Byte) (c : Ckpt) : CkptStep :=
  let area := fld b 8 8
  let entries := (List.range (ckptT b)).map (ckptEntry b)
  let tensors : State × Except (Nat × Nat) (List (List Byte)) := (entries.zip c.snaps).foldl (fun acc e =>
    match acc with
    | (t, .error x) => (t, .error x)
    | (t, .ok l) =>
      match t.readMap k pt (((aget (t.part pt).bufs e.2.1).getD {}).start) (sliceBytes e.1) e.2.2.2 with
      | (u, .error x) => (u, .error x)
      | (u, .ok d) => (u, .ok (l ++ [d]))) (s, .ok [])
  match tensors with
  | (t, .error x) => .fail t x
  | (t, .ok ds) =>
    let images := (ckptHandles b).filterMap (fun h => c.images.find? (fun i => i.1 == h))
    let shards := ds ++ images.map (fun i => i.2.2)
    let places := shardPlaces (area + tiled (manifestLen b)) (shards.map List.length)
    let heads := entries.map (fun e => (e.drop 8).take 8 ++ leBytes 1 0 ++ (e.drop 2).take 2 ++ leBytes 1 0 ++ leBytes 4 0)
      ++ images.map (fun i => leBytes 8 i.1 ++ leBytes 1 1 ++ leBytes 1 0 ++ leBytes 1 0 ++ leBytes 1 i.2.1 ++ leBytes 4 0)
    let mids := entries.map (fun e => (e.drop 0x10).take 48) ++ images.map (fun _ => List.replicate 48 0)
    let table := ((heads.zip mids).zip (places.zip shards)).flatMap (fun e => manifestEntry e.1.1 e.1.2 e.2.1 e.2.2)
    let sign := fld b 7 1 % 2
    let p := t.part pt
    let body := leBytes 4 0x4D4E4601 ++ leBytes 2 1 ++ leBytes 2 shards.length ++ leBytes 1 p.tenant ++ leBytes 1 pt ++ leBytes 1 sign ++ leBytes 1 0
      ++ leBytes 4 (manifestLen b) ++ leBytes 8 t.time ++ List.replicate 40 0 ++ table
    let manifest := if sign = 1 then body ++ fit 3373 (Config.sign (sha384 body)) else body
    let put (acc : State × Except (Nat × Nat) Unit) (e : Nat × List Byte) : State × Except (Nat × Nat) Unit :=
      match acc with
      | (u, .error x) => (u, .error x)
      | (u, .ok _) => u.writeVA k pt e.1 e.2
    match (places.zip shards).foldl put (t, .ok ()) with
    | (u, .error x) => .fail u x
    | (u, .ok _) =>
      match u.writeVA k pt area manifest with
      | (_, .error x) => .fail u x
      | (w, .ok _) => .done w (ckptTotal b (shards.map List.length))

/-- Regions that a checkpoint was capturing run on. -/
def State.abandonCapture (s : State) (pt : Nat) (hs : List Nat) : State :=
  hs.foldl (fun s h => match s.regionOf pt h with | some g => if g.capture then s.runOn g.lead else s | none => s) s

/-- The pre-emption deadline of a partition, in cycles (R310, R323). -/
def Part.deadline (p : Part) : Nat := bits p.pctl 31 16 * 1800

/-- A partition's checkpoint is over: its snapshots are given up. -/
def State.endCkpt (s : State) (pt : Nat) : State := (s.modPart pt (fun p => { p with ckpt := none })).reclaim pt (s.busyTiles pt)

/-- A checkpoint meets a cause in external memory: a translation cause holds it where it stands (R335), any other ends it. -/
def State.failCkpt (s : State) (pt : Nat) (core : Option Nat) (node : Nat) (x : Nat × Nat) : CkptStep :=
  match (s.part pt).ckpt with
  | some c => .fail (if holdsAccess x.1 || !(c.core == core && c.node == node) then s else (s.abandonCapture pt c.now).endCkpt pt) x
  | none => .fail s x

/-- A checkpoint goes on: it starts, waits for its captures, takes their images and begins the next stage, or is written. `me` is the RC or node that runs it. -/
def State.ckptStep (s : State) (k pt va : Nat) (core : Option Nat) (node : Nat) : CkptStep :=
  match s.readCounted k pt va ckptBytes with
  | (t, .error x) => t.failCkpt pt core node x
  | (t, .ok b) =>
    match (t.part pt).ckpt with
    | none =>
      match t.snapshots k pt ((List.range (min 64 (ckptT b))).map (fun i => fld (ckptEntry b i) 0 2)) with
      | (u, .error x) => .fail u x
      | (u, .ok (snaps, sizes)) =>
        match u.ckptCause pt b sizes with
        | some c => .fail u (c, va)
        | none =>
          let now := u.nextStage pt (ckptHandles b) []
          .wait ((u.modPart pt (fun p => { p with ckpt := some { core := core, node := node, req := va, snaps := snaps, now := now, since := u.time } })).capture pt now)
    | some c =>
      if !(c.core == core && c.node == node) then
        .wait (if c.core.isNone && (aget t.nodes c.node).all (fun v => decide (3 ≤ v.st)) then (t.abandonCapture pt c.now).endCkpt pt else t)
      else if c.now.all (fun h => match t.regionOf pt h with | some g => g.st == .frozen | none => false) then
        let r := c.now.foldl (fun (acc : State × List (Nat × Nat × List Byte)) h => let x := acc.1.takeImage pt h; (x.1, acc.2 ++ x.2)) (t, c.images)
        let now := r.1.nextStage pt (ckptHandles b) (r.2.map (·.1))
        let c' := { c with images := r.2, now := now, since := t.time }
        if now ≠ [] then .wait ((r.1.modPart pt (fun p => { p with ckpt := some c' })).capture pt now)
        else match r.1.writeCkpt k pt b c' with
        | .done u n => .done (u.endCkpt pt) n
        | .fail u x => (u.modPart pt (fun p => { p with ckpt := some c' })).failCkpt pt core node x
        | w => w
      else if c.since + (t.part pt).deadline ≤ t.time then
        .fail ((t.abandonCapture pt c.now).endCkpt pt) (0x0F6, va)
      else .wait t

def State.rcCkpt (s : State) (d a : Nat) : State :=
  let k := s.fcore
  match s.ckptStep k (s.partAt k) (s.q k a) (some k) 0 with
  | .wait t => t
  | .done t n => t.rcPut d n
  | .fail t x => t.rcExtern x

/-! ## RSTR (R379, R380) -/

/-- Entries of a manifest, and of a restore's targets. -/
def manifestEntries (m : List Byte) : List (List Byte) := (List.range (fld m 6 2)).map (fun i => (m.drop (64 + 128 * i)).take 128)
def rstrTargets (b : List Byte) : List (List Byte) := (List.range (fld b 4 4)).map (fun i => (b.drop (0x40 + 64 * i)).take 64)

def entryKind (e : List Byte) : Nat := fld e 8 1
/-- Every coordinate of a box. -/
def boxOf (o e : List Nat) : List (List Nat) :=
  (List.range (product e)).map (fun p => (List.zipWith (· + ·) o (coords e p)))

def inBox (o e c : List Nat) : Bool := (List.range 4).all (fun j => decide (o.getD j 0 ≤ c.getD j 0) && decide (c.getD j 0 < o.getD j 0 + e.getD j 0))

/-- Element number of a coordinate in a box, dimension 0 innermost. -/
def offsetIn (o e c : List Nat) : Nat := (List.range 4).foldr (fun j acc => c.getD j 0 - o.getD j 0 + e.getD j 0 * acc) 0

/-- Shards of a target. -/
def shardsFor (es : List (List Byte)) (t : List Byte) : List (List Byte) :=
  es.filter (fun e => fld e 0 8 == fld t 0 8 && entryKind e == (if fld t 8 2 = 0xFFFF then 1 else 0))

def badRequest (b : List Byte) : Bool :=
  fld b 0 4 != 0x5E574B01 || fld b 4 4 == 0 || decide (64 < fld b 4 4) || ((b.drop 0x10).take 48).any (· != 0)
    || (rstrTargets b).any (fun t => fld t 11 1 != 0 || fld t 12 4 != 0 || ((t.drop 0x30).take 16).any (· != 0))

def badManifest (m : List Byte) : Bool :=
  let es := manifestEntries m
  fld m 0 4 != 0x4D4E4601 || fld m 4 2 != 1 || decide (80 < fld m 6 2) || decide (2 ≤ fld m 10 1) || fld m 11 1 != 0 || ((m.drop 0x18).take 40).any (· != 0)
    || fld m 12 4 != 64 + 128 * fld m 6 2 + (if fld m 10 1 = 1 then 3373 else 0)
    || es.any (fun e => decide (1 < entryKind e) || fld e 12 4 != 0 || ((e.drop 0x70).take 16).any (· != 0)
      || (entryKind e == 0 && ((ckptSize (fld e 10 1)).isNone || !sliceIn (quad e 0x10) (quad e 0x20) (quad e 0x30)
        || fld e 0x40 8 != product (quad e 0x30) * (ckptSize (fld e 10 1)).getD 0)))

/-- The cause that refuses a target. -/
def targetCause (es : List (List Byte)) (t : List Byte) : Option Nat :=
  let sh := shardsFor es t
  match sh with
  | [] => some 0x0B3
  | e :: _ =>
    if sh.any (fun e => fld e 9 1 != fld t 10 1) then some 0x0B3
    else if entryKind e = 1 then none
    else if !sliceIn (quad e 0x10) (quad t 0x10) (quad t 0x20) || !(boxOf (quad t 0x10) (quad t 0x20)).all (fun c => sh.any (fun e => inBox (quad e 0x20) (quad e 0x30) c))
    then some 0x0B1 else none

/-- Two boxes meet. -/
def boxesMeet (o e o' e' : List Nat) : Bool :=
  (List.range 4).all (fun j => decide (o.getD j 0 < o'.getD j 0 + e'.getD j 0) && decide (o'.getD j 0 < o.getD j 0 + e.getD j 0))

/-- A shard is read whole and its digest verified. -/
def State.readShard (s : State) (k pt : Nat) (e : List Byte) : State × Except (Nat × Nat) (List Byte) :=
  match s.readVA k pt (fld e 0x48 8) (fld e 0x40 8) with
  | (t, .error x) => (t, .error x)
  | (t, .ok b) => if fit 32 (sha3 b) = (e.drop 0x50).take 32 then (t, .ok b) else (t, .error (0x0B7, fld e 0x48 8))

/-- The bytes of a target: each element from the shards that hold it. -/
def targetBytes (t : List Byte) (shards : List (List Byte × List Byte)) : List Byte :=
  let o := quad t 0x10
  let x := quad t 0x20
  (boxOf o x).flatMap (fun c =>
    match shards.find? (fun s => inBox (quad s.1 0x20) (quad s.1 0x30) c) with
    | none => []
    | some s =>
      let n := (ckptSize (fld s.1 10 1)).getD 1
      (s.2.drop (offsetIn (quad s.1 0x20) (quad s.1 0x30) c * n)).take n)

/-- Shards of a target that its slice meets; a region image is its one shard. -/
def shardsUsed (es : List (List Byte)) (t : List Byte) : List (List Byte) :=
  (shardsFor es t).filter (fun e => entryKind e == 1 || boxesMeet (quad e 0x20) (quad e 0x30) (quad t 0x10) (quad t 0x20))

/-- The shadow of a restore for a buffer. -/
def State.restored (s : State) (pt h : Nat) : Assoc Nat := (aget (s.part pt).rstr h).getD []

/-- The shadow of a target's buffer takes its bytes. The partition keeps the shadows by handle until all is verified. -/
def State.writeTarget (s : State) (k pt h : Nat) (bytes : List Byte) : State × Except (Nat × Nat) Unit :=
  if bits (s.part pt).buftab 59 48 ≤ h then (s, .error (0x0B1, h))
  else match s.registerBuf k pt h with
  | (t, .error x) => (t, .error x)
  | (t, .ok v) =>
    if v.size < bytes.length then (t, .error (0x0B1, v.start))
    else
      (tileSegs v.start bytes.length).foldl (fun (acc : State × Except (Nat × Nat) Unit) g =>
        match acc with
        | (u, .error x) => (u, .error x)
        | (u, .ok _) =>
          let p := g.1 * 2048 + g.2.1 - v.start
          match u.writeShadow k pt (u.restored pt h) v.map g.1 g.2.1 ((bytes.drop p).take g.2.2) (List.replicate g.2.2 255) (g.2.2 == 2048) with
          | (w, .error x) => (w, .error x)
          | (w, .ok sh) => (w.modPart pt (fun q => { q with rstr := aset q.rstr h sh }), .ok ())) (t, .ok ())

/-- Steps 3 and 4 of R380: shards read and verified, shadows written, buffers published in entry order. A restore that was held does its steps over, into the
shadow tiles that it has taken (DEDUCED, log 89). -/
def State.applyRestore (s : State) (k pt : Nat) (es ts : List (List Byte)) : State × Except (Nat × Nat) Nat :=
  let read (acc : State × Except (Nat × Nat) (List (List Byte × List Byte))) (e : List Byte) : State × Except (Nat × Nat) (List (List Byte × List Byte)) :=
    match acc with
    | (t, .error x) => (t, .error x)
    | (t, .ok l) =>
      match t.readShard k pt e with
      | (u, .error x) => (u, .error x)
      | (u, .ok b) => (u, .ok (l ++ [(e, b)]))
  match (es.filter (fun e => ts.any (fun t => (shardsUsed es t).contains e))).foldl read (s, .ok []) with
  | (t, .error x) => (t, .error x)
  | (t, .ok shards) =>
    let tensors := ts.filter (fun t => fld t 8 2 != 0xFFFF)
    let write (acc : State × Except (Nat × Nat) Unit) (g : List Byte) : State × Except (Nat × Nat) Unit :=
      match acc with
      | (u, .error x) => (u, .error x)
      | (u, .ok _) => u.writeTarget k pt (fld g 8 2) (targetBytes g (shards.filter (fun x => (shardsUsed es g).contains x.1)))
    match tensors.foldl write (t, .ok ()) with
    | (u, .error x) => (u, .error x)
    | (u, .ok _) =>
      let hs := dedup (tensors.map (fun g => fld g 8 2))
      match hs.foldl (fun (acc : State × Except (Nat × Nat) Unit) h =>
          match acc with
          | (v, .error x) => (v, .error x)
          | (v, .ok _) => let r := v.publish k pt h (u.restored pt h); (r.1, r.2.map (fun _ => ()))) (u, .ok ()) with
      | (v, .error x) => (u.keep v, .error x)
      | (v, .ok _) =>
        ((v.modPart pt (fun q => { q with rstr := [] })).reclaim pt (dedup (u.busyTiles pt ++ hs.flatMap (fun h => u.replaced pt h (u.restored pt h)))), .ok shards.length)

/-- A restore ends with a cause: a translation cause holds it, and it keeps what it has written (R335, R342); with any other its shadows are discarded. -/
def State.failRstr (s : State) (pt : Nat) (x : Nat × Nat) : State :=
  if holdsAccess x.1 then s.rcExtern x else ((s.modPart pt (fun q => { q with rstr := [] })).reclaim pt (s.busyTiles pt)).rcExtern x

def State.rcRstr (s : State) (d a : Nat) : State :=
  let k := s.fcore
  let pt := s.partAt k
  match s.readCounted k pt (s.q k a) rstrBytes with
  | (t, .error x) => t.failRstr pt x
  | (t, .ok b) =>
    if badRequest b then t.failRstr pt (0x0B3, t.q k a)
    else match t.readCounted k pt (fld b 8 8) manifestBytes with
    | (u, .error x) => u.failRstr pt x
    | (u, .ok m0) =>
      let m := m0.take (fld m0 12 4)
      let n := m.length - 3373
      if badManifest m then u.failRstr pt (0x0B3, fld b 8 8)
      else if fld m 8 1 ≠ (u.part pt).tenant ∨ (fld m 10 1 = 1 ∧ !Config.signatureOk (sha384 (m.take n)) (m.drop n)) then u.failRstr pt (0x0B4, fld b 8 8)
      else match (rstrTargets b).findSome? (targetCause (manifestEntries m)) with
      | some c => u.failRstr pt (c, fld b 8 8)
      | none =>
        match u.applyRestore k pt (manifestEntries m) (rstrTargets b) with
        | (v, .error x) => v.failRstr pt x
        | (v, .ok c) => v.rcPut d c

/-! ## Instructions -/

/-- CKPT. -/
def execRcCkpt (d a : Nat) (st : State) : Out := .next (st.needLevel 1 (st.rcCkpt d a))
/-- RSTR. -/
def execRcRstr (d a : Nat) (st : State) : Out := .next (st.needLevel 1 (st.rcRstr d a))

end Sys2Proof.Machine
end

