-- ==== Sys2Proof/Machine/EvNode.lean ====
section
/-! DEFINITION. Events of the node scheduler (R73 to R76, R80, R108, R237, R265, R374): placing and launching a node, aging, how a node ends. -/

namespace Sys2Proof.Machine

/-! ## The order of placement (R75, R76) -/

/-- The priority of a node with what aging has added. -/
def Node.effective (v : Node) : Nat := min 7 (v.prio + v.aged)

/-- A node goes before another: higher priority, then older, then submitted earlier. -/
def goesBefore (v w : Nat × Node) : Bool :=
  decide (w.2.effective < v.2.effective)
    || (v.2.effective == w.2.effective && (decide (v.2.since < w.2.since) || (v.2.since == w.2.since && decide (v.1 < w.1))))

def insertNode (v : Nat × Node) : List (Nat × Node) → List (Nat × Node)
  | [] => [v]
  | w :: r => if goesBefore v w then v :: w :: r else w :: insertNode v r

/-- The nodes of every die's pool, in the order of placement. -/
def State.pooled (s : State) : List (Nat × Node) :=
  (s.nodes.filter (fun n => n.2.st == 1 && (s.die n.2.die).pool.contains n.1)).foldr insertNode []

/-- Every core of a rectangle is free. -/
def State.rectFree (s : State) (r : List Nat) : Bool := r.all (fun k => (s.regionAt k).isNone)

/-- A rectangle shares a core with a placement of a passed-over node of higher priority. -/
def State.rectBlocked (s : State) (v : Node) (passed : List Node) (r : List Nat) : Bool :=
  passed.any (fun p => decide (v.effective < p.effective) && (s.placements p).any (fun q => q.any r.contains))

/-- The node to place next, and its rectangle; that of a node of a kind other than compute is 1 x 1 (R72). -/
def State.nextNode (s : State) : List (Nat × Node) → List Node → Option (Nat × Node × List Nat)
  | [], _ => none
  | v :: r, passed =>
    if v.2.held.isSome || s.sourceHeld (schedKey v.2.die) then s.nextNode r (passed ++ [v.2])
    else match (s.placements v.2).find? (fun q => s.rectFree q && !s.rectBlocked v.2 passed q) with
    | some q => some (v.1, v.2, q)
    | none => s.nextNode r (passed ++ [v.2])

/-! ## Accesses of the scheduler (R335) -/

/-- The scheduler meets a cause in external memory: a translation cause holds what it does, any other ends the node. -/
def State.nodeExtern (s : State) (n : Nat) (v : Node) (c : Nat × Nat) : State :=
  let t := s.postUnit v.part (externSev c.1) 4 v.die 60 c.1 c.2 0 0
  if holdsAccess c.1 then t.modNode n (fun v => { v with held := some c }) else (t.leavePool n).stopNode n

/-! ## Launch (R73, R106, R108, R237) -/

/-- The operands of a node at launch: each takes the buffer's version and map as its snapshot. The second part is what the publications release. -/
def State.launchOps (s : State) (k pt : Nat) : List Operand → State × Except (Nat × Nat) (List Operand × Clr)
  | [] => (s, .ok ([], []))
  | o :: r =>
    if o.handle = 0xFFFF ∨ o.mode = 0 then
      match s.launchOps k pt r with
      | (t, .ok (l, c)) => (t, .ok (o :: l, c))
      | e => e
    else match s.registerBuf k pt o.handle with
    | (t, .error e) => (t, .error e)
    | (t, .ok b) =>
      match t.launchOps k pt r with
      | (u, .ok (l, c)) =>
        (u, .ok ({ o with start := b.start, size := b.size, shape := b.shape, snap := b.version, base := b.version, map := b.map, shadow := [] } :: l, Clr.merge b.clr c))
      | e => e

/-- The launch block (R73). -/
def launchBlock (args : List Byte) (ops : List Operand) : List Byte :=
  fit 128 args
    ++ (List.range 8).flatMap (fun j => let o := ops.getD j {}; if o.handle = 0xFFFF ∨ o.mode = 0 then leBytes 8 0xFFFF else leBytes 8 (o.handle + o.snap * 2 ^ 16))
    ++ List.replicate 64 0

/-- A core as a node finds it: no context is loaded, no engine works, and the records of an earlier node order nothing (log 25). -/
def Core.fresh (c : Core) : Core :=
  { c.clearTokens with
    cells := c.clearTokens.cells.map (fun (e : Nat × Cell) => (e.1, { e.2 with ctxs := List.replicate 4 {}, ordIn := [], ordClr := [], passed := false }))
    rc := {}
    ords := c.ords.filter (fun o => decide (o.1 < 8))
    rphase := c.rphase + 1
    words := []
    sync := []
    tbClr := []
    ringClr := []
    copies := []
    copyF := false
    copyClr := []
    notices := []
    hists := [] }

/-- The configuration stores of a core are empty. -/
def clearConfig (m : Memory) (k : Nat) : Memory :=
  Memory.clear (Memory.clear (Memory.clear (Memory.clear m (cfgBase k 0 0) 65536) (matBase k) 1024) (histBase k) 1024) (ringBase k) 1024

/-- A node takes its rectangle: cores, launch block, program, RC. -/
def State.occupy (s : State) (n : Nat) (v : Node) (rect : List Nat) (block prog : List Byte) (off : Nat) : State :=
  let lead := rect.headD 0
  let clean (t : State) (k : Nat) : State := { (t.modCore k Core.fresh) with mem := clearConfig t.mem k }
  let s1 := rect.foldl clean (s.leavePool n)
  let g : Region := { lead := lead, w := v.w, h := v.h, stage := v.stage, node := n, part := v.part, tenant := v.tenant, standing := v.standing }
  let s2 := { s1 with
    mem := Memory.writeN (Memory.clear s1.mem (progBase lead) 65536) (progBase lead) prog
    regions := s1.regions ++ [g] }
  let s3 := (s2.poke lead 8 0 block).modRc lead (fun r => { r with
    mode := .running
    pc := v.entry
    progOff := off
    progLen := prog.length
    image := v.image
    node := n
    part := v.part })
  s3.modNode n (fun v => { v with st := 2 })

/-- A compute node is dispatched. Its RC acquires what the launch orders it after (R80, R108). -/
def State.dispatchNode (s : State) (n : Nat) (v : Node) (rect : List Nat) : State :=
  let lead := rect.headD 0
  match s.readVA lead v.part v.args (8 * v.arglen) with
  | (t1, .error c) => (s.keep t1).nodeExtern n v c
  | (t1, .ok args) =>
    match t1.launchOps lead v.part v.ops with
    | (t2, .error c) => (s.keep t2).nodeExtern n v c
    | (t2, .ok (ops, got)) =>
      match t2.readVA lead v.part (v.image + 0x1C) 8 with
      | (t3, .error c) => (s.keep t3).nodeExtern n v c
      | (t3, .ok hd) =>
        match t3.readVA lead v.part (v.image + fld hd 0 4) (min (fld hd 4 4) 65536) with
        | (t4, .error c) => (s.keep t4).nodeExtern n v c
        | (t4, .ok prog) =>
          let t5 := (t4.modNode n (fun v => { v with ops := ops })).occupy n v rect (launchBlock args ops) prog (fld hd 0 4)
          let r := t5.takeSet lead (Clr.merge v.acq got)
          match r.1.acquire lead 8 r.2 with
          | (_, .error f) => t5.rcFault lead f
          | (t6, .ok _) => t6

/-! ## Nodes of other kinds (R72, R374, R375) -/

/-- The supervisor core of a partition serves what runs on no core of its own. -/
def State.serverOf (s : State) (pt : Nat) : Nat := (s.part pt).supervisor

/-- The channel table's entry of a partition: 0 to 63 ingress, 64 to 127 egress (R372). -/
def State.chanEntry (s : State) (pt i : Nat) : List Byte := Memory.readN s.mem (spadBase (s.serverOf pt) + bits (s.part pt).hchan 31 11 * 2048 + 16 * i) 16

/-- A node of another kind takes its core while it runs (R72, R76): no program runs there. -/
def State.seat (s : State) (n : Nat) (v : Node) (rect : List Nat) (ops : List Operand) : State :=
  let lead := rect.headD 0
  let g : Region := { lead := lead, w := 1, h := 1, stage := v.stage, node := n, part := v.part, tenant := v.tenant, standing := v.standing }
  let t := s.leavePool n
  ((({ t with regions := t.regions ++ [g], mem := clearConfig t.mem lead }).modCore lead Core.fresh).modRc lead (fun r => { r with node := n, part := v.part })).modNode n
    (fun v => { v with st := 2, ops := ops })

/-- The core of a node that has ended goes back to the scheduler. -/
def State.unseat (s : State) (n : Nat) : State :=
  if ((aget s.nodes n).map (·.st)).getD 3 < 3 then s
  else { s with regions := s.regions.filter (fun r => r.node != n), saved := s.saved.filter (fun x => x.node != n) }

/-- A copy or collective node is launched: its argument words are read and its operands take their snapshots. No chapter says what it does with them (log 26). -/
def State.launchOther (s : State) (n : Nat) (v : Node) (rect : List Nat) : State :=
  let k := s.serverOf v.part
  match s.readVA k v.part v.args (8 * v.arglen) with
  | (t, .error c) => (s.keep t).nodeExtern n v c
  | (t, .ok _) =>
    match t.launchOps k v.part v.ops with
    | (u, .error c) => (s.keep u).nodeExtern n v c
    | (u, .ok (ops, _)) => u.seat n v rect ops

/-- A host sink node sends its operand as one message on the channel that argument word 0 names; a closed channel terminates it with 0x0BC. -/
def State.sendHost (s : State) (n : Nat) (v : Node) (rect : List Nat) : State :=
  let k := s.serverOf v.part
  match s.readVA k v.part v.args 8 with
  | (t1, .error c) => (s.keep t1).nodeExtern n v c
  | (t1, .ok a) =>
    let ch := fld a 0 8
    match t1.launchOps k v.part v.ops with
    | (t2, .error c) => (s.keep t2).nodeExtern n v c
    | (t2, .ok (ops, _)) =>
      if 64 ≤ ch ∨ !bit (fld (t2.chanEntry v.part (64 + ch)) 0 1) 0 then ((t2.postUnit v.part 2 6 v.die (ch % 64) 0x0BC 0 0 0).leavePool n).stopNode n
      else
        let o := ops.getD 0 {}
        match t2.readTiles k v.part o.start o.size o.place with
        | (t3, .error c) => (s.keep t3).nodeExtern n v c
        | (t3, .ok b) => { t3.seat n v rect ops with hostOut := t3.hostOut ++ [(n, ch, b)] }

/-- NODE_PLACE: the scheduler places the node whose turn it is. A checkpoint node begins. -/
def State.placeNode (s : State) : State :=
  match s.nextNode s.pooled [] with
  | none => s
  | some (n, v, rect) =>
    match v.kind with
    | 0 => s.dispatchNode n v rect
    | 3 => s.seat n v rect v.ops
    | 4 => s.sendHost n v rect
    | _ => s.launchOther n v rect

/-- Cycles of 10 ms (R75). -/
def agingCycles : Nat := 18000000

/-- NODE_AGING: a waiting node gains a level for each 10 ms that it has waited. -/
def State.ageNode (s : State) (n : Nat) : State :=
  s.modNode n (fun v => if v.st = 1 ∧ v.since + (v.aged + 1) * agingCycles ≤ s.time ∧ v.prio + v.aged < 7 then { v with aged := v.aged + 1 } else v)

/-! ## How a node ends (R80, R108, R265) -/

/-- The RC of a compute node has halted, and what it issued has completed. -/
def State.nodeDone (s : State) (n lead : Nat) : Bool :=
  (match (s.rc lead).mode with | .halting => true | _ => false) && (s.copiesOf lead n).isEmpty && !s.collsInFlight n && s.remoteClear (s.regionCores lead)
    && (s.regionCores lead).all s.histDrained

/-- Shadows that a node leaves unpublished are discarded, one record for each buffer. -/
def State.discardShadows (s : State) (n : Nat) (v : Node) : State :=
  ((List.range 8).filter (fun j => s.sameBuf n j == j && (s.operand n j).shadow != [])).foldl (fun t j =>
      (t.modOperand n j (fun o => { o with shadow := [] })).postUnit v.part 0 4 v.die 60 0x058 (s.operand n j).start 0 0) s

/-- The handles that a node held are free as it ends. -/
def State.dropHandles (s : State) (owner : Nat) : State :=
  { s with nodes := s.nodes.map (fun (m : Nat × Node) => if m.2.owner = owner then (m.1, { m.2 with owner := 0 }) else m) }

/-- A node completes: its completion is a release, and its successors are released unless PIN has done so. -/
def State.completeNode (s : State) (n : Nat) (v : Node) (k : Nat) (c : Clr) : State :=
  let go (t : State) : State :=
    ((((t.discardShadows n v).endMembers n).dropHandles n).modNode n (fun v => { v with st := 3, sent := true, clr := c })).reclaim v.part (t.busyTiles v.part)
  if v.sent then go s
  else match s.releaseSuccessors k n c with
  | (t, .error e) => (s.keep t).nodeExtern n v e
  | (t, .ok _) => go t

/-- A compute node completes: its region's cores are the scheduler's. -/
def State.completeCompute (s : State) (n : Nat) (v : Node) (g : Region) : State :=
  let r := s.release g.lead 8
  let t := r.1.completeNode n v g.lead r.2
  if 3 ≤ ((aget t.nodes n).map (·.st)).getD 3 then ((t.reclaimFrames g.lead).freeRegion g.lead).modRc g.lead (fun _ => {}) else t

/-- A checkpoint node goes on: its request is at argument word 0 (R375). -/
def State.stepCkptNode (s : State) (n : Nat) (v : Node) : State :=
  let k := s.serverOf v.part
  match s.readVA k v.part v.args 8 with
  | (t, .error c) => (s.keep t).nodeExtern n v c
  | (t, .ok a) =>
    match t.ckptStep k v.part (fld a 0 8) none n with
    | .wait u => u
    | .done u _ => (u.completeNode n v k []).unseat n
    | .fail u c => if holdsAccess c.1 then u.nodeExtern n v c else ((u.postUnit v.part 2 4 v.die 60 c.1 c.2 0 0).stopNode n).unseat n

/-- Successors of a node that terminated or was cancelled are cancelled in turn; a record not yet submitted is marked. -/
def State.cancelOne (s : State) (pt va : Nat) : State :=
  let ms := s.nodes.filter (fun m => m.2.part == pt && m.2.va == va)
  if ms = [] then { s with doomed := if s.doomed.contains (pt, va) then s.doomed else s.doomed ++ [(pt, va)] }
  else ms.foldl (fun t m => if m.2.st < 2 then t.cancelNode m.1 else t) s

def State.cancelSuccessors (s : State) (n : Nat) (v : Node) : State :=
  let k := s.serverOf v.part
  let go (t : State) (l : List Nat) : State := (((l.foldl (fun t va => t.cancelOne v.part va) t).dropLinks n).dropHandles n).modNode n (fun v => { v with sent := true })
  match s.successors k v with
  | (t, .ok l) => go t l
  | (u, .error e) =>
    let t := (s.keep u).postUnit v.part (externSev e.1) 4 v.die 60 e.1 e.2 0 0
    if holdsAccess e.1 then t.modNode n (fun v => { v with held := some e }) else go t []

/-- NODE_COMPLETE: what the scheduler does for a node that has ended or goes on of itself. A copy or collective node, whose work no rule gives, completes
(log 26); a host sink node completes by its acknowledgement. -/
def State.nodeEnds (s : State) (n : Nat) : State :=
  match aget s.nodes n with
  | none => s
  | some v =>
    if v.held.isSome then s
    else if 4 ≤ v.st then (if v.sent then s else s.cancelSuccessors n v)
    else if v.st ≠ 2 then s
    else match v.kind with
    | 0 =>
      (match s.regions.find? (fun g => g.node == n) with
       | some g => if s.nodeDone n g.lead then s.completeCompute n v g else s
       | none => s)
    | 3 => s.stepCkptNode n v
    | 4 => s
    | _ => (s.completeNode n v (s.serverOf v.part) []).unseat n

/-- HOST_SINK_ACK: the transport has acknowledged the i-th message. -/
def State.ackHost (s : State) (i : Nat) : State :=
  match s.hostOut[i]? with
  | none => s
  | some (n, _, _) =>
    match aget s.nodes n with
    | none => { s with hostOut := s.hostOut.eraseIdx i }
    | some v => if v.held.isSome then s else if v.st = 2 then ({ s with hostOut := s.hostOut.eraseIdx i }.completeNode n v (s.serverOf v.part) []).unseat n else { s with hostOut := s.hostOut.eraseIdx i }

/-! ## Events -/

/-- NODE_PLACE (R76). -/
def execEvNodePlace (st : State) : Out := .next st.placeNode
/-- NODE_AGING (R75): node x. -/
def execEvNodeAging (st : State) : Out := .next (st.ageNode st.place.x)
/-- NODE_COMPLETE (R80): node x. -/
def execEvNodeComplete (st : State) : Out := .next (st.nodeEnds st.place.x)
/-- HOST_SINK_ACK (R374): message x. -/
def execEvHostSinkAck (st : State) : Out := .next (st.ackHost st.place.x)

end Sys2Proof.Machine
end

