-- ==== Sys2Proof/Machine/EvLinks.lean ====
section
/-! DEFINITION. Events of what stands between the package and the outside: host channels (R116, R372, R373), Ultra Ethernet ports (R371), strait
links (R366 to R370). -/

namespace Sys2Proof.Machine

/-! ## Host ingress channels (R116, R373) -/

def State.chan (s : State) (pt ch : Nat) : Channel := (aget (s.part pt).chans ch).getD {}
def State.modChan (s : State) (pt ch : Nat) (f : Channel → Channel) : State := s.modPart pt (fun p => { p with chans := aset p.chans ch (f ((aget p.chans ch).getD {})) })

/-- A record of the host unit about a channel. -/
def State.postHost (s : State) (pt ch sev cause addr : Nat) : State := s.postUnit pt sev 6 0 (ch % 64) cause addr 0 0

def State.chanOpen (s : State) (pt ch : Nat) : Bool := decide (ch < 64) && (s.part pt).live && bit (fld (s.chanEntry pt ch) 0 1) 0

/-- What a channel that opens anew begins with. -/
def State.openChan (s : State) (pt ch : Nat) : State := if (s.chan pt ch).closed then s.modChan pt ch (fun c => { fifo := c.fifo }) else s

/-- A channel closes: its shadow is discarded, its entry is open no longer until the supervisor rewrites it (log 28). -/
def State.closeChan (s : State) (pt ch : Nat) : State :=
  ((s.modChan pt ch (fun c => { fifo := c.fifo, closed := true })).poke (s.serverOf pt) 8 (bits (s.part pt).hchan 31 11 * 2048 + 16 * ch) [0]).reclaim pt (s.busyTiles pt)

/-- The cause that refuses a message before its buffer is looked at. -/
def State.hostCause (s : State) (pt kind : Nat) (m : HostMsg) : Option Nat :=
  firstBad [
    (m.dirty || m.kind != kind || (kind == 1 && m.payload.length != 64), 0x0BB),
    (!s.chanOpen pt m.channel, 0x0BC)]

/-- A channel meets a cause in external memory: a translation cause holds it, any other closes it. -/
def State.chanExtern (s : State) (pt ch : Nat) (c : Nat × Nat) : State :=
  let t := s.postHost pt ch (externSev c.1) c.1 c.2
  if holdsAccess c.1 then t.modChan pt ch (fun x => { x with held := some c }) else t.closeChan pt ch

/-- The channel's shadow of a buffer takes bytes, storage tile by storage tile. -/
def State.shadowWrite (s : State) (k pt ch h : Nat) (b : Buf) (off : Nat) (bytes : List Byte) : State × Except (Nat × Nat) Unit :=
  ((tileSegs (b.start + off) bytes.length).foldl (fun (acc : State × Except (Nat × Nat) (List Byte)) g =>
    match acc with
    | (t, .error c) => (t, .error c)
    | (t, .ok l) =>
      match t.writeShadow k pt ((aget (t.chan pt ch).shadow h).getD []) b.map g.1 g.2.1 (l.take g.2.2) (List.replicate g.2.2 255) (g.2.2 == 2048) with
      | (u, .error c) => (u, .error c)
      | (u, .ok n) => (u.modChan pt ch (fun c => { c with shadow := aset c.shadow h n }), .ok (l.drop g.2.2))) (s, .ok bytes)).map id (fun r => r.map (fun _ => ()))

/-- A write message (R373). The version that a publication is compared with is the buffer's at the channel's first write to it since the last publication
(log 93). -/
def State.hostWrite (s : State) (pt : Nat) (m : HostMsg) : State :=
  let ch := m.channel
  match s.hostCause pt 0 m with
  | some c => (if c = 0x0BC ∧ ch < 64 then s.modChan pt ch (fun x => { x with closed := true }) else s).postHost pt ch 2 c 0
  | none =>
    let s1 := s.openChan pt ch
    if (s1.chan pt ch).held.isSome then s
    else if bits (s1.part pt).buftab 59 48 ≤ m.handle then s1.postHost pt ch 2 0x0BB 0
    else match s1.registerBuf (s1.serverOf pt) pt m.handle with
    | (t, .error c) => (s1.keep t).chanExtern pt ch c
    | (t, .ok b) =>
      if b.size < m.offset + m.payload.length then t.postHost pt ch 2 0x0BB m.offset
      else match t.shadowWrite (t.serverOf pt) pt ch m.handle b m.offset m.payload with
      | (u, .error c) => (s1.keep u).chanExtern pt ch c
      | (u, .ok _) => u.modChan pt ch (fun c => { c with
        order := if c.order.contains m.handle then c.order else c.order ++ [m.handle]
        bases := if c.order.contains m.handle then c.bases else aset c.bases m.handle b.version
        writes := c.writes + 1 })

/-- Entries of a channel's FIFO (R116). -/
def hostFifo : Nat := 256

/-- A raising write message. -/
def State.hostRaise (s : State) (pt : Nat) (m : HostMsg) : State :=
  let ch := m.channel
  match s.hostCause pt 1 m with
  | some c => (if c = 0x0BC ∧ ch < 64 then s.modChan pt ch (fun x => { x with closed := true }) else s).postHost pt ch 2 c 0
  | none =>
    let s1 := s.openChan pt ch
    let c := s1.chan pt ch
    if c.waiting.isSome then (s1.postHost pt ch 2 0x0BD 0).closeChan pt ch
    else if hostFifo ≤ c.fifo.length then s1.postHost pt ch 0 0x0BE 0
    else s1.modChan pt ch (fun c => { c with waiting := some m, raised := c.raised + 1 })

/-- The buffers of a channel are published in the order in which each was first written; none from a conflict on. -/
def State.publishChan (s : State) (pt : Nat) (c : Channel) : List Nat → List HostPub → State × Except (Nat × Nat) (Option (List HostPub))
  | [], l => (s, .ok (some l))
  | h :: r, l =>
    let b := (aget (s.part pt).bufs h).getD {}
    if b.version ≠ (aget c.bases h).getD 0 then (s, .ok none)
    else match s.publish (s.serverOf pt) pt h ((aget c.shadow h).getD []) with
    | (t, .error e) => (t, .error e)
    | (t, .ok v) => t.publishChan pt c r (l ++ [{ handle := h, version := v, map := ((aget (t.part pt).bufs h).getD {}).map }])

/-- The token of a raising write: by the channel's entry, numbered among the raising writes since the channel was opened. -/
def State.hostToken (s : State) (pt ch : Nat) (c : Channel) (m : HostMsg) : Token :=
  let e := s.chanEntry pt ch
  let f := fmtOf (fld e 1 1 % 16)
  dataToken ⟨lanesOf f m.payload, 0xFFFF, f, false, 0, 0⟩ (fld e 2 1 % 16) 0 (BitVec.ofNat 16 c.raised)

/-- HOST_CHANNEL_PUBLISH: the declared writes have performed. -/
def State.chanPublish (s : State) (pt ch : Nat) : State :=
  let c := s.chan pt ch
  match c.waiting with
  | none => s
  | some m =>
    if c.writes < m.declared ∨ c.held.isSome then s
    else
      let clean (c : Channel) : Channel := { c with shadow := [], order := [], bases := [], waiting := none }
      let was := dedup (s.busyTiles pt ++ c.order.flatMap (fun h => s.replaced pt h ((aget c.shadow h).getD [])))
      match s.publishChan pt c c.order [] with
      | (t, .error e) => (s.keep t).chanExtern pt ch e
      | (t, .ok none) => ((t.modChan pt ch clean).postHost pt ch 2 0x05D 0).reclaim pt was
      | (t, .ok (some l)) => (t.modChan pt ch (fun c => { clean c with fifo := c.fifo ++ [(s.hostToken pt ch c m, l)] })).reclaim pt was

/-- HOST_TOKEN_DELIVER: the FIFO's head reaches the target port, whose src is the RC port of the target region; till then it waits. -/
def State.chanDeliver (s : State) (pt ch : Nat) : State :=
  let e := s.chanEntry pt ch
  let lead := fld e 4 2 / 64
  let id := reloc lead (fld e 6 2)
  let d : Dest := ⟨id / 64, id % 64, 0, fld e 8 1 % 4⟩
  match (s.chan pt ch).fifo, s.regionAt d.core with
  | (t, l) :: r, some g =>
    let w := s.portWord d.core d.loc 0 d.port
    if g.lead = lead ∧ g.part = pt ∧ g.st = .running ∧ d.loc < 32 ∧ (s.ctx d.core d.loc 0).loaded ∧ pwEn w ∧ pwSrc w = agentId lead 48 then
      (s.modChan pt ch (fun c => { c with fifo := r })).reach d (edgeKey lead 48 0 0) t l
    else s
  | _, _ => s

/-! ## Ultra Ethernet ports (R371) -/

/-- Live partitions. -/
def State.liveParts (s : State) : List Nat := (s.parts.filter (fun p => p.2.live)).map (·.1)

/-- A packet at a port: refused by its mode or its security, else its message is taken. -/
def State.uePacket (s : State) (port : Nat) (p : UePacket) : State :=
  if 8 ≤ port then s
  else if !p.modeOk || !p.wellFormed then s.postUnit p.part 0 5 0 (32 + port) 0x12B 0 0 0
  else if !p.secOk then s.postUnit p.part 0 5 0 (32 + port) 0x12C 0 0 0
  else if p.msg.kind = 1 then s.hostRaise p.part p.msg
  else s.hostWrite p.part p.msg

/-- A port goes down: every live partition hears of it. -/
def State.uePortDown (s : State) (port : Nat) : State :=
  if 8 ≤ port ∨ s.ueDown.contains port then s
  else s.liveParts.foldl (fun t pt => t.postUnit pt 1 5 0 (32 + port) 0x12F 0 0 0) { s with ueDown := s.ueDown ++ [port] }

/-! ## Strait links as receivers (R367, R368) -/

/-- A record of a strait port. -/
def State.postLink (s : State) (pt port sev cause detail : Nat) : State := s.postUnit pt sev 5 0 port cause 0 detail 0

/-- The flits of a port: sent and not yet known to have arrived, and waiting. -/
def Strait.all (p : Strait) : List Flit := p.replay ++ p.queue.flatMap (·.2)

/-- The partitions whose traffic a port carries; the manager where there is none. -/
def linkParts (l : List Flit) : List Nat := match dedup (l.map (·.part)) with | [] => [16] | r => r

/-- The partition that a flit from outside comes to. -/
def State.flitPart (s : State) (f : Flit) : Nat :=
  match f.body with
  | .access r => s.partAt r.dst
  | .token dest _ _ => s.partAt (dest / 64)
  | .coll m => s.partAt (m.dest / 64)
  | .chunk c => s.partAt (c.dest / 64)
  | .other => f.part

/-- A dest off a link names an RC port of a region (R19, R258). -/
def State.toRc (s : State) (d : Dest) : Bool := d.loc == 48 && bit s.fuses.isles (isleOf d.core) && (s.regionAt d.core).isSome

/-- A dest off a link names a collective port (R18, R270). -/
def State.collPort (s : State) (dest : Nat) : Bool := dest % 64 == 50 && bit s.fuses.isles (isleOf (dest / 64))

/-- A message of another package's collective engine: it stands until its communicator's slots free. One of a COMM whose entry names no collective port here is
answered: the communicator is broken (R270). -/
def State.collIn (s : State) (port vc tag : Nat) (m : CollMsg) : State :=
  let pt := s.partAt (m.dest / 64)
  if s.collPort m.dest then
    let t := { s with ctl := s.ctl ++ [m] }
    if m.kind = 3 ∨ m.kind = 5 then t.freeSlots else t
  else if m.kind ≠ 0 then s
  else
    let f : Flit := { vc := vc, seq := 0, s := false, crcOk := true, tag := (s.part pt).dtag, dest := tag, part := pt, body := .coll { m with kind := 4, dest := bits (m.table.getD m.rank 0) 15 0 } }
    (s.postLink pt port 0 0x138 0).modStrait port (fun x => x.put s.time f)

/-- A flit of a chunk: to its communicator. -/
def State.chunkIn (s : State) (c : ChunkFlit) : State :=
  let k := c.dest / 64
  s.modDie (dieOf k % 4) (fun d => { d with comms := d.comms.map (fun (e : Nat × Comm) =>
    (e.1, if e.2.core = k ∧ e.2.key = c.key ∧ e.2.gen = c.gen ∧ !e.2.ended then { e.2 with inbox := e.2.inbox ++ [c] } else e.2)) })

/-- A stream token comes off a link: to its port, extract FIFO or collective engine, if its dest names one in use (R18, R35, R258). R18 checks a dest when the
edge's first token arrives; the model checks each token, so that later tokens of such an edge raise 0x138 again (log 98). -/
def State.tokenIn (s : State) (port dest dport : Nat) (t : Token) : State :=
  let d : Dest := ⟨dest / 64, dest % 64, t.cfg, dport⟩
  if s.toRc d then s.modRc d.core (fun r => { r with extract := r.extract ++ [(0, t)] })
  else if d.loc = 50 ∧ s.allComms.any (fun m => m.2.2.core == d.core) then s
  else if !bit s.fuses.isles (isleOf d.core) || (s.regionAt d.core).isNone || decide (36 ≤ d.loc) || !pwEn (s.inWord d.core d.loc d.ctx d.port) then s.postLink (s.partAt d.core) port 0 0x138 0
  else s.reach d 0 t []

/-- A token off a link can be taken now. -/
def State.flitEnters (s : State) (f : Flit) : Bool :=
  match f.body with
  | .token dest dport t =>
    let d : Dest := ⟨dest / 64, dest % 64, t.cfg, dport⟩
    if s.toRc d then decide ((s.rc d.core).extract.length < extractSize)
    else (s.regionAt d.core).isNone || decide (36 ≤ d.loc) || !pwEn (s.inWord d.core d.loc d.ctx d.port) || s.takesFrom 1024 d
  | _ => true

/-- STRAIT_FLIT_RECEIVE: a flit with a bad CRC, out of sequence, or without room is refused, and a NAK answers it. -/
def State.flitIn (s : State) (port : Nat) (f : Flit) : State :=
  let p := s.strait port
  if 18 ≤ port ∨ !f.crcOk || f.seq != p.rxSeq || !s.flitEnters f then s
  else if f.s && p.rxPool == 0 then s.postLink (s.flitPart f) port 0 0x125 0
  else
    let t := s.modStrait port (fun p => { p with rxSeq := p.rxSeq + 1, rxPool := if f.s then p.rxPool - 1 else p.rxPool })
    if (s.routeEntry (s.flitPart f) f.tag).isNone then t.postLink (s.flitPart f) port 0 0x11C 0
    else match f.body with
    | .access r => { t with reqs := t.reqs ++ [{ r with src := { r.src with route := if r.reply then 0 else f.tag } }] }
    | .token dest dport k => t.tokenIn port dest dport k
    | .coll m => t.collIn port f.vc f.tag m
    | .chunk c => t.chunkIn c
    | .other => t

/-! ## Strait links as senders (R367 to R369) -/

/-- Every VC of a port advances as far as it can. -/
def Strait.advanceAll (time : Nat) (p : Strait) : Strait := p.queue.foldl (fun q e => Strait.advance time e.1 e.2.length q) p

/-- The VC by which a flit of one port goes on by another: its own, and for a communicator's flit that of the communicator's pair there (R299). -/
def State.vcOn (s : State) (port vc q : Nat) : Option Nat :=
  if 64 ≤ vc then some vc
  else ((s.allComms.find? (fun m => m.2.2.pair port == some (vc / 2))).bind (fun m => m.2.2.pair q)).map (fun p => 2 * p + vc % 2)

/-- Flits of a port that is down move to the other ports of their entries; those that have none hold. -/
def State.moveFlits (s : State) (port : Nat) : State :=
  let p := s.strait port
  let s1 := s.modStrait port (fun p => { p with replay := [], queue := [], since := [], warned := [], replays := 0, down := true })
  p.all.foldl (fun t f =>
    let mask := ((t.routeEntry f.part f.dest).map (fun e => bits e 33 16)).getD 0
    let open' := (List.range 18).filter (fun q => bit mask q && !(t.strait q).down && (t.vcOn port f.vc q).isSome)
    let q := ((t.pickPort (open'.foldl (fun m q => m + 2 ^ q) 0) f.vc)).getD port
    t.modStrait q (fun x => x.put t.time { f with vc := (t.vcOn port f.vc q).getD f.vc })) s1

/-- NAK_RECEIVE of the flit numbered `seq`: earlier flits have arrived; the rest is sent again. After 8 replays of one flit the link retrains, or goes
down where it cannot. -/
def State.nakIn (s : State) (port seq : Nat) (lost : Bool) : State :=
  let p := s.strait port
  match if 18 ≤ port then [] else p.replay.filter (fun f => decide (seq ≤ f.seq)) with
  | [] => s
  | f :: r =>
    if f.seq ≠ seq then s
    else
      let again := (p.replay.head?.map (·.seq)) == some seq
      let n := if again then p.replays else 0
      let s1 := s.modStrait port (fun p => { p with replay := f :: r, replays := n + 1 })
      if n < 8 then s1
      else if lost then (linkParts p.all).foldl (fun t pt => t.postLink pt port 1 0x11F 0) (s1.moveFlits port)
      else (s1.modStrait port (fun p => { p with replays := 0 })).postLink f.part port 0 0x11E 0

/-- CREDIT_RETURN: `kind` 0 a credit of the VC's reserve or 1 of the pool comes back from the peer, and the VC advances; 2 the peer has consumed a token of
an edge; 3 room of the receiver's own pool is free again. -/
def State.creditIn (s : State) (port vc kind : Nat) (k l x e : Nat) : State :=
  if kind ≠ 2 ∧ 18 ≤ port then s
  else match kind with
  | 0 => s.modStrait port (fun p => if p.own vc < 4 then Strait.advance s.time vc 1 { p with reserve := aset p.reserve vc (p.own vc + 1) } else p)
  | 1 => s.modStrait port (fun p => if p.pool < 1024 then Strait.advance s.time vc 1 { p with pool := p.pool + 1 } else p)
  | 2 => s.modEdge k l x e (fun g => { g with away := g.away - 1 })
  | _ => s.modStrait port (fun p => { p with rxPool := min 1024 (p.rxPool + 1) })

/-- The escape VC of a request class or stream VC (R366). -/
def escapeVc (vc : Nat) : Option Nat := if 64 ≤ vc ∧ vc < 72 then some (vc + 24) else if 80 ≤ vc ∧ vc < 88 then some (vc + 8) else none

/-- ESCAPE_VC_DIVERT: a head flit blocked for 16 cycles goes on by its escape VC, through the escape ports of its entry. -/
def State.divert (s : State) (port vc : Nat) : State :=
  let p := s.strait port
  match p.waiting vc, escapeVc vc with
  | f :: r, some v =>
    let mask := ((s.routeEntry f.part f.dest).map (fun e => bits e 51 34)).getD 0
    match s.pickPort mask v with
    | none => s
    | some q =>
      if (aget p.since vc).getD s.time + 16 ≤ s.time then
        (s.modStrait port (fun p => { p with queue := aset p.queue vc r, since := aset p.since vc s.time, warned := adel p.warned vc })).modStrait q
          (fun x => x.put s.time { f with vc := v })
      else s
  | _, _ => s

/-- STRAIT_LINK_RETURN: the link is up, and what it held goes on. -/
def State.linkBack (s : State) (port : Nat) : State := if 18 ≤ port then s else s.modStrait port (fun p => if p.down then Strait.advanceAll s.time { p with down := false } else p)

/-! ## The watchdog (R370) -/

def cyclesPerUs : Nat := 1800

/-- Detail of a watchdog record: the threshold, the VC. -/
def wdogDetail (second : Bool) (vc : Nat) : Nat := Bool.nat second + vc % 128 * 2

/-- A head flit of a strait port has stalled past a threshold; each record is posted once per stall. -/
def State.watchStrait (s : State) (port vc : Nat) (second : Bool) : State :=
  let p := s.strait port
  let n := if second then 2 else 1
  let limit := if second then s.wdog2 * 1000 * cyclesPerUs else s.wdog1 * cyclesPerUs
  match p.waiting vc with
  | [] => s
  | f :: r =>
    if (aget p.since vc).getD s.time + limit ≤ s.time ∧ (aget p.warned vc).getD 0 + 1 = n then
      let s1 := s.modStrait port (fun p => { p with warned := aset p.warned vc n })
      (if second then dedup ((f :: r).map (·.part)) else [f.part]).foldl (fun t pt => t.postLink pt port (if second then 1 else 0) 0x135 (wdogDetail second vc)) s1
    else s

/-- A UE port's queues are not the model's: a stall there is what the event says, of a partition (log 29). -/
def State.watch (s : State) (port vc pt : Nat) (ue second : Bool) : State :=
  if ue then if 8 ≤ port then s else s.postUnit pt (if second then 1 else 0) 5 0 (32 + port) 0x135 0 (wdogDetail second vc) 0 else s.watchStrait port vc second

/-! ## Events -/

/-- HOST_WRITE (R373): of partition y. -/
def execEvHostWrite (st : State) : Out := .next (st.hostWrite st.place.y st.place.msg)
/-- HOST_RAISING_WRITE (R373). -/
def execEvHostRaisingWrite (st : State) : Out := .next (st.hostRaise st.place.y st.place.msg)
/-- HOST_CHANNEL_PUBLISH (R116): channel x of partition y. -/
def execEvHostChannelPublish (st : State) : Out := .next (st.chanPublish st.place.y st.place.x)
/-- HOST_TOKEN_DELIVER (R373). -/
def execEvHostTokenDeliver (st : State) : Out := .next (st.chanDeliver st.place.y st.place.x)
/-- UE_PACKET_RECEIVE (R371). -/
def execEvUePacketReceive (st : State) : Out := .next (st.uePacket st.place.port st.place.pkt)
/-- UE_PORT_DOWN (R371). -/
def execEvUePortDown (st : State) : Out := .next (st.uePortDown st.place.port)
/-- STRAIT_FLIT_RECEIVE (R367). -/
def execEvStraitFlitReceive (st : State) : Out := .next (st.flitIn st.place.port st.place.flit)
/-- NAK_RECEIVE (R368): of flit x; the flag says that the link cannot be retrained. -/
def execEvNakReceive (st : State) : Out := .next (st.nakIn st.place.port st.place.x st.place.flag)
/-- CREDIT_RETURN (R367): VC x, of kind y; an edge stands at the place. -/
def execEvCreditReturn (st : State) : Out := .next (st.creditIn st.place.port st.place.x st.place.y st.place.core st.place.cell st.place.ctx st.place.port)
/-- ESCAPE_VC_DIVERT (R369): VC x. -/
def execEvEscapeVcDivert (st : State) : Out := .next (st.divert st.place.port st.place.x)
/-- WATCHDOG_FIRST (R370): VC x of a strait port, or of a UE port for partition y. -/
def execEvWatchdogFirst (st : State) : Out := .next (st.watch st.place.port st.place.x st.place.y st.place.flag false)
/-- WATCHDOG_SECOND (R370). -/
def execEvWatchdogSecond (st : State) : Out := .next (st.watch st.place.port st.place.x st.place.y st.place.flag true)
/-- STRAIT_LINK_RETURN (R368). -/
def execEvStraitLinkReturn (st : State) : Out := .next (st.linkBack st.place.port)

end Sys2Proof.Machine
end

