-- ==== Sys2Proof/Machine/EvPower.lean ====
section
/-! DEFINITION. Events of the part as a whole: reset and start (R381), the ramp and the power limit (R382, R383), temperature (R384), uncorrectable errors
(R342, R343), records on their way to a queue (R317, R318), timers (R238). -/

namespace Sys2Proof.Machine

/-! ## Reset (R381) -/

/-- The package as reset leaves it, with no stage of the start run. The fuses stay, and so do the model's own counters; the boot nonce is drawn anew
(R360). -/
def State.powerReset (s : State) : State :=
  { State.reset with fuses := s.fuses, agenda := s.agenda, turnNo := s.turnNo, freeNo := s.freeNo + 1, nonce := s.free.1, stage := 0 }

/-- The start runs as far as the stage before the one that fails; 0 says that none does. A failure of stage 1 shows in the boot status alone, one of stages 2
and 3 also reaches the manager's queue. -/
def State.start (s : State) (fail cause : Nat) : State :=
  if fail = 1 then { s with bootFail := some (if cause = 0x15C then 0x15C else 0x15B) }
  else if fail = 2 ∨ fail = 3 then { s with stage := fail - 1, bootFail := some 0x16F }.postUnit 16 3 6 0 0 0x16F 0 0 0
  else { s with stage := 5 }

/-! ## The ramp (R382) -/

/-- Cycles of 10 µs, 500 ns, 250 ns, 1 ms at 1.8 GHz. -/
def idleCycles : Nat := 18000
def isleCycles : Nat := 900
def rowCycles : Nat := 450

/-- An engine that has taken no step for 10 µs becomes idle. -/
def State.matrixIdle (s : State) (k : Nat) : State :=
  let m := s.matrix k
  if m.admitted && decide (m.lastStep + idleCycles ≤ s.time) then s.modMatrix k (fun m => { m with admitted := false }) else s

/-- The package or the die of an isle throttles (R383, R384). -/
def State.throttled (s : State) (isle : Nat) : Bool := s.power.throttle || (s.die (isle / 4)).hot105

/-- An isle waits for a ramp: an instance waits for one of its idle engines. -/
def State.isleWaits (s : State) (i : Nat) : Bool :=
  !(s.isle i).ramping && s.cores.any (fun e => isleOf e.1 == i && e.2.matrix.waiting && !e.2.matrix.admitted)

/-- The six engines of a core row are admitted. -/
def State.admitRow (s : State) (i y : Nat) : State :=
  (List.range 6).foldl (fun s x => s.modMatrix (i * 64 + y * 8 + x + 1) (fun m => { m with admitted := true, waiting := false, lastStep := s.time })) s

/-- The ramp of an isle begins with row 0, 500 ns after the last isle's began, in increasing isle number. -/
def State.rampAdmit (s : State) (i : Nat) : State :=
  let due : Bool := match s.power.lastIsle with | some t => decide (t + isleCycles ≤ s.time) | none => true
  if due && s.isleWaits i && !s.throttled i && !(List.range i).any (fun j => s.isleWaits j && !s.throttled j) then
    ({ s with power := { s.power with lastIsle := some s.time } }.modIsle i (fun v => { v with ramping := true, row := 1, rowTime := s.time })).admitRow i 0
  else s

/-- The next row of a ramping isle, 250 ns after the last. -/
def State.rampStep (s : State) (i : Nat) : State :=
  let v := s.isle i
  if v.ramping && decide (v.rowTime + rowCycles ≤ s.time) && !s.throttled i then
    (s.modIsle i (fun v => { v with ramping := decide (v.row < 7), row := v.row + 1, rowTime := s.time })).admitRow i v.row
  else s

/-! ## Power and temperature (R383, R384) -/

/-- A window of 1 ms begins; `above` says that the limit would be passed in it. -/
def State.powerWindow (s : State) (above : Bool) : State :=
  if s.time < s.power.window then s
  else
    let s1 := { s with power := { s.power with throttle := above, window := s.time + cyclesPerMs } }
    if above then s1.postUnit 16 0 6 0 0 0x166 0 0 0 else s1

/-- A die crosses 95 °C upward, or falls below it again. -/
def State.warm (s : State) (d : Nat) (below : Bool) : State :=
  if below then s.modDie d (fun x => { x with hot95 := false })
  else if (s.die d).hot95 then s
  else (s.modDie d (fun x => { x with hot95 := true })).postUnit 16 0 6 (d % 4) 0 0x161 0 0 0

/-! ## Uncorrectable errors (R342, R343) -/

/-- The codes whose trigger is an uncorrectable error alone: U in the grid (R344 to R349). -/
def damageCodes : List Nat :=
  [0x007, 0x00F, 0x017, 0x01F, 0x027, 0x02F, 0x037, 0x047, 0x04F, 0x057, 0x05F, 0x067, 0x06F, 0x077, 0x07F, 0x08F, 0x097, 0x09F, 0x0BF,
   0x0C7, 0x0CF, 0x0D7, 0x0E7, 0x0EF, 0x0F7, 0x107, 0x10F, 0x117, 0x127, 0x137, 0x13F, 0x147, 0x14F, 0x157, 0x15F, 0x167, 0x16F, 0x177, 0x17F]

/-- The source kind of a unit's error, by its code (R341): cell, RC, port, die unit, link, system unit, or engine. DEDUCED: R341
names kinds, the grid names units (log 110). -/
def damageKind (c : Nat) : Nat :=
  if c < 0x040 then 0
  else if c = 0x06F then 3
  else if c = 0x067 ∨ (0x0E8 ≤ c ∧ c < 0x100) then 4
  else if 0x0C0 ≤ c ∧ c < 0x0E8 then 1
  else if 0x100 ≤ c ∧ c < 0x140 then 5
  else if (0x0B8 ≤ c ∧ c < 0x0C0) ∨ 0x140 ≤ c then 6
  else 2

/-- The record of an error of a unit of a core. -/
def State.postDamage (s : State) (sev k loc cause addr : Nat) : State :=
  let kind := damageKind cause
  if kind < 4 then s.postFault sev kind k (if kind = 1 then 48 else loc) cause addr 0 0 else s.postUnit (s.partAt k) sev kind (dieOf k % 4) 0 cause addr 0 0

/-- A fatal error: its record, and every partition with a region on the die is killed as KILL.part states (R342). -/
def State.fatal (s : State) (k loc cause addr : Nat) : State :=
  let hit := dedup ((s.regions.filter (fun g => dieOf g.lead % 4 == dieOf k % 4)).map (·.part))
  hit.foldl (fun s pt => s.killPart pt) (s.postDamage 3 k loc cause addr)

/-- An uncorrectable error that a unit of a core detects: terminating for the region that owns its state, fatal where none does. One that a memory-cell port
meets in a fill quarantines the tile (R354). -/
def State.uncorrectable (s : State) (k loc cause addr : Nat) (shared : Bool) : State :=
  if !damageCodes.contains cause then s
  else
    let t := if cause = 0x06F then s.quarantine k (s.partAt k) (addr / 2048) else s
    if shared ∨ (t.regionAt k).isNone ∨ gridSev cause = 3 then t.fatal k loc cause addr
    else (t.postDamage 2 k loc cause addr).terminate (t.leadOf k) cause

/-- The cache of verified plaintext of a core's die drops the tile of a VA of the core's partition: an uncorrectable error in the cache, which is no fault
(R355). -/
def State.dropPlain (s : State) (k va : Nat) : State :=
  s.modDie (dieOf k % 4) (fun d => { d with cache := d.cache.filter (fun c => c.key != cacheKey (s.partAt k) (va / 2048)) })

/-- UNCORRECTABLE_ERROR: of a code; 0 is one of the cache of verified plaintext, and 0x176 the corrected errors of one array that have reached their threshold
(R349). -/
def State.memoryError (s : State) (k loc cause addr : Nat) (shared : Bool) : State :=
  match cause with
  | 0 => s.dropPlain k addr
  | 0x176 => s.postUnit 16 0 6 (dieOf k % 4) 0 0x176 addr 0 0
  | c => s.uncorrectable k loc c addr shared

/-! ## Records (R317, R318) -/

/-- The n-th record of those that wait leaves them. -/
def State.dropPost (s : State) (n : Nat) : State := { s with posts := s.posts.eraseIdx n }

/-- The oldest record that a source posts is written to its queue, is kept or lost while that is unset, or waits for room. -/
def State.postRecord (s : State) (source : Nat) : State :=
  match s.posts.findIdx? (fun e => e.source == source) with
  | none => s
  | some n =>
    match s.posts[n]? with
    | none => s
    | some e =>
      let q := s.queue e.queue
      let t := s.dropPost n
      if s.queueGone e.queue then t
      else if !s.noRoom e.queue then (if q.isSet then t.putRecord q e else t.modQueue e.queue (fun q => { q with kept := q.kept ++ [e] }))
      else if e.mayLose then
        (if q.isSet then t.setQueueWord q 2 ((s.queueWord q 2 + 1) % 2 ^ 32) else t.modQueue e.queue (fun q => { q with lost := q.lost + 1 })).shown e
      else s

/-- The last cycle of an RC's timer (R238). -/
def State.timerExpires (s : State) (k : Nat) : State := if (s.rc k).timer = 1 then s.modRc k Rc.expire else s

/-! ## Events -/

/-- POWER_ON_RESET (R381): x is the stage that fails, 0 for none, y its cause in stage 1. -/
def execEvPowerOnReset (st : State) : Out := .next (st.powerReset.start st.place.x st.place.y)
/-- MATRIX_IDLE (R382). -/
def execEvMatrixIdle (st : State) : Out := .next (st.matrixIdle st.place.core)
/-- ISLE_RAMP_ADMIT (R382): isle x. -/
def execEvIsleRampAdmit (st : State) : Out := .next (st.rampAdmit st.place.x)
/-- RAMP_STEP (R382): isle x. -/
def execEvRampStep (st : State) : Out := .next (st.rampStep st.place.x)
/-- POWER_WINDOW (R383): the flag says that the limit would be passed. -/
def execEvPowerWindow (st : State) : Out := .next (st.powerWindow st.place.flag)
/-- THERMAL_WARNING (R384): die x, 4 for the I/O die; the flag says that it has fallen below 95 °C again. -/
def execEvThermalWarning (st : State) : Out := .next (st.warm st.place.x st.place.flag)
/-- THERMAL_THROTTLE (R384): die x. -/
def execEvThermalThrottle (st : State) : Out := .next (st.modDie st.place.x (fun d => { d with hot105 := true }))
/-- THERMAL_THROTTLE_RELEASE (R384): die x. -/
def execEvThermalThrottleRelease (st : State) : Out := .next (st.modDie st.place.x (fun d => { d with hot105 := false }))
/-- THERMAL_SHUTDOWN (R384): the package is without power, and reset. -/
def execEvThermalShutdown (st : State) : Out := .next st.powerReset
/-- UNCORRECTABLE_ERROR (R343): cause x at address y in a unit of the place's core (local id in `cell`); the flag says that no single region owns its state. -/
def execEvUncorrectableError (st : State) : Out := .next (st.memoryError st.place.core st.place.cell st.place.x st.place.y st.place.flag)
/-- EVENT_POST (R317): of source x. -/
def execEvEventPost (st : State) : Out := .next (st.postRecord st.place.x)
/-- TIMER_EXPIRY (R238). -/
def execEvTimerExpiry (st : State) : Out := .next (st.timerExpires st.place.core)

end Sys2Proof.Machine
end

