-- ==== Sys2Proof/Machine/EvPreempt.lean ====
section
/-! DEFINITION. Events of pre-emption and KILL (R214, R322, R323, R327). -/

namespace Sys2Proof.Machine

/-- A drain's marker stands at the head of a port: what came before it has been consumed or waits in the matching store. -/
def State.markAt (s : State) (g : Region) (k l x p : Nat) : Bool :=
  match (s.port k l x p).fifo with
  | t :: _ => t.tok.kind == TKind.mark && t.tok.cls == g.sub
  | [] => false

/-- A matching-store entry is a matched task: it has a token for each of its class's operands. -/
def State.matched (s : State) (k l : Nat) (m : Match) : Bool := (aget m.toks 0).isSome && m.toks.length == ceArity (s.classEntry k l m.ctx m.cls)

/-- No DATA token of a region is under way, but for what waits in matching stores. -/
def State.dataless (s : State) (g : Region) : Bool :=
  let data (t : Token) : Bool := t.kind == TKind.data
  g.coreList.all (fun k =>
    (s.core k).cells.all (fun (e : Nat × Cell) =>
      e.2.running.isNone && e.2.ready.isEmpty && e.2.done.isEmpty
        && e.2.ctxs.all (fun x => x.ports.all (fun p => !p.fifo.any (fun t => data t.tok)) && x.edges.all (fun d => !d.flight.any data)))
      && !(s.core k).matrix.edge.flight.any data && (s.core k).hpEdges.all (fun d => !d.flight.any data))

/-- A port of a loop-head cell whose source lies in the region needs no marker, once the loop's window has drained (R322; log 24). -/
def State.loopPort (s : State) (g : Region) (k l x p : Nat) : Bool :=
  (List.range 4).any (fun q => let w := s.portWord k l x q; pwEn w && pwWin w != 0)
    && forwardsMarks g.coreList k l (pwSrc (s.portWord k l x p)) && (s.port k l x p).fifo.isEmpty && s.dataless g

/-- No return that a cell's CALLs reserved is still to come. -/
def State.returnsDone (s : State) (k l : Nat) : Bool :=
  let i := s.isle (isleOf k)
  let mine (r : CallRec) : Bool := r.core == k && r.cell == l
  i.frames.all (fun (f : Nat × Frame) => !((f.2.st == 1 || f.2.st == 4) && mine f.2.rcd)) && i.returns.all (fun r => !mine r.rcd)

/-- A cell passes a drain's marker on once every task matched before it has completed (R322): what its matching store still holds can never be matched and is
discarded. A CAPTURE marker enters the slot from every port (R182, R377). A cell that a held access freezes passes the marker on as it stands (R335; log 109). -/
def State.passMarker (s : State) (k l : Nat) : State :=
  match s.regionAt k with
  | none => s
  | some g =>
    let c := s.cell k l
    let ps := s.cellPorts k l
    let mark := markToken Reg.empty g.sub 0 0
    let pass (t : State) : State := (s.cellEdges k l).foldl (fun s e => s.enter k l e.1 e.2 mark) t
    if g.st ≠ .draining ∨ !g.marked ∨ c.passed ∨ ps = [] then s
    else if (s.frozenUnits g).contains (k, l) then pass (s.modCell k l (fun c => { c with passed := true }))
    else if !ps.all (fun q => s.markAt g k l q.1 q.2 || s.loopPort g k l q.1 q.2) then s
    else if !ps.any (fun q => s.markAt g k l q.1 q.2) then s
    else if c.running.isSome ∨ !c.ready.isEmpty ∨ !c.done.isEmpty ∨ !c.held.isEmpty ∨ c.matching.any (s.matched k l) ∨ !s.returnsDone k l then s
    else
      let s1 := ps.foldl (fun s q => match (s.port k l q.1 q.2).fifo with
        | [] => s
        | t :: _ => let u := s.popPort k l q.1 q.2; if g.capture then u.fillSlot k l q.1 t.tok else u) s
      let s2 := if c.matching.isEmpty then s1 else s1.modRc g.lead (fun r => { r with residue := true })
      pass (s2.modCell k l (fun c => { c with matching := [], passed := true }))

/-- Tokens of a k-step of an instruction at a port; `rows` are those that an MMAG selects. -/
def stepToks (rows p : Nat) (i : Instr) : Nat := let u := matUse rows i; if p = 0 then u.a else if p = 1 then u.b else if isMmag i then 1 else 0

/-- What the engine has staged of an instance that has not started: tokens of one tag, no more than its first k-step takes at the port. -/
def State.stagedNext (s : State) (k p : Nat) (ts : List Token) : Bool :=
  match ts with
  | [] => true
  | t :: _ => ts.all (fun u => u.kind == TKind.data && tokTag u == tokTag t) && (match s.slotAt k t.cfg t.cls with
      | some (_, i) => decide (ts.length ≤ stepToks (matRows i) p i)
      | none => false)

/-- A matrix port holds the marker behind what the engine keeps: the tokens received of the running instance's next k-step, then what is staged of the instance
that comes next (R214). -/
def State.matMarkAt (s : State) (g : Region) (k p : Nat) : Bool :=
  let m := s.matrix k
  let q := (m.fifo p).map (·.tok)
  match q.findIdx? (fun t => t.kind == TKind.mark && t.cls == g.sub) with
  | none => false
  | some n =>
    let before := q.take n
    match m.run with
    | none => s.stagedNext k p before
    | some r =>
      let own := before.takeWhile (fun t => t.kind == TKind.data && tokTag t == r.tag)
      (match s.slotInstr k r.ctx r.slot with
        | some i => decide (own.length ≤ (if p = 2 then 0 else stepToks r.mask.length p i))
        | none => own.isEmpty) && s.stagedNext k p (before.drop own.length)

/-- The engine takes the marker at every port, keeps its state and what it has staged, and passes the marker on (R214). -/
def State.saveMatrix (s : State) (k : Nat) : State :=
  match s.regionAt k with
  | none => s
  | some g =>
    let ps := (List.range 3).filter (fun p => pwEn (s.portWord k 32 0 p))
    if g.st ≠ .draining ∨ !g.marked ∨ isKeyed k ∨ (s.matrix k).passed ∨ ps = [] ∨ !ps.all (s.matMarkAt g k) ∨ !s.passEnded k then s
    else
      let s1 := s.modMatrix k (fun m => { m with
        passed := true
        ports := m.ports.map (fun p => { p with fifo := p.fifo.filter (fun t => t.tok.kind != TKind.mark) }) })
      if ewEn (s.edgeWord k 34 0 0) then s1.enter k 34 0 0 (markToken Reg.empty g.sub 0 0) else s1

/-- A region whose turn has come begins to drain; a drained one is frozen. Regions that a checkpoint captures are its own (R377). -/
def State.regionFreezes (s : State) (k : Nat) : State :=
  match s.regionAt k with
  | none => s
  | some g =>
    if g.lead ≠ k then s
    else if s.turnHasCome g then s.beginDrain k
    else if s.drained g then s.freeze g
    else s

/-- The deadline has passed: PREEMPT_TIMEOUT, and the policy of the partition (R323). -/
def State.preemptTimeout (s : State) (k : Nat) : State :=
  match s.regionAt k with
  | none => s
  | some g =>
    let p := s.part g.part
    if g.lead ≠ k ∨ g.capture ∨ !(g.st = .draining ∨ g.pending) ∨ s.time < g.since + p.deadline then s
    else
      let s1 := s.postUnit g.part 0 4 (dieOf k) 61 0x0F6 0 0 (regionHandle k)
      if bit p.pctl 0 then s1.runOn k else s1.killRegion g

/-- Every engine of a killed region is quiescent: KILL_DONE (R327). -/
def State.killDone (s : State) (k : Nat) : State :=
  match s.regionAt k with
  | some g => if g.lead = k ∧ g.st = .killed ∧ s.remoteClear g.coreList then s.finishKill g else s
  | none => s

/-- PREEMPT_MARKER_FORWARD (R322): the place's cell. -/
def execEvPreemptMarkerForward (st : State) : Out := st.atPlace (fun s k l _ _ => s.passMarker k l)
/-- MATRIX_PREEMPT_SAVE (R214). -/
def execEvMatrixPreemptSave (st : State) : Out := st.atPlace (fun s k _ _ _ => s.saveMatrix k)
/-- REGION_FROZEN (R322): the region that the place's core leads. -/
def execEvRegionFrozen (st : State) : Out := .next (st.regionFreezes st.place.core)
/-- PREEMPT_TIMEOUT (R323). -/
def execEvPreemptTimeout (st : State) : Out := .next (st.preemptTimeout st.place.core)
/-- KILL_DONE (R327). -/
def execEvKillDone (st : State) : Out := .next (st.killDone st.place.core)

end Sys2Proof.Machine
end

