-- ==== Sys2Proof/Machine/Dispatch.lean ====
section
/-! DEFINITION. The meaning of every instruction and event: one arm, one direct call. -/

namespace Sys2Proof.Machine

def exec (i : Instr) (s : State) : Host.Outcome State Fault Refusal :=
  match i with
  | .add d a b r sat x => Sys2Proof.Machine.execAdd d a b r sat x s
  | .sub d a b r sat x => Sys2Proof.Machine.execSub d a b r sat x s
  | .mul d a b r sat x => Sys2Proof.Machine.execMul d a b r sat x s
  | .fma d a b r sat => Sys2Proof.Machine.execFma d a b r sat s
  | .fms d a b r sat => Sys2Proof.Machine.execFms d a b r sat s
  | .fnma d a b r sat => Sys2Proof.Machine.execFnma d a b r sat s
  | .min d a b => Sys2Proof.Machine.execMin d a b s
  | .max d a b => Sys2Proof.Machine.execMax d a b s
  | .abs d a => Sys2Proof.Machine.execAbs d a s
  | .negOp d a => Sys2Proof.Machine.execNegOp d a s
  | .div d a b r sat => Sys2Proof.Machine.execDiv d a b r sat s
  | .adds d a b => Sys2Proof.Machine.execAdds d a b s
  | .subs d a b => Sys2Proof.Machine.execSubs d a b s
  | .mulh d a b => Sys2Proof.Machine.execMulh d a b s
  | .addi d a imm => Sys2Proof.Machine.execAddi d a imm s
  | .muli d a imm => Sys2Proof.Machine.execMuli d a imm s
  | .andOp d a b => Sys2Proof.Machine.execAndOp d a b s
  | .orOp d a b => Sys2Proof.Machine.execOrOp d a b s
  | .xor d a b => Sys2Proof.Machine.execXor d a b s
  | .notOp d a => Sys2Proof.Machine.execNotOp d a s
  | .shl d a b => Sys2Proof.Machine.execShl d a b s
  | .shr d a b => Sys2Proof.Machine.execShr d a b s
  | .sha d a b => Sys2Proof.Machine.execSha d a b s
  | .rot d a b => Sys2Proof.Machine.execRot d a b s
  | .clz d a => Sys2Proof.Machine.execClz d a s
  | .popc d a => Sys2Proof.Machine.execPopc d a s
  | .andi d a imm => Sys2Proof.Machine.execAndi d a imm s
  | .ori d a imm => Sys2Proof.Machine.execOri d a imm s
  | .shli d a imm => Sys2Proof.Machine.execShli d a imm s
  | .shri d a imm => Sys2Proof.Machine.execShri d a imm s
  | .shai d a imm => Sys2Proof.Machine.execShai d a imm s
  | .bfx d a x w l => Sys2Proof.Machine.execBfx d a x w l s
  | .rcp d a r sat => Sys2Proof.Machine.execRcp d a r sat s
  | .rsq d a r sat => Sys2Proof.Machine.execRsq d a r sat s
  | .sqrt d a r sat => Sys2Proof.Machine.execSqrt d a r sat s
  | .exp2 d a r sat => Sys2Proof.Machine.execExp2 d a r sat s
  | .log2 d a r sat => Sys2Proof.Machine.execLog2 d a r sat s
  | .tanh d a r sat => Sys2Proof.Machine.execTanh d a r sat s
  | .sinp d a r sat => Sys2Proof.Machine.execSinp d a r sat s
  | .cosp d a r sat => Sys2Proof.Machine.execCosp d a r sat s
  | .cmp d a b c => Sys2Proof.Machine.execCmp d a b c s
  | .setv d a b => Sys2Proof.Machine.execSetv d a b s
  | .sel d a b => Sys2Proof.Machine.execSel d a b s
  | .cntv d a => Sys2Proof.Machine.execCntv d a s
  | .firstv d a => Sys2Proof.Machine.execFirstv d a s
  | .classOp d a => Sys2Proof.Machine.execClassOp d a s
  | .cpsgn d a b => Sys2Proof.Machine.execCpsgn d a b s
  | .rndi d a r => Sys2Proof.Machine.execRndi d a r s
  | .cvt d a f r sat => Sys2Proof.Machine.execCvt d a f r sat s
  | .qnt d a f r => Sys2Proof.Machine.execQnt d a f r s
  | .dqn d a f r sat => Sys2Proof.Machine.execDqn d a f r sat s
  | .xsc d a b r => Sys2Proof.Machine.execXsc d a b r s
  | .shuf d a b => Sys2Proof.Machine.execShuf d a b s
  | .bcast d a imm => Sys2Proof.Machine.execBcast d a imm s
  | .rotl d a imm => Sys2Proof.Machine.execRotl d a imm s
  | .redl d a b r sat => Sys2Proof.Machine.execRedl d a b r sat s
  | .scanl d a b r sat => Sys2Proof.Machine.execScanl d a b r sat s
  | .iota d imm => Sys2Proof.Machine.execIota d imm s
  | .mov d a => Sys2Proof.Machine.execMov d a s
  | .movi d imm => Sys2Proof.Machine.execMovi d imm s
  | .movh d imm => Sys2Proof.Machine.execMovh d imm s
  | .ldc d n => Sys2Proof.Machine.execLdc d n s
  | .tagrd d k f => Sys2Proof.Machine.execTagrd d k f s
  | .fmts d a f => Sys2Proof.Machine.execFmts d a f s
  | .emit e sat c t g => Sys2Proof.Machine.execEmit e sat c t g s
  | .emitv e sat c t p => Sys2Proof.Machine.execEmitv e sat c t p s
  | .steer e sat c t x p => Sys2Proof.Machine.execSteer e sat c t x p s
  | .merge d a b x => Sys2Proof.Machine.execMerge d a b x s
  | .emeos e => Sys2Proof.Machine.execEmeos e s
  | .fwdm e => Sys2Proof.Machine.execFwdm e s
  | .call e sat c r k => Sys2Proof.Machine.execCall e sat c r k s
  | .ret sat x => Sys2Proof.Machine.execRet sat x s
  | .filt d a b x => Sys2Proof.Machine.execFilt d a b x s
  | .coal d a => Sys2Proof.Machine.execCoal d a s
  | .flushc d => Sys2Proof.Machine.execFlushc d s
  | .pchk d a => Sys2Proof.Machine.execPchk d a s
  | .trapc a imm => Sys2Proof.Machine.execTrapc a imm s
  | .lds d a f p => Sys2Proof.Machine.execLds d a f p s
  | .sts d a o h q p => Sys2Proof.Machine.execSts d a o h q p s
  | .ldx d a f => Sys2Proof.Machine.execLdx d a f s
  | .stx d a o h => Sys2Proof.Machine.execStx d a o h s
  | .atom d a sat r p z => Sys2Proof.Machine.execAtom d a sat r p z s
  | .lde a o f h p n => Sys2Proof.Machine.execLde a o f h p n s
  | .ste d a o h p => Sys2Proof.Machine.execSte d a o h p s
  | .ordt a o => Sys2Proof.Machine.execOrdt a o s
  | .fencem sat r => Sys2Proof.Machine.execFencem sat r s
  | .cmpr d a => Sys2Proof.Machine.execCmpr d a s
  | .expd d a o h => Sys2Proof.Machine.execExpd d a o h s
  | .rput d a o h j => Sys2Proof.Machine.execRput d a o h j s
  | .rget d a f j => Sys2Proof.Machine.execRget d a f j s
  | .rfree a => Sys2Proof.Machine.execRfree a s
  | .tbarv a o h => Sys2Proof.Machine.execTbarv a o h s
  | .tbtst d a => Sys2Proof.Machine.execTbtst d a s
  | .rmk d a b => Sys2Proof.Machine.execRmk d a b s
  | .tjoin d a b => Sys2Proof.Machine.execTjoin d a b s
  | .tmeet d a b => Sys2Proof.Machine.execTmeet d a b s
  | .tle d a b => Sys2Proof.Machine.execTle d a b s
  | .tadv d a b => Sys2Proof.Machine.execTadv d a b s
  | .hins a h => Sys2Proof.Machine.execHins a h s
  | .hseek a h e => Sys2Proof.Machine.execHseek a h e s
  | .hjoin a h e => Sys2Proof.Machine.execHjoin a h e s
  | .hred d a h v => Sys2Proof.Machine.execHred d a h v s
  | .hcons h => Sys2Proof.Machine.execHcons h s
  | .hcomp a h => Sys2Proof.Machine.execHcomp a h s
  | .fnrd d imm => Sys2Proof.Machine.execFnrd d imm s
  | .fnput e sat => Sys2Proof.Machine.execFnput e sat s
  | .scope d a b => Sys2Proof.Machine.execScope d a b s
  | .rhash d a imm => Sys2Proof.Machine.execRhash d a imm s
  | .rneg d a => Sys2Proof.Machine.execRneg d a s
  | .cAdd d a b => Sys2Proof.Machine.execCAdd d a b s
  | .cSub d a b => Sys2Proof.Machine.execCSub d a b s
  | .cMul d a b => Sys2Proof.Machine.execCMul d a b s
  | .cFma d a b => Sys2Proof.Machine.execCFma d a b s
  | .cMin d a b => Sys2Proof.Machine.execCMin d a b s
  | .cMax d a b => Sys2Proof.Machine.execCMax d a b s
  | .cAnd d a b => Sys2Proof.Machine.execCAnd d a b s
  | .cOr d a b => Sys2Proof.Machine.execCOr d a b s
  | .cXor d a b => Sys2Proof.Machine.execCXor d a b s
  | .cMov d a => Sys2Proof.Machine.execCMov d a s
  | .cNeg d a => Sys2Proof.Machine.execCNeg d a s
  | .cAbs d a => Sys2Proof.Machine.execCAbs d a s
  | .cExp2 d a => Sys2Proof.Machine.execCExp2 d a s
  | .cRcp d a => Sys2Proof.Machine.execCRcp d a s
  | .cRsq d a => Sys2Proof.Machine.execCRsq d a s
  | .cRedl d a => Sys2Proof.Machine.execCRedl d a s
  | .cSel d a b => Sys2Proof.Machine.execCSel d a b s
  | .cBcast d a n => Sys2Proof.Machine.execCBcast d a n s
  | .cShl d a b => Sys2Proof.Machine.execCShl d a b s
  | .cShr d a b => Sys2Proof.Machine.execCShr d a b s
  | .cEmit e sat c => Sys2Proof.Machine.execCEmit e sat c s
  | .cSetv d a b => Sys2Proof.Machine.execCSetv d a b s
  | .mma mt nt kt acc afmt bfmt trig => Sys2Proof.Machine.execMma mt nt kt acc afmt bfmt trig s
  | .mmaz mt nt kt acc afmt bfmt trig => Sys2Proof.Machine.execMmaz mt nt kt acc afmt bfmt trig s
  | .mmat mt nt kt acc afmt bfmt trig => Sys2Proof.Machine.execMmat mt nt kt acc afmt bfmt trig s
  | .mmag mt nt kt acc afmt bfmt trig => Sys2Proof.Machine.execMmag mt nt kt acc afmt bfmt trig s
  | .accz mt nt acc trig => Sys2Proof.Machine.execAccz mt nt acc trig s
  | .accrd mt nt acc rm trig sat q ofmt => Sys2Proof.Machine.execAccrd mt nt acc rm trig sat q ofmt s
  | .accwr mt nt acc afmt trig => Sys2Proof.Machine.execAccwr mt nt acc afmt trig s
  | .accax mt nt acc afmt bfmt rm trig => Sys2Proof.Machine.execAccax mt nt acc afmt bfmt rm trig s
  | .rcAdd d a b => Sys2Proof.Machine.execRcAdd d a b s
  | .rcSub d a b => Sys2Proof.Machine.execRcSub d a b s
  | .rcMul d a b => Sys2Proof.Machine.execRcMul d a b s
  | .rcMulh d a b => Sys2Proof.Machine.execRcMulh d a b s
  | .rcAnd d a b => Sys2Proof.Machine.execRcAnd d a b s
  | .rcOr d a b => Sys2Proof.Machine.execRcOr d a b s
  | .rcXor d a b => Sys2Proof.Machine.execRcXor d a b s
  | .rcShl d a b => Sys2Proof.Machine.execRcShl d a b s
  | .rcShr d a b => Sys2Proof.Machine.execRcShr d a b s
  | .rcSha d a b => Sys2Proof.Machine.execRcSha d a b s
  | .rcSlt d a b => Sys2Proof.Machine.execRcSlt d a b s
  | .rcSltn d a b => Sys2Proof.Machine.execRcSltn d a b s
  | .rcMin d a b => Sys2Proof.Machine.execRcMin d a b s
  | .rcMax d a b => Sys2Proof.Machine.execRcMax d a b s
  | .rcAddi d a imm => Sys2Proof.Machine.execRcAddi d a imm s
  | .rcAndi d a imm => Sys2Proof.Machine.execRcAndi d a imm s
  | .rcLd d a z o => Sys2Proof.Machine.execRcLd d a z o s
  | .rcSt d a z o => Sys2Proof.Machine.execRcSt d a z o s
  | .rcAmo d a b z r sat p => Sys2Proof.Machine.execRcAmo d a b z r sat p s
  | .rcCas d a b z r sat => Sys2Proof.Machine.execRcCas d a b z r sat s
  | .rcFence r sat => Sys2Proof.Machine.execRcFence r sat s
  | .rcMovk d a imm => Sys2Proof.Machine.execRcMovk d a imm s
  | .rcRds d imm => Sys2Proof.Machine.execRcRds d imm s
  | .rcWrs a imm => Sys2Proof.Machine.execRcWrs a imm s
  | .rcRdfn d c e f => Sys2Proof.Machine.execRcRdfn d c e f s
  | .rcOri d a imm => Sys2Proof.Machine.execRcOri d a imm s
  | .rcShli d a imm => Sys2Proof.Machine.execRcShli d a imm s
  | .rcShri d a imm => Sys2Proof.Machine.execRcShri d a imm s
  | .rcBeq a b o => Sys2Proof.Machine.execRcBeq a b o s
  | .rcBne a b o => Sys2Proof.Machine.execRcBne a b o s
  | .rcBlt a b o => Sys2Proof.Machine.execRcBlt a b o s
  | .rcBge a b o => Sys2Proof.Machine.execRcBge a b o s
  | .rcBltn a b o => Sys2Proof.Machine.execRcBltn a b o s
  | .rcBgen a b o => Sys2Proof.Machine.execRcBgen a b o s
  | .rcJmp o => Sys2Proof.Machine.execRcJmp o s
  | .rcJal d o => Sys2Proof.Machine.execRcJal d o s
  | .rcJr d a => Sys2Proof.Machine.execRcJr d a s
  | .rcLoop c o => Sys2Proof.Machine.execRcLoop c o s
  | .rcBst d a sat imm => Sys2Proof.Machine.execRcBst d a sat imm s
  | .rcWaite d imm => Sys2Proof.Machine.execRcWaite d imm s
  | .rcTrap imm => Sys2Proof.Machine.execRcTrap imm s
  | .rcSys d a imm => Sys2Proof.Machine.execRcSys d a imm s
  | .rcCfg ext => Sys2Proof.Machine.execRcCfg ext s
  | .rcIter a n => Sys2Proof.Machine.execRcIter a n s
  | .rcSpec d ext => Sys2Proof.Machine.execRcSpec d ext s
  | .rcWaitr d => Sys2Proof.Machine.execRcWaitr d s
  | .rcPstat d => Sys2Proof.Machine.execRcPstat d s
  | .rcBarc a => Sys2Proof.Machine.execRcBarc a s
  | .rcInj d a b => Sys2Proof.Machine.execRcInj d a b s
  | .rcXtr d a => Sys2Proof.Machine.execRcXtr d a s
  | .rcCpy r a b t p => Sys2Proof.Machine.execRcCpy r a b t p s
  | .rcCpyr r a b t p => Sys2Proof.Machine.execRcCpyr r a b t p s
  | .rcCpyg a b t p => Sys2Proof.Machine.execRcCpyg a b t p s
  | .rcCpyx a b t p => Sys2Proof.Machine.execRcCpyx a b t p s
  | .rcCpys a b t p => Sys2Proof.Machine.execRcCpys a b t p s
  | .rcTbi a t => Sys2Proof.Machine.execRcTbi a t s
  | .rcTbw t => Sys2Proof.Machine.execRcTbw t s
  | .rcTbex a t => Sys2Proof.Machine.execRcTbex a t s
  | .rcShd d p => Sys2Proof.Machine.execRcShd d p s
  | .rcPub d p => Sys2Proof.Machine.execRcPub d p s
  | .rcDisc p => Sys2Proof.Machine.execRcDisc p s
  | .rcCpst d t => Sys2Proof.Machine.execRcCpst d t s
  | .rcNdsub d a => Sys2Proof.Machine.execRcNdsub d a s
  | .rcNddep d a b => Sys2Proof.Machine.execRcNddep d a b s
  | .rcNdwait d a => Sys2Proof.Machine.execRcNdwait d a s
  | .rcNdstat d a => Sys2Proof.Machine.execRcNdstat d a s
  | .rcComm d a => Sys2Proof.Machine.execRcComm d a s
  | .rcColl d a b p o => Sys2Proof.Machine.execRcColl d a b p o s
  | .rcCwait d a => Sys2Proof.Machine.execRcCwait d a s
  | .rcCstat d a => Sys2Proof.Machine.execRcCstat d a s
  | .rcCsel a b => Sys2Proof.Machine.execRcCsel a b s
  | .rcLi d ext => Sys2Proof.Machine.execRcLi d ext s
  | .rcLih d ext => Sys2Proof.Machine.execRcLih d ext s
  | .rcJl d ext => Sys2Proof.Machine.execRcJl d ext s
  | .rcMtp a b f => Sys2Proof.Machine.execRcMtp a b f s
  | .rcMfp d a f => Sys2Proof.Machine.execRcMfp d a f s
  | .rcTlbi a => Sys2Proof.Machine.execRcTlbi a s
  | .rcTlbiRange a b => Sys2Proof.Machine.execRcTlbiRange a b s
  | .rcCtxs d a b => Sys2Proof.Machine.execRcCtxs d a b s
  | .rcCtxr d a b => Sys2Proof.Machine.execRcCtxr d a b s
  | .rcKill a => Sys2Proof.Machine.execRcKill a s
  | .rcPrmt a => Sys2Proof.Machine.execRcPrmt a s
  | .rcSealk d a b => Sys2Proof.Machine.execRcSealk d a b s
  | .rcSealkRet a => Sys2Proof.Machine.execRcSealkRet a s
  | .rcSealkCur a => Sys2Proof.Machine.execRcSealkCur a s
  | .rcScrub d a b => Sys2Proof.Machine.execRcScrub d a b s
  | .rcMigr d a b => Sys2Proof.Machine.execRcMigr d a b s
  | .rcCkpt d a => Sys2Proof.Machine.execRcCkpt d a s
  | .rcRstr d a => Sys2Proof.Machine.execRcRstr d a s
  | .rcAttest d a b => Sys2Proof.Machine.execRcAttest d a b s
  | .rcAttestAcc a b => Sys2Proof.Machine.execRcAttestAcc a b s
  | .rcAttestClose a => Sys2Proof.Machine.execRcAttestClose a s
  | .rcRets a b => Sys2Proof.Machine.execRcRets a b s
  | .rcPartCreate d a b => Sys2Proof.Machine.execRcPartCreate d a b s
  | .rcPartDestroy d a b => Sys2Proof.Machine.execRcPartDestroy d a b s
  | .rcPartRead d a b => Sys2Proof.Machine.execRcPartRead d a b s
  | .rcEvtq a b => Sys2Proof.Machine.execRcEvtq a b s
  | .rcEvtqWait d => Sys2Proof.Machine.execRcEvtqWait d s
  | .dropOp => Sys2Proof.Machine.execDropOp s
  | .endOp => Sys2Proof.Machine.execEndOp s
  | .freef => Sys2Proof.Machine.execFreef s
  | .cEnd => Sys2Proof.Machine.execCEnd s
  | .cDrop => Sys2Proof.Machine.execCDrop s
  | .rcEndl => Sys2Proof.Machine.execRcEndl s
  | .rcHalt => Sys2Proof.Machine.execRcHalt s
  | .rcCfgw => Sys2Proof.Machine.execRcCfgw s
  | .rcGo => Sys2Proof.Machine.execRcGo s
  | .rcAbortr => Sys2Proof.Machine.execRcAbortr s
  | .rcPin => Sys2Proof.Machine.execRcPin s
  | .rcTlbiAll => Sys2Proof.Machine.execRcTlbiAll s
  | .rcKillPart => Sys2Proof.Machine.execRcKillPart s
  | .rcPrmtPart => Sys2Proof.Machine.execRcPrmtPart s
  | .evPowerOnReset => Sys2Proof.Machine.execEvPowerOnReset s
  | .evDataTokenArrival => Sys2Proof.Machine.execEvDataTokenArrival s
  | .evEosArrival => Sys2Proof.Machine.execEvEosArrival s
  | .evMarkArrival => Sys2Proof.Machine.execEvMarkArrival s
  | .evNoticeArrival => Sys2Proof.Machine.execEvNoticeArrival s
  | .evTaskAdmit => Sys2Proof.Machine.execEvTaskAdmit s
  | .evTaskDispatch => Sys2Proof.Machine.execEvTaskDispatch s
  | .evStagedTokenRelease => Sys2Proof.Machine.execEvStagedTokenRelease s
  | .evEosForward => Sys2Proof.Machine.execEvEosForward s
  | .evSinkEosCount => Sys2Proof.Machine.execEvSinkEosCount s
  | .evMarkerSlotFill => Sys2Proof.Machine.execEvMarkerSlotFill s
  | .evFrontierAdvance => Sys2Proof.Machine.execEvFrontierAdvance s
  | .evArbiterWeightRecompute => Sys2Proof.Machine.execEvArbiterWeightRecompute s
  | .evFrameWaitTimeout => Sys2Proof.Machine.execEvFrameWaitTimeout s
  | .evReturnArrival => Sys2Proof.Machine.execEvReturnArrival s
  | .evCfgLoadApply => Sys2Proof.Machine.execEvCfgLoadApply s
  | .evGeneratorPoint => Sys2Proof.Machine.execEvGeneratorPoint s
  | .evBarcPoint => Sys2Proof.Machine.execEvBarcPoint s
  | .evOrderingTokenArrival => Sys2Proof.Machine.execEvOrderingTokenArrival s
  | .evVoidSlotFree => Sys2Proof.Machine.execEvVoidSlotFree s
  | .evCopyOutSlotTake => Sys2Proof.Machine.execEvCopyOutSlotTake s
  | .evSectorLanding => Sys2Proof.Machine.execEvSectorLanding s
  | .evRemoteAccessArrival => Sys2Proof.Machine.execEvRemoteAccessArrival s
  | .evRemoteStoreCompletion => Sys2Proof.Machine.execEvRemoteStoreCompletion s
  | .evHistoryCommandAccept => Sys2Proof.Machine.execEvHistoryCommandAccept s
  | .evHistoryCommandApply => Sys2Proof.Machine.execEvHistoryCommandApply s
  | .evHistoryFrontierAdvance => Sys2Proof.Machine.execEvHistoryFrontierAdvance s
  | .evHistoryEosPass => Sys2Proof.Machine.execEvHistoryEosPass s
  | .evBucketSpill => Sys2Proof.Machine.execEvBucketSpill s
  | .evBucketFill => Sys2Proof.Machine.execEvBucketFill s
  | .evMatrixInstanceStart => Sys2Proof.Machine.execEvMatrixInstanceStart s
  | .evMatrixEos => Sys2Proof.Machine.execEvMatrixEos s
  | .evMatrixPreemptSave => Sys2Proof.Machine.execEvMatrixPreemptSave s
  | .evMatrixIdle => Sys2Proof.Machine.execEvMatrixIdle s
  | .evIsleRampAdmit => Sys2Proof.Machine.execEvIsleRampAdmit s
  | .evRampStep => Sys2Proof.Machine.execEvRampStep s
  | .evPhaseComplete => Sys2Proof.Machine.execEvPhaseComplete s
  | .evCommunicatorFormed => Sys2Proof.Machine.execEvCommunicatorFormed s
  | .evCommunicatorBroken => Sys2Proof.Machine.execEvCommunicatorBroken s
  | .evChunkStart => Sys2Proof.Machine.execEvChunkStart s
  | .evChunkCombine => Sys2Proof.Machine.execEvChunkCombine s
  | .evSlotCloseTimeout => Sys2Proof.Machine.execEvSlotCloseTimeout s
  | .evRouterStep => Sys2Proof.Machine.execEvRouterStep s
  | .evDoneNotice => Sys2Proof.Machine.execEvDoneNotice s
  | .evCommit => Sys2Proof.Machine.execEvCommit s
  | .evMemberLost => Sys2Proof.Machine.execEvMemberLost s
  | .evNodePlace => Sys2Proof.Machine.execEvNodePlace s
  | .evNodeAging => Sys2Proof.Machine.execEvNodeAging s
  | .evNodeComplete => Sys2Proof.Machine.execEvNodeComplete s
  | .evHostWrite => Sys2Proof.Machine.execEvHostWrite s
  | .evHostRaisingWrite => Sys2Proof.Machine.execEvHostRaisingWrite s
  | .evHostChannelPublish => Sys2Proof.Machine.execEvHostChannelPublish s
  | .evHostTokenDeliver => Sys2Proof.Machine.execEvHostTokenDeliver s
  | .evHostSinkAck => Sys2Proof.Machine.execEvHostSinkAck s
  | .evUePacketReceive => Sys2Proof.Machine.execEvUePacketReceive s
  | .evUePortDown => Sys2Proof.Machine.execEvUePortDown s
  | .evStraitFlitReceive => Sys2Proof.Machine.execEvStraitFlitReceive s
  | .evNakReceive => Sys2Proof.Machine.execEvNakReceive s
  | .evCreditReturn => Sys2Proof.Machine.execEvCreditReturn s
  | .evEscapeVcDivert => Sys2Proof.Machine.execEvEscapeVcDivert s
  | .evWatchdogFirst => Sys2Proof.Machine.execEvWatchdogFirst s
  | .evWatchdogSecond => Sys2Proof.Machine.execEvWatchdogSecond s
  | .evEventPost => Sys2Proof.Machine.execEvEventPost s
  | .evTimerExpiry => Sys2Proof.Machine.execEvTimerExpiry s
  | .evPreemptMarkerForward => Sys2Proof.Machine.execEvPreemptMarkerForward s
  | .evRegionFrozen => Sys2Proof.Machine.execEvRegionFrozen s
  | .evPreemptTimeout => Sys2Proof.Machine.execEvPreemptTimeout s
  | .evKillDone => Sys2Proof.Machine.execEvKillDone s
  | .evPowerWindow => Sys2Proof.Machine.execEvPowerWindow s
  | .evThermalWarning => Sys2Proof.Machine.execEvThermalWarning s
  | .evThermalThrottle => Sys2Proof.Machine.execEvThermalThrottle s
  | .evThermalShutdown => Sys2Proof.Machine.execEvThermalShutdown s
  | .evUncorrectableError => Sys2Proof.Machine.execEvUncorrectableError s
  | .rcIllegalEncoding => Sys2Proof.Machine.execRcIllegalEncoding s
  | .evRemoteReply => Sys2Proof.Machine.execEvRemoteReply s
  | .evStraitLinkReturn => Sys2Proof.Machine.execEvStraitLinkReturn s
  | .evThermalThrottleRelease => Sys2Proof.Machine.execEvThermalThrottleRelease s
  | .evExtractFifoArrival => Sys2Proof.Machine.execEvExtractFifoArrival s

end Sys2Proof.Machine
end

