-- ==== Sys2Proof/Safety.lean ====
section
/-! DEFINITION. What counts as a safe run, and the vocabulary of the statements: what an instruction runs in, what differs between two states, and the
result that the lane frame of R15 gives. -/

namespace Sys2Proof.Machine

/-- The invariant of the machine: memory keeps its canonical form. -/
def State.Inv (s : State) : Prop := Memory.wf s.mem = true

/-- A step goes on. -/
def State.goesOn (s : State) : Prop := ∃ t, step s = .next t

/-! ## Cells -/

/-- The cell in focus runs a task, whose view of the machine is e (R24, R44). -/
structure State.Runs (s : State) (e : Env) : Prop where
  core : s.fcore = e.core
  cell : s.fcell = e.cell
  task : (s.cell e.core e.cell).running = some e.task
  draw : e.draw = (draws 16 (s.ctx e.core e.cell e.task.ctx).gen).1

/-- Nothing of the package differs but core k. -/
structure OnlyCore (s t : State) (k : Nat) : Prop where
  rest  : t = { s with cores := t.cores }
  cores : ∀ j, j ≠ k → t.core j = s.core j

/-- Nothing of the package differs but cell l of core k. -/
structure OnlyCell (s t : State) (k l : Nat) : Prop where
  rest  : t = { s with cores := t.cores }
  cores : ∀ j, j ≠ k → t.core j = s.core j
  core  : t.core k = { s.core k with cells := (t.core k).cells }
  cells : ∀ j, j ≠ l → t.cell k j = s.cell k j

/-- Nothing of the package differs but the region controller of core k. -/
structure OnlyRc (s t : State) (k : Nat) : Prop where
  rest  : t = { s with cores := t.cores }
  cores : ∀ j, j ≠ k → t.core j = s.core j
  core  : t.core k = { s.core k with rc := t.rc k }

/-- The context of the running task after an instruction that draws or not (R44). -/
def Ctx.after (c : Ctx) (draw : Bool) : Ctx := { c with gen := if draw then (draws 16 c.gen).2 else c.gen }

/-- What a value-producing instruction of len halfwords leaves (R14, R22, R23, R44): r is pushed and, where d is a register, written to d; the task goes to its
next instruction. Everything else of the package is as it was. -/
structure Wrote (s t : State) (e : Env) (len d : Nat) (draw : Bool) (r : Reg) : Prop where
  only : OnlyCell s t e.core e.cell
  cell : t.cell e.core e.cell =
    { s.cell e.core e.cell with
      l       := (r :: (s.cell e.core e.cell).l).take 4
      mains   := if 16 ≤ d ∧ d < 32 then (s.cell e.core e.cell).mains.set (s.mapEntry e.core e.cell e.task.ctx (d - 16)) r
                 else (s.cell e.core e.cell).mains
      ctxs    := (s.cell e.core e.cell).ctxs.modify e.task.ctx (fun c =>
                   { c.after draw with o := if 8 ≤ d ∧ d < 16 then c.o.set (d - 8) r else c.o })
      running := some { e.task with pc := e.task.pc + len } }

/-- What an instruction without a result leaves: the task has staged gs and goes to its next instruction, and its context has changed as upd says.
Everything else is as it was. -/
structure StagedBy (s t : State) (e : Env) (len : Nat) (draw : Bool) (upd : Ctx → Ctx) (gs : List Staged) : Prop where
  only : OnlyCell s t e.core e.cell
  cell : t.cell e.core e.cell =
    { s.cell e.core e.cell with
      ctxs    := (s.cell e.core e.cell).ctxs.modify e.task.ctx (fun c => (upd c).after draw)
      running := some { e.task with pc := e.task.pc + len, staged := e.task.staged ++ gs } }

/-- A token of a format, class, frame and iteration may enter an edge (R178): the destination expects the format, and inside a burst the tag is that of the
burst's first token. -/
def State.takes (s : State) (e : Env) (edge : Nat) (f : Fmt) (cls frame : Nat) (iter : W16) : Prop :=
  let w := s.edgeWord e.core e.cell e.task.ctx edge
  let b := s.burstState e.core e.cell e.task.ctx edge
  s.fmtFits w f = true ∧ (b.1 % ewBurst w = 0 ∨ b.2 = some (frame, iter, cls))

/-- The lane frame of R15: the operation in the lanes where every operand is valid, valid bits ANDed, poison ORed or raised by an exceptional lane, the
origin of the first poisoned operand or else the agent. -/
structure LaneResult (agent : Nat) (ops : List Reg) (fmt : Fmt) (xs : Nat) (op : Nat → Nat × Bool) (r : Reg) : Prop where
  fmt    : r.fmt = fmt
  xs     : r.xs = xs
  valid  : ∀ i, i < 16 → okAt r i = ops.all (fun o => okAt o i)
  lane   : ∀ i, i < 16 → laneOf r i = if ops.all (fun o => okAt o i) then (op i).1 % 2 ^ 32 else 0
  poison : r.p = (ops.any (fun o => o.p) || (List.range 16).any (fun i => ops.all (fun o => okAt o i) && (op i).2))
  origin : r.origin = if ops.any (fun o => o.p) then ((ops.find? (fun o => o.p)).map (fun o => o.origin)).getD 0 else if r.p then agent else 0

/-- A register given lane by lane: none is an invalid lane, which holds zero. -/
structure LanesAre (r : Reg) (fmt : Fmt) (xs : Nat) (p : Bool) (origin : Nat) (lane : Nat → Option Nat) : Prop where
  fmt    : r.fmt = fmt
  xs     : r.xs = xs
  poison : r.p = p
  origin : r.origin = if p then origin else 0
  valid  : ∀ i, i < 16 → okAt r i = (lane i).isSome
  lane   : ∀ i, i < 16 → laneOf r i = ((lane i).getD 0) % 2 ^ 32

/-- A value-producing instruction: its length in halfwords, destination, rounding mode, sources, and the register that it makes of them. -/
structure LaneRow where
  instr : Instr
  len   : Nat
  d     : Nat
  rm    : Nat
  srcs  : List Nat
  fmt   : Fmt
  xs    : Nat
  lane  : Nat → Nat → Nat × Bool

/-- The instruction completes: its result, which R15's lane frame gives with the lane function of (draw of the lane, lane), is written and pushed. -/
def LaneRow.Completes (w : LaneRow) (s : State) (e : Env) : Prop :=
  ∃ t r, exec w.instr s = .next t ∧ Wrote s t e w.len w.d (isDrawing w.rm w.srcs) r ∧
    LaneResult e.agent (s.sources e w.srcs) w.fmt w.xs (fun i => w.lane (e.rnd i) i) r

/-- A value-producing instruction whose result is given lane by lane. -/
structure RegRow where
  instr  : Instr
  len    : Nat
  d      : Nat
  rm     : Nat
  srcs   : List Nat
  fmt    : Fmt
  xs     : Nat
  p      : Bool
  origin : Nat
  lane   : Nat → Option Nat

/-- The instruction completes: the register with these lanes and marks is written and pushed. -/
def RegRow.Completes (w : RegRow) (s : State) (e : Env) : Prop :=
  ∃ t r, exec w.instr s = .next t ∧ Wrote s t e w.len w.d (isDrawing w.rm w.srcs) r ∧ LanesAre r w.fmt w.xs w.p w.origin w.lane

/-- ⟦x⟧ of chapter 09 on a float tag (R42, R43): rounded in mode rm with the lane's draw, saturating where s = 1. -/
def rounded (f : Fmt) (rm s rnd : Nat) (x : Ex) : Nat × Bool := roundEx f rm rnd (s == 1) false x

/-- An exact integer wrapped to the tag's width (R160); x = 1 makes a value out of range exceptional. -/
def wrapped (f : Fmt) (x : Nat) (v : Int) : Nat × Bool := (wrap f v, x == 1 && !inRange f v)

/-- The float value of lane i, the integer value of lane i under the register's tag (R38, R160). -/
def fAt (u : Reg) (i : Nat) : Val := fval u.fmt (elemOf u i)
def iAt (u : Reg) (i : Nat) : Int := intVal u.fmt (elemOf u i)

/-- An operation that is float or integer by the tag (R160). -/
def byTag (f : Fmt) (fop : Nat × Bool) (iop : Nat × Bool) : Nat × Bool := if isF f then fop else iop

/-- The tree of R53 over the 2^n lanes from lane j on: a pair of which one side has no valid lane passes the other side on. -/
def treeFrom (op : Nat → Nat → Nat → Nat × Bool) (v : Nat → Option Nat) : Nat → Nat → Option Nat × Bool
  | 0, j => (v j, false)
  | n + 1, j =>
    let a := treeFrom op v n j
    let b := treeFrom op v n (j + 2 ^ n)
    match a.1, b.1 with
    | some x, some y => ((op j x y).1, a.2 || b.2 || (op j x y).2)
    | some x, none => (some x, a.2 || b.2)
    | none, y => (y, a.2 || b.2)

/-- The left fold of R54 up to lane n: the value after the valid lanes 0 … n, none before the first, and whether any step was exceptional. -/
def foldTo (op : Nat → Nat → Nat → Nat × Bool) (v : Nat → Option Nat) : Nat → Option Nat × Bool
  | 0 => (v 0, false)
  | n + 1 =>
    let a := foldTo op v n
    match a.1, v (n + 1) with
    | some x, some y => ((op (n + 1) x y).1, a.2 || (op (n + 1) x y).2)
    | some x, none => (some x, a.2)
    | none, y => (y, a.2)

/-- Lane j of a register where it is valid: its element, its bits. -/
def elem? (u : Reg) (j : Nat) : Option Nat := if okAt u j then some (elemOf u j) else none
def bits? (u : Reg) (j : Nat) : Option Nat := if okAt u j then some (laneOf u j) else none

/-! ## Records (R118, R216) -/

/-- A change: a record whose lanes 0 to 4 are valid and whose v value words follow them; w is the width that its port declares, if one does. -/
def IsChange (w : Option Nat) (r : Reg) : Prop :=
  r.fmt = .rcd ∧ ∃ v, v ≤ 11 ∧ (∀ i, i < 16 → okAt r i = decide (i < 5 + v)) ∧ ∀ x, w = some x → x = v

/-- A null record: lanes 0 to 4 are invalid. -/
def IsNull (r : Reg) : Prop := r.fmt = .rcd ∧ ∀ i, i < 5 → okAt r i = false

/-- An operand that has a time: a change, or an N32 token with lanes 2 and 3 valid (R218, R219). -/
def HasTime (w : Option Nat) (r : Reg) : Prop := IsChange w r ∨ (r.fmt = .n32 ∧ okAt r 2 = true ∧ okAt r 3 = true)

/-- An operand that has none: a null record, or an N32 token with one of the lanes invalid. -/
def NoTime (r : Reg) : Prop := IsNull r ∨ (r.fmt = .n32 ∧ (okAt r 2 && okAt r 3) = false)

/-- The task of a cell ends (R177, R183): it runs no longer and counts as completed, with what it has staged or, dropped, with nothing staged. -/
structure Ended (s t : State) (e : Env) (drop : Bool) : Prop where
  running : (t.cell e.core e.cell).running = none
  done    : ∃ v, (t.cell e.core e.cell).done = (s.cell e.core e.cell).done ++ [v] ∧ v.serial = e.task.serial ∧ v.frame = e.task.frame ∧ v.iter = e.task.iter ∧
    v.staged = (if drop then [] else e.task.staged) ∧ v.dropped = (drop || e.task.dropped)

/-- The registers of every cell and every region controller are as they were. -/
structure SameRegs (s t : State) : Prop where
  l     : ∀ k l, (t.cell k l).l = (s.cell k l).l
  mains : ∀ k l, (t.cell k l).mains = (s.cell k l).mains
  o     : ∀ k l x, (t.ctx k l x).o = (s.ctx k l x).o
  gen   : ∀ k l x, (t.ctx k l x).gen = (s.ctx k l x).gen
  q     : ∀ k, (t.rc k).q = (s.rc k).q

/-- Memory is as it was but for n bytes from an address. -/
def MemBut (s t : State) (a n : Nat) : Prop := ∀ b, b < a ∨ a + n ≤ b → Memory.read t.mem b = Memory.read s.mem b

/-- The record that an agent of a core posts (R317, R319, R341): its source's next sequence number and the bytes of the fault. -/
def State.faultRecord (s : State) (sev kind core loc cause addr detail tag : Nat) : EvRec :=
  { queue := if sev = 3 then 16 else s.partAt core, kind := 0, source := agentId core loc, die := dieOf core, seq := (aget s.seqs (agentId core loc)).getD 0, time := s.time,
    body := (faultBody cause sev kind (s.stageAt core) detail (agentId core loc) addr tag ++ List.replicate 16 0).take 16, mayLose := sev == 0 }

/-- A cell instruction has faulted with severity info (R13, R177, R302): its record is posted, its task ends as dropped and counts as completed, no register
is written. -/
structure Faulted (s t : State) (e : Env) (kind cause : Nat) : Prop where
  posts : t.posts = s.posts ++ [s.faultRecord 0 kind e.core e.cell cause 0 0 e.task.tag]
  ended : Ended s t e true
  regs  : SameRegs s t

/-! ## Region controllers -/

/-- Nothing of the package changes but the executing region controller, and that as f says. -/
structure RcTo (s t : State) (f : Rc → Rc) : Prop where
  only : OnlyRc s t s.fcore
  rc   : t.rc s.fcore = f (s.rc s.fcore)

/-- The register of the executing controller; q0 reads as zero (R237). -/
def State.qv (s : State) (i : Nat) : W64 := if i = 0 then 0 else (s.rc s.fcore).q.getD i 0

/-- v is written to q[d], but for q0, which discards it, and the program counter is n bytes on (R237). -/
def Rc.put (d : Nat) (v : W64) (n : Nat) (r : Rc) : Rc := { r with q := if d = 0 then r.q else r.q.set d v, pc := r.pc + n }

/-- The program counter is n bytes on. -/
def Rc.skip (n : Nat) (r : Rc) : Rc := { r with pc := r.pc + n }

/-- f, and a wait for the controller's own accesses is over (R90, R100, R322). -/
def Rc.ready (f : Rc → Rc) (r : Rc) : Rc := { f r with waits := false }

/-- An RC instruction that writes v to q[d], n bytes long, and nothing else. -/
def State.Puts (s : State) (i : Instr) (d : Nat) (v : W64) (n : Nat) : Prop := ∃ t, exec i s = .next t ∧ RcTo s t (Rc.put d v n)

/-- An RC instruction that changes its controller as f says, and nothing else. -/
def State.Turns (s : State) (i : Instr) (f : Rc → Rc) : Prop := ∃ t, exec i s = .next t ∧ RcTo s t f

/-- The executing controller writes v to q[d] and is n bytes on; no other register of a controller or a cell differs. What is held elsewhere may come free (R335). -/
structure RegsTo (s t : State) (d : Nat) (v : W64) (n : Nat) : Prop where
  q     : ∀ k, (t.rc k).q = if k = s.fcore then (Rc.put d v n (s.rc k)).q else (s.rc k).q
  pc    : ∀ k, (t.rc k).pc = if k = s.fcore then (s.rc k).pc + n else (s.rc k).pc
  l     : ∀ k l, (t.cell k l).l = (s.cell k l).l
  mains : ∀ k l, (t.cell k l).mains = (s.cell k l).mains
  o     : ∀ k l x, (t.ctx k l x).o = (s.ctx k l x).o

/-! ## Accesses to scratchpad -/

/-- An access leaves the registers, tasks and controllers as they were: only memory and the records of the race checker and of ordering may differ. -/
structure Noted (s u : State) : Prop where
  rest  : u = { s with cores := u.cores, mem := u.mem }
  cells : ∀ k, (u.core k).cells = (s.core k).cells
  rc    : ∀ k, u.rc k = s.rc k

/-- No earlier access races with one of an agent handle of core k to n bytes (R94, R96): kind 0 a load, 1 a store, 2 an atomic of a size and scope. -/
def State.NoRace (s : State) (k handle core off n : Nat) (writes : Bool) (kind size scope : Nat) : Prop :=
  ∃ c, s.check core (s.agent k handle) writes kind size scope (wordsOf off n) = .ok c

/-- Bytes of an access by its size code: 8, 4, 2, 1 (R242). -/
def accessBytes (z : Nat) : Nat := 2 ^ (3 - z)

/-- An instruction of the executing controller that reads memory and then changes the controller as f says. -/
def State.Reads (s : State) (i : Instr) (f : Rc → Rc) : Prop := ∃ u t, exec i s = .next t ∧ Noted s u ∧ RcTo u t f ∧ t.mem = s.mem

/-- An instruction of the executing controller waits for the controller's own accesses (R90, R100). -/
def State.Awaits (s : State) (i : Instr) : Prop := s.Turns i (fun r => { r with waits := true })

/-- No far access of the executing controller to n bytes of a core's scratchpad is still in flight (R90). -/
def State.free90 (s : State) (core off n : Nat) : Prop := s.behindOwn ⟨0, s.fcore, 8⟩ core off n = false

/-- One that makes the bytes of n from an address A on those of v, and no other, and then changes the controller. -/
def State.Stores (s : State) (i : Instr) (f : Rc → Rc) (A n v : Nat) : Prop :=
  ∃ u t, exec i s = .next t ∧ Noted s u ∧ RcTo u t f ∧ (s.Inv → Memory.readN t.mem A n = leBytes n v ∧ MemBut s t A n)

/-! ## Faults of the region controller -/

/-- The region that a controller leads fails (R80, R240): its controller stops with its registers as they were. A running phase ends as for ABORTR, and its end is
the node's; where no phase runs, the node terminates at once and its cores are free. -/
structure Failing (s t : State) (lead : Nat) : Prop where
  mode    : (t.rc lead).mode = .stopped
  q       : (t.rc lead).q = (s.rc lead).q
  phase   : ∀ g, s.regionAt lead = some g → (s.rc lead).inPhase = true → (t.rc lead).inPhase = true ∧ (t.rc lead).aborting = true ∧ (t.rc lead).dying = true ∧ t.nodes = s.nodes ∧ t.regions = s.regions
  node    : ∀ g, s.regionAt lead = some g → (s.rc lead).inPhase = false → ∀ v, aget t.nodes g.node = some v → v.st = 4
  cores   : ∀ g, s.regionAt lead = some g → (s.rc lead).inPhase = false → ∀ r ∈ t.regions, r.lead ≠ lead

/-- A kernel-level instruction has faulted (R240, R305): the record is posted and the region fails. -/
structure RcFaulted (s t : State) (cause addr : Nat) : Prop extends Failing s t s.fcore where
  posts   : t.posts = s.posts ++ [s.faultRecord 2 1 s.fcore 48 cause addr 0 0]

/-- The record of a fault of a supervisor's or the manager's instruction, for the manager's queue (R305, R341). -/
def State.highRecord (s : State) (cause addr : Nat) : EvRec :=
  { s.faultRecord 2 1 s.fcore 48 cause addr 0 0 with
    queue := 16, die := dieOf s.fcore % 4, body := (faultBody cause 2 1 0 0 (agentId s.fcore 48) addr 0 ++ List.replicate 16 0).take 16 }

/-- A supervisor's or the manager's instruction has faulted (R305): the record goes to the manager's queue, the controller stops, and nothing else changes. -/
structure HighFaulted (s t : State) (cause addr : Nat) : Prop where
  posts : t.posts = s.posts ++ [s.highRecord cause addr]
  rc    : RcTo { s with posts := t.posts, seqs := t.seqs } t (fun r => { r with mode := .stopped })

/-- An instruction of the executing controller faults with a cause and an address. -/
def State.Stops (s : State) (i : Instr) (cause addr : Nat) : Prop :=
  ∃ t, exec i s = .next t ∧ ((s.rc s.fcore).level = 0 → RcFaulted s t cause addr) ∧ ((s.rc s.fcore).level ≠ 0 → HighFaulted s t cause addr)

/-- The executing controller changes as f says, every other controller and every cell as it was. -/
structure Goes (s t : State) (f : Rc → Rc) : Prop where
  rc    : ∀ k, t.rc k = if k = s.fcore then f (s.rc k) else s.rc k
  cells : ∀ k, (t.core k).cells = (s.core k).cells

/-- Only cores differ, and no controller but the executing one, which changes as f says, and no cell. -/
structure CoresGo (s t : State) (f : Rc → Rc) : Prop extends Goes s t f where
  rest : t = { s with cores := t.cores }

/-- The copy that CPY and its kin enter into the copy engine (R260, R261). -/
def State.newCopy (s : State) (kind : Nat) (out : Bool) (op tb : Nat) : Copy :=
  { kind := kind, out := out, node := (s.rc s.fcore).node, op := op, tb := tb, spad := 0, off := 0, n := 0, ring := 0, desc := 0 }

/-- The issue of a copy finds room in the clearance set of the copy engine (R103). -/
def State.mayIssue (s : State) (agent : Nat) : Prop := ((s.release s.fcore 8).1.acquire s.fcore agent (s.release s.fcore 8).2).2 = .ok ()

/-- Bytes of physical memory that stand as the firmware reads and writes them (R331, R351, R352): of a tier, in no metadata region, of no sealed tile. -/
def State.Open (s : State) (a n : Nat) : Prop :=
  ∀ i, i < n → ∃ base size region, s.tierOf (a + i) = some (base, size, region) ∧ a + i < base + size - region ∧
    ((s.tileMeta (a + i)).made = none ∨ (s.tileMeta (a + i)).altered = true)

/-! ## Memory cells and matrix engines -/

/-- The request that an instruction of the running task makes of its cell's port (R89, R92). -/
def State.heldReq (s : State) (e : Env) (need : Option Nat) (r : MemReq) : Held :=
  { req := r, need := need, time := s.time, serial := e.task.serial, ctx := e.task.ctx, cls := e.task.cls, frame := e.task.frame, iter := e.task.iter }

/-- The state after a request has entered a port: the task is at its next instruction, and the credit of a reply is the request's (R61). -/
def State.asked (s : State) (e : Env) (draw : Bool) (h : Held) : State :=
  (((s.drawn e draw).modCell e.core e.cell (fun c => { c with held := c.held ++ [h] })).modCell e.core e.cell
    (fun c => { c with running := c.running.map (·.askReply h.req) })).advance e.core e.cell 2

/-- The request of an instruction waits at the port: what it performs comes later. -/
def State.Holds (s : State) (e : Env) (i : Instr) (draw : Bool) (h : Held) : Prop := exec i s = .next (s.asked e draw h)

/-- The request of an instruction leaves the port at once and performs; of a straddling store one half, while the other stands in the port (R85). -/
def State.Performs (s : State) (e : Env) (i : Instr) (draw : Bool) (h : Held) : Prop :=
  ∀ u r, (s.asked e draw h).perform e.core e.cell h = (u, .ok r) → (u.cell e.core e.cell).held = [h] →
    exec i s = .next (u.modCell e.core e.cell (fun c => { c with held := match r with | none => [] | some q => [{ h with req := q, need := none }] }))

/-- No access of the cell's agent has to wait: none of its remote atomics that acquire is in flight (R192), nor a remote access of it to one of these bytes
(R90). -/
def State.flows (s : State) (e : Env) (hs : List Half) : Prop := s.mustWait e.core e.cell hs = false

/-- A word of an earlier access of the phase races with a new one (R94, R95, R98): its agent is another, the agent has not acquired its count, and they are not atomics of one size and scope. -/
def AccRec.RacesWith (r : AccRec) (a : Agent) (kind size scope : Nat) : Prop :=
  r.key ≠ a.key ∧ Clr.get a.clr r.key ≤ r.count ∧ ¬(kind = 2 ∧ r.kind = 2 ∧ r.size = size ∧ r.scope = scope)

/-- The matrix engine of a core runs an instance, at whose ports the operands of its next pass stand (R203, R204). -/
structure State.MatrixRuns (s : State) (k : Nat) (i : Instr) (r : MInst) : Prop where
  run      : (s.matrix k).run = some r
  admitted : (s.matrix k).admitted = true
  a        : operandsAt true r.tag (matUse r.mask.length i).af (matUse r.mask.length i).a ((s.matrix k).fifo 0) = .ok true
  b        : (matUse r.mask.length i).b = 0 ∨ operandsAt true r.tag (matUse r.mask.length i).bf (matUse r.mask.length i).b ((s.matrix k).fifo 1) = .ok true

/-- The first n tokens of a port of a matrix engine. -/
def State.matrixToks (s : State) (k p n : Nat) : List Token := (((s.matrix k).fifo p).take n).map (·.tok)

/-- One pass of an instance is done: the tokens are taken, the tiles of a block of n are as f says and the others as they were, the instance goes to its next pass or ends; nothing but the engine
changes. -/
structure Passed (s t : State) (k : Nat) (i : Instr) (r : MInst) (acc n : Nat) (f : Nat → Tile → Tile) : Prop where
  rest  : t = { s with cores := t.cores, freeNo := t.freeNo }
  core  : t.core k = { s.core k with matrix := t.matrix k }
  cores : ∀ j, j ≠ k → t.core j = s.core j
  tiles : ∀ j, j < n → (t.matrix k).tile (acc + j) = f j ((s.matrix k).tile (acc + j))
  other : ∀ j, j < acc ∨ acc + n ≤ j → (t.matrix k).tile j = (s.matrix k).tile j
  fifoA : (t.matrix k).fifo 0 = ((s.matrix k).fifo 0).drop (matUse r.mask.length i).a
  run   : (t.matrix k).run = if r.kstep + 1 < (matUse r.mask.length i).passes then some { r with kstep := r.kstep + 1 } else none

/-! ## Events -/

/-- A cell has a context and in it a port, an output edge. -/
def State.HasPort (s : State) (k l x p : Nat) : Prop := l < 32 ∧ x < (s.cell k l).ctxs.length ∧ p < (s.ctx k l x).ports.length
def State.HasEdge (s : State) (k l x e : Nat) : Prop := l < 32 ∧ x < (s.cell k l).ctxs.length ∧ e < (s.ctx k l x).edges.length

/-- The tokens at a port. -/
def State.fifoAt (s : State) (k l x p : Nat) : List PortTok := (s.port k l x p).fifo

/-- A token has joined a port's FIFO at its end, with its header, the edge that it came on and its place in the order of arrivals. -/
def JoinedAt (s t : State) (d : Dest) (key : Nat) (tok : Token) : Prop :=
  ∃ q, t.fifoAt d.core d.loc d.ctx d.port = s.fifoAt d.core d.loc d.ctx d.port ++ [q] ∧ q.tok.kind = tok.kind ∧ q.tok.iter = tok.iter ∧ q.tok.frame = tok.frame ∧ q.tok.cls = tok.cls ∧
    q.srcE = key ∧ q.arr = (s.cell d.core d.loc).arr

/-- A token has joined an edge, with the header that the edge gives it (R178). -/
def SentOn (s t : State) (k l x e : Nat) (tok : Token) : Prop :=
  (t.edge k l x e).flight = (s.edge k l x e).flight ++ [(s.edge k l x e).stamp (s.edgeWord k l x e) tok]

/-- The record that a unit of a die posts: a walker or scheduler, a link port, a system unit (R317, R319, R341). -/
def State.unitRecord (s : State) (queue sev kind die inst cause addr detail : Nat) : EvRec :=
  { queue := if sev = 3 then 16 else queue, kind := 0, source := unitKey kind die inst, die := die, seq := (aget s.seqs (unitKey kind die inst)).getD 0, time := s.time,
    body := (faultBody cause sev kind 0 detail (die + inst * 4) addr 0 ++ List.replicate 16 0).take 16, mayLose := sev == 0 }

/-- An event posts one record and changes a part of the state as `rest` says. -/
def State.Posts (s : State) (i : Instr) (r : EvRec) (rest : State → Prop) : Prop := ∃ u, exec i s = .next u ∧ u.posts = s.posts ++ [r] ∧ rest u


/-- The record that a die's context sequencer posts about a region (R319): PREEMPT_DONE, KILL_DONE. -/
def State.seqRecord (s : State) (kind : Nat) (g : Region) (rest : List Byte) : EvRec :=
  { queue := g.part, kind := kind, source := sequencerKey (dieOf g.lead), die := dieOf g.lead, seq := (aget s.seqs (sequencerKey (dieOf g.lead))).getD 0, time := s.time,
    body := (leBytes 2 (regionHandle g.lead) ++ rest ++ List.replicate 16 0).take 16, mayLose := false }

/-- A region begins to drain (R321, R322): no cell has passed a marker on, and once no CFG is in progress a marker of a subkind stands in every in-use port
that no unit of the region feeds. -/
structure Drains (s t : State) (g : Region) (sub : Nat) : Prop where
  st     : ∀ r ∈ t.regions, r.lead = g.lead → r.st = .draining ∧ r.pending = false ∧ r.marked = decide ((s.rc g.lead).loads = [])
  passed : ∀ k ∈ g.coreList, ∀ l, (t.cell k l).passed = false
  marks  : (s.rc g.lead).loads = [] → ∀ k ∈ g.coreList, ∀ l x p, s.HasPort k l x p → (x, p) ∈ s.cellPorts k l → forwardsMarks g.coreList k l (pwSrc (s.portWord k l x p)) = false →
    ∃ q, t.fifoAt k l x p = s.fifoAt k l x p ++ [q] ∧ q.tok.kind = .mark ∧ q.tok.cls = sub

end Sys2Proof.Machine
end

