-- ==== Sys2Proof/WellFormed.lean ====
section
/-! DEFINITION. Well-formed instructions: every field fits the width that the encoding gives it, and the validator refuses none of its
fields for itself (R136 to R147). -/

namespace Sys2Proof

/-- Every field fits its place in the words of R135, R137, R145 and R147; an event has no encoding. -/
def Instr.fits : Instr → Bool
  | .add d a b r s x => decide (d < 64) && decide (a < 64) && decide (b < 64) && decide (r < 8) && decide (s < 2) && decide (x < 2)
  | .sub d a b r s x => decide (d < 64) && decide (a < 64) && decide (b < 64) && decide (r < 8) && decide (s < 2) && decide (x < 2)
  | .mul d a b r s x => decide (d < 64) && decide (a < 64) && decide (b < 64) && decide (r < 8) && decide (s < 2) && decide (x < 2)
  | .fma d a b r s => decide (d < 64) && decide (a < 64) && decide (b < 64) && decide (r < 8) && decide (s < 2)
  | .fms d a b r s => decide (d < 64) && decide (a < 64) && decide (b < 64) && decide (r < 8) && decide (s < 2)
  | .fnma d a b r s => decide (d < 64) && decide (a < 64) && decide (b < 64) && decide (r < 8) && decide (s < 2)
  | .min d a b => decide (d < 64) && decide (a < 64) && decide (b < 64)
  | .max d a b => decide (d < 64) && decide (a < 64) && decide (b < 64)
  | .abs d a => decide (d < 64) && decide (a < 64)
  | .negOp d a => decide (d < 64) && decide (a < 64)
  | .div d a b r s => decide (d < 64) && decide (a < 64) && decide (b < 64) && decide (r < 8) && decide (s < 2)
  | .adds d a b => decide (d < 64) && decide (a < 64) && decide (b < 64)
  | .subs d a b => decide (d < 64) && decide (a < 64) && decide (b < 64)
  | .mulh d a b => decide (d < 64) && decide (a < 64) && decide (b < 64)
  | .addi d a i => decide (d < 64) && decide (a < 64) && decide (i < 2048)
  | .muli d a i => decide (d < 64) && decide (a < 64) && decide (i < 2048)
  | .andOp d a b => decide (d < 64) && decide (a < 64) && decide (b < 64)
  | .orOp d a b => decide (d < 64) && decide (a < 64) && decide (b < 64)
  | .xor d a b => decide (d < 64) && decide (a < 64) && decide (b < 64)
  | .notOp d a => decide (d < 64) && decide (a < 64)
  | .shl d a b => decide (d < 64) && decide (a < 64) && decide (b < 64)
  | .shr d a b => decide (d < 64) && decide (a < 64) && decide (b < 64)
  | .sha d a b => decide (d < 64) && decide (a < 64) && decide (b < 64)
  | .rot d a b => decide (d < 64) && decide (a < 64) && decide (b < 64)
  | .clz d a => decide (d < 64) && decide (a < 64)
  | .popc d a => decide (d < 64) && decide (a < 64)
  | .andi d a i => decide (d < 64) && decide (a < 64) && decide (i < 2048)
  | .ori d a i => decide (d < 64) && decide (a < 64) && decide (i < 2048)
  | .shli d a i => decide (d < 64) && decide (a < 64) && decide (i < 2048)
  | .shri d a i => decide (d < 64) && decide (a < 64) && decide (i < 2048)
  | .shai d a i => decide (d < 64) && decide (a < 64) && decide (i < 2048)
  | .bfx d a x w l => decide (d < 64) && decide (a < 64) && decide (x < 2) && decide (w < 32) && decide (l < 32)
  | .rcp d a r s => decide (d < 64) && decide (a < 64) && decide (r < 8) && decide (s < 2)
  | .rsq d a r s => decide (d < 64) && decide (a < 64) && decide (r < 8) && decide (s < 2)
  | .sqrt d a r s => decide (d < 64) && decide (a < 64) && decide (r < 8) && decide (s < 2)
  | .exp2 d a r s => decide (d < 64) && decide (a < 64) && decide (r < 8) && decide (s < 2)
  | .log2 d a r s => decide (d < 64) && decide (a < 64) && decide (r < 8) && decide (s < 2)
  | .tanh d a r s => decide (d < 64) && decide (a < 64) && decide (r < 8) && decide (s < 2)
  | .sinp d a r s => decide (d < 64) && decide (a < 64) && decide (r < 8) && decide (s < 2)
  | .cosp d a r s => decide (d < 64) && decide (a < 64) && decide (r < 8) && decide (s < 2)
  | .cmp d a b c => decide (d < 64) && decide (a < 64) && decide (b < 64) && decide (c < 8)
  | .setv d a b => decide (d < 64) && decide (a < 64) && decide (b < 64)
  | .sel d a b => decide (d < 64) && decide (a < 64) && decide (b < 64)
  | .cntv d a => decide (d < 64) && decide (a < 64)
  | .firstv d a => decide (d < 64) && decide (a < 64)
  | .classOp d a => decide (d < 64) && decide (a < 64)
  | .cpsgn d a b => decide (d < 64) && decide (a < 64) && decide (b < 64)
  | .rndi d a r => decide (d < 64) && decide (a < 64) && decide (r < 8)
  | .cvt d a f r s => decide (d < 64) && decide (a < 64) && decide (f < 16) && decide (r < 8) && decide (s < 2)
  | .qnt d a f r => decide (d < 64) && decide (a < 64) && decide (f < 16) && decide (r < 8)
  | .dqn d a f r s => decide (d < 64) && decide (a < 64) && decide (f < 16) && decide (r < 8) && decide (s < 2)
  | .xsc d a b r => decide (d < 64) && decide (a < 64) && decide (b < 64) && decide (r < 8)
  | .shuf d a b => decide (d < 64) && decide (a < 64) && decide (b < 64)
  | .bcast d a i => decide (d < 64) && decide (a < 64) && decide (i < 2048)
  | .rotl d a i => decide (d < 64) && decide (a < 64) && decide (i < 2048)
  | .redl d a b r s => decide (d < 64) && decide (a < 64) && decide (b < 64) && decide (r < 8) && decide (s < 2)
  | .scanl d a b r s => decide (d < 64) && decide (a < 64) && decide (b < 64) && decide (r < 8) && decide (s < 2)
  | .iota d i => decide (d < 64) && decide (i < 2048)
  | .mov d a => decide (d < 64) && decide (a < 64)
  | .movi d i => decide (d < 64) && decide (i < 131072)
  | .movh d i => decide (d < 64) && decide (i < 65536)
  | .ldc d n => decide (d < 64) && decide (n < 131072)
  | .tagrd d k f => decide (d < 64) && decide (k < 4) && decide (f < 16)
  | .fmts d a f => decide (d < 64) && decide (a < 64) && decide (f < 16)
  | .emit e s c t g => decide (e < 8) && decide (s < 64) && decide (c < 16) && decide (t < 8) && decide (g < 128)
  | .emitv e s c t p => decide (e < 8) && decide (s < 64) && decide (c < 16) && decide (t < 8) && decide (p < 64)
  | .steer e s c t x p => decide (e < 8) && decide (s < 64) && decide (c < 16) && decide (t < 8) && decide (x < 2) && decide (p < 64)
  | .merge d a b x => decide (d < 64) && decide (a < 64) && decide (b < 64) && decide (x < 2)
  | .emeos e => decide (e < 8)
  | .fwdm e => decide (e < 8)
  | .call e s c r k => decide (e < 8) && decide (s < 64) && decide (c < 16) && decide (r < 8) && decide (k < 16)
  | .ret s x => decide (s < 64) && decide (x < 2)
  | .filt d a b x => decide (d < 64) && decide (a < 64) && decide (b < 64) && decide (x < 2)
  | .coal d a => decide (d < 64) && decide (a < 64)
  | .flushc d => decide (d < 64)
  | .pchk d a => decide (d < 64) && decide (a < 64)
  | .trapc a i => decide (a < 64) && decide (i < 2048)
  | .lds d a f p => decide (d < 64) && decide (a < 64) && decide (f < 16) && decide (p < 2)
  | .sts d a o h q p => decide (d < 64) && decide (a < 64) && decide (o < 8) && decide (h < 2) && decide (q < 2) && decide (p < 2)
  | .ldx d a f => decide (d < 64) && decide (a < 64) && decide (f < 16)
  | .stx d a o h => decide (d < 64) && decide (a < 64) && decide (o < 8) && decide (h < 2)
  | .atom d a s r p z => decide (d < 64) && decide (a < 64) && decide (s < 4) && decide (r < 4) && decide (p < 16) && decide (z < 2)
  | .lde a o f h p n => decide (a < 64) && decide (o < 8) && decide (f < 16) && decide (h < 2) && decide (p < 2) && decide (n < 4)
  | .ste d a o h p => decide (d < 64) && decide (a < 64) && decide (o < 8) && decide (h < 2) && decide (p < 2)
  | .ordt a o => decide (a < 64) && decide (o < 8)
  | .fencem s r => decide (s < 4) && decide (r < 4)
  | .cmpr d a => decide (d < 64) && decide (a < 64)
  | .expd d a o h => decide (d < 64) && decide (a < 64) && decide (o < 8) && decide (h < 2)
  | .rput d a o h j => decide (d < 64) && decide (a < 64) && decide (o < 8) && decide (h < 2) && decide (j < 8)
  | .rget d a f j => decide (d < 64) && decide (a < 64) && decide (f < 16) && decide (j < 8)
  | .rfree a => decide (a < 64)
  | .tbarv a o h => decide (a < 64) && decide (o < 8) && decide (h < 2)
  | .tbtst d a => decide (d < 64) && decide (a < 64)
  | .rmk d a b => decide (d < 64) && decide (a < 64) && decide (b < 64)
  | .tjoin d a b => decide (d < 64) && decide (a < 64) && decide (b < 64)
  | .tmeet d a b => decide (d < 64) && decide (a < 64) && decide (b < 64)
  | .tle d a b => decide (d < 64) && decide (a < 64) && decide (b < 64)
  | .tadv d a b => decide (d < 64) && decide (a < 64) && decide (b < 64)
  | .hins a h => decide (a < 64) && decide (h < 16)
  | .hseek a h e => decide (a < 64) && decide (h < 16) && decide (e < 8)
  | .hjoin a h e => decide (a < 64) && decide (h < 16) && decide (e < 8)
  | .hred d a h v => decide (d < 64) && decide (a < 64) && decide (h < 16) && decide (v < 16)
  | .hcons h => decide (h < 16)
  | .hcomp a h => decide (a < 64) && decide (h < 16)
  | .fnrd d i => decide (d < 64) && decide (i < 2048)
  | .fnput e s => decide (e < 8) && decide (s < 64)
  | .scope d a b => decide (d < 64) && decide (a < 64) && decide (b < 64)
  | .rhash d a i => decide (d < 64) && decide (a < 64) && decide (i < 2048)
  | .rneg d a => decide (d < 64) && decide (a < 64)
  | .cAdd d a b => decide (d < 8) && decide (a < 16) && decide (b < 16)
  | .cSub d a b => decide (d < 8) && decide (a < 16) && decide (b < 16)
  | .cMul d a b => decide (d < 8) && decide (a < 16) && decide (b < 16)
  | .cFma d a b => decide (d < 8) && decide (a < 16) && decide (b < 16)
  | .cMin d a b => decide (d < 8) && decide (a < 16) && decide (b < 16)
  | .cMax d a b => decide (d < 8) && decide (a < 16) && decide (b < 16)
  | .cAnd d a b => decide (d < 8) && decide (a < 16) && decide (b < 16)
  | .cOr d a b => decide (d < 8) && decide (a < 16) && decide (b < 16)
  | .cXor d a b => decide (d < 8) && decide (a < 16) && decide (b < 16)
  | .cMov d a => decide (d < 8) && decide (a < 16)
  | .cNeg d a => decide (d < 8) && decide (a < 16)
  | .cAbs d a => decide (d < 8) && decide (a < 16)
  | .cExp2 d a => decide (d < 8) && decide (a < 16)
  | .cRcp d a => decide (d < 8) && decide (a < 16)
  | .cRsq d a => decide (d < 8) && decide (a < 16)
  | .cRedl d a => decide (d < 8) && decide (a < 16)
  | .cSel d a b => decide (d < 8) && decide (a < 16) && decide (b < 16)
  | .cBcast d a n => decide (d < 8) && decide (a < 16) && decide (n < 16)
  | .cShl d a b => decide (d < 8) && decide (a < 16) && decide (b < 16)
  | .cShr d a b => decide (d < 8) && decide (a < 16) && decide (b < 16)
  | .cEmit e s c => decide (e < 8) && decide (s < 16) && decide (c < 16)
  | .cSetv d a b => decide (d < 8) && decide (a < 16) && decide (b < 16)
  | .mma mt nt kt acc afmt bfmt trig => decide (mt < 8) && decide (nt < 8) && decide (kt < 256) && decide (acc < 64) && decide (afmt < 16) && decide (bfmt < 16) && decide (trig < 16)
  | .mmaz mt nt kt acc afmt bfmt trig => decide (mt < 8) && decide (nt < 8) && decide (kt < 256) && decide (acc < 64) && decide (afmt < 16) && decide (bfmt < 16) && decide (trig < 16)
  | .mmat mt nt kt acc afmt bfmt trig => decide (mt < 8) && decide (nt < 8) && decide (kt < 256) && decide (acc < 64) && decide (afmt < 16) && decide (bfmt < 16) && decide (trig < 16)
  | .mmag mt nt kt acc afmt bfmt trig => decide (mt < 8) && decide (nt < 8) && decide (kt < 256) && decide (acc < 64) && decide (afmt < 16) && decide (bfmt < 16) && decide (trig < 16)
  | .accz mt nt acc trig => decide (mt < 8) && decide (nt < 8) && decide (acc < 64) && decide (trig < 16)
  | .accrd mt nt acc rm trig sat q ofmt => decide (mt < 8) && decide (nt < 8) && decide (acc < 64) && decide (rm < 8) && decide (trig < 16) && decide (sat < 2) && decide (q < 2) && decide (ofmt < 16)
  | .accwr mt nt acc afmt trig => decide (mt < 8) && decide (nt < 8) && decide (acc < 64) && decide (afmt < 16) && decide (trig < 16)
  | .accax mt nt acc afmt bfmt rm trig => decide (mt < 8) && decide (nt < 8) && decide (acc < 64) && decide (afmt < 16) && decide (bfmt < 16) && decide (rm < 8) && decide (trig < 16)
  | .rcAdd d a b => decide (d < 32) && decide (a < 32) && decide (b < 32)
  | .rcSub d a b => decide (d < 32) && decide (a < 32) && decide (b < 32)
  | .rcMul d a b => decide (d < 32) && decide (a < 32) && decide (b < 32)
  | .rcMulh d a b => decide (d < 32) && decide (a < 32) && decide (b < 32)
  | .rcAnd d a b => decide (d < 32) && decide (a < 32) && decide (b < 32)
  | .rcOr d a b => decide (d < 32) && decide (a < 32) && decide (b < 32)
  | .rcXor d a b => decide (d < 32) && decide (a < 32) && decide (b < 32)
  | .rcShl d a b => decide (d < 32) && decide (a < 32) && decide (b < 32)
  | .rcShr d a b => decide (d < 32) && decide (a < 32) && decide (b < 32)
  | .rcSha d a b => decide (d < 32) && decide (a < 32) && decide (b < 32)
  | .rcSlt d a b => decide (d < 32) && decide (a < 32) && decide (b < 32)
  | .rcSltn d a b => decide (d < 32) && decide (a < 32) && decide (b < 32)
  | .rcMin d a b => decide (d < 32) && decide (a < 32) && decide (b < 32)
  | .rcMax d a b => decide (d < 32) && decide (a < 32) && decide (b < 32)
  | .rcAddi d a i => decide (d < 32) && decide (a < 32) && decide (i < 32768)
  | .rcAndi d a i => decide (d < 32) && decide (a < 32) && decide (i < 32768)
  | .rcLd d a z o => decide (d < 32) && decide (a < 32) && decide (z < 4) && decide (o < 8192)
  | .rcSt d a z o => decide (d < 32) && decide (a < 32) && decide (z < 4) && decide (o < 8192)
  | .rcAmo d a b z r s p => decide (d < 32) && decide (a < 32) && decide (b < 32) && decide (z < 2) && decide (r < 4) && decide (s < 4) && decide (p < 16)
  | .rcCas d a b z r s => decide (d < 32) && decide (a < 32) && decide (b < 32) && decide (z < 2) && decide (r < 4) && decide (s < 4)
  | .rcFence r s => decide (r < 4) && decide (s < 4)
  | .rcMovk d a i => decide (d < 32) && decide (a < 32) && decide (i < 32768)
  | .rcRds d i => decide (d < 32) && decide (i < 32768)
  | .rcWrs a i => decide (a < 32) && decide (i < 32768)
  | .rcRdfn d c e f => decide (d < 32) && decide (c < 2) && decide (e < 4) && decide (f < 8)
  | .rcOri d a i => decide (d < 32) && decide (a < 32) && decide (i < 32768)
  | .rcShli d a i => decide (d < 32) && decide (a < 32) && decide (i < 32768)
  | .rcShri d a i => decide (d < 32) && decide (a < 32) && decide (i < 32768)
  | .rcBeq a b o => decide (a < 32) && decide (b < 32) && decide (o < 32768)
  | .rcBne a b o => decide (a < 32) && decide (b < 32) && decide (o < 32768)
  | .rcBlt a b o => decide (a < 32) && decide (b < 32) && decide (o < 32768)
  | .rcBge a b o => decide (a < 32) && decide (b < 32) && decide (o < 32768)
  | .rcBltn a b o => decide (a < 32) && decide (b < 32) && decide (o < 32768)
  | .rcBgen a b o => decide (a < 32) && decide (b < 32) && decide (o < 32768)
  | .rcJmp o => decide (o < 2 ^ 20)
  | .rcJal d o => decide (d < 32) && decide (o < 2 ^ 20)
  | .rcJr d a => decide (d < 32) && decide (a < 32)
  | .rcLoop c o => decide (c < 32) && decide (o < 32768)
  | .rcBst d a s i => decide (d < 32) && decide (a < 32) && decide (s < 4) && decide (i < 32)
  | .rcWaite d i => decide (d < 32) && decide (i < 32768)
  | .rcTrap i => decide (i < 32768)
  | .rcSys d a i => decide (d < 32) && decide (a < 32) && decide (i < 32768)
  | .rcCfg ext => decide (ext < 2 ^ 32)
  | .rcIter a n => decide (a < 32) && decide (n < 4)
  | .rcSpec d ext => decide (d < 32) && decide (ext < 2 ^ 32)
  | .rcWaitr d => decide (d < 32)
  | .rcPstat d => decide (d < 32)
  | .rcBarc a => decide (a < 32)
  | .rcInj d a b => decide (d < 32) && decide (a < 32) && decide (b < 32)
  | .rcXtr d a => decide (d < 32) && decide (a < 32)
  | .rcCpy r a b t p => decide (r < 2) && decide (a < 32) && decide (b < 32) && decide (t < 32) && decide (p < 8)
  | .rcCpyr r a b t p => decide (r < 2) && decide (a < 32) && decide (b < 32) && decide (t < 32) && decide (p < 8)
  | .rcCpyg a b t p => decide (a < 32) && decide (b < 32) && decide (t < 32) && decide (p < 8)
  | .rcCpyx a b t p => decide (a < 32) && decide (b < 32) && decide (t < 32) && decide (p < 8)
  | .rcCpys a b t p => decide (a < 32) && decide (b < 32) && decide (t < 32) && decide (p < 8)
  | .rcTbi a t => decide (a < 32) && decide (t < 32)
  | .rcTbw t => decide (t < 32)
  | .rcTbex a t => decide (a < 32) && decide (t < 32)
  | .rcShd d p => decide (d < 32) && decide (p < 8)
  | .rcPub d p => decide (d < 32) && decide (p < 8)
  | .rcDisc p => decide (p < 8)
  | .rcCpst d t => decide (d < 32) && decide (t < 32)
  | .rcNdsub d a => decide (d < 32) && decide (a < 32)
  | .rcNddep d a b => decide (d < 32) && decide (a < 32) && decide (b < 32)
  | .rcNdwait d a => decide (d < 32) && decide (a < 32)
  | .rcNdstat d a => decide (d < 32) && decide (a < 32)
  | .rcComm d a => decide (d < 32) && decide (a < 32)
  | .rcColl d a b p o => decide (d < 32) && decide (a < 32) && decide (b < 32) && decide (p < 16) && decide (o < 16)
  | .rcCwait d a => decide (d < 32) && decide (a < 32)
  | .rcCstat d a => decide (d < 32) && decide (a < 32)
  | .rcCsel a b => decide (a < 32) && decide (b < 32)
  | .rcLi d ext => decide (d < 32) && decide (ext < 2 ^ 32)
  | .rcLih d ext => decide (d < 32) && decide (ext < 2 ^ 32)
  | .rcJl d ext => decide (d < 32) && decide (ext < 2 ^ 32)
  | .rcMtp a b f => decide (a < 32) && decide (b < 32) && decide (f < 1024)
  | .rcMfp d a f => decide (d < 32) && decide (a < 32) && decide (f < 1024)
  | .rcTlbi a => decide (a < 32)
  | .rcTlbiRange a b => decide (a < 32) && decide (b < 32)
  | .rcCtxs d a b => decide (d < 32) && decide (a < 32) && decide (b < 32)
  | .rcCtxr d a b => decide (d < 32) && decide (a < 32) && decide (b < 32)
  | .rcKill a => decide (a < 32)
  | .rcPrmt a => decide (a < 32)
  | .rcSealk d a b => decide (d < 32) && decide (a < 32) && decide (b < 32)
  | .rcSealkRet a => decide (a < 32)
  | .rcSealkCur a => decide (a < 32)
  | .rcScrub d a b => decide (d < 32) && decide (a < 32) && decide (b < 32)
  | .rcMigr d a b => decide (d < 32) && decide (a < 32) && decide (b < 32)
  | .rcCkpt d a => decide (d < 32) && decide (a < 32)
  | .rcRstr d a => decide (d < 32) && decide (a < 32)
  | .rcAttest d a b => decide (d < 32) && decide (a < 32) && decide (b < 32)
  | .rcAttestAcc a b => decide (a < 32) && decide (b < 32)
  | .rcAttestClose a => decide (a < 32)
  | .rcRets a b => decide (a < 32) && decide (b < 32)
  | .rcPartCreate d a b => decide (d < 32) && decide (a < 32) && decide (b < 32)
  | .rcPartDestroy d a b => decide (d < 32) && decide (a < 32) && decide (b < 32)
  | .rcPartRead d a b => decide (d < 32) && decide (a < 32) && decide (b < 32)
  | .rcEvtq a b => decide (a < 32) && decide (b < 32)
  | .rcEvtqWait d => decide (d < 32)
  | .dropOp => true
  | .endOp => true
  | .freef => true
  | .cEnd => true
  | .cDrop => true
  | .rcEndl => true
  | .rcHalt => true
  | .rcCfgw => true
  | .rcGo => true
  | .rcAbortr => true
  | .rcPin => true
  | .rcTlbiAll => true
  | .rcKillPart => true
  | .rcPrmtPart => true
  | .evPowerOnReset => true
  | .evDataTokenArrival => true
  | .evEosArrival => true
  | .evMarkArrival => true
  | .evNoticeArrival => true
  | .evTaskAdmit => true
  | .evTaskDispatch => true
  | .evStagedTokenRelease => true
  | .evEosForward => true
  | .evSinkEosCount => true
  | .evMarkerSlotFill => true
  | .evFrontierAdvance => true
  | .evArbiterWeightRecompute => true
  | .evFrameWaitTimeout => true
  | .evReturnArrival => true
  | .evCfgLoadApply => true
  | .evGeneratorPoint => true
  | .evBarcPoint => true
  | .evOrderingTokenArrival => true
  | .evVoidSlotFree => true
  | .evCopyOutSlotTake => true
  | .evSectorLanding => true
  | .evRemoteAccessArrival => true
  | .evRemoteStoreCompletion => true
  | .evHistoryCommandAccept => true
  | .evHistoryCommandApply => true
  | .evHistoryFrontierAdvance => true
  | .evHistoryEosPass => true
  | .evBucketSpill => true
  | .evBucketFill => true
  | .evMatrixInstanceStart => true
  | .evMatrixEos => true
  | .evMatrixPreemptSave => true
  | .evMatrixIdle => true
  | .evIsleRampAdmit => true
  | .evRampStep => true
  | .evPhaseComplete => true
  | .evCommunicatorFormed => true
  | .evCommunicatorBroken => true
  | .evChunkStart => true
  | .evChunkCombine => true
  | .evSlotCloseTimeout => true
  | .evRouterStep => true
  | .evDoneNotice => true
  | .evCommit => true
  | .evMemberLost => true
  | .evNodePlace => true
  | .evNodeAging => true
  | .evNodeComplete => true
  | .evHostWrite => true
  | .evHostRaisingWrite => true
  | .evHostChannelPublish => true
  | .evHostTokenDeliver => true
  | .evHostSinkAck => true
  | .evUePacketReceive => true
  | .evUePortDown => true
  | .evStraitFlitReceive => true
  | .evNakReceive => true
  | .evCreditReturn => true
  | .evEscapeVcDivert => true
  | .evWatchdogFirst => true
  | .evWatchdogSecond => true
  | .evEventPost => true
  | .evTimerExpiry => true
  | .evPreemptMarkerForward => true
  | .evRegionFrozen => true
  | .evPreemptTimeout => true
  | .evKillDone => true
  | .evPowerWindow => true
  | .evThermalWarning => true
  | .evThermalThrottle => true
  | .evThermalShutdown => true
  | .evUncorrectableError => true
  | .rcIllegalEncoding => true
  | .evRemoteReply => true
  | .evStraitLinkReturn => true
  | .evThermalThrottleRelease => true
  | .evExtractFifoArrival => true

/-- The refusal that an instruction earns by itself: reserved codes and fields, literals and uses out of range, formats, tiles. -/
def Instr.refusal (i : Instr) : Option Nat := (Machine.encodingCause i).or (Machine.matrixCause i)

/-- Well-formed: it has an encoding, and no field of it is refused for itself. -/
def Instr.wf (i : Instr) : Bool := i.fits && i.refusal.isNone

end Sys2Proof
end

