-- ==== Sys2Proof/Certificates/Slice0/Obligations.lean ====
section
/-! DEFINITION. The statements about the machine, each from the spec's numbered rules. -/

open Sys2Proof Sys2Proof.Machine

/-! ## Cell instructions: results (R14, R15, R160 to R176) -/

/-- R162, R176 with R14, R15, R160: two sources of one float or integer tag; ADD, SUB, MUL, DIV, MIN, MAX and their compact forms write the lane frame of the exact
result, rounded or wrapped, push it, and change nothing else. -/
def Obligations.CellArithmetic : Prop :=
  ∀ (s : State) (e : Env) (d a b r n x : Nat) (u v : Reg), s.Runs e → s.sources e [a, b] = [u, v] → isFI u.fmt = true → v.fmt = u.fmt →
  let two (i : Instr) (rm n x : Nat) (len d : Nat) (fop : Val → Val → Ex) (iop : Int → Int → Int) : LaneRow :=
    { instr := i, len := len, d := d, rm := rm, srcs := [a, b], fmt := u.fmt, xs := 0,
      lane := fun rnd i => byTag u.fmt (rounded u.fmt rm n rnd (fop (fAt u i) (fAt v i))) (wrapped u.fmt x (iop (iAt u i) (iAt v i))) }
  let pick (i : Instr) (len d : Nat) (greater : Bool) : LaneRow :=
    { instr := i, len := len, d := d, rm := 0, srcs := [a, b], fmt := u.fmt, xs := 0,
      lane := fun _ i => (byTag u.fmt
        (if isNan (fAt u i) || isNan (fAt v i) then canonNaN u.fmt
         else if (if greater then ltVal true (fAt u i) (fAt v i) else ltVal true (fAt v i) (fAt u i)) then elemOf v i else elemOf u i, false)
        (if (if greater then iAt u i < iAt v i else iAt v i < iAt u i) then elemOf v i else elemOf u i, false)) }
  ∀ w ∈ [
    two (.add d a b r n x) r n x 2 d (addEx r) (· + ·),
    two (.sub d a b r n x) r n x 2 d (fun p q => addEx r p (negVal q)) (· - ·),
    two (.mul d a b r n x) r n x 2 d mulEx (· * ·),
    two (.cAdd d a b) 0 0 0 1 (8 + d) (addEx 0) (· + ·),
    two (.cSub d a b) 0 0 0 1 (8 + d) (fun p q => addEx 0 p (negVal q)) (· - ·),
    two (.cMul d a b) 0 0 0 1 (8 + d) mulEx (· * ·),
    { instr := .div d a b r n, len := 2, d := d, rm := r, srcs := [a, b], fmt := u.fmt, xs := 0,
      lane := fun rnd i => byTag u.fmt (rounded u.fmt r n rnd (divEx (fAt u i) (fAt v i)))
        (if iAt v i = 0 then (0, true) else wrapped u.fmt 0 ((iAt u i).tdiv (iAt v i))) },
    pick (.min d a b) 2 d false, pick (.max d a b) 2 d true, pick (.cMin d a b) 1 (8 + d) false, pick (.cMax d a b) 1 (8 + d) true],
    w.Completes s e

/-- R56, R162: the fused forms round the exact a·b ± d once. -/
def Obligations.CellFused : Prop :=
  ∀ (s : State) (e : Env) (d a b r n : Nat), s.Runs e →
  let fused (i : Instr) (rm n len d : Nat) (negP negC : Bool) (u v c : Reg) : LaneRow :=
    { instr := i, len := len, d := d, rm := rm, srcs := [a, b, d], fmt := u.fmt, xs := 0,
      lane := fun rnd i => byTag u.fmt
        (rounded u.fmt rm n rnd (fmaEx rm negP (fAt u i) (fAt v i) (if negC then negVal (fAt c i) else fAt c i)))
        (wrapped u.fmt 0 ((if negP then -(iAt u i * iAt v i) else iAt u i * iAt v i) + (if negC then -(iAt c i) else iAt c i))) }
  ∀ (u v c : Reg), isFI u.fmt = true → v.fmt = u.fmt → c.fmt = u.fmt →
    (s.sources e [a, b, d] = [u, v, c] →
      (fused (.fma d a b r n) r n 2 d false false u v c).Completes s e ∧ (fused (.fms d a b r n) r n 2 d false true u v c).Completes s e ∧
      (fused (.fnma d a b r n) r n 2 d true false u v c).Completes s e) ∧
    (s.sources e [a, b, 8 + d] = [u, v, c] → (fused (.cFma d a b) 0 0 1 (8 + d) false false u v c).Completes s e)

/-- R162, R164, R176: one source of a float or integer tag: ABS, NEG, ADDI, MULI and the compact forms of the first two. -/
def Obligations.CellUnary : Prop :=
  ∀ (s : State) (e : Env) (d a k : Nat) (u : Reg), s.Runs e → s.sources e [a] = [u] → isFI u.fmt = true →
  let one (i : Instr) (len d : Nat) (fop iop : Nat → Nat × Bool) : LaneRow :=
    { instr := i, len := len, d := d, rm := 0, srcs := [a], fmt := u.fmt, xs := 0, lane := fun _ i => byTag u.fmt (fop i) (iop i) }
  let signed (neg : Nat → Bool) (i : Nat) : Nat × Bool :=
    (if isNan (fAt u i) then canonNaN u.fmt else elemOf u i % 2 ^ (fmtWidth u.fmt - 1) + Bool.nat (neg i) * 2 ^ (fmtWidth u.fmt - 1), false)
  let abs' (i : Instr) (len d : Nat) := one i len d (signed (fun _ => false)) (fun j => wrapped u.fmt 0 (iAt u j).natAbs)
  let neg' (i : Instr) (len d : Nat) := one i len d (signed (fun j => !bit (elemOf u j) (fmtWidth u.fmt - 1))) (fun j => wrapped u.fmt 0 (-(iAt u j)))
  let kf : Val := fval u.fmt (rounded u.fmt 0 0 0 (Ex.ofVal (valOfInt (signExt 11 k)))).1
  let ki : Int := intVal u.fmt (wrap u.fmt (signExt 11 k))
  ∀ w ∈ [
    abs' (.abs d a) 2 d, neg' (.negOp d a) 2 d, abs' (.cAbs d a) 1 (8 + d), neg' (.cNeg d a) 1 (8 + d),
    one (.addi d a k) 2 d (fun j => rounded u.fmt 0 0 0 (addEx 0 (fAt u j) kf)) (fun j => wrapped u.fmt 0 (iAt u j + ki)),
    one (.muli d a k) 2 d (fun j => rounded u.fmt 0 0 0 (mulEx (fAt u j) kf)) (fun j => wrapped u.fmt 0 (iAt u j * ki))],
    w.Completes s e

/-- R163, R165, R176: integer operations on two sources of one class I tag, and shifts, whose count b may carry any class I tag. -/
def Obligations.CellInteger : Prop :=
  ∀ (s : State) (e : Env) (d a b : Nat) (u v : Reg), s.Runs e → s.sources e [a, b] = [u, v] → isI u.fmt = true → isI v.fmt = true →
  let row (i : Instr) (len d : Nat) (f : Nat → Nat) : LaneRow :=
    { instr := i, len := len, d := d, rm := 0, srcs := [a, b], fmt := u.fmt, xs := 0, lane := fun _ j => (f j, false) }
  let w := fmtWidth u.fmt
  let x := elemOf u
  let n := elemOf v
  let shl' (j : Nat) : Nat := if w ≤ n j then 0 else x j * 2 ^ n j % 2 ^ w
  let shr' (j : Nat) : Nat := if w ≤ n j then 0 else x j / 2 ^ n j
  (∀ q ∈ [row (.shl d a b) 2 d shl', row (.cShl d a b) 1 (8 + d) shl', row (.shr d a b) 2 d shr', row (.cShr d a b) 1 (8 + d) shr',
      row (.sha d a b) 2 d (fun j => cut w (signExt w (x j) / (2 ^ min (n j) w : Nat))),
      row (.rot d a b) 2 d (fun j => x j * 2 ^ (n j % w) % 2 ^ w + x j / 2 ^ (w - n j % w))], q.Completes s e) ∧
  (v.fmt = u.fmt → ∀ q ∈ [
      row (.andOp d a b) 2 d (fun j => x j &&& n j), row (.orOp d a b) 2 d (fun j => x j ||| n j), row (.xor d a b) 2 d (fun j => x j ^^^ n j),
      row (.cAnd d a b) 1 (8 + d) (fun j => x j &&& n j), row (.cOr d a b) 1 (8 + d) (fun j => x j ||| n j),
      row (.cXor d a b) 1 (8 + d) (fun j => x j ^^^ n j),
      row (.adds d a b) 2 d (fun j => wrap u.fmt (max (intMin u.fmt) (min (intMax u.fmt) (iAt u j + iAt v j)))),
      row (.subs d a b) 2 d (fun j => wrap u.fmt (max (intMin u.fmt) (min (intMax u.fmt) (iAt u j - iAt v j)))),
      row (.mulh d a b) 2 d (fun j => cut w (iAt u j * iAt v j / (2 ^ w : Nat)))], q.Completes s e)

/-- R165: bit operations on one class I source. -/
def Obligations.CellBits : Prop :=
  ∀ (s : State) (e : Env) (d a k x m l : Nat) (u : Reg), s.Runs e → s.sources e [a] = [u] → isI u.fmt = true →
  let w := fmtWidth u.fmt
  let imm := cut w (signExt 11 k)
  let row (i : Instr) (f : Nat → Nat) : LaneRow :=
    { instr := i, len := 2, d := d, rm := 0, srcs := [a], fmt := u.fmt, xs := 0, lane := fun _ j => (f (elemOf u j), false) }
  ∀ q ∈ [
    row (.notOp d a) (fun v => 2 ^ w - 1 - v),
    row (.clz d a) (fun v => if v = 0 then w else w - 1 - Nat.log2 v),
    row (.popc d a) (fun v => ((List.range w).filter (fun i => bit v i)).length),
    row (.andi d a k) (fun v => v &&& imm), row (.ori d a k) (fun v => v ||| imm),
    row (.shli d a k) (fun v => if w ≤ k then 0 else v * 2 ^ k % 2 ^ w), row (.shri d a k) (fun v => if w ≤ k then 0 else v / 2 ^ k),
    row (.shai d a k) (fun v => cut w (signExt w v / (2 ^ min k w : Nat))),
    row (.bfx d a x m l) (fun v => let f := bits v (l + m) l; if x = 1 then cut w (signExt (m + 1) f) else f % 2 ^ w)], q.Completes s e

/-- R166, R176: the special functions round the exact value of the function once, as the model computes it (log 12). -/
def Obligations.CellSpecial : Prop :=
  ∀ (s : State) (e : Env) (d a r n : Nat) (u : Reg), s.Runs e → s.sources e [a] = [u] → isF u.fmt = true →
  let row (i : Instr) (k rm n len d : Nat) : LaneRow :=
    { instr := i, len := len, d := d, rm := rm, srcs := [a], fmt := u.fmt, xs := 0, lane := fun rnd j => rounded u.fmt rm n rnd (specialEx k (fAt u j)) }
  ∀ q ∈ [
    row (.rcp d a r n) 0 r n 2 d, row (.rsq d a r n) 1 r n 2 d, row (.sqrt d a r n) 2 r n 2 d, row (.exp2 d a r n) 3 r n 2 d,
    row (.log2 d a r n) 4 r n 2 d, row (.tanh d a r n) 5 r n 2 d, row (.sinp d a r n) 6 r n 2 d, row (.cosp d a r n) 7 r n 2 d,
    row (.cRcp d a) 0 0 0 1 (8 + d), row (.cRsq d a) 1 0 0 1 (8 + d), row (.cExp2 d a) 3 0 0 1 (8 + d)], q.Completes s e

/-- R167, R168, R176: compare, select, sign copy, classification and rounding to an integral value. -/
def Obligations.CellCompareSelect : Prop :=
  ∀ (s : State) (e : Env) (d a b c r : Nat) (u v : Reg), s.Runs e →
  (s.sources e [a, b] = [u, v] → v.fmt = u.fmt →
    (isFI u.fmt = true → LaneRow.Completes
      { instr := .cmp d a b c, len := 2, d := d, rm := 0, srcs := [a, b], fmt := .n32, xs := 0,
        lane := fun _ i =>
          let nan := isF u.fmt && (isNan (fAt u i) || isNan (fAt v i))
          let lt := if isF u.fmt then ltVal false (fAt u i) (fAt v i) else decide (iAt u i < iAt v i)
          let gt := if isF u.fmt then ltVal false (fAt v i) (fAt u i) else decide (iAt v i < iAt u i)
          let yes := match c with
            | 0 => !nan && !lt && !gt | 1 => nan || lt || gt | 2 => !nan && lt | 3 => !nan && !gt | 4 => !nan && gt | _ => !nan && !lt
          (if yes then 0xFFFFFFFF else 0, false) } s e) ∧
    (isF u.fmt = true → LaneRow.Completes
      { instr := .cpsgn d a b, len := 2, d := d, rm := 0, srcs := [a, b], fmt := u.fmt, xs := 0,
        lane := fun _ i => (if isNan (fAt u i) then canonNaN u.fmt
          else elemOf u i % 2 ^ (fmtWidth u.fmt - 1) + Bool.nat (bit (elemOf v i) (fmtWidth u.fmt - 1)) * 2 ^ (fmtWidth u.fmt - 1), false) } s e)) ∧
  (∀ p : Reg, s.sources e [a, b, 0] = [u, v, p] → v.fmt = u.fmt → u.fmt ≠ .none → isI p.fmt = true →
    ∀ i ∈ [((.sel d a b : Instr), 2, d), (.cSel d a b, 1, 8 + d)], LaneRow.Completes
      { instr := i.1, len := i.2.1, d := i.2.2, rm := 0, srcs := [a, b, 0], fmt := u.fmt, xs := u.xs,
        lane := fun _ j => (if elemOf p j ≠ 0 then laneOf u j else laneOf v j, false) } s e) ∧
  (s.sources e [a] = [u] → isF u.fmt = true →
    LaneRow.Completes
        { instr := .classOp d a, len := 2, d := d, rm := 0, srcs := [a], fmt := .n32, xs := 0,
          lane := fun _ i => (2 ^ classBit u.fmt (elemOf u i), false) } s e ∧
    LaneRow.Completes
        { instr := .rndi d a r, len := 2, d := d, rm := r, srcs := [a], fmt := u.fmt, xs := 0,
          lane := fun rnd i => (match fAt u i with
          | .nan => canonNaN u.fmt
          | .inf _ => elemOf u i
          | .fin g m x => if m = 0 then elemOf u i else
          let z := (roundInt r rnd g (.dyadic m x)).natAbs
          (rounded u.fmt 0 0 0 (if z = 0 then .zero g else .num g (.dyadic z 0))).1, false) } s e)

/-- R168, R172, R174, R176, R181, R188: the instructions that move lanes, valid bits and marks, outside the lane frame. -/
def Obligations.CellMoves : Prop :=
  ∀ (s : State) (e : Env) (d a b n x : Nat) (u v : Reg), s.Runs e →
  (s.sources e [a] = [u] → u.fmt ≠ .none →
    let same (i : Instr) (len d : Nat) (lane : Nat → Option Nat) : RegRow :=
      { instr := i, len := len, d := d, rm := 0, srcs := [a], fmt := u.fmt, xs := u.xs, p := u.p, origin := u.origin, lane := lane }
    let count (i : Instr) (k : Nat) : RegRow :=
      { instr := i, len := 2, d := d, rm := 0, srcs := [a], fmt := .n32, xs := 0, p := u.p, origin := u.origin, lane := fun _ => some k }
    (∀ q ∈ [same (.bcast d a n) 2 d (fun _ => bits? u n), same (.cBcast d a n) 1 (8 + d) (fun _ => bits? u n),
        same (.rotl d a n) 2 d (fun i => bits? u ((i + n) % 16)),
        count (.cntv d a) ((List.range 16).filter (okAt u)).length, count (.firstv d a) (((List.range 16).filter (okAt u)).head?.getD 16),
        count (.pchk d a) (if u.p then 0xFFFFFFFF else 0)], q.Completes s e) ∧
    (∀ i ∈ [((.mov d a : Instr), 2, d), (.cMov d a, 1, 8 + d)], ∃ t, exec i.1 s = .next t ∧ Wrote s t e i.2.1 i.2.2 (isDrawing 0 [a]) u)) ∧
  (s.sources e [a, b] = [u, v] →
    let both (i : Instr) (len d : Nat) (lane : Nat → Option Nat) : RegRow :=
      { instr := i, len := len, d := d, rm := 0, srcs := [a, b], fmt := u.fmt, xs := u.xs, p := u.p || v.p,
        origin := if u.p then u.origin else v.origin, lane := lane }
    (u.fmt ≠ .none → isI v.fmt = true →
      ∀ q ∈ [both (.shuf d a b) 2 d (fun i => if okAt v i then bits? u (elemOf v i % 16) else none),
        both (.setv d a b) 2 d (fun i => if okAt v i && elemOf v i != 0 then bits? u i else none),
        both (.cSetv d a b) 1 (8 + d) (fun i => if okAt v i && elemOf v i != 0 then bits? u i else none)], q.Completes s e) ∧
    (v.fmt = u.fmt → u.fmt ≠ .none →
      (both (.merge d a b x) 2 d (fun i => if x = 0 then (bits? u i).or (bits? v i)
        else if okAt u i && !okAt v i then bits? u i else bits? v i)).Completes s e)) ∧
  (let made (i : Instr) (srcs : List Nat) (f : Fmt) (lane : Nat → Nat) : RegRow :=
    { instr := i, len := 2, d := d, rm := 0, srcs := srcs, fmt := f, xs := 0, p := false, origin := 0, lane := fun j => some (lane j) }
   (made (.iota d n) [] .s32 (fun j => cut 32 (signExt 11 n + j))).Completes s e ∧
   (made (.movi d n) [] .s32 (fun _ => cut 32 (signExt 17 n))).Completes s e ∧
   ({ made (.ldc d n) [] (s.constFmt e.core e.cell e.task.ctx n) (fun _ => s.constWord e.core e.cell e.task.ctx n %
        2 ^ fmtWidth (s.constFmt e.core e.cell e.task.ctx n)) with xs := constXs (s.constFmt e.core e.cell e.task.ctx n) }).Completes s e ∧
   (s.sources e [d] = [u] → (u.fmt = .s32 ∨ u.fmt = .n32) → LaneRow.Completes
      { instr := .movh d n, len := 2, d := d, rm := 0, srcs := [d], fmt := u.fmt, xs := 0,
        lane := fun _ j => (n % 2 ^ 16 * 2 ^ 16 + elemOf u j % 2 ^ 16, false) } s e))

/-- R175: TAGRD gives a field of the tag, or of operand k with the marks of that operand. -/
def Obligations.CellTagRead : Prop :=
  ∀ (s : State) (e : Env) (d k f : Nat), s.Runs e →
  let o : PortTok := (e.task.ops[k]?).getD default
  let t : Reg := e.task.operand k
  let field : Nat := ([e.task.iter.toNat, e.task.frame, e.task.ctx, e.task.cls, fmtCode o.tok.reg.fmt, Bool.nat o.tok.reg.p, o.tok.reg.origin,
    o.tok.reg.valid.toNat, o.tok.reg.xs, Bool.nat o.tok.b, o.tok.route, o.pos]).getD f o.pos
  RegRow.Completes
      { instr := .tagrd d k f, len := 2, d := d, rm := 0, srcs := [], fmt := .n32, xs := 0, p := decide (4 ≤ f) && t.p, origin := t.origin,
        lane := fun _ => some field } s e

/-- R52, R169, R171: conversion of each lane by the conversion table, quantization as one block, and a change of tag. -/
def Obligations.CellConvert : Prop :=
  ∀ (s : State) (e : Env) (d a f r n : Nat) (u : Reg), s.Runs e → s.sources e [a] = [u] →
  let tf := fmtOf f
  let one (i : Instr) (xs n : Nat) : LaneRow :=
    { instr := i, len := 2, d := d, rm := r, srcs := [a], fmt := tf, xs := xs,
      lane := fun rnd j => convert u.fmt u.xs (elemOf u j) tf xs r rnd (n == 1) }
  let block := blockScale tf ((List.range 16).filterMap (fun i => if okAt u i then some (elemVal u.fmt u.xs (elemOf u i)) else none))
  (isFIMX u.fmt = true → (one (.cvt d a f r n) (if isMX tf then 127 else 0) n).Completes s e) ∧
  (isFMX u.fmt = true → ∀ xs, block = some xs → (one (.qnt d a f r) xs 1).Completes s e) ∧
  (isFMX u.fmt = true → block = none → RegRow.Completes
      { instr := .qnt d a f r, len := 2, d := d, rm := r, srcs := [a], fmt := tf, xs := 255, p := true,
        origin := if u.p then u.origin else e.agent, lane := fun i => if okAt u i then some 0 else none } s e) ∧
  (isMX u.fmt = true → (one (.dqn d a f r n) 0 n).Completes s e) ∧
  (u.fmt ≠ .none → u.fmt ≠ .rcd → fmtWidth u.fmt = fmtWidth tf → RegRow.Completes
    { instr := .fmts d a f, len := 2, d := d, rm := 0, srcs := [a], fmt := tf, xs := if isMX tf then (if isMX u.fmt then u.xs else 127) else 0,
      p := u.p, origin := u.origin,
      lane := fun i => (elem? u i).map (fun w => match fspec tf with | some g => if isNan (decodeF g w) then canonNaN tf else w | none => w) } s e)

/-- R170: XSC quantizes a under the tag and scale of b; a scale of 0xFF gives zero elements and poison. -/
def Obligations.CellRescale : Prop :=
  ∀ (s : State) (e : Env) (d a b r : Nat) (u v : Reg), s.Runs e → s.sources e [a, b] = [u, v] → isFMX u.fmt = true → isMX v.fmt = true →
  let conv (i : Nat) : Nat × Bool := convert u.fmt u.xs (elemOf u i) v.fmt v.xs r (e.rnd i) true
  let exc := (List.range 16).any (fun i => okAt u i && (conv i).2)
  (v.xs = 255 → RegRow.Completes
      { instr := .xsc d a b r, len := 2, d := d, rm := r, srcs := [a, b], fmt := v.fmt, xs := 255, p := true,
        origin := if u.p then u.origin else if v.p then v.origin else e.agent, lane := fun i => if okAt u i then some 0 else none } s e) ∧
  (v.xs ≠ 255 → RegRow.Completes
      { instr := .xsc d a b r, len := 2, d := d, rm := r, srcs := [a, b], fmt := v.fmt, xs := v.xs, p := u.p || v.p || exc,
        origin := if u.p then u.origin else if v.p then v.origin else e.agent, lane := fun i => if okAt u i then some (conv i).1 else none } s e)

/-- R53, R54, R173, R176: REDL by the fixed tree into lane 0, SCANL by the left fold, with the combination of their variant. -/
def Obligations.CellReduce : Prop :=
  ∀ (s : State) (e : Env) (d a var r n : Nat) (u : Reg), s.Runs e → s.sources e [a] = [u] → (if var ≤ 2 then isFI u.fmt else isI u.fmt) = true →
  let op (var rm n : Nat) (j x y : Nat) : Nat × Bool :=
    match var with
    | 0 => byTag u.fmt (rounded u.fmt rm n (e.rnd j) (addEx rm (fval u.fmt x) (fval u.fmt y))) (wrapped u.fmt 0 (intVal u.fmt x + intVal u.fmt y))
    | 1 => (pickLane false u.fmt x y, false)
    | 2 => (pickLane true u.fmt x y, false)
    | 3 => (x &&& y, false)
    | 4 => (x ||| y, false)
    | _ => (x ^^^ y, false)
  let tree (var rm n : Nat) := treeFrom (op var rm n) (elem? u) 4 0
  let redl (i : Instr) (var rm n len d : Nat) : RegRow :=
    { instr := i, len := len, d := d, rm := rm, srcs := [a], fmt := u.fmt, xs := 0, p := u.p || (tree var rm n).2,
      origin := if u.p then u.origin else e.agent, lane := fun i => if i = 0 then (tree var rm n).1 else none }
  (redl (.redl d a var r n) var r n 2 d).Completes s e ∧
  (var = 0 → (redl (.cRedl d a) 0 0 0 1 (8 + d)).Completes s e) ∧
  RegRow.Completes
      { instr := .scanl d a var r n, len := 2, d := d, rm := r, srcs := [a], fmt := u.fmt, xs := 0,
        p := u.p || (foldTo (op var r n) (elem? u) 15).2, origin := if u.p then u.origin else e.agent,
        lane := fun i => if okAt u i then (foldTo (op var r n) (elem? u) i).1 else none } s e

/-! ## Cell instructions: records (R216 to R224, R195) -/

/-- R217 to R223, R134, R195: the record instructions and CMPR: their result lane by lane, with the poison and the origin of the operands. -/
def Obligations.CellRecords : Prop :=
  ∀ (s : State) (e : Env) (d a b n : Nat) (u v : Reg), s.Runs e →
  let wa := s.recWidth e a
  let wb := s.recWidth e b
  let two (i : Instr) (f : Fmt) (lane : Nat → Option Nat) : RegRow :=
    { instr := i, len := 2, d := d, rm := 0, srcs := [a, b], fmt := f, xs := 0, p := u.p || v.p, origin := if u.p then u.origin else v.origin, lane := lane }
  let one (i : Instr) (f : Fmt) (lane : Nat → Option Nat) : RegRow :=
    { instr := i, len := 2, d := d, rm := 0, srcs := [a], fmt := f, xs := 0, p := u.p, origin := u.origin, lane := lane }
  let timed (t r : Nat) (i : Nat) : Option Nat := if i = 2 then some t else if i = 3 then some r else bits? u i
  (s.sources e [a, b] = [u, v] →
    (u.fmt = .n32 ∨ u.fmt = .s32 ∨ u.fmt = .rcd → fmtWidth v.fmt = 32 → v.fmt ≠ .none →
      ((∀ i, i < 5 → okAt u i = false) → (two (.rmk d a b) .rcd (fun _ => none)).Completes s e) ∧
      ((∀ i, i < 5 → okAt u i = true) → ∀ w, w ≤ 11 → (∀ i, i < 16 → okAt v i = decide (i < w)) →
        (two (.rmk d a b) .rcd (fun i => if i < 5 then bits? u i else if i < 5 + w then bits? v (i - 5) else none)).Completes s e)) ∧
    (IsChange wa u → HasTime wb v →
      (two (.tjoin d a b) .rcd (timed (max (laneOf u 2) (laneOf v 2)) (max (laneOf u 3) (laneOf v 3)))).Completes s e ∧
      (two (.tmeet d a b) .rcd (timed (min (laneOf u 2) (laneOf v 2)) (min (laneOf u 3) (laneOf v 3)))).Completes s e) ∧
    ((IsNull u ∧ (HasTime wb v ∨ NoTime v)) ∨ (IsChange wa u ∧ NoTime v) →
      (two (.tjoin d a b) .rcd (fun _ => none)).Completes s e ∧ (two (.tmeet d a b) .rcd (fun _ => none)).Completes s e) ∧
    (v.fmt = .n32 → ∀ f : List Time, frontOf v = some f →
      (IsChange wa u → ∀ t r, (f.map (fun x => max (laneOf u 2) x.1)).min? = some t → (f.map (fun x => max (laneOf u 3) x.2)).min? = some r →
        (two (.tadv d a b) .rcd (timed t r)).Completes s e) ∧
      (IsNull u ∨ (IsChange wa u ∧ f = []) → (two (.tadv d a b) .rcd (fun _ => none)).Completes s e)) ∧
    (HasTime wa u → HasTime wb v →
      (two (.tle d a b) .n32 (fun _ => some (if laneOf u 2 ≤ laneOf v 2 ∧ laneOf u 3 ≤ laneOf v 3 then 0xFFFFFFFF else 0))).Completes s e) ∧
    ((HasTime wa u ∧ NoTime v) ∨ (NoTime u ∧ HasTime wb v) ∨ (NoTime u ∧ NoTime v) → (two (.tle d a b) .n32 (fun _ => none)).Completes s e)) ∧
  (s.sources e [a] = [u] →
    (IsChange wa u → ((b = 0 ∨ b = 2) → (one (.scope d a b) .rcd (fun i => if i = 3 then some 0 else bits? u i)).Completes s e) ∧
      (laneOf u 3 ≠ 0xFFFFFFFF → (one (.scope d a 1) .rcd (fun i => if i = 3 then some (laneOf u 3 + 1) else bits? u i)).Completes s e) ∧
      RegRow.Completes { one (.rneg d a) .rcd (fun i => if i = 4 then some ((2 ^ 32 - laneOf u 4) % 2 ^ 32) else bits? u i) with
        p := u.p || laneOf u 4 == 2 ^ 31, origin := if u.p then u.origin else e.agent } s e) ∧
    (IsNull u → (one (.scope d a b) .rcd (fun _ => none)).Completes s e ∧ (one (.rneg d a) .rcd (fun _ => none)).Completes s e) ∧
    (IsChange wa u ∨ (u.fmt = .n32 ∧ okAt u 0 = true ∧ okAt u 1 = true) →
      let h := (laneOf u 0 + laneOf u 1 * 2 ^ 32) * 0x9E3779B97F4A7C15 % 2 ^ 64 / 2 ^ 32
      (one (.rhash d a n) .n32 (fun _ => some (if n = 0 then h % 2 ^ 32 else h % 2 ^ 32 / 2 ^ (32 - n)))).Completes s e) ∧
    (IsNull u ∨ (u.fmt = .n32 ∧ (okAt u 0 && okAt u 1) = false) → (one (.rhash d a n) .n32 (fun _ => none)).Completes s e) ∧
    (u.fmt = .bf16 → (one (.cmpr d a) .vcb (fun i => (elem? u i).bind (fun w => if w % 2 ^ 15 = 0 then none
      else some ((if isNan (fval .bf16 w) then canonNaN .bf16 else w) * 2 ^ 16 + (16 * e.task.iter.toNat + i) % 2 ^ 16)))).Completes s e)) ∧
  RegRow.Completes
    { instr := .fnrd d n, len := 2, d := d, rm := 0, srcs := [], fmt := .n32, xs := 0, p := false, origin := 0,
      lane := fun i => ((s.frontier e.core n)[i / 2]?).map (fun t => if i % 2 = 0 then t.1 else t.2) } s e

/-! ## Cell instructions: tokens, calls, the end of a task (R177 to R188) -/

/-- R178 to R180, R182, R188, R224: the emitting instructions stage their token on the edge, which the destination and the burst accept; FWDM empties the marker slot;
TRAPC goes on when no lane of its predicate holds. -/
def Obligations.CellEmits : Prop :=
  ∀ (s : State) (e : Env) (E a c t g x : Nat) (u q : Reg), s.Runs e → u.fmt ≠ .none → q.fmt ≠ .none →
  let iter : W16 := if t = 1 then e.task.iter + 1 else if t = 2 then e.task.iter - 1 else if t = 3 then 0 else e.task.iter
  let stages (i : Instr) (len : Nat) (srcs : List Nat) (gs : List Staged) : Prop :=
    ∃ r, exec i s = .next r ∧ StagedBy s r e len (isDrawing 0 srcs) id gs
  let holds' (i : Nat) : Bool := okAt q i && laneOf q i != 0
  let keeps (k : Reg) (keep : Nat → Bool) : Prop := LanesAre k u.fmt u.xs (u.p || q.p) (if u.p then u.origin else q.origin)
    (fun i => if keep i then bits? u i else none)
  (s.sources e [a] = [u] →
    (t ≠ 6 → s.takes e E u.fmt c e.task.frame iter → stages (.emit E a c t g) 2 [a] [.tok E (dataToken u c e.task.frame iter)]) ∧
    (s.takes e E u.fmt c e.task.frame e.task.iter → stages (.cEmit E a c) 1 [a] [.tok E (dataToken u c e.task.frame e.task.iter)]) ∧
    (∀ f : List Time, u.fmt = .n32 → frontOf u = some f →
      ∃ k r, exec (.fnput E a) s = .next r ∧ StagedBy s r e 2 (isDrawing 0 [a]) id [.tok E (markToken k 2 e.task.frame e.task.iter)] ∧
        LanesAre k .n32 0 u.p u.origin (fun i => if i < 8 then bits? u i else none)) ∧
    ((∀ i, i < 16 → okAt u i = false ∨ laneOf u i = 0) → stages (.trapc a g) 2 [a] [])) ∧
  (s.sources e [a, g % 64] = [u, q] → okAt q 0 = true → s.takes e E u.fmt c e.task.frame (BitVec.ofNat 16 (laneOf q 0)) →
    stages (.emit E a c 6 g) 2 [a, g % 64] [.tok E (dataToken u c e.task.frame (BitVec.ofNat 16 (laneOf q 0)))]) ∧
  (s.sources e [a, g] = [u, q] → t ≠ 6 →
    (s.takes e E u.fmt c e.task.frame iter → ∃ k, keeps k holds' ∧ stages (.emitv E a c t g) 2 [a, g] [.tok E (dataToken k c e.task.frame iter)]) ∧
    (x ≠ 1 → s.takes e (if holds' 0 then E + 1 else E) u.fmt c e.task.frame iter →
      ∃ k, keeps k (fun _ => true) ∧ stages (.steer E a c t x g) 2 [a, g] [.tok (if holds' 0 then E + 1 else E) (dataToken k c e.task.frame iter)]) ∧
    (s.takes e E u.fmt c e.task.frame iter → s.takes e (E + 1) u.fmt c e.task.frame iter →
      ∃ k l, keeps k (fun i => !holds' i) ∧ keeps l holds' ∧ stages (.steer E a c t 1 g) 2 [a, g]
        [.tok E (dataToken k c e.task.frame iter), .tok (E + 1) (dataToken l c e.task.frame iter)])) ∧
  stages (.emeos E) 2 [] [.tok E (eosToken e.task.frame e.task.iter)] ∧
  ((s.ctx e.core e.cell e.task.ctx).slot = none → stages (.fwdm E) 2 [] []) ∧
  (∀ m, (s.ctx e.core e.cell e.task.ctx).slot = some m →
    ∃ r, exec (.fwdm E) s = .next r ∧ StagedBy s r e 2 false (fun k => { k with slot := none }) [.tok E m])

/-- R69, R185, R186: CALL stages the frame record and the argument under the reserved frame; RET the result and the frame's end; FREEF the release of the frame. -/
def Obligations.CellCalls : Prop :=
  ∀ (s : State) (e : Env) (E a c er rc x : Nat) (u : Reg), s.Runs e → u.fmt ≠ .none →
  (s.sources e [a] = [u] →
    (∀ f, e.task.newFrame = some f → s.takes e E u.fmt c f e.task.iter →
      ∃ t, exec (.call E a c er rc) s = .next t ∧ StagedBy s t e 2 (isDrawing 0 [a]) id
        [.call f ⟨e.core, e.cell, e.task.ctx, e.task.frame, e.task.iter, er, rc⟩, .tok E (dataToken u c f e.task.iter)]) ∧
    (e.task.frame ≠ 0 → s.frameSt e = 1 →
      ∃ t, exec (.ret a x) s = .next t ∧ StagedBy s t e 2 (isDrawing 0 [a]) id [.ret e.task.frame (x == 1) u])) ∧
  (e.task.frame ≠ 0 → s.frameSt e ≠ 0 → ∃ t, exec .freef s = .next t ∧ StagedBy s t e 2 false id [.free e.task.frame])

/-- R187: COAL appends the valid elements to the context's buffer and stages a token of sixteen once it holds so many; FLUSHC stages what is left. -/
def Obligations.CellCoalesce : Prop :=
  ∀ (s : State) (e : Env) (E a : Nat) (u : Reg), s.Runs e → E < 8 →
  let b := (s.ctx e.core e.cell e.task.ctx).coal
  let new : List W32 := (List.range 16).filterMap (fun i => (bits? u i).map (BitVec.ofNat 32))
  let all := b.elems ++ new
  let poisoned := !b.elems.isEmpty && b.p
  let buf (es : List W32) (p : Bool) (o : Nat) : Coal :=
    { elems := es, fmt := u.fmt, xs := u.xs, p := p, origin := o, edge := E, cls := e.task.cls, frame := e.task.frame, iter := e.task.iter }
  let origin := if poisoned then b.origin else if u.p then u.origin else 0
  (s.sources e [a] = [u] → u.fmt ≠ .none → u.fmt ≠ .rcd → (b.elems = [] ∨ (u.fmt = b.fmt ∧ u.xs = b.xs ∧ b.edge = E)) →
    (new = [] → ∃ t, exec (.coal (48 + E) a) s = .next t ∧ StagedBy s t e 2 (isDrawing 0 [a]) id []) ∧
    (new ≠ [] → all.length < 16 →
      ∃ t, exec (.coal (48 + E) a) s = .next t ∧ StagedBy s t e 2 (isDrawing 0 [a]) (fun c => { c with coal := buf all (poisoned || u.p) origin }) []) ∧
    (new ≠ [] → 16 ≤ all.length → s.takes e E u.fmt e.task.cls e.task.frame e.task.iter →
      ∃ t r, exec (.coal (48 + E) a) s = .next t ∧ LanesAre r u.fmt u.xs (poisoned || u.p) origin (fun i => (all[i]?).map (·.toNat)) ∧
        StagedBy s t e 2 (isDrawing 0 [a]) (fun c => { c with coal := buf (all.drop 16) u.p (if u.p then u.origin else 0) })
          [.tok E (dataToken r e.task.cls e.task.frame e.task.iter)])) ∧
  (b.elems = [] → ∃ t, exec (.flushc (48 + E)) s = .next t ∧ StagedBy s t e 2 false id []) ∧
  (b.elems ≠ [] → b.elems.length ≤ 16 → b.edge = E → s.takes e E b.fmt e.task.cls e.task.frame e.task.iter →
    ∃ t r, exec (.flushc (48 + E)) s = .next t ∧ LanesAre r b.fmt b.xs b.p b.origin (fun i => (b.elems[i]?).map (·.toNat)) ∧
      StagedBy s t e 2 false (fun c => { c with coal := { c.coal with elems := [] } }) [.tok E (dataToken r e.task.cls e.task.frame e.task.iter)])

/-- R183, R184: END and DROP end the task, which counts as completed; END keeps what it has staged, DROP discards it; no register changes. FILT writes its result
first, and ends the task as its x says when no lane of it is valid. -/
def Obligations.CellEnds : Prop :=
  ∀ (s : State) (e : Env) (d a b x : Nat) (u v : Reg), s.Runs e →
  (∀ i ∈ [Instr.endOp, .cEnd], ∃ t, exec i s = .next t ∧ Ended s t e false ∧ SameRegs s t) ∧
  (∀ i ∈ [Instr.dropOp, .cDrop], ∃ t, exec i s = .next t ∧ Ended s t e true ∧ SameRegs s t) ∧
  (s.sources e [a, b] = [u, v] → u.fmt ≠ .none → v.fmt ≠ .none →
    ∃ t t' r, exec (.filt d a b x) s = .next t' ∧ Wrote s t e 2 d (isDrawing 0 [a, b]) r ∧
      LanesAre r u.fmt u.xs (u.p || v.p) (if u.p then u.origin else v.origin) (fun i => if okAt v i && laneOf v i != 0 then bits? u i else none) ∧
      ((∃ i, i < 16 ∧ okAt r i = true) → t' = t) ∧
      ((∀ i, i < 16 → okAt r i = false) → Ended t t' { e with task := { e.task with pc := e.task.pc + 2 } } (x == 1) ∧ SameRegs t t'))

/-- R13, R22, R158, R177, R302: a source of tag NONE, or one whose tag the instruction does not accept, is an operand format mismatch (0x00B): the record is posted,
the task ends as dropped, no register is written. -/
def Obligations.CellMismatch : Prop :=
  ∀ (s : State) (e : Env) (d a b c f r n x k t E : Nat) (u v : Reg), s.Runs e →
  let fails (i : Instr) : Prop := ∃ q, exec i s = .next q ∧ Faulted s q e 0 0x00B
  (s.sources e [a, b] = [u, v] →
    (u.fmt = .none ∨ v.fmt = .none → ∀ i ∈ [Instr.add d a b r n x, .sub d a b r n x, .mul d a b r n x, .div d a b r n, .min d a b, .max d a b, .adds d a b, .subs d a b,
        .mulh d a b, .andOp d a b, .orOp d a b, .xor d a b, .shl d a b, .shr d a b, .sha d a b, .rot d a b, .cmp d a b c, .setv d a b, .cpsgn d a b, .xsc d a b r,
        .shuf d a b, .merge d a b x, .emitv E a c t b, .steer E a c t x b, .filt d a b x, .rmk d a b, .tjoin d a b, .tmeet d a b, .tle d a b, .tadv d a b,
        .cAdd d a b, .cSub d a b, .cMul d a b, .cMin d a b, .cMax d a b, .cAnd d a b, .cOr d a b, .cXor d a b, .cShl d a b, .cShr d a b, .cSetv d a b], fails i) ∧
    (u.fmt ≠ v.fmt ∨ isFI u.fmt = false → ∀ i ∈ [Instr.add d a b r n x, .sub d a b r n x, .mul d a b r n x, .div d a b r n, .min d a b, .max d a b, .cmp d a b c,
        .cAdd d a b, .cSub d a b, .cMul d a b, .cMin d a b, .cMax d a b], fails i) ∧
    (u.fmt ≠ v.fmt ∨ isI u.fmt = false → ∀ i ∈ [Instr.adds d a b, .subs d a b, .mulh d a b, .andOp d a b, .orOp d a b, .xor d a b, .cAnd d a b, .cOr d a b, .cXor d a b], fails i) ∧
    (isI u.fmt = false ∨ isI v.fmt = false → ∀ i ∈ [Instr.shl d a b, .shr d a b, .sha d a b, .rot d a b, .cShl d a b, .cShr d a b], fails i) ∧
    (u.fmt ≠ v.fmt ∨ isF u.fmt = false → fails (.cpsgn d a b)) ∧ (u.fmt ≠ v.fmt → fails (.merge d a b x)) ∧
    (u.fmt ≠ .rcd → ∀ i ∈ [Instr.tjoin d a b, .tmeet d a b, .tadv d a b], fails i)) ∧
  (s.sources e [a] = [u] →
    (u.fmt = .none → ∀ i ∈ [Instr.abs d a, .negOp d a, .addi d a k, .muli d a k, .notOp d a, .clz d a, .popc d a, .andi d a k, .ori d a k, .shli d a k, .shri d a k,
        .shai d a k, .bfx d a x n k, .rcp d a r n, .rsq d a r n, .sqrt d a r n, .exp2 d a r n, .log2 d a r n, .tanh d a r n, .sinp d a r n, .cosp d a r n, .cntv d a,
        .firstv d a, .classOp d a, .rndi d a r, .cvt d a f r n, .qnt d a f r, .dqn d a f r n, .fmts d a f, .bcast d a k, .rotl d a k, .redl d a b r n, .scanl d a b r n,
        .mov d a, .cEmit E a c, .call E a c r n, .ret a x, .coal d a, .pchk d a, .trapc a k, .cmpr d a, .scope d a b, .rneg d a, .rhash d a n, .fnput E a,
        .cMov d a, .cNeg d a, .cAbs d a, .cExp2 d a, .cRcp d a, .cRsq d a, .cRedl d a, .cBcast d a n], fails i) ∧
    (isFI u.fmt = false → ∀ i ∈ [Instr.abs d a, .negOp d a, .addi d a k, .muli d a k, .cNeg d a, .cAbs d a], fails i) ∧
    (isI u.fmt = false → ∀ i ∈ [Instr.notOp d a, .clz d a, .popc d a, .andi d a k, .ori d a k, .shli d a k, .shri d a k, .shai d a k, .bfx d a x n k], fails i) ∧
    (isF u.fmt = false → ∀ i ∈ [Instr.rcp d a r n, .rsq d a r n, .sqrt d a r n, .exp2 d a r n, .log2 d a r n, .tanh d a r n, .sinp d a r n, .cosp d a r n, .classOp d a,
        .rndi d a r, .cExp2 d a, .cRcp d a, .cRsq d a], fails i) ∧
    (isMX u.fmt = false → fails (.dqn d a f r n)) ∧ (u.fmt ≠ .rcd → ∀ i ∈ [Instr.scope d a b, .rneg d a], fails i) ∧ (u.fmt ≠ .bf16 → fails (.cmpr d a)))

/-- R178, R186 to R188, R220: the other faults of the cell's instructions: FORMAT (0x01B) and ORDER (0x01D) of an emit, a frame that is none or not active
(0x028, 0x02D), the coalescing buffer's mismatches (0x033, 0x035), a round past the last (0x011). Each posts its record, ends the task as dropped, and writes no
register. -/
def Obligations.CellFaults : Prop :=
  ∀ (s : State) (e : Env) (d a c g x E : Nat) (u : Reg), s.Runs e → s.sources e [a] = [u] → u.fmt ≠ .none →
  let fails (i : Instr) (cause : Nat) : Prop := ∃ q, exec i s = .next q ∧ Faulted s q e 0 cause
  let w := s.edgeWord e.core e.cell e.task.ctx E
  let b := s.burstState e.core e.cell e.task.ctx E
  let buf := (s.ctx e.core e.cell e.task.ctx).coal
  (s.fmtFits w u.fmt = false → fails (.emit E a c 0 g) 0x01B ∧ fails (.cEmit E a c) 0x01B) ∧
  (s.fmtFits w u.fmt = true → b.1 % ewBurst w ≠ 0 → b.2 ≠ some (e.task.frame, e.task.iter, c) → fails (.emit E a c 0 g) 0x01D ∧ fails (.cEmit E a c) 0x01D) ∧
  (e.task.frame = 0 → fails (.ret a x) 0x028 ∧ fails .freef 0x028) ∧
  (e.task.frame ≠ 0 → s.frameSt e ≠ 1 → fails (.ret a x) 0x02D) ∧ (e.task.frame ≠ 0 → s.frameSt e = 0 → fails .freef 0x02D) ∧
  (u.fmt ≠ .rcd → buf.elems ≠ [] → (u.fmt ≠ buf.fmt ∨ u.xs ≠ buf.xs) → fails (.coal (48 + E) a) 0x033) ∧
  (u.fmt = buf.fmt → u.xs = buf.xs → u.fmt ≠ .rcd → buf.elems ≠ [] → buf.edge ≠ E → fails (.coal (48 + E) a) 0x035 ∧ fails (.flushc (48 + E)) 0x035) ∧
  (IsChange (s.recWidth e a) u → laneOf u 3 = 0xFFFFFFFF → fails (.scope d a 1) 0x011)

/-- R80, R188, R302: a TRAPC whose predicate holds in some lane posts 0x038 plus its number as a terminating cause, and its region fails: the region controller stops; a running
phase ends as for ABORTR, and the node with it; where no phase runs, the node has terminated and its cores are free. -/
def Obligations.CellTrap : Prop :=
  ∀ (s : State) (e : Env) (a n : Nat) (u : Reg) (g : Region), s.Runs e → s.sources e [a] = [u] → u.fmt ≠ .none → n < 8 →
  (∃ i, i < 16 ∧ okAt u i = true ∧ laneOf u i ≠ 0) → s.regionAt e.core = some g → s.regionAt g.lead = some g →
  ∃ t, exec (.trapc a n) s = .next t ∧ s.faultRecord 2 0 e.core e.cell (0x038 + n) 0 0 e.task.tag ∈ t.posts ∧
    Failing s t g.lead ∧ (t.cell e.core e.cell).running = none

/-! ## Region controllers: scalars and control flow (R237, R241, R246, R247) -/

/-- R237, R241: the two-register scalars write their 64-bit result to q[d] (q0 discards it and reads as zero), go 4 bytes on, and change nothing else. -/
def Obligations.RcScalars : Prop :=
  ∀ (s : State) (d a b : Nat),
  let x := s.qv a
  let y := s.qv b
  let flag (c : Bool) : W64 := if c then 1 else 0
  ∀ w ∈ [
    (Instr.rcAdd d a b, x + y), (.rcSub d a b, x - y), (.rcMul d a b, x * y),
    (.rcMulh d a b, (x.signExtend 128 * y.signExtend 128).extractLsb' 64 64),
    (.rcAnd d a b, x &&& y), (.rcOr d a b, x ||| y), (.rcXor d a b, x ^^^ y),
    (.rcShl d a b, x <<< y.toNat), (.rcShr d a b, x >>> y.toNat), (.rcSha d a b, x.sshiftRight (min y.toNat 64)),
    (.rcSlt d a b, flag (x.slt y)), (.rcSltn d a b, flag (x.ult y)),
    (.rcMin d a b, if y.slt x then y else x), (.rcMax d a b, if x.slt y then y else x)],
    s.Puts w.1 d w.2 4

/-- R237, R241: the immediates write their 64-bit result to q[d]; LI and LIH are 8 bytes long; a shift by more than 63 is an illegal encoding, not this. -/
def Obligations.RcImmediates : Prop :=
  ∀ (s : State) (d a i e : Nat), i < 2 ^ 15 → e < 2 ^ 32 →
  let x := s.qv a
  let imm : W64 := (BitVec.ofNat 15 i).signExtend 64
  s.Puts (.rcAddi d a i) d (x + imm) 4 ∧ s.Puts (.rcAndi d a i) d (x &&& imm) 4 ∧ s.Puts (.rcOri d a i) d (x ||| BitVec.ofNat 64 i) 4 ∧
  s.Puts (.rcMovk d a i) d (x <<< 15 ||| BitVec.ofNat 64 i) 4 ∧
  (i ≤ 63 → s.Puts (.rcShli d a i) d (x <<< i) 4 ∧ s.Puts (.rcShri d a i) d (x >>> i) 4) ∧
  s.Puts (.rcLi d e) d ((BitVec.ofNat 32 e).signExtend 64) 8 ∧
  s.Puts (.rcLih d e) d (BitVec.ofNat 32 e ++ (s.qv d).extractLsb' 0 32) 8

/-- R246, R247: a branch whose condition holds, and a jump, go to their target and leave the loops that do not hold it; a branch whose condition fails goes on. The
target of a branch or of JMP and JAL is counted in words from the instruction, JR's is the register and JL's its literal; the jumps that link write the address after
themselves. -/
def Obligations.RcBranches : Prop :=
  ∀ (s : State) (d a b o e : Nat),
  let x := s.qv a
  let y := s.qv b
  let pc := (s.rc s.fcore).pc
  let near (n : Nat) : Nat := (((pc : Int) + 4 * (BitVec.ofNat n o).toInt) % 2 ^ 32).toNat
  let goes (target : Nat) (r : Rc) : Rc := { r with pc := target, loops := r.loops.dropWhile (fun l => !(decide (l.start ≤ target) && decide (target ≤ l.last))) }
  let link (n target : Nat) (r : Rc) : Rc := { goes target r with q := if d = 0 then r.q else r.q.set d (BitVec.ofNat 64 (pc + n)) }
  (∀ w ∈ [(Instr.rcBeq a b o, x == y), (.rcBne a b o, x != y), (.rcBlt a b o, x.slt y), (.rcBge a b o, !x.slt y), (.rcBltn a b o, x.ult y), (.rcBgen a b o, !x.ult y)],
    s.Turns w.1 (if w.2 then goes (near 15) else Rc.skip 4)) ∧
  (pc % 4 = 0 → s.Turns (.rcJmp o) (goes (near 20)) ∧ s.Turns (.rcJal d o) (link 4 (near 20))) ∧
  (x.toNat % 4 = 0 → s.Turns (.rcJr d a) (link 4 (x.toNat % 2 ^ 32))) ∧
  (e % 4 = 0 → s.Turns (.rcJl d e) (link 8 e))

/-- R247: LOOP with a count of zero goes past its ENDL, else opens a loop of that count; ENDL counts down, a value written to sr.lc in between taking the count's place, and
goes back to the loop's start or leaves it. -/
def Obligations.RcLoops : Prop :=
  ∀ (s : State) (c o : Nat),
  let r := s.rc s.fcore
  let last := (((r.pc : Int) + 4 * (BitVec.ofNat 15 o).toInt) % 2 ^ 32).toNat
  (s.inProgram s.fcore last = true → decodeRc (s.rcWordAt s.fcore last) 0 = .rcEndl → (s.qv c).toNat < 2 ^ 32 → r.loops.length < 4 →
    s.Turns (.rcLoop c o) (fun r => if s.qv c = 0 then { r with pc := last + 4 }
      else { r with pc := r.pc + 4, loops := { start := r.pc + 4, last := last, lc := (s.qv c).toNat } :: r.loops })) ∧
  (∀ l ls, r.loops = l :: ls → l.last = r.pc →
    let n := l.pend.getD l.lc - 1
    s.Turns .rcEndl (fun r => if n = 0 then { r with pc := r.pc + 4, loops := ls } else { r with pc := l.start, loops := { l with lc := n, pend := none } :: ls }))

/-! ## Region controllers: scratchpad, special registers, status (R238, R239, R242 to R245, R248, R249) -/

/-- R90, R242: with sr.far off and no race, LD zero-extends the bytes at its address into q[d], ST writes the low bytes of q[d] there and no other byte; registers, cells and
tasks stay. Both wait while a far access of the controller itself to one of those bytes is in flight. -/
def Obligations.RcMemory : Prop :=
  ∀ (s : State) (d a z o : Nat) (h : Half), z < 4 →
  let n := accessBytes z
  let addr := (((s.qv a).toNat + (BitVec.ofNat 13 o).toInt) % 2 ^ 32).toNat
  let A := spadBase h.core + h.off
  bit (s.rc s.fcore).far 32 = false → halves s.fcore addr n n false = .ok [h] →
  (s.free90 h.core h.off n →
    (s.NoRace s.fcore 8 h.core h.off n false 0 0 0 → s.Reads (.rcLd d a z o) (Rc.ready (Rc.put d (BitVec.ofNat 64 (Memory.readNat s.mem A n)) 4))) ∧
    (s.NoRace s.fcore 8 h.core h.off n true 1 0 0 → s.Stores (.rcSt d a z o) (Rc.ready (Rc.skip 4)) A n (s.qv d).toNat)) ∧
  (¬s.free90 h.core h.off n → s.Awaits (.rcLd d a z o) ∧ s.Awaits (.rcSt d a z o))

/-- R82, R83: an address of the local window names the core's own bytes, one of the isle window those of the core that bits 27 to 22 name, within the bounds of that core's
scratchpad and aligned; an address past the bounds is 0x041 or 0x049, one unaligned 0x042 or 0x04A, one of another window 0x04C or 0x044. That the isle window of the
manager controller, which is of no isle, is 0x04C is the model's choice (log 8). -/
def Obligations.Windows : Prop :=
  ∀ k addr n align : Nat,
  let t := isleOf k * 64 + addr / 2 ^ 22 % 64
  let off := addr % 2 ^ 22
  (addr < 2 ^ 28 → addr + n ≤ spadSize k → addr % align = 0 → halves k addr n align false = .ok [⟨k, addr, n⟩]) ∧
  (addr < 2 ^ 28 → spadSize k < addr + n → halves k addr n align false = .error ⟨0x041, addr, 0, false⟩) ∧
  (addr < 2 ^ 28 → addr + n ≤ spadSize k → addr % align ≠ 0 → halves k addr n align false = .error ⟨0x042, addr, 0, false⟩) ∧
  (addr / 2 ^ 28 = 1 → k < managerCore → off + n ≤ spadSize t → addr % align = 0 → halves k addr n align false = .ok [⟨t, off, n⟩]) ∧
  (addr / 2 ^ 28 = 1 → k < managerCore → spadSize t < off + n → halves k addr n align false = .error ⟨0x049, addr, 0, false⟩) ∧
  (addr / 2 ^ 28 = 1 → k < managerCore → off + n ≤ spadSize t → addr % align ≠ 0 → halves k addr n align false = .error ⟨0x04A, addr, 0, false⟩) ∧
  (addr / 2 ^ 28 = 1 → managerCore ≤ k → halves k addr n align false = .error ⟨0x04C, addr, 0, false⟩) ∧
  (addr / 2 ^ 28 = 2 → halves k addr n align false = .error ⟨0x04C, addr, 0, false⟩) ∧
  (3 ≤ addr / 2 ^ 28 → halves k addr n align false = .error ⟨0x044, addr, 0, false⟩)

/-- R98 to R101, R140, R243: with sr.far off, no race and a scope that covers both parties, a relaxed AMO or CAS puts the old value into q[d] and writes what the operation
gives; its load, and a CAS whose compare fails, write nothing and race as reads do. -/
def Obligations.RcAtomics : Prop :=
  ∀ (s : State) (d a b z sc : Nat) (h : Half), z < 2 →
  let w := if z = 1 then 64 else 32
  let addr := (s.qv a).toNat % 2 ^ 32
  let A := spadBase h.core + h.off
  bit (s.rc s.fcore).far 32 = false → halves s.fcore addr (w / 8) 1 false = .ok [h] → addr % (w / 8) = 0 → covers sc 0 s.fcore 0 h.core = true →
  (s.ord s.fcore 8).frel = none → s.free90 h.core h.off (w / 8) →
  let old : BitVec w := BitVec.ofNat w (Memory.readNat s.mem A (w / 8))
  let x : BitVec w := (s.qv b).setWidth w
  let gets : Rc → Rc := Rc.ready (Rc.put d (old.setWidth 64) 4)
  (s.NoRace s.fcore 8 h.core h.off (w / 8) false 2 (w / 8) sc → s.Reads (.rcAmo d a b z 0 sc 0) gets ∧
    (old ≠ (s.qv d).setWidth w → s.Reads (.rcCas d a b z 0 sc) gets)) ∧
  (s.NoRace s.fcore 8 h.core h.off (w / 8) true 2 (w / 8) sc →
    (∀ p ∈ [(1, x), (2, x), (3, old + x), (4, if x.slt old then x else old), (5, if old.slt x then x else old), (6, old &&& x), (7, old ||| x), (8, old ^^^ x)],
      s.Stores (.rcAmo d a b z 0 sc p.1) gets A (w / 8) p.2.toNat) ∧
    (old = (s.qv d).setWidth w → s.Stores (.rcCas d a b z 0 sc) gets A (w / 8) x.toNat))

/-- R100, R244: FENCE goes on once the controller's remote stores have completed and changes no register and no memory. -/
def Obligations.RcFences : Prop :=
  ∀ (s : State) (r sc : Nat), 0 < r → r < 4 →
  (r = 1 ∨ s.remoteOut s.fcore 8 = 0 → (s.fence s.fcore 8 r).2 = .ok () → s.Reads (.rcFence r sc) (Rc.ready (Rc.skip 4))) ∧
  (2 ≤ r → 0 < s.remoteOut s.fcore 8 → s.Awaits (.rcFence r sc))

/-- R102, R239: with sr.far naming a core of the package, LD and AMO send their request and wait for the reply, ST sends its bytes and goes on; an address past the bounds of that core's
scratchpad is 0x049. That a core of the absent isle has none is the model's reading (log 101). -/
def Obligations.RcFar : Prop :=
  ∀ (s : State) (d a b z o : Nat), z < 4 →
  let far := (s.rc s.fcore).far
  let core := far / 2 ^ 6 % 2 ^ 10
  let n := accessBytes z
  let addr := (((s.qv a).toNat + (BitVec.ofNat 13 o).toInt) % 2 ^ 32).toNat
  let base := (s.qv a).toNat % 2 ^ 32
  bit far 32 = true → far / 2 ^ 16 % 2 ^ 16 = 0 →
  let sent (t : State) : Prop := t.mem = s.mem ∧ t.remoteOut s.fcore 8 = s.remoteOut s.fcore 8 + 1
  (addr < 2 ^ 28 → s.spadOf core < addr + n → s.Stops (.rcLd d a z o) 0x049 addr ∧ s.Stops (.rcSt d a z o) 0x049 addr) ∧
  (addr < 2 ^ 28 → addr + n ≤ s.spadOf core → addr % n = 0 →
    (∃ t r, exec (.rcLd d a z o) s = .next t ∧ t.reqs = s.reqs ++ [r] ∧ r.kind = .load ∧ r.dst = core ∧ r.addr = addr ∧ r.size = n ∧ sent t ∧
      Goes s t (fun c => { c with mode := .remote d })) ∧
    (∃ t r, exec (.rcSt d a z o) s = .next t ∧ t.reqs = s.reqs ++ [r] ∧ r.kind = .store ∧ r.dst = core ∧ r.addr = addr ∧ r.bytes = leBytes n (s.qv d).toNat ∧
      sent t ∧ Goes s t (Rc.skip 4))) ∧
  (base < 2 ^ 28 → base + 4 ≤ s.spadOf core → base % 4 = 0 →
    ∃ t r, exec (.rcAmo d a b 0 0 2 3) s = .next t ∧ t.reqs = s.reqs ++ [r] ∧ r.dst = core ∧ r.addr = base ∧ r.size = 4 ∧ sent t ∧
      Goes s t (Rc.ready (fun c => { c with mode := .remote d })))

/-- R123, R238, R245: RDS reads sr.arg, sr.lc, sr.ldep, sr.phase, sr.time, sr.timer, sr.far, sr.poison and sr.node; RDFN a frontier register's count or an element, zero past
the count; WRS sets sr.lc's count, sr.timer and the fields of sr.far, and clears sr.poison where bit 16 is set. -/
def Obligations.RcSpecials : Prop :=
  ∀ (s : State) (d a j f : Nat),
  let r := s.rc s.fcore
  let v := (s.qv a).toNat
  let n (x : Nat) : W64 := BitVec.ofNat 64 x
  (∀ w ∈ [(0, 0), (1, (r.loops.head?.map (fun l => n l.lc)).getD 0), (2, n r.loops.length), (3, n r.phase), (5, n s.time), (6, n r.timer), (8, n r.far), (9, n r.poison),
      (0x00A, n (s.nodeHandle r.node))], s.Puts (.rcRds d w.1) d w.2 4) ∧
  s.Puts (.rcRdfn d 1 j f) d (n (r.fns.getD f []).length) 4 ∧
  s.Puts (.rcRdfn d 0 j f) d (match (r.fns.getD f [])[j]? with | some t => n (t.1 + t.2 * 2 ^ 32) | none => 0) 4 ∧
  s.Turns (.rcWrs a 6) (fun r => { r with timer := v, pc := r.pc + 4 }) ∧
  s.Turns (.rcWrs a 8) (fun r => { r with far := v % 2 ^ 33, pc := r.pc + 4 }) ∧
  s.Turns (.rcWrs a 9) (fun r => { r with poison := if v / 2 ^ 16 % 2 = 1 then 0 else r.poison, pc := r.pc + 4 }) ∧
  (∀ l ls, r.loops = l :: ls → v < 2 ^ 32 → s.Turns (.rcWrs a 1) (fun r => { r with loops := { l with pend := some v } :: ls, pc := r.pc + 4 }))

/-- R248, R249, R255: BST reads the copies of the node, WAITE the event bits that its mask selects and clears the latched ones, WAITR and PSTAT the phase's word; WAITE with no
bit and WAITR in a phase wait. -/
def Obligations.RcStatus : Prop :=
  ∀ (s : State) (d a m : Nat),
  let r := s.rc s.fcore
  let got := s.evBits s.fcore &&& m
  let flying := ((s.core s.fcore).copies.filter (fun c => c.2.node = r.node)).length
  s.Puts (.rcPstat d) d (BitVec.ofNat 64 r.word) 4 ∧
  (r.inPhase = false → s.Puts (.rcWaitr d) d (BitVec.ofNat 64 r.word) 4) ∧
  (r.inPhase = true → exec (.rcWaitr d) s = .next s) ∧
  (0 < m → m < 64 → got ≠ 0 →
    s.Turns (.rcWaite d m) (fun r => { Rc.put d (BitVec.ofNat 64 got) 4 r with ev := r.ev - (r.ev &&& got) })) ∧
  (0 < m → m < 64 → got = 0 → exec (.rcWaite d m) s = .next s) ∧
  (0 < flying ∨ (s.core s.fcore).copyF = true → (s.acquire s.fcore 8 []).2 = .ok () →
    s.Reads (.rcBst d a 0 0) (Rc.put d (BitVec.ofNat 64 ((if (s.core s.fcore).copyF then 2 ^ 17 else 0) + flying)) 4)) ∧
  (flying = 0 → (s.core s.fcore).copyF = false → (s.acquire s.fcore 8 (s.core s.fcore).copyClr).2 = .ok () →
    s.Reads (.rcBst d a 0 0) (Rc.put d (BitVec.ofNat 64 (2 ^ 16)) 4))

/-! ## Region controllers: faults, privilege, phases (R148, R237, R240, R250 to R258, R305, R306) -/

/-- R148, R237, R240 to R243, R247, R250 to R252, R305: TRAP n raises 0x0F8 + n, and the scalar, jump, loop, register and phase instructions that the spec gives a cause fault with it:
at kernel level the node ends; at the levels above the record goes to the manager and the rest runs on. -/
def Obligations.RcFaults : Prop :=
  ∀ (s : State) (d a b c n o e z m : Nat),
  let r := s.rc s.fcore
  let x := (s.qv a).toNat
  let last := (((r.pc : Int) + 4 * (BitVec.ofNat 15 o).toInt) % 2 ^ 32).toNat
  (n < 8 → s.Stops (.rcTrap n) (0x0F8 + n) 0) ∧
  (63 < n → s.Stops (.rcShli d a n) 0x0C0 0 ∧ s.Stops (.rcShri d a n) 0x0C0 0) ∧
  (x % 4 ≠ 0 → s.Stops (.rcJr d a) 0x0CA (x % 2 ^ 32)) ∧ (e % 4 ≠ 0 → s.Stops (.rcJl d e) 0x0CA e) ∧
  (2 ^ 32 ≤ x → s.Stops (.rcLoop a o) 0x0D1 0) ∧
  (x < 2 ^ 32 → s.inProgram s.fcore last = false → s.Stops (.rcLoop a o) 0x0C9 last) ∧
  (x < 2 ^ 32 → s.inProgram s.fcore last = true → decodeRc (s.rcWordAt s.fcore last) 0 ≠ .rcEndl → s.Stops (.rcLoop a o) 0x0D0 0) ∧
  (x < 2 ^ 32 → s.inProgram s.fcore last = true → decodeRc (s.rcWordAt s.fcore last) 0 = .rcEndl → 4 ≤ r.loops.length → s.Stops (.rcLoop a o) 0x0D6 0) ∧
  ((∀ l ls, r.loops = l :: ls → l.last ≠ r.pc) → s.Stops .rcEndl 0x0D5 0) ∧
  (10 ≤ m → s.Stops (.rcAmo d a b z c n m) 0x0C0 0) ∧ s.Stops (.rcFence 0 n) 0x0C0 0 ∧
  (m = 0 ∨ 64 ≤ m → s.Stops (.rcWaite d m) 0x0C0 0) ∧ s.Stops (.rcBst d a 3 n) 0x0C0 0 ∧
  (n ∈ [0, 2, 3, 4, 5, 7, 0x00A] → s.Stops (.rcWrs a n) 0x0C4 0) ∧
  (n ∈ [0x00B, 0x0FF, 0x200, 0x7FFF] → s.Stops (.rcRds d n) 0x0C0 0 ∧ s.Stops (.rcWrs a n) 0x0C0 0) ∧
  (r.loops = [] → s.Stops (.rcWrs a 1) 0x0D5 0) ∧
  (r.inPhase = true → s.Stops (.rcCfg e) 0x0E5 0) ∧
  (r.loads = [] → r.refused = none → r.inPhase = true ∨ r.applied = false → s.Stops .rcGo 0x0E5 0) ∧
  (a + n ≤ 31 → s.qv (a + n) = 0 → s.Stops (.rcIter a n) 0x0E1 0) ∧
  (256 ≤ x → s.Stops (.rcBarc a) 0x0E3 0)

/-- R148, R305, R306: at kernel level every instruction of row 0x60, and a read or write of a privileged register, is a privilege fault, 0x144; at supervisor level SEALK, ATTEST and PART are. -/
def Obligations.RcPrivilege : Prop :=
  ∀ (s : State) (d a b n : Nat),
  let manager : List Instr := [.rcSealk d a b, .rcSealkRet a, .rcSealkCur a, .rcAttest d a b, .rcAttestAcc a b, .rcAttestClose a, .rcPartCreate d a b, .rcPartDestroy d a b,
    .rcPartRead d a b]
  let supervisor : List Instr := [.rcMtp a b n, .rcMfp d a n, .rcTlbi a, .rcTlbiRange a b, .rcTlbiAll, .rcCtxs d a b, .rcCtxr d a b, .rcKill a, .rcKillPart, .rcPrmt a, .rcPrmtPart,
    .rcScrub d a b, .rcMigr d a b, .rcCkpt d a, .rcRstr d a, .rcRets a b, .rcEvtq a b, .rcEvtqWait d, .rcRds d (0x100 + n % 0x100), .rcWrs a (0x100 + n % 0x100)]
  ((s.rc s.fcore).level = 0 → ∀ i ∈ manager ++ supervisor, s.Stops i 0x144 0) ∧ ((s.rc s.fcore).level = 1 → ∀ i ∈ manager, s.Stops i 0x144 0)

/-- R57 to R59, R251 to R255: CFG queues a load; CFGW waits for the loads; ITER sets the iteration space; GO begins a phase: the count rises, the word's state field is zero
and the count's low half stands in it; ABORTR marks a running phase. None changes memory. -/
def Obligations.RcPhases : Prop :=
  ∀ (s : State) (a n e : Nat),
  let r := s.rc s.fcore
  (r.inPhase = false → s.Turns (.rcCfg e) (fun r => { r with loads := r.loads ++ [e], pc := r.pc + 8 })) ∧
  (r.loads ≠ [] → exec .rcCfgw s = .next s ∧ exec .rcGo s = .next s) ∧
  (r.loads = [] → r.refused = none → s.Turns .rcCfgw (Rc.skip 4)) ∧
  (let es := (List.range (n + 1)).map (fun j => (s.qv (a + j)).toNat)
   a + n ≤ 31 → (∀ x ∈ es, 1 ≤ x ∧ x ≤ 2 ^ 20) → es.prod ≤ 2 ^ 40 → s.Turns (.rcIter a n) (fun r => { r with space := es, pc := r.pc + 4 })) ∧
  (r.loads = [] → r.refused = none → r.inPhase = false → r.applied = true → (s.startPhase s.fcore).2 = .ok () →
    ∃ t, exec .rcGo s = .next t ∧ t.mem = s.mem ∧ (t.rc s.fcore).inPhase = true ∧ (t.rc s.fcore).phase = r.phase + 1 ∧
      (t.rc s.fcore).word = (r.phase + 1) % 2 ^ 16 * 2 ^ 32 ∧ (t.rc s.fcore).pc = r.pc + 4 ∧ (t.rc s.fcore).q = r.q ∧
      (∀ x ∈ r.specs, (t.cell x.core x.cell).gen = { on := true })) ∧
  s.Turns .rcAbortr (fun r => { r with aborting := r.inPhase || r.aborting, pc := r.pc + 4 }) ∧
  (∀ (d : Nat) (t : State) (b : List Byte), d < 8 → s.readVA s.fcore (s.partAt s.fcore) (r.image + e) 64 = (t, .ok b) → fld b 0x28 1 < 64 →
    let x : SpecRec := ⟨s.fcore + fld b 0x28 1, d, b⟩
    t.specCause s.fcore (t.regionCores s.fcore) x = none →
    ∃ u, exec (.rcSpec d e) s = .next u ∧
      RcTo t u (fun r => { r with specs := r.specs.filter (fun y => !(y.core == x.core && y.handle == d)) ++ [x], pc := r.pc + 8 }))

/-- R256 to R258: BARC queues its point for the generators that it selects, or, where none of them has requests to make, lets them release and acquire; INJ puts a token into its
port, which has room, and answers 1; XTR writes the oldest token of the extract FIFO to scratchpad and answers its header, or all ones where there is none. -/
def Obligations.RcTokens : Prop :=
  ∀ (s : State) (d a b : Nat),
  let r := s.rc s.fcore
  let m := (s.qv a).toNat
  (m < 256 → (∃ h, h < 8 ∧ bit m h = true ∧ (s.cell s.fcore (cellOfHandle h)).gen.live = true) →
    ∃ t, exec (.rcBarc a) s = .next t ∧ (t.rc s.fcore).barc = r.barc ++ [m] ∧ (t.rc s.fcore).pc = r.pc + 4 ∧ t.mem = s.mem) ∧
  (m < 256 → (∀ h, h < 8 → bit m h = true → (s.cell s.fcore (cellOfHandle h)).gen.live = false) → (s.barcMerge s.fcore m).2 = .ok () →
    s.Reads (.rcBarc a) (Rc.skip 4)) ∧
  (r.extract = [] → s.Puts (.rcXtr d a) d (BitVec.allOnes 64) 4) ∧
  (∀ g x xs h, r.extract = (g, x) :: xs → halves s.fcore (m % 2 ^ 32) 80 64 false = .ok [h] → s.NoRace s.fcore 8 h.core h.off 80 true 1 0 0 →
    s.free90 h.core h.off 80 → ∃ u t, exec (.rcXtr d a) s = .next t ∧ Noted s u ∧
      RcTo u t (Rc.ready (fun r => { Rc.put d (BitVec.ofNat 64 (tokenHeader x)) 4 r with extract := xs })) ∧
      (s.Inv → Memory.readN t.mem (spadBase h.core + h.off) 80 = payload x.reg ++ leBytes 16 (tokenHeader x) ∧ MemBut s t (spadBase h.core + h.off) 80)) ∧
  (∀ p h, s.injDest s.fcore m = some p → halves s.fcore ((s.qv b).toNat % 2 ^ 32) 64 64 false = .ok [h] → s.NoRace s.fcore 8 h.core h.off 64 false 0 0 0 →
    s.free90 h.core h.off 64 → (s.port p.core p.loc p.ctx p.port).fifo = [] →
    ∃ u x, Noted (s.rcWaits false) u ∧ u.mem = s.mem ∧
      exec (.rcInj d a b) s = .next
        ((({ u with freeNo := s.freeNo + 2 } : State).reach p (edgeKey s.fcore 48 0 0)
          (injToken m (Memory.readN s.mem (spadBase h.core + h.off) 64) ((s.port p.core p.loc p.ctx p.port).got == 0) x) []).rcPut d 1))

/-- R250, R319: HALT ends the program once no phase runs; SYS posts the service with its node, number and argument and waits; RETS, from a supervisor, gives the waiting controller of a
running region the value and lets it go on. -/
def Obligations.RcServices : Prop :=
  ∀ (s : State) (d a b n : Nat),
  let r := s.rc s.fcore
  (r.inPhase = true → exec .rcHalt s = .next s) ∧
  (r.inPhase = false → s.Turns .rcHalt (fun r => { r with mode := if r.level = 0 then .halting else .stopped })) ∧
  (∃ t x, exec (.rcSys d a n) s = .next t ∧ t.posts = s.posts ++ [x] ∧ x.queue = s.partAt s.fcore ∧ x.kind = 2 ∧ x.source = agentId s.fcore 48 ∧
    x.body = leBytes 2 (agentId s.fcore 48) ++ leBytes 2 (s.nodeHandle r.node) ++ leBytes 4 n ++ leBytes 8 (s.qv a).toNat ∧
    RcTo { s with posts := t.posts, seqs := t.seqs } t (fun r => { r with mode := .sys d none })) ∧
  (∀ k q g, r.level = 1 → (s.qv a).toNat % 2 ^ 16 = 64 * k + 48 → k ≠ s.fcore → bit s.fuses.isles (isleOf k) = true → s.partAt k = s.partAt s.fcore →
    s.regionAt k = some g → g.st = .running → (s.rc k).mode = .sys q none →
    ∃ t, exec (.rcRets a b) s = .next t ∧ t.rc k = (s.rc k).resume q (s.qv b) ∧ t.rc s.fcore = Rc.skip 4 r ∧ (∀ j, j ≠ k → j ≠ s.fcore → t.core j = s.core j) ∧
      t = { s with cores := t.cores })

/-! ## Region controllers: copies, barriers, publication (R105 to R113, R260 to R264) -/

/-- R113, R260, R261: a copy whose checks pass enters the copy engine under the lowest free number, with its direction, operand, barrier and extent, and the controller goes on; the bytes move
later. A CPY of no lines and a CPYR of no tiles enter none. -/
def Obligations.RcCopies : Prop :=
  ∀ (s : State) (r a b t p : Nat), r < 2 → (t = 31 ∨ t < s.barrierCount s.fcore) →
  let k := s.fcore
  let addr := (s.qv a).toNat % 2 ^ 32
  let n := (s.qv b).toNat % 2 ^ 32
  let off := (s.qv b).toNat / 2 ^ 32 * 64
  let enters (i : Instr) (c : Copy) : Prop := ∃ u, exec i s = .next u ∧ CoresGo s u (Rc.skip 4) ∧
    (u.core k).copies = aset (s.core k).copies (s.core k).copyId c ∧ (u.core k).words = (s.core k).words
  (n = 0 → s.Turns (.rcCpy r a b t p) (Rc.skip 4)) ∧
  (n ≠ 0 → s.copyCause t p (r == 1) off (64 * n) = none → spadCause k addr (64 * n) = none → s.mayIssue 9 →
    enters (.rcCpy r a b t p) { s.newCopy 0 (r == 1) p t with spad := addr, off := off, n := n }) ∧
  (a < s.ringCount k → s.copyCause t p (r == 1) off (n * (s.ringEntry k a).2.2) = none →
    (n = 0 → s.Turns (.rcCpyr r a b t p) (Rc.skip 4)) ∧
    (n ≠ 0 → r = 1 → s.mayIssue 9 → enters (.rcCpyr r a b t p) { s.newCopy 1 true p t with off := off, n := n, ring := a })) ∧
  (∀ w ∈ [(Instr.rcCpyg a b t p, 2), (.rcCpyx a b t p, 3), (.rcCpys a b t p, 4)],
    s.copyCause t p (w.2 == 4) 0 0 = none → spadCause k addr 0 = none → (∃ h, halves k ((s.qv b).toNat % 2 ^ 32) 32 32 false = .ok h) → s.mayIssue 9 →
    enters w.1 { s.newCopy w.2 (w.2 == 4) p t with spad := addr, desc := (s.qv b).toNat % 2 ^ 32 })

/-- R262: CPST ends the node's copies on a barrier, or all of them for index 31, and answers how many it stopped: a ring copy keeps the tiles that it has started, any other leaves the
engine. -/
def Obligations.RcCopyStop : Prop :=
  ∀ (s : State) (d t : Nat), (t = 31 ∨ t < s.barrierCount s.fcore) → rising 0 (s.core s.fcore).copies = true →
  let k := s.fcore
  let mine := (s.core k).copies.filter (fun c => decide (c.2.node = (s.rc k).node) && (!c.2.stopped && (t == 31 || c.2.tb == t)))
  ∃ u, exec (.rcCpst d t) s = .next u ∧ CoresGo s u (Rc.put d (BitVec.ofNat 64 mine.length) 4) ∧
    (∀ i c, (i, c) ∈ mine → (c.kind ≠ 1 ∨ c.slots = []) → aget (u.core k).copies i = none) ∧
    (∀ i c, (i, c) ∈ mine → c.kind = 1 → c.slots ≠ [] → aget (u.core k).copies i = some { c with stopped := true, n := c.tile + c.slots.length }) ∧
    (∀ i, (∀ c, (i, c) ∉ mine) → aget (u.core k).copies i = aget (s.core k).copies i)

/-- R110 to R112, R263: TBI writes a barrier's initial state and its reference; TBEX adds to the sectors; TBW goes on once the phase differs from the reference, which becomes the
phase, and waits with W set while it is the same. -/
def Obligations.RcBarriers : Prop :=
  ∀ (s : State) (a t : Nat), t < 31 → t < s.barrierCount s.fcore →
  let k := s.fcore
  let off := (s.barrierEntry k t).1
  let A := spadBase k + off
  let bar := Bar.read s.mem A
  let x := (s.qv a).toNat
  let v := bar.sectors + (s.qv a).toInt
  let free (w : Bool) : Prop := s.NoRace k 8 k off 16 w 2 16 1
  (x < 2 ^ 20 → (∀ c ∈ (s.core k).copies, c.2.node = (s.rc k).node → c.2.tb ≠ t) → free true →
    ∃ u, exec (.rcTbi a t) s = .next u ∧ u.mem = Bar.write s.mem A ⟨0, x, false, false, false, 0, x, regionHandle k⟩ ∧
      Goes s u (fun r => { r with refs := r.refs.set t 0, pc := r.pc + 4 })) ∧
  (-(2 ^ 31) ≤ v → v < 2 ^ 31 → (bar.arrivals ≠ 0 ∨ v ≠ 0 ∨ bar.f = true ∨ bar.d = true) → free true →
    ∃ u, exec (.rcTbex a t) s = .next u ∧ u.mem = Bar.write s.mem A { bar with sectors := v } ∧ Goes s u (Rc.skip 4)) ∧
  (bar.f = false → bar.d = false →
    (bar.phase ≠ (s.rc k).refs.getD t 0 → free false → (s.acquire k 8 ((aget (s.core k).tbClr off).getD [])).2 = .ok () →
      ∃ u, exec (.rcTbw t) s = .next u ∧ u.mem = s.mem ∧ Goes s u (fun r => { r with refs := r.refs.set t bar.phase, pc := r.pc + 4 })) ∧
    (bar.phase = (s.rc k).refs.getD t 0 → bar.w = true → exec (.rcTbw t) s = .next s) ∧
    (bar.phase = (s.rc k).refs.getD t 0 → bar.w = false → free true →
      ∃ u, exec (.rcTbw t) s = .next u ∧ u.mem = Bar.write s.mem A { bar with w := true } ∧ Goes s u id))

/-- R105 to R108, R116, R264, R371 to R373: SHD takes the buffer's newest version into every operand of the node that names it; PUB, once the node's copies into the buffer have performed, writes the next
version, makes the shadow the buffer's and answers the version, or finds a newer one (0x05D) and ends the node with the shadow dropped; DISC drops the shadow; in a phase PUB and DISC fault. A channel of the
host writes into its shadow, counts its writes, publishes in order once a raising write's count is reached and delivers the token. -/
def Obligations.RcPublication : Prop :=
  ∀ (s : State) (d p : Nat),
  let k := s.fcore
  let n := (s.rc k).node
  let pt := s.partOfNode n
  let o := s.operand n p
  let j := s.sameBuf n p
  let buf (t : State) (pt h : Nat) : Buf := (aget (t.part pt).bufs h).getD {}
  let now := buf s pt o.handle
  let busy := (s.copiesOf k n).any (fun c => c.2.out && (s.operand n c.2.op).handle == o.handle)
  -- every operand of the node that names the buffer takes a version
  let based (u : State) (v : Nat) (map : Assoc Nat) : Prop := ∀ w, aget s.nodes n = some w → (aget u.nodes n).map (·.ops) = some (w.ops.map (fun x =>
    if x.handle = o.handle ∧ x.mode ≠ 0 then { x with snap := v, base := v, map := map, shadow := [] } else x))
  (o.mode ≠ 0 → (s.operand n j).shadow = [] → ∃ u, exec (.rcShd d p) s = .next u ∧
    RegsTo s u d (BitVec.ofNat 64 now.version) 4 ∧ u.mem = s.mem ∧ (u.part pt).bufs = (s.part pt).bufs ∧ based u now.version now.map) ∧
  (o.mode = 0 ∨ (s.operand n j).shadow ≠ [] → s.Stops (.rcShd d p) 0x05C 0) ∧
  (o.allows true = false → s.Stops (.rcPub d p) 0x05C 0) ∧
  (o.allows true = true → (s.rc k).inPhase = true → s.Stops (.rcPub d p) 0x0E5 0) ∧
  (o.allows true = true → (s.rc k).inPhase = false → busy = true → exec (.rcPub d p) s = .next s) ∧
  (o.allows true = true → (s.rc k).inPhase = false → busy = false →
    (∀ t, now.version = (s.operand n j).base → let v := (now.version + 1) % 2 ^ 48
      s.writeVA k pt (bits (s.part pt).buftab 47 5 * 32 + 32 * o.handle + 0x10) (leBytes 8 v) = (t, .ok ()) →
      ∃ u, exec (.rcPub d p) s = .next u ∧ RegsTo s u d (BitVec.ofNat 64 v) 4 ∧ u.mem = t.mem ∧ (buf u pt o.handle).version = v ∧
        (buf u pt o.handle).map = (s.operand n j).shadow.foldl (fun m e => aset m e.1 e.2) now.map ∧ based u v (buf u pt o.handle).map) ∧
    (now.version ≠ (s.operand n j).base → (s.rc k).level = 0 →
      ∃ u, exec (.rcPub d p) s = .next u ∧ u.posts = s.posts ++ [s.faultRecord 2 1 k 48 0x05D 0 0 0] ∧ Failing s u k ∧ u.mem = s.mem ∧ (u.part pt).bufs = (s.part pt).bufs)) ∧
  (o.mode ≠ 0 → (s.rc k).inPhase = true → s.Stops (.rcDisc p) 0x0E5 0) ∧
  (o.mode ≠ 0 → (s.rc k).inPhase = false → ∃ u, exec (.rcDisc p) s = .next u ∧ RegsTo s u 0 0 4 ∧ u.mem = s.mem ∧ (u.part pt).bufs = (s.part pt).bufs ∧
    ∀ v, aget s.nodes n = some v → (aget u.nodes n).map (·.ops) = some (v.ops.modify j (fun x => { x with shadow := [] }))) ∧
  -- a write message, by a channel's own event or in a packet; a channel whose entry is open again begins anew
  (let c1 (pt : Nat) (m : HostMsg) : Channel := if (s.chan pt m.channel).closed then { fifo := (s.chan pt m.channel).fifo } else s.chan pt m.channel
   let about (pt : Nat) (m : HostMsg) (sev cause addr : Nat) : EvRec := s.unitRecord pt sev 6 0 (m.channel % 64) cause addr 0
   let Writes (i : Instr) (pt : Nat) (m : HostMsg) : Prop :=
    (m.dirty = true ∨ m.kind ≠ 0 → s.Posts i (about pt m 2 0x0BB 0) (fun u => u.mem = s.mem ∧ u.parts = s.parts)) ∧
    (m.dirty = false → m.kind = 0 → s.chanOpen pt m.channel = false → s.Posts i (about pt m 2 0x0BC 0) (fun u => u.mem = s.mem ∧ (u.part pt).bufs = (s.part pt).bufs)) ∧
    (m.dirty = false → m.kind = 0 → s.chanOpen pt m.channel = true → (c1 pt m).held = none →
      (bits (s.part pt).buftab 59 48 ≤ m.handle → s.Posts i (about pt m 2 0x0BB 0) (fun u => u.mem = s.mem ∧ u.chan pt m.channel = c1 pt m)) ∧
      (m.handle < bits (s.part pt).buftab 59 48 → ∀ t b, (s.openChan pt m.channel).registerBuf (s.serverOf pt) pt m.handle = (t, .ok b) →
        (b.size < m.offset + m.payload.length → ∃ u, exec i s = .next u ∧ u.mem = t.mem ∧ u.posts = t.posts ++ [t.unitRecord pt 2 6 0 (m.channel % 64) 0x0BB m.offset 0]) ∧
        (m.offset + m.payload.length ≤ b.size → ∀ w, t.shadowWrite (s.serverOf pt) pt m.channel m.handle b m.offset m.payload = (w, .ok ()) →
          ∃ u, exec i s = .next u ∧ u.mem = w.mem ∧ u.posts = w.posts ∧ (u.chan pt m.channel).shadow = (w.chan pt m.channel).shadow ∧
            (u.chan pt m.channel).writes = (c1 pt m).writes + 1 ∧ m.handle ∈ (u.chan pt m.channel).order ∧ (u.chan pt m.channel).fifo = (s.chan pt m.channel).fifo)))
   let Raises (i : Instr) (pt : Nat) (m : HostMsg) : Prop :=
    (m.dirty = true ∨ m.kind ≠ 1 ∨ m.payload.length ≠ 64 → s.Posts i (about pt m 2 0x0BB 0) (fun u => u.mem = s.mem ∧ u.parts = s.parts)) ∧
    (m.dirty = false → m.kind = 1 → m.payload.length = 64 →
      (s.chanOpen pt m.channel = false → s.Posts i (about pt m 2 0x0BC 0) (fun u => u.mem = s.mem ∧ (u.part pt).bufs = (s.part pt).bufs)) ∧
      (s.chanOpen pt m.channel = true → (c1 pt m).waiting = none → (c1 pt m).fifo.length < 256 →
        ∃ u, exec i s = .next u ∧ u.mem = s.mem ∧ u.posts = s.posts ∧ u.chan pt m.channel = { c1 pt m with waiting := some m, raised := (c1 pt m).raised + 1 }) ∧
      (s.chanOpen pt m.channel = true → (c1 pt m).waiting = none → 256 ≤ (c1 pt m).fifo.length → s.Posts i (about pt m 0 0x0BE 0) (fun u => u.mem = s.mem ∧ u.chan pt m.channel = c1 pt m)) ∧
      (s.chanOpen pt m.channel = true → (c1 pt m).waiting ≠ none → s.Posts i (about pt m 2 0x0BD 0) (fun u => u.chan pt m.channel = { fifo := (s.chan pt m.channel).fifo, closed := true } ∧
        let at' := spadBase (s.serverOf pt) + bits (s.part pt).hchan 31 11 * 2048 + 16 * m.channel
        (s.Inv → Memory.read u.mem at' = 0 ∧ MemBut s u at' 1))))
   let pkt := s.place.pkt
   Writes .evHostWrite s.place.y s.place.msg ∧ Raises .evHostRaisingWrite s.place.y s.place.msg ∧
   (s.place.port < 8 →
     (pkt.modeOk = false ∨ pkt.wellFormed = false → s.Posts .evUePacketReceive (s.unitRecord pkt.part 0 5 0 (32 + s.place.port) 0x12B 0 0) (fun u => u.parts = s.parts ∧ u.mem = s.mem)) ∧
     (pkt.modeOk = true → pkt.wellFormed = true → pkt.secOk = false →
       s.Posts .evUePacketReceive (s.unitRecord pkt.part 0 5 0 (32 + s.place.port) 0x12C 0 0) (fun u => u.parts = s.parts ∧ u.mem = s.mem)) ∧
     (pkt.modeOk = true → pkt.wellFormed = true → pkt.secOk = true →
       (pkt.msg.kind ≠ 1 → Writes .evUePacketReceive pkt.part pkt.msg) ∧ (pkt.msg.kind = 1 → Raises .evUePacketReceive pkt.part pkt.msg))) ∧
   (8 ≤ s.place.port → exec .evUePacketReceive s = .next s)) ∧
  -- a channel's publication and its token
  (let y := s.place.y
   let x := s.place.x
   let c := s.chan y x
   let ent := s.chanEntry y x
   let cleared : Channel := { c with shadow := [], order := [], bases := [], waiting := none }
   (∀ m, c.waiting = some m → c.held = none →
    (c.writes < m.declared → exec .evHostChannelPublish s = .next s) ∧
    (m.declared ≤ c.writes → ∀ u l, s.publishChan y c c.order [] = (u, .ok (some l)) →
      ∃ t tok, exec .evHostChannelPublish s = .next t ∧ t.mem = u.mem ∧ t.posts = u.posts ∧ t.chan y x = { cleared with fifo := c.fifo ++ [(tok, l)] } ∧ l.map (·.handle) = c.order ∧
        (c.order.Nodup → ∀ h ∈ c.order, (buf t y h).version = ((buf s y h).version + 1) % 2 ^ 48) ∧
        tok.kind = .data ∧ tok.reg.fmt = fmtOf (fld ent 1 1 % 16) ∧ (∀ i, i < 16 → okAt tok.reg i = true) ∧ (∀ i, i < 16 → laneOf tok.reg i = narrow tok.reg.fmt (fld m.payload (4 * i) 4)) ∧
        tok.cls = fld ent 2 1 % 16 ∧ tok.frame = 0 ∧ tok.iter = BitVec.ofNat 16 c.raised) ∧
    (m.declared ≤ c.writes → ∀ u, s.publishChan y c c.order [] = (u, .ok none) →
      ∃ t, exec .evHostChannelPublish s = .next t ∧ t.mem = u.mem ∧ t.chan y x = cleared ∧ t.posts = u.posts ++ [u.unitRecord y 2 6 0 (x % 64) 0x05D 0 0])) ∧
   (∀ t l r g, c.fifo = (t, l) :: r → t.kind = .data →
    let lead := fld ent 4 2 / 64
    let id := reloc lead (fld ent 6 2)
    let dst : Dest := ⟨id / 64, id % 64, 0, fld ent 8 1 % 4⟩
    let w := s.portWord dst.core dst.loc 0 dst.port
    s.regionAt dst.core = some g → g.lead = lead → g.part = y → g.st = .running → s.HasPort dst.core dst.loc 0 dst.port → (s.ctx dst.core dst.loc 0).loaded = true → pwEn w = true →
      pwSrc w = agentId lead 48 → (pwEos w = 3 → (s.rc lead).inPhase = true ∨ (s.rc lead).phase = 0) →
      ∃ u, exec .evHostTokenDeliver s = .next u ∧ u.posts = s.posts ∧ (u.chan y x).fifo = r ∧ JoinedAt s u dst (edgeKey lead 48 0 0) t))

/-! ## Region controllers: nodes and collectives (R72 to R76, R80, R259, R265 to R271) -/

/-- R72, R74, R75, R80, R259, R265: NDSUB enters the node that its record describes, waiting, ready or cancelled, under a handle that no live node has, and answers the handle; NDDEP answers 1 and adds a
link to a node that has not ended, 0 to one that has completed, 2 to one that was terminated; NDSTAT and NDWAIT answer the node's state; PIN on a pinned node goes on. -/
def Obligations.RcNodes : Prop :=
  ∀ (s : State) (d a b : Nat),
  let k := s.fcore
  let va := (s.qv a).toNat
  let ra := (s.qv b).toNat
  let pt := s.partAt k
  let die := dieOf k % 4
  (va % 64 = 0 → ∀ t rcd u len h w, s.readVA k pt va 64 = (t, .ok rcd) → t.recordCause k rcd (nodeOf rcd va pt (t.submitter k)) = none →
    t.progLenOf k (nodeOf rcd va pt (t.submitter k)) = (u, .ok len) → len ≤ 65536 → u.newHandle = (some h, w) → w.fcore = k →
    ∃ x v, exec (.rcNdsub d a) s = .next x ∧ (x.rc k).q = (Rc.put d (BitVec.ofNat 64 h) 4 (w.rc k)).q ∧ (x.rc k).pc = (w.rc k).pc + 4 ∧ x.nodeNext = w.nodeNext + 1 ∧
      aget x.nodes w.nodeNext = some v ∧ v.handle = h ∧ v.va = va ∧ v.part = pt ∧ v.image = fld rcd 0x10 8 ∧
      v.st = (if w.doomed.contains (pt, va) then 5 else if bits (fld rcd 4 4) 15 0 = 0 then 1 else 0)) ∧
  (∀ n v, s.issuedNode k va = some (n, v) →
    (s.nodes.any (fun m => m.2.part == pt && m.2.va == ra) = false →
      (v.st = 3 → ∃ x, exec (.rcNddep d a b) s = .next x ∧ RcTo { s with early := s.early ++ [(pt, ra, v.clr)] } x (Rc.put d 0 4)) ∧
      (3 < v.st → ∃ x, exec (.rcNddep d a b) s = .next x ∧ RcTo { s with doomed := x.doomed } x (Rc.put d 2 4) ∧ (pt, ra) ∈ x.doomed) ∧
      (v.st < 3 → (s.die die).links < 1024 → ∀ t m, s.stepPreds k pt ra true = (t, .ok m) →
        ∃ x, exec (.rcNddep d a b) s = .next x ∧ RcTo { t with nodes := x.nodes, dies := x.dies } x (Rc.put d 1 4) ∧ (x.die die).links = (t.die die).links + 1)) ∧
    ((let r := s.takeSet k []; (r.1.acquire k 8 r.2).2 = .ok ()) → s.Reads (.rcNdstat d a) (Rc.put d (BitVec.ofNat 64 v.st) 4)) ∧
    (v.st < 3 → exec (.rcNdwait d a) s = .next s) ∧
    (3 ≤ v.st → (let r := s.takeSet k (if v.st = 3 then v.clr else []); (r.1.acquire k 8 r.2).2 = .ok ()) → s.Reads (.rcNdwait d a) (Rc.put d (BitVec.ofNat 64 v.st) 4))) ∧
  (∀ v, aget s.nodes (s.rc k).node = some v → v.standing = true →
    ((s.rc k).pinned = true → s.Turns .rcPin (Rc.skip 4)) ∧
    ((s.rc k).pinned = false → ∀ t, (s.release k 8).1.releaseSuccessors k (s.rc k).node (s.release k 8).2 = (t, .ok ()) → t.fcore = k →
      ∃ x, exec .rcPin s = .next x ∧ RcTo { t with nodes := x.nodes } x (fun r => { r with pinned := true, pc := r.pc + 4 }) ∧
        ∀ w, aget t.nodes (s.rc k).node = some w → aget x.nodes (s.rc k).node = some { w with sent := true }))

/-- R266, R268 to R273, R277, R281, R286: COMM takes the lowest free slot of the die's engine for the communicator that its record and rank table describe; COLL queues a collective and answers its handle;
CSTAT and CWAIT answer a collective's status; CSEL sets or lifts the override. -/
def Obligations.RcCollectives : Prop :=
  ∀ (s : State) (d a b p o : Nat),
  let k := s.fcore
  let pt := s.partAt k
  let die := dieOf k % 4
  let ch := (s.qv a).toNat
  let v := (s.qv b).toNat
  (∀ t rcd g u tb g' slot vcs,
    let n := fld rcd 4 1
    let table := (List.range n).map (fun i => fld tb (8 * i) 8)
    s.rcBehind (ch % 2 ^ 32) 64 = false → (s.rcWaits false).load (s.agent k 8) k (ch % 2 ^ 32) 64 64 false = (t, .ok (rcd, g)) → commForm rcd = true →
    t.rcBehind (fld rcd 8 4) (8 * n) = false → (t.rcWaits false).load (t.agent k 8) k (fld rcd 8 4) (8 * n) 8 false = (u, .ok (tb, g')) → table.all entryForm = true → table.all (u.entryReach pt) = true →
    u.entryOwn pt (table.getD (fld rcd 5 1) 0) = true → entryCore (table.getD (fld rcd 5 1) 0) = k → u.loadsRank k = false → (u.die die).freeSlot = some slot →
    u.takePairs die ((dedup (table.flatMap (u.portsTo k pt))).filter (· != 18)) = some vcs →
    ∃ x c, exec (.rcComm d a) s = .next x ∧ (x.rc k).q = (Rc.put d (BitVec.ofNat 64 slot) 4 (u.rc k)).q ∧ aget (x.die die).comms slot = some c ∧
      c.core = k ∧ c.node = (u.rc k).node ∧ c.key = fld rcd 0 4 ∧ c.n = n ∧ c.rank = fld rcd 5 1 ∧ c.table = table ∧ c.via = table.map (u.portTo k pt) ∧ c.vcs = vcs ∧ c.st = 1) ∧
  (∀ c t bs g, s.commAt k ch = some c → p < 9 → o < 9 → s.rcBehind (v % 2 ^ 32) 32 = false → (s.rcWaits false).load (s.agent k 8) k (v % 2 ^ 32) 32 32 false = (t, .ok (bs, g)) → collCause c p o bs = none →
    ((t.release k 8).1.acquire k 12 (t.release k 8).2).2 = .ok () →
    ∃ x y q, exec (.rcColl d a b p o) s = .next x ∧ (x.rc k).q = (Rc.put d (BitVec.ofNat 64 (4096 * ch + c.issued % 4096)) 4 (t.rc k)).q ∧
      aget (x.die die).comms ch = some y ∧ y.issued = c.issued + 1 ∧ y.colls = c.colls ++ [q] ∧ q.handle = 4096 * ch + c.issued % 4096 ∧ q.op = p ∧ q.oper = o ∧
      q.src = fld bs 0 4 ∧ q.dst = fld bs 4 4 ∧ q.size = fld bs 8 4) ∧
  (∀ c q, s.collAt k ch = some (c, q) →
    ((let r := s.takeSet k (if bit q.status 0 then q.clr else []); (r.1.acquire k 8 r.2).2 = .ok ()) →
      s.Reads (.rcCstat d a) (Rc.put d (BitVec.ofNat 64 q.status) 4) ∧ (q.status % 4 ≠ 0 → s.Reads (.rcCwait d a) (Rc.put d (BitVec.ofNat 64 q.status) 4))) ∧
    (q.status % 4 = 0 → exec (.rcCwait d a) s = .next s)) ∧
  (∀ c, s.commAt k ch = some c → v < 128 → bits v 4 2 ≤ 5 →
    ∃ x, exec (.rcCsel a b) s = .next x ∧ RcTo { s with dies := x.dies } x (Rc.skip 4) ∧
      aget (x.die die).comms ch = some { c with setSel := if bit v 6 then none else some (v % 64) })

/-! ## Supervisors and the manager (R305 to R327, R334, R339, R340, R357 to R363, R375 to R380) -/

/-- R238, R314, R317 to R319, R321 to R323, R326, R327, R334 (R333's shared walks: log 66): at a level that may: MTP writes a privileged register of a core that it reaches and MFP reads one; TLBI drops
every cached translation of a range, and what is held on it retries; KILL stops a region and discards what is in it, PRMT makes one drain, and each faults for a handle that it may not; EVTQ sets the queue,
and EVTQ.wait answers its tail once it holds a record. What follows of itself: a cell passes a drain's marker on, a drained region freezes, a late one is killed or runs on, a killed one ends; a record
reaches its queue, is kept, lost or waits; a timer expires. -/
def Obligations.RcSupervision : Prop :=
  ∀ (s : State) (d a b n m : Nat) (g : Region) (e : EvRec),
  let k := s.fcore
  let pt := s.partAt k
  let va := (s.qv a).toNat
  let len := (s.qv b).toNat
  let target := bits va 15 6
  let qn := s.queueNo k
  let p := s.place
  let killed (u : State) : Prop := (∀ r ∈ u.regions, r.lead = g.lead → r.st = .killed) ∧ (∀ j ∈ g.coreList, (u.core j).hasTokens = false ∧ ∀ c ∈ (u.core j).copies, c.2.node ≠ g.node) ∧
    (u.rc g.lead).mode = .stopped ∧ (u.rc g.lead).inPhase = false ∧ ∀ v, aget u.nodes g.node = some v → ∀ o ∈ v.ops, o.shadow = []
  (1 ≤ (s.rc k).level →
    -- MTP and MFP
    (privNumber s.level n = false → s.Stops (.rcMtp a b n) 0x0C0 0 ∧ s.Stops (.rcMfp d a n) 0x0C0 0) ∧
    (privNumber s.level n = true → s.badTarget target = true → s.Stops (.rcMtp a b n) 0x14C 0 ∧ s.Stops (.rcMfp d a n) 0x14C 0) ∧
    (s.badTarget target = false →
      (privNumber s.level n = true → s.Puts (.rcMfp d a n) d (BitVec.ofNat 64 (s.srGet target n)) 4) ∧
      (∀ w ∈ [(0x103, fun p : Part => p.buftab), (0x140, fun p => p.troot), (0x141, fun p => p.shpool), (0x142, fun p => p.spill), (0x1C0, fun p => p.dtag), (0x1C1, fun p => p.rtab), (0x1C3, fun p => p.hchan)],
        s.Puts (.rcMfp d a w.1) d (BitVec.ofNat 64 (w.2 (s.part (s.partAt target)))) 4) ∧
      (∀ w ∈ [(0x103, fun p : Part => { p with buftab := field len 59 5 }), (0x140, fun p => { p with troot := field len 32 12 }), (0x142, fun p => { p with spill := field len 63 21 }),
          (0x1C1, fun p => { p with rtab := field len 31 12 }), (0x1C3, fun p => { p with hchan := field len 31 11 })],
        ∃ u, exec (.rcMtp a b w.1) s = .next u ∧ RcTo { s with parts := u.parts } u (Rc.skip 4) ∧
          ∀ q, u.part q = if q = s.partAt target then w.2 (s.part q) else s.part q) ∧
      (srWritable s.level n = some true → privNumber s.level n = true → ∀ t, s.srSet target n len = .ok t → t.fcore = k → ∃ x, exec (.rcMtp a b n) s = .next x ∧ RcTo t x (Rc.skip 4))) ∧
    -- TLBI; no memory cell has a request at its port
    (let gone (i : Instr) (lo m : Nat) : Prop :=
      (s.remoteOut k 8 ≠ 0 → exec i s = .next s) ∧
      (s.remoteOut k 8 = 0 → (∀ c ∈ s.cores, ∀ l ∈ c.2.cells, l.2.held = []) → ∃ u, exec i s = .next u ∧ RegsTo s u 0 0 4 ∧ u.mem = s.mem ∧
        (∀ c ∈ u.cores, bit (s.part pt).isles (isleOf c.1) = true → ∀ x ∈ c.2.tcache, pageMeets x.1 x.2.2 lo m = false) ∧
        (∀ c ∈ u.isles, bit (s.part pt).isles c.1 = true → ∀ x ∈ c.2.tcache, pageMeets x.1 x.2.2 lo m = false) ∧ (∀ x ∈ u.dies, ∀ w ∈ x.2.walks, w.part ≠ pt) ∧
        ∀ v ∈ u.nodes, v.2.part = pt → ∀ c, v.2.held = some c → ¬(0x060 ≤ c.1 ∧ c.1 ≤ 0x064 ∧ lo ≤ c.2 ∧ c.2 < lo + m))
     gone (.rcTlbi a) (va / 4096 * 4096) 4096 ∧ gone .rcTlbiAll 0 (2 ^ 64) ∧
     (va % 4096 = 0 → len % 4096 = 0 → len ≠ 0 → gone (.rcTlbiRange a b) va len) ∧
     (va % 4096 ≠ 0 ∨ len % 4096 ≠ 0 ∨ len = 0 → s.Stops (.rcTlbiRange a b) 0x0C4 0)) ∧
    -- KILL and PRMT
    (s.regionOf pt va = none → s.Stops (.rcPrmt a) 0x0F4 0 ∧ (s.savedOf pt va = none → s.Stops (.rcKill a) 0x0F4 0) ∧
      (∀ v, s.savedOf pt va = some v → ∃ u, exec (.rcKill a) s = .next u ∧ RegsTo s u 0 0 4 ∧ u.posts = s.posts ++ [s.seqRecord 6 v.region []] ∧
        (∀ w ∈ u.saved, w.node = v.node → w.live = false) ∧ ∀ w, aget u.nodes v.node = some w → w.st = 4)) ∧
    (s.regionOf pt va = some g →
      (g.st = .killed → s.Turns (.rcKill a) (Rc.skip 4)) ∧ (g.st ≠ .killed → ∃ u, exec (.rcKill a) s = .next u ∧ RegsTo s u 0 0 4 ∧ u.posts = s.posts ∧ killed u) ∧
      (g.st ≠ .running ∨ g.pending = true → s.Stops (.rcPrmt a) 0x0F5 0) ∧
      (g.st = .running → g.pending = false → s.regionAt g.lead = some g → ∃ u, exec (.rcPrmt a) s = .next u ∧ RegsTo s u 0 0 4 ∧ u.posts = s.posts ∧ u.mem = s.mem ∧ Drains s u g 0)) ∧
    (∃ u, exec .rcKillPart s = .next u ∧ RegsTo s u 0 0 4 ∧ (∀ r ∈ u.regions, r.part = pt → r.st = .killed) ∧ ∀ v ∈ u.saved, v.part = pt → v.live = false) ∧
    (∃ u, exec .rcPrmtPart s = .next u ∧ RcTo { s with regions := u.regions } u (Rc.skip 4) ∧ ∀ r ∈ u.regions, r.part = pt → r.st = .running → r.pending = true) ∧
    -- EVTQ and EVTQ.wait
    (let fits := len ∈ [16, 32, 64, 128, 256, 512, 1024, 2048, 4096]
     let at' := spadBase k + va
     (¬fits → s.Stops (.rcEvtq a b) 0x0C4 0) ∧ (fits → spadSize k < va + 64 + 32 * len → s.Stops (.rcEvtq a b) 0x041 va) ∧
     (fits → va + 64 + 32 * len ≤ spadSize k → va % 64 ≠ 0 → s.Stops (.rcEvtq a b) 0x042 va) ∧
     (fits → va + 64 + 32 * len ≤ spadSize k → va % 64 = 0 → ∃ u, exec (.rcEvtq a b) s = .next u ∧ RegsTo s u 0 0 4 ∧ u.posts = s.posts ∧
      u.queue qn = { isSet := true, core := k, base := va, entries := len } ∧
      (s.Inv → (s.queue qn).kept = [] → Memory.readNat u.mem at' 4 = 0 ∧ Memory.readNat u.mem (at' + 4) 4 = 0 ∧ Memory.readNat u.mem (at' + 8) 4 = (s.queue qn).lost % 2 ^ 32 ∧ MemBut s u at' 64))) ∧
    (let q := s.queue qn
     (q.isSet = false ∨ s.queueWord q 0 = s.queueWord q 1 → exec (.rcEvtqWait d) s = .next s) ∧
     (q.isSet = true → s.queueWord q 0 ≠ s.queueWord q 1 → s.Puts (.rcEvtqWait d) d (BitVec.ofNat 64 (s.queueWord q 0)) 4))) ∧
  -- draining, freezing, KILL_DONE
  (s.regionAt p.core = some g →
    let ps := s.cellPorts p.core p.cell
    let c := s.cell p.core p.cell
    (s.works p.core = true → g.st = .draining → g.marked = true → c.passed = false → ps ≠ [] → (∀ q ∈ ps, s.markAt g p.core p.cell q.1 q.2 = true ∧ s.HasPort p.core p.cell q.1 q.2) →
      (s.frozenUnits g).contains (p.core, p.cell) = false → c.running = none → c.ready = [] → c.done = [] → c.held = [] → c.matching.any (s.matched p.core p.cell) = false → s.returnsDone p.core p.cell = true →
      ∃ u, exec .evPreemptMarkerForward s = .next u ∧ (u.cell p.core p.cell).passed = true ∧ (u.cell p.core p.cell).matching = [] ∧
        (c.matching ≠ [] → (u.rc g.lead).residue = true) ∧ (∀ q ∈ ps, u.fifoAt p.core p.cell q.1 q.2 = (s.fifoAt p.core p.cell q.1 q.2).drop 1) ∧
        ∀ x ∈ s.cellEdges p.core p.cell, s.HasEdge p.core p.cell x.1 x.2 → SentOn s u p.core p.cell x.1 x.2 (markToken Reg.empty g.sub 0 0)) ∧
    (g.lead = p.core →
      (s.turnHasCome g = true → ∃ u, exec .evRegionFrozen s = .next u ∧ u.posts = s.posts ∧ u.mem = s.mem ∧ Drains s u g g.sub) ∧
      (s.turnHasCome g = false → s.drained g = false → exec .evRegionFrozen s = .next s) ∧
      (s.turnHasCome g = false → s.drained g = true → ∃ u, exec .evRegionFrozen s = .next u ∧ (∀ r ∈ u.regions, r.lead = p.core → r.st = .frozen) ∧
        (∀ c ∈ (u.core p.core).copies, c.2.node = g.node → c.2.frozen = true) ∧
        u.posts = s.posts ++ (if g.capture then [] else [s.seqRecord 5 g (leBytes 1 g.stage ++ List.replicate 5 0 ++ leBytes 8 (s.imageBytes g))])) ∧
      (g.capture = false → g.st = .draining ∨ g.pending = true →
        (s.time < g.since + (s.part g.part).deadline → exec .evPreemptTimeout s = .next s) ∧
        (g.since + (s.part g.part).deadline ≤ s.time → ∃ u, exec .evPreemptTimeout s = .next u ∧
          u.posts = s.posts ++ [{ s.unitRecord g.part 0 4 (dieOf p.core) 61 0x0F6 0 0 with
            body := (faultBody 0x0F6 0 4 0 0 (dieOf p.core + 61 * 4) 0 (regionHandle p.core) ++ List.replicate 16 0).take 16 }] ∧
          (bit (s.part g.part).pctl 0 = false → g.st ≠ .killed → killed u) ∧
          (bit (s.part g.part).pctl 0 = true → u.mem = s.mem ∧ (∀ r ∈ u.regions, r.lead = p.core → r.st = .running ∧ r.pending = false ∧ r.marked = false ∧ r.capture = false) ∧
            (∀ i v, (s.rc p.core).mode = .sys i (some v) → u.rc p.core = (s.rc p.core).resume i v)))) ∧
      (g.st = .killed → s.remoteClear g.coreList = false → exec .evKillDone s = .next s) ∧
      (g.st = .killed → s.remoteClear g.coreList = true → ∃ u, exec .evKillDone s = .next u ∧ u.posts = s.posts ++ [s.seqRecord 6 g []] ∧ (∀ r ∈ u.regions, r.lead ≠ p.core) ∧
        ∀ w, aget u.nodes g.node = some w → w.st = 4))) ∧
  -- a record, the oldest of its source
  (s.posts.findIdx? (fun r => r.source == p.x) = some m → s.posts[m]? = some e →
    let q := s.queue e.queue
    let left := s.posts.eraseIdx m
    let b := spadBase q.core + q.base
    let w := b + 0x40 + 32 * (s.queueWord q 0 % q.entries)
    (s.queueGone e.queue = true → exec .evEventPost s = .next { s with posts := left }) ∧
    (s.queueGone e.queue = false → s.noRoom e.queue = true → e.mayLose = false → exec .evEventPost s = .next s) ∧
    (s.queueGone e.queue = false → q.isSet = false →
      (q.kept.length < 16 → ∃ u, exec .evEventPost s = .next u ∧ u.mem = s.mem ∧ u.posts = left ∧ u.queue e.queue = { q with kept := q.kept ++ [e] }) ∧
      (16 ≤ q.kept.length → e.mayLose = true → ∃ u, exec .evEventPost s = .next u ∧ u.posts = left ∧ u.queue e.queue = { q with lost := q.lost + 1 })) ∧
    (s.queueGone e.queue = false → q.isSet = true →
      ((s.queueWord q 0 + 2 ^ 32 - s.queueWord q 1) % 2 ^ 32 < q.entries → ∃ u, exec .evEventPost s = .next u ∧ u.posts = left ∧
        (e.kind = 0 → e.source < 65536 → e.source % 64 = 49 → (∃ c ∈ (s.core (e.source / 64)).copies, c.2.failed = some e.seq) → (u.core (e.source / 64)).copyF = true) ∧
        (s.Inv → e.body.length = 16 → 65536 ≤ e.source ∨ e.source % 64 ≠ 49 → Memory.readN u.mem w 32 = e.bytes ∧ Memory.readNat u.mem b 4 = (s.queueWord q 0 + 1) % 2 ^ 32 ∧
          ∀ a, (a < b ∨ b + 4 ≤ a) → (a < w ∨ w + 32 ≤ a) → Memory.read u.mem a = Memory.read s.mem a)) ∧
      (q.entries ≤ (s.queueWord q 0 + 2 ^ 32 - s.queueWord q 1) % 2 ^ 32 → e.mayLose = true → ∃ u, exec .evEventPost s = .next u ∧ u.posts = left ∧
        (s.Inv → 65536 ≤ e.source ∨ e.source % 64 ≠ 49 → Memory.readNat u.mem (b + 8) 4 = (s.queueWord q 2 + 1) % 2 ^ 32 ∧ MemBut s u (b + 8) 4)))) ∧
  ((s.rc p.core).timer = 1 → ∃ u, exec .evTimerExpiry s = .next u ∧ OnlyRc s u p.core ∧ u.rc p.core = { s.rc p.core with timer := 0, ev := (s.rc p.core).ev ||| 2 ^ 5 }) ∧
  ((s.rc p.core).timer ≠ 1 → exec .evTimerExpiry s = .next s)

/-- R323 to R326, R339, R340, R375 to R380 (log 22 for images, log 89 for what a held instruction does over): CTXS writes the image of a frozen region, keeps it and frees the cores; CTXR lets a frozen region
run on in place, or puts an image into a rectangle; MIGR marks the leaf of a page, then moves the page; SCRUB answers how many tiles it re-sealed; CKPT starts, waits for its captures, and answers the bytes
that it wrote; RSTR answers the shards of a verified checkpoint that it read. Each names its refusals. -/
def Obligations.RcSaves : Prop :=
  ∀ (s : State) (d a b : Nat) (g : Region), 1 ≤ (s.rc s.fcore).level →
  let k := s.fcore
  let pt := s.partAt k
  let va := (s.qv a).toNat
  let dst := (s.qv b).toNat
  let put (u : State) (n : Nat) : Prop := (u.rc k).q = (Rc.put d (BitVec.ofNat 64 n) 4 (s.rc k)).q ∧ (u.rc k).pc = (s.rc k).pc + 4
  let quiet : Prop := ∀ c ∈ s.cores, ∀ l ∈ c.2.cells, l.2.held = []
  -- CTXS
  (s.regionOf pt va = none → s.Stops (.rcCtxs d a b) 0x0F4 0 ∧ (dst = 0 → s.Stops (.rcCtxr d a b) 0x0F4 0)) ∧
  (s.regionOf pt va = some g →
    (g.st ≠ .frozen → s.Stops (.rcCtxs d a b) 0x0F5 0 ∧ (dst = 0 → s.Stops (.rcCtxr d a b) 0x0F5 0)) ∧
    (g.st = .frozen → s.hasMembership g.node = true → s.Stops (.rcCtxs d a b) 0x0F4 0) ∧
    (g.st = .frozen → s.hasMembership g.node = false → k ∉ g.coreList → ∀ t, (s.imageOf g).2.writeVA k g.part dst (s.imageOf g).1.bytes = (t, .ok ()) →
      ∃ u, exec (.rcCtxs d a b) s = .next u ∧ put u (s.imageBytes g) ∧ u.mem = t.mem ∧ (∀ r ∈ u.regions, r.lead ≠ g.lead) ∧ aget u.nodes g.node = aget s.nodes g.node ∧
        (∀ j ∈ g.coreList, (u.core j).hasTokens = false) ∧
        ∃ v, u.saved = s.saved ++ [v] ∧ v.live = true ∧ v.part = g.part ∧ v.node = g.node ∧ v.region = g ∧ v.cores = g.coreList.map s.core ∧ v.bytes.length = s.imageBytes g) ∧
    -- CTXR in place
    (g.st = .frozen → dst = 0 → s.regionAt g.lead = some g → g.lead ≠ k → ∃ u, exec (.rcCtxr d a b) s = .next u ∧ put u va ∧ u.posts = s.posts ∧ u.mem = s.mem ∧
      (∀ r ∈ u.regions, r.lead = g.lead → r.st = .running ∧ r.pending = false ∧ r.marked = false ∧ r.capture = false) ∧
      (∀ j ∈ g.coreList, (∀ l, (u.cell j l).passed = false) ∧ ∀ c ∈ (u.core j).copies, c.2.frozen = false) ∧
      (∀ i v, (s.rc g.lead).mode = .sys i (some v) → (u.rc g.lead).mode = .running ∧ (u.rc g.lead).q = (Rc.put i v 4 (s.rc g.lead)).q ∧ (u.rc g.lead).pc = (s.rc g.lead).pc + 4) ∧
      ((∀ i v, (s.rc g.lead).mode ≠ .sys i (some v)) → (u.rc g.lead).q = (s.rc g.lead).q ∧ (u.rc g.lead).pc = (s.rc g.lead).pc))) ∧
  -- CTXR elsewhere
  (dst ≠ 0 →
    (∀ t, s.findImage k pt dst = (t, .ok none) → ∃ u, exec (.rcCtxr d a b) s = .next u ∧ HighFaulted t u 0x0F3 0) ∧
    (∀ t v, s.findImage k pt dst = (t, .ok (some v)) →
      let lead := va % 2 ^ 16 / 64
      let cs := (v.placed lead).coreList
      (∀ c, t.rectCause v pt (va % 2 ^ 16) = some c → ∃ u, exec (.rcCtxr d a b) s = .next u ∧ HighFaulted t u c 0) ∧
      (t.rectCause v pt (va % 2 ^ 16) = none → k ∉ cs → k ≠ lead → v.stores.length = v.cores.length → ∃ u, exec (.rcCtxr d a b) s = .next u ∧ put u (regionHandle lead) ∧
        (∃ r ∈ u.regions, r.lead = lead ∧ r.w = v.region.w ∧ r.h = v.region.h ∧ r.st = .running ∧ r.part = v.region.part) ∧ (∀ w ∈ u.saved, w.node = v.node → w.live = false) ∧
        ∀ i (h : i < v.cores.length) (h' : i < cs.length), let c := v.cores[i]
          (∀ l x, aget c.cells l = some x → (u.cell cs[i] l).mains = x.mains ∧ (u.cell cs[i] l).ctxs = x.ctxs ∧ (u.cell cs[i] l).l = List.replicate 4 Reg.empty ∧
            (x.stalled = false → (u.cell cs[i] l).matching = [])) ∧ (u.matrix cs[i]).tiles = c.matrix.tiles ∧
          ((∀ i v, c.rc.mode ≠ .sys i (some v)) → (u.rc cs[i]).q = c.rc.q ∧ (u.rc cs[i]).pc = c.rc.pc ∧ (u.rc cs[i]).loops = c.rc.loops)))) ∧
  -- MIGR
  (let sup := (s.part pt).supervisor
   ((s.part pt).migr = none →
     (∀ c, s.migrCause pt va dst = .error c → s.Stops (.rcMigr d a b) c va) ∧
     (∀ at' e size, s.migrCause pt va dst = .ok (at', e, size) → let v := if bit e 4 then e else e + 16
       ∃ u, exec (.rcMigr d a b) s = .next u ∧ SameRegs s u ∧ (u.rc k).pc = (s.rc k).pc ∧ (u.part pt).migr = some ⟨va, size, at', v, dst⟩ ∧
         (∀ c ∈ u.cores, bit (s.part pt).isles (isleOf c.1) = true → ∀ x ∈ c.2.tcache, pageMeets x.1 x.2.2 va size = false) ∧
         (s.Inv → spadBase sup ≤ at' → Memory.readNat u.mem at' 8 = v % 2 ^ 64 ∧ MemBut s u at' 8))) ∧
   (∀ m, (s.part pt).migr = some m → s.Inv → quiet → m.leafAt + 8 ≤ m.target ∨ m.target + m.size ≤ m.leafAt →
     let old := bits m.leaf 47 12 * 4096
     (Memory.readNat s.mem m.leafAt 8 ≠ m.leaf → ∃ u, exec (.rcMigr d a b) s = .next u ∧ (u.part pt).migr = none ∧ u.posts = s.posts ++ [s.highRecord 0x17C m.va] ∧
       Memory.readNat u.mem m.leafAt 8 = Memory.readNat s.mem m.leafAt 8) ∧
     (Memory.readNat s.mem m.leafAt 8 = m.leaf → spadBase sup ≤ m.leafAt → ∃ u, exec (.rcMigr d a b) s = .next u ∧ RegsTo s u d (BitVec.ofNat 64 old) 4 ∧ u.posts = s.posts ∧ (u.part pt).migr = none ∧
       Memory.readNat u.mem m.leafAt 8 = (m.leaf - 16 - old + m.target) % 2 ^ 64 ∧ (∀ i, i < m.size → Memory.read u.mem (m.target + i) = Memory.read s.mem (old + i)) ∧
       ∀ x, (x < m.target ∨ m.target + m.size ≤ x) → (x < m.leafAt ∨ m.leafAt + 8 ≤ x) → Memory.read u.mem x = Memory.read s.mem x))) ∧
  -- SCRUB
  (va % 2048 ≠ 0 → s.Stops (.rcScrub d a b) 0x0AA va) ∧
  (va % 2048 = 0 → (dst = 0 → s.Puts (.rcScrub d a b) d 0 4) ∧
    (∀ t pa, 0 < dst → s.translate k pt va true = (t, .ok pa) → (t.tileMeta pa).st ≠ 2 → ∃ u, exec (.rcScrub d a b) s = .next u ∧ RegsTo s u d 0 4 ∧ u.mem = s.mem ∧ u.tiles = s.tiles) ∧
    (∀ t n, s.scrubFrom k pt (va / 2048) dst = (t, .ok n) → n ≤ dst ∧ ∃ u, exec (.rcScrub d a b) s = .next u ∧ RegsTo s u d (BitVec.ofNat 64 n) 4 ∧ u.mem = t.mem ∧ u.tiles = t.tiles)) ∧
  -- CKPT
  (∀ t rcd, s.readCounted k pt va ckptBytes = (t, .ok rcd) →
    ((s.part pt).ckpt = none → ∀ w snaps sizes, t.snapshots k pt ((List.range (min 64 (ckptT rcd))).map (fun i => fld (ckptEntry rcd i) 0 2)) = (w, .ok (snaps, sizes)) →
      (∀ c, w.ckptCause pt rcd sizes = some c → ∃ u, exec (.rcCkpt d a) s = .next u ∧ HighFaulted w u c va) ∧
      (w.ckptCause pt rcd sizes = none → ∃ u, exec (.rcCkpt d a) s = .next u ∧ (u.rc k).q = (s.rc k).q ∧ (u.rc k).pc = (s.rc k).pc ∧ u.mem = w.mem ∧ ∃ c, (u.part pt).ckpt = some c ∧
        c.core = some k ∧ c.req = va ∧ c.snaps = snaps ∧ c.images = [] ∧ c.now = w.nextStage pt (ckptHandles rcd) [] ∧
        ∀ h ∈ c.now, ∀ r ∈ u.regions, r.part = pt → regionHandle r.lead = h → r.st = .draining ∧ r.capture = true)) ∧
    (∀ c, (s.part pt).ckpt = some c → c.core = some k → c.node = 0 → (∃ h ∈ c.now, ∀ r, t.regionOf pt h = some r → r.st ≠ .frozen) →
      (t.time < c.since + (s.part pt).deadline → exec (.rcCkpt d a) s = .next t) ∧
      (c.since + (s.part pt).deadline ≤ t.time → ∃ u, exec (.rcCkpt d a) s = .next u ∧ (u.part pt).ckpt = none ∧ u.posts = t.posts ++ [t.highRecord 0x0F6 va]))) ∧
  (∀ w n, s.ckptStep k pt va (some k) 0 = .done w n → (∀ i v, (s.rc k).mode ≠ .sys i (some v)) →
    ∃ u, exec (.rcCkpt d a) s = .next u ∧ put u n ∧ (u.part pt).ckpt = none ∧ u.mem = w.mem) ∧
  -- RSTR
  (∀ t rcd, s.readCounted k pt va rstrBytes = (t, .ok rcd) →
    (badRequest rcd = true → ∃ u, exec (.rcRstr d a) s = .next u ∧ u.posts = t.posts ++ [t.highRecord 0x0B3 va] ∧ (u.part pt).rstr = []) ∧
    (badRequest rcd = false → ∀ u m0, t.readCounted k pt (fld rcd 8 8) manifestBytes = (u, .ok m0) →
      let m := m0.take (fld m0 12 4)
      let n := m.length - 3373
      let es := manifestEntries m
      let at' := fld rcd 8 8
      let refused (c : Nat) : Prop := ∃ w, exec (.rcRstr d a) s = .next w ∧ w.posts = u.posts ++ [u.highRecord c at'] ∧ (w.part pt).rstr = []
      (badManifest m = true → refused 0x0B3) ∧
      (badManifest m = false → fld m 8 1 ≠ (s.part pt).tenant ∨ (fld m 10 1 = 1 ∧ Config.signatureOk (sha384 (m.take n)) (m.drop n) = false) → refused 0x0B4) ∧
      (badManifest m = false → fld m 8 1 = (s.part pt).tenant → (fld m 10 1 = 1 → Config.signatureOk (sha384 (m.take n)) (m.drop n) = true) →
        (∀ c, (rstrTargets rcd).findSome? (targetCause es) = some c → refused c) ∧
        ((rstrTargets rcd).findSome? (targetCause es) = none → ∀ v c, u.applyRestore k pt es (rstrTargets rcd) = (v, .ok c) →
          c = (es.filter (fun e => (rstrTargets rcd).any (fun g => (shardsUsed es g).contains e))).length ∧
          ∃ w, exec (.rcRstr d a) s = .next w ∧ RegsTo s w d (BitVec.ofNat 64 c) 4 ∧ w.mem = v.mem ∧ (w.part pt).rstr = [] ∧ (w.part pt).bufs = (v.part pt).bufs))))

/-- R315, R316, R357 to R363: the manager's instructions: SEALK loads a key slot, retires one that is not current, makes one current; ATTEST opens a session with its report, completes and closes one; PART
creates a partition, destroys one that nothing runs in, and writes one's descriptor. -/
def Obligations.RcManager : Prop :=
  ∀ (s : State) (d a b : Nat), (s.rc s.fcore).level = 2 →
  let k := s.fcore
  let x := (s.qv a).toNat
  let y := (s.qv b).toNat
  (x < 64 →
    (∀ t, s.loadKey x (s.physRead y 128) = .ok t → ∃ u, exec (.rcSealk d a b) s = .next u ∧ RcTo { s with keys := u.keys, loads := s.loads + 1 } u (Rc.put d 0 4) ∧
      (s.slot x).live = false ∧ (u.slot x).live = true ∧ (u.slot x).load = s.loads + 1) ∧
    ((s.slot x).live = true → (s.slot x).current = false → ∃ u, exec (.rcSealkRet a) s = .next u ∧ RcTo { s with keys := adel s.keys x, dies := u.dies } u (Rc.skip 4)) ∧
    ((s.slot x).live = true → (s.slot x).was = false → ∃ u, exec (.rcSealkCur a) s = .next u ∧ RcTo { s with keys := u.keys } u (Rc.skip 4) ∧ (u.slot x).current = true)) ∧
  (∀ id, (List.range 16).find? (fun i => !(s.session i).isOpen) = some id → (x = 16 ∨ (x < 16 ∧ (s.part x).live = true)) →
    ∃ u, exec (.rcAttest d a b) s = .next u ∧ (u.session id).isOpen = true ∧ (u.session id).done = false ∧ (u.rc k).q = (Rc.put d (BitVec.ofNat 64 id) 4 (s.rc k)).q ∧
      (u.rc k).pc = (s.rc k).pc + 4 ∧ (s.Inv → s.Open y 4864 → MemBut s u y 4864)) ∧
  (x < 16 → (s.session x).isOpen = true →
    ((s.session x).done = false → ∃ u, exec (.rcAttestAcc a b) s = .next u ∧ RcTo { s with sessions := u.sessions } u (Rc.skip 4) ∧ (u.session x).done = true) ∧
    (∃ u, exec (.rcAttestClose a) s = .next u ∧ RcTo { s with sessions := adel s.sessions x } u (Rc.skip 4))) ∧
  (∀ t, s.createCause x (s.physRead y 64) = none → s.createPart x (partOf (s.physRead y 64)) = .ok t → exec (.rcPartCreate d a b) s = .next (t.rcPut d 0)) ∧
  (s.badPartNo x = false → 5 ≤ s.stage →
    (s.partBusy x = false → ∃ u, exec (.rcPartDestroy d a b) s = .next u ∧ (rising 0 s.parts = true → aget u.parts x = none) ∧ (∀ n v, (n, v) ∈ u.nodes → v.part ≠ x)) ∧
    ((s.part x).live = true → s.Inv → ∃ u, exec (.rcPartRead d a b) s = .next u ∧ (s.Open y 64 → Memory.readN u.mem y 64 = (s.part x).descriptor ∧ MemBut s u y 64) ∧
      RcTo { s with mem := u.mem, tiles := u.tiles } u (Rc.put d 1 4)) ∧
    ((s.part x).live = false → s.Puts (.rcPartRead d a b) d 0 4))

/-! ## Memory cells (R82 to R104, R189 to R198, R225 to R236) -/

/-- R189 to R193, R197, R198, R242: with no race, and with no request of its cell before it, a load writes the token that memory holds (its lanes invalid where the address lane is), LDX lane by lane, RGET the task's ring
slot, ATOM the old value, TBTST the barrier's fields; FENCEM goes on. Memory changes by ATOM alone. -/
def Obligations.CellLoads : Prop :=
  ∀ (s : State) (e : Env) (d a f p j sc op z o : Nat) (u x : Reg), s.Runs e → (s.cell e.core e.cell).held = [] → (∀ g ∈ s.atomsOut e.core (handleOf e.cell), g.2.2 = false) →
  let hd := handleOf e.cell
  let free (h : Half) : Prop := s.behindOwn ⟨0, e.core, hd⟩ h.core h.off h.n = false
  let tf := fmtOf f
  let reads (i : Instr) (srcs : List Nat) (fmt : Fmt) (xs : Nat) (p : Bool) (og : Nat) (lane : Nat → Option Nat) : Prop :=
    ∃ v t r, exec i s = .next t ∧ Noted s v ∧ v.mem = s.mem ∧ Wrote v t e 2 d (isDrawing 0 srcs) r ∧ LanesAre r fmt xs p og lane
  (s.sources e [a] = [u] → isAddr u.fmt = true →
    (okAt u 0 = false → reads (.lds d a f p) [a] tf (constXs tf) u.p u.origin (fun _ => none) ∧ reads (.tbtst d a) [a] .n32 0 u.p u.origin (fun _ => none)) ∧
    (okAt u 0 = true →
      (∀ h, halves e.core (laneOf u 0) (transferBytes (p == 1) tf) (packAlign (p == 1) tf) true = .ok [h] → s.NoRace e.core hd h.core h.off h.n false 0 0 0 →
        free h → (s.core h.core).discard = [] →
        reads (.lds d a f p) [a] tf (constXs tf) u.p u.origin (fun i =>
          some (Memory.readNat s.mem (spadBase h.core + h.off) h.n / 2 ^ ((if p = 1 then fmtWidth tf else 32) * i) % 2 ^ fmtWidth tf))) ∧
      (∀ core off, barrierPlace e.core (laneOf u 0) = .ok (core, off) → s.NoRace e.core hd core off 16 false 2 16 1 →
        (s.acquire e.core hd ((aget (s.core core).tbClr off).getD [])).2 = .ok () →
        let b := Bar.read s.mem (spadBase core + off)
        reads (.tbtst d a) [a] .n32 0 u.p u.origin (fun i => [some b.phase, some b.arrivals, some (b.sectors % 2 ^ 32).toNat,
          some (Bool.nat b.w + 2 * Bool.nat b.f + 4 * Bool.nat b.d)].getD i none))) ∧
    (∀ at' : Nat → Half, (∀ i, i < 16 → okAt u i = true → halves e.core (laneOf u i) (fmtWidth tf / 8) (fmtWidth tf / 8) false = .ok [at' i] ∧
        s.NoRace e.core hd (at' i).core (at' i).off (at' i).n false 0 0 0 ∧ free (at' i) ∧ (s.core (at' i).core).discard = []) →
      reads (.ldx d a f) [a] tf (constXs tf) u.p u.origin (fun i => if okAt u i then some (Memory.readNat s.mem (spadBase (at' i).core + (at' i).off) (fmtWidth tf / 8)) else none))) ∧
  (∀ h, e.task.ring = some h → h.freed = false →
    let lead := s.leadOf e.core
    let off := (s.ringEntry lead h.ring).1 + h.slot * (s.ringEntry lead h.ring).2.2 + 64 * j
    s.NoRace e.core hd lead off 64 false 0 0 0 → free ⟨lead, off, 64⟩ → (s.core lead).discard = [] →
    reads (.rget d a f j) [] tf (constXs tf) false 0 (fun i => some (Memory.readNat s.mem (spadBase lead + off) 64 / 2 ^ (32 * i) % 2 ^ fmtWidth tf))) ∧
  (let n := if z = 1 then 8 else 4
   s.sources e [d, a] = [x, u] → isAddr u.fmt = true → isAddr x.fmt = true → okAt u 0 = true → okAt x 0 = true → okAt x 1 = true → okAt x 2 = true → okAt x 3 = true →
   op < 10 → sc < 2 → (s.ord e.core hd).frel = none → (∀ g ∈ s.atomsOut e.core hd, ¬(g.1 = n ∧ g.2.1 = sc)) →
   ∀ h, halves e.core (laneOf u 0) n 1 false = .ok [h] → laneOf u 0 % n = 0 → covers sc 0 e.core 0 h.core = true → free h →
   let old := Memory.readNat s.mem (spadBase h.core + h.off) n
   s.NoRace e.core hd h.core h.off n (atomicNew op n old (laneWord x n 0) (laneWord x n (n / 4))).isSome 2 n sc →
   ∃ v t r, exec (.atom d a sc 0 op z) s = .next t ∧ Noted s v ∧ Wrote v t e 2 d (isDrawing 0 [d, a]) r ∧
     LanesAre r x.fmt 0 u.p u.origin (fun i => if i < n / 4 then some (old / 2 ^ (32 * i) % 2 ^ 32) else none) ∧
     t.mem = match atomicNew op n old (laneWord x n 0) (laneWord x n (n / 4)) with
       | some w => Memory.writeN s.mem (spadBase h.core + h.off) (leBytes n w)
       | none => s.mem) ∧
  (s.relWaits o = false → o % 2 = 0 ∨ s.atomsOut e.core hd = [] → (s.fence e.core hd o).2 = .ok () →
    ∃ v t, exec (.fencem sc o) s = .next t ∧ Noted s v ∧ v.mem = s.mem ∧ OnlyCell v t e.core e.cell ∧
      t.cell e.core e.cell = { v.cell e.core e.cell with running := some { e.task with pc := e.task.pc + 2 } })

/-- R89, R92, R93, R189 to R198, R225 to R235: a store, notice, ordering token or release captures its operands as a request of the cell's port and the task goes on; with no request before it and no ordering
token to wait for, it performs at once; one that waits for an ordering token that has not come, and every history command, stands in the port's queue. -/
def Obligations.CellRequests : Prop :=
  ∀ (s : State) (e : Env) (d a o h q p n f r j b v : Nat) (u x : Reg), s.Runs e → (s.cell e.core e.cell).held = [] →
  let dr1 := isDrawing 0 [a]
  let dr2 := isDrawing 0 [d, a]
  let goes (req : MemReq) : Prop := s.flows e (s.reqTouches e.core req) ∧ (isRelease req = true → s.remoteOut e.core (handleOf e.cell) = 0)
  let asks (i : Instr) (draw : Bool) (req : MemReq) : Prop :=
    (h ≠ 1 → goes req → s.Performs e i draw (s.heldReq e none req)) ∧ (h ≠ 1 → ¬goes req → s.Holds e i draw (s.heldReq e none req)) ∧
    (h = 1 → (s.cell e.core e.cell).ordCount o = 0 → s.Holds e i draw (s.heldReq e (some o) req))
  let cmd (op : Nat) (a : Reg) (edge variant j : Nat) : Held := s.heldReq e none (.hist ⟨op, b, a, edge, variant, j, e.agent, e.task.ctx, e.task.frame, e.task.iter, e.task.cls⟩)
  (s.sources e [d, a] = [x, u] → x.fmt ≠ .none → isAddr u.fmt = true →
    (¬(p = 1 ∧ fmtWidth x.fmt = 32) → asks (.sts d a o h q p) dr2 (.sts (p == 1) (q == 1) x u) ∧ asks (.ste d a o h p) dr2 (.ste (p == 1) x u)) ∧
    (8 ≤ fmtWidth x.fmt → asks (.stx d a o h) dr2 (.stx x u))) ∧
  (s.sources e [d, a] = [x, u] → u.fmt = .vcb → isAddr x.fmt = true → asks (.expd d a o h) dr2 (.expd x u)) ∧
  (s.sources e [a] = [u] → isAddr u.fmt = true → asks (.tbarv a o h) dr1 (.tbarv u) ∧ asks (.lde a o f h p n) dr1 (.lde (fmtOf f) (p == 1) u n)) ∧
  (s.sources e [d] = [x] → x.fmt ≠ .none → ∀ g, e.task.ring = some g → g.freed = false → asks (.rput d r o h j) (isDrawing 0 [d]) (.rput x g.ring g.slot j)) ∧
  (goes (.ordt a o) → s.Performs e (.ordt a o) false (s.heldReq e none (.ordt a o))) ∧ (¬goes (.ordt a o) → s.Holds e (.ordt a o) false (s.heldReq e none (.ordt a o))) ∧
  (∀ g, e.task.ring = some g → g.freed = false → g.producer = false → goes (.rfree g.ring g.slot) →
    let s' := s.modCell e.core e.cell (fun c => { c with running := c.running.map (fun t => { t with ring := some { g with freed := true } }) })
    let e' := { e with task := { e.task with ring := some { g with freed := true } } }
    ∀ w, (s'.asked e' false (s'.heldReq e' none (.rfree g.ring g.slot))).perform e.core e.cell (s'.heldReq e' none (.rfree g.ring g.slot)) = (w, .ok none) →
      (w.cell e.core e.cell).held = [s'.heldReq e' none (.rfree g.ring g.slot)] →
      exec (.rfree r) s = .next (w.modCell e.core e.cell (fun c => { c with held := [] }))) ∧
  (s.sources e [a] = [u] →
    ((IsChange (s.recWidth e a) u → recValues u = hdW (s.histWord e.core b)) → IsChange (s.recWidth e a) u ∨ IsNull u →
      s.Holds e (.hins a b) dr1 (cmd 0 u 0 0 0) ∧ s.Holds e (.hjoin a b f) dr1 (cmd 2 u f 0 0) ∧ s.Holds e (.hred d a b v) dr1 (cmd 3 u 0 v d)) ∧
    (IsChange (s.recWidth e a) u ∨ IsNull u ∨ u.fmt = .n32 → s.Holds e (.hseek a b f) dr1 (cmd 1 u f 0 0)) ∧
    (∀ w : List Time, u.fmt = .n32 → frontOf u = some w → s.Holds e (.hcomp a b) dr1 (cmd 5 u 0 0 0))) ∧
  s.Holds e (.hcons b) false (cmd 4 Reg.empty 0 0 0)

/-- R92, R189, R190, R193, R197: what some of those requests do: STS and RPUT write the token's valid elements under their mask and no byte outside the transfer; ORDT releases and sends its token. -/
def Obligations.RequestEffects : Prop :=
  ∀ (s : State) (k l x : Nat) (p : Bool) (d a : Reg) (h : Half) (ring slot j target id : Nat),
  let hd := handleOf l
  let img := tokenImage p d
  (okAt a 0 = true → halves k (laneOf a 0) (transferBytes p d.fmt) (packAlign p d.fmt) true = .ok [h] →
    (∃ c, s.check h.core (s.agent k hd) true 1 0 0 (wordsMasked h.off img.2) = .ok c) → s.Inv →
    ∃ t, s.doSts k l x p false d a = (t, .ok none) ∧ t.mem = Memory.writeMasked s.mem (spadBase h.core + h.off) img.1 img.2 ∧ SameRegs s t ∧
      MemBut s t (spadBase h.core + h.off) (transferBytes p d.fmt)) ∧
  (okAt a 0 = false → s.doSts k l x p false d a = (s, .ok none)) ∧
  (let lead := s.leadOf k
   let off := (s.ringEntry lead ring).1 + slot * (s.ringEntry lead ring).2.2 + 64 * j
   (∃ c, s.check lead (s.agent k hd) true 1 0 0 (wordsMasked off (tokenImage false d).2) = .ok c) → s.Inv →
   ∃ t, s.doRput k l x d ring slot j = (t, .ok ()) ∧ t.mem = Memory.writeMasked s.mem (spadBase lead + off) (tokenImage false d).1 (tokenImage false d).2 ∧ SameRegs s t ∧
     MemBut s t (spadBase lead + off) 64) ∧
  (∃ t, s.doOrdt k l target id = (t, .ok ()) ∧ (t.cell k target).ordIn = (s.cell k target).ordIn ++ [(id, Clr.raise (s.ord k hd).clr ⟨0, k, hd⟩ ((s.ord k hd).oc + 1))] ∧
    t.mem = s.mem ∧ SameRegs s t ∧ (t.ord k hd).oc = (s.ord k hd).oc + 1)

/-- R94 to R98: an access races exactly when a word that it touches holds an earlier write of another agent whose count it has not acquired, or, for a write, such a read, the two not being atomics of one size and scope; nothing
is then performed, and the cause is 0x055. -/
def Obligations.RaceChecker : Prop :=
  ∀ (s : State) (a : Agent) (core : Nat) (h : Half) (bytes mask : List Byte) (writes : Bool) (kind size scope : Nat) (ws : List Nat), (∀ w ∈ ws, s.inArea core w = false) →
  let races (writes : Bool) (kind size scope w : Nat) : Prop :=
    (∃ r ∈ ((s.core core).wordRec w).writes, r.RacesWith a kind size scope) ∨ (writes = true ∧ ∃ r ∈ ((s.core core).wordRec w).reads, r.RacesWith a kind size scope)
  ((∃ c, s.check core a writes kind size scope ws = .ok c) ↔ ∀ w ∈ ws, ¬races writes kind size scope w) ∧
  (ws = wordsMasked h.off mask → (∃ w ∈ ws, races true 1 0 0 w) → ∃ f, s.storeAt a core h.off bytes mask = (s, .error f) ∧ f.cause = 0x055) ∧
  (h.core = core → ws = wordsOf h.off h.n → (∃ w ∈ ws, races false 0 0 0 w) → ∃ f, s.loadAt a h = (s, .error f) ∧ f.cause = 0x055)

/-! ## Matrix engines (R55, R200 to R215) -/

/-- R55, R207 to R211: one pass of the running instance takes its operands and works on its block of tiles: the multiplying instructions add each k-step into the elements (MMAZ starts from zero, MMAG on the selected rows alone),
ACCZ zeroes, ACCWR writes one row's sixteen elements, ACCAX scales and adds the bias. ACCRD sends result tokens while its edge has credit. No other engine, register or byte changes. Draws of SR are free (log 18). -/
def Obligations.MatrixPasses : Prop :=
  ∀ (s : State) (mt nt kt acc a b t rm sat q o : Nat) (r : MInst),
  let k := s.fcore
  let n := (mt + 1) * (nt + 1)
  let agent := agentId k 32
  let step (i : Instr) (bk zero : Bool) (rows : List Nat) : Prop := s.MatrixRuns k i r → ∃ u, exec i s = .next u ∧
    Passed s u k i r acc n (fun j c => (mopsOf (fmtOf a) bk nt rows (s.matrixToks k 0 (matUse r.mask.length i).a) (s.matrixToks k 1 (matUse r.mask.length i).b)).step agent
      (j / (nt + 1)) (j % (nt + 1)) (if zero && r.kstep == 0 then {} else c))
  let all := List.range (16 * (mt + 1))
  step (.mma mt nt kt acc a b t) false false all ∧ step (.mmaz mt nt kt acc a b t) false true all ∧ step (.mmat mt nt kt acc a b t) true false all ∧
  step (.mmag mt nt kt acc a b t) false false r.mask ∧
  (∀ x xs, s.MatrixRuns k (.accz mt nt acc t) r → (s.matrix k).fifo 0 = x :: xs → ∃ u, exec (.accz mt nt acc t) s = .next u ∧
    Passed s u k (.accz mt nt acc t) r acc n (fun _ _ => { p := x.tok.reg.p, origin := if x.tok.reg.p then x.tok.reg.origin else 0 })) ∧
  (∀ x xs, s.MatrixRuns k (.accwr mt nt acc a t) r → (s.matrix k).fifo 0 = x :: xs → r.kstep < 16 * n → x.tok.reg.p = false →
    ∃ u, exec (.accwr mt nt acc a t) s = .next u ∧
      Passed s u k (.accwr mt nt acc a t) r acc n (fun j c =>
        let i := r.kstep / (nt + 1)
        if j = i / 16 * (nt + 1) + r.kstep % (nt + 1) then
          { p := c.p && i % 16 != 0, origin := if i % 16 = 0 then 0 else c.origin,
            data := (List.range 256).map (fun m => if m / 16 = i % 16 then fp32Lane x.tok.reg (m % 16) else c.data.getD m 0) }
        else c)) ∧
  (∀ x xs, s.MatrixRuns k (.accax mt nt acc a b rm t) r → (s.matrix k).fifo 0 = x :: xs → okAt x.tok.reg 0 = false →
    ∃ u, exec (.accax mt nt acc a b rm t) s = .next u ∧ Passed s u k (.accax mt nt acc a b rm t) r acc n (fun _ c => c)) ∧
  (∀ x xs, s.MatrixRuns k (.accax mt nt acc a b rm t) r → (s.matrix k).fifo 0 = x :: xs → okAt x.tok.reg 0 = true →
    ∃ u, exec (.accax mt nt acc a b rm t) s = .next u ∧ Passed s u k (.accax mt nt acc a b rm t) r acc n (fun j c =>
      axTile agent rm (fun i => Config.freeNat (s.freeNo + i) % 2 ^ 32) x.tok (s.matrixToks k 1 (nt + 1))[j % (nt + 1)]? j c)) ∧
  (∀ x xs, (s.matrix k).run = some r → (s.matrix k).admitted = true → (s.matrix k).fifo 0 = x :: xs → x.tok.kind = .data → tokTag x.tok = r.tag →
    ∃ u, exec (.accrd mt nt acc rm t sat q o) s = .next u ∧ (u.matrix k).tiles = (s.matrix k).tiles ∧ u.mem = s.mem ∧
      let m := min (s.room k 34 0 0) (16 * (mt + 1) * (nt + 1) - r.sent)
      if r.sent + m < 16 * (mt + 1) * (nt + 1) then (u.matrix k).run = some { r with sent := r.sent + m } ∧ (u.matrix k).fifo 0 = (s.matrix k).fifo 0
      else (u.matrix k).run = none ∧ (u.matrix k).fifo 0 = xs)

/-! ## Events of the machine -/

/-- R31, R32, R35, R66, R78, R79, R124, R151, R182, R258, R365, R386: what a port does with a token that reaches it; the head of an edge arrives at its port, leaves the package, or ends its issuer's
region where no route leads on; an RC's extract FIFO takes what is sent to it; an EOS, a marker, a frontier at the head of a port is taken; a context's EOS leaves on every configured edge. -/
def Obligations.TokenEvents : Prop :=
  ∀ (s : State) (t : Token) (r : List Token) (h : PortTok) (hs : List PortTok),
  let k := s.place.core
  let l := s.place.cell
  let x := s.place.ctx
  let e := s.place.port
  let d := destOf (s.edgeWord k l x e)
  let left := s.modEdge k l x e (fun g => { g with flight := r })
  let w := s.portWord k l x e
  let lead := s.leadOf k
  let tag (t : Token) (c : Nat) : Nat := tagWord t.iter t.frame c t.cls
  -- what a port of a cell does with a token that reaches it
  (∀ (v : State) (d : Dest) (key : Nat) (t : Token), v.HasPort d.core d.loc d.ctx d.port →
    let w := v.portWord d.core d.loc d.ctx d.port
    let u := v.reach d key t []
    let rc := v.rc (v.leadOf d.core)
    let refused (c : Nat) : Prop :=
      u.posts = v.posts ++ [v.faultRecord 0 0 d.core d.loc c 0 0 (tag t d.ctx)] ∧ u.fifoAt d.core d.loc d.ctx d.port = v.fifoAt d.core d.loc d.ctx d.port
    if t.kind = .notice ∨ (t.kind = .mark ∧ pwMark w t.cls = false) then refused 0x020
    else if (pwEos w = 3 ∧ t.kind ≠ .mark ∧ rc.inPhase = false ∧ rc.phase ≠ 0) ∨ (t.kind = .eos ∧ pwEos w = 2) then refused 0x0E5
    else if t.kind = .eos ∧ pwEos w = 1 ∧ pwRec w = false then u.posts = v.posts ∧ u.fifoAt d.core d.loc d.ctx d.port = v.fifoAt d.core d.loc d.ctx d.port
    else u.posts = v.posts ∧ JoinedAt v u d key t) ∧
  -- the head of an edge arrives, leaves the package, or finds no route
  (s.works k = true → (s.edge k l x e).flight = t :: r →
    (∀ i ∈ [(Instr.evDataTokenArrival, TKind.data), (.evEosArrival, .eos), (.evMarkArrival, .mark)], t.kind = i.2 →
      (t.route = 0 → d.loc < 36 → s.takesFrom k d = true → exec i.1 s = .next (left.reach d (edgeKey k l x e) t [])) ∧
      (t.route ≠ 0 → (s.routeEntry (s.partAt k) t.route).isSome = true → exec i.1 s = .next ((left.modEdge k l x e (fun g => { g with away := g.away + 1 })).leave
        (s.partAt k) t.route (80 + ewVc (s.edgeWord k l x e)) (.token (ewDest (s.edgeWord k l x e)) (ewDport (s.edgeWord k l x e)) t))) ∧
      (t.route ≠ 0 → s.routeEntry (s.partAt k) t.route = none → ∃ u, exec i.1 s = .next u ∧ u.posts = s.posts ++ [s.faultRecord 2 0 k l 0x139 0 0 (tag t t.cfg)])) ∧
    (t.route = 0 → d.loc = 48 → t.kind ≠ .notice → (s.rc d.core).extract.length < 16 → s.HasEdge k l x e →
      ∃ u, exec .evExtractFifoArrival s = .next u ∧ (u.rc d.core).extract = (s.rc d.core).extract ++ [(edgeKey k l x e, t)] ∧ (u.edge k l x e).flight = r)) ∧
  -- an EOS or a marker at the head of a port, all before it consumed
  (s.works k = true → s.HasPort k l x e → s.fifoAt k l x e = h :: hs → s.portClear k l x e = true →
    let last := (((s.port k l x e).eosN + 1) % max 1 (pwEosn w) = 0)
    (h.tok.kind = .eos → pwEos w = 3 → pwRec w = false → ∃ u, exec .evSinkEosCount s = .next u ∧ u.posts = s.posts ∧ u.fifoAt k l x e = hs ∧
      (u.port k l x e).eosN = (s.port k l x e).eosN + 1 ∧ (u.ctx k l x).sink = (s.ctx k l x).sink + (if last then 1 else 0)) ∧
    (h.tok.kind = .eos → pwEos w = 0 → pwRec w = false → ∃ v : State, exec .evEosForward s = .next (v.forwardEos k l x) ∧ ((∀ y e', (s.edge k l y e').waiting = []) → v.posts = s.posts) ∧ v.fifoAt k l x e = hs ∧
      (v.port k l x e).eosN = (s.port k l x e).eosN + 1 ∧ ((v.port k l x e).eos = true ↔ (s.port k l x e).eos = true ∨ last)) ∧
    (h.tok.kind = .mark → s.drains k h.tok = false → h.tok.cls ≠ 0 → ¬(h.tok.cls = 2 ∧ pwRec w = true) → ∃ u, exec .evMarkerSlotFill s = .next u ∧ u.fifoAt k l x e = hs ∧
      (u.ctx k l x).slot = some h.tok ∧ u.posts = s.posts ++ (match (s.ctx k l x).slot with
        | some o => if o.cls = 1 ∨ o.cls = 3 then [s.faultRecord 0 0 k l 0x01E 0 0 (tag o x)] else []
        | none => [])) ∧
    (h.tok.kind = .mark → s.drains k h.tok = true → (s.cell k l).passed = false → exec .evMarkerSlotFill s = .next s) ∧
    (h.tok.kind = .mark → h.tok.cls = 2 → pwRec w = true → s.histsClear k l = true →
      (frontOf h.tok.reg = none → ∃ u, exec .evFrontierAdvance s = .next u ∧ u.fifoAt k l x e = hs ∧ u.posts = s.posts ++ [s.faultRecord 0 0 k l 0x023 0 0 (tag h.tok x)]) ∧
      (∀ f, frontOf h.tok.reg = some f → let old := (s.rc lead).fns.getD (pwFn w) []
        (notAhead old f = false → ∃ u, exec .evFrontierAdvance s = .next u ∧ u.fifoAt k l x e = hs ∧ (u.rc lead).fns = (s.rc lead).fns ∧
          u.posts = s.posts ++ [s.faultRecord 0 0 k l 0x025 0 0 (tag h.tok x)]) ∧
        (notAhead old f = true → ∃ u, exec .evFrontierAdvance s = .next u ∧ u.fifoAt k l x e = hs ∧ (u.ctx k l x).slot = some h.tok ∧
          (u.rc lead).fns = (if old = f then (s.rc lead).fns else (s.rc lead).fns.set (pwFn w) f))))) ∧
  -- the EOS of a context leaves on every configured edge
  (∀ v : State, l < 32 → x < (v.cell k l).ctxs.length → v.fwdPorts k l x ≠ [] → (v.ctx k l x).fwd = false → (∀ p ∈ v.fwdPorts k l x, (v.port k l x p).eos = true) →
    (v.cell k l).before x (((v.fwdPorts k l x).map (fun p => (v.port k l x p).eosArr)).foldl max 0) = false → (v.ctx k l x).coal.elems = [] → (∀ e, (v.edge k l x e).waiting = []) →
    ((v.forwardEos k l x).ctx k l x).fwd = true ∧ ∀ e, e < 8 → e < (v.ctx k l x).edges.length → ewEn (v.edgeWord k l x e) = true →
      SentOn v (v.forwardEos k l x) k l x e v.freeEos.1)

/-- R25, R59 to R63, R69, R79, R89, R92, R177, R178, R186, R196, R240, R254 to R256 (logs 30, 102, 103): a candidate enters the ready set with what it reserves; the task that the arbiter picks runs;
a completed task's effects take place; weights are recomputed and a frame's timeout is posted; a return enters its caller's edge; an ordering token is counted; a void slot is freed; a load of configuration is
applied, refused or waits; a generator issues a point, or its EOS; a stream barrier is passed; a phase completes. An event happens at the place that its turn names (log 2). -/
def Obligations.TaskEvents : Prop :=
  ∀ (s : State) (f : Task) (cur : List Int) (a : Cand) (i n e : Nat) (tok : Token),
  let k := s.place.core
  let l := s.place.cell
  let x := s.place.x
  let c := s.cell k l
  let lead := s.leadOf k
  let fault (sev kind cause addr tag : Nat) : EvRec := s.faultRecord sev kind k l cause addr 0 tag
  let flush (t : State) : State := (t.regionCells k).foldl (fun t p => t.releaseStaged p.1 p.2) t
  -- what stands in the store of the completion word as a phase ends, and what the end leaves
  let ended (u : State) (was : State) (st : Nat) : Prop := (u.rc k).inPhase = false ∧ (u.rc k).aborting = false ∧ (u.rc k).ended = st ∧ (u.rc k).word % 4 = st ∧
    (u.rc k).word / 2 ^ 32 % 2 ^ 16 = (was.rc k).phase % 2 ^ 16 ∧ (∀ j ∈ was.regionCores k, (u.core j).hasTokens = false) ∧
    (was.Inv → Memory.readN u.mem (spadBase k + completionAt) 8 = leBytes 8 (u.rc k).word)
  let stored (t w : State) (st : Nat) (residue : Bool) : Prop :=
    ∃ o, (t.release k 8).1.atomicAt ((t.release k 8).1.agent k 8) k completionAt 8 1 (t.phaseWord k st residue) 0 3 (some (t.release k 8).2) = (w, .ok o)
  (s.works k = true →
    -- admission, of a class without a ring
    (let v := s.gather k l
     let need := v.needs k l a.ctx a.cls
     s.phaseRuns k = true → c.ready.length < 16 → v.firstEligible k l = some a → need.ring = none →
      ∃ u t, exec .evTaskAdmit s = .next u ∧ (u.cell k l).ready = c.ready ++ [t] ∧ (u.cell k l).running = c.running ∧ t.ctx = a.ctx ∧ t.cls = a.cls ∧ t.frame = a.frame ∧ t.iter = a.iter ∧
        t.ops = a.ops ∧ t.pc = ceEntry (s.classEntry k l a.ctx a.cls) ∧ t.staged = [] ∧ t.since = s.time ∧ (need.frame = true → t.newFrame.isSome = true) ∧
        (a.stored = false → u.fifoAt k l a.ctx 0 = (v.fifoAt k l a.ctx 0).drop 1) ∧
        (a.stored = true → ∀ m ∈ (u.cell k l).matching, ¬(m.ctx = a.ctx ∧ m.frame = a.frame ∧ m.iter = a.iter)) ∧
        ∀ g, s.HasEdge k l a.ctx g → (u.edge k l a.ctx g).rsv = (s.edge k l a.ctx g).rsv + (if g ∈ need.edges then need.m else 0) + (if need.ret = some g then 1 else 0)) ∧
    (s.phaseRuns k = false → exec .evTaskAdmit s = .next s ∧ exec .evTaskDispatch s = .next s) ∧
    -- dispatch
    (s.phaseRuns k = true → c.running = none → (s.weighed k l).pick (fun t => cePrio (s.classEntry k l t.ctx t.cls)) s.time = some (f, cur) →
      let c' : Cell := { c with ready := c.ready.filter (fun t => t.serial != f.serial), running := some f, cur := cur, l := List.replicate 4 Reg.empty }
      (isMemCell l = false → ∃ u, exec .evTaskDispatch s = .next u ∧ OnlyCell s u k l ∧ u.cell k l = c') ∧
      (isMemCell l = true → ∀ w, (s.setCell k l c').acquireOps k l f = (w, .ok ()) → ∃ u, exec .evTaskDispatch s = .next u ∧ u.mem = s.mem ∧ u.cell k l = c')) ∧
    (s.phaseRuns k = true → c.running ≠ none → exec .evTaskDispatch s = .next s) ∧
    -- what a completed task has staged
    (c.done = [f] → c.held = [] → s.storesDone k l = true → f.ring = none → f.newFrame = none → (∀ y g, (s.edge k l y g).waiting = []) →
      (f.staged = [.tok e tok] → tok.kind = .data → s.HasEdge k l f.ctx e → ∃ u, exec .evStagedTokenRelease s = .next u ∧ (u.cell k l).done = [] ∧ SentOn s u k l f.ctx e tok ∧
        (u.edge k l f.ctx e).rsv = (s.edge k l f.ctx e).rsv - 1) ∧
      (∀ r, f.staged = [.call n r] → ∃ u g, exec .evStagedTokenRelease s = .next u ∧ (u.cell k l).done = [] ∧ u.frame k n = some g ∧ g.st = 1 ∧ g.lead = lead ∧ g.rcd = r) ∧
      (∀ keep v g, f.staged = [.ret n keep v] → s.frame k n = some g → ∃ u, exec .evStagedTokenRelease s = .next u ∧ (u.cell k l).done = [] ∧
        u.frame k n = some { g with st := if keep then 2 else 4 } ∧ (u.isle (isleOf k)).returns = (s.isle (isleOf k)).returns ++ [⟨n, keep, g.rcd, v⟩]) ∧
      (f.staged = [] → ∃ u, exec .evStagedTokenRelease s = .next u ∧ (u.cell k l).done = [])) ∧
    -- weights, frames, ordering tokens
    (c.wTime + 256 ≤ s.time → ∃ u, exec .evArbiterWeightRecompute s = .next u ∧ OnlyCell s u k l ∧ u.cell k l = { c with
      wTime := s.time
      cur := [0, 0, 0, 0]
      w := (List.range 4).map (fun x => 1 + min 15 (((c.ctx x).ports.foldl (fun n p => n + p.fifo.length) 0) / 2)) }) ∧
    (s.time < c.wTime + 256 → exec .evArbiterWeightRecompute s = .next s) ∧
    (c.frameFrom = [(i, (n, false))] → n + 1800000 ≤ s.time → ∃ u, exec .evFrameWaitTimeout s = .next u ∧ u.posts = s.posts ++ [fault 0 0 0x02E 0 0] ∧
      (u.cell k l).frameFrom = [(i, (n, true))]) ∧
    (∀ id q, c.ordIn[x]? = some (id, q) →
      let old := (aget c.ordClr id).getD []
      (old.length < 255 → c.held = [] → ∃ u, exec .evOrderingTokenArrival s = .next u ∧ OnlyCell s u k l ∧
        u.cell k l = { c with ordIn := c.ordIn.eraseIdx x, ordClr := aset c.ordClr id (old ++ [q]) }) ∧
      (255 ≤ old.length → ∃ u, exec .evOrderingTokenArrival s = .next u ∧ u.posts = s.posts ++ [fault 2 3 0x056 id 0])) ∧
    -- a void slot at a ring's head
    (lead = k → x < s.ringCount k →
      let r := s.ringSt k x
      let slots := (s.ringEntry k x).2.1
      (bit (s.voidMask k x) r.head = false → exec .evVoidSlotFree s = .next s) ∧
      (bit (s.voidMask k x) r.head = true → s.Inv → k ≤ managerCore → 0 < slots → slots ≤ 64 → r.free < 255 → s.ringWordAt k x + 16 ≤ spadSize k → ∃ u, exec .evVoidSlotFree s = .next u ∧
        u.ringSt k x = { r with free := r.free + 1, head := (r.head + 1) % slots } ∧ (∀ j, bit (u.voidMask k x) j = (bit (s.voidMask k x) j && j != r.head)) ∧
        MemBut s u (spadBase k + s.ringWordAt k x) 16)) ∧
    -- a load of configuration
    (∀ ext rest g b t, (s.rc k).loads = ext :: rest → s.regionAt k = some g → g.lead = k → g.st = .running → (s.rc k).loadHeld = none →
      s.readImage k g.part ((s.rc k).image + ext) = (t, .ok b) →
      (∀ u, imgCause g b = none → t.loadMayApply k b = true → t.configure g b = .ok u → ∃ w, exec .evCfgLoadApply s = .next w ∧ w.mem = u.mem ∧ w.posts = s.posts ∧
        (w.rc k).loads = rest ∧ (w.rc k).applied = true ∧ (w.rc k).specs = [] ∧ (w.rc k).fns = List.replicate 8 [(0, 0)]) ∧
      (imgCause g b = none → t.loadMayApply k b = false → exec .evCfgLoadApply s = .next s) ∧
      (∀ cause, (imgCause g b = none → t.loadMayApply k b = true) → t.configure g b = .error cause → ∃ w, exec .evCfgLoadApply s = .next w ∧ w.mem = s.mem ∧ w.posts = s.posts ∧
        (w.rc k).loads = rest ∧ (w.rc k).refused = some ((s.rc k).refused.getD cause))) ∧
    -- a generator's next point
    (∀ y g, s.specOf k l = some y → s.regionAt k = some g → g.st = .running → (s.rc lead).inPhase = true → (s.rc lead).aborting = false → c.gen.live = true → c.gen.held = none → c.gen.barc = [] →
      s.HasPort k l y.cfg y.port →
      let total := spaceSize (s.rc lead).space
      let w := s.portWord k l y.cfg y.port
      let joins (t u : State) (rs : List Reg) : Prop := ∃ qs : List PortTok, u.fifoAt k l y.cfg y.port = t.fifoAt k l y.cfg y.port ++ qs ∧ qs.length = rs.length ∧ ∀ j (h : j < qs.length) (h' : j < rs.length),
        qs[j].tok.kind = .data ∧ qs[j].tok.iter = BitVec.ofNat 16 c.gen.point ∧ qs[j].tok.frame = 0 ∧ qs[j].tok.cls = y.cls ∧ qs[j].tok.b = decide (j % pwBurst w = 0) ∧
        qs[j].tok.reg.data = rs[j].data ∧ qs[j].tok.reg.valid = rs[j].valid ∧ qs[j].tok.reg.fmt = rs[j].fmt
      (c.gen.point < total → y.kind = 0 → ∃ u r, exec .evGeneratorPoint s = .next u ∧ (u.cell k l).gen.point = c.gen.point + 1 ∧ u.mem = s.mem ∧ joins s u [r] ∧ r.fmt = pwFmt w ∧
        (∀ j, j < 16 → okAt r j = true) ∧ laneOf r 0 = narrow (pwFmt w) (c.gen.point % 2 ^ 32) ∧ laneOf r 1 = narrow (pwFmt w) (c.gen.point / 2 ^ 32 % 2 ^ 32)) ∧
      (c.gen.point < total → y.kind = 0 ∨ (c.running = none ∧ c.held = []) →
        (∀ t rs, s.genPoint k l c.gen.point y = some (t, .ok rs) → ∃ u, exec .evGeneratorPoint s = .next u ∧ (u.cell k l).gen.point = c.gen.point + 1 ∧ u.mem = t.mem ∧ joins t u rs) ∧
        (∀ t q, s.genPoint k l c.gen.point y = some (t, .error q) → q.cause ≠ 0x055 → q.cause ≠ 0x056 → stopsNode q.cause = false → ∃ u, exec .evGeneratorPoint s = .next u ∧
          (u.cell k l).gen.held = some (q.cause, q.addr) ∧ u.posts = t.posts ++ [t.faultRecord (if holdsAccess q.cause then externSev q.cause else 1) 3 k l q.cause q.addr q.detail 0]) ∧
        (s.genPoint k l c.gen.point y = none → exec .evGeneratorPoint s = .next s)) ∧
      (c.gen.point < total → y.kind ≠ 0 → c.running ≠ none ∨ c.held ≠ [] → exec .evGeneratorPoint s = .next s) ∧
      (total ≤ c.gen.point → pwEos w = 0 ∨ pwEos w = 3 → ∃ u, exec .evGeneratorPoint s = .next u ∧ (u.cell k l).gen.eos = true ∧ JoinedAt s u ⟨k, l, y.cfg, y.port⟩ 0 (eosToken 0 (BitVec.ofNat 16 total)))) ∧
    -- a stream barrier
    (∀ m t, (s.rc k).barc[x]? = some m → ((s.rc k).barc.take x).all (fun b => (barcCells m).all (fun h => !bit b h)) = true →
      (∀ h ∈ barcCells m, (s.cell k (cellOfHandle h)).gen.held = none ∧ (s.cell k (cellOfHandle h)).held = []) → s.barcMerge k m = (t, .ok ()) →
      ∃ u, exec .evBarcPoint s = .next u ∧ u.mem = s.mem ∧ u.posts = s.posts ∧ (u.rc k).barc = (s.rc k).barc.eraseIdx x ∧
        ∀ h ∈ barcCells m, (u.cell k (cellOfHandle h)).gen.barc = (s.cell k (cellOfHandle h)).gen.barc.erase m ∧ (u.ord k h).oc = (s.ord k h).oc + 1)) ∧
  -- a return
  (∀ r, (s.isle (isleOf k)).returns[x]? = some r → s.works r.rcd.core = true →
    let q := r.rcd
    let w := s.edgeWord q.core q.cell q.ctx q.edge
    let g := s.edge q.core q.cell q.ctx q.edge
    (s.fmtFits w r.v.fmt = true → g.sent % ewBurst w = 0 ∨ g.first = some (q.frame, q.iter, q.cls) → s.HasEdge q.core q.cell q.ctx q.edge →
      ∃ u, exec .evReturnArrival s = .next u ∧ SentOn s u q.core q.cell q.ctx q.edge (dataToken r.v q.cls q.frame q.iter) ∧ (u.edge q.core q.cell q.ctx q.edge).rsv = g.rsv - 1 ∧
        (u.isle (isleOf k)).returns = (s.isle (isleOf k)).returns.eraseIdx x) ∧
    (s.fmtFits w r.v.fmt = false → ∃ u, exec .evReturnArrival s = .next u ∧ u.posts = s.posts ++ [s.faultRecord 0 0 q.core q.cell 0x01B 0 0 (tagWord q.iter q.frame q.ctx q.cls)] ∧
      (u.isle (isleOf k)).returns = (s.isle (isleOf k)).returns.eraseIdx x)) ∧
  -- a phase
  (∀ g, s.regionAt k = some g → g.lead = k → g.st = .running → (s.rc k).inPhase = true →
    (s.remoteOut k 8 ≠ 0 → exec .evPhaseComplete s = .next s) ∧
    (s.remoteOut k 8 = 0 →
      ((s.rc k).aborting = false → (flush s).sinksDone k = false ∨ (flush s).tasksDone k = false → exec .evPhaseComplete s = .next s) ∧
      ((s.rc k).aborting = false → (flush s).sinksDone k = true → (flush s).tasksDone k = true → (∀ j ∈ (flush s).regionCores k, ((flush s).core j).hasTokens = false) →
        ∀ w, stored (flush s) w 1 false → ∃ u, exec .evPhaseComplete s = .next u ∧ ended u w 1 ∧ u.posts = w.posts) ∧
      ((s.rc k).aborting = true → s.abortDone k = false → exec .evPhaseComplete s = .next s) ∧
      ((s.rc k).aborting = true → s.abortDone k = true → (s.rc k).dying = false → ∀ w, stored (flush (s.dropHeld k)) w 1 true →
        ∃ u, exec .evPhaseComplete s = .next u ∧ ended u w 1 ∧ (u.rc k).word / 8 % 2 = 1) ∧
      ((s.rc k).aborting = true → s.abortDone k = true → (s.rc k).dying = true → ∀ w, stored (flush (s.dropHeld k)) w 2 true →
        ∃ u, exec .evPhaseComplete s = .next u ∧ ended u w 2 ∧ (∀ r ∈ u.regions, r.lead ≠ k) ∧ ∀ v, aget u.nodes g.node = some v → v.st = 4)))

/-- R102, R103, R111, R113, R129 to R131, R196, R203 to R205, R214, R227, R234, R239, R260, R270, R272, R273, R282 to R284, R291, R322, R382: what the events of the copy engine, of remote accesses,
of histories, of matrix engines and of the collective engine leave, each where its rule lets it happen, at the place that its turn names (log 2; log 16 for chunks and slots). -/
def Obligations.UnitEvents : Prop :=
  ∀ (s : State) (c : Copy) (r : RemoteReq) (g : Region) (m : Comm) (q : Coll) (i j : Nat) (rest : List Nat) (u v w : State),
  let p := s.place
  let k := p.core
  let x := p.x
  let d := dieOf k % 4
  let h := s.hist k x
  let copyIs (t : State) (n : Nat) (c : Option Copy) : Prop := aget (t.core k).copies n = c
  -- copies
  (s.works k = true →
    (let ring := s.ringSt k j
     (s.core k).notices = j :: rest →
      ((s.core k).copies.find? (fun e => e.2.wants false && e.2.ring == j) = none ∨ ring.free = 0 → ∃ t, exec .evNoticeArrival s = .next t ∧ OnlyCore s t k ∧ t.core k = { s.core k with notices := rest }) ∧
      ((s.core k).copies.find? (fun e => e.2.wants false && e.2.ring == j) = some (i, c) → copyIs s i c → 0 < ring.free →
        let s1 := (s.modCore k (fun o => { o with notices := rest })).setRing k j
          { ring with free := ring.free - 1, pending := ring.pending + 1, tail := (ring.tail + 1) % (s.ringEntry k j).2.1 }
        s1.ringTouch k 9 k j = (u, .ok ()) → u.acquire k 9 (s.slotClr k j ring.tail) = (v, .ok ()) →
        ∃ t, exec .evNoticeArrival s = .next t ∧ (t.core k).notices = rest ∧ copyIs t i (some { c with slots := c.slots ++ [ring.tail], started := c.started + 1 }) ∧ t.mem = s1.mem ∧ t.posts = s.posts)) ∧
    (copyIs s x c →
      (let ring := s.ringSt k c.ring
       let s1 := s.setRing k c.ring { ring with ready := setBit ring.ready ring.head false, taken := ring.taken + 1, head := (ring.head + 1) % (s.ringEntry k c.ring).2.1 }
       (c.wants true = true → bit ring.ready ring.head = true → bit (s.voidMask k c.ring) ring.head = false → s1.ringTouch k 9 k c.ring = (u, .ok ()) →
          u.acquire k 9 (s.slotClr k c.ring ring.head) = (v, .ok ()) → ∃ t, exec .evCopyOutSlotTake s = .next t ∧
            copyIs t x (some { c with slots := c.slots ++ [ring.head], started := c.started + 1 }) ∧ t.mem = s1.mem ∧ t.posts = s.posts) ∧
       (c.wants true = false ∨ bit ring.ready ring.head = false → exec .evCopyOutSlotTake s = .next s)) ∧
      (c.frozen = false → c.failed = none → c.held = none →
        (p.y ≠ 0 → ∃ t, exec .evSectorLanding s = .next t ∧ t.posts = s.posts ++ [s.faultRecord 2 2 k 49 0x087 0 0 c.tag]) ∧
        (p.y = 0 → ∀ sh, s.shapeOf k (agentId k 49) c.node c.op = (u, .ok sh) →
          (c.kind = 0 → u.sector k c (c.off + 64 * c.pos) (c.spad + 64 * c.pos) = .ok v → copyIs v x c → ∃ t, exec .evSectorLanding s = .next t ∧ t.mem = v.mem ∧ t.posts = v.posts ∧
            copyIs t x (if c.pos + 1 = c.n then none else some { c with pos := c.pos + 1 })) ∧
          (∀ l, c.kind = 1 → c.slots = i :: l → u.sector k c (c.off + c.tile * (u.ringEntry k c.ring).2.2 + 64 * c.pos) ((u.ringEntry k c.ring).1 + i * (u.ringEntry k c.ring).2.2 + 64 * c.pos) = .ok v → copyIs v x c →
            ∃ t, exec .evSectorLanding s = .next t ∧ t.posts = v.posts ∧
              copyIs t x (if 64 * (c.pos + 1) < (u.ringEntry k c.ring).2.2 then some { c with pos := c.pos + 1 } else if c.tile + 1 = c.n then none else some { c with pos := 0, tile := c.tile + 1, slots := l })) ∧
          (c.kind = 3 ∨ c.kind = 4 → c.started ≠ 0 → c.n ≤ c.tile → copyIs u x c → ∃ t, exec .evSectorLanding s = .next t ∧ t.mem = u.mem ∧ copyIs t x none))))) ∧
  -- remote accesses
  (s.reqs[x]? = some r → let k' := r.src.core
    let h' := r.src.handle
    let len := reqLen r
    let said (t : State) (b : List Byte) (l : Clr) : Prop := exec .evRemoteAccessArrival s = .next { t with reqs := s.reqs.set x { r with reply := true, bytes := b, clr := l } }
    (r.reply = false → s.inTurn x r = false → exec .evRemoteAccessArrival s = .next s) ∧
    (r.reply = false → s.inTurn x r = true → r.src.route = 0 → r.addr + len ≤ s.spadOf r.dst →
      (∀ b l, r.kind = .load → s.loadAt (reqAgent r) ⟨r.dst, r.addr, r.size⟩ = (u, .ok (b, l)) → said u b []) ∧
      (∀ e, r.kind = .store → s.storeAt (reqAgent r) r.dst r.addr r.bytes r.mask = (u, .ok e) → said u [] []) ∧
      (∀ old l, r.kind = .atom → s.atomicAt (reqAgent r) r.dst r.addr r.size r.op (leNat r.bytes) r.cmp r.scope r.rel = (u, .ok (old, l)) → said u (leBytes r.size old) l)) ∧
    (r.reply = false → s.inTurn x r = true → r.src.route = 0 → s.spadOf r.dst < r.addr + len →
      (8 ≤ h' → (s.rc k').level = 0 → ∃ t, exec .evRemoteAccessArrival s = .next t ∧ t.posts = s.posts ++ [s.faultRecord 2 1 k' 48 0x049 r.addr 0 0] ∧ (t.rc k').mode = .stopped) ∧
      (h' < 8 → ∃ t, exec .evRemoteAccessArrival s = .next t ∧ t.posts = s.posts ++ [s.faultRecord 0 3 k' (cellOfHandle h') 0x049 r.addr 0 0] ∧ t.reqs = s.reqs.eraseIdx x ∧ t.mem = s.mem)) ∧
    (r.reply = true → r.src.route = 0 → isSilent r = true → r.fail = none → r.kind = .store → 8 ≤ h' ∨ (s.cell k' (cellOfHandle h')).held = [] →
      ∃ t, exec .evRemoteStoreCompletion s = .next t ∧ t.reqs = s.reqs.eraseIdx x ∧ t.remoteOut k' h' = s.remoteOut k' h' - 1 ∧ t.mem = s.mem ∧ t.posts = s.posts) ∧
    (r.reply = true → r.src.route = 0 → isSilent r = false → (s.rc k').mode = .remote i →
      (r.fail = none → r.kind = .load ∨ (r.kind = .atom ∧ r.order % 2 = 0) → ∃ t, exec .evRemoteReply s = .next t ∧ t = { s with cores := t.cores, reqs := s.reqs.eraseIdx x } ∧
        t.rc k' = { Rc.put i (BitVec.ofNat 64 (leNat r.bytes)) 4 (s.rc k') with mode := .running }) ∧
      (∀ cause a, r.fail = some (cause, a) → cause ≠ 0x055 → cause ≠ 0x056 → (s.rc k').level = 0 → ∃ t, exec .evRemoteReply s = .next t ∧ t.posts = s.posts ++ [s.faultRecord 2 1 k' 48 cause a 0 0] ∧
        (t.rc k').mode = .stopped))) ∧
  -- histories
  (s.histWorks k = true → h.held = none → h.out = [] →
    let applies (ev : Instr) (it : HItem) : Prop := ∀ outs, s.histItem k x it = .ok (u, outs) → s.itemRoom k x it u = .fits → s.wantsFill k x it = none →
      (∀ o ∈ outs, s.portBusy k x o.1 = false) → u.writeBack k (s.changed k x it) = (v, .ok ()) →
      (outs = [] ∨ ∃ o l, outs = o :: l ∧ (v.rc (v.leadOf k)).aborting = false ∧ v.room k (36 + o.1) 0 0 = 0) →
      ∃ t, exec ev s = .next t ∧ t.mem = v.mem ∧ t.posts = v.posts ∧ (t.hist k x).entries = (v.hist k x).entries ∧ (t.hist k x).queue = (v.hist k x).queue.drop 1 ∧ (t.hist k x).out = outs
    (∀ o l, h.queue = .cmd o :: l → applies .evHistoryCommandApply (.cmd o) ∧
      (∀ cause, s.histItem k x (.cmd o) = .error cause → cause ≠ 0x055 → cause ≠ 0x056 → ∃ t, exec .evHistoryCommandApply s = .next t ∧
        t.posts = s.posts ++ [s.faultRecord 2 2 k (o.agent % 64) cause 0 0 (tagWord o.iter o.frame o.ctx o.cls)])) ∧
    (∀ fn f a b l, h.queue = .advance fn f a b :: l → (s.advanceDue k x (.advance fn f a b) = true → applies .evHistoryFrontierAdvance (.advance fn f a b)) ∧
      (s.advanceDue k x (.advance fn f a b) = false → exec .evHistoryFrontierAdvance s = .next s)) ∧
    (∀ l, h.queue = .compact :: l → applies .evHistoryFrontierAdvance .compact) ∧
    (∀ fn a b l fn' a' b' l', let y := hdPartner (s.histWord k x)
      let z := min x y
      let hp := hdHp (s.histWord k z)
      let front (n : Nat) : List Time := (s.hist k n).fns.getD (hdInfn (s.histWord k n)) []
      y ≠ x → h.queue = .join fn a b :: l → (s.hist k y).queue = .join fn' a' b' :: l' → (s.hist k y).out = [] →
      (b = s.time → exec .evHistoryFrontierAdvance s = .next s) ∧
      (b ≠ s.time → s.portBusy k z hp = false → hp < (s.core k).hpEdges.length → (s.rc (s.leadOf k)).aborting = false → 0 < s.room k (36 + hp) 0 0 →
        ∃ t, exec .evHistoryFrontierAdvance s = .next t ∧ (t.hist k x).queue = l ∧ (t.hist k y).queue = l' ∧
          SentOn s t k (36 + hp) 0 0 (frontToken (meetFronts [front z, front (hdPartner (s.histWord k z))]) a))) ∧
    (∀ l, h.queue = .eos :: l → let hp := hdHp (s.histWord k x)
      let group := (List.range 16).filter (fun n => hdEn (s.histWord k n) && hdHp (s.histWord k n) == hp && s.takesChanges k n)
      (group = [x] → s.portBusy k x hp = false → hp < (s.core k).hpEdges.length →
        ∃ t, exec .evHistoryEosPass s = .next t ∧ (t.hist k x).queue = l ∧ (t.hist k x).eos = false ∧ SentOn s t k (36 + hp) 0 0 s.freeEos.1) ∧
      ((∃ n ∈ group, n ≠ x ∧ (s.hist k n).eos = false) → ∃ t, exec .evHistoryEosPass s = .next t ∧ OnlyCore s t k ∧ t.hist k x = { h with queue := l, eos := true }))) ∧
  (h.held = none → ∀ it l outs n, h.queue = it :: l →
    (s.histItem k x it = .ok (u, outs) → s.itemRoom k x it u = .waits i → s.spillNext k i (((s.touched k x it).filter (fun e => e.1 = i)).map (·.2)) = some n →
      let blocks := s.freeBlocks (s.partAt k) (blocksFor (hdB (s.histWord k i)) n (s.hist k i).entries)
      s.writeBucket k i n blocks = (v, .ok ()) →
      ∃ t, exec .evBucketSpill s = .next t ∧ t.posts = v.posts ∧ (t.hist k i).spilled = aset (v.hist k i).spilled n blocks ∧ (t.hist k i).entries = (v.hist k i).entries) ∧
    (s.wantsFill k x it = some (i, n) → s.areaUse k i + bucketBytes (hdB (s.histWord k i)) n (s.hist k i).entries ≤ (s.histArea k i).2 →
      s.readBucket k i n = (v, .ok ()) → ∃ t, exec .evBucketFill s = .next t ∧ t.posts = v.posts ∧ (t.hist k i).spilled = adel (v.hist k i).spilled n ∧ (t.hist k i).entries = (v.hist k i).entries)) ∧
  (∀ o cm, s.works k = true → (s.cell k p.cell).held = [o] → o.req = .hist cm → (s.cell k p.cell).ready? o = true → s.yieldsTo k p.cell o = false → s.takeOrd k p.cell o.need = (u, .ok ()) →
    ∃ t, exec .evHistoryCommandAccept s = .next t ∧ (t.cell k p.cell).held = [] ∧ (t.hist k cm.hist).queue = (u.hist k cm.hist).queue ++ [.cmd cm] ∧ t.mem = s.mem ∧ t.posts = s.posts) ∧
  -- matrix engines
  (s.engineOpen k = true → (s.matrix k).run = none → ∀ t b, s.nextInstance k = some (t, b) →
    let fault (c loc : Nat) : Prop := ∃ u, exec .evMatrixInstanceStart s = .next u ∧ u.posts = s.posts ++ [s.faultRecord 2 2 k loc c 0 0 (tagWord t.iter t.frame t.cfg t.cls)]
    (s.slotAt k t.cfg t.cls = none → fault 0x088 32) ∧
    (∀ n ins, s.slotAt k t.cfg t.cls = some (n, ins) → isMmag ins = false →
      ((s.matrix k).admitted = false → ∃ u, exec .evMatrixInstanceStart s = .next u ∧ u.matrix k = { s.matrix k with waiting := true }) ∧
      ((s.matrix k).admitted = true → operandsAt false (tokTag t) (matUse 0 ins).af (matUse 0 ins).a ((s.matrix k).fifo 0) = .ok true → b = false →
        (matUse 0 ins).b = 0 ∨ operandsAt false (tokTag t) (matUse 0 ins).bf (matUse 0 ins).b ((s.matrix k).fifo 1) = .ok true →
        ∃ u, exec .evMatrixInstanceStart s = .next u ∧ OnlyCore s u k ∧ u.matrix k = { s.matrix k with run := some ⟨t.cfg, n, t.frame, t.iter, t.cls, 0, [], 0⟩ })) ∧
    (∀ n ins, s.slotAt k t.cfg t.cls = some (n, ins) → isMmag ins = true → let read := operandsAt false (tokTag t) (matUse 0 ins).bf (matUse 0 ins).b ((s.matrix k).fifo 1)
      (∀ c, read = .error c → fault c 33) ∧
      ∀ o l e, read = .ok e → (s.matrix k).fifo 2 = o :: l → o.tok.kind = .data →
      (tokTag o.tok ≠ tokTag t → fault 0x08D 35) ∧ (tokTag o.tok = tokTag t → o.tok.reg.fmt ≠ .n32 → fault 0x08B 35) ∧
      (tokTag o.tok = tokTag t → o.tok.reg.fmt = .n32 → maskBeyond o.tok.reg (matRows ins) = true → fault 0x089 35) ∧
      (tokTag o.tok = tokTag t → o.tok.reg.fmt = .n32 → maskBeyond o.tok.reg (matRows ins) = false → let rows := maskRows o.tok.reg (matRows ins)
        let v := matUse rows.length ins
        (s.matrix k).admitted = true → b = true ∨ operandsAt false (tokTag t) v.af v.a ((s.matrix k).fifo 0) = .ok true →
          v.b = 0 ∨ operandsAt false (tokTag t) v.bf v.b ((s.matrix k).fifo 1) = .ok true →
          ∃ u, exec .evMatrixInstanceStart s = .next u ∧ OnlyCore s u k ∧ (u.matrix k).run = some ⟨t.cfg, n, t.frame, t.iter, t.cls, 0, rows, 0⟩))) ∧
  (s.works k = true → ∀ t l, (s.matrix k).fifo p.port = t :: l → t.tok.kind = .eos → s.expectsAt k p.port = false → pwEos (s.portWord k 32 0 p.port) = 1 →
    (∀ n, n < 3 → pwEn (s.portWord k 32 0 n) = true → pwEos (s.portWord k 32 0 n) ≠ 0) → ∃ u, exec .evMatrixEos s = .next u ∧ OnlyCore s u k ∧ u.matrix k = (s.matrix k).drop p.port 1) ∧
  (s.works k = true → ∀ t l, (s.matrix k).fifo p.port = t :: l → t.tok.kind = .eos → s.expectsAt k p.port = true →
    ∃ u, exec .evMatrixEos s = .next u ∧ u.posts = s.posts ++ [s.faultRecord 2 2 k (matLoc p.port) 0x08D 0 0 (MTag.word (tokTag t.tok))]) ∧
  (s.works k = true → ∀ t l, (s.matrix k).fifo p.port = t :: l → t.tok.kind = .eos → s.expectsAt k p.port = false → p.port < (s.matrix k).ports.length → p.port < 3 →
    pwEn (s.portWord k 32 0 p.port) = true → pwEos (s.portWord k 32 0 p.port) = 0 → (∀ n, n < 3 → n ≠ p.port → pwEn (s.portWord k 32 0 n) = true → pwEos (s.portWord k 32 0 n) ≠ 0) →
    pwEosn (s.portWord k 32 0 p.port) ≤ ((s.matrix k).ports.getD p.port {}).eosN + 1 → (s.matrix k).run = none → (s.matrix k).fwd = false →
    ∃ u, exec .evMatrixEos s = .next u ∧ OnlyCore s.freeEos.2 u k ∧ (u.matrix k).fwd = true ∧ (u.matrix k).fifo p.port = l ∧
      (ewEn (s.edgeWord k 34 0 0) = true → SentOn s u k 34 0 0 s.freeEos.1) ∧ (ewEn (s.edgeWord k 34 0 0) = false → (u.matrix k).edge = (s.matrix k).edge)) ∧
  (s.works k = true → s.regionAt k = some g → g.st = .draining → g.marked = true → isKeyed k = false → (s.matrix k).passed = false →
    (∃ n, n < 3 ∧ pwEn (s.portWord k 32 0 n) = true) → (∀ n, n < 3 → pwEn (s.portWord k 32 0 n) = true → s.matMarkAt g k n = true) → s.passEnded k = true →
    ∃ u, exec .evMatrixPreemptSave s = .next u ∧ (u.matrix k).passed = true ∧ (u.matrix k).run = (s.matrix k).run ∧ (u.matrix k).tiles = (s.matrix k).tiles ∧
      (∀ n, (u.matrix k).fifo n = ((s.matrix k).fifo n).filter (fun t => t.tok.kind != .mark)) ∧ (ewEn (s.edgeWord k 34 0 0) = true → SentOn s u k 34 0 0 (markToken Reg.empty g.sub 0 0))) ∧
  ((s.matrix k).admitted = true → (s.matrix k).lastStep + idleCycles ≤ s.time → ∃ u, exec .evMatrixIdle s = .next u ∧ OnlyCore s u k ∧ u.matrix k = { s.matrix k with admitted := false }) ∧
  (s.isleWaits x = true → s.throttled x = false → (∀ t, s.power.lastIsle = some t → t + isleCycles ≤ s.time) → (∀ n, n < x → s.isleWaits n = true → s.throttled n = true) →
    ∃ u, exec .evIsleRampAdmit s = .next u ∧ u.power.lastIsle = some s.time ∧ u.isle x = { s.isle x with ramping := true, row := 1, rowTime := s.time } ∧
      ∀ n, n < 6 → u.matrix (x * 64 + n + 1) = { s.matrix (x * 64 + n + 1) with admitted := true, waiting := false, lastStep := s.time }) ∧
  ((s.isle x).ramping = true → (s.isle x).rowTime + rowCycles ≤ s.time → s.throttled x = false → let y := (s.isle x).row
    ∃ u, exec .evRampStep s = .next u ∧ u.isle x = { s.isle x with ramping := decide (y < 7), row := y + 1, rowTime := s.time } ∧
      ∀ n, n < 6 → u.matrix (x * 64 + y * 8 + n + 1) = { s.matrix (x * 64 + y * 8 + n + 1) with admitted := true, waiting := false, lastStep := s.time }) ∧
  -- communicators
  (s.commIn k x = some m → let live := m.colls.filter (fun q => q.status == 0 && q.pend.isNone)
    let commIs (t : State) (o : Comm) : Prop := aget (t.die d).comms x = some o
    let with' (f : Coll → Coll) : Comm := { m with colls := m.colls.map (fun o => if o.handle = p.y ∧ o.status = 0 then f o else o) }
    (m.st = 1 → (∀ n, n < m.n → if s.foreign m n then (s.heard m 0 n 0).isSome = true else ∃ o, s.member m n = some o ∧ o.st ≠ 3) →
      ∃ u, exec .evCommunicatorFormed s = .next u ∧ commIs u { m with st := 2 } ∧ u = { s with dies := u.dies }) ∧
    (m.st = 1 → s.mismatch m = true ∨ (∃ o ∈ s.ctl, o.kind = 4 ∧ isAbout o m = true) →
      ∃ u o, exec .evCommunicatorBroken s = .next u ∧ commIs u o ∧ o.st = 3 ∧ (∀ q ∈ o.colls, q.status ≠ 0) ∧ u.mem = s.mem) ∧
    (m.st ≠ 3 → m.lost = true ∨ (p.flag = true ∧ 1 < m.n) → (∀ q ∈ live, s.committed m q = none) →
      (live = [] → ∃ u, exec .evMemberLost s = .next u ∧ commIs u { m with st := 3, lost := true } ∧ u.mem = s.mem) ∧
      (live ≠ [] → ∀ v w, (s.modComm d x (fun c => { c with st := 3, lost := true })).failColls k x 1 0x0A7 14 (live.map (·.handle)) = v → v.engineStore k m.area (List.replicate m.size 0) = (w, .ok ()) →
        v.posts = s.posts ++ [s.faultRecord 1 2 k 50 0x0A7 0 0 0] ∧ ∃ u, exec .evMemberLost s = .next u ∧ u.mem = w.mem ∧ u.posts = w.posts)) ∧
    (m.live p.y = some q →
      (m.st = 2 → s.clashes m q = true ∨ (p.flag = true ∧ s.foreigners m ≠ []) → s.allComms.filter (fun o => agrees m o.2.2) = [(d, x, m)] → m.colls = [q] →
        ∃ u, exec .evChunkCombine s = .next u ∧ u.posts = s.posts ++ [s.faultRecord 0 2 k 50 0x0A3 0 0 0] ∧ commIs u { m with colls := [{ q with pend := some (2, s.nextSeq (agentId k 50)) }] }) ∧
      (m.st = 2 → p.flag = false → s.clashes m q = false → q.staged = false → q.read = false → q.handle = p.y → readsSource q.op m.n q.root m.rank = false →
        ∃ u, exec .evChunkCombine s = .next u ∧ commIs u (with' (fun o => { o with read := true })) ∧ u = { s with dies := u.dies }) ∧
      (m.st = 2 → p.flag = false → s.clashes m q = false → q.staged = false → q.read = true →
        let s1 := s.takeLanes k x m q p.lanes
        let q1 := ((s1.commIn k x).bind (·.live p.y)).getD q
        let ranks := awaits m q1
        m.areaBusy q1 = false →
        (q1.folded < combines m q1 → (∀ r ∈ ranks, (s1.contribOf m q1 r).isSome = true) →
          (s1.core k).slotOpen = none → ∃ u, exec .evChunkCombine s = .next u ∧ (u.core k).slotOpen = some s.time ∧ u.mem = s.mem ∧ u.posts = s.posts) ∧
        (q1.folded < combines m q1 → (∀ r ∈ ranks, (s1.contribOf m q1 r).isSome = true) → (s1.core k).slotOpen = some i →
          ∃ u o, exec .evChunkCombine s = .next u ∧ (u.core k).slotOpen = none ∧ u.mem = s.mem ∧ u.commIn k x = some o ∧ (o.live p.y).map (·.folded) = some (q1.folded + 1)) ∧
        (combines m q1 ≤ q1.folded → (∀ r ∈ ranks, (s1.contribOf m q1 r).isSome = true) → sentOut m q1 = true →
          s1.engineStore k m.area ((s1.resultOf m q1).flatMap areaOf) = (v, .ok ()) → (s1.commIn k x).bind (·.live p.y) = some q1 → q1.handle = p.y →
          ∃ u o, exec .evChunkCombine s = .next u ∧ u.mem = v.mem ∧ (u.core k).slotOpen = none ∧ u.commIn k x = some o ∧ (o.live p.y).map (·.staged) = some true)) ∧
      (∀ clr, m.st = 2 → m.rank = 0 → p.port < m.n → p.port ∉ q.dones → s.noticeOf m q p.port = some clr →
        ∃ u, exec .evDoneNotice s = .next u ∧ u.mem = s.mem ∧ u.posts = s.posts ∧
          commIs u (with' (fun o => { o with dones := o.dones ++ [p.port], commit := decide (m.n ≤ o.dones.length + 1), clr := Clr.merge q.clr clr }))) ∧
      (∀ clr, m.st ≠ 1 → q.staged = true → m.areaBusy q = false → s.committed m q = some clr → let span := destSpan m q
        let done (v : State) : Prop := ∃ u o, exec .evCommit s = .next u ∧ u.mem = v.mem ∧ commIs u o ∧ ∀ q ∈ o.colls, q.handle = p.y → q.status ≠ 0
        (span.2.1 = 0 → done s) ∧
        (∀ b l, span.2.1 ≠ 0 → s.load (s.agent k 12) k (m.area + span.1) span.2.1 4 false = (u, .ok (b, l)) → u.engineStore k q.dst b = (v, .ok ()) → done v)))) ∧
  (∀ n, s.pickSlot (k % 4) p.port = some (n, m, q, i) → dieOf m.core % 4 = k % 4 → ∃ u, exec .evChunkStart s = .next u ∧ u.mem = s.mem ∧ aget (u.die (k % 4)).lastSlot p.port = some n ∧
    aget (u.die (k % 4)).comms n = some { m with colls := m.colls.map (fun o => if o.handle = q.handle ∧ o.status = 0 then { o with sent := o.sent ++ [i] } else o) } ∧
    (m.trace = false → u.posts = s.posts) ∧ (m.trace = true → ∃ e, u.posts = s.posts ++ [e] ∧ e.kind = 1 ∧ e.source = collKey (k % 4) ∧ e.time = s.time ∧ e.mayLose = true ∧ e.queue = s.commPart m)) ∧
  (s.pickSlot (k % 4) p.port = none → exec .evChunkStart s = .next s) ∧
  (∀ t, (s.core k).slotOpen = some t → t + 3600 ≤ s.time → ∃ u, exec .evSlotCloseTimeout s = .next u ∧ OnlyCore s u k ∧ u.core k = { s.core k with slotOpen := none }) ∧
  -- router entries
  (let die := x / 64 % 4
   let n := x % 64
   (∀ w, p.flag = true → s.stepDue die n = true → aget (s.die die).router n = some w → w ≠ 0 → outPort w < 19 →
      ∃ u, exec .evRouterStep s = .next u ∧ aget (u.die die).router n = some (stepEntry w) ∧ u.posts = s.posts ∧
        bits (stepEntry w) 127 125 = (bits w 127 125 + 1) % (bits w 124 122 + 1) ∧ stepEntry w % 2 ^ 125 = w % 2 ^ 125) ∧
    (p.flag = true → s.stepDue die n = true → (aget (s.die die).router n).getD 0 = 0 → s.Posts .evRouterStep (s.unitRecord 16 2 4 die 62 0x138 0 0) (fun u => u.dies = s.dies)) ∧
    (p.flag = true → s.stepDue die n = false → exec .evRouterStep s = .next s))

/-- R72 to R76, R80, R102, R237, R306, R342, R343, R349, R354, R355, R366 to R371, R374, R375, R381, R383, R384: what the events of the node scheduler, of Ultra Ethernet ports and strait links, and of the
part as a whole leave, each where its rule lets it happen, at the place that its turn names (log 2; logs 26 to 29 for nodes of other kinds and links, log 110 for the source kinds of
errors); and which words are no instruction. -/
def Obligations.PartEvents : Prop :=
  ∀ (s : State) (v : Node) (g : Region) (f : Flit) (fs : List Flit) (rect : List Nat) (n : Nat) (t1 t2 t3 t4 w : State) (ops : List Operand) (args hd prog : List Byte) (got : Clr),
  let p := s.place
  let k := p.core
  let x := p.x
  let y := p.y
  let port := s.strait p.port
  let lead := rect.headD 0
  let server := s.serverOf v.part
  let seated (t : State) (w h : Nat) : Prop :=
    t.regions = s.regions ++ [{ lead := lead, w := w, h := h, stage := v.stage, node := n, part := v.part, tenant := v.tenant, standing := v.standing }]
  let takes (t : State) (m : Nat) (o : List Operand) : Prop := aget t.nodes m = some { v with st := 2, ops := o }
  -- a node is placed
  (s.nextNode s.pooled [] = none → exec .evNodePlace s = .next s) ∧
  (s.nextNode s.pooled [] = some (n, v, rect) → aget s.nodes n = some v → rect ≠ [] →
    (v.kind = 0 → s.readVA lead v.part v.args (8 * v.arglen) = (t1, .ok args) → t1.launchOps lead v.part v.ops = (t2, .ok (ops, got)) → t2.readVA lead v.part (v.image + 0x1C) 8 = (t3, .ok hd) →
      t3.readVA lead v.part (v.image + fld hd 0 4) (min (fld hd 4 4) 65536) = (t4, .ok prog) →
      ((t4.modNode n (fun v => { v with ops := ops })).occupy n v rect (launchBlock args ops) prog (fld hd 0 4)).acquire lead 8 (Clr.merge v.acq got) = (w, .ok ()) →
      ∃ u, exec .evNodePlace s = .next u ∧ seated u v.w v.h ∧ takes u n ops ∧ u.posts = s.posts ∧ u.rc lead = { ({} : Rc) with
        mode := .running
        pc := v.entry
        progOff := fld hd 0 4
        progLen := prog.length
        image := v.image
        node := n
        part := v.part }) ∧
    (v.kind = 1 ∨ v.kind = 2 → s.readVA server v.part v.args (8 * v.arglen) = (t1, .ok args) → t1.launchOps server v.part v.ops = (t2, .ok (ops, got)) →
      ∃ u, exec .evNodePlace s = .next u ∧ seated u 1 1 ∧ takes u n ops ∧ u.posts = s.posts) ∧
    (v.kind = 3 → ∃ u, exec .evNodePlace s = .next u ∧ seated u 1 1 ∧ takes u n v.ops ∧ u.posts = s.posts) ∧
    (v.kind = 4 → s.readVA server v.part v.args 8 = (t1, .ok args) → t1.launchOps server v.part v.ops = (t2, .ok (ops, got)) → let ch := fld args 0 8
      let o := ops.getD 0 {}
      (64 ≤ ch ∨ bit (fld (t2.chanEntry v.part (64 + ch)) 0 1) 0 = false → ∃ u, exec .evNodePlace s = .next u ∧ u.posts = s.posts ++ [s.unitRecord v.part 2 6 v.die (ch % 64) 0x0BC 0 0] ∧
        (aget u.nodes n).map (·.st) = some 4) ∧
      (ch < 64 → bit (fld (t2.chanEntry v.part (64 + ch)) 0 1) 0 = true → t2.readTiles server v.part o.start o.size o.place = (t3, .ok prog) →
        ∃ u, exec .evNodePlace s = .next u ∧ seated u 1 1 ∧ takes u n ops ∧ u.posts = s.posts ∧ u.hostOut = s.hostOut ++ [(n, ch, prog)]))) ∧
  -- a node ages, ends, or goes on
  (aget s.nodes x = some v →
    (v.st = 1 → v.since + (v.aged + 1) * agingCycles ≤ s.time → v.prio + v.aged < 7 → ∃ u, exec .evNodeAging s = .next u ∧ u = { s with nodes := u.nodes } ∧ aget u.nodes x = some { v with aged := v.aged + 1 }) ∧
    (v.st ≠ 1 ∨ s.time < v.since + (v.aged + 1) * agingCycles ∨ 7 ≤ v.prio + v.aged → ∃ u, exec .evNodeAging s = .next u ∧ aget u.nodes x = some v) ∧
    (v.held = none →
      let completed (u : State) : Prop := ∃ o, aget u.nodes x = some o ∧ o.st = 3 ∧ o.sent = true
      (v.st = 2 → v.kind = 0 → s.regions.find? (fun r => r.node == x) = some g →
        (s.nodeDone x g.lead = false → exec .evNodeComplete s = .next s) ∧
        (s.nodeDone x g.lead = true → v.sent = true ∨ (∃ e, (s.release g.lead 8).1.releaseSuccessors g.lead x (s.release g.lead 8).2 = (t1, .ok e)) →
          ∃ u, exec .evNodeComplete s = .next u ∧ completed u ∧ (∀ r ∈ u.regions, r.lead ≠ g.lead) ∧ u.rc g.lead = {})) ∧
      (v.st = 2 → v.kind = 1 ∨ v.kind = 2 → v.sent = true ∨ (∃ e, s.releaseSuccessors server x [] = (t1, .ok e)) → ∃ u, exec .evNodeComplete s = .next u ∧ completed u ∧ ∀ r ∈ u.regions, r.node ≠ x) ∧
      (v.st = 2 → v.kind = 3 → s.readVA server v.part v.args 8 = (t1, .ok args) →
        (t1.ckptStep server v.part (fld args 0 8) none x = .wait t2 → exec .evNodeComplete s = .next t2) ∧
        (∀ a e, t1.ckptStep server v.part (fld args 0 8) none x = .done t2 a → t2.releaseSuccessors server x [] = (t3, .ok e) → (aget t2.nodes x).isSome = true → v.sent = false →
          ∃ u, exec .evNodeComplete s = .next u ∧ completed u ∧ ∀ r ∈ u.regions, r.node ≠ x)) ∧
      (v.st = 2 → v.kind = 4 → exec .evNodeComplete s = .next s) ∧
      (4 ≤ v.st → v.sent = true → exec .evNodeComplete s = .next s) ∧
      (∀ l, 4 ≤ v.st → v.sent = false → s.successors server v = (t1, .ok l) → ∃ u o, exec .evNodeComplete s = .next u ∧ aget u.nodes x = some o ∧ o.sent = true))) ∧
  (∀ ch b, s.hostOut[x]? = some (n, ch, b) → aget s.nodes n = some v → v.held = none → v.st = 2 →
    v.sent = true ∨ (∃ e, ({ s with hostOut := s.hostOut.eraseIdx x } : State).releaseSuccessors server n [] = (t1, .ok e)) →
    ∃ u o, exec .evHostSinkAck s = .next u ∧ u.hostOut = s.hostOut.eraseIdx x ∧ aget u.nodes n = some o ∧ o.st = 3 ∧ ∀ r ∈ u.regions, r.node ≠ n) ∧
  -- Ultra Ethernet ports
  (p.port < 8 → p.port ∉ s.ueDown → ∃ u, exec .evUePortDown s = .next u ∧ u.ueDown = s.ueDown ++ [p.port] ∧ u.posts.length = s.posts.length + s.liveParts.length) ∧
  (8 ≤ p.port ∨ p.port ∈ s.ueDown → exec .evUePortDown s = .next s) ∧
  -- strait links
  (∀ f : Flit, f = p.flit →
    (f.crcOk = false ∨ f.seq ≠ port.rxSeq ∨ 18 ≤ p.port → exec .evStraitFlitReceive s = .next s) ∧
    (p.port < 18 → f.crcOk = true → f.seq = port.rxSeq → s.flitEnters f = true →
      let t := s.modStrait p.port (fun q => { q with rxSeq := q.rxSeq + 1, rxPool := if f.s then q.rxPool - 1 else q.rxPool })
      let took (u : State) : Prop := (u.strait p.port).rxSeq = port.rxSeq + 1 ∧ (u.strait p.port).rxPool = if f.s then port.rxPool - 1 else port.rxPool
      (f.s = true → port.rxPool = 0 → s.Posts .evStraitFlitReceive (s.unitRecord (s.flitPart f) 0 5 0 p.port 0x125 0 0) (fun u => u.straits = s.straits)) ∧
      (f.s = false ∨ 0 < port.rxPool →
        (s.routeEntry (s.flitPart f) f.tag = none → s.Posts .evStraitFlitReceive (s.unitRecord (s.flitPart f) 0 5 0 p.port 0x11C 0 0) took) ∧
        ((s.routeEntry (s.flitPart f) f.tag).isSome = true →
          (∀ r, f.body = .access r → ∃ u, exec .evStraitFlitReceive s = .next u ∧ took u ∧ u.posts = s.posts ∧
            u.reqs = s.reqs ++ [{ r with src := { r.src with route := if r.reply then 0 else f.tag } }]) ∧
          (∀ a b r, f.body = .token a b r → let dst : Dest := ⟨a / 64, a % 64, r.cfg, b⟩
            (s.toRc dst = true → ∃ u, exec .evStraitFlitReceive s = .next u ∧ took u ∧ (u.rc dst.core).extract = (s.rc dst.core).extract ++ [(0, r)]) ∧
            (s.toRc dst = false → dst.loc ≠ 50 → s.regionAt dst.core = none ∨ 36 ≤ dst.loc ∨ pwEn (s.inWord dst.core dst.loc dst.ctx b) = false →
              s.Posts .evStraitFlitReceive (s.unitRecord (s.partAt dst.core) 0 5 0 p.port 0x138 0 0) took) ∧
            (bit s.fuses.isles (isleOf dst.core) = true → (s.regionAt dst.core).isSome = true → dst.loc < 36 → pwEn (s.inWord dst.core dst.loc dst.ctx b) = true →
              exec .evStraitFlitReceive s = .next (t.reach dst 0 r []))) ∧
          (f.body = .other → ∃ u, exec .evStraitFlitReceive s = .next u ∧ took u ∧ u = { s with straits := u.straits }))))) ∧
  (p.port < 18 → port.replay.filter (fun a => decide (x ≤ a.seq)) = f :: fs → f.seq = x →
    let n := if (port.replay.head?.map (·.seq)) = some x then port.replays else 0
    (n < 8 → ∃ u, exec .evNakReceive s = .next u ∧ u.posts = s.posts ∧ u.strait p.port = { port with replay := f :: fs, replays := n + 1 }) ∧
    (8 ≤ n → p.flag = false → s.Posts .evNakReceive (s.unitRecord f.part 0 5 0 p.port 0x11E 0 0) (fun u => u.strait p.port = { port with replay := f :: fs, replays := 0 }))) ∧
  (p.port < 18 →
    (y = 0 → port.own x < 4 → port.waiting x = [] → ∃ u, exec .evCreditReturn s = .next u ∧ u.strait p.port = { port with reserve := aset port.reserve x (port.own x + 1) }) ∧
    (y = 1 → port.pool < 1024 → port.waiting x = [] → ∃ u, exec .evCreditReturn s = .next u ∧ u.strait p.port = { port with pool := port.pool + 1 }) ∧
    (y = 3 → ∃ u, exec .evCreditReturn s = .next u ∧ u.strait p.port = { port with rxPool := min 1024 (port.rxPool + 1) })) ∧
  (y = 2 → s.HasEdge k p.cell p.ctx p.port → ∃ u, exec .evCreditReturn s = .next u ∧ (u.edge k p.cell p.ctx p.port).away = (s.edge k p.cell p.ctx p.port).away - 1) ∧
  (port.waiting x = f :: fs → (64 ≤ x ∧ x < 72 ∨ 80 ≤ x ∧ x < 88) → let esc := if x < 72 then x + 24 else x + 8
    s.pickPort (((s.routeEntry f.part f.dest).map (fun e => bits e 51 34)).getD 0) esc = some n →
    (s.time < (aget port.since x).getD s.time + 16 → exec .evEscapeVcDivert s = .next s) ∧
    ((aget port.since x).getD s.time + 16 ≤ s.time → n ≠ p.port → ∃ u, exec .evEscapeVcDivert s = .next u ∧ (u.strait p.port).queue = aset port.queue x fs ∧
      u.strait n = (s.strait n).put s.time { f with vc := esc } ∧ u.posts = s.posts)) ∧
  (p.flag = false → port.waiting x = f :: fs →
    ((aget port.since x).getD s.time + s.wdog1 * cyclesPerUs ≤ s.time → (aget port.warned x).getD 0 = 0 →
      s.Posts .evWatchdogFirst (s.unitRecord f.part 0 5 0 p.port 0x135 0 (2 * (x % 128))) (fun u => u.strait p.port = { port with warned := aset port.warned x 1 })) ∧
    ((aget port.since x).getD s.time + s.wdog2 * 1000 * cyclesPerUs ≤ s.time → (aget port.warned x).getD 0 = 1 → (∀ a ∈ fs, a.part = f.part) →
      s.Posts .evWatchdogSecond (s.unitRecord f.part 1 5 0 p.port 0x135 0 (1 + 2 * (x % 128))) (fun u => u.strait p.port = { port with warned := aset port.warned x 2 }))) ∧
  (p.flag = true → p.port < 8 → s.Posts .evWatchdogFirst (s.unitRecord y 0 5 0 (32 + p.port) 0x135 0 (2 * (x % 128))) (fun u => u.straits = s.straits) ∧
    s.Posts .evWatchdogSecond (s.unitRecord y 1 5 0 (32 + p.port) 0x135 0 (1 + 2 * (x % 128))) (fun u => u.straits = s.straits)) ∧
  (p.port < 18 → port.down = true → port.queue = [] → ∃ u, exec .evStraitLinkReturn s = .next u ∧ u.strait p.port = { port with down := false } ∧ u = { s with straits := u.straits }) ∧
  -- the part
  (let z : State := { State.reset with fuses := s.fuses, agenda := s.agenda, turnNo := s.turnNo, freeNo := s.freeNo + 1, nonce := s.free.1, stage := 0 }
   (x = 0 ∨ 3 < x → exec .evPowerOnReset s = .next { z with stage := 5 }) ∧
   (x = 1 → exec .evPowerOnReset s = .next { z with bootFail := some (if y = 0x15C then 0x15C else 0x15B) }) ∧
   (x = 2 ∨ x = 3 → ∃ u e, exec .evPowerOnReset s = .next u ∧ u = { z with stage := x - 1, bootFail := some 0x16F, posts := [e], seqs := u.seqs } ∧ e.queue = 16 ∧ e.kind = 0 ∧ fld e.body 0 4 % 2 ^ 9 = 0x16F) ∧
   exec .evThermalShutdown s = .next z) ∧
  (s.time < s.power.window → exec .evPowerWindow s = .next s) ∧
  (s.power.window ≤ s.time → ∃ u, exec .evPowerWindow s = .next u ∧ u.power = { s.power with throttle := p.flag, window := s.time + cyclesPerMs } ∧
    u.posts = s.posts ++ (if p.flag then [s.unitRecord 16 0 6 0 0 0x166 0 0] else [])) ∧
  (p.flag = false → (s.die x).hot95 = false → s.Posts .evThermalWarning (s.unitRecord 16 0 6 (x % 4) 0 0x161 0 0) (fun u => u.die x = { s.die x with hot95 := true })) ∧
  (p.flag = false → (s.die x).hot95 = true → exec .evThermalWarning s = .next s) ∧
  (p.flag = true → ∃ u, exec .evThermalWarning s = .next u ∧ u.posts = s.posts ∧ u.die x = { s.die x with hot95 := false }) ∧
  (∃ u, exec .evThermalThrottle s = .next u ∧ u.die x = { s.die x with hot105 := true } ∧ u = { s with dies := u.dies }) ∧
  (∃ u, exec .evThermalThrottleRelease s = .next u ∧ u.die x = { s.die x with hot105 := false } ∧ u = { s with dies := u.dies }) ∧
  (let sort := damageKind x
   let record (sev : Nat) : EvRec :=
     if sort < 4 then s.faultRecord sev sort k (if sort = 1 then 48 else p.cell) x y 0 0 else s.unitRecord (s.partAt k) sev sort (dieOf k % 4) 0 x y 0
   (x = 0 → ∃ u, exec .evUncorrectableError s = .next u ∧ u = { s with dies := u.dies } ∧ ∀ e ∈ (u.die (dieOf k % 4)).cache, e.key ≠ cacheKey (s.partAt k) (y / 2048)) ∧
   (x = 0x176 → s.Posts .evUncorrectableError (s.unitRecord 16 0 6 (dieOf k % 4) 0 0x176 y 0) (fun u => u.regions = s.regions)) ∧
   (x ≠ 0 → x ≠ 0x176 → x ∉ damageCodes → exec .evUncorrectableError s = .next s) ∧
   (x ∈ damageCodes → gridSev x = 2 → p.flag = false → (s.regionAt k).isSome = true → ∃ u, exec .evUncorrectableError s = .next u ∧ u.posts = s.posts ++ [record 2]) ∧
   (x ∈ damageCodes → p.flag = true ∨ s.regionAt k = none ∨ gridSev x = 3 → (∀ r ∈ s.regions, dieOf r.lead % 4 ≠ dieOf k % 4) →
     s.Posts .evUncorrectableError (record 3) (fun u => u.regions = s.regions))) ∧
  -- an encoding that is none
  (let op := bits s.word 31 25
   let level := (s.rc s.fcore).level
   let bar := 0x48 ≤ op ∧ op ≤ 0x4A ∧ bits s.word 4 3 = 0 ∧ bits s.word 9 5 ≠ 31 ∧ s.barrierCount s.fcore ≤ bits s.word 9 5
   let low := (level = 0 ∧ 0x60 ≤ op ∧ op < 0x70) ∨ (level = 1 ∧ op ∈ managerOps)
   (bar → s.Stops .rcIllegalEncoding 0x071 0) ∧ (¬bar → low → s.Stops .rcIllegalEncoding 0x144 0) ∧ (¬bar → ¬low → s.Stops .rcIllegalEncoding 0x0C0 0))

/-! ## Encodings, steps, reset and the memory invariant -/

/-- R135, R137, R145, R147: words that the spec writes out, in the byte order of their stores, decode to the instructions they stand for: cell words of
4 and 2 bytes, a matrix slot, RC words of 4 bytes and a long form. -/
def Obligations.DecodeWords : Prop :=
  (decodeCell [0x10#8, 0xC1#8, 0x24#8, 0x21#8]).toOption = some (.mul 8 4 9 1 0 0, 2) ∧ (decodeCell [0x01#8, 0xE1#8, 0x49#8, 0x00#8]).toOption = some (.steer 0 4 0 0 1 9, 2) ∧
  (decodeCell [0x14#8, 0xD9#8, 0x10#8, 0x48#8]).toOption = some (.dqn 10 9 1 0 0, 2) ∧ (decodeCell [0x10#8, 0xEE#8, 0x10#8, 0x00#8]).toOption = some (.rget 8 0 1 0, 2) ∧
  (decodeCell [0x49#8, 0x18#8]).toOption = some (.cMul 0 4 9, 1) ∧ (decodeCell [0x40#8, 0x68#8]).toOption = some (.cExp2 0 4, 1) ∧ (decodeCell [0x00#8, 0x00#8]).toOption = some (.cEnd, 1) ∧
  (decodeMatrix (leNat [0x00#8, 0x00#8, 0x81#8, 0x00#8, 0x11#8, 0x70#8, 0xF0#8, 0x07#8])).toOption = some (.mmaz 7 7 7 0 4 4 1) ∧
  (decodeRcWord (leNat [0x00#8, 0x80#8, 0x20#8, 0x20#8]) 0).toOption = some (.rcLd 2 1 0 0) ∧ (decodeRcWord (leNat [0x1C#8, 0x8A#8, 0x40#8, 0xAA#8]) 0).toOption = some (.rcColl 4 1 2 8 7) ∧
  (decodeRcWord (leNat [0x01#8, 0x0C#8, 0x01#8, 0xC4#8]) 0).toOption = some (.rcTlbiRange 2 3) ∧ (decodeRcWord (leNat [0x00#8, 0x00#8, 0x30#8, 0xE0#8]) 5).toOption = some (.rcLi 3 5)

/-- R135, R137, R145, R147: every instruction whose fields fit reads back from its own bytes, whatever stands after them, with its length: the bytes of a
cell instruction, of a matrix slot, of an RC word, and of a long form with its extension word. An event has no bytes. -/
def Obligations.RoundTrip : Prop :=
  ∀ i : Instr, i.fits = true →
  match (encodeWord i).1 with
  | .compact => ∀ rest, decodeCell (encode i ++ rest) = .ok (i, 1)
  | .cell => ∀ rest, decodeCell (encode i ++ rest) = .ok (i, 2)
  | .matrix => (encode i).length = 8 ∧ decodeMatrix (leNat (encode i)) = .ok i
  | .rc => (encode i).length = 4 ∧ rcIsLong (leNat (encode i)) = false ∧ ∀ ext, decodeRcWord (leNat (encode i)) ext = .ok i
  | .long => (encode i).length = 8 ∧ rcIsLong (leNat ((encode i).take 4)) = true ∧ decodeRcWord (leNat ((encode i).take 4)) (leNat ((encode i).drop 4)) = .ok i
  | .event => encode i = []

/-- A step runs what its turn fetches (log 2, log 4): the turn is the first of the agenda, else the schedule's. A cell's turn runs the instruction that stands
at the halfword of its running task's routine (R135), a matrix engine's the slot of its running instance (R145), an RC's the word at its pc, with the word
after it for a long form, or RC_ILLEGAL_ENCODING where the word is no instruction (R147, R148); a fetch outside the program section is 0x0C9 (R237). An
event's turn runs the event at its place; a passing cycle ticks every timer; a cell that runs no task lets its port go on (R89). What has nothing to run, and what is held
till a record of its own has room (R317), leaves the state as it is. -/
def Obligations.StepRunsDecoded : Prop :=
  ∀ (s t : State) (u : Turn) (r : List Turn) (k l n : Nat) (i : Instr) (a : Task) (m : MInst) (p : Place) (e : DecodeError),
  (s.agenda = u :: r → s.takeTurn = (u, { s with agenda := r })) ∧ (s.agenda = [] → s.takeTurn = (Config.schedule s.turnNo, { s with turnNo := s.turnNo + 1 })) ∧
  (s.takeTurn = (u, t) → t.turnHeld u = true → step s = .next t) ∧
  (s.takeTurn = (u, t) → t.turnHeld u = false →
    (u = .cell k l → (t.cell k l).running = some a → t.works k = true →
      let read := decodeCell (Memory.readN t.mem (cfgBase k l a.ctx + 2 * a.pc) (if a.pc < 127 then 4 else 2))
      (read = .ok (i, n) → step s = exec i { t with fcore := k, fcell := l }) ∧ (read = .error e → step s = .fault (.routineWord k l a.pc))) ∧
    (u = .cell k l → t.works k = false → step s = .next t) ∧
    (u = .cell k l → (t.cell k l).running = none → t.works k = true → step s = .next (t.drain k l)) ∧
    (u = .matrix k → (t.core k).matrix.run = some m → t.works k = true → (t.core k).matrix.passed = false →
      let read := decodeMatrix (Memory.readNat t.mem (matBase k + (m.ctx * 16 + m.slot) * 8) 8)
      (read = .ok i → step s = exec i { t with fcore := k }) ∧ (read = .error e → step s = .fault (.matrixWord k m.ctx m.slot))) ∧
    (u = .matrix k → (t.core k).matrix.run = none ∨ t.works k = false ∨ (t.core k).matrix.passed = true → step s = .next t) ∧
    (u = .rc k → t.rcRuns k = true → let pc := (t.rc k).pc
      let w := t.rcWordAt k pc
      let x := t.rcWordAt k (pc + 4)
      (t.inProgram k pc = true → rcIsLong w = false ∨ t.inProgram k (pc + 4) = true →
        (decodeRcWord w x = .ok i → step s = exec i { t with fcore := k, word := w }) ∧
        (decodeRcWord w x = .error e → step s = exec .rcIllegalEncoding { t with fcore := k, word := w })) ∧
      (t.inProgram k pc = false → step s = .next (t.rcFault k ⟨0x0C9, pc, 0, false⟩)) ∧
      (t.inProgram k pc = true → rcIsLong w = true → t.inProgram k (pc + 4) = false → step s = .next (t.rcFault k ⟨0x0C9, pc + 4, 0, false⟩))) ∧
    (u = .rc k → t.rcRuns k = false → step s = .next t) ∧
    (u = .event i p → (encodeWord i).1 = .event → step s = exec i { t with place := p, fcore := p.core, fcell := p.cell }) ∧
    (u = .event i p → (encodeWord i).1 ≠ .event → step s = .next t) ∧
    (u = .pass → step s = .next t.stampAll.tick))

/-- Every step that goes on keeps the canonical form of memory: addresses strictly rising, and no entry that an unlisted address would read as. -/
def Obligations.MemoryCanonicalKept : Prop := ∀ s t : State, s.Inv → step s = .next t → t.Inv

/-- Memory has its canonical form after reset. -/
def Obligations.InvAtReset : Prop := State.reset.Inv

/-- R308, R316, R381, R309, R318, R352, with the start of R381 completed (stage 5): every byte, accumulator tile and matching store is empty, every cell register holds
no value, no partition, region or node exists, sr.time and every seal metadata entry are 0, no queue is set, no program or task runs, and the manager controller alone is above
kernel level; the fuses are the model's (log 7). -/
def Obligations.ResetLeaves : Prop :=
  let z := State.reset
  (∀ a, Memory.read z.mem a = 0) ∧ z.time = 0 ∧ z.stage = 5 ∧ z.bootFail = none ∧ (∀ p, p < 16 → aget z.parts p = none) ∧ z.regions = [] ∧ z.nodes = [] ∧ z.saved = [] ∧ z.posts = [] ∧
  z.reqs = [] ∧ z.keys = [] ∧ z.loads = 0 ∧ z.mgrQueue.isSet = false ∧ (∀ n, ((aget z.tiles n).getD {}) = {}) ∧ z.fuses = { module := true, fifteen := false, absent := 0 } ∧
  (∀ k l x, let c := z.cell k l
    c.running = none ∧ c.matching = [] ∧ c.ready = [] ∧ c.done = [] ∧ c.held = [] ∧ (∀ r ∈ c.l ++ c.mains ++ (z.ctx k l x).o, r.fmt = .none) ∧
    (∀ q ∈ (z.ctx k l x).ports, q.fifo = [] ∧ q.eos = false ∧ q.eosN = 0 ∧ q.xs = 0)) ∧
  (∀ k, (z.core k).matrix.tiles = [] ∧ (z.core k).matrix.run = none ∧ (z.rc k).mode = .idle ∧ (z.rc k).timer = 0 ∧ (z.rc k).ev = 0 ∧
    (z.rc k).level = (if k = managerCore then 2 else 0) ∧ (∀ n, (z.rc k).q.getD n 0 = 0) ∧
    (∀ f ∈ (z.rc k).fns, f = [(0, 0)])) ∧
  (∀ p, (z.part p).live = false ∧ (z.part p).pctl = 100 * 65536)
end

