-- ==== Sys2Proof/Laws/Maps.lean ====
section
/-! SUPPORT. The finite maps and the memory of Machine/Store.lean: reading after writing, and the canonical form. -/

namespace Sys2Proof.Machine

variable {α : Type}

/-! ## Finite maps -/

@[simp] theorem aget_nil (k : Nat) : aget ([] : Assoc α) k = none := rfl

@[simp] theorem aget_aset_same (m : Assoc α) (k : Nat) (v : α) : aget (aset m k v) k = some v := by
  induction m with
  | nil => simp [aset, aget]
  | cons c r ih =>
    obtain ⟨j, w⟩ := c
    simp only [aset]
    split
    · simp [aget]
    · split
      · simp_all [aget]
      · simp [aget, *]

theorem aget_aset_other (m : Assoc α) {k j : Nat} (v : α) (h : j ≠ k) : aget (aset m k v) j = aget m j := by
  induction m with
  | nil => simp [aset, aget, h]
  | cons c r ih =>
    obtain ⟨i, w⟩ := c
    simp only [aset]
    split
    · simp [aget, h]
    · split
      · simp_all [aget]
      · simp [aget, ih]

theorem aget_aset (m : Assoc α) (k j : Nat) (v : α) : aget (aset m k v) j = if j = k then some v else aget m j := by
  split
  · simp_all
  · exact aget_aset_other m v ‹_›

theorem rising_mono {lo hi : Nat} (h : lo ≤ hi) : ∀ {m : Assoc α}, rising hi m = true → rising lo m = true
  | [], _ => rfl
  | (k, _) :: r, h' => by
    simp only [rising, Bool.and_eq_true, decide_eq_true_eq] at h' ⊢
    exact ⟨by omega, h'.2⟩

/-- A key below the first is not there. -/
theorem aget_below {k : Nat} : ∀ {lo : Nat} {m : Assoc α}, rising lo m = true → k < lo → aget m k = none
  | _, [], _, _ => rfl
  | lo, (j, v) :: r, h, hk => by
    simp only [rising, Bool.and_eq_true, decide_eq_true_eq] at h
    simp only [aget]
    split
    · omega
    · exact aget_below h.2 (by omega)

theorem rising_aset {k : Nat} {v : α} : ∀ {lo : Nat} {m : Assoc α}, rising lo m = true → lo ≤ k → rising lo (aset m k v) = true
  | lo, [], _, hk => by simp [aset, rising, hk]
  | lo, (j, w) :: r, h, hk => by
    simp only [rising, Bool.and_eq_true, decide_eq_true_eq] at h
    simp only [aset]
    split
    · simp only [rising, Bool.and_eq_true, decide_eq_true_eq]
      exact ⟨hk, by omega, h.2⟩
    · split
      · simp only [rising, Bool.and_eq_true, decide_eq_true_eq]
        subst_vars
        exact ⟨hk, h.2⟩
      · simp only [rising, Bool.and_eq_true, decide_eq_true_eq]
        exact ⟨h.1, rising_aset h.2 (by omega)⟩

theorem rising_adel {k : Nat} : ∀ {lo : Nat} {m : Assoc α}, rising lo m = true → rising lo (adel m k) = true
  | _, [], _ => rfl
  | lo, (j, w) :: r, h => by
    simp only [rising, Bool.and_eq_true, decide_eq_true_eq] at h
    simp only [adel]
    split
    · exact rising_mono (by omega) h.2
    · simp only [rising, Bool.and_eq_true, decide_eq_true_eq]
      exact ⟨h.1, rising_adel h.2⟩

theorem rising_filter {p : Nat × α → Bool} : ∀ {lo : Nat} {m : Assoc α}, rising lo m = true → rising lo (m.filter p) = true
  | _, [], _ => rfl
  | lo, (j, w) :: r, h => by
    simp only [rising, Bool.and_eq_true, decide_eq_true_eq] at h
    simp only [List.filter]
    split
    · simp only [rising, Bool.and_eq_true, decide_eq_true_eq]
      exact ⟨h.1, rising_filter h.2⟩
    · exact rising_mono (by omega) (rising_filter h.2)

theorem aget_adel {k j : Nat} : ∀ {lo : Nat} {m : Assoc α}, rising lo m = true → aget (adel m k) j = if j = k then none else aget m j
  | _, [], _ => by simp [adel, aget]
  | lo, (i, w) :: r, h => by
    simp only [rising, Bool.and_eq_true, decide_eq_true_eq] at h
    simp only [adel]
    split
    · subst_vars
      split
      · subst_vars
        exact aget_below h.2 (by omega)
      · simp [aget, *]
    · simp only [aget]
      split
      · split
        · omega
        · rfl
      · exact aget_adel h.2

/-- What is read under a key is listed under it. -/
theorem mem_of_aget : ∀ {m : Assoc α} {k : Nat} {v : α}, aget m k = some v → (k, v) ∈ m
  | (j, w) :: r, k, v, h => by
    simp only [aget] at h
    split at h
    · next hk => cases h; rw [hk]; exact List.mem_cons_self ..
    · exact List.mem_cons_of_mem _ (mem_of_aget h)

theorem mem_aset {k : Nat} {v : α} {c : Nat × α} : ∀ {m : Assoc α}, c ∈ aset m k v → c = (k, v) ∨ c ∈ m
  | [], h => by simp_all [aset]
  | (j, w) :: r, h => by
    simp only [aset] at h
    split at h
    · simp_all
    · split at h
      · simp only [List.mem_cons] at h ⊢
        tauto
      · simp only [List.mem_cons] at h ⊢
        rcases h with h | h
        · tauto
        · rcases mem_aset h with h | h <;> tauto

theorem mem_adel {k : Nat} {c : Nat × α} : ∀ {m : Assoc α}, c ∈ adel m k → c ∈ m
  | (j, w) :: r, h => by
    simp only [adel] at h
    split at h
    · exact List.mem_cons_of_mem _ h
    · simp only [List.mem_cons] at h ⊢
      rcases h with h | h
      · exact .inl h
      · exact .inr (mem_adel h)

/-! ## The canonical form of memory -/

theorem Memory.wf_iff (m : Memory) : Memory.wf m = true ↔ rising 0 m = true ∧ ∀ c ∈ m, c.2 ≠ 0 := by
  simp [Memory.wf]

theorem Memory.wf_nil : Memory.wf [] = true := rfl

theorem Memory.wf_write {m : Memory} (h : Memory.wf m = true) (a : Nat) (b : Byte) : Memory.wf (Memory.write m a b) = true := by
  rw [Memory.wf_iff] at h ⊢
  unfold Memory.write
  split
  · exact ⟨rising_adel h.1, fun c hc => h.2 c (mem_adel hc)⟩
  · refine ⟨rising_aset h.1 (by omega), fun c hc => ?_⟩
    rcases mem_aset hc with rfl | hc
    · assumption
    · exact h.2 c hc

theorem Memory.wf_writeN {m : Memory} (h : Memory.wf m = true) : ∀ (bs : List Byte) (a : Nat), Memory.wf (Memory.writeN m a bs) = true := by
  intro bs
  induction bs generalizing m with
  | nil => intro a; simpa [Memory.writeN]
  | cons b r ih => intro a; exact ih (Memory.wf_write h a b) _

theorem Memory.wf_writeMasked {m : Memory} (h : Memory.wf m = true) : ∀ (bs ks : List Byte) (a : Nat), Memory.wf (Memory.writeMasked m a bs ks) = true := by
  intro bs
  induction bs generalizing m with
  | nil => intro ks a; simpa [Memory.writeMasked]
  | cons b r ih =>
    intro ks a
    cases ks with
    | nil => simpa [Memory.writeMasked]
    | cons k ks =>
      simp only [Memory.writeMasked]
      split
      · exact ih h _ _
      · exact ih (Memory.wf_write h _ _) _ _

theorem Memory.wf_filter {m : Memory} (h : Memory.wf m = true) (p : Nat × Byte → Bool) : Memory.wf (m.filter p) = true := by
  rw [Memory.wf_iff] at h ⊢
  exact ⟨rising_filter h.1, fun c hc => h.2 c (List.mem_of_mem_filter hc)⟩

theorem Memory.wf_clear {m : Memory} (h : Memory.wf m = true) (a n : Nat) : Memory.wf (Memory.clear m a n) = true := Memory.wf_filter h _

/-- A list of writes keeps the form. -/
theorem Memory.wf_foldl {β : Type} (f : Memory → β → Memory) (hf : ∀ m b, Memory.wf m = true → Memory.wf (f m b) = true) :
    ∀ (l : List β) {m : Memory}, Memory.wf m = true → Memory.wf (l.foldl f m) = true
  | [], _, h => h
  | b :: r, _, h => Memory.wf_foldl f hf r (hf _ b h)

/-! ## Reading after writing -/

theorem Memory.read_write {m : Memory} (h : Memory.wf m = true) (a j : Nat) (b : Byte) :
    Memory.read (Memory.write m a b) j = if j = a then b else Memory.read m j := by
  rw [Memory.wf_iff] at h
  unfold Memory.read Memory.write
  split
  · rw [aget_adel h.1]
    split <;> simp_all
  · rw [aget_aset]
    split <;> simp

@[simp] theorem Memory.read_write_same {m : Memory} (h : Memory.wf m = true) (a : Nat) (b : Byte) : Memory.read (Memory.write m a b) a = b := by
  simp [Memory.read_write h]

theorem Memory.read_write_other {m : Memory} (h : Memory.wf m = true) {a j : Nat} (b : Byte) (n : j ≠ a) :
    Memory.read (Memory.write m a b) j = Memory.read m j := by
  simp [Memory.read_write h, n]

theorem Memory.read_writeN {m : Memory} (h : Memory.wf m = true) (bs : List Byte) (a j : Nat) :
    Memory.read (Memory.writeN m a bs) j = if a ≤ j ∧ j < a + bs.length then bs.getD (j - a) 0 else Memory.read m j := by
  induction bs generalizing m a with
  | nil =>
    simp only [Memory.writeN, List.length_nil]
    rw [if_neg (by omega)]
  | cons b r ih =>
    simp only [Memory.writeN]
    rw [ih (Memory.wf_write h a b), Memory.read_write h]
    by_cases h1 : j = a
    · subst h1
      simp
    · by_cases h2 : a + 1 ≤ j ∧ j < a + 1 + r.length
      · have h3 : a ≤ j ∧ j < a + (b :: r).length := by simp only [List.length_cons]; omega
        have h4 : j - a = (j - (a + 1)) + 1 := by omega
        rw [if_pos h2, if_pos h3, h4]
        simp
      · have h3 : ¬ (a ≤ j ∧ j < a + (b :: r).length) := by simp only [List.length_cons]; omega
        rw [if_neg h2, if_neg h3, if_neg h1]

theorem Memory.read_writeN_outside {m : Memory} (h : Memory.wf m = true) (bs : List Byte) {a j : Nat} (n : j < a ∨ a + bs.length ≤ j) :
    Memory.read (Memory.writeN m a bs) j = Memory.read m j := by
  rw [Memory.read_writeN h]
  split
  · omega
  · rfl

/-- What was written is read back. -/
theorem Memory.readN_writeN {m : Memory} (h : Memory.wf m = true) (bs : List Byte) (a : Nat) : Memory.readN (Memory.writeN m a bs) a bs.length = bs := by
  unfold Memory.readN
  apply List.ext_getElem
  · simp
  · intro i h1 h2
    simp only [List.getElem_map, List.getElem_range, Memory.read_writeN h]
    rw [if_pos (by constructor <;> omega)]
    simp [List.getD_eq_getElem?_getD, h2]

theorem Memory.read_clear (m : Memory) (a n j : Nat) : Memory.read (Memory.clear m a n) j = if a ≤ j ∧ j < a + n then 0 else Memory.read m j := by
  unfold Memory.read Memory.clear
  induction m with
  | nil => simp
  | cons c r ih =>
    obtain ⟨i, b⟩ := c
    simp only [List.filter]
    split
    · simp only [aget]
      rename_i hi
      by_cases hj : j = i
      · subst hj
        have no : ¬ (a ≤ j ∧ j < a + n) := by simp at hi; omega
        rw [if_neg no]
        simp
      · simp only [hj, if_false]
        exact ih
    · simp only [aget]
      rename_i hi
      by_cases hj : j = i
      · subst hj
        have : a ≤ j ∧ j < a + n := by simpa [Bool.not_eq_eq_eq_not] using hi
        rw [if_pos this] at ih ⊢
        exact ih
      · simp only [hj, if_false]
        exact ih

end Sys2Proof.Machine
end

