-- ==== Sys2Proof/Laws/Memory.lean ====
section
/-! SUPPORT. Every operation on memory keeps its canonical form. -/

namespace Sys2Proof.Machine

theorem Memory.wf_barWrite {m : Memory} (h : Memory.wf m = true) (a : Nat) (b : Bar) : Memory.wf (Bar.write m a b) = true := Memory.wf_writeN h _ _

theorem Memory.wf_rewriteWords {m : Memory} (h : Memory.wf m = true) (a n : Nat) (f : Nat → Nat) : Memory.wf (rewriteWords m a n f) = true :=
  Memory.wf_foldl _ (fun _ _ h => Memory.wf_writeN h _ _) _ h

theorem Memory.wf_putTile {m : Memory} (h : Memory.wf m = true) (d : Memory) (dst : Nat) : Memory.wf (Memory.putTile m d dst) = true :=
  Memory.wf_foldl _ (fun _ _ h => Memory.wf_write h _ _) _ (Memory.wf_clear h _ _)

theorem Memory.wf_clearConfig {m : Memory} (h : Memory.wf m = true) (k : Nat) : Memory.wf (clearConfig m k) = true :=
  Memory.wf_clear (Memory.wf_clear (Memory.wf_clear (Memory.wf_clear h _ _) _ _) _ _) _ _

theorem Memory.wf_restoreStores {m : Memory} (h : Memory.wf m = true) (k : Nat) (saved : Memory) : Memory.wf (restoreStores m k saved) = true :=
  Memory.wf_foldl _ (fun _ _ h => Memory.wf_foldl _ (fun _ _ h => Memory.wf_write h _ _) _ (Memory.wf_clear h _ _)) _ h

theorem Memory.wf_moveIds {m : Memory} (h : Memory.wf m = true) (f g k : Nat) : Memory.wf (moveIds m f g k) = true := by
  have h1 := Memory.wf_foldl (fun (m : Memory) (x : Nat) =>
    rewriteWords (rewriteWords m (cfgBase k 0 0 + 512 * x + 0x120) 4 (relocPort ((g + 1024 - f) % 1024))) (cfgBase k 0 0 + 512 * x + 0x140) 8
      (relocEdge ((g + 1024 - f) % 1024) 0)) (fun _ _ h => Memory.wf_rewriteWords (Memory.wf_rewriteWords h _ _ _) _ _ _) (List.range 128) h
  have h2 := Memory.wf_rewriteWords (Memory.wf_rewriteWords (Memory.wf_rewriteWords h1 (matBase k + 512) 3 (relocPort ((g + 1024 - f) % 1024)))
    (matBase k + 536) 1 (relocEdge ((g + 1024 - f) % 1024) 0)) (histBase k + 512) 4 (relocEdge ((g + 1024 - f) % 1024) 0)
  unfold moveIds
  dsimp only
  split
  · exact h2
  · refine Memory.wf_foldl _ (fun m t hm => ?_) _ h2
    split
    · exact hm
    · exact Memory.wf_writeN hm _ _

/-- A page copied in memory keeps the form. -/
theorem State.wf_copyPage {s : State} (h : Memory.wf s.mem = true) (src dst n : Nat) : Memory.wf (s.copyPage src dst n).mem = true :=
  Memory.wf_foldl _ (fun _ _ h => Memory.wf_write h _ _) _ (Memory.wf_clear h _ _)

@[simp] theorem State.setMeta_mem (s : State) (pa : Nat) (m : TileMeta) : (s.setMeta pa m).mem = s.mem := rfl

/-- A record of seal metadata is no memory: writing one leaves memory. -/
theorem State.mem_recordBytes (base size region a : Nat) : ∀ (b : List (Byte × Nat)) (s : State),
    (b.foldl (fun t e => let r := recordAt base size region (a + e.2); t.setMeta (r.1 * 2048) ((t.tileMeta (r.1 * 2048)).withByte r.2 e.1)) s).mem = s.mem
  | [], _ => rfl
  | _ :: r, _ => by rw [List.foldl_cons, mem_recordBytes base size region a r]; rfl

theorem State.wf_physPut {s : State} (h : Memory.wf s.mem = true) (tile lo : Nat) (b : List Byte) : Memory.wf (s.physPut tile lo b).mem = true := by
  unfold State.physPut
  dsimp only
  split
  · exact h
  · split
    · rw [State.mem_recordBytes]; exact h
    · split
      · split
        · exact h
        · exact Memory.wf_writeN (Memory.wf_writeN h _ _) _ _
      · exact Memory.wf_writeN h _ _

/-- The firmware's write of physical memory keeps the form. -/
theorem State.wf_physWrite {s : State} (h : Memory.wf s.mem = true) (a : Nat) (b : List Byte) : Memory.wf (s.physWrite a b).mem = true := by
  unfold State.physWrite
  generalize tileSegs a b.length = l
  induction l generalizing s b with
  | nil => exact h
  | cons g r ih => rw [List.foldl_cons]; exact ih (State.wf_physPut h _ _ _) _

theorem State.reset_mem_wf : Memory.wf State.reset.mem = true := rfl

end Sys2Proof.Machine
end

