-- ==== Sys2Proof/Laws/State.lean ====
section
/-! SUPPORT. What each named update of the state leaves as it was, field by field, and what it makes of the field that it writes. -/

namespace Sys2Proof.Machine

@[simp] theorem State.setCore_agenda (s : State) (k : Nat) (c : Core) : (s.setCore k c).agenda = s.agenda := rfl
@[simp] theorem State.setCore_turnNo (s : State) (k : Nat) (c : Core) : (s.setCore k c).turnNo = s.turnNo := rfl
@[simp] theorem State.setCore_freeNo (s : State) (k : Nat) (c : Core) : (s.setCore k c).freeNo = s.freeNo := rfl
@[simp] theorem State.setCore_fcore (s : State) (k : Nat) (c : Core) : (s.setCore k c).fcore = s.fcore := rfl
@[simp] theorem State.setCore_fcell (s : State) (k : Nat) (c : Core) : (s.setCore k c).fcell = s.fcell := rfl
@[simp] theorem State.setCore_word (s : State) (k : Nat) (c : Core) : (s.setCore k c).word = s.word := rfl
@[simp] theorem State.setCore_place (s : State) (k : Nat) (c : Core) : (s.setCore k c).place = s.place := rfl
@[simp] theorem State.setCore_mem (s : State) (k : Nat) (c : Core) : (s.setCore k c).mem = s.mem := rfl
@[simp] theorem State.setCore_time (s : State) (k : Nat) (c : Core) : (s.setCore k c).time = s.time := rfl
@[simp] theorem State.setCore_stage (s : State) (k : Nat) (c : Core) : (s.setCore k c).stage = s.stage := rfl
@[simp] theorem State.setCore_bootFail (s : State) (k : Nat) (c : Core) : (s.setCore k c).bootFail = s.bootFail := rfl
@[simp] theorem State.setCore_fuses (s : State) (k : Nat) (c : Core) : (s.setCore k c).fuses = s.fuses := rfl
@[simp] theorem State.setCore_isles (s : State) (k : Nat) (c : Core) : (s.setCore k c).isles = s.isles := rfl
@[simp] theorem State.setCore_dies (s : State) (k : Nat) (c : Core) : (s.setCore k c).dies = s.dies := rfl
@[simp] theorem State.setCore_parts (s : State) (k : Nat) (c : Core) : (s.setCore k c).parts = s.parts := rfl
@[simp] theorem State.setCore_regions (s : State) (k : Nat) (c : Core) : (s.setCore k c).regions = s.regions := rfl
@[simp] theorem State.setCore_nodes (s : State) (k : Nat) (c : Core) : (s.setCore k c).nodes = s.nodes := rfl
@[simp] theorem State.setCore_nodeNext (s : State) (k : Nat) (c : Core) : (s.setCore k c).nodeNext = s.nodeNext := rfl
@[simp] theorem State.setCore_doomed (s : State) (k : Nat) (c : Core) : (s.setCore k c).doomed = s.doomed := rfl
@[simp] theorem State.setCore_early (s : State) (k : Nat) (c : Core) : (s.setCore k c).early = s.early := rfl
@[simp] theorem State.setCore_saved (s : State) (k : Nat) (c : Core) : (s.setCore k c).saved = s.saved := rfl
@[simp] theorem State.setCore_hostOut (s : State) (k : Nat) (c : Core) : (s.setCore k c).hostOut = s.hostOut := rfl
@[simp] theorem State.setCore_tiles (s : State) (k : Nat) (c : Core) : (s.setCore k c).tiles = s.tiles := rfl
@[simp] theorem State.setCore_mcage (s : State) (k : Nat) (c : Core) : (s.setCore k c).mcage = s.mcage := rfl
@[simp] theorem State.setCore_wdog1 (s : State) (k : Nat) (c : Core) : (s.setCore k c).wdog1 = s.wdog1 := rfl
@[simp] theorem State.setCore_wdog2 (s : State) (k : Nat) (c : Core) : (s.setCore k c).wdog2 = s.wdog2 := rfl
@[simp] theorem State.setCore_mgrQueue (s : State) (k : Nat) (c : Core) : (s.setCore k c).mgrQueue = s.mgrQueue := rfl
@[simp] theorem State.setCore_posts (s : State) (k : Nat) (c : Core) : (s.setCore k c).posts = s.posts := rfl
@[simp] theorem State.setCore_seqs (s : State) (k : Nat) (c : Core) : (s.setCore k c).seqs = s.seqs := rfl
@[simp] theorem State.setCore_reqs (s : State) (k : Nat) (c : Core) : (s.setCore k c).reqs = s.reqs := rfl
@[simp] theorem State.setCore_straits (s : State) (k : Nat) (c : Core) : (s.setCore k c).straits = s.straits := rfl
@[simp] theorem State.setCore_ctl (s : State) (k : Nat) (c : Core) : (s.setCore k c).ctl = s.ctl := rfl
@[simp] theorem State.setCore_ueDown (s : State) (k : Nat) (c : Core) : (s.setCore k c).ueDown = s.ueDown := rfl
@[simp] theorem State.setCore_keys (s : State) (k : Nat) (c : Core) : (s.setCore k c).keys = s.keys := rfl
@[simp] theorem State.setCore_loads (s : State) (k : Nat) (c : Core) : (s.setCore k c).loads = s.loads := rfl
@[simp] theorem State.setCore_nonce (s : State) (k : Nat) (c : Core) : (s.setCore k c).nonce = s.nonce := rfl
@[simp] theorem State.setCore_sessions (s : State) (k : Nat) (c : Core) : (s.setCore k c).sessions = s.sessions := rfl
@[simp] theorem State.setCore_power (s : State) (k : Nat) (c : Core) : (s.setCore k c).power = s.power := rfl

@[simp] theorem State.modCore_agenda (s : State) (k : Nat) (f : Core → Core) : (s.modCore k f).agenda = s.agenda := rfl
@[simp] theorem State.modCore_turnNo (s : State) (k : Nat) (f : Core → Core) : (s.modCore k f).turnNo = s.turnNo := rfl
@[simp] theorem State.modCore_freeNo (s : State) (k : Nat) (f : Core → Core) : (s.modCore k f).freeNo = s.freeNo := rfl
@[simp] theorem State.modCore_fcore (s : State) (k : Nat) (f : Core → Core) : (s.modCore k f).fcore = s.fcore := rfl
@[simp] theorem State.modCore_fcell (s : State) (k : Nat) (f : Core → Core) : (s.modCore k f).fcell = s.fcell := rfl
@[simp] theorem State.modCore_word (s : State) (k : Nat) (f : Core → Core) : (s.modCore k f).word = s.word := rfl
@[simp] theorem State.modCore_place (s : State) (k : Nat) (f : Core → Core) : (s.modCore k f).place = s.place := rfl
@[simp] theorem State.modCore_mem (s : State) (k : Nat) (f : Core → Core) : (s.modCore k f).mem = s.mem := rfl
@[simp] theorem State.modCore_time (s : State) (k : Nat) (f : Core → Core) : (s.modCore k f).time = s.time := rfl
@[simp] theorem State.modCore_stage (s : State) (k : Nat) (f : Core → Core) : (s.modCore k f).stage = s.stage := rfl
@[simp] theorem State.modCore_bootFail (s : State) (k : Nat) (f : Core → Core) : (s.modCore k f).bootFail = s.bootFail := rfl
@[simp] theorem State.modCore_fuses (s : State) (k : Nat) (f : Core → Core) : (s.modCore k f).fuses = s.fuses := rfl
@[simp] theorem State.modCore_isles (s : State) (k : Nat) (f : Core → Core) : (s.modCore k f).isles = s.isles := rfl
@[simp] theorem State.modCore_dies (s : State) (k : Nat) (f : Core → Core) : (s.modCore k f).dies = s.dies := rfl
@[simp] theorem State.modCore_parts (s : State) (k : Nat) (f : Core → Core) : (s.modCore k f).parts = s.parts := rfl
@[simp] theorem State.modCore_regions (s : State) (k : Nat) (f : Core → Core) : (s.modCore k f).regions = s.regions := rfl
@[simp] theorem State.modCore_nodes (s : State) (k : Nat) (f : Core → Core) : (s.modCore k f).nodes = s.nodes := rfl
@[simp] theorem State.modCore_nodeNext (s : State) (k : Nat) (f : Core → Core) : (s.modCore k f).nodeNext = s.nodeNext := rfl
@[simp] theorem State.modCore_doomed (s : State) (k : Nat) (f : Core → Core) : (s.modCore k f).doomed = s.doomed := rfl
@[simp] theorem State.modCore_early (s : State) (k : Nat) (f : Core → Core) : (s.modCore k f).early = s.early := rfl
@[simp] theorem State.modCore_saved (s : State) (k : Nat) (f : Core → Core) : (s.modCore k f).saved = s.saved := rfl
@[simp] theorem State.modCore_hostOut (s : State) (k : Nat) (f : Core → Core) : (s.modCore k f).hostOut = s.hostOut := rfl
@[simp] theorem State.modCore_tiles (s : State) (k : Nat) (f : Core → Core) : (s.modCore k f).tiles = s.tiles := rfl
@[simp] theorem State.modCore_mcage (s : State) (k : Nat) (f : Core → Core) : (s.modCore k f).mcage = s.mcage := rfl
@[simp] theorem State.modCore_wdog1 (s : State) (k : Nat) (f : Core → Core) : (s.modCore k f).wdog1 = s.wdog1 := rfl
@[simp] theorem State.modCore_wdog2 (s : State) (k : Nat) (f : Core → Core) : (s.modCore k f).wdog2 = s.wdog2 := rfl
@[simp] theorem State.modCore_mgrQueue (s : State) (k : Nat) (f : Core → Core) : (s.modCore k f).mgrQueue = s.mgrQueue := rfl
@[simp] theorem State.modCore_posts (s : State) (k : Nat) (f : Core → Core) : (s.modCore k f).posts = s.posts := rfl
@[simp] theorem State.modCore_seqs (s : State) (k : Nat) (f : Core → Core) : (s.modCore k f).seqs = s.seqs := rfl
@[simp] theorem State.modCore_reqs (s : State) (k : Nat) (f : Core → Core) : (s.modCore k f).reqs = s.reqs := rfl
@[simp] theorem State.modCore_straits (s : State) (k : Nat) (f : Core → Core) : (s.modCore k f).straits = s.straits := rfl
@[simp] theorem State.modCore_ctl (s : State) (k : Nat) (f : Core → Core) : (s.modCore k f).ctl = s.ctl := rfl
@[simp] theorem State.modCore_ueDown (s : State) (k : Nat) (f : Core → Core) : (s.modCore k f).ueDown = s.ueDown := rfl
@[simp] theorem State.modCore_keys (s : State) (k : Nat) (f : Core → Core) : (s.modCore k f).keys = s.keys := rfl
@[simp] theorem State.modCore_loads (s : State) (k : Nat) (f : Core → Core) : (s.modCore k f).loads = s.loads := rfl
@[simp] theorem State.modCore_nonce (s : State) (k : Nat) (f : Core → Core) : (s.modCore k f).nonce = s.nonce := rfl
@[simp] theorem State.modCore_sessions (s : State) (k : Nat) (f : Core → Core) : (s.modCore k f).sessions = s.sessions := rfl
@[simp] theorem State.modCore_power (s : State) (k : Nat) (f : Core → Core) : (s.modCore k f).power = s.power := rfl

@[simp] theorem State.setCell_agenda (s : State) (k l : Nat) (c : Cell) : (s.setCell k l c).agenda = s.agenda := rfl
@[simp] theorem State.setCell_turnNo (s : State) (k l : Nat) (c : Cell) : (s.setCell k l c).turnNo = s.turnNo := rfl
@[simp] theorem State.setCell_freeNo (s : State) (k l : Nat) (c : Cell) : (s.setCell k l c).freeNo = s.freeNo := rfl
@[simp] theorem State.setCell_fcore (s : State) (k l : Nat) (c : Cell) : (s.setCell k l c).fcore = s.fcore := rfl
@[simp] theorem State.setCell_fcell (s : State) (k l : Nat) (c : Cell) : (s.setCell k l c).fcell = s.fcell := rfl
@[simp] theorem State.setCell_word (s : State) (k l : Nat) (c : Cell) : (s.setCell k l c).word = s.word := rfl
@[simp] theorem State.setCell_place (s : State) (k l : Nat) (c : Cell) : (s.setCell k l c).place = s.place := rfl
@[simp] theorem State.setCell_mem (s : State) (k l : Nat) (c : Cell) : (s.setCell k l c).mem = s.mem := rfl
@[simp] theorem State.setCell_time (s : State) (k l : Nat) (c : Cell) : (s.setCell k l c).time = s.time := rfl
@[simp] theorem State.setCell_stage (s : State) (k l : Nat) (c : Cell) : (s.setCell k l c).stage = s.stage := rfl
@[simp] theorem State.setCell_bootFail (s : State) (k l : Nat) (c : Cell) : (s.setCell k l c).bootFail = s.bootFail := rfl
@[simp] theorem State.setCell_fuses (s : State) (k l : Nat) (c : Cell) : (s.setCell k l c).fuses = s.fuses := rfl
@[simp] theorem State.setCell_isles (s : State) (k l : Nat) (c : Cell) : (s.setCell k l c).isles = s.isles := rfl
@[simp] theorem State.setCell_dies (s : State) (k l : Nat) (c : Cell) : (s.setCell k l c).dies = s.dies := rfl
@[simp] theorem State.setCell_parts (s : State) (k l : Nat) (c : Cell) : (s.setCell k l c).parts = s.parts := rfl
@[simp] theorem State.setCell_regions (s : State) (k l : Nat) (c : Cell) : (s.setCell k l c).regions = s.regions := rfl
@[simp] theorem State.setCell_nodes (s : State) (k l : Nat) (c : Cell) : (s.setCell k l c).nodes = s.nodes := rfl
@[simp] theorem State.setCell_nodeNext (s : State) (k l : Nat) (c : Cell) : (s.setCell k l c).nodeNext = s.nodeNext := rfl
@[simp] theorem State.setCell_doomed (s : State) (k l : Nat) (c : Cell) : (s.setCell k l c).doomed = s.doomed := rfl
@[simp] theorem State.setCell_early (s : State) (k l : Nat) (c : Cell) : (s.setCell k l c).early = s.early := rfl
@[simp] theorem State.setCell_saved (s : State) (k l : Nat) (c : Cell) : (s.setCell k l c).saved = s.saved := rfl
@[simp] theorem State.setCell_hostOut (s : State) (k l : Nat) (c : Cell) : (s.setCell k l c).hostOut = s.hostOut := rfl
@[simp] theorem State.setCell_tiles (s : State) (k l : Nat) (c : Cell) : (s.setCell k l c).tiles = s.tiles := rfl
@[simp] theorem State.setCell_mcage (s : State) (k l : Nat) (c : Cell) : (s.setCell k l c).mcage = s.mcage := rfl
@[simp] theorem State.setCell_wdog1 (s : State) (k l : Nat) (c : Cell) : (s.setCell k l c).wdog1 = s.wdog1 := rfl
@[simp] theorem State.setCell_wdog2 (s : State) (k l : Nat) (c : Cell) : (s.setCell k l c).wdog2 = s.wdog2 := rfl
@[simp] theorem State.setCell_mgrQueue (s : State) (k l : Nat) (c : Cell) : (s.setCell k l c).mgrQueue = s.mgrQueue := rfl
@[simp] theorem State.setCell_posts (s : State) (k l : Nat) (c : Cell) : (s.setCell k l c).posts = s.posts := rfl
@[simp] theorem State.setCell_seqs (s : State) (k l : Nat) (c : Cell) : (s.setCell k l c).seqs = s.seqs := rfl
@[simp] theorem State.setCell_reqs (s : State) (k l : Nat) (c : Cell) : (s.setCell k l c).reqs = s.reqs := rfl
@[simp] theorem State.setCell_straits (s : State) (k l : Nat) (c : Cell) : (s.setCell k l c).straits = s.straits := rfl
@[simp] theorem State.setCell_ctl (s : State) (k l : Nat) (c : Cell) : (s.setCell k l c).ctl = s.ctl := rfl
@[simp] theorem State.setCell_ueDown (s : State) (k l : Nat) (c : Cell) : (s.setCell k l c).ueDown = s.ueDown := rfl
@[simp] theorem State.setCell_keys (s : State) (k l : Nat) (c : Cell) : (s.setCell k l c).keys = s.keys := rfl
@[simp] theorem State.setCell_loads (s : State) (k l : Nat) (c : Cell) : (s.setCell k l c).loads = s.loads := rfl
@[simp] theorem State.setCell_nonce (s : State) (k l : Nat) (c : Cell) : (s.setCell k l c).nonce = s.nonce := rfl
@[simp] theorem State.setCell_sessions (s : State) (k l : Nat) (c : Cell) : (s.setCell k l c).sessions = s.sessions := rfl
@[simp] theorem State.setCell_power (s : State) (k l : Nat) (c : Cell) : (s.setCell k l c).power = s.power := rfl

@[simp] theorem State.modCell_agenda (s : State) (k l : Nat) (f : Cell → Cell) : (s.modCell k l f).agenda = s.agenda := rfl
@[simp] theorem State.modCell_turnNo (s : State) (k l : Nat) (f : Cell → Cell) : (s.modCell k l f).turnNo = s.turnNo := rfl
@[simp] theorem State.modCell_freeNo (s : State) (k l : Nat) (f : Cell → Cell) : (s.modCell k l f).freeNo = s.freeNo := rfl
@[simp] theorem State.modCell_fcore (s : State) (k l : Nat) (f : Cell → Cell) : (s.modCell k l f).fcore = s.fcore := rfl
@[simp] theorem State.modCell_fcell (s : State) (k l : Nat) (f : Cell → Cell) : (s.modCell k l f).fcell = s.fcell := rfl
@[simp] theorem State.modCell_word (s : State) (k l : Nat) (f : Cell → Cell) : (s.modCell k l f).word = s.word := rfl
@[simp] theorem State.modCell_place (s : State) (k l : Nat) (f : Cell → Cell) : (s.modCell k l f).place = s.place := rfl
@[simp] theorem State.modCell_mem (s : State) (k l : Nat) (f : Cell → Cell) : (s.modCell k l f).mem = s.mem := rfl
@[simp] theorem State.modCell_time (s : State) (k l : Nat) (f : Cell → Cell) : (s.modCell k l f).time = s.time := rfl
@[simp] theorem State.modCell_stage (s : State) (k l : Nat) (f : Cell → Cell) : (s.modCell k l f).stage = s.stage := rfl
@[simp] theorem State.modCell_bootFail (s : State) (k l : Nat) (f : Cell → Cell) : (s.modCell k l f).bootFail = s.bootFail := rfl
@[simp] theorem State.modCell_fuses (s : State) (k l : Nat) (f : Cell → Cell) : (s.modCell k l f).fuses = s.fuses := rfl
@[simp] theorem State.modCell_isles (s : State) (k l : Nat) (f : Cell → Cell) : (s.modCell k l f).isles = s.isles := rfl
@[simp] theorem State.modCell_dies (s : State) (k l : Nat) (f : Cell → Cell) : (s.modCell k l f).dies = s.dies := rfl
@[simp] theorem State.modCell_parts (s : State) (k l : Nat) (f : Cell → Cell) : (s.modCell k l f).parts = s.parts := rfl
@[simp] theorem State.modCell_regions (s : State) (k l : Nat) (f : Cell → Cell) : (s.modCell k l f).regions = s.regions := rfl
@[simp] theorem State.modCell_nodes (s : State) (k l : Nat) (f : Cell → Cell) : (s.modCell k l f).nodes = s.nodes := rfl
@[simp] theorem State.modCell_nodeNext (s : State) (k l : Nat) (f : Cell → Cell) : (s.modCell k l f).nodeNext = s.nodeNext := rfl
@[simp] theorem State.modCell_doomed (s : State) (k l : Nat) (f : Cell → Cell) : (s.modCell k l f).doomed = s.doomed := rfl
@[simp] theorem State.modCell_early (s : State) (k l : Nat) (f : Cell → Cell) : (s.modCell k l f).early = s.early := rfl
@[simp] theorem State.modCell_saved (s : State) (k l : Nat) (f : Cell → Cell) : (s.modCell k l f).saved = s.saved := rfl
@[simp] theorem State.modCell_hostOut (s : State) (k l : Nat) (f : Cell → Cell) : (s.modCell k l f).hostOut = s.hostOut := rfl
@[simp] theorem State.modCell_tiles (s : State) (k l : Nat) (f : Cell → Cell) : (s.modCell k l f).tiles = s.tiles := rfl
@[simp] theorem State.modCell_mcage (s : State) (k l : Nat) (f : Cell → Cell) : (s.modCell k l f).mcage = s.mcage := rfl
@[simp] theorem State.modCell_wdog1 (s : State) (k l : Nat) (f : Cell → Cell) : (s.modCell k l f).wdog1 = s.wdog1 := rfl
@[simp] theorem State.modCell_wdog2 (s : State) (k l : Nat) (f : Cell → Cell) : (s.modCell k l f).wdog2 = s.wdog2 := rfl
@[simp] theorem State.modCell_mgrQueue (s : State) (k l : Nat) (f : Cell → Cell) : (s.modCell k l f).mgrQueue = s.mgrQueue := rfl
@[simp] theorem State.modCell_posts (s : State) (k l : Nat) (f : Cell → Cell) : (s.modCell k l f).posts = s.posts := rfl
@[simp] theorem State.modCell_seqs (s : State) (k l : Nat) (f : Cell → Cell) : (s.modCell k l f).seqs = s.seqs := rfl
@[simp] theorem State.modCell_reqs (s : State) (k l : Nat) (f : Cell → Cell) : (s.modCell k l f).reqs = s.reqs := rfl
@[simp] theorem State.modCell_straits (s : State) (k l : Nat) (f : Cell → Cell) : (s.modCell k l f).straits = s.straits := rfl
@[simp] theorem State.modCell_ctl (s : State) (k l : Nat) (f : Cell → Cell) : (s.modCell k l f).ctl = s.ctl := rfl
@[simp] theorem State.modCell_ueDown (s : State) (k l : Nat) (f : Cell → Cell) : (s.modCell k l f).ueDown = s.ueDown := rfl
@[simp] theorem State.modCell_keys (s : State) (k l : Nat) (f : Cell → Cell) : (s.modCell k l f).keys = s.keys := rfl
@[simp] theorem State.modCell_loads (s : State) (k l : Nat) (f : Cell → Cell) : (s.modCell k l f).loads = s.loads := rfl
@[simp] theorem State.modCell_nonce (s : State) (k l : Nat) (f : Cell → Cell) : (s.modCell k l f).nonce = s.nonce := rfl
@[simp] theorem State.modCell_sessions (s : State) (k l : Nat) (f : Cell → Cell) : (s.modCell k l f).sessions = s.sessions := rfl
@[simp] theorem State.modCell_power (s : State) (k l : Nat) (f : Cell → Cell) : (s.modCell k l f).power = s.power := rfl

@[simp] theorem State.modCtx_agenda (s : State) (k l x : Nat) (f : Ctx → Ctx) : (s.modCtx k l x f).agenda = s.agenda := rfl
@[simp] theorem State.modCtx_turnNo (s : State) (k l x : Nat) (f : Ctx → Ctx) : (s.modCtx k l x f).turnNo = s.turnNo := rfl
@[simp] theorem State.modCtx_freeNo (s : State) (k l x : Nat) (f : Ctx → Ctx) : (s.modCtx k l x f).freeNo = s.freeNo := rfl
@[simp] theorem State.modCtx_fcore (s : State) (k l x : Nat) (f : Ctx → Ctx) : (s.modCtx k l x f).fcore = s.fcore := rfl
@[simp] theorem State.modCtx_fcell (s : State) (k l x : Nat) (f : Ctx → Ctx) : (s.modCtx k l x f).fcell = s.fcell := rfl
@[simp] theorem State.modCtx_word (s : State) (k l x : Nat) (f : Ctx → Ctx) : (s.modCtx k l x f).word = s.word := rfl
@[simp] theorem State.modCtx_place (s : State) (k l x : Nat) (f : Ctx → Ctx) : (s.modCtx k l x f).place = s.place := rfl
@[simp] theorem State.modCtx_mem (s : State) (k l x : Nat) (f : Ctx → Ctx) : (s.modCtx k l x f).mem = s.mem := rfl
@[simp] theorem State.modCtx_time (s : State) (k l x : Nat) (f : Ctx → Ctx) : (s.modCtx k l x f).time = s.time := rfl
@[simp] theorem State.modCtx_stage (s : State) (k l x : Nat) (f : Ctx → Ctx) : (s.modCtx k l x f).stage = s.stage := rfl
@[simp] theorem State.modCtx_bootFail (s : State) (k l x : Nat) (f : Ctx → Ctx) : (s.modCtx k l x f).bootFail = s.bootFail := rfl
@[simp] theorem State.modCtx_fuses (s : State) (k l x : Nat) (f : Ctx → Ctx) : (s.modCtx k l x f).fuses = s.fuses := rfl
@[simp] theorem State.modCtx_isles (s : State) (k l x : Nat) (f : Ctx → Ctx) : (s.modCtx k l x f).isles = s.isles := rfl
@[simp] theorem State.modCtx_dies (s : State) (k l x : Nat) (f : Ctx → Ctx) : (s.modCtx k l x f).dies = s.dies := rfl
@[simp] theorem State.modCtx_parts (s : State) (k l x : Nat) (f : Ctx → Ctx) : (s.modCtx k l x f).parts = s.parts := rfl
@[simp] theorem State.modCtx_regions (s : State) (k l x : Nat) (f : Ctx → Ctx) : (s.modCtx k l x f).regions = s.regions := rfl
@[simp] theorem State.modCtx_nodes (s : State) (k l x : Nat) (f : Ctx → Ctx) : (s.modCtx k l x f).nodes = s.nodes := rfl
@[simp] theorem State.modCtx_nodeNext (s : State) (k l x : Nat) (f : Ctx → Ctx) : (s.modCtx k l x f).nodeNext = s.nodeNext := rfl
@[simp] theorem State.modCtx_doomed (s : State) (k l x : Nat) (f : Ctx → Ctx) : (s.modCtx k l x f).doomed = s.doomed := rfl
@[simp] theorem State.modCtx_early (s : State) (k l x : Nat) (f : Ctx → Ctx) : (s.modCtx k l x f).early = s.early := rfl
@[simp] theorem State.modCtx_saved (s : State) (k l x : Nat) (f : Ctx → Ctx) : (s.modCtx k l x f).saved = s.saved := rfl
@[simp] theorem State.modCtx_hostOut (s : State) (k l x : Nat) (f : Ctx → Ctx) : (s.modCtx k l x f).hostOut = s.hostOut := rfl
@[simp] theorem State.modCtx_tiles (s : State) (k l x : Nat) (f : Ctx → Ctx) : (s.modCtx k l x f).tiles = s.tiles := rfl
@[simp] theorem State.modCtx_mcage (s : State) (k l x : Nat) (f : Ctx → Ctx) : (s.modCtx k l x f).mcage = s.mcage := rfl
@[simp] theorem State.modCtx_wdog1 (s : State) (k l x : Nat) (f : Ctx → Ctx) : (s.modCtx k l x f).wdog1 = s.wdog1 := rfl
@[simp] theorem State.modCtx_wdog2 (s : State) (k l x : Nat) (f : Ctx → Ctx) : (s.modCtx k l x f).wdog2 = s.wdog2 := rfl
@[simp] theorem State.modCtx_mgrQueue (s : State) (k l x : Nat) (f : Ctx → Ctx) : (s.modCtx k l x f).mgrQueue = s.mgrQueue := rfl
@[simp] theorem State.modCtx_posts (s : State) (k l x : Nat) (f : Ctx → Ctx) : (s.modCtx k l x f).posts = s.posts := rfl
@[simp] theorem State.modCtx_seqs (s : State) (k l x : Nat) (f : Ctx → Ctx) : (s.modCtx k l x f).seqs = s.seqs := rfl
@[simp] theorem State.modCtx_reqs (s : State) (k l x : Nat) (f : Ctx → Ctx) : (s.modCtx k l x f).reqs = s.reqs := rfl
@[simp] theorem State.modCtx_straits (s : State) (k l x : Nat) (f : Ctx → Ctx) : (s.modCtx k l x f).straits = s.straits := rfl
@[simp] theorem State.modCtx_ctl (s : State) (k l x : Nat) (f : Ctx → Ctx) : (s.modCtx k l x f).ctl = s.ctl := rfl
@[simp] theorem State.modCtx_ueDown (s : State) (k l x : Nat) (f : Ctx → Ctx) : (s.modCtx k l x f).ueDown = s.ueDown := rfl
@[simp] theorem State.modCtx_keys (s : State) (k l x : Nat) (f : Ctx → Ctx) : (s.modCtx k l x f).keys = s.keys := rfl
@[simp] theorem State.modCtx_loads (s : State) (k l x : Nat) (f : Ctx → Ctx) : (s.modCtx k l x f).loads = s.loads := rfl
@[simp] theorem State.modCtx_nonce (s : State) (k l x : Nat) (f : Ctx → Ctx) : (s.modCtx k l x f).nonce = s.nonce := rfl
@[simp] theorem State.modCtx_sessions (s : State) (k l x : Nat) (f : Ctx → Ctx) : (s.modCtx k l x f).sessions = s.sessions := rfl
@[simp] theorem State.modCtx_power (s : State) (k l x : Nat) (f : Ctx → Ctx) : (s.modCtx k l x f).power = s.power := rfl

@[simp] theorem State.modRc_agenda (s : State) (k : Nat) (f : Rc → Rc) : (s.modRc k f).agenda = s.agenda := rfl
@[simp] theorem State.modRc_turnNo (s : State) (k : Nat) (f : Rc → Rc) : (s.modRc k f).turnNo = s.turnNo := rfl
@[simp] theorem State.modRc_freeNo (s : State) (k : Nat) (f : Rc → Rc) : (s.modRc k f).freeNo = s.freeNo := rfl
@[simp] theorem State.modRc_fcore (s : State) (k : Nat) (f : Rc → Rc) : (s.modRc k f).fcore = s.fcore := rfl
@[simp] theorem State.modRc_fcell (s : State) (k : Nat) (f : Rc → Rc) : (s.modRc k f).fcell = s.fcell := rfl
@[simp] theorem State.modRc_word (s : State) (k : Nat) (f : Rc → Rc) : (s.modRc k f).word = s.word := rfl
@[simp] theorem State.modRc_place (s : State) (k : Nat) (f : Rc → Rc) : (s.modRc k f).place = s.place := rfl
@[simp] theorem State.modRc_mem (s : State) (k : Nat) (f : Rc → Rc) : (s.modRc k f).mem = s.mem := rfl
@[simp] theorem State.modRc_time (s : State) (k : Nat) (f : Rc → Rc) : (s.modRc k f).time = s.time := rfl
@[simp] theorem State.modRc_stage (s : State) (k : Nat) (f : Rc → Rc) : (s.modRc k f).stage = s.stage := rfl
@[simp] theorem State.modRc_bootFail (s : State) (k : Nat) (f : Rc → Rc) : (s.modRc k f).bootFail = s.bootFail := rfl
@[simp] theorem State.modRc_fuses (s : State) (k : Nat) (f : Rc → Rc) : (s.modRc k f).fuses = s.fuses := rfl
@[simp] theorem State.modRc_isles (s : State) (k : Nat) (f : Rc → Rc) : (s.modRc k f).isles = s.isles := rfl
@[simp] theorem State.modRc_dies (s : State) (k : Nat) (f : Rc → Rc) : (s.modRc k f).dies = s.dies := rfl
@[simp] theorem State.modRc_parts (s : State) (k : Nat) (f : Rc → Rc) : (s.modRc k f).parts = s.parts := rfl
@[simp] theorem State.modRc_regions (s : State) (k : Nat) (f : Rc → Rc) : (s.modRc k f).regions = s.regions := rfl
@[simp] theorem State.modRc_nodes (s : State) (k : Nat) (f : Rc → Rc) : (s.modRc k f).nodes = s.nodes := rfl
@[simp] theorem State.modRc_nodeNext (s : State) (k : Nat) (f : Rc → Rc) : (s.modRc k f).nodeNext = s.nodeNext := rfl
@[simp] theorem State.modRc_doomed (s : State) (k : Nat) (f : Rc → Rc) : (s.modRc k f).doomed = s.doomed := rfl
@[simp] theorem State.modRc_early (s : State) (k : Nat) (f : Rc → Rc) : (s.modRc k f).early = s.early := rfl
@[simp] theorem State.modRc_saved (s : State) (k : Nat) (f : Rc → Rc) : (s.modRc k f).saved = s.saved := rfl
@[simp] theorem State.modRc_hostOut (s : State) (k : Nat) (f : Rc → Rc) : (s.modRc k f).hostOut = s.hostOut := rfl
@[simp] theorem State.modRc_tiles (s : State) (k : Nat) (f : Rc → Rc) : (s.modRc k f).tiles = s.tiles := rfl
@[simp] theorem State.modRc_mcage (s : State) (k : Nat) (f : Rc → Rc) : (s.modRc k f).mcage = s.mcage := rfl
@[simp] theorem State.modRc_wdog1 (s : State) (k : Nat) (f : Rc → Rc) : (s.modRc k f).wdog1 = s.wdog1 := rfl
@[simp] theorem State.modRc_wdog2 (s : State) (k : Nat) (f : Rc → Rc) : (s.modRc k f).wdog2 = s.wdog2 := rfl
@[simp] theorem State.modRc_mgrQueue (s : State) (k : Nat) (f : Rc → Rc) : (s.modRc k f).mgrQueue = s.mgrQueue := rfl
@[simp] theorem State.modRc_posts (s : State) (k : Nat) (f : Rc → Rc) : (s.modRc k f).posts = s.posts := rfl
@[simp] theorem State.modRc_seqs (s : State) (k : Nat) (f : Rc → Rc) : (s.modRc k f).seqs = s.seqs := rfl
@[simp] theorem State.modRc_reqs (s : State) (k : Nat) (f : Rc → Rc) : (s.modRc k f).reqs = s.reqs := rfl
@[simp] theorem State.modRc_straits (s : State) (k : Nat) (f : Rc → Rc) : (s.modRc k f).straits = s.straits := rfl
@[simp] theorem State.modRc_ctl (s : State) (k : Nat) (f : Rc → Rc) : (s.modRc k f).ctl = s.ctl := rfl
@[simp] theorem State.modRc_ueDown (s : State) (k : Nat) (f : Rc → Rc) : (s.modRc k f).ueDown = s.ueDown := rfl
@[simp] theorem State.modRc_keys (s : State) (k : Nat) (f : Rc → Rc) : (s.modRc k f).keys = s.keys := rfl
@[simp] theorem State.modRc_loads (s : State) (k : Nat) (f : Rc → Rc) : (s.modRc k f).loads = s.loads := rfl
@[simp] theorem State.modRc_nonce (s : State) (k : Nat) (f : Rc → Rc) : (s.modRc k f).nonce = s.nonce := rfl
@[simp] theorem State.modRc_sessions (s : State) (k : Nat) (f : Rc → Rc) : (s.modRc k f).sessions = s.sessions := rfl
@[simp] theorem State.modRc_power (s : State) (k : Nat) (f : Rc → Rc) : (s.modRc k f).power = s.power := rfl

@[simp] theorem State.modPart_agenda (s : State) (p : Nat) (f : Part → Part) : (s.modPart p f).agenda = s.agenda := rfl
@[simp] theorem State.modPart_turnNo (s : State) (p : Nat) (f : Part → Part) : (s.modPart p f).turnNo = s.turnNo := rfl
@[simp] theorem State.modPart_freeNo (s : State) (p : Nat) (f : Part → Part) : (s.modPart p f).freeNo = s.freeNo := rfl
@[simp] theorem State.modPart_fcore (s : State) (p : Nat) (f : Part → Part) : (s.modPart p f).fcore = s.fcore := rfl
@[simp] theorem State.modPart_fcell (s : State) (p : Nat) (f : Part → Part) : (s.modPart p f).fcell = s.fcell := rfl
@[simp] theorem State.modPart_word (s : State) (p : Nat) (f : Part → Part) : (s.modPart p f).word = s.word := rfl
@[simp] theorem State.modPart_place (s : State) (p : Nat) (f : Part → Part) : (s.modPart p f).place = s.place := rfl
@[simp] theorem State.modPart_mem (s : State) (p : Nat) (f : Part → Part) : (s.modPart p f).mem = s.mem := rfl
@[simp] theorem State.modPart_time (s : State) (p : Nat) (f : Part → Part) : (s.modPart p f).time = s.time := rfl
@[simp] theorem State.modPart_stage (s : State) (p : Nat) (f : Part → Part) : (s.modPart p f).stage = s.stage := rfl
@[simp] theorem State.modPart_bootFail (s : State) (p : Nat) (f : Part → Part) : (s.modPart p f).bootFail = s.bootFail := rfl
@[simp] theorem State.modPart_fuses (s : State) (p : Nat) (f : Part → Part) : (s.modPart p f).fuses = s.fuses := rfl
@[simp] theorem State.modPart_cores (s : State) (p : Nat) (f : Part → Part) : (s.modPart p f).cores = s.cores := rfl
@[simp] theorem State.modPart_isles (s : State) (p : Nat) (f : Part → Part) : (s.modPart p f).isles = s.isles := rfl
@[simp] theorem State.modPart_dies (s : State) (p : Nat) (f : Part → Part) : (s.modPart p f).dies = s.dies := rfl
@[simp] theorem State.modPart_regions (s : State) (p : Nat) (f : Part → Part) : (s.modPart p f).regions = s.regions := rfl
@[simp] theorem State.modPart_nodes (s : State) (p : Nat) (f : Part → Part) : (s.modPart p f).nodes = s.nodes := rfl
@[simp] theorem State.modPart_nodeNext (s : State) (p : Nat) (f : Part → Part) : (s.modPart p f).nodeNext = s.nodeNext := rfl
@[simp] theorem State.modPart_doomed (s : State) (p : Nat) (f : Part → Part) : (s.modPart p f).doomed = s.doomed := rfl
@[simp] theorem State.modPart_early (s : State) (p : Nat) (f : Part → Part) : (s.modPart p f).early = s.early := rfl
@[simp] theorem State.modPart_saved (s : State) (p : Nat) (f : Part → Part) : (s.modPart p f).saved = s.saved := rfl
@[simp] theorem State.modPart_hostOut (s : State) (p : Nat) (f : Part → Part) : (s.modPart p f).hostOut = s.hostOut := rfl
@[simp] theorem State.modPart_tiles (s : State) (p : Nat) (f : Part → Part) : (s.modPart p f).tiles = s.tiles := rfl
@[simp] theorem State.modPart_mcage (s : State) (p : Nat) (f : Part → Part) : (s.modPart p f).mcage = s.mcage := rfl
@[simp] theorem State.modPart_wdog1 (s : State) (p : Nat) (f : Part → Part) : (s.modPart p f).wdog1 = s.wdog1 := rfl
@[simp] theorem State.modPart_wdog2 (s : State) (p : Nat) (f : Part → Part) : (s.modPart p f).wdog2 = s.wdog2 := rfl
@[simp] theorem State.modPart_mgrQueue (s : State) (p : Nat) (f : Part → Part) : (s.modPart p f).mgrQueue = s.mgrQueue := rfl
@[simp] theorem State.modPart_posts (s : State) (p : Nat) (f : Part → Part) : (s.modPart p f).posts = s.posts := rfl
@[simp] theorem State.modPart_seqs (s : State) (p : Nat) (f : Part → Part) : (s.modPart p f).seqs = s.seqs := rfl
@[simp] theorem State.modPart_reqs (s : State) (p : Nat) (f : Part → Part) : (s.modPart p f).reqs = s.reqs := rfl
@[simp] theorem State.modPart_straits (s : State) (p : Nat) (f : Part → Part) : (s.modPart p f).straits = s.straits := rfl
@[simp] theorem State.modPart_ctl (s : State) (p : Nat) (f : Part → Part) : (s.modPart p f).ctl = s.ctl := rfl
@[simp] theorem State.modPart_ueDown (s : State) (p : Nat) (f : Part → Part) : (s.modPart p f).ueDown = s.ueDown := rfl
@[simp] theorem State.modPart_keys (s : State) (p : Nat) (f : Part → Part) : (s.modPart p f).keys = s.keys := rfl
@[simp] theorem State.modPart_loads (s : State) (p : Nat) (f : Part → Part) : (s.modPart p f).loads = s.loads := rfl
@[simp] theorem State.modPart_nonce (s : State) (p : Nat) (f : Part → Part) : (s.modPart p f).nonce = s.nonce := rfl
@[simp] theorem State.modPart_sessions (s : State) (p : Nat) (f : Part → Part) : (s.modPart p f).sessions = s.sessions := rfl
@[simp] theorem State.modPart_power (s : State) (p : Nat) (f : Part → Part) : (s.modPart p f).power = s.power := rfl

@[simp] theorem State.modIsle_agenda (s : State) (i : Nat) (f : Isle → Isle) : (s.modIsle i f).agenda = s.agenda := rfl
@[simp] theorem State.modIsle_turnNo (s : State) (i : Nat) (f : Isle → Isle) : (s.modIsle i f).turnNo = s.turnNo := rfl
@[simp] theorem State.modIsle_freeNo (s : State) (i : Nat) (f : Isle → Isle) : (s.modIsle i f).freeNo = s.freeNo := rfl
@[simp] theorem State.modIsle_fcore (s : State) (i : Nat) (f : Isle → Isle) : (s.modIsle i f).fcore = s.fcore := rfl
@[simp] theorem State.modIsle_fcell (s : State) (i : Nat) (f : Isle → Isle) : (s.modIsle i f).fcell = s.fcell := rfl
@[simp] theorem State.modIsle_word (s : State) (i : Nat) (f : Isle → Isle) : (s.modIsle i f).word = s.word := rfl
@[simp] theorem State.modIsle_place (s : State) (i : Nat) (f : Isle → Isle) : (s.modIsle i f).place = s.place := rfl
@[simp] theorem State.modIsle_mem (s : State) (i : Nat) (f : Isle → Isle) : (s.modIsle i f).mem = s.mem := rfl
@[simp] theorem State.modIsle_time (s : State) (i : Nat) (f : Isle → Isle) : (s.modIsle i f).time = s.time := rfl
@[simp] theorem State.modIsle_stage (s : State) (i : Nat) (f : Isle → Isle) : (s.modIsle i f).stage = s.stage := rfl
@[simp] theorem State.modIsle_bootFail (s : State) (i : Nat) (f : Isle → Isle) : (s.modIsle i f).bootFail = s.bootFail := rfl
@[simp] theorem State.modIsle_fuses (s : State) (i : Nat) (f : Isle → Isle) : (s.modIsle i f).fuses = s.fuses := rfl
@[simp] theorem State.modIsle_cores (s : State) (i : Nat) (f : Isle → Isle) : (s.modIsle i f).cores = s.cores := rfl
@[simp] theorem State.modIsle_dies (s : State) (i : Nat) (f : Isle → Isle) : (s.modIsle i f).dies = s.dies := rfl
@[simp] theorem State.modIsle_parts (s : State) (i : Nat) (f : Isle → Isle) : (s.modIsle i f).parts = s.parts := rfl
@[simp] theorem State.modIsle_regions (s : State) (i : Nat) (f : Isle → Isle) : (s.modIsle i f).regions = s.regions := rfl
@[simp] theorem State.modIsle_nodes (s : State) (i : Nat) (f : Isle → Isle) : (s.modIsle i f).nodes = s.nodes := rfl
@[simp] theorem State.modIsle_nodeNext (s : State) (i : Nat) (f : Isle → Isle) : (s.modIsle i f).nodeNext = s.nodeNext := rfl
@[simp] theorem State.modIsle_doomed (s : State) (i : Nat) (f : Isle → Isle) : (s.modIsle i f).doomed = s.doomed := rfl
@[simp] theorem State.modIsle_early (s : State) (i : Nat) (f : Isle → Isle) : (s.modIsle i f).early = s.early := rfl
@[simp] theorem State.modIsle_saved (s : State) (i : Nat) (f : Isle → Isle) : (s.modIsle i f).saved = s.saved := rfl
@[simp] theorem State.modIsle_hostOut (s : State) (i : Nat) (f : Isle → Isle) : (s.modIsle i f).hostOut = s.hostOut := rfl
@[simp] theorem State.modIsle_tiles (s : State) (i : Nat) (f : Isle → Isle) : (s.modIsle i f).tiles = s.tiles := rfl
@[simp] theorem State.modIsle_mcage (s : State) (i : Nat) (f : Isle → Isle) : (s.modIsle i f).mcage = s.mcage := rfl
@[simp] theorem State.modIsle_wdog1 (s : State) (i : Nat) (f : Isle → Isle) : (s.modIsle i f).wdog1 = s.wdog1 := rfl
@[simp] theorem State.modIsle_wdog2 (s : State) (i : Nat) (f : Isle → Isle) : (s.modIsle i f).wdog2 = s.wdog2 := rfl
@[simp] theorem State.modIsle_mgrQueue (s : State) (i : Nat) (f : Isle → Isle) : (s.modIsle i f).mgrQueue = s.mgrQueue := rfl
@[simp] theorem State.modIsle_posts (s : State) (i : Nat) (f : Isle → Isle) : (s.modIsle i f).posts = s.posts := rfl
@[simp] theorem State.modIsle_seqs (s : State) (i : Nat) (f : Isle → Isle) : (s.modIsle i f).seqs = s.seqs := rfl
@[simp] theorem State.modIsle_reqs (s : State) (i : Nat) (f : Isle → Isle) : (s.modIsle i f).reqs = s.reqs := rfl
@[simp] theorem State.modIsle_straits (s : State) (i : Nat) (f : Isle → Isle) : (s.modIsle i f).straits = s.straits := rfl
@[simp] theorem State.modIsle_ctl (s : State) (i : Nat) (f : Isle → Isle) : (s.modIsle i f).ctl = s.ctl := rfl
@[simp] theorem State.modIsle_ueDown (s : State) (i : Nat) (f : Isle → Isle) : (s.modIsle i f).ueDown = s.ueDown := rfl
@[simp] theorem State.modIsle_keys (s : State) (i : Nat) (f : Isle → Isle) : (s.modIsle i f).keys = s.keys := rfl
@[simp] theorem State.modIsle_loads (s : State) (i : Nat) (f : Isle → Isle) : (s.modIsle i f).loads = s.loads := rfl
@[simp] theorem State.modIsle_nonce (s : State) (i : Nat) (f : Isle → Isle) : (s.modIsle i f).nonce = s.nonce := rfl
@[simp] theorem State.modIsle_sessions (s : State) (i : Nat) (f : Isle → Isle) : (s.modIsle i f).sessions = s.sessions := rfl
@[simp] theorem State.modIsle_power (s : State) (i : Nat) (f : Isle → Isle) : (s.modIsle i f).power = s.power := rfl

@[simp] theorem State.modDie_agenda (s : State) (d : Nat) (f : Die → Die) : (s.modDie d f).agenda = s.agenda := rfl
@[simp] theorem State.modDie_turnNo (s : State) (d : Nat) (f : Die → Die) : (s.modDie d f).turnNo = s.turnNo := rfl
@[simp] theorem State.modDie_freeNo (s : State) (d : Nat) (f : Die → Die) : (s.modDie d f).freeNo = s.freeNo := rfl
@[simp] theorem State.modDie_fcore (s : State) (d : Nat) (f : Die → Die) : (s.modDie d f).fcore = s.fcore := rfl
@[simp] theorem State.modDie_fcell (s : State) (d : Nat) (f : Die → Die) : (s.modDie d f).fcell = s.fcell := rfl
@[simp] theorem State.modDie_word (s : State) (d : Nat) (f : Die → Die) : (s.modDie d f).word = s.word := rfl
@[simp] theorem State.modDie_place (s : State) (d : Nat) (f : Die → Die) : (s.modDie d f).place = s.place := rfl
@[simp] theorem State.modDie_mem (s : State) (d : Nat) (f : Die → Die) : (s.modDie d f).mem = s.mem := rfl
@[simp] theorem State.modDie_time (s : State) (d : Nat) (f : Die → Die) : (s.modDie d f).time = s.time := rfl
@[simp] theorem State.modDie_stage (s : State) (d : Nat) (f : Die → Die) : (s.modDie d f).stage = s.stage := rfl
@[simp] theorem State.modDie_bootFail (s : State) (d : Nat) (f : Die → Die) : (s.modDie d f).bootFail = s.bootFail := rfl
@[simp] theorem State.modDie_fuses (s : State) (d : Nat) (f : Die → Die) : (s.modDie d f).fuses = s.fuses := rfl
@[simp] theorem State.modDie_cores (s : State) (d : Nat) (f : Die → Die) : (s.modDie d f).cores = s.cores := rfl
@[simp] theorem State.modDie_isles (s : State) (d : Nat) (f : Die → Die) : (s.modDie d f).isles = s.isles := rfl
@[simp] theorem State.modDie_parts (s : State) (d : Nat) (f : Die → Die) : (s.modDie d f).parts = s.parts := rfl
@[simp] theorem State.modDie_regions (s : State) (d : Nat) (f : Die → Die) : (s.modDie d f).regions = s.regions := rfl
@[simp] theorem State.modDie_nodes (s : State) (d : Nat) (f : Die → Die) : (s.modDie d f).nodes = s.nodes := rfl
@[simp] theorem State.modDie_nodeNext (s : State) (d : Nat) (f : Die → Die) : (s.modDie d f).nodeNext = s.nodeNext := rfl
@[simp] theorem State.modDie_doomed (s : State) (d : Nat) (f : Die → Die) : (s.modDie d f).doomed = s.doomed := rfl
@[simp] theorem State.modDie_early (s : State) (d : Nat) (f : Die → Die) : (s.modDie d f).early = s.early := rfl
@[simp] theorem State.modDie_saved (s : State) (d : Nat) (f : Die → Die) : (s.modDie d f).saved = s.saved := rfl
@[simp] theorem State.modDie_hostOut (s : State) (d : Nat) (f : Die → Die) : (s.modDie d f).hostOut = s.hostOut := rfl
@[simp] theorem State.modDie_tiles (s : State) (d : Nat) (f : Die → Die) : (s.modDie d f).tiles = s.tiles := rfl
@[simp] theorem State.modDie_mcage (s : State) (d : Nat) (f : Die → Die) : (s.modDie d f).mcage = s.mcage := rfl
@[simp] theorem State.modDie_wdog1 (s : State) (d : Nat) (f : Die → Die) : (s.modDie d f).wdog1 = s.wdog1 := rfl
@[simp] theorem State.modDie_wdog2 (s : State) (d : Nat) (f : Die → Die) : (s.modDie d f).wdog2 = s.wdog2 := rfl
@[simp] theorem State.modDie_mgrQueue (s : State) (d : Nat) (f : Die → Die) : (s.modDie d f).mgrQueue = s.mgrQueue := rfl
@[simp] theorem State.modDie_posts (s : State) (d : Nat) (f : Die → Die) : (s.modDie d f).posts = s.posts := rfl
@[simp] theorem State.modDie_seqs (s : State) (d : Nat) (f : Die → Die) : (s.modDie d f).seqs = s.seqs := rfl
@[simp] theorem State.modDie_reqs (s : State) (d : Nat) (f : Die → Die) : (s.modDie d f).reqs = s.reqs := rfl
@[simp] theorem State.modDie_straits (s : State) (d : Nat) (f : Die → Die) : (s.modDie d f).straits = s.straits := rfl
@[simp] theorem State.modDie_ctl (s : State) (d : Nat) (f : Die → Die) : (s.modDie d f).ctl = s.ctl := rfl
@[simp] theorem State.modDie_ueDown (s : State) (d : Nat) (f : Die → Die) : (s.modDie d f).ueDown = s.ueDown := rfl
@[simp] theorem State.modDie_keys (s : State) (d : Nat) (f : Die → Die) : (s.modDie d f).keys = s.keys := rfl
@[simp] theorem State.modDie_loads (s : State) (d : Nat) (f : Die → Die) : (s.modDie d f).loads = s.loads := rfl
@[simp] theorem State.modDie_nonce (s : State) (d : Nat) (f : Die → Die) : (s.modDie d f).nonce = s.nonce := rfl
@[simp] theorem State.modDie_sessions (s : State) (d : Nat) (f : Die → Die) : (s.modDie d f).sessions = s.sessions := rfl
@[simp] theorem State.modDie_power (s : State) (d : Nat) (f : Die → Die) : (s.modDie d f).power = s.power := rfl

@[simp] theorem State.modStrait_agenda (s : State) (p : Nat) (f : Strait → Strait) : (s.modStrait p f).agenda = s.agenda := rfl
@[simp] theorem State.modStrait_turnNo (s : State) (p : Nat) (f : Strait → Strait) : (s.modStrait p f).turnNo = s.turnNo := rfl
@[simp] theorem State.modStrait_freeNo (s : State) (p : Nat) (f : Strait → Strait) : (s.modStrait p f).freeNo = s.freeNo := rfl
@[simp] theorem State.modStrait_fcore (s : State) (p : Nat) (f : Strait → Strait) : (s.modStrait p f).fcore = s.fcore := rfl
@[simp] theorem State.modStrait_fcell (s : State) (p : Nat) (f : Strait → Strait) : (s.modStrait p f).fcell = s.fcell := rfl
@[simp] theorem State.modStrait_word (s : State) (p : Nat) (f : Strait → Strait) : (s.modStrait p f).word = s.word := rfl
@[simp] theorem State.modStrait_place (s : State) (p : Nat) (f : Strait → Strait) : (s.modStrait p f).place = s.place := rfl
@[simp] theorem State.modStrait_mem (s : State) (p : Nat) (f : Strait → Strait) : (s.modStrait p f).mem = s.mem := rfl
@[simp] theorem State.modStrait_time (s : State) (p : Nat) (f : Strait → Strait) : (s.modStrait p f).time = s.time := rfl
@[simp] theorem State.modStrait_stage (s : State) (p : Nat) (f : Strait → Strait) : (s.modStrait p f).stage = s.stage := rfl
@[simp] theorem State.modStrait_bootFail (s : State) (p : Nat) (f : Strait → Strait) : (s.modStrait p f).bootFail = s.bootFail := rfl
@[simp] theorem State.modStrait_fuses (s : State) (p : Nat) (f : Strait → Strait) : (s.modStrait p f).fuses = s.fuses := rfl
@[simp] theorem State.modStrait_cores (s : State) (p : Nat) (f : Strait → Strait) : (s.modStrait p f).cores = s.cores := rfl
@[simp] theorem State.modStrait_isles (s : State) (p : Nat) (f : Strait → Strait) : (s.modStrait p f).isles = s.isles := rfl
@[simp] theorem State.modStrait_dies (s : State) (p : Nat) (f : Strait → Strait) : (s.modStrait p f).dies = s.dies := rfl
@[simp] theorem State.modStrait_parts (s : State) (p : Nat) (f : Strait → Strait) : (s.modStrait p f).parts = s.parts := rfl
@[simp] theorem State.modStrait_regions (s : State) (p : Nat) (f : Strait → Strait) : (s.modStrait p f).regions = s.regions := rfl
@[simp] theorem State.modStrait_nodes (s : State) (p : Nat) (f : Strait → Strait) : (s.modStrait p f).nodes = s.nodes := rfl
@[simp] theorem State.modStrait_nodeNext (s : State) (p : Nat) (f : Strait → Strait) : (s.modStrait p f).nodeNext = s.nodeNext := rfl
@[simp] theorem State.modStrait_doomed (s : State) (p : Nat) (f : Strait → Strait) : (s.modStrait p f).doomed = s.doomed := rfl
@[simp] theorem State.modStrait_early (s : State) (p : Nat) (f : Strait → Strait) : (s.modStrait p f).early = s.early := rfl
@[simp] theorem State.modStrait_saved (s : State) (p : Nat) (f : Strait → Strait) : (s.modStrait p f).saved = s.saved := rfl
@[simp] theorem State.modStrait_hostOut (s : State) (p : Nat) (f : Strait → Strait) : (s.modStrait p f).hostOut = s.hostOut := rfl
@[simp] theorem State.modStrait_tiles (s : State) (p : Nat) (f : Strait → Strait) : (s.modStrait p f).tiles = s.tiles := rfl
@[simp] theorem State.modStrait_mcage (s : State) (p : Nat) (f : Strait → Strait) : (s.modStrait p f).mcage = s.mcage := rfl
@[simp] theorem State.modStrait_wdog1 (s : State) (p : Nat) (f : Strait → Strait) : (s.modStrait p f).wdog1 = s.wdog1 := rfl
@[simp] theorem State.modStrait_wdog2 (s : State) (p : Nat) (f : Strait → Strait) : (s.modStrait p f).wdog2 = s.wdog2 := rfl
@[simp] theorem State.modStrait_mgrQueue (s : State) (p : Nat) (f : Strait → Strait) : (s.modStrait p f).mgrQueue = s.mgrQueue := rfl
@[simp] theorem State.modStrait_posts (s : State) (p : Nat) (f : Strait → Strait) : (s.modStrait p f).posts = s.posts := rfl
@[simp] theorem State.modStrait_seqs (s : State) (p : Nat) (f : Strait → Strait) : (s.modStrait p f).seqs = s.seqs := rfl
@[simp] theorem State.modStrait_reqs (s : State) (p : Nat) (f : Strait → Strait) : (s.modStrait p f).reqs = s.reqs := rfl
@[simp] theorem State.modStrait_ueDown (s : State) (p : Nat) (f : Strait → Strait) : (s.modStrait p f).ueDown = s.ueDown := rfl
@[simp] theorem State.modStrait_keys (s : State) (p : Nat) (f : Strait → Strait) : (s.modStrait p f).keys = s.keys := rfl
@[simp] theorem State.modStrait_loads (s : State) (p : Nat) (f : Strait → Strait) : (s.modStrait p f).loads = s.loads := rfl
@[simp] theorem State.modStrait_nonce (s : State) (p : Nat) (f : Strait → Strait) : (s.modStrait p f).nonce = s.nonce := rfl
@[simp] theorem State.modStrait_sessions (s : State) (p : Nat) (f : Strait → Strait) : (s.modStrait p f).sessions = s.sessions := rfl
@[simp] theorem State.modStrait_power (s : State) (p : Nat) (f : Strait → Strait) : (s.modStrait p f).power = s.power := rfl

@[simp] theorem State.modRegion_agenda (s : State) (l : Nat) (f : Region → Region) : (s.modRegion l f).agenda = s.agenda := rfl
@[simp] theorem State.modRegion_turnNo (s : State) (l : Nat) (f : Region → Region) : (s.modRegion l f).turnNo = s.turnNo := rfl
@[simp] theorem State.modRegion_freeNo (s : State) (l : Nat) (f : Region → Region) : (s.modRegion l f).freeNo = s.freeNo := rfl
@[simp] theorem State.modRegion_fcore (s : State) (l : Nat) (f : Region → Region) : (s.modRegion l f).fcore = s.fcore := rfl
@[simp] theorem State.modRegion_fcell (s : State) (l : Nat) (f : Region → Region) : (s.modRegion l f).fcell = s.fcell := rfl
@[simp] theorem State.modRegion_word (s : State) (l : Nat) (f : Region → Region) : (s.modRegion l f).word = s.word := rfl
@[simp] theorem State.modRegion_place (s : State) (l : Nat) (f : Region → Region) : (s.modRegion l f).place = s.place := rfl
@[simp] theorem State.modRegion_mem (s : State) (l : Nat) (f : Region → Region) : (s.modRegion l f).mem = s.mem := rfl
@[simp] theorem State.modRegion_time (s : State) (l : Nat) (f : Region → Region) : (s.modRegion l f).time = s.time := rfl
@[simp] theorem State.modRegion_stage (s : State) (l : Nat) (f : Region → Region) : (s.modRegion l f).stage = s.stage := rfl
@[simp] theorem State.modRegion_bootFail (s : State) (l : Nat) (f : Region → Region) : (s.modRegion l f).bootFail = s.bootFail := rfl
@[simp] theorem State.modRegion_fuses (s : State) (l : Nat) (f : Region → Region) : (s.modRegion l f).fuses = s.fuses := rfl
@[simp] theorem State.modRegion_cores (s : State) (l : Nat) (f : Region → Region) : (s.modRegion l f).cores = s.cores := rfl
@[simp] theorem State.modRegion_isles (s : State) (l : Nat) (f : Region → Region) : (s.modRegion l f).isles = s.isles := rfl
@[simp] theorem State.modRegion_dies (s : State) (l : Nat) (f : Region → Region) : (s.modRegion l f).dies = s.dies := rfl
@[simp] theorem State.modRegion_parts (s : State) (l : Nat) (f : Region → Region) : (s.modRegion l f).parts = s.parts := rfl
@[simp] theorem State.modRegion_nodes (s : State) (l : Nat) (f : Region → Region) : (s.modRegion l f).nodes = s.nodes := rfl
@[simp] theorem State.modRegion_nodeNext (s : State) (l : Nat) (f : Region → Region) : (s.modRegion l f).nodeNext = s.nodeNext := rfl
@[simp] theorem State.modRegion_doomed (s : State) (l : Nat) (f : Region → Region) : (s.modRegion l f).doomed = s.doomed := rfl
@[simp] theorem State.modRegion_early (s : State) (l : Nat) (f : Region → Region) : (s.modRegion l f).early = s.early := rfl
@[simp] theorem State.modRegion_saved (s : State) (l : Nat) (f : Region → Region) : (s.modRegion l f).saved = s.saved := rfl
@[simp] theorem State.modRegion_hostOut (s : State) (l : Nat) (f : Region → Region) : (s.modRegion l f).hostOut = s.hostOut := rfl
@[simp] theorem State.modRegion_tiles (s : State) (l : Nat) (f : Region → Region) : (s.modRegion l f).tiles = s.tiles := rfl
@[simp] theorem State.modRegion_mcage (s : State) (l : Nat) (f : Region → Region) : (s.modRegion l f).mcage = s.mcage := rfl
@[simp] theorem State.modRegion_wdog1 (s : State) (l : Nat) (f : Region → Region) : (s.modRegion l f).wdog1 = s.wdog1 := rfl
@[simp] theorem State.modRegion_wdog2 (s : State) (l : Nat) (f : Region → Region) : (s.modRegion l f).wdog2 = s.wdog2 := rfl
@[simp] theorem State.modRegion_mgrQueue (s : State) (l : Nat) (f : Region → Region) : (s.modRegion l f).mgrQueue = s.mgrQueue := rfl
@[simp] theorem State.modRegion_posts (s : State) (l : Nat) (f : Region → Region) : (s.modRegion l f).posts = s.posts := rfl
@[simp] theorem State.modRegion_seqs (s : State) (l : Nat) (f : Region → Region) : (s.modRegion l f).seqs = s.seqs := rfl
@[simp] theorem State.modRegion_reqs (s : State) (l : Nat) (f : Region → Region) : (s.modRegion l f).reqs = s.reqs := rfl
@[simp] theorem State.modRegion_straits (s : State) (l : Nat) (f : Region → Region) : (s.modRegion l f).straits = s.straits := rfl
@[simp] theorem State.modRegion_ctl (s : State) (l : Nat) (f : Region → Region) : (s.modRegion l f).ctl = s.ctl := rfl
@[simp] theorem State.modRegion_ueDown (s : State) (l : Nat) (f : Region → Region) : (s.modRegion l f).ueDown = s.ueDown := rfl
@[simp] theorem State.modRegion_keys (s : State) (l : Nat) (f : Region → Region) : (s.modRegion l f).keys = s.keys := rfl
@[simp] theorem State.modRegion_loads (s : State) (l : Nat) (f : Region → Region) : (s.modRegion l f).loads = s.loads := rfl
@[simp] theorem State.modRegion_nonce (s : State) (l : Nat) (f : Region → Region) : (s.modRegion l f).nonce = s.nonce := rfl
@[simp] theorem State.modRegion_sessions (s : State) (l : Nat) (f : Region → Region) : (s.modRegion l f).sessions = s.sessions := rfl
@[simp] theorem State.modRegion_power (s : State) (l : Nat) (f : Region → Region) : (s.modRegion l f).power = s.power := rfl

@[simp] theorem State.post_agenda (s : State) (q k r d : Nat) (b : List Byte) (m : Bool) : (s.post q k r d b m).agenda = s.agenda := rfl
@[simp] theorem State.post_turnNo (s : State) (q k r d : Nat) (b : List Byte) (m : Bool) : (s.post q k r d b m).turnNo = s.turnNo := rfl
@[simp] theorem State.post_freeNo (s : State) (q k r d : Nat) (b : List Byte) (m : Bool) : (s.post q k r d b m).freeNo = s.freeNo := rfl
@[simp] theorem State.post_fcore (s : State) (q k r d : Nat) (b : List Byte) (m : Bool) : (s.post q k r d b m).fcore = s.fcore := rfl
@[simp] theorem State.post_fcell (s : State) (q k r d : Nat) (b : List Byte) (m : Bool) : (s.post q k r d b m).fcell = s.fcell := rfl
@[simp] theorem State.post_word (s : State) (q k r d : Nat) (b : List Byte) (m : Bool) : (s.post q k r d b m).word = s.word := rfl
@[simp] theorem State.post_place (s : State) (q k r d : Nat) (b : List Byte) (m : Bool) : (s.post q k r d b m).place = s.place := rfl
@[simp] theorem State.post_mem (s : State) (q k r d : Nat) (b : List Byte) (m : Bool) : (s.post q k r d b m).mem = s.mem := rfl
@[simp] theorem State.post_time (s : State) (q k r d : Nat) (b : List Byte) (m : Bool) : (s.post q k r d b m).time = s.time := rfl
@[simp] theorem State.post_stage (s : State) (q k r d : Nat) (b : List Byte) (m : Bool) : (s.post q k r d b m).stage = s.stage := rfl
@[simp] theorem State.post_bootFail (s : State) (q k r d : Nat) (b : List Byte) (m : Bool) : (s.post q k r d b m).bootFail = s.bootFail := rfl
@[simp] theorem State.post_fuses (s : State) (q k r d : Nat) (b : List Byte) (m : Bool) : (s.post q k r d b m).fuses = s.fuses := rfl
@[simp] theorem State.post_cores (s : State) (q k r d : Nat) (b : List Byte) (m : Bool) : (s.post q k r d b m).cores = s.cores := rfl
@[simp] theorem State.post_isles (s : State) (q k r d : Nat) (b : List Byte) (m : Bool) : (s.post q k r d b m).isles = s.isles := rfl
@[simp] theorem State.post_dies (s : State) (q k r d : Nat) (b : List Byte) (m : Bool) : (s.post q k r d b m).dies = s.dies := rfl
@[simp] theorem State.post_parts (s : State) (q k r d : Nat) (b : List Byte) (m : Bool) : (s.post q k r d b m).parts = s.parts := rfl
@[simp] theorem State.post_regions (s : State) (q k r d : Nat) (b : List Byte) (m : Bool) : (s.post q k r d b m).regions = s.regions := rfl
@[simp] theorem State.post_nodes (s : State) (q k r d : Nat) (b : List Byte) (m : Bool) : (s.post q k r d b m).nodes = s.nodes := rfl
@[simp] theorem State.post_nodeNext (s : State) (q k r d : Nat) (b : List Byte) (m : Bool) : (s.post q k r d b m).nodeNext = s.nodeNext := rfl
@[simp] theorem State.post_doomed (s : State) (q k r d : Nat) (b : List Byte) (m : Bool) : (s.post q k r d b m).doomed = s.doomed := rfl
@[simp] theorem State.post_early (s : State) (q k r d : Nat) (b : List Byte) (m : Bool) : (s.post q k r d b m).early = s.early := rfl
@[simp] theorem State.post_saved (s : State) (q k r d : Nat) (b : List Byte) (m : Bool) : (s.post q k r d b m).saved = s.saved := rfl
@[simp] theorem State.post_hostOut (s : State) (q k r d : Nat) (b : List Byte) (m : Bool) : (s.post q k r d b m).hostOut = s.hostOut := rfl
@[simp] theorem State.post_tiles (s : State) (q k r d : Nat) (b : List Byte) (m : Bool) : (s.post q k r d b m).tiles = s.tiles := rfl
@[simp] theorem State.post_mcage (s : State) (q k r d : Nat) (b : List Byte) (m : Bool) : (s.post q k r d b m).mcage = s.mcage := rfl
@[simp] theorem State.post_wdog1 (s : State) (q k r d : Nat) (b : List Byte) (m : Bool) : (s.post q k r d b m).wdog1 = s.wdog1 := rfl
@[simp] theorem State.post_wdog2 (s : State) (q k r d : Nat) (b : List Byte) (m : Bool) : (s.post q k r d b m).wdog2 = s.wdog2 := rfl
@[simp] theorem State.post_mgrQueue (s : State) (q k r d : Nat) (b : List Byte) (m : Bool) : (s.post q k r d b m).mgrQueue = s.mgrQueue := rfl
@[simp] theorem State.post_reqs (s : State) (q k r d : Nat) (b : List Byte) (m : Bool) : (s.post q k r d b m).reqs = s.reqs := rfl
@[simp] theorem State.post_straits (s : State) (q k r d : Nat) (b : List Byte) (m : Bool) : (s.post q k r d b m).straits = s.straits := rfl
@[simp] theorem State.post_ctl (s : State) (q k r d : Nat) (b : List Byte) (m : Bool) : (s.post q k r d b m).ctl = s.ctl := rfl
@[simp] theorem State.post_ueDown (s : State) (q k r d : Nat) (b : List Byte) (m : Bool) : (s.post q k r d b m).ueDown = s.ueDown := rfl
@[simp] theorem State.post_keys (s : State) (q k r d : Nat) (b : List Byte) (m : Bool) : (s.post q k r d b m).keys = s.keys := rfl
@[simp] theorem State.post_loads (s : State) (q k r d : Nat) (b : List Byte) (m : Bool) : (s.post q k r d b m).loads = s.loads := rfl
@[simp] theorem State.post_nonce (s : State) (q k r d : Nat) (b : List Byte) (m : Bool) : (s.post q k r d b m).nonce = s.nonce := rfl
@[simp] theorem State.post_sessions (s : State) (q k r d : Nat) (b : List Byte) (m : Bool) : (s.post q k r d b m).sessions = s.sessions := rfl
@[simp] theorem State.post_power (s : State) (q k r d : Nat) (b : List Byte) (m : Bool) : (s.post q k r d b m).power = s.power := rfl

@[simp] theorem State.modNode_agenda (s : State) (n : Nat) (g : Node → Node) : (s.modNode n g).agenda = s.agenda := by unfold State.modNode; split <;> rfl
@[simp] theorem State.modNode_turnNo (s : State) (n : Nat) (g : Node → Node) : (s.modNode n g).turnNo = s.turnNo := by unfold State.modNode; split <;> rfl
@[simp] theorem State.modNode_freeNo (s : State) (n : Nat) (g : Node → Node) : (s.modNode n g).freeNo = s.freeNo := by unfold State.modNode; split <;> rfl
@[simp] theorem State.modNode_fcore (s : State) (n : Nat) (g : Node → Node) : (s.modNode n g).fcore = s.fcore := by unfold State.modNode; split <;> rfl
@[simp] theorem State.modNode_fcell (s : State) (n : Nat) (g : Node → Node) : (s.modNode n g).fcell = s.fcell := by unfold State.modNode; split <;> rfl
@[simp] theorem State.modNode_word (s : State) (n : Nat) (g : Node → Node) : (s.modNode n g).word = s.word := by unfold State.modNode; split <;> rfl
@[simp] theorem State.modNode_place (s : State) (n : Nat) (g : Node → Node) : (s.modNode n g).place = s.place := by unfold State.modNode; split <;> rfl
@[simp] theorem State.modNode_mem (s : State) (n : Nat) (g : Node → Node) : (s.modNode n g).mem = s.mem := by unfold State.modNode; split <;> rfl
@[simp] theorem State.modNode_time (s : State) (n : Nat) (g : Node → Node) : (s.modNode n g).time = s.time := by unfold State.modNode; split <;> rfl
@[simp] theorem State.modNode_stage (s : State) (n : Nat) (g : Node → Node) : (s.modNode n g).stage = s.stage := by unfold State.modNode; split <;> rfl
@[simp] theorem State.modNode_bootFail (s : State) (n : Nat) (g : Node → Node) : (s.modNode n g).bootFail = s.bootFail := by unfold State.modNode; split <;> rfl
@[simp] theorem State.modNode_fuses (s : State) (n : Nat) (g : Node → Node) : (s.modNode n g).fuses = s.fuses := by unfold State.modNode; split <;> rfl
@[simp] theorem State.modNode_cores (s : State) (n : Nat) (g : Node → Node) : (s.modNode n g).cores = s.cores := by unfold State.modNode; split <;> rfl
@[simp] theorem State.modNode_isles (s : State) (n : Nat) (g : Node → Node) : (s.modNode n g).isles = s.isles := by unfold State.modNode; split <;> rfl
@[simp] theorem State.modNode_dies (s : State) (n : Nat) (g : Node → Node) : (s.modNode n g).dies = s.dies := by unfold State.modNode; split <;> rfl
@[simp] theorem State.modNode_parts (s : State) (n : Nat) (g : Node → Node) : (s.modNode n g).parts = s.parts := by unfold State.modNode; split <;> rfl
@[simp] theorem State.modNode_regions (s : State) (n : Nat) (g : Node → Node) : (s.modNode n g).regions = s.regions := by unfold State.modNode; split <;> rfl
@[simp] theorem State.modNode_nodeNext (s : State) (n : Nat) (g : Node → Node) : (s.modNode n g).nodeNext = s.nodeNext := by unfold State.modNode; split <;> rfl
@[simp] theorem State.modNode_doomed (s : State) (n : Nat) (g : Node → Node) : (s.modNode n g).doomed = s.doomed := by unfold State.modNode; split <;> rfl
@[simp] theorem State.modNode_early (s : State) (n : Nat) (g : Node → Node) : (s.modNode n g).early = s.early := by unfold State.modNode; split <;> rfl
@[simp] theorem State.modNode_saved (s : State) (n : Nat) (g : Node → Node) : (s.modNode n g).saved = s.saved := by unfold State.modNode; split <;> rfl
@[simp] theorem State.modNode_hostOut (s : State) (n : Nat) (g : Node → Node) : (s.modNode n g).hostOut = s.hostOut := by unfold State.modNode; split <;> rfl
@[simp] theorem State.modNode_tiles (s : State) (n : Nat) (g : Node → Node) : (s.modNode n g).tiles = s.tiles := by unfold State.modNode; split <;> rfl
@[simp] theorem State.modNode_mcage (s : State) (n : Nat) (g : Node → Node) : (s.modNode n g).mcage = s.mcage := by unfold State.modNode; split <;> rfl
@[simp] theorem State.modNode_wdog1 (s : State) (n : Nat) (g : Node → Node) : (s.modNode n g).wdog1 = s.wdog1 := by unfold State.modNode; split <;> rfl
@[simp] theorem State.modNode_wdog2 (s : State) (n : Nat) (g : Node → Node) : (s.modNode n g).wdog2 = s.wdog2 := by unfold State.modNode; split <;> rfl
@[simp] theorem State.modNode_mgrQueue (s : State) (n : Nat) (g : Node → Node) : (s.modNode n g).mgrQueue = s.mgrQueue := by unfold State.modNode; split <;> rfl
@[simp] theorem State.modNode_posts (s : State) (n : Nat) (g : Node → Node) : (s.modNode n g).posts = s.posts := by unfold State.modNode; split <;> rfl
@[simp] theorem State.modNode_seqs (s : State) (n : Nat) (g : Node → Node) : (s.modNode n g).seqs = s.seqs := by unfold State.modNode; split <;> rfl
@[simp] theorem State.modNode_reqs (s : State) (n : Nat) (g : Node → Node) : (s.modNode n g).reqs = s.reqs := by unfold State.modNode; split <;> rfl
@[simp] theorem State.modNode_straits (s : State) (n : Nat) (g : Node → Node) : (s.modNode n g).straits = s.straits := by unfold State.modNode; split <;> rfl
@[simp] theorem State.modNode_ctl (s : State) (n : Nat) (g : Node → Node) : (s.modNode n g).ctl = s.ctl := by unfold State.modNode; split <;> rfl
@[simp] theorem State.modNode_ueDown (s : State) (n : Nat) (g : Node → Node) : (s.modNode n g).ueDown = s.ueDown := by unfold State.modNode; split <;> rfl
@[simp] theorem State.modNode_keys (s : State) (n : Nat) (g : Node → Node) : (s.modNode n g).keys = s.keys := by unfold State.modNode; split <;> rfl
@[simp] theorem State.modNode_loads (s : State) (n : Nat) (g : Node → Node) : (s.modNode n g).loads = s.loads := by unfold State.modNode; split <;> rfl
@[simp] theorem State.modNode_nonce (s : State) (n : Nat) (g : Node → Node) : (s.modNode n g).nonce = s.nonce := by unfold State.modNode; split <;> rfl
@[simp] theorem State.modNode_sessions (s : State) (n : Nat) (g : Node → Node) : (s.modNode n g).sessions = s.sessions := by unfold State.modNode; split <;> rfl
@[simp] theorem State.modNode_power (s : State) (n : Nat) (g : Node → Node) : (s.modNode n g).power = s.power := by unfold State.modNode; split <;> rfl

/-! ## Reading a core, a cell, a context or an RC after an update -/

@[simp] theorem State.core_setCore (s : State) (k j : Nat) (c : Core) : (s.setCore k c).core j = if j = k then c else s.core j := by
  simp only [State.core, State.setCore, aget_aset]
  split <;> simp

@[simp] theorem State.core_modCore (s : State) (k j : Nat) (f : Core → Core) : (s.modCore k f).core j = if j = k then f (s.core k) else s.core j :=
  State.core_setCore s k j _

@[simp] theorem State.cell_setCell (s : State) (k l i j : Nat) (c : Cell) : (s.setCell k l c).cell i j = if i = k ∧ j = l then c else s.cell i j := by
  unfold State.cell State.setCell
  by_cases hi : i = k
  · subst hi
    rw [State.core_modCore, if_pos rfl, aget_aset]
    by_cases hj : j = l
    · rw [if_pos hj, if_pos ⟨rfl, hj⟩, Option.getD_some]
    · rw [if_neg hj, if_neg (fun h => hj h.2)]
  · rw [State.core_modCore, if_neg hi, if_neg (fun h => hi h.1)]

@[simp] theorem State.cell_modCell (s : State) (k l i j : Nat) (f : Cell → Cell) : (s.modCell k l f).cell i j = if i = k ∧ j = l then f (s.cell k l) else s.cell i j :=
  State.cell_setCell s k l i j _

@[simp] theorem State.rc_modRc (s : State) (k j : Nat) (f : Rc → Rc) : (s.modRc k f).rc j = if j = k then f (s.rc k) else s.rc j := by
  unfold State.modRc State.rc
  rw [State.core_modCore]
  split
  · simp
  · rfl

@[simp] theorem State.rc_modCell (s : State) (k l j : Nat) (f : Cell → Cell) : (s.modCell k l f).rc j = s.rc j := by
  unfold State.modCell State.setCell State.rc
  rw [State.core_modCore]
  split
  · simp_all
  · rfl

@[simp] theorem State.cell_modRc (s : State) (k i j : Nat) (f : Rc → Rc) : (s.modRc k f).cell i j = s.cell i j := by
  unfold State.modRc State.cell
  rw [State.core_modCore]
  split
  · simp_all
  · rfl

theorem List.getD_modify_self {α : Type} (l : List α) (n : Nat) (f : α → α) (d : α) (h : n < l.length) : (l.modify n f).getD n d = f (l.getD n d) := by
  simp [List.getD_eq_getElem?_getD, h]

theorem List.getD_modify_other {α : Type} (l : List α) (n m : Nat) (f : α → α) (d : α) (h : m ≠ n) : (l.modify n f).getD m d = l.getD m d := by
  simp [List.getD_eq_getElem?_getD, List.getElem?_modify, h, Ne.symm h]

theorem Cell.ctx_modCtx (c : Cell) (x y : Nat) (f : Ctx → Ctx) (h : x < c.ctxs.length) : (c.modCtx x f).ctx y = if y = x then f (c.ctx x) else c.ctx y := by
  unfold Cell.modCtx Cell.ctx
  split
  · subst_vars
    exact List.getD_modify_self _ _ _ _ h
  · exact List.getD_modify_other _ _ _ _ _ ‹_›

@[simp] theorem Cell.modCtx_running (c : Cell) (x : Nat) (f : Ctx → Ctx) : (c.modCtx x f).running = c.running := rfl
@[simp] theorem Cell.modCtx_l (c : Cell) (x : Nat) (f : Ctx → Ctx) : (c.modCtx x f).l = c.l := rfl
@[simp] theorem Cell.modCtx_mains (c : Cell) (x : Nat) (f : Ctx → Ctx) : (c.modCtx x f).mains = c.mains := rfl

/-! ## Isles and dies -/

@[simp] theorem State.isle_modIsle (s : State) (i j : Nat) (f : Isle → Isle) : (s.modIsle i f).isle j = if j = i then f (s.isle i) else s.isle j := by
  unfold State.isle State.modIsle; dsimp only; rw [aget_aset]; split <;> rfl
@[simp] theorem State.die_modDie (s : State) (i j : Nat) (f : Die → Die) : (s.modDie i f).die j = if j = i then f (s.die i) else s.die j := by
  unfold State.die State.modDie; dsimp only; rw [aget_aset]; split <;> rfl
@[simp] theorem State.core_modIsle (s : State) (i j : Nat) (f : Isle → Isle) : (s.modIsle i f).core j = s.core j := rfl
@[simp] theorem State.core_modDie (s : State) (i j : Nat) (f : Die → Die) : (s.modDie i f).core j = s.core j := rfl
@[simp] theorem State.isle_modCore (s : State) (k j : Nat) (f : Core → Core) : (s.modCore k f).isle j = s.isle j := rfl
@[simp] theorem State.isle_modDie (s : State) (k j : Nat) (f : Die → Die) : (s.modDie k f).isle j = s.isle j := rfl
@[simp] theorem State.die_modCore (s : State) (k j : Nat) (f : Core → Core) : (s.modCore k f).die j = s.die j := rfl
@[simp] theorem State.die_modIsle (s : State) (k j : Nat) (f : Isle → Isle) : (s.modIsle k f).die j = s.die j := rfl

/-- The configuration records are bytes of memory: an update that leaves memory leaves them. -/
theorem State.mapEntry_of_mem {s t : State} (h : t.mem = s.mem) (k l x j : Nat) : t.mapEntry k l x j = s.mapEntry k l x j := by
  simp [State.mapEntry, State.recd, h]

end Sys2Proof.Machine
end

