-- ==== Sys2Proof/Laws/Extern.lean ====
section
/-! SUPPORT. External memory: a translation is the walk's whether or not a cache or a walk under way serves it, a fill, a seal, a write of part of one tile. -/

namespace Sys2Proof.Machine

/-! ## What a translation leaves as it was -/

/-- All but the translations that caches and walks hold and the count of free values is as it was. -/
structure Translated (s t : State) : Prop where
  rest : t = { s with cores := t.cores, isles := t.isles, dies := t.dies, freeNo := t.freeNo }
  core : ∀ j, t.core j = { s.core j with tcache := (t.core j).tcache }
  isle : ∀ j, t.isle j = { s.isle j with tcache := (t.isle j).tcache }
  die  : ∀ j, t.die j = { s.die j with walks := (t.die j).walks }

theorem Translated.refl (s : State) : Translated s s := ⟨rfl, fun _ => rfl, fun _ => rfl, fun _ => rfl⟩
theorem Translated.trans {s t u : State} (h : Translated s t) (g : Translated t u) : Translated s u where
  rest := by rw [g.rest, h.rest]
  core j := by rw [g.core j, h.core j]
  isle j := by rw [g.isle j, h.isle j]
  die j := by rw [g.die j, h.die j]
theorem Translated.mem {s t : State} (e : Translated s t) : t.mem = s.mem := by rw [e.rest]
theorem Translated.part {s t : State} (e : Translated s t) (p : Nat) : t.part p = s.part p := by rw [e.rest]; rfl
theorem Translated.cell {s t : State} (e : Translated s t) (k l : Nat) : t.cell k l = s.cell k l := by unfold State.cell; rw [e.core k]
theorem Translated.rc {s t : State} (e : Translated s t) (k : Nat) : t.rc k = s.rc k := by unfold State.rc; rw [e.core k]
theorem Translated.tileMeta {s t : State} (e : Translated s t) (a : Nat) : t.tileMeta a = s.tileMeta a := by rw [e.rest]; rfl
theorem Translated.plainAt {s t : State} (e : Translated s t) (d pt tile : Nat) : t.plainAt d pt tile = s.plainAt d pt tile := by unfold State.plainAt; rw [e.die d]
theorem Translated.walk {s t : State} (e : Translated s t) (pt va : Nat) (w : Bool) : t.walk pt va w = s.walk pt va w := by rw [e.rest]; rfl

theorem Translated.drawn (s : State) : Translated s s.free.2 := ⟨rfl, fun _ => rfl, fun _ => rfl, fun _ => rfl⟩
theorem Translated.noted (s : State) (k : Nat) (w : Walk) : Translated s (s.noteWalk k w) where
  rest := rfl
  core _ := rfl
  isle _ := rfl
  die j := by unfold State.noteWalk; rw [State.die_modDie]; split <;> [(next h => rw [h]); rfl]

theorem Translated.cached (s : State) (k va : Nat) (v : Nat × Nat) : Translated s (s.cacheXlat k va v) := by
  unfold State.cacheXlat
  dsimp only
  generalize evict (aset _ _ _) _ _ = f
  refine Translated.trans (t := if (s.core k).tcache.length < coreXlats ∧ (s.isle (isleOf k)).tcache.length < isleXlats then s else s.free.2.free.2) ?_ ?_
  · split
    · exact Translated.refl s
    · exact (Translated.drawn s).trans (Translated.drawn _)
  · refine ⟨rfl, fun j => ?_, fun j => ?_, fun _ => rfl⟩
    · rw [State.core_modIsle, State.core_modCore]; split <;> [(next h => rw [h]); rfl]
    · rw [State.isle_modIsle, State.isle_modCore, State.isle_modCore]; split <;> [(next h => rw [h]); rfl]

theorem walked_spec (s : State) (k pt va : Nat) (write : Bool) : Translated s (s.walked k pt va write).1 := by
  unfold State.walked
  split
  · exact Translated.noted ..
  · exact (Translated.noted ..).trans (Translated.cached ..)

theorem translate_spec (s : State) (k pt va : Nat) (write : Bool) : Translated s (s.translate k pt va write).1 := by
  unfold State.translate
  split
  · exact walked_spec ..
  · dsimp only
    split
    · exact (Translated.drawn s).trans (walked_spec ..)
    · exact (Translated.drawn s).trans (Translated.cached ..)
    · exact Translated.drawn s

/-! ## What caches and walks hold -/

/-- Each translation that a core or an isle caches, and the result of each walk of a partition that a die has under way, is as `P` says of its page, its
cause (0: none) and its value. -/
structure State.Xlats (s : State) (pt : Nat) (P : Nat → Nat → Nat × Nat → Prop) : Prop where
  core : ∀ k, ∀ e ∈ (s.core k).tcache, P e.1 0 e.2
  isle : ∀ i, ∀ e ∈ (s.isle i).tcache, P e.1 0 e.2
  die  : ∀ d, ∀ w ∈ (s.die d).walks, w.part = pt → P w.page w.cause w.val

variable {s : State} {k pt va pa : Nat} {write : Bool} {P : Nat → Nat → Nat × Nat → Prop}

theorem mem_evict {m : Assoc (Nat × Nat)} {c x : Nat} {e : Nat × (Nat × Nat)} (h : e ∈ evict m c x) : e ∈ m := by
  unfold evict at h
  split at h
  · exact h
  · exact List.mem_of_mem_eraseIdx h

theorem State.Xlats.noted (h : s.Xlats pt P) {w : Walk} (hw : w.part = pt → P w.page w.cause w.val) : (s.noteWalk k w).Xlats pt P where
  core := h.core
  isle := h.isle
  die d x hx := by
    unfold State.noteWalk at hx
    rw [State.die_modDie] at hx
    split at hx
    · rcases List.mem_cons.mp (List.mem_of_mem_take hx) with rfl | hx
      · exact hw
      · exact h.die _ x (List.mem_filter.mp hx).1
    · exact h.die _ x hx

theorem State.Xlats.cached (h : s.Xlats pt P) {v : Nat × Nat} (hv : P (va / 4096) 0 v) : (s.cacheXlat k va v).Xlats pt P := by
  have put : ∀ {m : Assoc (Nat × Nat)} {c x : Nat}, (∀ e ∈ m, P e.1 0 e.2) → ∀ e ∈ evict (aset m (va / 4096) v) c x, P e.1 0 e.2 := by
    intro m c x hm e he
    rcases mem_aset (mem_evict he) with rfl | he
    · exact hv
    · exact hm e he
  have c : ∀ t : State, t.Xlats pt P → ∀ x y, ((t.modCore k (fun c => { c with tcache := evict (aset c.tcache (va / 4096) v) coreXlats x })).modIsle (isleOf k)
      (fun i => { i with tcache := evict (aset i.tcache (va / 4096) v) isleXlats y })).Xlats pt P := by
    intro t ht x y
    refine ⟨fun j => ?_, fun j => ?_, ht.die⟩
    · rw [State.core_modIsle, State.core_modCore]
      split
      · exact put (ht.core k)
      · exact ht.core j
    · rw [State.isle_modIsle, State.isle_modCore, State.isle_modCore]
      split
      · exact put (ht.isle _)
      · exact ht.isle j
  unfold State.cacheXlat
  dsimp only
  split
  · exact c _ h _ _
  · exact c s.free.2.free.2 ⟨h.core, h.isle, h.die⟩ _ _

theorem State.Xlats.hit (h : s.Xlats pt P) {x : Nat × Nat × Nat} (hx : x ∈ s.hits k pt va write) : P (va / 4096) x.1 x.2 := by
  have one : ∀ {m : Assoc (Nat × Nat)}, (∀ e ∈ m, P e.1 0 e.2) →
      x ∈ (match aget m (va / 4096) with | some v => if write && v.1 % 2 == 0 then [] else [(0, v)] | none => []) → P (va / 4096) x.1 x.2 := by
    intro m hm hx
    split at hx
    · next v hv =>
      split at hx
      · cases hx
      · cases List.mem_singleton.mp hx
        exact hm _ (mem_of_aget hv)
    · cases hx
  unfold State.hits at hx
  dsimp only at hx
  rcases List.mem_append.mp hx with hx | hx
  · rcases List.mem_append.mp hx with hx | hx
    · exact one (h.core k) hx
    · exact one (h.isle _) hx
  · obtain ⟨w, hw, rfl⟩ := List.mem_map.mp hx
    obtain ⟨hw, hc⟩ := List.mem_filter.mp hw
    simp only [Bool.and_eq_true, beq_iff_eq] at hc
    have := h.die _ w hw hc.1.1.2
    rw [hc.1.2] at this
    exact this

/-- A translation keeps what caches and walks hold as `P` says, where the walk's own result is. -/
theorem State.Xlats.translate (h : s.Xlats pt P) (hw : match s.walk pt va write with | .error c => P (va / 4096) c (0, 0) | .ok (pa, w) => ∀ n, P (va / 4096) 0 (pa / 4096 * 2 + Bool.nat w, n)) :
    (s.translate k pt va write).1.Xlats pt P := by
  have walked : ∀ t : State, t.Xlats pt P → t.walk pt va write = s.walk pt va write → (t.walked k pt va write).1.Xlats pt P := by
    intro t ht hs
    rw [← hs] at hw
    unfold State.walked
    split
    · next c hc => rw [hc] at hw; exact ht.noted fun _ => hw
    · next pa w hc => rw [hc] at hw; exact (ht.noted fun _ => hw _).cached (hw _)
  have hf : s.free.2.Xlats pt P := ⟨h.core, h.isle, h.die⟩
  unfold State.translate
  split
  · exact walked s h rfl
  · next x r hx =>
    dsimp only
    split
    · exact walked _ hf rfl
    · next v hv => exact hf.cached (h.hit (x := (0, v)) (by rw [hx]; exact List.mem_of_getElem? hv))
    · exact hf

/-- A translation answers what the walk gives, where every hit says the same. -/
theorem translate_ok {w : Bool} (hw : s.walk pt va write = .ok (pa, w)) (h : s.Xlats pt P) (hp : ∀ c v, P (va / 4096) c v → c = 0 ∧ v.1 / 2 * 4096 + va % 4096 = pa) :
    (s.translate k pt va write).2 = .ok pa := by
  have walked : ∀ t : State, t.walk pt va write = s.walk pt va write → (t.walked k pt va write).2 = .ok pa := by
    intro t hs
    unfold State.walked
    rw [hs, hw]
  unfold State.translate
  split
  · exact walked s rfl
  · next x r hx =>
    have hit : ∀ y, (x :: r)[s.free.1 % (r.length + 2)]? = some y → y.1 = 0 ∧ y.2.1 / 2 * 4096 + va % 4096 = pa :=
      fun y hy => hp _ _ (h.hit (by rw [hx]; exact List.mem_of_getElem? hy))
    dsimp only
    split
    · exact walked _ rfl
    · next v hv => rw [(hit _ hv).2]
    · next c v hc hv => exact absurd (hit _ hv).1 hc

/-! ## A page that is mapped -/

/-- The page of a VA may be written and maps it to pa, and each translation of it that is cached or under way says the same. -/
structure State.MapsTo (s : State) (k pt va pa : Nat) : Prop where
  walk   : ∀ write, s.walk pt va write = .ok (pa, true)
  xlats  : s.Xlats pt (fun page c v => page = va / 4096 → c = 0 ∧ v.1 / 2 * 4096 + va % 4096 = pa)
  offset : pa % 4096 = va % 4096

theorem translate_maps (write : Bool) (h : s.MapsTo k pt va pa) : ∃ t, s.translate k pt va write = (t, .ok pa) ∧ Translated s t ∧ t.MapsTo k pt va pa := by
  have e := translate_spec s k pt va write
  refine ⟨_, Prod.ext rfl (translate_ok (h.walk write) h.xlats fun c v hp => hp rfl), e, fun w => by rw [e.walk]; exact h.walk w, h.xlats.translate ?_, h.offset⟩
  rw [h.walk write]
  intro n _
  refine ⟨rfl, ?_⟩
  have : (pa / 4096 * 2 + Bool.nat true) / 2 = pa / 4096 := by show (pa / 4096 * 2 + 1) / 2 = _; omega
  rw [this, ← h.offset]
  exact Nat.div_add_mod' pa 4096

/-! ## Fills, seals and writes -/

/-- A tile in state zero-fill that the die holds no plaintext of reads as zeros (R354). -/
theorem fill_zero {tile : Nat} (h : s.MapsTo k pt (tile * 2048) pa) (hz : (s.tileMeta pa).st = 0) (hc : s.plainAt (dieOf k) pt tile = none) :
    ∃ t, s.fill k pt tile = (t, .ok []) ∧ Translated s t ∧ t.MapsTo k pt (tile * 2048) pa := by
  obtain ⟨t, ht, e, m⟩ := translate_maps false h
  refine ⟨t, ?_, e, m⟩
  unfold State.fill
  rw [ht]
  dsimp only
  rw [e.plainAt, hc, e.tileMeta, hz]
  rfl

/-- A seal is done where the tile translates, its tenant has a current slot, and its version has not run out (R353, R357). -/
theorem seal_ok {tile : Nat} (src : Memory) (off : Nat) (bytes mask : List Byte) {q : Nat × KeySlot} (ht : (s.translate k pt (tile * 2048) true).2 = .ok pa)
    (hq : s.currentSlot (s.part pt).tenant = some q) (hv : (if (s.tileMeta pa).gen = q.2.gen then (s.tileMeta pa).version + 1 else 0) ≠ 2 ^ 48) :
    (s.seal k pt tile src off bytes mask).2 = .ok () := by
  have e := translate_spec s k pt (tile * 2048) true
  unfold State.seal
  rcases h : s.translate k pt (tile * 2048) true with ⟨t, r⟩
  rw [h] at ht e
  dsimp only at ht e
  subst ht
  have e1 : t.currentSlot (t.part pt).tenant = some q := by rw [e.rest]; exact hq
  obtain ⟨n, q⟩ := q
  dsimp only
  rw [e1]
  dsimp only
  rw [e.tileMeta, if_neg hv]

/-- A write of part of one tile is done where its fill and its seal are (R356). -/
theorem writeVA_ok {t : State} {bytes : List Byte} {g : Nat × Nat × Nat} {src : Memory} (hg : tileSegs va bytes.length = [g]) (hn : g.2.2 ≠ 2048)
    (hf : s.fill k pt g.1 = (t, .ok src)) (hs : (t.seal k pt g.1 src g.2.1 (bytes.take g.2.2) (List.replicate (bytes.take g.2.2).length 255)).2 = .ok ()) :
    ∃ u, s.writeVA k pt va bytes = (u, .ok ()) := by
  unfold State.writeVA
  rw [hg]
  simp only [List.foldl_cons, List.foldl_nil, if_neg hn, hf]
  rcases h : t.seal k pt g.1 src g.2.1 (bytes.take g.2.2) (List.replicate (bytes.take g.2.2).length 255) with ⟨u, r⟩
  rw [h] at hs
  dsimp only at hs
  subst hs
  exact ⟨u, rfl⟩

end Sys2Proof.Machine
end

