-- ==== Sys2Proof/Laws/Cells.lean ====
section
/-! SUPPORT. What the shared operations of the cells do: the lane frame (R15), the write of a result (R14), an instruction that produces one. -/

namespace Sys2Proof.Machine

/-! ## Lanes -/

theorem maskOf_bit (f : Nat → Bool) (i : Nat) (h : i < 16) : (maskOf f).getLsbD i = f i := by
  have key : ∀ n, (List.range n).foldl (fun a i => a + Bool.nat (f i) * 2 ^ i) 0 < 2 ^ n ∧
      ∀ j, j < n → ((List.range n).foldl (fun a i => a + Bool.nat (f i) * 2 ^ i) 0).testBit j = f j := by
    intro n
    induction n with
    | zero => simp
    | succ n ih =>
      rw [List.range_succ, List.foldl_append]
      simp only [List.foldl_cons, List.foldl_nil]
      obtain ⟨hlt, hb⟩ := ih
      generalize (List.range n).foldl (fun a i => a + Bool.nat (f i) * 2 ^ i) 0 = v at hlt hb
      constructor
      · cases f n <;> simp [Bool.nat, Nat.pow_succ] <;> omega
      · intro j hj
        have e : v + Bool.nat (f n) * 2 ^ n = 2 ^ n * Bool.nat (f n) + v := by rw [Nat.add_comm, Nat.mul_comm]
        rw [e, Nat.testBit_two_pow_mul_add _ hlt]
        split
        · exact hb j ‹_›
        · have : j = n := by omega
          subst this
          cases f j <;> simp [Bool.nat]
  have := (key 16).2 i h
  rw [maskOf, BitVec.getLsbD_ofNat, this]
  simp [h]

theorem okAt_mkReg (fmt : Fmt) (xs : Nat) (p : Bool) (o : Nat) (lane : Nat → Option Nat) (i : Nat) (h : i < 16) :
    okAt (mkReg fmt xs p o lane) i = (lane i).isSome := maskOf_bit _ i h

theorem laneOf_mkReg (fmt : Fmt) (xs : Nat) (p : Bool) (o : Nat) (lane : Nat → Option Nat) (i : Nat) (h : i < 16) :
    laneOf (mkReg fmt xs p o lane) i = ((lane i).getD 0) % 2 ^ 32 := by
  simp [laneOf, mkReg, h]

/-- What mkReg makes. -/
theorem mkReg_lanes (fmt : Fmt) (xs : Nat) (p : Bool) (o : Nat) (lane : Nat → Option Nat) : LanesAre (mkReg fmt xs p o lane) fmt xs p o lane :=
  ⟨rfl, rfl, rfl, rfl, fun i h => okAt_mkReg _ _ _ _ _ i h, fun i h => laneOf_mkReg _ _ _ _ _ i h⟩

theorem getD_range_map {α : Type} (f : Nat → α) (i : Nat) (d : α) (h : i < 16) : ((List.range 16).map f).getD i d = f i := by
  simp [h]

/-- The lane frame meets R15. -/
theorem laneFrame_result (agent : Nat) (ops : List Reg) (fmt : Fmt) (xs : Nat) (op : Nat → Nat × Bool) :
    LaneResult agent ops fmt xs op (laneFrame agent ops fmt xs op) := by
  have hp : (laneFrame agent ops fmt xs op).p = (ops.any (fun o => o.p) || (List.range 16).any (fun i => ops.all (fun o => okAt o i) && (op i).2)) := by
    show poisonOf ops _ = _
    unfold poisonOf
    congr 1
    rw [List.any_map]
    congr 1
    funext i
    simp only [Function.comp]
    cases ops.all (fun o => okAt o i) <;> simp
  refine ⟨rfl, rfl, ?_, ?_, hp, ?_⟩
  · intro i h
    rw [laneFrame, okAt_mkReg _ _ _ _ _ i h, getD_range_map _ _ _ h]
    cases ops.all (fun o => okAt o i) <;> simp
  · intro i h
    rw [laneFrame, laneOf_mkReg _ _ _ _ _ i h, getD_range_map _ _ _ h]
    cases ops.all (fun o => okAt o i) <;> simp
  · have ho : (laneFrame agent ops fmt xs op).origin = if (laneFrame agent ops fmt xs op).p then
        resultOrigin agent ops (((List.range 16).map (fun i => if ops.all (fun r => okAt r i) then some (op i) else none)).any
          (fun r => match r with | some q => q.2 | none => false)) else 0 := rfl
    rw [ho]
    generalize hE : ((List.range 16).map (fun i => if ops.all (fun r => okAt r i) then some (op i) else none)).any
          (fun r => match r with | some q => q.2 | none => false) = x
    have hq : (laneFrame agent ops fmt xs op).p = (ops.any (fun o => o.p) || x) := by subst hE; rfl
    rw [hq]
    unfold resultOrigin originOf
    cases ops.any (fun o => o.p) <;> cases x <;> simp

/-! ## Writing a result -/

theorem State.Runs.withTask {s : State} {e : Env} (h : s.Runs e) (f : Env → State) : s.withTask f = f e := by
  unfold State.withTask
  rw [h.core, h.cell, h.task]
  show f ⟨e.core, e.cell, e.task, _⟩ = f e
  rw [← h.draw]

theorem OnlyCell.refl (s : State) (k l : Nat) : OnlyCell s s k l := ⟨rfl, fun _ _ => rfl, rfl, fun _ _ => rfl⟩

theorem OnlyCell.trans {s t u : State} {k l : Nat} (h : OnlyCell s t k l) (g : OnlyCell t u k l) : OnlyCell s u k l where
  rest := by rw [g.rest, h.rest]
  cores j hj := (g.cores j hj).trans (h.cores j hj)
  core := by rw [g.core, h.core]
  cells j hj := (g.cells j hj).trans (h.cells j hj)

theorem State.only_modCell (s : State) (k l : Nat) (f : Cell → Cell) : OnlyCell s (s.modCell k l f) k l where
  rest := rfl
  cores j hj := by simp [State.modCell, State.setCell, hj]
  core := by simp [State.modCell, State.setCell]
  cells j hj := by simp [hj]

theorem State.only_modCtx (s : State) (k l x : Nat) (f : Ctx → Ctx) : OnlyCell s (s.modCtx k l x f) k l := s.only_modCell k l _

theorem State.only_drawn (s : State) (e : Env) (b : Bool) : OnlyCell s (s.drawn e b) e.core e.cell := by
  unfold State.drawn; split
  · exact s.only_modCtx _ _ _ _
  · exact .refl _ _ _

theorem State.only_writeReg (s : State) (e : Env) (d : Nat) (r : Reg) : OnlyCell s (s.writeReg e d r) e.core e.cell := by
  unfold State.writeReg; split
  · exact s.only_modCtx _ _ _ _
  · split
    · exact s.only_modCell _ _ _
    · exact .refl _ _ _

theorem State.only_pushL (s : State) (k l : Nat) (r : Reg) : OnlyCell s (s.pushL k l r) k l := s.only_modCell k l _

theorem State.only_advance (s : State) (k l n : Nat) : OnlyCell s (s.advance k l n) k l := s.only_modCell k l _

theorem State.only_writeResult (s : State) (e : Env) (len d : Nat) (draw : Bool) (r : Reg) :
    OnlyCell s (s.writeResult e len d draw r) e.core e.cell :=
  (((s.only_drawn e draw).trans (State.only_writeReg _ e d r)).trans (State.only_pushL _ e.core e.cell r)).trans (State.only_advance _ e.core e.cell len)

theorem modify_same {α : Type} (l : List α) (n : Nat) (f : α → α) (h : ∀ a, f a = a) : l.modify n f = l := by
  have : f = id := funext h
  subst this
  apply List.ext_getElem? ; intro i
  simp

theorem modify_modify {α : Type} (l : List α) (n : Nat) (f g : α → α) : (l.modify n f).modify n g = l.modify n (fun a => g (f a)) := by
  apply List.ext_getElem? ; intro i
  simp only [List.getElem?_modify]
  split <;> simp [Function.comp_def]

theorem State.cell_drawn (s : State) (e : Env) (b : Bool) : (s.drawn e b).cell e.core e.cell =
    { s.cell e.core e.cell with ctxs := (s.cell e.core e.cell).ctxs.modify e.task.ctx (fun c => c.after b) } := by
  unfold State.drawn
  cases b
  · rw [modify_same _ _ _ (fun c => by simp [Ctx.after])]
    simp
  · simp [State.modCtx, Cell.modCtx, Ctx.after]

/-- What the write of a result does. -/
theorem State.writeResult_wrote (s : State) (e : Env) (h : s.Runs e) (len d : Nat) (draw : Bool) (r : Reg) :
    Wrote s (s.writeResult e len d draw r) e len d draw r := by
  refine ⟨s.only_writeResult e len d draw r, ?_⟩
  have hm : ∀ j, (s.drawn e draw).mapEntry e.core e.cell e.task.ctx j = s.mapEntry e.core e.cell e.task.ctx j := fun j =>
    State.mapEntry_of_mem (by rw [(s.only_drawn e draw).rest]) _ _ _ _
  unfold State.writeResult State.advance State.pushL State.writeReg
  by_cases h1 : 8 ≤ d ∧ d < 16
  · have h2 : ¬ (16 ≤ d ∧ d < 32) := by omega
    simp [h1, h2, State.cell_drawn, State.modCtx, Cell.modCtx, h.task, modify_modify]
    rfl
  · by_cases h2 : 16 ≤ d ∧ d < 32
    · simp [h1, h2, State.cell_drawn, h.task, hm]
      rfl
    · simp [h1, h2, State.cell_drawn, h.task]
      rfl

/-- A value-producing instruction completes. -/
theorem State.compute_next {s : State} {e : Env} (h : s.Runs e) {len d rm : Nat} {cs : List Nat} {f : Env → List Reg → Except Nat Reg} {r : Reg}
    (hs : ∀ q ∈ s.sources e cs, q.fmt ≠ .none) (hf : f e (s.sources e cs) = .ok r) :
    ∃ t, s.compute len d rm cs f = .next t ∧ Wrote s t e len d (isDrawing rm cs) r := by
  refine ⟨s.writeResult e len d (isDrawing rm cs) r, ?_, s.writeResult_wrote e h _ _ _ _⟩
  have hr : s.readAll e cs = .ok (s.sources e cs) := by
    unfold State.readAll
    simp only []
    rw [if_neg]
    simp only [List.any_eq_true, beq_iff_eq, not_exists, not_and]
    exact hs
  unfold State.compute State.produce
  rw [h.withTask, hr]
  simp [Except.bind, hf]

/-- A row of a lane-wise instruction completes when its meaning computes the lane frame of the row's lane function. -/
theorem LaneRow.complete {w : LaneRow} {s : State} {e : Env} (h : s.Runs e) {f : Env → List Reg → Except Nat Reg} {op : Nat → Nat × Bool}
    (hx : exec w.instr s = s.compute w.len w.d w.rm w.srcs f) (hs : ∀ q ∈ s.sources e w.srcs, q.fmt ≠ .none)
    (hf : f e (s.sources e w.srcs) = .ok (laneFrame e.agent (s.sources e w.srcs) w.fmt w.xs op)) (ho : op = fun i => w.lane (e.rnd i) i) : w.Completes s e := by
  obtain ⟨t, ht, hw⟩ := State.compute_next (len := w.len) (d := w.d) (rm := w.rm) h hs hf
  exact ⟨t, _, hx.trans ht, hw, ho ▸ laneFrame_result _ _ _ _ _⟩

/-- A row given lane by lane completes when its meaning makes such a register. -/
theorem RegRow.complete {w : RegRow} {s : State} {e : Env} (h : s.Runs e) {f : Env → List Reg → Except Nat Reg} {r : Reg}
    (hx : exec w.instr s = s.compute w.len w.d w.rm w.srcs f) (hs : ∀ q ∈ s.sources e w.srcs, q.fmt ≠ .none)
    (hf : f e (s.sources e w.srcs) = .ok r) (hr : LanesAre r w.fmt w.xs w.p w.origin w.lane) : w.Completes s e := by
  obtain ⟨t, ht, hw⟩ := State.compute_next (len := w.len) (d := w.d) (rm := w.rm) h hs hf
  exact ⟨t, _, hx.trans ht, hw, hr⟩

theorem ne_none_of_FI {f : Fmt} (h : isFI f = true) : f ≠ .none := by rintro rfl; exact absurd h (by decide)
theorem ne_none_of_F {f : Fmt} (h : isF f = true) : f ≠ .none := by rintro rfl; exact absurd h (by decide)
theorem ne_none_of_I {f : Fmt} (h : isI f = true) : f ≠ .none := by rintro rfl; exact absurd h (by decide)
theorem ne_none_of_MX {f : Fmt} (h : isMX f = true) : f ≠ .none := by rintro rfl; exact absurd h (by decide)
theorem ne_none_of_FMX {f : Fmt} (h : isFMX f = true) : f ≠ .none := by rintro rfl; exact absurd h (by decide)
theorem ne_none_of_FIMX {f : Fmt} (h : isFIMX f = true) : f ≠ .none := by rintro rfl; exact absurd h (by decide)
theorem isFI_of_F {f : Fmt} (h : isF f = true) : isFI f = true := by simp [isFI, h]
theorem isFI_of_I {f : Fmt} (h : isI f = true) : isFI f = true := by simp [isFI, h]

/-- The marks of two operands (R15). -/
theorem mkReg_marks2 (f : Fmt) (xs : Nat) (u v : Reg) (k : Nat → Option Nat) :
    LanesAre (mkReg f xs (poisonOf [u, v] false) (originOf [u, v]) k) f xs (u.p || v.p) (if u.p then u.origin else v.origin) k := by
  have := mkReg_lanes f xs (poisonOf [u, v] false) (originOf [u, v]) k
  refine ⟨this.fmt, this.xs, by rw [this.poison]; simp [poisonOf], ?_, this.valid, this.lane⟩
  rw [this.origin]
  cases hu : u.p <;> cases hv : v.p <;> simp [poisonOf, originOf, hu, hv]

theorem LanesAre.congr {r : Reg} {f : Fmt} {xs : Nat} {p q : Bool} {o o' : Nat} {k l : Nat → Option Nat} (h : LanesAre r f xs p o k) (hp : p = q)
    (ho : (if p then o else 0) = if q then o' else 0) (hk : ∀ i, i < 16 → k i = l i) : LanesAre r f xs q o' l :=
  ⟨h.fmt, h.xs, h.poison.trans hp, h.origin.trans ho, fun i hi => by rw [h.valid i hi, hk i hi], fun i hi => by rw [h.lane i hi, hk i hi]⟩

/-- The marks of one operand and an exceptional combination (R15). -/
theorem mkReg_marks1 (f : Fmt) (xs agent : Nat) (u : Reg) (x : Bool) (k : Nat → Option Nat) :
    LanesAre (mkReg f xs (poisonOf [u] x) (resultOrigin agent [u] x) k) f xs (u.p || x) (if u.p then u.origin else agent) k := by
  have := mkReg_lanes f xs (poisonOf [u] x) (resultOrigin agent [u] x) k
  refine ⟨this.fmt, this.xs, by rw [this.poison]; simp [poisonOf], ?_, this.valid, this.lane⟩
  rw [this.origin]
  cases hu : u.p <;> cases x <;> simp [poisonOf, resultOrigin, originOf, hu]

end Sys2Proof.Machine
end

