-- ==== Sys2Proof/Laws/Records.lean ====
section
/-! SUPPORT. Record operands: what the record check answers on changes and null records, the times of operands, and adv_F. -/

namespace Sys2Proof.Machine

theorem filter_lt (v n : Nat) (h : v ≤ n) : ((List.range n).filter (fun i => decide (i < v))).length = v := by
  have : ∀ m, ((List.range m).filter (fun i => decide (i < v))).length = min m v := by
    intro m
    induction m with
    | zero => simp
    | succ m ih => rw [List.range_succ, List.filter_append, List.length_append, ih]; by_cases hm : m < v <;> simp [hm] <;> omega
  rw [this]; omega

theorem filter_len (r : Reg) (off n v : Nat) (_ : off + n ≤ 16) (hv : v ≤ n) (h : ∀ i, i < n → okAt r (off + i) = decide (i < v)) :
    ((List.range n).filter (fun i => okAt r (off + i))).length = v := by
  rw [List.filter_congr (q := fun i => decide (i < v)) (fun i hi => h i (by simpa using hi))]
  exact filter_lt v n hv

/-- A change passes the record check (R118). -/
theorem recCheck_change {w : Option Nat} {r : Reg} (h : IsChange w r) : recCheck w r = .ok true := by
  obtain ⟨hf, v, hv, hok, hw⟩ := h
  have h5 : ((List.range 5).filter (okAt r)).length = 5 := by
    have := filter_len r 0 5 5 (by omega) (by omega) (fun i hi => by rw [Nat.zero_add, hok i (by omega)]; simp; omega)
    simpa using this
  have hval : recValues r = v := filter_len r 5 11 v (by omega) hv (fun i hi => by rw [hok (5 + i) (by omega)]; simp)
  have hall : (List.range v).any (fun i => !okAt r (5 + i)) = false := by
    simp only [List.any_eq_false, List.mem_range]
    intro i hi; rw [hok (5 + i) (by omega)]; simp; omega
  unfold recCheck
  simp only [h5, hval, hf, hall]
  cases w with
  | none => simp
  | some x => simp [hw x rfl]

/-- A null record passes it as null. -/
theorem recCheck_null {w : Option Nat} {r : Reg} (h : IsNull r) : recCheck w r = .ok false := by
  have h5 : ((List.range 5).filter (okAt r)).length = 0 := by
    rw [List.filter_congr (q := fun _ => false) (fun i hi => h.2 i (by simpa using hi))]; simp
  unfold recCheck
  simp [h5, h.1]

theorem IsChange.ok {w : Option Nat} {r : Reg} (h : IsChange w r) (i : Nat) (hi : i < 5) : okAt r i = true := by
  obtain ⟨_, v, hv, hok, _⟩ := h
  rw [hok i (by omega)]; simp; omega

/-- The time of an operand that has one. -/
theorem timeOperand_has {w : Option Nat} {r : Reg} (h : HasTime w r) : timeOperand w r = .ok (some (laneOf r 2, laneOf r 3)) := by
  rcases h with h | ⟨hf, h2, h3⟩
  · simp [timeOperand, need, h.1, recCheck_change h, bind, Except.bind, pure, Except.pure, recTime]
  · simp [timeOperand, need, hf, h2, h3, bind, Except.bind, pure, Except.pure, recTime]

theorem timeOperand_none {w : Option Nat} {r : Reg} (h : NoTime r) : timeOperand w r = .ok none := by
  rcases h with h | ⟨hf, h23⟩
  · simp [timeOperand, need, h.1, recCheck_null h, bind, Except.bind, pure, Except.pure]
  · simp only [timeOperand, need, hf, bind, Except.bind, pure, Except.pure]
    simp [h23]

theorem HasTime.fmt {w : Option Nat} {r : Reg} (h : HasTime w r) : r.fmt ≠ .none := by
  rcases h with h | h <;> rw [h.1] <;> simp
theorem NoTime.fmt {r : Reg} (h : NoTime r) : r.fmt ≠ .none := by
  rcases h with h | h <;> rw [h.1] <;> simp
theorem IsChange.fmt' {w : Option Nat} {r : Reg} (h : IsChange w r) : r.fmt ≠ .none := by rw [h.1]; simp
theorem IsNull.fmt' {r : Reg} (h : IsNull r) : r.fmt ≠ .none := by rw [h.1]; simp

/-- adv_F as minima of maxima (R134). -/
theorem adv_eq (f : List Time) (t : Time) : ∀ a b, (f.map (fun x => max t.1 x.1)).min? = some a → (f.map (fun x => max t.2 x.2)).min? = some b → advTime f t = some (a, b) := by
  intro a b ha hb
  cases f with
  | nil => simp at ha
  | cons x f =>
    unfold advTime
    rw [List.map_cons] at *
    simp only [List.min?_cons', Option.some.injEq] at ha hb
    subst ha hb
    simp only [Option.some.injEq]
    have : ∀ (f : List Time) (p : Time), (f.map (joinTime t)).foldl meetTime p = ((f.map (fun x => max t.1 x.1)).foldl min p.1, (f.map (fun x => max t.2 x.2)).foldl min p.2) := by
      intro f
      induction f with
      | nil => intro p; rfl
      | cons y f ih => intro p; simp only [List.map_cons, List.foldl_cons]; rw [ih]; rfl
    rw [this]; rfl

end Sys2Proof.Machine
end

