-- ==== Sys2Proof/Laws/Flow.lean ====
section
/-! SUPPORT. What staging a token does (R177, R178), and an instruction that stages and goes on. -/

namespace Sys2Proof.Machine

theorem State.only_putStaged (s : State) (e : Env) (g : Staged) : OnlyCell s (s.putStaged e g) e.core e.cell := s.only_modCell _ _ _

theorem State.cell_putStaged {s : State} {e : Env} (h : s.Runs e) (g : Staged) : (s.putStaged e g).cell e.core e.cell =
    { s.cell e.core e.cell with running := some { e.task with staged := e.task.staged ++ [g] } } := by
  unfold State.putStaged
  rw [State.cell_modCell, if_pos ⟨rfl, rfl⟩, h.task]; rfl

/-- A token that the edge takes raises no fault of R178. -/
theorem State.takes.noFault {s : State} {e : Env} {edge : Nat} {t : Token} (h : s.takes e edge t.reg.fmt t.cls t.frame t.iter) :
    s.emitFault e.core e.cell e.task.ctx edge t = none := by
  obtain ⟨h1, h2⟩ := h
  unfold State.emitFault
  simp only [h1, Bool.not_true, Bool.false_eq_true, if_false]
  rw [if_neg]
  rintro ⟨h3, h4⟩
  rcases h2 with h2 | h2
  · exact h3 h2
  · exact h4 h2

theorem State.takes.emit {s : State} {e : Env} {edge : Nat} {t : Token} (h : s.takes e edge t.reg.fmt t.cls t.frame t.iter) :
    s.emit e edge t = .ok (s.putStaged e (.tok edge t)) := by
  unfold State.emit; rw [h.noFault]

theorem State.takes.emit_data {s : State} {e : Env} {edge : Nat} {f : Fmt} {cls frame : Nat} {iter : W16} {r : Reg} (h : s.takes e edge f cls frame iter)
    (hr : r.fmt = f) : s.emit e edge (dataToken r cls frame iter) = .ok (s.putStaged e (.tok edge (dataToken r cls frame iter))) := by
  subst hr; exact State.takes.emit (t := dataToken r cls frame iter) h

theorem mem_edgeWord {s t : State} (h : t.mem = s.mem) (k l x e : Nat) : t.edgeWord k l x e = s.edgeWord k l x e := by
  simp [State.edgeWord, State.recd, h]

theorem mem_fmtFits {s t : State} (h : t.mem = s.mem) (w : Nat) (f : Fmt) : t.fmtFits w f = s.fmtFits w f := by
  simp [State.fmtFits, State.inWord, State.portWord, State.recd, h]

theorem foldl_congr {α β : Type} (f g : β → α → β) (l : List α) (b : β) (h : ∀ b, ∀ a ∈ l, f b a = g b a) : l.foldl f b = l.foldl g b := by
  induction l generalizing b with
  | nil => rfl
  | cons x l ih => rw [List.foldl_cons, List.foldl_cons, h b x (by simp)]; exact ih _ (fun b a ha => h b a (by simp [ha]))

/-- The tokens of an edge that a task has staged, after it stages something else. -/
theorem Task.tokensOn_append (t : Task) (g : Staged) (e : Nat) (hg : ∀ k, g ≠ .tok e k) : ({ t with staged := t.staged ++ [g] } : Task).tokensOn e = t.tokensOn e := by
  unfold Task.tokensOn
  simp only [List.filterMap_append, List.filterMap_cons, List.filterMap_nil]
  cases g with
  | tok e' k =>
    have : e' ≠ e := fun he => hg k (by rw [he])
    simp [this]
  | _ => simp

theorem State.burst_putStaged {s : State} {e : Env} (h : s.Runs e) (g : Staged) (edge : Nat) (hg : ∀ k, g ≠ .tok edge k) :
    (s.putStaged e g).burstState e.core e.cell e.task.ctx edge = s.burstState e.core e.cell e.task.ctx edge := by
  have hm : (s.putStaged e g).mem = s.mem := by rw [(s.only_putStaged e g).rest]
  unfold State.burstState
  simp only [mem_edgeWord hm, State.cell_putStaged h]
  have he : (s.putStaged e g).edge e.core e.cell e.task.ctx edge = s.edge e.core e.cell e.task.ctx edge := by
    have hc := (s.only_putStaged e g).core
    unfold State.edge State.ctx
    rw [State.cell_putStaged h, hc]
    rfl
  rw [he]
  simp only [Option.toList_some, List.filter_append, List.foldl_append, h.task]
  have f1 : ∀ t : Task, t.ctx = e.task.ctx → [t].filter (fun t => decide (t.ctx = e.task.ctx)) = [t] := fun t ht => by simp [ht]
  rw [f1 e.task rfl, f1 { e.task with staged := e.task.staged ++ [g] } rfl]
  simp only [List.foldl_cons, List.foldl_nil, Task.tokensOn_append _ g edge hg]

/-- Staging something else on another edge leaves what an edge takes. -/
theorem State.takes.putStaged {s : State} {e : Env} (h : s.Runs e) {edge : Nat} {f : Fmt} {cls frame : Nat} {iter : W16} (g : Staged)
    (hg : ∀ k, g ≠ .tok edge k) (ht : s.takes e edge f cls frame iter) : (s.putStaged e g).takes e edge f cls frame iter := by
  have hm : (s.putStaged e g).mem = s.mem := by rw [(s.only_putStaged e g).rest]
  unfold State.takes
  simp only [State.burst_putStaged h g edge hg, mem_edgeWord hm, mem_fmtFits hm]
  exact ht

theorem State.only_restage (s : State) (e : Env) (b : Bool) (len : Nat) : OnlyCell s ((s.drawn e b).advance e.core e.cell len) e.core e.cell :=
  (s.only_drawn e b).trans (State.only_advance _ _ _ _)

/-- The end of an instruction that produces nothing. -/
theorem State.cell_restage (s : State) (e : Env) (b : Bool) (len : Nat) : ((s.drawn e b).advance e.core e.cell len).cell e.core e.cell =
    { s.cell e.core e.cell with
      ctxs := (s.cell e.core e.cell).ctxs.modify e.task.ctx (fun c => c.after b)
      running := (s.cell e.core e.cell).running.map (fun t => { t with pc := t.pc + len }) } := by
  unfold State.advance
  rw [State.cell_modCell, if_pos ⟨rfl, rfl⟩, State.cell_drawn]

/-- What a state with other staged tokens and contexts is. -/
structure Restaged (s t : State) (e : Env) (upd : Ctx → Ctx) (gs : List Staged) : Prop where
  only : OnlyCell s t e.core e.cell
  cell : t.cell e.core e.cell =
    { s.cell e.core e.cell with
      ctxs    := (s.cell e.core e.cell).ctxs.modify e.task.ctx upd
      running := some { e.task with staged := e.task.staged ++ gs } }

theorem Restaged.refl {s : State} {e : Env} (h : s.Runs e) : Restaged s s e id [] := by
  refine ⟨.refl _ _ _, ?_⟩
  have := h.task
  rw [modify_same _ e.task.ctx id (fun _ => rfl)]
  simp [← this]

theorem Restaged.put {s t : State} {e : Env} {upd : Ctx → Ctx} {gs : List Staged} (h : Restaged s t e upd gs) (g : Staged) :
    Restaged s (t.putStaged e g) e upd (gs ++ [g]) := by
  refine ⟨h.only.trans (State.only_putStaged _ _ _), ?_⟩
  unfold State.putStaged
  rw [State.cell_modCell, if_pos ⟨rfl, rfl⟩, h.cell]
  simp

theorem Restaged.ctx {s t : State} {e : Env} {upd : Ctx → Ctx} {gs : List Staged} (h : Restaged s t e upd gs) (f : Ctx → Ctx) :
    Restaged s (t.modCtx e.core e.cell e.task.ctx f) e (fun c => f (upd c)) gs := by
  refine ⟨h.only.trans (State.only_modCtx _ _ _ _ _), ?_⟩
  unfold State.modCtx
  rw [State.cell_modCell, if_pos ⟨rfl, rfl⟩, h.cell]
  simp [Cell.modCtx, modify_modify]

/-- An instruction without a result completes. -/
theorem State.flow_next {s t : State} {e : Env} (h : s.Runs e) {len : Nat} {cs : List Nat} {f : Env → List Reg → Except Nat State} {upd : Ctx → Ctx} {gs : List Staged}
    (hs : ∀ q ∈ s.sources e cs, q.fmt ≠ .none) (hf : f e (s.sources e cs) = .ok t) (ht : Restaged s t e upd gs) :
    ∃ r, Host.Outcome.next (φ := Fault) (ρ := Refusal) (s.flow len cs f) = .next r ∧ StagedBy s r e len (isDrawing 0 cs) upd gs := by
  refine ⟨(t.drawn e (isDrawing 0 cs)).advance e.core e.cell len, ?_, ht.only.trans (State.only_restage _ _ _ _), ?_⟩
  · have hr : s.readAll e cs = .ok (s.sources e cs) := by
      unfold State.readAll
      simp only []
      rw [if_neg]
      simp only [List.any_eq_true, beq_iff_eq, not_exists, not_and]
      exact hs
    unfold State.flow
    rw [h.withTask, hr]
    simp [Except.bind, hf]
  · rw [State.cell_restage, ht.cell]
    simp [modify_modify]

end Sys2Proof.Machine
end

