-- ==== Sys2Proof/Laws/Regs.lean ====
section
/-! SUPPORT. What leaves the registers of cells and region controllers as they were (SameRegs), and how a task ends. -/

namespace Sys2Proof.Machine

theorem SameRegs.refl (s : State) : SameRegs s s := ⟨fun _ _ => rfl, fun _ _ => rfl, fun _ _ _ => rfl, fun _ _ _ => rfl, fun _ => rfl⟩

theorem SameRegs.trans {s t u : State} (h : SameRegs s t) (g : SameRegs t u) : SameRegs s u :=
  ⟨fun k l => (g.l k l).trans (h.l k l), fun k l => (g.mains k l).trans (h.mains k l), fun k l x => (g.o k l x).trans (h.o k l x),
   fun k l x => (g.gen k l x).trans (h.gen k l x), fun k => (g.q k).trans (h.q k)⟩

/-- An update that leaves the cores leaves the registers. -/
theorem SameRegs.of_cores {s t : State} (h : t.cores = s.cores) : SameRegs s t := by
  have hc : ∀ k, t.core k = s.core k := fun k => by simp [State.core, h]
  exact ⟨fun k l => by simp [State.cell, hc], fun k l => by simp [State.cell, hc], fun k l x => by simp [State.ctx, State.cell, hc],
    fun k l x => by simp [State.ctx, State.cell, hc], fun k => by simp [State.rc, hc]⟩

theorem SameRegs.setCore (s : State) (k : Nat) (c : Core) (hc : c.cells = (s.core k).cells) (hq : c.rc.q = (s.core k).rc.q) : SameRegs s (s.setCore k c) := by
  have hce : ∀ i l, (s.setCore k c).cell i l = s.cell i l := fun i l => by
    simp only [State.cell, State.core_setCore]
    split
    · subst_vars; rw [hc]
    · rfl
  refine ⟨fun i l => by rw [hce], fun i l => by rw [hce], fun i l x => by simp only [State.ctx, hce], fun i l x => by simp only [State.ctx, hce], fun i => ?_⟩
  simp only [State.rc, State.core_setCore]
  split
  · subst_vars; rw [hq]
  · rfl

theorem SameRegs.modCore (s : State) (k : Nat) (f : Core → Core) (hc : ∀ c, (f c).cells = c.cells) (hq : ∀ c, (f c).rc.q = c.rc.q) :
    SameRegs s (s.modCore k f) := .setCore s k _ (hc _) (hq _)

theorem SameRegs.modRc (s : State) (k : Nat) (f : Rc → Rc) (hq : ∀ r, (f r).q = r.q) : SameRegs s (s.modRc k f) :=
  .modCore s k _ (fun _ => rfl) (fun c => hq c.rc)

theorem SameRegs.modCell (s : State) (k l : Nat) (f : Cell → Cell) (hl : ∀ c, (f c).l = c.l) (hm : ∀ c, (f c).mains = c.mains)
    (ho : ∀ c x, ((f c).ctx x).o = (c.ctx x).o) (hg : ∀ c x, ((f c).ctx x).gen = (c.ctx x).gen) : SameRegs s (s.modCell k l f) := by
  refine ⟨fun i j => ?_, fun i j => ?_, fun i j x => ?_, fun i j x => ?_, fun i => by simp⟩
  all_goals simp only [State.ctx, State.cell_modCell]; split
  all_goals first | rfl | (rename_i h; obtain ⟨rfl, rfl⟩ := h; simp [hl, hm, ho, hg])

theorem SameRegs.modCtx (s : State) (k l x : Nat) (f : Ctx → Ctx) (ho : ∀ c, (f c).o = c.o) (hg : ∀ c, (f c).gen = c.gen) : SameRegs s (s.modCtx k l x f) := by
  refine SameRegs.modCell s k l _ (fun _ => rfl) (fun _ => rfl) (fun c y => ?_) (fun c y => ?_)
  all_goals
    unfold Cell.modCtx Cell.ctx
    simp only [List.getD_eq_getElem?_getD, List.getElem?_modify]
    cases c.ctxs[y]? <;> simp
    split <;> simp [ho, hg]

theorem SameRegs.modEdge (s : State) (k l x e : Nat) (f : Edge → Edge) : SameRegs s (s.modEdge k l x e f) := by
  unfold State.modEdge
  split
  · exact .modCtx _ _ _ _ _ (fun _ => rfl) (fun _ => rfl)
  · split
    · exact .modCore _ _ _ (fun _ => rfl) (fun _ => rfl)
    · exact .modCore _ _ _ (fun _ => rfl) (fun _ => rfl)

theorem SameRegs.foldl {β : Type} (f : State → β → State) (hf : ∀ s b, SameRegs s (f s b)) (l : List β) (s : State) : SameRegs s (l.foldl f s) := by
  induction l generalizing s with
  | nil => exact .refl _
  | cons b l ih => exact (hf s b).trans (ih _)

theorem State.withMem_cores (s : State) (m : Memory) : ({ s with mem := m } : State).cores = s.cores := rfl
theorem State.setRing_cores (s : State) (k r : Nat) (t : RingSt) : (s.setRing k r t).cores = s.cores := s.withMem_cores _
/-- A check that finds no race changes the records alone. -/
theorem Core.check_ok {c d : Core} {a : Agent} {w : Bool} {kind size scope : Nat} {ws : List Nat} (h : c.check a w kind size scope ws = .ok d) :
    d = { c with words := d.words } := by
  unfold Core.check at h
  split at h
  · exact absurd h (by simp)
  · injection h with h; rw [← h]

theorem State.check_ok {s : State} {k : Nat} {d : Core} {a : Agent} {w : Bool} {kind size scope : Nat} {ws : List Nat} (h : s.check k a w kind size scope ws = .ok d) :
    d = { s.core k with words := d.words } := by
  unfold State.check at h
  split at h
  · exact absurd h (by simp)
  · exact Core.check_ok h

theorem State.check_cells {s : State} {k : Nat} {d : Core} {a : Agent} {w : Bool} {kind size scope : Nat} {ws : List Nat} (h : s.check k a w kind size scope ws = .ok d) :
    d.cells = (s.core k).cells := by rw [State.check_ok h]
theorem State.check_rc {s : State} {k : Nat} {d : Core} {a : Agent} {w : Bool} {kind size scope : Nat} {ws : List Nat} (h : s.check k a w kind size scope ws = .ok d) :
    d.rc = (s.core k).rc := by rw [State.check_ok h]

theorem SameRegs.modPort (s : State) (k l x p : Nat) (f : Port → Port) : SameRegs s (s.modPort k l x p f) := by
  unfold State.modPort
  split
  · exact .modCtx _ _ _ _ _ (fun _ => rfl) (fun _ => rfl)
  · exact .modCore _ _ _ (fun _ => rfl) (fun _ => rfl)
/-- Only the records of the race checker differ after a 128-bit access (R110, R196). -/
theorem SameRegs.touch16 (s : State) (a : Agent) (core off : Nat) (w : Bool) : SameRegs s (s.touch16 a core off w).1 := by
  unfold State.touch16
  split
  · exact .refl _
  · rename_i c hc
    exact .setCore s core c (State.check_cells hc) (by rw [State.check_rc hc])
theorem SameRegs.ringTouch (s : State) (k h lead r : Nat) : SameRegs s (s.ringTouch k h lead r).1 := .touch16 _ _ _ _ _
theorem SameRegs.enqueue (s : State) (k l : Nat) (t : Task) (n : Option Nat) (r : MemReq) : SameRegs s (s.enqueue k l t n r) :=
  .modCell _ _ _ _ (fun _ => rfl) (fun _ => rfl) (fun _ _ => rfl) (fun _ _ => rfl)
theorem SameRegs.setRing (s : State) (k r : Nat) (t : RingSt) : SameRegs s (s.setRing k r t) := .of_cores (s.setRing_cores k r t)
theorem SameRegs.slotMerge (s : State) (k r n : Nat) (c : Clr) : SameRegs s (s.slotMerge k r n c) := .modCore _ _ _ (fun _ => rfl) (fun _ => rfl)
theorem SameRegs.ringVoid (s : State) (k r n : Nat) : SameRegs s (s.ringVoid k r n) := by
  unfold State.ringVoid
  dsimp only
  refine (SameRegs.setRing s k r { s.ringSt k r with pending := (s.ringSt k r).pending - 1 }).trans ?_
  apply SameRegs.modRc
  intro _; rfl
theorem SameRegs.ringFree (s : State) (k r n : Nat) (c : Clr) : SameRegs s (s.ringFree k r n c) := by
  unfold State.ringFree
  have h := (SameRegs.setRing s k r { s.ringSt k r with taken := (s.ringSt k r).taken - 1, free := (s.ringSt k r).free + 1 }).trans (SameRegs.slotMerge _ k r n c)
  dsimp only
  split
  · exact h.trans (.modCore _ _ _ (fun _ => rfl) (fun _ => rfl))
  · exact h
theorem SameRegs.setOrd (s : State) (k h : Nat) (o : Ord) : SameRegs s (s.setOrd k h o) := by
  unfold State.setOrd
  apply SameRegs.modCore <;> intro _ <;> rfl
theorem SameRegs.release (s : State) (k h : Nat) : SameRegs s (s.release k h).1 := .setOrd _ _ _ _
theorem SameRegs.cellRelease (s : State) (k l : Nat) : SameRegs s (s.cellRelease k l).1 := .release _ _ _
theorem SameRegs.dropFrame (s : State) (k f : Nat) : SameRegs s (s.dropFrame k f) := .of_cores rfl
theorem SameRegs.giveRoom (s : State) (k l : Nat) (t : Task) : SameRegs s (s.giveRoom k l t) :=
  (SameRegs.foldl _ (fun _ _ => .modEdge _ _ _ _ _ _) _ _).trans (.foldl _ (fun _ _ => .modPort _ _ _ _ _ _) _ _)
theorem SameRegs.endRing (s : State) (k l : Nat) (t : Task) (d : Bool) : SameRegs s (s.endRing k l t d) := by
  unfold State.endRing
  split
  · exact .refl _
  · split
    · exact .refl _
    · split
      · split
        · exact (SameRegs.ringTouch ..).trans (.ringVoid _ _ _ _)
        · exact .refl _
      · exact .enqueue ..

theorem SameRegs.dropTask (s : State) (k l : Nat) (t : Task) : SameRegs s (s.dropTask k l t).1 := by
  unfold State.dropTask
  dsimp only
  refine SameRegs.trans ?_ (.giveRoom _ _ _ _)
  have h1 := SameRegs.endRing s k l t true
  cases t.newFrame with
  | none =>
    cases t.retRoom with
    | none => exact h1
    | some e => exact h1.trans (.modEdge _ _ _ _ _ _)
  | some f =>
    cases t.retRoom with
    | none => exact h1.trans (.dropFrame _ _ _)
    | some e => exact (h1.trans (.dropFrame _ _ _)).trans (.modEdge _ _ _ _ _ _)

/-- The part of a cell that says which tasks run and have completed. -/
structure SameTasks (s t : State) : Prop where
  running : ∀ k l, (t.cell k l).running = (s.cell k l).running
  done    : ∀ k l, (t.cell k l).done = (s.cell k l).done

theorem SameTasks.refl (s : State) : SameTasks s s := ⟨fun _ _ => rfl, fun _ _ => rfl⟩
theorem SameTasks.trans {s t u : State} (h : SameTasks s t) (g : SameTasks t u) : SameTasks s u :=
  ⟨fun k l => (g.running k l).trans (h.running k l), fun k l => (g.done k l).trans (h.done k l)⟩
theorem SameTasks.of_cores {s t : State} (h : t.cores = s.cores) : SameTasks s t := by
  have hc : ∀ k, t.core k = s.core k := fun k => by simp [State.core, h]
  exact ⟨fun k l => by simp [State.cell, hc], fun k l => by simp [State.cell, hc]⟩
theorem SameTasks.setCore (s : State) (k : Nat) (c : Core) (hc : c.cells = (s.core k).cells) : SameTasks s (s.setCore k c) := by
  have hce : ∀ i l, (s.setCore k c).cell i l = s.cell i l := fun i l => by
    simp only [State.cell, State.core_setCore]
    split
    · subst_vars; rw [hc]
    · rfl
  exact ⟨fun i l => by rw [hce], fun i l => by rw [hce]⟩
theorem SameTasks.modCore (s : State) (k : Nat) (f : Core → Core) (hc : ∀ c, (f c).cells = c.cells) : SameTasks s (s.modCore k f) := .setCore s k _ (hc _)
theorem SameTasks.modCell (s : State) (k l : Nat) (f : Cell → Cell) (hr : ∀ c, (f c).running = c.running) (hd : ∀ c, (f c).done = c.done) :
    SameTasks s (s.modCell k l f) := by
  refine ⟨fun i j => ?_, fun i j => ?_⟩
  all_goals simp only [State.cell_modCell]; split
  all_goals first | rfl | (rename_i h; obtain ⟨rfl, rfl⟩ := h; simp [hr, hd])
theorem SameTasks.modEdge (s : State) (k l x e : Nat) (f : Edge → Edge) : SameTasks s (s.modEdge k l x e f) := by
  unfold State.modEdge
  split
  · exact .modCell _ _ _ _ (fun _ => rfl) (fun _ => rfl)
  · split <;> exact .modCore _ _ _ (fun _ => rfl)
theorem SameTasks.modPort (s : State) (k l x p : Nat) (f : Port → Port) : SameTasks s (s.modPort k l x p f) := by
  unfold State.modPort
  split
  · exact .modCell _ _ _ _ (fun _ => rfl) (fun _ => rfl)
  · exact .modCore _ _ _ (fun _ => rfl)
theorem SameTasks.ringTouch (s : State) (k h lead r : Nat) : SameTasks s (s.ringTouch k h lead r).1 := by
  unfold State.ringTouch State.touch16
  split
  · exact .refl _
  · rename_i c hc
    exact .setCore s lead c (State.check_cells hc)
theorem SameTasks.foldl {β : Type} (f : State → β → State) (hf : ∀ s b, SameTasks s (f s b)) (l : List β) (s : State) : SameTasks s (l.foldl f s) := by
  induction l generalizing s with
  | nil => exact .refl _
  | cons b l ih => exact (hf s b).trans (ih _)
theorem SameTasks.ringFree (s : State) (k r n : Nat) (c : Clr) : SameTasks s (s.ringFree k r n c) := by
  unfold State.ringFree
  have h : SameTasks s ((s.setRing k r { s.ringSt k r with taken := (s.ringSt k r).taken - 1, free := (s.ringSt k r).free + 1 }).slotMerge k r n c) :=
    (SameTasks.of_cores (State.setRing_cores _ _ _ _)).trans (.modCore _ _ _ (fun _ => rfl))
  dsimp only
  split
  · exact h.trans (.modCore _ _ _ (fun _ => rfl))
  · exact h
theorem SameTasks.ringVoid (s : State) (k r n : Nat) : SameTasks s (s.ringVoid k r n) := by
  unfold State.ringVoid State.modRc
  dsimp only
  refine (SameTasks.of_cores (State.setRing_cores s k r { s.ringSt k r with pending := (s.ringSt k r).pending - 1 })).trans ?_
  apply SameTasks.modCore
  intro _; rfl
theorem SameTasks.setOrd (s : State) (k h : Nat) (o : Ord) : SameTasks s (s.setOrd k h o) := by
  unfold State.setOrd
  apply SameTasks.modCore
  intro _; rfl
theorem SameTasks.release (s : State) (k h : Nat) : SameTasks s (s.release k h).1 := .setOrd _ _ _ _
theorem SameTasks.cellRelease (s : State) (k l : Nat) : SameTasks s (s.cellRelease k l).1 := .release _ _ _
theorem SameTasks.endRing (s : State) (k l : Nat) (t : Task) (d : Bool) : SameTasks s (s.endRing k l t d) := by
  unfold State.endRing
  split
  · exact .refl _
  · split
    · exact .refl _
    · split
      · split
        · exact (SameTasks.ringTouch ..).trans (.ringVoid _ _ _ _)
        · exact .refl _
      · exact .modCell _ _ _ _ (fun _ => rfl) (fun _ => rfl)
theorem SameTasks.giveRoom (s : State) (k l : Nat) (t : Task) : SameTasks s (s.giveRoom k l t) :=
  (SameTasks.foldl _ (fun _ _ => .modEdge _ _ _ _ _ _) _ _).trans (.foldl _ (fun _ _ => .modPort _ _ _ _ _ _) _ _)
theorem SameTasks.dropTask (s : State) (k l : Nat) (t : Task) : SameTasks s (s.dropTask k l t).1 := by
  unfold State.dropTask
  dsimp only
  refine SameTasks.trans ?_ (.giveRoom _ _ _ _)
  have h1 := SameTasks.endRing s k l t true
  cases t.newFrame with
  | none =>
    cases t.retRoom with
    | none => exact h1
    | some e => exact h1.trans (.modEdge _ _ _ _ _ _)
  | some f =>
    cases t.retRoom with
    | none => exact h1.trans (.of_cores (t := (s.endRing k l t true).dropFrame k f) rfl)
    | some e => exact (h1.trans (.of_cores (t := (s.endRing k l t true).dropFrame k f) rfl)).trans (.modEdge _ _ _ _ _ _)

/-- How a task ends (R177, R183). -/
theorem State.endTask_ended {s : State} {e : Env} (h : (s.cell e.core e.cell).running = some e.task) (drop : Bool) :
    Ended s (s.endTask e.core e.cell drop) e drop ∧ SameRegs s (s.endTask e.core e.cell drop) := by
  unfold State.endTask
  rw [h]
  have fin : ∀ (u : State) (v : Task), SameRegs s u → SameTasks s u → v.serial = e.task.serial ∧ v.frame = e.task.frame ∧ v.iter = e.task.iter ∧
      v.staged = (if drop then [] else e.task.staged) ∧ v.dropped = (drop || e.task.dropped) →
      Ended s (u.modCell e.core e.cell (fun c => { c with running := none, done := c.done ++ [v] })) e drop ∧
      SameRegs s (u.modCell e.core e.cell (fun c => { c with running := none, done := c.done ++ [v] })) := by
    intro u v hr ht hv
    refine ⟨⟨?_, v, ?_, hv⟩, hr.trans (.modCell _ _ _ _ (fun _ => rfl) (fun _ => rfl) (fun _ _ => rfl) (fun _ _ => rfl))⟩
    · simp
    · simp [ht.done]
  cases drop
  · simp only [Bool.false_eq_true, if_false]
    refine fin _ _ ?_ ?_ ⟨rfl, rfl, rfl, rfl, rfl⟩
    · exact (SameRegs.endRing ..).trans (.giveRoom _ _ _ _)
    · exact (SameTasks.endRing ..).trans (.giveRoom _ _ _ _)
  · simp only [if_true]
    exact fin _ _ (.dropTask _ _ _ _) (.dropTask _ _ _ _) ⟨rfl, rfl, rfl, rfl, rfl⟩

/-- Only cores, memory and isles differ. -/
def Quiet (s t : State) : Prop := t = { s with cores := t.cores, mem := t.mem, isles := t.isles }

theorem Quiet.refl (s : State) : Quiet s s := rfl
theorem Quiet.trans {s t u : State} (h : Quiet s t) (g : Quiet t u) : Quiet s u := by
  unfold Quiet at *
  rw [g, h]
theorem Quiet.modCore (s : State) (k : Nat) (f : Core → Core) : Quiet s (s.modCore k f) := rfl
theorem Quiet.modCell (s : State) (k l : Nat) (f : Cell → Cell) : Quiet s (s.modCell k l f) := rfl
theorem Quiet.withMem (s : State) (m : Memory) : Quiet s { s with mem := m } := rfl
theorem Quiet.modIsle (s : State) (k : Nat) (f : Isle → Isle) : Quiet s (s.modIsle k f) := rfl
theorem Quiet.modEdge (s : State) (k l x e : Nat) (f : Edge → Edge) : Quiet s (s.modEdge k l x e f) := by
  unfold State.modEdge
  split
  · exact .modCell _ _ _ _
  · split <;> exact .modCore _ _ _
theorem Quiet.modPort (s : State) (k l x p : Nat) (f : Port → Port) : Quiet s (s.modPort k l x p f) := by
  unfold State.modPort
  split
  · exact .modCell _ _ _ _
  · exact .modCore _ _ _
theorem Quiet.ringTouch (s : State) (k h lead r : Nat) : Quiet s (s.ringTouch k h lead r).1 := by
  unfold State.ringTouch State.touch16
  split
  · exact .refl _
  · rfl
theorem Quiet.foldl {β : Type} (f : State → β → State) (hf : ∀ s b, Quiet s (f s b)) (l : List β) (s : State) : Quiet s (l.foldl f s) := by
  induction l generalizing s with
  | nil => exact .refl _
  | cons b l ih => exact (hf s b).trans (ih _)
theorem Quiet.setRing (s : State) (k r : Nat) (t : RingSt) : Quiet s (s.setRing k r t) := .withMem _ _
theorem Quiet.ringVoid (s : State) (k r n : Nat) : Quiet s (s.ringVoid k r n) := by
  unfold State.ringVoid
  dsimp only
  exact (Quiet.setRing s k r { s.ringSt k r with pending := (s.ringSt k r).pending - 1 }).trans (.modCore _ _ _)
theorem Quiet.ringFree (s : State) (k r n : Nat) (c : Clr) : Quiet s (s.ringFree k r n c) := by
  unfold State.ringFree
  dsimp only
  have h := (Quiet.setRing s k r { s.ringSt k r with taken := (s.ringSt k r).taken - 1, free := (s.ringSt k r).free + 1 }).trans
    (.modCore _ k (fun co => { co with ringClr := aset co.ringClr (slotKey r n) (Clr.merge ((aget co.ringClr (slotKey r n)).getD []) c) }))
  split
  · exact h.trans (.modCore _ _ _)
  · exact h
theorem Quiet.release (s : State) (k h : Nat) : Quiet s (s.release k h).1 := rfl
theorem Quiet.endRing (s : State) (k l : Nat) (t : Task) (d : Bool) : Quiet s (s.endRing k l t d) := by
  unfold State.endRing
  split
  · exact .refl _
  · split
    · exact .refl _
    · split
      · split
        · exact (Quiet.ringTouch ..).trans (.ringVoid _ _ _ _)
        · exact .refl _
      · exact .modCell _ _ _ _
theorem Quiet.giveRoom (s : State) (k l : Nat) (t : Task) : Quiet s (s.giveRoom k l t) :=
  (Quiet.foldl _ (fun _ _ => .modEdge _ _ _ _ _ _) _ _).trans (.foldl _ (fun _ _ => .modPort _ _ _ _ _ _) _ _)
theorem Quiet.dropTask (s : State) (k l : Nat) (t : Task) : Quiet s (s.dropTask k l t).1 := by
  unfold State.dropTask
  dsimp only
  refine Quiet.trans ?_ (.giveRoom _ _ _ _)
  have h1 := Quiet.endRing s k l t true
  cases t.newFrame with
  | none =>
    cases t.retRoom with
    | none => exact h1
    | some e => exact h1.trans (.modEdge _ _ _ _ _ _)
  | some f =>
    cases t.retRoom with
    | none => exact h1.trans (.modIsle _ _ _)
    | some e => exact (h1.trans (.modIsle _ _ _)).trans (.modEdge ((s.endRing k l t true).dropFrame k f) _ _ _ _ _)
theorem Quiet.endTask (s : State) (k l : Nat) (d : Bool) : Quiet s (s.endTask k l d) := by
  unfold State.endTask
  split
  · exact .refl _
  · rename_i t _
    cases d
    · simp only [Bool.false_eq_true, if_false]
      exact ((Quiet.endRing ..).trans (.giveRoom _ k l t)).trans (.modCell _ _ _ _)
    · simp only [if_true]
      exact (Quiet.dropTask s k l t).trans (.modCell _ _ _ _)

theorem State.postFault_cores (s : State) (sev kind k l c a d t : Nat) : (s.postFault sev kind k l c a d t).cores = s.cores := rfl

theorem State.postFault_posts (s : State) (sev kind k l c a d t : Nat) :
    (s.postFault sev kind k l c a d t).posts = s.posts ++ [s.faultRecord sev kind k l c a d t] := rfl

/-- A cell instruction that faults with severity info (R177, R302). -/
theorem State.taskFault_faulted {s : State} {e : Env} (h : s.Runs e) (kind cause : Nat) (hc : endsPhase cause = false) :
    Faulted s (s.taskFault e.core e.cell kind ⟨cause, 0, 0, false⟩) e kind cause := by
  have hco : ∀ c a d t, (s.postFault 0 kind e.core e.cell c a d t).cell e.core e.cell = s.cell e.core e.cell := fun _ _ _ _ => rfl
  unfold State.taskFault
  simp only [hc, Bool.false_eq_true, if_false, h.task]
  have hr : ((s.postFault 0 kind e.core e.cell cause 0 0 e.task.tag).cell e.core e.cell).running = some e.task := by rw [hco]; exact h.task
  have he := State.endTask_ended hr true
  refine ⟨?_, ⟨he.1.running, ?_⟩, (SameRegs.of_cores (s.postFault_cores 0 kind e.core e.cell cause 0 0 e.task.tag)).trans he.2⟩
  · rw [Quiet.endTask (s.postFault 0 kind e.core e.cell cause 0 0 e.task.tag) e.core e.cell true]
    exact s.postFault_posts _ _ _ _ _ _ _ _
  · have := he.1.done
    rwa [hco] at this

/-- An instruction whose result function answers a cause faults. -/
theorem State.compute_faults {s : State} {e : Env} (h : s.Runs e) {len d rm : Nat} {cs : List Nat} {f : Env → List Reg → Except Nat Reg} {c : Nat}
    (hf : (s.readAll e cs).bind (f e) = .error c) (hc : endsPhase c = false) :
    ∃ q, s.compute len d rm cs f = .next q ∧ Faulted s q e 0 c := by
  refine ⟨_, ?_, State.taskFault_faulted h 0 c hc⟩
  unfold State.compute State.produce
  rw [h.withTask, hf]

theorem State.flow_faults {s : State} {e : Env} (h : s.Runs e) {len : Nat} {cs : List Nat} {f : Env → List Reg → Except Nat State} {c : Nat}
    (hf : (s.readAll e cs).bind (f e) = .error c) (hc : endsPhase c = false) :
    ∃ q, Host.Outcome.next (φ := Fault) (ρ := Refusal) (s.flow len cs f) = .next q ∧ Faulted s q e 0 c := by
  refine ⟨_, ?_, State.taskFault_faulted h 0 c hc⟩
  unfold State.flow
  rw [h.withTask, hf]

theorem State.readAll_none {s : State} {e : Env} {cs : List Nat} {q : Reg} (h : q ∈ s.sources e cs) (hq : q.fmt = .none) : s.readAll e cs = .error 0x00B := by
  unfold State.readAll
  simp only []
  rw [if_pos]
  simp only [List.any_eq_true, beq_iff_eq]
  exact ⟨q, h, hq⟩

/-- Sources with a mismatch: of tag NONE, or refused by the instruction. -/
theorem State.bind_mismatch {s : State} {e : Env} {cs : List Nat} {β : Type} {f : List Reg → Except Nat β} (h : f (s.sources e cs) = .error 0x00B) :
    (s.readAll e cs).bind f = .error 0x00B := by
  unfold State.readAll
  simp only []
  split
  · rfl
  · exact h

/-- Sources without one. -/
theorem State.bind_sources {s : State} {e : Env} {cs : List Nat} {β : Type} {f : List Reg → Except Nat β} (hs : ∀ q ∈ s.sources e cs, q.fmt ≠ .none) :
    (s.readAll e cs).bind f = f (s.sources e cs) := by
  unfold State.readAll
  simp only []
  rw [if_neg]
  · rfl
  · simp only [List.any_eq_true, beq_iff_eq, not_exists, not_and]
    exact hs

end Sys2Proof.Machine
end

