-- ==== Sys2Proof/Laws/Regions.lean ====
section
/-! SUPPORT. How a phase, a node and a region end (R79, R80, R240). -/

namespace Sys2Proof.Machine

theorem aget_map {α β : Type} (m : Assoc α) (f : Nat → α → β) (k : Nat) : aget (m.map (fun e => (e.1, f e.1 e.2))) k = (aget m k).map (f k) := by
  induction m with
  | nil => rfl
  | cons e m ih =>
    obtain ⟨j, v⟩ := e
    simp only [List.map_cons, aget]
    split
    · subst_vars; simp
    · exact ih

theorem foldl_keeps {α β γ : Type} (P : α → γ) (f : α → β → α) (hf : ∀ a b, P (f a b) = P a) (l : List β) (a : α) : P (l.foldl f a) = P a := by
  induction l generalizing a with
  | nil => rfl
  | cons b l ih => rw [List.foldl_cons, ih, hf]

/-- The region controllers are the same. -/
def SameRc (s t : State) : Prop := ∀ k, t.rc k = s.rc k

theorem SameRc.refl (s : State) : SameRc s s := fun _ => rfl
theorem SameRc.trans {s t u : State} (h : SameRc s t) (g : SameRc t u) : SameRc s u := fun k => (g k).trans (h k)
theorem SameRc.of_cores {s t : State} (h : t.cores = s.cores) : SameRc s t := fun k => by simp [State.rc, State.core, h]
theorem SameRc.modCore (s : State) (k : Nat) (f : Core → Core) (hf : ∀ c, (f c).rc = c.rc) : SameRc s (s.modCore k f) := fun j => by
  simp only [State.rc, State.core_modCore]
  split
  · subst_vars; exact hf _
  · rfl
theorem SameRc.mapCores (s : State) (f : Nat → Core → Core) (hf : ∀ k c, (f k c).rc = c.rc) : SameRc s { s with cores := s.cores.map (fun e => (e.1, f e.1 e.2)) } := fun j => by
  simp only [State.rc, State.core, aget_map]
  cases aget s.cores j <;> simp [hf]
theorem SameRc.foldl {β : Type} (f : State → β → State) (hf : ∀ s b, SameRc s (f s b)) (l : List β) (s : State) : SameRc s (l.foldl f s) := by
  induction l generalizing s with
  | nil => exact .refl _
  | cons b l ih => exact (hf s b).trans (ih _)

theorem Quiet.settle (s : State) (cs : List Nat) (i : Nat) : Quiet s (s.settle cs i) := rfl
theorem Quiet.reclaimFrames (s : State) (k : Nat) : Quiet s (s.reclaimFrames k) := rfl
theorem Quiet.endPhase (s : State) (k st : Nat) (r : Bool) : Quiet s (s.endPhase k st r) := by
  unfold State.endPhase
  dsimp only
  refine Quiet.trans ?_ (.modCore _ _ _)
  refine Quiet.trans ?_ (.withMem _ _)
  refine Quiet.trans ?_ (.settle _ _ _)
  refine Quiet.trans ?_ (.reclaimFrames _ _)
  exact .foldl _ (fun _ _ => .modCore _ _ _) _ _

/-- A core after a settling (R104). -/
def Core.settled (cs : List Nat) (i k : Nat) (c : Core) : Core :=
  if cs.contains k then { c with rphase := c.rphase + 1, words := [], sync := c.sync.filter (fun y => y.1 == completionAt / 4) }
  else if isleOf k = i then
    { c with words := c.words.map (fun w => (w.1, { w.2 with
      writes := w.2.writes.filter (fun r => !(r.key.route == 0 && cs.contains r.key.core)),
      reads := w.2.reads.filter (fun r => !(r.key.route == 0 && cs.contains r.key.core)) })) }
  else c

theorem State.settle_eq (s : State) (cs : List Nat) (i : Nat) : s.settle cs i = { s with cores := s.cores.map (fun e => (e.1, Core.settled cs i e.1 e.2)) } := by
  unfold State.settle
  congr 1
  apply List.map_congr_left
  intro e _
  dsimp only
  unfold Core.settled
  by_cases h1 : cs.contains e.1 = true
  · rw [if_pos h1, if_pos h1]
  · by_cases h2 : isleOf e.1 = i
    · rw [if_neg h1, if_pos h2, if_neg h1, if_pos h2]
    · rw [if_neg h1, if_neg h2, if_neg h1, if_neg h2]

theorem SameRc.settle (s : State) (cs : List Nat) (i : Nat) : SameRc s (s.settle cs i) := by
  rw [State.settle_eq]
  refine SameRc.mapCores s _ (fun k c => ?_)
  unfold Core.settled
  split
  · rfl
  · split <;> rfl

/-- What the end of a phase writes in the controller of the region (R79). -/
def Rc.phaseEnded (st w : Nat) (r : Rc) : Rc := { r with inPhase := false, aborting := false, dying := false, residue := false, ended := st, word := w, barc := [] }

/-- The state right before the end of a phase writes its completion word. -/
def State.beforeEnd (s : State) (k : Nat) : State :=
  (((s.regionCores k).foldl (fun s k => s.modCore k Core.clearTokens) s).reclaimFrames k).settle (s.regionCores k) (isleOf k)

theorem State.endPhase_eq (s : State) (k st : Nat) (r : Bool) : ∃ m w, s.endPhase k st r = ({ s.beforeEnd k with mem := m } : State).modRc k (Rc.phaseEnded st w) :=
  ⟨_, _, rfl⟩

theorem SameRc.beforeEnd (s : State) (k : Nat) : SameRc s (s.beforeEnd k) :=
  (SameRc.foldl (fun s j => s.modCore j Core.clearTokens) (fun s j => SameRc.modCore s j _ (fun _ => rfl)) _ s).trans
    ((SameRc.of_cores rfl).trans (SameRc.settle _ _ _))

/-- What the end of a phase leaves in the controller of the region (R79). -/
theorem State.endPhase_rc (s : State) (k st : Nat) (r : Bool) : ∃ w, (s.endPhase k st r).rc k = (s.rc k).phaseEnded st w := by
  obtain ⟨m, w, h⟩ := s.endPhase_eq k st r
  refine ⟨w, ?_⟩
  rw [h, State.rc_modRc, if_pos rfl]
  exact congrArg _ (((SameRc.of_cores rfl : SameRc (s.beforeEnd k) { s.beforeEnd k with mem := m }) k).trans (SameRc.beforeEnd s k k))

theorem State.endPhase_q (s : State) (k st : Nat) (r : Bool) (j : Nat) : ((s.endPhase k st r).rc j).q = (s.rc j).q := by
  obtain ⟨m, w, h⟩ := s.endPhase_eq k st r
  have e := ((SameRc.of_cores rfl : SameRc (s.beforeEnd k) { s.beforeEnd k with mem := m }) j).trans (SameRc.beforeEnd s k j)
  rw [h, State.rc_modRc]
  split
  · subst_vars; exact congrArg (fun r => (Rc.phaseEnded st w r).q) e
  · exact congrArg Rc.q e

/-- The region controllers are the same but for the accesses that they hold. -/
def HeldRc (s t : State) : Prop := ∀ k, t.rc k = { s.rc k with held := (t.rc k).held, loadHeld := (t.rc k).loadHeld }

theorem HeldRc.of_same {s t : State} (h : SameRc s t) : HeldRc s t := fun k => by rw [h k]
theorem HeldRc.trans {s t u : State} (h : HeldRc s t) (g : HeldRc t u) : HeldRc s u := fun k => by rw [g k, h k]
theorem HeldRc.foldl {β : Type} (f : State → β → State) (hf : ∀ s b, HeldRc s (f s b)) (l : List β) (s : State) : HeldRc s (l.foldl f s) := by
  induction l generalizing s with
  | nil => exact .of_same (.refl s)
  | cons b l ih => exact (hf s b).trans (ih _)

/-- What the return of storage tiles to the pool may change (R335, R350): their state, what accesses wait for a free tile, and what a translation changes. -/
structure Released (s t : State) : Prop where
  rest  : t = { s with nodes := t.nodes, parts := t.parts, cores := t.cores, isles := t.isles, dies := t.dies, freeNo := t.freeNo, tiles := t.tiles }
  rc    : HeldRc s t
  nodes : ∀ n v, aget t.nodes n = some v → ∃ w, aget s.nodes n = some w ∧ v = { w with held := v.held }

theorem Released.refl (s : State) : Released s s := ⟨rfl, .of_same (.refl s), fun _ v h => ⟨v, h, rfl⟩⟩
theorem Released.trans {s t u : State} (h : Released s t) (g : Released t u) : Released s u where
  rest := by rw [g.rest, h.rest]
  rc := h.rc.trans g.rc
  nodes n v hv := by
    obtain ⟨w, hw, e⟩ := g.nodes n v hv
    obtain ⟨x, hx, f⟩ := h.nodes n w hw
    exact ⟨x, hx, by rw [e, f]⟩
theorem Released.of_translated {s t : State} (h : Translated s t) : Released s t where
  rest := by rw [h.rest]
  rc := .of_same h.rc
  nodes n v hv := ⟨v, by rw [h.rest] at hv; exact hv, rfl⟩
theorem Released.setTileSt (s : State) (pt x pa st : Nat) : Released s (s.setTileSt pt x pa st) := ⟨rfl, .of_same (.of_cores rfl), fun _ v h => ⟨v, h, rfl⟩⟩
theorem Released.releaseTile (s : State) (pt x : Nat) : Released s (s.releaseTile pt x) := by
  have h := Released.of_translated (translate_spec s (s.part pt).supervisor pt (x * 2048) false)
  unfold State.releaseTile
  split
  · next t c ht => rw [ht] at h; exact h
  · next t pa ht => rw [ht] at h; exact h.trans (.setTileSt ..)

theorem SameRc.modPart (s : State) (p : Nat) (f : Part → Part) : SameRc s (s.modPart p f) := .of_cores rfl

theorem Released.unhold (s : State) (pt : Nat) (p : Nat × Nat → Bool) : Released s (s.unhold pt p) where
  rest := rfl
  rc k := by
    have h : s.cores.map (fun (e : Nat × Core) => if bit (s.part pt).isles (isleOf e.1) then (e.1, e.2.unhold p) else e) =
        s.cores.map (fun e => (e.1, if bit (s.part pt).isles (isleOf e.1) then e.2.unhold p else e.2)) :=
      List.map_congr_left fun e _ => by split <;> rfl
    have g : (s.unhold pt p).cores = s.cores.map (fun e => (e.1, if bit (s.part pt).isles (isleOf e.1) then e.2.unhold p else e.2)) := h
    simp only [State.rc, State.core, g, aget_map _ (fun k (c : Core) => if bit (s.part pt).isles (isleOf k) then c.unhold p else c)]
    cases aget s.cores k with
    | none => rfl
    | some c => simp only [Option.map_some, Option.getD_some]; split <;> rfl
  nodes n v hv := by
    have h : (s.unhold pt p).nodes = s.nodes.map (fun e => (e.1, if e.2.part = pt then { e.2 with held := released p e.2.held } else e.2)) :=
      List.map_congr_left fun e _ => by split <;> rfl
    rw [h, aget_map _ (fun _ (v : Node) => if v.part = pt then { v with held := released p v.held } else v)] at hv
    cases hn : aget s.nodes n with
    | none => rw [hn] at hv; cases hv
    | some w =>
      rw [hn] at hv
      simp only [Option.map_some, Option.some.injEq] at hv
      refine ⟨w, rfl, ?_⟩
      rw [← hv]
      split <;> rfl

/-- Tiles that nothing names any longer return to the pool. -/
theorem State.reclaim_spec (s : State) (pt : Nat) (was : List Nat) : Released s (s.reclaim pt was) := by
  unfold State.reclaim
  split
  · exact .refl s
  · refine Released.trans ?_ (.unhold ..)
    generalize List.filter _ _ = l
    have : ∀ (l : List Nat) (s : State), Released s (l.foldl (fun t x => t.releaseTile pt x) s) := by
      intro l
      induction l with
      | nil => intro s; exact .refl s
      | cons x l ih => intro s; exact (Released.releaseTile s pt x).trans (ih _)
    exact this _ _

/-- What the end of a node's memberships may change: the engines, what they have said, and the cores' counts of ranks. -/
structure Parted (s t : State) : Prop where
  rest : t = { s with cores := t.cores, dies := t.dies, straits := t.straits, ctl := t.ctl }
  rc   : SameRc s t

theorem Parted.refl (s : State) : Parted s s := ⟨rfl, .refl s⟩
theorem Parted.trans {s t u : State} (h : Parted s t) (g : Parted t u) : Parted s u := ⟨by rw [g.rest, h.rest], h.rc.trans g.rc⟩
theorem Parted.foldl {β : Type} (f : State → β → State) (hf : ∀ s b, Parted s (f s b)) (l : List β) (s : State) : Parted s (l.foldl f s) := by
  induction l generalizing s with
  | nil => exact .refl _
  | cons b l ih => exact (hf s b).trans (ih _)
theorem Parted.tell (s : State) (c : Comm) (kind index : Nat) (clr : Clr) (r : Nat) : Parted s (s.tell c kind index clr r) := by
  unfold State.tell State.sendColl
  dsimp only
  split
  · exact .refl s
  · exact ⟨rfl, .of_cores rfl⟩
theorem Parted.tellAll (s : State) (c : Comm) (kind index : Nat) (clr : Clr) : Parted s (s.tellAll c kind index clr) := .foldl _ (fun _ _ => .tell ..) _ _
theorem Parted.loseNode (s : State) (n : Nat) : Parted s (s.loseNode n) := by
  unfold State.loseNode
  exact (Parted.foldl (fun (t : State) (m : Nat × Nat × Comm) => t.tellAll m.2.2 5 0 []) (fun _ _ => .tellAll ..) _ s).trans ⟨rfl, .of_cores rfl⟩
theorem Parted.freeSlots (s : State) : Parted s s.freeSlots := ⟨rfl, .of_cores rfl⟩
theorem Parted.endMembers (s : State) (n : Nat) : Parted s (s.endMembers n) := by
  unfold State.endMembers
  refine Parted.trans ?_ (.freeSlots _)
  refine (Parted.foldl (fun (t : State) (m : Nat × Nat × Comm) => (t.modCore m.2.2.core (fun c => { c with rank := c.rank - 1 })).tellAll m.2.2 3 0 []) (fun t m => ?_) _ s).trans
    ⟨rfl, .of_cores rfl⟩
  exact (show Parted t (t.modCore m.2.2.core (fun c => { c with rank := c.rank - 1 })) from ⟨rfl, .modCore t _ _ (fun _ => rfl)⟩).trans (.tellAll ..)

/-- The end of a node (R80): it has terminated, and records, regions and memory are as they were, the region controllers but for the accesses that they hold. -/
theorem State.stopNode_spec (s : State) (n : Nat) : (s.stopNode n).posts = s.posts ∧ (s.stopNode n).regions = s.regions ∧ (s.stopNode n).mem = s.mem ∧ HeldRc s (s.stopNode n) ∧
    ∀ v, aget (s.stopNode n).nodes n = some v → v.st = 4 := by
  unfold State.stopNode
  dsimp only
  generalize hm : s.modNode n (fun v => { v with st := 4, ops := v.ops.map (fun o => { o with shadow := [] }) }) = m
  have m1 : m = { s with nodes := m.nodes } := by rw [← hm]; unfold State.modNode; split <;> rfl
  have m2 : ∀ v, aget m.nodes n = some v → v.st = 4 := by
    intro v
    rw [← hm]
    unfold State.modNode
    cases hn : aget s.nodes n with
    | none => intro h; simp [hn] at h
    | some u => intro h; simp only [aget_aset, if_true, Option.some.injEq] at h; rw [← h]
  have r := State.reclaim_spec m (s.partOfNode n) (s.busyTiles (s.partOfNode n))
  generalize m.reclaim (s.partOfNode n) (s.busyTiles (s.partOfNode n)) = t at r
  generalize hc : ({ t with cores := t.cores.map (fun (e : Nat × Core) => (e.1, { e.2 with copies := e.2.copies.filter (fun c => c.2.node != n) })) } : State) = c
  have c1 : c = { t with cores := c.cores } := by rw [← hc]
  have c2 : SameRc t c := by rw [← hc]; exact SameRc.mapCores t (fun _ x => { x with copies := x.copies.filter (fun c => c.2.node != n) }) (fun _ _ => rfl)
  have e := (Parted.loseNode c n).trans (.endMembers _ n)
  generalize (c.loseNode n).endMembers n = u at e
  refine ⟨by rw [e.rest, c1, r.rest, m1], by rw [e.rest, c1, r.rest, m1], by rw [e.rest, c1, r.rest, m1], ?_, ?_⟩
  · have s1 : SameRc s m := .of_cores (by rw [m1])
    exact ((HeldRc.of_same s1).trans r.rc).trans (.of_same (c2.trans e.rc))
  · intro v hv
    have : u.nodes = t.nodes := by rw [e.rest, c1]
    rw [this] at hv
    obtain ⟨w, hw, f⟩ := r.nodes n v hv
    rw [f]
    exact m2 w hw

/-- A region fails (R80, R96, R240). -/
theorem State.failRegion_spec {s : State} {k : Nat} {g : Region} (hg : s.regionAt k = some g) :
    (s.failRegion k).posts = s.posts ∧ (∀ r ∈ (s.failRegion k).regions, r.lead ≠ k) ∧ ((s.failRegion k).rc k).mode = .stopped ∧
    ((s.failRegion k).rc k).q = (s.rc k).q ∧
    (∀ v, aget (s.failRegion k).nodes g.node = some v → v.st = 4) ∧
    ((s.rc k).inPhase = true → ((s.failRegion k).rc k).inPhase = false ∧ ((s.failRegion k).rc k).ended = 2) := by
  unfold State.failRegion
  rw [hg]
  dsimp only
  generalize ht : (if (s.rc k).inPhase = true then s.endPhase k 2 false else s.reclaimFrames k) = t
  have hq : Quiet s t := by
    subst ht; split
    · exact .endPhase _ _ _ _
    · exact .reclaimFrames _ _
  have hrq : (t.rc k).q = (s.rc k).q := by
    subst ht; split
    · exact State.endPhase_q _ _ _ _ _
    · rfl
  obtain ⟨a1, a2, -, a3, a4⟩ := State.stopNode_spec (t.modRc k (fun r => { r with mode := .stopped })) g.node
  have b1 : (t.modRc k (fun r => { r with mode := .stopped })).posts = s.posts := hq ▸ rfl
  have b2 : (t.modRc k (fun r => { r with mode := .stopped })).rc k = { t.rc k with mode := .stopped } := by rw [State.rc_modRc, if_pos rfl]
  generalize t.modRc k (fun r => { r with mode := .stopped }) = v at a1 a2 a3 a4 b1 b2 ⊢
  generalize v.stopNode g.node = u at a1 a2 a3 a4 ⊢
  obtain ⟨h, l, hrc⟩ : ∃ h l, (u.freeRegion k).rc k = { t.rc k with mode := .stopped, held := h, loadHeld := l } :=
    ⟨(u.rc k).held, (u.rc k).loadHeld, by rw [show (u.freeRegion k).rc k = u.rc k from rfl, a3 k, b2]⟩
  refine ⟨a1.trans b1, ?_, ?_, ?_, a4, ?_⟩
  · intro r hr
    have : r ∈ u.regions.filter (fun r => r.lead != k) := hr
    simp at this; exact this.2
  · rw [hrc]
  · rw [hrc]; exact hrq
  · intro hp
    rw [hrc]
    rw [if_pos hp] at ht
    obtain ⟨w, hw⟩ := s.endPhase_rc k 2 false
    rw [← ht, hw]
    exact ⟨rfl, rfl⟩

/-- Every region controller is in a phase or not as before. -/
def SamePhase (s t : State) : Prop := ∀ k, (t.rc k).inPhase = (s.rc k).inPhase

theorem SamePhase.refl (s : State) : SamePhase s s := fun _ => rfl
theorem SamePhase.trans {s t u : State} (h : SamePhase s t) (g : SamePhase t u) : SamePhase s u := fun k => (g k).trans (h k)
theorem SamePhase.of_rc {s t : State} (h : SameRc s t) : SamePhase s t := fun k => congrArg Rc.inPhase (h k)
theorem SamePhase.modCore (s : State) (k : Nat) (f : Core → Core) (hf : ∀ c, (f c).rc.inPhase = c.rc.inPhase) : SamePhase s (s.modCore k f) := fun j => by
  simp only [State.rc, State.core_modCore]
  split
  · subst_vars; exact hf _
  · rfl
theorem SamePhase.modCell (s : State) (k l : Nat) (f : Cell → Cell) : SamePhase s (s.modCell k l f) := .modCore _ _ _ (fun _ => rfl)
theorem SamePhase.modEdge (s : State) (k l x e : Nat) (f : Edge → Edge) : SamePhase s (s.modEdge k l x e f) := by
  unfold State.modEdge
  split
  · exact .modCell _ _ _ _
  · split <;> exact .modCore _ _ _ (fun _ => rfl)
theorem SamePhase.modPort (s : State) (k l x p : Nat) (f : Port → Port) : SamePhase s (s.modPort k l x p f) := by
  unfold State.modPort
  split
  · exact .modCell _ _ _ _
  · exact .modCore _ _ _ (fun _ => rfl)
theorem SamePhase.ringTouch (s : State) (k h lead r : Nat) : SamePhase s (s.ringTouch k h lead r).1 := fun j => by
  unfold State.ringTouch State.touch16
  split
  · rfl
  · rename_i c hc
    simp only [State.rc, State.core_setCore]
    split
    · subst_vars; rw [State.check_rc hc]
    · rfl
theorem SamePhase.foldl {β : Type} (f : State → β → State) (hf : ∀ s b, SamePhase s (f s b)) (l : List β) (s : State) : SamePhase s (l.foldl f s) := by
  induction l generalizing s with
  | nil => exact .refl _
  | cons b l ih => exact (hf s b).trans (ih _)
theorem SamePhase.ringFree (s : State) (k r n : Nat) (c : Clr) : SamePhase s (s.ringFree k r n c) := by
  unfold State.ringFree
  have h : SamePhase s ((s.setRing k r { s.ringSt k r with taken := (s.ringSt k r).taken - 1, free := (s.ringSt k r).free + 1 }).slotMerge k r n c) :=
    (SamePhase.of_rc (.of_cores (State.setRing_cores _ _ _ _))).trans (.modCore _ _ _ (fun _ => rfl))
  dsimp only
  split
  · exact h.trans (.modCore _ _ _ (fun _ => rfl))
  · exact h
theorem SamePhase.ringVoid (s : State) (k r n : Nat) : SamePhase s (s.ringVoid k r n) := by
  unfold State.ringVoid State.modRc
  dsimp only
  refine (SamePhase.of_rc (.of_cores (State.setRing_cores s k r { s.ringSt k r with pending := (s.ringSt k r).pending - 1 }))).trans ?_
  apply SamePhase.modCore
  intro _; rfl
theorem SamePhase.setOrd (s : State) (k h : Nat) (o : Ord) : SamePhase s (s.setOrd k h o) := by
  unfold State.setOrd
  apply SamePhase.modCore
  intro _; rfl
theorem SamePhase.endRing (s : State) (k l : Nat) (t : Task) (d : Bool) : SamePhase s (s.endRing k l t d) := by
  unfold State.endRing
  split
  · exact .refl _
  · split
    · exact .refl _
    · split
      · split
        · exact SamePhase.trans (SamePhase.ringTouch _ _ _ _ _) (.ringVoid _ _ _ _)
        · exact .refl _
      · exact .modCell _ _ _ _
theorem SamePhase.giveRoom (s : State) (k l : Nat) (t : Task) : SamePhase s (s.giveRoom k l t) :=
  (SamePhase.foldl _ (fun _ _ => .modEdge _ _ _ _ _ _) _ _).trans (.foldl _ (fun _ _ => .modPort _ _ _ _ _ _) _ _)
theorem SamePhase.dropFrame (s : State) (k f : Nat) : SamePhase s (s.dropFrame k f) := .of_rc (.of_cores rfl)
theorem SamePhase.dropTask (s : State) (k l : Nat) (t : Task) : SamePhase s (s.dropTask k l t).1 := by
  unfold State.dropTask
  dsimp only
  refine SamePhase.trans ?_ (.giveRoom _ _ _ _)
  have h1 := SamePhase.endRing s k l t true
  cases t.newFrame with
  | none =>
    cases t.retRoom with
    | none => exact h1
    | some e => exact h1.trans (.modEdge _ _ _ _ _ _)
  | some f =>
    cases t.retRoom with
    | none => exact h1.trans (.dropFrame _ _ _)
    | some e => exact (h1.trans (.dropFrame _ _ _)).trans (.modEdge ((s.endRing k l t true).dropFrame k f) _ _ _ _ _)
theorem SamePhase.endTask (s : State) (k l : Nat) (d : Bool) : SamePhase s (s.endTask k l d) := by
  unfold State.endTask
  split
  · exact .refl _
  · rename_i t _
    cases d
    · simp only [Bool.false_eq_true, if_false]
      exact SamePhase.trans (SamePhase.trans (SamePhase.endRing _ _ _ _ _) (.giveRoom _ k l t)) (.modCell _ _ _ _)
    · simp only [if_true]
      exact (SamePhase.dropTask s k l t).trans (.modCell _ _ _ _)

end Sys2Proof.Machine
end

