-- ==== Sys2Proof/Laws/Rc.lean ====
section
/-! SUPPORT. What the operations of the region controller's instructions leave (R237 to R250). -/

namespace Sys2Proof.Machine

theorem OnlyRc.refl (s : State) (k : Nat) : OnlyRc s s k := ⟨rfl, fun _ _ => rfl, rfl⟩

theorem OnlyRc.trans {s t u : State} {k : Nat} (h : OnlyRc s t k) (g : OnlyRc t u k) : OnlyRc s u k where
  rest := by rw [g.rest, h.rest]
  cores j hj := (g.cores j hj).trans (h.cores j hj)
  core := by rw [g.core, h.core]

theorem State.only_modRc (s : State) (k : Nat) (f : Rc → Rc) : OnlyRc s (s.modRc k f) k where
  rest := rfl
  cores j hj := by unfold State.modRc; rw [State.core_modCore, if_neg hj]
  core := by
    rw [State.rc_modRc, if_pos rfl]
    unfold State.modRc
    rw [State.core_modCore, if_pos rfl]
    rfl

theorem RcTo.modRc (s : State) (f : Rc → Rc) : RcTo s (s.modRc s.fcore f) f := ⟨s.only_modRc _ _, by rw [State.rc_modRc, if_pos rfl]⟩
theorem RcTo.refl (s : State) : RcTo s s id := ⟨.refl _ _, rfl⟩
theorem RcTo.fcore {s t : State} {f : Rc → Rc} (h : RcTo s t f) : t.fcore = s.fcore := by rw [h.only.rest]
theorem RcTo.trans {s t u : State} {f g : Rc → Rc} (h : RcTo s t f) (k : RcTo t u g) : RcTo s u (g ∘ f) :=
  ⟨h.only.trans (h.fcore ▸ k.only), by have := k.rc; rw [h.fcore, h.rc] at this; exact this⟩

/-- A register that is written, or q0. -/
def Rc.wr (d : Nat) (v : W64) (r : Rc) : Rc := { r with q := if d = 0 then r.q else r.q.set d v }

theorem RcTo.setQ (s : State) (d v : Nat) : RcTo s (s.setQ s.fcore d v) (Rc.wr d (BitVec.ofNat 64 v)) := by
  unfold State.setQ
  split
  · subst_vars; exact .refl s
  · rename_i h
    have := RcTo.modRc s (fun r => { r with q := r.q.set d (BitVec.ofNat 64 v) })
    refine ⟨this.only, ?_⟩
    rw [this.rc]; simp [Rc.wr, h]

theorem RcTo.next (s : State) (n : Nat) : RcTo s (s.rcNext s.fcore n) (Rc.skip n) := .modRc s _

theorem RcTo.setQ_next (s : State) (d v n : Nat) : RcTo s ((s.setQ s.fcore d v).rcNext s.fcore n) (Rc.put d (BitVec.ofNat 64 v) n) := by
  have h := RcTo.setQ s d v
  have g := RcTo.next (s.setQ s.fcore d v) n
  rw [h.fcore] at g
  exact h.trans g

theorem RcTo.put (s : State) (d v : Nat) : RcTo s (s.rcPut d v) (Rc.put d (BitVec.ofNat 64 v) 4) := .setQ_next s d v 4

theorem RcTo.jump (s : State) (target : Nat) : RcTo s (s.jump s.fcore target) (fun r => { r with pc := target, loops := leaveLoops target r.loops }) := .modRc s _

theorem State.q_eq (s : State) (i : Nat) : s.q s.fcore i = (s.qv i).toNat := by
  unfold State.q State.qv
  split <;> rfl

theorem State.puts_rcPut (s : State) {i : Instr} {d v : Nat} {w : W64} (h : exec i s = .next (s.rcPut d v)) (hv : BitVec.ofNat 64 v = w) : s.Puts i d w 4 :=
  ⟨_, h, hv ▸ .put s d v⟩

/-- How a region fails (R80, R240). -/
theorem State.endRegion_spec (s : State) (k : Nat) : (s.endRegion k).posts = s.posts ∧ Failing s (s.endRegion k) k := by
  unfold State.endRegion
  rcases hg : s.regionAt k with _ | g
  · have hf : s.failRegion k = s.modRc k (fun r => { r with mode := .stopped }) := by unfold State.failRegion; rw [hg]
    simp only [Option.isSome_none, Bool.false_and, Bool.false_eq_true, if_false, hf]
    refine ⟨rfl, ?_, ?_, ?_, ?_, ?_⟩
    · rw [State.rc_modRc, if_pos rfl]
    · rw [State.rc_modRc, if_pos rfl]
    all_goals intro g h; rw [hg] at h; cases h
  · simp only [Option.isSome_some, Bool.true_and]
    split
    · next hp =>
      refine ⟨rfl, ?_, ?_, ?_, ?_, ?_⟩
      · rw [State.rc_modRc, if_pos rfl]
      · rw [State.rc_modRc, if_pos rfl]
      · intro _ _ _; rw [State.rc_modRc, if_pos rfl]; exact ⟨hp, rfl, rfl, rfl, rfl⟩
      all_goals intro _ _ h; rw [hp] at h; cases h
    · next hp =>
      obtain ⟨a1, a2, a3, a4, a5, -⟩ := State.failRegion_spec hg
      refine ⟨a1, a3, a4, ?_, ?_, ?_⟩
      · intro _ _ h; exact absurd h hp
      · intro g' h _; rw [hg] at h; cases h; exact a5
      · intro _ _ _; exact a2

/-- How an RC instruction faults (R240, R305), but for a race and what the race checker cannot hold (R96). -/
theorem State.rcFault_kernel (s : State) (c a : Nat) (hl : (s.rc s.fcore).level = 0) (hc : c ≠ 0x055 ∧ c ≠ 0x056) : RcFaulted s (s.rcFault s.fcore ⟨c, a, 0, false⟩) c a := by
  unfold State.rcFault State.terminate State.postRc
  simp only [hl, if_true, Bool.false_eq_true, if_false, hc.1, hc.2, or_self]
  generalize hp : s.postFault 2 1 s.fcore 48 c a 0 0 = p
  have hpo : p.posts = s.posts ++ [s.faultRecord 2 1 s.fcore 48 c a 0 0] := by subst hp; exact s.postFault_posts _ _ _ _ _ _ _ _
  have he := State.endRegion_spec p s.fcore
  refine ⟨?_, he.1.trans hpo⟩
  subst hp
  exact ⟨he.2.mode, he.2.q, he.2.phase, he.2.node, he.2.cores⟩

theorem State.rcFault_high (s : State) (c a : Nat) (hl : (s.rc s.fcore).level ≠ 0) : HighFaulted s (s.rcFault s.fcore ⟨c, a, 0, false⟩) c a := by
  unfold State.rcFault State.postRc
  rw [if_neg hl, if_neg hl]
  exact ⟨rfl, RcTo.modRc (s.post 16 0 (agentId s.fcore 48) (dieOf s.fcore % 4) _ false) _⟩

theorem State.stops {s : State} {i : Instr} {c a : Nat} (h : exec i s = .next (s.rcFault s.fcore ⟨c, a, 0, false⟩)) (hc : c ≠ 0x055 ∧ c ≠ 0x056) : s.Stops i c a :=
  ⟨_, h, fun l => s.rcFault_kernel c a l hc, s.rcFault_high c a⟩

theorem State.needLevel_low {s t : State} {l : Nat} (h : (s.rc s.fcore).level < l) : s.needLevel l t = s.rcFault s.fcore ⟨0x144, 0, 0, false⟩ := by
  unfold State.needLevel State.level
  rw [if_pos h]; rfl

theorem State.needLevel_ok {s t : State} {l : Nat} (h : l ≤ (s.rc s.fcore).level) : s.needLevel l t = t := by
  unfold State.needLevel State.level
  rw [if_neg (by omega)]

end Sys2Proof.Machine
end

