-- ==== Sys2Proof/Laws/Access.lean ====
section
/-! SUPPORT. What an access to scratchpad leaves alone (R94 to R104). -/

namespace Sys2Proof.Machine

theorem Noted.refl (s : State) : Noted s s := ⟨rfl, fun _ => rfl, fun _ => rfl⟩
theorem Noted.trans {s t u : State} (h : Noted s t) (g : Noted t u) : Noted s u where
  rest := by rw [g.rest, h.rest]
  cells k := (g.cells k).trans (h.cells k)
  rc k := (g.rc k).trans (h.rc k)
theorem Noted.fcore {s u : State} (h : Noted s u) : u.fcore = s.fcore := by rw [h.rest]

theorem Noted.setCore (s : State) (k : Nat) (c : Core) (hc : c.cells = (s.core k).cells) (hr : c.rc = (s.core k).rc) : Noted s (s.setCore k c) where
  rest := rfl
  cells j := by rw [State.core_setCore]; split <;> simp_all
  rc j := by simp only [State.rc, State.core_setCore]; split <;> simp_all

theorem Noted.modCore (s : State) (k : Nat) (f : Core → Core) (hc : ∀ c, (f c).cells = c.cells) (hr : ∀ c, (f c).rc = c.rc) : Noted s (s.modCore k f) :=
  .setCore s k _ (hc _) (hr _)

theorem Noted.withMem (s : State) (m : Memory) : Noted s { s with mem := m } := ⟨rfl, fun _ => rfl, fun _ => rfl⟩

theorem Noted.setOrd (s : State) (k h : Nat) (o : Ord) : Noted s (s.setOrd k h o) := .modCore s k _ (fun _ => rfl) (fun _ => rfl)

/-- A read without a race. -/
theorem State.loadAt_ok {s : State} {k hd : Nat} {h : Half} (hr : s.NoRace k hd h.core h.off h.n false 0 0 0) :
    ∃ u g, s.loadAt (s.agent k hd) h = (u, .ok (Memory.readN s.mem (spadBase h.core + h.off) h.n, g)) ∧ Noted s u ∧ u.mem = s.mem := by
  obtain ⟨c, hc⟩ := hr
  unfold State.loadAt
  rw [hc]
  exact ⟨_, _, rfl, .setCore s _ _ (State.check_cells hc) (State.check_rc hc), rfl⟩

theorem State.load_ok {s : State} {k hd addr n al : Nat} {tok : Bool} {h : Half} (hh : halves k addr n al tok = .ok [h]) (hr : s.NoRace k hd h.core h.off h.n false 0 0 0) :
    ∃ u g, s.load (s.agent k hd) k addr n al tok = (u, .ok (Memory.readN s.mem (spadBase h.core + h.off) h.n, g)) ∧ Noted s u ∧ u.mem = s.mem := by
  obtain ⟨u, g, h1, h2, h3⟩ := State.loadAt_ok hr
  refine ⟨u, g, ?_, h2, h3⟩
  unfold State.load
  rw [hh]
  simp [h1]

/-- The halves of an address that does not straddle: one, of the asked length. -/
theorem halves_n {k addr n al : Nat} {h : Half} (hh : halves k addr n al false = .ok [h]) : h.n = n := by
  unfold halves at hh
  split at hh
  · split at hh
    · simp at hh
    · split at hh
      · simp at hh
      · simp at hh; rw [← hh]
  · simp only [Bool.false_and, Bool.false_eq_true, if_false] at hh
    split at hh
    · simp at hh
    · split at hh
      · simp at hh
      · split at hh
        · simp at hh
        · simp at hh; rw [← hh]
  · simp at hh
  · simp at hh

theorem halves_group {k addr n al : Nat} {tok : Bool} {hs : List Half} (hh : halves k addr n al tok = .ok hs) : addr / 2 ^ 28 ≠ 2 := by
  intro h
  unfold halves at hh
  rw [h] at hh
  simp at hh

theorem wordsMasked_full (off n : Nat) (hn : 0 < n) : wordsMasked off (List.replicate n 255) = wordsOf off n := by
  unfold wordsMasked
  rw [List.length_replicate]
  apply List.filter_eq_self.2
  intro w hw
  simp only [wordsOf, List.mem_map, List.mem_range] at hw
  obtain ⟨i, hi, rfl⟩ := hw
  simp only [List.any_eq_true, List.mem_range, Bool.and_eq_true, decide_eq_true_eq]
  by_cases h0 : off ≤ 4 * (off / 4 + i)
  · refine ⟨0, by omega, by omega, ?_⟩
    rw [List.getD_eq_getElem?_getD, List.getElem?_replicate, if_pos (by omega)]; decide
  · refine ⟨off % 4, by omega, by omega, ?_⟩
    rw [List.getD_eq_getElem?_getD, List.getElem?_replicate, if_pos (by omega)]; decide

theorem Memory.writeMasked_full (m : Memory) (bs : List Byte) (a : Nat) : Memory.writeMasked m a bs (List.replicate bs.length 255) = Memory.writeN m a bs := by
  induction bs generalizing m a with
  | nil => rfl
  | cons b bs ih =>
    show Memory.writeMasked (if (255 : Byte) = 0 then m else Memory.write m a ((Memory.read m a &&& ~~~255) ||| (b &&& 255))) (a + 1) bs (List.replicate bs.length 255) = _
    have h2 : ∀ x : Byte, (x &&& ~~~255) ||| (b &&& 255) = b := fun x => by
      rw [show (~~~255 : Byte) = 0#8 by decide, show (255 : Byte) = BitVec.allOnes 8 by decide, BitVec.and_allOnes]; simp
    rw [if_neg (by decide), h2, ih]
    rfl

theorem Core.touchLines_cells (c : Core) (ws : List Nat) : (c.touchLines ws).cells = c.cells := rfl
theorem Core.touchLines_rc (c : Core) (ws : List Nat) : (c.touchLines ws).rc = c.rc := rfl

/-- A write without a race. -/
theorem State.storeAt_ok {s : State} {k hd core off : Nat} {bytes : List Byte} (hb : 0 < bytes.length) (hr : s.NoRace k hd core off bytes.length true 1 0 0) :
    ∃ u, s.storeAt (s.agent k hd) core off bytes (List.replicate bytes.length 255) = (u, .ok ()) ∧ Noted s u ∧ u.mem = Memory.writeN s.mem (spadBase core + off) bytes := by
  obtain ⟨c, hc⟩ := hr
  unfold State.storeAt
  dsimp only
  rw [wordsMasked_full _ _ hb, hc, Memory.writeMasked_full]
  refine ⟨_, rfl, ?_, rfl⟩
  exact (Noted.setCore s core (c.touchLines (wordsOf off bytes.length)) (State.check_cells (d := c) hc) (State.check_rc (d := c) hc)).trans (.withMem _ _)

theorem State.store_ok {s : State} {k hd addr al : Nat} {h : Half} {bytes : List Byte} (hb : 0 < bytes.length) (hh : halves k addr bytes.length al false = .ok [h])
    (hr : s.NoRace k hd h.core h.off bytes.length true 1 0 0) :
    ∃ u, s.store (s.agent k hd) k addr bytes (List.replicate bytes.length 255) al false = (u, .ok ()) ∧ Noted s u ∧
      u.mem = Memory.writeN s.mem (spadBase h.core + h.off) bytes := by
  obtain ⟨u, h1, h2, h3⟩ := State.storeAt_ok hb hr
  refine ⟨u, ?_, h2, h3⟩
  unfold State.store
  rw [if_neg (halves_group hh), hh]
  have hn := halves_n hh
  simp only [List.foldl_cons, List.foldl_nil, List.drop_zero, hn, List.take_length]
  rw [List.take_of_length_le (by simp), h1]
  rfl

theorem leBytes_length (n v : Nat) : (leBytes n v).length = n := by
  induction n generalizing v with
  | zero => rfl
  | succ n ih => simp [leBytes, ih]

theorem RcTo.of_noted {s u t : State} {f : Rc → Rc} (hn : Noted s u) (h : RcTo u t f) : (∀ k, t.rc k = if k = s.fcore then f (s.rc k) else s.rc k) := by
  intro k
  split
  · subst_vars; have := h.rc; rw [hn.fcore] at this; rw [this, hn.rc]
  · rename_i hk
    have := h.only.cores k (by rw [hn.fcore]; exact hk)
    rw [← hn.rc k]; unfold State.rc; rw [this]

theorem RcTo.mem {s t : State} {f : Rc → Rc} (h : RcTo s t f) : t.mem = s.mem := by rw [h.only.rest]

theorem State.acquire_noted {s u : State} {k h : Nat} {c : Clr} {r : Except Fail Unit} (hq : s.acquire k h c = (u, r)) : Noted s u ∧ u.mem = s.mem := by
  unfold State.acquire at hq
  dsimp only at hq
  split at hq
  · cases hq; exact ⟨.refl s, rfl⟩
  · cases hq; exact ⟨.setOrd _ _ _ _, rfl⟩

theorem State.release_noted (s : State) (k h : Nat) : Noted s (s.release k h).1 ∧ (s.release k h).1.mem = s.mem := ⟨.setOrd _ _ _ _, rfl⟩

theorem State.fence_noted {s u : State} {k h order : Nat} {r : Except Fail Unit} (hq : s.fence k h order = (u, r)) : Noted s u ∧ u.mem = s.mem := by
  unfold State.fence at hq
  dsimp only at hq
  generalize h1 : (if order / 2 % 2 = 1 then (s.release k h).1.setOrd k h { (s.release k h).1.ord k h with frel := some (s.release k h).2 } else s) = s1 at hq
  have hs : Noted s s1 ∧ s1.mem = s.mem := by
    subst h1
    split
    · exact ⟨(State.release_noted s k h).1.trans (.setOrd _ _ _ _), rfl⟩
    · exact ⟨.refl s, rfl⟩
  split at hq
  · rcases ha : s1.acquire k h (s1.ord k h).seen with ⟨v, x⟩
    rw [ha] at hq
    have hv := State.acquire_noted ha
    cases x with
    | ok _ => cases hq; exact ⟨(hs.1.trans hv.1).trans (.setOrd _ _ _ _), hv.2.trans hs.2⟩
    | error f => cases hq; exact ⟨.refl s, rfl⟩
  · cases hq; exact hs

/-- A relaxed atomic that releases nothing and does not race: the old value, what it writes. -/
theorem State.atomicBy_ok {s : State} {k hd core off n op x cmp scope : Nat} (hf : (s.ord k hd).frel = none)
    (hr : s.NoRace k hd core off n (atomicNew op n (Memory.readNat s.mem (spadBase core + off) n) x cmp).isSome 2 n scope) :
    ∃ u, s.atomicBy k hd core off n op x cmp 0 scope = (u, .ok (Memory.readNat s.mem (spadBase core + off) n)) ∧ Noted s u ∧
      u.mem = match atomicNew op n (Memory.readNat s.mem (spadBase core + off) n) x cmp with
        | some v => Memory.writeN s.mem (spadBase core + off) (leBytes n v)
        | none => s.mem := by
  obtain ⟨c, hc⟩ := hr
  unfold State.atomicBy
  simp only [Nat.zero_div, Nat.zero_mod, zero_ne_one, if_false, hf]
  unfold State.atomicAt
  dsimp only
  rw [hc]
  dsimp only
  cases atomicNew op n (Memory.readNat s.mem (spadBase core + off) n) x cmp with
  | none =>
    refine ⟨_, rfl, ?_, rfl⟩
    exact (Noted.setCore s core c (State.check_cells hc) (State.check_rc hc)).trans (.setOrd _ _ _ _)
  | some v =>
    refine ⟨_, rfl, ?_, rfl⟩
    refine Noted.trans ?_ (.setOrd _ _ _ _)
    exact (Noted.setCore s core (c.touchLines (wordsOf off n)) (State.check_cells (d := c) hc) (State.check_rc (d := c) hc)).trans (.withMem _ _)

theorem State.loadAt_noted {s t : State} {a : Agent} {h : Half} {r : Except Fail (List Byte × List Bool)} (hq : s.loadAt a h = (t, r)) : Noted s t ∧ t.mem = s.mem := by
  unfold State.loadAt at hq
  split at hq
  · cases hq; exact ⟨.refl s, rfl⟩
  · rename_i c hc; cases hq; exact ⟨.setCore s _ _ (State.check_cells hc) (State.check_rc hc), rfl⟩

theorem foldl_inv {α β : Type} {P : α → Prop} {f : α → β → α} (hf : ∀ a b, P a → P (f a b)) (l : List β) (a : α) (ha : P a) : P (l.foldl f a) := by
  induction l generalizing a with
  | nil => exact ha
  | cons b l ih => exact ih _ (hf _ _ ha)

/-- A load changes the records alone, however it ends. -/
theorem State.load_noted {s t : State} {a : Agent} {k addr n al : Nat} {tok : Bool} {r : Except Fail (List Byte × List Bool)}
    (hq : s.load a k addr n al tok = (t, r)) : Noted s t ∧ t.mem = s.mem := by
  unfold State.load at hq
  split at hq
  · cases hq; exact ⟨.refl s, rfl⟩
  · rename_i hs _
    refine (congrArg (fun q : Did (List Byte × List Bool) => Noted s q.1 ∧ q.1.mem = s.mem) hq).mp (foldl_inv (P := fun q : Did (List Byte × List Bool) => Noted s q.1 ∧ q.1.mem = s.mem) ?_ hs (s, .ok ([], [])) ⟨.refl s, rfl⟩)
    rintro ⟨u, r⟩ x h
    dsimp only at h ⊢
    split
    · simp_all
    · rename_i v b d he
      cases he
      split
      · rename_i w f hl
        have hv := State.loadAt_noted hl
        exact ⟨h.1.trans hv.1, hv.2.trans h.2⟩
      · rename_i w b' d' hl
        have hv := State.loadAt_noted hl
        exact ⟨h.1.trans hv.1, hv.2.trans h.2⟩

end Sys2Proof.Machine
end

