-- ==== Sys2Proof/Laws/Ports.lean ====
section
/-! SUPPORT. What the updates of ports, edges and contexts leave of one another. -/

namespace Sys2Proof.Machine

theorem getD_modify {α : Type} (l : List α) (n m : Nat) (f : α → α) (d : α) :
    (l.modify n f).getD m d = if m = n then (if n < l.length then f (l.getD n d) else d) else l.getD m d := by
  simp only [List.getD_eq_getElem?_getD, List.getElem?_modify]
  by_cases h : m = n
  · subst h
    simp only [if_true]
    by_cases hl : m < l.length
    · simp [hl]
    · simp [hl]
  · simp only [h, Ne.symm h, if_false]
    cases l[m]? <;> rfl

theorem State.ctx_modCtx (s : State) (k l x i j y : Nat) (f : Ctx → Ctx) (h : x < (s.cell k l).ctxs.length) :
    (s.modCtx k l x f).ctx i j y = if i = k ∧ j = l ∧ y = x then f (s.ctx k l x) else s.ctx i j y := by
  unfold State.modCtx State.ctx
  rw [State.cell_modCell]
  by_cases hk : i = k ∧ j = l
  · rw [if_pos hk, Cell.ctx_modCtx _ _ _ _ h, hk.1, hk.2]
    simp
  · rw [if_neg hk, if_neg (fun h => hk ⟨h.1, h.2.1⟩)]

/-- Fields of a cell outside its contexts. -/
theorem State.cell_modCtx (s : State) (k l x i j : Nat) (f : Ctx → Ctx) :
    (s.modCtx k l x f).cell i j = if i = k ∧ j = l then (s.cell k l).modCtx x f else s.cell i j := State.cell_modCell s k l i j _

theorem State.ctxs_length (s : State) (k l x i j : Nat) (f : Ctx → Ctx) : ((s.modCtx k l x f).cell i j).ctxs.length = (s.cell i j).ctxs.length := by
  rw [State.cell_modCtx]
  split
  · rename_i h; rw [h.1, h.2]; simp [Cell.modCtx]
  · rfl

theorem State.rc_modCtx (s : State) (k l x j : Nat) (f : Ctx → Ctx) : (s.modCtx k l x f).rc j = s.rc j := State.rc_modCell s k l j _

theorem State.ctx_modPort {s : State} {k l x p : Nat} (h : s.HasPort k l x p) (i j y : Nat) (f : Port → Port) :
    (s.modPort k l x p f).ctx i j y = if i = k ∧ j = l ∧ y = x then { s.ctx k l x with ports := (s.ctx k l x).ports.modify p f } else s.ctx i j y := by
  unfold State.modPort
  rw [if_pos h.1, State.ctx_modCtx _ _ _ _ _ _ _ _ h.2.1]

theorem State.port_modPort {s : State} {k l x p : Nat} (h : s.HasPort k l x p) (q : Nat) (f : Port → Port) :
    (s.modPort k l x p f).port k l x q = if q = p then f (s.port k l x p) else s.port k l x q := by
  have hp := h.2.2
  unfold State.port
  rw [if_pos h.1, if_pos h.1, if_pos h.1, State.ctx_modPort h, if_pos ⟨rfl, rfl, rfl⟩, getD_modify, if_pos hp]

theorem State.ctx_modEdge_any {s : State} {k l x : Nat} (hl : l < 32) (hx : x < (s.cell k l).ctxs.length) (e i j y : Nat) (f : Edge → Edge) :
    (s.modEdge k l x e f).ctx i j y = if i = k ∧ j = l ∧ y = x then { s.ctx k l x with edges := (s.ctx k l x).edges.modify e f } else s.ctx i j y := by
  unfold State.modEdge
  rw [if_pos hl, State.ctx_modCtx _ _ _ _ _ _ _ _ hx]

theorem State.ctx_modEdge {s : State} {k l x e : Nat} (h : s.HasEdge k l x e) (i j y : Nat) (f : Edge → Edge) :
    (s.modEdge k l x e f).ctx i j y = if i = k ∧ j = l ∧ y = x then { s.ctx k l x with edges := (s.ctx k l x).edges.modify e f } else s.ctx i j y :=
  State.ctx_modEdge_any h.1 h.2.1 e i j y f

theorem State.ctxs_modEdge (s : State) {k l x : Nat} (hl : l < 32) (e i j : Nat) (f : Edge → Edge) : ((s.modEdge k l x e f).cell i j).ctxs.length = (s.cell i j).ctxs.length := by
  unfold State.modEdge; rw [if_pos hl, State.ctxs_length]

theorem State.edge_modEdge {s : State} {k l x e : Nat} (h : s.HasEdge k l x e) (q : Nat) (f : Edge → Edge) :
    (s.modEdge k l x e f).edge k l x q = if q = e then f (s.edge k l x e) else s.edge k l x q := by
  have hp := h.2.2
  unfold State.edge
  rw [if_pos h.1, if_pos h.1, if_pos h.1, State.ctx_modEdge h, if_pos ⟨rfl, rfl, rfl⟩, getD_modify, if_pos hp]

theorem State.HasPort.modPort {s : State} {k l x p : Nat} (h : s.HasPort k l x p) (q : Nat) (f : Port → Port) (hq : q < (s.ctx k l x).ports.length) :
    (s.modPort k l x q f).HasPort k l x p := by
  have hq' : s.HasPort k l x q := ⟨h.1, h.2.1, hq⟩
  refine ⟨h.1, ?_, ?_⟩
  · unfold State.modPort; rw [if_pos h.1, State.ctxs_length]; exact h.2.1
  · rw [State.ctx_modPort hq', if_pos ⟨rfl, rfl, rfl⟩]; simpa using h.2.2

theorem State.HasEdge.modEdge {s : State} {k l x p : Nat} (h : s.HasEdge k l x p) (q : Nat) (f : Edge → Edge) (hq : q < (s.ctx k l x).edges.length) :
    (s.modEdge k l x q f).HasEdge k l x p := by
  have hq' : s.HasEdge k l x q := ⟨h.1, h.2.1, hq⟩
  refine ⟨h.1, ?_, ?_⟩
  · unfold State.modEdge; rw [if_pos h.1, State.ctxs_length]; exact h.2.1
  · rw [State.ctx_modEdge hq', if_pos ⟨rfl, rfl, rfl⟩]; simpa using h.2.2

theorem State.HasPort.of_ctx {s t : State} {k l x p : Nat} (h : s.HasPort k l x p) (hc : (t.cell k l).ctxs.length = (s.cell k l).ctxs.length)
    (hx : (t.ctx k l x).ports.length = (s.ctx k l x).ports.length) : t.HasPort k l x p := ⟨h.1, hc ▸ h.2.1, hx ▸ h.2.2⟩

/-- Updates of a port or an edge leave everything but cores as it was. -/
theorem State.modPort_rest (s : State) (k l x p : Nat) (f : Port → Port) : s.modPort k l x p f = { s with cores := (s.modPort k l x p f).cores } := by
  unfold State.modPort; split <;> rfl
theorem State.modEdge_rest (s : State) (k l x e : Nat) (f : Edge → Edge) : s.modEdge k l x e f = { s with cores := (s.modEdge k l x e f).cores } := by
  unfold State.modEdge; repeat' split
  all_goals rfl

theorem State.pushPort_rest (s : State) (d : Dest) (e : Nat) (t : Token) (c : Clr) (h : List HostPub) : s.pushPort d e t c h = { s with cores := (s.pushPort d e t c h).cores } := by
  unfold State.pushPort
  dsimp only
  split
  · rw [State.modPort_rest]; rfl
  · rw [State.modPort_rest]; rfl

theorem SameRc.modPort (s : State) (k l x p : Nat) (f : Port → Port) : SameRc s (s.modPort k l x p f) := by
  unfold State.modPort
  split
  · exact fun j => State.rc_modCtx s k l x j _
  · exact .modCore _ _ _ (fun _ => rfl)
theorem SameRc.modEdge (s : State) (k l x p : Nat) (f : Edge → Edge) : SameRc s (s.modEdge k l x p f) := by
  unfold State.modEdge
  repeat' split
  · exact fun j => State.rc_modCtx s k l x j _
  · exact .modCore _ _ _ (fun _ => rfl)
  · exact .modCore _ _ _ (fun _ => rfl)

theorem State.failRegion_posts (s : State) (k : Nat) : (s.failRegion k).posts = s.posts := by
  cases hg : s.regionAt k with
  | none => unfold State.failRegion; rw [hg]; rfl
  | some g => exact (State.failRegion_spec hg).1

theorem State.terminate_posts (s : State) (k c : Nat) : (s.terminate k c).posts = s.posts := by
  unfold State.terminate
  split
  · exact s.failRegion_posts k
  · exact (s.endRegion_spec k).1

/-- The record of an engine's fault (R342). -/
theorem State.engineFault_posts (s : State) (k loc kind c a d tag : Nat) :
    (s.engineFault k loc kind ⟨c, a, d, false⟩ tag).posts = s.posts ++ [s.faultRecord 2 kind k loc c a d tag] := by
  unfold State.engineFault
  rw [if_neg (by simp), State.terminate_posts, State.postFault_posts]

end Sys2Proof.Machine
end

