-- ==== Sys2Proof/Laws/Events.lean ====
section
/-! SUPPORT. What the operations of events do: a token at a port, EOS and markers, frontier registers, tokens that enter edges. -/

namespace Sys2Proof.Machine

theorem reach_spec (v : State) (d : Dest) (key : Nat) (t : Token) (hp : v.HasPort d.core d.loc d.ctx d.port) :
    let w := v.portWord d.core d.loc d.ctx d.port
    let u := v.reach d key t []
    let rc := v.rc (v.leadOf d.core)
    let refused (c : Nat) : Prop :=
      u.posts = v.posts ++ [v.faultRecord 0 0 d.core d.loc c 0 0 (tagWord t.iter t.frame d.ctx t.cls)] ∧ u.fifoAt d.core d.loc d.ctx d.port = v.fifoAt d.core d.loc d.ctx d.port
    if t.kind = .notice ∨ (t.kind = .mark ∧ pwMark w t.cls = false) then refused 0x020
    else if (pwEos w = 3 ∧ t.kind ≠ .mark ∧ rc.inPhase = false ∧ rc.phase ≠ 0) ∨ (t.kind = .eos ∧ pwEos w = 2) then refused 0x0E5
    else if t.kind = .eos ∧ pwEos w = 1 ∧ pwRec w = false then u.posts = v.posts ∧ u.fifoAt d.core d.loc d.ctx d.port = v.fifoAt d.core d.loc d.ctx d.port
    else u.posts = v.posts ∧ JoinedAt v u d key t := by
  intro w u rc refused
  have hl := hp.1
  set cut : State → State := fun s => if t.kind = .data then s else s.modPort d.core d.loc d.ctx d.port (fun p => { p with got := 0 }) with hcut
  have cutF : (cut v).fifoAt d.core d.loc d.ctx d.port = v.fifoAt d.core d.loc d.ctx d.port := by
    rw [hcut]; dsimp only; split
    · rfl
    · unfold State.fifoAt; rw [State.port_modPort hp, if_pos rfl]
  have cutR : cut v = { v with cores := (cut v).cores } := by
    rw [hcut]; dsimp only; split
    · rfl
    · exact State.modPort_rest _ _ _ _ _ _
  have href : ∀ c, u = (cut v).infoFault d.core d.loc 0 c 0 (tagWord t.iter t.frame d.ctx t.cls) → refused c := by
    intro c hu
    refine ⟨?_, ?_⟩
    · rw [hu]; unfold State.infoFault; rw [State.postFault_posts, cutR]; rfl
    · rw [hu]; exact cutF
  have hin : v.inWord d.core d.loc d.ctx d.port = w := if_pos hl
  have hpush : u = v.pushPort d key t [] [] → u.posts = v.posts ∧ JoinedAt v u d key t := by
    intro hu
    rw [hu]
    refine ⟨by rw [State.pushPort_rest], ?_⟩
    unfold State.pushPort JoinedAt State.fifoAt
    dsimp only
    rw [if_pos hl]
    have hp' : (v.modCell d.core d.loc (fun c => { c with arr := (v.cell d.core d.loc).arr + 1 })).HasPort d.core d.loc d.ctx d.port := by
      refine hp.of_ctx ?_ ?_
      · rw [State.cell_modCell, if_pos ⟨rfl, rfl⟩]
      · unfold State.ctx; rw [State.cell_modCell, if_pos ⟨rfl, rfl⟩]; rfl
    have hsame : (v.modCell d.core d.loc (fun c => { c with arr := (v.cell d.core d.loc).arr + 1 })).port d.core d.loc d.ctx d.port = v.port d.core d.loc d.ctx d.port := by
      unfold State.port State.ctx
      rw [if_pos hl, if_pos hl, State.cell_modCell, if_pos ⟨rfl, rfl⟩]; rfl
    rw [State.port_modPort hp', if_pos rfl, hsame]
    unfold Port.push
    split
    · exact ⟨_, rfl, rfl, rfl, rfl, rfl, rfl, rfl⟩
    · exact ⟨_, rfl, rfl, rfl, rfl, rfl, rfl, rfl⟩
  have hu0 : u = (if refusesMark w t ∨ t.kind = .notice then (cut v).infoFault d.core d.loc 0 0x020 0 (tagWord t.iter t.frame d.ctx t.cls)
      else if pwEos w = 3 ∧ (t.kind = .data ∨ t.kind = .eos) ∧ !rc.inPhase ∧ rc.phase ≠ 0 then (cut v).infoFault d.core d.loc 0 0x0E5 0 (tagWord t.iter t.frame d.ctx t.cls)
      else if t.kind = .eos ∧ pwEos w = 2 then (cut v).infoFault d.core d.loc 0 0x0E5 0 (tagWord t.iter t.frame d.ctx t.cls)
      else if t.kind = .eos ∧ pwEos w = 1 ∧ !pwRec w then cut v
      else v.pushPort d key t [] []) := by
    show v.reach d key t [] = _
    unfold State.reach
    dsimp only
    rw [hin, if_pos hl, if_neg (by omega : ¬ 32 ≤ d.loc)]
  have hm : (refusesMark w t = true ∨ t.kind = .notice) ↔ (t.kind = .notice ∨ (t.kind = .mark ∧ pwMark w t.cls = false)) := by
    unfold refusesMark
    simp only [Bool.and_eq_true, beq_iff_eq, Bool.not_eq_true']
    exact or_comm
  split
  · rename_i h1
    apply href; rw [hu0, if_pos (hm.2 h1)]
  · rename_i h1
    rw [if_neg (fun h => h1 (hm.1 h))] at hu0
    have hk : t.kind ≠ .notice := fun h => h1 (.inl h)
    have hde : (t.kind = .data ∨ t.kind = .eos) ↔ t.kind ≠ .mark := by
      rcases htk : t.kind with _ | _ | _ | _
      · simp
      · simp
      · simp
      · exact absurd htk hk
    split
    · rename_i h2
      apply href
      rcases h2 with ⟨a, b, c, e⟩ | h2
      · rw [hu0, if_pos ⟨a, hde.2 b, by simp [c], e⟩]
      · rw [hu0, if_pos h2]; split <;> rfl
    · rename_i h2
      rw [if_neg (fun h => h2 (.inl ⟨h.1, hde.1 h.2.1, by simpa using h.2.2.1, h.2.2.2⟩)), if_neg (fun h => h2 (.inr h))] at hu0
      split
      · rename_i h3
        rw [if_pos ⟨h3.1, h3.2.1, by simp [h3.2.2]⟩] at hu0
        rw [hu0]; exact ⟨by rw [cutR], cutF⟩
      · rename_i h3
        rw [if_neg (fun h => h3 ⟨h.1, h.2.1, by simpa using h.2.2⟩)] at hu0
        exact hpush hu0

theorem regionAt_congr {s t : State} (h : t.regions = s.regions) (k : Nat) : t.regionAt k = s.regionAt k := by unfold State.regionAt; rw [h]

theorem popPort_port {s : State} {k l x p : Nat} (h : s.HasPort k l x p) : (s.popPort k l x p).fifoAt k l x p = (s.fifoAt k l x p).drop 1 := by
  unfold State.fifoAt State.popPort; rw [State.port_modPort h, if_pos rfl]

theorem sameRc_queueAdvance (s : State) (k fn : Nat) (f : List Time) (i : W16) : SameRc s (s.queueAdvance k fn f i) := by
  have hm : ∀ (s : State) h (g : Hist → Hist), SameRc s (s.modHist k h g) := fun s h g => .modCore s k _ (fun _ => rfl)
  unfold State.queueAdvance
  dsimp only
  refine SameRc.trans (SameRc.trans (SameRc.foldl _ ?_ _ _) (SameRc.foldl _ ?_ _ _)) (SameRc.foldl _ ?_ _ _)
  · intro s b; split
    · exact hm _ _ _
    · exact .refl _
  · intro s b; repeat' split
    all_goals first | exact .refl _ | exact hm _ _ _ | exact (hm _ _ _).trans (hm _ _ _)
  · intro s b; split
    · exact hm _ _ _
    · exact .refl _

theorem modCtx_rest (s : State) (k l x : Nat) (f : Ctx → Ctx) : s.modCtx k l x f = { s with cores := (s.modCtx k l x f).cores } := rfl

theorem modCtx_port (s : State) (k l x : Nat) (f : Ctx → Ctx) (hf : ∀ c, (f c).ports = c.ports) {p : Nat} (h : s.HasPort k l x p) : (s.modCtx k l x f).port k l x p = s.port k l x p := by
  unfold State.port; rw [if_pos h.1, if_pos h.1, State.ctx_modCtx _ _ _ _ _ _ _ _ h.2.1, if_pos ⟨rfl, rfl, rfl⟩, hf]

theorem portWord_mem {s t : State} (h : t.mem = s.mem) (k l x p : Nat) : t.portWord k l x p = s.portWord k l x p := by
  simp [State.portWord, State.recd, h]

theorem popPort_rest (s : State) (k l x p : Nat) : s.popPort k l x p = { s with cores := (s.popPort k l x p).cores } := State.modPort_rest _ _ _ _ _ _

theorem takeEos_spec {s : State} {k l x p : Nat} (h : s.HasPort k l x p) (t : PortTok) (hr : pwRec (s.portWord k l x p) = false) :
    let u := s.takeEos k l x p t
    let w := s.portWord k l x p
    u.posts = s.posts ∧ u.fifoAt k l x p = (s.fifoAt k l x p).drop 1 ∧ (u.port k l x p).eosN = (s.port k l x p).eosN + 1 ∧
      (u.port k l x p).eos = ((s.port k l x p).eos || ((s.port k l x p).eosN + 1) % max 1 (pwEosn w) == 0) ∧ u.HasPort k l x p ∧
      (∀ y, (u.ctx k l y).sink = (s.ctx k l y).sink) ∧ u.mem = s.mem := by
  intro u w
  have hu : u = (s.popPort k l x p).modPort k l x p (fun q => { q with eosN := (s.port k l x p).eosN + 1, eos := (q.eos || ((s.port k l x p).eosN + 1) % max 1 (pwEosn w) == 0), eosArr := if ((s.port k l x p).eosN + 1) % max 1 (pwEosn w) == 0 then max q.eosArr t.arr else q.eosArr }) := by
    show s.takeEos k l x p t = _
    unfold State.takeEos; dsimp only; rw [hr]; simp only [Bool.and_false, Bool.false_eq_true, if_false]; rfl
  have h1 : (s.popPort k l x p).HasPort k l x p := h.modPort _ _ h.2.2
  have hp1 : (s.popPort k l x p).port k l x p = { s.port k l x p with fifo := (s.port k l x p).fifo.drop 1 } := by
    unfold State.popPort; rw [State.port_modPort h, if_pos rfl]
  have hpu : u.port k l x p = { s.port k l x p with fifo := (s.port k l x p).fifo.drop 1, eosN := (s.port k l x p).eosN + 1, eos := ((s.port k l x p).eos || ((s.port k l x p).eosN + 1) % max 1 (pwEosn w) == 0), eosArr := if ((s.port k l x p).eosN + 1) % max 1 (pwEosn w) == 0 then max (s.port k l x p).eosArr t.arr else (s.port k l x p).eosArr } := by rw [hu, State.port_modPort h1, if_pos rfl, hp1]
  refine ⟨?_, ?_, ?_, ?_, ?_, ?_, ?_⟩
  · rw [hu, State.modPort_rest]; show (s.popPort k l x p).posts = _; rw [popPort_rest]
  · unfold State.fifoAt; rw [hpu]
  · rw [hpu]
  · rw [hpu]
  · rw [hu]; exact h1.modPort _ _ h1.2.2
  · intro y; rw [hu, State.ctx_modPort h1]
    split
    · rename_i hy; rw [hy.2.2]; show ((s.popPort k l x p).ctx k l x).sink = _
      unfold State.popPort; rw [State.ctx_modPort h, if_pos ⟨rfl, rfl, rfl⟩]
    · unfold State.popPort; rw [State.ctx_modPort h, if_neg ‹_›]
  · rw [hu, State.modPort_rest]; show (s.popPort k l x p).mem = _; rw [popPort_rest]

theorem fillSlot_spec {s : State} {k l x : Nat} (hx : x < (s.cell k l).ctxs.length) (t : Token) :
    let u := s.fillSlot k l x t
    (u.ctx k l x).slot = some t ∧ (∀ p, s.HasPort k l x p → u.fifoAt k l x p = s.fifoAt k l x p) ∧ (∀ j, u.rc j = s.rc j) ∧ u.posts = s.posts ++ (match (s.ctx k l x).slot with
        | some o => if o.cls = 1 ∨ o.cls = 3 then [s.faultRecord 0 0 k l 0x01E 0 0 (tagWord o.iter o.frame x o.cls)] else []
        | none => []) := by
  intro u
  set s1 : State := match (s.ctx k l x).slot with
    | some o => if o.cls = 1 ∨ o.cls = 3 then s.infoFault k l 0 0x01E 0 (tagWord o.iter o.frame x o.cls) else s
    | none => s with hs1
  have hu : u = s1.modCtx k l x (fun c => { c with slot := some t }) := rfl
  have hc : s1.cores = s.cores := by
    rw [hs1]; split
    · split <;> rfl
    · rfl
  have hcell : ∀ k l, s1.cell k l = s.cell k l := fun k l => by unfold State.cell State.core; rw [hc]
  have hx1 : x < (s1.cell k l).ctxs.length := by rw [hcell]; exact hx
  refine ⟨?_, ?_, ?_, ?_⟩
  · rw [hu, State.ctx_modCtx _ _ _ _ _ _ _ _ hx1, if_pos ⟨rfl, rfl, rfl⟩]
  · intro p hp
    unfold State.fifoAt
    have hp1 : s1.HasPort k l x p := hp.of_ctx (by rw [hcell]) (by unfold State.ctx; rw [hcell])
    rw [hu, modCtx_port _ _ _ _ _ (by intro c; rfl) hp1]
    unfold State.port State.ctx; rw [if_pos hp.1, if_pos hp.1, hcell]
  · intro j; rw [hu, State.rc_modCtx]; unfold State.rc State.core; rw [hc]
  · rw [hu, modCtx_rest]; show s1.posts = _; rw [hs1]
    split
    · split
      · exact State.postFault_posts _ _ _ _ _ _ _ _ _
      · simp
    · simp

theorem setFrontier_spec (s : State) (lead fn : Nat) (f : List (Nat × Nat)) (i : W16) :
    ((s.setFrontier lead fn f i).rc lead).fns = (if (s.rc lead).fns.getD fn [] = f then (s.rc lead).fns else (s.rc lead).fns.set fn f) := by
  unfold State.setFrontier
  split
  · rfl
  · dsimp only
    rw [SameRc.foldl (fun s k => if isKeyed k then s.queueAdvance k fn f i else s) (fun s b => by split; exact sameRc_queueAdvance _ _ _ _ _; exact .refl _)]
    unfold State.latch
    rw [State.rc_modRc, if_pos rfl]
    show ((s.modRc lead _).rc lead).fns = _
    rw [State.rc_modRc, if_pos rfl]

/-- Histories only. -/
theorem State.cell_queueAdvance (s : State) (k fn : Nat) (f : List Time) (i : W16) (a b : Nat) : (s.queueAdvance k fn f i).cell a b = s.cell a b := by
  have hm : ∀ (s : State) k h (g : Hist → Hist), (s.modHist k h g).cell a b = s.cell a b := by
    intro s k h g; unfold State.modHist State.cell; rw [State.core_modCore]; split
    · rename_i e; rw [e]
    · rfl
  unfold State.queueAdvance
  dsimp only
  rw [foldl_keeps (fun s : State => s.cell a b), foldl_keeps (fun s : State => s.cell a b), foldl_keeps (fun s : State => s.cell a b)]
  · intro s b; split
    · exact hm _ _ _ _
    · rfl
  · intro s b; repeat' split
    all_goals first | rfl | rw [hm, hm]
  · intro s b; split
    · exact hm _ _ _ _
    · rfl

theorem cell_setFrontier (s : State) (lead fn : Nat) (f : List (Nat × Nat)) (i : W16) (a b : Nat) : (s.setFrontier lead fn f i).cell a b = s.cell a b := by
  unfold State.setFrontier
  split
  · rfl
  · dsimp only
    rw [foldl_keeps (fun s : State => s.cell a b)]
    · unfold State.latch; rw [State.cell_modRc, State.cell_modRc]
    · intro s c; split
      · exact State.cell_queueAdvance _ _ _ _ _ _ _
      · rfl

/-- A token other than DATA enters an edge where nothing waits and the coalescing buffer holds nothing for it: the edge takes it, and nothing else of the
context changes. -/
theorem enterEos_spec {v : State} {k l x a : Nat} {t : Token} (hl : l < 32) (hx : x < (v.cell k l).ctxs.length) (hk : t.kind ≠ .data)
    (hw : ((v.ctx k l x).edges.getD a {}).waiting = []) (hc : (v.ctx k l x).coal.elems = []) :
    let u := v.enterEos k l x a t
    u.mem = v.mem ∧ (u.cell k l).ctxs.length = (v.cell k l).ctxs.length ∧ ∃ E, u.ctx k l x = { v.ctx k l x with edges := E } ∧ E.length = (v.ctx k l x).edges.length ∧
      ∀ e, E.getD e {} = if e = a ∧ a < (v.ctx k l x).edges.length then { (v.ctx k l x).edges.getD a {} with
          flight := ((v.ctx k l x).edges.getD a {}).flight ++ [((v.ctx k l x).edges.getD a {}).stamp (v.edgeWord k l x a) t], sent := 0, first := none }
        else (v.ctx k l x).edges.getD e {} := by
  intro u
  have hf : (v.ctx k l x).flushes a = false := by unfold Ctx.flushes; rw [hc]; rfl
  set v2 := v.modEdge k l x a (fun g => { g with waiting := g.waiting ++ [] ++ [t] }) with hv2
  have hu : u = v2.enterWaiting k l x a (v2.edge k l x a).waiting.length := by
    show v.enterEos k l x a t = _
    unfold State.enterEos; dsimp only; rw [hf]; simp only [Bool.false_eq_true, if_false]; rfl
  have hm2 : v2.mem = v.mem := by rw [hv2, State.modEdge_rest]
  have hn2 : (v2.cell k l).ctxs.length = (v.cell k l).ctxs.length := State.ctxs_modEdge v hl _ _ _ _
  have hc2 : v2.ctx k l x = { v.ctx k l x with edges := (v.ctx k l x).edges.modify a (fun g => { g with waiting := g.waiting ++ [] ++ [t] }) } := by
    rw [hv2, State.ctx_modEdge_any hl hx, if_pos ⟨rfl, rfl, rfl⟩]
  by_cases ha : a < (v.ctx k l x).edges.length
  · have he2 : v2.edge k l x a = { v.edge k l x a with waiting := [t] } := by
      rw [hv2, State.edge_modEdge ⟨hl, hx, ha⟩, if_pos rfl]
      have : (v.edge k l x a).waiting = [] := by unfold State.edge; rw [if_pos hl]; exact hw
      rw [this]; rfl
    set v3 := v2.modEdge k l x a (fun g => { g with waiting := [] }) with hv3
    have hu2 : u = v3.enter k l x a t := by
      rw [hu, he2]
      show v2.enterWaiting k l x a 1 = _
      unfold State.enterWaiting
      rw [he2]; dsimp only
      rw [if_neg (fun h => hk h.1)]
      unfold State.enterWaiting State.enterChecked State.enterFault
      dsimp only
      rw [if_pos hk]
    have hx2 : x < (v2.cell k l).ctxs.length := by rw [hn2]; exact hx
    have hm3 : v3.mem = v.mem := by rw [hv3, State.modEdge_rest]; exact hm2
    have hn3 : (v3.cell k l).ctxs.length = (v.cell k l).ctxs.length := (State.ctxs_modEdge v2 hl _ _ _ _).trans hn2
    have hx3 : x < (v3.cell k l).ctxs.length := by rw [hn3]; exact hx
    have hc3 : v3.ctx k l x = { v.ctx k l x with edges := ((v.ctx k l x).edges.modify a (fun g => { g with waiting := g.waiting ++ [] ++ [t] })).modify a (fun g => { g with waiting := [] }) } := by
      rw [hv3, State.ctx_modEdge_any hl hx2, if_pos ⟨rfl, rfl, rfl⟩, hc2]
    have hw3 : v3.edgeWord k l x a = v.edgeWord k l x a := mem_edgeWord hm3 k l x a
    refine ⟨?_, ?_, ?_⟩
    · rw [hu2]; unfold State.enter; rw [State.modEdge_rest]; exact hm3
    · rw [hu2]; unfold State.enter; rw [State.ctxs_modEdge v3 hl]; exact hn3
    · rw [hu2]; unfold State.enter; dsimp only
      rw [State.ctx_modEdge_any hl hx3, if_pos ⟨rfl, rfl, rfl⟩, hc3, hw3]
      refine ⟨_, rfl, by simp, fun e => ?_⟩
      rw [getD_modify, getD_modify, getD_modify]
      simp only [List.length_modify, ha, if_true, if_neg hk, and_true]
      by_cases hea : e = a
      · rw [if_pos hea, if_pos hea]
        generalize hg : (v.ctx k l x).edges.getD a {} = g at hw
        cases g; simp only at hw; subst hw; rfl
      · rw [if_neg hea, if_neg hea, getD_modify, if_neg hea, getD_modify, if_neg hea]
  · have hsame : (v.ctx k l x).edges.modify a (fun g => { g with waiting := g.waiting ++ [] ++ [t] }) = (v.ctx k l x).edges := by
      rw [List.modify_eq_self (by omega)]
    have he2 : (v2.edge k l x a).waiting = [] := by
      unfold State.edge; rw [if_pos hl, hc2, hsame]; exact hw
    have hu2 : u = v2 := by rw [hu, he2]; rfl
    rw [hu2]
    exact ⟨hm2, hn2, _, hc2, by simp, fun e => by rw [hsame, if_neg (fun h => ha h.2)]⟩

/-- An EOS enters each of several edges. -/
theorem fold_enter {k l x e : Nat} (t : Token) (hl : l < 32) (hk : t.kind ≠ .data) : ∀ (L : List Nat) (v : State), L.Nodup → x < (v.cell k l).ctxs.length →
    e < (v.ctx k l x).edges.length → (v.ctx k l x).coal.elems = [] → (∀ a, ((v.ctx k l x).edges.getD a {}).waiting = []) →
    let u := L.foldl (fun s e => s.enterEos k l x e t) v
    (u.ctx k l x).fwd = (v.ctx k l x).fwd ∧ (if e ∈ L then SentOn v u k l x e t else u.edge k l x e = v.edge k l x e)
  | [], v, _, _, _, _, _ => ⟨rfl, rfl⟩
  | a :: L, v, hn, hx, he, hc, hw => by
    intro u
    obtain ⟨hm, hcl, E, hE, hlen, hget⟩ := enterEos_spec hl hx hk (hw a) hc
    set v1 := v.enterEos k l x a t with hv1
    have hedge : v1.edge k l x e = if e = a ∧ a < (v.ctx k l x).edges.length then { v.edge k l x a with
        flight := (v.edge k l x a).flight ++ [(v.edge k l x a).stamp (v.edgeWord k l x a) t], sent := 0, first := none } else v.edge k l x e := by
      unfold State.edge; rw [if_pos hl, if_pos hl, if_pos hl, hE]; exact hget e
    obtain ⟨h1, h2⟩ := fold_enter (e := e) t hl hk L v1 (List.nodup_cons.1 hn).2 (by rw [hcl]; exact hx) (by rw [hE]; exact hlen ▸ he) (by rw [hE]; exact hc)
      (fun b => by
        rw [hE]; show (E.getD b {}).waiting = []
        rw [hget]; split
        · exact hw a
        · exact hw b)
    refine ⟨h1.trans (by rw [hE]), ?_⟩
    by_cases hea : e = a
    · subst hea
      rw [if_pos (List.mem_cons_self)]
      rw [if_neg (List.nodup_cons.1 hn).1] at h2
      unfold SentOn
      rw [show u = L.foldl (fun s e => s.enterEos k l x e t) v1 from rfl, h2, hedge, if_pos ⟨rfl, he⟩]
    · rw [if_neg (fun h => hea h.1)] at hedge
      by_cases hm' : e ∈ L
      · rw [if_pos (List.mem_cons_of_mem _ hm')]
        rw [if_pos hm'] at h2
        unfold SentOn at h2 ⊢
        rw [show u = L.foldl (fun s e => s.enterEos k l x e t) v1 from rfl, h2, hedge, mem_edgeWord hm]
      · rw [if_neg (by simp [hea, hm'])]
        rw [if_neg hm'] at h2
        rw [show u = L.foldl (fun s e => s.enterEos k l x e t) v1 from rfl, h2, hedge]

/-! ## Units -/

theorem State.hist_modHist (s : State) (k h : Nat) (f : Hist → Hist) : (s.modHist k h f).hist k h = f (s.hist k h) := by
  unfold State.modHist State.hist; rw [State.core_modCore, if_pos rfl]; simp

theorem State.matrix_modMatrix (s : State) (k : Nat) (f : Matrix → Matrix) (j : Nat) : (s.modMatrix k f).matrix j = if j = k then f (s.matrix k) else s.matrix j := by
  unfold State.modMatrix State.matrix; rw [State.core_modCore]; split <;> rfl

theorem State.only_modCore (s : State) (k : Nat) (f : Core → Core) : OnlyCore s (s.modCore k f) k := ⟨rfl, fun j hj => by rw [State.core_modCore, if_neg hj]⟩

theorem State.comm_modComm {s : State} {d x : Nat} {m : Comm} (h : aget (s.die d).comms x = some m) (f : Comm → Comm) : aget ((s.modComm d x f).die d).comms x = some (f m) := by
  unfold State.modComm State.modDie State.die
  simp only [aget_aset_same, Option.getD_some]
  rw [show aget ((aget s.dies d).getD {}).comms x = some m from h]; simp

theorem State.postUnit_posts (s : State) (q sev kind die inst c a d : Nat) : (s.postUnit q sev kind die inst c a d 0).posts = s.posts ++ [s.unitRecord q sev kind die inst c a d] := rfl

theorem State.strait_modStrait (s : State) (p : Nat) (f : Strait → Strait) : (s.modStrait p f).strait p = f (s.strait p) := by
  unfold State.modStrait State.strait; simp
theorem State.part_modPart (s : State) (p : Nat) (f : Part → Part) : (s.modPart p f).part p = f (s.part p) := by
  unfold State.modPart State.part; simp
theorem State.chan_modChan (s : State) (p c : Nat) (f : Channel → Channel) : (s.modChan p c f).chan p c = f (s.chan p c) := by
  unfold State.modChan State.chan; rw [State.part_modPart]; simp

end Sys2Proof.Machine
end

