-- ==== Sys2Proof/Laws/Lanes.lean ====
section
/-! SUPPORT. The reductions of the cells: REDL's levels are the tree of R53, SCANL's steps the fold of R54. -/

namespace Sys2Proof.Machine

/-- A combination of R53: a side without a valid lane passes the other on. -/
def pairUp (op : Nat → Nat → Nat → Nat × Bool) (j : Nat) : Option Nat → Option Nat → Option Nat × Bool
  | some x, some y => ((op j x y).1, (op j x y).2)
  | none, some y => (some y, false)
  | x, none => (x, false)


/-- A level of the tree that writes every position. -/
def lv (op : Nat → Nat → Nat → Nat × Bool) (w : Nat) (acc : List (Option Nat) × Bool) : List (Option Nat) × Bool :=
  (List.range 16).foldl (fun acc j =>
    if j % (2 * w) ≠ 0 then acc else
     (acc.1.set j (pairUp op j (acc.1.getD j none) (acc.1.getD (j+w) none)).1, acc.2 || (pairUp op j (acc.1.getD j none) (acc.1.getD (j+w) none)).2)) acc

theorem lv_step (op) (w j : Nat) (acc : List (Option Nat) × Bool) (h : j < acc.1.length) :
    (match acc.1.getD j none, acc.1.getD (j + w) none with
    | some x, some y => let r := op j x y; (acc.1.set j (some r.1), acc.2 || r.2)
    | none, some y => (acc.1.set j (some y), acc.2)
    | _, none => acc) =
     (acc.1.set j (pairUp op j (acc.1.getD j none) (acc.1.getD (j+w) none)).1, acc.2 || (pairUp op j (acc.1.getD j none) (acc.1.getD (j+w) none)).2) := by
  obtain ⟨l, b⟩ := acc
  dsimp only at *
  have hs : ∀ x, l.getD j none = x → l.set j x = l := by
    intro x hx
    apply List.ext_getElem? ; intro i
    rw [List.getElem?_set]
    split
    · subst_vars; rw [List.getD_eq_getElem?_getD, List.getElem?_eq_getElem h]; rfl
    · rfl
  rcases h1 : l.getD j none with _ | x <;> rcases h2 : l.getD (j + w) none with _ | y <;> simp [pairUp]
  · exact (hs _ h1).symm
  · exact (hs _ h1).symm

theorem lv_len (op) (w : Nat) (acc : List (Option Nat) × Bool) (h : acc.1.length = 16) : (lv op w acc).1.length = 16 := by
  unfold lv
  generalize List.range 16 = l
  induction l generalizing acc with
  | nil => exact h
  | cons x l ih => apply ih; dsimp only; split <;> simp [h]

theorem level_lv (op) (w : Nat) (acc : List (Option Nat) × Bool) (h : acc.1.length = 16) : treeLevel op w acc = lv op w acc := by
  unfold treeLevel lv
  have hr : ∀ x ∈ List.range 16, x < 16 := by simp
  generalize List.range 16 = l at hr
  induction l generalizing acc with
  | nil => rfl
  | cons x l ih =>
    rw [List.foldl_cons, List.foldl_cons]
    have hx : x < acc.1.length := by rw [h]; exact hr x (by simp)
    have e : (if x % (2 * w) ≠ 0 then acc else
      match acc.1.getD x none, acc.1.getD (x + w) none with
      | some a, some y => let r := op x a y; (acc.1.set x (some r.1), acc.2 || r.2)
      | none, some y => (acc.1.set x (some y), acc.2)
      | _, none => acc) = if x % (2 * w) ≠ 0 then acc else
     (acc.1.set x (pairUp op x (acc.1.getD x none) (acc.1.getD (x+w) none)).1, acc.2 || (pairUp op x (acc.1.getD x none) (acc.1.getD (x+w) none)).2) := by
      split
      · rfl
      · exact lv_step op w x acc hx
    refine (congrArg (fun z => List.foldl _ z l) e).trans ?_
    apply ih
    · split <;> simp [h]
    · exact fun y hy => hr y (by simp [hy])

theorem treeFrom_succ (op) (v : Nat → Option Nat) (n j : Nat) : treeFrom op v (n + 1) j =
    ((pairUp op j (treeFrom op v n j).1 (treeFrom op v n (j + 2 ^ n)).1).1,
     (treeFrom op v n j).2 || (treeFrom op v n (j + 2 ^ n)).2 || (pairUp op j (treeFrom op v n j).1 (treeFrom op v n (j + 2 ^ n)).1).2) := by
  rw [treeFrom]
  rcases h1 : (treeFrom op v n j).1 with _ | x <;> rcases h2 : (treeFrom op v n (j + 2 ^ n)).1 with _ | y <;> simp [pairUp]

/-- The levels of REDL are the tree of R53. -/
theorem tree_eq (op : Nat → Nat → Nat → Nat × Bool) (v : Nat → Option Nat) :
    treeOf op ((List.range 16).map v) = treeFrom op v 4 0 := by
  have hl : ((List.range 16).map v).length = 16 := by simp
  unfold treeOf
  simp only [List.foldl_cons, List.foldl_nil]
  rw [level_lv op 1 _ hl, level_lv op 2 _ (lv_len _ _ _ hl), level_lv op 4 _ (lv_len _ _ _ (lv_len _ _ _ hl)), level_lv op 8 _ (lv_len _ _ _ (lv_len _ _ _ (lv_len _ _ _ hl)))]
  have hr : List.range 16 = [0,1,2,3,4,5,6,7,8,9,10,11,12,13,14,15] := by decide
  simp only [lv, hr, List.map_cons, List.map_nil, List.foldl_cons, List.foldl_nil]
  simp only [treeFrom_succ]
  simp [treeFrom]
  ac_rfl

/-- The state of the fold after lane k. -/
def stepTo (op : Nat → Nat → Nat → Nat × Bool) (k : Nat) (acc : Option Nat × Bool) (x : Option Nat) : Option Nat × Bool :=
  match acc.1, x with
  | some a, some y => ((op k a y).1, acc.2 || (op k a y).2)
  | some a, none => (some a, acc.2)
  | none, y => (y, acc.2)

/-- What the scan gives at each lane. -/
theorem scan_from (op : Nat → Nat → Nat → Nat × Bool) (v : Nat → Option Nat) (n : Nat) :
    ∀ k (acc : Option Nat × Bool), (∀ i, i < n → (scanFrom op k acc.1 acc.2 ((List.range' k n).map v)).1.getD i none =
        if (v (k + i)).isSome then ((List.range' k (i + 1)).foldl (fun a j => stepTo op j a (v j)) acc).1 else none) ∧
      (scanFrom op k acc.1 acc.2 ((List.range' k n).map v)).2 = ((List.range' k n).foldl (fun a j => stepTo op j a (v j)) acc).2 := by
  induction n with
  | zero => intro k acc; exact ⟨fun i hi => by omega, rfl⟩
  | succ n ih =>
    intro k acc
    rw [List.range'_succ, List.map_cons]
    have h : scanFrom op k acc.1 acc.2 (v k :: (List.range' (k+1) n).map v) =
       ((if (v k).isSome then (stepTo op k acc (v k)).1 else none) :: (scanFrom op (k+1) (stepTo op k acc (v k)).1 (stepTo op k acc (v k)).2 ((List.range' (k+1) n).map v)).1,
        (scanFrom op (k+1) (stepTo op k acc (v k)).1 (stepTo op k acc (v k)).2 ((List.range' (k+1) n).map v)).2) := by
      obtain ⟨a, b⟩ := acc
      rcases h1 : v k with _ | x <;> cases a <;> simp [scanFrom, stepTo]
    rw [h]
    refine ⟨?_, (ih (k+1) _).2⟩
    intro i hi
    cases i with
    | zero => simp
    | succ i =>
      have := (ih (k+1) (stepTo op k acc (v k))).1 i (by omega)
      have e : k + 1 + i = k + (i + 1) := by omega
      rw [List.getD_cons_succ, this, e, List.range'_succ (s := k), List.foldl_cons]

theorem foldTo_eq (op) (v : Nat → Option Nat) (n : Nat) : foldTo op v n = (List.range' 0 (n + 1)).foldl (fun a j => stepTo op j a (v j)) (none, false) := by
  induction n with
  | zero => simp [foldTo, stepTo]
  | succ n ih =>
    rw [List.range'_1_concat, List.foldl_append, ← ih]
    simp [foldTo, stepTo] <;> rfl

end Sys2Proof.Machine
end

