-- ==== Sys2Proof/Laws/PerInstr.lean ====
section
/-! SUPPORT. Every instruction whose fields fit reads back from its own word: one lemma per constructor, over one lemma about reading
a field of a word. -/

namespace Sys2Proof.Laws.RoundTrip

/-- A word w of a store of that form is in range, its store is told by it, and the decoder reads i from it (R135, R137, R145, R147). -/
def WordStatement : Form × Nat → Instr → Prop
  | (.compact, w), i => w < 2 ^ 16 ∧ bits w 15 14 ≠ 3 ∧ decodeCompact w = .ok i
  | (.cell, w), i => w < 2 ^ 32 ∧ bits w 31 30 = 3 ∧ decodeCell32 w = .ok i
  | (.matrix, w), i => w < 2 ^ 64 ∧ decodeMatrix w = .ok i
  | (.rc, w), i => w < 2 ^ 32 ∧ rcIsLong w = false ∧ ∀ ext, decodeRcWord w ext = .ok i
  | (.long, w), i => w < 2 ^ 64 ∧ rcIsLong (w % 2 ^ 32) = true ∧ decodeRcWord (w % 2 ^ 32) (w / 2 ^ 32) = .ok i
  | (.event, _), _ => True

/-- An instruction whose fields fit reads back from its own word. -/
def Statement (i : Instr) : Prop := i.fits = true → WordStatement (encodeWord i) i

/-- A word: c with the fields V added at the places S (lowest bit, width). -/
def place (c : Nat) : List (Nat × Nat) → List Nat → Nat
  | f :: S, v :: V => place (c + (if f.1 = 0 then v else v * 2 ^ f.1)) S V
  | _, _ => c

theorem place_cons (c : Nat) (f : Nat × Nat) (S : List (Nat × Nat)) (v : Nat) (V : List Nat) : place c (f :: S) (v :: V) = place (c + v * 2 ^ f.1) S V := by
  simp only [place]
  split
  · next h => rw [h, pow_zero, mul_one]
  · rfl

/-- Every field fits its width. -/
def fit : List (Nat × Nat) → List Nat → Bool
  | f :: S, v :: V => decide (v < 2 ^ f.2) && fit S V
  | [], [] => true
  | _, _ => false

/-- The places are clear in c and apart from each other. -/
def apart (c : Nat) : List (Nat × Nat) → Bool
  | f :: S => decide (c / 2 ^ f.1 % 2 ^ f.2 = 0) && S.all (fun g => decide (f.1 + f.2 ≤ g.1 ∨ g.1 + g.2 ≤ f.1)) && apart c S
  | [] => true

theorem add_field_out (c v lo n l k : Nat) (hv : v < 2 ^ n) (hc : c / 2 ^ lo % 2 ^ n = 0) (h : lo + n ≤ l ∨ l + k ≤ lo) :
    (c + v * 2 ^ lo) / 2 ^ l % 2 ^ k = c / 2 ^ l % 2 ^ k := by
  rcases h with h | h
  · congr 1
    obtain ⟨e, rfl⟩ := Nat.exists_eq_add_of_le h
    rw [pow_add, ← Nat.div_div_eq_div_mul, ← Nat.div_div_eq_div_mul, pow_add, ← Nat.div_div_eq_div_mul, ← Nat.div_div_eq_div_mul]
    congr 1
    rw [Nat.add_mul_div_right _ _ (by positivity)]
    have := Nat.div_add_mod (c / 2 ^ lo) (2 ^ n)
    rw [hc, add_zero] at this
    rw [← this, Nat.mul_add_div (by positivity), Nat.div_eq_of_lt hv, add_zero, Nat.mul_div_cancel_left _ (by positivity)]
  · obtain ⟨e, rfl⟩ := Nat.exists_eq_add_of_le h
    have : c + v * 2 ^ (l + k + e) = c + 2 ^ l * (2 ^ k * (v * 2 ^ e)) := by rw [pow_add, pow_add]; ring
    rw [this, Nat.add_mul_div_left _ _ (by positivity), Nat.add_mul_mod_self_left]

theorem add_field_in (c v lo n : Nat) (hv : v < 2 ^ n) (hc : c / 2 ^ lo % 2 ^ n = 0) : (c + v * 2 ^ lo) / 2 ^ lo % 2 ^ n = v := by
  rw [Nat.add_mul_div_right _ _ (by positivity), Nat.add_mod, hc, zero_add, Nat.mod_mod, Nat.mod_eq_of_lt hv]

theorem apart_add (S : List (Nat × Nat)) : ∀ (c v : Nat) (f : Nat × Nat), v < 2 ^ f.2 → c / 2 ^ f.1 % 2 ^ f.2 = 0 →
    S.all (fun g => decide (f.1 + f.2 ≤ g.1 ∨ g.1 + g.2 ≤ f.1)) = true → apart c S = true → apart (c + v * 2 ^ f.1) S = true := by
  induction S with
  | nil => intros; rfl
  | cons g S ih =>
    intro c v f hv hc hl ha
    simp only [apart, List.all_cons, Bool.and_eq_true, decide_eq_true_eq] at ha hl ⊢
    exact ⟨⟨(add_field_out _ _ _ _ _ _ hv hc hl.1).trans ha.1.1, ha.1.2⟩, ih _ _ _ hv hc hl.2 ha.2⟩

theorem place_out (S : List (Nat × Nat)) : ∀ (c : Nat) (V : List Nat) (l k : Nat), apart c S = true → fit S V = true →
    S.all (fun g => decide (g.1 + g.2 ≤ l ∨ l + k ≤ g.1)) = true → place c S V / 2 ^ l % 2 ^ k = c / 2 ^ l % 2 ^ k := by
  induction S with
  | nil => intro c V l k _ _ _; cases V <;> rfl
  | cons f S ih =>
    intro c V l k ha hf hl
    cases V with
    | nil => simp [fit] at hf
    | cons v V =>
      simp only [apart, fit, List.all_cons, Bool.and_eq_true, decide_eq_true_eq] at ha hf hl
      rw [place_cons, ih _ _ _ _ (apart_add S c v f hf.1 ha.1.1 ha.1.2 ha.2) hf.2 hl.2, add_field_out _ _ _ _ _ _ hf.1 ha.1.1 hl.1]

theorem place_in (S : List (Nat × Nat)) : ∀ (c : Nat) (V : List Nat) (j : Nat), apart c S = true → fit S V = true → j < S.length →
    place c S V / 2 ^ (S.getD j (0, 0)).1 % 2 ^ (S.getD j (0, 0)).2 = V.getD j 0 := by
  induction S with
  | nil => intro c V j _ _ h; exact absurd h (Nat.not_lt_zero _)
  | cons f S ih =>
    intro c V j ha hf hj
    cases V with
    | nil => simp [fit] at hf
    | cons v V =>
      simp only [apart, fit, Bool.and_eq_true, decide_eq_true_eq] at ha hf
      have h2 := apart_add S c v f hf.1 ha.1.1 ha.1.2 ha.2
      cases j with
      | zero =>
        have h1 : S.all (fun g => decide (g.1 + g.2 ≤ f.1 ∨ f.1 + f.2 ≤ g.1)) = true := by
          have := ha.1.2
          simp only [List.all_eq_true, decide_eq_true_eq] at this ⊢
          exact fun g hg => (this g hg).symm
        simp only [List.getD_cons_zero]
        rw [place_cons, place_out S _ V _ _ h2 hf.2 h1]
        exact add_field_in _ _ _ _ hf.1 ha.1.1
      | succ j =>
        simp only [List.getD_cons_succ]
        rw [place_cons]
        exact ih _ _ _ h2 hf.2 (Nat.lt_of_succ_lt_succ hj)

/-- Reading a field of a word gives what was put there. -/
theorem bits_in {c : Nat} {S : List (Nat × Nat)} {V : List Nat} (h : apart c S = true ∧ fit S V = true) (j hi lo : Nat) (v : Nat)
    (hs : (decide (j < S.length) && decide (S.getD j (0, 0) = (lo, hi + 1 - lo))) = true) (hv : V.getD j 0 = v) : bits (place c S V) hi lo = v := by
  simp only [Bool.and_eq_true, decide_eq_true_eq] at hs
  have := place_in S c V j h.1 h.2 hs.1
  rw [hs.2, hv] at this
  exact this

/-- Reading away from every field of a word gives what its constant holds. -/
theorem bits_out {c : Nat} {S : List (Nat × Nat)} {V : List Nat} (h : apart c S = true ∧ fit S V = true) (hi lo v : Nat)
    (hs : (S.all (fun g => decide (g.1 + g.2 ≤ lo ∨ lo + (hi + 1 - lo) ≤ g.1)) && decide (bits c hi lo = v)) = true) : bits (place c S V) hi lo = v := by
  simp only [Bool.and_eq_true, decide_eq_true_eq] at hs
  exact (place_out S c V _ _ h.1 h.2 hs.1).trans hs.2

/-- A word is as long as its fields reach. -/
theorem place_lt {c : Nat} {S : List (Nat × Nat)} {V : List Nat} (h : apart c S = true ∧ fit S V = true) (n : Nat)
    (hs : (S.all (fun g => decide (g.1 + g.2 ≤ n)) && decide (c < 2 ^ n)) = true) : place c S V < 2 ^ n := by
  simp only [Bool.and_eq_true, decide_eq_true_eq, List.all_eq_true] at hs
  have k := place_out S c V n (place c S V + 1) h.1 h.2 (by simp only [List.all_eq_true, decide_eq_true_eq]; exact fun g hg => Or.inl (hs.1 g hg))
  rw [Nat.div_eq_of_lt hs.2, Nat.zero_mod] at k
  have l : place c S V / 2 ^ n < 2 ^ (place c S V + 1) :=
    lt_of_le_of_lt (Nat.div_le_self _ _) (lt_of_lt_of_le (Nat.lt_succ_self _) (Nat.lt_two_pow_self).le)
  rw [Nat.mod_eq_of_lt l] at k
  exact (Nat.div_eq_zero_iff_lt (by positivity)).mp k

/-- The low word of a long form holds the same fields. -/
theorem bits_low (w hi lo : Nat) (h : (decide (lo + (hi + 1 - lo) ≤ 32)) = true) : bits (w % 2 ^ 32) hi lo = bits w hi lo := by
  simp only [decide_eq_true_eq] at h
  obtain ⟨e, he⟩ := Nat.exists_eq_add_of_le h
  simp only [bits]
  rw [he, Nat.add_assoc, pow_add, Nat.mod_mul_right_div_self, pow_add, Nat.mod_mul_right_mod]

/-- The low part of a field of zeros is zero. -/
theorem bits_part {w hi lo : Nat} (h : bits w hi lo = 0) (l : Nat) (hl : decide (l + 1 - lo ≤ hi + 1 - lo) = true) : bits w l lo = 0 := by
  simp only [decide_eq_true_eq] at hl
  obtain ⟨e, he⟩ := Nat.exists_eq_add_of_le hl
  simp only [bits] at h ⊢
  rw [he, pow_add] at h
  rw [← Nat.mod_mul_right_mod _ _ (2 ^ e), h, Nat.zero_mod]

/-- The extension word of a long form is its field. -/
theorem long_ext {c : Nat} {S : List (Nat × Nat)} {V : List Nat} (h : apart c S = true ∧ fit S V = true) (j : Nat)
    (hs : (decide (j < S.length) && decide (S.getD j (0, 0) = (32, 32))) = true)
    (hn : (S.all (fun g => decide (g.1 + g.2 ≤ 64)) && decide (c < 2 ^ 64)) = true) (v : Nat) (hv : V.getD j 0 = v) : place c S V / 2 ^ 32 = v := by
  have a := bits_in h j 63 32 v hs hv
  have b := place_lt h 64 hn
  have l : place c S V / 2 ^ 32 < 2 ^ 32 := Nat.div_lt_of_lt_mul (by rw [← pow_add]; exact b)
  rw [← a]
  exact (Nat.mod_eq_of_lt l).symm

theorem add (d a b r s x : Nat) : Statement (.add d a b r s x) := by
  intro hf
  replace hf : (decide (d < 64) && decide (a < 64) && decide (b < 64) && decide (r < 8) && decide (s < 2) && decide (x < 2)) = true := hf
  simp only [Bool.and_eq_true, decide_eq_true_eq] at hf
  have hp : apart 0xC0000000 [(17, 6), (11, 6), (5, 6), (2, 3), (1, 1), (0, 1)] = true ∧ fit [(17, 6), (11, 6), (5, 6), (2, 3), (1, 1), (0, 1)] [d, a, b, r, s, x] = true := ⟨rfl, by simp [fit, hf]⟩
  change WordStatement (.cell, place 0xC0000000 [(17, 6), (11, 6), (5, 6), (2, 3), (1, 1), (0, 1)] [d, a, b, r, s, x]) (.add d a b r s x)
  have kb := place_lt hp 32 rfl
  have k0 := bits_in hp 0 22 17 d rfl rfl
  have k1 := bits_in hp 1 16 11 a rfl rfl
  have k2 := bits_in hp 2 10 5 b rfl rfl
  have k3 := bits_in hp 3 4 2 r rfl rfl
  have k4 := bits_in hp 4 1 1 s rfl rfl
  have k5 := bits_in hp 5 0 0 x rfl rfl
  have k6 := bits_out hp 29 23 0 rfl
  have k7 := bits_out hp 31 30 3 rfl
  obtain ⟨wd, hw⟩ : ∃ wd, place 0xC0000000 [(17, 6), (11, 6), (5, 6), (2, 3), (1, 1), (0, 1)] [d, a, b, r, s, x] = wd := ⟨_, rfl⟩
  rw [hw] at kb k0 k1 k2 k3 k4 k5 k6 k7 ⊢
  clear hp hw
  refine ⟨kb, k7, ?_⟩
  unfold decodeCell32; rw [if_neg (by rw [k7]; decide), k6]
  refine (if_pos trivial).trans ?_
  rw [k0, k1, k2, k3, k4, k5]

theorem sub (d a b r s x : Nat) : Statement (.sub d a b r s x) := by
  intro hf
  replace hf : (decide (d < 64) && decide (a < 64) && decide (b < 64) && decide (r < 8) && decide (s < 2) && decide (x < 2)) = true := hf
  simp only [Bool.and_eq_true, decide_eq_true_eq] at hf
  have hp : apart 0xC0800000 [(17, 6), (11, 6), (5, 6), (2, 3), (1, 1), (0, 1)] = true ∧ fit [(17, 6), (11, 6), (5, 6), (2, 3), (1, 1), (0, 1)] [d, a, b, r, s, x] = true := ⟨rfl, by simp [fit, hf]⟩
  change WordStatement (.cell, place 0xC0800000 [(17, 6), (11, 6), (5, 6), (2, 3), (1, 1), (0, 1)] [d, a, b, r, s, x]) (.sub d a b r s x)
  have kb := place_lt hp 32 rfl
  have k0 := bits_in hp 0 22 17 d rfl rfl
  have k1 := bits_in hp 1 16 11 a rfl rfl
  have k2 := bits_in hp 2 10 5 b rfl rfl
  have k3 := bits_in hp 3 4 2 r rfl rfl
  have k4 := bits_in hp 4 1 1 s rfl rfl
  have k5 := bits_in hp 5 0 0 x rfl rfl
  have k6 := bits_out hp 29 23 1 rfl
  have k7 := bits_out hp 31 30 3 rfl
  obtain ⟨wd, hw⟩ : ∃ wd, place 0xC0800000 [(17, 6), (11, 6), (5, 6), (2, 3), (1, 1), (0, 1)] [d, a, b, r, s, x] = wd := ⟨_, rfl⟩
  rw [hw] at kb k0 k1 k2 k3 k4 k5 k6 k7 ⊢
  clear hp hw
  refine ⟨kb, k7, ?_⟩
  unfold decodeCell32; rw [if_neg (by rw [k7]; decide), k6]
  refine (if_pos trivial).trans ?_
  rw [k0, k1, k2, k3, k4, k5]

theorem mul (d a b r s x : Nat) : Statement (.mul d a b r s x) := by
  intro hf
  replace hf : (decide (d < 64) && decide (a < 64) && decide (b < 64) && decide (r < 8) && decide (s < 2) && decide (x < 2)) = true := hf
  simp only [Bool.and_eq_true, decide_eq_true_eq] at hf
  have hp : apart 0xC1000000 [(17, 6), (11, 6), (5, 6), (2, 3), (1, 1), (0, 1)] = true ∧ fit [(17, 6), (11, 6), (5, 6), (2, 3), (1, 1), (0, 1)] [d, a, b, r, s, x] = true := ⟨rfl, by simp [fit, hf]⟩
  change WordStatement (.cell, place 0xC1000000 [(17, 6), (11, 6), (5, 6), (2, 3), (1, 1), (0, 1)] [d, a, b, r, s, x]) (.mul d a b r s x)
  have kb := place_lt hp 32 rfl
  have k0 := bits_in hp 0 22 17 d rfl rfl
  have k1 := bits_in hp 1 16 11 a rfl rfl
  have k2 := bits_in hp 2 10 5 b rfl rfl
  have k3 := bits_in hp 3 4 2 r rfl rfl
  have k4 := bits_in hp 4 1 1 s rfl rfl
  have k5 := bits_in hp 5 0 0 x rfl rfl
  have k6 := bits_out hp 29 23 2 rfl
  have k7 := bits_out hp 31 30 3 rfl
  obtain ⟨wd, hw⟩ : ∃ wd, place 0xC1000000 [(17, 6), (11, 6), (5, 6), (2, 3), (1, 1), (0, 1)] [d, a, b, r, s, x] = wd := ⟨_, rfl⟩
  rw [hw] at kb k0 k1 k2 k3 k4 k5 k6 k7 ⊢
  clear hp hw
  refine ⟨kb, k7, ?_⟩
  unfold decodeCell32; rw [if_neg (by rw [k7]; decide), k6]
  refine (if_pos trivial).trans ?_
  rw [k0, k1, k2, k3, k4, k5]

theorem fma (d a b r s : Nat) : Statement (.fma d a b r s) := by
  intro hf
  replace hf : (decide (d < 64) && decide (a < 64) && decide (b < 64) && decide (r < 8) && decide (s < 2)) = true := hf
  simp only [Bool.and_eq_true, decide_eq_true_eq] at hf
  have hp : apart 0xC1800000 [(17, 6), (11, 6), (5, 6), (2, 3), (1, 1)] = true ∧ fit [(17, 6), (11, 6), (5, 6), (2, 3), (1, 1)] [d, a, b, r, s] = true := ⟨rfl, by simp [fit, hf]⟩
  change WordStatement (.cell, place 0xC1800000 [(17, 6), (11, 6), (5, 6), (2, 3), (1, 1)] [d, a, b, r, s]) (.fma d a b r s)
  have kb := place_lt hp 32 rfl
  have k0 := bits_in hp 0 22 17 d rfl rfl
  have k1 := bits_in hp 1 16 11 a rfl rfl
  have k2 := bits_in hp 2 10 5 b rfl rfl
  have k3 := bits_in hp 3 4 2 r rfl rfl
  have k4 := bits_in hp 4 1 1 s rfl rfl
  have k5 := bits_out hp 29 23 3 rfl
  have k6 := bits_out hp 31 30 3 rfl
  have k7 := bits_out hp 0 0 0 rfl
  obtain ⟨wd, hw⟩ : ∃ wd, place 0xC1800000 [(17, 6), (11, 6), (5, 6), (2, 3), (1, 1)] [d, a, b, r, s] = wd := ⟨_, rfl⟩
  rw [hw] at kb k0 k1 k2 k3 k4 k5 k6 k7 ⊢
  clear hp hw
  refine ⟨kb, k6, ?_⟩
  unfold decodeCell32; rw [if_neg (by rw [k6]; decide), k5]
  refine (if_pos k7).trans ?_
  rw [k0, k1, k2, k3, k4]

theorem fms (d a b r s : Nat) : Statement (.fms d a b r s) := by
  intro hf
  replace hf : (decide (d < 64) && decide (a < 64) && decide (b < 64) && decide (r < 8) && decide (s < 2)) = true := hf
  simp only [Bool.and_eq_true, decide_eq_true_eq] at hf
  have hp : apart 0xC2000000 [(17, 6), (11, 6), (5, 6), (2, 3), (1, 1)] = true ∧ fit [(17, 6), (11, 6), (5, 6), (2, 3), (1, 1)] [d, a, b, r, s] = true := ⟨rfl, by simp [fit, hf]⟩
  change WordStatement (.cell, place 0xC2000000 [(17, 6), (11, 6), (5, 6), (2, 3), (1, 1)] [d, a, b, r, s]) (.fms d a b r s)
  have kb := place_lt hp 32 rfl
  have k0 := bits_in hp 0 22 17 d rfl rfl
  have k1 := bits_in hp 1 16 11 a rfl rfl
  have k2 := bits_in hp 2 10 5 b rfl rfl
  have k3 := bits_in hp 3 4 2 r rfl rfl
  have k4 := bits_in hp 4 1 1 s rfl rfl
  have k5 := bits_out hp 29 23 4 rfl
  have k6 := bits_out hp 31 30 3 rfl
  have k7 := bits_out hp 0 0 0 rfl
  obtain ⟨wd, hw⟩ : ∃ wd, place 0xC2000000 [(17, 6), (11, 6), (5, 6), (2, 3), (1, 1)] [d, a, b, r, s] = wd := ⟨_, rfl⟩
  rw [hw] at kb k0 k1 k2 k3 k4 k5 k6 k7 ⊢
  clear hp hw
  refine ⟨kb, k6, ?_⟩
  unfold decodeCell32; rw [if_neg (by rw [k6]; decide), k5]
  refine (if_pos k7).trans ?_
  rw [k0, k1, k2, k3, k4]

theorem fnma (d a b r s : Nat) : Statement (.fnma d a b r s) := by
  intro hf
  replace hf : (decide (d < 64) && decide (a < 64) && decide (b < 64) && decide (r < 8) && decide (s < 2)) = true := hf
  simp only [Bool.and_eq_true, decide_eq_true_eq] at hf
  have hp : apart 0xC2800000 [(17, 6), (11, 6), (5, 6), (2, 3), (1, 1)] = true ∧ fit [(17, 6), (11, 6), (5, 6), (2, 3), (1, 1)] [d, a, b, r, s] = true := ⟨rfl, by simp [fit, hf]⟩
  change WordStatement (.cell, place 0xC2800000 [(17, 6), (11, 6), (5, 6), (2, 3), (1, 1)] [d, a, b, r, s]) (.fnma d a b r s)
  have kb := place_lt hp 32 rfl
  have k0 := bits_in hp 0 22 17 d rfl rfl
  have k1 := bits_in hp 1 16 11 a rfl rfl
  have k2 := bits_in hp 2 10 5 b rfl rfl
  have k3 := bits_in hp 3 4 2 r rfl rfl
  have k4 := bits_in hp 4 1 1 s rfl rfl
  have k5 := bits_out hp 29 23 5 rfl
  have k6 := bits_out hp 31 30 3 rfl
  have k7 := bits_out hp 0 0 0 rfl
  obtain ⟨wd, hw⟩ : ∃ wd, place 0xC2800000 [(17, 6), (11, 6), (5, 6), (2, 3), (1, 1)] [d, a, b, r, s] = wd := ⟨_, rfl⟩
  rw [hw] at kb k0 k1 k2 k3 k4 k5 k6 k7 ⊢
  clear hp hw
  refine ⟨kb, k6, ?_⟩
  unfold decodeCell32; rw [if_neg (by rw [k6]; decide), k5]
  refine (if_pos k7).trans ?_
  rw [k0, k1, k2, k3, k4]

theorem min (d a b : Nat) : Statement (.min d a b) := by
  intro hf
  replace hf : (decide (d < 64) && decide (a < 64) && decide (b < 64)) = true := hf
  simp only [Bool.and_eq_true, decide_eq_true_eq] at hf
  have hp : apart 0xC3000000 [(17, 6), (11, 6), (5, 6)] = true ∧ fit [(17, 6), (11, 6), (5, 6)] [d, a, b] = true := ⟨rfl, by simp [fit, hf]⟩
  change WordStatement (.cell, place 0xC3000000 [(17, 6), (11, 6), (5, 6)] [d, a, b]) (.min d a b)
  have kb := place_lt hp 32 rfl
  have k0 := bits_in hp 0 22 17 d rfl rfl
  have k1 := bits_in hp 1 16 11 a rfl rfl
  have k2 := bits_in hp 2 10 5 b rfl rfl
  have k3 := bits_out hp 29 23 6 rfl
  have k4 := bits_out hp 31 30 3 rfl
  have k5 := bits_out hp 4 0 0 rfl
  obtain ⟨wd, hw⟩ : ∃ wd, place 0xC3000000 [(17, 6), (11, 6), (5, 6)] [d, a, b] = wd := ⟨_, rfl⟩
  rw [hw] at kb k0 k1 k2 k3 k4 k5 ⊢
  clear hp hw
  refine ⟨kb, k4, ?_⟩
  unfold decodeCell32; rw [if_neg (by rw [k4]; decide), k3]
  refine (if_pos k5).trans ?_
  rw [k0, k1, k2]

theorem max (d a b : Nat) : Statement (.max d a b) := by
  intro hf
  replace hf : (decide (d < 64) && decide (a < 64) && decide (b < 64)) = true := hf
  simp only [Bool.and_eq_true, decide_eq_true_eq] at hf
  have hp : apart 0xC3800000 [(17, 6), (11, 6), (5, 6)] = true ∧ fit [(17, 6), (11, 6), (5, 6)] [d, a, b] = true := ⟨rfl, by simp [fit, hf]⟩
  change WordStatement (.cell, place 0xC3800000 [(17, 6), (11, 6), (5, 6)] [d, a, b]) (.max d a b)
  have kb := place_lt hp 32 rfl
  have k0 := bits_in hp 0 22 17 d rfl rfl
  have k1 := bits_in hp 1 16 11 a rfl rfl
  have k2 := bits_in hp 2 10 5 b rfl rfl
  have k3 := bits_out hp 29 23 7 rfl
  have k4 := bits_out hp 31 30 3 rfl
  have k5 := bits_out hp 4 0 0 rfl
  obtain ⟨wd, hw⟩ : ∃ wd, place 0xC3800000 [(17, 6), (11, 6), (5, 6)] [d, a, b] = wd := ⟨_, rfl⟩
  rw [hw] at kb k0 k1 k2 k3 k4 k5 ⊢
  clear hp hw
  refine ⟨kb, k4, ?_⟩
  unfold decodeCell32; rw [if_neg (by rw [k4]; decide), k3]
  refine (if_pos k5).trans ?_
  rw [k0, k1, k2]

theorem abs (d a : Nat) : Statement (.abs d a) := by
  intro hf
  replace hf : (decide (d < 64) && decide (a < 64)) = true := hf
  simp only [Bool.and_eq_true, decide_eq_true_eq] at hf
  have hp : apart 0xC4000000 [(17, 6), (11, 6)] = true ∧ fit [(17, 6), (11, 6)] [d, a] = true := ⟨rfl, by simp [fit, hf]⟩
  change WordStatement (.cell, place 0xC4000000 [(17, 6), (11, 6)] [d, a]) (.abs d a)
  have kb := place_lt hp 32 rfl
  have k0 := bits_in hp 0 22 17 d rfl rfl
  have k1 := bits_in hp 1 16 11 a rfl rfl
  have k2 := bits_out hp 29 23 8 rfl
  have k3 := bits_out hp 31 30 3 rfl
  have k4 := bits_out hp 10 0 0 rfl
  obtain ⟨wd, hw⟩ : ∃ wd, place 0xC4000000 [(17, 6), (11, 6)] [d, a] = wd := ⟨_, rfl⟩
  rw [hw] at kb k0 k1 k2 k3 k4 ⊢
  clear hp hw
  refine ⟨kb, k3, ?_⟩
  unfold decodeCell32; rw [if_neg (by rw [k3]; decide), k2]
  refine (if_pos k4).trans ?_
  rw [k0, k1]

theorem negOp (d a : Nat) : Statement (.negOp d a) := by
  intro hf
  replace hf : (decide (d < 64) && decide (a < 64)) = true := hf
  simp only [Bool.and_eq_true, decide_eq_true_eq] at hf
  have hp : apart 0xC4800000 [(17, 6), (11, 6)] = true ∧ fit [(17, 6), (11, 6)] [d, a] = true := ⟨rfl, by simp [fit, hf]⟩
  change WordStatement (.cell, place 0xC4800000 [(17, 6), (11, 6)] [d, a]) (.negOp d a)
  have kb := place_lt hp 32 rfl
  have k0 := bits_in hp 0 22 17 d rfl rfl
  have k1 := bits_in hp 1 16 11 a rfl rfl
  have k2 := bits_out hp 29 23 9 rfl
  have k3 := bits_out hp 31 30 3 rfl
  have k4 := bits_out hp 10 0 0 rfl
  obtain ⟨wd, hw⟩ : ∃ wd, place 0xC4800000 [(17, 6), (11, 6)] [d, a] = wd := ⟨_, rfl⟩
  rw [hw] at kb k0 k1 k2 k3 k4 ⊢
  clear hp hw
  refine ⟨kb, k3, ?_⟩
  unfold decodeCell32; rw [if_neg (by rw [k3]; decide), k2]
  refine (if_pos k4).trans ?_
  rw [k0, k1]

theorem div (d a b r s : Nat) : Statement (.div d a b r s) := by
  intro hf
  replace hf : (decide (d < 64) && decide (a < 64) && decide (b < 64) && decide (r < 8) && decide (s < 2)) = true := hf
  simp only [Bool.and_eq_true, decide_eq_true_eq] at hf
  have hp : apart 0xC5000000 [(17, 6), (11, 6), (5, 6), (2, 3), (1, 1)] = true ∧ fit [(17, 6), (11, 6), (5, 6), (2, 3), (1, 1)] [d, a, b, r, s] = true := ⟨rfl, by simp [fit, hf]⟩
  change WordStatement (.cell, place 0xC5000000 [(17, 6), (11, 6), (5, 6), (2, 3), (1, 1)] [d, a, b, r, s]) (.div d a b r s)
  have kb := place_lt hp 32 rfl
  have k0 := bits_in hp 0 22 17 d rfl rfl
  have k1 := bits_in hp 1 16 11 a rfl rfl
  have k2 := bits_in hp 2 10 5 b rfl rfl
  have k3 := bits_in hp 3 4 2 r rfl rfl
  have k4 := bits_in hp 4 1 1 s rfl rfl
  have k5 := bits_out hp 29 23 10 rfl
  have k6 := bits_out hp 31 30 3 rfl
  have k7 := bits_out hp 0 0 0 rfl
  obtain ⟨wd, hw⟩ : ∃ wd, place 0xC5000000 [(17, 6), (11, 6), (5, 6), (2, 3), (1, 1)] [d, a, b, r, s] = wd := ⟨_, rfl⟩
  rw [hw] at kb k0 k1 k2 k3 k4 k5 k6 k7 ⊢
  clear hp hw
  refine ⟨kb, k6, ?_⟩
  unfold decodeCell32; rw [if_neg (by rw [k6]; decide), k5]
  refine (if_pos k7).trans ?_
  rw [k0, k1, k2, k3, k4]

theorem adds (d a b : Nat) : Statement (.adds d a b) := by
  intro hf
  replace hf : (decide (d < 64) && decide (a < 64) && decide (b < 64)) = true := hf
  simp only [Bool.and_eq_true, decide_eq_true_eq] at hf
  have hp : apart 0xC5800000 [(17, 6), (11, 6), (5, 6)] = true ∧ fit [(17, 6), (11, 6), (5, 6)] [d, a, b] = true := ⟨rfl, by simp [fit, hf]⟩
  change WordStatement (.cell, place 0xC5800000 [(17, 6), (11, 6), (5, 6)] [d, a, b]) (.adds d a b)
  have kb := place_lt hp 32 rfl
  have k0 := bits_in hp 0 22 17 d rfl rfl
  have k1 := bits_in hp 1 16 11 a rfl rfl
  have k2 := bits_in hp 2 10 5 b rfl rfl
  have k3 := bits_out hp 29 23 11 rfl
  have k4 := bits_out hp 31 30 3 rfl
  have k5 := bits_out hp 4 0 0 rfl
  obtain ⟨wd, hw⟩ : ∃ wd, place 0xC5800000 [(17, 6), (11, 6), (5, 6)] [d, a, b] = wd := ⟨_, rfl⟩
  rw [hw] at kb k0 k1 k2 k3 k4 k5 ⊢
  clear hp hw
  refine ⟨kb, k4, ?_⟩
  unfold decodeCell32; rw [if_neg (by rw [k4]; decide), k3]
  refine (if_pos k5).trans ?_
  rw [k0, k1, k2]

theorem subs (d a b : Nat) : Statement (.subs d a b) := by
  intro hf
  replace hf : (decide (d < 64) && decide (a < 64) && decide (b < 64)) = true := hf
  simp only [Bool.and_eq_true, decide_eq_true_eq] at hf
  have hp : apart 0xC6000000 [(17, 6), (11, 6), (5, 6)] = true ∧ fit [(17, 6), (11, 6), (5, 6)] [d, a, b] = true := ⟨rfl, by simp [fit, hf]⟩
  change WordStatement (.cell, place 0xC6000000 [(17, 6), (11, 6), (5, 6)] [d, a, b]) (.subs d a b)
  have kb := place_lt hp 32 rfl
  have k0 := bits_in hp 0 22 17 d rfl rfl
  have k1 := bits_in hp 1 16 11 a rfl rfl
  have k2 := bits_in hp 2 10 5 b rfl rfl
  have k3 := bits_out hp 29 23 12 rfl
  have k4 := bits_out hp 31 30 3 rfl
  have k5 := bits_out hp 4 0 0 rfl
  obtain ⟨wd, hw⟩ : ∃ wd, place 0xC6000000 [(17, 6), (11, 6), (5, 6)] [d, a, b] = wd := ⟨_, rfl⟩
  rw [hw] at kb k0 k1 k2 k3 k4 k5 ⊢
  clear hp hw
  refine ⟨kb, k4, ?_⟩
  unfold decodeCell32; rw [if_neg (by rw [k4]; decide), k3]
  refine (if_pos k5).trans ?_
  rw [k0, k1, k2]

theorem mulh (d a b : Nat) : Statement (.mulh d a b) := by
  intro hf
  replace hf : (decide (d < 64) && decide (a < 64) && decide (b < 64)) = true := hf
  simp only [Bool.and_eq_true, decide_eq_true_eq] at hf
  have hp : apart 0xC6800000 [(17, 6), (11, 6), (5, 6)] = true ∧ fit [(17, 6), (11, 6), (5, 6)] [d, a, b] = true := ⟨rfl, by simp [fit, hf]⟩
  change WordStatement (.cell, place 0xC6800000 [(17, 6), (11, 6), (5, 6)] [d, a, b]) (.mulh d a b)
  have kb := place_lt hp 32 rfl
  have k0 := bits_in hp 0 22 17 d rfl rfl
  have k1 := bits_in hp 1 16 11 a rfl rfl
  have k2 := bits_in hp 2 10 5 b rfl rfl
  have k3 := bits_out hp 29 23 13 rfl
  have k4 := bits_out hp 31 30 3 rfl
  have k5 := bits_out hp 4 0 0 rfl
  obtain ⟨wd, hw⟩ : ∃ wd, place 0xC6800000 [(17, 6), (11, 6), (5, 6)] [d, a, b] = wd := ⟨_, rfl⟩
  rw [hw] at kb k0 k1 k2 k3 k4 k5 ⊢
  clear hp hw
  refine ⟨kb, k4, ?_⟩
  unfold decodeCell32; rw [if_neg (by rw [k4]; decide), k3]
  refine (if_pos k5).trans ?_
  rw [k0, k1, k2]

theorem addi (d a i : Nat) : Statement (.addi d a i) := by
  intro hf
  replace hf : (decide (d < 64) && decide (a < 64) && decide (i < 2048)) = true := hf
  simp only [Bool.and_eq_true, decide_eq_true_eq] at hf
  have hp : apart 0xC7000000 [(17, 6), (11, 6), (0, 11)] = true ∧ fit [(17, 6), (11, 6), (0, 11)] [d, a, i] = true := ⟨rfl, by simp [fit, hf]⟩
  change WordStatement (.cell, place 0xC7000000 [(17, 6), (11, 6), (0, 11)] [d, a, i]) (.addi d a i)
  have kb := place_lt hp 32 rfl
  have k0 := bits_in hp 0 22 17 d rfl rfl
  have k1 := bits_in hp 1 16 11 a rfl rfl
  have k2 := bits_in hp 2 10 0 i rfl rfl
  have k3 := bits_out hp 29 23 14 rfl
  have k4 := bits_out hp 31 30 3 rfl
  obtain ⟨wd, hw⟩ : ∃ wd, place 0xC7000000 [(17, 6), (11, 6), (0, 11)] [d, a, i] = wd := ⟨_, rfl⟩
  rw [hw] at kb k0 k1 k2 k3 k4 ⊢
  clear hp hw
  refine ⟨kb, k4, ?_⟩
  unfold decodeCell32; rw [if_neg (by rw [k4]; decide), k3]
  refine (if_pos trivial).trans ?_
  rw [k0, k1, k2]

theorem muli (d a i : Nat) : Statement (.muli d a i) := by
  intro hf
  replace hf : (decide (d < 64) && decide (a < 64) && decide (i < 2048)) = true := hf
  simp only [Bool.and_eq_true, decide_eq_true_eq] at hf
  have hp : apart 0xC7800000 [(17, 6), (11, 6), (0, 11)] = true ∧ fit [(17, 6), (11, 6), (0, 11)] [d, a, i] = true := ⟨rfl, by simp [fit, hf]⟩
  change WordStatement (.cell, place 0xC7800000 [(17, 6), (11, 6), (0, 11)] [d, a, i]) (.muli d a i)
  have kb := place_lt hp 32 rfl
  have k0 := bits_in hp 0 22 17 d rfl rfl
  have k1 := bits_in hp 1 16 11 a rfl rfl
  have k2 := bits_in hp 2 10 0 i rfl rfl
  have k3 := bits_out hp 29 23 15 rfl
  have k4 := bits_out hp 31 30 3 rfl
  obtain ⟨wd, hw⟩ : ∃ wd, place 0xC7800000 [(17, 6), (11, 6), (0, 11)] [d, a, i] = wd := ⟨_, rfl⟩
  rw [hw] at kb k0 k1 k2 k3 k4 ⊢
  clear hp hw
  refine ⟨kb, k4, ?_⟩
  unfold decodeCell32; rw [if_neg (by rw [k4]; decide), k3]
  refine (if_pos trivial).trans ?_
  rw [k0, k1, k2]

theorem andOp (d a b : Nat) : Statement (.andOp d a b) := by
  intro hf
  replace hf : (decide (d < 64) && decide (a < 64) && decide (b < 64)) = true := hf
  simp only [Bool.and_eq_true, decide_eq_true_eq] at hf
  have hp : apart 0xC8000000 [(17, 6), (11, 6), (5, 6)] = true ∧ fit [(17, 6), (11, 6), (5, 6)] [d, a, b] = true := ⟨rfl, by simp [fit, hf]⟩
  change WordStatement (.cell, place 0xC8000000 [(17, 6), (11, 6), (5, 6)] [d, a, b]) (.andOp d a b)
  have kb := place_lt hp 32 rfl
  have k0 := bits_in hp 0 22 17 d rfl rfl
  have k1 := bits_in hp 1 16 11 a rfl rfl
  have k2 := bits_in hp 2 10 5 b rfl rfl
  have k3 := bits_out hp 29 23 16 rfl
  have k4 := bits_out hp 31 30 3 rfl
  have k5 := bits_out hp 4 0 0 rfl
  obtain ⟨wd, hw⟩ : ∃ wd, place 0xC8000000 [(17, 6), (11, 6), (5, 6)] [d, a, b] = wd := ⟨_, rfl⟩
  rw [hw] at kb k0 k1 k2 k3 k4 k5 ⊢
  clear hp hw
  refine ⟨kb, k4, ?_⟩
  unfold decodeCell32; rw [if_neg (by rw [k4]; decide), k3]
  refine (if_pos k5).trans ?_
  rw [k0, k1, k2]

theorem orOp (d a b : Nat) : Statement (.orOp d a b) := by
  intro hf
  replace hf : (decide (d < 64) && decide (a < 64) && decide (b < 64)) = true := hf
  simp only [Bool.and_eq_true, decide_eq_true_eq] at hf
  have hp : apart 0xC8800000 [(17, 6), (11, 6), (5, 6)] = true ∧ fit [(17, 6), (11, 6), (5, 6)] [d, a, b] = true := ⟨rfl, by simp [fit, hf]⟩
  change WordStatement (.cell, place 0xC8800000 [(17, 6), (11, 6), (5, 6)] [d, a, b]) (.orOp d a b)
  have kb := place_lt hp 32 rfl
  have k0 := bits_in hp 0 22 17 d rfl rfl
  have k1 := bits_in hp 1 16 11 a rfl rfl
  have k2 := bits_in hp 2 10 5 b rfl rfl
  have k3 := bits_out hp 29 23 17 rfl
  have k4 := bits_out hp 31 30 3 rfl
  have k5 := bits_out hp 4 0 0 rfl
  obtain ⟨wd, hw⟩ : ∃ wd, place 0xC8800000 [(17, 6), (11, 6), (5, 6)] [d, a, b] = wd := ⟨_, rfl⟩
  rw [hw] at kb k0 k1 k2 k3 k4 k5 ⊢
  clear hp hw
  refine ⟨kb, k4, ?_⟩
  unfold decodeCell32; rw [if_neg (by rw [k4]; decide), k3]
  refine (if_pos k5).trans ?_
  rw [k0, k1, k2]

theorem xor (d a b : Nat) : Statement (.xor d a b) := by
  intro hf
  replace hf : (decide (d < 64) && decide (a < 64) && decide (b < 64)) = true := hf
  simp only [Bool.and_eq_true, decide_eq_true_eq] at hf
  have hp : apart 0xC9000000 [(17, 6), (11, 6), (5, 6)] = true ∧ fit [(17, 6), (11, 6), (5, 6)] [d, a, b] = true := ⟨rfl, by simp [fit, hf]⟩
  change WordStatement (.cell, place 0xC9000000 [(17, 6), (11, 6), (5, 6)] [d, a, b]) (.xor d a b)
  have kb := place_lt hp 32 rfl
  have k0 := bits_in hp 0 22 17 d rfl rfl
  have k1 := bits_in hp 1 16 11 a rfl rfl
  have k2 := bits_in hp 2 10 5 b rfl rfl
  have k3 := bits_out hp 29 23 18 rfl
  have k4 := bits_out hp 31 30 3 rfl
  have k5 := bits_out hp 4 0 0 rfl
  obtain ⟨wd, hw⟩ : ∃ wd, place 0xC9000000 [(17, 6), (11, 6), (5, 6)] [d, a, b] = wd := ⟨_, rfl⟩
  rw [hw] at kb k0 k1 k2 k3 k4 k5 ⊢
  clear hp hw
  refine ⟨kb, k4, ?_⟩
  unfold decodeCell32; rw [if_neg (by rw [k4]; decide), k3]
  refine (if_pos k5).trans ?_
  rw [k0, k1, k2]

theorem notOp (d a : Nat) : Statement (.notOp d a) := by
  intro hf
  replace hf : (decide (d < 64) && decide (a < 64)) = true := hf
  simp only [Bool.and_eq_true, decide_eq_true_eq] at hf
  have hp : apart 0xC9800000 [(17, 6), (11, 6)] = true ∧ fit [(17, 6), (11, 6)] [d, a] = true := ⟨rfl, by simp [fit, hf]⟩
  change WordStatement (.cell, place 0xC9800000 [(17, 6), (11, 6)] [d, a]) (.notOp d a)
  have kb := place_lt hp 32 rfl
  have k0 := bits_in hp 0 22 17 d rfl rfl
  have k1 := bits_in hp 1 16 11 a rfl rfl
  have k2 := bits_out hp 29 23 19 rfl
  have k3 := bits_out hp 31 30 3 rfl
  have k4 := bits_out hp 10 0 0 rfl
  obtain ⟨wd, hw⟩ : ∃ wd, place 0xC9800000 [(17, 6), (11, 6)] [d, a] = wd := ⟨_, rfl⟩
  rw [hw] at kb k0 k1 k2 k3 k4 ⊢
  clear hp hw
  refine ⟨kb, k3, ?_⟩
  unfold decodeCell32; rw [if_neg (by rw [k3]; decide), k2]
  refine (if_pos k4).trans ?_
  rw [k0, k1]

theorem shl (d a b : Nat) : Statement (.shl d a b) := by
  intro hf
  replace hf : (decide (d < 64) && decide (a < 64) && decide (b < 64)) = true := hf
  simp only [Bool.and_eq_true, decide_eq_true_eq] at hf
  have hp : apart 0xCA000000 [(17, 6), (11, 6), (5, 6)] = true ∧ fit [(17, 6), (11, 6), (5, 6)] [d, a, b] = true := ⟨rfl, by simp [fit, hf]⟩
  change WordStatement (.cell, place 0xCA000000 [(17, 6), (11, 6), (5, 6)] [d, a, b]) (.shl d a b)
  have kb := place_lt hp 32 rfl
  have k0 := bits_in hp 0 22 17 d rfl rfl
  have k1 := bits_in hp 1 16 11 a rfl rfl
  have k2 := bits_in hp 2 10 5 b rfl rfl
  have k3 := bits_out hp 29 23 20 rfl
  have k4 := bits_out hp 31 30 3 rfl
  have k5 := bits_out hp 4 0 0 rfl
  obtain ⟨wd, hw⟩ : ∃ wd, place 0xCA000000 [(17, 6), (11, 6), (5, 6)] [d, a, b] = wd := ⟨_, rfl⟩
  rw [hw] at kb k0 k1 k2 k3 k4 k5 ⊢
  clear hp hw
  refine ⟨kb, k4, ?_⟩
  unfold decodeCell32; rw [if_neg (by rw [k4]; decide), k3]
  refine (if_pos k5).trans ?_
  rw [k0, k1, k2]

theorem shr (d a b : Nat) : Statement (.shr d a b) := by
  intro hf
  replace hf : (decide (d < 64) && decide (a < 64) && decide (b < 64)) = true := hf
  simp only [Bool.and_eq_true, decide_eq_true_eq] at hf
  have hp : apart 0xCA800000 [(17, 6), (11, 6), (5, 6)] = true ∧ fit [(17, 6), (11, 6), (5, 6)] [d, a, b] = true := ⟨rfl, by simp [fit, hf]⟩
  change WordStatement (.cell, place 0xCA800000 [(17, 6), (11, 6), (5, 6)] [d, a, b]) (.shr d a b)
  have kb := place_lt hp 32 rfl
  have k0 := bits_in hp 0 22 17 d rfl rfl
  have k1 := bits_in hp 1 16 11 a rfl rfl
  have k2 := bits_in hp 2 10 5 b rfl rfl
  have k3 := bits_out hp 29 23 21 rfl
  have k4 := bits_out hp 31 30 3 rfl
  have k5 := bits_out hp 4 0 0 rfl
  obtain ⟨wd, hw⟩ : ∃ wd, place 0xCA800000 [(17, 6), (11, 6), (5, 6)] [d, a, b] = wd := ⟨_, rfl⟩
  rw [hw] at kb k0 k1 k2 k3 k4 k5 ⊢
  clear hp hw
  refine ⟨kb, k4, ?_⟩
  unfold decodeCell32; rw [if_neg (by rw [k4]; decide), k3]
  refine (if_pos k5).trans ?_
  rw [k0, k1, k2]

theorem sha (d a b : Nat) : Statement (.sha d a b) := by
  intro hf
  replace hf : (decide (d < 64) && decide (a < 64) && decide (b < 64)) = true := hf
  simp only [Bool.and_eq_true, decide_eq_true_eq] at hf
  have hp : apart 0xCB000000 [(17, 6), (11, 6), (5, 6)] = true ∧ fit [(17, 6), (11, 6), (5, 6)] [d, a, b] = true := ⟨rfl, by simp [fit, hf]⟩
  change WordStatement (.cell, place 0xCB000000 [(17, 6), (11, 6), (5, 6)] [d, a, b]) (.sha d a b)
  have kb := place_lt hp 32 rfl
  have k0 := bits_in hp 0 22 17 d rfl rfl
  have k1 := bits_in hp 1 16 11 a rfl rfl
  have k2 := bits_in hp 2 10 5 b rfl rfl
  have k3 := bits_out hp 29 23 22 rfl
  have k4 := bits_out hp 31 30 3 rfl
  have k5 := bits_out hp 4 0 0 rfl
  obtain ⟨wd, hw⟩ : ∃ wd, place 0xCB000000 [(17, 6), (11, 6), (5, 6)] [d, a, b] = wd := ⟨_, rfl⟩
  rw [hw] at kb k0 k1 k2 k3 k4 k5 ⊢
  clear hp hw
  refine ⟨kb, k4, ?_⟩
  unfold decodeCell32; rw [if_neg (by rw [k4]; decide), k3]
  refine (if_pos k5).trans ?_
  rw [k0, k1, k2]

theorem rot (d a b : Nat) : Statement (.rot d a b) := by
  intro hf
  replace hf : (decide (d < 64) && decide (a < 64) && decide (b < 64)) = true := hf
  simp only [Bool.and_eq_true, decide_eq_true_eq] at hf
  have hp : apart 0xCB800000 [(17, 6), (11, 6), (5, 6)] = true ∧ fit [(17, 6), (11, 6), (5, 6)] [d, a, b] = true := ⟨rfl, by simp [fit, hf]⟩
  change WordStatement (.cell, place 0xCB800000 [(17, 6), (11, 6), (5, 6)] [d, a, b]) (.rot d a b)
  have kb := place_lt hp 32 rfl
  have k0 := bits_in hp 0 22 17 d rfl rfl
  have k1 := bits_in hp 1 16 11 a rfl rfl
  have k2 := bits_in hp 2 10 5 b rfl rfl
  have k3 := bits_out hp 29 23 23 rfl
  have k4 := bits_out hp 31 30 3 rfl
  have k5 := bits_out hp 4 0 0 rfl
  obtain ⟨wd, hw⟩ : ∃ wd, place 0xCB800000 [(17, 6), (11, 6), (5, 6)] [d, a, b] = wd := ⟨_, rfl⟩
  rw [hw] at kb k0 k1 k2 k3 k4 k5 ⊢
  clear hp hw
  refine ⟨kb, k4, ?_⟩
  unfold decodeCell32; rw [if_neg (by rw [k4]; decide), k3]
  refine (if_pos k5).trans ?_
  rw [k0, k1, k2]

theorem clz (d a : Nat) : Statement (.clz d a) := by
  intro hf
  replace hf : (decide (d < 64) && decide (a < 64)) = true := hf
  simp only [Bool.and_eq_true, decide_eq_true_eq] at hf
  have hp : apart 0xCC000000 [(17, 6), (11, 6)] = true ∧ fit [(17, 6), (11, 6)] [d, a] = true := ⟨rfl, by simp [fit, hf]⟩
  change WordStatement (.cell, place 0xCC000000 [(17, 6), (11, 6)] [d, a]) (.clz d a)
  have kb := place_lt hp 32 rfl
  have k0 := bits_in hp 0 22 17 d rfl rfl
  have k1 := bits_in hp 1 16 11 a rfl rfl
  have k2 := bits_out hp 29 23 24 rfl
  have k3 := bits_out hp 31 30 3 rfl
  have k4 := bits_out hp 10 0 0 rfl
  obtain ⟨wd, hw⟩ : ∃ wd, place 0xCC000000 [(17, 6), (11, 6)] [d, a] = wd := ⟨_, rfl⟩
  rw [hw] at kb k0 k1 k2 k3 k4 ⊢
  clear hp hw
  refine ⟨kb, k3, ?_⟩
  unfold decodeCell32; rw [if_neg (by rw [k3]; decide), k2]
  refine (if_pos k4).trans ?_
  rw [k0, k1]

theorem popc (d a : Nat) : Statement (.popc d a) := by
  intro hf
  replace hf : (decide (d < 64) && decide (a < 64)) = true := hf
  simp only [Bool.and_eq_true, decide_eq_true_eq] at hf
  have hp : apart 0xCC800000 [(17, 6), (11, 6)] = true ∧ fit [(17, 6), (11, 6)] [d, a] = true := ⟨rfl, by simp [fit, hf]⟩
  change WordStatement (.cell, place 0xCC800000 [(17, 6), (11, 6)] [d, a]) (.popc d a)
  have kb := place_lt hp 32 rfl
  have k0 := bits_in hp 0 22 17 d rfl rfl
  have k1 := bits_in hp 1 16 11 a rfl rfl
  have k2 := bits_out hp 29 23 25 rfl
  have k3 := bits_out hp 31 30 3 rfl
  have k4 := bits_out hp 10 0 0 rfl
  obtain ⟨wd, hw⟩ : ∃ wd, place 0xCC800000 [(17, 6), (11, 6)] [d, a] = wd := ⟨_, rfl⟩
  rw [hw] at kb k0 k1 k2 k3 k4 ⊢
  clear hp hw
  refine ⟨kb, k3, ?_⟩
  unfold decodeCell32; rw [if_neg (by rw [k3]; decide), k2]
  refine (if_pos k4).trans ?_
  rw [k0, k1]

theorem andi (d a i : Nat) : Statement (.andi d a i) := by
  intro hf
  replace hf : (decide (d < 64) && decide (a < 64) && decide (i < 2048)) = true := hf
  simp only [Bool.and_eq_true, decide_eq_true_eq] at hf
  have hp : apart 0xCD000000 [(17, 6), (11, 6), (0, 11)] = true ∧ fit [(17, 6), (11, 6), (0, 11)] [d, a, i] = true := ⟨rfl, by simp [fit, hf]⟩
  change WordStatement (.cell, place 0xCD000000 [(17, 6), (11, 6), (0, 11)] [d, a, i]) (.andi d a i)
  have kb := place_lt hp 32 rfl
  have k0 := bits_in hp 0 22 17 d rfl rfl
  have k1 := bits_in hp 1 16 11 a rfl rfl
  have k2 := bits_in hp 2 10 0 i rfl rfl
  have k3 := bits_out hp 29 23 26 rfl
  have k4 := bits_out hp 31 30 3 rfl
  obtain ⟨wd, hw⟩ : ∃ wd, place 0xCD000000 [(17, 6), (11, 6), (0, 11)] [d, a, i] = wd := ⟨_, rfl⟩
  rw [hw] at kb k0 k1 k2 k3 k4 ⊢
  clear hp hw
  refine ⟨kb, k4, ?_⟩
  unfold decodeCell32; rw [if_neg (by rw [k4]; decide), k3]
  refine (if_pos trivial).trans ?_
  rw [k0, k1, k2]

theorem ori (d a i : Nat) : Statement (.ori d a i) := by
  intro hf
  replace hf : (decide (d < 64) && decide (a < 64) && decide (i < 2048)) = true := hf
  simp only [Bool.and_eq_true, decide_eq_true_eq] at hf
  have hp : apart 0xCD800000 [(17, 6), (11, 6), (0, 11)] = true ∧ fit [(17, 6), (11, 6), (0, 11)] [d, a, i] = true := ⟨rfl, by simp [fit, hf]⟩
  change WordStatement (.cell, place 0xCD800000 [(17, 6), (11, 6), (0, 11)] [d, a, i]) (.ori d a i)
  have kb := place_lt hp 32 rfl
  have k0 := bits_in hp 0 22 17 d rfl rfl
  have k1 := bits_in hp 1 16 11 a rfl rfl
  have k2 := bits_in hp 2 10 0 i rfl rfl
  have k3 := bits_out hp 29 23 27 rfl
  have k4 := bits_out hp 31 30 3 rfl
  obtain ⟨wd, hw⟩ : ∃ wd, place 0xCD800000 [(17, 6), (11, 6), (0, 11)] [d, a, i] = wd := ⟨_, rfl⟩
  rw [hw] at kb k0 k1 k2 k3 k4 ⊢
  clear hp hw
  refine ⟨kb, k4, ?_⟩
  unfold decodeCell32; rw [if_neg (by rw [k4]; decide), k3]
  refine (if_pos trivial).trans ?_
  rw [k0, k1, k2]

theorem shli (d a i : Nat) : Statement (.shli d a i) := by
  intro hf
  replace hf : (decide (d < 64) && decide (a < 64) && decide (i < 2048)) = true := hf
  simp only [Bool.and_eq_true, decide_eq_true_eq] at hf
  have hp : apart 0xCE000000 [(17, 6), (11, 6), (0, 11)] = true ∧ fit [(17, 6), (11, 6), (0, 11)] [d, a, i] = true := ⟨rfl, by simp [fit, hf]⟩
  change WordStatement (.cell, place 0xCE000000 [(17, 6), (11, 6), (0, 11)] [d, a, i]) (.shli d a i)
  have kb := place_lt hp 32 rfl
  have k0 := bits_in hp 0 22 17 d rfl rfl
  have k1 := bits_in hp 1 16 11 a rfl rfl
  have k2 := bits_in hp 2 10 0 i rfl rfl
  have k3 := bits_out hp 29 23 28 rfl
  have k4 := bits_out hp 31 30 3 rfl
  obtain ⟨wd, hw⟩ : ∃ wd, place 0xCE000000 [(17, 6), (11, 6), (0, 11)] [d, a, i] = wd := ⟨_, rfl⟩
  rw [hw] at kb k0 k1 k2 k3 k4 ⊢
  clear hp hw
  refine ⟨kb, k4, ?_⟩
  unfold decodeCell32; rw [if_neg (by rw [k4]; decide), k3]
  refine (if_pos trivial).trans ?_
  rw [k0, k1, k2]

theorem shri (d a i : Nat) : Statement (.shri d a i) := by
  intro hf
  replace hf : (decide (d < 64) && decide (a < 64) && decide (i < 2048)) = true := hf
  simp only [Bool.and_eq_true, decide_eq_true_eq] at hf
  have hp : apart 0xCE800000 [(17, 6), (11, 6), (0, 11)] = true ∧ fit [(17, 6), (11, 6), (0, 11)] [d, a, i] = true := ⟨rfl, by simp [fit, hf]⟩
  change WordStatement (.cell, place 0xCE800000 [(17, 6), (11, 6), (0, 11)] [d, a, i]) (.shri d a i)
  have kb := place_lt hp 32 rfl
  have k0 := bits_in hp 0 22 17 d rfl rfl
  have k1 := bits_in hp 1 16 11 a rfl rfl
  have k2 := bits_in hp 2 10 0 i rfl rfl
  have k3 := bits_out hp 29 23 29 rfl
  have k4 := bits_out hp 31 30 3 rfl
  obtain ⟨wd, hw⟩ : ∃ wd, place 0xCE800000 [(17, 6), (11, 6), (0, 11)] [d, a, i] = wd := ⟨_, rfl⟩
  rw [hw] at kb k0 k1 k2 k3 k4 ⊢
  clear hp hw
  refine ⟨kb, k4, ?_⟩
  unfold decodeCell32; rw [if_neg (by rw [k4]; decide), k3]
  refine (if_pos trivial).trans ?_
  rw [k0, k1, k2]

theorem shai (d a i : Nat) : Statement (.shai d a i) := by
  intro hf
  replace hf : (decide (d < 64) && decide (a < 64) && decide (i < 2048)) = true := hf
  simp only [Bool.and_eq_true, decide_eq_true_eq] at hf
  have hp : apart 0xCF000000 [(17, 6), (11, 6), (0, 11)] = true ∧ fit [(17, 6), (11, 6), (0, 11)] [d, a, i] = true := ⟨rfl, by simp [fit, hf]⟩
  change WordStatement (.cell, place 0xCF000000 [(17, 6), (11, 6), (0, 11)] [d, a, i]) (.shai d a i)
  have kb := place_lt hp 32 rfl
  have k0 := bits_in hp 0 22 17 d rfl rfl
  have k1 := bits_in hp 1 16 11 a rfl rfl
  have k2 := bits_in hp 2 10 0 i rfl rfl
  have k3 := bits_out hp 29 23 30 rfl
  have k4 := bits_out hp 31 30 3 rfl
  obtain ⟨wd, hw⟩ : ∃ wd, place 0xCF000000 [(17, 6), (11, 6), (0, 11)] [d, a, i] = wd := ⟨_, rfl⟩
  rw [hw] at kb k0 k1 k2 k3 k4 ⊢
  clear hp hw
  refine ⟨kb, k4, ?_⟩
  unfold decodeCell32; rw [if_neg (by rw [k4]; decide), k3]
  refine (if_pos trivial).trans ?_
  rw [k0, k1, k2]

theorem bfx (d a x w l : Nat) : Statement (.bfx d a x w l) := by
  intro hf
  replace hf : (decide (d < 64) && decide (a < 64) && decide (x < 2) && decide (w < 32) && decide (l < 32)) = true := hf
  simp only [Bool.and_eq_true, decide_eq_true_eq] at hf
  have hp : apart 0xCF800000 [(17, 6), (11, 6), (10, 1), (5, 5), (0, 5)] = true ∧ fit [(17, 6), (11, 6), (10, 1), (5, 5), (0, 5)] [d, a, x, w, l] = true := ⟨rfl, by simp [fit, hf]⟩
  change WordStatement (.cell, place 0xCF800000 [(17, 6), (11, 6), (10, 1), (5, 5), (0, 5)] [d, a, x, w, l]) (.bfx d a x w l)
  have kb := place_lt hp 32 rfl
  have k0 := bits_in hp 0 22 17 d rfl rfl
  have k1 := bits_in hp 1 16 11 a rfl rfl
  have k2 := bits_in hp 2 10 10 x rfl rfl
  have k3 := bits_in hp 3 9 5 w rfl rfl
  have k4 := bits_in hp 4 4 0 l rfl rfl
  have k5 := bits_out hp 29 23 31 rfl
  have k6 := bits_out hp 31 30 3 rfl
  obtain ⟨wd, hw⟩ : ∃ wd, place 0xCF800000 [(17, 6), (11, 6), (10, 1), (5, 5), (0, 5)] [d, a, x, w, l] = wd := ⟨_, rfl⟩
  rw [hw] at kb k0 k1 k2 k3 k4 k5 k6 ⊢
  clear hp hw
  refine ⟨kb, k6, ?_⟩
  unfold decodeCell32; rw [if_neg (by rw [k6]; decide), k5]
  refine (if_pos trivial).trans ?_
  rw [k0, k1, k2, k3, k4]

theorem rcp (d a r s : Nat) : Statement (.rcp d a r s) := by
  intro hf
  replace hf : (decide (d < 64) && decide (a < 64) && decide (r < 8) && decide (s < 2)) = true := hf
  simp only [Bool.and_eq_true, decide_eq_true_eq] at hf
  have hp : apart 0xD0000000 [(17, 6), (11, 6), (2, 3), (1, 1)] = true ∧ fit [(17, 6), (11, 6), (2, 3), (1, 1)] [d, a, r, s] = true := ⟨rfl, by simp [fit, hf]⟩
  change WordStatement (.cell, place 0xD0000000 [(17, 6), (11, 6), (2, 3), (1, 1)] [d, a, r, s]) (.rcp d a r s)
  have kb := place_lt hp 32 rfl
  have k0 := bits_in hp 0 22 17 d rfl rfl
  have k1 := bits_in hp 1 16 11 a rfl rfl
  have k2 := bits_in hp 2 4 2 r rfl rfl
  have k3 := bits_in hp 3 1 1 s rfl rfl
  have k4 := bits_out hp 29 23 32 rfl
  have k5 := bits_out hp 31 30 3 rfl
  have k6 := bits_out hp 10 5 0 rfl
  have k7 := bits_out hp 0 0 0 rfl
  obtain ⟨wd, hw⟩ : ∃ wd, place 0xD0000000 [(17, 6), (11, 6), (2, 3), (1, 1)] [d, a, r, s] = wd := ⟨_, rfl⟩
  rw [hw] at kb k0 k1 k2 k3 k4 k5 k6 k7 ⊢
  clear hp hw
  refine ⟨kb, k5, ?_⟩
  unfold decodeCell32; rw [if_neg (by rw [k5]; decide), k4]
  refine (if_pos ⟨k6, k7⟩).trans ?_
  rw [k0, k1, k2, k3]

theorem rsq (d a r s : Nat) : Statement (.rsq d a r s) := by
  intro hf
  replace hf : (decide (d < 64) && decide (a < 64) && decide (r < 8) && decide (s < 2)) = true := hf
  simp only [Bool.and_eq_true, decide_eq_true_eq] at hf
  have hp : apart 0xD0800000 [(17, 6), (11, 6), (2, 3), (1, 1)] = true ∧ fit [(17, 6), (11, 6), (2, 3), (1, 1)] [d, a, r, s] = true := ⟨rfl, by simp [fit, hf]⟩
  change WordStatement (.cell, place 0xD0800000 [(17, 6), (11, 6), (2, 3), (1, 1)] [d, a, r, s]) (.rsq d a r s)
  have kb := place_lt hp 32 rfl
  have k0 := bits_in hp 0 22 17 d rfl rfl
  have k1 := bits_in hp 1 16 11 a rfl rfl
  have k2 := bits_in hp 2 4 2 r rfl rfl
  have k3 := bits_in hp 3 1 1 s rfl rfl
  have k4 := bits_out hp 29 23 33 rfl
  have k5 := bits_out hp 31 30 3 rfl
  have k6 := bits_out hp 10 5 0 rfl
  have k7 := bits_out hp 0 0 0 rfl
  obtain ⟨wd, hw⟩ : ∃ wd, place 0xD0800000 [(17, 6), (11, 6), (2, 3), (1, 1)] [d, a, r, s] = wd := ⟨_, rfl⟩
  rw [hw] at kb k0 k1 k2 k3 k4 k5 k6 k7 ⊢
  clear hp hw
  refine ⟨kb, k5, ?_⟩
  unfold decodeCell32; rw [if_neg (by rw [k5]; decide), k4]
  refine (if_pos ⟨k6, k7⟩).trans ?_
  rw [k0, k1, k2, k3]

theorem sqrt (d a r s : Nat) : Statement (.sqrt d a r s) := by
  intro hf
  replace hf : (decide (d < 64) && decide (a < 64) && decide (r < 8) && decide (s < 2)) = true := hf
  simp only [Bool.and_eq_true, decide_eq_true_eq] at hf
  have hp : apart 0xD1000000 [(17, 6), (11, 6), (2, 3), (1, 1)] = true ∧ fit [(17, 6), (11, 6), (2, 3), (1, 1)] [d, a, r, s] = true := ⟨rfl, by simp [fit, hf]⟩
  change WordStatement (.cell, place 0xD1000000 [(17, 6), (11, 6), (2, 3), (1, 1)] [d, a, r, s]) (.sqrt d a r s)
  have kb := place_lt hp 32 rfl
  have k0 := bits_in hp 0 22 17 d rfl rfl
  have k1 := bits_in hp 1 16 11 a rfl rfl
  have k2 := bits_in hp 2 4 2 r rfl rfl
  have k3 := bits_in hp 3 1 1 s rfl rfl
  have k4 := bits_out hp 29 23 34 rfl
  have k5 := bits_out hp 31 30 3 rfl
  have k6 := bits_out hp 10 5 0 rfl
  have k7 := bits_out hp 0 0 0 rfl
  obtain ⟨wd, hw⟩ : ∃ wd, place 0xD1000000 [(17, 6), (11, 6), (2, 3), (1, 1)] [d, a, r, s] = wd := ⟨_, rfl⟩
  rw [hw] at kb k0 k1 k2 k3 k4 k5 k6 k7 ⊢
  clear hp hw
  refine ⟨kb, k5, ?_⟩
  unfold decodeCell32; rw [if_neg (by rw [k5]; decide), k4]
  refine (if_pos ⟨k6, k7⟩).trans ?_
  rw [k0, k1, k2, k3]

theorem exp2 (d a r s : Nat) : Statement (.exp2 d a r s) := by
  intro hf
  replace hf : (decide (d < 64) && decide (a < 64) && decide (r < 8) && decide (s < 2)) = true := hf
  simp only [Bool.and_eq_true, decide_eq_true_eq] at hf
  have hp : apart 0xD1800000 [(17, 6), (11, 6), (2, 3), (1, 1)] = true ∧ fit [(17, 6), (11, 6), (2, 3), (1, 1)] [d, a, r, s] = true := ⟨rfl, by simp [fit, hf]⟩
  change WordStatement (.cell, place 0xD1800000 [(17, 6), (11, 6), (2, 3), (1, 1)] [d, a, r, s]) (.exp2 d a r s)
  have kb := place_lt hp 32 rfl
  have k0 := bits_in hp 0 22 17 d rfl rfl
  have k1 := bits_in hp 1 16 11 a rfl rfl
  have k2 := bits_in hp 2 4 2 r rfl rfl
  have k3 := bits_in hp 3 1 1 s rfl rfl
  have k4 := bits_out hp 29 23 35 rfl
  have k5 := bits_out hp 31 30 3 rfl
  have k6 := bits_out hp 10 5 0 rfl
  have k7 := bits_out hp 0 0 0 rfl
  obtain ⟨wd, hw⟩ : ∃ wd, place 0xD1800000 [(17, 6), (11, 6), (2, 3), (1, 1)] [d, a, r, s] = wd := ⟨_, rfl⟩
  rw [hw] at kb k0 k1 k2 k3 k4 k5 k6 k7 ⊢
  clear hp hw
  refine ⟨kb, k5, ?_⟩
  unfold decodeCell32; rw [if_neg (by rw [k5]; decide), k4]
  refine (if_pos ⟨k6, k7⟩).trans ?_
  rw [k0, k1, k2, k3]

theorem log2 (d a r s : Nat) : Statement (.log2 d a r s) := by
  intro hf
  replace hf : (decide (d < 64) && decide (a < 64) && decide (r < 8) && decide (s < 2)) = true := hf
  simp only [Bool.and_eq_true, decide_eq_true_eq] at hf
  have hp : apart 0xD2000000 [(17, 6), (11, 6), (2, 3), (1, 1)] = true ∧ fit [(17, 6), (11, 6), (2, 3), (1, 1)] [d, a, r, s] = true := ⟨rfl, by simp [fit, hf]⟩
  change WordStatement (.cell, place 0xD2000000 [(17, 6), (11, 6), (2, 3), (1, 1)] [d, a, r, s]) (.log2 d a r s)
  have kb := place_lt hp 32 rfl
  have k0 := bits_in hp 0 22 17 d rfl rfl
  have k1 := bits_in hp 1 16 11 a rfl rfl
  have k2 := bits_in hp 2 4 2 r rfl rfl
  have k3 := bits_in hp 3 1 1 s rfl rfl
  have k4 := bits_out hp 29 23 36 rfl
  have k5 := bits_out hp 31 30 3 rfl
  have k6 := bits_out hp 10 5 0 rfl
  have k7 := bits_out hp 0 0 0 rfl
  obtain ⟨wd, hw⟩ : ∃ wd, place 0xD2000000 [(17, 6), (11, 6), (2, 3), (1, 1)] [d, a, r, s] = wd := ⟨_, rfl⟩
  rw [hw] at kb k0 k1 k2 k3 k4 k5 k6 k7 ⊢
  clear hp hw
  refine ⟨kb, k5, ?_⟩
  unfold decodeCell32; rw [if_neg (by rw [k5]; decide), k4]
  refine (if_pos ⟨k6, k7⟩).trans ?_
  rw [k0, k1, k2, k3]

theorem tanh (d a r s : Nat) : Statement (.tanh d a r s) := by
  intro hf
  replace hf : (decide (d < 64) && decide (a < 64) && decide (r < 8) && decide (s < 2)) = true := hf
  simp only [Bool.and_eq_true, decide_eq_true_eq] at hf
  have hp : apart 0xD2800000 [(17, 6), (11, 6), (2, 3), (1, 1)] = true ∧ fit [(17, 6), (11, 6), (2, 3), (1, 1)] [d, a, r, s] = true := ⟨rfl, by simp [fit, hf]⟩
  change WordStatement (.cell, place 0xD2800000 [(17, 6), (11, 6), (2, 3), (1, 1)] [d, a, r, s]) (.tanh d a r s)
  have kb := place_lt hp 32 rfl
  have k0 := bits_in hp 0 22 17 d rfl rfl
  have k1 := bits_in hp 1 16 11 a rfl rfl
  have k2 := bits_in hp 2 4 2 r rfl rfl
  have k3 := bits_in hp 3 1 1 s rfl rfl
  have k4 := bits_out hp 29 23 37 rfl
  have k5 := bits_out hp 31 30 3 rfl
  have k6 := bits_out hp 10 5 0 rfl
  have k7 := bits_out hp 0 0 0 rfl
  obtain ⟨wd, hw⟩ : ∃ wd, place 0xD2800000 [(17, 6), (11, 6), (2, 3), (1, 1)] [d, a, r, s] = wd := ⟨_, rfl⟩
  rw [hw] at kb k0 k1 k2 k3 k4 k5 k6 k7 ⊢
  clear hp hw
  refine ⟨kb, k5, ?_⟩
  unfold decodeCell32; rw [if_neg (by rw [k5]; decide), k4]
  refine (if_pos ⟨k6, k7⟩).trans ?_
  rw [k0, k1, k2, k3]

theorem sinp (d a r s : Nat) : Statement (.sinp d a r s) := by
  intro hf
  replace hf : (decide (d < 64) && decide (a < 64) && decide (r < 8) && decide (s < 2)) = true := hf
  simp only [Bool.and_eq_true, decide_eq_true_eq] at hf
  have hp : apart 0xD3000000 [(17, 6), (11, 6), (2, 3), (1, 1)] = true ∧ fit [(17, 6), (11, 6), (2, 3), (1, 1)] [d, a, r, s] = true := ⟨rfl, by simp [fit, hf]⟩
  change WordStatement (.cell, place 0xD3000000 [(17, 6), (11, 6), (2, 3), (1, 1)] [d, a, r, s]) (.sinp d a r s)
  have kb := place_lt hp 32 rfl
  have k0 := bits_in hp 0 22 17 d rfl rfl
  have k1 := bits_in hp 1 16 11 a rfl rfl
  have k2 := bits_in hp 2 4 2 r rfl rfl
  have k3 := bits_in hp 3 1 1 s rfl rfl
  have k4 := bits_out hp 29 23 38 rfl
  have k5 := bits_out hp 31 30 3 rfl
  have k6 := bits_out hp 10 5 0 rfl
  have k7 := bits_out hp 0 0 0 rfl
  obtain ⟨wd, hw⟩ : ∃ wd, place 0xD3000000 [(17, 6), (11, 6), (2, 3), (1, 1)] [d, a, r, s] = wd := ⟨_, rfl⟩
  rw [hw] at kb k0 k1 k2 k3 k4 k5 k6 k7 ⊢
  clear hp hw
  refine ⟨kb, k5, ?_⟩
  unfold decodeCell32; rw [if_neg (by rw [k5]; decide), k4]
  refine (if_pos ⟨k6, k7⟩).trans ?_
  rw [k0, k1, k2, k3]

theorem cosp (d a r s : Nat) : Statement (.cosp d a r s) := by
  intro hf
  replace hf : (decide (d < 64) && decide (a < 64) && decide (r < 8) && decide (s < 2)) = true := hf
  simp only [Bool.and_eq_true, decide_eq_true_eq] at hf
  have hp : apart 0xD3800000 [(17, 6), (11, 6), (2, 3), (1, 1)] = true ∧ fit [(17, 6), (11, 6), (2, 3), (1, 1)] [d, a, r, s] = true := ⟨rfl, by simp [fit, hf]⟩
  change WordStatement (.cell, place 0xD3800000 [(17, 6), (11, 6), (2, 3), (1, 1)] [d, a, r, s]) (.cosp d a r s)
  have kb := place_lt hp 32 rfl
  have k0 := bits_in hp 0 22 17 d rfl rfl
  have k1 := bits_in hp 1 16 11 a rfl rfl
  have k2 := bits_in hp 2 4 2 r rfl rfl
  have k3 := bits_in hp 3 1 1 s rfl rfl
  have k4 := bits_out hp 29 23 39 rfl
  have k5 := bits_out hp 31 30 3 rfl
  have k6 := bits_out hp 10 5 0 rfl
  have k7 := bits_out hp 0 0 0 rfl
  obtain ⟨wd, hw⟩ : ∃ wd, place 0xD3800000 [(17, 6), (11, 6), (2, 3), (1, 1)] [d, a, r, s] = wd := ⟨_, rfl⟩
  rw [hw] at kb k0 k1 k2 k3 k4 k5 k6 k7 ⊢
  clear hp hw
  refine ⟨kb, k5, ?_⟩
  unfold decodeCell32; rw [if_neg (by rw [k5]; decide), k4]
  refine (if_pos ⟨k6, k7⟩).trans ?_
  rw [k0, k1, k2, k3]

theorem cmp (d a b c : Nat) : Statement (.cmp d a b c) := by
  intro hf
  replace hf : (decide (d < 64) && decide (a < 64) && decide (b < 64) && decide (c < 8)) = true := hf
  simp only [Bool.and_eq_true, decide_eq_true_eq] at hf
  have hp : apart 0xD4000000 [(17, 6), (11, 6), (5, 6), (2, 3)] = true ∧ fit [(17, 6), (11, 6), (5, 6), (2, 3)] [d, a, b, c] = true := ⟨rfl, by simp [fit, hf]⟩
  change WordStatement (.cell, place 0xD4000000 [(17, 6), (11, 6), (5, 6), (2, 3)] [d, a, b, c]) (.cmp d a b c)
  have kb := place_lt hp 32 rfl
  have k0 := bits_in hp 0 22 17 d rfl rfl
  have k1 := bits_in hp 1 16 11 a rfl rfl
  have k2 := bits_in hp 2 10 5 b rfl rfl
  have k3 := bits_in hp 3 4 2 c rfl rfl
  have k4 := bits_out hp 29 23 40 rfl
  have k5 := bits_out hp 31 30 3 rfl
  have k6 := bits_out hp 1 0 0 rfl
  obtain ⟨wd, hw⟩ : ∃ wd, place 0xD4000000 [(17, 6), (11, 6), (5, 6), (2, 3)] [d, a, b, c] = wd := ⟨_, rfl⟩
  rw [hw] at kb k0 k1 k2 k3 k4 k5 k6 ⊢
  clear hp hw
  refine ⟨kb, k5, ?_⟩
  unfold decodeCell32; rw [if_neg (by rw [k5]; decide), k4]
  refine (if_pos k6).trans ?_
  rw [k0, k1, k2, k3]

theorem setv (d a b : Nat) : Statement (.setv d a b) := by
  intro hf
  replace hf : (decide (d < 64) && decide (a < 64) && decide (b < 64)) = true := hf
  simp only [Bool.and_eq_true, decide_eq_true_eq] at hf
  have hp : apart 0xD4800000 [(17, 6), (11, 6), (5, 6)] = true ∧ fit [(17, 6), (11, 6), (5, 6)] [d, a, b] = true := ⟨rfl, by simp [fit, hf]⟩
  change WordStatement (.cell, place 0xD4800000 [(17, 6), (11, 6), (5, 6)] [d, a, b]) (.setv d a b)
  have kb := place_lt hp 32 rfl
  have k0 := bits_in hp 0 22 17 d rfl rfl
  have k1 := bits_in hp 1 16 11 a rfl rfl
  have k2 := bits_in hp 2 10 5 b rfl rfl
  have k3 := bits_out hp 29 23 41 rfl
  have k4 := bits_out hp 31 30 3 rfl
  have k5 := bits_out hp 4 0 0 rfl
  obtain ⟨wd, hw⟩ : ∃ wd, place 0xD4800000 [(17, 6), (11, 6), (5, 6)] [d, a, b] = wd := ⟨_, rfl⟩
  rw [hw] at kb k0 k1 k2 k3 k4 k5 ⊢
  clear hp hw
  refine ⟨kb, k4, ?_⟩
  unfold decodeCell32; rw [if_neg (by rw [k4]; decide), k3]
  refine (if_pos k5).trans ?_
  rw [k0, k1, k2]

theorem sel (d a b : Nat) : Statement (.sel d a b) := by
  intro hf
  replace hf : (decide (d < 64) && decide (a < 64) && decide (b < 64)) = true := hf
  simp only [Bool.and_eq_true, decide_eq_true_eq] at hf
  have hp : apart 0xD5000000 [(17, 6), (11, 6), (5, 6)] = true ∧ fit [(17, 6), (11, 6), (5, 6)] [d, a, b] = true := ⟨rfl, by simp [fit, hf]⟩
  change WordStatement (.cell, place 0xD5000000 [(17, 6), (11, 6), (5, 6)] [d, a, b]) (.sel d a b)
  have kb := place_lt hp 32 rfl
  have k0 := bits_in hp 0 22 17 d rfl rfl
  have k1 := bits_in hp 1 16 11 a rfl rfl
  have k2 := bits_in hp 2 10 5 b rfl rfl
  have k3 := bits_out hp 29 23 42 rfl
  have k4 := bits_out hp 31 30 3 rfl
  have k5 := bits_out hp 4 0 0 rfl
  obtain ⟨wd, hw⟩ : ∃ wd, place 0xD5000000 [(17, 6), (11, 6), (5, 6)] [d, a, b] = wd := ⟨_, rfl⟩
  rw [hw] at kb k0 k1 k2 k3 k4 k5 ⊢
  clear hp hw
  refine ⟨kb, k4, ?_⟩
  unfold decodeCell32; rw [if_neg (by rw [k4]; decide), k3]
  refine (if_pos k5).trans ?_
  rw [k0, k1, k2]

theorem cntv (d a : Nat) : Statement (.cntv d a) := by
  intro hf
  replace hf : (decide (d < 64) && decide (a < 64)) = true := hf
  simp only [Bool.and_eq_true, decide_eq_true_eq] at hf
  have hp : apart 0xD5800000 [(17, 6), (11, 6)] = true ∧ fit [(17, 6), (11, 6)] [d, a] = true := ⟨rfl, by simp [fit, hf]⟩
  change WordStatement (.cell, place 0xD5800000 [(17, 6), (11, 6)] [d, a]) (.cntv d a)
  have kb := place_lt hp 32 rfl
  have k0 := bits_in hp 0 22 17 d rfl rfl
  have k1 := bits_in hp 1 16 11 a rfl rfl
  have k2 := bits_out hp 29 23 43 rfl
  have k3 := bits_out hp 31 30 3 rfl
  have k4 := bits_out hp 10 0 0 rfl
  obtain ⟨wd, hw⟩ : ∃ wd, place 0xD5800000 [(17, 6), (11, 6)] [d, a] = wd := ⟨_, rfl⟩
  rw [hw] at kb k0 k1 k2 k3 k4 ⊢
  clear hp hw
  refine ⟨kb, k3, ?_⟩
  unfold decodeCell32; rw [if_neg (by rw [k3]; decide), k2]
  refine (if_pos k4).trans ?_
  rw [k0, k1]

theorem firstv (d a : Nat) : Statement (.firstv d a) := by
  intro hf
  replace hf : (decide (d < 64) && decide (a < 64)) = true := hf
  simp only [Bool.and_eq_true, decide_eq_true_eq] at hf
  have hp : apart 0xD6000000 [(17, 6), (11, 6)] = true ∧ fit [(17, 6), (11, 6)] [d, a] = true := ⟨rfl, by simp [fit, hf]⟩
  change WordStatement (.cell, place 0xD6000000 [(17, 6), (11, 6)] [d, a]) (.firstv d a)
  have kb := place_lt hp 32 rfl
  have k0 := bits_in hp 0 22 17 d rfl rfl
  have k1 := bits_in hp 1 16 11 a rfl rfl
  have k2 := bits_out hp 29 23 44 rfl
  have k3 := bits_out hp 31 30 3 rfl
  have k4 := bits_out hp 10 0 0 rfl
  obtain ⟨wd, hw⟩ : ∃ wd, place 0xD6000000 [(17, 6), (11, 6)] [d, a] = wd := ⟨_, rfl⟩
  rw [hw] at kb k0 k1 k2 k3 k4 ⊢
  clear hp hw
  refine ⟨kb, k3, ?_⟩
  unfold decodeCell32; rw [if_neg (by rw [k3]; decide), k2]
  refine (if_pos k4).trans ?_
  rw [k0, k1]

theorem classOp (d a : Nat) : Statement (.classOp d a) := by
  intro hf
  replace hf : (decide (d < 64) && decide (a < 64)) = true := hf
  simp only [Bool.and_eq_true, decide_eq_true_eq] at hf
  have hp : apart 0xD6800000 [(17, 6), (11, 6)] = true ∧ fit [(17, 6), (11, 6)] [d, a] = true := ⟨rfl, by simp [fit, hf]⟩
  change WordStatement (.cell, place 0xD6800000 [(17, 6), (11, 6)] [d, a]) (.classOp d a)
  have kb := place_lt hp 32 rfl
  have k0 := bits_in hp 0 22 17 d rfl rfl
  have k1 := bits_in hp 1 16 11 a rfl rfl
  have k2 := bits_out hp 29 23 45 rfl
  have k3 := bits_out hp 31 30 3 rfl
  have k4 := bits_out hp 10 0 0 rfl
  obtain ⟨wd, hw⟩ : ∃ wd, place 0xD6800000 [(17, 6), (11, 6)] [d, a] = wd := ⟨_, rfl⟩
  rw [hw] at kb k0 k1 k2 k3 k4 ⊢
  clear hp hw
  refine ⟨kb, k3, ?_⟩
  unfold decodeCell32; rw [if_neg (by rw [k3]; decide), k2]
  refine (if_pos k4).trans ?_
  rw [k0, k1]

theorem cpsgn (d a b : Nat) : Statement (.cpsgn d a b) := by
  intro hf
  replace hf : (decide (d < 64) && decide (a < 64) && decide (b < 64)) = true := hf
  simp only [Bool.and_eq_true, decide_eq_true_eq] at hf
  have hp : apart 0xD7000000 [(17, 6), (11, 6), (5, 6)] = true ∧ fit [(17, 6), (11, 6), (5, 6)] [d, a, b] = true := ⟨rfl, by simp [fit, hf]⟩
  change WordStatement (.cell, place 0xD7000000 [(17, 6), (11, 6), (5, 6)] [d, a, b]) (.cpsgn d a b)
  have kb := place_lt hp 32 rfl
  have k0 := bits_in hp 0 22 17 d rfl rfl
  have k1 := bits_in hp 1 16 11 a rfl rfl
  have k2 := bits_in hp 2 10 5 b rfl rfl
  have k3 := bits_out hp 29 23 46 rfl
  have k4 := bits_out hp 31 30 3 rfl
  have k5 := bits_out hp 4 0 0 rfl
  obtain ⟨wd, hw⟩ : ∃ wd, place 0xD7000000 [(17, 6), (11, 6), (5, 6)] [d, a, b] = wd := ⟨_, rfl⟩
  rw [hw] at kb k0 k1 k2 k3 k4 k5 ⊢
  clear hp hw
  refine ⟨kb, k4, ?_⟩
  unfold decodeCell32; rw [if_neg (by rw [k4]; decide), k3]
  refine (if_pos k5).trans ?_
  rw [k0, k1, k2]

theorem rndi (d a r : Nat) : Statement (.rndi d a r) := by
  intro hf
  replace hf : (decide (d < 64) && decide (a < 64) && decide (r < 8)) = true := hf
  simp only [Bool.and_eq_true, decide_eq_true_eq] at hf
  have hp : apart 0xD7800000 [(17, 6), (11, 6), (2, 3)] = true ∧ fit [(17, 6), (11, 6), (2, 3)] [d, a, r] = true := ⟨rfl, by simp [fit, hf]⟩
  change WordStatement (.cell, place 0xD7800000 [(17, 6), (11, 6), (2, 3)] [d, a, r]) (.rndi d a r)
  have kb := place_lt hp 32 rfl
  have k0 := bits_in hp 0 22 17 d rfl rfl
  have k1 := bits_in hp 1 16 11 a rfl rfl
  have k2 := bits_in hp 2 4 2 r rfl rfl
  have k3 := bits_out hp 29 23 47 rfl
  have k4 := bits_out hp 31 30 3 rfl
  have k5 := bits_out hp 10 5 0 rfl
  have k6 := bits_out hp 1 0 0 rfl
  obtain ⟨wd, hw⟩ : ∃ wd, place 0xD7800000 [(17, 6), (11, 6), (2, 3)] [d, a, r] = wd := ⟨_, rfl⟩
  rw [hw] at kb k0 k1 k2 k3 k4 k5 k6 ⊢
  clear hp hw
  refine ⟨kb, k4, ?_⟩
  unfold decodeCell32; rw [if_neg (by rw [k4]; decide), k3]
  refine (if_pos ⟨k5, k6⟩).trans ?_
  rw [k0, k1, k2]

theorem cvt (d a f r s : Nat) : Statement (.cvt d a f r s) := by
  intro hf
  replace hf : (decide (d < 64) && decide (a < 64) && decide (f < 16) && decide (r < 8) && decide (s < 2)) = true := hf
  simp only [Bool.and_eq_true, decide_eq_true_eq] at hf
  have hp : apart 0xD8000000 [(17, 6), (11, 6), (4, 4), (1, 3), (0, 1)] = true ∧ fit [(17, 6), (11, 6), (4, 4), (1, 3), (0, 1)] [d, a, f, r, s] = true := ⟨rfl, by simp [fit, hf]⟩
  change WordStatement (.cell, place 0xD8000000 [(17, 6), (11, 6), (4, 4), (1, 3), (0, 1)] [d, a, f, r, s]) (.cvt d a f r s)
  have kb := place_lt hp 32 rfl
  have k0 := bits_in hp 0 22 17 d rfl rfl
  have k1 := bits_in hp 1 16 11 a rfl rfl
  have k2 := bits_in hp 2 7 4 f rfl rfl
  have k3 := bits_in hp 3 3 1 r rfl rfl
  have k4 := bits_in hp 4 0 0 s rfl rfl
  have k5 := bits_out hp 29 23 48 rfl
  have k6 := bits_out hp 31 30 3 rfl
  have k7 := bits_out hp 10 8 0 rfl
  obtain ⟨wd, hw⟩ : ∃ wd, place 0xD8000000 [(17, 6), (11, 6), (4, 4), (1, 3), (0, 1)] [d, a, f, r, s] = wd := ⟨_, rfl⟩
  rw [hw] at kb k0 k1 k2 k3 k4 k5 k6 k7 ⊢
  clear hp hw
  refine ⟨kb, k6, ?_⟩
  unfold decodeCell32; rw [if_neg (by rw [k6]; decide), k5]
  refine (if_pos k7).trans ?_
  rw [k0, k1, k2, k3, k4]

theorem qnt (d a f r : Nat) : Statement (.qnt d a f r) := by
  intro hf
  replace hf : (decide (d < 64) && decide (a < 64) && decide (f < 16) && decide (r < 8)) = true := hf
  simp only [Bool.and_eq_true, decide_eq_true_eq] at hf
  have hp : apart 0xD8800000 [(17, 6), (11, 6), (4, 4), (1, 3)] = true ∧ fit [(17, 6), (11, 6), (4, 4), (1, 3)] [d, a, f, r] = true := ⟨rfl, by simp [fit, hf]⟩
  change WordStatement (.cell, place 0xD8800000 [(17, 6), (11, 6), (4, 4), (1, 3)] [d, a, f, r]) (.qnt d a f r)
  have kb := place_lt hp 32 rfl
  have k0 := bits_in hp 0 22 17 d rfl rfl
  have k1 := bits_in hp 1 16 11 a rfl rfl
  have k2 := bits_in hp 2 7 4 f rfl rfl
  have k3 := bits_in hp 3 3 1 r rfl rfl
  have k4 := bits_out hp 29 23 49 rfl
  have k5 := bits_out hp 31 30 3 rfl
  have k6 := bits_out hp 10 8 0 rfl
  have k7 := bits_out hp 0 0 0 rfl
  obtain ⟨wd, hw⟩ : ∃ wd, place 0xD8800000 [(17, 6), (11, 6), (4, 4), (1, 3)] [d, a, f, r] = wd := ⟨_, rfl⟩
  rw [hw] at kb k0 k1 k2 k3 k4 k5 k6 k7 ⊢
  clear hp hw
  refine ⟨kb, k5, ?_⟩
  unfold decodeCell32; rw [if_neg (by rw [k5]; decide), k4]
  refine (if_pos ⟨k6, k7⟩).trans ?_
  rw [k0, k1, k2, k3]

theorem dqn (d a f r s : Nat) : Statement (.dqn d a f r s) := by
  intro hf
  replace hf : (decide (d < 64) && decide (a < 64) && decide (f < 16) && decide (r < 8) && decide (s < 2)) = true := hf
  simp only [Bool.and_eq_true, decide_eq_true_eq] at hf
  have hp : apart 0xD9000000 [(17, 6), (11, 6), (4, 4), (1, 3), (0, 1)] = true ∧ fit [(17, 6), (11, 6), (4, 4), (1, 3), (0, 1)] [d, a, f, r, s] = true := ⟨rfl, by simp [fit, hf]⟩
  change WordStatement (.cell, place 0xD9000000 [(17, 6), (11, 6), (4, 4), (1, 3), (0, 1)] [d, a, f, r, s]) (.dqn d a f r s)
  have kb := place_lt hp 32 rfl
  have k0 := bits_in hp 0 22 17 d rfl rfl
  have k1 := bits_in hp 1 16 11 a rfl rfl
  have k2 := bits_in hp 2 7 4 f rfl rfl
  have k3 := bits_in hp 3 3 1 r rfl rfl
  have k4 := bits_in hp 4 0 0 s rfl rfl
  have k5 := bits_out hp 29 23 50 rfl
  have k6 := bits_out hp 31 30 3 rfl
  have k7 := bits_out hp 10 8 0 rfl
  obtain ⟨wd, hw⟩ : ∃ wd, place 0xD9000000 [(17, 6), (11, 6), (4, 4), (1, 3), (0, 1)] [d, a, f, r, s] = wd := ⟨_, rfl⟩
  rw [hw] at kb k0 k1 k2 k3 k4 k5 k6 k7 ⊢
  clear hp hw
  refine ⟨kb, k6, ?_⟩
  unfold decodeCell32; rw [if_neg (by rw [k6]; decide), k5]
  refine (if_pos k7).trans ?_
  rw [k0, k1, k2, k3, k4]

theorem xsc (d a b r : Nat) : Statement (.xsc d a b r) := by
  intro hf
  replace hf : (decide (d < 64) && decide (a < 64) && decide (b < 64) && decide (r < 8)) = true := hf
  simp only [Bool.and_eq_true, decide_eq_true_eq] at hf
  have hp : apart 0xD9800000 [(17, 6), (11, 6), (5, 6), (2, 3)] = true ∧ fit [(17, 6), (11, 6), (5, 6), (2, 3)] [d, a, b, r] = true := ⟨rfl, by simp [fit, hf]⟩
  change WordStatement (.cell, place 0xD9800000 [(17, 6), (11, 6), (5, 6), (2, 3)] [d, a, b, r]) (.xsc d a b r)
  have kb := place_lt hp 32 rfl
  have k0 := bits_in hp 0 22 17 d rfl rfl
  have k1 := bits_in hp 1 16 11 a rfl rfl
  have k2 := bits_in hp 2 10 5 b rfl rfl
  have k3 := bits_in hp 3 4 2 r rfl rfl
  have k4 := bits_out hp 29 23 51 rfl
  have k5 := bits_out hp 31 30 3 rfl
  have k6 := bits_out hp 1 0 0 rfl
  obtain ⟨wd, hw⟩ : ∃ wd, place 0xD9800000 [(17, 6), (11, 6), (5, 6), (2, 3)] [d, a, b, r] = wd := ⟨_, rfl⟩
  rw [hw] at kb k0 k1 k2 k3 k4 k5 k6 ⊢
  clear hp hw
  refine ⟨kb, k5, ?_⟩
  unfold decodeCell32; rw [if_neg (by rw [k5]; decide), k4]
  refine (if_pos k6).trans ?_
  rw [k0, k1, k2, k3]

theorem shuf (d a b : Nat) : Statement (.shuf d a b) := by
  intro hf
  replace hf : (decide (d < 64) && decide (a < 64) && decide (b < 64)) = true := hf
  simp only [Bool.and_eq_true, decide_eq_true_eq] at hf
  have hp : apart 0xDA000000 [(17, 6), (11, 6), (5, 6)] = true ∧ fit [(17, 6), (11, 6), (5, 6)] [d, a, b] = true := ⟨rfl, by simp [fit, hf]⟩
  change WordStatement (.cell, place 0xDA000000 [(17, 6), (11, 6), (5, 6)] [d, a, b]) (.shuf d a b)
  have kb := place_lt hp 32 rfl
  have k0 := bits_in hp 0 22 17 d rfl rfl
  have k1 := bits_in hp 1 16 11 a rfl rfl
  have k2 := bits_in hp 2 10 5 b rfl rfl
  have k3 := bits_out hp 29 23 52 rfl
  have k4 := bits_out hp 31 30 3 rfl
  have k5 := bits_out hp 4 0 0 rfl
  obtain ⟨wd, hw⟩ : ∃ wd, place 0xDA000000 [(17, 6), (11, 6), (5, 6)] [d, a, b] = wd := ⟨_, rfl⟩
  rw [hw] at kb k0 k1 k2 k3 k4 k5 ⊢
  clear hp hw
  refine ⟨kb, k4, ?_⟩
  unfold decodeCell32; rw [if_neg (by rw [k4]; decide), k3]
  refine (if_pos k5).trans ?_
  rw [k0, k1, k2]

theorem bcast (d a i : Nat) : Statement (.bcast d a i) := by
  intro hf
  replace hf : (decide (d < 64) && decide (a < 64) && decide (i < 2048)) = true := hf
  simp only [Bool.and_eq_true, decide_eq_true_eq] at hf
  have hp : apart 0xDA800000 [(17, 6), (11, 6), (0, 11)] = true ∧ fit [(17, 6), (11, 6), (0, 11)] [d, a, i] = true := ⟨rfl, by simp [fit, hf]⟩
  change WordStatement (.cell, place 0xDA800000 [(17, 6), (11, 6), (0, 11)] [d, a, i]) (.bcast d a i)
  have kb := place_lt hp 32 rfl
  have k0 := bits_in hp 0 22 17 d rfl rfl
  have k1 := bits_in hp 1 16 11 a rfl rfl
  have k2 := bits_in hp 2 10 0 i rfl rfl
  have k3 := bits_out hp 29 23 53 rfl
  have k4 := bits_out hp 31 30 3 rfl
  obtain ⟨wd, hw⟩ : ∃ wd, place 0xDA800000 [(17, 6), (11, 6), (0, 11)] [d, a, i] = wd := ⟨_, rfl⟩
  rw [hw] at kb k0 k1 k2 k3 k4 ⊢
  clear hp hw
  refine ⟨kb, k4, ?_⟩
  unfold decodeCell32; rw [if_neg (by rw [k4]; decide), k3]
  refine (if_pos trivial).trans ?_
  rw [k0, k1, k2]

theorem rotl (d a i : Nat) : Statement (.rotl d a i) := by
  intro hf
  replace hf : (decide (d < 64) && decide (a < 64) && decide (i < 2048)) = true := hf
  simp only [Bool.and_eq_true, decide_eq_true_eq] at hf
  have hp : apart 0xDB000000 [(17, 6), (11, 6), (0, 11)] = true ∧ fit [(17, 6), (11, 6), (0, 11)] [d, a, i] = true := ⟨rfl, by simp [fit, hf]⟩
  change WordStatement (.cell, place 0xDB000000 [(17, 6), (11, 6), (0, 11)] [d, a, i]) (.rotl d a i)
  have kb := place_lt hp 32 rfl
  have k0 := bits_in hp 0 22 17 d rfl rfl
  have k1 := bits_in hp 1 16 11 a rfl rfl
  have k2 := bits_in hp 2 10 0 i rfl rfl
  have k3 := bits_out hp 29 23 54 rfl
  have k4 := bits_out hp 31 30 3 rfl
  obtain ⟨wd, hw⟩ : ∃ wd, place 0xDB000000 [(17, 6), (11, 6), (0, 11)] [d, a, i] = wd := ⟨_, rfl⟩
  rw [hw] at kb k0 k1 k2 k3 k4 ⊢
  clear hp hw
  refine ⟨kb, k4, ?_⟩
  unfold decodeCell32; rw [if_neg (by rw [k4]; decide), k3]
  refine (if_pos trivial).trans ?_
  rw [k0, k1, k2]

theorem redl (d a b r s : Nat) : Statement (.redl d a b r s) := by
  intro hf
  replace hf : (decide (d < 64) && decide (a < 64) && decide (b < 64) && decide (r < 8) && decide (s < 2)) = true := hf
  simp only [Bool.and_eq_true, decide_eq_true_eq] at hf
  have hp : apart 0xDB800000 [(17, 6), (11, 6), (5, 6), (2, 3), (1, 1)] = true ∧ fit [(17, 6), (11, 6), (5, 6), (2, 3), (1, 1)] [d, a, b, r, s] = true := ⟨rfl, by simp [fit, hf]⟩
  change WordStatement (.cell, place 0xDB800000 [(17, 6), (11, 6), (5, 6), (2, 3), (1, 1)] [d, a, b, r, s]) (.redl d a b r s)
  have kb := place_lt hp 32 rfl
  have k0 := bits_in hp 0 22 17 d rfl rfl
  have k1 := bits_in hp 1 16 11 a rfl rfl
  have k2 := bits_in hp 2 10 5 b rfl rfl
  have k3 := bits_in hp 3 4 2 r rfl rfl
  have k4 := bits_in hp 4 1 1 s rfl rfl
  have k5 := bits_out hp 29 23 55 rfl
  have k6 := bits_out hp 31 30 3 rfl
  have k7 := bits_out hp 0 0 0 rfl
  obtain ⟨wd, hw⟩ : ∃ wd, place 0xDB800000 [(17, 6), (11, 6), (5, 6), (2, 3), (1, 1)] [d, a, b, r, s] = wd := ⟨_, rfl⟩
  rw [hw] at kb k0 k1 k2 k3 k4 k5 k6 k7 ⊢
  clear hp hw
  refine ⟨kb, k6, ?_⟩
  unfold decodeCell32; rw [if_neg (by rw [k6]; decide), k5]
  refine (if_pos k7).trans ?_
  rw [k0, k1, k2, k3, k4]

theorem scanl (d a b r s : Nat) : Statement (.scanl d a b r s) := by
  intro hf
  replace hf : (decide (d < 64) && decide (a < 64) && decide (b < 64) && decide (r < 8) && decide (s < 2)) = true := hf
  simp only [Bool.and_eq_true, decide_eq_true_eq] at hf
  have hp : apart 0xDC000000 [(17, 6), (11, 6), (5, 6), (2, 3), (1, 1)] = true ∧ fit [(17, 6), (11, 6), (5, 6), (2, 3), (1, 1)] [d, a, b, r, s] = true := ⟨rfl, by simp [fit, hf]⟩
  change WordStatement (.cell, place 0xDC000000 [(17, 6), (11, 6), (5, 6), (2, 3), (1, 1)] [d, a, b, r, s]) (.scanl d a b r s)
  have kb := place_lt hp 32 rfl
  have k0 := bits_in hp 0 22 17 d rfl rfl
  have k1 := bits_in hp 1 16 11 a rfl rfl
  have k2 := bits_in hp 2 10 5 b rfl rfl
  have k3 := bits_in hp 3 4 2 r rfl rfl
  have k4 := bits_in hp 4 1 1 s rfl rfl
  have k5 := bits_out hp 29 23 56 rfl
  have k6 := bits_out hp 31 30 3 rfl
  have k7 := bits_out hp 0 0 0 rfl
  obtain ⟨wd, hw⟩ : ∃ wd, place 0xDC000000 [(17, 6), (11, 6), (5, 6), (2, 3), (1, 1)] [d, a, b, r, s] = wd := ⟨_, rfl⟩
  rw [hw] at kb k0 k1 k2 k3 k4 k5 k6 k7 ⊢
  clear hp hw
  refine ⟨kb, k6, ?_⟩
  unfold decodeCell32; rw [if_neg (by rw [k6]; decide), k5]
  refine (if_pos k7).trans ?_
  rw [k0, k1, k2, k3, k4]

theorem iota (d i : Nat) : Statement (.iota d i) := by
  intro hf
  replace hf : (decide (d < 64) && decide (i < 2048)) = true := hf
  simp only [Bool.and_eq_true, decide_eq_true_eq] at hf
  have hp : apart 0xDC800000 [(17, 6), (0, 11)] = true ∧ fit [(17, 6), (0, 11)] [d, i] = true := ⟨rfl, by simp [fit, hf]⟩
  change WordStatement (.cell, place 0xDC800000 [(17, 6), (0, 11)] [d, i]) (.iota d i)
  have kb := place_lt hp 32 rfl
  have k0 := bits_in hp 0 22 17 d rfl rfl
  have k1 := bits_in hp 1 10 0 i rfl rfl
  have k2 := bits_out hp 29 23 57 rfl
  have k3 := bits_out hp 31 30 3 rfl
  have k4 := bits_out hp 16 11 0 rfl
  obtain ⟨wd, hw⟩ : ∃ wd, place 0xDC800000 [(17, 6), (0, 11)] [d, i] = wd := ⟨_, rfl⟩
  rw [hw] at kb k0 k1 k2 k3 k4 ⊢
  clear hp hw
  refine ⟨kb, k3, ?_⟩
  unfold decodeCell32; rw [if_neg (by rw [k3]; decide), k2]
  refine (if_pos k4).trans ?_
  rw [k0, k1]

theorem mov (d a : Nat) : Statement (.mov d a) := by
  intro hf
  replace hf : (decide (d < 64) && decide (a < 64)) = true := hf
  simp only [Bool.and_eq_true, decide_eq_true_eq] at hf
  have hp : apart 0xDD000000 [(17, 6), (11, 6)] = true ∧ fit [(17, 6), (11, 6)] [d, a] = true := ⟨rfl, by simp [fit, hf]⟩
  change WordStatement (.cell, place 0xDD000000 [(17, 6), (11, 6)] [d, a]) (.mov d a)
  have kb := place_lt hp 32 rfl
  have k0 := bits_in hp 0 22 17 d rfl rfl
  have k1 := bits_in hp 1 16 11 a rfl rfl
  have k2 := bits_out hp 29 23 58 rfl
  have k3 := bits_out hp 31 30 3 rfl
  have k4 := bits_out hp 10 0 0 rfl
  obtain ⟨wd, hw⟩ : ∃ wd, place 0xDD000000 [(17, 6), (11, 6)] [d, a] = wd := ⟨_, rfl⟩
  rw [hw] at kb k0 k1 k2 k3 k4 ⊢
  clear hp hw
  refine ⟨kb, k3, ?_⟩
  unfold decodeCell32; rw [if_neg (by rw [k3]; decide), k2]
  refine (if_pos k4).trans ?_
  rw [k0, k1]

theorem movi (d i : Nat) : Statement (.movi d i) := by
  intro hf
  replace hf : (decide (d < 64) && decide (i < 131072)) = true := hf
  simp only [Bool.and_eq_true, decide_eq_true_eq] at hf
  have hp : apart 0xDD800000 [(17, 6), (0, 17)] = true ∧ fit [(17, 6), (0, 17)] [d, i] = true := ⟨rfl, by simp [fit, hf]⟩
  change WordStatement (.cell, place 0xDD800000 [(17, 6), (0, 17)] [d, i]) (.movi d i)
  have kb := place_lt hp 32 rfl
  have k0 := bits_in hp 0 22 17 d rfl rfl
  have k1 := bits_in hp 1 16 0 i rfl rfl
  have k2 := bits_out hp 29 23 59 rfl
  have k3 := bits_out hp 31 30 3 rfl
  obtain ⟨wd, hw⟩ : ∃ wd, place 0xDD800000 [(17, 6), (0, 17)] [d, i] = wd := ⟨_, rfl⟩
  rw [hw] at kb k0 k1 k2 k3 ⊢
  clear hp hw
  refine ⟨kb, k3, ?_⟩
  unfold decodeCell32; rw [if_neg (by rw [k3]; decide), k2]
  refine (if_pos trivial).trans ?_
  rw [k0, k1]

theorem movh (d i : Nat) : Statement (.movh d i) := by
  intro hf
  replace hf : (decide (d < 64) && decide (i < 65536)) = true := hf
  simp only [Bool.and_eq_true, decide_eq_true_eq] at hf
  have hp : apart 0xDE000000 [(17, 6), (0, 16)] = true ∧ fit [(17, 6), (0, 16)] [d, i] = true := ⟨rfl, by simp [fit, hf]⟩
  change WordStatement (.cell, place 0xDE000000 [(17, 6), (0, 16)] [d, i]) (.movh d i)
  have kb := place_lt hp 32 rfl
  have k0 := bits_in hp 0 22 17 d rfl rfl
  have k1 := bits_in hp 1 15 0 i rfl rfl
  have k2 := bits_out hp 29 23 60 rfl
  have k3 := bits_out hp 31 30 3 rfl
  have k4 := bits_out hp 16 16 0 rfl
  obtain ⟨wd, hw⟩ : ∃ wd, place 0xDE000000 [(17, 6), (0, 16)] [d, i] = wd := ⟨_, rfl⟩
  rw [hw] at kb k0 k1 k2 k3 k4 ⊢
  clear hp hw
  refine ⟨kb, k3, ?_⟩
  unfold decodeCell32; rw [if_neg (by rw [k3]; decide), k2]
  refine (if_pos k4).trans ?_
  rw [k0, k1]

theorem ldc (d n : Nat) : Statement (.ldc d n) := by
  intro hf
  replace hf : (decide (d < 64) && decide (n < 131072)) = true := hf
  simp only [Bool.and_eq_true, decide_eq_true_eq] at hf
  have hp : apart 0xDE800000 [(17, 6), (0, 17)] = true ∧ fit [(17, 6), (0, 17)] [d, n] = true := ⟨rfl, by simp [fit, hf]⟩
  change WordStatement (.cell, place 0xDE800000 [(17, 6), (0, 17)] [d, n]) (.ldc d n)
  have kb := place_lt hp 32 rfl
  have k0 := bits_in hp 0 22 17 d rfl rfl
  have k1 := bits_in hp 1 16 0 n rfl rfl
  have k2 := bits_out hp 29 23 61 rfl
  have k3 := bits_out hp 31 30 3 rfl
  obtain ⟨wd, hw⟩ : ∃ wd, place 0xDE800000 [(17, 6), (0, 17)] [d, n] = wd := ⟨_, rfl⟩
  rw [hw] at kb k0 k1 k2 k3 ⊢
  clear hp hw
  refine ⟨kb, k3, ?_⟩
  unfold decodeCell32; rw [if_neg (by rw [k3]; decide), k2]
  refine (if_pos trivial).trans ?_
  rw [k0, k1]

theorem tagrd (d k f : Nat) : Statement (.tagrd d k f) := by
  intro hf
  replace hf : (decide (d < 64) && decide (k < 4) && decide (f < 16)) = true := hf
  simp only [Bool.and_eq_true, decide_eq_true_eq] at hf
  have hp : apart 0xDF000000 [(17, 6), (4, 2), (0, 4)] = true ∧ fit [(17, 6), (4, 2), (0, 4)] [d, k, f] = true := ⟨rfl, by simp [fit, hf]⟩
  change WordStatement (.cell, place 0xDF000000 [(17, 6), (4, 2), (0, 4)] [d, k, f]) (.tagrd d k f)
  have kb := place_lt hp 32 rfl
  have k0 := bits_in hp 0 22 17 d rfl rfl
  have k1 := bits_in hp 1 5 4 k rfl rfl
  have k2 := bits_in hp 2 3 0 f rfl rfl
  have k3 := bits_out hp 29 23 62 rfl
  have k4 := bits_out hp 31 30 3 rfl
  have k5 := bits_out hp 16 6 0 rfl
  obtain ⟨wd, hw⟩ : ∃ wd, place 0xDF000000 [(17, 6), (4, 2), (0, 4)] [d, k, f] = wd := ⟨_, rfl⟩
  rw [hw] at kb k0 k1 k2 k3 k4 k5 ⊢
  clear hp hw
  refine ⟨kb, k4, ?_⟩
  unfold decodeCell32; rw [if_neg (by rw [k4]; decide), k3]
  refine (if_pos k5).trans ?_
  rw [k0, k1, k2]

theorem fmts (d a f : Nat) : Statement (.fmts d a f) := by
  intro hf
  replace hf : (decide (d < 64) && decide (a < 64) && decide (f < 16)) = true := hf
  simp only [Bool.and_eq_true, decide_eq_true_eq] at hf
  have hp : apart 0xDF800000 [(17, 6), (11, 6), (4, 4)] = true ∧ fit [(17, 6), (11, 6), (4, 4)] [d, a, f] = true := ⟨rfl, by simp [fit, hf]⟩
  change WordStatement (.cell, place 0xDF800000 [(17, 6), (11, 6), (4, 4)] [d, a, f]) (.fmts d a f)
  have kb := place_lt hp 32 rfl
  have k0 := bits_in hp 0 22 17 d rfl rfl
  have k1 := bits_in hp 1 16 11 a rfl rfl
  have k2 := bits_in hp 2 7 4 f rfl rfl
  have k3 := bits_out hp 29 23 63 rfl
  have k4 := bits_out hp 31 30 3 rfl
  have k5 := bits_out hp 10 8 0 rfl
  have k6 := bits_out hp 3 0 0 rfl
  obtain ⟨wd, hw⟩ : ∃ wd, place 0xDF800000 [(17, 6), (11, 6), (4, 4)] [d, a, f] = wd := ⟨_, rfl⟩
  rw [hw] at kb k0 k1 k2 k3 k4 k5 k6 ⊢
  clear hp hw
  refine ⟨kb, k4, ?_⟩
  unfold decodeCell32; rw [if_neg (by rw [k4]; decide), k3]
  refine (if_pos ⟨k5, k6⟩).trans ?_
  rw [k0, k1, k2]

theorem emit (e s c t g : Nat) : Statement (.emit e s c t g) := by
  intro hf
  replace hf : (decide (e < 8) && decide (s < 64) && decide (c < 16) && decide (t < 8) && decide (g < 128)) = true := hf
  simp only [Bool.and_eq_true, decide_eq_true_eq] at hf
  have hp : apart 0xE0000000 [(20, 3), (14, 6), (10, 4), (7, 3), (0, 7)] = true ∧ fit [(20, 3), (14, 6), (10, 4), (7, 3), (0, 7)] [e, s, c, t, g] = true := ⟨rfl, by simp [fit, hf]⟩
  change WordStatement (.cell, place 0xE0000000 [(20, 3), (14, 6), (10, 4), (7, 3), (0, 7)] [e, s, c, t, g]) (.emit e s c t g)
  have kb := place_lt hp 32 rfl
  have k0 := bits_in hp 0 22 20 e rfl rfl
  have k1 := bits_in hp 1 19 14 s rfl rfl
  have k2 := bits_in hp 2 13 10 c rfl rfl
  have k3 := bits_in hp 3 9 7 t rfl rfl
  have k4 := bits_in hp 4 6 0 g rfl rfl
  have k5 := bits_out hp 29 23 64 rfl
  have k6 := bits_out hp 31 30 3 rfl
  obtain ⟨wd, hw⟩ : ∃ wd, place 0xE0000000 [(20, 3), (14, 6), (10, 4), (7, 3), (0, 7)] [e, s, c, t, g] = wd := ⟨_, rfl⟩
  rw [hw] at kb k0 k1 k2 k3 k4 k5 k6 ⊢
  clear hp hw
  refine ⟨kb, k6, ?_⟩
  unfold decodeCell32; rw [if_neg (by rw [k6]; decide), k5]
  refine (if_pos trivial).trans ?_
  rw [k0, k1, k2, k3, k4]

theorem emitv (e s c t p : Nat) : Statement (.emitv e s c t p) := by
  intro hf
  replace hf : (decide (e < 8) && decide (s < 64) && decide (c < 16) && decide (t < 8) && decide (p < 64)) = true := hf
  simp only [Bool.and_eq_true, decide_eq_true_eq] at hf
  have hp : apart 0xE0800000 [(20, 3), (14, 6), (10, 4), (7, 3), (0, 6)] = true ∧ fit [(20, 3), (14, 6), (10, 4), (7, 3), (0, 6)] [e, s, c, t, p] = true := ⟨rfl, by simp [fit, hf]⟩
  change WordStatement (.cell, place 0xE0800000 [(20, 3), (14, 6), (10, 4), (7, 3), (0, 6)] [e, s, c, t, p]) (.emitv e s c t p)
  have kb := place_lt hp 32 rfl
  have k0 := bits_in hp 0 22 20 e rfl rfl
  have k1 := bits_in hp 1 19 14 s rfl rfl
  have k2 := bits_in hp 2 13 10 c rfl rfl
  have k3 := bits_in hp 3 9 7 t rfl rfl
  have k4 := bits_in hp 4 5 0 p rfl rfl
  have k5 := bits_out hp 29 23 65 rfl
  have k6 := bits_out hp 31 30 3 rfl
  have k7 := bits_out hp 6 6 0 rfl
  obtain ⟨wd, hw⟩ : ∃ wd, place 0xE0800000 [(20, 3), (14, 6), (10, 4), (7, 3), (0, 6)] [e, s, c, t, p] = wd := ⟨_, rfl⟩
  rw [hw] at kb k0 k1 k2 k3 k4 k5 k6 k7 ⊢
  clear hp hw
  refine ⟨kb, k6, ?_⟩
  unfold decodeCell32; rw [if_neg (by rw [k6]; decide), k5]
  refine (if_pos k7).trans ?_
  rw [k0, k1, k2, k3, k4]

theorem steer (e s c t x p : Nat) : Statement (.steer e s c t x p) := by
  intro hf
  replace hf : (decide (e < 8) && decide (s < 64) && decide (c < 16) && decide (t < 8) && decide (x < 2) && decide (p < 64)) = true := hf
  simp only [Bool.and_eq_true, decide_eq_true_eq] at hf
  have hp : apart 0xE1000000 [(20, 3), (14, 6), (10, 4), (7, 3), (6, 1), (0, 6)] = true ∧ fit [(20, 3), (14, 6), (10, 4), (7, 3), (6, 1), (0, 6)] [e, s, c, t, x, p] = true := ⟨rfl, by simp [fit, hf]⟩
  change WordStatement (.cell, place 0xE1000000 [(20, 3), (14, 6), (10, 4), (7, 3), (6, 1), (0, 6)] [e, s, c, t, x, p]) (.steer e s c t x p)
  have kb := place_lt hp 32 rfl
  have k0 := bits_in hp 0 22 20 e rfl rfl
  have k1 := bits_in hp 1 19 14 s rfl rfl
  have k2 := bits_in hp 2 13 10 c rfl rfl
  have k3 := bits_in hp 3 9 7 t rfl rfl
  have k4 := bits_in hp 4 6 6 x rfl rfl
  have k5 := bits_in hp 5 5 0 p rfl rfl
  have k6 := bits_out hp 29 23 66 rfl
  have k7 := bits_out hp 31 30 3 rfl
  obtain ⟨wd, hw⟩ : ∃ wd, place 0xE1000000 [(20, 3), (14, 6), (10, 4), (7, 3), (6, 1), (0, 6)] [e, s, c, t, x, p] = wd := ⟨_, rfl⟩
  rw [hw] at kb k0 k1 k2 k3 k4 k5 k6 k7 ⊢
  clear hp hw
  refine ⟨kb, k7, ?_⟩
  unfold decodeCell32; rw [if_neg (by rw [k7]; decide), k6]
  refine (if_pos trivial).trans ?_
  rw [k0, k1, k2, k3, k4, k5]

theorem merge (d a b x : Nat) : Statement (.merge d a b x) := by
  intro hf
  replace hf : (decide (d < 64) && decide (a < 64) && decide (b < 64) && decide (x < 2)) = true := hf
  simp only [Bool.and_eq_true, decide_eq_true_eq] at hf
  have hp : apart 0xE1800000 [(17, 6), (11, 6), (5, 6), (0, 1)] = true ∧ fit [(17, 6), (11, 6), (5, 6), (0, 1)] [d, a, b, x] = true := ⟨rfl, by simp [fit, hf]⟩
  change WordStatement (.cell, place 0xE1800000 [(17, 6), (11, 6), (5, 6), (0, 1)] [d, a, b, x]) (.merge d a b x)
  have kb := place_lt hp 32 rfl
  have k0 := bits_in hp 0 22 17 d rfl rfl
  have k1 := bits_in hp 1 16 11 a rfl rfl
  have k2 := bits_in hp 2 10 5 b rfl rfl
  have k3 := bits_in hp 3 0 0 x rfl rfl
  have k4 := bits_out hp 29 23 67 rfl
  have k5 := bits_out hp 31 30 3 rfl
  have k6 := bits_out hp 4 1 0 rfl
  obtain ⟨wd, hw⟩ : ∃ wd, place 0xE1800000 [(17, 6), (11, 6), (5, 6), (0, 1)] [d, a, b, x] = wd := ⟨_, rfl⟩
  rw [hw] at kb k0 k1 k2 k3 k4 k5 k6 ⊢
  clear hp hw
  refine ⟨kb, k5, ?_⟩
  unfold decodeCell32; rw [if_neg (by rw [k5]; decide), k4]
  refine (if_pos k6).trans ?_
  rw [k0, k1, k2, k3]

theorem emeos (e : Nat) : Statement (.emeos e) := by
  intro hf
  replace hf : (decide (e < 8)) = true := hf
  simp only [decide_eq_true_eq] at hf
  have hp : apart 0xE3000000 [(20, 3)] = true ∧ fit [(20, 3)] [e] = true := ⟨rfl, by simp [fit, hf]⟩
  change WordStatement (.cell, place 0xE3000000 [(20, 3)] [e]) (.emeos e)
  have kb := place_lt hp 32 rfl
  have k0 := bits_in hp 0 22 20 e rfl rfl
  have k1 := bits_out hp 29 23 70 rfl
  have k2 := bits_out hp 31 30 3 rfl
  have k3 := bits_out hp 19 0 0 rfl
  obtain ⟨wd, hw⟩ : ∃ wd, place 0xE3000000 [(20, 3)] [e] = wd := ⟨_, rfl⟩
  rw [hw] at kb k0 k1 k2 k3 ⊢
  clear hp hw
  refine ⟨kb, k2, ?_⟩
  unfold decodeCell32; rw [if_neg (by rw [k2]; decide), k1]
  refine (if_pos k3).trans ?_
  rw [k0]

theorem fwdm (e : Nat) : Statement (.fwdm e) := by
  intro hf
  replace hf : (decide (e < 8)) = true := hf
  simp only [decide_eq_true_eq] at hf
  have hp : apart 0xE3800000 [(20, 3)] = true ∧ fit [(20, 3)] [e] = true := ⟨rfl, by simp [fit, hf]⟩
  change WordStatement (.cell, place 0xE3800000 [(20, 3)] [e]) (.fwdm e)
  have kb := place_lt hp 32 rfl
  have k0 := bits_in hp 0 22 20 e rfl rfl
  have k1 := bits_out hp 29 23 71 rfl
  have k2 := bits_out hp 31 30 3 rfl
  have k3 := bits_out hp 19 0 0 rfl
  obtain ⟨wd, hw⟩ : ∃ wd, place 0xE3800000 [(20, 3)] [e] = wd := ⟨_, rfl⟩
  rw [hw] at kb k0 k1 k2 k3 ⊢
  clear hp hw
  refine ⟨kb, k2, ?_⟩
  unfold decodeCell32; rw [if_neg (by rw [k2]; decide), k1]
  refine (if_pos k3).trans ?_
  rw [k0]

theorem call (e s c r k : Nat) : Statement (.call e s c r k) := by
  intro hf
  replace hf : (decide (e < 8) && decide (s < 64) && decide (c < 16) && decide (r < 8) && decide (k < 16)) = true := hf
  simp only [Bool.and_eq_true, decide_eq_true_eq] at hf
  have hp : apart 0xE4000200 [(20, 3), (14, 6), (10, 4), (4, 3), (0, 4)] = true ∧ fit [(20, 3), (14, 6), (10, 4), (4, 3), (0, 4)] [e, s, c, r, k] = true := ⟨rfl, by simp [fit, hf]⟩
  change WordStatement (.cell, place 0xE4000200 [(20, 3), (14, 6), (10, 4), (4, 3), (0, 4)] [e, s, c, r, k]) (.call e s c r k)
  have kb := place_lt hp 32 rfl
  have k0 := bits_in hp 0 22 20 e rfl rfl
  have k1 := bits_in hp 1 19 14 s rfl rfl
  have k2 := bits_in hp 2 13 10 c rfl rfl
  have k3 := bits_in hp 3 6 4 r rfl rfl
  have k4 := bits_in hp 4 3 0 k rfl rfl
  have k5 := bits_out hp 29 23 72 rfl
  have k6 := bits_out hp 31 30 3 rfl
  have k7 := bits_out hp 9 7 4 rfl
  obtain ⟨wd, hw⟩ : ∃ wd, place 0xE4000200 [(20, 3), (14, 6), (10, 4), (4, 3), (0, 4)] [e, s, c, r, k] = wd := ⟨_, rfl⟩
  rw [hw] at kb k0 k1 k2 k3 k4 k5 k6 k7 ⊢
  clear hp hw
  refine ⟨kb, k6, ?_⟩
  unfold decodeCell32; rw [if_neg (by rw [k6]; decide), k5]
  refine (if_pos k7).trans ?_
  rw [k0, k1, k2, k3, k4]

theorem ret (s x : Nat) : Statement (.ret s x) := by
  intro hf
  replace hf : (decide (s < 64) && decide (x < 2)) = true := hf
  simp only [Bool.and_eq_true, decide_eq_true_eq] at hf
  have hp : apart 0xE4800280 [(14, 6), (0, 1)] = true ∧ fit [(14, 6), (0, 1)] [s, x] = true := ⟨rfl, by simp [fit, hf]⟩
  change WordStatement (.cell, place 0xE4800280 [(14, 6), (0, 1)] [s, x]) (.ret s x)
  have kb := place_lt hp 32 rfl
  have k0 := bits_in hp 0 19 14 s rfl rfl
  have k1 := bits_in hp 1 0 0 x rfl rfl
  have k2 := bits_out hp 29 23 73 rfl
  have k3 := bits_out hp 31 30 3 rfl
  have k4 := bits_out hp 22 20 0 rfl
  have k5 := bits_out hp 13 1 320 rfl
  obtain ⟨wd, hw⟩ : ∃ wd, place 0xE4800280 [(14, 6), (0, 1)] [s, x] = wd := ⟨_, rfl⟩
  rw [hw] at kb k0 k1 k2 k3 k4 k5 ⊢
  clear hp hw
  refine ⟨kb, k3, ?_⟩
  unfold decodeCell32; rw [if_neg (by rw [k3]; decide), k2]
  refine (if_pos ⟨k4, k5⟩).trans ?_
  rw [k0, k1]

theorem filt (d a b x : Nat) : Statement (.filt d a b x) := by
  intro hf
  replace hf : (decide (d < 64) && decide (a < 64) && decide (b < 64) && decide (x < 2)) = true := hf
  simp only [Bool.and_eq_true, decide_eq_true_eq] at hf
  have hp : apart 0xE5800000 [(17, 6), (11, 6), (5, 6), (0, 1)] = true ∧ fit [(17, 6), (11, 6), (5, 6), (0, 1)] [d, a, b, x] = true := ⟨rfl, by simp [fit, hf]⟩
  change WordStatement (.cell, place 0xE5800000 [(17, 6), (11, 6), (5, 6), (0, 1)] [d, a, b, x]) (.filt d a b x)
  have kb := place_lt hp 32 rfl
  have k0 := bits_in hp 0 22 17 d rfl rfl
  have k1 := bits_in hp 1 16 11 a rfl rfl
  have k2 := bits_in hp 2 10 5 b rfl rfl
  have k3 := bits_in hp 3 0 0 x rfl rfl
  have k4 := bits_out hp 29 23 75 rfl
  have k5 := bits_out hp 31 30 3 rfl
  have k6 := bits_out hp 4 1 0 rfl
  obtain ⟨wd, hw⟩ : ∃ wd, place 0xE5800000 [(17, 6), (11, 6), (5, 6), (0, 1)] [d, a, b, x] = wd := ⟨_, rfl⟩
  rw [hw] at kb k0 k1 k2 k3 k4 k5 k6 ⊢
  clear hp hw
  refine ⟨kb, k5, ?_⟩
  unfold decodeCell32; rw [if_neg (by rw [k5]; decide), k4]
  refine (if_pos k6).trans ?_
  rw [k0, k1, k2, k3]

theorem coal (d a : Nat) : Statement (.coal d a) := by
  intro hf
  replace hf : (decide (d < 64) && decide (a < 64)) = true := hf
  simp only [Bool.and_eq_true, decide_eq_true_eq] at hf
  have hp : apart 0xE6000000 [(17, 6), (11, 6)] = true ∧ fit [(17, 6), (11, 6)] [d, a] = true := ⟨rfl, by simp [fit, hf]⟩
  change WordStatement (.cell, place 0xE6000000 [(17, 6), (11, 6)] [d, a]) (.coal d a)
  have kb := place_lt hp 32 rfl
  have k0 := bits_in hp 0 22 17 d rfl rfl
  have k1 := bits_in hp 1 16 11 a rfl rfl
  have k2 := bits_out hp 29 23 76 rfl
  have k3 := bits_out hp 31 30 3 rfl
  have k4 := bits_out hp 10 0 0 rfl
  obtain ⟨wd, hw⟩ : ∃ wd, place 0xE6000000 [(17, 6), (11, 6)] [d, a] = wd := ⟨_, rfl⟩
  rw [hw] at kb k0 k1 k2 k3 k4 ⊢
  clear hp hw
  refine ⟨kb, k3, ?_⟩
  unfold decodeCell32; rw [if_neg (by rw [k3]; decide), k2]
  refine (if_pos k4).trans ?_
  rw [k0, k1]

theorem flushc (d : Nat) : Statement (.flushc d) := by
  intro hf
  replace hf : (decide (d < 64)) = true := hf
  simp only [decide_eq_true_eq] at hf
  have hp : apart 0xE6800000 [(17, 6)] = true ∧ fit [(17, 6)] [d] = true := ⟨rfl, by simp [fit, hf]⟩
  change WordStatement (.cell, place 0xE6800000 [(17, 6)] [d]) (.flushc d)
  have kb := place_lt hp 32 rfl
  have k0 := bits_in hp 0 22 17 d rfl rfl
  have k1 := bits_out hp 29 23 77 rfl
  have k2 := bits_out hp 31 30 3 rfl
  have k3 := bits_out hp 16 0 0 rfl
  obtain ⟨wd, hw⟩ : ∃ wd, place 0xE6800000 [(17, 6)] [d] = wd := ⟨_, rfl⟩
  rw [hw] at kb k0 k1 k2 k3 ⊢
  clear hp hw
  refine ⟨kb, k2, ?_⟩
  unfold decodeCell32; rw [if_neg (by rw [k2]; decide), k1]
  refine (if_pos k3).trans ?_
  rw [k0]

theorem pchk (d a : Nat) : Statement (.pchk d a) := by
  intro hf
  replace hf : (decide (d < 64) && decide (a < 64)) = true := hf
  simp only [Bool.and_eq_true, decide_eq_true_eq] at hf
  have hp : apart 0xE7000000 [(17, 6), (11, 6)] = true ∧ fit [(17, 6), (11, 6)] [d, a] = true := ⟨rfl, by simp [fit, hf]⟩
  change WordStatement (.cell, place 0xE7000000 [(17, 6), (11, 6)] [d, a]) (.pchk d a)
  have kb := place_lt hp 32 rfl
  have k0 := bits_in hp 0 22 17 d rfl rfl
  have k1 := bits_in hp 1 16 11 a rfl rfl
  have k2 := bits_out hp 29 23 78 rfl
  have k3 := bits_out hp 31 30 3 rfl
  have k4 := bits_out hp 10 0 0 rfl
  obtain ⟨wd, hw⟩ : ∃ wd, place 0xE7000000 [(17, 6), (11, 6)] [d, a] = wd := ⟨_, rfl⟩
  rw [hw] at kb k0 k1 k2 k3 k4 ⊢
  clear hp hw
  refine ⟨kb, k3, ?_⟩
  unfold decodeCell32; rw [if_neg (by rw [k3]; decide), k2]
  refine (if_pos k4).trans ?_
  rw [k0, k1]

theorem trapc (a i : Nat) : Statement (.trapc a i) := by
  intro hf
  replace hf : (decide (a < 64) && decide (i < 2048)) = true := hf
  simp only [Bool.and_eq_true, decide_eq_true_eq] at hf
  have hp : apart 0xE7800000 [(11, 6), (0, 11)] = true ∧ fit [(11, 6), (0, 11)] [a, i] = true := ⟨rfl, by simp [fit, hf]⟩
  change WordStatement (.cell, place 0xE7800000 [(11, 6), (0, 11)] [a, i]) (.trapc a i)
  have kb := place_lt hp 32 rfl
  have k0 := bits_in hp 0 16 11 a rfl rfl
  have k1 := bits_in hp 1 10 0 i rfl rfl
  have k2 := bits_out hp 29 23 79 rfl
  have k3 := bits_out hp 31 30 3 rfl
  have k4 := bits_out hp 22 17 0 rfl
  obtain ⟨wd, hw⟩ : ∃ wd, place 0xE7800000 [(11, 6), (0, 11)] [a, i] = wd := ⟨_, rfl⟩
  rw [hw] at kb k0 k1 k2 k3 k4 ⊢
  clear hp hw
  refine ⟨kb, k3, ?_⟩
  unfold decodeCell32; rw [if_neg (by rw [k3]; decide), k2]
  refine (if_pos k4).trans ?_
  rw [k0, k1]

theorem lds (d a f p : Nat) : Statement (.lds d a f p) := by
  intro hf
  replace hf : (decide (d < 64) && decide (a < 64) && decide (f < 16) && decide (p < 2)) = true := hf
  simp only [Bool.and_eq_true, decide_eq_true_eq] at hf
  have hp : apart 0xE8000000 [(17, 6), (11, 6), (4, 4), (0, 1)] = true ∧ fit [(17, 6), (11, 6), (4, 4), (0, 1)] [d, a, f, p] = true := ⟨rfl, by simp [fit, hf]⟩
  change WordStatement (.cell, place 0xE8000000 [(17, 6), (11, 6), (4, 4), (0, 1)] [d, a, f, p]) (.lds d a f p)
  have kb := place_lt hp 32 rfl
  have k0 := bits_in hp 0 22 17 d rfl rfl
  have k1 := bits_in hp 1 16 11 a rfl rfl
  have k2 := bits_in hp 2 7 4 f rfl rfl
  have k3 := bits_in hp 3 0 0 p rfl rfl
  have k4 := bits_out hp 29 23 80 rfl
  have k5 := bits_out hp 31 30 3 rfl
  have k6 := bits_out hp 10 8 0 rfl
  have k7 := bits_out hp 3 1 0 rfl
  obtain ⟨wd, hw⟩ : ∃ wd, place 0xE8000000 [(17, 6), (11, 6), (4, 4), (0, 1)] [d, a, f, p] = wd := ⟨_, rfl⟩
  rw [hw] at kb k0 k1 k2 k3 k4 k5 k6 k7 ⊢
  clear hp hw
  refine ⟨kb, k5, ?_⟩
  unfold decodeCell32; rw [if_neg (by rw [k5]; decide), k4]
  refine (if_pos ⟨k6, k7⟩).trans ?_
  rw [k0, k1, k2, k3]

theorem sts (d a o h q p : Nat) : Statement (.sts d a o h q p) := by
  intro hf
  replace hf : (decide (d < 64) && decide (a < 64) && decide (o < 8) && decide (h < 2) && decide (q < 2) && decide (p < 2)) = true := hf
  simp only [Bool.and_eq_true, decide_eq_true_eq] at hf
  have hp : apart 0xE8800000 [(17, 6), (11, 6), (8, 3), (3, 1), (1, 1), (0, 1)] = true ∧ fit [(17, 6), (11, 6), (8, 3), (3, 1), (1, 1), (0, 1)] [d, a, o, h, q, p] = true := ⟨rfl, by simp [fit, hf]⟩
  change WordStatement (.cell, place 0xE8800000 [(17, 6), (11, 6), (8, 3), (3, 1), (1, 1), (0, 1)] [d, a, o, h, q, p]) (.sts d a o h q p)
  have kb := place_lt hp 32 rfl
  have k0 := bits_in hp 0 22 17 d rfl rfl
  have k1 := bits_in hp 1 16 11 a rfl rfl
  have k2 := bits_in hp 2 10 8 o rfl rfl
  have k3 := bits_in hp 3 3 3 h rfl rfl
  have k4 := bits_in hp 4 1 1 q rfl rfl
  have k5 := bits_in hp 5 0 0 p rfl rfl
  have k6 := bits_out hp 29 23 81 rfl
  have k7 := bits_out hp 31 30 3 rfl
  have k8 := bits_out hp 7 4 0 rfl
  have k9 := bits_out hp 2 2 0 rfl
  obtain ⟨wd, hw⟩ : ∃ wd, place 0xE8800000 [(17, 6), (11, 6), (8, 3), (3, 1), (1, 1), (0, 1)] [d, a, o, h, q, p] = wd := ⟨_, rfl⟩
  rw [hw] at kb k0 k1 k2 k3 k4 k5 k6 k7 k8 k9 ⊢
  clear hp hw
  refine ⟨kb, k7, ?_⟩
  unfold decodeCell32; rw [if_neg (by rw [k7]; decide), k6]
  refine (if_pos ⟨k8, k9⟩).trans ?_
  rw [k0, k1, k2, k3, k4, k5]

theorem ldx (d a f : Nat) : Statement (.ldx d a f) := by
  intro hf
  replace hf : (decide (d < 64) && decide (a < 64) && decide (f < 16)) = true := hf
  simp only [Bool.and_eq_true, decide_eq_true_eq] at hf
  have hp : apart 0xE9000000 [(17, 6), (11, 6), (4, 4)] = true ∧ fit [(17, 6), (11, 6), (4, 4)] [d, a, f] = true := ⟨rfl, by simp [fit, hf]⟩
  change WordStatement (.cell, place 0xE9000000 [(17, 6), (11, 6), (4, 4)] [d, a, f]) (.ldx d a f)
  have kb := place_lt hp 32 rfl
  have k0 := bits_in hp 0 22 17 d rfl rfl
  have k1 := bits_in hp 1 16 11 a rfl rfl
  have k2 := bits_in hp 2 7 4 f rfl rfl
  have k3 := bits_out hp 29 23 82 rfl
  have k4 := bits_out hp 31 30 3 rfl
  have k5 := bits_out hp 10 8 0 rfl
  have k6 := bits_out hp 3 0 0 rfl
  obtain ⟨wd, hw⟩ : ∃ wd, place 0xE9000000 [(17, 6), (11, 6), (4, 4)] [d, a, f] = wd := ⟨_, rfl⟩
  rw [hw] at kb k0 k1 k2 k3 k4 k5 k6 ⊢
  clear hp hw
  refine ⟨kb, k4, ?_⟩
  unfold decodeCell32; rw [if_neg (by rw [k4]; decide), k3]
  refine (if_pos ⟨k5, k6⟩).trans ?_
  rw [k0, k1, k2]

theorem stx (d a o h : Nat) : Statement (.stx d a o h) := by
  intro hf
  replace hf : (decide (d < 64) && decide (a < 64) && decide (o < 8) && decide (h < 2)) = true := hf
  simp only [Bool.and_eq_true, decide_eq_true_eq] at hf
  have hp : apart 0xE9800000 [(17, 6), (11, 6), (8, 3), (3, 1)] = true ∧ fit [(17, 6), (11, 6), (8, 3), (3, 1)] [d, a, o, h] = true := ⟨rfl, by simp [fit, hf]⟩
  change WordStatement (.cell, place 0xE9800000 [(17, 6), (11, 6), (8, 3), (3, 1)] [d, a, o, h]) (.stx d a o h)
  have kb := place_lt hp 32 rfl
  have k0 := bits_in hp 0 22 17 d rfl rfl
  have k1 := bits_in hp 1 16 11 a rfl rfl
  have k2 := bits_in hp 2 10 8 o rfl rfl
  have k3 := bits_in hp 3 3 3 h rfl rfl
  have k4 := bits_out hp 29 23 83 rfl
  have k5 := bits_out hp 31 30 3 rfl
  have k6 := bits_out hp 7 4 0 rfl
  have k7 := bits_out hp 2 0 0 rfl
  obtain ⟨wd, hw⟩ : ∃ wd, place 0xE9800000 [(17, 6), (11, 6), (8, 3), (3, 1)] [d, a, o, h] = wd := ⟨_, rfl⟩
  rw [hw] at kb k0 k1 k2 k3 k4 k5 k6 k7 ⊢
  clear hp hw
  refine ⟨kb, k5, ?_⟩
  unfold decodeCell32; rw [if_neg (by rw [k5]; decide), k4]
  refine (if_pos ⟨k6, k7⟩).trans ?_
  rw [k0, k1, k2, k3]

theorem atom (d a s r p z : Nat) : Statement (.atom d a s r p z) := by
  intro hf
  replace hf : (decide (d < 64) && decide (a < 64) && decide (s < 4) && decide (r < 4) && decide (p < 16) && decide (z < 2)) = true := hf
  simp only [Bool.and_eq_true, decide_eq_true_eq] at hf
  have hp : apart 0xEA000000 [(17, 6), (11, 6), (9, 2), (7, 2), (3, 4), (2, 1)] = true ∧ fit [(17, 6), (11, 6), (9, 2), (7, 2), (3, 4), (2, 1)] [d, a, s, r, p, z] = true := ⟨rfl, by simp [fit, hf]⟩
  change WordStatement (.cell, place 0xEA000000 [(17, 6), (11, 6), (9, 2), (7, 2), (3, 4), (2, 1)] [d, a, s, r, p, z]) (.atom d a s r p z)
  have kb := place_lt hp 32 rfl
  have k0 := bits_in hp 0 22 17 d rfl rfl
  have k1 := bits_in hp 1 16 11 a rfl rfl
  have k2 := bits_in hp 2 10 9 s rfl rfl
  have k3 := bits_in hp 3 8 7 r rfl rfl
  have k4 := bits_in hp 4 6 3 p rfl rfl
  have k5 := bits_in hp 5 2 2 z rfl rfl
  have k6 := bits_out hp 29 23 84 rfl
  have k7 := bits_out hp 31 30 3 rfl
  have k8 := bits_out hp 1 0 0 rfl
  obtain ⟨wd, hw⟩ : ∃ wd, place 0xEA000000 [(17, 6), (11, 6), (9, 2), (7, 2), (3, 4), (2, 1)] [d, a, s, r, p, z] = wd := ⟨_, rfl⟩
  rw [hw] at kb k0 k1 k2 k3 k4 k5 k6 k7 k8 ⊢
  clear hp hw
  refine ⟨kb, k7, ?_⟩
  unfold decodeCell32; rw [if_neg (by rw [k7]; decide), k6]
  refine (if_pos k8).trans ?_
  rw [k0, k1, k2, k3, k4, k5]

theorem lde (a o f h p n : Nat) : Statement (.lde a o f h p n) := by
  intro hf
  replace hf : (decide (a < 64) && decide (o < 8) && decide (f < 16) && decide (h < 2) && decide (p < 2) && decide (n < 4)) = true := hf
  simp only [Bool.and_eq_true, decide_eq_true_eq] at hf
  have hp : apart 0xEA800000 [(11, 6), (8, 3), (4, 4), (3, 1), (2, 1), (0, 2)] = true ∧ fit [(11, 6), (8, 3), (4, 4), (3, 1), (2, 1), (0, 2)] [a, o, f, h, p, n] = true := ⟨rfl, by simp [fit, hf]⟩
  change WordStatement (.cell, place 0xEA800000 [(11, 6), (8, 3), (4, 4), (3, 1), (2, 1), (0, 2)] [a, o, f, h, p, n]) (.lde a o f h p n)
  have kb := place_lt hp 32 rfl
  have k0 := bits_in hp 0 16 11 a rfl rfl
  have k1 := bits_in hp 1 10 8 o rfl rfl
  have k2 := bits_in hp 2 7 4 f rfl rfl
  have k3 := bits_in hp 3 3 3 h rfl rfl
  have k4 := bits_in hp 4 2 2 p rfl rfl
  have k5 := bits_in hp 5 1 0 n rfl rfl
  have k6 := bits_out hp 29 23 85 rfl
  have k7 := bits_out hp 31 30 3 rfl
  have k8 := bits_out hp 22 17 0 rfl
  obtain ⟨wd, hw⟩ : ∃ wd, place 0xEA800000 [(11, 6), (8, 3), (4, 4), (3, 1), (2, 1), (0, 2)] [a, o, f, h, p, n] = wd := ⟨_, rfl⟩
  rw [hw] at kb k0 k1 k2 k3 k4 k5 k6 k7 k8 ⊢
  clear hp hw
  refine ⟨kb, k7, ?_⟩
  unfold decodeCell32; rw [if_neg (by rw [k7]; decide), k6]
  refine (if_pos k8).trans ?_
  rw [k0, k1, k2, k3, k4, k5]

theorem ste (d a o h p : Nat) : Statement (.ste d a o h p) := by
  intro hf
  replace hf : (decide (d < 64) && decide (a < 64) && decide (o < 8) && decide (h < 2) && decide (p < 2)) = true := hf
  simp only [Bool.and_eq_true, decide_eq_true_eq] at hf
  have hp : apart 0xEB000000 [(17, 6), (11, 6), (8, 3), (3, 1), (2, 1)] = true ∧ fit [(17, 6), (11, 6), (8, 3), (3, 1), (2, 1)] [d, a, o, h, p] = true := ⟨rfl, by simp [fit, hf]⟩
  change WordStatement (.cell, place 0xEB000000 [(17, 6), (11, 6), (8, 3), (3, 1), (2, 1)] [d, a, o, h, p]) (.ste d a o h p)
  have kb := place_lt hp 32 rfl
  have k0 := bits_in hp 0 22 17 d rfl rfl
  have k1 := bits_in hp 1 16 11 a rfl rfl
  have k2 := bits_in hp 2 10 8 o rfl rfl
  have k3 := bits_in hp 3 3 3 h rfl rfl
  have k4 := bits_in hp 4 2 2 p rfl rfl
  have k5 := bits_out hp 29 23 86 rfl
  have k6 := bits_out hp 31 30 3 rfl
  have k7 := bits_out hp 7 4 0 rfl
  have k8 := bits_out hp 1 0 0 rfl
  obtain ⟨wd, hw⟩ : ∃ wd, place 0xEB000000 [(17, 6), (11, 6), (8, 3), (3, 1), (2, 1)] [d, a, o, h, p] = wd := ⟨_, rfl⟩
  rw [hw] at kb k0 k1 k2 k3 k4 k5 k6 k7 k8 ⊢
  clear hp hw
  refine ⟨kb, k6, ?_⟩
  unfold decodeCell32; rw [if_neg (by rw [k6]; decide), k5]
  refine (if_pos ⟨k7, k8⟩).trans ?_
  rw [k0, k1, k2, k3, k4]

theorem ordt (a o : Nat) : Statement (.ordt a o) := by
  intro hf
  replace hf : (decide (a < 64) && decide (o < 8)) = true := hf
  simp only [Bool.and_eq_true, decide_eq_true_eq] at hf
  have hp : apart 0xEB800000 [(11, 6), (8, 3)] = true ∧ fit [(11, 6), (8, 3)] [a, o] = true := ⟨rfl, by simp [fit, hf]⟩
  change WordStatement (.cell, place 0xEB800000 [(11, 6), (8, 3)] [a, o]) (.ordt a o)
  have kb := place_lt hp 32 rfl
  have k0 := bits_in hp 0 16 11 a rfl rfl
  have k1 := bits_in hp 1 10 8 o rfl rfl
  have k2 := bits_out hp 29 23 87 rfl
  have k3 := bits_out hp 31 30 3 rfl
  have k4 := bits_out hp 22 17 0 rfl
  have k5 := bits_out hp 7 0 0 rfl
  obtain ⟨wd, hw⟩ : ∃ wd, place 0xEB800000 [(11, 6), (8, 3)] [a, o] = wd := ⟨_, rfl⟩
  rw [hw] at kb k0 k1 k2 k3 k4 k5 ⊢
  clear hp hw
  refine ⟨kb, k3, ?_⟩
  unfold decodeCell32; rw [if_neg (by rw [k3]; decide), k2]
  refine (if_pos ⟨k4, k5⟩).trans ?_
  rw [k0, k1]

theorem fencem (s r : Nat) : Statement (.fencem s r) := by
  intro hf
  replace hf : (decide (s < 4) && decide (r < 4)) = true := hf
  simp only [Bool.and_eq_true, decide_eq_true_eq] at hf
  have hp : apart 0xEC000000 [(8, 2), (0, 2)] = true ∧ fit [(8, 2), (0, 2)] [s, r] = true := ⟨rfl, by simp [fit, hf]⟩
  change WordStatement (.cell, place 0xEC000000 [(8, 2), (0, 2)] [s, r]) (.fencem s r)
  have kb := place_lt hp 32 rfl
  have k0 := bits_in hp 0 9 8 s rfl rfl
  have k1 := bits_in hp 1 1 0 r rfl rfl
  have k2 := bits_out hp 29 23 88 rfl
  have k3 := bits_out hp 31 30 3 rfl
  have k4 := bits_out hp 22 10 0 rfl
  have k5 := bits_out hp 7 2 0 rfl
  obtain ⟨wd, hw⟩ : ∃ wd, place 0xEC000000 [(8, 2), (0, 2)] [s, r] = wd := ⟨_, rfl⟩
  rw [hw] at kb k0 k1 k2 k3 k4 k5 ⊢
  clear hp hw
  refine ⟨kb, k3, ?_⟩
  unfold decodeCell32; rw [if_neg (by rw [k3]; decide), k2]
  refine (if_pos ⟨k4, k5⟩).trans ?_
  rw [k0, k1]

theorem cmpr (d a : Nat) : Statement (.cmpr d a) := by
  intro hf
  replace hf : (decide (d < 64) && decide (a < 64)) = true := hf
  simp only [Bool.and_eq_true, decide_eq_true_eq] at hf
  have hp : apart 0xEC800000 [(17, 6), (11, 6)] = true ∧ fit [(17, 6), (11, 6)] [d, a] = true := ⟨rfl, by simp [fit, hf]⟩
  change WordStatement (.cell, place 0xEC800000 [(17, 6), (11, 6)] [d, a]) (.cmpr d a)
  have kb := place_lt hp 32 rfl
  have k0 := bits_in hp 0 22 17 d rfl rfl
  have k1 := bits_in hp 1 16 11 a rfl rfl
  have k2 := bits_out hp 29 23 89 rfl
  have k3 := bits_out hp 31 30 3 rfl
  have k4 := bits_out hp 10 0 0 rfl
  obtain ⟨wd, hw⟩ : ∃ wd, place 0xEC800000 [(17, 6), (11, 6)] [d, a] = wd := ⟨_, rfl⟩
  rw [hw] at kb k0 k1 k2 k3 k4 ⊢
  clear hp hw
  refine ⟨kb, k3, ?_⟩
  unfold decodeCell32; rw [if_neg (by rw [k3]; decide), k2]
  refine (if_pos k4).trans ?_
  rw [k0, k1]

theorem expd (d a o h : Nat) : Statement (.expd d a o h) := by
  intro hf
  replace hf : (decide (d < 64) && decide (a < 64) && decide (o < 8) && decide (h < 2)) = true := hf
  simp only [Bool.and_eq_true, decide_eq_true_eq] at hf
  have hp : apart 0xED000000 [(17, 6), (11, 6), (8, 3), (3, 1)] = true ∧ fit [(17, 6), (11, 6), (8, 3), (3, 1)] [d, a, o, h] = true := ⟨rfl, by simp [fit, hf]⟩
  change WordStatement (.cell, place 0xED000000 [(17, 6), (11, 6), (8, 3), (3, 1)] [d, a, o, h]) (.expd d a o h)
  have kb := place_lt hp 32 rfl
  have k0 := bits_in hp 0 22 17 d rfl rfl
  have k1 := bits_in hp 1 16 11 a rfl rfl
  have k2 := bits_in hp 2 10 8 o rfl rfl
  have k3 := bits_in hp 3 3 3 h rfl rfl
  have k4 := bits_out hp 29 23 90 rfl
  have k5 := bits_out hp 31 30 3 rfl
  have k6 := bits_out hp 7 4 0 rfl
  have k7 := bits_out hp 2 0 0 rfl
  obtain ⟨wd, hw⟩ : ∃ wd, place 0xED000000 [(17, 6), (11, 6), (8, 3), (3, 1)] [d, a, o, h] = wd := ⟨_, rfl⟩
  rw [hw] at kb k0 k1 k2 k3 k4 k5 k6 k7 ⊢
  clear hp hw
  refine ⟨kb, k5, ?_⟩
  unfold decodeCell32; rw [if_neg (by rw [k5]; decide), k4]
  refine (if_pos ⟨k6, k7⟩).trans ?_
  rw [k0, k1, k2, k3]

theorem rput (d a o h j : Nat) : Statement (.rput d a o h j) := by
  intro hf
  replace hf : (decide (d < 64) && decide (a < 64) && decide (o < 8) && decide (h < 2) && decide (j < 8)) = true := hf
  simp only [Bool.and_eq_true, decide_eq_true_eq] at hf
  have hp : apart 0xED800000 [(17, 6), (11, 6), (8, 3), (3, 1), (0, 3)] = true ∧ fit [(17, 6), (11, 6), (8, 3), (3, 1), (0, 3)] [d, a, o, h, j] = true := ⟨rfl, by simp [fit, hf]⟩
  change WordStatement (.cell, place 0xED800000 [(17, 6), (11, 6), (8, 3), (3, 1), (0, 3)] [d, a, o, h, j]) (.rput d a o h j)
  have kb := place_lt hp 32 rfl
  have k0 := bits_in hp 0 22 17 d rfl rfl
  have k1 := bits_in hp 1 16 11 a rfl rfl
  have k2 := bits_in hp 2 10 8 o rfl rfl
  have k3 := bits_in hp 3 3 3 h rfl rfl
  have k4 := bits_in hp 4 2 0 j rfl rfl
  have k5 := bits_out hp 29 23 91 rfl
  have k6 := bits_out hp 31 30 3 rfl
  have k7 := bits_out hp 7 4 0 rfl
  obtain ⟨wd, hw⟩ : ∃ wd, place 0xED800000 [(17, 6), (11, 6), (8, 3), (3, 1), (0, 3)] [d, a, o, h, j] = wd := ⟨_, rfl⟩
  rw [hw] at kb k0 k1 k2 k3 k4 k5 k6 k7 ⊢
  clear hp hw
  refine ⟨kb, k6, ?_⟩
  unfold decodeCell32; rw [if_neg (by rw [k6]; decide), k5]
  refine (if_pos k7).trans ?_
  rw [k0, k1, k2, k3, k4]

theorem rget (d a f j : Nat) : Statement (.rget d a f j) := by
  intro hf
  replace hf : (decide (d < 64) && decide (a < 64) && decide (f < 16) && decide (j < 8)) = true := hf
  simp only [Bool.and_eq_true, decide_eq_true_eq] at hf
  have hp : apart 0xEE000000 [(17, 6), (11, 6), (4, 4), (0, 3)] = true ∧ fit [(17, 6), (11, 6), (4, 4), (0, 3)] [d, a, f, j] = true := ⟨rfl, by simp [fit, hf]⟩
  change WordStatement (.cell, place 0xEE000000 [(17, 6), (11, 6), (4, 4), (0, 3)] [d, a, f, j]) (.rget d a f j)
  have kb := place_lt hp 32 rfl
  have k0 := bits_in hp 0 22 17 d rfl rfl
  have k1 := bits_in hp 1 16 11 a rfl rfl
  have k2 := bits_in hp 2 7 4 f rfl rfl
  have k3 := bits_in hp 3 2 0 j rfl rfl
  have k4 := bits_out hp 29 23 92 rfl
  have k5 := bits_out hp 31 30 3 rfl
  have k6 := bits_out hp 10 8 0 rfl
  have k7 := bits_out hp 3 3 0 rfl
  obtain ⟨wd, hw⟩ : ∃ wd, place 0xEE000000 [(17, 6), (11, 6), (4, 4), (0, 3)] [d, a, f, j] = wd := ⟨_, rfl⟩
  rw [hw] at kb k0 k1 k2 k3 k4 k5 k6 k7 ⊢
  clear hp hw
  refine ⟨kb, k5, ?_⟩
  unfold decodeCell32; rw [if_neg (by rw [k5]; decide), k4]
  refine (if_pos ⟨k6, k7⟩).trans ?_
  rw [k0, k1, k2, k3]

theorem rfree (a : Nat) : Statement (.rfree a) := by
  intro hf
  replace hf : (decide (a < 64)) = true := hf
  simp only [decide_eq_true_eq] at hf
  have hp : apart 0xEE800000 [(11, 6)] = true ∧ fit [(11, 6)] [a] = true := ⟨rfl, by simp [fit, hf]⟩
  change WordStatement (.cell, place 0xEE800000 [(11, 6)] [a]) (.rfree a)
  have kb := place_lt hp 32 rfl
  have k0 := bits_in hp 0 16 11 a rfl rfl
  have k1 := bits_out hp 29 23 93 rfl
  have k2 := bits_out hp 31 30 3 rfl
  have k3 := bits_out hp 22 17 0 rfl
  have k4 := bits_out hp 10 0 0 rfl
  obtain ⟨wd, hw⟩ : ∃ wd, place 0xEE800000 [(11, 6)] [a] = wd := ⟨_, rfl⟩
  rw [hw] at kb k0 k1 k2 k3 k4 ⊢
  clear hp hw
  refine ⟨kb, k2, ?_⟩
  unfold decodeCell32; rw [if_neg (by rw [k2]; decide), k1]
  refine (if_pos ⟨k3, k4⟩).trans ?_
  rw [k0]

theorem tbarv (a o h : Nat) : Statement (.tbarv a o h) := by
  intro hf
  replace hf : (decide (a < 64) && decide (o < 8) && decide (h < 2)) = true := hf
  simp only [Bool.and_eq_true, decide_eq_true_eq] at hf
  have hp : apart 0xEF000000 [(11, 6), (8, 3), (3, 1)] = true ∧ fit [(11, 6), (8, 3), (3, 1)] [a, o, h] = true := ⟨rfl, by simp [fit, hf]⟩
  change WordStatement (.cell, place 0xEF000000 [(11, 6), (8, 3), (3, 1)] [a, o, h]) (.tbarv a o h)
  have kb := place_lt hp 32 rfl
  have k0 := bits_in hp 0 16 11 a rfl rfl
  have k1 := bits_in hp 1 10 8 o rfl rfl
  have k2 := bits_in hp 2 3 3 h rfl rfl
  have k3 := bits_out hp 29 23 94 rfl
  have k4 := bits_out hp 31 30 3 rfl
  have k5 := bits_out hp 22 17 0 rfl
  have k6 := bits_out hp 7 4 0 rfl
  have k7 := bits_out hp 2 0 0 rfl
  obtain ⟨wd, hw⟩ : ∃ wd, place 0xEF000000 [(11, 6), (8, 3), (3, 1)] [a, o, h] = wd := ⟨_, rfl⟩
  rw [hw] at kb k0 k1 k2 k3 k4 k5 k6 k7 ⊢
  clear hp hw
  refine ⟨kb, k4, ?_⟩
  unfold decodeCell32; rw [if_neg (by rw [k4]; decide), k3]
  refine (if_pos ⟨k5, k6, k7⟩).trans ?_
  rw [k0, k1, k2]

theorem tbtst (d a : Nat) : Statement (.tbtst d a) := by
  intro hf
  replace hf : (decide (d < 64) && decide (a < 64)) = true := hf
  simp only [Bool.and_eq_true, decide_eq_true_eq] at hf
  have hp : apart 0xEF800000 [(17, 6), (11, 6)] = true ∧ fit [(17, 6), (11, 6)] [d, a] = true := ⟨rfl, by simp [fit, hf]⟩
  change WordStatement (.cell, place 0xEF800000 [(17, 6), (11, 6)] [d, a]) (.tbtst d a)
  have kb := place_lt hp 32 rfl
  have k0 := bits_in hp 0 22 17 d rfl rfl
  have k1 := bits_in hp 1 16 11 a rfl rfl
  have k2 := bits_out hp 29 23 95 rfl
  have k3 := bits_out hp 31 30 3 rfl
  have k4 := bits_out hp 10 0 0 rfl
  obtain ⟨wd, hw⟩ : ∃ wd, place 0xEF800000 [(17, 6), (11, 6)] [d, a] = wd := ⟨_, rfl⟩
  rw [hw] at kb k0 k1 k2 k3 k4 ⊢
  clear hp hw
  refine ⟨kb, k3, ?_⟩
  unfold decodeCell32; rw [if_neg (by rw [k3]; decide), k2]
  refine (if_pos k4).trans ?_
  rw [k0, k1]

theorem rmk (d a b : Nat) : Statement (.rmk d a b) := by
  intro hf
  replace hf : (decide (d < 64) && decide (a < 64) && decide (b < 64)) = true := hf
  simp only [Bool.and_eq_true, decide_eq_true_eq] at hf
  have hp : apart 0xF0000000 [(17, 6), (11, 6), (5, 6)] = true ∧ fit [(17, 6), (11, 6), (5, 6)] [d, a, b] = true := ⟨rfl, by simp [fit, hf]⟩
  change WordStatement (.cell, place 0xF0000000 [(17, 6), (11, 6), (5, 6)] [d, a, b]) (.rmk d a b)
  have kb := place_lt hp 32 rfl
  have k0 := bits_in hp 0 22 17 d rfl rfl
  have k1 := bits_in hp 1 16 11 a rfl rfl
  have k2 := bits_in hp 2 10 5 b rfl rfl
  have k3 := bits_out hp 29 23 96 rfl
  have k4 := bits_out hp 31 30 3 rfl
  have k5 := bits_out hp 4 0 0 rfl
  obtain ⟨wd, hw⟩ : ∃ wd, place 0xF0000000 [(17, 6), (11, 6), (5, 6)] [d, a, b] = wd := ⟨_, rfl⟩
  rw [hw] at kb k0 k1 k2 k3 k4 k5 ⊢
  clear hp hw
  refine ⟨kb, k4, ?_⟩
  unfold decodeCell32; rw [if_neg (by rw [k4]; decide), k3]
  refine (if_pos k5).trans ?_
  rw [k0, k1, k2]

theorem tjoin (d a b : Nat) : Statement (.tjoin d a b) := by
  intro hf
  replace hf : (decide (d < 64) && decide (a < 64) && decide (b < 64)) = true := hf
  simp only [Bool.and_eq_true, decide_eq_true_eq] at hf
  have hp : apart 0xF0800000 [(17, 6), (11, 6), (5, 6)] = true ∧ fit [(17, 6), (11, 6), (5, 6)] [d, a, b] = true := ⟨rfl, by simp [fit, hf]⟩
  change WordStatement (.cell, place 0xF0800000 [(17, 6), (11, 6), (5, 6)] [d, a, b]) (.tjoin d a b)
  have kb := place_lt hp 32 rfl
  have k0 := bits_in hp 0 22 17 d rfl rfl
  have k1 := bits_in hp 1 16 11 a rfl rfl
  have k2 := bits_in hp 2 10 5 b rfl rfl
  have k3 := bits_out hp 29 23 97 rfl
  have k4 := bits_out hp 31 30 3 rfl
  have k5 := bits_out hp 4 0 0 rfl
  obtain ⟨wd, hw⟩ : ∃ wd, place 0xF0800000 [(17, 6), (11, 6), (5, 6)] [d, a, b] = wd := ⟨_, rfl⟩
  rw [hw] at kb k0 k1 k2 k3 k4 k5 ⊢
  clear hp hw
  refine ⟨kb, k4, ?_⟩
  unfold decodeCell32; rw [if_neg (by rw [k4]; decide), k3]
  refine (if_pos k5).trans ?_
  rw [k0, k1, k2]

theorem tmeet (d a b : Nat) : Statement (.tmeet d a b) := by
  intro hf
  replace hf : (decide (d < 64) && decide (a < 64) && decide (b < 64)) = true := hf
  simp only [Bool.and_eq_true, decide_eq_true_eq] at hf
  have hp : apart 0xF1000000 [(17, 6), (11, 6), (5, 6)] = true ∧ fit [(17, 6), (11, 6), (5, 6)] [d, a, b] = true := ⟨rfl, by simp [fit, hf]⟩
  change WordStatement (.cell, place 0xF1000000 [(17, 6), (11, 6), (5, 6)] [d, a, b]) (.tmeet d a b)
  have kb := place_lt hp 32 rfl
  have k0 := bits_in hp 0 22 17 d rfl rfl
  have k1 := bits_in hp 1 16 11 a rfl rfl
  have k2 := bits_in hp 2 10 5 b rfl rfl
  have k3 := bits_out hp 29 23 98 rfl
  have k4 := bits_out hp 31 30 3 rfl
  have k5 := bits_out hp 4 0 0 rfl
  obtain ⟨wd, hw⟩ : ∃ wd, place 0xF1000000 [(17, 6), (11, 6), (5, 6)] [d, a, b] = wd := ⟨_, rfl⟩
  rw [hw] at kb k0 k1 k2 k3 k4 k5 ⊢
  clear hp hw
  refine ⟨kb, k4, ?_⟩
  unfold decodeCell32; rw [if_neg (by rw [k4]; decide), k3]
  refine (if_pos k5).trans ?_
  rw [k0, k1, k2]

theorem tle (d a b : Nat) : Statement (.tle d a b) := by
  intro hf
  replace hf : (decide (d < 64) && decide (a < 64) && decide (b < 64)) = true := hf
  simp only [Bool.and_eq_true, decide_eq_true_eq] at hf
  have hp : apart 0xF1800000 [(17, 6), (11, 6), (5, 6)] = true ∧ fit [(17, 6), (11, 6), (5, 6)] [d, a, b] = true := ⟨rfl, by simp [fit, hf]⟩
  change WordStatement (.cell, place 0xF1800000 [(17, 6), (11, 6), (5, 6)] [d, a, b]) (.tle d a b)
  have kb := place_lt hp 32 rfl
  have k0 := bits_in hp 0 22 17 d rfl rfl
  have k1 := bits_in hp 1 16 11 a rfl rfl
  have k2 := bits_in hp 2 10 5 b rfl rfl
  have k3 := bits_out hp 29 23 99 rfl
  have k4 := bits_out hp 31 30 3 rfl
  have k5 := bits_out hp 4 0 0 rfl
  obtain ⟨wd, hw⟩ : ∃ wd, place 0xF1800000 [(17, 6), (11, 6), (5, 6)] [d, a, b] = wd := ⟨_, rfl⟩
  rw [hw] at kb k0 k1 k2 k3 k4 k5 ⊢
  clear hp hw
  refine ⟨kb, k4, ?_⟩
  unfold decodeCell32; rw [if_neg (by rw [k4]; decide), k3]
  refine (if_pos k5).trans ?_
  rw [k0, k1, k2]

theorem tadv (d a b : Nat) : Statement (.tadv d a b) := by
  intro hf
  replace hf : (decide (d < 64) && decide (a < 64) && decide (b < 64)) = true := hf
  simp only [Bool.and_eq_true, decide_eq_true_eq] at hf
  have hp : apart 0xF2000000 [(17, 6), (11, 6), (5, 6)] = true ∧ fit [(17, 6), (11, 6), (5, 6)] [d, a, b] = true := ⟨rfl, by simp [fit, hf]⟩
  change WordStatement (.cell, place 0xF2000000 [(17, 6), (11, 6), (5, 6)] [d, a, b]) (.tadv d a b)
  have kb := place_lt hp 32 rfl
  have k0 := bits_in hp 0 22 17 d rfl rfl
  have k1 := bits_in hp 1 16 11 a rfl rfl
  have k2 := bits_in hp 2 10 5 b rfl rfl
  have k3 := bits_out hp 29 23 100 rfl
  have k4 := bits_out hp 31 30 3 rfl
  have k5 := bits_out hp 4 0 0 rfl
  obtain ⟨wd, hw⟩ : ∃ wd, place 0xF2000000 [(17, 6), (11, 6), (5, 6)] [d, a, b] = wd := ⟨_, rfl⟩
  rw [hw] at kb k0 k1 k2 k3 k4 k5 ⊢
  clear hp hw
  refine ⟨kb, k4, ?_⟩
  unfold decodeCell32; rw [if_neg (by rw [k4]; decide), k3]
  refine (if_pos k5).trans ?_
  rw [k0, k1, k2]

theorem hins (a h : Nat) : Statement (.hins a h) := by
  intro hf
  replace hf : (decide (a < 64) && decide (h < 16)) = true := hf
  simp only [Bool.and_eq_true, decide_eq_true_eq] at hf
  have hp : apart 0xF2800000 [(11, 6), (7, 4)] = true ∧ fit [(11, 6), (7, 4)] [a, h] = true := ⟨rfl, by simp [fit, hf]⟩
  change WordStatement (.cell, place 0xF2800000 [(11, 6), (7, 4)] [a, h]) (.hins a h)
  have kb := place_lt hp 32 rfl
  have k0 := bits_in hp 0 16 11 a rfl rfl
  have k1 := bits_in hp 1 10 7 h rfl rfl
  have k2 := bits_out hp 29 23 101 rfl
  have k3 := bits_out hp 31 30 3 rfl
  have k4 := bits_out hp 22 17 0 rfl
  have k5 := bits_out hp 6 0 0 rfl
  obtain ⟨wd, hw⟩ : ∃ wd, place 0xF2800000 [(11, 6), (7, 4)] [a, h] = wd := ⟨_, rfl⟩
  rw [hw] at kb k0 k1 k2 k3 k4 k5 ⊢
  clear hp hw
  refine ⟨kb, k3, ?_⟩
  unfold decodeCell32; rw [if_neg (by rw [k3]; decide), k2]
  refine (if_pos ⟨k4, k5⟩).trans ?_
  rw [k0, k1]

theorem hseek (a h e : Nat) : Statement (.hseek a h e) := by
  intro hf
  replace hf : (decide (a < 64) && decide (h < 16) && decide (e < 8)) = true := hf
  simp only [Bool.and_eq_true, decide_eq_true_eq] at hf
  have hp : apart 0xF3000000 [(11, 6), (7, 4), (4, 3)] = true ∧ fit [(11, 6), (7, 4), (4, 3)] [a, h, e] = true := ⟨rfl, by simp [fit, hf]⟩
  change WordStatement (.cell, place 0xF3000000 [(11, 6), (7, 4), (4, 3)] [a, h, e]) (.hseek a h e)
  have kb := place_lt hp 32 rfl
  have k0 := bits_in hp 0 16 11 a rfl rfl
  have k1 := bits_in hp 1 10 7 h rfl rfl
  have k2 := bits_in hp 2 6 4 e rfl rfl
  have k3 := bits_out hp 29 23 102 rfl
  have k4 := bits_out hp 31 30 3 rfl
  have k5 := bits_out hp 22 17 0 rfl
  have k6 := bits_out hp 3 0 0 rfl
  obtain ⟨wd, hw⟩ : ∃ wd, place 0xF3000000 [(11, 6), (7, 4), (4, 3)] [a, h, e] = wd := ⟨_, rfl⟩
  rw [hw] at kb k0 k1 k2 k3 k4 k5 k6 ⊢
  clear hp hw
  refine ⟨kb, k4, ?_⟩
  unfold decodeCell32; rw [if_neg (by rw [k4]; decide), k3]
  refine (if_pos ⟨k5, k6⟩).trans ?_
  rw [k0, k1, k2]

theorem hjoin (a h e : Nat) : Statement (.hjoin a h e) := by
  intro hf
  replace hf : (decide (a < 64) && decide (h < 16) && decide (e < 8)) = true := hf
  simp only [Bool.and_eq_true, decide_eq_true_eq] at hf
  have hp : apart 0xF3800000 [(11, 6), (7, 4), (4, 3)] = true ∧ fit [(11, 6), (7, 4), (4, 3)] [a, h, e] = true := ⟨rfl, by simp [fit, hf]⟩
  change WordStatement (.cell, place 0xF3800000 [(11, 6), (7, 4), (4, 3)] [a, h, e]) (.hjoin a h e)
  have kb := place_lt hp 32 rfl
  have k0 := bits_in hp 0 16 11 a rfl rfl
  have k1 := bits_in hp 1 10 7 h rfl rfl
  have k2 := bits_in hp 2 6 4 e rfl rfl
  have k3 := bits_out hp 29 23 103 rfl
  have k4 := bits_out hp 31 30 3 rfl
  have k5 := bits_out hp 22 17 0 rfl
  have k6 := bits_out hp 3 0 0 rfl
  obtain ⟨wd, hw⟩ : ∃ wd, place 0xF3800000 [(11, 6), (7, 4), (4, 3)] [a, h, e] = wd := ⟨_, rfl⟩
  rw [hw] at kb k0 k1 k2 k3 k4 k5 k6 ⊢
  clear hp hw
  refine ⟨kb, k4, ?_⟩
  unfold decodeCell32; rw [if_neg (by rw [k4]; decide), k3]
  refine (if_pos ⟨k5, k6⟩).trans ?_
  rw [k0, k1, k2]

theorem hred (d a h v : Nat) : Statement (.hred d a h v) := by
  intro hf
  replace hf : (decide (d < 64) && decide (a < 64) && decide (h < 16) && decide (v < 16)) = true := hf
  simp only [Bool.and_eq_true, decide_eq_true_eq] at hf
  have hp : apart 0xF4000000 [(17, 6), (11, 6), (7, 4), (0, 4)] = true ∧ fit [(17, 6), (11, 6), (7, 4), (0, 4)] [d, a, h, v] = true := ⟨rfl, by simp [fit, hf]⟩
  change WordStatement (.cell, place 0xF4000000 [(17, 6), (11, 6), (7, 4), (0, 4)] [d, a, h, v]) (.hred d a h v)
  have kb := place_lt hp 32 rfl
  have k0 := bits_in hp 0 22 17 d rfl rfl
  have k1 := bits_in hp 1 16 11 a rfl rfl
  have k2 := bits_in hp 2 10 7 h rfl rfl
  have k3 := bits_in hp 3 3 0 v rfl rfl
  have k4 := bits_out hp 29 23 104 rfl
  have k5 := bits_out hp 31 30 3 rfl
  have k6 := bits_out hp 6 4 0 rfl
  obtain ⟨wd, hw⟩ : ∃ wd, place 0xF4000000 [(17, 6), (11, 6), (7, 4), (0, 4)] [d, a, h, v] = wd := ⟨_, rfl⟩
  rw [hw] at kb k0 k1 k2 k3 k4 k5 k6 ⊢
  clear hp hw
  refine ⟨kb, k5, ?_⟩
  unfold decodeCell32; rw [if_neg (by rw [k5]; decide), k4]
  refine (if_pos k6).trans ?_
  rw [k0, k1, k2, k3]

theorem hcons (h : Nat) : Statement (.hcons h) := by
  intro hf
  replace hf : (decide (h < 16)) = true := hf
  simp only [decide_eq_true_eq] at hf
  have hp : apart 0xF4800000 [(7, 4)] = true ∧ fit [(7, 4)] [h] = true := ⟨rfl, by simp [fit, hf]⟩
  change WordStatement (.cell, place 0xF4800000 [(7, 4)] [h]) (.hcons h)
  have kb := place_lt hp 32 rfl
  have k0 := bits_in hp 0 10 7 h rfl rfl
  have k1 := bits_out hp 29 23 105 rfl
  have k2 := bits_out hp 31 30 3 rfl
  have k3 := bits_out hp 22 11 0 rfl
  have k4 := bits_out hp 6 0 0 rfl
  obtain ⟨wd, hw⟩ : ∃ wd, place 0xF4800000 [(7, 4)] [h] = wd := ⟨_, rfl⟩
  rw [hw] at kb k0 k1 k2 k3 k4 ⊢
  clear hp hw
  refine ⟨kb, k2, ?_⟩
  unfold decodeCell32; rw [if_neg (by rw [k2]; decide), k1]
  refine (if_pos ⟨k3, k4⟩).trans ?_
  rw [k0]

theorem hcomp (a h : Nat) : Statement (.hcomp a h) := by
  intro hf
  replace hf : (decide (a < 64) && decide (h < 16)) = true := hf
  simp only [Bool.and_eq_true, decide_eq_true_eq] at hf
  have hp : apart 0xF5000000 [(11, 6), (7, 4)] = true ∧ fit [(11, 6), (7, 4)] [a, h] = true := ⟨rfl, by simp [fit, hf]⟩
  change WordStatement (.cell, place 0xF5000000 [(11, 6), (7, 4)] [a, h]) (.hcomp a h)
  have kb := place_lt hp 32 rfl
  have k0 := bits_in hp 0 16 11 a rfl rfl
  have k1 := bits_in hp 1 10 7 h rfl rfl
  have k2 := bits_out hp 29 23 106 rfl
  have k3 := bits_out hp 31 30 3 rfl
  have k4 := bits_out hp 22 17 0 rfl
  have k5 := bits_out hp 6 0 0 rfl
  obtain ⟨wd, hw⟩ : ∃ wd, place 0xF5000000 [(11, 6), (7, 4)] [a, h] = wd := ⟨_, rfl⟩
  rw [hw] at kb k0 k1 k2 k3 k4 k5 ⊢
  clear hp hw
  refine ⟨kb, k3, ?_⟩
  unfold decodeCell32; rw [if_neg (by rw [k3]; decide), k2]
  refine (if_pos ⟨k4, k5⟩).trans ?_
  rw [k0, k1]

theorem fnrd (d i : Nat) : Statement (.fnrd d i) := by
  intro hf
  replace hf : (decide (d < 64) && decide (i < 2048)) = true := hf
  simp only [Bool.and_eq_true, decide_eq_true_eq] at hf
  have hp : apart 0xF5800000 [(17, 6), (0, 11)] = true ∧ fit [(17, 6), (0, 11)] [d, i] = true := ⟨rfl, by simp [fit, hf]⟩
  change WordStatement (.cell, place 0xF5800000 [(17, 6), (0, 11)] [d, i]) (.fnrd d i)
  have kb := place_lt hp 32 rfl
  have k0 := bits_in hp 0 22 17 d rfl rfl
  have k1 := bits_in hp 1 10 0 i rfl rfl
  have k2 := bits_out hp 29 23 107 rfl
  have k3 := bits_out hp 31 30 3 rfl
  have k4 := bits_out hp 16 11 0 rfl
  obtain ⟨wd, hw⟩ : ∃ wd, place 0xF5800000 [(17, 6), (0, 11)] [d, i] = wd := ⟨_, rfl⟩
  rw [hw] at kb k0 k1 k2 k3 k4 ⊢
  clear hp hw
  refine ⟨kb, k3, ?_⟩
  unfold decodeCell32; rw [if_neg (by rw [k3]; decide), k2]
  refine (if_pos k4).trans ?_
  rw [k0, k1]

theorem fnput (e s : Nat) : Statement (.fnput e s) := by
  intro hf
  replace hf : (decide (e < 8) && decide (s < 64)) = true := hf
  simp only [Bool.and_eq_true, decide_eq_true_eq] at hf
  have hp : apart 0xF6000800 [(20, 3), (14, 6)] = true ∧ fit [(20, 3), (14, 6)] [e, s] = true := ⟨rfl, by simp [fit, hf]⟩
  change WordStatement (.cell, place 0xF6000800 [(20, 3), (14, 6)] [e, s]) (.fnput e s)
  have kb := place_lt hp 32 rfl
  have k0 := bits_in hp 0 22 20 e rfl rfl
  have k1 := bits_in hp 1 19 14 s rfl rfl
  have k2 := bits_out hp 29 23 108 rfl
  have k3 := bits_out hp 31 30 3 rfl
  have k4 := bits_out hp 13 0 2048 rfl
  obtain ⟨wd, hw⟩ : ∃ wd, place 0xF6000800 [(20, 3), (14, 6)] [e, s] = wd := ⟨_, rfl⟩
  rw [hw] at kb k0 k1 k2 k3 k4 ⊢
  clear hp hw
  refine ⟨kb, k3, ?_⟩
  unfold decodeCell32; rw [if_neg (by rw [k3]; decide), k2]
  refine (if_pos k4).trans ?_
  rw [k0, k1]

theorem scope (d a b : Nat) : Statement (.scope d a b) := by
  intro hf
  replace hf : (decide (d < 64) && decide (a < 64) && decide (b < 64)) = true := hf
  simp only [Bool.and_eq_true, decide_eq_true_eq] at hf
  have hp : apart 0xF6800000 [(17, 6), (11, 6), (5, 6)] = true ∧ fit [(17, 6), (11, 6), (5, 6)] [d, a, b] = true := ⟨rfl, by simp [fit, hf]⟩
  change WordStatement (.cell, place 0xF6800000 [(17, 6), (11, 6), (5, 6)] [d, a, b]) (.scope d a b)
  have kb := place_lt hp 32 rfl
  have k0 := bits_in hp 0 22 17 d rfl rfl
  have k1 := bits_in hp 1 16 11 a rfl rfl
  have k2 := bits_in hp 2 10 5 b rfl rfl
  have k3 := bits_out hp 29 23 109 rfl
  have k4 := bits_out hp 31 30 3 rfl
  have k5 := bits_out hp 4 0 0 rfl
  obtain ⟨wd, hw⟩ : ∃ wd, place 0xF6800000 [(17, 6), (11, 6), (5, 6)] [d, a, b] = wd := ⟨_, rfl⟩
  rw [hw] at kb k0 k1 k2 k3 k4 k5 ⊢
  clear hp hw
  refine ⟨kb, k4, ?_⟩
  unfold decodeCell32; rw [if_neg (by rw [k4]; decide), k3]
  refine (if_pos k5).trans ?_
  rw [k0, k1, k2]

theorem rhash (d a i : Nat) : Statement (.rhash d a i) := by
  intro hf
  replace hf : (decide (d < 64) && decide (a < 64) && decide (i < 2048)) = true := hf
  simp only [Bool.and_eq_true, decide_eq_true_eq] at hf
  have hp : apart 0xF7000000 [(17, 6), (11, 6), (0, 11)] = true ∧ fit [(17, 6), (11, 6), (0, 11)] [d, a, i] = true := ⟨rfl, by simp [fit, hf]⟩
  change WordStatement (.cell, place 0xF7000000 [(17, 6), (11, 6), (0, 11)] [d, a, i]) (.rhash d a i)
  have kb := place_lt hp 32 rfl
  have k0 := bits_in hp 0 22 17 d rfl rfl
  have k1 := bits_in hp 1 16 11 a rfl rfl
  have k2 := bits_in hp 2 10 0 i rfl rfl
  have k3 := bits_out hp 29 23 110 rfl
  have k4 := bits_out hp 31 30 3 rfl
  obtain ⟨wd, hw⟩ : ∃ wd, place 0xF7000000 [(17, 6), (11, 6), (0, 11)] [d, a, i] = wd := ⟨_, rfl⟩
  rw [hw] at kb k0 k1 k2 k3 k4 ⊢
  clear hp hw
  refine ⟨kb, k4, ?_⟩
  unfold decodeCell32; rw [if_neg (by rw [k4]; decide), k3]
  refine (if_pos trivial).trans ?_
  rw [k0, k1, k2]

theorem rneg (d a : Nat) : Statement (.rneg d a) := by
  intro hf
  replace hf : (decide (d < 64) && decide (a < 64)) = true := hf
  simp only [Bool.and_eq_true, decide_eq_true_eq] at hf
  have hp : apart 0xF7800000 [(17, 6), (11, 6)] = true ∧ fit [(17, 6), (11, 6)] [d, a] = true := ⟨rfl, by simp [fit, hf]⟩
  change WordStatement (.cell, place 0xF7800000 [(17, 6), (11, 6)] [d, a]) (.rneg d a)
  have kb := place_lt hp 32 rfl
  have k0 := bits_in hp 0 22 17 d rfl rfl
  have k1 := bits_in hp 1 16 11 a rfl rfl
  have k2 := bits_out hp 29 23 111 rfl
  have k3 := bits_out hp 31 30 3 rfl
  have k4 := bits_out hp 10 0 0 rfl
  obtain ⟨wd, hw⟩ : ∃ wd, place 0xF7800000 [(17, 6), (11, 6)] [d, a] = wd := ⟨_, rfl⟩
  rw [hw] at kb k0 k1 k2 k3 k4 ⊢
  clear hp hw
  refine ⟨kb, k3, ?_⟩
  unfold decodeCell32; rw [if_neg (by rw [k3]; decide), k2]
  refine (if_pos k4).trans ?_
  rw [k0, k1]

theorem cAdd (d a b : Nat) : Statement (.cAdd d a b) := by
  intro hf
  replace hf : (decide (d < 8) && decide (a < 16) && decide (b < 16)) = true := hf
  simp only [Bool.and_eq_true, decide_eq_true_eq] at hf
  have hp : apart 0x800 [(8, 3), (4, 4), (0, 4)] = true ∧ fit [(8, 3), (4, 4), (0, 4)] [d, a, b] = true := ⟨rfl, by simp [fit, hf]⟩
  change WordStatement (.compact, place 0x800 [(8, 3), (4, 4), (0, 4)] [d, a, b]) (.cAdd d a b)
  have kb := place_lt hp 16 rfl
  have k0 := bits_in hp 0 10 8 d rfl rfl
  have k1 := bits_in hp 1 7 4 a rfl rfl
  have k2 := bits_in hp 2 3 0 b rfl rfl
  have k3 := bits_out hp 15 11 1 rfl
  have k4 := bits_out hp 15 14 0 rfl
  obtain ⟨wd, hw⟩ : ∃ wd, place 0x800 [(8, 3), (4, 4), (0, 4)] [d, a, b] = wd := ⟨_, rfl⟩
  rw [hw] at kb k0 k1 k2 k3 k4 ⊢
  clear hp hw
  refine ⟨kb, by rw [k4]; decide, ?_⟩
  unfold decodeCompact; rw [k3]
  refine (if_pos trivial).trans ?_
  rw [k0, k1, k2]

theorem cSub (d a b : Nat) : Statement (.cSub d a b) := by
  intro hf
  replace hf : (decide (d < 8) && decide (a < 16) && decide (b < 16)) = true := hf
  simp only [Bool.and_eq_true, decide_eq_true_eq] at hf
  have hp : apart 0x1000 [(8, 3), (4, 4), (0, 4)] = true ∧ fit [(8, 3), (4, 4), (0, 4)] [d, a, b] = true := ⟨rfl, by simp [fit, hf]⟩
  change WordStatement (.compact, place 0x1000 [(8, 3), (4, 4), (0, 4)] [d, a, b]) (.cSub d a b)
  have kb := place_lt hp 16 rfl
  have k0 := bits_in hp 0 10 8 d rfl rfl
  have k1 := bits_in hp 1 7 4 a rfl rfl
  have k2 := bits_in hp 2 3 0 b rfl rfl
  have k3 := bits_out hp 15 11 2 rfl
  have k4 := bits_out hp 15 14 0 rfl
  obtain ⟨wd, hw⟩ : ∃ wd, place 0x1000 [(8, 3), (4, 4), (0, 4)] [d, a, b] = wd := ⟨_, rfl⟩
  rw [hw] at kb k0 k1 k2 k3 k4 ⊢
  clear hp hw
  refine ⟨kb, by rw [k4]; decide, ?_⟩
  unfold decodeCompact; rw [k3]
  refine (if_pos trivial).trans ?_
  rw [k0, k1, k2]

theorem cMul (d a b : Nat) : Statement (.cMul d a b) := by
  intro hf
  replace hf : (decide (d < 8) && decide (a < 16) && decide (b < 16)) = true := hf
  simp only [Bool.and_eq_true, decide_eq_true_eq] at hf
  have hp : apart 0x1800 [(8, 3), (4, 4), (0, 4)] = true ∧ fit [(8, 3), (4, 4), (0, 4)] [d, a, b] = true := ⟨rfl, by simp [fit, hf]⟩
  change WordStatement (.compact, place 0x1800 [(8, 3), (4, 4), (0, 4)] [d, a, b]) (.cMul d a b)
  have kb := place_lt hp 16 rfl
  have k0 := bits_in hp 0 10 8 d rfl rfl
  have k1 := bits_in hp 1 7 4 a rfl rfl
  have k2 := bits_in hp 2 3 0 b rfl rfl
  have k3 := bits_out hp 15 11 3 rfl
  have k4 := bits_out hp 15 14 0 rfl
  obtain ⟨wd, hw⟩ : ∃ wd, place 0x1800 [(8, 3), (4, 4), (0, 4)] [d, a, b] = wd := ⟨_, rfl⟩
  rw [hw] at kb k0 k1 k2 k3 k4 ⊢
  clear hp hw
  refine ⟨kb, by rw [k4]; decide, ?_⟩
  unfold decodeCompact; rw [k3]
  refine (if_pos trivial).trans ?_
  rw [k0, k1, k2]

theorem cFma (d a b : Nat) : Statement (.cFma d a b) := by
  intro hf
  replace hf : (decide (d < 8) && decide (a < 16) && decide (b < 16)) = true := hf
  simp only [Bool.and_eq_true, decide_eq_true_eq] at hf
  have hp : apart 0x2000 [(8, 3), (4, 4), (0, 4)] = true ∧ fit [(8, 3), (4, 4), (0, 4)] [d, a, b] = true := ⟨rfl, by simp [fit, hf]⟩
  change WordStatement (.compact, place 0x2000 [(8, 3), (4, 4), (0, 4)] [d, a, b]) (.cFma d a b)
  have kb := place_lt hp 16 rfl
  have k0 := bits_in hp 0 10 8 d rfl rfl
  have k1 := bits_in hp 1 7 4 a rfl rfl
  have k2 := bits_in hp 2 3 0 b rfl rfl
  have k3 := bits_out hp 15 11 4 rfl
  have k4 := bits_out hp 15 14 0 rfl
  obtain ⟨wd, hw⟩ : ∃ wd, place 0x2000 [(8, 3), (4, 4), (0, 4)] [d, a, b] = wd := ⟨_, rfl⟩
  rw [hw] at kb k0 k1 k2 k3 k4 ⊢
  clear hp hw
  refine ⟨kb, by rw [k4]; decide, ?_⟩
  unfold decodeCompact; rw [k3]
  refine (if_pos trivial).trans ?_
  rw [k0, k1, k2]

theorem cMin (d a b : Nat) : Statement (.cMin d a b) := by
  intro hf
  replace hf : (decide (d < 8) && decide (a < 16) && decide (b < 16)) = true := hf
  simp only [Bool.and_eq_true, decide_eq_true_eq] at hf
  have hp : apart 0x2800 [(8, 3), (4, 4), (0, 4)] = true ∧ fit [(8, 3), (4, 4), (0, 4)] [d, a, b] = true := ⟨rfl, by simp [fit, hf]⟩
  change WordStatement (.compact, place 0x2800 [(8, 3), (4, 4), (0, 4)] [d, a, b]) (.cMin d a b)
  have kb := place_lt hp 16 rfl
  have k0 := bits_in hp 0 10 8 d rfl rfl
  have k1 := bits_in hp 1 7 4 a rfl rfl
  have k2 := bits_in hp 2 3 0 b rfl rfl
  have k3 := bits_out hp 15 11 5 rfl
  have k4 := bits_out hp 15 14 0 rfl
  obtain ⟨wd, hw⟩ : ∃ wd, place 0x2800 [(8, 3), (4, 4), (0, 4)] [d, a, b] = wd := ⟨_, rfl⟩
  rw [hw] at kb k0 k1 k2 k3 k4 ⊢
  clear hp hw
  refine ⟨kb, by rw [k4]; decide, ?_⟩
  unfold decodeCompact; rw [k3]
  refine (if_pos trivial).trans ?_
  rw [k0, k1, k2]

theorem cMax (d a b : Nat) : Statement (.cMax d a b) := by
  intro hf
  replace hf : (decide (d < 8) && decide (a < 16) && decide (b < 16)) = true := hf
  simp only [Bool.and_eq_true, decide_eq_true_eq] at hf
  have hp : apart 0x3000 [(8, 3), (4, 4), (0, 4)] = true ∧ fit [(8, 3), (4, 4), (0, 4)] [d, a, b] = true := ⟨rfl, by simp [fit, hf]⟩
  change WordStatement (.compact, place 0x3000 [(8, 3), (4, 4), (0, 4)] [d, a, b]) (.cMax d a b)
  have kb := place_lt hp 16 rfl
  have k0 := bits_in hp 0 10 8 d rfl rfl
  have k1 := bits_in hp 1 7 4 a rfl rfl
  have k2 := bits_in hp 2 3 0 b rfl rfl
  have k3 := bits_out hp 15 11 6 rfl
  have k4 := bits_out hp 15 14 0 rfl
  obtain ⟨wd, hw⟩ : ∃ wd, place 0x3000 [(8, 3), (4, 4), (0, 4)] [d, a, b] = wd := ⟨_, rfl⟩
  rw [hw] at kb k0 k1 k2 k3 k4 ⊢
  clear hp hw
  refine ⟨kb, by rw [k4]; decide, ?_⟩
  unfold decodeCompact; rw [k3]
  refine (if_pos trivial).trans ?_
  rw [k0, k1, k2]

theorem cAnd (d a b : Nat) : Statement (.cAnd d a b) := by
  intro hf
  replace hf : (decide (d < 8) && decide (a < 16) && decide (b < 16)) = true := hf
  simp only [Bool.and_eq_true, decide_eq_true_eq] at hf
  have hp : apart 0x3800 [(8, 3), (4, 4), (0, 4)] = true ∧ fit [(8, 3), (4, 4), (0, 4)] [d, a, b] = true := ⟨rfl, by simp [fit, hf]⟩
  change WordStatement (.compact, place 0x3800 [(8, 3), (4, 4), (0, 4)] [d, a, b]) (.cAnd d a b)
  have kb := place_lt hp 16 rfl
  have k0 := bits_in hp 0 10 8 d rfl rfl
  have k1 := bits_in hp 1 7 4 a rfl rfl
  have k2 := bits_in hp 2 3 0 b rfl rfl
  have k3 := bits_out hp 15 11 7 rfl
  have k4 := bits_out hp 15 14 0 rfl
  obtain ⟨wd, hw⟩ : ∃ wd, place 0x3800 [(8, 3), (4, 4), (0, 4)] [d, a, b] = wd := ⟨_, rfl⟩
  rw [hw] at kb k0 k1 k2 k3 k4 ⊢
  clear hp hw
  refine ⟨kb, by rw [k4]; decide, ?_⟩
  unfold decodeCompact; rw [k3]
  refine (if_pos trivial).trans ?_
  rw [k0, k1, k2]

theorem cOr (d a b : Nat) : Statement (.cOr d a b) := by
  intro hf
  replace hf : (decide (d < 8) && decide (a < 16) && decide (b < 16)) = true := hf
  simp only [Bool.and_eq_true, decide_eq_true_eq] at hf
  have hp : apart 0x4000 [(8, 3), (4, 4), (0, 4)] = true ∧ fit [(8, 3), (4, 4), (0, 4)] [d, a, b] = true := ⟨rfl, by simp [fit, hf]⟩
  change WordStatement (.compact, place 0x4000 [(8, 3), (4, 4), (0, 4)] [d, a, b]) (.cOr d a b)
  have kb := place_lt hp 16 rfl
  have k0 := bits_in hp 0 10 8 d rfl rfl
  have k1 := bits_in hp 1 7 4 a rfl rfl
  have k2 := bits_in hp 2 3 0 b rfl rfl
  have k3 := bits_out hp 15 11 8 rfl
  have k4 := bits_out hp 15 14 1 rfl
  obtain ⟨wd, hw⟩ : ∃ wd, place 0x4000 [(8, 3), (4, 4), (0, 4)] [d, a, b] = wd := ⟨_, rfl⟩
  rw [hw] at kb k0 k1 k2 k3 k4 ⊢
  clear hp hw
  refine ⟨kb, by rw [k4]; decide, ?_⟩
  unfold decodeCompact; rw [k3]
  refine (if_pos trivial).trans ?_
  rw [k0, k1, k2]

theorem cXor (d a b : Nat) : Statement (.cXor d a b) := by
  intro hf
  replace hf : (decide (d < 8) && decide (a < 16) && decide (b < 16)) = true := hf
  simp only [Bool.and_eq_true, decide_eq_true_eq] at hf
  have hp : apart 0x4800 [(8, 3), (4, 4), (0, 4)] = true ∧ fit [(8, 3), (4, 4), (0, 4)] [d, a, b] = true := ⟨rfl, by simp [fit, hf]⟩
  change WordStatement (.compact, place 0x4800 [(8, 3), (4, 4), (0, 4)] [d, a, b]) (.cXor d a b)
  have kb := place_lt hp 16 rfl
  have k0 := bits_in hp 0 10 8 d rfl rfl
  have k1 := bits_in hp 1 7 4 a rfl rfl
  have k2 := bits_in hp 2 3 0 b rfl rfl
  have k3 := bits_out hp 15 11 9 rfl
  have k4 := bits_out hp 15 14 1 rfl
  obtain ⟨wd, hw⟩ : ∃ wd, place 0x4800 [(8, 3), (4, 4), (0, 4)] [d, a, b] = wd := ⟨_, rfl⟩
  rw [hw] at kb k0 k1 k2 k3 k4 ⊢
  clear hp hw
  refine ⟨kb, by rw [k4]; decide, ?_⟩
  unfold decodeCompact; rw [k3]
  refine (if_pos trivial).trans ?_
  rw [k0, k1, k2]

theorem cMov (d a : Nat) : Statement (.cMov d a) := by
  intro hf
  replace hf : (decide (d < 8) && decide (a < 16)) = true := hf
  simp only [Bool.and_eq_true, decide_eq_true_eq] at hf
  have hp : apart 0x5000 [(8, 3), (4, 4)] = true ∧ fit [(8, 3), (4, 4)] [d, a] = true := ⟨rfl, by simp [fit, hf]⟩
  change WordStatement (.compact, place 0x5000 [(8, 3), (4, 4)] [d, a]) (.cMov d a)
  have kb := place_lt hp 16 rfl
  have k0 := bits_in hp 0 10 8 d rfl rfl
  have k1 := bits_in hp 1 7 4 a rfl rfl
  have k2 := bits_out hp 15 11 10 rfl
  have k3 := bits_out hp 15 14 1 rfl
  have k4 := bits_out hp 3 0 0 rfl
  obtain ⟨wd, hw⟩ : ∃ wd, place 0x5000 [(8, 3), (4, 4)] [d, a] = wd := ⟨_, rfl⟩
  rw [hw] at kb k0 k1 k2 k3 k4 ⊢
  clear hp hw
  refine ⟨kb, by rw [k3]; decide, ?_⟩
  unfold decodeCompact; rw [k2]
  refine (if_pos k4).trans ?_
  rw [k0, k1]

theorem cNeg (d a : Nat) : Statement (.cNeg d a) := by
  intro hf
  replace hf : (decide (d < 8) && decide (a < 16)) = true := hf
  simp only [Bool.and_eq_true, decide_eq_true_eq] at hf
  have hp : apart 0x5800 [(8, 3), (4, 4)] = true ∧ fit [(8, 3), (4, 4)] [d, a] = true := ⟨rfl, by simp [fit, hf]⟩
  change WordStatement (.compact, place 0x5800 [(8, 3), (4, 4)] [d, a]) (.cNeg d a)
  have kb := place_lt hp 16 rfl
  have k0 := bits_in hp 0 10 8 d rfl rfl
  have k1 := bits_in hp 1 7 4 a rfl rfl
  have k2 := bits_out hp 15 11 11 rfl
  have k3 := bits_out hp 15 14 1 rfl
  have k4 := bits_out hp 3 0 0 rfl
  obtain ⟨wd, hw⟩ : ∃ wd, place 0x5800 [(8, 3), (4, 4)] [d, a] = wd := ⟨_, rfl⟩
  rw [hw] at kb k0 k1 k2 k3 k4 ⊢
  clear hp hw
  refine ⟨kb, by rw [k3]; decide, ?_⟩
  unfold decodeCompact; rw [k2]
  refine (if_pos k4).trans ?_
  rw [k0, k1]

theorem cAbs (d a : Nat) : Statement (.cAbs d a) := by
  intro hf
  replace hf : (decide (d < 8) && decide (a < 16)) = true := hf
  simp only [Bool.and_eq_true, decide_eq_true_eq] at hf
  have hp : apart 0x6000 [(8, 3), (4, 4)] = true ∧ fit [(8, 3), (4, 4)] [d, a] = true := ⟨rfl, by simp [fit, hf]⟩
  change WordStatement (.compact, place 0x6000 [(8, 3), (4, 4)] [d, a]) (.cAbs d a)
  have kb := place_lt hp 16 rfl
  have k0 := bits_in hp 0 10 8 d rfl rfl
  have k1 := bits_in hp 1 7 4 a rfl rfl
  have k2 := bits_out hp 15 11 12 rfl
  have k3 := bits_out hp 15 14 1 rfl
  have k4 := bits_out hp 3 0 0 rfl
  obtain ⟨wd, hw⟩ : ∃ wd, place 0x6000 [(8, 3), (4, 4)] [d, a] = wd := ⟨_, rfl⟩
  rw [hw] at kb k0 k1 k2 k3 k4 ⊢
  clear hp hw
  refine ⟨kb, by rw [k3]; decide, ?_⟩
  unfold decodeCompact; rw [k2]
  refine (if_pos k4).trans ?_
  rw [k0, k1]

theorem cExp2 (d a : Nat) : Statement (.cExp2 d a) := by
  intro hf
  replace hf : (decide (d < 8) && decide (a < 16)) = true := hf
  simp only [Bool.and_eq_true, decide_eq_true_eq] at hf
  have hp : apart 0x6800 [(8, 3), (4, 4)] = true ∧ fit [(8, 3), (4, 4)] [d, a] = true := ⟨rfl, by simp [fit, hf]⟩
  change WordStatement (.compact, place 0x6800 [(8, 3), (4, 4)] [d, a]) (.cExp2 d a)
  have kb := place_lt hp 16 rfl
  have k0 := bits_in hp 0 10 8 d rfl rfl
  have k1 := bits_in hp 1 7 4 a rfl rfl
  have k2 := bits_out hp 15 11 13 rfl
  have k3 := bits_out hp 15 14 1 rfl
  have k4 := bits_out hp 3 0 0 rfl
  obtain ⟨wd, hw⟩ : ∃ wd, place 0x6800 [(8, 3), (4, 4)] [d, a] = wd := ⟨_, rfl⟩
  rw [hw] at kb k0 k1 k2 k3 k4 ⊢
  clear hp hw
  refine ⟨kb, by rw [k3]; decide, ?_⟩
  unfold decodeCompact; rw [k2]
  refine (if_pos k4).trans ?_
  rw [k0, k1]

theorem cRcp (d a : Nat) : Statement (.cRcp d a) := by
  intro hf
  replace hf : (decide (d < 8) && decide (a < 16)) = true := hf
  simp only [Bool.and_eq_true, decide_eq_true_eq] at hf
  have hp : apart 0x7000 [(8, 3), (4, 4)] = true ∧ fit [(8, 3), (4, 4)] [d, a] = true := ⟨rfl, by simp [fit, hf]⟩
  change WordStatement (.compact, place 0x7000 [(8, 3), (4, 4)] [d, a]) (.cRcp d a)
  have kb := place_lt hp 16 rfl
  have k0 := bits_in hp 0 10 8 d rfl rfl
  have k1 := bits_in hp 1 7 4 a rfl rfl
  have k2 := bits_out hp 15 11 14 rfl
  have k3 := bits_out hp 15 14 1 rfl
  have k4 := bits_out hp 3 0 0 rfl
  obtain ⟨wd, hw⟩ : ∃ wd, place 0x7000 [(8, 3), (4, 4)] [d, a] = wd := ⟨_, rfl⟩
  rw [hw] at kb k0 k1 k2 k3 k4 ⊢
  clear hp hw
  refine ⟨kb, by rw [k3]; decide, ?_⟩
  unfold decodeCompact; rw [k2]
  refine (if_pos k4).trans ?_
  rw [k0, k1]

theorem cRsq (d a : Nat) : Statement (.cRsq d a) := by
  intro hf
  replace hf : (decide (d < 8) && decide (a < 16)) = true := hf
  simp only [Bool.and_eq_true, decide_eq_true_eq] at hf
  have hp : apart 0x7800 [(8, 3), (4, 4)] = true ∧ fit [(8, 3), (4, 4)] [d, a] = true := ⟨rfl, by simp [fit, hf]⟩
  change WordStatement (.compact, place 0x7800 [(8, 3), (4, 4)] [d, a]) (.cRsq d a)
  have kb := place_lt hp 16 rfl
  have k0 := bits_in hp 0 10 8 d rfl rfl
  have k1 := bits_in hp 1 7 4 a rfl rfl
  have k2 := bits_out hp 15 11 15 rfl
  have k3 := bits_out hp 15 14 1 rfl
  have k4 := bits_out hp 3 0 0 rfl
  obtain ⟨wd, hw⟩ : ∃ wd, place 0x7800 [(8, 3), (4, 4)] [d, a] = wd := ⟨_, rfl⟩
  rw [hw] at kb k0 k1 k2 k3 k4 ⊢
  clear hp hw
  refine ⟨kb, by rw [k3]; decide, ?_⟩
  unfold decodeCompact; rw [k2]
  refine (if_pos k4).trans ?_
  rw [k0, k1]

theorem cRedl (d a : Nat) : Statement (.cRedl d a) := by
  intro hf
  replace hf : (decide (d < 8) && decide (a < 16)) = true := hf
  simp only [Bool.and_eq_true, decide_eq_true_eq] at hf
  have hp : apart 0x8000 [(8, 3), (4, 4)] = true ∧ fit [(8, 3), (4, 4)] [d, a] = true := ⟨rfl, by simp [fit, hf]⟩
  change WordStatement (.compact, place 0x8000 [(8, 3), (4, 4)] [d, a]) (.cRedl d a)
  have kb := place_lt hp 16 rfl
  have k0 := bits_in hp 0 10 8 d rfl rfl
  have k1 := bits_in hp 1 7 4 a rfl rfl
  have k2 := bits_out hp 15 11 16 rfl
  have k3 := bits_out hp 15 14 2 rfl
  have k4 := bits_out hp 3 0 0 rfl
  obtain ⟨wd, hw⟩ : ∃ wd, place 0x8000 [(8, 3), (4, 4)] [d, a] = wd := ⟨_, rfl⟩
  rw [hw] at kb k0 k1 k2 k3 k4 ⊢
  clear hp hw
  refine ⟨kb, by rw [k3]; decide, ?_⟩
  unfold decodeCompact; rw [k2]
  refine (if_pos k4).trans ?_
  rw [k0, k1]

theorem cSel (d a b : Nat) : Statement (.cSel d a b) := by
  intro hf
  replace hf : (decide (d < 8) && decide (a < 16) && decide (b < 16)) = true := hf
  simp only [Bool.and_eq_true, decide_eq_true_eq] at hf
  have hp : apart 0x8800 [(8, 3), (4, 4), (0, 4)] = true ∧ fit [(8, 3), (4, 4), (0, 4)] [d, a, b] = true := ⟨rfl, by simp [fit, hf]⟩
  change WordStatement (.compact, place 0x8800 [(8, 3), (4, 4), (0, 4)] [d, a, b]) (.cSel d a b)
  have kb := place_lt hp 16 rfl
  have k0 := bits_in hp 0 10 8 d rfl rfl
  have k1 := bits_in hp 1 7 4 a rfl rfl
  have k2 := bits_in hp 2 3 0 b rfl rfl
  have k3 := bits_out hp 15 11 17 rfl
  have k4 := bits_out hp 15 14 2 rfl
  obtain ⟨wd, hw⟩ : ∃ wd, place 0x8800 [(8, 3), (4, 4), (0, 4)] [d, a, b] = wd := ⟨_, rfl⟩
  rw [hw] at kb k0 k1 k2 k3 k4 ⊢
  clear hp hw
  refine ⟨kb, by rw [k4]; decide, ?_⟩
  unfold decodeCompact; rw [k3]
  refine (if_pos trivial).trans ?_
  rw [k0, k1, k2]

theorem cBcast (d a n : Nat) : Statement (.cBcast d a n) := by
  intro hf
  replace hf : (decide (d < 8) && decide (a < 16) && decide (n < 16)) = true := hf
  simp only [Bool.and_eq_true, decide_eq_true_eq] at hf
  have hp : apart 0x9000 [(8, 3), (4, 4), (0, 4)] = true ∧ fit [(8, 3), (4, 4), (0, 4)] [d, a, n] = true := ⟨rfl, by simp [fit, hf]⟩
  change WordStatement (.compact, place 0x9000 [(8, 3), (4, 4), (0, 4)] [d, a, n]) (.cBcast d a n)
  have kb := place_lt hp 16 rfl
  have k0 := bits_in hp 0 10 8 d rfl rfl
  have k1 := bits_in hp 1 7 4 a rfl rfl
  have k2 := bits_in hp 2 3 0 n rfl rfl
  have k3 := bits_out hp 15 11 18 rfl
  have k4 := bits_out hp 15 14 2 rfl
  obtain ⟨wd, hw⟩ : ∃ wd, place 0x9000 [(8, 3), (4, 4), (0, 4)] [d, a, n] = wd := ⟨_, rfl⟩
  rw [hw] at kb k0 k1 k2 k3 k4 ⊢
  clear hp hw
  refine ⟨kb, by rw [k4]; decide, ?_⟩
  unfold decodeCompact; rw [k3]
  refine (if_pos trivial).trans ?_
  rw [k0, k1, k2]

theorem cShl (d a b : Nat) : Statement (.cShl d a b) := by
  intro hf
  replace hf : (decide (d < 8) && decide (a < 16) && decide (b < 16)) = true := hf
  simp only [Bool.and_eq_true, decide_eq_true_eq] at hf
  have hp : apart 0x9800 [(8, 3), (4, 4), (0, 4)] = true ∧ fit [(8, 3), (4, 4), (0, 4)] [d, a, b] = true := ⟨rfl, by simp [fit, hf]⟩
  change WordStatement (.compact, place 0x9800 [(8, 3), (4, 4), (0, 4)] [d, a, b]) (.cShl d a b)
  have kb := place_lt hp 16 rfl
  have k0 := bits_in hp 0 10 8 d rfl rfl
  have k1 := bits_in hp 1 7 4 a rfl rfl
  have k2 := bits_in hp 2 3 0 b rfl rfl
  have k3 := bits_out hp 15 11 19 rfl
  have k4 := bits_out hp 15 14 2 rfl
  obtain ⟨wd, hw⟩ : ∃ wd, place 0x9800 [(8, 3), (4, 4), (0, 4)] [d, a, b] = wd := ⟨_, rfl⟩
  rw [hw] at kb k0 k1 k2 k3 k4 ⊢
  clear hp hw
  refine ⟨kb, by rw [k4]; decide, ?_⟩
  unfold decodeCompact; rw [k3]
  refine (if_pos trivial).trans ?_
  rw [k0, k1, k2]

theorem cShr (d a b : Nat) : Statement (.cShr d a b) := by
  intro hf
  replace hf : (decide (d < 8) && decide (a < 16) && decide (b < 16)) = true := hf
  simp only [Bool.and_eq_true, decide_eq_true_eq] at hf
  have hp : apart 0xA000 [(8, 3), (4, 4), (0, 4)] = true ∧ fit [(8, 3), (4, 4), (0, 4)] [d, a, b] = true := ⟨rfl, by simp [fit, hf]⟩
  change WordStatement (.compact, place 0xA000 [(8, 3), (4, 4), (0, 4)] [d, a, b]) (.cShr d a b)
  have kb := place_lt hp 16 rfl
  have k0 := bits_in hp 0 10 8 d rfl rfl
  have k1 := bits_in hp 1 7 4 a rfl rfl
  have k2 := bits_in hp 2 3 0 b rfl rfl
  have k3 := bits_out hp 15 11 20 rfl
  have k4 := bits_out hp 15 14 2 rfl
  obtain ⟨wd, hw⟩ : ∃ wd, place 0xA000 [(8, 3), (4, 4), (0, 4)] [d, a, b] = wd := ⟨_, rfl⟩
  rw [hw] at kb k0 k1 k2 k3 k4 ⊢
  clear hp hw
  refine ⟨kb, by rw [k4]; decide, ?_⟩
  unfold decodeCompact; rw [k3]
  refine (if_pos trivial).trans ?_
  rw [k0, k1, k2]

theorem cEmit (e s c : Nat) : Statement (.cEmit e s c) := by
  intro hf
  replace hf : (decide (e < 8) && decide (s < 16) && decide (c < 16)) = true := hf
  simp only [Bool.and_eq_true, decide_eq_true_eq] at hf
  have hp : apart 0xA800 [(8, 3), (4, 4), (0, 4)] = true ∧ fit [(8, 3), (4, 4), (0, 4)] [e, s, c] = true := ⟨rfl, by simp [fit, hf]⟩
  change WordStatement (.compact, place 0xA800 [(8, 3), (4, 4), (0, 4)] [e, s, c]) (.cEmit e s c)
  have kb := place_lt hp 16 rfl
  have k0 := bits_in hp 0 10 8 e rfl rfl
  have k1 := bits_in hp 1 7 4 s rfl rfl
  have k2 := bits_in hp 2 3 0 c rfl rfl
  have k3 := bits_out hp 15 11 21 rfl
  have k4 := bits_out hp 15 14 2 rfl
  obtain ⟨wd, hw⟩ : ∃ wd, place 0xA800 [(8, 3), (4, 4), (0, 4)] [e, s, c] = wd := ⟨_, rfl⟩
  rw [hw] at kb k0 k1 k2 k3 k4 ⊢
  clear hp hw
  refine ⟨kb, by rw [k4]; decide, ?_⟩
  unfold decodeCompact; rw [k3]
  refine (if_pos trivial).trans ?_
  rw [k0, k1, k2]

theorem cSetv (d a b : Nat) : Statement (.cSetv d a b) := by
  intro hf
  replace hf : (decide (d < 8) && decide (a < 16) && decide (b < 16)) = true := hf
  simp only [Bool.and_eq_true, decide_eq_true_eq] at hf
  have hp : apart 0xB800 [(8, 3), (4, 4), (0, 4)] = true ∧ fit [(8, 3), (4, 4), (0, 4)] [d, a, b] = true := ⟨rfl, by simp [fit, hf]⟩
  change WordStatement (.compact, place 0xB800 [(8, 3), (4, 4), (0, 4)] [d, a, b]) (.cSetv d a b)
  have kb := place_lt hp 16 rfl
  have k0 := bits_in hp 0 10 8 d rfl rfl
  have k1 := bits_in hp 1 7 4 a rfl rfl
  have k2 := bits_in hp 2 3 0 b rfl rfl
  have k3 := bits_out hp 15 11 23 rfl
  have k4 := bits_out hp 15 14 2 rfl
  obtain ⟨wd, hw⟩ : ∃ wd, place 0xB800 [(8, 3), (4, 4), (0, 4)] [d, a, b] = wd := ⟨_, rfl⟩
  rw [hw] at kb k0 k1 k2 k3 k4 ⊢
  clear hp hw
  refine ⟨kb, by rw [k4]; decide, ?_⟩
  unfold decodeCompact; rw [k3]
  refine (if_pos trivial).trans ?_
  rw [k0, k1, k2]

theorem mma (mt nt kt acc afmt bfmt trig : Nat) : Statement (.mma mt nt kt acc afmt bfmt trig) := by
  intro hf
  replace hf : (decide (mt < 8) && decide (nt < 8) && decide (kt < 256) && decide (acc < 64) && decide (afmt < 16) && decide (bfmt < 16) && decide (trig < 16)) = true := hf
  simp only [Bool.and_eq_true, decide_eq_true_eq] at hf
  have hp : apart 0x10000 [(55, 3), (52, 3), (44, 8), (38, 6), (34, 4), (30, 4), (23, 4)] = true ∧ fit [(55, 3), (52, 3), (44, 8), (38, 6), (34, 4), (30, 4), (23, 4)] [mt, nt, kt, acc, afmt, bfmt, trig] = true := ⟨rfl, by simp [fit, hf]⟩
  change WordStatement (.matrix, place 0x10000 [(55, 3), (52, 3), (44, 8), (38, 6), (34, 4), (30, 4), (23, 4)] [mt, nt, kt, acc, afmt, bfmt, trig]) (.mma mt nt kt acc afmt bfmt trig)
  have kb := place_lt hp 64 rfl
  have k0 := bits_in hp 0 57 55 mt rfl rfl
  have k1 := bits_in hp 1 54 52 nt rfl rfl
  have k2 := bits_in hp 2 51 44 kt rfl rfl
  have k3 := bits_in hp 3 43 38 acc rfl rfl
  have k4 := bits_in hp 4 37 34 afmt rfl rfl
  have k5 := bits_in hp 5 33 30 bfmt rfl rfl
  have k6 := bits_in hp 6 26 23 trig rfl rfl
  have k7 := bits_out hp 63 58 0 rfl
  have k8 := bits_out hp 15 0 0 rfl
  have k9 := bits_out hp 16 16 1 rfl
  have k10 := bits_out hp 29 27 0 rfl
  have k11 := bits_out hp 22 22 0 rfl
  have k12 := bits_out hp 21 21 0 rfl
  have k13 := bits_out hp 20 17 0 rfl
  obtain ⟨wd, hw⟩ : ∃ wd, place 0x10000 [(55, 3), (52, 3), (44, 8), (38, 6), (34, 4), (30, 4), (23, 4)] [mt, nt, kt, acc, afmt, bfmt, trig] = wd := ⟨_, rfl⟩
  rw [hw] at kb k0 k1 k2 k3 k4 k5 k6 k7 k8 k9 k10 k11 k12 k13 ⊢
  clear hp hw
  refine ⟨kb, ?_⟩
  unfold decodeMatrix; rw [if_neg (by rw [k8, k9]; decide), k7]
  refine (if_pos ⟨k10, k11, k12, k13⟩).trans ?_
  rw [k0, k1, k2, k3, k4, k5, k6]

theorem mmaz (mt nt kt acc afmt bfmt trig : Nat) : Statement (.mmaz mt nt kt acc afmt bfmt trig) := by
  intro hf
  replace hf : (decide (mt < 8) && decide (nt < 8) && decide (kt < 256) && decide (acc < 64) && decide (afmt < 16) && decide (bfmt < 16) && decide (trig < 16)) = true := hf
  simp only [Bool.and_eq_true, decide_eq_true_eq] at hf
  have hp : apart 0x400000000010000 [(55, 3), (52, 3), (44, 8), (38, 6), (34, 4), (30, 4), (23, 4)] = true ∧ fit [(55, 3), (52, 3), (44, 8), (38, 6), (34, 4), (30, 4), (23, 4)] [mt, nt, kt, acc, afmt, bfmt, trig] = true := ⟨rfl, by simp [fit, hf]⟩
  change WordStatement (.matrix, place 0x400000000010000 [(55, 3), (52, 3), (44, 8), (38, 6), (34, 4), (30, 4), (23, 4)] [mt, nt, kt, acc, afmt, bfmt, trig]) (.mmaz mt nt kt acc afmt bfmt trig)
  have kb := place_lt hp 64 rfl
  have k0 := bits_in hp 0 57 55 mt rfl rfl
  have k1 := bits_in hp 1 54 52 nt rfl rfl
  have k2 := bits_in hp 2 51 44 kt rfl rfl
  have k3 := bits_in hp 3 43 38 acc rfl rfl
  have k4 := bits_in hp 4 37 34 afmt rfl rfl
  have k5 := bits_in hp 5 33 30 bfmt rfl rfl
  have k6 := bits_in hp 6 26 23 trig rfl rfl
  have k7 := bits_out hp 63 58 1 rfl
  have k8 := bits_out hp 15 0 0 rfl
  have k9 := bits_out hp 16 16 1 rfl
  have k10 := bits_out hp 29 27 0 rfl
  have k11 := bits_out hp 22 22 0 rfl
  have k12 := bits_out hp 21 21 0 rfl
  have k13 := bits_out hp 20 17 0 rfl
  obtain ⟨wd, hw⟩ : ∃ wd, place 0x400000000010000 [(55, 3), (52, 3), (44, 8), (38, 6), (34, 4), (30, 4), (23, 4)] [mt, nt, kt, acc, afmt, bfmt, trig] = wd := ⟨_, rfl⟩
  rw [hw] at kb k0 k1 k2 k3 k4 k5 k6 k7 k8 k9 k10 k11 k12 k13 ⊢
  clear hp hw
  refine ⟨kb, ?_⟩
  unfold decodeMatrix; rw [if_neg (by rw [k8, k9]; decide), k7]
  refine (if_pos ⟨k10, k11, k12, k13⟩).trans ?_
  rw [k0, k1, k2, k3, k4, k5, k6]

theorem mmat (mt nt kt acc afmt bfmt trig : Nat) : Statement (.mmat mt nt kt acc afmt bfmt trig) := by
  intro hf
  replace hf : (decide (mt < 8) && decide (nt < 8) && decide (kt < 256) && decide (acc < 64) && decide (afmt < 16) && decide (bfmt < 16) && decide (trig < 16)) = true := hf
  simp only [Bool.and_eq_true, decide_eq_true_eq] at hf
  have hp : apart 0x800000000010000 [(55, 3), (52, 3), (44, 8), (38, 6), (34, 4), (30, 4), (23, 4)] = true ∧ fit [(55, 3), (52, 3), (44, 8), (38, 6), (34, 4), (30, 4), (23, 4)] [mt, nt, kt, acc, afmt, bfmt, trig] = true := ⟨rfl, by simp [fit, hf]⟩
  change WordStatement (.matrix, place 0x800000000010000 [(55, 3), (52, 3), (44, 8), (38, 6), (34, 4), (30, 4), (23, 4)] [mt, nt, kt, acc, afmt, bfmt, trig]) (.mmat mt nt kt acc afmt bfmt trig)
  have kb := place_lt hp 64 rfl
  have k0 := bits_in hp 0 57 55 mt rfl rfl
  have k1 := bits_in hp 1 54 52 nt rfl rfl
  have k2 := bits_in hp 2 51 44 kt rfl rfl
  have k3 := bits_in hp 3 43 38 acc rfl rfl
  have k4 := bits_in hp 4 37 34 afmt rfl rfl
  have k5 := bits_in hp 5 33 30 bfmt rfl rfl
  have k6 := bits_in hp 6 26 23 trig rfl rfl
  have k7 := bits_out hp 63 58 2 rfl
  have k8 := bits_out hp 15 0 0 rfl
  have k9 := bits_out hp 16 16 1 rfl
  have k10 := bits_out hp 29 27 0 rfl
  have k11 := bits_out hp 22 22 0 rfl
  have k12 := bits_out hp 21 21 0 rfl
  have k13 := bits_out hp 20 17 0 rfl
  obtain ⟨wd, hw⟩ : ∃ wd, place 0x800000000010000 [(55, 3), (52, 3), (44, 8), (38, 6), (34, 4), (30, 4), (23, 4)] [mt, nt, kt, acc, afmt, bfmt, trig] = wd := ⟨_, rfl⟩
  rw [hw] at kb k0 k1 k2 k3 k4 k5 k6 k7 k8 k9 k10 k11 k12 k13 ⊢
  clear hp hw
  refine ⟨kb, ?_⟩
  unfold decodeMatrix; rw [if_neg (by rw [k8, k9]; decide), k7]
  refine (if_pos ⟨k10, k11, k12, k13⟩).trans ?_
  rw [k0, k1, k2, k3, k4, k5, k6]

theorem mmag (mt nt kt acc afmt bfmt trig : Nat) : Statement (.mmag mt nt kt acc afmt bfmt trig) := by
  intro hf
  replace hf : (decide (mt < 8) && decide (nt < 8) && decide (kt < 256) && decide (acc < 64) && decide (afmt < 16) && decide (bfmt < 16) && decide (trig < 16)) = true := hf
  simp only [Bool.and_eq_true, decide_eq_true_eq] at hf
  have hp : apart 0xC00000000010000 [(55, 3), (52, 3), (44, 8), (38, 6), (34, 4), (30, 4), (23, 4)] = true ∧ fit [(55, 3), (52, 3), (44, 8), (38, 6), (34, 4), (30, 4), (23, 4)] [mt, nt, kt, acc, afmt, bfmt, trig] = true := ⟨rfl, by simp [fit, hf]⟩
  change WordStatement (.matrix, place 0xC00000000010000 [(55, 3), (52, 3), (44, 8), (38, 6), (34, 4), (30, 4), (23, 4)] [mt, nt, kt, acc, afmt, bfmt, trig]) (.mmag mt nt kt acc afmt bfmt trig)
  have kb := place_lt hp 64 rfl
  have k0 := bits_in hp 0 57 55 mt rfl rfl
  have k1 := bits_in hp 1 54 52 nt rfl rfl
  have k2 := bits_in hp 2 51 44 kt rfl rfl
  have k3 := bits_in hp 3 43 38 acc rfl rfl
  have k4 := bits_in hp 4 37 34 afmt rfl rfl
  have k5 := bits_in hp 5 33 30 bfmt rfl rfl
  have k6 := bits_in hp 6 26 23 trig rfl rfl
  have k7 := bits_out hp 63 58 3 rfl
  have k8 := bits_out hp 15 0 0 rfl
  have k9 := bits_out hp 16 16 1 rfl
  have k10 := bits_out hp 29 27 0 rfl
  have k11 := bits_out hp 22 22 0 rfl
  have k12 := bits_out hp 21 21 0 rfl
  have k13 := bits_out hp 20 17 0 rfl
  obtain ⟨wd, hw⟩ : ∃ wd, place 0xC00000000010000 [(55, 3), (52, 3), (44, 8), (38, 6), (34, 4), (30, 4), (23, 4)] [mt, nt, kt, acc, afmt, bfmt, trig] = wd := ⟨_, rfl⟩
  rw [hw] at kb k0 k1 k2 k3 k4 k5 k6 k7 k8 k9 k10 k11 k12 k13 ⊢
  clear hp hw
  refine ⟨kb, ?_⟩
  unfold decodeMatrix; rw [if_neg (by rw [k8, k9]; decide), k7]
  refine (if_pos ⟨k10, k11, k12, k13⟩).trans ?_
  rw [k0, k1, k2, k3, k4, k5, k6]

theorem accz (mt nt acc trig : Nat) : Statement (.accz mt nt acc trig) := by
  intro hf
  replace hf : (decide (mt < 8) && decide (nt < 8) && decide (acc < 64) && decide (trig < 16)) = true := hf
  simp only [Bool.and_eq_true, decide_eq_true_eq] at hf
  have hp : apart 0x1000000000010000 [(55, 3), (52, 3), (38, 6), (23, 4)] = true ∧ fit [(55, 3), (52, 3), (38, 6), (23, 4)] [mt, nt, acc, trig] = true := ⟨rfl, by simp [fit, hf]⟩
  change WordStatement (.matrix, place 0x1000000000010000 [(55, 3), (52, 3), (38, 6), (23, 4)] [mt, nt, acc, trig]) (.accz mt nt acc trig)
  have kb := place_lt hp 64 rfl
  have k0 := bits_in hp 0 57 55 mt rfl rfl
  have k1 := bits_in hp 1 54 52 nt rfl rfl
  have k2 := bits_in hp 2 43 38 acc rfl rfl
  have k3 := bits_in hp 3 26 23 trig rfl rfl
  have k4 := bits_out hp 63 58 4 rfl
  have k5 := bits_out hp 15 0 0 rfl
  have k6 := bits_out hp 16 16 1 rfl
  have k7 := bits_out hp 51 44 0 rfl
  have k8 := bits_out hp 37 34 0 rfl
  have k9 := bits_out hp 33 30 0 rfl
  have k10 := bits_out hp 29 27 0 rfl
  have k11 := bits_out hp 22 22 0 rfl
  have k12 := bits_out hp 21 21 0 rfl
  have k13 := bits_out hp 20 17 0 rfl
  obtain ⟨wd, hw⟩ : ∃ wd, place 0x1000000000010000 [(55, 3), (52, 3), (38, 6), (23, 4)] [mt, nt, acc, trig] = wd := ⟨_, rfl⟩
  rw [hw] at kb k0 k1 k2 k3 k4 k5 k6 k7 k8 k9 k10 k11 k12 k13 ⊢
  clear hp hw
  refine ⟨kb, ?_⟩
  unfold decodeMatrix; rw [if_neg (by rw [k5, k6]; decide), k4]
  refine (if_pos ⟨k7, k8, k9, k10, k11, k12, k13⟩).trans ?_
  rw [k0, k1, k2, k3]

theorem accrd (mt nt acc rm trig sat q ofmt : Nat) : Statement (.accrd mt nt acc rm trig sat q ofmt) := by
  intro hf
  replace hf : (decide (mt < 8) && decide (nt < 8) && decide (acc < 64) && decide (rm < 8) && decide (trig < 16) && decide (sat < 2) && decide (q < 2) && decide (ofmt < 16)) = true := hf
  simp only [Bool.and_eq_true, decide_eq_true_eq] at hf
  have hp : apart 0x1400000000010000 [(55, 3), (52, 3), (38, 6), (27, 3), (23, 4), (22, 1), (21, 1), (17, 4)] = true ∧ fit [(55, 3), (52, 3), (38, 6), (27, 3), (23, 4), (22, 1), (21, 1), (17, 4)] [mt, nt, acc, rm, trig, sat, q, ofmt] = true := ⟨rfl, by simp [fit, hf]⟩
  change WordStatement (.matrix, place 0x1400000000010000 [(55, 3), (52, 3), (38, 6), (27, 3), (23, 4), (22, 1), (21, 1), (17, 4)] [mt, nt, acc, rm, trig, sat, q, ofmt]) (.accrd mt nt acc rm trig sat q ofmt)
  have kb := place_lt hp 64 rfl
  have k0 := bits_in hp 0 57 55 mt rfl rfl
  have k1 := bits_in hp 1 54 52 nt rfl rfl
  have k2 := bits_in hp 2 43 38 acc rfl rfl
  have k3 := bits_in hp 3 29 27 rm rfl rfl
  have k4 := bits_in hp 4 26 23 trig rfl rfl
  have k5 := bits_in hp 5 22 22 sat rfl rfl
  have k6 := bits_in hp 6 21 21 q rfl rfl
  have k7 := bits_in hp 7 20 17 ofmt rfl rfl
  have k8 := bits_out hp 63 58 5 rfl
  have k9 := bits_out hp 15 0 0 rfl
  have k10 := bits_out hp 16 16 1 rfl
  have k11 := bits_out hp 51 44 0 rfl
  have k12 := bits_out hp 37 34 0 rfl
  have k13 := bits_out hp 33 30 0 rfl
  obtain ⟨wd, hw⟩ : ∃ wd, place 0x1400000000010000 [(55, 3), (52, 3), (38, 6), (27, 3), (23, 4), (22, 1), (21, 1), (17, 4)] [mt, nt, acc, rm, trig, sat, q, ofmt] = wd := ⟨_, rfl⟩
  rw [hw] at kb k0 k1 k2 k3 k4 k5 k6 k7 k8 k9 k10 k11 k12 k13 ⊢
  clear hp hw
  refine ⟨kb, ?_⟩
  unfold decodeMatrix; rw [if_neg (by rw [k9, k10]; decide), k8]
  refine (if_pos ⟨k11, k12, k13⟩).trans ?_
  rw [k0, k1, k2, k3, k4, k5, k6, k7]

theorem accwr (mt nt acc afmt trig : Nat) : Statement (.accwr mt nt acc afmt trig) := by
  intro hf
  replace hf : (decide (mt < 8) && decide (nt < 8) && decide (acc < 64) && decide (afmt < 16) && decide (trig < 16)) = true := hf
  simp only [Bool.and_eq_true, decide_eq_true_eq] at hf
  have hp : apart 0x1800000000010000 [(55, 3), (52, 3), (38, 6), (34, 4), (23, 4)] = true ∧ fit [(55, 3), (52, 3), (38, 6), (34, 4), (23, 4)] [mt, nt, acc, afmt, trig] = true := ⟨rfl, by simp [fit, hf]⟩
  change WordStatement (.matrix, place 0x1800000000010000 [(55, 3), (52, 3), (38, 6), (34, 4), (23, 4)] [mt, nt, acc, afmt, trig]) (.accwr mt nt acc afmt trig)
  have kb := place_lt hp 64 rfl
  have k0 := bits_in hp 0 57 55 mt rfl rfl
  have k1 := bits_in hp 1 54 52 nt rfl rfl
  have k2 := bits_in hp 2 43 38 acc rfl rfl
  have k3 := bits_in hp 3 37 34 afmt rfl rfl
  have k4 := bits_in hp 4 26 23 trig rfl rfl
  have k5 := bits_out hp 63 58 6 rfl
  have k6 := bits_out hp 15 0 0 rfl
  have k7 := bits_out hp 16 16 1 rfl
  have k8 := bits_out hp 51 44 0 rfl
  have k9 := bits_out hp 33 30 0 rfl
  have k10 := bits_out hp 29 27 0 rfl
  have k11 := bits_out hp 22 22 0 rfl
  have k12 := bits_out hp 21 21 0 rfl
  have k13 := bits_out hp 20 17 0 rfl
  obtain ⟨wd, hw⟩ : ∃ wd, place 0x1800000000010000 [(55, 3), (52, 3), (38, 6), (34, 4), (23, 4)] [mt, nt, acc, afmt, trig] = wd := ⟨_, rfl⟩
  rw [hw] at kb k0 k1 k2 k3 k4 k5 k6 k7 k8 k9 k10 k11 k12 k13 ⊢
  clear hp hw
  refine ⟨kb, ?_⟩
  unfold decodeMatrix; rw [if_neg (by rw [k6, k7]; decide), k5]
  refine (if_pos ⟨k8, k9, k10, k11, k12, k13⟩).trans ?_
  rw [k0, k1, k2, k3, k4]

theorem accax (mt nt acc afmt bfmt rm trig : Nat) : Statement (.accax mt nt acc afmt bfmt rm trig) := by
  intro hf
  replace hf : (decide (mt < 8) && decide (nt < 8) && decide (acc < 64) && decide (afmt < 16) && decide (bfmt < 16) && decide (rm < 8) && decide (trig < 16)) = true := hf
  simp only [Bool.and_eq_true, decide_eq_true_eq] at hf
  have hp : apart 0x1C00000000010000 [(55, 3), (52, 3), (38, 6), (34, 4), (30, 4), (27, 3), (23, 4)] = true ∧ fit [(55, 3), (52, 3), (38, 6), (34, 4), (30, 4), (27, 3), (23, 4)] [mt, nt, acc, afmt, bfmt, rm, trig] = true := ⟨rfl, by simp [fit, hf]⟩
  change WordStatement (.matrix, place 0x1C00000000010000 [(55, 3), (52, 3), (38, 6), (34, 4), (30, 4), (27, 3), (23, 4)] [mt, nt, acc, afmt, bfmt, rm, trig]) (.accax mt nt acc afmt bfmt rm trig)
  have kb := place_lt hp 64 rfl
  have k0 := bits_in hp 0 57 55 mt rfl rfl
  have k1 := bits_in hp 1 54 52 nt rfl rfl
  have k2 := bits_in hp 2 43 38 acc rfl rfl
  have k3 := bits_in hp 3 37 34 afmt rfl rfl
  have k4 := bits_in hp 4 33 30 bfmt rfl rfl
  have k5 := bits_in hp 5 29 27 rm rfl rfl
  have k6 := bits_in hp 6 26 23 trig rfl rfl
  have k7 := bits_out hp 63 58 7 rfl
  have k8 := bits_out hp 15 0 0 rfl
  have k9 := bits_out hp 16 16 1 rfl
  have k10 := bits_out hp 51 44 0 rfl
  have k11 := bits_out hp 22 22 0 rfl
  have k12 := bits_out hp 21 21 0 rfl
  have k13 := bits_out hp 20 17 0 rfl
  obtain ⟨wd, hw⟩ : ∃ wd, place 0x1C00000000010000 [(55, 3), (52, 3), (38, 6), (34, 4), (30, 4), (27, 3), (23, 4)] [mt, nt, acc, afmt, bfmt, rm, trig] = wd := ⟨_, rfl⟩
  rw [hw] at kb k0 k1 k2 k3 k4 k5 k6 k7 k8 k9 k10 k11 k12 k13 ⊢
  clear hp hw
  refine ⟨kb, ?_⟩
  unfold decodeMatrix; rw [if_neg (by rw [k8, k9]; decide), k7]
  refine (if_pos ⟨k10, k11, k12, k13⟩).trans ?_
  rw [k0, k1, k2, k3, k4, k5, k6]

theorem rcAdd (d a b : Nat) : Statement (.rcAdd d a b) := by
  intro hf
  replace hf : (decide (d < 32) && decide (a < 32) && decide (b < 32)) = true := hf
  simp only [Bool.and_eq_true, decide_eq_true_eq] at hf
  have hp : apart 0x0 [(20, 5), (15, 5), (10, 5)] = true ∧ fit [(20, 5), (15, 5), (10, 5)] [d, a, b] = true := ⟨rfl, by simp [fit, hf]⟩
  change WordStatement (.rc, place 0x0 [(20, 5), (15, 5), (10, 5)] [d, a, b]) (.rcAdd d a b)
  have kb := place_lt hp 32 rfl
  have k0 := bits_in hp 0 24 20 d rfl rfl
  have k1 := bits_in hp 1 19 15 a rfl rfl
  have k2 := bits_in hp 2 14 10 b rfl rfl
  have k3 := bits_out hp 31 25 0 rfl
  have k4 := bits_out hp 9 0 0 rfl
  obtain ⟨wd, hw⟩ : ∃ wd, place 0x0 [(20, 5), (15, 5), (10, 5)] [d, a, b] = wd := ⟨_, rfl⟩
  rw [hw] at kb k0 k1 k2 k3 k4 ⊢
  clear hp hw
  refine ⟨kb, by unfold rcIsLong; rw [k3]; rfl, fun ext => ?_⟩
  unfold decodeRcWord; rw [k3]
  refine (if_pos k4).trans ?_
  rw [k0, k1, k2]

theorem rcSub (d a b : Nat) : Statement (.rcSub d a b) := by
  intro hf
  replace hf : (decide (d < 32) && decide (a < 32) && decide (b < 32)) = true := hf
  simp only [Bool.and_eq_true, decide_eq_true_eq] at hf
  have hp : apart 0x2000000 [(20, 5), (15, 5), (10, 5)] = true ∧ fit [(20, 5), (15, 5), (10, 5)] [d, a, b] = true := ⟨rfl, by simp [fit, hf]⟩
  change WordStatement (.rc, place 0x2000000 [(20, 5), (15, 5), (10, 5)] [d, a, b]) (.rcSub d a b)
  have kb := place_lt hp 32 rfl
  have k0 := bits_in hp 0 24 20 d rfl rfl
  have k1 := bits_in hp 1 19 15 a rfl rfl
  have k2 := bits_in hp 2 14 10 b rfl rfl
  have k3 := bits_out hp 31 25 1 rfl
  have k4 := bits_out hp 9 0 0 rfl
  obtain ⟨wd, hw⟩ : ∃ wd, place 0x2000000 [(20, 5), (15, 5), (10, 5)] [d, a, b] = wd := ⟨_, rfl⟩
  rw [hw] at kb k0 k1 k2 k3 k4 ⊢
  clear hp hw
  refine ⟨kb, by unfold rcIsLong; rw [k3]; rfl, fun ext => ?_⟩
  unfold decodeRcWord; rw [k3]
  refine (if_pos k4).trans ?_
  rw [k0, k1, k2]

theorem rcMul (d a b : Nat) : Statement (.rcMul d a b) := by
  intro hf
  replace hf : (decide (d < 32) && decide (a < 32) && decide (b < 32)) = true := hf
  simp only [Bool.and_eq_true, decide_eq_true_eq] at hf
  have hp : apart 0x4000000 [(20, 5), (15, 5), (10, 5)] = true ∧ fit [(20, 5), (15, 5), (10, 5)] [d, a, b] = true := ⟨rfl, by simp [fit, hf]⟩
  change WordStatement (.rc, place 0x4000000 [(20, 5), (15, 5), (10, 5)] [d, a, b]) (.rcMul d a b)
  have kb := place_lt hp 32 rfl
  have k0 := bits_in hp 0 24 20 d rfl rfl
  have k1 := bits_in hp 1 19 15 a rfl rfl
  have k2 := bits_in hp 2 14 10 b rfl rfl
  have k3 := bits_out hp 31 25 2 rfl
  have k4 := bits_out hp 9 0 0 rfl
  obtain ⟨wd, hw⟩ : ∃ wd, place 0x4000000 [(20, 5), (15, 5), (10, 5)] [d, a, b] = wd := ⟨_, rfl⟩
  rw [hw] at kb k0 k1 k2 k3 k4 ⊢
  clear hp hw
  refine ⟨kb, by unfold rcIsLong; rw [k3]; rfl, fun ext => ?_⟩
  unfold decodeRcWord; rw [k3]
  refine (if_pos k4).trans ?_
  rw [k0, k1, k2]

theorem rcMulh (d a b : Nat) : Statement (.rcMulh d a b) := by
  intro hf
  replace hf : (decide (d < 32) && decide (a < 32) && decide (b < 32)) = true := hf
  simp only [Bool.and_eq_true, decide_eq_true_eq] at hf
  have hp : apart 0x6000000 [(20, 5), (15, 5), (10, 5)] = true ∧ fit [(20, 5), (15, 5), (10, 5)] [d, a, b] = true := ⟨rfl, by simp [fit, hf]⟩
  change WordStatement (.rc, place 0x6000000 [(20, 5), (15, 5), (10, 5)] [d, a, b]) (.rcMulh d a b)
  have kb := place_lt hp 32 rfl
  have k0 := bits_in hp 0 24 20 d rfl rfl
  have k1 := bits_in hp 1 19 15 a rfl rfl
  have k2 := bits_in hp 2 14 10 b rfl rfl
  have k3 := bits_out hp 31 25 3 rfl
  have k4 := bits_out hp 9 0 0 rfl
  obtain ⟨wd, hw⟩ : ∃ wd, place 0x6000000 [(20, 5), (15, 5), (10, 5)] [d, a, b] = wd := ⟨_, rfl⟩
  rw [hw] at kb k0 k1 k2 k3 k4 ⊢
  clear hp hw
  refine ⟨kb, by unfold rcIsLong; rw [k3]; rfl, fun ext => ?_⟩
  unfold decodeRcWord; rw [k3]
  refine (if_pos k4).trans ?_
  rw [k0, k1, k2]

theorem rcAnd (d a b : Nat) : Statement (.rcAnd d a b) := by
  intro hf
  replace hf : (decide (d < 32) && decide (a < 32) && decide (b < 32)) = true := hf
  simp only [Bool.and_eq_true, decide_eq_true_eq] at hf
  have hp : apart 0x8000000 [(20, 5), (15, 5), (10, 5)] = true ∧ fit [(20, 5), (15, 5), (10, 5)] [d, a, b] = true := ⟨rfl, by simp [fit, hf]⟩
  change WordStatement (.rc, place 0x8000000 [(20, 5), (15, 5), (10, 5)] [d, a, b]) (.rcAnd d a b)
  have kb := place_lt hp 32 rfl
  have k0 := bits_in hp 0 24 20 d rfl rfl
  have k1 := bits_in hp 1 19 15 a rfl rfl
  have k2 := bits_in hp 2 14 10 b rfl rfl
  have k3 := bits_out hp 31 25 4 rfl
  have k4 := bits_out hp 9 0 0 rfl
  obtain ⟨wd, hw⟩ : ∃ wd, place 0x8000000 [(20, 5), (15, 5), (10, 5)] [d, a, b] = wd := ⟨_, rfl⟩
  rw [hw] at kb k0 k1 k2 k3 k4 ⊢
  clear hp hw
  refine ⟨kb, by unfold rcIsLong; rw [k3]; rfl, fun ext => ?_⟩
  unfold decodeRcWord; rw [k3]
  refine (if_pos k4).trans ?_
  rw [k0, k1, k2]

theorem rcOr (d a b : Nat) : Statement (.rcOr d a b) := by
  intro hf
  replace hf : (decide (d < 32) && decide (a < 32) && decide (b < 32)) = true := hf
  simp only [Bool.and_eq_true, decide_eq_true_eq] at hf
  have hp : apart 0xA000000 [(20, 5), (15, 5), (10, 5)] = true ∧ fit [(20, 5), (15, 5), (10, 5)] [d, a, b] = true := ⟨rfl, by simp [fit, hf]⟩
  change WordStatement (.rc, place 0xA000000 [(20, 5), (15, 5), (10, 5)] [d, a, b]) (.rcOr d a b)
  have kb := place_lt hp 32 rfl
  have k0 := bits_in hp 0 24 20 d rfl rfl
  have k1 := bits_in hp 1 19 15 a rfl rfl
  have k2 := bits_in hp 2 14 10 b rfl rfl
  have k3 := bits_out hp 31 25 5 rfl
  have k4 := bits_out hp 9 0 0 rfl
  obtain ⟨wd, hw⟩ : ∃ wd, place 0xA000000 [(20, 5), (15, 5), (10, 5)] [d, a, b] = wd := ⟨_, rfl⟩
  rw [hw] at kb k0 k1 k2 k3 k4 ⊢
  clear hp hw
  refine ⟨kb, by unfold rcIsLong; rw [k3]; rfl, fun ext => ?_⟩
  unfold decodeRcWord; rw [k3]
  refine (if_pos k4).trans ?_
  rw [k0, k1, k2]

theorem rcXor (d a b : Nat) : Statement (.rcXor d a b) := by
  intro hf
  replace hf : (decide (d < 32) && decide (a < 32) && decide (b < 32)) = true := hf
  simp only [Bool.and_eq_true, decide_eq_true_eq] at hf
  have hp : apart 0xC000000 [(20, 5), (15, 5), (10, 5)] = true ∧ fit [(20, 5), (15, 5), (10, 5)] [d, a, b] = true := ⟨rfl, by simp [fit, hf]⟩
  change WordStatement (.rc, place 0xC000000 [(20, 5), (15, 5), (10, 5)] [d, a, b]) (.rcXor d a b)
  have kb := place_lt hp 32 rfl
  have k0 := bits_in hp 0 24 20 d rfl rfl
  have k1 := bits_in hp 1 19 15 a rfl rfl
  have k2 := bits_in hp 2 14 10 b rfl rfl
  have k3 := bits_out hp 31 25 6 rfl
  have k4 := bits_out hp 9 0 0 rfl
  obtain ⟨wd, hw⟩ : ∃ wd, place 0xC000000 [(20, 5), (15, 5), (10, 5)] [d, a, b] = wd := ⟨_, rfl⟩
  rw [hw] at kb k0 k1 k2 k3 k4 ⊢
  clear hp hw
  refine ⟨kb, by unfold rcIsLong; rw [k3]; rfl, fun ext => ?_⟩
  unfold decodeRcWord; rw [k3]
  refine (if_pos k4).trans ?_
  rw [k0, k1, k2]

theorem rcShl (d a b : Nat) : Statement (.rcShl d a b) := by
  intro hf
  replace hf : (decide (d < 32) && decide (a < 32) && decide (b < 32)) = true := hf
  simp only [Bool.and_eq_true, decide_eq_true_eq] at hf
  have hp : apart 0xE000000 [(20, 5), (15, 5), (10, 5)] = true ∧ fit [(20, 5), (15, 5), (10, 5)] [d, a, b] = true := ⟨rfl, by simp [fit, hf]⟩
  change WordStatement (.rc, place 0xE000000 [(20, 5), (15, 5), (10, 5)] [d, a, b]) (.rcShl d a b)
  have kb := place_lt hp 32 rfl
  have k0 := bits_in hp 0 24 20 d rfl rfl
  have k1 := bits_in hp 1 19 15 a rfl rfl
  have k2 := bits_in hp 2 14 10 b rfl rfl
  have k3 := bits_out hp 31 25 7 rfl
  have k4 := bits_out hp 9 0 0 rfl
  obtain ⟨wd, hw⟩ : ∃ wd, place 0xE000000 [(20, 5), (15, 5), (10, 5)] [d, a, b] = wd := ⟨_, rfl⟩
  rw [hw] at kb k0 k1 k2 k3 k4 ⊢
  clear hp hw
  refine ⟨kb, by unfold rcIsLong; rw [k3]; rfl, fun ext => ?_⟩
  unfold decodeRcWord; rw [k3]
  refine (if_pos k4).trans ?_
  rw [k0, k1, k2]

theorem rcShr (d a b : Nat) : Statement (.rcShr d a b) := by
  intro hf
  replace hf : (decide (d < 32) && decide (a < 32) && decide (b < 32)) = true := hf
  simp only [Bool.and_eq_true, decide_eq_true_eq] at hf
  have hp : apart 0x10000000 [(20, 5), (15, 5), (10, 5)] = true ∧ fit [(20, 5), (15, 5), (10, 5)] [d, a, b] = true := ⟨rfl, by simp [fit, hf]⟩
  change WordStatement (.rc, place 0x10000000 [(20, 5), (15, 5), (10, 5)] [d, a, b]) (.rcShr d a b)
  have kb := place_lt hp 32 rfl
  have k0 := bits_in hp 0 24 20 d rfl rfl
  have k1 := bits_in hp 1 19 15 a rfl rfl
  have k2 := bits_in hp 2 14 10 b rfl rfl
  have k3 := bits_out hp 31 25 8 rfl
  have k4 := bits_out hp 9 0 0 rfl
  obtain ⟨wd, hw⟩ : ∃ wd, place 0x10000000 [(20, 5), (15, 5), (10, 5)] [d, a, b] = wd := ⟨_, rfl⟩
  rw [hw] at kb k0 k1 k2 k3 k4 ⊢
  clear hp hw
  refine ⟨kb, by unfold rcIsLong; rw [k3]; rfl, fun ext => ?_⟩
  unfold decodeRcWord; rw [k3]
  refine (if_pos k4).trans ?_
  rw [k0, k1, k2]

theorem rcSha (d a b : Nat) : Statement (.rcSha d a b) := by
  intro hf
  replace hf : (decide (d < 32) && decide (a < 32) && decide (b < 32)) = true := hf
  simp only [Bool.and_eq_true, decide_eq_true_eq] at hf
  have hp : apart 0x12000000 [(20, 5), (15, 5), (10, 5)] = true ∧ fit [(20, 5), (15, 5), (10, 5)] [d, a, b] = true := ⟨rfl, by simp [fit, hf]⟩
  change WordStatement (.rc, place 0x12000000 [(20, 5), (15, 5), (10, 5)] [d, a, b]) (.rcSha d a b)
  have kb := place_lt hp 32 rfl
  have k0 := bits_in hp 0 24 20 d rfl rfl
  have k1 := bits_in hp 1 19 15 a rfl rfl
  have k2 := bits_in hp 2 14 10 b rfl rfl
  have k3 := bits_out hp 31 25 9 rfl
  have k4 := bits_out hp 9 0 0 rfl
  obtain ⟨wd, hw⟩ : ∃ wd, place 0x12000000 [(20, 5), (15, 5), (10, 5)] [d, a, b] = wd := ⟨_, rfl⟩
  rw [hw] at kb k0 k1 k2 k3 k4 ⊢
  clear hp hw
  refine ⟨kb, by unfold rcIsLong; rw [k3]; rfl, fun ext => ?_⟩
  unfold decodeRcWord; rw [k3]
  refine (if_pos k4).trans ?_
  rw [k0, k1, k2]

theorem rcSlt (d a b : Nat) : Statement (.rcSlt d a b) := by
  intro hf
  replace hf : (decide (d < 32) && decide (a < 32) && decide (b < 32)) = true := hf
  simp only [Bool.and_eq_true, decide_eq_true_eq] at hf
  have hp : apart 0x14000000 [(20, 5), (15, 5), (10, 5)] = true ∧ fit [(20, 5), (15, 5), (10, 5)] [d, a, b] = true := ⟨rfl, by simp [fit, hf]⟩
  change WordStatement (.rc, place 0x14000000 [(20, 5), (15, 5), (10, 5)] [d, a, b]) (.rcSlt d a b)
  have kb := place_lt hp 32 rfl
  have k0 := bits_in hp 0 24 20 d rfl rfl
  have k1 := bits_in hp 1 19 15 a rfl rfl
  have k2 := bits_in hp 2 14 10 b rfl rfl
  have k3 := bits_out hp 31 25 10 rfl
  have k4 := bits_out hp 9 0 0 rfl
  obtain ⟨wd, hw⟩ : ∃ wd, place 0x14000000 [(20, 5), (15, 5), (10, 5)] [d, a, b] = wd := ⟨_, rfl⟩
  rw [hw] at kb k0 k1 k2 k3 k4 ⊢
  clear hp hw
  refine ⟨kb, by unfold rcIsLong; rw [k3]; rfl, fun ext => ?_⟩
  unfold decodeRcWord; rw [k3]
  refine (if_pos k4).trans ?_
  rw [k0, k1, k2]

theorem rcSltn (d a b : Nat) : Statement (.rcSltn d a b) := by
  intro hf
  replace hf : (decide (d < 32) && decide (a < 32) && decide (b < 32)) = true := hf
  simp only [Bool.and_eq_true, decide_eq_true_eq] at hf
  have hp : apart 0x16000000 [(20, 5), (15, 5), (10, 5)] = true ∧ fit [(20, 5), (15, 5), (10, 5)] [d, a, b] = true := ⟨rfl, by simp [fit, hf]⟩
  change WordStatement (.rc, place 0x16000000 [(20, 5), (15, 5), (10, 5)] [d, a, b]) (.rcSltn d a b)
  have kb := place_lt hp 32 rfl
  have k0 := bits_in hp 0 24 20 d rfl rfl
  have k1 := bits_in hp 1 19 15 a rfl rfl
  have k2 := bits_in hp 2 14 10 b rfl rfl
  have k3 := bits_out hp 31 25 11 rfl
  have k4 := bits_out hp 9 0 0 rfl
  obtain ⟨wd, hw⟩ : ∃ wd, place 0x16000000 [(20, 5), (15, 5), (10, 5)] [d, a, b] = wd := ⟨_, rfl⟩
  rw [hw] at kb k0 k1 k2 k3 k4 ⊢
  clear hp hw
  refine ⟨kb, by unfold rcIsLong; rw [k3]; rfl, fun ext => ?_⟩
  unfold decodeRcWord; rw [k3]
  refine (if_pos k4).trans ?_
  rw [k0, k1, k2]

theorem rcMin (d a b : Nat) : Statement (.rcMin d a b) := by
  intro hf
  replace hf : (decide (d < 32) && decide (a < 32) && decide (b < 32)) = true := hf
  simp only [Bool.and_eq_true, decide_eq_true_eq] at hf
  have hp : apart 0x18000000 [(20, 5), (15, 5), (10, 5)] = true ∧ fit [(20, 5), (15, 5), (10, 5)] [d, a, b] = true := ⟨rfl, by simp [fit, hf]⟩
  change WordStatement (.rc, place 0x18000000 [(20, 5), (15, 5), (10, 5)] [d, a, b]) (.rcMin d a b)
  have kb := place_lt hp 32 rfl
  have k0 := bits_in hp 0 24 20 d rfl rfl
  have k1 := bits_in hp 1 19 15 a rfl rfl
  have k2 := bits_in hp 2 14 10 b rfl rfl
  have k3 := bits_out hp 31 25 12 rfl
  have k4 := bits_out hp 9 0 0 rfl
  obtain ⟨wd, hw⟩ : ∃ wd, place 0x18000000 [(20, 5), (15, 5), (10, 5)] [d, a, b] = wd := ⟨_, rfl⟩
  rw [hw] at kb k0 k1 k2 k3 k4 ⊢
  clear hp hw
  refine ⟨kb, by unfold rcIsLong; rw [k3]; rfl, fun ext => ?_⟩
  unfold decodeRcWord; rw [k3]
  refine (if_pos k4).trans ?_
  rw [k0, k1, k2]

theorem rcMax (d a b : Nat) : Statement (.rcMax d a b) := by
  intro hf
  replace hf : (decide (d < 32) && decide (a < 32) && decide (b < 32)) = true := hf
  simp only [Bool.and_eq_true, decide_eq_true_eq] at hf
  have hp : apart 0x1A000000 [(20, 5), (15, 5), (10, 5)] = true ∧ fit [(20, 5), (15, 5), (10, 5)] [d, a, b] = true := ⟨rfl, by simp [fit, hf]⟩
  change WordStatement (.rc, place 0x1A000000 [(20, 5), (15, 5), (10, 5)] [d, a, b]) (.rcMax d a b)
  have kb := place_lt hp 32 rfl
  have k0 := bits_in hp 0 24 20 d rfl rfl
  have k1 := bits_in hp 1 19 15 a rfl rfl
  have k2 := bits_in hp 2 14 10 b rfl rfl
  have k3 := bits_out hp 31 25 13 rfl
  have k4 := bits_out hp 9 0 0 rfl
  obtain ⟨wd, hw⟩ : ∃ wd, place 0x1A000000 [(20, 5), (15, 5), (10, 5)] [d, a, b] = wd := ⟨_, rfl⟩
  rw [hw] at kb k0 k1 k2 k3 k4 ⊢
  clear hp hw
  refine ⟨kb, by unfold rcIsLong; rw [k3]; rfl, fun ext => ?_⟩
  unfold decodeRcWord; rw [k3]
  refine (if_pos k4).trans ?_
  rw [k0, k1, k2]

theorem rcAddi (d a i : Nat) : Statement (.rcAddi d a i) := by
  intro hf
  replace hf : (decide (d < 32) && decide (a < 32) && decide (i < 32768)) = true := hf
  simp only [Bool.and_eq_true, decide_eq_true_eq] at hf
  have hp : apart 0x1C000000 [(20, 5), (15, 5), (0, 15)] = true ∧ fit [(20, 5), (15, 5), (0, 15)] [d, a, i] = true := ⟨rfl, by simp [fit, hf]⟩
  change WordStatement (.rc, place 0x1C000000 [(20, 5), (15, 5), (0, 15)] [d, a, i]) (.rcAddi d a i)
  have kb := place_lt hp 32 rfl
  have k0 := bits_in hp 0 24 20 d rfl rfl
  have k1 := bits_in hp 1 19 15 a rfl rfl
  have k2 := bits_in hp 2 14 0 i rfl rfl
  have k3 := bits_out hp 31 25 14 rfl
  obtain ⟨wd, hw⟩ : ∃ wd, place 0x1C000000 [(20, 5), (15, 5), (0, 15)] [d, a, i] = wd := ⟨_, rfl⟩
  rw [hw] at kb k0 k1 k2 k3 ⊢
  clear hp hw
  refine ⟨kb, by unfold rcIsLong; rw [k3]; rfl, fun ext => ?_⟩
  unfold decodeRcWord; rw [k3]
  refine (if_pos trivial).trans ?_
  rw [k0, k1, k2]

theorem rcAndi (d a i : Nat) : Statement (.rcAndi d a i) := by
  intro hf
  replace hf : (decide (d < 32) && decide (a < 32) && decide (i < 32768)) = true := hf
  simp only [Bool.and_eq_true, decide_eq_true_eq] at hf
  have hp : apart 0x1E000000 [(20, 5), (15, 5), (0, 15)] = true ∧ fit [(20, 5), (15, 5), (0, 15)] [d, a, i] = true := ⟨rfl, by simp [fit, hf]⟩
  change WordStatement (.rc, place 0x1E000000 [(20, 5), (15, 5), (0, 15)] [d, a, i]) (.rcAndi d a i)
  have kb := place_lt hp 32 rfl
  have k0 := bits_in hp 0 24 20 d rfl rfl
  have k1 := bits_in hp 1 19 15 a rfl rfl
  have k2 := bits_in hp 2 14 0 i rfl rfl
  have k3 := bits_out hp 31 25 15 rfl
  obtain ⟨wd, hw⟩ : ∃ wd, place 0x1E000000 [(20, 5), (15, 5), (0, 15)] [d, a, i] = wd := ⟨_, rfl⟩
  rw [hw] at kb k0 k1 k2 k3 ⊢
  clear hp hw
  refine ⟨kb, by unfold rcIsLong; rw [k3]; rfl, fun ext => ?_⟩
  unfold decodeRcWord; rw [k3]
  refine (if_pos trivial).trans ?_
  rw [k0, k1, k2]

theorem rcLd (d a z o : Nat) : Statement (.rcLd d a z o) := by
  intro hf
  replace hf : (decide (d < 32) && decide (a < 32) && decide (z < 4) && decide (o < 8192)) = true := hf
  simp only [Bool.and_eq_true, decide_eq_true_eq] at hf
  have hp : apart 0x20000000 [(20, 5), (15, 5), (13, 2), (0, 13)] = true ∧ fit [(20, 5), (15, 5), (13, 2), (0, 13)] [d, a, z, o] = true := ⟨rfl, by simp [fit, hf]⟩
  change WordStatement (.rc, place 0x20000000 [(20, 5), (15, 5), (13, 2), (0, 13)] [d, a, z, o]) (.rcLd d a z o)
  have kb := place_lt hp 32 rfl
  have k0 := bits_in hp 0 24 20 d rfl rfl
  have k1 := bits_in hp 1 19 15 a rfl rfl
  have k2 := bits_in hp 2 14 13 z rfl rfl
  have k3 := bits_in hp 3 12 0 o rfl rfl
  have k4 := bits_out hp 31 25 16 rfl
  obtain ⟨wd, hw⟩ : ∃ wd, place 0x20000000 [(20, 5), (15, 5), (13, 2), (0, 13)] [d, a, z, o] = wd := ⟨_, rfl⟩
  rw [hw] at kb k0 k1 k2 k3 k4 ⊢
  clear hp hw
  refine ⟨kb, by unfold rcIsLong; rw [k4]; rfl, fun ext => ?_⟩
  unfold decodeRcWord; rw [k4]
  refine (if_pos trivial).trans ?_
  rw [k0, k1, k2, k3]

theorem rcSt (d a z o : Nat) : Statement (.rcSt d a z o) := by
  intro hf
  replace hf : (decide (d < 32) && decide (a < 32) && decide (z < 4) && decide (o < 8192)) = true := hf
  simp only [Bool.and_eq_true, decide_eq_true_eq] at hf
  have hp : apart 0x22000000 [(20, 5), (15, 5), (13, 2), (0, 13)] = true ∧ fit [(20, 5), (15, 5), (13, 2), (0, 13)] [d, a, z, o] = true := ⟨rfl, by simp [fit, hf]⟩
  change WordStatement (.rc, place 0x22000000 [(20, 5), (15, 5), (13, 2), (0, 13)] [d, a, z, o]) (.rcSt d a z o)
  have kb := place_lt hp 32 rfl
  have k0 := bits_in hp 0 24 20 d rfl rfl
  have k1 := bits_in hp 1 19 15 a rfl rfl
  have k2 := bits_in hp 2 14 13 z rfl rfl
  have k3 := bits_in hp 3 12 0 o rfl rfl
  have k4 := bits_out hp 31 25 17 rfl
  obtain ⟨wd, hw⟩ : ∃ wd, place 0x22000000 [(20, 5), (15, 5), (13, 2), (0, 13)] [d, a, z, o] = wd := ⟨_, rfl⟩
  rw [hw] at kb k0 k1 k2 k3 k4 ⊢
  clear hp hw
  refine ⟨kb, by unfold rcIsLong; rw [k4]; rfl, fun ext => ?_⟩
  unfold decodeRcWord; rw [k4]
  refine (if_pos trivial).trans ?_
  rw [k0, k1, k2, k3]

theorem rcAmo (d a b z r s p : Nat) : Statement (.rcAmo d a b z r s p) := by
  intro hf
  replace hf : (decide (d < 32) && decide (a < 32) && decide (b < 32) && decide (z < 2) && decide (r < 4) && decide (s < 4) && decide (p < 16)) = true := hf
  simp only [Bool.and_eq_true, decide_eq_true_eq] at hf
  have hp : apart 0x24000000 [(20, 5), (15, 5), (10, 5), (8, 1), (6, 2), (4, 2), (0, 4)] = true ∧ fit [(20, 5), (15, 5), (10, 5), (8, 1), (6, 2), (4, 2), (0, 4)] [d, a, b, z, r, s, p] = true := ⟨rfl, by simp [fit, hf]⟩
  change WordStatement (.rc, place 0x24000000 [(20, 5), (15, 5), (10, 5), (8, 1), (6, 2), (4, 2), (0, 4)] [d, a, b, z, r, s, p]) (.rcAmo d a b z r s p)
  have kb := place_lt hp 32 rfl
  have k0 := bits_in hp 0 24 20 d rfl rfl
  have k1 := bits_in hp 1 19 15 a rfl rfl
  have k2 := bits_in hp 2 14 10 b rfl rfl
  have k3 := bits_in hp 3 8 8 z rfl rfl
  have k4 := bits_in hp 4 7 6 r rfl rfl
  have k5 := bits_in hp 5 5 4 s rfl rfl
  have k6 := bits_in hp 6 3 0 p rfl rfl
  have k7 := bits_out hp 31 25 18 rfl
  have k8 := bits_out hp 9 9 0 rfl
  obtain ⟨wd, hw⟩ : ∃ wd, place 0x24000000 [(20, 5), (15, 5), (10, 5), (8, 1), (6, 2), (4, 2), (0, 4)] [d, a, b, z, r, s, p] = wd := ⟨_, rfl⟩
  rw [hw] at kb k0 k1 k2 k3 k4 k5 k6 k7 k8 ⊢
  clear hp hw
  refine ⟨kb, by unfold rcIsLong; rw [k7]; rfl, fun ext => ?_⟩
  unfold decodeRcWord; rw [k7]
  refine (if_pos k8).trans ?_
  rw [k0, k1, k2, k3, k4, k5, k6]

theorem rcCas (d a b z r s : Nat) : Statement (.rcCas d a b z r s) := by
  intro hf
  replace hf : (decide (d < 32) && decide (a < 32) && decide (b < 32) && decide (z < 2) && decide (r < 4) && decide (s < 4)) = true := hf
  simp only [Bool.and_eq_true, decide_eq_true_eq] at hf
  have hp : apart 0x26000000 [(20, 5), (15, 5), (10, 5), (8, 1), (6, 2), (4, 2)] = true ∧ fit [(20, 5), (15, 5), (10, 5), (8, 1), (6, 2), (4, 2)] [d, a, b, z, r, s] = true := ⟨rfl, by simp [fit, hf]⟩
  change WordStatement (.rc, place 0x26000000 [(20, 5), (15, 5), (10, 5), (8, 1), (6, 2), (4, 2)] [d, a, b, z, r, s]) (.rcCas d a b z r s)
  have kb := place_lt hp 32 rfl
  have k0 := bits_in hp 0 24 20 d rfl rfl
  have k1 := bits_in hp 1 19 15 a rfl rfl
  have k2 := bits_in hp 2 14 10 b rfl rfl
  have k3 := bits_in hp 3 8 8 z rfl rfl
  have k4 := bits_in hp 4 7 6 r rfl rfl
  have k5 := bits_in hp 5 5 4 s rfl rfl
  have k6 := bits_out hp 31 25 19 rfl
  have k7 := bits_out hp 9 9 0 rfl
  have k8 := bits_out hp 3 0 0 rfl
  obtain ⟨wd, hw⟩ : ∃ wd, place 0x26000000 [(20, 5), (15, 5), (10, 5), (8, 1), (6, 2), (4, 2)] [d, a, b, z, r, s] = wd := ⟨_, rfl⟩
  rw [hw] at kb k0 k1 k2 k3 k4 k5 k6 k7 k8 ⊢
  clear hp hw
  refine ⟨kb, by unfold rcIsLong; rw [k6]; rfl, fun ext => ?_⟩
  unfold decodeRcWord; rw [k6]
  refine (if_pos ⟨k7, k8⟩).trans ?_
  rw [k0, k1, k2, k3, k4, k5]

theorem rcFence (r s : Nat) : Statement (.rcFence r s) := by
  intro hf
  replace hf : (decide (r < 4) && decide (s < 4)) = true := hf
  simp only [Bool.and_eq_true, decide_eq_true_eq] at hf
  have hp : apart 0x28000000 [(6, 2), (4, 2)] = true ∧ fit [(6, 2), (4, 2)] [r, s] = true := ⟨rfl, by simp [fit, hf]⟩
  change WordStatement (.rc, place 0x28000000 [(6, 2), (4, 2)] [r, s]) (.rcFence r s)
  have kb := place_lt hp 32 rfl
  have k0 := bits_in hp 0 7 6 r rfl rfl
  have k1 := bits_in hp 1 5 4 s rfl rfl
  have k2 := bits_out hp 31 25 20 rfl
  have k3 := bits_out hp 24 8 0 rfl
  have k4 := bits_out hp 3 0 0 rfl
  obtain ⟨wd, hw⟩ : ∃ wd, place 0x28000000 [(6, 2), (4, 2)] [r, s] = wd := ⟨_, rfl⟩
  rw [hw] at kb k0 k1 k2 k3 k4 ⊢
  clear hp hw
  refine ⟨kb, by unfold rcIsLong; rw [k2]; rfl, fun ext => ?_⟩
  unfold decodeRcWord; rw [k2]
  refine (if_pos ⟨k3, k4⟩).trans ?_
  rw [k0, k1]

theorem rcMovk (d a i : Nat) : Statement (.rcMovk d a i) := by
  intro hf
  replace hf : (decide (d < 32) && decide (a < 32) && decide (i < 32768)) = true := hf
  simp only [Bool.and_eq_true, decide_eq_true_eq] at hf
  have hp : apart 0x2A000000 [(20, 5), (15, 5), (0, 15)] = true ∧ fit [(20, 5), (15, 5), (0, 15)] [d, a, i] = true := ⟨rfl, by simp [fit, hf]⟩
  change WordStatement (.rc, place 0x2A000000 [(20, 5), (15, 5), (0, 15)] [d, a, i]) (.rcMovk d a i)
  have kb := place_lt hp 32 rfl
  have k0 := bits_in hp 0 24 20 d rfl rfl
  have k1 := bits_in hp 1 19 15 a rfl rfl
  have k2 := bits_in hp 2 14 0 i rfl rfl
  have k3 := bits_out hp 31 25 21 rfl
  obtain ⟨wd, hw⟩ : ∃ wd, place 0x2A000000 [(20, 5), (15, 5), (0, 15)] [d, a, i] = wd := ⟨_, rfl⟩
  rw [hw] at kb k0 k1 k2 k3 ⊢
  clear hp hw
  refine ⟨kb, by unfold rcIsLong; rw [k3]; rfl, fun ext => ?_⟩
  unfold decodeRcWord; rw [k3]
  refine (if_pos trivial).trans ?_
  rw [k0, k1, k2]

theorem rcRds (d i : Nat) : Statement (.rcRds d i) := by
  intro hf
  replace hf : (decide (d < 32) && decide (i < 32768)) = true := hf
  simp only [Bool.and_eq_true, decide_eq_true_eq] at hf
  have hp : apart 0x2C000000 [(20, 5), (0, 15)] = true ∧ fit [(20, 5), (0, 15)] [d, i] = true := ⟨rfl, by simp [fit, hf]⟩
  change WordStatement (.rc, place 0x2C000000 [(20, 5), (0, 15)] [d, i]) (.rcRds d i)
  have kb := place_lt hp 32 rfl
  have k0 := bits_in hp 0 24 20 d rfl rfl
  have k1 := bits_in hp 1 14 0 i rfl rfl
  have k2 := bits_out hp 31 25 22 rfl
  have k3 := bits_out hp 19 15 0 rfl
  obtain ⟨wd, hw⟩ : ∃ wd, place 0x2C000000 [(20, 5), (0, 15)] [d, i] = wd := ⟨_, rfl⟩
  rw [hw] at kb k0 k1 k2 k3 ⊢
  clear hp hw
  refine ⟨kb, by unfold rcIsLong; rw [k2]; rfl, fun ext => ?_⟩
  unfold decodeRcWord; rw [k2]
  refine (if_pos k3).trans ?_
  rw [k0, k1]

theorem rcWrs (a i : Nat) : Statement (.rcWrs a i) := by
  intro hf
  replace hf : (decide (a < 32) && decide (i < 32768)) = true := hf
  simp only [Bool.and_eq_true, decide_eq_true_eq] at hf
  have hp : apart 0x2E000000 [(15, 5), (0, 15)] = true ∧ fit [(15, 5), (0, 15)] [a, i] = true := ⟨rfl, by simp [fit, hf]⟩
  change WordStatement (.rc, place 0x2E000000 [(15, 5), (0, 15)] [a, i]) (.rcWrs a i)
  have kb := place_lt hp 32 rfl
  have k0 := bits_in hp 0 19 15 a rfl rfl
  have k1 := bits_in hp 1 14 0 i rfl rfl
  have k2 := bits_out hp 31 25 23 rfl
  have k3 := bits_out hp 24 20 0 rfl
  obtain ⟨wd, hw⟩ : ∃ wd, place 0x2E000000 [(15, 5), (0, 15)] [a, i] = wd := ⟨_, rfl⟩
  rw [hw] at kb k0 k1 k2 k3 ⊢
  clear hp hw
  refine ⟨kb, by unfold rcIsLong; rw [k2]; rfl, fun ext => ?_⟩
  unfold decodeRcWord; rw [k2]
  refine (if_pos k3).trans ?_
  rw [k0, k1]

theorem rcRdfn (d c e f : Nat) : Statement (.rcRdfn d c e f) := by
  intro hf
  replace hf : (decide (d < 32) && decide (c < 2) && decide (e < 4) && decide (f < 8)) = true := hf
  simp only [Bool.and_eq_true, decide_eq_true_eq] at hf
  have hp : apart 0x30000000 [(20, 5), (5, 1), (3, 2), (0, 3)] = true ∧ fit [(20, 5), (5, 1), (3, 2), (0, 3)] [d, c, e, f] = true := ⟨rfl, by simp [fit, hf]⟩
  change WordStatement (.rc, place 0x30000000 [(20, 5), (5, 1), (3, 2), (0, 3)] [d, c, e, f]) (.rcRdfn d c e f)
  have kb := place_lt hp 32 rfl
  have k0 := bits_in hp 0 24 20 d rfl rfl
  have k1 := bits_in hp 1 5 5 c rfl rfl
  have k2 := bits_in hp 2 4 3 e rfl rfl
  have k3 := bits_in hp 3 2 0 f rfl rfl
  have k4 := bits_out hp 31 25 24 rfl
  have k5 := bits_out hp 19 6 0 rfl
  obtain ⟨wd, hw⟩ : ∃ wd, place 0x30000000 [(20, 5), (5, 1), (3, 2), (0, 3)] [d, c, e, f] = wd := ⟨_, rfl⟩
  rw [hw] at kb k0 k1 k2 k3 k4 k5 ⊢
  clear hp hw
  refine ⟨kb, by unfold rcIsLong; rw [k4]; rfl, fun ext => ?_⟩
  unfold decodeRcWord; rw [k4]
  refine (if_pos k5).trans ?_
  rw [k0, k1, k2, k3]

theorem rcOri (d a i : Nat) : Statement (.rcOri d a i) := by
  intro hf
  replace hf : (decide (d < 32) && decide (a < 32) && decide (i < 32768)) = true := hf
  simp only [Bool.and_eq_true, decide_eq_true_eq] at hf
  have hp : apart 0x32000000 [(20, 5), (15, 5), (0, 15)] = true ∧ fit [(20, 5), (15, 5), (0, 15)] [d, a, i] = true := ⟨rfl, by simp [fit, hf]⟩
  change WordStatement (.rc, place 0x32000000 [(20, 5), (15, 5), (0, 15)] [d, a, i]) (.rcOri d a i)
  have kb := place_lt hp 32 rfl
  have k0 := bits_in hp 0 24 20 d rfl rfl
  have k1 := bits_in hp 1 19 15 a rfl rfl
  have k2 := bits_in hp 2 14 0 i rfl rfl
  have k3 := bits_out hp 31 25 25 rfl
  obtain ⟨wd, hw⟩ : ∃ wd, place 0x32000000 [(20, 5), (15, 5), (0, 15)] [d, a, i] = wd := ⟨_, rfl⟩
  rw [hw] at kb k0 k1 k2 k3 ⊢
  clear hp hw
  refine ⟨kb, by unfold rcIsLong; rw [k3]; rfl, fun ext => ?_⟩
  unfold decodeRcWord; rw [k3]
  refine (if_pos trivial).trans ?_
  rw [k0, k1, k2]

theorem rcShli (d a i : Nat) : Statement (.rcShli d a i) := by
  intro hf
  replace hf : (decide (d < 32) && decide (a < 32) && decide (i < 32768)) = true := hf
  simp only [Bool.and_eq_true, decide_eq_true_eq] at hf
  have hp : apart 0x34000000 [(20, 5), (15, 5), (0, 15)] = true ∧ fit [(20, 5), (15, 5), (0, 15)] [d, a, i] = true := ⟨rfl, by simp [fit, hf]⟩
  change WordStatement (.rc, place 0x34000000 [(20, 5), (15, 5), (0, 15)] [d, a, i]) (.rcShli d a i)
  have kb := place_lt hp 32 rfl
  have k0 := bits_in hp 0 24 20 d rfl rfl
  have k1 := bits_in hp 1 19 15 a rfl rfl
  have k2 := bits_in hp 2 14 0 i rfl rfl
  have k3 := bits_out hp 31 25 26 rfl
  obtain ⟨wd, hw⟩ : ∃ wd, place 0x34000000 [(20, 5), (15, 5), (0, 15)] [d, a, i] = wd := ⟨_, rfl⟩
  rw [hw] at kb k0 k1 k2 k3 ⊢
  clear hp hw
  refine ⟨kb, by unfold rcIsLong; rw [k3]; rfl, fun ext => ?_⟩
  unfold decodeRcWord; rw [k3]
  refine (if_pos trivial).trans ?_
  rw [k0, k1, k2]

theorem rcShri (d a i : Nat) : Statement (.rcShri d a i) := by
  intro hf
  replace hf : (decide (d < 32) && decide (a < 32) && decide (i < 32768)) = true := hf
  simp only [Bool.and_eq_true, decide_eq_true_eq] at hf
  have hp : apart 0x36000000 [(20, 5), (15, 5), (0, 15)] = true ∧ fit [(20, 5), (15, 5), (0, 15)] [d, a, i] = true := ⟨rfl, by simp [fit, hf]⟩
  change WordStatement (.rc, place 0x36000000 [(20, 5), (15, 5), (0, 15)] [d, a, i]) (.rcShri d a i)
  have kb := place_lt hp 32 rfl
  have k0 := bits_in hp 0 24 20 d rfl rfl
  have k1 := bits_in hp 1 19 15 a rfl rfl
  have k2 := bits_in hp 2 14 0 i rfl rfl
  have k3 := bits_out hp 31 25 27 rfl
  obtain ⟨wd, hw⟩ : ∃ wd, place 0x36000000 [(20, 5), (15, 5), (0, 15)] [d, a, i] = wd := ⟨_, rfl⟩
  rw [hw] at kb k0 k1 k2 k3 ⊢
  clear hp hw
  refine ⟨kb, by unfold rcIsLong; rw [k3]; rfl, fun ext => ?_⟩
  unfold decodeRcWord; rw [k3]
  refine (if_pos trivial).trans ?_
  rw [k0, k1, k2]

theorem rcBeq (a b o : Nat) : Statement (.rcBeq a b o) := by
  intro hf
  replace hf : (decide (a < 32) && decide (b < 32) && decide (o < 32768)) = true := hf
  simp only [Bool.and_eq_true, decide_eq_true_eq] at hf
  have hp : apart 0x40000000 [(20, 5), (15, 5), (0, 15)] = true ∧ fit [(20, 5), (15, 5), (0, 15)] [a, b, o] = true := ⟨rfl, by simp [fit, hf]⟩
  change WordStatement (.rc, place 0x40000000 [(20, 5), (15, 5), (0, 15)] [a, b, o]) (.rcBeq a b o)
  have kb := place_lt hp 32 rfl
  have k0 := bits_in hp 0 24 20 a rfl rfl
  have k1 := bits_in hp 1 19 15 b rfl rfl
  have k2 := bits_in hp 2 14 0 o rfl rfl
  have k3 := bits_out hp 31 25 32 rfl
  obtain ⟨wd, hw⟩ : ∃ wd, place 0x40000000 [(20, 5), (15, 5), (0, 15)] [a, b, o] = wd := ⟨_, rfl⟩
  rw [hw] at kb k0 k1 k2 k3 ⊢
  clear hp hw
  refine ⟨kb, by unfold rcIsLong; rw [k3]; rfl, fun ext => ?_⟩
  unfold decodeRcWord; rw [k3]
  refine (if_pos trivial).trans ?_
  rw [k0, k1, k2]

theorem rcBne (a b o : Nat) : Statement (.rcBne a b o) := by
  intro hf
  replace hf : (decide (a < 32) && decide (b < 32) && decide (o < 32768)) = true := hf
  simp only [Bool.and_eq_true, decide_eq_true_eq] at hf
  have hp : apart 0x42000000 [(20, 5), (15, 5), (0, 15)] = true ∧ fit [(20, 5), (15, 5), (0, 15)] [a, b, o] = true := ⟨rfl, by simp [fit, hf]⟩
  change WordStatement (.rc, place 0x42000000 [(20, 5), (15, 5), (0, 15)] [a, b, o]) (.rcBne a b o)
  have kb := place_lt hp 32 rfl
  have k0 := bits_in hp 0 24 20 a rfl rfl
  have k1 := bits_in hp 1 19 15 b rfl rfl
  have k2 := bits_in hp 2 14 0 o rfl rfl
  have k3 := bits_out hp 31 25 33 rfl
  obtain ⟨wd, hw⟩ : ∃ wd, place 0x42000000 [(20, 5), (15, 5), (0, 15)] [a, b, o] = wd := ⟨_, rfl⟩
  rw [hw] at kb k0 k1 k2 k3 ⊢
  clear hp hw
  refine ⟨kb, by unfold rcIsLong; rw [k3]; rfl, fun ext => ?_⟩
  unfold decodeRcWord; rw [k3]
  refine (if_pos trivial).trans ?_
  rw [k0, k1, k2]

theorem rcBlt (a b o : Nat) : Statement (.rcBlt a b o) := by
  intro hf
  replace hf : (decide (a < 32) && decide (b < 32) && decide (o < 32768)) = true := hf
  simp only [Bool.and_eq_true, decide_eq_true_eq] at hf
  have hp : apart 0x44000000 [(20, 5), (15, 5), (0, 15)] = true ∧ fit [(20, 5), (15, 5), (0, 15)] [a, b, o] = true := ⟨rfl, by simp [fit, hf]⟩
  change WordStatement (.rc, place 0x44000000 [(20, 5), (15, 5), (0, 15)] [a, b, o]) (.rcBlt a b o)
  have kb := place_lt hp 32 rfl
  have k0 := bits_in hp 0 24 20 a rfl rfl
  have k1 := bits_in hp 1 19 15 b rfl rfl
  have k2 := bits_in hp 2 14 0 o rfl rfl
  have k3 := bits_out hp 31 25 34 rfl
  obtain ⟨wd, hw⟩ : ∃ wd, place 0x44000000 [(20, 5), (15, 5), (0, 15)] [a, b, o] = wd := ⟨_, rfl⟩
  rw [hw] at kb k0 k1 k2 k3 ⊢
  clear hp hw
  refine ⟨kb, by unfold rcIsLong; rw [k3]; rfl, fun ext => ?_⟩
  unfold decodeRcWord; rw [k3]
  refine (if_pos trivial).trans ?_
  rw [k0, k1, k2]

theorem rcBge (a b o : Nat) : Statement (.rcBge a b o) := by
  intro hf
  replace hf : (decide (a < 32) && decide (b < 32) && decide (o < 32768)) = true := hf
  simp only [Bool.and_eq_true, decide_eq_true_eq] at hf
  have hp : apart 0x46000000 [(20, 5), (15, 5), (0, 15)] = true ∧ fit [(20, 5), (15, 5), (0, 15)] [a, b, o] = true := ⟨rfl, by simp [fit, hf]⟩
  change WordStatement (.rc, place 0x46000000 [(20, 5), (15, 5), (0, 15)] [a, b, o]) (.rcBge a b o)
  have kb := place_lt hp 32 rfl
  have k0 := bits_in hp 0 24 20 a rfl rfl
  have k1 := bits_in hp 1 19 15 b rfl rfl
  have k2 := bits_in hp 2 14 0 o rfl rfl
  have k3 := bits_out hp 31 25 35 rfl
  obtain ⟨wd, hw⟩ : ∃ wd, place 0x46000000 [(20, 5), (15, 5), (0, 15)] [a, b, o] = wd := ⟨_, rfl⟩
  rw [hw] at kb k0 k1 k2 k3 ⊢
  clear hp hw
  refine ⟨kb, by unfold rcIsLong; rw [k3]; rfl, fun ext => ?_⟩
  unfold decodeRcWord; rw [k3]
  refine (if_pos trivial).trans ?_
  rw [k0, k1, k2]

theorem rcBltn (a b o : Nat) : Statement (.rcBltn a b o) := by
  intro hf
  replace hf : (decide (a < 32) && decide (b < 32) && decide (o < 32768)) = true := hf
  simp only [Bool.and_eq_true, decide_eq_true_eq] at hf
  have hp : apart 0x48000000 [(20, 5), (15, 5), (0, 15)] = true ∧ fit [(20, 5), (15, 5), (0, 15)] [a, b, o] = true := ⟨rfl, by simp [fit, hf]⟩
  change WordStatement (.rc, place 0x48000000 [(20, 5), (15, 5), (0, 15)] [a, b, o]) (.rcBltn a b o)
  have kb := place_lt hp 32 rfl
  have k0 := bits_in hp 0 24 20 a rfl rfl
  have k1 := bits_in hp 1 19 15 b rfl rfl
  have k2 := bits_in hp 2 14 0 o rfl rfl
  have k3 := bits_out hp 31 25 36 rfl
  obtain ⟨wd, hw⟩ : ∃ wd, place 0x48000000 [(20, 5), (15, 5), (0, 15)] [a, b, o] = wd := ⟨_, rfl⟩
  rw [hw] at kb k0 k1 k2 k3 ⊢
  clear hp hw
  refine ⟨kb, by unfold rcIsLong; rw [k3]; rfl, fun ext => ?_⟩
  unfold decodeRcWord; rw [k3]
  refine (if_pos trivial).trans ?_
  rw [k0, k1, k2]

theorem rcBgen (a b o : Nat) : Statement (.rcBgen a b o) := by
  intro hf
  replace hf : (decide (a < 32) && decide (b < 32) && decide (o < 32768)) = true := hf
  simp only [Bool.and_eq_true, decide_eq_true_eq] at hf
  have hp : apart 0x4A000000 [(20, 5), (15, 5), (0, 15)] = true ∧ fit [(20, 5), (15, 5), (0, 15)] [a, b, o] = true := ⟨rfl, by simp [fit, hf]⟩
  change WordStatement (.rc, place 0x4A000000 [(20, 5), (15, 5), (0, 15)] [a, b, o]) (.rcBgen a b o)
  have kb := place_lt hp 32 rfl
  have k0 := bits_in hp 0 24 20 a rfl rfl
  have k1 := bits_in hp 1 19 15 b rfl rfl
  have k2 := bits_in hp 2 14 0 o rfl rfl
  have k3 := bits_out hp 31 25 37 rfl
  obtain ⟨wd, hw⟩ : ∃ wd, place 0x4A000000 [(20, 5), (15, 5), (0, 15)] [a, b, o] = wd := ⟨_, rfl⟩
  rw [hw] at kb k0 k1 k2 k3 ⊢
  clear hp hw
  refine ⟨kb, by unfold rcIsLong; rw [k3]; rfl, fun ext => ?_⟩
  unfold decodeRcWord; rw [k3]
  refine (if_pos trivial).trans ?_
  rw [k0, k1, k2]

theorem rcJmp (o : Nat) : Statement (.rcJmp o) := by
  intro hf
  replace hf : (decide (o < 1048576)) = true := hf
  simp only [decide_eq_true_eq] at hf
  have hp : apart 0x4C000000 [(0, 20)] = true ∧ fit [(0, 20)] [o] = true := ⟨rfl, by simp [fit, hf]⟩
  change WordStatement (.rc, place 0x4C000000 [(0, 20)] [o]) (.rcJmp o)
  have kb := place_lt hp 32 rfl
  have k0 := bits_in hp 0 19 0 o rfl rfl
  have k1 := bits_out hp 31 25 38 rfl
  have k2 := bits_out hp 24 20 0 rfl
  obtain ⟨wd, hw⟩ : ∃ wd, place 0x4C000000 [(0, 20)] [o] = wd := ⟨_, rfl⟩
  rw [hw] at kb k0 k1 k2 ⊢
  clear hp hw
  refine ⟨kb, by unfold rcIsLong; rw [k1]; rfl, fun ext => ?_⟩
  unfold decodeRcWord; rw [k1]
  refine (if_pos k2).trans ?_
  rw [k0]

theorem rcJal (d o : Nat) : Statement (.rcJal d o) := by
  intro hf
  replace hf : (decide (d < 32) && decide (o < 1048576)) = true := hf
  simp only [Bool.and_eq_true, decide_eq_true_eq] at hf
  have hp : apart 0x4E000000 [(20, 5), (0, 20)] = true ∧ fit [(20, 5), (0, 20)] [d, o] = true := ⟨rfl, by simp [fit, hf]⟩
  change WordStatement (.rc, place 0x4E000000 [(20, 5), (0, 20)] [d, o]) (.rcJal d o)
  have kb := place_lt hp 32 rfl
  have k0 := bits_in hp 0 24 20 d rfl rfl
  have k1 := bits_in hp 1 19 0 o rfl rfl
  have k2 := bits_out hp 31 25 39 rfl
  obtain ⟨wd, hw⟩ : ∃ wd, place 0x4E000000 [(20, 5), (0, 20)] [d, o] = wd := ⟨_, rfl⟩
  rw [hw] at kb k0 k1 k2 ⊢
  clear hp hw
  refine ⟨kb, by unfold rcIsLong; rw [k2]; rfl, fun ext => ?_⟩
  unfold decodeRcWord; rw [k2]
  refine (if_pos trivial).trans ?_
  rw [k0, k1]

theorem rcJr (d a : Nat) : Statement (.rcJr d a) := by
  intro hf
  replace hf : (decide (d < 32) && decide (a < 32)) = true := hf
  simp only [Bool.and_eq_true, decide_eq_true_eq] at hf
  have hp : apart 0x50000000 [(20, 5), (15, 5)] = true ∧ fit [(20, 5), (15, 5)] [d, a] = true := ⟨rfl, by simp [fit, hf]⟩
  change WordStatement (.rc, place 0x50000000 [(20, 5), (15, 5)] [d, a]) (.rcJr d a)
  have kb := place_lt hp 32 rfl
  have k0 := bits_in hp 0 24 20 d rfl rfl
  have k1 := bits_in hp 1 19 15 a rfl rfl
  have k2 := bits_out hp 31 25 40 rfl
  have k3 := bits_out hp 14 0 0 rfl
  obtain ⟨wd, hw⟩ : ∃ wd, place 0x50000000 [(20, 5), (15, 5)] [d, a] = wd := ⟨_, rfl⟩
  rw [hw] at kb k0 k1 k2 k3 ⊢
  clear hp hw
  refine ⟨kb, by unfold rcIsLong; rw [k2]; rfl, fun ext => ?_⟩
  unfold decodeRcWord; rw [k2]
  refine (if_pos k3).trans ?_
  rw [k0, k1]

theorem rcLoop (c o : Nat) : Statement (.rcLoop c o) := by
  intro hf
  replace hf : (decide (c < 32) && decide (o < 32768)) = true := hf
  simp only [Bool.and_eq_true, decide_eq_true_eq] at hf
  have hp : apart 0x52000000 [(20, 5), (0, 15)] = true ∧ fit [(20, 5), (0, 15)] [c, o] = true := ⟨rfl, by simp [fit, hf]⟩
  change WordStatement (.rc, place 0x52000000 [(20, 5), (0, 15)] [c, o]) (.rcLoop c o)
  have kb := place_lt hp 32 rfl
  have k0 := bits_in hp 0 24 20 c rfl rfl
  have k1 := bits_in hp 1 14 0 o rfl rfl
  have k2 := bits_out hp 31 25 41 rfl
  have k3 := bits_out hp 19 15 0 rfl
  obtain ⟨wd, hw⟩ : ∃ wd, place 0x52000000 [(20, 5), (0, 15)] [c, o] = wd := ⟨_, rfl⟩
  rw [hw] at kb k0 k1 k2 k3 ⊢
  clear hp hw
  refine ⟨kb, by unfold rcIsLong; rw [k2]; rfl, fun ext => ?_⟩
  unfold decodeRcWord; rw [k2]
  refine (if_pos k3).trans ?_
  rw [k0, k1]

theorem rcBst (d a s i : Nat) : Statement (.rcBst d a s i) := by
  intro hf
  replace hf : (decide (d < 32) && decide (a < 32) && decide (s < 4) && decide (i < 32)) = true := hf
  simp only [Bool.and_eq_true, decide_eq_true_eq] at hf
  have hp : apart 0x56000000 [(20, 5), (15, 5), (8, 2), (0, 5)] = true ∧ fit [(20, 5), (15, 5), (8, 2), (0, 5)] [d, a, s, i] = true := ⟨rfl, by simp [fit, hf]⟩
  change WordStatement (.rc, place 0x56000000 [(20, 5), (15, 5), (8, 2), (0, 5)] [d, a, s, i]) (.rcBst d a s i)
  have kb := place_lt hp 32 rfl
  have k0 := bits_in hp 0 24 20 d rfl rfl
  have k1 := bits_in hp 1 19 15 a rfl rfl
  have k2 := bits_in hp 2 9 8 s rfl rfl
  have k3 := bits_in hp 3 4 0 i rfl rfl
  have k4 := bits_out hp 31 25 43 rfl
  have k5 := bits_out hp 14 10 0 rfl
  have k6 := bits_out hp 7 5 0 rfl
  obtain ⟨wd, hw⟩ : ∃ wd, place 0x56000000 [(20, 5), (15, 5), (8, 2), (0, 5)] [d, a, s, i] = wd := ⟨_, rfl⟩
  rw [hw] at kb k0 k1 k2 k3 k4 k5 k6 ⊢
  clear hp hw
  refine ⟨kb, by unfold rcIsLong; rw [k4]; rfl, fun ext => ?_⟩
  unfold decodeRcWord; rw [k4]
  refine (if_pos ⟨k5, k6⟩).trans ?_
  rw [k0, k1, k2, k3]

theorem rcWaite (d i : Nat) : Statement (.rcWaite d i) := by
  intro hf
  replace hf : (decide (d < 32) && decide (i < 32768)) = true := hf
  simp only [Bool.and_eq_true, decide_eq_true_eq] at hf
  have hp : apart 0x58000000 [(20, 5), (0, 15)] = true ∧ fit [(20, 5), (0, 15)] [d, i] = true := ⟨rfl, by simp [fit, hf]⟩
  change WordStatement (.rc, place 0x58000000 [(20, 5), (0, 15)] [d, i]) (.rcWaite d i)
  have kb := place_lt hp 32 rfl
  have k0 := bits_in hp 0 24 20 d rfl rfl
  have k1 := bits_in hp 1 14 0 i rfl rfl
  have k2 := bits_out hp 31 25 44 rfl
  have k3 := bits_out hp 19 15 0 rfl
  obtain ⟨wd, hw⟩ : ∃ wd, place 0x58000000 [(20, 5), (0, 15)] [d, i] = wd := ⟨_, rfl⟩
  rw [hw] at kb k0 k1 k2 k3 ⊢
  clear hp hw
  refine ⟨kb, by unfold rcIsLong; rw [k2]; rfl, fun ext => ?_⟩
  unfold decodeRcWord; rw [k2]
  refine (if_pos k3).trans ?_
  rw [k0, k1]

theorem rcTrap (i : Nat) : Statement (.rcTrap i) := by
  intro hf
  replace hf : (decide (i < 32768)) = true := hf
  simp only [decide_eq_true_eq] at hf
  have hp : apart 0x5A000000 [(0, 15)] = true ∧ fit [(0, 15)] [i] = true := ⟨rfl, by simp [fit, hf]⟩
  change WordStatement (.rc, place 0x5A000000 [(0, 15)] [i]) (.rcTrap i)
  have kb := place_lt hp 32 rfl
  have k0 := bits_in hp 0 14 0 i rfl rfl
  have k1 := bits_out hp 31 25 45 rfl
  have k2 := bits_out hp 24 15 0 rfl
  obtain ⟨wd, hw⟩ : ∃ wd, place 0x5A000000 [(0, 15)] [i] = wd := ⟨_, rfl⟩
  rw [hw] at kb k0 k1 k2 ⊢
  clear hp hw
  refine ⟨kb, by unfold rcIsLong; rw [k1]; rfl, fun ext => ?_⟩
  unfold decodeRcWord; rw [k1]
  refine (if_pos k2).trans ?_
  rw [k0]

theorem rcSys (d a i : Nat) : Statement (.rcSys d a i) := by
  intro hf
  replace hf : (decide (d < 32) && decide (a < 32) && decide (i < 32768)) = true := hf
  simp only [Bool.and_eq_true, decide_eq_true_eq] at hf
  have hp : apart 0x5C000000 [(20, 5), (15, 5), (0, 15)] = true ∧ fit [(20, 5), (15, 5), (0, 15)] [d, a, i] = true := ⟨rfl, by simp [fit, hf]⟩
  change WordStatement (.rc, place 0x5C000000 [(20, 5), (15, 5), (0, 15)] [d, a, i]) (.rcSys d a i)
  have kb := place_lt hp 32 rfl
  have k0 := bits_in hp 0 24 20 d rfl rfl
  have k1 := bits_in hp 1 19 15 a rfl rfl
  have k2 := bits_in hp 2 14 0 i rfl rfl
  have k3 := bits_out hp 31 25 46 rfl
  obtain ⟨wd, hw⟩ : ∃ wd, place 0x5C000000 [(20, 5), (15, 5), (0, 15)] [d, a, i] = wd := ⟨_, rfl⟩
  rw [hw] at kb k0 k1 k2 k3 ⊢
  clear hp hw
  refine ⟨kb, by unfold rcIsLong; rw [k3]; rfl, fun ext => ?_⟩
  unfold decodeRcWord; rw [k3]
  refine (if_pos trivial).trans ?_
  rw [k0, k1, k2]

theorem rcCfg (ext : Nat) : Statement (.rcCfg ext) := by
  intro hf
  replace hf : (decide (ext < 4294967296)) = true := hf
  simp only [decide_eq_true_eq] at hf
  have hp : apart 0x60000000 [(32, 32)] = true ∧ fit [(32, 32)] [ext] = true := ⟨rfl, by simp [fit, hf]⟩
  change WordStatement (.long, place 0x60000000 [(32, 32)] [ext]) (.rcCfg ext)
  have kb := place_lt hp 64 rfl
  have hq := long_ext hp 0 rfl rfl ext rfl
  have k0 := bits_out hp 31 25 48 rfl
  have k1 := bits_out hp 24 0 0 rfl
  obtain ⟨wd, hw⟩ : ∃ wd, place 0x60000000 [(32, 32)] [ext] = wd := ⟨_, rfl⟩
  rw [hw] at kb hq k0 k1 ⊢
  clear hp hw
  refine ⟨kb, by unfold rcIsLong; rw [bits_low _ 31 25 rfl, k0]; rfl, ?_⟩
  unfold decodeRcWord; rw [hq, bits_low _ 31 25 rfl, k0]
  refine (if_pos ((bits_low _ 24 0 rfl).trans k1)).trans ?_
  rfl

theorem rcIter (a n : Nat) : Statement (.rcIter a n) := by
  intro hf
  replace hf : (decide (a < 32) && decide (n < 4)) = true := hf
  simp only [Bool.and_eq_true, decide_eq_true_eq] at hf
  have hp : apart 0x64000000 [(15, 5), (0, 2)] = true ∧ fit [(15, 5), (0, 2)] [a, n] = true := ⟨rfl, by simp [fit, hf]⟩
  change WordStatement (.rc, place 0x64000000 [(15, 5), (0, 2)] [a, n]) (.rcIter a n)
  have kb := place_lt hp 32 rfl
  have k0 := bits_in hp 0 19 15 a rfl rfl
  have k1 := bits_in hp 1 1 0 n rfl rfl
  have k2 := bits_out hp 31 25 50 rfl
  have k3 := bits_out hp 24 20 0 rfl
  have k4 := bits_out hp 14 2 0 rfl
  obtain ⟨wd, hw⟩ : ∃ wd, place 0x64000000 [(15, 5), (0, 2)] [a, n] = wd := ⟨_, rfl⟩
  rw [hw] at kb k0 k1 k2 k3 k4 ⊢
  clear hp hw
  refine ⟨kb, by unfold rcIsLong; rw [k2]; rfl, fun ext => ?_⟩
  unfold decodeRcWord; rw [k2]
  refine (if_pos ⟨k3, k4⟩).trans ?_
  rw [k0, k1]

theorem rcSpec (d ext : Nat) : Statement (.rcSpec d ext) := by
  intro hf
  replace hf : (decide (d < 32) && decide (ext < 4294967296)) = true := hf
  simp only [Bool.and_eq_true, decide_eq_true_eq] at hf
  have hp : apart 0x66000000 [(20, 5), (32, 32)] = true ∧ fit [(20, 5), (32, 32)] [d, ext] = true := ⟨rfl, by simp [fit, hf]⟩
  change WordStatement (.long, place 0x66000000 [(20, 5), (32, 32)] [d, ext]) (.rcSpec d ext)
  have kb := place_lt hp 64 rfl
  have hq := long_ext hp 1 rfl rfl ext rfl
  have k0 := bits_out hp 31 25 51 rfl
  have k1 := bits_out hp 19 0 0 rfl
  have k2 := bits_in hp 0 24 20 d rfl rfl
  obtain ⟨wd, hw⟩ : ∃ wd, place 0x66000000 [(20, 5), (32, 32)] [d, ext] = wd := ⟨_, rfl⟩
  rw [hw] at kb hq k0 k1 k2 ⊢
  clear hp hw
  refine ⟨kb, by unfold rcIsLong; rw [bits_low _ 31 25 rfl, k0]; rfl, ?_⟩
  unfold decodeRcWord; rw [hq, bits_low _ 31 25 rfl, k0]
  refine (if_pos ((bits_low _ 19 0 rfl).trans k1)).trans ?_
  rw [bits_low _ 24 20 rfl, k2]

theorem rcWaitr (d : Nat) : Statement (.rcWaitr d) := by
  intro hf
  replace hf : (decide (d < 32)) = true := hf
  simp only [decide_eq_true_eq] at hf
  have hp : apart 0x6A000000 [(20, 5)] = true ∧ fit [(20, 5)] [d] = true := ⟨rfl, by simp [fit, hf]⟩
  change WordStatement (.rc, place 0x6A000000 [(20, 5)] [d]) (.rcWaitr d)
  have kb := place_lt hp 32 rfl
  have k0 := bits_in hp 0 24 20 d rfl rfl
  have k1 := bits_out hp 31 25 53 rfl
  have k2 := bits_out hp 19 0 0 rfl
  obtain ⟨wd, hw⟩ : ∃ wd, place 0x6A000000 [(20, 5)] [d] = wd := ⟨_, rfl⟩
  rw [hw] at kb k0 k1 k2 ⊢
  clear hp hw
  refine ⟨kb, by unfold rcIsLong; rw [k1]; rfl, fun ext => ?_⟩
  unfold decodeRcWord; rw [k1]
  refine (if_pos k2).trans ?_
  rw [k0]

theorem rcPstat (d : Nat) : Statement (.rcPstat d) := by
  intro hf
  replace hf : (decide (d < 32)) = true := hf
  simp only [decide_eq_true_eq] at hf
  have hp : apart 0x6E000000 [(20, 5)] = true ∧ fit [(20, 5)] [d] = true := ⟨rfl, by simp [fit, hf]⟩
  change WordStatement (.rc, place 0x6E000000 [(20, 5)] [d]) (.rcPstat d)
  have kb := place_lt hp 32 rfl
  have k0 := bits_in hp 0 24 20 d rfl rfl
  have k1 := bits_out hp 31 25 55 rfl
  have k2 := bits_out hp 19 0 0 rfl
  obtain ⟨wd, hw⟩ : ∃ wd, place 0x6E000000 [(20, 5)] [d] = wd := ⟨_, rfl⟩
  rw [hw] at kb k0 k1 k2 ⊢
  clear hp hw
  refine ⟨kb, by unfold rcIsLong; rw [k1]; rfl, fun ext => ?_⟩
  unfold decodeRcWord; rw [k1]
  refine (if_pos k2).trans ?_
  rw [k0]

theorem rcBarc (a : Nat) : Statement (.rcBarc a) := by
  intro hf
  replace hf : (decide (a < 32)) = true := hf
  simp only [decide_eq_true_eq] at hf
  have hp : apart 0x70000000 [(15, 5)] = true ∧ fit [(15, 5)] [a] = true := ⟨rfl, by simp [fit, hf]⟩
  change WordStatement (.rc, place 0x70000000 [(15, 5)] [a]) (.rcBarc a)
  have kb := place_lt hp 32 rfl
  have k0 := bits_in hp 0 19 15 a rfl rfl
  have k1 := bits_out hp 31 25 56 rfl
  have k2 := bits_out hp 24 20 0 rfl
  have k3 := bits_out hp 14 0 0 rfl
  obtain ⟨wd, hw⟩ : ∃ wd, place 0x70000000 [(15, 5)] [a] = wd := ⟨_, rfl⟩
  rw [hw] at kb k0 k1 k2 k3 ⊢
  clear hp hw
  refine ⟨kb, by unfold rcIsLong; rw [k1]; rfl, fun ext => ?_⟩
  unfold decodeRcWord; rw [k1]
  refine (if_pos ⟨k2, k3⟩).trans ?_
  rw [k0]

theorem rcInj (d a b : Nat) : Statement (.rcInj d a b) := by
  intro hf
  replace hf : (decide (d < 32) && decide (a < 32) && decide (b < 32)) = true := hf
  simp only [Bool.and_eq_true, decide_eq_true_eq] at hf
  have hp : apart 0x72000000 [(20, 5), (15, 5), (10, 5)] = true ∧ fit [(20, 5), (15, 5), (10, 5)] [d, a, b] = true := ⟨rfl, by simp [fit, hf]⟩
  change WordStatement (.rc, place 0x72000000 [(20, 5), (15, 5), (10, 5)] [d, a, b]) (.rcInj d a b)
  have kb := place_lt hp 32 rfl
  have k0 := bits_in hp 0 24 20 d rfl rfl
  have k1 := bits_in hp 1 19 15 a rfl rfl
  have k2 := bits_in hp 2 14 10 b rfl rfl
  have k3 := bits_out hp 31 25 57 rfl
  have k4 := bits_out hp 9 0 0 rfl
  obtain ⟨wd, hw⟩ : ∃ wd, place 0x72000000 [(20, 5), (15, 5), (10, 5)] [d, a, b] = wd := ⟨_, rfl⟩
  rw [hw] at kb k0 k1 k2 k3 k4 ⊢
  clear hp hw
  refine ⟨kb, by unfold rcIsLong; rw [k3]; rfl, fun ext => ?_⟩
  unfold decodeRcWord; rw [k3]
  refine (if_pos k4).trans ?_
  rw [k0, k1, k2]

theorem rcXtr (d a : Nat) : Statement (.rcXtr d a) := by
  intro hf
  replace hf : (decide (d < 32) && decide (a < 32)) = true := hf
  simp only [Bool.and_eq_true, decide_eq_true_eq] at hf
  have hp : apart 0x74000000 [(20, 5), (15, 5)] = true ∧ fit [(20, 5), (15, 5)] [d, a] = true := ⟨rfl, by simp [fit, hf]⟩
  change WordStatement (.rc, place 0x74000000 [(20, 5), (15, 5)] [d, a]) (.rcXtr d a)
  have kb := place_lt hp 32 rfl
  have k0 := bits_in hp 0 24 20 d rfl rfl
  have k1 := bits_in hp 1 19 15 a rfl rfl
  have k2 := bits_out hp 31 25 58 rfl
  have k3 := bits_out hp 14 0 0 rfl
  obtain ⟨wd, hw⟩ : ∃ wd, place 0x74000000 [(20, 5), (15, 5)] [d, a] = wd := ⟨_, rfl⟩
  rw [hw] at kb k0 k1 k2 k3 ⊢
  clear hp hw
  refine ⟨kb, by unfold rcIsLong; rw [k2]; rfl, fun ext => ?_⟩
  unfold decodeRcWord; rw [k2]
  refine (if_pos k3).trans ?_
  rw [k0, k1]

theorem rcCpy (r a b t p : Nat) : Statement (.rcCpy r a b t p) := by
  intro hf
  replace hf : (decide (r < 2) && decide (a < 32) && decide (b < 32) && decide (t < 32) && decide (p < 8)) = true := hf
  simp only [Bool.and_eq_true, decide_eq_true_eq] at hf
  have hp : apart 0x80000000 [(20, 1), (15, 5), (10, 5), (5, 5), (0, 3)] = true ∧ fit [(20, 1), (15, 5), (10, 5), (5, 5), (0, 3)] [r, a, b, t, p] = true := ⟨rfl, by simp [fit, hf]⟩
  change WordStatement (.rc, place 0x80000000 [(20, 1), (15, 5), (10, 5), (5, 5), (0, 3)] [r, a, b, t, p]) (.rcCpy r a b t p)
  have kb := place_lt hp 32 rfl
  have k0 := bits_in hp 0 20 20 r rfl rfl
  have k1 := bits_in hp 1 19 15 a rfl rfl
  have k2 := bits_in hp 2 14 10 b rfl rfl
  have k3 := bits_in hp 3 9 5 t rfl rfl
  have k4 := bits_in hp 4 2 0 p rfl rfl
  have k5 := bits_out hp 31 25 64 rfl
  have k6 := bits_out hp 24 21 0 rfl
  have k7 := bits_out hp 4 3 0 rfl
  obtain ⟨wd, hw⟩ : ∃ wd, place 0x80000000 [(20, 1), (15, 5), (10, 5), (5, 5), (0, 3)] [r, a, b, t, p] = wd := ⟨_, rfl⟩
  rw [hw] at kb k0 k1 k2 k3 k4 k5 k6 k7 ⊢
  clear hp hw
  refine ⟨kb, by unfold rcIsLong; rw [k5]; rfl, fun ext => ?_⟩
  unfold decodeRcWord; rw [k5]
  refine (if_pos ⟨k6, k7⟩).trans ?_
  rw [k0, k1, k2, k3, k4]

theorem rcCpyr (r a b t p : Nat) : Statement (.rcCpyr r a b t p) := by
  intro hf
  replace hf : (decide (r < 2) && decide (a < 32) && decide (b < 32) && decide (t < 32) && decide (p < 8)) = true := hf
  simp only [Bool.and_eq_true, decide_eq_true_eq] at hf
  have hp : apart 0x82000000 [(20, 1), (15, 5), (10, 5), (5, 5), (0, 3)] = true ∧ fit [(20, 1), (15, 5), (10, 5), (5, 5), (0, 3)] [r, a, b, t, p] = true := ⟨rfl, by simp [fit, hf]⟩
  change WordStatement (.rc, place 0x82000000 [(20, 1), (15, 5), (10, 5), (5, 5), (0, 3)] [r, a, b, t, p]) (.rcCpyr r a b t p)
  have kb := place_lt hp 32 rfl
  have k0 := bits_in hp 0 20 20 r rfl rfl
  have k1 := bits_in hp 1 19 15 a rfl rfl
  have k2 := bits_in hp 2 14 10 b rfl rfl
  have k3 := bits_in hp 3 9 5 t rfl rfl
  have k4 := bits_in hp 4 2 0 p rfl rfl
  have k5 := bits_out hp 31 25 65 rfl
  have k6 := bits_out hp 24 21 0 rfl
  have k7 := bits_out hp 4 3 0 rfl
  obtain ⟨wd, hw⟩ : ∃ wd, place 0x82000000 [(20, 1), (15, 5), (10, 5), (5, 5), (0, 3)] [r, a, b, t, p] = wd := ⟨_, rfl⟩
  rw [hw] at kb k0 k1 k2 k3 k4 k5 k6 k7 ⊢
  clear hp hw
  refine ⟨kb, by unfold rcIsLong; rw [k5]; rfl, fun ext => ?_⟩
  unfold decodeRcWord; rw [k5]
  refine (if_pos ⟨k6, k7⟩).trans ?_
  rw [k0, k1, k2, k3, k4]

theorem rcCpyg (a b t p : Nat) : Statement (.rcCpyg a b t p) := by
  intro hf
  replace hf : (decide (a < 32) && decide (b < 32) && decide (t < 32) && decide (p < 8)) = true := hf
  simp only [Bool.and_eq_true, decide_eq_true_eq] at hf
  have hp : apart 0x84000000 [(15, 5), (10, 5), (5, 5), (0, 3)] = true ∧ fit [(15, 5), (10, 5), (5, 5), (0, 3)] [a, b, t, p] = true := ⟨rfl, by simp [fit, hf]⟩
  change WordStatement (.rc, place 0x84000000 [(15, 5), (10, 5), (5, 5), (0, 3)] [a, b, t, p]) (.rcCpyg a b t p)
  have kb := place_lt hp 32 rfl
  have k0 := bits_in hp 0 19 15 a rfl rfl
  have k1 := bits_in hp 1 14 10 b rfl rfl
  have k2 := bits_in hp 2 9 5 t rfl rfl
  have k3 := bits_in hp 3 2 0 p rfl rfl
  have k4 := bits_out hp 31 25 66 rfl
  have k5 := bits_out hp 24 20 0 rfl
  have k6 := bits_out hp 4 3 0 rfl
  obtain ⟨wd, hw⟩ : ∃ wd, place 0x84000000 [(15, 5), (10, 5), (5, 5), (0, 3)] [a, b, t, p] = wd := ⟨_, rfl⟩
  rw [hw] at kb k0 k1 k2 k3 k4 k5 k6 ⊢
  clear hp hw
  refine ⟨kb, by unfold rcIsLong; rw [k4]; rfl, fun ext => ?_⟩
  unfold decodeRcWord; rw [k4]
  refine (if_pos ⟨k5, k6⟩).trans ?_
  rw [k0, k1, k2, k3]

theorem rcCpyx (a b t p : Nat) : Statement (.rcCpyx a b t p) := by
  intro hf
  replace hf : (decide (a < 32) && decide (b < 32) && decide (t < 32) && decide (p < 8)) = true := hf
  simp only [Bool.and_eq_true, decide_eq_true_eq] at hf
  have hp : apart 0x86000000 [(15, 5), (10, 5), (5, 5), (0, 3)] = true ∧ fit [(15, 5), (10, 5), (5, 5), (0, 3)] [a, b, t, p] = true := ⟨rfl, by simp [fit, hf]⟩
  change WordStatement (.rc, place 0x86000000 [(15, 5), (10, 5), (5, 5), (0, 3)] [a, b, t, p]) (.rcCpyx a b t p)
  have kb := place_lt hp 32 rfl
  have k0 := bits_in hp 0 19 15 a rfl rfl
  have k1 := bits_in hp 1 14 10 b rfl rfl
  have k2 := bits_in hp 2 9 5 t rfl rfl
  have k3 := bits_in hp 3 2 0 p rfl rfl
  have k4 := bits_out hp 31 25 67 rfl
  have k5 := bits_out hp 24 20 0 rfl
  have k6 := bits_out hp 4 3 0 rfl
  obtain ⟨wd, hw⟩ : ∃ wd, place 0x86000000 [(15, 5), (10, 5), (5, 5), (0, 3)] [a, b, t, p] = wd := ⟨_, rfl⟩
  rw [hw] at kb k0 k1 k2 k3 k4 k5 k6 ⊢
  clear hp hw
  refine ⟨kb, by unfold rcIsLong; rw [k4]; rfl, fun ext => ?_⟩
  unfold decodeRcWord; rw [k4]
  refine (if_pos ⟨k5, k6⟩).trans ?_
  rw [k0, k1, k2, k3]

theorem rcCpys (a b t p : Nat) : Statement (.rcCpys a b t p) := by
  intro hf
  replace hf : (decide (a < 32) && decide (b < 32) && decide (t < 32) && decide (p < 8)) = true := hf
  simp only [Bool.and_eq_true, decide_eq_true_eq] at hf
  have hp : apart 0x88100000 [(15, 5), (10, 5), (5, 5), (0, 3)] = true ∧ fit [(15, 5), (10, 5), (5, 5), (0, 3)] [a, b, t, p] = true := ⟨rfl, by simp [fit, hf]⟩
  change WordStatement (.rc, place 0x88100000 [(15, 5), (10, 5), (5, 5), (0, 3)] [a, b, t, p]) (.rcCpys a b t p)
  have kb := place_lt hp 32 rfl
  have k0 := bits_in hp 0 19 15 a rfl rfl
  have k1 := bits_in hp 1 14 10 b rfl rfl
  have k2 := bits_in hp 2 9 5 t rfl rfl
  have k3 := bits_in hp 3 2 0 p rfl rfl
  have k4 := bits_out hp 31 25 68 rfl
  have k5 := bits_out hp 24 20 1 rfl
  have k6 := bits_out hp 4 3 0 rfl
  obtain ⟨wd, hw⟩ : ∃ wd, place 0x88100000 [(15, 5), (10, 5), (5, 5), (0, 3)] [a, b, t, p] = wd := ⟨_, rfl⟩
  rw [hw] at kb k0 k1 k2 k3 k4 k5 k6 ⊢
  clear hp hw
  refine ⟨kb, by unfold rcIsLong; rw [k4]; rfl, fun ext => ?_⟩
  unfold decodeRcWord; rw [k4]
  refine (if_pos ⟨k5, k6⟩).trans ?_
  rw [k0, k1, k2, k3]

theorem rcTbi (a t : Nat) : Statement (.rcTbi a t) := by
  intro hf
  replace hf : (decide (a < 32) && decide (t < 32)) = true := hf
  simp only [Bool.and_eq_true, decide_eq_true_eq] at hf
  have hp : apart 0x8A000000 [(15, 5), (5, 5)] = true ∧ fit [(15, 5), (5, 5)] [a, t] = true := ⟨rfl, by simp [fit, hf]⟩
  change WordStatement (.rc, place 0x8A000000 [(15, 5), (5, 5)] [a, t]) (.rcTbi a t)
  have kb := place_lt hp 32 rfl
  have k0 := bits_in hp 0 19 15 a rfl rfl
  have k1 := bits_in hp 1 9 5 t rfl rfl
  have k2 := bits_out hp 31 25 69 rfl
  have k3 := bits_out hp 24 20 0 rfl
  have k4 := bits_out hp 14 10 0 rfl
  have k5 := bits_out hp 4 0 0 rfl
  obtain ⟨wd, hw⟩ : ∃ wd, place 0x8A000000 [(15, 5), (5, 5)] [a, t] = wd := ⟨_, rfl⟩
  rw [hw] at kb k0 k1 k2 k3 k4 k5 ⊢
  clear hp hw
  refine ⟨kb, by unfold rcIsLong; rw [k2]; rfl, fun ext => ?_⟩
  unfold decodeRcWord; rw [k2]
  refine (if_pos ⟨k3, k4, k5⟩).trans ?_
  rw [k0, k1]

theorem rcTbw (t : Nat) : Statement (.rcTbw t) := by
  intro hf
  replace hf : (decide (t < 32)) = true := hf
  simp only [decide_eq_true_eq] at hf
  have hp : apart 0x8C000000 [(5, 5)] = true ∧ fit [(5, 5)] [t] = true := ⟨rfl, by simp [fit, hf]⟩
  change WordStatement (.rc, place 0x8C000000 [(5, 5)] [t]) (.rcTbw t)
  have kb := place_lt hp 32 rfl
  have k0 := bits_in hp 0 9 5 t rfl rfl
  have k1 := bits_out hp 31 25 70 rfl
  have k2 := bits_out hp 24 10 0 rfl
  have k3 := bits_out hp 4 0 0 rfl
  obtain ⟨wd, hw⟩ : ∃ wd, place 0x8C000000 [(5, 5)] [t] = wd := ⟨_, rfl⟩
  rw [hw] at kb k0 k1 k2 k3 ⊢
  clear hp hw
  refine ⟨kb, by unfold rcIsLong; rw [k1]; rfl, fun ext => ?_⟩
  unfold decodeRcWord; rw [k1]
  refine (if_pos ⟨k2, k3⟩).trans ?_
  rw [k0]

theorem rcTbex (a t : Nat) : Statement (.rcTbex a t) := by
  intro hf
  replace hf : (decide (a < 32) && decide (t < 32)) = true := hf
  simp only [Bool.and_eq_true, decide_eq_true_eq] at hf
  have hp : apart 0x8E000000 [(15, 5), (5, 5)] = true ∧ fit [(15, 5), (5, 5)] [a, t] = true := ⟨rfl, by simp [fit, hf]⟩
  change WordStatement (.rc, place 0x8E000000 [(15, 5), (5, 5)] [a, t]) (.rcTbex a t)
  have kb := place_lt hp 32 rfl
  have k0 := bits_in hp 0 19 15 a rfl rfl
  have k1 := bits_in hp 1 9 5 t rfl rfl
  have k2 := bits_out hp 31 25 71 rfl
  have k3 := bits_out hp 24 20 0 rfl
  have k4 := bits_out hp 14 10 0 rfl
  have k5 := bits_out hp 4 0 0 rfl
  obtain ⟨wd, hw⟩ : ∃ wd, place 0x8E000000 [(15, 5), (5, 5)] [a, t] = wd := ⟨_, rfl⟩
  rw [hw] at kb k0 k1 k2 k3 k4 k5 ⊢
  clear hp hw
  refine ⟨kb, by unfold rcIsLong; rw [k2]; rfl, fun ext => ?_⟩
  unfold decodeRcWord; rw [k2]
  refine (if_pos ⟨k3, k4, k5⟩).trans ?_
  rw [k0, k1]

theorem rcShd (d p : Nat) : Statement (.rcShd d p) := by
  intro hf
  replace hf : (decide (d < 32) && decide (p < 8)) = true := hf
  simp only [Bool.and_eq_true, decide_eq_true_eq] at hf
  have hp : apart 0x900003E0 [(20, 5), (0, 3)] = true ∧ fit [(20, 5), (0, 3)] [d, p] = true := ⟨rfl, by simp [fit, hf]⟩
  change WordStatement (.rc, place 0x900003E0 [(20, 5), (0, 3)] [d, p]) (.rcShd d p)
  have kb := place_lt hp 32 rfl
  have k0 := bits_in hp 0 24 20 d rfl rfl
  have k1 := bits_in hp 1 2 0 p rfl rfl
  have k2 := bits_out hp 31 25 72 rfl
  have k3 := bits_out hp 19 3 124 rfl
  obtain ⟨wd, hw⟩ : ∃ wd, place 0x900003E0 [(20, 5), (0, 3)] [d, p] = wd := ⟨_, rfl⟩
  rw [hw] at kb k0 k1 k2 k3 ⊢
  clear hp hw
  refine ⟨kb, by unfold rcIsLong; rw [k2]; rfl, fun ext => ?_⟩
  unfold decodeRcWord; rw [k2]
  refine (if_pos k3).trans ?_
  rw [k0, k1]

theorem rcPub (d p : Nat) : Statement (.rcPub d p) := by
  intro hf
  replace hf : (decide (d < 32) && decide (p < 8)) = true := hf
  simp only [Bool.and_eq_true, decide_eq_true_eq] at hf
  have hp : apart 0x920003E0 [(20, 5), (0, 3)] = true ∧ fit [(20, 5), (0, 3)] [d, p] = true := ⟨rfl, by simp [fit, hf]⟩
  change WordStatement (.rc, place 0x920003E0 [(20, 5), (0, 3)] [d, p]) (.rcPub d p)
  have kb := place_lt hp 32 rfl
  have k0 := bits_in hp 0 24 20 d rfl rfl
  have k1 := bits_in hp 1 2 0 p rfl rfl
  have k2 := bits_out hp 31 25 73 rfl
  have k3 := bits_out hp 19 3 124 rfl
  obtain ⟨wd, hw⟩ : ∃ wd, place 0x920003E0 [(20, 5), (0, 3)] [d, p] = wd := ⟨_, rfl⟩
  rw [hw] at kb k0 k1 k2 k3 ⊢
  clear hp hw
  refine ⟨kb, by unfold rcIsLong; rw [k2]; rfl, fun ext => ?_⟩
  unfold decodeRcWord; rw [k2]
  refine (if_pos k3).trans ?_
  rw [k0, k1]

theorem rcDisc (p : Nat) : Statement (.rcDisc p) := by
  intro hf
  replace hf : (decide (p < 8)) = true := hf
  simp only [decide_eq_true_eq] at hf
  have hp : apart 0x940003E0 [(0, 3)] = true ∧ fit [(0, 3)] [p] = true := ⟨rfl, by simp [fit, hf]⟩
  change WordStatement (.rc, place 0x940003E0 [(0, 3)] [p]) (.rcDisc p)
  have kb := place_lt hp 32 rfl
  have k0 := bits_in hp 0 2 0 p rfl rfl
  have k1 := bits_out hp 31 25 74 rfl
  have k2 := bits_out hp 24 3 124 rfl
  obtain ⟨wd, hw⟩ : ∃ wd, place 0x940003E0 [(0, 3)] [p] = wd := ⟨_, rfl⟩
  rw [hw] at kb k0 k1 k2 ⊢
  clear hp hw
  refine ⟨kb, by unfold rcIsLong; rw [k1]; rfl, fun ext => ?_⟩
  unfold decodeRcWord; rw [k1]
  refine (if_pos k2).trans ?_
  rw [k0]

theorem rcCpst (d t : Nat) : Statement (.rcCpst d t) := by
  intro hf
  replace hf : (decide (d < 32) && decide (t < 32)) = true := hf
  simp only [Bool.and_eq_true, decide_eq_true_eq] at hf
  have hp : apart 0x96000000 [(20, 5), (5, 5)] = true ∧ fit [(20, 5), (5, 5)] [d, t] = true := ⟨rfl, by simp [fit, hf]⟩
  change WordStatement (.rc, place 0x96000000 [(20, 5), (5, 5)] [d, t]) (.rcCpst d t)
  have kb := place_lt hp 32 rfl
  have k0 := bits_in hp 0 24 20 d rfl rfl
  have k1 := bits_in hp 1 9 5 t rfl rfl
  have k2 := bits_out hp 31 25 75 rfl
  have k3 := bits_out hp 19 10 0 rfl
  have k4 := bits_out hp 4 0 0 rfl
  obtain ⟨wd, hw⟩ : ∃ wd, place 0x96000000 [(20, 5), (5, 5)] [d, t] = wd := ⟨_, rfl⟩
  rw [hw] at kb k0 k1 k2 k3 k4 ⊢
  clear hp hw
  refine ⟨kb, by unfold rcIsLong; rw [k2]; rfl, fun ext => ?_⟩
  unfold decodeRcWord; rw [k2]
  refine (if_pos ⟨k3, k4⟩).trans ?_
  rw [k0, k1]

theorem rcNdsub (d a : Nat) : Statement (.rcNdsub d a) := by
  intro hf
  replace hf : (decide (d < 32) && decide (a < 32)) = true := hf
  simp only [Bool.and_eq_true, decide_eq_true_eq] at hf
  have hp : apart 0xA0000000 [(20, 5), (15, 5)] = true ∧ fit [(20, 5), (15, 5)] [d, a] = true := ⟨rfl, by simp [fit, hf]⟩
  change WordStatement (.rc, place 0xA0000000 [(20, 5), (15, 5)] [d, a]) (.rcNdsub d a)
  have kb := place_lt hp 32 rfl
  have k0 := bits_in hp 0 24 20 d rfl rfl
  have k1 := bits_in hp 1 19 15 a rfl rfl
  have k2 := bits_out hp 31 25 80 rfl
  have k3 := bits_out hp 14 0 0 rfl
  obtain ⟨wd, hw⟩ : ∃ wd, place 0xA0000000 [(20, 5), (15, 5)] [d, a] = wd := ⟨_, rfl⟩
  rw [hw] at kb k0 k1 k2 k3 ⊢
  clear hp hw
  refine ⟨kb, by unfold rcIsLong; rw [k2]; rfl, fun ext => ?_⟩
  unfold decodeRcWord; rw [k2]
  refine (if_pos k3).trans ?_
  rw [k0, k1]

theorem rcNddep (d a b : Nat) : Statement (.rcNddep d a b) := by
  intro hf
  replace hf : (decide (d < 32) && decide (a < 32) && decide (b < 32)) = true := hf
  simp only [Bool.and_eq_true, decide_eq_true_eq] at hf
  have hp : apart 0xA2000000 [(20, 5), (15, 5), (10, 5)] = true ∧ fit [(20, 5), (15, 5), (10, 5)] [d, a, b] = true := ⟨rfl, by simp [fit, hf]⟩
  change WordStatement (.rc, place 0xA2000000 [(20, 5), (15, 5), (10, 5)] [d, a, b]) (.rcNddep d a b)
  have kb := place_lt hp 32 rfl
  have k0 := bits_in hp 0 24 20 d rfl rfl
  have k1 := bits_in hp 1 19 15 a rfl rfl
  have k2 := bits_in hp 2 14 10 b rfl rfl
  have k3 := bits_out hp 31 25 81 rfl
  have k4 := bits_out hp 9 0 0 rfl
  obtain ⟨wd, hw⟩ : ∃ wd, place 0xA2000000 [(20, 5), (15, 5), (10, 5)] [d, a, b] = wd := ⟨_, rfl⟩
  rw [hw] at kb k0 k1 k2 k3 k4 ⊢
  clear hp hw
  refine ⟨kb, by unfold rcIsLong; rw [k3]; rfl, fun ext => ?_⟩
  unfold decodeRcWord; rw [k3]
  refine (if_pos k4).trans ?_
  rw [k0, k1, k2]

theorem rcNdwait (d a : Nat) : Statement (.rcNdwait d a) := by
  intro hf
  replace hf : (decide (d < 32) && decide (a < 32)) = true := hf
  simp only [Bool.and_eq_true, decide_eq_true_eq] at hf
  have hp : apart 0xA4000000 [(20, 5), (15, 5)] = true ∧ fit [(20, 5), (15, 5)] [d, a] = true := ⟨rfl, by simp [fit, hf]⟩
  change WordStatement (.rc, place 0xA4000000 [(20, 5), (15, 5)] [d, a]) (.rcNdwait d a)
  have kb := place_lt hp 32 rfl
  have k0 := bits_in hp 0 24 20 d rfl rfl
  have k1 := bits_in hp 1 19 15 a rfl rfl
  have k2 := bits_out hp 31 25 82 rfl
  have k3 := bits_out hp 14 0 0 rfl
  obtain ⟨wd, hw⟩ : ∃ wd, place 0xA4000000 [(20, 5), (15, 5)] [d, a] = wd := ⟨_, rfl⟩
  rw [hw] at kb k0 k1 k2 k3 ⊢
  clear hp hw
  refine ⟨kb, by unfold rcIsLong; rw [k2]; rfl, fun ext => ?_⟩
  unfold decodeRcWord; rw [k2]
  refine (if_pos k3).trans ?_
  rw [k0, k1]

theorem rcNdstat (d a : Nat) : Statement (.rcNdstat d a) := by
  intro hf
  replace hf : (decide (d < 32) && decide (a < 32)) = true := hf
  simp only [Bool.and_eq_true, decide_eq_true_eq] at hf
  have hp : apart 0xA6000000 [(20, 5), (15, 5)] = true ∧ fit [(20, 5), (15, 5)] [d, a] = true := ⟨rfl, by simp [fit, hf]⟩
  change WordStatement (.rc, place 0xA6000000 [(20, 5), (15, 5)] [d, a]) (.rcNdstat d a)
  have kb := place_lt hp 32 rfl
  have k0 := bits_in hp 0 24 20 d rfl rfl
  have k1 := bits_in hp 1 19 15 a rfl rfl
  have k2 := bits_out hp 31 25 83 rfl
  have k3 := bits_out hp 14 0 0 rfl
  obtain ⟨wd, hw⟩ : ∃ wd, place 0xA6000000 [(20, 5), (15, 5)] [d, a] = wd := ⟨_, rfl⟩
  rw [hw] at kb k0 k1 k2 k3 ⊢
  clear hp hw
  refine ⟨kb, by unfold rcIsLong; rw [k2]; rfl, fun ext => ?_⟩
  unfold decodeRcWord; rw [k2]
  refine (if_pos k3).trans ?_
  rw [k0, k1]

theorem rcComm (d a : Nat) : Statement (.rcComm d a) := by
  intro hf
  replace hf : (decide (d < 32) && decide (a < 32)) = true := hf
  simp only [Bool.and_eq_true, decide_eq_true_eq] at hf
  have hp : apart 0xA8000000 [(20, 5), (15, 5)] = true ∧ fit [(20, 5), (15, 5)] [d, a] = true := ⟨rfl, by simp [fit, hf]⟩
  change WordStatement (.rc, place 0xA8000000 [(20, 5), (15, 5)] [d, a]) (.rcComm d a)
  have kb := place_lt hp 32 rfl
  have k0 := bits_in hp 0 24 20 d rfl rfl
  have k1 := bits_in hp 1 19 15 a rfl rfl
  have k2 := bits_out hp 31 25 84 rfl
  have k3 := bits_out hp 14 0 0 rfl
  obtain ⟨wd, hw⟩ : ∃ wd, place 0xA8000000 [(20, 5), (15, 5)] [d, a] = wd := ⟨_, rfl⟩
  rw [hw] at kb k0 k1 k2 k3 ⊢
  clear hp hw
  refine ⟨kb, by unfold rcIsLong; rw [k2]; rfl, fun ext => ?_⟩
  unfold decodeRcWord; rw [k2]
  refine (if_pos k3).trans ?_
  rw [k0, k1]

theorem rcColl (d a b p o : Nat) : Statement (.rcColl d a b p o) := by
  intro hf
  replace hf : (decide (d < 32) && decide (a < 32) && decide (b < 32) && decide (p < 16) && decide (o < 16)) = true := hf
  simp only [Bool.and_eq_true, decide_eq_true_eq] at hf
  have hp : apart 0xAA000000 [(20, 5), (15, 5), (10, 5), (6, 4), (2, 4)] = true ∧ fit [(20, 5), (15, 5), (10, 5), (6, 4), (2, 4)] [d, a, b, p, o] = true := ⟨rfl, by simp [fit, hf]⟩
  change WordStatement (.rc, place 0xAA000000 [(20, 5), (15, 5), (10, 5), (6, 4), (2, 4)] [d, a, b, p, o]) (.rcColl d a b p o)
  have kb := place_lt hp 32 rfl
  have k0 := bits_in hp 0 24 20 d rfl rfl
  have k1 := bits_in hp 1 19 15 a rfl rfl
  have k2 := bits_in hp 2 14 10 b rfl rfl
  have k3 := bits_in hp 3 9 6 p rfl rfl
  have k4 := bits_in hp 4 5 2 o rfl rfl
  have k5 := bits_out hp 31 25 85 rfl
  have k6 := bits_out hp 1 0 0 rfl
  obtain ⟨wd, hw⟩ : ∃ wd, place 0xAA000000 [(20, 5), (15, 5), (10, 5), (6, 4), (2, 4)] [d, a, b, p, o] = wd := ⟨_, rfl⟩
  rw [hw] at kb k0 k1 k2 k3 k4 k5 k6 ⊢
  clear hp hw
  refine ⟨kb, by unfold rcIsLong; rw [k5]; rfl, fun ext => ?_⟩
  unfold decodeRcWord; rw [k5]
  refine (if_pos k6).trans ?_
  rw [k0, k1, k2, k3, k4]

theorem rcCwait (d a : Nat) : Statement (.rcCwait d a) := by
  intro hf
  replace hf : (decide (d < 32) && decide (a < 32)) = true := hf
  simp only [Bool.and_eq_true, decide_eq_true_eq] at hf
  have hp : apart 0xAC000000 [(20, 5), (15, 5)] = true ∧ fit [(20, 5), (15, 5)] [d, a] = true := ⟨rfl, by simp [fit, hf]⟩
  change WordStatement (.rc, place 0xAC000000 [(20, 5), (15, 5)] [d, a]) (.rcCwait d a)
  have kb := place_lt hp 32 rfl
  have k0 := bits_in hp 0 24 20 d rfl rfl
  have k1 := bits_in hp 1 19 15 a rfl rfl
  have k2 := bits_out hp 31 25 86 rfl
  have k3 := bits_out hp 14 0 0 rfl
  obtain ⟨wd, hw⟩ : ∃ wd, place 0xAC000000 [(20, 5), (15, 5)] [d, a] = wd := ⟨_, rfl⟩
  rw [hw] at kb k0 k1 k2 k3 ⊢
  clear hp hw
  refine ⟨kb, by unfold rcIsLong; rw [k2]; rfl, fun ext => ?_⟩
  unfold decodeRcWord; rw [k2]
  refine (if_pos k3).trans ?_
  rw [k0, k1]

theorem rcCstat (d a : Nat) : Statement (.rcCstat d a) := by
  intro hf
  replace hf : (decide (d < 32) && decide (a < 32)) = true := hf
  simp only [Bool.and_eq_true, decide_eq_true_eq] at hf
  have hp : apart 0xAE000000 [(20, 5), (15, 5)] = true ∧ fit [(20, 5), (15, 5)] [d, a] = true := ⟨rfl, by simp [fit, hf]⟩
  change WordStatement (.rc, place 0xAE000000 [(20, 5), (15, 5)] [d, a]) (.rcCstat d a)
  have kb := place_lt hp 32 rfl
  have k0 := bits_in hp 0 24 20 d rfl rfl
  have k1 := bits_in hp 1 19 15 a rfl rfl
  have k2 := bits_out hp 31 25 87 rfl
  have k3 := bits_out hp 14 0 0 rfl
  obtain ⟨wd, hw⟩ : ∃ wd, place 0xAE000000 [(20, 5), (15, 5)] [d, a] = wd := ⟨_, rfl⟩
  rw [hw] at kb k0 k1 k2 k3 ⊢
  clear hp hw
  refine ⟨kb, by unfold rcIsLong; rw [k2]; rfl, fun ext => ?_⟩
  unfold decodeRcWord; rw [k2]
  refine (if_pos k3).trans ?_
  rw [k0, k1]

theorem rcCsel (a b : Nat) : Statement (.rcCsel a b) := by
  intro hf
  replace hf : (decide (a < 32) && decide (b < 32)) = true := hf
  simp only [Bool.and_eq_true, decide_eq_true_eq] at hf
  have hp : apart 0xB0000000 [(15, 5), (10, 5)] = true ∧ fit [(15, 5), (10, 5)] [a, b] = true := ⟨rfl, by simp [fit, hf]⟩
  change WordStatement (.rc, place 0xB0000000 [(15, 5), (10, 5)] [a, b]) (.rcCsel a b)
  have kb := place_lt hp 32 rfl
  have k0 := bits_in hp 0 19 15 a rfl rfl
  have k1 := bits_in hp 1 14 10 b rfl rfl
  have k2 := bits_out hp 31 25 88 rfl
  have k3 := bits_out hp 24 20 0 rfl
  have k4 := bits_out hp 9 0 0 rfl
  obtain ⟨wd, hw⟩ : ∃ wd, place 0xB0000000 [(15, 5), (10, 5)] [a, b] = wd := ⟨_, rfl⟩
  rw [hw] at kb k0 k1 k2 k3 k4 ⊢
  clear hp hw
  refine ⟨kb, by unfold rcIsLong; rw [k2]; rfl, fun ext => ?_⟩
  unfold decodeRcWord; rw [k2]
  refine (if_pos ⟨k3, k4⟩).trans ?_
  rw [k0, k1]

theorem rcLi (d ext : Nat) : Statement (.rcLi d ext) := by
  intro hf
  replace hf : (decide (d < 32) && decide (ext < 4294967296)) = true := hf
  simp only [Bool.and_eq_true, decide_eq_true_eq] at hf
  have hp : apart 0xE0000000 [(20, 5), (32, 32)] = true ∧ fit [(20, 5), (32, 32)] [d, ext] = true := ⟨rfl, by simp [fit, hf]⟩
  change WordStatement (.long, place 0xE0000000 [(20, 5), (32, 32)] [d, ext]) (.rcLi d ext)
  have kb := place_lt hp 64 rfl
  have hq := long_ext hp 1 rfl rfl ext rfl
  have k0 := bits_out hp 31 25 112 rfl
  have k1 := bits_out hp 19 0 0 rfl
  have k2 := bits_in hp 0 24 20 d rfl rfl
  obtain ⟨wd, hw⟩ : ∃ wd, place 0xE0000000 [(20, 5), (32, 32)] [d, ext] = wd := ⟨_, rfl⟩
  rw [hw] at kb hq k0 k1 k2 ⊢
  clear hp hw
  refine ⟨kb, by unfold rcIsLong; rw [bits_low _ 31 25 rfl, k0]; rfl, ?_⟩
  unfold decodeRcWord; rw [hq, bits_low _ 31 25 rfl, k0]
  refine (if_pos ((bits_low _ 19 0 rfl).trans k1)).trans ?_
  rw [bits_low _ 24 20 rfl, k2]

theorem rcLih (d ext : Nat) : Statement (.rcLih d ext) := by
  intro hf
  replace hf : (decide (d < 32) && decide (ext < 4294967296)) = true := hf
  simp only [Bool.and_eq_true, decide_eq_true_eq] at hf
  have hp : apart 0xE2000000 [(20, 5), (32, 32)] = true ∧ fit [(20, 5), (32, 32)] [d, ext] = true := ⟨rfl, by simp [fit, hf]⟩
  change WordStatement (.long, place 0xE2000000 [(20, 5), (32, 32)] [d, ext]) (.rcLih d ext)
  have kb := place_lt hp 64 rfl
  have hq := long_ext hp 1 rfl rfl ext rfl
  have k0 := bits_out hp 31 25 113 rfl
  have k1 := bits_out hp 19 0 0 rfl
  have k2 := bits_in hp 0 24 20 d rfl rfl
  obtain ⟨wd, hw⟩ : ∃ wd, place 0xE2000000 [(20, 5), (32, 32)] [d, ext] = wd := ⟨_, rfl⟩
  rw [hw] at kb hq k0 k1 k2 ⊢
  clear hp hw
  refine ⟨kb, by unfold rcIsLong; rw [bits_low _ 31 25 rfl, k0]; rfl, ?_⟩
  unfold decodeRcWord; rw [hq, bits_low _ 31 25 rfl, k0]
  refine (if_pos ((bits_low _ 19 0 rfl).trans k1)).trans ?_
  rw [bits_low _ 24 20 rfl, k2]

theorem rcJl (d ext : Nat) : Statement (.rcJl d ext) := by
  intro hf
  replace hf : (decide (d < 32) && decide (ext < 4294967296)) = true := hf
  simp only [Bool.and_eq_true, decide_eq_true_eq] at hf
  have hp : apart 0xE4000000 [(20, 5), (32, 32)] = true ∧ fit [(20, 5), (32, 32)] [d, ext] = true := ⟨rfl, by simp [fit, hf]⟩
  change WordStatement (.long, place 0xE4000000 [(20, 5), (32, 32)] [d, ext]) (.rcJl d ext)
  have kb := place_lt hp 64 rfl
  have hq := long_ext hp 1 rfl rfl ext rfl
  have k0 := bits_out hp 31 25 114 rfl
  have k1 := bits_out hp 19 0 0 rfl
  have k2 := bits_in hp 0 24 20 d rfl rfl
  obtain ⟨wd, hw⟩ : ∃ wd, place 0xE4000000 [(20, 5), (32, 32)] [d, ext] = wd := ⟨_, rfl⟩
  rw [hw] at kb hq k0 k1 k2 ⊢
  clear hp hw
  refine ⟨kb, by unfold rcIsLong; rw [bits_low _ 31 25 rfl, k0]; rfl, ?_⟩
  unfold decodeRcWord; rw [hq, bits_low _ 31 25 rfl, k0]
  refine (if_pos ((bits_low _ 19 0 rfl).trans k1)).trans ?_
  rw [bits_low _ 24 20 rfl, k2]

theorem rcMtp (a b f : Nat) : Statement (.rcMtp a b f) := by
  intro hf
  replace hf : (decide (a < 32) && decide (b < 32) && decide (f < 1024)) = true := hf
  simp only [Bool.and_eq_true, decide_eq_true_eq] at hf
  have hp : apart 0xC0000000 [(15, 5), (10, 5), (0, 10)] = true ∧ fit [(15, 5), (10, 5), (0, 10)] [a, b, f] = true := ⟨rfl, by simp [fit, hf]⟩
  change WordStatement (.rc, place 0xC0000000 [(15, 5), (10, 5), (0, 10)] [a, b, f]) (.rcMtp a b f)
  have kb := place_lt hp 32 rfl
  have k0 := bits_in hp 0 19 15 a rfl rfl
  have k1 := bits_in hp 1 14 10 b rfl rfl
  have k2 := bits_in hp 2 9 0 f rfl rfl
  have k3 := bits_out hp 31 25 96 rfl
  have k4 := bits_out hp 24 20 0 rfl
  obtain ⟨wd, hw⟩ : ∃ wd, place 0xC0000000 [(15, 5), (10, 5), (0, 10)] [a, b, f] = wd := ⟨_, rfl⟩
  rw [hw] at kb k0 k1 k2 k3 k4 ⊢
  clear hp hw
  refine ⟨kb, by unfold rcIsLong; rw [k3]; rfl, fun ext => ?_⟩
  unfold decodeRcWord; rw [k3]
  refine (if_pos k4).trans ?_
  rw [k0, k1, k2]

theorem rcMfp (d a f : Nat) : Statement (.rcMfp d a f) := by
  intro hf
  replace hf : (decide (d < 32) && decide (a < 32) && decide (f < 1024)) = true := hf
  simp only [Bool.and_eq_true, decide_eq_true_eq] at hf
  have hp : apart 0xC2000000 [(20, 5), (15, 5), (0, 10)] = true ∧ fit [(20, 5), (15, 5), (0, 10)] [d, a, f] = true := ⟨rfl, by simp [fit, hf]⟩
  change WordStatement (.rc, place 0xC2000000 [(20, 5), (15, 5), (0, 10)] [d, a, f]) (.rcMfp d a f)
  have kb := place_lt hp 32 rfl
  have k0 := bits_in hp 0 24 20 d rfl rfl
  have k1 := bits_in hp 1 19 15 a rfl rfl
  have k2 := bits_in hp 2 9 0 f rfl rfl
  have k3 := bits_out hp 31 25 97 rfl
  have k4 := bits_out hp 14 10 0 rfl
  obtain ⟨wd, hw⟩ : ∃ wd, place 0xC2000000 [(20, 5), (15, 5), (0, 10)] [d, a, f] = wd := ⟨_, rfl⟩
  rw [hw] at kb k0 k1 k2 k3 k4 ⊢
  clear hp hw
  refine ⟨kb, by unfold rcIsLong; rw [k3]; rfl, fun ext => ?_⟩
  unfold decodeRcWord; rw [k3]
  refine (if_pos k4).trans ?_
  rw [k0, k1, k2]

theorem rcTlbi (a : Nat) : Statement (.rcTlbi a) := by
  intro hf
  replace hf : (decide (a < 32)) = true := hf
  simp only [decide_eq_true_eq] at hf
  have hp : apart 0xC4000000 [(15, 5)] = true ∧ fit [(15, 5)] [a] = true := ⟨rfl, by simp [fit, hf]⟩
  change WordStatement (.rc, place 0xC4000000 [(15, 5)] [a]) (.rcTlbi a)
  have kb := place_lt hp 32 rfl
  have k0 := bits_in hp 0 19 15 a rfl rfl
  have k1 := bits_out hp 31 25 98 rfl
  have k2 := bits_out hp 24 20 0 rfl
  have k3 := bits_out hp 14 0 0 rfl
  obtain ⟨wd, hw⟩ : ∃ wd, place 0xC4000000 [(15, 5)] [a] = wd := ⟨_, rfl⟩
  rw [hw] at kb k0 k1 k2 k3 ⊢
  clear hp hw
  refine ⟨kb, by unfold rcIsLong; rw [k1]; rfl, fun ext => ?_⟩
  unfold decodeRcWord; rw [k1]
  refine (if_pos ⟨k2, k3⟩).trans ?_
  rw [k0]

theorem rcTlbiRange (a b : Nat) : Statement (.rcTlbiRange a b) := by
  intro hf
  replace hf : (decide (a < 32) && decide (b < 32)) = true := hf
  simp only [Bool.and_eq_true, decide_eq_true_eq] at hf
  have hp : apart 0xC4000001 [(15, 5), (10, 5)] = true ∧ fit [(15, 5), (10, 5)] [a, b] = true := ⟨rfl, by simp [fit, hf]⟩
  change WordStatement (.rc, place 0xC4000001 [(15, 5), (10, 5)] [a, b]) (.rcTlbiRange a b)
  have kb := place_lt hp 32 rfl
  have k0 := bits_in hp 0 19 15 a rfl rfl
  have k1 := bits_in hp 1 14 10 b rfl rfl
  have k2 := bits_out hp 31 25 98 rfl
  have k3 := bits_out hp 9 0 1 rfl
  have k4 := bits_out hp 24 20 0 rfl
  obtain ⟨wd, hw⟩ : ∃ wd, place 0xC4000001 [(15, 5), (10, 5)] [a, b] = wd := ⟨_, rfl⟩
  rw [hw] at kb k0 k1 k2 k3 k4 ⊢
  clear hp hw
  refine ⟨kb, by unfold rcIsLong; rw [k2]; rfl, fun ext => ?_⟩
  unfold decodeRcWord; rw [k2]
  refine (if_neg (fun k => absurd (k3.symm.trans (bits_part k.2 9 rfl)) (by decide))).trans ?_
  refine (if_pos ⟨k4, k3⟩).trans ?_
  rw [k0, k1]

theorem rcCtxs (d a b : Nat) : Statement (.rcCtxs d a b) := by
  intro hf
  replace hf : (decide (d < 32) && decide (a < 32) && decide (b < 32)) = true := hf
  simp only [Bool.and_eq_true, decide_eq_true_eq] at hf
  have hp : apart 0xC6000000 [(20, 5), (15, 5), (10, 5)] = true ∧ fit [(20, 5), (15, 5), (10, 5)] [d, a, b] = true := ⟨rfl, by simp [fit, hf]⟩
  change WordStatement (.rc, place 0xC6000000 [(20, 5), (15, 5), (10, 5)] [d, a, b]) (.rcCtxs d a b)
  have kb := place_lt hp 32 rfl
  have k0 := bits_in hp 0 24 20 d rfl rfl
  have k1 := bits_in hp 1 19 15 a rfl rfl
  have k2 := bits_in hp 2 14 10 b rfl rfl
  have k3 := bits_out hp 31 25 99 rfl
  have k4 := bits_out hp 9 0 0 rfl
  obtain ⟨wd, hw⟩ : ∃ wd, place 0xC6000000 [(20, 5), (15, 5), (10, 5)] [d, a, b] = wd := ⟨_, rfl⟩
  rw [hw] at kb k0 k1 k2 k3 k4 ⊢
  clear hp hw
  refine ⟨kb, by unfold rcIsLong; rw [k3]; rfl, fun ext => ?_⟩
  unfold decodeRcWord; rw [k3]
  refine (if_pos k4).trans ?_
  rw [k0, k1, k2]

theorem rcCtxr (d a b : Nat) : Statement (.rcCtxr d a b) := by
  intro hf
  replace hf : (decide (d < 32) && decide (a < 32) && decide (b < 32)) = true := hf
  simp only [Bool.and_eq_true, decide_eq_true_eq] at hf
  have hp : apart 0xC8000000 [(20, 5), (15, 5), (10, 5)] = true ∧ fit [(20, 5), (15, 5), (10, 5)] [d, a, b] = true := ⟨rfl, by simp [fit, hf]⟩
  change WordStatement (.rc, place 0xC8000000 [(20, 5), (15, 5), (10, 5)] [d, a, b]) (.rcCtxr d a b)
  have kb := place_lt hp 32 rfl
  have k0 := bits_in hp 0 24 20 d rfl rfl
  have k1 := bits_in hp 1 19 15 a rfl rfl
  have k2 := bits_in hp 2 14 10 b rfl rfl
  have k3 := bits_out hp 31 25 100 rfl
  have k4 := bits_out hp 9 0 0 rfl
  obtain ⟨wd, hw⟩ : ∃ wd, place 0xC8000000 [(20, 5), (15, 5), (10, 5)] [d, a, b] = wd := ⟨_, rfl⟩
  rw [hw] at kb k0 k1 k2 k3 k4 ⊢
  clear hp hw
  refine ⟨kb, by unfold rcIsLong; rw [k3]; rfl, fun ext => ?_⟩
  unfold decodeRcWord; rw [k3]
  refine (if_pos k4).trans ?_
  rw [k0, k1, k2]

theorem rcKill (a : Nat) : Statement (.rcKill a) := by
  intro hf
  replace hf : (decide (a < 32)) = true := hf
  simp only [decide_eq_true_eq] at hf
  have hp : apart 0xCA000000 [(15, 5)] = true ∧ fit [(15, 5)] [a] = true := ⟨rfl, by simp [fit, hf]⟩
  change WordStatement (.rc, place 0xCA000000 [(15, 5)] [a]) (.rcKill a)
  have kb := place_lt hp 32 rfl
  have k0 := bits_in hp 0 19 15 a rfl rfl
  have k1 := bits_out hp 31 25 101 rfl
  have k2 := bits_out hp 24 20 0 rfl
  have k3 := bits_out hp 14 0 0 rfl
  obtain ⟨wd, hw⟩ : ∃ wd, place 0xCA000000 [(15, 5)] [a] = wd := ⟨_, rfl⟩
  rw [hw] at kb k0 k1 k2 k3 ⊢
  clear hp hw
  refine ⟨kb, by unfold rcIsLong; rw [k1]; rfl, fun ext => ?_⟩
  unfold decodeRcWord; rw [k1]
  refine (if_pos ⟨k2, k3⟩).trans ?_
  rw [k0]

theorem rcPrmt (a : Nat) : Statement (.rcPrmt a) := by
  intro hf
  replace hf : (decide (a < 32)) = true := hf
  simp only [decide_eq_true_eq] at hf
  have hp : apart 0xCC000000 [(15, 5)] = true ∧ fit [(15, 5)] [a] = true := ⟨rfl, by simp [fit, hf]⟩
  change WordStatement (.rc, place 0xCC000000 [(15, 5)] [a]) (.rcPrmt a)
  have kb := place_lt hp 32 rfl
  have k0 := bits_in hp 0 19 15 a rfl rfl
  have k1 := bits_out hp 31 25 102 rfl
  have k2 := bits_out hp 24 20 0 rfl
  have k3 := bits_out hp 14 0 0 rfl
  obtain ⟨wd, hw⟩ : ∃ wd, place 0xCC000000 [(15, 5)] [a] = wd := ⟨_, rfl⟩
  rw [hw] at kb k0 k1 k2 k3 ⊢
  clear hp hw
  refine ⟨kb, by unfold rcIsLong; rw [k1]; rfl, fun ext => ?_⟩
  unfold decodeRcWord; rw [k1]
  refine (if_pos ⟨k2, k3⟩).trans ?_
  rw [k0]

theorem rcSealk (d a b : Nat) : Statement (.rcSealk d a b) := by
  intro hf
  replace hf : (decide (d < 32) && decide (a < 32) && decide (b < 32)) = true := hf
  simp only [Bool.and_eq_true, decide_eq_true_eq] at hf
  have hp : apart 0xCE000000 [(20, 5), (15, 5), (10, 5)] = true ∧ fit [(20, 5), (15, 5), (10, 5)] [d, a, b] = true := ⟨rfl, by simp [fit, hf]⟩
  change WordStatement (.rc, place 0xCE000000 [(20, 5), (15, 5), (10, 5)] [d, a, b]) (.rcSealk d a b)
  have kb := place_lt hp 32 rfl
  have k0 := bits_in hp 0 24 20 d rfl rfl
  have k1 := bits_in hp 1 19 15 a rfl rfl
  have k2 := bits_in hp 2 14 10 b rfl rfl
  have k3 := bits_out hp 31 25 103 rfl
  have k4 := bits_out hp 9 0 0 rfl
  obtain ⟨wd, hw⟩ : ∃ wd, place 0xCE000000 [(20, 5), (15, 5), (10, 5)] [d, a, b] = wd := ⟨_, rfl⟩
  rw [hw] at kb k0 k1 k2 k3 k4 ⊢
  clear hp hw
  refine ⟨kb, by unfold rcIsLong; rw [k3]; rfl, fun ext => ?_⟩
  unfold decodeRcWord; rw [k3]
  refine (if_pos k4).trans ?_
  rw [k0, k1, k2]

theorem rcSealkRet (a : Nat) : Statement (.rcSealkRet a) := by
  intro hf
  replace hf : (decide (a < 32)) = true := hf
  simp only [decide_eq_true_eq] at hf
  have hp : apart 0xCE000001 [(15, 5)] = true ∧ fit [(15, 5)] [a] = true := ⟨rfl, by simp [fit, hf]⟩
  change WordStatement (.rc, place 0xCE000001 [(15, 5)] [a]) (.rcSealkRet a)
  have kb := place_lt hp 32 rfl
  have k0 := bits_in hp 0 19 15 a rfl rfl
  have k1 := bits_out hp 31 25 103 rfl
  have k2 := bits_out hp 9 0 1 rfl
  have k3 := bits_out hp 24 20 0 rfl
  have k4 := bits_out hp 14 0 1 rfl
  obtain ⟨wd, hw⟩ : ∃ wd, place 0xCE000001 [(15, 5)] [a] = wd := ⟨_, rfl⟩
  rw [hw] at kb k0 k1 k2 k3 k4 ⊢
  clear hp hw
  refine ⟨kb, by unfold rcIsLong; rw [k1]; rfl, fun ext => ?_⟩
  unfold decodeRcWord; rw [k1]
  refine (if_neg (fun k => absurd (k2.symm.trans k) (by decide))).trans ?_
  refine (if_pos ⟨k3, k4⟩).trans ?_
  rw [k0]

theorem rcSealkCur (a : Nat) : Statement (.rcSealkCur a) := by
  intro hf
  replace hf : (decide (a < 32)) = true := hf
  simp only [decide_eq_true_eq] at hf
  have hp : apart 0xCE000002 [(15, 5)] = true ∧ fit [(15, 5)] [a] = true := ⟨rfl, by simp [fit, hf]⟩
  change WordStatement (.rc, place 0xCE000002 [(15, 5)] [a]) (.rcSealkCur a)
  have kb := place_lt hp 32 rfl
  have k0 := bits_in hp 0 19 15 a rfl rfl
  have k1 := bits_out hp 31 25 103 rfl
  have k2 := bits_out hp 9 0 2 rfl
  have k3 := bits_out hp 14 0 2 rfl
  have k4 := bits_out hp 24 20 0 rfl
  obtain ⟨wd, hw⟩ : ∃ wd, place 0xCE000002 [(15, 5)] [a] = wd := ⟨_, rfl⟩
  rw [hw] at kb k0 k1 k2 k3 k4 ⊢
  clear hp hw
  refine ⟨kb, by unfold rcIsLong; rw [k1]; rfl, fun ext => ?_⟩
  unfold decodeRcWord; rw [k1]
  refine (if_neg (fun k => absurd (k2.symm.trans k) (by decide))).trans ?_
  refine (if_neg (fun k => absurd (k3.symm.trans k.2) (by decide))).trans ?_
  refine (if_pos ⟨k4, k3⟩).trans ?_
  rw [k0]

theorem rcScrub (d a b : Nat) : Statement (.rcScrub d a b) := by
  intro hf
  replace hf : (decide (d < 32) && decide (a < 32) && decide (b < 32)) = true := hf
  simp only [Bool.and_eq_true, decide_eq_true_eq] at hf
  have hp : apart 0xD0000000 [(20, 5), (15, 5), (10, 5)] = true ∧ fit [(20, 5), (15, 5), (10, 5)] [d, a, b] = true := ⟨rfl, by simp [fit, hf]⟩
  change WordStatement (.rc, place 0xD0000000 [(20, 5), (15, 5), (10, 5)] [d, a, b]) (.rcScrub d a b)
  have kb := place_lt hp 32 rfl
  have k0 := bits_in hp 0 24 20 d rfl rfl
  have k1 := bits_in hp 1 19 15 a rfl rfl
  have k2 := bits_in hp 2 14 10 b rfl rfl
  have k3 := bits_out hp 31 25 104 rfl
  have k4 := bits_out hp 9 0 0 rfl
  obtain ⟨wd, hw⟩ : ∃ wd, place 0xD0000000 [(20, 5), (15, 5), (10, 5)] [d, a, b] = wd := ⟨_, rfl⟩
  rw [hw] at kb k0 k1 k2 k3 k4 ⊢
  clear hp hw
  refine ⟨kb, by unfold rcIsLong; rw [k3]; rfl, fun ext => ?_⟩
  unfold decodeRcWord; rw [k3]
  refine (if_pos k4).trans ?_
  rw [k0, k1, k2]

theorem rcMigr (d a b : Nat) : Statement (.rcMigr d a b) := by
  intro hf
  replace hf : (decide (d < 32) && decide (a < 32) && decide (b < 32)) = true := hf
  simp only [Bool.and_eq_true, decide_eq_true_eq] at hf
  have hp : apart 0xD2000000 [(20, 5), (15, 5), (10, 5)] = true ∧ fit [(20, 5), (15, 5), (10, 5)] [d, a, b] = true := ⟨rfl, by simp [fit, hf]⟩
  change WordStatement (.rc, place 0xD2000000 [(20, 5), (15, 5), (10, 5)] [d, a, b]) (.rcMigr d a b)
  have kb := place_lt hp 32 rfl
  have k0 := bits_in hp 0 24 20 d rfl rfl
  have k1 := bits_in hp 1 19 15 a rfl rfl
  have k2 := bits_in hp 2 14 10 b rfl rfl
  have k3 := bits_out hp 31 25 105 rfl
  have k4 := bits_out hp 9 0 0 rfl
  obtain ⟨wd, hw⟩ : ∃ wd, place 0xD2000000 [(20, 5), (15, 5), (10, 5)] [d, a, b] = wd := ⟨_, rfl⟩
  rw [hw] at kb k0 k1 k2 k3 k4 ⊢
  clear hp hw
  refine ⟨kb, by unfold rcIsLong; rw [k3]; rfl, fun ext => ?_⟩
  unfold decodeRcWord; rw [k3]
  refine (if_pos k4).trans ?_
  rw [k0, k1, k2]

theorem rcCkpt (d a : Nat) : Statement (.rcCkpt d a) := by
  intro hf
  replace hf : (decide (d < 32) && decide (a < 32)) = true := hf
  simp only [Bool.and_eq_true, decide_eq_true_eq] at hf
  have hp : apart 0xD4000000 [(20, 5), (15, 5)] = true ∧ fit [(20, 5), (15, 5)] [d, a] = true := ⟨rfl, by simp [fit, hf]⟩
  change WordStatement (.rc, place 0xD4000000 [(20, 5), (15, 5)] [d, a]) (.rcCkpt d a)
  have kb := place_lt hp 32 rfl
  have k0 := bits_in hp 0 24 20 d rfl rfl
  have k1 := bits_in hp 1 19 15 a rfl rfl
  have k2 := bits_out hp 31 25 106 rfl
  have k3 := bits_out hp 14 0 0 rfl
  obtain ⟨wd, hw⟩ : ∃ wd, place 0xD4000000 [(20, 5), (15, 5)] [d, a] = wd := ⟨_, rfl⟩
  rw [hw] at kb k0 k1 k2 k3 ⊢
  clear hp hw
  refine ⟨kb, by unfold rcIsLong; rw [k2]; rfl, fun ext => ?_⟩
  unfold decodeRcWord; rw [k2]
  refine (if_pos k3).trans ?_
  rw [k0, k1]

theorem rcRstr (d a : Nat) : Statement (.rcRstr d a) := by
  intro hf
  replace hf : (decide (d < 32) && decide (a < 32)) = true := hf
  simp only [Bool.and_eq_true, decide_eq_true_eq] at hf
  have hp : apart 0xD6000000 [(20, 5), (15, 5)] = true ∧ fit [(20, 5), (15, 5)] [d, a] = true := ⟨rfl, by simp [fit, hf]⟩
  change WordStatement (.rc, place 0xD6000000 [(20, 5), (15, 5)] [d, a]) (.rcRstr d a)
  have kb := place_lt hp 32 rfl
  have k0 := bits_in hp 0 24 20 d rfl rfl
  have k1 := bits_in hp 1 19 15 a rfl rfl
  have k2 := bits_out hp 31 25 107 rfl
  have k3 := bits_out hp 14 0 0 rfl
  obtain ⟨wd, hw⟩ : ∃ wd, place 0xD6000000 [(20, 5), (15, 5)] [d, a] = wd := ⟨_, rfl⟩
  rw [hw] at kb k0 k1 k2 k3 ⊢
  clear hp hw
  refine ⟨kb, by unfold rcIsLong; rw [k2]; rfl, fun ext => ?_⟩
  unfold decodeRcWord; rw [k2]
  refine (if_pos k3).trans ?_
  rw [k0, k1]

theorem rcAttest (d a b : Nat) : Statement (.rcAttest d a b) := by
  intro hf
  replace hf : (decide (d < 32) && decide (a < 32) && decide (b < 32)) = true := hf
  simp only [Bool.and_eq_true, decide_eq_true_eq] at hf
  have hp : apart 0xD8000000 [(20, 5), (15, 5), (10, 5)] = true ∧ fit [(20, 5), (15, 5), (10, 5)] [d, a, b] = true := ⟨rfl, by simp [fit, hf]⟩
  change WordStatement (.rc, place 0xD8000000 [(20, 5), (15, 5), (10, 5)] [d, a, b]) (.rcAttest d a b)
  have kb := place_lt hp 32 rfl
  have k0 := bits_in hp 0 24 20 d rfl rfl
  have k1 := bits_in hp 1 19 15 a rfl rfl
  have k2 := bits_in hp 2 14 10 b rfl rfl
  have k3 := bits_out hp 31 25 108 rfl
  have k4 := bits_out hp 9 0 0 rfl
  obtain ⟨wd, hw⟩ : ∃ wd, place 0xD8000000 [(20, 5), (15, 5), (10, 5)] [d, a, b] = wd := ⟨_, rfl⟩
  rw [hw] at kb k0 k1 k2 k3 k4 ⊢
  clear hp hw
  refine ⟨kb, by unfold rcIsLong; rw [k3]; rfl, fun ext => ?_⟩
  unfold decodeRcWord; rw [k3]
  refine (if_pos k4).trans ?_
  rw [k0, k1, k2]

theorem rcAttestAcc (a b : Nat) : Statement (.rcAttestAcc a b) := by
  intro hf
  replace hf : (decide (a < 32) && decide (b < 32)) = true := hf
  simp only [Bool.and_eq_true, decide_eq_true_eq] at hf
  have hp : apart 0xD8000001 [(15, 5), (10, 5)] = true ∧ fit [(15, 5), (10, 5)] [a, b] = true := ⟨rfl, by simp [fit, hf]⟩
  change WordStatement (.rc, place 0xD8000001 [(15, 5), (10, 5)] [a, b]) (.rcAttestAcc a b)
  have kb := place_lt hp 32 rfl
  have k0 := bits_in hp 0 19 15 a rfl rfl
  have k1 := bits_in hp 1 14 10 b rfl rfl
  have k2 := bits_out hp 31 25 108 rfl
  have k3 := bits_out hp 9 0 1 rfl
  have k4 := bits_out hp 24 20 0 rfl
  obtain ⟨wd, hw⟩ : ∃ wd, place 0xD8000001 [(15, 5), (10, 5)] [a, b] = wd := ⟨_, rfl⟩
  rw [hw] at kb k0 k1 k2 k3 k4 ⊢
  clear hp hw
  refine ⟨kb, by unfold rcIsLong; rw [k2]; rfl, fun ext => ?_⟩
  unfold decodeRcWord; rw [k2]
  refine (if_neg (fun k => absurd (k3.symm.trans k) (by decide))).trans ?_
  refine (if_pos ⟨k4, k3⟩).trans ?_
  rw [k0, k1]

theorem rcAttestClose (a : Nat) : Statement (.rcAttestClose a) := by
  intro hf
  replace hf : (decide (a < 32)) = true := hf
  simp only [decide_eq_true_eq] at hf
  have hp : apart 0xD8000002 [(15, 5)] = true ∧ fit [(15, 5)] [a] = true := ⟨rfl, by simp [fit, hf]⟩
  change WordStatement (.rc, place 0xD8000002 [(15, 5)] [a]) (.rcAttestClose a)
  have kb := place_lt hp 32 rfl
  have k0 := bits_in hp 0 19 15 a rfl rfl
  have k1 := bits_out hp 31 25 108 rfl
  have k2 := bits_out hp 9 0 2 rfl
  have k3 := bits_out hp 24 20 0 rfl
  have k4 := bits_out hp 14 0 2 rfl
  obtain ⟨wd, hw⟩ : ∃ wd, place 0xD8000002 [(15, 5)] [a] = wd := ⟨_, rfl⟩
  rw [hw] at kb k0 k1 k2 k3 k4 ⊢
  clear hp hw
  refine ⟨kb, by unfold rcIsLong; rw [k1]; rfl, fun ext => ?_⟩
  unfold decodeRcWord; rw [k1]
  refine (if_neg (fun k => absurd (k2.symm.trans k) (by decide))).trans ?_
  refine (if_neg (fun k => absurd (k2.symm.trans k.2) (by decide))).trans ?_
  refine (if_pos ⟨k3, k4⟩).trans ?_
  rw [k0]

theorem rcRets (a b : Nat) : Statement (.rcRets a b) := by
  intro hf
  replace hf : (decide (a < 32) && decide (b < 32)) = true := hf
  simp only [Bool.and_eq_true, decide_eq_true_eq] at hf
  have hp : apart 0xDA000000 [(15, 5), (10, 5)] = true ∧ fit [(15, 5), (10, 5)] [a, b] = true := ⟨rfl, by simp [fit, hf]⟩
  change WordStatement (.rc, place 0xDA000000 [(15, 5), (10, 5)] [a, b]) (.rcRets a b)
  have kb := place_lt hp 32 rfl
  have k0 := bits_in hp 0 19 15 a rfl rfl
  have k1 := bits_in hp 1 14 10 b rfl rfl
  have k2 := bits_out hp 31 25 109 rfl
  have k3 := bits_out hp 24 20 0 rfl
  have k4 := bits_out hp 9 0 0 rfl
  obtain ⟨wd, hw⟩ : ∃ wd, place 0xDA000000 [(15, 5), (10, 5)] [a, b] = wd := ⟨_, rfl⟩
  rw [hw] at kb k0 k1 k2 k3 k4 ⊢
  clear hp hw
  refine ⟨kb, by unfold rcIsLong; rw [k2]; rfl, fun ext => ?_⟩
  unfold decodeRcWord; rw [k2]
  refine (if_pos ⟨k3, k4⟩).trans ?_
  rw [k0, k1]

theorem rcPartCreate (d a b : Nat) : Statement (.rcPartCreate d a b) := by
  intro hf
  replace hf : (decide (d < 32) && decide (a < 32) && decide (b < 32)) = true := hf
  simp only [Bool.and_eq_true, decide_eq_true_eq] at hf
  have hp : apart 0xDC000000 [(20, 5), (15, 5), (10, 5)] = true ∧ fit [(20, 5), (15, 5), (10, 5)] [d, a, b] = true := ⟨rfl, by simp [fit, hf]⟩
  change WordStatement (.rc, place 0xDC000000 [(20, 5), (15, 5), (10, 5)] [d, a, b]) (.rcPartCreate d a b)
  have kb := place_lt hp 32 rfl
  have k0 := bits_in hp 0 24 20 d rfl rfl
  have k1 := bits_in hp 1 19 15 a rfl rfl
  have k2 := bits_in hp 2 14 10 b rfl rfl
  have k3 := bits_out hp 31 25 110 rfl
  have k4 := bits_out hp 9 0 0 rfl
  obtain ⟨wd, hw⟩ : ∃ wd, place 0xDC000000 [(20, 5), (15, 5), (10, 5)] [d, a, b] = wd := ⟨_, rfl⟩
  rw [hw] at kb k0 k1 k2 k3 k4 ⊢
  clear hp hw
  refine ⟨kb, by unfold rcIsLong; rw [k3]; rfl, fun ext => ?_⟩
  unfold decodeRcWord; rw [k3]
  refine (if_pos k4).trans ?_
  rw [k0, k1, k2]

theorem rcPartDestroy (d a b : Nat) : Statement (.rcPartDestroy d a b) := by
  intro hf
  replace hf : (decide (d < 32) && decide (a < 32) && decide (b < 32)) = true := hf
  simp only [Bool.and_eq_true, decide_eq_true_eq] at hf
  have hp : apart 0xDC000001 [(20, 5), (15, 5), (10, 5)] = true ∧ fit [(20, 5), (15, 5), (10, 5)] [d, a, b] = true := ⟨rfl, by simp [fit, hf]⟩
  change WordStatement (.rc, place 0xDC000001 [(20, 5), (15, 5), (10, 5)] [d, a, b]) (.rcPartDestroy d a b)
  have kb := place_lt hp 32 rfl
  have k0 := bits_in hp 0 24 20 d rfl rfl
  have k1 := bits_in hp 1 19 15 a rfl rfl
  have k2 := bits_in hp 2 14 10 b rfl rfl
  have k3 := bits_out hp 31 25 110 rfl
  have k4 := bits_out hp 9 0 1 rfl
  obtain ⟨wd, hw⟩ : ∃ wd, place 0xDC000001 [(20, 5), (15, 5), (10, 5)] [d, a, b] = wd := ⟨_, rfl⟩
  rw [hw] at kb k0 k1 k2 k3 k4 ⊢
  clear hp hw
  refine ⟨kb, by unfold rcIsLong; rw [k3]; rfl, fun ext => ?_⟩
  unfold decodeRcWord; rw [k3]
  refine (if_neg (fun k => absurd (k4.symm.trans k) (by decide))).trans ?_
  refine (if_pos k4).trans ?_
  rw [k0, k1, k2]

theorem rcPartRead (d a b : Nat) : Statement (.rcPartRead d a b) := by
  intro hf
  replace hf : (decide (d < 32) && decide (a < 32) && decide (b < 32)) = true := hf
  simp only [Bool.and_eq_true, decide_eq_true_eq] at hf
  have hp : apart 0xDC000002 [(20, 5), (15, 5), (10, 5)] = true ∧ fit [(20, 5), (15, 5), (10, 5)] [d, a, b] = true := ⟨rfl, by simp [fit, hf]⟩
  change WordStatement (.rc, place 0xDC000002 [(20, 5), (15, 5), (10, 5)] [d, a, b]) (.rcPartRead d a b)
  have kb := place_lt hp 32 rfl
  have k0 := bits_in hp 0 24 20 d rfl rfl
  have k1 := bits_in hp 1 19 15 a rfl rfl
  have k2 := bits_in hp 2 14 10 b rfl rfl
  have k3 := bits_out hp 31 25 110 rfl
  have k4 := bits_out hp 9 0 2 rfl
  obtain ⟨wd, hw⟩ : ∃ wd, place 0xDC000002 [(20, 5), (15, 5), (10, 5)] [d, a, b] = wd := ⟨_, rfl⟩
  rw [hw] at kb k0 k1 k2 k3 k4 ⊢
  clear hp hw
  refine ⟨kb, by unfold rcIsLong; rw [k3]; rfl, fun ext => ?_⟩
  unfold decodeRcWord; rw [k3]
  refine (if_neg (fun k => absurd (k4.symm.trans k) (by decide))).trans ?_
  refine (if_neg (fun k => absurd (k4.symm.trans k) (by decide))).trans ?_
  refine (if_pos k4).trans ?_
  rw [k0, k1, k2]

theorem rcEvtq (a b : Nat) : Statement (.rcEvtq a b) := by
  intro hf
  replace hf : (decide (a < 32) && decide (b < 32)) = true := hf
  simp only [Bool.and_eq_true, decide_eq_true_eq] at hf
  have hp : apart 0xDE000000 [(15, 5), (10, 5)] = true ∧ fit [(15, 5), (10, 5)] [a, b] = true := ⟨rfl, by simp [fit, hf]⟩
  change WordStatement (.rc, place 0xDE000000 [(15, 5), (10, 5)] [a, b]) (.rcEvtq a b)
  have kb := place_lt hp 32 rfl
  have k0 := bits_in hp 0 19 15 a rfl rfl
  have k1 := bits_in hp 1 14 10 b rfl rfl
  have k2 := bits_out hp 31 25 111 rfl
  have k3 := bits_out hp 24 20 0 rfl
  have k4 := bits_out hp 9 0 0 rfl
  obtain ⟨wd, hw⟩ : ∃ wd, place 0xDE000000 [(15, 5), (10, 5)] [a, b] = wd := ⟨_, rfl⟩
  rw [hw] at kb k0 k1 k2 k3 k4 ⊢
  clear hp hw
  refine ⟨kb, by unfold rcIsLong; rw [k2]; rfl, fun ext => ?_⟩
  unfold decodeRcWord; rw [k2]
  refine (if_pos ⟨k3, k4⟩).trans ?_
  rw [k0, k1]

theorem rcEvtqWait (d : Nat) : Statement (.rcEvtqWait d) := by
  intro hf
  replace hf : (decide (d < 32)) = true := hf
  simp only [decide_eq_true_eq] at hf
  have hp : apart 0xDE000001 [(20, 5)] = true ∧ fit [(20, 5)] [d] = true := ⟨rfl, by simp [fit, hf]⟩
  change WordStatement (.rc, place 0xDE000001 [(20, 5)] [d]) (.rcEvtqWait d)
  have kb := place_lt hp 32 rfl
  have k0 := bits_in hp 0 24 20 d rfl rfl
  have k1 := bits_out hp 31 25 111 rfl
  have k2 := bits_out hp 9 0 1 rfl
  have k3 := bits_out hp 19 0 1 rfl
  obtain ⟨wd, hw⟩ : ∃ wd, place 0xDE000001 [(20, 5)] [d] = wd := ⟨_, rfl⟩
  rw [hw] at kb k0 k1 k2 k3 ⊢
  clear hp hw
  refine ⟨kb, by unfold rcIsLong; rw [k1]; rfl, fun ext => ?_⟩
  unfold decodeRcWord; rw [k1]
  refine (if_neg (fun k => absurd (k2.symm.trans k.2) (by decide))).trans ?_
  refine (if_pos k3).trans ?_
  rw [k0]

theorem dropOp : Statement (.dropOp) := by
  intro hf
  have hp : apart 0xE2000000 [] = true ∧ fit [] [] = true := ⟨rfl, by simp [fit]⟩
  change WordStatement (.cell, place 0xE2000000 [] []) (.dropOp)
  have kb := place_lt hp 32 rfl
  have k0 := bits_out hp 29 23 68 rfl
  have k1 := bits_out hp 31 30 3 rfl
  have k2 := bits_out hp 22 0 0 rfl
  obtain ⟨wd, hw⟩ : ∃ wd, place 0xE2000000 [] [] = wd := ⟨_, rfl⟩
  rw [hw] at kb k0 k1 k2 ⊢
  clear hp hw
  refine ⟨kb, k1, ?_⟩
  unfold decodeCell32; rw [if_neg (by rw [k1]; decide), k0]
  refine (if_pos k2).trans ?_
  rfl

theorem endOp : Statement (.endOp) := by
  intro hf
  have hp : apart 0xE2800000 [] = true ∧ fit [] [] = true := ⟨rfl, by simp [fit]⟩
  change WordStatement (.cell, place 0xE2800000 [] []) (.endOp)
  have kb := place_lt hp 32 rfl
  have k0 := bits_out hp 29 23 69 rfl
  have k1 := bits_out hp 31 30 3 rfl
  have k2 := bits_out hp 22 0 0 rfl
  obtain ⟨wd, hw⟩ : ∃ wd, place 0xE2800000 [] [] = wd := ⟨_, rfl⟩
  rw [hw] at kb k0 k1 k2 ⊢
  clear hp hw
  refine ⟨kb, k1, ?_⟩
  unfold decodeCell32; rw [if_neg (by rw [k1]; decide), k0]
  refine (if_pos k2).trans ?_
  rfl

theorem freef : Statement (.freef) := by
  intro hf
  have hp : apart 0xE5000000 [] = true ∧ fit [] [] = true := ⟨rfl, by simp [fit]⟩
  change WordStatement (.cell, place 0xE5000000 [] []) (.freef)
  have kb := place_lt hp 32 rfl
  have k0 := bits_out hp 29 23 74 rfl
  have k1 := bits_out hp 31 30 3 rfl
  have k2 := bits_out hp 22 0 0 rfl
  obtain ⟨wd, hw⟩ : ∃ wd, place 0xE5000000 [] [] = wd := ⟨_, rfl⟩
  rw [hw] at kb k0 k1 k2 ⊢
  clear hp hw
  refine ⟨kb, k1, ?_⟩
  unfold decodeCell32; rw [if_neg (by rw [k1]; decide), k0]
  refine (if_pos k2).trans ?_
  rfl

theorem cEnd : Statement (.cEnd) := by
  intro hf
  have hp : apart 0x0 [] = true ∧ fit [] [] = true := ⟨rfl, by simp [fit]⟩
  change WordStatement (.compact, place 0x0 [] []) (.cEnd)
  have kb := place_lt hp 16 rfl
  have k0 := bits_out hp 15 11 0 rfl
  have k1 := bits_out hp 15 14 0 rfl
  have k2 := bits_out hp 10 0 0 rfl
  obtain ⟨wd, hw⟩ : ∃ wd, place 0x0 [] [] = wd := ⟨_, rfl⟩
  rw [hw] at kb k0 k1 k2 ⊢
  clear hp hw
  refine ⟨kb, by rw [k1]; decide, ?_⟩
  unfold decodeCompact; rw [k0]
  refine (if_pos k2).trans ?_
  rfl

theorem cDrop : Statement (.cDrop) := by
  intro hf
  have hp : apart 0xB000 [] = true ∧ fit [] [] = true := ⟨rfl, by simp [fit]⟩
  change WordStatement (.compact, place 0xB000 [] []) (.cDrop)
  have kb := place_lt hp 16 rfl
  have k0 := bits_out hp 15 11 22 rfl
  have k1 := bits_out hp 15 14 2 rfl
  have k2 := bits_out hp 10 0 0 rfl
  obtain ⟨wd, hw⟩ : ∃ wd, place 0xB000 [] [] = wd := ⟨_, rfl⟩
  rw [hw] at kb k0 k1 k2 ⊢
  clear hp hw
  refine ⟨kb, by rw [k1]; decide, ?_⟩
  unfold decodeCompact; rw [k0]
  refine (if_pos k2).trans ?_
  rfl

theorem rcEndl : Statement (.rcEndl) := by
  intro hf
  have hp : apart 0x54000000 [] = true ∧ fit [] [] = true := ⟨rfl, by simp [fit]⟩
  change WordStatement (.rc, place 0x54000000 [] []) (.rcEndl)
  have kb := place_lt hp 32 rfl
  have k0 := bits_out hp 31 25 42 rfl
  have k1 := bits_out hp 24 0 0 rfl
  obtain ⟨wd, hw⟩ : ∃ wd, place 0x54000000 [] [] = wd := ⟨_, rfl⟩
  rw [hw] at kb k0 k1 ⊢
  clear hp hw
  refine ⟨kb, by unfold rcIsLong; rw [k0]; rfl, fun ext => ?_⟩
  unfold decodeRcWord; rw [k0]
  refine (if_pos k1).trans ?_
  rfl

theorem rcHalt : Statement (.rcHalt) := by
  intro hf
  have hp : apart 0x5E000000 [] = true ∧ fit [] [] = true := ⟨rfl, by simp [fit]⟩
  change WordStatement (.rc, place 0x5E000000 [] []) (.rcHalt)
  have kb := place_lt hp 32 rfl
  have k0 := bits_out hp 31 25 47 rfl
  have k1 := bits_out hp 24 0 0 rfl
  obtain ⟨wd, hw⟩ : ∃ wd, place 0x5E000000 [] [] = wd := ⟨_, rfl⟩
  rw [hw] at kb k0 k1 ⊢
  clear hp hw
  refine ⟨kb, by unfold rcIsLong; rw [k0]; rfl, fun ext => ?_⟩
  unfold decodeRcWord; rw [k0]
  refine (if_pos k1).trans ?_
  rfl

theorem rcCfgw : Statement (.rcCfgw) := by
  intro hf
  have hp : apart 0x62000000 [] = true ∧ fit [] [] = true := ⟨rfl, by simp [fit]⟩
  change WordStatement (.rc, place 0x62000000 [] []) (.rcCfgw)
  have kb := place_lt hp 32 rfl
  have k0 := bits_out hp 31 25 49 rfl
  have k1 := bits_out hp 24 0 0 rfl
  obtain ⟨wd, hw⟩ : ∃ wd, place 0x62000000 [] [] = wd := ⟨_, rfl⟩
  rw [hw] at kb k0 k1 ⊢
  clear hp hw
  refine ⟨kb, by unfold rcIsLong; rw [k0]; rfl, fun ext => ?_⟩
  unfold decodeRcWord; rw [k0]
  refine (if_pos k1).trans ?_
  rfl

theorem rcGo : Statement (.rcGo) := by
  intro hf
  have hp : apart 0x68000000 [] = true ∧ fit [] [] = true := ⟨rfl, by simp [fit]⟩
  change WordStatement (.rc, place 0x68000000 [] []) (.rcGo)
  have kb := place_lt hp 32 rfl
  have k0 := bits_out hp 31 25 52 rfl
  have k1 := bits_out hp 24 0 0 rfl
  obtain ⟨wd, hw⟩ : ∃ wd, place 0x68000000 [] [] = wd := ⟨_, rfl⟩
  rw [hw] at kb k0 k1 ⊢
  clear hp hw
  refine ⟨kb, by unfold rcIsLong; rw [k0]; rfl, fun ext => ?_⟩
  unfold decodeRcWord; rw [k0]
  refine (if_pos k1).trans ?_
  rfl

theorem rcAbortr : Statement (.rcAbortr) := by
  intro hf
  have hp : apart 0x6C000000 [] = true ∧ fit [] [] = true := ⟨rfl, by simp [fit]⟩
  change WordStatement (.rc, place 0x6C000000 [] []) (.rcAbortr)
  have kb := place_lt hp 32 rfl
  have k0 := bits_out hp 31 25 54 rfl
  have k1 := bits_out hp 24 0 0 rfl
  obtain ⟨wd, hw⟩ : ∃ wd, place 0x6C000000 [] [] = wd := ⟨_, rfl⟩
  rw [hw] at kb k0 k1 ⊢
  clear hp hw
  refine ⟨kb, by unfold rcIsLong; rw [k0]; rfl, fun ext => ?_⟩
  unfold decodeRcWord; rw [k0]
  refine (if_pos k1).trans ?_
  rfl

theorem rcPin : Statement (.rcPin) := by
  intro hf
  have hp : apart 0x76000000 [] = true ∧ fit [] [] = true := ⟨rfl, by simp [fit]⟩
  change WordStatement (.rc, place 0x76000000 [] []) (.rcPin)
  have kb := place_lt hp 32 rfl
  have k0 := bits_out hp 31 25 59 rfl
  have k1 := bits_out hp 24 0 0 rfl
  obtain ⟨wd, hw⟩ : ∃ wd, place 0x76000000 [] [] = wd := ⟨_, rfl⟩
  rw [hw] at kb k0 k1 ⊢
  clear hp hw
  refine ⟨kb, by unfold rcIsLong; rw [k0]; rfl, fun ext => ?_⟩
  unfold decodeRcWord; rw [k0]
  refine (if_pos k1).trans ?_
  rfl

theorem rcTlbiAll : Statement (.rcTlbiAll) := by
  intro hf
  have hp : apart 0xC4000002 [] = true ∧ fit [] [] = true := ⟨rfl, by simp [fit]⟩
  change WordStatement (.rc, place 0xC4000002 [] []) (.rcTlbiAll)
  have kb := place_lt hp 32 rfl
  have k0 := bits_out hp 31 25 98 rfl
  have k1 := bits_out hp 14 0 2 rfl
  have k2 := bits_out hp 9 0 2 rfl
  have k3 := bits_out hp 24 0 2 rfl
  obtain ⟨wd, hw⟩ : ∃ wd, place 0xC4000002 [] [] = wd := ⟨_, rfl⟩
  rw [hw] at kb k0 k1 k2 k3 ⊢
  clear hp hw
  refine ⟨kb, by unfold rcIsLong; rw [k0]; rfl, fun ext => ?_⟩
  unfold decodeRcWord; rw [k0]
  refine (if_neg (fun k => absurd (k1.symm.trans k.2) (by decide))).trans ?_
  refine (if_neg (fun k => absurd (k2.symm.trans k.2) (by decide))).trans ?_
  refine (if_pos k3).trans ?_
  rfl

theorem rcKillPart : Statement (.rcKillPart) := by
  intro hf
  have hp : apart 0xCA000001 [] = true ∧ fit [] [] = true := ⟨rfl, by simp [fit]⟩
  change WordStatement (.rc, place 0xCA000001 [] []) (.rcKillPart)
  have kb := place_lt hp 32 rfl
  have k0 := bits_out hp 31 25 101 rfl
  have k1 := bits_out hp 14 0 1 rfl
  have k2 := bits_out hp 24 0 1 rfl
  obtain ⟨wd, hw⟩ : ∃ wd, place 0xCA000001 [] [] = wd := ⟨_, rfl⟩
  rw [hw] at kb k0 k1 k2 ⊢
  clear hp hw
  refine ⟨kb, by unfold rcIsLong; rw [k0]; rfl, fun ext => ?_⟩
  unfold decodeRcWord; rw [k0]
  refine (if_neg (fun k => absurd (k1.symm.trans k.2) (by decide))).trans ?_
  refine (if_pos k2).trans ?_
  rfl

theorem rcPrmtPart : Statement (.rcPrmtPart) := by
  intro hf
  have hp : apart 0xCC000001 [] = true ∧ fit [] [] = true := ⟨rfl, by simp [fit]⟩
  change WordStatement (.rc, place 0xCC000001 [] []) (.rcPrmtPart)
  have kb := place_lt hp 32 rfl
  have k0 := bits_out hp 31 25 102 rfl
  have k1 := bits_out hp 14 0 1 rfl
  have k2 := bits_out hp 24 0 1 rfl
  obtain ⟨wd, hw⟩ : ∃ wd, place 0xCC000001 [] [] = wd := ⟨_, rfl⟩
  rw [hw] at kb k0 k1 k2 ⊢
  clear hp hw
  refine ⟨kb, by unfold rcIsLong; rw [k0]; rfl, fun ext => ?_⟩
  unfold decodeRcWord; rw [k0]
  refine (if_neg (fun k => absurd (k1.symm.trans k.2) (by decide))).trans ?_
  refine (if_pos k2).trans ?_
  rfl

theorem evPowerOnReset : Statement (.evPowerOnReset) := fun _ => trivial

theorem evDataTokenArrival : Statement (.evDataTokenArrival) := fun _ => trivial

theorem evEosArrival : Statement (.evEosArrival) := fun _ => trivial

theorem evMarkArrival : Statement (.evMarkArrival) := fun _ => trivial

theorem evNoticeArrival : Statement (.evNoticeArrival) := fun _ => trivial

theorem evTaskAdmit : Statement (.evTaskAdmit) := fun _ => trivial

theorem evTaskDispatch : Statement (.evTaskDispatch) := fun _ => trivial

theorem evStagedTokenRelease : Statement (.evStagedTokenRelease) := fun _ => trivial

theorem evEosForward : Statement (.evEosForward) := fun _ => trivial

theorem evSinkEosCount : Statement (.evSinkEosCount) := fun _ => trivial

theorem evMarkerSlotFill : Statement (.evMarkerSlotFill) := fun _ => trivial

theorem evFrontierAdvance : Statement (.evFrontierAdvance) := fun _ => trivial

theorem evArbiterWeightRecompute : Statement (.evArbiterWeightRecompute) := fun _ => trivial

theorem evFrameWaitTimeout : Statement (.evFrameWaitTimeout) := fun _ => trivial

theorem evReturnArrival : Statement (.evReturnArrival) := fun _ => trivial

theorem evCfgLoadApply : Statement (.evCfgLoadApply) := fun _ => trivial

theorem evGeneratorPoint : Statement (.evGeneratorPoint) := fun _ => trivial

theorem evBarcPoint : Statement (.evBarcPoint) := fun _ => trivial

theorem evOrderingTokenArrival : Statement (.evOrderingTokenArrival) := fun _ => trivial

theorem evVoidSlotFree : Statement (.evVoidSlotFree) := fun _ => trivial

theorem evCopyOutSlotTake : Statement (.evCopyOutSlotTake) := fun _ => trivial

theorem evSectorLanding : Statement (.evSectorLanding) := fun _ => trivial

theorem evRemoteAccessArrival : Statement (.evRemoteAccessArrival) := fun _ => trivial

theorem evRemoteStoreCompletion : Statement (.evRemoteStoreCompletion) := fun _ => trivial

theorem evHistoryCommandAccept : Statement (.evHistoryCommandAccept) := fun _ => trivial

theorem evHistoryCommandApply : Statement (.evHistoryCommandApply) := fun _ => trivial

theorem evHistoryFrontierAdvance : Statement (.evHistoryFrontierAdvance) := fun _ => trivial

theorem evHistoryEosPass : Statement (.evHistoryEosPass) := fun _ => trivial

theorem evBucketSpill : Statement (.evBucketSpill) := fun _ => trivial

theorem evBucketFill : Statement (.evBucketFill) := fun _ => trivial

theorem evMatrixInstanceStart : Statement (.evMatrixInstanceStart) := fun _ => trivial

theorem evMatrixEos : Statement (.evMatrixEos) := fun _ => trivial

theorem evMatrixPreemptSave : Statement (.evMatrixPreemptSave) := fun _ => trivial

theorem evMatrixIdle : Statement (.evMatrixIdle) := fun _ => trivial

theorem evIsleRampAdmit : Statement (.evIsleRampAdmit) := fun _ => trivial

theorem evRampStep : Statement (.evRampStep) := fun _ => trivial

theorem evPhaseComplete : Statement (.evPhaseComplete) := fun _ => trivial

theorem evCommunicatorFormed : Statement (.evCommunicatorFormed) := fun _ => trivial

theorem evCommunicatorBroken : Statement (.evCommunicatorBroken) := fun _ => trivial

theorem evChunkStart : Statement (.evChunkStart) := fun _ => trivial

theorem evChunkCombine : Statement (.evChunkCombine) := fun _ => trivial

theorem evSlotCloseTimeout : Statement (.evSlotCloseTimeout) := fun _ => trivial

theorem evRouterStep : Statement (.evRouterStep) := fun _ => trivial

theorem evDoneNotice : Statement (.evDoneNotice) := fun _ => trivial

theorem evCommit : Statement (.evCommit) := fun _ => trivial

theorem evMemberLost : Statement (.evMemberLost) := fun _ => trivial

theorem evNodePlace : Statement (.evNodePlace) := fun _ => trivial

theorem evNodeAging : Statement (.evNodeAging) := fun _ => trivial

theorem evNodeComplete : Statement (.evNodeComplete) := fun _ => trivial

theorem evHostWrite : Statement (.evHostWrite) := fun _ => trivial

theorem evHostRaisingWrite : Statement (.evHostRaisingWrite) := fun _ => trivial

theorem evHostChannelPublish : Statement (.evHostChannelPublish) := fun _ => trivial

theorem evHostTokenDeliver : Statement (.evHostTokenDeliver) := fun _ => trivial

theorem evHostSinkAck : Statement (.evHostSinkAck) := fun _ => trivial

theorem evUePacketReceive : Statement (.evUePacketReceive) := fun _ => trivial

theorem evUePortDown : Statement (.evUePortDown) := fun _ => trivial

theorem evStraitFlitReceive : Statement (.evStraitFlitReceive) := fun _ => trivial

theorem evNakReceive : Statement (.evNakReceive) := fun _ => trivial

theorem evCreditReturn : Statement (.evCreditReturn) := fun _ => trivial

theorem evEscapeVcDivert : Statement (.evEscapeVcDivert) := fun _ => trivial

theorem evWatchdogFirst : Statement (.evWatchdogFirst) := fun _ => trivial

theorem evWatchdogSecond : Statement (.evWatchdogSecond) := fun _ => trivial

theorem evEventPost : Statement (.evEventPost) := fun _ => trivial

theorem evTimerExpiry : Statement (.evTimerExpiry) := fun _ => trivial

theorem evPreemptMarkerForward : Statement (.evPreemptMarkerForward) := fun _ => trivial

theorem evRegionFrozen : Statement (.evRegionFrozen) := fun _ => trivial

theorem evPreemptTimeout : Statement (.evPreemptTimeout) := fun _ => trivial

theorem evKillDone : Statement (.evKillDone) := fun _ => trivial

theorem evPowerWindow : Statement (.evPowerWindow) := fun _ => trivial

theorem evThermalWarning : Statement (.evThermalWarning) := fun _ => trivial

theorem evThermalThrottle : Statement (.evThermalThrottle) := fun _ => trivial

theorem evThermalShutdown : Statement (.evThermalShutdown) := fun _ => trivial

theorem evUncorrectableError : Statement (.evUncorrectableError) := fun _ => trivial

theorem rcIllegalEncoding : Statement (.rcIllegalEncoding) := fun _ => trivial

theorem evRemoteReply : Statement (.evRemoteReply) := fun _ => trivial

theorem evStraitLinkReturn : Statement (.evStraitLinkReturn) := fun _ => trivial

theorem evThermalThrottleRelease : Statement (.evThermalThrottleRelease) := fun _ => trivial

theorem evExtractFifoArrival : Statement (.evExtractFifoArrival) := fun _ => trivial

end Sys2Proof.Laws.RoundTrip
end

