-- ==== Sys2Proof/Tests/Slice0.lean ====
section
/-! SUPPORT. The model's own tests: the smoke of WellFormed, words written out from the spec's encodings, single steps on small states, and for every statement
with hypotheses a state and operands that meet them. -/

namespace Sys2Proof.Tests
open Sys2Proof Sys2Proof.Machine
set_option Elab.async false

/-! ## WellFormed -/

/-- A field past its width is refused, form by form (R135, R137, R145, R147). -/
theorem test_wf_fields : [Instr.add 64 0 0 0 0 0, .add 8 0 0 8 0 0, .add 8 0 0 0 2 0, .addi 8 0 2048, .movi 8 131072, .emit 8 0 0 0 0, .call 0 0 0 0 16, .cAdd 8 0 0,
    .cShl 0 16 0, .mma 8 0 0 0 0 0 0, .mma 0 0 256 0 0 0 0, .accrd 0 0 0 0 0 2 0 0, .rcAdd 32 0 0, .rcAddi 0 0 32768, .rcJmp 1048576, .rcLi 0 4294967296,
    .rcCpy 2 0 0 0 0, .rcMtp 0 0 1024].all (fun i => !i.fits) = true := by decide

/-- A reserved code or field is refused with 0x0D8: a source code of 56 or more, a rounding mode of 6, a tagop of 7, an operation of ATOM of 10, an ordering id where h = 0 (R136, R139, R144, R189, R193). -/
theorem test_wf_reserved : [Instr.add 8 56 0 0 0 0, .add 8 0 0 6 0 0, .emit 0 0 0 7 0, .emit 0 0 0 0 1, .emit 0 0 0 6 64, .atom 8 0 0 0 10 0, .sts 0 0 1 0 0 0, .cmp 8 0 0 6,
    .coal 56 0, .hred 1 0 0 0, .redl 8 0 1 0 1].all (fun i => i.fits && i.refusal == some 0x0D8) = true := by decide

/-- A use out of range is refused with 0x0DB: a destination that is no O or M register, a shift of more than 31, a lane of more than 15, a constant past the pool (R136, R144, R161). -/
theorem test_wf_range : [Instr.add 0 0 0 0 0 0, .add 32 0 0 0 0 0, .add 8 48 0 0 0 0, .shli 8 0 32, .bfx 8 0 0 31 1, .bcast 8 0 16, .ldc 8 16, .tagrd 8 3 4, .fmts 8 0 14, .steer 7 0 0 0 0 0,
    .emitv 0 0 0 6 0, .trapc 0 8, .lds 8 0 0 0, .lds 8 0 1 1, .ordt 1 0, .fencem 0 0, .rput 0 15 0 0 0, .rfree 15, .hseek 0 0 5, .fnrd 8 8, .scope 8 0 3, .rhash 8 0 17, .coal 47 0,
    .redl 8 0 6 0 0, .qnt 8 0 1 0, .dqn 8 0 9 0 0, .cvt 8 0 0 0 0].all (fun i => i.fits && i.refusal == some 0x0DB) = true := by decide

/-- The widest values that the encoding and the validator take. -/
theorem test_wf_accepts : [Instr.add 31 47 40 5 1 1, .add 8 0 0 0 0 0, .shli 31 47 31, .bfx 8 0 1 31 0, .bcast 8 0 15, .ldc 8 15, .steer 6 0 15 3 1 47, .emit 7 0 15 6 47, .trapc 0 7, .cAdd 7 15 15,
    .rcAdd 31 31 31, .rcLi 31 4294967295].all Instr.wf = true := by decide

/-! ## Words of the encodings, family by family -/

/-- R135, R142: opcode in [29:23], fields of F3, F1 and F2 as they stand in the table. -/
theorem test_decode_cell_arith : (decodeCell32 0b11_0000000_001000_000100_001001_000_0_0).toOption = some (.add 8 4 9 0 0 0) ∧
    (decodeCell32 0b11_0001110_001000_000100_11111111111).toOption = some (.addi 8 4 2047) ∧ (decodeCell32 0b11_0111011_001000_10000000000000001).toOption = some (.movi 8 65537) := by decide

theorem test_decode_cell_bits : (decodeCell32 0b11_0010100_001000_000100_001001_00000).toOption = some (.shl 8 4 9) ∧
    (decodeCell32 0b11_0011111_001000_000100_1_00111_00010).toOption = some (.bfx 8 4 1 7 2) := by decide

theorem test_decode_cell_tokens : (decodeCell32 0b11_1000000_010_000100_0011_110_0001001).toOption = some (.emit 2 4 3 6 9) ∧
    (decodeCell32 0b11_1001000_001_000100_0010_100_011_0101).toOption = some (.call 1 4 2 3 5) ∧ (decodeCell32 0b11_1000101_00000000000000000000000).toOption = some .endOp := by decide

theorem test_decode_cell_memory : (decodeCell32 0b11_1010000_001000_000100_000_1100_000_1).toOption = some (.lds 8 4 12 1) ∧
    (decodeCell32 0b11_1010100_001000_000100_01_10_1001_1_00).toOption = some (.atom 8 4 1 2 9 1) ∧ (decodeCell32 0b11_1011011_001000_000010_101_0000_1_011).toOption = some (.rput 8 2 5 1 3) := by decide

theorem test_decode_cell_records : (decodeCell32 0b11_1100000_001000_000100_001001_00000).toOption = some (.rmk 8 4 9) ∧
    (decodeCell32 0b11_1101000_000111_000100_0011_000_0001).toOption = some (.hred 7 4 3 1) := by decide

/-- A field that its row marks 0 refuses the word by name. -/
theorem test_decode_refuses : reads (decodeCell32 0b11_1000101_00000000000000000000001) .endOp = false ∧ (decodeCell32 0b11_1000101_00000000000000000000001).toOption = none ∧
    (decodeCell32 0b11_1111111_00000000000000000000000).toOption = none ∧ (decodeRcWord 0x3F00_0000 0).toOption = none ∧ decodeRc 0x3800_0000 0 = .rcIllegalEncoding := by decide

theorem test_decode_compact : (decodeCompact 0b00001_010_0100_1001).toOption = some (.cAdd 2 4 9) ∧ (decodeCompact 0b10111_001_1101_0101).toOption = some (.cSetv 1 13 5) := by decide

/-- R145: op, mt, nt, kt, acc, afmt, bfmt, rm, trig, sat, q, ofmt, v. -/
theorem test_decode_matrix : (decodeMatrix 0b000000_001_110_10010000_011111_1001_0001_000_1110_0_0_0000_1_0000000000000000).toOption = some (.mma 1 6 144 31 9 1 14) ∧
    (decodeMatrix 0b000101_001_110_00000000_011111_0000_0000_011_1110_1_1_0101_1_0000000000000000).toOption = some (.accrd 1 6 31 3 14 1 1 5) := by decide

theorem test_decode_rc_scalar : (decodeRcWord 0b0000000_00011_00001_00010_0000000000 0).toOption = some (.rcAdd 3 1 2) ∧ (decodeRcWord 0b0001110_00011_00001_111111111111111 0).toOption = some (.rcAddi 3 1 32767) ∧
    (decodeRcWord 0b0100000_00011_00001_100000000000000 0).toOption = some (.rcBeq 3 1 16384) := by decide

theorem test_decode_rc_memory : (decodeRcWord 0b0010000_00011_00001_01_0000000000111 0).toOption = some (.rcLd 3 1 1 7) ∧
    (decodeRcWord 0b0010010_00011_00001_00010_0_1_10_01_0011 0).toOption = some (.rcAmo 3 1 2 1 2 1 3) := by decide

theorem test_decode_rc_units : (decodeRcWord 0b1000000_0000_1_00010_00011_00100_00_101 0).toOption = some (.rcCpy 1 2 3 4 5) ∧ (decodeRcWord 0b1000101_00000_00010_00000_00100_00000 0).toOption = some (.rcTbi 2 4) ∧
    (decodeRcWord 0b1010101_00100_00001_00010_1000_0111_00 0).toOption = some (.rcColl 4 1 2 8 7) ∧ (decodeRcWord 0b1100101_00000_00010_000000000000000 0).toOption = some (.rcKill 2) := by decide

/-- R147: the five long forms take their second word whole. -/
theorem test_decode_rc_long : (decodeRcWord 0b1110001_00001_00000000000000000000 0x89ABCDEF).toOption = some (.rcLih 1 0x89ABCDEF) ∧ rcIsLong 0b1110001_00001_00000000000000000000 = true ∧
    rcIsLong 0b1101111_00001_00000000000000000000 = false := by decide

/-- A table word is decoded, and the next step runs it. -/
theorem test_fetch_word : decodeTableWord 32 0xC1102124 = some (.mul 8 4 9 1 0 0) ∧ decodeTableWord 16 0x1849 = some (.cMul 0 4 9) ∧
    decodeTableWord 64 (0xE0300000 + 7 * 2 ^ 32) = some (.rcLi 3 7) ∧ decodeTableWord 64 0x07F0701100810000 = some (.mmaz 7 7 7 0 4 4 1) := by decide

/-! ## Small states -/

/-- A task of context 0, class 0, with these operands. -/
def task (ops : List Reg) : Task := { ctx := 0, cls := 0, frame := 0, iter := 3, ops := ops.map (fun r => { tok := dataToken r 0 0 3 }), pc := 0, serial := 0, since := 0 }

/-- Cell l of core 1 runs a task; l0, l1, … are those registers. -/
def cellSt (l : Nat) (t : Task) (ls : List Reg) : State :=
  { State.reset with fcore := 1, fcell := l, cores := [(1, { cells := [(l, { running := some t, l := (ls ++ List.replicate 4 Reg.empty).take 4 })] })] }

/-- What the task sees. -/
def envSt (l : Nat) (t : Task) : Env := ⟨1, l, t, (draws 16 (1 : W32)).1⟩

/-- Bytes at an address. -/
def poke (s : State) (a : Nat) (b : List Byte) : State := { s with mem := Memory.writeN s.mem a b }

/-- A controller of core 1 with these registers from q1 on. -/
def rcSt (qs : List W64) (f : Rc → Rc) : State :=
  { State.reset with fcore := 1, cores := [(1, { rc := f { ({} : Rc) with mode := .running, q := 0 :: (qs ++ List.replicate 31 0).take 31 } })] }

/-- A region of core 1 alone, of node 1 and partition 0. -/
def oneRegion : Region := { lead := 1, w := 1, h := 1, stage := 0, node := 1, part := 0, tenant := 0 }

/-- Registers: sixteen lanes of one value, lanes 0, 1, 2, …, and lanes below n. -/
def fp (b : Nat) : Reg := fullReg .fp32 (fun _ => b)
def nr (b : Nat) : Reg := fullReg .n32 (fun _ => b)
def sr (b : Nat) : Reg := fullReg .s32 (fun _ => b)
def lanes (f : Fmt) (l : List Nat) : Reg := mkReg f 0 false 0 (fun i => l[i]?)

/-- Partition 0 holds isle 0, owns 512 GiB of HBM5, maps it by one leaf at level 0 of a table at 0x1000 of its supervisor's scratchpad, and has a current key; its buffer table of four entries stands at
2^20 and its shadow pool at 2^30. -/
def part0 : Part := { live := true, isles := 1, tenant := 1, hbm := (0, 512), troot := 2 ^ 32 + 0x1000, buftab := 4 * 2 ^ 48 + 2 ^ 20, shpool := 2 ^ 48 + 2 ^ 30 }
def sysOf (s : State) : State :=
  poke { s with parts := [(0, part0)], keys := [(0, { live := true, tenant := 1, gen := 1, load := 1, current := true })] } (spadBase 63 + 0x1000) [0x0B]

/-- Bytes of external memory, their storage tile in die 0's cache of verified plaintext. -/
def tileOf (s : State) (va : Nat) (b : List Byte) : State :=
  { s with dies := [(0, { s.die 0 with cache := ⟨cacheKey 0 (va / 2048), 1, Memory.writeN ((s.plainAt 0 0 (va / 2048)).getD []) (va % 2048) b⟩ :: (s.die 0).cache })] }

/-- The region of core 1 and its node, with one operand of buffer 2, 4096 bytes from 2^22, that it may read and write. -/
def node1 : Node := { nodeOf [] 64 0 (2 ^ 20 + 63) with handle := 7, tenant := 1, st := 2, ops := [{ handle := 2, mode := 3, start := 2 ^ 22, size := 4096 }] }
def kernelOf (s : State) : State := { s with regions := [oneRegion], nodes := [(1, node1)], cores := s.cores.map (fun e => (e.1, { e.2 with rc := { e.2.rc with node := 1 } })) }

theorem ok_of {α β : Type} {x : Except α β} (h : x.toOption.isSome = true) : ∃ c, x = .ok c := by
  cases x with
  | ok v => exact ⟨v, rfl⟩
  | error e => cases h

/-! ## Cells: hypotheses met -/

def t0 : Task := task []
/-- l0 = 1.5, l1 = 2.0, l2 = 0.5 in FP32; l0 = 7, l1 = 3 in N32. -/
def sF : State := cellSt 0 t0 [fp 0x3FC00000, fp 0x40000000, fp 0x3F000000]
def sI : State := cellSt 0 t0 [nr 7, nr 3, nr 1]
def e0 : Env := envSt 0 t0

theorem runs_cellSt : ∀ ls, (cellSt 0 t0 ls).Runs e0 := fun _ => ⟨rfl, rfl, rfl, rfl⟩

theorem wit_CellArithmetic : sF.Runs e0 ∧ sF.sources e0 [0, 1] = [fp 0x3FC00000, fp 0x40000000] ∧ isFI (fp 0x3FC00000).fmt = true ∧ (fp 0x40000000).fmt = (fp 0x3FC00000).fmt :=
  ⟨runs_cellSt _, rfl, rfl, rfl⟩

/-- The fused forms read d too: l registers for the wide forms, o0 for the compact one. -/
theorem wit_CellFused : sF.sources e0 [0, 1, 2] = [fp 0x3FC00000, fp 0x40000000, fp 0x3F000000] ∧
    (let s := sF.modCtx 1 0 0 (fun c => { c with o := c.o.set 0 (fp 0x3F000000) })
     s.Runs e0 ∧ s.sources e0 [0, 1, 8 + 0] = [fp 0x3FC00000, fp 0x40000000, fp 0x3F000000]) := ⟨rfl, ⟨rfl, rfl, rfl, rfl⟩, rfl⟩

theorem wit_CellUnary : sF.Runs e0 ∧ sF.sources e0 [0] = [fp 0x3FC00000] ∧ isFI (fp 0x3FC00000).fmt = true := ⟨runs_cellSt _, rfl, rfl⟩
theorem wit_CellInteger : sI.Runs e0 ∧ sI.sources e0 [0, 1] = [nr 7, nr 3] ∧ isI (nr 7).fmt = true ∧ isI (nr 3).fmt = true ∧ (nr 3).fmt = (nr 7).fmt := ⟨runs_cellSt _, rfl, rfl, rfl, rfl⟩
theorem wit_CellBits : sI.Runs e0 ∧ sI.sources e0 [0] = [nr 7] ∧ isI (nr 7).fmt = true := ⟨runs_cellSt _, rfl, rfl⟩
theorem wit_CellSpecial : sF.Runs e0 ∧ sF.sources e0 [0] = [fp 0x3FC00000] ∧ isF (fp 0x3FC00000).fmt = true := ⟨runs_cellSt _, rfl, rfl⟩

/-- SEL takes its predicate from l0, which may be one of its sources too. -/
theorem wit_CellCompareSelect : sF.Runs e0 ∧ sF.sources e0 [0, 1] = [fp 0x3FC00000, fp 0x40000000] ∧ isF (fp 0x3FC00000).fmt = true ∧
    (cellSt 0 t0 [nr 1, fp 0, fp 1]).sources e0 [1, 2, 0] = [fp 0, fp 1, nr 1] ∧ (fp 1).fmt = (fp 0).fmt ∧ (fp 0).fmt ≠ .none ∧ isI (nr 1).fmt = true :=
  ⟨runs_cellSt _, rfl, rfl, rfl, rfl, by decide, rfl⟩

theorem wit_CellMoves : sF.Runs e0 ∧ sF.sources e0 [0] = [fp 0x3FC00000] ∧ (fp 0x3FC00000).fmt ≠ .none ∧ sI.sources e0 [0, 1] = [nr 7, nr 3] ∧ isI (nr 3).fmt = true ∧
    (nr 3).fmt = (nr 7).fmt ∧ sI.sources e0 [0] = [nr 7] ∧ ((nr 7).fmt = .s32 ∨ (nr 7).fmt = .n32) := ⟨runs_cellSt _, rfl, by decide, rfl, rfl, rfl, rfl, Or.inr rfl⟩

/-- TAGRD of operand 2 where the task has three; fields 0 and 11 are the ends of their range. -/
theorem wit_CellTagRead : (cellSt 0 (task [nr 1, nr 2, nr 3]) []).Runs (envSt 0 (task [nr 1, nr 2, nr 3])) ∧ (task [nr 1, nr 2, nr 3]).ops.length = 3 := ⟨⟨rfl, rfl, rfl, rfl⟩, rfl⟩

def mx (xs : Nat) : Reg := { fullReg .e4m3 (fun _ => 0x38) with xs := xs }

/-- A float source for CVT and QNT, one whose block has a scale and one that has none, an MX source for DQN, an integer for FMTS. -/
theorem wit_CellConvert : sF.Runs e0 ∧ sF.sources e0 [0] = [fp 0x3FC00000] ∧ isFIMX (fp 0x3FC00000).fmt = true ∧ isFMX (fp 0x3FC00000).fmt = true ∧
    (blockScale .e4m3 [elemVal .fp32 0 0x3FC00000]).isSome = true ∧ blockScale .e4m3 [elemVal .fp32 0 0x7F800000] = none ∧
    (cellSt 0 t0 [mx 127]).sources e0 [0] = [mx 127] ∧ isMX (mx 127).fmt = true ∧ (nr 7).fmt ≠ .none ∧ (nr 7).fmt ≠ .rcd ∧ fmtWidth (nr 7).fmt = fmtWidth .s32 :=
  ⟨runs_cellSt _, rfl, rfl, rfl, by decide, by decide, rfl, rfl, by decide, by decide, rfl⟩

/-- A scale of 0xFF, and one below it. -/
theorem wit_CellRescale : (cellSt 0 t0 [fp 0, mx 255]).Runs e0 ∧ (cellSt 0 t0 [fp 0, mx 255]).sources e0 [0, 1] = [fp 0, mx 255] ∧ isFMX (fp 0).fmt = true ∧ isMX (mx 255).fmt = true ∧
    (mx 255).xs = 255 ∧ (cellSt 0 t0 [fp 0, mx 254]).sources e0 [0, 1] = [fp 0, mx 254] ∧ (mx 254).xs ≠ 255 := ⟨runs_cellSt _, rfl, rfl, rfl, rfl, rfl, by decide⟩

/-- The arithmetic variants take floats and integers, variants 3 to 5 integers. -/
theorem wit_CellReduce : sF.Runs e0 ∧ sF.sources e0 [0] = [fp 0x3FC00000] ∧ (if 2 ≤ 2 then isFI (fp 0x3FC00000).fmt else isI (fp 0x3FC00000).fmt) = true ∧
    sI.sources e0 [0] = [nr 7] ∧ (if 3 ≤ 2 then isFI (nr 7).fmt else isI (nr 7).fmt) = true := ⟨runs_cellSt _, rfl, rfl, rfl, rfl⟩

/-- Records: a change of no value word and one of eleven, a null record, tokens with and without a time. -/
def rc0 : Reg := lanes .rcd [1, 0, 5, 2, 1]
def rc11 : Reg := lanes .rcd [1, 0, 6, 4, 1, 1, 2, 3, 4, 5, 6, 7, 8, 9, 10, 11]
def rnull : Reg := lanes .rcd []
theorem change0 : IsChange none rc0 := ⟨rfl, 0, by decide, by decide, fun _ h => nomatch h⟩
theorem change11 : IsChange none rc11 := ⟨rfl, 11, by decide, by decide, fun _ h => nomatch h⟩
theorem null0 : IsNull rnull := ⟨rfl, by decide⟩

def sR : State := cellSt 0 t0 [rc0, rc11, rnull]

theorem wit_CellRecords : sR.Runs e0 ∧ sR.sources e0 [0, 1] = [rc0, rc11] ∧ sR.recWidth e0 0 = none ∧ IsChange none rc0 ∧ HasTime none rc11 ∧
    IsNull rnull ∧ NoTime rnull ∧ HasTime none (lanes .n32 [0, 0, 9, 9]) ∧ NoTime (lanes .n32 [0, 0, 9]) ∧
    -- RMK: a null record, and five lanes with value words 0 and 11
    (∀ i, i < 5 → okAt (lanes .n32 []) i = false) ∧ (∀ i, i < 5 → okAt (lanes .n32 [1, 2, 3, 4, 5]) i = true) ∧
    (∀ i, i < 16 → okAt (lanes .s32 []) i = decide (i < 0)) ∧ (∀ i, i < 16 → okAt (lanes .s32 [1, 2, 3, 4, 5, 6, 7, 8, 9, 10, 11]) i = decide (i < 11)) ∧
    -- TADV: the empty frontier, one element
    frontOf (lanes .n32 []) = some [] ∧ frontOf (lanes .n32 [7, 8]) = some [(7, 8)] ∧
    ([(7, 8)].map (fun x : Time => max (laneOf rc0 2) x.1)).min? = some 7 ∧ ([(7, 8)].map (fun x : Time => max (laneOf rc0 3) x.2)).min? = some 8 ∧
    -- SCOPE enter below the last round; RHASH of a token with its key and without
    laneOf rc0 3 ≠ 0xFFFFFFFF ∧ (okAt (nr 7) 0 = true ∧ okAt (nr 7) 1 = true) ∧ (okAt (lanes .n32 [1]) 0 && okAt (lanes .n32 [1]) 1) = false ∧
    (lanes .bf16 [1, 2]).fmt = .bf16 :=
  ⟨runs_cellSt _, rfl, by decide, change0, Or.inl change11, null0, Or.inl null0, Or.inr ⟨rfl, by decide, by decide⟩, Or.inr ⟨rfl, by decide⟩, by decide, by decide, by decide, by decide,
    by decide, by decide, by decide, by decide, by decide, by decide, by decide, rfl⟩

/-- Edge 0 leads nowhere in particular and takes any format; an EMIT of tagop 6 takes its iter from lane 0; STEER may name edges 6 and 7. -/
theorem takes0 : ∀ E, E < 8 → ∀ f c g i, sI.takes e0 E f c g i := by
  intro E hE f c g i
  have h : sI.edgeWord e0.core e0.cell e0.task.ctx E = 0 := by interval_cases E <;> decide
  refine ⟨?_, Or.inl ?_⟩
  · rw [h]; cases f <;> decide
  · rw [h]; exact Nat.mod_one _

theorem wit_CellEmits : sI.Runs e0 ∧ (nr 7).fmt ≠ .none ∧ (nr 3).fmt ≠ .none ∧ sI.sources e0 [0] = [nr 7] ∧ sI.takes e0 0 .n32 15 0 3 ∧ sI.sources e0 [0, 1 % 64] = [nr 7, nr 3] ∧ okAt (nr 3) 0 = true ∧
    sI.takes e0 6 .n32 0 0 2 ∧ sI.takes e0 (6 + 1) .n32 0 0 2 ∧ (lanes .n32 [7, 8]).fmt = .n32 ∧ frontOf (lanes .n32 [7, 8]) = some [(7, 8)] ∧
    (∀ i, i < 16 → okAt (nr 0) i = false ∨ laneOf (nr 0) i = 0) ∧ (sI.ctx 1 0 0).slot = none ∧
    ((sI.modCtx 1 0 0 (fun c => { c with slot := some (markToken (nr 0) 1 0 0) })).ctx 1 0 0).slot = some (markToken (nr 0) 1 0 0) :=
  ⟨runs_cellSt _, by decide, by decide, rfl, takes0 0 (by decide) _ _ _ _, rfl, by decide, takes0 6 (by decide) _ _ _ _, takes0 7 (by decide) _ _ _ _, rfl, by decide, by decide, rfl, rfl⟩

def tF : Task := { t0 with frame := 5, newFrame := some 9 }
def sFr : State := { cellSt 0 tF [nr 7] with isles := [(0, { ({} : Isle) with frames := [(5, ⟨1, 1, default⟩)] })] }

/-- A task of frame 5, active, for which frame 9 is reserved. -/
theorem wit_CellCalls : sFr.Runs (envSt 0 tF) ∧ (nr 7).fmt ≠ .none ∧ sFr.sources (envSt 0 tF) [0] = [nr 7] ∧ tF.newFrame = some 9 ∧ sFr.takes (envSt 0 tF) 0 .n32 0 9 3 ∧ tF.frame ≠ 0 ∧
    sFr.frameSt (envSt 0 tF) = 1 := ⟨⟨rfl, rfl, rfl, rfl⟩, by decide, rfl, rfl, ⟨by decide, Or.inl (by decide)⟩, by decide, by decide⟩

def coalSt (n : Nat) (u : Reg) : State :=
  (cellSt 0 t0 [u]).modCtx 1 0 0 (fun c => { c with coal := { ({} : Coal) with elems := List.replicate n 1, fmt := .n32, edge := 2 } })

/-- An empty buffer; one of 15 elements, which one more fills and none leaves; FLUSHC of an empty buffer and of a full one. -/
theorem wit_CellCoalesce : (coalSt 0 (lanes .n32 [])).Runs e0 ∧ ((coalSt 0 (lanes .n32 [])).ctx 1 0 0).coal.elems = [] ∧ (coalSt 0 (lanes .n32 [4])).sources e0 [0] = [lanes .n32 [4]] ∧
    (∀ f : Nat → Option W32, (∀ i, f i = (bits? (lanes .n32 []) i).map (BitVec.ofNat 32)) → (List.range 16).filterMap f = []) ∧
    ((List.range 16).filterMap (fun i => (bits? (lanes .n32 [4]) i).map (BitVec.ofNat 32)) = [4]) ∧
    (coalSt 15 (lanes .n32 [4])).Runs e0 ∧ (((coalSt 15 (lanes .n32 [4])).ctx 1 0 0).coal.elems ++ [4]).length = 16 ∧ (((coalSt 14 (lanes .n32 [4])).ctx 1 0 0).coal.elems ++ [4]).length < 16 ∧
    (lanes .n32 [4]).fmt = ((coalSt 15 (lanes .n32 [4])).ctx 1 0 0).coal.fmt ∧ (lanes .n32 [4]).xs = ((coalSt 15 (lanes .n32 [4])).ctx 1 0 0).coal.xs ∧
    ((coalSt 15 (lanes .n32 [4])).ctx 1 0 0).coal.edge = 2 ∧ (coalSt 15 (lanes .n32 [4])).takes e0 2 .n32 0 0 3 ∧ ((coalSt 16 (lanes .n32 [4])).ctx 1 0 0).coal.elems.length ≤ 16 := by
  refine ⟨⟨rfl, rfl, rfl, rfl⟩, rfl, rfl, fun f hf => ?_, by decide, ⟨rfl, rfl, rfl, rfl⟩, rfl, by decide, rfl, rfl, rfl, ⟨by decide, Or.inl (by decide)⟩, by decide⟩
  rw [show f = fun i => (bits? (lanes .n32 []) i).map (BitVec.ofNat 32) from funext hf]; decide

/-- FILT keeps some lane, and keeps none. -/
theorem wit_CellEnds : sI.Runs e0 ∧ sI.sources e0 [0, 1] = [nr 7, nr 3] ∧ (nr 7).fmt ≠ .none ∧ (∃ i, i < 16 ∧ (okAt (nr 3) i && laneOf (nr 3) i != 0) = true) ∧
    (cellSt 0 t0 [nr 7, nr 0]).sources e0 [0, 1] = [nr 7, nr 0] ∧ (∀ i, i < 16 → (okAt (nr 0) i && laneOf (nr 0) i != 0) = false) := ⟨runs_cellSt _, rfl, by decide, ⟨0, by decide⟩, rfl, by decide⟩

/-- Each class of source that an instruction refuses: tag NONE, unlike tags, float for integer, integer for float, no MX tag, no record, no BF16. -/
theorem wit_CellMismatch : sI.Runs e0 ∧ (cellSt 0 t0 []).sources e0 [0, 1] = [Reg.empty, Reg.empty] ∧ Reg.empty.fmt = .none ∧
    (cellSt 0 t0 [nr 7, sr 7]).sources e0 [0, 1] = [nr 7, sr 7] ∧ (nr 7).fmt ≠ (sr 7).fmt ∧ isI (fp 0).fmt = false ∧ isF (nr 0).fmt = false ∧ isFI rnull.fmt = false ∧ isMX (nr 0).fmt = false ∧
    (nr 0).fmt ≠ .rcd ∧ (nr 0).fmt ≠ .bf16 ∧ (cellSt 0 t0 []).sources e0 [0] = [Reg.empty] := ⟨runs_cellSt _, rfl, rfl, rfl, by decide, rfl, rfl, rfl, rfl, by decide, by decide, rfl⟩

/-- Edge 1 leads to port 1 of cell 1 of core 1 in bursts of 2; the port expects FP32; a token of another tag has opened the burst. -/
def sE : State :=
  (poke (poke (poke ((cellSt 0 t0 [nr 7]).modCtx 1 0 0 (fun c => { c with edges := c.edges.set 2 { sent := 1, first := some (0, 3, 1) } })) (cfgBase 1 0 0 + 0x148) (leBytes 8 (65 + 2 ^ 20 + 2 ^ 28 + 2 ^ 48 * 8)))
    (cfgBase 1 0 0 + 0x150) (leBytes 8 (65 + 2 ^ 25 + 2 ^ 28 + 2 ^ 48 * 8))) (cfgBase 1 1 0 + 0x128) (leBytes 8 (2 ^ 22 + 2 ^ 16 * fmtCode .fp32)))

theorem wit_CellFaults : sE.Runs e0 ∧ sE.sources e0 [0] = [nr 7] ∧ (nr 7).fmt ≠ .none ∧ sE.fmtFits (sE.edgeWord 1 0 0 1) .n32 = false ∧
    (sE.fmtFits (sE.edgeWord 1 0 0 2) .n32 = true ∧ (sE.burstState 1 0 0 2).1 % ewBurst (sE.edgeWord 1 0 0 2) ≠ 0 ∧ (sE.burstState 1 0 0 2).2 ≠ some (0, 3, 0)) ∧
    t0.frame = 0 ∧ ({ sFr with isles := [] } : State).frameSt (envSt 0 tF) = 0 ∧ ({ sFr with isles := [] } : State).Runs (envSt 0 tF) ∧
    ((coalSt 15 (sr 4)).sources e0 [0] = [sr 4] ∧ (sr 4).fmt ≠ ((coalSt 15 (sr 4)).ctx 1 0 0).coal.fmt) ∧
    (((coalSt 15 (nr 4)).ctx 1 0 0).coal.edge ≠ 3 ∧ (nr 4).fmt = ((coalSt 15 (nr 4)).ctx 1 0 0).coal.fmt) ∧
    (IsChange none (lanes .rcd [1, 0, 5, 0xFFFFFFFF, 1]) ∧ laneOf (lanes .rcd [1, 0, 5, 0xFFFFFFFF, 1]) 3 = 0xFFFFFFFF) :=
  ⟨⟨rfl, rfl, rfl, rfl⟩, rfl, by decide, by decide, ⟨by decide, by decide, by decide⟩, rfl, by decide, ⟨rfl, rfl, rfl, rfl⟩, ⟨rfl, by decide⟩, ⟨by decide, rfl⟩,
    ⟨⟨rfl, 0, by decide, by decide, fun _ h => nomatch h⟩, by decide⟩⟩

/-- TRAPC 7 with a predicate that holds in lane 15 alone, in a region whose phase runs. -/
def sT : State := { cellSt 0 t0 [mkReg .n32 0 false 0 (fun i => some (if i = 15 then 1 else 0))] with regions := [oneRegion] }
theorem wit_CellTrap : sT.Runs e0 ∧ sT.sources e0 [0] = [mkReg .n32 0 false 0 (fun i => some (if i = 15 then 1 else 0))] ∧ (7 < 8) ∧
    (∃ i, i < 16 ∧ okAt (mkReg .n32 0 false 0 (fun i => some (if i = 15 then 1 else 0))) i = true ∧ laneOf (mkReg .n32 0 false 0 (fun i => some (if i = 15 then 1 else 0))) i ≠ 0) ∧
    sT.regionAt 1 = some oneRegion ∧ sT.regionAt oneRegion.lead = some oneRegion := ⟨⟨rfl, rfl, rfl, rfl⟩, rfl, by decide, ⟨15, by decide⟩, by decide, by decide⟩

/-! ## Region controllers: hypotheses met -/

/-- The widest immediates, and the widest shift. -/
theorem wit_RcImmediates : (32767 < 2 ^ 15 ∧ 4294967295 < 2 ^ 32 ∧ 63 ≤ 63) := by decide

theorem wit_RcBranches : ((rcSt [4, 4] id).rc 1).pc % 4 = 0 ∧ ((rcSt [4, 4] id).qv 1).toNat % 4 = 0 ∧ 4294967292 % 4 = 0 := by decide

/-- A program of LOOP at 0 and ENDL at 4, a count of 0 and the largest; the pc at the ENDL of an open loop. -/
def sL (n : W64) : State := poke (rcSt [n] (fun r => { r with progLen := 8 })) (progBase 1 + 4) (leBytes 4 0x54000000)
theorem wit_RcLoops : (sL 0).inProgram 1 4 = true ∧ decodeRc ((sL 0).rcWordAt 1 4) 0 = .rcEndl ∧ ((sL 0).qv 1).toNat < 2 ^ 32 ∧ ((sL 0).rc 1).loops.length < 4 ∧
    ((sL 0xFFFFFFFF).qv 1).toNat < 2 ^ 32 ∧ (sL 0xFFFFFFFF).inProgram 1 4 = true ∧
    (let l : LoopRec := { start := 0, last := 4, lc := 1 }
     let s := rcSt [] (fun r => { r with pc := 4, loops := [l, l, l, l] })
     (s.rc 1).loops = [l, l, l, l] ∧ l.last = (s.rc 1).pc) := by decide

/-- An LD of 8 bytes at 16, and of the last byte of the scratchpad. -/
theorem wit_RcMemory : bit ((rcSt [16] id).rc 1).far 32 = false ∧ halves 1 16 8 8 false = .ok [⟨1, 16, 8⟩] ∧ (rcSt [16] id).NoRace 1 8 1 16 8 false 0 0 0 ∧ (rcSt [16] id).NoRace 1 8 1 16 8 true 1 0 0 ∧
    halves 1 (spadSize 1 - 1) 1 1 false = .ok [⟨1, spadSize 1 - 1, 1⟩] := ⟨by decide, rfl, ⟨_, rfl⟩, ⟨_, rfl⟩, rfl⟩

/-- Each window at its ends: the first and last byte of the core's own scratchpad, the byte past it, an unaligned word, the isle window's first and last core, the package window's first byte, what
lies above. -/
theorem wit_Windows : (0 < 2 ^ 28 ∧ 0 + 64 ≤ spadSize 1 ∧ 0 % 64 = 0) ∧ (spadSize 1 - 1 < 2 ^ 28 ∧ spadSize 1 - 1 + 1 ≤ spadSize 1 ∧ (spadSize 1 - 1) % 1 = 0) ∧
    (spadSize 1 < 2 ^ 28 ∧ spadSize 1 < spadSize 1 + 1) ∧ (2 < 2 ^ 28 ∧ 2 + 4 ≤ spadSize 1 ∧ 2 % 4 ≠ 0) ∧
    (2 ^ 28 / 2 ^ 28 = 1 ∧ 2 ^ 28 % 2 ^ 22 + 4 ≤ spadSize (isleOf 1 * 64 + 2 ^ 28 / 2 ^ 22 % 64) ∧ 2 ^ 28 % 4 = 0) ∧
    ((2 ^ 29 - 1) / 2 ^ 28 = 1 ∧ spadSize (isleOf 1 * 64 + (2 ^ 29 - 1) / 2 ^ 22 % 64) < (2 ^ 29 - 1) % 2 ^ 22 + 2) ∧
    ((2 ^ 28 + 2) / 2 ^ 28 = 1 ∧ (2 ^ 28 + 2) % 2 ^ 22 + 4 ≤ spadSize (isleOf 1 * 64 + (2 ^ 28 + 2) / 2 ^ 22 % 64) ∧ (2 ^ 28 + 2) % 4 ≠ 0) ∧
    (1 < managerCore ∧ managerCore ≤ 1024) ∧ 2 ^ 29 / 2 ^ 28 = 2 ∧ 3 ≤ 3 * 2 ^ 28 / 2 ^ 28 ∧ 3 ≤ (2 ^ 32 - 1) / 2 ^ 28 := by decide

/-- An AMO of 4 bytes and a CAS of 8: the compare holds for q3 = 0 and fails for q3 = 1. -/
def sA : State := rcSt [32, 5, 0, 1] id
theorem wit_RcAtomics : bit (sA.rc 1).far 32 = false ∧ halves 1 32 (32 / 8) 1 false = .ok [⟨1, 32, 4⟩] ∧ halves 1 32 (64 / 8) 1 false = .ok [⟨1, 32, 8⟩] ∧ 32 % (64 / 8) = 0 ∧ covers 0 0 1 0 1 = true ∧
    (sA.ord 1 8).frel = none ∧ sA.NoRace 1 8 1 32 4 false 2 4 0 ∧ sA.NoRace 1 8 1 32 8 true 2 8 0 ∧
    BitVec.ofNat 64 (Memory.readNat sA.mem (spadBase 1 + 32) 8) = (sA.qv 3).setWidth 64 ∧ BitVec.ofNat 64 (Memory.readNat sA.mem (spadBase 1 + 32) 8) ≠ (sA.qv 4).setWidth 64 :=
  ⟨by decide, rfl, rfl, by decide, by decide, by decide, ⟨_, rfl⟩, ⟨_, rfl⟩, by decide, by decide⟩

/-- A fence with nothing outstanding, and one while a remote store of the controller is. -/
theorem wit_RcFences : sA.remoteOut 1 8 = 0 ∧ (sA.fence 1 8 1).2 = .ok () ∧ (sA.fence 1 8 3).2 = .ok () ∧ 0 < (sA.countRemote 1 8 1).remoteOut 1 8 := ⟨by decide, rfl, rfl, by decide⟩

/-- sr.far names core 2 of this package. -/
theorem wit_RcFar : let f := (rcSt [64] (fun r => { r with far := 2 ^ 32 + 2 * 64 })).rc 1
    bit f.far 32 = true ∧ f.far / 2 ^ 16 % 2 ^ 16 = 0 ∧ f.far / 2 ^ 6 % 2 ^ 10 = 2 ∧ 64 + accessBytes 0 ≤ spadSize 2 ∧ 64 % accessBytes 0 = 0 ∧ spadSize 2 - 1 + accessBytes 3 ≤ spadSize 2 := by decide

theorem wit_RcSpecials : let r := (rcSt [0xFFFFFFFF] (fun r => { r with loops := [{ start := 0, last := 4, lc := 9 }] })).rc 1
    r.loops = [{ start := 0, last := 4, lc := 9 }] ∧ ((rcSt [0xFFFFFFFF] id).qv 1).toNat < 2 ^ 32 := by decide

/-- Outside a phase, in one; an event bit of the mask set, none set; a copy in flight, none. -/
theorem wit_RcStatus : ((rcSt [] id).rc 1).inPhase = false ∧ ((rcSt [] (fun r => { r with inPhase := true })).rc 1).inPhase = true ∧ ((rcSt [] (fun r => { r with ev := 32 })).evBits 1 &&& 63 ≠ 0) ∧
    ((rcSt [] id).evBits 1 &&& 32 = 0) ∧ (let s := (rcSt [] id).modCore 1 (fun c => { c with copies := [(0, State.newCopy (rcSt [] id) 0 false 0 31)] })
      0 < ((s.core 1).copies.filter (fun c => c.2.node = (s.rc 1).node)).length ∧ (s.acquire 1 8 []).2 = .ok ()) ∧
    (((rcSt [] id).core 1).copyF = false ∧ ((rcSt [] id).acquire 1 8 ((rcSt [] id).core 1).copyClr).2 = .ok ()) :=
  ⟨rfl, rfl, by decide, by decide, ⟨by decide, rfl⟩, rfl, rfl⟩

/-- Each cause's condition at an end of its range. -/
theorem wit_RcFaults : 7 < 8 ∧ 63 < 64 ∧ ((rcSt [1] id).qv 1).toNat % 4 ≠ 0 ∧ 4294967295 % 4 ≠ 0 ∧ 2 ^ 32 ≤ ((rcSt [0x100000000] id).qv 1).toNat ∧
    (rcSt [1] id).inProgram 1 4 = false ∧ (decodeRc ((rcSt [1] (fun r => { r with progLen := 8 })).rcWordAt 1 4) 0 ≠ .rcEndl) ∧
    (4 ≤ (((sL 1).modRc 1 (fun r => { r with loops := List.replicate 4 { start := 0, last := 4, lc := 1 } })).rc 1).loops.length) ∧
    ((rcSt [] id).rc 1).loops = [] ∧ ((rcSt [] id).rc 1).loads = [] ∧ ((rcSt [] id).rc 1).refused = none ∧ ((rcSt [] id).rc 1).applied = false ∧ (rcSt [] id).qv (28 + 3) = 0 ∧
    256 ≤ ((rcSt [256] id).qv 1).toNat := by decide

theorem wit_RcPrivilege : ((rcSt [] id).rc 1).level = 0 ∧ ((rcSt [] (fun r => { r with level := 1 })).rc 1).level = 1 := ⟨rfl, rfl⟩

/-- A phase may begin where a load has been applied; the extents of ITER at both ends; a specification at 0 of the kernel image. -/
theorem wit_RcPhases : ((rcSt [] id).rc 1).inPhase = false ∧ ((rcSt [] (fun r => { r with loads := [0] })).rc 1).loads ≠ [] ∧ ((rcSt [] id).rc 1).loads = [] ∧ ((rcSt [] id).rc 1).refused = none ∧
    (let s := rcSt [1, 1048576, 1048576, 1] id
     1 + 3 ≤ 31 ∧ (∀ x ∈ (List.range 4).map (fun j => (s.qv (1 + j)).toNat), 1 ≤ x ∧ x ≤ 2 ^ 20) ∧ ((List.range 4).map (fun j => (s.qv (1 + j)).toNat)).prod ≤ 2 ^ 40) ∧
    (((rcSt [] (fun r => { r with applied := true })).startPhase 1).2 = .ok ()) := ⟨rfl, by decide, rfl, rfl, by decide, rfl⟩

/-- A specification of a COUNT stream of memory cell 0 in the kernel image; the cell's port 0 is enabled for its own generator. -/
def specBytes : List Byte := ((List.replicate 64 0).set 2 1).set 3 15
def sSpec : State :=
  poke ((tileOf (sysOf (kernelOf (rcSt [] (fun r => { r with image := 4096 })))) 4096 specBytes).modCtx 1 0 0 (fun c => { c with loaded := true })) (cfgBase 1 0 0 + 0x120) (leBytes 8 (64 + 2 ^ 22))
theorem wit_RcPhases_spec : fld specBytes 0x28 1 < 64 ∧ ∃ t, sSpec.readVA 1 (sSpec.partAt 1) ((sSpec.rc 1).image + 0) 64 = (t, .ok specBytes) ∧ t.specCause 1 (t.regionCores 1) ⟨1 + 0, 0, specBytes⟩ = none := by
  refine ⟨by decide, _, rfl, ?_⟩
  decide

/-- A BARC that selects a stream's cell, one that selects none; an XTR of a token and of none; an INJ into port 1 of cell 9. -/
def sTok : State := poke ((rcSt [64 * 1 + 9 - 64 + 2 ^ 16, 128] id).modCtx 1 9 0 (fun c => { c with loaded := true })) (cfgBase 1 9 0 + 0x128) (leBytes 8 (64 + 48 + 2 ^ 22))
theorem wit_RcTokens : (let s := (rcSt [255] id).modCell 1 0 (fun c => { c with gen := { on := true } })
      (s.qv 1).toNat < 256 ∧ bit 255 0 = true ∧ (s.cell 1 (cellOfHandle 0)).gen.live = true) ∧
    (((rcSt [0] id).qv 1).toNat < 256 ∧ (∀ h, h < 8 → ((rcSt [0] id).cell 1 (cellOfHandle h)).gen.live = false) ∧ ((rcSt [0] id).barcMerge 1 0).2 = .ok ()) ∧
    ((rcSt [] id).rc 1).extract = [] ∧
    (let s := rcSt [64] (fun r => { r with extract := [(edgeKey 1 0 0 0, eosToken 0 3)] })
     (s.rc 1).extract = [(edgeKey 1 0 0 0, eosToken 0 3)] ∧ halves 1 64 80 64 false = .ok [⟨1, 64, 80⟩] ∧ s.NoRace 1 8 1 64 80 true 1 0 0) ∧
    (sTok.injDest 1 (sTok.qv 1).toNat = some ⟨1, 9, 0, 1⟩ ∧ halves 1 ((sTok.qv 2).toNat % 2 ^ 32) 64 64 false = .ok [⟨1, 128, 64⟩] ∧ sTok.NoRace 1 8 1 128 64 false 0 0 0 ∧ (sTok.port 1 9 0 1).fifo = []) :=
  ⟨by decide, ⟨by decide, by decide, rfl⟩, rfl, ⟨rfl, rfl, ⟨_, rfl⟩⟩, ⟨by decide, rfl, ⟨_, rfl⟩, by decide⟩⟩

/-- A supervisor (core 63 of isle 0) answers the SYS of core 1. -/
def sSys : State := { sysOf (kernelOf (rcSt [] (fun r => { r with mode := .sys 4 none }))) with fcore := 63 }.modRc 63 (fun r => { r with level := 1, q := r.q.set 1 (64 * 1 + 48) })
theorem wit_RcServices : ((rcSt [] (fun r => { r with inPhase := true })).rc 1).inPhase = true ∧ (sSys.rc 63).level = 1 ∧ (sSys.qv 1).toNat % 2 ^ 16 = 64 * 1 + 48 ∧ bit sSys.fuses.isles (isleOf 1) = true ∧
    sSys.partAt 1 = sSys.partAt 63 ∧ sSys.regionAt 1 = some oneRegion ∧ oneRegion.st = .running ∧ (sSys.rc 1).mode = .sys 4 none := by decide

/-- Two barriers at 0x800 and 0x840, ring 0 of two slots of 128 bytes at 0x1000. -/
def withTables (s : State) : State :=
  poke (poke (poke (poke s (ringBase 1) [1, 0, 2]) (ringBase 1 + 16) [0, 0x10, 0, 0, 2, 2]) (ringBase 1 + 256) [0, 8]) (ringBase 1 + 272) [0x40, 8]
def sCpy (qs : List W64) : State := withTables (sysOf (kernelOf (rcSt qs id)))

/-- Copies of no line, of one at the operand's end, of a ring's tiles in and out, of a descriptor; barrier 1, and none (31). -/
theorem wit_RcCopies : (sCpy [256, 1 + 63 * 2 ^ 32]).barrierCount 1 = 2 ∧ (sCpy [256, 1 + 63 * 2 ^ 32]).copyCause 1 0 false (63 * 64) 64 = none ∧ (sCpy [256, 1 + 63 * 2 ^ 32]).copyCause 31 0 true (63 * 64) 64 = none ∧
    spadCause 1 256 64 = none ∧ (sCpy [256, 1 + 63 * 2 ^ 32]).mayIssue 9 ∧ 0 < (sCpy []).ringCount 1 ∧ (sCpy []).copyCause 1 0 true 0 (1 * ((sCpy []).ringEntry 1 0).2.2) = none ∧
    (sCpy [256, 512]).copyCause 31 0 true 0 0 = none ∧ (sCpy [256, 512]).copyCause 31 0 false 0 0 = none ∧ spadCause 1 256 0 = none ∧ (∃ h, halves 1 512 32 32 false = .ok h) :=
  ⟨by decide, by decide, by decide, by decide, rfl, by decide, by decide, by decide, by decide, by decide, ⟨_, rfl⟩⟩

/-- Copies 3 (a ring copy with a slot in work) and 5 (a line copy) of the node on barrier 1. -/
def sStop : State := (sCpy []).modCore 1 (fun c => { c with copies := [(3, { (sCpy []).newCopy 1 true 0 1 with slots := [0], n := 4 }), (5, (sCpy []).newCopy 0 false 0 1)] })
theorem wit_RcCopyStop : 1 < sStop.barrierCount 1 ∧ rising 0 (sStop.core 1).copies = true ∧ ((sStop.core 1).copies.filter (fun c => decide (c.2.node = (sStop.rc 1).node) && (!c.2.stopped && (1 == 31 || c.2.tb == 1)))).length = 2 ∧
    ((sStop.core 1).copies.filter (fun c => decide (c.2.node = (sStop.rc 1).node) && (!c.2.stopped && (31 == 31 || c.2.tb == 31)))).length = 2 := by decide

/-- TBI with the largest count; TBEX to the ends of the sectors' range; TBW in each of its cases. -/
def sBar (b : Bar) : State := poke (sCpy [0xFFFFF]) (spadBase 1 + 0x840) (leBytes 16 b.word)
def bar0 : Bar := ⟨1, 2, false, false, false, 0, 2, 112⟩
theorem wit_RcBarriers : 1 < 31 ∧ 1 < (sBar bar0).barrierCount 1 ∧ ((sBar bar0).barrierEntry 1 1).1 = 0x840 ∧ Bar.read (sBar bar0).mem (spadBase 1 + 0x840) = bar0 ∧ ((sBar bar0).qv 1).toNat < 2 ^ 20 ∧
    (∀ c ∈ ((sBar bar0).core 1).copies, c.2.node = ((sBar bar0).rc 1).node → c.2.tb ≠ 1) ∧ (sBar bar0).NoRace 1 8 1 0x840 16 true 2 16 1 ∧ (sBar bar0).NoRace 1 8 1 0x840 16 false 2 16 1 ∧
    (-(2 ^ 31) ≤ bar0.sectors + (2 ^ 31 - 1 : Int) ∧ bar0.sectors + (2 ^ 31 - 1 : Int) < 2 ^ 31 ∧ bar0.arrivals ≠ 0) ∧
    bar0.phase ≠ ((sBar bar0).rc 1).refs.getD 1 0 ∧ ((sBar bar0).acquire 1 8 ((aget ((sBar bar0).core 1).tbClr 0x840).getD [])).2 = .ok () ∧
    (Bar.read (sBar { bar0 with phase := 0, w := true }).mem (spadBase 1 + 0x840) = { bar0 with phase := 0, w := true }) ∧
    (Bar.read (sBar { bar0 with phase := 0 }).mem (spadBase 1 + 0x840) = { bar0 with phase := 0 } ∧ (sBar { bar0 with phase := 0 }).NoRace 1 8 1 0x840 16 true 2 16 1) :=
  ⟨by decide, by decide, by decide, by decide, by decide, by decide, ⟨_, rfl⟩, ⟨_, rfl⟩, by decide, by decide, rfl, by decide, by decide, ⟨_, rfl⟩⟩

/-! A large write: under the one leaf of partition 0 every page below 2^39 maps to itself, and writes of whole tiles there are done. -/

theorem readN_same {m n : Memory} {a : Nat} (k : Nat) (h : ∀ j, a ≤ j → Memory.read n j = Memory.read m j) : Memory.readN n a k = Memory.readN m a k :=
  List.map_congr_left fun i _ => h _ (Nat.le_add_right a i)

theorem read_writeMasked_above {m : Memory} (h : Memory.wf m = true) {j : Nat} : ∀ (bs ks : List Byte) (a : Nat), a + bs.length ≤ j → Memory.read (Memory.writeMasked m a bs ks) j = Memory.read m j := by
  intro bs
  induction bs generalizing m with
  | nil => intro ks a _; simp [Memory.writeMasked]
  | cons b r ih =>
    intro ks a hj
    rw [List.length_cons] at hj
    cases ks with
    | nil => simp [Memory.writeMasked]
    | cons k ks =>
      simp only [Memory.writeMasked]
      split
      · exact ih h _ _ (by omega)
      · rw [ih (Memory.wf_write h _ _) _ _ (by omega), Memory.read_write_other h _ (by omega)]

structure Flat (s : State) (n : Nat) : Prop where
  wf    : Memory.wf s.mem = true
  leaf  : Memory.readN s.mem (spadBase 63 + 0x1000) 8 = [0x0B, 0, 0, 0, 0, 0, 0, 0]
  part  : ∃ c q b z, s.part 0 = { part0 with ckpt := c, chans := q, bufs := b, spill := z }
  keys  : s.keys = [(0, { live := true, tenant := 1, gen := 1, load := 1, current := true })]
  xlats : s.Xlats 0 (fun page c v => page < 2 ^ 27 → c = 0 ∧ v.1 / 2 = page)
  tiles : ∀ x, ((aget s.tiles x).getD {}).version < n

theorem Flat.walk {s : State} {n : Nat} (h : Flat s n) (va : Nat) (w : Bool) (hv : va < 2 ^ 39) : s.walk 0 va w = .ok (va, true) := by
  have h1 : Memory.readNat s.mem (spadBase 63 + 4096) 8 = 0x0B := by unfold Memory.readNat; rw [h.leaf]; decide
  obtain ⟨c, q, b, z, hp⟩ := h.part
  have h2 : Part.supervisor { part0 with ckpt := c, chans := q, bufs := b, spill := z } = 63 := (show _ = Part.supervisor part0 from rfl).trans (by decide)
  have h3 : bits part0.troot 31 12 * 4096 = 4096 := by decide
  have h4 : va / 2 ^ 39 = 0 := Nat.div_eq_of_lt hv
  unfold State.walk
  dsimp only
  rw [hp]
  rw [h3, if_neg (by rw [show bit part0.troot 32 = true from by decide]; simp; omega)]
  unfold walkFrom
  simp only [h2, show 39 - 9 * (3 - 3) = 39 from rfl, h4, Nat.zero_mod, Nat.mul_zero, Nat.add_zero, h1]
  rw [if_neg (by decide), if_neg (by decide), if_neg (by decide), if_neg (by decide)]
  have h6 : (w && (!bit (if bit 11 2 = true then 11 else 11) 3 || bit (if bit 11 2 = true then 11 else 11) 4)) = false := by cases w <;> rfl
  have h7 : ∀ x y, Part.owns { part0 with ckpt := c, chans := q, bufs := b, spill := z } x y = Part.owns part0 x y := fun _ _ => rfl
  rw [h7]
  rw [if_neg (by decide), if_neg (by rw [h6]; decide), if_neg (by decide)]
  have h5 : va % pageSize 0 (bit 0x0B 2) = va := Nat.mod_eq_of_lt hv
  rw [h5]
  simp [bits, bit]

theorem Flat.translate {s : State} {n k : Nat} (h : Flat s n) (va : Nat) (w : Bool) (hv : va < 2 ^ 39) : ∃ t, s.translate k 0 va w = (t, .ok va) ∧ Flat t n ∧ Translated s t := by
  have e := translate_spec s k 0 va w
  have hw := h.walk va w hv
  refine ⟨(s.translate k 0 va w).1, Prod.ext rfl (translate_ok hw h.xlats fun c v hp => ?_),
    ⟨by rw [e.rest]; exact h.wf, by rw [e.rest]; exact h.leaf, by rw [e.rest]; exact h.part, by rw [e.rest]; exact h.keys, h.xlats.translate ?_, by rw [e.rest]; exact h.tiles⟩, e⟩
  · obtain ⟨hc, hx⟩ := hp (by omega)
    exact ⟨hc, by rw [hx]; exact Nat.div_add_mod' va 4096⟩
  · rw [hw]
    exact fun n _ => ⟨rfl, by show (va / 4096 * 2 + 1) / 2 = _; omega⟩

theorem read_putTile_above {d : Memory} (hd : ∀ c ∈ d, c.1 < 2048) : ∀ {m : Memory} {dst j : Nat}, Memory.wf m = true → dst + 2048 ≤ j →
    Memory.read (Memory.putTile m d dst) j = Memory.read m j := by
  intro m dst j hm hj
  have fold : ∀ (d m : Memory), (∀ c ∈ d, c.1 < 2048) → Memory.wf m = true →
      Memory.read (d.foldl (fun n c => Memory.write n (c.1 + dst) c.2) m) j = Memory.read m j := by
    intro d
    induction d with
    | nil => intro m _ _; rfl
    | cons c r ih =>
      intro m hd hm
      rw [List.foldl_cons, ih _ (fun x hx => hd x (List.mem_cons_of_mem _ hx)) (Memory.wf_write hm _ _)]
      exact Memory.read_write_other hm _ (by have := hd c (List.mem_cons_self ..); omega)
  unfold Memory.putTile
  rw [fold d _ hd (Memory.wf_clear hm _ _), Memory.read_clear, if_neg (by omega)]

theorem Flat.seal {s : State} {n k : Nat} (h : Flat s n) (tile : Nat) (bytes : List Byte) (hl : bytes.length ≤ 2048) (hv : tile * 2048 < 2 ^ 39) (hn : n < 2 ^ 40) :
    ∃ t, s.seal k 0 tile [] 0 bytes (List.replicate bytes.length 255) = (t, .ok ()) ∧ Flat t (n + 1) := by
  obtain ⟨t, ht, f, -⟩ := h.translate (k := k) (tile * 2048) true hv
  have hq : t.currentSlot (t.part 0).tenant = some (0, { live := true, tenant := 1, gen := 1, load := 1, current := true }) := by
    obtain ⟨c, q, b, z, hp⟩ := f.part; unfold State.currentSlot; rw [f.keys, hp]; rfl
  have hver := f.tiles (tile * 2048 / 2048)
  have hb : (if (t.tileMeta (tile * 2048)).gen = 1 then (t.tileMeta (tile * 2048)).version + 1 else 0) < n + 1 := by
    unfold State.tileMeta
    split <;> omega
  unfold State.seal
  rw [ht]
  dsimp only
  rw [hq]
  dsimp only
  generalize (if (t.tileMeta (tile * 2048)).gen = 1 then (t.tileMeta (tile * 2048)).version + 1 else 0) = v at hb ⊢
  rw [if_neg (by omega), if_neg (by omega)]
  refine ⟨_, rfl, ?_, ?_, f.part, f.keys, ⟨f.xlats.core, f.xlats.isle, ?_⟩, ?_⟩
  · exact Memory.wf_writeMasked (Memory.wf_putTile f.wf _ _) _ _ _
  · rw [← f.leaf]
    refine readN_same 8 fun j hj => ?_
    have hj' : tile * 2048 + 2048 ≤ j := by have : (2 : Nat) ^ 48 ≤ spadBase 63 := by decide
                                            omega
    show Memory.read (Memory.writeMasked (Memory.putTile t.mem [] (tile * 2048)) (tile * 2048 + 0) bytes (List.replicate bytes.length 255)) j = _
    rw [Nat.add_zero]
    rw [read_writeMasked_above (Memory.wf_putTile f.wf [] (tile * 2048)) bytes _ _ (Nat.le_trans (Nat.add_le_add_left hl _) hj')]
    exact read_putTile_above (by simp) f.wf hj'
  · intro d w hw
    refine f.xlats.die d w ?_
    revert hw
    unfold State.uncache State.die
    dsimp only
    have hm : ∀ m : Assoc Die, aget (m.map (fun (e : Nat × Die) => (e.1, ({ e.2 with cache := e.2.cache.filter (fun c => c.key != cacheKey 0 tile) } : Die)))) d =
        (aget m d).map (fun (x : Die) => ({ x with cache := x.cache.filter (fun c => c.key != cacheKey 0 tile) } : Die)) :=
      fun m => aget_map m (fun _ (x : Die) => ({ x with cache := x.cache.filter (fun c => c.key != cacheKey 0 tile) } : Die)) d
    rw [hm, show (t.setMeta (tile * 2048) _).dies = t.dies from rfl]
    cases aget t.dies d <;> exact id
  · intro x
    show ((aget (aset t.tiles (tile * 2048 / 2048) _) x).getD {}).version < n + 1
    rw [aget_aset]
    split
    · exact hb
    · exact Nat.lt_succ_of_lt (f.tiles x)

theorem Flat.writeVA {s : State} {n k : Nat} (h : Flat s n) (va : Nat) (bytes : List Byte) (ha : va % 2048 = 0) (hl : bytes.length % 2048 = 0) (hv : va + bytes.length < 2 ^ 39) (hn : n < 2 ^ 39) :
    ∃ t, s.writeVA k 0 va bytes = (t, .ok ()) := by
  have segs : ∀ (l : List (Nat × Nat × Nat)) (s : State) (n : Nat) (bs : List Byte), Flat s n → n + l.length < 2 ^ 40 → (∀ g ∈ l, g.2 = (0, 2048) ∧ g.1 * 2048 < 2 ^ 39) → bs.length = 2048 * l.length →
      ∃ t b, l.foldl (fun (acc : State × Except (Nat × Nat) (List Byte)) g =>
        match acc with
        | (s, .error c) => (s, .error c)
        | (s, .ok b) =>
          let part := b.take g.2.2
          match (if g.2.2 = 2048 then (s, .ok []) else s.fill k 0 g.1) with
          | (s, .error c) => (s, .error (c, g.1 * 2048 + g.2.1))
          | (s, .ok src) =>
            match s.seal k 0 g.1 src g.2.1 part (List.replicate part.length 255) with
            | (s, .error c) => (s, .error (c, g.1 * 2048 + g.2.1))
            | (s, .ok _) => (s, .ok (b.drop g.2.2))) (s, .ok bs) = (t, .ok b) := by
    intro l
    induction l with
    | nil => intro s n bs _ _ _ _; exact ⟨s, bs, rfl⟩
    | cons g r ih =>
      intro s n bs f hn hg hb
      rw [List.length_cons] at hn hb
      obtain ⟨g0, g1⟩ := hg g (List.mem_cons_self ..)
      obtain ⟨t, ht, f'⟩ := f.seal (k := k) g.1 (bs.take 2048) (by rw [List.length_take]; omega) g1 (by omega)
      obtain ⟨u, b, hu⟩ := ih t (n + 1) (bs.drop 2048) f' (by omega) (fun x hx => hg x (List.mem_cons_of_mem _ hx)) (by rw [List.length_drop]; omega)
      refine ⟨u, b, ?_⟩
      rw [List.foldl_cons, ← hu]
      congr 1
      simp only [g0, if_true, ht]
  have hlen : (tileSegs va bytes.length).length = bytes.length / 2048 := by
    unfold tileSegs; rw [List.length_map, List.length_range, ha]; omega
  obtain ⟨t, b, hb⟩ := segs (tileSegs va bytes.length) s n bytes h (by rw [hlen]; omega) (by
    intro g hg
    unfold tileSegs at hg
    obtain ⟨i, hi, rfl⟩ := List.mem_map.mp hg
    rw [List.mem_range, ha] at hi
    refine ⟨?_, ?_⟩
    · dsimp only
      rw [ha]
      simp only [ite_self, Prod.mk.injEq, true_and]
      omega
    · dsimp only; omega) (by rw [hlen]; omega)
  unfold State.writeVA
  exact ⟨t, congrArg (fun x : State × Except (Nat × Nat) (List Byte) => x.map id (fun r => r.map (fun _ => ()))) hb⟩

/-- What a fill of a tile gives without its storage: the plaintext that the die holds, or the zeros of a tile that no store has sealed. -/
def Holds (s : State) (k tile : Nat) (d : Memory) : Prop :=
  s.plainAt (dieOf k) 0 tile = some d ∨ (s.plainAt (dieOf k) 0 tile = none ∧ (s.tileMeta (tile * 2048)).st = 0 ∧ d = [])

theorem holds_tileOf {s : State} {va : Nat} (b : List Byte) (k : Nat) (hk : dieOf k = 0) {d : Memory} (hs : (s.plainAt 0 0 (va / 2048)).getD [] = d) :
    Holds (tileOf s va b) k (va / 2048) (Memory.writeN d (va % 2048) b) := by
  subst hs
  refine Or.inl ?_
  rw [hk]
  show (((tileOf s va b).die 0).cache.find? (fun c => c.key == cacheKey 0 (va / 2048))).map (·.data) = _
  rw [show ((tileOf s va b).die 0).cache = ⟨cacheKey 0 (va / 2048), 1, Memory.writeN ((s.plainAt 0 0 (va / 2048)).getD []) (va % 2048) b⟩ :: (s.die 0).cache from rfl,
    List.find?_cons_of_pos (by simp)]
  rfl

theorem Flat.fill {s : State} {n k tile : Nat} {d : Memory} (h : Flat s n) (hv : tile * 2048 < 2 ^ 39) (hc : Holds s k tile d) :
    ∃ t, s.fill k 0 tile = (t, .ok d) ∧ Flat t n ∧ Translated s t := by
  obtain ⟨t, hf, f, e⟩ := h.translate (k := k) (tile * 2048) false hv
  refine ⟨t, ?_, f, e⟩
  unfold State.fill
  rw [hf]
  dsimp only
  rw [e.plainAt, e.tileMeta]
  rcases hc with hc | ⟨hc, hz, rfl⟩
  · rw [hc]
  · rw [hc, hz]; rfl

/-- Bytes of one tile are read. -/
theorem Flat.readVA {s : State} {n k va len tile off : Nat} {d : Memory} (h : Flat s n) (hs : tileSegs va len = [(tile, off, len)]) (hv : tile * 2048 < 2 ^ 39)
    (hc : Holds s k tile d) : ∃ t, s.readVA k 0 va len = (t, .ok (Memory.readN d off len)) ∧ Flat t n ∧ Translated s t := by
  obtain ⟨t, hf, f, e⟩ := h.fill hv hc
  refine ⟨t, ?_, f, e⟩
  unfold State.readVA State.readTiles
  rw [hs, List.foldl_cons, List.foldl_nil]
  dsimp only [id]
  rw [hf]
  rfl

theorem Holds.translated {s t : State} {k tile : Nat} {d : Memory} (h : Holds s k tile d) (e : Translated s t) : Holds t k tile d := by
  unfold Holds at *
  rw [e.plainAt, e.tileMeta]
  exact h

/-- A request or manifest of one tile. -/
theorem Flat.readCounted {s : State} {n k va len tile off : Nat} {d : Memory} {f : List Byte → Nat} (h : Flat s n) (hc : Holds s k tile d) (hs0 : tileSegs va 64 = [(tile, off, 64)])
    (hl : f (Memory.readN d off 64) = len) (hs : tileSegs va len = [(tile, off, len)]) (hv : tile * 2048 < 2 ^ 39) :
    ∃ t, s.readCounted k 0 va f = (t, .ok (Memory.readN d off len)) ∧ Flat t n ∧ Translated s t := by
  obtain ⟨t, h1, f1, e1⟩ := h.readVA hs0 hv hc
  obtain ⟨u, h2, f2, e2⟩ := f1.readVA (k := k) hs hv (hc.translated e1)
  refine ⟨u, ?_, f2, e1.trans e2⟩
  unfold State.readCounted
  rw [h1]
  dsimp only
  rw [hl, h2]

/-- A write within one tile. -/
theorem Flat.writeTile {s : State} {n k va tile off : Nat} {bytes : List Byte} {d : Memory} (h : Flat s n) (hs : tileSegs va bytes.length = [(tile, off, bytes.length)]) (hl : bytes.length < 2048)
    (hv : tile * 2048 < 2 ^ 39) (hn : n < 2 ^ 40) (hc : Holds s k tile d) : ∃ t, s.writeVA k 0 va bytes = (t, .ok ()) := by
  obtain ⟨t, hf, f, e⟩ := h.fill hv hc
  have hq : t.currentSlot (t.part 0).tenant = some (0, { live := true, tenant := 1, gen := 1, load := 1, current := true }) := by
    obtain ⟨c, q, b, z, hp⟩ := f.part; unfold State.currentSlot; rw [f.keys, hp]; rfl
  have hver := f.tiles (tile * 2048 / 2048)
  obtain ⟨u, hu, -, -⟩ := f.translate (k := k) (tile * 2048) true hv
  refine writeVA_ok (g := (tile, off, bytes.length)) hs (by show bytes.length ≠ 2048; omega) hf (seal_ok (pa := tile * 2048) _ _ _ _ (by rw [hu]) hq ?_)
  dsimp only
  unfold State.tileMeta
  split <;> omega

theorem flat_of {s : State} (w : Memory.wf s.mem = true) (l : Memory.readN s.mem (spadBase 63 + 0x1000) 8 = [0x0B, 0, 0, 0, 0, 0, 0, 0]) (p : ∃ c q b z, s.part 0 = { part0 with ckpt := c, chans := q, bufs := b, spill := z })
    (k : s.keys = [(0, { live := true, tenant := 1, gen := 1, load := 1, current := true })]) (c : s.cores.all (fun e => decide (e.2.tcache = [])) = true)
    (i : s.isles.all (fun e => decide (e.2.tcache = [])) = true) (d : s.dies.all (fun e => decide (e.2.walks = [])) = true) (t : s.tiles.all (fun e => decide (e.2.version < 9)) = true) : Flat s 9 := by
  have none_of : ∀ {α β : Type} [DecidableEq β] (m : Assoc α) (f : α → List β) (z : α), f z = [] → m.all (fun e => decide (f e.2 = [])) = true → ∀ j, f ((aget m j).getD z) = [] := by
    intro α β _ m f z hz h j
    cases hj : aget m j with
    | none => exact hz
    | some v => exact of_decide_eq_true (List.all_eq_true.mp h _ (mem_of_aget hj))
  refine ⟨w, l, p, k, ⟨fun j e h => ?_, fun j e h => ?_, fun j e h => ?_⟩, fun x => ?_⟩
  · rw [show (s.core j).tcache = [] from none_of s.cores Core.tcache {} rfl c j] at h; cases h
  · rw [show (s.isle j).tcache = [] from none_of s.isles Isle.tcache {} rfl i j] at h; cases h
  · rw [show (s.die j).walks = [] from none_of s.dies Die.walks {} rfl d j] at h; cases h
  · cases hx : aget s.tiles x with
    | none => exact (by decide : (0 : Nat) < 9)
    | some v => exact of_decide_eq_true (List.all_eq_true.mp t _ (mem_of_aget hx))

/-- A node with a shadow of tile 2048 may publish it; with a copy out of the buffer it waits; a buffer whose version has moved on. -/
def sPub (v : Nat) : State :=
  let s := sCpy []
  { s.modPart 0 (fun p => { p with bufs := [(2, { start := 2 ^ 22, size := 4096, version := v })] }) with nodes := [(1, { node1 with ops := [{ handle := 2, mode := 3, start := 2 ^ 22, size := 4096, shadow := [(2048, 2 ^ 19)] }] })] }
/-- PUB's write of the buffer's version word is done. -/
theorem publishes : ∃ t v, (sPub 0).publish 1 0 2 [(2048, 2 ^ 19)] = (t, .ok v) := by
  have f : Flat (sPub 0) 9 := flat_of (by decide) (by decide) ⟨_, _, _, _, rfl⟩ rfl rfl rfl rfl rfl
  obtain ⟨u, hu⟩ := f.writeTile (k := 1) (va := bits ((sPub 0).part 0).buftab 47 5 * 32 + 32 * 2 + 0x10) (tile := 512) (off := 80)
    (bytes := leBytes 8 ((((aget ((sPub 0).part 0).bufs 2).getD {}).version + 1) % 2 ^ 48)) (by decide) (by decide) (by norm_num) (by norm_num) (d := []) (Or.inr (by decide))
  unfold State.publish
  dsimp only
  rw [hu]
  exact ⟨_, _, rfl⟩

theorem wit_RcPublication : ((sCpy []).operand 1 0).mode ≠ 0 ∧ ((sCpy []).operand 1 ((sCpy []).sameBuf 1 0)).shadow = [] ∧ ((sPub 0).operand 1 0).allows true = true ∧ ((sPub 0).rc 1).inPhase = false ∧
    ((sPub 0).copiesOf 1 1).any (fun c => c.2.out && ((sPub 0).operand 1 c.2.op).handle == 2) = false ∧
    ((sPub 0).operand 1 ((sPub 0).sameBuf 1 0)).shadow = [(2048, 2 ^ 19)] ∧ (((aget ((sPub 0).part 0).bufs 2).getD {}).version = ((sPub 0).operand 1 0).base) ∧
    (∃ t v, (sPub 0).publish 1 0 2 [(2048, 2 ^ 19)] = (t, .ok v)) ∧
    (((aget ((sPub 9).part 0).bufs 2).getD {}).version ≠ ((sPub 9).operand 1 0).base) ∧
    (let s := (sPub 0).modCore 1 (fun c => { c with copies := [(0, (sPub 0).newCopy 0 true 0 31)] })
     (s.copiesOf 1 1).any (fun c => c.2.out && (s.operand 1 c.2.op).handle == 2) = true) :=
  ⟨by decide, by decide, by decide, rfl, by decide, by decide, by decide, publishes, by decide, by decide⟩

/-- A record of a compute node of 1 x 1 at 2^21 whose image stands at 2^23; some handle is free. -/
def nodeBytes : List Byte := (((List.replicate 64 0).set 4 1).set 6 0x10).set 0x12 0x80
def sSub : State := tileOf (sysOf (kernelOf (rcSt [0x200000, 0x300000] id))) 0x200000 nodeBytes

theorem newHandle_some (s : State) (x : Nat) (h : (s.nodes.filter (fun n => n.2.owner != 0 || n.2.st < 3)).map (·.2.handle) = [x]) : ∃ n, s.newHandle = (some n, s.free.2) := by
  unfold State.newHandle
  dsimp only
  rw [h]
  have : ((((List.range 65536).map (fun i => (s.free.1 + i) % 65536)).find? (fun h => !([x] : List Nat).contains h))).isSome = true := by
    rw [List.find?_isSome]
    by_cases hx : (s.free.1 + 0) % 65536 = x
    · refine ⟨(s.free.1 + 1) % 65536, List.mem_map.mpr ⟨1, List.mem_range.mpr (by norm_num), rfl⟩, ?_⟩
      simp; omega
    · exact ⟨(s.free.1 + 0) % 65536, List.mem_map.mpr ⟨0, List.mem_range.mpr (by norm_num), rfl⟩, by simpa using hx⟩
  obtain ⟨n, hn⟩ := Option.isSome_iff_exists.mp this
  exact ⟨n, by rw [hn]⟩

theorem wit_RcNodes_sub : (sSub.qv 1).toNat % 64 = 0 ∧ ∃ t u h w, sSub.readVA 1 (sSub.partAt 1) 0x200000 64 = (t, .ok nodeBytes) ∧
    t.recordCause 1 nodeBytes (nodeOf nodeBytes 0x200000 0 (t.submitter 1)) = none ∧ t.progLenOf 1 (nodeOf nodeBytes 0x200000 0 (t.submitter 1)) = (u, .ok 0) ∧
    0 ≤ 65536 ∧ u.newHandle = (some h, w) ∧ w.fcore = 1 := by
  refine ⟨by decide, ?_⟩
  obtain ⟨t, ht, hr, u, hu, hn, hf⟩ : ∃ t, sSub.readVA 1 (sSub.partAt 1) 0x200000 64 = (t, .ok nodeBytes) ∧ t.recordCause 1 nodeBytes (nodeOf nodeBytes 0x200000 0 (t.submitter 1)) = none ∧
      ∃ u, t.progLenOf 1 (nodeOf nodeBytes 0x200000 0 (t.submitter 1)) = (u, .ok 0) ∧ (u.nodes.filter (fun n => n.2.owner != 0 || n.2.st < 3)).map (·.2.handle) = [7] ∧ u.free.2.fcore = 1 :=
    ⟨_, rfl, by decide, _, rfl, by decide, rfl⟩
  obtain ⟨h, hh⟩ := newHandle_some u 7 hn
  exact ⟨t, u, h, u.free.2, ht, hr, hu, by omega, hh, hf⟩

/-- Node 5, which node 1 has submitted, waiting, completed, terminated; the address of the second register is no live node's. -/
def sDep (st : Nat) : State := let s := sysOf (kernelOf (rcSt [9, 0x300000] id)); { s with nodes := s.nodes ++ [(5, { node1 with owner := 1, handle := 9, st := st, va := 128 })] }
def node5 (st : Nat) : Node := { node1 with owner := 1, handle := 9, st := st, va := 128 }

theorem steps : ∃ t m, (sDep 0).stepPreds 1 0 0x300000 true = (t, .ok m) := by
  have f : Flat (sDep 0) 9 := flat_of (by decide) (by decide) ⟨_, _, _, _, rfl⟩ rfl rfl rfl rfl rfl
  have z : Holds (sDep 0) 1 0x600 [] := Or.inr (by decide)
  obtain ⟨t, hr, g, e⟩ := f.readVA (va := 0x300000 + 4) (len := 2) (off := 4) (by decide) (by norm_num) z
  obtain ⟨v, hv⟩ := g.writeTile (va := 0x300000 + 4) (off := 4) (bytes := leBytes 2 ((fld (Memory.readN [] 4 2) 0 2 + 1) % 65536)) (by decide) (by decide) (by norm_num) (by norm_num) (z.translated e)
  unfold State.stepPreds
  rw [hr]
  dsimp only
  rw [if_pos rfl, hv]
  exact ⟨_, _, rfl⟩

theorem wit_RcNodes : (sDep 3).issuedNode 1 ((sDep 3).qv 1).toNat = some (5, node5 3) ∧ (sDep 3).nodes.any (fun m => m.2.part == 0 && m.2.va == ((sDep 3).qv 2).toNat) = false ∧
    (sDep 4).issuedNode 1 9 = some (5, node5 4) ∧ 3 < (node5 4).st ∧ (sDep 0).issuedNode 1 9 = some (5, node5 0) ∧ (node5 0).st < 3 ∧ ((sDep 0).die 0).links < 1024 ∧
    (let r := (sDep 3).takeSet 1 []; (r.1.acquire 1 8 r.2).2 = .ok ()) ∧ (let r := (sDep 3).takeSet 1 (if (node5 3).st = 3 then (node5 3).clr else []); (r.1.acquire 1 8 r.2).2 = .ok ()) ∧
    (let s (p : Bool) : State := { (kernelOf (rcSt [] (fun r => { r with pinned := p }))) with nodes := [(1, { node1 with standing := true, pinned := true })] }
     aget (s true).nodes ((s true).rc 1).node = some { node1 with standing := true, pinned := true } ∧ ((s true).rc 1).pinned = true ∧ ((s false).rc 1).pinned = false ∧
     ∃ t, ((s false).release 1 8).1.releaseSuccessors 1 1 ((s false).release 1 8).2 = (t, .ok ()) ∧ t.fcore = 1) :=
  ⟨by decide, by decide, by decide, by decide, by decide, by decide, by decide, rfl, rfl, by decide, rfl, rfl, _, rfl, rfl⟩

/-- A record at 256 of a communicator of cores 1 and 257 (die 1), its table at 512; partition 0 holds the isles of both. -/
def sCom : State :=
  let s := sysOf (kernelOf (rcSt [256] id))
  let s := s.modPart 0 (fun p => { p with isles := 17 })
  poke (poke (poke s (spadBase 1 + 256) [5, 0, 0, 0, 2, 0, 0, 0, 0, 2]) (spadBase 1 + 268) [0, 4, 0, 0, 64]) (spadBase 1 + 512) ([114, 0, 0, 0, 0, 0, 0, 0] ++ [114, 64])
/-- A communicator of one rank in slot 2 with a collective of this status, a descriptor at 256 (source 0, destination 64, 64 bytes of FP32, root 0). -/
def sColl (st : Nat) (v : W64) : State :=
  let s := sysOf (kernelOf (rcSt [2, 256, 8193, v] id))
  let s := s.modDie 0 (fun d => { d with comms := [(2, { core := 1, node := 1, key := 5, n := 1, rank := 0, gen := 0, trace := false, table := [114], area := 1024, size := 128, st := 2, issued := 2, colls := [{ handle := 8193, op := 0, oper := 0, src := 0, dst := 64, size := 64, fmt := .fp32, root := 0, prio := 0, sel := 0, status := st }] })] })
  poke s (spadBase 1 + 260) [64, 0, 0, 0, 64, 0, 0, 0, 1]
theorem wit_RcCollectives : sCom.rcBehind ((sCom.qv 1).toNat % 2 ^ 32) 64 = false ∧
    (∃ t rcd g u tb g', (sCom.rcWaits false).load (sCom.agent 1 8) 1 ((sCom.qv 1).toNat % 2 ^ 32) 64 64 false = (t, .ok (rcd, g)) ∧ commForm rcd = true ∧ t.rcBehind (fld rcd 8 4) (8 * 2) = false ∧
      (t.rcWaits false).load (t.agent 1 8) 1 (fld rcd 8 4) (8 * 2) 8 false = (u, .ok (tb, g')) ∧ fld rcd 4 1 = 2 ∧ (let table := (List.range 2).map (fun i => fld tb (8 * i) 8)
      table.all entryForm = true ∧ table.all (u.entryReach 0) = true ∧ u.entryOwn 0 (table.getD (fld rcd 5 1) 0) = true ∧ entryCore (table.getD (fld rcd 5 1) 0) = 1 ∧ u.loadsRank 1 = false ∧
      (u.die 0).freeSlot = some 0 ∧ u.takePairs 0 ((dedup (table.flatMap (u.portsTo 1 0))).filter (· != 18)) = some [(19, 0)])) ∧
    (let s := sColl 0 0
     ∃ c t bs g, s.commAt 1 (s.qv 1).toNat = some c ∧ s.rcBehind ((s.qv 2).toNat % 2 ^ 32) 32 = false ∧ (s.rcWaits false).load (s.agent 1 8) 1 ((s.qv 2).toNat % 2 ^ 32) 32 32 false = (t, .ok (bs, g)) ∧ collCause c 0 0 bs = none ∧
      ((t.release 1 8).1.acquire 1 12 (t.release 1 8).2).2 = .ok ()) ∧
    (∃ c q, (sColl 1 0).collAt 1 ((sColl 1 0).qv 3).toNat = some (c, q) ∧ (let r := (sColl 1 0).takeSet 1 (if bit q.status 0 then q.clr else []); (r.1.acquire 1 8 r.2).2 = .ok ()) ∧ q.status % 4 ≠ 0) ∧
    (∃ c q, (sColl 0 0).collAt 1 ((sColl 0 0).qv 3).toNat = some (c, q) ∧ q.status % 4 = 0) ∧
    (∃ c, (sColl 0 86).commAt 1 ((sColl 0 86).qv 1).toNat = some c ∧ ((sColl 0 86).qv 4).toNat < 128 ∧ bits ((sColl 0 86).qv 4).toNat 4 2 ≤ 5) := by
  refine ⟨?_, ⟨_, _, _, _, _, _, rfl, ?_, ?_, rfl, ?_, ?_, ?_, ?_, ?_, ?_, ?_, ?_⟩, ⟨_, _, _, _, rfl, ?_, rfl, ?_, rfl⟩, ⟨_, _, rfl, rfl, ?_⟩, ⟨_, _, rfl, ?_⟩, ⟨_, rfl, ?_, ?_⟩⟩ <;> decide

/-- A supervisor (core 63) with these registers, beside the kernel of core 1; its queue of 16 entries stands at 256, where the tail is v. -/
def sSup (qs : List W64) (v : Nat) : State :=
  let s := sysOf (kernelOf (rcSt [] id))
  let s := ({ s with fcore := 63 }.modRc 63 (fun r => { r with level := 1, mode := .running, q := 0 :: (qs ++ List.replicate 31 0).take 31 })).modPart 0 (fun p => { p with queue := { isSet := true, core := 63, base := 256, entries := 16 } })
  poke s (spadBase 63 + 256) [BitVec.ofNat 8 v]
theorem wit_RcSupervision : 1 ≤ ((sSup [] 0).rc 63).level ∧
    (let s := sSup [64 * 1 + 48, 0x10000] 0
     privNumber s.level 0x102 = true ∧ s.badTarget (bits (s.qv 1).toNat 15 6) = false ∧ srWritable s.level 0x102 = some true ∧ (∃ t, s.srSet (bits (s.qv 1).toNat 15 6) 0x102 (s.qv 2).toNat = .ok t ∧ t.fcore = 63)) ∧
    (let s := sSup [4096, 4096] 0
     s.remoteOut 63 8 = 0 ∧ (s.qv 1).toNat % 4096 = 0 ∧ (s.qv 2).toNat % 4096 = 0 ∧ (s.qv 2).toNat ≠ 0) ∧
    ((sSup [regionHandle 1] 0).regionOf 0 (((sSup [regionHandle 1] 0).qv 1).toNat) = some oneRegion ∧ oneRegion.st = .running ∧ oneRegion.pending = false) ∧
    (let s := { sSup [] 0 with regions := [{ oneRegion with part := 1 }] }
     ∀ g ∈ s.regions, g.part ≠ s.partAt 63) ∧
    (∀ n ∈ [(16 : Nat), 4096], let s := sSup [BitVec.ofNat 64 (0x180000 - 64 - 32 * n), BitVec.ofNat 64 n] 0
     (s.qv 2).toNat ∈ [16, 32, 64, 128, 256, 512, 1024, 2048, 4096] ∧ (s.qv 1).toNat + 64 + 32 * (s.qv 2).toNat ≤ spadSize 63 ∧ (s.qv 1).toNat % 64 = 0 ∧ (s.queue (s.queueNo 63)).kept = []) ∧
    ((sSup [] 0).queueWord ((sSup [] 0).queue ((sSup [] 0).queueNo 63)) 0 = (sSup [] 0).queueWord ((sSup [] 0).queue ((sSup [] 0).queueNo 63)) 1) ∧
    (let s := { sSup [] 0 with parts := [(0, part0)] }
     (s.queue (s.queueNo 63)).isSet = false) ∧
    (((sSup [] 1).queue ((sSup [] 1).queueNo 63)).isSet = true ∧ (sSup [] 1).queueWord ((sSup [] 1).queue ((sSup [] 1).queueNo 63)) 0 ≠ (sSup [] 1).queueWord ((sSup [] 1).queue ((sSup [] 1).queueNo 63)) 1) := by
  refine ⟨?_, ⟨?_, ?_, ?_, _, rfl, ?_⟩, ?_, ?_, ?_, ?_, ?_, ?_, ?_⟩ <;> decide

/-- sSup with its queue not set, so that its partition is part0. -/
def sFlat (qs : List W64) : State := let s := sSup qs 0; { s with parts := [(0, part0)] }
theorem flat_sFlat (qs : List W64) : Flat (sFlat qs) 9 := flat_of rfl rfl ⟨_, _, _, _, rfl⟩ rfl rfl rfl rfl rfl

/-- The supervisor beside the kernel of core 1, whose region is frozen; node 1 in part. -/
def sFrz (qs : List W64) : State := { sFlat qs with regions := [{ oneRegion with st := .frozen }] }
def frz : Region := { oneRegion with st := .frozen }

def sQuar : State := { sFlat [0x400000, 1] with tiles := [(2048, { st := 2 })] }
theorem scrubs : ∃ t, sQuar.scrubFrom 63 0 2048 1 = (t, .ok 1) := by
  have f : Flat sQuar 9 := flat_of rfl rfl ⟨_, _, _, _, rfl⟩ rfl rfl rfl rfl rfl
  obtain ⟨t, ht, g, e⟩ := f.translate (k := 63) (2048 * 2048) true (by norm_num)
  obtain ⟨u, hu, -⟩ := g.seal (k := 63) 2048 [] (by simp) (by norm_num) (by norm_num)
  have hq : (t.tileMeta (2048 * 2048)).st = 2 := by rw [e.rest]; rfl
  unfold State.scrubFrom
  dsimp only
  rw [ht]
  dsimp only
  rw [hq, if_neg (by decide)]
  rw [show List.replicate ([] : List Byte).length (255 : Byte) = [] from rfl] at hu
  rw [hu]
  exact ⟨u, rfl⟩

/-- Saved, scrubbed, checkpointed and restored; the images, the manifest and the requests are read as verified plaintext. -/
def sImg : State :=
  let s := { sFlat [64 * 2 + 48, 0x400000] with saved := [{ part := 0, live := false, region := frz, node := 1, rcd := node1, cores := [{}], stores := [[]], frames := [], bytes := [7, 8, 9] }] }
  tileOf s 0x400000 [7, 8, 9]
theorem finds : ∃ t v, sImg.findImage 63 0 0x400000 = (t, .ok (some v)) ∧ t.rectCause v 0 (t.q 63 1 % 2 ^ 16) = none :=
  ⟨_, _, rfl, by decide⟩

/-- 2 MiB pages: va 0 to 2^21 is mapped to 0. -/
def sMig : State :=
  let s := sFlat [0, 0x800000]
  poke (poke (poke s (spadBase 63 + 0x1000) [1, 0x20]) (spadBase 63 + 0x2000) [1, 0x30]) (spadBase 63 + 0x3000) [0x0B]
def sMig2 : State := sMig.modPart 0 (fun p => { p with migr := some ⟨0, 2 ^ 21, spadBase 63 + 0x3000, 0x0B, 0x800000⟩ })

theorem saves : ∃ t, ((sFrz [regionHandle 1, 0x400000]).imageOf frz).2.writeVA 63 0 0x400000 ((sFrz [regionHandle 1, 0x400000]).imageOf frz).1.bytes = (t, .ok ()) := by
  have hl : (((sFrz [regionHandle 1, 0x400000]).imageOf frz).1.bytes).length = 1904640 := by
    unfold State.imageOf
    dsimp only
    rw [List.length_map, List.length_range]
    decide
  have f : Flat ((sFrz [regionHandle 1, 0x400000]).imageOf frz).2 9 := flat_of rfl rfl ⟨_, _, _, _, rfl⟩ rfl rfl rfl rfl rfl
  exact f.writeVA _ _ (by norm_num) (by rw [hl]) (by rw [hl]; norm_num) (by norm_num)

theorem readNat_zero (m : Memory) (a : Nat) (h : m.all (fun c => decide (c.1 < a) || decide (a + 8 ≤ c.1)) = true) : Memory.readNat m a 8 = 0 := by
  have z : ∀ j, a ≤ j → j < a + 8 → Memory.read m j = 0 := by
    intro j h1 h2
    unfold Memory.read
    induction m with
    | nil => rfl
    | cons c r ih =>
      obtain ⟨i, b⟩ := c
      rw [List.all_cons, Bool.and_eq_true, Bool.or_eq_true, decide_eq_true_eq, decide_eq_true_eq] at h
      simp only [aget]
      rw [if_neg (by omega)]
      exact ih h.2
  have : Memory.readN m a 8 = [0, 0, 0, 0, 0, 0, 0, 0] := by
    unfold Memory.readN
    rw [show List.range 8 = [0, 1, 2, 3, 4, 5, 6, 7] from rfl]
    simp only [List.map_cons, List.map_nil]
    rw [z, z, z, z, z, z, z, z] <;> omega
  unfold Memory.readNat
  rw [this]
  rfl

/-- A table whose first entry alone is not zero. -/
theorem mapsInto_first (m : Memory) (p : Part) (pa n f t : Nat) (h : ∀ i, i < 512 → i ≠ 0 → Memory.readNat m (spadBase p.supervisor + t + 8 * i) 8 = 0)
    (h0 : let e := Memory.readNat m (spadBase p.supervisor + t) 8
      (if !bit e 0 then false else if bit e 1 then decide (bits e 47 12 * 4096 < pa + n) && decide (pa < bits e 47 12 * 4096 + pageSize (3 - f) (bit e 2))
        else mapsInto m p pa n f (bits e 31 12 * 4096)) = false) : mapsInto m p pa n (f + 1) t = false := by
  unfold mapsInto
  rw [List.any_eq_false]
  intro i hi
  rw [List.mem_range] at hi
  by_cases z : i = 0
  · subst z
    simp only [Nat.zero_div, Nat.zero_mul, Nat.mul_zero, Nat.add_zero, ite_self]
    exact Bool.eq_false_iff.mp h0
  · rw [h i hi z, if_pos (by decide)]
    decide

theorem migrates : ∃ x, sMig.migrCause 0 0 0x800000 = .ok x := by
  have z : ∀ t ∈ [(0x1000 : Nat), 0x2000, 0x3000], ∀ i, i < 512 → i ≠ 0 → Memory.readNat sMig.mem (spadBase (sMig.part 0).supervisor + t + 8 * i) 8 = 0 := by
    intro t ht i hi h0
    apply readNat_zero
    rw [show sMig.mem = [(281475240955904, 1), (281475240955905, 0x20), (281475240960000, 1), (281475240960001, 0x30), (281475240964096, 0x0B)] from by decide,
      show spadBase (sMig.part 0).supervisor = 281475240951808 from by decide]
    simp only [List.all_cons, List.all_nil, Bool.and_true, Bool.and_eq_true, Bool.or_eq_true, decide_eq_true_eq]
    simp only [List.mem_cons, List.not_mem_nil, or_false] at ht
    omega
  have h3 := mapsInto_first sMig.mem (sMig.part 0) 0x800000 (2 ^ 21) 1 0x3000 (z _ (by simp)) (by decide)
  have h2 := mapsInto_first sMig.mem (sMig.part 0) 0x800000 (2 ^ 21) 2 0x2000 (z _ (by simp)) (by
    dsimp only
    rw [show Memory.readNat sMig.mem (spadBase (sMig.part 0).supervisor + 0x2000) 8 = 0x3001 from by decide, if_neg (by decide), if_neg (by decide)]
    exact h3)
  have h1 := mapsInto_first sMig.mem (sMig.part 0) 0x800000 (2 ^ 21) 3 0x1000 (z _ (by simp)) (by
    dsimp only
    rw [show Memory.readNat sMig.mem (spadBase (sMig.part 0).supervisor + 0x1000) 8 = 0x2001 from by decide, if_neg (by decide), if_neg (by decide)]
    exact h2)
  unfold State.migrCause
  rw [show sMig.leafOf 0 0 = some (spadBase 63 + 0x3000, 0x0B, 2 ^ 21) from by decide]
  dsimp only
  rw [show bits (sMig.part 0).troot 31 12 * 4096 = 0x1000 from by decide, h1, if_neg (by decide), if_neg (by decide)]
  exact ⟨_, rfl⟩

/-- A request at 2^22 for a checkpoint of nothing, with 64 bytes at 5 * 2^20 to save in; one that is under way and has nothing to capture. -/
def reqHead : List Byte := [0x01, 0x4B, 0xEC, 0xC4, 0, 0, 0, 0, 0, 0, 0x50, 0, 0, 0, 0, 0, 64]
def sCk (c : Option Ckpt) : State :=
  let s := { sFlat [0x400000] with parts := [(0, { part0 with ckpt := c })] }
  tileOf s 0x400000 reqHead
def reqBytes : List Byte := reqHead ++ List.replicate 47 0
theorem sCk_reads (c : Option Ckpt) : ∃ t, (sCk c).readCounted 63 0 0x400000 ckptBytes = (t, .ok reqBytes) ∧ Flat t 9 ∧ Translated (sCk c) t := by
  have f : Flat (sCk c) 9 := flat_of (by rw [show (sCk c).mem = (sCk none).mem from rfl]; decide) (by rw [show (sCk c).mem = (sCk none).mem from rfl]; decide) ⟨c, [], [], _, rfl⟩ rfl rfl rfl rfl rfl
  have m : Memory.readN (Memory.writeN [] 0 reqHead) 0 64 = reqBytes := by decide
  rw [← m]
  exact f.readCounted (k := 63) (va := 0x400000) (len := 64) (tile := 2048) (off := 0) (f := ckptBytes) (holds_tileOf _ 63 rfl rfl) (by decide) (by rw [m]; decide) (by decide) (by norm_num)

theorem nextStage_nil (s : State) (pt : Nat) (l : List Nat) : s.nextStage pt [] l = [] := rfl

theorem ckpt_starts : ∃ t, (sCk none).ckptStep 63 0 0x400000 (some 63) 0 = .wait t := by
  obtain ⟨t, ht, -, e⟩ := sCk_reads none
  have h1 : (t.part 0).ckpt = none := by rw [e.rest]; rfl
  have h2 : t.ckptCause 0 reqBytes [] = none := by rw [e.rest]; rfl
  unfold State.ckptStep
  rw [ht]
  dsimp only
  rw [h1]
  dsimp only
  rw [show (List.range (min 64 (ckptT reqBytes))).map (fun i => fld (ckptEntry reqBytes i) 0 2) = [] from by decide, show t.snapshots 63 0 [] = (t, .ok ([], [])) from rfl]
  dsimp only
  rw [h2]
  exact ⟨_, rfl⟩

def ck : Ckpt := { core := some 63, req := 0x400000, snaps := [] }
theorem ckpt_writes (s : State) (f : Flat s 9) (hc : Holds s 63 2560 []) (c : Ckpt) (h1 : c.snaps = []) (h2 : c.images = []) : ∃ u n, s.writeCkpt 63 0 reqBytes c = .done u n := by
  unfold State.writeCkpt
  simp only [h1, h2, show ckptHandles reqBytes = [] from by decide, show ckptT reqBytes = 0 from by decide, List.range_zero, List.map_nil, List.zip_nil_left, List.foldl_nil, List.filterMap_nil, List.append_nil,
    shardPlaces, List.flatMap_nil, show fld reqBytes 8 8 = 0x500000 from by decide, show fld reqBytes 7 1 % 2 = 0 from by decide, if_neg (show ¬(0 : Nat) = 1 from by decide)]
  have hl : (leBytes 4 0x4D4E4601 ++ leBytes 2 1 ++ leBytes 2 0 ++ leBytes 1 (s.part 0).tenant ++ leBytes 1 0 ++ leBytes 1 0 ++ leBytes 1 0 ++ leBytes 4 (manifestLen reqBytes) ++ leBytes 8 s.time ++ List.replicate 40 0 : List Byte).length = 64 := by
    simp [leBytes]
  obtain ⟨v, hv⟩ := f.writeTile (k := 63) (va := 0x500000) (tile := 2560) (off := 0)
    (bytes := leBytes 4 0x4D4E4601 ++ leBytes 2 1 ++ leBytes 2 0 ++ leBytes 1 (s.part 0).tenant ++ leBytes 1 0 ++ leBytes 1 0 ++ leBytes 1 0 ++ leBytes 4 (manifestLen reqBytes) ++ leBytes 8 s.time ++ List.replicate 40 0)
    (by rw [hl]; decide) (by rw [hl]; decide) (by norm_num) (by norm_num) hc
  rw [show ([] : List (List Byte)).length = 0 from rfl, hv]
  exact ⟨_, _, rfl⟩

theorem ckpt_ends : ∃ t n, (sCk (some ck)).ckptStep 63 0 0x400000 (some 63) 0 = .done t n := by
  obtain ⟨t, ht, g, e⟩ := sCk_reads (some ck)
  have h1 : (t.part 0).ckpt = some ck := by rw [e.rest]; rfl
  unfold State.ckptStep
  rw [ht]
  dsimp only
  rw [h1]
  dsimp only
  rw [if_neg (by decide), if_pos (by rfl)]
  simp only [ck, List.foldl_nil, show ckptHandles reqBytes = [] from by decide, nextStage_nil, List.map_nil]
  rw [if_neg (by decide)]
  obtain ⟨u, n, hu⟩ := ckpt_writes t g (Holds.translated (Or.inr (by decide)) e) { core := some 63, req := 0x400000, snaps := [], since := t.time } rfl rfl
  rw [hu]
  exact ⟨_, _, rfl⟩

/-- SHA3-256 of no byte (FIPS 202). -/
def sha3Empty : List Byte := [0xa7, 0xff, 0xc6, 0xf8, 0xbf, 0x1e, 0xd7, 0x66, 0x51, 0xc1, 0x47, 0x56, 0xa0, 0x61, 0xd6, 0x62, 0xf5, 0x80, 0xff, 0x4d, 0xe4, 0x3b, 0x49, 0xfa, 0x82, 0xd8, 0x0a, 0x4b, 0x80, 0xf8, 0x43, 0x4a]
theorem test_sha3_empty : sha3 [] = sha3Empty := by decide +kernel

def rsReq : List Byte := [0x01, 0x4B, 0x57, 0x5E, 1, 0, 0, 0, 0, 4, 0x40] ++ List.replicate 53 0 ++ [7, 0, 0, 0, 0, 0, 0, 0, 0xFF, 0xFF] ++ List.replicate 54 0
def rsMan : List Byte := [0x01, 0x46, 0x4E, 0x4D, 1, 0, 1, 0, 1, 0, 0, 0, 192] ++ List.replicate 51 0 ++ [7, 0, 0, 0, 0, 0, 0, 0, 1] ++ List.replicate 63 0 ++ [0, 0, 0x40, 0, 0, 0, 0, 0] ++ sha3Empty ++ List.replicate 16 0
/-- A request to restore one region image of no byte, and its manifest. -/
def sRs : State :=
  tileOf (sFlat [0x400000]) 0x400000 (rsReq ++ List.replicate 896 0 ++ rsMan)
def rsTile : Memory := Memory.writeN [] 0 (rsReq ++ List.replicate 896 0 ++ rsMan)
theorem rsReq_read : Memory.readN rsTile 0 128 = rsReq := by decide +kernel
theorem rsMan_read : Memory.readN rsTile 1024 192 = rsMan := by decide +kernel
theorem wit_RcSaves_restore : ∃ t u v c, sRs.readCounted 63 0 0x400000 rstrBytes = (t, .ok rsReq) ∧ badRequest rsReq = false ∧ t.readCounted 63 0 (fld rsReq 8 8) manifestBytes = (u, .ok rsMan) ∧
    badManifest (rsMan.take (fld rsMan 12 4)) = false ∧ fld (rsMan.take (fld rsMan 12 4)) 8 1 = (u.part 0).tenant ∧ fld (rsMan.take (fld rsMan 12 4)) 10 1 = 0 ∧
    (rstrTargets rsReq).findSome? (targetCause (manifestEntries (rsMan.take (fld rsMan 12 4)))) = none ∧
    u.applyRestore 63 0 (manifestEntries (rsMan.take (fld rsMan 12 4))) (rstrTargets rsReq) = (v, .ok c) := by
  have f : Flat sRs 9 := flat_of (by decide) (by decide) ⟨none, [], [], _, rfl⟩ rfl rfl rfl rfl rfl
  have z : Holds sRs 63 2048 rsTile := holds_tileOf _ 63 rfl rfl
  have n0 : Memory.readN rsTile 0 64 = rsReq.take 64 := by decide +kernel
  have n1 : Memory.readN rsTile 1024 64 = rsMan.take 64 := by decide +kernel
  obtain ⟨t, ht, g, e⟩ := f.readCounted (va := 0x400000) (len := 128) (off := 0) (f := rstrBytes) z (by decide) (by rw [n0]; decide) (by decide) (by norm_num)
  obtain ⟨u, hu, g', e'⟩ := g.readCounted (va := 0x400400) (len := 192) (off := 1024) (f := manifestBytes) (z.translated e) (by decide) (by rw [n1]; decide) (by decide) (by norm_num)
  rw [rsReq_read] at ht
  rw [rsMan_read] at hu
  have h1 : manifestEntries (rsMan.take (fld rsMan 12 4)) = [(rsMan.drop 64).take 128] := by
    rw [show fld rsMan 12 4 = 192 from by decide, List.take_of_length_le (by decide +kernel)]
    unfold manifestEntries
    rw [show fld rsMan 6 2 = 1 from by decide]
    rfl
  have hr : u.readShard 63 0 ((rsMan.drop 64).take 128) = (u, .ok []) := by
    unfold State.readShard
    have h0 : ∀ va, va % 2048 = 0 → u.readVA 63 0 va 0 = (u, .ok []) := by
      intro va h
      unfold State.readVA State.readTiles tileSegs
      rw [h]
      rfl
    have h2 : fld ((rsMan.drop 64).take 128) 0x40 8 = 0 := by decide
    have h3 : fld ((rsMan.drop 64).take 128) 0x48 8 % 2048 = 0 := by decide
    rw [h2, h0 _ h3]
    dsimp only
    rw [test_sha3_empty, if_pos (by decide)]
  have ha : ∃ v, u.applyRestore 63 0 [(rsMan.drop 64).take 128] (rstrTargets rsReq) = (v, .ok 1) := by
    unfold State.applyRestore
    dsimp only
    rw [show ([(rsMan.drop 64).take 128].filter (fun e => (rstrTargets rsReq).any (fun t => (shardsUsed [(rsMan.drop 64).take 128] t).contains e))) = [(rsMan.drop 64).take 128] from by decide,
      show (rstrTargets rsReq).filter (fun t => fld t 8 2 != 0xFFFF) = [] from by decide]
    simp only [List.foldl_cons, List.foldl_nil, hr, List.nil_append, List.map_nil, dedup]
    exact ⟨_, rfl⟩
  obtain ⟨v, ha⟩ := ha
  refine ⟨t, u, v, 1, ht, by decide, ?_, by decide, ?_, by decide, by decide, by rw [h1, ha]⟩
  · rw [show fld rsReq 8 8 = 0x400400 from by decide]; exact hu
  · obtain ⟨c, q, b, z, hc⟩ := g'.part
    rw [hc]
    show _ = part0.tenant
    decide

theorem wit_RcSaves : 1 ≤ ((sFrz [regionHandle 1, 0]).rc 63).level ∧ (sFrz [regionHandle 1, 0]).regionOf 0 ((sFrz [regionHandle 1, 0]).qv 1).toNat = some frz ∧ frz.st = .frozen ∧ ((sFrz [regionHandle 1, 0]).qv 2).toNat = 0 ∧
    (sFrz [regionHandle 1, 0x400000]).hasMembership frz.node = false ∧
    (∃ t, ((sFrz [regionHandle 1, 0x400000]).imageOf frz).2.writeVA 63 0 0x400000 ((sFrz [regionHandle 1, 0x400000]).imageOf frz).1.bytes = (t, .ok ())) ∧
    (∃ t v, sImg.findImage 63 0 0x400000 = (t, .ok (some v)) ∧ t.rectCause v 0 (t.q 63 1 % 2 ^ 16) = none) ∧
    ((sMig.part 0).migr = none ∧ ∃ x, sMig.migrCause 0 0 0x800000 = .ok x) ∧
    (∃ g, (sMig2.part 0).migr = some g ∧ Memory.readNat sMig2.mem g.leafAt 8 = g.leaf) ∧
    (∃ t, sQuar.scrubFrom 63 0 2048 1 = (t, .ok 1)) ∧ (∃ t, (sCk none).ckptStep 63 0 0x400000 (some 63) 0 = .wait t) ∧ (∃ t n, (sCk (some ck)).ckptStep 63 0 0x400000 (some 63) 0 = .done t n) :=
  ⟨by decide, by decide, by decide, by decide, by decide, saves, finds, ⟨by decide, migrates⟩, ⟨_, rfl, by decide⟩, scrubs, ckpt_starts, ckpt_ends⟩


/-- An image of no entry: its header, with the SHA-384 of those 128 bytes with the digest field as zero. -/
def imgHead : List Byte := [0x6E, 0x1A, 0xC5, 0xB7, 1, 0, 0, 0, 0, 0, 0, 0, 128]
def imgSum : List Byte := [0xe1, 0xc7, 0x70, 0x0b, 0x4f, 0x43, 0x63, 0x1c, 0x8d, 0x7e, 0xe1, 0x71, 0xc9, 0x7e, 0xda, 0x43, 0x69, 0x84, 0x6b, 0x75, 0xe7, 0x2d, 0xab, 0x95, 0xf6, 0x02, 0x06, 0x06, 0xfb, 0x1e, 0xe3, 0x34, 0x42, 0x8e, 0x79, 0x17, 0xaf, 0xee, 0x69, 0xac, 0x8e, 0x90, 0xdc, 0xcd, 0x2a, 0x4c, 0x41, 0x1e]
def emptyImage : List Byte := imgHead ++ List.replicate 51 0 ++ imgSum ++ List.replicate 16 0
theorem test_imgDigest : imgDigest emptyImage = imgSum := by decide +kernel
theorem test_imgCause : imgCause oneRegion emptyImage = none := by decide +kernel

/-- The manager with these registers, a descriptor of a partition of isle 0 and 512 GiB at 4096 and the image of its supervisor at 8192. -/
def sMan (qs : List W64) (f : State → State) : State :=
  let s := { State.reset with fcore := managerCore, cores := [(managerCore, { rc := { ({} : Rc) with mode := .running, level := 2, q := 0 :: (qs ++ List.replicate 31 0).take 31 } })] }
  let s := poke s 4096 [1, 0, 5, 0, 0, 0, 0, 2]
  f (poke (poke (poke s (4096 + 0x11) [0x20]) 8192 imgHead) (8192 + 0x40) imgSum)
def liveKey : KeySlot := { live := true, tenant := 1, gen := 1, load := 1 }
theorem creates : ∃ t, (sMan [3, 4096] id).createPart 3 (partOf ((sMan [3, 4096] id).physRead 4096 64)) = .ok t := by
  have h : (match (sMan [3, 4096] id).createPart 3 (partOf ((sMan [3, 4096] id).physRead 4096 64)) with | .ok _ => true | .error _ => false) = true := by decide +kernel
  split at h
  · next t ht => exact ⟨t, ht⟩
  · cases h

/-- A record of a wrapped key for tenant 1 whose session is done; whether it opens is the security processor's. -/
def sKey : State := (sMan [2, 16384] (fun s => { poke s 16384 [0x01, 0x4B, 0xA1, 0x5E, 1, 1, 0, 0] with sessions := [(0, { isOpen := true, done := true })] }))
theorem loads (key : List Byte) (h : Config.gcmOpen [] (((sKey.physRead 16384 128).drop 8).take 12) ((sKey.physRead 16384 128).take 8) (((sKey.physRead 16384 128).drop 0x20).take 32) (((sKey.physRead 16384 128).drop 0x40).take 16) = some key) :
    ∃ t, sKey.loadKey 2 (sKey.physRead 16384 128) = .ok t := by
  unfold State.loadKey
  rw [if_neg (by decide +kernel), show sKey.unwrap (sKey.physRead 16384 128) = some key from by
    unfold State.unwrap
    dsimp only
    rw [show fld (sKey.physRead 16384 128) 6 1 = 0 from by decide +kernel, if_neg (by decide), ← h]
    rfl]
  dsimp only
  rw [if_neg (by decide +kernel), if_neg (by decide +kernel)]
  exact ⟨_, rfl⟩

theorem wit_RcManager : ((sMan [] id).rc managerCore).level = 2 ∧ (sMan [] id).fcore = managerCore ∧ (sKey.qv 1).toNat < 64 ∧
    ((∃ key, Config.gcmOpen [] (((sKey.physRead 16384 128).drop 8).take 12) ((sKey.physRead 16384 128).take 8) (((sKey.physRead 16384 128).drop 0x20).take 32) (((sKey.physRead 16384 128).drop 0x40).take 16) = some key) →
      ∃ t, sKey.loadKey 2 (sKey.physRead 16384 128) = .ok t) ∧
    (let s := sMan [63] (fun s => { s with keys := [(63, liveKey)] })
     (s.qv 1).toNat < 64 ∧ (s.slot (s.qv 1).toNat).live = true ∧ (s.slot (s.qv 1).toNat).current = false ∧ (s.slot (s.qv 1).toNat).was = false) ∧
    ((List.range 16).find? (fun i => !((sMan [16, 0x10000] id).session i).isOpen) = some 0 ∧ ((sMan [16, 0x10000] id).qv 1).toNat = 16) ∧
    (let s := sMan [15] (fun s => { s with parts := [(15, part0)], sessions := [(0, { isOpen := true })] })
     (List.range 16).find? (fun i => !(s.session i).isOpen) = some 1 ∧ (s.qv 1).toNat < 16 ∧ (s.part (s.qv 1).toNat).live = true) ∧
    (let s := sMan [15] (fun s => { s with sessions := [(15, { isOpen := true })] })
     (s.qv 1).toNat < 16 ∧ (s.session (s.qv 1).toNat).isOpen = true ∧ (s.session (s.qv 1).toNat).done = false) ∧
    ((sMan [3, 4096] id).createCause 3 ((sMan [3, 4096] id).physRead 4096 64) = none ∧ ∃ t, (sMan [3, 4096] id).createPart 3 (partOf ((sMan [3, 4096] id).physRead 4096 64)) = .ok t) ∧
    (let s := sMan [15, 0x20000] (fun s => { s with parts := [(15, part0)] })
     s.badPartNo (s.qv 1).toNat = false ∧ 5 ≤ s.stage ∧ s.partBusy (s.qv 1).toNat = false ∧ (s.part (s.qv 1).toNat).live = true ∧ s.Inv) ∧
    (sMan [0] id).badPartNo 0 = false ∧ ((sMan [0] id).part 0).live = false := by
  refine ⟨by decide, by decide, by decide, fun ⟨k, h⟩ => loads k h, ?_, ?_, ?_, ?_, ⟨by decide, creates⟩, ⟨?_, ?_, ?_, ?_, ?_⟩, ?_, ?_⟩
  all_goals first | decide | rfl

/-! ## Memory cells: hypotheses met. The loads of cell 0 by address 0x800 of its own core; an address lane that is not valid -/

def sCell (ls : List Reg) : State := cellSt 0 t0 ls
def ring0 : RingHold := { ring := 0, slot := 1, producer := false }
def sGet : State := poke (poke (cellSt 0 { t0 with ring := some ring0 } []) (ringBase 1) [1]) (ringBase 1 + 16) [0, 0x10, 0, 0, 2, 2]
/-- ATOM's operands: o0 holds the values of lanes 0 to 3, l0 the address. -/
def sAtom : State := (sCell [nr 0x800]).modCtx 1 0 0 (fun c => { c with o := c.o.set 0 (nr 5) })

theorem wit_CellLoads : (sCell [nr 0x800]).Runs e0 ∧ ((sCell [nr 0x800]).cell 1 0).held = [] ∧ (sCell [nr 0x800]).sources e0 [0] = [nr 0x800] ∧ isAddr (nr 0x800).fmt = true ∧ okAt (nr 0x800) 0 = true ∧
    ((sCell [lanes .n32 []]).sources e0 [0] = [lanes .n32 []] ∧ okAt (lanes .n32 []) 0 = false) ∧
    halves 1 0x800 (transferBytes false .fp32) (packAlign false .fp32) true = .ok [⟨1, 0x800, 64⟩] ∧ (sCell [nr 0x800]).NoRace 1 (handleOf 0) 1 0x800 64 false 0 0 0 ∧
    halves 1 0x800 (transferBytes true .e2m1) (packAlign true .e2m1) true = .ok [⟨1, 0x800, 8⟩] ∧ (sCell [nr 0x800]).NoRace 1 (handleOf 0) 1 0x800 8 false 0 0 0 ∧ ((sCell [nr 0x800]).core 1).discard = [] ∧
    (barrierPlace 1 0x800 = .ok (1, 0x800) ∧ (sCell [nr 0x800]).NoRace 1 (handleOf 0) 1 0x800 16 false 2 16 1 ∧ ((sCell [nr 0x800]).acquire 1 (handleOf 0) ((aget ((sCell [nr 0x800]).core 1).tbClr 0x800).getD [])).2 = .ok ()) ∧
    (∀ i, i < 16 → okAt (nr 0x800) i = true → halves 1 (laneOf (nr 0x800) i) 4 4 false = .ok [⟨1, 0x800, 4⟩] ∧ (sCell [nr 0x800]).NoRace 1 (handleOf 0) 1 0x800 4 false 0 0 0) ∧
    (sGet.Runs (envSt 0 { t0 with ring := some ring0 }) ∧ (envSt 0 { t0 with ring := some ring0 }).task.ring = some ring0 ∧ ring0.freed = false ∧
      sGet.NoRace 1 (handleOf 0) (sGet.leadOf 1) ((sGet.ringEntry (sGet.leadOf 1) 0).1 + 1 * (sGet.ringEntry (sGet.leadOf 1) 0).2.2 + 64 * 1) 64 false 0 0 0 ∧ (sGet.core (sGet.leadOf 1)).discard = []) ∧
    (sAtom.Runs e0 ∧ sAtom.sources e0 [8, 0] = [nr 5, nr 0x800] ∧ okAt (nr 5) 3 = true ∧ (sAtom.ord 1 (handleOf 0)).frel = none ∧
      (∀ z, z < 2 → halves 1 0x800 (if z = 1 then 8 else 4) 1 false = .ok [⟨1, 0x800, if z = 1 then 8 else 4⟩] ∧ 0x800 % (if z = 1 then 8 else 4) = 0 ∧
        ∀ sc, sc < 2 → covers sc 0 1 0 1 = true ∧ sAtom.NoRace 1 (handleOf 0) 1 0x800 (if z = 1 then 8 else 4) true 2 (if z = 1 then 8 else 4) sc ∧
          sAtom.NoRace 1 (handleOf 0) 1 0x800 (if z = 1 then 8 else 4) false 2 (if z = 1 then 8 else 4) sc)) ∧
    ((sCell []).relWaits 3 = false ∧ ((sCell []).fence 1 (handleOf 0) 3).2 = .ok ()) := by
  refine ⟨⟨rfl, rfl, rfl, rfl⟩, rfl, rfl, rfl, rfl, ⟨rfl, rfl⟩, rfl, ⟨_, rfl⟩, rfl, ⟨_, rfl⟩, rfl, ⟨rfl, ⟨_, rfl⟩, rfl⟩, ?_, ⟨⟨rfl, rfl, rfl, rfl⟩, rfl, rfl, ⟨_, rfl⟩, rfl⟩, ⟨⟨rfl, rfl, rfl, rfl⟩, rfl, rfl, rfl, ?_⟩, by decide, rfl⟩
  · intro i hi _
    refine ⟨?_, ⟨_, rfl⟩⟩
    rw [show laneOf (nr 0x800) i = 0x800 from by interval_cases i <;> rfl]
    rfl
  · intro z hz
    interval_cases z
    · refine ⟨rfl, by decide, fun sc hs => ?_⟩
      interval_cases sc
      · exact ⟨by decide, ⟨_, rfl⟩, ⟨_, rfl⟩⟩
      · exact ⟨by decide, ⟨_, rfl⟩, ⟨_, rfl⟩⟩
    · refine ⟨rfl, by decide, fun sc hs => ?_⟩
      interval_cases sc
      · exact ⟨by decide, ⟨_, rfl⟩, ⟨_, rfl⟩⟩
      · exact ⟨by decide, ⟨_, rfl⟩, ⟨_, rfl⟩⟩

/-! Requests: those of cell 0 on scratchpad; on external memory, of a kernel whose operand 0 is buffer 2. -/

/-- The request stands alone at its port and performs. -/
def donePerf (s : State) (e : Env) (draw : Bool) (r : MemReq) : Bool :=
  let x := (s.asked e draw (s.heldReq e none r)).perform 1 0 (s.heldReq e none r)
  decide (x.2.toOption = some none) && decide ((x.1.cell 1 0).held = [s.heldReq e none r])
theorem donePerf_ok {s : State} {e : Env} {draw : Bool} {r : MemReq} (h : donePerf s e draw r = true) :
    ∃ u, (s.asked e draw (s.heldReq e none r)).perform 1 0 (s.heldReq e none r) = (u, .ok none) ∧ (u.cell 1 0).held = [s.heldReq e none r] := by
  unfold donePerf at h
  rw [Bool.and_eq_true, decide_eq_true_eq, decide_eq_true_eq] at h
  refine ⟨_, Prod.ext rfl ?_, h.2⟩
  cases hx : ((s.asked e draw (s.heldReq e none r)).perform 1 0 (s.heldReq e none r)).2 with
  | ok v => rw [hx] at h; exact congrArg Except.ok (Option.some.inj h.1)
  | error f => rw [hx] at h; cases h.1

def noAddr : Reg := lanes .n32 []
def vcb1 : Reg := lanes .vcb [1]
def sV : State := sCell [fp 0x3F800000, nr 0x800, vcb1, rc0]
/-- The kernel's cell 0; its operand's first tile is zeros. -/
def sX : State := kernelOf (sysOf (sCell [lanes .n32 [0, 0, 0]]))
def fr2 : Reg := lanes .n32 [1, 7, 2, 3]

theorem wit_CellRequests : sV.Runs e0 ∧ (sV.cell 1 0).held = [] ∧ sV.sources e0 [0, 1] = [fp 0x3F800000, nr 0x800] ∧ (fp 0x3F800000).fmt ≠ .none ∧ isAddr (nr 0x800).fmt = true ∧ 8 ≤ fmtWidth (fp 0x3F800000).fmt ∧
    ¬(0 = 1 ∧ fmtWidth (fp 0x3F800000).fmt = 32) ∧ (sV.cell 1 0).ordCount 63 = 0 ∧ sV.sources e0 [1, 2] = [nr 0x800, vcb1] ∧ vcb1.fmt = .vcb ∧ sV.sources e0 [1] = [nr 0x800] ∧ sV.sources e0 [0] = [fp 0x3F800000] ∧
    ([MemReq.sts false false (fp 0x3F800000) (nr 0x800), .stx (fp 0x3F800000) (nr 0x800), .expd (nr 0x800) vcb1, .ste false (fp 0x3F800000) noAddr, .tbarv noAddr, .ordt 7 63].all (donePerf sV e0 false) = true) ∧
    (sX.Runs e0 ∧ sX.sources e0 [0] = [lanes .n32 [0, 0, 0]] ∧ donePerf sX e0 false (.lde .fp32 false (lanes .n32 [0, 0, 0]) 1) = true) ∧
    (let e := envSt 0 { t0 with ring := some ring0 }
     sGet.Runs e ∧ e.task.ring = some ring0 ∧ ring0.freed = false ∧ ring0.producer = false ∧ donePerf sGet e false (.rput (fp 1) 0 1 1) = true ∧
     (let s' := sGet.modCell 1 0 (fun c => { c with running := c.running.map (fun t => { t with ring := some { ring0 with freed := true } }) })
      donePerf s' (envSt 0 { t0 with ring := some { ring0 with freed := true } }) false (.rfree 0 1) = true)) ∧
    (sV.sources e0 [3] = [rc0] ∧ IsChange (sV.recWidth e0 3) rc0 ∧ recValues rc0 = hdW (sV.histWord 1 3)) ∧ ((sCell [rnull]).sources e0 [0] = [rnull] ∧ IsNull rnull ∧ ¬IsChange ((sCell [rnull]).recWidth e0 0) rnull) ∧
    ((sCell [fr2]).sources e0 [0] = [fr2] ∧ fr2.fmt = .n32 ∧ ∃ w : List Time, frontOf fr2 = some w) := by
  refine ⟨⟨rfl, rfl, rfl, rfl⟩, rfl, rfl, by decide, rfl, by decide, by decide, by decide, rfl, rfl, rfl, rfl, by decide +kernel, ⟨⟨rfl, rfl, rfl, rfl⟩, rfl, by decide +kernel⟩,
    ⟨⟨rfl, rfl, rfl, rfl⟩, rfl, rfl, rfl, by decide, by decide⟩, ⟨rfl, ⟨rfl, 0, by decide, by decide, ?_⟩, by decide⟩, ⟨rfl, null0, ?_⟩, ⟨rfl, rfl, ?_⟩⟩
  · intro x h; revert h; rw [show sV.recWidth e0 3 = none from by decide]; exact fun h => nomatch h
  · rintro ⟨-, v, -, h, -⟩; have := h 0 (by decide); simp at this; exact absurd this (by decide)
  · exact ⟨_, rfl⟩

/-- STS of a whole token at the top of cell 0's scratchpad; RPUT into ring 0's last slot; an ordering token. -/
def sCl : State := { sGet with cores := sGet.cores.map (fun e => (e.1, { e.2 with ords := [(0, { oc := 4 })] })) }
theorem wit_RequestEffects : okAt (nr 0x17FFC0) 0 = true ∧ halves 1 (laneOf (nr 0x17FFC0) 0) (transferBytes false .fp32) (packAlign false .fp32) true = .ok [⟨1, 0x17FFC0, 64⟩] ∧
    (∃ c, (sCell []).check 1 ((sCell []).agent 1 (handleOf 0)) true 1 0 0 (wordsMasked 0x17FFC0 (tokenImage false (fp 1)).2) = .ok c) ∧ (sCell []).Inv ∧ okAt noAddr 0 = false ∧
    ((∃ c, sGet.check (sGet.leadOf 1) (sGet.agent 1 (handleOf 0)) true 1 0 0
      (wordsMasked ((sGet.ringEntry (sGet.leadOf 1) 0).1 + 1 * (sGet.ringEntry (sGet.leadOf 1) 0).2.2 + 64 * 1) (tokenImage false (fp 1)).2) = .ok c) ∧ sGet.Inv) :=
  ⟨by decide, by decide, ok_of (by decide +kernel), rfl, by decide, ok_of (by decide +kernel), rfl⟩

/-- A word with an earlier write of another cell: a store races, a load races; after an acquire of its count neither does. A word without one. -/
def oldWrite : AccRec := { key := ⟨0, 1, 1⟩, count := 4, kind := 1 }
def sRace (clr : Clr) : State := { sCell [] with cores := [(1, { ords := [(0, { clr := clr })], words := [(64, { writes := [oldWrite], reads := [{ oldWrite with kind := 0 }] })] })] }
theorem wit_RaceChecker : (∀ w ∈ [(64 : Nat), 65], (sRace []).inArea 1 w = false) ∧ wordsOf 256 8 = [64, 65] ∧ wordsMasked 256 (List.replicate 8 255) = [64, 65] ∧
    (((sRace []).core 1).wordRec 64).writes = [oldWrite] ∧ oldWrite.RacesWith ((sRace []).agent 1 0) 1 0 0 ∧ oldWrite.RacesWith ((sRace []).agent 1 0) 0 0 0 ∧
    ¬oldWrite.RacesWith ((sRace [(⟨0, 1, 1⟩, 5)]).agent 1 0) 1 0 0 ∧ (((sRace []).core 1).wordRec 65).writes = [] ∧
    ¬{ oldWrite with kind := 2, size := 4, scope := 1 }.RacesWith ((sRace []).agent 1 0) 2 4 1 ∧ { oldWrite with kind := 2, size := 4, scope := 1 }.RacesWith ((sRace []).agent 1 0) 2 8 1 := by
  unfold AccRec.RacesWith
  decide

/-- The matrix engine of core 1 runs an instance with this step and these selected rows; n tokens wait at its ports A and B. -/
def mi (step : Nat) (mask : List Nat) : MInst := { ctx := 0, slot := 0, frame := 0, iter := 3, cls := 0, kstep := step, mask := mask }
def matSt (step : Nat) (mask : List Nat) (n : Nat) (u : Reg) : State :=
  let fifo : List PortTok := List.replicate n { tok := dataToken u 0 0 3 }
  { State.reset with fcore := 1, cores := [(1, { matrix := { run := some (mi step mask), admitted := true, ports := [{ fifo := fifo }, { fifo := fifo }, {}] } })] }
/-- What an instance finds at its ports. -/
def runsAt (s : State) (i : Instr) (r : MInst) : Bool :=
  let w := matUse r.mask.length i
  decide ((s.matrix 1).run = some r) && (s.matrix 1).admitted && decide ((operandsAt true r.tag w.af w.a ((s.matrix 1).fifo 0)).toOption = some true) &&
    (decide (w.b = 0) || decide ((operandsAt true r.tag w.bf w.b ((s.matrix 1).fifo 1)).toOption = some true))
theorem runsAt_ok {s : State} {i : Instr} {r : MInst} (h : runsAt s i r = true) : s.MatrixRuns 1 i r := by
  have ok : ∀ x : Except Nat Bool, x.toOption = some true → x = .ok true := by
    intro x hx
    cases x with
    | ok v => cases hx; rfl
    | error c => cases hx
  unfold runsAt at h
  simp only [Bool.and_eq_true, Bool.or_eq_true, decide_eq_true_eq] at h
  exact ⟨h.1.1.1, h.1.1.2, ok _ h.1.2, h.2.imp id (ok _)⟩

/-- FP16 operands of a 16 x 16 block; MMAG of no row and of two; the last row that ACCWR writes; bias tokens whose lane 0 is valid and not. -/
theorem wit_MatrixPasses : (matSt 0 [] 300 (lanes .fp16 [1])).fcore = 1 ∧ (matSt 0 [] 300 (lanes .fp16 [1])).MatrixRuns 1 (.mma 0 0 0 0 3 3 0) (mi 0 []) ∧ (matSt 0 [] 300 (lanes .fp16 [1])).MatrixRuns 1 (.mmaz 0 0 0 0 3 3 0) (mi 0 []) ∧
    (matSt 0 [] 300 (lanes .fp16 [1])).MatrixRuns 1 (.mmat 0 0 0 0 3 3 0) (mi 0 []) ∧ (matSt 0 [] 300 (lanes .fp16 [1])).MatrixRuns 1 (.mmag 0 0 0 0 3 3 0) (mi 0 []) ∧
    (matSt 0 [3, 9] 300 (lanes .fp16 [1])).MatrixRuns 1 (.mmag 0 0 0 0 3 3 0) (mi 0 [3, 9]) ∧
    ((matSt 0 [] 1 (fp 1)).MatrixRuns 1 (.accz 0 0 0 0) (mi 0 []) ∧ ((matSt 0 [] 1 (fp 1)).matrix 1).fifo 0 = [{ tok := dataToken (fp 1) 0 0 3 }]) ∧
    ((matSt 15 [] 1 (fp 1)).MatrixRuns 1 (.accwr 0 0 0 0 0) (mi 15 []) ∧ (mi 15 []).kstep < 16 * ((0 + 1) * (0 + 1)) ∧ (fp 1).p = false) ∧
    ((matSt 0 [] 1 (lanes .fp32 [])).MatrixRuns 1 (.accax 0 0 0 0 0 0 0) (mi 0 []) ∧ okAt (lanes .fp32 []) 0 = false) ∧
    ((matSt 0 [] 1 (fp 1)).MatrixRuns 1 (.accax 0 0 0 0 0 0 0) (mi 0 []) ∧ okAt (fp 1) 0 = true) ∧
    (((matSt 0 [] 1 (fp 1)).matrix 1).run = some (mi 0 []) ∧ ((matSt 0 [] 1 (fp 1)).matrix 1).admitted = true ∧ (dataToken (fp 1) 0 0 3).kind = .data ∧ tokTag (dataToken (fp 1) 0 0 3) = (mi 0 []).tag) := by
  refine ⟨rfl, runsAt_ok ?_, runsAt_ok ?_, runsAt_ok ?_, runsAt_ok ?_, runsAt_ok ?_, ⟨runsAt_ok ?_, ?_⟩, ⟨runsAt_ok ?_, ?_⟩, ⟨runsAt_ok ?_, ?_⟩, ⟨runsAt_ok ?_, ?_⟩, ?_⟩ <;> decide +kernel

/-! ## Events: states that meet the hypotheses -/

/-- The kernel of core 1, an event at cell 9, context 0, port or edge 0; the words of that port and edge; tokens there. -/
def evSt : State := { kernelOf (sysOf (rcSt [] id)) with place := { core := 1, cell := 9 } }
def withPort (s : State) (w : Nat) (hs : List PortTok) : State :=
  (poke s (cfgBase 1 9 0 + 0x120) (leBytes 8 w)).modCtx 1 9 0 (fun c => { c with ports := c.ports.modify 0 (fun p => { p with fifo := hs }) })
def withEdge (s : State) (w : Nat) (ts : List Token) : State :=
  (poke s (cfgBase 1 9 0 + 0x140) (leBytes 8 w)).modCtx 1 9 0 (fun c => { c with edges := c.edges.modify 0 (fun p => { p with flight := ts }) })
/-- A port enabled for agent 100 with an EOS setting (0 forward, 1 drop, 2 none, 3 sink), that takes the markers of a mask, and may be a record input of frontier register fn. -/
def pw (eos mark : Nat) (recd : Option Nat) : Nat := 100 + 2 ^ 22 + eos * 2 ^ 36 + mark * 2 ^ 38 + (match recd with | some fn => 2 ^ 28 + fn * 2 ^ 29 | none => 0)
/-- An edge to an agent of core 1 with room for 16 tokens. -/
def ew (loc route : Nat) : Nat := 64 + loc + 2 ^ 28 + route * 2 ^ 32 + 17 * 2 ^ 48
def qt (t : Token) : PortTok := { tok := t }
def mark (sub : Nat) (r : Reg) : Token := markToken r sub 0 3
def dt : Token := dataToken (fp 1) 0 0 3
/-- Route 5 of partition 0's table, at 0x3000 of its supervisor's scratchpad. -/
def routed (s : State) : State := poke (s.modPart 0 (fun p => { p with rtab := 0x3000 })) (spadBase 63 + 0x3000) (leBytes 8 (5 + 2 ^ 16 + 2 ^ 63))

/-- Frontiers: a split pair, [(2, 7)], [(0, 9)]. -/
def badFr : Reg := lanes .n32 [1]
def fr1 : Reg := lanes .n32 [2, 7]
def fr0 : Reg := lanes .n32 [0, 9]

theorem wit_TokenEvents : ((withPort evSt (pw 3 1 none) []).HasPort 1 9 0 0 ∧
      -- a port's words: a marker that it does not take and one that it takes, a sink port after its phase, an EOS where the setting is none, one that it drops
      pwMark ((withPort evSt (pw 3 1 none) []).portWord 1 9 0 0) 1 = false ∧ pwMark ((withPort evSt (pw 3 1 none) []).portWord 1 9 0 0) 0 = true ∧ pwEos ((withPort evSt (pw 3 1 none) []).portWord 1 9 0 0) = 3 ∧
      (let v := (withPort evSt (pw 3 0 none) []).modRc 1 (fun r => { r with phase := 1 })
       (v.rc (v.leadOf 1)).inPhase = false ∧ (v.rc (v.leadOf 1)).phase ≠ 0) ∧
      pwEos ((withPort evSt (pw 2 0 none) []).portWord 1 9 0 0) = 2 ∧ pwEos ((withPort evSt (pw 1 0 none) []).portWord 1 9 0 0) = 1 ∧ pwRec ((withPort evSt (pw 1 0 none) []).portWord 1 9 0 0) = false) ∧
    -- arrivals
    (∀ t ∈ [dt, eosToken 0 3, mark 1 Reg.empty], let s := withPort (withEdge evSt (ew 9 0) [t]) (pw 0 2 none) []
      s.works 1 = true ∧ (s.edge 1 9 0 0).flight = [t] ∧ t.route = 0 ∧ (destOf (s.edgeWord 1 9 0 0)).loc < 36 ∧ s.takesFrom 1 (destOf (s.edgeWord 1 9 0 0)) = true) ∧
    (let t := { dt with route := 5 }
     let s := routed (withEdge evSt (ew 9 5) [t])
     s.works 1 = true ∧ (s.edge 1 9 0 0).flight = [t] ∧ (s.routeEntry (s.partAt 1) t.route).isSome = true ∧ ({ dt with route := 6 } : Token).route ≠ 0 ∧ s.routeEntry (s.partAt 1) 6 = none) ∧
    (let s := withEdge evSt (ew 48 0) [dt]
     s.works 1 = true ∧ (s.edge 1 9 0 0).flight = [dt] ∧ (destOf (s.edgeWord 1 9 0 0)).loc = 48 ∧ dt.kind ≠ .notice ∧ (s.rc (destOf (s.edgeWord 1 9 0 0)).core).extract.length < 16 ∧ s.HasEdge 1 9 0 0) ∧
    -- heads of a port
    (∀ eos ∈ [(3 : Nat), 0], let s := withPort evSt (pw eos 0 none) [qt (eosToken 0 3)]
      s.HasPort 1 9 0 0 ∧ s.fifoAt 1 9 0 0 = [qt (eosToken 0 3)] ∧ s.portClear 1 9 0 0 = true ∧ pwEos (s.portWord 1 9 0 0) = eos ∧ pwRec (s.portWord 1 9 0 0) = false) ∧
    (∀ sub ∈ [(1 : Nat), 3], let s := withPort evSt (pw 0 15 none) [qt (mark sub Reg.empty)]
      s.portClear 1 9 0 0 = true ∧ s.drains 1 (mark sub Reg.empty) = false ∧ (mark sub Reg.empty).cls ≠ 0 ∧ (mark sub Reg.empty).kind = .mark) ∧
    (let s := { withPort evSt (pw 0 15 none) [qt (mark 0 Reg.empty)] with regions := [{ oneRegion with st := .draining }] }
     s.works 1 = true ∧ s.portClear 1 9 0 0 = true ∧ s.drains 1 (mark 0 Reg.empty) = true ∧ (s.cell 1 9).passed = false) ∧
    (∀ r ∈ [badFr, fr1, fr0], let s := (withPort evSt (pw 0 15 (some 7)) [qt (mark 2 r)]).modRc 1 (fun c => { c with fns := c.fns.set 7 [(1, 7)] })
      s.portClear 1 9 0 0 = true ∧ pwRec (s.portWord 1 9 0 0) = true ∧ s.histsClear 1 9 = true ∧ (s.rc (s.leadOf 1)).fns.getD (pwFn (s.portWord 1 9 0 0)) [] = [(1, 7)]) ∧
    (frontOf badFr = none ∧ frontOf fr1 = some [(2, 7)] ∧ notAhead [(1, 7)] [(2, 7)] = true ∧ frontOf fr0 = some [(0, 9)] ∧ notAhead [(1, 7)] [(0, 9)] = false) ∧
    -- an EOS that leaves
    (let v := (withEdge (withPort evSt (pw 0 0 none) []) (ew 10 0) []).modCtx 1 9 0 (fun c => { c with ports := c.ports.modify 0 (fun p => { p with eos := true, eosArr := 4 }) })
     0 < (v.cell 1 9).ctxs.length ∧ v.fwdPorts 1 9 0 ≠ [] ∧ (v.ctx 1 9 0).fwd = false ∧ (∀ p ∈ v.fwdPorts 1 9 0, (v.port 1 9 0 p).eos = true) ∧
     (v.cell 1 9).before 0 (((v.fwdPorts 1 9 0).map (fun p => (v.port 1 9 0 p).eosArr)).foldl max 0) = false ∧ (v.ctx 1 9 0).coal.elems = [] ∧ 0 < (v.ctx 1 9 0).edges.length ∧ ewEn (v.edgeWord 1 9 0 0) = true) := by
  unfold State.HasPort State.HasEdge
  dsimp only
  refine ⟨?_, ?_, ?_, ?_, ?_, ?_, ?_, ?_, ?_, ?_⟩ <;> decide

/-! Tasks, loads, generators, phases. -/

def evRun (f : State → State) : State := (f evSt).modRc 1 (fun r => { r with inPhase := true })
/-- Class 0 of cell 9, context 0 takes one operand and ends; a token waits at its port 0. -/
def sAdm : State := evRun (fun s => (poke (poke (poke (withPort s (pw 0 0 none) [qt dt]) (cfgBase 1 9 0 + 0x100) (leBytes 2 0x200)) (cfgBase 1 9 0) [0x80, 0xE2, 0, 0]) (cfgBase 1 9 0 + 0x1D4) [0x0F]).modCtx 1 9 0 (fun c => { c with loaded := true }))
def sDis (l : Nat) : State := evRun (fun s => { s with place := { core := 1, cell := l } }.modCell 1 l (fun c => { c with ready := [t0] }))
def sDone : State := evRun (fun s => (withEdge s (ew 10 0) []).modCell 1 9 (fun c => { c with done := [{ t0 with staged := [.tok 0 dt] }] }))
/-- An image with an entry for cell 0, context 0. -/
def imgSum1 : List Byte := [0x8b, 0x41, 0x59, 0x20, 0x81, 0x1e, 0x05, 0x58, 0xd2, 0x2a, 0xe2, 0xd7, 0x5d, 0x79, 0x6c, 0xe2, 0xe5, 0x25, 0x4d, 0x54, 0xa8, 0xd1, 0x29, 0x19, 0x9d, 0x84, 0xf7, 0xc1, 0x81, 0xc9, 0x33, 0x9c, 0xf6, 0xb9, 0xb9, 0xa0, 0xf0, 0xd5, 0xdc, 0x09, 0xf5, 0x27, 0xd4, 0x46, 0xd0, 0x46, 0xb6, 0xdb]
def image1 : List Byte := [0x6E, 0x1A, 0xC5, 0xB7, 1, 0, 0, 0, 1, 0, 0, 0, 0x88, 2] ++ List.replicate 50 0 ++ imgSum1 ++ List.replicate 536 0
theorem test_imgCause1 : imgCause oneRegion image1 = none := by decide +kernel
/-- A load at 4096 of the kernel's image waits: an image of no entry, one of an entry whose context has a task, and bytes that are no image. -/
def sLoad (head sum : List Byte) : State :=
  let s := (evSt.modRc 1 (fun r => { r with loads := [4096] })).modCell 1 0 (fun c => { c with running := some t0 })
  tileOf (tileOf s 4096 head) (4096 + 0x40) sum
def loadTile (head sum : List Byte) : Memory := Memory.writeN (Memory.writeN [] 0 head) 0x40 sum

theorem wit_TaskEvents_cells : (sAdm.works 1 = true ∧ sAdm.phaseRuns 1 = true ∧ ((sAdm.gather 1 9).cell 1 9).ready.length < 16 ∧ ((sAdm.gather 1 9).firstEligible 1 9).isSome = true) ∧
    (∀ l ∈ [(9 : Nat), 0], (sDis l).phaseRuns 1 = true ∧ ((sDis l).cell 1 l).running = none ∧ ((sDis l).cell 1 l).pick (fun t => cePrio ((sDis l).classEntry 1 l t.ctx t.cls)) (sDis l).time = some (t0, [0, 0, 0, 0])) ∧ isMemCell 9 = false ∧ isMemCell 0 = true ∧
    ((((sDis 0).setCell 1 0 { (sDis 0).cell 1 0 with ready := [], running := some t0 }).acquireOps 1 0 t0).2 = .ok ()) ∧
    ((sDone.cell 1 9).done = [{ t0 with staged := [.tok 0 dt] }] ∧ (sDone.cell 1 9).held = [] ∧ sDone.storesDone 1 9 = true ∧ dt.kind = .data ∧ t0.ring = none ∧ t0.newFrame = none ∧ 0 < (sDone.ctx 1 9 0).edges.length) ∧
    (let s := { evSt with time := 256 }
     (s.cell 1 9).wTime + 256 ≤ s.time) ∧
    (let s := { evSt.modCell 1 9 (fun c => { c with frameFrom := [(0, (0, false))] }) with time := 1800000 }
     (s.cell 1 9).frameFrom = [(0, (0, false))] ∧ 0 + cyclesPerMs ≤ s.time) ∧
    (let s (n : Nat) := evSt.modCell 1 9 (fun c => { c with ordIn := [(63, [])], ordClr := [(63, List.replicate n [])] })
     ((s 254).cell 1 9).ordIn[0]? = some (63, []) ∧ ((aget ((s 254).cell 1 9).ordClr 63).getD []).length < 255 ∧ ((s 254).cell 1 9).held = [] ∧ 255 ≤ ((aget ((s 255).cell 1 9).ordClr 63).getD []).length) ∧
    (let s := (poke evSt (ringBase 1) [1]).modRc 1 (fun r => { r with voids := r.voids.set 0 1 })
     s.leadOf 1 = 1 ∧ s.place.x < s.ringCount 1 ∧ bit (s.voidMask 1 0) (s.ringSt 1 0).head = true) := by
  refine ⟨?_, ?_, ?_, ?_, rfl, ?_, ?_, ?_, ?_, ?_⟩ <;> decide +kernel

theorem readImage_at {s : State} {d : Memory} {b h : List Byte} {n : Nat} (f : Flat s 9) (hc : Holds s 1 2 d) (h0 : Memory.readN d 0 128 = h)
    (hb : if fld h 0 4 != 0xB7C51A6E || fld h 4 2 != 1 || decide (fld h 0x0C 4 ≤ 128) then b = h else fld h 0x0C 4 = n ∧ tileSegs 4096 n = [(2, 0, n)] ∧ Memory.readN d 0 n = b) :
    ∃ t, s.readImage 1 0 4096 = (t, .ok b) ∧ Translated s t := by
  obtain ⟨t, h1, g, e⟩ := f.readVA (k := 1) (va := 4096) (len := 128) (off := 0) (by decide) (by norm_num) hc
  unfold State.readImage
  rw [h1]
  dsimp only
  rw [h0]
  split at hb
  · next hi => rw [if_pos hi, hb]; exact ⟨t, rfl, e⟩
  · next hi =>
    rw [if_neg hi, hb.1]
    obtain ⟨u, h2, -, e2⟩ := g.readVA (k := 1) hb.2.1 (by norm_num) (hc.translated e)
    refine ⟨u, ?_, e.trans e2⟩
    rw [h2, hb.2.2]

theorem flat_sLoad (head sum : List Byte) : Flat (sLoad head sum) 9 :=
  flat_of (by rw [show (sLoad head sum).mem = (sLoad [] []).mem from rfl]; decide +kernel) (by rw [show (sLoad head sum).mem = (sLoad [] []).mem from rfl]; decide +kernel) ⟨none, [], [], _, rfl⟩ rfl rfl rfl rfl rfl
theorem holds_sLoad (head sum : List Byte) : Holds (sLoad head sum) 1 2 (loadTile head sum) :=
  holds_tileOf (va := 4096 + 0x40) sum 1 rfl (d := Memory.writeN [] 0 head) rfl

def loadOk (s : State) (b : List Byte) : Bool :=
  let r := s.readImage 1 0 4096
  decide (r.2.toOption = some b) && r.1.loadMayApply 1 b && (r.1.configure oneRegion b).toOption.isSome
def loadBad (s : State) (b : List Byte) : Bool :=
  let r := s.readImage 1 0 4096
  decide (r.2.toOption = some b) && decide ((match r.1.configure oneRegion b with | .ok _ => none | .error c => some c) = some 0x0D8)

theorem wit_TaskEvents_loads : (∀ h ∈ [(imgHead, imgSum), (image1.take 14, imgSum1), ([], [])], ((sLoad h.1 h.2).rc 1).loads = [4096] ∧ (sLoad h.1 h.2).regionAt 1 = some oneRegion ∧ ((sLoad h.1 h.2).rc 1).loadHeld = none ∧ ((sLoad h.1 h.2).rc 1).image = 0) ∧
    oneRegion.lead = 1 ∧ oneRegion.st = .running ∧
    (∃ t u, (sLoad imgHead imgSum).readImage 1 0 4096 = (t, .ok emptyImage) ∧ imgCause oneRegion emptyImage = none ∧ t.loadMayApply 1 emptyImage = true ∧ t.configure oneRegion emptyImage = .ok u) ∧
    (∃ t, (sLoad (image1.take 14) imgSum1).readImage 1 0 4096 = (t, .ok image1) ∧ imgCause oneRegion image1 = none ∧ t.loadMayApply 1 image1 = false) ∧
    (∃ t, (sLoad [] []).readImage 1 0 4096 = (t, .ok (List.replicate 128 0)) ∧ imgCause oneRegion (List.replicate 128 0) ≠ none ∧ t.configure oneRegion (List.replicate 128 0) = .error 0x0D8) := by
  have ok : ∀ {s : State} {b : List Byte}, loadOk s b = true → ∃ t u, s.readImage 1 0 4096 = (t, .ok b) ∧ t.loadMayApply 1 b = true ∧ t.configure oneRegion b = .ok u := by
    intro s b h
    unfold loadOk at h
    simp only [Bool.and_eq_true, decide_eq_true_eq] at h
    obtain ⟨u, hu⟩ := ok_of h.2
    refine ⟨_, u, Prod.ext rfl ?_, h.1.2, hu⟩
    cases hx : (s.readImage 1 0 4096).2 with
    | ok v => rw [hx] at h; cases h.1.1; rfl
    | error c => rw [hx] at h; cases h.1.1
  have no : ∀ {s : State} {b : List Byte}, loadBad s b = true → ∃ t, s.readImage 1 0 4096 = (t, .ok b) ∧ t.configure oneRegion b = .error 0x0D8 := by
    intro s b h
    unfold loadBad at h
    simp only [Bool.and_eq_true, decide_eq_true_eq] at h
    refine ⟨_, Prod.ext rfl ?_, ?_⟩
    · cases hx : (s.readImage 1 0 4096).2 with
      | ok v => rw [hx] at h; cases h.1; rfl
      | error c => rw [hx] at h; cases h.1
    · cases hx : (s.readImage 1 0 4096).1.configure oneRegion b with
      | ok v => rw [hx] at h; cases h.2
      | error c => rw [hx] at h; cases h.2; rfl
  refine ⟨fun h _ => ⟨rfl, rfl, rfl, rfl⟩, rfl, rfl, ?_, ?_, ?_⟩
  · obtain ⟨t, u, h1, h2, h3⟩ := ok (s := sLoad imgHead imgSum) (b := emptyImage) (by decide +kernel)
    exact ⟨t, u, h1, test_imgCause, h2, h3⟩
  · obtain ⟨t, ht, e⟩ := readImage_at (n := 648) (b := image1) (h := image1.take 128) (flat_sLoad (image1.take 14) imgSum1) (holds_sLoad ..) (by decide +kernel) (by decide +kernel)
    refine ⟨t, ht, test_imgCause1, ?_⟩
    unfold State.loadMayApply
    rw [show imgPlaces 1 image1 = [(1, 0, 0)] from by decide +kernel]
    rw [show imgEntries image1 (imgMatrix image1) = [] from by decide +kernel]
    simp only [List.all_cons, List.all_nil, e.cell]
    decide +kernel
  · obtain ⟨t, h1, h2⟩ := no (s := sLoad [] []) (b := List.replicate 128 0) (by decide +kernel)
    exact ⟨t, h1, by decide +kernel, h2⟩

/-- A stream of cell 0 at its p-th point of a space of four: a COUNT stream, loads of 64 bytes past the end of scratchpad, a ring that has no slot ready. -/
def sGen (kind num : Byte) (p : Nat) : State :=
  let s := { (evSt.modRc 1 (fun r => { r with inPhase := true, space := [4], specs := [{ core := 1, handle := 0, raw := (((List.replicate 64 0).set 0 kind).set 2 1).set 3 num |>.set 11 255 }] })) with place := { core := 1 } }
  (poke s (cfgBase 1 0 0 + 0x120) (leBytes 8 (64 + 2 ^ 16 + 2 ^ 22))).modCell 1 0 (fun c => { c with gen := { on := true, point := p } })
def genIs (s : State) : Nat :=
  match s.specOf 1 0 with
  | none => 9
  | some x => match s.genPoint 1 0 (s.cell 1 0).gen.point x with
    | none => 0
    | some (_, .ok _) => 1
    | some (_, .error _) => 2
theorem wit_TaskEvents_streams : (∀ g ∈ [(sGen 0 15 3, 1), (sGen 1 0 0, 2), (sGen 3 1 0, 0)], (g.1.specOf 1 0).isSome = true ∧ g.1.regionAt 1 = some oneRegion ∧ (g.1.rc (g.1.leadOf 1)).inPhase = true ∧ (g.1.rc (g.1.leadOf 1)).aborting = false ∧
      (g.1.cell 1 0).gen.live = true ∧ (g.1.cell 1 0).gen.held = none ∧ (g.1.cell 1 0).gen.barc = [] ∧ (g.1.cell 1 0).gen.point < spaceSize (g.1.rc (g.1.leadOf 1)).space ∧ (g.1.cell 1 0).running = none ∧ (g.1.cell 1 0).held = [] ∧ genIs g.1 = g.2) ∧
    (spaceSize ((sGen 0 15 4).rc ((sGen 0 15 4).leadOf 1)).space ≤ ((sGen 0 15 4).cell 1 0).gen.point) ∧
    (let s := evSt.modRc 1 (fun r => { r with barc := [1, 2] })
     let u := { s with place := { core := 1, x := 1 } }
     (u.rc 1).barc[u.place.x]? = some 2 ∧ ((u.rc 1).barc.take u.place.x).all (fun b => (barcCells 2).all (fun h => !bit b h)) = true ∧
      (∀ h ∈ barcCells 2, (u.cell 1 (cellOfHandle h)).gen.held = none ∧ (u.cell 1 (cellOfHandle h)).held = []) ∧ (u.barcMerge 1 2).2.toOption = some ()) ∧
    (let s := (withEdge evSt (ew 10 0) []).modIsle 0 (fun i => { i with returns := [{ frame := 7, keep := false, rcd := ⟨1, 9, 0, 0, 3, 0, 0⟩, v := fp 1 }] })
     (s.isle (isleOf 1)).returns[s.place.x]? = some ⟨7, false, ⟨1, 9, 0, 0, 3, 0, 0⟩, fp 1⟩ ∧ s.works 1 = true ∧ s.fmtFits (s.edgeWord 1 9 0 0) (fp 1).fmt = true ∧ 0 < (s.ctx 1 9 0).edges.length) ∧
    (let s := evRun id
     let flush (t : State) : State := (t.regionCells 1).foldl (fun t p => t.releaseStaged p.1 p.2) t
     s.regionAt 1 = some oneRegion ∧ (s.rc 1).inPhase = true ∧ (s.rc 1).aborting = false ∧ (flush s).sinksDone 1 = true ∧ (flush s).tasksDone 1 = true ∧ (∀ c ∈ (flush s).regionCores 1, ((flush s).core c).hasTokens = false)) ∧
    (let s := (evRun id).modRc 1 (fun r => { r with aborting := true })
     (s.rc 1).aborting = true ∧ s.abortDone 1 = true) := by
  refine ⟨?_, ?_, ?_, ?_, ?_, ?_⟩ <;> decide +kernel

/-! ## Copies and remote accesses -/

/-- Core 1 with its tables, an event on copy 3, the copies there. Ring 0 has two free slots and its slot 0 is ready. -/
def cpSt (cs : Assoc Copy) (notices : List Nat) : State :=
  let s := sCpy []
  let s := { poke (poke s (spadBase 1 + 0x1103) [2]) (spadBase 1 + 0x1108) [1] with place := { core := 1, x := 3 } }
  s.modCore 1 (fun c => { c with copies := cs, notices := notices })
/-- Copies by barrier 1 of operand 0: 128 bytes into scratchpad at 0x2000, two tiles through ring 0, rows by a descriptor at 0x3000 that has been read. -/
def cp0 : Copy := { kind := 0, out := false, node := 1, op := 0, tb := 1, spad := 0x2000, off := 64, n := 2, ring := 0, desc := 0 }
def cp1 (out : Bool) : Copy := { cp0 with kind := 1, out := out, off := 0, slots := [] }
def cpRow (kind : Nat) : Copy := { cp0 with kind := kind, off := 0, desc := 0x3000, started := 1, rowB := 64, pitch := 64, n := 4, aux := 0x3100, list := 0x3200 }
/-- An operation answers without a fault. -/
def okIn {α ε : Type} (x : State × Except ε α) : Bool := x.2.toOption.isSome
/-- The copy's next sector lands, between these addresses. -/
def sectorOk (s : State) (c : Copy) (off addr : State → Nat) : Bool :=
  let r := s.shapeOf 1 (agentId 1 49) c.node c.op
  okIn r && (match r.1.sector 1 c (off r.1) (addr r.1) with | .ok v => decide (aget (v.core 1).copies 3 = some c) | _ => false)

theorem wit_UnitEvents_copies : (cpSt [] [5]).works 1 = true ∧ ((cpSt [] [5]).core 1).notices = [5] ∧ ((cpSt [] [5]).core 1).copies.find? (fun e => e.2.wants false && e.2.ring == 5) = none ∧
    (let s := cpSt [(3, cp1 false)] [0]
     let ring := s.ringSt 1 0
     (s.core 1).copies.find? (fun e => e.2.wants false && e.2.ring == 0) = some (3, cp1 false) ∧ aget (s.core 1).copies 3 = some (cp1 false) ∧ 0 < ring.free ∧
     let s1 := (s.modCore 1 (fun o => { o with notices := [] })).setRing 1 0 { ring with free := ring.free - 1, pending := ring.pending + 1, tail := (ring.tail + 1) % (s.ringEntry 1 0).2.1 }
     okIn (s1.ringTouch 1 9 1 0) = true ∧ okIn ((s1.ringTouch 1 9 1 0).1.acquire 1 9 (s.slotClr 1 0 ring.tail)) = true) ∧
    (let s := cpSt [(3, cp1 true)] []
     let c := cp1 true
     let ring := s.ringSt 1 c.ring
     aget (s.core 1).copies s.place.x = some c ∧ c.wants true = true ∧ bit ring.ready ring.head = true ∧ bit (s.voidMask 1 c.ring) ring.head = false ∧
     let s1 := s.setRing 1 c.ring { ring with ready := setBit ring.ready ring.head false, taken := ring.taken + 1, head := (ring.head + 1) % (s.ringEntry 1 c.ring).2.1 }
     okIn (s1.ringTouch 1 9 1 c.ring) = true ∧ okIn ((s1.ringTouch 1 9 1 c.ring).1.acquire 1 9 (s.slotClr 1 c.ring ring.head)) = true) ∧
    (∀ c ∈ [cp0, { cp0 with pos := 1 }], c.frozen = false ∧ c.failed = none ∧ c.held = none ∧ c.kind = 0 ∧ aget ((cpSt [(3, c)] []).core 1).copies 3 = some c ∧
      sectorOk (cpSt [(3, c)] []) c (fun _ => c.off + 64 * c.pos) (fun _ => c.spad + 64 * c.pos) = true) ∧
    (∀ c ∈ [{ cp1 false with slots := [0], started := 1 }, { cp1 false with slots := [0], started := 1, pos := 1 }],
      sectorOk (cpSt [(3, c)] []) c (fun u => c.off + c.tile * (u.ringEntry 1 c.ring).2.2 + 64 * c.pos) (fun u => (u.ringEntry 1 c.ring).1 + 0 * (u.ringEntry 1 c.ring).2.2 + 64 * c.pos) = true) ∧
    (∀ c ∈ [{ cpRow 3 with tile := 4 }, { cpRow 4 with out := true, tile := 4 }], (c.kind = 3 ∨ c.kind = 4) ∧ c.started ≠ 0 ∧ c.n ≤ c.tile ∧ okIn ((cpSt [(3, c)] []).shapeOf 1 (agentId 1 49) c.node c.op) = true ∧
      aget (((cpSt [(3, c)] []).shapeOf 1 (agentId 1 49) c.node c.op).1.core 1).copies 3 = some c) := by
  refine ⟨?_, ?_, ?_, ?_, ?_, ?_, ?_, ?_⟩ <;> decide +kernel

/-! ## Remote accesses and histories -/

/-- Requests on the way to core 1, event on the first. -/
def rmSt (rs : List RemoteReq) : State := { evSt with reqs := rs }
def rmq (kind : RKind) (addr handle size : Nat) (reply : Bool) : RemoteReq :=
  { (default : RemoteReq) with src := ⟨0, 1, handle⟩, dst := 2, addr := addr, kind := kind, size := size, bytes := leBytes size 5, mask := List.replicate size 255, reply := reply }
def waitsRemote (i : Nat) (s : State) : State := s.modRc 1 (fun c => { c with mode := .remote i })

theorem wit_UnitEvents_remote : (∀ kind ∈ [RKind.load, .store, .atom], let r := rmq kind 64 8 4 false
      let s := rmSt [r]
      s.reqs[s.place.x]? = some r ∧ r.reply = false ∧ s.inTurn s.place.x r = true ∧ r.src.route = 0 ∧ r.addr + reqLen r ≤ s.spadOf r.dst ∧ okIn (s.loadAt (reqAgent r) ⟨r.dst, r.addr, r.size⟩) = true ∧
      okIn (s.storeAt (reqAgent r) r.dst r.addr r.bytes r.mask) = true ∧ okIn (s.atomicAt (reqAgent r) r.dst r.addr r.size r.op (leNat r.bytes) r.cmp r.scope r.rel) = true) ∧
    -- an access behind another of its agent to the same bytes
    (let s := { rmSt [rmq .store 64 8 4 false, rmq .load 64 8 4 false] with place := { core := 1, x := 1 } }
     s.reqs[s.place.x]? = some (rmq .load 64 8 4 false) ∧ s.inTurn s.place.x (rmq .load 64 8 4 false) = false) ∧
    -- past the end of a scratchpad, of a controller and of a cell
    (∀ h ∈ [(8 : Nat), 0], let r := rmq .store (spadSize 2 - 2) h 4 false
     r.reply = false ∧ (rmSt [r]).inTurn 0 r = true ∧ r.src.route = 0 ∧ (rmSt [r]).spadOf r.dst < r.addr + reqLen r ∧ ((rmSt [r]).rc r.src.core).level = 0) ∧
    (let r := rmq .store 64 8 4 true
     isSilent r = true ∧ r.fail = none ∧ r.kind = .store ∧ 8 ≤ r.src.handle) ∧
    (∀ kind ∈ [RKind.load, .atom], let r := rmq kind 64 8 4 true
      let s := waitsRemote 5 (rmSt [r])
      r.reply = true ∧ isSilent r = false ∧ (s.rc r.src.core).mode = .remote 5 ∧ r.fail = none ∧ (r.kind = .load ∨ (r.kind = .atom ∧ r.order % 2 = 0))) ∧
    (let r := { rmq .load 64 8 4 true with fail := some (0x049, 64) }
     isSilent r = false ∧ r.fail = some (0x049, 64) ∧ ((waitsRemote 5 (rmSt [r])).rc r.src.core).level = 0) := by
  dsimp only
  refine ⟨?_, ?_, ?_, ?_, ?_, ?_⟩ <;> decide +kernel

/-- Core 7 (keyed) of a region of its own, with history 0 of 2 buckets, width 0, an area of n bytes at 0, and this history; its partition has 32 spill blocks from 2^21. -/
def hsSt (n : Nat) (h : Hist) : State :=
  let s : State := sysOf { State.reset with regions := [{ oneRegion with lead := 7 }], place := { core := 7, cell := 0 }, cores := [(7, { hists := [(0, h)] })] }
  let s := s.modPart 0 (fun p => { p with spill := 2 ^ 48 + 2 ^ 21 })
  poke s (histBase 7 + 4) (leBytes 4 n ++ leBytes 4 (2 ^ 28 + 2 ^ 9 + 1 * 16))
def hcmd (op key : Nat) : HCmd :=
  { op := op, hist := 0, a := mkReg .rcd 0 false 0 (fun i => ([key, 0, 0, 0, 1] : List Nat)[i]?), edge := 0, variant := 0, j := 0, agent := agentId 7 0, ctx := 0, frame := 0, iter := 3, cls := 0 }
def hent (key : Nat) : HEntry := { key := key, vals := [], epoch := 0, round := 0, diff := 1 }
/-- With the routine HINS r0, h0; END of class 0 in context 0 of cell 0. -/
def hroutine (s : State) : State :=
  let s := poke (poke s (cfgBase 7 0 0) [0x80, 0xF2, 0x00, 0x00, 0x80, 0xE2, 0x00, 0x00]) (cfgBase 7 0 0 + 0x100) [0x00, 0x02]
  s.modCtx 7 0 0 (fun c => { c with loaded := true })
/-- The item is applied, and no output of it has to wait for another history's. -/
def appliesOk (s : State) (it : HItem) : Bool :=
  match s.histItem 7 0 it with
  | .ok (u, outs) => decide (s.itemRoom 7 0 it u = .fits) && decide (s.wantsFill 7 0 it = none) && outs.all (fun o => !s.portBusy 7 0 o.1) && okIn (u.writeBack 7 (s.changed 7 0 it)) && outs.isEmpty
  | .error _ => false

theorem wit_hists_routine : decodeCell (encode (.hins 0 0)) = .ok (.hins 0 0, 2) ∧ (hroutine (hsSt 64 {})).takesChanges 7 0 = true := by decide +kernel

/-- Histories 0 and 1 the two sides of a join, an advance of each at its head. -/
def joinSt : State :=
  let s := hsSt 64 { queue := [.join 1 3 0] }
  let s := { s with time := 5, cores := [(7, { hists := [(0, { queue := [.join 1 3 0] }), (1, { queue := [.join 1 4 0] })] })] }
  poke (poke s (histBase 7 + 8) (leBytes 4 (2 ^ 28 + 2 ^ 24 + 2 ^ 20 + 2 ^ 9 + 16))) (histBase 7 + 32 + 8) (leBytes 4 (2 ^ 28 + 2 ^ 24 + 2 ^ 9 + 16))
/-- With a routine that names history 0 by HJOIN. -/
def hjoins (s : State) : State :=
  let s := poke (poke s (cfgBase 7 0 0) (encode (.hjoin 0 0 0) ++ [0x80, 0xE2, 0x00, 0x00])) (cfgBase 7 0 0 + 0x100) [0x00, 0x02]
  s.modCtx 7 0 0 (fun c => { c with loaded := true })
def withHp (s : State) : State := poke s (histBase 7 + 512) (leBytes 8 (7 * 64 + 9 + 2 ^ 28 + 17 * 2 ^ 48))

def spSt : State := hsSt 64 { queue := [.cmd (hcmd 0 0)], entries := [hent 1, hent 1] }
theorem spills : okIn (spSt.writeBucket 7 0 (bucketOf 1 1) [2 ^ 21]) = true := by
  have f : Flat spSt 9 := flat_of (by decide +kernel) (by decide +kernel) ⟨none, [], [], 2 ^ 48 + 2 ^ 21, by decide +kernel⟩ (by decide +kernel) (by decide +kernel) (by decide +kernel) (by decide +kernel) (by decide +kernel)
  obtain ⟨u, hu⟩ := f.writeTile (k := 7) (va := 2 ^ 21) (tile := 1024) (off := 0) (bytes := entriesImage 1 0 [hent 1, hent 1]) (by decide +kernel) (by decide +kernel) (by norm_num) (by norm_num) (d := []) (Or.inr (by decide +kernel))
  have h : spSt.writeBucket 7 0 (bucketOf 1 1) [2 ^ 21] = spSt.writeVA 7 0 (2 ^ 21) (entriesImage 1 0 [hent 1, hent 1]) := by
    have b : hdB (spSt.histWord 7 0) = 1 := by decide +kernel
    have e : (spSt.hist 7 0).entries.filter (fun e => bucketOf 1 e.key == bucketOf 1 1) = [hent 1, hent 1] := by decide +kernel
    have l : ((entriesImage 1 0 [hent 1, hent 1]).drop (65536 * 0)).take 65536 = entriesImage 1 0 [hent 1, hent 1] := by decide +kernel
    unfold State.writeBucket
    dsimp only
    rw [b, e]
    simp only [List.length_cons, List.length_nil, Nat.zero_add, List.range_one, List.foldl_cons, List.foldl_nil, List.getD_cons_zero, l, show spSt.partAt 7 = 0 from by decide +kernel]
  rw [h, hu]
  rfl

theorem wit_UnitEvents_hists : (∀ it ∈ [HItem.cmd (hcmd 0 2), .advance 1 [(0, 1)] 3 0, .compact], let s := { hsSt 64 { queue := [it] } with time := 5 }
      s.histWorks 7 = true ∧ (s.hist 7 s.place.x).held = none ∧ (s.hist 7 s.place.x).out = [] ∧ (s.hist 7 s.place.x).queue = [it] ∧ appliesOk s it = true ∧ (it = .cmd (hcmd 0 2) ∨ s.advanceDue 7 0 it = true)) ∧
    -- an advance of this cycle beside a join's other side
    ((hjoins { joinSt with time := 0 }).advanceDue 7 0 (.advance 1 [(0, 1)] 3 0) = false) ∧
    -- both sides of a join, in the cycle of the advance and after it
    (hdPartner (joinSt.histWord 7 0) ≠ 0 ∧ (joinSt.hist 7 0).queue = [.join 1 3 0] ∧ (joinSt.hist 7 (hdPartner (joinSt.histWord 7 0))).queue = [.join 1 4 0] ∧ joinSt.portBusy 7 0 (hdHp (joinSt.histWord 7 0)) = false ∧
      hdHp (joinSt.histWord 7 0) < (joinSt.core 7).hpEdges.length ∧ (joinSt.rc (joinSt.leadOf 7)).aborting = false ∧ 0 ≠ joinSt.time ∧ 0 < (withHp joinSt).room 7 (36 + hdHp (joinSt.histWord 7 0)) 0 0) ∧
    -- an EOS at the one history that takes changes of the port, and at one of two
    (let s := hroutine (hsSt 64 { queue := [.eos] })
     ((List.range 16).filter (fun n => hdEn (s.histWord 7 n) && hdHp (s.histWord 7 n) == hdHp (s.histWord 7 0) && s.takesChanges 7 n)) = [0] ∧ s.portBusy 7 0 (hdHp (s.histWord 7 0)) = false ∧
      hdHp (s.histWord 7 0) < (s.core 7).hpEdges.length) ∧
    (∃ u outs, let s := spSt
     (s.histItem 7 0 (.cmd (hcmd 0 0))) = .ok (u, outs) ∧ s.itemRoom 7 0 (.cmd (hcmd 0 0)) u = .waits 0 ∧
     (s.spillNext 7 0 (((s.touched 7 0 (.cmd (hcmd 0 0))).filter (fun e => e.1 = 0)).map (·.2))) = some (bucketOf 1 1) ∧
     s.freeBlocks (s.partAt 7) (blocksFor (hdB (s.histWord 7 0)) (bucketOf 1 1) (s.hist 7 0).entries) = [2 ^ 21] ∧ okIn (s.writeBucket 7 0 (bucketOf 1 1) [2 ^ 21]) = true) ∧
    (let s := hsSt 64 { queue := [.cmd (hcmd 0 1)], entries := [hent 1], spilled := [(bucketOf 1 1, [2 ^ 21])] }
     (s.wantsFill 7 0 (.cmd (hcmd 0 1))) = some (0, bucketOf 1 1) ∧ s.areaUse 7 0 + bucketBytes (hdB (s.histWord 7 0)) (bucketOf 1 1) (s.hist 7 0).entries ≤ (s.histArea 7 0).2 ∧
     okIn (s.readBucket 7 0 (bucketOf 1 1)) = true) ∧
    (let o : Held := { req := .hist (hcmd 0 1), need := none, time := 0, serial := 0, ctx := 0, cls := 0, frame := 0, iter := 3 }
     let s := (hsSt 64 {}).modCell 7 0 (fun c => { c with held := [o] })
     s.works 7 = true ∧ (s.cell 7 s.place.cell).held = [o] ∧ isHist o.req = true ∧ (s.cell 7 0).ready? o = true ∧ s.yieldsTo 7 0 o = false ∧ okIn (s.takeOrd 7 0 o.need) = true) := by
  dsimp only
  refine ⟨?_, ?_, ?_, ?_, ⟨_, _, rfl, ?_, ?_, ?_, spills⟩, ?_, ?_⟩ <;> decide +kernel

/-! ## Matrix events and the ramp -/

/-- The kernel of core 1, its matrix engine as given, slot 0 of context 0 an instruction, and the words of ports A, B, mask. -/
def mxSt (i : Instr) (ws : List Nat) (m : Matrix) : State :=
  poke (poke (evSt.modMatrix 1 (fun _ => m)) (matBase 1) (encode i)) (matBase 1 + 512) (ws.flatMap (leBytes 8))
def mport (ts : List Token) : Port := { fifo := ts.map qt }
def m32 (l : List Nat) : Token := dataToken (lanes .n32 l) 3 0 3
def f16 (n : Nat) : List Token := List.replicate n (dataToken (lanes .fp16 [1]) 3 0 3)

theorem wit_UnitEvents_matrix :
    -- no slot of the token's class; an engine that the ramp has not reached, and one that it has
    (let s := mxSt (.accz 0 0 0 5) [] { ports := [mport (f16 1), mport [], mport []] }
     s.works 1 = true ∧ (s.regionAt 1).isSome = true ∧ (s.matrix 1).run = none ∧ (s.nextInstance 1) = some ((f16 1).headD dt, false) ∧ s.slotAt 1 0 3 = none) ∧
    (∀ b ∈ [true, false], let s := mxSt (.accz 0 0 0 3) [] { admitted := b, ports := [mport (f16 1), mport [], mport []] }
     let t := (f16 1).headD dt
     (s.nextInstance 1) = some (t, false) ∧ s.slotAt 1 0 3 = some (0, .accz 0 0 0 3) ∧ (s.matrix 1).admitted = b ∧ isMmag (.accz 0 0 0 3) = false ∧
     operandsAt false (tokTag t) (matUse 0 (.accz 0 0 0 3)).af (matUse 0 (.accz 0 0 0 3)).a ((s.matrix 1).fifo 0) = .ok true ∧ (matUse 0 (.accz 0 0 0 3)).b = 0) ∧
    (let i : Instr := .mma 0 0 0 0 3 3 3
     let s := mxSt i [] { admitted := true, ports := [mport (f16 16), mport (f16 16), mport []] }
     let t := (f16 1).headD dt
     (s.nextInstance 1) = some (t, false) ∧ s.slotAt 1 0 3 = some (0, i) ∧ operandsAt false (tokTag t) (matUse 0 i).af (matUse 0 i).a ((s.matrix 1).fifo 0) = .ok true ∧
     operandsAt false (tokTag t) (matUse 0 i).bf (matUse 0 i).b ((s.matrix 1).fifo 1) = .ok true) ∧
    -- MMAG of rows 1 and 3, and of none
    (∀ w ∈ [10, 0], let i : Instr := .mmag 0 0 0 0 3 3 3
     let s := mxSt i [] { admitted := true, ports := [mport (if w = 0 then [] else f16 2), mport (f16 16), mport [m32 [w]]] }
     let tb := (s.nextInstance 1).getD (dt, true)
     let t := tb.1
     let b := tb.2
     (s.nextInstance 1).isSome = true ∧ s.slotAt 1 t.cfg t.cls = some (0, i) ∧ isMmag i = true ∧ (s.matrix 1).fifo 2 = [qt (m32 [w])] ∧ tokTag (m32 [w]) = tokTag t ∧
     maskBeyond (m32 [w]).reg (matRows i) = false ∧ (let rows := maskRows (m32 [w]).reg (matRows i)
       let v := matUse rows.length i
       (b = true ∨ operandsAt false (tokTag t) v.af v.a ((s.matrix 1).fifo 0) = .ok true) ∧ operandsAt false (tokTag t) v.bf v.b ((s.matrix 1).fifo 1) = .ok true)) ∧
    -- an EOS at a port that drops it, and at one that forwards it
    (∀ eos ∈ [1, 0], let s := mxSt (.accz 0 0 0 3) [pw eos 0 none] { ports := [mport [eosToken 0 0], mport [], mport []] }
     (s.matrix 1).fifo 0 = [qt (eosToken 0 0)] ∧ s.expectsAt 1 0 = false ∧ pwEos (s.portWord 1 32 0 0) = eos ∧ pwEn (s.portWord 1 32 0 0) = true ∧ pwEosn (s.portWord 1 32 0 0) ≤ 1 ∧
     (∀ n, n < 3 → n ≠ 0 → pwEn (s.portWord 1 32 0 n) = true → pwEos (s.portWord 1 32 0 n) ≠ 0)) ∧
    -- a marker at every enabled port of a draining region
    (let g : Region := { oneRegion with st := .draining, marked := true }
     let s := { mxSt (.accz 0 0 0 3) [pw 0 1 none] { ports := [mport [markToken Reg.empty g.sub 0 0], mport [], mport []] } with regions := [g] }
     s.works 1 = true ∧ s.regionAt 1 = some g ∧ isKeyed 1 = false ∧ (s.matrix 1).passed = false ∧ pwEn (s.portWord 1 32 0 0) = true ∧
     (∀ n, n < 3 → pwEn (s.portWord 1 32 0 n) = true → s.matMarkAt g 1 n = true) ∧ s.passEnded 1 = true) ∧
    -- the ramp of isle 0
    (let s := { mxSt (.accz 0 0 0 3) [] { admitted := true } with time := idleCycles }
     (s.matrix 1).admitted = true ∧ (s.matrix 1).lastStep + idleCycles ≤ s.time) ∧
    (let s := mxSt (.accz 0 0 0 3) [] { waiting := true }
     s.isleWaits s.place.x = true ∧ s.throttled s.place.x = false ∧ s.power.lastIsle = none ∧ s.place.x = 0) ∧
    (let s := { (mxSt (.accz 0 0 0 3) [] {}).modIsle 0 (fun v => { v with ramping := true, row := 3 }) with time := rowCycles }
     (s.isle s.place.x).ramping = true ∧ (s.isle s.place.x).rowTime + rowCycles ≤ s.time ∧ s.throttled s.place.x = false) := by
  dsimp only
  refine ⟨?_, ?_, ?_, ?_, ?_, ?_, ?_, ?_, ?_⟩ <;> decide +kernel

/-! ## Events of collectives -/

/-- The communicator of one rank in slot 2 of core 1's engine, formed, with a collective of 64 bytes of FP32 (by default a broadcast), and the event at both. -/
def cq : Coll := { handle := 8193, op := 2, oper := 0, src := 0, dst := 64, size := 64, fmt := .fp32, root := 0, prio := 0, sel := 3 }
def cm (q : Coll) : Comm := { core := 1, node := 1, key := 5, n := 1, rank := 0, gen := 0, trace := false, table := [114], area := 1024, size := 128, st := 2, issued := 1, colls := [q] }
def clSt (c : Comm) (p : Place) : State := { (sColl 0 0).modDie 0 (fun d => { d with comms := [(2, c)] }) with place := { p with core := 1, x := 2, y := 8193 } }
/-- Cores 1 and 2 in slots 2 and 3 of die 0, with these collectives; the event at the first. -/
def pair (q p : Coll) : State :=
  { (sColl 0 0).modDie 0 (fun d => { d with comms := [(2, { cm q with n := 2, table := [114, 178], via := [18, 18] }), (3, { cm p with core := 2, rank := 1, n := 2, table := [114, 178], via := [18, 18] })] }) with
    place := { core := 1, x := 2, y := 8193 } }
def pairCm (q : Coll) : Comm := { cm q with n := 2, table := [114, 178], via := [18, 18] }
/-- Core 1 and a rank of another package. -/
def farCm (q : Coll) : Comm := { cm q with n := 2, table := [114, 178 + 5 * 2 ^ 16], via := [18, 0] }
def farPair (q : Coll) (p : Place) : State := routed (clSt (farCm q) p)
/-- A router entry of two ports, step 1 of 3, at die 0, entry 8, whose stream is that of a collective under way in slot 2. -/
def rtSt (w : Nat) : State :=
  { (clSt (cm { cq with sent := [0] }) {}).modDie 0 (fun d => { d with router := if w = 0 then [] else [(8, w)] }) with place := { x := 8, flag := true } }

theorem wit_UnitEvents_colls :
    -- all members have joined; a record that differs
    (let c := { cm cq with st := 1, colls := [] }
     (clSt c {}).commIn 1 2 = some c ∧ (∀ n, n < 1 → (clSt c {}).foreign c n = false ∧ ((clSt c {}).member c n).map (·.st) = some 1)) ∧
    (let c := { pairCm cq with st := 1, colls := [] }
     let s : State := (pair cq cq).modDie 0 (fun d => { d with comms := [(2, c), (3, { c with core := 2, rank := 1, table := [114, 242] })] })
     s.commIn 1 2 = some c ∧ c.st = 1 ∧ s.mismatch c = true) ∧
    -- a lost member without a collective, with one that is not committed
    (let c := { cm cq with lost := true, colls := [] }
     (clSt c {}).commIn 1 2 = some c ∧ c.st ≠ 3 ∧ c.lost = true ∧ c.colls = []) ∧
    (let c := { cm cq with lost := true }
     let s := clSt c {}
     s.commIn 1 2 = some c ∧ c.colls.filter (fun q => q.status == 0 && q.pend.isNone) = [cq] ∧ s.committed c cq = none ∧
     okIn (((s.modComm 0 2 (fun c => { c with st := 3, lost := true })).failColls 1 2 1 0x0A7 14 [8193]).engineStore 1 c.area (List.replicate c.size 0)) = true) ∧
    -- a collective that another package's rank finds to differ
    (let s := farPair cq { flag := true }
     s.commIn 1 2 = some (farCm cq) ∧ (farCm cq).live 8193 = some cq ∧ s.place.flag = true ∧ s.foreigners (farCm cq) ≠ [] ∧ s.allComms.filter (fun o => agrees (farCm cq) o.2.2) = [(0, 2, farCm cq)]) ∧
    -- the source of a barrier's rank, which has none
    (let q := { cq with op := 5 }
     (clSt (cm q) {}).clashes (cm q) q = false ∧ q.staged = false ∧ q.read = false ∧ q.handle = 8193 ∧ readsSource q.op (cm q).n q.root (cm q).rank = false) ∧
    -- a combination at its start, at its slot's end, and the result of none
    (let q := { cq with read := true, own := [fp 1], op := 0, sel := 0, sent := [0] }
     let s := pair q q
     s.commIn 1 2 = some (pairCm q) ∧ s.clashes (pairCm q) q = false ∧
     let s1 := s.takeLanes 1 2 (pairCm q) q s.place.lanes
     let q1 := ((s1.commIn 1 2).bind (·.live 8193)).getD q
     (pairCm q).areaBusy q = false ∧ q1.folded < combines (pairCm q) q1 ∧ (∀ r ∈ awaits (pairCm q) q1, (s1.contribOf (pairCm q) q1 r).isSome = true) ∧ (s1.core 1).slotOpen = none ∧
     ((s.modCore 1 (fun o => { o with slotOpen := some 0 })).core 1).slotOpen = some 0) ∧
    (let q := { cq with read := true, own := [fp 1], op := 0 }
     let s := clSt (cm q) {}
     s.commIn 1 2 = some (cm q) ∧ s.clashes (cm q) q = false ∧
     let s1 := s.takeLanes 1 2 (cm q) q s.place.lanes
     let q1 := ((s1.commIn 1 2).bind (·.live 8193)).getD q
     combines (cm q) q1 ≤ q1.folded ∧ (∀ r ∈ awaits (cm q) q1, (s1.contribOf (cm q) q1 r).isSome = true) ∧ sentOut (cm q) q1 = true ∧ (cm q).areaBusy q1 = false ∧
     okIn (s1.engineStore 1 (cm q).area ((s1.resultOf (cm q) q1).flatMap areaOf)) = true ∧ (s1.commIn 1 2).bind (·.live 8193) = some q1 ∧ q1.handle = 8193 ∧ (s1.resultOf (cm q) q1).flatMap areaOf ≠ []) ∧
    -- a done notice, and the commit of a result with bytes and of one without
    (let q := { cq with staged := true }
     let s := clSt (cm q) {}
     (cm q).st = 2 ∧ (cm q).rank = 0 ∧ s.place.port < (cm q).n ∧ s.place.port ∉ q.dones ∧ s.noticeOf (cm q) q s.place.port = some []) ∧
    (∀ op ∈ [(2 : Nat), 5], let q := { cq with op := op, staged := true, dones := [0], commit := true }
     let s := clSt (cm q) {}
     let span := destSpan (cm q) q
     s.commIn 1 2 = some (cm q) ∧ (cm q).live 8193 = some q ∧ (cm q).areaBusy q = false ∧ s.committed (cm q) q = some [] ∧ (span.2.1 = 0 ↔ op = 5) ∧
     (op = 2 → let x := s.load (s.agent 1 12) 1 ((cm q).area + span.1) span.2.1 4 false
       okIn x = true ∧ (match x.2 with | .ok b => okIn (x.1.engineStore 1 q.dst b.1) | .error _ => false) = true)) ∧
    -- a chunk of a broadcast, and none
    (let q := { cq with read := true, op := 3, own := [fp 1] }
     ((pair q q).pickSlot 0 18).map (fun e => (e.1, e.2.2.1.handle, e.2.2.2)) = some (2, 8193, 0) ∧ (pair { q with read := false } { q with read := false }).pickSlot 0 18 = none) ∧
    (let s := { evSt.modCore 1 (fun o => { o with slotOpen := some 0 }) with time := 3600 }
     (s.core 1).slotOpen = some 0 ∧ 0 + 3600 ≤ s.time) ∧
    -- a router entry, an empty one, one without a collective under way
    (let w := 3 + 1 * 2 ^ 125 + 2 * 2 ^ 122
     (rtSt w).place.flag = true ∧ (rtSt w).stepDue 0 8 = true ∧ aget ((rtSt w).die 0).router 8 = some w ∧ outPort w < 19 ∧ (aget ((rtSt 0).die 0).router 8).getD 0 = 0 ∧ (rtSt w).stepDue 0 4 = false) := by
  dsimp only
  refine ⟨?_, ?_, ?_, ?_, ?_, ?_, ?_, ?_, ?_, ?_, ?_, ?_, ?_⟩ <;> decide +kernel

/-! ## Nodes and host channels -/

/-- Node 5 of a kind, in state st, in die 0's pool beside the kernel; the time is that of one level of aging. -/
def node6 (kind st : Nat) : Node := { node1 with kind := kind, handle := 9, st := st, w := 1, h := 1, ops := [] }
def ndSt (v : Node) : State := { evSt.modDie 0 (fun d => { d with pool := [5] }) with nodes := [(1, node1), (5, v)], time := 18000000, place := { x := 5 } }

theorem wit_PartEvents_nodes : (∀ kind ∈ [0, 4, 3], (((ndSt (node6 kind 1)).nextNode (ndSt (node6 kind 1)).pooled []).map (fun e => (e.1, e.2.1))) = some (5, node6 kind 1)) ∧
    (aget (ndSt (node6 0 1)).nodes (ndSt (node6 0 1)).place.x = some (node6 0 1) ∧ (node6 0 1).st = 1 ∧ (node6 0 1).since + ((node6 0 1).aged + 1) * agingCycles ≤ (ndSt (node6 0 1)).time ∧ (node6 0 1).prio + (node6 0 1).aged < 7) ∧
    (∀ m ∈ [RcMode.halting, .running], let s := { (evSt.modRc 1 (fun r => { r with mode := m })) with place := { x := 1 } }
     aget s.nodes s.place.x = some node1 ∧ node1.held = none ∧ node1.st = 2 ∧ node1.kind = 0 ∧ s.regions.find? (fun r => r.node == s.place.x) = some oneRegion ∧ s.nodeDone 1 1 = decide (m = .halting)) ∧
    ((node6 3 2).held = none ∧ (node6 3 2).st = 2 ∧ (node6 3 2).kind = 3 ∧ (node6 0 4).held = none ∧ 4 ≤ (node6 0 4).st ∧ (node6 0 4).sent = false) ∧
    (let s := { ndSt (node6 4 2) with hostOut := [(5, 0, [])], place := {} }
     s.hostOut[s.place.x]? = some (5, 0, []) ∧ aget s.nodes 5 = some (node6 4 2)) := by
  dsimp only
  refine ⟨?_, ?_, ?_, ?_, ?_⟩ <;> decide +kernel

/-- Partition 0's channel table at 0 of its supervisor's scratchpad: channel 3 is open, for port 0 of cell 9 of core 1's region. Buffer 2 is a tile at 2^22. -/
def chTab (s : State) : State := poke s (spadBase 63 + 48) (1 :: 0 :: 0 :: 0 :: leBytes 2 64 ++ leBytes 2 9 ++ [0])
def chMsg (kind handle : Nat) (payload : List Byte) : HostMsg := { kind := kind, channel := 3, handle := handle, offset := 0, declared := 0, payload := payload, dirty := false }
def bufRec : List Byte := leBytes 8 (2 ^ 22) ++ leBytes 8 2048
def chSt0 (c : Channel) (m : HostMsg) : State :=
  let s := chTab (tileOf evSt (2 ^ 20 + 64) bufRec)
  { s.modPart 0 (fun p => { p with chans := [(3, c)] }) with place := { x := 3, y := 0, msg := m } }

/-- Channel 3 has a shadow of buffer 2's tile; a write of two bytes into it. -/
def chW : Channel := { shadow := [(2, [(2048, 2 ^ 19)])], order := [2] }
def chS : State := chSt0 chW (chMsg 0 2 [1, 2])

theorem chan_writes : ∃ b t w, (chS.openChan 0 3).registerBuf 63 0 2 = (t, .ok b) ∧ 0 + 2 ≤ b.size ∧ t.shadowWrite 63 0 3 2 b 0 [1, 2] = (w, .ok ()) := by
  have ho : chS.openChan 0 3 = chS := by
    unfold State.openChan
    rw [show (chS.chan 0 3).closed = false from by decide +kernel]
    rfl
  have f : Flat chS 9 := flat_of (by decide +kernel) (by decide +kernel) ⟨none, [(3, chW)], [], 0, by decide +kernel⟩ (by decide +kernel) (by decide +kernel) (by decide +kernel) (by decide +kernel) (by decide +kernel)
  obtain ⟨t, ht, ft, e⟩ := f.readVA (k := 63) (va := 2 ^ 20 + 64) (len := 32) (off := 64) (by decide) (by norm_num) (show Holds chS 63 512 (Memory.writeN [] 64 bufRec) from Or.inl (by decide +kernel))
  have hp : t.part 0 = chS.part 0 := by rw [e.rest]; rfl
  have hb : chS.registerBuf 63 0 2 = (t.modPart 0 (fun p => { p with bufs := aset p.bufs 2 { start := 2 ^ 22, size := 2048 } }), .ok { start := 2 ^ 22, size := 2048 }) := by
    unfold State.registerBuf
    rw [show bits (chS.part 0).buftab 47 5 * 32 + 32 * 2 = 2 ^ 20 + 64 from by decide +kernel, ht]
    dsimp only
    rw [hp, show Memory.readN (Memory.writeN [] 64 bufRec) 64 32 = bufRec ++ List.replicate 16 0 from by decide +kernel]
    rfl
  set t1 := t.modPart 0 (fun p => { p with bufs := aset p.bufs 2 { start := 2 ^ 22, size := 2048 } }) with ht1
  have f1 : Flat t1 9 := ⟨ft.wf, ft.leaf, by obtain ⟨c, q, b, z, h⟩ := ft.part; exact ⟨c, q, _, z, by rw [ht1, State.part_modPart, h]⟩, ft.keys, ⟨ft.xlats.core, ft.xlats.isle, ft.xlats.die⟩, ft.tiles⟩
  obtain ⟨u, hu, fu, -⟩ := f1.fill (k := 63) (tile := 2 ^ 19) (d := []) (by norm_num) (show Holds t 63 (2 ^ 19) [] from Holds.translated (Or.inr (by decide +kernel)) e)
  obtain ⟨w, hw, -⟩ := fu.seal (k := 63) (2 ^ 19) [1, 2] (by decide) (by norm_num) (by norm_num)
  have hs : (aget (t1.chan 0 3).shadow 2).getD [] = [(2048, 2 ^ 19)] := by
    unfold State.chan; rw [ht1, State.part_modPart, hp]; rfl
  refine ⟨_, t1, w.modChan 0 3 (fun c => { c with shadow := aset c.shadow 2 [(2048, 2 ^ 19)] }), by rw [ho]; exact hb, by decide, ?_⟩
  unfold State.shadowWrite
  rw [show tileSegs (({ start := 2 ^ 22, size := 2048 } : Buf).start + 0) ([1, 2] : List Byte).length = [(2048, 0, 2)] from by decide, List.foldl_cons, List.foldl_nil]
  dsimp only
  rw [hs]
  unfold State.writeShadow
  rw [show aget [(2048, 2 ^ 19)] 2048 = some (2 ^ 19) from rfl]
  dsimp only
  rw [hu]
  dsimp only
  rw [show List.replicate 2 (255 : Byte) = List.replicate ([1, 2] : List Byte).length 255 from rfl, show List.take 2 ([1, 2] : List Byte) = [1, 2] from rfl, hw]
  rfl

theorem wit_PartEvents_host : (∀ m ∈ [{ chMsg 0 2 [] with dirty := true }, chMsg 1 2 []], m.dirty = true ∨ m.kind ≠ 0) ∧ (chSt0 {} { chMsg 0 2 [] with channel := 4 }).chanOpen 0 4 = false ∧
    (chSt0 {} (chMsg 0 2 [])).chanOpen 0 3 = true ∧ (chSt0 {} (chMsg 0 2 [])).chan 0 3 = {} ∧ bits ((chSt0 {} (chMsg 0 2 [])).part 0).buftab 59 48 ≤ 4 ∧ 3 < bits ((chSt0 {} (chMsg 0 2 [])).part 0).buftab 59 48 ∧
    -- raising writes: the first, one into a full FIFO, one while another waits
    (chMsg 1 0 (List.replicate 64 1)).payload.length = 64 ∧ (chMsg 1 0 (List.replicate 64 1)).kind = 1 ∧ ([] : List (Token × List HostPub)).length < 256 ∧
    (let c : Channel := { fifo := List.replicate 256 (dt, []) }
     (chSt0 c (chMsg 1 0 [])).chan 0 3 = c ∧ c.waiting = none ∧ 256 ≤ c.fifo.length ∧ (chSt0 c (chMsg 1 0 [])).chanOpen 0 3 = true) ∧
    (let c : Channel := { waiting := some (chMsg 1 0 []) }
     (chSt0 c (chMsg 1 0 [])).chan 0 3 = c ∧ c.waiting.isSome = true) ∧
    -- publications of nothing and of a buffer whose version has moved on
    (let c : Channel := { waiting := some (chMsg 1 0 []) }
     (chMsg 1 0 []).declared ≤ c.writes ∧ ((chSt0 c default).publishChan 0 c c.order []).2 = .ok (some [])) ∧
    (let c : Channel := { waiting := some (chMsg 1 0 []), order := [2], bases := [(2, 1)] }
     ((chSt0 c default).publishChan 0 c c.order []).2 = .ok none) ∧
    -- a token for port 0 of cell 9
    (let c : Channel := { fifo := [(dt, [])] }
     let s := (chSt0 c default).modCtx 1 9 0 (fun c => { c with loaded := true })
     let s := poke s (cfgBase 1 9 0 + 0x120) (leBytes 8 (64 + 48 + 2 ^ 22))
     let e := s.chanEntry 0 3
     let id := reloc 1 (fld e 6 2)
     let d : Dest := ⟨id / 64, id % 64, 0, fld e 8 1 % 4⟩
     (s.chan 0 3).fifo = [(dt, [])] ∧ fld e 4 2 / 64 = 1 ∧ d = ⟨1, 9, 0, 0⟩ ∧ s.regionAt 1 = some oneRegion ∧ (s.ctx 1 9 0).loaded = true ∧ pwEn (s.portWord 1 9 0 0) = true ∧ pwSrc (s.portWord 1 9 0 0) = agentId 1 48) := by
  dsimp only
  refine ⟨?_, ?_, ?_, ?_, ?_, ?_, ?_, ?_, ?_, ?_, ?_, ?_, ?_, ?_⟩ <;> decide +kernel

/-! ## Links, records, pre-emption, the part -/

def pktOf (m w c : Bool) : UePacket := { modeOk := m, wellFormed := w, secOk := c, part := 0, msg := chMsg 1 0 [] }
/-- A flit of partition 0 for package 5, with tag 5, and the event at port 16. -/
def fl (vc seq : Nat) (s : Bool) (b : FlitBody) : Flit := { vc := vc, seq := seq, s := s, crcOk := true, tag := 5, dest := 5, part := 0, body := b }
def lkSt (p : Strait) (f : Flit) (pl : Place) : State := { routed evSt with straits := [(16, p)], place := { pl with port := 16, flit := f } }
def rcd0 (lose : Bool) : EvRec := { queue := 0, kind := 3, source := 77, die := 0, seq := 0, time := 0, body := List.replicate 16 1, mayLose := lose }
/-- Record 77 waits for partition 0, whose queue is as given. -/
def psSt (q : Queue) (lose : Bool) : State := { evSt.modPart 0 (fun p => { p with queue := q }) with posts := [rcd0 lose], place := { x := 77 } }
/-- The kernel's region as given. -/
def rgSt (g : Region) : State := { evSt with regions := [g] }

theorem wit_PartEvents_links :
    ((pktOf false true true).modeOk = false ∧ (pktOf true true false).secOk = false ∧ (pktOf true true true).wellFormed = true ∧ (lkSt {} default {}).place.port ∉ (lkSt {} default {}).ueDown) ∧
    -- flits: without room, by no route, an access, a token
    (∀ f ∈ [fl 64 0 true (.access (rmq .load 64 8 4 false)), fl 64 0 false (.token (64 + 9) 0 dt)], let s := withPort (lkSt { rxPool := if f.s then 0 else 1 } f {}) (pw 0 0 none) []
     s.place.flit.crcOk = true ∧ s.place.flit.seq = (s.strait 16).rxSeq ∧ s.flitEnters f = true ∧ (s.routeEntry (s.flitPart f) f.tag).isSome = true ∧ (f.s = true → (s.strait 16).rxPool = 0) ∧
     s.routeEntry (s.flitPart f) 6 = none) ∧
    -- NAKs, credits
    (∀ n ∈ [7, 8], let p : Strait := { replay := [fl 64 3 false .other], replays := n }
     p.replay.filter (fun a => decide (3 ≤ a.seq)) = [fl 64 3 false .other] ∧ (p.replay.head?.map (·.seq)) = some 3) ∧
    (let p : Strait := { reserve := [(64, 3)], pool := 1023 }
     p.own 64 < 4 ∧ p.pool < 1024 ∧ p.waiting 64 = []) ∧ evSt.HasEdge 1 9 0 0 ∧
    -- an escape, the watchdog's two thresholds, a link that comes back
    (let p : Strait := { queue := [(64, [fl 64 0 false .other])], since := [(64, 0)] }
     let s := { lkSt p default { x := 64 } with time := 16 }
     let t := poke s (spadBase 63 + 0x3000) (leBytes 8 (5 + 2 ^ 16 + 2 ^ 34 + 2 ^ 63))
     (t.strait 16).waiting 64 = [fl 64 0 false .other] ∧ (aget (t.strait 16).since 64).getD t.time + 16 ≤ t.time ∧ t.pickPort (((t.routeEntry 0 5).map (fun e => bits e 51 34)).getD 0) 88 = some 0) ∧
    (∀ n ∈ [0, 1], let p : Strait := { queue := [(64, [fl 64 0 false .other])], since := [(64, 0)], warned := [(64, n)] }
     let s := { lkSt p default { x := 64 } with time := 10 ^ 12 }
     (s.strait 16).waiting 64 = [fl 64 0 false .other] ∧ (aget (s.strait 16).since 64).getD s.time + s.wdog1 * cyclesPerUs ≤ s.time ∧ (aget (s.strait 16).since 64).getD s.time + s.wdog2 * 1000 * cyclesPerUs ≤ s.time ∧
     (aget (s.strait 16).warned 64).getD 0 = n) ∧
    ({ down := true : Strait }.down = true ∧ ({ down := true } : Strait).queue = []) := by
  unfold State.HasEdge
  dsimp only
  refine ⟨?_, ?_, ?_, ?_, ?_, ?_, ?_, ?_⟩ <;> decide +kernel

theorem wit_PartEvents_records : (∀ q ∈ [({} : Queue), { kept := List.replicate 16 (rcd0 true) }, { isSet := true, core := 63, base := 0x6000, entries := 16 }], ∀ b ∈ [true, false], let s := psSt q b
     s.posts.findIdx? (fun a => a.source == s.place.x) = some 0 ∧ s.posts[0]? = some (rcd0 b) ∧ (s.part 0).live = true ∧ s.queue 0 = q) ∧
    (let s := psSt { isSet := true, core := 63, base := 0x6000, entries := 16 } true
     (s.queueWord (s.queue 0) 0 + 2 ^ 32 - s.queueWord (s.queue 0) 1) % 2 ^ 32 < (s.queue 0).entries ∧ (rcd0 true).body.length = 16 ∧ Memory.wf s.mem = true) ∧
    ((rcSt [] (fun r => { r with timer := 1 })).rc 1).timer = 1 := by
  dsimp only
  refine ⟨?_, ?_, ?_⟩ <;> decide +kernel

theorem wit_PartEvents_preempt :
    (let g : Region := { oneRegion with st := .draining, marked := true }
     let s := withPort (rgSt g) (pw 0 15 none) [qt (markToken Reg.empty g.sub 0 0)]
     let s := s.modCtx 1 9 0 (fun c => { c with loaded := true })
     s.regionAt 1 = some g ∧ s.works 1 = true ∧ (s.cell 1 9).passed = false ∧ s.cellPorts 1 9 ≠ [] ∧ (∀ q ∈ s.cellPorts 1 9, s.markAt g 1 9 q.1 q.2 = true) ∧ (s.cell 1 9).running = none ∧ (s.cell 1 9).ready = [] ∧
     (s.cell 1 9).done = [] ∧ (s.cell 1 9).held = [] ∧ s.returnsDone 1 9 = true) ∧
    (let g : Region := { oneRegion with pending := true }
     (rgSt g).regionAt 1 = some g ∧ (rgSt g).turnHasCome g = true) ∧
    (∀ b ∈ [true, false], let g : Region := { oneRegion with st := .draining, marked := true, capture := b }
     let s := (rgSt g).modRc 1 (fun r => { r with mode := .stopped })
     s.regionAt 1 = some g ∧ s.turnHasCome g = false ∧ s.drained g = true) ∧
    (let g : Region := { oneRegion with st := .draining }
     let s := { rgSt g with time := 10 ^ 12 }
     s.regionAt 1 = some g ∧ g.capture = false ∧ g.since + (s.part g.part).deadline ≤ s.time) ∧
    ((rgSt { oneRegion with st := .killed }).regionAt 1 = some { oneRegion with st := .killed } ∧ (rgSt { oneRegion with st := .killed }).remoteClear { oneRegion with st := .killed }.coreList = true) := by
  dsimp only
  refine ⟨?_, ?_, ?_, ?_, ?_⟩ <;> decide +kernel

/-- Codes of uncorrectable errors, one that ends a node and one that ends the part, and a code that is none of them. -/
theorem wit_PartEvents_part : State.reset.power.window ≤ State.reset.time ∧ State.reset.time < ({ window := 1 } : Power).window ∧ (State.reset.die 0).hot95 = false ∧
    (0x00F ∈ damageCodes ∧ gridSev 0x00F = 2) ∧ (0x17F ∈ damageCodes) ∧ (0x15F ∈ damageCodes ∧ gridSev 0x15F = 3) ∧ (0x187 ∉ damageCodes ∧ 0x0B7 ∉ damageCodes ∧ (0x187 : Nat) ≠ 0x176) ∧ damageKind 0x00F < 4 ∧ ¬damageKind 0x15F < 4 ∧
    (evSt.regionAt 1).isSome = true ∧ State.reset.regionAt 1 = none ∧ (∀ r ∈ State.reset.regions, dieOf r.lead % 4 ≠ dieOf 1 % 4) ∧
    -- words that are no instruction: a barrier's form with a number beyond the count, a supervisor's opcode below its level, a manager's, another
    (let s := { (sCpy []) with word := 0x48 * 2 ^ 25 + 5 * 2 ^ 5 }
     (0x48 ≤ bits s.word 31 25 ∧ bits s.word 31 25 ≤ 0x4A ∧ bits s.word 4 3 = 0 ∧ bits s.word 9 5 ≠ 31 ∧ s.barrierCount s.fcore ≤ bits s.word 9 5)) ∧
    (let s := { (sCpy []) with word := 0x60 * 2 ^ 25 }
     (s.rc s.fcore).level = 0 ∧ 0x60 ≤ bits s.word 31 25 ∧ bits s.word 31 25 < 0x70) ∧
    (let s := { sSup [] 0 with word := 0x6E * 2 ^ 25 }
     (s.rc s.fcore).level = 1 ∧ bits s.word 31 25 ∈ managerOps) ∧
    (let s := { (sCpy []) with word := 0x1F * 2 ^ 25 }
     (s.rc s.fcore).level = 0 ∧ ¬(0x60 ≤ bits s.word 31 25)) := by
  refine ⟨?_, ?_, ?_, ?_, ?_, ?_, ?_, ?_, ?_, ?_, ?_, ?_, ?_, ?_, ?_, ?_⟩ <;> decide +kernel

/-! ## Accesses that wait (R90, R100, R101, R192) -/

/-- A far store of core 1's controller to these bytes is in flight, and one of cell 0; a remote atomic of cell 0 that acquires. -/
def behind (s : State) (h off : Nat) : State := { s with reqs := [{ rmq .store off h 8 false with dst := 1 }] }
theorem wit_Behind : (rcSt [16] id).free90 1 16 8 ∧ ¬(behind (rcSt [16] id) 8 16).free90 1 16 8 ∧ ¬(behind (rcSt [16] id) 8 16).free90 1 23 1 ∧ (behind (rcSt [16] id) 8 16).free90 1 24 8 ∧
    ((sCell [nr 0x800]).atomsOut 1 (handleOf 0) = [] ∧ (sCell [nr 0x800]).behindOwn ⟨0, 1, handleOf 0⟩ 1 0x800 64 = false) ∧
    (sV.flows e0 (sV.reqTouches 1 (.sts false false (fp 0x3F800000) (nr 0x800))) ∧ sV.remoteOut 1 (handleOf 0) = 0 ∧ isRelease (.tbarv (nr 0x800)) = true) ∧
    ¬(behind sV (handleOf 0) 0x800).flows e0 ((behind sV (handleOf 0) 0x800).reqTouches 1 (.sts false false (fp 0x3F800000) (nr 0x800))) ∧
    ((sV.countRemote 1 (handleOf 0) 1).Runs e0 ∧ 0 < (sV.countRemote 1 (handleOf 0) 1).remoteOut 1 (handleOf 0)) ∧
    ((sCell []).relWaits 2 = false ∧ (sCell []).atomsOut 1 (handleOf 0) = []) := by
  unfold State.free90 State.flows
  refine ⟨?_, ?_, ?_, ?_, ?_, ?_, ?_, ⟨⟨rfl, rfl, rfl, rfl⟩, ?_⟩, ?_⟩ <;> decide +kernel

/-- sr.far names core 2, an address past its end and one that it has; a core of the isle that a part of fifteen lacks. -/
theorem wit_RcFar_bounds : let s (f : Fuses) : State := { rcSt [] (fun r => { r with far := 2 ^ 32 + 2 * 64 }) with fuses := f }
    let f0 : Fuses := { module := true, fifteen := false, absent := 0 }
    (s f0).spadOf 2 < spadSize 2 - 1 + 8 ∧ spadSize 2 - 8 + 8 ≤ (s f0).spadOf 2 ∧ (spadSize 2 - 8) % 8 = 0 ∧ (s { f0 with fifteen := true }).spadOf 2 < 0 + 1 := by decide

/-! ## Supervisors: what is refused, waits, and follows of itself -/

theorem wit_RcSupervision_stops :
    (let s := sSup [64 * 1 + 48, 0x10001] 0
     privNumber s.level 0x1FF = false ∧ privNumber s.level 0x103 = true ∧ ({ s with fuses := { s.fuses with fifteen := true } } : State).badTarget 1 = true ∧ s.badTarget (bits (s.qv 1).toNat 15 6) = false) ∧
    (let s := (sSup [4097, 4096] 0).countRemote 63 8 1
     s.remoteOut 63 8 ≠ 0 ∧ (s.qv 1).toNat % 4096 ≠ 0) ∧
    (∀ c ∈ (sSup [4096, 4096] 0).cores, ∀ l ∈ c.2.cells, l.2.held = []) ∧
    (let s := { sSup [regionHandle 1] 0 with regions := [] }
     s.regionOf 0 (s.qv 1).toNat = none ∧ s.savedOf 0 (s.qv 1).toNat = none) ∧
    (let s := { sSup [regionHandle 1] 0 with regions := [], saved := [{ part := 0, live := true, region := frz, node := 1, rcd := node1, cores := [{}], stores := [[]], frames := [], bytes := [] }] }
     s.regionOf 0 (s.qv 1).toNat = none ∧ (s.savedOf 0 (s.qv 1).toNat).isSome = true) ∧
    (∀ st ∈ [RegionSt.killed, .frozen, .running], ({ sSup [regionHandle 1] 0 with regions := [{ oneRegion with st := st }] } : State).regionOf 0 (regionHandle 1) = some { oneRegion with st := st }) ∧
    ((sSup [regionHandle 1] 0).regionAt oneRegion.lead = some oneRegion) ∧
    (let s := sSup [0, 17] 0
     (s.qv 2).toNat ∉ [16, 32, 64, 128, 256, 512, 1024, 2048, 4096]) ∧
    (let s := sSup [0x400000 - 64, 16] 0
     spadSize 63 < (s.qv 1).toNat + 64 + 32 * (s.qv 2).toNat) ∧
    (let s := sSup [32, 16] 0
     (s.qv 1).toNat + 64 + 32 * (s.qv 2).toNat ≤ spadSize 63 ∧ (s.qv 1).toNat % 64 ≠ 0) := by
  dsimp only
  refine ⟨?_, ?_, ?_, ?_, ?_, ?_, ?_, ?_, ?_, ?_⟩ <;> decide +kernel

/-- A marker behind tokens that can never be matched; a drain's end before and after its deadline; a killed region with a remote access outstanding; a kept record that finds no room, and one of a partition that is gone. -/
theorem wit_RcSupervision_events :
    (let g : Region := { oneRegion with st := .draining, marked := true }
     let s := (withPort (rgSt g) (pw 0 15 none) [qt (markToken Reg.empty g.sub 0 0)]).modCtx 1 9 0 (fun c => { c with loaded := true })
     let s := s.modCell 1 9 (fun c => { c with matching := [{ ctx := 0, frame := 0, iter := 3, cls := 0, toks := [(1, qt dt)] }] })
     s.regionAt 1 = some g ∧ s.works 1 = true ∧ (s.cell 1 9).passed = false ∧ (s.frozenUnits g).contains (1, 9) = false ∧ (s.cell 1 9).matching ≠ [] ∧ (s.cell 1 9).matching.any (s.matched 1 9) = false) ∧
    (let g : Region := { oneRegion with st := .draining }
     let s := rgSt g
     s.turnHasCome g = false ∧ s.drained g = false ∧ s.time < g.since + (s.part g.part).deadline) ∧
    (bit (evSt.part 0).pctl 0 = false ∧ bit ((evSt.modPart 0 (fun p => { p with pctl := 1 })).part 0).pctl 0 = true) ∧
    (let g : Region := { oneRegion with st := .killed }
     ((rgSt g).countRemote 1 8 1).regionAt 1 = some g ∧ ((rgSt g).countRemote 1 8 1).remoteClear g.coreList = false) ∧
    (let s := psSt { kept := List.replicate 16 (rcd0 false) } false
     s.posts[0]? = some (rcd0 false) ∧ s.queueGone 0 = false ∧ s.noRoom 0 = true) ∧
    (({ psSt {} false with parts := [] } : State).queueGone 0 = true) ∧
    (evSt.rc 1).timer ≠ 1 := by
  dsimp only
  refine ⟨?_, ?_, ?_, ?_, ?_, ?_, ?_⟩ <;> decide +kernel

/-! ## Saves, migration, checkpoints: what is refused or waits -/

theorem wit_RcSaves_refused :
    (let s := sFlat [regionHandle 1, 0x400000]
     ({ s with regions := [] } : State).regionOf 0 (s.qv 1).toNat = none ∧ s.regionOf 0 (s.qv 1).toNat = some oneRegion ∧ oneRegion.st ≠ .frozen) ∧
    ((sFrz [regionHandle 1, 0]).regionAt frz.lead = some frz ∧ frz.lead ≠ 63 ∧ 63 ∉ frz.coreList) ∧
    ({ sFlat [64 * 2 + 48, 0x400000] with saved := [] } : State).findImage 63 0 0x400000 = ({ sFlat [64 * 2 + 48, 0x400000] with saved := [] }, .ok none) ∧
    (∃ c, sImg.rectCause { (sImg.saved.headD default) with part := 0 } 0 7 = some c) ∧
    (∃ c, (sFlat [0x400000]).migrCause 0 (2 ^ 40) 0x800000 = .error c) ∧
    ((sMig2.part 0).migr.map (fun m => decide (m.leafAt + 8 ≤ m.target ∨ m.target + m.size ≤ m.leafAt))) = some true ∧
    (let s := poke sMig2 (spadBase 63 + 0x3000) [0x0B, 1]
     (s.part 0).migr.map (fun m => decide (Memory.readNat s.mem m.leafAt 8 ≠ m.leaf)) = some true) ∧
    0x400001 % 2048 ≠ 0 ∧ ((sFlat [0x400000, 1]).tileMeta 0x400000).st ≠ 2 := by
  dsimp only
  refine ⟨?_, ?_, rfl, ⟨0x0F3, ?_⟩, ⟨0x17B, ?_⟩, ?_, ?_, ?_, ?_⟩ <;> decide +kernel

/-- A request that is none, and a checkpoint that waits for a region which does not freeze, before and after its deadline. -/
theorem wit_RcSaves_waits : badRequest reqBytes = true ∧ badManifest reqBytes = true ∧
    (let s := sCk (some { core := some 63, req := 0x400000, snaps := [], now := [regionHandle 1] })
     ∃ c, (s.part 0).ckpt = some c ∧ c.core = some 63 ∧ c.node = 0 ∧ regionHandle 1 ∈ c.now ∧ (∀ r, s.regionOf 0 (regionHandle 1) = some r → r.st ≠ .frozen) ∧
      s.time < c.since + (s.part 0).deadline ∧ c.since + (s.part 0).deadline ≤ 10 ^ 12) := by
  refine ⟨by decide, by decide, _, rfl, rfl, rfl, by decide, ?_, by decide +kernel, by decide +kernel⟩
  intro r h
  rw [show (sCk (some { core := some 63, req := 0x400000, snaps := [], now := [regionHandle 1] })).regionOf 0 (regionHandle 1) = some oneRegion from by decide +kernel] at h
  cases h
  decide

/-! ## Tasks and phases: what waits -/

theorem no_waiting {cs : List Ctx} (h : ∀ c ∈ cs, ∀ d ∈ c.edges, d.waiting = []) (y g : Nat) : ((cs.getD y {}).edges.getD g {}).waiting = [] := by
  have hc : ∀ d ∈ (cs.getD y {}).edges, d.waiting = [] := by
    rw [List.getD_eq_getElem?_getD]
    cases hy : cs[y]? with
    | none => exact by decide +kernel
    | some c => exact h c (List.mem_of_getElem? hy)
  rw [List.getD_eq_getElem?_getD]
  cases hg : (cs.getD y {}).edges[g]? with
  | none => rfl
  | some d => exact hc d (List.mem_of_getElem? hg)

theorem wit_TaskEvents_waits : ((sAdm.gather 1 9).needs 1 9 0 0).ring = none ∧ (sAdm.HasEdge 1 9 0 0) ∧
    (evSt.works 1 = true ∧ evSt.phaseRuns 1 = true ∧ ({ evSt with regions := [] } : State).phaseRuns 1 = false) ∧
    (((evRun (fun s => s.modCell 1 9 (fun c => { c with running := some t0 }))).cell 1 9).running ≠ none) ∧ (evSt.time < (evSt.cell 1 9).wTime + 256) ∧
    (∀ y g, (sDone.edge 1 9 y g).waiting = []) ∧
    (let s := evRun (fun s => s.modCell 1 9 (fun c => { c with done := [{ t0 with staged := [.call 7 ⟨1, 9, 0, 0, 3, 0, 0⟩] }] }))
     (s.cell 1 9).done = [{ t0 with staged := [.call 7 ⟨1, 9, 0, 0, 3, 0, 0⟩] }] ∧ s.storesDone 1 9 = true) ∧
    (let s := (poke evSt (ringBase 1) [1]).modRc 1 (fun r => { r with voids := r.voids.set 0 2 })
     s.place.x < s.ringCount 1 ∧ bit (s.voidMask 1 0) (s.ringSt 1 0).head = false) ∧
    (let s := poke (poke (poke evSt (ringBase 1) [1, 0, 2]) (ringBase 1 + 16) [0, 0x10, 0, 0, 2, 2]) (ringBase 1 + 256) [0, 8]
     let s := s.modRc 1 (fun r => { r with voids := r.voids.set 0 1 })
     bit (s.voidMask 1 0) (s.ringSt 1 0).head = true ∧ Memory.wf s.mem = true ∧ 0 < (s.ringEntry 1 0).2.1 ∧ (s.ringEntry 1 0).2.1 ≤ 64 ∧ (s.ringSt 1 0).free < 255 ∧ s.ringWordAt 1 0 + 16 ≤ spadSize 1) ∧
    ((sGen 0 15 3).HasPort 1 0 0 0 ∧ (((sGen 1 0 0).modCell 1 0 (fun c => { c with running := some t0 })).cell 1 0).running ≠ none) ∧
    (let s := (withEdge evSt (ew 10 0 + 2 ^ 20) []).modIsle 0 (fun i => { i with returns := [{ frame := 7, keep := false, rcd := ⟨1, 9, 0, 0, 3, 0, 0⟩, v := fp 1 }] })
     s.HasEdge 1 9 0 0 ∧ (s.edge 1 9 0 0).sent % ewBurst (s.edgeWord 1 9 0 0) = 0) ∧
    (let s := evRun (fun s => s.countRemote 1 8 1)
     s.remoteOut 1 8 ≠ 0 ∧ (evRun id).remoteOut 1 8 = 0) ∧
    (∀ st ∈ [(1 : Nat), 2], let s := evRun id
      let t := s.release 1 8
      okIn (t.1.atomicAt (t.1.agent 1 8) 1 completionAt 8 1 (s.phaseWord 1 st true) 0 3 (some t.2)) = true) ∧
    (let s := (evRun (fun s => s.modCell 1 9 (fun c => { c with running := some t0 }))).modRc 1 (fun r => { r with aborting := true })
     s.abortDone 1 = false) := by
  unfold State.HasEdge State.HasPort
  dsimp only
  refine ⟨?_, ?_, ?_, ?_, ?_, ?_, ?_, ?_, ?_, ?_, ?_, ?_, ?_, ?_⟩
  case refine_6 =>
    intro y g
    have h : ∀ e ∈ sDone.cores, ∀ c ∈ e.2.cells, ∀ x ∈ c.2.ctxs, ∀ d ∈ x.edges, d.waiting = [] := by decide +kernel
    show (((sDone.cell 1 9).ctxs.getD y {}).edges.getD g {}).waiting = []
    unfold State.cell State.core
    rcases ha : aget sDone.cores 1 with _ | a
    · exact no_waiting (fun c hc => by revert c; decide +kernel) y g
    · simp only [Option.getD_some]
      rcases hb : aget a.cells 9 with _ | b
      · exact no_waiting (fun c hc => by revert c; decide +kernel) y g
      · exact no_waiting (h _ (mem_of_aget ha) _ (mem_of_aget hb)) y g
  all_goals decide +kernel

/-! ## Steps -/

theorem wit_RoundTrip : [Instr.mul 8 4 9 1 0 0, .cMul 0 4 9, .cEnd, .mmaz 7 7 7 0 4 4 1, .rcLd 2 1 0 0, .rcLi 3 5, .evTimerExpiry].all Instr.fits = true ∧
    [(encodeWord (.mul 8 4 9 1 0 0)).1, (encodeWord .cEnd).1, (encodeWord (.mmaz 7 7 7 0 4 4 1)).1, (encodeWord (.rcLd 2 1 0 0)).1, (encodeWord (.rcLi 3 5)).1, (encodeWord .evTimerExpiry).1] =
      [.cell, .compact, .matrix, .rc, .long, .event] := by decide

/-- A turn of each kind, with its running task, program or instance; words that are no instruction; and what has nothing to run. -/
theorem wit_StepRunsDecoded :
    (let s := State.reset.withFetchWord 32 0xC1102124
     let t := { s with agenda := [] }
     s.takeTurn = (.cell 0 0, t) ∧ (t.cell 0 0).running = some { ctx := 0, cls := 0, frame := 0, iter := 0, ops := [], pc := 0, serial := 0, since := 0 } ∧ t.works 0 = true ∧
     decodeCell (Memory.readN t.mem (cfgBase 0 0 0) 4) = .ok (.mul 8 4 9 1 0 0, 2) ∧ (decodeCell (Memory.readN t.mem (cfgBase 0 0 0 + 4) 4)).toOption = some (.cEnd, 1)) ∧
    (let s := State.reset.placeCell [0xFF, 0xFF, 0xFF, 0xFF]
     (decodeCell (Memory.readN s.mem (cfgBase 0 0 0) 4)).toOption = none) ∧
    (let s := State.reset.withFetchWord 64 0x07F0701100810000
     let t := { s with agenda := [] }
     s.takeTurn = (.matrix 1, t) ∧ (t.core 1).matrix.run = some { ctx := 0, slot := 0, frame := 0, iter := 0, cls := 0 } ∧ t.works 1 = true ∧ decodeMatrix (Memory.readNat t.mem (matBase 1 + (0 * 16 + 0) * 8) 8) = .ok (.mmaz 7 7 7 0 4 4 1)) ∧
    (decodeMatrix (Memory.readNat (State.reset.placeSlot (List.replicate 8 0xFF)).mem (matBase 1 + (0 * 16 + 0) * 8) 8)).toOption = none ∧
    (let s := State.reset.withFetchWord 64 (0xE0300000 + 7 * 2 ^ 32)
     let t := { s with agenda := [] }
     s.takeTurn = (.rc 1, t) ∧ t.rcRuns 1 = true ∧ t.inProgram 1 0 = true ∧ t.inProgram 1 4 = true ∧ decodeRcWord (t.rcWordAt 1 0) (t.rcWordAt 1 4) = .ok (.rcLi 3 7) ∧ rcIsLong (t.rcWordAt 1 0) = true ∧
     t.inProgram 1 8 = false ∧ (decodeRcWord 0x3F000000 0).toOption = none ∧ (t.modRc 1 (fun r => { r with progLen := 4 })).inProgram 1 4 = false ∧ State.reset.rcRuns 1 = false) ∧
    ((encodeWord .evTimerExpiry).1 = .event ∧ (encodeWord .cEnd).1 ≠ .event ∧ (State.reset.cell 0 0).running = none ∧ (State.reset.core 1).matrix.run = none) := by
  dsimp only
  refine ⟨?_, ?_, ?_, ?_, ?_, ?_⟩ <;> decide +kernel

theorem wit_MemoryCanonicalKept : ({ State.reset with agenda := [.pass] } : State).Inv ∧ ∃ t, step { State.reset with agenda := [.pass] } = .next t := ⟨rfl, _, rfl⟩

/-! ## Single steps, by hand from the spec -/

/-- What a state's running cell 0 pushed last. -/
def l0After (i : Instr) (s : State) : Reg := match exec i s with | .next t => (t.cell 1 0).l.headD Reg.empty | _ => Reg.empty
/-- Register q of core 1 after an instruction. -/
def qAfter (i : Instr) (q : Nat) (s : State) : W64 := match exec i s with | .next t => (t.rc 1).q.getD q 0 | _ => 0

/-- 1.5 + 2 = 3.5 and 1.5 · 2 = 3 (R162). -/
theorem test_add_fp32 : l0After (.add 8 0 1 0 0 0) sF = fp 0x40600000 := by decide +kernel
theorem test_mul_fp32 : l0After (.mul 8 0 1 0 0 0) sF = fp 0x40400000 := by decide +kernel
/-- An N32 sum wraps; the trapping variant poisons the wrapped value, with the cell's agent id (R160). -/
theorem test_add_wraps : l0After (.add 8 0 1 0 0 0) (cellSt 0 t0 [nr (2 ^ 32 - 1), nr 2]) = nr 1 := by decide +kernel
theorem test_add_trapping : l0After (.add 8 0 1 0 0 1) (cellSt 0 t0 [nr (2 ^ 32 - 1), nr 2]) = { nr 1 with p := true, origin := 64 } := by decide +kernel
/-- Shifts left and arithmetically right (R165). -/
theorem test_shl : l0After (.shl 8 0 1) (cellSt 0 t0 [nr 3, nr 4]) = nr 48 := by decide +kernel
theorem test_sha : l0After (.sha 8 0 1) (cellSt 0 t0 [sr (2 ^ 32 - 8), sr 1]) = sr (2 ^ 32 - 4) := by decide +kernel
/-- The example of R46: lanes 0 to 2 of 0x3F80C000 become BF16 under SR from seed 1. -/
theorem test_cvt_sr : l0After (.cvt 8 0 2 5 0) ((cellSt 0 t0 [lanes .fp32 [0x3F80C000, 0x3F80C000, 0x3F80C000]]).modCtx 1 0 0 (fun c => { c with gen := 1 })) = lanes .bf16 [0x3F80, 0x3F80, 0x3F81] := by decide +kernel
/-- The example of R50: a block of E4M3 whose amax is 300 has xs 0x7F, and 300 becomes 288 (0x79). -/
theorem test_qnt : (let r := l0After (.qnt 8 0 4 0) (cellSt 0 t0 [fp 0x43960000]); (r.fmt, r.xs, laneOf r 0)) = (.e4m3, 0x7F, 0x79) := by decide +kernel
/-- The square root of 2.25 is 1.5, the reciprocal of 0.5 is 2 (R166). -/
theorem test_sqrt : l0After (.sqrt 8 0 0 0) (cellSt 0 t0 [fp 0x40100000]) = fp 0x3FC00000 := by decide +kernel
theorem test_rcp : l0After (.rcp 8 0 0 0) (cellSt 0 t0 [fp 0x3F000000]) = fp 0x40000000 := by decide +kernel
/-- The leading zeros and the ones of 0x00F0 (R165). -/
theorem test_clz : l0After (.clz 8 0) (cellSt 0 t0 [nr 0xF0]) = nr 24 := by decide +kernel
theorem test_popc : l0After (.popc 8 0) (cellSt 0 t0 [nr 0xF0]) = nr 4 := by decide +kernel
/-- Lane 5 in every lane (R172). -/
theorem test_bcast : l0After (.bcast 8 0 5) (cellSt 0 t0 [fullReg .n32 id]) = nr 5 := by decide +kernel
/-- END: the task no longer runs. -/
theorem test_end : (match exec .cEnd sI with | .next t => decide ((t.cell 1 0).running = none) | _ => false) = true := by decide +kernel
/-- A subtraction that wraps, a negative immediate, q0 that stays 0, a branch taken 2 words back, a sign-extended immediate. -/
theorem test_rc_sub : qAfter (.rcSub 3 1 2) 3 (rcSt [2, 5] id) = 2 ^ 64 - 3 := by decide +kernel
theorem test_rc_addi : qAfter (.rcAddi 3 1 32767) 3 (rcSt [5] id) = 4 := by decide +kernel
theorem test_rc_q0 : qAfter (.rcAdd 0 1 2) 0 (rcSt [2, 5] id) = 0 := by decide +kernel
theorem test_rc_beq : (match exec (.rcBeq 1 2 32766) (rcSt [5, 5] (fun r => { r with pc := 64 })) with | .next t => (t.rc 1).pc | _ => 0) = 56 := by decide +kernel
theorem test_rc_li : qAfter (.rcLi 3 0x80000000) 3 (rcSt [] id) = 0xFFFFFFFF80000000 := by decide +kernel
/-- LD.b4 reads its bytes least significant first and zero-extends them (R81, R242). -/
theorem test_rc_ld : qAfter (.rcLd 3 1 1 0) 3 (kernelOf (poke (rcSt [64] id) (spadBase 1 + 64) [0x78, 0x56, 0x34, 0x92])) = 0x92345678 := by decide +kernel
/-- The block of R212's example: 256 · 256 + 2^-6 · 2^-6 rounds to 65536, and less 256 · 256 to +0. -/
theorem test_blocks : (let v (n : Bool) (e : Int) : Val := .fin n 1 e
     let d := (({} : Dot).add (v false 8) (v false 8)).add (v false (-6)) (v false (-6))
     let c := accumulate 0 (d.value 127 127 true)
     (c.1, (accumulate c.1 ((({} : Dot).add (v true 8) (v false 8)).value 127 127 true)).1)) = (0x47800000, 0) := by decide +kernel
/-- A cycle counts the timer down; its last sets event bit 5 (R238, R249). -/
theorem test_pass : (match step { rcSt [] (fun r => { r with timer := 1 }) with agenda := [.pass] } with | .next t => (t.time, (t.rc 1).timer, (t.rc 1).ev) | _ => (0, 0, 0)) = (1, 0, 32) := by decide +kernel

end Sys2Proof.Tests
end

section
/-! Cell instructions: results of the two-source arithmetic (R15, R160, R162, R176), and operand format mismatches (R13, R22, R158, R177, R302). -/

namespace Sys2Proof.Machine

/-! ## The checks of R158, each with what a meaning does after it -/

section Checks

variable {β : Type} {p q : Fmt → Bool} {u v : Reg}

theorem need_accepted (hp : p u.fmt = true) (k : Unit → Except Nat β) : need p u >>= k = k () := by simp [need, hp, bind, Except.bind]

theorem need_refused (hp : p u.fmt = false) (k : Unit → Except Nat β) : need p u >>= k = .error 0x00B := by simp [need, hp, bind, Except.bind]

theorem sameTag_accepted (ht : u.fmt = v.fmt) (k : Unit → Except Nat β) : sameTag u v >>= k = k () := by simp [sameTag, ht, bind, Except.bind]

theorem sameTag_refused (ht : u.fmt ≠ v.fmt) (k : Unit → Except Nat β) : sameTag u v >>= k = .error 0x00B := by
  simp [sameTag, ht, bind, Except.bind]

theorem recCheck_refused {w : Option Nat} (hu : u.fmt ≠ .rcd) (k : Bool → Except Nat β) : recCheck w u >>= k = .error 0x00B := by
  simp [recCheck, hu, bind, Except.bind]

/-- Two sources, each with a class of its own. -/
theorem need_need_refused (hpq : p u.fmt = false ∨ q v.fmt = false) (k : Unit → Except Nat β) :
    (do need p u; need q v >>= k) = .error 0x00B := by
  cases hu : p u.fmt
  · exact need_refused hu _
  · rw [need_accepted hu]
    exact need_refused (by simpa [hu] using hpq) k

/-- Two sources of one tag and one class. -/
theorem sameClass_accepted (hu : p u.fmt = true) (hv : v.fmt = u.fmt) (k : Unit → Except Nat β) :
    (do need p u; need p v; sameTag u v >>= k) = k () := by
  rw [need_accepted hu, need_accepted (hv ▸ hu), sameTag_accepted hv.symm]

theorem sameClass_refused (h : u.fmt ≠ v.fmt ∨ p u.fmt = false) (k : Unit → Except Nat β) :
    (do need p u; need p v; sameTag u v >>= k) = .error 0x00B := by
  cases hu : p u.fmt
  · exact need_refused hu _
  · cases hv : p v.fmt
    · exact need_need_refused (.inr hv) _
    · rw [need_accepted hu, need_accepted hv]
      exact sameTag_refused (by simpa [hu] using h) k

end Checks

/-! ## Two-source arithmetic -/

/-- A row completes when its instruction accepts the sources that it reads and its meaning makes of them the lane frame of the row. -/
theorem LaneRow.completes_of_sources {w : LaneRow} {s : State} {e : Env} (h : s.Runs e) {rs : List Reg} (hs : s.sources e w.srcs = rs)
    (hn : ∀ q ∈ rs, q.fmt ≠ .none) {f : Env → List Reg → Except Nat Reg} (hx : exec w.instr s = s.compute w.len w.d w.rm w.srcs f)
    (hf : f e rs = .ok (laneFrame e.agent rs w.fmt w.xs (fun i => w.lane (e.rnd i) i))) : w.Completes s e := by
  subst hs
  exact LaneRow.complete h hx hn hf rfl

/-- The lane function of MIN and MAX (R162), as the statement spells it: a NaN gives the canonical NaN, −0 lies below +0. -/
def pickAt (greater : Bool) (u v : Reg) (i : Nat) : Nat × Bool :=
  byTag u.fmt
    (if isNan (fAt u i) || isNan (fAt v i) then canonNaN u.fmt
     else if (if greater then ltVal true (fAt u i) (fAt v i) else ltVal true (fAt v i) (fAt u i)) then elemOf v i else elemOf u i, false)
    (if (if greater then iAt u i < iAt v i else iAt v i < iAt u i) then elemOf v i else elemOf u i, false)

section Accepted

variable {u v : Reg} (hu : isFI u.fmt = true) (hv : v.fmt = u.fmt) (e : Env)
include hu hv

theorem arith2_ok (fop : Val → Val → Ex) (iop : Int → Int → Int) (rm n x : Nat) : arith2 fop iop rm n x e [u, v] =
    .ok (laneFrame e.agent [u, v] u.fmt 0 (fun i =>
      byTag u.fmt (rounded u.fmt rm n (e.rnd i) (fop (fAt u i) (fAt v i))) (wrapped u.fmt x (iop (iAt u i) (iAt v i))))) := by
  refine (sameClass_accepted hu hv _).trans ?_
  unfold fAt iAt
  rw [hv]
  rfl

/-- R162: an integer divided by zero is 0 and exceptional. -/
theorem divSem_ok (rm n : Nat) : divSem rm n e [u, v] =
    .ok (laneFrame e.agent [u, v] u.fmt 0 (fun i =>
      byTag u.fmt (rounded u.fmt rm n (e.rnd i) (divEx (fAt u i) (fAt v i)))
        (if iAt v i = 0 then (0, true) else wrapped u.fmt 0 ((iAt u i).tdiv (iAt v i))))) := by
  refine (sameClass_accepted hu hv _).trans ?_
  unfold fAt iAt
  rw [hv]
  rfl

omit hu in
theorem pickLane_eq_pickAt (greater : Bool) (i : Nat) : (pickLane greater u.fmt (elemOf u i) (elemOf v i), false) = pickAt greater u v i := by
  unfold pickLane pickAt byTag fAt iAt
  rw [hv]
  cases greater <;> cases isF u.fmt <;> simp

theorem minMaxSem_ok (greater : Bool) : minMaxSem greater e [u, v] = .ok (laneFrame e.agent [u, v] u.fmt 0 (pickAt greater u v)) := by
  rw [← funext (pickLane_eq_pickAt hv greater)]
  exact sameClass_accepted hu hv _

end Accepted

/-- Settles O1: each instruction computes the lane frame of the exact result, and the write of a result leaves the rest. -/
theorem cellArithmetic : Obligations.CellArithmetic := by
  unfold Obligations.CellArithmetic
  intro s e d a b r n x u v h hs hu hv two pick
  have hn : ∀ q ∈ [u, v], q.fmt ≠ .none := by simp [hv, ne_none_of_FI hu]
  have arith (i : Instr) {rm n x len d : Nat} {fop : Val → Val → Ex} {iop : Int → Int → Int}
      (hx : exec i s = s.compute len d rm [a, b] (arith2 fop iop rm n x)) : (two i rm n x len d fop iop).Completes s e :=
    LaneRow.completes_of_sources h hs hn hx (arith2_ok hu hv e fop iop rm n x)
  have picked (i : Instr) {len d : Nat} {greater : Bool} (hx : exec i s = s.compute len d 0 [a, b] (minMaxSem greater)) :
      (pick i len d greater).Completes s e :=
    LaneRow.completes_of_sources h hs hn hx (minMaxSem_ok hu hv e greater)
  simp only [List.forall_mem_cons]
  exact ⟨arith (.add d a b r n x) rfl, arith (.sub d a b r n x) rfl, arith (.mul d a b r n x) rfl,
    arith (.cAdd d a b) rfl, arith (.cSub d a b) rfl, arith (.cMul d a b) rfl,
    LaneRow.completes_of_sources h hs hn rfl (divSem_ok hu hv e r n),
    picked (.min d a b) rfl, picked (.max d a b) rfl, picked (.cMin d a b) rfl, picked (.cMax d a b) rfl, nofun⟩

/-! ## Operand format mismatches -/

/-- An instruction that ends its task with an operand format mismatch. -/
def State.Mismatches (s : State) (e : Env) (i : Instr) : Prop := ∃ q, exec i s = .next q ∧ Faulted s q e 0 0x00B

/-- The outcomes of an instruction that reads the sources cs before anything else: a result of them, an effect of them, or FILT. -/
inductive State.Reading (s : State) : List Nat → Out → Prop
  | compute (len d rm : Nat) (cs : List Nat) (f : Env → List Reg → Except Nat Reg) : s.Reading cs (s.compute len d rm cs f)
  | flow (len : Nat) (cs : List Nat) (f : Env → List Reg → Except Nat State) : s.Reading cs (.next (s.flow len cs f))
  | filter (d a b x : Nat) : s.Reading [a, b] (.next (s.filter d a b x))

/-- FILT faults on a source of tag NONE. -/
theorem State.filter_faults {s : State} {e : Env} (h : s.Runs e) {a b : Nat} (hr : s.readAll e [a, b] = .error 0x00B) (d x : Nat) :
    Faulted s (s.filter d a b x) e 0 0x00B := by
  unfold State.filter
  rw [h.withTask, hr]
  exact State.taskFault_faulted h 0 0x00B rfl

section Refused

variable {s : State} {e : Env} (h : s.Runs e) {cs : List Nat} {rs : List Reg} (hs : s.sources e cs = rs)
include h hs

/-- An instruction that reads a source of tag NONE mismatches (R22). -/
theorem State.Reading.mismatches {i : Instr} (hi : s.Reading cs (exec i s)) (hn : ∃ q ∈ rs, q.fmt = .none) : s.Mismatches e i := by
  obtain ⟨q, hq, hf⟩ := hn
  have hr : s.readAll e cs = .error 0x00B := State.readAll_none (hs ▸ hq) hf
  unfold State.Mismatches
  generalize exec i s = o at hi
  cases hi with
  | compute len d rm _ f => exact State.compute_faults h (by rw [hr]; rfl) rfl
  | flow len _ f => exact State.flow_faults h (by rw [hr]; rfl) rfl
  | filter d a b x => exact ⟨_, rfl, State.filter_faults h hr d x⟩

/-- An instruction whose meaning refuses the tags of its sources mismatches (R158). -/
theorem State.mismatches_of_refused {i : Instr} {len d rm : Nat} {f : Env → List Reg → Except Nat Reg} (hx : exec i s = s.compute len d rm cs f)
    (hf : f e rs = .error 0x00B) : s.Mismatches e i := by
  subst hs
  unfold State.Mismatches
  rw [hx]
  exact State.compute_faults h (State.bind_mismatch hf) rfl

end Refused

/-- Settles O18: a source of tag NONE stops every instruction that reads it; a tag that is not accepted stops it at the head of its meaning. -/
theorem cellMismatch : Obligations.CellMismatch := by
  unfold Obligations.CellMismatch
  intro s e d a b c f r n x k t E u v h fails
  refine ⟨fun hs => ⟨?nonePair, ?arithPair, ?bitsPair, ?shiftPair, ?cpsgnPair, ?mergePair, ?recordPair⟩, fun hs => ⟨?noneOne, ?arithOne, ?bitsOne, ?floatOne, ?dqnOne, ?recordOne, ?cmprOne⟩⟩
  case nonePair =>
    intro hn i hi
    refine State.Reading.mismatches h hs ?_ (by simpa using hn)
    fin_cases hi <;> constructor
  case arithPair =>
    intro ht i hi
    fin_cases hi <;> exact State.mismatches_of_refused h hs rfl (sameClass_refused ht _)
  case bitsPair =>
    intro ht i hi
    fin_cases hi <;> exact State.mismatches_of_refused h hs rfl (sameClass_refused ht _)
  case shiftPair =>
    intro ht i hi
    fin_cases hi <;> exact State.mismatches_of_refused h hs rfl (need_need_refused ht _)
  case cpsgnPair => exact fun ht => State.mismatches_of_refused h hs rfl (sameClass_refused ht _)
  case mergePair => exact fun ht => State.mismatches_of_refused h hs rfl (sameTag_refused ht _)
  case recordPair =>
    intro ht i hi
    fin_cases hi <;> exact State.mismatches_of_refused h hs rfl (recCheck_refused ht _)
  case noneOne =>
    intro hn i hi
    refine State.Reading.mismatches h hs ?_ (by simpa using hn)
    fin_cases hi <;> constructor
  case arithOne =>
    intro ht i hi
    fin_cases hi <;> exact State.mismatches_of_refused h hs rfl (need_refused ht _)
  case bitsOne =>
    intro ht i hi
    fin_cases hi <;> exact State.mismatches_of_refused h hs rfl (need_refused ht _)
  case floatOne =>
    intro ht i hi
    fin_cases hi <;> exact State.mismatches_of_refused h hs rfl (need_refused ht _)
  case dqnOne => exact fun ht => State.mismatches_of_refused h hs rfl (need_refused ht _)
  case recordOne =>
    intro ht i hi
    fin_cases hi <;> exact State.mismatches_of_refused h hs rfl (recCheck_refused ht _)
  case cmprOne => exact fun ht => State.mismatches_of_refused h hs rfl (need_refused (p := (· == .bf16)) (by simpa using ht) _)

end Sys2Proof.Machine
end

section
/-! Token events: a token reaches its port, leaves the package or finds no route; a port takes its EOS, markers and frontiers; a context's EOS leaves
(R31, R32, R35, R66, R79, R124, R151, R182, R258, R365). -/

namespace Sys2Proof.Machine

/-! ## What the updates of ports and edges leave of contexts -/

/-- An update of a context keeps what its function keeps, of that context and of every other. -/
theorem State.ctx_modCtx_keeps {γ : Type} {P : Ctx → γ} {f : Ctx → Ctx} (hf : ∀ c, P (f c) = P c) (s : State) (k l x i j y : Nat) :
    P ((s.modCtx k l x f).ctx i j y) = P (s.ctx i j y) := by
  unfold State.ctx
  rw [State.cell_modCtx]
  split
  case isFalse => rfl
  case isTrue hij =>
    obtain ⟨rfl, rfl⟩ := hij
    show P (((s.cell i j).ctxs.modify x f).getD y {}) = P ((s.cell i j).ctxs.getD y {})
    rw [getD_modify]
    split
    case isFalse => rfl
    case isTrue hy =>
      subst hy
      split
      · exact hf _
      · rw [List.getD_eq_default _ _ (by omega)]

/-! The updates of a cell's edges keep what of its contexts lies outside the edges. -/
section OutsideEdges

variable {γ : Type} {P : Ctx → γ} (hP : ∀ c es, P { c with edges := es } = P c) {l : Nat} (hl : l < 32)
include hP hl

theorem State.ctx_modEdge_keeps (s : State) (k x e : Nat) (f : Edge → Edge) (y : Nat) : P ((s.modEdge k l x e f).ctx k l y) = P (s.ctx k l y) := by
  unfold State.modEdge
  rw [if_pos hl]
  exact State.ctx_modCtx_keeps (fun c => hP c _) ..

theorem State.ctx_enterChecked_keeps (s : State) (k x e : Nat) (t : Token) (y : Nat) : P ((s.enterChecked k l x e t).ctx k l y) = P (s.ctx k l y) := by
  unfold State.enterChecked
  split
  · rfl
  · exact State.ctx_modEdge_keeps hP hl ..

theorem State.ctx_enterWaiting_keeps (k x e n : Nat) (s : State) (y : Nat) : P ((s.enterWaiting k l x e n).ctx k l y) = P (s.ctx k l y) := by
  induction n generalizing s with
  | zero => rfl
  | succ n ih =>
    unfold State.enterWaiting
    split
    · rfl
    · split
      · rfl
      · rw [ih, State.ctx_enterChecked_keeps hP hl, State.ctx_modEdge_keeps hP hl]

theorem State.ctx_enterAll_keeps (s : State) (k y : Nat) : P ((s.enterAll k l).ctx k l y) = P (s.ctx k l y) :=
  foldl_keeps (fun s : State => P (s.ctx k l y)) _ (fun s _ => State.ctx_enterWaiting_keeps hP hl _ _ _ _ s y) _ s

/-- An EOS empties the coalescing buffer as well. -/
theorem State.ctx_enterEos_keeps (hC : ∀ c b, P { c with coal := b } = P c) (s : State) (k x e : Nat) (t : Token) (y : Nat) :
    P ((s.enterEos k l x e t).ctx k l y) = P (s.ctx k l y) := by
  unfold State.enterEos
  dsimp only
  rw [State.ctx_enterWaiting_keeps hP hl, State.ctx_modEdge_keeps hP hl]
  split
  · exact State.ctx_modCtx_keeps (fun c => hC c _) ..
  · rfl

end OutsideEdges

section Cells

variable {l : Nat} (hl : l < 32)
include hl

theorem State.port_enterAll (s : State) (k x p : Nat) : (s.enterAll k l).port k l x p = s.port k l x p := by
  unfold State.port
  rw [if_pos hl, if_pos hl]
  exact State.ctx_enterAll_keeps (P := fun c => c.ports.getD p {}) (fun _ _ => rfl) hl s k x

/-- Frontier registers and histories are outside the cells. -/
theorem State.port_setFrontier (s : State) (lead fn : Nat) (f : List Time) (i : W16) (k x p : Nat) :
    (s.setFrontier lead fn f i).port k l x p = s.port k l x p := by
  unfold State.port State.ctx
  rw [if_pos hl, if_pos hl, cell_setFrontier]

theorem State.edge_modPort (s : State) (k x p : Nat) (f : Port → Port) (y e : Nat) : (s.modPort k l x p f).edge k l y e = s.edge k l y e := by
  unfold State.edge State.modPort
  rw [if_pos hl, if_pos hl, if_pos hl]
  exact State.ctx_modCtx_keeps (P := fun c => c.edges.getD e {}) (by intro c; rfl) ..

theorem State.slot_popPort (s : State) (k x p y : Nat) : ((s.popPort k l x p).ctx k l y).slot = (s.ctx k l y).slot := by
  unfold State.popPort State.modPort
  rw [if_pos hl]
  exact State.ctx_modCtx_keeps (P := Ctx.slot) (by intro c; rfl) ..

/-- At a port that is no record input an EOS leaves the edges. -/
theorem State.edge_takeEos {s : State} {k x p : Nat} (hr : pwRec (s.portWord k l x p) = false) (t : PortTok) (y e : Nat) :
    (s.takeEos k l x p t).edge k l y e = s.edge k l y e := by
  unfold State.takeEos
  simp only [hr, Bool.and_false, Bool.false_eq_true, if_false]
  rw [State.edge_modPort hl, State.popPort, State.edge_modPort hl]

end Cells

theorem State.enterAll_of_nothing_waits {s : State} {k l : Nat} (hw : ∀ y e, (s.edge k l y e).waiting = []) : s.enterAll k l = s := by
  unfold State.enterAll
  generalize List.range 32 = ns
  induction ns with
  | nil => rfl
  | cons n ns ih =>
    rw [List.foldl_cons, hw]
    exact ih

/-- A token that has left a port leaves no mark on a later record. -/
theorem State.faultRecord_popPort (s : State) (k l x p sev kind i j c a d tag : Nat) :
    (s.popPort k l x p).faultRecord sev kind i j c a d tag = s.faultRecord sev kind i j c a d tag := by
  rw [popPort_rest]
  rfl

theorem State.faultRecord_modEdge (s : State) (k l x e : Nat) (f : Edge → Edge) (sev kind i j c a d tag : Nat) :
    (s.modEdge k l x e f).faultRecord sev kind i j c a d tag = s.faultRecord sev kind i j c a d tag := by
  rw [State.modEdge_rest]
  rfl

/-- An event of a cell or engine happens where its region works. -/
theorem State.atPlace_of_works {s : State} (hw : s.works s.place.core = true) (f : State → Nat → Nat → Nat → Nat → State) :
    s.atPlace f = .next (f s s.place.core s.place.cell s.place.ctx s.place.port) := congrArg Host.Outcome.next (if_pos hw)

/-! ## The head of an edge -/

section HeadOfEdge

variable {s : State} {k l x e : Nat} {t : Token} {r : List Token} (hf : (s.edge k l x e).flight = t :: r)
include hf

theorem State.landing_of_flight : s.landing k l x e = some (t, s.modEdge k l x e (fun g => { g with flight := r })) := by
  unfold State.landing
  rw [hf]

/-- R35: it arrives at its port. -/
theorem State.arrive_reaches (hr : t.route = 0) (hd : (destOf (s.edgeWord k l x e)).loc < 36) (ht : s.takesFrom k (destOf (s.edgeWord k l x e)) = true) :
    s.arrive k l x e t.kind = (s.modEdge k l x e (fun g => { g with flight := r })).reach (destOf (s.edgeWord k l x e)) (edgeKey k l x e) t [] := by
  unfold State.arrive
  rw [State.landing_of_flight hf]
  dsimp only
  rw [if_neg (not_not.2 rfl), if_neg (not_not.2 hr), if_neg (by simp [ht, hd])]

/-- R365: it leaves for the package of its route tag. -/
theorem State.arrive_leaves (hr : t.route ≠ 0) (he : (s.routeEntry (s.partAt k) t.route).isSome = true) :
    s.arrive k l x e t.kind = ((s.modEdge k l x e (fun g => { g with flight := r })).modEdge k l x e (fun g => { g with away := g.away + 1 })).leave
      (s.partAt k) t.route (80 + ewVc (s.edgeWord k l x e)) (.token (ewDest (s.edgeWord k l x e)) (ewDport (s.edgeWord k l x e)) t) := by
  unfold State.arrive
  rw [State.landing_of_flight hf]
  dsimp only
  rw [if_neg (not_not.2 rfl), if_pos hr, if_neg (by simpa [Option.isSome_iff_ne_none] using he)]

/-- R365: without a route its issuer's region ends, with one record. -/
theorem State.arrive_posts_noRoute (hr : t.route ≠ 0) (he : s.routeEntry (s.partAt k) t.route = none) :
    (s.arrive k l x e t.kind).posts = s.posts ++ [s.faultRecord 2 0 k l 0x139 0 0 (tagWord t.iter t.frame t.cfg t.cls)] := by
  unfold State.arrive
  rw [State.landing_of_flight hf]
  dsimp only
  rw [if_neg (not_not.2 rfl), if_pos hr, if_pos (by simp [he])]
  unfold State.noRoute
  rw [State.engineFault_posts, State.faultRecord_modEdge, State.modEdge_rest]

/-- R258: it enters the extract FIFO of an RC. -/
theorem State.extractArrive_takes (hr : t.route = 0) (hd : (destOf (s.edgeWord k l x e)).loc = 48) (hk : t.kind ≠ .notice)
    (hn : (s.rc (destOf (s.edgeWord k l x e)).core).extract.length < 16) :
    s.extractArrive k l x e = (s.modEdge k l x e (fun g => { g with flight := r })).modRc (destOf (s.edgeWord k l x e)).core
      (fun c => { c with extract := c.extract ++ [(edgeKey k l x e, t)] }) := by
  unfold State.extractArrive
  rw [State.landing_of_flight hf]
  exact if_neg (by simp [hr, hd, hk, extractSize, hn])

end HeadOfEdge

theorem State.edge_modRc {l : Nat} (hl : l < 32) (s : State) (j : Nat) (f : Rc → Rc) (k x e : Nat) : (s.modRc j f).edge k l x e = s.edge k l x e := by
  unfold State.edge State.ctx
  rw [if_pos hl, if_pos hl, State.cell_modRc]

/-! ## The head of a port -/

section HeadOfPort

variable {s : State} {k l x p : Nat} {h : PortTok} {hs : List PortTok} (hf : s.fifoAt k l x p = h :: hs) (hc : s.portClear k l x p = true)
include hf hc

theorem State.portHead_of_fifo (hk : h.tok.kind ≠ .data) : s.portHead k l x p = some h := by
  unfold State.fifoAt at hf
  unfold State.portHead
  rw [hf]
  exact if_pos ⟨hk, hc⟩

/-- R66: a sink port takes an EOS, and the last of its own counts for the context. -/
theorem State.sinkEos_takes (hk : h.tok.kind = .eos) (he : pwEos (s.portWord k l x p) = 3) (hr : pwRec (s.portWord k l x p) = false) :
    s.sinkEos k l x p = (s.takeEos k l x p h).modCtx k l x
      (fun c => if ((s.port k l x p).eosN + 1) % max 1 (pwEosn (s.portWord k l x p)) == 0 then { c with sink := c.sink + 1 } else c) := by
  unfold State.sinkEos
  rw [State.portHead_of_fifo hf hc (by simp [hk])]
  exact if_pos ⟨hk, he, by simp [hr]⟩

/-- R66: a fwd port takes an EOS; what waits at the cell's edges and the context's own EOS follow. -/
theorem State.eosForward_takes (hk : h.tok.kind = .eos) (he : pwEos (s.portWord k l x p) = 0) (hr : pwRec (s.portWord k l x p) = false) :
    s.eosForward k l x p = ((s.takeEos k l x p h).enterAll k l).forwardEos k l x := by
  unfold State.eosForward
  rw [State.portHead_of_fifo hf hc (by simp [hk])]
  dsimp only
  rw [if_pos ⟨hk, he, by simp [hr]⟩]

section Mark

variable (hk : h.tok.kind = .mark)
include hk

/-- R182: a marker enters the slot. -/
theorem State.takeMark_fills (hd : s.drains k h.tok = false) (h0 : h.tok.cls ≠ 0) (h2 : ¬(h.tok.cls = 2 ∧ pwRec (s.portWord k l x p) = true)) :
    s.takeMark k l x p = (s.popPort k l x p).fillSlot k l x h.tok := by
  unfold State.takeMark
  rw [State.portHead_of_fifo hf hc (by simp [hk])]
  dsimp only
  rw [if_neg (not_not.2 hk), hd, if_neg Bool.false_ne_true, if_neg h0, if_neg h2]

/-- R322: a marker of a drain that the cell has not passed on stays. -/
theorem State.takeMark_stays (hd : s.drains k h.tok = true) (hp : (s.cell k l).passed = false) : s.takeMark k l x p = s := by
  unfold State.takeMark
  rw [State.portHead_of_fifo hf hc (by simp [hk])]
  dsimp only
  rw [if_neg (not_not.2 hk), if_pos hd, hp, if_neg Bool.false_ne_true]

/-! R124: a FRONTIER marker at a record input: malformed, ahead of its register, or an advance. -/

variable (h2 : h.tok.cls = 2) (hr : pwRec (s.portWord k l x p) = true) (hh : s.histsClear k l = true)
include h2 hr hh

theorem State.takeFrontier_malformed (hn : frontOf h.tok.reg = none) :
    s.takeFrontier k l x p = (s.popPort k l x p).infoFault k l 0 0x023 0 (tagWord h.tok.iter h.tok.frame x h.tok.cls) := by
  unfold State.takeFrontier
  simp [State.portHead_of_fifo hf hc, hk, h2, hr, hh, hn]

theorem State.takeFrontier_ahead {f : List Time} (hf' : frontOf h.tok.reg = some f) (hn : notAhead ((s.rc (s.leadOf k)).fns.getD (pwFn (s.portWord k l x p)) []) f = false) :
    s.takeFrontier k l x p = (s.popPort k l x p).infoFault k l 0 0x025 0 (tagWord h.tok.iter h.tok.frame x h.tok.cls) := by
  unfold State.takeFrontier
  simp [State.portHead_of_fifo hf hc, hk, h2, hr, hh, hf', hn, -List.getD_eq_getElem?_getD]

theorem State.takeFrontier_advances {f : List Time} (hf' : frontOf h.tok.reg = some f) (hn : notAhead ((s.rc (s.leadOf k)).fns.getD (pwFn (s.portWord k l x p)) []) f = true) :
    s.takeFrontier k l x p = ((s.popPort k l x p).setFrontier (s.leadOf k) (pwFn (s.portWord k l x p)) f h.tok.iter).fillSlot k l x h.tok := by
  unfold State.takeFrontier
  simp [State.portHead_of_fifo hf hc, hk, h2, hr, hh, hf', hn, -List.getD_eq_getElem?_getD]

end Mark

end HeadOfPort

/-! ## What is left once a port's head is gone -/

theorem State.rc_popPort (s : State) (k l x p j : Nat) : (s.popPort k l x p).rc j = s.rc j := SameRc.modPort s k l x p _ j

theorem State.infoFault_popPort_posts (s : State) (k l x p c tag : Nat) :
    ((s.popPort k l x p).infoFault k l 0 c 0 tag).posts = s.posts ++ [s.faultRecord 0 0 k l c 0 0 tag] := by
  unfold State.infoFault
  rw [State.postFault_posts, State.faultRecord_popPort, popPort_rest]

section Popped

variable {s : State} {k l x p : Nat} (hp : s.HasPort k l x p)
include hp

theorem State.HasPort.setFrontier (lead fn : Nat) (f : List Time) (i : W16) : (s.setFrontier lead fn f i).HasPort k l x p :=
  hp.of_ctx (by rw [cell_setFrontier]) (by unfold State.ctx; rw [cell_setFrontier])

theorem State.HasPort.popPort : (s.popPort k l x p).HasPort k l x p := hp.modPort _ _ hp.2.2

/-- A marker that fills the slot as it leaves its port replaces what the slot held before. -/
theorem State.fillSlot_popPort_posts (t : Token) : ((s.popPort k l x p).fillSlot k l x t).posts = (s.fillSlot k l x t).posts := by
  obtain ⟨-, -, -, hu⟩ := fillSlot_spec hp.popPort.2.1 t
  obtain ⟨-, -, -, hv⟩ := fillSlot_spec hp.2.1 t
  rw [hu, hv, State.slot_popPort hp.1, popPort_rest]
  rfl

end Popped

/-! ## The EOS of a context -/

/-- R66: once all its fwd ports have their EOS and nothing that came before is left, a context's EOS leaves on each of its configured edges. -/
theorem State.forwardEos_enters {v : State} {k l x : Nat} (hl : l < 32) (hps : v.fwdPorts k l x ≠ []) (hfwd : (v.ctx k l x).fwd = false)
    (heos : ∀ p ∈ v.fwdPorts k l x, (v.port k l x p).eos = true)
    (hb : (v.cell k l).before x (((v.fwdPorts k l x).map (fun p => (v.port k l x p).eosArr)).foldl max 0) = false) :
    v.forwardEos k l x = ((List.range 8).filter (fun e => ewEn (v.edgeWord k l x e))).foldl (fun s e => s.enterEos k l x e v.freeEos.1)
      (v.freeEos.2.modCtx k l x (fun c => { c with fwd := true })) := by
  have hport : ∀ p, (v.ctx k l x).ports.getD p {} = v.port k l x p := fun p => (if_pos hl).symm
  unfold State.forwardEos
  simp only [hport]
  exact if_neg (by simpa [hps, hfwd, hb] using heos)

theorem State.forwardEos_sends {v : State} {k l x : Nat} (hl : l < 32) (hx : x < (v.cell k l).ctxs.length) (hps : v.fwdPorts k l x ≠ [])
    (hfwd : (v.ctx k l x).fwd = false) (heos : ∀ p ∈ v.fwdPorts k l x, (v.port k l x p).eos = true)
    (hb : (v.cell k l).before x (((v.fwdPorts k l x).map (fun p => (v.port k l x p).eosArr)).foldl max 0) = false)
    (hc : (v.ctx k l x).coal.elems = []) (hw : ∀ e, (v.edge k l x e).waiting = []) :
    ((v.forwardEos k l x).ctx k l x).fwd = true ∧ ∀ e, e < 8 → e < (v.ctx k l x).edges.length → ewEn (v.edgeWord k l x e) = true →
      SentOn v (v.forwardEos k l x) k l x e v.freeEos.1 := by
  rw [State.forwardEos_enters hl hps hfwd heos hb]
  set v1 := v.freeEos.2.modCtx k l x (fun c => { c with fwd := true }) with hv1
  have hctx : v1.ctx k l x = { v.ctx k l x with fwd := true } := by
    rw [hv1, State.ctx_modCtx v.freeEos.2 _ _ _ _ _ _ _ hx, if_pos ⟨rfl, rfl, rfl⟩]
    rfl
  have hedge : ∀ e, v1.edge k l x e = v.edge k l x e := fun e => by
    unfold State.edge
    rw [if_pos hl, if_pos hl, hctx]
  refine ⟨?_, fun e h8 he hen => ?_⟩
  · rw [foldl_keeps (fun s : State => (s.ctx k l x).fwd) _ (fun s e => State.ctx_enterEos_keeps (fun _ _ => rfl) hl (fun _ _ => rfl) s k x e _ x), hctx]
  · obtain ⟨-, hsent⟩ := fold_enter (k := k) (x := x) (e := e) v.freeEos.1 hl (by simp [State.freeEos, eosToken])
      ((List.range 8).filter (fun e => ewEn (v.edgeWord k l x e))) v1 (List.nodup_range.filter _)
      (by rw [hv1, State.ctxs_length]; exact hx) (by rw [hctx]; exact he) (by rw [hctx]; exact hc)
      (fun a => by rw [hctx]; simpa [State.edge, hl] using hw a)
    rw [if_pos (by simp [h8, hen])] at hsent
    unfold SentOn at hsent ⊢
    rwa [hedge, mem_edgeWord (show v1.mem = v.mem from rfl)] at hsent

/-! ## The events -/

/-- Settles O51: each event runs its operation at the place of its turn, and the operation's lemmas say what it leaves. -/
theorem tokenEvents : Obligations.TokenEvents := by
  unfold Obligations.TokenEvents
  intro s t r h hs k l x e d left w lead tag
  refine ⟨fun v d key t hp => reach_spec v d key t hp, fun hw hf => ⟨fun i hi hk => ?arrival, ?extract⟩, fun hw hp hf hc => ?port,
    fun v hl hx hps hfwd heos hb hcoal hwait => State.forwardEos_sends hl hx hps hfwd heos hb hcoal hwait⟩
  case arrival =>
    have hx : exec i.1 s = .next (s.arrive k l x e t.kind) := by
      rw [hk]
      fin_cases hi <;> exact State.atPlace_of_works hw (fun s k l x e => s.arrive k l x e _)
    rw [hx]
    exact ⟨fun hr hd ht => congrArg _ (State.arrive_reaches hf hr hd ht), fun hr he => congrArg _ (State.arrive_leaves hf hr he),
      fun hr he => ⟨_, rfl, State.arrive_posts_noRoute hf hr he⟩⟩
  case extract =>
    intro hr hd hk hn he
    refine ⟨_, State.atPlace_of_works hw _, ?_⟩
    rw [State.extractArrive_takes hf hr hd hk hn, State.rc_modRc, if_pos rfl, SameRc.modEdge, State.edge_modRc he.1, State.edge_modEdge he, if_pos rfl]
    exact ⟨rfl, rfl⟩
  intro last
  refine ⟨?sink, ?forward, ?fills, ?stays, ?frontier⟩
  case sink =>
    intro hk heos hr
    obtain ⟨hposts, hfifo, hn, -, hpu, hsink, -⟩ := takeEos_spec hp h hr
    refine ⟨_, State.atPlace_of_works hw _, ?_⟩
    rw [State.sinkEos_takes hf hc hk heos hr]
    refine ⟨hposts, ?_, ?_, ?_⟩
    · unfold State.fifoAt
      rw [modCtx_port _ _ _ _ _ (fun c => by split <;> rfl) hpu]
      exact hfifo.trans (by rw [hf]; rfl)
    · rw [modCtx_port _ _ _ _ _ (fun c => by split <;> rfl) hpu, hn]
    · rw [State.ctx_modCtx _ _ _ _ _ _ _ _ hpu.2.1, if_pos ⟨rfl, rfl, rfl⟩, ← hsink]
      simp only [beq_iff_eq]
      by_cases hlast : last
      · rw [if_pos hlast, if_pos hlast]
      · rw [if_neg hlast, if_neg hlast, Nat.add_zero]
  case forward =>
    intro hk heos hr
    obtain ⟨hposts, hfifo, hn, hlast, -, -, -⟩ := takeEos_spec hp h hr
    refine ⟨(s.takeEos k l x e h).enterAll k l, (State.atPlace_of_works hw _).trans (congrArg _ (State.eosForward_takes hf hc hk heos hr)), fun hwait => ?_, ?_, ?_, ?_⟩
    · rw [State.enterAll_of_nothing_waits (fun y g => by rw [State.edge_takeEos hp.1 hr, hwait]), hposts]
    · unfold State.fifoAt
      rw [State.port_enterAll hp.1]
      exact hfifo.trans (by rw [hf]; rfl)
    · rw [State.port_enterAll hp.1, hn]
    · rw [State.port_enterAll hp.1, hlast, Bool.or_eq_true, beq_iff_eq]
  case fills =>
    intro hk hd h0 h2
    obtain ⟨hslot, hfifo, -, -⟩ := fillSlot_spec hp.popPort.2.1 h.tok
    obtain ⟨-, -, -, hposts⟩ := fillSlot_spec hp.2.1 h.tok
    refine ⟨_, State.atPlace_of_works hw _, ?_⟩
    rw [State.takeMark_fills hf hc hk hd h0 h2]
    exact ⟨by rw [hfifo _ hp.popPort, popPort_port hp, hf]; rfl, hslot, (State.fillSlot_popPort_posts hp h.tok).trans hposts⟩
  case stays =>
    exact fun hk hd hpassed => (State.atPlace_of_works hw _).trans (congrArg _ (State.takeMark_stays hf hc hk hd hpassed))
  case frontier =>
    intro hk h2 hr hh
    have runs : exec .evFrontierAdvance s = .next (s.takeFrontier k l x e) := State.atPlace_of_works hw _
    have popped : (s.popPort k l x e).fifoAt k l x e = hs := by rw [popPort_port hp, hf]; rfl
    refine ⟨fun hn => ⟨_, runs, ?_⟩, fun f hf' => ⟨fun hn => ⟨_, runs, ?_⟩, fun hn => ⟨_, runs, ?_⟩⟩⟩
    · rw [State.takeFrontier_malformed hf hc hk h2 hr hh hn]
      exact ⟨popped, State.infoFault_popPort_posts ..⟩
    · rw [State.takeFrontier_ahead hf hc hk h2 hr hh hf' hn]
      exact ⟨popped, congrArg Rc.fns (State.rc_popPort ..), State.infoFault_popPort_posts ..⟩
    · rw [State.takeFrontier_advances hf hc hk h2 hr hh hf' hn]
      have hv := hp.popPort.setFrontier lead (pwFn w) f h.tok.iter
      obtain ⟨hslot, hfifo, hrc, -⟩ := fillSlot_spec hv.2.1 h.tok
      refine ⟨?_, hslot, ?_⟩
      · rw [hfifo _ hv]
        exact (congrArg Port.fifo (State.port_setFrontier hp.1 ..)).trans popped
      · rw [hrc, setFrontier_spec, State.rc_popPort]

end Sys2Proof.Machine
end

section
/-! Number formats in the cells: fused arithmetic (R56, R162), conversions (R52, R169, R171) and reductions (R53, R54, R173). -/

namespace Sys2Proof.Machine

/-! ## Fused forms -/

/-- R56, R162: a fused form makes of three sources of one tag the lane frame of the exact a·b ± c, rounded or wrapped once. -/
theorem fusedSem_ok {u v c : Reg} (hu : isFI u.fmt = true) (hv : v.fmt = u.fmt) (hc : c.fmt = u.fmt) (e : Env) (negP negC : Bool) (rm n : Nat) :
    fusedSem negP negC rm n e [u, v, c] = .ok (laneFrame e.agent [u, v, c] u.fmt 0 (fun i => byTag u.fmt
      (rounded u.fmt rm n (e.rnd i) (fmaEx rm negP (fAt u i) (fAt v i) (if negC then negVal (fAt c i) else fAt c i)))
      (wrapped u.fmt 0 ((if negP then -(iAt u i * iAt v i) else iAt u i * iAt v i) + (if negC then -(iAt c i) else iAt c i))))) := by
  refine (need_accepted hu _).trans ((need_accepted (hv ▸ hu) _).trans ((need_accepted (hc ▸ hu) _).trans
    ((sameTag_accepted hv.symm _).trans ((sameTag_accepted hc.symm _).trans ?_))))
  unfold fAt iAt
  rw [hv, hc]
  rfl

/-- Settles O2: each fused form computes the lane frame of its exact result, and the write of a result leaves the rest. -/
theorem cellFused : Obligations.CellFused := by
  unfold Obligations.CellFused
  intro s e d a b r n h fused u v c hu hv hc
  have hn : ∀ q ∈ [u, v, c], q.fmt ≠ .none := by simp [hv, hc, ne_none_of_FI hu]
  refine ⟨fun hs => ?wide, fun hs => ?compact⟩
  case wide =>
    have row (i : Instr) {negP negC : Bool} (hx : exec i s = s.compute 2 d r [a, b, d] (fusedSem negP negC r n)) :
        (fused i r n 2 d negP negC u v c).Completes s e :=
      LaneRow.completes_of_sources h hs hn hx (fusedSem_ok hu hv hc e negP negC r n)
    exact ⟨row (.fma d a b r n) rfl, row (.fms d a b r n) rfl, row (.fnma d a b r n) rfl⟩
  case compact => exact LaneRow.completes_of_sources h hs hn rfl (fusedSem_ok hu hv hc e false false 0 0)

/-! ## Conversions -/

/-- A row given lane by lane completes when its instruction accepts the sources that it reads and its meaning makes of them the register of the row. -/
theorem RegRow.completes_of_sources {w : RegRow} {s : State} {e : Env} (h : s.Runs e) {rs : List Reg} (hs : s.sources e w.srcs = rs)
    (hn : ∀ q ∈ rs, q.fmt ≠ .none) {f : Env → List Reg → Except Nat Reg} {r : Reg} (hx : exec w.instr s = s.compute w.len w.d w.rm w.srcs f)
    (hf : f e rs = .ok r) (hr : LanesAre r w.fmt w.xs w.p w.origin w.lane) : w.Completes s e := by
  subst hs
  exact RegRow.complete h hx hn hf hr

section Converted

variable {u : Reg} (e : Env) (f rm n : Nat)

/-- R169: CVT converts each lane; an MX result has block scale 1. -/
theorem cvtSem_ok (hu : isFIMX u.fmt = true) : cvtSem f rm n e [u] =
    .ok (laneFrame e.agent [u] (fmtOf f) (if isMX (fmtOf f) then 127 else 0)
      (fun j => convert u.fmt u.xs (elemOf u j) (fmtOf f) (if isMX (fmtOf f) then 127 else 0) rm (e.rnd j) (n == 1))) := need_accepted hu _

theorem dqnSem_ok (hu : isMX u.fmt = true) : dqnSem f rm n e [u] =
    .ok (laneFrame e.agent [u] (fmtOf f) 0 (fun j => convert u.fmt u.xs (elemOf u j) (fmtOf f) 0 rm (e.rnd j) (n == 1))) := need_accepted hu _

/-- The block scale that QNT computes (R50): of the exact values of the valid lanes. -/
def qntScale (u : Reg) (f : Nat) : Option Nat :=
  blockScale (fmtOf f) ((List.range 16).filterMap (fun i => if okAt u i then some (elemVal u.fmt u.xs (elemOf u i)) else none))

/-- R50, R169: a block that has a scale is converted under it, saturating. -/
theorem qntSem_of_scale (hu : isFMX u.fmt = true) {xs : Nat} (hx : qntScale u f = some xs) : qntSem f rm e [u] =
    .ok (laneFrame e.agent [u] (fmtOf f) xs (fun j => convert u.fmt u.xs (elemOf u j) (fmtOf f) xs rm (e.rnd j) true)) := by
  unfold qntScale at hx
  refine (need_accepted hu _).trans ?_
  dsimp only
  rw [hx]
  rfl

/-- R50, R169: a block with a NaN or an infinity in it gives scale 0xFF, zero elements and poison. -/
theorem qntSem_of_no_scale (hu : isFMX u.fmt = true) (hx : qntScale u f = none) : qntSem f rm e [u] =
    .ok (mkReg (fmtOf f) 255 true (resultOrigin e.agent [u] true) (fun i => if okAt u i then some 0 else none)) := by
  unfold qntScale at hx
  refine (need_accepted hu _).trans ?_
  dsimp only
  rw [hx]
  rfl

/-- The element that FMTS makes of one under the new tag (R171): its bits, or the tag's canonical NaN. -/
def retagged (tf : Fmt) (w : Nat) : Nat :=
  match fspec tf with
  | some g => if isNan (decodeF g w) then canonNaN tf else w
  | none => w

/-- R171: FMTS keeps the bits of each lane and the marks. -/
theorem fmtsSem_ok (hn : u.fmt ≠ .none) (hr : u.fmt ≠ .rcd) (hw : fmtWidth u.fmt = fmtWidth (fmtOf f)) : fmtsSem f e [u] =
    .ok (mkReg (fmtOf f) (if isMX (fmtOf f) then (if isMX u.fmt then u.xs else 127) else 0) u.p u.origin
      (fun i => (elem? u i).map (retagged (fmtOf f)))) := by
  have lanes : (fun i => (elem? u i).map (retagged (fmtOf f))) = fun i => if okAt u i then some (retagged (fmtOf f) (elemOf u i)) else none := by
    funext i
    unfold elem?
    split <;> rfl
  rw [lanes]
  exact need_accepted (p := fun t => t != .none && t != .rcd && fmtWidth t == fmtWidth (fmtOf f)) (by simp [hn, hr, hw]) _

end Converted

/-- Settles O10: each instruction accepts its source and converts it lane by lane, as a block, or by its tag alone. -/
theorem cellConvert : Obligations.CellConvert := by
  unfold Obligations.CellConvert
  intro s e d a f r n u h hs tf one block
  have single (hn : u.fmt ≠ .none) : ∀ q ∈ [u], q.fmt ≠ .none := by simpa using hn
  refine ⟨fun hu => ?cvt, fun hu xs hx => ?scaled, fun hu hx => ?unscaled, fun hu => ?dqn, fun hn hr hw => ?fmts⟩
  case cvt => exact LaneRow.completes_of_sources h hs (single (ne_none_of_FIMX hu)) rfl (cvtSem_ok e f r n hu)
  case scaled => exact LaneRow.completes_of_sources h hs (single (ne_none_of_FMX hu)) rfl (qntSem_of_scale e f r hu hx)
  case unscaled =>
    refine RegRow.completes_of_sources h hs (single (ne_none_of_FMX hu)) rfl (qntSem_of_no_scale e f r hu hx)
      ((mkReg_lanes ..).congr rfl ?_ (fun _ _ => rfl))
    cases hp : u.p <;> simp [resultOrigin, originOf, hp]
  case dqn => exact LaneRow.completes_of_sources h hs (single (ne_none_of_MX hu)) rfl (dqnSem_ok e f r n hu)
  case fmts => exact RegRow.completes_of_sources h hs (single hn) rfl (fmtsSem_ok e f hn hr hw) (mkReg_lanes ..)

/-! ## Reductions -/

theorem elems_eq_map_elem? (u : Reg) : elems u = (List.range 16).map (elem? u) := rfl

/-- R173: a class F tag passes only variants 0 to 2. -/
theorem ne_none_of_needVar {var : Nat} {u : Reg} (hu : (if var ≤ 2 then isFI else isI) u.fmt = true) : u.fmt ≠ .none := by
  split at hu
  · exact ne_none_of_FI hu
  · exact ne_none_of_I hu

section Reduced

variable {var : Nat} {u : Reg} (hu : (if var ≤ 2 then isFI else isI) u.fmt = true) (e : Env) (rm n : Nat)
include hu

/-- R53: REDL leaves the tree over all sixteen lanes in lane 0. -/
theorem redlSem_ok :
    let t := treeFrom (combine e u.fmt var rm n) (elem? u) 4 0
    redlSem var rm n e [u] =
      .ok (mkReg u.fmt 0 (poisonOf [u] t.2) (resultOrigin e.agent [u] t.2) (fun i => if i = 0 then t.1 else none)) := by
  rw [← tree_eq]
  exact need_accepted hu _

/-- R54: each valid lane of SCANL's result holds the fold up to it. -/
theorem scanlSem_lanes : ∃ r, scanlSem var rm n e [u] = .ok r ∧
    let fold := foldTo (combine e u.fmt var rm n) (elem? u)
    LanesAre r u.fmt 0 (u.p || (fold 15).2) (if u.p then u.origin else e.agent) (fun i => if okAt u i then (fold i).1 else none) := by
  obtain ⟨hlane, hexc⟩ := scan_from (combine e u.fmt var rm n) (elem? u) 16 0 (none, false)
  rw [← List.range_eq_range', ← elems_eq_map_elem?] at hlane hexc
  refine ⟨_, need_accepted hu _, ?_⟩
  rw [hexc, List.range_eq_range', ← foldTo_eq (n := 15)]
  refine (mkReg_marks1 ..).congr rfl rfl (fun i hi => ?_)
  rw [hlane i hi, Nat.zero_add, ← foldTo_eq, elem?]
  split <;> simp_all

end Reduced

/-- Settles O12: REDL's levels are the tree and SCANL's steps the fold, under one combination of their variant. -/
theorem cellReduce : Obligations.CellReduce := by
  unfold Obligations.CellReduce
  intro s e d a var r n u h hs hu op tree redl
  have hu' : (if var ≤ 2 then isFI else isI) u.fmt = true := (ite_apply _ isFI isI u.fmt).trans hu
  have hn : ∀ q ∈ [u], q.fmt ≠ .none := by simpa using ne_none_of_needVar hu'
  have hop (var rm n : Nat) : combine e u.fmt var rm n = op var rm n := by
    funext j x y
    match var with
    | 0 | 1 | 2 | 3 | 4 | _ + 5 => rfl
  have row (i : Instr) (var rm n len d : Nat) (hv : (if var ≤ 2 then isFI else isI) u.fmt = true)
      (hx : exec i s = s.compute len d rm [a] (redlSem var rm n)) : (redl i var rm n len d).Completes s e := by
    refine RegRow.completes_of_sources h hs hn hx (redlSem_ok hv e rm n) ?_
    rw [hop]
    exact mkReg_marks1 ..
  refine ⟨row (.redl d a var r n) var r n 2 d hu' rfl, fun h0 => row (.cRedl d a) 0 0 0 1 (8 + d) (h0 ▸ hu') rfl, ?scan⟩
  case scan =>
    obtain ⟨q, hq, hl⟩ := scanlSem_lanes hu' e r n
    rw [hop] at hl
    exact RegRow.completes_of_sources h hs hn rfl hq hl

end Sys2Proof.Machine
end

section
/-! Passes of the matrix engine: what each takes from its ports and leaves in the accumulator tiles (R55, R207 to R211). -/

namespace Sys2Proof.Machine

/-! ## Ports and tiles of an engine -/

theorem State.matrix_modMatrix_same (s : State) (k : Nat) (f : Matrix → Matrix) : (s.modMatrix k f).matrix k = f (s.matrix k) :=
  (State.matrix_modMatrix ..).trans (if_pos rfl)

theorem Matrix.fifo_of_ports {m m' : Matrix} (h : m'.ports = m.ports) (p : Nat) : m'.fifo p = m.fifo p := by
  unfold Matrix.fifo
  rw [h]

theorem Matrix.fifo_drop (m : Matrix) (p n q : Nat) : (m.drop p n).fifo q = if q = p then (m.fifo q).drop n else m.fifo q := by
  unfold Matrix.fifo Matrix.drop
  rw [getD_modify]
  split
  case isFalse => rfl
  case isTrue hq =>
    subst hq
    split
    · rfl
    · rw [List.getD_eq_default _ _ (by omega)]
      exact List.drop_nil.symm

theorem Matrix.tile_modTile (m : Matrix) (t j : Nat) (f : Tile → Tile) : (m.modTile t f).tile j = if j = t then f (m.tile t) else m.tile j := by
  unfold Matrix.modTile
  show (aget (aset m.tiles t (f (m.tile t))) j).getD {} = _
  rw [aget_aset]
  split <;> rfl

/-- A change of an engine that works on the n tiles from acc on, each as g says of its number, and leaves the ports. -/
structure Matrix.Reworks (m m' : Matrix) (acc n : Nat) (g : Nat → Tile → Tile) : Prop where
  ports : m'.ports = m.ports
  tiles : ∀ j, j < n → m'.tile (acc + j) = g j (m.tile (acc + j))
  other : ∀ j, j < acc ∨ acc + n ≤ j → m'.tile j = m.tile j

theorem Matrix.Reworks.refl (m : Matrix) (acc n : Nat) : m.Reworks m acc n (fun _ c => c) := ⟨rfl, fun _ _ => rfl, fun _ _ => rfl⟩

/-- A block of tiles, one after the other. -/
theorem Matrix.reworks_foldl (m : Matrix) (acc n : Nat) (g : Nat → Tile → Tile) :
    m.Reworks ((List.range n).foldl (fun m j => m.modTile (acc + j) (g j)) m) acc n g := by
  induction n with
  | zero => exact ⟨rfl, fun j hj => absurd hj (by omega), fun _ _ => rfl⟩
  | succ n ih =>
    rw [List.range_succ, List.foldl_append]
    refine ⟨ih.ports, fun j hj => (Matrix.tile_modTile ..).trans ?_, fun j hj => (Matrix.tile_modTile ..).trans ?_⟩
    · by_cases h : j = n
      · rw [h, if_pos rfl, ih.other _ (by omega)]
      · rw [if_neg (by omega), ih.tiles j (by omega)]
    · rw [if_neg (by omega), ih.other j (by omega)]

/-- One tile of a block. -/
theorem Matrix.reworks_modTile (m : Matrix) (acc : Nat) {n i : Nat} (hi : i < n) (f : Tile → Tile) :
    m.Reworks (m.modTile (acc + i) f) acc n (fun j c => if j = i then f c else c) := by
  refine ⟨rfl, fun j hj => ?_, fun j hj => (Matrix.tile_modTile ..).trans (if_neg (by omega))⟩
  rw [Matrix.tile_modTile]
  by_cases h : j = i
  · rw [if_pos (by rw [h]), if_pos h, h]
  · rw [if_neg (by omega), if_neg h]

/-! ## A pass -/

section Pass

variable {s : State} {k : Nat} {i : Instr} {r : MInst} (h : s.MatrixRuns k i r)
include h

/-- Where its operands stand, a pass takes them, works, and moves on or ends. -/
theorem State.MatrixRuns.pass_eq (f : MInst → List Token → List Token → Matrix → Matrix) :
    let u := matUse r.mask.length i
    s.pass k i f = s.modMatrix k (fun m =>
      { f r (s.matrixToks k 0 u.a) (s.matrixToks k 1 u.b) ((m.drop 0 u.a).drop 1 u.b) with
        run := if r.kstep + 1 < u.passes then some { r with kstep := r.kstep + 1 } else none, lastStep := s.time }) := by
  have hb : (if (matUse r.mask.length i).b = 0 then .ok true
      else operandsAt true r.tag (matUse r.mask.length i).bf (matUse r.mask.length i).b ((s.matrix k).fifo 1)) = .ok true := by
    split
    · rfl
    · exact h.b.resolve_left ‹_›
  intro u
  unfold State.pass
  dsimp only
  rw [h.run]
  dsimp only
  rw [if_neg (by simp [h.admitted]), h.a, hb]
  rfl

/-- A pass whose work is a change of a block of tiles. -/
theorem State.MatrixRuns.passed (f : MInst → List Token → List Token → Matrix → Matrix) {acc n : Nat} {g : Nat → Tile → Tile}
    (hf : ∀ m : Matrix, m.Reworks (f r (s.matrixToks k 0 (matUse r.mask.length i).a) (s.matrixToks k 1 (matUse r.mask.length i).b) m) acc n g) :
    Passed s (s.pass k i f) k i r acc n g := by
  rw [h.pass_eq]
  have hm := s.matrix_modMatrix_same k
  have work := hf (((s.matrix k).drop 0 (matUse r.mask.length i).a).drop 1 (matUse r.mask.length i).b)
  refine ⟨rfl, ?_, fun j hj => (State.core_modCore ..).trans (if_neg hj), fun j hj => ?_, fun j hj => ?_, ?_, ?_⟩
  · rw [hm]
    exact (State.core_modCore ..).trans (if_pos rfl)
  · rw [hm]
    exact work.tiles j hj
  · rw [hm]
    exact work.other j hj
  · rw [hm]
    refine (Matrix.fifo_of_ports work.ports 0).trans ((Matrix.fifo_drop ..).trans ?_)
    rw [if_neg (by decide), Matrix.fifo_drop, if_pos rfl]
  · rw [hm]

/-- A pass that takes one token at port A, its trigger or its row. -/
theorem State.MatrixRuns.passed_head {x : PortTok} {xs : List PortTok} (hx : (s.matrix k).fifo 0 = x :: xs) (ha : (matUse r.mask.length i).a = 1)
    (f : MInst → List Token → List Token → Matrix → Matrix) {acc n : Nat} {g : Nat → Tile → Tile}
    (hf : ∀ m : Matrix, m.Reworks (f r [x.tok] (s.matrixToks k 1 (matUse r.mask.length i).b) m) acc n g) : Passed s (s.pass k i f) k i r acc n g := by
  refine h.passed f (fun m => ?_)
  have head : s.matrixToks k 0 (matUse r.mask.length i).a = [x.tok] := by
    unfold State.matrixToks
    rw [hx, ha]
    rfl
  rw [head]
  exact hf m

/-- Free draws (log 18) leave the engines as they are. -/
theorem State.MatrixRuns.freeDraws (n : Nat) : (s.freeDraws n).2.MatrixRuns k i r := ⟨h.run, h.admitted, h.a, h.b⟩

end Pass

/-- A pass that takes free draws changes nothing else by them (log 18). -/
theorem Passed.of_freeDraws {s t : State} {d k : Nat} {i : Instr} {r : MInst} {acc n : Nat} {g : Nat → Tile → Tile}
    (h : Passed (s.freeDraws d).2 t k i r acc n g) : Passed s t k i r acc n g := ⟨h.rest, h.core, h.cores, h.tiles, h.other, h.fifoA, h.run⟩

/-! ## What the instructions do in a pass -/

section Steps

variable {s : State} {r : MInst}

/-- R207: a multiplying instruction adds its k-step into each tile of its block. -/
theorem State.MatrixRuns.multiplied {k : Nat} {i : Instr} (h : s.MatrixRuns k i r) (zero bk : Bool) (mt nt acc a : Nat) (rows : MInst → List Nat) :
    Passed s (s.multiply k i zero bk mt nt acc a rows) k i r acc ((mt + 1) * (nt + 1)) (fun j c =>
      (mopsOf (fmtOf a) bk nt (rows r) (s.matrixToks k 0 (matUse r.mask.length i).a) (s.matrixToks k 1 (matUse r.mask.length i).b)).step (agentId k 32)
        (j / (nt + 1)) (j % (nt + 1)) (if zero && r.kstep == 0 then {} else c)) :=
  h.passed _ (fun m => m.reworks_foldl ..)

/-- R209: ACCZ zeroes the tiles and marks them with the poison of its trigger. -/
theorem zeroPass_reworks (mt nt acc : Nat) (q : Token) (bs : List Token) (m : Matrix) :
    m.Reworks (zeroPass mt nt acc r [q] bs m) acc ((mt + 1) * (nt + 1)) (fun _ _ => { p := q.reg.p, origin := if q.reg.p then q.reg.origin else 0 }) := by
  unfold zeroPass tileList
  rw [List.foldl_map]
  exact m.reworks_foldl ..

/-- The tile that ACCWR leaves once a token without poison has written row i (R209, log 104). -/
def rowWritten (i : Nat) (q : Token) (c : Tile) : Tile :=
  { p := c.p && i % 16 != 0, origin := if i % 16 = 0 then 0 else c.origin,
    data := (List.range 256).map (fun m => if m / 16 = i % 16 then fp32Lane q.reg (m % 16) else c.data.getD m 0) }

/-- The tile of a place in drain order lies in the block (R206, R210). -/
theorem drainTile_lt {mt nt i : Nat} (hi : i < 16 * ((mt + 1) * (nt + 1))) : i / (nt + 1) / 16 * (nt + 1) + i % (nt + 1) < (mt + 1) * (nt + 1) := by
  have hcol : i % (nt + 1) < nt + 1 := Nat.mod_lt _ (by omega)
  have hrow : i / (nt + 1) / 16 < mt + 1 := by
    rw [Nat.div_div_eq_div_mul, Nat.div_lt_iff_lt_mul (by omega)]
    calc i < 16 * ((mt + 1) * (nt + 1)) := hi
      _ = (mt + 1) * ((nt + 1) * 16) := by ring
  calc i / (nt + 1) / 16 * (nt + 1) + i % (nt + 1) < (i / (nt + 1) / 16 + 1) * (nt + 1) := by rw [Nat.succ_mul]; omega
    _ ≤ (mt + 1) * (nt + 1) := Nat.mul_le_mul_right _ hrow

/-- R209: ACCWR writes one row of one tile, that of its place in drain order. -/
theorem writePass_reworks {mt nt : Nat} (acc : Nat) (hr : r.kstep < 16 * ((mt + 1) * (nt + 1))) {q : Token} (hq : q.reg.p = false) (bs : List Token) (m : Matrix) :
    m.Reworks (writePass nt acc r [q] bs m) acc ((mt + 1) * (nt + 1))
      (fun j c => if j = r.kstep / (nt + 1) / 16 * (nt + 1) + r.kstep % (nt + 1) then rowWritten (r.kstep / (nt + 1)) q c else c) := by
  have row (c : Tile) : rowWritten (r.kstep / (nt + 1)) q c =
      let c0 := if r.kstep / (nt + 1) % 16 = 0 then { c with p := false, origin := 0 } else c
      { c0 with data := (List.range 256).map (fun m => if m / 16 = r.kstep / (nt + 1) % 16 then fp32Lane q.reg (m % 16) else c0.data.getD m 0) } := by
    unfold rowWritten
    by_cases h0 : r.kstep / (nt + 1) % 16 = 0 <;> simp [h0]
  rw [funext row]
  unfold writePass
  simp only [hq, Bool.false_eq_true, if_false, Nat.add_assoc acc]
  exact m.reworks_modTile acc (drainTile_lt hr) _

/-- R209: ACCAX without α leaves the tiles. -/
theorem axPass_of_invalid {q : Token} (hq : okAt q.reg 0 = false) (agent mt nt acc rm : Nat) (draw : Nat → Nat) (bs : List Token) (m : Matrix) :
    axPass agent mt nt acc rm draw r [q] bs m = m := if_pos (by simp [hq])

/-- R209: ACCAX scales each tile by α and adds the bias of its column. -/
theorem axPass_reworks {q : Token} (hq : okAt q.reg 0 = true) (agent mt nt acc rm : Nat) (draw : Nat → Nat) (bs : List Token) (m : Matrix) :
    m.Reworks (axPass agent mt nt acc rm draw r [q] bs m) acc ((mt + 1) * (nt + 1)) (fun j => axTile agent rm draw q bs[j % (nt + 1)]? j) := by
  unfold axPass
  dsimp only
  rw [if_neg (by simp [hq])]
  exact m.reworks_foldl ..

end Steps

/-! ## Draining -/

section Drain

variable {s : State} {k : Nat}

theorem State.modEdge_result (s : State) (k x e : Nat) (f : Edge → Edge) : s.modEdge k 34 x e f = s.modMatrix k (fun m => { m with edge := f m.edge }) := rfl

/-- Result tokens leave what lies outside the result edge. -/
theorem State.enter_results_keep {γ : Type} {P : State → γ} (hP : ∀ (s : State) (f : Edge → Edge), P (s.modMatrix k (fun m => { m with edge := f m.edge })) = P s)
    (token : Nat → Token) (l : List Nat) (s : State) : P (l.foldl (fun t i => t.enter k 34 0 0 (token i)) s) = P s :=
  foldl_keeps P _ (fun s _ => (congrArg P (s.modEdge_result k 0 0 _)).trans (hP s _)) l s

variable {r : MInst} {x : PortTok} {xs : List PortTok} (hrun : (s.matrix k).run = some r) (hadm : (s.matrix k).admitted = true)
  (hx : (s.matrix k).fifo 0 = x :: xs) (hk : x.tok.kind = .data) (ht : tokTag x.tok = r.tag) (sr : Bool) (token : (Nat → Nat) → Matrix → Token → Nat → Token) (total : Nat)
include hrun hadm hx hk ht

/-- R210: a drain whose trigger stands at port A sends what its edge has credit for, which leaves tiles, ports and memory; after the last token it takes the
trigger and ends. -/
theorem State.drainTiles_eq :
    let n := min (s.room k 34 0 0) (total - r.sent)
    ∃ v : State, (v.matrix k).tiles = (s.matrix k).tiles ∧ (v.matrix k).ports = (s.matrix k).ports ∧ v.mem = s.mem ∧
      s.drainTiles k sr token total = v.modMatrix k (fun m =>
        if r.sent + n < total then { m with run := some { r with sent := r.sent + n } } else { m.drop 0 1 with run := none, lastStep := s.time }) := by
  intro n
  refine ⟨(List.range n).foldl (fun t i => t.enter k 34 0 0 (token (s.freeDraws (if sr then 16384 else 0)).1 (s.matrix k) x.tok (r.sent + i)))
    (s.freeDraws (if sr then 16384 else 0)).2, ?tiles, ?ports, ?mem, ?eq⟩
  case tiles =>
    exact State.enter_results_keep (P := fun s => (s.matrix k).tiles) (fun s _ => (congrArg Matrix.tiles (s.matrix_modMatrix_same k _)).trans rfl) ..
  case ports =>
    exact State.enter_results_keep (P := fun s => (s.matrix k).ports) (fun s _ => (congrArg Matrix.ports (s.matrix_modMatrix_same k _)).trans rfl) ..
  case mem => exact State.enter_results_keep (P := State.mem) (fun _ _ => rfl) ..
  case eq =>
    unfold State.drainTiles
    dsimp only
    rw [hrun, hx]
    dsimp only
    rw [if_neg (by simp [hadm]), if_neg (by simp [hk, ht])]

/-- R210: a drain leaves tiles and memory, and the trigger stays at its port until the last token is sent. -/
theorem State.drainTiles_sends :
    let u := s.drainTiles k sr token total
    let n := min (s.room k 34 0 0) (total - r.sent)
    (u.matrix k).tiles = (s.matrix k).tiles ∧ u.mem = s.mem ∧
      if r.sent + n < total then (u.matrix k).run = some { r with sent := r.sent + n } ∧ (u.matrix k).fifo 0 = (s.matrix k).fifo 0
      else (u.matrix k).run = none ∧ (u.matrix k).fifo 0 = xs := by
  obtain ⟨v, htiles, hports, hmem, hu⟩ := State.drainTiles_eq hrun hadm hx hk ht sr token total
  intro u n
  have hfifo : (v.matrix k).fifo 0 = (s.matrix k).fifo 0 := Matrix.fifo_of_ports hports 0
  rw [show u = _ from hu, State.matrix_modMatrix_same]
  refine ⟨?_, hmem, ?_⟩
  · rw [← htiles]
    split <;> rfl
  · split
    · exact ⟨rfl, hfifo⟩
    · refine ⟨rfl, (Matrix.fifo_drop ..).trans ?_⟩
      rw [if_pos rfl, hfifo, hx]
      rfl

end Drain

/-- Settles O50: each instruction's pass is the shared pass of the engine with the work of that instruction. -/
theorem matrixPasses : Obligations.MatrixPasses := by
  unfold Obligations.MatrixPasses
  intro s mt nt kt acc a b t rm sat q o r k n agent step all
  refine ⟨fun h => ⟨_, rfl, h.multiplied ..⟩, fun h => ⟨_, rfl, h.multiplied ..⟩, fun h => ⟨_, rfl, h.multiplied ..⟩, fun h => ⟨_, rfl, h.multiplied ..⟩,
    fun x xs h hx => ⟨_, rfl, h.passed_head hx rfl _ fun m => zeroPass_reworks ..⟩,
    fun x xs h hx hr hp => ⟨_, rfl, h.passed_head hx rfl _ fun m => writePass_reworks acc hr hp ..⟩,
    fun x xs h hx hok => ⟨_, rfl, ((h.freeDraws _).passed_head hx rfl _ fun m => ?noAlpha).of_freeDraws⟩,
    fun x xs h hx hok => ⟨_, rfl, ((h.freeDraws _).passed_head hx rfl _ fun m => axPass_reworks hok ..).of_freeDraws⟩,
    fun x xs hrun hadm hx hk ht => ⟨_, rfl, State.drainTiles_sends hrun hadm hx hk ht ..⟩⟩
  case noAlpha =>
    rw [axPass_of_invalid hok]
    exact .refl ..

end Sys2Proof.Machine
end

section
/-! Calls of a cell: what CALL, RET and FREEF stage in the running task (R69, R185, R186). -/

namespace Sys2Proof.Machine

/-- Settles O15: each of the three stages what its meaning puts into the task, and goes on. -/
theorem cellCalls : Obligations.CellCalls := by
  unfold Obligations.CellCalls
  intro s e E a c er rc x u h hu
  refine ⟨fun hs => ?_, fun hf hst => ?freef⟩
  · have hfmt : ∀ q ∈ s.sources e [a], q.fmt ≠ .none := by simpa [hs] using hu
    refine ⟨fun f hnew ht => ?call, fun hf hst => ?ret⟩
    case call =>
      let called : Staged := .call f ⟨e.core, e.cell, e.task.ctx, e.task.frame, e.task.iter, er, rc⟩
      have hemit := (ht.putStaged h called (fun _ => nofun)).emit_data (r := u) rfl
      exact State.flow_next (f := callTo s E c er rc) h hfmt (by simpa only [hs, callTo, hnew] using hemit) (((Restaged.refl h).put called).put _)
    case ret =>
      exact State.flow_next (f := retTo s x) h hfmt (by simp [hs, retTo, hf, hst]) ((Restaged.refl h).put _)
  case freef =>
    exact State.flow_next (f := fun e _ => freeTo s e) h (cs := []) (by simp [State.sources]) (by simp [freeTo, hf, hst]) ((Restaged.refl h).put _)

end Sys2Proof.Machine
end

section
/-! A trap of a cell: the record it posts, and how its region fails (R80, R188, R302). -/

namespace Sys2Proof.Machine

/-! ## What the end of a node leaves of the cores (R80, R108, R284) -/

/-- A relation of a core to what the end of a node may leave of it: caches, copies, the count of ranks and held accesses may differ. -/
structure Lasts (R : Core → Core → Prop) : Prop where
  refl   : ∀ c, R c c
  trans  : ∀ {c d e}, R c d → R d e → R c e
  tcache : ∀ c x, R c { c with tcache := x }
  copies : ∀ c x, R c { c with copies := x }
  rank   : ∀ c x, R c { c with rank := x }
  unhold : ∀ c p, R c (c.unhold p)

/-- Each core of the package and what has become of it. -/
def EachCore (R : Core → Core → Prop) (s t : State) : Prop := ∀ k, R (s.core k) (t.core k)

section EachCore

variable {R : Core → Core → Prop} (hR : Lasts R)
include hR

theorem EachCore.of_cores {s t : State} (h : t.cores = s.cores) : EachCore R s t := fun k => by
  rw [show t.core k = s.core k by simp [State.core, h]]
  exact hR.refl _

theorem EachCore.trans {s t u : State} (h : EachCore R s t) (g : EachCore R t u) : EachCore R s u := fun k => hR.trans (h k) (g k)

theorem EachCore.modCore (s : State) (k : Nat) (f : Core → Core) (hf : ∀ c : Core, R c (f c)) : EachCore R s (s.modCore k f) := fun j => by
  rw [State.core_modCore]
  split
  · subst_vars; exact hf _
  · exact hR.refl _

theorem EachCore.mapCores (s : State) (f : Nat → Core → Core) (hf : ∀ (k : Nat) (c : Core), R c (f k c)) : EachCore R s { s with cores := s.cores.map (fun e => (e.1, f e.1 e.2)) } := fun k => by
  simp only [State.core, aget_map]
  cases aget s.cores k with
  | none => exact hR.refl _
  | some c => exact hf k c

theorem EachCore.foldl {β : Type} (f : State → β → State) (hf : ∀ s b, EachCore R s (f s b)) (l : List β) (s : State) : EachCore R s (l.foldl f s) :=
  foldl_inv (P := EachCore R s) (fun _ b h => .trans hR h (hf _ b)) l s (.of_cores hR rfl)

theorem EachCore.unhold (s : State) (pt : Nat) (p : Nat × Nat → Bool) : EachCore R s (s.unhold pt p) := by
  have h : (s.unhold pt p).cores = s.cores.map (fun e => (e.1, if bit (s.part pt).isles (isleOf e.1) then e.2.unhold p else e.2)) :=
    List.map_congr_left fun e _ => by split <;> rfl
  refine .trans hR (EachCore.mapCores hR s (fun k c => if bit (s.part pt).isles (isleOf k) then c.unhold p else c) fun k c => ?_) (.of_cores hR h)
  split
  · exact hR.unhold c p
  · exact hR.refl c

theorem EachCore.of_translated {s t : State} (h : Translated s t) : EachCore R s t := fun k => by
  rw [h.core k]
  exact hR.tcache ..

theorem EachCore.releaseTile (s : State) (pt x : Nat) : EachCore R s (s.releaseTile pt x) := by
  have h := EachCore.of_translated hR (translate_spec s (s.part pt).supervisor pt (x * 2048) false)
  unfold State.releaseTile
  split
  · next ht => rwa [ht] at h
  · next ht => rw [ht] at h; exact .trans hR h (.of_cores hR rfl)

theorem EachCore.reclaim (s : State) (pt : Nat) (was : List Nat) : EachCore R s (s.reclaim pt was) := by
  unfold State.reclaim
  split
  · exact .of_cores hR rfl
  · exact .trans hR (.foldl hR (fun t x => t.releaseTile pt x) (fun t x => .releaseTile hR t pt x) _ s) (.unhold hR _ _ _)

theorem EachCore.tellAll (s : State) (c : Comm) (kind index : Nat) (clr : Clr) : EachCore R s (s.tellAll c kind index clr) :=
  .foldl hR _ (fun _ _ => .of_cores hR (by unfold State.tell State.sendColl; dsimp only; split <;> rfl)) _ _

theorem EachCore.withDies (s : State) (d : Assoc Die) : EachCore R s { s with dies := d } := .of_cores hR rfl
theorem EachCore.freeSlots (s : State) : EachCore R s s.freeSlots := .of_cores hR rfl

theorem EachCore.loseNode (s : State) (n : Nat) : EachCore R s (s.loseNode n) := by
  unfold State.loseNode
  exact .trans hR (.foldl hR (fun (t : State) (m : Nat × Nat × Comm) => t.tellAll m.2.2 5 0 []) (fun _ _ => .tellAll hR _ _ _ _ _) _ s) (.withDies hR _ _)

theorem EachCore.endMembers (s : State) (n : Nat) : EachCore R s (s.endMembers n) := by
  unfold State.endMembers
  refine .trans hR (.trans hR ?_ (.withDies hR _ _)) (.freeSlots hR _)
  refine .foldl hR (fun (t : State) (m : Nat × Nat × Comm) => (t.modCore m.2.2.core (fun c => { c with rank := c.rank - 1 })).tellAll m.2.2 3 0 []) (fun t m => ?_) _ s
  exact .trans hR (.modCore hR t m.2.2.core (fun c => { c with rank := c.rank - 1 }) fun c => hR.rank c _) (.tellAll hR _ _ _ _ _)

theorem EachCore.stopNode (s : State) (n : Nat) : EachCore R s (s.stopNode n) := by
  unfold State.stopNode
  dsimp only
  refine .trans hR ?_ (.trans hR (.loseNode hR _ n) (.endMembers hR _ n))
  refine .trans hR ?_ (.mapCores hR _ (fun _ c => { c with copies := c.copies.filter (fun c => c.2.node != n) }) fun _ c => hR.copies c _)
  exact .trans hR (.of_cores hR (by simp)) (.reclaim hR _ _ _)

end EachCore

/-! ## A cell that runs no task runs none after its region has failed -/

/-- What a cell that runs no task does not begin to run. -/
def Core.Rests (c d : Core) : Prop := ∀ l, ((aget c.cells l).getD {}).running = none → ((aget d.cells l).getD {}).running = none

theorem Core.Rests.of_cells {c d : Core} (h : d.cells = c.cells) : c.Rests d := fun l hl => by rwa [h]

theorem Core.Rests.mapCells (c : Core) {d : Core} (f : Cell → Cell) (hd : d.cells = c.cells.map (fun e => (e.1, f e.2))) (hf : ∀ x, x.running = none → (f x).running = none) :
    c.Rests d := fun l hl => by
  rw [hd, aget_map c.cells (fun _ => f)]
  cases hc : aget c.cells l with
  | none => rfl
  | some x => exact hf x (by simpa [hc] using hl)

theorem Core.Rests.lasts : Lasts Core.Rests where
  refl _ := .of_cells rfl
  trans h g l hl := g l (h l hl)
  tcache _ _ := .of_cells rfl
  copies _ _ := .of_cells rfl
  rank _ _ := .of_cells rfl
  unhold c p := .mapCells c (fun x => { x with gen := { x.gen with held := released p x.gen.held }, held := x.held.map (fun h => { h with hold := released p h.hold }) }) rfl fun _ hx => hx

/-- No cell of the package begins to run a task. -/
def Idle (s t : State) : Prop := EachCore Core.Rests s t

theorem Idle.trans {s t u : State} (h : Idle s t) (g : Idle t u) : Idle s u := EachCore.trans Core.Rests.lasts h g
theorem Idle.running {s t : State} (h : Idle s t) {k l : Nat} (hl : (s.cell k l).running = none) : (t.cell k l).running = none := h k l hl
theorem Idle.of_cores {s t : State} (h : t.cores = s.cores) : Idle s t := EachCore.of_cores Core.Rests.lasts h

theorem Idle.modCore (s : State) (k : Nat) (f : Core → Core) (hf : ∀ c : Core, c.Rests (f c)) : Idle s (s.modCore k f) := EachCore.modCore Core.Rests.lasts s k f hf

theorem Idle.mapCores (s : State) (f : Nat → Core → Core) (hf : ∀ (k : Nat) (c : Core), c.Rests (f k c)) : Idle s { s with cores := s.cores.map (fun e => (e.1, f e.1 e.2)) } :=
  EachCore.mapCores Core.Rests.lasts s f hf

theorem Idle.foldl {β : Type} (f : State → β → State) (hf : ∀ s b, Idle s (f s b)) (l : List β) (s : State) : Idle s (l.foldl f s) := EachCore.foldl Core.Rests.lasts f hf l s

theorem Idle.clearTokens (s : State) (k : Nat) : Idle s (s.modCore k Core.clearTokens) :=
  .modCore s k _ fun c => .mapCells c Cell.clearTokens rfl fun _ _ => rfl

theorem Idle.settle (s : State) (cs : List Nat) (i : Nat) : Idle s (s.settle cs i) := by
  rw [State.settle_eq]
  refine .mapCores s _ fun k c => .of_cells ?_
  unfold Core.settled
  split
  · rfl
  · split <;> rfl

theorem Idle.modRc (s : State) (k : Nat) (f : Rc → Rc) : Idle s (s.modRc k f) := .modCore s k _ fun _ => .of_cells rfl

theorem Idle.beforeEnd (s : State) (k : Nat) : Idle s (s.beforeEnd k) :=
  (Idle.foldl (fun s j => s.modCore j Core.clearTokens) Idle.clearTokens _ s).trans ((Idle.of_cores rfl).trans (.settle _ _ _))

theorem Idle.endPhase (s : State) (k st : Nat) (r : Bool) : Idle s (s.endPhase k st r) := by
  obtain ⟨m, w, h⟩ := s.endPhase_eq k st r
  rw [h]
  exact ((Idle.beforeEnd s k).trans (.of_cores rfl)).trans (.modRc _ k _)

theorem Idle.freeRegion (s : State) (k : Nat) : Idle s (s.freeRegion k) := .of_cores rfl
theorem Idle.stopNode (s : State) (n : Nat) : Idle s (s.stopNode n) := EachCore.stopNode Core.Rests.lasts s n

theorem Idle.failRegion (s : State) (k : Nat) : Idle s (s.failRegion k) := by
  unfold State.failRegion
  split
  · exact .modRc s k _
  · dsimp only
    refine Idle.trans (Idle.trans (Idle.trans ?_ (.modRc _ k _)) (.stopNode _ _)) (.freeRegion _ k)
    split
    · exact .endPhase s k 2 false
    · exact .of_cores rfl

theorem Idle.endRegion (s : State) (k : Nat) : Idle s (s.endRegion k) := by
  unfold State.endRegion
  split
  · exact .modRc s k _
  · exact .failRegion s k

/-! ## A task that faults with a terminating cause -/

/-- What a region leaves as it fails is what it would have left, had the controllers' registers and phases, the nodes and the regions been those of a state before. -/
theorem Failing.of_before {s p t : State} {lead : Nat} (h : Failing p t lead) (hq : (p.rc lead).q = (s.rc lead).q) (hp : (p.rc lead).inPhase = (s.rc lead).inPhase)
    (hn : p.nodes = s.nodes) (hr : p.regions = s.regions) : Failing s t lead := by
  have hg : p.regionAt lead = s.regionAt lead := regionAt_congr hr lead
  exact ⟨h.mode, h.q.trans hq, fun g hs ph => hn ▸ hr ▸ h.phase g (hg.trans hs) (hp.trans ph), fun g hs ph => h.node g (hg.trans hs) (hp.trans ph),
    fun g hs ph => h.cores g (hg.trans hs) (hp.trans ph)⟩

/-- A cause that ends the phase, but for a race and what the race checker cannot hold: the record is posted, the task has ended, and the region fails (R80, R302). -/
theorem State.taskFault_terminates {s : State} {e : Env} (h : s.Runs e) (kind : Nat) {cause : Nat} (hc : endsPhase cause = true) (hr : cause ≠ 0x055 ∧ cause ≠ 0x056) :
    let t := s.taskFault e.core e.cell kind ⟨cause, 0, 0, false⟩
    t.posts = s.posts ++ [s.faultRecord 2 kind e.core e.cell cause 0 0 e.task.tag] ∧ Failing s t (s.leadOf e.core) ∧ (t.cell e.core e.cell).running = none := by
  intro t
  let p := s.postFault 2 kind e.core e.cell cause 0 0 e.task.tag
  let q := p.endTask e.core e.cell true
  have quiet : Quiet p q := .endTask p e.core e.cell true
  have lead : q.leadOf e.core = s.leadOf e.core := by unfold State.leadOf; rw [regionAt_congr (show q.regions = s.regions by rw [quiet]; rfl)]
  have ht : t = q.endRegion (s.leadOf e.core) := by
    simp only [t, State.taskFault, hc, if_true, h.task, Bool.false_eq_true, if_false, State.terminate, hr.1, hr.2, or_self]
    exact congrArg q.endRegion rfl
  obtain ⟨ended, regs⟩ := State.endTask_ended (s := p) (e := e) h.task true
  obtain ⟨posts, fails⟩ := q.endRegion_spec (s.leadOf e.core)
  rw [ht]
  refine ⟨?_, ?_, (Idle.endRegion q _).running ended.running⟩
  · rw [posts, quiet]
    rfl
  · exact fails.of_before (regs.q _) (SamePhase.endTask p e.core e.cell true _) (by rw [quiet]; rfl) (by rw [quiet]; rfl)

/-- The causes of TRAPC end the phase, and none of them is the race checker's. -/
theorem trap_ends {n : Nat} (hn : n < 8) : endsPhase (0x038 + n) = true ∧ 0x038 + n ≠ 0x055 ∧ 0x038 + n ≠ 0x056 := by
  simp [endsPhase]
  omega

/-- Settles O20: a lane that holds makes TRAPC's meaning answer its cause, which ends the phase. -/
theorem cellTrap : Obligations.CellTrap := by
  unfold Obligations.CellTrap
  intro s e a n u g h hs hu hn ⟨i, hi, hok, hlane⟩ hg _
  obtain ⟨ends, notRace⟩ := trap_ends hn
  have cause : trapIf s n e [u] = .error (0x038 + n) := by
    have : (List.range 16).any (holds u) = true := List.any_eq_true.mpr ⟨i, List.mem_range.mpr hi, by simp [holds, hok, hlane]⟩
    simp [trapIf, this]
  have reads : (s.readAll e [a]).bind (trapIf s n e) = .error (0x038 + n) := by
    rw [State.bind_sources (by simpa [hs] using hu), hs, cause]
  obtain ⟨posts, fails, ended⟩ := State.taskFault_terminates h 0 ends notRace
  have lead : s.leadOf e.core = g.lead := by simp [State.leadOf, hg]
  refine ⟨s.taskFault e.core e.cell 0 ⟨0x038 + n, 0, 0, false⟩, ?_, by simp [posts], lead ▸ fails, ended⟩
  show Host.Outcome.next (s.flow 2 [a] (trapIf s n)) = _
  unfold State.flow
  rw [h.withTask, reads]

end Sys2Proof.Machine
end

section
/-! What a read of external memory leaves as it was: only caches, walks, tiles' states and the count of free values may differ (R329 to R334, R350, R354, R355). -/

namespace Sys2Proof.Machine

/-- What a read of external memory may change: translation caches and walks, the caches of verified plaintext, the states of tiles, the count of free values. -/
structure OnlyRead (s t : State) : Prop where
  rest : t = { s with cores := t.cores, isles := t.isles, dies := t.dies, freeNo := t.freeNo, tiles := t.tiles }
  core : ∀ j, t.core j = { s.core j with tcache := (t.core j).tcache }
  isle : ∀ j, t.isle j = { s.isle j with tcache := (t.isle j).tcache }
  die  : ∀ j, t.die j = { s.die j with walks := (t.die j).walks, cache := (t.die j).cache }

namespace OnlyRead

theorem refl (s : State) : OnlyRead s s := ⟨rfl, fun _ => rfl, fun _ => rfl, fun _ => rfl⟩

theorem trans {s t u : State} (h : OnlyRead s t) (g : OnlyRead t u) : OnlyRead s u where
  rest := by rw [g.rest, h.rest]
  core j := by rw [g.core j, h.core j]
  isle j := by rw [g.isle j, h.isle j]
  die j := by rw [g.die j, h.die j]

theorem of_translated {s t : State} (h : Translated s t) : OnlyRead s t where
  rest := by rw [h.rest]
  core := h.core
  isle := h.isle
  die j := by rw [h.die j]

section Fields

variable {s t : State} (h : OnlyRead s t)
include h

theorem mem : t.mem = s.mem := by rw [h.rest]
theorem posts : t.posts = s.posts := by rw [h.rest]
theorem nodes : t.nodes = s.nodes := by rw [h.rest]
theorem fcore : t.fcore = s.fcore := by rw [h.rest]
theorem part (p : Nat) : t.part p = s.part p := by rw [h.rest]; rfl
theorem partAt (k : Nat) : t.partAt k = s.partAt k := by rw [h.rest]; rfl
theorem rc (k : Nat) : t.rc k = s.rc k := by unfold State.rc; rw [h.core k]
theorem cells (k : Nat) : (t.core k).cells = (s.core k).cells := by rw [h.core k]

end Fields

/-- A tile changes its state, and no cache holds it any longer. -/
theorem setTileSt (s : State) (pt tile pa st : Nat) : OnlyRead s (s.setTileSt pt tile pa st) where
  rest := rfl
  core _ := rfl
  isle _ := rfl
  die j := by
    let dropped (d : Die) : Die := { d with cache := d.cache.filter (fun c => c.key != cacheKey pt tile) }
    have h : aget (s.setTileSt pt tile pa st).dies j = (aget s.dies j).map dropped := aget_map s.dies (fun _ => dropped) j
    unfold State.die
    rw [h]
    cases aget s.dies j <;> rfl

/-- A die caches a tile's plaintext. -/
theorem cached (s : State) (d : Nat) (f : Die → List Plain) : OnlyRead s (s.modDie d (fun x => { x with cache := f x })) where
  rest := rfl
  core _ := rfl
  isle _ := rfl
  die j := by
    rw [State.die_modDie]
    split
    · subst_vars; rfl
    · rfl

end OnlyRead

theorem translate_onlyRead (s : State) (k pt va : Nat) (write : Bool) : OnlyRead s (s.translate k pt va write).1 := .of_translated (translate_spec s k pt va write)

theorem fill_onlyRead (s : State) (k pt tile : Nat) : OnlyRead s (s.fill k pt tile).1 := by
  have tr := translate_onlyRead s k pt (tile * 2048) false
  unfold State.fill
  split
  · next hq => rwa [hq] at tr
  · next t pa hq =>
    rw [hq] at tr
    split
    · exact tr
    · dsimp only
      split
      · exact tr
      · split
        · exact tr
        · split
          · exact tr.trans (.cached t (dieOf k) fun x => (_ :: x.cache).take cacheTiles)
          · exact tr.trans (.setTileSt t pt tile pa 2)
      · exact tr
      · exact tr

theorem readTiles_onlyRead (s : State) (k pt va n : Nat) (place : Nat → Nat) : OnlyRead s (s.readTiles k pt va n place).1 := by
  unfold State.readTiles
  refine foldl_inv (P := fun (acc : State × Except (Nat × Nat) (List Byte)) => OnlyRead s acc.1) (fun acc g h => ?_) _ _ (.refl s)
  obtain ⟨t, r⟩ := acc
  have fl := h.trans (fill_onlyRead t k pt (place g.1))
  split
  · next heq => cases heq; exact h
  · next heq =>
    cases heq
    split <;> next hq => rwa [hq] at fl

theorem readVA_onlyRead {s t : State} {k pt va n : Nat} {r : Except (Nat × Nat) (List Byte)} (h : s.readVA k pt va n = (t, r)) : OnlyRead s t := by
  have := readTiles_onlyRead s k pt va n id
  unfold State.readVA at h
  rwa [h] at this

end Sys2Proof.Machine
end

section
/-! Phases as a region controller runs them: configuration, iteration spaces, stream specifications, the beginning of a phase (R57 to R59, R251 to R255). -/

namespace Sys2Proof.Machine

/-! ## The beginning of a phase -/

/-- A region's memory cells acquire: the controllers, the cells and memory are as they were. -/
theorem State.cellsAcquire_noted (s : State) (cores : List Nat) (c : Clr) : Noted s (s.cellsAcquire cores c).1 ∧ (s.cellsAcquire cores c).1.mem = s.mem := by
  unfold State.cellsAcquire
  refine foldl_inv (P := fun (acc : Did Unit) => Noted s acc.1 ∧ acc.1.mem = s.mem) (fun acc k ha => ?_) _ _ ⟨.refl s, rfl⟩
  refine foldl_inv (P := fun (acc : Did Unit) => Noted s acc.1 ∧ acc.1.mem = s.mem) (fun acc h ha => ?_) _ _ ha
  split
  · next t _ =>
    obtain ⟨hn, hm⟩ := State.acquire_noted (s := t) (k := k) (h := h) (c := c) rfl
    exact ⟨ha.1.trans hn, hm.trans ha.2⟩
  · exact ha

/-- The generator of a specification is switched on, from its first point. -/
def State.switchOn (s : State) (x : SpecRec) : State := s.modCell x.core x.cell (fun c => { c with gen := { on := true } })

theorem SameRc.switchOn (s : State) (x : SpecRec) : SameRc s (s.switchOn x) := fun k => State.rc_modCell s x.core x.cell k _

theorem State.gen_switchOn (s : State) (y : SpecRec) (k l : Nat) :
    ((s.switchOn y).cell k l).gen = if k = y.core ∧ l = y.cell then { on := true } else (s.cell k l).gen := by
  unfold State.switchOn
  rw [State.cell_modCell]
  split <;> rfl

theorem State.gen_switchOn_all (l : List SpecRec) (s : State) {x : SpecRec} (hx : x ∈ l ∨ (s.cell x.core x.cell).gen = { on := true }) :
    ((l.foldl State.switchOn s).cell x.core x.cell).gen = { on := true } := by
  induction l generalizing s with
  | nil => simpa using hx
  | cons y l ih =>
    refine ih _ ?_
    rw [State.gen_switchOn]
    split
    · exact .inr rfl
    · next hne =>
      refine hx.imp_left fun hm => (List.mem_cons.mp hm).resolve_left ?_
      rintro rfl
      exact hne ⟨rfl, rfl⟩

/-- What GO makes of its controller as the phase begins (R79, R255). -/
def Rc.begun (r : Rc) : Rc :=
  { r with phase := r.phase + 1, inPhase := true, aborting := false, residue := false, ended := 0, word := (r.phase + 1) % 2 ^ 16 * 2 ^ 32, poisonP := 0, barc := [] }

/-- The state in which the memory cells of a region acquire as a phase of it begins. -/
def State.restarted (s : State) (k : Nat) : State :=
  let cores := s.regionCores k
  { (s.release k 8).1 with cores := (s.release k 8).1.cores.map (fun (e : Nat × Core) =>
    (e.1, (if cores.contains e.1 then e.2.restart else e.2).restartOrds cores (cores.contains e.1))) }

theorem State.startPhase_eq (s : State) (k : Nat) : s.startPhase k =
    (((((s.restarted k).rc k).specs.foldl State.switchOn (s.restarted k)).modRc k Rc.begun).cellsAcquire (s.regionCores k) (dropClr (s.regionCores k) (s.release k 8).2)) := rfl

theorem SameRc.restarted (s : State) (k : Nat) : SameRc s (s.restarted k) := by
  refine SameRc.trans (fun j => (s.release_noted k 8).1.rc j) ?_
  refine SameRc.mapCores _ (fun j c => (if (s.regionCores k).contains j then c.restart else c).restartOrds (s.regionCores k) ((s.regionCores k).contains j)) fun j c => ?_
  split <;> rfl

theorem State.startPhase_spec {s t : State} {k : Nat} {r : Except Fail Unit} (h : s.startPhase k = (t, r)) :
    t.mem = s.mem ∧ t.rc k = (s.rc k).begun ∧ ∀ x ∈ (s.rc k).specs, (t.cell x.core x.cell).gen = { on := true } := by
  have same : SameRc s _ := (SameRc.restarted s k).trans (.foldl State.switchOn SameRc.switchOn ((s.restarted k).rc k).specs _)
  have mem : (((s.restarted k).rc k).specs.foldl State.switchOn (s.restarted k)).mem = s.mem := foldl_keeps State.mem State.switchOn (fun _ _ => rfl) _ _
  have gens := fun x hx => State.gen_switchOn_all ((s.restarted k).rc k).specs (s.restarted k) (x := x) (.inl hx)
  rw [State.startPhase_eq] at h
  generalize ((s.restarted k).rc k).specs.foldl State.switchOn (s.restarted k) = u at h same mem gens
  obtain ⟨noted, kept⟩ := (u.modRc k Rc.begun).cellsAcquire_noted (s.regionCores k) (dropClr (s.regionCores k) (s.release k 8).2)
  rw [h] at noted kept
  refine ⟨kept.trans mem, ?_, fun x hx => ?_⟩
  · rw [noted.rc k, State.rc_modRc, if_pos rfl, same k]
  · have : t.cell x.core x.cell = u.cell x.core x.cell := by rw [show t.cell x.core x.cell = (u.modRc k Rc.begun).cell x.core x.cell by unfold State.cell; rw [noted.cells], State.cell_modRc]
    rw [this]
    exact gens x (by rwa [SameRc.restarted s k k])

/-! ## The instructions -/

/-- A change of the executing controller, and the next instruction. -/
theorem RcTo.modRc_next (s : State) (f : Rc → Rc) (n : Nat) : RcTo s ((s.modRc s.fcore f).rcNext s.fcore n) (Rc.skip n ∘ f) :=
  (RcTo.modRc s f).trans (RcTo.next (s.modRc s.fcore f) n)

theorem RcTo.congr_rc {s t : State} {f g : Rc → Rc} (h : RcTo s t f) (hfg : f (s.rc s.fcore) = g (s.rc s.fcore)) : RcTo s t g := ⟨h.only, h.rc.trans hfg⟩

theorem spaceOk_of_bounds {es : List Nat} (h : ∀ x ∈ es, 1 ≤ x ∧ x ≤ 2 ^ 20) (hp : es.prod ≤ 2 ^ 40) : spaceOk es = true := by
  have prod : es.foldl (· * ·) 1 = es.prod := List.prod_eq_foldl.symm
  simp only [spaceOk, prod, Bool.and_eq_true, List.all_eq_true, decide_eq_true_eq]
  exact ⟨h, hp⟩

theorem State.rcCfgw_waits {s : State} (h : (s.rc s.fcore).loads ≠ []) (f : State → State) : s.rcCfgw f = s := by
  simp [State.rcCfgw, h]

theorem State.rcCfgw_goes {s : State} (h : (s.rc s.fcore).loads = []) (hr : (s.rc s.fcore).refused = none) (f : State → State) : s.rcCfgw f = f s := by
  simp [State.rcCfgw, h, hr]

theorem State.rcGo_waits {s : State} (h : (s.rc s.fcore).loads ≠ []) : s.rcGo = s := by
  unfold State.rcGo
  exact State.rcCfgw_waits h _

theorem State.rcGo_begins {s t : State} {u : Unit} (hl : (s.rc s.fcore).loads = []) (hr : (s.rc s.fcore).refused = none) (hp : (s.rc s.fcore).inPhase = false)
    (ha : (s.rc s.fcore).applied = true) (hs : s.startPhase s.fcore = (t, .ok u)) : s.rcGo = t.rcNext s.fcore 4 := by
  unfold State.rcGo
  rw [State.rcCfgw_goes hl hr]
  simp [hp, ha, hs]

theorem State.rcSpec_adds {s t : State} {d ext : Nat} {b : List Byte} (hd : d < 8) (hv : s.readVA s.fcore (s.partAt s.fcore) ((s.rc s.fcore).image + ext) 64 = (t, .ok b))
    (hb : fld b 0x28 1 < 64) (hc : t.specCause s.fcore (t.regionCores s.fcore) ⟨s.fcore + fld b 0x28 1, d, b⟩ = none) :
    s.rcSpec d ext = (t.modRc s.fcore (fun r => { r with
      specs := r.specs.filter (fun y => !(y.core == s.fcore + fld b 0x28 1 && y.handle == d)) ++ [⟨s.fcore + fld b 0x28 1, d, b⟩] })).rcNext s.fcore 8 := by
  unfold State.rcSpec
  simp only [Nat.not_le.mpr hd, if_false, hv, Nat.not_le.mpr hb, hc]

/-- Settles O34: each instruction's next state is its change of the controller; GO's is the beginning of the phase. -/
theorem rcPhases : Obligations.RcPhases := by
  unfold Obligations.RcPhases
  intro s a n e r
  refine ⟨fun hp => ⟨_, ?cfg, RcTo.modRc_next s (fun r => { r with loads := r.loads ++ [e] }) 8⟩, fun hl => ?waits, fun hl hr => ⟨_, ?cfgw, RcTo.next s 4⟩, fun hn hx hprod => ⟨_, ?iter, RcTo.modRc_next s (fun r => { r with space := (List.range (n + 1)).map fun j => (s.qv (a + j)).toNat }) 4⟩,
    fun hl hr hp ha hs => ?go, ?abortr, fun d t b hd hv hb hc => ?spec⟩
  case cfg =>
    show Host.Outcome.next (s.rcCfg e) = _
    simp [State.rcCfg, show (s.rc s.fcore).inPhase = false from hp]
  case waits => exact ⟨congrArg Host.Outcome.next (State.rcCfgw_waits hl _), congrArg Host.Outcome.next (State.rcGo_waits hl)⟩
  case cfgw => exact congrArg Host.Outcome.next (State.rcCfgw_goes hl hr _)
  case iter =>
    show Host.Outcome.next (s.rcIter a n) = _
    simp only [State.rcIter, State.q_eq, Nat.not_lt.mpr hn, if_false, spaceOk_of_bounds hx hprod, Bool.not_true, Bool.false_eq_true]
  case go =>
    rcases hst : s.startPhase s.fcore with ⟨t, q⟩
    rw [hst] at hs
    cases hs
    obtain ⟨mem, rc, gens⟩ := State.startPhase_spec hst
    have rc' : (t.rcNext s.fcore 4).rc s.fcore = Rc.skip 4 r.begun := by
      unfold State.rcNext
      rw [State.rc_modRc, if_pos rfl, rc]
      rfl
    refine ⟨t.rcNext s.fcore 4, congrArg Host.Outcome.next (State.rcGo_begins hl hr hp ha hst), mem, ?_, ?_, ?_, ?_, ?_, fun x hx => ?_⟩
    iterate 5 rw [rc']; rfl
    exact (congrArg Cell.gen (State.cell_modRc t s.fcore x.core x.cell _)).trans (gens x hx)
  case abortr =>
    refine ⟨s.rcAbortr, rfl, ?_⟩
    unfold State.rcAbortr
    dsimp only
    split
    · next hp => exact (RcTo.modRc_next s _ 4).congr_rc (by simp [Rc.skip, hp])
    · next hp => exact (RcTo.next s 4).congr_rc (by simp [Rc.skip, hp])
  case spec =>
    have read := readVA_onlyRead hv
    refine ⟨_, congrArg Host.Outcome.next (State.rcSpec_adds hd hv hb hc), ?_⟩
    exact read.fcore ▸ RcTo.modRc_next t _ 8

end Sys2Proof.Machine
end

section
/-! Nodes as the region controller treats them: submission, dependences, states, PIN (R72, R74, R75, R77, R80, R259, R265). -/

namespace Sys2Proof.Machine

/-! ## Submission -/

theorem State.aget_modNode (s : State) (n : Nat) (f : Node → Node) : aget (s.modNode n f).nodes n = (aget s.nodes n).map f := by
  unfold State.modNode
  cases h : aget s.nodes n with
  | none => exact h
  | some v => exact aget_aset_same _ _ _

theorem State.modNode_rest (s : State) (n : Nat) (f : Node → Node) : s.modNode n f = { s with nodes := (s.modNode n f).nodes } := by
  unfold State.modNode
  split <;> rfl

/-- A node that waits is cancelled: it alone differs among nodes, and its event is posted. -/
theorem State.cancelNode_waiting {s : State} {n : Nat} {v : Node} (hv : aget s.nodes n = some v) (hw : v.st = 0) :
    let t := s.cancelNode n
    aget t.nodes n = some { v with st := 5 } ∧ t = { s with nodes := t.nodes, posts := t.posts, seqs := t.seqs } := by
  have leave : s.leavePool n = s := by simp [State.leavePool, hv, hw]
  have eq : s.cancelNode n = (s.modNode n (fun v => { v with st := 5 })).post v.part 3 (schedKey v.die) v.die (leBytes 8 v.va) false := by
    simp [State.cancelNode, hv, leave]
  rw [eq]
  refine ⟨?_, ?_⟩
  · rw [State.post_nodes, State.aget_modNode, hv]
    rfl
  · rw [State.modNode_rest]
    rfl

/-- A node enters the ready pool: it alone differs among nodes. -/
theorem State.enterPool_ready {s : State} {n die : Nat} {v : Node} (hv : aget s.nodes n = some v) :
    let t := s.enterPool n die
    aget t.nodes n = some { v with st := 1, since := s.time, aged := 0, die := if v.pinned then v.pisle / 4 else die } ∧ t = { s with nodes := t.nodes, dies := t.dies } := by
  unfold State.enterPool
  rw [hv]
  refine ⟨?_, ?_⟩
  · rw [State.modDie_nodes, State.aget_modNode, hv]
    rfl
  · dsimp only
    rw [State.modNode_rest]
    rfl

/-- What the admission of a node leaves, the node aside: the controllers and the next node's number. -/
theorem State.admitNode_spec (s : State) (v : Node) (preds die : Nat) (hw : v.st = 0) :
    let t := s.admitNode v preds die
    t.cores = s.cores ∧ t.fcore = s.fcore ∧ t.nodeNext = s.nodeNext + 1 ∧
    ∃ w, aget t.nodes s.nodeNext = some w ∧ w.handle = v.handle ∧ w.va = v.va ∧ w.part = v.part ∧ w.image = v.image ∧
      w.st = if s.doomed.contains (v.part, v.va) then 5 else if preds = 0 then 1 else 0 := by
  unfold State.admitNode
  dsimp only
  generalize hs1 : ({ s with nodes := _, nodeNext := _, early := _, doomed := _ } : State) = s1
  obtain ⟨v1, hv1, same⟩ : ∃ v1, aget s1.nodes s.nodeNext = some v1 ∧ v1 = { v with die := die, acq := v1.acq } := ⟨_, by rw [← hs1]; exact aget_aset_same _ _ _, rfl⟩
  have cores : s1.cores = s.cores := by rw [← hs1]
  have fcore : s1.fcore = s.fcore := by rw [← hs1]
  have next : s1.nodeNext = s.nodeNext + 1 := by rw [← hs1]
  clear hs1
  split
  · obtain ⟨node, rest⟩ := State.cancelNode_waiting hv1 (by rw [same]; exact hw)
    rw [rest]
    exact ⟨cores, fcore, next, _, node, by rw [same], by rw [same], by rw [same], by rw [same], rfl⟩
  · split
    · obtain ⟨node, rest⟩ := State.enterPool_ready (die := die) hv1
      rw [rest]
      exact ⟨cores, fcore, next, _, node, by rw [same], by rw [same], by rw [same], by rw [same], rfl⟩
    · exact ⟨cores, fcore, next, v1, hv1, by rw [same], by rw [same], by rw [same], by rw [same], by rw [same]; exact hw⟩

/-- NDSUB of a record that is not refused, under a handle that is free. -/
theorem State.rcNdsub_admits {s t u w : State} {d a len h : Nat} {rcd : List Byte} (ha : (s.qv a).toNat % 64 = 0)
    (hv : s.readVA s.fcore (s.partAt s.fcore) (s.qv a).toNat 64 = (t, .ok rcd))
    (hc : t.recordCause s.fcore rcd (nodeOf rcd (s.qv a).toNat (s.partAt s.fcore) (t.submitter s.fcore)) = none)
    (hl : t.progLenOf s.fcore (nodeOf rcd (s.qv a).toNat (s.partAt s.fcore) (t.submitter s.fcore)) = (u, .ok len)) (hn : len ≤ 65536) (hh : u.newHandle = (some h, w)) :
    s.rcNdsub d a = (w.admitNode { nodeOf rcd (s.qv a).toNat (s.partAt s.fcore) (t.submitter s.fcore) with handle := h } (bits (fld rcd 4 4) 15 0) (dieOf s.fcore % 4)).rcPut d h := by
  unfold State.rcNdsub
  simp only [State.q_eq, ha, ne_eq, not_true, if_false, hv, hc, hl, Nat.not_lt.mpr hn, hh]

/-! ## States of nodes -/

theorem Noted.mapCores (s : State) (f : Nat → Core → Core) (hc : ∀ k c, (f k c).cells = c.cells) (hr : ∀ k c, (f k c).rc = c.rc) :
    Noted s { s with cores := s.cores.map (fun e => (e.1, f e.1 e.2)) } where
  rest := rfl
  cells k := by
    simp only [State.core, aget_map]
    cases aget s.cores k with
    | none => rfl
    | some c => exact hc k c
  rc := SameRc.mapCores s f hr

theorem State.settleSet_noted (s : State) (c : Clr) : Noted s (s.settleSet c) :=
  .mapCores s (fun _ (x : Core) => { x with words := x.words.map _ }) (fun _ _ => rfl) fun _ _ => rfl

theorem State.takeSet_noted (s : State) (k : Nat) (c : Clr) : Noted s (s.takeSet k c).1 ∧ (s.takeSet k c).1.mem = s.mem := by
  unfold State.takeSet
  dsimp only
  split
  · exact ⟨.refl s, rfl⟩
  · exact ⟨s.settleSet_noted c, rfl⟩

/-- An RC that can take a set takes it and goes on. -/
theorem State.rcTake_goes {s : State} {c : Clr} (h : let r := s.takeSet s.fcore c; (r.1.acquire s.fcore 8 r.2).2 = .ok ()) (f : State → State) :
    ∃ u, s.rcTake c f = f u ∧ Noted s u ∧ u.mem = s.mem := by
  obtain ⟨noted, mem⟩ := s.takeSet_noted s.fcore c
  rcases hq : (s.takeSet s.fcore c).1.acquire s.fcore 8 (s.takeSet s.fcore c).2 with ⟨u, r⟩
  obtain ⟨noted', mem'⟩ := State.acquire_noted hq
  obtain rfl : r = .ok () := by simpa [hq] using h
  exact ⟨u, by simp [State.rcTake, hq], noted.trans noted', mem'.trans mem⟩

/-- A value that an RC puts once it has taken a set. -/
theorem State.reads_of_take {s : State} {i : Instr} {c : Clr} {d v : Nat} (hx : exec i s = .next (s.rcTake c (·.rcPut d v)))
    (h : let r := s.takeSet s.fcore c; (r.1.acquire s.fcore 8 r.2).2 = .ok ()) : s.Reads i (Rc.put d (BitVec.ofNat 64 v) 4) := by
  obtain ⟨u, eq, noted, mem⟩ := State.rcTake_goes h (·.rcPut d v)
  have put := RcTo.put u d v
  exact ⟨u, u.rcPut d v, hx.trans (congrArg _ eq), noted, put, put.mem.trans mem⟩

section Issued

variable {s : State} {d a n : Nat} {v : Node} (hi : s.issuedNode s.fcore (s.qv a).toNat = some (n, v))
include hi

theorem State.rcNodeState_waits (hv : v.st < 3) : s.rcNodeState d a true = s := by
  simp [State.rcNodeState, State.q_eq, hi, hv]

theorem State.rcNodeState_takes (wait : Bool) (hv : wait = true → 3 ≤ v.st) :
    s.rcNodeState d a wait = s.rcTake (if wait && v.st == 3 then v.clr else []) (·.rcPut d v.st) := by
  have : (wait && decide (v.st < 3)) = false := by simpa using hv
  simp [State.rcNodeState, State.q_eq, hi, this]

end Issued

/-! ## Dependences -/

section Depends

variable {s : State} {d a b n : Nat} {v : Node} (hi : s.issuedNode s.fcore (s.qv a).toNat = some (n, v))
  (hb : s.nodes.any (fun m => m.2.part == s.partAt s.fcore && m.2.va == (s.qv b).toNat) = false)
include hi hb

theorem State.rcNddep_completed (hv : v.st = 3) :
    s.rcNddep d a b = ({ s with early := s.early ++ [(s.partAt s.fcore, (s.qv b).toNat, v.clr)] } : State).rcPut d 0 := by
  simp only [State.rcNddep, State.q_eq, hi, hb, Bool.false_eq_true, if_false, hv, if_true]

theorem State.rcNddep_terminated (hv : 3 < v.st) : s.rcNddep d a b =
    ({ s with doomed := if s.doomed.contains (s.partAt s.fcore, (s.qv b).toNat) then s.doomed else s.doomed ++ [(s.partAt s.fcore, (s.qv b).toNat)] } : State).rcPut d 2 := by
  simp only [State.rcNddep, State.q_eq, hi, hb, Bool.false_eq_true, if_false, Nat.ne_of_gt hv, hv, if_true]

theorem State.rcNddep_links (hv : v.st < 3) (hl : (s.die (dieOf s.fcore % 4)).links < 1024) {t : State} {m : Nat}
    (ht : s.stepPreds s.fcore (s.partAt s.fcore) (s.qv b).toNat true = (t, .ok m)) : s.rcNddep d a b =
    ((t.modNode n (fun v => { v with links := v.links ++ [((s.qv b).toNat, dieOf s.fcore % 4)] })).modDie (dieOf s.fcore % 4) (fun x => { x with links := x.links + 1 })).rcPut d 1 := by
  simp only [State.rcNddep, State.q_eq, hi, hb, Bool.false_eq_true, if_false, Nat.ne_of_lt hv, Nat.not_lt.mpr hv.le, Nat.not_le.mpr hl, ht]

end Depends


/-! ## PIN -/

theorem State.rcPin_again {s : State} {v : Node} (hv : aget s.nodes (s.rc s.fcore).node = some v) (hs : v.standing = true) (hp : (s.rc s.fcore).pinned = true) :
    s.rcPin = s.rcNext s.fcore 4 := by
  simp [State.rcPin, hv, hs, hp]

theorem State.rcPin_releases {s t : State} {v : Node} {u : Unit} (hv : aget s.nodes (s.rc s.fcore).node = some v) (hs : v.standing = true) (hp : (s.rc s.fcore).pinned = false)
    (ht : (s.release s.fcore 8).1.releaseSuccessors s.fcore (s.rc s.fcore).node (s.release s.fcore 8).2 = (t, .ok u)) :
    s.rcPin = ((t.modNode (s.rc s.fcore).node (fun v => { v with sent := true })).modRc s.fcore (fun c => { c with pinned := true })).rcNext s.fcore 4 := by
  simp [State.rcPin, hv, hs, hp, ht]

/-- Settles O41: each instruction's next state, from what its conditions let it do. -/
theorem rcNodes : Obligations.RcNodes := by
  unfold Obligations.RcNodes
  intro s d a b k va ra pt die
  refine ⟨fun ha t rcd u len h w hv hc hl hn hh hw => ?sub, fun n v hi => ⟨fun hb => ⟨fun hv => ?completed, fun hv => ?terminated, fun hv hlinks t m ht => ?links⟩, fun ht => ?stat, fun hv => ?waits,
    fun hv ht => ?wait⟩, fun v hv hs => ⟨fun hp => ⟨_, ?again, RcTo.next s 4⟩, fun hp t ht hk => ?pin⟩⟩
  case sub =>
    let node : Node := { nodeOf rcd va pt (t.submitter k) with handle := h }
    obtain ⟨cores, fcore, next, v, hv', handle, va', part, image, st⟩ := w.admitNode_spec node (bits (fld rcd 4 4) 15 0) (dieOf k % 4) rfl
    refine ⟨_, v, congrArg Host.Outcome.next (State.rcNdsub_admits ha hv hc hl hn hh), ?_⟩
    generalize w.admitNode node (bits (fld rcd 4 4) 15 0) (dieOf k % 4) = x at cores fcore next hv'
    have put := RcTo.put x d h
    have rc : (x.rcPut d h).rc k = Rc.put d (BitVec.ofNat 64 h) 4 (w.rc k) := by
      rw [← SameRc.of_cores cores k, ← hw, ← fcore]
      exact put.rc
    refine ⟨congrArg Rc.q rc, congrArg Rc.pc rc, ?_, ?_, handle, va', part, image, st⟩
    · rw [put.only.rest]
      exact next
    · rw [put.only.rest]
      exact hv'
  case completed => exact ⟨_, congrArg Host.Outcome.next (State.rcNddep_completed hi hb hv), RcTo.put _ d 0⟩
  case terminated =>
    refine ⟨_, congrArg Host.Outcome.next (State.rcNddep_terminated hi hb hv), ?_⟩
    generalize hd : (if s.doomed.contains (s.partAt s.fcore, (s.qv b).toNat) then s.doomed else s.doomed ++ [(s.partAt s.fcore, (s.qv b).toNat)]) = doomed
    have put := RcTo.put ({ s with doomed := doomed } : State) d 2
    have same : (({ s with doomed := doomed } : State).rcPut d 2).doomed = doomed := by rw [put.only.rest]
    rw [same]
    refine ⟨put, ?_⟩
    rw [← hd]
    split
    · next hm => simpa using hm
    · simp [pt, ra, k]
  case links =>
    refine ⟨_, congrArg Host.Outcome.next (State.rcNddep_links hi hb hv hlinks ht), ?_⟩
    generalize hl : t.modNode n (fun v => { v with links := v.links ++ [((s.qv b).toNat, dieOf s.fcore % 4)] }) = linked
    have rest : linked = { t with nodes := linked.nodes } := by
      rw [← hl]
      exact t.modNode_rest n _
    have put := RcTo.put (linked.modDie die (fun x => { x with links := x.links + 1 })) d 1
    generalize hx : (linked.modDie die (fun x => { x with links := x.links + 1 })).rcPut d 1 = x at put ⊢
    have same : ({ t with nodes := x.nodes, dies := x.dies } : State) = linked.modDie die (fun x => { x with links := x.links + 1 }) := by
      rw [put.only.rest, rest]
      rfl
    refine ⟨same ▸ put, ?_⟩
    have : x.die die = (linked.modDie die (fun x => { x with links := x.links + 1 })).die die := by
      rw [put.only.rest]
      rfl
    rw [this, State.die_modDie, if_pos rfl, rest]
    rfl
  case stat => exact State.reads_of_take (congrArg Host.Outcome.next (State.rcNodeState_takes hi false nofun)) ht
  case waits => exact congrArg Host.Outcome.next (State.rcNodeState_waits hi hv)
  case wait =>
    refine State.reads_of_take (congrArg Host.Outcome.next (State.rcNodeState_takes hi true fun _ => hv)) ?_
    simpa using ht
  case again => exact congrArg Host.Outcome.next (State.rcPin_again hv hs hp)
  case pin =>
    refine ⟨_, congrArg Host.Outcome.next (State.rcPin_releases hv hs hp ht), ?_⟩
    generalize hm : t.modNode (s.rc s.fcore).node (fun v => { v with sent := true }) = m
    have rest : m = { t with nodes := m.nodes } := by
      rw [← hm]
      exact t.modNode_rest _ _
    have fcore : m.fcore = s.fcore := by
      rw [rest]
      exact hk
    have put := RcTo.modRc_next m (fun c => { c with pinned := true }) 4
    rw [fcore] at put
    generalize (m.modRc s.fcore (fun c => { c with pinned := true })).rcNext s.fcore 4 = x at put ⊢
    have nodes : x.nodes = m.nodes := by rw [put.only.rest]
    have same : ({ t with nodes := x.nodes } : State) = m := by rw [nodes, rest]
    refine ⟨same ▸ put, fun w hw => ?_⟩
    rw [nodes, ← hm, State.aget_modNode, hw]
    rfl

end Sys2Proof.Machine
end

section
/-! What the node scheduler's own steps leave (R72 to R76, R80, R108, R265): no node leaves it, and no message of a host sink node does; what a launch reads, and the set that an RC takes. -/

namespace Sys2Proof.Machine

/-! ## Nodes stay -/

/-- The scheduler has the nodes that it had, and the transport the messages. -/
structure Stays (s t : State) : Prop where
  nodes : ∀ m, (aget t.nodes m).isSome = (aget s.nodes m).isSome
  out   : t.hostOut = s.hostOut

namespace Stays

theorem same {s t : State} (hn : t.nodes = s.nodes) (ho : t.hostOut = s.hostOut) : Stays s t := ⟨fun _ => by rw [hn], ho⟩
theorem refl (s : State) : Stays s s := .same rfl rfl
theorem trans {s t u : State} (h : Stays s t) (g : Stays t u) : Stays s u := ⟨fun m => (g.nodes m).trans (h.nodes m), g.out.trans h.out⟩

theorem foldl {β : Type} (f : State → β → State) (hf : ∀ s b, Stays s (f s b)) (l : List β) (s : State) : Stays s (l.foldl f s) :=
  foldl_inv (P := Stays s) (fun t b h => h.trans (hf t b)) l s (.refl s)

theorem of_read {s t : State} (h : OnlyRead s t) : Stays s t := .same h.nodes (by rw [h.rest])


theorem modNode (s : State) (n : Nat) (f : Node → Node) : Stays s (s.modNode n f) where
  nodes m := by
    unfold State.modNode
    cases h : aget s.nodes n with
    | none => rfl
    | some v =>
      simp only [aget_aset]
      split
      · subst_vars; rw [h]; rfl
      · rfl
  out := State.modNode_hostOut ..

theorem modDie (s : State) (d : Nat) (f : Die → Die) : Stays s (s.modDie d f) := .same rfl rfl
theorem postUnit (s : State) (q sev kind die inst c a d t : Nat) : Stays s (s.postUnit q sev kind die inst c a d t) := .same rfl rfl

theorem fill (s : State) (k pt tile : Nat) : Stays s (s.fill k pt tile).1 := .of_read (fill_onlyRead s k pt tile)

theorem sealed (s : State) (k pt tile : Nat) (src : Memory) (off : Nat) (bytes mask : List Byte) : Stays s (s.seal k pt tile src off bytes mask).1 := by
  have tr := of_read (translate_onlyRead s k pt (tile * 2048) true)
  unfold State.seal
  split
  · next hq => rwa [hq] at tr
  · next t pa hq =>
    rw [hq] at tr
    dsimp only
    split
    · exact tr
    · next q _ =>
      generalize (if (t.tileMeta pa).gen = q.gen then (t.tileMeta pa).version + 1 else 0) = version
      split
      · exact tr
      · dsimp only
        split <;> exact tr.trans (.same rfl rfl)

theorem writeVA (s : State) (k pt va : Nat) (bytes : List Byte) : Stays s (s.writeVA k pt va bytes).1 := by
  unfold State.writeVA
  refine foldl_inv (P := fun (acc : State × Except (Nat × Nat) (List Byte)) => Stays s acc.1) (fun acc g h => ?_) _ _ (.refl s)
  obtain ⟨t, r⟩ := acc
  split
  · next heq => cases heq; exact h
  · next heq =>
    cases heq
    dsimp only
    have fl : Stays s (if g.2.2 = 2048 then (t, Except.ok []) else t.fill k pt g.1).1 := by
      split
      · exact h
      · exact h.trans (.fill t k pt g.1)
    split
    · next hq => rwa [hq] at fl
    · next u src hq =>
      rw [hq] at fl
      have se := fun bytes => fl.trans (.sealed u k pt g.1 src g.2.1 bytes (List.replicate bytes.length 255))
      split <;> next hs => exact (congrArg (fun p => Stays s p.1) hs).mp (se _)

theorem releaseTile (s : State) (pt x : Nat) : Stays s (s.releaseTile pt x) := by
  have tr := of_read (translate_onlyRead s (s.part pt).supervisor pt (x * 2048) false)
  unfold State.releaseTile
  split
  · next hq => rwa [hq] at tr
  · next hq => rw [hq] at tr; exact tr.trans (.same rfl rfl)

theorem unhold (s : State) (pt : Nat) (p : Nat × Nat → Bool) : Stays s (s.unhold pt p) where
  nodes m := by
    have h : (s.unhold pt p).nodes = s.nodes.map (fun e => (e.1, if e.2.part = pt then { e.2 with held := released p e.2.held } else e.2)) :=
      List.map_congr_left fun e _ => by split <;> rfl
    rw [h, aget_map _ (fun _ (v : Node) => if v.part = pt then { v with held := released p v.held } else v)]
    exact Option.isSome_map
  out := rfl

theorem reclaim (s : State) (pt : Nat) (was : List Nat) : Stays s (s.reclaim pt was) := by
  unfold State.reclaim
  split
  · exact .refl s
  · exact (foldl (fun t x => t.releaseTile pt x) (fun t x => .releaseTile t pt x) _ s).trans (.unhold _ pt _)

theorem of_parted {s t : State} (h : Parted s t) : Stays s t := .same (by rw [h.rest]) (by rw [h.rest])

theorem leavePool (s : State) (n : Nat) : Stays s (s.leavePool n) := by
  unfold State.leavePool
  split
  · split
    · exact .modDie s _ _
    · exact .refl s
  · exact .refl s

theorem enterPool (s : State) (n die : Nat) : Stays s (s.enterPool n die) := by
  unfold State.enterPool
  split
  · exact .refl s
  · exact (Stays.modNode s n _).trans (.modDie _ _ _)

theorem stepPreds (s : State) (k pt va : Nat) (up : Bool) : Stays s (s.stepPreds k pt va up).1 := by
  unfold State.stepPreds
  split
  · next hq => exact .of_read (readVA_onlyRead hq)
  · next t b hq =>
    have rd : Stays s t := .of_read (readVA_onlyRead hq)
    dsimp only
    generalize hr : (if up = true then ((fld b 0 2 + 1) % 65536, t) else if fld b 0 2 = 0 then (t.free.1 % 65536, t.free.2) else (fld b 0 2 - 1, t)) = r
    have fr : Stays t r.2 := by
      subst hr
      split
      · exact .refl t
      · split
        · exact .same rfl rfl
        · exact .refl t
    have wr := (rd.trans fr).trans (.writeVA r.2 k pt (va + 4) (leBytes 2 r.1))
    split <;> next hw => rw [hw] at wr; exact wr

theorem releaseOne (s : State) (k pt die : Nat) (c : Clr) (va : Nat) : Stays s (s.releaseOne k pt die c va).1 := by
  have pr := Stays.stepPreds s k pt va false
  unfold State.releaseOne
  split
  · next hq => rwa [hq] at pr
  · next t left hq =>
    rw [hq] at pr
    dsimp only
    generalize hu : (if t.waitingAt pt va = [] then { t with early := t.early ++ [(pt, va, c)] } else _) = u
    have un : Stays t u := by
      subst hu
      split
      · exact .same rfl rfl
      · exact .foldl _ (fun t n => .modNode t n _) _ t
    split
    · exact (pr.trans un).trans (.foldl (fun t n => t.enterPool n die) (fun t n => .enterPool t n die) _ u)
    · exact pr.trans un

theorem dropLinks (s : State) (n : Nat) : Stays s (s.dropLinks n) := by
  unfold State.dropLinks
  split
  · exact .refl s
  · exact (foldl _ (fun t (e : Nat × Nat) => .modDie t e.2 _) _ s).trans (.modNode _ n _)

theorem succFrom (s : State) (k pt a n : Nat) : Stays s (s.succFrom k pt a n).1 := by
  induction n generalizing s a with
  | zero => unfold State.succFrom; split <;> next hq => exact .of_read (readVA_onlyRead hq)
  | succ n ih =>
    unfold State.succFrom
    split
    · next hq => exact .of_read (readVA_onlyRead hq)
    · next t b hq =>
      have rd : Stays s t := .of_read (readVA_onlyRead hq)
      split
      · exact rd
      · have more := rd.trans (ih t (a + 8))
        split
        · next hs => rwa [hs] at more
        · exact more

theorem successors (s : State) (k : Nat) (v : Node) : Stays s (s.successors k v).1 := by
  unfold State.successors
  split
  · exact .refl s
  · have sc := Stays.succFrom s k v.part v.succ 256
    split
    · next hq => rwa [hq] at sc
    · next t l more hq =>
      rw [hq] at sc
      dsimp only
      split
      · exact sc.trans (.postUnit ..)
      · exact sc

theorem releaseSuccessors (s : State) (k n : Nat) (c : Clr) : Stays s (s.releaseSuccessors k n c).1 := by
  unfold State.releaseSuccessors
  split
  · exact .refl s
  · next v _ =>
    have sc := Stays.successors s k v
    split
    · next hq => rwa [hq] at sc
    · next t l hq =>
      rw [hq] at sc
      have all := foldl_inv (P := fun (acc : State × Except (Nat × Nat) Unit) => Stays s acc.1) (f := fun acc va =>
          match acc with
          | (u, .ok _) => u.releaseOne k v.part (dieOf k % 4) c va
          | e => e) (fun acc va h => by
        obtain ⟨u, r⟩ := acc
        cases r with
        | error e => exact h
        | ok x => exact h.trans (.releaseOne u k v.part (dieOf k % 4) c va)) l (t, .ok ()) sc
      split
      · next hf => exact (congrArg (fun p => Stays s p.1) hf).mp all
      · next u x hf => exact ((congrArg (fun p => Stays s p.1) hf).mp all).trans (.dropLinks u n)

theorem discardShadows (s : State) (n : Nat) (v : Node) : Stays s (s.discardShadows n v) :=
  .foldl _ (fun t _ => (Stays.modNode t n _).trans (.postUnit ..)) _ s

theorem dropHandles (s : State) (owner : Nat) : Stays s (s.dropHandles owner) where
  nodes m := by
    have h : (s.dropHandles owner).nodes = s.nodes.map (fun e => (e.1, if e.2.owner = owner then { e.2 with owner := 0 } else e.2)) :=
      List.map_congr_left fun e _ => by split <;> rfl
    rw [h, aget_map _ (fun _ (v : Node) => if v.owner = owner then { v with owner := 0 } else v)]
    exact Option.isSome_map
  out := rfl

theorem cancelNode (s : State) (n : Nat) : Stays s (s.cancelNode n) := by
  unfold State.cancelNode
  split
  · exact .refl s
  · exact ((Stays.leavePool s n).trans (.modNode _ n _)).trans (.same rfl rfl)

theorem cancelOne (s : State) (pt va : Nat) : Stays s (s.cancelOne pt va) := by
  unfold State.cancelOne
  dsimp only
  split
  · exact .same rfl rfl
  · refine .foldl _ (fun t m => ?_) _ s
    split
    · exact .cancelNode t m.1
    · exact .refl t

end Stays

/-! ## What a launch reads -/

/-- What the accesses of a launch may change: what a read changes, and the buffers that the table registers anew (R105, R311). -/
def LaunchReads (s t : State) : Prop := t = { s with cores := t.cores, isles := t.isles, dies := t.dies, freeNo := t.freeNo, tiles := t.tiles, parts := t.parts }

namespace LaunchReads

theorem refl (s : State) : LaunchReads s s := rfl
theorem trans {s t u : State} (h : LaunchReads s t) (g : LaunchReads t u) : LaunchReads s u := by rw [LaunchReads, g, h]
theorem of_read {s t : State} (h : OnlyRead s t) : LaunchReads s t := by rw [LaunchReads, h.rest]

theorem readVA {s t : State} {k pt va n : Nat} {r : Except (Nat × Nat) (List Byte)} (h : s.readVA k pt va n = (t, r)) : LaunchReads s t := .of_read (readVA_onlyRead h)

theorem registerBuf (s : State) (k pt h : Nat) : LaunchReads s (s.registerBuf k pt h).1 := by
  unfold State.registerBuf
  split
  · next hq => exact .readVA hq
  · next t b hq => exact (LaunchReads.readVA hq).trans rfl

theorem launchOps {s t : State} {k pt : Nat} {ops : List Operand} {r : Except (Nat × Nat) (List Operand × Clr)} (h : s.launchOps k pt ops = (t, r)) : LaunchReads s t := by
  suffices ∀ s : State, LaunchReads s (s.launchOps k pt ops).1 by
    have := this s
    rwa [h] at this
  clear h
  induction ops with
  | nil => exact fun s => .refl s
  | cons o l ih =>
    intro s
    unfold State.launchOps
    split
    · have hr := ih s
      split
      · next hq => rwa [hq] at hr
      · exact hr
    · have rb := LaunchReads.registerBuf s k pt o.handle
      split
      · next hq => rwa [hq] at rb
      · next t b hq =>
        rw [hq] at rb
        have hr := rb.trans (ih t)
        split
        · next hq => rwa [hq] at hr
        · exact hr

end LaunchReads
end Sys2Proof.Machine
end

section
/-! Placing, aging and completing nodes (R72 to R76, R80, R108, R265, R374, R375). -/

namespace Sys2Proof.Machine

/-! ## A set that an RC takes -/

theorem Clr.keys_raise (c : Clr) (k : AgentKey) (n : Nat) : (Clr.raise c k n).map Prod.fst = if k ∈ c.map Prod.fst then c.map Prod.fst else c.map Prod.fst ++ [k] := by
  have mem : c.any (fun e => decide (e.1 = k)) = true ↔ k ∈ c.map Prod.fst := by simp
  unfold Clr.raise
  by_cases h : k ∈ c.map Prod.fst
  · rw [if_pos (mem.mpr h), if_pos h, List.map_map]
    refine List.map_congr_left fun e _ => ?_
    simp only [Function.comp]
    split
    · next he => exact he.symm
    · rfl
  · rw [if_neg (fun g => h (mem.mp g)), if_neg h]
    simp

/-- A merge adds the agents of the second set that the first does not have, each once. -/
theorem Clr.keys_merge (a b : Clr) : ∃ l : List AgentKey, (Clr.merge a b).map Prod.fst = a.map Prod.fst ++ l ∧ l.Nodup ∧ ∀ k, k ∈ l ↔ k ∈ b.map Prod.fst ∧ k ∉ a.map Prod.fst := by
  induction b generalizing a with
  | nil => exact ⟨[], by simp [Clr.merge], List.nodup_nil, by simp⟩
  | cons e b ih =>
    obtain ⟨l, keys, nodup, mem⟩ := ih (Clr.raise a e.1 e.2)
    rw [Clr.keys_raise] at keys mem
    by_cases h : e.1 ∈ a.map Prod.fst
    · rw [if_pos h] at keys mem
      refine ⟨l, keys, nodup, fun k => ?_⟩
      rw [mem, List.map_cons, List.mem_cons]
      constructor
      · rintro ⟨hb, ha⟩; exact ⟨.inr hb, ha⟩
      · rintro ⟨rfl | hb, ha⟩
        · exact absurd h ha
        · exact ⟨hb, ha⟩
    · rw [if_neg h] at keys mem
      refine ⟨e.1 :: l, by simpa [Clr.merge] using keys, List.nodup_cons.mpr ⟨fun hl => ((mem _).mp hl).2 (by simp), nodup⟩, fun k => ?_⟩
      rw [List.mem_cons, mem, List.map_cons, List.mem_cons, List.mem_append, List.mem_singleton]
      constructor
      · rintro (rfl | ⟨hb, ha⟩)
        · exact ⟨.inl rfl, h⟩
        · exact ⟨.inr hb, fun g => ha (.inl g)⟩
      · rintro ⟨rfl | hb, ha⟩
        · exact .inl rfl
        · by_cases hk : k = e.1
          · exact .inl hk
          · exact .inr ⟨hb, fun g => g.elim ha hk⟩

/-- A smaller set brings no more entries that count toward the 16. -/
theorem Clr.wide_merge_le {a b c : Clr} (k : Nat) (h : ∀ e ∈ b, e ∈ c) : Clr.wide (Clr.merge a b) k ≤ Clr.wide (Clr.merge a c) k := by
  let p (e : AgentKey) : Bool := !(e.route == 0 && e.core == k && decide (e.handle < 8))
  have count (x : Clr) : Clr.wide x k = (x.map Prod.fst).countP p := by
    rw [List.countP_map, List.countP_eq_length_filter]
    rfl
  obtain ⟨l, keys, nodup, mem⟩ := Clr.keys_merge a b
  obtain ⟨l', keys', -, mem'⟩ := Clr.keys_merge a c
  rw [count, count, keys, keys', List.countP_append, List.countP_append]
  refine Nat.add_le_add_left ((nodup.subperm fun x hx => ?_).countP_le p) _
  obtain ⟨hb, ha⟩ := (mem x).mp hx
  obtain ⟨e, he, rfl⟩ := List.mem_map.mp hb
  exact (mem' _).mpr ⟨List.mem_map_of_mem (h e he), ha⟩

theorem State.ord_settleSet (s : State) (c : Clr) (k h : Nat) : (s.settleSet c).ord k h = s.ord k h := by
  let old (r : AccRec) : Bool := decide (Clr.get c r.key ≤ r.count)
  let settled (x : Core) : Core := { x with words := x.words.map (fun w => (w.1, { w.2 with writes := w.2.writes.filter old, reads := w.2.reads.filter old })) }
  have map : (s.settleSet c).cores = s.cores.map (fun e => (e.1, settled e.2)) := rfl
  unfold State.ord State.core
  rw [map, aget_map s.cores (fun _ => settled)]
  cases aget s.cores k <;> rfl

theorem State.acquire_ok (s : State) (k h : Nat) (c : Clr) :
    (s.acquire k h c).2 = .ok () ↔ Clr.wide (Clr.merge (s.ord k h).clr (c.filter (fun e => e.1 ≠ (⟨0, k, h⟩ : AgentKey)))) k ≤ 16 := by
  unfold State.acquire Clr.wide
  dsimp only
  split
  · next hw => exact ⟨nofun, fun g => absurd hw (Nat.not_lt.mpr g)⟩
  · next hw => exact ⟨fun _ => Nat.not_lt.mp hw, fun _ => rfl⟩

/-- What an RC acquires whole it also takes (log 111). -/
theorem State.takeSet_acquires {s : State} {k : Nat} {c : Clr} (h : (s.acquire k 8 c).2 = .ok ()) : ((s.takeSet k c).1.acquire k 8 (s.takeSet k c).2).2 = .ok () := by
  unfold State.takeSet
  dsimp only
  split
  · exact h
  · rw [State.acquire_ok] at h ⊢
    rw [State.ord_settleSet]
    exact (Clr.wide_merge_le k fun e he => by simp only [List.mem_filter] at he ⊢; exact ⟨he.1.1, he.2⟩).trans h

/-! ## A node takes its cores -/

theorem State.leavePool_rest (s : State) (n : Nat) : s.leavePool n = { s with dies := (s.leavePool n).dies } := by
  unfold State.leavePool
  split
  · split <;> rfl
  · rfl

/-- A core is as a node finds it, its configuration stores empty. -/
def State.freshen (t : State) (k : Nat) : State := { (t.modCore k Core.fresh) with mem := clearConfig t.mem k }

theorem State.rc_freshen (t : State) (k j : Nat) : (t.freshen k).rc j = if j = k then {} else t.rc j := by
  show (t.modCore k Core.fresh).rc j = _
  simp only [State.rc, State.core_modCore]
  split
  · subst_vars; rfl
  · rfl

theorem State.rc_freshen_all (l : List Nat) (t : State) {j : Nat} (h : j ∈ l ∨ t.rc j = {}) : (l.foldl State.freshen t).rc j = {} := by
  induction l generalizing t with
  | nil => exact h.resolve_left (by simp)
  | cons k l ih =>
    refine ih (t.freshen k) ?_
    rw [State.rc_freshen]
    rcases h with h | h
    · rcases List.mem_cons.mp h with rfl | h
      · exact .inr (if_pos rfl)
      · exact .inl h
    · right
      split
      · rfl
      · exact h

theorem State.freshen_all_rest (l : List Nat) (t : State) : l.foldl State.freshen t = { t with cores := (l.foldl State.freshen t).cores, mem := (l.foldl State.freshen t).mem } :=
  foldl_inv (P := fun u : State => u = { t with cores := u.cores, mem := u.mem }) (fun u k h => by rw [State.freshen, h]; rfl) l t rfl

/-- A core whose agent has written words. -/
def Core.poked (c : Core) (a : Agent) (ws : List Nat) : Core :=
  { c.touchLines ws with words := ws.foldl (fun m w => aset m w (noteAccess a true 1 0 0 ((c.touchLines ws).wordRec w))) c.words }

theorem SameRc.poke (s : State) (k h off : Nat) (bytes : List Byte) : SameRc s (s.poke k h off bytes) :=
  (SameRc.modCore s k (·.poked (s.agent k h) (wordsOf off bytes.length)) fun _ => rfl).trans (SameRc.of_cores rfl)

/-- A node that has taken its rectangle: its region stands after the others, its RC begins at its entry. -/
theorem State.occupy_spec (s : State) {n : Nat} {v u : Node} {rect : List Nat} (block prog : List Byte) (off : Nat) (hr : rect ≠ []) (hu : aget s.nodes n = some u) :
    let t := s.occupy n v rect block prog off
    t.posts = s.posts ∧ aget t.nodes n = some { u with st := 2 } ∧
    t.regions = s.regions ++ [{ lead := rect.headD 0, w := v.w, h := v.h, stage := v.stage, node := n, part := v.part, tenant := v.tenant, standing := v.standing }] ∧
    t.rc (rect.headD 0) = { ({} : Rc) with
      mode := .running
      pc := v.entry
      progOff := off
      progLen := prog.length
      image := v.image
      node := n
      part := v.part } := by
  have lead : rect.headD 0 ∈ rect := by
    cases rect with
    | nil => exact absurd rfl hr
    | cons k l => exact List.mem_cons_self
  unfold State.occupy
  dsimp only
  rw [show (fun (t : State) (k : Nat) => ({ (t.modCore k Core.fresh) with mem := clearConfig t.mem k } : State)) = State.freshen from rfl]
  have rc := State.rc_freshen_all rect (s.leavePool n) (.inl lead)
  have rest := (State.freshen_all_rest rect (s.leavePool n))
  rw [s.leavePool_rest n] at rest
  rw [s.leavePool_rest n] at rc ⊢
  generalize rect.foldl State.freshen { s with dies := (s.leavePool n).dies } = f at rc rest ⊢
  generalize hw : ({ f with mem := _, regions := _ } : State) = w
  have wrc : w.rc (rect.headD 0) = {} := by rw [← hw]; exact rc
  have wposts : w.posts = s.posts := by rw [← hw, rest]
  have wnodes : w.nodes = s.nodes := by rw [← hw, rest]
  have wregions : w.regions = s.regions ++ [{ lead := rect.headD 0, w := v.w, h := v.h, stage := v.stage, node := n, part := v.part, tenant := v.tenant, standing := v.standing }] := by
    rw [← hw, rest]
  clear hw rest
  refine ⟨?_, ?_, ?_, ?_⟩
  · rw [State.modNode_posts]; exact wposts
  · rw [State.aget_modNode, show (((w.poke (rect.headD 0) 8 0 block).modRc (rect.headD 0) _).nodes) = w.nodes from rfl, wnodes, hu]; rfl
  · rw [State.modNode_regions]; exact wregions
  · rw [SameRc.of_cores (State.modNode_cores ..), State.rc_modRc, if_pos rfl, SameRc.poke, wrc]

/-- A node of another kind that has taken its core (R72, R76). -/
theorem State.seat_spec (s : State) {n : Nat} {v u : Node} {rect : List Nat} {ops : List Operand} (hu : aget s.nodes n = some u) :
    let t := s.seat n v rect ops
    t.posts = s.posts ∧ aget t.nodes n = some { u with st := 2, ops := ops } ∧
    t.regions = s.regions ++ [{ lead := rect.headD 0, w := 1, h := 1, stage := v.stage, node := n, part := v.part, tenant := v.tenant, standing := v.standing }] := by
  unfold State.seat
  dsimp only
  rw [s.leavePool_rest n]
  refine ⟨State.modNode_posts .., ?_, State.modNode_regions ..⟩
  rw [State.aget_modNode]
  show Option.map _ (aget s.nodes n) = _
  rw [hu]
  rfl

/-! ## Placement -/

section Placement

variable {s t1 t2 t3 t4 w : State} {n : Nat} {v : Node} {rect : List Nat} {args hd prog : List Byte} {ops : List Operand} {got : Clr}

theorem State.placeNode_none (h : s.nextNode s.pooled [] = none) : s.placeNode = s := by
  unfold State.placeNode
  rw [h]

theorem State.dispatchNode_goes (h1 : s.readVA (rect.headD 0) v.part v.args (8 * v.arglen) = (t1, .ok args)) (h2 : t1.launchOps (rect.headD 0) v.part v.ops = (t2, .ok (ops, got)))
    (h3 : t2.readVA (rect.headD 0) v.part (v.image + 0x1C) 8 = (t3, .ok hd)) (h4 : t3.readVA (rect.headD 0) v.part (v.image + fld hd 0 4) (min (fld hd 4 4) 65536) = (t4, .ok prog))
    (ha : (((t4.modNode n (fun v => { v with ops := ops })).occupy n v rect (launchBlock args ops) prog (fld hd 0 4)).acquire (rect.headD 0) 8 (Clr.merge v.acq got)).2 = .ok ()) :
    Noted ((t4.modNode n (fun v => { v with ops := ops })).occupy n v rect (launchBlock args ops) prog (fld hd 0 4)) (s.dispatchNode n v rect) := by
  unfold State.dispatchNode
  simp only [h1, h2, h3, h4]
  generalize (t4.modNode n (fun v => { v with ops := ops })).occupy n v rect (launchBlock args ops) prog (fld hd 0 4) = t5 at ha ⊢
  have taken := (t5.takeSet_noted (rect.headD 0) (Clr.merge v.acq got)).1
  rcases hq : (t5.takeSet (rect.headD 0) (Clr.merge v.acq got)).1.acquire (rect.headD 0) 8 (t5.takeSet (rect.headD 0) (Clr.merge v.acq got)).2 with ⟨u, r⟩
  have hr := State.takeSet_acquires ha
  rw [hq] at hr
  cases hr
  exact taken.trans (State.acquire_noted hq).1

theorem LaunchReads.readAll (h1 : s.readVA (rect.headD 0) v.part v.args (8 * v.arglen) = (t1, .ok args)) (h2 : t1.launchOps (rect.headD 0) v.part v.ops = (t2, .ok (ops, got)))
    (h3 : t2.readVA (rect.headD 0) v.part (v.image + 0x1C) 8 = (t3, .ok hd)) (h4 : t3.readVA (rect.headD 0) v.part (v.image + fld hd 0 4) (min (fld hd 4 4) 65536) = (t4, .ok prog)) :
    LaunchReads s t4 := (((LaunchReads.readVA h1).trans (.launchOps h2)).trans (.readVA h3)).trans (.readVA h4)

end Placement

section Placement

variable {s t1 t2 t3 : State} {n : Nat} {v : Node} {rect : List Nat} {args prog : List Byte} {ops : List Operand} {got : Clr}

theorem State.launchOther_goes (h1 : s.readVA (s.serverOf v.part) v.part v.args (8 * v.arglen) = (t1, .ok args)) (h2 : t1.launchOps (s.serverOf v.part) v.part v.ops = (t2, .ok (ops, got))) :
    s.launchOther n v rect = t2.seat n v rect ops := by
  unfold State.launchOther
  simp only [h1, h2]

theorem State.sendHost_closed (h1 : s.readVA (s.serverOf v.part) v.part v.args 8 = (t1, .ok args)) (h2 : t1.launchOps (s.serverOf v.part) v.part v.ops = (t2, .ok (ops, got)))
    (h : 64 ≤ fld args 0 8 ∨ bit (fld (t2.chanEntry v.part (64 + fld args 0 8)) 0 1) 0 = false) :
    s.sendHost n v rect = ((t2.postUnit v.part 2 6 v.die (fld args 0 8 % 64) 0x0BC 0 0 0).leavePool n).stopNode n := by
  have closed : 64 ≤ fld args 0 8 ∨ (!bit (fld (t2.chanEntry v.part (64 + fld args 0 8)) 0 1) 0) = true := by simpa using h
  unfold State.sendHost
  simp only [h1, h2]
  rw [if_pos closed]

theorem State.sendHost_sends (h1 : s.readVA (s.serverOf v.part) v.part v.args 8 = (t1, .ok args)) (h2 : t1.launchOps (s.serverOf v.part) v.part v.ops = (t2, .ok (ops, got)))
    (hc : fld args 0 8 < 64) (ho : bit (fld (t2.chanEntry v.part (64 + fld args 0 8)) 0 1) 0 = true)
    (h3 : t2.readTiles (s.serverOf v.part) v.part (ops.getD 0 {}).start (ops.getD 0 {}).size (ops.getD 0 {}).place = (t3, .ok prog)) :
    s.sendHost n v rect = { t3.seat n v rect ops with hostOut := t3.hostOut ++ [(n, fld args 0 8, prog)] } := by
  have isOpen : ¬(64 ≤ fld args 0 8 ∨ (!bit (fld (t2.chanEntry v.part (64 + fld args 0 8)) 0 1) 0) = true) := by simp [ho, hc]
  unfold State.sendHost
  simp only [h1, h2]
  rw [if_neg isOpen]
  simp only [h3]

end Placement

/-! ## Terminated at its launch -/

theorem Released.isSome {s : State} (pt : Nat) (was : List Nat) (n : Nat) : (aget (s.reclaim pt was).nodes n).isSome = (aget s.nodes n).isSome := (Stays.reclaim s pt was).nodes n

theorem Stays.stopNode (s : State) (n : Nat) : Stays s (s.stopNode n) := by
  unfold State.stopNode
  dsimp only
  generalize hm : s.modNode n (fun v => { v with st := 4, ops := v.ops.map (fun o => { o with shadow := [] }) }) = m
  have left : Stays s m := hm ▸ .modNode s n _
  have pool := left.trans (.reclaim m (s.partOfNode n) (s.busyTiles (s.partOfNode n)))
  generalize m.reclaim (s.partOfNode n) (s.busyTiles (s.partOfNode n)) = t at pool ⊢
  generalize hc : ({ t with cores := _ } : State) = c
  have copies : Stays t c := by subst hc; exact .same rfl rfl
  exact (pool.trans copies).trans (.of_parted ((Parted.loseNode c n).trans (.endMembers _ n)))

/-- A node that terminates has state 4. -/
theorem State.stopNode_st {s : State} {n : Nat} (h : (aget s.nodes n).isSome = true) : (aget (s.stopNode n).nodes n).map (·.st) = some 4 := by
  have here := (Stays.stopNode s n).nodes n
  rw [h] at here
  obtain ⟨v, hv⟩ := Option.isSome_iff_exists.mp here
  obtain ⟨-, -, -, -, st⟩ := State.stopNode_spec s n
  rw [hv, Option.map_some, st v hv]

/-! ## Aging -/

theorem State.ageNode_node (s : State) {n : Nat} {v : Node} (h : aget s.nodes n = some v) :
    aget (s.ageNode n).nodes n = some (if v.st = 1 ∧ v.since + (v.aged + 1) * agingCycles ≤ s.time ∧ v.prio + v.aged < 7 then { v with aged := v.aged + 1 } else v) := by
  unfold State.ageNode
  rw [State.aget_modNode, h]
  rfl

/-! ## Completion -/

/-- The node has completed, and its successors are released. -/
def State.Completed (s : State) (n : Nat) : Prop := ∃ o, aget s.nodes n = some o ∧ o.st = 3 ∧ o.sent = true

/-- How a node whose successors are released completes. -/
def State.completes (s : State) (n : Nat) (v : Node) (c : Clr) : State :=
  ((((s.discardShadows n v).endMembers n).dropHandles n).modNode n (fun v => { v with st := 3, sent := true, clr := c })).reclaim v.part (s.busyTiles v.part)

theorem State.completes_spec (s : State) {n : Nat} (v : Node) (c : Clr) (h : (aget s.nodes n).isSome = true) : (s.completes n v c).Completed n ∧ Stays s (s.completes n v c) := by
  have before := ((Stays.discardShadows s n v).trans (.of_parted (Parted.endMembers _ n))).trans (.dropHandles _ n)
  unfold State.completes
  generalize ((s.discardShadows n v).endMembers n).dropHandles n = t at before ⊢
  have mod := Stays.modNode t n (fun v => { v with st := 3, sent := true, clr := c })
  have node := t.aget_modNode n (fun v => { v with st := 3, sent := true, clr := c })
  generalize t.modNode n (fun v => { v with st := 3, sent := true, clr := c }) = u at mod node ⊢
  have all := (before.trans mod).trans (.reclaim u v.part (s.busyTiles v.part))
  refine ⟨?_, all⟩
  have here := all.nodes n
  rw [h] at here
  obtain ⟨o, ho⟩ := Option.isSome_iff_exists.mp here
  obtain ⟨w, hw, held⟩ := (State.reclaim_spec u v.part (s.busyTiles v.part)).nodes n o ho
  rw [node] at hw
  obtain ⟨x, -, hx⟩ := Option.map_eq_some_iff.mp hw
  exact ⟨o, ho, by rw [held, ← hx], by rw [held, ← hx]⟩

/-- A node completes: its successors are released, or were (R80, R259). -/
theorem State.completeNode_spec {s : State} {n k : Nat} {v : Node} {c : Clr} {t : State} (h : (aget s.nodes n).isSome = true)
    (hr : v.sent = true ∨ ∃ e, s.releaseSuccessors k n c = (t, .ok e)) : (s.completeNode n v k c).Completed n ∧ (s.completeNode n v k c).hostOut = s.hostOut := by
  cases hs : v.sent with
  | true =>
    have eq : s.completeNode n v k c = s.completes n v c := by
      unfold State.completeNode
      rw [hs]
      rfl
    obtain ⟨done, stays⟩ := s.completes_spec v c h
    exact eq ▸ ⟨done, stays.out⟩
  | false =>
    obtain ⟨e, ht⟩ := hr.resolve_left (by simp [hs])
    have eq : s.completeNode n v k c = t.completes n v c := by
      unfold State.completeNode
      simp only [hs, ht, Bool.false_eq_true, if_false]
      rfl
    have rel := Stays.releaseSuccessors s k n c
    rw [ht] at rel
    obtain ⟨done, stays⟩ := t.completes_spec v c ((rel.nodes n).trans h)
    exact eq ▸ ⟨done, stays.out.trans rel.out⟩

/-- A completed node's core goes back to the scheduler. -/
theorem State.Completed.unseat {s : State} {n : Nat} (h : s.Completed n) :
    (s.unseat n).Completed n ∧ (∀ r ∈ (s.unseat n).regions, r.node ≠ n) ∧ (s.unseat n).hostOut = s.hostOut := by
  obtain ⟨o, ho, st, sent⟩ := h
  have eq : s.unseat n = { s with regions := s.regions.filter (fun r => r.node != n), saved := s.saved.filter (fun x => x.node != n) } := by
    unfold State.unseat
    rw [if_neg (by simp [ho, st])]
  rw [eq]
  refine ⟨⟨o, ho, st, sent⟩, fun r hr => ?_, rfl⟩
  simpa using (List.mem_filter.mp hr).2

/-- A compute node completes: its region is gone, and its RC as reset leaves it. -/
theorem State.completeCompute_spec {s : State} {n : Nat} {v : Node} {g : Region} {t : State} (h : (aget s.nodes n).isSome = true)
    (hr : v.sent = true ∨ ∃ e, (s.release g.lead 8).1.releaseSuccessors g.lead n (s.release g.lead 8).2 = (t, .ok e)) :
    let u := s.completeCompute n v g
    u.Completed n ∧ (∀ r ∈ u.regions, r.lead ≠ g.lead) ∧ u.rc g.lead = {} := by
  obtain ⟨⟨o, ho, st, sent⟩, -⟩ := State.completeNode_spec (s := (s.release g.lead 8).1) (k := g.lead) (c := (s.release g.lead 8).2) h hr
  unfold State.completeCompute
  dsimp only
  generalize (s.release g.lead 8).1.completeNode n v g.lead (s.release g.lead 8).2 = u at ho
  rw [if_pos (by simp [ho, st])]
  refine ⟨⟨o, ho, st, sent⟩, fun r hr => ?_, by rw [State.rc_modRc, if_pos rfl]⟩
  have : r ∈ u.regions.filter (fun r => r.lead != g.lead) := hr
  simpa using (List.mem_filter.mp this).2

/-- A terminated or cancelled node's successors hear of it. -/
theorem State.cancelSuccessors_sent {s t : State} {n : Nat} {v : Node} {l : List Nat} (h : (aget s.nodes n).isSome = true) (hl : s.successors (s.serverOf v.part) v = (t, .ok l)) :
    ∃ o, aget (s.cancelSuccessors n v).nodes n = some o ∧ o.sent = true := by
  have succ := Stays.successors s (s.serverOf v.part) v
  rw [hl] at succ
  unfold State.cancelSuccessors
  simp only [hl]
  have all := ((succ.trans (.foldl _ (fun t va => .cancelOne t v.part va) l t)).trans (.dropLinks _ n)).trans (.dropHandles _ n)
  generalize ((l.foldl (fun t va => t.cancelOne v.part va) t).dropLinks n).dropHandles n = u at all ⊢
  have here := (all.nodes n).trans h
  obtain ⟨o, ho⟩ := Option.isSome_iff_exists.mp here
  exact ⟨{ o with sent := true }, by rw [State.aget_modNode, ho]; rfl, rfl⟩

/-! ## The events of a node -/

section Events

variable {s t1 t2 t3 t4 w : State} {n : Nat} {v : Node} {rect : List Nat} {args hd prog : List Byte} {ops : List Operand} {got : Clr}

theorem readTiles_reads {s t : State} {k pt va n : Nat} {place : Nat → Nat} {r : Except (Nat × Nat) (List Byte)} (h : s.readTiles k pt va n place = (t, r)) : OnlyRead s t := by
  have := readTiles_onlyRead s k pt va n place
  rwa [h] at this

/-! The node whose turn it is is placed by its kind. -/

section Kinds

variable (h : s.nextNode s.pooled [] = some (n, v, rect))
include h

theorem State.placeNode_compute (hk : v.kind = 0) : s.placeNode = s.dispatchNode n v rect := by simp [State.placeNode, h, hk]
theorem State.placeNode_ckpt (hk : v.kind = 3) : s.placeNode = s.seat n v rect v.ops := by simp [State.placeNode, h, hk]
theorem State.placeNode_sink (hk : v.kind = 4) : s.placeNode = s.sendHost n v rect := by simp [State.placeNode, h, hk]
theorem State.placeNode_other (hk : v.kind = 1 ∨ v.kind = 2) : s.placeNode = s.launchOther n v rect := by
  rcases hk with hk | hk <;> simp [State.placeNode, h, hk]

end Kinds

/-- A node whose operands have taken their snapshots. -/
theorem State.modNode_ops {s : State} {n : Nat} {v : Node} (ops : List Operand) (h : aget s.nodes n = some v) :
    aget (s.modNode n (fun v => { v with ops := ops })).nodes n = some { v with ops := ops } := by
  rw [State.aget_modNode, h]
  rfl

/-- A node takes cores as `o` says: its region stands after the others, its state and its operands are those of its launch, and no record is posted. -/
structure Launched (s t : State) (n : Nat) (v : Node) (lead w h : Nat) (o : List Operand) : Prop where
  regions : t.regions = s.regions ++ [{ lead := lead, w := w, h := h, stage := v.stage, node := n, part := v.part, tenant := v.tenant, standing := v.standing }]
  node    : aget t.nodes n = some { v with st := 2, ops := o }
  posts   : t.posts = s.posts

theorem State.seat_launched {s t : State} {n : Nat} {v : Node} {rect : List Nat} {ops : List Operand} (h : LaunchReads s t) (hv : aget s.nodes n = some v) :
    Launched s (t.seat n v rect ops) n v (rect.headD 0) 1 1 ops := by
  obtain ⟨posts, node, regions⟩ := t.seat_spec (v := v) (rect := rect) (ops := ops) (show aget t.nodes n = some v by rw [h]; exact hv)
  exact ⟨by rw [regions, h], node, by rw [posts, h]⟩

theorem State.dispatchNode_launched (hv : aget s.nodes n = some v) (hr : rect ≠ []) (h1 : s.readVA (rect.headD 0) v.part v.args (8 * v.arglen) = (t1, .ok args))
    (h2 : t1.launchOps (rect.headD 0) v.part v.ops = (t2, .ok (ops, got))) (h3 : t2.readVA (rect.headD 0) v.part (v.image + 0x1C) 8 = (t3, .ok hd))
    (h4 : t3.readVA (rect.headD 0) v.part (v.image + fld hd 0 4) (min (fld hd 4 4) 65536) = (t4, .ok prog))
    (ha : ((t4.modNode n (fun v => { v with ops := ops })).occupy n v rect (launchBlock args ops) prog (fld hd 0 4)).acquire (rect.headD 0) 8 (Clr.merge v.acq got) = (w, .ok ())) :
    Launched s (s.dispatchNode n v rect) n v (rect.headD 0) v.w v.h ops ∧ (s.dispatchNode n v rect).rc (rect.headD 0) = { ({} : Rc) with
      mode := .running
      pc := v.entry
      progOff := fld hd 0 4
      progLen := prog.length
      image := v.image
      node := n
      part := v.part } := by
  have reads := LaunchReads.readAll h1 h2 h3 h4
  have noted := State.dispatchNode_goes h1 h2 h3 h4 (by rw [ha])
  obtain ⟨posts, node, regions, rc⟩ := (t4.modNode n (fun v => { v with ops := ops })).occupy_spec (v := v) (launchBlock args ops) prog (fld hd 0 4) hr
    (State.modNode_ops ops (show aget t4.nodes n = some v by rw [reads]; exact hv))
  rw [State.modNode_posts] at posts
  rw [State.modNode_regions] at regions
  exact ⟨⟨by rw [noted.rest]; exact regions.trans (by rw [reads]), by rw [noted.rest]; exact node, by rw [noted.rest]; exact posts.trans (by rw [reads])⟩, (noted.rc _).trans rc⟩

/-- A host sink node of a closed channel is terminated with its record. -/
theorem State.sendHost_refused (hv : aget s.nodes n = some v) (h1 : s.readVA (s.serverOf v.part) v.part v.args 8 = (t1, .ok args))
    (h2 : t1.launchOps (s.serverOf v.part) v.part v.ops = (t2, .ok (ops, got))) (h : 64 ≤ fld args 0 8 ∨ bit (fld (t2.chanEntry v.part (64 + fld args 0 8)) 0 1) 0 = false) :
    (s.sendHost n v rect).posts = s.posts ++ [s.unitRecord v.part 2 6 v.die (fld args 0 8 % 64) 0x0BC 0 0] ∧ (aget (s.sendHost n v rect).nodes n).map (·.st) = some 4 := by
  have reads : LaunchReads s t2 := (LaunchReads.readVA h1).trans (.launchOps h2)
  rw [State.sendHost_closed h1 h2 h]
  have left := (t2.postUnit v.part 2 6 v.die (fld args 0 8 % 64) 0x0BC 0 0 0).leavePool_rest n
  refine ⟨(State.stopNode_spec _ n).1.trans ?_, State.stopNode_st ?_⟩
  · rw [left]
    show (t2.postUnit v.part 2 6 v.die (fld args 0 8 % 64) 0x0BC 0 0 0).posts = _
    rw [State.postUnit_posts, reads]
    rfl
  · rw [left]
    show (aget t2.nodes n).isSome = true
    rw [reads, hv]
    rfl

/-! What NODE_COMPLETE does for a node, by what it finds. -/

variable {x : Nat}

theorem State.nodeEnds_compute {g : Region} (hv : aget s.nodes x = some v) (hh : v.held = none) (hs : v.st = 2) (hk : v.kind = 0) (hg : s.regions.find? (fun r => r.node == x) = some g) :
    s.nodeEnds x = if s.nodeDone x g.lead then s.completeCompute x v g else s := by
  simp [State.nodeEnds, hv, hh, hs, hk, hg]

theorem State.nodeEnds_other (hv : aget s.nodes x = some v) (hh : v.held = none) (hs : v.st = 2) (hk : v.kind = 1 ∨ v.kind = 2) :
    s.nodeEnds x = (s.completeNode x v (s.serverOf v.part) []).unseat x := by
  rcases hk with hk | hk <;> simp [State.nodeEnds, hv, hh, hs, hk]

theorem State.nodeEnds_ckpt (hv : aget s.nodes x = some v) (hh : v.held = none) (hs : v.st = 2) (hk : v.kind = 3) : s.nodeEnds x = s.stepCkptNode x v := by
  simp [State.nodeEnds, hv, hh, hs, hk]

theorem State.nodeEnds_sink (hv : aget s.nodes x = some v) (hh : v.held = none) (hs : v.st = 2) (hk : v.kind = 4) : s.nodeEnds x = s := by
  simp [State.nodeEnds, hv, hh, hs, hk]

theorem State.nodeEnds_ended (hv : aget s.nodes x = some v) (hh : v.held = none) (hs : 4 ≤ v.st) : s.nodeEnds x = if v.sent then s else s.cancelSuccessors x v := by
  simp [State.nodeEnds, hv, hh, hs]

theorem State.stepCkptNode_waits (h1 : s.readVA (s.serverOf v.part) v.part v.args 8 = (t1, .ok args)) (h2 : t1.ckptStep (s.serverOf v.part) v.part (fld args 0 8) none x = .wait t2) :
    s.stepCkptNode x v = t2 := by
  unfold State.stepCkptNode
  simp only [h1, h2]

theorem State.stepCkptNode_done {a : Nat} (h1 : s.readVA (s.serverOf v.part) v.part v.args 8 = (t1, .ok args)) (h2 : t1.ckptStep (s.serverOf v.part) v.part (fld args 0 8) none x = .done t2 a) :
    s.stepCkptNode x v = (t2.completeNode x v (s.serverOf v.part) []).unseat x := by
  unfold State.stepCkptNode
  simp only [h1, h2]

theorem State.ackHost_completes {i ch : Nat} {b : List Byte} (h : s.hostOut[i]? = some (n, ch, b)) (hv : aget s.nodes n = some v) (hh : v.held = none) (hs : v.st = 2) :
    s.ackHost i = (({ s with hostOut := s.hostOut.eraseIdx i } : State).completeNode n v (s.serverOf v.part) []).unseat n := by
  simp [State.ackHost, h, hv, hh, hs]

end Events

end Sys2Proof.Machine
end

section
/-! Events of Ultra Ethernet ports, strait links, power, temperature and errors (R306, R342, R343, R366 to R371, R381, R383, R384). -/

namespace Sys2Proof.Machine

/-! ## Ultra Ethernet ports -/

theorem State.postUnits_length (l : List Nat) (f : State → Nat → State) (hf : ∀ s pt, (f s pt).posts.length = s.posts.length + 1) (s : State) :
    (l.foldl f s).posts.length = s.posts.length + l.length := by
  induction l generalizing s with
  | nil => rfl
  | cons pt l ih =>
    rw [List.foldl_cons, ih, hf, List.length_cons]
    omega

/-- A port that was up goes down, and one record is posted for each live partition (R371). -/
theorem State.uePortDown_spec {s : State} {port : Nat} (hp : port < 8) (hd : port ∉ s.ueDown) :
    (s.uePortDown port).ueDown = s.ueDown ++ [port] ∧ (s.uePortDown port).posts.length = s.posts.length + s.liveParts.length := by
  let hear (t : State) (pt : Nat) : State := t.postUnit pt 1 5 0 (32 + port) 0x12F 0 0 0
  have hears : ∀ (t : State) pt, (hear t pt).posts.length = t.posts.length + 1 := fun t pt => by rw [State.postUnit_posts, List.length_append]; rfl
  unfold State.uePortDown
  rw [if_neg (by simp [hd, hp])]
  exact ⟨foldl_keeps State.ueDown hear (fun _ _ => rfl) s.liveParts _, State.postUnits_length s.liveParts hear hears _⟩

theorem State.uePortDown_again {s : State} {port : Nat} (h : 8 ≤ port ∨ port ∈ s.ueDown) : s.uePortDown port = s := by
  unfold State.uePortDown
  rw [if_pos (by simpa using h)]

/-! ## Flits that come in -/

/-- A flit in sequence is taken: of S, into the receiver's pool. -/
def State.flitTaken (s : State) (port : Nat) (f : Flit) : State := s.modStrait port (fun q => { q with rxSeq := q.rxSeq + 1, rxPool := if f.s then q.rxPool - 1 else q.rxPool })

theorem State.strait_flitTaken (s : State) (port : Nat) (f : Flit) :
    (s.flitTaken port f).strait port = { s.strait port with rxSeq := (s.strait port).rxSeq + 1, rxPool := if f.s then (s.strait port).rxPool - 1 else (s.strait port).rxPool } :=
  State.strait_modStrait ..

theorem State.postLink_posts (s : State) (pt port sev cause detail : Nat) : (s.postLink pt port sev cause detail).posts = s.posts ++ [s.unitRecord pt sev 5 0 port cause 0 detail] :=
  State.postUnit_posts ..

section Flits

variable {s : State} {port : Nat} {f : Flit}

theorem State.flitIn_refused (h : f.crcOk = false ∨ f.seq ≠ (s.strait port).rxSeq ∨ 18 ≤ port) : s.flitIn port f = s := by
  unfold State.flitIn
  dsimp only
  rw [if_pos]
  rcases h with h | h | h <;> simp [h]

variable (hp : port < 18) (hc : f.crcOk = true) (hs : f.seq = (s.strait port).rxSeq) (he : s.flitEnters f = true)
include hp hc hs he

theorem State.flitIn_noCredit (h : f.s = true) (h0 : (s.strait port).rxPool = 0) : s.flitIn port f = s.postLink (s.flitPart f) port 0 0x125 0 := by
  simp [State.flitIn, hp, hc, hs, he, h, h0]

variable (hr : f.s = false ∨ 0 < (s.strait port).rxPool)
include hr

theorem State.flitIn_unrouted (h : s.routeEntry (s.flitPart f) f.tag = none) : s.flitIn port f = (s.flitTaken port f).postLink (s.flitPart f) port 0 0x11C 0 := by
  have room : (f.s && (s.strait port).rxPool == 0) = false := by
    rcases hr with h | h
    · simp [h]
    · simp [Nat.ne_of_gt h]
  simp [State.flitIn, hp, hc, hs, he, room, h, State.flitTaken]

theorem State.flitIn_enters (h : (s.routeEntry (s.flitPart f) f.tag).isSome = true) : s.flitIn port f = (match f.body with
    | .access r => { s.flitTaken port f with reqs := s.reqs ++ [{ r with src := { r.src with route := if r.reply then 0 else f.tag } }] }
    | .token dest dport k => (s.flitTaken port f).tokenIn port dest dport k
    | .coll m => (s.flitTaken port f).collIn port f.vc f.tag m
    | .chunk c => (s.flitTaken port f).chunkIn c
    | .other => s.flitTaken port f) := by
  have room : (f.s && (s.strait port).rxPool == 0) = false := by
    rcases hr with h | h
    · simp [h]
    · simp [Nat.ne_of_gt h]
  have routed : (s.routeEntry (s.flitPart f) f.tag).isNone = false := by simpa [Option.isSome_iff_ne_none] using h
  unfold State.flitIn
  simp only [Nat.not_le.mpr hp, hc, hs, he, room, routed, State.flitTaken, Bool.not_true, bne_self_eq_false, Bool.or_self, Bool.false_eq_true, or_self, if_false]
  rfl

end Flits

/-! ## Tokens off a link -/

section Tokens

variable {s : State} {dest : Nat} {r : Token} {b : Nat}

theorem State.tokenIn_toRc (port : Nat) (h : s.toRc ⟨dest / 64, dest % 64, r.cfg, b⟩ = true) :
    s.tokenIn port dest b r = s.modRc (dest / 64) (fun x => { x with extract := x.extract ++ [(0, r)] }) := by
  unfold State.tokenIn
  simp [h]

theorem State.tokenIn_unused (port : Nat) (h : s.toRc ⟨dest / 64, dest % 64, r.cfg, b⟩ = false) (h50 : dest % 64 ≠ 50)
    (hu : s.regionAt (dest / 64) = none ∨ 36 ≤ dest % 64 ∨ pwEn (s.inWord (dest / 64) (dest % 64) r.cfg b) = false) :
    s.tokenIn port dest b r = s.postLink (s.partAt (dest / 64)) port 0 0x138 0 := by
  have : (!bit s.fuses.isles (isleOf (dest / 64)) || (s.regionAt (dest / 64)).isNone || decide (36 ≤ dest % 64) || !pwEn (s.inWord (dest / 64) (dest % 64) r.cfg b)) = true := by
    rcases hu with h | h | h <;> simp [h]
  unfold State.tokenIn
  simp only [h, h50, this, Bool.false_eq_true, if_false, false_and, if_true]

theorem State.tokenIn_reaches (port : Nat) (hi : bit s.fuses.isles (isleOf (dest / 64)) = true) (hg : (s.regionAt (dest / 64)).isSome = true) (hl : dest % 64 < 36)
    (hw : pwEn (s.inWord (dest / 64) (dest % 64) r.cfg b) = true) : s.tokenIn port dest b r = s.reach ⟨dest / 64, dest % 64, r.cfg, b⟩ 0 r [] := by
  have notRc : s.toRc ⟨dest / 64, dest % 64, r.cfg, b⟩ = false := by simp [State.toRc, show dest % 64 ≠ 48 by omega]
  have notComm : dest % 64 ≠ 50 := by omega
  have inUse : (!bit s.fuses.isles (isleOf (dest / 64)) || (s.regionAt (dest / 64)).isNone || decide (36 ≤ dest % 64) || !pwEn (s.inWord (dest / 64) (dest % 64) r.cfg b)) = false := by
    simp [hi, hg, hl, hw]
  unfold State.tokenIn
  simp only [notRc, notComm, inUse, Bool.false_eq_true, if_false, false_and]

end Tokens

/-! ## Flits that a port has sent -/

theorem State.nakIn_again {s : State} {port seq : Nat} {lost : Bool} {f : Flit} {fs : List Flit} (hp : port < 18) (hr : (s.strait port).replay.filter (fun a => decide (seq ≤ a.seq)) = f :: fs) (hf : f.seq = seq)
    (hn : (if ((s.strait port).replay.head?.map (·.seq)) = some seq then (s.strait port).replays else 0) < 8) :
    s.nakIn port seq lost = s.modStrait port (fun q => { q with replay := f :: fs, replays := (if ((s.strait port).replay.head?.map (·.seq)) = some seq then (s.strait port).replays else 0) + 1 }) := by
  unfold State.nakIn
  simp only [Nat.not_le.mpr hp, if_false, hr, hf, ne_eq, not_true, beq_iff_eq, hn, if_true]

theorem State.nakIn_retrains {s : State} {port seq : Nat} {f : Flit} {fs : List Flit} (hp : port < 18) (hr : (s.strait port).replay.filter (fun a => decide (seq ≤ a.seq)) = f :: fs) (hf : f.seq = seq)
    (hn : 8 ≤ (if ((s.strait port).replay.head?.map (·.seq)) = some seq then (s.strait port).replays else 0)) :
    ∃ t : State, s.nakIn port seq false = t.postLink f.part port 0 0x11E 0 ∧ t = { s with straits := t.straits } ∧ t.strait port = { s.strait port with replay := f :: fs, replays := 0 } := by
  unfold State.nakIn
  simp only [Nat.not_le.mpr hp, if_false, hr, hf, ne_eq, not_true, beq_iff_eq, Nat.not_lt.mpr hn, Bool.false_eq_true]
  refine ⟨_, rfl, rfl, ?_⟩
  rw [State.strait_modStrait, State.strait_modStrait]

theorem Strait.advance_idle (time vc n : Nat) {p : Strait} (h : p.waiting vc = []) : Strait.advance time vc n p = p := by
  cases n with
  | zero => rfl
  | succ n => simp [Strait.advance, h]

theorem State.straits_ne (s : State) {p q : Nat} (f : Strait → Strait) (h : q ≠ p) : (s.modStrait p f).strait q = s.strait q := by
  unfold State.strait State.modStrait
  rw [aget_aset, if_neg h]

/-! ## Credits and escape VCs -/

section Credits

variable {s : State} {port vc k l x e : Nat}

theorem State.creditIn_reserve (hp : port < 18) (ho : (s.strait port).own vc < 4) (hw : (s.strait port).waiting vc = []) :
    s.creditIn port vc 0 k l x e = s.modStrait port (fun p => { p with reserve := aset p.reserve vc (p.own vc + 1) }) := by
  have idle : Strait.advance s.time vc 1 { s.strait port with reserve := aset (s.strait port).reserve vc ((s.strait port).own vc + 1) } =
      { s.strait port with reserve := aset (s.strait port).reserve vc ((s.strait port).own vc + 1) } := Strait.advance_idle _ _ _ hw
  simp only [State.creditIn, Nat.not_le.mpr hp, and_false, if_false, State.modStrait, ho, if_true, idle]

theorem State.creditIn_pool (hp : port < 18) (ho : (s.strait port).pool < 1024) (hw : (s.strait port).waiting vc = []) :
    s.creditIn port vc 1 k l x e = s.modStrait port (fun p => { p with pool := p.pool + 1 }) := by
  have idle : Strait.advance s.time vc 1 { s.strait port with pool := (s.strait port).pool + 1 } = { s.strait port with pool := (s.strait port).pool + 1 } := Strait.advance_idle _ _ _ hw
  simp only [State.creditIn, Nat.not_le.mpr hp, and_false, if_false, State.modStrait, ho, if_true, idle]

theorem State.creditIn_room (hp : port < 18) : s.creditIn port vc 3 k l x e = s.modStrait port (fun p => { p with rxPool := min 1024 (p.rxPool + 1) }) := by
  simp only [State.creditIn, Nat.not_le.mpr hp, and_false, if_false]

theorem State.creditIn_edge : s.creditIn port vc 2 k l x e = s.modEdge k l x e (fun g => { g with away := g.away - 1 }) := by
  simp only [State.creditIn, ne_eq, not_true, false_and, if_false]

end Credits

section Escape

variable {s : State} {port vc n : Nat} {f : Flit} {fs : List Flit}

theorem escapeVc_eq (h : 64 ≤ vc ∧ vc < 72 ∨ 80 ≤ vc ∧ vc < 88) : escapeVc vc = some (if vc < 72 then vc + 24 else vc + 8) := by
  unfold escapeVc
  rcases h with ⟨h1, h2⟩ | ⟨h1, h2⟩
  · rw [if_pos ⟨h1, h2⟩, if_pos h2]
  · rw [if_neg (by omega), if_pos ⟨h1, h2⟩, if_neg (by omega)]

variable (hw : (s.strait port).waiting vc = f :: fs) (hv : 64 ≤ vc ∧ vc < 72 ∨ 80 ≤ vc ∧ vc < 88)
  (hq : s.pickPort (((s.routeEntry f.part f.dest).map (fun e => bits e 51 34)).getD 0) (if vc < 72 then vc + 24 else vc + 8) = some n)
include hw hv hq

theorem State.divert_waits (ht : s.time < (aget (s.strait port).since vc).getD s.time + 16) : s.divert port vc = s := by
  unfold State.divert
  simp only [hw, escapeVc_eq hv, hq]
  rw [if_neg (Nat.not_le.mpr ht)]

/-- A blocked head flit goes on by its escape VC, through another port (R369). -/
theorem State.divert_spec (ht : (aget (s.strait port).since vc).getD s.time + 16 ≤ s.time) (hn : n ≠ port) :
    ((s.divert port vc).strait port).queue = aset (s.strait port).queue vc fs ∧
    (s.divert port vc).strait n = (s.strait n).put s.time { f with vc := if vc < 72 then vc + 24 else vc + 8 } ∧ (s.divert port vc).posts = s.posts := by
  unfold State.divert
  simp only [hw, escapeVc_eq hv, hq]
  rw [if_pos ht]
  refine ⟨?_, ?_, rfl⟩
  · rw [State.straits_ne _ _ hn.symm, State.strait_modStrait]
  · rw [State.strait_modStrait, State.straits_ne _ _ hn]

end Escape

/-! ## The watchdog and a link that is up again -/

theorem dedup_replicate {a : Nat} {l : List Nat} (h : ∀ x ∈ l, x = a) : dedup (a :: l) = [a] := by
  suffices ∀ x ∈ dedup l, x = a by
    rw [dedup, List.filter_eq_nil_iff.mpr fun x hx => by simp [this x hx]]
  intro x hx
  refine h x ?_
  clear h
  induction l with
  | nil => exact hx
  | cons b l ih =>
    rcases List.mem_cons.mp hx with rfl | hx
    · exact List.mem_cons_self
    · exact List.mem_cons_of_mem _ (ih (List.mem_filter.mp hx).1)

section Watch

variable {s : State} {port vc : Nat} {f : Flit} {fs : List Flit} (hw : (s.strait port).waiting vc = f :: fs)
include hw

/-- A stall of a head flit is posted once for each threshold (R370). -/
theorem State.watchStrait_first (ht : (aget (s.strait port).since vc).getD s.time + s.wdog1 * cyclesPerUs ≤ s.time) (h0 : (aget (s.strait port).warned vc).getD 0 = 0) :
    s.watchStrait port vc false = (s.modStrait port (fun p => { p with warned := aset p.warned vc 1 })).postLink f.part port 0 0x135 (wdogDetail false vc) := by
  unfold State.watchStrait
  simp only [hw, Bool.false_eq_true, if_false]
  rw [if_pos ⟨ht, by omega⟩]
  rfl

theorem State.watchStrait_second (ht : (aget (s.strait port).since vc).getD s.time + s.wdog2 * 1000 * cyclesPerUs ≤ s.time) (h0 : (aget (s.strait port).warned vc).getD 0 = 1)
    (hp : ∀ a ∈ fs, a.part = f.part) :
    s.watchStrait port vc true = (s.modStrait port (fun p => { p with warned := aset p.warned vc 2 })).postLink f.part port 1 0x135 (wdogDetail true vc) := by
  have parts : dedup ((f :: fs).map (·.part)) = [f.part] := dedup_replicate fun x hx => by
    obtain ⟨a, ha, rfl⟩ := List.mem_map.mp hx
    exact hp a ha
  unfold State.watchStrait
  simp only [hw, if_true]
  rw [if_pos ⟨ht, by omega⟩, parts]
  rfl

end Watch

theorem State.linkBack_empty {s : State} {port : Nat} (hp : port < 18) (hd : (s.strait port).down = true) (hq : (s.strait port).queue = []) :
    s.linkBack port = s.modStrait port (fun p => { p with down := false }) := by
  have idle : Strait.advanceAll s.time { s.strait port with down := false } = { s.strait port with down := false } := by
    unfold Strait.advanceAll
    simp only [hq, List.foldl_nil]
  simp only [State.linkBack, Nat.not_le.mpr hp, if_false, State.modStrait, hd, if_true, idle]

/-! ## Uncorrectable errors -/

theorem quarantine_onlyRead (s : State) (k pt tile : Nat) : OnlyRead s (s.quarantine k pt tile) := by
  have tr := translate_onlyRead s k pt (tile * 2048) false
  unfold State.quarantine
  split
  · next hq => rwa [hq] at tr
  · next t pa hq => rw [hq] at tr; exact tr.trans (.setTileSt t pt tile pa 2)

/-- The record of an error of a unit of a core (R341). -/
def State.damageRecord (s : State) (sev k loc cause addr : Nat) : EvRec :=
  let sort := damageKind cause
  if sort < 4 then s.faultRecord sev sort k (if sort = 1 then 48 else loc) cause addr 0 0 else s.unitRecord (s.partAt k) sev sort (dieOf k % 4) 0 cause addr 0

theorem State.postDamage_posts (s : State) (sev k loc cause addr : Nat) : (s.postDamage sev k loc cause addr).posts = s.posts ++ [s.damageRecord sev k loc cause addr] := by
  unfold State.postDamage State.damageRecord
  dsimp only
  split
  · exact State.postFault_posts ..
  · exact State.postUnit_posts ..

theorem State.postDamage_regions (s : State) (sev k loc cause addr : Nat) : (s.postDamage sev k loc cause addr).regions = s.regions := by
  unfold State.postDamage
  dsimp only
  split <;> rfl

theorem OnlyRead.damageRecord {s t : State} (h : OnlyRead s t) (sev k loc cause addr : Nat) : t.damageRecord sev k loc cause addr = s.damageRecord sev k loc cause addr := by
  rw [h.rest]
  rfl

/-- A tile that an error meets is quarantined as the error is seen to (R354). -/
def State.quarantined (s : State) (k cause addr : Nat) : State := if cause = 0x06F then s.quarantine k (s.partAt k) (addr / 2048) else s

theorem State.quarantined_onlyRead (s : State) (k cause addr : Nat) : OnlyRead s (s.quarantined k cause addr) := by
  unfold State.quarantined
  split
  · exact quarantine_onlyRead ..
  · exact .refl s

theorem OnlyRead.regions {s t : State} (h : OnlyRead s t) : t.regions = s.regions := by rw [h.rest]
theorem OnlyRead.regionAt {s t : State} (h : OnlyRead s t) (k : Nat) : t.regionAt k = s.regionAt k := by rw [h.rest]; rfl

section Damage

variable {s : State} {k loc cause addr : Nat} {shared : Bool}

theorem State.memoryError_unit (h : cause ≠ 0) (h' : cause ≠ 0x176) : s.memoryError k loc cause addr shared = s.uncorrectable k loc cause addr shared := by
  unfold State.memoryError
  split
  · exact absurd rfl h
  · exact absurd rfl h'
  · rfl

theorem damage_is_unit (h : cause ∈ damageCodes) : cause ≠ 0 ∧ cause ≠ 0x176 := by
  have : ∀ c ∈ damageCodes, c ≠ 0 ∧ c ≠ 0x176 := by decide
  exact this cause h

theorem State.uncorrectable_none (h : cause ∉ damageCodes) : s.uncorrectable k loc cause addr shared = s := by
  unfold State.uncorrectable
  rw [if_pos (by simpa using h)]

/-- An error of one region's state terminates it (R342). -/
theorem State.uncorrectable_region (h : cause ∈ damageCodes) (hg : gridSev cause = 2) (hs : shared = false) (hr : (s.regionAt k).isSome = true) :
    (s.uncorrectable k loc cause addr shared).posts = s.posts ++ [s.damageRecord 2 k loc cause addr] := by
  have read := s.quarantined_onlyRead k cause addr
  have eq : s.uncorrectable k loc cause addr shared =
      ((s.quarantined k cause addr).postDamage 2 k loc cause addr).terminate ((s.quarantined k cause addr).leadOf k) cause := by
    unfold State.uncorrectable
    rw [if_neg (by simpa using h)]
    refine if_neg ?_
    rw [show (if cause = 0x06F then s.quarantine k (s.partAt k) (addr / 2048) else s) = s.quarantined k cause addr from rfl, read.regionAt]
    simp [hs, hg, Option.isSome_iff_ne_none.mp hr]
  rw [eq, State.terminate_posts, State.postDamage_posts, read.posts, read.damageRecord]

/-- A fatal error on a die without regions kills none (R342). -/
theorem State.uncorrectable_fatal (h : cause ∈ damageCodes) (hf : shared = true ∨ s.regionAt k = none ∨ gridSev cause = 3) (hr : ∀ r ∈ s.regions, dieOf r.lead % 4 ≠ dieOf k % 4) :
    (s.uncorrectable k loc cause addr shared).posts = s.posts ++ [s.damageRecord 3 k loc cause addr] ∧ (s.uncorrectable k loc cause addr shared).regions = s.regions := by
  have read := s.quarantined_onlyRead k cause addr
  have none : (s.quarantined k cause addr).regions.filter (fun g => dieOf g.lead % 4 == dieOf k % 4) = [] := by
    rw [read.regions, List.filter_eq_nil_iff]
    intro r hm
    simpa using hr r hm
  have eq : s.uncorrectable k loc cause addr shared = (s.quarantined k cause addr).postDamage 3 k loc cause addr := by
    unfold State.uncorrectable
    rw [if_neg (by simpa using h)]
    refine (if_pos ?_).trans ?_
    · rw [show (if cause = 0x06F then s.quarantine k (s.partAt k) (addr / 2048) else s) = s.quarantined k cause addr from rfl, read.regionAt]
      simpa using hf
    · show (s.quarantined k cause addr).fatal k loc cause addr = _
      unfold State.fatal
      rw [none]
      rfl
  rw [eq]
  exact ⟨by rw [State.postDamage_posts, read.posts, read.damageRecord], by rw [State.postDamage_regions, read.regions]⟩

end Damage

/-! ## Stalls -/

theorem wdogDetail_first (vc : Nat) : wdogDetail false vc = 2 * (vc % 128) := by
  simp [wdogDetail, Bool.nat, Nat.mul_comm]

theorem wdogDetail_second (vc : Nat) : wdogDetail true vc = 1 + 2 * (vc % 128) := by
  simp [wdogDetail, Bool.nat, Nat.mul_comm]

/-- A record of a stall at a strait port says which threshold was passed, and the VC. -/
theorem State.stalled_posts (s : State) (pt port sev w vc d : Nat) :
    let t := (s.modStrait port (fun p => { p with warned := aset p.warned vc w })).postLink pt port sev 0x135 d
    t.posts = s.posts ++ [s.unitRecord pt sev 5 0 port 0x135 0 d] ∧ t.strait port = { s.strait port with warned := aset (s.strait port).warned vc w } :=
  ⟨State.postLink_posts .., State.strait_modStrait s port (fun p => { p with warned := aset p.warned vc w })⟩

theorem State.watch_ue {s : State} {port : Nat} (vc pt : Nat) (second : Bool) (hp : port < 8) :
    s.watch port vc pt true second = s.postUnit pt (if second then 1 else 0) 5 0 (32 + port) 0x135 0 (wdogDetail second vc) 0 := by
  simp only [State.watch, if_true, Nat.not_le.mpr hp, if_false]

/-! ## Reset -/

theorem State.start_none (s : State) {fail : Nat} (cause : Nat) (h : fail = 0 ∨ 3 < fail) : s.start fail cause = { s with stage := 5 } := by
  unfold State.start
  rw [if_neg (by omega), if_neg (by omega)]

theorem State.start_stage1 (s : State) (cause : Nat) : s.start 1 cause = { s with bootFail := some (if cause = 0x15C then 0x15C else 0x15B) } := rfl

/-- A failure of stage 2 or 3 of the start reaches the manager's queue (R381). -/
theorem State.start_later (s : State) {fail : Nat} (cause : Nat) (h : fail = 2 ∨ fail = 3) :
    s.start fail cause = { s with stage := fail - 1, bootFail := some 0x16F, posts := s.posts ++ [s.unitRecord 16 3 6 0 0 0x16F 0 0], seqs := (s.start fail cause).seqs } := by
  have eq : s.start fail cause = ({ s with stage := fail - 1, bootFail := some 0x16F } : State).postUnit 16 3 6 0 0 0x16F 0 0 0 := by
    unfold State.start
    rw [if_neg (by omega), if_pos h]
  rw [eq]
  rfl

theorem boot_cause (s : State) : fld (s.unitRecord 16 3 6 0 0 0x16F 0 0).body 0 4 % 2 ^ 9 = 0x16F := by
  show fld ((faultBody 0x16F 3 6 0 0 0 0 0 ++ List.replicate 16 0).take 16) 0 4 % 2 ^ 9 = 0x16F
  decide

/-! ## Power and temperature -/

/-- A window of 1 ms begins (R383). -/
theorem State.powerWindow_spec {s : State} (above : Bool) (h : s.power.window ≤ s.time) :
    (s.powerWindow above).power = { s.power with throttle := above, window := s.time + cyclesPerMs } ∧
    (s.powerWindow above).posts = s.posts ++ (if above then [s.unitRecord 16 0 6 0 0 0x166 0 0] else []) := by
  unfold State.powerWindow
  rw [if_neg (Nat.not_lt.mpr h)]
  cases above with
  | false => exact ⟨rfl, (List.append_nil _).symm⟩
  | true => exact ⟨rfl, State.postUnit_posts ..⟩

theorem State.warm_crosses {s : State} {d : Nat} (h : (s.die d).hot95 = false) : s.warm d false = (s.modDie d (fun x => { x with hot95 := true })).postUnit 16 0 6 (d % 4) 0 0x161 0 0 0 := by
  simp [State.warm, h]

theorem State.warm_again {s : State} {d : Nat} (h : (s.die d).hot95 = true) : s.warm d false = s := by
  simp [State.warm, h]

/-! ## An error in the cache of verified plaintext (R355) -/

theorem State.dropPlain_spec (s : State) (k va : Nat) : ∀ c ∈ ((s.dropPlain k va).die (dieOf k % 4)).cache, c.key ≠ cacheKey (s.partAt k) (va / 2048) := by
  intro c hc
  unfold State.dropPlain at hc
  rw [State.die_modDie, if_pos rfl] at hc
  simpa using (List.mem_filter.mp hc).2

/-! ## An encoding that is none (R148, R260, R306) -/

theorem State.rcIllegal_barrier {s : State} (h : 0x48 ≤ bits s.word 31 25 ∧ bits s.word 31 25 ≤ 0x4A ∧ bits s.word 4 3 = 0 ∧ bits s.word 9 5 ≠ 31 ∧ s.barrierCount s.fcore ≤ bits s.word 9 5) :
    s.rcIllegal = s.rcTrap 0x071 := by
  unfold State.rcIllegal
  exact if_pos h

theorem State.rcIllegal_else {s : State} (h : ¬(0x48 ≤ bits s.word 31 25 ∧ bits s.word 31 25 ≤ 0x4A ∧ bits s.word 4 3 = 0 ∧ bits s.word 9 5 ≠ 31 ∧ s.barrierCount s.fcore ≤ bits s.word 9 5)) :
    s.rcIllegal = s.rcTrap (if (s.level = 0 ∧ 0x60 ≤ bits s.word 31 25 ∧ bits s.word 31 25 < 0x70) ∨ (s.level = 1 ∧ bits s.word 31 25 ∈ managerOps) then 0x144 else 0x0C0) := by
  unfold State.rcIllegal
  exact if_neg h

end Sys2Proof.Machine
end

section
/-! The events of nodes, links, power and errors (R72 to R76, R80, R306, R342, R343, R366 to R371, R381, R383, R384). -/

namespace Sys2Proof.Machine

/-- Settles O54: the events of nodes by what a launch and an end leave, those of links, power and errors by their equations. -/
theorem partEvents : Obligations.PartEvents := by
  unfold Obligations.PartEvents
  intro s v g f fs rect n t1 t2 t3 t4 w ops args hd prog got p k x y port lead server seated takes
  refine ⟨fun h => congrArg Host.Outcome.next (State.placeNode_none h), fun h hv hr => ?place, fun hv => ?node, ?sink, ?uedown, ?ueno, ?flit, ?nak, ?credit, ?away, ?divert, ?stall, ?ueStall, ?linkBack,
    ?reset, ?windowWaits, ?window, ?warm, ?warmed, ?cool, ?throttle, ?release, ?error, ?illegal⟩
  case place =>
    have places {t : State} (e : s.placeNode = t) : exec .evNodePlace s = .next t := congrArg Host.Outcome.next e
    refine ⟨fun hk h1 h2 h3 h4 ha => ?compute, fun hk h1 h2 => ?other, fun hk => ?ckpt, fun hk h1 h2 => ⟨fun hc => ?refused, fun hc ho h3 => ?sends⟩⟩
    case compute =>
      obtain ⟨⟨regions, node, posts⟩, rc⟩ := State.dispatchNode_launched hv hr h1 h2 h3 h4 ha
      exact ⟨_, places (State.placeNode_compute h hk), regions, node, posts, rc⟩
    case other =>
      obtain ⟨regions, node, posts⟩ := State.seat_launched (rect := rect) (ops := ops) ((LaunchReads.readVA h1).trans (.launchOps h2)) hv
      exact ⟨_, places ((State.placeNode_other h hk).trans (State.launchOther_goes h1 h2)), regions, node, posts⟩
    case ckpt =>
      obtain ⟨regions, node, posts⟩ := State.seat_launched (rect := rect) (ops := v.ops) (.refl s) hv
      exact ⟨_, places (State.placeNode_ckpt h hk), regions, node, posts⟩
    case refused =>
      exact ⟨_, places (State.placeNode_sink h hk), State.sendHost_refused hv h1 h2 hc⟩
    case sends =>
      have reads : LaunchReads s t3 := ((LaunchReads.readVA h1).trans (.launchOps h2)).trans (.of_read (readTiles_reads h3))
      obtain ⟨regions, node, posts⟩ := State.seat_launched (rect := rect) (ops := ops) reads hv
      exact ⟨_, places ((State.placeNode_sink h hk).trans (State.sendHost_sends h1 h2 hc ho h3)), regions, node, posts, by rw [reads]⟩
  case node =>
    have here : (aget s.nodes x).isSome = true := by rw [hv]; rfl
    have ends {t : State} (h : s.nodeEnds x = t) : exec .evNodeComplete s = .next t := congrArg Host.Outcome.next h
    refine ⟨fun hs ht hp => ⟨s.ageNode x, rfl, s.modNode_rest x _, ?ages⟩, fun hn => ⟨s.ageNode x, rfl, ?stays⟩, fun hh => ⟨fun hs hk hg => ⟨fun hd => ?busy, fun hd hr => ?compute⟩, fun hs hk hr => ?other,
      fun hs hk h1 => ⟨fun h2 => ends ((State.nodeEnds_ckpt hv hh hs hk).trans (State.stepCkptNode_waits h1 h2)), fun a e h2 h3 hn hsent => ?ckpt⟩, fun hs hk => ends (State.nodeEnds_sink hv hh hs hk), fun hs hsent => ?sent, fun l hs hsent hl => ?cancels⟩⟩
    case ages => rw [s.ageNode_node hv, if_pos ⟨hs, ht, hp⟩]
    case stays =>
      rw [s.ageNode_node hv, if_neg]
      rintro ⟨hs, ht, hp⟩
      rcases hn with h | h | h <;> omega
    case busy => exact ends ((State.nodeEnds_compute hv hh hs hk hg).trans (if_neg (by simp [hd])))
    case compute =>
      obtain ⟨done, regions, rc⟩ := State.completeCompute_spec (v := v) (g := g) here hr
      exact ⟨_, ends ((State.nodeEnds_compute hv hh hs hk hg).trans (if_pos hd)), done, regions, rc⟩
    case other =>
      obtain ⟨done, regions, -⟩ := (State.completeNode_spec (k := server) (c := []) here hr).1.unseat
      exact ⟨_, ends (State.nodeEnds_other hv hh hs hk), done, regions⟩
    case ckpt =>
      obtain ⟨done, regions, -⟩ := (State.completeNode_spec (k := server) (v := v) (c := []) hn (.inr ⟨e, h3⟩)).1.unseat
      exact ⟨_, ends ((State.nodeEnds_ckpt hv hh hs hk).trans (State.stepCkptNode_done h1 h2)), done, regions⟩
    case sent => exact ends ((State.nodeEnds_ended hv hh hs).trans (if_pos hsent))
    case cancels =>
      obtain ⟨o, ho, sent⟩ := State.cancelSuccessors_sent here hl
      exact ⟨_, o, ends ((State.nodeEnds_ended hv hh hs).trans (if_neg (by simp [hsent]))), ho, sent⟩
  case sink =>
    intro ch b h hv hh hs hr
    have here : (aget ({ s with hostOut := s.hostOut.eraseIdx x } : State).nodes n).isSome = true := by show (aget s.nodes n).isSome = true; rw [hv]; rfl
    obtain ⟨done, out⟩ := State.completeNode_spec (k := server) (c := []) here hr
    obtain ⟨⟨o, ho, st, -⟩, regions, kept⟩ := done.unseat
    exact ⟨_, o, congrArg Host.Outcome.next (State.ackHost_completes h hv hh hs), kept.trans out, ho, st, regions⟩
  case uedown => exact fun hp hd => ⟨_, rfl, State.uePortDown_spec hp hd⟩
  case ueno => exact fun h => congrArg Host.Outcome.next (State.uePortDown_again h)
  case flit =>
    intro f hf
    have comes {t : State} (e : s.flitIn p.port f = t) : exec .evStraitFlitReceive s = .next t := by
      subst hf
      exact congrArg Host.Outcome.next e
    have took {u : State} (e : u.straits = (s.flitTaken p.port f).straits) :
        (u.strait p.port).rxSeq = port.rxSeq + 1 ∧ (u.strait p.port).rxPool = if f.s then port.rxPool - 1 else port.rxPool := by
      have : u.strait p.port = (s.flitTaken p.port f).strait p.port := by unfold State.strait; rw [e]
      rw [this, s.strait_flitTaken]
      exact ⟨rfl, rfl⟩
    refine ⟨fun h => ?refused, fun hp hc hs he => ⟨fun hS h0 => ?noCredit, fun hr => ⟨fun hn => ?unrouted, fun hroute => ?enters⟩⟩⟩
    case refused => exact comes (State.flitIn_refused h)
    case noCredit => exact ⟨_, comes (State.flitIn_noCredit hp hc hs he hS h0), State.postLink_posts .., rfl⟩
    case unrouted => exact ⟨_, comes (State.flitIn_unrouted hp hc hs he hr hn), State.postLink_posts .., took rfl⟩
    case enters =>
      have enters := State.flitIn_enters hp hc hs he hr hroute
      refine ⟨fun r hb => ?access, fun a b r hb => ⟨fun hd => ?toRc, fun hd hl hu => ?unused, fun hi hg hl hw => ?reaches⟩, fun hb => ?other⟩ <;> rw [hb] at enters
      case access => exact ⟨_, comes enters, took rfl, rfl, rfl⟩
      case toRc =>
        refine ⟨_, comes (enters.trans (State.tokenIn_toRc p.port hd)), took rfl, ?_⟩
        rw [State.rc_modRc, if_pos rfl]
        rfl
      case unused => exact ⟨_, comes (enters.trans (State.tokenIn_unused p.port hd hl hu)), State.postLink_posts .., took rfl⟩
      case reaches => exact comes (enters.trans (State.tokenIn_reaches p.port hi hg hl hw))
      case other => exact ⟨_, comes enters, took rfl, rfl⟩
  case nak =>
    intro hp hr hf
    refine ⟨fun hn => ⟨_, congrArg Host.Outcome.next (State.nakIn_again hp hr hf hn), rfl, State.strait_modStrait ..⟩, fun hn hlost => ?_⟩
    obtain ⟨t, eq, rest, strait⟩ := State.nakIn_retrains hp hr hf hn
    refine ⟨t.postLink f.part p.port 0 0x11E 0, ?_, ?_, strait⟩
    · show Host.Outcome.next (s.nakIn p.port x p.flag) = _
      rw [hlost, eq]
    · rw [State.postLink_posts, rest]
      rfl
  case credit =>
    intro hp
    have comes {j : Nat} {t : State} (hy : y = j) (e : s.creditIn p.port x j k p.cell p.ctx p.port = t) : exec .evCreditReturn s = .next t := by
      subst hy
      exact congrArg Host.Outcome.next e
    exact ⟨fun hy ho hw => ⟨_, comes hy (State.creditIn_reserve hp ho hw), State.strait_modStrait ..⟩, fun hy ho hw => ⟨_, comes hy (State.creditIn_pool hp ho hw), State.strait_modStrait ..⟩,
      fun hy => ⟨_, comes hy (State.creditIn_room hp), State.strait_modStrait ..⟩⟩
  case away =>
    intro hy he
    refine ⟨s.modEdge k p.cell p.ctx p.port (fun g => { g with away := g.away - 1 }), ?_, ?_⟩
    · show Host.Outcome.next (s.creditIn p.port x y k p.cell p.ctx p.port) = _
      rw [hy, State.creditIn_edge]
    · rw [State.edge_modEdge he, if_pos rfl]
  case divert =>
    intro hw hv esc hq
    refine ⟨fun ht => congrArg Host.Outcome.next (State.divert_waits hw hv hq ht), fun ht hn => ⟨_, rfl, State.divert_spec hw hv hq ht hn⟩⟩
  case stall =>
    intro hflag hw
    refine ⟨fun ht h0 => ⟨_, ?first, s.stalled_posts f.part p.port 0 1 x (2 * (x % 128))⟩, fun ht h0 hp => ⟨_, ?second, s.stalled_posts f.part p.port 1 2 x (1 + 2 * (x % 128))⟩⟩
    case first =>
      show Host.Outcome.next (s.watch p.port x y p.flag false) = _
      rw [hflag, ← wdogDetail_first]
      exact congrArg _ (State.watchStrait_first hw ht h0)
    case second =>
      show Host.Outcome.next (s.watch p.port x y p.flag true) = _
      rw [hflag, ← wdogDetail_second]
      exact congrArg _ (State.watchStrait_second hw ht h0 hp)
  case ueStall =>
    intro hflag hp
    refine ⟨⟨_, ?first, State.postUnit_posts s y 0 5 0 (32 + p.port) 0x135 0 (2 * (x % 128)), rfl⟩, ⟨_, ?second, State.postUnit_posts s y 1 5 0 (32 + p.port) 0x135 0 (1 + 2 * (x % 128)), rfl⟩⟩
    case first =>
      show Host.Outcome.next (s.watch p.port x y p.flag false) = _
      rw [hflag, ← wdogDetail_first]
      exact congrArg _ (State.watch_ue x y false hp)
    case second =>
      show Host.Outcome.next (s.watch p.port x y p.flag true) = _
      rw [hflag, ← wdogDetail_second]
      exact congrArg _ (State.watch_ue x y true hp)
  case linkBack =>
    intro hp hd hq
    exact ⟨_, congrArg Host.Outcome.next (State.linkBack_empty hp hd hq), State.strait_modStrait .., rfl⟩
  case reset =>
    intro z
    have starts {t : State} (e : z.start x y = t) : exec .evPowerOnReset s = .next t := congrArg Host.Outcome.next e
    have noPosts : z.posts = [] := rfl
    refine ⟨fun hx => starts (State.start_none z y hx), fun hx => starts ?stage1, fun hx => ⟨z.start x y, z.unitRecord 16 3 6 0 0 0x16F 0 0, starts rfl, ?later, rfl, rfl, boot_cause z⟩, ?off⟩
    case stage1 =>
      rw [hx]
      exact State.start_stage1 z y
    case later =>
      refine (State.start_later z y hx).trans ?_
      rw [noPosts]
      rfl
    case off => exact congrArg Host.Outcome.next (rfl : s.powerReset = z)
  case windowWaits => exact fun ht => congrArg Host.Outcome.next (if_pos ht)
  case window => exact fun ht => ⟨_, rfl, State.powerWindow_spec p.flag ht⟩
  case warm =>
    intro hflag hot
    refine ⟨s.warm x false, ?_, ?_⟩
    · show Host.Outcome.next (s.warm x p.flag) = _
      rw [hflag]
    · rw [State.warm_crosses hot]
      exact ⟨State.postUnit_posts .., (State.die_modDie s x x (fun d => { d with hot95 := true })).trans (if_pos rfl)⟩
  case warmed =>
    intro hflag hot
    show Host.Outcome.next (s.warm x p.flag) = _
    rw [hflag, State.warm_again hot]
  case cool =>
    intro hflag
    refine ⟨s.modDie x (fun d => { d with hot95 := false }), ?_, rfl, by rw [State.die_modDie, if_pos rfl]⟩
    show Host.Outcome.next (s.warm x p.flag) = _
    rw [hflag]
    rfl
  case throttle => exact ⟨_, rfl, by rw [State.die_modDie, if_pos rfl], rfl⟩
  case release => exact ⟨_, rfl, by rw [State.die_modDie, if_pos rfl], rfl⟩
  case error =>
    have memory {t : State} (e : s.memoryError k p.cell x y p.flag = t) : exec .evUncorrectableError s = .next t := congrArg Host.Outcome.next e
    intro sort record
    refine ⟨fun hx => ?cache, fun hx => ?corrected, fun h0 h176 hx => memory ((State.memoryError_unit h0 h176).trans (State.uncorrectable_none hx)), fun hx hg hflag hr => ?region, fun hx hf hr => ?fatal⟩
    case cache => exact ⟨s.dropPlain k y, memory (by rw [hx]; rfl), rfl, s.dropPlain_spec k y⟩
    case corrected => exact ⟨_, memory (by rw [hx]; rfl), State.postUnit_posts s 16 0 6 (dieOf k % 4) 0 0x176 y 0, rfl⟩
    case region =>
      obtain ⟨h0, h176⟩ := damage_is_unit hx
      exact ⟨_, memory (State.memoryError_unit h0 h176), State.uncorrectable_region hx hg hflag hr⟩
    case fatal =>
      obtain ⟨h0, h176⟩ := damage_is_unit hx
      exact ⟨_, memory (State.memoryError_unit h0 h176), State.uncorrectable_fatal hx hf hr⟩
  case illegal =>
    intro op level bar low
    have traps {c : Nat} (e : s.rcIllegal = s.rcTrap c) : exec .rcIllegalEncoding s = .next (s.rcFault s.fcore ⟨c, 0, 0, false⟩) := congrArg Host.Outcome.next e
    exact ⟨fun hb => State.stops (traps (State.rcIllegal_barrier hb)) (by decide), fun hb hl => State.stops (traps ((State.rcIllegal_else hb).trans (congrArg _ (if_pos hl)))) (by decide),
      fun hb hl => State.stops (traps ((State.rcIllegal_else hb).trans (congrArg _ (if_neg hl)))) (by decide)⟩

end Sys2Proof.Machine
end

section
/-! Admission of a task: what matching and reservations leave as they were (R25, R60 to R62, R69). -/

namespace Sys2Proof.Machine

/-! ## Updates of ports -/

/-- An update of a port is of that port, or of none where the cell has no such port. -/
theorem State.port_modPort_self (s : State) (k l x p : Nat) (f : Port → Port) :
    (s.modPort k l x p f).port k l x p = f (s.port k l x p) ∨ ((s.modPort k l x p f).port k l x p = {} ∧ s.port k l x p = {}) := by
  by_cases hl : l < 32
  · by_cases hx : x < (s.cell k l).ctxs.length
    · by_cases hp : p < (s.ctx k l x).ports.length
      · left
        rw [State.port_modPort ⟨hl, hx, hp⟩, if_pos rfl]
      · right
        unfold State.port State.modPort
        rw [if_pos hl, if_pos hl, if_pos hl, State.ctx_modCtx _ _ _ _ _ _ _ _ hx, if_pos ⟨rfl, rfl, rfl⟩]
        exact ⟨List.getD_eq_default _ _ (by simpa using hp), List.getD_eq_default _ _ (by simpa using hp)⟩
    · right
      have none : ∀ c : Cell, c.ctxs.length = (s.cell k l).ctxs.length → (c.ctx x).ports.getD p {} = ({} : Port) := fun c hc => by
        unfold Cell.ctx
        rw [List.getD_eq_default c.ctxs _ (by omega)]
        match p with
        | 0 | 1 | 2 | 3 => rfl
        | n + 4 => rfl
      unfold State.port State.modPort
      rw [if_pos hl, if_pos hl, if_pos hl]
      exact ⟨none _ (State.ctxs_length s k l x k l _), none _ rfl⟩
  · unfold State.port State.modPort
    rw [if_neg hl, if_neg hl, if_neg hl, State.core_modCore, if_pos rfl]
    dsimp only
    rw [getD_modify, if_pos rfl]
    split
    · exact .inl rfl
    · exact .inr ⟨rfl, List.getD_eq_default _ _ (by omega)⟩

/-- The other ports of a cell are as they were, or are the same one. -/
theorem State.port_modPort_cases (s : State) (k l x p : Nat) (f : Port → Port) (y q : Nat) :
    (s.modPort k l x p f).port k l y q = f (s.port k l y q) ∨ (s.modPort k l x p f).port k l y q = s.port k l y q := by
  by_cases hl : l < 32
  · by_cases hx : x < (s.cell k l).ctxs.length
    · unfold State.port State.modPort
      rw [if_pos hl, if_pos hl, if_pos hl, State.ctx_modCtx _ _ _ _ _ _ _ _ hx]
      split
      · next h =>
        obtain ⟨-, -, rfl⟩ := h
        dsimp only
        rw [getD_modify]
        split
        · next hq =>
          subst hq
          split
          · exact .inl rfl
          · exact .inr (List.getD_eq_default _ _ (by omega)).symm
        · exact .inr rfl
      · exact .inr rfl
    · right
      have same : (s.cell k l).modCtx x (fun c => { c with ports := c.ports.modify p f }) = s.cell k l := by
        unfold Cell.modCtx
        rw [List.modify_eq_self (by omega)]
      unfold State.port State.modPort State.ctx
      rw [if_pos hl, if_pos hl, if_pos hl, State.cell_modCtx, if_pos ⟨rfl, rfl⟩, same]
  · unfold State.port State.modPort
    rw [if_neg hl, if_neg hl, if_neg hl, State.core_modCore, if_pos rfl]
    dsimp only
    rw [getD_modify]
    split
    · next hq =>
      rw [hq]
      split
      · exact .inl rfl
      · exact .inr (List.getD_eq_default _ _ (by omega)).symm
    · exact .inr rfl

/-! ## What an admission leaves -/

/-- A cell keeps its tasks and its contexts, the state memory and its frames. -/
structure KeepsTasks (s t : State) (k l : Nat) : Prop where
  mem     : t.mem = s.mem
  time    : t.time = s.time
  frames  : ∀ i, (t.isle i).frames = (s.isle i).frames
  ready   : (t.cell k l).ready = (s.cell k l).ready
  running : (t.cell k l).running = (s.cell k l).running
  ctxs    : (t.cell k l).ctxs.length = (s.cell k l).ctxs.length

/-- A cell's edges are as they were. -/
def SameEdges (s t : State) (k l : Nat) : Prop := ∀ x, (t.ctx k l x).edges = (s.ctx k l x).edges

/-- What waits at a cell's ports and in its matching store is as it was. -/
structure SameTokens (s t : State) (k l : Nat) : Prop where
  matching : (t.cell k l).matching = (s.cell k l).matching
  fifo     : ∀ x p, t.fifoAt k l x p = s.fifoAt k l x p

variable {s t u : State} {k l : Nat}

theorem KeepsTasks.refl (s : State) (k l : Nat) : KeepsTasks s s k l := ⟨rfl, rfl, fun _ => rfl, rfl, rfl, rfl⟩
theorem KeepsTasks.trans (h : KeepsTasks s t k l) (g : KeepsTasks t u k l) : KeepsTasks s u k l :=
  ⟨g.mem.trans h.mem, g.time.trans h.time, fun i => (g.frames i).trans (h.frames i), g.ready.trans h.ready, g.running.trans h.running, g.ctxs.trans h.ctxs⟩
theorem SameEdges.refl (s : State) (k l : Nat) : SameEdges s s k l := fun _ => rfl
theorem SameEdges.trans (h : SameEdges s t k l) (g : SameEdges t u k l) : SameEdges s u k l := fun x => (g x).trans (h x)
theorem SameTokens.refl (s : State) (k l : Nat) : SameTokens s s k l := ⟨rfl, fun _ _ => rfl⟩
theorem SameTokens.trans (h : SameTokens s t k l) (g : SameTokens t u k l) : SameTokens s u k l := ⟨g.matching.trans h.matching, fun x p => (g.fifo x p).trans (h.fifo x p)⟩

theorem HasEdge.of_same {x g : Nat} (h : s.HasEdge k l x g) (hk : KeepsTasks s t k l) (he : SameEdges s t k l) : t.HasEdge k l x g :=
  ⟨h.1, hk.ctxs ▸ h.2.1, by rw [he x]; exact h.2.2⟩
theorem SameEdges.edge (h : SameEdges s t k l) (hl : l < 32) (x g : Nat) : t.edge k l x g = s.edge k l x g := by
  unfold State.edge
  rw [if_pos hl, if_pos hl, h x]

/-! Updates of a port. -/

theorem State.cell_modPort (s : State) (k l x p : Nat) (f : Port → Port) :
    ((s.modPort k l x p f).cell k l) = { s.cell k l with ctxs := ((s.modPort k l x p f).cell k l).ctxs } := by
  unfold State.modPort
  split
  · rw [State.cell_modCtx, if_pos ⟨rfl, rfl⟩]
    rfl
  · unfold State.cell
    rw [State.core_modCore, if_pos rfl]

theorem KeepsTasks.modPort (s : State) (k l x p : Nat) (f : Port → Port) : KeepsTasks s (s.modPort k l x p f) k l where
  mem := by rw [State.modPort_rest]
  time := by rw [State.modPort_rest]
  frames i := by rw [State.modPort_rest]; rfl
  ready := by rw [State.cell_modPort]
  running := by rw [State.cell_modPort]
  ctxs := by
    unfold State.modPort
    split
    · exact State.ctxs_length ..
    · unfold State.cell; rw [State.core_modCore, if_pos rfl]

theorem SameEdges.modPort (s : State) (k l x p : Nat) (f : Port → Port) : SameEdges s (s.modPort k l x p f) k l := fun y => by
  unfold State.modPort
  split
  · exact State.ctx_modCtx_keeps (P := Ctx.edges) (by intro c; rfl) ..
  · unfold State.ctx State.cell; rw [State.core_modCore, if_pos rfl]

theorem SameTokens.modPort (s : State) (k l x p : Nat) (f : Port → Port) (hf : ∀ q, (f q).fifo = q.fifo) : SameTokens s (s.modPort k l x p f) k l where
  matching := by rw [State.cell_modPort]
  fifo y q := by
    unfold State.fifoAt
    rcases State.port_modPort_cases s k l x p f y q with h | h <;> rw [h]
    exact hf _

/-! Updates of the cell outside its contexts. -/

section OfCell

variable {f : Cell → Cell} (s : State) (k l : Nat)

theorem KeepsTasks.modCell (hr : (f (s.cell k l)).ready = (s.cell k l).ready) (hn : (f (s.cell k l)).running = (s.cell k l).running)
    (hc : (f (s.cell k l)).ctxs = (s.cell k l).ctxs) : KeepsTasks s (s.modCell k l f) k l where
  mem := rfl
  time := rfl
  frames _ := rfl
  ready := by rw [State.cell_modCell, if_pos ⟨rfl, rfl⟩, hr]
  running := by rw [State.cell_modCell, if_pos ⟨rfl, rfl⟩, hn]
  ctxs := by rw [State.cell_modCell, if_pos ⟨rfl, rfl⟩, hc]

theorem SameEdges.modCell (hc : (f (s.cell k l)).ctxs = (s.cell k l).ctxs) : SameEdges s (s.modCell k l f) k l := fun x => by
  unfold State.ctx Cell.ctx
  rw [State.cell_modCell, if_pos ⟨rfl, rfl⟩, hc]

theorem State.fifoAt_modCell (hc : (f (s.cell k l)).ctxs = (s.cell k l).ctxs) (x p : Nat) : (s.modCell k l f).fifoAt k l x p = s.fifoAt k l x p := by
  unfold State.fifoAt State.port
  split
  · unfold State.ctx Cell.ctx
    rw [State.cell_modCell, if_pos ⟨rfl, rfl⟩, hc]
  · unfold State.modCell State.setCell
    rw [State.core_modCore, if_pos rfl]

end OfCell

/-! ## Matching (R60) -/

theorem Cell.store_outside {c d : Cell} {x p w : Nat} {t : PortTok} (h : c.store x p w t = some d) : d = { c with matching := d.matching } := by
  unfold Cell.store at h
  dsimp only at h
  split at h
  · split at h
    · cases h
    · cases h; rfl
  · split at h
    · cases h
    · cases h; rfl

/-- The tokens of a port that are matched, or consumed with a cause. -/
theorem State.gatherPort_keeps (k l x p n : Nat) (s : State) : KeepsTasks s (s.gatherPort k l x p n) k l ∧ SameEdges s (s.gatherPort k l x p n) k l := by
  induction n generalizing s with
  | zero => exact ⟨.refl s k l, .refl s k l⟩
  | succ n ih =>
    unfold State.gatherPort
    split
    · exact ⟨.refl s k l, .refl s k l⟩
    · next t r _ =>
      split
      · exact ⟨.refl s k l, .refl s k l⟩
      · dsimp only
        split
        · obtain ⟨tasks, edges⟩ := ih ((s.modPort k l x p (fun q => { q with fifo := r })).infoFault k l 0 0x020 0 (tagWord t.tok.iter t.tok.frame x t.tok.cls))
          have popped := KeepsTasks.modPort s k l x p (fun q => { q with fifo := r })
          have told : KeepsTasks (s.modPort k l x p (fun q => { q with fifo := r })) ((s.modPort k l x p (fun q => { q with fifo := r })).infoFault k l 0 0x020 0 (tagWord t.tok.iter t.tok.frame x t.tok.cls)) k l :=
            ⟨rfl, rfl, fun _ => rfl, rfl, rfl, rfl⟩
          exact ⟨(popped.trans told).trans tasks, ((SameEdges.modPort s k l x p (fun q => { q with fifo := r })).trans fun _ => rfl).trans edges⟩
        · split
          · exact ⟨.refl s k l, .refl s k l⟩
          · split
            · exact ⟨.refl s k l, .refl s k l⟩
            · split
              · exact ⟨.refl s k l, .refl s k l⟩
              · next c hc =>
                have outside := Cell.store_outside hc
                obtain ⟨tasks, edges⟩ := ih ((s.setCell k l c).modPort k l x p (fun q => { q with fifo := r }))
                have put : KeepsTasks s (s.setCell k l c) k l := .modCell (f := fun _ => c) s k l (by rw [outside]) (by rw [outside]) (by rw [outside])
                have same : SameEdges s (s.setCell k l c) k l := .modCell (f := fun _ => c) s k l (by rw [outside])
                exact ⟨(put.trans (.modPort _ k l x p _)).trans tasks, (same.trans (.modPort _ k l x p _)).trans edges⟩

theorem State.gather_keeps (s : State) (k l : Nat) : KeepsTasks s (s.gather k l) k l ∧ SameEdges s (s.gather k l) k l := by
  unfold State.gather
  refine foldl_inv (P := fun t => KeepsTasks s t k l ∧ SameEdges s t k l) (fun t n h => ?_) _ s ⟨.refl s k l, .refl s k l⟩
  split
  · obtain ⟨tasks, edges⟩ := State.gatherPort_keeps k l (n / 4) (n % 4) (t.port k l (n / 4) (n % 4)).fifo.length t
    exact ⟨h.1.trans tasks, h.2.trans edges⟩
  · exact h

end Sys2Proof.Machine
end

section
/-! Reservations of a task: credits, reply ports and a frame (R61, R69, R194), and the operands it takes (R60, R116). -/

namespace Sys2Proof.Machine

variable {s t u : State} {k l : Nat}

/-! ## The operands of a candidate (R60, R116) -/

theorem State.takeOps_stored {d : Cand} (s : State) (k l : Nat) (h : d.stored = true) : s.takeOps k l d =
    s.modCell k l (fun c => { c with matching := c.matching.filter (fun m => !(m.ctx == d.ctx && m.frame == d.frame && m.iter == d.iter)) }) := by
  unfold State.takeOps
  rw [if_pos h]

theorem State.takeOps_head {d : Cand} (s : State) (k l : Nat) (h : d.stored = false) : s.takeOps k l d = s.modPort k l d.ctx 0 (fun q => { q with fifo := q.fifo.drop 1 }) := by
  unfold State.takeOps
  rw [if_neg (by simp [h])]

theorem State.takeOps_keeps (s : State) (k l : Nat) (d : Cand) : KeepsTasks s (s.takeOps k l d) k l ∧ SameEdges s (s.takeOps k l d) k l := by
  cases h : d.stored with
  | true => rw [State.takeOps_stored s k l h]; exact ⟨.modCell s k l rfl rfl rfl, .modCell s k l rfl⟩
  | false => rw [State.takeOps_head s k l h]; exact ⟨.modPort .., SameEdges.modPort s k l d.ctx 0 _⟩

theorem State.takeOps_matching (s : State) (k l : Nat) {d : Cand} (h : d.stored = true) :
    ∀ m ∈ ((s.takeOps k l d).cell k l).matching, ¬(m.ctx = d.ctx ∧ m.frame = d.frame ∧ m.iter = d.iter) := by
  intro m hm
  rw [State.takeOps_stored s k l h, State.cell_modCell, if_pos ⟨rfl, rfl⟩] at hm
  simpa [imp_iff_not_or, or_assoc] using (List.mem_filter.mp hm).2

theorem State.takeOps_fifo (s : State) (k l : Nat) {d : Cand} (h : d.stored = false) : (s.takeOps k l d).fifoAt k l d.ctx 0 = (s.fifoAt k l d.ctx 0).drop 1 := by
  rw [State.takeOps_head s k l h]
  unfold State.fifoAt
  rcases s.port_modPort_self k l d.ctx 0 (fun q => { q with fifo := q.fifo.drop 1 }) with h | ⟨h, h'⟩
  · rw [h]
  · rw [h, h']; rfl

/-- A cell whose held accesses that `p` names retry. -/
def Cell.unheld (c : Cell) (p : Nat × Nat → Bool) : Cell :=
  { c with gen := { c.gen with held := released p c.gen.held }, held := c.held.map (fun h => { h with hold := released p h.hold }) }

/-- What keeps the cells keeps their tasks, edges and tokens. -/
structure KeepsCells (s t : State) : Prop where
  mem    : t.mem = s.mem
  time   : t.time = s.time
  frames : ∀ i, (t.isle i).frames = (s.isle i).frames
  cells  : ∀ k l, t.cell k l = { s.cell k l with gen := (t.cell k l).gen, held := (t.cell k l).held }
  engine : ∀ k, (t.core k).matrix = (s.core k).matrix

namespace KeepsCells

theorem refl (s : State) : KeepsCells s s := ⟨rfl, rfl, fun _ => rfl, fun _ _ => rfl, fun _ => rfl⟩
theorem trans (h : KeepsCells s t) (g : KeepsCells t u) : KeepsCells s u where
  mem := g.mem.trans h.mem
  time := g.time.trans h.time
  frames i := (g.frames i).trans (h.frames i)
  cells k l := by rw [g.cells k l, h.cells k l]
  engine k := (g.engine k).trans (h.engine k)

theorem of_read (h : OnlyRead s t) : KeepsCells s t where
  mem := h.mem
  time := by rw [h.rest]
  frames i := by rw [h.isle i]
  cells k l := by unfold State.cell; rw [h.cells k]
  engine k := by rw [h.core k]

theorem tasks (h : KeepsCells s t) (k l : Nat) : KeepsTasks s t k l := ⟨h.mem, h.time, h.frames, by rw [h.cells], by rw [h.cells], by rw [h.cells]⟩
theorem edges (h : KeepsCells s t) (k l : Nat) : SameEdges s t k l := fun x => by unfold State.ctx Cell.ctx; rw [h.cells]
theorem tokens (h : KeepsCells s t) (k l : Nat) : SameTokens s t k l where
  matching := by rw [h.cells]
  fifo x p := by
    unfold State.fifoAt State.port State.ctx Cell.ctx
    rw [h.cells, h.engine]

theorem foldl {β : Type} (f : State → β → State) (hf : ∀ s b, KeepsCells s (f s b)) (l : List β) (s : State) : KeepsCells s (l.foldl f s) :=
  foldl_inv (P := KeepsCells s) (fun t b h => h.trans (hf t b)) l s (.refl s)

theorem modNode (s : State) (n : Nat) (f : Node → Node) : KeepsCells s (s.modNode n f) := by
  rw [s.modNode_rest n f]
  exact ⟨rfl, rfl, fun _ => rfl, fun _ _ => rfl, fun _ => rfl⟩

theorem releaseTile (s : State) (pt x : Nat) : KeepsCells s (s.releaseTile pt x) := by
  have tr := translate_onlyRead s (s.part pt).supervisor pt (x * 2048) false
  unfold State.releaseTile
  split
  · next hq => rw [hq] at tr; exact .of_read tr
  · next t pa hq => rw [hq] at tr; exact .of_read (tr.trans (.setTileSt t pt x pa 0))

theorem unhold (s : State) (pt : Nat) (p : Nat × Nat → Bool) : KeepsCells s (s.unhold pt p) := by
  have map : (s.unhold pt p).cores = s.cores.map (fun e => (e.1, if bit (s.part pt).isles (isleOf e.1) then e.2.unhold p else e.2)) :=
    List.map_congr_left fun e _ => by split <;> rfl
  have core (k : Nat) : aget (s.unhold pt p).cores k = (aget s.cores k).map (fun c => if bit (s.part pt).isles (isleOf k) then c.unhold p else c) := by
    rw [map]
    exact aget_map s.cores (fun k (c : Core) => if bit (s.part pt).isles (isleOf k) then c.unhold p else c) k
  refine ⟨rfl, rfl, fun _ => rfl, fun k l => ?_, fun k => ?_⟩
  · unfold State.cell State.core
    rw [core]
    cases aget s.cores k with
    | none => rfl
    | some c =>
      simp only [Option.map_some, Option.getD_some]
      split
      · have cells : aget (c.unhold p).cells l = (aget c.cells l).map (·.unheld p) := aget_map c.cells (fun _ e => e.unheld p) l
        rw [cells]
        cases aget c.cells l <;> rfl
      · rfl
  · unfold State.core
    rw [core]
    cases aget s.cores k with
    | none => rfl
    | some c =>
      simp only [Option.map_some, Option.getD_some]
      split <;> rfl

theorem reclaim (s : State) (pt : Nat) (was : List Nat) : KeepsCells s (s.reclaim pt was) := by
  unfold State.reclaim
  split
  · exact .refl s
  · exact (foldl (fun t x => t.releaseTile pt x) (fun t x => .releaseTile t pt x) _ s).trans (.unhold _ pt _)

theorem consumeHost (s : State) (k : Nat) (ts : List PortTok) : KeepsCells s (s.consumeHost k ts) := by
  unfold State.consumeHost
  split
  · exact .refl s
  · split
    · exact .refl s
    · exact (foldl _ (fun t _ => .modNode t _ _) _ s).trans (.reclaim _ _ _)

end KeepsCells

/-! ## Credits and frames (R61, R69) -/

/-- Credits of an edge, or for the replies at a port, are reserved. -/
def State.credit (s : State) (k l x m e : Nat) : State := s.modEdge k l x e (fun g => { g with rsv := g.rsv + m })
def State.replyCredit (s : State) (k l x m p : Nat) : State := s.modPort k l x p (fun q => { q with rsv := q.rsv + m })

/-- The credits that a task of a context reserves. -/
def State.takeCredits (s : State) (k l x : Nat) (n : Needs) : State :=
  let t := n.reply.foldl (fun s p => s.replyCredit k l x n.m p) (n.edges.foldl (fun s e => s.credit k l x n.m e) s)
  match n.ret with
  | some e => t.credit k l x 1 e
  | none => t

/-- The frame that it takes, of those that the isle of `s` has free. -/
def State.takeFrame (s t : State) (k : Nat) (n : Needs) : State × Option Nat :=
  if !n.frame then (t, none)
  else match (s.isle (isleOf k)).freeFrame with
  | some f => (t.setFrame k f { st := 3, lead := s.leadOf k }, some f)
  | none => (t, none)

theorem State.cell_modEdge (s : State) (k l x e : Nat) (f : Edge → Edge) : ((s.modEdge k l x e f).cell k l) = { s.cell k l with ctxs := ((s.modEdge k l x e f).cell k l).ctxs } := by
  unfold State.modEdge
  split
  · rw [State.cell_modCtx, if_pos ⟨rfl, rfl⟩]
    rfl
  · split <;> (unfold State.cell; rw [State.core_modCore, if_pos rfl])

theorem KeepsTasks.modEdge (s : State) (k l x e : Nat) (f : Edge → Edge) : KeepsTasks s (s.modEdge k l x e f) k l where
  mem := by rw [State.modEdge_rest]
  time := by rw [State.modEdge_rest]
  frames i := by rw [State.modEdge_rest]; rfl
  ready := by rw [State.cell_modEdge]
  running := by rw [State.cell_modEdge]
  ctxs := by
    unfold State.modEdge
    split
    · exact State.ctxs_length ..
    · split <;> (unfold State.cell; rw [State.core_modCore, if_pos rfl])

theorem SameTokens.modEdge (s : State) (k l x e : Nat) (f : Edge → Edge) : SameTokens s (s.modEdge k l x e f) k l where
  matching := by rw [State.cell_modEdge]
  fifo y q := by
    unfold State.fifoAt State.port State.modEdge
    split
    · exact State.ctx_modCtx_keeps (P := fun c => (c.ports.getD q {}).fifo) (by intro c; rfl) ..
    · split <;> (rw [State.core_modCore, if_pos rfl])

/-- An update of one edge, as another of the context's edges sees it. -/
theorem State.edge_modEdge_at {x g : Nat} (h : s.HasEdge k l x g) (e : Nat) (f : Edge → Edge) :
    (s.modEdge k l x e f).edge k l x g = (if g = e then f (s.edge k l x g) else s.edge k l x g) ∧ (s.modEdge k l x e f).HasEdge k l x g := by
  have ctx := State.ctx_modEdge_any h.1 h.2.1 e k l x f
  rw [if_pos ⟨rfl, rfl, rfl⟩] at ctx
  refine ⟨?_, h.1, (KeepsTasks.modEdge s k l x e f).ctxs ▸ h.2.1, by rw [ctx]; simpa using h.2.2⟩
  unfold State.edge
  rw [if_pos h.1, if_pos h.1, ctx]
  dsimp only
  rw [getD_modify]
  split
  · next hg => subst hg; exact if_pos h.2.2
  · rfl

/-- Credits reserved on edges that are named once each. -/
theorem State.rsv_foldl {x g m : Nat} (es : List Nat) (hn : es.Nodup) (s : State) (h : s.HasEdge k l x g) :
    ((es.foldl (fun s e => s.credit k l x m e) s).edge k l x g).rsv = (s.edge k l x g).rsv + (if g ∈ es then m else 0) ∧ (es.foldl (fun s e => s.credit k l x m e) s).HasEdge k l x g := by
  induction es generalizing s with
  | nil => exact ⟨rfl, h⟩
  | cons e es ih =>
    obtain ⟨he, hs⟩ := List.nodup_cons.mp hn
    obtain ⟨eq, has⟩ := State.edge_modEdge_at h e (fun g => { g with rsv := g.rsv + m })
    obtain ⟨rsv, last⟩ := ih hs (s.credit k l x m e) has
    refine ⟨rsv.trans ?_, last⟩
    rw [State.credit, eq]
    by_cases hg : g = e
    · subst hg
      simp [he]
    · simp [hg]

theorem KeepsTasks.foldl {β : Type} (f : State → β → State) (hf : ∀ s b, KeepsTasks s (f s b) k l) (bs : List β) (s : State) : KeepsTasks s (bs.foldl f s) k l :=
  foldl_inv (P := fun t => KeepsTasks s t k l) (fun t b h => h.trans (hf t b)) bs s (.refl s k l)
theorem SameEdges.foldl {β : Type} (f : State → β → State) (hf : ∀ s b, SameEdges s (f s b) k l) (bs : List β) (s : State) : SameEdges s (bs.foldl f s) k l :=
  foldl_inv (P := fun t => SameEdges s t k l) (fun t b h => h.trans (hf t b)) bs s (.refl s k l)
theorem SameTokens.foldl {β : Type} (f : State → β → State) (hf : ∀ s b, SameTokens s (f s b) k l) (bs : List β) (s : State) : SameTokens s (bs.foldl f s) k l :=
  foldl_inv (P := fun t => SameTokens s t k l) (fun t b h => h.trans (hf t b)) bs s (.refl s k l)

theorem State.takeCredits_keeps (s : State) (k l x : Nat) (n : Needs) : KeepsTasks s (s.takeCredits k l x n) k l ∧ SameTokens s (s.takeCredits k l x n) k l := by
  have tasks : KeepsTasks s (n.reply.foldl (fun s p => s.replyCredit k l x n.m p) (n.edges.foldl (fun s e => s.credit k l x n.m e) s)) k l :=
    (KeepsTasks.foldl _ (fun s e => .modEdge s k l x e _) _ s).trans (.foldl _ (fun s p => .modPort s k l x p _) _ _)
  have tokens : SameTokens s (n.reply.foldl (fun s p => s.replyCredit k l x n.m p) (n.edges.foldl (fun s e => s.credit k l x n.m e) s)) k l :=
    (SameTokens.foldl _ (fun s e => .modEdge s k l x e _) _ s).trans (.foldl _ (fun s p => SameTokens.modPort s k l x p (fun q => { q with rsv := q.rsv + n.m }) fun _ => rfl) _ _)
  unfold State.takeCredits
  dsimp only
  split
  · exact ⟨tasks.trans (.modEdge ..), tokens.trans (SameTokens.modEdge ..)⟩
  · exact ⟨tasks, tokens⟩

theorem State.takeCredits_rsv {x g : Nat} {n : Needs} (hn : n.edges.Nodup) (h : s.HasEdge k l x g) :
    ((s.takeCredits k l x n).edge k l x g).rsv = (s.edge k l x g).rsv + (if g ∈ n.edges then n.m else 0) + (if n.ret = some g then 1 else 0) := by
  obtain ⟨rsv, has⟩ := State.rsv_foldl (m := n.m) n.edges hn s h
  unfold State.takeCredits
  dsimp only
  generalize n.edges.foldl (fun s e => s.credit k l x n.m e) s = s1 at rsv has ⊢
  have tasks := KeepsTasks.foldl (k := k) (l := l) (fun s p => s.replyCredit k l x n.m p) (fun s p => .modPort s k l x p _) n.reply s1
  have edges := SameEdges.foldl (k := k) (l := l) (fun s p => s.replyCredit k l x n.m p) (fun s p => SameEdges.modPort s k l x p _) n.reply s1
  generalize n.reply.foldl (fun s p => s.replyCredit k l x n.m p) s1 = s2 at tasks edges ⊢
  have has2 := HasEdge.of_same has tasks edges
  have rsv2 := (congrArg Edge.rsv (edges.edge h.1 x g)).trans rsv
  rw [← rsv2]
  split
  · next e he =>
    rw [State.credit, (State.edge_modEdge_at has2 e _).1]
    by_cases hg : g = e
    · simp [hg, he]
    · simp [hg, he, Ne.symm hg]
  · next he => simp [he]

/-- A task takes a frame where its class wants one and the isle has one. -/
theorem State.takeFrame_spec (s t : State) (k : Nat) (n : Needs) : (n.frame = true → (s.isle (isleOf k)).freeFrame.isSome = true → (s.takeFrame t k n).2.isSome = true) ∧
    (s.takeFrame t k n).1.mem = t.mem ∧ (s.takeFrame t k n).1.time = t.time ∧ (s.takeFrame t k n).1.cores = t.cores := by
  unfold State.takeFrame
  split
  · next h => exact ⟨fun hf => absurd h (by simp [hf]), rfl, rfl, rfl⟩
  · split
    · exact ⟨fun _ _ => rfl, rfl, rfl, rfl⟩
    · next h => exact ⟨fun _ hs => absurd hs (by rw [h]; simp), rfl, rfl, rfl⟩

theorem State.reserve_noRing {n : Needs} (hr : n.ring = none) (s : State) (k l : Nat) (t : Task) : s.reserve k l n t =
    ((s.takeFrame (s.takeCredits k l t.ctx n) k n).1, { t with
      room := n.edges.map (fun e => (e, n.m))
      replies := n.reply.map (fun p => (p, n.m))
      retRoom := n.ret
      newFrame := (s.takeFrame (s.takeCredits k l t.ctx n) k n).2
      ring := none }) := by
  unfold State.reserve State.takeFrame State.takeCredits State.credit State.replyCredit
  cases n.ret <;> cases n.frame <;> cases (s.isle (isleOf k)).freeFrame <;> simp [hr]

end Sys2Proof.Machine
end

section
/-! A candidate enters the ready set of its cell (R61, R62). -/

namespace Sys2Proof.Machine

variable {s t u : State} {k l : Nat}

/-! ## A candidate enters the ready set (R62) -/

/-- A fold that keeps what it has or takes the element at hand ends with what it began with or with an element. -/
theorem foldl_choice {α : Type} (f : Option α → α → Option α) (hf : ∀ b d, f b d = some d ∨ f b d = b) (l : List α) (b : Option α) :
    l.foldl f b = b ∨ ∃ x ∈ l, l.foldl f b = some x := by
  induction l generalizing b with
  | nil => exact .inl rfl
  | cons d l ih =>
    rw [List.foldl_cons]
    rcases ih (f b d) with h | ⟨x, hx, h⟩
    · rcases hf b d with e | e
      · exact .inr ⟨d, List.mem_cons_self, h.trans e⟩
      · exact .inl (h.trans e)
    · exact .inr ⟨x, List.mem_cons_of_mem _ hx, h⟩

theorem State.firstEligible_eligible {d : Cand} (h : s.firstEligible k l = some d) : s.eligible k l d = true := by
  unfold State.firstEligible at h
  rcases foldl_choice (fun best d => match best with
      | none => some d
      | some b => if s.since k l d < s.since k l b ∨ (s.since k l d = s.since k l b ∧ d.ctx < b.ctx) then some d else some b)
    (fun b d => by
      cases b with
      | none => exact .inl rfl
      | some b =>
        dsimp only
        split
        · exact .inl rfl
        · exact .inr rfl) ((s.candidates k l).filter (s.eligible k l)) none with e | ⟨x, hx, e⟩
  · exact absurd (e.symm.trans h) nofun
  · obtain rfl := Option.some.inj (e.symm.trans h)
    exact (List.mem_filter.mp hx).2

theorem State.eligible_frame {d : Cand} (h : s.eligible k l d = true) (hf : (s.needs k l d.ctx d.cls).frame = true) : (s.isle (isleOf k)).freeFrame.isSome = true := by
  simp only [State.eligible, Bool.and_eq_true] at h
  obtain ⟨-, free⟩ := h
  simpa [State.frameFree, hf] using free

theorem Isle.freeFrame_congr {i j : Isle} (h : j.frames = i.frames) : j.freeFrame = i.freeFrame := by
  unfold Isle.freeFrame
  rw [h]

/-- The task of a candidate, before its reservations. -/
def State.taskOf (s : State) (k l : Nat) (d : Cand) : Task :=
  { ctx := d.ctx, cls := d.cls, frame := d.frame, iter := d.iter, ops := d.ops, pc := ceEntry (s.classEntry k l d.ctx d.cls), serial := (s.cell k l).serial, since := s.time }

/-- The candidate's task enters the ready set of its cell. -/
def Cell.entering (c : Cell) (d : Cand) (t : Task) : Cell :=
  { c with serial := c.serial + 1, ready := c.ready ++ [t], waitFrom := adel c.waitFrom d.key, frameFrom := adel c.frameFrom d.key }

/-- Admission to a class without a ring: nothing can refuse it. -/
theorem State.admitCand_noRing {d : Cand} (hr : (s.needs k l d.ctx d.cls).ring = none) :
    s.admitCand k l d = (let r := ((s.takeOps k l d).consumeHost k d.ops).reserve k l (s.needs k l d.ctx d.cls) (s.taskOf k l d); r.1.modCell k l (·.entering d r.2)) := by
  unfold State.admitCand State.ringSeen
  simp only [hr]
  rw [show ({ ctx := d.ctx, cls := d.cls, frame := d.frame, iter := d.iter, ops := d.ops, pc := ceEntry (s.classEntry k l d.ctx d.cls), serial := (s.cell k l).serial, since := s.time } : Task) = s.taskOf k l d from rfl]
  rw [State.reserve_noRing hr]
  rfl

/-- What admission leaves: the task with the candidate's operands in the ready set, its operands taken, its credits and frame reserved. -/
theorem State.admitCand_spec {d : Cand} (hr : (s.needs k l d.ctx d.cls).ring = none) (hf : s.eligible k l d = true) (hn : (s.needs k l d.ctx d.cls).edges.Nodup) :
    let need := s.needs k l d.ctx d.cls
    let u := s.admitCand k l d
    ∃ t, (u.cell k l).ready = (s.cell k l).ready ++ [t] ∧ (u.cell k l).running = (s.cell k l).running ∧ t.ctx = d.ctx ∧ t.cls = d.cls ∧ t.frame = d.frame ∧ t.iter = d.iter ∧ t.ops = d.ops ∧
      t.pc = ceEntry (s.classEntry k l d.ctx d.cls) ∧ t.staged = [] ∧ t.since = s.time ∧ (need.frame = true → t.newFrame.isSome = true) ∧
      (d.stored = false → u.fifoAt k l d.ctx 0 = (s.fifoAt k l d.ctx 0).drop 1) ∧
      (d.stored = true → ∀ m ∈ (u.cell k l).matching, ¬(m.ctx = d.ctx ∧ m.frame = d.frame ∧ m.iter = d.iter)) ∧
      ∀ g, s.HasEdge k l d.ctx g → (u.edge k l d.ctx g).rsv = (s.edge k l d.ctx g).rsv + (if g ∈ need.edges then need.m else 0) + (if need.ret = some g then 1 else 0) := by
  intro need u
  obtain ⟨tasks1, edges1⟩ := s.takeOps_keeps k l d
  have host := KeepsCells.consumeHost (s.takeOps k l d) k d.ops
  have tasks := tasks1.trans (host.tasks k l)
  have edges := edges1.trans (host.edges k l)
  have tokens := host.tokens k l
  have admitted : u = _ := State.admitCand_noRing hr
  rw [State.reserve_noRing hr] at admitted
  dsimp only at admitted
  generalize (s.takeOps k l d).consumeHost k d.ops = c at tasks edges tokens admitted
  obtain ⟨credits, waits⟩ := c.takeCredits_keeps k l d.ctx need
  have rsv := fun g (h : s.HasEdge k l d.ctx g) => State.takeCredits_rsv (n := need) hn (HasEdge.of_same h tasks edges)
  obtain ⟨frame, -, -, cores⟩ := State.takeFrame_spec c (c.takeCredits k l d.ctx need) k need
  rw [show (s.taskOf k l d).ctx = d.ctx from rfl] at admitted
  generalize c.takeCredits k l d.ctx need = r at credits waits rsv frame cores admitted
  have cell : ∀ i, (c.takeFrame r k need).1.core i = r.core i := fun i => by unfold State.core; rw [cores]
  generalize (c.takeFrame r k need).1 = f at cell admitted
  have ucell : u.cell k l = (r.cell k l).entering d { s.taskOf k l d with
      room := need.edges.map (fun e => (e, need.m))
      replies := need.reply.map (fun p => (p, need.m))
      retRoom := need.ret
      newFrame := (c.takeFrame r k need).2
      ring := none } := by
    rw [admitted, State.cell_modCell, if_pos ⟨rfl, rfl⟩]
    unfold State.cell
    rw [cell]
    rfl
  have ctx : ∀ x, u.ctx k l x = r.ctx k l x := fun x => by unfold State.ctx; rw [ucell]; rfl
  refine ⟨_, by rw [ucell]; exact congrArg (· ++ _) (credits.ready.trans tasks.ready), by rw [ucell]; exact credits.running.trans tasks.running, rfl, rfl, rfl, rfl, rfl, rfl, rfl, rfl, fun hw => ?frame, fun hs => ?fifo,
    fun hs => ?stored, fun g hg => ?rsv⟩
  case frame => exact frame hw (by rw [Isle.freeFrame_congr (tasks.frames _)]; exact State.eligible_frame hf hw)
  case fifo =>
    have : u.fifoAt k l d.ctx 0 = r.fifoAt k l d.ctx 0 := by
      rw [admitted, State.fifoAt_modCell _ _ _ rfl]
      unfold State.fifoAt State.port State.ctx State.cell
      rw [cell]
    rw [this, waits.fifo, tokens.fifo, s.takeOps_fifo k l hs]
  case stored =>
    have : (u.cell k l).matching = ((s.takeOps k l d).cell k l).matching := by
      rw [ucell]
      exact waits.matching.trans tokens.matching
    rw [this]
    exact s.takeOps_matching k l hs
  case rsv =>
    have : u.edge k l d.ctx g = r.edge k l d.ctx g := by
      unfold State.edge
      rw [if_pos hg.1, if_pos hg.1, ctx]
    rw [this, rsv g hg, edges.edge hg.1]

theorem nodup_eraseDups {α : Type} [BEq α] [LawfulBEq α] (l : List α) : l.eraseDups.Nodup := by
  match l with
  | [] => exact List.nodup_nil
  | a :: l =>
    rw [List.eraseDups_cons, List.nodup_cons]
    exact ⟨by simp [List.mem_eraseDups], nodup_eraseDups _⟩
termination_by l.length
decreasing_by exact Nat.lt_succ_of_le (List.length_filter_le ..)

theorem State.needs_edges_nodup (s : State) (k l x cls : Nat) : (s.needs k l x cls).edges.Nodup := nodup_eraseDups _

theorem State.classEntry_of_mem (h : t.mem = s.mem) (k l x n : Nat) : t.classEntry k l x n = s.classEntry k l x n := by
  unfold State.classEntry State.recd
  rw [h]

theorem State.taskAdmit_idle (h : s.phaseRuns k = false) : s.taskAdmit k l = s := by
  unfold State.taskAdmit
  rw [h]
  rfl

theorem State.taskAdmit_admits {d : Cand} (hp : s.phaseRuns k = true) (hr : (s.cell k l).ready.length < 16) (hd : (s.gather k l).firstEligible k l = some d) :
    s.taskAdmit k l = (s.gather k l).admitCand k l d := by
  have room : ¬readySize ≤ ((s.gather k l).cell k l).ready.length := by
    rw [(s.gather_keeps k l).1.ready]
    exact Nat.not_le.mpr hr
  unfold State.taskAdmit
  simp only [hp, Bool.not_true, Bool.false_eq_true, if_false, if_neg room, hd]

end Sys2Proof.Machine
end

section
/-! Admission and dispatch as events (R60 to R63). -/

namespace Sys2Proof.Machine

variable {s t u : State} {k l : Nat}

/-- Admission of the candidate that comes first, with what the state before the matching says of it (R60 to R62, R69). -/
theorem State.taskAdmit_spec {d : Cand} (hp : s.phaseRuns k = true) (hr : (s.cell k l).ready.length < 16) (hd : (s.gather k l).firstEligible k l = some d)
    (hn : ((s.gather k l).needs k l d.ctx d.cls).ring = none) :
    let v := s.gather k l
    let need := v.needs k l d.ctx d.cls
    let u := s.taskAdmit k l
    ∃ t, (u.cell k l).ready = (s.cell k l).ready ++ [t] ∧ (u.cell k l).running = (s.cell k l).running ∧ t.ctx = d.ctx ∧ t.cls = d.cls ∧ t.frame = d.frame ∧ t.iter = d.iter ∧ t.ops = d.ops ∧
      t.pc = ceEntry (s.classEntry k l d.ctx d.cls) ∧ t.staged = [] ∧ t.since = s.time ∧ (need.frame = true → t.newFrame.isSome = true) ∧
      (d.stored = false → u.fifoAt k l d.ctx 0 = (v.fifoAt k l d.ctx 0).drop 1) ∧
      (d.stored = true → ∀ m ∈ (u.cell k l).matching, ¬(m.ctx = d.ctx ∧ m.frame = d.frame ∧ m.iter = d.iter)) ∧
      ∀ g, s.HasEdge k l d.ctx g → (u.edge k l d.ctx g).rsv = (s.edge k l d.ctx g).rsv + (if g ∈ need.edges then need.m else 0) + (if need.ret = some g then 1 else 0) := by
  intro v need u
  obtain ⟨tasks, edges⟩ := s.gather_keeps k l
  obtain ⟨t, ready, running, ctx, cls, frame, iter, ops, pc, staged, since, takes, head, stored, rsv⟩ :=
    State.admitCand_spec hn (State.firstEligible_eligible hd) (v.needs_edges_nodup k l d.ctx d.cls)
  have admits : u = v.admitCand k l d := State.taskAdmit_admits hp hr hd
  rw [admits]
  refine ⟨t, ready.trans (congrArg (· ++ [t]) tasks.ready), running.trans tasks.running, ctx, cls, frame, iter, ops, pc.trans ?_, staged, since.trans tasks.time, takes, head, stored, fun g hg => ?_⟩
  · rw [State.classEntry_of_mem tasks.mem]
  · rw [rsv g (HasEdge.of_same hg tasks edges), edges.edge hg.1]

/-! ## Dispatch (R63) -/

/-- A cell of whose ready tasks one runs. -/
def Cell.dispatched (c : Cell) (f : Task) (cur : List Int) : Cell :=
  { c with ready := c.ready.filter (fun t => t.serial != f.serial), running := some f, cur := cur, l := List.replicate 4 Reg.empty }

theorem State.taskDispatch_idle (h : s.phaseRuns k = false) : s.taskDispatch k l = s := if_neg (by simp [h])

theorem State.taskDispatch_busy (h : (s.cell k l).running ≠ none) : s.taskDispatch k l = s := by
  have busy : s.dispatch k l = s := if_pos (Option.isSome_iff_ne_none.mpr h)
  unfold State.taskDispatch
  rw [busy, ite_self]

section Dispatches

variable {f : Task} {cur : List Int} (hp : s.phaseRuns k = true) (hr : (s.cell k l).running = none)
  (hf : (s.weighed k l).pick (fun t => cePrio (s.classEntry k l t.ctx t.cls)) s.time = some (f, cur))
include hp hr hf

theorem State.taskDispatch_takes {w : State} (ha : (s.setCell k l ((s.cell k l).dispatched f cur)).acquireOps k l f = (w, .ok ())) : s.taskDispatch k l = w := by
  unfold State.taskDispatch State.dispatch
  rw [if_pos hp, hr, if_neg (by simp), hf]
  show (match (s.setCell k l ((s.cell k l).dispatched f cur)).acquireOps k l f with
    | (s2, .ok _) => s2
    | (_, .error e) => (s.setCell k l ((s.cell k l).dispatched f cur)).engineFault k l 0 e f.tag) = w
  rw [ha]

theorem State.taskDispatch_cell (hm : isMemCell l = false) : s.taskDispatch k l = s.setCell k l ((s.cell k l).dispatched f cur) :=
  State.taskDispatch_takes hp hr hf (by unfold State.acquireOps; rw [hm]; rfl)

end Dispatches

theorem State.acquireOps_noted (s : State) (k l : Nat) (f : Task) : Noted s (s.acquireOps k l f).1 ∧ (s.acquireOps k l f).1.mem = s.mem := by
  unfold State.acquireOps
  split
  · exact ⟨.refl s, rfl⟩
  · refine foldl_inv (P := fun r : Did Unit => Noted s r.1 ∧ r.1.mem = s.mem) (fun r o h => ?_) _ _ ⟨.refl s, rfl⟩
    split
    · next w _ =>
      obtain ⟨noted, mem⟩ := State.acquire_noted (Prod.eta (w.acquire k (handleOf l) o.acq)).symm
      exact ⟨h.1.trans noted, mem.trans h.2⟩
    · exact h

theorem Noted.cell (h : Noted s t) (k l : Nat) : t.cell k l = s.cell k l := by
  unfold State.cell
  rw [h.cells]

end Sys2Proof.Machine
end

section
/-! What completed tasks let go, waits for a frame, ordering tokens, returns (R69, R92, R177, R186). -/

namespace Sys2Proof.Machine

variable {s t u : State} {k l : Nat}

/-! ## A token enters its edge (R178) -/

theorem State.edgeWord_modEdge (s : State) (k l x e : Nat) (f : Edge → Edge) (j m y g : Nat) : (s.modEdge k l x e f).edgeWord j m y g = s.edgeWord j m y g := by
  rw [State.modEdge_rest]
  rfl

/-- A token that takes a credit reserved for it. -/
theorem State.enter_reserved {x e : Nat} (h : s.HasEdge k l x e) (tok : Token) :
    let u := (s.modEdge k l x e (fun g => { g with rsv := g.rsv - 1 })).enter k l x e tok
    SentOn s u k l x e tok ∧ (u.edge k l x e).rsv = (s.edge k l x e).rsv - 1 := by
  intro u
  obtain ⟨freed, has⟩ := State.edge_modEdge_at h e (fun g => { g with rsv := g.rsv - 1 })
  have entered : u.edge k l x e = _ := (State.edge_modEdge_at has e _).1
  rw [if_pos rfl] at freed entered
  rw [freed, State.edgeWord_modEdge] at entered
  unfold SentOn
  rw [entered]
  exact ⟨rfl, rfl⟩

theorem State.edge_modCell (hl : l < 32) (f : Cell → Cell) (hf : ∀ c, (f c).ctxs = c.ctxs) (x e : Nat) : (s.modCell k l f).edge k l x e = s.edge k l x e :=
  SameEdges.edge (.modCell s k l (hf _)) hl x e

/-! ## What a completed task has staged (R177) -/

section Staged

variable {f : Task} (hd : (s.cell k l).done = [f]) (hh : (s.cell k l).held = []) (hs : s.storesDone k l = true) (hr : f.ring = none) (hf : f.newFrame = none)
  (hw : ∀ y g, (s.edge k l y g).waiting = [])

include hh hs hr in
/-- A task without requests and without a slot to publish waits for nothing. -/
theorem State.tokensWait_none : s.tokensWait k l f = false := by
  unfold State.tokensWait Task.toPublish
  simp [hh, hs, hr]

include hr hf in
theorem State.leaveTask_none (s : State) : s.leaveTask k l f = s := by
  unfold State.leaveTask Task.toPublish
  simp [hr, hf]

include hd hh hs hr hf hw

/-- Where nothing holds the task's effects back, they all take place. -/
theorem State.releaseStaged_one {b : List (Nat × Nat)} (hq : s.releaseAll k l f.ctx f.staged [] = (u, [], b)) : s.releaseStaged k l = u.modCell k l (fun c => { c with done := [] }) := by
  have tasks : s.releaseTasks k l [f] [] = (u, []) := by
    unfold State.releaseTasks
    rw [if_neg (by simp [State.tokensWait_none hh hs hr]), hq]
    simp [State.leaveTask_none hr hf, State.releaseTasks]
  unfold State.releaseStaged
  rw [State.enterAll_of_nothing_waits hw]
  simp only [hd, tasks]

theorem State.releaseStaged_none (h : f.staged = []) : s.releaseStaged k l = s.modCell k l (fun c => { c with done := [] }) :=
  State.releaseStaged_one hd hh hs hr hf hw (b := []) (by rw [h]; rfl)

theorem State.releaseStaged_single {g : Staged} (h : f.staged = [g]) : s.releaseStaged k l = (s.release1 k l f.ctx g).modCell k l (fun c => { c with done := [] }) := by
  refine State.releaseStaged_one hd hh hs hr hf hw (b := []) ?_
  rw [h]
  unfold State.releaseAll
  cases g with
  | tok e tok => simp [hw, State.releaseAll]
  | call n r => rfl
  | ret n keep v => rfl
  | free n => rfl

theorem State.releaseStaged_tok {e : Nat} {tok : Token} (h : f.staged = [.tok e tok]) (hk : tok.kind = .data) (he : s.HasEdge k l f.ctx e) :
    ((s.releaseStaged k l).cell k l).done = [] ∧ SentOn s (s.releaseStaged k l) k l f.ctx e tok ∧ ((s.releaseStaged k l).edge k l f.ctx e).rsv = (s.edge k l f.ctx e).rsv - 1 := by
  obtain ⟨sent, rsv⟩ := State.enter_reserved he tok
  have single := State.releaseStaged_single hd hh hs hr hf hw h
  unfold State.release1 at single
  dsimp only at single
  rw [if_neg (by rw [hk]; decide)] at single
  generalize (s.modEdge k l f.ctx e (fun g => { g with rsv := g.rsv - 1 })).enter k l f.ctx e tok = w at sent rsv single
  have edge : (s.releaseStaged k l).edge k l f.ctx e = w.edge k l f.ctx e := by
    rw [single]
    exact State.edge_modCell he.1 (fun c => { c with done := [] }) (fun _ => rfl) f.ctx e
  refine ⟨by rw [single, State.cell_modCell, if_pos ⟨rfl, rfl⟩], ?_, by rw [edge, rsv]⟩
  unfold SentOn at sent ⊢
  rw [edge, sent]

theorem State.releaseStaged_call {n : Nat} {r : CallRec} (h : f.staged = [.call n r]) :
    ((s.releaseStaged k l).cell k l).done = [] ∧ (s.releaseStaged k l).frame k n = some { st := 1, lead := s.leadOf k, rcd := r } := by
  rw [State.releaseStaged_single hd hh hs hr hf hw h, State.cell_modCell, if_pos ⟨rfl, rfl⟩]
  refine ⟨rfl, ?_⟩
  show aget ((s.setFrame k n { st := 1, lead := s.leadOf k, rcd := r }).isle (isleOf k)).frames n = _
  rw [State.setFrame, State.isle_modIsle, if_pos rfl]
  exact aget_aset_same ..

theorem State.releaseStaged_ret {n : Nat} {keep : Bool} {v : Reg} {g : Frame} (h : f.staged = [.ret n keep v]) (hg : s.frame k n = some g) :
    ((s.releaseStaged k l).cell k l).done = [] ∧ (s.releaseStaged k l).frame k n = some { g with st := if keep then 2 else 4 } ∧
      ((s.releaseStaged k l).isle (isleOf k)).returns = (s.isle (isleOf k)).returns ++ [⟨n, keep, g.rcd, v⟩] := by
  have single := State.releaseStaged_single hd hh hs hr hf hw h
  unfold State.release1 at single
  simp only [hg] at single
  have isle : (s.releaseStaged k l).isle (isleOf k) = { s.isle (isleOf k) with
      frames := aset (s.isle (isleOf k)).frames n { g with st := if keep then 2 else 4 }
      returns := (s.isle (isleOf k)).returns ++ [⟨n, keep, g.rcd, v⟩] } := by
    rw [single, State.modCell, State.setCell, State.isle_modCore, State.isle_modIsle, if_pos rfl, State.setFrame, State.isle_modIsle, if_pos rfl]
  refine ⟨by rw [single, State.cell_modCell, if_pos ⟨rfl, rfl⟩], ?_, by rw [isle]⟩
  unfold State.frame
  rw [isle]
  exact aget_aset_same ..

end Staged

/-! ## Frames that tasks wait for, ordering tokens (R69, R92) -/

theorem State.frameTimeouts_one {i n : Nat} (h : (s.cell k l).frameFrom = [(i, (n, false))]) (ht : n + 1800000 ≤ s.time) :
    (s.frameTimeouts k l).posts = s.posts ++ [s.faultRecord 0 0 k l 0x02E 0 0 0] ∧ ((s.frameTimeouts k l).cell k l).frameFrom = [(i, (n, true))] := by
  have eq : s.frameTimeouts k l = (s.infoFault k l 0 0x02E 0 0).modCell k l (fun c => { c with frameFrom := aset c.frameFrom i (n, true) }) := by
    have late : decide (n + cyclesPerMs ≤ s.time) = true := decide_eq_true ht
    unfold State.frameTimeouts
    rw [h]
    simp only [List.foldl_cons, List.foldl_nil, late, Bool.not_false, Bool.and_self, if_true]
  rw [eq]
  refine ⟨s.postFault_posts 0 0 k l 0x02E 0 0 0, ?_⟩
  rw [State.cell_modCell, if_pos ⟨rfl, rfl⟩]
  show aset (s.cell k l).frameFrom i (n, true) = _
  rw [h]
  simp [aset]

theorem State.drain_none (h : (s.cell k l).held = []) : s.drain k l = s := by
  unfold State.drain
  rw [h]
  unfold State.drainPort
  rw [h]
  split <;> rfl

section Ordering

variable {x id : Nat} {q : Clr} (h : (s.cell k l).ordIn[x]? = some (id, q))
include h

theorem State.ordArrives_counts (hn : ((aget (s.cell k l).ordClr id).getD []).length < 255) (hh : (s.cell k l).held = []) : s.ordArrives k l x =
    s.modCell k l (fun c => { c with ordIn := c.ordIn.eraseIdx x, ordClr := aset c.ordClr id ((aget (s.cell k l).ordClr id).getD [] ++ [q]) }) := by
  unfold State.ordArrives
  simp only [h]
  rw [if_neg (by simp; omega), State.drain_none (by rw [State.cell_modCell, if_pos ⟨rfl, rfl⟩]; exact hh)]

theorem State.ordArrives_ends (hn : 255 ≤ ((aget (s.cell k l).ordClr id).getD []).length) : (s.ordArrives k l x).posts = s.posts ++ [s.faultRecord 2 3 k l 0x056 id 0 0] := by
  unfold State.ordArrives
  simp only [h]
  rw [if_pos (by simp; omega)]
  exact State.engineFault_posts ..

end Ordering

/-! ## Returns (R69, R186) -/

theorem State.mem_modEdge (s : State) (k l x e : Nat) (f : Edge → Edge) : (s.modEdge k l x e f).mem = s.mem := by rw [State.modEdge_rest]

theorem State.fmtFits_of_mem (h : t.mem = s.mem) (w : Nat) (f : Fmt) : t.fmtFits w f = s.fmtFits w f := by
  unfold State.fmtFits State.inWord State.portWord State.recd
  rw [h]

section Returns

variable {isle n : Nat} {r : Return} (hr : (s.isle isle).returns[n]? = some r) (hw : s.works r.rcd.core = true)

/-- A return leaves its isle, with the frame that RET released. -/
def Isle.returned (i : Isle) (n : Nat) (r : Return) : Isle :=
  { i with
    returns := i.returns.eraseIdx n
    frames := match aget i.frames r.frame with | some g => if g.st = 4 then adel i.frames r.frame else i.frames | none => i.frames }

include hr hw

theorem State.returnArrives_eq : s.returnArrives isle n =
    ((s.modIsle isle (·.returned n r)).modEdge r.rcd.core r.rcd.cell r.rcd.ctx r.rcd.edge (fun g => { g with rsv := g.rsv - 1 })).enterChecked r.rcd.core r.rcd.cell r.rcd.ctx r.rcd.edge
      (dataToken r.v r.rcd.cls r.rcd.frame r.rcd.iter) := by
  unfold State.returnArrives
  simp only [hr, hw]
  rfl

/-- A return that its caller's edge takes. -/
theorem State.returnArrives_enters (hf : s.fmtFits (s.edgeWord r.rcd.core r.rcd.cell r.rcd.ctx r.rcd.edge) r.v.fmt = true)
    (hb : (s.edge r.rcd.core r.rcd.cell r.rcd.ctx r.rcd.edge).sent % ewBurst (s.edgeWord r.rcd.core r.rcd.cell r.rcd.ctx r.rcd.edge) = 0 ∨
      (s.edge r.rcd.core r.rcd.cell r.rcd.ctx r.rcd.edge).first = some (r.rcd.frame, r.rcd.iter, r.rcd.cls)) (he : s.HasEdge r.rcd.core r.rcd.cell r.rcd.ctx r.rcd.edge) :
    SentOn s (s.returnArrives isle n) r.rcd.core r.rcd.cell r.rcd.ctx r.rcd.edge (dataToken r.v r.rcd.cls r.rcd.frame r.rcd.iter) ∧
      ((s.returnArrives isle n).edge r.rcd.core r.rcd.cell r.rcd.ctx r.rcd.edge).rsv = (s.edge r.rcd.core r.rcd.cell r.rcd.ctx r.rcd.edge).rsv - 1 ∧
      ((s.returnArrives isle n).isle isle).returns = (s.isle isle).returns.eraseIdx n := by
  have left : (s.modIsle isle (·.returned n r)).HasEdge r.rcd.core r.rcd.cell r.rcd.ctx r.rcd.edge := he
  obtain ⟨sent, rsv⟩ := State.enter_reserved left (dataToken r.v r.rcd.cls r.rcd.frame r.rcd.iter)
  have freed := (State.edge_modEdge_at left r.rcd.edge (fun g => { g with rsv := g.rsv - 1 })).1
  rw [if_pos rfl] at freed
  have takes : ((s.modIsle isle (·.returned n r)).modEdge r.rcd.core r.rcd.cell r.rcd.ctx r.rcd.edge (fun g => { g with rsv := g.rsv - 1 })).enterFault r.rcd.core r.rcd.cell r.rcd.ctx r.rcd.edge
      (dataToken r.v r.rcd.cls r.rcd.frame r.rcd.iter) = none := by
    unfold State.enterFault
    dsimp only
    have fits := (State.fmtFits_of_mem (s := s) (State.mem_modEdge (s.modIsle isle (·.returned n r)) r.rcd.core r.rcd.cell r.rcd.ctx r.rcd.edge (fun g => { g with rsv := g.rsv - 1 })) _ _).trans hf
    rw [freed, State.edgeWord_modEdge, if_neg (by simp [dataToken])]
    exact (if_neg (by rw [Bool.not_eq_true', Bool.not_eq_false]; exact fits)).trans (if_neg (by rintro ⟨h1, h2⟩; exact hb.elim h1 h2))
  rw [State.returnArrives_eq hr hw]
  unfold State.enterChecked
  rw [takes]
  refine ⟨sent, rsv, ?_⟩
  unfold State.enter
  dsimp only
  rw [State.modEdge_rest, State.modEdge_rest]
  show ((s.modIsle isle (·.returned n r)).isle isle).returns = _
  rw [State.isle_modIsle, if_pos rfl]
  rfl

/-- A return whose format the caller's edge does not take is discarded. -/
theorem State.returnArrives_refused (hf : s.fmtFits (s.edgeWord r.rcd.core r.rcd.cell r.rcd.ctx r.rcd.edge) r.v.fmt = false) :
    (s.returnArrives isle n).posts = s.posts ++ [s.faultRecord 0 0 r.rcd.core r.rcd.cell 0x01B 0 0 (tagWord r.rcd.iter r.rcd.frame r.rcd.ctx r.rcd.cls)] ∧
      ((s.returnArrives isle n).isle isle).returns = (s.isle isle).returns.eraseIdx n := by
  have refuses : ((s.modIsle isle (·.returned n r)).modEdge r.rcd.core r.rcd.cell r.rcd.ctx r.rcd.edge (fun g => { g with rsv := g.rsv - 1 })).enterFault r.rcd.core r.rcd.cell r.rcd.ctx r.rcd.edge
      (dataToken r.v r.rcd.cls r.rcd.frame r.rcd.iter) = some 0x01B := by
    unfold State.enterFault
    dsimp only
    have fits := (State.fmtFits_of_mem (s := s) (State.mem_modEdge (s.modIsle isle (·.returned n r)) r.rcd.core r.rcd.cell r.rcd.ctx r.rcd.edge (fun g => { g with rsv := g.rsv - 1 })) _ _).trans hf
    rw [State.edgeWord_modEdge, if_neg (by simp [dataToken])]
    exact if_pos (by rw [Bool.not_eq_true']; exact fits)
  rw [State.returnArrives_eq hr hw]
  unfold State.enterChecked
  rw [refuses]
  refine ⟨?_, ?_⟩
  · rw [State.postFault_posts, State.faultRecord_modEdge, State.modEdge_rest]
    rfl
  · show ((State.modEdge _ _ _ _ _ _).isle isle).returns = _
    rw [State.modEdge_rest]
    show ((s.modIsle isle (·.returned n r)).isle isle).returns = _
    rw [State.isle_modIsle, if_pos rfl]
    rfl

end Returns

end Sys2Proof.Machine
end

section
/-! The state word of a ring, and a void slot at its head (R195, R196). -/

namespace Sys2Proof.Machine

variable {s t u : State} {k l : Nat}

/-! ## Numbers in memory, bits of a mask -/

theorem leNat_leBytes (n v : Nat) : leNat (leBytes n v) = v % 2 ^ (8 * n) := by
  induction n generalizing v with
  | zero => simp [leBytes, leNat, Nat.mod_one]
  | succ n ih =>
    have split := Nat.mod_mul (x := v) (a := 2 ^ 8) (b := 2 ^ (8 * n))
    rw [leBytes, leNat, ih, show 8 * (n + 1) = 8 + 8 * n by ring, Nat.pow_add, split]
    rfl

/-- What memory holds outside a write is as it was. -/
theorem MemBut.readN {a n : Nat} (h : MemBut s t a n) {b m : Nat} (hb : b + m ≤ a ∨ a + n ≤ b) : Memory.readN t.mem b m = Memory.readN s.mem b m := by
  unfold Memory.readN
  refine List.map_congr_left fun i hi => h (b + i) ?_
  have := List.mem_range.mp hi
  omega

theorem MemBut.readNat {a n : Nat} (h : MemBut s t a n) {b m : Nat} (hb : b + m ≤ a ∨ a + n ≤ b) : Memory.readNat t.mem b m = Memory.readNat s.mem b m := by
  unfold Memory.readNat
  rw [h.readN hb]

theorem bit_eq_testBit (v i : Nat) : bit v i = v.testBit i := by
  rw [Nat.testBit_eq_decide_div_mod_eq]
  rfl

/-- A bit that is set is cleared, and no other. -/
theorem bit_setBit_clear {v i : Nat} (h : bit v i = true) (j : Nat) : bit (setBit v i false) j = (bit v j && j != i) := by
  obtain ⟨a, rfl⟩ : ∃ a, v = 2 ^ i + a := by
    refine Nat.exists_eq_add_of_le (Nat.ge_two_pow_of_testBit ?_)
    rwa [← bit_eq_testBit]
  have cleared : setBit (2 ^ i + a) i false = a := by
    unfold setBit
    rw [h]
    simp [Bool.nat]
  rw [cleared]
  rw [bit_eq_testBit, Nat.testBit_two_pow_add_eq] at h
  simp only [bit_eq_testBit]
  rcases lt_trichotomy j i with hj | rfl | hj
  · rw [Nat.testBit_two_pow_add_gt hj]
    simp [hj.ne]
  · simpa using h
  · obtain ⟨d, rfl⟩ := Nat.exists_eq_add_of_lt hj
    have even : (a / 2 ^ i) % 2 = 0 := by
      rw [Nat.testBit_eq_decide_div_mod_eq] at h
      simpa using h
    have up (v : Nat) : v.testBit (i + d + 1) = (v / 2 ^ i / 2).testBit d := by
      rw [← Nat.testBit_succ, Nat.testBit_div_two_pow]
      congr 1
      omega
    rw [up, up, Nat.add_div_left _ (Nat.two_pow_pos i), show (a / 2 ^ i).succ / 2 = a / 2 ^ i / 2 by omega]
    simp [hj.ne']

/-! ## The state word of a ring (R195, R196) -/

/-- The fields of a state word that its bytes can hold. -/
structure RingSt.Fits (t : RingSt) : Prop where
  ready   : t.ready < 2 ^ 64
  taken   : t.taken < 256
  pending : t.pending < 256
  free    : t.free < 256
  tail    : t.tail < 64
  head    : t.head < 64

/-- A state word as its bits say. -/
def ringOf (v : Nat) : RingSt := ⟨bits v 127 64, bits v 55 48, bits v 39 32, bits v 31 24, bits v 13 8, bits v 5 0⟩

theorem ringOf_fits (v : Nat) : (ringOf v).Fits := by
  constructor <;> exact Nat.mod_lt _ (by decide)

theorem State.ringSt_fits (s : State) (k r : Nat) : (s.ringSt k r).Fits := by
  unfold State.ringSt
  dsimp only
  exact ringOf_fits _

theorem RingSt.Fits.word_lt {r : RingSt} (h : r.Fits) : r.word < 2 ^ 128 := by
  obtain ⟨h1, h2, h3, h4, h5, h6⟩ := h
  unfold RingSt.word
  omega

theorem RingSt.Fits.ringOf_word {r : RingSt} (h : r.Fits) : ringOf r.word = r := by
  obtain ⟨h1, h2, h3, h4, h5, h6⟩ := h
  unfold ringOf RingSt.word bits
  cases r
  simp only [RingSt.mk.injEq] at *
  refine ⟨?_, ?_, ?_, ?_, ?_, ?_⟩ <;> omega

/-- A scratchpad lies below the configuration store. -/
theorem spad_below {k o : Nat} (hk : k ≤ managerCore) (ho : o ≤ spadSize k) : spadBase k + o ≤ 2 ^ 49 := by
  have size : spadSize k ≤ 2 ^ 22 := by unfold spadSize; split <;> decide
  have := Nat.mul_le_mul_right (2 ^ 22) hk
  unfold spadBase managerCore at *
  omega

section SetRing

variable {r : Nat} (hi : s.Inv) (ha : s.ringWordAt k r + 16 ≤ spadSize k) (hk : k ≤ managerCore) (t : RingSt)

include hi in
theorem State.setRing_mem : MemBut s (s.setRing k r t) (spadBase k + s.ringWordAt k r) 16 := fun b hb =>
  Memory.read_writeN_outside hi _ (by rwa [leBytes_length])

include hi ha hk

theorem State.ringEntry_setRing (j : Nat) : (s.setRing k r t).ringEntry k j = s.ringEntry k j := by
  have below := spad_below hk ha
  have same (o m : Nat) : Memory.readNat (s.setRing k r t).mem (ringBase k + o) m = Memory.readNat s.mem (ringBase k + o) m :=
    MemBut.readNat (State.setRing_mem hi t) (.inr (by unfold ringBase; omega))
  unfold State.ringEntry
  simp only [Nat.add_assoc, same]

theorem State.ringSt_setRing (ht : t.Fits) : (s.setRing k r t).ringSt k r = t := by
  have at_ : (s.setRing k r t).ringWordAt k r = s.ringWordAt k r := by
    unfold State.ringWordAt
    rw [State.ringEntry_setRing hi ha hk]
  have word : Memory.readNat (s.setRing k r t).mem (spadBase k + s.ringWordAt k r) 16 = t.word := by
    have written := Memory.readN_writeN hi (leBytes 16 t.word) (spadBase k + s.ringWordAt k r)
    rw [leBytes_length] at written
    have value : leNat (leBytes 16 t.word) = t.word := by
      rw [leNat_leBytes]
      exact Nat.mod_eq_of_lt ht.word_lt
    unfold Memory.readNat
    exact (congrArg leNat written).trans value
  unfold State.ringSt
  simp only [at_, word]
  exact ht.ringOf_word

end SetRing

/-! ## A void slot at a ring's head (R196) -/

theorem State.voidFreeAt_none {x : Nat} (h : bit (s.voidMask k x) (s.ringSt k x).head = false) : s.voidFreeAt k x = s := by
  have kept : s.voidFree k x = s := if_neg (by simp [h])
  unfold State.voidFreeAt
  rw [kept, ite_self]

/-- A ring whose slot at the head has been freed. -/
def RingSt.headFreed (r : RingSt) (slots : Nat) : RingSt := { r with free := r.free + 1, head := (r.head + 1) % slots }

theorem RingSt.Fits.headFreed {r : RingSt} (h : r.Fits) {n : Nat} (hn : 0 < n) (hm : n ≤ 64) (hf : r.free < 255) : (r.headFreed n).Fits where
  ready := h.ready
  taken := h.taken
  pending := h.pending
  free := by show r.free + 1 < 256; omega
  tail := h.tail
  head := (Nat.mod_lt _ hn).trans_le hm

theorem State.voidFreeAt_void {x : Nat} (hl : s.leadOf k = k) (hx : x < s.ringCount k) (hv : bit (s.voidMask k x) (s.ringSt k x).head = true) : s.voidFreeAt k x =
    (s.setRing k x ((s.ringSt k x).headFreed (s.ringEntry k x).2.1)).modRc k (fun c => { c with voids := c.voids.set x (setBit (s.voidMask k x) (s.ringSt k x).head false) }) := by
  unfold State.voidFreeAt State.voidFree
  rw [if_pos ⟨hl, hx⟩]
  dsimp only
  rw [if_pos hv]
  rfl

theorem State.voidMask_modRc {x m : Nat} (hx : x < (s.rc k).voids.length) : (s.modRc k (fun c => { c with voids := c.voids.set x m })).voidMask k x = m := by
  unfold State.voidMask
  rw [State.rc_modRc, if_pos rfl]
  dsimp only
  rw [List.getD_eq_getElem?_getD, List.getElem?_set_self hx]
  rfl

theorem State.ringSt_modRc (s : State) (j : Nat) (f : Rc → Rc) (k x : Nat) : (s.modRc j f).ringSt k x = s.ringSt k x := rfl
theorem MemBut.modRc {a n : Nat} (h : MemBut s t a n) (j : Nat) (f : Rc → Rc) : MemBut s (t.modRc j f) a n := h

theorem State.rc_withMem (s : State) (m : Memory) (k : Nat) : State.rc { s with mem := m } k = s.rc k := rfl

theorem State.voidFreeAt_frees {x : Nat} (hl : s.leadOf k = k) (hx : x < s.ringCount k) (hv : bit (s.voidMask k x) (s.ringSt k x).head = true) (hi : s.Inv) (hk : k ≤ managerCore)
    (hn : 0 < (s.ringEntry k x).2.1) (hm : (s.ringEntry k x).2.1 ≤ 64) (hf : (s.ringSt k x).free < 255) (ha : s.ringWordAt k x + 16 ≤ spadSize k) :
    (s.voidFreeAt k x).ringSt k x = (s.ringSt k x).headFreed (s.ringEntry k x).2.1 ∧
      (∀ j, bit ((s.voidFreeAt k x).voidMask k x) j = (bit (s.voidMask k x) j && j != (s.ringSt k x).head)) ∧ MemBut s (s.voidFreeAt k x) (spadBase k + s.ringWordAt k x) 16 := by
  have fits := s.ringSt_fits k x
  have named : x < (s.rc k).voids.length := by
    by_contra hc
    unfold State.voidMask at hv
    rw [List.getD_eq_default _ _ (Nat.le_of_not_lt hc)] at hv
    simp [bit] at hv
  have ring := State.ringSt_setRing hi ha hk _ (fits.headFreed hn hm hf)
  have mem := State.setRing_mem (k := k) (r := x) hi ((s.ringSt k x).headFreed (s.ringEntry k x).2.1)
  have rc : (s.setRing k x ((s.ringSt k x).headFreed (s.ringEntry k x).2.1)).rc k = s.rc k := State.rc_withMem s _ k
  rw [State.voidFreeAt_void hl hx hv]
  generalize s.setRing k x ((s.ringSt k x).headFreed (s.ringEntry k x).2.1) = t at ring mem rc
  refine ⟨(State.ringSt_modRc ..).trans ring, fun j => ?_, mem.modRc _ _⟩
  rw [← bit_setBit_clear hv j, State.voidMask_modRc (by rwa [rc])]

end Sys2Proof.Machine
end

section
/-! A load of configuration is applied, waits or is refused (R25, R70, R251). -/

namespace Sys2Proof.Machine

variable {s t u : State} {k : Nat}

/-! ## A load of configuration (R25, R70, R251) -/

theorem posts_foldl {β : Type} (f : State → β → State) (hf : ∀ s b, (f s b).posts = s.posts) (l : List β) (s : State) : (l.foldl f s).posts = s.posts :=
  foldl_inv (P := fun t => t.posts = s.posts) (fun t b h => (hf t b).trans h) l s rfl

theorem State.loadCell_posts (s : State) (lead tag : Nat) (b : List Byte) (o : Nat) : (s.loadCell lead tag b o).posts = s.posts := by
  unfold State.loadCell
  dsimp only
  generalize rewriteWords _ _ _ _ = m
  rfl

theorem State.loadMatrix_posts (s : State) (lead tag : Nat) (b : List Byte) (o : Nat) : (s.loadMatrix lead tag b o).posts = s.posts := by
  unfold State.loadMatrix
  dsimp only
  generalize rewriteWords _ _ _ _ = m
  rfl

theorem State.loadHist_posts (s : State) (lead tag : Nat) (b : List Byte) (o : Nat) : (s.loadHist lead tag b o).posts = s.posts := by
  unfold State.loadHist
  dsimp only
  generalize rewriteWords _ _ _ _ = m
  rfl

theorem State.setRing_posts (s : State) (lead r : Nat) (t : RingSt) : (s.setRing lead r t).posts = s.posts := by
  unfold State.setRing
  generalize Memory.writeN _ _ _ = m
  rfl

theorem State.initBarrier_posts (s : State) (lead t arr : Nat) : (s.initBarrier lead t arr).posts = s.posts := by
  unfold State.initBarrier
  dsimp only
  rw [State.modRc_posts, State.modCore_posts]

theorem State.loadRings_posts (s : State) (lead : Nat) (b : List Byte) : (s.loadRings lead b).posts = s.posts := by
  unfold State.loadRings
  dsimp only
  rw [posts_foldl _ fun s t => s.initBarrier_posts lead t _, posts_foldl _ fun s r => s.setRing_posts lead r _]
  generalize List.foldl _ _ _ = m
  rfl

theorem State.loadImage_posts (s : State) (lead : Nat) (b : List Byte) : (s.loadImage lead b).posts = s.posts := by
  unfold State.loadImage
  dsimp only
  rw [State.loadRings_posts, posts_foldl _ fun s o => s.loadHist_posts lead _ b o, posts_foldl _ fun s o => s.loadMatrix_posts lead _ b o,
    posts_foldl _ fun s o => s.loadCell_posts lead _ b o]

/-- The history units of a core take the frontier registers anew (R123). -/
def Core.histsAnew (c : Core) : Core := { c with hists := c.hists.map (fun (h : Nat × Hist) => (h.1, { h.2 with fns := List.replicate 8 [(0, 0)] })) }

/-- What a region controller holds as its image has been applied. -/
def Rc.configured (r : Rc) : Rc :=
  { r with
    specs := []
    fns := List.replicate 8 [(0, 0)]
    applied := true }

theorem State.histsAnew_keeps (l : List Nat) (s : State) (k : Nat) : (l.foldl (fun t k => t.modCore k Core.histsAnew) s).rc k = s.rc k ∧ (l.foldl (fun t k => t.modCore k Core.histsAnew) s).posts = s.posts := by
  refine foldl_inv (f := fun t k => t.modCore k Core.histsAnew) (P := fun t => t.rc k = s.rc k ∧ t.posts = s.posts) (fun t j h => ⟨?_, h.2⟩) l s ⟨rfl, rfl⟩
  rw [← h.1]
  unfold State.rc
  rw [State.core_modCore]
  split
  · next e => rw [e]; rfl
  · rfl

/-- A configuration that passes the validator posts nothing. -/
theorem State.configure_spec {g : Region} {b : List Byte} (h : s.configure g b = .ok u) : u.posts = s.posts ∧ (u.rc g.lead).specs = [] ∧ (u.rc g.lead).fns = List.replicate 8 [(0, 0)] ∧
    (u.rc g.lead).applied = true := by
  unfold State.configure at h
  split at h
  · cases h
  · dsimp only at h
    split at h
    · cases h
    · have posts := s.loadImage_posts g.lead (b.take (imgLen b))
      generalize s.loadImage g.lead (b.take (imgLen b)) = t at h posts
      obtain rfl : g.coreList.foldl (fun t k => t.modCore k Core.histsAnew) (t.modRc g.lead Rc.configured) = u := Except.ok.inj h
      obtain ⟨rc, kept⟩ := State.histsAnew_keeps g.coreList (t.modRc g.lead Rc.configured) g.lead
      rw [rc, kept, State.rc_modRc, if_pos rfl]
      exact ⟨posts, rfl, rfl, rfl⟩

theorem State.readImage_onlyRead {k pt va : Nat} {r : Except (Nat × Nat) (List Byte)} (h : s.readImage k pt va = (t, r)) : OnlyRead s t := by
  unfold State.readImage at h
  split at h
  · next w c hq => cases h; exact readVA_onlyRead hq
  · next w b hq =>
    split at h
    · cases h; exact readVA_onlyRead hq
    · exact (readVA_onlyRead hq).trans (readVA_onlyRead h)

section Applies

variable {ext : Nat} {rest : List Nat} {g : Region} {b : List Byte} (hl : (s.rc k).loads = ext :: rest) (hg : s.regionAt k = some g) (hk : g.lead = k) (hs : g.st = .running)
  (hh : (s.rc k).loadHeld = none) (hb : s.readImage k g.part ((s.rc k).image + ext) = (t, .ok b))
include hl hg hk hs hh hb

theorem State.applyLoad_eq : s.applyLoad k = if imgCause g b = none ∧ (!t.loadMayApply k b) = true then s else match t.configure g b with
    | .ok u => u.modRc k (fun r => { r with loads := rest })
    | .error c => (t.modRc k (fun r => { r with refused := some (r.refused.getD c) })).modRc k (fun r => { r with loads := rest }) := by
  unfold State.applyLoad
  simp only [hl, hg, hh, hk, hb, hs]
  cases t.configure g b <;> simp

theorem State.applyLoad_applies (hm : t.loadMayApply k b = true) (hu : t.configure g b = .ok u) :
    (s.applyLoad k).mem = u.mem ∧ (s.applyLoad k).posts = s.posts ∧ ((s.applyLoad k).rc k).loads = rest ∧ ((s.applyLoad k).rc k).applied = true ∧ ((s.applyLoad k).rc k).specs = [] ∧
      ((s.applyLoad k).rc k).fns = List.replicate 8 [(0, 0)] := by
  obtain ⟨posts, specs, fns, applied⟩ := State.configure_spec hu
  rw [State.applyLoad_eq hl hg hk hs hh hb, if_neg (by simp [hm]), hu]
  dsimp only
  rw [State.rc_modRc, if_pos rfl]
  rw [hk] at specs fns applied
  exact ⟨rfl, posts.trans (State.readImage_onlyRead hb).posts, rfl, applied, specs, fns⟩

theorem State.applyLoad_waits (hi : imgCause g b = none) (hm : t.loadMayApply k b = false) : s.applyLoad k = s := by
  rw [State.applyLoad_eq hl hg hk hs hh hb, if_pos ⟨hi, by simp [hm]⟩]

theorem State.applyLoad_refuses {cause : Nat} (hm : imgCause g b = none → t.loadMayApply k b = true) (hu : t.configure g b = .error cause) :
    (s.applyLoad k).mem = s.mem ∧ (s.applyLoad k).posts = s.posts ∧ ((s.applyLoad k).rc k).loads = rest ∧ ((s.applyLoad k).rc k).refused = some ((s.rc k).refused.getD cause) := by
  have read := State.readImage_onlyRead hb
  rw [State.applyLoad_eq hl hg hk hs hh hb, if_neg (by rintro ⟨h, h'⟩; rw [hm h] at h'; cases h'), hu]
  dsimp only
  rw [State.rc_modRc, if_pos rfl, State.rc_modRc, if_pos rfl, read.rc]
  exact ⟨read.mem, read.posts, rfl, rfl⟩

end Applies

end Sys2Proof.Machine
end

section
/-! The tokens of a point join their port (R178, R254). -/

namespace Sys2Proof.Machine

variable {s t u : State} {k l : Nat}

/-! ## A generator's tokens reach their port (R178, R254) -/

/-- What a token that was sent stands as at its port, but for the scale of its block. -/
structure PortTok.Holds (q : PortTok) (t : Token) : Prop where
  kind  : q.tok.kind = t.kind
  iter  : q.tok.iter = t.iter
  frame : q.tok.frame = t.frame
  cls   : q.tok.cls = t.cls
  b     : q.tok.b = t.b
  data  : q.tok.reg.data = t.reg.data
  valid : q.tok.reg.valid = t.reg.valid
  fmt   : q.tok.reg.fmt = t.reg.fmt

theorem Port.push_fifo (p : Port) (burst arr key : Nat) (t : Token) (acq : Clr) (host : List HostPub) : ∃ q : PortTok, (p.push burst arr key t acq host).fifo = p.fifo ++ [q] ∧ q.Holds t := by
  unfold Port.push
  split
  · exact ⟨_, rfl, ⟨rfl, rfl, rfl, rfl, rfl, rfl, rfl, rfl⟩⟩
  · exact ⟨_, rfl, ⟨rfl, rfl, rfl, rfl, rfl, rfl, rfl, rfl⟩⟩

section Push

variable {x p : Nat} (h : s.HasPort k l x p)
include h

theorem State.HasPort.arrived (n : Nat) : (s.modCell k l (fun c => { c with arr := n })).HasPort k l x p := by
  refine h.of_ctx ?_ ?_
  · rw [State.cell_modCell, if_pos ⟨rfl, rfl⟩]
  · unfold State.ctx
    rw [State.cell_modCell, if_pos ⟨rfl, rfl⟩]
    rfl

theorem State.pushPort_joins (key : Nat) (tok : Token) (acq : Clr) (host : List HostPub) :
    (∃ q : PortTok, (s.pushPort ⟨k, l, x, p⟩ key tok acq host).fifoAt k l x p = s.fifoAt k l x p ++ [q] ∧ q.Holds tok) ∧ (s.pushPort ⟨k, l, x, p⟩ key tok acq host).HasPort k l x p := by
  unfold State.pushPort
  dsimp only
  rw [if_pos h.1]
  have ready := h.arrived ((s.cell k l).arr + 1)
  refine ⟨?_, ready.modPort _ _ ready.2.2⟩
  obtain ⟨q, joined, holds⟩ := Port.push_fifo (s.port k l x p) (pwBurst (s.inWord k l x p)) (s.cell k l).arr key tok acq host
  refine ⟨q, ?_, holds⟩
  unfold State.fifoAt
  rw [State.port_modPort ready, if_pos rfl, ← joined]
  congr 2
  unfold State.port State.ctx
  rw [if_pos h.1, if_pos h.1, State.cell_modCell, if_pos ⟨rfl, rfl⟩]
  rfl

end Push

/-- The i-th token of a point. -/
def SpecRec.token (y : SpecRec) (burst p : Nat) (rs : List Reg) (i : Nat) : Token :=
  { dataToken { rs.getD i Reg.empty with xs := if i % burst == 0 && isMX (rs.getD i Reg.empty).fmt then (rs.getD i Reg.empty).xs else 0 } y.cls 0 (BitVec.ofNat 16 p) with
    b := i % burst == 0
    cfg := y.cfg }

def State.issueOne (s : State) (k l : Nat) (y : SpecRec) (burst p : Nat) (rs : List Reg) (i : Nat) : State := s.pushPort ⟨k, l, y.cfg, y.port⟩ 0 (y.token burst p rs i) [] []

theorem State.issue_eq (s : State) (k l p : Nat) (y : SpecRec) (rs : List Reg) :
    s.issue k l p y rs = (List.range rs.length).foldl (fun t i => t.issueOne k l y (pwBurst (s.portWord k l y.cfg y.port)) p rs i) s := rfl

/-- The first n tokens of a point have joined their port in order. -/
theorem State.issueOne_foldl {y : SpecRec} (burst p : Nat) (rs : List Reg) (n : Nat) (h : s.HasPort k l y.cfg y.port) :
    let u := (List.range n).foldl (fun s i => s.issueOne k l y burst p rs i) s
    u.HasPort k l y.cfg y.port ∧ u.mem = s.mem ∧
      ∃ qs : List PortTok, u.fifoAt k l y.cfg y.port = s.fifoAt k l y.cfg y.port ++ qs ∧ qs.length = n ∧ ∀ j (hj : j < qs.length), qs[j].Holds (y.token burst p rs j) := by
  induction n with
  | zero => exact ⟨h, rfl, [], by simp, rfl, fun j hj => absurd hj (by simp)⟩
  | succ n ih =>
    obtain ⟨port, mem, qs, fifo, len, holds⟩ := ih
    rw [List.range_succ, List.foldl_append, List.foldl_cons, List.foldl_nil]
    generalize (List.range n).foldl (fun s i => s.issueOne k l y burst p rs i) s = v at port mem fifo
    obtain ⟨⟨q, joined, last⟩, port'⟩ := State.pushPort_joins port 0 (y.token burst p rs n) [] []
    refine ⟨port', ?_, qs ++ [q], ?_, by simp [len], fun j hj => ?_⟩
    · unfold State.issueOne
      rw [State.pushPort_rest]
      exact mem
    · unfold State.issueOne
      rw [joined, fifo, List.append_assoc]
    · by_cases hn : j < qs.length
      · rw [List.getElem_append_left hn]
        exact holds j hn
      · obtain rfl : j = n := by rw [List.length_append, List.length_singleton] at hj; omega
        rw [List.getElem_append_right (by omega)]
        simpa using last

/-- The registers of a point have joined a generator's port, each burst's first with B. -/
def JoinsPort (s u : State) (k l : Nat) (y : SpecRec) (p burst : Nat) (rs : List Reg) : Prop :=
  ∃ qs : List PortTok, u.fifoAt k l y.cfg y.port = s.fifoAt k l y.cfg y.port ++ qs ∧ qs.length = rs.length ∧ ∀ j (h : j < qs.length) (h' : j < rs.length),
    qs[j].tok.kind = .data ∧ qs[j].tok.iter = BitVec.ofNat 16 p ∧ qs[j].tok.frame = 0 ∧ qs[j].tok.cls = y.cls ∧ qs[j].tok.b = decide (j % burst = 0) ∧
    qs[j].tok.reg.data = rs[j].data ∧ qs[j].tok.reg.valid = rs[j].valid ∧ qs[j].tok.reg.fmt = rs[j].fmt

theorem State.issue_joins {y : SpecRec} (p : Nat) (rs : List Reg) (h : s.HasPort k l y.cfg y.port) :
    (s.issue k l p y rs).mem = s.mem ∧ JoinsPort s (s.issue k l p y rs) k l y p (pwBurst (s.portWord k l y.cfg y.port)) rs := by
  obtain ⟨-, mem, qs, fifo, len, holds⟩ := State.issueOne_foldl (pwBurst (s.portWord k l y.cfg y.port)) p rs rs.length h
  rw [State.issue_eq]
  refine ⟨mem, qs, fifo, len, fun j hj hr => ?_⟩
  have at_ : rs.getD j Reg.empty = rs[j] := List.getD_eq_getElem _ _ hr
  obtain ⟨kind, iter, frame, cls, b, data, valid, fmt⟩ := holds j hj
  unfold SpecRec.token at kind iter frame cls b data valid fmt
  rw [at_] at kind iter frame cls b data valid fmt
  exact ⟨kind, iter, frame, cls, b.trans (by simp [beq_eq_decide]), data, valid, fmt⟩

end Sys2Proof.Machine
end

section
/-! What the requests of a generator leave as it was (R190, R195, R254). -/

namespace Sys2Proof.Machine

variable {s t u : State} {k l : Nat}

/-! ## What a generator's requests leave (R254) -/

theorem aget_adel_other {α : Type} {k j : Nat} (h : j ≠ k) (m : Assoc α) : aget (adel m k) j = aget m j := by
  induction m with
  | nil => rfl
  | cons c r ih =>
    obtain ⟨i, v⟩ := c
    unfold adel
    split
    · next e => simp [aget, ← e, h]
    · simp [aget, ih]

theorem Memory.read_writeN_below (bs : List Byte) {m : Memory} {a j : Nat} (h : a + bs.length ≤ j) : Memory.read (Memory.writeN m a bs) j = Memory.read m j := by
  induction bs generalizing m a with
  | nil => rfl
  | cons b bs ih =>
    rw [List.length_cons] at h
    rw [Memory.writeN, ih (by omega)]
    unfold Memory.read Memory.write
    split
    · rw [aget_adel_other (by omega)]
    · rw [aget_aset_other _ _ (by omega)]

theorem leNat_lt (bs : List Byte) : leNat bs < 2 ^ (8 * bs.length) := by
  induction bs with
  | nil => exact Nat.one_pos
  | cons b bs ih =>
    have byte : b.toNat < 2 ^ 8 := b.isLt
    rw [leNat, List.length_cons, show 8 * (bs.length + 1) = 8 + 8 * bs.length by ring, Nat.pow_add]
    calc b.toNat + 256 * leNat bs < 2 ^ 8 + 256 * leNat bs := by omega
      _ = 2 ^ 8 * (leNat bs + 1) := by ring
      _ ≤ 2 ^ 8 * 2 ^ (8 * bs.length) := Nat.mul_le_mul_left _ ih

theorem Memory.readNat_lt (m : Memory) (a n : Nat) : Memory.readNat m a n < 2 ^ (8 * n) := by
  have := leNat_lt (Memory.readN m a n)
  rwa [show (Memory.readN m a n).length = n by simp [Memory.readN]] at this

theorem State.core_withMem (s : State) (m : Memory) (k : Nat) : State.core { s with mem := m } k = s.core k := rfl

/-- The end of a ring's state word lies below the configuration store. -/
theorem State.ringWordAt_below (s : State) {lead : Nat} (hl : lead ≤ managerCore) (r : Nat) : spadBase lead + s.ringWordAt lead r + 16 ≤ 2 ^ 49 := by
  have base : (s.ringEntry lead r).1 < 2 ^ (8 * 4) := Memory.readNat_lt ..
  have slots : (s.ringEntry lead r).2.1 < 2 ^ (8 * 1) := Memory.readNat_lt ..
  have size : (s.ringEntry lead r).2.2 ≤ 64 * 2 ^ (8 * 1) := Nat.mul_le_mul_left _ (Memory.readNat_lt ..).le
  have area : (s.ringEntry lead r).2.1 * (s.ringEntry lead r).2.2 ≤ 2 ^ (8 * 1) * (64 * 2 ^ (8 * 1)) := Nat.mul_le_mul slots.le size
  have core : lead * 2 ^ 22 ≤ 1024 * 2 ^ 22 := Nat.mul_le_mul_right (2 ^ 22) hl
  unfold spadBase State.ringWordAt
  dsimp only
  omega

/-- Requests change neither cells nor the stores of the configuration. -/
structure Issues (s t : State) : Prop where
  cells  : ∀ j, (t.core j).cells = (s.core j).cells
  config : ∀ a, 2 ^ 49 ≤ a → Memory.read t.mem a = Memory.read s.mem a

namespace Issues

theorem refl (s : State) : Issues s s := ⟨fun _ => rfl, fun _ _ => rfl⟩
theorem trans (h : Issues s t) (g : Issues t u) : Issues s u := ⟨fun j => (g.cells j).trans (h.cells j), fun a ha => (g.config a ha).trans (h.config a ha)⟩
theorem of_noted (h : Noted s t) (hm : t.mem = s.mem) : Issues s t := ⟨h.cells, fun _ _ => by rw [hm]⟩
theorem of_read (h : OnlyRead s t) : Issues s t := ⟨h.cells, fun _ _ => by rw [h.mem]⟩
theorem of_cores (hc : t.cores = s.cores) (hm : t.mem = s.mem) : Issues s t := ⟨fun j => by unfold State.core; rw [hc], fun _ _ => by rw [hm]⟩

theorem modCore (s : State) (k : Nat) (f : Core → Core) (hf : ∀ c, (f c).cells = c.cells) : Issues s (s.modCore k f) where
  cells j := by rw [State.core_modCore]; split <;> simp_all
  config _ _ := rfl

theorem modNode (s : State) (n : Nat) (f : Node → Node) : Issues s (s.modNode n f) := by
  rw [s.modNode_rest n f]
  exact .of_cores rfl rfl

theorem setRing (s : State) {lead : Nat} (hl : lead ≤ managerCore) (r : Nat) (v : RingSt) : Issues s (s.setRing lead r v) where
  cells j := by
    unfold State.setRing
    rw [State.core_withMem]
  config a ha := by
    unfold State.setRing
    exact Memory.read_writeN_below _ (by rw [leBytes_length]; exact (s.ringWordAt_below hl r).trans ha)

theorem portWord (h : Issues s t) (k l x p : Nat) : t.portWord k l x p = s.portWord k l x p := by
  have config (a n : Nat) (ha : 2 ^ 49 ≤ a) : Memory.readNat t.mem a n = Memory.readNat s.mem a n := by
    unfold Memory.readNat Memory.readN
    exact congrArg leNat (List.map_congr_left fun i _ => h.config (a + i) (by omega))
  unfold State.portWord State.recd
  split
  · exact config _ _ (by unfold cfgBase; omega)
  · exact config _ _ (by unfold matBase; omega)

theorem hasPort {x p : Nat} (h : ∀ j, (t.core j).cells = (s.core j).cells) (hp : s.HasPort k l x p) : t.HasPort k l x p := by
  have cell : t.cell k l = s.cell k l := by unfold State.cell; rw [h]
  unfold State.HasPort State.ctx at *
  rwa [cell]

end Issues

theorem State.touch16_noted {a : Agent} {core off : Nat} {w : Bool} {r : Except Fail Unit} (h : s.touch16 a core off w = (t, r)) : Noted s t ∧ t.mem = s.mem := by
  unfold State.touch16 at h
  split at h
  · cases h; exact ⟨.refl s, rfl⟩
  · next c hc => cases h; exact ⟨.setCore s _ _ (State.check_cells hc) (State.check_rc hc), rfl⟩

/-- A fold over requests of which each keeps P keeps P. -/
theorem did_foldl {α β : Type} {P : State → Prop} (f : Did α → β → Did α) (hf : ∀ r i, P r.1 → P (f r i).1) (l : List β) (r : Did α) (h : P r.1) : P (l.foldl f r).1 :=
  foldl_inv (P := fun r : Did α => P r.1) hf l r h

theorem State.genLoad_issues (s : State) (k l : Nat) (f : Fmt) (y : SpecRec) (a : Int) : Issues s (s.genLoad k l f y a).1 := by
  unfold State.genLoad
  refine did_foldl (P := Issues s) _ (fun r i h => ?_) _ _ (.refl s)
  split
  · next u rs =>
    dsimp only at h ⊢
    split
    all_goals
      next v _ hq =>
      obtain ⟨noted, mem⟩ := State.load_noted hq
      exact h.trans (.of_noted noted mem)
  · exact h

theorem State.shapeOf_issues {eng n j : Nat} {r : Except (Nat × Nat) (Option Shape)} (h : s.shapeOf k eng n j = (t, r)) : Issues s t := by
  have reads {va pt : Nat} {w : State} {r : Except (Nat × Nat) Shape} (h : s.readShape k pt va = (w, r)) : OnlyRead s w := by
    unfold State.readShape at h
    split at h
    · next hq => cases h; exact readVA_onlyRead hq
    · next hq =>
      dsimp only at h
      split at h
      · cases h; exact readVA_onlyRead hq
      · cases h; exact readVA_onlyRead hq
  unfold State.shapeOf at h
  dsimp only at h
  split at h
  · cases h; exact .refl s
  · split at h
    · cases h; exact .refl s
    · split at h
      · next hq => cases h; exact .of_read (reads hq)
      · next hq => cases h; exact (Issues.of_read (reads hq)).trans (.modNode ..)

theorem State.blockScaleAt_reads {pt b : Nat} {sh : Option Shape} {r : Except (Nat × Nat) Nat} (h : s.blockScaleAt k pt sh b = (t, r)) : OnlyRead s t := by
  unfold State.blockScaleAt at h
  split at h
  · cases h; exact .refl s
  · split at h
    · next hq => cases h; exact readVA_onlyRead hq
    · next hq => cases h; exact readVA_onlyRead hq

theorem State.readOp_reads {n j off len : Nat} {r : Except (Nat × Nat) (List Byte)} (h : s.readOp k n j off len = (t, r)) : OnlyRead s t := by
  have reads := readTiles_onlyRead s k (s.partOfNode n) ((s.operand n (s.sameBuf n j)).start + off) len (s.operand n (s.sameBuf n j)).place
  rw [show s.readTiles k (s.partOfNode n) ((s.operand n (s.sameBuf n j)).start + off) len (s.operand n (s.sameBuf n j)).place = (t, r) from h] at reads
  exact reads

theorem State.genGather_issues (s : State) (k l : Nat) (f : Fmt) (y : SpecRec) (a : Int) : Issues s (s.genGather k l f y a).1 := by
  unfold State.genGather
  dsimp only
  split
  · next hq => exact State.shapeOf_issues hq
  · next w sh hq =>
    have shape := State.shapeOf_issues hq
    split
    · exact shape
    · refine did_foldl (P := Issues s) _ (fun r i h => ?_) _ _ shape
      split
      · next u rs =>
        dsimp only at h ⊢
        split
        · exact h
        · split
          · next hr => exact h.trans (.of_read (State.readOp_reads hr))
          · next hr =>
            have read := h.trans (.of_read (State.readOp_reads hr))
            split
            · exact read
            · split
              · next hb => exact read.trans (.of_read (State.blockScaleAt_reads hb))
              · next hb => exact read.trans (.of_read (State.blockScaleAt_reads hb))
      · exact h

theorem State.ringTake_issues {lead r slot : Nat} (hl : lead ≤ managerCore) (h : s.ringTake lead r = some (slot, t)) : Issues s t := by
  unfold State.ringTake at h
  dsimp only at h
  split at h
  · cases h; exact .setRing s hl r _
  · cases h

theorem State.ringFree_issues (s : State) {lead : Nat} (hl : lead ≤ managerCore) (r slot : Nat) (c : Clr) : Issues s (s.ringFree lead r slot c) := by
  have freed : Issues s ((s.setRing lead r { s.ringSt lead r with taken := (s.ringSt lead r).taken - 1, free := (s.ringSt lead r).free + 1 }).slotMerge lead r slot c) :=
    (Issues.setRing s hl r _).trans (.modCore _ _ _ fun _ => rfl)
  unfold State.ringFree
  dsimp only
  split
  · exact freed.trans (.modCore _ _ _ fun _ => rfl)
  · exact freed

/-- The lines of a ring's slot, read one after the other. -/
def State.ringLines (s : State) (k l lead slot : Nat) (f : Fmt) (n : Nat) (g : Nat × Nat × Nat) : Points :=
  (List.range n).foldl (fun (acc : Points) i => match acc with
    | (u, .ok rs) =>
      (match u.loadAt (u.agent k (handleOf l)) ⟨lead, g.1 + slot * g.2.2 + 64 * i, 64⟩ with
       | (v, .ok (b, gone)) => (v, .ok (rs ++ [loaded false f Reg.empty b gone]))
       | (v, .error e) => (v, .error e))
    | e => e) (s, .ok [])

theorem State.ringLines_issues (s : State) (k l lead slot : Nat) (f : Fmt) (n : Nat) (g : Nat × Nat × Nat) : Issues s (s.ringLines k l lead slot f n g).1 := by
  refine did_foldl (P := Issues s) _ (fun r i h => ?_) _ _ (.refl s)
  split
  · dsimp only at h ⊢
    split
    all_goals
      next hq =>
      obtain ⟨noted, mem⟩ := State.loadAt_noted hq
      exact h.trans (.of_noted noted mem)
  · exact h

theorem Issues.of_fst {α : Type} {r : Did α} {v : State} {x : Except Fail α} (h : Issues s r.1) (e : r = (v, x)) : Issues s v := by rwa [e] at h

theorem State.genRing_issues (s : State) {k l : Nat} {f : Fmt} {y : SpecRec} {p : Points} (hl : s.leadOf k ≤ managerCore) (h : s.genRing k l f y = some p) : Issues s p.1 := by
  unfold State.genRing at h
  dsimp only at h
  split at h
  · cases h
  · next slot s1 ht =>
    have taken := State.ringTake_issues hl ht
    obtain rfl := Option.some.inj h
    split
    · exact .refl s
    · next w _ hw =>
      have acquired : Issues s w := by
        split at hw
        · next v _ hv =>
          obtain ⟨touched, mem⟩ := State.touch16_noted hv
          obtain ⟨noted, mem'⟩ := State.acquire_noted hw
          exact (taken.trans (.of_noted touched mem)).trans (.of_noted noted mem')
        · obtain ⟨touched, mem⟩ := State.touch16_noted hw
          exact taken.trans (.of_noted touched mem)
      have reads := State.ringLines_issues w k l (s.leadOf k) slot f y.toks (s.ringEntry (s.leadOf k) y.num)
      split
      · next v _ hv => exact acquired.trans (Issues.of_fst reads hv)
      · next v rs hv =>
        obtain ⟨noted, mem⟩ := State.release_noted v k (handleOf l)
        exact ((acquired.trans (Issues.of_fst reads hv)).trans (.of_noted noted mem)).trans (State.ringFree_issues _ hl _ _ _)

theorem State.storeAt_cells {a : Agent} {core off : Nat} {bs mask : List Byte} {r : Except Fail Unit} (h : s.storeAt a core off bs mask = (t, r)) (j : Nat) : (t.core j).cells = (s.core j).cells := by
  unfold State.storeAt at h
  dsimp only at h
  split at h
  · cases h; rfl
  · next c hc =>
    cases h
    rw [State.core_withMem, State.core_setCore]
    split
    · next e =>
      rw [e]
      exact State.check_cells (d := c) hc
    · rfl

/-- A store changes no cell. -/
theorem State.store_cells (s : State) (a : Agent) (k addr : Nat) (bs mask : List Byte) (al : Nat) (tok : Bool) (j : Nat) : ((s.store a k addr bs mask al tok).1.core j).cells = (s.core j).cells := by
  unfold State.store
  split
  · unfold State.storeGroup
    dsimp only
    generalize (if (s.groupCores k (bits addr 27 24)).any (fun m => !isKeyed m) then 0x180000 else 0x400000 : Nat) = bound
    split
    · rfl
    split
    · rfl
    split
    · rfl
    · refine did_foldl (P := fun t => (t.core j).cells = (s.core j).cells) _ (fun r i h => ?_) _ _ rfl
      split
      · next hq => exact (State.storeAt_cells hq j).trans h
      · next hq => exact (State.storeAt_cells hq j).trans h
  · split
    · rfl
    · rw [Prod.map_fst, id]
      refine did_foldl (P := fun t => (t.core j).cells = (s.core j).cells) _ (fun r i h => ?_) _ _ rfl
      split
      · exact h
      · split
        · next hq => exact (State.storeAt_cells hq j).trans h
        · next hq => exact (State.storeAt_cells hq j).trans h

theorem State.genZero_cells (s : State) (k l : Nat) (y : SpecRec) (a : Int) (j : Nat) : ((s.genZero k l y a).1.core j).cells = (s.core j).cells := by
  unfold State.genZero
  refine did_foldl (P := fun t => (t.core j).cells = (s.core j).cells) _ (fun r i h => ?_) _ _ rfl
  split
  · exact (State.store_cells ..).trans h
  · exact h

end Sys2Proof.Machine
end

section
/-! The points of a stream and its EOS (R254). -/

namespace Sys2Proof.Machine

variable {s t u : State} {k l : Nat}

/-! ## A generator's next point (R254) -/

theorem State.leadOf_lt {g : Region} (h : s.regionAt k = some g) : s.leadOf k ≤ managerCore := by
  have has : g.has k = true := List.find?_some (p := fun r : Region => r.has k) h
  simp only [Region.has, Bool.and_eq_true, beq_iff_eq, decide_eq_true_eq] at has
  obtain ⟨⟨⟨⟨⟨isle, -⟩, -⟩, -⟩, -⟩, core⟩ := has
  unfold isleOf at isle
  unfold managerCore at *
  have lead : s.leadOf k = g.lead := by
    unfold State.leadOf
    rw [h]
    rfl
  omega

/-- The state in which a point has been issued. -/
theorem State.genPoint_ok {p : Nat} {y : SpecRec} {rs : List Reg} (hl : s.leadOf k ≤ managerCore) (h : s.genPoint k l p y = some (t, .ok rs)) :
    (∀ j, (t.core j).cells = (s.core j).cells) ∧ (t.portWord k l y.cfg y.port = s.portWord k l y.cfg y.port ∨ rs.length = 1) := by
  have issues (hi : Issues s t) : (∀ j, (t.core j).cells = (s.core j).cells) ∧ (t.portWord k l y.cfg y.port = s.portWord k l y.cfg y.port ∨ rs.length = 1) := ⟨hi.cells, .inl (hi.portWord ..)⟩
  unfold State.genPoint at h
  dsimp only at h
  split at h
  · cases h; exact issues (.refl s)
  · exact issues (Issues.of_fst (State.genLoad_issues ..) (Option.some.inj h))
  · exact issues (Issues.of_fst (State.genGather_issues ..) (Option.some.inj h))
  · exact issues (State.genRing_issues s hl h)
  · split at h
    · next w _ hq =>
      cases h
      refine ⟨fun j => ?_, .inr rfl⟩
      have := s.genZero_cells k l y (y.address (coords (s.rc (s.leadOf k)).space p)) j
      rwa [hq] at this
    · exact absurd (Option.some.inj h) (by simp)

theorem narrow_lt (f : Fmt) (v : Nat) : narrow f v < 2 ^ 32 := by
  unfold narrow
  refine (Nat.mod_lt _ (Nat.two_pow_pos _)).trans_le (Nat.pow_le_pow_right (by decide) ?_)
  cases f <;> decide

theorem countReg_lane (f : Fmt) (p : Nat) (cs : List Nat) (six : Nat) : laneOf (countReg f p cs six) 0 = narrow f (p % 2 ^ 32) ∧ laneOf (countReg f p cs six) 1 = narrow f (p / 2 ^ 32 % 2 ^ 32) := by
  unfold countReg
  rw [laneOf_mkReg _ _ _ _ _ _ (by decide), laneOf_mkReg _ _ _ _ _ _ (by decide)]
  exact ⟨Nat.mod_eq_of_lt (narrow_lt ..), Nat.mod_eq_of_lt (narrow_lt ..)⟩

theorem countReg_ok (f : Fmt) (p : Nat) (cs : List Nat) (six : Nat) {j : Nat} (hj : j < 16) : okAt (countReg f p cs six) j = true := by
  unfold countReg
  rw [okAt_mkReg _ _ _ _ _ _ hj]
  rfl

/-- A generator whose stream goes on. -/
structure State.Streams (s : State) (k l : Nat) (y : SpecRec) (g : Region) : Prop where
  spec     : s.specOf k l = some y
  region   : s.regionAt k = some g
  runs     : g.st = .running
  inPhase  : (s.rc (s.leadOf k)).inPhase = true
  aborting : (s.rc (s.leadOf k)).aborting = false
  live     : (s.cell k l).gen.live = true
  held     : (s.cell k l).gen.held = none
  barc     : (s.cell k l).gen.barc = []
  port     : s.HasPort k l y.cfg y.port

namespace State.Streams

variable {y : SpecRec} {g : Region} (h : s.Streams k l y g)
include h

/-- The points of the stream. -/
theorem generate_eq : s.generate k l =
    if spaceSize (s.rc (s.leadOf k)).space ≤ (s.cell k l).gen.point then
      (s.modCell k l (fun c => { c with gen := { c.gen with eos := true } })).reach ⟨k, l, y.cfg, y.port⟩ 0 { eosToken 0 (BitVec.ofNat 16 (spaceSize (s.rc (s.leadOf k)).space)) with cfg := y.cfg } []
    else if y.kind ≠ 0 ∧ ((s.cell k l).running.isSome ∨ !(s.cell k l).held.isEmpty) then s
    else match s.genPoint k l (s.cell k l).gen.point y with
      | none => s
      | some (t, .ok rs) => (t.issue k l (s.cell k l).gen.point y rs).modCell k l (fun c => { c with gen := { c.gen with point := (s.cell k l).gen.point + 1 } })
      | some (t, .error e) => t.genFail k l e := by
  obtain ⟨spec, region, runs, inPhase, aborting, live, held, barc, -⟩ := h
  unfold State.generate
  simp only [spec, region, runs, inPhase, aborting, live, held, barc]
  rfl

theorem point_eq (hp : (s.cell k l).gen.point < spaceSize (s.rc (s.leadOf k)).space) (hk : y.kind = 0 ∨ ((s.cell k l).running = none ∧ (s.cell k l).held = [])) :
    s.generate k l = match s.genPoint k l (s.cell k l).gen.point y with
      | none => s
      | some (t, .ok rs) => (t.issue k l (s.cell k l).gen.point y rs).modCell k l (fun c => { c with gen := { c.gen with point := (s.cell k l).gen.point + 1 } })
      | some (t, .error e) => t.genFail k l e := by
  rw [h.generate_eq, if_neg (Nat.not_le.mpr hp), if_neg]
  rintro ⟨kind, waits⟩
  rcases hk with hk | ⟨running, held⟩
  · exact kind hk
  · simp [running, held] at waits

theorem issues_point {rs : List Reg} (hp : (s.cell k l).gen.point < spaceSize (s.rc (s.leadOf k)).space) (hk : y.kind = 0 ∨ ((s.cell k l).running = none ∧ (s.cell k l).held = []))
    (hq : s.genPoint k l (s.cell k l).gen.point y = some (t, .ok rs)) :
    ((s.generate k l).cell k l).gen.point = (s.cell k l).gen.point + 1 ∧ (s.generate k l).mem = t.mem ∧
      JoinsPort t (s.generate k l) k l y (s.cell k l).gen.point (pwBurst (s.portWord k l y.cfg y.port)) rs := by
  obtain ⟨cells, word⟩ := State.genPoint_ok (State.leadOf_lt h.region) hq
  have eq := h.point_eq hp hk
  rw [hq] at eq
  dsimp only at eq
  obtain ⟨mem, qs, fifo, len, holds⟩ := State.issue_joins (s.cell k l).gen.point rs (Issues.hasPort cells h.port)
  rw [eq]
  refine ⟨by rw [State.cell_modCell, if_pos ⟨rfl, rfl⟩], mem, qs, ?_, len, fun j hj hr => ?_⟩
  · rw [State.fifoAt_modCell _ _ _ rfl]
    exact fifo
  · obtain ⟨kind, iter, frame, cls, b, rest⟩ := holds j hj hr
    refine ⟨kind, iter, frame, cls, b.trans ?_, rest⟩
    rcases word with word | one
    · rw [word]
    · obtain rfl : j = 0 := by omega
      simp

theorem issues_count (hp : (s.cell k l).gen.point < spaceSize (s.rc (s.leadOf k)).space) (hk : y.kind = 0) : ∃ r,
    ((s.generate k l).cell k l).gen.point = (s.cell k l).gen.point + 1 ∧ (s.generate k l).mem = s.mem ∧
      JoinsPort s (s.generate k l) k l y (s.cell k l).gen.point (pwBurst (s.portWord k l y.cfg y.port)) [r] ∧ r.fmt = pwFmt (s.portWord k l y.cfg y.port) ∧ (∀ j, j < 16 → okAt r j = true) ∧
      laneOf r 0 = narrow (pwFmt (s.portWord k l y.cfg y.port)) ((s.cell k l).gen.point % 2 ^ 32) ∧ laneOf r 1 = narrow (pwFmt (s.portWord k l y.cfg y.port)) ((s.cell k l).gen.point / 2 ^ 32 % 2 ^ 32) := by
  obtain ⟨six, count⟩ : ∃ six, s.genPoint k l (s.cell k l).gen.point y =
      some (s, .ok [countReg (pwFmt (s.portWord k l y.cfg y.port)) (s.cell k l).gen.point (coords (s.rc (s.leadOf k)).space (s.cell k l).gen.point) six]) := by
    unfold State.genPoint
    rw [hk]
    exact ⟨_, rfl⟩
  obtain ⟨point, mem, joins⟩ := h.issues_point hp (.inl hk) count
  exact ⟨_, point, mem, joins, rfl, fun j hj => countReg_ok _ _ _ _ hj, countReg_lane ..⟩

theorem stops {q : Fail} (hp : (s.cell k l).gen.point < spaceSize (s.rc (s.leadOf k)).space) (hk : y.kind = 0 ∨ ((s.cell k l).running = none ∧ (s.cell k l).held = []))
    (hq : s.genPoint k l (s.cell k l).gen.point y = some (t, .error q)) (h5 : q.cause ≠ 0x055) (h6 : q.cause ≠ 0x056) (hn : stopsNode q.cause = false) :
    ((s.generate k l).cell k l).gen.held = some (q.cause, q.addr) ∧
      (s.generate k l).posts = t.posts ++ [t.faultRecord (if holdsAccess q.cause then externSev q.cause else 1) 3 k l q.cause q.addr q.detail 0] := by
  have eq := h.point_eq hp hk
  rw [hq] at eq
  dsimp only at eq
  unfold State.genFail at eq
  rw [if_neg (by simp [h5, h6, hn])] at eq
  rw [eq, State.cell_modCell, if_pos ⟨rfl, rfl⟩]
  exact ⟨rfl, t.postFault_posts ..⟩

theorem waits_slot (hp : (s.cell k l).gen.point < spaceSize (s.rc (s.leadOf k)).space) (hk : y.kind = 0 ∨ ((s.cell k l).running = none ∧ (s.cell k l).held = []))
    (hq : s.genPoint k l (s.cell k l).gen.point y = none) : s.generate k l = s := by
  have eq := h.point_eq hp hk
  rwa [hq] at eq

theorem waits_tasks (hp : (s.cell k l).gen.point < spaceSize (s.rc (s.leadOf k)).space) (hk : y.kind ≠ 0) (hw : (s.cell k l).running ≠ none ∨ (s.cell k l).held ≠ []) : s.generate k l = s := by
  refine h.generate_eq.trans ((if_neg (Nat.not_le.mpr hp)).trans (if_pos ⟨hk, ?_⟩))
  rcases hw with hw | hw
  · exact .inl (Option.isSome_iff_ne_none.mpr hw)
  · exact .inr (by simpa using hw)

end State.Streams

/-- An EOS reaches a port of a running phase whose behaviour keeps it (R66, R151). -/
theorem State.reach_eos {x p : Nat} {tok : Token} (hk : tok.kind = .eos) (hl : l < 32) (hi : (s.rc (s.leadOf k)).inPhase = true)
    (he : pwEos (s.portWord k l x p) = 0 ∨ pwEos (s.portWord k l x p) = 3) (key : Nat) : s.reach ⟨k, l, x, p⟩ key tok [] = s.pushPort ⟨k, l, x, p⟩ key tok [] [] := by
  have word : s.inWord k l x p = s.portWord k l x p := if_pos hl
  unfold State.reach refusesMark
  dsimp only
  rw [word, hk, hi, if_neg (by simp), if_neg (by omega), if_neg (by simp), if_neg (by rintro ⟨-, h⟩; omega), if_neg (by rintro ⟨-, h, -⟩; omega)]

theorem State.cell_pushPort (s : State) (k l x p key : Nat) (tok : Token) (acq : Clr) (host : List HostPub) (hl : l < 32) :
    (s.pushPort ⟨k, l, x, p⟩ key tok acq host).cell k l = { s.cell k l with arr := (s.cell k l).arr + 1, ctxs := ((s.pushPort ⟨k, l, x, p⟩ key tok acq host).cell k l).ctxs } := by
  unfold State.pushPort
  dsimp only
  rw [if_pos hl, State.cell_modPort, State.cell_modCell, if_pos ⟨rfl, rfl⟩]

/-- An EOS joins a port with its place in the order of arrivals. -/
theorem State.pushPort_eos {x p : Nat} (h : s.HasPort k l x p) {tok : Token} (hk : tok.kind = .eos) (key : Nat) : JoinedAt s (s.pushPort ⟨k, l, x, p⟩ key tok [] []) ⟨k, l, x, p⟩ key tok := by
  have ready := h.arrived ((s.cell k l).arr + 1)
  unfold State.pushPort
  dsimp only
  rw [if_pos h.1]
  refine ⟨⟨tok, 0, [], (s.cell k l).arr, key, []⟩, ?_, rfl, rfl, rfl, rfl, rfl, rfl⟩
  have same : (s.modCell k l (fun c => { c with arr := (s.cell k l).arr + 1 })).port k l x p = s.port k l x p := by
    unfold State.port State.ctx
    rw [if_pos h.1, if_pos h.1, State.cell_modCell, if_pos ⟨rfl, rfl⟩]
    rfl
  unfold State.fifoAt
  dsimp only
  rw [State.port_modPort ready, if_pos rfl, same]
  unfold Port.push
  rw [if_neg (by rw [hk]; decide)]

theorem State.Streams.ends {y : SpecRec} {g : Region} (h : s.Streams k l y g) (hp : spaceSize (s.rc (s.leadOf k)).space ≤ (s.cell k l).gen.point)
    (he : pwEos (s.portWord k l y.cfg y.port) = 0 ∨ pwEos (s.portWord k l y.cfg y.port) = 3) :
    ((s.generate k l).cell k l).gen.eos = true ∧ JoinedAt s (s.generate k l) ⟨k, l, y.cfg, y.port⟩ 0 (eosToken 0 (BitVec.ofNat 16 (spaceSize (s.rc (s.leadOf k)).space))) := by
  have eq := h.generate_eq
  rw [if_pos hp] at eq
  have inPhase := h.inPhase
  have fifo := s.fifoAt_modCell k l (f := fun c => { c with gen := { c.gen with eos := true } }) rfl y.cfg y.port
  have cell : (s.modCell k l (fun c => { c with gen := { c.gen with eos := true } })).cell k l = { s.cell k l with gen := { (s.cell k l).gen with eos := true } } := by
    rw [State.cell_modCell, if_pos ⟨rfl, rfl⟩]
  have port : (s.modCell k l (fun c => { c with gen := { c.gen with eos := true } })).HasPort k l y.cfg y.port := by
    unfold State.HasPort State.ctx
    rw [cell]
    exact h.port
  rw [State.reach_eos (s := s.modCell k l (fun c => { c with gen := { c.gen with eos := true } })) rfl h.port.1 (by rw [State.rc_modCell]; exact inPhase) he] at eq
  obtain ⟨q, joins, rest⟩ := State.pushPort_eos port (tok := { eosToken 0 (BitVec.ofNat 16 (spaceSize (s.rc (s.leadOf k)).space)) with cfg := y.cfg }) rfl 0
  dsimp only at joins rest
  rw [cell] at rest
  rw [eq]
  refine ⟨?_, q, joins.trans (congrArg (· ++ [q]) fifo), rest⟩
  rw [State.cell_pushPort _ _ _ _ _ _ _ _ _ h.port.1, cell]

end Sys2Proof.Machine
end

section
/-! Stream barriers: cells release, merge the sets of all, and go on (R256). -/

namespace Sys2Proof.Machine

variable {s t u : State} {k l : Nat}

/-! ## A stream barrier (R256) -/

theorem State.ord_setOrd (s : State) (k h j : Nat) (o : Ord) : (s.setOrd k h o).ord k j = if j = h then o else s.ord k j := by
  unfold State.setOrd State.ord
  rw [State.core_modCore, if_pos rfl]
  dsimp only
  rw [aget_aset]
  split <;> rfl

theorem State.ord_acquire {h j : Nat} {c : Clr} {r : Except Fail Unit} (hq : s.acquire k h c = (t, r)) : (t.ord k j).oc = (s.ord k j).oc := by
  unfold State.acquire at hq
  dsimp only at hq
  split at hq
  · cases hq; rfl
  · cases hq
    rw [State.ord_setOrd]
    split
    · next e => rw [e]
    · rfl

/-- One memory cell releases, and its set joins those of the others. -/
def releaseInto (k : Nat) (acc : State × Clr) (h : Nat) : State × Clr := ((acc.1.release k h).1, Clr.merge acc.2 (acc.1.release k h).2)

theorem releaseInto_foldl {hs : List Nat} (hn : hs.Nodup) (acc : State × Clr) :
    (Noted acc.1 (hs.foldl (releaseInto k) acc).1 ∧ (hs.foldl (releaseInto k) acc).1.mem = acc.1.mem) ∧
      ∀ h, ((hs.foldl (releaseInto k) acc).1.ord k h).oc = (acc.1.ord k h).oc + (if h ∈ hs then 1 else 0) := by
  induction hs generalizing acc with
  | nil => exact ⟨⟨.refl _, rfl⟩, fun _ => rfl⟩
  | cons j hs ih =>
    obtain ⟨hj, hn⟩ := List.nodup_cons.mp hn
    obtain ⟨noted, mem⟩ := acc.1.release_noted k j
    obtain ⟨⟨later, kept⟩, counts⟩ := ih hn (releaseInto k acc j)
    refine ⟨⟨noted.trans later, kept.trans mem⟩, fun h => (counts h).trans ?_⟩
    have one : ((acc.1.release k j).1.ord k h).oc = (acc.1.ord k h).oc + (if h = j then 1 else 0) := by
      unfold State.release
      rw [State.ord_setOrd]
      split
      · next e => rw [e]
      · rfl
    show ((acc.1.release k j).1.ord k h).oc + _ = _
    rw [one]
    by_cases e : h = j
    · simp [e, hj]
    · simp [e]

/-- One memory cell merges the set of all. -/
def acquireFrom (k : Nat) (c : Clr) (acc : Did Unit) (h : Nat) : Did Unit :=
  match acc with
  | (t, .ok _) => t.acquire k h c
  | e => e

theorem acquireFrom_foldl (hs : List Nat) (c : Clr) (acc : Did Unit) :
    (Noted acc.1 (hs.foldl (acquireFrom k c) acc).1 ∧ (hs.foldl (acquireFrom k c) acc).1.mem = acc.1.mem) ∧ ∀ h, ((hs.foldl (acquireFrom k c) acc).1.ord k h).oc = (acc.1.ord k h).oc := by
  refine did_foldl (P := fun t => (Noted acc.1 t ∧ t.mem = acc.1.mem) ∧ ∀ h, (t.ord k h).oc = (acc.1.ord k h).oc) (acquireFrom k c) (fun r i hr => ?_) hs acc ⟨⟨.refl _, rfl⟩, fun _ => rfl⟩
  obtain ⟨⟨noted, mem⟩, counts⟩ := hr
  unfold acquireFrom
  split
  · next v _ =>
    dsimp only at noted mem counts
    rcases hq : v.acquire k i c with ⟨w, x⟩
    obtain ⟨merged, kept⟩ := State.acquire_noted hq
    exact ⟨⟨noted.trans merged, kept.trans mem⟩, fun h => (State.ord_acquire hq).trans (counts h)⟩
  · exact ⟨⟨noted, mem⟩, counts⟩

theorem State.barcMerge_eq (s : State) (k m : Nat) : s.barcMerge k m =
    (barcCells m).foldl (acquireFrom k ((barcCells m).foldl (releaseInto k) (s, [])).2) (((barcCells m).foldl (releaseInto k) (s, [])).1, .ok ()) := by
  rfl

theorem barcCells_nodup (m : Nat) : (barcCells m).Nodup := List.nodup_range.filter _

/-- The cells of a barrier release once each. -/
theorem State.barcMerge_spec {m : Nat} {r : Except Fail Unit} (h : s.barcMerge k m = (t, r)) : (Noted s t ∧ t.mem = s.mem) ∧ ∀ j ∈ barcCells m, (t.ord k j).oc = (s.ord k j).oc + 1 := by
  obtain ⟨⟨noted, mem⟩, counts⟩ := releaseInto_foldl (k := k) (barcCells_nodup m) (s, [])
  rw [State.barcMerge_eq] at h
  generalize (barcCells m).foldl (releaseInto k) (s, []) = p at noted mem counts h
  obtain ⟨⟨merged, kept⟩, same⟩ := acquireFrom_foldl (k := k) (barcCells m) p.2 (p.1, .ok ())
  rw [h] at merged kept same
  exact ⟨⟨noted.trans merged, kept.trans mem⟩, fun j hj => (same j).trans ((counts j).trans (by rw [if_pos hj]))⟩

theorem cellOfHandle_inj {g h : Nat} (hg : g < 8) (hh : h < 8) (e : cellOfHandle g = cellOfHandle h) : g = h := by
  unfold cellOfHandle at e
  split at e <;> split at e <;> omega

/-- A barrier point has passed in one of its cells. -/
def State.barcPassed (s : State) (k m h : Nat) : State := s.modCell k (cellOfHandle h) (fun c => { c with gen := { c.gen with barc := c.gen.barc.erase m } })

theorem State.barcPassed_foldl {hs : List Nat} {m : Nat} (hn : hs.Nodup) (hb : ∀ h ∈ hs, h < 8) (s : State) :
    let u := hs.foldl (fun s h => s.barcPassed k m h) s
    (u = { s with cores := u.cores } ∧ (∀ j, u.rc j = s.rc j) ∧ ∀ j h, u.ord j h = s.ord j h) ∧
      ∀ h < 8, (u.cell k (cellOfHandle h)).gen.barc = if h ∈ hs then (s.cell k (cellOfHandle h)).gen.barc.erase m else (s.cell k (cellOfHandle h)).gen.barc := by
  induction hs generalizing s with
  | nil => exact ⟨⟨rfl, fun _ => rfl, fun _ _ => rfl⟩, fun _ _ => rfl⟩
  | cons i hs ih =>
    obtain ⟨hi, hn⟩ := List.nodup_cons.mp hn
    obtain ⟨⟨rest, rc, ord⟩, barc⟩ := ih hn (fun h hh => hb h (List.mem_cons_of_mem _ hh)) (s.barcPassed k m i)
    rw [List.foldl_cons]
    dsimp only at rest rc ord barc ⊢
    refine ⟨⟨rest, fun j => (rc j).trans (State.rc_modCell ..), fun j h => (ord j h).trans ?_⟩, fun h hh => (barc h hh).trans ?_⟩
    · unfold State.barcPassed State.ord State.modCell State.setCell
      rw [State.core_modCore]
      split
      · next e => rw [e]
      · rfl
    · have cell : (s.barcPassed k m i).cell k (cellOfHandle h) =
          if h = i then { s.cell k (cellOfHandle h) with gen := { (s.cell k (cellOfHandle h)).gen with barc := (s.cell k (cellOfHandle h)).gen.barc.erase m } } else s.cell k (cellOfHandle h) := by
        unfold State.barcPassed
        rw [State.cell_modCell]
        by_cases e : h = i
        · rw [if_pos ⟨rfl, by rw [e]⟩, if_pos e, e]
        · rw [if_neg (fun c => e (cellOfHandle_inj hh (hb i List.mem_cons_self) c.2)), if_neg e]
      rw [cell]
      by_cases e : h = i
      · rw [if_pos e, if_neg (e ▸ hi), if_pos (e ▸ List.mem_cons_self)]
      · simp [e]

theorem State.barcPoint_passes {n m : Nat} (hm : (s.rc k).barc[n]? = some m) (he : ((s.rc k).barc.take n).all (fun b => (barcCells m).all (fun h => !bit b h)) = true)
    (hh : ∀ h ∈ barcCells m, (s.cell k (cellOfHandle h)).gen.held = none ∧ (s.cell k (cellOfHandle h)).held = []) (hq : s.barcMerge k m = (t, .ok ())) :
    (s.barcPoint k n).mem = s.mem ∧ (s.barcPoint k n).posts = s.posts ∧ ((s.barcPoint k n).rc k).barc = (s.rc k).barc.eraseIdx n ∧
      ∀ h ∈ barcCells m, ((s.barcPoint k n).cell k (cellOfHandle h)).gen.barc = (s.cell k (cellOfHandle h)).gen.barc.erase m ∧ ((s.barcPoint k n).ord k h).oc = (s.ord k h).oc + 1 := by
  have reached : s.barcReached k n = some m := by
    unfold State.barcReached
    rw [hm]
    dsimp only
    rw [he, if_pos]
    rw [Bool.and_true, List.all_eq_true]
    intro h hb
    simp [hh h hb]
  obtain ⟨⟨noted, mem⟩, counts⟩ := State.barcMerge_spec hq
  have cells : ∀ h, t.cell k h = s.cell k h := noted.cell k
  have below : ∀ h ∈ barcCells m, h < 8 := fun h hb => List.mem_range.mp (List.mem_filter.mp hb).1
  obtain ⟨⟨rest, rc, ord⟩, barc⟩ := State.barcPassed_foldl (k := k) (m := m) (barcCells_nodup m) below t
  have eq : s.barcPoint k n = ((barcCells m).foldl (fun s h => s.barcPassed k m h) t).modRc k (fun r => { r with barc := r.barc.eraseIdx n }) := by
    unfold State.barcPoint
    rw [reached]
    dsimp only
    rw [hq]
    rfl
  rw [eq]
  generalize (barcCells m).foldl (fun s h => s.barcPassed k m h) t = v at rest rc ord barc
  refine ⟨?_, ?_, ?_, fun h hb => ⟨?_, ?_⟩⟩
  · rw [State.modRc_mem, rest, mem]
  · rw [State.modRc_posts, rest]
    show t.posts = s.posts
    rw [noted.rest]
  · rw [State.rc_modRc, if_pos rfl, rc, noted.rc]
  · have := barc h (below h hb)
    rw [if_pos hb, cells] at this
    rw [← this, State.cell_modRc]
  · rw [← counts h hb, ← ord k h]
    unfold State.ord State.modRc
    rw [State.core_modCore, if_pos rfl]

end Sys2Proof.Machine
end

section
/-! The end of a phase: its completion word, and cores without tokens (R79). -/

namespace Sys2Proof.Machine

variable {s t u : State} {k l : Nat}

/-! ## The end of a phase (R79) -/

theorem Cell.hasTokens_clearTokens (c : Cell) : c.clearTokens.hasTokens = false := by
  have ctx (x : Ctx) : x.clearTokens.hasTokens = false := by
    unfold Ctx.clearTokens Ctx.hasTokens
    simp
  unfold Cell.clearTokens Cell.hasTokens
  simp [ctx]

theorem Core.hasTokens_clearTokens (c : Core) : c.clearTokens.hasTokens = false := by
  unfold Core.clearTokens Core.hasTokens
  simp [Cell.hasTokens_clearTokens]

theorem Core.hasTokens_settled (c : Core) (cs : List Nat) (i k : Nat) : (Core.settled cs i k c).hasTokens = c.hasTokens := by
  unfold Core.settled
  split
  · rfl
  · split <;> rfl

theorem State.hasTokens_clearAll {j : Nat} (l : List Nat) (s : State) (h : j ∈ l ∨ (s.core j).hasTokens = false) : ((l.foldl (fun s k => s.modCore k Core.clearTokens) s).core j).hasTokens = false := by
  induction l generalizing s with
  | nil => simpa using h
  | cons i l ih =>
    refine ih _ ?_
    by_cases e : j = i
    · right
      rw [State.core_modCore, if_pos e]
      exact Core.hasTokens_clearTokens _
    · refine h.imp (fun m => (List.mem_cons.mp m).resolve_left e) fun m => ?_
      rwa [State.core_modCore, if_neg e]

theorem State.hasTokens_beforeEnd {j : Nat} (h : j ∈ s.regionCores k) : ((s.beforeEnd k).core j).hasTokens = false := by
  have cleared := State.hasTokens_clearAll (s.regionCores k) s (.inl h)
  unfold State.beforeEnd
  rw [State.settle_eq]
  generalize (s.regionCores k).foldl (fun s k => s.modCore k Core.clearTokens) s = v at cleared
  have settled : State.core { v.reclaimFrames k with cores := (v.reclaimFrames k).cores.map (fun e => (e.1, Core.settled (s.regionCores k) (isleOf k) e.1 e.2)) } j =
      ((aget v.cores j).map (Core.settled (s.regionCores k) (isleOf k) j)).getD {} := by
    unfold State.core
    rw [aget_map]
    rfl
  rw [settled]
  unfold State.core at cleared
  cases hc : aget v.cores j with
  | none => rfl
  | some c =>
    rw [hc] at cleared
    rw [Option.map_some, Option.getD_some, Core.hasTokens_settled]
    exact cleared

theorem State.mem_beforeEnd (s : State) (k : Nat) : (s.beforeEnd k).mem = s.mem :=
  foldl_keeps State.mem (fun s k => s.modCore k Core.clearTokens) (fun _ _ => rfl) (s.regionCores k) s

/-- The store of a completion word and what the controller notes of it. -/
def State.concluded (v : State) (m : Memory) (k st w : Nat) : State := ({ v with mem := m } : State).modRc k (Rc.phaseEnded st w)

theorem State.concluded_rc (v : State) (m : Memory) (k st w : Nat) : (v.concluded m k st w).rc k = Rc.phaseEnded st w (v.rc k) := by
  unfold State.concluded
  rw [State.rc_modRc, if_pos rfl, State.rc_withMem]

theorem State.concluded_mem (v : State) (m : Memory) (k st w : Nat) : (v.concluded m k st w).mem = m := rfl

theorem State.concluded_hasTokens (v : State) (m : Memory) (k st w j : Nat) : ((v.concluded m k st w).core j).hasTokens = (v.core j).hasTokens := by
  unfold State.concluded State.modRc
  rw [State.core_modCore]
  split
  · next e => rw [e]; rfl
  · rfl

theorem State.endPhase_word (s : State) (k st : Nat) (r : Bool) : s.endPhase k st r =
    (s.beforeEnd k).concluded (Memory.writeN (s.beforeEnd k).mem (spadBase k + completionAt) (leBytes 8 (s.phaseWord k st r))) k st (s.phaseWord k st r) := rfl

/-- The fields of a completion word (R79). -/
theorem completionWord_fields (rc : Rc) {st : Nat} (hs : st < 4) (r : Bool) :
    completionWord rc st r % 4 = st ∧ completionWord rc st r / 8 % 2 = Bool.nat r ∧ completionWord rc st r / 2 ^ 32 % 2 ^ 16 = rc.phase % 2 ^ 16 := by
  unfold completionWord
  generalize (if bit rc.poisonP 16 then rc.poisonP % 2 ^ 16 else 0 : Nat) = p
  have one (b : Bool) : Bool.nat b ≤ 1 := by cases b <;> decide
  have residue := one r
  have poison := one (bit rc.poisonP 16)
  have phase := Nat.mod_lt rc.phase (Nat.two_pow_pos 16)
  generalize Bool.nat r = a at *
  generalize Bool.nat (bit rc.poisonP 16) = b at *
  generalize rc.phase % 2 ^ 16 = c at *
  refine ⟨?_, ?_, ?_⟩ <;> omega

/-- What the end of a phase leaves: the controller's phase, the completion word in its fields and in memory, cores without tokens. -/
structure PhaseEnds (u was : State) (k st : Nat) : Prop where
  inPhase  : (u.rc k).inPhase = false
  aborting : (u.rc k).aborting = false
  ended    : (u.rc k).ended = st
  state    : (u.rc k).word % 4 = st
  phase    : (u.rc k).word / 2 ^ 32 % 2 ^ 16 = (was.rc k).phase % 2 ^ 16
  tokens   : ∀ j ∈ was.regionCores k, (u.core j).hasTokens = false
  stored   : was.Inv → Memory.readN u.mem (spadBase k + completionAt) 8 = leBytes 8 (u.rc k).word

theorem State.phaseWord_fields (s : State) (k : Nat) {st : Nat} (hs : st < 4) (r : Bool) :
    s.phaseWord k st r % 4 = st ∧ (r = true → s.phaseWord k st r / 8 % 2 = 1) ∧ s.phaseWord k st r / 2 ^ 32 % 2 ^ 16 = (s.rc k).phase % 2 ^ 16 := by
  unfold State.phaseWord
  obtain ⟨state, residue, phase⟩ := completionWord_fields (s.rc k) hs (r || (s.rc k).residue || (s.regionCores k).any (fun k => (s.core k).hasTokens))
  refine ⟨state, fun hr => ?_, phase⟩
  rw [residue, hr]
  rfl

theorem State.endPhase_ends (s : State) (k : Nat) {st : Nat} (hs : st < 4) (r : Bool) :
    PhaseEnds (s.endPhase k st r) s k st ∧ (r = true → ((s.endPhase k st r).rc k).word / 8 % 2 = 1) ∧ (s.endPhase k st r).posts = s.posts := by
  have posts : (s.endPhase k st r).posts = s.posts := by rw [Quiet.endPhase s k st r]
  obtain ⟨state, residue, phase⟩ := s.phaseWord_fields k hs r
  refine ⟨?_, ?_, posts⟩
  all_goals
    rw [State.endPhase_word]
    generalize s.phaseWord k st r = w at *
    generalize hm : Memory.writeN (s.beforeEnd k).mem (spadBase k + completionAt) (leBytes 8 w) = m
    have rc := (s.beforeEnd k).concluded_rc m k st w
  · refine ⟨by rw [rc]; rfl, by rw [rc]; rfl, by rw [rc]; rfl, by rw [rc]; exact state, by rw [rc]; exact phase, fun j hj => ?_, fun hi => ?_⟩
    · rw [State.concluded_hasTokens]
      exact State.hasTokens_beforeEnd hj
    · rw [rc, State.concluded_mem, ← hm, State.mem_beforeEnd]
      have := Memory.readN_writeN hi (leBytes 8 w) (spadBase k + completionAt)
      rwa [leBytes_length] at this
  · rw [rc]
    exact residue

end Sys2Proof.Machine
end

section
/-! The release store of a completion word, where slots have been emptied (R79, R103). -/

namespace Sys2Proof.Machine

variable {s t u : State} {k l : Nat}

/-! ## The release store of a completion word finds a slot (R79, R103) -/

/-- Nothing differs but the synchronisation slots of cores. -/
structure ButSync (s t : State) : Prop where
  rest : t = { s with cores := t.cores }
  core : ∀ j, t.core j = { s.core j with sync := (t.core j).sync }

/-- And the slots of a core are as they were, or empty. -/
structure FreesSync (s t : State) : Prop extends ButSync s t where
  sync : ∀ j, (t.core j).sync = [] ∨ (t.core j).sync = (s.core j).sync

theorem ButSync.rc (h : ButSync s t) (j : Nat) : t.rc j = s.rc j := by unfold State.rc; rw [h.core]
theorem ButSync.mem (h : ButSync s t) : t.mem = s.mem := by rw [h.rest]
theorem ButSync.posts (h : ButSync s t) : t.posts = s.posts := by rw [h.rest]
theorem ButSync.regionCores (h : ButSync s t) (j : Nat) : t.regionCores j = s.regionCores j := by rw [h.rest]; rfl

theorem State.emptySlots_frees (s : State) (cs : List Nat) : FreesSync s (s.emptySlots cs) := by
  have core (j : Nat) : (s.emptySlots cs).core j = if cs.contains j then { s.core j with sync := [] } else s.core j := by
    have map : (s.emptySlots cs).cores = s.cores.map (fun e => (e.1, if cs.contains e.1 then { e.2 with sync := [] } else e.2)) :=
      List.map_congr_left fun e _ => by split <;> rfl
    unfold State.core
    rw [map, aget_map s.cores (fun j c => if cs.contains j then { c with sync := [] } else c)]
    cases aget s.cores j with
    | none => split <;> rfl
    | some c => rfl
  refine ⟨⟨rfl, fun j => ?_⟩, fun j => ?_⟩
  · rw [core]
    split <;> rfl
  · rw [core]
    split
    · exact .inl rfl
    · exact .inr rfl

theorem FreesSync.ord (h : FreesSync s t) (k j : Nat) : t.ord k j = s.ord k j := by unfold State.ord; rw [h.core]

theorem FreesSync.release (h : FreesSync s t) (k j : Nat) : FreesSync (s.release k j).1 (t.release k j).1 ∧ (t.release k j).2 = (s.release k j).2 := by
  unfold State.release
  rw [h.ord]
  refine ⟨?_, rfl⟩
  unfold State.setOrd
  have core (v : State) (o : Ord) (i : Nat) : (v.modCore k (fun c => { c with ords := aset c.ords j o })).core i =
      if i = k then { v.core k with ords := aset (v.core k).ords j o } else v.core i := State.core_modCore ..
  refine ⟨⟨by rw [h.rest]; rfl, fun i => ?_⟩, fun i => ?_⟩
  · rw [core, core]
    split
    · rw [h.core]
    · exact h.core i
  · rw [core, core]
    split
    · exact h.sync k
    · exact h.sync i

theorem FreesSync.agent (h : FreesSync s t) (k j : Nat) : t.agent k j = s.agent k j := by unfold State.agent; rw [h.ord]

/-- The race checker does not look at the slots. -/
theorem FreesSync.check (h : FreesSync s t) {k : Nat} {a : Agent} {w : Bool} {kind size scope : Nat} {ws : List Nat} {c : Core} (hc : s.check k a w kind size scope ws = .ok c) :
    t.check k a w kind size scope ws = .ok { c with sync := (t.core k).sync } := by
  have area : t.inArea k = s.inArea k := by rw [h.rest]; rfl
  have core := h.core k
  unfold State.check at hc ⊢
  rw [area]
  split at hc
  · cases hc
  · generalize (t.core k).sync = y at core ⊢
    rw [core]
    unfold Core.check at hc ⊢
    have same : ({ s.core k with sync := y } : Core).wordRec = (s.core k).wordRec := rfl
    rw [same]
    split at hc
    · cases hc
    · cases hc; rfl

/-- A core whose slot of a word a release store has filled. -/
def Core.slotFilled (c : Core) (ws : List Nat) (w : Nat) (y : Sync) : Core := { c.touchLines ws with sync := aset (c.touchLines ws).sync w y }

/-- A release store of n bytes, once the race checker has taken it. -/
def State.slotStored (s : State) (core off n x : Nat) (c : Core) (y : Sync) : State :=
  { s.setCore core (c.slotFilled (wordsOf off n) (off / 4) y) with mem := Memory.writeN s.mem (spadBase core + off) (leBytes n x) }

theorem State.atomicAt_store (s : State) (a : Agent) (core off n x scope : Nat) (r : Clr) {c : Core} (hc : s.check core a true 2 n scope (wordsOf off n) = .ok c) :
    ∃ y o, s.atomicAt a core off n 1 x 0 scope (some r) =
      if (aget c.sync (off / 4)).isNone && decide (64 ≤ (c.touchLines (wordsOf off n)).sync.length) then (s, .error ⟨0x056, off, 0, false⟩) else (s.slotStored core off n x c y, .ok o) := by
  unfold State.atomicAt
  simp only [atomicNew, Option.isSome_some, hc]
  exact ⟨_, _, rfl⟩

theorem State.atomicAt_race (s : State) (a : Agent) (core off n x scope : Nat) (r : Option Clr) {q : Nat × AccRec} (hc : s.check core a true 2 n scope (wordsOf off n) = .error q) :
    (s.atomicAt a core off n 1 x 0 scope r).2 = .error (raceFail core q) := by
  unfold State.atomicAt
  simp only [atomicNew, Option.isSome_some, hc]

theorem FreesSync.slotStored (h : FreesSync s t) (core off n x : Nat) (c : Core) (z : Assoc Sync) (y y' : Sync) :
    ButSync (s.slotStored core off n x c y) (t.slotStored core off n x { c with sync := z } y') := by
  have at_ (v : State) (c : Core) (y : Sync) (j : Nat) : (v.slotStored core off n x c y).core j = if j = core then c.slotFilled (wordsOf off n) (off / 4) y else v.core j := by
    unfold State.slotStored
    rw [State.core_withMem, State.core_setCore]
  refine ⟨?_, fun j => ?_⟩
  · unfold State.slotStored
    rw [h.mem, h.rest]
    rfl
  · rw [at_, at_]
    split
    · rfl
    · exact h.core j

/-- A release store that finds a slot finds one where slots have been emptied. -/
theorem FreesSync.atomicAt (h : FreesSync s t) {k off n x scope : Nat} {a : Agent} {r : Clr} {w : State} {o : Nat × Clr} (hw : s.atomicAt a k off n 1 x 0 scope (some r) = (w, .ok o)) :
    ∃ v o', t.atomicAt a k off n 1 x 0 scope (some r) = (v, .ok o') ∧ ButSync w v := by
  cases hc : s.check k a true 2 n scope (wordsOf off n) with
  | error q =>
    have raced := s.atomicAt_race a k off n x scope (some r) hc
    rw [hw] at raced
    cases raced
  | ok c =>
    obtain ⟨y, got, eq⟩ := s.atomicAt_store a k off n x scope r hc
    obtain ⟨y', got', eq'⟩ := t.atomicAt_store a k off n x scope r (h.check hc)
    have same : c.sync = (s.core k).sync := by rw [State.check_ok hc]
    rw [hw] at eq
    split at eq
    · cases eq
    · next full =>
      obtain ⟨rfl, -⟩ := Prod.mk.inj eq
      refine ⟨_, _, eq'.trans (if_neg ?_), h.slotStored k off n x c (t.core k).sync y y'⟩
      rcases h.sync k with none | kept
      · rw [none]
        simp [Core.touchLines]
      · rw [kept, ← same]
        exact full

/-! ## Completion of a phase (R79, R240, R255) -/

/-- The release store of the completion word performs, and what it leaves. -/
def State.StoresWord (t w : State) (k st : Nat) (residue : Bool) : Prop :=
  ∃ o, (t.release k 8).1.atomicAt ((t.release k 8).1.agent k 8) k completionAt 8 1 (t.phaseWord k st residue) 0 3 (some (t.release k 8).2) = (w, .ok o)

theorem State.StoresWord.finishes {w : State} {st : Nat} {r : Bool} (h : t.StoresWord w k st r) : ∃ v, ButSync w v ∧ t.finishPhase k st r = v.endPhase k st r := by
  obtain ⟨o, h⟩ := h
  obtain ⟨frees, clr⟩ := (t.emptySlots_frees (t.regionCores k)).release k 8
  obtain ⟨v, o', eq, but⟩ := frees.atomicAt h
  refine ⟨v, but, ?_⟩
  unfold State.finishPhase
  dsimp only
  rw [frees.agent, clr, eq]

theorem State.StoresWord.ends {w : State} {st : Nat} {r : Bool} (h : t.StoresWord w k st r) (hs : st < 4) :
    PhaseEnds (t.finishPhase k st r) w k st ∧ (r = true → ((t.finishPhase k st r).rc k).word / 8 % 2 = 1) ∧ (t.finishPhase k st r).posts = w.posts := by
  obtain ⟨v, but, eq⟩ := h.finishes
  obtain ⟨ends, residue, posts⟩ := v.endPhase_ends k hs r
  rw [eq]
  refine ⟨{ ends with phase := ?_, tokens := ?_, stored := ?_ }, residue, posts.trans but.posts⟩
  · rw [ends.phase, but.rc]
  · rw [← but.regionCores]
    exact ends.tokens
  · intro hi
    exact ends.stored (by unfold State.Inv at hi ⊢; rwa [but.mem])

end Sys2Proof.Machine
end

section
/-! Completion of a phase, as it ends, is aborted or dies (R79, R240, R255). -/

namespace Sys2Proof.Machine

variable {s t u : State} {k l : Nat}

theorem Core.hasTokens_lasts : Lasts (fun c d => d.hasTokens = c.hasTokens) where
  refl _ := rfl
  trans h g := g.trans h
  tcache _ _ := rfl
  copies _ _ := rfl
  rank _ _ := rfl
  unhold c p := by
    unfold Core.unhold Core.hasTokens
    rw [List.any_map]
    rfl

/-- What a phase's end has left lasts where nothing but held accesses of its controller, and no token, changes. -/
theorem PhaseEnds.lasts {st : Nat} (h : PhaseEnds s u k st) (hm : t.mem = s.mem) (hr : t.rc k = { s.rc k with held := (t.rc k).held, loadHeld := (t.rc k).loadHeld })
    (ht : ∀ j, (t.core j).hasTokens = (s.core j).hasTokens) : PhaseEnds t u k st := by
  generalize (t.rc k).held = a at hr
  generalize (t.rc k).loadHeld = b at hr
  refine ⟨?_, ?_, ?_, ?_, ?_, fun j hj => (ht j).trans (h.tokens j hj), fun hi => ?_⟩ <;> rw [hr]
  · exact h.inPhase
  · exact h.aborting
  · exact h.ended
  · exact h.state
  · exact h.phase
  · rw [hm]
    exact h.stored hi

theorem PhaseEnds.freeRegion {st : Nat} (h : PhaseEnds s u k st) : PhaseEnds (s.freeRegion k) u k st := ⟨h.inPhase, h.aborting, h.ended, h.state, h.phase, h.tokens, h.stored⟩

/-- The node of a phase that a fault ended terminates, and its cores are free (R80, R240). -/
def State.endNode (s : State) (k n : Nat) : State := (s.stopNode n).freeRegion k

theorem PhaseEnds.endNode {st : Nat} (h : PhaseEnds s u k st) (n : Nat) : PhaseEnds (s.endNode k n) u k st ∧ (∀ r ∈ (s.endNode k n).regions, r.lead ≠ k) ∧
    ∀ v, aget (s.endNode k n).nodes n = some v → v.st = 4 := by
  obtain ⟨-, -, mem, held, node⟩ := s.stopNode_spec n
  have tokens := EachCore.stopNode Core.hasTokens_lasts s n
  unfold State.endNode
  generalize s.stopNode n = t at mem held node tokens
  exact ⟨(h.lasts mem (held k) tokens).freeRegion, fun r hr => by simpa using (List.mem_filter.mp hr).2, node⟩

/-- The staged effects of a region's cells take place. -/
def State.flushed (s : State) (k : Nat) : State := (s.regionCells k).foldl (fun t p => t.releaseStaged p.1 p.2) s

section Completes

variable {g : Region} (hg : s.regionAt k = some g) (hl : g.lead = k) (hs : g.st = .running) (hp : (s.rc k).inPhase = true)
include hg

theorem State.completePhase_remote (hr : s.remoteOut k 8 ≠ 0) : s.completePhase k = s := by
  unfold State.completePhase
  simp only [hg]
  exact if_pos (.inr (.inr (.inr (Nat.pos_of_ne_zero hr))))

include hl hs hp

theorem State.completePhase_eq (hr : s.remoteOut k 8 = 0) : s.completePhase k =
    if (s.rc k).aborting = true then
      if (!s.abortDone k) = true then s
      else if (s.rc k).dying = true then (((s.dropHeld k).flushed k).finishPhase k 2 true).endNode k g.node
      else ((s.dropHeld k).flushed k).finishPhase k 1 true
    else if (!(s.flushed k).sinksDone k || !(s.flushed k).tasksDone k) = true then s
    else (if ((s.flushed k).regionCores k).any (fun c => ((s.flushed k).core c).hasTokens) = true then (s.flushed k).infoFault k 48 1 0x0E6 0 0 else s.flushed k).finishPhase k 1 false := by
  unfold State.completePhase
  simp only [hg]
  exact if_neg (by simp [hl, hs, hp, hr])

theorem State.completePhase_waits (hr : s.remoteOut k 8 = 0) (ha : (s.rc k).aborting = false) (hw : (s.flushed k).sinksDone k = false ∨ (s.flushed k).tasksDone k = false) : s.completePhase k = s := by
  rw [State.completePhase_eq hg hl hs hp hr, if_neg (by simp [ha]), if_pos (by simpa using hw)]

theorem State.completePhase_done {w : State} (hr : s.remoteOut k 8 = 0) (ha : (s.rc k).aborting = false) (hd : (s.flushed k).sinksDone k = true) (ht : (s.flushed k).tasksDone k = true)
    (hn : ∀ j ∈ (s.flushed k).regionCores k, ((s.flushed k).core j).hasTokens = false) (hw : (s.flushed k).StoresWord w k 1 false) : PhaseEnds (s.completePhase k) w k 1 ∧ (s.completePhase k).posts = w.posts := by
  obtain ⟨ends, -, posts⟩ := hw.ends (by decide)
  rw [State.completePhase_eq hg hl hs hp hr, if_neg (by simp [ha]), if_neg (by simp [hd, ht]), if_neg (by simpa using hn)]
  exact ⟨ends, posts⟩

theorem State.completePhase_busy (hr : s.remoteOut k 8 = 0) (ha : (s.rc k).aborting = true) (hd : s.abortDone k = false) : s.completePhase k = s := by
  rw [State.completePhase_eq hg hl hs hp hr, if_pos ha, if_pos (by simp [hd])]

theorem State.completePhase_aborted {w : State} (hr : s.remoteOut k 8 = 0) (ha : (s.rc k).aborting = true) (hd : s.abortDone k = true) (hy : (s.rc k).dying = false)
    (hw : ((s.dropHeld k).flushed k).StoresWord w k 1 true) : PhaseEnds (s.completePhase k) w k 1 ∧ ((s.completePhase k).rc k).word / 8 % 2 = 1 := by
  obtain ⟨ends, residue, -⟩ := hw.ends (by decide)
  rw [State.completePhase_eq hg hl hs hp hr, if_pos ha, if_neg (by simp [hd]), if_neg (by simp [hy])]
  exact ⟨ends, residue rfl⟩

theorem State.completePhase_dies {w : State} (hr : s.remoteOut k 8 = 0) (ha : (s.rc k).aborting = true) (hd : s.abortDone k = true) (hy : (s.rc k).dying = true)
    (hw : ((s.dropHeld k).flushed k).StoresWord w k 2 true) : PhaseEnds (s.completePhase k) w k 2 ∧ (∀ r ∈ (s.completePhase k).regions, r.lead ≠ k) ∧
      ∀ v, aget (s.completePhase k).nodes g.node = some v → v.st = 4 := by
  obtain ⟨ends, -⟩ := hw.ends (by decide)
  rw [State.completePhase_eq hg hl hs hp hr, if_pos ha, if_neg (by simp [hd]), if_pos hy]
  exact ends.endNode g.node

end Completes

end Sys2Proof.Machine
end

section
/-! The events of tasks, generators, loads and phases (R60 to R63, R69, R79, R92, R177, R196, R251, R254 to R256). -/

namespace Sys2Proof.Machine

section AtPlace

variable {s : State} (hw : s.works s.place.core = true)
include hw

theorem exec_evTaskAdmit : exec .evTaskAdmit s = .next (s.taskAdmit s.place.core s.place.cell) := State.atPlace_of_works hw (fun s k l _ _ => s.taskAdmit k l)
theorem exec_evTaskDispatch : exec .evTaskDispatch s = .next (s.taskDispatch s.place.core s.place.cell) := State.atPlace_of_works hw (fun s k l _ _ => s.taskDispatch k l)
theorem exec_evStagedTokenRelease : exec .evStagedTokenRelease s = .next (s.releaseStaged s.place.core s.place.cell) := State.atPlace_of_works hw (fun s k l _ _ => s.releaseStaged k l)
theorem exec_evFrameWaitTimeout : exec .evFrameWaitTimeout s = .next (s.frameTimeouts s.place.core s.place.cell) := State.atPlace_of_works hw (fun s k l _ _ => s.frameTimeouts k l)
theorem exec_evOrderingTokenArrival : exec .evOrderingTokenArrival s = .next (s.ordArrives s.place.core s.place.cell s.place.x) := State.atPlace_of_works hw (fun s k l _ _ => s.ordArrives k l s.place.x)
theorem exec_evVoidSlotFree : exec .evVoidSlotFree s = .next (s.voidFreeAt s.place.core s.place.x) := State.atPlace_of_works hw (fun s k _ _ _ => s.voidFreeAt k s.place.x)
theorem exec_evCfgLoadApply : exec .evCfgLoadApply s = .next (s.applyLoad s.place.core) := State.atPlace_of_works hw (fun s k _ _ _ => s.applyLoad k)
theorem exec_evGeneratorPoint : exec .evGeneratorPoint s = .next (s.generate s.place.core s.place.cell) := State.atPlace_of_works hw (fun s k l _ _ => s.generate k l)
theorem exec_evBarcPoint : exec .evBarcPoint s = .next (s.barcPoint s.place.core s.place.x) := State.atPlace_of_works hw (fun s k _ _ _ => s.barcPoint k s.place.x)

theorem exec_evArbiterWeightRecompute : exec .evArbiterWeightRecompute s =
    .next (if (s.cell s.place.core s.place.cell).wTime + 256 ≤ s.time then s.newWeights s.place.core s.place.cell else s) :=
  State.atPlace_of_works hw (fun s k l _ _ => if (s.cell k l).wTime + 256 ≤ s.time then s.newWeights k l else s)

end AtPlace

/-- Settles O52: each event's meaning, where its rule lets it happen. -/
theorem taskEvents : Obligations.TaskEvents := by
  unfold Obligations.TaskEvents
  intro s f cur a i n e tok k l x c lead fault flush ended stored
  refine ⟨fun hw => ?works, ?returns, ?phase⟩
  case returns =>
    intro r hr hw q w g
    refine ⟨fun hf hb he => ⟨_, rfl, ?_⟩, fun hf => ⟨_, rfl, ?_⟩⟩
    · exact State.returnArrives_enters hr hw hf hb he
    · exact State.returnArrives_refused hr hw hf
  case phase =>
    intro g hg hl hs hp
    refine ⟨fun hr => congrArg _ (State.completePhase_remote hg hr), fun hr => ⟨?waits, ?done, ?busy, ?aborted, ?dies⟩⟩
    case waits => exact fun ha hw => congrArg _ (State.completePhase_waits hg hl hs hp hr ha hw)
    case done =>
      intro ha hd ht hn w hw
      obtain ⟨ends, posts⟩ := State.completePhase_done hg hl hs hp hr ha hd ht hn hw
      exact ⟨_, rfl, ⟨ends.inPhase, ends.aborting, ends.ended, ends.state, ends.phase, ends.tokens, ends.stored⟩, posts⟩
    case busy => exact fun ha hd => congrArg _ (State.completePhase_busy hg hl hs hp hr ha hd)
    case aborted =>
      intro ha hd hy w hw
      obtain ⟨ends, residue⟩ := State.completePhase_aborted hg hl hs hp hr ha hd hy hw
      exact ⟨_, rfl, ⟨ends.inPhase, ends.aborting, ends.ended, ends.state, ends.phase, ends.tokens, ends.stored⟩, residue⟩
    case dies =>
      intro ha hd hy w hw
      obtain ⟨ends, free, node⟩ := State.completePhase_dies hg hl hs hp hr ha hd hy hw
      exact ⟨_, rfl, ⟨ends.inPhase, ends.aborting, ends.ended, ends.state, ends.phase, ends.tokens, ends.stored⟩, free, node⟩
  case works =>
    refine ⟨?admission, ?idle, ?dispatch, ?busy, ?staged, ?weights, ?early, ?timeout, ?order, ?void, ?load, ?gen, ?barc⟩
    case admission =>
      intro v need hp hr hd hn
      obtain ⟨t, spec⟩ := State.taskAdmit_spec hp hr hd hn
      exact ⟨_, t, exec_evTaskAdmit hw, spec⟩
    case idle => exact fun hp => ⟨(exec_evTaskAdmit hw).trans (congrArg _ (State.taskAdmit_idle hp)), (exec_evTaskDispatch hw).trans (congrArg _ (State.taskDispatch_idle hp))⟩
    case dispatch =>
      intro hp hr hf c'
      have cell : (s.setCell k l c').cell k l = c' := (s.cell_modCell k l k l fun _ => c').trans (if_pos ⟨rfl, rfl⟩)
      refine ⟨fun hm => ⟨_, (exec_evTaskDispatch hw).trans (congrArg _ (State.taskDispatch_cell hp hr hf hm)), s.only_modCell k l fun _ => c', cell⟩, fun hm w hq =>
        ⟨_, (exec_evTaskDispatch hw).trans (congrArg _ (State.taskDispatch_takes hp hr hf hq)), ?_⟩⟩
      obtain ⟨noted, mem⟩ := (s.setCell k l c').acquireOps_noted k l f
      rw [hq] at noted mem
      exact ⟨mem, (noted.cell k l).trans cell⟩
    case busy => exact fun _ hr => (exec_evTaskDispatch hw).trans (congrArg _ (State.taskDispatch_busy hr))
    case staged =>
      intro hd hh hs hr hf hn
      refine ⟨fun h hk he => ?token, fun r h => ?call, fun keep v g h hg => ?ret, fun h => ?none⟩
      case token => exact ⟨_, exec_evStagedTokenRelease hw, State.releaseStaged_tok hd hh hs hr hf hn h hk he⟩
      case call =>
        obtain ⟨done, frame⟩ := State.releaseStaged_call hd hh hs hr hf hn h
        exact ⟨_, { st := 1, lead := s.leadOf k, rcd := r }, exec_evStagedTokenRelease hw, done, frame, rfl, rfl, rfl⟩
      case ret => exact ⟨_, exec_evStagedTokenRelease hw, State.releaseStaged_ret hd hh hs hr hf hn h hg⟩
      case none =>
        refine ⟨_, (exec_evStagedTokenRelease hw).trans (congrArg _ (State.releaseStaged_none hd hh hs hr hf hn h)), ?_⟩
        rw [State.cell_modCell, if_pos ⟨rfl, rfl⟩]
    case weights =>
      intro ht
      refine ⟨_, (exec_evArbiterWeightRecompute hw).trans (congrArg _ (if_pos ht)), s.only_modCell k l _, ?_⟩
      unfold State.newWeights
      rw [State.cell_modCell, if_pos ⟨rfl, rfl⟩]
    case early => exact fun ht => (exec_evArbiterWeightRecompute hw).trans (congrArg _ (if_neg (Nat.not_le.mpr ht)))
    case timeout => exact fun hf ht => ⟨_, exec_evFrameWaitTimeout hw, State.frameTimeouts_one hf ht⟩
    case order =>
      intro id q hq old
      refine ⟨fun hn hh => ⟨_, (exec_evOrderingTokenArrival hw).trans (congrArg _ (State.ordArrives_counts hq hn hh)), s.only_modCell k l _, ?_⟩,
        fun hn => ⟨_, exec_evOrderingTokenArrival hw, State.ordArrives_ends hq hn⟩⟩
      rw [State.cell_modCell, if_pos ⟨rfl, rfl⟩]
    case void =>
      intro hl hx r slots
      exact ⟨fun hv => (exec_evVoidSlotFree hw).trans (congrArg _ (State.voidFreeAt_none hv)), fun hv hi hk hn hm hf ha => ⟨_, exec_evVoidSlotFree hw, State.voidFreeAt_frees hl hx hv hi hk hn hm hf ha⟩⟩
    case load =>
      intro ext rest g b t hl hg hk hs hh hb
      refine ⟨fun u hi hm hu => ⟨_, exec_evCfgLoadApply hw, State.applyLoad_applies hl hg hk hs hh hb hm hu⟩, fun hi hm => ?waits,
        fun cause hm hu => ⟨_, exec_evCfgLoadApply hw, State.applyLoad_refuses hl hg hk hs hh hb hm hu⟩⟩
      exact (exec_evCfgLoadApply hw).trans (congrArg _ (State.applyLoad_waits hl hg hk hs hh hb hi hm))
    case gen =>
      intro y g hy hg hs hp ha hl hh hb hport total w joins
      have streams : s.Streams k l y g := ⟨hy, hg, hs, hp, ha, hl, hh, hb, hport⟩
      refine ⟨fun hlt hk => ?count, fun hlt hk => ⟨fun t rs hq => ?issues, fun t q hq h5 h6 hn => ?stops, fun hq => ?slot⟩, fun hlt hk hr => ?tasks, fun hle he => ?eos⟩
      case count =>
        obtain ⟨r, spec⟩ := streams.issues_count hlt hk
        exact ⟨_, r, exec_evGeneratorPoint hw, spec⟩
      case issues => exact ⟨_, exec_evGeneratorPoint hw, streams.issues_point hlt hk hq⟩
      case stops => exact ⟨_, exec_evGeneratorPoint hw, streams.stops hlt hk hq h5 h6 hn⟩
      case slot => exact (exec_evGeneratorPoint hw).trans (congrArg _ (streams.waits_slot hlt hk hq))
      case tasks => exact (exec_evGeneratorPoint hw).trans (congrArg _ (streams.waits_tasks hlt hk hr))
      case eos => exact ⟨_, exec_evGeneratorPoint hw, streams.ends hle he⟩
    case barc => exact fun m t hm he hh hq => ⟨_, exec_evBarcPoint hw, State.barcPoint_passes hm he hh hq⟩

end Sys2Proof.Machine
end

section
/-! Memory's canonical form over an operation (R82). Every operation of the model below has one lemma: `foo_mem` where it leaves memory as it is, `wf_foo` where it may
write it and keeps the form. Each is proved from the lemmas of the operations that it calls, branch by branch of its definition; here stand the lists that an operation
runs over and the state within a result. -/

namespace Sys2Proof.Machine

theorem State.foldl_mem {α : Type} {f : State → α → State} (hf : ∀ s x, (f s x).mem = s.mem) (l : List α) (s : State) : (l.foldl f s).mem = s.mem := by
  induction l generalizing s with
  | nil => rfl
  | cons x l ih => exact (ih _).trans (hf s x)

theorem State.foldl_fst_mem {α β : Type} {f : State × β → α → State × β} (hf : ∀ p x, (f p x).1.mem = p.1.mem) (l : List α) (p : State × β) : (l.foldl f p).1.mem = p.1.mem := by
  induction l generalizing p with
  | nil => rfl
  | cons x l ih => exact (ih _).trans (hf p x)

theorem State.wf_foldl {α : Type} {f : State → α → State} (hf : ∀ s x, Memory.wf s.mem = true → Memory.wf (f s x).mem = true) (l : List α) {s : State} (hw : Memory.wf s.mem = true) :
    Memory.wf (l.foldl f s).mem = true := foldl_inv (P := fun s : State => Memory.wf s.mem = true) hf l s hw

theorem State.wf_foldl_fst {α β : Type} {f : State × β → α → State × β} (hf : ∀ p x, Memory.wf p.1.mem = true → Memory.wf (f p x).1.mem = true) (l : List α) {p : State × β}
    (hw : Memory.wf p.1.mem = true) : Memory.wf (l.foldl f p).1.mem = true := foldl_inv (P := fun p : State × β => Memory.wf p.1.mem = true) hf l p hw

theorem State.wf_of_mem {s t : State} (h : t.mem = s.mem) (hw : Memory.wf s.mem = true) : Memory.wf t.mem = true := h ▸ hw

theorem Except.ok_of_bind {ε α β : Type} {x : Except ε α} {f : α → Except ε β} {b : β} (h : x.bind f = .ok b) : ∃ a, x = .ok a ∧ f a = .ok b := by
  cases x with
  | error => cases h
  | ok a => exact ⟨a, rfl, h⟩

/-- The state of a move. -/
def Moved.state : Moved → State
  | .ok s => s
  | .fail s _ => s
  | .ext s _ => s

/-- The state of a step of a capture. -/
def CkptStep.state : CkptStep → State
  | .wait s => s
  | .done s _ => s
  | .fail s _ => s

end Sys2Proof.Machine
end

section
/-! What the operations of the stores, the scratchpads and the token units leave of memory (R82, R90 to R101, R110 to R112, R196). -/

namespace Sys2Proof.Machine
set_option Elab.async false -- one proof after the other, to bound memory

/-! ### Records posted -/

@[simp] theorem State.free_mem (s : State) : s.free.2.mem = s.mem := rfl

@[simp] theorem State.postFault_mem (s : State) (sev kind core loc cause addr detail tag : Nat) : (s.postFault sev kind core loc cause addr detail tag).mem = s.mem := rfl

@[simp] theorem State.postUnit_mem (s : State) (queue sev kind die inst cause addr detail tag : Nat) : (s.postUnit queue sev kind die inst cause addr detail tag).mem = s.mem := rfl

/-! ### Scratchpad accesses and order -/

@[simp] theorem State.setOrd_mem (s : State) (k h : Nat) (o : Ord) : (s.setOrd k h o).mem = s.mem := rfl

@[simp] theorem State.release_mem (s : State) (k h : Nat) : (s.release k h).1.mem = s.mem := rfl

@[simp] theorem State.acquire_mem (s : State) (k h : Nat) (c : Clr) : (s.acquire k h c).1.mem = s.mem := by
  unfold State.acquire
  grind [State.setOrd_mem]

@[simp] theorem State.settleSet_mem (s : State) (c : Clr) : (s.settleSet c).mem = s.mem := rfl

@[simp] theorem State.takeSet_mem (s : State) (k : Nat) (c : Clr) : (s.takeSet k c).1.mem = s.mem := by
  unfold State.takeSet
  grind [State.settleSet_mem]

@[simp] theorem State.loadAt_mem (s : State) (a : Agent) (h : Half) : (s.loadAt a h).1.mem = s.mem := by
  unfold State.loadAt
  split <;> rfl

theorem State.wf_storeAt (s : State) (a : Agent) (core off : Nat) (bytes mask : List Byte) (hw : Memory.wf s.mem = true) :
    Memory.wf (s.storeAt a core off bytes mask).1.mem = true := by
  unfold State.storeAt
  grind [Memory.wf_writeMasked]

@[simp] theorem State.touch16_mem (s : State) (a : Agent) (core off : Nat) (writes : Bool) : (s.touch16 a core off writes).1.mem = s.mem := by
  unfold State.touch16
  split <;> rfl

@[simp] theorem State.load_mem (s : State) (a : Agent) (k addr n align : Nat) (token : Bool) : (s.load a k addr n align token).1.mem = s.mem := by
  unfold State.load
  grind [State.loadAt_mem, State.foldl_fst_mem]

theorem State.wf_storeGroup (s : State) (a : Agent) (k addr : Nat) (bytes mask : List Byte) (align : Nat) (hw : Memory.wf s.mem = true) :
    Memory.wf (s.storeGroup a k addr bytes mask align).1.mem = true := by
  unfold State.storeGroup
  grind [State.postFault_mem, State.wf_storeAt, State.wf_foldl_fst]

theorem State.wf_store (s : State) (a : Agent) (k addr : Nat) (bytes mask : List Byte) (align : Nat) (token : Bool) (hw : Memory.wf s.mem = true) :
    Memory.wf (s.store a k addr bytes mask align token).1.mem = true := by
  unfold State.store
  grind [State.wf_storeAt, State.wf_storeGroup, State.wf_foldl_fst]

theorem State.wf_atomicAt (s : State) (a : Agent) (core off n op x cmp scope : Nat) (rel : Option Clr) (hw : Memory.wf s.mem = true) :
    Memory.wf (s.atomicAt a core off n op x cmp scope rel).1.mem = true := by
  unfold State.atomicAt
  grind [State.setCore_mem, Memory.wf_writeN]

theorem State.wf_atomicBy (s : State) (k h core off n op x cmp order scope : Nat) (hw : Memory.wf s.mem = true) :
    Memory.wf (s.atomicBy k h core off n op x cmp order scope).1.mem = true := by
  unfold State.atomicBy
  grind [State.acquire_mem, State.setOrd_mem, State.wf_atomicAt, State.release_mem]

@[simp] theorem State.fence_mem (s : State) (k h order : Nat) : (s.fence k h order).1.mem = s.mem := by
  unfold State.fence
  grind [State.acquire_mem, State.setOrd_mem, State.release_mem]

/-! ### Ports, poison, barriers, rings and frames -/

@[simp] theorem State.modPort_mem (s : State) (k l x p : Nat) (f : Port → Port) : (s.modPort k l x p f).mem = s.mem := by
  unfold State.modPort
  split <;> rfl

@[simp] theorem State.enter_mem (s : State) (k l x e : Nat) (t : Token) : (s.enter k l x e t).mem = s.mem := by
  unfold State.enter
  grind [State.mem_modEdge]

@[simp] theorem State.freeEos_mem (s : State) : s.freeEos.2.mem = s.mem := rfl

@[simp] theorem State.pushPort_mem (s : State) (d : Dest) (srcE : Nat) (t : Token) (acq : Clr) (host : List HostPub) : (s.pushPort d srcE t acq host).mem = s.mem := by
  unfold State.pushPort
  grind [State.modPort_mem, State.modCell_mem, State.modCore_mem]

@[simp] theorem State.notePoison_mem (s : State) (lead origin : Nat) : (s.notePoison lead origin).mem = s.mem := rfl

@[simp] theorem State.postPoisoned_mem (s : State) (core sink origin : Nat) : (s.postPoisoned core sink origin).mem = s.mem := rfl

@[simp] theorem State.cellPoison_mem (s : State) (k l x origin : Nat) : (s.cellPoison k l x origin).mem = s.mem := by
  unfold State.cellPoison
  split <;> rfl

@[simp] theorem State.latch_mem (s : State) (lead b : Nat) : (s.latch lead b).mem = s.mem := rfl

@[simp] theorem State.tbMerge_mem (s : State) (core off : Nat) (c : Clr) : (s.tbMerge core off c).mem = s.mem := rfl

theorem State.wf_tbEval (s : State) (core off : Nat) (b : Bar) (hw : Memory.wf s.mem = true) : Memory.wf (s.tbEval core off b).mem = true := by
  unfold State.tbEval
  grind [State.pushPort_mem, State.latch_mem, Memory.wf_barWrite]

theorem State.wf_tbArrive (s : State) (core off : Nat) (c : Clr) (hw : Memory.wf s.mem = true) : Memory.wf (s.tbArrive core off c).1.mem = true := by
  unfold State.tbArrive
  grind [State.wf_tbEval, State.tbMerge_mem]

theorem State.wf_tbSectors (s : State) (core off : Nat) (n : Int) (c : Clr) (hw : Memory.wf s.mem = true) : Memory.wf (s.tbSectors core off n c).1.mem = true := by
  unfold State.tbSectors
  grind [State.wf_tbEval, State.tbMerge_mem]

theorem State.wf_setRing (s : State) (lead r : Nat) (t : RingSt) (hw : Memory.wf s.mem = true) : Memory.wf (s.setRing lead r t).mem = true := by
  unfold State.setRing
  grind [Memory.wf_writeN]

theorem State.wf_voidFree (s : State) (lead r : Nat) (hw : Memory.wf s.mem = true) : Memory.wf (s.voidFree lead r).mem = true := by
  unfold State.voidFree
  grind [State.modRc_mem, State.wf_setRing]

@[simp] theorem State.slotMerge_mem (s : State) (lead r slot : Nat) (c : Clr) : (s.slotMerge lead r slot c).mem = s.mem := rfl

@[simp] theorem State.ringTouch_mem (s : State) (k h lead r : Nat) : (s.ringTouch k h lead r).1.mem = s.mem := by
  unfold State.ringTouch
  grind [State.touch16_mem]

theorem State.wf_ringTake (s : State) (lead r slot : Nat) (t : State) (hw : Memory.wf s.mem = true) (he : s.ringTake lead r = some (slot, t)) : Memory.wf t.mem = true := by
  unfold State.ringTake at he
  grind [State.wf_setRing]

theorem State.wf_ringReserve (s : State) (lead r slot : Nat) (t : State) (hw : Memory.wf s.mem = true) (he : s.ringReserve lead r = some (slot, t)) : Memory.wf t.mem = true := by
  unfold State.ringReserve at he
  grind [State.wf_setRing]

theorem State.wf_ringPublish (s : State) (lead r slot : Nat) (c : Clr) (hw : Memory.wf s.mem = true) : Memory.wf (s.ringPublish lead r slot c).mem = true := by
  unfold State.ringPublish
  grind [State.slotMerge_mem, State.wf_setRing]

theorem State.wf_ringVoid (s : State) (lead r slot : Nat) (hw : Memory.wf s.mem = true) : Memory.wf (s.ringVoid lead r slot).mem = true := by
  unfold State.ringVoid
  grind [State.modRc_mem, State.wf_setRing]

theorem State.wf_ringFree (s : State) (lead r slot : Nat) (c : Clr) (hw : Memory.wf s.mem = true) : Memory.wf (s.ringFree lead r slot c).mem = true := by
  unfold State.ringFree
  grind [State.modCore_mem, State.slotMerge_mem, State.wf_setRing]

@[simp] theorem State.setFrame_mem (s : State) (core f : Nat) (v : Frame) : (s.setFrame core f v).mem = s.mem := rfl

@[simp] theorem State.dropFrame_mem (s : State) (core f : Nat) : (s.dropFrame core f).mem = s.mem := rfl

@[simp] theorem State.giveReturn_mem (s : State) (r : CallRec) : (s.giveReturn r).mem = s.mem := by
  unfold State.giveReturn
  grind [State.mem_modEdge]

/-! ### Link tokens -/

@[simp] theorem State.leave_mem (s : State) (pt dest vc : Nat) (body : FlitBody) : (s.leave pt dest vc body).mem = s.mem := by
  unfold State.leave
  split <;> rfl

@[simp] theorem State.sendColl_mem (s : State) (c : Comm) (r : Nat) (control : Bool) (l : List FlitBody) : (s.sendColl c r control l).mem = s.mem := by
  unfold State.sendColl
  grind [State.modStrait_mem]

@[simp] theorem State.tell_mem (s : State) (c : Comm) (kind index : Nat) (clr : Clr) (r : Nat) : (s.tell c kind index clr r).mem = s.mem := by
  unfold State.tell
  grind [State.sendColl_mem]

@[simp] theorem State.tellAll_mem (s : State) (c : Comm) (kind index : Nat) (clr : Clr) : (s.tellAll c kind index clr).mem = s.mem := by
  unfold State.tellAll
  grind [State.tell_mem, State.foldl_mem]

@[simp] theorem State.freeSlots_mem (s : State) : s.freeSlots.mem = s.mem := rfl

@[simp] theorem State.endMembers_mem (s : State) (n : Nat) : (s.endMembers n).mem = s.mem := by
  unfold State.endMembers
  grind [State.modCore_mem, State.tellAll_mem, State.freeSlots_mem, State.foldl_mem]

@[simp] theorem State.loseNode_mem (s : State) (n : Nat) : (s.loseNode n).mem = s.mem := by
  unfold State.loseNode
  grind [State.tellAll_mem, State.foldl_mem]

/-! ### Tile state and held accesses -/

@[simp] theorem State.cacheXlat_mem (s : State) (k va : Nat) (v : Nat × Nat) : (s.cacheXlat k va v).mem = s.mem := by
  unfold State.cacheXlat
  split <;> rfl

@[simp] theorem State.noteWalk_mem (s : State) (k : Nat) (w : Walk) : (s.noteWalk k w).mem = s.mem := rfl

@[simp] theorem State.walked_mem (s : State) (k pt va : Nat) (write : Bool) : (s.walked k pt va write).1.mem = s.mem := by
  unfold State.walked
  grind [State.cacheXlat_mem, State.noteWalk_mem]

@[simp] theorem State.translate_mem (s : State) (k pt va : Nat) (write : Bool) : (s.translate k pt va write).1.mem = s.mem := by
  unfold State.translate
  grind [State.cacheXlat_mem, State.free_mem, State.walked_mem]

@[simp] theorem State.dropTranslations_mem (s : State) (pt lo n : Nat) : (s.dropTranslations pt lo n).mem = s.mem := rfl

@[simp] theorem State.setTileSt_mem (s : State) (pt tile pa st : Nat) : (s.setTileSt pt tile pa st).mem = s.mem := rfl

@[simp] theorem State.fill_mem (s : State) (k pt tile : Nat) : (s.fill k pt tile).1.mem = s.mem := by
  unfold State.fill
  grind [State.translate_mem, State.modDie_mem, State.setTileSt_mem]

@[simp] theorem State.quarantine_mem (s : State) (k pt tile : Nat) : (s.quarantine k pt tile).mem = s.mem := by
  unfold State.quarantine
  grind [State.translate_mem, State.setTileSt_mem]

@[simp] theorem State.keep_mem (s t : State) : (s.keep t).mem = s.mem := rfl

theorem State.wf_seal (s : State) (k pt tile : Nat) (src : Memory) (off : Nat) (bytes mask : List Byte) (hw : Memory.wf s.mem = true) :
    Memory.wf (s.seal k pt tile src off bytes mask).1.mem = true := by
  unfold State.seal
  grind [State.post_mem, State.translate_mem, Memory.wf_writeMasked, Memory.wf_putTile]

@[simp] theorem State.readTiles_mem (s : State) (k pt va n : Nat) (place : Nat → Nat) : (s.readTiles k pt va n place).1.mem = s.mem := by
  unfold State.readTiles
  grind [State.fill_mem, State.foldl_fst_mem]

@[simp] theorem State.readVA_mem (s : State) (k pt va n : Nat) : (s.readVA k pt va n).1.mem = s.mem := by
  unfold State.readVA
  grind [State.readTiles_mem]

theorem State.wf_writeVA (s : State) (k pt va : Nat) (bytes : List Byte) (hw : Memory.wf s.mem = true) : Memory.wf (s.writeVA k pt va bytes).1.mem = true := by
  unfold State.writeVA
  grind [State.wf_seal, State.fill_mem, State.wf_foldl_fst]

end Sys2Proof.Machine
end

section
/-! What the operations of cells leave of memory: faults, transfers, operands, staged outputs, the port and admission (R14, R60 to R69, R89 to R93, R158 to R193). -/

namespace Sys2Proof.Machine
set_option Elab.async false -- one proof after the other, to bound memory

/-! ### External memory -/

@[simp] theorem State.modOperand_mem (s : State) (n j : Nat) (f : Operand → Operand) : (s.modOperand n j f).mem = s.mem := by
  unfold State.modOperand
  grind [State.modNode_mem]

@[simp] theorem State.unhold_mem (s : State) (pt : Nat) (p : Nat × Nat → Bool) : (s.unhold pt p).mem = s.mem := rfl

@[simp] theorem State.releaseTile_mem (s : State) (pt x : Nat) : (s.releaseTile pt x).mem = s.mem := by
  unfold State.releaseTile
  grind [State.translate_mem, State.setTileSt_mem]

@[simp] theorem State.reclaim_mem (s : State) (pt : Nat) (was : List Nat) : (s.reclaim pt was).mem = s.mem := by
  unfold State.reclaim
  grind [State.releaseTile_mem, State.unhold_mem, State.foldl_mem]

@[simp] theorem State.takeTile_mem (s : State) (k pt va : Nat) : (s.takeTile k pt va).1.mem = s.mem := by
  unfold State.takeTile
  grind [State.translate_mem, State.setTileSt_mem]

@[simp] theorem State.readOp_mem (s : State) (k n j off len : Nat) : (s.readOp k n j off len).1.mem = s.mem := by
  unfold State.readOp
  grind [State.readTiles_mem]

theorem State.wf_writeShadow (s : State) (k pt : Nat) (shadow map : Assoc Nat) (t off : Nat) (bytes mask : List Byte) (whole : Bool) (hw : Memory.wf s.mem = true) :
    Memory.wf (s.writeShadow k pt shadow map t off bytes mask whole).1.mem = true := by
  unfold State.writeShadow
  grind [State.wf_seal, State.takeTile_mem, State.fill_mem]

theorem State.wf_writeOp (s : State) (k n j off : Nat) (bytes mask : List Byte) (whole : Bool) (hw : Memory.wf s.mem = true) :
    Memory.wf (s.writeOp k n j off bytes mask whole).1.mem = true := by
  unfold State.writeOp
  grind [State.modOperand_mem, State.wf_writeShadow, State.wf_foldl_fst]

@[simp] theorem State.readShape_mem (s : State) (k pt va : Nat) : (s.readShape k pt va).1.mem = s.mem := by
  unfold State.readShape
  grind [State.readVA_mem]

@[simp] theorem State.shapeOf_mem (s : State) (k eng n j : Nat) : (s.shapeOf k eng n j).1.mem = s.mem := by
  unfold State.shapeOf
  grind [State.modOperand_mem, State.readShape_mem]

theorem State.wf_publish (s : State) (k pt h : Nat) (shadow : Assoc Nat) (hw : Memory.wf s.mem = true) : Memory.wf (s.publish k pt h shadow).1.mem = true := by
  unfold State.publish
  grind [State.wf_writeVA, State.modPart_mem]

/-! ### Faults and history of a unit -/

@[simp] theorem State.enterChecked_mem (s : State) (k l x e : Nat) (t : Token) : (s.enterChecked k l x e t).mem = s.mem := by
  unfold State.enterChecked
  grind [State.postFault_mem, State.enter_mem]

@[simp] theorem State.giveReply_mem (s : State) (k l x p n : Nat) : (s.giveReply k l x p n).mem = s.mem := by
  unfold State.giveReply
  grind [State.modPort_mem]

@[simp] theorem State.giveRoom_mem (s : State) (k l : Nat) (t : Task) : (s.giveRoom k l t).mem = s.mem := by
  unfold State.giveRoom
  grind [State.giveReply_mem, State.mem_modEdge, State.foldl_mem]

@[simp] theorem State.cellRelease_mem (s : State) (k l : Nat) : (s.cellRelease k l).1.mem = s.mem := rfl

@[simp] theorem State.enqueue_mem (s : State) (k l : Nat) (t : Task) (need : Option Nat) (r : MemReq) : (s.enqueue k l t need r).mem = s.mem := rfl

theorem State.wf_endRing (s : State) (k l : Nat) (t : Task) (drop : Bool) (hw : Memory.wf s.mem = true) : Memory.wf (s.endRing k l t drop).mem = true := by
  unfold State.endRing
  grind [State.ringTouch_mem, State.enqueue_mem, State.wf_ringVoid]

theorem State.wf_dropTask (s : State) (k l : Nat) (t : Task) (hw : Memory.wf s.mem = true) : Memory.wf (s.dropTask k l t).1.mem = true := by
  unfold State.dropTask
  grind [State.dropFrame_mem, State.giveRoom_mem, State.wf_endRing, State.mem_modEdge]

theorem State.wf_endTask (s : State) (k l : Nat) (drop : Bool) (hw : Memory.wf s.mem = true) : Memory.wf (s.endTask k l drop).mem = true := by
  unfold State.endTask
  grind [State.wf_dropTask, State.modCell_mem, State.giveRoom_mem, State.wf_endRing]

@[simp] theorem State.reclaimFrames_mem (s : State) (lead : Nat) : (s.reclaimFrames lead).mem = s.mem := rfl

@[simp] theorem State.settle_mem (s : State) (cores : List Nat) (isle : Nat) : (s.settle cores isle).mem = s.mem := rfl

theorem State.wf_endPhase (s : State) (lead st : Nat) (residue : Bool) (hw : Memory.wf s.mem = true) : Memory.wf (s.endPhase lead st residue).mem = true := by
  unfold State.endPhase
  grind [State.modCore_mem, State.modRc_mem, State.settle_mem, State.reclaimFrames_mem, Memory.wf_writeN, State.wf_foldl]

@[simp] theorem State.stopNode_mem (s : State) (n : Nat) : (s.stopNode n).mem = s.mem := by
  unfold State.stopNode
  grind [State.loseNode_mem, State.reclaim_mem, State.modNode_mem, State.endMembers_mem]

@[simp] theorem State.freeRegion_mem (s : State) (lead : Nat) : (s.freeRegion lead).mem = s.mem := rfl

theorem State.wf_failRegion (s : State) (lead : Nat) (hw : Memory.wf s.mem = true) : Memory.wf (s.failRegion lead).mem = true := by
  unfold State.failRegion
  grind [State.freeRegion_mem, State.modRc_mem, State.reclaimFrames_mem, State.stopNode_mem, State.wf_endPhase]

theorem State.wf_endRegion (s : State) (lead : Nat) (hw : Memory.wf s.mem = true) : Memory.wf (s.endRegion lead).mem = true := by
  unfold State.endRegion
  grind [State.modRc_mem, State.wf_failRegion]

theorem State.wf_terminate (s : State) (lead cause : Nat) (hw : Memory.wf s.mem = true) : Memory.wf (s.terminate lead cause).mem = true := by
  unfold State.terminate
  grind [State.wf_failRegion, State.wf_endRegion]

@[simp] theorem State.emptySlots_mem (s : State) (cores : List Nat) : (s.emptySlots cores).mem = s.mem := rfl

theorem State.wf_finishPhase (s : State) (lead st : Nat) (residue : Bool) (hw : Memory.wf s.mem = true) : Memory.wf (s.finishPhase lead st residue).mem = true := by
  unfold State.finishPhase
  grind [State.postFault_mem, State.wf_atomicAt, State.wf_failRegion, State.emptySlots_mem, State.wf_endPhase, State.release_mem]

theorem State.wf_taskFault (s : State) (k l kind : Nat) (f : Fail) (hw : Memory.wf s.mem = true) : Memory.wf (s.taskFault k l kind f).mem = true := by
  unfold State.taskFault
  grind [State.postFault_mem, State.wf_terminate, State.wf_endTask]

theorem State.wf_engineFault (s : State) (k loc kind : Nat) (f : Fail) (tag : Nat) (hw : Memory.wf s.mem = true) :
    Memory.wf (s.engineFault k loc kind f tag).mem = true := by
  unfold State.engineFault
  grind [State.postFault_mem, State.wf_terminate]

@[simp] theorem State.postRc_mem (s : State) (k sev : Nat) (f : Fail) : (s.postRc k sev f).mem = s.mem := by
  unfold State.postRc
  split <;> rfl

theorem State.wf_rcFault (s : State) (k : Nat) (f : Fail) (hw : Memory.wf s.mem = true) : Memory.wf (s.rcFault k f).mem = true := by
  unfold State.rcFault
  grind [State.postRc_mem, State.modRc_mem, State.wf_terminate]

@[simp] theorem State.infoFault_mem (s : State) (k loc kind cause addr tag : Nat) : (s.infoFault k loc kind cause addr tag).mem = s.mem := rfl

@[simp] theorem State.reach_mem (s : State) (d : Dest) (srcE : Nat) (t : Token) (host : List HostPub) : (s.reach d srcE t host).mem = s.mem := by
  unfold State.reach
  grind [State.modPort_mem, State.pushPort_mem, State.infoFault_mem]

/-! ### Operands and results -/

@[simp] theorem State.writeReg_mem (s : State) (e : Env) (d : Nat) (r : Reg) : (s.writeReg e d r).mem = s.mem := by
  unfold State.writeReg
  grind [State.modCell_mem, State.modCtx_mem]

@[simp] theorem State.pushL_mem (s : State) (k l : Nat) (r : Reg) : (s.pushL k l r).mem = s.mem := rfl

@[simp] theorem State.advance_mem (s : State) (k l len : Nat) : (s.advance k l len).mem = s.mem := rfl

@[simp] theorem State.drawn_mem (s : State) (e : Env) (yes : Bool) : (s.drawn e yes).mem = s.mem := by
  unfold State.drawn
  split <;> rfl

theorem State.wf_withTask {s : State} (hw : Memory.wf s.mem = true) {f : Env → State} (hf : ∀ e, Memory.wf (f e).mem = true) : Memory.wf (s.withTask f).mem = true := by
  unfold State.withTask
  split
  · exact hw
  · exact hf _

@[simp] theorem State.writeResult_mem (s : State) (e : Env) (len d : Nat) (draw : Bool) (r : Reg) : (s.writeResult e len d draw r).mem = s.mem := by
  unfold State.writeResult
  grind [State.writeReg_mem, State.pushL_mem, State.drawn_mem, State.advance_mem]

theorem State.wf_produce (s : State) (len d rm : Nat) (cs : List Nat) (f : Env → List Reg → Except Nat Reg) (hw : Memory.wf s.mem = true) :
    Memory.wf (s.produce len d rm cs f).mem = true := by
  refine State.wf_withTask hw fun e => ?_
  split
  · exact State.wf_taskFault _ _ _ _ _ hw
  · rw [State.writeResult_mem]; exact hw

/-! ### Flow instructions -/

@[simp] theorem State.putStaged_mem (s : State) (e : Env) (g : Staged) : (s.putStaged e g).mem = s.mem := rfl

theorem State.emit_mem (s : State) (e : Env) (edge : Nat) (t : Token) (u : State) (he : s.emit e edge t = .ok u) : u.mem = s.mem := by
  unfold State.emit at he
  grind [State.putStaged_mem]

theorem State.wf_flow (s : State) (len : Nat) (cs : List Nat) {f : Env → List Reg → Except Nat State} (hw : Memory.wf s.mem = true) (hf : ∀ e rs t, f e rs = .ok t → t.mem = s.mem) :
    Memory.wf (s.flow len cs f).mem = true := by
  refine State.wf_withTask hw fun e => ?_
  split
  · exact State.wf_taskFault _ _ _ _ _ hw
  · rename_i t he
    obtain ⟨rs, -, ht⟩ := Except.ok_of_bind he
    rw [State.advance_mem, State.drawn_mem, hf e rs t ht]; exact hw

theorem emitOne_mem (s : State) (edge c t : Nat) (e : Env) (rs : List Reg) (u : State) (he : emitOne s edge c t e rs = .ok u) : u.mem = s.mem := by
  unfold emitOne at he
  split at he
  · obtain ⟨k, -, hk⟩ := Except.ok_of_bind he
    exact State.emit_mem s _ _ _ _ hk
  · obtain ⟨k, -, hk⟩ := Except.ok_of_bind he
    exact State.emit_mem s _ _ _ _ hk
  · cases he

theorem emitPred_mem (s : State) (edge c t : Nat) (e : Env) (rs : List Reg) (u : State) (he : emitPred s edge c t e rs = .ok u) : u.mem = s.mem := by
  unfold emitPred at he
  split at he
  · obtain ⟨k, -, hk⟩ := Except.ok_of_bind he
    exact State.emit_mem s _ _ _ _ hk
  · cases he

theorem steerTo_mem (s : State) (edge c t x : Nat) (e : Env) (rs : List Reg) (u : State) (he : steerTo s edge c t x e rs = .ok u) : u.mem = s.mem := by
  unfold steerTo at he
  split at he
  · obtain ⟨k, -, hk⟩ := Except.ok_of_bind he
    dsimp only at hk
    split at hk
    · obtain ⟨s1, h1, h2⟩ := Except.ok_of_bind hk
      exact (State.emit_mem s1 _ _ _ _ h2).trans (State.emit_mem s _ _ _ _ h1)
    · exact State.emit_mem s _ _ _ _ hk
  · cases he

@[simp] theorem fwdmTo_mem (s : State) (edge : Nat) (e : Env) : (fwdmTo s edge e).mem = s.mem := by
  unfold fwdmTo
  split <;> rfl

theorem callTo_mem (s : State) (edge c er rc : Nat) (e : Env) (x0 : List Reg) (t : State) (he : callTo s edge c er rc e x0 = .ok t) : t.mem = s.mem := by
  unfold callTo at he
  grind [State.putStaged_mem, State.emit_mem]

theorem retTo_mem (s : State) (x : Nat) (e : Env) (x0 : List Reg) (t : State) (he : retTo s x e x0 = .ok t) : t.mem = s.mem := by
  unfold retTo at he
  grind [State.putStaged_mem]

theorem freeTo_mem (s : State) (e : Env) (t : State) (he : freeTo s e = .ok t) : t.mem = s.mem := by
  unfold freeTo at he
  grind [State.putStaged_mem]

theorem coalTo_mem (s : State) (edge : Nat) (e : Env) (rs : List Reg) (t : State) (he : coalTo s edge e rs = .ok t) : t.mem = s.mem := by
  unfold coalTo at he
  split at he
  · dsimp only at he
    split at he
    · cases he
    split at he
    · cases he
    split at he
    · cases he
    split at he
    · cases he; rfl
    split at he
    · cases he; exact s.modCtx_mem _ _ _ _
    · obtain ⟨s1, h1, h2⟩ := Except.ok_of_bind he
      cases h2
      exact (s1.modCtx_mem _ _ _ _).trans (State.emit_mem s _ _ _ _ h1)
  · cases he

theorem flushTo_mem (s : State) (edge : Nat) (e : Env) (t : State) (he : flushTo s edge e = .ok t) : t.mem = s.mem := by
  unfold flushTo at he
  dsimp only at he
  split at he
  · cases he; rfl
  split at he
  · cases he
  · obtain ⟨s1, h1, h2⟩ := Except.ok_of_bind he
    cases h2
    exact (s1.modCtx_mem _ _ _ _).trans (State.emit_mem s _ _ _ _ h1)

theorem trapIf_mem (s : State) (n : Nat) (e : Env) (rs : List Reg) (t : State) (he : trapIf s n e rs = .ok t) : t.mem = s.mem := by
  unfold trapIf at he
  grind

theorem State.wf_finish (s : State) (drop : Bool) (hw : Memory.wf s.mem = true) : Memory.wf (s.finish drop).mem = true := by
  unfold State.finish
  grind [State.wf_endTask, State.wf_withTask]

theorem State.wf_filter (s : State) (d a b x : Nat) (hw : Memory.wf s.mem = true) : Memory.wf (s.filter d a b x).mem = true := by
  refine State.wf_withTask hw fun e => ?_
  split
  · dsimp only
    have written (r : Reg) : Memory.wf (s.writeResult e 2 d (isDrawing 0 [a, b]) r).mem = true := State.wf_of_mem (State.writeResult_mem _ _ _ _ _ _) hw
    split
    · exact State.wf_endTask _ _ _ _ (written _)
    · exact written _
  · exact State.wf_taskFault _ _ _ _ _ hw

/-! ### Remote accesses of a cell -/

theorem State.sendRemote_mem (s : State) (core route : Nat) (r : RemoteReq) (t : State) (he : s.sendRemote core route r = .ok t) : t.mem = s.mem := by
  unfold State.sendRemote at he
  grind [State.leave_mem]

@[simp] theorem State.countRemote_mem (s : State) (k h : Nat) (n : Int) : (s.countRemote k h n).mem = s.mem := rfl

@[simp] theorem State.noteAtom_mem (s : State) (k h : Nat) (a : Nat × Nat × Bool) : (s.noteAtom k h a).mem = s.mem := rfl

@[simp] theorem State.relFor_mem (s : State) (k h order : Nat) : (s.relFor k h order).1.mem = s.mem := by
  unfold State.relFor
  split <;> rfl

theorem State.sendStore_mem (s : State) (k h core route off : Nat) (bytes mask : List Byte) (t : State) (he : s.sendStore k h core route off bytes mask = .ok t) : t.mem = s.mem := by
  unfold State.sendStore at he
  dsimp only at he
  generalize hr : s.sendRemote k route _ = r at he
  cases r with
  | error => cases he
  | ok u => cases he; rw [State.countRemote_mem]; exact State.sendRemote_mem _ _ _ _ _ hr

/-! ### Requests of the port -/

@[simp] theorem State.sinkPoison_mem (s : State) (k l x : Nat) (d : Reg) : (s.sinkPoison k l x d).mem = s.mem := by
  unfold State.sinkPoison
  grind [State.cellPoison_mem]

@[simp] theorem State.doStsRem_mem (s : State) (k l x : Nat) (p : Bool) (d a : Reg) : (s.doStsRem k l x p d a).1.mem = s.mem := by
  unfold State.doStsRem
  grind [State.sendStore_mem, State.sinkPoison_mem]

theorem State.wf_storeHalf (s : State) (k l : Nat) (h : Half) (bytes mask : List Byte) (hw : Memory.wf s.mem = true) :
    Memory.wf (s.storeHalf k l h bytes mask).1.mem = true := by
  unfold State.storeHalf
  grind [State.wf_storeAt]

theorem State.wf_doSts (s : State) (k l x : Nat) (p rem : Bool) (d a : Reg) (hw : Memory.wf s.mem = true) : Memory.wf (s.doSts k l x p rem d a).1.mem = true := by
  unfold State.doSts
  grind [State.wf_storeHalf, State.wf_store, State.doStsRem_mem, State.free_mem, State.sinkPoison_mem]

theorem State.wf_doHalf (s : State) (k l x core off : Nat) (bytes mask : List Byte) (d : Reg) (hw : Memory.wf s.mem = true) :
    Memory.wf (s.doHalf k l x core off bytes mask d).1.mem = true := by
  unfold State.doHalf
  grind [State.wf_storeHalf, State.sinkPoison_mem]

theorem State.wf_storeLanes (s : State) (k l n : Nat) (past : Bool) (lanes : List (Nat × Nat × Nat)) (hw : Memory.wf s.mem = true) :
    Memory.wf (s.storeLanes k l n past lanes).1.mem = true := by
  unfold State.storeLanes
  grind [State.wf_store, State.wf_foldl_fst]

theorem State.wf_scatter (s : State) (k l n : Nat) (lanes : List (Nat × Nat × Nat)) (hw : Memory.wf s.mem = true) : Memory.wf (s.scatter k l n lanes).1.mem = true := by
  unfold State.scatter
  grind [State.wf_storeLanes]

theorem State.wf_doStx (s : State) (k l x : Nat) (d a : Reg) (hw : Memory.wf s.mem = true) : Memory.wf (s.doStx k l x d a).1.mem = true := by
  unfold State.doStx
  grind [State.sinkPoison_mem, State.wf_scatter]

theorem State.wf_doExpd (s : State) (k l x : Nat) (d a : Reg) (hw : Memory.wf s.mem = true) : Memory.wf (s.doExpd k l x d a).1.mem = true := by
  unfold State.doExpd
  grind [State.sinkPoison_mem, State.wf_scatter]

theorem State.wf_doRput (s : State) (k l x : Nat) (d : Reg) (ring slot j : Nat) (hw : Memory.wf s.mem = true) :
    Memory.wf (s.doRput k l x d ring slot j).1.mem = true := by
  unfold State.doRput
  grind [State.wf_storeAt, State.sinkPoison_mem]

theorem State.wf_doTbarv (s : State) (k l : Nat) (a : Reg) (hw : Memory.wf s.mem = true) : Memory.wf (s.doTbarv k l a).1.mem = true := by
  unfold State.doTbarv
  grind [State.touch16_mem, State.cellRelease_mem, State.wf_tbArrive]

theorem State.wf_doSte (s : State) (k l x : Nat) (p : Bool) (d a : Reg) (hw : Memory.wf s.mem = true) : Memory.wf (s.doSte k l x p d a).1.mem = true := by
  unfold State.doSte
  obtain ⟨e, he⟩ : ∃ e, externOf a = e := ⟨_, rfl⟩
  rw [he]
  grind [State.shapeOf_mem, State.wf_writeOp, State.sinkPoison_mem]

@[simp] theorem State.doLde_mem (s : State) (k l x cls frame : Nat) (iter : W16) (f : Fmt) (p : Bool) (a : Reg) (port : Nat) : (s.doLde k l x cls frame iter f p a port).1.mem = s.mem := by
  unfold State.doLde
  obtain ⟨e, he⟩ : ∃ e, externOf a = e := ⟨_, rfl⟩
  rw [he]
  grind [State.shapeOf_mem, State.readOp_mem, State.pushPort_mem, State.giveReply_mem]

@[simp] theorem State.doOrdt_mem (s : State) (k l target id : Nat) : (s.doOrdt k l target id).1.mem = s.mem := rfl

theorem State.wf_doRfree (s : State) (k l ring slot : Nat) (hw : Memory.wf s.mem = true) : Memory.wf (s.doRfree k l ring slot).1.mem = true := by
  unfold State.doRfree
  grind [State.ringTouch_mem, State.cellRelease_mem, State.wf_ringFree]

@[simp] theorem State.doHist_mem (s : State) (k : Nat) (c : HCmd) : (s.doHist k c).1.mem = s.mem := rfl

theorem State.wf_perform (s : State) (k l : Nat) (h : Held) (hw : Memory.wf s.mem = true) : Memory.wf (s.perform k l h).1.mem = true := by
  unfold State.perform
  grind [State.wf_doTbarv, State.wf_doSte, State.wf_doExpd, State.doOrdt_mem, State.wf_doHalf, State.doLde_mem, State.wf_doRfree, State.wf_doSts, State.wf_doRput,
    State.wf_doStx, State.doHist_mem]

@[simp] theorem State.takeOrd_mem (s : State) (k l : Nat) (need : Option Nat) : (s.takeOrd k l need).1.mem = s.mem := by
  unfold State.takeOrd
  grind [State.acquire_mem, State.modCell_mem]

theorem State.wf_reqFault (s : State) (k l : Nat) (h : Held) (f : Fail) (hw : Memory.wf s.mem = true) : Memory.wf (s.reqFault k l h f).mem = true := by
  unfold State.reqFault
  grind [State.postFault_mem, State.wf_dropTask, State.modCell_mem, State.wf_taskFault, State.wf_terminate]

@[simp] theorem State.noReply_mem (s : State) (k l : Nat) (h : Held) : (s.noReply k l h).mem = s.mem := by
  unfold State.noReply
  grind [State.giveReply_mem]

theorem State.wf_drainPort (s : State) (k l n : Nat) (hw : Memory.wf s.mem = true) : Memory.wf (s.drainPort k l n).mem = true := by
  induction n generalizing s with
  | zero => exact hw
  | succ n ih =>
    unfold State.drainPort
    split
    · exact hw
    split
    · exact hw
    grind [State.takeOrd_mem, State.wf_perform, State.wf_reqFault, State.noReply_mem, State.postFault_mem, State.wf_endRegion, State.modCell_mem]

theorem State.wf_drain (s : State) (k l : Nat) (hw : Memory.wf s.mem = true) : Memory.wf (s.drain k l).mem = true := by
  unfold State.drain
  grind [State.wf_drainPort]

theorem State.wf_retryHeld (s : State) (pt : Nat) (p : Nat × Nat → Bool) (hw : Memory.wf s.mem = true) : Memory.wf (s.retryHeld pt p).mem = true := by
  unfold State.retryHeld
  grind [State.unhold_mem, State.wf_drain, State.wf_foldl]

theorem State.wf_retryPool (s : State) (pt : Nat) (hw : Memory.wf s.mem = true) : Memory.wf (s.retryPool pt).mem = true := by
  unfold State.retryPool
  grind [State.wf_retryHeld]

/-! ### Memory instructions -/

theorem State.wf_request (s : State) (cs : List Nat) (need : Option Nat) (f : Env → List Reg → Except Nat MemReq) (hw : Memory.wf s.mem = true) :
    Memory.wf (s.request cs need f).mem = true := by
  unfold State.request
  grind [State.enqueue_mem, State.modCell_mem, State.wf_taskFault, State.wf_drain, State.wf_withTask, State.drawn_mem, State.advance_mem]

theorem State.wf_access (s : State) (d : Nat) (cs : List Nat) (touch : Env → List Reg → List Half) {f : Env → List Reg → Except Nat (Did Reg)} (hw : Memory.wf s.mem = true)
    (hf : ∀ e rs p, f e rs = .ok p → Memory.wf p.1.mem = true) : Memory.wf (s.access d cs touch f).mem = true := by
  refine State.wf_withTask hw fun e => ?_
  split
  · exact State.wf_drain _ _ _ hw
  split
  · exact hw
  split
  · exact State.wf_taskFault _ _ _ _ _ hw
  · rename_i t g he
    obtain ⟨rs, -, ht⟩ := Except.ok_of_bind he
    exact State.wf_taskFault _ _ _ _ _ (hf e rs _ ht)
  · rename_i t r he
    obtain ⟨rs, -, ht⟩ := Except.ok_of_bind he
    rw [State.writeResult_mem]; exact hf e rs _ ht

theorem ldsAt_mem (s : State) (f p : Nat) (e : Env) (rs : List Reg) (t : Did Reg) (he : ldsAt s f p e rs = .ok t) : t.1.mem = s.mem := by
  unfold ldsAt at he
  split at he
  · obtain ⟨_, -, h1⟩ := Except.ok_of_bind he
    dsimp only at h1
    split at h1
    · cases h1; rfl
    split at h1 <;> cases h1 <;> exact (State.load_noted ‹_›).2
  · cases he

theorem ldxAt_mem (s : State) (f : Nat) (e : Env) (rs : List Reg) (t : Did Reg) (he : ldxAt s f e rs = .ok t) : t.1.mem = s.mem := by
  unfold ldxAt at he
  split at he
  · obtain ⟨_, -, h1⟩ := Except.ok_of_bind he
    simp only [pure, Except.pure] at h1
    grind [State.load_mem, State.foldl_fst_mem]
  · cases he

theorem wf_atomAt (s : State) (sc order op z : Nat) (e : Env) (rs : List Reg) (t : Did Reg) (hw : Memory.wf s.mem = true) (he : atomAt s sc order op z e rs = .ok t) : Memory.wf t.1.mem = true := by
  unfold atomAt at he
  split at he
  · obtain ⟨_, -, h1⟩ := Except.ok_of_bind he
    obtain ⟨_, -, h2⟩ := Except.ok_of_bind h1
    simp only [pure, Except.pure] at h2
    grind [State.sendRemote_mem, State.relFor_mem, State.wf_atomicBy, State.countRemote_mem, State.noteAtom_mem]
  · cases he

theorem State.wf_fencem (s : State) (order : Nat) (hw : Memory.wf s.mem = true) : Memory.wf (s.fencem order).mem = true := by
  unfold State.fencem
  grind [State.fence_mem, State.wf_taskFault, State.wf_drain, State.wf_withTask, State.advance_mem]

theorem rgetAt_mem (s : State) (f j : Nat) (e : Env) (rs : List Reg) (t : Did Reg) (he : rgetAt s f j e rs = .ok t) : t.1.mem = s.mem := by
  unfold rgetAt at he
  grind [State.loadAt_mem]

theorem State.wf_rfree (s : State) (hw : Memory.wf s.mem = true) : Memory.wf s.rfree.mem = true := by
  unfold State.rfree
  grind [State.modCell_mem, State.wf_taskFault, State.wf_request, State.wf_withTask]

theorem tbtstAt_mem (s : State) (e : Env) (rs : List Reg) (t : Did Reg) (he : tbtstAt s e rs = .ok t) : t.1.mem = s.mem := by
  unfold tbtstAt at he
  split at he
  · obtain ⟨_, -, h1⟩ := Except.ok_of_bind he
    simp only [pure, Except.pure] at h1
    grind [State.touch16_mem, State.acquire_mem]
  · cases he

/-! ### Record instructions -/

theorem fnputTo_mem (s : State) (edge : Nat) (e : Env) (rs : List Reg) (t : State) (he : fnputTo s edge e rs = .ok t) : t.mem = s.mem := by
  unfold fnputTo at he
  split at he
  · obtain ⟨_, -, h1⟩ := Except.ok_of_bind he
    cases h1
    exact State.putStaged_mem s _ _
  · cases he

theorem State.wf_changeCmd (s : State) (op h a edge variant j : Nat) (hw : Memory.wf s.mem = true) : Memory.wf (s.changeCmd op h a edge variant j).mem = true := by
  unfold State.changeCmd
  grind [State.wf_request]

theorem State.wf_seekCmd (s : State) (h a edge : Nat) (hw : Memory.wf s.mem = true) : Memory.wf (s.seekCmd h a edge).mem = true := by
  unfold State.seekCmd
  grind [State.wf_request]

/-! ### Admission and dispatch -/

@[simp] theorem State.gatherPort_mem (s : State) (k l x p n : Nat) : (s.gatherPort k l x p n).mem = s.mem := by
  induction n generalizing s with
  | zero => rfl
  | succ n ih =>
    unfold State.gatherPort
    grind [State.infoFault_mem, State.setCell_mem, State.modPort_mem]

@[simp] theorem State.gather_mem (s : State) (k l : Nat) : (s.gather k l).mem = s.mem := by
  unfold State.gather
  grind [State.gatherPort_mem, State.foldl_mem]

theorem State.wf_stampCell (s : State) (k l : Nat) (hw : Memory.wf s.mem = true) : Memory.wf (s.stampCell k l).mem = true := hw

theorem State.wf_stampAll (s : State) (hw : Memory.wf s.mem = true) : Memory.wf s.stampAll.mem = true := by
  unfold State.stampAll
  grind [State.wf_stampCell, State.wf_foldl]

theorem State.wf_reserve (s : State) (k l : Nat) (n : Needs) (t : Task) (hw : Memory.wf s.mem = true) : Memory.wf (s.reserve k l n t).1.mem = true := by
  unfold State.reserve
  extract_lets s1 s1' s2 lead
  have h2 : Memory.wf s2.mem = true := by grind [State.foldl_mem, State.mem_modEdge, State.modPort_mem]
  clear_value s2
  split
  rename_i s3 f he
  have h3 : Memory.wf s3.mem = true := by grind [State.setFrame_mem]
  grind [State.wf_ringReserve, State.wf_ringTake]

@[simp] theorem State.takeOps_mem (s : State) (k l : Nat) (d : Cand) : (s.takeOps k l d).mem = s.mem := by
  unfold State.takeOps
  grind [State.modPort_mem, State.modCell_mem]

@[simp] theorem State.consumeHost_mem (s : State) (k : Nat) (ts : List PortTok) : (s.consumeHost k ts).mem = s.mem := by
  unfold State.consumeHost
  grind [State.reclaim_mem, State.modNode_mem, State.foldl_mem]

@[simp] theorem State.acquireSlot_mem (s : State) (k l : Nat) (t : Task) : (s.acquireSlot k l t).1.mem = s.mem := by
  unfold State.acquireSlot
  grind [State.acquire_mem]

@[simp] theorem State.ringSeen_mem (s : State) (k l : Nat) (n : Needs) : (s.ringSeen k l n).1.mem = s.mem := by
  unfold State.ringSeen
  grind [State.ringTouch_mem]

theorem State.wf_admitCand (s : State) (k l : Nat) (d : Cand) (hw : Memory.wf s.mem = true) : Memory.wf (s.admitCand k l d).mem = true := by
  unfold State.admitCand
  grind [State.ringSeen_mem, State.wf_reserve, State.modCell_mem, State.consumeHost_mem, State.acquireSlot_mem, State.takeOps_mem, State.wf_engineFault]

@[simp] theorem State.acquireOps_mem (s : State) (k l : Nat) (t : Task) : (s.acquireOps k l t).1.mem = s.mem := by
  unfold State.acquireOps
  grind [State.acquire_mem, State.foldl_fst_mem]

theorem State.wf_dispatch (s : State) (k l : Nat) (hw : Memory.wf s.mem = true) : Memory.wf (s.dispatch k l).mem = true := by
  unfold State.dispatch
  grind [State.acquireOps_mem, State.modCell_mem, State.wf_engineFault]

@[simp] theorem State.newWeights_mem (s : State) (k l : Nat) : (s.newWeights k l).mem = s.mem := rfl

@[simp] theorem State.frameTimeouts_mem (s : State) (k l : Nat) : (s.frameTimeouts k l).mem = s.mem := by
  unfold State.frameTimeouts
  grind [State.modCell_mem, State.infoFault_mem, State.foldl_mem]

/-! ### Turns and the passing cycle -/

@[simp] theorem State.takeTurn_mem (s : State) : s.takeTurn.2.mem = s.mem := by
  unfold State.takeTurn
  split <;> rfl

@[simp] theorem State.tick_mem (s : State) : s.tick.mem = s.mem := rfl

theorem State.wf_passCycle (s : State) (hw : Memory.wf s.mem = true) : Memory.wf s.passCycle.mem = true := by
  unfold State.passCycle
  grind [State.wf_stampAll, State.tick_mem]

end Sys2Proof.Machine
end

section
/-! What the operations of history units, matrix engines and RCs, and a configuration image that is loaded, leave of memory (R126 to R157, R200 to R259). -/

namespace Sys2Proof.Machine
set_option Elab.async false -- one proof after the other, to bound memory

/-! ### The history unit -/

@[simp] theorem State.modHist_mem (s : State) (k h : Nat) (f : Hist → Hist) : (s.modHist k h f).mem = s.mem := rfl

@[simp] theorem State.rewriteHist_mem (s : State) (k h : Nat) (f : Option (List Time)) : (s.rewriteHist k h f).mem = s.mem := by
  unfold State.rewriteHist
  grind [State.modHist_mem, State.foldl_mem]

theorem State.compactCmd_mem (s : State) (k h : Nat) (f : List Time) (t : State) (outs : Outs) (he : s.compactCmd k h f = .ok (t, outs)) : t.mem = s.mem := by
  unfold State.compactCmd at he
  grind [State.rewriteHist_mem]

@[simp] theorem State.histSink_mem (s : State) (k h : Nat) (c : HEntry) : (s.histSink k h c).mem = s.mem := by
  unfold State.histSink
  grind [State.postPoisoned_mem, State.notePoison_mem, State.modHist_mem]

@[simp] theorem State.insertEntry_mem (s : State) (k h : Nat) (c : HEntry) : (s.insertEntry k h c).mem = s.mem := by
  unfold State.insertEntry
  grind [State.modHist_mem, State.histSink_mem]

@[simp] theorem State.seekHist_mem (s : State) (k h port : Nat) (c : HCmd) : (s.seekHist k h port c).1.mem = s.mem := rfl

@[simp] theorem State.joinHist_mem (s : State) (k h port : Nat) (c : HCmd) (v : HEntry) : (s.joinHist k h port c v).1.mem = s.mem := by
  unfold State.joinHist
  grind [State.insertEntry_mem]

theorem State.reduceHist_mem (s : State) (k h : Nat) (v : HEntry) (t : State) (he : s.reduceHist k h v = .ok t) : t.mem = s.mem := by
  unfold State.reduceHist at he
  grind [State.modHist_mem, State.insertEntry_mem]

theorem State.histCommand_mem (s : State) (k h : Nat) (c : HCmd) (t : State) (outs : Outs) (he : s.histCommand k h c = .ok (t, outs)) : t.mem = s.mem := by
  unfold State.histCommand at he
  extract_lets port at he
  split at he
  · grind [State.seekHist_mem]
  · grind [State.rewriteHist_mem]
  · exact State.compactCmd_mem _ _ _ _ _ _ he
  cases hr : s.reduceHist k h (entryOf c.a) with
  | error => grind [State.insertEntry_mem, State.joinHist_mem, Except.map]
  | ok u => grind [State.insertEntry_mem, State.joinHist_mem, State.reduceHist_mem, Except.map]

@[simp] theorem State.takeAdvance_mem (s : State) (k h fn : Nat) (f : List Time) (iter : W16) : (s.takeAdvance k h fn f iter).1.mem = s.mem := by
  unfold State.takeAdvance
  split <;> rfl

@[simp] theorem State.queueAdvance_mem (s : State) (k fn : Nat) (f : List Time) (iter : W16) : (s.queueAdvance k fn f iter).mem = s.mem := by
  unfold State.queueAdvance
  grind [State.modHist_mem, State.foldl_mem]

@[simp] theorem State.queueEos_mem (s : State) (k fn : Nat) : (s.queueEos k fn).mem = s.mem := by
  unfold State.queueEos
  grind [State.modHist_mem, State.foldl_mem]

theorem State.wf_writeArea (s : State) (k h : Nat) (hw : Memory.wf s.mem = true) : Memory.wf (s.writeArea k h).mem = true := by
  unfold State.writeArea
  grind [Memory.wf_writeN]

theorem State.histItem_mem (s : State) (k h : Nat) (i : HItem) (t : State) (outs : Outs) (he : s.histItem k h i = .ok (t, outs)) : t.mem = s.mem := by
  unfold State.histItem at he
  grind [State.compactCmd_mem, State.takeAdvance_mem, State.histCommand_mem]

@[simp] theorem State.flushHist_mem (s : State) (k h n : Nat) : (s.flushHist k h n).mem = s.mem := by
  induction n generalizing s with
  | zero => rfl
  | succ n ih =>
    unfold State.flushHist
    grind [State.modHist_mem, State.enter_mem]

theorem State.wf_histFault (s : State) (k h : Nat) (i : HItem) (cause : Nat) (hw : Memory.wf s.mem = true) : Memory.wf (s.histFault k h i cause).mem = true := by
  unfold State.histFault
  grind [State.modHist_mem, State.wf_engineFault]

theorem State.wf_histExtern (s : State) (k h : Nat) (c : Nat × Nat) (hw : Memory.wf s.mem = true) : Memory.wf (s.histExtern k h c).mem = true := by
  unfold State.histExtern
  grind [State.postFault_mem, State.modHist_mem, State.wf_engineFault]

theorem State.wf_writeBucket (s : State) (k h n : Nat) (blocks : List Nat) (hw : Memory.wf s.mem = true) : Memory.wf (s.writeBucket k h n blocks).1.mem = true := by
  unfold State.writeBucket
  grind [State.wf_writeVA, State.wf_foldl_fst]

theorem State.wf_respill (s : State) (k h : Nat) (hw : Memory.wf s.mem = true) : Memory.wf (s.respill k h).1.mem = true := by
  unfold State.respill
  grind [State.modHist_mem, State.wf_writeBucket, State.wf_foldl_fst]

theorem State.wf_writeBack (s : State) (k : Nat) (hs : List Nat) (hw : Memory.wf s.mem = true) : Memory.wf (s.writeBack k hs).1.mem = true := by
  unfold State.writeBack
  grind [State.wf_respill, State.wf_writeArea, State.wf_foldl_fst]

theorem State.wf_applyItem (s : State) (k h : Nat) (i : HItem) (hw : Memory.wf s.mem = true) : Memory.wf (s.applyItem k h i).mem = true := by
  unfold State.applyItem
  grind [State.keep_mem, State.wf_histExtern, State.modHist_mem, State.histItem_mem, State.flushHist_mem, State.wf_histFault, State.wf_writeBack, State.wf_foldl]

theorem State.wf_histTurn (s : State) (k h : Nat) (p : HItem → Bool) (hw : Memory.wf s.mem = true) : Memory.wf (s.histTurn k h p).mem = true := by
  unfold State.histTurn
  grind [State.wf_applyItem, State.flushHist_mem]

theorem State.wf_joinTurn (s : State) (k h : Nat) (hw : Memory.wf s.mem = true) : Memory.wf (s.joinTurn k h).mem = true := by
  unfold State.joinTurn
  grind [State.wf_applyItem, State.modHist_mem]

theorem State.wf_acceptCommand (s : State) (k l : Nat) (hw : Memory.wf s.mem = true) : Memory.wf (s.acceptCommand k l).mem = true := by
  unfold State.acceptCommand
  grind [State.modCell_mem, State.wf_reqFault, State.wf_perform, State.takeOrd_mem, State.wf_drain]

@[simp] theorem State.passEos_mem (s : State) (k h : Nat) : (s.passEos k h).mem = s.mem := by
  unfold State.passEos
  grind [State.modHist_mem, State.freeEos_mem, State.enter_mem, State.foldl_mem]

theorem State.wf_spillBucket (s : State) (k h : Nat) (hw : Memory.wf s.mem = true) : Memory.wf (s.spillBucket k h).mem = true := by
  unfold State.spillBucket
  split
  · exact hw
  split
  · exact hw
  split
  · exact hw
  split
  · split
    · dsimp only
      split
      · rename_i u c he
        exact State.wf_histExtern _ _ _ _ (State.wf_of_mem (State.keep_mem _ _) hw)
      · rename_i t u he
        refine State.wf_writeArea _ _ _ (State.wf_of_mem (State.modHist_mem _ _ _ _) ?_)
        exact (congrArg (fun q : State × Except (Nat × Nat) Unit => Memory.wf q.1.mem) he).symm.trans (State.wf_writeBucket _ _ _ _ _ hw)
    · exact hw
  · exact hw

@[simp] theorem State.readBucket_mem (s : State) (k h n : Nat) : (s.readBucket k h n).1.mem = s.mem := by
  unfold State.readBucket
  grind [State.readVA_mem, State.foldl_fst_mem]

theorem State.wf_fillBucket (s : State) (k h : Nat) (hw : Memory.wf s.mem = true) : Memory.wf (s.fillBucket k h).mem = true := by
  unfold State.fillBucket
  grind [State.wf_histExtern, State.modHist_mem, State.wf_writeArea, State.readBucket_mem]

/-! ### The matrix engine -/

@[simp] theorem State.modMatrix_mem (s : State) (k : Nat) (f : Matrix → Matrix) : (s.modMatrix k f).mem = s.mem := rfl

theorem State.wf_matFault (s : State) (k cause loc : Nat) (tag : MTag) (hw : Memory.wf s.mem = true) : Memory.wf (s.matFault k cause loc tag).mem = true := by
  unfold State.matFault
  grind [State.wf_engineFault, State.modMatrix_mem]

theorem State.wf_startInstance (s : State) (k : Nat) (hw : Memory.wf s.mem = true) : Memory.wf (s.startInstance k).mem = true := by
  unfold State.startInstance
  extract_lets m
  split
  · exact hw
  split
  · exact hw
  extract_lets tag
  split
  · grind [State.wf_matFault, State.modMatrix_mem]
  extract_lets start
  have hs : ∀ u mask s, Memory.wf s.mem = true → Memory.wf (start u mask s).mem = true := by
    intro u mask s hw
    grind [State.wf_matFault, State.modMatrix_mem]
  clear_value start
  grind [State.wf_matFault, State.modMatrix_mem]

theorem State.wf_pass (s : State) (k : Nat) (ins : Instr) (f : MInst → List Token → List Token → Matrix → Matrix) (hw : Memory.wf s.mem = true) :
    Memory.wf (s.pass k ins f).mem = true := by
  unfold State.pass
  grind [State.wf_matFault, State.modMatrix_mem]

theorem State.wf_multiply (s : State) (k : Nat) (ins : Instr) (z t : Bool) (mt nt acc a : Nat) (rows : MInst → List Nat) (hw : Memory.wf s.mem = true) :
    Memory.wf (s.multiply k ins z t mt nt acc a rows).mem = true := by
  unfold State.multiply
  grind [State.wf_pass]

@[simp] theorem State.freeDraws_mem (s : State) (n : Nat) : (s.freeDraws n).2.mem = s.mem := rfl

theorem State.wf_drainTiles (s : State) (k : Nat) (sr : Bool) (token : (Nat → Nat) → Matrix → Token → Nat → Token) (total : Nat) (hw : Memory.wf s.mem = true) :
    Memory.wf (s.drainTiles k sr token total).mem = true := by
  unfold State.drainTiles
  grind [State.freeDraws_mem, State.wf_matFault, State.enter_mem, State.modMatrix_mem, State.wf_foldl]

theorem State.wf_matrixEos (s : State) (k p : Nat) (hw : Memory.wf s.mem = true) : Memory.wf (s.matrixEos k p).mem = true := by
  unfold State.matrixEos
  grind [State.wf_matFault, State.freeEos_mem, State.enter_mem, State.modMatrix_mem]

/-! ### Registers of an RC -/

@[simp] theorem State.setQ_mem (s : State) (k i v : Nat) : (s.setQ k i v).mem = s.mem := by
  unfold State.setQ
  split <;> rfl

@[simp] theorem State.rcNext_mem (s : State) (k n : Nat) : (s.rcNext k n).mem = s.mem := rfl

@[simp] theorem State.rcPut_mem (s : State) (d v : Nat) : (s.rcPut d v).mem = s.mem := by
  unfold State.rcPut
  grind [State.rcNext_mem, State.setQ_mem]

theorem State.wf_rcTrap (s : State) (cause : Nat) (hw : Memory.wf s.mem = true) : Memory.wf (s.rcTrap cause).mem = true := by
  unfold State.rcTrap
  grind [State.wf_rcFault]

theorem State.wf_needLevel (s : State) (l : Nat) {f : State} (hw : Memory.wf s.mem = true) (hf : Memory.wf f.mem = true) : Memory.wf (s.needLevel l f).mem = true := by
  unfold State.needLevel
  grind [State.wf_rcTrap]

@[simp] theorem State.jump_mem (s : State) (k target : Nat) : (s.jump k target).mem = s.mem := rfl

theorem State.wf_srSet (s : State) (k n v : Nat) (t : State) (hw : Memory.wf s.mem = true) (he : s.srSet k n v = .ok t) : Memory.wf t.mem = true := by
  unfold State.srSet at he
  grind [State.modIsle_mem, State.wf_retryPool, State.modRc_mem, State.modPart_mem]

/-! ### The image of a region -/

theorem State.wf_loadCell (s : State) (lead tag : Nat) (b : List Byte) (o : Nat) (hw : Memory.wf s.mem = true) : Memory.wf (s.loadCell lead tag b o).mem = true := by
  unfold State.loadCell
  grind [State.modCell_mem, Memory.wf_writeN, Memory.wf_rewriteWords]

theorem State.wf_loadMatrix (s : State) (lead tag : Nat) (b : List Byte) (o : Nat) (hw : Memory.wf s.mem = true) : Memory.wf (s.loadMatrix lead tag b o).mem = true := by
  unfold State.loadMatrix
  grind [State.modMatrix_mem, Memory.wf_writeN, Memory.wf_rewriteWords]

theorem State.wf_loadHist (s : State) (lead tag : Nat) (b : List Byte) (o : Nat) (hw : Memory.wf s.mem = true) : Memory.wf (s.loadHist lead tag b o).mem = true := by
  unfold State.loadHist
  grind [State.modCore_mem, Memory.wf_writeN, Memory.wf_rewriteWords]

theorem State.wf_initBarrier (s : State) (lead t arr : Nat) (hw : Memory.wf s.mem = true) : Memory.wf (s.initBarrier lead t arr).mem = true := by
  unfold State.initBarrier
  grind [State.modCore_mem, State.modRc_mem, Memory.wf_barWrite]

theorem State.wf_loadRings (s : State) (lead : Nat) (b : List Byte) (hw : Memory.wf s.mem = true) : Memory.wf (s.loadRings lead b).mem = true := by
  unfold State.loadRings
  extract_lets o nr nb m0 m1 m2 m3 m4 s1 s2
  have h3 : Memory.wf m3 = true := Memory.wf_writeN (Memory.wf_writeN (Memory.wf_writeN (Memory.wf_clear hw _ _) _ _) _ _) _ _
  have h4 : Memory.wf m4 = true := Memory.wf_foldl _ (fun m t hm => by dsimp only; split; exacts [hm, Memory.wf_writeN hm _ _]) _ h3
  have h5 : Memory.wf s2.mem = true := State.wf_foldl (fun s r hs => State.wf_setRing _ _ _ _ hs) _ h4
  exact State.wf_foldl (fun s r hs => State.wf_initBarrier _ _ _ _ hs) _ h5

theorem State.wf_loadImage (s : State) (lead : Nat) (b : List Byte) (hw : Memory.wf s.mem = true) : Memory.wf (s.loadImage lead b).mem = true := by
  unfold State.loadImage
  grind [State.wf_loadMatrix, State.wf_loadRings, State.wf_loadHist, State.wf_loadCell, State.wf_foldl]

theorem State.wf_configure (s : State) (g : Region) (b : List Byte) (t : State) (hw : Memory.wf s.mem = true) (he : s.configure g b = .ok t) : Memory.wf t.mem = true := by
  unfold State.configure at he
  grind [State.modCore_mem, State.modRc_mem, State.wf_loadImage, State.wf_foldl]

/-! ### Control flow of an RC -/

@[simp] theorem State.branch_mem (s : State) (a b off : Nat) (p : Nat → Nat → Bool) : (s.branch a b off p).mem = s.mem := by
  unfold State.branch
  grind [State.rcNext_mem, State.jump_mem]

theorem State.wf_jumpTo (s : State) (d target n : Nat) (hw : Memory.wf s.mem = true) : Memory.wf (s.jumpTo d target n).mem = true := by
  unfold State.jumpTo
  grind [State.wf_rcFault, State.setQ_mem, State.jump_mem]

theorem State.wf_rcLoop (s : State) (c off : Nat) (hw : Memory.wf s.mem = true) : Memory.wf (s.rcLoop c off).mem = true := by
  unfold State.rcLoop
  grind [State.wf_rcFault, State.modRc_mem, State.wf_rcTrap]

theorem State.wf_rcEndl (s : State) (hw : Memory.wf s.mem = true) : Memory.wf s.rcEndl.mem = true := by
  unfold State.rcEndl
  grind [State.modRc_mem, State.wf_rcTrap]

theorem State.wf_rcAcquire (s : State) (c : Clr) {f : State → State} (hw : Memory.wf s.mem = true) (hf : ∀ t, Memory.wf t.mem = true → Memory.wf (f t).mem = true) :
    Memory.wf (s.rcAcquire c f).mem = true := by
  unfold State.rcAcquire
  grind [State.acquire_mem, State.wf_rcFault]

theorem State.wf_rcTake (s : State) (c : Clr) {f : State → State} (hw : Memory.wf s.mem = true) (hf : ∀ t, Memory.wf t.mem = true → Memory.wf (f t).mem = true) :
    Memory.wf (s.rcTake c f).mem = true := by
  unfold State.rcTake
  grind [State.acquire_mem, State.takeSet_mem, State.wf_rcFault]

theorem State.wf_rcBst (s : State) (d a sel i : Nat) (hw : Memory.wf s.mem = true) : Memory.wf (s.rcBst d a sel i).mem = true := by
  unfold State.rcBst
  grind [State.rcPut_mem, State.wf_rcFault, State.wf_rcTake, State.touch16_mem, State.wf_rcAcquire, State.wf_rcTrap]

theorem State.wf_rcWaite (s : State) (d mask : Nat) (hw : Memory.wf s.mem = true) : Memory.wf (s.rcWaite d mask).mem = true := by
  unfold State.rcWaite
  grind [State.rcPut_mem, State.modRc_mem, State.wf_rcTrap]

@[simp] theorem State.rcSys_mem (s : State) (d a n : Nat) : (s.rcSys d a n).mem = s.mem := rfl

@[simp] theorem State.rcHalt_mem (s : State) : s.rcHalt.mem = s.mem := by
  unfold State.rcHalt
  grind [State.modRc_mem]

theorem State.wf_rcIllegal (s : State) (hw : Memory.wf s.mem = true) : Memory.wf s.rcIllegal.mem = true := by
  unfold State.rcIllegal
  grind [State.wf_rcTrap]

/-! ### Memory instructions of an RC -/

theorem State.wf_farSend (s : State) (route : Nat) (wait : Bool) (qd : Nat) (r : RemoteReq) (hw : Memory.wf s.mem = true) :
    Memory.wf (s.farSend route wait qd r).mem = true := by
  unfold State.farSend
  grind [State.wf_rcFault, State.countRemote_mem, State.rcNext_mem, State.modRc_mem, State.sendRemote_mem]

@[simp] theorem State.rcWaits_mem (s : State) (w : Bool) : (s.rcWaits w).mem = s.mem := rfl

theorem State.wf_rcOrdered (s : State) (addr n : Nat) {f : State → State} (hw : Memory.wf s.mem = true) (hf : ∀ t, Memory.wf t.mem = true → Memory.wf (f t).mem = true) :
    Memory.wf (s.rcOrdered addr n f).mem = true := by
  unfold State.rcOrdered
  grind [State.rcWaits_mem]

theorem State.wf_rcLoad (s : State) (d a n off : Nat) (hw : Memory.wf s.mem = true) : Memory.wf (s.rcLoad d a n off).mem = true := by
  unfold State.rcLoad
  grind [State.wf_rcFault, State.load_mem, State.rcNext_mem, State.wf_farSend, State.setQ_mem, State.wf_rcOrdered]

theorem State.wf_rcStore (s : State) (d a n off : Nat) (hw : Memory.wf s.mem = true) : Memory.wf (s.rcStore d a n off).mem = true := by
  unfold State.rcStore
  grind [State.wf_rcFault, State.wf_store, State.rcNext_mem, State.wf_farSend, State.wf_rcOrdered]

theorem State.wf_rcAtomic (s : State) (d a b z order scope op : Nat) (hw : Memory.wf s.mem = true) : Memory.wf (s.rcAtomic d a b z order scope op).mem = true := by
  unfold State.rcAtomic
  grind [State.wf_rcFault, State.rcNext_mem, State.wf_farSend, State.setQ_mem, State.relFor_mem, State.wf_atomicBy, State.wf_rcTrap, State.rcWaits_mem]

theorem State.wf_rcFence (s : State) (order : Nat) (hw : Memory.wf s.mem = true) : Memory.wf (s.rcFence order).mem = true := by
  unfold State.rcFence
  grind [State.wf_rcFault, State.rcNext_mem, State.fence_mem, State.wf_rcTrap, State.rcWaits_mem]

/-! ### Phases -/

theorem State.wf_rcExtern (s : State) (c : Nat × Nat) (hw : Memory.wf s.mem = true) : Memory.wf (s.rcExtern c).mem = true := by
  unfold State.rcExtern
  grind [State.wf_rcFault, State.postRc_mem, State.modRc_mem]

theorem State.wf_rcCfg (s : State) (ext : Nat) (hw : Memory.wf s.mem = true) : Memory.wf (s.rcCfg ext).mem = true := by
  unfold State.rcCfg
  grind [State.rcNext_mem, State.modRc_mem, State.wf_rcTrap]

theorem State.wf_rcCfgw (s : State) {f : State → State} (hw : Memory.wf s.mem = true) (hf : ∀ t, Memory.wf t.mem = true → Memory.wf (f t).mem = true) :
    Memory.wf (s.rcCfgw f).mem = true := by
  unfold State.rcCfgw
  grind [State.wf_rcTrap]

theorem State.wf_rcIter (s : State) (a n : Nat) (hw : Memory.wf s.mem = true) : Memory.wf (s.rcIter a n).mem = true := by
  unfold State.rcIter
  grind [State.rcNext_mem, State.modRc_mem, State.wf_rcTrap]

theorem State.wf_rcSpec (s : State) (d ext : Nat) (hw : Memory.wf s.mem = true) : Memory.wf (s.rcSpec d ext).mem = true := by
  unfold State.rcSpec
  grind [State.rcNext_mem, State.modRc_mem, State.readVA_mem, State.wf_rcExtern, State.wf_rcTrap]

@[simp] theorem State.cellsAcquire_mem (s : State) (cores : List Nat) (c : Clr) : (s.cellsAcquire cores c).1.mem = s.mem := by
  unfold State.cellsAcquire
  grind [State.acquire_mem, State.foldl_fst_mem]

@[simp] theorem State.startPhase_mem (s : State) (k : Nat) : (s.startPhase k).1.mem = s.mem := by
  unfold State.startPhase
  grind [State.modCell_mem, State.modRc_mem, State.cellsAcquire_mem, State.release_mem, State.foldl_mem]

theorem State.wf_rcGo (s : State) (hw : Memory.wf s.mem = true) : Memory.wf s.rcGo.mem = true := by
  unfold State.rcGo
  grind [State.wf_rcFault, State.wf_rcCfgw, State.rcNext_mem, State.startPhase_mem, State.wf_rcTrap]

@[simp] theorem State.rcWaitr_mem (s : State) (d : Nat) : (s.rcWaitr d).mem = s.mem := by
  unfold State.rcWaitr
  grind [State.rcPut_mem]

@[simp] theorem State.rcAbortr_mem (s : State) : s.rcAbortr.mem = s.mem := by
  unfold State.rcAbortr
  grind [State.rcNext_mem, State.modRc_mem]

@[simp] theorem State.barcMerge_mem (s : State) (k mask : Nat) : (s.barcMerge k mask).1.mem = s.mem := by
  unfold State.barcMerge
  grind [State.acquire_mem, State.release_mem, State.foldl_fst_mem]

theorem State.wf_rcBarc (s : State) (a : Nat) (hw : Memory.wf s.mem = true) : Memory.wf (s.rcBarc a).mem = true := by
  unfold State.rcBarc
  grind [State.wf_rcFault, State.modCell_mem, State.barcMerge_mem, State.rcNext_mem, State.modRc_mem, State.wf_rcTrap, State.wf_foldl]

theorem State.wf_rcInj (s : State) (d a b : Nat) (hw : Memory.wf s.mem = true) : Memory.wf (s.rcInj d a b).mem = true := by
  unfold State.rcInj
  grind [State.rcPut_mem, State.wf_rcFault, State.load_mem, State.free_mem, State.reach_mem, State.wf_rcTrap, State.wf_rcOrdered]

theorem State.wf_rcXtr (s : State) (d a : Nat) (hw : Memory.wf s.mem = true) : Memory.wf (s.rcXtr d a).mem = true := by
  unfold State.rcXtr
  grind [State.rcPut_mem, State.wf_rcFault, State.wf_store, State.modRc_mem, State.wf_rcOrdered]

end Sys2Proof.Machine
end

section
/-! What copies, nodes, pre-emption, collectives and the events of tokens, tasks and streams leave of memory (R61 to R69, R79, R113 to R116, R254 to R289, R322 to R329). -/

namespace Sys2Proof.Machine
set_option Elab.async false -- one proof after the other, to bound memory

/-! ### Copies -/

theorem State.wf_startCopy (s : State) (k : Nat) (c : Copy) (hw : Memory.wf s.mem = true) : Memory.wf (s.startCopy k c).mem = true := by
  unfold State.startCopy
  grind [State.acquire_mem, State.wf_rcFault, State.modCore_mem, State.rcNext_mem, State.release_mem]

theorem State.wf_rcCpy (s : State) (r a b t p : Nat) (hw : Memory.wf s.mem = true) : Memory.wf (s.rcCpy r a b t p).mem = true := by
  unfold State.rcCpy
  grind [State.wf_rcFault, State.rcNext_mem, State.wf_startCopy, State.wf_rcTrap]

@[simp] theorem State.modCopy_mem (s : State) (k i : Nat) (f : Copy → Copy) : (s.modCopy k i f).mem = s.mem := rfl

theorem State.wf_failCopy (s : State) (k i : Nat) (f : Fail) (hw : Memory.wf s.mem = true) : Memory.wf (s.failCopy k i f).mem = true := by
  unfold State.failCopy
  grind [State.modCopy_mem, State.wf_engineFault]

theorem State.wf_joinSlot (s : State) (k i slot : Nat) (hw : Memory.wf s.mem = true) : Memory.wf (s.joinSlot k i slot).mem = true := by
  unfold State.joinSlot
  grind [State.acquire_mem, State.ringTouch_mem, State.wf_failCopy, State.modCopy_mem]

theorem State.wf_reserveSlots (s : State) (k i n : Nat) (hw : Memory.wf s.mem = true) : Memory.wf (s.reserveSlots k i n).mem = true := by
  induction n generalizing s with
  | zero => exact hw
  | succ n ih =>
    unfold State.reserveSlots
    grind [State.wf_ringReserve, State.wf_joinSlot]

theorem State.wf_rcCpyr (s : State) (r a b t p : Nat) (hw : Memory.wf s.mem = true) : Memory.wf (s.rcCpyr r a b t p).mem = true := by
  unfold State.rcCpyr
  grind [State.wf_rcFault, State.wf_reserveSlots, State.rcNext_mem, State.modRc_mem, State.wf_startCopy, State.wf_rcTrap]

theorem State.wf_rcCpyRows (s : State) (kind a b t p : Nat) (hw : Memory.wf s.mem = true) : Memory.wf (s.rcCpyRows kind a b t p).mem = true := by
  unfold State.rcCpyRows
  grind [State.wf_rcFault, State.wf_startCopy]

@[simp] theorem State.endCopy_mem (s : State) (k i : Nat) : (s.endCopy k i).mem = s.mem := rfl

theorem State.wf_moveSector (s : State) (k : Nat) (c : Copy) (off addr : Nat) (hw : Memory.wf s.mem = true) : Memory.wf (s.moveSector k c off addr).state.mem = true := by
  unfold State.moveSector
  grind [State.wf_writeOp, State.load_mem, State.wf_store, State.readOp_mem, Moved.state]

theorem State.wf_landed (s : State) (k : Nat) (c : Copy) (hw : Memory.wf s.mem = true) : Memory.wf (s.landed k c).1.mem = true := by
  unfold State.landed
  grind [State.wf_tbSectors, State.touch16_mem, State.release_mem]

theorem State.wf_sector (s : State) (k : Nat) (c : Copy) (off addr : Nat) (hw : Memory.wf s.mem = true) : Memory.wf (s.sector k c off addr).state.mem = true := by
  unfold State.sector
  grind [State.wf_moveSector, State.wf_landed, Moved.state]

@[simp] theorem State.engineWord_mem (s : State) (k addr : Nat) : (s.engineWord k addr).1.mem = s.mem := by
  unfold State.engineWord
  grind [State.load_mem]

theorem State.wf_enginePut (s : State) (k addr v : Nat) (hw : Memory.wf s.mem = true) : Memory.wf (s.enginePut k addr v).1.mem = true := by
  unfold State.enginePut
  grind [State.wf_store]

@[simp] theorem State.maskCount_mem (s : State) (k addr n : Nat) : (s.maskCount k addr n).1.mem = s.mem := by
  induction n generalizing s with
  | zero => rfl
  | succ n ih =>
    unfold State.maskCount
    grind [State.engineWord_mem]

@[simp] theorem State.rowCause_mem (s : State) (k : Nat) (c : Copy) : (s.rowCause k c).1.mem = s.mem := by
  unfold State.rowCause
  grind [State.maskCount_mem]

@[simp] theorem State.readDesc_mem (s : State) (k i : Nat) (c : Copy) : (s.readDesc k i c).state.mem = s.mem := by
  unfold State.readDesc
  grind [State.load_mem, State.free_mem, State.modCopy_mem, State.rowCause_mem, State.shapeOf_mem, Moved.state]

theorem State.wf_rowSector (s : State) (k i : Nat) (c : Copy) (row place : Nat) (hw : Memory.wf s.mem = true) :
    Memory.wf (s.rowSector k i c row place).state.mem = true := by
  unfold State.rowSector
  grind [State.wf_sector, State.modCopy_mem, Moved.state]

theorem State.wf_moveRow (s : State) (k i : Nat) (c : Copy) (hw : Memory.wf s.mem = true) : Memory.wf (s.moveRow k i c).state.mem = true := by
  unfold State.moveRow
  grind [State.engineWord_mem, State.endCopy_mem, State.readDesc_mem, State.wf_enginePut, State.modCopy_mem, State.wf_rowSector, Moved.state]

theorem State.wf_moveRing (s : State) (k i : Nat) (c : Copy) (hw : Memory.wf s.mem = true) : Memory.wf (s.moveRing k i c).state.mem = true := by
  unfold State.moveRing
  grind [State.endCopy_mem, State.wf_ringPublish, State.wf_sector, State.modCopy_mem, State.wf_ringFree, State.release_mem, Moved.state]

theorem State.wf_moveLine (s : State) (k i : Nat) (c : Copy) (hw : Memory.wf s.mem = true) : Memory.wf (s.moveLine k i c).state.mem = true := by
  unfold State.moveLine
  grind [State.endCopy_mem, State.wf_sector, State.modCopy_mem, Moved.state]

theorem State.wf_withShape (s : State) (k : Nat) (c : Copy) {f : State → Moved} (hw : Memory.wf s.mem = true) (hf : ∀ t, t.mem = s.mem → Memory.wf (f t).state.mem = true) :
    Memory.wf (s.withShape k c f).state.mem = true := by
  unfold State.withShape
  grind [State.shapeOf_mem, Moved.state]

@[simp] theorem State.damageCopy_mem (s : State) (k : Nat) (c : Copy) : (s.damageCopy k c).mem = s.mem := by
  unfold State.damageCopy
  grind [State.quarantine_mem]

theorem State.wf_copyTurn (s : State) (k i : Nat) (damaged : Bool) (hw : Memory.wf s.mem = true) : Memory.wf (s.copyTurn k i damaged).mem = true := by
  unfold State.copyTurn
  grind [State.postFault_mem, State.wf_failCopy, State.wf_withShape, State.modCopy_mem, State.damageCopy_mem, State.wf_moveLine, State.wf_moveRing,
    State.wf_moveRow, Moved.state]

@[simp] theorem State.stopCopy_mem (s : State) (k i : Nat) (c : Copy) : (s.stopCopy k i c).mem = s.mem := by
  unfold State.stopCopy
  split <;> rfl

theorem State.wf_rcCpst (s : State) (d t : Nat) (hw : Memory.wf s.mem = true) : Memory.wf (s.rcCpst d t).mem = true := by
  unfold State.rcCpst
  grind [State.rcPut_mem, State.stopCopy_mem, State.wf_rcTrap, State.wf_foldl]

theorem State.wf_onBarrier (s : State) (t : Nat) {f : Nat → State} (hw : Memory.wf s.mem = true) (hf : ∀ n, Memory.wf (f n).mem = true) :
    Memory.wf (s.onBarrier t f).mem = true := by
  unfold State.onBarrier
  grind [State.wf_rcTrap]

theorem State.wf_rcTbi (s : State) (a t : Nat) (hw : Memory.wf s.mem = true) : Memory.wf (s.rcTbi a t).mem = true := by
  unfold State.rcTbi
  grind [State.wf_initBarrier, State.wf_rcFault, State.touch16_mem, State.rcNext_mem, State.wf_onBarrier, State.wf_rcTrap]

theorem State.wf_rcTbex (s : State) (a t : Nat) (hw : Memory.wf s.mem = true) : Memory.wf (s.rcTbex a t).mem = true := by
  unfold State.rcTbex
  grind [State.wf_rcFault, State.wf_tbSectors, State.touch16_mem, State.rcNext_mem, State.wf_onBarrier, State.release_mem]

theorem State.wf_rcTbw (s : State) (t : Nat) (hw : Memory.wf s.mem = true) : Memory.wf (s.rcTbw t).mem = true := by
  unfold State.rcTbw
  grind [State.wf_rcFault, State.touch16_mem, State.wf_rcAcquire, State.rcNext_mem, State.wf_onBarrier, State.modRc_mem, State.wf_rcTrap, Memory.wf_barWrite]

@[simp] theorem State.dropShadow_mem (s : State) (n j : Nat) : (s.dropShadow n j).mem = s.mem := by
  unfold State.dropShadow
  grind [State.modOperand_mem, State.reclaim_mem]

@[simp] theorem State.rebase_mem (s : State) (n h v : Nat) (map : Assoc Nat) (was : List Nat) : (s.rebase n h v map was).mem = s.mem := by
  unfold State.rebase
  grind [State.reclaim_mem, State.modNode_mem]

theorem State.wf_rcShd (s : State) (d p : Nat) (hw : Memory.wf s.mem = true) : Memory.wf (s.rcShd d p).mem = true := by
  unfold State.rcShd
  grind [State.rcPut_mem, State.rebase_mem, State.wf_rcTrap]

theorem State.wf_rcPub (s : State) (d p : Nat) (hw : Memory.wf s.mem = true) : Memory.wf (s.rcPub d p).mem = true := by
  unfold State.rcPub
  grind [State.dropShadow_mem, State.rcPut_mem, State.rebase_mem, State.wf_publish, State.wf_rcExtern, State.wf_rcTrap, State.modPart_mem, State.release_mem]

theorem State.wf_rcDisc (s : State) (p : Nat) (hw : Memory.wf s.mem = true) : Memory.wf (s.rcDisc p).mem = true := by
  unfold State.rcDisc
  grind [State.dropShadow_mem, State.rcNext_mem, State.wf_rcTrap]

/-! ### Nodes -/

@[simp] theorem State.newHandle_mem (s : State) : s.newHandle.2.mem = s.mem := rfl

@[simp] theorem State.enterPool_mem (s : State) (n die : Nat) : (s.enterPool n die).mem = s.mem := by
  unfold State.enterPool
  grind [State.modNode_mem, State.modDie_mem]

@[simp] theorem State.leavePool_mem (s : State) (n : Nat) : (s.leavePool n).mem = s.mem := by
  unfold State.leavePool
  grind [State.modDie_mem]

@[simp] theorem State.cancelNode_mem (s : State) (n : Nat) : (s.cancelNode n).mem = s.mem := by
  unfold State.cancelNode
  grind [State.post_mem, State.modNode_mem, State.leavePool_mem]

@[simp] theorem State.admitNode_mem (s : State) (v : Node) (preds die : Nat) : (s.admitNode v preds die).mem = s.mem := by
  unfold State.admitNode
  grind [State.enterPool_mem, State.cancelNode_mem]

@[simp] theorem State.progLenOf_mem (s : State) (k : Nat) (v : Node) : (s.progLenOf k v).1.mem = s.mem := by
  unfold State.progLenOf
  grind [State.readVA_mem]

theorem State.wf_rcNdsub (s : State) (d a : Nat) (hw : Memory.wf s.mem = true) : Memory.wf (s.rcNdsub d a).mem = true := by
  unfold State.rcNdsub
  grind [State.rcPut_mem, State.wf_rcFault, State.progLenOf_mem, State.admitNode_mem, State.newHandle_mem, State.readVA_mem, State.wf_rcExtern]

theorem State.wf_stepPreds (s : State) (k pt va : Nat) (up : Bool) (hw : Memory.wf s.mem = true) : Memory.wf (s.stepPreds k pt va up).1.mem = true := by
  unfold State.stepPreds
  grind [State.free_mem, State.readVA_mem, State.wf_writeVA]

theorem State.wf_rcNddep (s : State) (d a b : Nat) (hw : Memory.wf s.mem = true) : Memory.wf (s.rcNddep d a b).mem = true := by
  unfold State.rcNddep
  grind [State.rcPut_mem, State.wf_rcFault, State.modNode_mem, State.wf_stepPreds, State.modDie_mem, State.wf_rcExtern, State.wf_rcTrap]

theorem State.wf_rcNodeState (s : State) (d a : Nat) (wait : Bool) (hw : Memory.wf s.mem = true) : Memory.wf (s.rcNodeState d a wait).mem = true := by
  unfold State.rcNodeState
  grind [State.rcPut_mem, State.wf_rcTake, State.wf_rcTrap]

@[simp] theorem State.succFrom_mem (s : State) (k pt a n : Nat) : (s.succFrom k pt a n).1.mem = s.mem := by
  induction n generalizing s a with
  | zero => unfold State.succFrom; grind [State.readVA_mem]
  | succ n ih => unfold State.succFrom; grind [State.readVA_mem]

@[simp] theorem State.successors_mem (s : State) (k : Nat) (v : Node) : (s.successors k v).1.mem = s.mem := by
  unfold State.successors
  grind [State.succFrom_mem, State.postUnit_mem]

theorem State.wf_releaseOne (s : State) (k pt die : Nat) (c : Clr) (va : Nat) (hw : Memory.wf s.mem = true) : Memory.wf (s.releaseOne k pt die c va).1.mem = true := by
  unfold State.releaseOne
  grind [State.enterPool_mem, State.modNode_mem, State.wf_stepPreds, State.wf_foldl]

@[simp] theorem State.dropLinks_mem (s : State) (n : Nat) : (s.dropLinks n).mem = s.mem := by
  unfold State.dropLinks
  grind [State.modNode_mem, State.modDie_mem, State.foldl_mem]

theorem State.wf_releaseSuccessors (s : State) (k n : Nat) (c : Clr) (hw : Memory.wf s.mem = true) : Memory.wf (s.releaseSuccessors k n c).1.mem = true := by
  unfold State.releaseSuccessors
  grind [State.dropLinks_mem, State.successors_mem, State.wf_releaseOne, State.wf_foldl_fst]

theorem State.wf_rcPin (s : State) (hw : Memory.wf s.mem = true) : Memory.wf s.rcPin.mem = true := by
  unfold State.rcPin
  grind [State.keep_mem, State.wf_releaseSuccessors, State.modNode_mem, State.rcNext_mem, State.modRc_mem, State.wf_rcExtern, State.wf_rcTrap, State.release_mem]

/-! ### Pre-emption -/

@[simp] theorem State.injectMarkers_mem (s : State) (lead : Nat) : (s.injectMarkers lead).mem = s.mem := by
  unfold State.injectMarkers
  grind [State.pushPort_mem, State.modRegion_mem, State.foldl_mem]

@[simp] theorem State.beginDrain_mem (s : State) (lead : Nat) : (s.beginDrain lead).mem = s.mem := by
  unfold State.beginDrain
  grind [State.modCore_mem, State.injectMarkers_mem, State.modRegion_mem, State.foldl_mem]

@[simp] theorem State.askDrain_mem (s : State) (lead : Nat) (capture later : Bool) : (s.askDrain lead capture later).mem = s.mem := by
  unfold State.askDrain
  grind [State.beginDrain_mem, State.modRegion_mem]

@[simp] theorem State.freeze_mem (s : State) (g : Region) : (s.freeze g).mem = s.mem := by
  unfold State.freeze
  split <;> rfl

@[simp] theorem State.runOn_mem (s : State) (lead : Nat) : (s.runOn lead).mem = s.mem := by
  unfold State.runOn
  grind [State.modCore_mem, State.modRc_mem, State.modRegion_mem, State.foldl_mem]

theorem State.wf_deadBarriers (s : State) (lead : Nat) (hw : Memory.wf s.mem = true) : Memory.wf (s.deadBarriers lead).mem = true := by
  unfold State.deadBarriers
  grind [Memory.wf_barWrite, State.wf_foldl]

@[simp] theorem State.retryRegion_mem (s : State) (lead : Nat) : (s.retryRegion lead).mem = s.mem := by
  unfold State.retryRegion
  grind [State.modCore_mem, State.foldl_mem]

theorem State.wf_killRegion (s : State) (g : Region) (hw : Memory.wf s.mem = true) : Memory.wf (s.killRegion g).mem = true := by
  unfold State.killRegion
  grind [State.loseNode_mem, State.reclaim_mem, State.modCore_mem, State.modNode_mem, State.modRc_mem, State.reclaimFrames_mem, State.endMembers_mem,
    State.wf_deadBarriers, State.modRegion_mem, State.wf_foldl]

@[simp] theorem State.postKillDone_mem (s : State) (g : Region) : (s.postKillDone g).mem = s.mem := rfl

@[simp] theorem State.finishKill_mem (s : State) (g : Region) : (s.finishKill g).mem = s.mem := by
  unfold State.finishKill
  grind [State.freeRegion_mem, State.postKillDone_mem, State.stopNode_mem]

/-! ### Token arrivals -/

theorem State.landing_mem (s : State) (k l x e : Nat) (tok : Token) (t : State) (he : s.landing k l x e = some (tok, t)) : t.mem = s.mem := by
  unfold State.landing at he
  grind [State.mem_modEdge]

theorem State.wf_noRoute (s : State) (k l : Nat) (t : Token) (hw : Memory.wf s.mem = true) : Memory.wf (s.noRoute k l t).mem = true := by
  unfold State.noRoute
  grind [State.wf_engineFault]

theorem State.wf_arrive (s : State) (k l x e : Nat) (kind : TKind) (hw : Memory.wf s.mem = true) : Memory.wf (s.arrive k l x e kind).mem = true := by
  unfold State.arrive
  grind [State.leave_mem, State.wf_noRoute, State.mem_modEdge, State.reach_mem, State.landing_mem]

@[simp] theorem State.extractArrive_mem (s : State) (k l x e : Nat) : (s.extractArrive k l x e).mem = s.mem := by
  unfold State.extractArrive
  grind [State.modRc_mem, State.landing_mem]

@[simp] theorem State.popPort_mem (s : State) (k l x p : Nat) : (s.popPort k l x p).mem = s.mem := by
  unfold State.popPort
  grind [State.modPort_mem]

@[simp] theorem State.setFrontier_mem (s : State) (lead fn : Nat) (f : List (Nat × Nat)) (iter : W16) : (s.setFrontier lead fn f iter).mem = s.mem := by
  unfold State.setFrontier
  grind [State.latch_mem, State.modRc_mem, State.queueAdvance_mem, State.foldl_mem]

@[simp] theorem State.takeEos_mem (s : State) (k l x p : Nat) (t : PortTok) : (s.takeEos k l x p t).mem = s.mem := by
  unfold State.takeEos
  grind [State.modPort_mem, State.popPort_mem, State.queueEos_mem, State.setFrontier_mem, State.foldl_mem]

@[simp] theorem State.fillSlot_mem (s : State) (k l x : Nat) (t : Token) : (s.fillSlot k l x t).mem = s.mem := by
  unfold State.fillSlot
  grind [State.infoFault_mem, State.modCtx_mem]

@[simp] theorem State.takeMark_mem (s : State) (k l x p : Nat) : (s.takeMark k l x p).mem = s.mem := by
  unfold State.takeMark
  grind [State.popPort_mem, State.fillSlot_mem]

@[simp] theorem State.takeFrontier_mem (s : State) (k l x p : Nat) : (s.takeFrontier k l x p).mem = s.mem := by
  unfold State.takeFrontier
  grind [State.popPort_mem, State.takeEos_mem, State.infoFault_mem, State.setFrontier_mem, State.fillSlot_mem]

@[simp] theorem State.enterWaiting_mem (s : State) (k l x e n : Nat) : (s.enterWaiting k l x e n).mem = s.mem := by
  induction n generalizing s with
  | zero => rfl
  | succ n ih => unfold State.enterWaiting; grind [State.enterChecked_mem, State.mem_modEdge]

@[simp] theorem State.enterEos_mem (s : State) (k l x e : Nat) (t : Token) : (s.enterEos k l x e t).mem = s.mem := by
  unfold State.enterEos
  grind [State.enterWaiting_mem, State.modCtx_mem, State.mem_modEdge]

@[simp] theorem State.enterAll_mem (s : State) (k l : Nat) : (s.enterAll k l).mem = s.mem := by
  unfold State.enterAll
  grind [State.enterWaiting_mem, State.foldl_mem]

@[simp] theorem State.forwardEos_mem (s : State) (k l x : Nat) : (s.forwardEos k l x).mem = s.mem := by
  unfold State.forwardEos
  grind [State.freeEos_mem, State.modCtx_mem, State.enterEos_mem, State.foldl_mem]

@[simp] theorem State.eosForward_mem (s : State) (k l x p : Nat) : (s.eosForward k l x p).mem = s.mem := by
  unfold State.eosForward
  grind [State.takeEos_mem, State.forwardEos_mem, State.enterAll_mem]

@[simp] theorem State.sinkEos_mem (s : State) (k l x p : Nat) : (s.sinkEos k l x p).mem = s.mem := by
  unfold State.sinkEos
  grind [State.takeEos_mem, State.modCtx_mem]

/-! ### Collectives of an RC -/

theorem State.wf_rcComm (s : State) (d a : Nat) (hw : Memory.wf s.mem = true) : Memory.wf (s.rcComm d a).mem = true := by
  unfold State.rcComm
  extract_lets k pt die
  refine State.wf_rcOrdered _ _ _ hw fun s hs => ?_
  split
  · exact State.wf_rcFault _ _ _ hs
  rename_i t b _ he
  have ht : Memory.wf t.mem = true := (State.load_noted he).2 ▸ hs
  extract_lets n
  split
  · exact State.wf_rcTrap _ _ ht
  refine State.wf_rcOrdered _ _ _ ht fun t ht => ?_
  split
  · exact State.wf_rcFault _ _ _ hs
  rename_i u tb _ he
  have hu : Memory.wf u.mem = true := (State.load_noted he).2 ▸ ht
  dsimp only
  split
  · exact State.wf_rcTrap _ _ hu
  split
  · exact State.wf_rcTrap _ _ hu
  split
  · exact State.wf_rcTrap _ _ hu
  split
  · exact State.wf_rcTrap _ _ hu
  · rw [State.rcPut_mem, State.tellAll_mem]; exact hu

@[simp] theorem State.modComm_mem (s : State) (die c : Nat) (f : Comm → Comm) : (s.modComm die c f).mem = s.mem := rfl

theorem State.wf_rcColl (s : State) (d a b op oper : Nat) (hw : Memory.wf s.mem = true) : Memory.wf (s.rcColl d a b op oper).mem = true := by
  unfold State.rcColl
  extract_lets k ch
  split
  · exact State.wf_rcTrap _ _ hw
  split
  · exact State.wf_rcTrap _ _ hw
  refine State.wf_rcOrdered _ _ _ hw fun s hs => ?_
  grind [State.wf_rcFault, State.load_mem, State.wf_rcTrap, State.release_mem, State.acquire_mem, State.modComm_mem, State.rcPut_mem]

theorem State.wf_rcCollStatus (s : State) (d a : Nat) (wait : Bool) (hw : Memory.wf s.mem = true) : Memory.wf (s.rcCollStatus d a wait).mem = true := by
  unfold State.rcCollStatus
  grind [State.rcPut_mem, State.wf_rcTake, State.wf_rcTrap]

theorem State.wf_rcCsel (s : State) (a b : Nat) (hw : Memory.wf s.mem = true) : Memory.wf (s.rcCsel a b).mem = true := by
  unfold State.rcCsel
  grind [State.modComm_mem, State.rcNext_mem, State.wf_rcTrap]

/-! ### Collective events -/

@[simp] theorem State.modColl_mem (s : State) (k slot h : Nat) (f : Coll → Coll) : (s.modColl k slot h f).mem = s.mem := rfl

@[simp] theorem State.endColl_mem (s : State) (k slot h status : Nat) : (s.endColl k slot h status).mem = s.mem := rfl

@[simp] theorem State.failColls_mem (s : State) (k slot sev cause status : Nat) (hs : List Nat) : (s.failColls k slot sev cause status hs).mem = s.mem := by
  unfold State.failColls
  grind [State.postFault_mem, State.modColl_mem, State.foldl_mem]

@[simp] theorem State.formComm_mem (s : State) (k slot : Nat) : (s.formComm k slot).mem = s.mem := by
  unfold State.formComm
  grind [State.modComm_mem]

@[simp] theorem State.breakComm_mem (s : State) (k slot : Nat) : (s.breakComm k slot).mem = s.mem := by
  unfold State.breakComm
  grind [State.endColl_mem, State.modComm_mem, State.tellAll_mem, State.foldl_mem]

@[simp] theorem State.readSource_mem (s : State) (k : Nat) (q : Coll) : (s.readSource k q).1.mem = s.mem := by
  unfold State.readSource
  grind [State.load_mem]

@[simp] theorem State.withSource_mem (s : State) (k slot : Nat) (c : Comm) (q : Coll) : (s.withSource k slot c q).1.mem = s.mem := by
  unfold State.withSource
  grind [State.modColl_mem, State.readSource_mem]

theorem State.wf_collFault (s : State) (k : Nat) (f : Fail) (hw : Memory.wf s.mem = true) : Memory.wf (s.collFault k f).mem = true := by
  unfold State.collFault
  grind [State.wf_engineFault]

@[simp] theorem State.startChunk_mem (s : State) (die slot port : Nat) (c : Comm) (q : Coll) (i : Nat) : (s.startChunk die slot port c q i).mem = s.mem := by
  unfold State.startChunk
  grind [State.post_mem, State.sendColl_mem, State.modColl_mem, State.free_mem, State.modDie_mem]

@[simp] theorem State.chunkStarts_mem (s : State) (die port : Nat) : (s.chunkStarts die port).mem = s.mem := by
  unfold State.chunkStarts
  grind [State.startChunk_mem]

@[simp] theorem State.takeLanes_mem (s : State) (k slot : Nat) (c : Comm) (q : Coll) (l : List (Nat × List Reg)) : (s.takeLanes k slot c q l).mem = s.mem := rfl

theorem State.wf_engineStore (s : State) (k addr : Nat) (b : List Byte) (hw : Memory.wf s.mem = true) : Memory.wf (s.engineStore k addr b).1.mem = true := by
  unfold State.engineStore
  grind [State.wf_store]

theorem State.wf_stageResult (s : State) (k slot : Nat) (c : Comm) (q : Coll) (hw : Memory.wf s.mem = true) : Memory.wf (s.stageResult k slot c q).mem = true := by
  unfold State.stageResult
  grind [State.modColl_mem, State.modCore_mem, State.wf_collFault, State.tell_mem, State.wf_engineStore, State.release_mem]

@[simp] theorem State.clash_mem (s : State) (c : Comm) (q : Coll) : (s.clash c q).mem = s.mem := by
  unfold State.clash
  grind [State.failColls_mem, State.foldl_mem]

theorem State.wf_chunkCombines (s : State) (k slot h : Nat) (differ : Bool) (l : List (Nat × List Reg)) (hw : Memory.wf s.mem = true) :
    Memory.wf (s.chunkCombines k slot h differ l).mem = true := by
  unfold State.chunkCombines
  split
  · exact hw
  split
  · exact hw
  split
  · exact hw
  split
  · rw [State.clash_mem]; exact hw
  split
  · exact hw
  split
  · grind [State.withSource_mem, State.wf_collFault]
  extract_lets s1 q ranks here
  have h1 : Memory.wf s1.mem = true := (s.takeLanes_mem _ _ _ _ _).symm ▸ hw
  clear_value s1
  grind [State.modCore_mem, State.modColl_mem, State.wf_stageResult]

@[simp] theorem State.slotTimeout_mem (s : State) (k : Nat) : (s.slotTimeout k).mem = s.mem := by
  unfold State.slotTimeout
  grind [State.modCore_mem]

@[simp] theorem State.doneNotice_mem (s : State) (k slot h r : Nat) : (s.doneNotice k slot h r).mem = s.mem := by
  unfold State.doneNotice
  grind [State.modColl_mem, State.tellAll_mem]

@[simp] theorem State.destPoison_mem (s : State) (k : Nat) (o : Option Nat) : (s.destPoison k o).mem = s.mem := by
  unfold State.destPoison
  split <;> rfl

@[simp] theorem State.shareClr_mem (s : State) (c : Comm) (index : Nat) (clr : Clr) : (s.shareClr c index clr).mem = s.mem := by
  unfold State.shareClr
  grind [State.modComm_mem, State.foldl_mem]

theorem State.wf_copyResult (s : State) (k slot h : Nat) (c : Comm) (q : Coll) (clr : Clr) (hw : Memory.wf s.mem = true) :
    Memory.wf (s.copyResult k slot h c q clr).mem = true := by
  unfold State.copyResult
  grind [State.endColl_mem, State.load_mem, State.wf_collFault, State.destPoison_mem, State.wf_engineStore, State.release_mem, State.shareClr_mem]

theorem State.wf_commits (s : State) (k slot h : Nat) (hw : Memory.wf s.mem = true) : Memory.wf (s.commits k slot h).mem = true := by
  unfold State.commits
  grind [State.wf_copyResult]

theorem State.wf_memberLost (s : State) (k slot : Nat) (found : Bool) (hw : Memory.wf s.mem = true) : Memory.wf (s.memberLost k slot found).mem = true := by
  unfold State.memberLost
  grind [State.modComm_mem, State.wf_collFault, State.failColls_mem, State.wf_engineStore]

theorem State.routed_mem {s : State} {t : Token} {v n die : Nat} {u : State} (he : s.routed t v n die = some u) : u.mem = s.mem := by
  induction n generalizing s die with
  | zero => unfold State.routed at he; grind
  | succ n ih => unfold State.routed at he; grind [State.sendColl_mem, State.modDie_mem]

theorem State.wf_routerStep (s : State) (die v : Nat) (own : Bool) (k l x e : Nat) (hw : Memory.wf s.mem = true) :
    Memory.wf (s.routerStep die v own k l x e).mem = true := by
  unfold State.routerStep
  split
  · split
    · exact hw
    split
    · rw [State.routed_mem ‹_›]; exact hw
    · exact hw
  split
  · have h1 := State.landing_mem _ _ _ _ _ _ _ ‹_›
    dsimp only
    split
    · split
      · rw [State.routed_mem ‹_›, h1]; exact hw
      · exact State.wf_engineFault _ _ _ _ _ _ (by rw [h1]; exact hw)
    · exact hw
  · exact hw

/-! ### Copy events -/

theorem State.wf_noticeArrives (s : State) (k : Nat) (hw : Memory.wf s.mem = true) : Memory.wf (s.noticeArrives k).mem = true := by
  unfold State.noticeArrives
  grind [State.wf_joinSlot, State.modCore_mem, State.wf_ringReserve]

theorem State.wf_takeOut (s : State) (k i : Nat) (hw : Memory.wf s.mem = true) : Memory.wf (s.takeOut k i).mem = true := by
  unfold State.takeOut
  grind [State.wf_joinSlot, State.wf_ringTake]

theorem State.wf_performRemote (s : State) (r : RemoteReq) (hw : Memory.wf s.mem = true) : Memory.wf (s.performRemote r).1.mem = true := by
  unfold State.performRemote
  grind [State.wf_storeAt, State.wf_atomicAt, State.loadAt_mem]

theorem State.wf_remoteFault (s : State) (r : RemoteReq) (f : Fail) (hw : Memory.wf s.mem = true) : Memory.wf (s.remoteFault r f).mem = true := by
  unfold State.remoteFault
  grind [State.wf_rcFault, State.infoFault_mem, State.wf_engineFault]

@[simp] theorem State.settled_mem (s : State) (r : RemoteReq) : (s.settled r).mem = s.mem := by
  unfold State.settled
  split <;> rfl

@[simp] theorem State.answer_mem (s : State) (r : RemoteReq) : (s.answer r).mem = s.mem := by
  unfold State.answer
  grind [State.leave_mem]

theorem State.wf_remoteArrives (s : State) (n : Nat) (hw : Memory.wf s.mem = true) : Memory.wf (s.remoteArrives n).mem = true := by
  unfold State.remoteArrives
  grind [State.answer_mem, State.settled_mem, State.wf_performRemote, State.wf_remoteFault]

@[simp] theorem State.orderReply_mem (s : State) (k h : Nat) (r : RemoteReq) : (s.orderReply k h r).1.mem = s.mem := by
  unfold State.orderReply
  grind [State.acquire_mem, State.setOrd_mem]

theorem State.wf_storeCompletes (s : State) (n : Nat) (hw : Memory.wf s.mem = true) : Memory.wf (s.storeCompletes n).mem = true := by
  unfold State.storeCompletes
  grind [State.settled_mem, State.orderReply_mem, State.wf_engineFault, State.wf_drain, State.wf_remoteFault]

theorem State.wf_replyArrives (s : State) (n : Nat) (hw : Memory.wf s.mem = true) : Memory.wf (s.replyArrives n).mem = true := by
  unfold State.replyArrives
  grind [State.settled_mem, State.wf_rcFault, State.orderReply_mem, State.modRc_mem]

/-! ### Task events -/

theorem State.wf_taskAdmit (s : State) (k l : Nat) (hw : Memory.wf s.mem = true) : Memory.wf (s.taskAdmit k l).mem = true := by
  unfold State.taskAdmit
  grind [State.wf_admitCand, State.gather_mem]

theorem State.wf_taskDispatch (s : State) (k l : Nat) (hw : Memory.wf s.mem = true) : Memory.wf (s.taskDispatch k l).mem = true := by
  unfold State.taskDispatch
  grind [State.wf_dispatch]

@[simp] theorem State.release1_mem (s : State) (k l x : Nat) (x0 : Staged) : (s.release1 k l x x0).mem = s.mem := by
  unfold State.release1
  grind [State.modIsle_mem, State.dropFrame_mem, State.setFrame_mem, State.giveReturn_mem, State.mem_modEdge, State.enter_mem, State.enterEos_mem]

@[simp] theorem State.releaseAll_mem (s : State) (k l x : Nat) (gs : List Staged) (b : List (Nat × Nat)) : (s.releaseAll k l x gs b).1.mem = s.mem := by
  induction gs generalizing s b with
  | nil => rfl
  | cons g r ih => unfold State.releaseAll; grind [State.release1_mem]

theorem State.wf_leaveTask (s : State) (k l : Nat) (t : Task) (hw : Memory.wf s.mem = true) : Memory.wf (s.leaveTask k l t).mem = true := by
  unfold State.leaveTask
  grind [State.dropFrame_mem, State.ringTouch_mem, State.cellRelease_mem, State.wf_ringPublish, State.mem_modEdge, State.wf_engineFault]

theorem State.wf_releaseTasks (s : State) (k l : Nat) (ts : List Task) (b : List (Nat × Nat)) (hw : Memory.wf s.mem = true) :
    Memory.wf (s.releaseTasks k l ts b).1.mem = true := by
  induction ts generalizing s b with
  | nil => exact hw
  | cons t r ih => unfold State.releaseTasks; grind [State.releaseAll_mem, State.wf_leaveTask]

theorem State.wf_releaseStaged (s : State) (k l : Nat) (hw : Memory.wf s.mem = true) : Memory.wf (s.releaseStaged k l).mem = true := by
  unfold State.releaseStaged
  grind [State.modCell_mem, State.wf_releaseTasks, State.enterAll_mem]

@[simp] theorem State.returnArrives_mem (s : State) (isle n : Nat) : (s.returnArrives isle n).mem = s.mem := by
  unfold State.returnArrives
  grind [State.modIsle_mem, State.giveReturn_mem, State.enterChecked_mem]

theorem State.wf_ordArrives (s : State) (k l n : Nat) (hw : Memory.wf s.mem = true) : Memory.wf (s.ordArrives k l n).mem = true := by
  unfold State.ordArrives
  grind [State.modCell_mem, State.wf_engineFault, State.wf_drain]

theorem State.wf_voidFreeAt (s : State) (k r : Nat) (hw : Memory.wf s.mem = true) : Memory.wf (s.voidFreeAt k r).mem = true := by
  unfold State.voidFreeAt
  grind [State.wf_voidFree]

@[simp] theorem State.readImage_mem (s : State) (k pt va : Nat) : (s.readImage k pt va).1.mem = s.mem := by
  unfold State.readImage
  grind [State.readVA_mem]

theorem State.wf_applyLoad (s : State) (k : Nat) (hw : Memory.wf s.mem = true) : Memory.wf (s.applyLoad k).mem = true := by
  unfold State.applyLoad
  grind [State.postFault_mem, State.wf_rcFault, State.wf_configure, State.injectMarkers_mem, State.modRc_mem, State.readImage_mem]

@[simp] theorem State.dropHeld_mem (s : State) (lead : Nat) : (s.dropHeld lead).mem = s.mem := by
  unfold State.dropHeld
  grind [State.modCell_mem, State.foldl_mem]

theorem State.wf_completePhase (s : State) (k : Nat) (hw : Memory.wf s.mem = true) : Memory.wf (s.completePhase k).mem = true := by
  unfold State.completePhase
  grind [State.wf_finishPhase, State.freeRegion_mem, State.wf_releaseStaged, State.dropHeld_mem, State.infoFault_mem, State.stopNode_mem, State.wf_foldl]

/-! ### Streams, loads and phases -/

@[simp] theorem State.genLoad_mem (s : State) (k l : Nat) (f : Fmt) (x : SpecRec) (a : Int) : (s.genLoad k l f x a).1.mem = s.mem := by
  unfold State.genLoad
  grind [State.load_mem, State.foldl_fst_mem]

@[simp] theorem State.blockScaleAt_mem (s : State) (k pt : Nat) (sh : Option Shape) (block : Nat) : (s.blockScaleAt k pt sh block).1.mem = s.mem := by
  unfold State.blockScaleAt
  grind [State.readVA_mem]

@[simp] theorem State.genGather_mem (s : State) (k l : Nat) (f : Fmt) (x : SpecRec) (a : Int) : (s.genGather k l f x a).1.mem = s.mem := by
  unfold State.genGather
  extract_lets n
  have hs := s.shapeOf_mem k (agentId k l) n x.num
  split
  · rename_i t c he; rw [he] at hs; exact hs
  rename_i t sh he
  rw [he] at hs
  split
  · exact hs
  refine (State.foldl_fst_mem (fun p i => ?_) _ _).trans hs
  obtain ⟨u, e | rs⟩ := p
  · rfl
  · grind [State.readOp_mem, State.blockScaleAt_mem]

theorem State.wf_genRing (s : State) (k l : Nat) (f : Fmt) (x : SpecRec) (t : Points) (hw : Memory.wf s.mem = true) (he : s.genRing k l f x = some t) : Memory.wf t.1.mem = true := by
  unfold State.genRing at he
  extract_lets lead at he
  split at he
  · cases he
  rename_i slot s1 hr
  have h1 : Memory.wf s1.mem = true := State.wf_ringTake _ _ _ _ _ hw hr
  cases he
  split
  · exact hw
  rename_i u _ hu
  have h2 : Memory.wf u.mem = true := by grind [State.ringTouch_mem, State.acquire_mem]
  split
  · rename_i v e hv
    refine (congrArg (fun q : Points => Memory.wf q.1.mem) hv).symm.trans (State.wf_foldl_fst (fun q i hq => ?_) _ h2)
    obtain ⟨w, e | rs⟩ := q
    · exact hq
    · grind [State.loadAt_mem]
  · rename_i v rs hv
    have h3 : Memory.wf v.mem = true := by
      refine (congrArg (fun q : Points => Memory.wf q.1.mem) hv).symm.trans (State.wf_foldl_fst (fun q i hq => ?_) _ h2)
      obtain ⟨w, e | rs⟩ := q
      · exact hq
      · grind [State.loadAt_mem]
    exact State.wf_ringFree _ _ _ _ _ ((congrArg Memory.wf (State.cellRelease_mem _ _ _)).trans h3)

theorem State.wf_genZero (s : State) (k l : Nat) (x : SpecRec) (a : Int) (hw : Memory.wf s.mem = true) : Memory.wf (s.genZero k l x a).1.mem = true := by
  unfold State.genZero
  grind [State.wf_store, State.wf_foldl_fst]

theorem State.wf_genPoint (s : State) (k l p : Nat) (x : SpecRec) (t : Points) (hw : Memory.wf s.mem = true) (he : s.genPoint k l p x = some t) : Memory.wf t.1.mem = true := by
  unfold State.genPoint at he
  grind [State.genGather_mem, State.genLoad_mem, State.wf_genRing, State.wf_genZero]

@[simp] theorem State.issue_mem (s : State) (k l p : Nat) (x : SpecRec) (rs : List Reg) : (s.issue k l p x rs).mem = s.mem := by
  unfold State.issue
  grind [State.pushPort_mem, State.foldl_mem]

theorem State.wf_genFail (s : State) (k l : Nat) (e : Fail) (hw : Memory.wf s.mem = true) : Memory.wf (s.genFail k l e).mem = true := by
  unfold State.genFail
  grind [State.postFault_mem, State.modCell_mem, State.wf_engineFault]

theorem State.wf_generate (s : State) (k l : Nat) (hw : Memory.wf s.mem = true) : Memory.wf (s.generate k l).mem = true := by
  unfold State.generate
  extract_lets g lead
  split
  · split
    · exact hw
    split
    · rw [State.reach_mem]; exact hw
    split
    · exact hw
    split
    · exact hw
    · rw [State.modCell_mem, State.issue_mem]; exact State.wf_genPoint _ _ _ _ _ _ hw ‹_›
    · exact State.wf_genFail _ _ _ _ (State.wf_genPoint _ _ _ _ _ _ hw ‹_›)
  · exact hw

theorem State.wf_barcPoint (s : State) (k n : Nat) (hw : Memory.wf s.mem = true) : Memory.wf (s.barcPoint k n).mem = true := by
  unfold State.barcPoint
  grind [State.modCell_mem, State.barcMerge_mem, State.modRc_mem, State.wf_engineFault, State.wf_foldl]

end Sys2Proof.Machine
end

section
/-! What the privileged instructions and the events of nodes, links, power and records leave of memory (R259 to R267, R305 to R376). -/

namespace Sys2Proof.Machine
set_option Elab.async false -- one proof after the other, to bound memory

/-! ### Event queues and partitions -/

theorem State.wf_rcMtp (s : State) (a b n : Nat) (hw : Memory.wf s.mem = true) : Memory.wf (s.rcMtp a b n).mem = true := by
  unfold State.rcMtp
  grind [State.wf_srSet, State.rcNext_mem, State.wf_rcTrap]

theorem State.wf_rcMfp (s : State) (d a n : Nat) (hw : Memory.wf s.mem = true) : Memory.wf (s.rcMfp d a n).mem = true := by
  unfold State.rcMfp
  grind [State.rcPut_mem, State.wf_rcTrap]

theorem State.wf_rcRets (s : State) (a b : Nat) (hw : Memory.wf s.mem = true) : Memory.wf (s.rcRets a b).mem = true := by
  unfold State.rcRets
  grind [State.rcNext_mem, State.modRc_mem, State.wf_rcTrap]

theorem State.wf_rcTlbi (s : State) (lo n : Nat) (hw : Memory.wf s.mem = true) : Memory.wf (s.rcTlbi lo n).mem = true := by
  unfold State.rcTlbi
  grind [State.dropTranslations_mem, State.rcNext_mem, State.wf_retryHeld]

theorem State.wf_rcTlbiRange (s : State) (a b : Nat) (hw : Memory.wf s.mem = true) : Memory.wf (s.rcTlbiRange a b).mem = true := by
  unfold State.rcTlbiRange
  grind [State.wf_rcTlbi, State.wf_rcTrap]

@[simp] theorem State.killSaved_mem (s : State) (v : Saved) : (s.killSaved v).mem = s.mem := by
  unfold State.killSaved
  grind [State.postKillDone_mem, State.stopNode_mem]

theorem State.wf_rcKill (s : State) (a : Nat) (hw : Memory.wf s.mem = true) : Memory.wf (s.rcKill a).mem = true := by
  unfold State.rcKill
  grind [State.rcNext_mem, State.wf_killRegion, State.wf_rcTrap, State.killSaved_mem]

theorem State.wf_killPart (s : State) (pt : Nat) (hw : Memory.wf s.mem = true) : Memory.wf (s.killPart pt).mem = true := by
  unfold State.killPart
  grind [State.wf_killRegion, State.killSaved_mem, State.wf_foldl]

theorem State.wf_rcKillPart (s : State) (hw : Memory.wf s.mem = true) : Memory.wf s.rcKillPart.mem = true := by
  unfold State.rcKillPart
  grind [State.rcNext_mem, State.wf_killPart]

theorem State.wf_rcPrmt (s : State) (a : Nat) (hw : Memory.wf s.mem = true) : Memory.wf (s.rcPrmt a).mem = true := by
  unfold State.rcPrmt
  grind [State.rcNext_mem, State.askDrain_mem, State.wf_rcTrap]

@[simp] theorem State.rcPrmtPart_mem (s : State) : s.rcPrmtPart.mem = s.mem := by
  unfold State.rcPrmtPart
  grind [State.rcNext_mem, State.askDrain_mem, State.foldl_mem]

@[simp] theorem State.modQueue_mem (s : State) (q : Nat) (f : Queue → Queue) : (s.modQueue q f).mem = s.mem := by
  unfold State.modQueue
  split <;> rfl

theorem State.wf_poke (s : State) (k h off : Nat) (bytes : List Byte) (hw : Memory.wf s.mem = true) : Memory.wf (s.poke k h off bytes).mem = true := by
  unfold State.poke
  grind [Memory.wf_writeN]

theorem State.wf_setQueueWord (s : State) (q : Queue) (i v : Nat) (hw : Memory.wf s.mem = true) : Memory.wf (s.setQueueWord q i v).mem = true := by
  unfold State.setQueueWord
  grind [State.wf_poke]

theorem State.wf_copyShown (s : State) (k seq : Nat) (hw : Memory.wf s.mem = true) : Memory.wf (s.copyShown k seq).mem = true := by
  unfold State.copyShown
  grind [State.modCore_mem, Memory.wf_barWrite, State.wf_foldl]

@[simp] theorem State.collShown_mem (s : State) (k seq : Nat) : (s.collShown k seq).mem = s.mem := by
  unfold State.collShown
  grind [State.latch_mem, State.modDie_mem]

theorem State.wf_shown (s : State) (e : EvRec) (hw : Memory.wf s.mem = true) : Memory.wf (s.shown e).mem = true := by
  unfold State.shown
  grind [State.wf_copyShown, State.collShown_mem]

theorem State.wf_putRecord (s : State) (q : Queue) (e : EvRec) (hw : Memory.wf s.mem = true) : Memory.wf (s.putRecord q e).mem = true := by
  unfold State.putRecord
  grind [State.wf_shown, State.wf_setQueueWord, State.wf_poke]

theorem State.wf_rcEvtq (s : State) (a b : Nat) (hw : Memory.wf s.mem = true) : Memory.wf (s.rcEvtq a b).mem = true := by
  unfold State.rcEvtq
  grind [State.wf_rcFault, State.rcNext_mem, State.wf_setQueueWord, State.wf_poke, State.modQueue_mem, State.wf_rcTrap, State.wf_putRecord, State.wf_foldl]

@[simp] theorem State.rcEvtqWait_mem (s : State) (d : Nat) : (s.rcEvtqWait d).mem = s.mem := by
  unfold State.rcEvtqWait
  grind [State.rcPut_mem]

/-! ### Saved contexts -/

@[simp] theorem State.imageOf_mem (s : State) (g : Region) : (s.imageOf g).2.mem = s.mem := rfl

@[simp] theorem State.vacate_mem (s : State) (g : Region) : (s.vacate g).mem = s.mem := by
  unfold State.vacate
  grind [State.modCore_mem, State.freeRegion_mem, State.reclaimFrames_mem, State.foldl_mem]

theorem State.wf_rcCtxs (s : State) (d a b : Nat) (hw : Memory.wf s.mem = true) : Memory.wf (s.rcCtxs d a b).mem = true := by
  unfold State.rcCtxs
  grind [State.rcPut_mem, State.keep_mem, State.wf_rcExtern, State.wf_writeVA, State.imageOf_mem, State.vacate_mem, State.wf_rcTrap]

@[simp] theorem State.imageAmong_mem (s : State) (k pt va : Nat) {bad : Option (State × (Nat × Nat))} (vs : List Saved) (hb : ∀ b, bad = some b → b.1.mem = s.mem) :
    (s.imageAmong k pt va bad vs).1.mem = s.mem := by
  induction vs generalizing s bad with
  | nil => unfold State.imageAmong; grind
  | cons v r ih => unfold State.imageAmong; cases bad <;> grind [State.readVA_mem]

@[simp] theorem State.findImage_mem (s : State) (k pt va : Nat) : (s.findImage k pt va).1.mem = s.mem := by
  unfold State.findImage
  grind [State.imageAmong_mem]

theorem State.wf_restore (s : State) (v : Saved) (lead : Nat) (hw : Memory.wf s.mem = true) : Memory.wf (s.restore v lead).mem = true := by
  unfold State.restore
  grind [State.modIsle_mem, State.modCore_mem, State.modRc_mem, State.setCore_mem, Memory.wf_restoreStores, Memory.wf_moveIds, State.wf_foldl]

theorem State.wf_rcCtxr (s : State) (d a b : Nat) (hw : Memory.wf s.mem = true) : Memory.wf (s.rcCtxr d a b).mem = true := by
  unfold State.rcCtxr
  grind [State.findImage_mem, State.rcPut_mem, State.runOn_mem, State.wf_restore, State.retryRegion_mem, State.wf_rcExtern, State.wf_rcTrap]

/-! ### Creating partitions -/

theorem State.wf_clearIsles (s : State) (mask pt : Nat) (hw : Memory.wf s.mem = true) : Memory.wf (s.clearIsles mask pt).mem = true := by
  exact Memory.wf_filter hw _

@[simp] theorem State.dropNodes_mem (s : State) (pt : Nat) : (s.dropNodes pt).mem = s.mem := by
  unfold State.dropNodes
  grind [State.leavePool_mem, State.foldl_mem]

theorem State.wf_createPart (s : State) (n : Nat) (p : Part) (t : State) (hw : Memory.wf s.mem = true) (he : s.createPart n p = .ok t) : Memory.wf t.mem = true := by
  unfold State.createPart at he
  extract_lets img sup s1 s2 g at he
  have h2 : Memory.wf s2.mem = true := by
    show Memory.wf ((s.clearIsles _ n).dropNodes n).mem = true
    rw [State.dropNodes_mem]; exact State.wf_clearIsles _ _ _ hw
  split at he
  · cases he
  · rename_i u hu
    cases he
    exact Memory.wf_writeN (State.wf_configure _ _ _ _ h2 hu) _ _

theorem State.wf_rcPartCreate (s : State) (d a b : Nat) (hw : Memory.wf s.mem = true) : Memory.wf (s.rcPartCreate d a b).mem = true := by
  unfold State.rcPartCreate
  grind [State.rcPut_mem, State.wf_rcFault, State.wf_createPart]

theorem State.wf_rcPartDestroy (s : State) (d a : Nat) (hw : Memory.wf s.mem = true) : Memory.wf (s.rcPartDestroy d a).mem = true := by
  unfold State.rcPartDestroy
  grind [State.wf_clearIsles, State.rcPut_mem, State.dropNodes_mem, State.wf_rcTrap]

theorem State.wf_rcPartRead (s : State) (d a b : Nat) (hw : Memory.wf s.mem = true) : Memory.wf (s.rcPartRead d a b).mem = true := by
  unfold State.rcPartRead
  grind [State.rcPut_mem, State.wf_physWrite, State.wf_rcTrap]

theorem State.wf_endMigr (s : State) (pt : Nat) (g : Migr) (hw : Memory.wf s.mem = true) : Memory.wf (s.endMigr pt g).mem = true := by
  unfold State.endMigr
  grind [State.dropTranslations_mem, State.wf_retryHeld, State.modPart_mem]

theorem State.wf_rcMigr (s : State) (d a b : Nat) (hw : Memory.wf s.mem = true) : Memory.wf (s.rcMigr d a b).mem = true := by
  unfold State.rcMigr
  grind [State.rcPut_mem, State.wf_rcFault, State.wf_endMigr, State.dropTranslations_mem, State.wf_poke, State.modPart_mem, State.wf_copyPage]

theorem State.wf_scrubFrom (s : State) (k pt tile n : Nat) (hw : Memory.wf s.mem = true) : Memory.wf (s.scrubFrom k pt tile n).1.mem = true := by
  induction n generalizing s tile with
  | zero => exact hw
  | succ n ih => unfold State.scrubFrom; grind [State.translate_mem, State.wf_seal, State.postRc_mem]

theorem State.wf_rcScrub (s : State) (d a b : Nat) (hw : Memory.wf s.mem = true) : Memory.wf (s.rcScrub d a b).mem = true := by
  unfold State.rcScrub
  grind [State.rcPut_mem, State.wf_rcFault, State.wf_scrubFrom]

/-! ### Keys and attestation -/

theorem State.loadKey_mem (s : State) (i : Nat) (b : List Byte) (t : State) (he : s.loadKey i b = .ok t) : t.mem = s.mem := by
  unfold State.loadKey at he
  grind

theorem State.wf_rcSealk (s : State) (d a b : Nat) (hw : Memory.wf s.mem = true) : Memory.wf (s.rcSealk d a b).mem = true := by
  unfold State.rcSealk
  grind [State.rcPut_mem, State.loadKey_mem, State.wf_rcTrap]

@[simp] theorem State.uncacheLoad_mem (s : State) (load : Nat) : (s.uncacheLoad load).mem = s.mem := rfl

theorem State.wf_rcSealkRet (s : State) (a : Nat) (hw : Memory.wf s.mem = true) : Memory.wf (s.rcSealkRet a).mem = true := by
  unfold State.rcSealkRet
  grind [State.rcNext_mem, State.uncacheLoad_mem, State.wf_rcTrap]

theorem State.wf_rcSealkCur (s : State) (a : Nat) (hw : Memory.wf s.mem = true) : Memory.wf (s.rcSealkCur a).mem = true := by
  unfold State.rcSealkCur
  grind [State.rcNext_mem, State.wf_rcTrap]

theorem State.wf_rcAttest (s : State) (d a b : Nat) (hw : Memory.wf s.mem = true) : Memory.wf (s.rcAttest d a b).mem = true := by
  unfold State.rcAttest
  grind [State.rcPut_mem, State.free_mem, State.wf_physWrite, State.wf_rcTrap]

theorem State.wf_rcAttestAcc (s : State) (a b : Nat) (hw : Memory.wf s.mem = true) : Memory.wf (s.rcAttestAcc a b).mem = true := by
  unfold State.rcAttestAcc
  grind [State.rcNext_mem, State.wf_rcTrap]

theorem State.wf_rcAttestClose (s : State) (a : Nat) (hw : Memory.wf s.mem = true) : Memory.wf (s.rcAttestClose a).mem = true := by
  unfold State.rcAttestClose
  grind [State.rcNext_mem, State.wf_rcTrap]

/-! ### Checkpoints -/

@[simp] theorem State.registerBuf_mem (s : State) (k pt h : Nat) : (s.registerBuf k pt h).1.mem = s.mem := by
  unfold State.registerBuf
  grind [State.readVA_mem, State.modPart_mem]

@[simp] theorem State.readMap_mem (s : State) (k pt start n : Nat) (map : Assoc Nat) : (s.readMap k pt start n map).1.mem = s.mem := by
  unfold State.readMap
  grind [State.readTiles_mem]

@[simp] theorem State.readCounted_mem (s : State) (k pt va : Nat) (len : List Byte → Nat) : (s.readCounted k pt va len).1.mem = s.mem := by
  unfold State.readCounted
  grind [State.readVA_mem]

@[simp] theorem State.snapshots_mem (s : State) (k pt : Nat) (hs : List Nat) : (s.snapshots k pt hs).1.mem = s.mem := by
  unfold State.snapshots
  grind [State.registerBuf_mem, State.foldl_fst_mem]

@[simp] theorem State.capture_mem (s : State) (pt : Nat) (hs : List Nat) : (s.capture pt hs).mem = s.mem := by
  unfold State.capture
  grind [State.askDrain_mem, State.foldl_mem]

@[simp] theorem State.takeImage_mem (s : State) (pt h : Nat) : (s.takeImage pt h).1.mem = s.mem := by
  unfold State.takeImage
  grind [State.runOn_mem, State.retryRegion_mem, State.imageOf_mem]

theorem State.wf_writeCkpt (s : State) (k pt : Nat) (b : List Byte) (c : Ckpt) (hw : Memory.wf s.mem = true) : Memory.wf (s.writeCkpt k pt b c).state.mem = true := by
  unfold State.writeCkpt
  extract_lets area entries tensors
  have ht : tensors.1.mem = s.mem := State.foldl_fst_mem (fun p x => by grind [State.readMap_mem]) _ _
  clear_value tensors
  split
  · exact ht ▸ hw
  dsimp only
  split
  · rename_i u x he
    refine (congrArg (fun q : State × Except (Nat × Nat) Unit => Memory.wf q.1.mem) he).symm.trans (State.wf_foldl_fst (fun q e hq => ?_) _ (ht ▸ hw))
    grind [State.wf_writeVA]
  · rename_i u x he
    have hu : Memory.wf u.mem = true := by
      refine (congrArg (fun q : State × Except (Nat × Nat) Unit => Memory.wf q.1.mem) he).symm.trans (State.wf_foldl_fst (fun q e hq => ?_) _ (ht ▸ hw))
      grind [State.wf_writeVA]
    have hv := fun a b => State.wf_writeVA u k pt a b hu
    split
    · rename_i v x he
      exact hu
    · rename_i v x he
      exact (congrArg (fun q : State × Except (Nat × Nat) Unit => Memory.wf q.1.mem) he).symm.trans (hv _ _)

@[simp] theorem State.abandonCapture_mem (s : State) (pt : Nat) (hs : List Nat) : (s.abandonCapture pt hs).mem = s.mem := by
  unfold State.abandonCapture
  grind [State.runOn_mem, State.foldl_mem]

@[simp] theorem State.endCkpt_mem (s : State) (pt : Nat) : (s.endCkpt pt).mem = s.mem := by
  unfold State.endCkpt
  grind [State.reclaim_mem, State.modPart_mem]

@[simp] theorem State.failCkpt_mem (s : State) (pt : Nat) (core : Option Nat) (node : Nat) (x : Nat × Nat) : (s.failCkpt pt core node x).state.mem = s.mem := by
  unfold State.failCkpt
  grind [State.endCkpt_mem, State.abandonCapture_mem, CkptStep.state]

theorem State.wf_ckptStep (s : State) (k pt va : Nat) (core : Option Nat) (node : Nat) (hw : Memory.wf s.mem = true) :
    Memory.wf (s.ckptStep k pt va core node).state.mem = true := by
  unfold State.ckptStep
  have h1 := s.readCounted_mem k pt va ckptBytes
  split
  · rename_i t x he
    rw [he] at h1
    exact (congrArg Memory.wf ((t.failCkpt_mem _ _ _ _).trans h1)).trans hw
  rename_i t b he
  rw [he] at h1
  have ht : Memory.wf t.mem = true := h1 ▸ hw
  clear h1 he
  split
  · have h2 := fun hs => t.snapshots_mem k pt hs
    split
    · rename_i u x he
      exact (congrArg Memory.wf ((congrArg (fun q => q.1.mem) he).symm.trans (h2 _))).trans ht
    · rename_i u snaps sizes he
      have hu : Memory.wf u.mem = true := (congrArg Memory.wf ((congrArg (fun q => q.1.mem) he).symm.trans (h2 _))).trans ht
      split
      · exact hu
      · exact (congrArg Memory.wf (State.capture_mem _ _ _)).trans hu
  rename_i c hc
  split
  · grind [State.abandonCapture_mem, State.endCkpt_mem, CkptStep.state]
  split
  · extract_lets r now c'
    have hr : r.1.mem = t.mem := State.foldl_fst_mem (f := fun (acc : State × List (Nat × Nat × List Byte)) h => ((acc.1.takeImage pt h).1, acc.2 ++ (acc.1.takeImage pt h).2))
      (fun p x => p.1.takeImage_mem _ _) _ _
    clear_value r
    split
    · grind [State.capture_mem, State.modPart_mem, CkptStep.state]
    · have hk := State.wf_writeCkpt r.1 k pt b c' (hr ▸ ht)
      split
      · rename_i u n he
        rw [he] at hk
        exact (congrArg Memory.wf (State.endCkpt_mem u pt)).trans hk
      · rename_i u x he
        rw [he] at hk
        rw [State.failCkpt_mem, State.modPart_mem]; exact hk
      · exact hk
  split
  · grind [State.abandonCapture_mem, State.endCkpt_mem, CkptStep.state]
  · exact ht

theorem State.wf_rcCkpt (s : State) (d a : Nat) (hw : Memory.wf s.mem = true) : Memory.wf (s.rcCkpt d a).mem = true := by
  unfold State.rcCkpt
  grind [State.rcPut_mem, State.wf_ckptStep, State.wf_rcExtern, CkptStep.state]

@[simp] theorem State.readShard_mem (s : State) (k pt : Nat) (e : List Byte) : (s.readShard k pt e).1.mem = s.mem := by
  unfold State.readShard
  grind [State.readVA_mem]

theorem State.wf_writeTarget (s : State) (k pt h : Nat) (bytes : List Byte) (hw : Memory.wf s.mem = true) : Memory.wf (s.writeTarget k pt h bytes).1.mem = true := by
  unfold State.writeTarget
  grind [State.registerBuf_mem, State.wf_writeShadow, State.modPart_mem, State.wf_foldl_fst]

theorem State.wf_applyRestore (s : State) (k pt : Nat) (es ts : List (List Byte)) (hw : Memory.wf s.mem = true) : Memory.wf (s.applyRestore k pt es ts).1.mem = true := by
  unfold State.applyRestore
  grind [State.keep_mem, State.reclaim_mem, State.readShard_mem, State.wf_publish, State.modPart_mem, State.wf_writeTarget, State.wf_foldl_fst]

theorem State.wf_failRstr (s : State) (pt : Nat) (x : Nat × Nat) (hw : Memory.wf s.mem = true) : Memory.wf (s.failRstr pt x).mem = true := by
  unfold State.failRstr
  grind [State.reclaim_mem, State.wf_rcExtern, State.modPart_mem]

theorem State.wf_rcRstr (s : State) (d a : Nat) (hw : Memory.wf s.mem = true) : Memory.wf (s.rcRstr d a).mem = true := by
  unfold State.rcRstr
  grind [State.rcPut_mem, State.readCounted_mem, State.wf_failRstr, State.wf_applyRestore]

/-! ### Node and host events -/

@[simp] theorem State.nodeExtern_mem (s : State) (n : Nat) (v : Node) (c : Nat × Nat) : (s.nodeExtern n v c).mem = s.mem := by
  unfold State.nodeExtern
  grind [State.modNode_mem, State.postUnit_mem, State.leavePool_mem, State.stopNode_mem]

@[simp] theorem State.launchOps_mem (s : State) (k pt : Nat) (os : List Operand) : (s.launchOps k pt os).1.mem = s.mem := by
  induction os generalizing s with
  | nil => rfl
  | cons o r ih =>
    unfold State.launchOps
    have hb := s.registerBuf_mem k pt o.handle
    split
    · split
      · grind
      · exact ih s
    · split
      · grind
      · split
        · grind
        · grind

theorem State.wf_occupy (s : State) (n : Nat) (v : Node) (rect : List Nat) (block prog : List Byte) (off : Nat) (hw : Memory.wf s.mem = true) :
    Memory.wf (s.occupy n v rect block prog off).mem = true := by
  unfold State.occupy
  grind [State.modNode_mem, State.modRc_mem, State.wf_poke, State.leavePool_mem, Memory.wf_writeN, Memory.wf_clearConfig, Memory.wf_clear, State.wf_foldl]

theorem State.wf_dispatchNode (s : State) (n : Nat) (v : Node) (rect : List Nat) (hw : Memory.wf s.mem = true) : Memory.wf (s.dispatchNode n v rect).mem = true := by
  unfold State.dispatchNode
  extract_lets lead
  clear_value lead
  have hx : ∀ t c, Memory.wf ((s.keep t).nodeExtern n v c).mem = true := fun t c => by rw [State.nodeExtern_mem, State.keep_mem]; exact hw
  split
  · exact hx _ _
  split
  · exact hx _ _
  split
  · exact hx _ _
  split
  · exact hx _ _
  grind [State.readVA_mem, State.launchOps_mem, State.modNode_mem, State.wf_occupy, State.takeSet_mem, State.acquire_mem, State.wf_rcFault]

theorem State.wf_seat (s : State) (n : Nat) (v : Node) (rect : List Nat) (ops : List Operand) (hw : Memory.wf s.mem = true) :
    Memory.wf (s.seat n v rect ops).mem = true := by
  unfold State.seat
  grind [State.modCore_mem, State.modNode_mem, State.modRc_mem, State.leavePool_mem, Memory.wf_clearConfig]

@[simp] theorem State.unseat_mem (s : State) (n : Nat) : (s.unseat n).mem = s.mem := by
  unfold State.unseat
  split <;> rfl

theorem State.wf_launchOther (s : State) (n : Nat) (v : Node) (rect : List Nat) (hw : Memory.wf s.mem = true) : Memory.wf (s.launchOther n v rect).mem = true := by
  unfold State.launchOther
  grind [State.nodeExtern_mem, State.keep_mem, State.readVA_mem, State.launchOps_mem, State.wf_seat]

theorem State.wf_sendHost (s : State) (n : Nat) (v : Node) (rect : List Nat) (hw : Memory.wf s.mem = true) : Memory.wf (s.sendHost n v rect).mem = true := by
  unfold State.sendHost
  grind [State.nodeExtern_mem, State.keep_mem, State.postUnit_mem, State.readVA_mem, State.readTiles_mem, State.leavePool_mem, State.launchOps_mem, State.wf_seat,
    State.stopNode_mem]

theorem State.wf_placeNode (s : State) (hw : Memory.wf s.mem = true) : Memory.wf s.placeNode.mem = true := by
  unfold State.placeNode
  grind [State.wf_launchOther, State.wf_sendHost, State.wf_seat, State.wf_dispatchNode]

@[simp] theorem State.ageNode_mem (s : State) (n : Nat) : (s.ageNode n).mem = s.mem := by
  unfold State.ageNode
  grind [State.modNode_mem]

@[simp] theorem State.discardShadows_mem (s : State) (n : Nat) (v : Node) : (s.discardShadows n v).mem = s.mem := by
  unfold State.discardShadows
  grind [State.modOperand_mem, State.postUnit_mem, State.foldl_mem]

@[simp] theorem State.dropHandles_mem (s : State) (owner : Nat) : (s.dropHandles owner).mem = s.mem := rfl

theorem State.wf_completeNode (s : State) (n : Nat) (v : Node) (k : Nat) (c : Clr) (hw : Memory.wf s.mem = true) : Memory.wf (s.completeNode n v k c).mem = true := by
  unfold State.completeNode
  grind [State.discardShadows_mem, State.nodeExtern_mem, State.keep_mem, State.wf_releaseSuccessors, State.reclaim_mem, State.modNode_mem, State.dropHandles_mem,
    State.endMembers_mem]

theorem State.wf_completeCompute (s : State) (n : Nat) (v : Node) (g : Region) (hw : Memory.wf s.mem = true) : Memory.wf (s.completeCompute n v g).mem = true := by
  unfold State.completeCompute
  grind [State.freeRegion_mem, State.modRc_mem, State.reclaimFrames_mem, State.wf_completeNode, State.release_mem]

theorem State.wf_stepCkptNode (s : State) (n : Nat) (v : Node) (hw : Memory.wf s.mem = true) : Memory.wf (s.stepCkptNode n v).mem = true := by
  unfold State.stepCkptNode
  grind [State.nodeExtern_mem, State.keep_mem, State.wf_ckptStep, State.postUnit_mem, State.readVA_mem, State.wf_completeNode, State.stopNode_mem, State.unseat_mem,
    CkptStep.state]

@[simp] theorem State.cancelOne_mem (s : State) (pt va : Nat) : (s.cancelOne pt va).mem = s.mem := by
  unfold State.cancelOne
  grind [State.cancelNode_mem, State.foldl_mem]

@[simp] theorem State.cancelSuccessors_mem (s : State) (n : Nat) (v : Node) : (s.cancelSuccessors n v).mem = s.mem := by
  unfold State.cancelSuccessors
  grind [State.dropLinks_mem, State.keep_mem, State.cancelOne_mem, State.modNode_mem, State.successors_mem, State.postUnit_mem, State.dropHandles_mem, State.foldl_mem]

theorem State.wf_nodeEnds (s : State) (n : Nat) (hw : Memory.wf s.mem = true) : Memory.wf (s.nodeEnds n).mem = true := by
  unfold State.nodeEnds
  grind [State.wf_completeCompute, State.cancelSuccessors_mem, State.wf_completeNode, State.unseat_mem, State.wf_stepCkptNode]

theorem State.wf_ackHost (s : State) (i : Nat) (hw : Memory.wf s.mem = true) : Memory.wf (s.ackHost i).mem = true := by
  unfold State.ackHost
  grind [State.wf_completeNode, State.unseat_mem]

/-! ### Links -/

@[simp] theorem State.modChan_mem (s : State) (pt ch : Nat) (f : Channel → Channel) : (s.modChan pt ch f).mem = s.mem := rfl

@[simp] theorem State.postHost_mem (s : State) (pt ch sev cause addr : Nat) : (s.postHost pt ch sev cause addr).mem = s.mem := rfl

@[simp] theorem State.openChan_mem (s : State) (pt ch : Nat) : (s.openChan pt ch).mem = s.mem := by
  unfold State.openChan
  split <;> rfl

theorem State.wf_closeChan (s : State) (pt ch : Nat) (hw : Memory.wf s.mem = true) : Memory.wf (s.closeChan pt ch).mem = true := by
  unfold State.closeChan
  grind [State.modChan_mem, State.reclaim_mem, State.wf_poke]

theorem State.wf_chanExtern (s : State) (pt ch : Nat) (c : Nat × Nat) (hw : Memory.wf s.mem = true) : Memory.wf (s.chanExtern pt ch c).mem = true := by
  unfold State.chanExtern
  grind [State.modChan_mem, State.postHost_mem, State.wf_closeChan]

theorem State.wf_shadowWrite (s : State) (k pt ch h : Nat) (b : Buf) (off : Nat) (bytes : List Byte) (hw : Memory.wf s.mem = true) :
    Memory.wf (s.shadowWrite k pt ch h b off bytes).1.mem = true := by
  unfold State.shadowWrite
  grind [State.modChan_mem, State.wf_writeShadow, State.wf_foldl_fst]

theorem State.wf_hostWrite (s : State) (pt : Nat) (m : HostMsg) (hw : Memory.wf s.mem = true) : Memory.wf (s.hostWrite pt m).mem = true := by
  unfold State.hostWrite
  grind [State.keep_mem, State.modChan_mem, State.wf_shadowWrite, State.postHost_mem, State.registerBuf_mem, State.wf_chanExtern, State.openChan_mem]

theorem State.wf_hostRaise (s : State) (pt : Nat) (m : HostMsg) (hw : Memory.wf s.mem = true) : Memory.wf (s.hostRaise pt m).mem = true := by
  unfold State.hostRaise
  grind [State.modChan_mem, State.postHost_mem, State.wf_closeChan, State.openChan_mem]

theorem State.wf_publishChan (s : State) (pt : Nat) (c : Channel) (hs : List Nat) (l : List HostPub) (hw : Memory.wf s.mem = true) :
    Memory.wf (s.publishChan pt c hs l).1.mem = true := by
  induction hs generalizing s l with
  | nil => exact hw
  | cons h r ih => unfold State.publishChan; grind [State.wf_publish]

theorem State.wf_chanPublish (s : State) (pt ch : Nat) (hw : Memory.wf s.mem = true) : Memory.wf (s.chanPublish pt ch).mem = true := by
  unfold State.chanPublish
  grind [State.keep_mem, State.modChan_mem, State.postHost_mem, State.reclaim_mem, State.wf_chanExtern, State.wf_publishChan]

@[simp] theorem State.chanDeliver_mem (s : State) (pt ch : Nat) : (s.chanDeliver pt ch).mem = s.mem := by
  unfold State.chanDeliver
  grind [State.modChan_mem, State.reach_mem]

theorem State.wf_uePacket (s : State) (port : Nat) (p : UePacket) (hw : Memory.wf s.mem = true) : Memory.wf (s.uePacket port p).mem = true := by
  unfold State.uePacket
  grind [State.wf_hostRaise, State.postUnit_mem, State.wf_hostWrite]

@[simp] theorem State.uePortDown_mem (s : State) (port : Nat) : (s.uePortDown port).mem = s.mem := by
  unfold State.uePortDown
  grind [State.postUnit_mem, State.foldl_mem]

@[simp] theorem State.postLink_mem (s : State) (pt port sev cause detail : Nat) : (s.postLink pt port sev cause detail).mem = s.mem := rfl

@[simp] theorem State.collIn_mem (s : State) (port vc tag : Nat) (m : CollMsg) : (s.collIn port vc tag m).mem = s.mem := by
  unfold State.collIn
  grind [State.postLink_mem, State.modStrait_mem, State.freeSlots_mem]

@[simp] theorem State.chunkIn_mem (s : State) (c : ChunkFlit) : (s.chunkIn c).mem = s.mem := rfl

@[simp] theorem State.tokenIn_mem (s : State) (port dest dport : Nat) (t : Token) : (s.tokenIn port dest dport t).mem = s.mem := by
  unfold State.tokenIn
  grind [State.postLink_mem, State.modRc_mem, State.reach_mem]

@[simp] theorem State.flitIn_mem (s : State) (port : Nat) (f : Flit) : (s.flitIn port f).mem = s.mem := by
  unfold State.flitIn
  grind [State.postLink_mem, State.modStrait_mem, State.tokenIn_mem, State.collIn_mem, State.chunkIn_mem]

@[simp] theorem State.moveFlits_mem (s : State) (port : Nat) : (s.moveFlits port).mem = s.mem := by
  unfold State.moveFlits
  grind [State.modStrait_mem, State.foldl_mem]

@[simp] theorem State.nakIn_mem (s : State) (port seq : Nat) (lost : Bool) : (s.nakIn port seq lost).mem = s.mem := by
  unfold State.nakIn
  grind [State.postLink_mem, State.moveFlits_mem, State.modStrait_mem, State.foldl_mem]

@[simp] theorem State.creditIn_mem (s : State) (port vc kind k l x e : Nat) : (s.creditIn port vc kind k l x e).mem = s.mem := by
  unfold State.creditIn
  grind [State.modStrait_mem, State.mem_modEdge]

@[simp] theorem State.divert_mem (s : State) (port vc : Nat) : (s.divert port vc).mem = s.mem := by
  unfold State.divert
  grind [State.modStrait_mem]

@[simp] theorem State.linkBack_mem (s : State) (port : Nat) : (s.linkBack port).mem = s.mem := by
  unfold State.linkBack
  split <;> rfl

@[simp] theorem State.watchStrait_mem (s : State) (port vc : Nat) (second : Bool) : (s.watchStrait port vc second).mem = s.mem := by
  unfold State.watchStrait
  grind [State.postLink_mem, State.modStrait_mem, State.foldl_mem]

@[simp] theorem State.watch_mem (s : State) (port vc pt : Nat) (ue second : Bool) : (s.watch port vc pt ue second).mem = s.mem := by
  unfold State.watch
  grind [State.postUnit_mem, State.watchStrait_mem]

/-! ### Power -/

@[simp] theorem State.powerReset_mem (s : State) : s.powerReset.mem = [] := by
  rfl

@[simp] theorem State.start_mem (s : State) (fail cause : Nat) : (s.start fail cause).mem = s.mem := by
  unfold State.start
  grind [State.postUnit_mem]

@[simp] theorem State.matrixIdle_mem (s : State) (k : Nat) : (s.matrixIdle k).mem = s.mem := by
  unfold State.matrixIdle
  grind [State.modMatrix_mem]

@[simp] theorem State.admitRow_mem (s : State) (i y : Nat) : (s.admitRow i y).mem = s.mem := by
  unfold State.admitRow
  grind [State.modMatrix_mem, State.foldl_mem]

@[simp] theorem State.rampAdmit_mem (s : State) (i : Nat) : (s.rampAdmit i).mem = s.mem := by
  unfold State.rampAdmit
  grind [State.modIsle_mem, State.admitRow_mem]

@[simp] theorem State.rampStep_mem (s : State) (i : Nat) : (s.rampStep i).mem = s.mem := by
  unfold State.rampStep
  grind [State.modIsle_mem, State.admitRow_mem]

@[simp] theorem State.powerWindow_mem (s : State) (above : Bool) : (s.powerWindow above).mem = s.mem := by
  unfold State.powerWindow
  grind [State.postUnit_mem]

@[simp] theorem State.warm_mem (s : State) (d : Nat) (below : Bool) : (s.warm d below).mem = s.mem := by
  unfold State.warm
  grind [State.modDie_mem, State.postUnit_mem]

@[simp] theorem State.postDamage_mem (s : State) (sev k loc cause addr : Nat) : (s.postDamage sev k loc cause addr).mem = s.mem := by
  unfold State.postDamage
  grind [State.postFault_mem, State.postUnit_mem]

theorem State.wf_fatal (s : State) (k loc cause addr : Nat) (hw : Memory.wf s.mem = true) : Memory.wf (s.fatal k loc cause addr).mem = true := by
  unfold State.fatal
  grind [State.postDamage_mem, State.wf_killPart, State.wf_foldl]

theorem State.wf_uncorrectable (s : State) (k loc cause addr : Nat) (shared : Bool) (hw : Memory.wf s.mem = true) :
    Memory.wf (s.uncorrectable k loc cause addr shared).mem = true := by
  unfold State.uncorrectable
  grind [State.wf_fatal, State.postDamage_mem, State.quarantine_mem, State.wf_terminate]

@[simp] theorem State.dropPlain_mem (s : State) (k va : Nat) : (s.dropPlain k va).mem = s.mem := rfl

theorem State.wf_memoryError (s : State) (k loc cause addr : Nat) (shared : Bool) (hw : Memory.wf s.mem = true) :
    Memory.wf (s.memoryError k loc cause addr shared).mem = true := by
  unfold State.memoryError
  grind [State.dropPlain_mem, State.postUnit_mem, State.wf_uncorrectable]

@[simp] theorem State.dropPost_mem (s : State) (n : Nat) : (s.dropPost n).mem = s.mem := rfl

theorem State.wf_postRecord (s : State) (source : Nat) (hw : Memory.wf s.mem = true) : Memory.wf (s.postRecord source).mem = true := by
  unfold State.postRecord
  grind [State.wf_shown, State.dropPost_mem, State.wf_setQueueWord, State.modQueue_mem, State.wf_putRecord]

@[simp] theorem State.timerExpires_mem (s : State) (k : Nat) : (s.timerExpires k).mem = s.mem := by
  unfold State.timerExpires
  split <;> rfl

/-! ### Pre-emption events -/

@[simp] theorem State.passMarker_mem (s : State) (k l : Nat) : (s.passMarker k l).mem = s.mem := by
  unfold State.passMarker
  split
  · rfl
  extract_lets c ps mark pass
  have hp : ∀ t, (pass t).mem = t.mem := fun t => State.foldl_mem (fun s e => s.enter_mem _ _ _ _ _) _ t
  clear_value pass
  split
  · rfl
  split
  · rw [hp]; rfl
  split
  · rfl
  split
  · rfl
  split
  · rfl
  grind [State.foldl_mem, State.popPort_mem, State.fillSlot_mem, State.modRc_mem, State.modCell_mem]

@[simp] theorem State.saveMatrix_mem (s : State) (k : Nat) : (s.saveMatrix k).mem = s.mem := by
  unfold State.saveMatrix
  grind [State.enter_mem, State.modMatrix_mem]

@[simp] theorem State.regionFreezes_mem (s : State) (k : Nat) : (s.regionFreezes k).mem = s.mem := by
  unfold State.regionFreezes
  grind [State.freeze_mem, State.beginDrain_mem]

theorem State.wf_preemptTimeout (s : State) (k : Nat) (hw : Memory.wf s.mem = true) : Memory.wf (s.preemptTimeout k).mem = true := by
  unfold State.preemptTimeout
  grind [State.runOn_mem, State.postUnit_mem, State.wf_killRegion]

@[simp] theorem State.killDone_mem (s : State) (k : Nat) : (s.killDone k).mem = s.mem := by
  unfold State.killDone
  grind [State.finishKill_mem]

end Sys2Proof.Machine
end

section
/-! A step keeps memory's canonical form (R82): the meaning of every instruction and event, then the fetch of a turn. -/

namespace Sys2Proof.Machine
set_option Elab.async false -- one proof after the other, to bound memory

/-- What a meaning leaves where it goes on: memory in its canonical form. -/
def leavesWf : Out → Prop
  | .next t => Memory.wf t.mem = true
  | _ => True

theorem State.leavesWf_atPlace {s : State} {f : State → Nat → Nat → Nat → Nat → State} (hw : Memory.wf s.mem = true) (hf : ∀ k l x p, Memory.wf (f s k l x p).mem = true) :
    leavesWf (s.atPlace f) := by
  show Memory.wf (if _ then f s _ _ _ _ else s).mem = true
  split
  · exact hf _ _ _ _
  · exact hw

theorem leavesWf_exec (i : Instr) (s : State) (hw : Memory.wf s.mem = true) : leavesWf (exec i s) := by
  cases i
  case add | sub | mul | fma | fms | fnma | min | max | abs | negOp | div | adds | subs | mulh | addi | muli | andOp | orOp | xor | notOp | shl | shr | sha | rot | clz | popc | andi | ori | shli |
    shri | shai | bfx | rcp | rsq | sqrt | exp2 | log2 | tanh | sinp | cosp | cmp | setv | sel | cntv | firstv | classOp | cpsgn | rndi | cvt | qnt | dqn | xsc | shuf | bcast | rotl | redl |
    scanl | iota | mov | movi | movh | ldc | tagrd | fmts | merge | pchk | cmpr | rmk | tjoin | tmeet | tle | tadv | fnrd | scope | rhash | rneg | cAdd | cSub | cMul | cFma | cMin | cMax | cAnd |
    cOr | cXor | cMov | cNeg | cAbs | cExp2 | cRcp | cRsq | cRedl | cSel | cBcast | cShl | cShr | cSetv => exact State.wf_produce _ _ _ _ _ _ hw
  case emit | cEmit => exact State.wf_flow _ _ _ hw fun _ _ _ => emitOne_mem _ _ _ _ _ _ _
  case emitv => exact State.wf_flow _ _ _ hw fun _ _ _ => emitPred_mem _ _ _ _ _ _ _
  case steer => exact State.wf_flow _ _ _ hw fun _ _ _ => steerTo_mem _ _ _ _ _ _ _ _
  case emeos => exact State.wf_flow _ _ _ hw fun _ _ _ he => by cases he; exact State.putStaged_mem _ _ _
  case fwdm => exact State.wf_flow _ _ _ hw fun _ _ _ he => by cases he; exact fwdmTo_mem _ _ _
  case call => exact State.wf_flow _ _ _ hw fun _ _ _ => callTo_mem _ _ _ _ _ _ _ _
  case ret => exact State.wf_flow _ _ _ hw fun _ _ _ => retTo_mem _ _ _ _ _
  case filt => exact State.wf_filter _ _ _ _ _ hw
  case coal => exact State.wf_flow _ _ _ hw fun _ _ _ => coalTo_mem _ _ _ _ _
  case flushc => exact State.wf_flow _ _ _ hw fun _ _ _ => flushTo_mem _ _ _ _
  case trapc => exact State.wf_flow _ _ _ hw fun _ _ _ => trapIf_mem _ _ _ _ _
  case lds => exact State.wf_access _ _ _ _ hw fun _ _ _ he => State.wf_of_mem (ldsAt_mem _ _ _ _ _ _ he) hw
  case sts | stx | lde | ste | ordt | expd | rput | tbarv | hcons | hcomp => exact State.wf_request _ _ _ _ hw
  case ldx => exact State.wf_access _ _ _ _ hw fun _ _ _ he => State.wf_of_mem (ldxAt_mem _ _ _ _ _ he) hw
  case atom =>
    show Memory.wf (if _ then s else _ : State).mem = true
    split
    · exact hw
    · exact State.wf_access _ _ _ _ hw fun _ _ _ => wf_atomAt _ _ _ _ _ _ _ _ hw
  case fencem =>
    show Memory.wf (if _ then s else _ : State).mem = true
    split
    · exact hw
    · exact State.wf_fencem _ _ hw
  case rget => exact State.wf_access _ _ _ _ hw fun _ _ _ he => State.wf_of_mem (rgetAt_mem _ _ _ _ _ _ he) hw
  case rfree => exact State.wf_rfree _ hw
  case tbtst => exact State.wf_access _ _ _ _ hw fun _ _ _ he => State.wf_of_mem (tbtstAt_mem _ _ _ _ he) hw
  case hins | hjoin | hred => exact State.wf_changeCmd _ _ _ _ _ _ _ hw
  case hseek => exact State.wf_seekCmd _ _ _ _ hw
  case fnput => exact State.wf_flow _ _ _ hw fun _ _ _ => fnputTo_mem _ _ _ _ _
  case mma | mmaz | mmat | mmag => exact State.wf_multiply _ _ _ _ _ _ _ _ _ _ hw
  case accz | accwr => exact State.wf_pass _ _ _ _ hw
  case accrd => exact State.wf_drainTiles _ _ _ _ _ hw
  case accax => exact State.wf_pass _ _ _ _ (State.wf_of_mem (State.freeDraws_mem _ _) hw)
  case rcAdd | rcSub | rcMul | rcMulh | rcAnd | rcOr | rcXor | rcShl | rcShr | rcSha | rcSlt | rcSltn | rcMin | rcMax | rcAddi | rcAndi | rcMovk | rcOri | rcPstat | rcRdfn =>
    exact State.wf_of_mem (State.rcPut_mem _ _ _) hw
  case rcLd => exact State.wf_rcLoad _ _ _ _ _ hw
  case rcSt => exact State.wf_rcStore _ _ _ _ _ hw
  case rcAmo =>
    show Memory.wf (if _ then _ else _ : State).mem = true
    split
    · exact State.wf_rcTrap _ _ hw
    · exact State.wf_rcAtomic _ _ _ _ _ _ _ _ hw
  case rcCas => exact State.wf_rcAtomic _ _ _ _ _ _ _ _ hw
  case rcFence => exact State.wf_rcFence _ _ hw
  case rcRds =>
    unfold exec execRcRds leavesWf
    grind [State.wf_rcTrap, State.rcPut_mem]
  case rcWrs =>
    unfold exec execRcWrs leavesWf
    grind [State.wf_rcTrap, State.wf_srSet, State.rcNext_mem]
  case rcShli | rcShri =>
    show leavesWf (if _ then .next _ else .next _)
    split
    · exact State.wf_rcTrap _ _ hw
    · exact State.wf_of_mem (State.rcPut_mem _ _ _) hw
  case rcBeq | rcBne | rcBlt | rcBge | rcBltn | rcBgen => exact State.wf_of_mem (State.branch_mem _ _ _ _ _) hw
  case rcJmp | rcJal | rcJr | rcJl => exact State.wf_jumpTo _ _ _ _ hw
  case rcLoop => exact State.wf_rcLoop _ _ _ hw
  case rcBst => exact State.wf_rcBst _ _ _ _ _ hw
  case rcWaite => exact State.wf_rcWaite _ _ _ hw
  case rcTrap => exact State.wf_rcTrap _ _ hw
  case rcSys => exact State.wf_of_mem (State.rcSys_mem _ _ _ _) hw
  case rcCfg => exact State.wf_rcCfg _ _ hw
  case rcIter => exact State.wf_rcIter _ _ _ hw
  case rcSpec => exact State.wf_rcSpec _ _ _ hw
  case rcWaitr => exact State.wf_of_mem (State.rcWaitr_mem _ _) hw
  case rcBarc => exact State.wf_rcBarc _ _ hw
  case rcInj => exact State.wf_rcInj _ _ _ _ hw
  case rcXtr => exact State.wf_rcXtr _ _ _ hw
  case rcCpy => exact State.wf_rcCpy _ _ _ _ _ _ hw
  case rcCpyr => exact State.wf_rcCpyr _ _ _ _ _ _ hw
  case rcCpyg | rcCpyx | rcCpys => exact State.wf_rcCpyRows _ _ _ _ _ _ hw
  case rcTbi => exact State.wf_rcTbi _ _ _ hw
  case rcTbw => exact State.wf_rcTbw _ _ hw
  case rcTbex => exact State.wf_rcTbex _ _ _ hw
  case rcShd => exact State.wf_rcShd _ _ _ hw
  case rcPub => exact State.wf_rcPub _ _ _ hw
  case rcDisc => exact State.wf_rcDisc _ _ hw
  case rcCpst => exact State.wf_rcCpst _ _ _ hw
  case rcNdsub => exact State.wf_rcNdsub _ _ _ hw
  case rcNddep => exact State.wf_rcNddep _ _ _ _ hw
  case rcNdwait | rcNdstat => exact State.wf_rcNodeState _ _ _ _ hw
  case rcComm => exact State.wf_rcComm _ _ _ hw
  case rcColl => exact State.wf_rcColl _ _ _ _ _ _ hw
  case rcCwait | rcCstat => exact State.wf_rcCollStatus _ _ _ _ hw
  case rcCsel => exact State.wf_rcCsel _ _ _ hw
  case rcLi | rcLih => exact State.wf_of_mem ((State.rcNext_mem _ _ _).trans (State.setQ_mem _ _ _ _)) hw
  case rcMtp => exact State.wf_needLevel _ _ hw (State.wf_rcMtp _ _ _ _ hw)
  case rcMfp => exact State.wf_needLevel _ _ hw (State.wf_rcMfp _ _ _ _ hw)
  case rcTlbi | rcTlbiAll => exact State.wf_needLevel _ _ hw (State.wf_rcTlbi _ _ _ hw)
  case rcTlbiRange => exact State.wf_needLevel _ _ hw (State.wf_rcTlbiRange _ _ _ hw)
  case rcCtxs => exact State.wf_needLevel _ _ hw (State.wf_rcCtxs _ _ _ _ hw)
  case rcCtxr => exact State.wf_needLevel _ _ hw (State.wf_rcCtxr _ _ _ _ hw)
  case rcKill => exact State.wf_needLevel _ _ hw (State.wf_rcKill _ _ hw)
  case rcPrmt => exact State.wf_needLevel _ _ hw (State.wf_rcPrmt _ _ hw)
  case rcSealk => exact State.wf_needLevel _ _ hw (State.wf_rcSealk _ _ _ _ hw)
  case rcSealkRet => exact State.wf_needLevel _ _ hw (State.wf_rcSealkRet _ _ hw)
  case rcSealkCur => exact State.wf_needLevel _ _ hw (State.wf_rcSealkCur _ _ hw)
  case rcScrub => exact State.wf_needLevel _ _ hw (State.wf_rcScrub _ _ _ _ hw)
  case rcMigr => exact State.wf_needLevel _ _ hw (State.wf_rcMigr _ _ _ _ hw)
  case rcCkpt => exact State.wf_needLevel _ _ hw (State.wf_rcCkpt _ _ _ hw)
  case rcRstr => exact State.wf_needLevel _ _ hw (State.wf_rcRstr _ _ _ hw)
  case rcAttest => exact State.wf_needLevel _ _ hw (State.wf_rcAttest _ _ _ _ hw)
  case rcAttestAcc => exact State.wf_needLevel _ _ hw (State.wf_rcAttestAcc _ _ _ hw)
  case rcAttestClose => exact State.wf_needLevel _ _ hw (State.wf_rcAttestClose _ _ hw)
  case rcRets => exact State.wf_needLevel _ _ hw (State.wf_rcRets _ _ _ hw)
  case rcPartCreate => exact State.wf_needLevel _ _ hw (State.wf_rcPartCreate _ _ _ _ hw)
  case rcPartDestroy => exact State.wf_needLevel _ _ hw (State.wf_rcPartDestroy _ _ _ hw)
  case rcPartRead => exact State.wf_needLevel _ _ hw (State.wf_rcPartRead _ _ _ _ hw)
  case rcEvtq => exact State.wf_needLevel _ _ hw (State.wf_rcEvtq _ _ _ hw)
  case rcEvtqWait => exact State.wf_needLevel _ _ hw (State.wf_of_mem (State.rcEvtqWait_mem _ _) hw)
  case dropOp | endOp | cEnd | cDrop => exact State.wf_finish _ _ hw
  case freef => exact State.wf_flow _ _ _ hw fun _ _ _ => freeTo_mem _ _ _
  case rcEndl => exact State.wf_rcEndl _ hw
  case rcHalt => exact State.wf_of_mem (State.rcHalt_mem _) hw
  case rcCfgw => exact State.wf_rcCfgw _ hw fun _ => State.wf_of_mem (State.rcNext_mem _ _ _)
  case rcGo => exact State.wf_rcGo _ hw
  case rcAbortr => exact State.wf_of_mem (State.rcAbortr_mem _) hw
  case rcPin => exact State.wf_rcPin _ hw
  case rcKillPart => exact State.wf_needLevel _ _ hw (State.wf_rcKillPart _ hw)
  case rcPrmtPart => exact State.wf_needLevel _ _ hw (State.wf_of_mem (State.rcPrmtPart_mem _) hw)
  case evPowerOnReset => exact (congrArg Memory.wf ((State.start_mem _ _ _).trans (State.powerReset_mem _))).trans Memory.wf_nil
  case evDataTokenArrival =>
    show leavesWf (execEvDataTokenArrival s)
    exact State.leavesWf_atPlace hw fun _ _ _ _ => State.wf_arrive _ _ _ _ _ _ hw
  case evEosArrival =>
    show leavesWf (execEvEosArrival s)
    exact State.leavesWf_atPlace hw fun _ _ _ _ => State.wf_arrive _ _ _ _ _ _ hw
  case evMarkArrival =>
    show leavesWf (execEvMarkArrival s)
    exact State.leavesWf_atPlace hw fun _ _ _ _ => State.wf_arrive _ _ _ _ _ _ hw
  case evNoticeArrival =>
    show leavesWf (execEvNoticeArrival s)
    exact State.leavesWf_atPlace hw fun _ _ _ _ => State.wf_noticeArrives _ _ hw
  case evTaskAdmit =>
    show leavesWf (execEvTaskAdmit s)
    exact State.leavesWf_atPlace hw fun _ _ _ _ => State.wf_taskAdmit _ _ _ hw
  case evTaskDispatch =>
    show leavesWf (execEvTaskDispatch s)
    exact State.leavesWf_atPlace hw fun _ _ _ _ => State.wf_taskDispatch _ _ _ hw
  case evStagedTokenRelease =>
    show leavesWf (execEvStagedTokenRelease s)
    exact State.leavesWf_atPlace hw fun _ _ _ _ => State.wf_releaseStaged _ _ _ hw
  case evEosForward =>
    show leavesWf (execEvEosForward s)
    exact State.leavesWf_atPlace hw fun _ _ _ _ => State.wf_of_mem (State.eosForward_mem _ _ _ _ _) hw
  case evSinkEosCount =>
    show leavesWf (execEvSinkEosCount s)
    exact State.leavesWf_atPlace hw fun _ _ _ _ => State.wf_of_mem (State.sinkEos_mem _ _ _ _ _) hw
  case evMarkerSlotFill =>
    show leavesWf (execEvMarkerSlotFill s)
    exact State.leavesWf_atPlace hw fun _ _ _ _ => State.wf_of_mem (State.takeMark_mem _ _ _ _ _) hw
  case evFrontierAdvance =>
    show leavesWf (execEvFrontierAdvance s)
    exact State.leavesWf_atPlace hw fun _ _ _ _ => State.wf_of_mem (State.takeFrontier_mem _ _ _ _ _) hw
  case evArbiterWeightRecompute =>
    show leavesWf (execEvArbiterWeightRecompute s)
    refine State.leavesWf_atPlace hw fun _ _ _ _ => ?_
    split
    · exact State.wf_of_mem (State.newWeights_mem _ _ _) hw
    · exact hw
  case evFrameWaitTimeout =>
    show leavesWf (execEvFrameWaitTimeout s)
    exact State.leavesWf_atPlace hw fun _ _ _ _ => State.wf_of_mem (State.frameTimeouts_mem _ _ _) hw
  case evReturnArrival => exact State.wf_of_mem (State.returnArrives_mem _ _ _) hw
  case evCfgLoadApply =>
    show leavesWf (execEvCfgLoadApply s)
    exact State.leavesWf_atPlace hw fun _ _ _ _ => State.wf_applyLoad _ _ hw
  case evGeneratorPoint =>
    show leavesWf (execEvGeneratorPoint s)
    exact State.leavesWf_atPlace hw fun _ _ _ _ => State.wf_generate _ _ _ hw
  case evBarcPoint =>
    show leavesWf (execEvBarcPoint s)
    exact State.leavesWf_atPlace hw fun _ _ _ _ => State.wf_barcPoint _ _ _ hw
  case evOrderingTokenArrival =>
    show leavesWf (execEvOrderingTokenArrival s)
    exact State.leavesWf_atPlace hw fun _ _ _ _ => State.wf_ordArrives _ _ _ _ hw
  case evVoidSlotFree =>
    show leavesWf (execEvVoidSlotFree s)
    exact State.leavesWf_atPlace hw fun _ _ _ _ => State.wf_voidFreeAt _ _ _ hw
  case evCopyOutSlotTake =>
    show leavesWf (execEvCopyOutSlotTake s)
    exact State.leavesWf_atPlace hw fun _ _ _ _ => State.wf_takeOut _ _ _ hw
  case evSectorLanding =>
    show leavesWf (execEvSectorLanding s)
    exact State.leavesWf_atPlace hw fun _ _ _ _ => State.wf_copyTurn _ _ _ _ hw
  case evRemoteAccessArrival => exact State.wf_remoteArrives _ _ hw
  case evRemoteStoreCompletion => exact State.wf_storeCompletes _ _ hw
  case evHistoryCommandAccept => exact State.wf_acceptCommand _ _ _ hw
  case evHistoryCommandApply => exact State.wf_histTurn _ _ _ _ hw
  case evHistoryFrontierAdvance =>
    unfold exec execEvHistoryFrontierAdvance leavesWf
    grind [State.wf_joinTurn, State.wf_histTurn]
  case evHistoryEosPass => exact State.wf_of_mem (State.passEos_mem _ _ _) hw
  case evBucketSpill => exact State.wf_spillBucket _ _ _ hw
  case evBucketFill => exact State.wf_fillBucket _ _ _ hw
  case evMatrixInstanceStart => exact State.wf_startInstance _ _ hw
  case evMatrixEos =>
    show Memory.wf (if _ then _ else s : State).mem = true
    split
    · exact State.wf_matrixEos _ _ _ hw
    · exact hw
  case evMatrixPreemptSave =>
    show leavesWf (execEvMatrixPreemptSave s)
    exact State.leavesWf_atPlace hw fun _ _ _ _ => State.wf_of_mem (State.saveMatrix_mem _ _) hw
  case evMatrixIdle => exact State.wf_of_mem (State.matrixIdle_mem _ _) hw
  case evIsleRampAdmit => exact State.wf_of_mem (State.rampAdmit_mem _ _) hw
  case evRampStep => exact State.wf_of_mem (State.rampStep_mem _ _) hw
  case evPhaseComplete => exact State.wf_completePhase _ _ hw
  case evCommunicatorFormed => exact State.wf_of_mem (State.formComm_mem _ _ _) hw
  case evCommunicatorBroken => exact State.wf_of_mem (State.breakComm_mem _ _ _) hw
  case evChunkStart => exact State.wf_of_mem (State.chunkStarts_mem _ _ _) hw
  case evChunkCombine => exact State.wf_chunkCombines _ _ _ _ _ _ hw
  case evSlotCloseTimeout => exact State.wf_of_mem (State.slotTimeout_mem _ _) hw
  case evRouterStep => exact State.wf_routerStep _ _ _ _ _ _ _ _ hw
  case evDoneNotice => exact State.wf_of_mem (State.doneNotice_mem _ _ _ _ _) hw
  case evCommit => exact State.wf_commits _ _ _ _ hw
  case evMemberLost => exact State.wf_memberLost _ _ _ _ hw
  case evNodePlace => exact State.wf_placeNode _ hw
  case evNodeAging => exact State.wf_of_mem (State.ageNode_mem _ _) hw
  case evNodeComplete => exact State.wf_nodeEnds _ _ hw
  case evHostWrite => exact State.wf_hostWrite _ _ _ hw
  case evHostRaisingWrite => exact State.wf_hostRaise _ _ _ hw
  case evHostChannelPublish => exact State.wf_chanPublish _ _ _ hw
  case evHostTokenDeliver => exact State.wf_of_mem (State.chanDeliver_mem _ _ _) hw
  case evHostSinkAck => exact State.wf_ackHost _ _ hw
  case evUePacketReceive => exact State.wf_uePacket _ _ _ hw
  case evUePortDown => exact State.wf_of_mem (State.uePortDown_mem _ _) hw
  case evStraitFlitReceive => exact State.wf_of_mem (State.flitIn_mem _ _ _) hw
  case evNakReceive => exact State.wf_of_mem (State.nakIn_mem _ _ _ _) hw
  case evCreditReturn => exact State.wf_of_mem (State.creditIn_mem _ _ _ _ _ _ _ _) hw
  case evEscapeVcDivert => exact State.wf_of_mem (State.divert_mem _ _ _) hw
  case evWatchdogFirst | evWatchdogSecond => exact State.wf_of_mem (State.watch_mem _ _ _ _ _ _) hw
  case evEventPost => exact State.wf_postRecord _ _ hw
  case evTimerExpiry => exact State.wf_of_mem (State.timerExpires_mem _ _) hw
  case evPreemptMarkerForward =>
    show leavesWf (execEvPreemptMarkerForward s)
    exact State.leavesWf_atPlace hw fun _ _ _ _ => State.wf_of_mem (State.passMarker_mem _ _ _) hw
  case evRegionFrozen => exact State.wf_of_mem (State.regionFreezes_mem _ _) hw
  case evPreemptTimeout => exact State.wf_preemptTimeout _ _ hw
  case evKillDone => exact State.wf_of_mem (State.killDone_mem _ _) hw
  case evPowerWindow => exact State.wf_of_mem (State.powerWindow_mem _ _) hw
  case evThermalWarning => exact State.wf_of_mem (State.warm_mem _ _ _) hw
  case evThermalThrottle | evThermalThrottleRelease => exact State.wf_of_mem (State.modDie_mem _ _ _) hw
  case evThermalShutdown => exact (congrArg Memory.wf (State.powerReset_mem _)).trans Memory.wf_nil
  case evUncorrectableError => exact State.wf_memoryError _ _ _ _ _ _ hw
  case rcIllegalEncoding => exact State.wf_rcIllegal _ hw
  case evRemoteReply => exact State.wf_replyArrives _ _ hw
  case evStraitLinkReturn => exact State.wf_of_mem (State.linkBack_mem _ _) hw
  case evExtractFifoArrival =>
    show leavesWf (execEvExtractFifoArrival s)
    exact State.leavesWf_atPlace hw fun _ _ _ _ => State.wf_of_mem (State.extractArrive_mem _ _ _ _ _) hw

/-- What a turn fetches keeps memory's canonical form: what it leaves by itself, and the state from which it runs an instruction. -/
def fetchedWf : Fetched → Prop
  | .run _ t | .still t => Memory.wf t.mem = true
  | .bad _ => True

theorem State.fetchedWf_fetchTask (s : State) (k l : Nat) (hw : Memory.wf s.mem = true) : fetchedWf (s.fetchTask k l) := by
  unfold State.fetchTask
  cases (s.cell k l).running with
  | none =>
    show Memory.wf (if s.works k then s.drain k l else s).mem = true
    split
    · exact State.wf_drain s k l hw
    · exact hw
  | some t =>
    dsimp only
    split
    · exact hw
    · cases s.fetchCell k l t.ctx t.pc with
      | ok r => exact hw
      | error e => trivial

theorem State.fetchedWf_fetchRc (s : State) (k : Nat) (hw : Memory.wf s.mem = true) : fetchedWf (s.fetchRc k) := by
  unfold State.fetchRc
  dsimp only
  split
  · exact hw
  · split
    · exact State.wf_rcFault _ _ _ hw
    · split
      · exact State.wf_rcFault _ _ _ hw
      · exact hw

theorem State.fetchedWf_fetchSlot (s : State) (k : Nat) (hw : Memory.wf s.mem = true) : fetchedWf (s.fetchSlot k) := by
  unfold State.fetchSlot
  cases (s.core k).matrix.run with
  | none => exact hw
  | some m =>
    dsimp only
    split
    · exact hw
    · cases decodeMatrix (Memory.readNat s.mem (matBase k + (m.ctx * 16 + m.slot) * 8) 8) with
      | ok i => exact hw
      | error e => trivial

theorem State.fetchedWf_fetchTurn (s : State) (u : Turn) (hw : Memory.wf s.mem = true) : fetchedWf (s.fetchTurn u) := by
  unfold State.fetchTurn
  split
  · exact hw
  · cases u with
    | cell k l => exact s.fetchedWf_fetchTask k l hw
    | rc k => exact s.fetchedWf_fetchRc k hw
    | matrix k => exact s.fetchedWf_fetchSlot k hw
    | event i p =>
      dsimp only
      split <;> exact hw
    | pass => exact s.wf_passCycle hw

theorem State.fetchedWf_fetch (s : State) (hw : Memory.wf s.mem = true) : fetchedWf s.fetch :=
  s.takeTurn.2.fetchedWf_fetchTurn _ (State.wf_of_mem s.takeTurn_mem hw)

theorem leavesWf_step (s : State) (hw : Memory.wf s.mem = true) : leavesWf (step s) := by
  have hf := s.fetchedWf_fetch hw
  unfold step
  cases h : s.fetch with
  | run i t => exact leavesWf_exec i t (by rwa [h] at hf)
  | still t => rwa [h] at hf
  | bad f => trivial

/-- Settles O58: a turn's fetch and the meaning of what it fetched each keep the canonical form, the meaning by the lemma of the operation that gives it. -/
theorem memoryCanonicalKept : Obligations.MemoryCanonicalKept := by
  unfold Obligations.MemoryCanonicalKept
  intro s t hi hs
  have h := leavesWf_step s hi
  rwa [hs] at h

/-- Settles O59: the bytes that reset writes stand in the canonical form. -/
theorem invAtReset : Obligations.InvAtReset := State.reset_mem_wf

end Sys2Proof.Machine
end

section
/-! What a turn fetches, and the step that runs it (R89, R135, R145, R147, R148, R237, R317). -/

namespace Sys2Proof.Machine

section Fetch
variable {s t : State} {u : Turn} {k l n : Nat} {i : Instr} {a : Task} {m : MInst} {e : DecodeError}

theorem step_of_run (h : s.fetch = .run i t) : step s = exec i t := by unfold step; rw [h]
theorem step_of_still (h : s.fetch = .still t) : step s = .next t := by unfold step; rw [h]
theorem step_of_bad {f : Fault} (h : s.fetch = .bad f) : step s = .fault f := by unfold step; rw [h]

theorem State.fetch_of_takeTurn (h : s.takeTurn = (u, t)) : s.fetch = t.fetchTurn u := by
  show s.takeTurn.2.fetchTurn s.takeTurn.1 = _
  rw [h]

theorem State.takeTurn_cons {r : List Turn} (h : s.agenda = u :: r) : s.takeTurn = (u, { s with agenda := r }) := by
  unfold State.takeTurn
  rw [h]

theorem State.takeTurn_nil (h : s.agenda = []) : s.takeTurn = (Config.schedule s.turnNo, { s with turnNo := s.turnNo + 1 }) := by
  unfold State.takeTurn
  rw [h]

theorem State.fetchTurn_held (h : t.turnHeld u = true) : t.fetchTurn u = .still t := if_pos h

theorem State.fetchTurn_free (h : t.turnHeld u = false) : t.fetchTurn u =
    match u with
    | .cell k l => t.fetchTask k l
    | .rc k => t.fetchRc k
    | .matrix k => t.fetchSlot k
    | .event i p => if (encodeWord i).1 = .event then .run i { t with place := p, fcore := p.core, fcell := p.cell } else .still t
    | .pass => .still t.passCycle := by
  unfold State.fetchTurn
  rw [if_neg (by rw [h]; exact Bool.false_ne_true)]
  cases u <;> rfl

/-! ### A cell's turn -/

theorem State.fetchTask_runs (hr : (t.cell k l).running = some a) (hw : t.works k = true) : t.fetchTask k l =
    match t.fetchCell k l a.ctx a.pc with
    | .ok (i, _) => .run i { t with fcore := k, fcell := l }
    | .error _ => .bad (.routineWord k l a.pc) := by
  unfold State.fetchTask
  rw [hr]
  simp only [hw, Bool.not_true, Bool.false_eq_true, if_false] <;> rfl

theorem State.fetchTask_stopped (hw : t.works k = false) : t.fetchTask k l = .still t := by
  unfold State.fetchTask
  cases (t.cell k l).running with
  | none => simp only [hw, Bool.false_eq_true, if_false]
  | some a => simp only [hw, Bool.not_false, if_true]

theorem State.fetchTask_idle (hr : (t.cell k l).running = none) (hw : t.works k = true) : t.fetchTask k l = .still (t.drain k l) := by
  unfold State.fetchTask
  rw [hr]
  simp only [hw, if_true]

/-! ### A matrix engine's turn -/

theorem State.fetchSlot_runs (hr : (t.core k).matrix.run = some m) (hw : t.works k = true) (hp : (t.core k).matrix.passed = false) : t.fetchSlot k =
    match decodeMatrix (Memory.readNat t.mem (matBase k + (m.ctx * 16 + m.slot) * 8) 8) with
    | .ok i => .run i { t with fcore := k }
    | .error _ => .bad (.matrixWord k m.ctx m.slot) := by
  unfold State.fetchSlot
  rw [hr]
  simp only [hw, hp, Bool.not_true, Bool.or_self, Bool.false_eq_true, if_false] <;> rfl

theorem State.fetchSlot_still (h : (t.core k).matrix.run = none ∨ t.works k = false ∨ (t.core k).matrix.passed = true) : t.fetchSlot k = .still t := by
  unfold State.fetchSlot
  cases hr : (t.core k).matrix.run with
  | none => rfl
  | some m =>
    rw [hr] at h
    have hh : (!t.works k || (t.core k).matrix.passed) = true := by simpa using h
    simp only [hh, if_true]

/-! ### A region controller's turn -/

theorem decodeRc_ok {w x : Nat} (h : decodeRcWord w x = .ok i) : decodeRc w x = i := by unfold decodeRc; rw [h]; rfl
theorem decodeRc_error {w x : Nat} (h : decodeRcWord w x = .error e) : decodeRc w x = .rcIllegalEncoding := by unfold decodeRc; rw [h]; rfl

theorem State.fetchRc_stopped (hr : t.rcRuns k = false) : t.fetchRc k = .still t := by
  unfold State.fetchRc
  simp only [hr, Bool.not_false, if_true]

theorem State.fetchRc_outside (hr : t.rcRuns k = true) (hp : t.inProgram k (t.rc k).pc = false) :
    t.fetchRc k = .still (t.rcFault k ⟨0x0C9, (t.rc k).pc, 0, false⟩) := by
  unfold State.fetchRc
  simp only [hr, hp, Bool.not_true, Bool.not_false, Bool.false_eq_true, if_false, if_true]

theorem State.fetchRc_cut (hr : t.rcRuns k = true) (hp : t.inProgram k (t.rc k).pc = true) (hl : rcIsLong (t.rcWordAt k (t.rc k).pc) = true)
    (hx : t.inProgram k ((t.rc k).pc + 4) = false) : t.fetchRc k = .still (t.rcFault k ⟨0x0C9, (t.rc k).pc + 4, 0, false⟩) := by
  unfold State.fetchRc
  simp only [hr, hp, hl, hx, Bool.not_true, Bool.not_false, Bool.and_self, Bool.false_eq_true, if_false, if_true]

theorem State.fetchRc_runs (hr : t.rcRuns k = true) (hp : t.inProgram k (t.rc k).pc = true)
    (hx : rcIsLong (t.rcWordAt k (t.rc k).pc) = false ∨ t.inProgram k ((t.rc k).pc + 4) = true) :
    t.fetchRc k = .run (decodeRc (t.rcWordAt k (t.rc k).pc) (t.rcWordAt k ((t.rc k).pc + 4))) { t with fcore := k, word := t.rcWordAt k (t.rc k).pc } := by
  have hc : (rcIsLong (t.rcWordAt k (t.rc k).pc) && !t.inProgram k ((t.rc k).pc + 4)) = false := by
    rcases hx with h | h <;> simp [h]
  unfold State.fetchRc
  simp only [hr, hp, hc, Bool.not_true, Bool.false_eq_true, if_false]

end Fetch

/-- Settles O57: the step of a free turn is what the turn's own fetch comes to, case by case. -/
theorem stepRunsDecoded : Obligations.StepRunsDecoded := by
  unfold Obligations.StepRunsDecoded
  intro s t u r k l n i a m p e
  refine ⟨State.takeTurn_cons, State.takeTurn_nil, fun ht hh => step_of_still ((State.fetch_of_takeTurn ht).trans (State.fetchTurn_held hh)), fun ht hh => ?_⟩
  have hf : s.fetch = _ := (State.fetch_of_takeTurn ht).trans (State.fetchTurn_free hh)
  refine ⟨?task, ?halted, ?idle, ?slot, ?noSlot, ?word, ?stopped, ?event, ?noEvent, ?pass⟩
  case task =>
    rintro rfl hr hw
    have hf := hf.trans (State.fetchTask_runs hr hw)
    exact ⟨fun hd => step_of_run (by rw [hf, State.fetchCell, hd]), fun hd => step_of_bad (by rw [hf, State.fetchCell, hd])⟩
  case halted => rintro rfl hw; exact step_of_still (hf.trans (State.fetchTask_stopped hw))
  case idle => rintro rfl hr hw; exact step_of_still (hf.trans (State.fetchTask_idle hr hw))
  case slot =>
    rintro rfl hr hw hp
    have hf := hf.trans (State.fetchSlot_runs hr hw hp)
    exact ⟨fun hd => step_of_run (by rw [hf, hd]), fun hd => step_of_bad (by rw [hf, hd])⟩
  case noSlot => rintro rfl h; exact step_of_still (hf.trans (State.fetchSlot_still h))
  case word =>
    rintro rfl hr
    refine ⟨fun hp hx => ?_, fun hp => step_of_still (hf.trans (State.fetchRc_outside hr hp)), fun hp hl hx => step_of_still (hf.trans (State.fetchRc_cut hr hp hl hx))⟩
    have hs := step_of_run (hf.trans (State.fetchRc_runs hr hp hx))
    exact ⟨fun hd => by rw [hs, decodeRc_ok hd], fun hd => by rw [hs, decodeRc_error hd]⟩
  case stopped => rintro rfl hr; exact step_of_still (hf.trans (State.fetchRc_stopped hr))
  case event => rintro rfl he; exact step_of_run (hf.trans (if_pos he))
  case noEvent => rintro rfl he; exact step_of_still (hf.trans (if_neg he))
  case pass => rintro rfl; exact step_of_still hf

end Sys2Proof.Machine
end

section
/-! The windows of an address (R82, R83): the local window, the isle window, and the windows that no load or store of a controller has. -/

namespace Sys2Proof.Machine

section Window
variable {k addr n align : Nat}

theorem halves_local (h : addr / 2 ^ 28 = 0) : halves k addr n align false =
    if spadSize k < addr + n then .error ⟨0x041, addr, 0, false⟩ else if addr % align ≠ 0 then .error ⟨0x042, addr, 0, false⟩ else .ok [⟨k, addr, n⟩] := by
  unfold halves
  rw [h]
  rfl

theorem halves_isle (h : addr / 2 ^ 28 = 1) (hk : k < managerCore) : halves k addr n align false =
    let t := isleOf k * 64 + addr / 2 ^ 22 % 64
    if spadSize t < addr % 2 ^ 22 + n then .error ⟨0x049, addr, 0, false⟩ else if addr % align ≠ 0 then .error ⟨0x04A, addr, 0, false⟩
    else .ok [⟨t, addr % 2 ^ 22, n⟩] := by
  unfold halves
  rw [h]
  dsimp only
  rw [if_neg (Nat.not_le.mpr hk)]
  rfl

theorem halves_isle_manager (h : addr / 2 ^ 28 = 1) (hk : managerCore ≤ k) : halves k addr n align false = .error ⟨0x04C, addr, 0, false⟩ := by
  unfold halves
  rw [h]
  exact if_pos hk

theorem halves_multicast (h : addr / 2 ^ 28 = 2) : halves k addr n align false = .error ⟨0x04C, addr, 0, false⟩ := by
  unfold halves
  rw [h]
  rfl

theorem halves_none (h : 3 ≤ addr / 2 ^ 28) : halves k addr n align false = .error ⟨0x044, addr, 0, false⟩ := by
  unfold halves
  split
  · omega
  · omega
  · omega
  · rfl

end Window

/-- Settles O26: window by window, then the bounds and the alignment. -/
theorem windows : Obligations.Windows := by
  unfold Obligations.Windows
  intro k addr n align t off
  have hl (h : addr < 2 ^ 28) : addr / 2 ^ 28 = 0 := Nat.div_eq_of_lt h
  refine ⟨fun h hb ha => ?_, fun h hb => ?_, fun h hb ha => ?_, fun h hk hb ha => ?_, fun h hk hb => ?_, fun h hk hb ha => ?_, halves_isle_manager, halves_multicast, halves_none⟩
  · rw [halves_local (hl h), if_neg (Nat.not_lt.mpr hb), if_neg (not_not_intro ha)]
  · rw [halves_local (hl h), if_pos hb]
  · rw [halves_local (hl h), if_neg (Nat.not_lt.mpr hb), if_pos ha]
  · exact (halves_isle h hk).trans ((if_neg (Nat.not_lt.mpr hb)).trans (if_neg (not_not_intro ha)))
  · exact (halves_isle h hk).trans (if_pos hb)
  · exact (halves_isle h hk).trans ((if_neg (Nat.not_lt.mpr hb)).trans (if_pos ha))

end Sys2Proof.Machine
end

section
/-! The race checker (R94 to R98): an access passes exactly when no word that it touches holds a record that it races with. -/

namespace Sys2Proof.Machine

section Check
variable {a : Agent} {writes : Bool} {kind size scope : Nat} {ws : List Nat}

theorem Agent.after_iff (r : AccRec) : a.after r = true ↔ a.key = r.key ∨ r.count < Clr.get a.clr r.key := by
  unfold Agent.after
  simp only [Bool.or_eq_true, decide_eq_true_eq]

theorem sameAtomic_iff (r : AccRec) : sameAtomic kind size scope r = true ↔ kind = 2 ∧ r.kind = 2 ∧ r.size = size ∧ r.scope = scope := by
  unfold sameAtomic
  simp only [Bool.and_eq_true, beq_iff_eq, and_assoc]

/-- A record that the checker reports is one that the access races with. -/
theorem AccRec.racesWith_iff (r : AccRec) : r.RacesWith a kind size scope ↔ (!(a.after r) && !(sameAtomic kind size scope r)) = true := by
  unfold AccRec.RacesWith
  simp only [Bool.and_eq_true, Bool.not_eq_true', ← Bool.not_eq_true, Agent.after_iff, sameAtomic_iff, not_or, Nat.not_lt, and_assoc, ne_eq, eq_comm (a := r.key)]

/-- A word races: one of its writes does or, for an access that writes, one of its reads (R94). -/
theorem raceWith_none_iff (w : WordRec) : raceWith a writes kind size scope w = none ↔
    ¬((∃ r ∈ w.writes, r.RacesWith a kind size scope) ∨ (writes = true ∧ ∃ r ∈ w.reads, r.RacesWith a kind size scope)) := by
  unfold raceWith
  rw [List.find?_eq_none]
  simp only [← AccRec.racesWith_iff, List.mem_append, List.mem_ite_nil_right]
  constructor
  · rintro h (⟨r, hr, race⟩ | ⟨hw, r, hr, race⟩)
    · exact h r (.inl hr) race
    · exact h r (.inr ⟨hw, hr⟩) race
  · rintro h r (hr | ⟨hw, hr⟩) race
    · exact h (.inl ⟨r, hr, race⟩)
    · exact h (.inr ⟨hw, r, hr, race⟩)

theorem Core.check_ok_iff (c : Core) : (∃ d, c.check a writes kind size scope ws = .ok d) ↔ ∀ w ∈ ws, raceWith a writes kind size scope (c.wordRec w) = none := by
  have free : ws.findSome? (fun w => (raceWith a writes kind size scope (c.wordRec w)).map (fun r => (w, r))) = none ↔ _ := List.findSome?_eq_none_iff
  simp only [Option.map_eq_none_iff] at free
  rw [← free]
  unfold Core.check
  cases ws.findSome? (fun w => (raceWith a writes kind size scope (c.wordRec w)).map (fun r => (w, r))) with
  | none => exact ⟨fun _ => rfl, fun _ => ⟨_, rfl⟩⟩
  | some r => exact ⟨fun ⟨d, h⟩ => (nomatch h), fun h => (nomatch h)⟩

/-- An access is checked without a race exactly when it touches no history's area and no word of it races (R88, R96, R126). -/
theorem State.check_ok_iff (s : State) (k : Nat) : (∃ c, s.check k a writes kind size scope ws = .ok c) ↔
    (∀ w ∈ ws, s.inArea k w = false) ∧ ∀ w ∈ ws, raceWith a writes kind size scope ((s.core k).wordRec w) = none := by
  have area : ws.find? (s.inArea k) = none ↔ ∀ w ∈ ws, s.inArea k w = false := by simp only [List.find?_eq_none, Bool.not_eq_true]
  rw [← area, ← Core.check_ok_iff]
  unfold State.check
  cases ws.find? (s.inArea k) with
  | none => exact ⟨fun h => ⟨rfl, h⟩, fun h => h.2⟩
  | some w => exact ⟨fun ⟨d, h⟩ => (nomatch h), fun h => (nomatch h.1)⟩

theorem State.check_error {s : State} {k : Nat} (h : ¬∃ c, s.check k a writes kind size scope ws = .ok c) : ∃ r, s.check k a writes kind size scope ws = .error r := by
  cases hc : s.check k a writes kind size scope ws with
  | ok c => exact absurd ⟨c, hc⟩ h
  | error r => exact ⟨r, rfl⟩

theorem State.storeAt_races {s : State} {core off : Nat} {bytes mask : List Byte} (h : ¬∃ c, s.check core a true 1 0 0 (wordsMasked off mask) = .ok c) :
    ∃ f, s.storeAt a core off bytes mask = (s, .error f) ∧ f.cause = 0x055 := by
  obtain ⟨r, hr⟩ := State.check_error h
  exact ⟨raceFail core r, by unfold State.storeAt; dsimp only; rw [hr], rfl⟩

theorem State.loadAt_races {s : State} {h : Half} (hc : ¬∃ c, s.check h.core a false 0 0 0 (wordsOf h.off h.n) = .ok c) :
    ∃ f, s.loadAt a h = (s, .error f) ∧ f.cause = 0x055 := by
  obtain ⟨r, hr⟩ := State.check_error hc
  exact ⟨raceFail h.core r, by unfold State.loadAt; rw [hr], rfl⟩

end Check

/-- Settles O49: the checker's search over the words and their records is the statement's quantifier. -/
theorem raceChecker : Obligations.RaceChecker := by
  unfold Obligations.RaceChecker
  intro s a core h bytes mask writes kind size scope ws area races
  have passes (writes : Bool) (kind size scope : Nat) : (∃ c, s.check core a writes kind size scope ws = .ok c) ↔ ∀ w ∈ ws, ¬races writes kind size scope w := by
    simp only [State.check_ok_iff, raceWith_none_iff]
    exact ⟨fun h => h.2, fun h => ⟨area, h⟩⟩
  have stops {writes : Bool} {kind size scope : Nat} (hr : ∃ w ∈ ws, races writes kind size scope w) : ¬∃ c, s.check core a writes kind size scope ws = .ok c := by
    obtain ⟨w, hw, race⟩ := hr
    exact fun hc => (passes ..).mp hc w hw race
  refine ⟨passes .., ?store, ?load⟩
  case store =>
    rintro rfl hr
    exact State.storeAt_races (stops hr)
  case load =>
    rintro rfl rfl hr
    exact State.loadAt_races (stops hr)

end Sys2Proof.Machine
end

section
/-! What the scratchpad accesses of a controller come to where none races (R90, R98 to R101, R242, R243). -/

namespace Sys2Proof.Machine

section Near
variable {s t v : State} {k hd core off n addr align : Nat} {h : Half}

/-! ### A controller that waits or waits no longer: what an access sees of it -/

theorem State.wordRec_modRc (s : State) (k j w : Nat) (f : Rc → Rc) : ((s.modRc k f).core j).wordRec w = (s.core j).wordRec w := by
  unfold State.modRc
  rw [State.core_modCore]
  split
  · next h => rw [h]; rfl
  · rfl

theorem State.ord_modRc (s : State) (k j g : Nat) (f : Rc → Rc) : (s.modRc k f).ord j g = s.ord j g := by
  unfold State.ord State.modRc
  rw [State.core_modCore]
  split
  · next h => rw [h]
  · rfl

theorem State.agent_modRc (s : State) (k j g : Nat) (f : Rc → Rc) : (s.modRc k f).agent j g = s.agent j g := by
  unfold State.agent
  rw [State.ord_modRc]

theorem State.NoRace.modRc {writes : Bool} {kind size scope : Nat} (hr : s.NoRace k hd core off n writes kind size scope) (j : Nat) (f : Rc → Rc) :
    (s.modRc j f).NoRace k hd core off n writes kind size scope := by
  unfold State.NoRace at hr ⊢
  rw [State.check_ok_iff] at hr ⊢
  rw [State.agent_modRc]
  simp only [State.wordRec_modRc]
  exact hr

/-- An access by a controller that waits no longer is one by the controller itself, and the end of its wait. -/
theorem Noted.ready {f : Rc → Rc} (hv : Noted (s.rcWaits false) v) (ht : RcTo v t f) (hf : ∀ r : Rc, f { r with waits := false } = { f r with waits := false }) :
    ∃ u, Noted s u ∧ RcTo u t (Rc.ready f) ∧ u.mem = v.mem := by
  have hk : v.fcore = s.fcore := hv.fcore
  have noted : Noted s (v.modRc s.fcore fun _ => s.rc s.fcore) := by
    refine ⟨?_, fun j => ?_, fun j => ?_⟩
    · rw [hv.rest]; rfl
    · calc _ = (v.core j).cells := by
            unfold State.modRc
            rw [State.core_modCore]
            split
            · next h => rw [h]
            · rfl
        _ = ((s.rcWaits false).core j).cells := hv.cells j
        _ = (s.core j).cells := by
            unfold State.rcWaits State.modRc
            rw [State.core_modCore]
            split
            · next h => rw [h]
            · rfl
    · rw [State.rc_modRc]
      split
      · next h => rw [h]
      · next h => rw [hv.rc, State.rcWaits, State.rc_modRc, if_neg h]
  have back : RcTo (v.modRc s.fcore fun _ => s.rc s.fcore) v (fun r => { r with waits := false }) := by
    refine ⟨⟨rfl, fun j hj => ?_, ?_⟩, ?_⟩
    · rw [State.modRc_fcore, hk] at hj
      unfold State.modRc
      rw [State.core_modCore, if_neg hj]
    · rw [State.modRc_fcore, hk]
      unfold State.modRc
      rw [State.core_modCore, if_pos rfl]
      rfl
    · rw [State.modRc_fcore, hk, State.rc_modRc, if_pos rfl, hv.rc, State.rcWaits, State.rc_modRc, if_pos rfl]
  have both := back.trans ht
  have same : f ∘ (fun r : Rc => { r with waits := false }) = Rc.ready f := funext hf
  exact ⟨_, noted, same ▸ both, rfl⟩

/-! ### Bytes written and no other -/

theorem State.Inv.writeN (hi : s.Inv) {A : Nat} {bytes : List Byte} (ht : t.mem = Memory.writeN s.mem A bytes) : Memory.readN t.mem A bytes.length = bytes ∧ MemBut s t A bytes.length := by
  refine ⟨?_, fun b hb => ?_⟩
  · rw [ht, Memory.readN_writeN hi]
  · rw [ht, Memory.read_writeN_outside hi bytes hb]

/-- What an access reads or writes, and then a change of its controller that ends its wait, is an instruction that reads, one that stores. -/
theorem State.reads_of_noted {i : Instr} {f : Rc → Rc} (he : exec i s = .next t) (hv : Noted (s.rcWaits false) v) (ht : RcTo v t f)
    (hf : ∀ r : Rc, f { r with waits := false } = { f r with waits := false }) (hm : v.mem = s.mem) : s.Reads i (Rc.ready f) := by
  obtain ⟨u, hn, hr, -⟩ := hv.ready ht hf
  exact ⟨u, t, he, hn, hr, ht.mem.trans hm⟩

theorem State.stores_of_noted {i : Instr} {f : Rc → Rc} {A x : Nat} (he : exec i s = .next t) (hv : Noted (s.rcWaits false) v) (ht : RcTo v t f)
    (hf : ∀ r : Rc, f { r with waits := false } = { f r with waits := false }) (hm : v.mem = Memory.writeN s.mem A (leBytes n x)) : s.Stores i (Rc.ready f) A n x := by
  obtain ⟨u, hn, hr, -⟩ := hv.ready ht hf
  refine ⟨u, t, he, hn, hr, fun hi => ?_⟩
  have hw := hi.writeN (ht.mem.trans hm)
  rwa [leBytes_length] at hw

/-! ### Addresses -/

theorem signExt_eq_toInt {n : Nat} (hn : 0 < n) (v : Nat) : signExt n v = (BitVec.ofNat n v).toInt := by
  have half : 2 ^ n = 2 * 2 ^ (n - 1) := by rw [← pow_succ', Nat.sub_one_add_one hn.ne']
  unfold signExt
  rw [BitVec.toInt_eq_toNat_cond, BitVec.toNat_ofNat]
  exact if_congr (by omega) rfl rfl

theorem rcAddr_eq (q o : Nat) : rcAddr q o = (((q : Int) + (BitVec.ofNat 13 o).toInt) % 2 ^ 32).toNat := by
  unfold rcAddr cut
  rw [signExt_eq_toInt (by decide)]
  rfl

/-- An access that may go where it is aligned may go there byte by byte. -/
theorem halves_unaligned (hh : halves k addr n align false = .ok [h]) : halves k addr n 1 false = .ok [h] := by
  have aligned : ¬addr % 1 ≠ 0 := by rw [Nat.mod_one]; exact fun h => h rfl
  unfold halves at hh ⊢
  split at hh
  · split at hh
    · cases hh
    · next hb => rw [if_neg hb, if_neg aligned]; split at hh; cases hh; exact hh
  · simp only [Bool.false_and, Bool.false_eq_true, if_false] at hh ⊢
    split at hh
    · cases hh
    · next hk =>
      split at hh
      · cases hh
      · next hb => rw [if_neg hk, if_neg hb, if_neg aligned]; split at hh; cases hh; exact hh
  · cases hh
  · cases hh

theorem State.rcBehind_eq (hh : halves s.fcore addr n align false = .ok [h]) : s.rcBehind addr n = s.behindOwn ⟨0, s.fcore, 8⟩ h.core h.off n := by
  have hn := halves_n hh
  unfold State.rcBehind State.touches
  rw [if_neg (halves_group hh), halves_unaligned hh, List.any_cons, List.any_nil, Bool.or_false, hn]

theorem Rc.farTo_off {r : Rc} (hf : bit r.far 32 = false) : r.farTo = none := by
  unfold Rc.farTo
  rw [hf]
  rfl

/-! ### LD and ST -/

theorem State.rcOrdered_free {f : State → State} (hh : halves s.fcore addr n align false = .ok [h]) (hb : s.free90 h.core h.off n) :
    s.rcOrdered addr n f = f (s.rcWaits false) := by
  unfold State.rcOrdered
  rw [State.rcBehind_eq hh, if_neg (by rw [hb]; exact Bool.false_ne_true)]

theorem State.rcOrdered_behind {f : State → State} (hh : halves s.fcore addr n align false = .ok [h]) (hb : ¬s.free90 h.core h.off n) :
    s.rcOrdered addr n f = s.rcWaits true := by
  unfold State.rcOrdered
  rw [State.rcBehind_eq hh, if_pos (Bool.not_eq_false _ ▸ hb)]

section Access
variable {d a o : Nat} (hf : bit (s.rc s.fcore).far 32 = false) (hh : halves s.fcore (rcAddr (s.q s.fcore a) o) n n false = .ok [h])
include hf hh

theorem State.rcLoad_ok {b : List Byte} {g : List Bool} (hb : s.free90 h.core h.off n)
    (hl : (s.rcWaits false).load ((s.rcWaits false).agent s.fcore 8) s.fcore (rcAddr (s.q s.fcore a) o) n n false = (v, .ok (b, g))) :
    s.rcLoad d a n o = (v.setQ s.fcore d (leNat b)).rcNext s.fcore 4 := by
  unfold State.rcLoad
  simp only [Rc.farTo_off hf, State.rcOrdered_free hh hb, hl]

theorem State.rcLoad_behind (hb : ¬s.free90 h.core h.off n) : s.rcLoad d a n o = s.rcWaits true := by
  unfold State.rcLoad
  simp only [Rc.farTo_off hf, State.rcOrdered_behind hh hb]

theorem State.rcStore_ok (hb : s.free90 h.core h.off n)
    (hl : (s.rcWaits false).store ((s.rcWaits false).agent s.fcore 8) s.fcore (rcAddr (s.q s.fcore a) o) (leBytes n (s.q s.fcore d)) (List.replicate n 255) n false = (v, .ok ())) :
    s.rcStore d a n o = v.rcNext s.fcore 4 := by
  unfold State.rcStore
  simp only [Rc.farTo_off hf, State.rcOrdered_free hh hb, hl]

theorem State.rcStore_behind (hb : ¬s.free90 h.core h.off n) : s.rcStore d a n o = s.rcWaits true := by
  unfold State.rcStore
  simp only [Rc.farTo_off hf, State.rcOrdered_behind hh hb]

end Access

end Near

/-- Settles O25: the access is that of the controller which no longer waits, without a race; one behind the controller's own far access waits. -/
theorem rcMemory : Obligations.RcMemory := by
  unfold Obligations.RcMemory
  intro s d a z o h hz n addr A far hh
  have address : rcAddr (s.q s.fcore a) o = addr := by rw [rcAddr_eq, State.q_eq]
  have hn : h.n = n := halves_n hh
  rw [← address] at hh
  refine ⟨fun free => ⟨fun race => ?reads, fun race => ?stores⟩, fun behind => ⟨?waitsLoad, ?waitsStore⟩⟩
  case reads =>
    obtain ⟨v, g, hl, hv, hm⟩ := State.load_ok hh (s := s.rcWaits false) (k := s.fcore) (hd := 8) (by rw [hn]; exact race.modRc _ _)
    rw [hn] at hl
    have ends := RcTo.setQ_next v d (Memory.readNat s.mem A n) 4
    rw [show v.fcore = s.fcore from hv.fcore] at ends
    exact State.reads_of_noted (congrArg Host.Outcome.next (State.rcLoad_ok far hh free hl)) hv ends (fun _ => rfl) hm
  case stores =>
    have len : (leBytes n (s.q s.fcore d)).length = n := leBytes_length ..
    have written := State.store_ok (s := s.rcWaits false) (k := s.fcore) (hd := 8) (addr := rcAddr (s.q s.fcore a) o) (al := n) (h := h) (bytes := leBytes n (s.q s.fcore d))
    rw [len] at written
    obtain ⟨v, hl, hv, hm⟩ := written (Nat.two_pow_pos _) hh (race.modRc _ _)
    have ends := RcTo.next v 4
    rw [show v.fcore = s.fcore from hv.fcore] at ends
    rw [State.q_eq] at hm
    exact State.stores_of_noted (congrArg Host.Outcome.next (State.rcStore_ok far hh free hl)) hv ends (fun _ => rfl) hm
  case waitsLoad => exact ⟨_, congrArg Host.Outcome.next (State.rcLoad_behind far hh behind), RcTo.modRc s _⟩
  case waitsStore => exact ⟨_, congrArg Host.Outcome.next (State.rcStore_behind far hh behind), RcTo.modRc s _⟩

end Sys2Proof.Machine
end

section
/-! Atomics of a controller (R98 to R101, R140, R243): what an operation writes, over words of w bits, and the instruction that performs it. -/

namespace Sys2Proof.Machine

/-! ### What an operation writes -/

section Word
variable {w n : Nat} (hw : w = 8 * n) (old x : BitVec w)
include hw

/-- The operations that always write (R140): swap and store, add, minimum, maximum, and, or, exclusive or. -/
theorem atomicNew_writes (hp : 0 < w) (cmp : Nat) (p : Nat × BitVec w)
    (h : p ∈ [(1, x), (2, x), (3, old + x), (4, if x.slt old then x else old), (5, if old.slt x then x else old), (6, old &&& x), (7, old ||| x), (8, old ^^^ x)]) :
    atomicNew p.1 n old.toNat x.toNat cmp = some p.2.toNat := by
  have signed (v : BitVec w) : signExt w v.toNat = v.toInt := by rw [signExt_eq_toInt hp, BitVec.ofNat_toNat, BitVec.setWidth_eq]
  simp only [List.mem_cons, List.not_mem_nil, or_false] at h
  unfold atomicNew
  rw [← hw]
  obtain rfl | rfl | rfl | rfl | rfl | rfl | rfl | rfl := h
  · rfl
  · rfl
  · exact congrArg some (BitVec.toNat_add old x).symm
  · simp only [signed, BitVec.slt, decide_eq_true_eq, apply_ite BitVec.toNat]
  · simp only [signed, BitVec.slt, decide_eq_true_eq, apply_ite BitVec.toNat]
  · exact congrArg some (BitVec.toNat_and old x).symm
  · exact congrArg some (BitVec.toNat_or old x).symm
  · exact congrArg some (BitVec.toNat_xor old x).symm

omit hw in
/-- A compare-and-swap writes where the compare holds (R192, R243). -/
theorem atomicNew_cas (cmp : BitVec w) : atomicNew 9 n old.toNat x.toNat cmp.toNat = if old = cmp then some x.toNat else none :=
  if_congr BitVec.toNat_inj rfl rfl

end Word

/-! ### AMO and CAS -/

/-- A relaxed atomic of a controller that goes to scratchpad, in a scope that covers both parties, and waits for nothing. -/
theorem State.rcAtomic_near {s v : State} {d a b z scope op n old : Nat} {h : Half} (hn : (if z = 1 then 8 else 4) = n) (hop : op < 10) (hf : bit (s.rc s.fcore).far 32 = false)
    (hh : halves s.fcore (s.q s.fcore a % 2 ^ 32) n 1 false = .ok [h]) (ha : s.q s.fcore a % 2 ^ 32 % n = 0) (hs : covers scope 0 s.fcore 0 h.core = true) (hb : s.free90 h.core h.off n)
    (hp : (s.rcWaits false).atomicBy s.fcore 8 h.core h.off n op (s.q s.fcore b % 2 ^ (8 * n)) (s.q s.fcore d % 2 ^ (8 * n)) 0 scope = (v, .ok old)) :
    s.rcAtomic d a b z 0 scope op = (v.setQ s.fcore d old).rcNext s.fcore 4 := by
  have free : (s.rcWaits false).behindOwn ⟨0, s.fcore, 8⟩ h.core h.off n = false := hb
  have far : ((s.rcWaits false).rc s.fcore).farTo = none := by
    rw [State.rcWaits, State.rc_modRc, if_pos rfl]
    exact Rc.farTo_off hf
  unfold State.rcAtomic
  simp only [hn, Nat.not_le.mpr hop, Nat.zero_div, Nat.zero_mod, Nat.zero_ne_one, false_and, if_false, far, hh, ha, hs, free, hp, ne_eq, not_true, Bool.not_true, Bool.false_eq_true]

section Atomic
variable {s : State} {i : Instr} {d a b z scope op n w : Nat} {h : Half}

/-- What an atomic of a controller does where it does not race: it reads the old value and, where the operation gives a new one, writes it. -/
theorem State.rcAtomic_performs (he : exec i s = .next (s.rcAtomic d a b z 0 scope op)) (hn : (if z = 1 then 8 else 4) = n) (hop : op < 10) (hf : bit (s.rc s.fcore).far 32 = false)
    (hh : halves s.fcore (s.q s.fcore a % 2 ^ 32) n 1 false = .ok [h]) (ha : s.q s.fcore a % 2 ^ 32 % n = 0) (hs : covers scope 0 s.fcore 0 h.core = true) (hb : s.free90 h.core h.off n)
    (hr : (s.ord s.fcore 8).frel = none) {new : Option Nat}
    (hnew : atomicNew op n (Memory.readNat s.mem (spadBase h.core + h.off) n) (s.q s.fcore b % 2 ^ (8 * n)) (s.q s.fcore d % 2 ^ (8 * n)) = new)
    (race : s.NoRace s.fcore 8 h.core h.off n new.isSome 2 n scope) :
    let gets := Rc.ready (Rc.put d (BitVec.ofNat 64 (Memory.readNat s.mem (spadBase h.core + h.off) n)) 4)
    (new = none → s.Reads i gets) ∧ ∀ x, new = some x → s.Stores i gets (spadBase h.core + h.off) n x := by
  obtain ⟨v, hp, hv, hm⟩ := State.atomicBy_ok (s := s.rcWaits false) (k := s.fcore) (hd := 8) (core := h.core) (off := h.off) (n := n) (op := op)
    (x := s.q s.fcore b % 2 ^ (8 * n)) (cmp := s.q s.fcore d % 2 ^ (8 * n)) (scope := scope) (by rw [State.rcWaits, State.ord_modRc, hr])
    (by rw [show (s.rcWaits false).mem = s.mem from rfl, hnew]; exact race.modRc _ _)
  rw [show (s.rcWaits false).mem = s.mem from rfl] at hp hm
  rw [hnew] at hm
  have run := he.trans (congrArg _ (State.rcAtomic_near hn hop hf hh ha hs hb hp))
  have ends := RcTo.setQ_next v d (Memory.readNat s.mem (spadBase h.core + h.off) n) 4
  rw [show v.fcore = s.fcore from hv.fcore] at ends
  refine ⟨?_, ?_⟩
  · rintro rfl
    exact State.reads_of_noted run hv ends (fun _ => rfl) hm
  · rintro x rfl
    exact State.stores_of_noted run hv ends (fun _ => rfl) hm

end Atomic

/-- The width of an atomic, which z codes, in bits and in bytes (R243). -/
theorem atomicWidth (z : Nat) : let w := if z = 1 then 64 else 32
    w = 8 * (w / 8) ∧ (if z = 1 then 8 else 4) = w / 8 ∧ 0 < w := by
  dsimp only
  split_ifs <;> decide

/-- Settles O27: each operation on words of w bits is the one on their numbers, and writes where that gives a number. -/
theorem rcAtomics : Obligations.RcAtomics := by
  unfold Obligations.RcAtomics
  intro s d a b z sc h hz w addr A far hh ha hs hr hb old x gets
  obtain ⟨hw, hn, wpos⟩ : w = 8 * (w / 8) ∧ (if z = 1 then 8 else 4) = w / 8 ∧ 0 < w := atomicWidth z
  have number : Memory.readNat s.mem A (w / 8) = old.toNat := by
    rw [BitVec.toNat_ofNat]
    refine (Nat.mod_eq_of_lt ?_).symm
    conv_rhs => rw [hw]
    exact Memory.readNat_lt ..
  have operand (j : Nat) : s.q s.fcore j % 2 ^ (8 * (w / 8)) = ((s.qv j).setWidth w).toNat := by rw [← hw, State.q_eq, BitVec.toNat_setWidth]
  have result : gets = Rc.ready (Rc.put d (BitVec.ofNat 64 (Memory.readNat s.mem A (w / 8))) 4) := by rw [number, BitVec.ofNat_toNat]
  rw [← show s.q s.fcore a % 2 ^ 32 = addr from by rw [State.q_eq]] at hh ha
  have acts {i : Instr} {op : Nat} (he : exec i s = .next (s.rcAtomic d a b z 0 sc op)) (hop : op < 10) {new : Option Nat}
      (hnew : atomicNew op (w / 8) old.toNat x.toNat ((s.qv d).setWidth w).toNat = new) (race : s.NoRace s.fcore 8 h.core h.off (w / 8) new.isSome 2 (w / 8) sc) :
      (new = none → s.Reads i gets) ∧ ∀ y, new = some y → s.Stores i gets A (w / 8) y := by
    rw [result]
    refine State.rcAtomic_performs he hn hop far hh ha hs hb hr ?_ race
    rw [operand, operand, ← hnew, ← number]
  refine ⟨fun race => ⟨?load, fun ne => ?fails⟩, fun race => ⟨fun p hp => ?writes, fun eq => ?swaps⟩⟩
  case load => exact (acts (op := 0) (new := none) rfl (by decide) rfl race).1 rfl
  case fails =>
    have new := (atomicNew_cas (n := w / 8) old x ((s.qv d).setWidth w)).trans (if_neg ne)
    exact (acts rfl (by decide) new race).1 rfl
  case writes =>
    have new := atomicNew_writes hw old x wpos ((s.qv d).setWidth w).toNat p hp
    have ops : ∀ j ∈ [1, 2, 3, 4, 5, 6, 7, 8], j ≠ 9 ∧ j < 10 := by decide
    have op : p.1 ≠ 9 ∧ p.1 < 10 := ops p.1 (List.mem_map_of_mem (f := Prod.fst) hp)
    exact (acts (i := .rcAmo d a b z 0 sc p.1) (congrArg Host.Outcome.next (if_neg op.1)) op.2 new race).2 _ rfl
  case swaps =>
    have new := (atomicNew_cas (n := w / 8) old x ((s.qv d).setWidth w)).trans (if_pos eq)
    exact (acts rfl (by decide) new race).2 _ rfl

end Sys2Proof.Machine
end

section
/-! What the requests of a port do as they perform: the transfer of a store, the token of a release (R92, R189, R190, R193, R197). -/

namespace Sys2Proof.Machine

/-! ### Masked bytes -/

theorem Memory.read_writeMasked_outside {m : Memory} (hw : Memory.wf m = true) (bytes mask : List Byte) {a j : Nat} (hj : j < a ∨ a + bytes.length ≤ j) :
    Memory.read (Memory.writeMasked m a bytes mask) j = Memory.read m j := by
  induction bytes generalizing m a mask with
  | nil => cases mask <;> rfl
  | cons b bytes ih =>
    cases mask with
    | nil => rfl
    | cons k mask =>
      rw [List.length_cons] at hj
      unfold Memory.writeMasked
      split
      · exact ih hw mask (by omega)
      · rw [ih (Memory.wf_write hw _ _) mask (by omega), Memory.read_write_other hw _ (by omega)]

theorem tokenImage_length (p : Bool) (r : Reg) : (tokenImage p r).1.length = transferBytes p r.fmt ∧ (tokenImage p r).2.length = transferBytes p r.fmt := by
  unfold tokenImage transferBytes
  cases p
  · exact ⟨leBytes_length .., leBytes_length ..⟩
  · exact ⟨leBytes_length .., leBytes_length ..⟩

section Store
variable {s t : State} {k hd addr n align core off : Nat} {tok : Bool} {h : Half} {bytes mask : List Byte}

/-- An access that goes to one place goes there whole. -/
theorem halves_one_n (hh : halves k addr n align tok = .ok [h]) : h.n = n := by
  unfold halves at hh
  split at hh
  · split at hh
    · cases hh
    · split at hh
      · cases hh
      · cases hh; rfl
  · dsimp only at hh
    split at hh
    · cases hh
    · split at hh
      · split at hh
        · cases hh
        · split at hh <;> cases hh
      · split at hh
        · cases hh
        · split at hh
          · cases hh
          · cases hh; rfl
  · cases hh
  · cases hh

/-- A masked store without a race (R189 item 2). -/
theorem State.storeAt_masked (hc : ∃ c, s.check core (s.agent k hd) true 1 0 0 (wordsMasked off mask) = .ok c) :
    ∃ u, s.storeAt (s.agent k hd) core off bytes mask = (u, .ok ()) ∧ Noted s u ∧ u.mem = Memory.writeMasked s.mem (spadBase core + off) bytes mask := by
  obtain ⟨c, hc⟩ := hc
  unfold State.storeAt
  dsimp only
  rw [hc]
  exact ⟨_, rfl, (Noted.setCore s core (c.touchLines _) (State.check_cells (d := c) hc) (State.check_rc (d := c) hc)).trans (.withMem _ _), rfl⟩

theorem State.store_masked (hh : halves k addr n align tok = .ok [h]) (hb : bytes.length = n) (hm : mask.length = n)
    (hc : ∃ c, s.check h.core (s.agent k hd) true 1 0 0 (wordsMasked h.off mask) = .ok c) :
    ∃ u, s.store (s.agent k hd) k addr bytes mask align tok = (u, .ok ()) ∧ Noted s u ∧ u.mem = Memory.writeMasked s.mem (spadBase h.core + h.off) bytes mask := by
  obtain ⟨u, hs, noted, hmem⟩ := State.storeAt_masked (bytes := bytes) hc
  refine ⟨u, ?_, noted, hmem⟩
  have whole : bytes.take h.n = bytes ∧ mask.take h.n = mask := by
    rw [halves_one_n hh]
    exact ⟨List.take_of_length_le hb.le, List.take_of_length_le hm.le⟩
  unfold State.store
  rw [if_neg (halves_group hh), hb, hh]
  simp only [List.foldl_cons, List.foldl_nil, List.drop_zero, whole.1, whole.2, hs]
  rfl

/-! ### What a store leaves of the registers -/

theorem Noted.sameRegs (hn : Noted s t) : SameRegs s t := by
  have cell (k l : Nat) : t.cell k l = s.cell k l := by unfold State.cell; rw [hn.cells]
  exact ⟨fun k l => by rw [cell], fun k l => by rw [cell], fun k l x => by unfold State.ctx; rw [cell], fun k l x => by unfold State.ctx; rw [cell], fun k => by rw [hn.rc]⟩

theorem SameRegs.cellPoison (s : State) (k l x origin : Nat) : SameRegs s (s.cellPoison k l x origin) := by
  have noted : SameRegs s (s.notePoison (s.leadOf k) origin) := .modRc _ _ _ (fun _ => rfl)
  unfold State.cellPoison
  dsimp only
  split
  · have posted : SameRegs _ ((s.notePoison (s.leadOf k) origin).postPoisoned k (agentId k l) origin) := noted.trans (.of_cores rfl)
    exact posted.trans (.modCtx _ _ _ _ _ (fun _ => rfl) (fun _ => rfl))
  · exact noted

theorem SameRegs.sinkPoison (s : State) (k l x : Nat) (d : Reg) : SameRegs s (s.sinkPoison k l x d) := by
  unfold State.sinkPoison
  split
  · exact .cellPoison _ _ _ _ _
  · exact .refl s

/-- A store's sink changes no byte and no register: what a store writes is what stands after it (R189 item 3). -/
theorem State.stored_spec {u : State} {A : Nat} (hi : s.Inv) (hn : Noted s u) (hm : u.mem = Memory.writeMasked s.mem A bytes mask) (k l x : Nat) (d : Reg) :
    (u.sinkPoison k l x d).mem = Memory.writeMasked s.mem A bytes mask ∧ SameRegs s (u.sinkPoison k l x d) ∧ MemBut s (u.sinkPoison k l x d) A bytes.length := by
  have mem := (State.sinkPoison_mem u k l x d).trans hm
  exact ⟨mem, hn.sameRegs.trans (.sinkPoison u k l x d), fun b hb => by rw [mem, Memory.read_writeMasked_outside hi bytes mask hb]⟩

end Store

/-! ### The requests -/

section Requests
variable {s u : State} {k l x : Nat} {p : Bool} {d a : Reg}

theorem State.doSts_invalid (ha : okAt a 0 = false) : s.doSts k l x p false d a = (s, .ok none) := by
  unfold State.doSts
  rw [ha]
  rfl

/-- A store that does not straddle performs whole (R85, R190). -/
theorem State.doSts_whole {h : Half} (ha : okAt a 0 = true) (hh : halves k (laneOf a 0) (transferBytes p d.fmt) (packAlign p d.fmt) true = .ok [h])
    (hs : s.store (s.agent k (handleOf l)) k (laneOf a 0) (tokenImage p d).1 (tokenImage p d).2 (packAlign p d.fmt) true = (u, .ok ())) :
    s.doSts k l x p false d a = (u.sinkPoison k l x d, .ok none) := by
  unfold State.doSts
  simp only [ha, hh, halfStores, halves_group hh, hs, Bool.false_eq_true, if_false, Bool.not_true]

theorem State.doRput_ok {ring slot j : Nat} (hs : s.storeAt (s.agent k (handleOf l)) (s.leadOf k) ((s.ringEntry (s.leadOf k) ring).1 + slot * (s.ringEntry (s.leadOf k) ring).2.2 + 64 * j)
    (tokenImage false d).1 (tokenImage false d).2 = (u, .ok ())) : s.doRput k l x d ring slot j = (u.sinkPoison k l x d, .ok ()) := by
  unfold State.doRput
  simp only [hs]

theorem State.cell_setOrd (s : State) (k h : Nat) (o : Ord) (i j : Nat) : (s.setOrd k h o).cell i j = s.cell i j := by
  unfold State.cell
  rw [(Noted.setOrd s k h o).cells]

theorem State.ord_modCell (s : State) (k l : Nat) (f : Cell → Cell) (i h : Nat) : (s.modCell k l f).ord i h = s.ord i h := by
  unfold State.ord State.modCell State.setCell
  rw [State.core_modCore]
  split
  · next hi => rw [hi]
  · rfl

end Requests

/-- Settles O48: a store that does not race writes its image under its mask, and its sink touches no byte; a release of a cell raises its count. -/
theorem requestEffects : Obligations.RequestEffects := by
  unfold Obligations.RequestEffects
  intro s k l x p d a h ring slot j target id hd img
  refine ⟨fun ha hh hc hi => ?sts, State.doSts_invalid, fun hc hi => ?rput, ?ordt⟩
  case sts =>
    obtain ⟨len, masks⟩ := tokenImage_length p d
    obtain ⟨u, hs, noted, hm⟩ := State.store_masked hh len masks hc
    obtain ⟨mem, regs, but⟩ := State.stored_spec hi noted hm k l x d
    exact ⟨_, State.doSts_whole ha hh hs, mem, regs, len ▸ but⟩
  case rput =>
    obtain ⟨u, hs, noted, hm⟩ := State.storeAt_masked (bytes := (tokenImage false d).1) hc
    obtain ⟨mem, regs, but⟩ := State.stored_spec hi noted hm k l x d
    have len : (tokenImage false d).1.length = 64 := (tokenImage_length false d).1
    exact ⟨_, State.doRput_ok hs, mem, regs, len ▸ but⟩
  case ordt =>
    refine ⟨_, rfl, ?_, rfl, (SameRegs.cellRelease s k l).trans (.modCell _ _ _ _ (fun _ => rfl) (fun _ => rfl) (fun _ _ => rfl) (fun _ _ => rfl)), ?_⟩
    · rw [State.cell_modCell, if_pos ⟨rfl, rfl⟩]
      dsimp only
      rw [State.cellRelease, State.release, State.cell_setOrd]
    · rw [State.ord_modCell, State.cellRelease, State.release, State.ord_setOrd, if_pos rfl]

end Sys2Proof.Machine
end

section
/-! How a request of a cell enters its port, and whether it leaves at once (R89, R92, R93, R227). -/

namespace Sys2Proof.Machine

variable {s t u : State} {e : Env} {k l : Nat} {h : Held} {req : MemReq}

/-! ### What another state of one cell leaves of the others, of memory and of the agents' accesses -/

section Only
variable (ho : OnlyCell s t k l)
include ho

theorem OnlyCell.atomsOut (j g : Nat) : t.atomsOut j g = s.atomsOut j g := by
  unfold State.atomsOut
  by_cases hj : j = k
  · rw [hj, ho.core]
  · rw [ho.cores j hj]

theorem OnlyCell.remoteOut (j g : Nat) : t.remoteOut j g = s.remoteOut j g := by
  unfold State.remoteOut
  by_cases hj : j = k
  · rw [hj, ho.core]
  · rw [ho.cores j hj]

theorem OnlyCell.reqTouches (j : Nat) (r : MemReq) : t.reqTouches j r = s.reqTouches j r := by
  rw [ho.rest]
  cases r <;> rfl

theorem OnlyCell.mustWait (j g : Nat) (hs : List Half) : t.mustWait j g hs = s.mustWait j g hs := by
  unfold State.mustWait State.behindOwn
  rw [ho.atomsOut, ho.rest]

end Only

/-! ### The request that has entered -/

/-- Nothing holds a request of an agent back: neither an access of its own (R90, R192) nor, where it releases, a remote store (R100). -/
def State.mayLeave (s : State) (e : Env) (r : MemReq) : Prop := s.flows e (s.reqTouches e.core r) ∧ (isRelease r = true → s.remoteOut e.core (handleOf e.cell) = 0)

theorem State.only_asked (s : State) (e : Env) (draw : Bool) (h : Held) : OnlyCell s (s.asked e draw h) e.core e.cell := by
  unfold State.asked State.advance
  exact (((s.only_drawn e draw).trans (State.only_modCell ..)).trans (State.only_modCell ..)).trans (State.only_modCell ..)

theorem State.drawn_cell (s : State) (e : Env) (draw : Bool) :
    ((s.drawn e draw).cell e.core e.cell).held = (s.cell e.core e.cell).held ∧ ((s.drawn e draw).cell e.core e.cell).ordClr = (s.cell e.core e.cell).ordClr := by
  unfold State.drawn
  split
  · rw [State.cell_modCtx, if_pos ⟨rfl, rfl⟩]
    exact ⟨rfl, rfl⟩
  · exact ⟨rfl, rfl⟩

theorem State.asked_cell (s : State) (e : Env) (draw : Bool) (h : Held) :
    ((s.asked e draw h).cell e.core e.cell).held = (s.cell e.core e.cell).held ++ [h] ∧ ((s.asked e draw h).cell e.core e.cell).ordClr = (s.cell e.core e.cell).ordClr := by
  obtain ⟨held, clr⟩ := s.drawn_cell e draw
  unfold State.asked State.advance
  simp only [State.cell_modCell, and_self, if_true, held, clr]

theorem State.drawn_time (s : State) (e : Env) (draw : Bool) : (s.drawn e draw).time = s.time := by rw [(s.only_drawn e draw).rest]

/-- A request of operands that the instruction accepts, before which none stands, enters the port, which then lets it leave. -/
theorem State.request_enters {cs : List Nat} {need : Option Nat} {f : Env → List Reg → Except Nat MemReq} (hr : s.Runs e) (hh : (s.cell e.core e.cell).held = [])
    (hf : (s.readAll e cs).bind (f e) = .ok req) : s.request cs need f = (s.asked e (isDrawing 0 cs) (s.heldReq e need req)).drain e.core e.cell := by
  unfold State.request
  rw [hr.withTask, hf]
  dsimp only
  rw [if_neg (by rw [hh]; exact fun h => absurd h.2 (by decide))]
  unfold State.enqueue
  rw [State.drawn_time]
  rfl

/-! ### Leaving -/

theorem State.leaves_iff (ho : OnlyCell s t e.core e.cell) (hn : h.need = none) (hd : h.hold = none) : t.leaves e.core e.cell h = true ↔ s.mayLeave e h.req := by
  unfold State.leaves State.mayLeave State.flows Cell.ready?
  rw [ho.reqTouches, ho.mustWait, ho.remoteOut, hn, hd]
  cases isRelease h.req <;> simp [and_comm]

section Port
variable (hh : (s.cell k l).held = [h])
include hh

theorem State.nextHeld_hist (hi : isHist h.req = true) : s.nextHeld k l = none := by
  unfold State.nextHeld
  simp only [hh, hi, if_true]

theorem State.nextHeld_leaves (hi : isHist h.req = false) (hl : s.leaves k l h = true) : s.nextHeld k l = some 0 := by
  unfold State.nextHeld
  simp only [hh, hi, hl, Bool.false_eq_true, if_false, if_true]

theorem State.nextHeld_waits (hl : ¬s.leaves k l h = true) : s.nextHeld k l = none := by
  unfold State.nextHeld
  dsimp only
  rw [hh]
  dsimp only
  rw [if_neg hl]
  have others : ∀ p : Nat → Bool, p 0 = false → (List.range [h].length).find? p = none := fun p hp => by simp [List.range_succ, hp]
  split
  · rfl
  · split
    · rfl
    · exact others _ (by simp [hl])

theorem State.drain_stays (hn : s.nextHeld k l = none) : s.drain k l = s := by
  unfold State.drain State.drainPort
  rw [hh]
  dsimp only
  rw [hn]

omit hh in
theorem State.modCell_congr {f g : Cell → Cell} (hfg : f (u.cell k l) = g (u.cell k l)) : u.modCell k l f = u.modCell k l g := by
  unfold State.modCell
  rw [hfg]

/-- The one request of a port performs and leaves, or leaves its other half. -/
theorem State.drain_performs {r : Option MemReq} (hi : isHist h.req = false) (hn : h.need = none) (hl : s.leaves k l h = true) (hp : s.perform k l h = (u, .ok r))
    (hu : (u.cell k l).held = [h]) :
    s.drain k l = u.modCell k l (fun c => { c with held := (r.map fun q => { h with req := q, need := none }).toList }) := by
  have took : s.takeOrd k l h.need = (s, .ok ()) := by rw [hn]; rfl
  have step : s.drain k l = s.drainPort k l 2 := by unfold State.drain; rw [hh]; rfl
  rw [step]
  unfold State.drainPort
  simp only [State.nextHeld_leaves hh hi hl, hh, List.getElem?_cons_zero, took, hp]
  cases r with
  | some q => exact State.modCell_congr (by rw [hu]; rfl)
  | none =>
    have empty : ((u.modCell k l fun c => { c with held := c.held.eraseIdx 0 }).cell k l).held = [] := by
      rw [State.cell_modCell, if_pos ⟨rfl, rfl⟩, hu]
      rfl
    have gone := State.drain_none empty
    unfold State.drain at gone
    rw [empty] at gone
    exact gone.trans (State.modCell_congr (by rw [hu]; rfl))

end Port

end Sys2Proof.Machine
end

section
/-! The instructions that make a request (R89, R92, R189 to R198, R225 to R235). -/

namespace Sys2Proof.Machine

variable {s : State} {e : Env} {i : Instr} {cs : List Nat} {f : Env → List Reg → Except Nat MemReq} {req : MemReq} {n : Option Nat}

section Asks
variable (hr : s.Runs e) (hh : (s.cell e.core e.cell).held = []) (he : exec i s = .next (s.request cs n f)) (hf : (s.readAll e cs).bind (f e) = .ok req)
include hr hh he hf

/-- The instruction leaves what its port does with the one request. -/
theorem State.exec_asks : exec i s = .next ((s.asked e (isDrawing 0 cs) (s.heldReq e n req)).drain e.core e.cell) := he.trans (congrArg _ (State.request_enters hr hh hf))

omit hr he hf in
theorem State.asked_held (draw : Bool) (h : Held) : ((s.asked e draw h).cell e.core e.cell).held = [h] := by rw [(s.asked_cell e draw h).1, hh]; rfl

theorem State.holds_of_waits (hw : ¬(s.asked e (isDrawing 0 cs) (s.heldReq e n req)).leaves e.core e.cell (s.heldReq e n req) = true) :
    s.Holds e i (isDrawing 0 cs) (s.heldReq e n req) := by
  have held := State.asked_held hh (isDrawing 0 cs) (s.heldReq e n req)
  exact (State.exec_asks hr hh he hf).trans (congrArg _ (State.drain_stays held (State.nextHeld_waits held hw)))

theorem State.holds_of_hist (hi : isHist req = true) : s.Holds e i (isDrawing 0 cs) (s.heldReq e n req) := by
  have held := State.asked_held hh (isDrawing 0 cs) (s.heldReq e n req)
  exact (State.exec_asks hr hh he hf).trans (congrArg _ (State.drain_stays held (State.nextHeld_hist held hi)))

/-- A request that waits for an ordering token which has not come stands in the port (R92). -/
theorem State.holds_of_order {o : Nat} (hn : n = some o) (ho : (s.cell e.core e.cell).ordCount o = 0) : s.Holds e i (isDrawing 0 cs) (s.heldReq e n req) := by
  refine State.holds_of_waits hr hh he hf ?_
  have none : ((s.asked e (isDrawing 0 cs) (s.heldReq e n req)).cell e.core e.cell).ordCount o = 0 := by
    unfold Cell.ordCount at ho ⊢
    rw [(s.asked_cell e _ _).2, ho]
  subst hn
  unfold State.leaves Cell.ready? State.heldReq
  simp only [State.heldReq] at none
  simp [none]

omit he in
/-- One that waits for none, and that nothing holds back, performs at once. -/
theorem State.request_performs {u : State} {r : Option MemReq} (hn : n = none) (hi : isHist req = false) (go : s.mayLeave e req)
    (hp : (s.asked e (isDrawing 0 cs) (s.heldReq e n req)).perform e.core e.cell (s.heldReq e n req) = (u, .ok r)) (hu : (u.cell e.core e.cell).held = [s.heldReq e n req]) :
    s.request cs n f = u.modCell e.core e.cell (fun c => { c with held := (r.map fun q => { s.heldReq e n req with req := q, need := none }).toList }) := by
  have leaves := State.leaves_iff (h := s.heldReq e n req) (s.only_asked e (isDrawing 0 cs) (s.heldReq e n req)) hn rfl
  exact (State.request_enters hr hh hf).trans (State.drain_performs (State.asked_held hh _ _) hi hn (leaves.mpr go) hp hu)

/-- One that waits for none performs at once where nothing holds it back, and stands in the port where something does. -/
theorem State.asks_of_free (hn : n = none) (hi : isHist req = false) :
    (s.mayLeave e req → s.Performs e i (isDrawing 0 cs) (s.heldReq e n req)) ∧ (¬s.mayLeave e req → s.Holds e i (isDrawing 0 cs) (s.heldReq e n req)) := by
  have leaves := State.leaves_iff (h := s.heldReq e n req) (s.only_asked e (isDrawing 0 cs) (s.heldReq e n req)) hn rfl
  refine ⟨fun go u r hp hu => ?_, fun stay => State.holds_of_waits hr hh he hf (mt leaves.mp stay)⟩
  rw [he, State.request_performs hr hh hf hn hi go hp hu]
  cases r <;> rfl

end Asks

/-- A store, notice or loaded reply, which may wait for an ordering token (R92, R93). -/
theorem State.asks_of_request {o h : Nat} (hr : s.Runs e) (hh : (s.cell e.core e.cell).held = []) (he : exec i s = .next (s.request cs (needOf o h) f))
    (hf : (s.readAll e cs).bind (f e) = .ok req) (hi : isHist req = false) :
    (h ≠ 1 → s.mayLeave e req → s.Performs e i (isDrawing 0 cs) (s.heldReq e none req)) ∧ (h ≠ 1 → ¬s.mayLeave e req → s.Holds e i (isDrawing 0 cs) (s.heldReq e none req)) ∧
      (h = 1 → (s.cell e.core e.cell).ordCount o = 0 → s.Holds e i (isDrawing 0 cs) (s.heldReq e (some o) req)) := by
  have free (hne : h ≠ 1) := State.asks_of_free hr hh (he.trans (by rw [needOf, if_neg hne])) hf rfl hi
  refine ⟨fun hne => (free hne).1, fun hne => (free hne).2, fun heq none => ?_⟩
  exact State.holds_of_order hr hh (he.trans (by rw [needOf, if_pos heq])) hf rfl none

/-! ### Operands that an instruction accepts -/

theorem isAddr_ne_none {g : Fmt} (h : isAddr g = true) : g ≠ .none := by
  rintro rfl
  exact absurd h (by decide)

theorem State.readAll_one {a : Nat} {r : Reg} (hs : s.sources e [a] = [r]) (hn : r.fmt ≠ .none) : s.readAll e [a] = .ok [r] := by
  unfold State.readAll
  simp [hs, hn]

theorem State.readAll_two {a b : Nat} {q r : Reg} (hs : s.sources e [a, b] = [q, r]) (hq : q.fmt ≠ .none) (hn : r.fmt ≠ .none) : s.readAll e [a, b] = .ok [q, r] := by
  unfold State.readAll
  simp [hs, hq, hn]

/-- The checks of a request's two operands, one after the other. -/
theorem need_need_accepted {p q : Fmt → Bool} {x y : Reg} {r : MemReq} (hp : p x.fmt = true) (hq : q y.fmt = true) : (do need p x; need q y; return r : Except Nat MemReq) = .ok r :=
  (need_accepted hp _).trans (need_accepted hq _)

theorem recCheck_accepted {β : Type} {w : Option Nat} {r : Reg} (h : IsChange w r ∨ IsNull r) (k : Bool → Except Nat β) : ∃ c, (c = true → IsChange w r) ∧ recCheck w r >>= k = k c := by
  rcases h with change | null
  · exact ⟨true, fun _ => change, by rw [recCheck_change change]; rfl⟩
  · exact ⟨false, fun h => (nomatch h), by rw [recCheck_null null]; rfl⟩

/-! ### History commands -/

section Commands
variable {u : Reg} {a b edge : Nat} (hr : s.Runs e) (hh : (s.cell e.core e.cell).held = []) (hs : s.sources e [a] = [u])
include hr hh hs

/-- A command that applies a change of the history's width, or nothing (R229). -/
theorem State.changeCmd_holds {op variant j : Nat} (he : exec i s = .next (s.changeCmd op b a edge variant j)) (hw : IsChange (s.recWidth e a) u → recValues u = hdW (s.histWord e.core b))
    (hc : IsChange (s.recWidth e a) u ∨ IsNull u) : s.Holds e i (isDrawing 0 [a]) (s.heldReq e none (histCmd op b u edge variant j e)) := by
  have fmt : u.fmt = .rcd := hc.elim (fun h => h.1) (fun h => h.1)
  refine State.holds_of_hist hr hh he ?_ rfl
  rw [State.readAll_one hs (by rw [fmt]; decide)]
  obtain ⟨c, change, check⟩ := recCheck_accepted hc (fun c => if c = true ∧ recValues u ≠ hdW (s.histWord e.core b) then .error 0x00B else .ok (histCmd op b u edge variant j e))
  exact check.trans (if_neg fun h => h.2 (hw (change h.1)))

/-- A key is a record or a pair of words (R225). -/
theorem State.seekCmd_holds (he : exec i s = .next (s.seekCmd b a edge)) (hk : IsChange (s.recWidth e a) u ∨ IsNull u ∨ u.fmt = .n32) :
    s.Holds e i (isDrawing 0 [a]) (s.heldReq e none (histCmd 1 b u edge 0 0 e)) := by
  rw [← or_assoc] at hk
  refine State.holds_of_hist hr hh he ?_ rfl
  rcases hk with hc | hn
  · have fmt : u.fmt = .rcd := hc.elim (fun h => h.1) (fun h => h.1)
    rw [State.readAll_one hs (by rw [fmt]; decide)]
    refine (need_accepted (by rw [fmt]; rfl) _).trans ?_
    obtain ⟨c, -, check⟩ := recCheck_accepted hc (fun _ => Except.ok (histCmd 1 b u edge 0 0 e))
    exact (if_pos fmt).trans check
  · rw [State.readAll_one hs (by rw [hn]; decide)]
    refine (need_accepted (by rw [hn]; rfl) _).trans ?_
    exact if_neg (by rw [hn]; decide)

end Commands

/-! ### A ring slot that is freed -/

/-- A task that marks its ring slot as freed runs as before (R197). -/
theorem State.Runs.marked {g : RingHold} (hr : s.Runs e) :
    (s.modCell e.core e.cell (fun c => { c with running := c.running.map (fun t => { t with ring := some g }) })).Runs { e with task := { e.task with ring := some g } } := by
  refine ⟨hr.core, hr.cell, ?_, ?_⟩
  · dsimp only
    rw [State.cell_modCell, if_pos ⟨rfl, rfl⟩, hr.task]
    rfl
  · dsimp only
    rw [hr.draw]
    unfold State.ctx
    rw [State.cell_modCell, if_pos ⟨rfl, rfl⟩]
    rfl

theorem State.exec_rfree {g : RingHold} {r : Nat} (hr : s.Runs e) (hg : e.task.ring = some g) (hf : g.freed = false) (hp : g.producer = false) : exec (.rfree r) s =
    .next ((s.modCell e.core e.cell (fun c => { c with running := c.running.map (fun t => { t with ring := some { g with freed := true } }) })).request [] none
      (fun _ _ => .ok (.rfree g.ring g.slot))) := by
  refine congrArg Host.Outcome.next ?_
  unfold State.rfree
  rw [hr.withTask, hg]
  dsimp only
  rw [if_neg (by rw [hf, hp]; exact Bool.false_ne_true)]

theorem State.mayLeave_of_only {t : State} {k : Task} (ho : OnlyCell s t e.core e.cell) (hl : s.mayLeave e req) : t.mayLeave { e with task := k } req := by
  unfold State.mayLeave State.flows at hl ⊢
  dsimp only
  rw [ho.reqTouches, ho.mustWait, ho.remoteOut]
  exact hl

/-- Settles O47: each instruction accepts its operands and makes its request, which the port lets leave or keeps. -/
theorem cellRequests : Obligations.CellRequests := by
  unfold Obligations.CellRequests
  intro s e d a o h q p n f r j b v u x hr hh dr1 dr2 goes asks cmd
  have one (hs : s.sources e [a] = [u]) (hu : u.fmt ≠ .none) := State.readAll_one hs hu
  have two (hs : s.sources e [d, a] = [x, u]) (hx : x.fmt ≠ .none) (hu : u.fmt ≠ .none) := State.readAll_two hs hx hu
  refine ⟨fun hs hx hu => ⟨fun hp => ⟨?sts, ?ste⟩, fun hw => ?stx⟩, fun hs hu hx => ?expd, fun hs hu => ⟨?tbarv, ?lde⟩, fun hs hx g hg hf => ?rput, ?ordtGoes, ?ordtStays, ?rfree,
    fun hs => ⟨fun width change => ⟨?hins, ?hjoin, ?hred⟩, fun key => ?hseek, fun w hu hw => ?hcomp⟩, ?hcons⟩
  case sts =>
    refine State.asks_of_request hr hh rfl ?_ rfl
    rw [two hs hx (isAddr_ne_none hu)]
    exact need_need_accepted hu (by simpa [imp_iff_not_or] using hp)
  case ste =>
    refine State.asks_of_request hr hh rfl ?_ rfl
    rw [two hs hx (isAddr_ne_none hu)]
    exact need_need_accepted hu (by simpa [imp_iff_not_or] using hp)
  case stx =>
    refine State.asks_of_request hr hh rfl ?_ rfl
    rw [two hs hx (isAddr_ne_none hu)]
    exact need_need_accepted hu (decide_eq_true hw)
  case expd =>
    refine State.asks_of_request hr hh rfl ?_ rfl
    rw [two hs (isAddr_ne_none hx) (by rw [hu]; decide)]
    exact need_need_accepted (by rw [hu]; rfl) hx
  case tbarv =>
    refine State.asks_of_request hr hh rfl ?_ rfl
    rw [one hs (isAddr_ne_none hu)]
    exact need_accepted hu _
  case lde =>
    refine State.asks_of_request hr hh rfl ?_ rfl
    rw [one hs (isAddr_ne_none hu)]
    exact need_accepted hu _
  case rput =>
    refine State.asks_of_request hr hh rfl ?_ rfl
    rw [State.readAll_one hs hx]
    show rputReq j e [x] = _
    unfold rputReq
    simp [hg, hf]
  case ordtGoes => exact (State.asks_of_free (cs := []) hr hh rfl rfl rfl rfl).1
  case ordtStays => exact (State.asks_of_free (cs := []) hr hh rfl rfl rfl rfl).2
  case rfree =>
    intro g hg hf hp go s' e' w hw hd
    have held : (s'.cell e'.core e'.cell).held = [] := by rw [State.cell_modCell, if_pos ⟨rfl, rfl⟩]; exact hh
    rw [State.exec_rfree hr hg hf hp]
    exact congrArg Host.Outcome.next (State.request_performs (cs := []) hr.marked held rfl rfl rfl (State.mayLeave_of_only (s.only_modCell ..) go) hw hd)
  case hins => exact State.changeCmd_holds hr hh hs rfl width change
  case hjoin => exact State.changeCmd_holds hr hh hs rfl width change
  case hred => exact State.changeCmd_holds hr hh hs rfl width change
  case hseek => exact State.seekCmd_holds hr hh hs rfl key
  case hcomp =>
    refine State.holds_of_hist hr hh rfl ?_ rfl
    rw [one hs (by rw [hu]; decide)]
    have front : antichain u = .ok w := by unfold antichain; rw [if_neg (not_not_intro hu), hw]
    show antichain u >>= _ = _
    rw [front]
    rfl
  case hcons => exact State.holds_of_hist (cs := []) hr hh rfl rfl rfl

end Sys2Proof.Machine
end

section
/-! FENCE and the far accesses of a controller (R100, R102, R239, R244): what a fence waits for, and the requests that leave for another core. -/

namespace Sys2Proof.Machine

/-! ### What a change of a controller leaves -/

theorem Goes.of_rcTo {s t : State} {f : Rc → Rc} (h : RcTo s t f) : Goes s t f where
  rc := RcTo.of_noted (Noted.refl s) h
  cells k := by
    by_cases hk : k = s.fcore
    · rw [hk, h.only.core]
    · rw [h.only.cores k hk]

theorem Goes.of_noted {s u t : State} {f : Rc → Rc} (hn : Noted s u) (h : RcTo u t f) : Goes s t f where
  rc := RcTo.of_noted hn h
  cells k := ((Goes.of_rcTo h).cells k).trans (hn.cells k)

/-! ### FENCE -/

section Fence
variable {s t : State} {k h : Nat}

/-- The state in which a fence acquires: its release is done (R100). -/
def State.fenced (s : State) (k h order : Nat) : State :=
  if order / 2 % 2 = 1 then (s.release k h).1.setOrd k h { (s.release k h).1.ord k h with frel := some (s.release k h).2 } else s

theorem State.fence_ok (s : State) (k h order : Nat) :
    (s.fence k h order).2 = .ok () ↔ (order % 2 = 1 → ((s.fenced k h order).acquire k h ((s.fenced k h order).ord k h).seen).2 = .ok ()) := by
  have eq : s.fence k h order = if order % 2 = 1 then
        match (s.fenced k h order).acquire k h ((s.fenced k h order).ord k h).seen with
        | (v, .ok _) => (v.setOrd k h { v.ord k h with seen := [] }, .ok ())
        | (_, .error f) => (s, .error f)
      else (s.fenced k h order, .ok ()) := rfl
  rw [eq]
  split
  · next acq =>
    rcases (s.fenced k h order).acquire k h ((s.fenced k h order).ord k h).seen with ⟨v, _ | _⟩
    · exact ⟨nofun, fun g => nomatch g acq⟩
    · exact ⟨fun _ _ => rfl, fun _ => rfl⟩
  · next acq => exact ⟨fun _ g => absurd g acq, fun _ => rfl⟩

/-- Whether a fence is done depends on its agent's order alone. -/
theorem State.fence_ok_of_ord (ho : t.ord k h = s.ord k h) (order : Nat) : (t.fence k h order).2 = .ok () ↔ (s.fence k h order).2 = .ok () := by
  have same : (t.fenced k h order).ord k h = (s.fenced k h order).ord k h := by
    unfold State.fenced
    split
    · simp only [State.release, State.ord_setOrd, if_true, ho]
    · exact ho
  simp only [State.fence_ok, State.acquire_ok, same]

end Fence

/-- Settles O28: what a fence waits for is over or it releases nothing; then it acquires, as its agent's order lets it, and the controller goes on. -/
theorem rcFences : Obligations.RcFences := by
  unfold Obligations.RcFences
  intro s r sc hr hr4
  refine ⟨fun free ok => ?_, fun h2 hout => ?_⟩
  · have goes : ¬(r / 2 % 2 = 1 ∧ 0 < s.remoteOut s.fcore 8) := by
      rintro ⟨releases, out⟩
      obtain rfl | none := free
      · exact absurd releases (by decide)
      · exact absurd none out.ne'
    obtain ⟨v, hv⟩ : ∃ v, (s.rcWaits false).fence s.fcore 8 r = (v, .ok ()) :=
      ⟨_, Prod.ext rfl ((State.fence_ok_of_ord (State.ord_modRc s s.fcore s.fcore 8 _) r).mpr ok)⟩
    have run : s.rcFence r = v.rcNext s.fcore 4 := by
      unfold State.rcFence
      simp only [if_neg hr.ne', if_neg goes, hv]
    obtain ⟨noted, mem⟩ := State.fence_noted hv
    have ends := RcTo.next v 4
    rw [show v.fcore = s.fcore from noted.fcore] at ends
    exact State.reads_of_noted (congrArg Host.Outcome.next run) noted ends (fun _ => rfl) mem
  · refine ⟨_, congrArg Host.Outcome.next ?_, RcTo.modRc s _⟩
    unfold State.rcFence
    rw [if_neg hr.ne', if_pos ⟨by omega, hout⟩]
    rfl

/-! ### Far accesses -/

section Far
variable {s t : State} {core addr n al : Nat} {r : RemoteReq} {f : Rc → Rc}

/-- sr.far as a target within the package (R239). -/
theorem Rc.farTo_local {c : Rc} (on : bit c.far 32 = true) (near : c.far / 2 ^ 16 % 2 ^ 16 = 0) : c.farTo = some (0, c.far / 2 ^ 6 % 2 ^ 10) := by
  unfold Rc.farTo
  rw [on, if_pos rfl]
  exact congrArg some (Prod.ext near rfl)

theorem State.routeTag_zero (s : State) (pt : Nat) : s.routeTag pt 0 = 0 := ite_self 0

theorem State.farFail_bounds (h : addr < 2 ^ 28) (hb : s.spadOf core < addr + n) : s.farFail 0 core addr n al = some ⟨0x049, addr, 0, false⟩ := by
  unfold State.farFail
  rw [if_neg (not_not.mpr (Nat.div_eq_of_lt h)), if_pos (show s.farSize 0 core < addr + n from hb)]

theorem State.farFail_none (h : addr < 2 ^ 28) (hb : addr + n ≤ s.spadOf core) (ha : addr % n = 0) : s.farFail 0 core addr n al = none := by
  unfold State.farFail
  rw [if_neg (not_not.mpr (Nat.div_eq_of_lt h)), if_neg (show ¬s.farSize 0 core < addr + n from Nat.not_lt.mpr hb), if_neg (not_not.mpr ha)]

/-- A far access has set out (R102, R239): it is in flight and counts as outstanding, the controller changes as f says. -/
structure FarSent (s t : State) (r : RemoteReq) (f : Rc → Rc) : Prop where
  reqs : t.reqs = s.reqs ++ [r]
  mem  : t.mem = s.mem
  out  : t.remoteOut s.fcore 8 = s.remoteOut s.fcore 8 + 1
  goes : Goes s t f

theorem State.remoteOut_countRemote (s : State) (k h n : Nat) : (s.countRemote k h n).remoteOut k h = s.remoteOut k h + n := by
  unfold State.countRemote State.remoteOut
  rw [State.core_modCore, if_pos rfl]
  dsimp only
  rw [aget_aset_same, Option.getD_some]
  omega

theorem State.remoteOut_modRc (s : State) (j k h : Nat) (f : Rc → Rc) : (s.modRc j f).remoteOut k h = s.remoteOut k h := by
  unfold State.remoteOut State.modRc
  rw [State.core_modCore]
  split
  · next e => rw [e]
  · rfl

theorem State.farSend_sent (s : State) (wait : Bool) (d : Nat) (r : RemoteReq) :
    FarSent s (s.farSend 0 wait d r) r (if wait then fun c => { c with mode := .remote d } else Rc.skip 4) := by
  let u := ({ s with reqs := s.reqs ++ [r] } : State).countRemote s.fcore 8 1
  have counted : Noted { s with reqs := s.reqs ++ [r] } u := .modCore _ _ _ (fun _ => rfl) (fun _ => rfl)
  have ends (f : Rc → Rc) : FarSent s (u.modRc s.fcore f) r f :=
    ⟨rfl, rfl, (State.remoteOut_modRc u ..).trans (State.remoteOut_countRemote _ s.fcore 8 1),
      let g := Goes.of_noted counted (RcTo.modRc u f); ⟨g.rc, g.cells⟩⟩
  unfold State.farSend State.sendRemote
  dsimp only
  rw [State.routeTag_zero, if_pos rfl]
  cases wait with
  | true => exact ends fun c => { c with mode := .remote d }
  | false => exact ends (Rc.skip 4)

/-- What a controller that waits no longer sends, it has sent and its wait is over. -/
theorem FarSent.ready (h : FarSent (s.rcWaits false) t r f) (hf : ∀ c : Rc, f { c with waits := false } = { f c with waits := false }) : FarSent s t r (Rc.ready f) where
  reqs := h.reqs
  mem := h.mem
  out := h.out.trans (congrArg (· + 1) (State.remoteOut_modRc ..))
  goes := {
    rc := fun k => by
      rw [h.goes.rc k, State.rcWaits, State.rc_modRc]
      show (if k = s.fcore then _ else _) = _
      split
      · next e => rw [hf, e]; rfl
      · rfl
    cells := fun k => by
      rw [h.goes.cells k, State.rcWaits, State.modRc, State.core_modCore]
      split
      · next e => rw [e]
      · rfl }

/-! ### The requests -/

/-- The requests of a controller that loads, stores or adds in the scratchpad of another core (R102, R239). -/
def State.farLoadReq (s : State) (core addr n : Nat) : RemoteReq :=
  let g := s.agent s.fcore 8
  { (default : RemoteReq) with src := g.key, oc := g.oc, clr := g.clr, dst := core, addr := addr, kind := .load, size := n }

def State.farStoreReq (s : State) (core addr n v : Nat) : RemoteReq :=
  let g := s.agent s.fcore 8
  { (default : RemoteReq) with
    src := g.key, oc := g.oc, clr := g.clr, dst := core, addr := addr, kind := .store, size := n, bytes := leBytes n v, mask := List.replicate n 255 }

section Target
variable {d a b o : Nat} (target : (s.rc s.fcore).farTo = some (0, core))
include target

theorem State.rcLoad_far : s.rcLoad d a n o = match s.farFail 0 core (rcAddr (s.q s.fcore a) o) n 0x04A with
    | some f => s.rcFault s.fcore f
    | none => s.farSend 0 true d (s.farLoadReq core (rcAddr (s.q s.fcore a) o) n) := by
  unfold State.rcLoad
  simp only [target, State.routeTag_zero]
  rfl

theorem State.rcStore_far : s.rcStore d a n o = match s.farFail 0 core (rcAddr (s.q s.fcore a) o) n 0x04A with
    | some f => s.rcFault s.fcore f
    | none => s.farSend 0 false 0 (s.farStoreReq core (rcAddr (s.q s.fcore a) o) n (s.q s.fcore d)) := by
  unfold State.rcStore
  simp only [target, State.routeTag_zero]
  rfl

/-- A relaxed atomic of a scope that covers every core of the package. -/
theorem State.rcAtomic_far {z op : Nat} (hop : op < 10) (hn : (if z = 1 then 8 else 4) = n) (fits : s.farFail 0 core (s.q s.fcore a % 2 ^ 32) n 0x07A = none) :
    ∃ r : RemoteReq, s.rcAtomic d a b z 0 2 op = (s.rcWaits false).farSend 0 true d r ∧ r.dst = core ∧ r.addr = s.q s.fcore a % 2 ^ 32 ∧ r.size = n := by
  have target : ((s.rcWaits false).rc s.fcore).farTo = some (0, core) := by
    rw [State.rcWaits, State.rc_modRc, if_pos rfl]
    exact target
  have fits : (s.rcWaits false).farFail 0 core (s.q s.fcore a % 2 ^ 32) n 0x07A = none := fits
  refine ⟨{ (s.rcWaits false).atomReq s.fcore 8 core (s.q s.fcore a % 2 ^ 32) n op (s.q s.fcore b % 2 ^ (8 * n)) (s.q s.fcore d % 2 ^ (8 * n)) 0 2
    ((s.rcWaits false).ord s.fcore 8).frel with qd := d }, ?_, rfl, rfl, rfl⟩
  unfold State.rcAtomic
  simp only [hn, Nat.not_le.mpr hop, Nat.zero_div, Nat.zero_mod, Nat.zero_ne_one, false_and, if_false, target, State.routeTag_zero, fits, State.relFor]
  rfl

end Target

end Far

/-- Settles O29: an address past the bounds fails the checks of a far access; one that passes them sets out, and the controller waits for what it answers. -/
theorem rcFar : Obligations.RcFar := by
  unfold Obligations.RcFar
  intro s d a b z o hz far core n addr base on near sent
  have target : (s.rc s.fcore).farTo = some (0, core) := Rc.farTo_local on near
  have address : rcAddr (s.q s.fcore a) o = addr := by rw [rcAddr_eq, State.q_eq]
  have load := State.rcLoad_far (d := d) (a := a) (n := n) (o := o) target
  have store := State.rcStore_far (d := d) (a := a) (n := n) (o := o) target
  rw [address] at load store
  refine ⟨fun low out => ⟨?loadStops, ?storeStops⟩, fun low fits aligned => ⟨?loads, ?stores⟩, fun low fits aligned => ?adds⟩
  case loadStops =>
    rw [State.farFail_bounds low out] at load
    exact State.stops (congrArg Host.Outcome.next load) (by decide)
  case storeStops =>
    rw [State.farFail_bounds low out] at store
    exact State.stops (congrArg Host.Outcome.next store) (by decide)
  case loads =>
    rw [State.farFail_none low fits aligned] at load
    have h := s.farSend_sent true d (s.farLoadReq core addr n)
    exact ⟨_, _, congrArg Host.Outcome.next load, h.reqs, rfl, rfl, rfl, rfl, ⟨h.mem, h.out⟩, h.goes⟩
  case stores =>
    rw [State.farFail_none low fits aligned] at store
    have h := s.farSend_sent false 0 (s.farStoreReq core addr n (s.q s.fcore d))
    exact ⟨_, _, congrArg Host.Outcome.next store, h.reqs, rfl, rfl, rfl, by rw [← State.q_eq]; rfl, ⟨h.mem, h.out⟩, h.goes⟩
  case adds =>
    have at' : s.q s.fcore a % 2 ^ 32 = base := by rw [State.q_eq]
    obtain ⟨r, run, dst, adr, size⟩ := State.rcAtomic_far (d := d) (a := a) (b := b) (z := 0) (op := 3) (n := 4) target (by decide) rfl
      (by rw [at']; exact State.farFail_none low fits aligned)
    have h := ((s.rcWaits false).farSend_sent true d r).ready fun _ => rfl
    exact ⟨_, r, congrArg Host.Outcome.next run, h.reqs, dst, adr.trans at', size, ⟨h.mem, h.out⟩, h.goes⟩

end Sys2Proof.Machine
end

section
/-! Transaction barriers as a controller uses them: TBI, TBEX, TBW (R110 to R112, R263). -/

namespace Sys2Proof.Machine

section Touch
variable {s u : State} {k core off : Nat}

/-- An access of 16 bytes that does not race changes the records of the race checker alone. -/
theorem State.touch16_ok {a : Agent} {w : Bool} (h : ∃ c, s.check core a w 2 16 1 (wordsOf off 16) = .ok c) :
    ∃ u, s.touch16 a core off w = (u, .ok ()) ∧ Noted s u ∧ u.mem = s.mem ∧ ∀ j g, u.ord j g = s.ord j g := by
  obtain ⟨c, hc⟩ := h
  have run : s.touch16 a core off w = (s.setCore core c, .ok ()) := by
    unfold State.touch16
    rw [hc]
  obtain ⟨noted, mem⟩ := State.touch16_noted run
  refine ⟨_, run, noted, mem, fun j g => ?_⟩
  unfold State.ord
  rw [State.core_setCore]
  split
  · next e => rw [e, State.check_ok hc]
  · rfl

theorem State.wordRec_setOrd (s : State) (k h j w : Nat) (o : Ord) : ((s.setOrd k h o).core j).wordRec w = (s.core j).wordRec w := by
  unfold State.setOrd
  rw [State.core_modCore]
  split
  · next e => rw [e]; rfl
  · rfl

/-- A release leaves the race checker's records as they were. -/
theorem State.check_release {a : Agent} {w : Bool} {kind size scope : Nat} {ws : List Nat} (h : ∃ c, s.check core a w kind size scope ws = .ok c) (j g : Nat) :
    ∃ c, (s.release j g).1.check core a w kind size scope ws = .ok c := by
  rw [State.check_ok_iff] at h ⊢
  simp only [State.release, State.wordRec_setOrd]
  exact h

theorem State.tbMerge_noted (s : State) (core off : Nat) (c : Clr) : Noted s (s.tbMerge core off c) := .modCore _ _ _ (fun _ => rfl) (fun _ => rfl)

/-- A barrier that is not complete: its word is written, and nothing else happens (R111). -/
theorem State.tbEval_open {b : Bar} (open' : b.arrivals ≠ 0 ∨ b.sectors ≠ 0 ∨ b.f = true ∨ b.d = true) :
    s.tbEval core off b = { s with mem := Bar.write s.mem (spadBase core + off) b } := by
  unfold State.tbEval
  refine if_neg ?_
  rintro ⟨ha, hs, hf, hd⟩
  simp only [Bool.not_eq_true'] at hf hd
  obtain h | h | h | h := open'
  · exact h ha
  · exact h hs
  · rw [hf] at h; cases h
  · rw [hd] at h; cases h

/-- Sectors that leave a barrier incomplete count in its word alone (R111). -/
theorem State.tbSectors_counts {n v : Int} {b : Bar} {c : Clr} (hb : Bar.read s.mem (spadBase core + off) = b) (hv : b.sectors - n = v) (lo : -(2 ^ 31) ≤ v) (hi : v < 2 ^ 31)
    (open' : b.arrivals ≠ 0 ∨ v ≠ 0 ∨ b.f = true ∨ b.d = true) :
    ∃ u, s.tbSectors core off n c = (u, .ok ()) ∧ Noted s u ∧ u.mem = Bar.write s.mem (spadBase core + off) { b with sectors := v } := by
  refine ⟨{ s.tbMerge core off c with mem := Bar.write s.mem (spadBase core + off) { b with sectors := v } }, ?_, (s.tbMerge_noted core off c).trans (.withMem _ _), rfl⟩
  unfold State.tbSectors
  dsimp only
  rw [hb, hv, if_neg (by omega), State.tbEval_open open']
  rfl

theorem State.onBarrier_names {t : Nat} (ht : t < 31) (hb : t < s.barrierCount s.fcore) (f : Nat → State) : s.onBarrier t f = f (s.barrierEntry s.fcore t).1 := by
  unfold State.onBarrier
  rw [if_neg ht.ne, if_neg (Nat.not_le.mpr hb)]

/-- Memory, the records of a core and its controller change one after another. -/
theorem State.withMem_modCore_modRc (s : State) (m : Memory) (f : Core → Core) (g : Rc → Rc) (hc : ∀ c, (f c).cells = c.cells) (hr : ∀ c, (f c).rc = c.rc) :
    ∃ v, Noted s v ∧ RcTo v ((({ s with mem := m } : State).modCore s.fcore f).modRc s.fcore g) g ∧ v.mem = m :=
  ⟨({ s with mem := m } : State).modCore s.fcore f, (Noted.withMem s m).trans (.modCore _ _ _ hc hr), RcTo.modRc _ _, rfl⟩

/-- A barrier's initial state in memory, and its reference phase in its controller (R110, R263). -/
theorem State.initBarrier_spec (s : State) (t arr : Nat) :
    ∃ v, Noted s v ∧ RcTo v (s.initBarrier s.fcore t arr) (fun r => { r with refs := r.refs.set t 0 }) ∧
      v.mem = Bar.write s.mem (spadBase s.fcore + (s.barrierEntry s.fcore t).1) ⟨0, arr, false, false, false, 0, arr, regionHandle s.fcore⟩ := by
  rw [State.initBarrier]
  exact s.withMem_modCore_modRc _ _ _ (fun _ => rfl) (fun _ => rfl)

/-! ### The instructions -/

section Named
variable {a t arr : Nat} (ht : t < 31) (hb : t < s.barrierCount s.fcore) (hoff : (s.barrierEntry s.fcore t).1 = off)
include ht hb hoff

theorem State.rcTbi_sets (hx : s.q s.fcore a = arr) (hlt : arr < 2 ^ 20) (idle : ∀ c ∈ (s.core s.fcore).copies, c.2.node = (s.rc s.fcore).node → c.2.tb ≠ t)
    (race : s.NoRace s.fcore 8 s.fcore off 16 true 2 16 1) :
    (s.rcTbi a t).mem = Bar.write s.mem (spadBase s.fcore + off) ⟨0, arr, false, false, false, 0, arr, regionHandle s.fcore⟩ ∧
      Goes s (s.rcTbi a t) (fun r => { r with refs := r.refs.set t 0, pc := r.pc + 4 }) := by
  obtain ⟨u, run, noted, mem, -⟩ := State.touch16_ok race
  have entry : (u.barrierEntry u.fcore t).1 = off := by rw [noted.fcore, ← hoff]; unfold State.barrierEntry; rw [mem]
  obtain ⟨v, noted', init, word⟩ := u.initBarrier_spec t arr
  rw [entry, mem, noted.fcore] at word
  have ends := init.trans (RcTo.next (u.initBarrier u.fcore t arr) 4)
  rw [init.fcore, noted'.fcore, noted.fcore] at ends
  have no : ¬(s.copiesOf s.fcore (s.rc s.fcore).node).any (fun c => c.2.tb == t) = true := by
    simp only [State.copiesOf, List.any_eq_true, List.mem_filter, decide_eq_true_eq, beq_iff_eq]
    rintro ⟨c, ⟨hc, hn⟩, e⟩
    exact idle c hc hn e
  have eq : s.rcTbi a t = (u.initBarrier s.fcore t arr).rcNext s.fcore 4 := by
    unfold State.rcTbi
    rw [State.onBarrier_names ht hb, hx, if_neg (Nat.not_le.mpr hlt), if_neg no, hoff, run]
  rw [eq]
  exact ⟨ends.mem.trans word, .of_noted (noted.trans noted') ends⟩

theorem State.rcTbex_adds {v : Int} {b : Bar} (hbar : Bar.read s.mem (spadBase s.fcore + off) = b) (hv : b.sectors + signExt 64 (s.q s.fcore a) = v) (lo : -(2 ^ 31) ≤ v) (hi : v < 2 ^ 31)
    (open' : b.arrivals ≠ 0 ∨ v ≠ 0 ∨ b.f = true ∨ b.d = true) (race : s.NoRace s.fcore 8 s.fcore off 16 true 2 16 1) :
    (s.rcTbex a t).mem = Bar.write s.mem (spadBase s.fcore + off) { b with sectors := v } ∧ Goes s (s.rcTbex a t) (Rc.skip 4) := by
  obtain ⟨u, run, noted, mem, -⟩ := State.touch16_ok (State.check_release race s.fcore 8)
  obtain ⟨released, kept⟩ := s.release_noted s.fcore 8
  obtain ⟨w, count, noted', word⟩ := State.tbSectors_counts (s := u) (c := (s.release s.fcore 8).2) (by rw [mem, kept]; exact hbar) ((sub_neg_eq_add ..).trans hv) lo hi open'
  rw [mem, kept] at word
  have all := (released.trans noted).trans noted'
  have ends := RcTo.next w 4
  rw [all.fcore] at ends
  have eq : s.rcTbex a t = w.rcNext s.fcore 4 := by
    unfold State.rcTbex
    rw [State.onBarrier_names ht hb, hoff]
    dsimp only
    rw [run]
    dsimp only
    rw [count]
  rw [eq]
  exact ⟨ends.mem.trans word, .of_noted all ends⟩

/-- TBW where the barrier neither failed nor is discarded. -/
theorem State.rcTbw_eq {b : Bar} (hbar : Bar.read s.mem (spadBase s.fcore + off) = b) (hf : b.f = false) (hd : b.d = false) :
    s.rcTbw t = if b.phase = (s.rc s.fcore).refs.getD t 0 then
        (if b.w then s
        else match s.touch16 (s.agent s.fcore 8) s.fcore off true with
        | (_, .error f) => s.rcFault s.fcore f
        | (u, .ok _) => { u with mem := Bar.write u.mem (spadBase s.fcore + off) { b with w := true } })
      else match s.touch16 (s.agent s.fcore 8) s.fcore off false with
        | (_, .error f) => s.rcFault s.fcore f
        | (u, .ok _) => u.rcAcquire ((aget (s.core s.fcore).tbClr off).getD []) (fun v => (v.modRc s.fcore (fun r => { r with refs := r.refs.set t b.phase })).rcNext s.fcore 4) := by
  unfold State.rcTbw
  rw [State.onBarrier_names ht hb, hoff]
  dsimp only
  rw [hbar, hf, hd]
  rfl

theorem State.rcTbw_goes {b : Bar} (hbar : Bar.read s.mem (spadBase s.fcore + off) = b) (hf : b.f = false) (hd : b.d = false) (differs : b.phase ≠ (s.rc s.fcore).refs.getD t 0)
    (race : s.NoRace s.fcore 8 s.fcore off 16 false 2 16 1) (acq : (s.acquire s.fcore 8 ((aget (s.core s.fcore).tbClr off).getD [])).2 = .ok ()) :
    (s.rcTbw t).mem = s.mem ∧ Goes s (s.rcTbw t) (fun r => { r with refs := r.refs.set t b.phase, pc := r.pc + 4 }) := by
  obtain ⟨u, run, noted, mem, ord⟩ := State.touch16_ok race
  obtain ⟨v, hv⟩ : ∃ v, u.acquire s.fcore 8 ((aget (s.core s.fcore).tbClr off).getD []) = (v, .ok ()) :=
    ⟨_, Prod.ext rfl (by rw [State.acquire_ok, ord]; exact (State.acquire_ok ..).mp acq)⟩
  obtain ⟨noted', mem'⟩ := State.acquire_noted hv
  have all := noted.trans noted'
  have ends := (RcTo.modRc v (fun r => { r with refs := r.refs.set t b.phase })).trans (RcTo.next (v.modRc v.fcore _) 4)
  rw [(RcTo.modRc v _).fcore, all.fcore] at ends
  have eq : s.rcTbw t = (v.modRc s.fcore (fun r => { r with refs := r.refs.set t b.phase })).rcNext s.fcore 4 := by
    rw [State.rcTbw_eq ht hb hoff hbar hf hd, if_neg differs, run]
    dsimp only
    unfold State.rcAcquire
    rw [noted.fcore, hv]
  rw [eq]
  exact ⟨ends.mem.trans (mem'.trans mem), .of_noted all ends⟩

theorem State.rcTbw_setsW {b : Bar} (hbar : Bar.read s.mem (spadBase s.fcore + off) = b) (hf : b.f = false) (hd : b.d = false) (same : b.phase = (s.rc s.fcore).refs.getD t 0)
    (hw : b.w = false) (race : s.NoRace s.fcore 8 s.fcore off 16 true 2 16 1) :
    (s.rcTbw t).mem = Bar.write s.mem (spadBase s.fcore + off) { b with w := true } ∧ Goes s (s.rcTbw t) id := by
  obtain ⟨u, run, noted, mem, -⟩ := State.touch16_ok race
  have eq : s.rcTbw t = { u with mem := Bar.write u.mem (spadBase s.fcore + off) { b with w := true } } := by
    rw [State.rcTbw_eq ht hb hoff hbar hf hd, if_pos same, hw, if_neg Bool.false_ne_true, run]
  have all : Noted s { u with mem := Bar.write u.mem (spadBase s.fcore + off) { b with w := true } } := noted.trans (.withMem u _)
  rw [eq, ← mem]
  exact ⟨rfl, .of_noted all (.refl _)⟩

theorem State.rcTbw_waits {b : Bar} (hbar : Bar.read s.mem (spadBase s.fcore + off) = b) (hf : b.f = false) (hd : b.d = false) (same : b.phase = (s.rc s.fcore).refs.getD t 0)
    (hw : b.w = true) : s.rcTbw t = s := by
  rw [State.rcTbw_eq ht hb hoff hbar hf hd, if_pos same, hw, if_pos rfl]

end Named

end Touch

/-- Settles O39: none of the three races on the barrier's 16 bytes, so that each is its change of the barrier's word and of the controller. -/
theorem rcBarriers : Obligations.RcBarriers := by
  unfold Obligations.RcBarriers
  intro s a t ht hb k off A bar x v free
  refine ⟨fun hx idle race => ?tbi, fun lo hi open' race => ?tbex,
    fun hf hd => ⟨fun differs race acq => ?tbwGoes, fun same hw => congrArg Host.Outcome.next (State.rcTbw_waits ht hb rfl rfl hf hd same hw), fun same hw race => ?tbwSetsW⟩⟩
  case tbi => exact ⟨_, rfl, State.rcTbi_sets ht hb rfl (s.q_eq a) hx idle race⟩
  case tbex =>
    have sum : bar.sectors + signExt 64 (s.q s.fcore a) = v := by rw [State.q_eq, signExt_eq_toInt (by decide), BitVec.ofNat_toNat, BitVec.setWidth_eq]
    exact ⟨_, rfl, State.rcTbex_adds ht hb rfl rfl sum lo hi open' race⟩
  case tbwGoes => exact ⟨_, rfl, State.rcTbw_goes ht hb rfl rfl hf hd differs race acq⟩
  case tbwSetsW => exact ⟨_, rfl, State.rcTbw_setsW ht hb rfl rfl hf hd same hw race⟩

end Sys2Proof.Machine
end

section
/-! Copies as a controller issues them: CPY, CPYR, CPYG, CPYX, CPYS (R113, R260, R261). -/

namespace Sys2Proof.Machine

section Copies
variable {s t : State} {k h : Nat} {c : Copy}

/-- What an agent releases or acquires is its order alone: no copy, no record of the race checker differs, and no memory. -/
theorem State.setOrd_copies (s : State) (k h j : Nat) (o : Ord) : ((s.setOrd k h o).core j).copies = (s.core j).copies ∧ ((s.setOrd k h o).core j).words = (s.core j).words := by
  unfold State.setOrd
  rw [State.core_modCore]
  split
  · next e => rw [e]; exact ⟨rfl, rfl⟩
  · exact ⟨rfl, rfl⟩

theorem State.acquire_eq {a : Clr} (hq : s.acquire k h a = (t, .ok ())) : ∃ o, t = s.setOrd k h o := by
  unfold State.acquire at hq
  dsimp only at hq
  split at hq
  · cases hq
  · cases hq; exact ⟨_, rfl⟩

/-- A copy stands in the copy engine of a core under the lowest free number (R113). -/
def Core.takesCopy (c : Copy) (x : Core) : Core := { x with copies := aset x.copies x.copyId c }

/-- A copy has entered the copy engine of the executing controller, which goes on; the bytes move later (R113). -/
structure Issued (s u : State) (c : Copy) : Prop where
  goes   : CoresGo s u (Rc.skip 4)
  copies : (u.core s.fcore).copies = aset (s.core s.fcore).copies (s.core s.fcore).copyId c
  words  : (u.core s.fcore).words = (s.core s.fcore).words

theorem State.startCopy_issues (c : Copy) (may : s.mayIssue 9) : Issued s (s.startCopy s.fcore c) c := by
  obtain ⟨v, hv⟩ : ∃ v, (s.release s.fcore 8).1.acquire s.fcore 9 (s.release s.fcore 8).2 = (v, .ok ()) := ⟨_, Prod.ext rfl may⟩
  have eq : s.startCopy s.fcore c = (v.modCore s.fcore (Core.takesCopy c)).rcNext s.fcore 4 := by
    unfold State.startCopy
    dsimp only
    rw [hv]
    rfl
  obtain ⟨o, rfl⟩ := State.acquire_eq hv
  generalize hw : (s.release s.fcore 8).1.setOrd s.fcore 9 o = v at eq
  obtain ⟨noted, copies, words, rest⟩ : Noted s v ∧ (v.core s.fcore).copies = (s.core s.fcore).copies ∧ (v.core s.fcore).words = (s.core s.fcore).words ∧ v = { s with cores := v.cores } := by
    subst hw
    exact ⟨(s.release_noted s.fcore 8).1.trans (.setOrd _ _ _ _), (State.setOrd_copies ..).1.trans (State.setOrd_copies ..).1, (State.setOrd_copies ..).2.trans (State.setOrd_copies ..).2, rfl⟩
  have all : Noted s (v.modCore s.fcore (Core.takesCopy c)) := noted.trans (.modCore _ _ _ (fun _ => rfl) (fun _ => rfl))
  have ends := RcTo.next (v.modCore s.fcore (Core.takesCopy c)) 4
  rw [all.fcore] at ends
  have core : (s.startCopy s.fcore c).core s.fcore = { (v.core s.fcore).takesCopy c with rc := Rc.skip 4 (v.core s.fcore).rc } := by
    rw [eq]
    unfold State.rcNext State.modRc
    rw [State.core_modCore, if_pos rfl, State.core_modCore, if_pos rfl]
    rfl
  refine ⟨⟨by rw [eq]; exact .of_noted all ends, by rw [eq, rest]; rfl⟩, ?_, by rw [core]; exact words⟩
  rw [core]
  show aset (v.core s.fcore).copies (v.core s.fcore).copyId c = _
  unfold Core.copyId
  rw [copies]

/-! ### The instructions -/

section Checks
variable {r a b t p n off : Nat}

theorem State.rcCpy_none (ht : t = 31 ∨ t < s.barrierCount s.fcore) (hn : s.q s.fcore b % 2 ^ 32 = 0) : s.rcCpy r a b t p = s.rcNext s.fcore 4 := by
  unfold State.rcCpy
  rw [if_neg (by omega), if_pos hn]

theorem State.rcCpy_starts (ht : t = 31 ∨ t < s.barrierCount s.fcore) (hn : s.q s.fcore b % 2 ^ 32 = n) (h0 : n ≠ 0) (ho : s.q s.fcore b / 2 ^ 32 * 64 = off)
    (ok : s.copyCause t p (r == 1) off (64 * n) = none) (fits : spadCause s.fcore (s.q s.fcore a % 2 ^ 32) (64 * n) = none) :
    s.rcCpy r a b t p = s.startCopy s.fcore { s.newCopy 0 (r == 1) p t with spad := s.q s.fcore a % 2 ^ 32, off := off, n := n } := by
  unfold State.rcCpy
  rw [if_neg (by omega), hn, if_neg h0, ho]
  dsimp only
  rw [ok]
  dsimp only
  rw [fits]
  rfl

theorem State.rcCpyr_eq (ht : t = 31 ∨ t < s.barrierCount s.fcore) (ha : a < s.ringCount s.fcore) (hn : s.q s.fcore b % 2 ^ 32 = n) (ho : s.q s.fcore b / 2 ^ 32 * 64 = off)
    (ok : s.copyCause t p (r == 1) off (n * (s.ringEntry s.fcore a).2.2) = none) :
    (n = 0 → s.rcCpyr r a b t p = s.rcNext s.fcore 4) ∧
    (n ≠ 0 → r = 1 → s.rcCpyr r a b t p = s.startCopy s.fcore { s.newCopy 1 true p t with off := off, n := n, ring := a }) := by
  unfold State.rcCpyr
  rw [if_neg (by omega), if_neg (Nat.not_le.mpr ha), hn, ho]
  dsimp only
  rw [ok]
  refine ⟨fun h0 => if_pos h0, fun h0 hr => (if_neg h0).trans ?_⟩
  subst hr
  rfl

theorem State.rcCpyRows_starts {kind : Nat} {h : List Half} (ok : s.copyCause t p (kind == 4) 0 0 = none) (fits : spadCause s.fcore (s.q s.fcore a % 2 ^ 32) 0 = none)
    (hd : halves s.fcore (s.q s.fcore b % 2 ^ 32) 32 32 false = .ok h) :
    s.rcCpyRows kind a b t p = s.startCopy s.fcore { s.newCopy kind (kind == 4) p t with spad := s.q s.fcore a % 2 ^ 32, desc := s.q s.fcore b % 2 ^ 32 } := by
  unfold State.rcCpyRows
  dsimp only
  rw [ok]
  dsimp only
  rw [fits]
  dsimp only
  rw [hd]
  rfl

end Checks

end Copies

/-- Settles O37: a copy whose checks pass starts, and starting it enters it into the copy engine. -/
theorem rcCopies : Obligations.RcCopies := by
  unfold Obligations.RcCopies
  intro s r a b t p hr ht k addr n off enters
  have started {i : Instr} {c : Copy} (he : exec i s = .next (s.startCopy k c)) (may : s.mayIssue 9) : enters i c :=
    let h := State.startCopy_issues c may
    ⟨_, he, h.goes, h.copies, h.words⟩
  refine ⟨fun h0 => ?noLines, fun h0 ok fits may => ?cpy, fun ha ok => ?cpyr, fun w hw ok fits ⟨h, hd⟩ may => ?rows⟩
  case noLines => exact ⟨_, congrArg Host.Outcome.next (State.rcCpy_none ht (by rw [State.q_eq]; exact h0)), RcTo.next s 4⟩
  case cpy =>
    have run := State.rcCpy_starts (s := s) (a := a) (b := b) ht (by rw [State.q_eq]) h0 (by rw [State.q_eq]) ok (by rw [State.q_eq]; exact fits)
    rw [State.q_eq] at run
    exact started (congrArg Host.Outcome.next run) may
  case cpyr =>
    obtain ⟨none, one⟩ := State.rcCpyr_eq (s := s) (b := b) ht ha (by rw [State.q_eq]) (by rw [State.q_eq]) ok
    exact ⟨fun h0 => ⟨_, congrArg Host.Outcome.next (none h0), RcTo.next s 4⟩, fun h0 hr may => started (congrArg Host.Outcome.next (one h0 hr)) may⟩
  case rows =>
    have run (kind : Nat) (ok : s.copyCause t p (kind == 4) 0 0 = none) := State.rcCpyRows_starts (s := s) (a := a) (b := b) (h := h) ok (by rw [State.q_eq]; exact fits) (by rw [State.q_eq]; exact hd)
    simp only [State.q_eq] at run
    simp only [List.mem_cons, List.not_mem_nil, or_false] at hw
    obtain rfl | rfl | rfl := hw
    · exact started (congrArg Host.Outcome.next (run 2 ok)) may
    · exact started (congrArg Host.Outcome.next (run 3 ok)) may
    · exact started (congrArg Host.Outcome.next (run 4 ok)) may

end Sys2Proof.Machine
end

section
/-! O40: publication. `Obligations.RcPublication` takes every state, also one whose list of partitions is not in order. There the shadow that a late PUB drops moves the
node's partition to the front of the list, and with it the queue that the fault's record goes to. -/

namespace Sys2Proof.Machine

/-! ## Partitions as tiles go back to the pool -/

theorem State.releaseTile_parts (s : State) (pt x : Nat) : (s.releaseTile pt x).parts = s.parts := by
  have walked := congrArg State.parts (translate_spec s (s.part pt).supervisor pt (x * 2048) false).rest
  unfold State.releaseTile
  split
  next t _ h => rwa [h] at walked
  next t pa h => rw [h] at walked; exact Eq.trans (b := t.parts) rfl walked

theorem State.foldl_releaseTile_parts (pt : Nat) (l : List Nat) (s : State) : (l.foldl (fun t x => t.releaseTile pt x) s).parts = s.parts := by
  induction l generalizing s with
  | nil => rfl
  | cons x l ih => exact (ih _).trans (s.releaseTile_parts pt x)

/-- The partition after the holds of its channels that `p` names are released. -/
def Part.retried (q : Part) (p : Nat × Nat → Bool) : Part := { q with chans := q.chans.map (fun (c : Nat × Channel) => (c.1, { c.2 with held := released p c.2.held })) }

theorem State.unhold_parts (s : State) (pt : Nat) (p : Nat × Nat → Bool) : (s.unhold pt p).parts = aset s.parts pt ((s.part pt).retried p) := rfl

/-- A partition one of whose tiles goes back to the pool is stored anew. -/
theorem State.reclaim_parts {s : State} {pt : Nat} {was : List Nat} (h : was.filter (fun x => !s.named pt x) ≠ []) :
    (s.reclaim pt was).parts = aset s.parts pt ((s.part pt).retried (fun c => c.1 == 0x05E)) := by
  unfold State.reclaim
  split
  next e => exact absurd e h
  next => rw [State.unhold_parts, State.part, State.foldl_releaseTile_parts]; rfl

/-! ## PUB that finds a newer version -/

/-- PUB on an operand whose buffer has a newer version drops the shadow and faults. -/
theorem exec_rcPub_late {s : State} {d p : Nat} (allowed : (s.operand (s.rc s.fcore).node p).allows true = true) (phase : (s.rc s.fcore).inPhase = false)
    (idle : (s.copiesOf s.fcore (s.rc s.fcore).node).any (fun c => c.2.out && (s.operand (s.rc s.fcore).node c.2.op).handle == (s.operand (s.rc s.fcore).node p).handle) = false)
    (late : ((aget (s.part (s.partOfNode (s.rc s.fcore).node)).bufs (s.operand (s.rc s.fcore).node p).handle).getD {}).version ≠
      (s.operand (s.rc s.fcore).node (s.sameBuf (s.rc s.fcore).node p)).base) :
    exec (.rcPub d p) s = .next ((s.dropShadow (s.rc s.fcore).node p).rcTrap 0x05D) := by
  show Host.Outcome.next (s.rcPub d p) = _
  unfold State.rcPub
  simp only [allowed, phase, idle, late, Bool.not_true, Bool.false_eq_true, if_false, ne_eq, not_false_eq_true, if_true]

/-- A node of partition 3 with one operand, buffer 2, and a shadow of its first tile. -/
def publisher : Node := { nodeOf [] 64 0 0 with part := 3, st := 2, ops := [{ handle := 2, mode := 3, size := 4096, shadow := [(0, 8)] }] }

/-- Core 1 runs that node, and its buffer is at version 9; partition 5 stands before the node's in the list and also holds the core's isle. -/
def unordered : State :=
  { State.reset with
    fcore := 1
    cores := [(1, { rc := { ({} : Rc) with mode := .running, node := 1 } })]
    nodes := [(1, publisher)]
    parts := [(5, { live := true, isles := 1 }), (3, { live := true, isles := 1, bufs := [(2, { size := 4096, version := 9 })] })] }

theorem unordered_partAt : unordered.partAt 1 = 5 := by decide

/-- `unordered` without the shadow. -/
def unshadowed : State := unordered.modOperand 1 (unordered.sameBuf 1 0) (fun o => { o with shadow := [] })

/-- The shadow's tile is named no longer. -/
theorem unordered_gone : (unordered.busyTiles 3).filter (fun x => !unshadowed.named 3 x) ≠ [] := by decide

theorem unordered_dropShadow : unordered.dropShadow 1 0 = unshadowed.reclaim 3 (unordered.busyTiles 3) := rfl

/-- With the shadow dropped, partition 3 is the first that holds the isle. -/
theorem unordered_dropShadow_partAt : (unordered.dropShadow 1 0).partAt 1 = 3 := by
  rw [unordered_dropShadow]
  unfold State.partAt
  rw [State.reclaim_parts unordered_gone]
  rfl

theorem unshadowed_posts : unshadowed.posts = unordered.posts := rfl

/-- Refutes O40: its clause on a PUB that finds a newer version says that the fault's record is that of the state before, its queue among its fields. Dropping the
shadow stores the node's partition anew, and the statement does not assume that the partitions' numbers rise, so the record may go to another partition's queue. -/
theorem not_rcPublication : ¬ Obligations.RcPublication := by
  unfold Obligations.RcPublication
  intro claim
  obtain ⟨-, -, -, -, -, pub, -⟩ := claim unordered 0 0
  obtain ⟨-, late⟩ := pub (by decide) rfl (by decide)
  obtain ⟨u, hu, posts, -⟩ := late (by decide) rfl
  rw [exec_rcPub_late (by decide) rfl (by decide) (by decide)] at hu
  obtain rfl := Host.Outcome.next.inj hu
  have kept : Released unshadowed (unordered.dropShadow 1 0) := State.reclaim_spec ..
  have core : (unordered.dropShadow 1 0).fcore = 1 := by rw [kept.rest]; rfl
  have level : ((unordered.dropShadow 1 0).rc (unordered.dropShadow 1 0).fcore).level = 0 := by
    rw [core, kept.rc 1]
    rfl
  have faulted := State.rcFault_kernel (unordered.dropShadow 1 0) 0x05D 0 level (by decide)
  have same : (unordered.dropShadow 1 0).posts = unordered.posts := by rw [kept.rest]; rfl
  have record := (faulted.posts.symm.trans posts)
  rw [same, core] at record
  have queue := congrArg EvRec.queue (List.cons.inj (List.append_cancel_left record)).1
  exact absurd (unordered_dropShadow_partAt.symm.trans (queue.trans unordered_partAt)) (by decide)

end Sys2Proof.Machine
end

section
/-! O53: the events of copies, remote accesses, histories, matrix and collective engines. `Obligations.UnitEvents` takes every state, also one whose list of copies holds a
number twice, and there a copy that has ended is still found under its number. -/

namespace Sys2Proof.Machine

/-- A gather whose rows have all been moved: its next turn ends it. -/
def movedCopy : Copy := { kind := 3, out := false, node := 0, op := 0, tb := 31, spad := 0, off := 0, n := 0, ring := 0, desc := 0, started := 1 }

/-- Core 1 holds the ended gather twice under number 0, and its turn comes. -/
def twiceCopied : State := { State.reset with place := { core := 1 }, cores := [(1, { copies := [(0, movedCopy), (0, movedCopy)] })] }

theorem twiceCopied_works : twiceCopied.works 1 = true := by decide

theorem twiceCopied_copy : aget (twiceCopied.core 1).copies 0 = some movedCopy := by decide

/-- The copy's operand has no descriptor that is still to be read. -/
theorem twiceCopied_shapeOf : twiceCopied.shapeOf 1 (agentId 1 49) movedCopy.node movedCopy.op = (twiceCopied, .ok none) := rfl

theorem twiceCopied_copyTurn : twiceCopied.copyTurn 1 0 false = twiceCopied.endCopy 1 0 := rfl

/-- The turn ends the copy: one of the two entries goes. -/
theorem exec_sectorLanding_twiceCopied : exec .evSectorLanding twiceCopied = .next (twiceCopied.endCopy 1 0) :=
  State.atPlace_of_works twiceCopied_works (fun s k _ _ _ => s.copyTurn k s.place.x (s.place.y != 0))

theorem twiceCopied_endCopy_copies : ((twiceCopied.endCopy 1 0).core 1).copies = [(0, movedCopy)] := rfl

/-- Refutes O53: its clause on a gather or scatter without rows left says that after SECTOR_LANDING the core has no copy under the number. The model removes the
first entry of that number; the statement does not assume that the numbers of the copies rise, so the state may hold the number twice. -/
theorem not_unitEvents : ¬ Obligations.UnitEvents := by
  unfold Obligations.UnitEvents
  intro claim
  obtain ⟨copies, -⟩ := claim twiceCopied movedCopy default default default default 0 0 [] twiceCopied twiceCopied twiceCopied
  obtain ⟨-, ofCopy⟩ := copies twiceCopied_works
  obtain ⟨-, landing⟩ := ofCopy twiceCopied_copy
  obtain ⟨-, sound⟩ := landing rfl rfl rfl
  obtain ⟨-, -, ended⟩ := sound rfl none twiceCopied_shapeOf
  obtain ⟨t, ht, -, gone⟩ := ended (.inl rfl) (by decide) (by decide) twiceCopied_copy
  rw [exec_sectorLanding_twiceCopied] at ht
  obtain rfl := Host.Outcome.next.inj ht
  have stays : aget ((twiceCopied.endCopy 1 0).core 1).copies 0 = some movedCopy := by rw [twiceCopied_endCopy_copies]; rfl
  exact Option.some_ne_none movedCopy (stays.symm.trans gone)

end Sys2Proof.Machine
end

section
/-! Special and frontier registers of a kernel program (R123, R238, R245). -/

namespace Sys2Proof.Machine

/-- The numbers up to 0x00A are readable at every level. -/
theorem srCause_read_program {n : Nat} (level : Nat) (h : n ≤ 0x00A) : srCause level n false = none := by
  have unprivileged : ¬(0x100 ≤ n ∧ n < 0x200 ∧ level = 0) := by omega
  simp [srCause, srWritable, unprivileged, h]

/-- sr.lc, sr.timer, sr.far and sr.poison are writable at every level. -/
theorem srCause_write_program {n : Nat} (level : Nat) (h : n = 1 ∨ n = 6 ∨ n = 8 ∨ n = 9) : srCause level n true = none := by
  have unprivileged : ¬(0x100 ≤ n ∧ n < 0x200 ∧ level = 0) := by omega
  have program : n ≤ 0x00A := by omega
  simp [srCause, srWritable, unprivileged, program, h]

/-- sr.lc of the innermost loop, 0 outside a loop. -/
theorem ofNat_innermost_lc (loops : List LoopRec) :
    BitVec.ofNat 64 ((loops.head?.map (·.lc)).getD 0) = (loops.head?.map (fun l => BitVec.ofNat 64 l.lc)).getD 0 := by
  cases loops <;> rfl

namespace State

/-- RDS of a program's register writes the register's value to q[d]. -/
theorem puts_rcRds (s : State) {d n : Nat} {w : W64} (h : n ≤ 0x00A) (hw : BitVec.ofNat 64 (s.srGet s.fcore n) = w) : s.Puts (.rcRds d n) d w 4 := by
  refine s.puts_rcPut (v := s.srGet s.fcore n) ?_ hw
  show execRcRds d n s = _
  simp only [execRcRds, srCause_read_program s.level h]

/-- WRS of a writable program's register whose write is a change of the executing controller. -/
theorem turns_rcWrs (s : State) {a n : Nat} {f : Rc → Rc} (h : n = 1 ∨ n = 6 ∨ n = 8 ∨ n = 9)
    (hs : s.srSet s.fcore n (s.qv a).toNat = .ok (s.modRc s.fcore f)) : s.Turns (.rcWrs a n) (Rc.skip 4 ∘ f) := by
  refine ⟨_, ?_, RcTo.modRc_next s f 4⟩
  show execRcWrs a n s = _
  simp only [execRcWrs, srCause_write_program s.level h, q_eq, hs]

/-- A write to sr.lc gives the innermost loop a pending count. -/
theorem srSet_lc {s : State} {k v : Nat} {l : LoopRec} {ls : List LoopRec} (hl : (s.rc k).loops = l :: ls) (hv : v < 2 ^ 32) :
    s.srSet k 1 v = .ok (s.modRc k (fun c => { c with loops := { l with pend := some v } :: ls })) := by
  simp only [srSet, hl, Nat.not_le.mpr hv, if_false]

/-- A write to sr.poison that leaves bit 16 zero changes nothing. -/
theorem srSet_poison_kept {s : State} {k v : Nat} (h : bit v 16 = false) : s.srSet k 9 v = .ok s := by
  simp only [srSet, h, Bool.false_eq_true, if_false]

/-- A write of a 1 to bit 16 of sr.poison clears the register. -/
theorem srSet_poison_cleared {s : State} {k v : Nat} (h : bit v 16 = true) : s.srSet k 9 v = .ok (s.modRc k (fun r => { r with poison := 0 })) := by
  simp only [srSet, h, if_true]

/-- WRS of sr.poison clears the register where bit 16 is written, and else only goes on. -/
theorem turns_rcWrs_poison (s : State) (a : Nat) :
    s.Turns (.rcWrs a 9) (fun r => { r with poison := if (s.qv a).toNat / 2 ^ 16 % 2 = 1 then 0 else r.poison, pc := r.pc + 4 }) := by
  cases hb : bit (s.qv a).toNat 16 with
  | true =>
    have set : (s.qv a).toNat / 2 ^ 16 % 2 = 1 := eq_of_beq hb
    simp only [set, if_true]
    exact s.turns_rcWrs (by decide) (srSet_poison_cleared hb)
  | false =>
    have clear : (s.qv a).toNat / 2 ^ 16 % 2 ≠ 1 := ne_of_beq_false hb
    simp only [clear, if_false]
    refine ⟨_, ?_, RcTo.next s 4⟩
    show execRcWrs a 9 s = _
    simp only [execRcWrs, srCause_write_program s.level (n := 9) (by decide), q_eq, srSet_poison_kept hb]

/-- RDFN of a count. -/
theorem puts_rcRdfn_count (s : State) (d j f : Nat) : s.Puts (.rcRdfn d 1 j f) d (BitVec.ofNat 64 ((s.rc s.fcore).fns.getD f []).length) 4 :=
  s.puts_rcPut rfl rfl

/-- RDFN of an element: epoch in the low half and round in the high, zero at or beyond the count. -/
theorem puts_rcRdfn_element (s : State) (d j f : Nat) :
    s.Puts (.rcRdfn d 0 j f) d (match ((s.rc s.fcore).fns.getD f [])[j]? with | some t => BitVec.ofNat 64 (t.1 + t.2 * 2 ^ 32) | none => 0) 4 := by
  refine s.puts_rcPut rfl ?_
  cases ((s.rc s.fcore).fns.getD f [])[j]? <;> rfl

end State

/-- Settles O30: each read is of the value that the register has, each write the change of the controller that the register's rule gives. -/
theorem rcSpecials : Obligations.RcSpecials := by
  unfold Obligations.RcSpecials
  intro s d a j f r v n
  have timer := s.turns_rcWrs (a := a) (n := 6) (by decide) rfl
  have far := s.turns_rcWrs (a := a) (n := 8) (by decide) rfl
  refine ⟨?reads, s.puts_rcRdfn_count d j f, s.puts_rcRdfn_element d j f, timer, far, s.turns_rcWrs_poison a,
    fun l ls hl hv => s.turns_rcWrs (by decide) (State.srSet_lc hl hv)⟩
  case reads =>
    simp only [List.forall_mem_cons]
    exact ⟨s.puts_rcRds (by decide) rfl, s.puts_rcRds (by decide) (ofNat_innermost_lc r.loops), s.puts_rcRds (by decide) rfl, s.puts_rcRds (by decide) rfl,
      s.puts_rcRds (by decide) rfl, s.puts_rcRds (by decide) rfl, s.puts_rcRds (by decide) rfl, s.puts_rcRds (by decide) rfl, s.puts_rcRds (by decide) rfl,
      List.forall_mem_nil _⟩

end Sys2Proof.Machine
end

section
/-! The encoder and the decoder of the instruction stores: the bytes of a word give the word back, and every instruction is read from its own bytes
(R135, R137, R145, R147). -/

namespace Sys2Proof.Laws.RoundTrip
open Machine

/-! ## Every instruction reads back from its own word -/

/-- The lemmas of the constructors, each in its constructor's place. -/
theorem statement (i : Instr) : Statement i :=
  Instr.casesOn i
    add sub mul fma fms fnma min max abs negOp div adds subs mulh addi muli andOp orOp xor notOp shl shr sha rot clz popc andi ori shli shri shai bfx rcp rsq sqrt exp2
    log2 tanh sinp cosp cmp setv sel cntv firstv classOp cpsgn rndi cvt qnt dqn xsc shuf bcast rotl redl scanl iota mov movi movh ldc tagrd fmts emit emitv steer merge
    emeos fwdm call ret filt coal flushc pchk trapc lds sts ldx stx atom lde ste ordt fencem cmpr expd rput rget rfree tbarv tbtst rmk tjoin tmeet tle tadv hins hseek
    hjoin hred hcons hcomp fnrd fnput scope rhash rneg cAdd cSub cMul cFma cMin cMax cAnd cOr cXor cMov cNeg cAbs cExp2 cRcp cRsq cRedl cSel cBcast cShl cShr cEmit
    cSetv mma mmaz mmat mmag accz accrd accwr accax rcAdd rcSub rcMul rcMulh rcAnd rcOr rcXor rcShl rcShr rcSha rcSlt rcSltn rcMin rcMax rcAddi rcAndi rcLd rcSt rcAmo
    rcCas rcFence rcMovk rcRds rcWrs rcRdfn rcOri rcShli rcShri rcBeq rcBne rcBlt rcBge rcBltn rcBgen rcJmp rcJal rcJr rcLoop rcBst rcWaite rcTrap rcSys rcCfg rcIter
    rcSpec rcWaitr rcPstat rcBarc rcInj rcXtr rcCpy rcCpyr rcCpyg rcCpyx rcCpys rcTbi rcTbw rcTbex rcShd rcPub rcDisc rcCpst rcNdsub rcNddep rcNdwait rcNdstat rcComm
    rcColl rcCwait rcCstat rcCsel rcLi rcLih rcJl rcMtp rcMfp rcTlbi rcTlbiRange rcCtxs rcCtxr rcKill rcPrmt rcSealk rcSealkRet rcSealkCur rcScrub rcMigr rcCkpt rcRstr
    rcAttest rcAttestAcc rcAttestClose rcRets rcPartCreate rcPartDestroy rcPartRead rcEvtq rcEvtqWait dropOp endOp freef cEnd cDrop rcEndl rcHalt rcCfgw rcGo rcAbortr
    rcPin rcTlbiAll rcKillPart rcPrmtPart evPowerOnReset evDataTokenArrival evEosArrival evMarkArrival evNoticeArrival evTaskAdmit evTaskDispatch evStagedTokenRelease
    evEosForward evSinkEosCount evMarkerSlotFill evFrontierAdvance evArbiterWeightRecompute evFrameWaitTimeout evReturnArrival evCfgLoadApply evGeneratorPoint
    evBarcPoint evOrderingTokenArrival evVoidSlotFree evCopyOutSlotTake evSectorLanding evRemoteAccessArrival evRemoteStoreCompletion evHistoryCommandAccept
    evHistoryCommandApply evHistoryFrontierAdvance evHistoryEosPass evBucketSpill evBucketFill evMatrixInstanceStart evMatrixEos evMatrixPreemptSave evMatrixIdle
    evIsleRampAdmit evRampStep evPhaseComplete evCommunicatorFormed evCommunicatorBroken evChunkStart evChunkCombine evSlotCloseTimeout evRouterStep evDoneNotice
    evCommit evMemberLost evNodePlace evNodeAging evNodeComplete evHostWrite evHostRaisingWrite evHostChannelPublish evHostTokenDeliver evHostSinkAck evUePacketReceive
    evUePortDown evStraitFlitReceive evNakReceive evCreditReturn evEscapeVcDivert evWatchdogFirst evWatchdogSecond evEventPost evTimerExpiry evPreemptMarkerForward
    evRegionFrozen evPreemptTimeout evKillDone evPowerWindow evThermalWarning evThermalThrottle evThermalShutdown evUncorrectableError rcIllegalEncoding evRemoteReply
    evStraitLinkReturn evThermalThrottleRelease evExtractFifoArrival

/-! ## The bytes of a word -/

/-- A store of two bytes holds the low halfword. -/
theorem le16_halfword (v : Nat) : le16 (BitVec.ofNat 8 v) (BitVec.ofNat 8 (v / 256)) = v % 2 ^ 16 := by
  unfold le16
  rw [BitVec.toNat_ofNat, BitVec.toNat_ofNat]
  omega

/-- A compact word is read from its halfword, whatever stands after it (R137). -/
theorem decodeCell_compact {w : Nat} {i : Instr} (hw : w < 2 ^ 16) (form : bits w 15 14 ≠ 3) (h : decodeCompact w = .ok i) (rest : List Byte) :
    decodeCell (leBytes 2 w ++ rest) = .ok (i, 1) := by
  have half : le16 (BitVec.ofNat 8 w) (BitVec.ofNat 8 (w / 256)) = w := (le16_halfword w).trans (Nat.mod_eq_of_lt hw)
  show decodeCell (BitVec.ofNat 8 w :: BitVec.ofNat 8 (w / 256) :: rest) = _
  simp only [decodeCell, half, form, ne_eq, not_false_eq_true, if_true, h, Except.map]

/-- The form of a 32-bit cell word stands at the top of its upper halfword (R135). -/
theorem bits_upper_halfword (w : Nat) : bits (w / 2 ^ 16) 15 14 = bits w 31 30 := by
  unfold bits
  omega

/-- A 32-bit cell word is read from its two halfwords, the upper first, whatever stands after them (R135). -/
theorem decodeCell_cell {w : Nat} {i : Instr} (hw : w < 2 ^ 32) (form : bits w 31 30 = 3) (h : decodeCell32 w = .ok i) (rest : List Byte) :
    decodeCell (leBytes 2 (w / 65536) ++ leBytes 2 w ++ rest) = .ok (i, 2) := by
  have upper : le16 (BitVec.ofNat 8 (w / 65536)) (BitVec.ofNat 8 (w / 65536 / 256)) = w / 65536 := (le16_halfword _).trans (Nat.mod_eq_of_lt (by omega))
  have upperForm : bits (w / 65536) 15 14 = 3 := (bits_upper_halfword w).trans form
  have whole : w / 65536 * 65536 + w % 2 ^ 16 = w := Nat.div_add_mod' w 65536
  show decodeCell (BitVec.ofNat 8 (w / 65536) :: BitVec.ofNat 8 (w / 65536 / 256) :: BitVec.ofNat 8 w :: BitVec.ofNat 8 (w / 256) :: rest) = _
  simp only [decodeCell, upper, upperForm, le16_halfword, whole, ne_eq, not_true, if_false, h, Except.map]

/-- A word of n bytes is what its bytes hold. -/
theorem leNat_leBytes_of_lt {n w : Nat} (hw : w < 2 ^ (8 * n)) : leNat (leBytes n w) = w := (leNat_leBytes n w).trans (Nat.mod_eq_of_lt hw)

/-- Settles O56: the bytes of each form hold its word, from which the lemma of the instruction's constructor reads it back. -/
theorem roundTrip : Obligations.RoundTrip := by
  unfold Obligations.RoundTrip
  intro i fits
  have word : WordStatement (encodeWord i) i := statement i fits
  unfold encode
  generalize encodeWord i = e at word ⊢
  obtain ⟨form, w⟩ := e
  cases form with
  | compact =>
    obtain ⟨hw, form, read⟩ := word
    exact decodeCell_compact hw form read
  | cell =>
    obtain ⟨hw, form, read⟩ := word
    exact decodeCell_cell hw form read
  | matrix =>
    obtain ⟨hw, read⟩ := word
    have held : leNat (leBytes 8 w) = w := leNat_leBytes_of_lt hw
    exact ⟨leBytes_length 8 w, held.symm ▸ read⟩
  | rc =>
    obtain ⟨hw, short, read⟩ := word
    have held : leNat (leBytes 4 w) = w := leNat_leBytes_of_lt hw
    exact ⟨leBytes_length 4 w, held.symm ▸ short, held.symm ▸ read⟩
  | long =>
    obtain ⟨hw, long, read⟩ := word
    have first : leNat ((leBytes 8 w).take 4) = w % 2 ^ 32 := leNat_leBytes 4 w
    have extension : leNat ((leBytes 8 w).drop 4) = w / 2 ^ 32 := by
      show leNat (leBytes 4 (w / 256 / 256 / 256 / 256)) = _
      rw [leNat_leBytes]
      omega
    show (leBytes 8 w).length = 8 ∧ rcIsLong (leNat ((leBytes 8 w).take 4)) = true ∧
      decodeRcWord (leNat ((leBytes 8 w).take 4)) (leNat ((leBytes 8 w).drop 4)) = .ok i
    rw [first, extension]
    exact ⟨leBytes_length 8 w, long, read⟩
  | event => rfl

/-- Settles O55: the decoder reads each word as it stands. -/
theorem decodeWords : Obligations.DecodeWords := by
  unfold Obligations.DecodeWords
  decide

end Sys2Proof.Laws.RoundTrip
end

section
/-! Causes with which a controller's own instructions fault (R148, R237, R240 to R243, R246 to R256). -/

namespace Sys2Proof.Machine

section Faults
variable {s : State} {i : Instr}

/-- An instruction whose next state is a fault of the executing controller (R240, R305). -/
theorem State.stops_of_eq {t : State} {c addr : Nat} (he : exec i s = .next t) (ht : t = s.rcFault s.fcore ⟨c, addr, 0, false⟩) (hc : c ≠ 0x055 ∧ c ≠ 0x056 := by decide) :
    s.Stops i c addr :=
  State.stops (he.trans (congrArg _ ht)) hc

/-- A target counted in words from the instruction, as a sum cut to 32 bits (R246). -/
theorem relTarget_eq (pc o : Nat) : relTarget pc 15 o = (((pc : Int) + 4 * (BitVec.ofNat 15 o).toInt) % 2 ^ 32).toNat := by
  unfold relTarget cut
  rw [signExt_eq_toInt (by decide)]
  rfl

/-! ### Jumps and loops -/

theorem State.jumpTo_unaligned {target : Nat} (h : target % 4 ≠ 0) (d n : Nat) : s.jumpTo d target n = s.rcFault s.fcore ⟨0x0CA, target, 0, false⟩ := if_pos h

section Loop
variable {c o last : Nat} (ends : relTarget (s.rc s.fcore).pc 15 o = last)

theorem State.rcLoop_wideCount (h : 2 ^ 32 ≤ s.q s.fcore c) : s.rcLoop c o = s.rcTrap 0x0D1 := if_pos h

variable (count : s.q s.fcore c < 2 ^ 32)
include ends count

theorem State.rcLoop_outside (h : s.inProgram s.fcore last = false) : s.rcLoop c o = s.rcFault s.fcore ⟨0x0C9, last, 0, false⟩ := by
  unfold State.rcLoop
  simp only [ends, Nat.not_le.mpr count, h, if_false, Bool.not_false, if_true]

variable (inside : s.inProgram s.fcore last = true)
include inside

theorem State.rcLoop_noEndl (h : decodeRc (s.rcWordAt s.fcore last) 0 ≠ .rcEndl) : s.rcLoop c o = s.rcTrap 0x0D0 := by
  unfold State.rcLoop
  simp only [ends, Nat.not_le.mpr count, inside, h, if_false, Bool.not_true, Bool.false_eq_true, ne_eq, not_false_eq_true, if_true]

theorem State.rcLoop_fifth (h : decodeRc (s.rcWordAt s.fcore last) 0 = .rcEndl) (full : 4 ≤ (s.rc s.fcore).loops.length) : s.rcLoop c o = s.rcTrap 0x0D6 := by
  unfold State.rcLoop
  simp only [ends, Nat.not_le.mpr count, inside, h, full, if_false, Bool.not_true, Bool.false_eq_true, ne_eq, not_true, if_true]

end Loop

/-- ENDL outside a loop, or at another word than the innermost loop's last. -/
theorem State.rcEndl_noLoop (h : ∀ l ls, (s.rc s.fcore).loops = l :: ls → l.last ≠ (s.rc s.fcore).pc) : s.rcEndl = s.rcTrap 0x0D5 := by
  unfold State.rcEndl
  dsimp only
  split
  · rfl
  · next l ls innermost => exact if_pos (h l ls innermost)

/-! ### Atomics, fences, waits -/

theorem State.rcAtomic_reserved {d a b z order scope op : Nat} (h : 10 ≤ op) : s.rcAtomic d a b z order scope op = s.rcTrap 0x0C0 := if_pos h

theorem State.rcFence_noOrder (s : State) : s.rcFence 0 = s.rcTrap 0x0C0 := rfl

theorem State.rcWaite_badMask {d m : Nat} (h : m = 0 ∨ 64 ≤ m) : s.rcWaite d m = s.rcTrap 0x0C0 := if_pos h

/-! ### Special registers -/

/-- RDS of a register that its level does not read (R238, R307). -/
theorem execRcRds_cause {d n c : Nat} (h : srCause s.level n false = some c) : execRcRds d n s = .next (s.rcTrap c) := by
  simp only [execRcRds, h]

/-- WRS of a register that its level does not write (R238, R307). -/
theorem execRcWrs_cause {a n c : Nat} (h : srCause s.level n true = some c) : execRcWrs a n s = .next (s.rcTrap c) := by
  simp only [execRcWrs, h]

/-- A program's registers other than sr.lc, sr.timer, sr.far and sr.poison take no write at any level (R238). -/
theorem srCause_readOnly {n : Nat} (level : Nat) (h : n ∈ [0, 2, 3, 4, 5, 7, 0x00A]) : srCause level n true = some 0x0C4 := by
  simp only [List.mem_cons, List.not_mem_nil, or_false] at h
  have unprivileged : ¬(0x100 ≤ n ∧ n < 0x200 ∧ level = 0) := by omega
  have program : n ≤ 0x00A := by omega
  have fixed : ¬(n = 1 ∨ n = 6 ∨ n = 8 ∨ n = 9) := by omega
  simp [srCause, srWritable, unprivileged, program, fixed]

/-- A number outside the program's registers and the privileged ones is reserved at every level (R238). -/
theorem srCause_reserved {n : Nat} (level : Nat) (write : Bool) (h : 0x00A < n) (hp : n < 0x100 ∨ 0x200 ≤ n) : srCause level n write = some 0x0C0 := by
  have reserved : srWritable level n = none := by
    unfold srWritable
    rw [if_neg (by omega), if_neg (by omega), if_neg (by omega), if_neg (by omega)]
  unfold srCause
  rw [if_neg (by omega), reserved]

/-- Outside a loop there is no sr.lc to write (R247). -/
theorem execRcWrs_noLoop {a : Nat} (h : (s.rc s.fcore).loops = []) : execRcWrs a 1 s = .next (s.rcTrap 0x0D5) := by
  simp only [execRcWrs, srCause_write_program s.level (n := 1) (by decide), State.srSet, h]

/-! ### Phases -/

theorem State.rcGo_refused (hl : (s.rc s.fcore).loads = []) (hr : (s.rc s.fcore).refused = none) (h : (s.rc s.fcore).inPhase = true ∨ (s.rc s.fcore).applied = false) :
    s.rcGo = s.rcTrap 0x0E5 := by
  have cause : ((s.rc s.fcore).inPhase || !(s.rc s.fcore).applied) = true := by simpa using h
  unfold State.rcGo
  rw [State.rcCfgw_goes hl hr]
  exact if_pos cause

/-- An extent of zero makes no iteration space. -/
theorem spaceOk_zero {es : List Nat} (h : 0 ∈ es) : spaceOk es = false := by
  have extents : es.all (fun e => decide (1 ≤ e) && decide (e ≤ 2 ^ 20)) = false := List.all_eq_false.mpr ⟨0, h, by decide⟩
  unfold spaceOk
  rw [extents, Bool.false_and]

theorem State.rcIter_zero {a n : Nat} (hn : a + n ≤ 31) (h : s.q s.fcore (a + n) = 0) : s.rcIter a n = s.rcTrap 0x0E1 := by
  have extent : 0 ∈ (List.range (n + 1)).map (fun j => s.q s.fcore (a + j)) := List.mem_map.mpr ⟨n, List.mem_range.mpr n.lt_succ_self, h⟩
  unfold State.rcIter
  simp only [Nat.not_lt.mpr hn, if_false, spaceOk_zero extent, Bool.not_false, if_true]

theorem State.rcBarc_wideMask {a : Nat} (h : 256 ≤ s.q s.fcore a) : s.rcBarc a = s.rcTrap 0x0E3 := if_pos h

end Faults

/-- Settles O32: where its condition holds, each instruction's meaning is the fault of the executing controller with its cause. -/
theorem rcFaults : Obligations.RcFaults := by
  unfold Obligations.RcFaults
  intro s d a b c n o e z m r x last
  have target : relTarget (s.rc s.fcore).pc 15 o = last := relTarget_eq r.pc o
  rw [show x = s.q s.fcore a from (s.q_eq a).symm]
  refine ⟨fun h => ?trap, fun h => ⟨?shli, ?shri⟩, fun h => ?jr, fun h => ?jl, fun h => ?count, fun h out => ?outside, fun h inside word => ?noEndl,
    fun h inside word full => ?fifth, fun h => ?endl, fun h => ?amo, ?fence, fun h => ?waite, ?bst, fun h => ?readOnly, fun h => ?reserved, fun h => ?lc, fun h => ?cfg,
    fun hl hr h => ?go, fun hn h => ?iter, fun h => ?barc⟩
  case trap => exact State.stops_of_eq rfl (congrArg s.rcTrap (if_pos (Nat.le_of_lt_succ h))) (by omega)
  case shli => exact State.stops (if_pos h) (by decide)
  case shri => exact State.stops (if_pos h) (by decide)
  case jr =>
    have unaligned : s.q s.fcore a % 2 ^ 32 % 4 ≠ 0 := by omega
    exact State.stops_of_eq rfl (State.jumpTo_unaligned unaligned d 4)
  case jl => exact State.stops_of_eq rfl (State.jumpTo_unaligned h d 8)
  case count => exact State.stops_of_eq rfl (State.rcLoop_wideCount h)
  case outside => exact State.stops_of_eq rfl (State.rcLoop_outside target h out)
  case noEndl => exact State.stops_of_eq rfl (State.rcLoop_noEndl target h inside word)
  case fifth => exact State.stops_of_eq rfl (State.rcLoop_fifth target h inside word full)
  case endl => exact State.stops_of_eq rfl (State.rcEndl_noLoop h)
  case amo => exact State.stops_of_eq rfl ((if_neg (by omega)).trans (State.rcAtomic_reserved h))
  case fence => exact State.stops_of_eq rfl s.rcFence_noOrder
  case waite => exact State.stops_of_eq rfl (State.rcWaite_badMask h)
  case bst => exact State.stops_of_eq rfl rfl
  case readOnly => exact State.stops (execRcWrs_cause (srCause_readOnly s.level h)) (by decide)
  case reserved =>
    obtain ⟨above, apart⟩ : 0x00A < n ∧ (n < 0x100 ∨ 0x200 ≤ n) := by
      simp only [List.mem_cons, List.not_mem_nil, or_false] at h
      omega
    exact ⟨State.stops (execRcRds_cause (srCause_reserved s.level false above apart)) (by decide),
      State.stops (execRcWrs_cause (srCause_reserved s.level true above apart)) (by decide)⟩
  case lc => exact State.stops (execRcWrs_noLoop h) (by decide)
  case cfg => exact State.stops_of_eq rfl (if_pos h)
  case go => exact State.stops_of_eq rfl (State.rcGo_refused hl hr h)
  case iter =>
    have zero : s.q s.fcore (a + n) = 0 := by rw [s.q_eq, h]; rfl
    exact State.stops_of_eq rfl (State.rcIter_zero hn zero)
  case barc => exact State.stops_of_eq rfl (State.rcBarc_wideMask h)

end Sys2Proof.Machine
end

section
/-! Cell instructions: one source, integers and bits, special functions, compare and select, moves, tag reads and rescaling (R15, R160 to R176). -/

namespace Sys2Proof.Machine

theorem fmt_ne_none_single {u : Reg} (hu : u.fmt ≠ .none) : ∀ q ∈ [u], q.fmt ≠ .none := by simpa using hu

theorem fmt_ne_none_pair {u v : Reg} (hu : u.fmt ≠ .none) (hv : v.fmt ≠ .none) : ∀ q ∈ [u, v], q.fmt ≠ .none := by simp [hu, hv]

theorem isAny_of_ne_none {f : Fmt} (h : f ≠ .none) : isAny f = true := bne_iff_ne.mpr h

/-! ## One source of a float or integer tag -/

/-- Settles O3: each instruction accepts its source, and its meaning is the row's operation in each lane. -/
theorem cellUnary : Obligations.CellUnary := by
  unfold Obligations.CellUnary
  intro s e d a k u h hs hu one signed abs' neg' kf ki
  have row (i : Instr) {len d : Nat} {fop iop : Nat → Nat × Bool} {f : Env → List Reg → Except Nat Reg} (hx : exec i s = s.compute len d 0 [a] f)
      (hf : f e [u] = .ok (laneFrame e.agent [u] u.fmt 0 (fun j => byTag u.fmt (fop j) (iop j)))) : (one i len d fop iop).Completes s e :=
    LaneRow.completes_of_sources h hs (fmt_ne_none_single (ne_none_of_FI hu)) hx hf
  simp only [List.forall_mem_cons]
  exact ⟨row (.abs d a) rfl (need_accepted hu _), row (.negOp d a) rfl (need_accepted hu _), row (.cAbs d a) rfl (need_accepted hu _),
    row (.cNeg d a) rfl (need_accepted hu _), row (.addi d a k) rfl (need_accepted hu _), row (.muli d a k) rfl (need_accepted hu _), List.forall_mem_nil _⟩

/-! ## Integers and bits -/

section Integers

variable {u v : Reg} (hu : isI u.fmt = true) (e : Env)
include hu

/-- R165: the count of a shift may carry any class I tag. -/
theorem shiftSem_ok (hv : isI v.fmt = true) (op : Nat → Nat → Nat → Nat) : shiftSem op e [u, v] =
    .ok (laneFrame e.agent [u, v] u.fmt 0 (fun j => (op (fmtWidth u.fmt) (elemOf u j) (elemOf v j), false))) :=
  (need_accepted hu _).trans (need_accepted hv _)

theorem bitSem_ok (hv : v.fmt = u.fmt) (op : Nat → Nat → Nat) : bitSem op e [u, v] =
    .ok (laneFrame e.agent [u, v] u.fmt 0 (fun j => (op (elemOf u j) (elemOf v j), false))) := sameClass_accepted hu hv _

theorem intSem2_ok (hv : v.fmt = u.fmt) (op : Fmt → Int → Int → Nat) : intSem2 op e [u, v] =
    .ok (laneFrame e.agent [u, v] u.fmt 0 (fun j => (op u.fmt (iAt u j) (iAt v j), false))) := by
  unfold iAt
  rw [hv]
  exact sameClass_accepted hu hv _

end Integers

/-- Settles O4: the two sources of an integer operation carry one tag, those of a shift need not; both are the row's operation in each lane. -/
theorem cellInteger : Obligations.CellInteger := by
  unfold Obligations.CellInteger
  intro s e d a b u v h hs hu hv row w x n
  have completes (i : Instr) {len d : Nat} {g : Nat → Nat} {f : Env → List Reg → Except Nat Reg} (hx : exec i s = s.compute len d 0 [a, b] f)
      (hf : f e [u, v] = .ok (laneFrame e.agent [u, v] u.fmt 0 (fun j => (g j, false)))) : (row i len d g).Completes s e :=
    LaneRow.completes_of_sources h hs (fmt_ne_none_pair (ne_none_of_I hu) (ne_none_of_I hv)) hx hf
  simp only [List.forall_mem_cons]
  refine ⟨?shifts, fun ht => ?oneTag⟩
  case shifts =>
    have shift (i : Instr) {len d : Nat} {op : Nat → Nat → Nat → Nat} (hx : exec i s = s.compute len d 0 [a, b] (shiftSem op)) :=
      completes i hx (shiftSem_ok hu e hv op)
    exact ⟨shift (.shl d a b) rfl, shift (.cShl d a b) rfl, shift (.shr d a b) rfl, shift (.cShr d a b) rfl, shift (.sha d a b) rfl,
      shift (.rot d a b) rfl, List.forall_mem_nil _⟩
  case oneTag =>
    have bitwise (i : Instr) {len d : Nat} {op : Nat → Nat → Nat} (hx : exec i s = s.compute len d 0 [a, b] (bitSem op)) :=
      completes i hx (bitSem_ok hu e ht op)
    have integer (i : Instr) {len d : Nat} {op : Fmt → Int → Int → Nat} (hx : exec i s = s.compute len d 0 [a, b] (intSem2 op)) :=
      completes i hx (intSem2_ok hu e ht op)
    exact ⟨bitwise (.andOp d a b) rfl, bitwise (.orOp d a b) rfl, bitwise (.xor d a b) rfl, bitwise (.cAnd d a b) rfl, bitwise (.cOr d a b) rfl,
      bitwise (.cXor d a b) rfl, integer (.adds d a b) rfl, integer (.subs d a b) rfl, integer (.mulh d a b) rfl, List.forall_mem_nil _⟩

theorem elemOf_mod (u : Reg) (j : Nat) : elemOf u j % 2 ^ fmtWidth u.fmt = elemOf u j := Nat.mod_mod ..

/-- R165: BFX reads its field from the element, which is already cut to its width. -/
theorem bfxSem_ok {u : Reg} (hu : isI u.fmt = true) (e : Env) (x m l : Nat) : bitSem1 (bfxBits x m l) e [u] =
    .ok (laneFrame e.agent [u] u.fmt 0 (fun j =>
      (let f := bits (elemOf u j) (l + m) l; if x = 1 then cut (fmtWidth u.fmt) (signExt (m + 1) f) else f % 2 ^ fmtWidth u.fmt, false))) := by
  refine (need_accepted hu _).trans ?_
  simp only [bfxBits, elemOf_mod]
  rfl

/-- Settles O5: each instruction accepts its source and is the row's operation on each element. -/
theorem cellBits : Obligations.CellBits := by
  unfold Obligations.CellBits
  intro s e d a k x m l u h hs hu w imm row
  have hn := fmt_ne_none_single (ne_none_of_I hu)
  have bitwise (i : Instr) {op : Nat → Nat → Nat} (hx : exec i s = s.compute 2 d 0 [a] (bitSem1 op)) : (row i (op w)).Completes s e :=
    LaneRow.completes_of_sources h hs hn hx (need_accepted hu _)
  simp only [List.forall_mem_cons]
  exact ⟨bitwise (.notOp d a) rfl, bitwise (.clz d a) rfl, bitwise (.popc d a) rfl, bitwise (.andi d a k) rfl, bitwise (.ori d a k) rfl,
    bitwise (.shli d a k) rfl, bitwise (.shri d a k) rfl, bitwise (.shai d a k) rfl,
    LaneRow.completes_of_sources h hs hn rfl (bfxSem_ok hu e x m l), List.forall_mem_nil _⟩

/-! ## Special functions -/

/-- Settles O6: each instruction accepts its source and rounds its function's value once in each lane. -/
theorem cellSpecial : Obligations.CellSpecial := by
  unfold Obligations.CellSpecial
  intro s e d a r n u h hs hu row
  have special (i : Instr) {k rm n len d : Nat} (hx : exec i s = s.compute len d rm [a] (specialSem k rm n)) : (row i k rm n len d).Completes s e :=
    LaneRow.completes_of_sources h hs (fmt_ne_none_single (ne_none_of_F hu)) hx (need_accepted hu _)
  simp only [List.forall_mem_cons]
  exact ⟨special (.rcp d a r n) rfl, special (.rsq d a r n) rfl, special (.sqrt d a r n) rfl, special (.exp2 d a r n) rfl, special (.log2 d a r n) rfl,
    special (.tanh d a r n) rfl, special (.sinp d a r n) rfl, special (.cosp d a r n) rfl, special (.cRcp d a) rfl, special (.cRsq d a) rfl,
    special (.cExp2 d a) rfl, List.forall_mem_nil _⟩

/-! ## Compare, select, sign copy, classification, rounding to an integral value -/

section Selected

variable {u v p : Reg} (e : Env)

theorem selSem_ok (hu : u.fmt ≠ .none) (hv : v.fmt = u.fmt) (hp : isI p.fmt = true) : selSem e [u, v, p] =
    .ok (laneFrame e.agent [u, v, p] u.fmt u.xs (fun j => (if elemOf p j ≠ 0 then laneOf u j else laneOf v j, false))) :=
  (need_accepted (isAny_of_ne_none hu) _).trans ((sameTag_accepted hv.symm _).trans (need_accepted hp _))

/-- R168: the sign is the highest bit of the second source's element. -/
theorem cpsgnSem_ok (hu : isF u.fmt = true) (hv : v.fmt = u.fmt) : cpsgnSem e [u, v] =
    .ok (laneFrame e.agent [u, v] u.fmt 0 (fun j => (signLane u.fmt (elemOf u j) (bit (elemOf v j) (fmtWidth u.fmt - 1)), false))) := by
  refine (sameClass_accepted hu hv _).trans ?_
  rw [hv]
  rfl

end Selected

/-- Settles O7: each instruction accepts its sources, and its meaning is the row's operation in each lane. -/
theorem cellCompareSelect : Obligations.CellCompareSelect := by
  unfold Obligations.CellCompareSelect
  intro s e d a b c r u v h
  refine ⟨fun hs hv => ⟨fun hu => ?cmp, fun hu => ?cpsgn⟩, fun p hs hv hu hp => ?sel, fun hs hu => ⟨?classify, ?rndi⟩⟩
  case cmp =>
    have hn := ne_none_of_FI hu
    refine LaneRow.completes_of_sources h hs (fmt_ne_none_pair hn (hv ▸ hn)) rfl ((sameClass_accepted hu hv _).trans ?_)
    unfold fAt iAt
    rw [hv]
    rfl
  case cpsgn =>
    have hn := ne_none_of_F hu
    exact LaneRow.completes_of_sources h hs (fmt_ne_none_pair hn (hv ▸ hn)) rfl (cpsgnSem_ok e hu hv)
  case sel =>
    have hn : ∀ q ∈ [u, v, p], q.fmt ≠ .none := by simp [hv, hu, ne_none_of_I hp]
    simp only [List.forall_mem_cons]
    exact ⟨LaneRow.completes_of_sources h hs hn rfl (selSem_ok e hu hv hp), LaneRow.completes_of_sources h hs hn rfl (selSem_ok e hu hv hp),
      List.forall_mem_nil _⟩
  case classify => exact LaneRow.completes_of_sources h hs (fmt_ne_none_single (ne_none_of_F hu)) rfl (need_accepted hu _)
  case rndi =>
    refine LaneRow.completes_of_sources h hs (fmt_ne_none_single (ne_none_of_F hu)) rfl ((need_accepted hu _).trans ?_)
    refine congrArg (fun lane => Except.ok (laneFrame e.agent [u] u.fmt 0 lane)) (funext fun i => ?_)
    dsimp only [fAt]
    cases fval u.fmt (elemOf u i) with
    | nan => rfl
    | inf g => rfl
    | fin g m x => exact (apply_ite (fun w : Nat => (w, false)) (m = 0) _ _).symm

/-! ## Moves of lanes, valid bits, marks and constants -/

section Moved

variable {u v : Reg} (e : Env)

theorem shufSem_ok (hu : u.fmt ≠ .none) (hv : isI v.fmt = true) : shufSem e [u, v] =
    .ok (mkReg u.fmt u.xs (poisonOf [u, v] false) (originOf [u, v]) (fun i => if okAt v i then bits? u (elemOf v i % 16) else none)) :=
  (need_accepted (isAny_of_ne_none hu) _).trans (need_accepted hv _)

/-- R168: SETV keeps the lanes whose predicate is valid and not zero. -/
theorem setvSem_ok (hu : u.fmt ≠ .none) (hv : isI v.fmt = true) : setvSem e [u, v] =
    .ok (mkReg u.fmt u.xs (poisonOf [u, v] false) (originOf [u, v]) (fun i => if okAt v i && elemOf v i != 0 then bits? u i else none)) := by
  refine (need_accepted (isAny_of_ne_none hu) _).trans ((need_accepted hv _).trans ?_)
  refine congrArg (fun lane => Except.ok (mkReg u.fmt u.xs (poisonOf [u, v] false) (originOf [u, v]) lane)) (funext fun i => ?_)
  unfold bits?
  cases okAt u i <;> simp

/-- R181: a lane valid in one source passes; where both are valid, x names the source that wins. -/
theorem mergeSem_ok (hv : v.fmt = u.fmt) (x : Nat) : mergeSem x e [u, v] =
    .ok (mkReg u.fmt u.xs (poisonOf [u, v] false) (originOf [u, v])
      (fun i => if x = 0 then (bits? u i).or (bits? v i) else if okAt u i && !okAt v i then bits? u i else bits? v i)) := by
  refine (sameTag_accepted hv.symm _).trans ?_
  refine congrArg (fun lane => Except.ok (mkReg u.fmt u.xs (poisonOf [u, v] false) (originOf [u, v]) lane)) (funext fun i => ?_)
  unfold bits?
  by_cases hx : x = 0 <;> cases okAt u i <;> cases okAt v i <;> simp [hx]

end Moved

/-- Settles O8: each instruction accepts its sources and makes of them a register lane by lane, with their marks. -/
theorem cellMoves : Obligations.CellMoves := by
  unfold Obligations.CellMoves
  intro s e d a b n x u v h
  refine ⟨fun hs hu => ?single, fun hs => ?pair, ?made⟩
  case single =>
    intro same count
    have moved (i : Instr) {len d : Nat} {lane : Nat → Option Nat} {f : Env → List Reg → Except Nat Reg} (hx : exec i s = s.compute len d 0 [a] f)
        (hf : f e [u] = .ok (mkReg u.fmt u.xs u.p u.origin lane)) : (same i len d lane).Completes s e :=
      RegRow.completes_of_sources h hs (fmt_ne_none_single hu) hx hf (mkReg_lanes ..)
    have counted (i : Instr) {k : Nat} {f : Env → List Reg → Except Nat Reg} (hx : exec i s = s.compute 2 d 0 [a] f)
        (hf : f e [u] = .ok (splat k u)) : (count i k).Completes s e :=
      RegRow.completes_of_sources h hs (fmt_ne_none_single hu) hx hf (mkReg_lanes ..)
    have copied (i : Instr) {len d : Nat} (hx : exec i s = s.compute len d 0 [a] movSem) :
        ∃ t, exec i s = .next t ∧ Wrote s t e len d (isDrawing 0 [a]) u :=
      hx ▸ State.compute_next h (hs ▸ fmt_ne_none_single hu) (hs ▸ rfl)
    simp only [List.forall_mem_cons]
    exact ⟨⟨moved (.bcast d a n) rfl rfl, moved (.cBcast d a n) rfl rfl, moved (.rotl d a n) rfl rfl, counted (.cntv d a) rfl rfl,
      counted (.firstv d a) rfl rfl, counted (.pchk d a) rfl rfl, List.forall_mem_nil _⟩, copied (.mov d a) rfl, copied (.cMov d a) rfl, List.forall_mem_nil _⟩
  case pair =>
    intro both
    have row (i : Instr) {len d : Nat} {lane : Nat → Option Nat} {f : Env → List Reg → Except Nat Reg} (hu : u.fmt ≠ .none) (hv : v.fmt ≠ .none)
        (hx : exec i s = s.compute len d 0 [a, b] f)
        (hf : f e [u, v] = .ok (mkReg u.fmt u.xs (poisonOf [u, v] false) (originOf [u, v]) lane)) : (both i len d lane).Completes s e :=
      RegRow.completes_of_sources h hs (fmt_ne_none_pair hu hv) hx hf (mkReg_marks2 ..)
    refine ⟨fun hu hv => ?predicate, fun hv hu => row (.merge d a b x) hu (hv ▸ hu) rfl (mergeSem_ok e hv x)⟩
    have hn := ne_none_of_I hv
    simp only [List.forall_mem_cons]
    exact ⟨row (.shuf d a b) hu hn rfl (shufSem_ok e hu hv), row (.setv d a b) hu hn rfl (setvSem_ok e hu hv),
      row (.cSetv d a b) hu hn rfl (setvSem_ok e hu hv), List.forall_mem_nil _⟩
  case made =>
    intro made
    have constant {w : RegRow} {f : Env → List Reg → Except Nat Reg} (hx : exec w.instr s = s.compute w.len w.d w.rm [] f) (hs : w.srcs = [])
        (hf : f e [] = .ok (mkReg w.fmt w.xs w.p w.origin w.lane)) : w.Completes s e := by
      refine RegRow.completes_of_sources h (rs := []) ?_ (List.forall_mem_nil _) (hs ▸ hx) hf (mkReg_lanes ..)
      rw [hs]
      rfl
    refine ⟨constant rfl rfl rfl, constant rfl rfl rfl, constant rfl rfl rfl, fun hs hu => ?movh⟩
    have accepted : (u.fmt == .s32 || u.fmt == .n32) = true := by simpa using hu
    have hn : u.fmt ≠ .none := by rcases hu with hf | hf <;> simp [hf]
    exact LaneRow.completes_of_sources h hs (fmt_ne_none_single hn) rfl (need_accepted (p := fun f => f == .s32 || f == .n32) accepted _)

/-! ## Tag reads -/

/-- R175: the fields in their order, the last for every further number. -/
theorem tagField_eq_getD (t : Task) (k f : Nat) :
    let o : PortTok := (t.ops[k]?).getD default
    tagField t k f = ([t.iter.toNat, t.frame, t.ctx, t.cls, fmtCode o.tok.reg.fmt, Bool.nat o.tok.reg.p, o.tok.reg.origin,
      o.tok.reg.valid.toNat, o.tok.reg.xs, Bool.nat o.tok.b, o.tok.route, o.pos]).getD f o.pos := by
  match f with
  | 0 | 1 | 2 | 3 | 4 | 5 | 6 | 7 | 8 | 9 | 10 | 11 | _ + 12 => rfl

/-- Settles O9: the field is the model's, and its poison and origin are those of the operand. -/
theorem cellTagRead : Obligations.CellTagRead := by
  unfold Obligations.CellTagRead
  intro s e d k f h o t field
  have hf : tagrdSem k f e [] = .ok (mkReg .n32 0 (decide (4 ≤ f) && t.p) t.origin (fun _ => some field)) := by
    unfold tagrdSem
    rw [tagField_eq_getD]
    rfl
  exact RegRow.completes_of_sources h rfl (List.forall_mem_nil _) rfl hf (mkReg_lanes ..)

/-! ## Rescaling -/

section Rescaled

variable {u v : Reg} (hu : isFMX u.fmt = true) (hv : isMX v.fmt = true) (e : Env) (rm : Nat)
include hu hv

/-- R170: under the scale 0xFF each valid element of a is zero, and the result is poisoned. -/
theorem xscSem_of_no_scale (hx : v.xs = 255) : xscSem rm e [u, v] =
    .ok (mkReg v.fmt 255 true (resultOrigin e.agent [u, v] true) (fun i => if okAt u i then some 0 else none)) :=
  (need_accepted hu _).trans ((need_accepted hv _).trans (if_pos hx))

/-- R170: b's mark joins those of the conversion of a's lanes, between a's and the agent's in origin. -/
theorem xscSem_lanes (hx : v.xs ≠ 255) :
    let conv (i : Nat) : Nat × Bool := convert u.fmt u.xs (elemOf u i) v.fmt v.xs rm (e.rnd i) true
    ∃ q, xscSem rm e [u, v] = .ok q ∧ LanesAre q v.fmt v.xs (u.p || v.p || (List.range 16).any (fun i => okAt u i && (conv i).2))
      (if u.p then u.origin else if v.p then v.origin else e.agent) (fun i => if okAt u i then some (conv i).1 else none) := by
  intro conv
  refine ⟨_, (need_accepted hu _).trans ((need_accepted hv _).trans (if_neg hx)), ?_⟩
  have hr : LaneResult e.agent [u] v.fmt v.xs conv (laneFrame e.agent [u] v.fmt v.xs conv) := laneFrame_result ..
  set r := laneFrame e.agent [u] v.fmt v.xs conv
  have hp : r.p = (u.p || (List.range 16).any (fun i => okAt u i && (conv i).2)) := by simpa using hr.poison
  have ho : r.origin = if u.p then u.origin else if r.p then e.agent else 0 := by
    rw [hr.origin]
    cases hu : u.p <;> simp [hu]
  refine ⟨hr.fmt, hr.xs, ?poison, ?origin, fun i hi => (hr.valid i hi).trans ?_, fun i hi => (hr.lane i hi).trans ?_⟩
  case poison =>
    show (r.p || v.p) = _
    rw [hp, Bool.or_right_comm]
  case origin =>
    show (if u.p || (r.p && !v.p) then r.origin else if v.p then v.origin else 0) = _
    rw [ho, hp]
    generalize (List.range 16).any _ = exc
    cases u.p <;> cases v.p <;> cases exc <;> rfl
  all_goals cases hok : okAt u i <;> simp [hok]

end Rescaled

/-- Settles O11: XSC accepts its sources and converts a's lanes under b's scale, or none where b has no scale. -/
theorem cellRescale : Obligations.CellRescale := by
  unfold Obligations.CellRescale
  intro s e d a b r u v h hs hu hv conv exc
  have hn := fmt_ne_none_pair (ne_none_of_FMX hu) (ne_none_of_MX hv)
  refine ⟨fun hx => ?unscaled, fun hx => ?scaled⟩
  case unscaled =>
    refine RegRow.completes_of_sources h hs hn rfl (xscSem_of_no_scale hu hv e r hx) ((mkReg_lanes ..).congr rfl ?_ (fun _ _ => rfl))
    cases hp : u.p <;> cases hq : v.p <;> simp [resultOrigin, originOf, hp, hq]
  case scaled =>
    obtain ⟨q, hq, hl⟩ := xscSem_lanes hu hv e r hx
    exact RegRow.completes_of_sources h hs hn rfl hq hl

end Sys2Proof.Machine
end

section
/-! What a task stages: tokens that it emits (R178 to R182, R188, R224), and those of its coalescing buffer (R187). -/

namespace Sys2Proof.Machine

/-! ## An instruction that stages -/

section Stages

variable {s t : State} {e : Env} {i : Instr} {len : Nat} {cs : List Nat} {rs : List Reg} {f : Env → List Reg → Except Nat State} {upd : Ctx → Ctx} {gs : List Staged}
  (h : s.Runs e) (hs : s.sources e cs = rs) (hn : ∀ q ∈ rs, q.fmt ≠ .none) (hx : exec i s = .next (s.flow len cs f))
include h hs hn hx

theorem State.stages (hf : f e rs = .ok t) (ht : Restaged s t e upd gs) : ∃ r, exec i s = .next r ∧ StagedBy s r e len (isDrawing 0 cs) upd gs := by
  subst hs
  rw [hx]
  exact State.flow_next h hn hf ht

/-- An instruction that emits a token which its edge takes stages it (R178). -/
theorem State.stages_token {edge cls frame : Nat} {iter : W16} {r : Reg} (hf : f e rs = s.emit e edge (dataToken r cls frame iter)) (ht : s.takes e edge r.fmt cls frame iter) :
    ∃ t, exec i s = .next t ∧ StagedBy s t e len (isDrawing 0 cs) id [.tok edge (dataToken r cls frame iter)] :=
  State.stages h hs hn hx (hf.trans (ht.emit_data rfl)) ((Restaged.refl h).put _)

end Stages

/-! ## Tagops and kept lanes (R139, R179, R180) -/

section Emits

variable {s : State} {e : Env} {t : Nat} {iter : W16} {u q : Reg}

theorem tagIter_none (t : Nat) (iter : W16) : tagIter t iter none = .ok (if t = 1 then iter + 1 else if t = 2 then iter - 1 else if t = 3 then 0 else iter) := by
  match t with
  | 0 | 1 | 2 | 3 | 4 | 5 | 6 | _ + 7 => rfl

theorem tagIter_set (ok : okAt q 0 = true) : tagIter 6 iter (some q) = .ok (BitVec.ofNat 16 (laneOf q 0)) := if_pos ok

theorem emitOne_ok {k : W16} (hk : tagIter t e.task.iter none = .ok k) (edge cls : Nat) :
    emitOne s edge cls t e [u] = s.emit e edge (dataToken u cls e.task.frame k) := by
  unfold emitOne
  rw [hk]
  rfl

theorem emitOne_set (ok : okAt q 0 = true) (edge cls : Nat) :
    emitOne s edge cls 6 e [u, q] = s.emit e edge (dataToken u cls e.task.frame (BitVec.ofNat 16 (laneOf q 0))) := by
  unfold emitOne
  dsimp only
  rw [tagIter_set ok]
  rfl

/-- A token's register with the lanes that a predicate keeps, under the marks of both (R15, R179, R180). -/
def keptBy (u q : Reg) (keep : Nat → Bool) : Reg := keepLanes u (poisonOf [u, q] false) (originOf [u, q]) keep

theorem keptBy_lanes (u q : Reg) (keep : Nat → Bool) :
    LanesAre (keptBy u q keep) u.fmt u.xs (u.p || q.p) (if u.p then u.origin else q.origin) (fun i => if keep i then bits? u i else none) := by
  refine (mkReg_marks2 ..).congr rfl rfl (fun i _ => ?_)
  unfold bits?
  cases okAt u i <;> cases keep i <;> rfl

theorem emitPred_ok {k : W16} (hk : tagIter t e.task.iter none = .ok k) (edge cls : Nat) :
    emitPred s edge cls t e [u, q] = s.emit e edge (dataToken (keptBy u q (holds q)) cls e.task.frame k) := by
  unfold emitPred
  rw [hk]
  rfl

theorem steerTo_whole {k : W16} (hk : tagIter t e.task.iter none = .ok k) {x : Nat} (hx : x ≠ 1) (edge cls : Nat) :
    steerTo s edge cls t x e [u, q] = s.emit e (if holds q 0 then edge + 1 else edge) (dataToken (keptBy u q (fun _ => true)) cls e.task.frame k) := by
  unfold steerTo
  rw [hk]
  exact if_neg hx

/-- The lanes split over both edges: what the first has staged is not on the second (R180). -/
theorem steerTo_split (h : s.Runs e) {k : W16} (hk : tagIter t e.task.iter none = .ok k) {edge cls : Nat} (low : s.takes e edge u.fmt cls e.task.frame k)
    (high : s.takes e (edge + 1) u.fmt cls e.task.frame k) :
    let first : Staged := .tok edge (dataToken (keptBy u q (fun i => !holds q i)) cls e.task.frame k)
    let second : Staged := .tok (edge + 1) (dataToken (keptBy u q (holds q)) cls e.task.frame k)
    steerTo s edge cls t 1 e [u, q] = .ok ((s.putStaged e first).putStaged e second) := by
  intro first second
  have other : ∀ tok, first ≠ .tok (edge + 1) tok := fun tok eq => absurd (Staged.tok.inj eq).1 (by omega)
  have one : s.emit e edge (dataToken (keptBy u q (fun i => !holds q i)) cls e.task.frame k) = .ok (s.putStaged e first) := low.emit_data rfl
  have two : (s.putStaged e first).emit e (edge + 1) (dataToken (keptBy u q (holds q)) cls e.task.frame k) = .ok ((s.putStaged e first).putStaged e second) :=
    (high.putStaged h first other).emit_data rfl
  unfold steerTo
  rw [hk]
  show (s.emit e edge (dataToken (keptBy u q (fun i => !holds q i)) cls e.task.frame k) >>= fun s1 => s1.emit e (edge + 1) (dataToken (keptBy u q (holds q)) cls e.task.frame k)) = _
  rw [one]
  exact two

/-- A predicate of no lane raises no trap (R188). -/
theorem trapIf_none (ho : ∀ i, i < 16 → okAt u i = false ∨ laneOf u i = 0) (n : Nat) : trapIf s n e [u] = .ok s := by
  refine if_neg ?_
  simp only [List.any_eq_true, List.mem_range, holds, Bool.and_eq_true, bne_iff_ne, not_exists, not_and, ne_eq, not_not]
  intro i hi ok
  exact (ho i hi).resolve_left (by simp [ok])

/-- The token of FNPUT: lanes 0 to 7 of its source (R224). -/
theorem fnputTo_ok {f : List Time} (hf : u.fmt = .n32) (front : frontOf u = some f) (edge : Nat) :
    fnputTo s edge e [u] =
      .ok (s.putStaged e (.tok edge (markToken (mkReg .n32 0 u.p u.origin (fun i => if i < 8 then bits? u i else none)) 2 e.task.frame e.task.iter))) := by
  have chain : antichain u = .ok f := by
    unfold antichain
    rw [if_neg (not_not_intro hf), front]
  unfold fnputTo
  dsimp only
  rw [chain]
  rfl

end Emits

/-- Settles O14: each instruction emits its token on an edge that takes it, or stages its token, or goes on as it was. -/
theorem cellEmits : Obligations.CellEmits := by
  unfold Obligations.CellEmits
  intro s e E a c t g x u q h hu hq iter stages holds' keeps
  have tag : tagIter t e.task.iter none = .ok iter := tagIter_none t e.task.iter
  have kept (keep : Nat → Bool) : keeps (keptBy u q keep) keep := keptBy_lanes u q keep
  refine ⟨fun hs => ?single, fun hs ok takes => ?set, fun hs ht => ?predicated, ?emeos, fun empty => ?fwdmEmpty, fun m full => ?fwdmFull⟩
  case single =>
    have hn := fmt_ne_none_single hu
    refine ⟨fun ht takes => ?emit, fun takes => ?cEmit, fun f hf front => ?fnput, fun ho => ?trapc⟩
    case emit =>
      have run : exec (.emit E a c t g) s = .next (s.flow 2 [a] (emitOne s E c t)) := congrArg (fun cs => Host.Outcome.next (s.flow 2 cs (emitOne s E c t))) (if_neg ht)
      exact State.stages_token h hs hn run (emitOne_ok tag E c) takes
    case cEmit => exact State.stages_token h hs hn rfl (emitOne_ok rfl E c) takes
    case fnput =>
      obtain ⟨r, run, staged⟩ := State.stages (i := .fnput E a) h hs hn rfl (fnputTo_ok hf front E) ((Restaged.refl h).put _)
      exact ⟨_, r, run, staged, mkReg_lanes ..⟩
    case trapc => exact State.stages h hs hn rfl (trapIf_none ho g) (Restaged.refl h)
  case set => exact State.stages_token h hs (fmt_ne_none_pair hu hq) rfl (emitOne_set ok E c) takes
  case predicated =>
    have hn := fmt_ne_none_pair hu hq
    refine ⟨fun takes => ?emitv, fun hx takes => ?whole, fun low high => ?split⟩
    case emitv => exact ⟨_, kept _, State.stages_token h hs hn rfl (emitPred_ok tag E c) takes⟩
    case whole => exact ⟨_, kept _, State.stages_token h hs hn rfl (steerTo_whole tag hx E c) takes⟩
    case split => exact ⟨_, _, kept _, kept _, State.stages h hs hn rfl (steerTo_split h tag low high) (((Restaged.refl h).put _).put _)⟩
  case emeos => exact State.stages h (cs := []) rfl (List.forall_mem_nil _) rfl rfl ((Restaged.refl h).put _)
  case fwdmEmpty =>
    have stays : fwdmTo s E e = s := by unfold fwdmTo; rw [empty]
    exact State.stages h (cs := []) rfl (List.forall_mem_nil _) rfl (congrArg Except.ok stays) (Restaged.refl h)
  case fwdmFull =>
    have moves : fwdmTo s E e = (s.putStaged e (.tok E m)).modCtx e.core e.cell e.task.ctx (fun k => { k with slot := none }) := by unfold fwdmTo; rw [full]
    exact State.stages h (cs := []) rfl (List.forall_mem_nil _) rfl (congrArg Except.ok moves) (((Restaged.refl h).put _).ctx _)

/-! ## The coalescing buffer (R187) -/

section Coalesce

variable {s : State} {e : Env} {edge : Nat} {u : Reg}

/-- The elements that COAL appends: those of its source's valid lanes. -/
def coalElems (u : Reg) : List W32 := (List.range 16).filterMap (fun i => (bits? u i).map (BitVec.ofNat 32))

/-- The buffer after COAL has appended a source's elements. -/
def Coal.append (b : Coal) (u : Reg) (edge : Nat) (t : Task) : Coal :=
  let poisoned := !b.elems.isEmpty && b.p
  { elems := b.elems ++ coalElems u, fmt := u.fmt, xs := u.xs, p := poisoned || u.p, origin := if poisoned then b.origin else if u.p then u.origin else 0,
    edge := edge, cls := t.cls, frame := t.frame, iter := t.iter }

/-- A source that the buffer accepts: no record, and of the buffer's format, scale and edge where it holds anything. -/
def Coal.Accepts (b : Coal) (u : Reg) (edge : Nat) : Prop := u.fmt ≠ .rcd ∧ (b.elems = [] ∨ (u.fmt = b.fmt ∧ u.xs = b.xs ∧ b.edge = edge))

theorem Coal.Accepts.noMismatch {b : Coal} (ha : b.Accepts u edge) : ¬((!b.elems.isEmpty) = true ∧ (u.fmt ≠ b.fmt ∨ u.xs ≠ b.xs)) := by
  rcases ha.2 with empty | ⟨fmt, xs, -⟩
  · simp [empty]
  · simp [fmt, xs]

theorem Coal.Accepts.noOtherEdge {b : Coal} (ha : b.Accepts u edge) : ¬((!b.elems.isEmpty) = true ∧ b.edge ≠ edge) := by
  rcases ha.2 with empty | ⟨-, -, same⟩
  · simp [empty]
  · simp [same]

/-- What COAL does with a source that the buffer accepts. -/
theorem coalTo_accepts (ha : (s.ctx e.core e.cell e.task.ctx).coal.Accepts u edge) : coalTo s edge e [u] =
    let b := (s.ctx e.core e.cell e.task.ctx).coal.append u edge e.task
    if coalElems u = [] then .ok s
    else if b.elems.length < 16 then .ok (s.modCtx e.core e.cell e.task.ctx (fun c => { c with coal := b }))
    else do
      let s1 ← s.emit e edge (dataToken b.reg e.task.cls e.task.frame e.task.iter)
      return s1.modCtx e.core e.cell e.task.ctx (fun c => { c with coal := { b with elems := b.elems.drop 16, p := u.p, origin := if u.p then u.origin else 0 } }) :=
  (if_neg ha.1).trans ((if_neg ha.noMismatch).trans (if_neg ha.noOtherEdge))

theorem packed_lanes (es : List W32) (fmt : Fmt) (xs : Nat) (p : Bool) (origin : Nat) :
    LanesAre (packed (es.take 16) fmt xs p origin) fmt xs p origin (fun i => (es[i]?).map (·.toNat)) := by
  refine (mkReg_lanes ..).congr rfl rfl fun i hi => ?_
  rw [List.getElem?_take_of_lt hi]

theorem flushTo_empty (he : (s.ctx e.core e.cell e.task.ctx).coal.elems = []) : flushTo s edge e = .ok s := if_pos (by rw [he]; rfl)

/-- What FLUSHC does with a buffer of its edge that holds something. -/
theorem flushTo_full (hn : (s.ctx e.core e.cell e.task.ctx).coal.elems ≠ []) (he : (s.ctx e.core e.cell e.task.ctx).coal.edge = edge) : flushTo s edge e =
    (do
      let s1 ← s.emit e edge (dataToken (s.ctx e.core e.cell e.task.ctx).coal.reg e.task.cls e.task.frame e.task.iter)
      return s1.modCtx e.core e.cell e.task.ctx (fun c => { c with coal := { c.coal with elems := [] } })) :=
  (if_neg (by simpa using hn)).trans (if_neg (not_not_intro he))

theorem exec_coal (s : State) (edge a : Nat) : exec (.coal (48 + edge) a) s = .next (s.flow 2 [a] (coalTo s edge)) := by
  show Host.Outcome.next (s.flow 2 [a] (coalTo s (48 + edge - 48))) = _
  rw [Nat.add_sub_cancel_left]

theorem exec_flushc (s : State) (edge : Nat) : exec (.flushc (48 + edge)) s = .next (s.flow 2 [] (fun e _ => flushTo s edge e)) := by
  show Host.Outcome.next (s.flow 2 [] (fun e _ => flushTo s (48 + edge - 48) e)) = _
  rw [Nat.add_sub_cancel_left]

end Coalesce

/-- Settles O16: COAL with no valid element, with a buffer that is not full after it, with one that is; FLUSHC with an empty buffer and with another. -/
theorem cellCoalesce : Obligations.CellCoalesce := by
  unfold Obligations.CellCoalesce
  intro s e E a u h _ b new all poisoned buf origin
  refine ⟨fun hs hu notRecord same => ?coal, fun empty => ?flushEmpty, fun hold short edge takes => ?flushFull⟩
  case coal =>
    have hn := fmt_ne_none_single hu
    have appends := coalTo_accepts (s := s) (e := e) (u := u) (edge := E) ⟨notRecord, same⟩
    refine ⟨fun noElem => ?nothing, fun elems few => ?keeps, fun elems many takes => ?leaves⟩
    case nothing => exact State.stages h hs hn (exec_coal s E a) (appends.trans (if_pos noElem)) (Restaged.refl h)
    case keeps => exact State.stages h hs hn (exec_coal s E a) (appends.trans ((if_neg elems).trans (if_pos few))) ((Restaged.refl h).ctx _)
    case leaves =>
      have sent : s.emit e E (dataToken (b.append u E e.task).reg e.task.cls e.task.frame e.task.iter) = _ := takes.emit_data rfl
      have emits := appends.trans ((if_neg elems).trans (if_neg (Nat.not_lt.mpr many)))
      rw [sent] at emits
      obtain ⟨t, run, staged⟩ := State.stages h hs hn (exec_coal s E a) emits (((Restaged.refl h).put _).ctx _)
      exact ⟨t, _, run, packed_lanes .., staged⟩
  case flushEmpty => exact State.stages h (cs := []) rfl (List.forall_mem_nil _) (exec_flushc s E) (flushTo_empty empty) (Restaged.refl h)
  case flushFull =>
    have sent : s.emit e E (dataToken b.reg e.task.cls e.task.frame e.task.iter) = _ := takes.emit_data rfl
    have emits := flushTo_full hold edge
    rw [sent] at emits
    obtain ⟨t, run, staged⟩ := State.stages h (cs := []) rfl (List.forall_mem_nil _) (exec_flushc s E) emits (((Restaged.refl h).put _).ctx _)
    exact ⟨t, _, run, packed_lanes .., staged⟩

end Sys2Proof.Machine
end

section
/-! How a cell instruction ends its task: END, DROP and FILT (R183, R184), and the causes other than a mismatch of tags (R178, R186 to R188, R220). -/

namespace Sys2Proof.Machine

/-! ## END, DROP and FILT -/

section Ends

variable {s t : State} {e : Env} {len d : Nat} {draw : Bool} {r : Reg}

theorem State.finish_ended (h : s.Runs e) (drop : Bool) : Ended s (s.finish drop) e drop ∧ SameRegs s (s.finish drop) := by
  unfold State.finish
  rw [h.withTask]
  exact State.endTask_ended h.task drop

/-- No lane of a register is valid exactly when its mask is zero. -/
theorem valid_eq_zero_iff (r : Reg) : r.valid = 0 ↔ ∀ i, i < 16 → okAt r i = false := by
  constructor
  · intro hz i _
    unfold okAt
    rw [hz]
    exact BitVec.getLsbD_zero
  · exact fun ho => BitVec.eq_of_getLsbD_eq fun i hi => (ho i hi).trans BitVec.getLsbD_zero.symm

/-- The task that a result has been written for ends as it would before, a result's length on (R183). -/
theorem Wrote.ended (hw : Wrote s t e len d draw r) (drop : Bool) :
    let next : Env := { e with task := { e.task with pc := e.task.pc + len } }
    Ended t (t.endTask e.core e.cell drop) next drop ∧ SameRegs t (t.endTask e.core e.cell drop) :=
  State.endTask_ended (e := { e with task := { e.task with pc := e.task.pc + len } }) (by rw [hw.cell]) drop

theorem State.filter_eq {a b : Nat} {u v : Reg} (h : s.Runs e) (hs : s.sources e [a, b] = [u, v]) (hu : u.fmt ≠ .none) (hv : v.fmt ≠ .none) (d x : Nat) :
    let t := s.writeResult e 2 d (isDrawing 0 [a, b]) (keptBy u v (holds v))
    s.filter d a b x = if (keptBy u v (holds v)).valid = 0 then t.endTask e.core e.cell (x == 1) else t := by
  unfold State.filter
  rw [h.withTask, State.readAll_two hs hu hv]
  rfl

end Ends

/-- Settles O17: END and DROP end the running task; FILT writes its result, and then ends the task where the result's mask is zero. -/
theorem cellEnds : Obligations.CellEnds := by
  unfold Obligations.CellEnds
  intro s e d a b x u v h
  refine ⟨?completes, ?drops, fun hs hu hv => ?filters⟩
  case completes =>
    simp only [List.forall_mem_cons]
    exact ⟨⟨_, rfl, State.finish_ended h false⟩, ⟨_, rfl, State.finish_ended h false⟩, List.forall_mem_nil _⟩
  case drops =>
    simp only [List.forall_mem_cons]
    exact ⟨⟨_, rfl, State.finish_ended h true⟩, ⟨_, rfl, State.finish_ended h true⟩, List.forall_mem_nil _⟩
  case filters =>
    have filter := State.filter_eq h hs hu hv d x
    have wrote := s.writeResult_wrote e h 2 d (isDrawing 0 [a, b]) (keptBy u v (holds v))
    refine ⟨_, _, keptBy u v (holds v), rfl, wrote, keptBy_lanes u v (holds v), fun ⟨i, hi, ok⟩ => ?goesOn, fun noLane => ?ends⟩
    case goesOn =>
      refine filter.trans (if_neg fun zero => ?_)
      rw [(valid_eq_zero_iff _).mp zero i hi] at ok
      exact Bool.false_ne_true ok
    case ends =>
      rw [filter.trans (if_pos ((valid_eq_zero_iff _).mpr noLane))]
      exact wrote.ended (x == 1)

/-! ## Faults -/

section Faults

variable {s : State} {e : Env} {i : Instr} {len d rm cause : Nat} {cs : List Nat} {rs : List Reg}

/-- An instruction without a result whose meaning answers a cause faults with it. -/
theorem State.flow_stops {f : Env → List Reg → Except Nat State} (h : s.Runs e) (hs : s.sources e cs = rs) (hn : ∀ q ∈ rs, q.fmt ≠ .none)
    (hx : exec i s = .next (s.flow len cs f)) (hf : f e rs = .error cause) (hc : endsPhase cause = false) : ∃ q, exec i s = .next q ∧ Faulted s q e 0 cause := by
  subst hs
  rw [hx]
  exact State.flow_faults h ((State.bind_sources hn).trans hf) hc

/-- An instruction with a result whose meaning answers a cause faults with it. -/
theorem State.compute_stops {f : Env → List Reg → Except Nat Reg} (h : s.Runs e) (hs : s.sources e cs = rs) (hn : ∀ q ∈ rs, q.fmt ≠ .none)
    (hx : exec i s = s.compute len d rm cs f) (hf : f e rs = .error cause) (hc : endsPhase cause = false) : ∃ q, exec i s = .next q ∧ Faulted s q e 0 cause := by
  subst hs
  rw [hx]
  exact State.compute_faults h ((State.bind_sources hn).trans hf) hc

/-- An emit whose format the destination does not expect (R178). -/
theorem State.emit_format {edge : Nat} {t : Token} (hw : s.fmtFits (s.edgeWord e.core e.cell e.task.ctx edge) t.reg.fmt = false) : s.emit e edge t = .error 0x01B := by
  have fault : s.emitFault e.core e.cell e.task.ctx edge t = some 0x01B := if_pos (by rw [hw]; rfl)
  unfold State.emit
  rw [fault]

/-- An emit inside a burst whose tag is not that of the burst's first token (R178). -/
theorem State.emit_order {edge : Nat} {t : Token} (hw : s.fmtFits (s.edgeWord e.core e.cell e.task.ctx edge) t.reg.fmt = true)
    (inside : (s.burstState e.core e.cell e.task.ctx edge).1 % ewBurst (s.edgeWord e.core e.cell e.task.ctx edge) ≠ 0)
    (other : (s.burstState e.core e.cell e.task.ctx edge).2 ≠ some (t.frame, t.iter, t.cls)) : s.emit e edge t = .error 0x01D := by
  have fault : s.emitFault e.core e.cell e.task.ctx edge t = some 0x01D := (if_neg (by rw [hw]; exact Bool.false_ne_true)).trans (if_pos ⟨inside, other⟩)
  unfold State.emit
  rw [fault]

/-- FEED of a change whose round is the last (R121, R220). -/
theorem scopeSem_last {w : Option Nat} {u : Reg} (hu : IsChange w u) (last : laneOf u 3 = 0xFFFFFFFF) : scopeSem 1 w e [u] = .error 0x011 := by
  unfold scopeSem
  dsimp only
  rw [recCheck_change hu]
  exact if_pos ⟨rfl, last⟩

end Faults

/-- Settles O19: each instruction accepts its source, and its meaning answers the cause. -/
theorem cellFaults : Obligations.CellFaults := by
  unfold Obligations.CellFaults
  intro s e d a c g x E u h hs hu fails w b buf
  have hn := fmt_ne_none_single hu
  have bare : ∀ q ∈ s.sources e [], q.fmt ≠ .none := List.forall_mem_nil _
  refine ⟨fun format => ?format, fun fits inside other => ?order, fun noFrame => ?noFrame, fun framed inactive => ?inactive, fun framed released => ?released,
    fun notRecord hold differ => ?mismatch, fun fmt xs notRecord hold edge => ?edge, fun change last => ?round⟩
  case format =>
    have emits : emitOne s E c 0 e [u] = .error 0x01B := (emitOne_ok rfl E c).trans (State.emit_format format)
    exact ⟨State.flow_stops h hs hn rfl emits rfl, State.flow_stops h hs hn rfl emits rfl⟩
  case order =>
    have emits : emitOne s E c 0 e [u] = .error 0x01D := (emitOne_ok rfl E c).trans (State.emit_order fits inside other)
    exact ⟨State.flow_stops h hs hn rfl emits rfl, State.flow_stops h hs hn rfl emits rfl⟩
  case noFrame => exact ⟨State.flow_stops h hs hn rfl (f := retTo s x) (if_pos noFrame) rfl,
    State.flow_stops h rfl bare rfl (f := fun e _ => freeTo s e) (if_pos noFrame) rfl⟩
  case inactive => exact State.flow_stops h hs hn rfl (f := retTo s x) ((if_neg framed).trans (if_pos inactive)) rfl
  case released => exact State.flow_stops h rfl bare rfl (f := fun e _ => freeTo s e) ((if_neg framed).trans (if_pos released)) rfl
  case mismatch =>
    have meaning : coalTo s E e [u] = .error 0x033 := (if_neg notRecord).trans (if_pos ⟨by simpa using hold, differ⟩)
    exact State.flow_stops h hs hn (exec_coal s E a) meaning rfl
  case edge =>
    have coal : coalTo s E e [u] = .error 0x035 :=
      (if_neg notRecord).trans ((if_neg fun differ => differ.2.elim (· fmt) (· xs)).trans (if_pos ⟨by simpa using hold, edge⟩))
    have flush : flushTo s E e = .error 0x035 := (if_neg (by simpa using hold)).trans (if_pos edge)
    exact ⟨State.flow_stops h hs hn (exec_coal s E a) coal rfl, State.flow_stops h rfl bare (exec_flushc s E) flush rfl⟩
  case round => exact State.compute_stops h hs hn rfl (f := fun e => scopeSem 1 (s.recWidth e a) e) (scopeSem_last change last) rfl

end Sys2Proof.Machine
end

section
/-! What reads of scratchpad leave (R94 to R98): nothing differs but the race checker's records of reads, with which no later read races. -/

namespace Sys2Proof.Machine

/-- Scratchpad has been read without a race: of each core only the race checker's records differ, and no word's records of writes. -/
structure Viewed (s t : State) : Prop where
  rest   : t = { s with cores := t.cores }
  core   : ∀ k, t.core k = { s.core k with words := (t.core k).words }
  writes : ∀ k w, ((t.core k).wordRec w).writes = ((s.core k).wordRec w).writes

section Viewed

variable {s t u : State} {k hd core off n addr align kind size scope : Nat} {tok : Bool} {a : Agent} {h : Half}

theorem Viewed.refl (s : State) : Viewed s s := ⟨rfl, fun _ => rfl, fun _ _ => rfl⟩

theorem Viewed.trans (hv : Viewed s t) (g : Viewed t u) : Viewed s u where
  rest := by rw [g.rest, hv.rest]
  core k := by rw [g.core, hv.core]
  writes k w := (g.writes k w).trans (hv.writes k w)

theorem Viewed.mem (hv : Viewed s t) : t.mem = s.mem := by rw [hv.rest]
theorem Viewed.cells (hv : Viewed s t) (k : Nat) : (t.core k).cells = (s.core k).cells := by rw [hv.core]
theorem Viewed.rc (hv : Viewed s t) (k : Nat) : t.rc k = s.rc k := by unfold State.rc; rw [hv.core]
theorem Viewed.discard (hv : Viewed s t) (k : Nat) : (t.core k).discard = (s.core k).discard := by rw [hv.core]
theorem Viewed.tbClr (hv : Viewed s t) (k : Nat) : (t.core k).tbClr = (s.core k).tbClr := by rw [hv.core]
theorem Viewed.ord (hv : Viewed s t) (k h : Nat) : t.ord k h = s.ord k h := by unfold State.ord; rw [hv.core]

theorem Viewed.agent (hv : Viewed s t) (k h : Nat) : t.agent k h = s.agent k h := by
  unfold State.agent
  rw [hv.ord]

theorem Viewed.inArea (hv : Viewed s t) (k w : Nat) : t.inArea k w = s.inArea k w := by
  rw [hv.rest]
  rfl

theorem Viewed.noted (hv : Viewed s t) : Noted s t where
  rest := by
    have mem := hv.mem
    rw [mem]
    exact hv.rest
  cells := hv.cells
  rc := hv.rc

/-! ### A read is noted -/

theorem Core.wordRec_phase (c : Core) (w : Nat) : (c.wordRec w).phase = c.rphase := by
  unfold Core.wordRec
  split
  · split
    · next hp => exact hp
    · rfl
  · rfl

theorem Core.wordRec_current {c : Core} {w : Nat} {r : WordRec} (hw : aget c.words w = some r) (hp : r.phase = c.rphase) : c.wordRec w = r := by
  unfold Core.wordRec
  rw [hw]
  exact if_pos hp

/-- The record that a read leaves of a word holds the writes that it held. -/
theorem Core.wordRec_noteRead (c : Core) (words : Assoc WordRec) (x w : Nat) :
    (({ c with words := aset words x (noteAccess a false kind size scope (c.wordRec x)) } : Core).wordRec w).writes =
      if w = x then (c.wordRec x).writes else (({ c with words := words } : Core).wordRec w).writes := by
  split
  · next hx =>
    subst hx
    have noted : ({ c with words := aset words w (noteAccess a false kind size scope (c.wordRec w)) } : Core).wordRec w = noteAccess a false kind size scope (c.wordRec w) :=
      Core.wordRec_current (aget_aset_same ..) (c.wordRec_phase w)
    rw [noted]
    rfl
  · next hx =>
    unfold Core.wordRec
    dsimp only
    rw [aget_aset_other _ _ hx]

/-- No word's writes differ after a read that passes the checker. -/
theorem Core.check_read {c d : Core} {ws : List Nat} (hc : c.check a false kind size scope ws = .ok d) (w : Nat) : (d.wordRec w).writes = (c.wordRec w).writes := by
  have noted (words : Assoc WordRec) : (∀ w, (({ c with words := words } : Core).wordRec w).writes = (c.wordRec w).writes) →
      ∀ w, (({ c with words := ws.foldl (fun m x => aset m x (noteAccess a false kind size scope (c.wordRec x))) words } : Core).wordRec w).writes = (c.wordRec w).writes := by
    intro hw
    refine foldl_inv (P := fun words => ∀ w, (({ c with words := words } : Core).wordRec w).writes = (c.wordRec w).writes) (fun words x same w => ?_) ws words hw
    rw [Core.wordRec_noteRead]
    split
    · next hx => rw [hx]
    · exact same w
  unfold Core.check at hc
  split at hc
  · cases hc
  · cases hc
    exact noted c.words (fun _ => rfl) w

theorem Viewed.of_check {ws : List Nat} {c : Core} (hc : s.check k a false kind size scope ws = .ok c) : Viewed s (s.setCore k c) where
  rest := rfl
  core j := by
    rw [State.core_setCore]
    split
    · next hj => rw [hj]; exact State.check_ok hc
    · rfl
  writes j w := by
    rw [State.core_setCore]
    split
    · next hj =>
      unfold State.check at hc
      split at hc
      · cases hc
      · rw [hj]; exact Core.check_read hc w
    · rfl

/-- An access that only reads races with writes alone: one that did not race does not after other reads (R94). -/
theorem Viewed.noRace (hv : Viewed s t) (hr : s.NoRace k hd core off n false kind size scope) : t.NoRace k hd core off n false kind size scope := by
  unfold State.NoRace at hr ⊢
  rw [State.check_ok_iff] at hr ⊢
  simp only [raceWith_none_iff, hv.inArea, hv.writes, hv.agent, Bool.false_eq_true, false_and, or_false] at hr ⊢
  exact hr

/-! ### Loads -/

/-- A load without a race of a core's bytes of which none is discarded (R96, R325). -/
theorem State.loadAt_viewed (hr : s.NoRace k hd h.core h.off h.n false 0 0 0) (kept : (s.core h.core).discard = []) :
    ∃ u, s.loadAt (s.agent k hd) h = (u, .ok (Memory.readN s.mem (spadBase h.core + h.off) h.n, List.replicate h.n false)) ∧ Viewed s u := by
  obtain ⟨c, hc⟩ := hr
  have gone : (List.range h.n).map (fun i => c.discard.contains ((h.off + i) / 64)) = List.replicate h.n false := by
    rw [State.check_ok hc]
    simp [kept]
  refine ⟨s.setCore h.core c, ?_, .of_check hc⟩
  unfold State.loadAt
  rw [hc]
  dsimp only
  rw [gone]

theorem State.load_viewed (hh : halves k addr n align tok = .ok [h]) (hr : s.NoRace k hd h.core h.off h.n false 0 0 0) (kept : (s.core h.core).discard = []) :
    ∃ u, s.load (s.agent k hd) k addr n align tok = (u, .ok (Memory.readN s.mem (spadBase h.core + h.off) h.n, List.replicate h.n false)) ∧ Viewed s u := by
  obtain ⟨u, run, viewed⟩ := State.loadAt_viewed hr kept
  refine ⟨u, ?_, viewed⟩
  unfold State.load
  simp only [hh, List.foldl_cons, List.foldl_nil, run, List.nil_append]

/-- A lane of a loaded token of which no byte is discarded (R189). -/
theorem imageLane_kept (p : Bool) (f : Fmt) (bytes : List Byte) (n i : Nat) :
    imageLane p f bytes (List.replicate n false) i = some (leNat bytes / 2 ^ ((if p then fmtWidth f else 32) * i) % 2 ^ fmtWidth f) := by
  refine if_neg ?_
  simp

theorem loaded_lanes (p : Bool) (f : Fmt) (u : Reg) (bytes : List Byte) (n : Nat) : LanesAre (loaded p f u bytes (List.replicate n false)) f (constXs f) u.p u.origin
    (fun i => some (leNat bytes / 2 ^ ((if p then fmtWidth f else 32) * i) % 2 ^ fmtWidth f)) :=
  (mkReg_lanes ..).congr rfl rfl (fun i _ => imageLane_kept p f bytes n i)

end Viewed

end Sys2Proof.Machine
end

section
/-! The accesses of a memory cell that complete in their task (R89, R90, R189 to R193, R197, R198). -/

namespace Sys2Proof.Machine

/-! ## What an access waits for -/

section Waits

variable {s : State} {k l addr n align : Nat} {tok : Bool} {h : Half} {hs : List Half}

/-- An access of a cell goes on at once: no remote atomic of it that acquires is in flight (R192), nor a remote access of it to one of the bytes (R90). -/
theorem State.mustWait_false (atoms : ∀ g ∈ s.atomsOut k (handleOf l), g.2.2 = false) (free : ∀ h ∈ hs, s.behindOwn ⟨0, k, handleOf l⟩ h.core h.off h.n = false) :
    s.mustWait k l hs = false := by
  unfold State.mustWait
  simp only [Bool.or_eq_false_iff, List.any_eq_false, Bool.not_eq_true]
  exact ⟨atoms, free⟩

/-- An access that goes to one place where it is aligned goes there byte by byte. -/
theorem halves_bytewise (hh : halves k addr n align tok = .ok [h]) : halves k addr n 1 tok = .ok [h] := by
  have aligned : ¬addr % 1 ≠ 0 := by rw [Nat.mod_one]; exact fun h => h rfl
  unfold halves at hh ⊢
  split at hh
  · split at hh
    · cases hh
    · next hb => rw [if_neg hb, if_neg aligned]; split at hh; cases hh; exact hh
  · dsimp only at hh ⊢
    split at hh
    · cases hh
    · next hk =>
      split at hh
      · split at hh
        · cases hh
        · split at hh <;> cases hh
      · next straddle =>
        split at hh
        · cases hh
        · next hb => rw [if_neg hk, if_neg straddle, if_neg hb, if_neg aligned]; split at hh; cases hh; exact hh
  · cases hh
  · cases hh

theorem State.touches_one (hh : halves k addr n align tok = .ok [h]) : s.touches k addr n tok = [h] := by
  unfold State.touches
  rw [if_neg (halves_group hh), halves_bytewise hh]

end Waits

/-! ## An access that completes -/

section Access

variable {s v : State} {e : Env} {i : Instr} {d : Nat} {cs : List Nat} {rs : List Reg} {touch : Env → List Reg → List Half} {f : Env → List Reg → Except Nat (Did Reg)} {r : Reg}

/-- A cell whose accesses are noted runs the task that it ran. -/
theorem Noted.runs (hn : Noted s v) (h : s.Runs e) : v.Runs e where
  core := hn.fcore.trans h.core
  cell := by rw [hn.rest]; exact h.cell
  task := by rw [hn.cell]; exact h.task
  draw := by
    unfold State.ctx
    rw [hn.cell]
    exact h.draw

variable (h : s.Runs e) (held : (s.cell e.core e.cell).held = []) (atoms : ∀ g ∈ s.atomsOut e.core (handleOf e.cell), g.2.2 = false) (hs : s.sources e cs = rs)
  (hn : ∀ q ∈ rs, q.fmt ≠ .none) (hx : exec i s = .next (s.access d cs touch f)) (free : ∀ h ∈ touch e rs, s.behindOwn ⟨0, e.core, handleOf e.cell⟩ h.core h.off h.n = false)
  (hf : f e rs = .ok (v, .ok r)) (noted : Noted s v)
include h held atoms hs hn hx free hf noted

/-- An access with no request of its cell before it, and that waits for nothing, writes its value (R14, R89). -/
theorem State.access_writes : ∃ t, exec i s = .next t ∧ Wrote v t e 2 d (isDrawing 0 cs) r := by
  subst hs
  refine ⟨v.writeResult e 2 d (isDrawing 0 cs) r, hx.trans (congrArg _ ?_), v.writeResult_wrote e (noted.runs h) ..⟩
  unfold State.access
  simp only [h.withTask, held, List.isEmpty_nil, Bool.not_true, Bool.false_eq_true, if_false, State.mustWait_false atoms free, State.bind_sources hn, hf]

/-- One that changes no byte, whose value is given lane by lane. -/
theorem State.access_reads (mem : v.mem = s.mem) {fmt : Fmt} {xs origin : Nat} {p : Bool} {lane : Nat → Option Nat} (hl : LanesAre r fmt xs p origin lane) :
    ∃ v t r, exec i s = .next t ∧ Noted s v ∧ v.mem = s.mem ∧ Wrote v t e 2 d (isDrawing 0 cs) r ∧ LanesAre r fmt xs p origin lane := by
  obtain ⟨t, run, wrote⟩ := State.access_writes h held atoms hs hn hx free hf noted
  exact ⟨v, t, r, run, noted, mem, wrote, hl⟩

end Access

/-! ## The meanings of the accesses -/

section Meanings

variable {s v : State} {e : Env} {u x : Reg} {h : Half}

theorem ldsTouch_invalid (ho : okAt u 0 = false) (f p : Nat) : ldsTouch s f p e [u] = [] := if_neg (by rw [ho]; exact Bool.false_ne_true)

theorem ldsTouch_eq (ho : okAt u 0 = true) {f p align : Nat} (hh : halves e.core (laneOf u 0) (transferBytes (p == 1) (fmtOf f)) align true = .ok [h]) :
    ldsTouch s f p e [u] = [h] := (if_pos ho).trans (State.touches_one hh)

theorem ldsAt_invalid (hu : isAddr u.fmt = true) (ho : okAt u 0 = false) (f p : Nat) : ldsAt s f p e [u] = .ok (s, .ok (noLanes (fmtOf f) (constXs (fmtOf f)) u)) := by
  refine (need_accepted hu _).trans (if_pos ?_)
  rw [ho]
  rfl

theorem ldsAt_ok (hu : isAddr u.fmt = true) (ho : okAt u 0 = true) {f p : Nat} {b : List Byte} {gone : List Bool}
    (hl : s.load (s.agent e.core (handleOf e.cell)) e.core (laneOf u 0) (transferBytes (p == 1) (fmtOf f)) (packAlign (p == 1) (fmtOf f)) true = (v, .ok (b, gone))) :
    ldsAt s f p e [u] = .ok (v, .ok (loaded (p == 1) (fmtOf f) u b gone)) := by
  refine (need_accepted hu _).trans ?_
  simp only [ho, hl, Bool.not_true, Bool.false_eq_true, if_false]
  rfl

/-! ### LDX, lane by lane -/

/-- One lane of LDX: its load, after the lanes before it (R191). -/
def ldxStep (e : Env) (u : Reg) (n : Nat) (acc : Did (List (Option Nat))) (i : Nat) : Did (List (Option Nat)) :=
  match acc with
  | (t, .error g) => (t, .error g)
  | (t, .ok vs) =>
    if !okAt u i then (t, .ok (vs ++ [none]))
    else match t.load (t.agent e.core (handleOf e.cell)) e.core (laneOf u i) n n false with
    | (t, .error g) => (t, .error { g with detail := if g.cause = 0x055 then g.detail else i })
    | (t, .ok (b, gone)) => (t, .ok (vs ++ [if gone.any id then none else some (leNat b)]))

/-- LDX is its lanes one after the other. -/
theorem ldxAt_ok (hu : isAddr u.fmt = true) {f : Nat} {vs : List (Option Nat)}
    (hl : (List.range 16).foldl (ldxStep e u (fmtWidth (fmtOf f) / 8)) (s, .ok []) = (v, .ok vs)) :
    ldxAt s f e [u] = .ok (v, .ok (mkReg (fmtOf f) (constXs (fmtOf f)) u.p u.origin (fun i => vs.getD i none))) := by
  refine (need_accepted hu _).trans ?_
  dsimp only
  split
  · next run => cases run.symm.trans hl
  · next run => cases run.symm.trans hl; rfl

/-- The value of a lane of LDX: what memory holds at its address, where the address is valid. -/
def ldxLane (s : State) (u : Reg) (n : Nat) (place : Nat → Half) (i : Nat) : Option Nat :=
  if okAt u i then some (Memory.readNat s.mem (spadBase (place i).core + (place i).off) n) else none

/-- The place of a lane of LDX: it does not straddle, races with nothing, is free and not discarded. -/
def State.LaneAt (s : State) (e : Env) (u : Reg) (n : Nat) (h : Half) (i : Nat) : Prop :=
  halves e.core (laneOf u i) n n false = .ok [h] ∧ s.NoRace e.core (handleOf e.cell) h.core h.off h.n false 0 0 0 ∧
    s.behindOwn ⟨0, e.core, handleOf e.cell⟩ h.core h.off h.n = false ∧ (s.core h.core).discard = []

theorem ldxStep_ok {n i : Nat} {place : Nat → Half} {t : State} (hp : okAt u i = true → s.LaneAt e u n (place i) i) (hv : Viewed s t) (vs : List (Option Nat)) :
    ∃ w, ldxStep e u n (t, .ok vs) i = (w, .ok (vs ++ [ldxLane s u n place i])) ∧ Viewed s w := by
  unfold ldxStep ldxLane
  cases ho : okAt u i with
  | false => exact ⟨t, rfl, hv⟩
  | true =>
    obtain ⟨hh, race, -, kept⟩ := hp ho
    obtain ⟨w, run, viewed⟩ := State.load_viewed hh (hv.noRace race) ((hv.discard _).trans kept)
    refine ⟨w, ?_, hv.trans viewed⟩
    have present : ¬(List.replicate (place i).n false).any id = true := by simp
    simp only [run, Bool.not_true, Bool.false_eq_true, if_false, if_true, if_neg present, hv.mem]
    rw [halves_n hh]
    rfl

theorem ldxSteps_ok {n : Nat} {place : Nat → Half} (l : List Nat) (hp : ∀ i ∈ l, okAt u i = true → s.LaneAt e u n (place i) i) {t : State} (hv : Viewed s t)
    (vs : List (Option Nat)) : ∃ w, l.foldl (ldxStep e u n) (t, .ok vs) = (w, .ok (vs ++ l.map (ldxLane s u n place))) ∧ Viewed s w := by
  induction l generalizing t vs with
  | nil => exact ⟨t, by rw [List.map_nil, List.append_nil]; rfl, hv⟩
  | cons i l ih =>
    obtain ⟨hi, hl⟩ := List.forall_mem_cons.mp hp
    obtain ⟨w, step, viewed⟩ := ldxStep_ok hi hv vs
    obtain ⟨z, steps, all⟩ := ih hl viewed (vs ++ [ldxLane s u n place i])
    refine ⟨z, ?_, all⟩
    rw [List.foldl_cons, step, steps, List.append_assoc]
    rfl

theorem ldxTouch_free {f : Nat} {place : Nat → Half} (hp : ∀ i, i < 16 → okAt u i = true → s.LaneAt e u (fmtWidth (fmtOf f) / 8) (place i) i) :
    ∀ h ∈ ldxTouch s f e [u], s.behindOwn ⟨0, e.core, handleOf e.cell⟩ h.core h.off h.n = false := by
  intro h hm
  obtain ⟨i, hi, hm⟩ := List.mem_flatMap.mp hm
  split at hm
  · next ho =>
    obtain ⟨hh, -, free, -⟩ := hp i (List.mem_range.mp hi) ho
    rw [State.touches_one hh] at hm
    rw [List.mem_singleton.mp hm]
    exact free
  · cases hm

/-! ### RGET and TBTST -/

/-- Where a line of the slot that a task holds lies (R196, R197). -/
def State.slotLine (s : State) (e : Env) (g : RingHold) (j : Nat) : Half :=
  ⟨s.leadOf e.core, (s.ringEntry (s.leadOf e.core) g.ring).1 + g.slot * (s.ringEntry (s.leadOf e.core) g.ring).2.2 + 64 * j, 64⟩

theorem rgetTouch_eq {g : RingHold} (hg : e.task.ring = some g) (j : Nat) : rgetTouch s j e [] = [s.slotLine e g j] := by
  unfold rgetTouch
  rw [hg]
  rfl

theorem rgetAt_ok {g : RingHold} (hg : e.task.ring = some g) (hf : g.freed = false) {f j : Nat} {b : List Byte} {gone : List Bool}
    (hl : s.loadAt (s.agent e.core (handleOf e.cell)) (s.slotLine e g j) = (v, .ok (b, gone))) :
    rgetAt s f j e [] = .ok (v, .ok (loaded false (fmtOf f) { Reg.empty with origin := 0 } b gone)) := by
  unfold State.slotLine at hl
  unfold rgetAt
  simp only [hg, hf, hl, Bool.false_eq_true, if_false]

theorem tbtstAt_invalid (hu : isAddr u.fmt = true) (ho : okAt u 0 = false) : tbtstAt s e [u] = .ok (s, .ok (noLanes .n32 0 u)) := by
  refine (need_accepted hu _).trans (if_pos ?_)
  rw [ho]
  rfl

/-- The token of TBTST: phase, arrivals, sectors and the bits W, F and D of a barrier (R198). -/
def barrierReg (b : Bar) (u : Reg) : Reg :=
  mkReg .n32 0 u.p u.origin (fun i => [some b.phase, some b.arrivals, some (cut 32 b.sectors), some (Bool.nat b.w + 2 * Bool.nat b.f + 4 * Bool.nat b.d)].getD i none)

/-- A barrier read without a race: what its completions released is acquired, as the agent's set has room (R103, R198). -/
theorem tbtstAt_ok {core off : Nat} (hu : isAddr u.fmt = true) (ho : okAt u 0 = true) (hb : barrierPlace e.core (laneOf u 0) = .ok (core, off))
    (race : s.NoRace e.core (handleOf e.cell) core off 16 false 2 16 1) (room : (s.acquire e.core (handleOf e.cell) ((aget (s.core core).tbClr off).getD [])).2 = .ok ()) :
    ∃ v, tbtstAt s e [u] = .ok (v, .ok (barrierReg (Bar.read s.mem (spadBase core + off)) u)) ∧ Noted s v ∧ v.mem = s.mem := by
  obtain ⟨c, hc⟩ := race
  have viewed := Viewed.of_check hc
  have touched : s.touch16 (s.agent e.core (handleOf e.cell)) core off false = (s.setCore core c, .ok ()) := by
    unfold State.touch16
    rw [hc]
  obtain ⟨v, run⟩ : ∃ v, (s.setCore core c).acquire e.core (handleOf e.cell) ((aget ((s.setCore core c).core core).tbClr off).getD []) = (v, .ok ()) := by
    refine ⟨_, Prod.ext rfl ?_⟩
    rw [State.acquire_ok] at room ⊢
    rw [viewed.ord, viewed.tbClr]
    exact room
  obtain ⟨noted, mem⟩ := State.acquire_noted run
  refine ⟨v, (need_accepted hu _).trans ?_, viewed.noted.trans noted, mem.trans viewed.mem⟩
  simp only [ho, hb, touched, run, mem.trans viewed.mem, Bool.not_true, Bool.false_eq_true, if_false]
  rfl

/-! ### ATOM -/

/-- An ATOM of a scope within the isle goes where its address leads (R102, R192). -/
theorem State.atomTarget_near {k sc n : Nat} (near : sc < 2) (hh : halves k (laneOf u 0) n 1 false = .ok [h]) (aligned : laneOf u 0 % n = 0) (route : Nat) :
    s.atomTarget k sc n u route = .ok (some (h.core, h.off)) := by
  have inIsle : decide (2 ≤ sc) = false := decide_eq_false (Nat.not_le.mpr near)
  unfold State.atomTarget
  simp only [inIsle, hh, aligned, Bool.false_and, Bool.false_eq_true, if_false, ne_eq, not_true_eq_false]

theorem atomTouch_eq {sc z n : Nat} (hn : (if z = 1 then 8 else 4) = n) (near : sc < 2) (hh : halves e.core (laneOf u 0) n 1 false = .ok [h]) (aligned : laneOf u 0 % n = 0) :
    atomTouch s sc z e [x, u] = [h] := by
  unfold atomTouch
  simp only [hn, State.atomTarget_near near hh aligned]
  rw [← halves_n hh]

/-- The token of ATOM: the old value in one lane, or in two (R192). -/
def oldReg (x u : Reg) (n old : Nat) : Reg := mkReg x.fmt 0 u.p u.origin (fun i => if i < n / 4 then some (old / 2 ^ (32 * i) % 2 ^ 32) else none)

/-- A relaxed ATOM whose scope covers both cores and whose operands are valid. -/
theorem atomAt_ok {sc op z n old : Nat} (hn : (if z = 1 then 8 else 4) = n) (hu : isAddr u.fmt = true) (hx : isAddr x.fmt = true) (ho : okAt u 0 = true)
    (operands : ∀ i, i < 4 → okAt x i = true) (near : sc < 2) (hh : halves e.core (laneOf u 0) n 1 false = .ok [h]) (aligned : laneOf u 0 % n = 0)
    (covered : covers sc 0 e.core 0 h.core = true)
    (hp : s.atomicBy e.core (handleOf e.cell) h.core h.off n op (laneWord x n 0) (laneWord x n (n / 4)) 0 sc = (v, .ok old)) :
    atomAt s sc 0 op z e [x, u] = .ok (v, .ok (oldReg x u n old)) := by
  have valid (p : Nat → Bool) : ((List.range 4).filter p).any (fun i => !okAt x i) = false := by
    rw [List.any_eq_false]
    intro i hi
    rw [operands i (List.mem_range.mp (List.mem_of_mem_filter hi))]
    exact Bool.false_ne_true
  refine (need_accepted hu _).trans ((need_accepted hx _).trans ?_)
  simp only [hn, ho, valid, State.atomTarget_near near hh aligned, covered, hp, Bool.not_true, Bool.or_false, Bool.false_eq_true, if_false]
  rfl

end Meanings

/-! ## The instructions -/

section Instructions

variable {s : State} {e : Env} {d a sc op z o n : Nat}

/-- No atomic of the size and scope is in flight (R101): an ATOM of relaxed order is an access. -/
theorem exec_atom_near (h : s.Runs e) (hn : (if z = 1 then 8 else 4) = n) (atoms : ∀ g ∈ s.atomsOut e.core (handleOf e.cell), ¬(g.1 = n ∧ g.2.1 = sc)) :
    exec (.atom d a sc 0 op z) s = .next (s.access d [d, a] (atomTouch s sc z) (atomAt s sc 0 op z)) := by
  refine congrArg Host.Outcome.next (if_neg ?_)
  have waits : s.atomWaits sc z = false := by
    unfold State.atomWaits
    rw [h.core, h.cell, hn, List.any_eq_false]
    intro g hg
    simpa using atoms g hg
  rw [waits]
  exact Bool.false_ne_true

/-- A fence that waits for nothing and acquires what its agent's set has room for (R100, R193). -/
theorem exec_fencem {v : State} (h : s.Runs e) (held : (s.cell e.core e.cell).held = []) (rel : s.relWaits o = false) (acq : o % 2 = 0 ∨ s.atomsOut e.core (handleOf e.cell) = [])
    (hf : s.fence e.core (handleOf e.cell) o = (v, .ok ())) : exec (.fencem sc o) s = .next (v.advance e.core e.cell 2) := by
  have goes : ¬(o % 2 = 1 ∧ s.atomsOut e.core (handleOf e.cell) ≠ []) := fun ⟨acquires, out⟩ => acq.elim (by omega) out
  refine congrArg Host.Outcome.next ((if_neg (by rw [rel]; exact Bool.false_ne_true)).trans ?_)
  unfold State.fencem
  simp only [h.withTask, held, List.isEmpty_nil, Bool.not_true, Bool.false_eq_true, if_false, if_neg goes, hf]

theorem State.cell_advance {v : State} (h : v.Runs e) (len : Nat) :
    (v.advance e.core e.cell len).cell e.core e.cell = { v.cell e.core e.cell with running := some { e.task with pc := e.task.pc + len } } := by
  unfold State.advance
  rw [State.cell_modCell, if_pos ⟨rfl, rfl⟩, h.task]
  rfl

end Instructions

/-- Settles O46: each access waits for nothing, and its meaning reads, without a race, what memory holds at the model's address. -/
theorem cellLoads : Obligations.CellLoads := by
  unfold Obligations.CellLoads
  intro s e d a f p j sc op z o u x h held atoms hd free tf reads
  refine ⟨fun hs hu => ⟨fun ho => ?invalid, fun ho => ⟨fun g hh race idle kept => ?lds, fun core off hb race room => ?tbtst⟩, fun place lanes => ?ldx⟩,
    fun g hg hf race idle kept => ?rget, ?atom, fun rel acq ok => ?fencem⟩
  case invalid =>
    have hn := fmt_ne_none_single (isAddr_ne_none hu)
    have untouched : ∀ h ∈ ldsTouch s f p e [u], free h := by
      rw [ldsTouch_invalid ho]
      exact List.forall_mem_nil _
    exact ⟨State.access_reads h held atoms hs hn rfl untouched (ldsAt_invalid hu ho f p) (.refl s) rfl (mkReg_lanes ..),
      State.access_reads h held atoms hs hn rfl (List.forall_mem_nil _) (tbtstAt_invalid hu ho) (.refl s) rfl (mkReg_lanes ..)⟩
  case lds =>
    obtain ⟨v, load, viewed⟩ := State.load_viewed hh race kept
    have touched : ∀ h ∈ ldsTouch s f p e [u], free h := by
      rw [ldsTouch_eq ho hh]
      exact List.forall_mem_singleton.mpr idle
    have lanes := loaded_lanes (p == 1) tf u (Memory.readN s.mem (spadBase g.core + g.off) g.n) g.n
    simp only [beq_iff_eq] at lanes
    exact State.access_reads h held atoms hs (fmt_ne_none_single (isAddr_ne_none hu)) rfl touched (ldsAt_ok hu ho load) viewed.noted viewed.mem lanes
  case tbtst =>
    obtain ⟨v, meaning, noted, mem⟩ := tbtstAt_ok hu ho hb race room
    exact State.access_reads h held atoms hs (fmt_ne_none_single (isAddr_ne_none hu)) rfl (List.forall_mem_nil _) meaning noted mem (mkReg_lanes ..)
  case ldx =>
    obtain ⟨v, steps, viewed⟩ := ldxSteps_ok (List.range 16) (fun i hi => lanes i (List.mem_range.mp hi)) (.refl s) []
    refine State.access_reads h held atoms hs (fmt_ne_none_single (isAddr_ne_none hu)) rfl (ldxTouch_free lanes) (ldxAt_ok hu steps) viewed.noted viewed.mem
      ((mkReg_lanes ..).congr rfl rfl fun i hi => ?_)
    rw [List.nil_append, getD_range_map _ _ _ hi]
    rfl
  case rget =>
    obtain ⟨v, load, viewed⟩ := State.loadAt_viewed (h := s.slotLine e g j) race kept
    have touched : ∀ h ∈ rgetTouch s j e [], free h := by
      rw [rgetTouch_eq hg]
      exact List.forall_mem_singleton.mpr idle
    exact State.access_reads h held atoms (cs := []) rfl (List.forall_mem_nil _) rfl touched (rgetAt_ok hg hf load) viewed.noted viewed.mem (loaded_lanes ..)
  case atom =>
    intro n hs hu hx ho h0 h1 h2 h3 _ near frel out g hh aligned covered idle old race
    have operands : ∀ i, i < 4 → okAt x i = true := fun i hi => match i, hi with
      | 0, _ => h0
      | 1, _ => h1
      | 2, _ => h2
      | 3, _ => h3
    have touched : ∀ h ∈ atomTouch s sc z e [x, u], free h := by
      rw [atomTouch_eq (n := n) rfl near hh aligned]
      exact List.forall_mem_singleton.mpr idle
    obtain ⟨v, performs, noted, mem⟩ := State.atomicBy_ok frel race
    obtain ⟨t, run, wrote⟩ := State.access_writes h held atoms hs (fmt_ne_none_pair (isAddr_ne_none hx) (isAddr_ne_none hu)) (exec_atom_near (n := n) h rfl out) touched
      (atomAt_ok (n := n) rfl hu hx ho operands near hh aligned covered performs) noted
    exact ⟨v, t, _, run, noted, wrote, mkReg_lanes .., (show t.mem = v.mem by rw [wrote.only.rest]).trans mem⟩
  case fencem =>
    obtain ⟨v, fenced⟩ : ∃ v, s.fence e.core hd o = (v, .ok ()) := ⟨_, Prod.ext rfl ok⟩
    obtain ⟨noted, mem⟩ := State.fence_noted fenced
    exact ⟨v, _, exec_fencem h held rel acq fenced, noted, mem, State.only_advance .., State.cell_advance (noted.runs h) 2⟩

end Sys2Proof.Machine
end

section
/-! Record instructions and CMPR (R134, R195, R217 to R223): what each makes, lane by lane, of the sources that it accepts. -/

namespace Sys2Proof.Machine

/-! ## The checks of R216, each with what a meaning does after it -/

section Checks

variable {β : Type} {w : Option Nat} {r : Reg}

theorem recCheck_change_bind (h : IsChange w r) (k : Bool → Except Nat β) : recCheck w r >>= k = k true := by
  rw [recCheck_change h]
  rfl

theorem recCheck_null_bind (h : IsNull r) (k : Bool → Except Nat β) : recCheck w r >>= k = k false := by
  rw [recCheck_null h]
  rfl

theorem timeOperand_has_bind (h : HasTime w r) (k : Option Time → Except Nat β) : timeOperand w r >>= k = k (some (recTime r)) := by
  rw [timeOperand_has h]
  rfl

theorem timeOperand_none_bind (h : NoTime r) (k : Option Time → Except Nat β) : timeOperand w r >>= k = k none := by
  rw [timeOperand_none h]
  rfl

/-- An operand that may have a time passes, with its time or none (R218). -/
theorem timeOperand_bind (h : HasTime w r ∨ NoTime r) (k : Option Time → Except Nat β) : ∃ t, timeOperand w r >>= k = k t := by
  rcases h with has | timeless
  · exact ⟨_, timeOperand_has_bind has k⟩
  · exact ⟨_, timeOperand_none_bind timeless k⟩

theorem antichain_bind (hr : r.fmt = .n32) {f : List Time} (hf : frontOf r = some f) (k : List Time → Except Nat β) : antichain r >>= k = k f := by
  unfold antichain
  rw [if_neg (not_not_intro hr), hf]
  rfl

end Checks

/-! ## Records with lanes replaced -/

theorem bits?_of_ok {u : Reg} {i : Nat} (h : okAt u i = true) : bits? u i = some (laneOf u i) := if_pos h

/-- Replaced lanes take the new words, where the record holds the lanes; the rest is the record's. -/
theorem recWith_eq {u : Reg} {f : Nat → Option Nat} (held : ∀ i, okAt u i = false → f i = none) (p : Bool) (o : Nat) :
    recWith u p o f = mkReg .rcd 0 p o (fun i => (f i).or (bits? u i)) := by
  refine congrArg (mkReg .rcd 0 p o) (funext fun i => ?_)
  unfold bits?
  cases hok : okAt u i
  · simp [held i hok]
  · cases f i <;> rfl

theorem recWith_lane {u : Reg} {l : Nat} (hl : okAt u l = true) (p : Bool) (o x : Nat) :
    recWith u p o (fun i => if i = l then some x else none) = mkReg .rcd 0 p o (fun i => if i = l then some x else bits? u i) := by
  rw [recWith_eq (fun i hi => if_neg (by rintro rfl; simp [hl] at hi))]
  refine congrArg (mkReg .rcd 0 p o) (funext fun i => ?_)
  by_cases h : i = l <;> simp [h]

/-- The lanes of a record under another time: lane 2 its epoch, lane 3 its round (R118). -/
def timedLanes (u : Reg) (t : Time) (i : Nat) : Option Nat := if i = 2 then some t.1 else if i = 3 then some t.2 else bits? u i

theorem recWith_time {w : Option Nat} {u : Reg} (hu : IsChange w u) (p : Bool) (o : Nat) (t : Time) :
    recWith u p o (fun i => if i = 2 then some t.1 else if i = 3 then some t.2 else none) = mkReg .rcd 0 p o (timedLanes u t) := by
  have held (i : Nat) (hi : okAt u i = false) : i ≠ 2 ∧ i ≠ 3 := by
    constructor <;> rintro rfl
    · simp [hu.ok 2 (by decide)] at hi
    · simp [hu.ok 3 (by decide)] at hi
  rw [recWith_eq (fun i hi => by simp [held i hi])]
  refine congrArg (mkReg .rcd 0 p o) (funext fun i => ?_)
  unfold timedLanes
  by_cases h2 : i = 2 <;> by_cases h3 : i = 3 <;> simp [h2, h3]

/-! ## RMK -/

section Made

variable {u v : Reg} (hu : u.fmt = .n32 ∨ u.fmt = .s32 ∨ u.fmt = .rcd) (hv : fmtWidth v.fmt = 32) (e : Env)
include hu hv

/-- R217: a may be N32, S32 or REC, b any tag of 32-bit lanes. -/
theorem rmk_accepted {β : Type} (k : Unit → Except Nat β) :
    (do need (fun f => f == .n32 || f == .s32 || f == .rcd) u; need is32 v >>= k) = k () := by
  have b : is32 v.fmt = true := by
    revert hv
    cases v.fmt <;> decide
  exact (need_accepted (p := fun f => f == .n32 || f == .s32 || f == .rcd) (by simpa [or_assoc] using hu) _).trans (need_accepted b k)

theorem rmkSem_null (empty : ∀ i, i < 5 → okAt u i = false) : rmkSem e [u, v] = .ok (mkReg .rcd 0 (poisonOf [u, v] false) (originOf [u, v]) (fun _ => none)) := by
  have count : ((List.range 5).filter (okAt u)).length = 0 := by
    rw [List.filter_congr (q := fun _ => false) (fun i hi => empty i (List.mem_range.mp hi))]
    rfl
  exact (rmk_accepted hu hv _).trans (if_pos count)

/-- R217: the five lanes of a, then the value words that b holds from lane 0 on. -/
theorem rmkSem_change (five : ∀ i, i < 5 → okAt u i = true) {w : Nat} (hw : w ≤ 11) (words : ∀ i, i < 16 → okAt v i = decide (i < w)) :
    rmkSem e [u, v] = .ok (mkReg .rcd 0 (poisonOf [u, v] false) (originOf [u, v])
      (fun i => if i < 5 then bits? u i else if i < 5 + w then bits? v (i - 5) else none)) := by
  have five' : ((List.range 5).filter (okAt u)).length = 5 := by
    rw [List.filter_congr (q := fun _ => true) (fun i hi => five i (List.mem_range.mp hi))]
    rfl
  have count : (validLanes v).length = w := by
    unfold validLanes
    rw [List.filter_congr (fun i hi => words i (List.mem_range.mp hi))]
    exact filter_lt w 16 (by omega)
  have held (i : Nat) (hi : i < w) : okAt v i = true := by
    rw [words i (by omega)]
    exact decide_eq_true hi
  have packed : (List.range w).any (fun i => !okAt v i) = false := by
    rw [List.any_eq_false]
    intro i hi
    simp [held i (List.mem_range.mp hi)]
  refine (rmk_accepted hu hv _).trans ?_
  simp only [five', count, packed]
  rw [if_neg (by decide), if_neg (by simp; omega)]
  refine congrArg (fun lane => Except.ok (mkReg .rcd 0 (poisonOf [u, v] false) (originOf [u, v]) lane)) (funext fun i => ?_)
  split
  case isTrue low => exact (bits?_of_ok (five i low)).symm
  case isFalse high =>
    split
    case isTrue word => exact (bits?_of_ok (held (i - 5) (by omega))).symm
    case isFalse => rfl

end Made

/-! ## Times -/

section Times

variable {u v : Reg} {wa wb : Option Nat} (e : Env)

/-- R218: a change takes the join or meet of its time and b's. -/
theorem timeSem_change (hu : IsChange wa u) (hv : HasTime wb v) (op : Time → Time → Time) : timeSem op wa wb e [u, v] =
    .ok (mkReg .rcd 0 (poisonOf [u, v] false) (originOf [u, v]) (timedLanes u (op (recTime u) (recTime v)))) :=
  (recCheck_change_bind hu _).trans ((timeOperand_has_bind hv _).trans (congrArg Except.ok (recWith_time hu ..)))

/-- R218: a null record, and a change where b has no time, give a null record. -/
theorem timeSem_null (h : (IsNull u ∧ (HasTime wb v ∨ NoTime v)) ∨ (IsChange wa u ∧ NoTime v)) (op : Time → Time → Time) : timeSem op wa wb e [u, v] =
    .ok (mkReg .rcd 0 (poisonOf [u, v] false) (originOf [u, v]) (fun _ => none)) := by
  rcases h with ⟨null, hv⟩ | ⟨change, timeless⟩
  · refine (recCheck_null_bind null _).trans ?_
    obtain ⟨t, passes⟩ := timeOperand_bind hv _
    exact passes
  · exact (recCheck_change_bind change _).trans (timeOperand_none_bind timeless _)

/-- R134, R218: a change takes the time adv_F. -/
theorem tadvSem_change (hu : IsChange wa u) (hv : v.fmt = .n32) {f : List Time} (hf : frontOf v = some f) {t : Time} (ht : advTime f (recTime u) = some t) :
    tadvSem wa e [u, v] = .ok (mkReg .rcd 0 (poisonOf [u, v] false) (originOf [u, v]) (timedLanes u t)) := by
  refine (recCheck_change_bind hu _).trans ((antichain_bind hv hf _).trans ?_)
  dsimp only
  rw [ht]
  exact congrArg Except.ok (recWith_time hu ..)

/-- R134, R218: adv_F is no time where F is empty. -/
theorem tadvSem_null {f : List Time} (h : IsNull u ∨ (IsChange wa u ∧ f = [])) (hv : v.fmt = .n32) (hf : frontOf v = some f) :
    tadvSem wa e [u, v] = .ok (mkReg .rcd 0 (poisonOf [u, v] false) (originOf [u, v]) (fun _ => none)) := by
  rcases h with null | ⟨change, rfl⟩
  · exact (recCheck_null_bind null _).trans (antichain_bind hv hf _)
  · exact (recCheck_change_bind change _).trans (antichain_bind hv hf _)

theorem allOnes_leTime (u v : Reg) :
    allOnes (leTime (recTime u) (recTime v)) = if laneOf u 2 ≤ laneOf v 2 ∧ laneOf u 3 ≤ laneOf v 3 then 0xFFFFFFFF else 0 := by
  unfold allOnes leTime recTime
  simp only [Bool.and_eq_true, decide_eq_true_eq]

/-- R120, R219: TLE compares in the product order. -/
theorem tleSem_times (hu : HasTime wa u) (hv : HasTime wb v) : tleSem wa wb e [u, v] =
    .ok (mkReg .n32 0 (poisonOf [u, v] false) (originOf [u, v])
      (fun _ => some (if laneOf u 2 ≤ laneOf v 2 ∧ laneOf u 3 ≤ laneOf v 3 then 0xFFFFFFFF else 0))) := by
  rw [← allOnes_leTime u v]
  exact (timeOperand_has_bind hu _).trans (timeOperand_has_bind hv _)

theorem tleSem_none (h : (HasTime wa u ∧ NoTime v) ∨ (NoTime u ∧ HasTime wb v) ∨ (NoTime u ∧ NoTime v)) : tleSem wa wb e [u, v] =
    .ok (mkReg .n32 0 (poisonOf [u, v] false) (originOf [u, v]) (fun _ => none)) := by
  rcases h with ⟨has, timeless⟩ | ⟨timeless, has⟩ | ⟨timeless, timeless'⟩
  · exact (timeOperand_has_bind has _).trans (timeOperand_none_bind timeless _)
  · exact (timeOperand_none_bind timeless _).trans (timeOperand_has_bind has _)
  · exact (timeOperand_none_bind timeless _).trans (timeOperand_none_bind timeless' _)

end Times

/-! ## One record -/

section One

variable {u : Reg} {wa : Option Nat} (e : Env)

/-- R121, R220: ENTER and LEAVE set the round to 0, FEED counts it up below the last. -/
theorem scopeSem_change (hu : IsChange wa u) {x : Nat} (below : x = 1 → laneOf u 3 ≠ 0xFFFFFFFF) : scopeSem x wa e [u] =
    .ok (mkReg .rcd 0 u.p u.origin (fun i => if i = 3 then some (if x = 1 then laneOf u 3 + 1 else 0) else bits? u i)) :=
  (recCheck_change_bind hu _).trans ((if_neg fun h : x = 1 ∧ laneOf u 3 = 0xFFFFFFFF => below h.1 h.2).trans (congrArg Except.ok (recWith_lane (hu.ok 3 (by decide)) ..)))

theorem scopeSem_null (hu : IsNull u) (x : Nat) : scopeSem x wa e [u] = .ok (mkReg .rcd 0 u.p u.origin (fun _ => none)) := recCheck_null_bind hu _

/-- R119, R221: the negated weight wraps, and −2^31 is exceptional. -/
theorem rnegSem_change (hu : IsChange wa u) : rnegSem wa e [u] =
    .ok (mkReg .rcd 0 (poisonOf [u] (laneOf u 4 == 2 ^ 31)) (resultOrigin e.agent [u] (laneOf u 4 == 2 ^ 31))
      (fun i => if i = 4 then some ((2 ^ 32 - laneOf u 4) % 2 ^ 32) else bits? u i)) :=
  (recCheck_change_bind hu _).trans (congrArg Except.ok (recWith_lane (hu.ok 4 (by decide)) ..))

theorem rnegSem_null (hu : IsNull u) : rnegSem wa e [u] = .ok (mkReg .rcd 0 u.p u.origin (fun _ => none)) := recCheck_null_bind hu _

/-- R222: a change has a key, and an N32 token whose lanes 0 and 1 are valid. -/
theorem rhashSem_key (hu : IsChange wa u ∨ (u.fmt = .n32 ∧ okAt u 0 = true ∧ okAt u 1 = true)) (n : Nat) : rhashSem n wa e [u] =
    .ok (mkReg .n32 0 u.p u.origin (fun _ => some (if n = 0 then hashKey (recKey u) else bucketOf n (recKey u)))) := by
  rcases hu with change | ⟨hf, h0, h1⟩
  · refine (need_accepted (by simp [change.1]) _).trans ((if_pos change.1).trans (recCheck_change_bind change _))
  · refine (need_accepted (by simp [hf]) _).trans ((if_neg (by simp [hf])).trans ?_)
    rw [h0, h1]
    rfl

theorem rhashSem_none (hu : IsNull u ∨ (u.fmt = .n32 ∧ (okAt u 0 && okAt u 1) = false)) (n : Nat) : rhashSem n wa e [u] =
    .ok (mkReg .n32 0 u.p u.origin (fun _ => none)) := by
  rcases hu with null | ⟨hf, hk⟩
  · refine (need_accepted (by simp [null.1]) _).trans ((if_pos null.1).trans (recCheck_null_bind null _))
  · refine (need_accepted (by simp [hf]) _).trans ((if_neg (by simp [hf])).trans ?_)
    rw [hk]
    rfl

/-- R195: CMPR keeps the elements that are not zero, each with its index in the low half. -/
theorem cmprSem_ok (hu : u.fmt = .bf16) : cmprSem e [u] =
    .ok (mkReg .vcb 0 u.p u.origin (fun i => (elem? u i).bind (fun w => if w % 2 ^ 15 = 0 then none
      else some ((if isNan (fval .bf16 w) then canonNaN .bf16 else w) * 2 ^ 16 + (16 * e.task.iter.toNat + i) % 2 ^ 16)))) := by
  refine (need_accepted (p := (· == .bf16)) (by simp [hu]) _).trans ?_
  refine congrArg (fun lane => Except.ok (mkReg .vcb 0 u.p u.origin lane)) (funext fun i => ?_)
  unfold elem?
  cases okAt u i
  · rfl
  · simp

end One

/-- Settles O13: each instruction accepts its sources, and its meaning is the row's register, with the marks of the sources. -/
theorem cellRecords : Obligations.CellRecords := by
  unfold Obligations.CellRecords
  intro s e d a b n u v h wa wb two one timed
  refine ⟨fun hs => ?pair, fun hs => ?single, RegRow.completes_of_sources h rfl (List.forall_mem_nil _) rfl rfl (mkReg_lanes ..)⟩
  case pair =>
    have row (i : Instr) {g : Fmt} {lane : Nat → Option Nat} {f : Env → List Reg → Except Nat Reg} (hu : u.fmt ≠ .none) (hv : v.fmt ≠ .none)
        (hx : exec i s = s.compute 2 d 0 [a, b] f) (hf : f e [u, v] = .ok (mkReg g 0 (poisonOf [u, v] false) (originOf [u, v]) lane)) :
        (two i g lane).Completes s e :=
      RegRow.completes_of_sources h hs (fmt_ne_none_pair hu hv) hx hf (mkReg_marks2 ..)
    refine ⟨fun hu width hv => ?rmk, fun hu hv => ⟨?tjoin, ?tmeet⟩, fun ht => ?timesNull,
      fun hv f front => ⟨fun hu t r ht hr => ?tadv, fun hu => ?tadvNull⟩, fun hu hv => ?tle, fun ht => ?tleNone⟩
    case rmk =>
      have hn : u.fmt ≠ .none := by rcases hu with hf | hf | hf <;> simp [hf]
      exact ⟨fun empty => row (.rmk d a b) hn hv rfl (rmkSem_null hu width e empty),
        fun five w hw words => row (.rmk d a b) hn hv rfl (rmkSem_change hu width e five hw words)⟩
    case tjoin => exact row (.tjoin d a b) hu.fmt' hv.fmt rfl (timeSem_change e hu hv joinTime)
    case tmeet => exact row (.tmeet d a b) hu.fmt' hv.fmt rfl (timeSem_change e hu hv meetTime)
    case timesNull =>
      have hu : u.fmt ≠ .none := ht.elim (fun h => h.1.fmt') (fun h => h.1.fmt')
      have hv : v.fmt ≠ .none := ht.elim (fun h => h.2.elim HasTime.fmt NoTime.fmt) (fun h => h.2.fmt)
      exact ⟨row (.tjoin d a b) hu hv rfl (timeSem_null e ht joinTime), row (.tmeet d a b) hu hv rfl (timeSem_null e ht meetTime)⟩
    case tadv => exact row (.tadv d a b) hu.fmt' (by simp [hv]) rfl (tadvSem_change e hu hv front (adv_eq f (recTime u) t r ht hr))
    case tadvNull => exact row (.tadv d a b) (hu.elim IsNull.fmt' (fun h => h.1.fmt')) (by simp [hv]) rfl (tadvSem_null e hu hv front)
    case tle => exact row (.tle d a b) hu.fmt hv.fmt rfl (tleSem_times e hu hv)
    case tleNone =>
      have hu : u.fmt ≠ .none := ht.elim (fun h => h.1.fmt) (fun h => h.elim (fun h => h.1.fmt) (fun h => h.1.fmt))
      have hv : v.fmt ≠ .none := ht.elim (fun h => h.2.fmt) (fun h => h.elim (fun h => h.2.fmt) (fun h => h.2.fmt))
      exact row (.tle d a b) hu hv rfl (tleSem_none e ht)
  case single =>
    have row (i : Instr) {g : Fmt} {lane : Nat → Option Nat} {f : Env → List Reg → Except Nat Reg} (hu : u.fmt ≠ .none)
        (hx : exec i s = s.compute 2 d 0 [a] f) (hf : f e [u] = .ok (mkReg g 0 u.p u.origin lane)) : (one i g lane).Completes s e :=
      RegRow.completes_of_sources h hs (fmt_ne_none_single hu) hx hf (mkReg_lanes ..)
    refine ⟨fun hu => ⟨fun hb => ?scope, fun below => ?feed, ?rneg⟩, fun hu => ⟨?scopeNull, ?rnegNull⟩, fun hu => ?rhash, fun hu => ?rhashNone, fun hu => ?cmpr⟩
    case scope =>
      rcases hb with rfl | rfl
      · exact row (.scope d a 0) hu.fmt' rfl (scopeSem_change e hu (x := 0) nofun)
      · exact row (.scope d a 2) hu.fmt' rfl (scopeSem_change e hu (x := 2) nofun)
    case feed => exact row (.scope d a 1) hu.fmt' rfl (scopeSem_change e hu (x := 1) (fun _ => below))
    case rneg => exact RegRow.completes_of_sources h hs (fmt_ne_none_single hu.fmt') rfl (rnegSem_change e hu) (mkReg_marks1 ..)
    case scopeNull => exact row (.scope d a b) hu.fmt' rfl (scopeSem_null e hu b)
    case rnegNull => exact row (.rneg d a) hu.fmt' rfl (rnegSem_null e hu)
    case rhash => exact row (.rhash d a n) (hu.elim IsChange.fmt' (fun h => by simp [h.1])) rfl (rhashSem_key e hu n)
    case rhashNone => exact row (.rhash d a n) (hu.elim IsNull.fmt' (fun h => by simp [h.1])) rfl (rhashSem_none e hu n)
    case cmpr => exact row (.cmpr d a) (by simp [hu]) rfl (cmprSem_ok e hu)

end Sys2Proof.Machine
end

section
/-! Scalars, immediates, branches and loops of a region controller (R237, R241, R246, R247). -/

namespace Sys2Proof.Machine

/-! ## 64-bit values as naturals -/

theorem s64_eq_toInt (x : W64) : s64 x.toNat = x.toInt := by
  unfold s64
  rw [signExt_eq_toInt (by decide), BitVec.ofNat_toNat, BitVec.setWidth_eq]

theorem ofNat_cut64 (v : Int) : BitVec.ofNat 64 (cut 64 v) = BitVec.ofInt 64 v := by
  unfold cut
  apply BitVec.eq_of_toNat_eq
  rw [BitVec.toNat_ofNat, BitVec.toNat_ofInt]
  omega

theorem ofNat_w64 (v : Nat) : BitVec.ofNat 64 (w64 v) = BitVec.ofNat 64 v := by
  apply BitVec.eq_of_toNat_eq
  simp [w64]

theorem ofNat_flag (c : Bool) : BitVec.ofNat 64 (Bool.nat c) = if c then 1 else 0 := by cases c <;> rfl

theorem ofNat_ite (c : Prop) [Decidable c] (x y : W64) : BitVec.ofNat 64 (if c then x.toNat else y.toNat) = if c then x else y := by
  split <;> exact BitVec.ofNat_toNat _ _ |>.trans (BitVec.setWidth_eq _)

/-- The upper half of a signed product. -/
theorem ofNat_mulh (x y : W64) : BitVec.ofNat 64 (cut 64 (x.toInt * y.toInt / (2 ^ 64 : Nat))) = (x.signExtend 128 * y.signExtend 128).extractLsb' 64 64 := by
  have wide (v : W64) : v.signExtend 128 = BitVec.ofInt 128 v.toInt := rfl
  apply BitVec.eq_of_toNat_eq
  rw [wide, wide, ← BitVec.ofInt_mul, BitVec.extractLsb'_toNat, Nat.shiftRight_eq_div_pow, BitVec.toNat_ofInt, ofNat_cut64, BitVec.toNat_ofInt]
  generalize x.toInt * y.toInt = p
  omega

theorem ofNat_shl64 (x : W64) (n : Nat) : BitVec.ofNat 64 (shl64 x.toNat n) = x <<< n := by
  apply BitVec.eq_of_toNat_eq
  unfold shl64
  split
  case isTrue h => rw [BitVec.shiftLeft_eq_zero h]
  case isFalse h => rw [ofNat_w64, BitVec.toNat_ofNat, BitVec.toNat_shiftLeft, Nat.shiftLeft_eq]

theorem ofNat_shr64 (x : W64) (n : Nat) : BitVec.ofNat 64 (shr64 x.toNat n) = x >>> n := by
  apply BitVec.eq_of_toNat_eq
  rw [BitVec.toNat_ushiftRight, Nat.shiftRight_eq_div_pow]
  unfold shr64
  split
  case isTrue h => exact (Nat.div_eq_of_lt (lt_of_lt_of_le x.isLt (Nat.pow_le_pow_right (by decide) h))).symm
  case isFalse h => exact Nat.mod_eq_of_lt (lt_of_le_of_lt (Nat.div_le_self _ _) x.isLt)

theorem ofNat_sha (x : W64) (n : Nat) : BitVec.ofNat 64 (cut 64 (x.toInt / (2 ^ n : Nat))) = x.sshiftRight n := by
  rw [ofNat_cut64, ← Int.shiftRight_eq_div_pow]
  rfl

/-! ## Scalars and immediates -/

section Scalars
variable {s : State} {i : Instr} {d : Nat} {w : W64}

/-- A two-register scalar whose function of the two values is w. -/
theorem State.puts_rcOp (a b : Nat) (f : Nat → Nat → Nat) (h : exec i s = s.rcOp d a b f) (hw : BitVec.ofNat 64 (f (s.qv a).toNat (s.qv b).toNat) = w) : s.Puts i d w 4 := by
  refine s.puts_rcPut h ?_
  rw [s.q_eq, s.q_eq, hw]

/-- A scalar of one register and a literal whose function of the value is w. -/
theorem State.puts_rcImm (a : Nat) (f : Nat → Nat) (h : exec i s = s.rcImm d a f) (hw : BitVec.ofNat 64 (f (s.qv a).toNat) = w) : s.Puts i d w 4 := by
  refine s.puts_rcPut h ?_
  rw [s.q_eq, hw]

end Scalars

/-- Settles O21: the function that each row gives of two naturals is the operation on 64-bit words. -/
theorem rcScalars : Obligations.RcScalars := by
  unfold Obligations.RcScalars
  intro s d a b x y flag
  have word (v : W64) : BitVec.ofNat 64 v.toNat = v := (BitVec.ofNat_toNat _ _).trans (BitVec.setWidth_eq _)
  have less : decide (s64 x.toNat < s64 y.toNat) = x.slt y := by rw [s64_eq_toInt, s64_eq_toInt]; rfl
  have pick (u v p q : W64) : BitVec.ofNat 64 (if s64 u.toNat < s64 v.toNat then p.toNat else q.toNat) = if u.slt v then p else q := by
    rw [s64_eq_toInt, s64_eq_toInt, ofNat_ite]
    exact if_congr decide_eq_true_iff.symm rfl rfl
  simp only [List.forall_mem_cons]
  refine ⟨State.puts_rcOp a b (fun x y => w64 (x + y)) rfl ?add, State.puts_rcOp a b (fun x y => w64 (x + (2 ^ 64 - y))) rfl ?sub,
    State.puts_rcOp a b (fun x y => w64 (x * y)) rfl ?mul, State.puts_rcOp a b (fun x y => cut 64 (s64 x * s64 y / (2 ^ 64 : Nat))) rfl ?mulh,
    State.puts_rcOp a b (· &&& ·) rfl ?and, State.puts_rcOp a b (· ||| ·) rfl ?or, State.puts_rcOp a b (· ^^^ ·) rfl ?xor,
    State.puts_rcOp a b shl64 rfl (ofNat_shl64 x _), State.puts_rcOp a b shr64 rfl (ofNat_shr64 x _),
    State.puts_rcOp a b (fun x n => cut 64 (s64 x / (2 ^ min n 64 : Nat))) rfl ?sha,
    State.puts_rcOp a b (fun x y => Bool.nat (decide (s64 x < s64 y))) rfl ?slt, State.puts_rcOp a b (fun x y => Bool.nat (decide (x < y))) rfl (ofNat_flag _),
    State.puts_rcOp a b (fun x y => if s64 y < s64 x then y else x) rfl (pick y x y x),
    State.puts_rcOp a b (fun x y => if s64 x < s64 y then y else x) rfl (pick x y y x), List.forall_mem_nil _⟩
  case add => rw [ofNat_w64, BitVec.ofNat_add, word, word]
  case sub =>
    rw [ofNat_w64]
    apply BitVec.eq_of_toNat_eq
    rw [BitVec.toNat_ofNat, BitVec.toNat_sub, Nat.add_comm]
  case mul => rw [ofNat_w64, BitVec.ofNat_mul, word, word]
  case mulh => rw [s64_eq_toInt, s64_eq_toInt, ofNat_mulh]
  case and => rw [BitVec.ofNat_and, word, word]
  case or => rw [BitVec.ofNat_or, word, word]
  case xor => rw [BitVec.ofNat_xor, word, word]
  case sha => rw [s64_eq_toInt, ofNat_sha]
  case slt => rw [less, ofNat_flag]

/-- Settles O22: a literal cut to 64 bits is its sign extension, and LI and LIH write theirs whole. -/
theorem rcImmediates : Obligations.RcImmediates := by
  unfold Obligations.RcImmediates
  intro s d a i e hi he x imm
  have word (v : W64) : BitVec.ofNat 64 v.toNat = v := (BitVec.ofNat_toNat _ _).trans (BitVec.setWidth_eq _)
  have literal (n v : Nat) (hn : 0 < n) : BitVec.ofInt 64 (signExt n v) = (BitVec.ofNat n v).signExtend 64 := by rw [signExt_eq_toInt hn]; rfl
  have shift (h : i ≤ 63) : ¬63 < i := Nat.not_lt.mpr h
  refine ⟨State.puts_rcImm a (fun x => cut 64 (x + signExt 15 i)) rfl ?addi, State.puts_rcImm a (fun x => x &&& cut 64 (signExt 15 i)) rfl ?andi,
    State.puts_rcImm a (fun x => x ||| i) rfl ?ori, State.puts_rcImm a (fun x => w64 (x * 2 ^ 15) ||| i) rfl ?movk,
    fun h => ⟨State.puts_rcImm a (fun x => shl64 x i) (if_neg (shift h)) (ofNat_shl64 x i), State.puts_rcImm a (fun x => shr64 x i) (if_neg (shift h)) (ofNat_shr64 x i)⟩,
    ⟨_, rfl, ?li⟩, ⟨_, rfl, ?lih⟩⟩
  case addi => rw [ofNat_cut64, BitVec.ofInt_add, literal 15 i (by decide), BitVec.ofInt_natCast, word]
  case andi => rw [BitVec.ofNat_and, ofNat_cut64, literal 15 i (by decide), word]
  case ori => rw [BitVec.ofNat_or, word]
  case movk =>
    have shifted : BitVec.ofNat 64 (w64 (x.toNat * 2 ^ 15)) = x <<< 15 := ofNat_shl64 x 15
    rw [BitVec.ofNat_or, shifted]
  case li =>
    have h := RcTo.setQ_next s d (cut 64 (signExt 32 e)) 8
    rwa [ofNat_cut64, literal 32 e (by decide)] at h
  case lih =>
    have h := RcTo.setQ_next s d (e % 2 ^ 32 * 2 ^ 32 + s.q s.fcore d % 2 ^ 32) 8
    have halves : BitVec.ofNat 64 (e % 2 ^ 32 * 2 ^ 32 + s.q s.fcore d % 2 ^ 32) = BitVec.ofNat 32 e ++ (s.qv d).extractLsb' 0 32 := by
      apply BitVec.eq_of_toNat_eq
      rw [s.q_eq, BitVec.toNat_append, BitVec.extractLsb'_toNat, BitVec.toNat_ofNat, BitVec.toNat_ofNat, ← Nat.shiftLeft_add_eq_or_of_lt (Nat.mod_lt _ (by decide)), Nat.shiftLeft_eq]
      omega
    rwa [halves] at h


end Sys2Proof.Machine
end

section
/-! Branches, jumps and loops of a region controller (R237, R246, R247). -/

namespace Sys2Proof.Machine

/-- A controller that jumps: the loops that do not hold its target are left (R247). -/
def Rc.jumps (target : Nat) (r : Rc) : Rc :=
  { r with pc := target, loops := r.loops.dropWhile (fun l => !(decide (l.start ≤ target) && decide (target ≤ l.last))) }

theorem leaveLoops_eq_dropWhile (target : Nat) (ls : List LoopRec) :
    leaveLoops target ls = ls.dropWhile (fun l => !(decide (l.start ≤ target) && decide (target ≤ l.last))) := by
  induction ls with
  | nil => rfl
  | cons l ls ih =>
    unfold leaveLoops
    by_cases h : l.start ≤ target ∧ target ≤ l.last
    · rw [if_pos h, List.dropWhile_cons_of_neg (by simp [h])]
    · rw [if_neg h, ih, List.dropWhile_cons_of_pos (by rw [← Bool.decide_and, decide_eq_false h]; rfl)]

theorem RcTo.jumps (s : State) (target : Nat) : RcTo s (s.jump s.fcore target) (Rc.jumps target) := by
  have same : Rc.jumps target = fun r => { r with pc := target, loops := leaveLoops target r.loops } := by
    funext r
    rw [leaveLoops_eq_dropWhile]
    rfl
  exact same ▸ RcTo.jump s target

/-- A target counted in words from the instruction, as a sum cut to 32 bits, of a field of any width (R246). -/
theorem relTarget_field {n : Nat} (hn : 0 < n) (pc o : Nat) : relTarget pc n o = (((pc : Int) + 4 * (BitVec.ofNat n o).toInt) % 2 ^ 32).toNat := by
  unfold relTarget cut
  rw [signExt_eq_toInt hn]
  rfl

section Jumps
variable {s : State} {i : Instr}

/-- A conditional branch goes to its target where its condition c holds, and on where it does not. -/
theorem State.turns_branch (a b o : Nat) (p : Nat → Nat → Bool) {c : Bool} (h : exec i s = .next (s.branch a b o p)) (hc : p (s.qv a).toNat (s.qv b).toNat = c) :
    s.Turns i (if c then Rc.jumps (relTarget (s.rc s.fcore).pc 15 o) else Rc.skip 4) := by
  refine ⟨_, h, ?_⟩
  unfold State.branch
  simp only [s.q_eq, hc]
  cases c with
  | true => exact RcTo.jumps s _
  | false => exact RcTo.next s 4

/-- A jump to an aligned target writes its link and goes there. -/
theorem State.turns_jumpTo (d target n : Nat) (h : exec i s = .next (s.jumpTo d target n)) (ht : target % 4 = 0) :
    s.Turns i (fun r => { Rc.jumps target r with q := if d = 0 then r.q else r.q.set d (BitVec.ofNat 64 ((s.rc s.fcore).pc + n)) }) := by
  have aligned : s.jumpTo d target n = (s.setQ s.fcore d ((s.rc s.fcore).pc + n)).jump s.fcore target := if_neg (not_not_intro ht)
  have link := RcTo.setQ s d ((s.rc s.fcore).pc + n)
  have goes := RcTo.jumps (s.setQ s.fcore d ((s.rc s.fcore).pc + n)) target
  rw [link.fcore] at goes
  exact ⟨_, h.trans (congrArg _ aligned), link.trans goes⟩

end Jumps

/-- Settles O23: a branch is its condition on the two values, a jump its aligned target; JMP links into q0. -/
theorem rcBranches : Obligations.RcBranches := by
  unfold Obligations.RcBranches
  intro s d a b o e x y pc near goes link
  have target (n : Nat) (hn : 0 < n) : relTarget pc n o = near n := relTarget_field hn pc o
  have branch (i : Instr) (p : Nat → Nat → Bool) (c : Bool) (h : exec i s = .next (s.branch a b o p)) (hc : p x.toNat y.toNat = c) :
      s.Turns i (if c then goes (near 15) else Rc.skip 4) := target 15 (by decide) ▸ State.turns_branch a b o p h hc
  have jump (i : Instr) (d t n : Nat) (h : exec i s = .next (s.jumpTo d t n)) (ht : t % 4 = 0) :
      s.Turns i (fun r => { goes t r with q := if d = 0 then r.q else r.q.set d (BitVec.ofNat 64 (pc + n)) }) := State.turns_jumpTo d t n h ht
  have less : decide (s64 x.toNat < s64 y.toNat) = x.slt y := by rw [s64_eq_toInt, s64_eq_toInt]; rfl
  have notLess : decide (s64 y.toNat ≤ s64 x.toNat) = !x.slt y := by rw [← less, ← decide_not]; exact decide_eq_decide.mpr Int.not_lt.symm
  have equal : (x.toNat == y.toNat) = (x == y) := by
    rw [Bool.eq_iff_iff, beq_iff_eq, beq_iff_eq]
    exact BitVec.toNat_inj
  have aligned (h : pc % 4 = 0) : near 20 % 4 = 0 := by
    show (((pc : Int) + 4 * (BitVec.ofNat 20 o).toInt) % 2 ^ 32).toNat % 4 = 0
    omega
  have linked (n t : Nat) : (fun r : Rc => { goes t r with q := if d = 0 then r.q else r.q.set d (BitVec.ofNat 64 (pc + n)) }) = link n t := rfl
  refine ⟨?branches, fun h => ⟨?jmp, ?jal⟩, fun h => ?jr, fun h => ?jl⟩
  case branches =>
    simp only [List.forall_mem_cons]
    exact ⟨branch _ (fun x y => x == y) _ rfl equal, branch _ (fun x y => x != y) _ rfl (congrArg (!·) equal), branch _ (fun x y => decide (s64 x < s64 y)) _ rfl less,
      branch _ (fun x y => decide (s64 y ≤ s64 x)) _ rfl notLess, branch _ (fun x y => decide (x < y)) _ rfl rfl,
      branch _ (fun x y => decide (y ≤ x)) _ rfl ((decide_eq_decide.mpr Nat.not_lt.symm).trans decide_not), List.forall_mem_nil _⟩
  case jmp => exact jump _ 0 _ 4 (congrArg (fun t => Host.Outcome.next (s.jumpTo 0 t 4)) (target 20 (by decide))) (aligned h)
  case jal => exact jump _ d _ 4 (congrArg (fun t => Host.Outcome.next (s.jumpTo d t 4)) (target 20 (by decide))) (aligned h)
  case jr =>
    have ht : x.toNat % 2 ^ 32 % 4 = 0 := by omega
    exact jump _ d _ 4 (congrArg (fun v => Host.Outcome.next (s.jumpTo d (v % 2 ^ 32) 4)) (s.q_eq a)) ht
  case jl => exact jump _ d e 8 rfl h

section Loops
variable {s : State} {c o last : Nat}

/-- LOOP at an ENDL inside the program, with room for one more loop. -/
theorem State.rcLoop_opens (ends : relTarget (s.rc s.fcore).pc 15 o = last) (count : s.q s.fcore c < 2 ^ 32) (inside : s.inProgram s.fcore last = true)
    (word : decodeRc (s.rcWordAt s.fcore last) 0 = .rcEndl) (room : (s.rc s.fcore).loops.length < 4) :
    s.rcLoop c o = if s.q s.fcore c = 0 then s.modRc s.fcore (fun r => { r with pc := last + 4 })
      else s.modRc s.fcore (fun r => { r with pc := r.pc + 4, loops := { start := r.pc + 4, last := last, lc := s.q s.fcore c } :: r.loops }) := by
  unfold State.rcLoop
  simp only [ends, Nat.not_le.mpr count, inside, word, Nat.not_le.mpr room, if_false, Bool.not_true, Bool.false_eq_true, ne_eq, not_true]

/-- ENDL of the innermost loop: the count, or what has been written in its place, falls by one. -/
theorem State.rcEndl_counts {l : LoopRec} {ls : List LoopRec} (hl : (s.rc s.fcore).loops = l :: ls) (ends : l.last = (s.rc s.fcore).pc) :
    s.rcEndl = if l.pend.getD l.lc - 1 = 0 then s.modRc s.fcore (fun r => { r with pc := r.pc + 4, loops := ls })
      else s.modRc s.fcore (fun r => { r with pc := l.start, loops := { l with lc := l.pend.getD l.lc - 1, pend := none } :: ls }) := by
  unfold State.rcEndl
  dsimp only
  split
  · next none => rw [hl] at none; cases none
  · next l' ls' innermost =>
    obtain ⟨rfl, rfl⟩ := List.cons.inj (hl.symm.trans innermost)
    rw [if_neg (not_not_intro ends)]
    cases l.pend <;> rfl

end Loops

/-- Settles O24: LOOP opens its loop or goes past it, ENDL repeats the innermost one or leaves it. -/
theorem rcLoops : Obligations.RcLoops := by
  unfold Obligations.RcLoops
  intro s c o r last
  have target : relTarget (s.rc s.fcore).pc 15 o = last := relTarget_eq r.pc o
  refine ⟨fun inside word count room => ⟨s.rcLoop c o, rfl, ?opens⟩, fun l ls hl ends => ⟨s.rcEndl, rfl, ?counts⟩⟩
  case opens =>
    have zero : s.q s.fcore c = 0 ↔ s.qv c = 0 := by rw [s.q_eq]; exact BitVec.toNat_eq_nat.trans ⟨fun h => h.2, fun h => ⟨by decide, h⟩⟩
    have small : s.q s.fcore c < 2 ^ 32 := s.q_eq c ▸ count
    rw [State.rcLoop_opens target small inside word room]
    by_cases h : s.qv c = 0
    · simp only [zero.mpr h, h, if_true]
      exact RcTo.modRc s _
    · simp only [mt zero.mp h, h, if_false, ← s.q_eq]
      exact RcTo.modRc s _
  case counts =>
    rw [State.rcEndl_counts hl ends]
    by_cases h : l.pend.getD l.lc - 1 = 0
    · simp only [h, if_true]
      exact RcTo.modRc s _
    · simp only [h, if_false]
      exact RcTo.modRc s _

end Sys2Proof.Machine
end

section
/-! Status reads and waits, stream barriers, extraction and injection of a region controller (R248, R249, R255 to R258). -/

namespace Sys2Proof.Machine

/-! ## Status and waits (R248, R249, R255) -/

/-- A value that a controller puts once it has acquired a set. -/
theorem State.reads_of_acquire {s : State} {i : Instr} {c : Clr} {d v : Nat} (hx : exec i s = .next (s.rcAcquire c (·.rcPut d v)))
    (h : (s.acquire s.fcore 8 c).2 = .ok ()) : s.Reads i (Rc.put d (BitVec.ofNat 64 v) 4) := by
  rcases hq : s.acquire s.fcore 8 c with ⟨u, r⟩
  obtain ⟨noted, mem⟩ := State.acquire_noted hq
  obtain rfl : r = .ok () := by simpa [hq] using h
  have eq : s.rcAcquire c (·.rcPut d v) = u.rcPut d v := by simp [State.rcAcquire, hq]
  have put := RcTo.put u d v
  exact ⟨u, _, hx.trans (congrArg _ eq), noted, put, put.mem.trans mem⟩

section Bst
variable {s : State} {d a : Nat}

/-- BST of the copy engine answers F, the completion bit and the copies of the node, and acquires what a complete sample gives (R248). -/
theorem State.rcBst_copies {n : Nat} {f : Bool} (hn : (s.copiesOf s.fcore (s.rc s.fcore).node).length = n) (hf : (s.core s.fcore).copyF = f) :
    s.rcBst d a 0 0 = s.rcAcquire (if n == 0 && !f then (s.core s.fcore).copyClr else []) (·.rcPut d (Bool.nat f * 2 ^ 17 + Bool.nat (n == 0 && !f) * 2 ^ 16 + n)) := by
  subst hn hf
  rfl

end Bst

theorem State.rcWaite_waits {s : State} {d m : Nat} (hp : 0 < m) (hm : m < 64) (hg : s.evBits s.fcore &&& m = 0) : s.rcWaite d m = s := by
  unfold State.rcWaite
  dsimp only
  rw [if_neg (by omega), if_pos hg]

theorem State.rcWaite_takes {s : State} {d m : Nat} (hp : 0 < m) (hm : m < 64) (hg : s.evBits s.fcore &&& m ≠ 0) :
    s.rcWaite d m = (s.modRc s.fcore (fun r => { r with ev := r.ev - (r.ev &&& (s.evBits s.fcore &&& m)) })).rcPut d (s.evBits s.fcore &&& m) := by
  unfold State.rcWaite
  dsimp only
  rw [if_neg (by omega), if_neg hg]

/-- Settles O31: each instruction puts the status that it reads, or waits in its place. -/
theorem rcStatus : Obligations.RcStatus := by
  unfold Obligations.RcStatus
  intro s d a m r got flying
  refine ⟨s.puts_rcPut rfl rfl, fun idle => ?waitr, fun busy => ?waits, fun hp hm hg => ?waite, fun hp hm hg => ?none, fun some free => ?bst, fun none clear free => ?done⟩
  case waitr => exact s.puts_rcPut (congrArg Host.Outcome.next (if_neg (by rw [idle]; exact Bool.false_ne_true))) rfl
  case waits => exact congrArg Host.Outcome.next (if_pos busy)
  case waite =>
    have taken := RcTo.modRc s (fun r => { r with ev := r.ev - (r.ev &&& got) })
    exact ⟨_, congrArg Host.Outcome.next (State.rcWaite_takes hp hm hg), taken.trans (.put _ d got)⟩
  case none => exact congrArg Host.Outcome.next (State.rcWaite_waits hp hm hg)
  case bst =>
    have incomplete : (flying == 0 && !(s.core s.fcore).copyF) = false := by
      rcases some with h | h
      · rw [beq_false_of_ne h.ne', Bool.false_and]
      · rw [h, Bool.not_true, Bool.and_false]
    have sample := State.rcBst_copies (s := s) (d := d) (a := a) (n := flying) rfl rfl
    rw [incomplete] at sample
    have reads := State.reads_of_acquire (i := .rcBst d a 0 0) (congrArg Host.Outcome.next sample) free
    have word : Bool.nat (s.core s.fcore).copyF * 2 ^ 17 + Bool.nat false * 2 ^ 16 + flying = (if (s.core s.fcore).copyF then 2 ^ 17 else 0) + flying := by
      cases (s.core s.fcore).copyF <;> rfl
    exact word ▸ reads
  case done =>
    have sample := State.rcBst_copies (s := s) (d := d) (a := a) (n := 0) none clear
    exact State.reads_of_acquire (i := .rcBst d a 0 0) (congrArg Host.Outcome.next sample) free

/-! ## BARC (R256) -/

/-- A barrier point that waits in some memory cells of a core. -/
def State.barcQueued (s : State) (k m : Nat) (hs : List Nat) : State :=
  hs.foldl (fun s h => s.modCell k (cellOfHandle h) (fun c => { c with gen := { c.gen with barc := c.gen.barc ++ [m] } })) s

theorem State.barcQueued_rc (hs : List Nat) (s : State) (k m j : Nat) : (s.barcQueued k m hs).rc j = s.rc j :=
  foldl_inv (P := fun t : State => t.rc j = s.rc j) (fun _ _ h => (State.rc_modCell ..).trans h) hs s rfl

theorem State.barcQueued_rest (hs : List Nat) (s : State) (k m : Nat) : (s.barcQueued k m hs).mem = s.mem ∧ (s.barcQueued k m hs).fcore = s.fcore := by
  unfold State.barcQueued
  refine foldl_inv (P := fun t : State => t.mem = s.mem ∧ t.fcore = s.fcore) (fun t h kept => ?_) hs s ⟨rfl, rfl⟩
  exact kept

section Barc
variable {s : State} {a m : Nat} (hm : s.q s.fcore a = m) (lt : m < 256)
include hm lt

theorem State.rcBarc_queues (live : (barcCells m).any (fun h => (s.cell s.fcore (cellOfHandle h)).gen.live) = true) :
    s.rcBarc a = ((s.barcQueued s.fcore m (barcCells m)).modRc s.fcore (fun r => { r with barc := r.barc ++ [m] })).rcNext s.fcore 4 := by
  unfold State.rcBarc
  dsimp only
  rw [hm, if_neg (Nat.not_le.mpr lt), if_pos live]
  rfl

theorem State.rcBarc_merges {t : State} (idle : (barcCells m).any (fun h => (s.cell s.fcore (cellOfHandle h)).gen.live) = false)
    (ht : s.barcMerge s.fcore m = (t, .ok ())) : s.rcBarc a = t.rcNext s.fcore 4 := by
  unfold State.rcBarc
  dsimp only
  rw [hm, if_neg (Nat.not_le.mpr lt), if_neg (by rw [idle]; exact Bool.false_ne_true), ht]

end Barc

theorem mem_barcCells {m h : Nat} : h ∈ barcCells m ↔ h < 8 ∧ bit m h = true := by
  unfold barcCells
  rw [List.mem_filter, List.mem_range]

/-! ## XTR and INJ (R257, R258) -/

theorem payload_length (r : Reg) : (payload r).length = 64 := by
  unfold payload
  simp [List.length_flatMap, leBytes_length]

theorem State.rcXtr_empty {s : State} {d a : Nat} (h : (s.rc s.fcore).extract = []) : s.rcXtr d a = s.rcPut d (2 ^ 64 - 1) := by
  unfold State.rcXtr
  dsimp only
  rw [h]

/-- A wait leaves the registers. -/
theorem State.q_rcWaits (s : State) (w : Bool) (k i : Nat) : (s.rcWaits w).q k i = s.q k i := by
  have same : ((s.rcWaits w).rc k).q = (s.rc k).q := by
    unfold State.rcWaits
    rw [State.rc_modRc]
    split
    · next h => rw [h]
    · rfl
  unfold State.q
  rw [same]

section Token
variable {s v : State} {d a b : Nat} {h : Half}

theorem State.rcXtr_stores {g : Nat} {x : Token} {xs : List (Nat × Token)} (he : (s.rc s.fcore).extract = (g, x) :: xs)
    (hh : halves s.fcore (s.q s.fcore a % 2 ^ 32) 80 64 false = .ok [h]) (hb : s.free90 h.core h.off 80)
    (hs : (s.rcWaits false).store ((s.rcWaits false).agent s.fcore 8) s.fcore (s.q s.fcore a % 2 ^ 32) (payload x.reg ++ leBytes 16 (tokenHeader x)) (List.replicate 80 255) 64 false
      = (v, .ok ())) :
    s.rcXtr d a = (v.modRc s.fcore (fun r => { r with extract := xs })).rcPut d (tokenHeader x % 2 ^ 64) := by
  unfold State.rcXtr
  dsimp only
  rw [he]
  dsimp only
  rw [State.rcOrdered_free hh hb]
  simp only [State.q_rcWaits, hs]

theorem State.injDest_cell {s : State} {k m : Nat} {p : Dest} (h : s.injDest k m = some p) : p.loc < 32 := by
  unfold State.injDest at h
  dsimp only at h
  split_ifs at h with c
  obtain ⟨-, -, -, -, cell, -⟩ := c
  rwa [← Option.some.inj h]

theorem State.rcInj_empty {p : Dest} {bs : List Byte} {g : List Bool} (hp : s.injDest s.fcore (s.q s.fcore a) = some p)
    (hh : halves s.fcore (s.q s.fcore b % 2 ^ 32) 64 64 false = .ok [h]) (hb : s.free90 h.core h.off 64)
    (hl : (s.rcWaits false).load ((s.rcWaits false).agent s.fcore 8) s.fcore (s.q s.fcore b % 2 ^ 32) 64 64 false = (v, .ok (bs, g)))
    (hq : (v.port p.core p.loc p.ctx p.port).fifo = []) :
    s.rcInj d a b = ((v.free.2.free.2).reach p (edgeKey s.fcore 48 0 0) (injToken (s.q s.fcore a) bs ((v.port p.core p.loc p.ctx p.port).got == 0) v.free.2.free.1) []).rcPut d 1 := by
  unfold State.rcInj
  dsimp only
  rw [hp]
  dsimp only
  rw [State.rcOrdered_free hh hb]
  simp only [State.q_rcWaits, hl, hq, List.isEmpty_nil, Bool.true_or, if_true]

end Token

/-- Settles O35: BARC queues its point or merges at once, XTR and INJ are an access to scratchpad and the token's move. -/
theorem rcTokens : Obligations.RcTokens := by
  unfold Obligations.RcTokens
  intro s d a b r m
  have hm : s.q s.fcore a = m := s.q_eq a
  refine ⟨fun lt live => ?queues, fun lt idle free => ?merges, fun none => ?empty, fun g x xs h fifo hh race free => ?xtr, fun p h dest hh race free room => ?inj⟩
  case queues =>
    obtain ⟨h, h8, sel, live⟩ := live
    have some : (barcCells m).any (fun h => (s.cell s.fcore (cellOfHandle h)).gen.live) = true := List.any_eq_true.mpr ⟨h, mem_barcCells.mpr ⟨h8, sel⟩, live⟩
    obtain ⟨mem, fcore⟩ := State.barcQueued_rest (barcCells m) s s.fcore m
    have ends := RcTo.modRc_next (s.barcQueued s.fcore m (barcCells m)) (fun r => { r with barc := r.barc ++ [m] }) 4
    have rc := ends.rc
    rw [fcore, State.barcQueued_rc] at rc
    rw [fcore] at ends
    exact ⟨_, congrArg Host.Outcome.next (State.rcBarc_queues hm lt some), congrArg Rc.barc rc, congrArg Rc.pc rc, ends.mem.trans mem⟩
  case merges =>
    have none : (barcCells m).any (fun h => (s.cell s.fcore (cellOfHandle h)).gen.live) = false := by
      rw [List.any_eq_false]
      intro h sel
      obtain ⟨h8, sel⟩ := mem_barcCells.mp sel
      rw [idle h h8 sel]
      exact Bool.false_ne_true
    rcases hq : s.barcMerge s.fcore m with ⟨t, x⟩
    obtain rfl : x = .ok () := by simpa [hq] using free
    obtain ⟨⟨noted, mem⟩, -⟩ := State.barcMerge_spec hq
    have ends := RcTo.next t 4
    rw [noted.fcore] at ends
    exact ⟨t, _, congrArg Host.Outcome.next (State.rcBarc_merges hm lt none hq), noted, ends, ends.mem.trans mem⟩
  case empty => exact s.puts_rcPut (congrArg Host.Outcome.next (State.rcXtr_empty none)) rfl
  case xtr =>
    have len : (payload x.reg ++ leBytes 16 (tokenHeader x)).length = 80 := by rw [List.length_append, payload_length, leBytes_length]
    rw [← hm] at hh
    have written := State.store_ok (s := s.rcWaits false) (k := s.fcore) (hd := 8) (addr := s.q s.fcore a % 2 ^ 32) (al := 64) (h := h)
      (bytes := payload x.reg ++ leBytes 16 (tokenHeader x))
    rw [len] at written
    obtain ⟨v, hs, noted, mem⟩ := written (by decide) hh (race.modRc _ _)
    have taken := RcTo.modRc v (fun r => { r with extract := xs })
    have put := taken.trans (RcTo.put _ d (tokenHeader x % 2 ^ 64))
    have same : v.fcore = s.fcore := noted.fcore
    rw [same] at put
    obtain ⟨u, before, ends, -⟩ := noted.ready put (fun _ => rfl)
    have word : BitVec.ofNat 64 (tokenHeader x % 2 ^ 64) = BitVec.ofNat 64 (tokenHeader x) := ofNat_w64 _
    refine ⟨u, _, congrArg Host.Outcome.next (State.rcXtr_stores fifo hh free hs), before, word ▸ ends, fun hi => ?_⟩
    have bytes := hi.writeN (put.mem.trans mem)
    rwa [len] at bytes
  case inj =>
    rw [← hm] at dest ⊢
    rw [← s.q_eq] at hh
    have len : h.n = 64 := halves_n hh
    obtain ⟨v, g, hl, noted, mem⟩ := State.load_ok hh (s := s.rcWaits false) (k := s.fcore) (hd := 8) (by rw [len]; exact race.modRc _ _)
    rw [len] at hl
    have cell : v.cell p.core p.loc = s.cell p.core p.loc := (noted.cell ..).trans (State.cell_modRc ..)
    have port : v.port p.core p.loc p.ctx p.port = s.port p.core p.loc p.ctx p.port := by
      unfold State.port State.ctx
      rw [if_pos (State.injDest_cell dest), if_pos (State.injDest_cell dest), cell]
    have no : v.freeNo = s.freeNo := by rw [noted.rest]; rfl
    refine ⟨v, v.free.2.free.1, noted, mem, congrArg Host.Outcome.next ?_⟩
    rw [State.rcInj_empty dest hh free hl (port ▸ room), port, ← no]
    rfl

end Sys2Proof.Machine
end

section
/-! Services, copies that stop, and the levels that instructions need (R250, R262, R305, R306, R319, R326). -/

namespace Sys2Proof.Machine

/-! ## HALT, SYS, RETS (R250, R319) -/

theorem State.rcHalt_waits {s : State} (h : (s.rc s.fcore).inPhase = true) : s.rcHalt = s := if_pos h

theorem State.rcHalt_ends {s : State} (h : (s.rc s.fcore).inPhase = false) :
    s.rcHalt = s.modRc s.fcore (fun r => { r with mode := if r.level = 0 then .halting else .stopped }) :=
  if_neg (by rw [h]; exact Bool.false_ne_true)

/-- The 16 bytes of a record's body, when they are given whole. -/
theorem take16_whole {b : List Byte} (h : b.length = 16) : (b ++ List.replicate 16 0).take 16 = b := by
  rw [← h, List.take_left]

/-- RETS to a controller of its partition that waits in SYS, in a region that runs. -/
theorem State.rcRets_resumes {s : State} {a b k q : Nat} {g : Region} (hk : s.q s.fcore a % 2 ^ 16 = 64 * k + 48)
    (present : bit s.fuses.isles (isleOf k) = true) (same : s.partAt k = s.partAt s.fcore) (hg : s.regionAt k = some g) (runs : g.st = .running) (waits : (s.rc k).mode = .sys q none) :
    s.rcRets a b = (s.modRc k (fun r => r.resume q (BitVec.ofNat 64 (s.q s.fcore b)))).rcNext s.fcore 4 := by
  have core : (64 * k + 48) / 64 = k := by omega
  have unit : (64 * k + 48) % 64 = 48 := by omega
  unfold State.rcRets
  dsimp only
  rw [hk, core, unit, present, same, hg, waits]
  simp [runs]

/-- Settles O36: HALT and SYS change their controller alone, RETS the one that waits and its own. -/
theorem rcServices : Obligations.RcServices := by
  unfold Obligations.RcServices
  intro s d a b n r
  refine ⟨fun busy => ?waits, fun idle => ?halts, ?sys, fun k q g level target other present same region runs waits => ?rets⟩
  case waits => exact congrArg Host.Outcome.next (State.rcHalt_waits busy)
  case halts => exact ⟨_, congrArg Host.Outcome.next (State.rcHalt_ends idle), RcTo.modRc s _⟩
  case sys =>
    have whole := take16_whole (b := leBytes 2 (agentId s.fcore 48) ++ leBytes 2 (s.nodeHandle r.node) ++ leBytes 4 n ++ leBytes 8 (s.q s.fcore a)) (by simp [leBytes_length])
    refine ⟨_, _, rfl, rfl, rfl, rfl, rfl, ?_, RcTo.modRc { s with posts := (s.rcSys d a n).posts, seqs := (s.rcSys d a n).seqs } (fun r => { r with mode := .sys d none })⟩
    rw [← s.q_eq]
    exact whole
  case rets =>
    rw [← s.q_eq] at target
    have run := State.rcRets_resumes (b := b) target present same region runs waits
    have value : BitVec.ofNat 64 (s.q s.fcore b) = s.qv b := by rw [s.q_eq, BitVec.ofNat_toNat, BitVec.setWidth_eq]
    have exec_eq : exec (.rcRets a b) s = .next (s.needLevel 1 (s.rcRets a b)) := rfl
    rw [value] at run
    refine ⟨_, exec_eq.trans (congrArg _ ((State.needLevel_ok level.ge).trans run)), ?_, ?_, fun j hk hf => ?_, rfl⟩
    · unfold State.rcNext
      rw [State.rc_modRc, if_neg other, State.rc_modRc, if_pos rfl]
    · unfold State.rcNext
      rw [State.rc_modRc, if_pos rfl, State.rc_modRc, if_neg other.symm]
      rfl
    · unfold State.rcNext State.modRc
      rw [State.core_modCore, if_neg hf, State.core_modCore, if_neg hk]

/-! ## CPST (R262) -/

/-- What stands where a copy has been stopped: a ring copy that has started tiles, with those alone. -/
def Copy.halted (c : Copy) : Option Copy := if c.kind = 1 ∧ c.slots ≠ [] then some { c with stopped := true, n := c.tile + c.slots.length } else none

/-- In a map whose keys rise, what is listed under a key is read there. -/
theorem aget_of_mem {α : Type} {i : Nat} {v : α} : ∀ {lo : Nat} {m : Assoc α}, rising lo m = true → (i, v) ∈ m → aget m i = some v
  | _, (j, w) :: r, h, hm => by
    simp only [rising, Bool.and_eq_true, decide_eq_true_eq] at h
    obtain ⟨-, later⟩ := h
    rcases List.mem_cons.mp hm with e | hm
    · obtain ⟨rfl, rfl⟩ := Prod.mk.inj e
      exact if_pos rfl
    · have found := aget_of_mem later hm
      have ne : i ≠ j := by
        rintro rfl
        rw [aget_below later i.lt_succ_self] at found
        cases found
      exact (if_neg ne).trans found

section Stop
variable {s : State} {k : Nat}

theorem Noted.modCopies (s : State) (k : Nat) (f : Core → Assoc Copy) (g : Core → Clr) : Noted s (s.modCore k (fun o => { o with copies := f o, copyClr := g o })) :=
  .modCore s k _ (fun _ => rfl) fun _ => rfl

/-- A copy that is stopped leaves its engine or stays with the tiles that it has started, and no other changes. -/
theorem State.stopCopy_spec {i : Nat} {c : Copy} (hr : rising 0 (s.core k).copies = true) (hc : aget (s.core k).copies i = some c) :
    (Noted s (s.stopCopy k i c) ∧ (s.stopCopy k i c).mem = s.mem) ∧ rising 0 ((s.stopCopy k i c).core k).copies = true ∧
      ∀ j, aget ((s.stopCopy k i c).core k).copies j = if j = i then c.halted else aget (s.core k).copies j := by
  unfold State.stopCopy Copy.halted
  by_cases ring : c.kind = 1 ∧ c.slots ≠ []
  · rw [if_pos ring, if_pos ring]
    refine ⟨⟨Noted.modCopies s k _ (·.copyClr), rfl⟩, ?_⟩
    unfold State.modCopy
    rw [State.core_modCore, if_pos rfl, hc]
    exact ⟨rising_aset hr i.zero_le, fun j => aget_aset ..⟩
  · rw [if_neg ring, if_neg ring]
    obtain ⟨noted, mem⟩ := s.release_noted k 9
    have copies : ((s.release k 9).1.core k).copies = (s.core k).copies := by
      obtain ⟨same, -⟩ := State.setOrd_copies s k 9 k { s.ord k 9 with oc := (s.ord k 9).oc + 1 }
      exact same
    unfold State.endCopy
    dsimp only
    refine ⟨⟨noted.trans (Noted.modCopies _ k _ _), mem⟩, ?_⟩
    rw [State.core_modCore, if_pos rfl, copies]
    exact ⟨rising_adel hr, fun j => aget_adel hr⟩

/-- Copies of an engine that are stopped one after another. -/
theorem State.stopCopies_spec {cs : Assoc Copy} {lo : Nat} (hcs : rising lo cs = true) (hr : rising 0 (s.core k).copies = true)
    (hin : ∀ i c, aget cs i = some c → aget (s.core k).copies i = some c) :
    let t := cs.foldl (fun s c => s.stopCopy k c.1 c.2) s
    (Noted s t ∧ t.mem = s.mem) ∧ ∀ j, aget (t.core k).copies j = match aget cs j with | some c => c.halted | none => aget (s.core k).copies j := by
  induction cs generalizing s lo with
  | nil => exact ⟨⟨.refl s, rfl⟩, fun _ => rfl⟩
  | cons c cs ih =>
    obtain ⟨i, c⟩ := c
    simp only [rising, Bool.and_eq_true, decide_eq_true_eq] at hcs
    obtain ⟨-, later⟩ := hcs
    have first : aget cs i = none := aget_below later i.lt_succ_self
    obtain ⟨⟨noted, mem⟩, rises, now⟩ := State.stopCopy_spec (k := k) hr (hin i c (if_pos rfl))
    have rest (j : Nat) (d : Copy) (hj : aget cs j = some d) : aget ((s.stopCopy k i c).core k).copies j = some d := by
      have ne : j ≠ i := by
        rintro rfl
        rw [first] at hj
        cases hj
      rw [now, if_neg ne]
      exact hin j d ((if_neg ne).trans hj)
    obtain ⟨⟨noted', mem'⟩, after⟩ := ih later rises rest
    refine ⟨⟨noted.trans noted', mem'.trans mem⟩, fun j => (after j).trans ?_⟩
    rw [now]
    by_cases e : j = i
    · subst e
      simp [aget, first]
    · simp [aget, e]

end Stop

/-- What changes no core's cells and memory not at all, and then the executing controller alone. -/
theorem CoresGo.of_noted {s u t : State} {f : Rc → Rc} (hn : Noted s u) (hm : u.mem = s.mem) (h : RcTo u t f) : CoresGo s t f where
  toGoes := .of_noted hn h
  rest := by rw [h.only.rest, hn.rest, hm]

/-- The copies of the executing controller's node that a CPST ends. -/
def State.stoppable (s : State) (t : Nat) : Assoc Copy := (s.copiesOf s.fcore (s.rc s.fcore).node).filter (fun c => !c.2.stopped && (t == 31 || c.2.tb == t))

theorem State.stoppable_eq (s : State) (t : Nat) : s.stoppable t =
    (s.core s.fcore).copies.filter (fun c => decide (c.2.node = (s.rc s.fcore).node) && (!c.2.stopped && (t == 31 || c.2.tb == t))) := by
  unfold State.stoppable State.copiesOf
  rw [List.filter_filter]
  exact List.filter_congr fun _ _ => Bool.and_comm ..

theorem State.rcCpst_stops {s : State} {d t : Nat} (ht : t = 31 ∨ t < s.barrierCount s.fcore) :
    s.rcCpst d t = ((s.stoppable t).foldl (fun u c => u.stopCopy s.fcore c.1 c.2) s).rcPut d (s.stoppable t).length :=
  if_neg (by omega)

/-- Settles O38: each copy that stops is read under its own number, and what is not listed stays. -/
theorem rcCopyStop : Obligations.RcCopyStop := by
  unfold Obligations.RcCopyStop
  intro s d t ht hr k mine
  have listed : s.stoppable t = mine := s.stoppable_eq t
  have rises : rising 0 mine = true := rising_filter hr
  have held (i : Nat) (c : Copy) (h : aget mine i = some c) : aget (s.core k).copies i = some c := aget_of_mem hr (List.mem_of_mem_filter (mem_of_aget h))
  obtain ⟨⟨noted, mem⟩, after⟩ := State.stopCopies_spec (k := k) rises hr held
  have put := RcTo.put (mine.foldl (fun s c => s.stopCopy k c.1 c.2) s) d mine.length
  have kept := congrArg Core.copies put.only.core
  rw [noted.fcore] at kept
  have same (i : Nat) : aget (((mine.foldl (fun s c => s.stopCopy k c.1 c.2) s).rcPut d mine.length).core k).copies i =
      match aget mine i with | some c => c.halted | none => aget (s.core k).copies i := kept ▸ after i
  refine ⟨_, congrArg Host.Outcome.next (listed ▸ State.rcCpst_stops ht), .of_noted noted mem put, fun i c hc other => ?_, fun i c hc ring started => ?_, fun i none => ?_⟩
  · rw [same, aget_of_mem rises hc]
    exact if_neg fun h => other.elim (· h.1) h.2
  · rw [same, aget_of_mem rises hc]
    exact if_pos ⟨ring, started⟩
  · have absent : aget mine i = Option.none := by
      cases h : aget mine i with
      | none => rfl
      | some c => exact absurd (mem_of_aget h) (none c)
    rw [same, absent]

/-! ## Levels (R305, R306) -/

/-- An instruction below the level that it needs is a privilege fault. -/
theorem State.stops_low {s : State} {i : Instr} (l : Nat) (t : State) (h : exec i s = .next (s.needLevel l t)) (hl : (s.rc s.fcore).level < l) : s.Stops i 0x144 0 :=
  State.stops_of_eq h (State.needLevel_low hl)

/-- A privileged register is out of a kernel's reach, whatever its number (R306, R307). -/
theorem srCause_kernel {n : Nat} (write : Bool) (h : 0x100 ≤ n ∧ n < 0x200) : srCause 0 n write = some 0x144 := if_pos ⟨h.1, h.2, rfl⟩

theorem State.stops_manager {s : State} (d a b : Nat) (hl : (s.rc s.fcore).level < 2) :
    ∀ i ∈ [Instr.rcSealk d a b, .rcSealkRet a, .rcSealkCur a, .rcAttest d a b, .rcAttestAcc a b, .rcAttestClose a, .rcPartCreate d a b, .rcPartDestroy d a b, .rcPartRead d a b],
      s.Stops i 0x144 0 := by
  simp only [List.forall_mem_cons]
  exact ⟨State.stops_low 2 (s.rcSealk d a b) rfl hl, State.stops_low 2 (s.rcSealkRet a) rfl hl, State.stops_low 2 (s.rcSealkCur a) rfl hl, State.stops_low 2 (s.rcAttest d a b) rfl hl,
    State.stops_low 2 (s.rcAttestAcc a b) rfl hl, State.stops_low 2 (s.rcAttestClose a) rfl hl, State.stops_low 2 (s.rcPartCreate d a b) rfl hl,
    State.stops_low 2 (s.rcPartDestroy d a) rfl hl, State.stops_low 2 (s.rcPartRead d a b) rfl hl, List.forall_mem_nil _⟩

theorem State.stops_supervisor {s : State} (d a b n : Nat) (hl : (s.rc s.fcore).level < 1) :
    ∀ i ∈ [Instr.rcMtp a b n, .rcMfp d a n, .rcTlbi a, .rcTlbiRange a b, .rcTlbiAll, .rcCtxs d a b, .rcCtxr d a b, .rcKill a, .rcKillPart, .rcPrmt a, .rcPrmtPart,
      .rcScrub d a b, .rcMigr d a b, .rcCkpt d a, .rcRstr d a, .rcRets a b, .rcEvtq a b, .rcEvtqWait d, .rcRds d (0x100 + n % 0x100), .rcWrs a (0x100 + n % 0x100)], s.Stops i 0x144 0 := by
  have number : 0x100 ≤ 0x100 + n % 0x100 ∧ 0x100 + n % 0x100 < 0x200 := by omega
  have kernel : s.level = 0 := Nat.lt_one_iff.mp hl
  have read : srCause s.level (0x100 + n % 0x100) false = some 0x144 := kernel ▸ srCause_kernel false number
  have write : srCause s.level (0x100 + n % 0x100) true = some 0x144 := kernel ▸ srCause_kernel true number
  simp only [List.forall_mem_cons]
  exact ⟨State.stops_low 1 (s.rcMtp a b n) rfl hl, State.stops_low 1 (s.rcMfp d a n) rfl hl, State.stops_low 1 (s.rcTlbi (s.q s.fcore a / 4096 * 4096) 4096) rfl hl,
    State.stops_low 1 (s.rcTlbiRange a b) rfl hl, State.stops_low 1 (s.rcTlbi 0 (2 ^ 64)) rfl hl, State.stops_low 1 (s.rcCtxs d a b) rfl hl, State.stops_low 1 (s.rcCtxr d a b) rfl hl,
    State.stops_low 1 (s.rcKill a) rfl hl, State.stops_low 1 s.rcKillPart rfl hl, State.stops_low 1 (s.rcPrmt a) rfl hl, State.stops_low 1 s.rcPrmtPart rfl hl,
    State.stops_low 1 (s.rcScrub d a b) rfl hl, State.stops_low 1 (s.rcMigr d a b) rfl hl, State.stops_low 1 (s.rcCkpt d a) rfl hl, State.stops_low 1 (s.rcRstr d a) rfl hl,
    State.stops_low 1 (s.rcRets a b) rfl hl, State.stops_low 1 (s.rcEvtq a b) rfl hl, State.stops_low 1 (s.rcEvtqWait d) rfl hl,
    State.stops_of_eq (execRcRds_cause read) rfl, State.stops_of_eq (execRcWrs_cause write) rfl, List.forall_mem_nil _⟩

/-- Settles O33: each instruction of row 0x60 asks for its level first, and so does a privileged register. -/
theorem rcPrivilege : Obligations.RcPrivilege := by
  unfold Obligations.RcPrivilege
  intro s d a b n manager supervisor
  refine ⟨fun kernel i hi => ?_, fun supervises => State.stops_manager d a b (by rw [supervises]; decide)⟩
  rcases List.mem_append.mp hi with hi | hi
  · exact State.stops_manager d a b (by rw [kernel]; decide) i hi
  · exact State.stops_supervisor d a b n (by rw [kernel]; decide) i hi

end Sys2Proof.Machine
end

section
/-! What reset leaves (R308, R309, R316, R318, R352, R381). -/

namespace Sys2Proof.Machine

/-- No core is listed after reset but the manager's, whose controller alone is above kernel level. -/
theorem reset_core (k : Nat) : State.reset.core k = { ({} : Core) with rc := { ({} : Rc) with level := if k = managerCore then 2 else 0 } } := by
  unfold State.core managerCore
  simp only [State.reset, aget]
  split <;> rfl

theorem reset_cell (k l : Nat) : State.reset.cell k l = {} := by
  unfold State.cell
  rw [reset_core]
  rfl

theorem reset_ctx (k l x : Nat) : State.reset.ctx k l x = {} := by
  unfold State.ctx Cell.ctx
  rw [reset_cell]
  exact List.getElem?_getD_replicate_default_eq ..

theorem reset_rc (k : Nat) : State.reset.rc k = { ({} : Rc) with level := if k = managerCore then 2 else 0 } := by
  unfold State.rc
  rw [reset_core]

/-- No partition is listed but the manager's own record, which is not live. -/
theorem reset_part (p : Nat) : (State.reset.part p).live = false ∧ (State.reset.part p).pctl = 100 * 65536 := by
  unfold State.part
  simp only [State.reset, aget]
  split <;> exact ⟨rfl, rfl⟩

/-- Settles O60: what reset lists is the manager's core and record; all else reads as its default. -/
theorem resetLeaves : Obligations.ResetLeaves := by
  unfold Obligations.ResetLeaves
  intro z
  refine ⟨fun a => rfl, rfl, rfl, rfl, fun p hp => if_neg hp.ne, rfl, rfl, rfl, rfl, rfl, rfl, rfl, rfl, fun n => rfl, rfl, fun k l x => ?cells, fun k => ?cores, reset_part⟩
  case cells =>
    rw [show z.cell k l = {} from reset_cell k l, show z.ctx k l x = {} from reset_ctx k l x]
    refine ⟨rfl, rfl, rfl, rfl, rfl, fun r hr => ?_, fun q hq => ?_⟩
    · simp only [List.mem_append, List.mem_replicate] at hr
      obtain (⟨-, rfl⟩ | ⟨-, rfl⟩) | ⟨-, rfl⟩ := hr <;> rfl
    · obtain rfl := List.eq_of_mem_replicate hq
      exact ⟨rfl, rfl, rfl, rfl⟩
  case cores =>
    rw [show z.core k = _ from reset_core k, show z.rc k = _ from reset_rc k]
    exact ⟨rfl, rfl, rfl, rfl, rfl, rfl, fun n => List.getElem?_getD_replicate_default_eq .., fun f hf => List.eq_of_mem_replicate hf⟩

end Sys2Proof.Machine
end

section
/-! The manager's instructions (R315, R316, R357 to R363): key slots, sessions and their reports, partitions. -/

namespace Sys2Proof.Machine

/-! ## What the firmware writes at physical addresses (R331, R352) -/

theorem Memory.writeN_append (m : Memory) (a : Nat) (b c : List Byte) : Memory.writeN m a (b ++ c) = Memory.writeN (Memory.writeN m a b) (a + b.length) c := by
  induction b generalizing m a with
  | nil => rfl
  | cons x b ih =>
    rw [List.cons_append, Memory.writeN, ih, Memory.writeN, List.length_cons, Nat.add_right_comm, Nat.add_assoc]

section Phys
variable {s : State} {a tile lo : Nat} {b : List Byte}

/-- Nothing but memory and seal metadata differs. -/
def State.StoreOnly (s t : State) : Prop := t = { s with mem := t.mem, tiles := t.tiles }

theorem State.StoreOnly.trans {t u : State} (h : s.StoreOnly t) (g : t.StoreOnly u) : s.StoreOnly u := by
  unfold State.StoreOnly at h g ⊢
  rw [g, h]

theorem State.StoreOnly.setMeta (s : State) (a : Nat) (m : TileMeta) : s.StoreOnly (s.setMeta a m) := rfl

theorem State.physPut_only (s : State) (tile lo : Nat) (b : List Byte) : s.StoreOnly (s.physPut tile lo b) := by
  unfold State.physPut
  dsimp only
  split
  · rfl
  · split_ifs
    · exact foldl_inv (P := s.StoreOnly) (fun t e ht => ht.trans (.setMeta ..)) _ _ rfl
    all_goals rfl

theorem State.physWrite_only (s : State) (a : Nat) (b : List Byte) : s.StoreOnly (s.physWrite a b) := by
  unfold State.physWrite
  exact foldl_inv (P := fun acc : State × List Byte => s.StoreOnly acc.1) (fun acc g h => h.trans (acc.1.physPut_only g.1 g.2.1 (acc.2.take g.2.2))) _ _ rfl

/-- Where the bytes stand as they are written, a write into one tile is a write of memory. -/
theorem State.physPut_plain {base size region : Nat} (ht : s.tierOf (tile * 2048 + lo) = some (base, size, region)) (below : tile * 2048 + lo < base + size - region)
    (plain : (s.tileMeta (tile * 2048 + lo)).made = none ∨ (s.tileMeta (tile * 2048 + lo)).altered = true) :
    s.physPut tile lo b = { s with mem := Memory.writeN s.mem (tile * 2048 + lo) b } := by
  have unsealed : ((s.tileMeta (tile * 2048 + lo)).made.isSome && !(s.tileMeta (tile * 2048 + lo)).altered) = false := by
    rcases plain with h | h
    · rw [h]; rfl
    · rw [h, Bool.not_true, Bool.and_false]
  unfold State.physPut
  dsimp only
  rw [ht]
  dsimp only
  rw [if_neg (Nat.not_le.mpr below), unsealed, if_neg Bool.false_ne_true]

/-- One step of a write over the tiles of a range. -/
def putSeg (acc : State × List Byte) (g : Nat × Nat × Nat) : State × List Byte := (acc.1.physPut g.1 g.2.1 (acc.2.take g.2.2), acc.2.drop g.2.2)

/-- The tiles of a range before its j-th hold that many of its n bytes. -/
def bytesBefore (a n j : Nat) : Nat := min n (2048 * j - a % 2048)

/-- The j-th tile of a range: its number, where the range begins in it, how many bytes it holds. -/
def tileSeg (a n j : Nat) : Nat × Nat × Nat :=
  let lo := if j = 0 then a % 2048 else 0
  (a / 2048 + j, lo, min 2048 (a % 2048 + n - 2048 * j) - lo)

theorem tileSeg_place {a n j : Nat} (h : 2048 * j < a % 2048 + n) : (tileSeg a n j).1 * 2048 + (tileSeg a n j).2.1 = a + bytesBefore a n j := by
  unfold tileSeg bytesBefore
  dsimp only
  split <;> omega

theorem tileSeg_length {a n j : Nat} (h : 2048 * j < a % 2048 + n) : bytesBefore a n j + (tileSeg a n j).2.2 = bytesBefore a n (j + 1) := by
  unfold tileSeg bytesBefore
  dsimp only
  split <;> omega

theorem State.physWrite_prefix (h : s.Open a b.length) {j : Nat} (hj : 2048 * j < a % 2048 + b.length + 2048) (hb : 0 < b.length) :
    ((List.range j).map (tileSeg a b.length)).foldl putSeg (s, b) =
      ({ s with mem := Memory.writeN s.mem a (b.take (bytesBefore a b.length j)) }, b.drop (bytesBefore a b.length j)) := by
  induction j with
  | zero => simp [bytesBefore, Memory.writeN]
  | succ j ih =>
    have inside : 2048 * j < a % 2048 + b.length := by omega
    have reached : bytesBefore a b.length j < b.length := by unfold bytesBefore; omega
    have place := tileSeg_place inside
    have more := tileSeg_length inside
    obtain ⟨base, size, region, tier, below, plain⟩ := h _ reached
    rw [← place] at tier below plain
    have put (m : Memory) (c : List Byte) := State.physPut_plain (s := { s with mem := m }) (b := c) tier below plain
    rw [List.range_succ, List.map_append, List.foldl_append, ih (by omega)]
    simp only [List.map_cons, List.map_nil, List.foldl_cons, List.foldl_nil, putSeg, put, List.drop_drop, more, place]
    rw [← more, List.take_add, Memory.writeN_append, List.length_take_of_le reached.le]

/-- Bytes that stand as they are written are written as memory's (R331). -/
theorem State.physWrite_plain (h : s.Open a b.length) (hb : 0 < b.length) : s.physWrite a b = { s with mem := Memory.writeN s.mem a b } := by
  have whole := State.physWrite_prefix h (j := (a % 2048 + b.length + 2047) / 2048) (by omega) hb
  have all : bytesBefore a b.length ((a % 2048 + b.length + 2047) / 2048) = b.length := by unfold bytesBefore; omega
  rw [all, List.take_length] at whole
  exact congrArg Prod.fst whole

end Phys

/-- Bytes that stand as they are written: the write is read back, and no other byte changes. -/
theorem State.physWrite_bytes {s : State} {a : Nat} {b : List Byte} (hi : s.Inv) (h : s.Open a b.length) (hb : 0 < b.length) :
    Memory.readN (s.physWrite a b).mem a b.length = b ∧ MemBut s (s.physWrite a b) a b.length :=
  hi.writeN (by rw [State.physWrite_plain h hb])

/-- An instruction at a level that may execute it. -/
theorem State.exec_level {s : State} {i : Instr} (l : Nat) (t : State) (h : exec i s = .next (s.needLevel l t)) (hl : l ≤ (s.rc s.fcore).level) : exec i s = .next t :=
  h.trans (congrArg _ (State.needLevel_ok hl))

/-! ## SEALK (R359, R360) -/

section Sealk
variable {s t : State} {d a b i : Nat}

/-- A load takes a slot that is not live, and its seal has the count of loads. -/
theorem State.loadKey_ok {bytes : List Byte} (h : s.loadKey i bytes = .ok t) :
    (s.slot i).live = false ∧ ∃ q : KeySlot, q.live = true ∧ q.load = s.loads + 1 ∧ t = { s with keys := aset s.keys i q, loads := s.loads + 1 } := by
  unfold State.loadKey at h
  dsimp only at h
  split at h
  · cases h
  · split at h
    · cases h
    · split_ifs at h with occupied full
      rw [Bool.or_eq_true, not_or, Bool.not_eq_true] at occupied
      exact ⟨occupied.1, _, rfl, rfl, (Except.ok.inj h).symm⟩

theorem State.slot_aset {q : KeySlot} (h : t.keys = aset s.keys i q) : t.slot i = q := by
  unfold State.slot
  rw [h, aget_aset_same]
  rfl

theorem State.rcSealk_loads (hi : s.q s.fcore a = i) (lt : i < 64) (h : s.loadKey i (s.physRead (s.q s.fcore b) 128) = .ok t) : s.rcSealk d a b = t.rcPut d 0 := by
  unfold State.rcSealk
  dsimp only
  rw [hi, if_neg (Nat.not_le.mpr lt), h]

theorem State.rcSealkRet_retires (hi : s.q s.fcore a = i) (lt : i < 64) (live : (s.slot i).live = true) (other : (s.slot i).current = false) :
    s.rcSealkRet a = ({ (s.uncacheLoad (s.slot i).load) with keys := adel s.keys i } : State).rcNext s.fcore 4 := by
  unfold State.rcSealkRet
  dsimp only
  rw [hi, if_neg (Nat.not_le.mpr lt), if_neg (by simp [live, other])]

/-- What a slot becomes as slot i of a tenant is made current (R360). -/
def KeySlot.chosen (i tenant j : Nat) (q : KeySlot) : KeySlot :=
  if j = i then { q with current := true } else if q.tenant = tenant ∧ q.current then { q with current := false, was := true } else q

theorem State.rcSealkCur_chooses (hi : s.q s.fcore a = i) (lt : i < 64) (live : (s.slot i).live = true) (new : (s.slot i).was = false) :
    s.rcSealkCur a = ({ s with keys := s.keys.map (fun e => (e.1, e.2.chosen i (s.slot i).tenant e.1)) } : State).rcNext s.fcore 4 := by
  have each : (fun e : Nat × KeySlot => if e.1 = i then (e.1, { e.2 with current := true })
      else if e.2.tenant = (s.slot i).tenant ∧ e.2.current then (e.1, { e.2 with current := false, was := true }) else e) =
      fun e => (e.1, e.2.chosen i (s.slot i).tenant e.1) := by
    funext e
    unfold KeySlot.chosen
    split_ifs <;> rfl
  unfold State.rcSealkCur
  dsimp only
  rw [hi, if_neg (Nat.not_le.mpr lt), if_neg (by simp [live, new]), each]

theorem State.slot_chosen (live : (s.slot i).live = true) (h : t.keys = s.keys.map (fun e => (e.1, e.2.chosen i (s.slot i).tenant e.1))) : (t.slot i).current = true := by
  unfold State.slot at live ⊢
  rw [h, aget_map s.keys (fun j q => q.chosen i (s.slot i).tenant j)]
  cases hq : aget s.keys i with
  | none =>
    rw [hq] at live
    cases live
  | some q => simp [KeySlot.chosen]

end Sealk

/-! ## ATTEST (R362, R363) -/

theorem State.rc_of_cores {s t : State} (h : t.cores = s.cores) : t.rc = s.rc := by
  unfold State.rc State.core
  rw [h]

section Attest
variable {s : State} {d a b i id : Nat}

theorem fit_length (n : Nat) (b : List Byte) : (fit n b).length = n := by
  unfold fit
  simp only [List.length_append, List.length_take, List.length_replicate]
  omega

theorem State.reportBody_length (s : State) (id pt seed : Nat) (nonce : List Byte) : (s.reportBody id pt seed nonce).length = 1424 := by
  have measure : (if pt = 16 then List.replicate 48 0 else fit 48 (s.part pt).measure).length = 48 := by
    split
    · exact List.length_replicate ..
    · exact fit_length ..
  unfold State.reportBody
  simp only [List.length_append, leBytes_length, fit_length, measure, List.length_replicate]

/-- The report that opens a session for a partition. -/
def State.report (s : State) (id pt b : Nat) : List Byte :=
  let f := s.free
  let body := f.2.reportBody id pt f.1 (s.physRead (b + 0x10) 32)
  body ++ fit 3373 (Config.sign body) ++ List.replicate 67 0

theorem State.report_length (s : State) (id pt b : Nat) : (s.report id pt b).length = 4864 := by
  unfold State.report
  simp only [List.length_append, State.reportBody_length, fit_length, List.length_replicate]

/-- The state in which a session for a partition has been opened and its report written. -/
def State.attested (s : State) (id pt b : Nat) : State :=
  let f := s.free
  let t := f.2.physWrite b (s.report id pt b)
  { t with sessions := aset t.sessions id { isOpen := true, seed := f.1, digest := sha384 (f.2.reportBody id pt f.1 (s.physRead (b + 0x10) 32)) } }

theorem State.attested_rest (s : State) (id pt b : Nat) : s.attested id pt b =
    { s with freeNo := s.freeNo + 1, mem := (s.attested id pt b).mem, tiles := (s.attested id pt b).tiles, sessions := (s.attested id pt b).sessions } := by
  have store := s.free.2.physWrite_only b (s.report id pt b)
  unfold State.StoreOnly at store
  unfold State.attested
  dsimp only
  rw [store]
  rfl

theorem State.rcAttest_opens (hid : (List.range 16).find? (fun i => !(s.session i).isOpen) = some id)
    (hp : s.q s.fcore a = 16 ∨ (s.q s.fcore a < 16 ∧ (s.part (s.q s.fcore a)).live = true)) :
    s.rcAttest d a b = (s.attested id (s.q s.fcore a) (s.q s.fcore b)).rcPut d id := by
  have may : ¬(17 ≤ s.q s.fcore a ∨ (s.q s.fcore a < 16 ∧ !(s.part (s.q s.fcore a)).live)) := by
    rintro (big | ⟨lt, dead⟩)
    · omega
    · rcases hp with h | ⟨-, live⟩
      · omega
      · rw [live] at dead
        cases dead
  unfold State.rcAttest
  dsimp only
  rw [hid]
  dsimp only
  rw [if_neg may]
  rfl

/-- The session that its tenant's answer completes (R363). -/
def State.accepted (s : State) (i b : Nat) : Session :=
  { s.session i with done := true, key := Config.sessionKey (s.session i).seed (s.session i).digest (s.physRead b 1120) }

theorem State.rcAttestAcc_completes (hi : s.q s.fcore a = i) (lt : i < 16) (isOpen : (s.session i).isOpen = true) (new : (s.session i).done = false) :
    s.rcAttestAcc a b = ({ s with sessions := aset s.sessions i (s.accepted i (s.q s.fcore b)) } : State).rcNext s.fcore 4 := by
  unfold State.rcAttestAcc
  dsimp only
  rw [hi, if_neg (by simp [isOpen, new, lt])]
  rfl

theorem State.rcAttestClose_closes (hi : s.q s.fcore a = i) (lt : i < 16) (isOpen : (s.session i).isOpen = true) :
    s.rcAttestClose a = ({ s with sessions := adel s.sessions i } : State).rcNext s.fcore 4 := by
  unfold State.rcAttestClose
  dsimp only
  rw [hi, if_neg (by simp [isOpen, lt])]

theorem State.session_aset {t : State} {m : Assoc Session} {q : Session} (h : t.sessions = aset m i q) : t.session i = q := by
  unfold State.session
  rw [h, aget_aset_same]
  rfl

end Attest

/-! ## PART (R315, R316) -/

section Part
variable {s t : State} {d a b n : Nat}

theorem State.rcPartCreate_creates (hn : s.q s.fcore a = n) (none : s.createCause n (s.physRead (s.q s.fcore b) 64) = .none)
    (h : s.createPart n (partOf (s.physRead (s.q s.fcore b) 64)) = .ok t) : s.rcPartCreate d a b = t.rcPut d 0 := by
  unfold State.rcPartCreate
  dsimp only
  rw [hn, none]
  dsimp only
  rw [h]

theorem State.dropNodes_parts (s : State) (n : Nat) : (s.dropNodes n).parts = s.parts := by
  refine foldl_inv (P := fun t : State => t.parts = s.parts) (fun t e h => ?_) s.nodes s rfl
  split
  · rw [t.leavePool_rest]
    exact h
  · exact h

theorem State.dropNodes_nodes (s : State) (pt n : Nat) (v : Node) (h : (n, v) ∈ (s.dropNodes pt).nodes) : v.part ≠ pt := by
  obtain ⟨-, other⟩ := List.mem_filter.mp h
  simpa using other

section Stage
variable (hn : s.q s.fcore a = n) (number : s.badPartNo n = false) (stage : 5 ≤ s.stage)
include hn number stage

theorem State.rcPartDestroy_destroys (idle : s.partBusy n = false) :
    s.rcPartDestroy d a = ({ ((s.clearIsles (s.part n).isles n).dropNodes n) with parts := adel ((s.clearIsles (s.part n).isles n).dropNodes n).parts n } : State).rcPut d 0 := by
  unfold State.rcPartDestroy
  dsimp only
  rw [hn, number, idle, if_neg Bool.false_ne_true, if_neg (by simp [stage])]

theorem State.rcPartRead_reads (live : (s.part n).live = true) : s.rcPartRead d a b = (s.physWrite (s.q s.fcore b) (s.part n).descriptor).rcPut d 1 := by
  unfold State.rcPartRead
  dsimp only
  rw [hn, number, live, if_neg Bool.false_ne_true, if_neg (Nat.not_lt.mpr stage), if_pos rfl]

theorem State.rcPartRead_dead (dead : (s.part n).live = false) : s.rcPartRead d a b = s.rcPut d 0 := by
  unfold State.rcPartRead
  dsimp only
  rw [hn, number, dead, if_neg Bool.false_ne_true, if_neg (Nat.not_lt.mpr stage), if_neg Bool.false_ne_true]

end Stage

theorem Part.descriptor_length (p : Part) : p.descriptor.length = 64 := by
  unfold Part.descriptor
  simp [leBytes_length]

end Part

/-- Settles O45: the manager may execute each; what it does is its unit's record, and the report and the descriptor are written as the firmware writes them. -/
theorem rcManager : Obligations.RcManager := by
  unfold Obligations.RcManager
  intro s d a b level k x y
  have hx : s.q s.fcore a = x := s.q_eq a
  have hy : s.q s.fcore b = y := s.q_eq b
  have run (i : Instr) (t u : State) (h : exec i s = .next (s.needLevel 2 t)) (ht : t = u) : exec i s = .next u :=
    ht ▸ State.exec_level 2 t h level.ge
  refine ⟨fun lt => ⟨fun t ht => ?load, fun live other => ?retire, fun live new => ?current⟩, fun id hid hp => ?attest,
    fun lt isOpen => ⟨fun new => ?accept, ?close⟩, fun t none ht => ?create, fun number stage => ⟨fun idle => ?destroy, fun live hi => ?read, fun dead => ?dead⟩⟩
  case load =>
    have loads : s.rcSealk d a b = t.rcPut d 0 := State.rcSealk_loads hx lt (by rw [hy]; exact ht)
    obtain ⟨free, q, live, load, rfl⟩ := State.loadKey_ok ht
    have put := RcTo.put { s with keys := aset s.keys x q, loads := s.loads + 1 } d 0
    have keys := congrArg State.keys put.only.rest
    have slot := State.slot_aset (s := s) keys
    refine ⟨_, run (.rcSealk d a b) _ _ rfl loads, ?_, free, by rw [slot, live], by rw [slot, load]⟩
    rw [keys]
    exact put
  case retire => exact ⟨_, run (.rcSealkRet a) _ _ rfl (State.rcSealkRet_retires hx lt live other), RcTo.next { (s.uncacheLoad (s.slot x).load) with keys := adel s.keys x } 4⟩
  case current =>
    exact ⟨_, run (.rcSealkCur a) _ _ rfl (State.rcSealkCur_chooses hx lt live new),
      RcTo.next { s with keys := s.keys.map (fun e => (e.1, e.2.chosen x (s.slot x).tenant e.1)) } 4, State.slot_chosen live rfl⟩
  case attest =>
    rw [← hx] at hp
    have length := s.report_length id (s.q s.fcore a) y
    have rest := s.attested_rest id (s.q s.fcore a) y
    have put := RcTo.put (s.attested id (s.q s.fcore a) y) d id
    have rc := put.rc
    rw [congrArg State.fcore rest, congrFun (State.rc_of_cores (congrArg State.cores rest)) s.fcore] at rc
    have opened := State.session_aset (congrArg State.sessions put.only.rest)
    refine ⟨_, run (.rcAttest d a b) _ _ rfl (hy ▸ State.rcAttest_opens hid hp), by rw [opened], by rw [opened], congrArg Rc.q rc, congrArg Rc.pc rc, fun hi free => ?_⟩
    have bytes := State.physWrite_bytes (s := s.free.2) (b := s.report id (s.q s.fcore a) y) hi (length ▸ free) (by rw [length]; decide)
    rw [length] at bytes
    intro i hb
    rw [put.mem]
    exact bytes.2 i hb
  case accept =>
    exact ⟨_, run (.rcAttestAcc a b) _ _ rfl (State.rcAttestAcc_completes hx lt isOpen new), RcTo.next { s with sessions := aset s.sessions x (s.accepted x (s.q s.fcore b)) } 4,
      by rw [State.session_aset rfl]; rfl⟩
  case close => exact ⟨_, run (.rcAttestClose a) _ _ rfl (State.rcAttestClose_closes hx lt isOpen), RcTo.next { s with sessions := adel s.sessions x } 4⟩
  case create =>
    rw [← hy] at none ht
    exact run (.rcPartCreate d a b) _ _ rfl (State.rcPartCreate_creates hx none ht)
  case destroy =>
    have put := RcTo.put { ((s.clearIsles (s.part x).isles x).dropNodes x) with parts := adel ((s.clearIsles (s.part x).isles x).dropNodes x).parts x } d 0
    have parts := congrArg State.parts put.only.rest
    have nodes := congrArg State.nodes put.only.rest
    refine ⟨_, run (.rcPartDestroy d a b) _ _ rfl (State.rcPartDestroy_destroys hx number stage idle), fun hr => ?_, fun n v h => ?_⟩
    · rw [parts]
      dsimp only
      rw [State.dropNodes_parts]
      exact (aget_adel hr).trans (if_pos rfl)
    · rw [nodes] at h
      exact State.dropNodes_nodes _ x n v h
  case read =>
    have length := Part.descriptor_length (s.part x)
    have put := RcTo.put (s.physWrite y (s.part x).descriptor) d 1
    have rest := s.physWrite_only y (s.part x).descriptor
    refine ⟨_, run (.rcPartRead d a b) _ _ rfl (hy ▸ State.rcPartRead_reads hx number stage live), fun free => ?_, ?_⟩
    · rw [put.mem]
      have bytes := State.physWrite_bytes hi (length ▸ free) (by rw [length]; decide)
      rw [length] at bytes
      exact ⟨bytes.1, fun i hb => (congrArg (Memory.read · i) put.mem).trans (bytes.2 i hb)⟩
    · rw [put.mem, congrArg State.tiles put.only.rest]
      exact rest ▸ put
  case dead => exact s.puts_rcPut (run (.rcPartRead d a b) _ _ rfl (State.rcPartRead_dead hx number stage dead)) rfl

end Sys2Proof.Machine
end

section
/-! Communicators and collectives of a region controller (R266, R268 to R273, R277, R281, R286). -/

namespace Sys2Proof.Machine

/-! ## What a message to other packages leaves (R270) -/

theorem State.sendColl_rest (s : State) (c : Comm) (r : Nat) (control : Bool) (l : List FlitBody) : s.sendColl c r control l = { s with straits := (s.sendColl c r control l).straits } := by
  unfold State.sendColl
  dsimp only
  split <;> rfl

theorem State.tellAll_rest (s : State) (c : Comm) (kind index : Nat) (clr : Clr) : s.tellAll c kind index clr = { s with straits := (s.tellAll c kind index clr).straits } := by
  unfold State.tellAll
  refine foldl_inv (P := fun t : State => t = { s with straits := t.straits }) (fun t r h => ?_) (s.foreigners c) s rfl
  unfold State.tell
  rw [State.sendColl_rest, h]

theorem State.tellAll_kept (s : State) (c : Comm) (kind index : Nat) (clr : Clr) :
    (s.tellAll c kind index clr).fcore = s.fcore ∧ (s.tellAll c kind index clr).cores = s.cores ∧ (s.tellAll c kind index clr).dies = s.dies := by
  rw [State.tellAll_rest]
  exact ⟨rfl, rfl, rfl⟩

/-! ## The communicator that a handle names -/

section Handle
variable {s : State} {k ch : Nat} {c : Comm}

theorem State.commAt_aget (h : s.commAt k ch = some c) : aget (s.die (dieOf k % 4)).comms ch = some c := by
  obtain ⟨v, hv, hc⟩ := Option.bind_eq_some_iff.mp h
  split_ifs at hc
  rwa [← Option.some.inj hc]

theorem Noted.dies {t : State} (h : Noted s t) : t.dies = s.dies := by rw [h.rest]

theorem State.die_of_dies {t : State} (h : t.dies = s.dies) (d : Nat) : t.die d = s.die d := by
  unfold State.die
  rw [h]

theorem State.rcCsel_sets {a b : Nat} (h : s.commAt s.fcore (s.q s.fcore a) = some c) (lt : s.q s.fcore b < 128) (sel : bits (s.q s.fcore b) 4 2 ≤ 5) :
    s.rcCsel a b = (s.modComm (dieOf s.fcore % 4) (s.q s.fcore a) (fun c => { c with setSel := if bit (s.q s.fcore b) 6 then none else some (s.q s.fcore b % 64) })).rcNext s.fcore 4 := by
  unfold State.rcCsel
  dsimp only
  rw [h]
  dsimp only
  rw [if_neg (by omega)]

theorem State.rcCollStatus_takes {d a : Nat} {q : Coll} {wait : Bool} (h : s.collAt s.fcore (s.q s.fcore a) = some (c, q)) (go : wait = true → q.status % 4 ≠ 0) :
    s.rcCollStatus d a wait = s.rcTake (if bit q.status 0 then q.clr else []) (·.rcPut d q.status) := by
  have goes : ¬(wait && q.status % 4 == 0) = true := by
    rw [Bool.and_eq_true, beq_iff_eq]
    exact fun w => go w.1 w.2
  unfold State.rcCollStatus
  dsimp only
  rw [h]
  exact if_neg goes

theorem State.rcCollStatus_waits {d a : Nat} {q : Coll} (h : s.collAt s.fcore (s.q s.fcore a) = some (c, q)) (hq : q.status % 4 = 0) : s.rcCollStatus d a true = s := by
  unfold State.rcCollStatus
  dsimp only
  rw [h]
  exact if_pos (by rw [hq]; rfl)

end Handle

/-! ## COLL (R271, R277, R281) -/

theorem State.rcOrdered_goes {s : State} {addr n : Nat} (h : s.rcBehind addr n = false) (f : State → State) : s.rcOrdered addr n f = f (s.rcWaits false) :=
  if_neg (by rw [h]; exact Bool.false_ne_true)

theorem State.agent_rcWaits (s : State) (w : Bool) (j h : Nat) : (s.rcWaits w).agent j h = s.agent j h := State.agent_modRc ..

/-- A collective as it is queued (R281). -/
def State.newColl (s : State) (c : Comm) (ch op oper : Nat) (b : List Byte) : Coll :=
  { handle := 4096 * ch + c.issued % 4096, op := op, oper := oper, src := fld b 0 4, dst := fld b 4 4, size := fld b 8 4, fmt := fmtOf (fld b 12 1),
    root := fld b 13 1, prio := fld b 14 1, sel := s.selection (s.partAt s.fcore) c (fld b 8 4), index := c.issued }

section Coll
variable {s t u : State} {d a b op oper ch : Nat} {c : Comm} {bs : List Byte} {g : List Bool}

theorem State.rcColl_queues (hch : s.q s.fcore a = ch) (hc : s.commAt s.fcore ch = some c) (hp : op < 9) (ho : oper < 9) (free : s.rcBehind (s.q s.fcore b % 2 ^ 32) 32 = false)
    (hl : (s.rcWaits false).load (s.agent s.fcore 8) s.fcore (s.q s.fcore b % 2 ^ 32) 32 32 false = (t, .ok (bs, g))) (none : collCause c op oper bs = .none)
    (hu : (t.release s.fcore 8).1.acquire s.fcore 12 (t.release s.fcore 8).2 = (u, .ok ())) (hf : u.fcore = s.fcore) :
    s.rcColl d a b op oper =
      (u.modComm (dieOf s.fcore % 4) ch (fun c' => { c' with issued := c'.issued + 1, colls := c'.colls ++ [u.newColl c ch op oper bs] })).rcPut d (4096 * ch + c.issued % 4096) := by
  unfold State.newColl
  rw [hf]
  unfold State.rcColl
  dsimp only
  rw [hch, hc]
  dsimp only
  rw [if_neg (by omega), State.rcOrdered_goes free]
  simp only [State.q_rcWaits, State.agent_rcWaits, hl, none, hu]

end Coll

/-! ## COMM (R268, R269, R272, R273) -/

/-- The communicator of a record and its rank table. -/
def State.newComm (u : State) (k pt : Nat) (rcd : List Byte) (table : List Nat) (vcs : List (Nat × Nat)) : Comm :=
  { core := k, node := (u.rc k).node, key := fld rcd 0 4, n := fld rcd 4 1, rank := fld rcd 5 1, gen := fld rcd 6 1, trace := bit (fld rcd 7 1) 0,
    table := table, area := fld rcd 12 4, size := fld rcd 16 4, via := table.map (u.portTo k pt), vcs := vcs }

/-- A communicator in its slot, with its router entries over the ports that its members may be reached by. -/
def State.placeComm (u : State) (k pt slot : Nat) (c : Comm) : State :=
  (u.modDie (dieOf k % 4) (fun x => { x with comms := aset x.comms slot c, router := routerEntries slot c.key (18 :: dedup (c.table.flatMap (u.portsTo k pt))) x.router })).modCore k
    (fun x => { x with rank := x.rank + 1 })

section Place
variable (u : State) (k pt slot : Nat) (c : Comm)

theorem State.placeComm_rc (j : Nat) : (u.placeComm k pt slot c).rc j = u.rc j := by
  unfold State.placeComm State.rc
  rw [State.core_modCore]
  split
  · next h => rw [h]; rfl
  · rfl

theorem State.placeComm_slot : aget ((u.placeComm k pt slot c).die (dieOf k % 4)).comms slot = some c := by
  unfold State.placeComm State.modCore State.setCore State.modDie State.die
  dsimp only
  rw [aget_aset_same]
  exact aget_aset_same ..

end Place

section Comm
variable {s t u : State} {d a k pt slot : Nat} {rcd tb : List Byte} {g g' : List Bool} {table : List Nat} {vcs : List (Nat × Nat)}

theorem State.rcComm_forms (hk : s.fcore = k) (hpt : s.partAt k = pt) (ht : (List.range (fld rcd 4 1)).map (fun i => fld tb (8 * i) 8) = table)
    (free : s.rcBehind (s.q k a % 2 ^ 32) 64 = false) (hl : (s.rcWaits false).load (s.agent k 8) k (s.q k a % 2 ^ 32) 64 64 false = (t, .ok (rcd, g))) (form : commForm rcd = true)
    (free' : t.rcBehind (fld rcd 8 4) (8 * fld rcd 4 1) = false) (hl' : (t.rcWaits false).load (t.agent k 8) k (fld rcd 8 4) (8 * fld rcd 4 1) 8 false = (u, .ok (tb, g')))
    (entries : table.all entryForm = true) (reach : table.all (u.entryReach pt) = true) (own : u.entryOwn pt (table.getD (fld rcd 5 1) 0) = true)
    (here : entryCore (table.getD (fld rcd 5 1) 0) = k) (unranked : u.loadsRank k = false) (hs : (u.die (dieOf k % 4)).freeSlot = some slot)
    (hv : u.takePairs (dieOf k % 4) ((dedup (table.flatMap (u.portsTo k pt))).filter (· != 18)) = some vcs) :
    s.rcComm d a = ((u.placeComm k pt slot (u.newComm k pt rcd table vcs)).tellAll (u.newComm k pt rcd table vcs) 0 0 []).rcPut d slot := by
  unfold State.rcComm
  dsimp only
  rw [hk, hpt, State.rcOrdered_goes free]
  simp only [State.q_rcWaits, State.agent_rcWaits, hl, form, Bool.not_true, Bool.false_eq_true, if_false]
  rw [State.rcOrdered_goes free']
  simp only [State.agent_rcWaits, hl', ht, entries, own, here, reach, unranked, hs, hv, Bool.not_true, Bool.false_eq_true, if_false, beq_self_eq_true, Bool.and_true, Bool.or_false]
  rfl

end Comm

/-- Settles O42: a record that may forms its communicator in the free slot; the others are one change of the communicator that their handle names. -/
theorem rcCollectives : Obligations.RcCollectives := by
  unfold Obligations.RcCollectives
  intro s d a b p o k pt die ch v
  have hch : s.q s.fcore a = ch := s.q_eq a
  have hv : s.q s.fcore b = v := s.q_eq b
  refine ⟨?comm, ?coll, fun c q hq => ⟨fun take => ⟨?cstat, fun done => ?cwait⟩, fun runs => ?waits⟩, fun c hc lt sel => ?csel⟩
  case comm =>
    intro t rcd g u tb g' slot vcs n table free hl form free' hl' entries reach own here unranked hs hp
    rw [← hch] at free hl
    have forms := State.rcComm_forms (d := d) rfl rfl rfl free hl form free' hl' entries reach own here unranked hs hp
    obtain ⟨told, cores, dies⟩ := State.tellAll_kept (u.placeComm k pt slot (u.newComm k pt rcd table vcs)) (u.newComm k pt rcd table vcs) 0 0 []
    have same : u.fcore = k := (State.load_noted hl').1.fcore.trans (State.load_noted hl).1.fcore
    have put := RcTo.put ((u.placeComm k pt slot (u.newComm k pt rcd table vcs)).tellAll (u.newComm k pt rcd table vcs) 0 0 []) d slot
    have rc := put.rc
    rw [told.trans same, State.rc_of_cores cores, State.placeComm_rc] at rc
    refine ⟨_, u.newComm k pt rcd table vcs, congrArg Host.Outcome.next forms, congrArg Rc.q rc, ?_, rfl, rfl, rfl, rfl, rfl, rfl, rfl, rfl, rfl⟩
    rw [State.die_of_dies ((congrArg State.dies put.only.rest).trans dies)]
    exact State.placeComm_slot ..
  case coll =>
    intro c t bs g hc hp ho free hl none take
    rw [← hch] at hc
    rw [← hv] at free hl
    rcases hq : (t.release k 8).1.acquire k 12 (t.release k 8).2 with ⟨u, r⟩
    obtain rfl : r = .ok () := by simpa [hq] using take
    have loaded := (State.load_noted hl).1
    have acquired := (t.release_noted k 8).1.trans (State.acquire_noted hq).1
    have same : u.fcore = k := acquired.fcore.trans loaded.fcore
    have queues := State.rcColl_queues (d := d) rfl hc hp ho free hl none hq same
    have put := RcTo.put (u.modComm die (s.q k a) (fun c' => { c' with issued := c'.issued + 1, colls := c'.colls ++ [u.newColl c (s.q k a) p o bs] })) d (4096 * s.q k a + c.issued % 4096)
    have rc := put.rc
    have dies : u.dies = s.dies := acquired.dies.trans loaded.dies
    have comm := State.commAt_aget hc
    rw [← State.die_of_dies dies] at comm
    rw [show (u.modComm die (s.q k a) _).fcore = k from same, show (u.modComm die (s.q k a) _).rc k = t.rc k from acquired.rc k] at rc
    rw [← hch]
    refine ⟨_, { c with issued := c.issued + 1, colls := c.colls ++ [u.newColl c (s.q k a) p o bs] }, u.newColl c (s.q k a) p o bs, congrArg Host.Outcome.next queues, congrArg Rc.q rc, ?_, rfl, rfl, rfl, rfl, rfl, rfl, rfl, rfl⟩
    rw [State.die_of_dies (congrArg State.dies put.only.rest)]
    exact State.comm_modComm comm _
  case cstat => exact State.reads_of_take (congrArg Host.Outcome.next (State.rcCollStatus_takes (hch ▸ hq) nofun)) take
  case cwait => exact State.reads_of_take (congrArg Host.Outcome.next (State.rcCollStatus_takes (hch ▸ hq) fun _ => done)) take
  case waits => exact congrArg Host.Outcome.next (State.rcCollStatus_waits (hch ▸ hq) runs)
  case csel =>
    rw [← hch, ← hv] at *
    exact ⟨_, congrArg Host.Outcome.next (State.rcCsel_sets hc lt sel), RcTo.next (s.modComm _ _ _) 4, State.comm_modComm (State.commAt_aget hc) _⟩

end Sys2Proof.Machine
end

section
/-! The cores of a region, all at once; the registers that an operation on regions leaves alone (R321 to R327, R335). -/

namespace Sys2Proof.Machine

variable {s t : State} {g : Region} {lead : Nat}

/-! ## The cores of a list -/

/-- Every core of a list changes as f says. -/
def State.modCores (s : State) (l : List Nat) (f : Core → Core) : State := l.foldl (fun s k => s.modCore k f) s

theorem State.modCores_rest (s : State) (l : List Nat) (f : Core → Core) : s.modCores l f = { s with cores := (s.modCores l f).cores } :=
  foldl_inv (P := fun t : State => t = { s with cores := t.cores }) (fun t k h => by
    show t.modCore k f = { s with cores := (t.modCore k f).cores }
    rw [h]
    rfl) l s rfl

theorem State.core_modCores {l : List Nat} (hn : l.Nodup) (s : State) (f : Core → Core) (j : Nat) : (s.modCores l f).core j = if j ∈ l then f (s.core j) else s.core j := by
  induction l generalizing s with
  | nil => rfl
  | cons k l ih =>
    obtain ⟨hk, hl⟩ := List.nodup_cons.mp hn
    show ((s.modCore k f).modCores l f).core j = _
    rw [ih hl, State.core_modCore]
    by_cases hj : j = k
    · subst hj
      rw [if_neg hk, if_pos rfl, if_pos List.mem_cons_self]
    · simp [hj]

theorem Region.coreList_nodup (g : Region) : g.coreList.Nodup := by
  unfold Region.coreList
  refine List.Nodup.filterMap (fun a b k ha hb => ?_) List.nodup_range
  simp only [Option.mem_def, Option.ite_none_right_eq_some, Option.some.injEq] at ha hb
  omega

theorem State.regionCores_nodup (s : State) (lead : Nat) : (s.regionCores lead).Nodup := by
  unfold State.regionCores
  split
  · exact Region.coreList_nodup _
  · exact List.nodup_singleton _

theorem State.regionCores_of_regionAt (h : s.regionAt lead = some g) : s.regionCores lead = g.coreList := by
  unfold State.regionCores
  rw [h]

/-! ## A region in another state -/

/-- What leaves a region where it is. -/
def Stands (f : Region → Region) : Prop := ∀ r : Region, (f r).lead = r.lead ∧ (f r).w = r.w ∧ (f r).h = r.h

theorem Stands.coreList {f : Region → Region} (hf : Stands f) (r : Region) : (f r).coreList = r.coreList := by
  obtain ⟨a, b, c⟩ := hf r
  unfold Region.coreList Region.has
  rw [a, b, c]

theorem State.regionAt_modRegion {f : Region → Region} (hf : Stands f) (s : State) (lead k : Nat) :
    (s.modRegion lead f).regionAt k = (s.regionAt k).map (fun r => if r.lead = lead then f r else r) := by
  unfold State.regionAt State.modRegion
  rw [List.find?_map]
  congr 2
  funext r
  show Region.has (if r.lead = lead then f r else r) k = r.has k
  split
  · obtain ⟨a, b, c⟩ := hf r
    unfold Region.has
    rw [a, b, c]
  · rfl

theorem State.regionCores_modRegion {f : Region → Region} (hf : Stands f) (s : State) (lead k : Nat) : (s.modRegion lead f).regionCores k = s.regionCores k := by
  unfold State.regionCores
  rw [State.regionAt_modRegion hf]
  cases s.regionAt k with
  | none => rfl
  | some r =>
    show Region.coreList (if r.lead = lead then f r else r) = _
    split
    · exact hf.coreList r
    · rfl

theorem State.mem_modRegion {f : Region → Region} {r : Region} (h : r ∈ (s.modRegion lead f).regions) (hl : r.lead = lead) : ∃ x ∈ s.regions, x.lead = lead ∧ r = f x := by
  obtain ⟨x, hx, rfl⟩ := List.mem_map.mp h
  by_cases e : x.lead = lead
  · exact ⟨x, hx, e, if_pos e⟩
  · rw [if_neg e] at hl
    exact absurd hl e

/-! ## Registers and levels -/

/-- A cell has its registers: local ones, main ones, and those of its contexts. -/
structure Cell.SameRegs (c d : Cell) : Prop where
  l     : d.l = c.l
  mains : d.mains = c.mains
  o     : ∀ x, (d.ctx x).o = (c.ctx x).o

/-- A core has its registers: its controller's and its cells'. -/
structure Core.SameRegs (c d : Core) : Prop where
  q     : d.rc.q = c.rc.q
  pc    : d.rc.pc = c.rc.pc
  level : d.rc.level = c.rc.level
  cells : ∀ l, Cell.SameRegs ((aget c.cells l).getD {}) ((aget d.cells l).getD {})

namespace Core.SameRegs

theorem of_cells {c d : Core} (hc : d.cells = c.cells) (hr : d.rc.q = c.rc.q ∧ d.rc.pc = c.rc.pc ∧ d.rc.level = c.rc.level) : c.SameRegs d :=
  ⟨hr.1, hr.2.1, hr.2.2, fun _ => by rw [hc]; exact ⟨rfl, rfl, fun _ => rfl⟩⟩

theorem mapCells {c d : Core} (f : Nat → Cell → Cell) (hc : d.cells = c.cells.map (fun e => (e.1, f e.1 e.2))) (hf : ∀ l x, Cell.SameRegs x (f l x))
    (hr : d.rc.q = c.rc.q ∧ d.rc.pc = c.rc.pc ∧ d.rc.level = c.rc.level) : c.SameRegs d :=
  ⟨hr.1, hr.2.1, hr.2.2, fun l => by
    rw [hc, aget_map]
    cases aget c.cells l with
    | none => exact ⟨rfl, rfl, fun _ => rfl⟩
    | some x => exact hf l x⟩

theorem refl (c : Core) : c.SameRegs c := of_cells rfl ⟨rfl, rfl, rfl⟩

theorem trans {c d e : Core} (h : c.SameRegs d) (g : d.SameRegs e) : c.SameRegs e where
  q := g.q.trans h.q
  pc := g.pc.trans h.pc
  level := g.level.trans h.level
  cells l := ⟨(g.cells l).l.trans (h.cells l).l, (g.cells l).mains.trans (h.cells l).mains, fun x => ((g.cells l).o x).trans ((h.cells l).o x)⟩

theorem unhold (c : Core) (p : Nat × Nat → Bool) : c.SameRegs (c.unhold p) :=
  mapCells (fun _ x => x.unheld p) rfl (fun _ _ => ⟨rfl, rfl, fun _ => rfl⟩) ⟨rfl, rfl, rfl⟩

theorem lasts : Lasts Core.SameRegs where
  refl := refl
  trans := trans
  tcache _ _ := of_cells rfl ⟨rfl, rfl, rfl⟩
  copies _ _ := of_cells rfl ⟨rfl, rfl, rfl⟩
  rank _ _ := of_cells rfl ⟨rfl, rfl, rfl⟩
  unhold := unhold

end Core.SameRegs

/-- Every core of the package has its registers. -/
abbrev KeepsRegs (s t : State) : Prop := EachCore Core.SameRegs s t

namespace KeepsRegs

theorem of_cores {s t : State} (h : t.cores = s.cores) : KeepsRegs s t := EachCore.of_cores Core.SameRegs.lasts h
theorem refl (s : State) : KeepsRegs s s := of_cores rfl
theorem trans {s t u : State} (h : KeepsRegs s t) (g : KeepsRegs t u) : KeepsRegs s u := EachCore.trans Core.SameRegs.lasts h g
theorem modCore (s : State) (k : Nat) (f : Core → Core) (hf : ∀ c : Core, c.SameRegs (f c)) : KeepsRegs s (s.modCore k f) := EachCore.modCore Core.SameRegs.lasts s k f hf
theorem foldl {β : Type} (f : State → β → State) (hf : ∀ s b, KeepsRegs s (f s b)) (l : List β) (s : State) : KeepsRegs s (l.foldl f s) :=
  EachCore.foldl Core.SameRegs.lasts f hf l s
theorem modCores (s : State) (l : List Nat) (f : Core → Core) (hf : ∀ c : Core, c.SameRegs (f c)) : KeepsRegs s (s.modCores l f) := foldl _ (fun s k => modCore s k f hf) l s
theorem modRc (s : State) (k : Nat) (f : Rc → Rc) (hf : ∀ r, (f r).q = r.q ∧ (f r).pc = r.pc ∧ (f r).level = r.level) : KeepsRegs s (s.modRc k f) :=
  modCore s k _ fun c => .of_cells rfl (hf c.rc)
theorem modCtx (s : State) (k l x : Nat) (f : Ctx → Ctx) (hf : ∀ c, (f c).o = c.o) : KeepsRegs s (s.modCtx k l x f) := fun j => by
  have core : (s.modCtx k l x f).core j = if j = k then { s.core k with cells := aset (s.core k).cells l ((s.cell k l).modCtx x f) } else s.core j := State.core_modCore ..
  rw [core]
  split
  · subst_vars
    refine ⟨rfl, rfl, rfl, fun i => ?_⟩
    show Cell.SameRegs _ ((aget (aset _ l _) i).getD {})
    rw [aget_aset]
    split
    · subst_vars
      refine ⟨rfl, rfl, fun y => ?_⟩
      show (((s.cell j i).ctxs.modify x f).getD y {}).o = ((s.cell j i).ctxs.getD y {}).o
      rw [getD_modify]
      split
      · subst_vars
        split
        · exact hf _
        · next h => rw [List.getD_eq_default _ _ (not_lt.mp h)]
      · rfl
    · exact ⟨rfl, rfl, fun _ => rfl⟩
  · exact .refl _

theorem modCell (s : State) (k l : Nat) (f : Cell → Cell) (hf : ∀ c, Cell.SameRegs c (f c)) : KeepsRegs s (s.modCell k l f) := fun j => by
  have core : (s.modCell k l f).core j = if j = k then { s.core k with cells := aset (s.core k).cells l (f (s.cell k l)) } else s.core j := State.core_modCore ..
  rw [core]
  split
  · subst_vars
    refine ⟨rfl, rfl, rfl, fun i => ?_⟩
    show Cell.SameRegs _ ((aget (aset _ l _) i).getD {})
    rw [aget_aset]
    split
    · subst_vars; exact hf _
    · exact ⟨rfl, rfl, fun _ => rfl⟩
  · exact .refl _

/-- The controller that goes on after an operation which leaves every register alone writes its own, and no other differs. -/
theorem regsTo {s t u : State} {d n : Nat} {v : W64} (h : KeepsRegs s t) (hk : t.fcore = s.fcore) (hu : RcTo t u (Rc.put d v n)) : RegsTo s u d v n := by
  have rc (j : Nat) : u.rc j = if j = s.fcore then Rc.put d v n (t.rc j) else t.rc j := by
    have only := hu.only
    have eq := hu.rc
    rw [hk] at only eq
    split
    · subst_vars; exact eq
    · next hj => exact congrArg Core.rc (only.cores j hj)
  have cells (j : Nat) : (u.core j).cells = (t.core j).cells := by
    by_cases hj : j = t.fcore
    · rw [hj, hu.only.core]
    · rw [hu.only.cores j hj]
  have cell (j l : Nat) : u.cell j l = t.cell j l := by unfold State.cell; rw [cells]
  refine ⟨fun j => ?_, fun j => ?_, fun j l => ?_, fun j l => ?_, fun j l x => ?_⟩
  · rw [rc]
    split
    · show (if d = 0 then (t.core j).rc.q else (t.core j).rc.q.set d v) = if d = 0 then (s.core j).rc.q else (s.core j).rc.q.set d v
      rw [(h j).q]
    · exact (h j).q
  · rw [rc]
    split
    · exact congrArg (· + n) (h j).pc
    · exact (h j).pc
  · rw [cell]; exact ((h j).cells l).l
  · rw [cell]; exact ((h j).cells l).mains
  · unfold State.ctx
    rw [cell]
    exact ((h j).cells l).o x

theorem regsTo_put {s t : State} {d v : Nat} (h : KeepsRegs s t) (hk : t.fcore = s.fcore) : RegsTo s (t.rcPut d v) d (BitVec.ofNat 64 v) 4 := h.regsTo hk (.put t d v)

theorem regsTo_next {s t : State} {n : Nat} (h : KeepsRegs s t) (hk : t.fcore = s.fcore) : RegsTo s (t.rcNext s.fcore n) 0 0 n :=
  h.regsTo hk (hk ▸ RcTo.next t n)

theorem level {s t : State} (h : KeepsRegs s t) (j : Nat) : (t.rc j).level = (s.rc j).level := (h j).level
theorem rcq {s t : State} (h : KeepsRegs s t) (j : Nat) : (t.rc j).q = (s.rc j).q := (h j).q
theorem rcpc {s t : State} (h : KeepsRegs s t) (j : Nat) : (t.rc j).pc = (s.rc j).pc := (h j).pc

end KeepsRegs

/-- The executing controller after its registers were written, where it has kept what it had. -/
theorem State.put_rc {s t : State} {d v : Nat} (hq : (t.rc s.fcore).q = (s.rc s.fcore).q) (hp : (t.rc s.fcore).pc = (s.rc s.fcore).pc) (hk : t.fcore = s.fcore) :
    ((t.rcPut d v).rc s.fcore).q = (Rc.put d (BitVec.ofNat 64 v) 4 (s.rc s.fcore)).q ∧ ((t.rcPut d v).rc s.fcore).pc = (s.rc s.fcore).pc + 4 := by
  have h := (RcTo.put t d v).rc
  rw [hk] at h
  rw [h]
  constructor
  · show (if d = 0 then (t.rc s.fcore).q else _) = if d = 0 then (s.rc s.fcore).q else _
    rw [hq]
  · exact congrArg (· + 4) hp

end Sys2Proof.Machine
end

section
/-! What the accesses of a controller to external memory may change: storage tiles, buffers and their caches, no core but for its cache of translations (R329 to R357). -/

namespace Sys2Proof.Machine

/-- Memory, storage tiles, buffers, records and caches may differ; of the cores, their translation caches alone. -/
structure Accessed (s t : State) : Prop where
  rest : t = { s with mem := t.mem, cores := t.cores, isles := t.isles, dies := t.dies, freeNo := t.freeNo, tiles := t.tiles, posts := t.posts, seqs := t.seqs, parts := t.parts }
  core : ∀ j, t.core j = { s.core j with tcache := (t.core j).tcache }

namespace Accessed

variable {s t u : State}

theorem of_cores (h : t = { s with mem := t.mem, isles := t.isles, dies := t.dies, freeNo := t.freeNo, tiles := t.tiles, posts := t.posts, seqs := t.seqs, parts := t.parts }) :
    Accessed s t where
  rest := by rw [h]
  core j := by rw [show t.core j = s.core j by rw [h]; rfl]

theorem refl (s : State) : Accessed s s := of_cores rfl

theorem trans (h : Accessed s t) (g : Accessed t u) : Accessed s u where
  rest := by rw [g.rest, h.rest]
  core j := by rw [g.core j, h.core j]

theorem of_read (h : OnlyRead s t) : Accessed s t := ⟨by rw [h.rest], h.core⟩

/-- One that an operation with a result has made, by the name of its state. -/
theorem of_fst {α : Type} {p : State × α} {r : α} (h : Accessed s p.1) (e : p = (t, r)) : Accessed s t := by rwa [e] at h

section Fields

variable (h : Accessed s t)
include h

theorem fcore : t.fcore = s.fcore := by rw [h.rest]
theorem nodes : t.nodes = s.nodes := by rw [h.rest]
theorem saved : t.saved = s.saved := by rw [h.rest]
theorem rc (j : Nat) : t.rc j = s.rc j := by unfold State.rc; rw [h.core j]
theorem keepsRegs : KeepsRegs s t := fun j => by
  rw [h.core j]
  exact .of_cells rfl ⟨rfl, rfl, rfl⟩

end Fields

theorem sealed (s : State) (k pt tile : Nat) (src : Memory) (off : Nat) (bytes mask : List Byte) : Accessed s (s.seal k pt tile src off bytes mask).1 := by
  have tr := of_read (translate_onlyRead s k pt (tile * 2048) true)
  unfold State.seal
  split
  · next hq => exact tr.of_fst hq
  · next t pa hq =>
    have tr := tr.of_fst hq
    dsimp only
    split
    · exact tr
    · next q _ =>
      generalize (if (t.tileMeta pa).gen = q.gen then (t.tileMeta pa).version + 1 else 0) = version
      split
      · exact tr
      · dsimp only
        split <;> exact tr.trans (.of_cores rfl)

theorem writeVA (s : State) (k pt va : Nat) (bytes : List Byte) : Accessed s (s.writeVA k pt va bytes).1 := by
  unfold State.writeVA
  refine foldl_inv (P := fun (acc : State × Except (Nat × Nat) (List Byte)) => Accessed s acc.1) (fun acc g h => ?_) _ _ (.refl s)
  obtain ⟨t, r⟩ := acc
  split
  · next heq => cases heq; exact h
  · next heq =>
    cases heq
    dsimp only
    have fl : Accessed s (if g.2.2 = 2048 then (t, Except.ok []) else t.fill k pt g.1).1 := by
      split
      · exact h
      · exact h.trans (.of_read (fill_onlyRead t k pt g.1))
    split
    · next hq => exact fl.of_fst hq
    · next u src hq =>
      have se := fun bytes => (fl.of_fst hq).trans (.sealed u k pt g.1 src g.2.1 bytes (List.replicate bytes.length 255))
      split <;> next hs => exact (se _).of_fst hs

theorem takeTile (s : State) (k pt va : Nat) : Accessed s (s.takeTile k pt va).1 := by
  unfold State.takeTile
  split
  · exact .refl s
  · next x _ =>
    have tr := translate_onlyRead s k pt (x * 2048) false
    split
    · next hq => exact (of_read tr).of_fst hq
    · next t pa hq => exact ((of_read tr).of_fst hq).trans (.of_read (.setTileSt t pt x pa 0))

theorem writeShadow (s : State) (k pt : Nat) (shadow map : Assoc Nat) (x off : Nat) (bytes mask : List Byte) (whole : Bool) :
    Accessed s (s.writeShadow k pt shadow map x off bytes mask whole).1 := by
  have sl (t : State) (h : Nat) (src : Memory) := Accessed.sealed t k pt h src off bytes mask
  unfold State.writeShadow
  dsimp only
  split
  · next h _ =>
    have fl := of_read (fill_onlyRead s k pt h)
    split
    · next hq => exact fl.of_fst hq
    · next t src hq =>
      have se := (fl.of_fst hq).trans (sl t h src)
      split <;> next hs => exact se.of_fst hs
  · have fl : Accessed s (match s.fill k pt ((aget map x).getD x) with
        | (s, .error c) => if whole && !holdsAccess c then (s, Except.ok []) else (s, .error c)
        | r => r).1 := by
      have fl := of_read (fill_onlyRead s k pt ((aget map x).getD x))
      split
      · next hq => split <;> exact fl.of_fst hq
      · exact fl
    split
    · next hq => exact fl.of_fst hq
    · next t src hq =>
      have tk := (fl.of_fst hq).trans (.takeTile t k pt (x * 2048 + off))
      split
      · next ht => exact tk.of_fst ht
      · next u h ht =>
        have se := (tk.of_fst ht).trans (sl u h src)
        split <;> next hs => exact se.of_fst hs

theorem registerBuf (s : State) (k pt h : Nat) : Accessed s (s.registerBuf k pt h).1 := by
  unfold State.registerBuf
  split
  · next hq => exact .of_read (readVA_onlyRead hq)
  · next t b hq => exact (of_read (readVA_onlyRead hq)).trans (.of_cores rfl)

theorem publish (s : State) (k pt h : Nat) (shadow : Assoc Nat) : Accessed s (s.publish k pt h shadow).1 := by
  unfold State.publish
  dsimp only
  split
  · next hq => exact (writeVA ..).of_fst hq
  · next t _ hq => exact ((writeVA ..).of_fst hq).trans (.of_cores rfl)

end Accessed

theorem readCounted_onlyRead {s t : State} {k pt va : Nat} {len : List Byte → Nat} {r : Except (Nat × Nat) (List Byte)} (h : s.readCounted k pt va len = (t, r)) : OnlyRead s t := by
  unfold State.readCounted at h
  split at h
  · next hq => cases h; exact readVA_onlyRead hq
  · next hq => exact (readVA_onlyRead hq).trans (readVA_onlyRead h)

theorem OnlyRead.q {s t : State} (h : OnlyRead s t) (k i : Nat) : t.q k i = s.q k i := by unfold State.q; rw [h.rc]

end Sys2Proof.Machine
end

section
/-! Regions saved, resumed and put elsewhere by a controller (R324 to R326). -/

namespace Sys2Proof.Machine

variable {s t u : State} {g : Region} {d a b lead pt : Nat}

theorem State.cores_trans (h : t = { s with cores := t.cores }) (g : u = { t with cores := u.cores }) : u = { s with cores := u.cores } := by rw [g, h]

/-! ## A core that the scheduler has back (R324) -/

/-- A core of a saved region: nothing of the region stays in it. -/
def Core.vacated (c : Core) : Core := { c.clearTokens with copies := [], hists := [], rc := {} }

theorem State.vacate_eq (s : State) (g : Region) : s.vacate g = ((s.reclaimFrames g.lead).modCores g.coreList Core.vacated).freeRegion g.lead := rfl

theorem State.vacate_rest (s : State) (g : Region) :
    s.vacate g = { s with isles := (s.vacate g).isles, cores := (s.vacate g).cores, regions := s.regions.filter (fun r => r.lead != g.lead) } := by
  rw [State.vacate_eq, State.modCores_rest]
  rfl

theorem State.core_vacate (s : State) (g : Region) (j : Nat) : (s.vacate g).core j = if j ∈ g.coreList then (s.core j).vacated else s.core j :=
  State.core_modCores g.coreList_nodup (s.reclaimFrames g.lead) Core.vacated j

theorem Core.hasTokens_vacated (c : Core) : c.vacated.hasTokens = false := Core.hasTokens_clearTokens c

/-! ## CTXS -/

theorem State.stops_rcCtxs {c : Nat} (hl : 1 ≤ (s.rc s.fcore).level) (hc : c ≠ 0x055 ∧ c ≠ 0x056) (h : s.rcCtxs d a b = s.rcTrap c) : s.Stops (.rcCtxs d a b) c 0 :=
  State.stops ((State.exec_level 1 (s.rcCtxs d a b) rfl hl).trans (congrArg _ h)) hc

theorem State.stops_rcCtxr {c : Nat} (hl : 1 ≤ (s.rc s.fcore).level) (hc : c ≠ 0x055 ∧ c ≠ 0x056) (h : s.rcCtxr d a b = s.rcTrap c) : s.Stops (.rcCtxr d a b) c 0 :=
  State.stops ((State.exec_level 1 (s.rcCtxr d a b) rfl hl).trans (congrArg _ h)) hc

theorem State.rcCtxs_none (h : s.regionOf (s.partAt s.fcore) (s.q s.fcore a) = none) : s.rcCtxs d a b = s.rcTrap 0x0F4 := by
  unfold State.rcCtxs
  simp only [h]

theorem State.rcCtxs_runs (h : s.regionOf (s.partAt s.fcore) (s.q s.fcore a) = some g) (hs : g.st ≠ .frozen) : s.rcCtxs d a b = s.rcTrap 0x0F5 := by
  unfold State.rcCtxs
  simp only [h]
  exact if_pos hs

theorem State.rcCtxs_member (h : s.regionOf (s.partAt s.fcore) (s.q s.fcore a) = some g) (hs : g.st = .frozen) (hm : s.hasMembership g.node = true) :
    s.rcCtxs d a b = s.rcTrap 0x0F4 := by
  unfold State.rcCtxs
  simp only [h]
  rw [if_neg (not_not.mpr hs), if_pos hm]

theorem State.rcCtxs_saves (h : s.regionOf (s.partAt s.fcore) (s.q s.fcore a) = some g) (hs : g.st = .frozen) (hm : s.hasMembership g.node = false)
    (hw : (s.imageOf g).2.writeVA s.fcore g.part (s.q s.fcore b) (s.imageOf g).1.bytes = (t, .ok ())) :
    s.rcCtxs d a b = (({ t with saved := t.saved ++ [(s.imageOf g).1] } : State).vacate g).rcPut d (s.imageOf g).1.bytes.length := by
  unfold State.rcCtxs
  simp only [h]
  rw [if_neg (not_not.mpr hs), if_neg (by rw [hm]; decide)]
  simp only [hw]

theorem State.imageOf_length (s : State) (g : Region) : (s.imageOf g).1.bytes.length = s.imageBytes g := by
  show ((List.range (s.imageBytes g)).map (Config.imageByte s.freeNo)).length = _
  rw [List.length_map, List.length_range]

/-- The image of a region of other cores is saved: it is kept, and the region's cores are the scheduler's. -/
theorem State.ctxs_saves (away : s.fcore ∉ g.coreList) (hw : (s.imageOf g).2.writeVA s.fcore g.part a (s.imageOf g).1.bytes = (t, .ok ())) :
    let u := (({ t with saved := t.saved ++ [(s.imageOf g).1] } : State).vacate g).rcPut d (s.imageOf g).1.bytes.length
    ((u.rc s.fcore).q = (Rc.put d (BitVec.ofNat 64 (s.imageBytes g)) 4 (s.rc s.fcore)).q ∧ (u.rc s.fcore).pc = (s.rc s.fcore).pc + 4) ∧ u.mem = t.mem ∧
    (∀ r ∈ u.regions, r.lead ≠ g.lead) ∧ u.nodes = s.nodes ∧ (∀ j ∈ g.coreList, (u.core j).hasTokens = false) ∧ u.saved = s.saved ++ [(s.imageOf g).1] := by
  have acc : Accessed (s.imageOf g).2 t := (Accessed.writeVA ..).of_fst hw
  generalize hv : ({ t with saved := t.saved ++ [(s.imageOf g).1] } : State) = v
  have vcore (j : Nat) : v.core j = { s.core j with tcache := (t.core j).tcache } := by rw [← hv]; exact acc.core j
  have rest := v.vacate_rest g
  have put := (RcTo.put (v.vacate g) d (s.imageOf g).1.bytes.length).only
  have same : (v.vacate g).rc s.fcore = s.rc s.fcore := by
    unfold State.rc
    rw [State.core_vacate, if_neg away, vcore]
  have hk : (v.vacate g).fcore = s.fcore := by rw [rest, ← hv]; exact acc.fcore
  refine ⟨?_, ?_, ?_, ?_, ?_, ?_⟩
  · rw [State.imageOf_length]
    exact State.put_rc (congrArg Rc.q same) (congrArg Rc.pc same) hk
  · rw [put.rest, rest, ← hv]
  · rw [put.rest, rest]
    intro r hr
    have := (List.mem_filter.mp hr).2
    simpa using this
  · rw [put.rest, rest, ← hv]; exact acc.nodes
  · intro j hj
    have ne : j ≠ (v.vacate g).fcore := fun e => away (hk ▸ e ▸ hj)
    rw [put.cores j ne, State.core_vacate, if_pos hj]
    exact Core.hasTokens_vacated _
  · rw [put.rest, rest, ← hv]
    show t.saved ++ _ = _
    rw [acc.saved]
    rfl

/-! ## A region that runs on (R323, R325, R326) -/

/-- A region runs. -/
def Region.run (r : Region) : Region := { r with st := .running, pending := false, marked := false, capture := false }

theorem Region.run_stands : Stands Region.run := fun _ => ⟨rfl, rfl, rfl⟩

/-- A cell that has passed no marker. -/
def Cell.unpassed (c : Cell) : Cell := { c with passed := false }

/-- A core of a region that runs on: its copies go on, and none of its cells has passed a marker. -/
def Core.run (c : Core) : Core :=
  { c with
    copies := c.copies.map (fun (e : Nat × Copy) => (e.1, { e.2 with frozen := false }))
    cells := c.cells.map (fun (e : Nat × Cell) => (e.1, e.2.unpassed))
    matrix := { c.matrix with passed := false } }

/-- A controller that takes a recorded return from its service. -/
def Rc.resumed (r : Rc) : Rc :=
  match r.mode with
  | .sys qd (some v) => r.resume qd v
  | _ => r

theorem Rc.resumed_returns {r : Rc} {i : Nat} {v : W64} (h : r.mode = .sys i (some v)) : r.resumed = r.resume i v := by
  unfold Rc.resumed
  rw [h]

theorem Rc.resumed_stays {r : Rc} (h : ∀ i v, r.mode ≠ .sys i (some v)) : r.resumed = r := by
  unfold Rc.resumed
  split
  · next i v hm => exact absurd hm (h i v)
  · rfl

/-- A core whose controller takes a recorded return. -/
def Core.resumed (c : Core) : Core := { c with rc := c.rc.resumed }

theorem Core.resumed_returns {c : Core} {i : Nat} {v : W64} (h : c.rc.mode = .sys i (some v)) : c.resumed = { c with rc := c.rc.resume i v } := by
  unfold Core.resumed
  rw [Rc.resumed_returns h]

theorem Core.resumed_stays {c : Core} (h : ∀ i v, c.rc.mode ≠ .sys i (some v)) : c.resumed = c := by
  unfold Core.resumed
  rw [Rc.resumed_stays h]

/-- A core as its region runs on under the lead of one: `mine` says that the region holds it. -/
def Core.runsOn (c : Core) (mine leads : Bool) : Core :=
  let c := if mine then c.run else c
  if leads then c.resumed else c

theorem State.runOn_spec (s : State) (lead : Nat) : s.runOn lead = { s.modRegion lead Region.run with cores := (s.runOn lead).cores } ∧
    ∀ j, (s.runOn lead).core j = (s.core j).runsOn (decide (j ∈ s.regionCores lead)) (decide (j = lead)) := by
  have eq : s.runOn lead = (let s2 := (s.modRegion lead Region.run).modCores (s.regionCores lead) Core.run
      match (s2.rc lead).mode with
      | .sys qd (some v) => s2.modRc lead (fun r => r.resume qd v)
      | _ => s2) := by
    unfold State.runOn
    rfl
  have ran (j : Nat) : ((s.modRegion lead Region.run).modCores (s.regionCores lead) Core.run).core j = if j ∈ s.regionCores lead then (s.core j).run else s.core j :=
    State.core_modCores (s.regionCores_nodup lead) _ _ j
  have rest := (s.modRegion lead Region.run).modCores_rest (s.regionCores lead) Core.run
  rw [eq]
  dsimp only
  generalize (s.modRegion lead Region.run).modCores (s.regionCores lead) Core.run = v at ran rest
  have core (j : Nat) (h : j ≠ lead) : v.core j = (s.core j).runsOn (decide (j ∈ s.regionCores lead)) (decide (j = lead)) := by
    simp [Core.runsOn, h, ran]
  have led : (v.core lead).resumed = (s.core lead).runsOn (decide (lead ∈ s.regionCores lead)) (decide (lead = lead)) := by
    simp [Core.runsOn, ran]
  split
  · next i x hm =>
    have only := v.only_modRc lead (fun r => r.resume i x)
    refine ⟨State.cores_trans rest only.rest, fun j => ?_⟩
    by_cases hj : j = lead
    · subst hj
      rw [← led, Core.resumed_returns hm]
      exact (State.core_modCore ..).trans (if_pos rfl)
    · rw [only.cores j hj]
      exact core j hj
  · next hm =>
    refine ⟨rest, fun j => ?_⟩
    by_cases hj : j = lead
    · subst hj
      rw [← led, Core.resumed_stays hm]
    · exact core j hj

theorem State.runOn_rest (s : State) (lead : Nat) : s.runOn lead = { s.modRegion lead Region.run with cores := (s.runOn lead).cores } := (s.runOn_spec lead).1

theorem State.core_runOn (s : State) (lead j : Nat) : (s.runOn lead).core j = (s.core j).runsOn (decide (j ∈ s.regionCores lead)) (decide (j = lead)) := (s.runOn_spec lead).2 j

theorem Core.runsOn_rc (c : Core) (mine leads : Bool) : (c.runsOn mine leads).rc = if leads then c.rc.resumed else c.rc := by
  cases mine <;> cases leads <;> rfl

theorem State.rc_runOn (s : State) (lead j : Nat) : (s.runOn lead).rc j = if j = lead then (s.rc j).resumed else s.rc j := by
  unfold State.rc
  rw [State.core_runOn, Core.runsOn_rc]
  by_cases hj : j = lead <;> simp [hj]

/-- No cell of a core has passed a marker, and no copy is frozen. -/
structure Core.Running (c : Core) : Prop where
  passed : ∀ l, ((aget c.cells l).getD {}).passed = false
  copies : ∀ e ∈ c.copies, e.2.frozen = false

theorem Core.run_running (c : Core) : c.run.Running where
  passed l := by
    have cells : aget c.run.cells l = (aget c.cells l).map Cell.unpassed := aget_map c.cells (fun _ => Cell.unpassed) l
    rw [cells]
    cases aget c.cells l <;> rfl
  copies e he := by
    obtain ⟨x, -, rfl⟩ := List.mem_map.mp he
    rfl

theorem Core.Running.unhold {c : Core} (h : c.Running) (p : Nat × Nat → Bool) : (c.unhold p).Running where
  passed l := by
    have cells : aget (c.unhold p).cells l = (aget c.cells l).map (·.unheld p) := aget_map c.cells (fun _ x => x.unheld p) l
    rw [cells]
    have := h.passed l
    cases hc : aget c.cells l with
    | none => rfl
    | some x => rw [hc] at this; exact this
  copies e he := by
    obtain ⟨x, hx, rfl⟩ := List.mem_map.mp he
    exact h.copies x hx

theorem Core.Running.withRc {c : Core} (h : c.Running) (r : Rc) : ({ c with rc := r } : Core).Running := ⟨h.passed, h.copies⟩

theorem Core.runsOn_running (c : Core) (leads : Bool) : (c.runsOn true leads).Running := by
  cases leads
  · exact c.run_running
  · exact c.run_running.withRc _

/-! ## A region's held accesses retry (R325, R335) -/

theorem State.retryRegion_rest (s : State) (lead : Nat) : s.retryRegion lead = { s with cores := (s.retryRegion lead).cores } := State.modCores_rest ..

theorem State.core_retryRegion (s : State) (lead j : Nat) :
    (s.retryRegion lead).core j = if j ∈ s.regionCores lead then (s.core j).unhold (fun c => holdsAccess c.1) else s.core j := State.core_modCores (s.regionCores_nodup lead) ..

theorem HeldRc.retryRegion (s : State) (lead : Nat) : HeldRc s (s.retryRegion lead) := fun j => by
  unfold State.rc
  rw [State.core_retryRegion]
  split <;> rfl

theorem HeldRc.q {s t : State} (h : HeldRc s t) (j : Nat) : (t.rc j).q = (s.rc j).q := by rw [h j]
theorem HeldRc.pc {s t : State} (h : HeldRc s t) (j : Nat) : (t.rc j).pc = (s.rc j).pc := by rw [h j]
theorem HeldRc.mode {s t : State} (h : HeldRc s t) (j : Nat) : (t.rc j).mode = (s.rc j).mode := by rw [h j]

theorem State.regionCores_runOn (s : State) (lead j : Nat) : (s.runOn lead).regionCores j = s.regionCores j := by
  rw [s.runOn_rest lead]
  exact State.regionCores_modRegion Region.run_stands s lead j

/-! ## CTXR in place -/

theorem State.rcCtxr_none (h0 : s.q s.fcore b = 0) (h : s.regionOf (s.partAt s.fcore) (s.q s.fcore a) = none) : s.rcCtxr d a b = s.rcTrap 0x0F4 := by
  unfold State.rcCtxr
  simp only [h0, h, if_true]

theorem State.rcCtxr_runs (h0 : s.q s.fcore b = 0) (h : s.regionOf (s.partAt s.fcore) (s.q s.fcore a) = some g) (hs : g.st ≠ .frozen) : s.rcCtxr d a b = s.rcTrap 0x0F5 := by
  unfold State.rcCtxr
  simp only [h0, h, if_true]
  exact if_pos hs

theorem State.rcCtxr_resumes (h0 : s.q s.fcore b = 0) (h : s.regionOf (s.partAt s.fcore) (s.q s.fcore a) = some g) (hs : g.st = .frozen) :
    s.rcCtxr d a b = ((s.runOn g.lead).retryRegion g.lead).rcPut d (s.q s.fcore a) := by
  unfold State.rcCtxr
  simp only [h0, h, if_true]
  exact if_neg (not_not.mpr hs)

/-- A region of another controller runs on in place. -/
theorem State.ctxr_resumes {v : Nat} (hg : s.regionAt g.lead = some g) (other : g.lead ≠ s.fcore) :
    let u := ((s.runOn g.lead).retryRegion g.lead).rcPut d v
    ((u.rc s.fcore).q = (Rc.put d (BitVec.ofNat 64 v) 4 (s.rc s.fcore)).q ∧ (u.rc s.fcore).pc = (s.rc s.fcore).pc + 4) ∧ u.posts = s.posts ∧ u.mem = s.mem ∧
    (∀ r ∈ u.regions, r.lead = g.lead → r.st = .running ∧ r.pending = false ∧ r.marked = false ∧ r.capture = false) ∧
    (∀ j ∈ g.coreList, (u.core j).Running) ∧
    (u.rc g.lead).mode = (s.rc g.lead).resumed.mode ∧ (u.rc g.lead).q = (s.rc g.lead).resumed.q ∧ (u.rc g.lead).pc = (s.rc g.lead).resumed.pc := by
  have held := HeldRc.retryRegion (s.runOn g.lead) g.lead
  have ran := s.rc_runOn g.lead
  have rest := (s.runOn g.lead).retryRegion_rest g.lead
  have rest' := s.runOn_rest g.lead
  have cores (j : Nat) (hj : j ∈ g.coreList) : (((s.runOn g.lead).retryRegion g.lead).core j).Running := by
    have mine := s.regionCores_of_regionAt hg
    rw [State.core_retryRegion, State.regionCores_runOn, mine, if_pos hj, State.core_runOn, mine, decide_eq_true hj]
    exact (Core.runsOn_running ..).unhold _
  generalize (s.runOn g.lead).retryRegion g.lead = w at *
  have hk : w.fcore = s.fcore := by rw [rest, rest']; rfl
  have put := (RcTo.put w d v).only
  have kq : (w.rc s.fcore).q = (s.rc s.fcore).q := by rw [held.q, ran, if_neg (Ne.symm other)]
  have kpc : (w.rc s.fcore).pc = (s.rc s.fcore).pc := by rw [held.pc, ran, if_neg (Ne.symm other)]
  have lrc : (w.rcPut d v).rc g.lead = w.rc g.lead := congrArg Core.rc (put.cores _ (hk ▸ other))
  refine ⟨State.put_rc kq kpc hk, by rw [put.rest, rest, rest']; rfl, by rw [put.rest, rest, rest']; rfl, ?_, ?_, ?_, ?_, ?_⟩
  · rw [put.rest, rest, rest']
    intro r hr hl
    obtain ⟨x, -, -, rfl⟩ := State.mem_modRegion hr hl
    exact ⟨rfl, rfl, rfl, rfl⟩
  · intro j hj
    by_cases e : j = w.fcore
    · rw [e, put.core]
      exact (cores w.fcore (e ▸ hj)).withRc _
    · rw [put.cores j e]
      exact cores j hj
  · rw [lrc, held.mode, ran, if_pos rfl]
  · rw [lrc, held.q, ran, if_pos rfl]
  · rw [lrc, held.pc, ran, if_pos rfl]

end Sys2Proof.Machine
end

section
/-! A saved region put into a rectangle of cores (R325; log 22 for the image). -/

namespace Sys2Proof.Machine

variable {s t u : State} {v : Saved} {lead k pt va : Nat}

/-! ## The image that stands at an address -/

theorem imageAmong_onlyRead (vs : List Saved) : ∀ {s₀ s : State} {bad : Option (State × (Nat × Nat))}, OnlyRead s₀ s → (∀ b, bad = some b → OnlyRead s₀ b.1) →
    OnlyRead s₀ (s.imageAmong k pt va bad vs).1 := by
  induction vs with
  | nil =>
    intro s₀ s bad h hb
    unfold State.imageAmong
    split
    · next x e => exact hb _ rfl
    · exact h
  | cons v r ih =>
    intro s₀ s bad h hb
    unfold State.imageAmong
    split
    · next x e hq =>
      refine ih h fun b he => ?_
      have rd := h.trans (readVA_onlyRead hq)
      cases bad with
      | none => cases he; exact rd
      | some y => cases he; exact hb _ rfl
    · next x bs hq =>
      have rd := h.trans (readVA_onlyRead hq)
      split
      · exact rd
      · exact ih rd hb

theorem findImage_onlyRead {r : Except (Nat × Nat) (Option Saved)} (h : s.findImage k pt va = (t, r)) : OnlyRead s t := by
  have := imageAmong_onlyRead (k := k) (pt := pt) (va := va) (s.saved.filter (fun v => v.part == pt)) (.refl s) (bad := none) fun _ h => (Option.some_ne_none _ h.symm).elim
  unfold State.findImage at h
  rwa [h] at this

/-! ## The cores of an image in their new places -/

/-- The core that a saved core becomes, in the place of one. -/
def Core.restored (v : Saved) (lead : Nat) (was now : Core) : Core :=
  { was.moved (fun k => k + lead - v.region.lead) (now.rphase + 1) v.rcd.disc with
    remote := now.remote
    matrix := { was.matrix with admitted := now.matrix.admitted, waiting := now.matrix.waiting, lastStep := now.matrix.lastStep } }

/-- A saved core and its stores are put into the place of a core. -/
def State.putSaved (v : Saved) (lead : Nat) (s : State) (e : Core × Memory × Nat) : State :=
  let t := s.setCore e.2.2 (e.1.restored v lead (s.core e.2.2))
  { t with mem := moveIds (restoreStores t.mem e.2.2 e.2.1) v.region.lead lead e.2.2 }

theorem State.core_putSaved (s : State) (e : Core × Memory × Nat) (j : Nat) : (s.putSaved v lead e).core j = if j = e.2.2 then e.1.restored v lead (s.core j) else s.core j := by
  have : (s.putSaved v lead e).core j = if j = e.2.2 then e.1.restored v lead (s.core e.2.2) else s.core j := State.core_setCore ..
  rw [this]
  split
  · subst_vars; rfl
  · rfl

/-- The cores of an image, each in its place. -/
def State.putAll (v : Saved) (lead : Nat) (s : State) (cs : List Core) (ms : List Memory) (ks : List Nat) : State := (cs.zip (ms.zip ks)).foldl (State.putSaved v lead) s

theorem State.putAll_rest (cs : List Core) (ms : List Memory) (ks : List Nat) : s.putAll v lead cs ms ks = { s with cores := (s.putAll v lead cs ms ks).cores, mem := (s.putAll v lead cs ms ks).mem } :=
  foldl_inv (P := fun t : State => t = { s with cores := t.cores, mem := t.mem }) (fun t e h => by
    show t.putSaved v lead e = { s with cores := (t.putSaved v lead e).cores, mem := (t.putSaved v lead e).mem }
    rw [h]
    rfl) _ s rfl

theorem State.core_putAll_other (cs : List Core) : ∀ (ms : List Memory) (ks : List Nat) (s : State) (j : Nat), j ∉ ks → (s.putAll v lead cs ms ks).core j = s.core j := by
  induction cs with
  | nil => intro ms ks s j _; rfl
  | cons c cs ih =>
    intro ms ks s j hj
    cases ms with
    | nil => rfl
    | cons m ms =>
      cases ks with
      | nil => rfl
      | cons k ks =>
        obtain ⟨hk, hks⟩ := not_or.mp fun h => hj (List.mem_cons.mpr h)
        show ((s.putSaved v lead (c, m, k)).putAll v lead cs ms ks).core j = _
        rw [ih ms ks _ j hks, State.core_putSaved, if_neg hk]

theorem State.core_putAll (cs : List Core) : ∀ (ms : List Memory) (ks : List Nat) (s : State), ks.Nodup → cs.length = ms.length → ∀ i (h : i < cs.length) (h' : i < ks.length),
    (s.putAll v lead cs ms ks).core ks[i] = cs[i].restored v lead (s.core ks[i]) := by
  induction cs with
  | nil => intro ms ks s _ _ i h; exact absurd h (Nat.not_lt_zero i)
  | cons c cs ih =>
    intro ms ks s hn hl i h h'
    cases ms with
    | nil => cases hl
    | cons m ms =>
      cases ks with
      | nil => exact absurd h' (Nat.not_lt_zero i)
      | cons k ks =>
        obtain ⟨hk, hks⟩ := List.nodup_cons.mp hn
        cases i with
        | zero =>
          show ((s.putSaved v lead (c, m, k)).putAll v lead cs ms ks).core k = c.restored v lead (s.core k)
          rw [State.core_putAll_other _ _ _ _ _ hk, State.core_putSaved, if_pos rfl]
        | succ i =>
          have hi : i < ks.length := Nat.lt_of_succ_lt_succ h'
          have hc : i < cs.length := Nat.lt_of_succ_lt_succ h
          have ne : ks[i] ≠ k := fun e => hk (e ▸ List.getElem_mem hi)
          show ((s.putSaved v lead (c, m, k)).putAll v lead cs ms ks).core ks[i] = cs[i].restored v lead (s.core ks[i])
          rw [ih ms ks _ hks (Nat.succ.inj hl) i hc hi, State.core_putSaved, if_neg ne]

/-! ## The region in its rectangle -/

/-- The node of a restored region: the saved one, or a new one where that is not saved any longer. -/
def State.nodeFor (s : State) (v : Saved) : Nat := if v.live then v.node else s.nodeNext

/-- A restored region. -/
def State.regionFor (s : State) (v : Saved) (lead : Nat) : Region := { v.placed lead with node := s.nodeFor v }

/-- The copies of a core are a node's. -/
def Core.ownCopies (n : Nat) (c : Core) : Core := { c with copies := c.copies.map (fun (e : Nat × Copy) => (e.1, { e.2 with node := n })) }

/-- A restored region, before its controller takes a return that the image has recorded. -/
def State.placedIn (s : State) (v : Saved) (lead : Nat) : State :=
  let n := s.nodeFor v
  let g := s.regionFor v lead
  let s3 := (((s.putAll v lead v.cores v.stores g.coreList).modRc lead (fun r => { r with node := n }))).modCores g.coreList (Core.ownCopies n)
  let s4 := s3.modIsle (isleOf lead) (fun i => { i with frames := v.frames.foldl (fun m f =>
    aset m f.1 { f.2 with lead := lead, rcd := { f.2.rcd with core := f.2.rcd.core + lead - v.region.lead } }) i.frames })
  { s4 with
    regions := s4.regions ++ [g]
    nodes := if v.live then s4.nodes else aset s4.nodes n { v.rcd with st := 2 }
    nodeNext := if v.live then s4.nodeNext else n + 1
    saved := s4.saved.map (fun (w : Saved) => if w.node = v.node then { w with live := false } else w) }

/-- What a restored core keeps of what was put there: its cells and its engine, and its controller but for the node. -/
theorem State.core_placedIn (s : State) (v : Saved) (lead j : Nat) :
    ∃ r, (s.placedIn v lead).core j = { (s.putAll v lead v.cores v.stores (v.placed lead).coreList).core j with
        copies := ((s.placedIn v lead).core j).copies, rc := { ((s.putAll v lead v.cores v.stores (v.placed lead).coreList).core j).rc with node := r } } ∧
      (j ≠ lead → j ∉ (v.placed lead).coreList → (s.placedIn v lead).core j = s.core j) := by
  have eq : (s.placedIn v lead).core j = (((s.putAll v lead v.cores v.stores (v.placed lead).coreList).modRc lead (fun r => { r with node := s.nodeFor v })).modCores
    (v.placed lead).coreList (Core.ownCopies (s.nodeFor v))).core j := rfl
  rw [eq, State.core_modCores (Region.coreList_nodup _)]
  unfold State.modRc
  rw [State.core_modCore]
  by_cases hj : j = lead
  · subst hj
    refine ⟨s.nodeFor v, ?_, fun h => absurd rfl h⟩
    rw [if_pos (rfl : j = j)]
    split <;> rfl
  · refine ⟨((s.putAll v lead v.cores v.stores (v.placed lead).coreList).core j).rc.node, ?_, fun _ hm => ?_⟩
    · rw [if_neg hj]
      split <;> rfl
    · rw [if_neg hm, if_neg hj, State.core_putAll_other _ _ _ _ _ hm]

/-- How the restored region stands. -/
structure Restores (s t : State) (v : Saved) (lead : Nat) : Prop where
  fcore   : t.fcore = s.fcore
  region  : s.regionFor v lead ∈ t.regions
  saved   : ∀ w ∈ t.saved, w.node = v.node → w.live = false
  others  : ∀ j, j ≠ lead → j ∉ (v.placed lead).coreList → t.core j = s.core j
  cores   : ∀ j, ∃ r, t.core j = { (s.putAll v lead v.cores v.stores (v.placed lead).coreList).core j with copies := (t.core j).copies, rc := r } ∧
    ((∀ i x, ((s.putAll v lead v.cores v.stores (v.placed lead).coreList).rc j).mode ≠ .sys i (some x)) →
      ∃ n, r = { (s.putAll v lead v.cores v.stores (v.placed lead).coreList).rc j with node := n })

theorem State.placedIn_restores (s : State) (v : Saved) (lead : Nat) : Restores s (s.placedIn v lead) v lead where
  fcore := by
    show ((s.putAll v lead v.cores v.stores (v.placed lead).coreList).modRc lead (fun r => { r with node := s.nodeFor v }) |>.modCores (v.placed lead).coreList
      (Core.ownCopies (s.nodeFor v))).fcore = s.fcore
    rw [State.modCores_rest, State.putAll_rest]
    rfl
  region := List.mem_append_right _ List.mem_cons_self
  saved w hw hn := by
    obtain ⟨x, -, rfl⟩ := List.mem_map.mp hw
    split
    · rfl
    · next h => rw [if_neg h] at hn; exact absurd hn h
  others j hj hm := (s.core_placedIn v lead j).choose_spec.2 hj hm
  cores j := by
    obtain ⟨n, h, -⟩ := s.core_placedIn v lead j
    exact ⟨_, h, fun _ => ⟨n, rfl⟩⟩

theorem State.restore_restores (s : State) (v : Saved) (lead : Nat) : Restores s (s.restore v lead) v lead := by
  have eq : s.restore v lead = (match ((s.placedIn v lead).rc lead).mode with
      | .sys qd (some x) => (s.placedIn v lead).modRc lead (fun r => r.resume qd x)
      | _ => s.placedIn v lead) := by
    unfold State.restore
    rfl
  have h := s.placedIn_restores v lead
  rw [eq]
  split
  · next i x hm =>
    have only := (s.placedIn v lead).only_modRc lead (fun r => r.resume i x)
    generalize (s.placedIn v lead).modRc lead (fun r => r.resume i x) = w at only
    refine ⟨by rw [only.rest]; exact h.fcore, by rw [only.rest]; exact h.region, by rw [only.rest]; exact h.saved, fun j hj hn => ?_, fun j => ?_⟩
    · rw [only.cores j hj]; exact h.others j hj hn
    · obtain ⟨r, hr, hs⟩ := h.cores j
      by_cases hj : j = lead
      · subst hj
        refine ⟨w.rc j, ?_, fun hm' => ?_⟩
        · rw [only.core, hr]
        · obtain ⟨n, e⟩ := hs hm'
          have rc : (s.placedIn v j).rc j = r := congrArg Core.rc hr
          rw [rc, e] at hm
          exact absurd hm (hm' i x)
      · rw [only.cores j hj]; exact ⟨r, hr, hs⟩
  · exact h

/-! ## A moved core -/

/-- A cell of a moved core: its tokens that no task has matched stay where an access of it was held. -/
def Cell.moved (c : Cell) (stalled : Bool) : Cell := { c with matching := if stalled then c.matching else [], l := List.replicate 4 Reg.empty, passed := false }

/-- The port of a cell of a core is held by a cause of external memory. -/
def Core.stalledAt (c : Core) (l : Nat) : Bool := ((aget c.cells l).map (·.stalled)).getD false

theorem Core.restored_cell {was now : Core} {l : Nat} {x : Cell} (h : aget was.cells l = some x) :
    aget (was.restored v lead now).cells l = some ((x.unheld (fun y => holdsAccess y.1)).moved x.stalled) := by
  have unheld : aget (was.unhold (fun y => holdsAccess y.1)).cells l = (aget was.cells l).map (·.unheld (fun y => holdsAccess y.1)) :=
    aget_map was.cells (fun _ z => z.unheld (fun y => holdsAccess y.1)) l
  have moved : aget (was.restored v lead now).cells l = (aget (was.unhold (fun y => holdsAccess y.1)).cells l).map (·.moved (was.stalledAt l)) :=
    aget_map (was.unhold (fun y => holdsAccess y.1)).cells (fun l z => z.moved (was.stalledAt l)) l
  have stalled : was.stalledAt l = x.stalled := by
    unfold Core.stalledAt
    rw [h]
    rfl
  rw [moved, unheld, h, stalled]
  rfl

/-- A core of an image in its place, as the restored region has it. -/
theorem Restores.core_at (h : Restores s t v lead) (hl : v.stores.length = v.cores.length) {i : Nat} (hi : i < v.cores.length) (hi' : i < (v.placed lead).coreList.length) :
    (∀ l x, aget v.cores[i].cells l = some x → t.cell (v.placed lead).coreList[i] l = (x.unheld (fun y => holdsAccess y.1)).moved x.stalled) ∧
    (t.matrix (v.placed lead).coreList[i]).tiles = v.cores[i].matrix.tiles ∧
    ((∀ i' w, v.cores[i].rc.mode ≠ .sys i' (some w)) →
      (t.rc (v.placed lead).coreList[i]).q = v.cores[i].rc.q ∧ (t.rc (v.placed lead).coreList[i]).pc = v.cores[i].rc.pc ∧ (t.rc (v.placed lead).coreList[i]).loops = v.cores[i].rc.loops) := by
  have put := State.core_putAll (v := v) (lead := lead) v.cores v.stores (v.placed lead).coreList s (Region.coreList_nodup _) hl.symm i hi hi'
  obtain ⟨r, hr, hm⟩ := h.cores (v.placed lead).coreList[i]
  unfold State.rc at hm
  rw [put] at hr hm
  refine ⟨fun l x hx => ?_, ?_, fun hs => ?_⟩
  · unfold State.cell
    rw [hr]
    show (aget (v.cores[i].restored v lead (s.core (v.placed lead).coreList[i])).cells l).getD {} = _
    rw [Core.restored_cell hx]
    rfl
  · unfold State.matrix
    rw [hr]
    rfl
  · obtain ⟨n, e⟩ := hm hs
    unfold State.rc
    rw [hr, e]
    exact ⟨rfl, rfl, rfl⟩

end Sys2Proof.Machine
end

section
/-! Pages that a controller moves and tiles that it scrubs (R334, R339, R340). -/

namespace Sys2Proof.Machine

variable {s t u : State} {d a b k pt lo n : Nat}

/-! ## A copy of memory -/

theorem aget_slice (m : Memory) (src n i : Nat) : aget (Memory.slice m src n) i = if i < n then aget m (src + i) else none := by
  induction m with
  | nil => simp [Memory.slice, aget]
  | cons c r ih =>
    obtain ⟨k, v⟩ := c
    unfold Memory.slice at ih ⊢
    rw [List.filter_cons]
    split
    · next hp =>
      simp only [Bool.and_eq_true, decide_eq_true_eq] at hp
      simp only [List.map_cons, aget, ih]
      by_cases hi : i = k - src
      · rw [if_pos hi, if_pos (by omega), if_pos (by omega)]
      · rw [if_neg hi, if_neg (show ¬src + i = k by omega)]
    · next hp =>
      simp only [Bool.and_eq_true, decide_eq_true_eq, not_and_or] at hp
      rw [ih]
      split
      · rw [aget, if_neg (show ¬src + i = k by omega)]
      · rfl

theorem rising_slice (src n : Nat) : ∀ {lo : Nat} {m : Memory}, rising lo m = true → rising (lo - src) (Memory.slice m src n) = true
  | _, [], _ => rfl
  | lo, (k, v) :: r, h => by
    simp only [rising, Bool.and_eq_true, decide_eq_true_eq] at h
    obtain ⟨hk, hr⟩ := h
    have ih := rising_slice src n hr
    unfold Memory.slice at ih ⊢
    rw [List.filter_cons]
    split
    · next hp =>
      simp only [Bool.and_eq_true, decide_eq_true_eq] at hp
      simp only [List.map_cons, rising, Bool.and_eq_true, decide_eq_true_eq]
      refine ⟨by omega, ?_⟩
      rwa [show k + 1 - src = k - src + 1 by omega] at ih
    · exact rising_mono (by omega) ih

/-- Entries of a part of memory written at a place: there, memory reads as the part does where it has an entry. -/
theorem Memory.read_writeAll (dst : Nat) : ∀ {lo : Nat} {l m : Memory}, rising lo l = true → Memory.wf m = true → ∀ x,
    Memory.read (l.foldl (fun m c => Memory.write m (dst + c.1) c.2) m) x = if dst ≤ x then (aget l (x - dst)).getD (Memory.read m x) else Memory.read m x
  | _, [], m, _, _, x => by simp [aget]
  | lo, (k, v) :: r, m, h, hm, x => by
    simp only [rising, Bool.and_eq_true, decide_eq_true_eq] at h
    obtain ⟨-, hr⟩ := h
    rw [List.foldl_cons, Memory.read_writeAll dst hr (Memory.wf_write hm _ _), Memory.read_write hm, aget]
    by_cases hx : x = dst + k
    · subst hx
      simp [aget_below hr (Nat.lt_succ_self k)]
    · by_cases hd : dst ≤ x
      · rw [if_pos hd, if_pos hd, if_neg (show ¬x - dst = k by omega), if_neg hx]
      · rw [if_neg hd, if_neg hd, if_neg hx]

/-- A copied page reads as the page does, and nothing else has changed. -/
theorem State.read_copyPage (hi : s.Inv) (src dst n x : Nat) :
    Memory.read (s.copyPage src dst n).mem x = if dst ≤ x ∧ x < dst + n then Memory.read s.mem (src + (x - dst)) else Memory.read s.mem x := by
  have rise := rising_slice src n ((Memory.wf_iff _).mp hi).1
  show Memory.read ((Memory.slice s.mem src n).foldl (fun m c => Memory.write m (dst + c.1) c.2) (Memory.clear s.mem dst n)) x = _
  rw [Memory.read_writeAll dst rise (Memory.wf_clear hi _ _), Memory.read_clear, aget_slice]
  by_cases hx : dst ≤ x ∧ x < dst + n
  · rw [if_pos hx.1, if_pos hx, if_pos hx, if_pos (by omega)]
    rfl
  · rw [if_neg hx, if_neg hx]
    split
    · rw [if_neg (show ¬x - dst < n by omega)]
      rfl
    · rfl

/-! ## Words that the logic of a core writes (R317) -/

theorem State.mem_poke (s : State) (k h off : Nat) (bs : List Byte) : (s.poke k h off bs).mem = Memory.writeN s.mem (spadBase k + off) bs := rfl

theorem State.core_poke (s : State) (k h off : Nat) (bs : List Byte) (j : Nat) :
    (s.poke k h off bs).core j = if j = k then (s.core k).poked (s.agent k h) (wordsOf off bs.length) else s.core j :=
  State.core_modCore s k j fun c => c.poked (s.agent k h) (wordsOf off bs.length)

theorem State.cell_poke (s : State) (k h off : Nat) (bs : List Byte) (j l : Nat) : (s.poke k h off bs).cell j l = s.cell j l := by
  unfold State.cell
  rw [State.core_poke]
  split
  · subst_vars; rfl
  · rfl

theorem KeepsRegs.poke (s : State) (k h off : Nat) (bs : List Byte) : KeepsRegs s (s.poke k h off bs) := fun j => by
  rw [State.core_poke]
  split
  · subst_vars; exact .of_cells rfl ⟨rfl, rfl, rfl⟩
  · exact .refl _

/-- A number written by the logic of a core stands there, and nothing else has changed. -/
theorem State.poke_number (hi : s.Inv) {off v : Nat} (h n : Nat) (hu : u.mem = (s.poke k h off (leBytes n v)).mem) :
    Memory.readNat u.mem (spadBase k + off) n = v % 2 ^ (8 * n) ∧ MemBut s u (spadBase k + off) n := by
  rw [State.mem_poke] at hu
  refine ⟨?_, fun x hx => ?_⟩
  · have := Memory.readN_writeN hi (leBytes n v) (spadBase k + off)
    rw [leBytes_length] at this
    rw [hu, Memory.readNat, this, leNat_leBytes]
  · rw [hu, Memory.read_writeN_outside hi _ (by rwa [leBytes_length])]

/-! ## Translations that go (R334) -/

/-- The entries of a translation cache whose pages do not meet a range. -/
def keptXlats (lo n : Nat) (m : Assoc (Nat × Nat)) : Assoc (Nat × Nat) := m.filter (fun q => !pageMeets q.1 q.2.2 lo n)

theorem mem_keptXlats {m : Assoc (Nat × Nat)} {x : Nat × Nat × Nat} (h : x ∈ keptXlats lo n m) : pageMeets x.1 x.2.2 lo n = false := by
  have := (List.mem_filter.mp h).2
  simpa using this

theorem State.core_dropTranslations (s : State) (pt lo n j : Nat) : (s.dropTranslations pt lo n).core j = { s.core j with tcache := ((s.dropTranslations pt lo n).core j).tcache } := by
  have map : (s.dropTranslations pt lo n).cores =
      s.cores.map (fun e => (e.1, if bit (s.part pt).isles (isleOf e.1) then { e.2 with tcache := keptXlats lo n e.2.tcache } else e.2)) :=
    List.map_congr_left fun e _ => by split <;> rfl
  have core : aget (s.dropTranslations pt lo n).cores j =
      (aget s.cores j).map (fun (c : Core) => if bit (s.part pt).isles (isleOf j) then { c with tcache := keptXlats lo n c.tcache } else c) := by
    rw [map]
    exact aget_map s.cores (fun j (c : Core) => if bit (s.part pt).isles (isleOf j) then { c with tcache := keptXlats lo n c.tcache } else c) j
  unfold State.core
  rw [core]
  cases aget s.cores j with
  | none => rfl
  | some c =>
    simp only [Option.map_some, Option.getD_some]
    split <;> rfl

theorem State.cell_dropTranslations (s : State) (pt lo n j l : Nat) : (s.dropTranslations pt lo n).cell j l = s.cell j l := by
  unfold State.cell
  rw [State.core_dropTranslations]

theorem SameRc.dropTranslations (s : State) (pt lo n : Nat) : SameRc s (s.dropTranslations pt lo n) := fun j => by
  unfold State.rc
  rw [State.core_dropTranslations]

theorem KeepsRegs.dropTranslations (s : State) (pt lo n : Nat) : KeepsRegs s (s.dropTranslations pt lo n) := fun j => by
  rw [State.core_dropTranslations]
  exact .of_cells rfl ⟨rfl, rfl, rfl⟩

/-- No cache of a partition's isles holds a translation that meets a range, and no walk of the partition is under way. -/
structure Untranslated (s : State) (pt isles lo n : Nat) : Prop where
  cores : ∀ c ∈ s.cores, bit isles (isleOf c.1) = true → ∀ x ∈ c.2.tcache, pageMeets x.1 x.2.2 lo n = false
  isles : ∀ c ∈ s.isles, bit isles c.1 = true → ∀ x ∈ c.2.tcache, pageMeets x.1 x.2.2 lo n = false
  walks : ∀ x ∈ s.dies, ∀ w ∈ x.2.walks, w.part ≠ pt

theorem State.dropTranslations_untranslated (s : State) (pt lo n : Nat) : Untranslated (s.dropTranslations pt lo n) pt (s.part pt).isles lo n where
  cores c hc hm x hx := by
    obtain ⟨e, -, rfl⟩ := List.mem_map.mp hc
    split at hx
    · exact mem_keptXlats hx
    · next h =>
      rw [if_neg h] at hm
      exact absurd hm h
  isles c hc hm x hx := by
    obtain ⟨e, -, rfl⟩ := List.mem_map.mp hc
    split at hx
    · exact mem_keptXlats hx
    · next h =>
      rw [if_neg h] at hm
      exact absurd hm h
  walks x hx w hw := by
    obtain ⟨e, -, rfl⟩ := List.mem_map.mp hx
    have := (List.mem_filter.mp hw).2
    simpa using this

/-! ## Held accesses that retry while no memory cell has a request at its port (R335) -/

/-- No cell has a request at its port. -/
def State.Quiescent (s : State) : Prop := ∀ c ∈ s.cores, ∀ l ∈ c.2.cells, l.2.held = []

theorem State.Quiescent.unhold (h : s.Quiescent) (pt : Nat) (p : Nat × Nat → Bool) : (s.unhold pt p).Quiescent := fun c hc l hl => by
  obtain ⟨e, he, rfl⟩ := List.mem_map.mp hc
  split at hl
  · obtain ⟨x, hx, rfl⟩ := List.mem_map.mp hl
    show x.2.held.map _ = []
    rw [h e he x hx]
    rfl
  · exact h e he l hl

theorem State.Quiescent.dropTranslations (h : s.Quiescent) (pt lo n : Nat) : (s.dropTranslations pt lo n).Quiescent := fun c hc l hl => by
  obtain ⟨e, he, rfl⟩ := List.mem_map.mp hc
  split at hl
  · exact h e he l hl
  · exact h e he l hl

theorem State.Quiescent.poke (h : s.Quiescent) (k hd off : Nat) (bs : List Byte) : (s.poke k hd off bs).Quiescent := fun c hc l hl => by
  rcases mem_aset (show c ∈ aset s.cores k ((s.core k).poked (s.agent k hd) (wordsOf off bs.length)) from hc) with rfl | hc
  · have cells : l ∈ (s.core k).cells := hl
    unfold State.core at cells
    cases ha : aget s.cores k with
    | none => rw [ha] at cells; cases cells
    | some c => rw [ha] at cells; exact h _ (mem_of_aget ha) l cells
  · exact h c hc l hl

theorem foldl_id {α β : Type} {f : β → α → β} {l : List α} (b : β) (h : ∀ a ∈ l, f b a = b) : l.foldl f b = b := by
  induction l with
  | nil => rfl
  | cons a l ih =>
    rw [List.foldl_cons, h a List.mem_cons_self]
    exact ih fun x hx => h x (List.mem_cons_of_mem a hx)

theorem State.Quiescent.retryHeld (h : s.Quiescent) (pt : Nat) (p : Nat × Nat → Bool) : s.retryHeld pt p = s.unhold pt p := by
  have q := h.unhold pt p
  unfold State.retryHeld
  refine foldl_id _ fun e he => ?_
  split
  · refine foldl_id _ fun c hc => if_neg ?_
    simp [q e he c hc]
  · rfl

theorem State.part_unhold (s : State) (pt : Nat) (p : Nat × Nat → Bool) : (s.unhold pt p).part pt = (s.part pt).retried p := by
  unfold State.part
  rw [State.unhold_parts, aget_aset, if_pos rfl]
  rfl

theorem KeepsRegs.unhold (s : State) (pt : Nat) (p : Nat × Nat → Bool) : KeepsRegs s (s.unhold pt p) := EachCore.unhold Core.SameRegs.lasts s pt p

/-! ## MIGR (R339) -/

theorem State.migrCause_error {c va target : Nat} (h : s.migrCause pt va target = .error c) : c = 0x17B ∨ c = 0x179 ∨ c = 0x17A := by
  unfold State.migrCause at h
  split at h
  · cases h; exact .inl rfl
  · dsimp only at h
    split at h
    · cases h; exact .inr (.inl rfl)
    · split at h
      · cases h; exact .inr (.inr rfl)
      · cases h

theorem State.rcMigr_refuses {c va dst : Nat} (hm : (s.part (s.partAt s.fcore)).migr = none) (ha : s.q s.fcore a = va) (hb : s.q s.fcore b = dst)
    (hc : s.migrCause (s.partAt s.fcore) va dst = .error c) : s.rcMigr d a b = s.rcFault s.fcore ⟨c, va, 0, false⟩ := by
  subst ha hb
  unfold State.rcMigr
  simp only [hm, hc]

/-- The state after MIGR has marked the leaf of a page. -/
def State.migrMarked (s : State) (pt va dst leafAt v size : Nat) : State :=
  (((s.poke (s.part pt).supervisor 8 (leafAt - spadBase (s.part pt).supervisor) (leBytes 8 v)).modPart pt (fun p => { p with migr := some ⟨va, size, leafAt, v, dst⟩ })).dropTranslations
    pt va size)

theorem State.rcMigr_marks {va dst leafAt e size : Nat} (hm : (s.part (s.partAt s.fcore)).migr = none) (ha : s.q s.fcore a = va) (hb : s.q s.fcore b = dst)
    (hc : s.migrCause (s.partAt s.fcore) va dst = .ok (leafAt, e, size)) :
    s.rcMigr d a b = s.migrMarked (s.partAt s.fcore) va dst leafAt (if bit e 4 then e else e + 16) size := by
  subst ha hb
  unfold State.rcMigr
  simp only [hm, hc]
  rfl

theorem State.migrMarked_spec (s : State) (pt va dst leafAt v size : Nat) :
    let u := s.migrMarked pt va dst leafAt v size
    SameRegs s u ∧ (∀ j, u.rc j = s.rc j) ∧ (u.part pt).migr = some ⟨va, size, leafAt, v, dst⟩ ∧ Untranslated u pt (s.part pt).isles va size ∧
    (s.Inv → spadBase (s.part pt).supervisor ≤ leafAt → Memory.readNat u.mem leafAt 8 = v % 2 ^ 64 ∧ MemBut s u leafAt 8) := by
  generalize hsup : (s.part pt).supervisor = sup
  generalize hw : (s.poke sup 8 (leafAt - spadBase sup) (leBytes 8 v)).modPart pt (fun p => { p with migr := some ⟨va, size, leafAt, v, dst⟩ }) = w
  have eq : s.migrMarked pt va dst leafAt v size = w.dropTranslations pt va size := by rw [← hw, ← hsup]; rfl
  have part : w.part pt = { s.part pt with migr := some ⟨va, size, leafAt, v, dst⟩ } := by rw [← hw]; exact State.part_modPart ..
  have cell (j l : Nat) : w.cell j l = s.cell j l := by rw [← hw]; exact State.cell_poke ..
  have rc (j : Nat) : w.rc j = s.rc j := by rw [← hw]; exact SameRc.poke s sup 8 (leafAt - spadBase sup) (leBytes 8 v) j
  have mem : w.mem = (s.poke sup 8 (leafAt - spadBase sup) (leBytes 8 v)).mem := by rw [← hw]; rfl
  rw [eq]
  have cell' (j l : Nat) : (w.dropTranslations pt va size).cell j l = s.cell j l := (w.cell_dropTranslations pt va size j l).trans (cell j l)
  have rc' (j : Nat) : (w.dropTranslations pt va size).rc j = s.rc j := (SameRc.dropTranslations w pt va size j).trans (rc j)
  have untr := w.dropTranslations_untranslated pt va size
  rw [part] at untr
  refine ⟨⟨fun _ _ => by rw [cell'], fun _ _ => by rw [cell'], fun _ _ _ => by unfold State.ctx; rw [cell'], fun _ _ _ => by unfold State.ctx; rw [cell'], fun _ => by rw [rc']⟩,
    rc', ?_, untr, fun hi hle => ?_⟩
  · show (w.part pt).migr = _
    rw [part]
  · have num := State.poke_number (u := w.dropTranslations pt va size) hi 8 8 mem
    rwa [Nat.add_sub_cancel' hle] at num

theorem State.endMigr_quiet (h : s.Quiescent) (pt : Nat) (g : Migr) :
    let u := s.endMigr pt g
    KeepsRegs s u ∧ (u.part pt).migr = none ∧ u.posts = s.posts ∧ u.seqs = s.seqs ∧ u.mem = s.mem ∧ u.fcore = s.fcore ∧ u.time = s.time := by
  generalize hv : s.modPart pt (fun p => { p with migr := none }) = v
  have q : v.Quiescent := by rw [← hv]; exact h
  have eq : s.endMigr pt g = (v.dropTranslations pt g.va g.size).unhold pt (fun c => c.1 == 0x17D && decide (g.va ≤ c.2) && decide (c.2 < g.va + g.size)) := by
    rw [← (q.dropTranslations pt g.va g.size).retryHeld, ← hv]
    rfl
  have part : (v.part pt).migr = none := by rw [← hv, State.part_modPart]
  have rest : v = { s with parts := v.parts } := by rw [← hv]; rfl
  have regs := ((KeepsRegs.of_cores (s := s) (t := v) (by rw [rest])).trans (.dropTranslations v pt g.va g.size)).trans
    (.unhold _ pt (fun c => c.1 == 0x17D && decide (g.va ≤ c.2) && decide (c.2 < g.va + g.size)))
  rw [eq]
  refine ⟨regs, ?_, by rw [rest]; rfl, by rw [rest]; rfl, by rw [rest]; rfl, by rw [rest]; rfl, by rw [rest]; rfl⟩
  rw [State.part_unhold]
  exact part

theorem State.rcMigr_fails {g : Migr} (hm : (s.part (s.partAt s.fcore)).migr = some g)
    (hl : Memory.readNat (s.copyPage (bits g.leaf 47 12 * 4096) g.target g.size).mem g.leafAt 8 ≠ g.leaf) :
    s.rcMigr d a b = ((s.copyPage (bits g.leaf 47 12 * 4096) g.target g.size).endMigr (s.partAt s.fcore) g).rcFault s.fcore ⟨0x17C, g.va, 0, false⟩ := by
  unfold State.rcMigr
  simp only [hm]
  exact if_pos hl

theorem State.rcMigr_moves {g : Migr} (hm : (s.part (s.partAt s.fcore)).migr = some g)
    (hl : Memory.readNat (s.copyPage (bits g.leaf 47 12 * 4096) g.target g.size).mem g.leafAt 8 = g.leaf) :
    s.rcMigr d a b = (((s.copyPage (bits g.leaf 47 12 * 4096) g.target g.size).poke (s.part (s.partAt s.fcore)).supervisor 8 (g.leafAt - spadBase (s.part (s.partAt s.fcore)).supervisor)
      (leBytes 8 (g.leaf - 16 - bits g.leaf 47 12 * 4096 + g.target))).endMigr (s.partAt s.fcore) g).rcPut d (bits g.leaf 47 12 * 4096) := by
  unfold State.rcMigr
  simp only [hm]
  exact if_neg (not_not.mpr hl)

/-! ## SCRUB (R340) -/

theorem Accessed.postRc (s : State) (k sev : Nat) (f : Fail) : Accessed s (s.postRc k sev f) := by
  unfold State.postRc
  split <;> exact .of_cores rfl

theorem State.scrubFrom_spec (n : Nat) : ∀ (s : State) (tile : Nat), Accessed s (s.scrubFrom k pt tile n).1 ∧ ∀ m, (s.scrubFrom k pt tile n).2 = .ok m → m ≤ n := by
  induction n with
  | zero => exact fun s tile => ⟨.refl s, fun m h => by cases h; exact le_refl 0⟩
  | succ n ih =>
    intro s tile
    have none (t : State) (h : Accessed s t) : Accessed s (t, (Except.ok 0 : Except Nat Nat)).1 ∧ ∀ m, (t, (Except.ok 0 : Except Nat Nat)).2 = .ok m → m ≤ n + 1 :=
      ⟨h, fun m e => by cases e; exact Nat.zero_le _⟩
    have tr := Accessed.of_read (translate_onlyRead s k pt (tile * 2048) true)
    unfold State.scrubFrom
    dsimp only
    split
    · next hq => exact none _ ((tr.of_fst hq).trans (.postRc ..))
    · next t pa hq =>
      have tr := tr.of_fst hq
      split
      · exact none t tr
      · have se := tr.trans (.sealed t k pt tile [] 0 [] [])
        split
        · next u c hs =>
          have se := se.of_fst hs
          split
          · exact ⟨se, fun m e => by cases e⟩
          · exact none _ (se.trans (.postRc ..))
        · next u _ hs =>
          have se := se.of_fst hs
          obtain ⟨acc, le⟩ := ih u (tile + 1)
          have acc := se.trans acc
          split
          · next v m hv =>
            rw [hv] at acc le
            exact ⟨acc, fun m' e => by cases e; exact Nat.succ_le_succ (le m rfl)⟩
          · next r hr =>
            refine ⟨acc, fun m e => ?_⟩
            exact (hr _ m (Prod.ext rfl e)).elim

theorem State.scrubFrom_first {va pa : Nat} (hn : 0 < n) (ha : va % 2048 = 0) (ht : s.translate k pt va true = (t, .ok pa)) (hs : (t.tileMeta pa).st ≠ 2) :
    s.scrubFrom k pt (va / 2048) n = (t, .ok 0) := by
  obtain ⟨m, rfl⟩ := Nat.exists_eq_add_of_lt hn
  have at' : va / 2048 * 2048 = va := by omega
  rw [show 0 + m + 1 = m + 1 by omega]
  unfold State.scrubFrom
  simp only [at', ht]
  exact if_pos hs

theorem State.rcScrub_unaligned {va : Nat} (ha : s.q s.fcore a = va) (h : va % 2048 ≠ 0) : s.rcScrub d a b = s.rcFault s.fcore ⟨0x0AA, va, 0, false⟩ := by
  subst ha
  exact if_pos h

theorem State.rcScrub_counts {va dst n : Nat} (ha : s.q s.fcore a = va) (hb : s.q s.fcore b = dst) (h : va % 2048 = 0)
    (hs : s.scrubFrom s.fcore (s.partAt s.fcore) (va / 2048) dst = (t, .ok n)) : s.rcScrub d a b = t.rcPut d n := by
  subst ha hb
  unfold State.rcScrub
  dsimp only
  rw [if_neg (not_not.mpr h)]
  simp only [hs]

end Sys2Proof.Machine
end

section
/-! A region that begins to drain: its markers, and what they leave alone (R321, R322). -/

namespace Sys2Proof.Machine

variable {s t u : State} {g : Region} {k l x p lead : Nat}

/-! ## Lists whose members name what they come from -/

/-- A list that a key tells apart by part has no repeats where its parts have none. -/
theorem nodup_flatMap_of_key {α β : Type} {f : α → List β} (key : β → α) {l : List α} (hl : l.Nodup) (hf : ∀ a ∈ l, (f a).Nodup) (hk : ∀ a, ∀ b ∈ f a, key b = a) :
    (l.flatMap f).Nodup :=
  List.nodup_flatMap.mpr ⟨hf, hl.imp fun {a b} ne y ha hb => ne ((hk a y ha).symm.trans (hk b y hb))⟩

/-! ## Ports in use -/

theorem State.cellPorts_nodup (s : State) (k l : Nat) : (s.cellPorts k l).Nodup := by
  refine nodup_flatMap_of_key Prod.fst (List.nodup_range.filter _) (fun x _ => ?_) (fun x e he => ?_)
  · exact (List.nodup_range.filter _).map fun a b h => (Prod.mk.inj h).2
  · obtain ⟨p, -, rfl⟩ := List.mem_map.mp he
    rfl

/-- A port of a cell that no unit of a region feeds, as a place for a marker. -/
def State.markPlace (s : State) (cores : List Nat) (k l : Nat) (x : Nat × Nat) : Option Dest :=
  if forwardsMarks cores k l (pwSrc (s.portWord k l x.1 x.2)) then none else some ⟨k, l, x.1, x.2⟩

theorem State.markPlace_some {cores : List Nat} {x : Nat × Nat} {d : Dest} (h : s.markPlace cores k l x = some d) : d = ⟨k, l, x.1, x.2⟩ := by
  unfold State.markPlace at h
  split at h
  · cases h
  · exact (Option.some.inj h).symm

/-- The ports of a region's cells that take a marker from the controller. -/
def State.cellMarks (s : State) (cores : List Nat) : List Dest :=
  cores.flatMap (fun k => (List.range 32).flatMap (fun l => (s.cellPorts k l).filterMap (s.markPlace cores k l)))

/-- The ports of a region's engines that take one. -/
def State.engineMarks (s : State) (cores : List Nat) : List Dest :=
  cores.flatMap (fun k => if isKeyed k then [] else [32, 33, 35].filterMap (fun l =>
    let w := s.inWord k l 0 0
    if pwEn w && !forwardsMarks cores k l (pwSrc w) then some (⟨k, l, 0, 0⟩ : Dest) else none))

theorem State.cellMarks_nodup {cores : List Nat} (hc : cores.Nodup) (s : State) : (s.cellMarks cores).Nodup := by
  refine nodup_flatMap_of_key Dest.core hc (fun k _ => ?_) (fun k d hd => ?_)
  · refine nodup_flatMap_of_key Dest.loc List.nodup_range (fun l _ => ?_) (fun l d hd => ?_)
    · refine (s.cellPorts_nodup k l).filterMap fun a b d ha hb => ?_
      have ea := State.markPlace_some (Option.mem_def.mp ha)
      have eb := State.markPlace_some (Option.mem_def.mp hb)
      rw [ea] at eb
      exact Prod.ext (congrArg Dest.ctx eb) (congrArg Dest.port eb)
    · obtain ⟨x, -, h⟩ := List.mem_filterMap.mp hd
      rw [State.markPlace_some h]
  · obtain ⟨l, -, hl⟩ := List.mem_flatMap.mp hd
    obtain ⟨x, -, h⟩ := List.mem_filterMap.mp hl
    rw [State.markPlace_some h]

theorem State.mem_cellMarks {cores : List Nat} (hk : k ∈ cores) (hl : l < 32) (hx : (x, p) ∈ s.cellPorts k l) (hf : forwardsMarks cores k l (pwSrc (s.portWord k l x p)) = false) :
    (⟨k, l, x, p⟩ : Dest) ∈ s.cellMarks cores := by
  refine List.mem_flatMap.mpr ⟨k, hk, List.mem_flatMap.mpr ⟨l, List.mem_range.mpr hl, List.mem_filterMap.mpr ⟨(x, p), hx, ?_⟩⟩⟩
  unfold State.markPlace
  rw [hf]
  rfl

theorem State.engineMarks_loc {cores : List Nat} {d : Dest} (h : d ∈ s.engineMarks cores) : 32 ≤ d.loc := by
  obtain ⟨k, -, hd⟩ := List.mem_flatMap.mp h
  split at hd
  · cases hd
  · obtain ⟨l, hl, he⟩ := List.mem_filterMap.mp hd
    dsimp only at he
    split at he
    · rw [← Option.some.inj he]
      simp only [List.mem_cons, List.not_mem_nil, or_false] at hl
      show 32 ≤ l
      omega
    · cases he

/-! ## A token at a port leaves the others alone -/

theorem KeepsRegs.modPort (s : State) (k l x p : Nat) (f : Port → Port) : KeepsRegs s (s.modPort k l x p f) := by
  unfold State.modPort
  split
  · exact .modCtx s k l x (fun c => { c with ports := c.ports.modify p f }) fun _ => rfl
  · exact .modCore s k _ fun _ => .of_cells rfl ⟨rfl, rfl, rfl⟩

theorem KeepsRegs.pushPort (s : State) (d : Dest) (key : Nat) (tok : Token) (acq : Clr) (host : List HostPub) : KeepsRegs s (s.pushPort d key tok acq host) := by
  unfold State.pushPort
  dsimp only
  split
  · exact (KeepsRegs.modCell s d.core d.loc (fun c => { c with arr := (s.cell d.core d.loc).arr + 1 }) fun _ => ⟨rfl, rfl, fun _ => rfl⟩).trans (.modPort _ _ _ _ _ _)
  · exact (KeepsRegs.modCore s d.core (fun c => { c with matrix := { c.matrix with arr := (s.core d.core).matrix.arr + 1 } }) fun _ => .of_cells rfl ⟨rfl, rfl, rfl⟩).trans
      (.modPort _ _ _ _ _ _)

theorem SameRc.pushPort (s : State) (d : Dest) (key : Nat) (tok : Token) (acq : Clr) (host : List HostPub) : SameRc s (s.pushPort d key tok acq host) := by
  unfold State.pushPort
  dsimp only
  split
  · exact (SameRc.modCore s d.core (fun c => { c with cells := aset c.cells d.loc _ }) fun _ => rfl).trans (.modPort _ _ _ _ _ _)
  · exact (SameRc.modCore s d.core (fun c => { c with matrix := { c.matrix with arr := (s.core d.core).matrix.arr + 1 } }) fun _ => rfl).trans (.modPort _ _ _ _ _ _)

/-- A token comes to a port of its cell, and no other cell differs. -/
theorem State.cell_pushPort_eq (s : State) (d : Dest) (key : Nat) (tok : Token) (acq : Clr) (host : List HostPub) (i j : Nat) :
    (s.pushPort d key tok acq host).cell i j = if d.loc < 32 ∧ i = d.core ∧ j = d.loc then
      ({ s.cell i j with arr := (s.cell i j).arr + 1 } : Cell).modCtx d.ctx (fun c => { c with ports := c.ports.modify d.port (fun p =>
        p.push (pwBurst (s.inWord d.core d.loc d.ctx d.port)) (s.cell i j).arr key tok acq host) })
    else s.cell i j := by
  unfold State.pushPort State.modPort
  dsimp only
  split
  · next hd =>
    rw [State.cell_modCtx]
    by_cases h : i = d.core ∧ j = d.loc
    · obtain ⟨rfl, rfl⟩ := h
      simp [hd]
    · rw [if_neg h, if_neg fun hh => h hh.2, State.cell_modCell, if_neg h]
  · next hd =>
    rw [if_neg fun hh => hd hh.1]
    unfold State.cell
    rw [State.core_modCore, State.core_modCore]
    split
    · subst_vars; simp
    · simp_all

theorem State.passed_pushPort (s : State) (d : Dest) (key : Nat) (tok : Token) (acq : Clr) (host : List HostPub) (i j : Nat) :
    ((s.pushPort d key tok acq host).cell i j).passed = (s.cell i j).passed := by
  rw [State.cell_pushPort_eq]
  split <;> rfl

/-- A token at another port leaves a cell's port as it was. -/
theorem State.HasPort.pushPort_other (h : s.HasPort k l x p) {d : Dest} (hd : d ≠ ⟨k, l, x, p⟩) (key : Nat) (tok : Token) (acq : Clr) (host : List HostPub) :
    (s.pushPort d key tok acq host).fifoAt k l x p = s.fifoAt k l x p ∧ (s.pushPort d key tok acq host).HasPort k l x p := by
  obtain ⟨hl, hx, hp⟩ := h
  have eq := s.cell_pushPort_eq d key tok acq host k l
  by_cases hm : d.loc < 32 ∧ k = d.core ∧ l = d.loc
  · rw [if_pos hm] at eq
    generalize hf : (fun p : Port => p.push (pwBurst (s.inWord d.core d.loc d.ctx d.port)) (s.cell k l).arr key tok acq host) = f at eq
    have ctxs : ((s.pushPort d key tok acq host).cell k l).ctxs = (s.cell k l).ctxs.modify d.ctx (fun c => { c with ports := c.ports.modify d.port f }) := by rw [eq]; rfl
    have ctx : (s.pushPort d key tok acq host).ctx k l x = if x = d.ctx then { s.ctx k l x with ports := (s.ctx k l x).ports.modify d.port f } else s.ctx k l x := by
      show ((s.pushPort d key tok acq host).cell k l).ctxs.getD x {} = _
      rw [ctxs, getD_modify]
      by_cases e : x = d.ctx
      · subst e
        rw [if_pos rfl, if_pos hx, if_pos rfl]
        rfl
      · rw [if_neg e, if_neg e]
        rfl
    refine ⟨?_, hl, by rw [ctxs, List.length_modify]; exact hx, ?_⟩
    · unfold State.fifoAt State.port
      rw [if_pos hl, if_pos hl, ctx]
      split
      · next e =>
        have ne : p ≠ d.port := fun e' => hd (by rw [hm.2.1, hm.2.2, e, e'])
        show (((s.ctx k l x).ports.modify d.port f).getD p {}).fifo = _
        rw [getD_modify, if_neg ne]
      · rfl
    · rw [ctx]
      split
      · show p < ((s.ctx k l x).ports.modify d.port f).length
        rw [List.length_modify]
        exact hp
      · exact hp
  · rw [if_neg hm] at eq
    have ctx : (s.pushPort d key tok acq host).ctx k l x = s.ctx k l x := by unfold State.ctx; rw [eq]
    refine ⟨?_, hl, by rw [eq]; exact hx, by rw [ctx]; exact hp⟩
    unfold State.fifoAt State.port
    rw [if_pos hl, if_pos hl, ctx]

/-! ## Markers (R322) -/

/-- The same token comes to every port of a list. -/
def State.pushAll (s : State) (key : Nat) (tok : Token) (ds : List Dest) : State := ds.foldl (fun s d => s.pushPort d key tok [] []) s

theorem State.pushAll_rest (s : State) (key : Nat) (tok : Token) (ds : List Dest) : s.pushAll key tok ds = { s with cores := (s.pushAll key tok ds).cores } :=
  foldl_inv (P := fun t : State => t = { s with cores := t.cores }) (fun _ d h => State.cores_trans h (State.pushPort_rest _ d key tok [] [])) ds s rfl

theorem KeepsRegs.pushAll (s : State) (key : Nat) (tok : Token) (ds : List Dest) : KeepsRegs s (s.pushAll key tok ds) := .foldl _ (fun _ d => .pushPort _ d key tok [] []) ds s

theorem SameRc.pushAll (s : State) (key : Nat) (tok : Token) (ds : List Dest) : SameRc s (s.pushAll key tok ds) := SameRc.foldl _ (fun _ d => .pushPort _ d key tok [] []) ds s

theorem State.passed_pushAll (s : State) (key : Nat) (tok : Token) (ds : List Dest) (i j : Nat) : ((s.pushAll key tok ds).cell i j).passed = (s.cell i j).passed :=
  foldl_keeps (fun t : State => (t.cell i j).passed) _ (fun _ d => State.passed_pushPort _ d key tok [] [] i j) ds s

theorem State.HasPort.pushAll_others (h : s.HasPort k l x p) {ds : List Dest} (hd : (⟨k, l, x, p⟩ : Dest) ∉ ds) (key : Nat) (tok : Token) :
    (s.pushAll key tok ds).fifoAt k l x p = s.fifoAt k l x p ∧ (s.pushAll key tok ds).HasPort k l x p := by
  induction ds generalizing s with
  | nil => exact ⟨rfl, h⟩
  | cons d ds ih =>
    obtain ⟨hn, hds⟩ := not_or.mp fun hh => hd (List.mem_cons.mpr hh)
    obtain ⟨fifo, port⟩ := h.pushPort_other (Ne.symm hn) key tok [] []
    obtain ⟨fifo', port'⟩ := ih port hds
    exact ⟨fifo'.trans fifo, port'⟩

/-- A port that stands once in a list takes one token. -/
theorem State.HasPort.pushAll_joins (h : s.HasPort k l x p) {ds : List Dest} (hn : ds.Nodup) (hd : (⟨k, l, x, p⟩ : Dest) ∈ ds) (key : Nat) (tok : Token) :
    (∃ q : PortTok, (s.pushAll key tok ds).fifoAt k l x p = s.fifoAt k l x p ++ [q] ∧ q.Holds tok) ∧ (s.pushAll key tok ds).HasPort k l x p := by
  induction ds generalizing s with
  | nil => cases hd
  | cons d ds ih =>
    obtain ⟨hnd, hnds⟩ := List.nodup_cons.mp hn
    by_cases e : d = ⟨k, l, x, p⟩
    · subst e
      obtain ⟨⟨q, joined, holds⟩, port⟩ := State.pushPort_joins h key tok [] []
      obtain ⟨fifo, port'⟩ := port.pushAll_others hnd key tok
      exact ⟨⟨q, fifo.trans joined, holds⟩, port'⟩
    · obtain ⟨fifo, port⟩ := h.pushPort_other e key tok [] []
      have mem : (⟨k, l, x, p⟩ : Dest) ∈ ds := (List.mem_cons.mp hd).resolve_left (Ne.symm e)
      obtain ⟨⟨q, joined, holds⟩, port'⟩ := ih port hnds mem
      exact ⟨⟨q, joined.trans (congrArg (· ++ [q]) fifo), holds⟩, port'⟩

/-- The marker of a drain. -/
def Region.mark (g : Region) : Token := markToken Reg.empty g.sub 0 0

/-- A region whose markers are injected. -/
def Region.marks (r : Region) : Region := { r with marked := true }

theorem State.injectMarkers_none (h : s.regionAt lead = none) : s.injectMarkers lead = s := by
  unfold State.injectMarkers
  rw [h]

theorem State.injectMarkers_some (h : s.regionAt lead = some g) : s.injectMarkers lead =
    (s.pushAll (edgeKey lead 48 0 0) g.mark (s.cellMarks g.coreList ++ s.engineMarks g.coreList)).modRegion lead Region.marks := by
  unfold State.injectMarkers
  rw [h]
  rfl

/-- Markers change ports and the mark of the region, and leave every controller and every register alone. -/
theorem State.injectMarkers_spec (s : State) (lead : Nat) :
    s.injectMarkers lead = { s with cores := (s.injectMarkers lead).cores, regions := (s.injectMarkers lead).regions } ∧
    (∀ r ∈ (s.injectMarkers lead).regions, ∃ q ∈ s.regions, r = q ∨ (q.lead = lead ∧ r = q.marks)) ∧
    KeepsRegs s (s.injectMarkers lead) ∧ SameRc s (s.injectMarkers lead) ∧ ∀ i j, ((s.injectMarkers lead).cell i j).passed = (s.cell i j).passed := by
  cases h : s.regionAt lead with
  | none =>
    rw [State.injectMarkers_none h]
    exact ⟨rfl, fun r hr => ⟨r, hr, .inl rfl⟩, .refl s, .refl s, fun _ _ => rfl⟩
  | some g =>
    rw [State.injectMarkers_some h]
    generalize s.cellMarks g.coreList ++ s.engineMarks g.coreList = ds
    have rest := s.pushAll_rest (edgeKey lead 48 0 0) g.mark ds
    have regs := KeepsRegs.pushAll s (edgeKey lead 48 0 0) g.mark ds
    have rc := SameRc.pushAll s (edgeKey lead 48 0 0) g.mark ds
    have passed := s.passed_pushAll (edgeKey lead 48 0 0) g.mark ds
    generalize s.pushAll (edgeKey lead 48 0 0) g.mark ds = w at *
    refine ⟨by rw [rest]; rfl, fun r hr => ?_, regs.trans (.of_cores rfl), rc, passed⟩
    obtain ⟨q, hq, rfl⟩ := List.mem_map.mp hr
    have hq : q ∈ s.regions := by rw [rest] at hq; exact hq
    by_cases e : q.lead = lead
    · exact ⟨q, hq, .inr ⟨e, if_pos e⟩⟩
    · exact ⟨q, hq, .inl (if_neg e)⟩

/-! ## The beginning of a drain -/

/-- A region begins to drain. -/
def Region.drains (r : Region) : Region := { r with st := .draining, pending := false, marked := false }

theorem Region.drains_stands : Stands Region.drains := fun _ => ⟨rfl, rfl, rfl⟩

/-- A core none of whose units has passed a marker. -/
def Core.unpassed (c : Core) : Core :=
  { c with
    cells := c.cells.map (fun (e : Nat × Cell) => (e.1, e.2.unpassed))
    matrix := { c.matrix with passed := false } }

theorem Core.SameRegs.unpassed (c : Core) : c.SameRegs c.unpassed := .mapCells (fun _ => Cell.unpassed) rfl (fun _ _ => ⟨rfl, rfl, fun _ => rfl⟩) ⟨rfl, rfl, rfl⟩

theorem Core.cell_unpassed (c : Core) (l : Nat) : (aget c.unpassed.cells l).getD {} = ((aget c.cells l).getD {}).unpassed := by
  have cells : aget c.unpassed.cells l = (aget c.cells l).map Cell.unpassed := aget_map c.cells (fun _ => Cell.unpassed) l
  rw [cells]
  cases aget c.cells l <;> rfl

/-- The state of a region that drains, before its markers. -/
def State.draining (s : State) (lead : Nat) : State := (s.modRegion lead Region.drains).modCores (s.regionCores lead) Core.unpassed

theorem State.beginDrain_eq (s : State) (lead : Nat) : s.beginDrain lead = if (s.rc lead).loads = [] then (s.draining lead).injectMarkers lead else s.draining lead := rfl

theorem State.draining_rest (s : State) (lead : Nat) : s.draining lead = { s.modRegion lead Region.drains with cores := (s.draining lead).cores } := State.modCores_rest ..

theorem State.core_draining (s : State) (lead j : Nat) : (s.draining lead).core j = if j ∈ s.regionCores lead then (s.core j).unpassed else s.core j :=
  State.core_modCores (s.regionCores_nodup lead) (s.modRegion lead Region.drains) Core.unpassed j

theorem State.cell_draining (s : State) (lead j l : Nat) : (s.draining lead).cell j l = if j ∈ s.regionCores lead then (s.cell j l).unpassed else s.cell j l := by
  unfold State.cell
  rw [State.core_draining]
  split
  · exact Core.cell_unpassed _ l
  · rfl

theorem KeepsRegs.draining (s : State) (lead : Nat) : KeepsRegs s (s.draining lead) :=
  (KeepsRegs.of_cores rfl).trans (.modCores (s.modRegion lead Region.drains) (s.regionCores lead) Core.unpassed Core.SameRegs.unpassed)

theorem SameRc.draining (s : State) (lead : Nat) : SameRc s (s.draining lead) := fun j => by
  unfold State.rc
  rw [State.core_draining]
  split <;> rfl

/-- What the beginning of a drain leaves: the region drains, and no register and no controller differs. -/
theorem State.beginDrain_spec (s : State) (lead : Nat) :
    s.beginDrain lead = { s with cores := (s.beginDrain lead).cores, regions := (s.beginDrain lead).regions } ∧ KeepsRegs s (s.beginDrain lead) ∧ SameRc s (s.beginDrain lead) ∧
    (∀ r ∈ (s.beginDrain lead).regions, ∃ q ∈ s.regions, r.lead = q.lead ∧ r.part = q.part ∧ r.capture = q.capture ∧ (if q.lead = lead then r.st = .draining ∧ r.pending = false else r = q)) ∧
    ∀ j ∈ s.regionCores lead, ∀ l, ((s.beginDrain lead).cell j l).passed = false := by
  have regs := KeepsRegs.draining s lead
  have rc := SameRc.draining s lead
  have rest := s.draining_rest lead
  have regions (r : Region) (hr : r ∈ (s.draining lead).regions) : ∃ q ∈ s.regions, r = if q.lead = lead then q.drains else q := by
    rw [rest] at hr
    obtain ⟨q, hq, rfl⟩ := List.mem_map.mp hr
    exact ⟨q, hq, rfl⟩
  have passed (j : Nat) (hj : j ∈ s.regionCores lead) (l : Nat) : ((s.draining lead).cell j l).passed = false := by
    rw [State.cell_draining, if_pos hj]
    rfl
  obtain ⟨rest', regions', regs', rc', passed'⟩ := (s.draining lead).injectMarkers_spec lead
  rw [State.beginDrain_eq]
  generalize s.draining lead = w at *
  split
  · refine ⟨?_, regs.trans regs', rc.trans rc', fun r hr => ?_, fun j hj l => (passed' j l).trans (passed j hj l)⟩
    · rw [rest', rest]; rfl
    · obtain ⟨y, hy, h⟩ := regions' r hr
      obtain ⟨q, hq, rfl⟩ := regions y hy
      refine ⟨q, hq, ?_⟩
      by_cases e : q.lead = lead
      · rw [if_pos e] at h ⊢
        rcases h with rfl | ⟨-, rfl⟩ <;> exact ⟨rfl, rfl, rfl, rfl, rfl⟩
      · rw [if_neg e] at h ⊢
        rcases h with rfl | ⟨h, -⟩
        · exact ⟨rfl, rfl, rfl, rfl⟩
        · exact absurd h e
  · refine ⟨by rw [rest]; rfl, regs, rc, fun r hr => ?_, passed⟩
    obtain ⟨q, hq, rfl⟩ := regions r hr
    refine ⟨q, hq, ?_⟩
    by_cases e : q.lead = lead
    · rw [if_pos e, if_pos e]; exact ⟨rfl, rfl, rfl, rfl, rfl⟩
    · rw [if_neg e, if_neg e]; exact ⟨rfl, rfl, rfl, rfl⟩

end Sys2Proof.Machine
end

section
/-! A region that drains at once or for a checkpoint (R321, R322, R377). -/

namespace Sys2Proof.Machine

variable {s t u : State} {g : Region} {k pt : Nat}

/-! ## A drain and its markers -/

theorem State.ctx_draining (s : State) (lead i j x : Nat) : (s.draining lead).ctx i j x = s.ctx i j x := by
  unfold State.ctx
  rw [State.cell_draining]
  split <;> rfl

theorem State.HasPort.draining {l x p : Nat} (h : s.HasPort k l x p) (lead : Nat) : (s.draining lead).HasPort k l x p ∧ (s.draining lead).fifoAt k l x p = s.fifoAt k l x p := by
  obtain ⟨hl, hx, hp⟩ := h
  have ctxs : ((s.draining lead).cell k l).ctxs = (s.cell k l).ctxs := by
    rw [State.cell_draining]
    split <;> rfl
  refine ⟨⟨hl, by rwa [ctxs], by rwa [State.ctx_draining]⟩, ?_⟩
  unfold State.fifoAt State.port
  rw [if_pos hl, if_pos hl, State.ctx_draining]

theorem State.cellPorts_draining (s : State) (lead i l : Nat) : (s.draining lead).cellPorts i l = s.cellPorts i l := by
  have mem : (s.draining lead).mem = s.mem := by rw [State.draining_rest]; rfl
  unfold State.cellPorts State.loadedCtxs
  simp only [State.ctx_draining, portWord_mem mem]

/-- A region that begins to drain does so with a marker in every port that no unit of it feeds. -/
theorem State.beginDrain_drains (hg : s.regionAt g.lead = some g) : Drains s (s.beginDrain g.lead) g g.sub where
  st r hr hl := by
    obtain ⟨-, -, -, regions, -⟩ := s.beginDrain_spec g.lead
    obtain ⟨q, -, e, -, -, h⟩ := regions r hr
    rw [if_pos (e ▸ hl)] at h
    refine ⟨h.1, h.2, ?_⟩
    rw [State.beginDrain_eq] at hr
    have rest := s.draining_rest g.lead
    by_cases loads : (s.rc g.lead).loads = []
    · have at' : (s.draining g.lead).regionAt g.lead = some g.drains := by
        rw [regionAt_congr (t := s.draining g.lead) (s := s.modRegion g.lead Region.drains) (by rw [rest]), State.regionAt_modRegion Region.drains_stands, hg]
        exact congrArg some (if_pos rfl)
      rw [if_pos loads, State.injectMarkers_some at'] at hr
      obtain ⟨y, -, -, rfl⟩ := State.mem_modRegion hr hl
      rw [decide_eq_true loads]
      rfl
    · rw [if_neg loads, rest] at hr
      obtain ⟨y, -, -, rfl⟩ := State.mem_modRegion (f := Region.drains) hr hl
      rw [decide_eq_false loads]
      rfl
  passed k hk l := (s.beginDrain_spec g.lead).2.2.2.2 k (by rwa [s.regionCores_of_regionAt hg]) l
  marks loads k hk l x p hp hx hf := by
    have at' : (s.draining g.lead).regionAt g.lead = some g.drains := by
      rw [regionAt_congr (t := s.draining g.lead) (s := s.modRegion g.lead Region.drains) (by rw [State.draining_rest]), State.regionAt_modRegion Region.drains_stands, hg]
      exact congrArg some (if_pos rfl)
    obtain ⟨port, fifo⟩ := hp.draining g.lead
    have mem : (s.draining g.lead).mem = s.mem := by rw [State.draining_rest]; rfl
    have inCells : (⟨k, l, x, p⟩ : Dest) ∈ (s.draining g.lead).cellMarks g.coreList :=
      State.mem_cellMarks hk hp.1 (by rwa [State.cellPorts_draining]) (by rwa [portWord_mem mem])
    have notInEngines : (⟨k, l, x, p⟩ : Dest) ∉ (s.draining g.lead).engineMarks g.coreList := fun h => absurd (State.engineMarks_loc h) (Nat.not_le.mpr hp.1)
    obtain ⟨⟨q, joined, holds⟩, port'⟩ := port.pushAll_joins (State.cellMarks_nodup g.coreList_nodup _) inCells (edgeKey g.lead 48 0 0) g.drains.mark
    have after := (port'.pushAll_others notInEngines (edgeKey g.lead 48 0 0) g.drains.mark).1
    refine ⟨q, ?_, holds.kind, holds.cls⟩
    rw [State.beginDrain_eq, if_pos loads, State.injectMarkers_some at', ← fifo, ← joined, ← after]
    show ((s.draining g.lead).pushAll _ _ (_ ++ _)).fifoAt k l x p = _
    unfold State.pushAll
    rw [List.foldl_append]
    rfl

/-! ## A region asked to drain -/

/-- A region that is asked to drain. -/
def Region.asked (capture : Bool) (time : Nat) (later : Bool) (r : Region) : Region := { r with capture := capture, since := time, pending := later }

theorem Region.asked_stands (capture : Bool) (time : Nat) (later : Bool) : Stands (Region.asked capture time later) := fun _ => ⟨rfl, rfl, rfl⟩

theorem State.askDrain_now (s : State) (lead : Nat) (capture : Bool) : s.askDrain lead capture false = (s.modRegion lead (Region.asked capture s.time false)).beginDrain lead := rfl

theorem State.askDrain_later (s : State) (lead : Nat) (capture : Bool) : s.askDrain lead capture true = s.modRegion lead (Region.asked capture s.time true) := rfl

theorem State.askDrain_spec (s : State) (lead : Nat) (capture : Bool) :
    s.askDrain lead capture false = { s with cores := (s.askDrain lead capture false).cores, regions := (s.askDrain lead capture false).regions } ∧
    KeepsRegs s (s.askDrain lead capture false) ∧ SameRc s (s.askDrain lead capture false) ∧
    ∀ r ∈ (s.askDrain lead capture false).regions, ∃ q ∈ s.regions, r.lead = q.lead ∧ r.part = q.part ∧ (if q.lead = lead then r.st = .draining ∧ r.capture = capture else r = q) := by
  rw [State.askDrain_now]
  obtain ⟨rest, regs, rc, regions, -⟩ := (s.modRegion lead (Region.asked capture s.time false)).beginDrain_spec lead
  refine ⟨by rw [rest]; rfl, (KeepsRegs.of_cores rfl).trans regs, (SameRc.of_cores rfl).trans rc, fun r hr => ?_⟩
  obtain ⟨y, hy, hl, hp, hc, h⟩ := regions r hr
  obtain ⟨q, hq, rfl⟩ := List.mem_map.mp hy
  refine ⟨q, hq, ?_⟩
  by_cases e : q.lead = lead
  · simp only [if_pos e] at hl hp hc h
    rw [if_pos (show (q.asked capture s.time false).lead = lead from e)] at h
    rw [if_pos e]
    exact ⟨hl, hp, h.1, hc⟩
  · simp only [if_neg e] at hl hp hc h
    rw [if_neg e]
    exact ⟨hl, hp, h⟩

theorem State.askDrain_drains (hg : s.regionAt g.lead = some g) : Drains s (s.askDrain g.lead false false) g 0 := by
  have at' : (s.modRegion g.lead (Region.asked false s.time false)).regionAt g.lead = some (g.asked false s.time false) := by
    rw [State.regionAt_modRegion (Region.asked_stands false s.time false), hg]
    exact congrArg some (if_pos rfl)
  obtain ⟨st, passed, marks⟩ := State.beginDrain_drains (g := g.asked false s.time false) at'
  have cores : (g.asked false s.time false).coreList = g.coreList := (Region.asked_stands false s.time false).coreList g
  rw [cores] at passed marks
  exact ⟨st, passed, marks⟩

/-! ## Regions that a checkpoint captures (R377) -/

theorem regionHandle_inj {a b : Nat} (h : regionHandle a = regionHandle b) : a = b := by
  unfold regionHandle agentId at h
  omega

theorem State.regionOf_some {h : Nat} (hr : s.regionOf pt h = some g) : g ∈ s.regions ∧ g.part = pt ∧ regionHandle g.lead = h := by
  unfold State.regionOf at hr
  have p := List.find?_some hr
  simp only [Bool.and_eq_true, beq_iff_eq] at p
  exact ⟨List.mem_of_find?_eq_some hr, p.1, p.2⟩

theorem State.regionOf_none {h : Nat} (hr : s.regionOf pt h = none) {r : Region} (hm : r ∈ s.regions) : ¬(r.part = pt ∧ regionHandle r.lead = h) := by
  unfold State.regionOf at hr
  have := List.find?_eq_none.mp hr r hm
  simpa only [Bool.and_eq_true, beq_iff_eq] using this

/-- The regions of a partition that a handle names drain for a checkpoint. -/
def State.Captures (s : State) (pt h : Nat) : Prop := ∀ r ∈ s.regions, r.part = pt → regionHandle r.lead = h → r.st = .draining ∧ r.capture = true

/-- The region of a partition that a handle names is captured. -/
def State.captureOne (s : State) (pt h : Nat) : State :=
  match s.regionOf pt h with
  | some g => s.askDrain g.lead true false
  | none => s

theorem State.captureOne_spec (s : State) (pt h : Nat) :
    s.captureOne pt h = { s with cores := (s.captureOne pt h).cores, regions := (s.captureOne pt h).regions } ∧ KeepsRegs s (s.captureOne pt h) ∧
    (s.captureOne pt h).Captures pt h ∧ ∀ j, s.Captures pt j → (s.captureOne pt h).Captures pt j := by
  unfold State.captureOne
  split
  · next g hg =>
    obtain ⟨-, gp, gh⟩ := State.regionOf_some hg
    obtain ⟨rest, regs, -, regions⟩ := s.askDrain_spec g.lead true
    refine ⟨rest, regs, fun r hr hp hh => ?_, fun j hj r hr hp hh => ?_⟩
    · obtain ⟨q, -, hl, -, h'⟩ := regions r hr
      rwa [if_pos (regionHandle_inj ((congrArg regionHandle hl).symm.trans (hh.trans gh.symm)))] at h'
    · obtain ⟨q, hq, hl, hp', h'⟩ := regions r hr
      split at h'
      · exact h'
      · subst h'; exact hj r hq hp hh
  · next hn => exact ⟨rfl, .refl s, fun r hr hp hh => absurd ⟨hp, hh⟩ (State.regionOf_none hn hr), fun _ h => h⟩

theorem State.capture_spec (hs : List Nat) : ∀ s : State,
    s.capture pt hs = { s with cores := (s.capture pt hs).cores, regions := (s.capture pt hs).regions } ∧ KeepsRegs s (s.capture pt hs) ∧
    (∀ h ∈ hs, (s.capture pt hs).Captures pt h) ∧ ∀ j, s.Captures pt j → (s.capture pt hs).Captures pt j := by
  induction hs with
  | nil => exact fun s => ⟨rfl, .refl s, fun h hh => (List.not_mem_nil hh).elim, fun _ h => h⟩
  | cons h hs ih =>
    intro s
    obtain ⟨rest, regs, cap, keep⟩ := s.captureOne_spec pt h
    obtain ⟨rest', regs', cap', keep'⟩ := ih (s.captureOne pt h)
    have eq : s.capture pt (h :: hs) = (s.captureOne pt h).capture pt hs := rfl
    rw [eq]
    refine ⟨by rw [rest', rest], regs.trans regs', fun j hj => ?_, fun j hj => keep' j (keep j hj)⟩
    rcases List.mem_cons.mp hj with rfl | hj
    · exact keep' j cap
    · exact cap' j hj

end Sys2Proof.Machine
end

section
/-! Checkpoints of a controller (R375 to R378). -/

namespace Sys2Proof.Machine

variable {s t u w : State} {g : Region} {d a k pt va : Nat}

/-! ## What ends a checkpoint or a restore -/

/-- The part of a partition's state that the return of tiles to the pool leaves alone. -/
theorem State.part_reclaim (s : State) (pt : Nat) (was : List Nat) : (s.reclaim pt was).part pt = { s.part pt with chans := ((s.reclaim pt was).part pt).chans } := by
  unfold State.reclaim
  generalize was.filter (fun x => !s.named pt x) = gone
  split
  · rfl
  · rw [State.part_unhold]
    have parts := s.foldl_releaseTile_parts pt gone
    have part : (gone.foldl (fun t x => t.releaseTile pt x) s).part pt = s.part pt := by unfold State.part; rw [parts]
    rw [part]
    rfl

theorem Released.fcore (h : Released s t) : t.fcore = s.fcore := by rw [h.rest]
theorem Released.posts (h : Released s t) : t.posts = s.posts := by rw [h.rest]
theorem Released.seqs (h : Released s t) : t.seqs = s.seqs := by rw [h.rest]
theorem Released.time (h : Released s t) : t.time = s.time := by rw [h.rest]

theorem KeepsRegs.reclaim (s : State) (pt : Nat) (was : List Nat) : KeepsRegs s (s.reclaim pt was) := EachCore.reclaim Core.SameRegs.lasts s pt was

/-- A fault's record depends on the executing core, the time and the numbers of records. -/
theorem State.highRecord_congr (hk : t.fcore = s.fcore) (ht : t.time = s.time) (hq : t.seqs = s.seqs) (c va : Nat) : t.highRecord c va = s.highRecord c va := by
  unfold State.highRecord State.faultRecord
  rw [hk, ht, hq]

theorem State.rcExtern_faults {c : Nat} (h : holdsAccess c = false) (va : Nat) : s.rcExtern (c, va) = s.rcFault s.fcore ⟨c, va, 0, false⟩ := by
  unfold State.rcExtern
  exact if_neg (by rw [h]; decide)

theorem State.endCkpt_spec (s : State) (pt : Nat) : KeepsRegs s (s.endCkpt pt) ∧ ((s.endCkpt pt).part pt).ckpt = none ∧ (s.endCkpt pt).posts = s.posts ∧
    (s.endCkpt pt).seqs = s.seqs ∧ (s.endCkpt pt).time = s.time ∧ (s.endCkpt pt).fcore = s.fcore ∧ HeldRc s (s.endCkpt pt) := by
  unfold State.endCkpt
  generalize hv : s.modPart pt (fun p => { p with ckpt := none }) = v
  have rest : v = { s with parts := v.parts } := by rw [← hv]; rfl
  have part : (v.part pt).ckpt = none := by rw [← hv, State.part_modPart]
  have rel := v.reclaim_spec pt (s.busyTiles pt)
  refine ⟨(KeepsRegs.of_cores (by rw [rest])).trans (.reclaim v pt _), by rw [State.part_reclaim]; exact part, ?_, ?_, ?_, ?_, ?_⟩
  · rw [rel.posts, rest]
  · rw [rel.seqs, rest]
  · rw [rel.time, rest]
  · rw [rel.fcore, rest]
  · exact (HeldRc.of_same (.of_cores (by rw [rest]))).trans rel.rc

/-! ## A region whose capture is given up -/

theorem Rc.level_resumed (r : Rc) : r.resumed.level = r.level := by
  unfold Rc.resumed
  split <;> rfl

/-- The capture of a region is given up: it runs on. -/
def State.abandonOne (s : State) (pt h : Nat) : State :=
  match s.regionOf pt h with
  | some g => if g.capture then s.runOn g.lead else s
  | none => s

/-- What regions that run on leave: cores and regions alone differ, and no controller changes its level. -/
structure RunsOn (s t : State) : Prop where
  rest  : t = { s with cores := t.cores, regions := t.regions }
  level : ∀ j, (t.rc j).level = (s.rc j).level

theorem RunsOn.refl (s : State) : RunsOn s s := ⟨rfl, fun _ => rfl⟩
theorem RunsOn.trans (h : RunsOn s t) (g : RunsOn t u) : RunsOn s u := ⟨by rw [g.rest, h.rest], fun j => (g.level j).trans (h.level j)⟩
theorem RunsOn.runOn (s : State) (lead : Nat) : RunsOn s (s.runOn lead) where
  rest := by rw [s.runOn_rest lead]; rfl
  level j := by
    rw [State.rc_runOn]
    split
    · exact Rc.level_resumed _
    · rfl

theorem RunsOn.abandonOne (s : State) (pt h : Nat) : RunsOn s (s.abandonOne pt h) := by
  unfold State.abandonOne
  split
  · split
    · exact .runOn s _
    · exact .refl s
  · exact .refl s

theorem RunsOn.abandonCapture (s : State) (pt : Nat) (hs : List Nat) : RunsOn s (s.abandonCapture pt hs) :=
  foldl_inv (P := RunsOn s) (fun t h ht => ht.trans (.abandonOne t pt h)) hs s (.refl s)

/-! ## The start of a checkpoint -/

theorem State.ckptCause_mem {b : List Byte} {sizes : List Nat} {c : Nat} (h : s.ckptCause pt b sizes = some c) : c = 0x0B3 ∨ c = 0x0B6 ∨ c = 0x0F4 ∨ c = 0x0F5 := by
  unfold State.ckptCause firstBad at h
  obtain ⟨x, hx, rfl⟩ := Option.map_eq_some_iff.mp h
  have := List.mem_of_find?_eq_some hx
  simp only [List.mem_cons, List.not_mem_nil, or_false] at this
  rcases this with rfl | rfl | rfl | rfl
  · exact .inl rfl
  · exact .inr (.inl rfl)
  · exact .inr (.inr (.inl rfl))
  · exact .inr (.inr (.inr rfl))

/-- The snapshot of one more buffer. -/
def snapOne (k pt : Nat) (acc : State × Except (Nat × Nat) (List (Nat × Nat × Assoc Nat) × List Nat)) (h : Nat) : State × Except (Nat × Nat) (List (Nat × Nat × Assoc Nat) × List Nat) :=
  match acc with
  | (t, .error c) => (t, .error c)
  | (t, .ok (l, z)) =>
    if bits (t.part pt).buftab 59 48 ≤ h then (t, .ok (l ++ [(h, 0, [])], z ++ [0]))
    else match t.registerBuf k pt h with
    | (u, .error c) => (u, .error c)
    | (u, .ok v) => (u, .ok (l ++ [(h, v.version, v.map)], z ++ [v.size]))

theorem Accessed.snapOne (acc : State × Except (Nat × Nat) (List (Nat × Nat × Assoc Nat) × List Nat)) (h : Nat) : Accessed acc.1 (Machine.snapOne k pt acc h).1 := by
  unfold Machine.snapOne
  split
  · exact .refl _
  · next t l z =>
    split
    · exact .refl _
    · have reg := Accessed.registerBuf t k pt h
      split <;> next hq => exact reg.of_fst hq

theorem Accessed.snapshots (s : State) (k pt : Nat) (hs : List Nat) : Accessed s (s.snapshots k pt hs).1 :=
  foldl_inv (P := fun (acc : State × Except (Nat × Nat) (List (Nat × Nat × Assoc Nat) × List Nat)) => Accessed s acc.1) (fun acc h ha => ha.trans (.snapOne (k := k) (pt := pt) acc h)) hs _ (.refl s)

/-- A checkpoint as it starts. -/
def State.newCkpt (s : State) (pt va : Nat) (core : Option Nat) (node : Nat) (rcd : List Byte) (snaps : List (Nat × Nat × Assoc Nat)) : Ckpt :=
  { core := core, node := node, req := va, snaps := snaps, now := s.nextStage pt (ckptHandles rcd) [], since := s.time }

/-- The handles of the buffers that a request names, in its order. -/
def ckptBufs (rcd : List Byte) : List Nat := (List.range (min 64 (ckptT rcd))).map (fun i => fld (ckptEntry rcd i) 0 2)

section Start

variable {rcd : List Byte} {snaps : List (Nat × Nat × Assoc Nat)} {sizes : List Nat} (hr : s.readCounted k pt va ckptBytes = (t, .ok rcd)) (hn : (s.part pt).ckpt = none)
  (hw : t.snapshots k pt (ckptBufs rcd) = (w, .ok (snaps, sizes)))
include hr hn hw

theorem State.ckptStep_refuses {c : Nat} (core : Option Nat) (node : Nat) (hc : w.ckptCause pt rcd sizes = some c) : s.ckptStep k pt va core node = .fail w (c, va) := by
  have part : (t.part pt).ckpt = none := by rw [(readCounted_onlyRead hr).part, hn]
  unfold ckptBufs at hw
  unfold State.ckptStep
  simp only [hr, part, hw, hc]

theorem State.ckptStep_starts (core : Option Nat) (node : Nat) (hc : w.ckptCause pt rcd sizes = none) :
    s.ckptStep k pt va core node =
      .wait ((w.modPart pt (fun p => { p with ckpt := some (w.newCkpt pt va core node rcd snaps) })).capture pt (w.nextStage pt (ckptHandles rcd) [])) := by
  have part : (t.part pt).ckpt = none := by rw [(readCounted_onlyRead hr).part, hn]
  unfold ckptBufs at hw
  unfold State.ckptStep
  simp only [hr, part, hw, hc]
  rfl

end Start

/-! ## A checkpoint that waits for its captures -/

section Waits

variable {rcd : List Byte} {c : Ckpt} (hr : s.readCounted k pt va ckptBytes = (t, .ok rcd)) (hc : (s.part pt).ckpt = some c) (mine : c.core = some k) (node : c.node = 0)
  (late : ∃ h ∈ c.now, ∀ r, t.regionOf pt h = some r → r.st ≠ .frozen)
include hr hc mine node late

theorem State.ckptStep_late : s.ckptStep k pt va (some k) 0 =
    if c.since + (s.part pt).deadline ≤ t.time then .fail ((t.abandonCapture pt c.now).endCkpt pt) (0x0F6, va) else .wait t := by
  have part : t.part pt = s.part pt := (readCounted_onlyRead hr).part pt
  have frozen : c.now.all (fun h => match t.regionOf pt h with | some g => g.st == .frozen | none => false) = false := by
    obtain ⟨h, hm, hs⟩ := late
    refine List.all_eq_false.mpr ⟨h, hm, ?_⟩
    split
    · next g hg => simpa using hs g hg
    · decide
  unfold State.ckptStep
  simp only [hr, part, hc, mine, node, BEq.rfl, Bool.and_self, Bool.not_true, Bool.false_eq_true, if_false]
  split
  · next h => exact absurd h (ne_true_of_eq_false frozen)
  · rfl

end Waits

/-! ## A checkpoint that is done -/

/-- The controller of a core is as it was where no return is recorded for it. -/
structure Undisturbed (s t : State) (k : Nat) : Prop where
  fcore : t.fcore = s.fcore
  q     : (t.rc k).q = (s.rc k).q
  pc    : (t.rc k).pc = (s.rc k).pc
  mode  : (t.rc k).mode = (s.rc k).mode

theorem Undisturbed.refl (s : State) (k : Nat) : Undisturbed s s k := ⟨rfl, rfl, rfl, rfl⟩
theorem Undisturbed.trans (h : Undisturbed s t k) (g : Undisturbed t u k) : Undisturbed s u k := ⟨g.fcore.trans h.fcore, g.q.trans h.q, g.pc.trans h.pc, g.mode.trans h.mode⟩
theorem Undisturbed.of_rc (hk : t.fcore = s.fcore) (h : t.rc k = s.rc k) : Undisturbed s t k := ⟨hk, by rw [h], by rw [h], by rw [h]⟩
theorem Undisturbed.of_accessed (h : Accessed s t) : Undisturbed s t k := .of_rc h.fcore (h.rc k)
theorem Undisturbed.of_held (hk : t.fcore = s.fcore) (h : HeldRc s t) : Undisturbed s t k := ⟨hk, h.q k, h.pc k, h.mode k⟩

theorem Undisturbed.takeImage (hm : ∀ i v, (s.rc k).mode ≠ .sys i (some v)) (h : Nat) : Undisturbed s (s.takeImage pt h).1 k := by
  unfold State.takeImage
  split
  · exact .refl s k
  · next g _ =>
    dsimp only
    generalize hv : ({ (s.imageOf g).2 with saved := (s.imageOf g).2.saved ++ [{ (s.imageOf g).1 with live := false }] } : State) = v
    have start : Undisturbed s v k := .of_rc (by rw [← hv]; rfl) (by rw [← hv]; rfl)
    have ran : Undisturbed v (v.runOn g.lead) k := by
      refine .of_rc (by rw [v.runOn_rest g.lead]; rfl) ?_
      rw [State.rc_runOn]
      split
      · exact Rc.resumed_stays fun i x e => hm i x (start.mode ▸ e)
      · rfl
    exact (start.trans ran).trans (.of_held (by rw [State.retryRegion_rest]) (.retryRegion _ _))

/-- One more image is taken. -/
def takeOne (pt : Nat) (acc : State × List (Nat × Nat × List Byte)) (h : Nat) : State × List (Nat × Nat × List Byte) :=
  ((acc.1.takeImage pt h).1, acc.2 ++ (acc.1.takeImage pt h).2)

/-- The images of the captured regions are taken, one after another. -/
theorem Undisturbed.takeImages (hm : ∀ i v, (s.rc k).mode ≠ .sys i (some v)) (hs : List Nat) (im : List (Nat × Nat × List Byte)) :
    Undisturbed s (hs.foldl (takeOne pt) (s, im)).1 k :=
  foldl_inv (P := fun (acc : State × List (Nat × Nat × List Byte)) => Undisturbed s acc.1 k) (f := takeOne pt)
    (fun _ h ha => ha.trans (.takeImage (fun i v e => hm i v (ha.mode ▸ e)) h)) hs (s, im) (.refl s k)

theorem State.writeCkpt_done {b : List Byte} {c : Ckpt} {n : Nat} (h : s.writeCkpt k pt b c = .done w n) : Accessed s w := by
  unfold State.writeCkpt at h
  extract_lets area entries tensors at h
  have read : Accessed s tensors.1 := by
    refine foldl_inv (P := fun (acc : State × Except (Nat × Nat) (List (List Byte))) => Accessed s acc.1) (fun acc e ha => ?_) _ _ (.refl s)
    split
    · exact ha
    · next t l =>
      have rd := ha.trans (.of_read (readTiles_onlyRead t k pt (((aget (t.part pt).bufs e.2.1).getD {}).start) (sliceBytes e.1) (fun t => (aget e.2.2.2 t).getD t)))
      unfold State.readMap
      split <;> next hq => exact rd.of_fst hq
  clear_value tensors
  split at h
  · cases h
  dsimp only at h
  split at h
  · cases h
  · next t ds hx v _ hq =>
    have wrote : Accessed s v := by
      refine Accessed.of_fst (foldl_inv (P := fun (acc : State × Except (Nat × Nat) Unit) => Accessed s acc.1) (fun acc e ha => ?_) _ _ read) hq
      obtain ⟨y, r⟩ := acc
      cases r with
      | error x => exact ha
      | ok x => exact ha.trans (.writeVA ..)
    split at h
    · cases h
    · next hv =>
      cases h
      exact wrote.trans ((Accessed.writeVA ..).of_fst hv)

theorem State.failCkpt_fails (s : State) (pt : Nat) (core : Option Nat) (node : Nat) (x : Nat × Nat) : ∃ t, s.failCkpt pt core node x = .fail t x := by
  unfold State.failCkpt
  split <;> exact ⟨_, rfl⟩

/-- A checkpoint that is done has left the controller of its core alone, and is its partition's no longer. -/
theorem State.ckptStep_done {core : Option Nat} {node n : Nat} (h : s.ckptStep k pt va core node = .done w n) (hm : ∀ i v, (s.rc k).mode ≠ .sys i (some v)) :
    Undisturbed s w k ∧ (w.part pt).ckpt = none := by
  unfold State.ckptStep at h
  split at h
  · next t x hq =>
    obtain ⟨u, hu⟩ := t.failCkpt_fails pt core node x
    rw [hu] at h
    cases h
  · next t b hq =>
    have read : Undisturbed s t k := .of_accessed (.of_read (readCounted_onlyRead hq))
    split at h
    · split at h
      · cases h
      · split at h <;> cases h
    · next c hc =>
      split at h
      · cases h
      split at h
      · have images := Undisturbed.takeImages (pt := pt) (fun i v e => hm i v (read.mode ▸ e)) c.now c.images
        extract_lets r now c' at h
        split at h
        · cases h
        · split at h
          · next u m hu =>
            cases h
            obtain ⟨-, gone, -, -, -, hk, held⟩ := u.endCkpt_spec pt
            have wrote : Undisturbed r.1 u k := .of_accessed (State.writeCkpt_done hu)
            exact ⟨((read.trans images).trans wrote).trans (.of_held hk held), gone⟩
          · next u x hu =>
            obtain ⟨v, hv⟩ := (u.modPart pt (fun p => { p with ckpt := some c' })).failCkpt_fails pt core node x
            rw [hv] at h
            cases h
          · next hd _ => exact (hd w n h).elim
      · split at h <;> cases h

end Sys2Proof.Machine
end

section
/-! Restores of a controller (R379, R380; log 89 for what a held one does over). -/

namespace Sys2Proof.Machine

variable {s t u v w : State} {d a k pt va : Nat}

/-! ## A restore that is refused -/

/-- A restore that a cause other than one of translation ends: its record is posted, and nothing of its shadows is kept. -/
theorem State.failRstr_refuses {c : Nat} (hc : holdsAccess c = false) (hl : (s.rc s.fcore).level ≠ 0) (pt va : Nat) :
    (s.failRstr pt (c, va)).posts = s.posts ++ [s.highRecord c va] ∧ ((s.failRstr pt (c, va)).part pt).rstr = [] := by
  unfold State.failRstr
  rw [if_neg (by rw [hc]; decide)]
  generalize hv : s.modPart pt (fun q => { q with rstr := [] }) = v
  have rest : v = { s with parts := v.parts } := by rw [← hv]; rfl
  have part : (v.part pt).rstr = [] := by rw [← hv, State.part_modPart]
  have rel := v.reclaim_spec pt (s.busyTiles pt)
  have regs := (KeepsRegs.of_cores (s := s) (t := v) (by rw [rest])).trans (.reclaim v pt (s.busyTiles pt))
  have left := v.part_reclaim pt (s.busyTiles pt)
  generalize v.reclaim pt (s.busyTiles pt) = x at *
  have hk : x.fcore = s.fcore := by rw [rel.fcore, rest]
  have level : (x.rc x.fcore).level ≠ 0 := by rwa [regs.level, hk]
  rw [State.rcExtern_faults hc]
  obtain ⟨posts, only, -⟩ := x.rcFault_high c va level
  refine ⟨?_, ?_⟩
  · rw [posts, rel.posts, State.highRecord_congr hk (by rw [rel.time, rest]) (by rw [rel.seqs, rest]), rest]
  · rw [only.rest]
    show (x.part pt).rstr = []
    rw [left]
    exact part

theorem targetCause_mem {es : List (List Byte)} {x : List Byte} {c : Nat} (h : targetCause es x = some c) : c = 0x0B3 ∨ c = 0x0B1 := by
  unfold targetCause at h
  dsimp only at h
  split at h
  · cases h; exact .inl rfl
  · split at h
    · cases h; exact .inl rfl
    · split at h
      · cases h
      · split at h
        · cases h; exact .inr rfl
        · cases h

theorem firstTargetCause_mem {es ts : List (List Byte)} {c : Nat} (h : ts.findSome? (targetCause es) = some c) : c = 0x0B3 ∨ c = 0x0B1 := by
  obtain ⟨x, -, hx⟩ := List.exists_of_findSome?_eq_some h
  exact targetCause_mem hx

/-! ## A restore that is applied -/

/-- The state of an operation with a result goes on from that of the operations before it. -/
theorem Accessed.foldl {α β : Type} (f : State × α → β → State × α) (hf : ∀ acc b, Accessed acc.1 (f acc b).1) (l : List β) (acc : State × α) : Accessed acc.1 (l.foldl f acc).1 :=
  foldl_inv (P := fun x => Accessed acc.1 x.1) (fun x b h => h.trans (hf x b)) l acc (.refl _)

theorem Accessed.readShard (s : State) (k pt : Nat) (e : List Byte) : Accessed s (s.readShard k pt e).1 := by
  unfold State.readShard
  split
  · next hq => exact .of_read (readVA_onlyRead hq)
  · next hq => split <;> exact .of_read (readVA_onlyRead hq)

theorem Accessed.writeTarget (s : State) (k pt h : Nat) (bytes : List Byte) : Accessed s (s.writeTarget k pt h bytes).1 := by
  unfold State.writeTarget
  split
  · exact .refl s
  · have reg := Accessed.registerBuf s k pt h
    split
    · next hq => exact reg.of_fst hq
    · next t v hq =>
      split
      · exact reg.of_fst hq
      · refine (reg.of_fst hq).trans (.foldl _ (fun acc g => ?_) _ (t, Except.ok ()))
        obtain ⟨u, r⟩ := acc
        cases r with
        | error x => exact .refl u
        | ok x =>
          dsimp only
          have wrote := Accessed.writeShadow u k pt (u.restored pt h) v.map g.1 g.2.1 ((bytes.drop (g.1 * 2048 + g.2.1 - v.start)).take g.2.2) (List.replicate g.2.2 255) (g.2.2 == 2048)
          split
          · next hw => exact wrote.of_fst hw
          · next y sh hw => exact (wrote.of_fst hw).trans (.of_cores rfl)

/-- The shards of a list are read, one after another. -/
def readShards (k pt : Nat) (acc : State × Except (Nat × Nat) (List (List Byte × List Byte))) (e : List Byte) : State × Except (Nat × Nat) (List (List Byte × List Byte)) :=
  match acc with
  | (t, .error x) => (t, .error x)
  | (t, .ok l) =>
    match t.readShard k pt e with
    | (u, .error x) => (u, .error x)
    | (u, .ok b) => (u, .ok (l ++ [(e, b)]))

theorem Accessed.readShards (acc : State × Except (Nat × Nat) (List (List Byte × List Byte))) (e : List Byte) : Accessed acc.1 (Machine.readShards k pt acc e).1 := by
  obtain ⟨t, r⟩ := acc
  unfold Machine.readShards
  cases r with
  | error x => exact .refl t
  | ok l =>
    have read := Accessed.readShard t k pt e
    dsimp only
    split <;> next hq => exact read.of_fst hq

theorem readShards_error (es : List (List Byte)) (t : State) (x : Nat × Nat) : es.foldl (readShards k pt) (t, .error x) = (t, .error x) := by
  induction es with
  | nil => rfl
  | cons e es ih => exact ih

/-- Each shard that is read counts. -/
theorem readShards_length (es : List (List Byte)) : ∀ (s : State) (l : List (List Byte × List Byte)) {t : State} {l' : List (List Byte × List Byte)},
    es.foldl (readShards k pt) (s, .ok l) = (t, .ok l') → l'.length = l.length + es.length := by
  induction es with
  | nil =>
    intro s l t l' h
    cases h
    rfl
  | cons e es ih =>
    intro s l t l' h
    rw [List.foldl_cons] at h
    have step : readShards k pt (s, .ok l) e = (match s.readShard k pt e with
      | (u, .error x) => (u, .error x)
      | (u, .ok b) => (u, .ok (l ++ [(e, b)]))) := by
      unfold readShards
      rfl
    rw [step] at h
    split at h
    · rw [readShards_error] at h
      cases h
    · rw [ih _ _ h, List.length_append, List.length_singleton, List.length_cons]
      omega

/-- A restore that is applied: it answers the number of its shards, keeps no shadow, and has left every register alone. -/
theorem State.applyRestore_ok {es ts : List (List Byte)} {c : Nat} (h : s.applyRestore k pt es ts = (v, .ok c)) :
    c = (es.filter (fun e => ts.any (fun t => (shardsUsed es t).contains e))).length ∧ KeepsRegs s v ∧ v.fcore = s.fcore ∧ (v.part pt).rstr = [] := by
  unfold State.applyRestore at h
  extract_lets read tensors hs at h
  have readEq : read = readShards k pt := rfl
  rw [readEq] at h
  split at h
  · cases h
  · next t shards hq =>
    have count := readShards_length _ _ _ hq
    have acc : Accessed s t := (Accessed.foldl (readShards k pt) .readShards _ (s, .ok [])).of_fst hq
    extract_lets write at h
    split at h
    · cases h
    · next u _ hw =>
      have wrote : Accessed t u := by
        refine Accessed.of_fst (Accessed.foldl write (fun acc g => ?_) tensors (t, Except.ok ())) hw
        obtain ⟨y, r⟩ := acc
        cases r with
        | error x => exact .refl y
        | ok x => exact .writeTarget ..
      split at h
      · cases h
      · next x _ hx =>
        have published : Accessed u x := by
          refine Accessed.of_fst (Accessed.foldl _ (fun acc h => ?_) hs (u, Except.ok ())) hx
          obtain ⟨y, r⟩ := acc
          cases r with
          | error x => exact .refl y
          | ok _ => exact .publish y k pt h (u.restored pt h)
        cases h
        have all := (acc.trans wrote).trans published
        generalize hz : x.modPart pt (fun q => { q with rstr := [] }) = z
        have rest : z = { x with parts := z.parts } := by rw [← hz]; rfl
        have part : (z.part pt).rstr = [] := by rw [← hz, State.part_modPart]
        have rel := z.reclaim_spec pt (dedup (u.busyTiles pt ++ hs.flatMap (fun h => u.replaced pt h (u.restored pt h))))
        refine ⟨?_, (all.keepsRegs.trans (.of_cores (by rw [rest]))).trans (.reclaim z pt _), ?_, ?_⟩
        · rw [count]; exact Nat.zero_add _
        · rw [rel.fcore, rest]; exact all.fcore
        · rw [State.part_reclaim]; exact part

/-! ## RSTR -/

section Rstr

variable {rcd m0 : List Byte} (hr : s.readCounted s.fcore (s.partAt s.fcore) (s.q s.fcore a) rstrBytes = (t, .ok rcd))
include hr

theorem State.rcRstr_badRequest (hb : badRequest rcd = true) : s.rcRstr d a = t.failRstr (s.partAt s.fcore) (0x0B3, s.q s.fcore a) := by
  unfold State.rcRstr
  simp only [hr, hb, if_true, (readCounted_onlyRead hr).q]

variable (hb : badRequest rcd = false) (hm : t.readCounted s.fcore (s.partAt s.fcore) (fld rcd 8 8) manifestBytes = (u, .ok m0))
include hb hm

theorem State.rcRstr_badManifest (h : badManifest (m0.take (fld m0 12 4)) = true) : s.rcRstr d a = u.failRstr (s.partAt s.fcore) (0x0B3, fld rcd 8 8) := by
  unfold State.rcRstr
  simp only [hr, hb, hm, h, Bool.false_eq_true, if_false, if_true]

variable (good : badManifest (m0.take (fld m0 12 4)) = false)
include good

theorem State.rcRstr_unsigned (h : fld (m0.take (fld m0 12 4)) 8 1 ≠ (u.part (s.partAt s.fcore)).tenant ∨ (fld (m0.take (fld m0 12 4)) 10 1 = 1 ∧
    !Config.signatureOk (sha384 ((m0.take (fld m0 12 4)).take ((m0.take (fld m0 12 4)).length - 3373))) ((m0.take (fld m0 12 4)).drop ((m0.take (fld m0 12 4)).length - 3373)))) :
    s.rcRstr d a = u.failRstr (s.partAt s.fcore) (0x0B4, fld rcd 8 8) := by
  unfold State.rcRstr
  simp only [hr, hb, hm, good, Bool.false_eq_true, if_false]
  rw [if_pos h]

variable (signed : ¬(fld (m0.take (fld m0 12 4)) 8 1 ≠ (u.part (s.partAt s.fcore)).tenant ∨ (fld (m0.take (fld m0 12 4)) 10 1 = 1 ∧
  !Config.signatureOk (sha384 ((m0.take (fld m0 12 4)).take ((m0.take (fld m0 12 4)).length - 3373))) ((m0.take (fld m0 12 4)).drop ((m0.take (fld m0 12 4)).length - 3373)))))
include signed

theorem State.rcRstr_badTarget {c : Nat} (h : (rstrTargets rcd).findSome? (targetCause (manifestEntries (m0.take (fld m0 12 4)))) = some c) :
    s.rcRstr d a = u.failRstr (s.partAt s.fcore) (c, fld rcd 8 8) := by
  unfold State.rcRstr
  simp only [hr, hb, hm, good, Bool.false_eq_true, if_false]
  rw [if_neg signed]
  simp only [h]

theorem State.rcRstr_restores {c : Nat} (h : (rstrTargets rcd).findSome? (targetCause (manifestEntries (m0.take (fld m0 12 4)))) = none)
    (hv : u.applyRestore s.fcore (s.partAt s.fcore) (manifestEntries (m0.take (fld m0 12 4))) (rstrTargets rcd) = (v, .ok c)) : s.rcRstr d a = v.rcPut d c := by
  unfold State.rcRstr
  simp only [hr, hb, hm, good, Bool.false_eq_true, if_false]
  rw [if_neg signed]
  simp only [h, hv]

end Rstr

end Sys2Proof.Machine
end

section
/-! Images of regions, pages, tiles, checkpoints and restores as a supervisor asks for them (R323 to R326, R339, R340, R375 to R380). -/

namespace Sys2Proof.Machine

variable {s t : State} {d a b : Nat}

/-- A supervisor's instruction that faults after reads which have left its controller alone. -/
theorem State.highFaulted {i : Instr} {c va : Nat} (hx : exec i s = .next (t.rcFault t.fcore ⟨c, va, 0, false⟩)) (hl : (t.rc t.fcore).level ≠ 0) :
    ∃ u, exec i s = .next u ∧ HighFaulted t u c va := ⟨_, hx, t.rcFault_high c va hl⟩

theorem RcTo.tiles {f : Rc → Rc} (h : RcTo s t f) : t.tiles = s.tiles := by rw [h.only.rest]

/-! ## CTXR elsewhere (R325) -/

section Elsewhere

variable {v : Saved} {va dst : Nat} (hb : s.q s.fcore b = dst) (hd : dst ≠ 0)
include hb hd

theorem State.rcCtxr_noImage (hf : s.findImage s.fcore (s.partAt s.fcore) dst = (t, .ok none)) : s.rcCtxr d a b = t.rcTrap 0x0F3 := by
  subst hb
  unfold State.rcCtxr
  simp only [hd, if_false, hf]

variable (ha : s.q s.fcore a = va) (hf : s.findImage s.fcore (s.partAt s.fcore) dst = (t, .ok (some v)))
include ha hf

theorem State.rcCtxr_refuses {c : Nat} (hc : t.rectCause v (s.partAt s.fcore) (va % 2 ^ 16) = some c) : s.rcCtxr d a b = t.rcTrap c := by
  subst ha hb
  have q := (findImage_onlyRead hf).q s.fcore a
  rw [← q] at hc
  unfold State.rcCtxr
  simp only [hd, if_false, hf, hc]

theorem State.rcCtxr_restores (hc : t.rectCause v (s.partAt s.fcore) (va % 2 ^ 16) = none) :
    s.rcCtxr d a b = (t.restore v (va % 2 ^ 16 / 64)).rcPut d (regionHandle (va % 2 ^ 16 / 64)) := by
  subst ha hb
  have q := (findImage_onlyRead hf).q s.fcore a
  rw [← q] at hc ⊢
  unfold State.rcCtxr
  simp only [hd, if_false, hf, hc]

end Elsewhere

/-- A controller outside the rectangle that restores a region. -/
theorem Restores.answered {s t u : State} {v : Saved} {lead n : Nat} (h : Restores t u v lead) (rd : OnlyRead s t) (away : s.fcore ∉ (v.placed lead).coreList) (other : s.fcore ≠ lead) :
    let w := u.rcPut d n
    ((w.rc s.fcore).q = (Rc.put d (BitVec.ofNat 64 n) 4 (s.rc s.fcore)).q ∧ (w.rc s.fcore).pc = (s.rc s.fcore).pc + 4) ∧ w.regions = u.regions ∧ w.saved = u.saved ∧
    ∀ j ∈ (v.placed lead).coreList, w.core j = u.core j := by
  have hk : u.fcore = s.fcore := h.fcore.trans rd.fcore
  have same : u.rc s.fcore = s.rc s.fcore := (congrArg Core.rc (h.others _ other away)).trans (rd.rc _)
  have put := (RcTo.put u d n).only
  refine ⟨State.put_rc (congrArg Rc.q same) (congrArg Rc.pc same) hk, by rw [put.rest], by rw [put.rest], fun j hj => put.cores j fun e => away ?_⟩
  exact (e.trans hk) ▸ hj

/-! ## MIGR that moves its page (R339) -/

/-- A page that is copied changes its target alone. -/
theorem State.copyPage_memBut (hi : s.Inv) (src dst n : Nat) : MemBut s (s.copyPage src dst n) dst n := fun x hx => by
  rw [State.read_copyPage hi, if_neg (by omega)]

section Moves

variable {m : Migr} (hm : (s.part (s.partAt s.fcore)).migr = some m) (hi : s.Inv) (quiet : s.Quiescent) (apart : m.leafAt + 8 ≤ m.target ∨ m.target + m.size ≤ m.leafAt)
include hm hi quiet apart

theorem State.migr_fails (hl : (s.rc s.fcore).level ≠ 0) (changed : Memory.readNat s.mem m.leafAt 8 ≠ m.leaf) :
    let u := s.rcMigr d a b
    (u.part (s.partAt s.fcore)).migr = none ∧ u.posts = s.posts ++ [s.highRecord 0x17C m.va] ∧ Memory.readNat u.mem m.leafAt 8 = Memory.readNat s.mem m.leafAt 8 := by
  dsimp only
  generalize ho : bits m.leaf 47 12 * 4096 = old
  have leaf := (State.copyPage_memBut hi old m.target m.size).readNat apart
  have eq := State.rcMigr_fails (d := d) (a := a) (b := b) hm (by rw [ho, leaf]; exact changed)
  have q : (s.copyPage old m.target m.size).Quiescent := quiet
  have regs : KeepsRegs s (s.copyPage old m.target m.size) := .of_cores rfl
  have hk : (s.copyPage old m.target m.size).fcore = s.fcore := rfl
  have record : (s.copyPage old m.target m.size).highRecord 0x17C m.va = s.highRecord 0x17C m.va := State.highRecord_congr hk rfl rfl 0x17C m.va
  have posts : (s.copyPage old m.target m.size).posts = s.posts := rfl
  rw [ho] at eq
  rw [eq]
  generalize s.copyPage old m.target m.size = c at *
  obtain ⟨regs', migr, posts', seqs, mem, fcore, time⟩ := State.endMigr_quiet q (s.partAt s.fcore) m
  generalize c.endMigr (s.partAt s.fcore) m = x at *
  have fx : x.fcore = s.fcore := fcore.trans hk
  have fault := x.rcFault_high 0x17C m.va (by rwa [(regs.trans regs').level, fx])
  rw [fx] at fault
  refine ⟨?_, ?_, ?_⟩
  · rw [fault.rc.only.rest]; exact migr
  · rw [fault.posts, posts', posts, State.highRecord_congr fcore time seqs, record]
  · rw [fault.rc.mem, mem, leaf]

theorem State.migr_moves (same : Memory.readNat s.mem m.leafAt 8 = m.leaf) (hle : spadBase (s.part (s.partAt s.fcore)).supervisor ≤ m.leafAt) :
    let u := s.rcMigr d a b
    let old := bits m.leaf 47 12 * 4096
    RegsTo s u d (BitVec.ofNat 64 old) 4 ∧ u.posts = s.posts ∧ (u.part (s.partAt s.fcore)).migr = none ∧ Memory.readNat u.mem m.leafAt 8 = (m.leaf - 16 - old + m.target) % 2 ^ 64 ∧
    (∀ i, i < m.size → Memory.read u.mem (m.target + i) = Memory.read s.mem (old + i)) ∧
    ∀ x, (x < m.target ∨ m.target + m.size ≤ x) → (x < m.leafAt ∨ m.leafAt + 8 ≤ x) → Memory.read u.mem x = Memory.read s.mem x := by
  dsimp only
  generalize ho : bits m.leaf 47 12 * 4096 = old
  have but := State.copyPage_memBut hi old m.target m.size
  have eq := State.rcMigr_moves (d := d) (a := a) (b := b) hm (by rw [ho, but.readNat apart]; exact same)
  have copied := State.read_copyPage hi old m.target m.size
  have wf : (s.copyPage old m.target m.size).Inv := State.wf_copyPage hi old m.target m.size
  have q : (s.copyPage old m.target m.size).Quiescent := quiet
  have regs : KeepsRegs s (s.copyPage old m.target m.size) := .of_cores rfl
  have hk : (s.copyPage old m.target m.size).fcore = s.fcore := rfl
  have posts : (s.copyPage old m.target m.size).posts = s.posts := rfl
  rw [ho] at eq
  rw [eq]
  generalize s.copyPage old m.target m.size = c at *
  generalize (s.part (s.partAt s.fcore)).supervisor = sup at *
  generalize hy : c.poke sup 8 (m.leafAt - spadBase sup) (leBytes 8 (m.leaf - 16 - old + m.target)) = y
  have qy : y.Quiescent := hy ▸ q.poke sup 8 _ _
  have regs : KeepsRegs s y := hy ▸ regs.trans (.poke c sup 8 _ _)
  have fy : y.fcore = s.fcore := by rw [← hy]; exact hk
  have py : y.posts = s.posts := by rw [← hy]; exact posts
  obtain ⟨regs', migr, posts', -, mem, fcore, -⟩ := State.endMigr_quiet qy (s.partAt s.fcore) m
  generalize y.endMigr (s.partAt s.fcore) m = x at *
  have put := RcTo.put x d old
  have written := State.poke_number (u := x.rcPut d old) wf (off := m.leafAt - spadBase sup) (v := m.leaf - 16 - old + m.target) 8 8 (by rw [put.mem, mem, ← hy])
  rw [Nat.add_sub_cancel' hle] at written
  obtain ⟨number, butLeaf⟩ := written
  refine ⟨(regs.trans regs').regsTo_put (fcore.trans fy), ?_, ?_, number, fun i hi => ?_, fun z hz hz' => ?_⟩
  · rw [put.only.rest]; exact posts'.trans py
  · rw [put.only.rest]; exact migr
  · rw [butLeaf _ (by omega), copied, if_pos (by omega), Nat.add_sub_cancel_left]
  · rw [butLeaf z hz', but z hz]

end Moves

/-! ## CKPT (R377, R378) -/

theorem State.rcCkpt_waits {va : Nat} (ha : s.q s.fcore a = va) (h : s.ckptStep s.fcore (s.partAt s.fcore) va (some s.fcore) 0 = .wait t) : s.rcCkpt d a = t := by
  unfold State.rcCkpt
  simp only [ha, h]

theorem State.rcCkpt_done {n va : Nat} (ha : s.q s.fcore a = va) (h : s.ckptStep s.fcore (s.partAt s.fcore) va (some s.fcore) 0 = .done t n) : s.rcCkpt d a = t.rcPut d n := by
  unfold State.rcCkpt
  simp only [ha, h]

theorem State.rcCkpt_fails {va : Nat} {x : Nat × Nat} (ha : s.q s.fcore a = va) (h : s.ckptStep s.fcore (s.partAt s.fcore) va (some s.fcore) 0 = .fail t x) : s.rcCkpt d a = t.rcExtern x := by
  unfold State.rcCkpt
  simp only [ha, h]

/-- A checkpoint that has started: its partition's, with the regions of its first stage draining. -/
theorem State.newCkpt_starts (s : State) (pt : Nat) (c : Ckpt) :
    let u := (s.modPart pt (fun p => { p with ckpt := some c })).capture pt c.now
    KeepsRegs s u ∧ u.mem = s.mem ∧ (u.part pt).ckpt = some c ∧ ∀ h ∈ c.now, u.Captures pt h := by
  generalize hv : s.modPart pt (fun p => { p with ckpt := some c }) = v
  have part : (v.part pt).ckpt = some c := by rw [← hv, State.part_modPart]
  have mem : v.mem = s.mem := by rw [← hv]; rfl
  obtain ⟨rest, regs, cap, -⟩ := State.capture_spec (pt := pt) c.now v
  refine ⟨(KeepsRegs.of_cores (by rw [← hv]; rfl)).trans regs, (v.capture_mem pt c.now).trans mem, ?_, cap⟩
  show ((v.capture pt c.now).part pt).ckpt = some c
  rw [rest]
  exact part

/-- A checkpoint whose captures come too late. -/
theorem State.ckpt_abandoned (hl : (s.rc s.fcore).level ≠ 0) (pt va : Nat) (hs : List Nat) :
    let u := ((s.abandonCapture pt hs).endCkpt pt).rcExtern (0x0F6, va)
    (u.part pt).ckpt = none ∧ u.posts = s.posts ++ [s.highRecord 0x0F6 va] := by
  have ran := RunsOn.abandonCapture s pt hs
  generalize s.abandonCapture pt hs = v at *
  obtain ⟨regs, gone, posts, seqs, time, fcore, -⟩ := v.endCkpt_spec pt
  generalize v.endCkpt pt = x at *
  have hk : x.fcore = s.fcore := by rw [fcore, ran.rest]
  rw [State.rcExtern_faults (show holdsAccess 0x0F6 = false by decide)]
  have fault := x.rcFault_high 0x0F6 va (by rwa [regs.level, ran.level, hk])
  refine ⟨by rw [fault.rc.only.rest]; exact gone, ?_⟩
  rw [fault.posts, posts, State.highRecord_congr hk (by rw [time, ran.rest]) (by rw [seqs, ran.rest]), ran.rest]

/-- Settles O44, instruction by instruction: what each writes to its controller follows from what its operation leaves of the controllers. -/
theorem rcSaves : Obligations.RcSaves := by
  unfold Obligations.RcSaves
  intro s d a b g hl k pt va dst put quiet
  have ha : s.q s.fcore a = va := s.q_eq a
  have hb : s.q s.fcore b = dst := s.q_eq b
  have high : (s.rc s.fcore).level ≠ 0 := Nat.one_le_iff_ne_zero.mp hl
  have ctxs := State.exec_level 1 (s.rcCtxs d a b) (i := .rcCtxs d a b) rfl hl
  have ctxr := State.exec_level 1 (s.rcCtxr d a b) (i := .rcCtxr d a b) rfl hl
  have migr := State.exec_level 1 (s.rcMigr d a b) (i := .rcMigr d a b) rfl hl
  have scrub := State.exec_level 1 (s.rcScrub d a b) (i := .rcScrub d a b) rfl hl
  have ckpt := State.exec_level 1 (s.rcCkpt d a) (i := .rcCkpt d a) rfl hl
  have rstr := State.exec_level 1 (s.rcRstr d a) (i := .rcRstr d a) rfl hl
  refine ⟨fun h => ?absent, fun h => ?resident, fun h0 => ?elsewhere, ?migrates, fun h => ?unaligned, fun h => ?scrubs, fun t rcd hr => ?starts, fun w n hw hm => ?completes, fun t rcd hr => ?restores⟩
  case absent =>
    rw [← ha] at h
    exact ⟨State.stops_rcCtxs hl (by decide) (State.rcCtxs_none h), fun h0 => State.stops_rcCtxr hl (by decide) (State.rcCtxr_none (hb.trans h0) h)⟩
  case resident =>
    rw [← ha] at h
    refine ⟨fun hs => ⟨State.stops_rcCtxs hl (by decide) (State.rcCtxs_runs h hs), fun h0 => State.stops_rcCtxr hl (by decide) (State.rcCtxr_runs (hb.trans h0) h hs)⟩,
      fun hs hm => State.stops_rcCtxs hl (by decide) (State.rcCtxs_member h hs hm), fun hs hm away t hw => ?_, fun hs h0 hg other => ?_⟩
    · have eq := State.rcCtxs_saves (d := d) h hs hm (hb ▸ hw)
      obtain ⟨hput, mem, regions, nodes, tokens, saved⟩ := State.ctxs_saves (d := d) away hw
      exact ⟨_, ctxs.trans (congrArg _ eq), hput, mem, regions, by rw [nodes], tokens, (s.imageOf g).1, saved, rfl, rfl, rfl, rfl, rfl, s.imageOf_length g⟩
    · have eq := State.rcCtxr_resumes (d := d) (hb.trans h0) h hs
      obtain ⟨hput, posts, mem, regions, cores, mode, q, pc⟩ := State.ctxr_resumes (d := d) (v := s.q s.fcore a) hg other
      refine ⟨_, ctxr.trans (congrArg _ eq), ha ▸ hput, posts, mem, regions, fun j hj => ⟨(cores j hj).passed, (cores j hj).copies⟩, fun i v hm => ?_, fun hm => ?_⟩
      · rw [Rc.resumed_returns hm] at mode q pc
        exact ⟨mode, q, pc⟩
      · rw [Rc.resumed_stays hm] at q pc
        exact ⟨q, pc⟩
  case elsewhere =>
    refine ⟨fun t hf => ?_, fun t v hf => ⟨fun c hc => ?_, fun hc away notLead hlen => ?_⟩⟩
    · have rd := findImage_onlyRead hf
      exact State.highFaulted (ctxr.trans (congrArg _ (State.rcCtxr_noImage hb h0 hf))) (by rwa [rd.rc, rd.fcore])
    · have rd := findImage_onlyRead hf
      exact State.highFaulted (ctxr.trans (congrArg _ (State.rcCtxr_refuses hb h0 ha hf hc))) (by rwa [rd.rc, rd.fcore])
    · have rd := findImage_onlyRead hf
      have res := t.restore_restores v (va % 2 ^ 16 / 64)
      obtain ⟨hput, regions, saved, cores⟩ := res.answered (d := d) (n := regionHandle (va % 2 ^ 16 / 64)) rd away notLead
      refine ⟨_, ctxr.trans (congrArg _ (State.rcCtxr_restores hb h0 ha hf hc)), hput, ⟨t.regionFor v (va % 2 ^ 16 / 64), regions ▸ res.region, rfl, rfl, rfl, rfl, rfl⟩, saved ▸ res.saved, fun i h h' => ?_⟩
      obtain ⟨cell, tiles, rc⟩ := res.core_at hlen h h'
      have core := cores _ (List.getElem_mem h')
      refine ⟨fun l x hx => ?_, ?_, ?_⟩
      · unfold State.cell at cell ⊢
        rw [core, cell l x hx]
        exact ⟨rfl, rfl, rfl, fun e => by simp [Cell.moved, e]⟩
      · unfold State.matrix at tiles ⊢
        rw [core, tiles]
      · unfold State.rc at rc ⊢
        rw [core]
        exact rc
  case migrates =>
    refine ⟨fun hm => ⟨fun c hc => ?_, fun at' e size hc => ?_⟩, fun m hm hi hq apart => ⟨fun hne => ?_, fun heq hle => ?_⟩⟩
    · exact State.stops (migr.trans (congrArg _ (State.rcMigr_refuses hm ha hb hc))) (by have := State.migrCause_error hc; omega)
    · have spec := s.migrMarked_spec pt va dst at' (if bit e 4 then e else e + 16) size
      obtain ⟨regs, rc, mark, untr, mem⟩ := spec
      exact ⟨_, migr.trans (congrArg _ (State.rcMigr_marks hm ha hb hc)), regs, congrArg Rc.pc (rc k), mark, untr.cores, mem⟩
    · obtain ⟨gone, posts, leaf⟩ := State.migr_fails (d := d) (a := a) (b := b) hm hi hq apart high hne
      exact ⟨_, migr, gone, posts, leaf⟩
    · exact ⟨_, migr, State.migr_moves hm hi hq apart heq hle⟩
  case unaligned =>
    exact State.stops (scrub.trans (congrArg _ (State.rcScrub_unaligned ha h))) (by decide)
  case scrubs =>
    refine ⟨fun h0 => ?_, fun t pa pos ht hs => ?_, fun t n hs => ?_⟩
    · exact State.puts_rcPut s (scrub.trans (congrArg _ (State.rcScrub_counts ha (hb.trans h0) h rfl))) rfl
    · have tr : Translated s t := by
        have spec := translate_spec s k pt va true
        rwa [ht] at spec
      have acc := Accessed.of_read (.of_translated tr)
      exact ⟨_, scrub.trans (congrArg _ (State.rcScrub_counts ha hb h (State.scrubFrom_first pos h ht hs))), acc.keepsRegs.regsTo_put acc.fcore,
        (RcTo.put t d 0).mem.trans tr.mem, (RcTo.put t d 0).tiles.trans (by rw [tr.rest])⟩
    · obtain ⟨acc, le⟩ := State.scrubFrom_spec (k := k) (pt := pt) dst s (va / 2048)
      rw [hs] at acc le
      exact ⟨le n rfl, _, scrub.trans (congrArg _ (State.rcScrub_counts ha hb h hs)), acc.keepsRegs.regsTo_put acc.fcore, (RcTo.put t d n).mem, (RcTo.put t d n).tiles⟩
  case starts =>
    have rd := readCounted_onlyRead hr
    refine ⟨fun hn w snaps sizes hw => ⟨fun c hc => ?_, fun hc => ?_⟩, fun c hc mine node late => ⟨fun early => ?_, fun past => ?_⟩⟩
    · have acc := (Accessed.of_read rd).trans ((Accessed.snapshots ..).of_fst hw)
      have step := State.rcCkpt_fails (d := d) ha (State.ckptStep_refuses hr hn hw (some k) 0 hc)
      rw [State.rcExtern_faults (by rcases State.ckptCause_mem hc with rfl | rfl | rfl | rfl <;> decide)] at step
      exact State.highFaulted (ckpt.trans (congrArg _ step)) (by rwa [acc.rc, acc.fcore])
    · have acc := (Accessed.of_read rd).trans ((Accessed.snapshots ..).of_fst hw)
      have step := State.rcCkpt_waits (d := d) ha (State.ckptStep_starts hr hn hw (some k) 0 hc)
      obtain ⟨regs, mem, part, cap⟩ := w.newCkpt_starts pt (w.newCkpt pt va (some k) 0 rcd snaps)
      have regs := acc.keepsRegs.trans regs
      exact ⟨_, ckpt.trans (congrArg _ step), regs.rcq k, regs.rcpc k, mem, _, part, rfl, rfl, rfl, rfl, rfl, cap⟩
    · have step := State.ckptStep_late hr hc mine node late
      rw [if_neg (Nat.not_le.mpr early)] at step
      exact ckpt.trans (congrArg _ (State.rcCkpt_waits ha step))
    · have step := State.ckptStep_late hr hc mine node late
      rw [if_pos past] at step
      obtain ⟨gone, posts⟩ := State.ckpt_abandoned (s := t) (by rwa [rd.rc, rd.fcore]) pt va c.now
      exact ⟨_, ckpt.trans (congrArg _ (State.rcCkpt_fails ha step)), gone, posts⟩
  case completes =>
    obtain ⟨same, gone⟩ := State.ckptStep_done hw hm
    have step := State.rcCkpt_done (d := d) ha hw
    refine ⟨_, ckpt.trans (congrArg _ step), State.put_rc same.q same.pc same.fcore, ?_, (RcTo.put w d n).mem⟩
    rw [(RcTo.put w d n).only.rest]
    exact gone
  case restores =>
    have rd := readCounted_onlyRead hr
    rw [← ha] at hr
    refine ⟨fun hb => ?_, fun hb u m0 hm => ⟨fun bad => ?_, fun good unsigned => ?_, fun good mine signed => ⟨fun c hc => ?_, fun hc v c hv => ?_⟩⟩⟩
    · have step := State.rcRstr_badRequest (d := d) hr hb
      rw [ha] at step
      exact ⟨_, rstr.trans (congrArg _ step), State.failRstr_refuses (by decide) (by rwa [rd.rc, rd.fcore]) pt va⟩
    all_goals have both := rd.trans (readCounted_onlyRead hm)
    all_goals have levelled : (u.rc u.fcore).level ≠ 0 := by rwa [both.rc, both.fcore]
    · exact ⟨_, rstr.trans (congrArg _ (State.rcRstr_badManifest hr hb hm bad)), State.failRstr_refuses (by decide) levelled ..⟩
    · have refused := State.rcRstr_unsigned (d := d) hr hb hm good (by rw [both.part]; simpa using unsigned)
      exact ⟨_, rstr.trans (congrArg _ refused), State.failRstr_refuses (by decide) levelled ..⟩
    all_goals have signed : ¬(fld (m0.take (fld m0 12 4)) 8 1 ≠ (u.part (s.partAt s.fcore)).tenant ∨ (fld (m0.take (fld m0 12 4)) 10 1 = 1 ∧
        !Config.signatureOk (sha384 ((m0.take (fld m0 12 4)).take ((m0.take (fld m0 12 4)).length - 3373))) ((m0.take (fld m0 12 4)).drop ((m0.take (fld m0 12 4)).length - 3373)))) :=
      not_or.mpr ⟨not_not.mpr (mine.trans (by rw [both.part])), fun ⟨one, bad⟩ => by rw [signed one] at bad; exact Bool.false_ne_true bad⟩
    · have free : holdsAccess c = false := by rcases firstTargetCause_mem hc with rfl | rfl <;> decide
      exact ⟨_, rstr.trans (congrArg _ (State.rcRstr_badTarget hr hb hm good signed hc)), State.failRstr_refuses free levelled ..⟩
    · obtain ⟨count, regs, fcore, gone⟩ := State.applyRestore_ok hv
      have regs := (Accessed.of_read both).keepsRegs.trans regs
      refine ⟨count, _, rstr.trans (congrArg _ (State.rcRstr_restores hr hb hm good signed hc hv)), regs.regsTo_put (fcore.trans both.fcore), (RcTo.put v d c).mem, ?_, ?_⟩ <;>
        rw [(RcTo.put v d c).only.rest]
      · exact gone
      · rfl

end Sys2Proof.Machine
end

section
/-! MTP and MFP (R314). -/

namespace Sys2Proof.Machine

/-! ## MTP and MFP (R314) -/

theorem State.part_modPart_of_ne {p q : Nat} (s : State) (f : Part → Part) (h : q ≠ p) : (s.modPart p f).part q = s.part q := by
  unfold State.modPart State.part
  rw [aget_aset, if_neg h]

section Privileged

variable {s t : State} {d a b n target v : Nat} (hl : 1 ≤ (s.rc s.fcore).level)
include hl

theorem State.privileged_reserved (hn : privNumber s.level n = false) : s.Stops (.rcMtp a b n) 0x0C0 0 ∧ s.Stops (.rcMfp d a n) 0x0C0 0 := by
  have mtp := State.exec_level 1 (s.rcMtp a b n) (i := .rcMtp a b n) rfl hl
  have mfp := State.exec_level 1 (s.rcMfp d a n) (i := .rcMfp d a n) rfl hl
  unfold State.rcMtp at mtp
  unfold State.rcMfp at mfp
  simp only [hn, Bool.not_false, if_true] at mtp mfp
  exact ⟨State.stops mtp (by decide), State.stops mfp (by decide)⟩

variable (ht : bits (s.q s.fcore a) 15 6 = target) (hn : privNumber s.level n = true)
include ht hn

theorem State.privileged_unreached (hb : s.badTarget target = true) : s.Stops (.rcMtp a b n) 0x14C 0 ∧ s.Stops (.rcMfp d a n) 0x14C 0 := by
  have mtp := State.exec_level 1 (s.rcMtp a b n) (i := .rcMtp a b n) rfl hl
  have mfp := State.exec_level 1 (s.rcMfp d a n) (i := .rcMfp d a n) rfl hl
  unfold State.rcMtp at mtp
  unfold State.rcMfp at mfp
  simp only [hn, ht, hb, Bool.not_true, Bool.false_eq_true, if_false, if_true] at mtp mfp
  exact ⟨State.stops mtp (by decide), State.stops mfp (by decide)⟩

variable (hb : s.badTarget target = false)
include hb

theorem State.rcMfp_reads (hv : s.srGet target n = v) : s.Puts (.rcMfp d a n) d (BitVec.ofNat 64 v) 4 := by
  have mfp := State.exec_level 1 (s.rcMfp d a n) (i := .rcMfp d a n) rfl hl
  unfold State.rcMfp at mfp
  simp only [hn, ht, hb, hv, Bool.not_true, Bool.false_eq_true, if_false] at mfp
  exact State.puts_rcPut s mfp rfl

variable (hq : s.q s.fcore b = v) (hw : srWritable s.level n = some true) (hs : s.srSet target n v = .ok t)
include hq hw hs

theorem State.rcMtp_writes : exec (.rcMtp a b n) s = .next (t.rcNext s.fcore 4) := by
  have mtp := State.exec_level 1 (s.rcMtp a b n) (i := .rcMtp a b n) rfl hl
  unfold State.rcMtp at mtp
  simpa only [hn, ht, hb, hq, hw, hs, ne_eq, not_true_eq_false, Bool.not_true, Bool.false_eq_true, if_false] using mtp

theorem State.rcMtp_goes_on (hk : t.fcore = s.fcore) : ∃ u, exec (.rcMtp a b n) s = .next u ∧ RcTo t u (Rc.skip 4) :=
  ⟨_, State.rcMtp_writes hl ht hn hb hq hw hs, by rw [← hk]; exact .next t 4⟩

/-- A register that its partition keeps. -/
theorem State.rcMtp_writes_part {p : Nat} {f : Part → Part} (hp : t = s.modPart p f) :
    ∃ u, exec (.rcMtp a b n) s = .next u ∧ RcTo { s with parts := u.parts } u (Rc.skip 4) ∧ ∀ q, u.part q = if q = p then f (s.part q) else s.part q := by
  subst hp
  have next := RcTo.next (s.modPart p f) 4
  refine ⟨_, State.rcMtp_writes hl ht hn hb hq hw hs, next, fun q => ?_⟩
  show (s.modPart p f).part q = _
  split
  · subst_vars; exact State.part_modPart ..
  · next h => exact State.part_modPart_of_ne s f h

end Privileged

end Sys2Proof.Machine
end

section
/-! TLBI (R334). -/

namespace Sys2Proof.Machine

variable {s : State} {pt isles lo n : Nat}

/-! ## Translations that are gone stay so -/

theorem Untranslated.unhold (h : Untranslated s pt isles lo n) (p : Nat × Nat → Bool) : Untranslated (s.unhold pt p) pt isles lo n where
  cores c hc hm x hx := by
    obtain ⟨e, he, rfl⟩ := List.mem_map.mp hc
    split at hm <;> split at hx <;> exact h.cores e he hm x hx
  isles := h.isles
  walks := h.walks

theorem Untranslated.modRc (h : Untranslated s pt isles lo n) (k : Nat) (f : Rc → Rc) : Untranslated (s.modRc k f) pt isles lo n where
  cores c hc hm x hx := by
    rcases mem_aset (show c ∈ aset s.cores k { s.core k with rc := f (s.core k).rc } from hc) with rfl | hc
    · have cached : x ∈ (s.core k).tcache := hx
      unfold State.core at cached
      cases ha : aget s.cores k with
      | none => rw [ha] at cached; cases cached
      | some c => rw [ha] at cached; exact h.cores _ (mem_of_aget ha) hm x cached
    · exact h.cores c hc hm x hx
  isles := h.isles
  walks := h.walks

/-! ## TLBI -/

/-- A node that still holds an access after a retry holds one that the retry does not name. -/
theorem State.held_unhold {p : Nat × Nat → Bool} {v : Nat × Node} (hv : v ∈ (s.unhold pt p).nodes) (hp : v.2.part = pt) {c : Nat × Nat} (hc : v.2.held = some c) : p c = false := by
  obtain ⟨e, -, rfl⟩ := List.mem_map.mp hv
  split at hc
  · have kept : released p e.2.held = some c := hc
    unfold released at kept
    split at kept
    · next x _ =>
      split at kept
      · cases kept
      · next h => cases kept; exact Bool.eq_false_iff.mpr h
    · cases kept
  · next h => rw [if_neg h] at hp; exact absurd hp h

theorem State.rcTlbi_waits (h : s.remoteOut s.fcore 8 ≠ 0) : s.rcTlbi lo n = s := if_pos (Nat.pos_of_ne_zero h)

/-- TLBI while no cell has a request at its port. -/
theorem State.rcTlbi_drops (h : s.remoteOut s.fcore 8 = 0) (quiet : s.Quiescent) :
    let u := s.rcTlbi lo n
    let pt := s.partAt s.fcore
    RegsTo s u 0 0 4 ∧ u.mem = s.mem ∧ Untranslated u pt (s.part pt).isles lo n ∧
    ∀ v ∈ u.nodes, v.2.part = pt → ∀ c, v.2.held = some c → ¬(0x060 ≤ c.1 ∧ c.1 ≤ 0x064 ∧ lo ≤ c.2 ∧ c.2 < lo + n) := by
  dsimp only
  generalize hp : (fun c : Nat × Nat => decide (0x060 ≤ c.1) && decide (c.1 ≤ 0x064) && decide (lo ≤ c.2) && decide (c.2 < lo + n)) = p
  have eq : s.rcTlbi lo n = ((s.dropTranslations (s.partAt s.fcore) lo n).unhold (s.partAt s.fcore) p).rcNext s.fcore 4 := by
    rw [← (quiet.dropTranslations (s.partAt s.fcore) lo n).retryHeld, ← hp]
    exact if_neg (by omega)
  have regs := (KeepsRegs.dropTranslations s (s.partAt s.fcore) lo n).trans (.unhold _ (s.partAt s.fcore) p)
  have untr := ((s.dropTranslations_untranslated (s.partAt s.fcore) lo n).unhold p).modRc s.fcore (Rc.skip 4)
  rw [eq]
  refine ⟨regs.regsTo_next rfl, rfl, untr, fun v hv hpt c hc => ?_⟩
  have named := State.held_unhold hv hpt hc
  subst hp
  simpa using named

theorem State.rcTlbiRange_refuses {a b va len : Nat} (ha : s.q s.fcore a = va) (hb : s.q s.fcore b = len) (h : va % 4096 ≠ 0 ∨ len % 4096 ≠ 0 ∨ len = 0) :
    s.rcTlbiRange a b = s.rcTrap 0x0C4 := by
  subst ha hb
  exact if_pos h

theorem State.rcTlbiRange_drops {a b va len : Nat} (ha : s.q s.fcore a = va) (hb : s.q s.fcore b = len) (hv : va % 4096 = 0) (hl : len % 4096 = 0) (hz : len ≠ 0) :
    s.rcTlbiRange a b = s.rcTlbi va len := by
  subst ha hb
  exact if_neg (by omega)

end Sys2Proof.Machine
end

section
/-! Event queues and their records (R317 to R319). -/

namespace Sys2Proof.Machine

variable {s t : State} {e : EvRec} {q : Queue} {k n a b d va len : Nat}

/-! ## A record that is visible (R115) -/

/-- Memory, engines and what a core's engine reports may differ; registers do not. -/
structure Shows (s t : State) : Prop where
  rest : t = { s with mem := t.mem, cores := t.cores, dies := t.dies }
  regs : KeepsRegs s t

namespace Shows

theorem refl (s : State) : Shows s s := ⟨rfl, .refl s⟩
theorem trans {s t u : State} (h : Shows s t) (g : Shows t u) : Shows s u := ⟨by rw [g.rest, h.rest], h.regs.trans g.regs⟩
theorem foldl {β : Type} (f : State → β → State) (hf : ∀ s b, Shows s (f s b)) (l : List β) (s : State) : Shows s (l.foldl f s) :=
  foldl_inv (P := fun t => Shows s t) (fun t b h => h.trans (hf t b)) l s (.refl s)
theorem of_mem {s t : State} (h : t = { s with mem := t.mem }) : Shows s t := ⟨by rw [h], .of_cores (by rw [h])⟩
theorem poke (s : State) (k h off : Nat) (bs : List Byte) : Shows s (s.poke k h off bs) := ⟨rfl, .poke s k h off bs⟩
theorem setQueueWord (s : State) (q : Queue) (i v : Nat) : Shows s (s.setQueueWord q i v) := .poke ..

theorem fcore (h : Shows s t) : t.fcore = s.fcore := by rw [h.rest]
theorem posts (h : Shows s t) : t.posts = s.posts := by rw [h.rest]
theorem queue (h : Shows s t) (n : Nat) : t.queue n = s.queue n := by rw [h.rest]; rfl

theorem copyShown (s : State) (k seq : Nat) : Shows s (s.copyShown k seq) := by
  unfold State.copyShown
  extract_lets mine t
  have marked : Shows s t := foldl _ (fun s c => by
    split
    · exact .refl s
    · exact .of_mem rfl) mine s
  split
  · exact marked
  · exact marked.trans ⟨rfl, .modCore _ _ _ fun c => .of_cells rfl ⟨rfl, rfl, rfl⟩⟩

theorem collShown (s : State) (k seq : Nat) : Shows s (s.collShown k seq) := by
  unfold State.collShown
  dsimp only
  split
  · exact ⟨rfl, KeepsRegs.modRc s (s.leadOf k) (fun r => { r with ev := r.ev ||| 2 ^ 3 }) fun _ => ⟨rfl, rfl, rfl⟩⟩
  · exact .refl s

theorem shown (s : State) (e : EvRec) : Shows s (s.shown e) := by
  unfold State.shown
  split
  · exact .refl s
  · split
    · exact .copyShown ..
    · split
      · exact .collShown ..
      · exact .refl s

theorem putRecord (s : State) (q : Queue) (e : EvRec) : Shows s (s.putRecord q e) := ((poke s q.core 8 _ e.bytes).trans (.setQueueWord _ q 0 _)).trans (.shown _ e)

end Shows

/-- Memory changes only as a copy engine's barriers fail. -/
theorem State.mem_shown (h : 65536 ≤ e.source ∨ e.source % 64 ≠ 49) : (s.shown e).mem = s.mem := by
  unfold State.shown
  split
  · rfl
  · next hs =>
    rw [if_neg (show e.source % 64 ≠ 49 by omega)]
    split
    · exact State.collShown_mem ..
    · rfl

/-- The copy engine's fault indication sets with the record of a copy that failed. -/
theorem State.copyF_shown (hk : e.kind = 0) (hs : e.source < 65536) (he : e.source % 64 = 49) (hc : ∃ c ∈ (s.core (e.source / 64)).copies, c.2.failed = some e.seq) :
    ((s.shown e).core (e.source / 64)).copyF = true := by
  obtain ⟨c, hc, hf⟩ := hc
  unfold State.shown
  rw [if_neg (by omega), if_pos he]
  unfold State.copyShown
  dsimp only
  rw [if_neg (List.ne_nil_of_mem (List.mem_filter.mpr ⟨hc, by simp [hf]⟩)), State.core_modCore, if_pos rfl]

/-! ## A record in its queue (R317) -/

theorem EvRec.bytes_length (h : e.body.length = 16) : e.bytes.length = 32 := by
  unfold EvRec.bytes
  simp only [List.length_append, leBytes_length, h]

theorem State.copies_poke (s : State) (k h off : Nat) (bs : List Byte) (j : Nat) : ((s.poke k h off bs).core j).copies = (s.core j).copies := by
  rw [State.core_poke]
  split
  · subst_vars; rfl
  · rfl

theorem State.copyF_putRecord (hk : e.kind = 0) (hs : e.source < 65536) (he : e.source % 64 = 49) (hc : ∃ c ∈ (s.core (e.source / 64)).copies, c.2.failed = some e.seq) :
    ((s.putRecord q e).core (e.source / 64)).copyF = true := by
  refine State.copyF_shown hk hs he ?_
  rwa [State.setQueueWord, State.copies_poke, State.copies_poke]

theorem State.mem_setQueueWord (hi : s.Inv) (q : Queue) (i v : Nat) :
    Memory.readNat (s.setQueueWord q i v).mem (spadBase q.core + q.base + 4 * i) 4 = v % 2 ^ 32 ∧ MemBut s (s.setQueueWord q i v) (spadBase q.core + q.base + 4 * i) 4 := by
  have num := State.poke_number (u := s.setQueueWord q i v) hi 8 4 rfl
  rwa [← Nat.add_assoc] at num

/-- A record is written, and the tail has passed it. -/
theorem State.mem_putRecord (hi : s.Inv) (hb : e.body.length = 16) (hs : 65536 ≤ e.source ∨ e.source % 64 ≠ 49) :
    let u := s.putRecord q e
    let b := spadBase q.core + q.base
    let w := b + 0x40 + 32 * (s.queueWord q 0 % q.entries)
    Memory.readN u.mem w 32 = e.bytes ∧ Memory.readNat u.mem b 4 = (s.queueWord q 0 + 1) % 2 ^ 32 ∧
    ∀ x, (x < b ∨ b + 4 ≤ x) → (x < w ∨ w + 32 ≤ x) → Memory.read u.mem x = Memory.read s.mem x := by
  dsimp only
  unfold State.putRecord
  dsimp only
  generalize s.queueWord q 0 = tail
  rw [State.mem_shown hs]
  generalize hr : s.poke q.core 8 (q.base + 0x40 + 32 * (tail % q.entries)) e.bytes = r
  have written := hi.writeN (t := r) (by rw [← hr]; exact State.mem_poke ..)
  rw [EvRec.bytes_length hb, show spadBase q.core + (q.base + 0x40 + 32 * (tail % q.entries)) = spadBase q.core + q.base + 0x40 + 32 * (tail % q.entries) by omega] at written
  obtain ⟨bytes, rest⟩ := written
  have wf : r.Inv := by
    rw [← hr]
    exact State.wf_poke _ _ _ _ _ hi
  obtain ⟨word, but⟩ := State.mem_setQueueWord wf q 0 ((tail + 1) % 2 ^ 32)
  simp only [Nat.mul_zero, Nat.add_zero] at word but
  refine ⟨?_, ?_, fun x hx hw => ?_⟩
  · rw [but.readN (by omega), bytes]
  · rw [word, Nat.mod_mod]
  · rw [but x hx, rest x hw]

/-! ## EVTQ and EVTQ.wait (R317, R318) -/

theorem State.queue_modQueue (s : State) (n : Nat) (f : Queue → Queue) : (s.modQueue n f).queue n = f (s.queue n) := by
  unfold State.modQueue State.queue
  split
  · rfl
  · exact congrArg Part.queue (State.part_modPart ..)

theorem State.modQueue_rest (s : State) (n : Nat) (f : Queue → Queue) : s.modQueue n f = { s with parts := (s.modQueue n f).parts, mgrQueue := (s.modQueue n f).mgrQueue } := by
  unfold State.modQueue
  split <;> rfl

/-- The sizes that a queue may have. -/
theorem queueSize_iff (n : Nat) : ([4, 5, 6, 7, 8, 9, 10, 11, 12].map (2 ^ ·)).contains n = true ↔ n ∈ [16, 32, 64, 128, 256, 512, 1024, 2048, 4096] := List.contains_iff_mem

theorem State.rcEvtq_size (hb : s.q s.fcore b = len) (h : len ∉ [16, 32, 64, 128, 256, 512, 1024, 2048, 4096]) : s.rcEvtq a b = s.rcTrap 0x0C4 := by
  subst hb
  unfold State.rcEvtq
  dsimp only
  rw [if_pos]
  rw [Bool.not_eq_true']
  exact Bool.eq_false_iff.mpr fun hc => h ((queueSize_iff _).mp hc)

section Evtq

variable (ha : s.q s.fcore a = va) (hb : s.q s.fcore b = len) (fits : len ∈ [16, 32, 64, 128, 256, 512, 1024, 2048, 4096])
include ha hb fits

theorem State.rcEvtq_eq : s.rcEvtq a b =
    if spadSize s.fcore < va + 0x40 + 32 * len then s.rcFault s.fcore ⟨0x041, va, 0, false⟩
    else if va % 64 ≠ 0 then s.rcFault s.fcore ⟨0x042, va, 0, false⟩
    else ((s.queue (s.queueNo s.fcore)).kept.foldl (fun t e => t.putRecord { isSet := true, core := s.fcore, base := va, entries := len } e)
      (((s.poke s.fcore 8 va (List.replicate 64 0)).setQueueWord { isSet := true, core := s.fcore, base := va, entries := len } 2 ((s.queue (s.queueNo s.fcore)).lost % 2 ^ 32)).modQueue
        (s.queueNo s.fcore) (fun _ => { isSet := true, core := s.fcore, base := va, entries := len }))).rcNext s.fcore 4 := by
  subst ha hb
  unfold State.rcEvtq
  dsimp only
  rw [if_neg]
  rw [(queueSize_iff _).mpr fits]
  exact Bool.false_ne_true

end Evtq

end Sys2Proof.Machine
end

section
/-! EVTQ that sets a queue, and the events of records and timers (R238, R317, R318). -/

namespace Sys2Proof.Machine

variable {s t : State} {e : EvRec} {a b d m va len source : Nat}

/-! ## A queue that is set -/

/-- A queue that EVTQ sets. -/
def Queue.setAt (k base n : Nat) : Queue := { isSet := true, core := k, base := base, entries := n }

theorem leNat_zeros (n : Nat) : leNat (List.replicate n 0) = 0 := by
  induction n with
  | zero => rfl
  | succ n ih => rw [List.replicate_succ, leNat, ih]; rfl

/-- A number within zeroed bytes. -/
theorem Memory.readNat_zeroed {m : Memory} {x n i k : Nat} (h : Memory.readN m x n = List.replicate n 0) (hi : i + k ≤ n) : Memory.readNat m (x + i) k = 0 := by
  have zero (j : Nat) (hj : j < k) : Memory.read m (x + i + j) = 0 := by
    have byte := congrArg (·[i + j]?) h
    have inside : i + j < n := by omega
    simpa [Memory.readN, inside, Nat.add_assoc] using byte
  have bytes : Memory.readN m (x + i) k = List.replicate k 0 := by
    unfold Memory.readN
    exact (List.map_eq_replicate_iff.mpr (by simpa using zero)).trans (by rw [List.length_range]; rfl)
  rw [Memory.readNat, bytes, leNat_zeros]

/-- The state block of a queue is zeroed, and its count of lost records written. -/
def State.clearedQueue (s : State) (q : Queue) (lost : Nat) : State := (s.poke q.core 8 q.base (List.replicate 64 0)).setQueueWord q 2 lost

theorem State.clearedQueue_spec (hi : s.Inv) (q : Queue) (lost : Nat) :
    let u := s.clearedQueue q lost
    let at' := spadBase q.core + q.base
    Memory.readNat u.mem at' 4 = 0 ∧ Memory.readNat u.mem (at' + 4) 4 = 0 ∧ Memory.readNat u.mem (at' + 8) 4 = lost % 2 ^ 32 ∧ MemBut s u at' 64 := by
  dsimp only
  unfold State.clearedQueue
  have wf : (s.poke q.core 8 q.base (List.replicate 64 0)).Inv := State.wf_poke _ _ _ _ _ hi
  have mem := State.mem_poke s q.core 8 q.base (List.replicate 64 0)
  generalize s.poke q.core 8 q.base (List.replicate 64 0) = z at *
  obtain ⟨zeros, but⟩ := hi.writeN mem
  rw [List.length_replicate] at zeros but
  obtain ⟨word, butWord⟩ := State.mem_setQueueWord wf q 2 lost
  refine ⟨?_, ?_, word, fun y hy => ?_⟩
  · rw [butWord.readNat (by omega)]
    exact Memory.readNat_zeroed (i := 0) zeros (by decide)
  · rw [butWord.readNat (by omega)]
    exact Memory.readNat_zeroed zeros (by decide)
  · rw [butWord y (by omega), but y hy]

section Sets

variable (ha : s.q s.fcore a = va) (hb : s.q s.fcore b = len) (fits : len ∈ [16, 32, 64, 128, 256, 512, 1024, 2048, 4096]) (inside : va + 64 + 32 * len ≤ spadSize s.fcore) (aligned : va % 64 = 0)
include ha hb fits inside aligned

theorem State.rcEvtq_sets_eq : s.rcEvtq a b = ((s.queue (s.queueNo s.fcore)).kept.foldl (fun t e => t.putRecord (Queue.setAt s.fcore va len) e)
    ((s.clearedQueue (Queue.setAt s.fcore va len) ((s.queue (s.queueNo s.fcore)).lost % 2 ^ 32)).modQueue (s.queueNo s.fcore) (fun _ => Queue.setAt s.fcore va len))).rcNext s.fcore 4 := by
  rw [State.rcEvtq_eq ha hb fits, if_neg (by omega), if_neg (by omega)]
  rfl

theorem State.rcEvtq_sets :
    let u := s.rcEvtq a b
    RegsTo s u 0 0 4 ∧ u.posts = s.posts ∧ u.queue (s.queueNo s.fcore) = Queue.setAt s.fcore va len := by
  rw [State.rcEvtq_sets_eq ha hb fits inside aligned]
  generalize hq : Queue.setAt s.fcore va len = q
  generalize s.queueNo s.fcore = qn
  have shows : Shows s (s.clearedQueue q ((s.queue qn).lost % 2 ^ 32)) := (Shows.poke ..).trans (.setQueueWord ..)
  generalize s.clearedQueue q ((s.queue qn).lost % 2 ^ 32) = x at *
  generalize hy : x.modQueue qn (fun _ => q) = y
  have rest := x.modQueue_rest qn (fun _ => q)
  have set : y.queue qn = q := by rw [← hy]; exact x.queue_modQueue qn _
  rw [hy] at rest
  have put := Shows.foldl (fun (t : State) e => t.putRecord q e) (fun t e => .putRecord t q e) (s.queue qn).kept y
  generalize (s.queue qn).kept.foldl (fun (t : State) e => t.putRecord q e) y = z at *
  have regs := (shows.regs.trans (.of_cores (by rw [rest]))).trans put.regs
  refine ⟨regs.regsTo_next ((put.fcore.trans (by rw [rest])).trans shows.fcore), ?_, ?_⟩
  · exact put.posts.trans ((by rw [rest] : y.posts = x.posts).trans shows.posts)
  · exact (put.queue qn).trans set

theorem State.rcEvtq_sets_mem (hi : s.Inv) (empty : (s.queue (s.queueNo s.fcore)).kept = []) :
    let u := s.rcEvtq a b
    let at' := spadBase s.fcore + va
    Memory.readNat u.mem at' 4 = 0 ∧ Memory.readNat u.mem (at' + 4) 4 = 0 ∧ Memory.readNat u.mem (at' + 8) 4 = (s.queue (s.queueNo s.fcore)).lost % 2 ^ 32 ∧ MemBut s u at' 64 := by
  rw [State.rcEvtq_sets_eq ha hb fits inside aligned, empty]
  obtain ⟨tail, head, lost, but⟩ := State.clearedQueue_spec hi (Queue.setAt s.fcore va len) ((s.queue (s.queueNo s.fcore)).lost % 2 ^ 32)
  rw [Nat.mod_mod] at lost
  have mem (x : State) (n : Nat) (f : Queue → Queue) : ((x.modQueue n f).rcNext s.fcore 4).mem = x.mem := by
    show (x.modQueue n f).mem = x.mem
    rw [State.modQueue_rest]
  have mem := mem (s.clearedQueue (Queue.setAt s.fcore va len) ((s.queue (s.queueNo s.fcore)).lost % 2 ^ 32)) (s.queueNo s.fcore) (fun _ => Queue.setAt s.fcore va len)
  rw [← mem] at tail head lost
  exact ⟨tail, head, lost, fun y hy => (congrArg (Memory.read · y) mem).trans (but y hy)⟩

end Sets

theorem State.rcEvtqWait_waits (h : (s.queue (s.queueNo s.fcore)).isSet = false ∨ s.queueWord (s.queue (s.queueNo s.fcore)) 0 = s.queueWord (s.queue (s.queueNo s.fcore)) 1) :
    s.rcEvtqWait d = s := by
  unfold State.rcEvtqWait
  dsimp only
  rw [if_pos]
  simpa using h

theorem State.rcEvtqWait_answers (hq : (s.queue (s.queueNo s.fcore)).isSet = true) (h : s.queueWord (s.queue (s.queueNo s.fcore)) 0 ≠ s.queueWord (s.queue (s.queueNo s.fcore)) 1) :
    s.rcEvtqWait d = s.rcPut d (s.queueWord (s.queue (s.queueNo s.fcore)) 0) := by
  unfold State.rcEvtqWait
  dsimp only
  rw [if_neg]
  simp [hq, h]

/-! ## EVENT_POST (R317, R318) -/

section Post

variable (hm : s.posts.findIdx? (fun r => r.source == source) = some m) (he : s.posts[m]? = some e)
include hm he

theorem State.postRecord_gone (hg : s.queueGone e.queue = true) : s.postRecord source = s.dropPost m := by
  unfold State.postRecord
  simp only [hm, he, hg, if_true]

variable (hg : s.queueGone e.queue = false)
include hg

theorem State.postRecord_waits (hn : s.noRoom e.queue = true) (hl : e.mayLose = false) : s.postRecord source = s := by
  unfold State.postRecord
  simp only [hm, he, hg, hn, hl, Bool.not_true, Bool.false_eq_true, if_false]

theorem State.postRecord_room (hn : s.noRoom e.queue = false) :
    s.postRecord source = if (s.queue e.queue).isSet then (s.dropPost m).putRecord (s.queue e.queue) e else (s.dropPost m).modQueue e.queue (fun q => { q with kept := q.kept ++ [e] }) := by
  unfold State.postRecord
  simp only [hm, he, hg, hn, Bool.not_false, Bool.false_eq_true, if_false, if_true]

theorem State.postRecord_lost (hn : s.noRoom e.queue = true) (hl : e.mayLose = true) :
    s.postRecord source = (if (s.queue e.queue).isSet then (s.dropPost m).setQueueWord (s.queue e.queue) 2 ((s.queueWord (s.queue e.queue) 2 + 1) % 2 ^ 32)
      else (s.dropPost m).modQueue e.queue (fun q => { q with lost := q.lost + 1 })).shown e := by
  unfold State.postRecord
  simp only [hm, he, hg, hn, hl, Bool.not_true, Bool.false_eq_true, if_false, if_true]

end Post

theorem State.noRoom_unset (hq : (s.queue e.queue).isSet = false) : s.noRoom e.queue = decide (16 ≤ (s.queue e.queue).kept.length) := by
  unfold State.noRoom
  simp only [hq, Bool.false_eq_true, if_false]

theorem State.noRoom_set (hq : (s.queue e.queue).isSet = true) :
    s.noRoom e.queue = decide ((s.queue e.queue).entries ≤ (s.queueWord (s.queue e.queue) 0 + 2 ^ 32 - s.queueWord (s.queue e.queue) 1) % 2 ^ 32) := by
  unfold State.noRoom
  simp only [hq, if_true]

theorem State.queueWord_dropPost (s : State) (m : Nat) (q : Queue) (i : Nat) : (s.dropPost m).queueWord q i = s.queueWord q i := rfl

theorem State.core_dropPost (s : State) (m j : Nat) : (s.dropPost m).core j = s.core j := rfl

/-- What posts the oldest record of a source, by its queue. -/
theorem State.postRecord_spec (hm : s.posts.findIdx? (fun r => r.source == source) = some m) (he : s.posts[m]? = some e) :
    let q := s.queue e.queue
    let left := s.posts.eraseIdx m
    let b := spadBase q.core + q.base
    let w := b + 0x40 + 32 * (s.queueWord q 0 % q.entries)
    let u := s.postRecord source
    (s.queueGone e.queue = true → u = { s with posts := left }) ∧
    (s.queueGone e.queue = false → s.noRoom e.queue = true → e.mayLose = false → u = s) ∧
    (s.queueGone e.queue = false → q.isSet = false →
      (q.kept.length < 16 → u.mem = s.mem ∧ u.posts = left ∧ u.queue e.queue = { q with kept := q.kept ++ [e] }) ∧
      (16 ≤ q.kept.length → e.mayLose = true → u.posts = left ∧ u.queue e.queue = { q with lost := q.lost + 1 })) ∧
    (s.queueGone e.queue = false → q.isSet = true →
      ((s.queueWord q 0 + 2 ^ 32 - s.queueWord q 1) % 2 ^ 32 < q.entries → u.posts = left ∧
        (e.kind = 0 → e.source < 65536 → e.source % 64 = 49 → (∃ c ∈ (s.core (e.source / 64)).copies, c.2.failed = some e.seq) → (u.core (e.source / 64)).copyF = true) ∧
        (s.Inv → e.body.length = 16 → 65536 ≤ e.source ∨ e.source % 64 ≠ 49 → Memory.readN u.mem w 32 = e.bytes ∧ Memory.readNat u.mem b 4 = (s.queueWord q 0 + 1) % 2 ^ 32 ∧
          ∀ a, (a < b ∨ b + 4 ≤ a) → (a < w ∨ w + 32 ≤ a) → Memory.read u.mem a = Memory.read s.mem a)) ∧
      (q.entries ≤ (s.queueWord q 0 + 2 ^ 32 - s.queueWord q 1) % 2 ^ 32 → e.mayLose = true → u.posts = left ∧
        (s.Inv → 65536 ≤ e.source ∨ e.source % 64 ≠ 49 → Memory.readNat u.mem (b + 8) 4 = (s.queueWord q 2 + 1) % 2 ^ 32 ∧ MemBut s u (b + 8) 4))) := by
  dsimp only
  refine ⟨fun hg => State.postRecord_gone hm he hg, fun hg hn hl => State.postRecord_waits hm he hg hn hl, fun hg hq => ⟨fun room => ?_, fun full hl => ?_⟩, fun hg hq => ⟨fun room => ?_, fun full hl => ?_⟩⟩
  · have eq := State.postRecord_room hm he hg ((State.noRoom_unset hq).trans (decide_eq_false (Nat.not_le.mpr room)))
    rw [hq, if_neg Bool.false_ne_true] at eq
    have rest := (s.dropPost m).modQueue_rest e.queue (fun q => { q with kept := q.kept ++ [e] })
    rw [eq]
    refine ⟨by rw [rest]; rfl, by rw [rest]; rfl, (s.dropPost m).queue_modQueue e.queue _⟩
  · have eq := State.postRecord_lost hm he hg ((State.noRoom_unset hq).trans (decide_eq_true full)) hl
    rw [hq, if_neg Bool.false_ne_true] at eq
    have rest := (s.dropPost m).modQueue_rest e.queue (fun q => { q with lost := q.lost + 1 })
    have shown := Shows.shown ((s.dropPost m).modQueue e.queue (fun q => { q with lost := q.lost + 1 })) e
    rw [eq]
    exact ⟨shown.posts.trans (by rw [rest]; rfl), (shown.queue _).trans ((s.dropPost m).queue_modQueue e.queue _)⟩
  · have eq := State.postRecord_room hm he hg ((State.noRoom_set hq).trans (decide_eq_false (Nat.not_le.mpr room)))
    rw [hq, if_pos rfl] at eq
    have put := Shows.putRecord (s.dropPost m) (s.queue e.queue) e
    have written := State.mem_putRecord (s := s.dropPost m) (e := e) (q := s.queue e.queue)
    have shown := State.copyF_putRecord (s := s.dropPost m) (e := e) (q := s.queue e.queue)
    rw [State.queueWord_dropPost] at written
    rw [State.core_dropPost] at shown
    rw [eq]
    exact ⟨put.posts, shown, written⟩
  · have eq := State.postRecord_lost hm he hg ((State.noRoom_set hq).trans (decide_eq_true full)) hl
    rw [hq, if_pos rfl] at eq
    rw [eq]
    have shows := Shows.setQueueWord (s.dropPost m) (s.queue e.queue) 2 ((s.queueWord (s.queue e.queue) 2 + 1) % 2 ^ 32)
    have counted (hi : s.Inv) := State.mem_setQueueWord (s := s.dropPost m) hi (s.queue e.queue) 2 ((s.queueWord (s.queue e.queue) 2 + 1) % 2 ^ 32)
    generalize (s.dropPost m).setQueueWord (s.queue e.queue) 2 ((s.queueWord (s.queue e.queue) 2 + 1) % 2 ^ 32) = z at *
    refine ⟨(shows.trans (.shown _ e)).posts, fun hi hs => ?_⟩
    obtain ⟨word, but⟩ := counted hi
    rw [Nat.mod_mod] at word
    have mem := State.mem_shown (s := z) hs
    rw [← mem] at word
    exact ⟨word, fun y hy => (congrArg (Memory.read · y) mem).trans (but y hy)⟩

end Sys2Proof.Machine
end

section
/-! What KILL leaves of a region, its controller and its node (R327). -/

namespace Sys2Proof.Machine

variable {s t u : State} {g : Region} {n pt : Nat}

/-! ## Copies whose nodes are still those of copies -/

/-- A core has copies of no other nodes than before. -/
def Core.CopiesFrom (c d : Core) : Prop := ∀ x ∈ d.copies, ∃ y ∈ c.copies, y.2.node = x.2.node

theorem Core.CopiesFrom.of_copies {c d : Core} (h : d.copies = c.copies) : c.CopiesFrom d := fun x hx => ⟨x, h ▸ hx, rfl⟩

/-- No core has copies of nodes that it had none of. -/
def CopiesFrom (s t : State) : Prop := ∀ j, (s.core j).CopiesFrom (t.core j)

namespace CopiesFrom

theorem trans (h : CopiesFrom s t) (k : CopiesFrom t u) : CopiesFrom s u := fun j x hx => by
  obtain ⟨y, hy, e⟩ := k j x hx
  obtain ⟨z, hz, f⟩ := h j y hy
  exact ⟨z, hz, f.trans e⟩

theorem of_copies (h : ∀ j, (t.core j).copies = (s.core j).copies) : CopiesFrom s t := fun j => .of_copies (h j)
theorem of_cores (h : t.cores = s.cores) : CopiesFrom s t := of_copies fun j => by unfold State.core; rw [h]
theorem refl (s : State) : CopiesFrom s s := of_cores rfl
theorem foldl {β : Type} (f : State → β → State) (hf : ∀ s b, CopiesFrom s (f s b)) (l : List β) (s : State) : CopiesFrom s (l.foldl f s) :=
  foldl_inv (P := fun t => CopiesFrom s t) (fun t b h => h.trans (hf t b)) l s (.refl s)

theorem modCore (s : State) (k : Nat) (f : Core → Core) (hf : ∀ c, (f c).copies = c.copies) : CopiesFrom s (s.modCore k f) := of_copies fun j => by
  rw [State.core_modCore]
  split
  · subst_vars; exact hf _
  · rfl

theorem unhold (s : State) (pt : Nat) (p : Nat × Nat → Bool) : CopiesFrom s (s.unhold pt p) := fun j => by
  have map : (s.unhold pt p).cores = s.cores.map (fun e => (e.1, if bit (s.part pt).isles (isleOf e.1) then e.2.unhold p else e.2)) :=
    List.map_congr_left fun e _ => by split <;> rfl
  have core : aget (s.unhold pt p).cores j = (aget s.cores j).map (fun (c : Core) => if bit (s.part pt).isles (isleOf j) then c.unhold p else c) := by
    rw [map]
    exact aget_map s.cores (fun j (c : Core) => if bit (s.part pt).isles (isleOf j) then c.unhold p else c) j
  unfold State.core
  rw [core]
  cases aget s.cores j with
  | none => exact .of_copies rfl
  | some c =>
    show Core.CopiesFrom c (if bit (s.part pt).isles (isleOf j) then c.unhold p else c)
    split
    · intro x hx
      obtain ⟨y, hy, rfl⟩ := List.mem_map.mp hx
      exact ⟨y, hy, rfl⟩
    · exact .of_copies rfl

theorem of_translated (h : Translated s t) : CopiesFrom s t := of_copies fun j => by rw [h.core j]

theorem releaseTile (s : State) (pt x : Nat) : CopiesFrom s (s.releaseTile pt x) := by
  have tr := of_translated (translate_spec s (s.part pt).supervisor pt (x * 2048) false)
  unfold State.releaseTile
  split
  · next ht => rwa [ht] at tr
  · next ht => rw [ht] at tr; exact tr.trans (.of_cores rfl)

theorem reclaim (s : State) (pt : Nat) (was : List Nat) : CopiesFrom s (s.reclaim pt was) := by
  unfold State.reclaim
  split
  · exact .refl s
  · exact (foldl (fun t x => t.releaseTile pt x) (fun t x => .releaseTile t pt x) _ s).trans (.unhold _ pt _)

theorem tellAll (s : State) (c : Comm) (kind index : Nat) (clr : Clr) : CopiesFrom s (s.tellAll c kind index clr) :=
  foldl _ (fun _ _ => .of_cores (by unfold State.tell State.sendColl; dsimp only; split <;> rfl)) _ _

theorem loseNode (s : State) (n : Nat) : CopiesFrom s (s.loseNode n) :=
  (foldl (fun (t : State) (m : Nat × Nat × Comm) => t.tellAll m.2.2 5 0 []) (fun t m => .tellAll t m.2.2 5 0 []) _ s).trans (.of_cores rfl)

theorem endMembers (s : State) (n : Nat) : CopiesFrom s (s.endMembers n) := by
  unfold State.endMembers
  refine CopiesFrom.trans (foldl (fun (t : State) (m : Nat × Nat × Comm) => (t.modCore m.2.2.core (fun c => { c with rank := c.rank - 1 })).tellAll m.2.2 3 0 []) (fun t m => ?_) _ s)
    (.of_cores rfl)
  exact (modCore t m.2.2.core (fun c => { c with rank := c.rank - 1 }) fun _ => rfl).trans (.tellAll _ m.2.2 3 0 [])

end CopiesFrom

/-! ## A region that is killed -/

/-- A core of a killed region: tokens, histories and the node's copies are discarded. -/
def Core.killed (node : Nat) (c : Core) : Core :=
  { c.clearTokens with
    hists := c.clearTokens.hists.map (fun (h : Nat × Hist) => (h.1, { h.2 with queue := [], out := [], held := none }))
    copies := c.copies.filter (fun e => e.2.node != node) }

theorem Core.SameRegs.clearTokens (c : Core) : c.SameRegs c.clearTokens :=
  mapCells (fun _ x => x.clearTokens) rfl (fun _ x => ⟨rfl, rfl, fun i => by
    show ((x.ctxs.map Ctx.clearTokens).getD i {}).o = (x.ctxs.getD i {}).o
    rw [List.getD_eq_getElem?_getD, List.getD_eq_getElem?_getD, List.getElem?_map]
    cases x.ctxs[i]? <;> rfl⟩) ⟨rfl, rfl, rfl⟩

theorem Core.SameRegs.killed (node : Nat) (c : Core) : c.SameRegs (c.killed node) := (clearTokens c).trans (of_cells rfl ⟨rfl, rfl, rfl⟩)

/-- The controller of a killed region. -/
def Rc.killed (r : Rc) : Rc :=
  { r with mode := .stopped, inPhase := false, aborting := false, dying := false, waits := false, loads := [], loadHeld := none, barc := [], held := none, extract := [] }

/-- A region that is killed. -/
def Region.killed (r : Region) : Region := { r with st := .killed, pending := false }

/-- A node loses the shadow tiles of its operands. -/
def Node.unshadowed (v : Node) : Node := { v with ops := v.ops.map (fun o => { o with shadow := [] }) }

/-- A region whose units and controller have stopped, before its node's memberships and tiles go. -/
def State.stopRegion (s : State) (g : Region) : State :=
  ((((((s.modRegion g.lead Region.killed).modCores g.coreList (Core.killed g.node)).deadBarriers g.lead).reclaimFrames g.lead).modRc g.lead
    Rc.killed).modNode g.node Node.unshadowed)

theorem State.killRegion_done (h : g.st = .killed) : s.killRegion g = s := if_pos h

theorem State.killRegion_eq (h : g.st ≠ .killed) :
    s.killRegion g = (((s.stopRegion g).loseNode g.node).endMembers g.node).reclaim g.part (s.busyTiles g.part) := if_neg h

theorem State.deadBarriers_rest (s : State) (lead : Nat) : s.deadBarriers lead = { s with mem := (s.deadBarriers lead).mem } :=
  foldl_inv (P := fun t : State => t = { s with mem := t.mem }) (fun t i h => by rw [h]) _ s rfl

/-- A region whose cores have stopped. -/
def State.stopCores (s : State) (g : Region) : State := (s.modRegion g.lead Region.killed).modCores g.coreList (Core.killed g.node)

theorem State.stopCores_rest (s : State) (g : Region) : s.stopCores g = { s with cores := (s.stopCores g).cores, regions := (s.modRegion g.lead Region.killed).regions } :=
  State.modCores_rest ..

theorem State.stopRegion_eq (s : State) (g : Region) :
    s.stopRegion g = ((((s.stopCores g).deadBarriers g.lead).reclaimFrames g.lead).modRc g.lead Rc.killed).modNode g.node Node.unshadowed := rfl

/-- What a region that stops leaves of the state, for what follows. -/
structure Stopped (s t : State) (g : Region) : Prop where
  rest    : t = { s with mem := t.mem, cores := t.cores, isles := t.isles, nodes := t.nodes, regions := (s.modRegion g.lead Region.killed).regions }
  regs    : KeepsRegs s t
  cores   : ∀ j ∈ g.coreList, (t.core j).hasTokens = false ∧ ∀ c ∈ (t.core j).copies, c.2.node ≠ g.node
  lead    : (t.rc g.lead).mode = .stopped ∧ (t.rc g.lead).inPhase = false
  nodes   : ∀ v, aget t.nodes g.node = some v → ∀ o ∈ v.ops, o.shadow = []

theorem State.stopRegion_stopped (s : State) (g : Region) : Stopped s (s.stopRegion g) g := by
  rw [State.stopRegion_eq]
  have rest := s.stopCores_rest g
  have regs : KeepsRegs s (s.stopCores g) := (KeepsRegs.of_cores (t := s.modRegion g.lead Region.killed) rfl).trans (.modCores _ g.coreList (Core.killed g.node) (.killed g.node))
  have core (j : Nat) (hj : j ∈ g.coreList) : (s.stopCores g).core j = (s.core j).killed g.node := (State.core_modCores g.coreList_nodup _ _ j).trans (if_pos hj)
  generalize s.stopCores g = c at *
  have dead := c.deadBarriers_rest g.lead
  generalize hb : (c.deadBarriers g.lead).reclaimFrames g.lead = b
  have restB : b = { c with mem := b.mem, isles := b.isles } := by
    rw [← hb, dead]
    rfl
  have coreB (j : Nat) : b.core j = c.core j := by
    unfold State.core
    rw [restB]
  have restN := (b.modRc g.lead Rc.killed).modNode_rest g.node Node.unshadowed
  have nodes := (b.modRc g.lead Rc.killed).aget_modNode g.node Node.unshadowed
  generalize (b.modRc g.lead Rc.killed).modNode g.node Node.unshadowed = n at *
  have coreN (j : Nat) : n.core j = (b.modRc g.lead Rc.killed).core j := by
    unfold State.core
    rw [restN]
  refine ⟨?_, ?_, fun j hj => ?_, ?_, fun v hv o ho => ?_⟩
  · rw [restN]
    show { b with cores := _, nodes := _ } = _
    rw [restB, rest]
    rfl
  · refine (regs.trans (.of_cores (by rw [restB]))).trans ((KeepsRegs.modRc b g.lead Rc.killed fun _ => ⟨rfl, rfl, rfl⟩).trans (.of_cores (by rw [restN])))
  · have same : (n.core j).copies = (b.core j).copies ∧ (n.core j).hasTokens = (b.core j).hasTokens := by
      rw [coreN]
      show (((b.modCore g.lead _).core j).copies = _) ∧ _
      rw [State.modRc, State.core_modCore]
      split
      · subst_vars; exact ⟨rfl, rfl⟩
      · exact ⟨rfl, rfl⟩
    rw [same.1, same.2, coreB, core j hj]
    refine ⟨Core.hasTokens_clearTokens _, fun x hx => ?_⟩
    simpa using (List.mem_filter.mp hx).2
  · unfold State.rc
    rw [coreN]
    show ((b.modRc g.lead Rc.killed).rc g.lead).mode = _ ∧ ((b.modRc g.lead Rc.killed).rc g.lead).inPhase = _
    rw [State.rc_modRc, if_pos rfl]
    exact ⟨rfl, rfl⟩
  · rw [hv] at nodes
    obtain ⟨w, -, rfl⟩ := Option.map_eq_some_iff.mp nodes.symm
    obtain ⟨x, -, rfl⟩ := List.mem_map.mp ho
    rfl

end Sys2Proof.Machine
end

section
/-! KILL of a region, of a saved one, and of a partition's (R321, R327). -/

namespace Sys2Proof.Machine

variable {s t u : State} {g : Region} {v : Saved} {a pt h : Nat}

/-! ## A region that KILL stops -/

/-- A region is killed: its units hold nothing, its controller has stopped, and its node has no shadow tiles. -/
def KilledIn (g : Region) (u : State) : Prop :=
  (∀ r ∈ u.regions, r.lead = g.lead → r.st = .killed) ∧ (∀ j ∈ g.coreList, (u.core j).hasTokens = false ∧ ∀ c ∈ (u.core j).copies, c.2.node ≠ g.node) ∧
    (u.rc g.lead).mode = .stopped ∧ (u.rc g.lead).inPhase = false ∧ ∀ v, aget u.nodes g.node = some v → ∀ o ∈ v.ops, o.shadow = []

/-- What KILL of a region leaves of the state. -/
structure Kills (s t : State) (g : Region) : Prop where
  regs    : KeepsRegs s t
  killed  : KilledIn g t
  regions : t.regions = (s.modRegion g.lead Region.killed).regions
  posts   : t.posts = s.posts
  fcore   : t.fcore = s.fcore
  saved   : t.saved = s.saved

theorem State.killRegion_kills (h : g.st ≠ .killed) : Kills s (s.killRegion g) g := by
  rw [State.killRegion_eq h]
  have stop := s.stopRegion_stopped g
  generalize s.stopRegion g = x at *
  have regs := (stop.regs.trans (EachCore.loseNode Core.SameRegs.lasts x g.node)).trans (EachCore.endMembers Core.SameRegs.lasts (x.loseNode g.node) g.node)
  have copies := (CopiesFrom.loseNode x g.node).trans (.endMembers (x.loseNode g.node) g.node)
  have tokens := (EachCore.loseNode Core.hasTokens_lasts x g.node).trans Core.hasTokens_lasts (EachCore.endMembers Core.hasTokens_lasts (x.loseNode g.node) g.node)
  have parted := (Parted.loseNode x g.node).trans (.endMembers (x.loseNode g.node) g.node)
  generalize (x.loseNode g.node).endMembers g.node = y at *
  have regs := regs.trans (.reclaim y g.part (s.busyTiles g.part))
  have copies := copies.trans (.reclaim y g.part (s.busyTiles g.part))
  have tokens := EachCore.trans Core.hasTokens_lasts tokens (EachCore.reclaim Core.hasTokens_lasts y g.part (s.busyTiles g.part))
  have released := y.reclaim_spec g.part (s.busyTiles g.part)
  generalize y.reclaim g.part (s.busyTiles g.part) = z at *
  have regions : z.regions = (s.modRegion g.lead Region.killed).regions := by rw [released.rest, parted.rest, stop.rest]
  refine ⟨regs, ⟨fun r hr hl => ?_, fun j hj => ⟨?_, fun c hc => ?_⟩, ?_, ?_, fun v hv => ?_⟩, regions, ?_, ?_, ?_⟩
  · rw [regions] at hr
    obtain ⟨q, -, -, rfl⟩ := State.mem_modRegion hr hl
    rfl
  · exact (tokens j).trans (stop.cores j hj).1
  · obtain ⟨w, hw, e⟩ := copies j c hc
    exact e ▸ (stop.cores j hj).2 w hw
  · rw [released.rc, parted.rc]
    exact stop.lead.1
  · rw [released.rc, parted.rc]
    exact stop.lead.2
  · obtain ⟨w, hw, e⟩ := released.nodes _ v hv
    rw [parted.rest] at hw
    rw [e]
    exact stop.nodes w hw
  · rw [released.rest, parted.rest, stop.rest]
  · rw [released.rest, parted.rest, stop.rest]
  · rw [released.rest, parted.rest, stop.rest]

theorem KilledIn.rcNext {k n : Nat} (h : KilledIn g u) : KilledIn g (u.rcNext k n) := by
  obtain ⟨regions, cores, mode, phase, nodes⟩ := h
  have core (j : Nat) : ((u.rcNext k n).core j).copies = (u.core j).copies ∧ ((u.rcNext k n).core j).hasTokens = (u.core j).hasTokens := by
    show ((u.modCore k _).core j).copies = _ ∧ ((u.modCore k _).core j).hasTokens = _
    rw [State.core_modCore]
    split
    · subst_vars; exact ⟨rfl, rfl⟩
    · exact ⟨rfl, rfl⟩
  have rc : ((u.rcNext k n).rc g.lead).mode = (u.rc g.lead).mode ∧ ((u.rcNext k n).rc g.lead).inPhase = (u.rc g.lead).inPhase := by
    show ((u.modRc k _).rc g.lead).mode = _ ∧ ((u.modRc k _).rc g.lead).inPhase = _
    rw [State.rc_modRc]
    split
    · subst_vars; exact ⟨rfl, rfl⟩
    · exact ⟨rfl, rfl⟩
  refine ⟨regions, fun j hj => ?_, rc.1.trans mode, rc.2.trans phase, nodes⟩
  rw [(core j).1, (core j).2]
  exact cores j hj

/-! ## KILL -/

theorem State.rcKill_resident (h : s.regionOf (s.partAt s.fcore) (s.q s.fcore a) = some g) : s.rcKill a = (s.killRegion g).rcNext s.fcore 4 := by
  unfold State.rcKill
  simp only [h]

theorem State.rcKill_saved (h : s.regionOf (s.partAt s.fcore) (s.q s.fcore a) = none) (hs : s.savedOf (s.partAt s.fcore) (s.q s.fcore a) = some v) :
    s.rcKill a = (s.killSaved v).rcNext s.fcore 4 := by
  unfold State.rcKill
  simp only [h, hs]

theorem State.rcKill_none (h : s.regionOf (s.partAt s.fcore) (s.q s.fcore a) = none) (hs : s.savedOf (s.partAt s.fcore) (s.q s.fcore a) = none) : s.rcKill a = s.rcTrap 0x0F4 := by
  unfold State.rcKill
  simp only [h, hs]

/-! ## A saved node that ends (R327) -/

theorem State.stopNode_fcore (s : State) (n : Nat) : (s.stopNode n).fcore = s.fcore := by
  unfold State.stopNode
  dsimp only
  have stopped := s.modNode_rest n (fun v => { v with st := 4, ops := v.ops.map (fun o => { o with shadow := [] }) })
  generalize s.modNode n (fun v => { v with st := 4, ops := v.ops.map (fun o => { o with shadow := [] }) }) = x at *
  have released := x.reclaim_spec (s.partOfNode n) (s.busyTiles (s.partOfNode n))
  generalize x.reclaim (s.partOfNode n) (s.busyTiles (s.partOfNode n)) = y at *
  refine (congrArg State.fcore ((Parted.loseNode _ n).trans (.endMembers _ n)).rest).trans ?_
  exact released.fcore.trans (by rw [stopped])

/-- A saved node and those of the same node are no longer kept. -/
def Saved.endedBy (v w : Saved) : Saved := if w.node = v.node then { w with live := false } else w

theorem State.killSaved_eq (s : State) (v : Saved) : s.killSaved v = { (s.postKillDone v.region).stopNode v.node with saved := s.saved.map v.endedBy } := rfl

/-- What the end of a saved node leaves of the state. -/
structure EndsSaved (s t : State) (v : Saved) : Prop where
  regs    : KeepsRegs s t
  posts   : t.posts = s.posts ++ [s.seqRecord 6 v.region []]
  saved   : t.saved = s.saved.map v.endedBy
  node    : ∀ w, aget t.nodes v.node = some w → w.st = 4
  fcore   : t.fcore = s.fcore
  regions : t.regions = s.regions

theorem State.killSaved_ends (s : State) (v : Saved) : EndsSaved s (s.killSaved v) v := by
  rw [State.killSaved_eq]
  have posted : (s.postKillDone v.region).posts = s.posts ++ [s.seqRecord 6 v.region []] := rfl
  have regs : KeepsRegs s (s.postKillDone v.region) := .of_cores rfl
  have fcore : (s.postKillDone v.region).fcore = s.fcore := rfl
  have regions : (s.postKillDone v.region).regions = s.regions := rfl
  generalize s.postKillDone v.region = x at *
  obtain ⟨posts, sameRegions, -, -, node⟩ := x.stopNode_spec v.node
  have stays := EachCore.stopNode Core.SameRegs.lasts x v.node
  have sameCore : (x.stopNode v.node).fcore = x.fcore := x.stopNode_fcore v.node
  generalize x.stopNode v.node = y at *
  exact ⟨(regs.trans stays).trans (.of_cores rfl), posts.trans posted, rfl, node, sameCore.trans fcore, sameRegions.trans regions⟩

/-- KILL of a node that is saved and not resident. -/
theorem State.rcKill_ends (h : s.regionOf (s.partAt s.fcore) (s.q s.fcore a) = none) (hs : s.savedOf (s.partAt s.fcore) (s.q s.fcore a) = some v) :
    let u := s.rcKill a
    RegsTo s u 0 0 4 ∧ u.posts = s.posts ++ [s.seqRecord 6 v.region []] ∧ (∀ w ∈ u.saved, w.node = v.node → w.live = false) ∧ ∀ w, aget u.nodes v.node = some w → w.st = 4 := by
  rw [State.rcKill_saved h hs]
  have ends := s.killSaved_ends v
  generalize s.killSaved v = x at *
  have saved : ∀ w ∈ x.saved, w.node = v.node → w.live = false := by
    rw [ends.saved]
    intro w hw hn
    obtain ⟨y, -, rfl⟩ := List.mem_map.mp hw
    unfold Saved.endedBy at hn ⊢
    split
    · rfl
    · next ne => rw [if_neg ne] at hn; exact absurd hn ne
  exact ⟨ends.regs.regsTo_next ends.fcore, ends.posts, saved, ends.node⟩

/-! ## KILL_PART (R321) -/

/-- Regions that are killed in turn: what is left as it was had been killed before, or is none of them. -/
theorem State.killRegions_spec (l : List Region) : ∀ s : State,
    let t := l.foldl (fun s g => s.killRegion g) s
    KeepsRegs s t ∧ t.fcore = s.fcore ∧ t.saved = s.saved ∧ ∀ r ∈ t.regions, r.st = .killed ∨ (r ∈ s.regions ∧ ∀ g ∈ l, g.lead = r.lead → g.st = .killed) := by
  induction l with
  | nil => exact fun s => ⟨.refl s, rfl, rfl, fun r hr => .inr ⟨hr, nofun⟩⟩
  | cons g l ih =>
    intro s
    have tail := ih (s.killRegion g)
    dsimp only [List.foldl_cons] at tail ⊢
    generalize l.foldl (fun s g => s.killRegion g) (s.killRegion g) = t at *
    obtain ⟨regs, fcore, saved, regions⟩ := tail
    by_cases hg : g.st = .killed
    · rw [State.killRegion_done hg] at regs fcore saved regions
      refine ⟨regs, fcore, saved, fun r hr => (regions r hr).imp_right fun ⟨hs, hl⟩ => ⟨hs, fun x hx e => ?_⟩⟩
      rcases List.mem_cons.mp hx with rfl | hx
      · exact hg
      · exact hl x hx e
    · have kills := s.killRegion_kills hg
      refine ⟨kills.regs.trans regs, fcore.trans kills.fcore, saved.trans kills.saved, fun r hr => (regions r hr).elim .inl fun ⟨hs, hl⟩ => ?_⟩
      rw [kills.regions] at hs
      obtain ⟨y, hy, rfl⟩ := List.mem_map.mp hs
      by_cases e : y.lead = g.lead
      · rw [if_pos e]
        exact .inl rfl
      · rw [if_neg e] at hl ⊢
        refine .inr ⟨hy, fun x hx f => ?_⟩
        rcases List.mem_cons.mp hx with rfl | hx
        · exact absurd f.symm e
        · exact hl x hx f

/-- Saved nodes that end in turn: what is still kept is none of them. -/
theorem State.killSaveds_spec (l : List Saved) : ∀ s : State,
    let t := l.foldl (fun s v => s.killSaved v) s
    KeepsRegs s t ∧ t.fcore = s.fcore ∧ t.regions = s.regions ∧ ∀ w ∈ t.saved, w.live = false ∨ (w ∈ s.saved ∧ ∀ v ∈ l, w.node ≠ v.node) := by
  induction l with
  | nil => exact fun s => ⟨.refl s, rfl, rfl, fun w hw => .inr ⟨hw, nofun⟩⟩
  | cons v l ih =>
    intro s
    have tail := ih (s.killSaved v)
    dsimp only [List.foldl_cons] at tail ⊢
    generalize l.foldl (fun s v => s.killSaved v) (s.killSaved v) = t at *
    obtain ⟨regs, fcore, regions, saved⟩ := tail
    have ends := s.killSaved_ends v
    generalize s.killSaved v = x at *
    refine ⟨ends.regs.trans regs, fcore.trans ends.fcore, regions.trans ends.regions, fun w hw => (saved w hw).elim .inl fun ⟨hs, hl⟩ => ?_⟩
    rw [ends.saved] at hs
    obtain ⟨y, hy, rfl⟩ := List.mem_map.mp hs
    unfold Saved.endedBy at hl ⊢
    by_cases e : y.node = v.node
    · rw [if_pos e]
      exact .inl rfl
    · rw [if_neg e] at hl ⊢
      exact .inr ⟨hy, List.forall_mem_cons.mpr ⟨e, hl⟩⟩

theorem State.killPart_spec (s : State) (pt : Nat) :
    let t := s.killPart pt
    KeepsRegs s t ∧ t.fcore = s.fcore ∧ (∀ r ∈ t.regions, r.part = pt → r.st = .killed) ∧ ∀ v ∈ t.saved, v.part = pt → v.live = false := by
  unfold State.killPart
  obtain ⟨regs, fcore, saved, regions⟩ := State.killRegions_spec (s.regions.filter (fun g => g.part == pt)) s
  generalize (s.regions.filter (fun g => g.part == pt)).foldl (fun s g => s.killRegion g) s = x at *
  obtain ⟨regs', fcore', regions', saved'⟩ := State.killSaveds_spec (s.saved.filter (fun v => v.live && v.part == pt)) x
  refine ⟨regs.trans regs', fcore'.trans fcore, fun r hr hp => ?_, fun v hv hp => ?_⟩
  · rw [regions'] at hr
    exact (regions r hr).elim id fun ⟨hs, hl⟩ => hl r (List.mem_filter.mpr ⟨hs, beq_iff_eq.mpr hp⟩) rfl
  · refine (saved' v hv).elim id fun ⟨hs, hl⟩ => Bool.eq_false_iff.mpr fun live => ?_
    rw [saved] at hs
    exact hl v (List.mem_filter.mpr ⟨hs, by simp [live, hp]⟩) rfl

end Sys2Proof.Machine
end

section
/-! PRMT, and what a region does that drains, is frozen, runs out of time or is killed (R319, R321 to R323, R327). -/

namespace Sys2Proof.Machine

variable {s t u : State} {g : Region} {a k lead pt : Nat}

/-! ## PRMT (R321) -/

theorem State.rcPrmt_none (h : s.regionOf (s.partAt s.fcore) (s.q s.fcore a) = none) : s.rcPrmt a = s.rcTrap 0x0F4 := by
  unfold State.rcPrmt
  simp only [h]

theorem State.rcPrmt_refuses (h : s.regionOf (s.partAt s.fcore) (s.q s.fcore a) = some g) (hs : g.st ≠ .running ∨ g.pending = true) : s.rcPrmt a = s.rcTrap 0x0F5 := by
  unfold State.rcPrmt
  simp only [h]
  exact if_pos hs

theorem State.rcPrmt_drains (h : s.regionOf (s.partAt s.fcore) (s.q s.fcore a) = some g) (hs : g.st = .running) (hp : g.pending = false) :
    s.rcPrmt a = (s.askDrain g.lead false false).rcNext s.fcore 4 := by
  unfold State.rcPrmt
  simp only [h]
  exact if_neg (by simp [hs, hp])

theorem Drains.rcNext {sub n : Nat} (h : Drains s t g sub) : Drains s (t.rcNext k n) g sub where
  st := h.st
  passed j hj l := by
    unfold State.rcNext
    rw [State.cell_modRc]
    exact h.passed j hj l
  marks loads j hj l x p port mine outside := by
    have same : (t.rcNext k n).fifoAt j l x p = t.fifoAt j l x p := by
      unfold State.rcNext State.fifoAt State.port State.ctx
      rw [if_pos port.1, if_pos port.1, State.cell_modRc]
    rw [same]
    exact h.marks loads j hj l x p port mine outside

/-- Regions of a list are asked to drain in their stages' turns. -/
theorem State.askLater_spec (l : List Region) : ∀ s : State,
    let t := l.foldl (fun s g => s.askDrain g.lead false true) s
    t = { s with regions := t.regions } ∧ ∀ r ∈ t.regions, r.pending = true ∨ (r ∈ s.regions ∧ ∀ g ∈ l, g.lead ≠ r.lead) := by
  induction l with
  | nil => exact fun s => ⟨rfl, fun r hr => .inr ⟨hr, nofun⟩⟩
  | cons g l ih =>
    intro s
    have tail := ih (s.askDrain g.lead false true)
    dsimp only [List.foldl_cons] at tail ⊢
    generalize l.foldl (fun s g => s.askDrain g.lead false true) (s.askDrain g.lead false true) = t at *
    obtain ⟨rest, regions⟩ := tail
    rw [State.askDrain_later] at rest regions
    refine ⟨rest, fun r hr => (regions r hr).elim .inl fun ⟨hs, hl⟩ => ?_⟩
    obtain ⟨y, hy, rfl⟩ := List.mem_map.mp hs
    by_cases e : y.lead = g.lead
    · rw [if_pos e]
      exact .inl rfl
    · rw [if_neg e] at hl ⊢
      exact .inr ⟨hy, List.forall_mem_cons.mpr ⟨Ne.symm e, hl⟩⟩

theorem State.rcPrmtPart_spec (s : State) :
    RcTo { s with regions := s.rcPrmtPart.regions } s.rcPrmtPart (Rc.skip 4) ∧ ∀ r ∈ s.rcPrmtPart.regions, r.part = s.partAt s.fcore → r.st = .running → r.pending = true := by
  unfold State.rcPrmtPart
  dsimp only
  obtain ⟨rest, regions⟩ := State.askLater_spec (s.regions.filter (fun g => g.part == s.partAt s.fcore && g.st == .running && !g.pending)) s
  generalize (s.regions.filter (fun g => g.part == s.partAt s.fcore && g.st == .running && !g.pending)).foldl (fun s g => s.askDrain g.lead false true) s = t at *
  have next := RcTo.next t 4
  have hk : t.fcore = s.fcore := by rw [rest]
  rw [hk] at next
  have same : (t.rcNext s.fcore 4).regions = t.regions := rfl
  rw [same]
  refine ⟨rest ▸ next, fun r hr hp hs => (regions r hr).elim id fun ⟨hm, hl⟩ => ?_⟩
  by_contra np
  exact hl r (List.mem_filter.mpr ⟨hm, by simp [hp, hs, np]⟩) rfl

/-! ## REGION_FROZEN (R322) -/

section Freezes

variable (hg : s.regionAt k = some g) (hk : g.lead = k)
include hg hk

theorem State.regionFreezes_begins (h : s.turnHasCome g = true) : s.regionFreezes k = s.beginDrain g.lead := by
  subst hk
  unfold State.regionFreezes
  simp only [hg, h, ne_eq, not_true_eq_false, if_false, if_true]

theorem State.regionFreezes_waits (h : s.turnHasCome g = false) (hd : s.drained g = false) : s.regionFreezes k = s := by
  subst hk
  unfold State.regionFreezes
  simp only [hg, h, hd, ne_eq, not_true_eq_false, Bool.false_eq_true, if_false]

theorem State.regionFreezes_freezes (h : s.turnHasCome g = false) (hd : s.drained g = true) : s.regionFreezes k = s.freeze g := by
  subst hk
  unfold State.regionFreezes
  simp only [hg, h, hd, ne_eq, not_true_eq_false, Bool.false_eq_true, if_false, if_true]

end Freezes

/-- A region's copies stand as the region is frozen. -/
def Copy.frozenWith (node : Nat) (c : Copy) : Copy := if c.node = node then { c with frozen := true } else c

/-- A region that is frozen, its record not yet posted. -/
def State.stand (s : State) (g : Region) : State :=
  (s.modRegion g.lead (fun r => { r with st := .frozen })).modCore g.lead (fun c => { c with copies := c.copies.map (fun e => (e.1, e.2.frozenWith g.node)) })

theorem State.freeze_eq (s : State) (g : Region) : s.freeze g = if g.capture then s.stand g else
    (s.stand g).post g.part 5 (sequencerKey (dieOf g.lead)) (dieOf g.lead) (leBytes 2 (regionHandle g.lead) ++ leBytes 1 g.stage ++ List.replicate 5 0 ++ leBytes 8 (s.imageBytes g)) false := by
  unfold State.freeze
  rfl

theorem State.stand_spec (s : State) (g : Region) :
    (∀ r ∈ (s.stand g).regions, r.lead = g.lead → r.st = .frozen) ∧ ∀ c ∈ ((s.stand g).core g.lead).copies, c.2.node = g.node → c.2.frozen = true := by
  refine ⟨fun r hr hl => ?_, fun c hc hn => ?_⟩
  · obtain ⟨x, -, -, rfl⟩ := State.mem_modRegion hr hl
    rfl
  · unfold State.stand at hc
    rw [State.core_modCore, if_pos rfl] at hc
    obtain ⟨e, -, rfl⟩ := List.mem_map.mp hc
    unfold Copy.frozenWith at hn ⊢
    by_cases h : e.2.node = g.node
    · simp only [h, if_true]
    · simp only [h, if_false] at hn

theorem State.freeze_spec (s : State) (g : Region) :
    let u := s.freeze g
    (∀ r ∈ u.regions, r.lead = g.lead → r.st = .frozen) ∧ (∀ c ∈ (u.core g.lead).copies, c.2.node = g.node → c.2.frozen = true) ∧
    u.posts = s.posts ++ (if g.capture then [] else [s.seqRecord 5 g (leBytes 1 g.stage ++ List.replicate 5 0 ++ leBytes 8 (s.imageBytes g))]) := by
  obtain ⟨regions, copies⟩ := s.stand_spec g
  have posts : (s.stand g).posts = s.posts := rfl
  have seqs : (s.stand g).seqs = s.seqs := rfl
  have time : (s.stand g).time = s.time := rfl
  rw [State.freeze_eq]
  generalize s.imageBytes g = n
  generalize s.stand g = x at *
  cases g.capture with
  | true => exact ⟨regions, copies, posts.trans (List.append_nil _).symm⟩
  | false =>
    refine ⟨regions, copies, ?_⟩
    simp only [Bool.false_eq_true, if_false]
    unfold State.post State.nextSeq State.seqRecord
    simp only [posts, seqs, time, List.append_assoc]

/-! ## PREEMPT_TIMEOUT (R323) -/

theorem State.preemptTimeout_early (hg : s.regionAt k = some g) (h : s.time < g.since + (s.part g.part).deadline) : s.preemptTimeout k = s := by
  unfold State.preemptTimeout
  simp only [hg, h, or_true, if_true]

/-- The record of a drain that is late. -/
def State.timedOut (s : State) (g : Region) (k : Nat) : State := s.postUnit g.part 0 4 (dieOf k) 61 0x0F6 0 0 (regionHandle k)

theorem State.preemptTimeout_late (hg : s.regionAt k = some g) (hk : g.lead = k) (hc : g.capture = false) (hd : g.st = .draining ∨ g.pending = true)
    (h : g.since + (s.part g.part).deadline ≤ s.time) : s.preemptTimeout k = if bit (s.part g.part).pctl 0 then (s.timedOut g k).runOn k else (s.timedOut g k).killRegion g := by
  unfold State.preemptTimeout
  simp only [hg]
  rw [if_neg]
  · rfl
  · simp [hk, hc, Nat.not_lt.mpr h, hd]

/-- The record that a drain is late. -/
def State.lateRecord (s : State) (g : Region) (k : Nat) : EvRec :=
  { s.unitRecord g.part 0 4 (dieOf k) 61 0x0F6 0 0 with body := (faultBody 0x0F6 0 4 0 0 (dieOf k + 61 * 4) 0 (regionHandle k) ++ List.replicate 16 0).take 16 }

/-- A drain that is late is reported; its region is killed or runs on, as the partition's policy says. -/
theorem State.preemptTimeout_spec (hg : s.regionAt k = some g) (hk : g.lead = k) (hc : g.capture = false) (hd : g.st = .draining ∨ g.pending = true)
    (h : g.since + (s.part g.part).deadline ≤ s.time) :
    let u := s.preemptTimeout k
    u.posts = s.posts ++ [s.lateRecord g k] ∧ (bit (s.part g.part).pctl 0 = false → g.st ≠ .killed → KilledIn g u) ∧
    (bit (s.part g.part).pctl 0 = true → u.mem = s.mem ∧ (∀ r ∈ u.regions, r.lead = k → r.st = .running ∧ r.pending = false ∧ r.marked = false ∧ r.capture = false) ∧
      ∀ i v, (s.rc k).mode = .sys i (some v) → u.rc k = (s.rc k).resume i v) := by
  rw [State.preemptTimeout_late hg hk hc hd h]
  have posts : (s.timedOut g k).posts = s.posts ++ [s.lateRecord g k] := rfl
  have mem : (s.timedOut g k).mem = s.mem := rfl
  have rc : (s.timedOut g k).rc k = s.rc k := rfl
  generalize s.timedOut g k = x at *
  cases bit (s.part g.part).pctl 0 with
  | true =>
    have rest := x.runOn_rest k
    have rcs := x.rc_runOn k k
    rw [if_pos rfl, rc] at rcs
    rw [if_pos rfl]
    generalize x.runOn k = y at *
    refine ⟨by rw [rest]; exact posts, nofun, fun _ => ⟨by rw [rest]; exact mem, fun r hr hl => ?_, fun i v hm => rcs.trans (Rc.resumed_returns hm)⟩⟩
    rw [rest] at hr
    obtain ⟨q, -, -, rfl⟩ := State.mem_modRegion hr hl
    exact ⟨rfl, rfl, rfl, rfl⟩
  | false =>
    rw [if_neg Bool.false_ne_true]
    by_cases hs : g.st = .killed
    · rw [State.killRegion_done hs]
      exact ⟨posts, fun _ ne => absurd hs ne, nofun⟩
    · have kills := x.killRegion_kills hs
      exact ⟨kills.posts.trans posts, fun _ _ => kills.killed, nofun⟩

/-! ## TIMER_EXPIRY (R238) -/

theorem State.timerExpires_spec (h : (s.rc k).timer = 1) :
    OnlyRc s (s.timerExpires k) k ∧ (s.timerExpires k).rc k = { s.rc k with timer := 0, ev := (s.rc k).ev ||| 2 ^ 5 } := by
  unfold State.timerExpires
  rw [if_pos h]
  exact ⟨s.only_modRc k Rc.expire, (State.rc_modRc ..).trans (if_pos rfl)⟩

/-! ## KILL_DONE (R319, R327) -/

theorem State.killDone_waits (hg : s.regionAt k = some g) (h : s.remoteClear g.coreList = false) : s.killDone k = s := by
  unfold State.killDone
  simp only [hg, h, Bool.false_eq_true, and_false, if_false]

theorem State.killDone_ends (hg : s.regionAt k = some g) (hk : g.lead = k) (hs : g.st = .killed) (h : s.remoteClear g.coreList = true) : s.killDone k = s.finishKill g := by
  unfold State.killDone
  simp only [hg, hk, hs, h, and_self, if_true]

theorem State.finishKill_spec (s : State) (g : Region) :
    let u := s.finishKill g
    u.posts = s.posts ++ [s.seqRecord 6 g []] ∧ (∀ r ∈ u.regions, r.lead ≠ g.lead) ∧ ∀ w, aget u.nodes g.node = some w → w.st = 4 := by
  have posted : (s.postKillDone g).posts = s.posts ++ [s.seqRecord 6 g []] := rfl
  unfold State.finishKill
  generalize s.postKillDone g = x at *
  obtain ⟨posts, -, -, -, node⟩ := x.stopNode_spec g.node
  generalize x.stopNode g.node = y at *
  refine ⟨posts.trans posted, fun r hr => ?_, node⟩
  simpa using (List.mem_filter.mp hr).2

end Sys2Proof.Machine
end

section
/-! A cell that passes a drain's marker on (R322). -/

namespace Sys2Proof.Machine

variable {s t u : State} {g : Region} {k l x e p : Nat}

/-! ## Tokens that enter edges of a cell, one after another -/

theorem State.cellEdges_nodup (s : State) (k l : Nat) : (s.cellEdges k l).Nodup := by
  refine nodup_flatMap_of_key Prod.fst (List.nodup_range.filter _) (fun x _ => ?_) (fun x e he => ?_)
  · exact (List.nodup_range.filter _).map fun a b h => (Prod.mk.inj h).2
  · obtain ⟨p, -, rfl⟩ := List.mem_map.mp he
    rfl

/-- An update of a context leaves the others. -/
theorem State.ctx_modCtx_other (s : State) (k l : Nat) {x y : Nat} (h : x ≠ y) (f : Ctx → Ctx) : (s.modCtx k l y f).ctx k l x = s.ctx k l x := by
  unfold State.ctx
  rw [State.cell_modCtx, if_pos ⟨rfl, rfl⟩]
  exact List.getD_modify_other _ _ _ _ _ h

/-- An update of an edge leaves the others of its cell. -/
theorem State.HasEdge.modEdge_other (h : s.HasEdge k l x e) {y a : Nat} (ne : (x, e) ≠ (y, a)) (f : Edge → Edge) :
    (s.modEdge k l y a f).edge k l x e = s.edge k l x e ∧ (s.modEdge k l y a f).HasEdge k l x e := by
  by_cases hx : x = y
  · subst hx
    obtain ⟨edge, has⟩ := State.edge_modEdge_at h a f
    rw [if_neg fun he => ne (by rw [he])] at edge
    exact ⟨edge, has⟩
  · have ctx : (s.modEdge k l y a f).ctx k l x = s.ctx k l x := by
      unfold State.modEdge
      rw [if_pos h.1]
      exact State.ctx_modCtx_other s k l hx _
    refine ⟨?_, h.1, (KeepsTasks.modEdge s k l y a f).ctxs ▸ h.2.1, ctx ▸ h.2.2⟩
    unfold State.edge
    rw [ctx, if_pos h.1, if_pos h.1]

/-- A token enters each edge of a list. -/
def State.sendEach (s : State) (k l : Nat) (tok : Token) (es : List (Nat × Nat)) : State := es.foldl (fun s e => s.enter k l e.1 e.2 tok) s

/-- What tokens that enter edges leave of a cell. -/
structure Sends (s t : State) (k l : Nat) : Prop where
  mem    : t.mem = s.mem
  rc     : SameRc s t
  tokens : SameTokens s t k l
  passed : (t.cell k l).passed = (s.cell k l).passed

theorem Sends.sendEach (s : State) (k l : Nat) (tok : Token) (es : List (Nat × Nat)) : Sends s (s.sendEach k l tok es) k l :=
  foldl_inv (P := fun t => Sends s t k l) (fun t e h => ⟨(State.mem_modEdge ..).trans h.mem, h.rc.trans (SameRc.modEdge t k l e.1 e.2 _),
    h.tokens.trans (.modEdge ..), (congrArg Cell.passed (State.cell_modEdge ..)).trans h.passed⟩) es s ⟨rfl, .refl s, .refl .., rfl⟩

theorem State.HasEdge.sendEach_others (h : s.HasEdge k l x e) {es : List (Nat × Nat)} (he : (x, e) ∉ es) (tok : Token) :
    (s.sendEach k l tok es).edge k l x e = s.edge k l x e := by
  induction es generalizing s with
  | nil => rfl
  | cons a es ih =>
    obtain ⟨ne, hes⟩ := not_or.mp fun hh => he (List.mem_cons.mpr hh)
    obtain ⟨edge, has⟩ := h.modEdge_other (y := a.1) (a := a.2) ne _
    exact (ih has hes).trans edge

theorem State.HasEdge.sendEach_sends (h : s.HasEdge k l x e) {es : List (Nat × Nat)} (hn : es.Nodup) (he : (x, e) ∈ es) (tok : Token) :
    SentOn s (s.sendEach k l tok es) k l x e tok := by
  induction es generalizing s with
  | nil => cases he
  | cons a es ih =>
    obtain ⟨ha, hes⟩ := List.nodup_cons.mp hn
    by_cases eq : (x, e) = a
    · subst eq
      have entered : (s.enter k l x e tok).edge k l x e = _ ∧ (s.enter k l x e tok).HasEdge k l x e := State.edge_modEdge_at h e _
      have rest := entered.2.sendEach_others ha tok
      rw [entered.1, if_pos rfl] at rest
      exact congrArg Edge.flight rest
    · obtain ⟨edge, has⟩ := h.modEdge_other (y := a.1) (a := a.2) eq _
      have later := ih has hes ((List.mem_cons.mp he).resolve_left eq)
      unfold SentOn at later
      rw [edge, State.edgeWord_modEdge] at later
      exact later

/-! ## Markers that leave the ports of a cell -/

/-- What a cell keeps as tokens leave its ports. -/
structure Takes (s t : State) (k l : Nat) : Prop where
  mem   : t.mem = s.mem
  cell  : t.cell k l = { s.cell k l with ctxs := (t.cell k l).ctxs }
  ctxs  : (t.cell k l).ctxs.length = (s.cell k l).ctxs.length
  edges : SameEdges s t k l
  ports : ∀ x, (t.ctx k l x).ports.length = (s.ctx k l x).ports.length

namespace Takes

theorem refl (s : State) (k l : Nat) : Takes s s k l := ⟨rfl, rfl, rfl, .refl s k l, fun _ => rfl⟩
theorem trans (h : Takes s t k l) (g : Takes t u k l) : Takes s u k l :=
  ⟨g.mem.trans h.mem, by rw [g.cell, h.cell], g.ctxs.trans h.ctxs, h.edges.trans g.edges, fun x => (g.ports x).trans (h.ports x)⟩

theorem hasPort (h : Takes s t k l) (hp : s.HasPort k l x p) : t.HasPort k l x p := hp.of_ctx h.ctxs (h.ports x)

theorem modCtx (s : State) (k l x : Nat) (f : Ctx → Ctx) (he : ∀ c, (f c).edges = c.edges) (hp : ∀ c, (f c).ports.length = c.ports.length) : Takes s (s.modCtx k l x f) k l where
  mem := rfl
  cell := by
    rw [State.cell_modCtx, if_pos ⟨rfl, rfl⟩]
    rfl
  ctxs := State.ctxs_length ..
  edges y := State.ctx_modCtx_keeps (P := Ctx.edges) he ..
  ports y := State.ctx_modCtx_keeps (P := fun c => c.ports.length) hp ..

theorem popPort (s : State) {k l : Nat} (hl : l < 32) (x p : Nat) : Takes s (s.popPort k l x p) k l := by
  unfold State.popPort State.modPort
  rw [if_pos hl]
  exact modCtx s k l x _ (fun _ => rfl) fun _ => List.length_modify ..

theorem of_cores (hc : t.cores = s.cores) (hm : t.mem = s.mem) : Takes s t k l := by
  have cell : t.cell k l = s.cell k l := by unfold State.cell State.core; rw [hc]
  exact ⟨hm, by rw [cell], by rw [cell], fun x => by unfold State.ctx; rw [cell], fun x => by unfold State.ctx; rw [cell]⟩

end Takes

/-- A token that fills a slot changes its context's slot, and may post a record of the one that it replaces. -/
theorem State.fillSlot_eq (s : State) (k l x : Nat) (tok : Token) : ∃ v : State, v.cores = s.cores ∧ v.mem = s.mem ∧ s.fillSlot k l x tok = v.modCtx k l x (fun c => { c with slot := some tok }) := by
  refine ⟨_, ?_, ?_, rfl⟩
  · split
    · split <;> rfl
    · rfl
  · split
    · split <;> rfl
    · rfl

theorem Takes.fillSlot (s : State) (k l x : Nat) (tok : Token) : Takes s (s.fillSlot k l x tok) k l := by
  obtain ⟨v, cores, mem, eq⟩ := s.fillSlot_eq k l x tok
  rw [eq]
  exact (of_cores cores mem).trans (.modCtx v k l x _ (fun _ => rfl) fun _ => rfl)

theorem State.fifo_fillSlot (hl : l < 32) (s : State) (k y : Nat) (tok : Token) (x p : Nat) : (s.fillSlot k l y tok).fifoAt k l x p = s.fifoAt k l x p := by
  obtain ⟨v, cores, -, eq⟩ := s.fillSlot_eq k l y tok
  have cell : v.cell k l = s.cell k l := by unfold State.cell State.core; rw [cores]
  rw [eq]
  unfold State.fifoAt State.port
  rw [if_pos hl, if_pos hl, State.ctx_modCtx_keeps (P := Ctx.ports) (by intro c; rfl)]
  unfold State.ctx
  rw [cell]

/-- A port's head is taken, as the marker of a drain: one that captures fills the slot (R182, R377). -/
def State.takeHead (s : State) (capture : Bool) (k l : Nat) (q : Nat × Nat) : State :=
  match (s.port k l q.1 q.2).fifo with
  | [] => s
  | t :: _ => let u := s.popPort k l q.1 q.2; if capture then u.fillSlot k l q.1 t.tok else u

theorem Takes.takeHead (hl : l < 32) (s : State) (capture : Bool) (k : Nat) (q : Nat × Nat) : Takes s (s.takeHead capture k l q) k l := by
  unfold State.takeHead
  split
  · exact .refl ..
  · dsimp only
    split
    · exact (popPort s hl q.1 q.2).trans (.fillSlot ..)
    · exact popPort s hl q.1 q.2

theorem State.HasPort.takeHead (h : s.HasPort k l x p) (capture : Bool) : (s.takeHead capture k l (x, p)).fifoAt k l x p = (s.fifoAt k l x p).drop 1 := by
  unfold State.takeHead
  split
  · next hf => exact (congrArg (List.drop 1) (show s.fifoAt k l x p = [] from hf)).symm ▸ hf
  · dsimp only
    split
    · rw [State.fifo_fillSlot h.1, popPort_port h]
    · exact popPort_port h

theorem State.HasPort.popPort_other (h : s.HasPort k l x p) {q : Nat × Nat} (ne : (x, p) ≠ q) : (s.popPort k l q.1 q.2).fifoAt k l x p = s.fifoAt k l x p := by
  obtain ⟨y, a⟩ := q
  unfold State.popPort State.fifoAt State.port State.modPort
  rw [if_pos h.1, if_pos h.1, if_pos h.1]
  by_cases hx : x = y
  · subst hx
    rw [State.ctx_modCtx _ _ _ _ _ _ _ _ h.2.1, if_pos ⟨rfl, rfl, rfl⟩]
    exact congrArg Port.fifo (List.getD_modify_other _ _ _ _ _ fun hp => ne (by rw [hp]))
  · rw [State.ctx_modCtx_other s k l hx]

theorem State.HasPort.takeHead_other (h : s.HasPort k l x p) (capture : Bool) {q : Nat × Nat} (ne : (x, p) ≠ q) : (s.takeHead capture k l q).fifoAt k l x p = s.fifoAt k l x p := by
  unfold State.takeHead
  split
  · rfl
  · dsimp only
    split
    · rw [State.fifo_fillSlot h.1, h.popPort_other ne]
    · exact h.popPort_other ne

/-- The heads of several ports are taken. -/
def State.takeHeads (s : State) (capture : Bool) (k l : Nat) (ps : List (Nat × Nat)) : State := ps.foldl (fun s q => s.takeHead capture k l q) s

theorem Takes.takeHeads (hl : l < 32) (s : State) (capture : Bool) (k : Nat) (ps : List (Nat × Nat)) : Takes s (s.takeHeads capture k l ps) k l :=
  foldl_inv (P := fun t => Takes s t k l) (fun t q h => h.trans (.takeHead hl t capture k q)) ps s (.refl ..)

theorem State.HasPort.takeHeads_others (h : s.HasPort k l x p) (capture : Bool) {ps : List (Nat × Nat)} (hn : (x, p) ∉ ps) : (s.takeHeads capture k l ps).fifoAt k l x p = s.fifoAt k l x p := by
  induction ps generalizing s with
  | nil => rfl
  | cons q ps ih =>
    obtain ⟨ne, hps⟩ := not_or.mp fun hh => hn (List.mem_cons.mpr hh)
    exact (ih ((Takes.takeHead h.1 s capture k q).hasPort h) hps).trans (h.takeHead_other capture ne)

theorem State.HasPort.takeHeads_drops (h : s.HasPort k l x p) (capture : Bool) {ps : List (Nat × Nat)} (hn : ps.Nodup) (hm : (x, p) ∈ ps) :
    (s.takeHeads capture k l ps).fifoAt k l x p = (s.fifoAt k l x p).drop 1 := by
  induction ps generalizing s with
  | nil => cases hm
  | cons q ps ih =>
    obtain ⟨hq, hps⟩ := List.nodup_cons.mp hn
    have port := (Takes.takeHead h.1 s capture k q).hasPort h
    by_cases eq : (x, p) = q
    · subst eq
      exact (port.takeHeads_others capture hq).trans (h.takeHead capture)
    · have later := ih port hps ((List.mem_cons.mp hm).resolve_left eq)
      rw [h.takeHead_other capture eq] at later
      exact later

end Sys2Proof.Machine
end

section
/-! PREEMPT_MARKER_FORWARD at a cell that every marker has reached (R322). -/

namespace Sys2Proof.Machine

variable {s : State} {g : Region} {k l : Nat}

/-- A cell that has passed a marker on, with an empty matching store. -/
def Cell.passes (c : Cell) : Cell := { c with matching := [], passed := true }

/-- What a matching store still holds is recorded as residue of the region. -/
def State.discardMatching (s : State) (lead : Nat) (empty : Bool) : State := if empty then s else s.modRc lead (fun r => { r with residue := true })

theorem State.discardMatching_rest (s : State) (lead : Nat) (empty : Bool) : (s.discardMatching lead empty).mem = s.mem ∧ ∀ i j, (s.discardMatching lead empty).cell i j = s.cell i j := by
  unfold State.discardMatching
  split
  · exact ⟨rfl, fun _ _ => rfl⟩
  · exact ⟨rfl, fun i j => State.cell_modRc ..⟩

theorem Takes.discardMatching (s : State) (lead : Nat) (empty : Bool) : Takes s (s.discardMatching lead empty) k l := by
  obtain ⟨mem, cell⟩ := s.discardMatching_rest lead empty
  exact ⟨mem, by rw [cell], by rw [cell], fun x => by unfold State.ctx; rw [cell], fun x => by unfold State.ctx; rw [cell]⟩

/-- The drain's markers at a cell's ports, and what the cell holds then. -/
structure State.MarkersCome (s : State) (g : Region) (k l : Nat) : Prop where
  region  : s.regionAt k = some g
  drains  : g.st = .draining
  marked  : g.marked = true
  waits   : (s.cell k l).passed = false
  some    : s.cellPorts k l ≠ []
  heads   : ∀ q ∈ s.cellPorts k l, s.markAt g k l q.1 q.2 = true
  thawed  : (s.frozenUnits g).contains (k, l) = false
  idle    : (s.cell k l).running = none ∧ (s.cell k l).ready = [] ∧ (s.cell k l).done = [] ∧ (s.cell k l).held = []
  unmatched : (s.cell k l).matching.any (s.matched k l) = false
  returns : s.returnsDone k l = true

theorem State.passMarker_eq (h : s.MarkersCome g k l) : s.passMarker k l =
    ((((s.takeHeads g.capture k l (s.cellPorts k l)).discardMatching g.lead (s.cell k l).matching.isEmpty).modCell k l Cell.passes).sendEach k l g.mark (s.cellEdges k l)) := by
  obtain ⟨running, ready, done, held⟩ := h.idle
  unfold State.passMarker
  simp only [h.region]
  rw [if_neg, if_neg, if_neg, if_neg, if_neg]
  · rfl
  · simp [running, ready, done, held, h.unmatched, h.returns]
  · obtain ⟨q, hq⟩ := List.exists_mem_of_ne_nil _ h.some
    simpa using ⟨q.1, q.2, hq, h.heads q hq⟩
  · simpa using fun x p hq hf => absurd (h.heads (x, p) hq) (Bool.eq_false_iff.mp hf)
  · rw [h.thawed]
    exact Bool.false_ne_true
  · simp [h.drains, h.marked, h.waits, h.some]

/-- A cell at which every marker stands takes them and passes one on at each edge; what it cannot match any more is residue. -/
theorem State.passMarker_passes (h : s.MarkersCome g k l) (ports : ∀ q ∈ s.cellPorts k l, s.HasPort k l q.1 q.2) :
    let u := s.passMarker k l
    (u.cell k l).passed = true ∧ (u.cell k l).matching = [] ∧ ((s.cell k l).matching ≠ [] → (u.rc g.lead).residue = true) ∧
    (∀ q ∈ s.cellPorts k l, u.fifoAt k l q.1 q.2 = (s.fifoAt k l q.1 q.2).drop 1) ∧
    ∀ x ∈ s.cellEdges k l, s.HasEdge k l x.1 x.2 → SentOn s u k l x.1 x.2 g.mark := by
  have nodup := s.cellPorts_nodup k l
  have edges := s.cellEdges_nodup k l
  obtain ⟨q, hq⟩ := List.exists_mem_of_ne_nil _ h.some
  have hl : l < 32 := (ports q hq).1
  rw [State.passMarker_eq h]
  have took := Takes.takeHeads hl s g.capture k (s.cellPorts k l)
  have drops (q : Nat × Nat) (hq : q ∈ s.cellPorts k l) := (ports q hq).takeHeads_drops g.capture nodup hq
  generalize s.takeHeads g.capture k l (s.cellPorts k l) = t at *
  have kept := took.trans (.discardMatching t g.lead (s.cell k l).matching.isEmpty)
  have residue : (s.cell k l).matching ≠ [] → ((t.discardMatching g.lead (s.cell k l).matching.isEmpty).rc g.lead).residue = true := fun hm => by
    unfold State.discardMatching
    rw [if_neg (by simpa using hm), State.rc_modRc, if_pos rfl]
  have fifo (x p : Nat) : (t.discardMatching g.lead (s.cell k l).matching.isEmpty).fifoAt k l x p = t.fifoAt k l x p := by
    unfold State.fifoAt State.port State.ctx
    rw [if_pos hl, if_pos hl, (t.discardMatching_rest ..).2]
  generalize t.discardMatching g.lead (s.cell k l).matching.isEmpty = v at *
  have cell : (v.modCell k l Cell.passes).cell k l = (v.cell k l).passes := (State.cell_modCell ..).trans (if_pos ⟨rfl, rfl⟩)
  have sends := Sends.sendEach (v.modCell k l Cell.passes) k l g.mark (s.cellEdges k l)
  refine ⟨?_, ?_, fun hm => ?_, fun q hq => ?_, fun x hx he => ?_⟩
  · rw [sends.passed, cell]
    rfl
  · rw [sends.tokens.matching, cell]
    rfl
  · rw [sends.rc, State.rc_modCell]
    exact residue hm
  · rw [sends.tokens.fifo, ← drops q hq, ← fifo]
    unfold State.fifoAt State.port State.ctx
    rw [if_pos hl, if_pos hl, cell]
    rfl
  · have same : SameEdges s (v.modCell k l Cell.passes) k l := kept.edges.trans (.modCell v k l rfl)
    have has : (v.modCell k l Cell.passes).HasEdge k l x.1 x.2 := ⟨he.1, by rw [cell]; exact kept.ctxs ▸ he.2.1, same x.1 ▸ he.2.2⟩
    have sent := has.sendEach_sends edges hx g.mark
    unfold SentOn at sent
    rw [same.edge hl, mem_edgeWord (show (v.modCell k l Cell.passes).mem = s.mem from kept.mem)] at sent
    exact sent

end Sys2Proof.Machine
end

section
/-! What a supervisor does to registers, translations, regions and event queues, and what follows of itself (R314 to R327, R333, R334). -/

namespace Sys2Proof.Machine

/-- Settles O43, instruction by instruction and event by event, from what each operation leaves of the controllers, the regions and memory. -/
theorem rcSupervision : Obligations.RcSupervision := by
  unfold Obligations.RcSupervision
  intro s d a b n m g e k pt va len target qn p killed
  have ha : s.q s.fcore a = va := s.q_eq a
  have hb : s.q s.fcore b = len := s.q_eq b
  have ht : bits (s.q s.fcore a) 15 6 = target := congrArg (bits · 15 6) ha
  refine ⟨fun hl => ⟨?reserved, ?unreached, fun hr => ?registers, ?tlbi, fun h => ?absent, fun h => ?resident, ?killPart, ?prmtPart, ?evtq, ?wait⟩,
    fun hg => ⟨?marker, fun hk => ⟨fun ht => ?begins, fun ht hd => ?waits, fun ht hd => ?freezes, fun hc hd => ?timeout, fun _ hr => ?stays, fun hs hr => ?ends⟩⟩,
    fun hm he => ?record, fun h => ?expires, fun h => ?runs⟩
  case reserved => exact State.privileged_reserved hl
  case unreached => exact State.privileged_unreached hl ht
  case registers =>
    refine ⟨fun hn => State.rcMfp_reads hl ht hn hr rfl, fun w hw => ?_, fun w hw => ?_, fun hw hn t hs hk => State.rcMtp_goes_on hl ht hn hr hb hw hs hk⟩
    · simp only [List.mem_cons, List.not_mem_nil, or_false] at hw
      rcases hw with rfl | rfl | rfl | rfl | rfl | rfl | rfl <;> exact State.rcMfp_reads hl ht rfl hr rfl
    · simp only [List.mem_cons, List.not_mem_nil, or_false] at hw
      rcases hw with rfl | rfl | rfl | rfl | rfl <;> exact State.rcMtp_writes_part hl ht rfl hr hb rfl rfl rfl
  case tlbi =>
    have gone {i : Instr} {lo m : Nat} (hx : exec i s = .next (s.rcTlbi lo m)) :
        (s.remoteOut k 8 ≠ 0 → exec i s = .next s) ∧
        (s.remoteOut k 8 = 0 → (∀ c ∈ s.cores, ∀ l ∈ c.2.cells, l.2.held = []) → ∃ u, exec i s = .next u ∧ RegsTo s u 0 0 4 ∧ u.mem = s.mem ∧
          (∀ c ∈ u.cores, bit (s.part pt).isles (isleOf c.1) = true → ∀ x ∈ c.2.tcache, pageMeets x.1 x.2.2 lo m = false) ∧
          (∀ c ∈ u.isles, bit (s.part pt).isles c.1 = true → ∀ x ∈ c.2.tcache, pageMeets x.1 x.2.2 lo m = false) ∧ (∀ x ∈ u.dies, ∀ w ∈ x.2.walks, w.part ≠ pt) ∧
          ∀ v ∈ u.nodes, v.2.part = pt → ∀ c, v.2.held = some c → ¬(0x060 ≤ c.1 ∧ c.1 ≤ 0x064 ∧ lo ≤ c.2 ∧ c.2 < lo + m)) := by
      refine ⟨fun hr => hx.trans (congrArg _ (State.rcTlbi_waits hr)), fun hr quiet => ?_⟩
      obtain ⟨regs, mem, ⟨cores, isles, walks⟩, nodes⟩ := State.rcTlbi_drops (lo := lo) (n := m) hr quiet
      exact ⟨_, hx, regs, mem, cores, isles, walks, nodes⟩
    have range := State.exec_level 1 (s.rcTlbiRange a b) (i := .rcTlbiRange a b) rfl hl
    refine ⟨gone (ha ▸ State.exec_level 1 _ rfl hl), gone (State.exec_level 1 _ rfl hl), fun hv hn hz => gone (range.trans (congrArg _ (State.rcTlbiRange_drops ha hb hv hn hz))), fun bad => ?_⟩
    exact State.stops (range.trans (congrArg _ (State.rcTlbiRange_refuses ha hb bad))) (by decide)
  case absent =>
    have kill := State.exec_level 1 (s.rcKill a) (i := .rcKill a) rfl hl
    have prmt := State.exec_level 1 (s.rcPrmt a) (i := .rcPrmt a) rfl hl
    rw [← ha] at h ⊢
    refine ⟨State.stops (prmt.trans (congrArg _ (State.rcPrmt_none h))) (by decide), fun hs => State.stops (kill.trans (congrArg _ (State.rcKill_none h hs))) (by decide), fun v hs => ?_⟩
    exact ⟨_, kill, State.rcKill_ends h hs⟩
  case resident =>
    have kill := State.exec_level 1 (s.rcKill a) (i := .rcKill a) rfl hl
    have prmt := State.exec_level 1 (s.rcPrmt a) (i := .rcPrmt a) rfl hl
    rw [← ha] at h
    rw [State.rcKill_resident h] at kill
    refine ⟨fun hs => ?_, fun hs => ?_, fun hs => State.stops (prmt.trans (congrArg _ (State.rcPrmt_refuses h hs))) (by decide), fun hs hp hr => ?_⟩
    · rw [State.killRegion_done hs] at kill
      exact ⟨_, kill, .next s 4⟩
    · have kills := s.killRegion_kills hs
      exact ⟨_, kill, kills.regs.regsTo_next kills.fcore, kills.posts, kills.killed.rcNext⟩
    · obtain ⟨rest, regs, -⟩ := s.askDrain_spec g.lead false
      have fcore : (s.askDrain g.lead false false).fcore = s.fcore := by rw [rest]
      have posts : (s.askDrain g.lead false false).posts = s.posts := by rw [rest]
      have mem : (s.askDrain g.lead false false).mem = s.mem := by rw [rest]
      exact ⟨_, prmt.trans (congrArg _ (State.rcPrmt_drains h hs hp)), regs.regsTo_next fcore, posts, mem, (State.askDrain_drains hr).rcNext⟩
  case killPart =>
    obtain ⟨regs, fcore, regions, saved⟩ := s.killPart_spec pt
    exact ⟨_, State.exec_level 1 s.rcKillPart rfl hl, regs.regsTo_next fcore, regions, saved⟩
  case prmtPart =>
    obtain ⟨only, regions⟩ := s.rcPrmtPart_spec
    exact ⟨_, State.exec_level 1 s.rcPrmtPart rfl hl, only, regions⟩
  case evtq =>
    have evtq := State.exec_level 1 (s.rcEvtq a b) (i := .rcEvtq a b) rfl hl
    refine ⟨fun hf => State.stops (evtq.trans (congrArg _ (State.rcEvtq_size hb hf))) (by decide), fun hf big => ?_, fun hf hi odd => ?_, fun hf hi even => ?_⟩
    · have eq := State.rcEvtq_eq ha hb hf
      rw [if_pos big] at eq
      exact State.stops (evtq.trans (congrArg _ eq)) (by decide)
    · have eq := State.rcEvtq_eq ha hb hf
      rw [if_neg (Nat.not_lt.mpr hi), if_pos odd] at eq
      exact State.stops (evtq.trans (congrArg _ eq)) (by decide)
    · obtain ⟨regs, posts, queue⟩ := State.rcEvtq_sets ha hb hf hi even
      exact ⟨_, evtq, regs, posts, queue, State.rcEvtq_sets_mem ha hb hf hi even⟩
  case wait =>
    have wait := State.exec_level 1 (s.rcEvtqWait d) (i := .rcEvtqWait d) rfl hl
    exact ⟨fun h => wait.trans (congrArg _ (State.rcEvtqWait_waits h)), fun hq h => State.puts_rcPut s (wait.trans (congrArg _ (State.rcEvtqWait_answers hq h))) rfl⟩
  case marker =>
    intro hw hs hm hp hne heads thaw run ready done held unm ret
    have come : s.MarkersCome g p.core p.cell := ⟨hg, hs, hm, hp, hne, fun q hq => (heads q hq).1, thaw, ⟨run, ready, done, held⟩, unm, ret⟩
    exact ⟨_, State.atPlace_of_works hw (fun s k l _ _ => s.passMarker k l), State.passMarker_passes come fun q hq => (heads q hq).2⟩
  case begins =>
    have drains := State.beginDrain_drains (g := g) (hk.symm ▸ hg)
    obtain ⟨rest, -⟩ := s.beginDrain_spec g.lead
    exact ⟨_, congrArg Host.Outcome.next (State.regionFreezes_begins hg hk ht), by rw [rest], by rw [rest], drains⟩
  case waits => exact congrArg Host.Outcome.next (State.regionFreezes_waits hg hk ht hd)
  case freezes =>
    have spec := s.freeze_spec g
    rw [hk] at spec
    exact ⟨_, congrArg Host.Outcome.next (State.regionFreezes_freezes hg hk ht hd), spec⟩
  case timeout =>
    exact ⟨fun early => congrArg Host.Outcome.next (State.preemptTimeout_early hg early), fun late => ⟨_, rfl, State.preemptTimeout_spec hg hk hc hd late⟩⟩
  case stays => exact congrArg Host.Outcome.next (State.killDone_waits hg hr)
  case ends =>
    have spec := s.finishKill_spec g
    rw [hk] at spec
    exact ⟨_, congrArg Host.Outcome.next (State.killDone_ends hg hk hs hr), spec⟩
  case record =>
    obtain ⟨gone, waits, unset, set⟩ := State.postRecord_spec hm he
    refine ⟨fun hq => congrArg Host.Outcome.next (gone hq), fun hq hn hl => congrArg Host.Outcome.next (waits hq hn hl), fun hq hs => ⟨fun room => ⟨_, rfl, (unset hq hs).1 room⟩, fun full hl => ⟨_, rfl, (unset hq hs).2 full hl⟩⟩,
      fun hq hs => ⟨fun room => ⟨_, rfl, (set hq hs).1 room⟩, fun full hl => ⟨_, rfl, (set hq hs).2 full hl⟩⟩⟩
  case expires => exact ⟨_, rfl, State.timerExpires_spec h⟩
  case runs => exact congrArg Host.Outcome.next (if_neg h)

end Sys2Proof.Machine
end
